-- ==== Sys2Proof/Word.lean ====
section
/-!
DEFINITION. The words the manual speaks of: bytes, 16-bit halves, 32-bit registers and 64-bit doublewords.
-/
namespace Sys2Proof

/-- One byte of memory or of a frame on a line. -/
abbrev Byte := BitVec 8
/-- A 16-bit quantity, a binary16 number's bits among them. -/
abbrev Half := BitVec 16
/-- One register of a page (R10). -/
abbrev Word := BitVec 32
/-- A core's integer register (R468). -/
abbrev Dword := BitVec 64

end Sys2Proof
end

