-- ==== Sys2Proof/Syntax.lean ====
section
/-!
DEFINITION. The commands of the CZ9600, one constructor per row of spec/opcode_table.json.
-/
namespace Sys2Proof

/-- The commands the block takes: one constructor per row of the table of operations and events. -/
inductive Instr where
  /-- FRAME_START (R84): At each FS the node fires, it latches statistics, applies a LOCKED commit whose target is this FN and takes the frame. -/
  | frameStart
  /-- COMMIT_CUTOFF (R52): At the commit cutoff, arming for the next FN closes, an ARMED commit becomes LOCKED and the slack governor measures. -/
  | commitCutoff
  /-- STATE_SWEEP (R149): Visits every instance in index order and writes its state record from the newest valid temperature reading. -/
  | stateSweep
  /-- COLOUR_LANE_PASS (R134): A colour lane processes one map entry through fixture lookup, mixing, gains, transfer, quantisation and packing. -/
  | colourLanePass (strand : Fin 64)
  /-- STRAND_PREPARED (R22): Every word of a strand for the frame has been written and every write response has returned. -/
  | strandPrepared (strand : Fin 64)
  /-- FETCH_MISS (R122): A veneer fetch whose data has not returned by its deadline makes the veneer transparent for the rest of the frame. -/
  | fetchMiss (ven : Fin 16)
  /-- SHIFT_START (R178): At t_L, a prepared strand begins the shift of the frame, and an unprepared strand skips it. -/
  | shiftStart (strand : Fin 64)
  /-- SHIFT_END (R186): The shift ends, and read-back records and square check CRCs are formed. -/
  | shiftEnd (strand : Fin 64) (ret : List Bool) (seen : Option (List Nat))
  /-- LATCH_PULSE (R179): LATCHg places its active edge at latch(N) of every frame. -/
  | latchPulse (grp : Fin 16)
  /-- LATCH_PULSE_END (R179): LATCHg returns to its inactive level WIDTH ns after its active edge. -/
  | latchPulseEnd (grp : Fin 16)
  /-- EDGE_PLACE (R167): An edge placer drives its pin to the level of the entry at the head of its queue at the entry's instant, or moves it. -/
  | edgePlace (place : Fin 144 × Option (List Byte))
  /-- PIN_CHECK_SAMPLE (R172): The sampler reads a pin 4 ns after an edge and counts PINERR on a mismatch. -/
  | pinCheckSample (pin : Fin 144) (seen : Bool)
  /-- WORD_READ_MISS (R176): A strand word whose read misses its deadline or fails ECC is sent as code 0 and counted in WORDERR. -/
  | wordReadMiss (strand : Fin 64) (word : Nat)
  /-- MATRIX_SWITCH (R192): At a switching instant of the matrix period, lamp bypasses open and close so that the lit band holds. -/
  | matrixSwitch (strand : Fin 64)
  /-- PWM_PERIOD_START (R196): A PWM period begins, and each channel rises at its phase with its high time. -/
  | pwmPeriodStart (strand : Fin 64)
  /-- DMX_BREAK (R199): A DMX packet begins with a break, copying the slot data of the newest latched frame. -/
  | dmxBreak (strand : Fin 64)
  /-- RDM_GO (R201): A write of RDMCTL.GO queues an RDM request that replaces the next packet. -/
  | rdmGo (a : BitVec 4) (port : Fin 64)
  /-- RDM_RESPONSE_TIMEOUT (R202): No RDM response begins within 2.8 ms, and the status becomes TIMEOUT. -/
  | rdmResponseTimeout (strand : Fin 64)
  /-- RDM_RECEPTION_END (R201): RDM reception ends at message length or after 2.1 ms without a slot, and the status is set. -/
  | rdmReceptionEnd (strand : Fin 64) (data : List Byte) (framing : Bool)
  /-- RDM_MARK_END (R201): After 176 us of mark following an RDM transaction, the port resumes packets. -/
  | rdmMarkEnd (strand : Fin 64)
  /-- PANEL_ROW_SLOT (R205): A panel row slot begins, the row address changes and GCLK pulses follow after the blank. -/
  | panelRowSlot (strand : Fin 64)
  /-- GPIO_PULSE (R207): Pin A places one of K pulses per frame at FS + OFFSET + i * floor(P/K). -/
  | gpioPulse (strand : Fin 64)
  /-- GPIOPUSH (R208): A write of GPIOPUSH appends one timed entry to the queue of the pin it names, or is refused. -/
  | gpiopush (a : BitVec 4) (port : Fin 64) (v : Word)
  /-- TRIG_FILTER_ACCEPT (R212): A TRIG input's change of level is accepted after it has been stable for FILTER ns. -/
  | trigFilterAccept (input : Fin 8) (level : Bool)
  /-- OVR_FIRE (R211): A write of OVR.FIRE fires the override states whose bits are 1. -/
  | ovrFire (a : BitVec 4) (mask : Byte)
  /-- OVR_RELEASE (R211): A write of OVR.RELEASE releases the override states whose bits are 1. -/
  | ovrRelease (a : BitVec 4) (mask : Byte)
  /-- CAL_RUN_START (R235): Starts a calibration run of the next enabled bank every INTERVAL ms, or at once on a temperature move. -/
  | calRunStart (trigger : Option (Fin 4))
  /-- CAL_RUNNOW (R235): A write of CAL.CTL.RUNNOW requests a run of bank BANKSEL. -/
  | calRunnow (bank : Fin 4)
  /-- CAL_WINDOW_OPEN (R232): A bank's 16 us calibration window opens after the latches of the frame, or is deferred. -/
  | calWindowOpen
  /-- CAL_WINDOW_CLOSE (R229): The window closes, the bank's placers resume and delayed entries are placed. -/
  | calWindowClose (hits : List (List Nat))
  /-- CAL_TABLE_COMPUTE_DONE (R230): After window 63, each placer's remapping table is computed and the run is accepted or rejected. -/
  | calTableComputeDone
  /-- CAL_STALE (R236): A bank's tables pass 60 s or the die moves 10 C, so CALIB clears and EVT.STALE is set. -/
  | calStale (bank : Fin 4)
  /-- ADC_GROUP_START (R238): An ADC conversion group starts, becomes pending or is refused. -/
  | adcGroupStart (g : Fin 4)
  /-- ADC_GRPSTART (R251): A write of ADC.GRPSTART starts the groups whose bits are set, in ascending order. -/
  | adcGrpstart (v : Word)
  /-- ADC_SAMPLE (R238): Samples the channel in position i at s + 40 ns + i * 500 ns and writes its corrected result. -/
  | adcSample (raw : BitVec 12)
  /-- ADC_GROUP_END (R239): A group ends 500 ns after its last sample, and any pending start begins. -/
  | adcGroupEnd
  /-- ADC_CAL_START (R240): Starts an ADC calibration every CALPER ms or on a write of CALCTL.NOW. -/
  | adcCalStart
  /-- ADC_CAL_END (R240): A calibration forms its medians and accepts or refuses new OFFSET and GAIN words. -/
  | adcCalEnd (zero full : List Int)
  /-- ADC_CAL_STARVE (R240): A calibration not completed 2 * CALPER ms after it began sets EVT.CALSTARVE. -/
  | adcCalStarve
  /-- DIE_TEMP_CONVERSION (R244): The on-die sensor converts every 1 ms and reports in ADC.DIETEMP. -/
  | dieTempConversion (temp : Half)
  /-- SERVO_MEASUREMENT (R37): A valid offset from the selected source drives the servo's state and its frequency correction. -/
  | servoMeasurement (src : BitVec 3) (off : Int)
  /-- SERVO_SOURCE_TIMEOUT (R37): No measurement arrives for SRCTIMEOUT, and the servo enters HOLDOVER or FREE. -/
  | servoSourceTimeout
  /-- FREQ_SLEW_INCREMENT (R40): While outputs are live, the frequency correction changes by at most SLEWLIM/1,000 each millisecond. -/
  | freqSlewIncrement
  /-- SERVOSRC_WRITE (R37): A write of a different SERVOSRC.SRC code moves the servo to HOLDOVER or FREE and discards measurements. -/
  | servosrcWrite (a : BitVec 4) (src : BitVec 3)
  /-- FREEZE_WRITE (R37): A write of SERVOCTL.FREEZE forces or releases HOLDOVER or FREE. -/
  | freezeWrite (a : BitVec 4) (on : Bool)
  /-- SETGO (R42): A write of TIME.SETGO sets FT to the SET values if a step is permitted, or records step-refused. -/
  | setgo (a : BitVec 4)
  /-- SNAP_CAPTURE (R62): A write of TIME.SNAP.CAP captures FT, FN and the sequence counter at one instant. -/
  | snapCapture (a : BitVec 4)
  /-- ACQWAIT_EXPIRY (R43): ACQWAIT passes since the start, and time becomes valid with FREERUN set. -/
  | acqwaitExpiry
  /-- HOLDOVER_STORE (R44): AON stores the holdover frequency every 10 s while the servo is LOCKED. -/
  | holdoverStore
  /-- MODE_REQUEST (R59): A write of TIME.MODE.REQIDX sets a mode change pending, cancels it or applies it at once before output enable. -/
  | modeRequest (a : BitVec 4) (idx : BitVec 5)
  /-- MODE_CHANGE_T_END (R59): At T_end no FS fires, CURIDX takes the new index, and commits are cancelled with MODECHANGE. -/
  | modeChangeTEnd
  /-- PHASE_STEP_T_END (R60): A held step applies at T_end, FT changes by the offset and commits below M are cancelled with STEPPED. -/
  | phaseStepTEnd
  /-- PHASE_SRC_WRITE (R54): A write of PHASE.SRC enters SEEK, or EPOCH for the epoch source. -/
  | phaseSrcWrite (a : BitVec 4) (src : BitVec 2)
  /-- REFERENCE_INSTANT (R53): A REF_SYNC edge or an LTC reference instant gives a phase sample, and Phi slews or re-phases. -/
  | referenceInstant (ltc : Bool) (t : Nat)
  /-- REFERENCE_MISSED (R54): An expected reference instant is missing, and after 3 misses the tracker holds Phi. -/
  | referenceMissed
  /-- TRIGGER_FIRE (R56): A time trigger reaches its instant and delivers its action to its target, or drops the instant. -/
  | triggerFire (n : Fin 16)
  /-- TRGCFG_WRITE (R57): A write of TRGnCFG configures or enables a trigger, firing it at once if its time is past. -/
  | trgcfgWrite (a : BitVec 4) (n : Fin 16) (v : Word)
  /-- TRGTIME_WRITE (R62): A write of TRGnTIME re-arms an enabled trigger, or applies from the next FS for FRAME. -/
  | trgtimeWrite (n : Fin 16) (v : Word)
  /-- TRGPERIOD_WRITE (R62): A write of TRGnPERIOD reschedules an enabled PERIODIC trigger. -/
  | trgperiodWrite (a : BitVec 4) (n : Fin 16) (v : Word)
  /-- PPS_PULSE (R58): PPS_OUT drives a pulse at every FT second boundary while enabled and time is valid. -/
  | ppsPulse
  /-- PPS_PULSE_END (R58): PPS_OUT returns to its inactive level WIDTH us after the pulse began. -/
  | ppsPulseEnd
  /-- PTP_MESSAGE_RECEIVE (R45): A PTP message on the lead path is timestamped and feeds the servo or the best master clock algorithm. -/
  | ptpMessageReceive (port : Fin 2) (t : Nat) (msg : List Byte)
  /-- PTP_EVENT_TRANSMIT (R34): A Sync or Delay_Req leaves with its departure time inserted one-step. -/
  | ptpEventTransmit (port : Fin 2) (delayReq : Bool)
  /-- REGISTER_WRITE (R68): A write to a register that has no row of its own takes effect under its field class, or faults. -/
  | registerWrite (a : BitVec 4) (off : BitVec 24) (v : Word)
  /-- STAGED_WRITE (R75): A write to a staged field goes into the staging set if the writer owns it and CMT is IDLE. -/
  | stagedWrite (a : BitVec 4) (off : BitVec 24) (v : Word)
  /-- EVENT_CLEAR (R68): A write of 1 to a W1C event bit clears it. -/
  | eventClear (a : BitVec 4) (page : BitVec 12) (bits : Word)
  /-- FAULT_CLEAR (R66): A write of any value to FAULT clears all four of its fields. -/
  | faultClear (a : BitVec 4) (page : BitVec 12)
  /-- CLAIM (R77): CMT.OWN.CLAIM makes the agent owner of an unowned staging set or records CLAIMBUSY. -/
  | claim (a : BitVec 4)
  /-- RELEASE (R77): CMT.OWN.RELEASE by the owner leaves the staging set unowned. -/
  | release (a : BitVec 4)
  /-- SEIZE (R77): CMT.OWN.SEIZE by the Cane responder or the service port takes ownership and cancels a checking or armed commit. -/
  | seize (a : BitVec 4)
  /-- DISCARD (R78): CMT.CTL.DISCARD by the owner in IDLE returns every staged value to its value in force. -/
  | discard (a : BitVec 4)
  /-- DISARM (R83): CMT.CTL.DISARM by the owner cancels a checking or armed commit, or faults LOCKED. -/
  | disarm (a : BitVec 4)
  /-- ARM (R79): A write of CMT.ARM by the owner in IDLE finds the target FN and enters CHECKING. -/
  | arm (a : BitVec 4) (v : Word)
  /-- COMMIT_CHECK_END (R83): The check of the merged configuration ends, and the commit is armed, re-targeted late, missed or rejected. -/
  | commitCheckEnd
  /-- STATHOLD_WRITE (R87): A write of SYS.STATHOLD.COUNT starts or ends a hold of statistics latches. -/
  | statholdWrite (a : BitVec 4) (n : BitVec 7)
  /-- SACN_RENDER_DONE (R112): Rendering of an sACN snapshot ends, and its buffer becomes complete. -/
  | sacnRenderDone (ven : Fin 16)
  /-- SACN_DATA_LOSS (R294): A holding source passes the 2.5 s data-loss timeout. -/
  | sacnDataLoss (universe' : BitVec 16)
  /-- ARBITER_ROUND (R428): An arbiter grants the request with the smallest k, or a reserved grant, and the burst moves. -/
  | arbiterRound (arb : Fin 2)
  /-- ARBITER_REQUEST (R431): A port presents a burst request, which takes a deadline and a pending entry or waits. -/
  | arbiterRequest (arb : Fin 2) (port : Fin 24) (off : BitVec 27) (len : Fin 65) (data : Option (List Byte)) (deadline : Option Word) (tag : Nat)
  /-- FORERUNNER_REPRESENT (R434): A forerunner-mode request presents again after r rounds. -/
  | forerunnerRepresent (arb : Fin 2) (port : Fin 24)
  /-- SCRUB_READ (R419): The patrol scrubber reads the next ECC word and corrects or records any error. -/
  | scrubRead
  /-- FS_INJECT (R437): A write of FS.INJECT.GO arms one error for the next write of the ECC word at INJADDR. -/
  | fsInject (a : BitVec 4) (double sram : Bool)
  /-- ERRCLR (R437): A write of FS.ERRCLR clears ERRSTAT, ERRADDR and ERRST. -/
  | errclr (a : BitVec 4)
  /-- NVM_PROG (R423): NVM.CMD.PROG programs the buffer at ADDR, or is refused. -/
  | nvmProg (a : BitVec 4)
  /-- NVM_ZERO (R423): NVM.CMD.ZERO programs LEN zero bytes at ADDR, or is refused. -/
  | nvmZero (a : BitVec 4)
  /-- NVM_BUFFER_WRITE (R424): A write to the NVM buffer stores the data and makes the writer the buffer agent. -/
  | nvmBufferWrite (a : BitVec 4) (word : Fin 64) (v : Word)
  /-- NVM_PROGRAM_DONE (R423): An MRAM program ends, BUSY clears and RESULT gives the outcome. -/
  | nvmProgramDone
  /-- MRAM_READ_ERROR (R422): An MRAM read corrects up to 3 bits or returns a bus error and records UNCORR. -/
  | mramReadError (codeword : BitVec 19) (bits : Nat)
  /-- DMA_GO (R446): CTL.GO starts a channel at DESC and records the writer's agent. -/
  | dmaGo (a : BitVec 4) (ch : Fin 32)
  /-- DMA_STOP (R449): CTL.STOP sets STOPREQ, and the channel stops at the next descriptor boundary. -/
  | dmaStop (a : BitVec 4) (ch : Fin 32)
  /-- DMA_KNOCK (R454): CTL.KNOCK sets KNOCKED or re-reads the tail in IDLE to continue an appended chain. -/
  | dmaKnock (a : BitVec 4) (ch : Fin 32)
  /-- DMA_RESUME (R453): CTL.RESUME continues a stopped, halted or errored channel from its resume point. -/
  | dmaResume (a : BitVec 4) (ch : Fin 32)
  /-- DMA_CLEAR (R446): CTL.CLEAR returns a channel to IDLE with no completion. -/
  | dmaClear (a : BitVec 4) (ch : Fin 32)
  /-- CLEARHALT (R452): ENGINE.CLEARHALT clears the engine halt. -/
  | clearhalt (a : BitVec 4)
  /-- DESCRIPTOR_FETCH (R444): A channel fetches and checks a descriptor, entering BADDESC if it is bad. -/
  | descriptorFetch (ch : Fin 32)
  /-- DESCRIPTOR_COMPLETE (R447): A descriptor completes, and the chain continues, re-reads after a knock, stops or posts completion. -/
  | descriptorComplete (ch : Fin 32)
  /-- DMA_BEAT_ERROR (R452): A bus error on a beat puts its channel in ERROR and halts every other channel. -/
  | dmaBeatError (ch : Fin 32) (addr : BitVec 40) (done : Nat)
  /-- QUEUE_CFG_WRITE (R460): A write of CFGq enables a queue from the pool or disables it, discarding its items. -/
  | queueCfgWrite (a : BitVec 4) (q : Fin 64) (v : Word)
  /-- QUEUE_PUSH (R461): A write of PUSHq pushes an item, which is stored, refused, discarded or held. -/
  | queuePush (a : BitVec 4) (q : Fin 64) (v : Word)
  /-- QUEUE_POP (R462): A read of POPq pops the next eligible item into the reader's pop buffer and returns a status. -/
  | queuePop (a : BitVec 4) (q : Fin 64)
  /-- QUEUE_DROP (R463): A write of DROP discards the packet in service and enters discard if its LAST is not stored. -/
  | queueDrop (a : BitVec 4) (q : Fin 64)
  /-- EXECUTE_INSTRUCTION (R468): A core executes one RV64IMAC instruction, taking any exception at mtvec. -/
  | executeInstruction (core : Fin 4)
  /-- WFI (R473): A core executing WFI enters IDLE, or SLEEP when dtcfg.SLEEP is 1. -/
  | wfi (core : Fin 4)
  /-- DTRET (R481): DTRET ends the innermost source's service and chains to a presentable source or restores the frame. -/
  | dtret (core : Fin 4)
  /-- DTTAKE (R486): A read of dttake takes the drawer's task into RUNNING, or returns VALID 0. -/
  | dttake (core : Fin 4) (rd : BitVec 5)
  /-- DTDONE (R486): A write of dtdone ends the innermost running task. -/
  | dtdone (core : Fin 4) (rs : BitVec 5)
  /-- DTPOST (R488): A write of dtpost posts a task into the post queue. -/
  | dtpost (core : Fin 4) (rs : BitVec 5)
  /-- FENCE_I (R469): FENCE.I invalidates the core's instruction cache. -/
  | fenceI (core : Fin 4)
  /-- CPU_MODE_WRITE (R473): A write of CPUn.REQ.MODE resets, halts or runs the core at once. -/
  | cpuModeWrite (a : BitVec 4) (core : Fin 4) (mode : BitVec 2)
  /-- SOURCE_ARRIVAL (R476): An event source receives an arrival, becomes pending or adds to COUNT, and posts any task. -/
  | sourceArrival (src : Fin 256)
  /-- VECTOR_FETCH_DONE (R479): The vector fetch completes, the source enters service and CL rises. -/
  | vectorFetchDone (core : Fin 4)
  /-- TIMER_SOURCE (R475): ST reaches dttcmp and private source TIMER arrives. -/
  | timerSource (core : Fin 4)
  /-- DOORBELL (R475): A write of CPUn.DOORBELL raises the DOORBELL sources whose bits are 1. -/
  | doorbell (a : BitVec 4) (core : Fin 4) (bells : Byte)
  /-- PSET (R492): A write of CPUn.PSET raises a private source. -/
  | pset (a : BitVec 4) (core : Fin 4) (src : Fin 32)
  /-- PCLR (R492): A write of CPUn.PCLR clears a private source's pending state. -/
  | pclr (a : BitVec 4) (core : Fin 4) (src : Fin 32)
  /-- EVC_SET (R494): A write of EVC.SET makes an arrival at a shared source. -/
  | evcSet (a : BitVec 4) (src : Byte)
  /-- EVC_CLR (R494): A write of EVC.CLR clears a shared source's pending state and any held post. -/
  | evcClr (a : BitVec 4) (src : Byte)
  /-- SOURCE_TARGET_WRITE (R482): A write of SRCs.TARGET moves a source's later presentations to a new core. -/
  | sourceTargetWrite (a : BitVec 4) (src : Fin 256) (core : Fin 4)
  /-- EXT_FILTER_ACCEPT (R484): An EXT input's level change is accepted after FILTER ns and records EXTST. -/
  | extFilterAccept (input : Fin 8) (level : Bool)
  /-- CORE_WAKE (R483): A core in SLEEP is woken, by a source with WAKE or by CPUn.WAKE, and is in RUN within 40 us. -/
  | coreWake (core : Fin 4)
  /-- TSK_POST (R490): A write of TSK.POST enters a post into the post queue, or waits while it is full. -/
  | tskPost (a : BitVec 4) (task : BitVec 10)
  /-- POST_DRAIN (R490): The scheduler drains a post from the post queue and applies it to the task. -/
  | postDrain
  /-- DELAYGO (R489): A write of DELAYGO puts an IDLE task in the delay list. -/
  | delaygo (a : BitVec 4) (task : BitVec 10) (abs : Bool)
  /-- CANCEL (R487): A write of CANCEL returns a DELAYED task to IDLE. -/
  | cancel (a : BitVec 4) (task : BitVec 10)
  /-- DELAY_TICK (R489): At each microsecond tick, delayed tasks whose instant has come become READY. -/
  | delayTick
  /-- TDM_FRAME (R255): A TDM frame sync edge opens a frame whose samples are stamped with its instant. -/
  | tdmFrame (port : Fin 2) (edge : Bool × Nat) (lines : List (List Bool × List Bool))
  /-- TDM_LOCK_LOSS (R255): No frame sync edge arrives for 4 frame periods, and TDMLOCK clears. -/
  | tdmLockLoss (port : Fin 2)
  /-- BUS_SAMPLE (R257): At grid instant t plus LAG, each bus forms one mixed sample and counts slips and clips. -/
  | busSample (bus : Fin 4)
  /-- BLOCK_END (R258): At the end of a 1 ms block a bus computes its band energies, flux and onset. -/
  | blockEnd (bus : Fin 4)
  /-- TEMPO_ESTIMATE (R262): Every 250 ms the tracker estimates the beat grid and moves between its states. -/
  | tempoEstimate
  /-- COAST_TIMEOUT (R263): After LOCK.COAST s in COAST the tracker becomes UNLOCKED. -/
  | coastTimeout
  /-- TRACKER_FIRST_USE (R263): A write of TRACK.BUS, a start or SND leaving RUN resets the tracker to UNLOCKED. -/
  | trackerFirstUse
  /-- BEAT_ISSUE (R266): At the issue instant the tracker writes a beat record, posts a task and publishes it. -/
  | beatIssue
  /-- BARSYNC (R265): A write of BARSYNC sets the bar offset so that the next beat takes position 0. -/
  | barsync (v : Word)
  /-- LTC_FRAME (R268): A decoded LTC frame updates TCODE and feeds the phase tracker, or counts LTCERR. -/
  | ltcFrame (valid : Bool) (tc : BitVec 31) (rate : Fin 4) (t : Nat)
  /-- REMOTE_RECORD_RECEIVE (R270): A subscribed remote feature or beat record is stored, or discarded as a duplicate. -/
  | remoteRecordReceive (rec' : List Byte)
  /-- TAP_SAMPLE (R271): At S(N) = FS(N) - 30 us the 64 taps compute their values for frame N. -/
  | tapSample
  /-- LINK_DOWN (R281): The PCS reports loss of lock, and the port's link is lost. -/
  | linkDown (port : Fin 2)
  /-- LINK_UP (R281): The PCS has held lock for 10 ms, and the link is up again. -/
  | linkUp (port : Fin 2)
  /-- ETH_FRAME_RECEIVE (R282): A received frame is filtered, checked, classified and sent to its consumer or ring. -/
  | ethFrameReceive (port : Fin 2) (t : Nat) (frame : List Byte) (full : Bool)
  /-- PAUSE_RECEIVE (R283): A received PAUSE frame stops the transmitter for q quanta. -/
  | pauseReceive (port : Fin 2) (quanta : BitVec 16)
  /-- PAUSE_EXPIRY (R283): The pause time runs out, and transmission resumes. -/
  | pauseExpiry (port : Fin 2)
  /-- PAUSE_GENERATE (R288): A ring below LOWWATER makes the port send a PAUSE frame, and a quanta-0 PAUSE when it recovers. -/
  | pauseGenerate (port : Fin 2)
  /-- RXTAIL_WRITE (R286): A write of RXTAILr gives buffers to the ring. -/
  | rxtailWrite (port : Fin 2) (ring : Fin 4) (v : Word)
  /-- TXTAIL_WRITE (R289): A write of TXTAIL hands descriptor chains to the transmitter. -/
  | txtailWrite (ring : Fin 3) (v : Word)
  /-- ETH_FRAME_TRANSMIT (R290): At a frame boundary the port sends the highest-precedence frame and completes its descriptors. -/
  | ethFrameTransmit (port : Fin 2)
  /-- CANE_STATUS (R304): Cane op STATUS replies with the 80-byte status record. -/
  | caneStatus
  /-- CANE_PAGESTATE (R303): Cane op PAGESTATE replies with EFF and PEND of the named pages. -/
  | canePagestate
  /-- CANE_READREG (R303): Cane op READREG reads up to 64 registers as agent 5. -/
  | caneReadreg
  /-- CANE_WRITEREG (R303): Cane op WRITEREG writes up to 64 registers as agent 5. -/
  | caneWritereg
  /-- CANE_READBLOCK (R303): Cane op READBLOCK reads up to 256 words bracketed by LATGEN reads. -/
  | caneReadblock
  /-- CANE_FIRMWARE_OP (R307): An authenticated Cane request with OP 0x80 or above goes to the firmware ring. -/
  | caneFirmwareOp
  /-- CANE_BAD_OP (R302): A Cane request with a reserved OP is answered with BADOP and not executed. -/
  | caneBadOp
  /-- CANE_LEASE_EXPIRY (R305): LEASE ms pass with no request from the owning sender, and ownership lapses. -/
  | caneLeaseExpiry
  /-- KEY_CLEAR (R306): A write of KEYCTL.CLEAR clears a Cane key slot. -/
  | keyClear (a : BitVec 4) (slot : Fin 2)
  /-- HEALTH_WINDOW_END (R309): At the end of a 10 ms window, a path with too many misses or FCS errors turns sick. -/
  | healthWindowEnd
  /-- PATH_RECOVER (R309): A sick path has had its link up with no criterion met for RECOVER ms and becomes healthy. -/
  | pathRecover (path : Fin 2)
  /-- SWAP (R310): A write of PAIR.CTL.SWAP moves the lead to a healthy other path or faults SWAPREFUSED. -/
  | swap (a : BitVec 4) (v : Word)
  /-- DUAL_WINDOW_END (R311): The dual window ends, cutting off any frame still on the old lead. -/
  | dualWindowEnd
  /-- PAIRING_START (R310): Pairing starts at output enable or when PAIRED becomes 1, and the lead is chosen. -/
  | pairingStart
  /-- COURSE_SLOT (R328): At each course slot each lane sends a TIME, CTRL, DATA or IDLE course. -/
  | courseSlot (port : Fin 4)
  /-- DATA_COURSE_RECEIVE (R334): A DATA course is decoded, and its segment is reassembled into a bundle. -/
  | dataCourseReceive (port : Fin 4) (lane : Fin 2) (sym : List Nat) (t skew : Nat)
  /-- TIME_COURSE_RECEIVE (R343): A TIME course yields a link delay and a neighbour offset. -/
  | timeCourseReceive (port : Fin 4) (lane : Fin 2) (sym : List Nat) (t skew : Nat)
  /-- CTRL_COURSE_RECEIVE (R329): A CTRL course stores the neighbour's serial, flags and discovery block. -/
  | ctrlCourseReceive (port : Fin 4) (lane : Fin 2) (sym : List Nat) (t skew : Nat)
  /-- IDLE_COURSE_RECEIVE (R328): An IDLE course, or one of reserved type, carries only its header. -/
  | idleCourseReceive (port : Fin 4) (lane : Fin 2) (sym : List Nat) (t skew : Nat)
  /-- SIGNAL_DETECT (R330): A signal above threshold for 1 us moves a DARK lane to SEEK. -/
  | signalDetect (port : Fin 4) (lane : Fin 2)
  /-- SIGNAL_LOSS (R330): A signal below threshold for 4 us moves a lane to DARK. -/
  | signalLoss (port : Fin 4) (lane : Fin 2)
  /-- COMMA_LOSS (R330): No comma at position for 48 courses, or 64 invalid headers, moves a lane to SEEK. -/
  | commaLoss (port : Fin 4) (lane : Fin 2)
  /-- HALFSTUCK (R332): A lane has been in HALF for 100 ms, and EVT.HALFSTUCK is set. -/
  | halfstuck (port : Fin 4) (lane : Fin 2)
  /-- REPLAY_TIMER_EXPIRY (R338): The replay timer expires, and the port resends every outstanding bundle or fails after 8 expiries. -/
  | replayTimerExpiry (port : Fin 4)
  /-- ROLE_ANNOUNCE (R352): A candidate floods a ROLE bundle every 250 ms. -/
  | roleAnnounce (role : Fin 3)
  /-- ROLE_RECEIVE (R352): A ROLE bundle may change the holder of a role. -/
  | roleReceive (port : Fin 4) (b : List Byte) (rec' : List Nat)
  /-- ROLE_TIMEOUT (R352): No ROLE bundle from a holder for 750 ms, and the role is re-elected. -/
  | roleTimeout (role : Fin 3)
  /-- LSR_REFRESH (R357): A node sends its link-state records every 1 s and at each change. -/
  | lsrRefresh (changed : Bool)
  /-- LSR_RECEIVE (R357): An LSR bundle replaces an older record and returns discovery to DATABASE. -/
  | lsrReceive (port : Fin 4) (b : List Byte) (rec' : List Nat)
  /-- LSR_EXPIRY (R357): A record not refreshed for 3.5 s is removed. -/
  | lsrExpiry (cluster : Bool) (key : BitVec 10)
  /-- DISCOVERY_CONVERGED (R353): No record has changed for 50 ms, and discovery reaches CONVERGED. -/
  | discoveryConverged
  /-- CLUSTER_SEED (R355): An ingress node that has found no cluster after 50 ms seeds one from its pool. -/
  | clusterSeed
  /-- MEMBER_GRANT (R356): The cluster head grants a member ID to a requesting node. -/
  | memberGrant (serial : Dword) (member : Byte)
  /-- IDCFG_WRITE (R390): A write of FAB.IDCFG returns discovery to NEIGHBOUR. -/
  | idcfgWrite (a : BitVec 4) (v : Word)
  /-- SUBSCRIBE_SEND (R371): A node sends its parent a SUBSCRIBE bundle at each change and every 1 s. -/
  | subscribeSend
  /-- SUBSCRIBE_RECEIVE (R371): A SUBSCRIBE bundle updates a child's group masks. -/
  | subscribeReceive (port : Fin 4) (b : List Byte) (rec' : List Nat)
  /-- TILE_QUARTER_RECEIVE (R371): A tile quarter is forwarded down or up tree A, delivered to the converter or filtered. -/
  | tileQuarterReceive (port : Fin 4) (b : List Byte)
  /-- GATEWAY_LOSS (R376): GWLOSS ms with no node at GWDIST 0, and a new time gateway is elected. -/
  | gatewayLoss
  /-- FCMT_GO (R378): A write of FCMT.GO sends PREPARE for a new CID from the cue master. -/
  | fcmtGo (a : BitVec 4) (window own : Bool)
  /-- FCCTL_FIRE (R378): A write of FCCTL.FIRE sends FIRE on both trees. -/
  | fcctlFire (a : BitVec 4)
  /-- FCCTL_ABORT (R378): A write of FCCTL.ABORT sends ABORT on both trees. -/
  | fcctlAbort (a : BitVec 4)
  /-- PREPARE_RECEIVE (R379): A node arms its dovetail commit for the target or refuses. -/
  | prepareReceive (port : Fin 4) (b : List Byte)
  /-- READY_RECEIVE (R381): A READY from a child or the root adds its counts. -/
  | readyReceive (port : Fin 4) (b : List Byte)
  /-- READY_SEND (R381): A node sends READY to its parent once its arm and children are done or its wait passes. -/
  | readySend
  /-- FIRE_RECEIVE (R382): A FIRE lets a fire-required commit lock at its cutoff. -/
  | fireReceive (port : Fin 4) (b : List Byte)
  /-- ABORT_RECEIVE (R382): An ABORT disarms a commit, or changes nothing when it is LOCKED. -/
  | abortReceive (port : Fin 4) (b : List Byte)
  /-- REPORT_SEND (R383): A node sends a REPORT of its outcome to the cue master. -/
  | reportSend
  /-- REPORT_RECEIVE (R383): The master counts a REPORT in LATEN or MISSEDN and keeps it in its table. -/
  | reportReceive (port : Fin 4) (b : List Byte)
  /-- REPORT_ROUTE_EXPIRY (R383): A report that has found no route for 10 s is dropped. -/
  | reportRouteExpiry
  /-- OVERRIDE_BUNDLE_RECEIVE (R385): An OVERRIDE bundle fires and releases states as writes of OVR.FIRE and OVR.RELEASE. -/
  | overrideBundleReceive (port : Fin 4) (b : List Byte)
  /-- TUNNELLED_CANE_RECEIVE (R387): A KIND 0x30 bundle's Cane message is executed and its reply unicast back. -/
  | tunnelledCaneReceive (port : Fin 4) (b : List Byte)
  /-- FIRMWARE_BUNDLE_RECEIVE (R387): A KIND 0x31 bundle arrives in the FAB receive ring. -/
  | firmwareBundleReceive (port : Fin 4) (b : List Byte)
  /-- FAB_TXTAIL_WRITE (R387): A write of the FAB TXTAIL hands bundles to the fabric. -/
  | fabTxtailWrite (a : BitVec 4) (idx : BitVec 12)
  /-- AIR_IRQ (R393): With AIR_IRQ high, the node turns the link bus to the transceiver. -/
  | airIrq
  /-- TXDONE (R395): The transceiver reports that the frame was sent, not sent or errored. -/
  | txdone (status : Byte)
  /-- CCARES (R405): The transceiver reports a clear or busy channel, and the node places AIR_TXGO or tries again. -/
  | ccares (busy : Bool) (rssi : Byte)
  /-- RXFRAME (R395): The transceiver delivers a received frame with its RSSI. -/
  | rxframe (rssi : Byte) (data : List Byte)
  /-- RDATA (R395): The transceiver returns the bytes that RREG asked for. -/
  | rdata (data : List Byte)
  /-- AIR_RXSOF (R396): The rising edge of AIR_RXSOF is timestamped. -/
  | airRxsof
  /-- LINK_PACKET_CRC_ERROR (R394): A link packet with a wrong CHK is discarded and LINKCRC recorded. -/
  | linkPacketCrcError
  /-- CROWD_LOAD_INSTANT (R401): At the load instant the node decides under R404 and builds and loads the crowd frame. -/
  | crowdLoadInstant (n : BitVec 48)
  /-- LOADLATE (R401): A TXLOAD not ended 5 us before T_go cancels the frame. -/
  | loadlate
  /-- CROWD_TXGO (R396): The node places the AIR_TXGO edge at T_go. -/
  | crowdTxgo
  /-- LBT_TRY (R405): An LBT try loads the frame and sends CCA. -/
  | lbtTry
  /-- BUCKET_ADVANCE (R403): Every 100 s of the RTC the bucket index advances and the new bucket is cleared. -/
  | bucketAdvance
  /-- ACCOUNTING_RECORD_WRITE (R406): Every 10 s, and at sleep entries, the node writes an accounting record to MRAM. -/
  | accountingRecordWrite
  /-- ACCOUNTING_RESTORE (R407): Before AIR first enters RUN, the node restores its buckets from the accounting record. -/
  | accountingRestore
  /-- LINK_TIMEOUT (R409): No TXDONE or RDATA arrives in time, LINKTO is recorded and after 3 failures AIR holds FAULT. -/
  | linkTimeout (rdata : Bool)
  /-- REGISTER_LIST_RESEND (R409): While AIR holds FAULT, the node sends the register list once every second. -/
  | registerListResend
  /-- REGISTER_LIST_WRITE (R410): On entry into STANDBY, RUN or TEST, the node writes every valid register list entry. -/
  | registerListWrite
  /-- STATECTL_RUN (R514): A request of RUN makes DIM exit by the steps of R515. -/
  | statectlRun (a : BitVec 4)
  /-- STATECTL_DIM (R514): A request of DIM enters DIM by the steps of R515. -/
  | statectlDim (a : BitVec 4)
  /-- STATECTL_RETENTION_SLEEP (R516): A request of RETENTION SLEEP takes the entry steps and retains SYS. -/
  | statectlRetentionSleep (a : BitVec 4)
  /-- STATECTL_DORMANT (R518): A request of DORMANT writes records and drops the rails in order. -/
  | statectlDormant (a : BitVec 4)
  /-- WAKE_PIN (R517): The WAKE pin held at its active level for 2 RTC periods wakes the device. -/
  | wakePin
  /-- RTC_ALARM (R517): The RTC seconds reach ALARM and wake the device. -/
  | rtcAlarm
  /-- DOMREQ_WRITE (R512): A write of PMU.DOMREQ requests domains on or off. -/
  | domreqWrite (a : BitVec 4) (v : Word)
  /-- DOMAIN_ON_DONE (R512): A domain has powered, its ports unmask and its blocks leave reset. -/
  | domainOnDone (d : Fin 16)
  /-- DOMAIN_OFF_DONE (R512): A domain's ports are masked and its power is removed. -/
  | domainOffDone (d : Fin 16)
  /-- DRAM_TRAINING_DONE (R512): DRAM training ends, and FS.TRAIN reports the result. -/
  | dramTrainingDone (pass : Bool)
  /-- VOUT_COMMAND (R521): The device sends VOUT_COMMAND for a new target, retrying on NACK or PEC error. -/
  | voutCommand
  /-- PMBUS_POLL (R521): Every 100 ms the device reads VOUT, IOUT and temperature from the regulator. -/
  | pmbusPoll
  /-- PMBUS_ALERT (R521): A low PMBus alert triggers a read of STATUS_WORD. -/
  | pmbusAlert
  /-- THERMAL_EVALUATE (R522): Every millisecond the die temperature is compared with the warning, critical and trip thresholds. -/
  | thermalEvaluate
  /-- LIFE_COUNT (R525): Every second the counter of the die temperature's bin adds 1. -/
  | lifeCount
  /-- LIFETIME_RECORD_WRITE (R526): Every 3,600 s, and at sleep entries, the device writes a lifetime record. -/
  | lifetimeRecordWrite
  /-- VAON_APPLIED (R518): VAON is applied, AON fields reset, and the rails rise in order. -/
  | vaonApplied
  /-- PWR_EN_SEQUENCE (R518): AON raises or drops the next PWR_EN output after its gap. -/
  | pwrEnSequence
  /-- RAIL_OUT_OF_RANGE (R565): A monitored rail outside its range for 2 us acts as RESET_N low. -/
  | railOutOfRange
  /-- RESET_N_ASSERT (R529): RESET_N low holds every domain except AON in reset. -/
  | resetNAssert
  /-- RESET_N_RELEASE (R529): RESET_N released starts a cold start from step 2. -/
  | resetNRelease
  /-- COLD_START (R530): The ROM and the start sequencer run steps 1 to 14 of a cold start. -/
  | coldStart (straps : Byte) (sramOk trainOk testOk : Bool) (ends : List Nat) (hits applied : List (List (List Nat)))
  /-- WARM_START (R530): The ROM runs the steps of a warm start, taking time from AON. -/
  | warmStart (straps : Byte) (ends : List Nat)
  /-- ROM_TIMEOUT (R530): Steps 2 to 10 have not ended within 5 s, and the ROM restarts cold with cause ROMFAIL. -/
  | romTimeout
  /-- DISCOVERY_WAIT_EXPIRY (R534): 50 ms after step 13 the warm start decides whether to skip discovery. -/
  | discoveryWaitExpiry
  /-- FABWAIT_EXPIRY (R533): FABWAIT ms after step 13 began, the fabric condition of output enable holds. -/
  | fabwaitExpiry
  /-- CONFIRM (R535): A write of BOOT.CTL.CONFIRM after handover sets the failed-start count to 0. -/
  | confirm (a : BitVec 4)
  /-- CONFIRM_WINDOW_EXPIRY (R535): A start not confirmed within CONFIRMWIN ms restarts warm. -/
  | confirmWindowExpiry
  /-- BOOT_RESTART (R529): A write of BOOT.CTL.RESTART restarts the node warm, or cold with COLD. -/
  | bootRestart (a : BitVec 4) (cold : Bool)
  /-- BOOT_READY (R533): A write of BOOT.READY satisfies the firmware gate of output enable. -/
  | bootReady (a : BitVec 4)
  /-- FAIL_CLEAR (R556): A write of BOOT.FAIL.CLEAR by agent 6 sets the failed-start count to 0. -/
  | failClear (a : BitVec 4)
  /-- WDKICK (R536): A write of 0x0000_C0DE to WDKICK restarts the watchdog count. -/
  | wdkick (a : BitVec 4) (v : Word)
  /-- WDOG_TIMEOUT_WRITE (R536): A write of WDOG.TIMEOUT starts, stops or restarts the watchdog. -/
  | wdogTimeoutWrite (a : BitVec 4) (ms : BitVec 16)
  /-- WATCHDOG_WARN (R536): Half of TIMEOUT passes since the last kick, and EVT.WDWARN is set. -/
  | watchdogWarn
  /-- WATCHDOG_EXPIRY (R536): TIMEOUT ms pass without a kick, and the node restarts warm. -/
  | watchdogExpiry
  /-- KEYREVOKE (R540): A write of BOOT.KEYREVOKE by agent 6 blows revocation bits. -/
  | keyrevoke (a : BitVec 4) (keys : BitVec 4)
  /-- SVC_STATUS (R552): Service op STATUS replies with the status record. -/
  | svcStatus (addr : BitVec 5) (bcast : Bool) (seq : Byte) (body : List Byte)
  /-- SVC_PAGESTATE (R552): Service op PAGESTATE reports unit state from EFF. -/
  | svcPagestate (addr : BitVec 5) (bcast : Bool) (seq : Byte) (body : List Byte)
  /-- SVC_READREG (R552): Service op READREG reads registers as agent 6. -/
  | svcReadreg (addr : BitVec 5) (bcast : Bool) (seq : Byte) (body : List Byte)
  /-- SVC_WRITEREG (R552): Service op WRITEREG writes registers as agent 6, also by broadcast. -/
  | svcWritereg (addr : BitVec 5) (bcast : Bool) (seq : Byte) (body : List Byte)
  /-- SVC_READBLOCK (R552): Service op READBLOCK reads a block bracketed by LATGEN. -/
  | svcReadblock (addr : BitVec 5) (bcast : Bool) (seq : Byte) (body : List Byte)
  /-- READMEM (R552): Service op READMEM reads up to 1,016 bytes of memory. -/
  | readmem (addr : BitVec 5) (bcast : Bool) (seq : Byte) (body : List Byte)
  /-- BENCHOPEN (R552): BENCHOPEN sets the copy journal to IDLE and clears VERIFIED. -/
  | benchopen (addr : BitVec 5) (bcast : Bool) (seq : Byte) (body : List Byte)
  /-- BENCHWRITE (R552): BENCHWRITE programs bytes into the bench and clears VERIFIED. -/
  | benchwrite (addr : BitVec 5) (bcast : Bool) (seq : Byte) (body : List Byte)
  /-- BENCHVERIFY (R552): BENCHVERIFY checks the bench image and sets VERIFIED on success. -/
  | benchverify (addr : BitVec 5) (bcast : Bool) (seq : Byte) (body : List Byte)
  /-- BENCHCOMMIT (R552): BENCHCOMMIT with VERIFIED 1 requests the copy at the next start. -/
  | benchcommit (addr : BitVec 5) (bcast : Bool) (seq : Byte) (body : List Byte)
  /-- SVC_RESTART (R552): Service op RESTART begins a restart 100 us after the reply. -/
  | svcRestart (addr : BitVec 5) (bcast : Bool) (seq : Byte) (body : List Byte)
  /-- CLEARFAIL (R552): Service op CLEARFAIL sets the failed-start count to 0. -/
  | clearfail (addr : BitVec 5) (bcast : Bool) (seq : Byte) (body : List Byte)
  /-- SVC_FRAME_DISCARD (R550): A service frame with a wrong CRC or a gap above 32 bit times is discarded. -/
  | svcFrameDiscard (crc : Bool)
  /-- ATTN_IN (R551): SVC_ATTN held low for 100 us by another node sets ATTNIN and is a wake. -/
  | attnIn (low : Bool)
  /-- ATTN_ACK (R551): A write of SVC.ATTN.ACK clears the fallback attention. -/
  | attnAck (a : BitVec 4)
  /-- JTAG_TAP_RESET (R575): TRST_N low or five TCK periods with TMS high reset the TAP and select IDCODE. -/
  | jtagTapReset
  /-- EXTEST (R576): JTAG EXTEST drives balls from the boundary register, or is refused while outputs are live. -/
  | extest (sensed : List Bool) (shift : Option (List Bool))
  /-- SAMPLE_PRELOAD (R575): JTAG SAMPLE/PRELOAD captures and loads the boundary register. -/
  | samplePreload (sensed shift : List Bool)
  /-- IDCODE (R575): JTAG IDCODE selects the 32-bit identification register. -/
  | idcode
  /-- CLAMP (R576): JTAG CLAMP holds balls at the boundary values, or is refused while outputs are live. -/
  | clamp (shift : List Bool)
  /-- HIGHZ (R576): JTAG HIGHZ makes every scanned output high-impedance, or is refused while outputs are live. -/
  | highz (shift : List Bool)
  /-- BYPASS (R575): JTAG BYPASS, or any undefined code, selects the bypass register. -/
  | bypass (code : BitVec 6) (shift : List Bool)
  /-- DBGACC_READ (R577): A DBGACC update with OP READ starts a 32-bit read as agent 7. -/
  | dbgaccRead (addr : BitVec 40)
  /-- DBGACC_WRITE (R577): A DBGACC update with OP WRITE starts a 32-bit write as agent 7. -/
  | dbgaccWrite (addr : BitVec 40) (data : Word)
  /-- DBGACC_CAPTURE (R577): Capture-DR loads the status, address and data of the last debug access. -/
  | dbgaccCapture
  /-- COMMA_LOCK (R330): A lane in SEEK that has seen 4 consecutive commas at position, of one form, enters LOCK and begins decoding courses. -/
  | commaLock (port : Fin 4) (lane : Fin 2) (pre inv : Bool)
  /-- LTC_LOST (R268): After 2 missing or invalid LTC frames, LTCSTAT.LOCK clears and EVT.LTCLOST is set. -/
  | ltcLost
  /-- ANNOUNCE_RECEIPT_TIMEOUT (R45): announceReceiptTimeout Announce intervals pass with no Announce from the master, and the best master clock algorithm re-runs. -/
  | announceReceiptTimeout
  /-- SVC_BAD_OP (R553): A service request with a reserved OP is answered with STATUS BADOP and not executed. -/
  | svcBadOp (addr : BitVec 5) (bcast : Bool) (op : Byte) (seq : Byte)
  /-- RAIL_RETURN (R565): A monitored rail that was out of range returns, and the start runs cold from step 2 with cause RESETN. -/
  | railReturn
  /-- POWER_LOSS (R425): Power is removed from the device or the NVM domain without warning, leaving codewords of a program in progress old, new or uncorrectable and losing all volatile state. -/
  | powerLoss (nvmOnly : Bool)
  /-- PMBUS_TRANSACTION_END (R521): A PMBus transaction ends with an acknowledgement, which updates VNOW or the polled values, or with a NACK or PEC error that is retried or counted in PMBERR. -/
  | pmbusTransactionEnd (ok : Bool) (data : List Byte)
  deriving DecidableEq, Repr

end Sys2Proof
end

