-- ==== Sys2Proof/Decode.lean ====
section
/-!
DEFINITION. The command that a word spells by the table of operations and events. Its rows give no bits, so no word spells one.
-/
namespace Sys2Proof

/-- The command that a word of `nbits` bits spells: none, since no row of the table gives a command bits. -/
def decodeTableWord (_nbits _w : Nat) : Option Instr := none

end Sys2Proof
end

