-- ==== Sys2Proof/Config.lean ====
section
/-!
DEFINITION. What each die or each implementation fixes, and the free values: constants with no body, so that
nothing proved of the model can rest on a value of them.
-/
namespace Sys2Proof.Config

/-- The free values of the model: the value the manual leaves open, numbered by the counter a step advances. -/
opaque free : Nat → Dword
/-- The contents of the mask ROM (R5), which the manual does not list. -/
opaque romByte : Nat → Byte
/-- The silicon stepping of this die (R90). -/
opaque stepping : Byte
/-- The 64-bit serial of this die (R90), also its PTP clockIdentity. -/
opaque serial : Dword
/-- The fused station addresses of ETHA and ETHB (R313). -/
opaque stationMac : Nat → BitVec 48
/-- The proportional and integral gains that the servo derives from a bandwidth in Hz, the damping factor and the interval between
measurements in s (R38), by formulas that the manual does not give: 2^-8 ppb of correction for each 2^-16 ns of offset. -/
opaque servoP : Rat → Rat → Rat → Rat
opaque servoI : Rat → Rat → Rat → Rat
/-- Where the manual names no rounding, whether a value between two numbers goes to the upper one: by the conversion and the value. -/
opaque roundUp : Nat → Rat → Bool
/-- The fraction bits beyond 16 with which BILINEAR scaling keeps a source position (R102). -/
opaque extraFraction : Nat
/-- What PQ and HLG give for a signal outside 0 to 1, for which their standards define no value (R110): by the code of `VIDFMT.TCS`, the
reference nits and the signal. -/
opaque eotfBeyond : Nat → Nat → Rat → Rat
/-- The factory tap tables in fuses (R237): pin and logical tap to physical tap. -/
opaque fuseTap : Nat → Nat → BitVec 5
/-- The factory `OFFSET` and `GAIN` words of the ADC in fuses (R243). -/
opaque fuseOffset : BitVec 16
opaque fuseGain : BitVec 16

/-- The 31-tap half-band decimator of R257, whose coefficients the manual does not list: the last 31 samples, newest first. -/
opaque decimate : List Rat → Rat
/-- Whether two frame sync edges this far apart, in 2^-16 ns, make a regular frame of the expected period (R255). -/
opaque frameRegular : Nat → Nat → Bool
/-- The bodies of LSR, SUBSCRIBE and ROLE bundles, whose layout the manual does not give: by KIND, the record that bytes spell and the bytes
that spell a record. -/
opaque recRead : Nat → List Byte → List Nat
opaque recBody : Nat → List Nat → List Byte
/-- How much longer than the legal distance of a cluster's record a path of down hops alone between two of its border members is (R357, R365), which no
record holds: by the cluster and the two members. -/
opaque downExtra : Nat → Nat → Nat → Nat
/-- The hops below a node's nearest border member on tree A (R361), which no record holds: by CL, cluster and member. -/
opaque treeLevel : Nat → Nat → Nat → Nat
/-- RS(272,256) is longer than the 255 places its field tells apart (R327): for a codeword and a place below 17, whether an error that may lie there
or 255 places further on is taken to lie further on. -/
opaque rsSecond : List Byte → Nat → Bool
/-- The delay of a lane's own loop inside the chip (R333), in 2^-16 ns. -/
opaque loopDelay : Nat
/-- Where in the boot records area of the MRAM the device keeps its own records (R237, R406, R526, R534, R542), which the manual does not say: the
first 4 KiB page of sixteen, one for each kind of record and copy. -/
opaque recordPage : Nat
/-- The four Ed25519 public keys in fuses (R540), 32 bytes each, none where no key is present. -/
opaque fuseKey : Nat → Option (List Byte)
/-- Revocation bits that were blown before this model's first reset (R540). -/
opaque fuseRevoked : BitVec 4
/-- The value of `mtval` after an illegal instruction, by its bits, which the privileged architecture leaves to the implementation (R470). -/
opaque illegalTval : Word → Dword

end Sys2Proof.Config
end

