-- ==== Sys2Proof/Machine/Fields.lean ====
section
/-!
DEFINITION. The register fields of every page, as the manual's register tables give them: where a field lies,
how it is accessed, when a write takes effect (R13, R68), its reset value, the values it allows and the
encodings it reserves.
-/
namespace Sys2Proof.Machine

/-- The Access column of a register table (R13). -/
inductive Acc where
  | rw | ro | wo | w1c
  deriving DecidableEq, Repr

/-- The Takes effect column of a register table, the classes of R68. -/
inductive Eff where
  | atOnce | commit | latch | status
  deriving DecidableEq, Repr

/-- One field of a page: its first register's offset, how many copies it has and how far apart, its lowest bit
and width, its access, its class, its reset value, the intervals of values it allows (none listed: every value)
and the intervals of encodings it reserves (R12). A `lax` field is checked only under a condition of its chapter. -/
structure Fld where
  off : Nat
  cnt : Nat
  stride : Nat
  lsb : Nat
  w : Nat
  acc : Acc
  eff : Eff
  reset : Nat := 0
  ok : List (Nat × Nat) := []
  resv : List (Nat × Nat) := []
  lax : Bool := false
  deriving DecidableEq, Repr

namespace F
/-! ### TIME -/
def TIME_MODE_REQIDX : Fld := ⟨0x40, 1, 0, 0, 5, .rw, .atOnce, 9, [], [(22, 31)], false⟩
def TIME_MODE_CURIDX : Fld := ⟨0x40, 1, 0, 8, 5, .ro, .status, 9, [], [], false⟩
def TIME_MODE_PEND : Fld := ⟨0x40, 1, 0, 16, 1, .ro, .status, 0, [], [], false⟩
def TIME_PHASE_SRC : Fld := ⟨0x44, 1, 0, 0, 2, .rw, .atOnce, 0, [], [(3, 3)], false⟩
def TIME_PHASE_DIV : Fld := ⟨0x44, 1, 0, 4, 2, .rw, .atOnce, 0, [], [], false⟩
def TIME_PHASE_REFEDGE : Fld := ⟨0x44, 1, 0, 8, 1, .rw, .atOnce, 0, [], [], false⟩
def TIME_PHASE_SLEW : Fld := ⟨0x44, 1, 0, 16, 16, .rw, .atOnce, 100, [], [(0, 0)], false⟩
def TIME_PHASETRIM_TRIM : Fld := ⟨0x48, 1, 0, 0, 32, .rw, .atOnce, 0, [(0, 1000000), (4293967296, 4294967295)], [], false⟩
def TIME_PHASESTAT_STATE : Fld := ⟨0x4C, 1, 0, 0, 2, .ro, .status, 0, [], [], false⟩
def TIME_PHI : Fld := ⟨0x50, 1, 0, 0, 32, .ro, .status, 0, [], [], false⟩
def TIME_LEAD : Fld := ⟨0x54, 1, 0, 0, 11, .rw, .commit, 200, [(50, 2000)], [], false⟩
def TIME_TCODE_FRAMES : Fld := ⟨0x58, 1, 0, 0, 8, .ro, .status, 0, [], [], false⟩
def TIME_TCODE_SECONDS : Fld := ⟨0x58, 1, 0, 8, 8, .ro, .status, 0, [], [], false⟩
def TIME_TCODE_MINUTES : Fld := ⟨0x58, 1, 0, 16, 8, .ro, .status, 0, [], [], false⟩
def TIME_TCODE_HOURS : Fld := ⟨0x58, 1, 0, 24, 6, .ro, .status, 0, [], [], false⟩
def TIME_TCODE_DF : Fld := ⟨0x58, 1, 0, 30, 1, .ro, .status, 0, [], [], false⟩
def TIME_TCODE_VALID : Fld := ⟨0x58, 1, 0, 31, 1, .ro, .status, 0, [], [], false⟩
def TIME_UTCOFF_OFFSET : Fld := ⟨0x5C, 1, 0, 0, 16, .ro, .status, 0, [], [], false⟩
def TIME_UTCOFF_VALID : Fld := ⟨0x5C, 1, 0, 16, 1, .ro, .status, 0, [], [], false⟩
def TIME_LATOFF_OFFSET : Fld := ⟨0x60, 16, 4, 0, 19, .rw, .commit, 0, [(0, 300000)], [], false⟩
def TIME_SERVOSRC_SRC : Fld := ⟨0xA0, 1, 0, 0, 3, .rw, .atOnce, 4, [], [(5, 7)], false⟩
def TIME_SERVOCTL_STEPOK : Fld := ⟨0xA4, 1, 0, 0, 1, .rw, .atOnce, 0, [], [], false⟩
def TIME_SERVOCTL_FREEZE : Fld := ⟨0xA4, 1, 0, 1, 1, .rw, .atOnce, 0, [], [], false⟩
def TIME_SERVOCTL_BW : Fld := ⟨0xA4, 1, 0, 4, 3, .rw, .atOnce, 2, [], [], false⟩
def TIME_SERVOCTL_ACQBW : Fld := ⟨0xA4, 1, 0, 8, 3, .rw, .atOnce, 5, [], [], false⟩
def TIME_SERVOCTL_LOCKCNT : Fld := ⟨0xA4, 1, 0, 16, 8, .rw, .atOnce, 16, [], [(0, 0)], false⟩
def TIME_SLEWLIM : Fld := ⟨0xA8, 1, 0, 0, 17, .rw, .atOnce, 2000, [(10, 100000)], [], false⟩
def TIME_STEPTHR : Fld := ⟨0xAC, 1, 0, 0, 32, .rw, .atOnce, 20000, [(100, 1000000000)], [], false⟩
def TIME_LOCKTHR : Fld := ⟨0xB0, 1, 0, 0, 16, .rw, .atOnce, 100, [], [], false⟩
def TIME_LOCKTHR_UNLOCKTHR : Fld := ⟨0xB0, 1, 0, 16, 16, .rw, .atOnce, 1000, [], [], false⟩
def TIME_TIMEOUTS_SRCTIMEOUT : Fld := ⟨0xB4, 1, 0, 0, 16, .rw, .atOnce, 1000, [], [], false⟩
def TIME_TIMEOUTS_ACQWAIT : Fld := ⟨0xB4, 1, 0, 16, 16, .rw, .atOnce, 1500, [], [], false⟩
def TIME_SERVOSTAT_STATE : Fld := ⟨0xB8, 1, 0, 0, 2, .ro, .status, 0, [], [], false⟩
def TIME_SERVOSTAT_SRCACT : Fld := ⟨0xB8, 1, 0, 4, 3, .ro, .status, 0, [], [], false⟩
def TIME_SERVOSTAT_VALID : Fld := ⟨0xB8, 1, 0, 8, 1, .ro, .status, 0, [], [], false⟩
def TIME_SERVOSTAT_FREERUN : Fld := ⟨0xB8, 1, 0, 9, 1, .ro, .status, 0, [], [], false⟩
def TIME_SERVOSTAT_STEPBLK : Fld := ⟨0xB8, 1, 0, 10, 1, .ro, .status, 0, [], [], false⟩
def TIME_SERVOSTAT_LIVE : Fld := ⟨0xB8, 1, 0, 11, 1, .ro, .status, 0, [], [], false⟩
def TIME_FREQ : Fld := ⟨0xBC, 1, 0, 0, 32, .ro, .status, 0, [], [], false⟩
def TIME_OFFSET : Fld := ⟨0xC0, 1, 0, 0, 32, .ro, .status, 0, [], [], false⟩
def TIME_SNAP_CAP : Fld := ⟨0xC4, 1, 0, 0, 1, .wo, .atOnce, 0, [], [], false⟩
def TIME_SNAPSECL_value : Fld := ⟨0xC8, 1, 0, 0, 32, .ro, .status, 0, [], [], false⟩
def TIME_SNAPSECH_value : Fld := ⟨0xCC, 1, 0, 0, 32, .ro, .status, 0, [], [], false⟩
def TIME_SNAPNS_value : Fld := ⟨0xD0, 1, 0, 0, 32, .ro, .status, 0, [], [], false⟩
def TIME_SNAPFRAC_value : Fld := ⟨0xD4, 1, 0, 0, 32, .ro, .status, 0, [], [], false⟩
def TIME_SNAPFNL_value : Fld := ⟨0xD8, 1, 0, 0, 32, .ro, .status, 0, [], [], false⟩
def TIME_SNAPFNH_value : Fld := ⟨0xDC, 1, 0, 0, 32, .ro, .status, 0, [], [], false⟩
def TIME_SNAPSEQ_value : Fld := ⟨0xE0, 1, 0, 0, 32, .ro, .status, 0, [], [], false⟩
def TIME_STNOW_ST : Fld := ⟨0xE4, 1, 0, 0, 32, .ro, .status, 0, [], [], false⟩
def TIME_FSST_ST : Fld := ⟨0xE8, 1, 0, 0, 32, .ro, .status, 0, [], [], false⟩
def TIME_SETSECL_value : Fld := ⟨0xEC, 1, 0, 0, 32, .rw, .atOnce, 0, [], [], false⟩
def TIME_SETSECH_value : Fld := ⟨0xF0, 1, 0, 0, 32, .rw, .atOnce, 0, [], [], false⟩
def TIME_SETNS_value : Fld := ⟨0xF4, 1, 0, 0, 32, .rw, .atOnce, 0, [], [], false⟩
def TIME_SETGO_GO : Fld := ⟨0xF8, 1, 0, 0, 1, .wo, .atOnce, 0, [], [], false⟩
def TIME_PTPCFG_DOMAIN : Fld := ⟨0xFC, 1, 0, 0, 7, .rw, .atOnce, 127, [], [], false⟩
def TIME_PTPCFG_MASTEROK : Fld := ⟨0xFC, 1, 0, 7, 1, .rw, .atOnce, 0, [], [], false⟩
def TIME_PTPCFG_SYNCINT : Fld := ⟨0xFC, 1, 0, 8, 4, .rw, .atOnce, 13, [(0, 1), (9, 15)], [], false⟩
def TIME_PTPCFG_ANNINT : Fld := ⟨0xFC, 1, 0, 12, 4, .rw, .atOnce, 14, [(0, 1), (13, 15)], [], false⟩
def TIME_PTPCFG_DREQINT : Fld := ⟨0xFC, 1, 0, 16, 4, .rw, .atOnce, 13, [(0, 1), (9, 15)], [], false⟩
def TIME_PTPCFG_ANNTO : Fld := ⟨0xFC, 1, 0, 20, 4, .rw, .atOnce, 3, [(2, 10)], [], false⟩
def TIME_PTPCFG_TRANSPORT : Fld := ⟨0xFC, 1, 0, 24, 1, .rw, .atOnce, 0, [], [], false⟩
def TIME_PTPPRIO_PRIO1 : Fld := ⟨0x100, 1, 0, 0, 8, .rw, .atOnce, 128, [], [], false⟩
def TIME_PTPPRIO_PRIO2 : Fld := ⟨0x100, 1, 0, 8, 8, .rw, .atOnce, 128, [], [], false⟩
def TIME_ETHATXLAT_LAT : Fld := ⟨0x104, 1, 0, 0, 16, .rw, .atOnce, 0, [], [], false⟩
def TIME_ETHARXLAT_LAT : Fld := ⟨0x108, 1, 0, 0, 16, .rw, .atOnce, 0, [], [], false⟩
def TIME_ETHBTXLAT_LAT : Fld := ⟨0x10C, 1, 0, 0, 16, .rw, .atOnce, 0, [], [], false⟩
def TIME_ETHBRXLAT_LAT : Fld := ⟨0x110, 1, 0, 0, 16, .rw, .atOnce, 0, [], [], false⟩
def TIME_PPSOUT_EN : Fld := ⟨0x114, 1, 0, 0, 1, .rw, .atOnce, 0, [], [], false⟩
def TIME_PPSOUT_POL : Fld := ⟨0x114, 1, 0, 1, 1, .rw, .atOnce, 0, [], [], false⟩
def TIME_PPSOUT_WIDTH : Fld := ⟨0x114, 1, 0, 16, 10, .rw, .atOnce, 100, [(1, 1000)], [], false⟩
def TIME_TRGCFG_EN : Fld := ⟨0x140, 16, 12, 0, 1, .rw, .atOnce, 0, [], [], false⟩
def TIME_TRGCFG_KIND : Fld := ⟨0x140, 16, 12, 1, 2, .rw, .atOnce, 0, [], [(3, 3)], false⟩
def TIME_TRGCFG_TARGET : Fld := ⟨0x140, 16, 12, 4, 2, .rw, .atOnce, 0, [], [(3, 3)], false⟩
def TIME_TRGCFG_K : Fld := ⟨0x140, 16, 12, 6, 10, .rw, .atOnce, 0, [], [], false⟩
def TIME_TRGCFG_INDEX : Fld := ⟨0x140, 16, 12, 16, 10, .rw, .atOnce, 0, [], [], false⟩
def TIME_TRGTIME_TIME : Fld := ⟨0x144, 16, 12, 0, 32, .rw, .atOnce, 0, [], [], false⟩
def TIME_TRGPERIOD_PERIOD : Fld := ⟨0x148, 16, 12, 0, 32, .rw, .atOnce, 0, [], [], false⟩
def TIME_st_FRAMES : Fld := ⟨0x800, 1, 0, 0, 32, .ro, .latch, 0, [], [], false⟩
def TIME_st_OFFMIN : Fld := ⟨0x804, 1, 0, 0, 32, .ro, .latch, 0, [], [], false⟩
def TIME_st_OFFMAX : Fld := ⟨0x808, 1, 0, 0, 32, .ro, .latch, 0, [], [], false⟩
def TIME_st_MEAS : Fld := ⟨0x80C, 1, 0, 0, 32, .ro, .latch, 0, [], [], false⟩
def TIME_st_STEPS : Fld := ⟨0x810, 1, 0, 0, 32, .ro, .latch, 0, [], [], false⟩
def TIME_st_MODECHG : Fld := ⟨0x814, 1, 0, 0, 32, .ro, .latch, 0, [], [], false⟩
def TIME_st_REFMISS : Fld := ⟨0x818, 1, 0, 0, 32, .ro, .latch, 0, [], [], false⟩
def TIME_st_TRGMISS : Fld := ⟨0x81C, 1, 0, 0, 32, .ro, .latch, 0, [], [], false⟩
/-- The fields of the TIME page type. -/
def rowsTIME : List Fld :=
  [TIME_MODE_REQIDX, TIME_MODE_CURIDX, TIME_MODE_PEND, TIME_PHASE_SRC, TIME_PHASE_DIV, TIME_PHASE_REFEDGE, TIME_PHASE_SLEW, TIME_PHASETRIM_TRIM, TIME_PHASESTAT_STATE, TIME_PHI, TIME_LEAD, TIME_TCODE_FRAMES] ++
  [TIME_TCODE_SECONDS, TIME_TCODE_MINUTES, TIME_TCODE_HOURS, TIME_TCODE_DF, TIME_TCODE_VALID, TIME_UTCOFF_OFFSET, TIME_UTCOFF_VALID, TIME_LATOFF_OFFSET, TIME_SERVOSRC_SRC, TIME_SERVOCTL_STEPOK, TIME_SERVOCTL_FREEZE, TIME_SERVOCTL_BW] ++
  [TIME_SERVOCTL_ACQBW, TIME_SERVOCTL_LOCKCNT, TIME_SLEWLIM, TIME_STEPTHR, TIME_LOCKTHR, TIME_LOCKTHR_UNLOCKTHR, TIME_TIMEOUTS_SRCTIMEOUT, TIME_TIMEOUTS_ACQWAIT, TIME_SERVOSTAT_STATE, TIME_SERVOSTAT_SRCACT, TIME_SERVOSTAT_VALID, TIME_SERVOSTAT_FREERUN] ++
  [TIME_SERVOSTAT_STEPBLK, TIME_SERVOSTAT_LIVE, TIME_FREQ, TIME_OFFSET, TIME_SNAP_CAP, TIME_SNAPSECL_value, TIME_SNAPSECH_value, TIME_SNAPNS_value, TIME_SNAPFRAC_value, TIME_SNAPFNL_value, TIME_SNAPFNH_value, TIME_SNAPSEQ_value] ++
  [TIME_STNOW_ST, TIME_FSST_ST, TIME_SETSECL_value, TIME_SETSECH_value, TIME_SETNS_value, TIME_SETGO_GO, TIME_PTPCFG_DOMAIN, TIME_PTPCFG_MASTEROK, TIME_PTPCFG_SYNCINT, TIME_PTPCFG_ANNINT, TIME_PTPCFG_DREQINT, TIME_PTPCFG_ANNTO] ++
  [TIME_PTPCFG_TRANSPORT, TIME_PTPPRIO_PRIO1, TIME_PTPPRIO_PRIO2, TIME_ETHATXLAT_LAT, TIME_ETHARXLAT_LAT, TIME_ETHBTXLAT_LAT, TIME_ETHBRXLAT_LAT, TIME_PPSOUT_EN, TIME_PPSOUT_POL, TIME_PPSOUT_WIDTH, TIME_TRGCFG_EN, TIME_TRGCFG_KIND] ++
  [TIME_TRGCFG_TARGET, TIME_TRGCFG_K, TIME_TRGCFG_INDEX, TIME_TRGTIME_TIME, TIME_TRGPERIOD_PERIOD, TIME_st_FRAMES, TIME_st_OFFMIN, TIME_st_OFFMAX, TIME_st_MEAS, TIME_st_STEPS, TIME_st_MODECHG, TIME_st_REFMISS] ++
  [TIME_st_TRGMISS]

/-! ### HDR -/
def HDR_PAGEID_HDRVER : Fld := ⟨0x0, 1, 0, 0, 8, .ro, .status, 1, [], [], false⟩
def HDR_PAGEID_INST : Fld := ⟨0x0, 1, 0, 8, 8, .ro, .status, 0, [], [], false⟩
def HDR_PAGEID_TYPE : Fld := ⟨0x0, 1, 0, 16, 16, .ro, .status, 0, [], [], false⟩
def HDR_PAGEVER_MINOR : Fld := ⟨0x4, 1, 0, 0, 8, .ro, .status, 0, [], [], false⟩
def HDR_PAGEVER_MAJOR : Fld := ⟨0x4, 1, 0, 8, 8, .ro, .status, 1, [], [], false⟩
def HDR_REQ_MODE : Fld := ⟨0x8, 1, 0, 0, 2, .rw, .commit, 0, [], [], false⟩
def HDR_EFF_MODE : Fld := ⟨0xC, 1, 0, 0, 2, .ro, .status, 0, [], [], false⟩
def HDR_EFF_HOLD : Fld := ⟨0xC, 1, 0, 4, 4, .ro, .status, 0, [], [], false⟩
def HDR_EFF_MISMATCH : Fld := ⟨0xC, 1, 0, 8, 1, .ro, .status, 0, [], [], false⟩
def HDR_EVT_EV : Fld := ⟨0x10, 1, 0, 0, 31, .w1c, .atOnce, 0, [], [], false⟩
def HDR_EVT_MISMATCH : Fld := ⟨0x10, 1, 0, 31, 1, .w1c, .atOnce, 0, [], [], false⟩
def HDR_EVTEN_EN : Fld := ⟨0x14, 1, 0, 0, 32, .rw, .atOnce, 0, [], [], false⟩
def HDR_FAULT_CODE : Fld := ⟨0x18, 1, 0, 0, 8, .rw, .atOnce, 0, [], [], false⟩
def HDR_FAULT_OFFSET : Fld := ⟨0x18, 1, 0, 8, 12, .rw, .atOnce, 0, [], [], false⟩
def HDR_FAULT_AGENT : Fld := ⟨0x18, 1, 0, 20, 4, .rw, .atOnce, 0, [], [], false⟩
def HDR_FAULT_COUNT : Fld := ⟨0x18, 1, 0, 24, 8, .rw, .atOnce, 0, [], [], false⟩
def HDR_FAULTTIME_ST : Fld := ⟨0x1C, 1, 0, 0, 32, .ro, .status, 0, [], [], false⟩
def HDR_STGSTAT_PEND : Fld := ⟨0x20, 1, 0, 0, 1, .ro, .status, 0, [], [], false⟩
def HDR_STGSTAT_ARMED : Fld := ⟨0x20, 1, 0, 1, 1, .ro, .status, 0, [], [], false⟩
def HDR_STGSTAT_REJ : Fld := ⟨0x20, 1, 0, 4, 4, .ro, .status, 0, [], [], false⟩
def HDR_STGSTAT_REJOFF : Fld := ⟨0x20, 1, 0, 8, 12, .ro, .status, 0, [], [], false⟩
def HDR_LATGEN : Fld := ⟨0x24, 1, 0, 0, 32, .ro, .latch, 0, [], [], false⟩
/-- The fields of the common header (R66). -/
def rowsHDR : List Fld :=
  [HDR_PAGEID_HDRVER, HDR_PAGEID_INST, HDR_PAGEID_TYPE, HDR_PAGEVER_MINOR, HDR_PAGEVER_MAJOR, HDR_REQ_MODE, HDR_EFF_MODE, HDR_EFF_HOLD, HDR_EFF_MISMATCH, HDR_EVT_EV, HDR_EVT_MISMATCH, HDR_EVTEN_EN] ++
  [HDR_FAULT_CODE, HDR_FAULT_OFFSET, HDR_FAULT_AGENT, HDR_FAULT_COUNT, HDR_FAULTTIME_ST, HDR_STGSTAT_PEND, HDR_STGSTAT_ARMED, HDR_STGSTAT_REJ, HDR_STGSTAT_REJOFF, HDR_LATGEN]

/-! ### SYS -/
def SYS_STATHOLD_COUNT : Fld := ⟨0x40, 1, 0, 0, 7, .rw, .atOnce, 0, [(0, 64)], [], false⟩
def SYS_STATHOLD_ACTIVE : Fld := ⟨0x40, 1, 0, 8, 1, .ro, .status, 0, [], [], false⟩
def SYS_STATHOLD_HELD : Fld := ⟨0x40, 1, 0, 16, 7, .ro, .status, 0, [], [], false⟩
def SYS_PARTID_PART : Fld := ⟨0x44, 1, 0, 0, 32, .ro, .status, 38400, [], [], false⟩
def SYS_STEPPING_STEP : Fld := ⟨0x48, 1, 0, 0, 8, .ro, .status, 0, [], [], false⟩
def SYS_SERIALL_SERIAL : Fld := ⟨0x4C, 1, 0, 0, 32, .ro, .status, 0, [], [], false⟩
def SYS_SERIALH_SERIAL : Fld := ⟨0x50, 1, 0, 0, 32, .ro, .status, 0, [], [], false⟩
def SYS_AGENT : Fld := ⟨0x54, 1, 0, 0, 4, .ro, .status, 0, [], [], false⟩
def SYS_st_FRAMES : Fld := ⟨0x800, 1, 0, 0, 32, .ro, .latch, 0, [], [], false⟩
def SYS_st_HOLDS : Fld := ⟨0x804, 1, 0, 0, 32, .ro, .latch, 0, [], [], false⟩
def SYS_st_MISMATCHES : Fld := ⟨0x808, 1, 0, 0, 32, .ro, .latch, 0, [], [], false⟩
/-- The fields of the SYS page type. -/
def rowsSYS : List Fld :=
  [SYS_STATHOLD_COUNT, SYS_STATHOLD_ACTIVE, SYS_STATHOLD_HELD, SYS_PARTID_PART, SYS_STEPPING_STEP, SYS_SERIALL_SERIAL, SYS_SERIALH_SERIAL, SYS_AGENT, SYS_st_FRAMES, SYS_st_HOLDS, SYS_st_MISMATCHES]

/-! ### CMT -/
def CMT_OWN_OWNER : Fld := ⟨0x40, 1, 0, 0, 4, .ro, .status, 0, [], [], false⟩
def CMT_OWN_CLAIM : Fld := ⟨0x40, 1, 0, 8, 1, .wo, .atOnce, 0, [], [], false⟩
def CMT_OWN_RELEASE : Fld := ⟨0x40, 1, 0, 9, 1, .wo, .atOnce, 0, [], [], false⟩
def CMT_OWN_SEIZE : Fld := ⟨0x40, 1, 0, 10, 1, .wo, .atOnce, 0, [], [], false⟩
def CMT_CTL_DISCARD : Fld := ⟨0x44, 1, 0, 0, 1, .wo, .atOnce, 0, [], [], false⟩
def CMT_CTL_DISARM : Fld := ⟨0x44, 1, 0, 1, 1, .wo, .atOnce, 0, [], [], false⟩
def CMT_VIEW : Fld := ⟨0x48, 1, 0, 0, 16, .rw, .atOnce, 0, [], [], false⟩
def CMT_CHECK_NOMBUDGET : Fld := ⟨0x4C, 1, 0, 0, 1, .rw, .atOnce, 0, [], [], false⟩
def CMT_ARM_TARGET : Fld := ⟨0x50, 1, 0, 0, 16, .wo, .atOnce, 0, [], [], false⟩
def CMT_ARM_WHEN : Fld := ⟨0x50, 1, 0, 16, 2, .wo, .atOnce, 0, [], [(2, 3)], false⟩
def CMT_ARM_LATEPOL : Fld := ⟨0x50, 1, 0, 18, 1, .wo, .atOnce, 0, [], [], false⟩
def CMT_STAT_STATE : Fld := ⟨0x54, 1, 0, 0, 2, .ro, .status, 0, [], [], false⟩
def CMT_STAT_LATE : Fld := ⟨0x54, 1, 0, 2, 1, .ro, .status, 0, [], [], false⟩
def CMT_TGTL_TGT : Fld := ⟨0x58, 1, 0, 0, 32, .ro, .status, 0, [], [], false⟩
def CMT_TGTH_TGT : Fld := ⟨0x5C, 1, 0, 0, 16, .ro, .status, 0, [], [], false⟩
def CMT_RESULT_CODE : Fld := ⟨0x60, 1, 0, 0, 4, .ro, .status, 0, [], [], false⟩
def CMT_RESULT_AGENT : Fld := ⟨0x60, 1, 0, 4, 4, .ro, .status, 0, [], [], false⟩
def CMT_RESFNL_RESFN : Fld := ⟨0x64, 1, 0, 0, 32, .ro, .status, 0, [], [], false⟩
def CMT_RESFNH_RESFN : Fld := ⟨0x68, 1, 0, 0, 16, .ro, .status, 0, [], [], false⟩
def CMT_RESSEQ_SEQ : Fld := ⟨0x6C, 1, 0, 0, 32, .ro, .status, 0, [], [], false⟩
def CMT_REJECT_CODE : Fld := ⟨0x70, 1, 0, 0, 4, .ro, .status, 0, [], [], false⟩
def CMT_REJECT_PAGE : Fld := ⟨0x70, 1, 0, 4, 12, .ro, .status, 0, [], [], false⟩
def CMT_REJECT_OFFSET : Fld := ⟨0x70, 1, 0, 16, 12, .ro, .status, 0, [], [], false⟩
def CMT_REJCOUNT_COUNT : Fld := ⟨0x74, 1, 0, 0, 12, .ro, .status, 0, [], [], false⟩
def CMT_st_FRAMES : Fld := ⟨0x800, 1, 0, 0, 32, .ro, .latch, 0, [], [], false⟩
def CMT_st_APPLIED : Fld := ⟨0x804, 1, 0, 0, 32, .ro, .latch, 0, [], [], false⟩
def CMT_st_LATE : Fld := ⟨0x808, 1, 0, 0, 32, .ro, .latch, 0, [], [], false⟩
def CMT_st_REJECTED : Fld := ⟨0x80C, 1, 0, 0, 32, .ro, .latch, 0, [], [], false⟩
def CMT_st_CANCELLED : Fld := ⟨0x810, 1, 0, 0, 32, .ro, .latch, 0, [], [], false⟩
def CMT_st_NOTOWNER : Fld := ⟨0x814, 1, 0, 0, 32, .ro, .latch, 0, [], [], false⟩
/-- The fields of the CMT page type. -/
def rowsCMT : List Fld :=
  [CMT_OWN_OWNER, CMT_OWN_CLAIM, CMT_OWN_RELEASE, CMT_OWN_SEIZE, CMT_CTL_DISCARD, CMT_CTL_DISARM, CMT_VIEW, CMT_CHECK_NOMBUDGET, CMT_ARM_TARGET, CMT_ARM_WHEN, CMT_ARM_LATEPOL, CMT_STAT_STATE] ++
  [CMT_STAT_LATE, CMT_TGTL_TGT, CMT_TGTH_TGT, CMT_RESULT_CODE, CMT_RESULT_AGENT, CMT_RESFNL_RESFN, CMT_RESFNH_RESFN, CMT_RESSEQ_SEQ, CMT_REJECT_CODE, CMT_REJECT_PAGE, CMT_REJECT_OFFSET, CMT_REJCOUNT_COUNT] ++
  [CMT_st_FRAMES, CMT_st_APPLIED, CMT_st_LATE, CMT_st_REJECTED, CMT_st_CANCELLED, CMT_st_NOTOWNER]

/-! ### VEN -/
def VEN_CFG_SRC : Fld := ⟨0x40, 1, 0, 0, 3, .rw, .commit, 0, [], [(5, 7)], true⟩
def VEN_CFG_BLEND : Fld := ⟨0x40, 1, 0, 4, 3, .rw, .commit, 0, [], [(5, 7)], true⟩
def VEN_CFG_AUXUSE : Fld := ⟨0x40, 1, 0, 8, 2, .rw, .commit, 0, [], [(3, 3)], true⟩
def VEN_CFG_MATTE : Fld := ⟨0x40, 1, 0, 10, 1, .rw, .commit, 0, [], [], true⟩
def VEN_CFG_SCALE : Fld := ⟨0x40, 1, 0, 11, 1, .rw, .commit, 0, [], [], true⟩
def VEN_CFG_ROT : Fld := ⟨0x40, 1, 0, 12, 2, .rw, .commit, 0, [], [], true⟩
def VEN_CFG_FLIPH : Fld := ⟨0x40, 1, 0, 14, 1, .rw, .commit, 0, [], [], true⟩
def VEN_CFG_FLIPV : Fld := ⟨0x40, 1, 0, 15, 1, .rw, .commit, 0, [], [], true⟩
def VEN_CFG_PICK : Fld := ⟨0x40, 1, 0, 16, 1, .rw, .commit, 0, [], [], true⟩
def VEN_CFG_GEN : Fld := ⟨0x40, 1, 0, 20, 3, .rw, .commit, 0, [], [], true⟩
def VEN_CFG_FLOW : Fld := ⟨0x40, 1, 0, 24, 3, .rw, .commit, 0, [], [], true⟩
def VEN_OPACITY : Fld := ⟨0x44, 1, 0, 0, 16, .rw, .commit, 15360, [], [], true⟩
def VEN_SRCXY_SX : Fld := ⟨0x48, 1, 0, 0, 16, .rw, .commit, 0, [], [], true⟩
def VEN_SRCXY_SY : Fld := ⟨0x48, 1, 0, 16, 16, .rw, .commit, 0, [], [], true⟩
def VEN_SRCWH_SW : Fld := ⟨0x4C, 1, 0, 0, 16, .rw, .commit, 0, [], [], true⟩
def VEN_SRCWH_SH : Fld := ⟨0x4C, 1, 0, 16, 16, .rw, .commit, 0, [], [], true⟩
def VEN_PLCXY_PX : Fld := ⟨0x50, 1, 0, 0, 16, .rw, .commit, 0, [], [], true⟩
def VEN_PLCXY_PY : Fld := ⟨0x50, 1, 0, 16, 16, .rw, .commit, 0, [], [], true⟩
def VEN_PLCWH_PW : Fld := ⟨0x54, 1, 0, 0, 16, .rw, .commit, 0, [], [], true⟩
def VEN_PLCWH_PH : Fld := ⟨0x54, 1, 0, 16, 16, .rw, .commit, 0, [], [], true⟩
def VEN_BUFWH_BW : Fld := ⟨0x58, 1, 0, 0, 16, .rw, .commit, 0, [], [], true⟩
def VEN_BUFWH_BH : Fld := ⟨0x58, 1, 0, 16, 16, .rw, .commit, 0, [], [], true⟩
def VEN_RING_COUNT : Fld := ⟨0x5C, 1, 0, 0, 3, .rw, .commit, 1, [], [(0, 0), (5, 7)], true⟩
def VEN_RING_SHOW : Fld := ⟨0x5C, 1, 0, 4, 2, .rw, .commit, 0, [], [], true⟩
def VEN_RING_CUR : Fld := ⟨0x5C, 1, 0, 8, 2, .ro, .status, 0, [], [], false⟩
def VEN_RING_READY : Fld := ⟨0x5C, 1, 0, 12, 4, .ro, .status, 0, [], [], false⟩
def VEN_STRIDE : Fld := ⟨0x60, 1, 0, 0, 24, .rw, .commit, 0, [], [], true⟩
def VEN_BUF_OFFSET : Fld := ⟨0x64, 4, 4, 0, 27, .rw, .commit, 0, [], [], true⟩
def VEN_VDELAY : Fld := ⟨0x74, 1, 0, 0, 17, .rw, .commit, 0, [(0, 100000)], [], true⟩
def VEN_SACN_FIRSTU : Fld := ⟨0x78, 1, 0, 0, 16, .rw, .commit, 1, [(1, 63999)], [], true⟩
def VEN_SACN_NUMU : Fld := ⟨0x78, 1, 0, 16, 12, .rw, .commit, 1, [(1, 2048)], [], true⟩
def VEN_SACNFMT_FORMAT : Fld := ⟨0x7C, 1, 0, 0, 2, .rw, .commit, 0, [], [], true⟩
def VEN_SACNFMT_XFER : Fld := ⟨0x7C, 1, 0, 4, 1, .rw, .commit, 0, [], [], true⟩
def VEN_SACNFMT_PXPERU : Fld := ⟨0x7C, 1, 0, 16, 10, .rw, .commit, 170, [(1, 512)], [], true⟩
def VEN_TILES_TCOL0 : Fld := ⟨0x80, 1, 0, 0, 11, .rw, .commit, 0, [], [], true⟩
def VEN_TILES_TROW0 : Fld := ⟨0x80, 1, 0, 16, 11, .rw, .commit, 0, [], [], true⟩
def VEN_TILESZ_TCOLS : Fld := ⟨0x84, 1, 0, 0, 10, .rw, .commit, 1, [(1, 512)], [], true⟩
def VEN_TILESZ_TROWS : Fld := ⟨0x84, 1, 0, 16, 10, .rw, .commit, 1, [(1, 512)], [], true⟩
def VEN_GUARD_KIND : Fld := ⟨0x88, 1, 0, 0, 2, .rw, .atOnce, 0, [], [(3, 3)], false⟩
def VEN_GUARD_ACTION : Fld := ⟨0x88, 1, 0, 4, 1, .rw, .atOnce, 0, [], [], false⟩
def VEN_GBASE_OFFSET : Fld := ⟨0x8C, 1, 0, 0, 27, .rw, .atOnce, 0, [], [], false⟩
def VEN_GLIMIT_OFFSET : Fld := ⟨0x90, 1, 0, 0, 27, .rw, .atOnce, 0, [], [], false⟩
def VEN_GHIT_WRITER : Fld := ⟨0x94, 1, 0, 0, 8, .ro, .status, 0, [], [], false⟩
def VEN_GHIT_BLOCKED : Fld := ⟨0x94, 1, 0, 8, 1, .ro, .status, 0, [], [], false⟩
def VEN_GHITADDR_OFFSET : Fld := ⟨0x98, 1, 0, 0, 27, .ro, .status, 0, [], [], false⟩
def VEN_GHITST_ST : Fld := ⟨0x9C, 1, 0, 0, 32, .ro, .status, 0, [], [], false⟩
def VEN_VIDFMT_SAMPLING : Fld := ⟨0xA0, 1, 0, 0, 2, .rw, .commit, 0, [], [(3, 3)], true⟩
def VEN_VIDFMT_DEPTH : Fld := ⟨0xA0, 1, 0, 2, 2, .rw, .commit, 1, [], [(3, 3)], true⟩
def VEN_VIDFMT_COLOR : Fld := ⟨0xA0, 1, 0, 4, 1, .rw, .commit, 1, [], [], true⟩
def VEN_VIDFMT_TCS : Fld := ⟨0xA0, 1, 0, 5, 2, .rw, .commit, 0, [], [(3, 3)], true⟩
def VEN_VIDFMT_RANGE : Fld := ⟨0xA0, 1, 0, 7, 1, .rw, .commit, 0, [], [], true⟩
def VEN_VIDFMT_PACKING : Fld := ⟨0xA0, 1, 0, 8, 1, .rw, .commit, 0, [], [], true⟩
def VEN_VIDFMT_REFNITS : Fld := ⟨0xA0, 1, 0, 16, 10, .rw, .commit, 203, [(1, 1000)], [], true⟩
def VEN_st_FRAMES : Fld := ⟨0x800, 1, 0, 0, 32, .ro, .latch, 0, [], [], false⟩
def VEN_st_UNDERRUNS : Fld := ⟨0x804, 1, 0, 0, 32, .ro, .latch, 0, [], [], false⟩
def VEN_st_UNDSAMP : Fld := ⟨0x808, 1, 0, 0, 32, .ro, .latch, 0, [], [], false⟩
def VEN_st_GHITS : Fld := ⟨0x80C, 1, 0, 0, 32, .ro, .latch, 0, [], [], false⟩
def VEN_st_INDROP : Fld := ⟨0x810, 1, 0, 0, 32, .ro, .latch, 0, [], [], false⟩
def VEN_st_STALE : Fld := ⟨0x814, 1, 0, 0, 32, .ro, .latch, 0, [], [], false⟩
def VEN_st_TAKEN : Fld := ⟨0x818, 1, 0, 0, 2, .ro, .latch, 0, [], [], false⟩
def VEN_st_STAMP : Fld := ⟨0x81C, 1, 0, 0, 32, .ro, .latch, 0, [], [], false⟩
/-- The fields of the VEN page type. -/
def rowsVEN : List Fld :=
  [VEN_CFG_SRC, VEN_CFG_BLEND, VEN_CFG_AUXUSE, VEN_CFG_MATTE, VEN_CFG_SCALE, VEN_CFG_ROT, VEN_CFG_FLIPH, VEN_CFG_FLIPV, VEN_CFG_PICK, VEN_CFG_GEN, VEN_CFG_FLOW, VEN_OPACITY] ++
  [VEN_SRCXY_SX, VEN_SRCXY_SY, VEN_SRCWH_SW, VEN_SRCWH_SH, VEN_PLCXY_PX, VEN_PLCXY_PY, VEN_PLCWH_PW, VEN_PLCWH_PH, VEN_BUFWH_BW, VEN_BUFWH_BH, VEN_RING_COUNT, VEN_RING_SHOW] ++
  [VEN_RING_CUR, VEN_RING_READY, VEN_STRIDE, VEN_BUF_OFFSET, VEN_VDELAY, VEN_SACN_FIRSTU, VEN_SACN_NUMU, VEN_SACNFMT_FORMAT, VEN_SACNFMT_XFER, VEN_SACNFMT_PXPERU, VEN_TILES_TCOL0, VEN_TILES_TROW0] ++
  [VEN_TILESZ_TCOLS, VEN_TILESZ_TROWS, VEN_GUARD_KIND, VEN_GUARD_ACTION, VEN_GBASE_OFFSET, VEN_GLIMIT_OFFSET, VEN_GHIT_WRITER, VEN_GHIT_BLOCKED, VEN_GHITADDR_OFFSET, VEN_GHITST_ST, VEN_VIDFMT_SAMPLING, VEN_VIDFMT_DEPTH] ++
  [VEN_VIDFMT_COLOR, VEN_VIDFMT_TCS, VEN_VIDFMT_RANGE, VEN_VIDFMT_PACKING, VEN_VIDFMT_REFNITS, VEN_st_FRAMES, VEN_st_UNDERRUNS, VEN_st_UNDSAMP, VEN_st_GHITS, VEN_st_INDROP, VEN_st_STALE, VEN_st_TAKEN] ++
  [VEN_st_STAMP]

/-! ### MAP -/
def MAP_CANVAS_W : Fld := ⟨0x40, 1, 0, 0, 16, .rw, .commit, 0, [], [], false⟩
def MAP_CANVAS_H : Fld := ⟨0x40, 1, 0, 16, 16, .rw, .commit, 0, [], [], false⟩
def MAP_MAPBASE_OFFSET : Fld := ⟨0x44, 1, 0, 0, 27, .rw, .commit, 0, [], [], false⟩
def MAP_FETCHLEAD_LEAD : Fld := ⟨0x48, 1, 0, 0, 9, .rw, .commit, 20, [(5, 500)], [], false⟩
def MAP_BUDGET_V : Fld := ⟨0x4C, 1, 0, 0, 26, .ro, .status, 0, [], [], false⟩
def MAP_BUDGET_OVER : Fld := ⟨0x4C, 1, 0, 31, 1, .ro, .status, 0, [], [], false⟩
def MAP_CAP : Fld := ⟨0x50, 1, 0, 0, 26, .ro, .status, 0, [], [], false⟩
def MAP_st_FRAMES : Fld := ⟨0x800, 1, 0, 0, 32, .ro, .latch, 0, [], [], false⟩
def MAP_st_ENTRIES : Fld := ⟨0x804, 1, 0, 0, 32, .ro, .latch, 0, [], [], false⟩
def MAP_st_VENPIX : Fld := ⟨0x808, 1, 0, 0, 32, .ro, .latch, 0, [], [], false⟩
def MAP_st_BLANKS : Fld := ⟨0x80C, 1, 0, 0, 32, .ro, .latch, 0, [], [], false⟩
def MAP_st_OUTSIDE : Fld := ⟨0x810, 1, 0, 0, 32, .ro, .latch, 0, [], [], false⟩
def MAP_st_BADFIX : Fld := ⟨0x814, 1, 0, 0, 32, .ro, .latch, 0, [], [], false⟩
def MAP_SEG_FIRST : Fld := ⟨0xC00, 64, 16, 0, 32, .rw, .commit, 0, [], [], false⟩
def MAP_SEG_COUNT : Fld := ⟨0xC04, 64, 16, 0, 32, .rw, .commit, 0, [], [], false⟩
def MAP_SEG_X0 : Fld := ⟨0xC08, 64, 16, 0, 16, .rw, .commit, 0, [], [], false⟩
def MAP_SEG_Y0 : Fld := ⟨0xC08, 64, 16, 16, 16, .rw, .commit, 0, [], [], false⟩
def MAP_SEG_X1 : Fld := ⟨0xC0C, 64, 16, 0, 16, .rw, .commit, 0, [], [], false⟩
def MAP_SEG_Y1 : Fld := ⟨0xC0C, 64, 16, 16, 16, .rw, .commit, 0, [], [], false⟩
/-- The fields of the MAP page type. -/
def rowsMAP : List Fld :=
  [MAP_CANVAS_W, MAP_CANVAS_H, MAP_MAPBASE_OFFSET, MAP_FETCHLEAD_LEAD, MAP_BUDGET_V, MAP_BUDGET_OVER, MAP_CAP, MAP_st_FRAMES, MAP_st_ENTRIES, MAP_st_VENPIX, MAP_st_BLANKS, MAP_st_OUTSIDE] ++
  [MAP_st_BADFIX, MAP_SEG_FIRST, MAP_SEG_COUNT, MAP_SEG_X0, MAP_SEG_Y0, MAP_SEG_X1, MAP_SEG_Y1]

/-! ### GEN -/
def GEN_CFG_EN : Fld := ⟨0x100, 8, 64, 0, 1, .rw, .commit, 0, [], [], true⟩
def GEN_CFG_TYPE : Fld := ⟨0x100, 8, 64, 1, 3, .rw, .commit, 0, [], [(6, 7)], true⟩
def GEN_CFG_REPEAT : Fld := ⟨0x100, 8, 64, 4, 1, .rw, .commit, 0, [], [], true⟩
def GEN_ORGX_ORG : Fld := ⟨0x114, 8, 64, 0, 21, .rw, .commit, 0, [], [], true⟩
def GEN_ORGY_ORG : Fld := ⟨0x118, 8, 64, 0, 21, .rw, .commit, 0, [], [], true⟩
def GEN_ANGLE : Fld := ⟨0x11C, 8, 64, 0, 16, .rw, .commit, 0, [], [], true⟩
def GEN_LENGTH : Fld := ⟨0x120, 8, 64, 0, 20, .rw, .commit, 256, [], [(0, 0)], true⟩
def GEN_PERIOD : Fld := ⟨0x124, 8, 64, 0, 16, .rw, .commit, 60, [(1, 65535)], [], true⟩
def GEN_TIMING_ON : Fld := ⟨0x128, 8, 64, 0, 16, .rw, .commit, 30, [], [], true⟩
def GEN_TIMING_DUTY : Fld := ⟨0x128, 8, 64, 16, 16, .rw, .commit, 32768, [], [], true⟩
def GEN_PHASE : Fld := ⟨0x12C, 8, 64, 0, 32, .rw, .commit, 0, [], [], true⟩
def GEN_SEED : Fld := ⟨0x130, 8, 64, 0, 32, .rw, .commit, 0, [], [], true⟩
def GEN_LEVEL : Fld := ⟨0x134, 8, 64, 0, 16, .rw, .commit, 15360, [], [], true⟩
def GEN_COLA0_R : Fld := ⟨0x104, 8, 64, 0, 16, .rw, .commit, 0, [], [], true⟩
def GEN_COLA0_G : Fld := ⟨0x104, 8, 64, 16, 16, .rw, .commit, 0, [], [], true⟩
def GEN_COLA1_B : Fld := ⟨0x108, 8, 64, 0, 16, .rw, .commit, 0, [], [], true⟩
def GEN_COLA1_AUX : Fld := ⟨0x108, 8, 64, 16, 16, .rw, .commit, 0, [], [], true⟩
def GEN_COLB0_R : Fld := ⟨0x10C, 8, 64, 0, 16, .rw, .commit, 0, [], [], true⟩
def GEN_COLB0_G : Fld := ⟨0x10C, 8, 64, 16, 16, .rw, .commit, 0, [], [], true⟩
def GEN_COLB1_B : Fld := ⟨0x110, 8, 64, 0, 16, .rw, .commit, 0, [], [], true⟩
def GEN_COLB1_AUX : Fld := ⟨0x110, 8, 64, 16, 16, .rw, .commit, 0, [], [], true⟩
/-- The fields of the GEN page type. -/
def rowsGEN : List Fld :=
  [GEN_CFG_EN, GEN_CFG_TYPE, GEN_CFG_REPEAT, GEN_ORGX_ORG, GEN_ORGY_ORG, GEN_ANGLE, GEN_LENGTH, GEN_PERIOD, GEN_TIMING_ON, GEN_TIMING_DUTY, GEN_PHASE, GEN_SEED] ++
  [GEN_LEVEL, GEN_COLA0_R, GEN_COLA0_G, GEN_COLA1_B, GEN_COLA1_AUX, GEN_COLB0_R, GEN_COLB0_G, GEN_COLB1_B, GEN_COLB1_AUX]

/-! ### SQC -/
def SQC_CFG_EN : Fld := ⟨0x100, 16, 16, 0, 1, .rw, .commit, 0, [], [], false⟩
def SQC_CFG_CAPTURE : Fld := ⟨0x100, 16, 16, 1, 1, .rw, .commit, 0, [], [], false⟩
def SQC_CFG_FIRSTPORT : Fld := ⟨0x100, 16, 16, 8, 6, .rw, .commit, 0, [], [], false⟩
def SQC_CFG_LASTPORT : Fld := ⟨0x100, 16, 16, 16, 6, .rw, .commit, 0, [], [], false⟩
def SQC_FIRSTPIX : Fld := ⟨0x104, 16, 16, 0, 20, .rw, .commit, 0, [], [], false⟩
def SQC_EXPECT : Fld := ⟨0x108, 16, 16, 0, 32, .rw, .commit, 0, [], [], false⟩
def SQC_LASTPIX : Fld := ⟨0x10C, 16, 16, 0, 20, .rw, .commit, 0, [], [], false⟩
def SQC_st_ST_RESULT : Fld := ⟨0x840, 16, 16, 0, 3, .ro, .latch, 0, [], [], false⟩
def SQC_st_ST_FN : Fld := ⟨0x840, 16, 16, 16, 16, .ro, .latch, 0, [], [], false⟩
def SQC_st_ST_CRC : Fld := ⟨0x844, 16, 16, 0, 32, .ro, .latch, 0, [], [], false⟩
def SQC_st_ST_MATCHES : Fld := ⟨0x848, 16, 16, 0, 32, .ro, .latch, 0, [], [], false⟩
def SQC_st_ST_MISMATCHES : Fld := ⟨0x84C, 16, 16, 0, 32, .ro, .latch, 0, [], [], false⟩
/-- The fields of the SQC page type. -/
def rowsSQC : List Fld :=
  [SQC_CFG_EN, SQC_CFG_CAPTURE, SQC_CFG_FIRSTPORT, SQC_CFG_LASTPORT, SQC_FIRSTPIX, SQC_EXPECT, SQC_LASTPIX, SQC_st_ST_RESULT, SQC_st_ST_FN, SQC_st_ST_CRC, SQC_st_ST_MATCHES, SQC_st_ST_MISMATCHES]

/-! ### COL -/
def COL_INSTBASE_OFFSET : Fld := ⟨0x40, 1, 0, 0, 27, .rw, .commit, 0, [], [], false⟩
def COL_NINST : Fld := ⟨0x44, 1, 0, 0, 15, .rw, .commit, 0, [(0, 16384)], [], false⟩
def COL_STATEBASE_OFFSET : Fld := ⟨0x48, 1, 0, 0, 27, .rw, .commit, 0, [], [], false⟩
def COL_LANECAP_CAP : Fld := ⟨0x4C, 1, 0, 0, 28, .ro, .status, 0, [], [], false⟩
def COL_LANECAP_OVER : Fld := ⟨0x4C, 1, 0, 31, 1, .ro, .status, 0, [], [], false⟩
def COL_LOAD_E : Fld := ⟨0x50, 1, 0, 0, 21, .ro, .status, 0, [], [], false⟩
def COL_CACHE_BYTES : Fld := ⟨0x54, 1, 0, 0, 25, .ro, .status, 0, [], [], false⟩
def COL_CACHE_OVER : Fld := ⟨0x54, 1, 0, 31, 1, .ro, .status, 0, [], [], false⟩
def COL_LANES : Fld := ⟨0x58, 1, 0, 0, 3, .ro, .status, 0, [], [], false⟩
def COL_TEST_TESTEMIT : Fld := ⟨0x5C, 1, 0, 0, 3, .rw, .commit, 0, [], [], false⟩
def COL_PORT_PORTW : Fld := ⟨0x100, 64, 4, 0, 4, .rw, .commit, 3, [(1, 8)], [], true⟩
def COL_PORT_WIDTH : Fld := ⟨0x100, 64, 4, 8, 5, .rw, .commit, 8, [(8, 16)], [], true⟩
def COL_PORT_DITHER : Fld := ⟨0x100, 64, 4, 16, 3, .rw, .commit, 0, [(0, 4)], [], true⟩
def COL_st_FRAMES : Fld := ⟨0x800, 1, 0, 0, 32, .ro, .latch, 0, [], [], false⟩
def COL_st_PIXELS : Fld := ⟨0x804, 1, 0, 0, 32, .ro, .latch, 0, [], [], false⟩
def COL_st_OOG : Fld := ⟨0x808, 1, 0, 0, 32, .ro, .latch, 0, [], [], false⟩
def COL_st_SAT : Fld := ⟨0x80C, 1, 0, 0, 32, .ro, .latch, 0, [], [], false⟩
def COL_st_TABLEERR : Fld := ⟨0x810, 1, 0, 0, 32, .ro, .latch, 0, [], [], false⟩
def COL_st_MISSES : Fld := ⟨0x814, 1, 0, 0, 32, .ro, .latch, 0, [], [], false⟩
def COL_st_CUTINST : Fld := ⟨0x818, 1, 0, 0, 15, .ro, .latch, 0, [], [], false⟩
def COL_st_STALEINST : Fld := ⟨0x81C, 1, 0, 0, 15, .ro, .latch, 0, [], [], false⟩
def COL_st_FIRSTINST : Fld := ⟨0x820, 1, 0, 0, 15, .ro, .latch, 0, [], [], false⟩
def COL_st_HOTTEST : Fld := ⟨0x824, 1, 0, 0, 16, .ro, .latch, 0, [], [], false⟩
def COL_st_HOTINST : Fld := ⟨0x824, 1, 0, 16, 14, .ro, .latch, 0, [], [], false⟩
def COL_DIR_WORD : Fld := ⟨0xC00, 256, 4, 0, 32, .rw, .commit, 0, [], [], false⟩
/-- The fields of the COL page type. -/
def rowsCOL : List Fld :=
  [COL_INSTBASE_OFFSET, COL_NINST, COL_STATEBASE_OFFSET, COL_LANECAP_CAP, COL_LANECAP_OVER, COL_LOAD_E, COL_CACHE_BYTES, COL_CACHE_OVER, COL_LANES, COL_TEST_TESTEMIT, COL_PORT_PORTW, COL_PORT_WIDTH] ++
  [COL_PORT_DITHER, COL_st_FRAMES, COL_st_PIXELS, COL_st_OOG, COL_st_SAT, COL_st_TABLEERR, COL_st_MISSES, COL_st_CUTINST, COL_st_STALEINST, COL_st_FIRSTINST, COL_st_HOTTEST, COL_st_HOTINST] ++
  [COL_DIR_WORD]

/-! ### EDGE -/
def EDGE_BANKCFG_VSEL : Fld := ⟨0x40, 1, 0, 0, 4, .rw, .commit, 0, [], [], false⟩
def EDGE_BANKCFG_PINCHK : Fld := ⟨0x40, 1, 0, 8, 4, .rw, .atOnce, 0, [], [], false⟩
def EDGE_LATCFG_EN : Fld := ⟨0x80, 16, 4, 0, 1, .rw, .commit, 0, [], [], false⟩
def EDGE_LATCFG_POL : Fld := ⟨0x80, 16, 4, 1, 1, .rw, .commit, 0, [], [], false⟩
def EDGE_LATCFG_WIDTH : Fld := ⟨0x80, 16, 4, 8, 12, .rw, .commit, 100, [(20, 4095)], [], false⟩
def EDGE_st_FRAMES : Fld := ⟨0x800, 1, 0, 0, 32, .ro, .latch, 0, [], [], false⟩
def EDGE_st_EDGES : Fld := ⟨0x804, 1, 0, 0, 32, .ro, .latch, 0, [], [], false⟩
def EDGE_st_EDGELATE : Fld := ⟨0x808, 1, 0, 0, 32, .ro, .latch, 0, [], [], false⟩
def EDGE_st_PINERR : Fld := ⟨0x80C, 1, 0, 0, 32, .ro, .latch, 0, [], [], false⟩
def EDGE_st_CALDELAY : Fld := ⟨0x810, 1, 0, 0, 32, .ro, .latch, 0, [], [], false⟩
/-- The fields of the EDGE page type. -/
def rowsEDGE : List Fld :=
  [EDGE_BANKCFG_VSEL, EDGE_BANKCFG_PINCHK, EDGE_LATCFG_EN, EDGE_LATCFG_POL, EDGE_LATCFG_WIDTH, EDGE_st_FRAMES, EDGE_st_EDGES, EDGE_st_EDGELATE, EDGE_st_PINERR, EDGE_st_CALDELAY]

/-! ### STD -/
def STD_CFG_KIND : Fld := ⟨0x40, 1, 0, 0, 3, .rw, .commit, 0, [], [], false⟩
def STD_CFG_GANG : Fld := ⟨0x40, 1, 0, 4, 4, .rw, .commit, 0, [], [], false⟩
def STD_CFG_LGRP : Fld := ⟨0x40, 1, 0, 8, 4, .rw, .commit, 0, [], [], true⟩
def STD_CFG_LATPIN : Fld := ⟨0x40, 1, 0, 12, 1, .rw, .commit, 0, [], [], true⟩
def STD_CFG_INVA : Fld := ⟨0x40, 1, 0, 13, 1, .rw, .commit, 0, [], [], true⟩
def STD_CFG_INVB : Fld := ⟨0x40, 1, 0, 14, 1, .rw, .commit, 0, [], [], true⟩
def STD_CFG_LSBFIRST : Fld := ⟨0x40, 1, 0, 15, 1, .rw, .commit, 0, [], [], true⟩
def STD_CFG_BITS : Fld := ⟨0x40, 1, 0, 16, 5, .rw, .commit, 16, [(8, 16)], [], true⟩
def STD_CFG_RBEN : Fld := ⟨0x40, 1, 0, 21, 1, .rw, .commit, 0, [], [], true⟩
def STD_CFG_RETPORT : Fld := ⟨0x40, 1, 0, 24, 6, .rw, .commit, 0, [], [], true⟩
def STD_SBUF0_OFFSET : Fld := ⟨0x44, 1, 0, 0, 27, .rw, .commit, 0, [], [], true⟩
def STD_SBUF1_OFFSET : Fld := ⟨0x48, 1, 0, 0, 27, .rw, .commit, 0, [], [], true⟩
def STD_RBBASE_OFFSET : Fld := ⟨0x4C, 1, 0, 0, 27, .rw, .commit, 0, [], [], true⟩
def STD_TBIT : Fld := ⟨0x50, 1, 0, 0, 24, .rw, .commit, 640, [], [], true⟩
def STD_T0H_HIGH : Fld := ⟨0x54, 1, 0, 0, 20, .rw, .commit, 4800, [], [], true⟩
def STD_T1H_HIGH : Fld := ⟨0x58, 1, 0, 0, 20, .rw, .commit, 9600, [], [], true⟩
def STD_ENDGAP : Fld := ⟨0x5C, 1, 0, 0, 20, .rw, .commit, 2000, [(20, 1000000)], [], true⟩
def STD_P : Fld := ⟨0x60, 4, 4, 0, 32, .rw, .commit, 0, [], [], true⟩
def STD_GPIOTIME_ST : Fld := ⟨0x70, 1, 0, 0, 32, .rw, .atOnce, 0, [], [], false⟩
def STD_GPIOPUSH_LEVEL : Fld := ⟨0x74, 1, 0, 0, 1, .wo, .atOnce, 0, [], [], false⟩
def STD_GPIOPUSH_PIN : Fld := ⟨0x74, 1, 0, 1, 1, .wo, .atOnce, 0, [], [], false⟩
def STD_GPIOPUSH_FRAC : Fld := ⟨0x74, 1, 0, 4, 4, .wo, .atOnce, 0, [], [], false⟩
def STD_PINSTAT_ALVL : Fld := ⟨0x78, 1, 0, 0, 1, .ro, .status, 0, [], [], false⟩
def STD_PINSTAT_BLVL : Fld := ⟨0x78, 1, 0, 1, 1, .ro, .status, 0, [], [], false⟩
def STD_PINSTAT_AFILL : Fld := ⟨0x78, 1, 0, 8, 7, .ro, .status, 0, [], [], false⟩
def STD_PINSTAT_BFILL : Fld := ⟨0x78, 1, 0, 16, 7, .ro, .status, 0, [], [], false⟩
def STD_SHIFT_D : Fld := ⟨0x7C, 1, 0, 0, 32, .ro, .status, 0, [], [], false⟩
def STD_LSS_ST : Fld := ⟨0x80, 1, 0, 0, 32, .ro, .status, 0, [], [], false⟩
def STD_RDMCTL_LEN : Fld := ⟨0x84, 1, 0, 0, 8, .rw, .atOnce, 24, [(24, 255)], [], false⟩
def STD_RDMCTL_GO : Fld := ⟨0x84, 1, 0, 8, 1, .wo, .atOnce, 0, [], [], false⟩
def STD_RDMCTL_DISC : Fld := ⟨0x84, 1, 0, 9, 1, .rw, .atOnce, 0, [], [], false⟩
def STD_RDMCTL_BCAST : Fld := ⟨0x84, 1, 0, 10, 1, .rw, .atOnce, 0, [], [], false⟩
def STD_RDMCTL_STATUS : Fld := ⟨0x84, 1, 0, 12, 4, .ro, .status, 0, [], [], false⟩
def STD_RDMCTL_RLEN : Fld := ⟨0x84, 1, 0, 16, 9, .ro, .status, 0, [], [], false⟩
def STD_MATRIX_P0_MDIV : Fld := ⟨0x60, 1, 0, 0, 12, .rw, .commit, 0, [(1, 4095)], [], true⟩
def STD_MATRIX_P0_LAMPS : Fld := ⟨0x60, 1, 0, 16, 6, .rw, .commit, 0, [(1, 8)], [], true⟩
def STD_MATRIX_P0_LITMAX : Fld := ⟨0x60, 1, 0, 24, 6, .rw, .commit, 0, [(1, 32)], [], true⟩
def STD_MATRIX_P0_BYPOL : Fld := ⟨0x60, 1, 0, 30, 1, .rw, .commit, 0, [], [], true⟩
def STD_MATRIX_P0_SERIAL : Fld := ⟨0x60, 1, 0, 31, 1, .rw, .commit, 0, [], [], true⟩
def STD_MATRIX_P1_LOADW : Fld := ⟨0x64, 1, 0, 0, 16, .rw, .commit, 0, [(10, 65535)], [], true⟩
def STD_PWM_P0_PDIV : Fld := ⟨0x60, 1, 0, 0, 16, .rw, .commit, 0, [], [], true⟩
def STD_PWM_P0_SPREAD : Fld := ⟨0x60, 1, 0, 16, 1, .rw, .commit, 0, [], [], true⟩
def STD_DMX_P0_BRK : Fld := ⟨0x60, 1, 0, 0, 10, .rw, .commit, 0, [], [], true⟩
def STD_DMX_P0_MAB : Fld := ⟨0x60, 1, 0, 16, 10, .rw, .commit, 0, [], [], true⟩
def STD_DMX_P1_NSLOT : Fld := ⟨0x64, 1, 0, 0, 10, .rw, .commit, 0, [], [], true⟩
def STD_DMX_P1_MTBS : Fld := ⟨0x64, 1, 0, 16, 10, .rw, .commit, 0, [], [], true⟩
def STD_DMX_P2_REFRESH : Fld := ⟨0x68, 1, 0, 0, 16, .rw, .commit, 0, [], [], true⟩
def STD_DMX_P2_MBB : Fld := ⟨0x68, 1, 0, 16, 16, .rw, .commit, 0, [], [], true⟩
def STD_PANEL_P0_ROWS : Fld := ⟨0x60, 1, 0, 0, 6, .rw, .commit, 0, [(1, 32)], [], true⟩
def STD_PANEL_P0_NDATA : Fld := ⟨0x60, 1, 0, 8, 5, .rw, .commit, 0, [(1, 29)], [], true⟩
def STD_PANEL_P0_CHAINLEN : Fld := ⟨0x60, 1, 0, 16, 10, .rw, .commit, 0, [(1, 1023)], [], true⟩
def STD_PANEL_P1_SCANREP : Fld := ⟨0x64, 1, 0, 0, 8, .rw, .commit, 0, [(1, 255)], [], true⟩
def STD_PANEL_P1_GCLKS : Fld := ⟨0x64, 1, 0, 16, 16, .rw, .commit, 0, [(1, 255)], [], true⟩
def STD_PANEL_P2_BLANK : Fld := ⟨0x68, 1, 0, 0, 16, .rw, .commit, 0, [], [], true⟩
def STD_PANEL_P2_DLATW : Fld := ⟨0x68, 1, 0, 16, 16, .rw, .commit, 0, [], [], true⟩
def STD_PANEL_P3_VSW : Fld := ⟨0x6C, 1, 0, 0, 16, .rw, .commit, 0, [], [], true⟩
def STD_GPIO_P0_OFFSET : Fld := ⟨0x60, 1, 0, 0, 32, .rw, .commit, 0, [], [], true⟩
def STD_GPIO_P1_WIDTH : Fld := ⟨0x64, 1, 0, 0, 16, .rw, .commit, 0, [(5, 65535)], [], true⟩
def STD_GPIO_P1_K : Fld := ⟨0x64, 1, 0, 16, 8, .rw, .commit, 0, [], [], true⟩
def STD_GPIO_P1_PULSEA : Fld := ⟨0x64, 1, 0, 24, 1, .rw, .commit, 0, [], [], true⟩
def STD_st_FRAMES : Fld := ⟨0x800, 1, 0, 0, 32, .ro, .latch, 0, [], [], false⟩
def STD_st_SENT : Fld := ⟨0x804, 1, 0, 0, 32, .ro, .latch, 0, [], [], false⟩
def STD_st_SKIPS : Fld := ⟨0x808, 1, 0, 0, 32, .ro, .latch, 0, [], [], false⟩
def STD_st_NOFIT : Fld := ⟨0x80C, 1, 0, 0, 32, .ro, .latch, 0, [], [], false⟩
def STD_st_WORDERR : Fld := ⟨0x810, 1, 0, 0, 32, .ro, .latch, 0, [], [], false⟩
def STD_st_EDGELATE : Fld := ⟨0x814, 1, 0, 0, 32, .ro, .latch, 0, [], [], false⟩
def STD_st_PINERR : Fld := ⟨0x818, 1, 0, 0, 32, .ro, .latch, 0, [], [], false⟩
def STD_st_OVRFRAMES : Fld := ⟨0x81C, 1, 0, 0, 32, .ro, .latch, 0, [], [], false⟩
def STD_st_BANDCLIP : Fld := ⟨0x820, 1, 0, 0, 32, .ro, .latch, 0, [], [], false⟩
def STD_st_MERGED : Fld := ⟨0x824, 1, 0, 0, 32, .ro, .latch, 0, [], [], false⟩
def STD_st_PACKETS : Fld := ⟨0x828, 1, 0, 0, 32, .ro, .latch, 0, [], [], false⟩
def STD_st_RDMFAIL : Fld := ⟨0x82C, 1, 0, 0, 32, .ro, .latch, 0, [], [], false⟩
def STD_st_RBVALID : Fld := ⟨0x830, 1, 0, 0, 11, .ro, .latch, 0, [], [], false⟩
/-- The fields of the STD page type. -/
def rowsSTD : List Fld :=
  [STD_CFG_KIND, STD_CFG_GANG, STD_CFG_LGRP, STD_CFG_LATPIN, STD_CFG_INVA, STD_CFG_INVB, STD_CFG_LSBFIRST, STD_CFG_BITS, STD_CFG_RBEN, STD_CFG_RETPORT, STD_SBUF0_OFFSET, STD_SBUF1_OFFSET] ++
  [STD_RBBASE_OFFSET, STD_TBIT, STD_T0H_HIGH, STD_T1H_HIGH, STD_ENDGAP, STD_P, STD_GPIOTIME_ST, STD_GPIOPUSH_LEVEL, STD_GPIOPUSH_PIN, STD_GPIOPUSH_FRAC, STD_PINSTAT_ALVL, STD_PINSTAT_BLVL] ++
  [STD_PINSTAT_AFILL, STD_PINSTAT_BFILL, STD_SHIFT_D, STD_LSS_ST, STD_RDMCTL_LEN, STD_RDMCTL_GO, STD_RDMCTL_DISC, STD_RDMCTL_BCAST, STD_RDMCTL_STATUS, STD_RDMCTL_RLEN, STD_st_FRAMES, STD_st_SENT] ++
  [STD_st_SKIPS, STD_st_NOFIT, STD_st_WORDERR, STD_st_EDGELATE, STD_st_PINERR, STD_st_OVRFRAMES, STD_st_BANDCLIP, STD_st_MERGED, STD_st_PACKETS, STD_st_RDMFAIL, STD_st_RBVALID]

/-! ### OVR -/
def OVR_TRIG_EN : Fld := ⟨0x40, 8, 4, 0, 1, .rw, .atOnce, 0, [], [], false⟩
def OVR_TRIG_POL : Fld := ⟨0x40, 8, 4, 1, 1, .rw, .atOnce, 0, [], [], false⟩
def OVR_TRIG_LEVEL : Fld := ⟨0x40, 8, 4, 2, 1, .rw, .atOnce, 0, [], [], false⟩
def OVR_TRIG_STATE : Fld := ⟨0x40, 8, 4, 4, 3, .rw, .atOnce, 0, [], [], false⟩
def OVR_TRIG_FILTER : Fld := ⟨0x40, 8, 4, 16, 16, .rw, .atOnce, 16, [(16, 65535)], [], false⟩
def OVR_FIRE : Fld := ⟨0x60, 1, 0, 0, 8, .wo, .atOnce, 0, [], [], false⟩
def OVR_RELEASE : Fld := ⟨0x64, 1, 0, 0, 8, .wo, .atOnce, 0, [], [], false⟩
def OVR_ACTIVE : Fld := ⟨0x68, 1, 0, 0, 8, .ro, .status, 0, [], [], false⟩
def OVR_ST_CFG_EN : Fld := ⟨0x100, 8, 32, 0, 1, .rw, .commit, 0, [], [], false⟩
def OVR_ST_CFG_KIND : Fld := ⟨0x100, 8, 32, 1, 2, .rw, .commit, 0, [], [], false⟩
def OVR_ST_MASKL_MASK : Fld := ⟨0x104, 8, 32, 0, 32, .rw, .commit, 0, [], [], false⟩
def OVR_ST_MASKH_MASK : Fld := ⟨0x108, 8, 32, 0, 32, .rw, .commit, 0, [], [], false⟩
def OVR_ST_LEV01_LEVELlo : Fld := ⟨0x10C, 8, 32, 0, 16, .rw, .commit, 0, [], [], false⟩
def OVR_ST_LEV01_LEVELhi : Fld := ⟨0x10C, 8, 32, 16, 16, .rw, .commit, 0, [], [], false⟩
def OVR_ST_LEV23_LEVELlo : Fld := ⟨0x110, 8, 32, 0, 16, .rw, .commit, 0, [], [], false⟩
def OVR_ST_LEV23_LEVELhi : Fld := ⟨0x110, 8, 32, 16, 16, .rw, .commit, 0, [], [], false⟩
def OVR_ST_LEV45_LEVELlo : Fld := ⟨0x114, 8, 32, 0, 16, .rw, .commit, 0, [], [], false⟩
def OVR_ST_LEV45_LEVELhi : Fld := ⟨0x114, 8, 32, 16, 16, .rw, .commit, 0, [], [], false⟩
def OVR_ST_LEV67_LEVELlo : Fld := ⟨0x118, 8, 32, 0, 16, .rw, .commit, 0, [], [], false⟩
def OVR_ST_LEV67_LEVELhi : Fld := ⟨0x118, 8, 32, 16, 16, .rw, .commit, 0, [], [], false⟩
def OVR_ST_STROBE_PERIOD : Fld := ⟨0x11C, 8, 32, 0, 16, .rw, .commit, 1, [(1, 65535)], [], false⟩
def OVR_ST_STROBE_ON : Fld := ⟨0x11C, 8, 32, 16, 16, .rw, .commit, 0, [], [], false⟩
def OVR_st_FRAMES : Fld := ⟨0x800, 1, 0, 0, 32, .ro, .latch, 0, [], [], false⟩
def OVR_st_FIRES : Fld := ⟨0x804, 1, 0, 0, 32, .ro, .latch, 0, [], [], false⟩
def OVR_st_RELEASES : Fld := ⟨0x808, 1, 0, 0, 32, .ro, .latch, 0, [], [], false⟩
def OVR_st_TRIGEDGES : Fld := ⟨0x80C, 1, 0, 0, 32, .ro, .latch, 0, [], [], false⟩
def OVR_st_REFUSED : Fld := ⟨0x810, 1, 0, 0, 32, .ro, .latch, 0, [], [], false⟩
/-- The fields of the OVR page type. -/
def rowsOVR : List Fld :=
  [OVR_TRIG_EN, OVR_TRIG_POL, OVR_TRIG_LEVEL, OVR_TRIG_STATE, OVR_TRIG_FILTER, OVR_FIRE, OVR_RELEASE, OVR_ACTIVE, OVR_ST_CFG_EN, OVR_ST_CFG_KIND, OVR_ST_MASKL_MASK, OVR_ST_MASKH_MASK] ++
  [OVR_ST_LEV01_LEVELlo, OVR_ST_LEV01_LEVELhi, OVR_ST_LEV23_LEVELlo, OVR_ST_LEV23_LEVELhi, OVR_ST_LEV45_LEVELlo, OVR_ST_LEV45_LEVELhi, OVR_ST_LEV67_LEVELlo, OVR_ST_LEV67_LEVELhi, OVR_ST_STROBE_PERIOD, OVR_ST_STROBE_ON, OVR_st_FRAMES, OVR_st_FIRES] ++
  [OVR_st_RELEASES, OVR_st_TRIGEDGES, OVR_st_REFUSED]

/-! ### CAL -/
def CAL_CTL_AUTO : Fld := ⟨0x40, 1, 0, 0, 1, .rw, .atOnce, 1, [], [], false⟩
def CAL_CTL_BANKEN : Fld := ⟨0x40, 1, 0, 4, 4, .rw, .atOnce, 15, [], [], false⟩
def CAL_CTL_RUNNOW : Fld := ⟨0x40, 1, 0, 8, 1, .wo, .atOnce, 0, [], [], false⟩
def CAL_CTL_BANKSEL : Fld := ⟨0x40, 1, 0, 12, 2, .rw, .atOnce, 0, [], [], false⟩
def CAL_INTERVAL : Fld := ⟨0x44, 1, 0, 0, 16, .rw, .atOnce, 5000, [(100, 60000)], [], false⟩
def CAL_TEMPTRIG : Fld := ⟨0x48, 1, 0, 0, 5, .rw, .atOnce, 5, [(0, 20)], [], false⟩
def CAL_WINGUARD_GUARD : Fld := ⟨0x4C, 1, 0, 0, 10, .rw, .atOnce, 200, [(20, 1000)], [], false⟩
def CAL_STAT_BUSY : Fld := ⟨0x50, 1, 0, 0, 1, .ro, .status, 0, [], [], false⟩
def CAL_STAT_BANK : Fld := ⟨0x50, 1, 0, 4, 2, .ro, .status, 0, [], [], false⟩
def CAL_STAT_WINDOWS : Fld := ⟨0x50, 1, 0, 8, 7, .ro, .status, 0, [], [], false⟩
def CAL_TABSEL_PIN : Fld := ⟨0x54, 1, 0, 0, 6, .rw, .atOnce, 0, [], [], false⟩
def CAL_BANKSTAT_SRC : Fld := ⟨0x60, 4, 4, 0, 2, .ro, .status, 0, [], [], false⟩
def CAL_BANKSTAT_CALIB : Fld := ⟨0x60, 4, 4, 2, 1, .ro, .status, 0, [], [], false⟩
def CAL_BANKSTAT_TEMP : Fld := ⟨0x60, 4, 4, 8, 8, .ro, .status, 0, [], [], false⟩
def CAL_BANKSTAT_AGE : Fld := ⟨0x60, 4, 4, 16, 16, .ro, .status, 0, [], [], false⟩
def CAL_AUDDC_EN : Fld := ⟨0x70, 1, 0, 0, 1, .rw, .atOnce, 1, [], [], false⟩
def CAL_AUDDC_TC : Fld := ⟨0x70, 1, 0, 8, 5, .rw, .atOnce, 15, [(10, 20)], [], false⟩
def CAL_st_FRAMES : Fld := ⟨0x800, 1, 0, 0, 32, .ro, .latch, 0, [], [], false⟩
def CAL_st_WINDOWS : Fld := ⟨0x804, 1, 0, 0, 32, .ro, .latch, 0, [], [], false⟩
def CAL_st_DEFERRED : Fld := ⟨0x808, 1, 0, 0, 32, .ro, .latch, 0, [], [], false⟩
def CAL_st_ABORTS : Fld := ⟨0x80C, 1, 0, 0, 32, .ro, .latch, 0, [], [], false⟩
def CAL_st_RUNS : Fld := ⟨0x810, 1, 0, 0, 32, .ro, .latch, 0, [], [], false⟩
def CAL_st_REJECTS : Fld := ⟨0x814, 1, 0, 0, 32, .ro, .latch, 0, [], [], false⟩
/-- The fields of the CAL page type. -/
def rowsCAL : List Fld :=
  [CAL_CTL_AUTO, CAL_CTL_BANKEN, CAL_CTL_RUNNOW, CAL_CTL_BANKSEL, CAL_INTERVAL, CAL_TEMPTRIG, CAL_WINGUARD_GUARD, CAL_STAT_BUSY, CAL_STAT_BANK, CAL_STAT_WINDOWS, CAL_TABSEL_PIN, CAL_BANKSTAT_SRC] ++
  [CAL_BANKSTAT_CALIB, CAL_BANKSTAT_TEMP, CAL_BANKSTAT_AGE, CAL_AUDDC_EN, CAL_AUDDC_TC, CAL_st_FRAMES, CAL_st_WINDOWS, CAL_st_DEFERRED, CAL_st_ABORTS, CAL_st_RUNS, CAL_st_REJECTS]

/-! ### ADC -/
def ADC_GRP_MASK : Fld := ⟨0x40, 4, 4, 0, 16, .rw, .atOnce, 0, [], [], false⟩
def ADC_GRPSTART_START : Fld := ⟨0x50, 1, 0, 0, 4, .wo, .atOnce, 0, [], [], false⟩
def ADC_CALCTL_AUTO : Fld := ⟨0x54, 1, 0, 0, 1, .rw, .atOnce, 1, [], [], false⟩
def ADC_CALCTL_NOW : Fld := ⟨0x54, 1, 0, 1, 1, .wo, .atOnce, 0, [], [], false⟩
def ADC_CALCTL_CALPER : Fld := ⟨0x54, 1, 0, 16, 16, .rw, .atOnce, 1000, [(10, 60000)], [], false⟩
def ADC_OFFSET : Fld := ⟨0x58, 1, 0, 0, 16, .ro, .status, 0, [], [], false⟩
def ADC_GAIN : Fld := ⟨0x5C, 1, 0, 0, 16, .ro, .status, 0, [], [], false⟩
def ADC_DIETEMP_TEMP : Fld := ⟨0x60, 1, 0, 0, 16, .ro, .status, 0, [], [], false⟩
def ADC_DIETEMP_VALID : Fld := ⟨0x60, 1, 0, 16, 1, .ro, .status, 0, [], [], false⟩
def ADC_RESULT_CODE : Fld := ⟨0x80, 24, 8, 0, 12, .ro, .status, 0, [], [], false⟩
def ADC_RESULT_RAW : Fld := ⟨0x80, 24, 8, 16, 12, .ro, .status, 0, [], [], false⟩
def ADC_RESULT_VALID : Fld := ⟨0x80, 24, 8, 31, 1, .ro, .status, 0, [], [], false⟩
def ADC_RESST_ST : Fld := ⟨0x84, 24, 8, 0, 32, .ro, .status, 0, [], [], false⟩
def ADC_st_FRAMES : Fld := ⟨0x800, 1, 0, 0, 32, .ro, .latch, 0, [], [], false⟩
def ADC_st_CONVS : Fld := ⟨0x804, 1, 0, 0, 32, .ro, .latch, 0, [], [], false⟩
def ADC_st_CALS : Fld := ⟨0x808, 1, 0, 0, 32, .ro, .latch, 0, [], [], false⟩
def ADC_st_OVERRUNS : Fld := ⟨0x80C, 1, 0, 0, 32, .ro, .latch, 0, [], [], false⟩
/-- The fields of the ADC page type. -/
def rowsADC : List Fld :=
  [ADC_GRP_MASK, ADC_GRPSTART_START, ADC_CALCTL_AUTO, ADC_CALCTL_NOW, ADC_CALCTL_CALPER, ADC_OFFSET, ADC_GAIN, ADC_DIETEMP_TEMP, ADC_DIETEMP_VALID, ADC_RESULT_CODE, ADC_RESULT_RAW, ADC_RESULT_VALID] ++
  [ADC_RESST_ST, ADC_st_FRAMES, ADC_st_CONVS, ADC_st_CALS, ADC_st_OVERRUNS]

/-! ### SND -/
def SND_TDM0_EN : Fld := ⟨0x40, 1, 0, 0, 1, .rw, .atOnce, 0, [], [], false⟩
def SND_TDM1_EN : Fld := ⟨0x44, 1, 0, 0, 1, .rw, .atOnce, 0, [], [], false⟩
def SND_TDM0_MASTER : Fld := ⟨0x40, 1, 0, 1, 1, .rw, .atOnce, 0, [], [], false⟩
def SND_TDM1_MASTER : Fld := ⟨0x44, 1, 0, 1, 1, .rw, .atOnce, 0, [], [], false⟩
def SND_TDM0_RATE : Fld := ⟨0x40, 1, 0, 2, 1, .rw, .atOnce, 0, [], [], false⟩
def SND_TDM1_RATE : Fld := ⟨0x44, 1, 0, 2, 1, .rw, .atOnce, 0, [], [], false⟩
def SND_TDM0_LINES : Fld := ⟨0x40, 1, 0, 4, 2, .rw, .atOnce, 0, [], [], false⟩
def SND_TDM1_LINES : Fld := ⟨0x44, 1, 0, 4, 2, .rw, .atOnce, 0, [], [], false⟩
def SND_TDM0_SLOTS : Fld := ⟨0x40, 1, 0, 6, 2, .rw, .atOnce, 0, [], [(3, 3)], false⟩
def SND_TDM1_SLOTS : Fld := ⟨0x44, 1, 0, 6, 2, .rw, .atOnce, 0, [], [(3, 3)], false⟩
def SND_TDM0_FSPOL : Fld := ⟨0x40, 1, 0, 8, 1, .rw, .atOnce, 0, [], [], false⟩
def SND_TDM1_FSPOL : Fld := ⟨0x44, 1, 0, 8, 1, .rw, .atOnce, 0, [], [], false⟩
def SND_TDM0_FSLEN : Fld := ⟨0x40, 1, 0, 9, 1, .rw, .atOnce, 0, [], [], false⟩
def SND_TDM1_FSLEN : Fld := ⟨0x44, 1, 0, 9, 1, .rw, .atOnce, 0, [], [], false⟩
def SND_TDM0_DELAY : Fld := ⟨0x40, 1, 0, 10, 1, .rw, .atOnce, 0, [], [], false⟩
def SND_TDM1_DELAY : Fld := ⟨0x44, 1, 0, 10, 1, .rw, .atOnce, 0, [], [], false⟩
def SND_TDM0_EDGE : Fld := ⟨0x40, 1, 0, 11, 1, .rw, .atOnce, 0, [], [], false⟩
def SND_TDM1_EDGE : Fld := ⟨0x44, 1, 0, 11, 1, .rw, .atOnce, 0, [], [], false⟩
def SND_INSTAT_TDMLOCK : Fld := ⟨0x48, 1, 0, 0, 2, .ro, .status, 0, [], [], false⟩
def SND_INSTAT_AESLOCK : Fld := ⟨0x48, 1, 0, 8, 8, .ro, .status, 0, [], [], false⟩
def SND_AESCFG_EN : Fld := ⟨0x60, 8, 8, 0, 1, .rw, .atOnce, 0, [], [], false⟩
def SND_AESCFG_RATE : Fld := ⟨0x60, 8, 8, 1, 1, .rw, .atOnce, 0, [], [], false⟩
def SND_AESCFG_CH : Fld := ⟨0x60, 8, 8, 2, 3, .rw, .atOnce, 1, [], [], false⟩
def SND_AESCFG_PTIME : Fld := ⟨0x60, 8, 8, 6, 2, .rw, .atOnce, 2, [], [(3, 3)], false⟩
def SND_AESOFF_OFFSET : Fld := ⟨0x64, 8, 8, 0, 32, .rw, .atOnce, 0, [], [], false⟩
def SND_BUS_EN : Fld := ⟨0xA0, 4, 4, 0, 1, .rw, .atOnce, 0, [], [], false⟩
def SND_BUS_LAG : Fld := ⟨0xA0, 4, 4, 4, 13, .rw, .atOnce, 1500, [(0, 5000)], [], false⟩
def SND_ONSMASK_MASK : Fld := ⟨0xB0, 4, 4, 0, 32, .rw, .atOnce, 4294967295, [], [], false⟩
def SND_ONSET_GAP : Fld := ⟨0xC0, 1, 0, 0, 8, .rw, .atOnce, 50, [(10, 255)], [], false⟩
def SND_ONSET_K : Fld := ⟨0xC0, 1, 0, 8, 8, .rw, .atOnce, 24, [], [(0, 0)], false⟩
def SND_ONSET_FLOOR : Fld := ⟨0xC0, 1, 0, 16, 16, .rw, .atOnce, 16384, [], [], false⟩
def SND_TRACK_BUS : Fld := ⟨0xC4, 1, 0, 0, 2, .rw, .atOnce, 0, [], [], false⟩
def SND_TRACK_METER : Fld := ⟨0xC4, 1, 0, 4, 4, .rw, .atOnce, 3, [], [], false⟩
def SND_TRACK_BARAUTO : Fld := ⟨0xC4, 1, 0, 8, 1, .rw, .atOnce, 1, [], [], false⟩
def SND_TRACK_PREFBPM : Fld := ⟨0xC4, 1, 0, 16, 8, .rw, .atOnce, 120, [(40, 240)], [], false⟩
def SND_LOCK_LOCKCONF : Fld := ⟨0xC8, 1, 0, 0, 8, .rw, .atOnce, 128, [], [], false⟩
def SND_LOCK_UNLOCKCONF : Fld := ⟨0xC8, 1, 0, 8, 8, .rw, .atOnce, 64, [], [], false⟩
def SND_LOCK_COAST : Fld := ⟨0xC8, 1, 0, 16, 4, .rw, .atOnce, 4, [(1, 8)], [(0, 0)], false⟩
def SND_BEATOUT_LOOKAHEAD : Fld := ⟨0xCC, 1, 0, 0, 8, .rw, .atOnce, 0, [(0, 200)], [], false⟩
def SND_BEATOUT_TASKEN : Fld := ⟨0xCC, 1, 0, 8, 1, .rw, .atOnce, 0, [], [], false⟩
def SND_BEATOUT_TASK : Fld := ⟨0xCC, 1, 0, 16, 10, .rw, .atOnce, 0, [], [], false⟩
def SND_BARSYNC_SYNC : Fld := ⟨0xD0, 1, 0, 0, 1, .wo, .atOnce, 0, [], [], false⟩
def SND_TRACKSTAT_STATE : Fld := ⟨0xD4, 1, 0, 0, 2, .ro, .status, 0, [], [], false⟩
def SND_TRACKSTAT_CONF : Fld := ⟨0xD4, 1, 0, 8, 8, .ro, .status, 0, [], [], false⟩
def SND_TRACKSTAT_BAR : Fld := ⟨0xD4, 1, 0, 16, 4, .ro, .status, 0, [], [], false⟩
def SND_TRACKSTAT_ONSETS : Fld := ⟨0xD4, 1, 0, 24, 8, .ro, .status, 0, [], [], false⟩
def SND_TEMPO : Fld := ⟨0xD8, 1, 0, 0, 16, .ro, .status, 0, [], [], false⟩
def SND_BEATNO : Fld := ⟨0xDC, 1, 0, 0, 32, .ro, .status, 0, [], [], false⟩
def SND_NEXTBEAT_ST : Fld := ⟨0xE0, 1, 0, 0, 32, .ro, .status, 0, [], [], false⟩
def SND_FEATBASE_OFFSET : Fld := ⟨0xE4, 1, 0, 0, 27, .rw, .commit, 0, [], [], false⟩
def SND_BEATBASE_OFFSET : Fld := ⟨0xE8, 1, 0, 0, 27, .rw, .commit, 0, [], [], false⟩
def SND_LTC_EN : Fld := ⟨0xEC, 1, 0, 0, 1, .rw, .atOnce, 0, [], [], false⟩
def SND_LTC_CH : Fld := ⟨0xEC, 1, 0, 8, 7, .rw, .atOnce, 0, [], [], false⟩
def SND_LTCSTAT_LOCK : Fld := ⟨0xF0, 1, 0, 0, 1, .ro, .status, 0, [], [], false⟩
def SND_LTCSTAT_RATE : Fld := ⟨0xF0, 1, 0, 1, 3, .ro, .status, 0, [], [], false⟩
def SND_SHARE_PUBF : Fld := ⟨0x100, 1, 0, 0, 4, .rw, .atOnce, 0, [], [], false⟩
def SND_SHARE_PUBB : Fld := ⟨0x100, 1, 0, 4, 1, .rw, .atOnce, 0, [], [], false⟩
def SND_SHARE_DECIM : Fld := ⟨0x100, 1, 0, 8, 3, .rw, .atOnce, 0, [(0, 3)], [], false⟩
def SND_REMOTE_EN : Fld := ⟨0x104, 4, 4, 0, 1, .rw, .atOnce, 0, [], [], false⟩
def SND_REMBEAT_EN : Fld := ⟨0x114, 1, 0, 0, 1, .rw, .atOnce, 0, [], [], false⟩
def SND_REMOTE_BUS : Fld := ⟨0x104, 4, 4, 2, 2, .rw, .atOnce, 0, [], [], false⟩
def SND_REMOTE_NODE : Fld := ⟨0x104, 4, 4, 14, 18, .rw, .atOnce, 0, [], [], false⟩
def SND_REMBEAT_NODE : Fld := ⟨0x114, 1, 0, 14, 18, .rw, .atOnce, 0, [], [], false⟩
def SND_st_FRAMES : Fld := ⟨0x800, 1, 0, 0, 32, .ro, .latch, 0, [], [], false⟩
def SND_st_BLOCKS : Fld := ⟨0x804, 1, 0, 0, 32, .ro, .latch, 0, [], [], false⟩
def SND_st_ONSETS : Fld := ⟨0x808, 1, 0, 0, 32, .ro, .latch, 0, [], [], false⟩
def SND_st_BEATS : Fld := ⟨0x80C, 1, 0, 0, 32, .ro, .latch, 0, [], [], false⟩
def SND_st_SLIPS : Fld := ⟨0x810, 1, 0, 0, 32, .ro, .latch, 0, [], [], false⟩
def SND_st_AESLOST : Fld := ⟨0x814, 1, 0, 0, 32, .ro, .latch, 0, [], [], false⟩
def SND_st_CLIPS : Fld := ⟨0x818, 1, 0, 0, 32, .ro, .latch, 0, [], [], false⟩
def SND_st_LTCFRAMES : Fld := ⟨0x81C, 1, 0, 0, 32, .ro, .latch, 0, [], [], false⟩
def SND_st_LTCERR : Fld := ⟨0x820, 1, 0, 0, 32, .ro, .latch, 0, [], [], false⟩
def SND_st_REMGAP : Fld := ⟨0x824, 1, 0, 0, 32, .ro, .latch, 0, [], [], false⟩
def SND_GAIN_WORD : Fld := ⟨0xC00, 192, 4, 0, 32, .rw, .atOnce, 0, [], [], false⟩
/-- The fields of the SND page type. -/
def rowsSND : List Fld :=
  [SND_TDM0_EN, SND_TDM1_EN, SND_TDM0_MASTER, SND_TDM1_MASTER, SND_TDM0_RATE, SND_TDM1_RATE, SND_TDM0_LINES, SND_TDM1_LINES, SND_TDM0_SLOTS, SND_TDM1_SLOTS, SND_TDM0_FSPOL, SND_TDM1_FSPOL] ++
  [SND_TDM0_FSLEN, SND_TDM1_FSLEN, SND_TDM0_DELAY, SND_TDM1_DELAY, SND_TDM0_EDGE, SND_TDM1_EDGE, SND_INSTAT_TDMLOCK, SND_INSTAT_AESLOCK, SND_AESCFG_EN, SND_AESCFG_RATE, SND_AESCFG_CH, SND_AESCFG_PTIME] ++
  [SND_AESOFF_OFFSET, SND_BUS_EN, SND_BUS_LAG, SND_ONSMASK_MASK, SND_ONSET_GAP, SND_ONSET_K, SND_ONSET_FLOOR, SND_TRACK_BUS, SND_TRACK_METER, SND_TRACK_BARAUTO, SND_TRACK_PREFBPM, SND_LOCK_LOCKCONF] ++
  [SND_LOCK_UNLOCKCONF, SND_LOCK_COAST, SND_BEATOUT_LOOKAHEAD, SND_BEATOUT_TASKEN, SND_BEATOUT_TASK, SND_BARSYNC_SYNC, SND_TRACKSTAT_STATE, SND_TRACKSTAT_CONF, SND_TRACKSTAT_BAR, SND_TRACKSTAT_ONSETS, SND_TEMPO, SND_BEATNO] ++
  [SND_NEXTBEAT_ST, SND_FEATBASE_OFFSET, SND_BEATBASE_OFFSET, SND_LTC_EN, SND_LTC_CH, SND_LTCSTAT_LOCK, SND_LTCSTAT_RATE, SND_SHARE_PUBF, SND_SHARE_PUBB, SND_SHARE_DECIM, SND_REMOTE_EN, SND_REMBEAT_EN] ++
  [SND_REMOTE_BUS, SND_REMOTE_NODE, SND_REMBEAT_NODE, SND_st_FRAMES, SND_st_BLOCKS, SND_st_ONSETS, SND_st_BEATS, SND_st_SLIPS, SND_st_AESLOST, SND_st_CLIPS, SND_st_LTCFRAMES] ++
  [SND_st_LTCERR, SND_st_REMGAP, SND_GAIN_WORD]

/-! ### TAP -/
def TAP_FEATLAG_LAG : Fld := ⟨0x40, 1, 0, 0, 8, .rw, .commit, 5, [(2, 100)], [], false⟩
def TAP_PHASEAT_OFFSET : Fld := ⟨0x44, 1, 0, 0, 18, .rw, .commit, 0, [(0, 200000)], [], false⟩
def TAP_BEATSRC_SRC : Fld := ⟨0x48, 1, 0, 0, 1, .rw, .commit, 0, [], [], false⟩
def TAP_CFG_EN : Fld := ⟨0x400, 64, 16, 0, 1, .rw, .commit, 0, [], [], false⟩
def TAP_CFG_SRC : Fld := ⟨0x400, 64, 16, 1, 3, .rw, .commit, 0, [], [], false⟩
def TAP_CFG_FEAT : Fld := ⟨0x400, 64, 16, 4, 2, .rw, .commit, 0, [], [], false⟩
def TAP_CFG_BAND : Fld := ⟨0x400, 64, 16, 6, 5, .rw, .commit, 0, [], [], false⟩
def TAP_CFG_ATTACK : Fld := ⟨0x400, 64, 16, 16, 8, .rw, .commit, 0, [], [], false⟩
def TAP_CFG_RELEASE : Fld := ⟨0x400, 64, 16, 24, 8, .rw, .commit, 0, [], [], false⟩
def TAP_TARGET_TKIND : Fld := ⟨0x404, 64, 16, 0, 4, .rw, .commit, 0, [], [(8, 15)], false⟩
def TAP_TARGET_TIDX : Fld := ⟨0x404, 64, 16, 4, 4, .rw, .commit, 0, [], [], false⟩
def TAP_TARGET_TFIELD : Fld := ⟨0x404, 64, 16, 8, 3, .rw, .commit, 0, [], [], false⟩
def TAP_TARGET_GAIN : Fld := ⟨0x404, 64, 16, 16, 16, .rw, .commit, 15360, [], [], false⟩
def TAP_OUT_OUTMIN : Fld := ⟨0x408, 64, 16, 0, 16, .rw, .commit, 0, [], [], false⟩
def TAP_OUT_OUTMAX : Fld := ⟨0x408, 64, 16, 16, 16, .rw, .commit, 15360, [], [], false⟩
def TAP_st_FRAMES : Fld := ⟨0x800, 1, 0, 0, 32, .ro, .latch, 0, [], [], false⟩
def TAP_st_DRIVEN : Fld := ⟨0x804, 1, 0, 0, 32, .ro, .latch, 0, [], [], false⟩
def TAP_st_IDLE : Fld := ⟨0x808, 1, 0, 0, 32, .ro, .latch, 0, [], [], false⟩
def TAP_st_LATEFEAT : Fld := ⟨0x80C, 1, 0, 0, 32, .ro, .latch, 0, [], [], false⟩
def TAP_st_CLASH : Fld := ⟨0x810, 1, 0, 0, 32, .ro, .latch, 0, [], [], false⟩
def TAP_CURVE0_POINTS : Fld := ⟨0xC00, 64, 16, 0, 32, .rw, .commit, 0, [], [], false⟩
def TAP_CURVE1_POINTS : Fld := ⟨0xC04, 64, 16, 0, 32, .rw, .commit, 0, [], [], false⟩
def TAP_CURVE2_POINTS : Fld := ⟨0xC08, 64, 16, 0, 32, .rw, .commit, 0, [], [], false⟩
def TAP_CURVE3_POINTS : Fld := ⟨0xC0C, 64, 16, 0, 32, .rw, .commit, 0, [], [], false⟩
/-- The fields of the TAP page type. -/
def rowsTAP : List Fld :=
  [TAP_FEATLAG_LAG, TAP_PHASEAT_OFFSET, TAP_BEATSRC_SRC, TAP_CFG_EN, TAP_CFG_SRC, TAP_CFG_FEAT, TAP_CFG_BAND, TAP_CFG_ATTACK, TAP_CFG_RELEASE, TAP_TARGET_TKIND, TAP_TARGET_TIDX, TAP_TARGET_TFIELD] ++
  [TAP_TARGET_GAIN, TAP_OUT_OUTMIN, TAP_OUT_OUTMAX, TAP_st_FRAMES, TAP_st_DRIVEN, TAP_st_IDLE, TAP_st_LATEFEAT, TAP_st_CLASH, TAP_CURVE0_POINTS, TAP_CURVE1_POINTS, TAP_CURVE2_POINTS, TAP_CURVE3_POINTS]

/-! ### ETH -/
def ETH_CFG_SPEED : Fld := ⟨0x40, 1, 0, 0, 2, .rw, .commit, 1, [], [(3, 3)], false⟩
def ETH_CFG_FEC : Fld := ⟨0x40, 1, 0, 2, 2, .rw, .commit, 0, [], [(3, 3)], false⟩
def ETH_CFG_AN : Fld := ⟨0x40, 1, 0, 4, 1, .rw, .commit, 1, [], [], false⟩
def ETH_CFG_JUMBO : Fld := ⟨0x40, 1, 0, 5, 1, .rw, .atOnce, 0, [], [], false⟩
def ETH_CFG_RXPAUSE : Fld := ⟨0x40, 1, 0, 6, 1, .rw, .atOnce, 1, [], [], false⟩
def ETH_CFG_PROMISC : Fld := ⟨0x40, 1, 0, 7, 1, .rw, .atOnce, 0, [], [], false⟩
def ETH_CFG_ALLMULTI : Fld := ⟨0x40, 1, 0, 8, 1, .rw, .atOnce, 0, [], [], false⟩
def ETH_MACL_MAC : Fld := ⟨0x44, 1, 0, 0, 32, .rw, .atOnce, 0, [], [], false⟩
def ETH_MACH_MAC : Fld := ⟨0x48, 1, 0, 0, 16, .rw, .atOnce, 0, [], [], false⟩
def ETH_IPADDR_IP : Fld := ⟨0x4C, 1, 0, 0, 32, .rw, .atOnce, 0, [], [], false⟩
def ETH_PAUSECFG_PAUSEQ : Fld := ⟨0x50, 1, 0, 0, 16, .rw, .atOnce, 4096, [], [], false⟩
def ETH_PAUSECFG_LOWWATER : Fld := ⟨0x50, 1, 0, 16, 8, .rw, .atOnce, 0, [], [], false⟩
def ETH_PAUSECFG_HIWATER : Fld := ⟨0x50, 1, 0, 24, 8, .rw, .atOnce, 32, [], [], false⟩
def ETH_RINGSEL_OTHER : Fld := ⟨0x54, 1, 0, 0, 3, .rw, .atOnce, 0, [(0, 4)], [], false⟩
def ETH_RINGSEL_PTP : Fld := ⟨0x54, 1, 0, 4, 3, .rw, .atOnce, 4, [(0, 4)], [], false⟩
def ETH_RINGSEL_SACN : Fld := ⟨0x54, 1, 0, 8, 3, .rw, .atOnce, 4, [(0, 4)], [], false⟩
def ETH_RINGSEL_CANE : Fld := ⟨0x54, 1, 0, 12, 3, .rw, .atOnce, 1, [(0, 4)], [], false⟩
def ETH_RINGSEL_ARP : Fld := ⟨0x54, 1, 0, 16, 3, .rw, .atOnce, 4, [(0, 4)], [], false⟩
def ETH_RXBASE_BASE : Fld := ⟨0x60, 4, 16, 0, 32, .rw, .atOnce, 0, [], [], false⟩
def ETH_RXCFG_LOGSIZE : Fld := ⟨0x64, 4, 16, 0, 4, .rw, .atOnce, 4, [(4, 12)], [], false⟩
def ETH_RXCFG_BUFSZ : Fld := ⟨0x64, 4, 16, 16, 8, .rw, .atOnce, 8, [(1, 64)], [], false⟩
def ETH_RXCFG_PAUSEEN : Fld := ⟨0x64, 4, 16, 24, 1, .rw, .atOnce, 0, [], [], false⟩
def ETH_RXTAIL_TAIL : Fld := ⟨0x68, 4, 16, 0, 12, .rw, .atOnce, 0, [], [], false⟩
def ETH_RXHEAD_HEAD : Fld := ⟨0x6C, 4, 16, 0, 12, .ro, .status, 0, [], [], false⟩
def ETH_TXBASE_BASE : Fld := ⟨0xA0, 1, 0, 0, 32, .rw, .atOnce, 0, [], [], false⟩
def ETH_TXCFG_LOGSIZE : Fld := ⟨0xA4, 1, 0, 0, 4, .rw, .atOnce, 4, [(4, 12)], [], false⟩
def ETH_TXTAIL_IDX : Fld := ⟨0xA8, 1, 0, 0, 12, .rw, .atOnce, 0, [], [], false⟩
def ETH_TXHEAD_IDX : Fld := ⟨0xAC, 1, 0, 0, 12, .ro, .atOnce, 0, [], [], false⟩
def ETH_LINKSTAT_UP : Fld := ⟨0xB0, 1, 0, 0, 1, .ro, .status, 0, [], [], false⟩
def ETH_LINKSTAT_PAUSED : Fld := ⟨0xB0, 1, 0, 1, 1, .ro, .status, 0, [], [], false⟩
def ETH_LINKSTAT_PAUSELEFT : Fld := ⟨0xB0, 1, 0, 16, 16, .ro, .status, 0, [], [], false⟩
def ETH_st_FRAMES : Fld := ⟨0x800, 1, 0, 0, 32, .ro, .latch, 0, [], [], false⟩
def ETH_st_RXFRAMES : Fld := ⟨0x804, 1, 0, 0, 32, .ro, .latch, 0, [], [], false⟩
def ETH_st_RXBYTES : Fld := ⟨0x808, 1, 0, 0, 32, .ro, .latch, 0, [], [], false⟩
def ETH_st_TXFRAMES : Fld := ⟨0x80C, 1, 0, 0, 32, .ro, .latch, 0, [], [], false⟩
def ETH_st_TXBYTES : Fld := ⟨0x810, 1, 0, 0, 32, .ro, .latch, 0, [], [], false⟩
def ETH_st_RUNTS : Fld := ⟨0x814, 1, 0, 0, 32, .ro, .latch, 0, [], [], false⟩
def ETH_st_OVERSIZE : Fld := ⟨0x818, 1, 0, 0, 32, .ro, .latch, 0, [], [], false⟩
def ETH_st_FCSERR : Fld := ⟨0x81C, 1, 0, 0, 32, .ro, .latch, 0, [], [], false⟩
def ETH_st_ADDRDROP : Fld := ⟨0x820, 1, 0, 0, 32, .ro, .latch, 0, [], [], false⟩
def ETH_st_RX_NOBUF : Fld := ⟨0x824, 1, 0, 0, 32, .ro, .latch, 0, [], [], false⟩
def ETH_st_ABANDONS : Fld := ⟨0x828, 1, 0, 0, 32, .ro, .latch, 0, [], [], false⟩
def ETH_st_PAUSERX : Fld := ⟨0x82C, 1, 0, 0, 32, .ro, .latch, 0, [], [], false⟩
def ETH_st_PAUSETX : Fld := ⟨0x830, 1, 0, 0, 32, .ro, .latch, 0, [], [], false⟩
def ETH_st_WAKEHITS : Fld := ⟨0x834, 1, 0, 0, 32, .ro, .latch, 0, [], [], false⟩
def ETH_WAKEM0_MASK : Fld := ⟨0xC00, 8, 32, 0, 32, .rw, .atOnce, 0, [], [], false⟩
def ETH_WAKEM1_MASK : Fld := ⟨0xC04, 8, 32, 0, 32, .rw, .atOnce, 0, [], [], false⟩
def ETH_WAKEM2_MASK : Fld := ⟨0xC08, 8, 32, 0, 32, .rw, .atOnce, 0, [], [], false⟩
def ETH_WAKEM3_MASK : Fld := ⟨0xC0C, 8, 32, 0, 32, .rw, .atOnce, 0, [], [], false⟩
def ETH_WAKEC_CHECK : Fld := ⟨0xC10, 8, 32, 0, 16, .rw, .atOnce, 0, [], [], false⟩
def ETH_WAKEC_EN : Fld := ⟨0xC10, 8, 32, 16, 1, .rw, .atOnce, 0, [], [], false⟩
/-- The fields of the ETH page type. -/
def rowsETH : List Fld :=
  [ETH_CFG_SPEED, ETH_CFG_FEC, ETH_CFG_AN, ETH_CFG_JUMBO, ETH_CFG_RXPAUSE, ETH_CFG_PROMISC, ETH_CFG_ALLMULTI, ETH_MACL_MAC, ETH_MACH_MAC, ETH_IPADDR_IP, ETH_PAUSECFG_PAUSEQ, ETH_PAUSECFG_LOWWATER] ++
  [ETH_PAUSECFG_HIWATER, ETH_RINGSEL_OTHER, ETH_RINGSEL_PTP, ETH_RINGSEL_SACN, ETH_RINGSEL_CANE, ETH_RINGSEL_ARP, ETH_RXBASE_BASE, ETH_RXCFG_LOGSIZE, ETH_RXCFG_BUFSZ, ETH_RXCFG_PAUSEEN, ETH_RXTAIL_TAIL, ETH_RXHEAD_HEAD] ++
  [ETH_TXBASE_BASE, ETH_TXCFG_LOGSIZE, ETH_TXTAIL_IDX, ETH_TXHEAD_IDX, ETH_LINKSTAT_UP, ETH_LINKSTAT_PAUSED, ETH_LINKSTAT_PAUSELEFT, ETH_st_FRAMES, ETH_st_RXFRAMES, ETH_st_RXBYTES, ETH_st_TXFRAMES, ETH_st_TXBYTES] ++
  [ETH_st_RUNTS, ETH_st_OVERSIZE, ETH_st_FCSERR, ETH_st_ADDRDROP, ETH_st_RX_NOBUF, ETH_st_ABANDONS, ETH_st_PAUSERX, ETH_st_PAUSETX, ETH_st_WAKEHITS, ETH_WAKEM0_MASK, ETH_WAKEM1_MASK, ETH_WAKEM2_MASK] ++
  [ETH_WAKEM3_MASK, ETH_WAKEC_CHECK, ETH_WAKEC_EN]

/-! ### PAIR -/
def PAIR_CFG_PAIRED : Fld := ⟨0x40, 1, 0, 0, 1, .rw, .atOnce, 0, [], [], false⟩
def PAIR_CFG_PRIMARY : Fld := ⟨0x40, 1, 0, 1, 1, .rw, .atOnce, 0, [], [], false⟩
def PAIR_CFG_REVERT : Fld := ⟨0x40, 1, 0, 2, 1, .rw, .atOnce, 0, [], [], false⟩
def PAIR_HEALTH_GAPTHR : Fld := ⟨0x44, 1, 0, 0, 8, .rw, .atOnce, 16, [], [], false⟩
def PAIR_HEALTH_CRCTHR : Fld := ⟨0x44, 1, 0, 8, 8, .rw, .atOnce, 8, [], [], false⟩
def PAIR_HEALTH_JUMPTHR : Fld := ⟨0x44, 1, 0, 16, 16, .rw, .atOnce, 10000, [], [], false⟩
def PAIR_RECOVER : Fld := ⟨0x48, 1, 0, 0, 16, .rw, .atOnce, 1000, [(10, 60000)], [], false⟩
def PAIR_CTL_SWAP : Fld := ⟨0x4C, 1, 0, 0, 1, .wo, .atOnce, 0, [], [], false⟩
def PAIR_STAT_LEAD : Fld := ⟨0x50, 1, 0, 0, 1, .ro, .status, 0, [], [], false⟩
def PAIR_STAT_DUAL : Fld := ⟨0x50, 1, 0, 1, 1, .ro, .status, 0, [], [], false⟩
def PAIR_STAT_ASICK : Fld := ⟨0x50, 1, 0, 4, 1, .ro, .status, 0, [], [], false⟩
def PAIR_STAT_AREASON : Fld := ⟨0x50, 1, 0, 5, 3, .ro, .status, 0, [], [], false⟩
def PAIR_STAT_BSICK : Fld := ⟨0x50, 1, 0, 8, 1, .ro, .status, 0, [], [], false⟩
def PAIR_STAT_BREASON : Fld := ⟨0x50, 1, 0, 9, 3, .ro, .status, 0, [], [], false⟩
def PAIR_SACNSTAT_LISTENED : Fld := ⟨0x54, 1, 0, 0, 12, .ro, .status, 0, [], [], false⟩
def PAIR_FLOW_CFG_EN : Fld := ⟨0x100, 16, 16, 0, 1, .rw, .commit, 0, [], [], false⟩
def PAIR_FLOW_IPA_IP : Fld := ⟨0x104, 16, 16, 0, 32, .rw, .commit, 0, [], [], false⟩
def PAIR_FLOW_IPB_IP : Fld := ⟨0x108, 16, 16, 0, 32, .rw, .commit, 0, [], [], false⟩
def PAIR_FLOW_PORTS_PORTA : Fld := ⟨0x10C, 16, 16, 0, 16, .rw, .commit, 0, [], [], false⟩
def PAIR_FLOW_PORTS_PORTB : Fld := ⟨0x10C, 16, 16, 16, 16, .rw, .commit, 0, [], [], false⟩
def PAIR_st_FRAMES : Fld := ⟨0x800, 1, 0, 0, 32, .ro, .latch, 0, [], [], false⟩
def PAIR_st_HANDOVERS : Fld := ⟨0x804, 1, 0, 0, 32, .ro, .latch, 0, [], [], false⟩
def PAIR_st_MERGEDUP : Fld := ⟨0x808, 1, 0, 0, 32, .ro, .latch, 0, [], [], false⟩
def PAIR_st_MERGELATE : Fld := ⟨0x80C, 1, 0, 0, 32, .ro, .latch, 0, [], [], false⟩
def PAIR_st_MISSA : Fld := ⟨0x810, 1, 0, 0, 32, .ro, .latch, 0, [], [], false⟩
def PAIR_st_MISSB : Fld := ⟨0x814, 1, 0, 0, 32, .ro, .latch, 0, [], [], false⟩
def PAIR_st_SRCCONFLICT : Fld := ⟨0x818, 1, 0, 0, 32, .ro, .latch, 0, [], [], false⟩
def PAIR_LTXBASE_BASE : Fld := ⟨0x60, 1, 0, 0, 32, .rw, .atOnce, 0, [], [], false⟩
def PAIR_LTXCFG_LOGSIZE : Fld := ⟨0x64, 1, 0, 0, 4, .rw, .atOnce, 4, [(4, 12)], [], false⟩
def PAIR_LTXTAIL_IDX : Fld := ⟨0x68, 1, 0, 0, 12, .rw, .atOnce, 0, [], [], false⟩
def PAIR_LTXHEAD_IDX : Fld := ⟨0x6C, 1, 0, 0, 12, .ro, .status, 0, [], [], false⟩
/-- The fields of the PAIR page type. -/
def rowsPAIR : List Fld :=
  [PAIR_CFG_PAIRED, PAIR_CFG_PRIMARY, PAIR_CFG_REVERT, PAIR_HEALTH_GAPTHR, PAIR_HEALTH_CRCTHR, PAIR_HEALTH_JUMPTHR, PAIR_RECOVER, PAIR_CTL_SWAP, PAIR_STAT_LEAD, PAIR_STAT_DUAL, PAIR_STAT_ASICK, PAIR_STAT_AREASON] ++
  [PAIR_STAT_BSICK, PAIR_STAT_BREASON, PAIR_SACNSTAT_LISTENED, PAIR_FLOW_CFG_EN, PAIR_FLOW_IPA_IP, PAIR_FLOW_IPB_IP, PAIR_FLOW_PORTS_PORTA, PAIR_FLOW_PORTS_PORTB, PAIR_st_FRAMES, PAIR_st_HANDOVERS, PAIR_st_MERGEDUP, PAIR_st_MERGELATE] ++
  [PAIR_st_MISSA, PAIR_st_MISSB, PAIR_st_SRCCONFLICT, PAIR_LTXBASE_BASE, PAIR_LTXCFG_LOGSIZE, PAIR_LTXTAIL_IDX, PAIR_LTXHEAD_IDX]

/-! ### CANE -/
def CANE_CFG_PORT : Fld := ⟨0x40, 1, 0, 0, 16, .rw, .atOnce, 46210, [], [], false⟩
def CANE_CFG_ARPEN : Fld := ⟨0x40, 1, 0, 16, 1, .rw, .atOnce, 1, [], [], false⟩
def CANE_WINDOW : Fld := ⟨0x44, 1, 0, 0, 16, .rw, .atOnce, 2000, [(100, 60000)], [], false⟩
def CANE_LEASE : Fld := ⟨0x48, 1, 0, 0, 16, .rw, .atOnce, 2000, [(100, 60000)], [], false⟩
def CANE_DUPWIN : Fld := ⟨0x4C, 1, 0, 0, 16, .rw, .atOnce, 2000, [(10, 65535)], [], false⟩
def CANE_KEYCTL_VALID0 : Fld := ⟨0x50, 1, 0, 0, 1, .ro, .status, 0, [], [], false⟩
def CANE_KEYCTL_VALID1 : Fld := ⟨0x50, 1, 0, 1, 1, .ro, .status, 0, [], [], false⟩
def CANE_KEYCTL_CLEAR0 : Fld := ⟨0x50, 1, 0, 8, 1, .wo, .atOnce, 0, [], [], false⟩
def CANE_KEYCTL_CLEAR1 : Fld := ⟨0x50, 1, 0, 9, 1, .wo, .atOnce, 0, [], [], false⟩
def CANE_KEYW_WORD : Fld := ⟨0x60, 16, 4, 0, 32, .wo, .atOnce, 0, [], [], false⟩
def CANE_OWNERL_SENDER : Fld := ⟨0xA0, 1, 0, 0, 32, .ro, .status, 0, [], [], false⟩
def CANE_OWNERH_SENDER : Fld := ⟨0xA4, 1, 0, 0, 32, .ro, .status, 0, [], [], false⟩
def CANE_st_FRAMES : Fld := ⟨0x800, 1, 0, 0, 32, .ro, .latch, 0, [], [], false⟩
def CANE_st_REQUESTS : Fld := ⟨0x804, 1, 0, 0, 32, .ro, .latch, 0, [], [], false⟩
def CANE_st_REPLIES : Fld := ⟨0x808, 1, 0, 0, 32, .ro, .latch, 0, [], [], false⟩
def CANE_st_AUTHFAIL : Fld := ⟨0x80C, 1, 0, 0, 32, .ro, .latch, 0, [], [], false⟩
def CANE_st_TIMEWIN : Fld := ⟨0x810, 1, 0, 0, 32, .ro, .latch, 0, [], [], false⟩
def CANE_st_DUPS : Fld := ⟨0x814, 1, 0, 0, 32, .ro, .latch, 0, [], [], false⟩
def CANE_st_REPLAYS : Fld := ⟨0x818, 1, 0, 0, 32, .ro, .latch, 0, [], [], false⟩
def CANE_st_BADLEN : Fld := ⟨0x81C, 1, 0, 0, 32, .ro, .latch, 0, [], [], false⟩
def CANE_st_FWOPS : Fld := ⟨0x820, 1, 0, 0, 32, .ro, .latch, 0, [], [], false⟩
def CANE_st_ARPREPLIES : Fld := ⟨0x824, 1, 0, 0, 32, .ro, .latch, 0, [], [], false⟩
/-- The fields of the CANE page type. -/
def rowsCANE : List Fld :=
  [CANE_CFG_PORT, CANE_CFG_ARPEN, CANE_WINDOW, CANE_LEASE, CANE_DUPWIN, CANE_KEYCTL_VALID0, CANE_KEYCTL_VALID1, CANE_KEYCTL_CLEAR0, CANE_KEYCTL_CLEAR1, CANE_KEYW_WORD, CANE_OWNERL_SENDER, CANE_OWNERH_SENDER] ++
  [CANE_st_FRAMES, CANE_st_REQUESTS, CANE_st_REPLIES, CANE_st_AUTHFAIL, CANE_st_TIMEWIN, CANE_st_DUPS, CANE_st_REPLAYS, CANE_st_BADLEN, CANE_st_FWOPS, CANE_st_ARPREPLIES]

/-! ### BRU -/
def BRU_CFG_PRECODE : Fld := ⟨0x40, 1, 0, 0, 1, .rw, .atOnce, 0, [], [], false⟩
def BRU_CFG_TXINV0 : Fld := ⟨0x40, 1, 0, 1, 1, .rw, .atOnce, 0, [], [], false⟩
def BRU_CFG_TXINV1 : Fld := ⟨0x40, 1, 0, 2, 1, .rw, .atOnce, 0, [], [], false⟩
def BRU_CFG_LOOP : Fld := ⟨0x40, 1, 0, 4, 2, .rw, .atOnce, 0, [], [], false⟩
def BRU_CFG_FLBOK : Fld := ⟨0x40, 1, 0, 6, 1, .rw, .atOnce, 0, [], [], false⟩
def BRU_CFG_TIMELOG : Fld := ⟨0x40, 1, 0, 8, 5, .rw, .atOnce, 12, [(10, 16)], [], false⟩
def BRU_TXLAT_LAT : Fld := ⟨0x44, 1, 0, 0, 16, .rw, .atOnce, 0, [], [], false⟩
def BRU_RXLAT_LAT : Fld := ⟨0x48, 1, 0, 0, 16, .rw, .atOnce, 0, [], [], false⟩
def BRU_LANE0_STATE : Fld := ⟨0x4C, 1, 0, 0, 3, .ro, .status, 0, [], [], false⟩
def BRU_LANE1_STATE : Fld := ⟨0x50, 1, 0, 0, 3, .ro, .status, 0, [], [], false⟩
def BRU_LANE0_RXPRE : Fld := ⟨0x4C, 1, 0, 4, 1, .ro, .status, 0, [], [], false⟩
def BRU_LANE1_RXPRE : Fld := ⟨0x50, 1, 0, 4, 1, .ro, .status, 0, [], [], false⟩
def BRU_LANE0_RXINV : Fld := ⟨0x4C, 1, 0, 5, 1, .ro, .status, 0, [], [], false⟩
def BRU_LANE1_RXINV : Fld := ⟨0x50, 1, 0, 5, 1, .ro, .status, 0, [], [], false⟩
def BRU_LANE0_PRXOK : Fld := ⟨0x4C, 1, 0, 6, 1, .ro, .status, 0, [], [], false⟩
def BRU_LANE1_PRXOK : Fld := ⟨0x50, 1, 0, 6, 1, .ro, .status, 0, [], [], false⟩
def BRU_LANE0_HALFAGE : Fld := ⟨0x4C, 1, 0, 16, 16, .ro, .status, 0, [], [], false⟩
def BRU_LANE1_HALFAGE : Fld := ⟨0x50, 1, 0, 16, 16, .ro, .status, 0, [], [], false⟩
def BRU_PORT_UP : Fld := ⟨0x54, 1, 0, 0, 1, .ro, .status, 0, [], [], false⟩
def BRU_PORT_SKEW : Fld := ⟨0x54, 1, 0, 8, 8, .ro, .status, 0, [], [], false⟩
def BRU_PORT_FLBACTIVE : Fld := ⟨0x54, 1, 0, 16, 1, .ro, .status, 0, [], [], false⟩
def BRU_PORT_FLBSEEN : Fld := ⟨0x54, 1, 0, 17, 1, .ro, .status, 0, [], [], false⟩
def BRU_DELAY : Fld := ⟨0x58, 1, 0, 0, 32, .ro, .status, 0, [], [], false⟩
def BRU_NBOFF_OFFSET : Fld := ⟨0x5C, 1, 0, 0, 32, .ro, .status, 0, [], [], false⟩
def BRU_NBSERL_SERIAL : Fld := ⟨0x60, 1, 0, 0, 32, .ro, .status, 0, [], [], false⟩
def BRU_NBSERH_SERIAL : Fld := ⟨0x64, 1, 0, 0, 32, .ro, .status, 0, [], [], false⟩
def BRU_DELIV_OUTSTANDING : Fld := ⟨0x68, 1, 0, 0, 8, .ro, .status, 0, [], [], false⟩
def BRU_DELIV_TXSEQ : Fld := ⟨0x68, 1, 0, 8, 8, .ro, .status, 0, [], [], false⟩
def BRU_DELIV_RXEXP : Fld := ⟨0x68, 1, 0, 16, 8, .ro, .status, 0, [], [], false⟩
def BRU_DELIV_REPLAYING : Fld := ⟨0x68, 1, 0, 24, 1, .ro, .status, 0, [], [], false⟩
def BRU_BUFFILL_BYTES : Fld := ⟨0x6C, 1, 0, 0, 17, .ro, .status, 0, [], [], false⟩
def BRU_st_FRAMES : Fld := ⟨0x800, 1, 0, 0, 32, .ro, .latch, 0, [], [], false⟩
def BRU_st_COURSES : Fld := ⟨0x804, 1, 0, 0, 32, .ro, .latch, 0, [], [], false⟩
def BRU_st_RSCORR : Fld := ⟨0x808, 1, 0, 0, 32, .ro, .latch, 0, [], [], false⟩
def BRU_st_RSFAIL : Fld := ⟨0x80C, 1, 0, 0, 32, .ro, .latch, 0, [], [], false⟩
def BRU_st_HDRERR : Fld := ⟨0x810, 1, 0, 0, 32, .ro, .latch, 0, [], [], false⟩
def BRU_st_BADTYPE : Fld := ⟨0x814, 1, 0, 0, 32, .ro, .latch, 0, [], [], false⟩
def BRU_st_LOCKLOSS : Fld := ⟨0x818, 1, 0, 0, 32, .ro, .latch, 0, [], [], false⟩
def BRU_st_BUNDTX : Fld := ⟨0x81C, 1, 0, 0, 32, .ro, .latch, 0, [], [], false⟩
def BRU_st_BUNDRX : Fld := ⟨0x820, 1, 0, 0, 32, .ro, .latch, 0, [], [], false⟩
def BRU_st_REPLAYS : Fld := ⟨0x824, 1, 0, 0, 32, .ro, .latch, 0, [], [], false⟩
def BRU_st_REPLAYBUND : Fld := ⟨0x828, 1, 0, 0, 32, .ro, .latch, 0, [], [], false⟩
def BRU_st_DUPDISC : Fld := ⟨0x82C, 1, 0, 0, 32, .ro, .latch, 0, [], [], false⟩
def BRU_st_OOSDISC : Fld := ⟨0x830, 1, 0, 0, 32, .ro, .latch, 0, [], [], false⟩
def BRU_st_BADDISC : Fld := ⟨0x834, 1, 0, 0, 32, .ro, .latch, 0, [], [], false⟩
def BRU_st_DROPPED : Fld := ⟨0x838, 1, 0, 0, 32, .ro, .latch, 0, [], [], false⟩
def BRU_st_TIMEMEAS : Fld := ⟨0x83C, 1, 0, 0, 32, .ro, .latch, 0, [], [], false⟩
/-- The fields of the BRU page type. -/
def rowsBRU : List Fld :=
  [BRU_CFG_PRECODE, BRU_CFG_TXINV0, BRU_CFG_TXINV1, BRU_CFG_LOOP, BRU_CFG_FLBOK, BRU_CFG_TIMELOG, BRU_TXLAT_LAT, BRU_RXLAT_LAT, BRU_LANE0_STATE, BRU_LANE1_STATE, BRU_LANE0_RXPRE, BRU_LANE1_RXPRE] ++
  [BRU_LANE0_RXINV, BRU_LANE1_RXINV, BRU_LANE0_PRXOK, BRU_LANE1_PRXOK, BRU_LANE0_HALFAGE, BRU_LANE1_HALFAGE, BRU_PORT_UP, BRU_PORT_SKEW, BRU_PORT_FLBACTIVE, BRU_PORT_FLBSEEN, BRU_DELAY, BRU_NBOFF_OFFSET] ++
  [BRU_NBSERL_SERIAL, BRU_NBSERH_SERIAL, BRU_DELIV_OUTSTANDING, BRU_DELIV_TXSEQ, BRU_DELIV_RXEXP, BRU_DELIV_REPLAYING, BRU_BUFFILL_BYTES, BRU_st_FRAMES, BRU_st_COURSES, BRU_st_RSCORR, BRU_st_RSFAIL, BRU_st_HDRERR] ++
  [BRU_st_BADTYPE, BRU_st_LOCKLOSS, BRU_st_BUNDTX, BRU_st_BUNDRX, BRU_st_REPLAYS, BRU_st_REPLAYBUND, BRU_st_DUPDISC, BRU_st_OOSDISC, BRU_st_BADDISC, BRU_st_DROPPED, BRU_st_TIMEMEAS]

/-! ### FAB -/
def FAB_IDCFG_NODEID : Fld := ⟨0x40, 1, 0, 0, 18, .rw, .atOnce, 0, [], [], false⟩
def FAB_IDCFG_CFIX : Fld := ⟨0x40, 1, 0, 24, 1, .rw, .atOnce, 0, [], [], false⟩
def FAB_IDCFG_MFIX : Fld := ⟨0x40, 1, 0, 25, 1, .rw, .atOnce, 0, [], [], false⟩
def FAB_IDCFG_INGRESS : Fld := ⟨0x40, 1, 0, 26, 1, .rw, .atOnce, 0, [], [], false⟩
def FAB_NODEID_ID : Fld := ⟨0x44, 1, 0, 0, 18, .ro, .status, 0, [], [], false⟩
def FAB_NODEID_VALID : Fld := ⟨0x44, 1, 0, 24, 1, .ro, .status, 0, [], [], false⟩
def FAB_ROLEPRIO_GWPRIO : Fld := ⟨0x48, 1, 0, 0, 8, .rw, .atOnce, 0, [], [], false⟩
def FAB_ROLEPRIO_HEADPRIO : Fld := ⟨0x48, 1, 0, 8, 8, .rw, .atOnce, 0, [], [], false⟩
def FAB_ROLEPRIO_CUEPRIO : Fld := ⟨0x48, 1, 0, 16, 8, .rw, .atOnce, 0, [], [], false⟩
def FAB_POOL_POOLLO : Fld := ⟨0x4C, 1, 0, 0, 10, .rw, .atOnce, 0, [], [], false⟩
def FAB_POOL_POOLHI : Fld := ⟨0x4C, 1, 0, 16, 10, .rw, .atOnce, 0, [], [], false⟩
def FAB_ROLES_GW : Fld := ⟨0x50, 1, 0, 0, 1, .ro, .status, 0, [], [], false⟩
def FAB_ROLES_HEAD : Fld := ⟨0x50, 1, 0, 1, 1, .ro, .status, 0, [], [], false⟩
def FAB_ROLES_CUE : Fld := ⟨0x50, 1, 0, 2, 1, .ro, .status, 0, [], [], false⟩
def FAB_ROLES_ROOT : Fld := ⟨0x50, 1, 0, 3, 1, .ro, .status, 0, [], [], false⟩
def FAB_GWID_ID : Fld := ⟨0x54, 1, 0, 0, 18, .ro, .status, 0, [], [], false⟩
def FAB_GWID_VALID : Fld := ⟨0x54, 1, 0, 24, 1, .ro, .status, 0, [], [], false⟩
def FAB_DISCSTAT_STATE : Fld := ⟨0x60, 1, 0, 0, 3, .ro, .status, 0, [], [], false⟩
def FAB_DISCSTAT_ML : Fld := ⟨0x60, 1, 0, 8, 7, .ro, .status, 0, [], [], false⟩
def FAB_DISCSTAT_CL : Fld := ⟨0x60, 1, 0, 16, 10, .ro, .status, 0, [], [], false⟩
def FAB_COUNTS_MEMBERS : Fld := ⟨0x64, 1, 0, 0, 9, .ro, .status, 0, [], [], false⟩
def FAB_COUNTS_CLUSTERS : Fld := ⟨0x64, 1, 0, 16, 11, .ro, .status, 0, [], [], false⟩
def FAB_TOPOHASHL_HASH : Fld := ⟨0x68, 1, 0, 0, 32, .ro, .status, 0, [], [], false⟩
def FAB_TOPOHASHH_HASH : Fld := ⟨0x6C, 1, 0, 0, 32, .ro, .status, 0, [], [], false⟩
def FAB_TREE_PARENT : Fld := ⟨0x70, 1, 0, 0, 3, .ro, .status, 7, [], [], false⟩
def FAB_TREE_ALTPARENT : Fld := ⟨0x70, 1, 0, 4, 3, .ro, .status, 7, [], [], false⟩
def FAB_TREE_LEVEL : Fld := ⟨0x70, 1, 0, 8, 7, .ro, .status, 0, [], [], false⟩
def FAB_TIMEPATH_PORT : Fld := ⟨0x74, 1, 0, 0, 3, .ro, .status, 7, [], [], false⟩
def FAB_TIMEPATH_GWDIST : Fld := ⟨0x74, 1, 0, 8, 7, .ro, .status, 127, [], [], false⟩
def FAB_VLARB_BULKW : Fld := ⟨0x78, 1, 0, 0, 4, .rw, .atOnce, 2, [], [], false⟩
def FAB_CUECFG_JOIN : Fld := ⟨0x7C, 1, 0, 0, 1, .rw, .atOnce, 0, [], [], false⟩
def FAB_CUECFG_REPORTALL : Fld := ⟨0x7C, 1, 0, 1, 1, .rw, .atOnce, 0, [], [], false⟩
def FAB_CUECFG_OVRACCEPT : Fld := ⟨0x7C, 1, 0, 2, 1, .rw, .atOnce, 0, [], [], false⟩
def FAB_CUECFG_OVRANY : Fld := ⟨0x7C, 1, 0, 3, 1, .rw, .atOnce, 0, [], [], false⟩
def FAB_CUECFG_SHARESCOPE : Fld := ⟨0x7C, 1, 0, 4, 1, .rw, .atOnce, 0, [], [], false⟩
def FAB_TIMERS_READYWAIT : Fld := ⟨0x80, 1, 0, 0, 8, .rw, .atOnce, 30, [(1, 255)], [], false⟩
def FAB_TIMERS_GWLOSS : Fld := ⟨0x80, 1, 0, 8, 16, .rw, .atOnce, 100, [(50, 10000)], [], false⟩
def FAB_FCMT_GO : Fld := ⟨0x84, 1, 0, 0, 1, .wo, .atOnce, 0, [], [], false⟩
def FAB_FCMT_POLICY : Fld := ⟨0x84, 1, 0, 1, 1, .wo, .atOnce, 0, [], [], false⟩
def FAB_FCMT_SCOPE : Fld := ⟨0x84, 1, 0, 2, 1, .wo, .atOnce, 0, [], [], false⟩
def FAB_FCTGTL_TGT : Fld := ⟨0x88, 1, 0, 0, 32, .rw, .atOnce, 0, [], [], false⟩
def FAB_FCTGTH_TGT : Fld := ⟨0x8C, 1, 0, 0, 16, .rw, .atOnce, 0, [], [], false⟩
def FAB_FCCTL_FIRE : Fld := ⟨0x90, 1, 0, 0, 1, .wo, .atOnce, 0, [], [], false⟩
def FAB_FCCTL_ABORT : Fld := ⟨0x90, 1, 0, 1, 1, .wo, .atOnce, 0, [], [], false⟩
def FAB_FCID_CID : Fld := ⟨0x94, 1, 0, 0, 32, .ro, .status, 0, [], [], false⟩
def FAB_FCSTAT_STATE : Fld := ⟨0x98, 1, 0, 0, 3, .ro, .status, 0, [], [], false⟩
def FAB_FCSTAT_TOTALS : Fld := ⟨0x98, 1, 0, 3, 1, .ro, .status, 0, [], [], false⟩
def FAB_EXPECTN_N : Fld := ⟨0x9C, 1, 0, 0, 19, .ro, .status, 0, [], [], false⟩
def FAB_READYN_N : Fld := ⟨0xA0, 1, 0, 0, 19, .ro, .status, 0, [], [], false⟩
def FAB_REFUSEDN_N : Fld := ⟨0xA4, 1, 0, 0, 19, .ro, .status, 0, [], [], false⟩
def FAB_LATEN_N : Fld := ⟨0xA8, 1, 0, 0, 19, .ro, .status, 0, [], [], false⟩
def FAB_MISSEDN_N : Fld := ⟨0xAC, 1, 0, 0, 19, .ro, .status, 0, [], [], false⟩
def FAB_FCLOCAL_OUTCOME : Fld := ⟨0xB0, 1, 0, 0, 4, .ro, .status, 0, [], [], false⟩
def FAB_FCLOCAL_ACTIVE : Fld := ⟨0xB0, 1, 0, 4, 1, .ro, .status, 0, [], [], false⟩
def FAB_FCLOCALID_CID : Fld := ⟨0xB4, 1, 0, 0, 32, .ro, .status, 0, [], [], false⟩
def FAB_SUBS_GROUPS : Fld := ⟨0xB8, 1, 0, 0, 10, .ro, .status, 0, [], [], false⟩
def FAB_PUBCFG_EN : Fld := ⟨0xC0, 2, 16, 0, 1, .rw, .commit, 0, [], [], false⟩
def FAB_PUBCFG_VEN : Fld := ⟨0xC0, 2, 16, 4, 4, .rw, .commit, 0, [], [], false⟩
def FAB_PUBCFG_ADV : Fld := ⟨0xC0, 2, 16, 8, 3, .rw, .commit, 1, [(1, 4)], [(0, 0), (5, 7)], false⟩
def FAB_PUBORG_TCOL0 : Fld := ⟨0xC4, 2, 16, 0, 11, .rw, .commit, 0, [], [], false⟩
def FAB_PUBORG_TROW0 : Fld := ⟨0xC4, 2, 16, 16, 11, .rw, .commit, 0, [], [], false⟩
def FAB_PUBSIZE_TCOLS : Fld := ⟨0xC8, 2, 16, 0, 10, .rw, .commit, 1, [(1, 512)], [], false⟩
def FAB_PUBSIZE_TROWS : Fld := ⟨0xC8, 2, 16, 16, 10, .rw, .commit, 1, [(1, 512)], [], false⟩
def FAB_st_FRAMES : Fld := ⟨0x800, 1, 0, 0, 32, .ro, .latch, 0, [], [], false⟩
def FAB_st_FORWARDED : Fld := ⟨0x804, 1, 0, 0, 32, .ro, .latch, 0, [], [], false⟩
def FAB_st_DELIVERED : Fld := ⟨0x808, 1, 0, 0, 32, .ro, .latch, 0, [], [], false⟩
def FAB_st_NOROUTE : Fld := ⟨0x80C, 1, 0, 0, 32, .ro, .latch, 0, [], [], false⟩
def FAB_st_HOPLIMIT : Fld := ⟨0x810, 1, 0, 0, 32, .ro, .latch, 0, [], [], false⟩
def FAB_st_DUPCUE : Fld := ⟨0x814, 1, 0, 0, 32, .ro, .latch, 0, [], [], false⟩
def FAB_st_NOTMASTER : Fld := ⟨0x818, 1, 0, 0, 32, .ro, .latch, 0, [], [], false⟩
def FAB_st_BADKIND : Fld := ⟨0x81C, 1, 0, 0, 32, .ro, .latch, 0, [], [], false⟩
def FAB_st_TILESTX : Fld := ⟨0x820, 1, 0, 0, 32, .ro, .latch, 0, [], [], false⟩
def FAB_st_TILESRX : Fld := ⟨0x824, 1, 0, 0, 32, .ro, .latch, 0, [], [], false⟩
def FAB_st_TILEFILT : Fld := ⟨0x828, 1, 0, 0, 32, .ro, .latch, 0, [], [], false⟩
def FAB_st_TILEDROP : Fld := ⟨0x82C, 1, 0, 0, 32, .ro, .latch, 0, [], [], false⟩
def FAB_st_LSRUPD : Fld := ⟨0x830, 1, 0, 0, 32, .ro, .latch, 0, [], [], false⟩
def FAB_st_REPORTS : Fld := ⟨0x834, 1, 0, 0, 32, .ro, .latch, 0, [], [], false⟩
def FAB_RXBASE_BASE : Fld := ⟨0xE0, 1, 0, 0, 32, .rw, .atOnce, 0, [], [], false⟩
def FAB_RXCFG_LOGSIZE : Fld := ⟨0xE4, 1, 0, 0, 4, .rw, .atOnce, 0, [(4, 12)], [], false⟩
def FAB_RXCFG_BUFSZ : Fld := ⟨0xE4, 1, 0, 16, 8, .rw, .atOnce, 0, [(1, 64)], [], false⟩
def FAB_RXCFG_PAUSEEN : Fld := ⟨0xE4, 1, 0, 24, 1, .rw, .atOnce, 0, [], [], false⟩
def FAB_RXTAIL_IDX : Fld := ⟨0xE8, 1, 0, 0, 12, .rw, .atOnce, 0, [], [], false⟩
def FAB_RXHEAD_IDX : Fld := ⟨0xEC, 1, 0, 0, 12, .ro, .status, 0, [], [], false⟩
def FAB_TXBASE_BASE : Fld := ⟨0xF0, 1, 0, 0, 32, .rw, .atOnce, 0, [], [], false⟩
def FAB_TXCFG_LOGSIZE : Fld := ⟨0xF4, 1, 0, 0, 4, .rw, .atOnce, 0, [(4, 12)], [], false⟩
def FAB_TXTAIL_IDX : Fld := ⟨0xF8, 1, 0, 0, 12, .rw, .atOnce, 0, [], [], false⟩
def FAB_TXHEAD_IDX : Fld := ⟨0xFC, 1, 0, 0, 12, .ro, .status, 0, [], [], false⟩
/-- The fields of the FAB page type. -/
def rowsFAB : List Fld :=
  [FAB_IDCFG_NODEID, FAB_IDCFG_CFIX, FAB_IDCFG_MFIX, FAB_IDCFG_INGRESS, FAB_NODEID_ID, FAB_NODEID_VALID, FAB_ROLEPRIO_GWPRIO, FAB_ROLEPRIO_HEADPRIO, FAB_ROLEPRIO_CUEPRIO, FAB_POOL_POOLLO, FAB_POOL_POOLHI, FAB_ROLES_GW] ++
  [FAB_ROLES_HEAD, FAB_ROLES_CUE, FAB_ROLES_ROOT, FAB_GWID_ID, FAB_GWID_VALID, FAB_DISCSTAT_STATE, FAB_DISCSTAT_ML, FAB_DISCSTAT_CL, FAB_COUNTS_MEMBERS, FAB_COUNTS_CLUSTERS, FAB_TOPOHASHL_HASH, FAB_TOPOHASHH_HASH] ++
  [FAB_TREE_PARENT, FAB_TREE_ALTPARENT, FAB_TREE_LEVEL, FAB_TIMEPATH_PORT, FAB_TIMEPATH_GWDIST, FAB_VLARB_BULKW, FAB_CUECFG_JOIN, FAB_CUECFG_REPORTALL, FAB_CUECFG_OVRACCEPT, FAB_CUECFG_OVRANY, FAB_CUECFG_SHARESCOPE, FAB_TIMERS_READYWAIT] ++
  [FAB_TIMERS_GWLOSS, FAB_FCMT_GO, FAB_FCMT_POLICY, FAB_FCMT_SCOPE, FAB_FCTGTL_TGT, FAB_FCTGTH_TGT, FAB_FCCTL_FIRE, FAB_FCCTL_ABORT, FAB_FCID_CID, FAB_FCSTAT_STATE, FAB_FCSTAT_TOTALS, FAB_EXPECTN_N] ++
  [FAB_READYN_N, FAB_REFUSEDN_N, FAB_LATEN_N, FAB_MISSEDN_N, FAB_FCLOCAL_OUTCOME, FAB_FCLOCAL_ACTIVE, FAB_FCLOCALID_CID, FAB_SUBS_GROUPS, FAB_PUBCFG_EN, FAB_PUBCFG_VEN, FAB_PUBCFG_ADV, FAB_PUBORG_TCOL0] ++
  [FAB_PUBORG_TROW0, FAB_PUBSIZE_TCOLS, FAB_PUBSIZE_TROWS, FAB_st_FRAMES, FAB_st_FORWARDED, FAB_st_DELIVERED, FAB_st_NOROUTE, FAB_st_HOPLIMIT, FAB_st_DUPCUE, FAB_st_NOTMASTER, FAB_st_BADKIND, FAB_st_TILESTX] ++
  [FAB_st_TILESRX, FAB_st_TILEFILT, FAB_st_TILEDROP, FAB_st_LSRUPD, FAB_st_REPORTS, FAB_RXBASE_BASE, FAB_RXCFG_LOGSIZE, FAB_RXCFG_BUFSZ, FAB_RXTAIL_IDX, FAB_RXHEAD_IDX, FAB_TXBASE_BASE, FAB_TXCFG_LOGSIZE] ++
  [FAB_RXCFG_PAUSEEN, FAB_TXTAIL_IDX, FAB_TXHEAD_IDX]

/-! ### AIR -/
def AIR_LINK_CLKDIV : Fld := ⟨0x40, 1, 0, 0, 8, .rw, .atOnce, 20, [(20, 255)], [], false⟩
def AIR_LINK_TXLAT : Fld := ⟨0x40, 1, 0, 16, 16, .rw, .atOnce, 0, [], [], false⟩
def AIR_PHY_BITRATE : Fld := ⟨0x44, 1, 0, 0, 21, .rw, .commit, 0, [(1000, 2000000)], [], false⟩
def AIR_PRE : Fld := ⟨0x48, 1, 0, 0, 16, .rw, .commit, 32, [(8, 65535)], [], false⟩
def AIR_PRE_LONGPRE : Fld := ⟨0x48, 1, 0, 16, 16, .rw, .commit, 1024, [], [], false⟩
def AIR_FRAMING_SYNC : Fld := ⟨0x4C, 1, 0, 0, 8, .rw, .commit, 32, [], [], false⟩
def AIR_FRAMING_OVHD : Fld := ⟨0x4C, 1, 0, 8, 8, .rw, .commit, 0, [], [], false⟩
def AIR_FRAMING_REACQN : Fld := ⟨0x4C, 1, 0, 16, 8, .rw, .commit, 16, [], [], false⟩
def AIR_SCHED_CADENCE : Fld := ⟨0x50, 1, 0, 0, 8, .rw, .commit, 6, [(1, 255)], [], false⟩
def AIR_SCHED_PHASE : Fld := ⟨0x50, 1, 0, 8, 8, .rw, .commit, 0, [], [], false⟩
def AIR_TXOFF : Fld := ⟨0x54, 1, 0, 0, 24, .rw, .commit, 2000, [], [], false⟩
def AIR_AHEAD : Fld := ⟨0x58, 1, 0, 0, 16, .rw, .commit, 10000, [], [], false⟩
def AIR_SHOWDLY : Fld := ⟨0x5C, 1, 0, 0, 16, .rw, .commit, 0, [], [], false⟩
def AIR_VENUE : Fld := ⟨0x60, 1, 0, 0, 16, .rw, .commit, 0, [], [], false⟩
def AIR_ZONEBASE_OFFSET : Fld := ⟨0x64, 1, 0, 0, 27, .rw, .commit, 0, [], [], false⟩
def AIR_ZONES_NZONES : Fld := ⟨0x68, 1, 0, 0, 9, .rw, .commit, 1, [(1, 256)], [], false⟩
def AIR_ZONES_PERFRAME : Fld := ⟨0x68, 1, 0, 16, 6, .rw, .commit, 32, [(1, 32)], [], false⟩
def AIR_CHAN_SB : Fld := ⟨0x6C, 1, 0, 0, 3, .rw, .commit, 0, [], [], false⟩
def AIR_LOADLEAD_LEAD : Fld := ⟨0x70, 1, 0, 0, 10, .rw, .atOnce, 50, [(10, 1000)], [], false⟩
def AIR_ACCSTAT_STATE : Fld := ⟨0x74, 1, 0, 0, 2, .ro, .status, 0, [], [], false⟩
def AIR_NEXTTX_ST : Fld := ⟨0x78, 1, 0, 0, 32, .ro, .status, 0, [], [], false⟩
def AIR_RECSTAT_SRC : Fld := ⟨0x7C, 1, 0, 0, 2, .ro, .status, 0, [], [], false⟩
def AIR_BKSEL_SB : Fld := ⟨0x80, 1, 0, 0, 3, .rw, .atOnce, 0, [], [], false⟩
def AIR_DUTY : Fld := ⟨0x100, 8, 32, 0, 20, .rw, .atOnce, 0, [], [], false⟩
def AIR_LBT_LBTDUTY : Fld := ⟨0x104, 8, 32, 0, 20, .rw, .atOnce, 0, [], [], false⟩
def AIR_LBT_LBTOK : Fld := ⟨0x104, 8, 32, 24, 1, .rw, .atOnce, 0, [], [], false⟩
def AIR_CCA_LISTEN : Fld := ⟨0x108, 8, 32, 0, 16, .rw, .atOnce, 5000, [(5, 65535)], [], false⟩
def AIR_CCA_THR : Fld := ⟨0x108, 8, 32, 16, 8, .rw, .atOnce, 166, [], [], false⟩
def AIR_CCA_TRIES : Fld := ⟨0x108, 8, 32, 24, 4, .rw, .atOnce, 1, [(1, 15)], [], false⟩
def AIR_STEP : Fld := ⟨0x10C, 8, 32, 0, 16, .rw, .atOnce, 6100, [], [], false⟩
def AIR_USED : Fld := ⟨0x110, 8, 32, 0, 32, .ro, .status, 0, [], [], false⟩
def AIR_BUDGET : Fld := ⟨0x114, 8, 32, 0, 32, .ro, .status, 0, [], [], false⟩
def AIR_st_FRAMES : Fld := ⟨0x800, 1, 0, 0, 32, .ro, .latch, 0, [], [], false⟩
def AIR_st_SENT : Fld := ⟨0x804, 1, 0, 0, 32, .ro, .latch, 0, [], [], false⟩
def AIR_st_REACQSENT : Fld := ⟨0x808, 1, 0, 0, 32, .ro, .latch, 0, [], [], false⟩
def AIR_st_AIRTIME : Fld := ⟨0x80C, 1, 0, 0, 32, .ro, .latch, 0, [], [], false⟩
def AIR_st_DUTYSKIP : Fld := ⟨0x810, 1, 0, 0, 32, .ro, .latch, 0, [], [], false⟩
def AIR_st_LBTBUSY : Fld := ⟨0x814, 1, 0, 0, 32, .ro, .latch, 0, [], [], false⟩
def AIR_st_LOADLATE : Fld := ⟨0x818, 1, 0, 0, 32, .ro, .latch, 0, [], [], false⟩
def AIR_st_LINKERR : Fld := ⟨0x81C, 1, 0, 0, 32, .ro, .latch, 0, [], [], false⟩
def AIR_st_BADZONE : Fld := ⟨0x820, 1, 0, 0, 32, .ro, .latch, 0, [], [], false⟩
def AIR_st_RXFRAMES : Fld := ⟨0x824, 1, 0, 0, 32, .ro, .latch, 0, [], [], false⟩
def AIR_LIST_ADDR : Fld := ⟨0xC00, 128, 4, 0, 16, .rw, .atOnce, 0, [], [], false⟩
def AIR_LIST_DATA : Fld := ⟨0xC00, 128, 4, 16, 8, .rw, .atOnce, 0, [], [], false⟩
def AIR_LIST_VALID : Fld := ⟨0xC00, 128, 4, 31, 1, .rw, .atOnce, 0, [], [], false⟩
/-- The fields of the AIR page type. -/
def rowsAIR : List Fld :=
  [AIR_LINK_CLKDIV, AIR_LINK_TXLAT, AIR_PHY_BITRATE, AIR_PRE, AIR_PRE_LONGPRE, AIR_FRAMING_SYNC, AIR_FRAMING_OVHD, AIR_FRAMING_REACQN, AIR_SCHED_CADENCE, AIR_SCHED_PHASE, AIR_TXOFF, AIR_AHEAD] ++
  [AIR_SHOWDLY, AIR_VENUE, AIR_ZONEBASE_OFFSET, AIR_ZONES_NZONES, AIR_ZONES_PERFRAME, AIR_CHAN_SB, AIR_LOADLEAD_LEAD, AIR_ACCSTAT_STATE, AIR_NEXTTX_ST, AIR_RECSTAT_SRC, AIR_BKSEL_SB, AIR_DUTY] ++
  [AIR_LBT_LBTDUTY, AIR_LBT_LBTOK, AIR_CCA_LISTEN, AIR_CCA_THR, AIR_CCA_TRIES, AIR_STEP, AIR_USED, AIR_BUDGET, AIR_st_FRAMES, AIR_st_SENT, AIR_st_REACQSENT, AIR_st_AIRTIME] ++
  [AIR_st_DUTYSKIP, AIR_st_LBTBUSY, AIR_st_LOADLATE, AIR_st_LINKERR, AIR_st_BADZONE, AIR_st_RXFRAMES, AIR_LIST_ADDR, AIR_LIST_DATA, AIR_LIST_VALID]

/-! ### FS -/
def FS_SCRUB_EN : Fld := ⟨0x40, 1, 0, 0, 1, .rw, .atOnce, 1, [], [], false⟩
def FS_SCRUB_PER : Fld := ⟨0x40, 1, 0, 8, 8, .rw, .atOnce, 60, [(1, 255)], [], false⟩
def FS_INJECT_GO : Fld := ⟨0x44, 1, 0, 0, 1, .wo, .atOnce, 0, [], [], false⟩
def FS_INJECT_DOUBLE : Fld := ⟨0x44, 1, 0, 1, 1, .wo, .atOnce, 0, [], [], false⟩
def FS_INJECT_MEM : Fld := ⟨0x44, 1, 0, 2, 1, .wo, .atOnce, 0, [], [], false⟩
def FS_INJADDR_OFFSET : Fld := ⟨0x48, 1, 0, 3, 24, .rw, .atOnce, 0, [], [], false⟩
def FS_ERRSTAT_VALID : Fld := ⟨0x4C, 1, 0, 0, 1, .ro, .status, 0, [], [], false⟩
def FS_ERRSTAT_UNC : Fld := ⟨0x4C, 1, 0, 1, 1, .ro, .status, 0, [], [], false⟩
def FS_ERRSTAT_MEM : Fld := ⟨0x4C, 1, 0, 2, 1, .ro, .status, 0, [], [], false⟩
def FS_ERRSTAT_SOURCE : Fld := ⟨0x4C, 1, 0, 8, 8, .ro, .status, 0, [], [], false⟩
def FS_ERRADDR_OFFSET : Fld := ⟨0x50, 1, 0, 0, 27, .ro, .status, 0, [], [], false⟩
def FS_ERRST_ST : Fld := ⟨0x54, 1, 0, 0, 32, .ro, .status, 0, [], [], false⟩
def FS_ERRCLR_CLR : Fld := ⟨0x58, 1, 0, 0, 1, .wo, .atOnce, 0, [], [], false⟩
def FS_TRAIN_DONE : Fld := ⟨0x5C, 1, 0, 0, 1, .ro, .status, 0, [], [], false⟩
def FS_TRAIN_PASS : Fld := ⟨0x5C, 1, 0, 1, 1, .ro, .status, 0, [], [], false⟩
def FS_TRAIN_TESTED : Fld := ⟨0x5C, 1, 0, 2, 1, .ro, .status, 0, [], [], false⟩
def FS_st_FRAMES : Fld := ⟨0x800, 1, 0, 0, 32, .ro, .latch, 0, [], [], false⟩
def FS_st_CORR : Fld := ⟨0x804, 1, 0, 0, 32, .ro, .latch, 0, [], [], false⟩
def FS_st_UNCORR : Fld := ⟨0x808, 1, 0, 0, 32, .ro, .latch, 0, [], [], false⟩
def FS_st_SRAMCORR : Fld := ⟨0x80C, 1, 0, 0, 32, .ro, .latch, 0, [], [], false⟩
def FS_st_SRAMUNC : Fld := ⟨0x810, 1, 0, 0, 32, .ro, .latch, 0, [], [], false⟩
def FS_st_RMW : Fld := ⟨0x814, 1, 0, 0, 32, .ro, .latch, 0, [], [], false⟩
def FS_st_SCRUBPASS : Fld := ⟨0x818, 1, 0, 0, 32, .ro, .latch, 0, [], [], false⟩
/-- The fields of the FS page type. -/
def rowsFS : List Fld :=
  [FS_SCRUB_EN, FS_SCRUB_PER, FS_INJECT_GO, FS_INJECT_DOUBLE, FS_INJECT_MEM, FS_INJADDR_OFFSET, FS_ERRSTAT_VALID, FS_ERRSTAT_UNC, FS_ERRSTAT_MEM, FS_ERRSTAT_SOURCE, FS_ERRADDR_OFFSET, FS_ERRST_ST] ++
  [FS_ERRCLR_CLR, FS_TRAIN_DONE, FS_TRAIN_PASS, FS_TRAIN_TESTED, FS_st_FRAMES, FS_st_CORR, FS_st_UNCORR, FS_st_SRAMCORR, FS_st_SRAMUNC, FS_st_RMW, FS_st_SCRUBPASS]

/-! ### NVM -/
def NVM_ADDR_OFFSET : Fld := ⟨0x40, 1, 0, 0, 24, .rw, .atOnce, 0, [], [], false⟩
def NVM_LEN : Fld := ⟨0x44, 1, 0, 0, 9, .rw, .atOnce, 0, [], [], false⟩
def NVM_CMD_PROG : Fld := ⟨0x48, 1, 0, 0, 1, .wo, .atOnce, 0, [], [], false⟩
def NVM_CMD_ZERO : Fld := ⟨0x48, 1, 0, 1, 1, .wo, .atOnce, 0, [], [], false⟩
def NVM_STAT_BUSY : Fld := ⟨0x4C, 1, 0, 0, 1, .ro, .status, 0, [], [], false⟩
def NVM_STAT_RESULT : Fld := ⟨0x4C, 1, 0, 1, 3, .ro, .status, 0, [], [], false⟩
def NVM_STAT_BUFAGENT : Fld := ⟨0x4C, 1, 0, 4, 4, .ro, .status, 0, [], [], false⟩
def NVM_STAT_AGENT : Fld := ⟨0x4C, 1, 0, 8, 8, .ro, .status, 0, [], [], false⟩
def NVM_ERRADDR_OFFSET : Fld := ⟨0x50, 1, 0, 0, 24, .ro, .status, 0, [], [], false⟩
def NVM_ERRST_ST : Fld := ⟨0x54, 1, 0, 0, 32, .ro, .status, 0, [], [], false⟩
def NVM_st_FRAMES : Fld := ⟨0x800, 1, 0, 0, 32, .ro, .latch, 0, [], [], false⟩
def NVM_st_PROGS : Fld := ⟨0x804, 1, 0, 0, 32, .ro, .latch, 0, [], [], false⟩
def NVM_st_INTERNAL : Fld := ⟨0x808, 1, 0, 0, 32, .ro, .latch, 0, [], [], false⟩
def NVM_st_CORR : Fld := ⟨0x80C, 1, 0, 0, 32, .ro, .latch, 0, [], [], false⟩
def NVM_st_UNCORR : Fld := ⟨0x810, 1, 0, 0, 32, .ro, .latch, 0, [], [], false⟩
def NVM_st_REFUSED : Fld := ⟨0x814, 1, 0, 0, 32, .ro, .latch, 0, [], [], false⟩
/-- The fields of the NVM page type. -/
def rowsNVM : List Fld :=
  [NVM_ADDR_OFFSET, NVM_LEN, NVM_CMD_PROG, NVM_CMD_ZERO, NVM_STAT_BUSY, NVM_STAT_RESULT, NVM_STAT_BUFAGENT, NVM_STAT_AGENT, NVM_ERRADDR_OFFSET, NVM_ERRST_ST, NVM_st_FRAMES, NVM_st_PROGS] ++
  [NVM_st_INTERNAL, NVM_st_CORR, NVM_st_UNCORR, NVM_st_REFUSED]

/-! ### ARB -/
def ARB_BUDGET0_NS : Fld := ⟨0x40, 1, 0, 0, 18, .rw, .atOnce, 2000, [(100, 262143)], [], false⟩
def ARB_BUDGET1_NS : Fld := ⟨0x44, 1, 0, 0, 18, .rw, .atOnce, 10000, [(100, 262143)], [], false⟩
def ARB_BUDGET2_NS : Fld := ⟨0x48, 1, 0, 0, 18, .rw, .atOnce, 50000, [(100, 262143)], [], false⟩
def ARB_BUDGET3_NS : Fld := ⟨0x4C, 1, 0, 0, 18, .rw, .atOnce, 200000, [(100, 262143)], [], false⟩
def ARB_RESVINT_ROUNDS : Fld := ⟨0x50, 1, 0, 0, 6, .rw, .atOnce, 32, [(8, 63)], [], false⟩
def ARB_PENDSTAT_FILL : Fld := ⟨0x54, 1, 0, 0, 7, .ro, .status, 0, [], [], false⟩
def ARB_PENDSTAT_FREE : Fld := ⟨0x54, 1, 0, 8, 7, .ro, .status, 64, [], [], false⟩
def ARB_PORT_CLASS : Fld := ⟨0x100, 24, 4, 0, 2, .rw, .atOnce, 0, [], [], false⟩
def ARB_PORT_FORERUNNER : Fld := ⟨0x100, 24, 4, 4, 1, .rw, .atOnce, 0, [], [], false⟩
def ARB_PORT_MAXPEND : Fld := ⟨0x100, 24, 4, 8, 4, .rw, .atOnce, 8, [(1, 15)], [], false⟩
def ARB_PORT_RESV : Fld := ⟨0x100, 24, 4, 12, 1, .rw, .atOnce, 0, [], [], false⟩
def ARB_PORT_MASKED : Fld := ⟨0x100, 24, 4, 16, 1, .ro, .status, 0, [], [], false⟩
def ARB_PORT_PEND : Fld := ⟨0x100, 24, 4, 20, 3, .ro, .status, 0, [], [], false⟩
def ARB_st_FRAMES : Fld := ⟨0x800, 1, 0, 0, 32, .ro, .latch, 0, [], [], false⟩
def ARB_st_GRANTS : Fld := ⟨0x804, 1, 0, 0, 32, .ro, .latch, 0, [], [], false⟩
def ARB_st_DLMISS : Fld := ⟨0x808, 1, 0, 0, 32, .ro, .latch, 0, [], [], false⟩
def ARB_st_PENDFULL : Fld := ⟨0x80C, 1, 0, 0, 32, .ro, .latch, 0, [], [], false⟩
def ARB_st_MASKDROP : Fld := ⟨0x810, 1, 0, 0, 32, .ro, .latch, 0, [], [], false⟩
def ARB_st_PENDPEAK : Fld := ⟨0x814, 1, 0, 0, 7, .ro, .latch, 0, [], [], false⟩
def ARB_st_P_GRANTS : Fld := ⟨0x840, 24, 16, 0, 32, .ro, .latch, 0, [], [], false⟩
def ARB_st_P_DLMISS : Fld := ⟨0x844, 24, 16, 0, 32, .ro, .latch, 0, [], [], false⟩
def ARB_st_P_MAXWAIT : Fld := ⟨0x848, 24, 16, 0, 32, .ro, .latch, 0, [], [], false⟩
def ARB_st_P_RETRIES : Fld := ⟨0x84C, 24, 16, 0, 32, .ro, .latch, 0, [], [], false⟩
/-- The fields of the ARB page type. -/
def rowsARB : List Fld :=
  [ARB_BUDGET0_NS, ARB_BUDGET1_NS, ARB_BUDGET2_NS, ARB_BUDGET3_NS, ARB_RESVINT_ROUNDS, ARB_PENDSTAT_FILL, ARB_PENDSTAT_FREE, ARB_PORT_CLASS, ARB_PORT_FORERUNNER, ARB_PORT_MAXPEND, ARB_PORT_RESV, ARB_PORT_MASKED] ++
  [ARB_PORT_PEND, ARB_st_FRAMES, ARB_st_GRANTS, ARB_st_DLMISS, ARB_st_PENDFULL, ARB_st_MASKDROP, ARB_st_PENDPEAK, ARB_st_P_GRANTS, ARB_st_P_DLMISS, ARB_st_P_MAXWAIT, ARB_st_P_RETRIES]

/-! ### DMA -/
def DMA_ENGINE_HALTED : Fld := ⟨0x40, 1, 0, 0, 1, .ro, .status, 0, [], [], false⟩
def DMA_ENGINE_CLEARHALT : Fld := ⟨0x40, 1, 0, 1, 1, .wo, .atOnce, 0, [], [], false⟩
def DMA_ENGINE_ERRCH : Fld := ⟨0x40, 1, 0, 8, 5, .ro, .status, 0, [], [], false⟩
def DMA_DESCL_DESC : Fld := ⟨0x100, 16, 64, 5, 27, .rw, .atOnce, 0, [], [], false⟩
def DMA_DESCH_DESC : Fld := ⟨0x104, 16, 64, 0, 8, .rw, .atOnce, 0, [], [], false⟩
def DMA_CTL_GO : Fld := ⟨0x108, 16, 64, 0, 1, .wo, .atOnce, 0, [], [], false⟩
def DMA_CTL_STOP : Fld := ⟨0x108, 16, 64, 1, 1, .wo, .atOnce, 0, [], [], false⟩
def DMA_CTL_KNOCK : Fld := ⟨0x108, 16, 64, 2, 1, .wo, .atOnce, 0, [], [], false⟩
def DMA_CTL_RESUME : Fld := ⟨0x108, 16, 64, 3, 1, .wo, .atOnce, 0, [], [], false⟩
def DMA_CTL_CLEAR : Fld := ⟨0x108, 16, 64, 4, 1, .wo, .atOnce, 0, [], [], false⟩
def DMA_CFG_SHARE : Fld := ⟨0x10C, 16, 64, 0, 9, .rw, .atOnce, 256, [(1, 256)], [], false⟩
def DMA_CFG_CPLQ : Fld := ⟨0x10C, 16, 64, 16, 6, .rw, .atOnce, 0, [], [], false⟩
def DMA_CFG_CPLQEN : Fld := ⟨0x10C, 16, 64, 24, 1, .rw, .atOnce, 0, [], [], false⟩
def DMA_CFG_CPLPRIO : Fld := ⟨0x10C, 16, 64, 25, 3, .rw, .atOnce, 0, [], [], false⟩
def DMA_STATUS_STATE : Fld := ⟨0x110, 16, 64, 0, 3, .ro, .status, 0, [], [], false⟩
def DMA_STATUS_AGENT : Fld := ⟨0x110, 16, 64, 4, 4, .ro, .status, 0, [], [], false⟩
def DMA_STATUS_KNOCKED : Fld := ⟨0x110, 16, 64, 8, 1, .ro, .status, 0, [], [], false⟩
def DMA_STATUS_STOPREQ : Fld := ⟨0x110, 16, 64, 9, 1, .ro, .status, 0, [], [], false⟩
def DMA_CURL_CUR : Fld := ⟨0x114, 16, 64, 0, 32, .ro, .status, 0, [], [], false⟩
def DMA_CURH_CUR : Fld := ⟨0x118, 16, 64, 0, 8, .ro, .status, 0, [], [], false⟩
def DMA_REMAIN_BYTES : Fld := ⟨0x11C, 16, 64, 0, 25, .ro, .status, 0, [], [], false⟩
def DMA_RESL_RES : Fld := ⟨0x120, 16, 64, 0, 32, .ro, .status, 0, [], [], false⟩
def DMA_RESH_RES : Fld := ⟨0x124, 16, 64, 0, 8, .ro, .status, 0, [], [], false⟩
def DMA_RESOFF_OFFSET : Fld := ⟨0x128, 16, 64, 0, 25, .ro, .status, 0, [], [], false⟩
def DMA_ERRL_ERR : Fld := ⟨0x12C, 16, 64, 0, 32, .ro, .status, 0, [], [], false⟩
def DMA_ERRH_ERR : Fld := ⟨0x130, 16, 64, 0, 8, .ro, .status, 0, [], [], false⟩
def DMA_MISOFF_OFFSET : Fld := ⟨0x134, 16, 64, 0, 25, .ro, .status, 0, [], [], false⟩
def DMA_MISOFF_VALID : Fld := ⟨0x134, 16, 64, 31, 1, .ro, .status, 0, [], [], false⟩
def DMA_MISL_MIS : Fld := ⟨0x138, 16, 64, 0, 32, .ro, .status, 0, [], [], false⟩
def DMA_MISH_MIS : Fld := ⟨0x13C, 16, 64, 0, 8, .ro, .status, 0, [], [], false⟩
def DMA_st_FRAMES : Fld := ⟨0x800, 1, 0, 0, 32, .ro, .latch, 0, [], [], false⟩
def DMA_st_BYTES : Fld := ⟨0x804, 1, 0, 0, 32, .ro, .latch, 0, [], [], false⟩
def DMA_st_DESCS : Fld := ⟨0x808, 1, 0, 0, 32, .ro, .latch, 0, [], [], false⟩
def DMA_st_DONES : Fld := ⟨0x80C, 1, 0, 0, 32, .ro, .latch, 0, [], [], false⟩
def DMA_st_ERRORS : Fld := ⟨0x810, 1, 0, 0, 32, .ro, .latch, 0, [], [], false⟩
def DMA_st_BADDESC : Fld := ⟨0x814, 1, 0, 0, 32, .ro, .latch, 0, [], [], false⟩
def DMA_st_REREADS : Fld := ⟨0x818, 1, 0, 0, 32, .ro, .latch, 0, [], [], false⟩
def DMA_st_KNOCKIDLE : Fld := ⟨0x81C, 1, 0, 0, 32, .ro, .latch, 0, [], [], false⟩
/-- The fields of the DMA page type. -/
def rowsDMA : List Fld :=
  [DMA_ENGINE_HALTED, DMA_ENGINE_CLEARHALT, DMA_ENGINE_ERRCH, DMA_DESCL_DESC, DMA_DESCH_DESC, DMA_CTL_GO, DMA_CTL_STOP, DMA_CTL_KNOCK, DMA_CTL_RESUME, DMA_CTL_CLEAR, DMA_CFG_SHARE, DMA_CFG_CPLQ] ++
  [DMA_CFG_CPLQEN, DMA_CFG_CPLPRIO, DMA_STATUS_STATE, DMA_STATUS_AGENT, DMA_STATUS_KNOCKED, DMA_STATUS_STOPREQ, DMA_CURL_CUR, DMA_CURH_CUR, DMA_REMAIN_BYTES, DMA_RESL_RES, DMA_RESH_RES, DMA_RESOFF_OFFSET] ++
  [DMA_ERRL_ERR, DMA_ERRH_ERR, DMA_MISOFF_OFFSET, DMA_MISOFF_VALID, DMA_MISL_MIS, DMA_MISH_MIS, DMA_st_FRAMES, DMA_st_BYTES, DMA_st_DESCS, DMA_st_DONES, DMA_st_ERRORS, DMA_st_BADDESC] ++
  [DMA_st_REREADS, DMA_st_KNOCKIDLE]

/-! ### QUE -/
def QUE_PUSHBUF_DATA : Fld := ⟨0x40, 3, 4, 0, 32, .wo, .atOnce, 0, [], [], false⟩
def QUE_POPBUF_DATA : Fld := ⟨0x50, 4, 4, 0, 32, .ro, .status, 0, [], [], false⟩
def QUE_DROP_QUEUE : Fld := ⟨0x60, 1, 0, 0, 6, .wo, .atOnce, 0, [], [], false⟩
def QUE_POOL_USED : Fld := ⟨0x64, 1, 0, 0, 15, .ro, .status, 0, [], [], false⟩
def QUE_POOL_FREE : Fld := ⟨0x64, 1, 0, 16, 15, .ro, .status, 16384, [], [], false⟩
def QUE_QCFG_EN : Fld := ⟨0x100, 64, 4, 0, 1, .rw, .atOnce, 0, [], [], false⟩
def QUE_QCFG_LOGDEPTH : Fld := ⟨0x100, 64, 4, 1, 4, .rw, .atOnce, 4, [(4, 10)], [], false⟩
def QUE_QCFG_BLOCK : Fld := ⟨0x100, 64, 4, 8, 1, .rw, .atOnce, 1, [], [], false⟩
def QUE_QCFG_NEVT : Fld := ⟨0x100, 64, 4, 9, 1, .rw, .atOnce, 0, [], [], false⟩
def QUE_PUSHQ_DATA : Fld := ⟨0x200, 64, 4, 0, 32, .wo, .atOnce, 0, [], [], false⟩
def QUE_POPQ_STATUS : Fld := ⟨0x300, 64, 4, 0, 32, .ro, .status, 0, [], [], false⟩
def QUE_QSTAT_FILL : Fld := ⟨0x400, 64, 4, 0, 11, .ro, .status, 0, [], [], false⟩
def QUE_QSTAT_OPEN : Fld := ⟨0x400, 64, 4, 11, 1, .ro, .status, 0, [], [], false⟩
def QUE_QSTAT_INSERVICE : Fld := ⟨0x400, 64, 4, 12, 1, .ro, .status, 0, [], [], false⟩
def QUE_QSTAT_DISCARD : Fld := ⟨0x400, 64, 4, 13, 1, .ro, .status, 0, [], [], false⟩
def QUE_QSTAT_PUSHWAIT : Fld := ⟨0x400, 64, 4, 14, 1, .ro, .status, 0, [], [], false⟩
def QUE_st_FRAMES : Fld := ⟨0x800, 1, 0, 0, 32, .ro, .latch, 0, [], [], false⟩
def QUE_st_PUSHES : Fld := ⟨0x804, 1, 0, 0, 32, .ro, .latch, 0, [], [], false⟩
def QUE_st_POPS : Fld := ⟨0x808, 1, 0, 0, 32, .ro, .latch, 0, [], [], false⟩
def QUE_st_FULLWAITS : Fld := ⟨0x80C, 1, 0, 0, 32, .ro, .latch, 0, [], [], false⟩
def QUE_st_REFUSED : Fld := ⟨0x810, 1, 0, 0, 32, .ro, .latch, 0, [], [], false⟩
def QUE_st_DISCARDED : Fld := ⟨0x814, 1, 0, 0, 32, .ro, .latch, 0, [], [], false⟩
def QUE_st_CPLLOST : Fld := ⟨0x818, 1, 0, 0, 32, .ro, .latch, 0, [], [], false⟩
def QUE_st_PEAK : Fld := ⟨0x900, 64, 4, 0, 11, .ro, .latch, 0, [], [], false⟩
/-- The fields of the QUE page type. -/
def rowsQUE : List Fld :=
  [QUE_PUSHBUF_DATA, QUE_POPBUF_DATA, QUE_DROP_QUEUE, QUE_POOL_USED, QUE_POOL_FREE, QUE_QCFG_EN, QUE_QCFG_LOGDEPTH, QUE_QCFG_BLOCK, QUE_QCFG_NEVT, QUE_PUSHQ_DATA, QUE_POPQ_STATUS, QUE_QSTAT_FILL] ++
  [QUE_QSTAT_OPEN, QUE_QSTAT_INSERVICE, QUE_QSTAT_DISCARD, QUE_QSTAT_PUSHWAIT, QUE_st_FRAMES, QUE_st_PUSHES, QUE_st_POPS, QUE_st_FULLWAITS, QUE_st_REFUSED, QUE_st_DISCARDED, QUE_st_CPLLOST, QUE_st_PEAK]

/-! ### CPU -/
def CPU_RESETPCL_RESETPC : Fld := ⟨0x40, 1, 0, 1, 31, .rw, .atOnce, 0, [], [], false⟩
def CPU_RESETPCH_RESETPC : Fld := ⟨0x44, 1, 0, 0, 8, .rw, .atOnce, 0, [], [], false⟩
def CPU_STAT_STATE : Fld := ⟨0x48, 1, 0, 0, 3, .ro, .status, 0, [], [], false⟩
def CPU_STAT_LEVEL : Fld := ⟨0x48, 1, 0, 8, 5, .ro, .status, 0, [], [], false⟩
def CPU_STAT_TASKS : Fld := ⟨0x48, 1, 0, 16, 4, .ro, .status, 0, [], [], false⟩
def CPU_CFG_DRAWEN : Fld := ⟨0x4C, 1, 0, 0, 1, .rw, .atOnce, 0, [], [], false⟩
def CPU_DOORBELL_RING : Fld := ⟨0x50, 1, 0, 0, 8, .wo, .atOnce, 0, [], [], false⟩
def CPU_WAKE : Fld := ⟨0x54, 1, 0, 0, 1, .wo, .atOnce, 0, [], [], false⟩
def CPU_PCSAMPLEL_PC : Fld := ⟨0x58, 1, 0, 0, 32, .ro, .status, 0, [], [], false⟩
def CPU_PCSAMPLEH_PC : Fld := ⟨0x5C, 1, 0, 0, 8, .ro, .status, 0, [], [], false⟩
def CPU_RUNTASK_TASK : Fld := ⟨0x60, 1, 0, 0, 10, .ro, .status, 0, [], [], false⟩
def CPU_RUNTASK_VALID : Fld := ⟨0x60, 1, 0, 15, 1, .ro, .status, 0, [], [], false⟩
def CPU_DRAWER_TASK : Fld := ⟨0x64, 1, 0, 0, 10, .ro, .status, 0, [], [], false⟩
def CPU_DRAWER_VALID : Fld := ⟨0x64, 1, 0, 15, 1, .ro, .status, 0, [], [], false⟩
def CPU_PSRC_PRIO : Fld := ⟨0x100, 32, 4, 0, 4, .rw, .atOnce, 0, [], [], false⟩
def CPU_PSRC_EN : Fld := ⟨0x100, 32, 4, 6, 1, .rw, .atOnce, 0, [], [], false⟩
def CPU_PSRC_WAKE : Fld := ⟨0x100, 32, 4, 7, 1, .rw, .atOnce, 0, [], [], false⟩
def CPU_PSRC_PENDING : Fld := ⟨0x100, 32, 4, 20, 1, .ro, .status, 0, [], [], false⟩
def CPU_PSRC_INSERVICE : Fld := ⟨0x100, 32, 4, 21, 1, .ro, .status, 0, [], [], false⟩
def CPU_PSRC_COUNT : Fld := ⟨0x100, 32, 4, 24, 8, .ro, .status, 0, [], [], false⟩
def CPU_PSET_SOURCE : Fld := ⟨0x180, 1, 0, 0, 5, .wo, .atOnce, 0, [], [], false⟩
def CPU_PCLR_SOURCE : Fld := ⟨0x184, 1, 0, 0, 5, .wo, .atOnce, 0, [], [], false⟩
def CPU_st_FRAMES : Fld := ⟨0x800, 1, 0, 0, 32, .ro, .latch, 0, [], [], false⟩
def CPU_st_INSTRET : Fld := ⟨0x804, 1, 0, 0, 32, .ro, .latch, 0, [], [], false⟩
def CPU_st_RUNNS : Fld := ⟨0x808, 1, 0, 0, 32, .ro, .latch, 0, [], [], false⟩
def CPU_st_IDLENS : Fld := ⟨0x80C, 1, 0, 0, 32, .ro, .latch, 0, [], [], false⟩
def CPU_st_SLEEPNS : Fld := ⟨0x810, 1, 0, 0, 32, .ro, .latch, 0, [], [], false⟩
def CPU_st_ENTRIES : Fld := ⟨0x814, 1, 0, 0, 32, .ro, .latch, 0, [], [], false⟩
def CPU_st_CHAINS : Fld := ⟨0x818, 1, 0, 0, 32, .ro, .latch, 0, [], [], false⟩
def CPU_st_REPLACED : Fld := ⟨0x81C, 1, 0, 0, 32, .ro, .latch, 0, [], [], false⟩
def CPU_st_TASKS : Fld := ⟨0x820, 1, 0, 0, 32, .ro, .latch, 0, [], [], false⟩
def CPU_st_EXCEPTIONS : Fld := ⟨0x824, 1, 0, 0, 32, .ro, .latch, 0, [], [], false⟩
/-- The fields of the CPU page type. -/
def rowsCPU : List Fld :=
  [CPU_RESETPCL_RESETPC, CPU_RESETPCH_RESETPC, CPU_STAT_STATE, CPU_STAT_LEVEL, CPU_STAT_TASKS, CPU_CFG_DRAWEN, CPU_DOORBELL_RING, CPU_WAKE, CPU_PCSAMPLEL_PC, CPU_PCSAMPLEH_PC, CPU_RUNTASK_TASK, CPU_RUNTASK_VALID] ++
  [CPU_DRAWER_TASK, CPU_DRAWER_VALID, CPU_PSRC_PRIO, CPU_PSRC_EN, CPU_PSRC_WAKE, CPU_PSRC_PENDING, CPU_PSRC_INSERVICE, CPU_PSRC_COUNT, CPU_PSET_SOURCE, CPU_PCLR_SOURCE, CPU_st_FRAMES, CPU_st_INSTRET] ++
  [CPU_st_RUNNS, CPU_st_IDLENS, CPU_st_SLEEPNS, CPU_st_ENTRIES, CPU_st_CHAINS, CPU_st_REPLACED, CPU_st_TASKS, CPU_st_EXCEPTIONS]

/-! ### EVC -/
def EVC_SET_SOURCE : Fld := ⟨0x40, 1, 0, 0, 8, .wo, .atOnce, 0, [], [], false⟩
def EVC_CLR_SOURCE : Fld := ⟨0x44, 1, 0, 0, 8, .wo, .atOnce, 0, [], [], false⟩
def EVC_EXT_MODE : Fld := ⟨0x60, 8, 4, 0, 3, .rw, .atOnce, 0, [], [(6, 7)], false⟩
def EVC_EXT_FILTER : Fld := ⟨0x60, 8, 4, 16, 16, .rw, .atOnce, 16, [(16, 65535)], [], false⟩
def EVC_EXTST_ST : Fld := ⟨0x80, 8, 4, 0, 32, .ro, .status, 0, [], [], false⟩
def EVC_SRC_PRIO : Fld := ⟨0x100, 256, 4, 0, 4, .rw, .atOnce, 0, [], [], false⟩
def EVC_SRC_TARGET : Fld := ⟨0x100, 256, 4, 4, 2, .rw, .atOnce, 0, [], [], false⟩
def EVC_SRC_EN : Fld := ⟨0x100, 256, 4, 6, 1, .rw, .atOnce, 0, [], [], false⟩
def EVC_SRC_WAKE : Fld := ⟨0x100, 256, 4, 7, 1, .rw, .atOnce, 0, [], [], false⟩
def EVC_SRC_ACTION : Fld := ⟨0x100, 256, 4, 8, 2, .rw, .atOnce, 0, [], [(3, 3)], false⟩
def EVC_SRC_TASK : Fld := ⟨0x100, 256, 4, 10, 10, .rw, .atOnce, 0, [], [], false⟩
def EVC_SRC_PENDING : Fld := ⟨0x100, 256, 4, 20, 1, .ro, .status, 0, [], [], false⟩
def EVC_SRC_INSERVICE : Fld := ⟨0x100, 256, 4, 21, 1, .ro, .status, 0, [], [], false⟩
def EVC_SRC_POSTHELD : Fld := ⟨0x100, 256, 4, 22, 1, .ro, .status, 0, [], [], false⟩
def EVC_SRC_COUNT : Fld := ⟨0x100, 256, 4, 24, 8, .ro, .status, 0, [], [], false⟩
def EVC_st_FRAMES : Fld := ⟨0x800, 1, 0, 0, 32, .ro, .latch, 0, [], [], false⟩
def EVC_st_ARRIVALS : Fld := ⟨0x804, 1, 0, 0, 32, .ro, .latch, 0, [], [], false⟩
def EVC_st_MERGED : Fld := ⟨0x808, 1, 0, 0, 32, .ro, .latch, 0, [], [], false⟩
def EVC_st_WAKES : Fld := ⟨0x80C, 1, 0, 0, 32, .ro, .latch, 0, [], [], false⟩
def EVC_st_EXTARR : Fld := ⟨0x810, 1, 0, 0, 32, .ro, .latch, 0, [], [], false⟩
def EVC_st_POSTS : Fld := ⟨0x814, 1, 0, 0, 32, .ro, .latch, 0, [], [], false⟩
/-- The fields of the EVC page type. -/
def rowsEVC : List Fld :=
  [EVC_SET_SOURCE, EVC_CLR_SOURCE, EVC_EXT_MODE, EVC_EXT_FILTER, EVC_EXTST_ST, EVC_SRC_PRIO, EVC_SRC_TARGET, EVC_SRC_EN, EVC_SRC_WAKE, EVC_SRC_ACTION, EVC_SRC_TASK, EVC_SRC_PENDING] ++
  [EVC_SRC_INSERVICE, EVC_SRC_POSTHELD, EVC_SRC_COUNT, EVC_st_FRAMES, EVC_st_ARRIVALS, EVC_st_MERGED, EVC_st_WAKES, EVC_st_EXTARR, EVC_st_POSTS]

/-! ### TSK -/
def TSK_SEL_TASK : Fld := ⟨0x40, 1, 0, 0, 10, .rw, .atOnce, 0, [], [], false⟩
def TSK_TENTRYL_ENTRY : Fld := ⟨0x44, 1, 0, 1, 31, .rw, .atOnce, 0, [], [], false⟩
def TSK_TENTRYH_ENTRY : Fld := ⟨0x48, 1, 0, 0, 8, .rw, .atOnce, 0, [], [], false⟩
def TSK_TARGL_ARG : Fld := ⟨0x4C, 1, 0, 0, 32, .rw, .atOnce, 0, [], [], false⟩
def TSK_TARGH_ARG : Fld := ⟨0x50, 1, 0, 0, 32, .rw, .atOnce, 0, [], [], false⟩
def TSK_TCFG_PRIO : Fld := ⟨0x54, 1, 0, 0, 5, .rw, .atOnce, 0, [], [], false⟩
def TSK_TCFG_AFFINITY : Fld := ⟨0x54, 1, 0, 8, 4, .rw, .atOnce, 15, [], [], false⟩
def TSK_TCFG_EN : Fld := ⟨0x54, 1, 0, 12, 1, .rw, .atOnce, 0, [], [], false⟩
def TSK_TSTAT_STATE : Fld := ⟨0x58, 1, 0, 0, 3, .ro, .status, 0, [], [], false⟩
def TSK_TSTAT_REPOST : Fld := ⟨0x58, 1, 0, 3, 1, .ro, .status, 0, [], [], false⟩
def TSK_TSTAT_CORE : Fld := ⟨0x58, 1, 0, 4, 2, .ro, .status, 0, [], [], false⟩
def TSK_TSTAT_POSTCNT : Fld := ⟨0x58, 1, 0, 8, 8, .ro, .status, 0, [], [], false⟩
def TSK_POST_TASK : Fld := ⟨0x5C, 1, 0, 0, 10, .wo, .atOnce, 0, [], [], false⟩
def TSK_DELAYTIME_TIME : Fld := ⟨0x60, 1, 0, 0, 32, .rw, .atOnce, 0, [], [], false⟩
def TSK_DELAYGO_TASK : Fld := ⟨0x64, 1, 0, 0, 10, .wo, .atOnce, 0, [], [], false⟩
def TSK_DELAYGO_ABS : Fld := ⟨0x64, 1, 0, 16, 1, .wo, .atOnce, 0, [], [], false⟩
def TSK_CANCEL_TASK : Fld := ⟨0x68, 1, 0, 0, 10, .wo, .atOnce, 0, [], [], false⟩
def TSK_QSTAT_FILL : Fld := ⟨0x6C, 1, 0, 0, 7, .ro, .status, 0, [], [], false⟩
def TSK_QSTAT_DELAYED : Fld := ⟨0x6C, 1, 0, 16, 11, .ro, .status, 0, [], [], false⟩
def TSK_NEXTREL_ST : Fld := ⟨0x70, 1, 0, 0, 32, .ro, .status, 0, [], [], false⟩
def TSK_ABANDON_TASK : Fld := ⟨0x74, 1, 0, 0, 10, .ro, .status, 0, [], [], false⟩
def TSK_st_FRAMES : Fld := ⟨0x800, 1, 0, 0, 32, .ro, .latch, 0, [], [], false⟩
def TSK_st_POSTS : Fld := ⟨0x804, 1, 0, 0, 32, .ro, .latch, 0, [], [], false⟩
def TSK_st_RELEASES : Fld := ⟨0x808, 1, 0, 0, 32, .ro, .latch, 0, [], [], false⟩
def TSK_st_TAKES : Fld := ⟨0x80C, 1, 0, 0, 32, .ro, .latch, 0, [], [], false⟩
def TSK_st_DONES : Fld := ⟨0x810, 1, 0, 0, 32, .ro, .latch, 0, [], [], false⟩
def TSK_st_REPOSTS : Fld := ⟨0x814, 1, 0, 0, 32, .ro, .latch, 0, [], [], false⟩
def TSK_st_BADPOST : Fld := ⟨0x818, 1, 0, 0, 32, .ro, .latch, 0, [], [], false⟩
def TSK_st_FULLWAITS : Fld := ⟨0x81C, 1, 0, 0, 32, .ro, .latch, 0, [], [], false⟩
def TSK_st_POSTDROP : Fld := ⟨0x820, 1, 0, 0, 32, .ro, .latch, 0, [], [], false⟩
def TSK_st_QPEAK : Fld := ⟨0x824, 1, 0, 0, 7, .ro, .latch, 0, [], [], false⟩
/-- The fields of the TSK page type. -/
def rowsTSK : List Fld :=
  [TSK_SEL_TASK, TSK_TENTRYL_ENTRY, TSK_TENTRYH_ENTRY, TSK_TARGL_ARG, TSK_TARGH_ARG, TSK_TCFG_PRIO, TSK_TCFG_AFFINITY, TSK_TCFG_EN, TSK_TSTAT_STATE, TSK_TSTAT_REPOST, TSK_TSTAT_CORE, TSK_TSTAT_POSTCNT] ++
  [TSK_POST_TASK, TSK_DELAYTIME_TIME, TSK_DELAYGO_TASK, TSK_DELAYGO_ABS, TSK_CANCEL_TASK, TSK_QSTAT_FILL, TSK_QSTAT_DELAYED, TSK_NEXTREL_ST, TSK_ABANDON_TASK, TSK_st_FRAMES, TSK_st_POSTS, TSK_st_RELEASES] ++
  [TSK_st_TAKES, TSK_st_DONES, TSK_st_REPOSTS, TSK_st_BADPOST, TSK_st_FULLWAITS, TSK_st_POSTDROP, TSK_st_QPEAK]

/-! ### PMU -/
def PMU_STATECTL_REQ : Fld := ⟨0x40, 1, 0, 0, 2, .wo, .atOnce, 0, [], [], false⟩
def PMU_STATE : Fld := ⟨0x44, 1, 0, 0, 2, .ro, .status, 0, [], [], false⟩
def PMU_STATE_TRANS : Fld := ⟨0x44, 1, 0, 4, 1, .ro, .status, 0, [], [], false⟩
def PMU_WAKEEN_EN : Fld := ⟨0x48, 1, 0, 0, 4, .rw, .atOnce, 1, [], [], false⟩
def PMU_WAKECAUSE_SOURCE : Fld := ⟨0x4C, 1, 0, 0, 4, .ro, .status, 0, [], [], false⟩
def PMU_WAKECAUSE_POWERON : Fld := ⟨0x4C, 1, 0, 8, 1, .ro, .status, 1, [], [], false⟩
def PMU_WAKECAUSE_THERMTRIP : Fld := ⟨0x4C, 1, 0, 9, 1, .ro, .status, 0, [], [], false⟩
def PMU_WAKECFG_POL : Fld := ⟨0x50, 1, 0, 0, 1, .rw, .atOnce, 0, [], [], false⟩
def PMU_ALARM_SEC : Fld := ⟨0x54, 1, 0, 0, 32, .rw, .atOnce, 0, [], [], false⟩
def PMU_RTCL_RTC : Fld := ⟨0x58, 1, 0, 0, 32, .ro, .status, 0, [], [], false⟩
def PMU_RTCH_RTC : Fld := ⟨0x5C, 1, 0, 0, 16, .ro, .status, 0, [], [], false⟩
def PMU_DOMREQ_REQ : Fld := ⟨0x60, 1, 0, 0, 16, .rw, .atOnce, 65535, [], [], false⟩
def PMU_DOMEFF_ON : Fld := ⟨0x64, 1, 0, 0, 16, .ro, .status, 3, [], [], false⟩
def PMU_SEQ_UPGAP : Fld := ⟨0x68, 1, 0, 0, 8, .rw, .atOnce, 2, [(1, 255)], [], false⟩
def PMU_SEQ_DNGAP : Fld := ⟨0x68, 1, 0, 8, 8, .rw, .atOnce, 1, [(1, 255)], [], false⟩
def PMU_SEQ_PGWAIT : Fld := ⟨0x68, 1, 0, 16, 8, .rw, .atOnce, 10, [(1, 255)], [], false⟩
def PMU_GOV_EN : Fld := ⟨0x6C, 1, 0, 0, 1, .rw, .atOnce, 1, [], [], false⟩
def PMU_GOV_COUNT : Fld := ⟨0x6C, 1, 0, 8, 5, .ro, .status, 0, [], [], false⟩
def PMU_GOV_SLACK : Fld := ⟨0x6C, 1, 0, 16, 10, .ro, .status, 0, [], [], false⟩
def PMU_VLIM_VMIN : Fld := ⟨0x70, 1, 0, 0, 10, .rw, .atOnce, 620, [], [], false⟩
def PMU_VLIM_VMAX : Fld := ⟨0x70, 1, 0, 16, 10, .rw, .atOnce, 880, [], [], false⟩
def PMU_VSET : Fld := ⟨0x74, 1, 0, 0, 10, .rw, .atOnce, 750, [(620, 880)], [], false⟩
def PMU_VNOW : Fld := ⟨0x78, 1, 0, 0, 10, .ro, .status, 750, [], [], false⟩
def PMU_PMBUS_ADDR : Fld := ⟨0x7C, 1, 0, 0, 7, .rw, .atOnce, 64, [], [], false⟩
def PMU_PMBUS_SPEED : Fld := ⟨0x7C, 1, 0, 8, 1, .rw, .atOnce, 1, [], [], false⟩
def PMU_PMBUS_PEC : Fld := ⟨0x7C, 1, 0, 9, 1, .rw, .atOnce, 0, [], [], false⟩
def PMU_PMBUS_EXP : Fld := ⟨0x7C, 1, 0, 16, 5, .ro, .status, 0, [], [], false⟩
def PMU_VMEAS_VALUE : Fld := ⟨0x80, 1, 0, 0, 16, .ro, .status, 0, [], [], false⟩
def PMU_IMEAS_VALUE : Fld := ⟨0x84, 1, 0, 0, 16, .ro, .status, 0, [], [], false⟩
def PMU_RTEMP_VALUE : Fld := ⟨0x88, 1, 0, 0, 16, .ro, .status, 0, [], [], false⟩
def PMU_PMBSTAT_STATUS : Fld := ⟨0x8C, 1, 0, 0, 16, .ro, .status, 0, [], [], false⟩
def PMU_THERM_TWARN : Fld := ⟨0x90, 1, 0, 0, 8, .rw, .atOnce, 100, [(60, 105)], [], false⟩
def PMU_THERM_WARN : Fld := ⟨0x90, 1, 0, 8, 1, .ro, .status, 0, [], [], false⟩
def PMU_THERM_CRIT : Fld := ⟨0x90, 1, 0, 9, 1, .ro, .status, 0, [], [], false⟩
def PMU_LIFESTAT_LIFEUSED : Fld := ⟨0x94, 1, 0, 0, 20, .ro, .status, 0, [], [], false⟩
def PMU_LIFESTAT_LOST : Fld := ⟨0x94, 1, 0, 31, 1, .ro, .status, 0, [], [], false⟩
def PMU_st_FRAMES : Fld := ⟨0x800, 1, 0, 0, 32, .ro, .latch, 0, [], [], false⟩
def PMU_st_RAISES : Fld := ⟨0x804, 1, 0, 0, 32, .ro, .latch, 0, [], [], false⟩
def PMU_st_LOWERS : Fld := ⟨0x808, 1, 0, 0, 32, .ro, .latch, 0, [], [], false⟩
def PMU_st_ATMAX : Fld := ⟨0x80C, 1, 0, 0, 32, .ro, .latch, 0, [], [], false⟩
def PMU_st_PMBERR : Fld := ⟨0x810, 1, 0, 0, 32, .ro, .latch, 0, [], [], false⟩
def PMU_st_MINSLACK : Fld := ⟨0x814, 1, 0, 0, 10, .ro, .latch, 0, [], [], false⟩
def PMU_st_MAXTJ : Fld := ⟨0x818, 1, 0, 0, 16, .ro, .latch, 0, [], [], false⟩
/-- The fields of the PMU page type. -/
def rowsPMU : List Fld :=
  [PMU_STATECTL_REQ, PMU_STATE, PMU_STATE_TRANS, PMU_WAKEEN_EN, PMU_WAKECAUSE_SOURCE, PMU_WAKECAUSE_POWERON, PMU_WAKECAUSE_THERMTRIP, PMU_WAKECFG_POL, PMU_ALARM_SEC, PMU_RTCL_RTC, PMU_RTCH_RTC, PMU_DOMREQ_REQ] ++
  [PMU_DOMEFF_ON, PMU_SEQ_UPGAP, PMU_SEQ_DNGAP, PMU_SEQ_PGWAIT, PMU_GOV_EN, PMU_GOV_COUNT, PMU_GOV_SLACK, PMU_VLIM_VMIN, PMU_VLIM_VMAX, PMU_VSET, PMU_VNOW, PMU_PMBUS_ADDR] ++
  [PMU_PMBUS_SPEED, PMU_PMBUS_PEC, PMU_PMBUS_EXP, PMU_VMEAS_VALUE, PMU_IMEAS_VALUE, PMU_RTEMP_VALUE, PMU_PMBSTAT_STATUS, PMU_THERM_TWARN, PMU_THERM_WARN, PMU_THERM_CRIT, PMU_LIFESTAT_LIFEUSED, PMU_LIFESTAT_LOST] ++
  [PMU_st_FRAMES, PMU_st_RAISES, PMU_st_LOWERS, PMU_st_ATMAX, PMU_st_PMBERR, PMU_st_MINSLACK, PMU_st_MAXTJ]

/-! ### BOOT -/
def BOOT_STATUS : Fld := ⟨0x40, 1, 0, 0, 32, .ro, .status, 0, [], [], false⟩
def BOOT_CTL_CONFIRM : Fld := ⟨0x44, 1, 0, 0, 1, .wo, .atOnce, 0, [], [], false⟩
def BOOT_CTL_RESTART : Fld := ⟨0x44, 1, 0, 1, 1, .wo, .atOnce, 0, [], [], false⟩
def BOOT_CTL_COLD : Fld := ⟨0x44, 1, 0, 2, 1, .wo, .atOnce, 0, [], [], false⟩
def BOOT_CFG_WAITFAB : Fld := ⟨0x48, 1, 0, 0, 1, .rw, .atOnce, 0, [], [], false⟩
def BOOT_CFG_FWGATE : Fld := ⟨0x48, 1, 0, 1, 1, .rw, .atOnce, 0, [], [], false⟩
def BOOT_CFG_FABWAIT : Fld := ⟨0x48, 1, 0, 16, 16, .rw, .atOnce, 2000, [(100, 60000)], [], false⟩
def BOOT_CONFIRMWIN_MS : Fld := ⟨0x4C, 1, 0, 0, 16, .rw, .atOnce, 10000, [(100, 60000)], [], false⟩
def BOOT_WDOG_TIMEOUT : Fld := ⟨0x50, 1, 0, 0, 16, .rw, .atOnce, 0, [(0, 0), (10, 60000)], [], false⟩
def BOOT_WDKICK_KEY : Fld := ⟨0x54, 1, 0, 0, 32, .wo, .atOnce, 0, [], [], false⟩
def BOOT_READY : Fld := ⟨0x58, 1, 0, 0, 1, .wo, .atOnce, 0, [], [], false⟩
def BOOT_FWVER : Fld := ⟨0x5C, 1, 0, 0, 32, .ro, .status, 0, [], [], false⟩
def BOOT_SETINFO_SCHEMA : Fld := ⟨0x60, 1, 0, 0, 16, .ro, .status, 0, [], [], false⟩
def BOOT_SETINFO_SLOT : Fld := ⟨0x60, 1, 0, 16, 2, .ro, .status, 2, [], [], false⟩
def BOOT_SETINFO_SKIPPED : Fld := ⟨0x60, 1, 0, 20, 12, .ro, .status, 0, [], [], false⟩
def BOOT_SETGEN_GEN : Fld := ⟨0x64, 1, 0, 0, 32, .ro, .status, 0, [], [], false⟩
def BOOT_FWDATA_OFFSET : Fld := ⟨0x68, 1, 0, 0, 24, .ro, .status, 0, [], [], false⟩
def BOOT_FWDATALEN_LEN : Fld := ⟨0x6C, 1, 0, 0, 20, .ro, .status, 0, [], [], false⟩
def BOOT_FAIL_COUNT : Fld := ⟨0x70, 1, 0, 0, 4, .ro, .status, 0, [], [], false⟩
def BOOT_FAIL_CLEAR : Fld := ⟨0x70, 1, 0, 8, 1, .wo, .atOnce, 0, [], [], false⟩
def BOOT_STRAPS : Fld := ⟨0x74, 1, 0, 0, 8, .ro, .status, 0, [], [], false⟩
def BOOT_KEYS_PRESENT : Fld := ⟨0x78, 1, 0, 0, 4, .ro, .status, 0, [], [], false⟩
def BOOT_KEYS_REVOKED : Fld := ⟨0x78, 1, 0, 4, 4, .ro, .status, 0, [], [], false⟩
def BOOT_KEYS_USED : Fld := ⟨0x78, 1, 0, 8, 2, .ro, .status, 0, [], [], false⟩
def BOOT_KEYREVOKE_REVOKE : Fld := ⟨0x7C, 1, 0, 0, 4, .wo, .atOnce, 0, [], [], false⟩
def BOOT_JOURNAL_STATE : Fld := ⟨0x80, 1, 0, 0, 2, .ro, .status, 0, [], [], false⟩
def BOOT_JOURNAL_NEXT : Fld := ⟨0x80, 1, 0, 8, 23, .ro, .status, 0, [], [], false⟩
def BOOT_st_FRAMES : Fld := ⟨0x800, 1, 0, 0, 32, .ro, .latch, 0, [], [], false⟩
def BOOT_st_WDKICKS : Fld := ⟨0x804, 1, 0, 0, 32, .ro, .latch, 0, [], [], false⟩
/-- The fields of the BOOT page type. -/
def rowsBOOT : List Fld :=
  [BOOT_STATUS, BOOT_CTL_CONFIRM, BOOT_CTL_RESTART, BOOT_CTL_COLD, BOOT_CFG_WAITFAB, BOOT_CFG_FWGATE, BOOT_CFG_FABWAIT, BOOT_CONFIRMWIN_MS, BOOT_WDOG_TIMEOUT, BOOT_WDKICK_KEY, BOOT_READY, BOOT_FWVER] ++
  [BOOT_SETINFO_SCHEMA, BOOT_SETINFO_SLOT, BOOT_SETINFO_SKIPPED, BOOT_SETGEN_GEN, BOOT_FWDATA_OFFSET, BOOT_FWDATALEN_LEN, BOOT_FAIL_COUNT, BOOT_FAIL_CLEAR, BOOT_STRAPS, BOOT_KEYS_PRESENT, BOOT_KEYS_REVOKED, BOOT_KEYS_USED] ++
  [BOOT_KEYREVOKE_REVOKE, BOOT_JOURNAL_STATE, BOOT_JOURNAL_NEXT, BOOT_st_FRAMES, BOOT_st_WDKICKS]

/-! ### SVC -/
def SVC_CFG_RATE : Fld := ⟨0x40, 1, 0, 0, 2, .rw, .atOnce, 0, [], [], false⟩
def SVC_CFG_ATTNEN : Fld := ⟨0x40, 1, 0, 4, 1, .rw, .atOnce, 1, [], [], false⟩
def SVC_ADDR : Fld := ⟨0x44, 1, 0, 0, 5, .ro, .status, 0, [], [], false⟩
def SVC_ATTN_FORCE : Fld := ⟨0x48, 1, 0, 0, 1, .rw, .atOnce, 0, [], [], false⟩
def SVC_ATTN_ACK : Fld := ⟨0x48, 1, 0, 1, 1, .wo, .atOnce, 0, [], [], false⟩
def SVC_ATTN_OUT : Fld := ⟨0x48, 1, 0, 8, 1, .ro, .status, 0, [], [], false⟩
def SVC_ATTN_LINE : Fld := ⟨0x48, 1, 0, 9, 1, .ro, .status, 0, [], [], false⟩
def SVC_LAST_OP : Fld := ⟨0x4C, 1, 0, 0, 8, .ro, .status, 0, [], [], false⟩
def SVC_LAST_SEQ : Fld := ⟨0x4C, 1, 0, 8, 8, .ro, .status, 0, [], [], false⟩
def SVC_LAST_STATUS : Fld := ⟨0x4C, 1, 0, 16, 8, .ro, .status, 0, [], [], false⟩
def SVC_st_FRAMES : Fld := ⟨0x800, 1, 0, 0, 32, .ro, .latch, 0, [], [], false⟩
def SVC_st_REQUESTS : Fld := ⟨0x804, 1, 0, 0, 32, .ro, .latch, 0, [], [], false⟩
def SVC_st_CRCERR : Fld := ⟨0x808, 1, 0, 0, 32, .ro, .latch, 0, [], [], false⟩
def SVC_st_BCAST : Fld := ⟨0x80C, 1, 0, 0, 32, .ro, .latch, 0, [], [], false⟩
def SVC_st_BENCHPROG : Fld := ⟨0x810, 1, 0, 0, 32, .ro, .latch, 0, [], [], false⟩
/-- The fields of the SVC page type. -/
def rowsSVC : List Fld :=
  [SVC_CFG_RATE, SVC_CFG_ATTNEN, SVC_ADDR, SVC_ATTN_FORCE, SVC_ATTN_ACK, SVC_ATTN_OUT, SVC_ATTN_LINE, SVC_LAST_OP, SVC_LAST_SEQ, SVC_LAST_STATUS, SVC_st_FRAMES, SVC_st_REQUESTS] ++
  [SVC_st_CRCERR, SVC_st_BCAST, SVC_st_BENCHPROG]

end F

end Sys2Proof.Machine
end

