-- ==== Sys2Proof/Machine/State.lean ====
section
/-!
DEFINITION. The state of a CZ9600 as plain data: its register file, its memories and every piece of hidden
state the chapters of the manual name, its reset value, and the reasons a step can stop.
-/
namespace Sys2Proof.Machine
open Sys2Proof

/-! ### Outputs -/

/-- What the device sends out, or answers, during one command: bus answers (R6, R10), pin levels, frames, courses and packets. -/
inductive Out where
  /-- A read completed with this register value. -/
  | readData (v : Word)
  /-- A read of memory completed with these bytes. -/
  | memData (tag : Nat) (b : List Byte)
  /-- A write completed. -/
  | writeDone
  /-- The access ended with a bus error (R6, R10, R417). -/
  | busError
  /-- A port of an arbiter was answered RETRY with this count (R434). -/
  | retry (port count : Nat)
  /-- A pin was driven to a level at an instant, or released. The instant is an ST value and a 1/16 ns part, and `tap` is the physical tap that
  the pin's remapping table names for that part (R228). -/
  | pin (pin : Nat) (level : Bool) (st : Word) (frac tap : Nat)
  /-- A pin became high-impedance. -/
  | pinFloat (pin : Nat)
  /-- A named ball changed its driven level. -/
  | ball (name : String) (level : Bool)
  /-- A named ball became high-impedance. -/
  | ballFloat (name : String)
  /-- The base page that an Ethernet port advertised under Clause 37 (R280). -/
  | ethAdvert (port : Nat) (page : Word)
  /-- A frame sync pulse that the node drives on a TDM port (R254): its edge on the FT sample grid, its active level and its bit clocks. -/
  | tdmSync (port t : Nat) (high : Bool) (bits : Nat)
  /-- A frame left an Ethernet port. -/
  | ethFrame (port : Nat) (b : List Byte)
  /-- A frame cut off on a port's line with an invalid FCS (R311). -/
  | ethCut (port : Nat) (b : List Byte)
  /-- A course left a lane of a Brura port: its 1,120 symbol indices (R322). -/
  | course (port lane : Nat) (symbols : List Nat)
  /-- A bundle was handed to the fabric towards a port. -/
  | bundle (port : Nat) (b : List Byte)
  /-- AIR_CLK runs at 1,000/`clkDiv` MHz (R392). -/
  | airClock (clkDiv : Nat)
  /-- A packet left on AIR_D0 to AIR_D3, one nibble for each clock of 1,000/`clkDiv` MHz (R392, R393); `ends` is the instant in 2^-16 ns of FT at
  which its last nibble ends, where the manual gives one (R405). -/
  | airNibbles (clkDiv : Nat) (nibbles : List Nat) (ends : Option Int)
  /-- An edge on a named ball that an edge placer places at an instant, in 1/16 ns of FT (R396). -/
  | ballAt (name : String) (level : Bool) (t : Int)
  /-- A PMBus transaction left the device (R521). -/
  | pmbus (b : List Byte)
  /-- A frame left the service port (R549). -/
  | svcFrame (b : List Byte)
  /-- Bits shifted out of the TAP (R575). -/
  | tdo (bits : List Bool)
  /-- The bytes of an RDM request or a DMX packet as they leave the line. -/
  | line (port : Nat) (b : List Byte)
  deriving DecidableEq, Repr

/-! ### Memories and the deadline arbiter (chapter 13) -/

/-- One burst request at an arbiter (R428): its port, its burst, what it writes, its deadline and its arrival; `fore` says that it was first
presented in forerunner mode (R434), `loose` that a mask has cleared its port's same-burst order since (R435). -/
structure ArbReq where
  port : Nat
  off : Nat
  len : Nat
  data : Option (List Byte)
  deadline : Word
  own : Bool
  arrival : Word
  tag : Nat
  fore : Bool := false
  loose : Bool := false
  deriving DecidableEq, Repr

/-- What an arbiter holds for one port: the rounds waited towards a reserved grant (R432), and in forerunner mode
(R434) the RETRY count, the rounds still to sit out and the request that sits them out. -/
structure ArbPort where
  waited : Nat := 0
  retry : Nat := 1
  sitOut : Nat := 0
  parked : Option ArbReq := none
  /-- The presented request whose handshake an empty entry still withholds (R431). -/
  held : Option ArbReq := none
  deriving DecidableEq, Repr

/-- One arbiter: the requests presented since the last round, the pending queue of R431 and its ports. -/
structure Arb where
  fresh : List ArbReq := []
  queue : List ArbReq := []
  ports : List ArbPort := List.replicate 24 {}
  deriving DecidableEq, Repr

/-- An MRAM program (R423, R425). -/
structure NvmProg where
  off : Nat
  data : List Byte
  agent : Nat
  internal : Bool
  deriving DecidableEq, Repr

/-- An armed error injection (R437). -/
structure Injection where
  double : Bool
  sram : Bool
  word : Nat
  deriving DecidableEq, Repr

/-- The memories' hidden state: bits in error per ECC word and per MRAM codeword, the armed injection, the
program in progress with those queued behind it, the scrubber's place and both arbiters. -/
structure MemState where
  /-- ECC words in error: (address of the word, number of bits in error), strictly rising. -/
  ecc : List (Nat × Nat) := []
  /-- MRAM codewords in error: (codeword offset, bits in error). -/
  mramErr : List (Nat × Nat) := []
  inject : Option Injection := none
  nvmBuf : List (Nat × Byte) := []
  prog : Option NvmProg := none
  progQ : List NvmProg := []
  scrub : Nat := 0
  arb : List Arb := [{}, {}]
  /-- The configured fixture instances, each with the FT at which it became configured (R137, R148, R151). -/
  conf : List (Nat × Nat) := []
  deriving DecidableEq, Repr

/-! ### Control cores, event controller and task scheduler (chapter 15) -/

/-- The states of a core (R473). -/
inductive CoreMode where
  | reset | run | idle | sleep | halt
  deriving DecidableEq, Repr

/-- The privilege modes of a core (R468). -/
inductive Priv where
  | user | machine
  deriving DecidableEq, Repr

/-- An event frame (R479): the context saved at entry, with the vector in service in it and the COUNT taken at its entry. -/
structure EvFrame where
  pc : Dword
  priv : Priv
  cl : Nat
  vector : Nat
  count : Nat
  deriving DecidableEq, Repr

/-- The machine-mode registers of the privileged architecture that R468 leaves a core with. -/
structure Csrs where
  mstatus : Dword := 0
  mtvec : Dword := 0
  mepc : Dword := 0
  mcause : Dword := 0
  mtval : Dword := 0
  mscratch : Dword := 0
  mcounteren : Dword := 0
  mcycle : Dword := 0
  minstret : Dword := 0
  pmpcfg : List Byte := List.replicate 8 0
  pmpaddr : List Dword := List.replicate 8 0
  deriving DecidableEq, Repr

/-- One core: its integer registers x1 to x31, pc, privilege, CSRs, reservation, instruction cache, event frames and tasks. -/
structure Core where
  mode : CoreMode := .reset
  x : List Dword := List.replicate 31 0
  pc : Dword := 0
  /-- Address of the last instruction retired, for `PCSAMPLE` (R492). -/
  lastPc : Dword := 0
  priv : Priv := .machine
  csr : Csrs := {}
  /-- The granule reserved by LR, as its address divided by 64 (R469). -/
  reserved : Option Nat := none
  /-- Lines of the instruction cache: (address divided by 64, bytes), newest first (R469). -/
  icache : List (Nat × List Byte) := []
  frames : List EvFrame := []
  cl : Nat := 0
  /-- The vector presented whose vector fetch has not completed (R479). -/
  entry : Option Nat := none
  /-- The entry under way is a chained one (R481). -/
  chaining : Bool := false
  dtcfg : Bool := false
  dtthresh : Nat := 0
  dtvbase : Nat := 0
  dttcmp : Word := 0
  /-- Running tasks, innermost first (R486). -/
  running : List Nat := []
  drawer : Option Nat := none
  /-- The core stalls on a post whose handshake is withheld (R490). -/
  stalled : Bool := false
  /-- STANDBY was written while the core slept; it halts once woken (R473). -/
  haltOnWake : Bool := false
  /-- The controller has asked for a wake that has not completed (R483). -/
  wakeAsked : Bool := false
  deriving DecidableEq, Repr

/-- The states of a task (R487). -/
inductive TaskMode where
  | idle | ready | drawn | running | delayed
  deriving DecidableEq, Repr

/-- One task (R486, R487). -/
structure Task where
  entry : BitVec 40 := 0
  arg : Dword := 0
  prio : Nat := 0
  affinity : BitVec 4 := 15
  en : Bool := false
  mode : TaskMode := .idle
  repost : Bool := false
  postcnt : Nat := 0
  core : Nat := 0
  deriving DecidableEq, Repr

/-- The scheduler: tasks that differ from their reset value, the ready order, the delay list, the post queue and
the posts whose handshake is withheld (task, and its writer's agent code less 1, none for a DMA channel's). -/
structure TskState where
  tasks : List (Nat × Task) := []
  ready : List Nat := []
  delayed : List (Nat × Word) := []
  posts : List Nat := []
  waiting : List (Nat × Option Nat) := []
  deriving DecidableEq, Repr

/-- The external inputs of the event controller: the level last accepted at EXT0 to EXT7 (R484). -/
structure EvcState where
  extLevel : List Bool := List.replicate 8 false
  deriving DecidableEq, Repr

/-! ### Fabric time (chapter 2) and the dovetail commit (chapter 3) -/

/-- The servo's states (R36). -/
inductive Servo where
  | free | acquire | locked | holdover
  deriving DecidableEq, Repr

/-- The phase tracker's states (R54). -/
inductive Tracker where
  | epoch | seek | track | hold
  deriving DecidableEq, Repr

/-- One time trigger (R56, R57): the ST of its next instant while it is armed, the last it fired since enable, the task whose post its
target has yet to accept, and for FRAME the offset and K of the frame with the instants fired in it. -/
structure Trig where
  next : Option Word := none
  last : Option Word := none
  busy : Option Nat := none
  offset : Nat := 0
  k : Nat := 0
  idx : Nat := 0
  deriving DecidableEq, Repr

/-- The data set an Announce carries, in the order in which IEEE 1588-2019 compares it. -/
structure PtpMaster where
  prio1 : Nat
  cls : Nat
  accuracy : Nat
  variance : Nat
  prio2 : Nat
  identity : Nat
  steps : Nat
  /-- The sourcePortIdentity that announces it. -/
  source : Nat
  deriving DecidableEq, Repr

/-- The ordinary clock of R45: its port state, its master, and the exchange in flight. -/
structure PtpState where
  master : Option PtpMaster := none
  isMaster : Bool := false
  syncSeq : Nat := 0
  /-- Two-step Sync awaiting its Follow_Up: sequence, receive time and correction. -/
  await : Option (Nat × Int × Int) := none
  /-- t2 − t1 of the last Sync, corrected, 2^-16 ns. -/
  down : Option Int := none
  /-- The Delay_Req in flight: sequence and departure time. -/
  req : Option (Nat × Int) := none
  reqSeq : Nat := 0
  /-- The mean path delay in force, 2^-16 ns. -/
  delay : Option Int := none
  annSeq : Nat := 0
  deriving DecidableEq, Repr

/-- The time base, the servo, the frame cycle and the triggers. -/
structure TimeState where
  /-- FT in units of 2^-16 ns since the PTP epoch (R29). -/
  ft : Nat := 0
  /-- The accumulator of 32 bits below the FT fraction. -/
  acc : Nat := 0
  /-- The correction in force, 2^-8 ppb (R32). -/
  corr : Int := 0
  /-- The correction the servo wants while R40 slews it. -/
  goal : Int := 0
  /-- The integral term of the frequency loop (R36), 2^-8 ppb. -/
  integ : Rat := 0
  servo : Servo := .free
  holdFreq : Option Int := none
  /-- Segments of time spent in LOCKED, newest first: (duration in 2^-16 ns, correction), at most 64 s. -/
  lockLog : List (Nat × Int) := []
  /-- FT at which the present correction or the present state began. -/
  segStart : Nat := 0
  lockRun : Nat := 0
  unlockRun : Nat := 0
  /-- The FT of the last measurement. -/
  lastMeas : Option Nat := none
  /-- The first PTP measurement of a new lead path is discarded (R45), and the first Brura one of a new time parent (R374). -/
  discardPtp : Bool := false
  discardBru : Bool := false
  /-- The source that AUTO last resolved to (R35). -/
  autoSrc : Nat := 1
  /-- ACQWAIT has passed since the start, in FREE or ACQUIRE (R43). -/
  acqDone : Bool := false
  everLocked : Bool := false
  heldStep : Option Int := none
  /-- The frame in progress and the sequence counter (R49). -/
  fn : Nat := 0
  seq : Word := 0
  /-- ST of the most recent FS (R62). -/
  fsAt : Word := 0
  /-- FT of the most recent FS, moved by each step of FT (R60). -/
  fsFt : Nat := 0
  /-- FS of the frame in progress as the grid gave it (R47, R48), in units of 2^-16 ns. -/
  fsGrid : Nat := 0
  /-- Between T_end and FS(M): the FN M that starts next (R59). -/
  gapM : Option Nat := none
  /-- The counter of the last frame that ended at a T_end, with the FT of that instant (R59). -/
  ended : Option (Word × Nat) := none
  /-- The latch offsets, in ns, that were in force before the last FS: those of the frame that it ended (R51). -/
  offPrev : List Nat := []
  /-- The frame periods, in 1/16 ns, of the modes of the frame in progress and of the one before. -/
  perNow : Rat := 0
  perPrev : Rat := 0
  /-- LATCFG of each latch group before the last FS: it governs the pulse at the latch of the frame that it ended (R179). -/
  latPrev : List Word := []
  /-- The first latch of a gap has still to cover from T_end (R88). -/
  phi : Nat := 0
  track : Tracker := .epoch
  /-- Phase samples, newest first, at most 8 (R53). -/
  samples : List Nat := []
  lastRef : Option Nat := none
  refMatch : Nat := 0
  refMiss : Nat := 0
  /-- Re-phase requested at the next T_end, with its target phase (R54). -/
  rephase : Option Nat := none
  trig : List Trig := List.replicate 16 {}
  ppsHigh : Bool := false
  ptp : PtpState := {}
  /-- The last ST 2059-2 TLV received, at most 64 bytes (R65). -/
  tlv : List Byte := []
  deriving DecidableEq, Repr

/-- The commit's states (R83). -/
inductive CmtMode where
  | idle | checking | armed | locked
  deriving DecidableEq, Repr

/-- The staging set's owner and the commit under way (R77, R83). -/
structure CmtState where
  owner : Nat := 0
  mode : CmtMode := .idle
  /-- The target FN and whether it is F′ (R83). -/
  target : Nat := 0
  late : Bool := false
  latePol : Bool := false
  arming : Nat := 0
  disarmPending : Bool := false
  /-- An armed commit whose cutoff came before E was fixed: it is re-targeted to E (R533). -/
  waitE : Bool := false
  /-- Statistics hold: latches still suppressed, latches suppressed so far (R87). -/
  holdLeft : Nat := 0
  held : Nat := 0
  /-- Frames since the last latch that was not suppressed. -/
  frames : Nat := 0
  deriving DecidableEq, Repr


/-! ### Canvas (chapter 4) and colour (chapter 5) -/

/-- A unit of content that an ingress converter puts into a buffer (R107). -/
structure Filling where
  /-- The source that fills it (R104). -/
  src : Nat
  stamp : Nat
  /-- Its buffer, none once the unit is dropped (R107). -/
  buf : Option Nat
  /-- The quarters of a tile set that have arrived (R113). -/
  got : List Nat := []
  /-- The pixels of a video frame that have arrived, by row, and its packets: the least and the greatest number, how many, and the
  number of the one with the marker bit (R111). -/
  rows : List (Nat × Nat) := []
  lo : Nat := 0
  hi : Nat := 0
  count : Nat := 0
  last : Option Nat := none
  /-- The run that begins the frame, at row 0 and column 0, has arrived. -/
  origin : Bool := false
  deriving DecidableEq, Repr

/-- One veneer: the buffer it last took and its stamp, the window FOLLOW stays on, the complete buffers with their stamps, newest
first, whether it is transparent after a missed fetch, and what its converter is filling. -/
structure Ven where
  taken : Option Nat := none
  stamp : Nat := 0
  window : Option (Nat × Nat) := none
  complete : List (Nat × Nat) := []
  missed : Bool := false
  /-- The units being filled, and those dropped whose remaining parts are still to come. -/
  units : List Filling := []
  /-- The universes of the snapshot being rendered (R112): universe, slots, fresh. -/
  snap : List (Nat × List Byte × Bool) := []
  /-- A frame of sACN data was dropped, so that the next snapshot is not made complete (R499). -/
  lost : Bool := false
  /-- The numbers of the packets with the marker bit that last arrived, newest first (R111). -/
  ends : List Nat := []
  deriving DecidableEq, Repr

/-- What a rectangle of the square check holds (R126, R127): what its ports have reported of frames not yet judged, and the last result with its FN and
CRC. -/
structure Rect where
  /-- EXPECT of runs of frames, the newest first: the first and the last FN of a run, and its value (R126). -/
  exps : List (Nat × Nat × Nat) := []
  /-- A frame, a port, and the port's bits or that it skipped (1) or was overridden (2). -/
  got : List (Nat × Nat × Nat × List Bool) := []
  result : Nat := 0
  resFn : Nat := 0
  crc : Word := 0
  deriving DecidableEq, Repr

/-- The colour engine: the state records in force, by instance, each with the FT since when it is; those the last sweep wrote, and the FT of
that sweep; and the profile cache, most recently used first, with each block's size (R149 to R151, R160). -/
structure ColState where
  applied : List (Nat × List Byte) := []
  formed : List (Nat × Nat) := []
  swept : Option (List (Nat × List Byte)) := none
  sweptAt : Nat := 0
  cache : List (Nat × Nat) := []
  deriving DecidableEq, Repr

/-! ### Edge placers, strand ports and overrides (chapter 6) -/

/-- An entry of an edge placer (R166): its instant in 1/16 ns of FT, its level at the pin, and, for an entry past on its arrival, the
instant of the arrival. -/
structure Entry where
  t : Nat
  level : Bool
  late : Option Nat := none
  deriving DecidableEq, Repr

/-- One output pin: its driven level (none: high-impedance), the instant of its last edge in 1/16 ns of FT, the placer's queue, the
edges its sequencer has still to supply, and the end of the last calibration window on it. -/
structure Pin where
  level : Option Bool := none
  last : Option Nat := none
  queue : List Entry := []
  feed : List Entry := []
  window : Option (Nat × Nat) := none
  deriving DecidableEq, Repr

/-- The stages of an RDM transaction (R201): idle, queued, the request on the line, listening, and the mark after it, with
another request queued or not. -/
inductive Rdm where
  | idle | queued | sending | listening | mark | markQueued
  deriving DecidableEq, Repr

/-- The stages of a dark-out (R185): none, due from the next latch, shown or sent, and, for DMX, its packet on the line. -/
inductive Dark where
  | none | due | showing | ending
  deriving DecidableEq, Repr

/-- One strand port: the mode and configuration taken up (R26), the preparation of the frame in progress, the frames prepared, the
shift in progress, what it shows, its holds and its transactions. -/
structure Strand where
  mode : Nat := 0
  /-- CFG, SBUF0, SBUF1, RBBASE, TBIT, T0H, T1H, ENDGAP, P0 to P3, COL.PORT and the segment's FIRST and COUNT, as taken up. -/
  cfg : List Word := []
  /-- Entries of the frame in progress that have passed the lanes, and whether one was blocked or lost (R22, R124, R27). -/
  pos : Nat := 0
  spoiled : Bool := false
  /-- Counters of the frames prepared whose latch has not fired. -/
  prep : List Word := []
  /-- The frame in shift, or the override's, with the codes sent. -/
  shifting : Bool := false
  shiftFn : Nat := 0
  /-- The instant, in 1/16 ns, at which that shift began. -/
  shiftAt : Rat := 0
  shiftOvr : Bool := false
  codes : List Nat := []
  /-- FN last skipped or sent under an override, for the square check. -/
  skipFn : Option Nat := none
  /-- The last frame taken up or sent, for the square check and the DMX packet. -/
  shownFn : Nat := 0
  /-- Codes the pattern, duties or grey-scale in force come from (R25), and the period grid: its origin and the next period's index. -/
  shown : List Nat := []
  origin : Rat := 0
  /-- The configuration it was taken up under (R26). -/
  shownCfg : List Word := []
  /-- The frame period, in 1/16 ns, of that grid. -/
  frameP : Rat := 0
  idx : Nat := 0
  dark : Dark := .none
  /-- A THERMAL hold has stopped the port in RUN or TEST, and its dark-out is still to come (R185). -/
  darkDue : Bool := false
  thermal : Bool := false
  sleep : Bool := false
  cal : Bool := false
  /-- The override state on the port, and whether it still holds its override content (R215). -/
  ovr : Option Nat := none
  ovrHold : Bool := false
  ovrEnd : Nat := 0
  ovrMark : Bool := false
  /-- The end of the override's first application, in 1/16 ns: no frame begins before it (R214). -/
  ovrUntil : Rat := 0
  /-- The counter of the last frame whose latch the port has passed (R26). -/
  latched : Option Word := none
  /-- GCLK is stopped until a frame is shown (R185, R213, R215). -/
  noScan : Bool := false
  /-- The counter of the newest prepared frame whose latch has passed, for the next DMX packet, and the FN of the frame last checked (R199, R127). -/
  dmxSeq : Option Word := none
  sqcFn : Option Nat := none
  /-- The shift that a panel last loaded is of an override state of KIND OFF (R213). -/
  shiftDark : Bool := false
  /-- The DMX packet's slots and the instant of the last break (R199). -/
  packet : List Byte := []
  lastBreak : Nat := 0
  packetEnd : Nat := 0
  rdm : Rdm := .idle
  /-- The request window at 0xC00 (bytes that are not 0) and the response of R201. -/
  rdmReq : List (Nat × Byte) := []
  rdmResp : List Byte := []
  /-- Words of the next frame whose read missed its deadline (R176), and the last switching instant served (R194). -/
  missWords : List Nat := []
  lastSwitch : Nat := 0
  /-- Read-back words of the last shift (R188), and its end. -/
  back : List Nat := []
  backFt : Option Nat := none
  deriving DecidableEq, Repr

/-- Overrides: the active states, and the level last accepted at TRIG0 to TRIG7 with the FT of its change. -/
structure OvrState where
  active : BitVec 8 := 0
  trig : List Bool := List.replicate 8 false
  /-- The FT of each state's last fire (R216). -/
  fireAt : List (Option Nat) := List.replicate 8 none
  deriving DecidableEq, Repr

/-- The frame whose latch comes next on a latch group: its FN and its sequence counter (R26); whether a pulse is in progress, the instant of its
active edge in 1/16 ns and the LATCFG it was made under (R179). -/
structure Latch where
  fn : Nat := 0
  seq : Word := 0
  high : Bool := false
  at' : Nat := 0
  cfg : Word := 0
  deriving DecidableEq, Repr

/-- The strand pins, their ports and the latch groups. -/
structure OutState where
  strands : List Strand := List.replicate 64 {}
  pins : List Pin := List.replicate 144 {}
  latch : List Latch := List.replicate 16 {}
  ovr : OvrState := {}
  sqc : List Rect := List.replicate 16 {}
  /-- Whether a frame is in preparation, the FT at which its last strand was prepared, and that of the frame before. -/
  preparing : Bool := false
  prepEnd : Option Nat := none
  deriving DecidableEq, Repr

/-! ### Calibration (chapter 7) -/

/-- The tables of one placer: the physical tap of each logical tap, and the measured widths in 1/16 ps (R228, R249). -/
structure TapTab where
  remap : List Nat
  width : List Nat
  deriving DecidableEq, Repr

/-- A run of one bank (R229 to R233): windows completed, frames deferred in a row, hits per placer and physical tap, and the tables
computed for the apply window. -/
structure CalRun where
  bank : Nat
  /-- The counter of the frame whose window was opened or deferred last: a bank takes at most one in a frame (R232). -/
  frame : Option Word := none
  windows : Nat := 0
  defers : Nat := 0
  hits : List (List Nat) := List.replicate 36 (List.replicate 32 0)
  tables : Option (List TapTab) := none
  deriving DecidableEq, Repr

/-- Calibration: the run in progress and those that wait, whether a window is open, the tables in force of the pins that differ from their
fuses, those an apply window replaced, and when each bank's were made; `turnDue`: the first turn after a warm start falls at output enable (R237). -/
structure CalState where
  run : Option CalRun := none
  waiting : List Nat := []
  turn : Nat := 3
  window : Bool := false
  tabs : List (Nat × TapTab) := []
  prev : List (Nat × TapTab) := []
  madeAt : List (Option Nat) := List.replicate 4 none
  turnDue : Bool := false
  /-- The ADC's group that converts: group, start ST, channels in order, the position of the next, and the words that correct it. -/
  conv : Option (Nat × Word × List Nat × Nat × Int × Nat) := none
  pend : Option Nat := none
  /-- A calibration of the converter is in progress, one is due at the next idle time after a warm start (R243), and it has starved. -/
  adcCal : Bool := false
  adcDue : Bool := false
  starved : Bool := false
  /-- `OFFSET` and `GAIN` of the last accepted calibration; none: the fuses'. -/
  words : Option (Int × Nat) := none
  /-- The FT at which each ADC channel's last conversion completed, and that of its sample (R148, R238). -/
  convAt : List (Option (Nat × Nat)) := List.replicate 16 none
  /-- The on-die sensor has completed a conversion since SYS came on (R148), and the FT of the last. -/
  dieAt : Option Nat := none
  deriving DecidableEq, Repr

/-! ### Sound (chapter 8) -/

/-- One input channel: its running mean (R245), the history and phase of its decimator, and its recent samples, the latest stamp first: stamp
in 2^-16 ns, value, and how many input samples at full scale it comes from. -/
structure Chan where
  mean : Rat := 0
  count : Nat := 0
  hist : List Rat := []
  odd : Bool := false
  oddClip : Nat := 0
  q : List (Nat × Rat × Nat) := []
  deriving DecidableEq, Repr

/-- One analysis bus (R257 to R260): the index of its last grid instant, the stamp of the sample each channel offered last, the samples of
the block in progress (grid index, binary32 bits, clip, gap), the filterbank, E and L, the flux history, the last onset's block, the FT at
which it was enabled, and the next SEQ. -/
structure Bus where
  idx : Option Nat := none
  taken : List (Nat × Nat) := []
  block : List (Nat × Nat × Bool × Bool) := []
  filt : List (List Int) := List.replicate 32 []
  energy : List Rat := List.replicate 32 0
  levels : List (List Rat) := []
  flux : List Rat := []
  lastOnset : Option Nat := none
  onAt : Nat := 0
  seq : Nat := 0
  /-- A packet of a stream the bus mixes is missing since the last sample (R260). -/
  gapPend : Bool := false
  deriving DecidableEq, Repr

/-- The tempo tracker (R262 to R267): its onsets, newest first (FT in 2^-16 ns, strength, whether a low band rose), the confidence, the
running grid's period and next beat in s, the last estimate, how many estimates in a row lay more than 8 % away, and the beat counters. -/
structure Tempo where
  state : Nat := 0
  onsets : List (Nat × Rat × Bool) := []
  conf : Rat := 0
  period : Rat := 1 / 2
  next : Option Rat := none
  est : Option (Rat × Rat) := none
  off8 : Nat := 0
  resync : Bool := false
  beatNo : Nat := 0
  bar : Nat := 0
  /-- Beats issued, newest first: instant and bar position (R265). -/
  issued : List (Rat × Nat) := []
  deriving DecidableEq, Repr

/-- The LTC decoder (R268): the last sample, the last transition, the start of a bit whose first half has passed, the bits since the last
sync word, newest first, each with its start, whether a sync word has opened them, and the frames decoded, oldest first: whether
valid, the timecode as TCODE holds it, the code of the rate and the reference instant. -/
structure Ltc where
  last : Option (Nat × Int) := none
  cross : Option Nat := none
  half : Option Nat := none
  bits : List (Bool × Nat) := []
  synced : Bool := false
  frames : List (Bool × Nat × Nat × Nat) := []
  deriving DecidableEq, Repr

/-- The sound block. -/
structure SndState where
  chans : List Chan := List.replicate 96 {}
  buses : List Bus := List.replicate 4 {}
  /-- Each TDM port's last frame sync edge and its regular frames in a row. -/
  tdm : List (Option Nat × Nat) := [(none, 0), (none, 0)]
  /-- The FT of each AES67 stream's last packet (R276). -/
  aesAt : List (Option Nat) := List.replicate 8 none
  trk : Tempo := {}
  /-- The engine's own copies of the feature slots and of the beat rings, newest first (R260, R270). -/
  feats : List (List (List Byte)) := List.replicate 8 []
  beats : List (List Byte) := []
  remBeats : List (List Byte) := []
  /-- A post of a beat that waits for an entry (R490). -/
  beatSlot : Option Nat := none
  /-- SND was in RUN (R263). -/
  ran : Bool := false
  ltc : Ltc := {}
  /-- LTC: the code of the rate, valid and missing frames in a row (R268). -/
  ltcRate : Nat := 0
  ltcValid : Nat := 0
  ltcBad : Nat := 0
  /-- The taps: filter state in binary32 bits, whether a commit has changed SRC, FEAT or BAND since (R273), and the values driven in this frame, in
  the last frames by FN (R274), and in the next. -/
  tapY : List Nat := List.replicate 64 0
  tapNew : List Bool := List.replicate 64 false
  drive : List (Nat × Nat) := []
  drives : List (Nat × List (Nat × Nat)) := []
  nextDrive : List (Nat × Nat) := []
  /-- The taps' choices of the last frames: feature slot (8 the remote beats), the limit FS(N) − FEATLAG and the instant of the record taken, both in
  s: a newer record within the limit that comes after S(N) was late (R271). -/
  tapUsed : List (Nat × Rat × Rat) := []
  /-- Records to publish on the CUE lane: whether a beat's, and the bytes (R269). -/
  pub : List (Bool × List Byte) := []
  deriving DecidableEq, Repr

/-! ### Ethernet, pairing and Cane (chapter 9) -/

/-- One Ethernet port: its link, the end of a received pause (FT), whether it has asked its partner to pause, the receive rings that hold it below
LOWWATER (R288), the frames of the device's
own that wait (precedence and bytes without FCS), and the bytes beyond whole units of 64 counted so far. -/
structure EthPort where
  up : Bool := false
  pauseEnd : Option Nat := none
  pausing : Bool := false
  low : List Nat := []
  txq : List (Nat × List Byte) := []
  rxRem : Nat := 0
  txRem : Nat := 0
  deriving DecidableEq, Repr

/-- A listened universe (R294): the holding source's CID, priority and last sequence number, its slots, and whether it is within the data-loss
timeout. -/
structure SacnUni where
  cid : List Byte := []
  prio : Nat := 0
  seq : Nat := 0
  data : List Byte := []
  fresh : Bool := false
  deriving DecidableEq, Repr

/-- The merge of one binding (R296): the first number accepted, the newest, and each number in the window with the paths that delivered it. -/
structure Merge where
  first : Nat := 0
  newest : Option Nat := none
  seen : List (Nat × Nat) := []
  deriving DecidableEq, Repr

/-- A request in the Cane responder's input store (R499): where it came from (0 port A, 1 port B, 2 Brura), the requester's MAC address,
IPv4 address and UDP port, or for a tunnelled one its source node, and the message. -/
structure CaneReq where
  path : Nat
  mac : Nat := 0
  ip : Nat := 0
  port : Nat := 0
  own : Nat := 0
  msg : List Byte
  /-- The frame or bundle it came in, and the timestamp of its arrival in 1/16 ns. -/
  frame : List Byte := []
  ts : Nat := 0
  deriving DecidableEq, Repr

/-- The register writes of a WRITEREG request in progress, where the handshake of one is withheld (R301, R461, R490): the items after it, the reply
body before it, whether an item has failed, and the fault code with which the withheld write has ended. -/
structure HeldItems where
  left : List (Nat × Nat)
  out : List Byte := []
  bad : Bool := false
  code : Option Nat := none
  deriving DecidableEq, Repr

/-- The Cane responder (R300, R305, R306): its input store, the tags of the last 64 authenticated requests with the FT of the first reply, the
last 16 replies, the owning sender, the key words written since each slot's clear, and a WRITEREG in progress with its request and key. -/
structure CaneState where
  store : List CaneReq := []
  tags : List (List Byte × Option Nat) := []
  replies : List (List Byte × CaneReq × List Byte) := []
  owner : Option Nat := none
  keys : List (Option Word) := List.replicate 16 none
  held : Option HeldItems := none
  heldReq : Option (CaneReq × List Byte) := none
  deriving DecidableEq, Repr

/-- The pair: misses and FCS errors of each path in the window of R309, the last sync residual of each path and a Sync that awaits its
Follow_Up, the judgements a dual window defers, and the FT since which each path is healthy. -/
structure PairState where
  miss : List Nat := [0, 0]
  fcs : List Nat := [0, 0]
  resid : List (Option Int) := [none, none]
  sync : List (Option (Nat × Int × Int)) := [none, none]
  deferred : List (Nat × Nat) := []
  healthyAt : List Nat := [0, 0]
  deriving DecidableEq, Repr

structure NetState where
  ports : List EthPort := [{}, {}]
  uni : List (Nat × SacnUni) := []
  video : List Merge := List.replicate 8 {}
  audio : List Merge := List.replicate 8 {}
  pair : PairState := {}
  cane : CaneState := {}
  /-- A wake filter has matched a frame received in a sleep state (R284). -/
  wake : Bool := false
  deriving DecidableEq, Repr
/-! ### Brura (chapters 10 and 11) -/

/-- One lane of a Brura port (R324, R330): its receiver's state, the valid headers in a row, those of them with RXOK 1, the headers not valid
in a row, the courses in a row with no comma, the comma's form (precoded, inverted), a course whose comma had another form (the form, its
symbols, arrival and skew), RXOK of the last valid header, the FT of entry into HALF and whether `HALFSTUCK` was set since, the CRVL of the
next course sent, and the credit counts last reported on this lane. -/
structure Lane where
  state : Nat := 0
  valid : Nat := 0
  rxok : Nat := 0
  bad : Nat := 0
  noComma : Nat := 0
  form : Bool × Bool := (false, false)
  alt : Option ((Bool × Bool) × List Nat × Nat × Nat) := none
  prxok : Bool := false
  halfAt : Nat := 0
  stuck : Bool := false
  crvl : Nat := 0
  told : List Nat := [0, 0, 0, 0]
  deriving DecidableEq, Repr

/-- A bundle waiting for a port, or on its line: its virtual lane, its bytes without LCRC, and the receive pool it still holds (port, and the
number of the arrival). -/
structure Bundle where
  vl : Nat
  bytes : List Byte
  held : Option Nat := none
  deriving DecidableEq, Repr

/-- A sent bundle in the replay buffer (R336): its number, the bundle, and the FT at which its last course left. -/
structure Sent where
  seq : Nat
  b : Bundle
  at' : Nat
  deriving DecidableEq, Repr

/-- One Brura port. -/
structure BruPort where
  up : Bool := false
  deskew : Bool := false
  lanes : List Lane := [{}, {}]
  skew : Nat := 0
  /-- Course slots sent, the courses that are due, and the FLAGS of the last CTRL course (R328, R329). -/
  slots : Nat := 0
  timeDue : Bool := false
  ctrlDue : Bool := false
  flags : Nat := 0
  tcount : Nat := 0
  ccount : Nat := 0
  /-- TCOUNT, TX and arrival of the partner's last TIME course (R341). -/
  echo : Option (Nat × Nat × Nat) := none
  /-- The last 15 link delays, newest first, 2^-17 ns (R343). -/
  delays : List Int := []
  /-- Delivery (R335 to R338): the next number, the expected one, ACKV, the replay buffer, the bundles on the line (CUE, then MEDIA or BULK) with the
  bytes already sent, and the partial bundles received, by VL. -/
  txSeq : Nat := 0
  rxExp : Nat := 0
  ackv : Bool := false
  sent : List Sent := []
  cue : Option (Bundle × Nat) := none
  other : Option (Bundle × Nat) := none
  part : List (Option (List Byte)) := [none, none, none, none]
  /-- Expiries in a row that retired nothing, a replay that is due, and the bundles of the one under way with the bytes of the first sent. -/
  expiries : Nat := 0
  replayDue : Bool := false
  replay : List Sent := []
  replayPos : Nat := 0
  /-- Bundles ready for this port, in order of arrival, and the bundle starts that R368 counts by sixteen. -/
  ready : List Bundle := []
  starts : Nat := 0
  /-- Credits by VL (R367): taken here, freed as the neighbour reported, and freed by this side. -/
  taken : List Nat := [0, 0, 0, 0]
  freed : List Nat := [0, 0, 0, 0]
  own : List Nat := [0, 0, 0, 0]
  /-- The neighbour's time state (R367, R374), the last CTRL and TIME payloads, and the loop of R333. -/
  nbDist : Nat := 127
  nbValid : Bool := false
  ctrlRx : List Byte := []
  timeRx : List Byte := []
  nbOff : Int := 0
  flbActive : Bool := false
  flbSeen : Bool := false
  deriving DecidableEq, Repr

/-- A member record (R357): serial, node ID, the three role priorities, and for each port whether it is UP, the neighbour's node ID (2^18 for one
that holds none) and `DELAY`; its generation and the FT at which it was last refreshed. -/
structure Member where
  serial : Nat
  id : Nat
  prios : List Nat
  links : List (Bool × Nat × Nat)
  gen : Nat
  at' : Nat
  deriving DecidableEq, Repr

/-- A cluster record (R357): the cluster, its head's serial, member count and CL, border links (member, port, remote node) and the matrix of
legal hop distances between border members. -/
structure Cluster where
  cluster : Nat
  head : Nat
  count : Nat
  cl : Nat
  borders : List (Nat × Nat × Nat)
  dist : List (List Nat)
  gen : Nat
  at' : Nat
  deriving DecidableEq, Repr

/-- A candidate for a role as its last ROLE bundle gave it (R352, R376): role (0 time gateway, 1 cluster head, 2 cue master), serial, node ID,
priority, whether it held the role, whether its servo is LOCKED on PTP, and when it was heard. -/
structure Cand where
  role : Nat
  serial : Nat
  id : Nat
  prio : Nat
  holds : Bool
  ptp : Bool
  at' : Nat
  deriving DecidableEq, Repr

/-- A fabric commit at this node (R377 to R383): the CID known, its target, policy and sending ST, whether FIRE arrived, whether the dovetail
commit it armed is still under way, the refusal, the outcome recorded with its FN used, an ABORT that came after the cutoff, the counts of each
child's READY, and whether this node's own has been sent. -/
structure Fc where
  cid : Option Nat := none
  target : Nat := 0
  abortWindow : Bool := false
  sendSt : Word := 0
  fired : Bool := false
  armed : Bool := false
  refused : Option Nat := none
  outcome : Option Nat := none
  used : Nat := 0
  abortLate : Bool := false
  kids : List (Nat × Nat × Nat) := []
  readySent : Bool := false
  deriving DecidableEq, Repr

/-- A report that waits (R383): its CID, outcome, FN used, and the FT since which it waits. -/
structure Report where
  cid : Nat
  outcome : Nat
  fn : Nat
  since : Nat
  deriving DecidableEq, Repr

/-- What a tile publisher has still to send in this frame (R372): the FN stamped, the buffer, the tile quarters left, by number, and the columns of its rectangle. -/
structure Pub where
  fn : Nat := 0
  buf : Nat := 0
  next : Nat := 0
  total : Nat := 0
  cols : Nat := 1
  /-- The quarter whose read failed spoils its tile (R417). -/
  bad : Bool := false
  deriving DecidableEq, Repr

/-- The fabric. -/
structure FabState where
  /-- R350: another node holds this node's fixed member. -/
  fault : Bool := false
  cluster : Option Nat := none
  seeded : Bool := false
  member : Option Nat := none
  /-- The member last held, kept in the boot records (R356). -/
  lastMember : Nat := 0
  /-- The node ID, member and topology hash written to the boot records at CONVERGED (R534). -/
  record : Option (Nat × Nat × Dword) := none
  disc : Nat := 0
  gen : Nat := 0
  msgSeq : Nat := 0
  members : List (Nat × Member) := []
  clusters : List (Nat × Cluster) := []
  /-- Members granted by this node as cluster head (R356): member and serial. -/
  grants : List (Nat × Nat) := []
  cands : List Cand := []
  /-- The holder of each role, with the FT of its election (R352). -/
  holders : List (Option (Cand × Nat)) := [none, none, none]
  gwGen : Nat := 0
  /-- The gateway is lost and none is elected: only a candidate LOCKED on PTP takes the role (R376). -/
  gwLost : Bool := false
  hash : Dword := 0
  /-- Pairs delivered in the last second (R363): source, MSGSEQ, tree and the FT. -/
  seen : List (Nat × Nat × Nat × Nat) := []
  /-- Receive credits held by bundles not yet done with (R366): number, port, VL, credits and copies that have still to leave. -/
  held : List (Nat × Nat × Nat × Nat × Nat) := []
  nextHeld : Nat := 0
  /-- Subscriptions of each neighbour (R371), by port: group, column wraps, row wraps; and the groups in which the parent reported interest. -/
  subs : List (List (Nat × Nat × Nat)) := [[], [], [], []]
  outside : List Nat := []
  /-- The fabric commit that is armed here or came last, those that came before or were refused meanwhile, newest first, and the counts of READYs relayed
  for a commit that this node takes no part in: CID, and port, READYN and REFUSEDN (R381). -/
  fc : Fc := {}
  olds : List Fc := []
  relays : List (Nat × List (Nat × Nat × Nat)) := []
  /-- The scope, policy and target of the commit that this node runs as cue master (R378). -/
  mCluster : Bool := false
  mWindow : Bool := false
  mTarget : Nat := 0
  reports : List Report := []
  /-- The report table of the present CID: node, outcome, FN (R383). -/
  table : List (Nat × Nat × Nat) := []
  pubs : List Pub := [{}, {}]
  /-- The quarters that have come of tiles not yet whole (R369, R391): FN, column, row and a mask. -/
  quarters : List (Nat × Nat × Nat × Nat) := []
  /-- Tunnelled Cane requests that find the responder's store full: the pool they hold, their source and the message (R499). -/
  caneWait : List (Option Nat × Nat × List Byte) := []
  deriving DecidableEq, Repr

/-! ### The DMA engine and the hardware queues (chapter 14) -/

/-- A DMA channel beside its registers (R446 to R454): the words of the descriptor fetched (CTL, COUNT, SRC, DST, NSEG and NEXT) with its
segments, whether one is in progress, the offset it starts at, the compares of the chain that mismatched, and a re-read due at the tail. -/
structure DmaCh where
  active : Bool := false
  op : Nat := 0
  fillw : Nat := 0
  last : Bool := false
  fence : Bool := false
  stopMis : Bool := false
  count : Nat := 0
  src : Nat := 0
  dst : Nat := 0
  next : Nat := 0
  fill : List Byte := []
  segs : List (Nat × Nat) := []
  mis : Bool := false
  /-- The descriptor in progress has mismatched. -/
  descMis : Bool := false
  deriving DecidableEq, Repr

/-- A push whose handshake is withheld (R461): its agent, its item, and, for a completion item, the channel and whether a completion
follows it. -/
structure PushWait where
  agent : Nat
  item : List Byte
  cpl : Option (Nat × Bool) := none
  deriving DecidableEq, Repr

/-- One hardware queue (R459 to R463): its items in order of storing, with the PRIO they are stored with; the PRIO of the open packet
and of the packet in service; whether it discards; the pushes withheld. -/
structure Queue where
  items : List (Nat × List Byte) := []
  opened : Option Nat := none
  serving : Option Nat := none
  discard : Bool := false
  waits : List PushWait := []
  deriving DecidableEq, Repr

/-- The queues, and each agent's push and pop buffer (R461, R462). -/
structure QueState where
  qs : List Queue := List.replicate 64 {}
  pushBuf : List (List Word) := List.replicate 16 [0, 0, 0]
  popBuf : List (List Byte) := List.replicate 16 (List.replicate 16 0)
  deriving DecidableEq, Repr

/-! ### Crowd radio (chapter 12) -/

/-- A crowd frame in hand or on the air (R399 to R405): its FN, its index, its try, REACQ, its sub-band, its airtime in µs, the bucket that it was
charged to, the stamp of its first try and T_go of the present one (in 2^-16 ns of FT), the CADENCE it was loaded with (R408), the airtime with the
1 ms in which a TXDONE must come (R409), whether it goes at T_go, and whether its present try has counted as busy. -/
structure AirFrame where
  n : Nat
  j : Nat
  k : Nat := 0
  reacq : Bool := false
  sb : Nat := 0
  us : Nat := 0
  bucket : Option Nat := none
  base : Nat := 0
  tgo : Int := 0
  cad : Nat := 0
  span : Nat := 0
  go : Bool := false
  busy : Bool := false
  deriving DecidableEq, Repr

/-- A packet for the transceiver (R394): its OP, its payload, and the instant at which its last nibble is to end, where one is given (R405). -/
structure AirPkt where
  op : Nat
  payload : List Byte
  ends : Option Int := none
  deriving DecidableEq, Repr

/-- The radio: FAULT of R409 with the failures in a row, the BUDGET hold, the buckets of each sub-band and the present one, the frame in hand and the
one on the air, AIR_DIR, the last AIR_RXSOF edge and the last RXFRAME (its ST, RSSI and bytes), and the next accounting record's RSEQ and copy. -/
structure AirState where
  fault : Bool := false
  fails : Nat := 0
  exhausted : Bool := false
  buckets : List (List Nat) := List.replicate 8 (List.replicate 36 0)
  bucket : Nat := 0
  frame : Option AirFrame := none
  onAir : Option AirFrame := none
  dirOut : Bool := true
  /-- The node's packets that wait for the bus (R393). -/
  waiting : List AirPkt := []
  rxsof : Word := 0
  heard : List Byte := []
  rseq : Nat := 0
  copyB : Bool := false
  /-- The ten seconds of the RTC in which the last record was written or restored (R406), and whether the restore of R407 has taken place. -/
  recTen : Nat := 0
  restored : Bool := false
  /-- The mode of AIR for which the register list was last sent (R410). -/
  listFor : Nat := 0
  deriving DecidableEq, Repr

/-! ### Power (chapter 17) -/

/-- The stages of DIM (R515): awake; asked, before FS(N); entering, from FS(N) to the last latch(N−1); in DIM; leaving, until both pixel
domains have been on for 100 µs; and resuming, from FS(M) to latch(M). -/
inductive Dim where
  | awake | asked | entering (n : Nat) | dim | leaving | resuming (m : Nat)
  deriving DecidableEq, Repr

/-- A PMBus transaction (R521): what it does, the mV of a VOUT_COMMAND, and the failures it has met. -/
structure PmTxn where
  /-- 0 VOUT_MODE, 1 OPERATION, 2 VOUT_COMMAND, 3 READ_VOUT, 4 READ_IOUT, 5 READ_TEMPERATURE_1, 6 STATUS_WORD. -/
  kind : Nat
  mv : Nat := 0
  fails : Nat := 0
  deriving DecidableEq, Repr

/-- Power, AON and service life. -/
structure PwrState where
  /-- The holdover frequency that AON stored (R44), and the FT and the RTC seconds stored with a sleep or a warm restart (R516). -/
  aonHold : Option Int := none
  aonFt : Nat := 0
  aonRtc : Nat := 0
  /-- The RTC (R527), the nanoseconds of its present second, and whether VAON has been applied since the last accounting record (R407). -/
  rtc : Nat := 0
  rtcNs : Nat := 0
  rtcFresh : Bool := true
  /-- DOMREQ in force, and a write that waits for a change to complete (R512). -/
  req : Nat := 0xFFFF
  reqLater : Option Nat := none
  /-- The frame store refreshes itself (R511). -/
  selfRef : Bool := false
  dim : Dim := .awake
  /-- AIR, Ethernet and Brura pages hold SLEEP, and the latch groups whose ports and pin do (R515). -/
  pagesAsleep : Bool := false
  groupsAsleep : List Bool := List.replicate 16 false
  /-- FT at which PIXA and PIXB were both on, while DIM is left. -/
  pixOnAt : Option Nat := none
  /-- The sleep that has been asked for, as STATECTL codes it, and whether the colour lanes have stopped for it (R516). -/
  down : Option Nat := none
  lanesStopped : Bool := false
  /-- Wake sources that arrived during an entry (R514). -/
  lateWake : Nat := 0
  /-- PWR_EN0 to PWR_EN3, and the sequence under way: raising or dropping (R518). -/
  en : List Bool := [true, true, true, true]
  raising : Option Bool := none
  /-- The sequence drops the outputs because a rail did not reach its range, to raise them again (R565). -/
  retry : Bool := false
  /-- The cause of the start that follows the rails' rise. -/
  riseCause : Nat := 0
  /-- DORMANT was entered by a thermal trip (R522). -/
  tripped : Bool := false
  /-- The pixel domains went off during the preparation in progress (R520). -/
  prepCut : Bool := false
  /-- The governor's target in mV, and whether VOUT_MODE disabled it (R520). -/
  target : Nat := 750
  govDead : Bool := false
  /-- The PMBus transaction on the bus and those that have not started (R521). -/
  txn : Option PmTxn := none
  txnQ : List PmTxn := []
  alertLow : Bool := false
  /-- The lifetime counters (R525, R526). -/
  bins : List Nat := List.replicate 8 0
  colds : Nat := 0
  warms : Nat := 0
  maxTj : Nat := 0
  trips : Nat := 0
  lifeSeq : Nat := 0
  lifeB : Bool := false
  deriving DecidableEq, Repr

/-! ### Start-up (chapter 18) and the test port (chapter 19) -/

/-- A start (R529 to R558). -/
structure BootState where
  /-- Outputs are enabled (R533); the node is in SERVICE WAIT (R537). -/
  outEn : Bool := false
  svcWait : Bool := false
  /-- The start that is due: cold or warm, and its cause (R557). -/
  due : Option (Bool × Nat) := some (true, 0)
  /-- RESET_N is low, or a rail out of range (R529, R565). -/
  resetLow : Bool := false
  railOut : Bool := false
  /-- Handover has taken place; step 11 has ended; the fabric wait has expired; firmware has written READY; E, once fixed (R532, R533). -/
  handed : Bool := false
  calDone : Bool := false
  fabDone : Bool := false
  ready : Bool := false
  enableAt : Option Nat := none
  /-- The FT from which FS(E) may lie (R533). -/
  enableT : Nat := 0
  confirmed : Bool := false
  warned : Bool := false
  /-- The frame store was kept for the start that is due (R529). -/
  fsKept : Bool := false
  /-- A warm start may still skip discovery (R534). -/
  discWait : Bool := false
  /-- The FT of the start of the first step, and whether it is set (R556). -/
  t0 : Option Int := none
  /-- CPU1 to CPU3 whose ENTRY is 0 stay in RESET (R532). -/
  noEntry : List Bool := [false, false, false, false]
  /-- Revocation bits blown by KEYREVOKE (R540). -/
  revoked : Nat := 0
  /-- The copy journal in force (R542): STATE, VERIFIED, IMGLEN, NEXT, the next RSEQ and copy. -/
  jState : Nat := 0
  jVerified : Bool := false
  jLen : Nat := 0
  jNext : Nat := 0
  jSeq : Nat := 0
  jB : Bool := false
  deriving DecidableEq, Repr

/-- The service port (R549 to R553): the fallback attention, whether SVC_ATTN is held low by others, and the bytes beyond whole units of
256 that `BENCHPROG` has counted. -/
structure SvcState where
  fallback : Bool := false
  lineLow : Bool := false
  benchRem : Nat := 0
  /-- A WRITEREG in progress, with its BCAST and SEQ. -/
  held : Option HeldItems := none
  heldReq : Option (Bool × Byte) := none
  deriving DecidableEq, Repr

/-- The test access port (R575 to R577): the instruction in force, BSREFUSED, the boundary register, and the last debug access: its status,
address and data. -/
structure TapState where
  ir : Nat := 2
  refused : Bool := false
  boundary : List Bool := List.replicate 576 false
  status : Nat := 0
  addr : Nat := 0
  data : Word := 0
  deriving DecidableEq, Repr


/-! ### The machine -/

/-- The state of the block. -/
structure State where
  /-- Registers that differ from their reset value, by page index times 4,096 plus offset (R8), strictly rising. -/
  regs : List (Nat × Word) := []
  /-- The staging set (R75): for a register, the mask of the bits staged and their values. -/
  staged : List (Nat × Word × Word) := []
  /-- Running statistics (R85), by the place of their latched field. -/
  ctr : List (Nat × Nat) := []
  /-- The bytes of SRAM, MRAM and the frame store (R5) that differ from an unlisted byte. -/
  mem : List Host.Cell := []
  mm : MemState := {}
  time : TimeState := {}
  cmt : CmtState := {}
  cores : List Core := List.replicate 4 {}
  tsk : TskState := {}
  evc : EvcState := {}
  vens : List Ven := List.replicate 16 {}
  outs : OutState := {}
  col : ColState := {}
  cal : CalState := {}
  snd : SndState := {}
  net : NetState := {}
  bru : List BruPort := List.replicate 4 {}
  fab : FabState := {}
  air : AirState := {}
  dma : List DmaCh := List.replicate 32 {}
  /-- Bytes beyond whole units of 64 that each DMA page has counted in `BYTES` (R458). -/
  dmaRem : List Nat := [0, 0]
  que : QueState := {}
  boot : BootState := {}
  pwr : PwrState := {}
  svc : SvcState := {}
  tap : TapState := {}
  /-- The model's own: how many free values have been taken (DESIGN CHOICE, notes/assumptions/2.md). -/
  freeCtr : Nat := 0
  /-- What the device sent out or answered during the last command. -/
  out : List Out := []
  /-- The commands that wait, first in, first out. -/
  pending : List Instr := []
  deriving DecidableEq, Repr

/-- Why the machine stops with a fault: no command does; every command of the table has an effect in the spec. -/
inductive Fault where
  /-- Raised by no command; safe. -/
  | none
  deriving DecidableEq, Repr

/-- Why a command is refused. -/
inductive Refusal where
  /-- Raised by a dispatch arm with no meaning yet; safe. -/
  | notModelled (mnemonic : String)
  deriving DecidableEq, Repr

/-- The machine right after reset: every register at its reset value, memory and queues empty (R529). -/
def State.reset : State := {}

end Sys2Proof.Machine
end

