-- ==== Sys2Proof/Machine/Ops.lean ====
section
/-!
DEFINITION. The named operations over the register file, the statistics, the memories and the outputs.
-/
namespace Sys2Proof.Machine
open Sys2Proof

/-! ### Sorted association lists -/

/-- The value held under a key. -/
def amGet {α : Type} : List (Nat × α) → Nat → Option α
  | [], _ => none
  | (a, v) :: t, k => if a = k then some v else amGet t k

/-- The list with a key set, its keys kept strictly rising. -/
def amSet {α : Type} : List (Nat × α) → Nat → α → List (Nat × α)
  | [], k, v => [(k, v)]
  | (a, x) :: t, k, v =>
    if k < a then (k, v) :: (a, x) :: t
    else if k = a then (k, v) :: t
    else (a, x) :: amSet t k v

/-- The list with a key removed. -/
def amDel {α : Type} : List (Nat × α) → Nat → List (Nat × α)
  | [], _ => []
  | (a, x) :: t, k => if a = k then t else (a, x) :: amDel t k

/-- Whether the keys rise strictly. -/
def amSorted {α : Type} : List (Nat × α) → Bool
  | [] => true
  | [_] => true
  | (a, _) :: (b, y) :: t => decide (a < b) && amSorted ((b, y) :: t)

/-- A list with position `i` changed by `f`; unchanged where there is no such position. -/
def updAt {α : Type} (l : List α) (i : Nat) (f : α → α) : List α := l.modify i f

/-! ### Bit fields -/

/-- The `w` bits of a register from bit `lsb` up. -/
def bitsOf (v : Word) (lsb w : Nat) : Nat := (v.toNat / 2 ^ lsb) % 2 ^ w

/-- A register with the `w` bits from bit `lsb` up replaced. -/
def setBits (v : Word) (lsb w x : Nat) : Word :=
  BitVec.ofNat 32 (v.toNat - bitsOf v lsb w * 2 ^ lsb + (x % 2 ^ w) * 2 ^ lsb)

/-- Two's complement: the integer that a `w`-bit field holds. -/
def signed (w x : Nat) : Int := if x % 2 ^ w < 2 ^ (w - 1) then (x % 2 ^ w : Nat) else (x % 2 ^ w : Nat) - (2 ^ w : Nat)

/-- The `w`-bit two's complement field of an integer. -/
def toField (w : Nat) (i : Int) : Nat := (i % (2 ^ w : Nat)).toNat

/-- The integer nearest an integer within two bounds. -/
def clampInt (lo hi i : Int) : Int := if i < lo then lo else if hi < i then hi else i

/-! ### Pages (R7, R8) -/

abbrev pgSYS : Nat := 0x000
abbrev pgPMU : Nat := 0x001
abbrev pgTIME : Nat := 0x002
abbrev pgCMT : Nat := 0x003
abbrev pgCAL : Nat := 0x004
abbrev pgADC : Nat := 0x005
abbrev pgSVC : Nat := 0x006
abbrev pgNVM : Nat := 0x007
abbrev pgBOOT : Nat := 0x008
abbrev pgVEN (n : Nat) : Nat := 0x010 + n
abbrev pgMAP : Nat := 0x020
abbrev pgCOL : Nat := 0x021
abbrev pgSQC : Nat := 0x022
abbrev pgOVR : Nat := 0x023
abbrev pgGEN : Nat := 0x024
abbrev pgTAP : Nat := 0x025
abbrev pgEDGE : Nat := 0x030
abbrev pgSND : Nat := 0x031
abbrev pgSTD (n : Nat) : Nat := 0x040 + n
abbrev pgETH (n : Nat) : Nat := 0x080 + n
abbrev pgPAIR : Nat := 0x082
abbrev pgCANE : Nat := 0x083
abbrev pgBRU (n : Nat) : Nat := 0x088 + n
abbrev pgFAB : Nat := 0x08C
abbrev pgAIR : Nat := 0x090
abbrev pgFS : Nat := 0x0A0
abbrev pgARB (n : Nat) : Nat := 0x0A1 + n
abbrev pgDMA (n : Nat) : Nat := 0x0A8 + n
abbrev pgQUE : Nat := 0x0B0
abbrev pgEVC : Nat := 0x0B8
abbrev pgTSK : Nat := 0x0B9
abbrev pgCPU (n : Nat) : Nat := 0x0C0 + n

/-- Every assigned page index (R7). -/
def allPages : List Nat :=
  [0, 1, 2, 3, 4, 5, 6, 7, 8] ++ (List.range 16).map pgVEN ++ [0x20, 0x21, 0x22, 0x23, 0x24, 0x25, 0x30, 0x31] ++
  (List.range 64).map pgSTD ++ [0x80, 0x81, 0x82, 0x83, 0x88, 0x89, 0x8A, 0x8B, 0x8C, 0x90] ++
  [0xA0, 0xA1, 0xA2, 0xA8, 0xA9, 0xB0, 0xB8, 0xB9, 0xC0, 0xC1, 0xC2, 0xC3]

/-- Whether the table of R7 assigns a page index. -/
def assigned (p : Nat) : Bool :=
  p ≤ 8 || (0x10 ≤ p && p ≤ 0x25) || p = 0x30 || p = 0x31 || (0x40 ≤ p && p ≤ 0x83) ||
  (0x88 ≤ p && p ≤ 0x8C) || p = 0x90 || (0xA0 ≤ p && p ≤ 0xA2) || p = 0xA8 || p = 0xA9 || p = 0xB0 ||
  p = 0xB8 || p = 0xB9 || (0xC0 ≤ p && p ≤ 0xC3)

/-- The block type that PAGEID reports: the first index of the page's group, or the page's own index (R8). -/
def pageType (p : Nat) : Nat :=
  if 0x10 ≤ p ∧ p ≤ 0x1F then 0x10
  else if 0x40 ≤ p ∧ p ≤ 0x7F then 0x40
  else if 0x88 ≤ p ∧ p ≤ 0x8B then 0x88
  else if p = 0xA2 then 0xA1
  else if p = 0xA9 then 0xA8
  else if 0xC0 ≤ p ∧ p ≤ 0xC3 then 0xC0
  else p

/-- Pages whose REQ.MODE reads RUN and ignores writes: SYS, CMT, TIME, PAIR, FS, NVM, ARB, QUE, TSK, PMU, BOOT and
SVC (R61, R90, R315, R437, R439, R440, R466, R496, R527, R556, R559). -/
def fixedRun (p : Nat) : Bool :=
  p = pgSYS || p = pgCMT || p = pgTIME || p = pgPAIR || p = pgFS || p = pgNVM || p = 0xA1 || p = 0xA2 ||
  p = pgQUE || p = pgTSK || p = pgPMU || p = pgBOOT || p = pgSVC

/-- The fields of a page after its header. -/
def ownRows (p : Nat) : List Fld :=
  match pageType p with
  | 0x000 => F.rowsSYS | 0x001 => F.rowsPMU | 0x002 => F.rowsTIME | 0x003 => F.rowsCMT
  | 0x004 => F.rowsCAL | 0x005 => F.rowsADC | 0x006 => F.rowsSVC | 0x007 => F.rowsNVM
  | 0x008 => F.rowsBOOT | 0x010 => F.rowsVEN | 0x020 => F.rowsMAP | 0x021 => F.rowsCOL
  | 0x022 => F.rowsSQC | 0x023 => F.rowsOVR | 0x024 => F.rowsGEN | 0x025 => F.rowsTAP
  | 0x030 => F.rowsEDGE | 0x031 => F.rowsSND | 0x040 => F.rowsSTD | 0x080 => F.rowsETH
  | 0x081 => F.rowsETH | 0x082 => F.rowsPAIR | 0x083 => F.rowsCANE | 0x088 => F.rowsBRU
  | 0x08C => F.rowsFAB | 0x090 => F.rowsAIR | 0x0A0 => F.rowsFS | 0x0A1 => F.rowsARB
  | 0x0A8 => F.rowsDMA | 0x0B0 => F.rowsQUE | 0x0B8 => F.rowsEVC | 0x0B9 => F.rowsTSK
  | 0x0C0 => F.rowsCPU
  | _ => []

/-- Whether a field has a copy in the register at an offset. -/
def Fld.at (f : Fld) (off : Nat) : Bool :=
  if f.stride = 0 then off = f.off
  else f.off ≤ off && (off - f.off) % f.stride = 0 && (off - f.off) / f.stride < f.cnt

/-- The fields of the register at an offset of a page: the header's below 0x040, the page's own from there. -/
def fieldsAt (p off : Nat) : List Fld :=
  (if off < 0x040 then F.rowsHDR else ownRows p).filter (·.at off)

/-- The reset class of a requester port (R427). -/
def portClass (port : Nat) : Nat :=
  if port ≤ 7 then 0 else if port ≤ 13 then 1 else if port ≤ 15 then 2
  else if port ≤ 17 then 3 else if port ≤ 22 then 2 else 3

/-- The value of a register at reset: its fields' reset values, with the registers whose value depends on the page
or the copy (R66, R90, R427). -/
def resetReg (p off : Nat) : Word :=
  if off = 0 then BitVec.ofNat 32 (1 + (p - pageType p) * 0x100 + pageType p * 0x10000)
  else if off = 0x00C ∧ (p = pgFS ∨ p = pgNVM ∨ pageType p = 0xA1) then 0x110
  else if (off = 0x008 ∨ off = 0x00C) ∧ fixedRun p then 2
  else if (p = 0x80 ∨ p = 0x81) ∧ off = 0x044 then (Config.stationMac (p - 0x80)).setWidth 32
  else if (p = 0x80 ∨ p = 0x81) ∧ off = 0x048 then ((Config.stationMac (p - 0x80)) >>> 32).setWidth 32
  else if pageType p = 0xA1 ∧ 0x100 ≤ off ∧ off < 0x160 then
    let k := (off - 0x100) / 4
    BitVec.ofNat 32 (portClass k + 8 * 0x100 + (if k = 10 ∨ k = 13 then 0x1000 else 0))
  else (fieldsAt p off).foldl (fun v f => setBits v f.lsb f.w f.reset) 0

/-- The place of a register in the register file: its page index times 4,096 plus its offset. -/
def regKey (p off : Nat) : Nat := p * 4096 + off

/-- The value at reset of the register at a place. -/
def resetAt (k : Nat) : Word := resetReg (k / 4096) (k % 4096)

/-- A register file with one register set; a register at its reset value is not listed, so that equal register
files are equal lists. -/
def regPut (l : List (Nat × Word)) (k : Nat) (v : Word) : List (Nat × Word) :=
  if v = resetAt k then amDel l k else amSet l k v

namespace State

/-- The register at an offset of a page. -/
def reg (s : State) (p off : Nat) : Word := (amGet s.regs (regKey p off)).getD (resetAt (regKey p off))

/-- The state with one register set. -/
def setReg (s : State) (p off : Nat) (v : Word) : State := { s with regs := regPut s.regs (regKey p off) v }

/-- Copy `k` of a field of a page, the value in force. -/
def get (s : State) (p : Nat) (f : Fld) (k : Nat := 0) : Nat := bitsOf (s.reg p (f.off + f.stride * k)) f.lsb f.w

/-- A one-bit field as a truth value. -/
def flag (s : State) (p : Nat) (f : Fld) (k : Nat := 0) : Bool := s.get p f k = 1

/-- The state with copy `k` of a field set. -/
def set (s : State) (p : Nat) (f : Fld) (v : Nat) (k : Nat := 0) : State :=
  s.setReg p (f.off + f.stride * k) (setBits (s.reg p (f.off + f.stride * k)) f.lsb f.w v)

/-- The place of a running statistic: that of its latched register, with the field's lowest bit. -/
def statKey (p : Nat) (f : Fld) (k : Nat) : Nat := regKey p (f.off + f.stride * k) * 32 + f.lsb

/-- The running value of a statistic (R85). -/
def stat (s : State) (p : Nat) (f : Fld) (k : Nat := 0) : Nat := (amGet s.ctr (statKey p f k)).getD 0

/-- A statistic's running value set. -/
def setStat (s : State) (p : Nat) (f : Fld) (v : Nat) (k : Nat := 0) : State :=
  { s with ctr := amSet s.ctr (statKey p f k) v }

/-- A running counter advanced, saturating at 0xFFFF_FFFF (R85). -/
def bump (s : State) (p : Nat) (f : Fld) (n : Nat := 1) (k : Nat := 0) : State :=
  if n = 0 then s else s.setStat p f (min 0xFFFFFFFF (s.stat p f k + n)) k

/-- A running maximum raised. -/
def statMax (s : State) (p : Nat) (f : Fld) (v : Nat) (k : Nat := 0) : State :=
  if s.stat p f k < v then s.setStat p f v k else s

/-- ST: whole nanoseconds of FT, modulo 2^32 (R30). -/
def st (s : State) : Word := BitVec.ofNat 32 (s.time.ft / 65536)

/-- The next free value of the state: an open value of the manual, the counter advanced. -/
def free (s : State) : State × Dword := ({ s with freeCtr := s.freeCtr + 1 }, Config.free s.freeCtr)

/-- The state with one more output. -/
def emit (s : State) (o : Out) : State := { s with out := s.out ++ [o] }

/-- A fault recorded on a page (R66, R67). -/
def fault (s : State) (p code off agent : Nat) : State :=
  let n := min 255 (bitsOf (s.reg p 0x018) 24 8 + 1)
  (s.setReg p 0x018 (BitVec.ofNat 32 (code + off * 0x100 + agent * 0x100000 + n * 0x1000000))).setReg p 0x01C s.st

end State

/-- ST comparison (R31): `x` is past at `now`. -/
def stPast (x now : Word) : Bool := (now - x).toNat < 2 ^ 31

/-- ST comparison (R31): `b` is later than `a`. -/
def stLater (b a : Word) : Bool := 1 ≤ (b - a).toNat && (b - a).toNat < 2 ^ 31

/-- The signed distance of `b` from `a` on the ST circle. -/
def stDiff (b a : Word) : Int := (b - a).toInt

/-- The command's effect on a state whose outputs start empty. -/
def act (f : State → State) (s : State) : Host.Outcome State Fault Refusal := .next (f { s with out := [] })

/-! ### Bytes -/

/-- The bytes of a number, least significant first. -/
def leBytes : Nat → Nat → List Byte
  | 0, _ => []
  | n + 1, v => BitVec.ofNat 8 v :: leBytes n (v / 256)

/-- The number that bytes spell, least significant first. -/
def leVal : List Byte → Nat
  | [] => 0
  | b :: t => b.toNat + 256 * leVal t

/-- The bytes of a number in line order, most significant first. -/
def beBytes (n v : Nat) : List Byte := (leBytes n v).reverse

/-- The number that bytes in line order spell. -/
def beVal (l : List Byte) : Nat := leVal l.reverse

/-- `n` bytes of a list from a position, with zeros where the list is shorter. -/
def slice (l : List Byte) (i n : Nat) : List Byte := (List.range n).map fun k => l.getD (i + k) 0

end Sys2Proof.Machine
end

