-- ==== Sys2Proof/Machine/Evc.lean ====
section
/-!
DEFINITION. The event controller's sources and their presentation (R474 to R485), the task scheduler
(R486 to R490), and the event bits of the register pages, which are sources of the controller.
-/
namespace Sys2Proof.Machine
open Sys2Proof

/-! ### Tasks -/

namespace State

/-- Task `t`, at its reset value where the scheduler lists nothing (R486). -/
def task (s : State) (t : Nat) : Task := (amGet s.tsk.tasks t).getD {}

/-- One task changed; a task at its reset value is not listed. -/
def setTask (s : State) (t : Nat) (v : Task) : State :=
  { s with tsk := { s.tsk with tasks := if v = {} then amDel s.tsk.tasks t else amSet s.tsk.tasks t v } }

/-- Core `c`. -/
def core (s : State) (c : Nat) : Core := s.cores.getD c {}

/-- One core changed. -/
def updCore (s : State) (c : Nat) (f : Core → Core) : State := { s with cores := updAt s.cores c f }

end State

/-- DRAWER's condition (R486): the drawer's task outranks the innermost running task, or none runs. -/
def drawerCond (s : State) (c : Nat) : Bool :=
  match (s.core c).drawer with
  | none => false
  | some t =>
    match (s.core c).running with
    | [] => true
    | r :: _ => (s.task r).prio < (s.task t).prio

/-- The page of an event source's level condition (R474). -/
def pageSource (p : Nat) : Nat := if 0x40 ≤ p ∧ p ≤ 0x7F then 132 + (p - 0x40) / 16 else p

/-- Whether a page has an EVT bit set whose EVTEN bit is 1 (R66). -/
def pageEvent (s : State) (p : Nat) : Bool := (s.reg p 0x010 &&& s.reg p 0x014) ≠ 0

/-- The condition of a shared level source (R474, R484); false for an edge source. -/
def levelCond (s : State) (src : Nat) : Bool :=
  if 132 ≤ src ∧ src ≤ 135 then (List.range 16).any fun i => pageEvent s (pgSTD (16 * (src - 132) + i))
  else if 228 ≤ src ∧ src ≤ 235 then
    let k := src - 228
    let lv := s.evc.extLevel.getD k false
    (s.get pgEVC F.EVC_EXT_MODE k = 4 && lv) || (s.get pgEVC F.EVC_EXT_MODE k = 5 && !lv)
  else if 64 ≤ src ∧ src ≤ 127 then false
  else assigned src && pageEvent s src

/-! ### Sources: shared ones on EVC, private ones on their core's page -/

/-- A source of the event controller: a shared one, or a private one of a core. -/
inductive Src where
  | shared (n : Nat)
  | priv (c k : Nat)
  deriving DecidableEq, Repr

/-- The page and register offset of a source's control register (R492, R494). -/
def Src.reg : Src → Nat × Nat
  | .shared n => (pgEVC, 0x100 + 4 * n)
  | .priv c k => (pgCPU c, 0x100 + 4 * k)

/-- The vector a source raises (R474). -/
def Src.vector : Src → Nat
  | .shared n => n
  | .priv _ k => 256 + k

/-- The source behind a vector of a core. -/
def srcOf (c v : Nat) : Src := if v < 256 then .shared v else .priv c (v - 256)

/-- Some bits of a source's control register. -/
def srcBits (s : State) (x : Src) (lsb w : Nat) : Nat := bitsOf (s.reg x.reg.1 x.reg.2) lsb w

/-- Some bits of a source's control register set. -/
def setSrc (s : State) (x : Src) (lsb w v : Nat) : State :=
  s.setReg x.reg.1 x.reg.2 (setBits (s.reg x.reg.1 x.reg.2) lsb w v)

/-- A source is pending (R476). -/
def isPending (s : State) (x : Src) : Bool := srcBits s x 20 1 = 1
/-- A source is in service (R476). -/
def inService (s : State) (x : Src) : Bool := srcBits s x 21 1 = 1

/-- Arrivals at a source, R476: an idle one becomes pending; a pending one adds 1 to COUNT, which saturates. The
second component says that COUNT reached 255. -/
def pend (s : State) (x : Src) : State × Bool :=
  if isPending s x then
    let n := srcBits s x 24 8
    let s := match x with | .shared _ => s.bump pgEVC F.EVC_st_MERGED | .priv _ _ => s
    if n = 255 then (s, false) else (setSrc s x 24 8 (n + 1), n + 1 = 255)
  else (setSrc s x 20 1 1, false)

/-! ### Presentation (R477, R478) -/

/-- The sources with a bit set among the registers that differ from reset, as their numbers. -/
def listedSources (s : State) (p n : Nat) : List Nat :=
  s.regs.filterMap fun (k, v) =>
    let lo := regKey p 0x100
    if lo ≤ k ∧ k < lo + 4 * n ∧ bitsOf v 20 1 = 1 then some ((k - lo) / 4) else none

/-- A shared source whose entry is under way at a core other than `c`: it completes there, so it is never delivered twice (R482). -/
def enteredElsewhere (s : State) (c n : Nat) : Bool :=
  [0, 1, 2, 3].any fun d => d ≠ c && (s.core d).entry = some n

/-- Whether a pending source may be presented to core `c` at level `cl`, whatever the core's state (R477). A source whose
ACTION is 1 presents nothing (R485). -/
def eligible (s : State) (c cl : Nat) (x : Src) : Bool :=
  srcBits s x 6 1 = 1 && isPending s x && !inService s x &&
  (match x with
   | .shared n => srcBits s x 4 2 = c && srcBits s x 8 2 ≠ 1 && !enteredElsewhere s c n
   | .priv d _ => d = c) &&
  s.get pgEVC F.HDR_REQ_MODE = 2 && max cl (s.core c).dtthresh < srcBits s x 0 4 + 1

/-- The source that outranks another: the higher PRIO, then the lower vector (R478). -/
def better (s : State) (a b : Src) : Bool :=
  srcBits s b 0 4 < srcBits s a 0 4 || (srcBits s b 0 4 = srcBits s a 0 4 && a.vector < b.vector)

/-- The source to present to core `c` at level `cl`, if any (R478). -/
def candidate (s : State) (c cl : Nat) : Option Src :=
  ((listedSources s pgEVC 256).map Src.shared ++ (listedSources s (pgCPU c) 32).map (Src.priv c)).foldl
    (fun best x =>
      if eligible s c cl x then
        match best with
        | none => some x
        | some b => if better s x b then some x else best
      else best) none

/-- mstatus.MIE of a core. -/
def coreMie (k : Core) : Bool := k.csr.mstatus.toNat / 8 % 2 = 1

/-- Re-evaluation of presentation for one core (R478 to R480): an idle core resumes on any source presentable with MIE
taken as 1; a running one begins an entry, saving its context in an event frame, or replaces the source of an entry whose
vector fetch has not completed. -/
def present (c : Nat) (s : State) : State :=
  let k := s.core c
  let s := if k.mode = .idle ∧ (candidate s c k.cl).isSome then s.updCore c fun k => { k with mode := .run } else s
  let k := s.core c
  if k.mode ≠ .run ∨ !coreMie k ∨ k.stalled then s
  else match k.entry with
    | none =>
      match candidate s c k.cl with
      | none => s
      | some x =>
        s.updCore c fun k => { k with frames := ⟨k.pc, k.priv, k.cl, x.vector, 0⟩ :: k.frames, priv := .machine,
                                      entry := some x.vector, chaining := false, reserved := none }
    | some v =>
      let base := match k.frames with | f :: _ => f.cl | [] => 0
      match candidate s c base with
      | none => s
      | some x =>
        if better s x (srcOf c v) then
          (s.updCore c fun k => { k with entry := some x.vector,
                                         frames := match k.frames with | f :: t => { f with vector := x.vector } :: t | [] => [] }).bump
            (pgCPU c) F.CPU_st_REPLACED
        else s

/-- Presentation re-evaluated once for every core, and wakes asked for pending sources of a sleeping core (R483). -/
def presentRound (s : State) : State :=
  [0, 1, 2, 3].foldl (fun s c =>
    let k := s.core c
    if k.mode = .sleep ∧ !k.wakeAsked then
      let wakes := ((listedSources s pgEVC 256).map Src.shared).any fun x =>
          srcBits s x 7 1 = 1 && srcBits s x 6 1 = 1 && srcBits s x 4 2 = c
      let wakesP := ((listedSources s (pgCPU c) 32).map (Src.priv c)).any fun x => srcBits s x 7 1 = 1 && srcBits s x 6 1 = 1
      if wakes || wakesP then (s.updCore c fun k => { k with wakeAsked := true }).bump pgEVC F.EVC_st_WAKES else s
    else present c s) s

/-- Presentation re-evaluated for every core (R478). A source that an entry no longer holds may belong to another core by
then (R480, R482) and replace a lower one there, so that four rounds reach every core. -/
def presentAll (s : State) : State := (List.range 4).foldl (fun s _ => presentRound s) s

/-! ### Arrivals and posts from sources (R476, R485) -/

/-- A bit of a page's EVT register set, without its effect on the event controller. -/
def rawEvt (s : State) (p bit : Nat) : State := s.setReg p 0x010 (s.reg p 0x010 ||| BitVec.ofNat 32 (2 ^ bit))

/-- A post put at the tail of the post queue, or none where its 64 entries are used (R490). -/
def enqueue (s : State) (t : Nat) : Option State :=
  if s.tsk.posts.length < 64 then
    some ({ s with tsk := { s.tsk with posts := s.tsk.posts ++ [t] } }.statMax pgTSK F.TSK_st_QPEAK (s.tsk.posts.length + 1))
  else none

/-- The post that an arrival makes under ACTION 1 or 2: posted, or held in the source while the queue is full (R485). -/
def sourcePost (s : State) (n : Nat) : State :=
  let x := Src.shared n
  if srcBits s x 8 2 = 1 ∨ srcBits s x 8 2 = 2 then
    if srcBits s x 22 1 = 1 then s
    else match enqueue s (srcBits s x 10 10) with
      | some s => s.bump pgEVC F.EVC_st_POSTS
      | none => rawEvt (setSrc s x 22 1 1) pgTSK 3
  else s

/-- An arrival at a shared source with its post; events of EVC and TSK it causes are set as bits only. -/
def arriveOnce (n : Nat) (s : State) : State :=
  let s := if 228 ≤ n ∧ n ≤ 235 then s.bump pgEVC F.EVC_st_EXTARR else s
  let (s, sat) := pend (s.bump pgEVC F.EVC_st_ARRIVALS) (.shared n)
  let s := sourcePost s n
  if sat then rawEvt s pgEVC 0 else s

/-- A change made to the state, with the arrival of a level source whose condition it changes from 0 to 1. -/
def rising (src : Nat) (f : State → State) (s : State) : State :=
  let before := levelCond s src
  let s := f s
  if !before && levelCond s src then arriveOnce src s else s

/-- An arrival at a shared source (R476), the arrivals of EVC's and TSK's own sources that follow from it, and the
re-evaluation of presentation. -/
def arrive (n : Nat) (s : State) : State :=
  presentAll (rising pgEVC (rising pgTSK (rising pgEVC (arriveOnce n))) s)

/-- An arrival at a private source of a core. -/
def arrivePriv (c k : Nat) (s : State) : State :=
  let f := fun s => let (s, sat) := pend s (.priv c k); if sat then rawEvt s pgEVC 0 else s
  presentAll (rising pgEVC f s)

/-- An arrival at a source. -/
def arriveSrc : Src → State → State
  | .shared n, s => arrive n s
  | .priv c k, s => arrivePriv c k s

/-- A change of a page's event or enable bits, with the arrival at the page's source that it may cause (R66, R474). -/
def withEvents (p : Nat) (f : State → State) (s : State) : State :=
  let n := pageSource p
  let before := levelCond s n
  let s := f s
  if !before && levelCond s n then arrive n s else s

namespace State

/-- An event bit of a page set (R66), with its arrival at the event controller. -/
def evt (s : State) (p bit : Nat) : State := withEvents p (fun s => rawEvt s p bit) s

/-- An event bit set where a condition holds. -/
def evtIf (s : State) (b : Bool) (p bit : Nat) : State := if b then s.evt p bit else s

end State

/-! ### The scheduler -/

/-- A change made to drawers, running tasks or priorities, with the arrivals at the private source DRAWER of each core
whose condition it changes from 0 to 1 (R475, R486). -/
def withDrawers (f : State → State) (s : State) : State :=
  let before := [0, 1, 2, 3].map (drawerCond s)
  let s := f s
  [0, 1, 2, 3].foldl (fun s c => if !(before.getD c false) && drawerCond s c then arrivePriv c 1 s else s) s

/-- A core is eligible for a task (R488). -/
def coreEligible (s : State) (t : Task) (c : Nat) : Bool :=
  t.affinity.getLsbD c && s.flag (pgCPU c) F.CPU_CFG_DRAWEN &&
  ((s.core c).mode = .run || (s.core c).mode = .idle || (s.core c).mode = .sleep)

/-- The core in which the pseudocode of R488 would place a task: the lowest awake one with an empty drawer, else the lowest
sleeping one, else the one whose drawn task has the lowest priority, if the task outranks it. -/
def placement (s : State) (t : Nat) : Option Nat :=
  let tk := s.task t
  let e := [0, 1, 2, 3].filter (coreEligible s tk)
  let empty := e.filter fun c => (s.core c).drawer.isNone
  match empty.find? fun c => (s.core c).mode ≠ .sleep with
  | some c => some c
  | none =>
    match empty with
    | c :: _ => some c
    | [] =>
      let p := fun c => match (s.core c).drawer with | some d => (s.task d).prio | none => 0
      match e.foldl (fun b c => match b with
          | none => some c
          | some d => if p c ≤ p d then some c else b) (none : Option Nat) with
      | none => none
      | some c => if p c < tk.prio then some c else none

/-- The ready tasks in the order in which R488 considers them: the priority from 31 down, the oldest first within a level. -/
def readyOrder (s : State) : List Nat :=
  ((List.range 32).reverse).flatMap fun p => s.tsk.ready.filter fun t => (s.task t).prio = p

/-- A drawn task returned to the head of its ready level (R487). -/
def undraw (s : State) (c : Nat) : State :=
  match (s.core c).drawer with
  | none => s
  | some t =>
    let s := s.updCore c fun k => { k with drawer := none }
    { s.setTask t { s.task t with mode := .ready } with tsk := { (s.setTask t { s.task t with mode := .ready }).tsk with ready := t :: s.tsk.ready } }

/-- One placement of R488, or none. -/
def placeOnce (s : State) : Option State :=
  ((readyOrder s).findSome? fun t => (placement s t).map fun c => (t, c)).map fun (t, c) =>
    let s := undraw s c
    let s := { s with tsk := { s.tsk with ready := s.tsk.ready.filter (· ≠ t) } }
    (s.setTask t { s.task t with mode := .drawn, core := c }).updCore c fun k => { k with drawer := some t }

/-- Placements repeated until none is left to make. -/
def placeN : Nat → State → State
  | 0, s => s
  | n + 1, s => match placeOnce s with | none => s | some s => placeN n s

/-- A change of the ready lists, drawers, core states or affinities, with the placements of R488 and the changes of DRAWER
that follow. Each of the four drawers can rise through at most 32 priorities, so 136 placements suffice. -/
def scheduling (f : State → State) (s : State) : State := withDrawers (fun s => placeN 136 (f s)) s

/-- A task made READY at the tail of its level. -/
def makeReady (s : State) (t : Nat) : State :=
  let s := s.setTask t { s.task t with mode := .ready }
  { s with tsk := { s.tsk with ready := s.tsk.ready ++ [t] } }

/-- The effect of a drained post on its task (R487). -/
def applyPost (t : Nat) (s : State) : State :=
  let k := s.task t
  if !k.en then (s.bump pgTSK F.TSK_st_BADPOST).evt pgTSK 1
  else match k.mode with
    | .idle => scheduling (makeReady · t) s
    | .delayed =>
      scheduling (fun s => makeReady { s with tsk := { s.tsk with delayed := s.tsk.delayed.filter (·.1 ≠ t) } } t) s
    | .ready | .drawn => s.setTask t { k with postcnt := min 255 (k.postcnt + 1) }
    | .running => s.setTask t { k with postcnt := min 255 (k.postcnt + 1), repost := true }

/-- A withheld write of an agent beside the cores ends, with the fault code it records: a responder's request may go on (R301), a debug
access is over (R577), any other is answered. -/
def writeEnds (a code : Nat) (s : State) : State :=
  let fin := fun (h : HeldItems) => if h.code.isNone then { h with code := some code } else h
  if a = 5 ∧ s.net.cane.held.isSome then { s with net := { s.net with cane := { s.net.cane with held := s.net.cane.held.map fin } } }
  else if a = 6 ∧ s.svc.held.isSome then { s with svc := { s.svc with held := s.svc.held.map fin } }
  else if a = 7 ∧ s.tap.status = 2 then { s with tap := { s.tap with status := 0 } }
  else s.emit .writeDone

/-- The posts that a freed entry lets into the queue: first a withheld write, in order of arrival, then the sound block's slot,
then the sources that hold a post, lowest first (R485, R490). -/
def refill (s : State) : State :=
  match s.tsk.waiting with
  | (t, c) :: rest =>
    (match enqueue { s with tsk := { s.tsk with waiting := rest } } t with
     | some s =>
       match c with
       | some c => if c < 4 then presentAll (s.updCore c fun k => { k with stalled := false }) else writeEnds (c + 1) 0 s
       | none => presentAll s
     | none => s)
  | [] =>
    match s.snd.beatSlot with
    | some t => (enqueue { s with snd := { s.snd with beatSlot := none } } t).getD s
    | none =>
      match (s.time.trig.zipIdx.findSome? fun (x, i) => x.busy.map fun t => (t, i)) with
      | some (t, i) =>
        (enqueue { s with time := { s.time with trig := updAt s.time.trig i fun x => { x with busy := none } } } t).getD s
      | none =>
        match s.regs.find? fun (k, v) => regKey pgEVC 0x100 ≤ k && k < regKey pgEVC 0x500 && bitsOf v 22 1 = 1 with
        | some (k, _) =>
          let n := (k - regKey pgEVC 0x100) / 4
          (match enqueue (setSrc s (.shared n) 22 1 0) (srcBits s (.shared n) 10 10) with
           | some s => s.bump pgEVC F.EVC_st_POSTS
           | none => s)
        | none => s

/-- A post by a write of TSK.POST or dtpost (R490), by the agent of code c + 1: queued, or its handshake withheld, which stalls a writing core. -/
def postTask (t : Nat) (c : Option Nat) (s : State) : State :=
  match enqueue s t with
  | some s => s
  | none =>
    let s := { s with tsk := { s.tsk with waiting := s.tsk.waiting ++ [(t, c)] } }
    let s := match c with | some c => s.updCore c fun k => { k with stalled := true } | none => s
    (s.bump pgTSK F.TSK_st_FULLWAITS).evt pgTSK 3

/-- One post drained from the queue (R490). -/
def drainPost (s : State) : State :=
  match s.tsk.posts with
  | [] => s
  | t :: rest => applyPost t (refill ({ s with tsk := { s.tsk with posts := rest } }.bump pgTSK F.TSK_st_POSTS))

/-- The end of the innermost running task of a core (R486, R487). -/
def endTask (c : Nat) (s : State) : State :=
  match (s.core c).running with
  | [] => s.fault (pgCPU c) 0x40 0 (c + 1)
  | t :: rest =>
    let k := s.task t
    let s := (s.bump pgTSK F.TSK_st_DONES).bump (pgCPU c) F.CPU_st_TASKS
    scheduling (fun s =>
      let s := s.updCore c fun k => { k with running := rest }
      let s := s.setTask t { k with mode := .idle, repost := false, postcnt := 0 }
      if k.repost then makeReady (s.bump pgTSK F.TSK_st_REPOSTS) t else s) s

/-- A read of dttake (R486): the value read, and the state in which the drawer's task runs. -/
def takeTask (c : Nat) (s : State) : State × Nat :=
  match (s.core c).drawer with
  | none => (s, 0)
  | some t =>
    if 8 ≤ (s.core c).running.length then (s, 0)
    else
      (scheduling (fun s =>
        (s.setTask t { s.task t with mode := .running, core := c }).updCore c fun k =>
          { k with drawer := none, running := t :: k.running }) (s.bump pgTSK F.TSK_st_TAKES),
       t + (s.task t).prio * 0x400 + 0x8000)

/-- The delay list with an entry put in its place: sorted by release instant, and by order of entry among equals (R489). -/
def delayInsert (now : Word) (e : Nat × Word) : List (Nat × Word) → List (Nat × Word)
  | [] => [e]
  | h :: t => if stDiff e.2 now < stDiff h.2 now then e :: h :: t else h :: delayInsert now e t

/-- A scheduler tick (R489): every task whose release instant has come becomes READY, in list order. -/
def delayTick (s : State) : State :=
  let now := s.st
  let due := s.tsk.delayed.filter fun e => stPast e.2 now
  due.foldl (fun s e => scheduling (makeReady · e.1) (s.bump pgTSK F.TSK_st_RELEASES))
    { s with tsk := { s.tsk with delayed := s.tsk.delayed.filter fun e => !stPast e.2 now } }

/-- The nanoseconds from now to the next scheduler tick, an FT instant whose nanoseconds are a multiple of 1,000. -/
def toTick (s : State) : Nat := 1000 - (s.time.ft / 65536) % 1000

/-- A write of DELAYGO (R489, R496). -/
def delayGo (a : Nat) (v : Word) (s : State) : State :=
  let t := bitsOf v 0 10
  let time := s.get pgTSK F.TSK_DELAYTIME_TIME
  let abs := bitsOf v 16 1 = 1
  if !abs ∧ (time = 0 ∨ 2 ^ 31 ≤ time) then s.fault pgTSK 0x07 0x064 a
  else if (s.task t).mode ≠ .idle then s.fault pgTSK 0x41 0x064 a
  else
    let r : Word := if abs then BitVec.ofNat 32 time else s.st + BitVec.ofNat 32 (toTick s + (time - 1) * 1000)
    let s := s.setTask t { s.task t with mode := .delayed }
    { s with tsk := { s.tsk with delayed := delayInsert s.st (t, r) s.tsk.delayed } }

/-- A write of CANCEL (R487): a task in IDLE it leaves as it is. -/
def cancelTask (a : Nat) (v : Word) (s : State) : State :=
  let t := bitsOf v 0 10
  if (s.task t).mode = .idle then s
  else if (s.task t).mode ≠ .delayed then s.fault pgTSK 0x41 0x068 a
  else
    let s := s.setTask t { s.task t with mode := .idle }
    { s with tsk := { s.tsk with delayed := s.tsk.delayed.filter (·.1 ≠ t) } }

/-! ### Core states (R473) -/

/-- A core moved to a state that is neither RUN nor IDLE: its drawn task goes back to the ready list (R487). -/
def coreTo (c : Nat) (m : CoreMode) (s : State) : State :=
  scheduling (fun s => undraw (s.updCore c fun k => { k with mode := m }) c) s

/-- A source's service ended (R476, R481): a level source whose condition is still 1 becomes pending. -/
def endService (x : Src) (s : State) : State :=
  let s := setSrc s x 21 1 0
  match x with
  | .shared n => if levelCond s n then setSrc s x 20 1 1 else s
  | .priv c 1 => if drawerCond s c then setSrc s x 20 1 1 else s
  | _ => s

/-- Entry into RESET (R473, R487): frames and service end, the core's tasks are abandoned, and it loses the staging set (R77). -/
def coreReset (c : Nat) (s : State) : State :=
  if (s.core c).mode = .reset then s else
  let k := s.core c
  -- an entry whose vector fetch has not completed put nothing in service
  let served := if k.entry.isSome ∧ !k.chaining then k.frames.drop 1 else k.frames
  let s := served.foldl (fun s f => setSrc s (srcOf c f.vector) 21 1 0) s
  let s := k.running.foldl (fun s t =>
    ((s.setTask t { s.task t with mode := .idle, repost := false, postcnt := 0 }).set pgTSK F.TSK_ABANDON_TASK t).evt pgTSK 0) s
  let s := s.updCore c fun k => { k with frames := [], running := [], entry := none, cl := 0, stalled := false, wakeAsked := false }
  let s := { s with tsk := { s.tsk with waiting := s.tsk.waiting.filter (·.2 ≠ some c) } }
  let s := if s.cmt.owner = c + 1 then ({ s with cmt := { s.cmt with owner := 0 } }).evt pgCMT 4 else s
  coreTo c .reset s

/-- A core leaving RESET for RUN at RESETPC, in machine mode, with its Damten CSRs at reset (R473). -/
def coreStart (c : Nat) (s : State) : State :=
  let pc := s.get (pgCPU c) F.CPU_RESETPCL_RESETPC * 2 + s.get (pgCPU c) F.CPU_RESETPCH_RESETPC * 2 ^ 32
  let s := s.updCore c fun k =>
    { k with mode := .run, pc := BitVec.ofNat 64 pc, priv := .machine, cl := 0, reserved := none, frames := [], entry := none,
             csr := { k.csr with mstatus := k.csr.mstatus &&& ~~~(0x20008 : Dword) },
             dtcfg := false, dtthresh := 0, dtvbase := 0, dttcmp := 0 }
  presentAll (scheduling id (s.evt (pgCPU c) 0))

/-- A core halted at its next instruction boundary (R473). -/
def coreHalt (c : Nat) (s : State) : State := (coreTo c .halt s).evt (pgCPU c) 2

/-- A core woken from SLEEP (R473, R483). -/
def coreWake (c : Nat) (s : State) : State :=
  if (s.core c).mode ≠ .sleep then s.updCore c fun k => { k with wakeAsked := false }
  else
    let h := (s.core c).haltOnWake
    let s := s.updCore c fun k => { k with mode := .run, wakeAsked := false, haltOnWake := false }
    let s := s.evt (pgCPU c) 1
    if h then coreHalt c s else presentAll (scheduling id s)

/-- Whether a domain is on (PMU.DOMEFF, R511). -/
def domainOn (s : State) (d : Nat) : Bool := s.get pgPMU F.PMU_DOMEFF_ON / 2 ^ d % 2 = 1

/-- The mode of REQ in force on a CPU page acting on its core at once (R473, R491). -/
def coreMode (c : Nat) (s : State) : State :=
  let k := s.core c
  match s.get (pgCPU c) F.HDR_REQ_MODE with
  | 0 => coreReset c s
  | 1 => match k.mode with
    | .run | .idle => coreHalt c s
    | .sleep => s.updCore c fun k => { k with haltOnWake := true }
    | _ => s
  | 2 => match k.mode with
    | .reset => if domainOn s (2 + c) ∧ !s.boot.noEntry.getD c false then coreStart c s else s
    | .halt => presentAll (scheduling id (s.updCore c fun k => { k with mode := .run }))
    | .sleep => s.updCore c fun k => { k with haltOnWake := false }
    | _ => s
  | _ => s

end Sys2Proof.Machine
end

