-- ==== Sys2Proof/Machine/Mem.lean ====
section
/-!
DEFINITION. The four memories (R414 to R426): what an address reads, error checking, scan guard windows, MRAM
programs, and the deadline arbiters of the frame store (R427 to R436).
-/
namespace Sys2Proof.Machine
open Sys2Proof

/-! ### Memory as cells -/

/-- What an unlisted byte of SRAM, MRAM or the frame store reads as (DESIGN CHOICE, notes/assumptions/3.md). -/
def unlisted : Byte := 0

/-- The byte at an address. -/
def memGet (m : List Host.Cell) (a : Nat) : Byte := (amGet m a).getD unlisted

/-- Memory with one byte written; a byte that reads as an unlisted one is not listed. -/
def memPut (m : List Host.Cell) (a : Nat) (b : Byte) : List Host.Cell :=
  if b = unlisted then amDel m a else amSet m a b

/-- Memory with bytes written from an address up. -/
def memPutAll : List Host.Cell → Nat → List Byte → List Host.Cell
  | m, _, [] => m
  | m, a, b :: t => memPutAll (memPut m a b) (a + 1) t

/-- The canonical form of memory: addresses rise strictly, and no byte listed reads as an unlisted one does. -/
def Memory.wf (m : List Host.Cell) : Bool := amSorted m && m.all fun c => decide (c.2 ≠ unlisted)

/-- `n` bytes from an address up. -/
def memBytes (m : List Host.Cell) (a n : Nat) : List Byte := (List.range n).map fun k => memGet m (a + k)

/-! ### The address map (R5, R6) -/

/-- The page index of an address in the page window (R5, R7). -/
def pageIndexAt (a : Nat) : Nat := a / 0x1000 % 0x40000

/-- The ranges of the physical address space (R5). -/
inductive Region where
  | rom | sram | mram | page | fs | hole
  deriving DecidableEq, Repr

/-- The range an address lies in (R5). -/
def region (a : Nat) : Region :=
  if a ≤ 0x3FFFF then .rom
  else if 0x10000000 ≤ a ∧ a ≤ 0x107FFFFF then .sram
  else if 0x20000000 ≤ a ∧ a ≤ 0x20FFFFFF then .mram
  else if 0x40000000 ≤ a ∧ a ≤ 0x40FFFFFF then .page
  else if 0x100000000 ≤ a ∧ a ≤ 0x107FFFFFF then .fs
  else .hole

abbrev sramBase : Nat := 0x10000000
abbrev mramBase : Nat := 0x20000000
abbrev fsBase : Nat := 0x100000000
/-- The offset of an address in the 16 MiB of the MRAM. -/
def mramOffset (a : Nat) : Nat := a % 0x1000000
/-- The offset of an address in the 128 MiB of the frame store. -/
def fsOffset (a : Nat) : Nat := a % 0x8000000

/-- Who makes an access: its agent code (R74), its requester port (R427), its writer code for a scan guard window (R124)
and, for an ingress converter, the veneer it writes for. -/
structure Who where
  agent : Nat
  port : Nat
  writer : Nat
  veneer : Option Nat := none
  deriving DecidableEq, Repr

/-- The requester of an agent code (R427, R437): a core's port, the Cane responder's, the ROM's port 18, or port 23. -/
def agentWho (a : Nat) : Who :=
  ⟨a, if 1 ≤ a ∧ a ≤ 4 then 17 + a else if a = 5 then 13 else if a = 8 then 18 else 23, a, none⟩

/-- DMA channel `ch` carrying an agent's code. -/
def dmaWho (ch a : Nat) : Who := ⟨a, 16 + ch / 16, 0x20 + ch, none⟩

/-- The frame store answers: FSTO is on and the DRAM does not self-refresh (R437). -/
def fsUp (s : State) : Bool := domainOn s 8 && s.get pgPMU F.PMU_STATE ≠ 2

/-! ### Error checking (R417, R418, R420, R438) -/

/-- An error of an ECC word recorded on FS (R438). -/
def recordErr (unc sram : Bool) (source word : Nat) (s : State) : State :=
  let had := s.flag pgFS F.FS_ERRSTAT_VALID && s.flag pgFS F.FS_ERRSTAT_UNC
  let s := if had then s else
    let s := (s.set pgFS F.FS_ERRSTAT_VALID 1).set pgFS F.FS_ERRSTAT_UNC unc.toNat
    let s := (s.set pgFS F.FS_ERRSTAT_MEM sram.toNat).set pgFS F.FS_ERRSTAT_SOURCE source
    (s.set pgFS F.FS_ERRADDR_OFFSET (word * 8 - (if sram then sramBase else fsBase))).set pgFS F.FS_ERRST_ST s.st.toNat
  let s := if unc ∧ !had then s.fault pgFS 0x40 0x04C 0 else s
  s.evt pgFS (if unc then 1 else 0)

/-- A read that met an uncorrectable error counted (R417, R420, R438). -/
def countUnc (sram : Bool) (s : State) : State := s.bump pgFS (if sram then F.FS_st_SRAMUNC else F.FS_st_UNCORR)

/-- One ECC word of SRAM or the frame store checked as a read does (R417): a single error is corrected, counted and written back; more
give an error response, which the read as a whole counts. -/
def checkWord (w : Who) (sram : Bool) (word : Nat) (s : State) : State × Bool :=
  match amGet s.mm.ecc word with
  | none => (s, true)
  | some n =>
    let src := if sram then w.agent else w.port
    if n ≤ 1 then
      let s := { s with mm := { s.mm with ecc := amDel s.mm.ecc word } }
      (recordErr false sram src word (s.bump pgFS (if sram then F.FS_st_SRAMCORR else F.FS_st_CORR)), true)
    else (recordErr true sram src word s, false)

/-- The ECC words that `n` bytes from an address cover. -/
def wordsOf (a n : Nat) : List Nat :=
  if n = 0 then [] else (List.range ((a + n - 1) / 8 - a / 8 + 1)).map (a / 8 + ·)

/-- The 64-byte bursts that `n` bytes from an address cover (R415). -/
def burstsOf (a n : Nat) : List Nat :=
  if n = 0 then [] else (List.range ((a + n - 1) / 64 - a / 64 + 1)).map (a / 64 + ·)

/-- The ECC words of one read checked; a read with an uncorrectable error counts once (R438). -/
def checkRead (w : Who) (sram : Bool) (words : List Nat) (s : State) : State × Bool :=
  let (s, ok) := words.foldl (fun (s, ok) x => let (s, k) := checkWord w sram x s; (s, ok && k)) (s, true)
  (if ok then s else countUnc sram s, ok)

/-- Every ECC word that a read checks: in SRAM those that it covers (R420), in the frame store all of each of its bursts, each of them a
read (R415, R417). -/
def checkWords (w : Who) (sram : Bool) (a n : Nat) (s : State) : State × Bool :=
  if sram then checkRead w true (wordsOf a n) s
  else (burstsOf a n).foldl (fun (s, ok) b => let (s, k) := checkRead w false (wordsOf (64 * b) 64) s; (s, ok && k)) (s, true)

/-! ### MRAM (R421 to R425) -/

/-- One MRAM codeword read: up to 3 bits in error are corrected, more give a bus error (R422). -/
def checkCodeword (cw : Nat) (s : State) : State × Bool :=
  match amGet s.mm.mramErr cw with
  | none => (s, true)
  | some n =>
    if n ≤ 3 then (s.bump pgNVM F.NVM_st_CORR, true)
    else
      let s := (s.bump pgNVM F.NVM_st_UNCORR).set pgNVM F.NVM_ERRADDR_OFFSET (cw * 32)
      (((s.set pgNVM F.NVM_ERRST_ST s.st.toNat).fault pgNVM 0x41 0x050 0).evt pgNVM 1, false)

/-- The area of an MRAM offset (R421): 0 code, 1 bench, 2 and 3 settings, 4 show and profile data, 5 boot records. -/
def mramArea (off : Nat) : Nat :=
  if off < 0x600000 then 0 else if off < 0xC00000 then 1 else if off < 0xC80000 then 2
  else if off < 0xD00000 then 3 else if off < 0xFC0000 then 4 else 5

/-- The agents that may program an area (R421). -/
def mayProgram (agent area : Nat) : Bool :=
  match area with
  | 0 => agent = 8
  | 1 => agent = 6 || agent = 8
  | 5 => agent = 8
  | _ => (1 ≤ agent && agent ≤ 6) || agent = 8

/-- A program put in progress (R423). -/
def startProg (p : NvmProg) (s : State) : State :=
  { s with mm := { s.mm with prog := some p } }.set pgNVM F.NVM_STAT_BUSY 1

/-- A write of the device's own to the boot records: it queues behind a program in progress (R424). -/
def internalProg (off : Nat) (b : List Byte) (s : State) : State :=
  match s.mm.prog with
  | none => startProg ⟨off, b, 0, true⟩ s
  | some _ => { s with mm := { s.mm with progQ := s.mm.progQ ++ [⟨off, b, 0, true⟩] } }

/-- The codewords of a program. -/
def NvmProg.words (p : NvmProg) : List Nat :=
  ((List.range (p.data.length / 32 + 2)).map (p.off / 32 + ·)).filter fun c => c * 32 < p.off + p.data.length

/-- A codeword in which a program begins or ends is read and merged (R423). Where that read is uncorrectable, the bytes that the program leaves are
free values (DESIGN CHOICE, notes/assumptions/119.md). -/
def mergeCodeword (p : NvmProg) (s : State) (c : Nat) : State :=
  if p.off ≤ c * 32 ∧ c * 32 + 32 ≤ p.off + p.data.length then s
  else match checkCodeword c s with
    | (s, true) => s
    | (s, false) =>
      ((List.range 32).filter fun k => c * 32 + k < p.off || p.off + p.data.length ≤ c * 32 + k).foldl (fun s k =>
        let (s, v) := s.free
        { s with mem := memPutAll s.mem (mramBase + c * 32 + k) [v.setWidth 8] }) s

/-- The end of the program in progress (R423): the codewords that it covers in part are merged, its bytes are in place, its codewords are free of
error, and the next queued program begins. -/
def nvmDone (s : State) : State :=
  match s.mm.prog with
  | none => s
  | some p =>
    let s := p.words.foldl (mergeCodeword p) s
    let s := { s with mem := memPutAll s.mem (mramBase + p.off) p.data,
                      mm := { s.mm with prog := none, mramErr := p.words.foldl amDel s.mm.mramErr } }
    let s := s.set pgNVM F.NVM_STAT_BUSY 0
    let s := if p.internal then s.bump pgNVM F.NVM_st_INTERNAL else (s.bump pgNVM F.NVM_st_PROGS).set pgNVM F.NVM_STAT_RESULT 1
    let s := s.evt pgNVM 0
    match s.mm.progQ with
    | [] => s
    | q :: t => startProg q { s with mm := { s.mm with progQ := t } }

/-- Every program in progress or queued carried to its end. -/
def finishProgs : Nat → State → State
  | 0, s => s
  | n + 1, s => if s.mm.prog.isSome then finishProgs n (nvmDone s) else s

/-- The device's own programs and any other carried to their end. -/
def progsEnd (s : State) : State := finishProgs (s.mm.progQ.length + 1) s

/-- A read of addresses that the program in progress covers is held until it ends (R425), and until any queued one ends that then covers them. -/
def mramHold (off n : Nat) : Nat → State → State
  | 0, s => s
  | k + 1, s =>
    match s.mm.prog with
    | some p => if p.off < off + n ∧ off < p.off + p.data.length then mramHold off n k (nvmDone s) else s
    | none => s

/-- A read of MRAM (R422, R425). -/
def mramRead (off n : Nat) (s : State) : State × Option (List Byte) :=
  if !domainOn s 9 then (s, none)
  else
    let s := mramHold off n (s.mm.progQ.length + 1) s
    let cws := if n = 0 then [] else (List.range ((off + n - 1) / 32 - off / 32 + 1)).map (off / 32 + ·)
    let (s, ok) := cws.foldl (fun (s, ok) c => let (s, k) := checkCodeword c s; (s, ok && k)) (s, true)
    (s, if ok then some (memBytes s.mem (mramBase + off) n) else none)

/-- A refused command (R423). -/
def nvmRefuse (result code a : Nat) (s : State) : State :=
  let s := s.bump pgNVM F.NVM_st_REFUSED
  let s := if result = 0 then s else s.set pgNVM F.NVM_STAT_RESULT result
  s.fault pgNVM code 0x048 a

/-- A write of NVM.CMD (R423, R439). -/
def nvmCmd (a : Nat) (v : Word) (s : State) : State :=
  let prog := bitsOf v 0 1 = 1
  let zero := bitsOf v 1 1 = 1
  let off := s.get pgNVM F.NVM_ADDR_OFFSET
  let len := s.get pgNVM F.NVM_LEN
  if prog ∧ zero then s.fault pgNVM 0x01 0x048 a
  else if !prog ∧ !zero then s
  else if !domainOn s 9 ∨ s.mm.prog.isSome then nvmRefuse 0 0x43 a s
  else if len = 0 ∨ 256 < len ∨ 0x1000000 < off + len ∨ mramArea off ≠ mramArea (off + len - 1) then nvmRefuse 2 0x07 a s
  else if !mayProgram a (mramArea off) then nvmRefuse 3 0x40 a s
  else if s.get pgNVM F.NVM_STAT_BUFAGENT ≠ 0 ∧ s.get pgNVM F.NVM_STAT_BUFAGENT ≠ a then nvmRefuse 4 0x42 a s
  else
    let data := if zero then List.replicate len 0 else (List.range len).map fun k => (amGet s.mm.nvmBuf k).getD 0
    startProg ⟨off, data, a, false⟩ (s.set pgNVM F.NVM_STAT_AGENT a)

/-- A write of a word of the NVM buffer (R424). -/
def nvmBufWrite (a off : Nat) (v : Word) (s : State) : State :=
  if s.mm.prog.isSome then s.fault pgNVM 0x43 off a
  else
    let put := fun (m : List (Nat × Byte)) (k : Nat) => let b := BitVec.ofNat 8 (v.toNat / 256 ^ k)
                                       let i := off - 0xC00 + k
                                       if b = 0 then amDel m i else amSet m i b
    { s with mm := { s.mm with nvmBuf := [0, 1, 2, 3].foldl put s.mm.nvmBuf } }.set pgNVM F.NVM_STAT_BUFAGENT a

/-! ### Reads and writes of memory -/

/-- The scan guard windows that a write of `n` bytes at a frame-store offset hits (R123, R124); an ingress converter is exempt
from the window of the veneer it writes for. -/
def guardHits (s : State) (w : Who) (off n : Nat) : List Nat :=
  (List.range 16).filter fun v =>
    let (lo, hi) := match s.get (pgVEN v) F.VEN_GUARD_KIND with
      | 1 => (s.get (pgVEN v) F.VEN_GBASE_OFFSET, s.get (pgVEN v) F.VEN_GLIMIT_OFFSET)
      | 2 => ((s.vens.getD v {}).window).getD (0, 0)
      | _ => (0, 0)
    w.veneer ≠ some v && off < hi && lo < off + n && lo < hi

/-- A write tested against every window (R124): each hit is recorded, and the write is blocked where a window it hits has ACTION
BLOCK and the writer is one that a window may block. -/
def guarded (w : Who) (off n : Nat) (s : State) : State × Bool :=
  let hits := guardHits s w off n
  let may := (1 ≤ w.writer && w.writer ≤ 8) || (0x20 ≤ w.writer && w.writer ≤ 0x3F) || (0x40 ≤ w.writer && w.writer ≤ 0x42)
  let block := may && hits.any fun v => s.flag (pgVEN v) F.VEN_GUARD_ACTION
  (hits.foldl (fun s v =>
     let p := pgVEN v
     let s := ((s.bump p F.VEN_st_GHITS).set p F.VEN_GHIT_WRITER w.writer).set p F.VEN_GHIT_BLOCKED block.toNat
     ((s.set p F.VEN_GHITADDR_OFFSET off).set p F.VEN_GHITST_ST s.st.toNat).evt p 1) s, block)

/-- Whether a write of `n` bytes at a frame-store offset falls into the state area of the colour engine, which that engine alone
writes (R150). -/
def stateArea (s : State) (w : Who) (off n : Nat) : Bool :=
  let base := s.get pgCOL F.COL_STATEBASE_OFFSET
  w.writer ≠ 0x43 && base < off + n && off < base + 32 * s.get pgCOL F.COL_NINST

/-- Whether the `n` bytes from an address lie in one range. -/
def inRange (r : Region) (a n : Nat) : Bool := region a = r && (n = 0 || region (a + n - 1) = r)

/-- The channel of a frame-store offset, and with it the arbiter that serves it (R415). -/
def chanOf (off : Nat) : Nat := off / 4096 % 2

/-- The bursts of a block's own access to the frame store, each granted by the arbiter of its channel in the round in which it is presented (R415, R427,
R441; DESIGN CHOICE, notes/assumptions/120.md). -/
def ownGrants (w : Who) (a n : Nat) (s : State) : State :=
  if inRange .fs a n && fsUp s then
    (burstsOf a n).foldl (fun s b =>
      let p := pgARB (chanOf (64 * b))
      (s.bump p F.ARB_st_GRANTS).bump p F.ARB_st_P_GRANTS 1 w.port) s
  else s

/-- A read of `n` bytes of memory (R5, R417, R420, R422); none is an error response. The register window is not memory. -/
def rdMem (w : Who) (a n : Nat) (s : State) : State × Option (List Byte) :=
  if inRange .rom a n then (s, some ((List.range n).map fun k => Config.romByte (a + k)))
  else if inRange .sram a n then
    let (s, ok) := checkWords w true a n s
    (s, if ok then some (memBytes s.mem a n) else none)
  else if inRange .mram a n then mramRead (mramOffset a) n s
  else if inRange .fs a n then
    if !fsUp s then (s, none)
    else
      let (s, ok) := checkWords w false a n s
      (s, if ok then some (memBytes s.mem a n) else none)
  else (s, none)

/-- A read of memory by a block or an agent of the node. -/
def rd (w : Who) (a n : Nat) (s : State) : State × Option (List Byte) := rdMem w a n (ownGrants w a n s)

/-- The armed injection placed by a write of its ECC word (R437). -/
def injectOn (a n : Nat) (s : State) : State :=
  match s.mm.inject with
  | none => s
  | some i =>
    if (wordsOf a n).contains i.word then
      { s with mm := { s.mm with inject := none, ecc := amSet s.mm.ecc i.word (if i.double then 2 else 1) } }
    else s

/-- The end words of a write that covers only part of them are read, checked and merged (R418); whole words receive new check bits. -/
def mergeWords (w : Who) (sram : Bool) (a n : Nat) (s : State) : State × Bool :=
  (wordsOf a n).foldl (fun (s, ok) x =>
    if a ≤ x * 8 ∧ x * 8 + 8 ≤ a + n then (s, ok)
    else
      let s := s.bump pgFS F.FS_st_RMW
      let (s, k) := checkRead w sram [x] s
      (s, ok && k)) (s, true)

/-! ### The configured instances (R137) -/

/-- Instance `i` is configured (R137), by the registers in force and what the frame store holds. -/
def configured (s : State) (i : Nat) : Bool :=
  let a := fsBase + s.get pgCOL F.COL_INSTBASE_OFFSET + 64 * i
  i < s.get pgCOL F.COL_NINST && (memGet s.mem (a + 1)).getLsbD 0 && s.get pgCOL F.COL_DIR_WORD (memGet s.mem a).toNat % 2 = 1

/-- Instances looked at again: one that becomes configured is noted with the present FT. -/
def confNote (l : List Nat) (s : State) : State :=
  { s with mm := { s.mm with conf := l.foldl (fun c i =>
      if !configured s i then amDel c i else if (amGet c i).isSome then c else amSet c i s.time.ft) s.mm.conf } }

/-- The instances whose records `n` bytes at a frame-store offset touch. -/
def confTouched (s : State) (off n : Nat) : List Nat :=
  let b := s.get pgCOL F.COL_INSTBASE_OFFSET
  (List.range ((off + n - 1 - b) / 64 + 1 - (off - b) / 64)).filterMap fun k =>
    let i := (off - b) / 64 + k
    if b < off + n ∧ i < s.get pgCOL F.COL_NINST then some i else none

/-- A core's reservation is lost when any agent writes into its granule (R469). -/
def breakReservations (a n : Nat) (s : State) : State :=
  { s with cores := s.cores.map fun k => match k.reserved with
      | some g => if n ≠ 0 ∧ a / 64 ≤ g ∧ g ≤ (a + n - 1) / 64 then { k with reserved := none } else k
      | none => k }

/-- A write of bytes that lie in SRAM or in one burst of the frame store (R5, R6, R418, R420, R424); false is an error response with
nothing written. -/
def wrBurst (w : Who) (a : Nat) (b : List Byte) (s : State) : State × Bool :=
  let n := b.length
  let sram := inRange .sram a n
  if sram || (inRange .fs a n && fsUp s) then
    let (s, blocked) := if sram then (s, false) else guarded w (fsOffset a) n s
    if blocked || (!sram && stateArea s w (fsOffset a) n) then (s, false)
    else
      let (s, ok) := mergeWords w sram a n s
      if !ok then (s, false)
      else
        let s := { s with mem := memPutAll s.mem a b, mm := { s.mm with ecc := (wordsOf a n).foldl amDel s.mm.ecc } }
        let s := breakReservations a n (injectOn a n s)
        (if sram then s else confNote (confTouched s (fsOffset a) n) s, true)
  else (s, false)

/-- A write of bytes to memory; in the frame store it goes burst by burst (R415), and each burst answers for itself: false says that one
of them answered with an error. -/
def wrMem (w : Who) (a : Nat) (b : List Byte) (s : State) : State × Bool :=
  if inRange .fs a b.length then
    (burstsOf a b.length).foldl (fun (s, ok) k =>
      let lo := max a (64 * k)
      let (s, x) := wrBurst w lo (slice b (lo - a) (min (a + b.length) (64 * k + 64) - lo)) s
      (s, ok && x)) (s, true)
  else wrBurst w a b s

/-- A write of memory by a block or an agent of the node. -/
def wr (w : Who) (a : Nat) (b : List Byte) (s : State) : State × Bool := wrMem w a b (ownGrants w a b.length s)

/-- A write whose error response nothing follows. -/
def wr' (w : Who) (a : Nat) (b : List Byte) (s : State) : State := (wr w a b s).1

/-- The 32-bit word that memory holds at an address, least significant byte first. -/
def rdWord (w : Who) (a : Nat) (s : State) : State × Option Nat :=
  let (s, b) := rd w a 4 s
  (s, b.map leVal)

/-! ### The FS page's commands (R419, R437) -/

/-- A write of FS.INJECT: it arms one error for the next write of the word at INJADDR, in place of any armed before (R437). -/
def fsInject (v : Word) (s : State) : State :=
  if bitsOf v 0 1 = 0 then s
  else
    let sram := bitsOf v 2 1 = 1
    let off := s.get pgFS F.FS_INJADDR_OFFSET
    let word := if sram then sramBase / 8 + off % 2 ^ 20 else fsBase / 8 + off
    { s with mm := { s.mm with inject := some ⟨bitsOf v 1 1 = 1, sram, word⟩ } }

/-- A write of FS.ERRCLR (R437). -/
def errClr (v : Word) (s : State) : State :=
  if bitsOf v 0 1 = 0 then s else ((s.setReg pgFS 0x04C 0).setReg pgFS 0x050 0).setReg pgFS 0x054 0

/-- One read of the patrol scrubber (R419): the next ECC word is corrected, or its error recorded and left in place. -/
def scrubRead (s : State) : State :=
  if !s.flag pgFS F.FS_SCRUB_EN ∨ !fsUp s then s
  else
    let i := s.mm.scrub
    let w : Who := ⟨0, 23, 0, none⟩
    let (s, _) := checkRead w false [fsBase / 8 + i] (ownGrants w (fsBase + 8 * i) 8 s)
    let j := (i + 1) % 2 ^ 24
    let s := { s with mm := { s.mm with scrub := j } }
    if j = 0 then s.bump pgFS F.FS_st_SCRUBPASS else s

/-! ### The deadline arbiters (R427 to R436) -/

/-- Arbiter `i` changed. -/
def updArb (s : State) (i : Nat) (f : Arb → Arb) : State := { s with mm := { s.mm with arb := updAt s.mm.arb i f } }
/-- Arbiter `i`. -/
def arbOf (s : State) (i : Nat) : Arb := s.mm.arb.getD i {}
/-- What arbiter `i` holds for a port. -/
def arbPort (s : State) (i p : Nat) : ArbPort := (arbOf s i).ports.getD p {}
/-- A port of an arbiter changed. -/
def updArbPort (s : State) (i p : Nat) (f : ArbPort → ArbPort) : State :=
  updArb s i fun a => { a with ports := updAt a.ports p f }

/-- The default budget of a class (R429, R440). -/
def arbBudget (s : State) (i c : Nat) : Nat :=
  match c with
  | 0 => s.get (pgARB i) F.ARB_BUDGET0_NS
  | 1 => s.get (pgARB i) F.ARB_BUDGET1_NS
  | 2 => s.get (pgARB i) F.ARB_BUDGET2_NS
  | _ => s.get (pgARB i) F.ARB_BUDGET3_NS

/-- The burst of a request. -/
def ArbReq.burst (r : ArbReq) : Nat := r.off / 64

/-- A request that waits when a later one of its port to its burst reaches the arbiter: it takes the nearer of the two deadlines, and keeps
it (R430). -/
def ArbReq.near (r q : ArbReq) : ArbReq :=
  if q.port = r.port ∧ q.burst = r.burst ∧ !q.loose ∧ stLater q.deadline r.deadline then { q with deadline := r.deadline } else q

/-- A request takes part from the next round on (R428, R436). -/
def arbPresent (i : Nat) (r : ArbReq) (s : State) : State :=
  updArb s i fun a => { a with queue := a.queue.map r.near, fresh := a.fresh.map r.near ++ [r] }

/-- A request takes a pending entry (R431). -/
def arbEnqueue (i : Nat) (r : ArbReq) (s : State) : State :=
  let s := updArb s i fun a => { a with queue := a.queue.map r.near ++ [r] }
  s.statMax (pgARB i) F.ARB_st_PENDPEAK (arbOf s i).queue.length

/-- Whether port `p` may take a pending entry (R431); a request that is to take one if its round does not grant it counts. -/
def mayPend (s : State) (i p : Nat) : Bool :=
  let q := (arbOf s i).queue ++ (arbOf s i).fresh.filter fun r => !r.fore
  let mine := (q.filter (·.port = p)).length
  let free := 64 - q.length
  mine < s.get (pgARB i) F.ARB_PORT_MAXPEND p && (if s.flag (pgARB i) F.ARB_PORT_RESV p then 0 < free else 4 < free)

/-- A request whose handshake is withheld until an entry frees (R431). -/
def arbWithhold (i : Nat) (r : ArbReq) (s : State) : State :=
  ((updArbPort s i r.port fun k => { k with held := some r }).bump (pgARB i) F.ARB_st_PENDFULL).evt (pgARB i) 1

/-- The request that a port presents, arriving now (R428, R429): it has its own deadline, or now plus its class's budget. -/
def arbMade (i p off len : Nat) (data : Option (List Byte)) (dl : Option Word) (tag : Nat) (s : State) : ArbReq :=
  { port := p, off := off, len := len, data := data, own := dl.isSome, arrival := s.st, tag := tag, fore := s.flag (pgARB i) F.ARB_PORT_FORERUNNER p,
    deadline := dl.getD (s.st + BitVec.ofNat 32 (arbBudget s i (s.get (pgARB i) F.ARB_PORT_CLASS p))) }

/-- The domain of a port's requester is on (R427, R435); port 22 is that of both output domains. -/
def portOn (s : State) (p : Nat) : Bool :=
  match p with
  | 0 => domainOn s 12 | 1 => domainOn s 13 | 2 | 4 | 5 | 6 | 7 => domainOn s 6 | 3 => domainOn s 7
  | 8 | 11 | 12 | 13 => domainOn s 10 | 9 | 10 => domainOn s 11 | 14 => domainOn s 14 | 15 => domainOn s 15
  | 18 | 19 | 20 | 21 => domainOn s (p - 16)
  | 22 => domainOn s 12 || domainOn s 13
  | _ => true

/-- A port cannot present a request: it is masked or its domain is off (R435), an entry still withholds its last one (R431), or, in forerunner mode,
its last one has not been granted (R434). -/
def portBusy (s : State) (i p : Nat) : Bool :=
  let k := arbPort s i p
  s.flag (pgARB i) F.ARB_PORT_MASKED p || !portOn s p || k.held.isSome || k.parked.isSome || (arbOf s i).fresh.any fun r => r.fore && r.port = p

/-- A port presents a burst request (R428, R429, R431): its handshake is withheld where it finds no entry it may take, which a forerunner
needs not (R434). -/
def arbRequest (i p off len : Nat) (data : Option (List Byte)) (dl : Option Word) (tag : Nat) (s : State) : State :=
  if portBusy s i p then s
  else
    let r := arbMade i p off len data dl tag s
    if r.fore ∨ mayPend s i p then arbPresent i r s else arbWithhold i r s

/-- The requests that take part in a round, with the same-burst order of R430: a later request of one port to one burst is not
eligible while an earlier one waits, but for an order that a mask has cleared (R435). -/
def arbRanked : List ArbReq → List ArbReq
  | [] => []
  | r :: t => r :: (arbRanked t).filter fun q => r.loose || !(q.port = r.port && q.burst = r.burst)

/-- Whether request `a` outranks `b` at `now` (R428): the smaller k, then the lower class, then the lower port, then the first. -/
def arbBefore (s : State) (i : Nat) (now : Word) (a b : ArbReq) : Bool :=
  let ka := stDiff a.deadline now
  let kb := stDiff b.deadline now
  let ca := s.get (pgARB i) F.ARB_PORT_CLASS a.port
  let cb := s.get (pgARB i) F.ARB_PORT_CLASS b.port
  ka < kb || (ka = kb && (ca < cb || (ca = cb && a.port < b.port)))

/-- The request that a round grants: the oldest of the lowest reserved port whose wait has reached RESVINT (R432), else the first
in the ranking of R428. -/
def arbWinner (s : State) (i : Nat) (rs : List ArbReq) : Option ArbReq :=
  let due := fun p => s.flag (pgARB i) F.ARB_PORT_RESV p && s.get (pgARB i) F.ARB_RESVINT_ROUNDS ≤ (arbPort s i p).waited
  match (List.range 24).find? fun p => due p && rs.any (·.port = p) with
  | some p => rs.find? (·.port = p)
  | none =>
    rs.foldl (fun b r => match b with
      | none => some r
      | some x => if arbBefore s i s.st r x then some r else some x) none

/-- A request not granted in its round (R431, R434): presented in forerunner mode it waits for its RETRY, else it moves into the pending queue, whose
entry it found free as it was presented. -/
def arbLeft (i : Nat) (s : State) (r : ArbReq) : State :=
  let p := r.port
  if r.fore then
    let n := (arbPort s i p).retry
    ((updArbPort s i p fun k => { k with parked := some r, sitOut := n, retry := min 128 (n * 2) }).bump (pgARB i)
      F.ARB_st_P_RETRIES 1 p).emit (.retry p n)
  else arbEnqueue i r s

/-- The writer code of a request (R124), by its port; the tag names the requester behind the port where there are several: a DMA channel of
16, an ingress converter's veneer, the agent at port 23. -/
def arbWriter (port tag : Nat) : Nat :=
  if port = 2 ∨ port = 3 then 0x42
  else if port = 7 then 0x43
  else if port = 8 then 0x40
  else if port = 9 ∧ tag < 16 then 0x41
  else if port = 13 then 5
  else if port = 16 ∨ port = 17 then 0x20 + 16 * (port - 16) + tag % 16
  else if 18 ≤ port ∧ port ≤ 21 then port - 17
  else if port = 23 ∧ (tag = 6 ∨ tag = 7) then tag
  else 0

/-- The burst of a granted request moves (R428, R431): a write's bytes reach the frame store, a read's data returns with its tag. A blocked
write of an agent or a DMA channel is answered with a bus error; any other is discarded (R124). -/
def arbMove (r : ArbReq) (s : State) : State :=
  let code := arbWriter r.port r.tag
  let w : Who := ⟨0, r.port, code, if code = 0x40 ∨ code = 0x41 then some (r.tag % 16) else none⟩
  match r.data with
  | some b => let (s, ok) := wrMem w (fsBase + r.off) b s; s.emit (if ok ∨ 0x40 ≤ code then .writeDone else .busError)
  | none =>
    let (s, b) := rdMem w (fsBase + r.off) r.len s
    s.emit (match b with | some b => .memData r.tag b | none => .busError)

/-- The request that ranks first of those whose handshake is withheld and whose port may take an entry (R504). -/
def arbWaiter (s : State) (i : Nat) : Option ArbReq :=
  ((List.range 24).filterMap fun q => (arbPort s i q).held).foldl (fun b r =>
    if !mayPend s i r.port then b
    else match b with
      | none => some r
      | some x => if arbBefore s i s.st r x then some r else some x) none

/-- Entries that have freed go to the requests that wait for one, at most one to a port (R504). -/
def arbAdmit (i : Nat) : Nat → State → State
  | 0, s => s
  | n + 1, s =>
    match arbWaiter s i with
    | none => s
    | some r => arbAdmit i n (arbEnqueue i r (updArbPort s i r.port fun k => { k with held := none }))

/-- One arbitration round of arbiter `i` (R428 to R434). -/
def arbRound (i : Nat) (s : State) : State :=
  let a := arbOf s i
  let rs := arbRanked (a.queue ++ a.fresh)
  match arbWinner s i rs with
  | none => s
  | some r =>
    let p := r.port
    let gone := fun q : ArbReq => q.port = r.port ∧ q.off = r.off ∧ q.tag = r.tag ∧ q.arrival = r.arrival
    let inQ := a.queue.any fun q => decide (gone q)
    let left := if inQ then a.fresh else a.fresh.eraseP fun q => decide (gone q)
    let s := updArb s i fun a => { a with queue := a.queue.eraseP fun q => decide (gone q), fresh := [] }
    -- waits towards reserved grants, and the round counted by every port that sits out
    let waiting := fun q => (rs.any fun x => x.port = q) && decide (q ≠ p)
    let s := (List.range 24).foldl (fun s q => updArbPort s i q fun k =>
      { k with waited := if waiting q then k.waited + 1 else 0, sitOut := k.sitOut - 1 }) s
    let s := updArbPort s i p fun k => { k with retry := 1 }
    let wait := (s.st - r.arrival).toNat
    let s := ((s.bump (pgARB i) F.ARB_st_GRANTS).bump (pgARB i) F.ARB_st_P_GRANTS 1 p).statMax (pgARB i) F.ARB_st_P_MAXWAIT wait p
    let missed := r.own && stPast r.deadline s.st && r.deadline ≠ s.st
    let s := if missed then ((s.bump (pgARB i) F.ARB_st_DLMISS).bump (pgARB i) F.ARB_st_P_DLMISS 1 p).evt (pgARB i) 0 else s
    let s := arbMove r s
    let s := left.foldl (arbLeft i) s
    arbAdmit i 24 s

/-- A forerunner request presented again once its rounds have passed (R434). -/
def arbRepresent (i p : Nat) (s : State) : State :=
  let k := arbPort s i p
  match k.parked with
  | some r =>
    if k.sitOut = 0 ∧ !s.flag (pgARB i) F.ARB_PORT_MASKED p then
      arbPresent i r (updArbPort s i p fun k => { k with parked := none })
    else s
  | none => s

/-- A port's mask set or cleared by the power controller (R435): its reads that wait are discarded, its writes stay. -/
def maskPort (i p : Nat) (on : Bool) (s : State) : State :=
  let was := s.flag (pgARB i) F.ARB_PORT_MASKED p
  let s := s.set (pgARB i) F.ARB_PORT_MASKED on.toNat p
  if !on ∨ was then s
  else
    let drop := ((arbOf s i).queue ++ (arbOf s i).fresh).filter fun r => r.port = p ∧ r.data.isNone
    let keep := fun (l : List ArbReq) => (l.filter fun r => !(decide (r.port = p) && r.data.isNone)).map fun r =>
      if r.port = p then { r with loose := true } else r
    let s := updArb s i fun a => { a with queue := keep a.queue, fresh := keep a.fresh }
    let s := updArbPort s i p fun k => { k with retry := 1, sitOut := 0, parked := none, held := none }
    -- an entry that frees here goes to a request that waits for one once those presented before it have been decided (R430)
    (if (arbOf s i).fresh.isEmpty then arbAdmit i 24 else id) (if drop.isEmpty then s else (s.bump (pgARB i) F.ARB_st_MASKDROP drop.length).evt (pgARB i) 2)

/-- The pending entries of a port, saturating at 7, and the fill of the queue, as ARB reports them (R440). -/
def arbPend (s : State) (i p : Nat) : Nat := min 7 ((arbOf s i).queue.filter (·.port = p)).length

/-! ### Meanings -/

/-- ARBITER_ROUND (R428). -/
def execArbiterRound (arb : Fin 2) (s : State) := act (arbRound arb) s
/-- FORERUNNER_REPRESENT (R434). -/
def execForerunnerRepresent (arb : Fin 2) (port : Fin 24) (s : State) := act (arbRepresent arb port) s
/-- SCRUB_READ (R419). -/
def execScrubRead (s : State) := act scrubRead s
/-- NVM_PROGRAM_DONE (R423). -/
def execNvmProgramDone (s : State) := act nvmDone s
/-- MRAM_READ_ERROR (R422): a codeword holds this many bits in error and is read. -/
def execMramReadError (codeword : BitVec 19) (bits : Nat) (s : State) :=
  act (fun s =>
    let s := { s with mm := { s.mm with mramErr := if bits = 0 then amDel s.mm.mramErr codeword.toNat else amSet s.mm.mramErr codeword.toNat bits } }
    let (s, b) := mramRead (codeword.toNat * 32) 32 s
    s.emit (match b with | some b => .memData 0 b | none => .busError)) s

end Sys2Proof.Machine
end

