-- ==== Sys2Proof/Machine/AirLink.lean ====
section
/-!
DEFINITION. The link to the radio transceiver (R392 to R395): packets as nibbles, who drives the bus, the register list, and what the link does as
AIR enters a mode (R410, R411).
-/
namespace Sys2Proof.Machine
open Sys2Proof

/-- The radio's state changed. -/
def updAir (s : State) (f : AirState → AirState) : State := { s with air := f s.air }

/-- One step of a CRC-8 byte, polynomial 0x07, with the parameters of R324. -/
def crc8Byte (c : Nat) (b : Byte) : Nat :=
  (List.range 8).foldl (fun c _ => if 128 ≤ c then (c * 2) % 256 ^^^ 0x07 else c * 2) (c ^^^ b.toNat)

/-- A link packet (R394): OP, LEN, payload and CHK. -/
def linkPacket (op : Nat) (payload : List Byte) : List Byte :=
  let b := BitVec.ofNat 8 op :: BitVec.ofNat 8 payload.length :: payload
  b ++ [BitVec.ofNat 8 (b.foldl crc8Byte 0)]

/-- The nibbles of a packet on AIR_D0 to AIR_D3 (R393): 0x5 and 0xA, then byte by byte, each high nibble first. Before it and after it the driving
side sends 0x0. -/
def linkNibbles (p : List Byte) : List Nat := 5 :: 10 :: p.flatMap fun b => [b.toNat / 16, b.toNat % 16]

/-- AIR_DIR set (R393). -/
def airDir (out : Bool) (s : State) : State :=
  if s.air.dirOut = out then s else (updAir s fun a => { a with dirOut := out }).emit (.ball "AIR_DIR" out)

/-- A packet on the line, one nibble for each clock of AIR_CLK (R392, R393). -/
def packetOut (p : AirPkt) (s : State) : State :=
  s.emit (.airNibbles (s.get pgAIR F.AIR_LINK_CLKDIV) (linkNibbles (linkPacket p.op p.payload)) p.ends)

/-- A packet of the node's own: it goes out at once, or waits while the transceiver holds the bus (R393). -/
def sendPacket (p : AirPkt) (s : State) : State :=
  if s.air.dirOut then packetOut p s else updAir s fun a => { a with waiting := a.waiting ++ [p] }

/-- The packet that writes one entry of the register list (R395, R413). -/
def listPacket (e : Word) : AirPkt := { op := 0x01, payload := beBytes 2 (bitsOf e 0 16) ++ [BitVec.ofNat 8 (bitsOf e 16 8)] }

/-- The register list sent in order, one WREG for each valid entry (R395, R410, R413). -/
def sendList (s : State) : State :=
  updAir ((List.range 128).foldl (fun s i =>
    let e := s.reg pgAIR (0xC00 + 4 * i)
    if bitsOf e 31 1 = 1 then sendPacket (listPacket e) s else s) s)
    fun a => { a with listFor := s.get pgAIR F.HDR_EFF_MODE }

/-- The AIR balls of an idle link, in EFF OFF (R411). -/
def airIdle (s : State) : State :=
  let s := (s.emit (.ball "AIR_CLK" false)).emit (.ball "AIR_DIR" true)
  let s := ["AIR_D0", "AIR_D1", "AIR_D2", "AIR_D3"].foldl (fun s n => s.emit (.ball n false)) s
  s.emit (.ball "AIR_TXGO" false)

/-- AIR brought to the mode that EFF reports (R410, R411): OFF idles the link and drops its frame and its packets; on an entry into another mode the
clock runs and the register list goes out before anything else. -/
def airEntered (s : State) : State :=
  let m := s.get pgAIR F.HDR_EFF_MODE
  if s.air.listFor = m then s
  else if m = 0 then
    let s := updAir s fun a => { a with listFor := 0, frame := none, onAir := none, waiting := [], dirOut := true }
    if domainOn s 15 then airIdle s else s
  else sendList (if s.air.listFor = 0 then s.emit (.airClock (s.get pgAIR F.AIR_LINK_CLKDIV)) else s)

end Sys2Proof.Machine
end

