-- ==== Sys2Proof/Machine/Sha.lean ====
section
/-!
DEFINITION. SHA-256 (FIPS 180-4) and HMAC-SHA-256 (RFC 2104), which Cane's tags, the fabric's and the boot images rest on (R298).
-/
namespace Sys2Proof.Machine
open Sys2Proof

/-- The first eight primes' square roots and the first 64 primes' cube roots: 32 fraction bits each, computed exactly. -/
def shaPrimes : List Nat :=
  [2, 3, 5, 7, 11, 13, 17, 19, 23, 29, 31, 37, 41, 43, 47, 53, 59, 61, 67, 71, 73, 79, 83, 89, 97, 101, 103, 107, 109, 113, 127, 131, 137,
   139, 149, 151, 157, 163, 167, 173, 179, 181, 191, 193, 197, 199, 211, 223, 227, 229, 233, 239, 241, 251, 257, 263, 269, 271, 277, 281,
   283, 293, 307, 311]

/-- The largest number of 36 bits whose `k`-th power is at most `n`. -/
def rootDown (k n : Nat) : Nat := (List.range 36).foldl (fun r i => let c := r + 2 ^ (35 - i); if c ^ k ≤ n then c else r) 0

/-- The initial hash value. -/
def shaInit : List Word := (shaPrimes.take 8).map fun p => BitVec.ofNat 32 (rootDown 2 (p * 2 ^ 64))
/-- The round constants. -/
def shaK : List Word := shaPrimes.map fun p => BitVec.ofNat 32 (rootDown 3 (p * 2 ^ 96))

/-- A word rotated right. -/
def rotr (x : Word) (n : Nat) : Word := x.rotateRight n

/-- The message schedule, extended by words until it holds 64; newest first. -/
def shaSchedule : Nat → List Word → List Word
  | 0, w => w
  | n + 1, w =>
    let g := fun i => w.getD i 0
    let s0 := rotr (g 14) 7 ^^^ rotr (g 14) 18 ^^^ (g 14 >>> 3)
    let s1 := rotr (g 1) 17 ^^^ rotr (g 1) 19 ^^^ (g 1 >>> 10)
    shaSchedule n ((g 15 + s0 + g 6 + s1) :: w)

/-- One round. -/
def shaRound (h : List Word) (kw : Word × Word) : List Word :=
  let g := fun i => h.getD i 0
  let e := g 4
  let a := g 0
  let t1 := g 7 + (rotr e 6 ^^^ rotr e 11 ^^^ rotr e 25) + ((e &&& g 5) ^^^ (~~~e &&& g 6)) + kw.1 + kw.2
  let t2 := (rotr a 2 ^^^ rotr a 13 ^^^ rotr a 22) + ((a &&& g 1) ^^^ (a &&& g 2) ^^^ (g 1 &&& g 2))
  [t1 + t2, a, g 1, g 2, g 3 + t1, e, g 5, g 6]

/-- One block of 64 bytes. -/
def shaBlock (h : List Word) (b : List Byte) : List Word :=
  let w := ((List.range 16).map fun i => BitVec.ofNat 32 (beVal (slice b (4 * i) 4))).reverse
  let w := (shaSchedule 48 w).reverse
  let r := (shaK.zip w).foldl shaRound h
  h.zipWith (· + ·) r

/-- The padded message: a 1 bit, zeros and the length in bits, to a multiple of 64 bytes. -/
def shaPad (m : List Byte) : List Byte :=
  let n := m.length
  m ++ [0x80] ++ List.replicate ((119 - n % 64) % 64) 0 ++ beBytes 8 (8 * n)

/-- SHA-256. -/
def sha256 (m : List Byte) : List Byte :=
  let p := shaPad m
  let h := (List.range (p.length / 64)).foldl (fun h i => shaBlock h (slice p (64 * i) 64)) shaInit
  h.flatMap fun x => beBytes 4 x.toNat

/-- HMAC-SHA-256. -/
def hmac256 (key m : List Byte) : List Byte :=
  let k := if 64 < key.length then sha256 key else key
  let k := slice k 0 64
  sha256 (k.map (· ^^^ 0x5C) ++ sha256 (k.map (· ^^^ 0x36) ++ m))

end Sys2Proof.Machine
end

