-- ==== Sys2Proof/Machine/Ed25519.lean ====
section
/-!
DEFINITION. SHA-512 (FIPS 180-4) and the Ed25519 verification of RFC 8032, which the image signature rests on (R539, R540).
-/
namespace Sys2Proof.Machine
open Sys2Proof

/-! ### SHA-512 -/

/-- The first 80 primes. -/
def sha5Primes : List Nat := shaPrimes ++ [313, 317, 331, 337, 347, 349, 353, 359, 367, 373, 379, 383, 389, 397, 401, 409]

/-- The largest number of 68 bits whose `k`-th power is at most `n`. -/
def rootDown68 (k n : Nat) : Nat := (List.range 68).foldl (fun r i => let c := r + 2 ^ (67 - i); if c ^ k ≤ n then c else r) 0

/-- The initial hash value: square roots of the first eight primes, 64 fraction bits. -/
def sha5Init : List Dword := (sha5Primes.take 8).map fun p => BitVec.ofNat 64 (rootDown68 2 (p * 2 ^ 128))
/-- The round constants: cube roots of the first 80 primes, 64 fraction bits. -/
def sha5K : List Dword := sha5Primes.map fun p => BitVec.ofNat 64 (rootDown68 3 (p * 2 ^ 192))

/-- The message schedule, extended by words; newest first. -/
def sha5Schedule : Nat → List Dword → List Dword
  | 0, w => w
  | n + 1, w =>
    let g := fun i => w.getD i 0
    let s0 := (g 14).rotateRight 1 ^^^ (g 14).rotateRight 8 ^^^ (g 14 >>> 7)
    let s1 := (g 1).rotateRight 19 ^^^ (g 1).rotateRight 61 ^^^ (g 1 >>> 6)
    sha5Schedule n ((g 15 + s0 + g 6 + s1) :: w)

/-- One round. -/
def sha5Round (h : List Dword) (kw : Dword × Dword) : List Dword :=
  let g := fun i => h.getD i 0
  let e := g 4
  let a := g 0
  let t1 := g 7 + (e.rotateRight 14 ^^^ e.rotateRight 18 ^^^ e.rotateRight 41) + ((e &&& g 5) ^^^ (~~~e &&& g 6)) + kw.1 + kw.2
  let t2 := (a.rotateRight 28 ^^^ a.rotateRight 34 ^^^ a.rotateRight 39) + ((a &&& g 1) ^^^ (a &&& g 2) ^^^ (g 1 &&& g 2))
  [t1 + t2, a, g 1, g 2, g 3 + t1, e, g 5, g 6]

/-- One block of 128 bytes. -/
def sha5Block (h : List Dword) (b : List Byte) : List Dword :=
  let w := ((List.range 16).map fun i => BitVec.ofNat 64 (beVal (slice b (8 * i) 8))).reverse
  let w := (sha5Schedule 64 w).reverse
  let r := (sha5K.zip w).foldl sha5Round h
  h.zipWith (· + ·) r

/-- SHA-512. -/
def sha512 (m : List Byte) : List Byte :=
  let n := m.length
  let p := m ++ [0x80] ++ List.replicate ((239 - n % 128) % 128) 0 ++ beBytes 16 (8 * n)
  let h := (List.range (p.length / 128)).foldl (fun h i => sha5Block h (slice p (128 * i) 128)) sha5Init
  h.flatMap fun x => beBytes 8 x.toNat

/-! ### The curve -/

/-- The field's prime. -/
def edP : Nat := 2 ^ 255 - 19
/-- The order of the base point. -/
def edL : Nat := 2 ^ 252 + 27742317777372353535851937790883648493

/-- A power modulo the prime, by the low `n` bits of the exponent. -/
def edPow (x e : Nat) : Nat → Nat
  | 0 => 1
  | n + 1 =>
    let r := edPow x (e / 2) n
    let q := r * r % edP
    if e % 2 = 1 then q * x % edP else q

/-- The inverse in the field. -/
def edInv (x : Nat) : Nat := edPow x (edP - 2) 255

/-- The curve's constant d = −121665/121666. -/
def edD : Nat := (edP - 121665) * edInv 121666 % edP

/-- A point in extended coordinates. -/
abbrev EdPt := Nat × Nat × Nat × Nat

/-- A sum of points. -/
def edAdd (a b : EdPt) : EdPt :=
  let (x1, y1, z1, t1) := a
  let (x2, y2, z2, t2) := b
  let p := edP
  let aa := (y1 + p - x1) * (y2 + p - x2) % p
  let bb := (y1 + x1) * (y2 + x2) % p
  let cc := 2 * t1 * t2 % p * edD % p
  let dd := 2 * z1 * z2 % p
  let e := (bb + p - aa) % p
  let f := (dd + p - cc) % p
  let g := (dd + cc) % p
  let h := (bb + aa) % p
  (e * f % p, g * h % p, f * g % p, e * h % p)

/-- A multiple of a point, by the low `n` bits of the scalar. -/
def edMul (k : Nat) (a : EdPt) : Nat → EdPt
  | 0 => (0, 1, 1, 0)
  | n + 1 =>
    let r := edMul (k / 2) a n
    let q := edAdd r r
    if k % 2 = 1 then edAdd q a else q

/-- Two points are equal. -/
def edEq (a b : EdPt) : Bool := a.1 * b.2.2.1 % edP = b.1 * a.2.2.1 % edP && a.2.1 * b.2.2.1 % edP = b.2.1 * a.2.2.1 % edP

/-- A point decoded from 32 bytes (RFC 8032, 5.1.3). -/
def edDecode (b : List Byte) : Option EdPt :=
  let v := leVal b
  let sign := v / 2 ^ 255 % 2
  let y := v % 2 ^ 255
  if edP ≤ y then none
  else
    let p := edP
    let u := (y * y + p - 1) % p
    let w := (edD * (y * y % p) + 1) % p
    let w3 := w * w % p * w % p
    let x := u * w3 % p * edPow (u * (w3 * w3 % p * w % p) % p) ((p - 5) / 8) 255 % p
    let r := w * (x * x % p) % p
    let x := if r = u then some x else if r = (p - u) % p then some (x * edPow 2 ((p - 1) / 4) 255 % p) else none
    match x with
    | none => none
    | some x =>
      if x = 0 ∧ sign = 1 then none
      else
        let x := if x % 2 = sign then x else p - x
        some (x, y, 1, x * y % p)

/-- The base point: y = 4/5, x even. -/
def edBase : Option EdPt := edDecode (leBytes 32 (4 * edInv 5 % edP))

/-- The verification of a signature R, S over a message (RFC 8032, 5.1.7, with the cofactor). -/
def edVerify (key sig msg : List Byte) : Bool :=
  let s := leVal (slice sig 32 32)
  match edDecode (slice key 0 32), edDecode (slice sig 0 32), edBase with
  | some a, some r, some b =>
    let h := leVal (sha512 (slice sig 0 32 ++ slice key 0 32 ++ msg)) % edL
    decide (s < edL) && edEq (edMul (8 * s) b 256) (edAdd (edMul 8 r 4) (edMul (8 * h) a 256))
  | _, _, _ => false

end Sys2Proof.Machine
end

