-- ==== Sys2Proof/Machine/Eff.lean ====
section
/-!
DEFINITION. What a page's data path does: holds, `EFF`, and the conditions many chapters ask of the whole node (R39, R43,
R69 to R73).
-/
namespace Sys2Proof.Machine
open Sys2Proof

/-- Strand port `p`. -/
def strand (s : State) (p : Nat) : Strand := s.outs.strands.getD p {}

/-- A strand port changed. -/
def updStrand (s : State) (p : Nat) (f : Strand → Strand) : State :=
  { s with outs := { s.outs with strands := updAt s.outs.strands p f } }

/-- A veneer. -/
def venOf (s : State) (n : Nat) : Ven := s.vens.getD n {}

/-- A veneer changed. -/
def updVen (s : State) (n : Nat) (f : Ven → Ven) : State := { s with vens := updAt s.vens n f }

/-- Time valid (R43); an ACQWAIT of 0 disables its third case. -/
def timeValid (s : State) : Bool :=
  s.time.servo = .locked || s.time.servo = .holdover || (s.time.acqDone && s.get pgTIME F.TIME_TIMEOUTS_ACQWAIT ≠ 0)

/-- Whether this node holds a fabric role (R352): 0 time gateway, 1 cluster head, 2 cue master. -/
def holdsRole (s : State) (r : Nat) : Bool := (s.fab.holders.getD r none).any fun h => h.1.serial = Config.serial.toNat

/-- The mode that a page's EFF register reports. -/
def effMode (s : State) (p : Nat) : Nat := s.get p F.HDR_EFF_MODE

/-- A page is in RUN. -/
def inRun (s : State) (p : Nat) : Bool := effMode s p = 2

/-- A page is in RUN or TEST. -/
def runTest (s : State) (p : Nat) : Bool := 2 ≤ effMode s p

/-- An output is live (R39). -/
def anyLive (s : State) : Bool :=
  (List.range 64).any (fun p => inRun s (pgSTD p) || (strand s p).ovrHold) || inRun s pgAIR

/-- The output domain of a strand port (R170). -/
def outDomain (p : Nat) : Nat := if p < 32 then 12 else 13

/-- The domains that hold a page's blocks (R16, R73): the page is on while any of them is; none: it lies in SYS. -/
def pageDomains (p : Nat) : List Nat :=
  match pageType p with
  | 0x010 | 0x020 | 0x021 | 0x024 => [6]
  | 0x022 | 0x030 | 0x023 => [12, 13]
  | 0x040 => [outDomain (p - 0x40)]
  | 0x080 | 0x081 | 0x083 => [10]
  | 0x088 | 0x08C => [11]
  | 0x090 => [15]
  | 0x031 | 0x025 => [14]
  | 0x0A0 | 0x0A1 => [8]
  | 0x007 => [9]
  | 0x0C0 => [2 + (p - 0xC0)]
  | _ => []

/-- A page's domain is on (R73). -/
def pageDomainOn (s : State) (p : Nat) : Bool :=
  let d := pageDomains p
  d.isEmpty || d.any (domainOn s)

/-- The device state: 0 RUN, 1 DIM, 2 RETENTION SLEEP, 3 DORMANT (R513). -/
def devState (s : State) : Nat := s.get pgPMU F.PMU_STATE

/-- SYS is on and out of reset. -/
def sysOn (s : State) : Bool := !s.boot.resetLow && !s.boot.railOut && devState s < 2 && s.pwr.en.all id

/-- The time base runs: SYS is on, and no start is about to take place. -/
def timeRuns (s : State) : Bool := sysOn s && s.boot.due.isNone

/-- The leader of the gang that a strand port is a member of (R174), in the configuration in force. -/
def leaderOf (s : State) (p : Nat) : Option Nat :=
  (List.range 16).findSome? fun k =>
    if 1 ≤ k ∧ k ≤ p ∧ k ≤ s.get (pgSTD (p - k)) F.STD_CFG_GANG ∧ s.get (pgSTD (p - k)) F.STD_CFG_KIND ≠ 0 then some (p - k) else none

/-- A field of the configuration a port has taken up. -/
def Strand.fld (k : Strand) (f : Fld) : Nat := bitsOf (k.cfg.getD ((f.off - 0x40) / 4) 0) f.lsb f.w

/-- The port's mode. -/
def Strand.kind (k : Strand) : Nat := k.fld F.STD_CFG_KIND
/-- Ports in the gang (R174). -/
def Strand.gang (k : Strand) : Nat := k.fld F.STD_CFG_GANG + 1

/-- The ports of the gang that a port leads (R174), in the configuration that it has taken up (R26). -/
def gangSize (s : State) (p : Nat) : Nat :=
  let k := strand s p
  if k.cfg.isEmpty then (if s.get (pgSTD p) F.STD_CFG_KIND = 0 then 1 else s.get (pgSTD p) F.STD_CFG_GANG + 1)
  else if k.kind = 0 then 1 else k.gang

/-- The leader of the gang that a strand port is a member of (R174). -/
def gangLead (s : State) (p : Nat) : Option Nat :=
  (List.range 16).findSome? fun i => if 1 ≤ i ∧ i ≤ p ∧ i < gangSize s (p - i) then some (p - i) else none

/-- Preparation takes place (R27, R131, R163). -/
def preparesOn (s : State) : Bool := inRun s pgMAP && runTest s pgCOL && domainOn s 6

/-- The modes of a strand port that take prepared frames (R173, R182). -/
def strandHolds (s : State) (n : Nat) : List Nat :=
  let k := strand s n
  let kind := if k.cfg.isEmpty then s.get (pgSTD n) F.STD_CFG_KIND else k.kind
  (if domainOn s (outDomain n) then [] else [1]) ++
  (if s.boot.outEn ∧ !s.boot.svcWait then [] else [2]) ++
  (if k.thermal then [4] else []) ++
  (if k.sleep ∨ devState s = 2 then [5] else []) ++
  (if !inRun s pgEDGE ∨ (kind ≠ 7 ∧ k.mode = 2 ∧ !preparesOn s) then [7] else []) ++
  (if k.ovrHold then [8] else []) ++
  (if k.cal then [9] else [])

/-- The holds that act on a page, lowest code first (R70). -/
def holds (s : State) (p : Nat) : List Nat :=
  let off := fun (c : Nat) (b : Bool) => if b then [c] else []
  let dom := off 1 (!pageDomainOn s p)
  let wait := off 2 s.boot.svcWait
  let svc := off 2 (!s.boot.outEn || s.boot.svcWait)
  let asleep := off 5 (s.pwr.pagesAsleep || devState s = 2)
  match pageType p with
  | 0x040 => strandHolds s (p - 0x40)
  | 0x010 => dom ++ svc ++
      off 7 (s.get p F.HDR_REQ_MODE = 2 && (1 ≤ s.get p F.VEN_CFG_SRC && s.get p F.VEN_CFG_SRC ≤ 3) && (venOf s (p - 0x10)).taken.isNone)
  | 0x022 | 0x020 | 0x021 | 0x024 | 0x025 => dom ++ svc
  | 0x030 | 0x023 => dom ++ svc
  | 0x031 => dom ++ svc ++ off 6 (!timeValid s)
  -- LINK holds a port in RUN, and not one in TEST (R312, R346)
  | 0x080 => dom ++ wait ++ asleep ++ off 11 (s.get p F.HDR_REQ_MODE = 2 && !(s.net.ports.getD 0 {}).up)
  | 0x081 => dom ++ wait ++ asleep ++ off 11 (s.get p F.HDR_REQ_MODE = 2 && !(s.net.ports.getD 1 {}).up)
  | 0x088 => dom ++ wait ++ asleep ++ off 11 (s.get p F.HDR_REQ_MODE = 2 && !(s.bru.getD (p - 0x88) {}).up)
  | 0x08C => dom ++ wait ++ off 3 s.fab.fault ++
      off 11 (!([0, 1, 2, 3].any fun b => (s.bru.getD b {}).up && inRun s (pgBRU b)))
  | 0x090 => dom ++ svc ++ off 3 s.air.fault ++ asleep ++ off 6 (!timeValid s) ++ off 10 s.air.exhausted
  -- in RETENTION SLEEP the DRAM self-refreshes, and FSTO is not off (R437, R511)
  | 0x0A0 => (if devState s = 2 ∧ s.pwr.selfRef then [] else dom) ++ wait ++ off 5 (devState s = 2)
  | 0x0C0 => dom ++ wait ++ off 5 (devState s = 2)
  | _ => dom ++ (if fixedRun p then [] else wait)

/-- The activity of a mode: OFF, STANDBY, then RUN and TEST alike (R69). -/
def activity (m : Nat) : Nat := min m 2

/-- The mode a hold gives (R70). -/
def holdMode (h : Nat) : Nat := if h ≤ 4 then 0 else 1

/-- The mode asked of a page's data path: `REQ.MODE`, for a strand port that has taken a configuration up the one it took with it (R26). -/
def wantMode (s : State) (p : Nat) : Nat :=
  if 0x40 ≤ p ∧ p < 0x80 ∧ !(strand s (p - 0x40)).cfg.isEmpty then (strand s (p - 0x40)).mode else s.get p F.HDR_REQ_MODE

/-- `EFF.MODE` and `EFF.HOLD` of a page (R70): of the holds that would make the mode less active, the one with the lowest code. -/
def effOf (s : State) (p : Nat) : Nat × Nat :=
  let m := wantMode s p
  match (holds s p).filter fun h => holdMode h < activity m with
  | [] => (m, 0)
  | h :: _ => (holdMode h, h)

/-- `EFF` written in one step, with its event and count (R71, R90). -/
def putEff (p : Nat) (e : Nat × Nat) (s : State) : State :=
  let old := s.get p F.HDR_EFF_HOLD
  let v := BitVec.ofNat 32 (e.1 + e.2 * 16 + (if e.2 = 0 then 0 else 0x100))
  if s.reg p 0x00C = v then s
  else
    let s := s.setReg p 0x00C v
    if e.2 ≠ 0 ∧ e.2 ≠ old then (s.bump pgSYS F.SYS_st_MISMATCHES).evt p 31 else s

/-- A page's `EFF` brought up to date. A gang member's copies its leader's in the same step (R174). -/
def refresh (p : Nat) (s : State) : State :=
  if 0x40 ≤ p ∧ p < 0x80 then
    match gangLead s (p - 0x40) with
    | some l => putEff p (effOf s (pgSTD l)) s
    | none => (List.range (gangSize s (p - 0x40))).foldl (fun t i => if p + i < 0x80 then putEff (p + i) (effOf s p) t else t) s
  else putEff p (effOf s p) s

/-- Every strand port's `EFF` brought up to date. -/
def refreshStrands (s : State) : State := (List.range 64).foldl (fun s p => refresh (pgSTD p) s) s

/-- Every page's `EFF` brought up to date, the strand ports last since their UPSTREAM hold asks for EDGE, MAP and COL; AIR's link follows its mode. -/
def refreshAll (s : State) : State :=
  airEntered (refreshStrands ((allPages.filter fun p => p < 0x40 || 0x80 ≤ p).foldl (fun s p => refresh p s) s))

/-- AIR's `EFF` brought up to date, with its link (R410). -/
def refreshAir (s : State) : State := airEntered (refresh pgAIR s)

end Sys2Proof.Machine
end

