-- ==== Sys2Proof/Machine/Flags.lean ====
section
/-!
DEFINITION. Binary floating point as the compositor and the colour engine use it (R96, R97, R101, R116, R134):
exact rational values rounded to nearest, ties to even, and the functions that are correctly rounded.
-/
namespace Sys2Proof.Machine
open Sys2Proof

/-- A floating-point value: finite, with both zeros as 0, an infinity or a NaN. -/
inductive Fl where
  | fin (q : Rat)
  | inf (neg : Bool)
  | nan
  deriving DecidableEq, Repr

/-- The integer nearest a rational, ties to even. -/
def roundEven (q : Rat) : Int :=
  let f := q.floor
  let r := q - f
  if r < 1 / 2 then f else if 1 / 2 < r then f + 1 else if f % 2 = 0 then f else f + 1

/-- The integer nearest a rational, ties upwards. -/
def roundHalfUp (q : Rat) : Int := (q + 1 / 2).floor

/-- 2 to an integer power. -/
def pow2 (e : Int) : Rat := if 0 ≤ e then ((2 ^ e.toNat : Nat) : Rat) else 1 / ((2 ^ (-e).toNat : Nat) : Rat)

/-- The exponent of a positive rational: the largest e with 2^e at most q. -/
def expOf (q : Rat) : Int :=
  let e : Int := (Nat.log2 q.num.natAbs : Int) - Nat.log2 q.den
  if pow2 e ≤ q then (if pow2 (e + 1) ≤ q then e + 1 else e) else e - 1

/-- A rational rounded to a format of `p` bits of precision, least exponent `lo` of its unit and overflow at 2^`hi`. -/
def roundFl (p : Nat) (lo hi : Int) (q : Rat) : Fl :=
  if q = 0 then .fin 0
  else
    let a := if q < 0 then -q else q
    let u := max (expOf a - (p - 1)) lo
    let r := (roundEven (a / pow2 u) : Rat) * pow2 u
    if pow2 hi ≤ r then .inf (q < 0) else .fin (if q < 0 then -r else r)

/-- Rounding to binary32. -/
def f32 (q : Rat) : Fl := roundFl 24 (-149) 128 q
/-- Rounding to binary16. -/
def f16 (q : Rat) : Fl := roundFl 11 (-24) 16 q

namespace Fl

/-- Whether the value is negative. -/
def neg : Fl → Bool
  | fin q => q < 0
  | inf b => b
  | nan => false

/-- An operation of binary32 on two values: exact on finite ones and rounded once; the infinities are decided by `special`. -/
def lift (f : Rat → Rat → Rat) (special : Fl → Fl → Fl) : Fl → Fl → Fl
  | fin a, fin b => f32 (f a b)
  | a, b => special a b

/-- Sums with an infinity or a NaN. -/
def addSpecial : Fl → Fl → Fl
  | nan, _ => nan
  | _, nan => nan
  | inf a, inf b => if a = b then inf a else nan
  | inf a, _ => inf a
  | _, b => b

/-- Products with an infinity or a NaN. -/
def mulSpecial : Fl → Fl → Fl
  | nan, _ => nan
  | _, nan => nan
  | a, b => if a = fin 0 ∨ b = fin 0 then nan else inf (a.neg != b.neg)

/-- The negative of a value. -/
def negate : Fl → Fl
  | fin q => fin (-q)
  | inf b => inf (!b)
  | nan => nan

/-- Binary32 addition. -/
def add (a b : Fl) : Fl := lift (· + ·) addSpecial a b
/-- Binary32 subtraction. -/
def sub (a b : Fl) : Fl := lift (· - ·) (fun a b => addSpecial a b.negate) a b
/-- Binary32 multiplication. -/
def mul (a b : Fl) : Fl := lift (· * ·) mulSpecial a b
/-- Binary32 division; a zero divisor gives the infinity of the quotient's sign, and 0/0 a NaN. -/
def div (a b : Fl) : Fl :=
  match a, b with
  | fin x, fin y => if y = 0 then (if x = 0 then nan else inf (x < 0)) else f32 (x / y)
  | nan, _ => nan
  | _, nan => nan
  | fin _, inf _ => fin 0
  | inf n, fin y => inf (n != decide (y < 0))
  | inf _, inf _ => nan

/-- Whether `a` is less than `b`; false where either is a NaN. -/
def lt : Fl → Fl → Bool
  | fin a, fin b => a < b
  | nan, _ => false
  | _, nan => false
  | inf a, inf b => a && !b
  | inf a, _ => a
  | _, inf b => !b

/-- Whether `a` is at most `b`; false where either is a NaN. -/
def le (a b : Fl) : Bool := lt a b || (a = b && a ≠ nan)

/-- The lesser of two values. -/
def min (a b : Fl) : Fl := if lt b a then b else a
/-- The greater of two values. -/
def max (a b : Fl) : Fl := if lt a b then b else a
/-- A value held within two finite bounds. -/
def clamp (lo hi : Rat) (a : Fl) : Fl := Fl.min (Fl.max a (fin lo)) (fin hi)

/-- The rational of a finite value; 0 for any other. -/
def val : Fl → Rat
  | fin q => q
  | _ => 0

/-- R97: a NaN and every negative value give +0, and +∞ gives 65,504. -/
def clean : Fl → Fl
  | nan => fin 0
  | inf true => fin 0
  | inf false => fin 65504
  | fin q => fin (if q < 0 then 0 else q)

end Fl

/-- The value of a binary number's bits: `m` fraction bits, `e` exponent bits. -/
def flOfBits (m e : Nat) (v : Nat) : Fl :=
  let frac := v % 2 ^ m
  let ex := v / 2 ^ m % 2 ^ e
  let neg := v / 2 ^ (m + e) % 2 = 1
  let bias : Int := 2 ^ (e - 1) - 1
  if ex = 2 ^ e - 1 then (if frac = 0 then .inf neg else .nan)
  else
    let q : Rat := if ex = 0 then (frac : Rat) * pow2 (1 - bias - m) else ((2 ^ m + frac : Nat) : Rat) * pow2 (ex - bias - m)
    .fin (if neg then -q else q)

/-- The bits of a value already of the format: `m` fraction bits, `e` exponent bits. -/
def flToBits (m e : Nat) : Fl → Nat
  | .nan => (2 ^ e - 1) * 2 ^ m + 2 ^ (m - 1)
  | .inf n => (if n then 2 ^ (m + e) else 0) + (2 ^ e - 1) * 2 ^ m
  | .fin q =>
    let a := if q < 0 then -q else q
    let bias : Int := 2 ^ (e - 1) - 1
    let x := if a = 0 then (0 : Nat) else
      let k := expOf a
      if k < 1 - bias then (a / pow2 (1 - bias - m)).floor.toNat
      else (k + bias).toNat * 2 ^ m + ((a / pow2 (k - m)).floor.toNat - 2 ^ m)
    (if q < 0 then 2 ^ (m + e) else 0) + x

/-- A binary16 number's value. -/
def ofHalf (v : Nat) : Fl := flOfBits 10 5 v
/-- A binary32 number's value. -/
def ofSingle (v : Nat) : Fl := flOfBits 23 8 v
/-- The binary16 number nearest a value. -/
def toHalf (a : Fl) : Nat := flToBits 10 5 (match a with | .fin q => f16 q | x => x)
/-- The binary32 number nearest a value. -/
def toSingle (a : Fl) : Nat := flToBits 23 8 (match a with | .fin q => f32 q | x => x)

/-! ### Correctly rounded functions (R114, R116) -/

/-- The integer square root by Newton's method from above. -/
def isqrt (n : Nat) : Nat := Nat.sqrt n

/-- The square root of a non-negative rational to `2^-b`, downwards, with whether it is exact. -/
def sqrtDown (b : Nat) (q : Rat) : Rat × Bool :=
  let n := (q * ((4 ^ b : Nat) : Rat)).floor.toNat
  let r := isqrt n
  ((r : Rat) / ((2 ^ b : Nat) : Rat), ((r * r : Nat) : Rat) = q * ((4 ^ b : Nat) : Rat))

/-- The square root correctly rounded to binary32: of a positive inexact root, a point strictly inside its last place is rounded. -/
def sqrt32 (q : Rat) : Fl :=
  if q ≤ 0 then .fin 0
  else
    let (r, exact) := sqrtDown 200 q
    f32 (if exact then r else r + pow2 (-201))

/-- π to 2^-224, downwards. -/
def piRat : Rat := ((0x3243F6A8885A308D313198A2E03707344A4093822299F31D0082EFA98 : Nat) : Rat) / ((2 ^ 224 : Nat) : Rat)

/-- Terms of a power series in fixed point at 2^-192: `t` is a term, `x2` the square of the argument, each next term t·x2/(k(k+1)),
alternating. -/
def series : Nat → Int → Int → Int → Int → Int
  | 0, _, _, _, acc => acc
  | n + 1, t, x2, k, acc =>
    let t' := -(t * x2 / 2 ^ 192) / (k * (k + 1))
    series n t' x2 (k + 2) (acc + t')

/-- The sine of `a`/65,536 turn, for `a` at most 16,384, to about 2^-180. -/
def sinFirst (a : Nat) : Rat :=
  let x : Int := (piRat * a / 32768 * ((2 ^ 192 : Nat) : Rat)).floor
  let x2 := x * x / 2 ^ 192
  (series 40 x x2 2 x : Rat) / ((2 ^ 192 : Nat) : Rat)

/-- The sine of `a`/65,536 turn; the multiples of a quarter turn are exact. -/
def sinTurn (a : Nat) : Rat :=
  let a := a % 65536
  let half := a % 32768
  let q := if half ≤ 16384 then half else 32768 - half
  let v : Rat := if q = 0 then 0 else if q = 16384 then 1 else sinFirst q
  if a < 32768 then v else -v

/-- The cosine of `a`/65,536 turn. -/
def cosTurn (a : Nat) : Rat := sinTurn (a + 16384)

/-- The largest binary16 number, as its bits, whose value v satisfies a test that holds below a bound: a search from the top bit. -/
def halfSearch (ok : Rat → Bool) : Nat :=
  (List.range 15).foldl (fun h i => let c := h + 2 ^ (14 - i); if c < 0x7C00 && ok (ofHalf c).val then c else h) 0

/-- The binary16 neighbour to which a value between two of them rounds where the manual states no rounding: the lower one, or the
upper where the open choice of the implementation says so. -/
def halfOpen (ok : Rat → Bool) (exact : Rat → Bool) (key : Nat) (q : Rat) : Nat :=
  let h := halfSearch ok
  if exact (ofHalf h).val then h else h + (Config.roundUp key q).toNat

/-- The binary16 bits of a number that is not negative, where the manual states no rounding. -/
def halfOf (key : Nat) (q : Rat) : Nat := if q ≤ 0 then 0 else halfOpen (· ≤ q) (· = q) key q

/-- A rational rounded to an integer where the manual names no rounding. -/
def openRound (key : Nat) (q : Rat) : Int := if q = q.floor ∨ !Config.roundUp key q then q.floor else q.floor + 1

end Sys2Proof.Machine
end

