-- ==== Sys2Proof/Machine/Real.lean ====
section
/-!
DEFINITION. The real functions that the manual names where it states no precision (R110, R258, R262, R272, R275): the exponential, the
logarithms, powers, the sine and cosine and the arc tangent, to about 2^-180, in fixed point at 2^-192.
-/
namespace Sys2Proof.Machine
open Sys2Proof

/-- A rational in fixed point. -/
def toFix (q : Rat) : Int := (q * ((2 ^ 192 : Nat) : Rat)).floor
/-- A fixed-point number's value. -/
def ofFix (i : Int) : Rat := (i : Rat) / ((2 ^ 192 : Nat) : Rat)

/-- The terms t, t·x/k, t·x²/(k(k+1)) and so on, added up. -/
def expTerms : Nat → Int → Int → Nat → Int → Int
  | 0, _, _, _, acc => acc
  | n + 1, t, x, k, acc => let t' := t * x / (2 ^ 192 * (k : Int)); expTerms n t' x (k + 1) (acc + t')

/-- The terms z²·t/(2k+1), z⁴·t/(2k+3) and so on, added up, their signs alternating where `s` is −1. -/
def oddTerms (s : Int) : Nat → Int → Int → Int → Int → Int
  | 0, _, _, _, acc => acc
  | n + 1, t, z2, k, acc => let t' := s * (t * z2 / 2 ^ 192); oddTerms s n t' z2 (k + 2) (acc + t' / k)

/-- The natural logarithm of a number in [1, 2), from 2·artanh((m − 1)/(m + 1)). -/
def lnFirst (m : Rat) : Rat := let z := toFix ((m - 1) / (m + 1)); ofFix (2 * oddTerms 1 62 z (z * z / 2 ^ 192) 3 z)

/-- The natural logarithm of 2. -/
def ln2R : Rat := let z := toFix (1 / 3); ofFix (2 * oddTerms 1 62 z (z * z / 2 ^ 192) 3 z)

/-- The natural logarithm of a positive number; 0 elsewhere, where there is none. -/
def lnR (q : Rat) : Rat := if q ≤ 0 then 0 else let e := expOf q; lnFirst (q / pow2 e) + e * ln2R

/-- The exponential; below e^-200 it is 0. -/
def expR (q : Rat) : Rat :=
  if q < -200 then 0
  else
    let k := (q / ln2R).floor
    pow2 k * ofFix (expTerms 60 (2 ^ 192) (toFix (q - k * ln2R)) 1 (2 ^ 192))

/-- The logarithm to base 2. -/
def log2R (q : Rat) : Rat := lnR q / ln2R
/-- The logarithm to base 10. -/
def log10R (q : Rat) : Rat := lnR q / lnR 10
/-- A power of a number that is not negative, its exponent positive or its base positive. -/
def powR (a b : Rat) : Rat := if a ≤ 0 then 0 else expR (b * lnR a)

/-- The sine of an angle in radians. -/
def sinR (a : Rat) : Rat :=
  let t := a / (2 * piRat)
  let x := toFix ((t - (t + 1 / 2).floor) * (2 * piRat))
  ofFix (series 60 x (x * x / 2 ^ 192) 2 x)

/-- The cosine of an angle in radians. -/
def cosR (a : Rat) : Rat := sinR (a + piRat / 2)

/-- The arc tangent of a number in [0, 1], the argument halved twice. -/
def atanFirst (t : Rat) : Rat :=
  let half := fun (t : Rat) => ofFix (toFix (t / (1 + (sqrtDown 200 (1 + t * t)).1)))
  let z := toFix (half (half t))
  4 * ofFix (oddTerms (-1) 46 z (z * z / 2 ^ 192) 3 z)

/-- The angle of a point in radians, in (−π, π]; 0 at the origin. -/
def atan2R (y x : Rat) : Rat :=
  let ax := if x < 0 then -x else x
  let ay := if y < 0 then -y else y
  if ax = 0 ∧ ay = 0 then 0
  else
    let a := if ay ≤ ax then atanFirst (ay / ax) else piRat / 2 - atanFirst (ax / ay)
    let a := if x < 0 then piRat - a else a
    if y < 0 then -a else a

end Sys2Proof.Machine
end

