-- ==== Sys2Proof/Machine/Commit.lean ====
section
/-!
DEFINITION. The staging set, its owner, the dovetail commit and the latching of statistics (R74 to R94).
-/
namespace Sys2Proof.Machine
open Sys2Proof

/-! ### Staged values (R75, R76) -/

/-- The bits of a mask in `b`, the others in `a`. -/
def mixBits (a b mask : Word) : Word := (a &&& ~~~mask) ||| (b &&& mask)

/-- The mask of a field's bits. -/
def Fld.mask (f : Fld) : Word := BitVec.ofNat 32 ((2 ^ f.w - 1) * 2 ^ f.lsb)

/-- The register at a place with its staged values in place of those in force. -/
def stagedReg (s : State) (k : Nat) : Word :=
  let v := (amGet s.regs k).getD (resetAt k)
  match amGet s.staged k with
  | some (m, x) => mixBits v x m
  | none => v

/-- Whether a page holds staged values that differ from those in force (R76). -/
def pagePend (s : State) (p : Nat) : Bool :=
  s.staged.any fun (k, _) => k / 4096 = p && stagedReg s k ≠ (amGet s.regs k).getD (resetAt k)

/-- The configuration that would be in force after the commit: every staged value merged with every value in force (R80). -/
def merged (s : State) : State :=
  { s with regs := s.staged.foldl (fun r (k, _) => regPut r k (stagedReg s k)) s.regs }

/-- Some bits of a register put in the staging set. -/
def stage (k : Nat) (mask v : Word) (s : State) : State :=
  let (m, x) := (amGet s.staged k).getD (0, 0)
  { s with staged := amSet s.staged k (m ||| mask, mixBits x v mask) }

/-- STGSTAT.REJ and REJOFF cleared on every page (R78, R81). -/
def clearRejects (s : State) : State :=
  allPages.foldl (fun s p => if s.reg p 0x020 = 0 then s else s.setReg p 0x020 0) s

/-! ### Ownership (R77, R78) -/

/-- The staging set's owner changed; every change sets CLAIMED (R94). -/
def setOwner (a : Nat) (s : State) : State :=
  if s.cmt.owner = a then s else { s with cmt := { s.cmt with owner := a } }.evt pgCMT 4

/-- A commit brought to IDLE with a result and its event (R83, R94). -/
def endCommit (code evtBit : Nat) (s : State) : State :=
  let s := { s with cmt := { s.cmt with mode := .idle, disarmPending := false, late := false, waitE := false } }
  ((s.set pgCMT F.CMT_RESULT_CODE code).set pgCMT F.CMT_RESULT_AGENT s.cmt.arming).evt pgCMT evtBit

/-- A commit cancelled: MODECHANGE 4, STEPPED 5, MISSED 6, DISARMED 7 or SEIZED 8; staged values stay (R83). -/
def cancelCommit (code : Nat) (s : State) : State := endCommit code 3 (s.bump pgCMT F.CMT_st_CANCELLED)

/-- CMT.OWN.CLAIM (R77). -/
def claim (a : Nat) (s : State) : State :=
  if a = 0 then s.fault pgCMT 0x02 0x040 a
  else if s.cmt.owner = 0 ∨ s.cmt.owner = a then setOwner a s
  else s.fault pgCMT 0x05 0x040 a

/-- CMT.OWN.RELEASE (R77). -/
def release (a : Nat) (s : State) : State :=
  if a ≠ 0 ∧ s.cmt.owner = a then setOwner 0 s else s.fault pgCMT 0x02 0x040 a

/-- CMT.OWN.SEIZE (R77): only the Cane responder and the service port; a checking or armed commit is cancelled. -/
def seize (a : Nat) (s : State) : State :=
  if a = 5 ∨ a = 6 then
    let s := setOwner a s
    if s.cmt.mode = .checking ∨ s.cmt.mode = .armed then cancelCommit 8 s else s
  else s.fault pgCMT 0x02 0x040 a

/-- A write of CMT.OWN (R77, R93), a register that is refused whole with one fault (R67): NOTOWNER before CLAIMBUSY. Bits that none of them refuses act
in order, the lowest first (DESIGN CHOICE, notes/assumptions/99.md). -/
def ownWrite (a : Nat) (v : Word) (s : State) : State :=
  let on := fun (i : Nat) => decide (bitsOf v i 1 = 1)
  if (on 8 ∧ a = 0) ∨ (on 9 ∧ (a = 0 ∨ s.cmt.owner ≠ a)) ∨ (on 10 ∧ a ≠ 5 ∧ a ≠ 6) then s.fault pgCMT 0x02 0x040 a
  else if on 8 ∧ s.cmt.owner ≠ 0 ∧ s.cmt.owner ≠ a then s.fault pgCMT 0x05 0x040 a
  else
    let s := if on 8 then claim a s else s
    let s := if on 9 then release a s else s
    if on 10 then seize a s else s

/-- CMT.CTL.DISCARD (R78). -/
def discard (a : Nat) (s : State) : State :=
  if a = 0 ∨ s.cmt.owner ≠ a then s.fault pgCMT 0x02 0x044 a
  else if s.cmt.mode ≠ .idle then s.fault pgCMT 0x03 0x044 a
  else clearRejects { s with staged := [] }

/-- CMT.CTL.DISARM (R83). -/
def disarm (a : Nat) (s : State) : State :=
  if a = 0 ∨ s.cmt.owner ≠ a then s.fault pgCMT 0x02 0x044 a
  else match s.cmt.mode with
    | .idle => s
    | .checking => { s with cmt := { s.cmt with disarmPending := true } }
    | .armed => cancelCommit 7 s
    | .locked => s.fault pgCMT 0x04 0x044 a

/-- A write of CMT.CTL (R78, R83), a register that is refused whole with one fault (R67): DISARM beside a DISCARD that is taken finds CMT in IDLE and does
nothing. -/
def ctlWrite (a : Nat) (v : Word) (s : State) : State :=
  if bitsOf v 0 1 = 1 then discard a s else if bitsOf v 1 1 = 1 then disarm a s else s

/-! ### Frame numbers (R46 to R51) -/

/-- NUM and DEN of a timing mode (R46); the reserved indices hold zeros (R65). -/
def modeRate : Nat → Nat × Nat
  | 0 => (24000, 1001) | 1 => (24, 1) | 2 => (25, 1) | 3 => (30000, 1001) | 4 => (30, 1) | 5 => (48000, 1001)
  | 6 => (48, 1) | 7 => (50, 1) | 8 => (60000, 1001) | 9 => (60, 1) | 10 => (72, 1) | 11 => (90, 1) | 12 => (96, 1)
  | 13 => (100, 1) | 14 => (120000, 1001) | 15 => (120, 1) | 16 => (144, 1) | 17 => (150, 1) | 18 => (180, 1)
  | 19 => (200, 1) | 20 => (240000, 1001) | 21 => (240, 1)
  | _ => (0, 0)

/-- One second in units of 2^-16 ns. -/
abbrev secUnits : Nat := 65536000000000

/-- The epoch frame number of an FT value (R47), by exact integer arithmetic; the result has 48 bits. -/
def fnOf (s : State) (t : Nat) : Nat :=
  let (num, den) := modeRate (s.get pgTIME F.TIME_MODE_CURIDX)
  (((t : Int) - s.time.phi) * num / ((den : Int) * secUnits) % 2 ^ 48).toNat

/-- FS(n): the earliest FT value whose FN is n (R47, R48). -/
def fsOf (s : State) (n : Nat) : Nat :=
  let (num, den) := modeRate (s.get pgTIME F.TIME_MODE_CURIDX)
  s.time.phi + (n * den * secUnits + num - 1) / num

/-- The commit lead in units of 2^-16 ns (R50). -/
def leadUnits (s : State) : Nat := s.get pgTIME F.TIME_LEAD * 65536000

/-- The lowest FN whose commit cutoff lies later than an instant; an equal time is past (R79). -/
def nextTarget (s : State) (t : Nat) : Nat := fnOf s (t + leadUnits s) + 1

/-- The FN whose 16 low bits are given and that lies from C − 32,767 to C + 32,768 (R79). -/
def nearFn (c low : Nat) : Nat :=
  let d := ((low : Int) - c) % 65536
  ((c : Int) + (if d ≤ 32768 then d else d - 65536)).toNat

/-- An arm by an agent (R79), through CMT.ARM or at a fabric target: CMT enters CHECKING. -/
def armFor (a target : Nat) (latePol : Bool) (s : State) : State :=
  { s with cmt := { s.cmt with mode := .checking, target := target, late := false, latePol := latePol, arming := a,
                               disarmPending := false, waitE := false } }

/-- A write of CMT.ARM (R79, R93). -/
def arm (a : Nat) (v : Word) (s : State) : State :=
  let off := 0x050
  if a = 0 ∨ s.cmt.owner ≠ a then s.fault pgCMT 0x02 off a
  else if s.cmt.mode ≠ .idle then s.fault pgCMT 0x03 off a
  else if 2 ≤ bitsOf v 16 2 then s.fault pgCMT 0x01 off a
  else
    let t := if bitsOf v 16 2 = 0 then nearFn (fnOf s s.time.ft) (bitsOf v 0 16) else nextTarget s s.time.ft
    armFor a t (bitsOf v 18 1 = 1) s

/-- The commit cutoff of FN `fn` reached (R83): an armed commit for it becomes LOCKED. Before E, one whose target lies below E is
re-targeted to E or missed (R533). -/
def lockAt (fn : Nat) (s : State) : State :=
  if s.cmt.mode = .armed ∧ s.cmt.target ≤ fn then
    if s.boot.outEn then { s with cmt := { s.cmt with mode := .locked } }
    else match s.boot.enableAt with
      | some e =>
        if e ≤ s.cmt.target then { s with cmt := { s.cmt with mode := .locked } }
        else if s.cmt.latePol then cancelCommit 6 s
        else { s with cmt := { s.cmt with target := e, late := true, mode := if e ≤ fn then .locked else .armed } }
      | none => if s.cmt.latePol then cancelCommit 6 s else { s with cmt := { s.cmt with late := true, waitE := true } }
  else s

/-- The end of the check of an arm whose configuration passed (R83): armed for F, re-targeted to F′, or MISSED. -/
def checkPassed (s : State) : State :=
  if s.cmt.disarmPending then cancelCommit 7 s
  else if nextTarget s s.time.ft ≤ s.cmt.target then { s with cmt := { s.cmt with mode := .armed } }
  else if s.cmt.latePol then cancelCommit 6 s
  else { s with cmt := { s.cmt with mode := .armed, target := nextTarget s s.time.ft, late := true } }

/-- The reject fields of a failed check (R81): each failing page with its code and offset, the lowest page first. -/
def recordRejects (fails : List (Nat × Nat × Nat)) (s : State) : State :=
  let s := fails.foldl (fun s (p, c, off) =>
    (s.set p F.HDR_STGSTAT_REJ c).set p F.HDR_STGSTAT_REJOFF off) (clearRejects s)
  match fails with
  | [] => s
  | (p, c, off) :: _ =>
    let s := ((s.set pgCMT F.CMT_REJECT_CODE c).set pgCMT F.CMT_REJECT_PAGE p).set pgCMT F.CMT_REJECT_OFFSET off
    s.set pgCMT F.CMT_REJCOUNT_COUNT fails.length

/-- The end of a check (R81, R83): `fails` lists each failing page, lowest first, with its lowest code and REJOFF. -/
def checkEnd (fails : List (Nat × Nat × Nat)) (s : State) : State :=
  if s.cmt.mode ≠ .checking then s
  else
    let s := recordRejects fails s
    if fails.isEmpty then checkPassed s
    else if s.cmt.disarmPending then cancelCommit 7 s
    else endCommit 3 2 (s.bump pgCMT F.CMT_st_REJECTED)

/-- The LOCKED commit applied at the FS of its target (R84): staged values become the values in force as one step. -/
def applyCommit (fn : Nat) (s : State) : State :=
  if s.cmt.mode = .locked ∧ s.cmt.target ≤ fn then
    let s := { merged s with staged := [] }
    let s := (s.setReg pgCMT 0x064 (BitVec.ofNat 32 fn)).setReg pgCMT 0x068 (BitVec.ofNat 32 (fn / 2 ^ 32 % 65536))
    let s := s.setReg pgCMT 0x06C s.time.seq
    let late := s.cmt.late
    endCommit (if late then 2 else 1) (if late then 1 else 0) (s.bump pgCMT (if late then F.CMT_st_LATE else F.CMT_st_APPLIED))
  else s

/-! ### Statistics (R85 to R88) -/

/-- A new frame's peaks begin at what is held already: the pending entries of an arbiter (R441), the items of a queue (R467) and the posts that
wait (R497). -/
def peaksKept (s : State) : State :=
  let atLeast := fun (p : Nat) (f : Fld) (v k : Nat) (s : State) => if v = 0 then s else s.statMax p f v k
  let s := [0, 1].foldl (fun s i => atLeast (pgARB i) F.ARB_st_PENDPEAK (arbOf s i).queue.length 0 s) s
  let s := s.que.qs.zipIdx.foldl (fun s (k, q) => atLeast pgQUE F.QUE_st_PEAK k.items.length q s) s
  atLeast pgTSK F.TSK_st_QPEAK s.tsk.posts.length 0 s

/-- The counters of the pages that take part copied into their latched fields and every counter restarted, with FRAMES and LATGEN (R85, R86). -/
def latchNow (frames : Nat) (s : State) : State :=
  let live := fun p => pageDomainOn s p
  let noSlack := (amGet s.ctr (State.statKey pgPMU F.PMU_st_MINSLACK 0)).isNone
  let keep := s.regs.filter fun (k, _) => !(0x800 ≤ k % 4096 && k % 4096 < 0xC00 && live (k / 4096))
  let s := { s with regs := keep }
  let s := s.ctr.foldl (fun s (k, v) =>
    let a := k / 32
    if live (a / 4096) then s.setReg (a / 4096) (a % 4096) (setBits (s.reg (a / 4096) (a % 4096)) (k % 32) (32 - k % 32) v) else s) s
  let s := { s with ctr := [] }
  let s := peaksKept s
  -- MINSLACK latches 1,000 where no frame was measured (R528)
  let s := if noSlack then s.set pgPMU F.PMU_st_MINSLACK 1000 else s
  allPages.foldl (fun s p =>
    if live p then (s.setReg p 0x800 (BitVec.ofNat 32 frames)).setReg p 0x024 s.time.seq else s) s

/-- A hold of statistics ended, at its last suppressed latch or by a write of 0 (R87, R91). -/
def holdEnd (s : State) : State :=
  ({ s with cmt := { s.cmt with holdLeft := 0 } }.bump pgSYS F.SYS_st_HOLDS).evt pgSYS 0

/-- The latch of an FS (R86, R87): suppressed while a hold has latches left. -/
def latchStats (s : State) : State :=
  let n := s.cmt.frames + 1
  if 0 < s.cmt.holdLeft then
    let s := { s with cmt := { s.cmt with frames := n, holdLeft := s.cmt.holdLeft - 1, held := s.cmt.held + 1 } }
    if s.cmt.holdLeft = 0 then holdEnd s else s
  else { latchNow n s with cmt := { s.cmt with frames := 0 } }

/-- A hold that ends at T_end (R88): a latch at T_end itself, with the sequence counter unchanged. -/
def holdBroken (s : State) : State :=
  if s.cmt.holdLeft = 0 then s
  else
    let n := s.cmt.frames + 1
    let s := { s with cmt := { s.cmt with holdLeft := 0, frames := 0 } }
    ((latchNow n s).bump pgSYS F.SYS_st_HOLDS).evt pgSYS 1

/-- A write of SYS.STATHOLD (R87). -/
def statHold (a : Nat) (v : Word) (s : State) : State :=
  let n := bitsOf v 0 7
  if n = 0 then (if s.cmt.holdLeft = 0 then s else holdEnd s)
  else if s.cmt.holdLeft ≠ 0 then s.fault pgSYS 0x06 0x040 a
  else if 64 < n then s.fault pgSYS 0x07 0x040 a
  else { s with cmt := { s.cmt with holdLeft := n, held := 0 } }

end Sys2Proof.Machine
end

