-- ==== Sys2Proof/Machine/Time.lean ====
section
/-!
DEFINITION. Fabric time: the tick, the servo, steps and mode changes, the phase tracker and PPS (R29 to R65, R579).
-/
namespace Sys2Proof.Machine
open Sys2Proof

/-- A change of the time state. -/
def updTime (s : State) (f : TimeState → TimeState) : State := { s with time := f s.time }

/-! ### The tick (R32, R33) -/

/-- One tick of the 1 GHz time base: 1 ns × (1 + c) added to FT, with 32 bits carried below its fraction. c is the correction in
units of 2^-8 ppb. -/
def tickTime (t : TimeState) : TimeState :=
  let sum : Int := (t.ft * 2 ^ 32 + t.acc : Nat) + 2 ^ 48 + t.corr * 2 ^ 40 / 1000000000
  { t with ft := (sum / 2 ^ 32).toNat % (2 ^ 48 * secUnits), acc := (sum % 2 ^ 32).toNat }

/-- FT rounded to the 62.5 ps grid, an instant halfway to the later point (R48). -/
def grid16 (t : Nat) : Nat := (t + 2048) / 4096 * 4096

/-- The present FT as a timestamp, in 1/16 ns (R33, R48). -/
def stamp16 (s : State) : Nat := grid16 s.time.ft / 4096

/-! ### Validity and liveness (R39, R43) -/

/-- FN of the first frame whose FS lies no earlier than an instant. -/
def firstFn (s : State) (t : Nat) : Nat :=
  let n := fnOf s t
  if t ≤ fsOf s n then n else n + 1

/-- The conditions of output enable (R533). -/
def enableReady (s : State) : Bool :=
  s.boot.handed && s.boot.calDone && timeValid s && !s.boot.svcWait &&
  (!s.flag pgBOOT F.BOOT_CFG_WAITFAB || s.fab.disc = 5 || s.boot.fabDone) && (!s.flag pgBOOT F.BOOT_CFG_FWGATE || s.boot.ready)

/-- E fixed at the instant at which the conditions of output enable hold (R533); a commit that waits for it is re-targeted, and locks at once
where that instant is the cutoff of E. -/
def enableEval (s : State) : State :=
  if s.boot.outEn ∨ s.boot.enableAt.isSome ∨ !enableReady s then s
  else
    let from' := s.time.ft + leadUnits s
    let e := firstFn s from'
    let s := { s with boot := { s.boot with enableAt := some e, enableT := from' } }
    if s.cmt.waitE then
      { s with cmt := { s.cmt with target := e, waitE := false, mode := if fsOf s e ≤ from' ∧ s.cmt.mode = .armed then .locked else s.cmt.mode } }
    else s

/-- A step of the start ended (R530, R556, R557): its window word gives the µs from the start of the first step run, and STATUS.STEP the last step
completed. A step's first end counts. -/
def stepEnded (n : Nat) (s : State) : State :=
  match s.boot.t0 with
  | none => s
  | some t =>
    if s.reg pgBOOT (0xBFC + 4 * n) ≠ 0 then s
    else
      let us := max 1 (((s.time.ft : Int) - t) / 65536000).toNat
      let s := s.setReg pgBOOT (0xBFC + 4 * n) (BitVec.ofNat 32 us)
      s.setReg pgBOOT 0x040 (setBits (s.reg pgBOOT 0x040) 0 4 (max n (bitsOf (s.reg pgBOOT 0x040) 0 4)))

/-- E found again on a grid that changed before output enable (R59). -/
def enableAgain (s : State) : State :=
  if s.boot.enableAt.isNone then s
  else { s with boot := { s.boot with enableAt := some (firstFn s (max s.boot.enableT s.time.ft)) } }

/-- Time became or ceased to be valid: the pages that need it take or leave hold NOTIME (R70). -/
def timeChanged (s : State) : State := enableEval (refreshAll (if timeValid s then stepEnded 12 s else s))

/-! ### The servo (R35 to R42) -/

/-- The mean correction over the logged time in LOCKED, at most the last 64 s (R36). -/
def meanCorr (log : List (Nat × Int)) : Option Int :=
  let total : Nat := (log.map (·.1)).sum
  if total = 0 then none else some ((log.map fun (d, c) => (d : Int) * c).sum / (total : Int))

/-- A log of segments cut to 64 s. -/
def trimLog : Nat → List (Nat × Int) → List (Nat × Int)
  | _, [] => []
  | left, (d, c) :: t => if left = 0 then [] else (min d left, c) :: trimLog (left - min d left) t

/-- The time since the last change of correction or state logged, where it was spent in LOCKED (R36). -/
def logSegment (t : TimeState) : TimeState :=
  if t.servo = .locked then
    let log := trimLog (64 * secUnits) ((t.ft - t.segStart, t.corr) :: t.lockLog)
    { t with lockLog := log, holdFreq := (meanCorr log).orElse fun _ => t.holdFreq, segStart := t.ft }
  else { t with segStart := t.ft }

/-- The correction in force changed. -/
def setCorr (c : Int) (s : State) : State := updTime s fun t => { logSegment t with corr := c }

/-- ±200 ppm in units of 2^-8 ppb (R32). -/
abbrev corrLimit : Int := 51200000

/-- A correction the servo computes, clamped with its event (R32). -/
def clampCorr (c : Int) (s : State) : State × Int :=
  let k := clampInt (-corrLimit) corrLimit c
  (s.evtIf (k ≠ c) pgTIME 5, k)

/-- Whether the fabric offers venue time (R35, R374): GWDIST below 127, and the node is not the time gateway. -/
def fabricTime (s : State) : Bool := s.get pgFAB F.FAB_TIMEPATH_GWDIST < 127 && !holdsRole s 0

/-- The source that SERVOSRC.SRC resolves to (R35): AUTO takes BRURA while the fabric offers venue time, otherwise PTP. -/
def activeSource (s : State) : Nat :=
  match s.get pgTIME F.TIME_SERVOSRC_SRC with
  | 4 => if fabricTime s then 2 else 1
  | n => n

/-- AUTO resolved again after the fabric changed; a switch sets SRCCHANGE (R35). -/
def autoSource (s : State) : State :=
  let a := activeSource s
  if s.get pgTIME F.TIME_SERVOSRC_SRC ≠ 4 ∨ a = s.time.autoSrc then s else (updTime s fun t => { t with autoSrc := a }).evt pgTIME 10

/-- The time parent's port and the node's GWDIST (R374). -/
def timePath (s : State) : Option Nat × Nat :=
  let bru := fun (b : Nat) => s.bru.getD b {}
  if holdsRole s 0 ∧ s.time.servo = .locked ∧ activeSource s = 1 then (none, 0)
  else
    let c := [0, 1, 2, 3].filter fun b => (bru b).up && (bru b).nbValid && (bru b).nbDist < 127
    match c.foldl (fun (m : Option Nat) b => match m with
      | none => some b
      | some a => if (bru b).nbDist < (bru a).nbDist then some b else m) none with
    | some b => (some b, min 126 ((bru b).nbDist + 1))
    | none => (none, 127)

/-- TIMEPATH brought up to date (R374), and AUTO's source with it: the first measurement of a new time parent is discarded. -/
def timePathSync (s : State) : State :=
  let (tp, d) := timePath s
  let moved := tp.getD 7 ≠ s.get pgFAB F.FAB_TIMEPATH_PORT
  let s := (s.set pgFAB F.FAB_TIMEPATH_PORT (tp.getD 7)).set pgFAB F.FAB_TIMEPATH_GWDIST d
  autoSource (if moved then updTime s fun t => { t with discardBru := true } else s)

/-- The servo moved to a state, with the events of R37. FREE holds the correction in force (R36), HOLDOVER the holdover frequency, which R40
limits while an output is live; the loop's integral term starts from the correction in force. -/
def servoTo (n : Servo) (s : State) : State :=
  let o := s.time.servo
  if o = n then s
  else
    let s := updTime s fun t => { logSegment t with servo := n, lockRun := 0, unlockRun := 0, everLocked := t.everLocked || n = .locked }
    let s := s.evtIf (n = .locked) pgTIME 0
    let s := s.evtIf (o = .locked ∧ n = .acquire) pgTIME 1
    let s := s.evtIf (n = .holdover) pgTIME 2
    let live := anyLive s
    let s := match n with
      | .free => updTime s fun t => { t with goal := t.corr }
      | .holdover => updTime s fun t =>
        let c := t.holdFreq.getD t.corr
        { t with goal := c, corr := if live then t.corr else c }
      | .acquire => if o = .locked then s else updTime s fun t => { t with integ := (t.corr : Rat) }
      | .locked => s
    timeChanged (timePathSync s)

/-- The state that a loss of measurements leads to: HOLDOVER with a holdover frequency, otherwise FREE (R37). -/
def servoLost (s : State) : State :=
  let s := updTime s logSegment
  servoTo (if s.time.holdFreq.isSome then .holdover else .free) s

/-- No measurement for SRCTIMEOUT (R37). -/
def servoTimeout (s : State) : State :=
  match s.time.servo with
  | .acquire => servoLost s
  | .locked => servoTo .holdover (updTime s logSegment)
  | _ => s

/-- A write of SERVOSRC (R37): a different code discards the measurements in flight. -/
def servoSrcWrite (a : Nat) (v : Word) (s : State) : State :=
  let n := bitsOf v 0 3
  if 5 ≤ n then s.fault pgTIME 0x01 0x0A0 a
  else if n = s.get pgTIME F.TIME_SERVOSRC_SRC then s
  else
    let s := s.set pgTIME F.TIME_SERVOSRC_SRC n
    let s := timePathSync (updTime s fun t => { t with autoSrc := activeSource s })
    servoLost (updTime s fun t => { t with lastMeas := none, ptp := { t.ptp with await := none, down := none, req := none, delay := none } })

/-- A change of SERVOCTL.FREEZE (R37): a servo already FREE holds the correction in force. -/
def freezeSet (on : Bool) (s : State) : State :=
  let s := s.set pgTIME F.TIME_SERVOCTL_FREEZE on.toNat
  if on then servoLost (if s.time.servo = .free then updTime s fun t => { t with goal := t.corr } else s) else s

/-! ### Steps (R41, R60) and mode changes (R59) -/

/-- Commits cancelled at T_end: `code` for every commit, or for a target below M (R59, R60). -/
def cancelBelow (code : Nat) (all : Bool) (m : Nat) (s : State) : State :=
  if s.cmt.mode ≠ .idle ∧ (all ∨ s.cmt.target < m) then cancelCommit code s else s

/-- The FN of the first FS of the grid in force that is not earlier than an instant (R59). -/
def firstFs (s : State) (t : Nat) : Nat :=
  let n := fnOf s t
  if fsOf s n = t then n else n + 1

/-- A placer moved with a step of FT (R60): what it has placed, its queue and its window keep their distance from now. A GPIO port's queued
instants are ST values, which keep their values. -/
def movePin (off : Int) (gpio : Bool) (p : Pin) : Pin :=
  let mv := fun (t : Nat) => (((t : Int) * 4096 + off) / 4096).toNat
  let mvE := fun (e : Entry) => ⟨mv e.t, e.level, e.late.map mv⟩
  { p with last := p.last.map mv, window := p.window.map fun (a, b) => (mv a, mv b),
           queue := if gpio then p.queue else p.queue.map mvE, feed := if gpio then p.feed else p.feed.map mvE }

/-- A strand port moved with a step of FT. -/
def moveStrand (off : Int) (k : Strand) : Strand :=
  let mv := fun (t : Nat) => (((t : Int) * 4096 + off) / 4096).toNat
  let r : Rat := (off : Rat) / 4096
  { k with shiftAt := k.shiftAt + r, origin := k.origin + r, ovrEnd := ((k.ovrEnd : Int) + off).toNat, lastBreak := mv k.lastBreak,
           packetEnd := mv k.packetEnd, lastSwitch := if k.lastSwitch = 0 then 0 else mv k.lastSwitch,
           ovrUntil := k.ovrUntil + r, backFt := k.backFt.map fun t => ((t : Int) + off).toNat }

/-- A latch group moved with a step of FT. -/
def moveLatch (off : Int) (l : Latch) : Latch := { l with at' := (((l.at' : Int) * 4096 + off) / 4096).toNat }

/-- The Ethernet ports, the pair and the Cane responder moved with a step of FT. -/
def moveNet (mv : Nat → Nat) (n : NetState) : NetState :=
  { n with ports := n.ports.map fun e => { e with pauseEnd := e.pauseEnd.map mv },
           pair := { n.pair with healthyAt := n.pair.healthyAt.map mv },
           cane := { n.cane with tags := n.cane.tags.map fun (t, f) => (t, f.map mv) } }

/-- A Brura port moved with a step of FT. -/
def moveBru (mv : Nat → Nat) (b : BruPort) : BruPort :=
  let mvS := fun (x : Sent) => { x with at' := mv x.at' }
  { b with lanes := b.lanes.map fun l => { l with halfAt := mv l.halfAt }, sent := b.sent.map mvS, replay := b.replay.map mvS }

/-- The fabric's records moved with a step of FT. -/
def moveFab (mv : Nat → Nat) (f : FabState) : FabState :=
  { f with members := f.members.map fun (k, m) => (k, { m with at' := mv m.at' }),
           clusters := f.clusters.map fun (k, c) => (k, { c with at' := mv c.at' }),
           cands := f.cands.map fun c => { c with at' := mv c.at' },
           holders := f.holders.map fun h => h.map fun (c, t) => ({ c with at' := mv c.at' }, mv t),
           seen := f.seen.map fun (a, b, c, t) => (a, b, c, mv t),
           reports := f.reports.map fun r => { r with since := mv r.since } }

/-- A whole number of grid steps of R257 in a step of FT. -/
def gridSteps (off : Int) (n : Nat) : Nat := ((n : Int) + off * 48000 / secUnits).toNat

/-- The sound inputs, the buses and the tempo tracker moved with a step of FT (DESIGN CHOICE, notes/assumptions/108.md). -/
def moveSnd (off : Int) (d : SndState) : SndState :=
  let mv := fun (t : Nat) => ((t : Int) + off).toNat
  let sec : Rat := (off : Rat) / (secUnits : Nat)
  let bus := fun (b : Bus) => { b with idx := b.idx.map (gridSteps off), taken := b.taken.map fun (i, t) => (i, mv t),
                                       block := b.block.map fun (n, x) => (gridSteps off n, x),
                                       lastOnset := b.lastOnset.map fun n => ((n : Int) + off * 1000 / secUnits).toNat, onAt := mv b.onAt }
  { d with chans := d.chans.map fun c => { c with q := c.q.map fun (t, x) => (mv t, x) }, buses := d.buses.map bus,
           tdm := d.tdm.map fun (t, n) => (t.map mv, n), aesAt := d.aesAt.map fun t => t.map mv,
           trk := { d.trk with onsets := d.trk.onsets.map fun (t, x) => (mv t, x), next := d.trk.next.map (· + sec),
                               est := d.trk.est.map fun (p, phi) => (p, phi + sec), issued := d.trk.issued.map fun (b, n) => (b + sec, n) },
           ltc := { d.ltc with last := d.ltc.last.map fun (t, x) => (mv t, x), cross := d.ltc.cross.map mv, half := d.ltc.half.map mv,
                               bits := d.ltc.bits.map fun (b, t) => (b, mv t), frames := d.ltc.frames.map fun (v, c, r, t) => (v, c, r, mv t) },
           tapUsed := [] }

/-- A cancelled frame's charge taken back (R401). -/
def refund (f : AirFrame) (s : State) : State :=
  match f.bucket with
  | none => s
  | some i =>
    let s := updAir s fun a => { a with buckets := updAt a.buckets f.sb fun l => updAt l i (· - f.us) }
    s.setStat pgAIR F.AIR_st_AIRTIME (s.stat pgAIR F.AIR_st_AIRTIME - f.us)

/-- A frame cancelled as LOADLATE (R401), with what of it still waits for the bus. -/
def loadLate (f : AirFrame) (s : State) : State :=
  ((updAir (refund f s) fun a => { a with frame := none, waiting := a.waiting.filter (·.op < 3) }).bump pgAIR F.AIR_st_LOADLATE).evt pgAIR 3

/-- The radio after a step of FT (R408): a frame that the step makes past is cancelled, and the wait for a TXDONE goes on as it was. -/
def airStepped (off : Int) (s : State) : State :=
  let s := updAir s fun a => { a with onAir := a.onAir.map fun f => { f with tgo := f.tgo + off } }
  match s.air.frame with
  | some f => if f.tgo ≤ s.time.ft then loadLate f s else s
  | none => s

/-- What the node keeps by FT to tell how long ago something was, moved with a step of FT (R60): no time passes in a step. -/
def moveTimes (off : Int) (s : State) : State :=
  let mv := fun (t : Nat) => ((t : Int) + off).toNat
  let mvs := fun (l : List (Option Nat)) => l.map fun (o : Option Nat) => o.map mv
  let gpio := fun (i : Nat) => decide (i < 128) && ((s.outs.strands.getD (i / 2) {}).kind = 7)
  let s := { s with outs := { s.outs with pins := s.outs.pins.zipIdx.map fun (p, i) => movePin off (gpio i) p,
                                          strands := s.outs.strands.map (moveStrand off),
                                          latch := s.outs.latch.map (moveLatch off),
                                          ovr := { s.outs.ovr with fireAt := mvs s.outs.ovr.fireAt } } }
  let s := { s with cal := { s.cal with madeAt := mvs s.cal.madeAt, convAt := s.cal.convAt.map fun (o : Option (Nat × Nat)) => o.map fun (a, b) => (mv a, mv b),
                                         dieAt := s.cal.dieAt.map mv },
                           mm := { s.mm with conf := s.mm.conf.map fun (i, t) => (i, mv t) },
                           col := { s.col with formed := s.col.formed.map fun (i, t) => (i, mv t), sweptAt := mv s.col.sweptAt } }
  let s := { s with net := moveNet mv s.net, bru := s.bru.map (moveBru mv), fab := moveFab mv s.fab, snd := moveSnd off s.snd }
  { s with pwr := { s.pwr with pixOnAt := s.pwr.pixOnAt.map mv } }

/-- FT changed by an offset (R60). -/
def stepFt (off : Int) (s : State) : State :=
  let s := moveTimes off s
  let s := updTime s fun t => { t with ft := ((t.ft : Int) + off).toNat, segStart := ((t.segStart : Int) + off).toNat,
                                       fsFt := ((t.fsFt : Int) + off).toNat,
                                       lastMeas := t.lastMeas.map fun m => ((m : Int) + off).toNat, heldStep := none }
  let s := { s with boot := { s.boot with t0 := s.boot.t0.map (· + off) } }
  let s := { s with outs := { s.outs with prepEnd := s.outs.prepEnd.map fun m => ((m : Int) + off).toNat } }
  ((airStepped off s).bump pgTIME F.TIME_st_STEPS).evt pgTIME 3

/-- Outputs are enabled: FS has fired since the start (R533). -/
def outputsEnabled (s : State) : Bool := s.boot.outEn

/-- A value taken modulo the exact period P of the mode in force (R47, R53), in units of 2^-16 ns, the rest of a unit left out. -/
def modPeriod (s : State) (x : Int) : Nat :=
  let (num, den) := modeRate (s.get pgTIME F.TIME_MODE_CURIDX)
  (x * num % ((den * secUnits : Nat) : Int) / num).toNat

/-- A mode put in force (R59): Φ is reduced below the new period (R47; DESIGN CHOICE, notes/assumptions/80.md). The phase samples formed under the old
mode are kept (DESIGN CHOICE, notes/assumptions/97.md). -/
def takeMode (n : Nat) (s : State) : State :=
  let s := s.set pgTIME F.TIME_MODE_CURIDX n
  updTime s fun t => { t with phi := modPeriod s t.phi }

/-- A re-phase, which is a mode change to the same index (R54), takes effect. -/
def takePhase (p : Nat) (s : State) : State := updTime s fun t => { t with phi := p, rephase := none }

/-- A mode change or a re-phase complete: MODECHG counts it and MODEDONE is set (R59, R63, R64). -/
def modeDone (s : State) : State := (s.bump pgTIME F.TIME_st_MODECHG).evt pgTIME 6

/-- T_end at the FT `te` (R59, R60): a held step applies first, then a pending mode and a re-phase; the commits are cancelled, a hold of statistics
ends, and the next frame is M, the first of the grid not earlier than the stepped T_end. -/
def tEnd (te : Nat) (s : State) : State :=
  let step := s.time.heldStep
  let te := ((te : Int) + step.getD 0).toNat
  let s := match step with | some o => stepFt o s | none => s
  let pend := s.flag pgTIME F.TIME_MODE_PEND
  let rephase := s.time.rephase
  let s := if pend then modeDone ((takeMode (s.get pgTIME F.TIME_MODE_REQIDX) s).set pgTIME F.TIME_MODE_PEND 0) else s
  let s := match rephase with | some p => modeDone (takePhase p s) | none => s
  let mode := pend || rephase.isSome
  let m := firstFs s te
  let s := updTime s fun t => { t with gapM := some m, ended := some (t.seq, te) }
  -- no tap value crosses the gap (R271)
  let s := { s with snd := { s.snd with nextDrive := [] } }
  let s := if mode then cancelBelow 4 true m s else if step.isSome then cancelBelow 5 false m s else s
  holdBroken s

/-- T_end of the frame in progress: the instant that FS(N+1) would have under the old mode and the unstepped time (R59, R60). -/
def frameEnd (s : State) : Nat := fsOf s (s.time.fn + 1)

/-- A step permitted with no output live (R41, R60). A mode change or re-phase that waits takes effect with it (DESIGN CHOICE,
notes/assumptions/80.md). -/
def stepNow (off : Int) (s : State) : State :=
  if outputsEnabled s then tEnd s.time.ft (updTime s fun t => { t with heldStep := some off })
  else
    let s := stepFt off s
    let s := { s with boot := { s.boot with enableT := ((s.boot.enableT : Int) + off).toNat } }
    cancelBelow 5 true 0 (enableAgain s)

/-- A write of MODE.REQIDX (R59). -/
def modeRequest (a : Nat) (v : Word) (s : State) : State :=
  let n := bitsOf v 0 5
  if 22 ≤ n then s.fault pgTIME 0x01 0x040 a
  else
    let s := s.set pgTIME F.TIME_MODE_REQIDX n
    if n = s.get pgTIME F.TIME_MODE_CURIDX then s.set pgTIME F.TIME_MODE_PEND 0
    else if outputsEnabled s then s.set pgTIME F.TIME_MODE_PEND 1
    else cancelBelow 4 true 0 (enableAgain (modeDone (takeMode n s)))

/-- The bandwidth in Hz of a code of BW or ACQBW (R38). -/
def servoBand (code : Nat) : Rat :=
  match code with | 0 => 1 / 100 | 1 => 3 / 100 | 2 => 1 / 10 | 3 => 3 / 10 | 4 => 1 | 5 => 3 | 6 => 10 | _ => 30

/-- A gain, which is not negative: the correction rises while the offset is positive (R579). -/
def gainOf (x : Rat) : Rat := if x < 0 then -x else x

/-- The proportional-integral loop at a measurement (R36, R38): the bandwidth that the state selects, at most a tenth of the measurement
rate, gives the gains with the damping factor of 0.707; its answer is the correction the servo computes. `interval` is the time since the last
measurement in 2^-16 ns, 0 where there was none. -/
def servoLoop (off : Int) (interval : Nat) (s : State) : State × Int :=
  let bw := servoBand (if s.time.servo = .locked then s.get pgTIME F.TIME_SERVOCTL_BW else s.get pgTIME F.TIME_SERVOCTL_ACQBW)
  let t : Rat := (interval : Rat) / secUnits
  let bw := if interval = 0 then bw else min bw (1 / (10 * t))
  let integ := s.time.integ + gainOf (Config.servoI bw (707 / 1000) t) * off
  (updTime s fun k => { k with integ := max (-(corrLimit : Rat)) (min (corrLimit : Rat) integ) },
    roundHalfUp (integ + gainOf (Config.servoP bw (707 / 1000) t) * off))

/-- One measurement processed by the servo (R36 to R41): the offset is the reference's FT minus the local FT, in 2^-16 ns. The measurement
that enters ACQUIRE counts towards LOCKCNT, a blocked step leaves a held one, and an offset that a step removes leaves the loop nothing
(DESIGN CHOICE, notes/assumptions/78.md). -/
def measure (off : Int) (s : State) : State :=
  let frozen := s.flag pgTIME F.TIME_SERVOCTL_FREEZE
  if frozen ∧ (s.time.servo = .free ∨ s.time.servo = .holdover) then s
  else
    let ns : Int := openRound 37 ((off : Rat) / 65536)
    let rep := clampInt (-(2 ^ 31 - 1)) (2 ^ 31 - 1) ns
    let first := s.stat pgTIME F.TIME_st_MEAS = 0
    let lo := signed 32 (s.stat pgTIME F.TIME_st_OFFMIN)
    let hi := signed 32 (s.stat pgTIME F.TIME_st_OFFMAX)
    let s := s.set pgTIME F.TIME_OFFSET (toField 32 rep)
    let s := if first ∨ rep < lo then s.setStat pgTIME F.TIME_st_OFFMIN (toField 32 rep) else s
    let s := if first ∨ hi < rep then s.setStat pgTIME F.TIME_st_OFFMAX (toField 32 rep) else s
    let s := s.bump pgTIME F.TIME_st_MEAS
    let live := anyLive s
    let interval := match s.time.lastMeas with | some m => s.time.ft - m | none => 0
    let s := updTime s fun t => { t with lastMeas := some t.ft }
    let mag : Nat := off.natAbs
    let big := s.get pgTIME F.TIME_STEPTHR * 65536 < mag
    let stepOk := s.flag pgTIME F.TIME_SERVOCTL_STEPOK
    -- the state first, since a first measurement loads its estimate in ACQUIRE
    let s := if s.time.servo = .free ∨ s.time.servo = .holdover then servoTo .acquire s else s
    let s :=
      if big ∧ !live then stepNow off (s.set pgTIME F.TIME_SERVOSTAT_STEPBLK 0)
      else if big ∧ stepOk then updTime (s.set pgTIME F.TIME_SERVOSTAT_STEPBLK 0) fun t => { t with heldStep := some off }
      else if big then (s.set pgTIME F.TIME_SERVOSTAT_STEPBLK 1).evt pgTIME 4
      else updTime (s.set pgTIME F.TIME_SERVOSTAT_STEPBLK 0) fun t => { t with heldStep := none }
    -- lock and unlock counts
    let within := mag ≤ s.get pgTIME F.TIME_LOCKTHR * 65536
    let beyond := s.get pgTIME F.TIME_LOCKTHR_UNLOCKTHR * 65536 < mag
    let s := updTime s fun t => { t with lockRun := if within then t.lockRun + 1 else 0,
                                         unlockRun := if beyond then t.unlockRun + 1 else 0 }
    let s := match s.time.servo with
      | .acquire => if s.get pgTIME F.TIME_SERVOCTL_LOCKCNT ≤ s.time.lockRun then servoTo .locked s else s
      | .locked => if 4 ≤ s.time.unlockRun then servoTo .acquire s else s
      | _ => s
    let (s, c) := servoLoop (if big ∧ (!live ∨ stepOk) then 0 else off) interval s
    let (s, goal) := clampCorr c s
    let s := updTime s fun t => { t with goal := goal }
    if live then s else setCorr goal s

/-- A measurement from a source: only the active source's count (R37). The first of a new lead path is discarded, and the first of a new time parent
(R45, R374). -/
def measurement (src : Nat) (off : Int) (s : State) : State :=
  if src = 1 ∧ s.time.discardPtp then updTime s fun t => { t with discardPtp := false }
  else if src = 2 ∧ s.time.discardBru then updTime s fun t => { t with discardBru := false }
  else if src ≠ activeSource s ∨ src = 0 then s else measure off s

/-- The offset of a PPS_IN edge timestamped at FT `t` (R33, R35, R579): the FT second boundary nearest the edge, minus the edge's FT. Of two boundaries
equally near the later is taken (DESIGN CHOICE, notes/assumptions/98.md). -/
def ppsOffset (t : Nat) : Int :=
  let t := grid16 t
  ((t + secUnits / 2) / secUnits * secUnits : Nat) - (t : Int)

/-- One millisecond's change of the correction while outputs are live, at most SLEWLIM/1,000 (R40); with no output live what is left of a change is
loaded at once. -/
def slewIncrement (s : State) : State :=
  if !anyLive s then setCorr s.time.goal s
  else
    let lim : Int := s.get pgTIME F.TIME_SLEWLIM * 256 / 1000
    setCorr (s.time.corr + clampInt (-lim) lim (s.time.goal - s.time.corr)) s

/-- A write of SETGO (R42). A SETNS of a second or more carries into the seconds; while FREEZE is 1 the servo keeps its state, as R37 has it
(DESIGN CHOICE, notes/assumptions/79.md). -/
def setGo (a : Nat) (v : Word) (s : State) : State :=
  if bitsOf v 0 1 = 0 then s
  else
    let sec := s.get pgTIME F.TIME_SETSECL_value + s.get pgTIME F.TIME_SETSECH_value % 65536 * 2 ^ 32
    let ft := (sec * 1000000000 + s.get pgTIME F.TIME_SETNS_value) * 65536
    let off : Int := (ft : Int) - s.time.ft
    let live := anyLive s
    if live ∧ !s.flag pgTIME F.TIME_SERVOCTL_STEPOK then s.fault pgTIME 0x40 0x0F8 a
    else
      let s := if live then updTime s fun t => { t with heldStep := some off } else stepNow off s
      let timeout := s.get pgTIME F.TIME_TIMEOUTS_SRCTIMEOUT * 65536000000
      let delivering : Bool := match s.time.lastMeas with | some m => decide ((s.time.ft : Int) - m ≤ timeout) | none => false
      if s.flag pgTIME F.TIME_SERVOCTL_FREEZE then s else servoTo (if delivering then .acquire else .free) s

/-- A write of SNAP.CAP (R62): FT, FN and the sequence counter at one instant. -/
def snapCapture (v : Word) (s : State) : State :=
  if bitsOf v 0 1 = 0 then s
  else
    let t := s.time.ft
    let sec := t / secUnits
    let fn := fnOf s t
    let put := fun (s : State) (f : Fld) (x : Nat) => s.set pgTIME f x
    let s := put (put s F.TIME_SNAPSECL_value sec) F.TIME_SNAPSECH_value (sec / 2 ^ 32)
    let s := put (put s F.TIME_SNAPNS_value (t / 65536 % 1000000000)) F.TIME_SNAPFRAC_value (t % 65536)
    put (put (put s F.TIME_SNAPFNL_value fn) F.TIME_SNAPFNH_value (fn / 2 ^ 32)) F.TIME_SNAPSEQ_value s.time.seq.toNat

/-- ACQWAIT passes since the start (R43). -/
def acqWait (s : State) : State :=
  if s.get pgTIME F.TIME_TIMEOUTS_ACQWAIT = 0 ∨ s.time.servo = .locked ∨ s.time.servo = .holdover then s
  else timeChanged (updTime s fun t => { t with acqDone := true })

/-- AON stores the holdover frequency while the servo is LOCKED (R44). -/
def storeHoldover (s : State) : State :=
  if s.time.servo = .locked then
    let s := updTime s logSegment
    { s with pwr := { s.pwr with aonHold := s.time.holdFreq } }
  else s

/-! ### The phase tracker (R53 to R55) -/

/-- The period of the mode in force as a fraction of units of 2^-16 ns: numerator and denominator. -/
def periodFrac (s : State) : Nat × Nat :=
  let (num, den) := modeRate (s.get pgTIME F.TIME_MODE_CURIDX)
  (den * secUnits, max 1 num)

/-- The period, rounded down to a unit of 2^-16 ns. -/
def period (s : State) : Nat := (periodFrac s).1 / (periodFrac s).2

/-- A re-phase to a target (R54): REPHASE, and a mode change to the same index, at T_end or, before output enable, at once (R59). -/
def rephaseTo (p : Nat) (s : State) : State :=
  let s := s.evt pgTIME 8
  if outputsEnabled s then updTime s fun t => { t with rephase := some p }
  else cancelBelow 4 true 0 (enableAgain (modeDone (takePhase p s)))

/-- A write of PHASE.SRC (R54): SEEK, or EPOCH for the epoch source. With the epoch source the grid re-phases to Φ = 0 (DESIGN CHOICE,
notes/assumptions/80.md). -/
def phaseSrc (n : Nat) (s : State) : State :=
  let s := s.set pgTIME F.TIME_PHASE_SRC n
  let s := updTime s fun t => { t with track := if n = 0 then .epoch else .seek, samples := [], lastRef := none, refMatch := 0, refMiss := 0,
                                       rephase := none }
  if n = 0 ∧ s.time.phi ≠ 0 then rephaseTo 0 s else s

/-- The circular distance from one phase to another within the exact period of the mode in force. -/
def phaseDist (s : State) (a b : Nat) : Int :=
  let d : Int := modPeriod s ((b : Int) - a)
  if d * 2 ≤ period s then d else d - period s

/-- The mean of phase samples, taken around the newest of them. -/
def meanPhase (s : State) (l : List Nat) : Nat :=
  match l with
  | [] => 0
  | h :: _ => modPeriod s ((h : Int) + (l.map (phaseDist s h)).sum / (l.length : Int))

/-- Whether the mode and M match an LTC signal's rate (R55): the rate of the mode is M times the LTC rate. -/
def ltcFits (s : State) : Bool :=
  let m := 2 ^ s.get pgTIME F.TIME_PHASE_DIV
  let col := match s.snd.ltcRate with | 0 => [1, 6, 12] | 1 => [2, 7, 13, 19] | 2 => [3, 8, 14, 20] | _ => [4, 9, 15, 21]
  col.getD (s.get pgTIME F.TIME_PHASE_DIV) 99 = s.get pgTIME F.TIME_MODE_CURIDX && 0 < m

/-- The spacing M × P of reference instants, in 2^-16 ns (R53). -/
def refSpacing (s : State) : Int := ((2 ^ s.get pgTIME F.TIME_PHASE_DIV * (periodFrac s).1 / (periodFrac s).2 : Nat) : Int)

/-- An expected instant of the reference missing or outside the tolerance: three in a row hold the phase (R54). -/
def refLost (s : State) : State :=
  let s := updTime s fun k => { k with refMiss := k.refMiss + 1 }
  if 3 ≤ s.time.refMiss ∧ s.time.track = .track then
    (updTime s fun k => { k with track := .hold, refMatch := 0, lastRef := none }).evt pgTIME 7
  else s

/-- A reference instant at FT `t` from the selected source (R53, R54); a REF_SYNC edge is timestamped (R33). While the phase is tracked the instants expected go on in steps of
M × P from the last one that came within the tolerance (DEDUCED, notes/assumptions/89.md). -/
def referenceInstant (ltc : Bool) (t : Nat) (s : State) : State :=
  let src := s.get pgTIME F.TIME_PHASE_SRC
  if src = 0 ∨ src = 3 ∨ (src = 2) ≠ ltc ∨ (ltc ∧ !ltcFits s) then s
  else
    let t := if ltc then t else grid16 t
    let want := refSpacing s
    let tol : Int := want * (if ltc then 1000 else 500) / 1000000
    let gap : Int := match s.time.lastRef with | some l => (t : Int) - l | none => 0
    let fits := s.time.lastRef.isSome && decide ((gap - want).natAbs ≤ tol.toNat)
    let trim := signed 32 (s.get pgTIME F.TIME_PHASETRIM_TRIM) * 65536
    let sample := modPeriod s ((t : Int) + trim)
    let lost : Bool := s.time.track = .track && !fits
    let last : Nat := match s.time.lastRef with
      | some l => if lost then ((l : Int) + (2 * gap + want) / (2 * want) * want).toNat else t
      | none => t
    let s := updTime s fun k => { k with lastRef := some last, refMatch := if fits then k.refMatch + 1 else 0,
                                         samples := if lost then k.samples else (sample :: k.samples).take 8,
                                         refMiss := if fits then 0 else k.refMiss }
    match s.time.track with
    | .epoch => s
    | .seek | .hold =>
      if 7 ≤ s.time.refMatch then
        let goal := meanPhase s s.time.samples
        let s := updTime s fun k => { k with track := .track, refMiss := 0 }
        if period s < (phaseDist s s.time.phi goal).natAbs * 4 then rephaseTo goal s else s
      else s
    | .track => if fits then s else refLost s

/-- An expected reference instant is missing (R54, R64). -/
def referenceMissed (s : State) : State :=
  if s.get pgTIME F.TIME_PHASE_SRC = 0 then s
  else
    let s := s.bump pgTIME F.TIME_st_REFMISS
    let next := s.time.lastRef.map fun l => ((l : Int) + refSpacing s).toNat
    let s := updTime s fun k => { k with refMatch := 0, lastRef := if k.track = .track then next else none }
    if s.time.track = .track then refLost s else s

/-- Φ moves towards the mean of the samples, at most PHASE.SLEW ns in a frame (R53). The mean is taken round the period about the newest sample, Φ moves
the shorter way and wraps at P, and FN goes on by one (DESIGN CHOICE, notes/assumptions/97.md). -/
def slewPhase (s : State) : State :=
  if s.time.track ≠ .track ∨ s.time.samples.isEmpty ∨ s.time.rephase.isSome then s
  else
    let lim : Int := s.get pgTIME F.TIME_PHASE_SLEW * 65536
    let d := clampInt (-lim) lim (phaseDist s s.time.phi (meanPhase s s.time.samples))
    updTime s fun k => { k with phi := modPeriod s ((k.phi : Int) + d) }

/-! ### PPS (R58) -/

/-- PPS_OUT at an FT second boundary. -/
def ppsPulse (s : State) : State :=
  if s.flag pgTIME F.TIME_PPSOUT_EN ∧ timeValid s ∧ outputsEnabled s then
    (updTime s fun t => { t with ppsHigh := true }).emit (.ball "PPS_OUT" (!s.flag pgTIME F.TIME_PPSOUT_POL))
  else s

/-- The end of a PPS pulse. -/
def ppsEnd (s : State) : State :=
  if s.time.ppsHigh then
    let s := updTime s fun t => { t with ppsHigh := false }
    if s.flag pgTIME F.TIME_PPSOUT_EN then s.emit (.ball "PPS_OUT" (s.flag pgTIME F.TIME_PPSOUT_POL)) else s
  else s

/-- PPS_OUT drives its inactive level while it does not pulse, and is high-impedance while EN is 0 and before output enable (R58); `was`: EN was 1
before. -/
def ppsIdle (was : Bool) (s : State) : State :=
  if !s.boot.outEn then s
  else if s.flag pgTIME F.TIME_PPSOUT_EN then s.emit (.ball "PPS_OUT" (s.flag pgTIME F.TIME_PPSOUT_POL != s.time.ppsHigh))
  else if was then (updTime s fun t => { t with ppsHigh := false }).emit (.ballFloat "PPS_OUT")
  else s

/-! ### Meanings -/

/-- SERVO_SOURCE_TIMEOUT (R37). -/
def execServoSourceTimeout (s : State) := act servoTimeout s
/-- FREQ_SLEW_INCREMENT (R40). -/
def execFreqSlewIncrement (s : State) := act slewIncrement s
/-- ACQWAIT_EXPIRY (R43). -/
def execAcqwaitExpiry (s : State) := act acqWait s
/-- HOLDOVER_STORE (R44). -/
def execHoldoverStore (s : State) := act storeHoldover s
/-- REFERENCE_INSTANT (R53). -/
def execReferenceInstant (ltc : Bool) (t : Nat) (s : State) := act (referenceInstant ltc t) s
/-- REFERENCE_MISSED (R54). -/
def execReferenceMissed (s : State) := act referenceMissed s
/-- PPS_PULSE (R58). -/
def execPpsPulse (s : State) := act ppsPulse s
/-- PPS_PULSE_END (R58). -/
def execPpsPulseEnd (s : State) := act ppsEnd s

end Sys2Proof.Machine
end

