-- ==== Sys2Proof/Machine/Canvas.lean ====
section
/-!
DEFINITION. Canvas, maps and veneers (R95 to R133): the compositor, the generators, the ingress converters and what a
veneer takes at a frame start.
-/
namespace Sys2Proof.Machine
open Sys2Proof

/-- A tap target's value for the frame (R116, R274): the driven one, else the register's. -/
def tapped (s : State) (kind idx fld dflt : Nat) : Nat := (amGet s.snd.drive (kind * 1024 + idx * 8 + fld)).getD dflt

/-- A colour with its AUX component. -/
structure Px where
  r : Fl
  g : Fl
  b : Fl
  x : Fl
  deriving DecidableEq, Repr

/-- A function applied to every component. -/
def Px.map (f : Fl → Fl) (p : Px) : Px := ⟨f p.r, f p.g, f p.b, f p.x⟩

/-- Two colours joined component by component. -/
def Px.zip (f : Fl → Fl → Fl) (p q : Px) : Px := ⟨f p.r q.r, f p.g q.g, f p.b q.b, f p.x q.x⟩

/-- An AUX code as a fraction (R96). -/
def auxOf (c : Nat) : Fl := f32 ((c : Rat) / 65535)

/-- A canvas pixel's bytes as a colour, cleaned (R96, R97). -/
def pxOfBytes (b : List Byte) : Px :=
  let h := fun i => leVal (slice b i 2)
  (Px.mk (ofHalf (h 0)) (ofHalf (h 2)) (ofHalf (h 4)) (auxOf (h 6))).map Fl.clean

/-! ### Generators (R114 to R116) -/

/-- The hash of R115. -/
def noiseHash (seed ix iy q : Nat) : Nat :=
  let m := 2 ^ 32
  let h := (seed ^^^ (ix * 0x6C8E9CF5 % m)) ^^^ ((iy * 0x7FEB352D % m) ^^^ (q * 0x846CA68B % m))
  let h := h ^^^ (h / 2 ^ 16)
  let h := h * 0x31A48C65 % m
  let h := h ^^^ (h / 2 ^ 13)
  let h := h * 0x5B2D7E93 % m
  let h := h ^^^ (h / 2 ^ 16)
  h / 256

/-- Linear interpolation in binary32: a + t × (b − a). -/
def lerp (a b t : Fl) : Fl := a.add (t.mul (b.sub a))

/-- An integer modulo 2^32. -/
def mod32 (i : Int) : Nat := (i % 2 ^ 32).toNat

/-- n(q) of R115 at a lattice place with its fractions. -/
def noiseAt (seed : Nat) (ix iy : Int) (fx fy : Fl) (q : Nat) : Fl :=
  let h := fun (i j : Int) => f32 ((noiseHash seed (mod32 (ix + i)) (mod32 (iy + j)) (q % 2 ^ 32) : Rat) / 16777216)
  let w := fun (f : Fl) => (f.mul f).mul ((Fl.fin 3).sub ((Fl.fin 2).mul f))
  let top := lerp (h 0 0) (h 1 0) (w fx)
  let bottom := lerp (h 0 1) (h 1 1) (w fx)
  lerp top bottom (w fy)

/-- A binary32 value's integer part downwards. -/
def flFloor (a : Fl) : Int := a.val.floor

/-- t clamped to [0, 1], or its fraction under REPEAT (R114). -/
def genT (rep : Bool) (t : Fl) : Fl := if rep then t.sub (.fin (flFloor t)) else Fl.clamp 0 1 t

/-- Generator `g` at a sample position in 1/16 canvas pixels (R114, R115), its result cleaned. -/
def generator (s : State) (g x y : Nat) : Px :=
  let get := fun f => s.get pgGEN f g
  let col := fun (kind : Nat) (r gg b a : Fld) =>
    Px.mk (ofHalf (tapped s kind g 0 (get r))) (ofHalf (tapped s kind g 1 (get gg))) (ofHalf (tapped s kind g 2 (get b)))
      (auxOf (tapped s kind g 3 (get a)))
  let ca := col 5 F.GEN_COLA0_R F.GEN_COLA0_G F.GEN_COLA1_B F.GEN_COLA1_AUX
  let cb := col 6 F.GEN_COLB0_R F.GEN_COLB0_G F.GEN_COLB1_B F.GEN_COLB1_AUX
  let rep := get F.GEN_CFG_REPEAT = 1
  let len : Fl := .fin ((get F.GEN_LENGTH : Rat) / 16)
  let dx : Fl := f32 (((x : Int) - signed 21 (get F.GEN_ORGX_ORG) : Int) / 16)
  let dy : Fl := f32 (((y : Int) - signed 21 (get F.GEN_ORGY_ORG) : Int) / 16)
  let ang := tapped s 3 g 0 (get F.GEN_ANGLE)
  let sl := (dx.mul (f32 (cosTurn ang))).add (dy.mul (f32 (sinTurn ang)))
  let per := max 1 (get F.GEN_PERIOD)
  let k := (s.time.fn + tapped s 4 g 0 (get F.GEN_PHASE)) % 2 ^ 48
  let f := f32 ((k % per : Nat) / (per : Rat))
  let mix := fun (t : Fl) => Px.zip (fun a b => lerp a b t) ca cb
  let out := match get F.GEN_CFG_TYPE with
    | 1 => mix (genT rep (sl.div len))
    | 2 => mix (genT rep ((sqrt32 ((dx.mul dx).add (dy.mul dy)).val).div len))
    | 3 =>
      let d := (sl.div len).sub f
      if Fl.lt (d.sub (.fin (flFloor d))) (.fin ((get F.GEN_TIMING_DUTY : Rat) / 65536)) then cb else ca
    | 4 =>
      let gx := dx.div len
      let gy := dy.div len
      let ix := flFloor gx
      let iy := flFloor gy
      let n := noiseAt (get F.GEN_SEED) ix iy (gx.sub (.fin ix)) (gy.sub (.fin iy))
      mix (genT rep (((n (k / per)).mul ((Fl.fin 1).sub f)).add ((n (k / per + 1)).mul f)))
    | 5 => if k % per < get F.GEN_TIMING_ON then cb else ca
    | _ => ca
  let lev := ofHalf (tapped s 2 g 0 (get F.GEN_LEVEL))
  (Px.mk (out.r.mul lev) (out.g.mul lev) (out.b.mul lev) out.x).map Fl.clean

/-! ### Geometry and fetch (R102, R103, R105, R122) -/

/-- A placement covers a sample position in 1/16 pixels (R102). -/
def covers (s : State) (v x y : Nat) : Bool :=
  let get := s.get (pgVEN v)
  let px := get F.VEN_PLCXY_PX * 16
  let py := get F.VEN_PLCXY_PY * 16
  px ≤ x && x < px + (get F.VEN_PLCWH_PW + 1) * 16 && py ≤ y && y < py + (get F.VEN_PLCWH_PH + 1) * 16

/-- The source position of a covered sample (R102), exactly. -/
def sourceAt (s : State) (v x y : Nat) : Rat × Rat :=
  let get := s.get (pgVEN v)
  let u : Rat := ((x : Rat) / 16 - get F.VEN_PLCXY_PX) / (get F.VEN_PLCWH_PW + 1 : Nat)
  let w : Rat := ((y : Rat) / 16 - get F.VEN_PLCXY_PY) / (get F.VEN_PLCWH_PH + 1 : Nat)
  let (a, b) := match get F.VEN_CFG_ROT with
    | 0 => (u, w) | 1 => (w, 1 - u) | 2 => (1 - u, 1 - w) | _ => (1 - w, u)
  let a := if get F.VEN_CFG_FLIPH = 1 then 1 - a else a
  let b := if get F.VEN_CFG_FLIPV = 1 then 1 - b else b
  (get F.VEN_SRCXY_SX + a * (get F.VEN_SRCWH_SW + 1 : Nat), get F.VEN_SRCXY_SY + b * (get F.VEN_SRCWH_SH + 1 : Nat))

/-- The buffer in scan of a veneer (R106, R107). -/
def inScan (s : State) (v : Nat) : Option Nat :=
  if !runTest s (pgVEN v) then none
  else if s.get (pgVEN v) F.VEN_CFG_SRC = 0 then some (s.get (pgVEN v) F.VEN_RING_SHOW)
  else (venOf s v).taken

/-- A fetch missed (R122): the veneer is transparent for the rest of the frame. -/
def missFetch (v : Nat) (s : State) : State :=
  if (venOf s v).missed then s
  else ((updVen s v fun k => { k with missed := true }).bump (pgVEN v) F.VEN_st_UNDERRUNS).evt (pgVEN v) 0

/-- One buffer pixel fetched (R105); none is an uncorrectable error, which counts as a miss and records ECC. -/
def fetchPx (v b i j : Nat) (s : State) : State × Option Px :=
  let off := s.get (pgVEN v) F.VEN_BUF_OFFSET b + j * s.get (pgVEN v) F.VEN_STRIDE + i * 8
  let (s, d) := rd ⟨0, if v < 8 then 4 else 5, 0, none⟩ (fsBase + off) 8 s
  match d with
  | some d => (s, some (pxOfBytes d))
  | none => (missFetch v (s.fault (pgVEN v) 0x40 (F.VEN_BUF_OFFSET.off + 4 * b) 0), none)

/-- A source rectangle's nearest coordinate (R103). -/
def nearest (lo n : Nat) (i : Int) : Nat := (clampInt lo (lo + n - 1 : Nat) i).toNat

/-- The source colour of a veneer's buffer at a covered sample (R103). BILINEAR's source position is rounded to its fraction bits with a
tie upwards, which R102 leaves open (DESIGN CHOICE, notes/assumptions/26.md). -/
def fetch (v b x y : Nat) (s : State) : State × Option Px :=
  let get := s.get (pgVEN v)
  let (sx, sw) := (get F.VEN_SRCXY_SX, get F.VEN_SRCWH_SW + 1)
  let (sy, sh) := (get F.VEN_SRCXY_SY, get F.VEN_SRCWH_SH + 1)
  let (a, c) := sourceAt s v x y
  if get F.VEN_CFG_SCALE = 0 then fetchPx v b (min a.floor.toNat (sx + sw - 1)) (min c.floor.toNat (sy + sh - 1)) s
  else
    let q : Rat := ((2 ^ (16 + Config.extraFraction) : Nat) : Rat)
    let u := f32 ((roundHalfUp (a * q) : Rat) / q - 1 / 2)
    let w := f32 ((roundHalfUp (c * q) : Rat) / q - 1 / 2)
    let i0 := flFloor u
    let j0 := flFloor w
    let fx := u.sub (.fin i0)
    let fy := w.sub (.fin j0)
    let one := fun (i j : Int) s => fetchPx v b (nearest sx sw i) (nearest sy sh j) s
    let (s, p00) := one i0 j0 s
    let (s, p10) := one (i0 + 1) j0 s
    let (s, p01) := one i0 (j0 + 1) s
    let (s, p11) := one (i0 + 1) (j0 + 1) s
    match p00, p10, p01, p11 with
    | some p00, some p10, some p01, some p11 =>
      let top := Px.zip (fun p q => lerp p q fx) p00 p10
      let bottom := Px.zip (fun p q => lerp p q fx) p01 p11
      (s, some (Px.zip (fun p q => lerp p q fy) top bottom))
    | _, _, _, _ => (s, none)

/-- The checker of TEST (R128). -/
def checker (s : State) (v x y : Nat) : Px :=
  let i := (x - s.get (pgVEN v) F.VEN_PLCXY_PX * 16) / 256
  let j := (y - s.get (pgVEN v) F.VEN_PLCXY_PY * 16) / 256
  let c : Fl := .fin (if (i + j) % 2 = 0 then 1 else 0)
  ⟨c, c, c, .fin 1⟩

/-- What a veneer contributes at a covered sample; none is transparent. -/
def source (v x y : Nat) (s : State) : State × Option Px :=
  let p := pgVEN v
  if effMode s p = 3 then (s, some (checker s v x y))
  else if s.get p F.VEN_CFG_SRC = 4 then
    let g := s.get p F.VEN_CFG_GEN
    (s, if inRun s pgGEN ∧ s.flag pgGEN F.GEN_CFG_EN g then some (generator s g x y) else none)
  else if (venOf s v).missed then (s.bump p F.VEN_st_UNDSAMP, none)
  else match inScan s v with
    | none => (s, none)
    | some b =>
      let (s, r) := fetch v b x y s
      match r with
      | some r => (s, some r)
      | none => (s.bump p F.VEN_st_UNDSAMP, none)

/-! ### Blending (R98 to R101) -/

/-- One component of the blend of R100. -/
def blend1 (kind : Nat) (c sv a : Fl) : Fl :=
  let one : Fl := .fin 1
  match kind with
  | 1 => c.add (sv.mul a)
  | 2 => c.mul ((one.sub a).add (sv.mul a))
  | 3 => c.add (a.mul ((Fl.max c sv).sub c))
  | 4 => c.add (a.mul ((Fl.min c sv).sub c))
  | _ => (sv.mul a).add (c.mul (one.sub a))

/-- One veneer blended into the colour and weight of those below it (R98 to R100). -/
def blendVeneer (x y : Nat) (st : State × Px × Fl) (v : Nat) : State × Px × Fl :=
  let (s, c, w) := st
  let p := pgVEN v
  if !runTest s p || !covers s v x y then st
  else
    let (s, src) := source v x y s
    match src with
    | none => (s, c, w)
    | some q =>
      let s := s.bump pgMAP F.MAP_st_VENPIX
      let o := (ofHalf (tapped s 1 v 0 (s.get p F.VEN_OPACITY))).clean
      let aux := s.get p F.VEN_CFG_AUXUSE
      let a := if aux = 0 then q.x.mul o else o
      let a := if s.flag p F.VEN_CFG_MATTE then a.mul w else a
      let a := Fl.clamp 0 1 a
      let k := s.get p F.VEN_CFG_BLEND
      (s, ⟨blend1 k c.r q.r a, blend1 k c.g q.g a, blend1 k c.b q.b a, c.x⟩, if aux = 2 then q.x else w)

/-- The composited colour at a sample position, in binary16 (R98, R101). -/
def composite (x y : Nat) (s : State) : State × (Nat × Nat × Nat) :=
  let z : Fl := .fin 0
  let (s, c, _) := (List.range 16).foldl (blendVeneer x y) (s, ⟨z, z, z, z⟩, .fin 1)
  let out := fun (a : Fl) => toHalf (Fl.clamp 0 65504 a)
  (s, out c.r, out c.g, out c.b)

/-! ### Buffers of the ingress converters (R107, R108) -/

/-- `RING.READY` (R129): the complete buffers. -/
def venReady (s : State) (v : Nat) : Nat := ((venOf s v).complete.map fun (b, _) => 2 ^ b).sum

/-- The converter of a veneer takes units (R107): in RUN and TEST, and in RUN held UPSTREAM for want of a first buffer. -/
def ingests (s : State) (v : Nat) : Bool := runTest s (pgVEN v) || s.get (pgVEN v) F.HDR_EFF_HOLD = 7

/-- An ingress unit dropped (R107). -/
def inDrop (v : Nat) (s : State) : State := (s.bump (pgVEN v) F.VEN_st_INDROP).evt (pgVEN v) 2

/-- The unit of a source with a stamp. -/
def unitOf (s : State) (v src stamp : Nat) : Option Filling := (venOf s v).units.find? fun f => f.src = src && f.stamp = stamp

/-- A unit taken off the list of those being filled. -/
def endUnit (v : Nat) (f : Filling) (s : State) : State :=
  updVen s v fun k => { k with units := k.units.filter fun g => !(g.src = f.src && g.stamp = f.stamp) }

/-- A unit put on the list of those being filled, in place of what stood there for it. -/
def setUnit (v : Nat) (f : Filling) (s : State) : State := updVen (endUnit v f s) v fun k => { k with units := f :: k.units }

/-- A unit dropped (R107): it counts once, and what is still to come of it is ignored. -/
def dropUnit (v : Nat) (f : Filling) (s : State) : State := if f.buf.isNone then s else inDrop v (setUnit v { f with buf := none } s)

/-- The buffers into which the converter may write (R107): neither in scan nor the newest complete. -/
def writable (s : State) (v : Nat) : List Nat :=
  (List.range (s.get (pgVEN v) F.VEN_RING_COUNT)).filter fun b =>
    inScan s v ≠ some b && ((venOf s v).complete.head?.map (·.1)) ≠ some b

/-- A buffer for a unit that begins to arrive (R107): one of those that no unit fills, which of them is open; with none, the buffer of the
oldest unit still incomplete, which is dropped, unless the one that arrives is older (DESIGN CHOICE, notes/assumptions/24.md). -/
def claimBuffer (v src stamp : Nat) (s : State) : State × Option Nat :=
  let k := venOf s v
  let use := writable s v
  match use.filter fun b => k.units.all (·.buf ≠ some b) with
  | [] =>
    let held := k.units.filter fun f => use.any fun b => f.buf = some b && (f.src ≠ src || f.stamp < stamp)
    match held.foldl (fun (b : Option Filling) f => match b with | some g => if g.stamp ≤ f.stamp then b else some f | none => some f) none with
    | some f => (dropUnit v f s, f.buf)
    | none => (s, none)
  | [b] => (s, some b)
  | l => let (s, r) := s.free; (s, l[r.toNat % l.length]?)

/-- A unit begins to arrive: its buffer ceases to be complete; with no buffer for it, it is dropped (R107). -/
def beginUnit (v src stamp : Nat) (s : State) : State :=
  match claimBuffer v src stamp s with
  | (s, some b) =>
    setUnit v { src := src, stamp := stamp, buf := some b } (updVen s v fun k => { k with complete := k.complete.filter (·.1 ≠ b) })
  | (s, none) => inDrop v (setUnit v { src := src, stamp := stamp, buf := none } s)

/-- A unit is whole: its buffer is complete, with its stamp (R107). -/
def makeComplete (v : Nat) (f : Filling) (s : State) : State :=
  match f.buf with
  | some b => endUnit v f (updVen s v fun k => { k with complete := (b, f.stamp) :: k.complete.filter (·.1 ≠ b) })
  | none => endUnit v f s

/-- Bytes of a unit written at an offset in its buffer, on behalf of its veneer (R124); a write that a guard window blocks drops the unit. -/
def unitWrite (v src stamp off : Nat) (b : List Byte) (s : State) : State :=
  match unitOf s v src stamp with
  | some f =>
    match f.buf with
    | some i =>
      let (s, ok) := wr ⟨0, if src = 3 then 9 else 8, if src = 3 then 0x41 else 0x40, some v⟩ (fsBase + s.get (pgVEN v) F.VEN_BUF_OFFSET i + off) b s
      if ok then s else dropUnit v f s
    | none => s
  | none => s

/-- The bytes of a canvas pixel. -/
def pxBytes (r g b aux : Nat) : List Byte := leBytes 2 r ++ leBytes 2 g ++ leBytes 2 b ++ leBytes 2 aux

/-! ### Video (R109 to R111) -/

/-- The FT of an RTP timestamp of the 90 kHz media clock, extended about the present FT (R108). -/
def rtpFt (s : State) (ts : Nat) : Nat :=
  let now : Int := (s.time.ft * 90000 + secUnits / 2) / secUnits
  let d := ((ts : Int) - now) % 2 ^ 32
  let t := now + (if d < 2 ^ 31 then d else d - 2 ^ 32)
  (t.toNat * secUnits) / 90000

/-- The bits of bytes in line order, most significant first. -/
def bitsOfBytes (b : List Byte) : List Bool := b.flatMap fun x => (List.range 8).map fun i => x.getLsbD (7 - i)

/-- The number that bits spell, most significant first. -/
def valOfBits (l : List Bool) : Nat := l.foldl (fun n b => 2 * n + b.toNat) 0

/-- A bit list cut into words of `d` bits. -/
def chunkBits (d : Nat) : Nat → List Bool → List Nat
  | 0, _ => []
  | n + 1, l => valOfBits (l.take d) :: chunkBits d n (l.drop d)

/-- A luma or R′G′B′ code as a signal (R109). -/
def lumaSignal (d : Nat) (full : Bool) (c : Nat) : Rat :=
  if full then (c : Rat) / (2 ^ d - 1 : Nat) else ((c : Rat) / (2 ^ (d - 8) : Nat) - 16) / 219

/-- A colour-difference code as a signal. -/
def chromaSignal (d : Nat) (full : Bool) (c : Nat) : Rat :=
  if full then ((c : Rat) - (2 ^ (d - 1) : Nat)) / (2 ^ d - 1 : Nat) else ((c : Rat) / (2 ^ (d - 8) : Nat) - 128) / 224

/-- A linear value as the binary16 code that the buffer holds; a negative value is cleaned on reading, so it is kept as 0. -/
def linearHalf (key : Nat) (q : Rat) : Nat := halfOf key q

/-- The BT.1886 EOTF with a black of 0 and 100 % signal at 1.0: V^2.4 (R110). -/
def eotf1886 (v : Rat) : Rat := powR v (12 / 5)

/-- The ST 2084 EOTF of a signal in [0, 1], scaled so that `nits` cd/m² is 1.0 (R110). -/
def eotfPq (nits : Nat) (v : Rat) : Rat :=
  let e := powR v (32 / 2523)
  10000 / (max 1 nits : Nat) * powR (max 0 (e - 107 / 128) / (2413 / 128 - 2392 / 128 * e)) (8192 / 1305)

/-- The BT.2100 inverse OETF of a signal in [0, 1] (R110). -/
def oetfInvHlg (v : Rat) : Rat :=
  let a : Rat := 17883277 / 100000000
  let b : Rat := 1 - 4 * a
  let c : Rat := 1 / 2 - a * lnR (4 * a)
  if v ≤ 1 / 2 then v * v / 3 else (expR ((v - c) / a) + b) / 12

/-- A signal made linear by the transfer that `VIDFMT.TCS` names (R110). -/
def linearOf (tcs nits : Nat) (v : Rat) : Rat :=
  if tcs = 0 then eotf1886 v
  else if v < 0 ∨ 1 < v then Config.eotfBeyond tcs nits v
  else if tcs = 1 then eotfPq nits v
  else oetfInvHlg v / oetfInvHlg (3 / 4)

/-- The conversion of one sample's three codes to a canvas pixel (R110). -/
def videoPx (s : State) (v y cb cr : Nat) : List Byte :=
  let get := s.get (pgVEN v)
  let d := 8 + 2 * get F.VEN_VIDFMT_DEPTH
  let full := get F.VEN_VIDFMT_RANGE = 1
  let bt2020 := get F.VEN_VIDFMT_COLOR = 1
  let (r, g, b) : Rat × Rat × Rat :=
    if get F.VEN_VIDFMT_SAMPLING = 2 then (lumaSignal d full y, lumaSignal d full cb, lumaSignal d full cr)
    else
      let (kr, kb) : Rat × Rat := if bt2020 then (2627 / 10000, 593 / 10000) else (2126 / 10000, 722 / 10000)
      let yy := lumaSignal d full y
      let pb := chromaSignal d full cb
      let pr := chromaSignal d full cr
      let r := yy + 2 * (1 - kr) * pr
      let b := yy + 2 * (1 - kb) * pb
      (r, (yy - kr * r - kb * b) / (1 - kr - kb), b)
  let lin := linearOf (get F.VEN_VIDFMT_TCS) (get F.VEN_VIDFMT_REFNITS)
  let (r, g, b) := (lin r, lin g, lin b)
  -- BT.2087: the BT.709 primaries in BT.2020
  let (r, g, b) := if bt2020 then (r, g, b) else
    ((6274 * r + 3293 * g + 433 * b) / 10000, (691 * r + 9195 * g + 114 * b) / 10000, (164 * r + 880 * g + 8956 * b) / 10000)
  pxBytes (linearHalf 0 r) (linearHalf 1 g) (linearHalf 2 b) 0xFFFF

/-- The samples of a packet's data: for each pixel its three codes (R109), 4:2:2 chroma repeated to the neighbour (R110). -/
def videoSamples (sampling d n : Nat) (data : List Byte) : List (Nat × Nat × Nat) :=
  let bits := bitsOfBytes data
  if sampling = 0 then
    let w := chunkBits d (2 * n) bits
    (List.range n).map fun i => (w.getD (4 * (i / 2) + 1 + 2 * (i % 2)) 0, w.getD (4 * (i / 2)) 0, w.getD (4 * (i / 2) + 2) 0)
  else
    let w := chunkBits d (3 * n) bits
    (List.range n).map fun i =>
      if sampling = 1 then (w.getD (3 * i + 1) 0, w.getD (3 * i) 0, w.getD (3 * i + 2) 0)
      else (w.getD (3 * i) 0, w.getD (3 * i + 1) 0, w.getD (3 * i + 2) 0)

/-- The rows of a frame with a run of `n` more pixels in one of them. -/
def addRun (row off n : Nat) (f : Filling) : Filling :=
  { f with rows := amSet f.rows row ((amGet f.rows row).getD 0 + n), origin := f.origin || (row = 0 && off = 0) }

/-- A frame whose size differs from the buffer's is dropped with fault 0x41 SIZE, once (R111). -/
def sizeFault (v : Nat) (f : Filling) (s : State) : State :=
  if f.buf.isNone then s else dropUnit v f (s.fault (pgVEN v) 0x41 F.VEN_BUFWH_BW.off 0)

/-- One run of a packet: pixels `off` and on of a row, written into the frame's buffer. A row or column beyond the buffer is a size
mismatch, but for the padding of a last block under BPM; a second field makes the flow interlaced, which is not accepted (R109). -/
def videoRun (v stamp row off : Nat) (field : Bool) (data : List Byte) (s : State) : State :=
  let get := s.get (pgVEN v)
  let d := 8 + 2 * get F.VEN_VIDFMT_DEPTH
  let smp := get F.VEN_VIDFMT_SAMPLING
  let all := data.length * 8 / ((if smp = 0 then 2 else 3) * d)
  let n := if s.flag (pgVEN v) F.VEN_VIDFMT_PACKING then min all (get F.VEN_BUFWH_BW + 1 - off) else all
  match unitOf s v 1 stamp with
  | none => s
  | some f =>
    if field then dropUnit v f s
    else if get F.VEN_BUFWH_BH < row ∨ get F.VEN_BUFWH_BW + 1 < off + n then sizeFault v f s
    else
      let bytes := (videoSamples smp d n data).flatMap fun (a, b, c) => videoPx s v a b c
      unitWrite v 1 stamp (row * get F.VEN_STRIDE + off * 8) bytes (setUnit v (addRun row off n f) s)

/-- The runs that a packet's sample row headers name, each with its part of the data. -/
def videoRuns (v stamp : Nat) : Nat → List Byte → List Byte → State → State
  | 0, _, _, s => s
  | n + 1, h, data, s =>
    let len := beVal (slice h 0 2)
    let row := beVal (slice h 2 2)
    let off := beVal (slice h 4 2)
    let s := videoRun v stamp (row % 2 ^ 15) (off % 2 ^ 15) (row / 2 ^ 15 = 1) (data.take len) s
    if off / 2 ^ 15 = 1 then videoRuns v stamp n (h.drop 6) (data.drop len) s else s

/-- How many sample row headers a packet carries: each says whether another follows. -/
def videoHeaders : Nat → List Byte → Nat
  | 0, _ => 0
  | n + 1, h => if (h.getD 4 0).getLsbD 7 then 1 + videoHeaders n (h.drop 6) else 1

/-- A packet counted in its frame. -/
def addPacket (num : Nat) (marker : Bool) (f : Filling) : Filling :=
  { f with lo := if f.count = 0 then num else min f.lo num, hi := max f.hi num, count := f.count + 1, last := if marker then some num else f.last }

/-- Every row of a frame is present (R111). -/
def frameWhole (s : State) (v : Nat) (f : Filling) : Bool :=
  f.rows.length = s.get (pgVEN v) F.VEN_BUFWH_BH + 1 && f.rows.all fun r => r.2 = s.get (pgVEN v) F.VEN_BUFWH_BW + 1

/-- A frame whose packets have all arrived up to the one with the marker: complete, or of another size (R111). Where its first packet
neither begins the picture nor follows another frame's last one, packets of it may still be missing. -/
def videoEnd (v stamp : Nat) (s : State) : State :=
  match unitOf s v 1 stamp with
  | none => s
  | some f =>
    if f.last ≠ some f.hi ∨ f.count ≠ f.hi + 1 - f.lo then s
    else if frameWhole s v f then makeComplete v f s
    else if f.origin ∨ (venOf s v).ends.contains (f.lo - 1) then endUnit v f (sizeFault v f s)
    else s

/-- The frames of which no packet can arrive any more, since its number has left the window of R296, are dropped (R111). -/
def videoAge (v num : Nat) (s : State) : State :=
  ((venOf s v).units.filter fun f => f.src = 1 && f.hi + 4096 ≤ num).foldl (fun s f => endUnit v f (dropUnit v f s)) s

/-- The bytes of an RTP header before its payload. -/
def rtpHead (d : List Byte) : Nat :=
  let n := 12 + 4 * ((d.getD 0 0).toNat % 16)
  if (d.getD 0 0).getLsbD 4 then n + 4 + 4 * beVal (slice d (n + 2) 2) else n

/-- The frame of a packet, begun where it is its first (R107); larger than 8,192 × 4,320 it is not accepted (R109). -/
def videoUnit (v stamp : Nat) (s : State) : State :=
  if (unitOf s v 1 stamp).isSome then s
  else if 8191 < s.get (pgVEN v) F.VEN_BUFWH_BW ∨ 4319 < s.get (pgVEN v) F.VEN_BUFWH_BH then
    inDrop v (setUnit v { src := 1, stamp := stamp, buf := none } s)
  else beginUnit v 1 stamp s

/-- A packet of a veneer's ST 2110-20 flow, after merging, with its extended number (R109, R111). -/
def videoPacket (v num : Nat) (rtp : List Byte) (s : State) : State :=
  let stamp := rtpFt s (beVal (slice rtp 4 4))
  let marker := (rtp.getD 1 0).getLsbD 7
  let s := videoUnit v stamp (videoAge v num s)
  let s := match unitOf s v 1 stamp with | some f => setUnit v (addPacket num marker f) s | none => s
  let s := if marker then updVen s v fun k => { k with ends := (num :: k.ends).take 16 } else s
  let h := rtp.drop (rtpHead rtp + 2)
  videoEnd v stamp (videoRuns v stamp 3 h (h.drop (6 * videoHeaders 3 h)) s)

/-- A packet of a veneer's flow that found the converter's store full (R499), with its extended number: its frame is dropped. -/
def videoLost (v num : Nat) (rtp : List Byte) (s : State) : State :=
  let stamp := rtpFt s (beVal (slice rtp 4 4))
  match unitOf s v 1 stamp with
  | some f => dropUnit v (addPacket num false f) s
  | none => inDrop v (setUnit v (addPacket num false { src := 1, stamp := stamp, buf := none }) s)

/-! ### sACN (R112) -/

/-- Slots per pixel of a format. -/
def slotsPer (fmt : Nat) : Nat := match fmt with | 0 => 3 | 1 => 6 | 2 => 1 | _ => 2

/-- A code out of a maximum as binary16, linear or with the gamma of R112. -/
def sacnHalf (gamma : Bool) (c m : Nat) : Nat :=
  if gamma then
    halfOpen (fun v => v ^ 5 * ((m ^ 11 : Nat) : Rat) ≤ ((c ^ 11 : Nat) : Rat)) (fun v => v ^ 5 * ((m ^ 11 : Nat) : Rat) = ((c ^ 11 : Nat) : Rat)) 3 ((c : Rat) / m)
  else halfOpen (fun v => v * m ≤ c) (fun v => v * m = c) 4 ((c : Rat) / m)

/-- Pixel `k` of a universe's slots as a canvas pixel. -/
def sacnPx (fmt : Nat) (gamma : Bool) (d : List Byte) (k aux : Nat) : List Byte :=
  let at8 := fun i => (d.getD i 0).toNat
  let n := slotsPer fmt
  let h8 := fun i => sacnHalf gamma (at8 i) 255
  let h16 := fun i => sacnHalf gamma (at8 i * 256 + at8 (i + 1)) 65535
  match fmt with
  | 0 => pxBytes (h8 (n * k)) (h8 (n * k + 1)) (h8 (n * k + 2)) aux
  | 1 => pxBytes (h16 (n * k)) (h16 (n * k + 2)) (h16 (n * k + 4)) aux
  | 2 => pxBytes (h8 (n * k)) (h8 (n * k)) (h8 (n * k)) aux
  | _ => pxBytes (h16 (n * k)) (h16 (n * k)) (h16 (n * k)) aux

/-- The data in force for a universe and whether it is fresh. -/
def sacnUniverse (s : State) (u : Nat) : List Byte × Bool :=
  match amGet s.net.uni u with
  | some k => (k.data, k.fresh)
  | none => ([], false)

/-- The snapshot being rendered. -/
def snapUnit (s : State) (v : Nat) : Option Filling := (venOf s v).units.find? (·.src = 2)

/-- The snapshot of R112 taken at an FS: rendering of it begins in a free buffer, in place of one still unfinished. -/
def sacnSnapshot (v : Nat) (s : State) : State :=
  let get := s.get (pgVEN v)
  let lost := (venOf s v).lost
  let s := updVen s v fun k => { k with units := k.units.filter (·.src ≠ 2), lost := false }
  if lost then s
  else
    let us := (List.range (get F.VEN_SACN_NUMU)).map fun i => let (d, f) := sacnUniverse s (get F.VEN_SACN_FIRSTU + i); (i, d, f)
    updVen (beginUnit v 2 s.time.fn s) v fun k => { k with snap := us }

/-- SACN_RENDER_DONE: the snapshot's pixels are in its buffer, which becomes complete. -/
def sacnDone (v : Nat) (s : State) : State :=
  let get := s.get (pgVEN v)
  match snapUnit s v with
  | none => s
  | some f =>
    let bw := get F.VEN_BUFWH_BW + 1
    let per := get F.VEN_SACNFMT_PXPERU
    let fmt := get F.VEN_SACNFMT_FORMAT
    let gamma := get F.VEN_SACNFMT_XFER = 1
    let one := fun (s : State) (e : Nat × List Byte × Bool) =>
      (List.range per).foldl (fun s k =>
        let i := e.1 * per + k
        unitWrite v 2 f.stamp (i / bw * get F.VEN_STRIDE + i % bw * 8) (sacnPx fmt gamma e.2.1 k (if e.2.2 then 0xFFFF else 0)) s) s
    let s := (venOf s v).snap.foldl one s
    let s := updVen s v fun k => { k with snap := [] }
    match snapUnit s v with
    | some f => makeComplete v f s
    | none => s

/-! ### Canvas tiles (R113) -/

/-- The tile sets dropped so long ago that nothing of them is still to come are forgotten. -/
def tileAge (v fn : Nat) (s : State) : State :=
  updVen s v fun k => { k with units := k.units.filter fun f => !(f.src = 3 && f.buf.isNone && f.stamp + 256 < fn) }

/-- A quarter of a tile, 8 rows of 32 pixels, arrives for frame `fn` (R113, R371). -/
def tileQuarter (v fn col row q : Nat) (data : List Byte) (s : State) : State :=
  let get := s.get (pgVEN v)
  let cols := get F.VEN_TILESZ_TCOLS
  let rows := get F.VEN_TILESZ_TROWS
  let c0 := get F.VEN_TILES_TCOL0
  let r0 := get F.VEN_TILES_TROW0
  if get F.VEN_CFG_SRC ≠ 3 ∨ !ingests s v ∨ col < c0 ∨ c0 + cols ≤ col ∨ row < r0 ∨ r0 + rows ≤ row ∨ (venOf s v).complete.any (·.2 = fn) then s
  else
    let s := if (unitOf s v 3 fn).isSome then s else beginUnit v 3 fn (tileAge v fn s)
    let key := ((row - r0) * cols + (col - c0)) * 4 + q
    let line := fun (s : State) (j : Nat) =>
      unitWrite v 3 fn (((row - r0) * 32 + q * 8 + j) * get F.VEN_STRIDE + (col - c0) * 256) (slice data (j * 256) 256) s
    let s := (List.range 8).foldl line s
    match unitOf s v 3 fn with
    | none => s
    | some f =>
      let f := { f with got := if f.got.contains key then f.got else key :: f.got }
      let s := setUnit v f s
      if f.got.length = cols * rows * 4 then makeComplete v f s else s

/-! ### Taking a buffer at an FS (R106 to R108) -/

/-- The complete buffer that the pick allows, with its stamp (R108). -/
def pickBuffer (s : State) (v : Nat) : Option (Nat × Nat) :=
  let l := (venOf s v).complete
  if s.get (pgVEN v) F.VEN_CFG_PICK = 0 then l.head?
  else match s.get (pgVEN v) F.VEN_CFG_SRC with
    | 1 => l.find? fun (_, t) => t + s.get (pgVEN v) F.VEN_VDELAY * 65536000 ≤ s.time.ft
    | 3 =>
      match l.find? fun (_, t) => t = s.time.fn with
      | some e => some e
      | none => (l.filter fun (_, t) => t < s.time.fn).foldl (fun b e => match b with
          | none => some e
          | some x => if x.2 < e.2 then some e else some x) none
    | _ => l.head?

/-- The guard window FOLLOW over a buffer (R123). -/
def bufferWindow (s : State) (v b : Nat) : Nat × Nat :=
  let base := s.get (pgVEN v) F.VEN_BUF_OFFSET b
  (base, base + s.get (pgVEN v) F.VEN_STRIDE * (s.get (pgVEN v) F.VEN_BUFWH_BH + 1))

/-- A veneer's take at the FS of the frame in progress (R106, R107), with its STALE count and `RING.CUR`. -/
def venTake (v : Nat) (s : State) : State :=
  let p := pgVEN v
  let s := updVen s v fun k => { k with missed := false }
  let src := s.get p F.VEN_CFG_SRC
  if !ingests s v ∨ 4 ≤ src then s
  else
    let old := venOf s v
    let show0 := s.get p F.VEN_RING_SHOW
    let pick := if src = 0 then some (show0, 0) else pickBuffer s v
    let exact := src ≠ 3 || s.get p F.VEN_CFG_PICK = 0 || (pick.map (·.2)) = some s.time.fn
    let fresh := src = 0 || (pick.isSome && (pick.map (·.1) ≠ old.taken || pick.map (·.2) ≠ some old.stamp))
    let s := match pick with
      | some (b, t) => (updVen s v fun k => { k with taken := some b, stamp := t, window := some (bufferWindow s v b) }).set p F.VEN_RING_CUR b
      | none => s
    let s := match (venOf s v).taken with
      | some b => (s.setStat p F.VEN_st_TAKEN b).setStat p F.VEN_st_STAMP
          ((if src = 1 then (venOf s v).stamp / 65536 else (venOf s v).stamp) % 2 ^ 32)
      | none => s
    let stale := (venOf s v).taken.isSome && !(fresh && exact) || src = 2 && (snapUnit s v).any (·.buf.isSome)
    let s := if stale then (s.bump p F.VEN_st_STALE).evt p 3 else s
    let s := if src = 2 then sacnSnapshot v s else s
    refresh p s

/-! ### Budgets (R120, R121) -/

/-- The veneer-pixels of a configuration (R120). -/
def budgetV (s : State) : Nat :=
  ((List.range 16).map fun v =>
    let p := pgVEN v
    let get := s.get p
    if get F.HDR_REQ_MODE < 2 then 0
    else
      let m := if get F.VEN_CFG_SCALE = 1 ∧ get F.VEN_CFG_SRC ≠ 4 then 2 else 1
      let px := get F.VEN_PLCXY_PX
      let py := get F.VEN_PLCXY_PY
      m * ((List.range 64).map fun g =>
        let n := s.get pgMAP F.MAP_SEG_COUNT g % 2 ^ 21
        let meet := s.get pgMAP F.MAP_SEG_X0 g ≤ px + get F.VEN_PLCWH_PW ∧ px ≤ s.get pgMAP F.MAP_SEG_X1 g ∧
          s.get pgMAP F.MAP_SEG_Y0 g ≤ py + get F.VEN_PLCWH_PH ∧ py ≤ s.get pgMAP F.MAP_SEG_Y1 g
        if meet then n else 0).sum).sum

/-- floor(rate × (P − LEAD)) for a rate per second: the form of the caps of R120 and R161. -/
def rateCap (s : State) (rate : Nat) : Nat :=
  let (num, den) := modeRate (s.get pgTIME F.TIME_MODE_CURIDX)
  let lead : Rat := (s.get pgTIME F.TIME_LEAD : Rat) / 1000000
  ((rate : Rat) * ((den : Rat) / (max 1 num : Nat) - lead)).floor.toNat

/-- The veneer-pixel cap (R120). -/
def budgetCap (s : State) : Nat := rateCap s (if s.flag pgCMT F.CMT_CHECK_NOMBUDGET then 720000000 else 400000000)

/-! ### CRC-32 of IEEE 802.3 (R126) -/

/-- One bit of the reflected CRC-32. -/
def crcBit (c : Word) : Word := if c.getLsbD 0 then (c >>> 1) ^^^ 0xEDB88320 else c >>> 1

/-- One byte of the CRC-32. -/
def crcByte (c : Word) (b : Byte) : Word := (List.range 8).foldl (fun c _ => crcBit c) (c ^^^ b.zeroExtend 32)

/-- The CRC-32 of bytes. -/
def crc32 (b : List Byte) : Word := ~~~(b.foldl crcByte 0xFFFFFFFF)

/-- Bits packed into bytes most significant first, the last byte padded with zeros (R126). -/
def packBits : Nat → List Bool → List Byte
  | 0, _ => []
  | n + 1, l => if l.isEmpty then [] else
    BitVec.ofNat 8 (valOfBits (slicePad l)) :: packBits n (l.drop 8)
where
  /-- The first 8 bits, with zeros after the end. -/
  slicePad (l : List Bool) : List Bool := (List.range 8).map fun i => l.getD i false

/-! ### Meanings -/

/-- FETCH_MISS (R122): a fetch of this veneer missed its deadline; a generator never does. -/
def execFetchMiss (ven : Fin 16) (s : State) :=
  act (fun s => if s.get (pgVEN ven) F.VEN_CFG_SRC = 4 ∨ (inScan s ven).isNone then s else missFetch ven s) s

/-- SACN_RENDER_DONE (R112). -/
def execSacnRenderDone (ven : Fin 16) (s : State) := act (sacnDone ven) s

end Sys2Proof.Machine
end

