-- ==== Sys2Proof/Machine/Shift.lean ====
section
/-!
DEFINITION. The instants of frames and latches, the configuration a strand port takes up, and the latest shift start (R18, R26, R47, R50, R177, R178).
-/
namespace Sys2Proof.Machine
open Sys2Proof

/-! ### Instants in 1/16 ns of FT -/

/-- The present FT in 1/16 ns. -/
def now16 (s : State) : Nat := s.time.ft / 4096

/-- An exact instant placed on the 62.5 ps grid, one halfway to the later point (R48, R166). -/
def onGrid (q : Rat) : Nat := (roundHalfUp q).toNat

/-- FS(n) before its rounding to the FT grid (R47). -/
def fsRat (s : State) (n : Nat) : Rat :=
  let (num, den) := modeRate (s.get pgTIME F.TIME_MODE_CURIDX)
  (s.time.phi : Rat) / 4096 + (n : Rat) * den * 16000000000 / (max 1 num : Nat)

/-- The frame period exactly. -/
def periodRat (s : State) : Rat := fsRat s 1 - fsRat s 0

/-- The frame of counter `q` came before the frame in progress. -/
def framePast (s : State) (q : Word) : Bool := q ≠ s.time.seq && (s.time.seq - q).toNat < 2 ^ 31

/-- The latch offset of a group for the frame of counter `q` in ns (R51): a frame before the present one keeps the offset in force in it. -/
def latchOff (s : State) (g : Nat) (q : Word) : Nat :=
  let now := s.get pgTIME F.TIME_LATOFF_OFFSET g
  if framePast s q then s.time.offPrev.getD g now else now

/-- latch(n) of a group for the frame n of counter `q` (R18, R59): FS(n+1) plus the group's offset, or T_end plus it for a frame that ended
at T_end. -/
def latchRat (s : State) (g n : Nat) (q : Word) : Rat :=
  let off : Rat := (latchOff s g q : Rat) * 16
  match s.time.ended with
  | some (e, t) => ((if e = q then t else fsOf s (n + 1) : Nat) : Rat) / 4096 + off
  | none => (fsOf s (n + 1) : Rat) / 4096 + off

/-! ### Configuration taken up (R26) -/

/-- The configuration of a strand port in force, as it would be taken up. -/
def takeCfg (s : State) (p : Nat) : List Word :=
  (List.range 12).map (fun i => s.reg (pgSTD p) (0x40 + 4 * i)) ++
  [s.reg pgCOL (0x100 + 4 * p), s.reg pgMAP (0xC00 + 16 * p), s.reg pgMAP (0xC04 + 16 * p)]

/-- PORTW. -/
def Strand.portw (k : Strand) : Nat := bitsOf (k.cfg.getD 12 3) 0 4
/-- WIDTH. -/
def Strand.width (k : Strand) : Nat := bitsOf (k.cfg.getD 12 0x800) 8 5
/-- COUNT of the segment. -/
def Strand.count (k : Strand) : Nat := (k.cfg.getD 14 0).toNat % 2 ^ 21
/-- Words of one frame: COUNT × PORTW. -/
def Strand.words (k : Strand) : Nat := k.count * k.portw
/-- The bit period in 1/16 ns. -/
def Strand.tbit (k : Strand) : Nat := k.fld F.STD_TBIT
/-- The largest code. -/
def Strand.maxCode (k : Strand) : Nat := 2 ^ k.width - 1

/-- The shift duration D in 1/16 ns (R177). -/
def Strand.shiftD (k : Strand) : Nat :=
  let bits := k.fld F.STD_CFG_BITS
  match k.kind with
  | 1 => k.words * bits * k.tbit
  | 2 => k.words * bits * k.tbit
  | 6 => k.fld F.STD_PANEL_P0_ROWS * (k.fld F.STD_PANEL_P0_CHAINLEN * bits * k.tbit + k.fld F.STD_PANEL_P2_DLATW * 16 + 640)
  | _ => 0

/-- The latch group of a port: that of the configuration it has taken up, or while it has none the one it will take up; a member's is its
leader's. -/
def portGroup (s : State) (p : Nat) : Nat :=
  let p := (gangLead s p).getD p
  let k := strand s p
  if k.kind = 0 then s.get (pgSTD p) F.STD_CFG_LGRP else k.fld F.STD_CFG_LGRP

/-- The latest shift start of frame `n`, of counter `q`, on a port whose configuration is `k` in group `g` (R177). -/
def shiftStart (s : State) (k : Strand) (g n : Nat) (q : Word) : Rat :=
  let l := latchRat s g n q
  match k.kind with
  | 1 | 2 | 6 => l - (k.fld F.STD_ENDGAP * 16 : Nat) - (k.shiftD : Nat)
  | 3 | 4 => l - 16000
  | _ => l

/-- The frame whose latch comes after the one in hand: the frame in progress, or M in the gap of a change (R59). -/
def nextLatch (s : State) : Nat × Word :=
  match s.time.gapM with
  | some m => (m, s.time.seq + 1)
  | none => (s.time.fn, s.time.seq)

/-- The frame whose latch comes next on a port: that of its group, or, where the port has already passed that frame's latch in another group, the
one after (R26). -/
def portNext (s : State) (p : Nat) : Nat × Word :=
  let lt := s.outs.latch.getD (portGroup s p) {}
  if (strand s p).latched = some lt.seq then nextLatch s else (lt.fn, lt.seq)

/-- The width of the latch pulse that a shift has to follow (R178), in 1/16 ns. -/
def latchWidth (s : State) (k : Strand) (g : Nat) : Nat :=
  match k.kind with
  | 1 => if k.fld F.STD_CFG_LATPIN = 1 then s.get pgEDGE F.EDGE_LATCFG_WIDTH g * 16 else 0
  | 6 => k.fld F.STD_PANEL_P3_VSW * 16
  | _ => 0

/-- A shift fits (R178). -/
def shiftFits (s : State) (k : Strand) (g n : Nat) (q : Word) : Bool :=
  latchRat s g (n - 1) (q - 1) + (latchWidth s k g : Nat) ≤ shiftStart s k g n q

end Sys2Proof.Machine
end

