-- ==== Sys2Proof/Machine/Colour.lean ====
section
/-!
DEFINITION. The colour engine (R134 to R165): fixtures, profiles, tessellated mixing, temperature, and the passage of one
map entry through a lane.
-/
namespace Sys2Proof.Machine
open Sys2Proof

/-- Work that reads the frame store: it ends early at an uncorrectable error, and keeps what it did to the state. -/
abbrev RdM := OptionT (StateM State)

/-- `n` bytes at a frame-store offset, read through a requester port. -/
def rdFs (port off n : Nat) : RdM (List Byte) := fun s =>
  let (s, b) := rd ⟨0, port, 0, none⟩ (fsBase + off) n s
  (b, s)

/-- A little-endian field of bytes. -/
def fieldAt (b : List Byte) (i n : Nat) : Nat := leVal (slice b i n)

/-- Whether `n` bytes are zero. -/
def zeros (b : List Byte) (i n : Nat) : Bool := (slice b i n).all (· = 0)

/-- A table fault met at run time (R165). -/
def tableErr (s : State) : State := (s.bump pgCOL F.COL_st_TABLEERR).evt pgCOL 1

/-! ### Profiles (R138 to R142) -/

/-- The directory entry of profile `p` (R135). -/
def dirWord (s : State) (p : Nat) : Nat := s.get pgCOL F.COL_DIR_WORD p

/-- The frame-store offset of a profile block. -/
def blockOf (s : State) (p : Nat) : Nat := dirWord s p / 64 % 2 ^ 21 * 64

/-- A table header's conditions within a block of `size` bytes (R140, R142). -/
def tableOk (t : List Byte) (size : Nat) : Bool :=
  let f := fieldAt t
  let cells := f 0 2
  let verts := f 2 2
  let cands := f 4 2
  let pos := fun i => Fl.lt (.fin 0) (ofSingle (f i 4))
  let sect := fun i n => f i 4 % 64 = 0 && f i 4 + n ≤ size
  1 ≤ cells && cells ≤ 512 && 4 ≤ verts && verts ≤ 2048 && 1 ≤ cands && cands ≤ 8191 && zeros t 6 2 && zeros t 26 2 && zeros t 44 20 &&
  pos 8 && pos 12 && pos 16 && f 22 2 ≠ 0 && sect 28 8192 && sect 32 (cands * 2) && sect 36 (cells * 48) && sect 40 (verts * 24)

/-- A profile header's conditions for a block at a frame-store offset (R138, R140). -/
def headerOk (h : List Byte) (off : Nat) : Bool :=
  let f := fieldAt h
  let size := f 8 4
  let t := fun i => ofHalf (f i 2)
  let sect := fun i n => f i 4 % 64 = 0 && f i 4 + n ≤ size
  slice h 0 4 = [0x43, 0x5A, 0x50, 0x46] && f 4 1 = 1 && 1 ≤ f 5 1 && f 5 1 ≤ 8 && 1 ≤ f 6 2 && f 6 2 ≤ 1024 &&
  256 ≤ size && size ≤ 65536 && off + size ≤ 2 ^ 27 && 1 ≤ f 28 1 && f 28 1 ≤ 8 &&
  sect 12 (f 6 2) && sect 16 64 && sect 20 64 && sect 24 (8192 * f 28 1) &&
  zeros h 29 3 && zeros h 54 2 && zeros h 104 152 &&
  (List.range 8).all (fun e => f (32 + e) 1 < f 28 1 || f (32 + e) 1 = 0xFF) &&
  Fl.lt (t 40) (t 42) && Fl.lt (t 44) (t 46) && Fl.le (t 46) (t 48) && Fl.le (.fin 1) (t 50) && Fl.le (t 50) (.fin 20)

/-- A profile block's header and its two table headers, or none where they fail the conditions of R140. -/
def readProfile (port off : Nat) : RdM (Option (List Byte)) := do
  let h ← rdFs port off 256
  if !headerOk h off then return none
  let cool ← rdFs port (off + fieldAt h 16 4) 64
  let hot ← rdFs port (off + fieldAt h 20 4) 64
  return if tableOk cool (fieldAt h 8 4) && tableOk hot (fieldAt h 8 4) then some h else none

/-! ### Tessellated mixing (R143 to R147) -/

/-- A point in normalised coordinates, in binary32. -/
abbrev Pt := Fl × Fl × Fl

/-- A function on each coordinate of two points. -/
def Pt.zip (f : Fl → Fl → Fl) (a b : Pt) : Pt := (f a.1 b.1, f a.2.1 b.2.1, f a.2.2 b.2.2)

/-- A scalar times a point. -/
def Pt.scale (k : Fl) (a : Pt) : Pt := (k.mul a.1, k.mul a.2.1, k.mul a.2.2)

/-- A row of a matrix times a vector, from left to right. -/
def dot3 (m : Nat → Fl) (r : Nat) (a : Pt) : Fl :=
  (((m (3 * r)).mul a.1).add ((m (3 * r + 1)).mul a.2.1)).add ((m (3 * r + 2)).mul a.2.2)

/-- A code out of 65,536 or 65,535 in binary32. -/
def code65536 (c : Nat) : Fl := f32 ((c : Rat) / 65536)

/-- One coordinate's grid cube, where it lies in [0, 1). -/
def cubeOf (a : Fl) : Option Nat :=
  match a with
  | .fin q => if 0 ≤ q ∧ q < 1 then some (16 * q).floor.toNat else none
  | _ => none

/-- A mixing table: its place in the frame store and its header. -/
structure Mix where
  base : Nat
  hdr : List Byte
  deriving DecidableEq, Repr

/-- One candidate tried against a point (R145): the four λ and the vertices, where the cell contains it. -/
def tryCell (port : Nat) (t : Mix) (block : Nat) (q : Pt) (cell : Nat) : RdM (Option (List Fl × List (List Byte))) := do
  if fieldAt t.hdr 0 2 ≤ cell then
    modify tableErr
    return none
  let c ← rdFs port (block + fieldAt t.hdr 36 4 + 48 * cell) 48
  let vs := (List.range 4).map fun i => fieldAt c (2 * i) 2
  if vs.any (fieldAt t.hdr 2 2 ≤ ·) then
    modify tableErr
    return none
  let vb ← vs.mapM fun v => rdFs port (block + fieldAt t.hdr 40 4 + 24 * v) 24
  let p0 : Pt := let b := vb.headD []
    (code65536 (fieldAt b 0 2), code65536 (fieldAt b 2 2), code65536 (fieldAt b 4 2))
  let d := Pt.zip Fl.sub q p0
  let m := fun i => ofSingle (fieldAt c (8 + 4 * i) 4)
  let l1 := dot3 m 0 d
  let l2 := dot3 m 1 d
  let l3 := dot3 m 2 d
  let l0 := (((Fl.fin 1).sub l1).sub l2).sub l3
  let ls := [l0, l1, l2, l3]
  let bound : Fl := .fin (-1 / 4096)
  return if ls.all fun l => !Fl.lt l bound && l ≠ .nan then some (ls, vb) else none

/-- The first candidate of a list that contains a point; positions at NCAND or beyond are not read (R143). -/
def tryCells (port : Nat) (t : Mix) (block : Nat) (q : Pt) : List Nat → RdM (Option (List Fl × List (List Byte)))
  | [] => return none
  | i :: rest => do
    if fieldAt t.hdr 4 2 ≤ i then
      modify tableErr
      tryCells port t block q rest
    else
      let c ← rdFs port (block + fieldAt t.hdr 32 4 + 2 * i) 2
      let r ← tryCell port t block q (leVal c)
      match r with
      | some r => return some r
      | none => tryCells port t block q rest

/-- Whether a point is inside a table, with the containing cell's λ and vertices (R143, R145). -/
def inside (port : Nat) (t : Mix) (block : Nat) (q : Pt) : RdM (Option (List Fl × List (List Byte))) := do
  match cubeOf q.1, cubeOf q.2.1, cubeOf q.2.2 with
  | some x, some y, some z =>
    let g ← rdFs port (block + fieldAt t.hdr 28 4 + 2 * (z * 256 + y * 16 + x)) 2
    let e := leVal g
    if e = 0xFFFF then return none
    tryCells port t block q ((List.range (e / 8192 + 1)).map (e % 8192 + ·))
  | _, _, _ => return none

/-- The weights a containing cell gives the first `n` emitters (R145). -/
def cellWeights (n : Nat) (ls : List Fl) (vb : List (List Byte)) : List Fl :=
  let ls := ls.map fun l => if Fl.lt l (.fin 0) then .fin 0 else l
  let sum := ls.foldl Fl.add (.fin 0)
  let ls := ls.map fun l => l.div sum
  (List.range n).map fun e =>
    (ls.zip vb).foldl (fun (a : Fl) (l, b) => a.add (l.mul (auxOf (fieldAt b (8 + 2 * e) 2)))) (.fin 0)

/-- A bisection of 8 halvings: the greatest sum of tried halves whose point is inside (R146). -/
def bisect (port : Nat) (t : Mix) (block : Nat) (at' : Fl → Pt) : Nat → Fl → RdM Fl
  | 0, k => return k
  | n + 1, k => do
    let k' := k.add (.fin (pow2 (-(8 - n : Nat))))
    let r ← inside port t block (at' k')
    bisect port t block at' n (if r.isSome then k' else k)

/-- The weights of one mixing table for a normalised colour, whether it was projected, and whether it stayed outside the table (R146). -/
def mixOne (port n block toff : Nat) (xyz : Pt) : RdM (List Fl × Bool × Bool) := do
  let hdr ← rdFs port (block + toff) 64
  let t : Mix := ⟨block + toff, hdr⟩
  let c : Pt := (xyz.1.mul (ofSingle (fieldAt hdr 8 4)), xyz.2.1.mul (ofSingle (fieldAt hdr 12 4)), xyz.2.2.mul (ofSingle (fieldAt hdr 16 4)))
  let r ← inside port t block c
  match r with
  | some (ls, vb) => return (cellWeights n ls vb, false, false)
  | none =>
    let w : Pt := (code65536 (fieldAt hdr 20 2), code65536 (fieldAt hdr 22 2), code65536 (fieldAt hdr 24 2))
    let wp := Pt.scale (c.2.1.div w.2.1) w
    let rw ← inside port t block wp
    let toward := fun (k : Fl) => Pt.zip Fl.add wp (Pt.scale k (Pt.zip Fl.sub c wp))
    let dimmed := fun (k : Fl) => Pt.scale k wp
    let f := if rw.isSome then toward else dimmed
    let k ← bisect port t block f 8 (.fin 0)
    let q := f k
    let r ← inside port t block q
    match r with
    | some (ls, vb) => return (cellWeights n ls vb, true, false)
    | none => return (List.replicate n (.fin 0), true, true)

/-- The matrix of R141. -/
def xyzMatrix : List Rat :=
  [636958 / 1000000, 144617 / 1000000, 168881 / 1000000, 262700 / 1000000, 677998 / 1000000, 59302 / 1000000,
   0, 28073 / 1000000, 1060985 / 1000000]

/-- A negative component set to +0. -/
def nonNeg (a : Fl) : Fl := if Fl.lt a (.fin 0) then .fin 0 else a

/-- Stage 2 (R141). -/
def toXyz (rec : List Byte) (c : Pt) : Pt :=
  let m := fun i => f32 (xyzMatrix.getD i 0)
  let p : Pt := (dot3 m 0 c, dot3 m 1 c, dot3 m 2 c)
  let t := fun i => ofHalf (fieldAt rec (12 + 2 * i) 2)
  let p : Pt := if (rec.getD 1 0).getLsbD 1 then (dot3 t 0 p, dot3 t 1 p, dot3 t 2 p) else p
  (nonNeg p.1, nonNeg p.2.1, nonNeg p.2.2)

/-- Stage 3 (R147): the weights of both tables blended by β; a pixel counts once, whichever of the tables it stays outside (R146). -/
def stageMix (port block : Nat) (h st : List Byte) (xyz : Pt) : RdM (List Fl) := do
  let n := fieldAt h 5 1
  let cool := fieldAt h 16 4
  let hot := fieldAt h 20 4
  let (wc, pc, ec) ← mixOne port n block cool xyz
  let (wh, ph, eh) ← if hot = cool then pure (wc, pc, ec) else mixOne port n block hot xyz
  let b := auxOf (fieldAt st 6 2)
  let nb := (Fl.fin 1).sub b
  let w := if hot = cool then wc else (wc.zip wh).map fun (a, c) => (nb.mul a).add (b.mul c)
  if ec || eh then modify tableErr
  if pc || ph then modify fun s => (s.bump pgCOL F.COL_st_OOG).evt pgCOL 0
  return w

/-- Stages 4 to 6 for one emitter (R155, R156): gain, derating, calibration and the clamp. -/
def stageDrive (test : Bool) (st rec : List Byte) (e : Nat) (w : Fl) : RdM Fl := do
  let g : Fl := f32 ((fieldAt st (8 + 2 * e) 2 : Rat) / 4096)
  let w := if test then w else w.mul g
  let w := w.mul (auxOf (fieldAt st 4 2))
  let w := if test then w else w.mul (auxOf (fieldAt rec (32 + 2 * e) 2))
  if Fl.lt (.fin 1) w ∧ !test then modify fun s => (s.bump pgCOL F.COL_st_SAT).evt pgCOL 2
  return Fl.clamp 0 1 w

/-- Stage 7 (R157). -/
def stageTransfer (port block : Nat) (h : List Byte) (e : Nat) (d : Fl) : RdM Fl := do
  let t := fieldAt h (32 + e) 1
  if t = 0xFF then return d.mul (.fin 65535)
  else
    let x := d.mul (.fin 4095)
    let i := (flFloor x).toNat
    let fr := x.sub (.fin i)
    let a ← rdFs port (block + fieldAt h 24 4 + 8192 * t + 2 * i) 2
    if 4095 ≤ i then return .fin (leVal a)
    else
      let b ← rdFs port (block + fieldAt h 24 4 + 8192 * t + 2 * (i + 1)) 2
      return (Fl.fin (leVal a)).add (fr.mul (Fl.fin ((leVal b : Int) - leVal a)))

/-- The `d` low bits reversed. -/
def bitRev (d v : Nat) : Nat := (List.range d).foldl (fun a i => a * 2 + v / 2 ^ i % 2) 0

/-- Stage 8 (R158), exact from y. -/
def quantise (fn e w width d : Nat) (y : Fl) : Nat :=
  let tau : Rat := ((bitRev d ((fn + 3 * w + 5 * e) % 2 ^ d) : Rat) + 1 / 2) / (2 ^ d : Nat)
  let scaled := y.val * (2 ^ width - 1 : Nat) / 65535
  min (2 ^ width - 1) (scaled + tau).floor.toNat

/-! ### Fixture lookup and the lane pass (R119, R137, R159) -/

/-- The record of instance `i` where it is configured under the registers of `s` (R137). -/
def readInstance (s : State) (port i : Nat) : RdM (Option (List Byte)) := do
  if s.get pgCOL F.COL_NINST ≤ i then return none
  let r ← rdFs port (s.get pgCOL F.COL_INSTBASE_OFFSET + 64 * i) 64
  return if (r.getD 1 0).getLsbD 0 && dirWord s (fieldAt r 0 1) % 2 = 1 then some r else none

/-- The profile cache after a lane read a block (R160): the least recently used blocks make room, and a load counts in MISSES. -/
def touchProfile (p size : Nat) (s : State) : State :=
  let key := p * 2 ^ 32 + dirWord s p
  let c := s.col.cache
  if c.any (·.1 = key) then { s with col := { s.col with cache := (key, size) :: c.filter (·.1 ≠ key) } }
  else
    let s := s.bump pgCOL F.COL_st_MISSES
    { s with col := { s.col with cache := (key, size) :: fit (262144 - size) c } }
where
  /-- The most recently used blocks that fit into the room left. -/
  fit : Nat → List (Nat × Nat) → List (Nat × Nat)
    | _, [] => []
    | room, (k, n) :: t => if n ≤ room then (k, n) :: fit (room - n) t else []

/-- Words written for an entry at its place in the port's strand buffer set (R20, R159): none is a blocked write (R124). -/
def writeWords (port p e : Nat) (codes : List Nat) (s : State) : State :=
  let set := if s.time.seq.getLsbD 0 then F.STD_SBUF1_OFFSET else F.STD_SBUF0_OFFSET
  let off := s.get (pgSTD p) set + (e - s.get pgMAP F.MAP_SEG_FIRST p) * s.get pgCOL F.COL_PORT_PORTW p * 2
  let (s, ok) := wr ⟨0, port, 0x42, none⟩ (fsBase + off) (codes.flatMap (leBytes 2)) s
  if ok then s else updStrand s p fun k => { k with spoiled := true }

/-- The least of an emitter's gain points. -/
def gainLeast (h : List Byte) (e : Nat) : Nat :=
  let g := fun i => fieldAt h (56 + 6 * e + 2 * i) 2
  min (g 0) (min (g 1) (g 2))

/-- A state record's bytes (R150). -/
def stateRec (temp flags derate beta : Nat) (gain : List Nat) (st : Word) (rec : List Byte) : List Byte :=
  leBytes 2 temp ++ leBytes 1 flags ++ [0] ++ leBytes 2 derate ++ leBytes 2 beta ++ gain.flatMap (leBytes 2) ++ leBytes 4 st.toNat ++
  slice rec 0 1 ++ slice rec 2 1 ++ slice rec 4 2

/-- The record of first use (R151) of an instance under its profile's header. -/
def firstRec (rec h : List Byte) : List Byte := stateRec 0 8 (fieldAt h 52 2) 65535 ((List.range 8).map (gainLeast h)) 0 rec

/-- An instance's state record in force, where it is not to restart from first use since it became configured (R149, R151). -/
def stateOf (s : State) (i : Nat) : Option (List Byte) :=
  match amGet s.mm.conf i, amGet s.col.formed i with
  | some c, some f => if c ≤ f then amGet s.col.applied i else none
  | _, _ => none

/-- The codes of an entry of a configured instance (stages 2 to 9): `st` is its state record, or none before its first sweep. A block whose headers fail the
lane's check is not put into the profile cache (DESIGN CHOICE, notes/assumptions/103.md). -/
def entryCodes (port p e slot : Nat) (rec : List Byte) (st : Option (List Byte)) (rgb : Nat × Nat × Nat) : RdM (List Nat) := do
  let s ← get
  let pw := s.get pgCOL F.COL_PORT_PORTW p
  let dark := List.replicate pw 0
  let prof := fieldAt rec 0 1
  let block := blockOf s prof
  let h ← readProfile port block
  match h with
  | none =>
    modify tableErr
    return dark
  | some h =>
    modify (touchProfile prof (fieldAt h 8 4))
    let st := st.getD (firstRec rec h)
    let cut := (st.getD 2 0).getLsbD 2
    let n := fieldAt h 5 1
    let test : Bool := effMode s pgCOL = 3
    let c : Pt := (ofHalf rgb.1, ofHalf rgb.2.1, ofHalf rgb.2.2)
    let testW := (List.range n).map fun k => if k = s.get pgCOL F.COL_TEST_TESTEMIT then Fl.clamp 0 1 c.1 else Fl.fin 0
    let ws ← if cut then pure [] else if test then pure testW else stageMix port block h st (toXyz rec c)
    let ys ← ws.zipIdx.mapM fun (w, k) => do
      let d ← stageDrive test st rec k w
      stageTransfer port block h k d
    let width := s.get pgCOL F.COL_PORT_WIDTH p
    let dith := s.get pgCOL F.COL_PORT_DITHER p
    (List.range pw).mapM fun w => do
      if fieldAt h 6 2 ≤ slot + w then
        modify tableErr
        return 0
      else if cut then return 0
      else
        let l ← rdFs port (block + fieldAt h 12 4 + slot + w) 1
        let b := leVal l
        return if 128 ≤ b ∨ n ≤ b % 8 then 0 else quantise s.time.fn e w width dith (ys.getD (b % 8) (.fin 0))

/-- A strand port whose mode takes prepared frames prepares in the configuration in force (R22, R182). -/
def takesFrames (s : State) (p : Nat) : Bool :=
  let kind := s.get (pgSTD p) F.STD_CFG_KIND
  kind ≠ 0 && kind ≠ 7 && (leaderOf s p).isNone && s.get (pgSTD p) F.HDR_REQ_MODE = 2

/-- t_L of the frame in preparation on a port, under the configuration that the frame is sent with (R26, R177). -/
def laneStart (s : State) (p : Nat) : Rat :=
  shiftStart s { strand s p with cfg := takeCfg s p } (s.get (pgSTD p) F.STD_CFG_LGRP) s.time.fn s.time.seq

/-- A strand has entries that have still to pass the lanes. -/
def laneWaits (s : State) (p : Nat) : Bool := takesFrames s p && (strand s p).pos < s.get pgMAP F.MAP_SEG_COUNT p

/-- The strand that the lanes serve (R21): of those with entries left the one whose shift starts first, the lower port of two alike. -/
def laneHead (s : State) : Option Nat :=
  ((List.range 64).filter (laneWaits s)).foldl (fun b p =>
    match b with
    | none => some p
    | some q => if laneStart s p < laneStart s q then some p else some q) none

/-- The requester port of the lane that takes an entry (R427): with four lanes, which one is free when it comes is open (R134). -/
def lanePort (s : State) : State × Nat :=
  if domainOn s 7 then
    let (s, r) := s.free
    (s, 2 + r.toNat % 2)
  else (s, 2)

/-- One map entry of port `p`, the next of its segment, through a lane (R119, R134); the strands pass in the order of R21. -/
def lanePass (p : Nat) (s : State) : State :=
  let k := (strand s p).pos
  if !preparesOn s ∨ !s.outs.preparing ∨ laneHead s ≠ some p then s
  else
    let e := s.get pgMAP F.MAP_SEG_FIRST p + k
    let s := updStrand s p fun t => { t with pos := t.pos + 1 }
    let s := (s.bump pgMAP F.MAP_st_ENTRIES).bump pgCOL F.COL_st_PIXELS
    let (s, b) := rd ⟨0, 6, 0, none⟩ (fsBase + s.get pgMAP F.MAP_MAPBASE_OFFSET + 8 * e) 8 s
    match b with
    | none => tableErr (s.fault pgMAP 0x40 0x044 0)
    | some b =>
      let v := leVal b
      let x := v % 2 ^ 20
      let y := v / 2 ^ 20 % 2 ^ 20
      let fix := v / 2 ^ 40 % 2 ^ 14
      let slot := v / 2 ^ 54
      if slot = 0x3FF then s.bump pgMAP F.MAP_st_BLANKS
      else
        -- R165: the place a fault names is that of what was read
        let eccErr := fun (o : Nat) (s : State) => tableErr (s.fault pgCOL 0x40 o 0)
        let (s, port) := lanePort s
        let (r, s) := (readInstance s port fix).run s
        match r with
        | none => eccErr 0x040 s
        | some none => (s.bump pgMAP F.MAP_st_BADFIX).evt pgMAP 1
        | some (some rec) =>
          let get := fun f => s.get pgMAP f p
          let cx := min (max x (get F.MAP_SEG_X0 * 16)) (get F.MAP_SEG_X1 * 16 + 15)
          let cy := min (max y (get F.MAP_SEG_Y0 * 16)) (get F.MAP_SEG_Y1 * 16 + 15)
          let s := if cx ≠ x ∨ cy ≠ y then (s.bump pgMAP F.MAP_st_OUTSIDE).evt pgMAP 0 else s
          let (s, rgb) := composite cx cy s
          let (s, b) := rd ⟨0, port, 0, none⟩ (fsBase + s.get pgCOL F.COL_STATEBASE_OFFSET + 32 * fix) 32 s
          if b.isNone then eccErr 0x048 s
          else
            let (r, s) := (entryCodes port p e slot rec (stateOf s fix) rgb).run s
            match r with
            | none => eccErr (0xC00 + 4 * fieldAt rec 0 1) s
            | some codes => writeWords port p e codes s

/-! ### The state sweep (R148 to R155) -/

/-- A temperature reading of an instance (R148): T in binary32, its ST and FT; none where no reading is valid. The FIXED source reads now. -/
def reading (s : State) (rec : List Byte) (confAt : Nat) : Option (Fl × Word × Nat) :=
  let idx := fieldAt rec 4 2
  let lin := fun (c : Nat) => ((Fl.fin c).mul (ofHalf (fieldAt rec 6 2))).add (ofHalf (fieldAt rec 8 2))
  let stOf := fun (t : Nat) => (BitVec.ofNat 32 (t / 65536) : Word)
  match fieldAt rec 2 1 with
  | 1 => some (ofHalf (fieldAt rec 8 2), s.st, s.time.ft)
  | 2 =>
    let ch := idx % 16
    match s.cal.convAt.getD ch none with
    | some (t, x) => if confAt ≤ t then some (lin (s.get pgADC F.ADC_RESULT_CODE ch), s.reg pgADC (0x084 + 8 * ch), x) else none
    | none => none
  | 3 =>
    let k := strand s (idx / 1024 % 64)
    (match k.backFt, k.back[idx % 1024]? with
     | some t, some w => some (lin (w % 4096), stOf t, t)
     | _, _ => none)
  | 4 => s.cal.dieAt.map fun t => (ofHalf (s.get pgADC F.ADC_DIETEMP_TEMP), stOf t, t)
  | _ => none

/-- A code moved towards its target by at most a step. -/
def slew (step old target : Nat) : Nat := if old ≤ target then min target (old + step) else max target (old - step)

/-- The target gain of R154 from its three points, as a 4.12 code. Between two points it is v0 + ((T − t0)/30)·(v1 − v0), each operation rounded to
binary32 (DESIGN CHOICE, notes/assumptions/102.md). -/
def gainTarget (h : List Byte) (e : Nat) (t : Fl) : Nat :=
  let g := fun i => fieldAt h (56 + 6 * e + 2 * i) 2
  let v := fun i => f32 ((g i : Rat) / 4096)
  let part := fun (lo : Rat) i => (v i).add (((t.sub (.fin lo)).div (.fin 30)).mul ((v (i + 1)).sub (v i)))
  let code := fun (a : Fl) => (roundEven (a.val * 4096)).toNat
  if !Fl.lt (.fin 25) t then g 0
  else if !Fl.lt (.fin 55) t then code (part 25 0)
  else if Fl.lt t (.fin 85) then code (part 55 1)
  else g 2

/-- A fraction as a code out of 65,535. -/
def code65535 (a : Fl) : Nat := min 65535 (roundEven (a.val * 65535)).toNat

/-- The target of the blend factor (R154). -/
def betaTarget (h : List Byte) (t : Fl) : Nat :=
  let c := ofHalf (fieldAt h 40 2)
  code65535 (Fl.clamp 0 1 ((t.sub c).div ((ofHalf (fieldAt h 42 2)).sub c)))

/-- The target of the derating factor (R155). -/
def derateTarget (h : List Byte) (t : Fl) : Nat :=
  let knee := ofHalf (fieldAt h 44 2)
  let tmax := ofHalf (fieldAt h 46 2)
  if !Fl.lt knee t then 65535
  else if !Fl.lt t tmax then fieldAt h 52 2
  else
    let one : Fl := .fin 1
    code65535 (one.sub (((t.sub knee).div (tmax.sub knee)).mul (one.sub (auxOf (fieldAt h 52 2)))))

/-- The state record that the sweep forms for a configured instance from the one in force, and what it raises (R151 to R155): the
record, whether CUT changed from `hadCut`, and whether the reading is stale. -/
def sweepRec (s : State) (rec h : List Byte) (old : Option (List Byte)) (hadCut : Bool) (confAt : Nat) : List Byte × Bool × Bool :=
  let floor := fieldAt h 52 2
  let fresh := match old with
    | some o => slice o 28 1 ≠ slice rec 0 1 || slice o 29 1 ≠ slice rec 2 1 || slice o 30 2 ≠ slice rec 4 2
    | none => true
  let base := if fresh then firstRec rec h else old.getD []
  let flags := fieldAt base 2 1
  let wasFirst := flags / 8 % 2 = 1
  let wasCut := flags / 4 % 2 = 1
  let g := fun e => fieldAt base (8 + 2 * e) 2
  let limit := fieldAt rec 10 2
  let r := (reading s rec confAt).filter fun (_, _, t) => limit = 0 || s.time.ft ≤ t + limit * 65536000000
  match r with
  | some (t, st, _) =>
    let temp := toHalf t
    let t := ofHalf temp
    let tcut := ofHalf (fieldAt h 48 2)
    let cut := if wasCut then Fl.lt (tcut.sub (ofHalf (fieldAt h 50 2))) t else !Fl.lt t tcut
    let der := if cut then floor else slew 655 (fieldAt base 4 2) (derateTarget h t)
    (stateRec temp (1 + (if cut then 4 else 0)) der (betaTarget h t) ((List.range 8).map fun e => slew 40 (g e) (gainTarget h e t)) st rec,
      cut ≠ hadCut, false)
  | none =>
    if wasFirst then (base, hadCut, false)
    else
      (stateRec (fieldAt base 0 2) (2 + (if wasCut then 4 else 0)) (if wasCut then floor else slew 655 (fieldAt base 4 2) floor) 65535
        ((List.range 8).map fun e => slew 40 (g e) (gainLeast h e)) (BitVec.ofNat 32 (fieldAt base 24 4)) rec, wasCut ≠ hadCut, true)

/-- One instance visited by the sweep (R149): `m` is the configuration that will be in force at the next FS. -/
def sweepOne (m : State) (i : Nat) (s : State) : State :=
  let bad := fun (o : Nat) (s : State) => tableErr (s.fault pgCOL 0x40 o 0)
  let (r, s) := (readInstance m 7 i).run s
  match r with
  | none => bad 0x040 s
  | some none => s
  | some (some rec) =>
    let off := m.get pgCOL F.COL_STATEBASE_OFFSET + 32 * i
    let (h, s) := (rdFs 7 (blockOf m (fieldAt rec 0 1)) 256).run s
    match h with
    | none => bad (0xC00 + 4 * fieldAt rec 0 1) s
    | some h =>
      let (b, s) := (rdFs 7 off 32).run s
      if b.isNone then bad 0x048 s
      else
        let s := if 5 ≤ fieldAt rec 2 1 then tableErr s else s
        let hadCut := (((amGet s.col.applied i).getD []).getD 2 0).getLsbD 2
        let (out, cut, stale) := sweepRec s rec h (stateOf s i) hadCut ((amGet s.mm.conf i).getD s.time.ft)
        let s := wr' ⟨0, 7, 0x43, none⟩ (fsBase + off) out s
        let s := { s with col := { s.col with swept := some (amSet (s.col.swept.getD []) i out) } }
        (s.evtIf cut pgCOL 3).evtIf stale pgCOL 4

/-- The state sweep (R149). -/
def stateSweep (s : State) : State :=
  if !domainOn s 6 then s
  else
    let m := if s.cmt.mode = .locked then merged s else s
    (List.range (m.get pgCOL F.COL_NINST)).foldl (fun s i => sweepOne m i s) { s with col := { s.col with swept := some [], sweptAt := s.time.ft } }

/-- The sweep's results applied at an FS (R149, R153), with the statistics of the state in force (R165). HOTTEST and HOTINST look at the instances with
VALID 1 alone (DESIGN CHOICE, notes/assumptions/104.md). -/
def colourTake (s : State) : State :=
  let s := match s.col.swept with
    | some l => { s with col := { s.col with applied := l.foldl (fun m (i, b) => amSet m i b) s.col.applied, formed := l.foldl formAt s.col.formed,
                                             swept := none } }
    | none => s
  let s := { s with col := { s.col with cache := s.col.cache.filter fun (k, _) => dirWord s (k / 2 ^ 32) = k % 2 ^ 32 } }
  let l := s.col.applied.filter fun (i, _) => (amGet s.mm.conf i).isSome
  let has := fun b => (l.filter fun (_, r) => (r.getD 2 0).getLsbD b).length
  let s := ((s.setStat pgCOL F.COL_st_CUTINST (has 2)).setStat pgCOL F.COL_st_STALEINST (has 1)).setStat pgCOL F.COL_st_FIRSTINST (has 3)
  let hot := (l.filter fun (_, r) => (r.getD 2 0).getLsbD 0).foldl (fun (b : Option (Nat × Nat)) (i, r) =>
    match b with
    | none => some (i, fieldAt r 0 2)
    | some (j, t) => if Fl.lt (ofHalf t) (ofHalf (fieldAt r 0 2)) then some (i, fieldAt r 0 2) else some (j, t)) none
  let (hi, ht) := hot.getD (0, 0)
  (s.setStat pgCOL F.COL_st_HOTTEST ht).setStat pgCOL F.COL_st_HOTINST hi
where
  /-- A record in force from now, or, of an instance that became configured after the sweep formed it, only from that sweep. -/
  formAt (m : List (Nat × Nat)) (x : Nat × List Byte) : List (Nat × Nat) :=
    let c := (amGet s.mm.conf x.1).getD 0
    amSet m x.1 (if s.col.sweptAt < c ∧ c < s.time.ft then s.col.sweptAt else s.time.ft)

/-- The strand ports on which a cut instance with CUTHOLD holds (R153). -/
def cutHolds (s : State) : List Nat :=
  s.col.applied.filterMap fun (i, r) =>
    let b := memBytes s.mem (fsBase + s.get pgCOL F.COL_INSTBASE_OFFSET + 64 * i) 4
    if (amGet s.mm.conf i).isSome ∧ (r.getD 2 0).getLsbD 2 ∧ (b.getD 1 0).getLsbD 2 ∧ !(b.getD 3 0).getLsbD 7 then some ((b.getD 3 0).toNat % 64) else none

/-! ### Figures in force (R160, R161, R164) -/

/-- Lanes in use (R27). -/
def lanesOn (s : State) : Nat := if !domainOn s 6 then 0 else if domainOn s 7 then 4 else 2

/-- E: entries per frame (R161). -/
def entriesE (s : State) : Nat := ((List.range 64).map fun g => s.get pgMAP F.MAP_SEG_COUNT g % 2 ^ 21).sum

/-- The sum of SIZE over valid profiles (R160). -/
def cacheBytes (s : State) : Nat :=
  ((List.range 256).map fun p => if dirWord s p % 2 = 1 then fieldAt (memBytes s.mem (fsBase + blockOf s p + 8) 4) 0 4 else 0).sum

/-- The entry cap with `l` lanes (R161). -/
def laneCap (s : State) (l : Nat) : Nat :=
  let full := if s.flag pgCMT F.CMT_CHECK_NOMBUDGET then 200000000 else 110000000
  rateCap s (l * (if 262144 < cacheBytes s then full / 2 else full))

/-! ### Requests at the arbiters (R21, R427) -/

/-- The deadline of a request that feeds preparation (R427): t_L of the strand that the lanes serve, for the compositor and the map FETCHLEAD before
it, for the state sweep the next FS; none for the other ports, whose requests bring their own, a word's first edge or the end of a shift
window, or take the default. -/
def ownDeadline (s : State) (p : Nat) : Option Word :=
  let tl := (laneHead s).map fun h => onGrid (laneStart s h) / 16
  if p = 2 ∨ p = 3 then tl.map (BitVec.ofNat 32)
  else if p = 4 ∨ p = 5 ∨ p = 6 then tl.map fun t => BitVec.ofNat 32 (t - 1000 * s.get pgMAP F.MAP_FETCHLEAD_LEAD)
  else if p = 7 then some (BitVec.ofNat 32 (fsOf s (s.time.fn + 1) / 65536))
  else none

/-! ### Meanings -/

/-- COLOUR_LANE_PASS (R134): the next map entry of this strand passes a lane. -/
def execColourLanePass (strand : Fin 64) (s : State) := act (lanePass strand) s
/-- STATE_SWEEP (R149). -/
def execStateSweep (s : State) := act stateSweep s

end Sys2Proof.Machine
end

