-- ==== Sys2Proof/Machine/Strand.lean ====
section
/-!
DEFINITION. Edge placers, strand ports and overrides (R166 to R227), and the square check they feed (R125 to R127).
-/
namespace Sys2Proof.Machine
open Sys2Proof

/-! ### Pins and placers (R166 to R172) -/

/-- Pin `i`. -/
def pinOf (s : State) (i : Nat) : Pin := s.outs.pins.getD i {}
/-- A pin changed. -/
def updPin (s : State) (i : Nat) (f : Pin → Pin) : State := { s with outs := { s.outs with pins := updAt s.outs.pins i f } }
/-- The bank of a pin (R170). -/
def bankOf (i : Nat) : Nat := if i < 128 then i / 32 else (i - 128) / 4
/-- The port that counts for a pin: its owner, or that port's gang leader; none for a LATCH pin. -/
def pinPort (s : State) (i : Nat) : Option Nat := if 128 ≤ i then none else some ((gangLead s (i / 2)).getD (i / 2))

/-- The factory table of a pin: its widths read 0 (R237, R249). -/
def fuseTable (i : Nat) : TapTab := ⟨(List.range 16).map fun k => (Config.fuseTap i k).toNat, List.replicate 32 0⟩

/-- The table in force of a pin. -/
def tapTable (s : State) (i : Nat) : TapTab := (amGet s.cal.tabs i).getD (fuseTable i)

/-- A pin driven to a level at an instant in 1/16 ns, with the output it makes: the physical tap is the one that its remapping table names (R228).
A change of a driven level is an edge (R221). -/
def drivePin (i : Nat) (level : Bool) (t : Nat) (s : State) : State :=
  if (pinOf s i).level = some level then s
  else
    let s := if (pinOf s i).level.isSome then s.bump pgEDGE F.EDGE_st_EDGES else s
    (updPin s i fun p => { p with level := some level, last := some t }).emit
      (.pin i level (BitVec.ofNat 32 (t / 16)) (t % 16) ((tapTable s i).remap.getD (t % 16) 0))

/-- A pin made high-impedance, its placer emptied (R184). -/
def floatPin (i : Nat) (s : State) : State :=
  let s := if (pinOf s i).level.isSome then s.emit (.pinFloat i) else s
  updPin s i fun p => { p with level := none, queue := [], feed := [] }

/-- A pin's queue and its sequencer's edges discarded. -/
def clearPin (i : Nat) (s : State) : State := updPin s i fun p => { p with queue := [], feed := [] }

/-- Edges given to a placer: its queue holds 64 entries, and the sequencer supplies the rest in turn (R166, R168). -/
def supply (i : Nat) (l : List Entry) (s : State) : State :=
  updPin s i fun p => let all := p.queue ++ p.feed ++ l
                      { p with queue := all.take 64, feed := all.drop 64 }

/-- Entries with each edge at least 5 ns after the one before: a sequencer writes none that R167 would move (R168; DEDUCED, notes/assumptions/84.md). -/
def spaced : Option Nat → Option Bool → List Entry → List Entry
  | _, _, [] => []
  | last, lev, e :: r =>
    if lev = some e.level then e :: spaced last lev r
    else
      let t := match last with | some l => max e.t (l + 80) | none => e.t
      { e with t := t } :: spaced (some t) (some e.level) r

/-- Edges given to a placer by its sequencer (R168). -/
def sequence (i : Nat) (l : List Entry) (s : State) : State :=
  let p := pinOf s i
  let (last, lev) := (p.queue ++ p.feed).foldl (fun (x : Option Nat × Option Bool) e => if x.2 = some e.level then x else (some e.t, some e.level))
    (p.last, p.level)
  supply i (spaced last lev l) s

/-- An entry moved, counted on the port that owns the pin (R224), and, where R167 moved it, on EDGE (R221). -/
def edgeLate (i : Nat) (byPlacer : Bool) (s : State) : State :=
  let s := if byPlacer then (s.bump pgEDGE F.EDGE_st_EDGELATE).evt pgEDGE 1 else s
  match pinPort s i with
  | some p => (s.bump (pgSTD p) F.STD_st_EDGELATE).evt (pgSTD p) 3
  | none => s

/-- An entry treated as R167 and R169 give: an edge at its instant, a moved edge, or none. Nothing moves while the pin is
high-impedance or EDGE does not run. -/
def placeEntry (i : Nat) (e : Entry) (s : State) : State :=
  let p := pinOf s i
  if p.level.isNone ∨ p.level = some e.level ∨ !inRun s pgEDGE then s
  else
    let (s, t) := match e.late with
      | some a => let (s, v) := s.free
                  (s, a + v.toNat % 161)
      | none => (s, e.t)
    let held := match p.window with | some (a, b) => a ≤ t && t < b | none => false
    let t1 := match p.window with | some (_, b) => if held then b else t | none => t
    let t2 := match p.last with | some l => max t1 (l + 80) | none => t1
    let s := if held then s.bump pgEDGE F.EDGE_st_CALDELAY else s
    let s := if e.late.isSome ∨ t2 ≠ t then edgeLate i (e.late.isSome || t2 ≠ t1) s else s
    drivePin i e.level t2 s

/-- A bank's pins are in a calibration window (R169). -/
def bankHeld (s : State) (b : Nat) : Bool :=
  s.cal.window && (match s.cal.run with | some r => r.bank = b | none => false)

/-- The entry at the head of a placer's queue (R167); none is placed while the pin's bank calibrates (R169). -/
def placeHead (i : Nat) (s : State) : State :=
  let p := pinOf s i
  match p.queue with
  | [] => s
  | e :: rest =>
    if bankHeld s (bankOf i) then s
    else
      let s := updPin s i fun p => { p with queue := rest ++ p.feed.take 1, feed := p.feed.drop 1 }
      placeEntry i e s

/-- An edge that a sequencer places at its instant now: in a calibration window it waits in the queue (R169). -/
def placeNow (i : Nat) (e : Entry) (s : State) : State :=
  if bankHeld s (bankOf i) then sequence i [e] s
  else
    let p := pinOf s i
    placeEntry i ((spaced p.last p.level [e]).headD e) s

/-- PIN_CHECK_SAMPLE (R172): the level read 4 ns after an edge. -/
def pinCheck (i : Nat) (seen : Bool) (s : State) : State :=
  let on := s.get pgEDGE F.EDGE_BANKCFG_PINCHK / 2 ^ bankOf i % 2 = 1
  if !on ∨ (pinOf s i).level.isNone ∨ (pinOf s i).level = some seen then s
  else
    let s := (s.bump pgEDGE F.EDGE_st_PINERR).evt pgEDGE 0
    match pinPort s i with
    | some p => (s.bump (pgSTD p) F.STD_st_PINERR).evt (pgSTD p) 4
    | none => s

/-- `EDGE.PINLVL` (R221): the level at a ball, low where nothing drives it against its pull-down. -/
def ballLevel (s : State) (i : Nat) : Bool := (pinOf s i).level.getD false

/-! ### Which pins are driven (R184) -/

/-- The pins of EDGE are released in every state: outputs not enabled, EDGE OFF, or the domain off. -/
def released (s : State) (dom : Nat) : Bool :=
  !s.boot.outEn || s.boot.svcWait || effMode s pgEDGE = 0 || !domainOn s dom

/-- A port drives its pins (R184). -/
def portDriven (s : State) (p : Nat) : Bool :=
  let l := (gangLead s p).getD p
  let k := strand s l
  !released s (outDomain p) && k.kind ≠ 0 && (effMode s (pgSTD l) ≠ 0 || k.dark = .showing || k.dark = .ending || k.dark = .due || k.darkDue)

/-- A port awaits a response, so that its pin B is low and its pin A is an input (R198). -/
def awaits (s : State) (p : Nat) : Bool :=
  (strand s p).rdm = .listening || ((strand s p).rdm = .sending && !s.flag (pgSTD p) F.STD_RDMCTL_BCAST)

/-- The level that a gang pin's state before inversion gives the pin (R184, R222). -/
def pinLevel (k : Strand) (j : Nat) (b : Bool) : Bool :=
  b != (k.fld (if j % 2 = 0 then F.STD_CFG_INVA else F.STD_CFG_INVB) = 1)

/-- The level a gang pin rests at before inversion: DMX holds its line at mark and transmits, a direct matrix keeps its bypasses closed (R191); every
other mode rests low. -/
def restLevel (k : Strand) (_j : Nat) : Bool :=
  k.kind = 5 || (k.kind = 3 && k.fld F.STD_MATRIX_P0_SERIAL = 0 && k.fld F.STD_MATRIX_P0_BYPOL = 0)

/-- A port's two pins brought to what R184 gives: released, or, with EDGE in RUN, driven from rest; in STANDBY a GPIO port's queued entries are discarded,
whatever EDGE does, and a clocked or single-wire port drives
low, but for hold UPSTREAM, under which what is prepared is still sent (R19, R515). A DMX port's pin A is an input while it awaits a response, and its
pin B follows (R198). -/
def settlePort (p : Nat) (s : State) : State :=
  let l := (gangLead s p).getD p
  let k := strand s l
  [0, 1].foldl (fun s j =>
    let i := 2 * p + j
    let g := 2 * (p - l) + j
    if !portDriven s p then floatPin i s
    else if k.kind = 7 ∧ effMode s (pgSTD l) = 1 ∧ !k.ovrHold ∧ !k.cal ∧ (pinOf s i).level.isSome then clearPin i s
    else if !inRun s pgEDGE then s
    else if (pinOf s i).level.isNone then
      (if k.kind = 5 ∧ j = 0 ∧ k.rdm = .listening then s else drivePin i (pinLevel k g (restLevel k g)) (now16 s) s)
    else if k.kind = 5 ∧ j = 1 ∧ (pinOf s i).queue.isEmpty ∧ !bankHeld s (bankOf i) then drivePin i (pinLevel k 1 (k.rdm ≠ .listening)) (now16 s) s
    else if (k.kind = 1 ∨ k.kind = 2) ∧ effMode s (pgSTD l) = 1 ∧ !k.ovrHold ∧ !k.cal ∧ s.get (pgSTD l) F.HDR_EFF_HOLD ≠ 7 then
      drivePin i (pinLevel k g false) (now16 s) (clearPin i s)
    else s) s

/-- The domain of LATCHg (R170). -/
def latchDomain (g : Nat) : Nat := if g < 8 then 12 else 13

/-- The LATCFG that governs a group's pulse at the latch of the frame of counter `q` (R179): for a frame before the present one the one that was in
force in it. -/
def latchCfg (s : State) (g : Nat) (q : Word) : Word :=
  let now := s.reg pgEDGE (0x080 + 4 * g)
  if framePast s q then s.time.latPrev.getD g now else now

/-- The EN of a LATCFG. -/
def latchEn (v : Word) : Bool := bitsOf v 0 1 = 1
/-- The inactive level that a LATCFG gives. -/
def latchIdle (v : Word) : Bool := bitsOf v 1 1 = 1
/-- The pulse width of a LATCFG in 1/16 ns. -/
def latchPulseLen (v : Word) : Nat := bitsOf v 8 12 * 16

/-- LATCHg brought to what R179 gives: high-impedance, or, with EDGE in RUN, outside a pulse the inactive level of its next one, which for a group that
fires none at the latch still to come is that of the configuration in force. -/
def settleLatch (g : Nat) (s : State) : State :=
  let i := 128 + g
  let lt := s.outs.latch.getD g {}
  let v := latchCfg s g lt.seq
  let v := if latchEn v then v else s.reg pgEDGE (0x080 + 4 * g)
  if released s (latchDomain g) ∨ (!latchEn v ∧ !lt.high) then floatPin i s
  else if !inRun s pgEDGE ∨ lt.high ∨ !(pinOf s i).queue.isEmpty ∨ bankHeld s (bankOf i) then s
  else drivePin i (latchIdle v) (now16 s) s

/-- Every pin brought to what its state gives. -/
def settleAll (s : State) : State :=
  let s := (List.range 64).foldl (fun s p => settlePort p s) s
  (List.range 16).foldl (fun s g => settleLatch g s) s

/-- RDMCTL.STATUS set on the way out of BUSY (R202). -/
def rdmDone (p status rlen : Nat) (s : State) : State :=
  let s := (s.set (pgSTD p) F.STD_RDMCTL_STATUS status).set (pgSTD p) F.STD_RDMCTL_RLEN rlen
  let s := if 3 ≤ status ∧ status ≤ 5 then s.bump (pgSTD p) F.STD_st_RDMFAIL else s
  s.evt (pgSTD p) 5

/-- A transaction on the line of a port that stops being driven, or one queued on a port that leaves DMX, has no response (R202; DESIGN CHOICE,
notes/assumptions/83.md). -/
def rdmDrop (p : Nat) (leaves : Bool) (s : State) : State :=
  let r := (strand s p).rdm
  if r ∈ [.sending, .listening] ∨ (leaves ∧ r ∈ [.queued, .markQueued]) then updStrand (rdmDone p 3 0 s) p fun k => { k with rdm := .idle }
  else if r = .mark then updStrand s p fun k => { k with rdm := .idle }
  else s

/-- A port's pins released and its configuration and mode taken up (R26, R185), with what that means for the pins and the `EFF` of the members
that its gang had and has (R174). -/
def takeUp (p : Nat) (s : State) : State :=
  let old := (strand s p).kind
  let gang := gangSize s p
  let s := updStrand s p fun k => { k with mode := s.get (pgSTD p) F.HDR_REQ_MODE, cfg := takeCfg s p, dark := .none, darkDue := false }
  let leaves := (strand s p).kind ≠ old
  let s := if leaves ∨ (strand s p).mode = 0 then rdmDrop p leaves s else s
  let s := if leaves then updStrand s p fun k =>
      { k with shown := [], packet := [], idx := 0, lastSwitch := 0, dmxSeq := none, sqcFn := none, noScan := false, codes := [] } else s
  let s := updStrand s p fun k => { k with sleep := s.pwr.groupsAsleep.getD (portGroup s p) false ∧ domainOn s (outDomain p) }
  let reach := (List.range (max gang (gangSize s p))).map (p + ·)
  reach.foldl (fun s q => if q < 64 then settlePort q (refresh (pgSTD q) s) else s) s

/-! ### Codes (R182, R190, R214) -/

/-- The codes of a TEST frame (R182). -/
def testCodes (k : Strand) (fn : Nat) : List Nat :=
  match k.kind with
  | 3 => let n := k.fld F.STD_MATRIX_P0_LAMPS
         (List.range n).map fun i => if i = fn % max 1 n then k.maxCode else 0
  | 4 => let n := 2 * k.gang
         (List.range n).map fun i => if i = fn % n then k.maxCode else 0
  | 5 => []
  | _ => (List.range k.words).map fun w => if w % max 1 k.portw = fn % max 1 k.portw then k.maxCode else 0

/-- A level of an override state in frame `fn`, driven by a tap or in force (R209, R274). -/
def ovrLevel (s : State) (st fn i : Nat) : Nat :=
  let f := match i / 2 with
    | 0 => (F.OVR_ST_LEV01_LEVELlo, F.OVR_ST_LEV01_LEVELhi)
    | 1 => (F.OVR_ST_LEV23_LEVELlo, F.OVR_ST_LEV23_LEVELhi)
    | 2 => (F.OVR_ST_LEV45_LEVELlo, F.OVR_ST_LEV45_LEVELhi)
    | _ => (F.OVR_ST_LEV67_LEVELlo, F.OVR_ST_LEV67_LEVELhi)
  let driven := (s.snd.drives.find? (·.1 = fn)).bind fun e => amGet e.2 (7 * 1024 + st * 8 + i)
  driven.getD (s.get pgOVR (if i % 2 = 0 then f.1 else f.2) st)

/-- The codes an override state gives the words of a port in frame `fn` (R214). -/
def ovrCodes (s : State) (k : Strand) (st fn : Nat) : List Nat :=
  let lev := fun w => ovrLevel s st fn (w % max 1 k.portw) / 2 ^ (16 - k.width)
  let on := fn % max 1 (s.get pgOVR F.OVR_ST_STROBE_PERIOD st) < s.get pgOVR F.OVR_ST_STROBE_ON st
  (List.range k.words).map fun w =>
    match s.get pgOVR F.OVR_ST_CFG_KIND st with
    | 0 => 0 | 1 => k.maxCode | 2 => lev w | _ => if on then lev w else 0

/-- The words of the strand buffer set of a frame whose sequence counter is `seq`, read with their deadlines (R20, R176) as the configuration of `k`
places them: a word whose read missed or fails is code 0 and counts. -/
def readWords (p : Nat) (k : Strand) (seq : Word) (s : State) : State × List Nat :=
  let base := k.fld (if seq.getLsbD 0 then F.STD_SBUF1_OFFSET else F.STD_SBUF0_OFFSET)
  let err := fun (s : State) => (s.bump (pgSTD p) F.STD_st_WORDERR).evt (pgSTD p) 2
  let one := fun (x : State × List Nat) (w : Nat) =>
    let (s, l) := x
    if k.missWords.contains w then (s, l ++ [0])
    else
      let (s, b) := rd ⟨0, if p < 32 then 0 else 1, 0, none⟩ (fsBase + base + 2 * w) 2 s
      match b with
      | some b => (s, l ++ [leVal b])
      | none => (err s, l ++ [0])
  let (s, l) := (List.range k.words).foldl one (s, [])
  (updStrand s p fun k => { k with missWords := [] }, l)

/-! ### Line bits and edges (R186 to R189, R204) -/

/-- The bits a word gives the line (R187). -/
def wordBits (k : Strand) (c : Nat) : List Bool :=
  let n := k.fld F.STD_CFG_BITS
  (List.range n).map fun i => (c / 2 ^ (if k.fld F.STD_CFG_LSBFIRST = 1 then i else n - 1 - i)) % 2 = 1

/-- The bits of a frame of codes. -/
def frameBits (k : Strand) (codes : List Nat) : List Bool := codes.flatMap (wordBits k)

/-- A level of a gang pin at an exact instant, as a placer's entry. -/
def entryAt (k : Strand) (j : Nat) (t : Rat) (b : Bool) : Entry := ⟨onGrid t, pinLevel k j b, none⟩

/-- Data and clock edges of bits sent from an instant (R186): the edges of gang pin `dj` and of gang pin `cj`. -/
def clockedEdges (k : Strand) (dj cj : Nat) (t0 : Rat) (bits : List Bool) : List Entry × List Entry :=
  let tb : Rat := (k.tbit : Nat)
  (bits.zipIdx.map fun (b, i) => entryAt k dj (t0 + i * tb) b,
   bits.zipIdx.flatMap fun (_, i) => [entryAt k cj (t0 + i * tb + tb / 2) true, entryAt k cj (t0 + (i + 1 : Nat) * tb) false])

/-- The edges of a single-wire frame on pin A (R189). -/
def singleEdges (k : Strand) (t0 : Rat) (bits : List Bool) : List Entry :=
  bits.zipIdx.flatMap fun (b, i) =>
    let t := t0 + i * (k.tbit : Nat)
    [entryAt k 0 t true, entryAt k 0 (t + (if b then k.fld F.STD_T1H_HIGH else k.fld F.STD_T0H_HIGH : Nat)) false]

/-- Address bits of a panel of `ROWS` rows (R203). -/
def rowBits (k : Strand) : Nat := Nat.clog 2 (k.fld F.STD_PANEL_P0_ROWS)

/-- The edges of a panel's load of a frame (R204), by gang pin. -/
def panelEdges (k : Strand) (t0 : Rat) (codes : List Nat) : List (Nat × List Entry) :=
  let rows := k.fld F.STD_PANEL_P0_ROWS
  let nd := k.fld F.STD_PANEL_P0_NDATA
  let cl := k.fld F.STD_PANEL_P0_CHAINLEN
  let bits := k.fld F.STD_CFG_BITS
  let dl := k.fld F.STD_PANEL_P2_DLATW * 16
  let rowLen := cl * bits * k.tbit + dl + 640
  let start := fun r => t0 + (r * rowLen : Nat)
  let clk := (List.range rows).flatMap fun r => (clockedEdges k 0 0 (start r) (List.replicate (cl * bits) false)).2
  let lat := (List.range rows).flatMap fun r =>
    let t := start r + (cl * bits * k.tbit + 320 : Nat)
    [entryAt k 1 t true, entryAt k 1 (t + (dl : Nat)) false]
  let data := (List.range nd).map fun q =>
    let j := 3 + rowBits k + q
    (j, (List.range rows).flatMap fun r =>
      let ws := (List.range cl).flatMap fun p => wordBits k (codes.getD (r * nd * cl + q * cl + p) 0)
      (clockedEdges k j 0 (start r) ws).1)
  (0, clk) :: (1, lat) :: data

/-- The edges of a shift of codes from an instant, by gang pin: A returns low at the end of a clocked shift (R186, R189, R204). -/
def shiftEdges (k : Strand) (t0 : Rat) (codes : List Nat) : List (Nat × List Entry) :=
  match k.kind with
  | 1 =>
    let (a, b) := clockedEdges k 0 1 t0 (frameBits k codes)
    [(0, a ++ [entryAt k 0 (t0 + (k.shiftD : Nat)) false]), (1, b)]
  | 2 => [(0, singleEdges k t0 (frameBits k codes))]
  | 6 => panelEdges k t0 codes
  | _ => []

/-! ### Taking up and sending a frame (R24 to R26, R178) -/

/-- A frame skipped on a strand (R24). -/
def skipFrame (p n : Nat) (nofit : Bool) (s : State) : State :=
  let s := (s.bump (pgSTD p) F.STD_st_SKIPS).evt (pgSTD p) 0
  let s := if nofit then (s.bump (pgSTD p) F.STD_st_NOFIT).evt (pgSTD p) 1 else s
  updStrand s p fun k => { k with skipFn := some n, missWords := [] }

/-- What a port sends or shows in frame `n`: nothing, a skip, codes of its own, or the prepared frame. -/
inductive Content where
  | none
  | skip (nofit : Bool)
  | codes (l : List Nat)
  | prepared
  deriving DecidableEq, Repr

/-- The content of frame `n`, of counter `q`, on a port (R24, R182 to R185, R214, R215). -/
def contentOf (s : State) (p n : Nat) (q : Word) : Content :=
  let k := strand s p
  let g := portGroup s p
  let h := s.get (pgSTD p) F.HDR_EFF_HOLD
  let words := if k.kind = 4 then 2 * k.gang else if k.kind = 3 then k.fld F.STD_MATRIX_P0_LAMPS else k.words
  let byMode : Content :=
    if k.mode = 3 then .codes (testCodes k n)
    else if k.mode = 2 then
      (if (k.kind = 1 ∨ k.kind = 2 ∨ k.kind = 6) ∧ !shiftFits s k g n q then .skip true
       else if k.prep.contains q then .prepared else .skip false)
    else .none
  if k.dark = .showing ∨ k.dark = .due then .codes (List.replicate words 0)
  else if k.ovrHold then
    match k.ovr with
    | some st => if shiftStart s k g n q ≤ k.ovrUntil then .none else .codes (ovrCodes s k st n)
    | none =>
      -- R215: the pipeline returns with a prepared frame whose t_L lies at least 1 µs after the release
      if (k.ovrEnd : Rat) / 4096 + 16000 ≤ shiftStart s k g n q then byMode else .none
  else if h = 0 ∨ h = 9 ∨ k.darkDue then byMode
  else if h = 7 ∧ k.mode = 2 ∧ (inRun s pgEDGE ∨ !k.prep.contains q) then byMode
  else .none

/-- The override content gives way to the pipeline (R215). -/
def pipelineBack (p : Nat) (s : State) : State :=
  if (strand s p).ovrHold ∧ (strand s p).ovr.isNone then
    refresh (pgSTD p) (updStrand s p fun k => { k with ovrHold := false })
  else s

/-- A shift of codes begun on a port from an instant: its edges supplied to its pins. -/
def beginShift (p n : Nat) (t0 : Rat) (ovr : Bool) (codes : List Nat) (s : State) : State :=
  let k := strand s p
  let s := (shiftEdges k t0 codes).foldl (fun s (j, l) => sequence (2 * p + j) l s) s
  updStrand s p fun k => { k with shifting := true, shiftFn := n, shiftAt := t0, shiftOvr := ovr, codes := codes,
                                  shiftDark := ovr && (match k.ovr with | some st => s.get pgOVR F.OVR_ST_CFG_KIND st = 0 | none => false) }

/-- The codes that a port shows are a TEST frame's: TEST needs no preparation, so it ends an override's hold too (R182, R215). -/
def testShown (k : Strand) : Bool := k.mode = 3 && k.dark = .none && (!k.ovrHold || k.ovr.isNone)

/-- A frame counted as taken up. -/
def sent (p n : Nat) (s : State) : State := updStrand (s.bump (pgSTD p) F.STD_st_SENT) p fun k => { k with shownFn := n }

/-! ### The square check (R125 to R127) -/

/-- A rectangle of the square check changed. -/
def updRect (s : State) (n : Nat) (f : Rect → Rect) : State := { s with outs := { s.outs with sqc := updAt s.outs.sqc n f } }

/-- A rectangle's result for frame `fn` once every port of it has reported the frame, counted, with the event of a mismatch (R127, R133). Where one port
skipped and another was overridden, OVERRIDDEN is reported (DESIGN CHOICE, notes/assumptions/100.md). -/
def sqcResult (n fn : Nat) (s : State) : State :=
  let get := fun f => s.get pgSQC f n
  let r := s.outs.sqc.getD n {}
  let first := get F.SQC_CFG_FIRSTPORT
  let ports := (List.range (get F.SQC_CFG_LASTPORT + 1 - first)).map (first + ·)
  let parts := ports.filterMap fun p => (r.got.find? fun e => e.1 = fn && e.2.1 = p).map (·.2.2)
  if parts.length < ports.length then s
  else
    let bytes := parts.flatMap fun (_, b) => packBits (b.length / 8 + 1) b
    let c := crc32 bytes
    let expect : Nat := ((r.exps.find? fun e => e.1 ≤ fn && fn ≤ e.2.1).map (·.2.2)).getD (get F.SQC_EXPECT)
    let code : Nat := if parts.any (·.1 = 2) then 5 else if parts.any (·.1 = 1) then 4
      else if get F.SQC_CFG_CAPTURE = 1 then 3 else if c.toNat = expect then 1 else 2
    let crc : Word := if code ≤ 3 then c else 0
    let s := updRect s n fun r => { r with got := r.got.filter (·.1 ≠ fn), result := code, resFn := fn % 65536, crc := crc }
    let s := if code = 1 then s.bump pgSQC F.SQC_st_ST_MATCHES 1 n else s
    if code = 2 then (s.bump pgSQC F.SQC_st_ST_MISMATCHES 1 n).evt pgSQC n else s

/-- A port's frame reported, once, to every enabled rectangle that names it: its bits per pixel, or a skip (1) or an override (2). Ports of one rectangle
may report a frame at different times; what is held of one that some port never reports is dropped as newer frames come. -/
def sqcPort (p fn mark : Nat) (pixel : Nat → List Bool) (s : State) : State :=
  if (strand s p).sqcFn = some fn then s else
  (List.range 16).foldl (fun s n =>
    let get := fun f => s.get pgSQC f n
    if !inRun s pgSQC ∨ get F.SQC_CFG_EN = 0 ∨ p < get F.SQC_CFG_FIRSTPORT ∨ get F.SQC_CFG_LASTPORT < p then s
    else
      let a := get F.SQC_FIRSTPIX
      let bits := if mark = 0 then (List.range (get F.SQC_LASTPIX + 1 - a)).flatMap fun i => pixel (a + i) else []
      sqcResult n fn (updRect s n fun r => { r with got := ((fn, p, mark, bits) :: r.got).take 4096 })) (updStrand s p fun k => { k with sqcFn := some fn })

/-- The bits of pixel `i` in a frame's line bits. -/
def pixelBits (k : Strand) (bits : List Bool) (i : Nat) : List Bool :=
  let n := k.portw * k.fld F.STD_CFG_BITS
  (bits.drop (i * n)).take n

/-- A port's rectangle in a domain that is off has no result (R127). -/
def sqcDark (s : State) (n : Nat) : Bool :=
  !domainOn s (outDomain (s.get pgSQC F.SQC_CFG_FIRSTPORT n)) || !domainOn s (outDomain (s.get pgSQC F.SQC_CFG_LASTPORT n))

/-- What the latch at an FS reports of the last shift: each rectangle's last result (R127), and the words of the last read-back (R224); a gang
member latches only FRAMES (R174). -/
def lastResults (s : State) : State :=
  let s := (List.range 16).foldl (fun s n =>
    let r := s.outs.sqc.getD n {}
    let r : Rect := if sqcDark s n then {} else r
    ((s.setStat pgSQC F.SQC_st_ST_RESULT r.result n).setStat pgSQC F.SQC_st_ST_FN r.resFn n).setStat pgSQC F.SQC_st_ST_CRC r.crc.toNat n) s
  (List.range 64).foldl (fun s p => if (gangLead s p).isSome then s else s.setStat (pgSTD p) F.STD_st_RBVALID (strand s p).back.length) s

/-- The values of EXPECT by runs of frames, with frame `n`'s. -/
def addExpect (n x : Nat) : List (Nat × Nat × Nat) → List (Nat × Nat × Nat)
  | (a, b, y) :: t => if b + 1 = n ∧ x = y then (a, n, y) :: t else ((n, n, x) :: (a, b, y) :: t).take 64
  | [] => [(n, n, x)]

/-- The rectangles at FS(n) once its commit is applied: `EXPECT` of frame n, which its shift is judged by (R126); one that is not enabled forgets
its result (R127). -/
def sqcAtFs (n : Nat) (s : State) : State :=
  (List.range 16).foldl (fun s k =>
    updRect s k fun r =>
      let e := addExpect n (s.get pgSQC F.SQC_EXPECT k) r.exps
      if s.get pgSQC F.SQC_CFG_EN k = 0 then { exps := e } else { r with exps := e }) s

/-- SHIFT_START at t_L (R178): only the modes that shift take part. -/
def shiftBegin (p : Nat) (s : State) : State :=
  let k := strand s p
  if k.kind ≠ 1 ∧ k.kind ≠ 2 ∧ k.kind ≠ 6 then s
  else
    let g := portGroup s p
    let (n, q) := portNext s p
    let t0 := shiftStart s k g n q
    match contentOf s p n q with
    | .none => s
    | .skip nf => sqcPort p n 1 (fun _ => []) (skipFrame p n nf s)
    | .codes c =>
      if testShown k then beginShift p n t0 false c (sent p n (pipelineBack p s))
      else beginShift p n t0 (k.ovrHold && k.dark ≠ .showing) c s
    | .prepared =>
      let s := pipelineBack p s
      let (s, c) := readWords p k q s
      beginShift p n t0 false c (sent p n s)

/-! ### The end of a shift (R126, R188) -/

/-- The read-back words of returned bits: each word and whether all its 16 bits arrived. -/
def backWords : Nat → List Bool → List (Nat × Bool)
  | 0, _ => []
  | n + 1, l => if l.isEmpty then [] else
    (valOfBits ((List.range 16).map fun i => l.getD i false), decide (16 ≤ l.length)) :: backWords n (l.drop 16)

/-- The records of R188 written and the words marked. -/
def readBack (p : Nat) (ret : List Bool) (s : State) : State :=
  let k := strand s p
  if k.kind ≠ 1 ∨ k.fld F.STD_CFG_RBEN = 0 then s
  else
    let ws := backWords 1024 (ret.take (k.words * k.fld F.STD_CFG_BITS))
    let base := k.fld F.STD_RBBASE_OFFSET
    let s := ws.zipIdx.foldl (fun s ((w, v), i) =>
      wr' ⟨0, 22, 0, none⟩ (fsBase + base + 4 * i) (leBytes 4 (w + v.toNat * 65536 + k.shiftFn % 4096 * 2 ^ 20)) s) s
    let good := ws.filterMap fun (w, v) => if v then some w else none
    updStrand s p fun k => { k with back := good, backFt := some s.time.ft }

/-- The bits that the square check decodes at the ball (R126, R189): levels at the clock edge, 0 for low; of a single wire high times in
1/16 ns. They are taken with the inversion of `CFG.INVA` undone (DESIGN CHOICE, notes/assumptions/101.md). -/
def decodeSeen (k : Strand) (l : List Nat) : List Bool :=
  let inv := k.fld F.STD_CFG_INVA = 1
  l.map fun h => if k.kind = 2 then k.fld F.STD_T0H_HIGH + k.fld F.STD_T1H_HIGH < 2 * (if inv then k.tbit - h else h) else decide (h ≠ 0) != inv

/-- SHIFT_END (R186, R126): `ret` are the bits sampled at the return pin, `seen` what the sampler read at the data ball where it differs from what was
sent. -/
def shiftEnd (p : Nat) (ret : List Bool) (seen : Option (List Nat)) (s : State) : State :=
  let k := strand s p
  if !k.shifting then s
  else
    let s := updStrand s p fun k => { k with shifting := false }
    let s := readBack p ret s
    let bits := (seen.map (decodeSeen k)).getD (frameBits k k.codes)
    if k.kind = 6 then s
    else sqcPort p k.shiftFn (if k.shiftOvr then 2 else 0) (pixelBits k bits) s

/-- WORD_READ_MISS (R176): the word is sent as code 0, in the shift under way or in the frame taken up next. -/
def wordMiss (p w : Nat) (s : State) : State :=
  let k := strand s p
  if k.words ≤ w ∨ k.mode ≠ 2 then s
  else
    let s := (s.bump (pgSTD p) F.STD_st_WORDERR).evt (pgSTD p) 2
    if !k.shifting then updStrand s p fun k => { k with missWords := w :: k.missWords }
    else
      let codes := k.codes.set w 0
      let s := updStrand s p fun k => { k with codes := codes }
      (shiftEdges k k.shiftAt codes).foldl (fun s (j, l) =>
        updPin s (2 * p + j) fun q =>
          let left := q.queue.length + q.feed.length
          let l := l.drop (l.length - left)
          { q with queue := l.take 64, feed := l.drop 64 }) s

/-! ### String matrix (R190 to R194) -/

/-- A lamp's duty after the band of R192 is applied, and whether it was. -/
def duties (k : Strand) (codes : List Nat) : List Rat × Bool :=
  let d := codes.map fun (c : Nat) => (c : Rat) / (max 1 k.maxCode : Nat)
  let sum := d.sum
  let lim : Rat := (k.fld F.STD_MATRIX_P0_LITMAX : Nat)
  if lim < sum then (d.map (· * lim / sum), true) else (d, false)

/-- The place within the period at which each lamp turns on, and how long it is lit, in fractions of the period (R192). -/
def litSpans (d : List Rat) : List (Rat × Rat) :=
  (d.foldl (fun (acc : Rat × List (Rat × Rat)) x => (acc.1 + x, acc.2 ++ [(acc.1 - acc.1.floor, x)])) (0, [])).2

/-- A fraction of an interval downwards to its part in [0, 1). -/
def frac1 (q : Rat) : Rat := q - q.floor

/-- Whether a lamp is lit just after a place in the period of length `tm` (1/16 ns) (R192): one whose duration rounds to less than 5 ns stays dark, and one
whose dark part rounds to nothing places no edges. A sequencer writes no edges closer than 5 ns (R168), so a shorter dark part ends 5 ns after it began
(DEDUCED, notes/assumptions/84.md). -/
def litAt (tm : Rat) (x : Rat) (e : Rat × Rat) : Bool :=
  onGrid ((1 - e.2) * tm) = 0 || (80 ≤ onGrid (e.2 * tm) && frac1 (x - e.1) < e.2)

/-- The switching places of a period, rising, each once (R192). -/
def switchPlaces (spans : List (Rat × Rat)) : List Rat :=
  let all := spans.flatMap fun (a, d) => if 1 ≤ d ∨ d = 0 then [] else [a, frac1 (a + d)]
  all.foldl insertOnce []
where
  /-- A place put in order, once. -/
  insertOnce : List Rat → Rat → List Rat
    | [], q => [q]
    | h :: t, q => if q < h then q :: h :: t else if q = h then h :: t else h :: insertOnce t q

/-- The frame period that a pattern or duties taken up at the latch of the frame of counter `q` run on (R190, R196): that of the frame's own
mode, so that the old one stays up to latch(M) of a mode change (R59, R197). -/
def gridPeriod (s : State) (q : Word) : Rat := if framePast s q then s.time.perPrev else s.time.perNow

/-- A matrix or PWM port with the configuration under which the frame it shows was taken up (R26, R192). -/
def showing (s : State) (p : Nat) : Strand := let k := strand s p
                                              if k.shown.isEmpty then k else { k with cfg := k.shownCfg }

/-- The length of a matrix period, in 1/16 ns (R190). -/
def matrixPeriod (k : Strand) : Rat := k.frameP / (max 1 (k.fld F.STD_MATRIX_P0_MDIV) : Nat)

/-- The lamps' levels at a place of the period shown on the pins from an exact instant: direct, or by a pattern word (R191, R194). -/
def showLamps (p : Nat) (t : Rat) (x : Rat) (s : State) : State :=
  let k := showing s p
  let spans := litSpans (duties k k.shown).1
  let tm := matrixPeriod k
  let closed := fun i => !(match spans[i]? with | some e => litAt tm x e | none => false)
  let high := fun i => closed i != (k.fld F.STD_MATRIX_P0_BYPOL = 1)
  if k.fld F.STD_MATRIX_P0_SERIAL = 0 then
    (List.range 8).foldl (fun s j => placeNow (2 * p + j) (entryAt k j t (high j)) s) s
  else
    let need := 32 * k.tbit + k.fld F.STD_MATRIX_P1_LOADW * 16 + 320
    let want := onGrid t
    let at' := if k.lastSwitch = 0 then want else max want (k.lastSwitch + need)
    let s := if at' ≠ want then s.bump (pgSTD p) F.STD_st_MERGED else s
    let bits := (List.range 32).map fun i => high (31 - i)
    let t0 : Rat := (at' : Rat) - 160 - (32 * k.tbit : Nat)
    let (a, b) := clockedEdges k 0 1 t0 bits
    let s := sequence (2 * p) a (sequence (2 * p + 1) b s)
    let s := sequence (2 * p + 2) [⟨at', pinLevel k 2 true, none⟩, ⟨at' + k.fld F.STD_MATRIX_P1_LOADW * 16, pinLevel k 2 false, none⟩] s
    updStrand s p fun k => { k with lastSwitch := at' }

/-- A pattern of codes taken up on a matrix port at an exact instant (R25, R190), with the count of R192. -/
def matrixTake (p : Nat) (per t : Rat) (codes : List Nat) (s : State) : State :=
  let k := strand s p
  let (d, clip) := duties k codes
  let s := if clip then (s.bump (pgSTD p) F.STD_st_BANDCLIP).evt (pgSTD p) 7 else s
  let first := (switchPlaces (litSpans d)).head?
  let s := updStrand s p fun k => { k with shown := codes, origin := t, shownCfg := k.cfg, frameP := per, idx := if first = some 0 then 1 else 0 }
  showLamps p t 0 s

/-- An instant of the grid a port runs on lies before the port's next latch, at which a new grid may begin (R25). -/
def beforeLatch (s : State) (p : Nat) (t : Rat) : Bool :=
  let (n, q) := portNext s p
  q = (nextLatch s).2 || t < latchRat s (portGroup s p) n q

/-- MATRIX_SWITCH: the next switching instant of a matrix port (R192). -/
def matrixSwitch (p : Nat) (s : State) : State :=
  let k := showing s p
  if k.kind ≠ 3 ∨ k.shown.isEmpty ∨ !portDriven s p then s
  else
    let l := switchPlaces (litSpans (duties k k.shown).1)
    match l[k.idx % max 1 l.length]? with
    | none => s
    | some x =>
      let t := k.origin + ((k.idx / l.length : Nat) + x) * matrixPeriod k
      if !beforeLatch s p t then s else
      let s := updStrand s p fun k => { k with idx := k.idx + 1 }
      showLamps p t x s

/-! ### PWM direct (R195 to R197) -/

/-- The PWM period in 1/16 ns (R196): after a mode change PDIV is held to what gives 2 µs. -/
def pwmPeriod (k : Strand) : Rat :=
  let p := k.frameP
  p / (max 1 (min (k.fld F.STD_PWM_P0_PDIV) (p / 32000).floor.toNat) : Nat)

/-- The high time of a channel (R196) in 1/16 ns: none for no pulse, the whole period for a pin kept high. -/
def pwmHigh (k : Strand) (tp : Rat) (code : Nat) : Option (Rat × Bool) :=
  let h := (code : Rat) * tp / (max 1 k.maxCode : Nat)
  if h < 40 then none else if tp - 80 ≤ h then some (tp, true) else some (max h 80, false)

/-- What is left of a channel's queue when a new grid begins at an instant: the edges before it, and the fall of a pulse in progress there. -/
def oldPulse (low : Bool) (t0 : Nat) (level : Option Bool) (l : List Entry) : List Entry :=
  let due := l.takeWhile fun e => decide (e.t < t0)
  let high := ((due.getLast?.map (·.level)).or level) = some (!low)
  due ++ if high then ((l.drop due.length).find? (·.level = low)).toList else []

/-- The pulse of one channel in the period that starts at an instant; a pulse of the old grid that has not ended joins it (R197). -/
def pwmPulse (p : Nat) (first : Bool) (t0 tp : Rat) (s : State) (c : Nat) : State :=
  let k := showing s p
  let i := 2 * p + c
  let phase : Rat := if k.fld F.STD_PWM_P0_SPREAD = 1 then (c : Rat) * tp / (2 * k.gang : Nat) else 0
  let low := pinLevel k c false
  -- a pulse of the old grid that has not risen is cut off; one in progress keeps its fall
  let s := if first then updPin s i fun p => { p with queue := oldPulse low (onGrid t0) p.level (p.queue ++ p.feed), feed := [] } else s
  let q := (pinOf s i).queue
  let rise := entryAt k c (t0 + phase) true
  match pwmHigh k tp (k.shown.getD c 0) with
  | none =>
    -- a pin that was kept high has its pulse end where the next would begin
    let high := q.isEmpty && (pinOf s i).level = some (!low)
    if high then sequence i [entryAt k c (t0 + phase) false] s else s
  | some (h, keep) =>
    let fall := entryAt k c (t0 + phase + h) false
    match q.getLast? with
    | some o =>
      if first ∧ o.level = low ∧ rise.t ≤ o.t then
        let s := updPin s i fun p => { p with queue := p.queue.dropLast }
        sequence i (if keep then [] else [{ fall with t := max o.t fall.t }]) s
      else sequence i (if keep then [rise] else [rise, fall]) s
    | none => sequence i (if keep then [rise] else [rise, fall]) s

/-- The next period's pulses given to the placers (R196). -/
def pwmNext (p : Nat) (s : State) : State :=
  let k := showing s p
  if k.kind ≠ 4 ∨ k.shown.isEmpty ∨ !portDriven s p then s
  else
    let tp := pwmPeriod k
    let t0 := k.origin + k.idx * tp
    let s := (List.range (2 * k.gang)).foldl (pwmPulse p (k.idx = 0) t0 tp) s
    updStrand s p fun k => { k with idx := k.idx + 1 }

/-- PWM_PERIOD_START: the next period of the grid, up to the port's next latch. -/
def pwmPeriodStart (p : Nat) (s : State) : State :=
  let k := showing s p
  if beforeLatch s p (k.origin + k.idx * pwmPeriod k) then pwmNext p s else s

/-- Duties taken up on a PWM port at an exact instant; the first period begins there (R25, R197). -/
def pwmTake (p : Nat) (per t : Rat) (codes : List Nat) (s : State) : State :=
  pwmNext p (updStrand s p fun k => { k with shown := codes, origin := t, shownCfg := k.cfg, frameP := per, idx := 0 })

/-! ### DMX and RDM (R198 to R202) -/

/-- Microseconds in 1/16 ns. -/
abbrev us16 : Nat := 16000

/-- One slot on the line from an instant: a start bit, 8 data bits least significant first, two stop bits of 4 µs each (R199). -/
def slotEdges (k : Strand) (t : Nat) (b : Byte) : List Entry :=
  (false :: ((List.range 8).map fun i => b.getLsbD i) ++ [true]).zipIdx.map fun (v, i) =>
    ⟨t + i * 4 * us16, pinLevel k 0 v, none⟩

/-- A packet's edges on pin A from its break, and its end (R199). -/
def packetEdges (k : Strand) (t brk mab mtbs : Nat) (bytes : List Byte) : List Entry × Nat :=
  let t1 := t + brk * us16
  let t2 := t1 + mab * us16
  let step := (44 + mtbs) * us16
  ([⟨t, pinLevel k 0 false, none⟩, ⟨t1, pinLevel k 0 true, none⟩] ++
    bytes.zipIdx.flatMap fun (b, i) => slotEdges k (t2 + i * step) b,
   t2 + bytes.length * step - mtbs * us16)

/-- The slots that codes of a width give (R200): one byte a word, or a word's high byte and its low byte; slots beyond the data carry 0. -/
def dmxSlots (k : Strand) (width : Nat) (codes : List Nat) : List Byte :=
  let d := codes.flatMap fun c => if width = 16 then [BitVec.ofNat 8 (c / 256), BitVec.ofNat 8 c] else [BitVec.ofNat 8 c]
  (List.range (k.fld F.STD_DMX_P1_NSLOT)).map fun i => d.getD i 0

/-- The slots of a TEST packet (R182). -/
def dmxTest (k : Strand) (fn : Nat) : List Byte :=
  let n := k.fld F.STD_DMX_P1_NSLOT
  (List.range n).map fun i => if i = fn % max 1 n then 255 else 0

/-- The request's bytes with their checksum (R201). -/
def rdmRequest (s : State) (p : Nat) : List Byte :=
  let l := (List.range (s.get (pgSTD p) F.STD_RDMCTL_LEN)).map fun i => (amGet (strand s p).rdmReq i).getD 0
  l ++ beBytes 2 ((l.map (·.toNat)).sum % 65536)

/-- The slots of the packet that begins (R199, R200): copied from the strand buffer of the newest prepared frame whose latch has passed, by the
configuration it was prepared with (R26), a TEST frame's,
or those of the last packet again; none before the first packet of a port in STANDBY. In RUN a packet before the first frame carries zeros. -/
def dmxData (p : Nat) (s : State) : State × List Byte :=
  let k := strand s p
  let eff := effMode s (pgSTD p)
  if k.dark = .showing then (s, List.replicate (k.fld F.STD_DMX_P1_NSLOT) 0)
  else if k.ovr.isSome ∧ k.ovrHold then (s, dmxSlots k k.width k.shown)
  else match k.dmxSeq with
    | some q =>
      let old := { k with cfg := k.shownCfg }
      let (s, c) := readWords p old q s
      (updStrand s p fun k => { k with dmxSeq := none, shown := c }, dmxSlots k old.width c)
    | none =>
      if k.mode = 3 ∧ 2 ≤ eff then (s, dmxTest k k.shownFn)
      else if k.packet.isEmpty ∧ eff = 2 then (s, List.replicate (k.fld F.STD_DMX_P1_NSLOT) 0)
      else (s, k.packet)

/-- DMX_BREAK (R199): the next packet, or a queued RDM request in its place (R201). -/
def dmxBreak (p : Nat) (s : State) : State :=
  let k := strand s p
  if k.kind ≠ 5 ∨ !portDriven s p ∨ !inRun s pgEDGE ∨ k.rdm ∉ [.idle, .queued] then s
  else if k.dark = .ending then
    takeUp p s
  else
    let t := max (now16 s) k.packetEnd
    if k.rdm = .queued then
      let brk := max 176 (min 352 (k.fld F.STD_DMX_P0_BRK))
      let mab := max 12 (min 88 (k.fld F.STD_DMX_P0_MAB))
      let req := rdmRequest s p
      let (l, e) := packetEdges k t brk mab 0 req
      let s := (sequence (2 * p) l s).emit (.line p req)
      let s := updStrand s p fun k => { k with lastBreak := t, packetEnd := e, rdm := .sending, rdmResp := [] }
      if s.flag (pgSTD p) F.STD_RDMCTL_BCAST then s
      else
        -- B falls within 2 µs of the last stop bit (R201)
        let (s, v) := s.free
        sequence (2 * p + 1) [⟨e + v.toNat % 32001, pinLevel k 1 false, none⟩] s
    else
      let (s, slots) := dmxData p s
      if slots.isEmpty then s else
      let (l, e) := packetEdges k t (k.fld F.STD_DMX_P0_BRK) (k.fld F.STD_DMX_P0_MAB) (k.fld F.STD_DMX_P1_MTBS) (0 :: slots)
      let s := (sequence (2 * p) l s).emit (.line p (0 :: slots))
      let e := max (e + k.fld F.STD_DMX_P2_MBB * us16) (t + k.fld F.STD_DMX_P2_REFRESH * us16)
      let s := updStrand s p fun k => { k with packet := slots, lastBreak := t, packetEnd := e, shiftFn := k.shownFn, shiftOvr := k.ovrHold,
                                               dark := if k.dark = .showing then .ending else k.dark }
      s.bump (pgSTD p) F.STD_st_PACKETS

/-- The end of a packet on pin A: the square check's result for its frame, once, from the slots as the sampler read them (R126, R127), or the end of a
request that no response follows (R202). -/
def packetDone (p : Nat) (seen : Option (List Byte)) (s : State) : State :=
  let k := strand s p
  if k.rdm = .sending then
    if s.flag (pgSTD p) F.STD_RDMCTL_BCAST then updStrand (rdmDone p 6 0 s) p fun k => { k with rdm := .mark } else s
  else
    let slots := seen.getD (0 :: k.packet)
    let bits := fun i => (List.range 8).map fun b => (slots.getD i 0).getLsbD (7 - b)
    sqcPort p k.shiftFn (if k.shiftOvr then 2 else 0) bits s

/-- RDM_GO: a write of RDMCTL.GO (R201); in the mark after a transaction the next request waits. -/
def rdmGo (p a : Nat) (s : State) : State :=
  let go := fun (r : Rdm) =>
    updStrand ((s.set (pgSTD p) F.STD_RDMCTL_STATUS 1).set (pgSTD p) F.STD_RDMCTL_RLEN 0) p fun k => { k with rdm := r }
  match (strand s p).rdm with
  | .idle => go .queued
  | .mark => go .markQueued
  | _ => s.fault (pgSTD p) 0x41 0x084 a

/-- Pin B of a DMX port begins to await a response: pin A becomes an input (R198). -/
def rdmListen (p : Nat) (s : State) : State :=
  if (strand s p).rdm ≠ .sending then s else floatPin (2 * p) (updStrand s p fun k => { k with rdm := .listening })

/-- The line goes back to the controller: B rises, A is an output again and the mark begins (R198, R201). While EDGE does not run no pin moves. -/
def rdmMark (p : Nat) (s : State) : State :=
  let k := strand s p
  let s := updStrand s p fun k => { k with rdm := .mark }
  if !inRun s pgEDGE then clearPin (2 * p + 1) s
  else
    let s := placeNow (2 * p + 1) ⟨now16 s, pinLevel k 1 true, none⟩ (clearPin (2 * p + 1) s)
    if portDriven s p ∧ (pinOf s (2 * p)).level.isNone then drivePin (2 * p) (pinLevel k 0 true) (now16 s) s else s

/-- An RDM transaction that an override or the loss of the port cuts: it has no response (R202; DESIGN CHOICE, notes/assumptions/83.md); a request that is
queued or on its way is sent later. -/
def rdmCut (p : Nat) (s : State) : State :=
  match (strand s p).rdm with
  | .sending => updStrand s p fun k => { k with rdm := .queued }
  | .listening => updStrand (rdmMark p (rdmDone p 3 0 s)) p fun k => { k with rdm := .idle }
  | .mark => updStrand s p fun k => { k with rdm := .idle }
  | .markQueued => updStrand s p fun k => { k with rdm := .queued }
  | _ => s

/-- RDM_RESPONSE_TIMEOUT (R202). -/
def rdmTimeout (p : Nat) (s : State) : State :=
  if !awaits s p then s else rdmMark p (rdmDone p 3 0 s)

/-- RDM_RECEPTION_END (R201, R202): the bytes received, and whether a framing error was. -/
def rdmEnd (p : Nat) (b : List Byte) (framing : Bool) (s : State) : State :=
  if !awaits s p then s
  else
    let b := b.take 257
    let n := (b.getD 2 0).toNat
    let sum := ((b.take n).map (·.toNat)).sum % 65536
    let good := n + 2 ≤ b.length && beVal (slice b n 2) = sum
    let disc := s.flag (pgSTD p) F.STD_RDMCTL_DISC
    let status := if framing then 5 else if disc ∨ good then 2 else 4
    rdmMark p (rdmDone p status b.length (updStrand s p fun k => { k with rdmResp := b }))

/-- RDM_MARK_END (R201): the port resumes packets, or sends the request that waited. -/
def rdmMarkEnd (p : Nat) (s : State) : State :=
  match (strand s p).rdm with
  | .mark => updStrand s p fun k => { k with rdm := .idle }
  | .markQueued => updStrand s p fun k => { k with rdm := .queued }
  | .sending => if s.flag (pgSTD p) F.STD_RDMCTL_BCAST then updStrand (rdmDone p 6 0 s) p fun k => { k with rdm := .idle } else s
  | _ => s

/-! ### Panel scan (R205) -/

/-- PANEL_ROW_SLOT: the next row slot. The scan keeps the period of the frame it shows until the next latch, also past T_end of a mode change (DESIGN CHOICE,
notes/assumptions/31.md). -/
def panelSlot (p : Nat) (s : State) : State :=
  let k := strand s p
  if k.kind ≠ 6 ∨ !portDriven s p then s
  else
    let rows := max 1 (k.fld F.STD_PANEL_P0_ROWS)
    let tr := (if k.frameP = 0 then periodRat s else k.frameP) / (rows * max 1 (k.fld F.STD_PANEL_P1_SCANREP) : Nat)
    let t := k.origin + k.idx * tr
    let row := k.idx % rows
    let n := k.fld F.STD_PANEL_P1_GCLKS
    let blank := k.fld F.STD_PANEL_P2_BLANK * 16
    let tg := (tr - (blank : Nat)) / (max 1 n : Nat)
    let s := (List.range (rowBits k)).foldl (fun s b =>
      placeNow (2 * p + 3 + b) (entryAt k (3 + b) t (row / 2 ^ b % 2 = 1)) s) s
    let g := if k.noScan then [] else (List.range n).flatMap fun (i : Nat) =>
      let u := t + (blank : Nat) + i * tg
      [entryAt k 2 u true, entryAt k 2 (u + tg / 2) false]
    updStrand (sequence (2 * p + 2) g s) p fun k => { k with idx := k.idx + 1 }

/-- LAT pulsed at latch(n), so that the drivers show the new memory (R204), with the scan's grid restarted; a port that loaded no frame n keeps what it
shows (R25, R184). GCLK stopped by an override or after one starts again with a frame that is loaded, but for state OFF (R213, R215). -/
def panelLatch (p n : Nat) (per t : Rat) (s : State) : State :=
  let k := strand s p
  let s := updStrand s p fun k => { k with origin := t, idx := 0, frameP := per }
  if k.shiftFn ≠ n ∨ k.codes.isEmpty then s
  else
    let s := sequence (2 * p + 1) [entryAt k 1 t true, entryAt k 1 (t + (k.fld F.STD_PANEL_P3_VSW * 16 : Nat)) false] s
    updStrand s p fun k => { k with noScan := k.shiftDark, codes := [] }

/-- Edges of a pin discarded, but for the fall that ends a level in progress. -/
def endPulse (k : Strand) (i j : Nat) (s : State) : State :=
  updPin s i fun p =>
    { p with queue := if p.level = some (pinLevel k j true) then ((p.queue ++ p.feed).find? (·.level = pinLevel k j false)).toList else [], feed := [] }

/-! ### Timed GPIO (R207, R208) -/

/-- GPIO_PULSE: the next pulse of the frame in progress on pin A. One that begins before the pulse ahead of it has ended keeps the pin at the high level
(DESIGN CHOICE, notes/assumptions/107.md). -/
def gpioPulse (p : Nat) (s : State) : State :=
  let k := strand s p
  if k.kind ≠ 7 ∨ !inRun s (pgSTD p) ∨ k.fld F.STD_GPIO_P1_PULSEA = 0 ∨ k.fld F.STD_GPIO_P1_K < k.idx ∨ s.time.gapM.isSome then s
  else
    let step := (periodRat s / 16 / (k.fld F.STD_GPIO_P1_K + 1 : Nat)).floor.toNat
    let t : Rat := (s.time.fsGrid : Rat) / 4096 + ((k.fld F.STD_GPIO_P0_OFFSET + k.idx * step) * 16 : Nat)
    let s := updStrand s p fun k => { k with idx := k.idx + 1 }
    let fall := entryAt k 0 (t + (k.fld F.STD_GPIO_P1_WIDTH * 16 : Nat)) false
    let l := (pinOf s (2 * p)).queue ++ (pinOf s (2 * p)).feed
    let joins := match l.getLast? with | some o => o.level = pinLevel k 0 false && decide (onGrid t ≤ o.t) | none => false
    if (fsOf s (s.time.fn + 1) : Rat) / 4096 ≤ t then s
    else if joins then sequence (2 * p) [fall] (updPin s (2 * p) fun q => { q with queue := l.dropLast.take 64, feed := l.dropLast.drop 64 })
    else sequence (2 * p) [entryAt k 0 t true, fall] s

/-- GPIOPUSH: a write of that register (R208). -/
def gpioPush (p a : Nat) (v : Word) (s : State) : State :=
  let k := strand s p
  let pin := bitsOf v 1 1
  if k.kind ≠ 7 ∨ !inRun s (pgSTD p) then s
  else if pin = 0 ∧ k.fld F.STD_GPIO_P1_PULSEA = 1 then s.fault (pgSTD p) 0x07 0x074 a
  else if 64 ≤ (pinOf s (2 * p + pin)).queue.length then (s.fault (pgSTD p) 0x40 0x074 a).evt (pgSTD p) 6
  else
    let d := stDiff (s.reg (pgSTD p) 0x070) s.st
    let base : Int := ((s.time.ft / 65536 : Nat) : Int) + d
    let t := (base * 16 + bitsOf v 4 4).toNat
    let past := stPast (s.reg (pgSTD p) 0x070) s.st
    supply (2 * p + pin) [⟨t, pinLevel k pin (bitsOf v 0 1 = 1), if past then some (now16 s) else none⟩] s

/-! ### EDGE_PLACE -/

/-- EDGE_PLACE (R167): the entry at the head of a placer's queue, with what its placement ends: a DMX packet or the turn to a response (R198, R201), or
the last pulse of a panel's dark-out (R185). `seen` are the slots, start code first, that the sampler read of a DMX packet, where they differ. -/
def edgePlace (i : Nat) (seen : Option (List Byte)) (s : State) : State :=
  let before := (pinOf s i).queue
  let t := placeHead i s
  if 128 ≤ i ∨ before.isEmpty ∨ !(pinOf t i).queue.isEmpty ∨ bankHeld s (bankOf i) then t
  else
    let p := (gangLead t (i / 2)).getD (i / 2)
    let k := strand t p
    if k.kind = 5 then (if i % 2 = 0 then packetDone p seen t else if (pinOf t i).level = some (pinLevel k 1 false) then rdmListen p t else t)
    else if k.kind = 6 ∧ k.dark = .ending ∧ i = 2 * p + 1 then takeUp p t
    else t

/-! ### Overrides (R209 to R218) -/

/-! ### The end of a calibration window (R169, R234) -/

/-- The pins of a bank: 32 strand pins, then its 4 LATCH pins (R170). -/
def bankPins (b : Nat) : List Nat := (List.range 32).map (32 * b + ·) ++ (List.range 4).map (128 + 4 * b + ·)

/-- The entries of a pin that fell due in the window that has ended, placed at its end (R169). -/
def placeDue (i : Nat) (s : State) : State :=
  let p := pinOf s i
  let late := match p.window with | some (_, b) => (p.queue ++ p.feed).takeWhile fun (e : Entry) => decide (e.t < b) | none => []
  late.foldl (fun s _ => edgePlace i none s) s

/-- The window of the run in progress closes, 16 µs after it opened or, cut short, now: its ports leave hold CAL and its placers resume. -/
def windowShut (cut : Bool) (s : State) : State :=
  match s.cal.run with
  | none => s
  | some r =>
    let t := now16 s
    let s := { s with cal := { s.cal with window := false } }
    let s := (List.range 16).foldl (fun s k => updStrand s (16 * r.bank + k) fun k => { k with cal := false }) s
    let s := (bankPins r.bank).foldl (fun s i => updPin s i fun p => { p with window := p.window.map fun w => (w.1, if cut then t else w.2) }) s
    (bankPins r.bank).foldl (fun s i => placeDue i s) (refreshStrands s)

/-- A window ended by an override (R234): its hits are discarded and an apply window's tables restored. -/
def calBreak (s : State) : State :=
  match s.cal.run with
  | none => s
  | some r =>
    if !s.cal.window then s
    else
      let s := if r.tables.isSome then { s with cal := { s.cal with tabs := s.cal.prev } } else s
      (windowShut true s).bump pgCAL F.CAL_st_ABORTS

/-- A state selects a port. -/
def ovrSelects (s : State) (st p : Nat) : Bool :=
  if p < 32 then s.get pgOVR F.OVR_ST_MASKL_MASK st / 2 ^ p % 2 = 1 else s.get pgOVR F.OVR_ST_MASKH_MASK st / 2 ^ (p - 32) % 2 = 1

/-- The override state that applies on a port (R209, R210): the highest active one that selects it, where the port takes one. -/
def ovrOf (s : State) (p : Nat) : Option Nat :=
  let k := strand s p
  if k.kind = 0 ∨ (gangLead s p).isSome ∨ k.mode = 0 ∨ s.get (pgSTD p) F.HDR_REQ_MODE = 0 ∨ (strandHolds s p).any (· < 5) ∨ !inRun s pgEDGE then none
  else [7, 6, 5, 4, 3, 2, 1, 0].find? fun st => s.outs.ovr.active.getLsbD st && ovrSelects s st p

/-- The level that an override state gives the pins of a timed GPIO port in frame `n` (R213). -/
def gpioLevel (s : State) (st n : Nat) : Bool :=
  let lev := 2 ^ 15 ≤ ovrLevel s st n 0
  match s.get pgOVR F.OVR_ST_CFG_KIND st with
  | 0 => false
  | 1 => true
  | 2 => lev
  | _ => lev && n % max 1 (s.get pgOVR F.OVR_ST_STROBE_PERIOD st) < s.get pgOVR F.OVR_ST_STROBE_ON st

/-- Both pins of a timed GPIO port at the level an override state gives them. -/
def gpioShow (p st n : Nat) (t : Rat) (s : State) : State :=
  let k := strand s p
  [0, 1].foldl (fun s j => placeNow (2 * p + j) (entryAt k j t (gpioLevel s st n)) (clearPin (2 * p + j) s)) s

/-- The pulse of a latch group that follows an override's shift (R213): one pulse, after the last of its ports' shifts. -/
def ovrPulse (g : Nat) (e : Rat) (s : State) : State :=
  let v := latchCfg s g (s.outs.latch.getD g {}).seq
  let e := max (onGrid e) (((pinOf s (128 + g)).queue.head?.map (·.t)).getD 0)
  sequence (128 + g) [⟨e, !latchIdle v, none⟩, ⟨e + latchPulseLen v, latchIdle v, none⟩] (clearPin (128 + g) s)

/-- The first application of an override state on a port (R213): its first edge appears within `lim` of now, in 1/16 ns. -/
def ovrApply (lim p st : Nat) (s : State) : State :=
  let k := strand s p
  let g := portGroup s p
  let n := (portNext s p).1 - 1
  let (s, v) := s.free
  let t := now16 s + v.toNat % (lim + 1)
  -- a first clock edge lies half a bit after its data
  let t0 := now16 s + v.toNat % (lim - min lim (k.tbit / 2) + 1)
  let codes := ovrCodes s k st n
  let clear := fun (s : State) => (List.range (2 * k.gang)).foldl (fun s j => clearPin (2 * p + j) s) s
  let until' := fun (u : Rat) (s : State) => updStrand s p fun k => { k with ovrUntil := u }
  -- the frame whose place on the line the override's shift takes (R127): one it cuts, or the next where its own shift does not follow
  let frame := fun (e : Rat) => if k.shifting then k.shiftFn else if shiftStart s k g (n + 1) (portNext s p).2 ≤ e then n + 1 else n
  match k.kind with
  | 1 =>
    let s := sequence (2 * p + 1) [entryAt k 1 (t0 : Nat) false] (clear s)
    let e : Rat := (t0 + k.shiftD + k.fld F.STD_ENDGAP * 16 : Nat)
    let u := if k.fld F.STD_CFG_LATPIN = 1 then e + (latchPulseLen (latchCfg s g (s.outs.latch.getD g {}).seq) : Nat) else e
    let s := beginShift p (frame u) (t0 : Nat) true codes s
    until' u (if k.fld F.STD_CFG_LATPIN = 1 then ovrPulse g e s else s)
  | 2 =>
    -- a bit in progress ends with its falling edge, and A stays low for ENDGAP
    let s := (endPulse k (2 * p) 0 s)
    let low := ((pinOf s (2 * p)).queue.head?.map (·.t)).or (pinOf s (2 * p)).last
    let t1 := max t (low.getD 0 + k.fld F.STD_ENDGAP * 16)
    let u : Rat := (t1 + k.shiftD + k.fld F.STD_ENDGAP * 16 : Nat)
    until' u (beginShift p (frame u) (t1 : Nat) true codes s)
  | 3 =>
    let per := if k.frameP = 0 then s.time.perNow else k.frameP
    if k.fld F.STD_MATRIX_P0_SERIAL = 0 then until' (t : Nat) (matrixTake p per (t : Nat) codes (clear s))
    else
      let w : Rat := (t0 + 32 * k.tbit + 160 : Nat)
      let s := [1, 2].foldl (fun s j => sequence (2 * p + j) [entryAt k j (t0 : Nat) false] s) (clear s)
      until' (w + (k.fld F.STD_MATRIX_P1_LOADW * 16 : Nat)) (matrixTake p per w codes (updStrand s p fun k => { k with lastSwitch := 0 }))
  | 4 => until' (t : Nat) (pwmTake p (if k.frameP = 0 then s.time.perNow else k.frameP) (t : Nat) codes s)
  | 5 =>
    let fn := fun (k : Strand) => if k.packet.isEmpty ∨ k.sqcFn = some k.shiftFn then n else k.shiftFn
    let s := updStrand (rdmCut p (clear s)) p fun k => { k with packetEnd := t, shown := codes, dmxSeq := none, shownFn := fn k }
    let q := (strand s p).rdm
    let s := dmxBreak p (updStrand s p fun k => { k with rdm := .idle })
    until' ((strand s p).packetEnd : Nat) (updStrand s p fun k => { k with rdm := q })
  | 6 =>
    let s := (List.range (2 * k.gang)).foldl (fun s j => if 3 ≤ j ∧ j < 3 + rowBits k then s else endPulse k (2 * p + j) j s) s
    until' (now16 s : Nat) (updStrand s p fun k => { k with noScan := true, shifting := false, codes := [] })
  | 7 => until' (t : Nat) (gpioShow p st n (t : Nat) s)
  | _ => s

/-- A port brought to the override state that now applies on it (R209 to R215), its first edge within `lim`; a calibration window on its bank ends
(R234). `quiet`: the state changed by a commit, and reaches the pins with the next frame (R226). A GPIO port, which prepares no frame, is back at the
release (DESIGN CHOICE, notes/assumptions/106.md). -/
def ovrPort (lim : Nat) (quiet : Bool) (s : State) (p : Nat) : State :=
  let k := strand s p
  let new := ovrOf s p
  if new = k.ovr then s
  else
  let s := if k.cal ∧ !quiet then calBreak s else s
  match new with
    | some st =>
      let s := refresh (pgSTD p) (updStrand s p fun k => { k with ovr := some st, ovrHold := true, ovrMark := true })
      if quiet then s else ovrApply lim p st s
    | none =>
      let holds := k.kind ≠ 7 ∧ s.get (pgSTD p) F.HDR_REQ_MODE ≠ 0 ∧ inRun s pgEDGE ∧ !(strandHolds s p).any (· < 5)
      refresh (pgSTD p) (updStrand s p fun k => { k with ovr := none, ovrEnd := s.time.ft, ovrHold := holds })

/-- The bound of R213 in 1/16 ns, and what is left of it when an input's filter accepts a change (R212). -/
abbrev ovrBound : Nat := 12000
/-- The bound from a filter's acceptance: the 16 ns of `FILTER` are part of it. -/
abbrev trigBound : Nat := 11744

/-- Every port brought to its override state. -/
def ovrUpdate (lim : Nat) (s : State) : State := (List.range 64).foldl (ovrPort lim false) s

/-- A state takes fires (R211). -/
def takesFire (s : State) (st : Nat) : Bool := s.flag pgOVR F.OVR_ST_CFG_EN st && inRun s pgOVR

/-- A state fired (R211) at an FT. -/
def ovrFire1 (t st : Nat) (s : State) : State :=
  if !takesFire s st then s.bump pgOVR F.OVR_st_REFUSED
  else
    let s := { s with outs := { s.outs with ovr := { s.outs.ovr with fireAt := s.outs.ovr.fireAt.set st (some t) } } }
    if s.outs.ovr.active.getLsbD st then s
    else
      let s := { s with outs := { s.outs with ovr := { s.outs.ovr with active := s.outs.ovr.active ||| BitVec.ofNat 8 (2 ^ st) } } }
      (s.bump pgOVR F.OVR_st_FIRES).evt pgOVR st

/-- A state released (R211) at an FT, unless its fire lies within 16 ns (R216). -/
def ovrRelease1 (t st : Nat) (s : State) : State :=
  let recent : Bool := match s.outs.ovr.fireAt.getD st none with
    | some f => decide (t ≤ f + 16 * 65536 ∧ f ≤ t + 16 * 65536)
    | none => false
  if !s.outs.ovr.active.getLsbD st ∨ recent then s
  else
    let s := { s with outs := { s.outs with ovr := { s.outs.ovr with active := s.outs.ovr.active &&& ~~~(BitVec.ofNat 8 (2 ^ st)) } } }
    (s.bump pgOVR F.OVR_st_RELEASES).evt pgOVR (8 + st)

/-- The states of a mask, each once, lowest first. -/
def maskBits (m : Nat) : List Nat := (List.range 8).filter fun i => m / 2 ^ i % 2 = 1

/-- States fired together (R211, R216). -/
def ovrFire (mask : Nat) (s : State) : State := ovrUpdate ovrBound ((maskBits mask).foldl (fun s st => ovrFire1 s.time.ft st s) s)
/-- States released together. A state that a trigger's active level fired stays released while that level stays (DESIGN CHOICE,
notes/assumptions/105.md). -/
def ovrRelease (mask : Nat) (s : State) : State := ovrUpdate ovrBound ((maskBits mask).foldl (fun s st => ovrRelease1 s.time.ft st s) s)

/-- Input TRIGk is at its active level (R212). -/
def trigActive (s : State) (k : Nat) : Bool := s.outs.ovr.trig.getD k false != s.flag pgOVR F.OVR_TRIG_POL k

/-- Input TRIGk fires its state by its level (R211). -/
def trigHot (s : State) (k : Nat) : Bool := s.flag pgOVR F.OVR_TRIG_EN k && s.flag pgOVR F.OVR_TRIG_LEVEL k && trigActive s k

/-- TRIG_FILTER_ACCEPT (R211, R212): input TRIGk's change to a level is accepted, and counts at the instant the input first changed. -/
def trigAccept (k : Nat) (level : Bool) (s : State) : State :=
  if s.outs.ovr.trig.getD k false = level then s
  else
    let s := { s with outs := { s.outs with ovr := { s.outs.ovr with trig := s.outs.ovr.trig.set k level } } }
    if !s.flag pgOVR F.OVR_TRIG_EN k then s
    else
      let s := (s.bump pgOVR F.OVR_st_TRIGEDGES).evt pgOVR (16 + k)
      let st := s.get pgOVR F.OVR_TRIG_STATE k
      let t := s.time.ft - s.get pgOVR F.OVR_TRIG_FILTER k * 65536
      if trigActive s k then ovrUpdate trigBound (ovrFire1 t st s)
      else if s.flag pgOVR F.OVR_TRIG_LEVEL k then ovrUpdate trigBound (ovrRelease1 t st s)
      else s

/-- A write of TRIGk: an input already at its active level fires its state from then on (R211). -/
def trigWritten (k : Nat) (old s : State) : State :=
  let st := s.get pgOVR F.OVR_TRIG_STATE k
  if trigHot s k ∧ !(trigHot old k && old.get pgOVR F.OVR_TRIG_STATE k = st) then ovrFire (2 ^ st) s else s

/-- Inputs at their active level whose state takes fires from a commit on (R211). -/
def trigCommitted (old s : State) : State :=
  (List.range 8).foldl (fun s k =>
    let st := s.get pgOVR F.OVR_TRIG_STATE k
    if trigHot s k ∧ takesFire s st ∧ !takesFire old st then ovrFire (2 ^ st) s else s) s

/-- A commit that changes which active state selects a port: it reaches the pins with the next frame (R226). -/
def ovrCommitted (old s : State) : State :=
  let top := fun (x : State) p => [7, 6, 5, 4, 3, 2, 1, 0].find? fun st => x.outs.ovr.active.getLsbD st && ovrSelects x st p
  (List.range 64).foldl (fun s p => if top old p = top s p then s else ovrPort ovrBound true s p) s

/-- OVR left RUN by a commit: every active state is released (R225). -/
def ovrLeft (old s : State) : State := if s.get pgOVR F.HDR_REQ_MODE = 2 ∨ old.get pgOVR F.HDR_REQ_MODE ≠ 2 ∨ s.outs.ovr.active = 0 then s else
  ovrUpdate ovrBound ((maskBits 255).foldl (fun s st => if s.outs.ovr.active.getLsbD st then
    ovrRelease1 s.time.ft st { s with outs := { s.outs with ovr := { s.outs.ovr with fireAt := s.outs.ovr.fireAt.set st none } } } else s) s)

/-! ### The latch (R26, R179, R185) -/

/-- What a port does at latch(n) with frame n in the modes that take a frame up at the latch (R25). A DMX port that is not prepared counts a
skip too (DESIGN CHOICE, notes/assumptions/82.md). -/
def showFrame (p n : Nat) (seq : Word) (t : Rat) (s : State) : State :=
  let k := strand s p
  let take := fun (codes : List Nat) (s : State) =>
    match k.kind with
    | 3 => matrixTake p (gridPeriod s seq) t codes s
    | 4 => pwmTake p (gridPeriod s seq) t codes s
    | 5 => updStrand s p fun k => { k with shown := codes, shownFn := n, dmxSeq := none }
    | _ => s
  if k.kind = 6 then panelLatch p n (gridPeriod s seq) t s
  else if k.kind = 7 then (match k.ovr with | some st => gpioShow p st n t s | none => s)
  else if k.kind ≠ 3 ∧ k.kind ≠ 4 ∧ k.kind ≠ 5 then s
  else match contentOf s p n seq with
    | .none => s
    | .skip nf =>
      -- at latch(M) a port that continues with its old values takes up the new period (R59)
      let s := if (k.kind = 3 ∨ k.kind = 4) ∧ !k.shown.isEmpty ∧ gridPeriod s seq ≠ k.frameP then take k.shown s else s
      sqcPort p n 1 (fun _ => []) (skipFrame p n nf s)
    | .codes c => take c (if testShown k then sent p n (pipelineBack p s) else s)
    | .prepared =>
      let s := pipelineBack p s
      -- a DMX port copies the frame at its next packet's break (R199)
      if k.kind = 5 then updStrand (sent p n s) p fun k => { k with dmxSeq := some seq, shownCfg := k.cfg }
      else
        let (s, c) := readWords p k seq s
        take c (sent p n s)

/-- A dark-out's progress at a latch, and the taking up of a new mode (R26, R185): a port that leaves RUN or TEST for OFF, or that a
THERMAL hold stops, first goes dark. -/
def darkStep (p : Nat) (s : State) : State :=
  let k := strand s p
  let shifts := k.kind = 1 || k.kind = 2 || k.kind = 6
  match k.dark with
  | .showing =>
    if k.kind = 5 then s
    else if k.kind = 6 ∧ !(pinOf s (2 * p + 1)).queue.isEmpty then
      -- GCLK stops, and the pins are released once LAT's pulse has ended
      updStrand (endPulse k (2 * p + 2) 2 s) p fun k => { k with noScan := true, dark := .ending }
    else takeUp p s
  | .ending => if k.kind = 5 then s else takeUp p s
  | .due => if shifts then takeUp p s else updStrand s p fun k => { k with dark := .showing }
  | .none =>
    -- a calibration window on the bank does not end RUN (R169)
    let toOff := (s.get (pgSTD p) F.HDR_REQ_MODE = 0 && (effMode s (pgSTD p) = k.mode || s.get (pgSTD p) F.HDR_EFF_HOLD = 9)) || k.darkDue
    if 2 ≤ k.mode ∧ toOff ∧ k.kind ≠ 7 ∧ k.kind ≠ 0 then
      updStrand s p fun k => { k with dark := if shifts then .showing else .due, darkDue := false }
    else takeUp p s

/-- LATCH_PULSE: latch(n) of a group (R179), with what its ports show, go dark with or take up there. A group whose latch(N) has fired in
frame N + 1, or in the gap after N, has none until the next frame (R59). -/
def latchPulse (g : Nat) (s : State) : State :=
  let lt := s.outs.latch.getD g {}
  let (nf, ns) := nextLatch s
  if !s.boot.outEn ∨ lt.seq = ns then s
  else
    let t := latchRat s g lt.fn lt.seq
    let v := latchCfg s g lt.seq
    let i := 128 + g
    let on := latchEn v && inRun s pgEDGE && (pinOf s i).level.isSome && !s.pwr.groupsAsleep.getD g false
    let s := if on then placeNow i ⟨onGrid t, !latchIdle v, none⟩ s else s
    let at' := if bankHeld s (bankOf i) then onGrid t else (pinOf s i).last.getD (onGrid t)
    let ports := (List.range 64).filter fun p => portGroup s p = g && (strand s p).latched ≠ some lt.seq
    let s := ports.foldl (fun s p =>
      updStrand (darkStep p (showFrame p lt.fn lt.seq t s)) p fun k => { k with latched := some lt.seq }) s
    let s := { s with outs := { s.outs with latch := s.outs.latch.set g ⟨nf, ns, on, at', v⟩ } }
    ovrUpdate ovrBound (settleLatch g s)

/-- LATCH_PULSE_END: LATCHg returns to its inactive level (R179); a group whose EN was cleared releases its pin. -/
def latchPulseEnd (g : Nat) (s : State) : State :=
  let lt := s.outs.latch.getD g {}
  if !lt.high then s
  else
    let s := placeNow (128 + g) ⟨lt.at' + latchPulseLen lt.cfg, latchIdle lt.cfg, none⟩ s
    settleLatch g { s with outs := { s.outs with latch := s.outs.latch.set g { lt with high := false } } }

/-! ### Frames (R18 to R24) -/

/-- STRAND_PREPARED (R22): every word of the strand is written. -/
def strandPrepared (p : Nat) (s : State) : State :=
  let k := strand s p
  if !preparesOn s ∨ !s.outs.preparing ∨ !takesFrames s p ∨ k.spoiled ∨ k.pos ≠ s.get pgMAP F.MAP_SEG_COUNT p ∨ k.prep.contains s.time.seq then s
  else
    let s := updStrand s p fun k => { k with prep := s.time.seq :: k.prep }
    let all := (List.range 64).all fun q => !takesFrames s q || (strand s q).prep.contains s.time.seq
    if all then { s with outs := { s.outs with prepEnd := some s.time.ft } } else s

/-- A frame's preparation begun at FS (R18, R22): whatever was unfinished is abandoned. -/
def strandsAtFs (s : State) : State :=
  let one := fun (k : Strand) => { k with pos := 0, spoiled := false, prep := k.prep.filter (· = s.time.seq - 1), idx := if k.kind = 7 then 0 else k.idx }
  { s with outs := { s.outs with strands := s.outs.strands.map one, preparing := preparesOn s, prepEnd := none } }

/-- The frames of the interval that ends at this FS with an override on a port (R224). -/
def ovrFrames (s : State) : State :=
  (List.range 64).foldl (fun s p =>
    let k := strand s p
    let s := if k.ovrMark ∨ k.ovr.isSome then s.bump (pgSTD p) F.STD_st_OVRFRAMES else s
    if k.ovrMark then updStrand s p fun k => { k with ovrMark := false } else s) s

/-- The THERMAL holds that the sweep's result places and ends at an FS (R153). -/
def thermalAtFs (s : State) : State :=
  let h := cutHolds s
  (List.range 64).foldl (fun s p =>
    let on := h.contains p
    if (strand s p).thermal = on then s
    else
      let ran := 2 ≤ effMode s (pgSTD p)
      refresh (pgSTD p) (updStrand s p fun k => { k with thermal := on, darkDue := on ∧ ran })) s

/-! ### Meanings -/

/-- STRAND_PREPARED (R22). -/
def execStrandPrepared (strand : Fin 64) (s : State) := act (strandPrepared strand) s
/-- SHIFT_START (R178). -/
def execShiftStart (strand : Fin 64) (s : State) := act (shiftBegin strand) s
/-- SHIFT_END (R186). -/
def execShiftEnd (strand : Fin 64) (ret : List Bool) (seen : Option (List Nat)) (s : State) := act (shiftEnd strand ret seen) s
/-- LATCH_PULSE_END (R179). -/
def execLatchPulseEnd (grp : Fin 16) (s : State) := act (latchPulseEnd grp) s
/-- EDGE_PLACE (R167): a pin, and the slots that the sampler read of a DMX packet where they differ from what was sent. -/
def execEdgePlace (place : Fin 144 × Option (List Byte)) (s : State) := act (edgePlace place.1 place.2) s
/-- PIN_CHECK_SAMPLE (R172). -/
def execPinCheckSample (pin : Fin 144) (seen : Bool) (s : State) := act (pinCheck pin seen) s
/-- WORD_READ_MISS (R176). -/
def execWordReadMiss (strand : Fin 64) (word : Nat) (s : State) := act (wordMiss strand word) s
/-- MATRIX_SWITCH (R192). -/
def execMatrixSwitch (strand : Fin 64) (s : State) := act (matrixSwitch strand) s
/-- PWM_PERIOD_START (R196). -/
def execPwmPeriodStart (strand : Fin 64) (s : State) := act (pwmPeriodStart strand) s
/-- DMX_BREAK (R199). -/
def execDmxBreak (strand : Fin 64) (s : State) := act (dmxBreak strand) s
/-- RDM_RESPONSE_TIMEOUT (R202). -/
def execRdmResponseTimeout (strand : Fin 64) (s : State) := act (rdmTimeout strand) s
/-- RDM_RECEPTION_END (R201). -/
def execRdmReceptionEnd (strand : Fin 64) (data : List Byte) (framing : Bool) (s : State) := act (rdmEnd strand data framing) s
/-- RDM_MARK_END (R201). -/
def execRdmMarkEnd (strand : Fin 64) (s : State) := act (rdmMarkEnd strand) s
/-- PANEL_ROW_SLOT (R205). -/
def execPanelRowSlot (strand : Fin 64) (s : State) := act (panelSlot strand) s
/-- GPIO_PULSE (R207). -/
def execGpioPulse (strand : Fin 64) (s : State) := act (gpioPulse strand) s
/-- TRIG_FILTER_ACCEPT (R212). -/
def execTrigFilterAccept (input : Fin 8) (level : Bool) (s : State) := act (trigAccept input level) s

end Sys2Proof.Machine
end

