-- ==== Sys2Proof/Machine/Calib.lean ====
section
/-!
DEFINITION. Calibration of the placers and of the converter, and the converter's groups (R228 to R252).
-/
namespace Sys2Proof.Machine
open Sys2Proof

/-! ### Records in the boot records area (R406, R526, R542) -/

/-- The MRAM offset of copy A or B of a kind of record: 0 accounting, 1 lifetime, 2 copy journal, 3 discovery. -/
def recordPlace (kind : Nat) (copyB : Bool) : Nat := 0xFC0000 + (Config.recordPage % 48 + 2 * kind + copyB.toNat) * 0x1000

/-- A record sealed with the CRC-32 of R126 over what precedes it. -/
def sealRecord (b : List Byte) : List Byte := b ++ leBytes 4 (crc32 b).toNat

/-- A record of `n` bytes is whole: its MAGIC and its CRC are right. -/
def recordValid (magic : Nat) (n : Nat) (b : List Byte) : Bool :=
  beVal (slice b 0 4) = magic && leVal (slice b (n - 4) 4) = (crc32 (b.take (n - 4))).toNat

/-- The two copies of a record, read as the device's own reads. -/
def readCopies (kind n : Nat) (s : State) : State × Option (List Byte) × Option (List Byte) :=
  let (s, a) := mramRead (recordPlace kind false) n s
  let (s, b) := mramRead (recordPlace kind true) n s
  (s, a, b)

/-- Of two copies, the valid one with the higher RSEQ, and whether it is copy B. -/
def newerCopy (magic n : Nat) (a b : Option (List Byte)) : Option (List Byte × Bool) :=
  let ok := fun (x : Option (List Byte)) => match x with | some l => recordValid magic n l | none => false
  let rseq := fun (x : Option (List Byte)) => leVal (slice (x.getD []) 4 4)
  match ok a, ok b with
  | false, false => none
  | true, false => a.map (·, false)
  | false, true => b.map (·, true)
  | true, true => if rseq a < rseq b then b.map (·, true) else a.map (·, false)

/-- The calibration state changed. -/
def updCal (s : State) (f : CalState → CalState) : State := { s with cal := f s.cal }

/-! ### Tables and their age (R236, R237, R249) -/

/-- The die temperature. -/
def dieTemp (s : State) : Fl := ofHalf (s.get pgADC F.ADC_DIETEMP_TEMP)

/-- A bank is calibrated (R236): its tables are of a run or stored, made at most 60 s ago, within 10 °C of the present die. -/
def calibrated (s : State) (b : Nat) : Bool :=
  s.get pgCAL F.CAL_BANKSTAT_SRC b ≠ 0 &&
  (match s.cal.madeAt.getD b none with | some t => s.time.ft ≤ t + 60 * secUnits | none => false) &&
  decide (abs ((dieTemp s).val - signed 8 (s.get pgCAL F.CAL_BANKSTAT_TEMP b)) ≤ 10)

/-- A bank's CALIB brought up to date; a change from 1 to 0 sets STALE (R236). -/
def calRefresh (s : State) (b : Nat) : State :=
  let was := s.flag pgCAL F.CAL_BANKSTAT_CALIB b
  let now := calibrated s b
  let s := s.set pgCAL F.CAL_BANKSTAT_CALIB now.toNat b
  s.evtIf (was && !now) pgCAL 3

/-- A bank's tables made now, from a source (R236, R248). -/
def tablesMade (b src temp : Nat) (s : State) : State :=
  let s := (s.set pgCAL F.CAL_BANKSTAT_SRC src b).set pgCAL F.CAL_BANKSTAT_TEMP temp b
  calRefresh (updCal s fun c => { c with madeAt := c.madeAt.set b (some s.time.ft) }) b

/-- The die temperature as BANKSTAT holds it: whole °C. -/
def dieByte (s : State) : Nat := toField 8 (clampInt (-128) 127 (openRound 700 (dieTemp s).val))

/-- A bank's tables in force, made at an FT. -/
def tablesLoad (b t : Nat) (l : List TapTab) (s : State) : State :=
  updCal s fun c => { c with tabs := ((bankPins b).zip l).foldl (fun m (i, x) => amSet m i x) c.tabs, madeAt := c.madeAt.set b (some t) }

/-- The MRAM offset of a bank's calibration record (R237). -/
def calPlace (b : Nat) : Nat := 0xFC0000 + (Config.recordPage % 48 + 8 + b) * 0x1000

/-- The bytes of a bank's record (R237): MAGIC "CZCT", bank, die temperature, two zeros, the FT of the run in 2^-16 ns, and for each of the 36 placers
its 16 remapping entries and 32 widths; the layout is the model's (DESIGN CHOICE, notes/assumptions/88.md). -/
def calBytes (b temp t : Nat) (l : List TapTab) : List Byte :=
  sealRecord (beBytes 4 0x435A4354 ++ leBytes 1 b ++ leBytes 1 temp ++ [0, 0] ++ leBytes 16 t ++
    l.flatMap fun x => x.remap.flatMap (leBytes 1) ++ x.width.flatMap (leBytes 2))

/-- A bank's record written to the boot records area (R237, R421). -/
def calStore (b temp : Nat) (l : List TapTab) (s : State) : State := internalProg (calPlace b) (calBytes b temp s.time.ft l) s

/-- The tables of a record's bytes. -/
def calTables (r : List Byte) : List TapTab :=
  (List.range 36).map fun j =>
    let o := 24 + 80 * j
    ⟨(List.range 16).map fun i => fieldAt r (o + i) 1, (List.range 32).map fun i => fieldAt r (o + 16 + 2 * i) 2⟩

/-- The stored tables of a bank, loaded by a warm start where a valid record exists (R237). -/
def storedBank (b : Nat) (s : State) : State :=
  match mramRead (calPlace b) 2908 s with
  | (s, some r) =>
    if !recordValid 0x435A4354 2908 r then s
    else calRefresh ((s.set pgCAL F.CAL_BANKSTAT_SRC 1 b).set pgCAL F.CAL_BANKSTAT_TEMP (fieldAt r 5 1) b |> tablesLoad b (fieldAt r 8 16) (calTables r)) b
  | (s, none) => s

/-! ### Runs (R229 to R235) -/

/-- `CAL.STAT` brought up to date. -/
def calStat (s : State) : State :=
  match s.cal.run with
  | some r => s.setReg pgCAL 0x050 (BitVec.ofNat 32 (1 + r.bank * 16 + r.windows * 256))
  | none => s.setReg pgCAL 0x050 0

/-- A run of a bank begun (R235). -/
def calBegin (b : Nat) (s : State) : State := calStat (updCal s fun c => { c with run := some { bank := b } })

/-- The run in progress ended; a request that waits begins (R235). -/
def calOver (s : State) : State :=
  let s := updCal s fun c => { c with run := none }
  match s.cal.waiting with
  | b :: t => calBegin b (updCal s fun c => { c with waiting := t })
  | [] => calStat s

/-- A run requested (R235, R247): CAL in RUN begins it, or it waits for the run in progress, two of one bank merged. -/
def calRequest (b : Nat) (s : State) : State :=
  if !inRun s pgCAL then s
  else if s.cal.run.isSome then (if s.cal.waiting.contains b then s else updCal s fun c => { c with waiting := c.waiting ++ [b] })
  else calBegin b s

/-- A bank takes part in periodic and temperature-triggered runs: its bit of BANKEN is 1 and its domain is on (R235). -/
def calTakes (s : State) (b : Nat) : Bool :=
  s.get pgCAL F.CAL_CTL_BANKEN / 2 ^ b % 2 = 1 && domainOn s (if b < 2 then 12 else 13)

/-- CAL_RUN_START: the turn of R235, or the temperature trigger of a bank. -/
def calRunStart (trigger : Option Nat) (s : State) : State :=
  if !s.flag pgCAL F.CAL_CTL_AUTO ∨ !inRun s pgCAL then s
  else match trigger with
    | none =>
      let t := s.cal.turn
      match [t + 1, t + 2, t + 3, t + 4].find? fun b => calTakes s (b % 4) with
      | some b => calRequest (b % 4) (updCal s fun c => { c with turn := b % 4 })
      | none => s
    | some b =>
      let lim := s.get pgCAL F.CAL_TEMPTRIG
      let moved := abs ((dieTemp s).val - signed 8 (s.get pgCAL F.CAL_BANKSTAT_TEMP b))
      if lim ≠ 0 ∧ (lim : Rat) < moved ∧ calTakes s b then calRequest b s else s

/-- A run abandoned (R233, R247): the tables in force stay. -/
def calAbandon (s : State) : State :=
  if s.cal.run.isNone then s
  else
    let s := if s.cal.window then calBreak s else s
    calOver (s.evt pgCAL 2)

/-- CAL has left RUN: a run in progress is abandoned and none waits (R247). -/
def calLeft (s : State) : State :=
  if inRun s pgCAL then s else calAbandon (updCal s fun c => { c with waiting := [] })

/-- A run rejected (R230, R231): EVT.REJECT and, with a failing placer, fault HISTO with its pin. -/
def calReject (pin : Nat) (s : State) : State :=
  calOver (((s.bump pgCAL F.CAL_st_REJECTS).evt pgCAL 1).fault pgCAL 0x40 pin 0)

/-- The frame whose window this would be is followed by the gap of R59 or R60. -/
def afterGap (s : State) : Bool :=
  s.time.gapM.isSome ||
  (match s.time.ended with
   | some (_, t) => 0 < s.time.fn && fsOf s (s.time.fn - 1) < t && t ≤ fsOf s s.time.fn
   | none => false)

/-- The LATCH pins that a bank's window waits for (R232): those of the groups of its ports that are not OFF, and its own with EN 1. -/
def relevantLatch (s : State) (b g : Nat) : Bool :=
  (g / 4 = b && s.flag pgEDGE F.EDGE_LATCFG_EN g) ||
  (List.range 16).any fun k => s.get (pgSTD (16 * b + k)) F.HDR_REQ_MODE ≠ 0 && portGroup s (16 * b + k) = g

/-- A (R232): the instant in 1/16 ns at which a bank's window opens in the frame that follows FS(N+1), the frame start last fired. -/
def windowAt (s : State) (b : Nat) : Nat :=
  let ends := (List.range 16).filterMap fun g =>
    if relevantLatch s b g then
      let v := latchCfg s g (s.time.seq - 1)
      some (onGrid (latchRat s g (s.time.fn - 1) (s.time.seq - 1)) + if latchEn v then latchPulseLen v else 0)
    else none
  ends.foldl max (s.time.fsGrid / 4096) + s.get pgCAL F.CAL_WINGUARD_GUARD * 16

/-- A window cannot open in this frame (R233). -/
def windowDeferred (s : State) (b : Nat) : Bool :=
  let a := windowAt s b
  ((List.range 16).any fun k =>
    let q := 16 * b + k
    let p := strand s q
    p.kind = 5 && (p.rdm = .listening || (p.rdm = .sending && !s.flag (pgSTD q) F.STD_RDMCTL_BCAST && p.packetEnd < a + 256000))) ||
  fsOf s (s.time.fn + 1) ≤ (a + 256000) * 4096 + leadUnits s ||
  afterGap s || !domainOn s (if b < 2 then 12 else 13)

/-- CAL_WINDOW_OPEN (R231 to R233): the bank's one window of this frame opens at A, or the frame is deferred; the apply window loads the new tables.
Before output enable no frame has a window. -/
def windowOpen (s : State) : State :=
  match s.cal.run with
  | none => s
  | some r =>
    let q := some s.time.seq
    let t := windowAt s r.bank
    if s.cal.window ∨ (r.windows = 63 ∧ r.tables.isNone) ∨ !s.boot.outEn ∨ s.time.gapM.isSome ∨ r.frame = q ∨ t + 256000 ≤ now16 s then s
    else if windowDeferred s r.bank then
      let s := s.bump pgCAL F.CAL_st_DEFERRED
      if 256 ≤ r.defers + 1 then calAbandon s
      else updCal s fun c => { c with run := some { r with defers := r.defers + 1, frame := q } }
    else
      let s := updCal s fun c => { c with run := some { r with defers := 0, frame := q }, window := true, prev := c.tabs }
      let s := match r.tables with
        | some l => updCal s fun c => { c with tabs := ((bankPins r.bank).zip l).foldl (fun m (i, x) => amSet m i x) c.tabs }
        | none => s
      let s := (List.range 16).foldl (fun s k => updStrand s (16 * r.bank + k) fun k => { k with cal := true }) s
      refreshStrands ((bankPins r.bank).foldl (fun s i => updPin s i fun p => { p with window := some (t, t + 256000) }) s)

/-- A placer's hits in one window: at most the 750 edges launched into it (R229). -/
def windowHits (h : List Nat) : List Nat := if h.sum ≤ 750 then h.take 32 else []

/-- The logical widths of an apply window stand (R231): each from 20 ps to 110 ps of its window's hits. -/
def widthsStand (hits : List Nat) : Bool :=
  let n := ((List.range 16).map fun i => hits.getD i 0).sum
  0 < n && (List.range 16).all fun i => 20 * n ≤ 1000 * hits.getD i 0 && 1000 * hits.getD i 0 ≤ 110 * n

/-- CAL_WINDOW_CLOSE (R229 to R231): `hits` holds, for each of the bank's 36 placers, the hits of this window per physical tap, in the
apply window per logical tap. -/
def windowClose (hits : List (List Nat)) (s : State) : State :=
  match s.cal.run with
  | none => s
  | some r =>
    if !s.cal.window then s
    else
      let b := r.bank
      let hits := hits.map windowHits
      let fails := (List.range 36).filter fun j => !widthsStand (hits.getD j [])
      let good := r.tables.isNone || fails.isEmpty
      -- tables that do not stand are restored before the window closes
      let s := if good then s else updCal s fun c => { c with tabs := c.prev }
      let s := (windowShut false s).bump pgCAL F.CAL_st_WINDOWS
      match r.tables with
      | none =>
        let add := (List.range 36).map fun j => (List.range 32).map fun k => (r.hits.getD j []).getD k 0 + (hits.getD j []).getD k 0
        calStat (updCal s fun c => { c with run := some { r with windows := r.windows + 1, hits := add, defers := 0 } })
      | some l =>
        if !good then calReject ((bankPins b).getD (fails.headD 0) 0) s
        else
          let temp := dieByte s
          let s := tablesMade b 2 temp (((calStore b temp l s).bump pgCAL F.CAL_st_RUNS).evt pgCAL 0)
          calOver s

/-- The widths of a placer's taps in ps from its hits (R230). -/
def tapWidths (h : List Nat) : List Rat :=
  let n : Nat := h.sum
  if n = 0 then h.map fun _ => 0 else h.map fun x => (1000 * x : Nat) / (n : Rat)

/-- The boundaries b_0 to b_31 of taps of given widths (R230). -/
def tapBounds (w : List Rat) : List Rat := (List.range 32).map fun k => (w.take k).sum

/-- The physical tap nearest a logical tap's target, the lowest on a tie (R230). -/
def nearestTap (b : List Rat) (i : Nat) : Nat :=
  let d := fun k => abs (b.getD k 0 - (i : Rat) * (125 / 2))
  (List.range 32).foldl (fun best k => if d k < d best then k else best) 0

/-- A placer's table from its hits, or none where it fails a test of R230. -/
def tapCompute (h : List Nat) : Option TapTab :=
  let w := tapWidths h
  let b := tapBounds w
  let m := (List.range 16).map (nearestTap b)
  let near := (List.range 16).all fun i => decide (abs (b.getD (m.getD i 0) 0 - (i : Rat) * (125 / 2)) ≤ 45)
  if 40000 ≤ h.sum ∧ w.all (fun x => decide (x ≤ 90)) ∧ near then
    some ⟨m, w.map fun x => (openRound 701 (16 * x)).toNat⟩
  else none

/-- CAL_TABLE_COMPUTE_DONE (R230): the tables of all 36 placers, or the run is rejected. -/
def calCompute (s : State) : State :=
  match s.cal.run with
  | none => s
  | some r =>
    if r.windows ≠ 63 ∨ r.tables.isSome ∨ s.cal.window then s
    else
      let l := (List.range 36).map fun j => ((bankPins r.bank).getD j 0, tapCompute (r.hits.getD j []))
      match l.find? (·.2.isNone) with
      | some (pin, _) => calReject pin s
      | none => updCal s fun c => { c with run := some { r with tables := some (l.filterMap (·.2)) } }

/-! ### The converter (R238 to R244) -/

/-- The ADC converts (R250): RUN or TEST. -/
def adcOn (s : State) : Bool := runTest s pgADC

/-- The channels of a mask, ascending (R238). -/
def channelsOf (m : Nat) : List Nat := (List.range 16).filter fun c => m / 2 ^ c % 2 = 1

/-- `OFFSET` and `GAIN` in force: the last accepted calibration's, else the fuses' (R243). -/
def adcWords (s : State) : Int × Nat := s.cal.words.getD (Config.fuseOffset.toInt, Config.fuseGain.toNat)

/-- A start refused (R239). -/
def adcRefuse (s : State) : State := (s.bump pgADC F.ADC_st_OVERRUNS).evt pgADC 5

/-- A calibration of the converter begun (R240); one in progress continues. -/
def adcCalBegin (s : State) : State :=
  if !adcOn s ∨ s.cal.adcCal then s else updCal s fun c => { c with adcCal := true, adcDue := false, starved := false }

/-- The calibration that a warm start owes is begun while no group converts (R243). -/
def adcIdle (s : State) : State := if s.cal.adcDue ∧ s.cal.conv.isNone then adcCalBegin s else s

/-- A group's conversion begun now (R239, R242). -/
def groupBegin (g : Nat) (s : State) : State :=
  let w := adcWords s
  updCal s fun c => { c with conv := some (g, s.st, channelsOf (s.get pgADC F.ADC_GRP_MASK g), 0, w.1, w.2), pend := none }

/-- A start of a group (R238, R239, R250); false: refused. -/
def groupStart (g : Nat) (s : State) : State × Bool :=
  if !adcOn s ∨ s.get pgADC F.ADC_GRP_MASK g = 0 then (adcRefuse s, false)
  else match s.cal.conv with
    | none => (groupBegin g s, true)
    | some (h, _) =>
      if h = g ∨ s.cal.pend.isSome then (adcRefuse s, false)
      else (updCal s fun c => { c with pend := some g }, true)

/-- A write of ADC.GRPSTART (R251). -/
def grpStart (v : Word) (s : State) : State :=
  ((List.range 4).filter fun g => v.getLsbD g).foldl (fun s g => (groupStart g s).1) s

/-- The corrected code of a raw result (R241). -/
def corrected (offset : Int) (gain raw : Nat) : Nat :=
  (clampInt 0 4095 (((16 * (raw : Int) - offset) * gain + 131072) / 262144)).toNat

/-- ADC_SAMPLE (R238): the channel in the next position is converted; in TEST the zero reference in its place (R250), whose code nothing states. -/
def adcSample (raw : Nat) (s : State) : State :=
  match s.cal.conv with
  | none => s
  | some (g, st, chs, i, off, gain) =>
    match chs[i]? with
    | none => s
    | some ch =>
      let at' := st + BitVec.ofNat 32 (40 + i * 500)
      let x := s.time.ft - (s.st - at').toNat % 2 ^ 31 * 65536
      let (s, raw) := if effMode s pgADC = 3 then (let (s, v) := s.free; (s, v.toNat % 4096)) else (s, raw)
      let s := s.setReg pgADC (0x080 + 8 * ch) (BitVec.ofNat 32 (corrected off gain raw + raw % 4096 * 0x10000 + 0x80000000))
      let s := (s.setReg pgADC (0x084 + 8 * ch) at').bump pgADC F.ADC_st_CONVS
      updCal s fun c => { c with conv := some (g, st, chs, i + 1, off, gain), convAt := c.convAt.set ch (some (s.time.ft, x)) }

/-- ADC_GROUP_END (R239): after the last sample; a pending start begins. -/
def groupEnd (s : State) : State :=
  match s.cal.conv with
  | none => s
  | some (g, _, chs, i, _, _) =>
    if i < chs.length then s
    else
      let s := (updCal s fun c => { c with conv := none }).evt pgADC g
      match s.cal.pend with
      | some h => groupBegin h s
      | none => adcIdle s

/-- The median of an odd number of values. -/
def median (l : List Int) : Int := (l.insertionSort (· ≤ ·)).getD (l.length / 2) 0

/-- ADC_CAL_END (R240): the sums of the 31 zero pairs and of the 31 full-scale pairs, each twice a pair value. -/
def adcCalEnd (zero full : List Int) (s : State) : State :=
  if !s.cal.adcCal ∨ s.cal.conv.isSome ∨ zero.length ≠ 31 ∨ full.length ≠ 31 then s
  else
    let s := updCal s fun c => { c with adcCal := false }
    let z := median zero
    let d := median full - z
    if z.natAbs ≤ 128 ∧ 7000 ≤ d ∧ d ≤ 7800 then
      let gain := (roundHalfUp (16384 * (36864 / 10 : Rat) * 2 / (d : Rat))).toNat
      (updCal s fun c => { c with words := some (8 * z, gain) }).bump pgADC F.ADC_st_CALS |>.evt pgADC 4
    else s.evt pgADC 6

/-- ADC_CAL_STARVE (R240): the calibration continues. -/
def adcCalStarve (s : State) : State :=
  if !s.cal.adcCal ∨ s.cal.starved then s else (updCal s fun c => { c with starved := true }).evt pgADC 7

/-- ADC after a change of its mode: out of RUN and TEST calibration stops (R250); in them one that is due begins (R243). -/
def adcLeft (s : State) : State := if adcOn s then adcIdle s else updCal s fun c => { c with adcCal := false }

/-- A write of ADC.CALCTL.NOW. -/
def calNow (s : State) : State := adcCalBegin s

/-- DIE_TEMP_CONVERSION (R244). -/
def dieConversion (temp : Nat) (s : State) : State :=
  let s := (s.set pgADC F.ADC_DIETEMP_TEMP temp).set pgADC F.ADC_DIETEMP_VALID 1
  [0, 1, 2, 3].foldl calRefresh (updCal s fun c => { c with dieAt := some s.time.ft })

/-! ### Meanings -/

/-- CAL_RUN_START (R235). -/
def execCalRunStart (trigger : Option (Fin 4)) (s : State) := act (calRunStart (trigger.map (·.val))) s
/-- CAL_RUNNOW (R235): a write of CAL.CTL.RUNNOW. -/
def execCalRunnow (bank : Fin 4) (s : State) := act (fun s => calRequest bank (s.set pgCAL F.CAL_CTL_BANKSEL bank)) s
/-- CAL_WINDOW_OPEN (R232). -/
def execCalWindowOpen (s : State) := act windowOpen s
/-- CAL_WINDOW_CLOSE (R229). -/
def execCalWindowClose (hits : List (List Nat)) (s : State) := act (windowClose hits) s
/-- CAL_TABLE_COMPUTE_DONE (R230). -/
def execCalTableComputeDone (s : State) := act calCompute s
/-- CAL_STALE (R236). -/
def execCalStale (bank : Fin 4) (s : State) := act (fun s => calRefresh s bank) s
/-- ADC_GROUP_START (R238). -/
def execAdcGroupStart (g : Fin 4) (s : State) := act (fun s => (groupStart g s).1) s
/-- ADC_GRPSTART (R251). -/
def execAdcGrpstart (v : Word) (s : State) := act (grpStart v) s
/-- ADC_SAMPLE (R238). -/
def execAdcSample (raw : BitVec 12) (s : State) := act (adcSample raw.toNat) s
/-- ADC_GROUP_END (R239). -/
def execAdcGroupEnd (s : State) := act groupEnd s
/-- ADC_CAL_START (R240). -/
def execAdcCalStart (s : State) := act (fun s => if s.flag pgADC F.ADC_CALCTL_AUTO then adcCalBegin s else s) s
/-- ADC_CAL_END (R240). -/
def execAdcCalEnd (zero full : List Int) (s : State) := act (adcCalEnd zero full) s
/-- ADC_CAL_STARVE (R240). -/
def execAdcCalStarve (s : State) := act adcCalStarve s
/-- DIE_TEMP_CONVERSION (R244). -/
def execDieTempConversion (temp : Half) (s : State) := act (dieConversion temp.toNat) s

end Sys2Proof.Machine
end

