-- ==== Sys2Proof/Machine/Trig.lean ====
section
/-!
DEFINITION. The sixteen time triggers (R56, R57, R62), and what a step of FT does to them (R60).
-/
namespace Sys2Proof.Machine
open Sys2Proof

/-- Trigger `n`. -/
def trigOf (s : State) (n : Nat) : Trig := s.time.trig.getD n {}
/-- A trigger changed. -/
def updTrig (s : State) (n : Nat) (f : Trig → Trig) : State := updTime s fun t => { t with trig := updAt t.trig n f }

/-- A firing delivered to its target, or its instant dropped and counted (R56, R57): a start that the converter refuses, or a target that
has yet to accept the firing before. -/
def deliver (n : Nat) (s : State) : State :=
  let i := s.get pgTIME F.TIME_TRGCFG_INDEX n
  match s.get pgTIME F.TIME_TRGCFG_TARGET n with
  | 0 => arrive i s
  | 1 =>
    let (s, ok) := groupStart i s
    if ok then s else s.bump pgTIME F.TIME_st_TRGMISS
  | _ =>
    if (trigOf s n).busy.isSome then s.bump pgTIME F.TIME_st_TRGMISS
    else match enqueue s i with
      | some s => s
      | none => (updTrig s n fun t => { t with busy := some i }).evt pgTSK 3

/-- Whole periods added to a past instant until it is no longer past. -/
def nextPeriod (x p now : Word) : Word :=
  if !stPast x now ∨ p = 0 then x
  else x + BitVec.ofNat 32 (((now - x).toNat / p.toNat + 1) * p.toNat)

/-- A trigger whose time is past fires at once with TRGLATE; a periodic one continues in whole periods (R57). -/
def fireLate (n : Nat) (s : State) : State :=
  match (trigOf s n).next with
  | none => s
  | some x =>
    if !stPast x s.st then s
    else
      let periodic := s.get pgTIME F.TIME_TRGCFG_KIND n = 1
      let p : Word := BitVec.ofNat 32 (s.get pgTIME F.TIME_TRGPERIOD_PERIOD n)
      let s := updTrig s n fun t => { t with next := if periodic then some (nextPeriod x p s.st) else none, last := some x }
      deliver n (s.evt pgTIME 9)

/-- A one-shot or periodic trigger armed with its TIME (R57, R62). -/
def armTrig (n : Nat) (s : State) : State :=
  fireLate n (updTrig s n fun t => { t with next := some (BitVec.ofNat 32 (s.get pgTIME F.TIME_TRGTIME_TIME n)), last := none })

/-- The next instant of a FRAME trigger lies in the frame in progress: before FS(N+1), and outside a gap (R56, R57). -/
def frameDue (s : State) (n : Nat) : Bool :=
  let t := trigOf s n
  let (num, den) := periodFrac s
  s.time.gapM.isNone && t.idx ≤ t.k &&
    decide (s.time.fsGrid + (t.offset + t.idx * (num / (den * 65536 * (t.k + 1)))) * 65536 < fsOf s (s.time.fn + 1))

/-- TRIGGER_FIRE: the trigger reaches its next instant. -/
def trigFire (n : Nat) (s : State) : State :=
  if !s.flag pgTIME F.TIME_TRGCFG_EN n then s
  else
    let t := trigOf s n
    match s.get pgTIME F.TIME_TRGCFG_KIND n with
    | 0 => if t.next.isNone then s else deliver n (updTrig s n fun t => { t with last := t.next, next := none })
    | 1 =>
      match t.next with
      | none => s
      | some x =>
        deliver n (updTrig s n fun t => { t with last := some x, next := some (x + BitVec.ofNat 32 (s.get pgTIME F.TIME_TRGPERIOD_PERIOD n)) })
    | _ => if frameDue s n then deliver n (updTrig s n fun t => { t with idx := t.idx + 1 }) else s

/-- At FS each FRAME trigger takes up its TIME and K (R62). -/
def trigAtFs (s : State) : State :=
  (List.range 16).foldl (fun s n => updTrig s n fun t =>
    { t with offset := s.get pgTIME F.TIME_TRGTIME_TIME n, k := s.get pgTIME F.TIME_TRGCFG_K n, idx := 0 }) s

/-- A PERIOD outside the range of a PERIODIC trigger (R56, R62). -/
def badPeriod (n : Nat) : Bool := n < 1000 || 2 ^ 31 ≤ n

/-- The range of INDEX of a target (R56). -/
def trigRange (target : Nat) : Nat := match target with | 0 => 256 | 1 => 4 | _ => 1024

/-- A write of TRGnCFG (R56, R57, R62): refused whole, or it configures, enables or disables the trigger. -/
def trgCfg (a n : Nat) (v : Word) (s : State) : State :=
  let off := 0x140 + 12 * n
  let en := bitsOf v 0 1 = 1
  let kind := bitsOf v 1 2
  let target := bitsOf v 4 2
  if kind = 3 ∨ target = 3 then s.fault pgTIME 0x01 off a
  else if trigRange target ≤ bitsOf v 16 10 ∨ (en ∧ kind = 1 ∧ badPeriod (s.get pgTIME F.TIME_TRGPERIOD_PERIOD n)) then s.fault pgTIME 0x07 off a
  else
    let was := s.flag pgTIME F.TIME_TRGCFG_EN n
    let old := s.get pgTIME F.TIME_TRGCFG_KIND n
    let s := s.setReg pgTIME off (v &&& 0x03FFFFF7)
    if !en then updTrig s n fun t => { t with next := none, last := none, idx := t.k + 1 }
    else if was ∧ old = kind then s
    else if kind = 2 then updTrig s n fun t => { t with next := none, idx := t.k + 1 }
    else armTrig n s

/-- A write of TRGnTIME (R62). -/
def trgTime (n : Nat) (v : Word) (s : State) : State :=
  let s := s.set pgTIME F.TIME_TRGTIME_TIME v.toNat n
  if s.flag pgTIME F.TIME_TRGCFG_EN n ∧ s.get pgTIME F.TIME_TRGCFG_KIND n ≠ 2 then
    let last := (trigOf s n).last
    updTrig (armTrig n s) n fun t => { t with last := t.last.orElse fun _ => last }
  else s

/-- A write of TRGnPERIOD (R62). -/
def trgPeriod (a n : Nat) (v : Word) (s : State) : State :=
  let on := s.flag pgTIME F.TIME_TRGCFG_EN n && s.get pgTIME F.TIME_TRGCFG_KIND n = 1
  if on ∧ badPeriod v.toNat then s.fault pgTIME 0x07 (0x148 + 12 * n) a
  else
    let s := s.set pgTIME F.TIME_TRGPERIOD_PERIOD v.toNat n
    if !on then s
    else
      let base := (trigOf s n).last.getD (BitVec.ofNat 32 (s.get pgTIME F.TIME_TRGTIME_TIME n))
      fireLate n (updTrig s n fun t => { t with next := some (base + v) })

/-- An effect that may step FT: the triggers whose instants the step makes past fire at once, the lower index first (R57, R60). -/
def withStep (f : State → State) (s : State) : State :=
  let future := (List.range 16).filter fun n => match (trigOf s n).next with | some x => !stPast x s.st | none => false
  future.foldl (fun s n => fireLate n s) (f s)

/-! ### Meanings -/

/-- TRIGGER_FIRE (R56). -/
def execTriggerFire (n : Fin 16) (s : State) := act (trigFire n) s
/-- TRGCFG_WRITE (R57): agent `a` writes TRGnCFG. -/
def execTrgcfgWrite (a : BitVec 4) (n : Fin 16) (v : Word) (s : State) := act (trgCfg a.toNat n v) s
/-- TRGTIME_WRITE (R62). -/
def execTrgtimeWrite (n : Fin 16) (v : Word) (s : State) := act (trgTime n v) s
/-- TRGPERIOD_WRITE (R62). -/
def execTrgperiodWrite (a : BitVec 4) (n : Fin 16) (v : Word) (s : State) := act (trgPeriod a.toNat n v) s
/-- SERVO_MEASUREMENT (R36): a source and its offset, and for PPS_IN the FT of the edge, from which the offset is formed. -/
def execServoMeasurement (src : BitVec 3) (off : Int) (s : State) :=
  act (withStep (measurement src.toNat (if src = 3 then ppsOffset off.toNat else off))) s

end Sys2Proof.Machine
end

