-- ==== Sys2Proof/Machine/EthFrame.lean ====
section
/-!
DEFINITION. The Ethernet ports as state, the lead (R308), and frames on the line: their checks, and the queue of the frames that the node itself
originates (R290, R311).
-/
namespace Sys2Proof.Machine
open Sys2Proof

/-- The network state changed. -/
def updNet (s : State) (f : NetState → NetState) : State := { s with net := f s.net }
/-- Port `x`: 0 A, 1 B. -/
def ethOf (s : State) (x : Nat) : EthPort := s.net.ports.getD x {}
/-- A port changed. -/
def updEth (s : State) (x : Nat) (f : EthPort → EthPort) : State := updNet s fun n => { n with ports := updAt n.ports x f }
/-- The pair's state changed. -/
def updPair (s : State) (f : PairState → PairState) : State := updNet s fun n => { n with pair := f n.pair }
/-- The Ethernet rings' accesses (R427). -/
def ethWho (x : Nat) : Who := ⟨0, 11 + x, 0, none⟩

/-- The station address of a port, as a number of 48 bits (R313). -/
def macOf (s : State) (x : Nat) : Nat := s.get (pgETH x) F.ETH_MACL_MAC + s.get (pgETH x) F.ETH_MACH_MAC * 2 ^ 32
/-- The port that holds the lead (R308, R315). -/
def leadOf (s : State) : Nat :=
  if s.flag pgPAIR F.PAIR_CFG_PAIRED then s.get pgPAIR F.PAIR_STAT_LEAD else s.get pgPAIR F.PAIR_CFG_PRIMARY
/-- Port `x` is a path: both with PAIRED, else the primary (R308). -/
def isPath (s : State) (x : Nat) : Bool := s.flag pgPAIR F.PAIR_CFG_PAIRED || s.get pgPAIR F.PAIR_CFG_PRIMARY = x

/-! ### Frames on the line -/

/-- The 16-bit one's complement sum of bytes. -/
def onesSum (b : List Byte) : Nat :=
  let t := ((List.range ((b.length + 1) / 2)).map fun i => (b.getD (2 * i) 0).toNat * 256 + (b.getD (2 * i + 1) 0).toNat).sum
  let f := fun t : Nat => t % 65536 + t / 65536
  f (f (f t))

/-- The Internet checksum of bytes. -/
def inetSum (b : List Byte) : Nat := 65535 - onesSum b

/-- A frame without its FCS. -/
def noFcs (f : List Byte) : List Byte := f.take (f.length - 4)
/-- A frame's FCS is right. -/
def fcsOk (f : List Byte) : Bool := leVal (f.drop (f.length - 4)) = (crc32 (noFcs f)).toNat
/-- A frame with its FCS appended. -/
def withFcs (f : List Byte) : List Byte := f ++ leBytes 4 (crc32 f).toNat

/-- What a frame holds: the offset of its EtherType after at most one 802.1Q tag, and the EtherType; with two tags the EtherType of the
second tag. -/
def etherType (f : List Byte) : Nat × Nat :=
  let t := beVal (slice f 12 2)
  if t = 0x8100 then (16, beVal (slice f 16 2)) else (12, t)

/-- An unfragmented view of an IPv4 UDP frame: the IP header's offset, destination address, UDP destination port, the UDP header's offset, and
whether the packet is unfragmented and without options. -/
structure Udp where
  ip : Nat
  dst : Nat
  port : Nat
  udp : Nat
  plain : Bool
  deriving DecidableEq, Repr

/-- The UDP view of a frame, if it is one. -/
def udpOf (f : List Byte) : Option Udp :=
  let (o, t) := etherType f
  let ip := o + 2
  let b := (f.getD ip 0).toNat
  let frag := beVal (slice f (ip + 6) 2) % 16384
  if t = 0x0800 ∧ b / 16 = 4 ∧ 5 ≤ b % 16 ∧ f.getD (ip + 9) 0 = 17 ∧ frag % 8192 = 0 then
    let u := ip + 4 * (b % 16)
    some ⟨ip, beVal (slice f (ip + 16) 4), beVal (slice f (u + 2) 2), u, b % 16 = 5 ∧ frag = 0⟩
  else none

/-- The UDP payload of a frame. -/
def udpData (f : List Byte) (u : Udp) : List Byte := slice f (u.udp + 8) (beVal (slice f (u.udp + 4) 2) - 8)

/-- The UDP checksum of a datagram between two addresses (its checksum field zero). -/
def udpSum (src dst : Nat) (udp : List Byte) : Nat :=
  let c := inetSum (beBytes 4 src ++ beBytes 4 dst ++ [0, 17] ++ beBytes 2 udp.length ++ udp)
  if c = 0 then 65535 else c

/-- A UDP frame of the device's own, without FCS; the type of service, identification and time to live are open. -/
def udpFrame (x mac dst sport dport : Nat) (data : List Byte) (s : State) : State × List Byte :=
  let (s, v) := s.free
  let src := s.get (pgETH x) F.ETH_IPADDR_IP
  let n := 8 + data.length
  let udp := beBytes 2 sport ++ beBytes 2 dport ++ beBytes 2 n
  let c := udpSum src dst (udp ++ [0, 0] ++ data)
  let hdr := fun (k : Nat) => [0x45] ++ leBytes 1 v.toNat ++ beBytes 2 (20 + n) ++ leBytes 2 (v.toNat / 256) ++ [0, 0] ++
    leBytes 1 (v.toNat / 2 ^ 24) ++ [17] ++ beBytes 2 k ++ beBytes 4 src ++ beBytes 4 dst
  (s, beBytes 6 mac ++ beBytes 6 (macOf s x) ++ [0x08, 0x00] ++ hdr (inetSum (hdr 0)) ++ udp ++ beBytes 2 c ++ data)

/-- A frame with the fields that depend on its port rewritten (R291): the source addresses and the checksums. A fragment's UDP checksum stands, since
no one frame holds what it covers (DESIGN CHOICE, notes/assumptions/87.md); with `keep0` so does one of zero. -/
def rewriteLead (s : State) (x : Nat) (keep0 : Bool) (f : List Byte) : List Byte :=
  let f := slice f 0 6 ++ beBytes 6 (macOf s x) ++ f.drop 12
  let (o, t) := etherType f
  if t ≠ 0x0800 then f
  else
    let ip := o + 2
    let hl := 4 * ((f.getD ip 0).toNat % 16)
    let src := s.get (pgETH x) F.ETH_IPADDR_IP
    let h := slice f ip 10 ++ [0, 0] ++ beBytes 4 src ++ slice f (ip + 16) (hl - 16)
    let h := h.take 10 ++ beBytes 2 (inetSum h) ++ h.drop 12
    let f := f.take ip ++ h ++ f.drop (ip + hl)
    let u := ip + hl
    if f.getD (ip + 9) 0 ≠ 17 ∨ beVal (slice f (ip + 6) 2) % 16384 ≠ 0 ∨ (keep0 ∧ beVal (slice f (u + 6) 2) = 0) then f
    else
      let n := beVal (slice f (u + 4) 2)
      let udp := slice f u 6 ++ [0, 0] ++ slice f (u + 8) (n - 8)
      f.take u ++ slice f u 6 ++ beBytes 2 (udpSum src (beVal (slice f (ip + 16) 4)) udp) ++ f.drop (u + 8)

/-- A frame of the device's own padded with zeros to the shortest length of IEEE 802.3 (PRESUMED, notes/assumptions/42.md). -/
def padded (f : List Byte) : List Byte := f ++ List.replicate (60 - f.length) 0

/-- A frame of the device's own queued on a port at a precedence of R290. -/
def queueTx (x prio : Nat) (f : List Byte) (s : State) : State := updEth s x fun p => { p with txq := p.txq ++ [(prio, padded f)] }

/-- A lead frame queued: on the lead, and in a dual window on both ports (R308, R311). -/
def queueLead (prio : Nat) (f : Nat → List Byte) (s : State) : State :=
  let l := leadOf s
  let s := queueTx l prio (f l) s
  if s.flag pgPAIR F.PAIR_STAT_DUAL then queueTx (1 - l) prio (f (1 - l)) s else s

end Sys2Proof.Machine
end

