-- ==== Sys2Proof/Machine/Ptp.lean ====
section
/-!
DEFINITION. The PTP ordinary clock on the lead path: its data sets, the messages it takes and those it originates (R33, R34, R45, R65, R297).
What IEEE 1588-2019 itself lays out, and R45 names by that standard, is PRESUMED (notes/assumptions/85.md).
-/
namespace Sys2Proof.Machine
open Sys2Proof

/-! ### Data sets -/

/-- Lexicographic order of number lists. -/
def lexLt : List Nat → List Nat → Bool
  | a :: s, b :: t => a < b || (a = b && lexLt s t)
  | _, _ => false

/-- An Announce data set is better than another, as IEEE 1588-2019 compares them: of one grandmaster the one fewer steps away, of two
grandmasters the one with the lower value first. -/
def ptpBetter (a b : PtpMaster) : Bool :=
  let rank := fun (m : PtpMaster) => [m.prio1, m.cls, m.accuracy, m.variance, m.prio2, m.identity]
  if a.identity = b.identity then lexLt [a.steps, a.source] [b.steps, b.source] else lexLt (rank a) (rank b)

/-- This clock's sourcePortIdentity: the clockIdentity of R45 and port number 1. -/
def ownPort : Nat := Config.serial.toNat * 65536 + 1

/-- The data set this clock announces: its priorities, and the default class, accuracy and variance of a clock with no reference. -/
def ownClock (s : State) : PtpMaster :=
  ⟨s.get pgTIME F.TIME_PTPPRIO_PRIO1, 248, 0xFE, 0xFFFF, s.get pgTIME F.TIME_PTPPRIO_PRIO2, Config.serial.toNat, 0, ownPort⟩

/-- This clock is the master: a slave-only clock never is (R45). -/
def ptpMaster (s : State) : Bool := s.time.ptp.isMaster && s.flag pgTIME F.TIME_PTPCFG_MASTEROK

/-- A change of the clock's state. -/
def updPtp (s : State) (f : PtpState → PtpState) : State := updTime s fun t => { t with ptp := f t.ptp }

/-- What was learnt from a master or on a path that the clock has left is forgotten. -/
def ptpForget (p : PtpState) : PtpState := { p with await := none, down := none, req := none, delay := none }

/-! ### Messages -/

/-- A PTP timestamp of 10 bytes, in 2^-16 ns. -/
def ptpStamp (m : List Byte) (i : Nat) : Int := ((beVal (slice m i 6) * 1000000000 + beVal (slice m (i + 6) 4)) * 65536 : Nat)

/-- The 10 bytes of a PTP timestamp, the fraction left out. -/
def ptpStampBytes (t : Int) : List Byte :=
  let ns := (t / 65536).toNat
  beBytes 6 (ns / 1000000000) ++ beBytes 4 (ns % 1000000000)

/-- The correctionField of a PTP header, in 2^-16 ns. -/
def ptpCorr (m : List Byte) : Int := signed 64 (beVal (slice m 8 8))

/-- A signed 4-bit log interval of PTPCFG as a header's byte. -/
def logByte (s : State) (f : Fld) : Byte := BitVec.ofNat 8 (toField 8 (signed 4 (s.get pgTIME f)))

/-- The 34 bytes of a message's header. -/
def ptpHeader (s : State) (typ len flags : Nat) (corr : List Byte) (seq : Nat) (ctl log : Byte) : List Byte :=
  [BitVec.ofNat 8 typ, 2] ++ beBytes 2 len ++ [BitVec.ofNat 8 (s.get pgTIME F.TIME_PTPCFG_DOMAIN), 0] ++ beBytes 2 flags ++ corr ++
    List.replicate 4 0 ++ beBytes 10 ownPort ++ beBytes 2 seq ++ [ctl, log]

/-- The frame that carries a message of the clock's own from a port (R45): UDP over IPv4 to 224.0.1.129 with a UDP checksum of zero for an
event message (R34), or IEEE 802.3. -/
def ptpFrame (x : Nat) (event : Bool) (m : List Byte) (s : State) : State × List Byte :=
  if s.flag pgTIME F.TIME_PTPCFG_TRANSPORT then
    (s, beBytes 6 0x011B19000000 ++ beBytes 6 (macOf s x) ++ [0x88, 0xF7] ++ m)
  else
    let port := if event then 319 else 320
    let (s, f) := udpFrame x 0x01005E000181 0xE0000181 port port m s
    (s, if event then f.take 40 ++ [0, 0] ++ f.drop 42 else f)

/-- A message of the clock's own queued on the lead, in a dual window on both ports (R297, R308, R311), at the precedence of R290. -/
def ptpQueue (event : Bool) (m : List Byte) (s : State) : State :=
  let l := leadOf s
  let (s, a) := ptpFrame l event m s
  let (s, b) := ptpFrame (1 - l) event m s
  queueLead 2 (fun x => if x = l then a else b) s

/-- Where a frame's Sync or Delay_Req begins, if it carries one, and over UDP where its checksum lies. -/
def ptpEventAt (f : List Byte) : Option (Nat × Option Nat) :=
  let (o, t) := etherType f
  let is := fun (i : Nat) => decide ((f.getD i 0).toNat % 16 ≤ 1 ∧ i + 44 ≤ f.length)
  match udpOf f with
  | some u => if u.port = 319 ∧ is (u.udp + 8) then some (u.udp + 8, some (u.udp + 6)) else none
  | none => if t = 0x88F7 ∧ is (o + 2) then some (o + 2, none) else none

/-- The timestamp of a frame that leaves a port, or arrived at it, at an instant (R33): on the 62.5 ps grid, with the board's delay. -/
def txStamp (s : State) (x t : Nat) : Int :=
  (grid16 t : Nat) + signed 16 (s.get pgTIME (if x = 0 then F.TIME_ETHATXLAT_LAT else F.TIME_ETHBTXLAT_LAT)) * 4096
def rxStamp (s : State) (x t : Nat) : Int :=
  (grid16 t : Nat) - signed 16 (s.get pgTIME (if x = 0 then F.TIME_ETHARXLAT_LAT else F.TIME_ETHBRXLAT_LAT)) * 4096

/-- A frame leaves a port now: a Sync or Delay_Req with its departure time inserted one-step (R34): seconds and nanoseconds in originTimestamp, the
fraction added to correctionField, and over IPv4 a UDP checksum of zero. The departure of the clock's own Delay_Req on the lead is t3 of its exchange. -/
def ptpDepart (x : Nat) (f : List Byte) (s : State) : State × List Byte :=
  match ptpEventAt f with
  | none => (s, f)
  | some (i, sum) =>
    let t := txStamp s x s.time.ft
    let f := match sum with | some u => f.take u ++ [0, 0] ++ f.drop (u + 2) | none => f
    let corr := toField 64 (signed 64 (beVal (slice f (i + 8) 8)) + t % 65536)
    let g := f.take (i + 8) ++ beBytes 8 corr ++ slice f (i + 16) 18 ++ ptpStampBytes t ++ f.drop (i + 44)
    (if (f.getD i 0).toNat % 16 = 1 ∧ beVal (slice f (i + 20) 10) = ownPort ∧ x = leadOf s then updPtp s fun p => { p with req := some (beVal (slice f (i + 30) 2), t) } else s, g)

/-! ### Reception (R45) -/

/-- The two-way exchange gives an offset: the negative of offsetFromMaster (R579), with the mean path delay in force. -/
def ptpOffset (down delay : Int) (s : State) : State := measurement 1 (-(down - delay)) s

/-- t2 − t1 known: a measurement once a mean path delay is known. -/
def ptpDown (d : Int) (s : State) : State :=
  let s := updPtp s fun p => { p with down := some d, await := none }
  match s.time.ptp.delay with
  | some e => ptpOffset d e s
  | none => s

/-- A Delay_Resp to this clock's request: the mean path delay, and a measurement where none was known before. -/
def ptpDelay (down up : Int) (s : State) : State :=
  let e := (down + up) / 2
  let first := s.time.ptp.delay.isNone
  let s := updPtp s fun p => { p with delay := some e, req := none }
  if first then ptpOffset down e s else s

/-- The data set of an Announce. -/
def ptpSetOf (m : List Byte) : PtpMaster :=
  ⟨(m.getD 47 0).toNat, (m.getD 48 0).toNat, (m.getD 49 0).toNat, beVal (slice m 50 2), (m.getD 52 0).toNat,
    beVal (slice m 53 8), beVal (slice m 61 2), beVal (slice m 20 10)⟩

/-- An Announce (R29, R45): the best master clock algorithm over the present master, the sender and, with MASTEROK, this clock. -/
def ptpAnnounced (m : List Byte) (s : State) : State :=
  let a := ptpSetOf m
  let same := match s.time.ptp.master with | some k => decide (k.source = a.source) | none => false
  let ownBest := s.flag pgTIME F.TIME_PTPCFG_MASTEROK && ptpBetter (ownClock s) a
  let take := match s.time.ptp.master with
    | some k => same || ptpBetter a k
    | none => true
  if 255 ≤ a.steps ∨ !take then s
  else if ownBest then (if same then updPtp s fun p => { ptpForget p with master := none, isMaster := true } else s)
  else
    let s := updPtp s fun p => { (if same then p else ptpForget p) with master := some a, isMaster := false }
    (s.set pgTIME F.TIME_UTCOFF_OFFSET (beVal (slice m 44 2))).set pgTIME F.TIME_UTCOFF_VALID ((m.getD 7 0).toNat / 4 % 2)

/-- The ST 2059-2 synchronization metadata TLV among the TLVs of a Management message, if it holds one: at most 64 bytes in line order. -/
def ptpTlv : Nat → List Byte → Option (List Byte)
  | 0, _ => none
  | n + 1, b =>
    if b.length < 4 then none
    else
      let len := 4 + beVal (slice b 2 2)
      if beVal (slice b 0 2) = 3 ∧ beVal (slice b 4 6) = 0x6897E8000001 then some ((b.take len).take 64) else ptpTlv n (b.drop len)

/-- A PTP message received on the lead path at FT `t` (R45). -/
def ptpReceive (port t : Nat) (m : List Byte) (s : State) : State :=
  let typ := (m.getD 0 0).toNat % 16
  let ver := (m.getD 1 0).toNat % 16
  let source := beVal (slice m 20 10)
  if port ≠ s.get pgPAIR F.PAIR_STAT_LEAD ∨ ver ≠ 2 ∨ (m.getD 4 0).toNat ≠ s.get pgTIME F.TIME_PTPCFG_DOMAIN ∨ source / 65536 = Config.serial.toNat then s
  else
    let seq := beVal (slice m 30 2)
    let rx := rxStamp s port t
    let p := s.time.ptp
    let fromMaster := match p.master with | some k => k.source = source && !ptpMaster s | none => false
    match typ with
    | 0 => -- Sync
      if !fromMaster then s
      else if (m.getD 6 0).toNat / 2 % 2 = 1 then updPtp s fun k => { k with await := some (seq, rx, ptpCorr m) }
      else ptpDown (rx - ptpStamp m 34 - ptpCorr m) s
    | 8 => -- Follow_Up
      (match p.await with
       | some (q, r, c) => if fromMaster ∧ q = seq then ptpDown (r - ptpStamp m 34 - c - ptpCorr m) s else s
       | none => s)
    | 9 => -- Delay_Resp, to this clock's request
      (match p.req, p.down with
       | some (q, t3), some d =>
         if fromMaster ∧ q = seq ∧ beVal (slice m 44 10) = ownPort then ptpDelay d (ptpStamp m 34 - t3 - ptpCorr m) s else s
       | _, _ => s)
    | 11 => ptpAnnounced m s
    | 13 => -- Management, which carries the ST 2059-2 synchronization metadata TLV
      (match ptpTlv m.length (m.drop 48) with
       | some b => updTime s fun k => { k with tlv := b }
       | none => s)
    | 1 => -- Delay_Req, answered by a master with a Delay_Resp
      if ptpMaster s then
        ptpQueue false (ptpHeader s 9 54 0 (beBytes 8 (toField 64 (ptpCorr m - rx % 65536))) seq 3 (logByte s F.TIME_PTPCFG_DREQINT) ++ ptpStampBytes rx ++ slice m 20 10) s
      else s
    | _ => s

/-! ### Origination -/

/-- A Sync of a master, or a Delay_Req of a slave, queued on the lead; its departure time is inserted as it leaves. -/
def ptpOriginate (delayReq : Bool) (s : State) : State :=
  let p := s.time.ptp
  let seq := if delayReq then p.reqSeq else p.syncSeq
  let s := updPtp s fun p => if delayReq then { p with reqSeq := (seq + 1) % 65536 } else { p with syncSeq := (seq + 1) % 65536 }
  ptpQueue true (ptpHeader s (if delayReq then 1 else 0) 44 0 (List.replicate 8 0) seq (if delayReq then 1 else 0)
    (if delayReq then 0x7F else logByte s F.TIME_PTPCFG_SYNCINT) ++ List.replicate 10 0) s

/-- The units of 2^-16 ns between Announce messages (R45). -/
def announceUnits (s : State) : Nat := 2 ^ (signed 4 (s.get pgTIME F.TIME_PTPCFG_ANNINT) + 8).toNat * (secUnits / 256)

/-- A master's Announce is due in the nanosecond that ends at FT `t`: at each multiple of the interval (DESIGN CHOICE, notes/assumptions/86.md). -/
def announceDue (s : State) (t : Nat) : Bool := ptpMaster s && s.time.ft / announceUnits s ≠ t / announceUnits s

/-- A master's Announce queued on the lead (R45). -/
def announceSend (s : State) : State :=
  let p := s.time.ptp
  let own := ownClock s
  let s := updPtp s fun p => { p with annSeq := (p.annSeq + 1) % 65536 }
  let flags := 8 + 4 * s.get pgTIME F.TIME_UTCOFF_VALID
  ptpQueue false (ptpHeader s 11 64 flags (List.replicate 8 0) p.annSeq 5 (logByte s F.TIME_PTPCFG_ANNINT) ++ ptpStampBytes s.time.ft ++
    beBytes 2 (s.get pgTIME F.TIME_UTCOFF_OFFSET) ++ [0] ++ beBytes 1 own.prio1 ++ beBytes 1 own.cls ++ beBytes 1 own.accuracy ++
    beBytes 2 own.variance ++ beBytes 1 own.prio2 ++ beBytes 8 own.identity ++ [0, 0, 0xA0]) s

/-- No Announce from the master for announceReceiptTimeout intervals (R45): the best master clock algorithm runs again. -/
def announceTimeout (s : State) : State :=
  updPtp s fun p => { ptpForget p with master := none, isMaster := s.flag pgTIME F.TIME_PTPCFG_MASTEROK }

/-! ### Meanings -/

/-- PTP_MESSAGE_RECEIVE (R45). -/
def execPtpMessageReceive (port : Fin 2) (t : Nat) (msg : List Byte) (s : State) := act (withStep (ptpReceive port t msg)) s
/-- ANNOUNCE_RECEIPT_TIMEOUT (R45). -/
def execAnnounceReceiptTimeout (s : State) := act announceTimeout s

end Sys2Proof.Machine
end

