-- ==== Sys2Proof/Machine/Sound.lean ====
section
/-!
DEFINITION. Sound lock: inputs, buses, feature records, the tempo tracker, LTC and the modulation taps (R253 to R279, R245).
-/
namespace Sys2Proof.Machine
open Sys2Proof

/-- The sound state changed. -/
def updSnd (s : State) (f : SndState → SndState) : State := { s with snd := f s.snd }
/-- SND receives and stamps inputs and decodes LTC (R275). -/
def sndIn (s : State) : Bool := 1 ≤ effMode s pgSND
/-- SND makes features and issues beats. -/
def sndOn (s : State) : Bool := runTest s pgSND
/-- The sound engine's accesses to the frame store (R427). -/
def sndWho : Who := ⟨0, 14, 0, none⟩
/-- FT in seconds. -/
def ftSec (t : Nat) : Rat := (t : Rat) / (secUnits : Nat)

/-! ### Inputs (R245, R253 to R257) -/

/-! #### LTC (R268) -/

/-- The longest and the shortest bit that the decoder takes, in 2^-16 ns: 24 to 30 frames a second of 80 bits, ±10 % (R268). -/
def ltcLong : Nat := secUnits * 10 / 17280
def ltcShort : Nat := secUnits * 10 / 26400

/-- The sync word of bits 64 to 79, last bit first, and the same word played backwards. -/
def ltcSync : List Bool := [true, false] ++ List.replicate 12 true ++ [false, false]
def ltcBack : List Bool := ltcSync.reverse

/-- A field of a frame's bits, least significant bit first. -/
def ltcField (l : List Bool) (lo n : Nat) : Nat := ((List.range n).map fun i => (l.getD (lo + i) false).toNat * 2 ^ i).sum

/-- The timecode of a frame's bits as TCODE holds it, without VALID. -/
def ltcCode (l : List Bool) : Nat :=
  let two := fun (units tens n : Nat) => ltcField l units 4 + 16 * ltcField l tens n
  two 0 8 2 + 2 ^ 8 * two 16 24 3 + 2 ^ 16 * two 32 40 3 + 2 ^ 24 * two 48 56 2 + 2 ^ 30 * ltcField l 10 1

/-- The code of a frame's rate by its length in 2^-16 ns and its drop-frame flag: 0 24, 1 25, 2 29.97 drop-frame, 3 30. -/
def ltcRateOf (len : Nat) (drop : Bool) : Nat :=
  let r : Rat := (secUnits : Rat) / (max 1 len : Nat)
  if r < 49 / 2 then 0 else if r < 55 / 2 then 1 else if drop then 2 else 3

/-- A frame decoded, or counted as wrong. -/
def ltcPut (f : Bool × Nat × Nat × Nat) (d : Ltc) : Ltc := { d with frames := d.frames ++ [f] }

/-- A bit that starts and ends at two instants: at a sync word it closes a frame, which must have 80 bits. -/
def ltcBit (b : Bool) (start stop : Nat) (d : Ltc) : Ltc :=
  let bits := ((b, start) :: d.bits).take 81
  let d := { d with bits := bits, half := none }
  let tail := (bits.take 16).map (·.1)
  let wrong := fun (d : Ltc) => ltcPut (false, 0, 0, 0) d
  if tail = ltcSync then
    let frame := (bits.take 80).reverse
    let fresh := { d with bits := [], synced := true }
    if (if d.synced then bits.length = 80 else 80 ≤ bits.length) then
      let l := frame.map (·.1)
      let t0 := (frame.head?.map (·.2)).getD 0
      ltcPut (true, ltcCode l, ltcRateOf (stop - t0) (ltcField l 10 1 = 1), t0) fresh
    else if d.synced then wrong fresh
    else fresh
  else if tail = ltcBack then wrong { d with bits := [], synced := false }
  else if d.synced ∧ 80 ≤ bits.length then wrong { d with synced := false }
  else d

/-- A transition of the signal: half a bit or a whole bit after the last one. -/
def ltcEdge (t : Nat) (d : Ltc) : Ltc :=
  match d.cross with
  | none => { d with cross := some t }
  | some t0 =>
    let len := t - t0
    let lose := fun (d : Ltc) => let d' := { d with bits := [], synced := false, half := none }; if d.synced then ltcPut (false, 0, 0, 0) d' else d'
    let d := { d with cross := some t }
    if ltcShort ≤ 2 * len ∧ 2 * len ≤ ltcLong then
      match d.half with
      | some h => ltcBit true h t d
      | none => { d with half := some t0 }
    else if ltcShort ≤ len ∧ len ≤ ltcLong then ltcBit false t0 t (if d.half.isSome then lose d else d)
    else lose d

/-- A stamped sample of the LTC channel: its zero crossing since the last one by linear interpolation. -/
def ltcSample (stamp : Nat) (raw : Int) (d : Ltc) : Ltc :=
  match d.last with
  | none => { d with last := some (stamp, raw) }
  | some (t0, x0) =>
    if stamp ≤ t0 then d
    else
      let d := { d with last := some (stamp, raw) }
      if decide (x0 < 0) = decide (raw < 0) then d
      else ltcEdge (t0 + ((stamp - t0 : Nat) * x0.natAbs) / (max 1 (raw - x0).natAbs)) d

/-- A sample put among a channel's recent ones by its stamp. -/
def chanPut (e : Nat × Rat × Nat) (l : List (Nat × Rat × Nat)) : List (Nat × Rat × Nat) :=
  let newest := max e.1 ((l.head?.map (·.1)).getD 0)
  ((l.filter fun x => e.1 < x.1) ++ e :: l.filter fun x => x.1 < e.1).takeWhile fun x => newest ≤ x.1 + 20 * 65536000000

/-- A sample of an input channel, 24-bit two's complement, with its stamp (R253): fed to the LTC decoder where it reads this channel (R268); its
mean subtracted and updated (R245); at 96 kHz decimated, its stamp reduced by 15 samples (R257). -/
def chanSample (ch stamp : Nat) (raw : Int) (fast : Bool) (s : State) : State :=
  let x : Rat := (raw : Rat) / (2 ^ 23 : Nat)
  let full := (decide (raw = -(2 ^ 23)) || decide (raw = 2 ^ 23 - 1)).toNat
  let on := s.flag pgCAL F.CAL_AUDDC_EN
  let n := 2 ^ s.get pgCAL F.CAL_AUDDC_TC
  let s := if s.flag pgSND F.SND_LTC_EN ∧ s.get pgSND F.SND_LTC_CH = ch then updSnd s fun d => { d with ltc := ltcSample stamp raw d.ltc } else s
  updSnd s fun d => { d with chans := updAt d.chans ch fun c =>
    let y := if on then x - c.mean else x
    let m := if !on then c.mean
      else if c.count < n then (c.mean * (c.count : Nat) + x) / (c.count + 1 : Nat) else c.mean + (x - c.mean) / (n : Nat)
    let c := { c with mean := m, count := if on then c.count + 1 else c.count }
    if fast then
      let hist := (y :: c.hist).take 31
      if c.odd then { c with hist := hist, odd := false, oddClip := 0,
                             q := chanPut (stamp - 15 * secUnits / 96000, Config.decimate hist, full + c.oddClip) c.q }
      else { c with hist := hist, odd := true, oddClip := full }
    else { c with q := chanPut (stamp, y, full) c.q } }

/-! #### TDM and AES67 (R254 to R256) -/

/-- A register of a TDM port. -/
def tdmReg (s : State) (p : Nat) : Word := s.reg pgSND (0x040 + 4 * p)

/-- The 24-bit sample of a slot: the 24 most significant of its 32 bits, first bit first (R254). -/
def slotSample (l : List Bool) (i : Nat) : Int := signed 24 (valOfBits ((List.range 24).map fun k => l.getD (32 * i + k) false))

/-- The samples of a frame in channel order (R253, R254): on each data line the bits at the sampling edge that `EDGE` names, after the data
delay. -/
def tdmSamples (r : Word) (lines : List (List Bool × List Bool)) : List Int :=
  let slots := 2 ^ (bitsOf r 6 2 + 1)
  (List.range (bitsOf r 4 2 + 1)).flatMap fun i =>
    let l := lines.getD i ([], [])
    let b := (if bitsOf r 11 1 = 0 then l.1 else l.2).drop (bitsOf r 10 1)
    (List.range slots).map (slotSample b)

/-- The stamp of a frame sync edge (R254, R255): at the resolution of R33, under MASTER the instant of the FT sample grid at which the node
drives it. -/
def tdmStamp (r : Word) (t : Nat) : Nat :=
  let fs := if bitsOf r 2 1 = 1 then 96000 else 48000
  grid16 (if bitsOf r 1 1 = 1 then (t * fs + secUnits / 2) / secUnits * secUnits / fs else t)

/-- TDM_FRAME (R254, R255): an edge of a port's frame sync at an FT, rising or falling, and for each data line the bits at the rising and at
the falling bit-clock edges of the frame it opens. The edge that the polarity makes the leading one opens a frame. -/
def tdmFrame (p : Nat) (rising : Bool) (t : Nat) (lines : List (List Bool × List Bool)) (s : State) : State :=
  let r := tdmReg s p
  let high := decide (bitsOf r 8 1 = 0)
  if bitsOf r 0 1 = 0 ∨ !sndIn s ∨ rising ≠ high then s
  else
    let fast := bitsOf r 2 1 = 1
    let t := tdmStamp r t
    let s := if bitsOf r 1 1 = 1 then s.emit (.tdmSync p t high (if bitsOf r 9 1 = 1 then 32 else 1)) else s
    let (last, n) := s.snd.tdm.getD p (none, 0)
    let per := secUnits / (if fast then 96000 else 48000)
    let n := match last with | some l => if Config.frameRegular (t - l) per then n + 1 else 0 | none => 0
    let s := updSnd s fun d => { d with tdm := d.tdm.set p (some t, n) }
    let lock := s.get pgSND F.SND_INSTAT_TDMLOCK
    let s := if 16 ≤ n then s.set pgSND F.SND_INSTAT_TDMLOCK (lock ||| 2 ^ p) else s
    (tdmSamples r lines).zipIdx.foldl (fun s (x, i) => chanSample (16 * p + i) t x fast s) s

/-- TDM_LOCK_LOSS (R255): no edge for 4 expected frame periods. -/
def tdmLoss (p : Nat) (s : State) : State :=
  let lock := s.get pgSND F.SND_INSTAT_TDMLOCK
  (updSnd s fun d => { d with tdm := d.tdm.set p (none, 0) }).set pgSND F.SND_INSTAT_TDMLOCK (lock - (lock &&& 2 ^ p))

/-- A packet of AES67 stream `n`, merged over both paths (R256): its timestamp and its L24 payload. -/
def aesPacket (n ts : Nat) (data : List Byte) (s : State) : State :=
  if !s.flag pgSND F.SND_AESCFG_EN n ∨ !sndIn s then s
  else
    let fast := s.flag pgSND F.SND_AESCFG_RATE n
    let fs := if fast then 96000 else 48000
    let chs := s.get pgSND F.SND_AESCFG_CH n + 1
    -- the stamp lies in the RTP epoch nearest the present FT
    let now := s.time.ft * fs / secUnits
    let rel : Nat := (ts + 2 ^ 32 - s.get pgSND F.SND_AESOFF_OFFSET n) % 2 ^ 32
    let first : Int := (now : Int) + signed 32 (toField 32 ((rel : Int) - now))
    -- a stream that joins begins its means anew
    let fresh := if (s.snd.aesAt.getD n none).isSome then s.snd.chans
      else (List.range 8).foldl (fun l k => updAt l (32 + 8 * n + k) fun (c : Chan) => { c with mean := 0, count := 0 }) s.snd.chans
    let s := updSnd s fun d => { d with aesAt := d.aesAt.set n (some s.time.ft), chans := fresh }
    (List.range (data.length / (3 * chs))).foldl (fun s (j : Nat) =>
      let t : Nat := ((first + (j : Nat)).toNat * secUnits) / fs
      (List.range chs).foldl (fun s k => chanSample (32 + 8 * n + k) t (signed 24 (beVal (slice data (3 * (j * chs + k)) 3))) fast s) s) s

/-- AESnCFG.EN changed: a stream that joins again is a new one (R245, R256). -/
def aesSwitched (n : Nat) (s : State) : State := updSnd s fun d => { d with aesAt := d.aesAt.set n none }

/-! ### Buses (R257) -/

/-- Bus `b`. -/
def busOf (s : State) (b : Nat) : Bus := s.snd.buses.getD b {}
/-- A bus changed. -/
def updBus (s : State) (b : Nat) (f : Bus → Bus) : State := updSnd s fun d => { d with buses := updAt d.buses b f }

/-- The binary16 gain of a channel on a bus (R257). -/
def busGain (s : State) (b i : Nat) : Nat := bitsOf (s.reg pgSND (0xC00 + 0xC0 * b + i / 2 * 4)) (16 * (i % 2)) 16

/-- Packets of stream `n` missing after merging (R256). -/
def aesMissing (n missing : Nat) (s : State) : State :=
  if missing = 0 ∨ !s.flag pgSND F.SND_AESCFG_EN n ∨ !sndIn s then s
  else
    let s := [0, 1, 2, 3].foldl (fun s b =>
      if (List.range 8).any fun k => busGain s b (32 + 8 * n + k) % 2 ^ 15 ≠ 0 then updBus s b fun k => { k with gapPend := true } else s) s
    (s.bump pgSND F.SND_st_AESLOST missing).evt pgSND 6


/-- The test click at an exact FT in s (R275): 5 ms of a 1 kHz sine at each beat of a grid at PREFBPM aligned to the FT second. -/
def clickAt (s : State) (t : Rat) : Fl :=
  let p : Rat := 60 / (max 1 (s.get pgSND F.SND_TRACK_PREFBPM) : Nat)
  let d := t - (t / p).floor * p
  if d < 5 / 1000 then f32 (sinR (2 * piRat * 1000 * d)) else .fin 0

/-- BUS_SAMPLE (R257): the mixed sample of bus `b` at the next grid instant. -/
def busSample (b : Nat) (s : State) : State :=
  if !sndOn s ∨ !s.flag pgSND F.SND_BUS_EN b then s
  else
    let k := busOf s b
    let now : Int := ((s.time.ft : Int) - s.get pgSND F.SND_BUS_LAG b * 65536000) * 48000 / secUnits
    let n := max now.toNat (match k.idx with | some i => i + 1 | none => 0)
    -- a stamp of R33 that stands for the grid instant itself is not later than it (DESIGN CHOICE, notes/assumptions/109.md)
    let lim := max (n * secUnits / 48000) (grid16 (n * secUnits / 48000))
    let test := effMode s pgSND = 3
    let chs := if test then [] else (List.range 96).filter fun i => busGain s b i % 2 ^ 15 ≠ 0
    let (y, taken, slips, clips) := chs.foldl (fun (y, taken, slips, clips) i =>
      let due := ((s.snd.chans.getD i {}).q).filter fun (e : Nat × Rat × Nat) => e.1 ≤ lim
      let last := amGet k.taken i
      let new := match last with | some l => due.filter fun (e : Nat × Rat × Nat) => l < e.1 | none => due.take 1
      let x : Rat := match due with | e :: _ => e.2.1 | [] => 0
      let slip := match new.length with | 0 => 1 | m + 1 => m
      let clip := (new.map fun (e : Nat × Rat × Nat) => e.2.2).sum
      (Fl.add y (Fl.mul (ofHalf (busGain s b i)) (f32 x)), (match due.head?.map (·.1), last with | some t, _ => amSet taken i t | none, some l => amSet taken i l | none, none => taken), slips + slip, clips + clip))
      ((Fl.fin 0, [], 0, 0) : Fl × List (Nat × Nat) × Nat × Nat)
    let y := if test then clickAt s ((n : Rat) / 48000) else y
    let gap := decide (slips ≠ 0) || k.gapPend
    let s := updBus s b fun k =>
      { k with idx := some n, taken := taken, gapPend := false, block := k.block ++ [(n, toSingle y, decide (clips ≠ 0), gap)] }
    let s := (s.bump pgSND F.SND_st_SLIPS slips).evtIf (slips ≠ 0) pgSND 5
    (s.bump pgSND F.SND_st_CLIPS clips).evtIf (clips ≠ 0) pgSND 7

/-! ### Blocks, onsets and feature records (R258 to R261) -/

/-- The lower edge of band `i` in Hz (R258). -/
def bandLow (i : Nat) : Rat := 20 * powR 1000 ((i : Rat) / 32)

/-- The coefficients of band `i` in fixed point: the fourth-order Butterworth band-pass between its edges (R258), by the bilinear transform
at 48 kHz with both edges exact: the gain, then the four that follow the leading 1 of the denominator. -/
def bandCoef (i : Nat) : List Int :=
  let edge := fun (f : Rat) => let a := piRat * f / 48000; sinR a / cosR a
  let (w1, w2) := (edge (bandLow i), edge (bandLow (i + 1)))
  let bw := w2 - w1
  let w := w1 * w2
  let r := (sqrtDown 200 2).1
  let (a0, a1, a2, a3) := (w * w, r * bw * w, 2 * w + bw * bw, r * bw)
  let d := 1 + a3 + a2 + a1 + a0
  [bw * bw / d, (-4 - 2 * a3 + 2 * a1 + 4 * a0) / d, (6 - 2 * a2 + 6 * a0) / d, (-4 + 2 * a3 - 2 * a1 + 4 * a0) / d, (1 - a3 + a2 - a1 + a0) / d].map toFix

/-- Samples passed through a band: its last four inputs and outputs, newest first, in fixed point, and the sum of the squares of its outputs, each
rounded to binary32. -/
def bandRun (c : List Int) : List Int → Rat → List Nat → List Int × Rat
  | st, q, [] => (st, q)
  | st, q, x :: l =>
    let g := fun (i : Nat) => st.getD i 0
    let k := fun (i : Nat) => c.getD i 0
    let v := toFix (ofSingle x).val
    let y := (k 0 * (v - 2 * g 1 + g 3) - k 1 * g 4 - k 2 * g 5 - k 3 * g 6 - k 4 * g 7) / 2 ^ 192
    let o := (f32 (ofFix y)).val
    bandRun c [v, g 0, g 1, g 2, y, g 4, g 5, g 6] (q + o * o) l

/-- L of an energy in dB (R258), in binary32. -/
def levelOf (e : Rat) : Rat := (f32 (10 * log10R (e + powR 10 (-96 / 10)))).val

/-- The bits of a rational that is not negative in binary16, as a record holds it: two bytes. -/
def halfBytes (key : Nat) (q : Rat) : List Byte := leBytes 2 (halfOf key q)

/-- FT seconds [31:0] and nanoseconds of an exact FT in s. -/
def secNs (q : Rat) : List Byte :=
  let ns := (openRound 800 (q * 1000000000)).toNat
  leBytes 4 (ns / 1000000000) ++ leBytes 4 (ns % 1000000000)

/-- The node ID in use (R350) with a bus, as SOURCE of a record (R260). -/
def sourceOf (s : State) (b : Nat) : Nat := s.get pgFAB F.FAB_NODEID_ID + b * 2 ^ 18

/-- A record reaches the taps: of a feature slot, or with key 8 of the remote beats, and its instant in s. Each tap-frame that took an older one in its
place counts in LATEFEAT (R271; DESIGN CHOICE, notes/assumptions/40.md). -/
def recordCame (key : Nat) (t : Rat) (s : State) : State :=
  let hit := fun (u : Nat × Rat × Rat) => decide (u.1 = key) && decide (u.2.2 < t) && decide (t ≤ u.2.1)
  let n := (s.snd.tapUsed.filter hit).length
  let s := updSnd s fun d => { d with tapUsed := d.tapUsed.filter fun u => !hit u }
  (s.bump pgTAP F.TAP_st_LATEFEAT n).evtIf (n ≠ 0) pgTAP 0

/-- The FT in s that a record's SEC and NS spell, in the epoch nearest the present FT (R260). -/
def recTime (s : State) (b : List Byte) : Rat :=
  let now := s.time.ft / secUnits
  let sec : Int := (now : Int) + signed 32 (toField 32 ((leVal (slice b 0 4) : Int) - now))
  (sec : Rat) + ((leVal (slice b 4 4) : Nat) : Rat) / 1000000000

/-- A feature record kept in its slot's own copy and written to its ring (R260). -/
def putFeature (slot seq : Nat) (r : List Byte) (s : State) : State :=
  let s := recordCame slot (recTime s r) (updSnd s fun d => { d with feats := updAt d.feats slot fun l => (r :: l).take 256 })
  let s := wr' sndWho (fsBase + s.get pgSND F.SND_FEATBASE_OFFSET + 24576 * slot + 96 * (seq % 256)) r s
  s.bump pgSND F.SND_st_BLOCKS

/-- The onsets of the last 8 s (R262), newest first. -/
def heldOnsets (s : State) : List (Nat × Rat × Bool) := s.snd.trk.onsets.filter fun o => s.time.ft ≤ o.1 + 8 * secUnits

/-- BLOCK_END (R258 to R260): the oldest block of bus `b` whose samples are held. -/
def blockEnd (b : Nat) (s : State) : State :=
  let k := busOf s b
  match k.block with
  | [] => s
  | (n0, _) :: _ =>
    if !sndOn s then s else
    let blk := n0 / 48
    let mine := k.block.filter fun e => e.1 / 48 = blk
    let ys := mine.map (·.2.1)
    let ends : Rat := ((blk + 1 : Nat) : Rat) / 1000
    let runs := (List.range 32).map fun i => bandRun (bandCoef i) (k.filt.getD i []) 0 ys
    let filt := runs.map (·.1)
    let energy := (List.range 32).map fun i =>
      let e := 2 * (runs.getD i ([], 0)).2 / (max 1 ys.length : Nat)
      let tau := max (1 / 1000) (2 / bandLow i)
      let old := k.energy.getD i 0
      (f32 (old + (e - old) * (1 - expR (-(1 / 1000) / tau)))).val
    let level := energy.map levelOf
    let mask := s.get pgSND F.SND_ONSMASK_MASK b
    let bands := (List.range 32).filter fun i => mask / 2 ^ i % 2 = 1
    let rise := fun i => max 0 (level.getD i 0 - (k.levels.getD 9 []).getD i (levelOf 0))
    let flux : Rat := if bands.isEmpty then 0 else (bands.map rise).sum / (bands.length : Nat)
    let kq : Rat := (s.get pgSND F.SND_ONSET_K : Nat) / 16
    let mean : Rat := (k.flux.take 250).sum / 250
    let theta := max (ofHalf (s.get pgSND F.SND_ONSET_FLOOR)).val (kq * mean)
    let far : Bool := match k.lastOnset with | some l => s.get pgSND F.SND_ONSET_GAP + l ≤ blk | none => true
    let onset := decide (theta < flux) && decide (k.flux.headD 0 ≤ theta) && far
    let (s, v) := if theta = 0 then s.free else (s, 0)
    let strength : Rat := if theta = 0 then (v.toNat % 65537 : Nat) / 65536 else min 1 (flux / (2 * theta))
    let warm := s.time.ft < k.onAt + 100 * 65536000000
    let flags := onset.toNat + 2 * (mine.any (·.2.2.1)).toNat + 4 * (mine.any (·.2.2.2)).toNat + 8 * (decide warm).toNat
    let r := secNs ends ++ leBytes 4 (sourceOf s b) ++ leBytes 1 flags ++ [0] ++ leBytes 2 k.seq ++ halfBytes 801 strength ++
      halfBytes 802 flux ++ (energy.flatMap (halfBytes 803)) ++ List.replicate 12 0
    let s := putFeature b k.seq r s
    let s := updBus s b fun k =>
      { k with block := k.block.filter (fun e => e.1 / 48 ≠ blk), filt := filt, energy := energy, levels := (level :: k.levels).take 10,
               flux := (flux :: k.flux).take 250, lastOnset := if onset then some blk else k.lastOnset, seq := (k.seq + 1) % 65536 }
    let s := if onset then s.bump pgSND F.SND_st_ONSETS else s
    let s :=
      if onset ∧ s.get pgSND F.SND_TRACK_BUS = b then
        let t := (blk + 1) * 65536000000
        let low := bands.any fun i => i < 8 && decide (0 < rise i)
        let s := updSnd s fun d => { d with trk := { d.trk with
          onsets := ((t, strength, low) :: d.trk.onsets).takeWhile fun o => t ≤ o.1 + 100 * secUnits } }
        s.set pgSND F.SND_TRACKSTAT_ONSETS (min 255 (heldOnsets s).length)
      else s
    if s.get pgSND F.SND_SHARE_PUBF / 2 ^ b % 2 = 1 ∧ k.seq % 2 ^ s.get pgSND F.SND_SHARE_DECIM = 0 then
      updSnd s fun d => { d with pub := d.pub ++ [(false, r)] }
    else s

/-! ### The tempo tracker (R262 to R267) -/

/-- The tracker changed. -/
def updTrk (s : State) (f : Tempo → Tempo) : State := updSnd s fun d => { d with trk := f d.trk }

/-- The tracker's status fields brought up to date. -/
def trkStat (s : State) : State :=
  let k := s.snd.trk
  let s := (s.set pgSND F.SND_TRACKSTAT_STATE k.state).set pgSND F.SND_TRACKSTAT_CONF (openRound 804 (k.conf * 255)).toNat
  let s := s.set pgSND F.SND_TRACKSTAT_ONSETS (min 255 (heldOnsets s).length)
  let s := s.set pgSND F.SND_TEMPO (if k.state = 0 then 0 else (openRound 805 (60 / k.period * 256)).toNat)
  s.set pgSND F.SND_NEXTBEAT_ST (match k.next with | some b => (openRound 800 (b * 1000000000)).toNat | none => 0)

/-- First use (R263): UNLOCKED, with the onset history, the confidence and the beat counter cleared. -/
def firstUse (s : State) : State :=
  trkStat ((updTrk s fun _ => {}).set pgSND F.SND_BEATNO 0)

/-- A pulse of the score: exp(−((d − n p) / 0.010)² / 2). -/
def scorePulse (d p : Rat) (n : Nat) : Rat := let x := (d - (n : Nat) * p) / (1 / 100); expR (-(x * x) / 2)

/-- The score of a tempo over the onsets (R262). -/
def scoreOf (pref : Rat) (os : List (Rat × Rat)) (bpm : Rat) : Rat :=
  let p := 60 / bpm
  let l := log2R (bpm / pref)
  let pairs := os.flatMap fun (tk, sk) => os.filterMap fun (tj, sj) =>
    if tj < tk ∧ tk - tj ≤ 4 then some (sj * sk * ([1, 2, 3, 4].map (scorePulse (tk - tj) p)).sum) else none
  expR (-(l * l) / 2) * pairs.sum

/-- The distance of an instant from the nearest point of a grid. -/
def gridDist (t phi p : Rat) : Rat := let x := (t - phi) / p; abs (x - (x + 1 / 2).floor) * p

/-- The estimated grid, its period and phase, from the onsets of the last 8 s (R262). -/
def estimate (s : State) (os : List (Rat × Rat)) : Rat × Rat :=
  let pref : Rat := (s.get pgSND F.SND_TRACK_PREFBPM : Nat)
  let cands := (List.range 801).map fun i => (40 : Rat) + (i : Nat) / 4
  let best := cands.foldl (fun (b : Rat × Rat) bpm => let c := scoreOf pref os bpm; if b.2 < c then (bpm, c) else b) (40, scoreOf pref os 40)
  let p := 60 / best.1
  let ang := fun (t : Rat) => 2 * piRat * (t / p - (t / p).floor)
  let sn := (os.map fun (t, w) => w * sinR (ang t)).sum
  let cn := (os.map fun (t, w) => w * cosR (ang t)).sum
  (p, p / (2 * piRat) * atan2R sn cn)

/-- The first beat of a grid at or after an instant. -/
def gridFrom (phi p t : Rat) : Rat := phi + ((t - phi) / p).ceil * p

/-- The first beat of the grid whose issue instant still lies ahead (R267). -/
def firstAhead (s : State) (phi p lo : Rat) : Rat :=
  let now := ftSec s.time.ft
  let la : Rat := (s.get pgSND F.SND_BEATOUT_LOOKAHEAD : Nat) / 1000
  let b := gridFrom phi p lo
  if now < b - la then b else let c := gridFrom phi p (now + la); if now < c - la then c else c + p

/-- The tracker moves to a state, with its event; LOCKED has one only from UNLOCKED (R263). -/
def trkTo (n : Nat) (s : State) : State :=
  let old := s.snd.trk.state
  let s := updTrk s fun k => { k with state := n }
  if n = 1 ∧ old ≠ 0 then s else s.evt pgSND (match n with | 1 => 1 | 2 => 3 | _ => 2)

/-- TEMPO_ESTIMATE: the estimate of every 250 ms and the moves of R263. -/
def tempoEstimate (s : State) : State :=
  if !sndOn s then s
  else
    let now := ftSec s.time.ft
    let old := heldOnsets s
    let os := old.map fun o => (ftSec o.1, o.2.1)
    let spans : Bool := match os.head?, os.getLast? with | some a, some z => decide (4 ≤ a.1 - z.1) | _, _ => false
    let quiet : Bool := match os.head? with | some a => decide (2 < now - a.1) | none => true
    let s :=
      if os.length < 8 ∨ !spans then
        let s := updTrk s fun k => { k with conf := 0, est := none }
        if s.snd.trk.state = 1 ∧ quiet then trkTo 2 s else s
      else
        let (p, phi) := estimate s os
        let recent := os.filter fun o => now - o.1 ≤ 4
        let total := (recent.map (·.2)).sum
        let m := fun (t : Rat) => if gridDist t phi p ≤ 25 / 1000 then (1 : Rat) else if gridDist t (phi + p / 2) p ≤ 25 / 1000 then 1 / 2 else 0
        let (s, v) := if total = 0 then s.free else (s, 0)
        let c : Rat := if total = 0 then (v.toNat % 65536 : Nat) / 65535 else (recent.map fun o => o.2 * m o.1).sum / total
        let s := updTrk s fun k => { k with conf := c, est := some (p, phi) }
        let enough := decide (((s.get pgSND F.SND_LOCK_LOCKCONF : Nat) : Rat) / 256 ≤ c)
        let low := decide (c < ((s.get pgSND F.SND_LOCK_UNLOCKCONF : Nat) : Rat) / 256)
        match s.snd.trk.state with
        | 0 =>
          if enough then
            let s := trkTo 1 s
            updTrk s fun k => { k with period := p, next := some (firstAhead s phi p now), off8 := 0, resync := false, beatNo := 0, issued := [] }
          else s
        | 1 =>
          if low ∨ quiet then trkTo 2 s
          else
            -- 2 s of estimates more than 8 % away: the grid jumps
            let far := decide (8 / 100 * (1 / s.snd.trk.period) < abs (1 / p - 1 / s.snd.trk.period))
            let n := if far then s.snd.trk.off8 + 1 else 0
            if 8 ≤ n then
              -- the guard of R267 after the beat issued last
              let lo := match s.snd.trk.issued.head? with | some (b, _) => max now (b + p / 2) | none => now
              (updTrk s fun k => { k with period := p, next := some (firstAhead s phi p lo), off8 := 0, resync := true }).evt pgSND 4
            else updTrk s fun k => { k with off8 := n }
        | _ => if enough then updTrk (trkTo 1 s) fun k => { k with off8 := 0 } else s
    trkStat s

/-- COAST_TIMEOUT (R263). -/
def coastTimeout (s : State) : State :=
  if s.snd.trk.state ≠ 2 then s else trkStat (updTrk (trkTo 0 s) fun k => { k with next := none })

/-- METER of the tracker. -/
def meterOf (s : State) : Nat := s.get pgSND F.SND_TRACK_METER + 1

/-- The B that BARAUTO takes at a bar boundary (R265): it maximises the strength of low-band onsets near the beats that would stand at
position 0 over the last 4 bars. -/
def barAuto (s : State) : Nat :=
  let k := s.snd.trk
  let m := meterOf s
  let beats := (k.issued.take (4 * m)).zipIdx
  let w : Nat → Rat := fun b => (beats.map fun ((t, _), i) =>
    if (k.beatNo - 1 - i + b) % m = 0 then
      ((k.onsets.filter fun (o : Nat × Rat × Bool) => o.2.2 && decide (abs (ftSec o.1 - t) ≤ 25 / 1000)).map fun (o : Nat × Rat × Bool) => o.2.1).sum else 0).sum
  (List.range m).foldl (fun best b => if w best < w b then b else best) k.bar

/-- The running grid moved towards the estimate at a beat, within the bounds of R264; how far within them is open. -/
def gridMove (b : Rat) (s : State) : State × Rat × Rat :=
  let k := s.snd.trk
  match k.state, k.est with
  | 1, some (p, phi) =>
    let (s, v) := s.free
    let f : Rat := (v.toNat % 65537 : Nat) / 65536
    let (s, w) := s.free
    let g : Rat := (w.toNat % 65537 : Nat) / 65536
    let dp := max (-(k.period / 50)) (min (k.period / 50) (p - k.period))
    let x := (b - phi) / p
    let d := phi + (x + 1 / 2).floor * p - b
    let dphi := max (-(k.period / 10)) (min (k.period / 10) d)
    (s, k.period + f * dp, b + g * dphi)
  | _, _ => (s, k.period, b)

/-- A post that a beat makes: queued, or held in the sound block's slot, or dropped (R266, R490). -/
def beatPost (t : Nat) (s : State) : State :=
  match enqueue s t with
  | some s => s
  | none =>
    let s := s.evt pgTSK 3
    if s.snd.beatSlot.isNone then updSnd s fun d => { d with beatSlot := some t }
    else (s.bump pgTSK F.TSK_st_POSTDROP).evt pgTSK 2

/-- BEAT_ISSUE (R266, R267). -/
def beatIssue (s : State) : State :=
  let k := s.snd.trk
  match k.next with
  | none => s
  | some b =>
    if !sndOn s ∨ k.state = 0 then s
    else
      let m := meterOf s
      let pos := (k.beatNo + k.bar) % m
      let flags := (decide (pos = 0)).toNat + 2 * k.resync.toNat + 4 * (decide (k.state = 2)).toNat
      let tempo := (openRound 805 (60 / k.period * 256)).toNat
      let r := secNs b ++ leBytes 4 (sourceOf s (s.get pgSND F.SND_TRACK_BUS)) ++ leBytes 1 flags ++ leBytes 1 (pos + (m - 1) * 16) ++
        leBytes 2 tempo ++ leBytes 2 (openRound 806 (k.conf * 65535)).toNat ++ [0, 0] ++ leBytes 4 k.beatNo ++ leBytes 4 s.st.toNat ++
        List.replicate 4 0
      let s := wr' sndWho (fsBase + s.get pgSND F.SND_BEATBASE_OFFSET + 32 * (k.beatNo % 64)) r s
      let s := updSnd s fun d => { d with beats := (r :: d.beats).take 64 }
      let s := (s.bump pgSND F.SND_st_BEATS).evt pgSND 0
      let s := if s.flag pgSND F.SND_BEATOUT_TASKEN then beatPost (s.get pgSND F.SND_BEATOUT_TASK) s else s
      let s := if s.flag pgSND F.SND_SHARE_PUBB then updSnd s fun d => { d with pub := d.pub ++ [(true, r)] } else s
      let s := (s.set pgSND F.SND_BEATNO k.beatNo).set pgSND F.SND_TRACKSTAT_BAR pos
      let (s, p, phi) := gridMove b s
      let s := updTrk s fun k => { k with beatNo := k.beatNo + 1, resync := false, period := p, issued := ((b, pos) :: k.issued).take 64 }
      let s := updTrk s fun k => { k with next := some (firstAhead s phi p (b + p / 2)) }
      -- the next beat opens a bar: B may move there
      let s := if s.flag pgSND F.SND_TRACK_BARAUTO ∧ pos + 1 = m then updTrk s fun k => { k with bar := barAuto s } else s
      trkStat s

/-- A write of BARSYNC (R265). -/
def barSync (v : Word) (s : State) : State :=
  if bitsOf v 0 1 = 0 then s else let m := meterOf s; updTrk s fun k => { k with bar := (m - k.beatNo % m) % m }

/-- A write of BUSb that enables or disables it: the samples start anew, and the tracker's own bus disabled is a first use (R260, R263). -/
def busSwitched (b : Nat) (on : Bool) (s : State) : State :=
  if on then updBus s b fun k => { seq := k.seq, onAt := s.time.ft }
  else if s.get pgSND F.SND_TRACK_BUS = b then firstUse s else s

/-- SND leaves RUN (R263). -/
def sndLeft (s : State) : State :=
  let on := inRun s pgSND
  let s := if s.snd.ran ∧ !on then firstUse s else s
  updSnd s fun d => { d with ran := on }

/-! ### LTC (R268) -/

/-- LTCSTAT.LOCK cleared with its event (R268). -/
def ltcLost (s : State) : State :=
  let s := updSnd s fun d => { d with ltcValid := 0, ltcBad := 0 }
  let s := s.set pgTIME F.TIME_TCODE_VALID 0
  if s.flag pgSND F.SND_LTCSTAT_LOCK then ((s.set pgSND F.SND_LTCSTAT_LOCK 0).set pgSND F.SND_LTCSTAT_RATE 0).evt pgSND 9 else s

/-- LTC written: the decoder starts anew. -/
def ltcWritten (s : State) : State := updSnd s fun d => { d with ltc := {} }

/-- A frame of LTC, valid or not, with its timecode as TCODE holds it, the code of its rate (0 24, 1 25, 2 29.97 drop-frame, 3 30) and the FT of
its reference instant (R268). -/
def ltcTake (valid : Bool) (tc rate t : Nat) (s : State) : State :=
  if !valid then
    let s := s.bump pgSND F.SND_st_LTCERR
    let s := updSnd s fun d => { d with ltcValid := 0, ltcBad := d.ltcBad + 1 }
    if 2 ≤ s.snd.ltcBad then ltcLost s else s
  else
    let n := if rate = s.snd.ltcRate then s.snd.ltcValid + 1 else 1
    let s := updSnd s fun d => { d with ltcValid := n, ltcBad := 0, ltcRate := rate }
    let s := (s.bump pgSND F.SND_st_LTCFRAMES).setReg pgTIME 0x058 (BitVec.ofNat 32 (tc + 2 ^ 31))
    let s := s.set pgSND F.SND_LTCSTAT_RATE (rate + 1)
    let s := if 4 ≤ n ∧ !s.flag pgSND F.SND_LTCSTAT_LOCK then (s.set pgSND F.SND_LTCSTAT_LOCK 1).evt pgSND 8 else s
    referenceInstant true t s

/-- LTC_FRAME (R268): the event that a frame is decoded, valid or not, with its timecode, rate and instant: it occurs where that frame is the
oldest that the decoder has found in the channel's samples. -/
def ltcFrame (valid : Bool) (tc rate t : Nat) (s : State) : State :=
  if !s.flag pgSND F.SND_LTC_EN ∨ !sndIn s ∨ s.snd.ltc.frames.head? ≠ some (valid, tc, rate, t) then s
  else ltcTake valid tc rate t (updSnd s fun d => { d with ltc := { d.ltc with frames := d.ltc.frames.tail } })

/-! ### Records from the fabric (R270) -/

/-- A feature record received for slot 4 + r (R270). -/
def remoteFeature (r : Nat) (b : List Byte) (s : State) : State :=
  let seq := leVal (slice b 14 2)
  let step := 2 ^ s.get pgSND F.SND_SHARE_DECIM
  match s.snd.feats.getD (4 + r) [] with
  | [] => putFeature (4 + r) seq b s
  | old :: _ =>
    let jump := (seq + 65536 - leVal (slice old 14 2)) % 65536
    if jump = 0 ∨ 32768 ≤ jump then s
    else
      let s := if step < jump then (s.bump pgSND F.SND_st_REMGAP (jump / step - 1)).evt pgSND 10 else s
      putFeature (4 + r) seq b s

/-- The instant in s at which a beat record was issued: its ISSUE, near its beat (R266). -/
def issueTime (s : State) (b : List Byte) : Rat :=
  let ns : Int := (recTime s b * 1000000000).floor
  ((ns + signed 32 (toField 32 ((leVal (slice b 24 4) : Int) - ns)) : Int) : Rat) / 1000000000

/-- A beat record put in its place, the newest issued first; one that is held already is left out (R270). -/
def beatInsert (s : State) (b : List Byte) (l : List (List Byte)) : List (List Byte) :=
  let at' := issueTime s b
  if l.any fun r => slice r 20 8 = slice b 20 8 then l
  else ((l.filter fun r => at' < issueTime s r) ++ b :: l.filter fun r => issueTime s r ≤ at').take 64

/-- REMOTE_RECORD_RECEIVE (R270): a record of the CUE lane, a beat's (32 bytes) or a feature's (96). -/
def remoteRecord (b : List Byte) (s : State) : State :=
  let src := leVal (slice b 8 4)
  let node := src % 2 ^ 18
  if !sndIn s then s
  else if b.length = 32 then
    if s.flag pgSND F.SND_REMBEAT_EN ∧ s.get pgSND F.SND_REMBEAT_NODE = node then
      recordCame 8 (issueTime s b) (updSnd s fun d => { d with remBeats := beatInsert s b d.remBeats })
    else s
  else if b.length = 96 then
    [0, 1, 2, 3].foldl (fun s r =>
      if s.flag pgSND F.SND_REMOTE_EN r ∧ s.get pgSND F.SND_REMOTE_NODE r = node ∧ s.get pgSND F.SND_REMOTE_BUS r = src / 2 ^ 18 % 4 then
        remoteFeature r b s else s) s
  else s

/-! ### Modulation taps (R271 to R274) -/

/-- A tap's slot or beat source is enabled (R272). -/
def slotOn (s : State) (i : Nat) : Bool := if i < 4 then s.flag pgSND F.SND_BUS_EN i else s.flag pgSND F.SND_REMOTE_EN (i - 4)

/-- FS(n) in s, exactly. -/
def fsSec (s : State) (n : Nat) : Rat := fsRat s n / 16000000000

/-- The latest instant in s of a record for frame `n` (R271). -/
def tapLimit (s : State) (n : Nat) : Rat := fsSec s n - (s.get pgTAP F.TAP_FEATLAG_LAG : Nat) / 1000

/-- The record a tap takes for frame `n`: the newest within the limit that has reached the node (R271). -/
def tapRecord (s : State) (t n : Nat) : Option (List Byte) :=
  let lim := tapLimit s n
  if s.get pgTAP F.TAP_CFG_FEAT t < 2 then
    (s.snd.feats.getD (s.get pgTAP F.TAP_CFG_SRC t) []).find? fun b => decide (recTime s b ≤ lim)
  else
    let l := if s.get pgTAP F.TAP_BEATSRC_SRC = 0 then s.snd.beats else s.snd.remBeats
    l.find? fun b => decide (issueTime s b ≤ lim)

/-- The record of a tap that is not idle noted, for one that turns out late (R271). A beat of the node's own reaches the taps as it is issued. -/
def noteUsed (n t : Nat) (r : Option (List Byte)) (s : State) : State :=
  match r with
  | none => s
  | some b =>
    let u :=
      if s.get pgTAP F.TAP_CFG_FEAT t < 2 then [(s.get pgTAP F.TAP_CFG_SRC t, tapLimit s n, recTime s b)]
      else if s.get pgTAP F.TAP_BEATSRC_SRC = 0 then []
      else [(8, tapLimit s n, issueTime s b)]
    updSnd s fun d => { d with tapUsed := (u ++ d.tapUsed).take 1024 }

/-- The input x of a tap (R272), none where the tap is idle. -/
def tapInput (s : State) (t n : Nat) (r : Option (List Byte)) : State × Option Fl :=
  match r with
  | none => (s, none)
  | some b =>
    let feat := s.get pgTAP F.TAP_CFG_FEAT t
    if feat < 2 then
      if !slotOn s (s.get pgTAP F.TAP_CFG_SRC t) then (s, none)
      else if feat = 1 then (s, some (ofHalf (leVal (slice b 16 2))))
      else
        let e := (ofHalf (leVal (slice b (20 + 2 * s.get pgTAP F.TAP_CFG_BAND t) 2))).val
        (s, some (if e ≤ 0 then .fin 0 else Fl.clamp 0 1 (f32 ((10 * log10R e + 96) / 96))))
    else
      let src := s.get pgTAP F.TAP_BEATSRC_SRC
      if recTime s b + 8 < ftSec s.time.ft ∨ (src = 0 ∧ s.snd.trk.state = 0) ∨ (src = 1 ∧ !s.flag pgSND F.SND_REMBEAT_EN) then (s, none)
      else
        let tempo := leVal (slice b 14 2)
        let at' := fsSec s (n + 1) + (s.get pgTAP F.TAP_PHASEAT_OFFSET : Nat) / 1000000
        let (s, v) := if tempo = 0 then s.free else (s, 0)
        let x := (at' - recTime s b) / (60 * 256 / (max 1 tempo : Nat))
        let ph : Rat := if tempo = 0 then (v.toNat % 65536 : Nat) / 65536 else x - x.floor
        if feat = 2 then (s, some (f32 ph))
        else
          let bar := (b.getD 13 0).toNat
          let m : Rat := (bar / 16 + 1 : Nat)
          let y := ((bar % 16 : Nat) + ph) / m
          (s, some (f32 (y - y.floor)))

/-- A tap's curve point (R273). -/
def tapPoint (s : State) (t i : Nat) : Nat := bitsOf (s.reg pgTAP (0xC00 + 16 * t + i / 4 * 4)) (8 * (i % 4)) 8

/-- The value v that a tap's filtered input gives (R273). -/
def tapValue (s : State) (t : Nat) (y : Fl) : Fl :=
  let g := Fl.clamp 0 1 (y.mul (ofHalf (s.get pgTAP F.TAP_TARGET_GAIN t)))
  let g15 := g.mul (.fin 15)
  let i := min 14 g15.val.floor.toNat
  let pi := tapPoint s t i
  let d : Rat := ((tapPoint s t (i + 1) : Nat) : Rat) - (pi : Nat)
  let c := (Fl.add (.fin (pi : Nat)) ((g15.sub (.fin (i : Nat))).mul (.fin d))).div (.fin 255)
  let lo := ofHalf (s.get pgTAP F.TAP_OUT_OUTMIN t)
  lo.add (c.mul ((ofHalf (s.get pgTAP F.TAP_OUT_OUTMAX t)).sub lo))

/-- A tap's value as its target holds it (R274). -/
def tapTarget (kind : Nat) (v : Fl) : Nat :=
  match kind with
  | 3 => ((roundHalfUp (v.val * 65536)) % 65536).toNat
  | 4 => ((roundHalfUp v.val) % (2 ^ 32 : Nat)).toNat
  | 7 => (clampInt 0 65535 (roundHalfUp (v.val * 65535))).toNat
  | _ => toHalf v

/-- One tap of frame `n` computed (R271 to R274): the state, with the tap's target added to those driven. -/
def tapOne (n t : Nat) (s : State) : State :=
  if !s.flag pgTAP F.TAP_CFG_EN t then s
  else
    let r := tapRecord s t n
    match tapInput s t n r with
    | (s, none) => s.bump pgTAP F.TAP_st_IDLE
    | (s, some x) =>
      let s := noteUsed n t r s
      let y0 := if s.snd.tapNew.getD t false then x else ofSingle (s.snd.tapY.getD t 0)
      let y :=
        if s.get pgTAP F.TAP_CFG_FEAT t ≤ 1 then
          let k := if Fl.lt y0 x then s.get pgTAP F.TAP_CFG_ATTACK t else s.get pgTAP F.TAP_CFG_RELEASE t
          y0.add ((x.sub y0).div (.fin ((1 + k : Nat) : Rat)))
        else x
      let s := updSnd s fun d => { d with tapY := d.tapY.set t (toSingle y), tapNew := d.tapNew.set t false }
      let kind := s.get pgTAP F.TAP_TARGET_TKIND t
      if kind = 0 then s
      else
        let fld := if kind = 5 ∨ kind = 6 ∨ kind = 7 then s.get pgTAP F.TAP_TARGET_TFIELD t else 0
        let key := kind * 1024 + s.get pgTAP F.TAP_TARGET_TIDX t * 8 + fld
        updSnd s fun d => { d with nextDrive := (key, tapTarget kind (tapValue s t y)) :: d.nextDrive }

/-- TAP_SAMPLE (R271): every tap at S(N) for the next frame; none in a gap or outside RUN. Of several taps on one target the highest
applies. -/
def tapSample (s : State) : State :=
  if !inRun s pgTAP ∨ s.time.gapM.isSome then s
  else
    let n := s.time.fn + 1
    let s := updSnd s fun d => { d with nextDrive := [] }
    let s := (List.range 64).foldl (fun s t => tapOne n t s) s
    -- newest first in the list: the first of a key is the highest tap's
    let all := s.snd.nextDrive
    let keep := all.reverse.foldl (fun m (k, v) => amSet m k v) ([] : List (Nat × Nat))
    let s := updSnd s fun d => { d with nextDrive := keep }
    if keep.length < all.length then (s.bump pgTAP F.TAP_st_CLASH).evt pgTAP 1 else s

/-- The tap values of the frame that starts (R271): those sampled for it, counted as they are applied (R279); none after a gap or outside RUN. -/
def tapsAtFs (s : State) : State :=
  let now := if inRun s pgTAP then s.snd.nextDrive else []
  updSnd (s.bump pgTAP F.TAP_st_DRIVEN now.length) fun d => { d with drive := now, drives := ((s.time.fn, now) :: d.drives).take 4, nextDrive := [] }

/-- A commit marks the taps whose SRC, FEAT or BAND it changes (R273). -/
def tapsCommitted (old s : State) : State :=
  let cfg := fun (x : State) (t : Nat) => (x.get pgTAP F.TAP_CFG_SRC t, x.get pgTAP F.TAP_CFG_FEAT t, x.get pgTAP F.TAP_CFG_BAND t)
  updSnd s fun d => { d with tapNew := d.tapNew.zipIdx.map fun (b, t) => b || cfg old t ≠ cfg s t }

/-! ### Meanings -/

/-- TDM_FRAME (R254, R255): an edge, rising or falling, and its FT. -/
def execTdmFrame (port : Fin 2) (edge : Bool × Nat) (lines : List (List Bool × List Bool)) (s : State) := act (tdmFrame port edge.1 edge.2 lines) s
/-- TDM_LOCK_LOSS (R255). -/
def execTdmLockLoss (port : Fin 2) (s : State) := act (tdmLoss port) s
/-- BUS_SAMPLE (R257). -/
def execBusSample (bus : Fin 4) (s : State) := act (busSample bus) s
/-- TEMPO_ESTIMATE (R262). -/
def execTempoEstimate (s : State) := act tempoEstimate s
/-- COAST_TIMEOUT (R263). -/
def execCoastTimeout (s : State) := act coastTimeout s
/-- TRACKER_FIRST_USE (R263). -/
def execTrackerFirstUse (s : State) := act firstUse s
/-- BARSYNC (R265). -/
def execBarsync (v : Word) (s : State) := act (barSync v) s
/-- LTC_FRAME (R268). -/
def execLtcFrame (valid : Bool) (tc : BitVec 31) (rate : Fin 4) (t : Nat) (s : State) := act (ltcFrame valid tc.toNat rate t) s
/-- LTC_LOST (R268). -/
def execLtcLost (s : State) := act ltcLost s
/-- REMOTE_RECORD_RECEIVE (R270). -/
def execRemoteRecordReceive (rec' : List Byte) (s : State) := act (remoteRecord rec') s
/-- TAP_SAMPLE (R271). -/
def execTapSample (s : State) := act tapSample s

end Sys2Proof.Machine
end

