-- ==== Sys2Proof/Machine/Eth.lean ====
section
/-!
DEFINITION. The Ethernet ports, their rings, the classifier, sACN, the merged flows and pairing (R280 to R297, R308 to R316, R499).
-/
namespace Sys2Proof.Machine
open Sys2Proof

/-! ### Rings (R285 to R291) -/

/-- One ring: its registers' page and the offsets of BASE, CFG, TAIL and HEAD. -/
structure Ring where
  page : Nat
  base : Nat
  cfg : Nat
  tail : Nat
  head : Nat
  who : Who
  deriving DecidableEq, Repr

/-- Receive ring `r` of a port. -/
def rxRing (x r : Nat) : Ring := ⟨pgETH x, 0x060 + 16 * r, 0x064 + 16 * r, 0x068 + 16 * r, 0x06C + 16 * r, ethWho x⟩
/-- The transmit ring of a port. -/
def txRing (x : Nat) : Ring := ⟨pgETH x, 0x0A0, 0x0A4, 0x0A8, 0x0AC, ethWho x⟩
/-- The lead transmit ring. -/
def leadRing (x : Nat) : Ring := ⟨pgPAIR, 0x060, 0x064, 0x068, 0x06C, ethWho x⟩

/-- Descriptors of a ring. -/
def Ring.size (r : Ring) (s : State) : Nat := 2 ^ bitsOf (s.reg r.page r.cfg) 0 4
/-- The head index. -/
def Ring.headOf (r : Ring) (s : State) : Nat := bitsOf (s.reg r.page r.head) 0 12
/-- Descriptors between head and tail (R286). -/
def Ring.free (r : Ring) (s : State) : Nat := (bitsOf (s.reg r.page r.tail) 0 12 + r.size s - r.headOf s % r.size s) % r.size s
/-- The address of a descriptor. -/
def Ring.desc (r : Ring) (s : State) (i : Nat) : Nat := (s.reg r.page r.base).toNat * 256 + 16 * (i % r.size s)
/-- The head moved to an index. -/
def Ring.setHead (r : Ring) (i : Nat) (s : State) : State := s.setReg r.page r.head (BitVec.ofNat 32 (i % r.size s))

/-- A descriptor read: its address, length and flags; none where memory answers an error. -/
def readDesc (r : Ring) (i : Nat) (s : State) : State × Option (Nat × Nat × Nat) :=
  let (s, b) := rd r.who (r.desc s i) 16 s
  (s, b.map fun b => (leVal (slice b 0 5), leVal (slice b 6 2), leVal (slice b 14 2)))

/-- A ring's BASE or CFG changed: HEAD and TAIL read 0 (R313). -/
def ringReset (r : Ring) (s : State) : State := (s.setReg r.page r.head 0).setReg r.page r.tail 0

/-- A frame written into the buffers of a receive ring from its head (R285 to R287): the descriptors used with their lengths, and whether the
ring ran out; an error of memory ends the frame as a ring does that runs out (R417; DESIGN CHOICE, notes/assumptions/121.md). -/
def fillRing (r : Ring) : Nat → Nat → List Byte → State → State × List (Nat × Nat) × Bool
  | 0, _, b, s => (s, [], !b.isEmpty)
  | n + 1, i, b, s =>
    if b.isEmpty then (s, [], false)
    else if (i + r.size s - r.headOf s % r.size s) % r.size s = r.free s then (s, [], true)
    else
      match readDesc r i s with
      | (s, some (addr, _, flags)) =>
        if flags % 2 = 0 then (s, [], true)
        else
          let sz := 256 * bitsOf (s.reg r.page r.cfg) 16 8
          let (s, ok) := wr r.who addr (b.take sz) s
          if !ok then (s, [(i, min sz b.length)], true)
          else
            let (s, l, out) := fillRing r n ((i + 1) % r.size s) (b.drop sz) s
            (s, (i, min sz b.length) :: l, out)
      | (s, none) => (s, [], true)

/-- The descriptors of a frame written back, the LAST one's flags last (R285). -/
def closeDescs (r : Ring) (l : List (Nat × Nat)) (cls extra ts : Nat) (s : State) : State :=
  let n := l.length
  l.zipIdx.foldl (fun s ((i, len), k) =>
    let a := r.desc s i
    let s := wr' r.who (a + 5) (leBytes 1 cls ++ leBytes 2 len) s
    let s := if k = 0 then wr' r.who (a + 8) (leBytes 4 (ts / 16) ++ leBytes 1 (ts % 16)) s else s
    let last := k + 1 = n
    let flags := (if k = 0 then 2 else 0) + (if last then 4 else 0) + (if last then extra else (extra / 8 % 2) * 8 + (extra / 32 % 2) * 32)
    wr' r.who (a + 13) ([0] ++ leBytes 2 flags) s) s

/-- A PAUSE frame (R283, R288), without FCS. -/
def pauseFrame (s : State) (x q : Nat) : List Byte :=
  [0x01, 0x80, 0xC2, 0x00, 0x00, 0x01] ++ beBytes 6 (macOf s x) ++ [0x88, 0x08, 0x00, 0x01] ++ beBytes 2 q ++ List.replicate 42 0

/-- The receive rings of a port that drive PAUSE generation (R288). -/
def pauseRings (s : State) (x : Nat) : List Ring := ((List.range 4).filter fun r => s.flag (pgETH x) F.ETH_RXCFG_PAUSEEN r).map (rxRing x)

/-- PAUSE generation re-evaluated (R288): a ring that has fallen below the mark sends a PAUSE frame; `again` repeats it while one is still below. -/
def pauseCheck (x : Nat) (again : Bool) (s : State) : State :=
  let mark := s.get (pgETH x) F.ETH_PAUSECFG_LOWWATER
  let rs := pauseRings s x
  let low := if mark = 0 then [] else (rs.filter fun r => r.free s < mark).map (·.head)
  let e := ethOf s x
  let s := updEth s x fun p => { p with low := low }
  if low.any fun h => again || !e.low.contains h then
    queueTx x 1 (pauseFrame s x (s.get (pgETH x) F.ETH_PAUSECFG_PAUSEQ)) (updEth s x fun p => { p with pausing := true })
  else if low.isEmpty ∧ e.pausing ∧ rs.all (fun r => s.get (pgETH x) F.ETH_PAUSECFG_HIWATER ≤ r.free s) then
    queueTx x 1 (pauseFrame s x 0) (updEth s x fun p => { p with pausing := false })
  else s

/-- A frame put into receive ring `r` (R285 to R287): `extra` are the flags of its LAST descriptor beyond FIRST and LAST, `cut` that it ran
past the limit of R282. -/
def toRing (x r : Nat) (f : List Byte) (cls extra ts : Nat) (cut : Bool) (s : State) : State :=
  if 4 ≤ r then s
  else
    let k := rxRing x r
    let p := pgETH x
    let h := k.headOf s % k.size s
    let (s, l, out) := fillRing k 64 h f s
    if l.isEmpty then s.bump p F.ETH_st_RX_NOBUF
    else
      let s := k.setHead (h + l.length) s
      if out || cut then
        let s := closeDescs k l cls 8 ts s
        pauseCheck x false (((s.bump p F.ETH_st_RX_NOBUF).bump p F.ETH_st_ABANDONS).evt p 2)
      else pauseCheck x false ((closeDescs k l cls extra ts s).evt p 5)

/-! ### Wake filters (R284) -/

/-- One bit of the CRC-16 of R284. -/
def crc16Byte (c : Nat) (b : Byte) : Nat :=
  (List.range 8).foldl (fun c _ => if c / 32768 % 2 = 1 then (c * 2 % 65536) ^^^ 0x1021 else c * 2 % 65536) (c ^^^ (b.toNat * 256))
/-- The CRC-16 of R284. -/
def crc16 (b : List Byte) : Nat := b.foldl crc16Byte 0xFFFF

/-- Wake filter `k` of a port matches a frame. -/
def wakeMatch (s : State) (x k : Nat) (f : List Byte) : Bool :=
  let sel := (List.range 128).filter fun i => bitsOf (s.reg (pgETH x) (0xC00 + 32 * k + i / 32 * 4)) (i % 32) 1 = 1
  s.flag (pgETH x) F.ETH_WAKEC_EN k && sel.all (· < f.length) &&
  crc16 (sel.map fun i => f.getD i 0) = s.get (pgETH x) F.ETH_WAKEC_CHECK k

/-- The wake filters applied to a frame (R284). -/
def wakeFilters (x : Nat) (f : List Byte) (s : State) : State :=
  if !((List.range 8).any fun k => wakeMatch s x k f) then s
  else if inRun s (pgETH x) then (s.bump (pgETH x) F.ETH_st_WAKEHITS).evt (pgETH x) 3
  else updNet s fun n => { n with wake := true }

/-! ### Pairing (R308 to R311) -/

/-- A path is sick, with its reason. -/
def isSick (s : State) (x : Nat) : Bool := if x = 0 then s.flag pgPAIR F.PAIR_STAT_ASICK else s.flag pgPAIR F.PAIR_STAT_BSICK
/-- A path's sickness and reason set. -/
def setSick (x reason : Nat) (s : State) : State :=
  if x = 0 then (s.set pgPAIR F.PAIR_STAT_ASICK (min 1 reason)).set pgPAIR F.PAIR_STAT_AREASON reason
  else (s.set pgPAIR F.PAIR_STAT_BSICK (min 1 reason)).set pgPAIR F.PAIR_STAT_BREASON reason

/-- The lead moved to the other path (R310, R311): the frames that wait on the old lead go out on both. -/
def handover (s : State) : State :=
  let l := s.get pgPAIR F.PAIR_STAT_LEAD
  let q := (ethOf s l).txq.filter fun e => decide (2 ≤ e.1)
  let s := (s.set pgPAIR F.PAIR_STAT_LEAD (1 - l)).set pgPAIR F.PAIR_STAT_DUAL 1
  let s := updEth s (1 - l) fun p => { p with txq := p.txq ++ q.map fun (c, f) => (c, rewriteLead s (1 - l) true f) }
  let s := updPtp s ptpForget
  let s := updTime s fun t => { t with discardPtp := true }
  (s.bump pgPAIR F.PAIR_st_HANDOVERS).evt pgPAIR 0

/-- The lead re-evaluated after a judgement or a recovery (R310). -/
def leadCheck (s : State) : State :=
  if !s.flag pgPAIR F.PAIR_CFG_PAIRED ∨ s.flag pgPAIR F.PAIR_STAT_DUAL then s
  else
    let l := s.get pgPAIR F.PAIR_STAT_LEAD
    let prim := s.get pgPAIR F.PAIR_CFG_PRIMARY
    let long := s.get pgPAIR F.PAIR_RECOVER * 65536000000 ≤ s.time.ft - s.net.pair.healthyAt.getD prim 0
    if isSick s l ∧ !isSick s (1 - l) then handover s
    else if s.flag pgPAIR F.PAIR_CFG_REVERT ∧ l ≠ prim ∧ !isSick s prim ∧ long then handover s
    else s

/-- A path judged sick (R309): in a dual window the judgement waits for its end (R310). The lead is evaluated once every judgement of an instant is
made. -/
def judge (x reason : Nat) (s : State) : State :=
  if isSick s x then s
  else if s.flag pgPAIR F.PAIR_STAT_DUAL then updPair s fun p => { p with deferred := p.deferred ++ [(x, reason)] }
  else
    let s := (setSick x reason s).evt pgPAIR 1
    s.evtIf (isSick s 0 && isSick s 1) pgPAIR 2

/-- Criterion OFF judged at a change of the ports' EFF.MODE (R309). -/
def pairOff (s : State) : State := leadCheck ([0, 1].foldl (fun s x => if inRun s (pgETH x) then s else judge x 1 s) s)

/-- A path becomes healthy (R309). -/
def pathRecover (x : Nat) (s : State) : State :=
  if !isSick s x ∨ !(ethOf s x).up ∨ !inRun s (pgETH x) then s
  else
    let s := updPair s fun p => { p with healthyAt := p.healthyAt.set x s.time.ft }
    leadCheck ((setSick x 0 s).evt pgPAIR 3)

/-- HEALTH_WINDOW_END (R309): misses and FCS errors of the last 10 ms. -/
def healthWindow (s : State) : State :=
  let one := fun (s : State) (x : Nat) =>
    let g := s.get pgPAIR F.PAIR_HEALTH_GAPTHR
    let c := s.get pgPAIR F.PAIR_HEALTH_CRCTHR
    if !isPath s x then s
    else if g ≠ 0 ∧ g < s.net.pair.miss.getD x 0 then judge x 3 s
    else if c ≠ 0 ∧ c < s.net.pair.fcs.getD x 0 then judge x 4 s
    else s
  leadCheck (updPair (one (one s 0) 1) fun p => { p with miss := [0, 0], fcs := [0, 0] })

/-- DUAL_WINDOW_END (R311): what still waits on the old lead is cut off, and judgements take effect. -/
def dualEnd (s : State) : State :=
  if !s.flag pgPAIR F.PAIR_STAT_DUAL then s
  else
    let s := s.set pgPAIR F.PAIR_STAT_DUAL 0
    let old := 1 - s.get pgPAIR F.PAIR_STAT_LEAD
    -- a lead frame still on the old lead's line ends there with an invalid FCS
    let s := match (ethOf s old).txq.find? fun e => decide (2 ≤ e.1) with
      | some e => if runTest s (pgETH old) ∧ (ethOf s old).up ∧ (ethOf s old).pauseEnd.isNone then s.emit (.ethCut old e.2) else s
      | none => s
    let s := updEth s old fun p => { p with txq := p.txq.filter fun e => decide (e.1 < 2) }
    let d := s.net.pair.deferred
    leadCheck (d.foldl (fun s (x, r) => judge x r s) (updPair s fun p => { p with deferred := [] }))

/-- PAIRING_START (R310). -/
def pairStart (s : State) : State :=
  let s := [0, 1].foldl (fun s x =>
    if inRun s (pgETH x) then s else if isSick s x then s else (setSick x (if (ethOf s x).up then 1 else 2) s).evt pgPAIR 1) s
  let p := s.get pgPAIR F.PAIR_CFG_PRIMARY
  let s := s.evtIf (isSick s 0 && isSick s 1) pgPAIR 2
  s.set pgPAIR F.PAIR_STAT_LEAD (if !s.flag pgPAIR F.PAIR_CFG_PAIRED ∨ !isSick s p ∨ isSick s (1 - p) then p else 1 - p)

/-- A write of PAIR.CTL (R310). -/
def pairSwap (a : Nat) (v : Word) (s : State) : State :=
  if bitsOf v 0 1 = 0 then s
  else if !s.flag pgPAIR F.PAIR_CFG_PAIRED ∨ isSick s (1 - s.get pgPAIR F.PAIR_STAT_LEAD) then s.fault pgPAIR 0x40 0x04C a
  else handover s

/-- A write of PAIR.CFG (R308, R310): pairing starts when PAIRED becomes 1; with 0 the primary holds the lead. -/
def pairCfg (v : Word) (s : State) : State :=
  let was := s.flag pgPAIR F.PAIR_CFG_PAIRED
  let s := s.setReg pgPAIR 0x040 (v &&& 7)
  if !s.flag pgPAIR F.PAIR_CFG_PAIRED then (s.set pgPAIR F.PAIR_STAT_LEAD (s.get pgPAIR F.PAIR_CFG_PRIMARY)).set pgPAIR F.PAIR_STAT_DUAL 0
  else if !was then pairStart s else leadCheck s

/-- LINK_DOWN (R281, R309). -/
def linkDown (x : Nat) (s : State) : State :=
  if !(ethOf s x).up then s
  else
    let s := (updEth s x fun p => { p with up := false, pauseEnd := none }).evt (pgETH x) 1
    let s := (s.set (pgETH x) F.ETH_LINKSTAT_UP 0).set (pgETH x) F.ETH_LINKSTAT_PAUSED 0
    pairOff (refresh (pgETH x) (judge x 2 s))

/-- A port whose mode is OFF has stopped its SerDes, and loses its link (R312). -/
def linksOff (s : State) : State :=
  [0, 1].foldl (fun s x => if effMode s (pgETH x) = 0 ∧ s.get (pgETH x) F.HDR_REQ_MODE = 0 then linkDown x s else s) s

/-- The base page of Clause 37 that the node advertises: full duplex and symmetric PAUSE (R280). -/
def clause37 : Word := 0x00A0

/-- LINK_UP (R281): the SerDes runs in every mode but OFF. At 1000BASE-X with AN the link was negotiated under Clause 37 (R280). -/
def linkUp (x : Nat) (s : State) : State :=
  if (ethOf s x).up ∨ s.get (pgETH x) F.HDR_REQ_MODE = 0 ∨ !domainOn s 10 then s
  else
    let s := if s.get (pgETH x) F.ETH_CFG_SPEED = 0 ∧ s.flag (pgETH x) F.ETH_CFG_AN then s.emit (.ethAdvert x clause37) else s
    refresh (pgETH x) (((updEth s x fun p => { p with up := true }).set (pgETH x) F.ETH_LINKSTAT_UP 1).evt (pgETH x) 0)

/-! ### Merged flows (R295, R296) -/

/-- The bindings of an address and port on a path: video flows 0 to 7, AES67 streams 8 to 15 (R295, R315). -/
def bindingsOf (s : State) (x dst port : Nat) : List Nat :=
  if !isPath s x then []
  else (List.range 16).filter fun n =>
    let o := 0x100 + 16 * n
    let ports := s.reg pgPAIR (o + 12)
    bitsOf (s.reg pgPAIR o) 0 1 = 1 && (s.reg pgPAIR (o + 4 + 4 * x)).toNat = dst && bitsOf ports (16 * x) 16 = port

/-- A sequence number of `w` bits extended to the one nearest the newest. -/
def extendSeq (w : Nat) (m : Merge) (n : Nat) : Nat :=
  match m.newest with
  | none => n + 2 ^ (w + 1)
  | some k => ((k : Int) + signed w (toField w ((n : Int) - k))).toNat

/-- A packet number from a path put through a merge with window `w` (R296): the merge, 0 accepted, 1 duplicate or 2 late, the numbers that
left the window which each path missed, and those which neither delivered. -/
def mergeStep (w : Nat) (m : Merge) (x n : Nat) : Merge × Nat × (Nat × Nat) × Nat :=
  match m.newest with
  | none => (⟨n, some n, [(n, 2 ^ x)]⟩, 0, (0, 0), 0)
  | some k =>
    if n + w ≤ k then (m, 2, (0, 0), 0)
    else match amGet m.seen n with
      | some b => ({ m with seen := amSet m.seen n (b ||| 2 ^ x) }, 1, (0, 0), 0)
      | none =>
        let seen := amSet m.seen n (2 ^ x)
        if n ≤ k then ({ m with seen := seen }, 0, (0, 0), 0)
        else
          -- numbers up to n − w leave the window
          let lo := max m.first (k + 1 - w)
          let hi := n + 1 - w
          let gone := seen.filter fun e => e.1 < hi
          let total := hi - lo
          let by' := fun (p : Nat) => total - (gone.filter fun e => lo ≤ e.1 && e.2 / 2 ^ p % 2 = 1).length
          let none' := total - (gone.filter fun e => decide (lo ≤ e.1)).length
          (⟨m.first, some n, seen.filter fun e => hi ≤ e.1⟩, 0, (by' 0, by' 1), none')

/-- Misses of the paths counted (R296, R309). -/
def countMiss (a b : Nat) (s : State) : State :=
  let s := if isPath s 0 then s.bump pgPAIR F.PAIR_st_MISSA a else s
  let s := if isPath s 1 then s.bump pgPAIR F.PAIR_st_MISSB b else s
  updPair s fun p => { p with miss := [p.miss.getD 0 0 + a, p.miss.getD 1 0 + b] }

/-- A veneer's converter takes the video flow of binding `n` (R104, R109). -/
def takesFlow (s : State) (v n : Nat) : Bool := ingests s v && s.get (pgVEN v) F.VEN_CFG_SRC = 1 && s.get (pgVEN v) F.VEN_CFG_FLOW = n

/-- The merge of binding `n`, the window and bits of its numbers, and a packet's extended number (R296). -/
def rtpNumber (s : State) (n : Nat) (d : List Byte) : Merge × Nat × Nat :=
  let low := beVal (slice d 2 2)
  let (w, bits, raw) := if n < 8 then (4096, 32, beVal (slice d (rtpHead d) 2) * 65536 + low) else (256, 16, low)
  let m := if n < 8 then s.net.video.getD n {} else s.net.audio.getD (n - 8) {}
  (m, w, extendSeq bits m raw)

/-- An RTP packet of a binding on a path (R296): merged, and the first copy given to its consumer. -/
def rtpPacket (x n : Nat) (d : List Byte) (s : State) : State :=
  let video := n < 8
  let (m, w, num) := rtpNumber s n d
  let (m, kind, (a, b), lost) := mergeStep w m x num
  let s := updNet s fun k => if video then { k with video := k.video.set n m } else { k with audio := k.audio.set (n - 8) m }
  let s := countMiss a b s
  let s := if video then s else aesMissing (n - 8) lost s
  match kind with
  | 1 => s.bump pgPAIR F.PAIR_st_MERGEDUP
  | 2 => s.bump pgPAIR F.PAIR_st_MERGELATE
  | _ =>
    if video then
      (List.range 16).foldl (fun s v =>
        if takesFlow s v n then videoPacket v num d s else s) s
    else aesPacket (n - 8) (beVal (slice d 4 4)) (d.drop (rtpHead d)) s

/-! ### sACN (R293, R294) -/

/-- The universes the node listens to (R293). -/
def listens (s : State) (u : Nat) : Bool :=
  (List.range 16).any fun v =>
    let f := s.get (pgVEN v) F.VEN_SACN_FIRSTU
    ingests s v && s.get (pgVEN v) F.VEN_CFG_SRC = 2 && f ≤ u && u < f + s.get (pgVEN v) F.VEN_SACN_NUMU

/-- How many universes the union of R293 holds. -/
def listened (s : State) : Nat :=
  let rs := (List.range 16).filterMap fun v =>
    if ingests s v ∧ s.get (pgVEN v) F.VEN_CFG_SRC = 2 then
      some (s.get (pgVEN v) F.VEN_SACN_FIRSTU, s.get (pgVEN v) F.VEN_SACN_NUMU) else none
  let rs := rs.insertionSort fun a b => a.1 ≤ b.1
  (rs.foldl (fun (n, e) (f, k) => (n + ((f + k) - max f (min e (f + k))), max e (f + k))) (0, 0)).1

/-- The packet carries the ACN packet identifier of ANSI E1.31. -/
def isAcn (d : List Byte) : Bool := slice d 0 16 = [0, 0x10, 0, 0, 0x41, 0x53, 0x43, 0x2D, 0x45, 0x31, 0x2E, 0x31, 0x37, 0, 0, 0]

/-- The data packets the node accepts (R293). -/
def sacnAccepts (s : State) (d : List Byte) : Bool :=
  let be := fun i n => beVal (slice d i n)
  isAcn d && be 18 4 = 4 && be 40 4 = 2 && (d.getD 117 0) = 2 && be 119 2 = 0 && be 121 2 = 1 && 1 ≤ be 123 2 && be 123 2 ≤ 513 &&
  (d.getD 125 0) = 0 && !(d.getD 112 0).getLsbD 7 && be 109 2 = 0 && listens s (be 113 2)

/-- A data packet for a listened universe (R294). Stream_Terminated removes the holding source; a sender that becomes it takes the universe whatever the
bit says (DEDUCED, notes/assumptions/94.md). -/
def sacnPacket (d : List Byte) (s : State) : State :=
  let u := beVal (slice d 113 2)
  let cid := slice d 22 16
  let prio := (d.getD 108 0).toNat
  let seq := (d.getD 111 0).toNat
  let ended := (d.getD 112 0).getLsbD 6
  let n := beVal (slice d 123 2) - 1
  let data := slice ((d.drop 126).take n) 0 512
  let put := fun (s : State) => updNet s fun k => { k with uni := amSet k.uni u ⟨cid, prio, seq, data, true⟩ }
  match amGet s.net.uni u with
  | none => put s
  | some h =>
    -- past the data-loss timeout, any source may take its place
    if !h.fresh ∧ !(ended ∧ h.cid = cid) then put s
    else if h.cid = cid then
      let diff := signed 8 (toField 8 ((seq : Int) - h.seq))
      if -19 ≤ diff ∧ diff ≤ 0 then s.bump pgPAIR F.PAIR_st_MERGEDUP
      else if ended then updNet s fun k => { k with uni := amDel k.uni u }
      else put s
    else if h.prio < prio then put s
    else (s.bump pgPAIR F.PAIR_st_SRCCONFLICT).evt pgPAIR 4

/-- SACN_DATA_LOSS (R294): the holding source of a universe passes the data-loss timeout. -/
def sacnLoss (u : Nat) (s : State) : State :=
  match amGet s.net.uni u with
  | none => s
  | some h => updNet s fun k => { k with uni := amSet k.uni u { h with fresh := false } }

/-! ### Reception (R282, R283, R292) -/

/-- The largest frame (R282). -/
def frameLimit (s : State) (x : Nat) : Nat := if s.flag (pgETH x) F.ETH_CFG_JUMBO then 9216 else 1522

/-- The class of a frame on a port (R292). -/
def classOf (s : State) (x : Nat) (f : List Byte) : Nat :=
  let (o, t) := etherType f
  if !isPath s x ∨ t = 0x8100 then 0
  else match udpOf f with
    | some u =>
      let d := udpData f u
      if (u.port = 319 ∨ u.port = 320) ∧ (d.getD 4 0).toNat = s.get pgTIME F.TIME_PTPCFG_DOMAIN then 1
      else
        let b := bindingsOf s x u.dst u.port
        if b.any (· < 8) then 2
        else if !b.isEmpty then 3
        else if u.port = 5568 ∧ sacnAccepts s d then 4
        else if u.port = 5568 ∧ isAcn d then 5
        else if u.dst = s.get (pgETH x) F.ETH_IPADDR_IP ∧ u.port = s.get pgCANE F.CANE_CFG_PORT ∧ u.plain then 6
        else 0
    | none =>
      if t = 0x88F7 ∧ (f.getD (o + 6) 0).toNat = s.get pgTIME F.TIME_PTPCFG_DOMAIN then 1
      else if t = 0x0806 then 7
      else 0

/-- The address filter of R282. -/
def addrOk (s : State) (x cls : Nat) (f : List Byte) : Bool :=
  let dst := beVal (slice f 0 6)
  dst = macOf s x || dst = 2 ^ 48 - 1 || s.flag (pgETH x) F.ETH_CFG_PROMISC ||
  ((f.getD 0 0).getLsbD 0 && (s.flag (pgETH x) F.ETH_CFG_ALLMULTI || cls ≠ 0))

/-- The nanoseconds × 65,536 of one pause quantum: 512 bit times at the port's speed (R283). -/
def quantum (s : State) (x : Nat) : Nat :=
  match s.get (pgETH x) F.ETH_CFG_SPEED with | 0 => 512 * 65536 | 1 => 512 * 6553 + 307 | _ => 512 * 2621 + 225

/-- A received PAUSE frame (R283). -/
def pauseReceive (x q : Nat) (s : State) : State :=
  let p := pgETH x
  let s := (s.bump p F.ETH_st_PAUSERX).evt p 4
  if !s.flag p F.ETH_CFG_RXPAUSE then s
  else if q = 0 then (updEth s x fun e => { e with pauseEnd := none }).set p F.ETH_LINKSTAT_PAUSED 0
  else (updEth s x fun e => { e with pauseEnd := some (s.time.ft + q * quantum s x) }).set p F.ETH_LINKSTAT_PAUSED 1

/-- PAUSE_EXPIRY (R283). -/
def pauseExpiry (x : Nat) (s : State) : State :=
  (updEth s x fun e => { e with pauseEnd := none }).set (pgETH x) F.ETH_LINKSTAT_PAUSED 0

/-- The residual t2 − t1 of a Sync on a path, judged against the one before (R309). -/
def residual (x : Nat) (r : Int) (s : State) : State :=
  let thr := s.get pgPAIR F.PAIR_HEALTH_JUMPTHR
  let old := s.net.pair.resid.getD x none
  let s := updPair s fun p => { p with resid := p.resid.set x (some r) }
  match old with
  | some o => if thr ≠ 0 ∧ thr * 65536 < (r - o).natAbs then leadCheck (judge x 5 s) else s
  | none => s

/-- A PTP message given to the time block, with the path's residual (R297, R309). -/
def ptpMessage (x t : Nat) (m : List Byte) (s : State) : State :=
  let rx := rxStamp s x t
  let seq := beVal (slice m 30 2)
  let s := match (m.getD 0 0).toNat % 16 with
    | 0 =>
      if (m.getD 6 0).toNat / 2 % 2 = 1 then updPair s fun p => { p with sync := p.sync.set x (some (seq, rx, ptpCorr m)) }
      else residual x (rx - ptpStamp m 34 - ptpCorr m) s
    | 8 =>
      match s.net.pair.sync.getD x none with
      | some (q, r, c) => if q = seq then residual x (r - ptpStamp m 34 - c - ptpCorr m) s else s
      | none => s
    | _ => s
  withStep (ptpReceive x t m) s

/-- An ARP request for the port's address is answered on the lead path (R292, R301). -/
def arpReceive (x : Nat) (f : List Byte) (s : State) : State :=
  let (o, _) := etherType f
  let a := o + 2
  let ip := s.get (pgETH x) F.ETH_IPADDR_IP
  if s.flag pgCANE F.CANE_CFG_ARPEN ∧ inRun s pgCANE ∧ beVal (slice f (a + 6) 2) = 1 ∧ beVal (slice f (a + 24) 4) = ip then
    let mac := macOf s x
    let reply := fun (y : Nat) => slice f (a + 8) 6 ++ beBytes 6 (macOf s y) ++ [0x08, 0x06, 0, 1, 8, 0, 6, 4, 0, 2] ++ beBytes 6 mac ++ beBytes 4 ip ++
      slice f (a + 8) 10
    (queueLead 3 reply s).bump pgCANE F.CANE_st_ARPREPLIES
  else s

/-- A Cane request put into the responder's input store, or dropped where its 8 places are used (R499). -/
def caneStore (r : CaneReq) (s : State) : State :=
  if s.net.cane.store.length < 8 then updNet s fun n => { n with cane := { n.cane with store := n.cane.store ++ [r] } }
  else if r.path < 2 then (s.bump (pgETH r.path) F.ETH_st_RX_NOBUF).evt (pgETH r.path) 2
  else s

/-- The hardware consumer of a class takes a frame (R292), `f` without its FCS; `full`: its input store was full and the frame is dropped (R499). -/
def consume (x cls t : Nat) (f whole : List Byte) (full : Bool) (s : State) : State :=
  let d := match udpOf f with | some u => udpData f u | none => []
  match cls with
  | 1 =>
    if full ∨ (udpOf f).isNone ≠ s.flag pgTIME F.TIME_PTPCFG_TRANSPORT then s
    else ptpMessage x t (if d.isEmpty then f.drop ((etherType f).1 + 2) else d) s
  | 2 | 3 =>
    match udpOf f with
    | none => s
    | some u => (bindingsOf s x u.dst u.port).foldl (fun s n =>
        if !full then rtpPacket x n d s
        else if n < 8 then
          (List.range 16).foldl (fun s v =>
            if takesFlow s v n then videoLost v (rtpNumber s n d).2.2 d s else s) s
        else aesMissing (n - 8) 1 s) s
  | 4 =>
    if !full then sacnPacket d s
    else (List.range 16).foldl (fun s v =>
      let u := beVal (slice d 113 2)
      let lo := s.get (pgVEN v) F.VEN_SACN_FIRSTU
      if ingests s v ∧ s.get (pgVEN v) F.VEN_CFG_SRC = 2 ∧ lo ≤ u ∧ u < lo + s.get (pgVEN v) F.VEN_SACN_NUMU ∧ !(venOf s v).lost then
        inDrop v (updVen s v fun k => { k with lost := true }) else s) s
  | 6 =>
    if !inRun s pgCANE then s
    else match udpOf f with
      | some u => caneStore ⟨x, beVal (slice f 6 6), beVal (slice f (u.ip + 12) 4), beVal (slice f u.udp 2), u.dst, d, whole, (rxStamp s x t / 4096).toNat⟩ s
      | none => s
  | 7 => arpReceive x f s
  | _ => s

/-- The ring a class's frames are copied to (R292); 4 or more: none. A Cane request's own copy is made after its check (R307). -/
def ringOf (s : State) (x cls : Nat) : Nat :=
  match cls with
  | 0 => s.get (pgETH x) F.ETH_RINGSEL_OTHER
  | 1 => s.get (pgETH x) F.ETH_RINGSEL_PTP
  | 5 => s.get (pgETH x) F.ETH_RINGSEL_SACN
  | 7 => s.get (pgETH x) F.ETH_RINGSEL_ARP
  | _ => 4

/-- Bytes counted in units of 64, the rest kept (R314). -/
def countBytes (x : Nat) (tx : Bool) (n : Nat) (s : State) : State :=
  let r := (if tx then (ethOf s x).txRem else (ethOf s x).rxRem) + n
  let s := updEth s x fun p => if tx then { p with txRem := r % 64 } else { p with rxRem := r % 64 }
  s.bump (pgETH x) (if tx then F.ETH_st_TXBYTES else F.ETH_st_RXBYTES) (r / 64)

/-- ETH_FRAME_RECEIVE (R282): a frame with its FCS, received at an FT. -/
def ethReceive (x t : Nat) (f : List Byte) (full : Bool) (s : State) : State :=
  let p := pgETH x
  let m := effMode s p
  let dead := !(ethOf s x).up && m ≠ 3
  if m = 0 ∨ dead then s
  else if f.length < 64 then s.bump p F.ETH_st_RUNTS
  else
    let ok := fcsOk f
    let body := noFcs f
    let dst := beVal (slice f 0 6)
    let pause := slice f 12 4 = [0x88, 0x08, 0x00, 0x01] && ok && (dst = 0x0180C2000001 || dst = macOf s x)
    if pause then pauseReceive x (beVal (slice f 16 2)) s
    else
      let cls := classOf s x body
      if !addrOk s x cls f then (if m = 1 then s else s.bump p F.ETH_st_ADDRDROP)
      else
        let lim := frameLimit s x
        let s := if ok ∧ f.length ≤ lim then wakeFilters x body s else s
        if m = 1 then s
        else
          let s := countBytes x false f.length (s.bump p F.ETH_st_RXFRAMES)
          let ts := (rxStamp s x t / 4096).toNat
          if lim < f.length then
            toRing x (ringOf s x cls) (f.take lim) cls 8 ts true (s.bump p F.ETH_st_OVERSIZE)
          else if !ok then
            let s := updPair (s.bump p F.ETH_st_FCSERR) fun k => { k with fcs := k.fcs.set x (k.fcs.getD x 0 + 1) }
            toRing x (ringOf s x cls) f cls 16 ts false s
          else
            toRing x (ringOf s x cls) f cls 0 ts false (consume x cls t body f full s)

/-! ### Transmission (R289 to R291) -/

/-- The descriptors of the chain at a transmit ring's head: (index, address, length, flags), up to LAST, the next FIRST or the tail. One that cannot be
read ends the chain, which then lacks its FIRST or its LAST (R289, R417). -/
def readChain (r : Ring) (first : Bool) : Nat → Nat → State → State × List (Nat × Nat × Nat × Nat)
  | 0, _, s => (s, [])
  | n + 1, i, s =>
    match readDesc r i s with
    | (s, some (a, len, fl)) =>
      if fl % 2 = 0 ∨ (!first ∧ fl / 2 % 2 = 1) then (s, [])
      else if fl / 4 % 2 = 1 then (s, [(i, a, len, fl)])
      else
        let (s, l) := readChain r false n (i + 1) s
        (s, (i, a, len, fl) :: l)
    | (s, none) => (s, [(i, 0, 0, 0)])

/-- The bytes of key slot `k`, if it is valid (R306). -/
def caneKey (s : State) (k : Nat) : Option (List Byte) :=
  let w := (List.range 8).map fun i => s.net.cane.keys.getD (8 * k + i) none
  if w.all Option.isSome then some (w.flatMap fun x => leBytes 4 (x.getD 0).toNat) else none

/-- The tag of a message (R298). -/
def caneTag (key msg : List Byte) : List Byte := (hmac256 key msg).take 16

/-- A frame of a CANESIGN chain signed (R307), or none where it is not one IPv4 UDP frame that holds a whole message with a valid slot. -/
def caneSign (s : State) (f : List Byte) : Option (List Byte) :=
  match udpOf f with
  | none => none
  | some u =>
    let d := udpData f u
    let n := 48 + beVal (slice d 28 2)
    if beVal (slice f (u.ip + 6) 2) % 16384 ≠ 0 ∨ d.length ≠ n ∨ f.length < u.udp + 8 + n ∨ slice d 0 3 ≠ [0x43, 0x4E, 1] ∨ 2 ≤ (d.getD 6 0).toNat then none
    else match caneKey s (d.getD 6 0).toNat with
      | none => none
      | some key =>
        let d := d.take (n - 16) ++ caneTag key (d.take (n - 16))
        let udp := slice f u.udp 6 ++ [0, 0] ++ d
        let c := udpSum (beVal (slice f (u.ip + 12) 4)) u.dst udp
        some (f.take u.udp ++ slice f u.udp 6 ++ beBytes 2 c ++ d ++ f.drop (u.udp + 8 + n))

/-- A frame leaves a port now: on the line, or in TEST back into it (R312); a PTP event message with its departure time (R34). -/
def sendFrame (x : Nat) (f : List Byte) (s : State) : State :=
  let (s, f) := ptpDepart x f s
  let s := countBytes x true (f.length + 4) (s.bump (pgETH x) F.ETH_st_TXFRAMES)
  if effMode s (pgETH x) = 3 then ethReceive x s.time.ft (withFcs f) false s else s.emit (.ethFrame x (withFcs f))

/-- The next chain of a transmit ring sent, or refused with ERR (R289); false: the ring holds none. -/
def sendRing (x : Nat) (lead : Bool) (s : State) : State × Bool :=
  let r := if lead then leadRing x else txRing x
  let h := r.headOf s % r.size s
  if r.free s = 0 then (s, false)
  else
    let (s, l) := readChain r true (r.free s) h s
    match l with
    | [] => (s, false)
    | (_, _, _, fl0) :: _ =>
      let last := (l.getLast?.map fun e => e.2.2.2).getD 0
      let (s, bytes) := l.foldl (fun (s, acc) (_, a, len, _) =>
        let (s, b) := rd r.who a len s
        (s, match acc, b with | some p, some q => some (p ++ q) | _, _ => none)) ((s, some []) : State × Option (List Byte))
      let total := (l.map fun e => e.2.2.1).sum
      let bad := fl0 / 2 % 2 = 0 ∨ last / 4 % 2 = 0 ∨ frameLimit s x < total + 4 ∨ l.any (fun e => e.2.2.1 = 0 || 16384 < e.2.2.1)
      let f := if bad then none else bytes
      let f := match f with
        | some b => if fl0 / 16 % 2 = 1 then caneSign s b else some b
        | none => none
      let ts := (txStamp s x s.time.ft / 4096).toNat
      let fin := fun (err : Bool) (s : State) =>
        let s := l.foldl (fun s (i, _, _, fl) =>
          let a := r.desc s i
          let s := if fl / 8 % 2 = 1 ∧ !err then wr' r.who (a + 8) (leBytes 4 (ts / 16) ++ leBytes 1 (ts % 16)) s else s
          wr' r.who (a + 14) (leBytes 2 ((fl &&& 0xFFFE) ||| (if err then 64 else 32))) s) s
        r.setHead (h + l.length) s
      match f with
      | none => (fin true s, true)
      | some b =>
        let b := if lead then rewriteLead s x false b else b
        let s := sendFrame x b s
        let s := if lead ∧ s.flag pgPAIR F.PAIR_STAT_DUAL then queueTx (1 - x) 4 (rewriteLead s (1 - x) false b) s else s
        ((fin false s).evt (pgETH x) 6, true)

/-- A frame of the device's own at a precedence, taken from its port's queue. -/
def takeTx (x prio : Nat) (s : State) : State × Option (List Byte) :=
  match (ethOf s x).txq.find? (·.1 = prio) with
  | none => (s, none)
  | some e => (updEth s x fun p => { p with txq := p.txq.erase e }, some e.2)

/-- The port may send a frame that is not a PAUSE now: it runs, it has a link or loops back, and no PAUSE frame waits or holds it (R283, R290). -/
def maySend (s : State) (x : Nat) : Bool :=
  runTest s (pgETH x) && ((ethOf s x).up || effMode s (pgETH x) = 3) && !(ethOf s x).txq.any (·.1 = 1) && (ethOf s x).pauseEnd.isNone

/-- PTP_EVENT_TRANSMIT (R34): a Sync of a master, or a Delay_Req of a slave, originated on the lead path; it leaves at once where the port may
send, behind what waits at its precedence, and otherwise at a later frame boundary. -/
def ptpTransmit (port : Nat) (delayReq : Bool) (s : State) : State :=
  if port ≠ s.get pgPAIR F.PAIR_STAT_LEAD ∨ (delayReq = ptpMaster s) then s
  else
    let s := ptpOriginate delayReq s
    if !maySend s port ∨ ((ethOf s port).txq.filter (·.1 = 2)).length ≠ 1 then s
    else match takeTx port 2 s with
      | (s, some f) => sendFrame port f s
      | (s, none) => s

/-- ETH_FRAME_TRANSMIT (R290): the frame of highest precedence leaves. -/
def ethTransmit (x : Nat) (s : State) : State :=
  let p := pgETH x
  if !runTest s p ∨ (!(ethOf s x).up ∧ effMode s p ≠ 3) then s
  else
    match takeTx x 1 s with
    | (s, some f) => sendFrame x f (s.bump p F.ETH_st_PAUSETX)
    | (s, none) =>
      if (ethOf s x).pauseEnd.isSome then s
      else match takeTx x 2 s with
        | (s, some f) => sendFrame x f s
        | (s, none) => match takeTx x 3 s with
          | (s, some f) => sendFrame x f s
          | (s, none) => match takeTx x 4 s with
            | (s, some f) => sendFrame x f s
            | (s, none) =>
              let (s, done) := if leadOf s = x then sendRing x true s else (s, false)
              if done then s else (sendRing x false s).1

/-- A write of RXTAILr (R286, R288). -/
def rxTail (x r : Nat) (v : Word) (s : State) : State := pauseCheck x false (s.setReg (pgETH x) (0x068 + 16 * r) (v &&& 0xFFF))

/-- A write of TXTAIL of port A (0) or B (1), or of the lead ring (2) (R289). -/
def txTail (k : Nat) (v : Word) (s : State) : State :=
  if k < 2 then s.setReg (pgETH k) 0x0A8 (v &&& 0xFFF) else s.setReg pgPAIR 0x068 (v &&& 0xFFF)

/-! ### Meanings -/

/-- SACN_DATA_LOSS (R294). -/
def execSacnDataLoss (universe' : BitVec 16) (s : State) := act (sacnLoss universe'.toNat) s
/-- LINK_DOWN (R281). -/
def execLinkDown (port : Fin 2) (s : State) := act (linkDown port) s
/-- LINK_UP (R281). -/
def execLinkUp (port : Fin 2) (s : State) := act (linkUp port) s
/-- PAUSE_RECEIVE (R283). -/
def execPauseReceive (port : Fin 2) (quanta : BitVec 16) (s : State) := act (pauseReceive port quanta.toNat) s
/-- PAUSE_EXPIRY (R283). -/
def execPauseExpiry (port : Fin 2) (s : State) := act (pauseExpiry port) s
/-- PAUSE_GENERATE (R288). -/
def execPauseGenerate (port : Fin 2) (s : State) := act (pauseCheck port true) s
/-- RXTAIL_WRITE (R286). -/
def execRxtailWrite (port : Fin 2) (ring : Fin 4) (v : Word) (s : State) := act (rxTail port ring v) s
/-- TXTAIL_WRITE (R289): of port A, port B or the lead ring. -/
def execTxtailWrite (ring : Fin 3) (v : Word) (s : State) := act (txTail ring v) s
/-- ETH_FRAME_TRANSMIT (R290). -/
def execEthFrameTransmit (port : Fin 2) (s : State) := act (ethTransmit port) s
/-- PTP_EVENT_TRANSMIT (R34). -/
def execPtpEventTransmit (port : Fin 2) (delayReq : Bool) (s : State) := act (ptpTransmit port delayReq) s
/-- HEALTH_WINDOW_END (R309). -/
def execHealthWindowEnd (s : State) := act healthWindow s
/-- PATH_RECOVER (R309). -/
def execPathRecover (path : Fin 2) (s : State) := act (pathRecover path) s
/-- SWAP (R310): agent `a` writes PAIR.CTL. -/
def execSwap (a : BitVec 4) (v : Word) (s : State) := act (pairSwap a.toNat v) s
/-- DUAL_WINDOW_END (R311). -/
def execDualWindowEnd (s : State) := act dualEnd s
/-- PAIRING_START (R310). -/
def execPairingStart (s : State) := act pairStart s

end Sys2Proof.Machine
end

