-- ==== Sys2Proof/Machine/Link.lean ====
section
/-!
DEFINITION. The courses of a Brura lane: symbols, commas, headers, scrambler and RS(272,256) (R319 to R327).
-/
namespace Sys2Proof.Machine
open Sys2Proof

/-! ### GF(2^8) and RS(272,256) (R327) -/

/-- A product in GF(2^8) with the polynomial x^8 + x^4 + x^3 + x^2 + 1. -/
def gfMul (a b : Nat) : Nat :=
  ((List.range 8).foldl (fun (acc : Nat × Nat) i =>
    let r := if b / 2 ^ i % 2 = 1 then acc.1 ^^^ acc.2 else acc.1
    let x := acc.2 * 2
    (r, if x < 256 then x else x ^^^ 0x11D)) ((0, a) : Nat × Nat)).1

/-- A power in GF(2^8). -/
def gfPow (a : Nat) : Nat → Nat
  | 0 => 1
  | n + 1 => gfMul a (gfPow a n)

/-- The inverse in GF(2^8): a^254. -/
def gfInv (a : Nat) : Nat :=
  (List.range 7).foldl (fun (acc : Nat × Nat) _ => let sq := gfMul acc.2 acc.2; (gfMul acc.1 sq, sq)) ((1, a) : Nat × Nat) |>.1

/-- α^n, α = 0x02. -/
def alpha (n : Nat) : Nat := gfPow 2 (n % 255)

/-- The coefficients of the generator polynomial with roots α^0 to α^15, highest degree first. -/
def rsGen : List Nat :=
  (List.range 16).foldl (fun g i =>
    let a := alpha i
    (List.range (g.length + 1)).map fun k => (g.getD k 0) ^^^ (if k = 0 then 0 else gfMul a (g.getD (k - 1) 0))) [1]

/-- The 16 parity bytes of a 256-byte payload. -/
def rsParity (d : List Byte) : List Byte :=
  (d.foldl (fun r b =>
    let f := (r.getD 0 0) ^^^ b.toNat
    (List.range 16).map fun k => (r.getD (k + 1) 0) ^^^ gfMul f (rsGen.getD (k + 1) 0)) (List.replicate 16 0)).map (BitVec.ofNat 8)

/-- A polynomial, highest degree first, evaluated at a point. -/
def gfEval (p : List Nat) (x : Nat) : Nat := p.foldl (fun a c => gfMul a x ^^^ c) 0

/-- One step of the Berlekamp-Massey recursion: Λ and B lowest degree first, L, m, b. -/
def bmStep (syn : List Nat) (st : List Nat × List Nat × Nat × Nat × Nat) (n : Nat) : List Nat × List Nat × Nat × Nat × Nat :=
  let (lam, bp, len, m, b) := st
  let d := (List.range (len + 1)).foldl (fun a i => a ^^^ gfMul (lam.getD i 0) (if i ≤ n then syn.getD (n - i) 0 else 0)) 0
  if d = 0 then (lam, bp, len, m + 1, b)
  else
    let k := gfMul d (gfInv b)
    let size := max lam.length (bp.length + m)
    let new := (List.range size).map fun i => (lam.getD i 0) ^^^ (if m ≤ i then gfMul k (bp.getD (i - m) 0) else 0)
    if 2 * len ≤ n then (new, lam, n + 1 - len, 1, d) else (new, bp, len, m + 1, b)

/-- A received codeword of 272 bytes decoded: the payload and the number of bytes corrected, or none for a course with more errors than
the code corrects. -/
def rsDecode (c : List Byte) : Option (List Byte × Nat) :=
  let p := c.map (·.toNat)
  let syn := (List.range 16).map fun i => gfEval p (alpha i)
  if syn.all (· = 0) then some (c.take 256, 0)
  else
    let (lam, _, len, _, _) := (List.range 16).foldl (bmStep syn) ([1], [1], 0, 1, 1)
    let evalUp := fun (q : List Nat) (x : Nat) => gfEval q.reverse x
    -- error at byte j has the locator α^(271 − j)
    -- positions j and j + 255 share a locator, the field having 255 non-zero elements; which one is in error is open
    let errs := ((List.range 255).filter fun j => evalUp lam (gfInv (alpha (271 - j))) = 0).map fun j =>
      if j < 17 ∧ Config.rsSecond c j then j + 255 else j
    if 8 < len ∨ errs.length ≠ len then none
    else
      let omega := (List.range 16).map fun k => (List.range (k + 1)).foldl (fun a i => a ^^^ gfMul (lam.getD i 0) (syn.getD (k - i) 0)) 0
      let dlam := (List.range (lam.length - 1)).map fun i => if i % 2 = 0 then lam.getD (i + 1) 0 else 0
      let fix := errs.map fun j =>
        let x := alpha (271 - j)
        let xi := gfInv x
        (j, gfMul x (gfMul (evalUp omega xi) (gfInv (evalUp dlam xi))))
      let q := (List.range 272).map fun j => (p.getD j 0) ^^^ ((amGet fix j).getD 0)
      if (List.range 16).all fun i => gfEval q (alpha i) = 0 then some ((q.take 256).map (BitVec.ofNat 8), len) else none

/-! ### Scrambler, symbols and commas (R319 to R326) -/

/-- The scrambler's output for a number of bits from a state (R326). -/
def scrambleBits : Nat → BitVec 31 → List Bool
  | 0, _ => []
  | n + 1, st =>
    let o := st.getLsbD 30 ^^ st.getLsbD 27
    o :: scrambleBits n ((st <<< 1) ||| (if o then 1 else 0))

/-- 272 payload bytes scrambled, or descrambled, for a lane (R326), as bits. -/
def scramble (lane : Nat) (d : List Byte) : List Bool :=
  (bitsOfBytes d).zipWith (fun a b => a ^^ b) (scrambleBits 2176 (if lane = 0 then 0x7FFFFFFF else 0x55555555))

/-- The Gray index of a bit pair (R319). -/
def grayIdx (a b : Bool) : Nat := if a then (if b then 2 else 3) else (if b then 1 else 0)

/-- Bits in pairs to symbol indices. -/
def graySyms : List Bool → List Nat
  | a :: b :: t => grayIdx a b :: graySyms t
  | _ => []

/-- The plain comma of a lane (R323). -/
def comma (lane : Nat) : List Nat :=
  [3, 3, 3, 3, 3, 3, 0, 0, 0, 0, 0, 0] ++ (if lane = 0 then [3, 0, 3, 0] else [0, 3, 0, 3])

/-- The precoder 1/(1+D) from a state (R320). -/
def precode : Nat → List Nat → List Nat
  | _, [] => []
  | p, x :: t => let q := (x + 4 - p) % 4; q :: precode q t

/-- The 1,120 symbol indices of a course (R322): comma, header and payload, precoded and inverted as the port is set. -/
def courseSyms (pre inv : Bool) (lane : Nat) (hdr : Word) (payload : List Byte) : List Nat :=
  let h := graySyms ((List.range 32).map fun i => hdr.getLsbD (31 - i))
  let x := comma lane ++ h ++ graySyms (scramble lane (payload ++ rsParity payload))
  let x := if pre then precode 0 x else x
  if inv then x.map (3 - ·) else x

/-- The CRC-8 of a header over its bits [31:8] (R324). -/
def hcrc (hdr : Word) : Nat :=
  (List.range 24).foldl (fun c i =>
    let b := (hdr.getLsbD (31 - i)).toNat
    let t := (c / 128 % 2) ^^^ b
    (c * 2 % 256) ^^^ (if t = 1 then 7 else 0)) 0

/-- A header with its HCRC. -/
def sealHdr (v : Nat) : Word := let h : Word := BitVec.ofNat 32 (v / 256 * 256); h ||| BitVec.ofNat 32 (hcrc h)

/-- A header is valid (R324). -/
def hdrValid (h : Word) : Bool := h.toNat % 256 = hcrc h

/-- An FT value in a TIME payload: seconds, nanoseconds and fraction (R341). -/
def ftBytes (t : Nat) : List Byte := beBytes 6 (t / secUnits) ++ beBytes 4 (t / 65536 % 1000000000) ++ beBytes 2 (t % 65536)
/-- The FT that 12 bytes spell. -/
def ftOfBytes (b : List Byte) : Nat := (beVal (slice b 0 6) * 1000000000 + beVal (slice b 6 4)) * 65536 + beVal (slice b 10 2)

end Sys2Proof.Machine
end

