-- ==== Sys2Proof/Machine/Fabric.lean ====
section
/-!
DEFINITION. The Brura fabric (R349 to R391): discovery, roles, routes, floods, tiles, fabric commits and the FAB rings.
-/
namespace Sys2Proof.Machine
open Sys2Proof

/-- The fabric's state changed. -/
def updFab (s : State) (f : FabState → FabState) : State := { s with fab := f s.fab }
/-- Brura port `b`. -/
def bruOf (s : State) (b : Nat) : BruPort := s.bru.getD b {}
/-- A Brura port changed. -/
def updBru (s : State) (b : Nat) (f : BruPort → BruPort) : State := { s with bru := updAt s.bru b f }
/-- The four Brura ports. -/
abbrev bruPorts : List Nat := [0, 1, 2, 3]
/-- The requester of Brura MEDIA and BULK delivery and of the tile publishers (R427). -/
def fabWho : Who := ⟨0, 9, 0, none⟩

/-! ### What a neighbour's DISCOVERY block says (R354) -/

/-- The node ID a neighbour reports. -/
def nbId (s : State) (b : Nat) : Nat := beVal (slice (bruOf s b).ctrlRx 16 3) % 2 ^ 18
/-- Bit `i` of a neighbour's IDFLAGS. -/
def nbFlag (s : State) (b i : Nat) : Bool := ((bruOf s b).ctrlRx.getD 19 0).toNat / 2 ^ i % 2 = 1
/-- A neighbour's rank (R360). -/
def nbRank (s : State) (b : Nat) : List Nat :=
  let c := (bruOf s b).ctrlRx
  [beVal (slice c 20 2), nbId s b / 256, (c.getD 22 0).toNat, nbId s b % 256]

/-- The fabric runs: FAB in RUN or STANDBY (R353, R389). -/
def fabOn (s : State) : Bool := effMode s pgFAB = 1 || effMode s pgFAB = 2
/-- Discovery runs on a port (R353). -/
def discOn (s : State) (b : Nat) : Bool := (bruOf s b).up && (effMode s (pgBRU b) = 1 || effMode s (pgBRU b) = 2)
/-- Bundles flow on a port (R346). -/
def flows (s : State) (b : Nat) : Bool := (bruOf s b).up && effMode s (pgBRU b) = 2
/-- The node ID, once cluster and member are held (R349). -/
def nodeId (s : State) : Option Nat :=
  match s.fab.cluster, s.fab.member with
  | some c, some m => some (c * 256 + m)
  | _, _ => none
/-- The ports with a neighbour that holds a node ID. -/
def nbPorts (s : State) : List Nat := bruPorts.filter fun b => discOn s b && nbFlag s b 0 && nbFlag s b 1

/-! ### Ranks and trees (R360, R361) -/

/-- Hop distances from a set of places, `d` hops away so far, by breadth. -/
def bfs (adj : Nat → List Nat) : Nat → Nat → List Nat → List (Nat × Nat) → List (Nat × Nat)
  | 0, _, _, acc => acc
  | n + 1, d, front, acc =>
    let next := (front.flatMap adj).eraseDups.filter fun x => (acc.lookup x).isNone
    if next.isEmpty then acc else bfs adj n (d + 1) next (acc ++ next.map (·, d + 1))

/-- The distances from some places. -/
def dists (adj : Nat → List Nat) (n : Nat) (start : List Nat) : List (Nat × Nat) := bfs adj n 0 start (start.map (·, 0))

/-- What a record says in place of the node ID of a neighbour that holds none. -/
def noId : Nat := 2 ^ 18

/-- This node's own member record (R357). -/
def ownRecord (s : State) : Member :=
  { serial := Config.serial.toNat, id := (nodeId s).getD 0,
    prios := [s.get pgFAB F.FAB_ROLEPRIO_GWPRIO, s.get pgFAB F.FAB_ROLEPRIO_HEADPRIO, s.get pgFAB F.FAB_ROLEPRIO_CUEPRIO],
    links := bruPorts.map fun b => (discOn s b, if !discOn s b then 0 else if nbFlag s b 0 && nbFlag s b 1 then nbId s b else noId,
      s.get (pgBRU b) F.BRU_DELAY),
    gen := s.fab.gen, at' := s.time.ft }

/-- The member records with this node's own, in member order. -/
def memberDb (s : State) : List (Nat × Member) :=
  match s.fab.member with
  | some m => if (nodeId s).isSome then amSet s.fab.members m (ownRecord s) else s.fab.members
  | none => s.fab.members

/-- The nodes at the end of a record's UP links. -/
def linksOf (s : State) (m : Nat) : List Nat :=
  match amGet (memberDb s) m with
  | some r => (r.links.filter fun l => l.1 && l.2.1 ≠ noId).map (·.2.1)
  | none => []

/-- The border links of this node's cluster: member, port, remote node, the lowest (member, port) first. -/
def allBorders (s : State) : List (Nat × Nat × Nat) :=
  let c := s.fab.cluster.getD 0
  (memberDb s).flatMap fun (m, r) => (r.links.zipIdx.filter fun (l, _) => l.1 && l.2.1 ≠ noId && l.2.1 / 256 ≠ c).map fun (l, p) => (m, p, l.2.1)

/-- The border links that this node's cluster advertises and carries transit on: the 32 lowest (R357). -/
def borderLinks (s : State) : List (Nat × Nat × Nat) := (allBorders s).take 32

/-- The clusters linked to a cluster. -/
def clusterAdj (s : State) (c : Nat) : List Nat :=
  if s.fab.cluster = some c then (borderLinks s).map (·.2.2 / 256)
  else match amGet s.fab.clusters c with
    | some r => r.borders.map (·.2.2 / 256)
    | none => []

/-- The cluster of the root: the lowest ID present (R351). -/
def rootCluster (s : State) : Nat := (s.fab.clusters.map (·.1)).foldl min (s.fab.cluster.getD 1023)

/-- CL of a cluster (R360); one that no link joins to the root's is held to be the farthest. -/
def clOf (s : State) (c : Nat) : Nat := ((dists (clusterAdj s) 1024 [rootCluster s]).lookup c).getD 1023

/-- The members of this node's cluster that a member reaches in one hop. -/
def memberAdj (s : State) (m : Nat) : List Nat :=
  let c := s.fab.cluster.getD 0
  ((linksOf s m).filter (· / 256 = c)).map (· % 256)

/-- The member of the head that this node holds elected. -/
def headMember (s : State) : Option Nat := ((s.fab.holders.getD 1 none).map fun h => h.1.id % 256)

/-- The ML of every member (R360). -/
def mlTable (s : State) : List (Nat × Nat) :=
  let c := s.fab.cluster.getD 0
  let start := if rootCluster s = c then (match headMember s with | some m => [m] | none => [])
    else ((allBorders s).filter fun e => clOf s (e.2.2 / 256) < clOf s c).map (·.1)
  dists (memberAdj s) 256 start.eraseDups

/-- The rank of a node as the databases give it (R360). -/
def rankOf (s : State) (ml : List (Nat × Nat)) (id : Nat) : List Nat :=
  let c := id / 256
  [clOf s c, c, if s.fab.cluster = some c then (ml.lookup (id % 256)).getD 255 else 0, id % 256]

/-- This node's rank. -/
def ownRank (s : State) : List Nat := rankOf s (mlTable s) ((nodeId s).getD 0)

/-- The up neighbours of this node, by port, the lowest rank first (R361). -/
def upPorts (s : State) : List Nat :=
  let own := ownRank s
  ((nbPorts s).filter fun b => lexLt (nbRank s b) own).insertionSort fun a b => !lexLt (nbRank s b) (nbRank s a)

/-- The parent's port (tree 0) or the alternate's (tree 1) (R361). -/
def parentPort (s : State) (tree : Nat) : Option Nat :=
  match upPorts s with
  | [] => none
  | a :: t => if tree = 0 then some a else some (t.headD a)

/-- The parent or alternate of a member of this cluster, from its record. -/
def parentOf (s : State) (ml : List (Nat × Nat)) (tree m : Nat) : Option Nat :=
  let own := rankOf s ml (s.fab.cluster.getD 0 * 256 + m)
  let ups := ((linksOf s m).filter fun n => lexLt (rankOf s ml n) own).insertionSort fun a b => !lexLt (rankOf s ml b) (rankOf s ml a)
  match ups with
  | [] => none
  | a :: t => if tree = 0 then some a else some (t.headD a)

/-- The up neighbours of a border member of another cluster that lie in lower clusters, by the border links that its cluster's record holds, the lowest
rank first (R360, R361). Only in this node's own cluster is an ML known. -/
def upBorders (s : State) (ml : List (Nat × Nat)) (id : Nat) (r : Cluster) : List Nat :=
  let key := fun (n : Nat) => [clOf s (n / 256), n / 256]
  let low := key id
  (((r.borders.filter fun e => e.1 = id % 256).map (·.2.2)).filter fun n => lexLt (key n) low).insertionSort
    fun a b => !lexLt (rankOf s ml b) (rankOf s ml a)

/-- A down neighbour of another cluster takes this node as its parent (tree 0) or its alternate (tree 1), as far as its cluster's record tells (R361);
one whose record does not tell is held to (DEDUCED, notes/assumptions/115.md). -/
def hangsHere (s : State) (ml : List (Nat × Nat)) (tree b : Nat) : Bool :=
  let id := nbId s b
  match amGet s.fab.clusters (id / 256) with
  | none => true
  | some r =>
    match upBorders s ml id r with
    | [] => true
    | a :: t => if tree = 0 then nodeId s = some a else match t with | x :: _ => nodeId s = some x | [] => nodeId s = some a

/-- The ports of this node's children on a tree: down neighbours that do not, by their records, hang from another node. -/
def childPorts (s : State) (tree : Nat) : List Nat :=
  let own := ownRank s
  let ml := mlTable s
  (nbPorts s).filter fun b =>
    lexLt own (nbRank s b) &&
      (if s.fab.cluster ≠ some (nbId s b / 256) then hangsHere s ml tree b
      else if (amGet s.fab.members (nbId s b % 256)).isSome then parentOf s ml tree (nbId s b % 256) = nodeId s else true)

/-- The ports between nodes of one cluster of which one end holds no member yet: a flood crosses them, so that a head is elected and records reach a node
that joins (DESIGN CHOICE, notes/assumptions/113.md). -/
def joinPorts (s : State) : List Nat :=
  bruPorts.filter fun b => discOn s b && nbFlag s b 0 && s.fab.cluster = some (nbId s b / 256) && (!nbFlag s b 1 || s.fab.member.isNone)

/-- The ports of a tree's neighbours. -/
def treePorts (s : State) (tree : Nat) : List Nat :=
  (if (nodeId s).isNone then [] else (parentPort s tree).toList ++ childPorts s tree) ++ joinPorts s

/-- LEVEL (R361): in the root's cluster the distance to the root, next to it one more than the parent's; further out what no record holds is open. -/
def levelOf' (s : State) : Nat :=
  match s.fab.cluster, s.fab.member with
  | some c, some m =>
    let ml := ((mlTable s).lookup m).getD 0
    if rootCluster s = c then ml
    else match parentPort s 0 with
      | some b => if nbId s b / 256 = rootCluster s then (nbRank s b).getD 2 0 + 1 else ml + 1 + Config.treeLevel (clOf s c) c m
      | none => ml + 1 + Config.treeLevel (clOf s c) c m
  | _, _ => 0

/-! ### The topology hash (R359) -/

/-- CRC-64 of bytes. -/
def crc64 (b : List Byte) : Dword :=
  b.foldl (fun c x => (List.range 8).foldl (fun (c : Dword) i =>
    let t := c.getLsbD 63 ^^ x.getLsbD (7 - i)
    if t then (c <<< 1) ^^^ 0x42F0E1EBA9EA3693 else c <<< 1) c) 0

/-- The hash over the member records: serial, node ID and four neighbour IDs of each. -/
def topoHash (s : State) : Dword :=
  crc64 ((memberDb s).flatMap fun (_, r) => beBytes 8 r.serial ++ beBytes 3 r.id ++ (r.links.map fun l => beBytes 3 (l.2.1 % noId)).flatten)

/-! ### Time state (R373, R374) -/

/-- TVALID as this node reports it (R367, R375). -/
def tvalid (s : State) : Bool := s.get pgFAB F.FAB_TIMEPATH_GWDIST < 127 && timeValid s

/-! ### The status registers of FAB (R390) -/

/-- A role's holder as a register shows it. -/
def roleWord (s : State) (r : Nat) : Word :=
  match s.fab.holders.getD r none with
  | some h => BitVec.ofNat 32 (h.1.id + 2 ^ 24)
  | none => 0

/-- This node is the root (R351). -/
def isRoot (s : State) : Bool := holdsRole s 1 && s.fab.cluster = some (rootCluster s)

/-- The groups that this node subscribes to (R371, R113), with their wrap masks, from the tiles its veneers name; one that waits for its
first buffer (R107) counts among them. -/
def ownSubs (s : State) : List (Nat × Nat × Nat) :=
  let tiles := (List.range 16).flatMap fun v =>
    if ingests s v ∧ s.get (pgVEN v) F.VEN_CFG_SRC = 3 then
      (List.range (s.get (pgVEN v) F.VEN_TILESZ_TROWS)).flatMap fun j => (List.range (s.get (pgVEN v) F.VEN_TILESZ_TCOLS)).map fun i =>
        (s.get (pgVEN v) F.VEN_TILES_TCOL0 + i, s.get (pgVEN v) F.VEN_TILES_TROW0 + j)
    else []
  tiles.foldl (fun acc (c, r) =>
    let g := r % 64 * 64 + c % 64
    let (x, y) := (amGet acc g).getD (0, 0)
    amSet acc g (x ||| 2 ^ (c / 64 % 32), y ||| 2 ^ (r / 64 % 32))) []

/-- FAB's status registers brought up to date, AUTO's source with them (R35, R390). -/
def fabSync (s : State) : State :=
  let p := pgFAB
  let s := timePathSync s
  let s := s.setReg p 0x044 (match nodeId s with | some n => BitVec.ofNat 32 (n + 2 ^ 24) | none => 0)
  let s := s.setReg p 0x050 (BitVec.ofNat 32 ((holdsRole s 0).toNat + 2 * (holdsRole s 1).toNat + 4 * (holdsRole s 2).toNat + 8 * (isRoot s).toNat))
  let s := ((s.setReg p 0x054 (roleWord s 0)).setReg p 0x058 (roleWord s 2)).setReg p 0x05C (roleWord s 1)
  let s := s.setReg p 0x060 (BitVec.ofNat 32 (s.fab.disc + (match s.fab.cluster, s.fab.member with
    | some c, some m => ((mlTable s).lookup m).getD 0 % 128 * 256 + clOf s c % 1024 * 65536
    | some c, none => clOf s c % 1024 * 65536
    | none, _ => 0)))
  let s := s.setReg p 0x064 (BitVec.ofNat 32 ((memberDb s).length + s.fab.clusters.length * 65536))
  let s := (s.setReg p 0x068 (s.fab.hash.setWidth 32)).setReg p 0x06C ((s.fab.hash >>> 32).setWidth 32)
  let s := s.setReg p 0x070 (BitVec.ofNat 32 ((parentPort s 0).getD 7 + (parentPort s 1).getD 7 * 16 + levelOf' s % 128 * 256))
  s.set p F.FAB_SUBS_GROUPS (ownSubs s).length

/-- A port's UP state, the node ID or a role changed (R353). -/
def topoChange (s : State) : State :=
  (updFab s fun f => { f with disc := min f.disc 4 }).evt pgFAB 1

/-- A record changed: the 50 ms of CONVERGED begin again. -/
def recordChange (s : State) : State := updFab s fun f => { f with disc := min f.disc 4 }

/-! ### Receive credits held (R366) -/

/-- The credits of a bundle. -/
def creditsOf (n : Nat) : Nat := (n + 4 + 63) / 64

/-- `d` more copies of a received bundle have to leave, or fewer; with none left its credits are freed. -/
def heldAdd (h : Option Nat) (d : Int) (s : State) : State :=
  match h with
  | none => s
  | some i =>
    match s.fab.held.find? (·.1 = i) with
    | none => s
    | some (_, p, vl, c, n) =>
      let m := (n : Int) + d
      let rest := s.fab.held.filter (·.1 ≠ i)
      if m ≤ 0 then
        updBru (updFab s fun f => { f with held := rest }) p fun b => { b with own := updAt b.own vl (· + c) }
      else updFab s fun f => { f with held := (i, p, vl, c, m.toNat) :: rest }

/-! ### Leaving on a port (R362, R365) -/

/-- A bundle put in a port's queue; one for a port that is not UP is dropped (R365). -/
def toPort (vl b : Nat) (h : Option Nat) (bytes : List Byte) (s : State) : State :=
  if flows s b then
    heldAdd h 1 (updBru s b fun p => { p with ready := p.ready ++ [⟨vl, bytes, h⟩] })
  else s.bump pgFAB F.FAB_st_NOROUTE

/-- A bundle's header as it leaves on a port: HOPS, and DOWN on a down hop (R363). -/
def onHop (s : State) (b hops : Nat) (bytes : List Byte) : List Byte :=
  let c := (bytes.getD 0 0).toNat
  let down := c / 4 % 2 = 1 || lexLt (ownRank s) (nbRank s b)
  [BitVec.ofNat 8 (c - c / 4 % 2 * 4 + down.toNat * 4), BitVec.ofNat 8 hops] ++ bytes.drop 2

/-- Neighbours of a place (member × 2 + DOWN) on legal paths inside the cluster. -/
def legalAdj (s : State) (ml : List (Nat × Nat)) (x : Nat) : List Nat :=
  let c := s.fab.cluster.getD 0
  let r := rankOf s ml (c * 256 + x / 2)
  (memberAdj s (x / 2)).flatMap fun m =>
    let up := lexLt (rankOf s ml (c * 256 + m)) r
    if up then (if x % 2 = 0 then [m * 2] else []) else [m * 2 + 1]

/-- Places settled in order of their distance: from a frontier of distances and places, the steps from a place with their lengths. -/
def settle (next : Nat → List (Nat × Nat)) : Nat → List (Nat × Nat) → List (Nat × Nat) → List (Nat × Nat)
  | 0, _, acc => acc
  | n + 1, front, acc =>
    match front.foldl (fun (m : Option (Nat × Nat)) e => match m with | some x => if e.1 < x.1 then some e else m | none => some e) none with
    | none => acc
    | some (d, x) =>
      let rest := front.filter fun e => e.2 ≠ x
      if (acc.lookup x).isSome then settle next n rest acc
      else settle next n (rest ++ ((next x).filter fun e => (acc.lookup e.2).isNone).map fun e => (d + e.1, e.2)) (acc ++ [(x, d)])

/-- The hop to a node of another cluster from a cluster, DOWN or not (R360): whether it is DOWN after it; none: it is not legal. -/
def clusterHop (s : State) (down : Bool) (c n : Nat) : Option Bool :=
  let isDown := lexLt [clOf s c, c] [clOf s (n / 256), n / 256]
  if down && !isDown then none else some (down || isDown)

/-- The steps of a legal path from a node (node ID × 2 + DOWN), by the databases (R357, R365): inside this node's cluster hop by hop, through another
cluster between two of its border members at once. A path of down hops alone may be longer than the legal distance that the record holds. -/
def legalSteps (s : State) (ml : List (Nat × Nat)) (x : Nat) : List (Nat × Nat) :=
  let (id, down) := (x / 2, decide (x % 2 = 1))
  let c := id / 256
  let out := fun (d n : Nat) => match clusterHop s down c n with | some b => [(d + 1, n * 2 + b.toNat)] | none => []
  if s.fab.cluster = some c then
    ((legalAdj s ml (id % 256 * 2 + x % 2)).map fun y => (1, c * 512 + y)) ++
      (borderLinks s).flatMap fun e => if e.1 = id % 256 then out 0 e.2.2 else []
  else match amGet s.fab.clusters c with
    | none => []
    | some r =>
      match r.borders.findIdx? fun e => e.1 = id % 256 with
      | none => []
      | some i => r.borders.zipIdx.flatMap fun (e, j) =>
          let d := if e.1 = id % 256 then 0 else (r.dist.getD i []).getD j 255
          if 255 ≤ d then [] else out (if down ∧ d ≠ 0 then d + Config.downExtra c (id % 256) e.1 else d) e.2.2

/-- The hops of a shortest legal path to a cluster that leaves on a port (R365); none: there is no such path. -/
def clusterVia (s : State) (ml : List (Nat × Nat)) (down : Bool) (dest b : Nat) : Option Nat :=
  let own := (nodeId s).getD 0
  let n := nbId s b
  let isDown := lexLt (ownRank s) (nbRank s b)
  let listed : Bool := s.fab.cluster = some (n / 256) || (borderLinks s).any fun e => e.1 = own % 256 && e.2.1 = b
  if (down && !isDown) || !listed then none
  else
    let fuel := 1024 + 4 * (memberDb s).length + (s.fab.clusters.map fun c => 2 * c.2.borders.length * c.2.borders.length).sum
    ((settle (legalSteps s ml) fuel [(1, n * 2 + (down || isDown).toNat)] []).find? fun e => e.1 / 512 = dest).map (·.2)

/-- The port of the shortest of several distances that does not exceed a limit; ties fall to the lower port (R365, R358). -/
def bestPort (lim : Nat) (l : List (Nat × Option Nat)) : Option (Nat × Nat) :=
  l.foldl (fun (best : Option (Nat × Nat)) (b, d) =>
    match d, best with
    | some d, some (x, _) => if lim < d ∨ x ≤ d then best else some (d, b)
    | some d, none => if lim < d then none else some (d, b)
    | none, _ => best) none

/-- The hops of a shortest legal path to a member of this cluster that leaves on a port; none: there is no such path. -/
def hopsVia (s : State) (ml : List (Nat × Nat)) (down : Bool) (m b : Nat) : Option Nat :=
  let n := nbId s b
  let isDown := lexLt (ownRank s) (nbRank s b)
  if down ∧ !isDown ∨ s.fab.cluster ≠ some (n / 256) then none
  else
    let d := dists (legalAdj s ml) 512 [n % 256 * 2 + isDown.toNat]
    match d.lookup (m * 2), d.lookup (m * 2 + 1) with
    | some x, some y => some (min x y + 1)
    | some x, none => some (x + 1)
    | none, some y => some (y + 1)
    | none, none => none

/-- UPPORT, or DNPORT under DOWN, towards a node (R365): by the members of this node's cluster, or by its cluster. No route is installed beyond 24 hops
in the cluster or 96 across clusters (R358). -/
def routePort (s : State) (dest : Nat) (down : Bool) : Option Nat :=
  let ml := mlTable s
  (if s.fab.cluster = some (dest / 256) then bestPort 24 ((nbPorts s).map fun b => (b, hopsVia s ml down (dest % 256) b))
  else bestPort 96 ((nbPorts s).map fun b => (b, clusterVia s ml down (dest / 256) b))).map (·.2)

/-- A limit of R358 exceeded: a member of the cluster lies more than 24 hops away, or the route to a cluster crosses more than 96. -/
def tooWide (s : State) : Bool :=
  match s.fab.member with
  | some m =>
    let ml := mlTable s
    ((dists (memberAdj s) 256 [m]).any fun e => 24 < e.2) ||
      s.fab.clusters.any fun (c, _) => s.fab.cluster ≠ some c &&
        (match (nbPorts s).filterMap fun b => clusterVia s ml false c b with
         | [] => false
         | l => l.all fun d => 96 < d)
  | none => false

/-- A bundle leaves on some ports with its HOPS, or is dropped at the hop limit (R365). -/
def leave (vl : Nat) (h : Option Nat) (forwarded : Bool) (ports : List Nat) (bytes : List Byte) (s : State) : State :=
  let hops := (bytes.getD 1 0).toNat + forwarded.toNat
  if ports.isEmpty then s
  else if 100 ≤ hops then s.bump pgFAB F.FAB_st_HOPLIMIT
  else
    let s := if forwarded && ports.any (flows s) then s.bump pgFAB F.FAB_st_FORWARDED else s
    ports.foldl (fun s b => toPort vl b h (onHop s b hops bytes) s) s

/-- A unicast bundle forwarded by the tables (R365). -/
def unicast (h : Option Nat) (forwarded : Bool) (bytes : List Byte) (s : State) : State :=
  let c := (bytes.getD 0 0).toNat
  let dest := beVal (slice bytes 2 3) % 2 ^ 18
  match routePort s dest (c / 4 % 2 = 1) with
  | some b => leave (c / 64) h forwarded [b] bytes s
  | none => (s.bump pgFAB F.FAB_st_NOROUTE).evt pgFAB 4

/-! ### Bundles of this node's own -/

/-- A header (R362). -/
def bundleHeader (vl route tree dest src kind n seq : Nat) : List Byte :=
  [BitVec.ofNat 8 (vl * 64 + route * 8 + tree * 2), 0] ++ beBytes 3 dest ++ beBytes 3 src ++ [BitVec.ofNat 8 kind, 0] ++ beBytes 2 n ++ beBytes 4 seq

/-- The pair of a flood remembered on a tree (R363): the last 256 pairs of a source, for 1 s. -/
def remember (src seq tree : Nat) (s : State) : State :=
  updFab s fun f =>
    let live := f.seen.filter fun (_, _, _, t) => s.time.ft < t + secUnits
    let mine := (src, seq, tree, s.time.ft) :: live.filter (·.1 = src)
    let kept := ((mine.map (·.2.1)).eraseDups).take 256
    { f with seen := (mine.filter fun e => kept.contains e.2.1) ++ live.filter (·.1 ≠ src) }

/-- The SOURCE of a flood: this node's ID; a candidate for cluster head that holds no member announces itself as member 0 (DESIGN CHOICE,
notes/assumptions/113.md). -/
def floodId (s : State) (kind : Nat) : Option Nat :=
  match nodeId s with
  | some n => some n
  | none => if kind = 0x12 then s.fab.cluster.map (· * 256) else none

/-- A body sent on a LINK bundle to one neighbour. -/
def sendLink (b kind : Nat) (body : List Byte) (s : State) : State :=
  match nodeId s with
  | none => s
  | some n =>
    let q := s.fab.msgSeq % 2 ^ 32
    let s := updFab s fun f => { f with msgSeq := f.msgSeq + 1 }
    toPort 1 b none (onHop s b 0 (bundleHeader 1 0 0 (nbId s b) n kind (16 + body.length) q ++ body)) s

/-- A body flooded on some trees in the venue, or in this node's cluster (R363). -/
def sendFlood (trees : List Nat) (clusterOnly : Bool) (kind : Nat) (body : List Byte) (s : State) : State :=
  match floodId s kind with
  | none => s
  | some n =>
    let q := s.fab.msgSeq % 2 ^ 32
    let s := updFab s fun f => { f with msgSeq := f.msgSeq + 1 }
    trees.foldl (fun s t =>
      leave 1 none false (treePorts s t) (bundleHeader 1 (if clusterOnly then 3 else 4) t (if clusterOnly then n / 256 * 256 else 0) n kind
        (16 + body.length) q ++ body) (remember n q t s)) s

/-- A body unicast to a node. -/
def sendUnicast (vl dest kind : Nat) (body : List Byte) (s : State) : State :=
  match nodeId s with
  | none => s
  | some n =>
    let q := s.fab.msgSeq % 2 ^ 32
    let s := updFab s fun f => { f with msgSeq := f.msgSeq + 1 }
    unicast none false (bundleHeader vl 1 0 dest n kind (16 + body.length) q ++ body) s

/-! ### Roles (R351, R352, R376) -/

/-- This node's priority for a role. -/
def rolePrio (s : State) (r : Nat) : Nat :=
  s.get pgFAB (if r = 0 then F.FAB_ROLEPRIO_GWPRIO else if r = 1 then F.FAB_ROLEPRIO_HEADPRIO else F.FAB_ROLEPRIO_CUEPRIO)

/-- Whether the servo is LOCKED on PTP. -/
def ptpLocked (s : State) : Bool := s.time.servo = .locked && activeSource s = 1

/-- This node as a candidate for a role. -/
def ownCand (s : State) (r : Nat) : Option Cand :=
  if rolePrio s r = 0 ∨ s.fab.cluster.isNone ∨ (r ≠ 1 ∧ (nodeId s).isNone) then none
  else some ⟨r, Config.serial.toNat, s.fab.cluster.getD 0 * 256 + s.fab.member.getD 0, rolePrio s r, holdsRole s r, ptpLocked s, s.time.ft⟩

/-- `a` wins over `b` (R352). -/
def outranks (a b : Cand) : Bool := b.prio < a.prio || (a.prio = b.prio && a.serial < b.serial)

/-- The holder of a role changed (R352, R376). -/
def setHolder (r : Nat) (c : Option Cand) (s : State) : State :=
  let old := (s.fab.holders.getD r none).map (·.1.serial)
  let s := updFab s fun f => { f with holders := f.holders.set r (c.map (·, s.time.ft)), gwLost := f.gwLost && !(r = 0 && c.isSome) }
  if old = c.map (·.serial) then s
  else
    let s := if r = 0 then updFab s fun f => { f with gwGen := (f.gwGen + 1) % 2 ^ 32 } else s
    topoChange (s.evt pgFAB 2)

/-- The best of the candidates heard in the last 750 ms, this node among them. -/
def bestCand (s : State) (r : Nat) (ok : Cand → Bool) : Option Cand :=
  ((s.fab.cands.filter fun c => c.role = r && s.time.ft < c.at' + 750000000 * 65536 && c.serial ≠ Config.serial.toNat) ++ (ownCand s r).toList).foldl
    (fun (m : Option Cand) c => if !ok c then m else match m with | some b => if outranks c b then some c else m | none => some c) none

/-- An announcement heard (R352): a vacancy is filled, after the loss of a gateway only by a candidate LOCKED on PTP (R376), a higher priority replaces, and the lower of two holders' serials, or of two
candidates of one election, remains. -/
def hear (c : Cand) (s : State) : State :=
  let s := updFab s fun f => { f with cands := c :: f.cands.filter fun x => x.role ≠ c.role || x.serial ≠ c.serial }
  match s.fab.holders.getD c.role none with
  | none => if c.role = 0 ∧ s.fab.gwLost ∧ !c.ptp then s else setHolder c.role (some c) s
  | some (h, t) =>
    if h.serial = c.serial then updFab s fun f => { f with holders := f.holders.set c.role (some (c, t)) }
    else if h.prio < c.prio ∨ (h.prio = c.prio ∧ c.serial < h.serial ∧ (c.holds ∨ s.time.ft < t + 250000000 * 65536)) then setHolder c.role (some c) s
    else s

/-- The lowest free member for a serial (R356): the one it last held where that is free. -/
def grantFor (s : State) (serial want : Nat) : Option Nat :=
  let used := fun m => (s.fab.grants.any fun g => g.1 = m && g.2 ≠ serial) ||
    (match amGet (memberDb s) m with | some r => r.serial ≠ serial | none => false)
  if !used want then some want else (List.range 256).find? fun m => !used m

/-- Cluster and member taken as far as discovery has come (R350, R355, R356). -/
def discEval (s : State) : State :=
  let old := nodeId s
  if !fabOn s then
    let s := updFab (setHolder 1 none s) fun f => { f with disc := 0, cluster := none, seeded := false, member := none }
    fabSync (if nodeId s = old then s else topoChange s)
  else
    let nbs := bruPorts.filter fun b => discOn s b && nbFlag s b 0
    let lowest := (nbs.filter fun b => !nbFlag s b 5).foldl (fun (m : Option Nat) b =>
      some (match m with | some x => min x (nbId s b / 256) | none => nbId s b / 256)) none
    let cluster := if s.flag pgFAB F.FAB_IDCFG_CFIX then some (s.get pgFAB F.FAB_IDCFG_NODEID / 256)
      else match s.fab.cluster with
        | some c => if s.fab.seeded ∨ nbs.any (fun b => nbId s b / 256 = c) then some c else lowest
        | none => lowest
    let s := if cluster = s.fab.cluster then s
      else updFab (setHolder 1 none s) fun f => { f with cluster := cluster, seeded := false, member := none, members := [], grants := [] }
    let member := if s.flag pgFAB F.FAB_IDCFG_MFIX then (if s.fab.fault ∨ cluster.isNone then none else some (s.get pgFAB F.FAB_IDCFG_NODEID % 256))
      else match s.fab.member with
        | some m => some m
        | none => if cluster.isSome ∧ holdsRole s 1 then grantFor s Config.serial.toNat s.fab.lastMember else none
    let d := if cluster.isNone then 1 else if member.isNone then 2 else max 3 s.fab.disc
    let s := updFab s fun f => { f with member := member, lastMember := member.getD f.lastMember, disc := d }
    fabSync (if nodeId s = old then s else topoChange s)

/-- ROLE_ANNOUNCE (R352): a candidate floods its ROLE bundle. -/
def roleAnnounce (r : Nat) (s : State) : State :=
  if !fabOn s then s
  else match ownCand s r with
    | none => s
    | some c =>
      let s := hear c s
      let c := (ownCand s r).getD c
      discEval (sendFlood [0] (r = 1) 0x12 (Config.recBody 0x12 [c.role, c.serial, c.id, c.prio, c.holds.toNat, c.ptp.toNat]) s)

/-- ROLE_TIMEOUT (R352): the holder has been silent for 750 ms; not so for the time gateway. -/
def roleTimeout (r : Nat) (s : State) : State :=
  if r = 0 then s else discEval (setHolder r (bestCand s r fun c => (s.fab.holders.getD r none).all fun h => h.1.serial ≠ c.serial || c.serial = Config.serial.toNat) s)

/-- GATEWAY_LOSS (R376): a new gateway among the candidates LOCKED on PTP, the lost one's last announcement aside. -/
def gatewayLoss (s : State) : State :=
  let lost := (s.fab.holders.getD 0 none).map (·.1.serial)
  let c := bestCand s 0 fun c => c.ptp && (lost ≠ some c.serial || c.serial = Config.serial.toNat)
  fabSync (updFab (setHolder 0 c s) fun f => { f with gwLost := c.isNone })

/-! ### Records (R356, R357) -/

/-- A member record from its numbers. -/
def memberOfNats (t : Nat) (l : List Nat) : Member :=
  { serial := l.getD 1 0, id := l.getD 2 0 % 2 ^ 18, prios := (l.drop 3).take 3,
    links := (List.range 4).map fun k => (l.getD (6 + 3 * k) 0 ≠ 0, l.getD (7 + 3 * k) 0 % 2 ^ 19, l.getD (8 + 3 * k) 0), gen := l.getD 18 0, at' := t }

/-- A member record's numbers. -/
def natsOfMember (r : Member) : List Nat := [0, r.serial, r.id] ++ r.prios ++ (r.links.flatMap fun l => [l.1.toNat, l.2.1, l.2.2]) ++ [r.gen]

/-- A cluster record from its numbers. -/
def clusterOfNats (t : Nat) (l : List Nat) : Cluster :=
  let n := min 32 (l.getD 6 0)
  { cluster := l.getD 1 0 % 1024, head := l.getD 2 0, count := l.getD 3 0, cl := l.getD 4 0, gen := l.getD 5 0,
    borders := (List.range n).map fun k => (l.getD (7 + 3 * k) 0, l.getD (8 + 3 * k) 0, l.getD (9 + 3 * k) 0),
    dist := (List.range n).map fun i => (List.range n).map fun j => l.getD (7 + 3 * n + i * n + j) 0, at' := t }

/-- This cluster's record as its head sends it. -/
def ownCluster (s : State) : List Nat :=
  let c := s.fab.cluster.getD 0
  let b := borderLinks s
  let ml := mlTable s
  let dist := b.flatMap fun x => b.map fun y =>
    let d := dists (legalAdj s ml) 512 [x.1 * 2]
    min ((d.lookup (y.1 * 2)).getD 255) ((d.lookup (y.1 * 2 + 1)).getD 255)
  [1, c, Config.serial.toNat, (memberDb s).length, clOf s c, s.fab.gen, b.length] ++ (b.flatMap fun e => [e.1, e.2.1, e.2.2]) ++ dist

/-- LSR_REFRESH (R357): the member record flooded in the cluster and, by the head, the cluster record in the venue. -/
def lsrRefresh (changed : Bool) (s : State) : State :=
  if !fabOn s ∨ (nodeId s).isNone then s
  else
    let s := updFab s fun f => { f with disc := max f.disc 4, gen := if changed then (f.gen + 1) % 2 ^ 32 else f.gen }
    let s := sendFlood [0] true 0x10 (Config.recBody 0x10 (natsOfMember (ownRecord s))) s
    let own := ownCluster s
    let s := if holdsRole s 1 then
        -- the head's own database holds its cluster's record too (R357)
        let r := clusterOfNats s.time.ft own
        sendFlood [0] false 0x10 (Config.recBody 0x10 own) (updFab s fun f => { f with clusters := amSet f.clusters r.cluster r })
      else s
    fabSync s

/-- Another node holds this node's fixed member and has the lower serial (R350). -/
def dupCheck (r : Member) (s : State) : State :=
  if some r.id = nodeId s ∧ r.serial < Config.serial.toNat ∧ s.flag pgFAB F.FAB_IDCFG_MFIX then
    -- without a member, and then without the fabric that hold FAULT stops
    discEval (refreshAll (discEval ((updFab s fun f => { f with fault := true }).evt pgFAB 3)))
  else s

/-- A link-state record received (R357): a higher generation replaces, the same one refreshes. -/
def lsrApply (l : List Nat) (s : State) : State :=
  if l.headD 0 = 0 then
    let r := memberOfNats s.time.ft l
    if s.fab.cluster ≠ some (r.id / 256) then s
    else if r.serial = Config.serial.toNat then s
    else
      let put := fun (s : State) => updFab s fun f => { f with members := amSet f.members (r.id % 256) r }
      match amGet s.fab.members (r.id % 256) with
      | some o =>
        if o.gen < r.gen then fabSync (recordChange (dupCheck r ((put s).bump pgFAB F.FAB_st_LSRUPD)))
        else if o.gen = r.gen then put s else s
      | none => fabSync (recordChange (dupCheck r (put s)))
  else
    let r := clusterOfNats s.time.ft l
    let put := fun (s : State) => updFab s fun f => { f with clusters := amSet f.clusters r.cluster r }
    match amGet s.fab.clusters r.cluster with
    | some o =>
      if o.gen < r.gen then fabSync (recordChange ((put s).bump pgFAB F.FAB_st_LSRUPD))
      else if o.gen = r.gen then put s else s
    | none => fabSync (recordChange (put s))

/-- LSR_EXPIRY (R357): a record not refreshed for 3.5 s is removed; the member of a node that has left is free again (R356). -/
def lsrExpiry (cluster : Bool) (k : Nat) (s : State) : State :=
  fabSync (recordChange (updFab s fun f => if cluster then { f with clusters := amDel f.clusters k }
    else { f with members := amDel f.members k, grants := f.grants.filter (·.1 ≠ k) }))

/-- The bytes of the discovery record (R534): MAGIC "CZFR", the node ID, the member and the topology hash; the layout is the model's (DESIGN CHOICE,
notes/assumptions/88.md). -/
def discBytes (r : Nat × Nat × Dword) : List Byte :=
  sealRecord (beBytes 4 0x435A4652 ++ leBytes 4 r.1 ++ leBytes 4 r.2.1 ++ beBytes 8 r.2.2.toNat)

/-- DISCOVERY_CONVERGED (R353, R358, R359). -/
def converged (s : State) : State :=
  if s.fab.disc ≠ 4 ∨ !fabOn s then s
  else
    let id := nodeId s
    let s := updFab s fun f => { f with disc := 5, hash := topoHash s, record := id.map fun n => (n, n % 256, topoHash s) }
    let s := match s.fab.record with | some r => internalProg (recordPlace 3 false) (discBytes r) s | none => s
    enableEval (stepEnded 13 (fabSync ((s.evt pgFAB 0).evtIf (tooWide s) pgFAB 8)))

/-- CLUSTER_SEED (R355). -/
def clusterSeed (s : State) : State :=
  if !fabOn s ∨ !s.flag pgFAB F.FAB_IDCFG_INGRESS ∨ s.flag pgFAB F.FAB_IDCFG_CFIX ∨ s.fab.cluster.isSome then s
  else
    let lo := s.get pgFAB F.FAB_POOL_POOLLO
    let hi := s.get pgFAB F.FAB_POOL_POOLHI
    match (List.range (hi + 1 - lo)).find? fun i => (amGet s.fab.clusters (lo + i)).isNone with
    | none => s
    | some i => discEval (updFab s fun f => { f with cluster := some (lo + i), seeded := true })

/-- A member ID taken from the head (R350, R356). -/
def takeMember (m : Nat) (s : State) : State :=
  let old := nodeId s
  let s := updFab s fun f => { f with member := some m, lastMember := m, disc := max f.disc 3 }
  fabSync (if nodeId s = old then s else topoChange s)

/-- MEMBER_GRANT (R356): the request of a node, by its serial and the member it last held, served by this node as head; or this node's own request
answered with a member. One request waits at a time: those that come together come in order of serial (DEDUCED, notes/assumptions/116.md). -/
def memberGrant (serial member : Nat) (s : State) : State :=
  if !fabOn s then s
  else if holdsRole s 1 then
    match grantFor s serial member with
    | none => s
    | some m =>
      let s := updFab s fun f => { f with grants := (m, serial) :: f.grants.filter fun g => g.2 ≠ serial }
      if serial = Config.serial.toNat ∧ !s.flag pgFAB F.FAB_IDCFG_MFIX then discEval (takeMember m s) else s
  else if serial = Config.serial.toNat ∧ s.fab.cluster.isSome ∧ !s.flag pgFAB F.FAB_IDCFG_MFIX then takeMember member s
  else s

/-- IDCFG written (R390): discovery returns to NEIGHBOUR. -/
def idcfgWrite (v : Word) (s : State) : State :=
  let s := s.setReg pgFAB 0x040 (v &&& 0x0703FFFF)
  let d := if fabOn s then 1 else 0
  let s := updFab (setHolder 1 none s) fun f => { f with cluster := none, seeded := false, member := none, members := [], grants := [], fault := false,
                                                         disc := d }
  let s := refreshAll s
  topoChange (discEval s)

/-! ### Subscriptions and tiles (R369 to R372) -/

/-- Masks of two sets of subscriptions joined. -/
def joinSubs (a b : List (Nat × Nat × Nat)) : List (Nat × Nat × Nat) :=
  b.foldl (fun acc (g, x, y) => let (p, q) := (amGet acc g).getD (0, 0); amSet acc g (p ||| x, q ||| y)) a

/-- SUBSCRIBE_SEND (R371): to the parent this node's and its children's masks, to each child the groups that someone outside it wants. -/
def subscribeSend (s : State) : State :=
  if !fabOn s then s
  else
    let kids := childPorts s 0
    let all := kids.foldl (fun a b => joinSubs a (s.fab.subs.getD b [])) (ownSubs s)
    let s := match parentPort s 0 with
      | some p => sendLink p 0x11 (Config.recBody 0x11 (0 :: all.flatMap fun e => [e.1, e.2.1, e.2.2])) s
      | none => s
    fabSync (kids.foldl (fun s b =>
      let others := (kids.filter (· ≠ b)).foldl (fun a c => joinSubs a (s.fab.subs.getD c [])) (ownSubs s)
      let groups := s.fab.outside.foldl (fun a g => if (amGet others g).isSome then a else g :: a) (others.map (·.1))
      sendLink b 0x11 (Config.recBody 0x11 (1 :: groups)) s) s)

/-- Triples of a list. -/
def triples : List Nat → List (Nat × Nat × Nat)
  | a :: b :: c :: t => (a % 4096, b % 2 ^ 32, c % 2 ^ 32) :: triples t
  | _ => []

/-- A SUBSCRIBE bundle (R371): 0 and a child's masks, or 1 and the groups of interest outside. -/
def subscribeIn (b : Nat) (l : List Nat) (s : State) : State :=
  if l.headD 0 = 0 then
    let e := (triples (l.drop 1)).foldl (fun a e => joinSubs a [e]) []
    updFab s fun f => { f with subs := f.subs.set b e }
  else if parentPort s 0 = some b then updFab s fun f => { f with outside := (l.drop 1).map (· % 4096) }
  else s

/-- The ports on which a tile quarter leaves (R371). -/
def tilePorts (s : State) (src : Option Nat) (col row : Nat) : List Nat :=
  let g := row % 64 * 64 + col % 64
  let kids := (childPorts s 0).filter fun b => src ≠ some b &&
    ((s.fab.subs.getD b []).any fun e => e.1 = g && e.2.1.testBit (col / 64 % 32) && e.2.2.testBit (row / 64 % 32))
  let up := match parentPort s 0 with
    | some p => if src ≠ some p ∧ s.fab.outside.contains g then [p] else []
    | none => []
  up ++ kids

/-- A tile quarter noted: the state, and whether the tile is whole with it (R369). -/
def tileWhole (fn col row q : Nat) (s : State) : State × Bool :=
  let this := fun (e : Nat × Nat × Nat × Nat) => e.1 = fn ∧ e.2.1 = col ∧ e.2.2.1 = row
  let m := ((s.fab.quarters.find? fun e => decide (this e)).map (·.2.2.2)).getD 0 ||| 2 ^ q
  let rest := s.fab.quarters.filter fun e => !decide (this e)
  if m = 15 then (updFab s fun f => { f with quarters := rest }, true)
  else (updFab s fun f => { f with quarters := ((fn, col, row, m) :: rest).take 4096 }, false)

/-- A tile of this node's own rectangles goes to their converters; any other counts in TILEFILT (R371). A tile is counted once all its quarters have
come. -/
def tileDeliver (b : List Byte) (s : State) : State :=
  let fn := beVal (slice b 16 6)
  let c := beVal (slice b 22 2)
  let (q, col, row) := (c / 2 ^ 14, c % 2 ^ 11, beVal (slice b 24 2) % 2 ^ 11)
  let mine := (List.range 16).filter fun v => let get := s.get (pgVEN v)
    ingests s v && get F.VEN_CFG_SRC = 3 && get F.VEN_TILES_TCOL0 ≤ col && col < get F.VEN_TILES_TCOL0 + get F.VEN_TILESZ_TCOLS &&
      get F.VEN_TILES_TROW0 ≤ row && row < get F.VEN_TILES_TROW0 + get F.VEN_TILESZ_TROWS
  let (s, whole) := tileWhole fn col row q s
  let count := fun f (s : State) => if whole then s.bump pgFAB f else s
  if mine.isEmpty then count F.FAB_st_TILEFILT s
  else mine.foldl (fun s v => tileQuarter v fn col row q (slice b 32 2048) s) (count F.FAB_st_TILESRX (s.bump pgFAB F.FAB_st_DELIVERED))

/-- A publisher's next tile quarter (R372, R369): read from the veneer's buffer and sent on its way; false where it has none left. -/
def pubNext (p : Nat) (s : State) : State × Bool :=
  let k := s.fab.pubs.getD p {}
  if k.total ≤ k.next then (s, false)
  else
    let get := fun f => s.get pgFAB f p
    let v := get F.FAB_PUBCFG_VEN
    let q := k.next % 4
    let tile := k.next / 4
    let (i, j) := (tile % k.cols, tile / k.cols)
    let (col, row) := (get F.FAB_PUBORG_TCOL0 + i, get F.FAB_PUBORG_TROW0 + j)
    let wide := s.get pgMAP F.MAP_CANVAS_W + 1
    let high := s.get pgMAP F.MAP_CANVAS_H + 1
    let base := s.get (pgVEN v) F.VEN_BUF_OFFSET k.buf
    let line := fun (x : State × Option (List Byte)) (y : Nat) =>
      let r := j * 32 + q * 8 + y
      let n := if row * 32 + q * 8 + y < high then min 32 (wide - min wide (col * 32)) else 0
      let (s, b) := rd fabWho (fsBase + base + r * s.get (pgVEN v) F.VEN_STRIDE + i * 256) (n * 8) x.1
      (s, match x.2, b with
        | some a, some b => some (a ++ b ++ List.replicate (256 - 8 * n) 0)
        | _, _ => none)
    let (s, px) := (List.range 8).foldl line (s, some [])
    let adv := fun bad (s : State) => updFab s fun f => { f with pubs := updAt f.pubs p fun k => { k with next := k.next + 1, bad := bad } }
    let lost := fun (s : State) => (s.bump pgFAB F.FAB_st_TILEDROP).evt pgFAB 9
    match (if q ≠ 0 ∧ k.bad then none else px), nodeId s with
    | some px, some n =>
      let m := s.fab.msgSeq % 2 ^ 32
      let s := updFab s fun f => { f with msgSeq := f.msgSeq + 1 }
      let b := bundleHeader 2 2 0 (row % 64 * 64 + col % 64) n 0x20 2080 m ++ beBytes 6 k.fn ++ beBytes 2 (q * 2 ^ 14 + col % 2 ^ 11) ++
        beBytes 2 (row % 2 ^ 11) ++ List.replicate 6 0 ++ px
      let s := leave 2 none false (tilePorts s none col row) b s
      (adv false (if q = 3 then s.bump pgFAB F.FAB_st_TILESTX else s), true)
    | _, _ => (adv true (if q = 3 then lost s else s), true)

/-- A tile quarter of this node's own that waits for credits in a port's queue. -/
def ownQuarter (s : State) (x : Bundle) : Bool := x.vl = 2 && x.held.isNone && nodeId s = some (beVal (slice x.bytes 5 3) % 2 ^ 18)

/-- The tiles that cannot leave in their frame (R372), as FN, column and row: those whose quarters still wait for credits, and those not begun or not
ended by their publishers. -/
def tilesLeft (s : State) : List (List Byte) :=
  let queued := s.bru.flatMap fun p => (p.ready.filter (ownQuarter s)).map fun x => slice x.bytes 16 6 ++ beBytes 2 (beVal (slice x.bytes 22 2) % 2 ^ 11) ++
    slice x.bytes 24 2
  let due := [0, 1].flatMap fun p =>
    let k := s.fab.pubs.getD p {}
    let get := fun f => s.get pgFAB f p
    (List.range (k.total / 4 - k.next / 4)).map fun i =>
      let t := k.next / 4 + i
      beBytes 6 k.fn ++ beBytes 2 ((get F.FAB_PUBORG_TCOL0 + t % k.cols) % 2 ^ 11) ++ beBytes 2 ((get F.FAB_PUBORG_TROW0 + t / k.cols) % 2 ^ 11)
  (queued.filter fun e => !due.contains e).eraseDups ++ due

/-- The publishers at FS(n) (R372): what is left of the frame before is dropped, tile by tile, and the frame's tiles are due. -/
def pubsAtFs (n left : Nat) (s : State) : State :=
  let s := if left = 0 then s else (s.bump pgFAB F.FAB_st_TILEDROP left).evt pgFAB 9
  let s := { s with bru := s.bru.map fun p => { p with ready := p.ready.filter fun x => !ownQuarter s x } }
  [0, 1].foldl (fun s p =>
    let get := fun f => s.get pgFAB f p
    let v := get F.FAB_PUBCFG_VEN
    let due := effMode s pgFAB = 2 ∧ get F.FAB_PUBCFG_EN = 1 ∧ runTest s (pgVEN v)
    let new : Pub := match (if s.get (pgVEN v) F.VEN_CFG_SRC < 4 then inScan s v else none) with
      | some b =>
        let (x, y) := (get F.FAB_PUBSIZE_TCOLS, get F.FAB_PUBSIZE_TROWS)
        if due then { fn := n + get F.FAB_PUBCFG_ADV, buf := b, total := 4 * x * y, cols := x } else {}
      | none => {}
    updFab s fun f => { f with pubs := f.pubs.set p new }) s

/-! ### Fabric commits (R377 to R384) -/

/-- The node ID of the elected cue master. -/
def cueMaster (s : State) : Option Nat := (s.fab.holders.getD 2 none).map (·.1.id)

/-- This node is the cue master. -/
def isMaster (s : State) : Bool := holdsRole s 2

/-- The state of the fabric commit at this node changed. -/
def updFc (s : State) (f : Fc → Fc) : State := updFab s fun b => { b with fc := f b.fc }

/-- The record of a CID, if its PREPARE, or a FIRE or ABORT without one, has come. -/
def fcOf (s : State) (cid : Nat) : Option Fc := (s.fab.fc :: s.fab.olds).find? fun f => f.cid = some cid

/-- The record of a CID changed. -/
def updFcOf (cid : Nat) (f : Fc → Fc) (s : State) : State :=
  if s.fab.fc.cid = some cid then updFc s f
  else updFab s fun b => { b with olds := b.olds.map fun r => if r.cid = some cid then f r else r }

/-- A new record: it takes the place of the last one, unless that is armed here. The last 16 that gave place are kept (DESIGN CHOICE,
notes/assumptions/46.md). -/
def newFc (r : Fc) (s : State) : State :=
  updFab s fun b =>
    if b.fc.armed then { b with olds := (r :: b.olds.filter (·.cid ≠ r.cid)).take 16 }
    else { b with fc := r, olds := (((if b.fc.cid.isSome then [b.fc] else []) ++ b.olds).filter (·.cid ≠ r.cid)).take 16 }

/-- An outcome of this node for a CID (R380, R382, R383); ACTIVE stays while another commit is armed here. -/
def fcOutcome (cid code fn : Nat) (s : State) : State :=
  let s := updFcOf cid (fun f => { f with outcome := some code, used := fn, armed := false }) s
  let s := ((s.setReg pgFAB 0x0B0 (BitVec.ofNat 32 (code + 16 * s.fab.fc.armed.toNat))).setReg pgFAB 0x0B4 (BitVec.ofNat 32 cid)).evt pgFAB 7
  if [1, 2, 3, 4, 5, 6, 7, 8, 9, 11].contains code ∨ s.flag pgFAB F.FAB_CUECFG_REPORTALL then
    updFab s fun b => { b with reports := b.reports ++ [⟨cid, code, fn, s.time.ft⟩] }
  else s

/-- The refusal of a PREPARE (R379). -/
def fcRefuse (cid code : Nat) (s : State) : State := fcOutcome cid code 0 (updFcOf cid (fun f => { f with refused := some code }) s)

/-- The FN at which the last commit applied. -/
def resultFn (s : State) : Nat := s.get pgCMT F.CMT_RESFNL_RESFN + s.get pgCMT F.CMT_RESFNH_RESFN * 2 ^ 32

/-- The dovetail commit that the fabric armed has come to IDLE: the outcome (R380). -/
def fcFollow (s : State) : State :=
  if !s.fab.fc.armed ∨ s.cmt.mode ≠ .idle then s
  else
    let fn := resultFn s
    let cid := s.fab.fc.cid.getD 0
    match s.get pgCMT F.CMT_RESULT_CODE with
    | 1 => fcOutcome cid (if s.fab.fc.abortLate then 11 else 0) fn s
    | 2 => fcOutcome cid (if s.fab.fc.abortLate then 11 else 1) fn s
    | 3 => fcRefuse cid 4 s
    | 6 => fcOutcome cid 2 0 s
    | _ => fcOutcome cid 9 0 s

/-- A PREPARE's first copy (R379): `body` are the bundle's bytes from 16. One refused while another commit is armed leaves that commit's record. -/
def prepareIn (body : List Byte) (s : State) : State :=
  let cid := beVal (slice body 0 4)
  let target := beVal (slice body 4 6)
  let f := (body.getD 10 0).toNat
  let window := f % 2 = 1
  let s := newFc { cid := some cid, target := target, abortWindow := window, sendSt := BitVec.ofNat 32 (beVal (slice body 12 4)) } (fcFollow s)
  let c := fnOf s s.time.ft
  if s.cmt.mode ≠ .idle then fcRefuse cid 5 s
  else if s.cmt.owner = 0 then fcRefuse cid 6 s
  else if !s.flag pgFAB F.FAB_CUECFG_JOIN then fcRefuse cid 7 s
  else if f / 2 % 32 ≠ s.get pgTIME F.TIME_MODE_CURIDX ∨ nearFn c (target % 65536) ≠ target then fcRefuse cid 8 s
  else
    let s := updFc s fun f => { f with armed := true }
    let s := (s.setReg pgFAB 0x0B0 (s.reg pgFAB 0x0B0 ||| 16)).setReg pgFAB 0x0B4 (BitVec.ofNat 32 cid)
    armFor s.cmt.owner target (!window) s

/-- A FIRE's first copy (R380, R382). -/
def fireIn (cid : Nat) (s : State) : State :=
  match fcOf s cid with
  | none => fcOutcome cid 3 0 (newFc { cid := some cid } s)
  | some _ => updFcOf cid (fun f => { f with fired := true }) s

/-- An ABORT's first copy (R380, R382). -/
def abortIn (cid : Nat) (s : State) : State :=
  match fcOf s cid with
  | none => fcOutcome cid 3 0 (newFc { cid := some cid } s)
  | some f =>
    if f.armed then
      (match s.cmt.mode with
       | .checking | .armed => fcOutcome cid 10 0 (cancelCommit 7 s)
       | .locked => updFcOf cid (fun f => { f with abortLate := true }) s
       | .idle => s)
    else if f.outcome = some 0 ∨ f.outcome = some 1 then fcOutcome cid 11 f.used s
    else s

/-- The cutoff of FN `fn` (R382): a fire-required commit that no FIRE has reached ends MISSED. -/
def fcCutoff (fn : Nat) (s : State) : State :=
  let f := s.fab.fc
  if f.armed ∧ !f.abortWindow ∧ !f.fired ∧ f.target ≤ fn ∧ (s.cmt.mode = .checking ∨ s.cmt.mode = .armed) then fcFollow (cancelCommit 6 s) else s

/-- FS(n) at the cue master (R378): the target's FS ends the commit. -/
def fcAtFs (n : Nat) (s : State) : State :=
  let st := s.get pgFAB F.FAB_FCSTAT_STATE
  if 1 ≤ st ∧ st ≤ 3 ∧ s.fab.mTarget ≤ n then (s.set pgFAB F.FAB_FCSTAT_STATE 4).evt pgFAB 6 else s

/-- Totals that reach the cue master (R378, R381). -/
def masterReady (cid n r : Nat) (s : State) : State :=
  if !isMaster s ∨ cid ≠ s.get pgFAB F.FAB_FCID_CID then s
  else (((s.set pgFAB F.FAB_READYN_N n).set pgFAB F.FAB_REFUSEDN_N r).set pgFAB F.FAB_FCSTAT_TOTALS 1).evt pgFAB 5

/-- READY counts on their way to the cue master (R377): to the parent, from the root to the master. -/
def readyUp (cid n r : Nat) (s : State) : State :=
  let body := beBytes 4 cid ++ beBytes 4 n ++ beBytes 4 r
  match parentPort s 0 with
  | some b => sendLink b 0x02 body s
  | none => if isMaster s then masterReady cid n r s else match cueMaster s with
    | some m => sendUnicast 1 m 0x02 body s
    | none => s

/-- A child's READY for a commit that this node takes no part in, one outside its scope above all: the children's sums go on at once (R381; DEDUCED,
notes/assumptions/117.md). -/
def relayReady (b cid n r : Nat) (s : State) : State :=
  let kids := (b, n, r) :: ((amGet s.fab.relays cid).getD []).filter (·.1 ≠ b)
  readyUp cid (kids.map (·.2.1)).sum (kids.map (·.2.2)).sum
    (updFab s fun f => { f with relays := ((cid, kids) :: f.relays.filter (·.1 ≠ cid)).take 16 })

/-- A READY (R381): a child's counts, or the root's totals. -/
def readyIn (link : Option Nat) (body : List Byte) (s : State) : State :=
  let (cid, n, r) := (beVal (slice body 0 4), beVal (slice body 4 4), beVal (slice body 8 4))
  match link with
  | some b => if (fcOf s cid).isSome then updFcOf cid (fun f => { f with kids := (b, n, r) :: f.kids.filter (·.1 ≠ b) }) s else relayReady b cid n r s
  | none => masterReady cid n r s

/-- A commit's READY is due (R381): this node has armed or refused, and every child has reported or the wait has passed. -/
def readyDue (s : State) (f : Fc) : Bool :=
  let wait : Int := 10000 * s.get pgFAB F.FAB_TIMERS_READYWAIT - 2000 * s.get pgFAB F.FAB_TREE_LEVEL
  let passed := stPast (f.sendSt + BitVec.ofInt 32 wait) s.st
  let kids := (childPorts s 0).all fun b => f.kids.any (·.1 = b)
  f.cid.isSome && !f.readySent && !(f.armed && s.cmt.mode = .checking) && f.outcome ≠ some 3 && (kids || passed)

/-- READY_SEND (R381): the READY that is due leaves. -/
def readySend (s : State) : State :=
  match (s.fab.fc :: s.fab.olds).find? (readyDue s) with
  | none => s
  | some f =>
    let cid := f.cid.getD 0
    let n := (f.kids.map (·.2.1)).sum + (if f.refused.isSome then 0 else 1)
    let r := (f.kids.map (·.2.2)).sum + (if f.refused.isSome then 1 else 0)
    readyUp cid n r (updFcOf cid (fun f => { f with readySent := true }) s)

/-- A REPORT counted at the cue master (R383). -/
def reportIn (src : Nat) (body : List Byte) (s : State) : State :=
  let (cid, code, fn) := (beVal (slice body 0 4), (body.getD 4 0).toNat, beVal (slice body 6 6))
  let s := s.bump pgFAB F.FAB_st_REPORTS
  if cid ≠ s.get pgFAB F.FAB_FCID_CID ∨ !isMaster s then s
  else
    let s := updFab s fun f => { f with table := (f.table ++ [(src, code, fn)]).take 32 }
    if code = 1 then s.set pgFAB F.FAB_LATEN_N (s.get pgFAB F.FAB_LATEN_N + 1)
    else if code = 0 ∨ code = 10 then s
    else s.set pgFAB F.FAB_MISSEDN_N (s.get pgFAB F.FAB_MISSEDN_N + 1)

/-- REPORT_SEND (R383): the oldest report leaves once a route to the cue master exists. -/
def reportSend (s : State) : State :=
  match s.fab.reports, cueMaster s with
  | r :: t, some m =>
    let body := beBytes 4 r.cid ++ [BitVec.ofNat 8 r.outcome, 0] ++ beBytes 6 r.fn
    let done := fun (s : State) => updFab s fun f => { f with reports := t }
    if isMaster s then done (reportIn m body s)
    else match routePort s m false with
      | some b => if flows s b then done (sendUnicast 1 m 0x05 body s) else s
      | none => s
  | _, _ => s

/-- REPORT_ROUTE_EXPIRY (R383). -/
def reportExpiry (s : State) : State := updFab s fun f => { f with reports := f.reports.drop 1 }

/-- FCMT.GO (R378). -/
def fcmtGo (a : Nat) (v : Word) (s : State) : State :=
  let st := s.get pgFAB F.FAB_FCSTAT_STATE
  if bitsOf v 0 1 = 0 then s
  else if st = 1 ∨ st = 2 then s.fault pgFAB 0x40 0x084 a
  else if !isMaster s then s.fault pgFAB 0x41 0x084 a
  else
    let window : Bool := bitsOf v 1 1 = 1
    let own : Bool := bitsOf v 2 1 = 1
    let target := s.get pgFAB F.FAB_FCTGTL_TGT + s.get pgFAB F.FAB_FCTGTH_TGT * 2 ^ 32
    let cid := (s.get pgFAB F.FAB_FCID_CID + 1) % 2 ^ 32
    let c := s.fab.cluster.getD 0
    let n := if own then (memberDb s).length
      else (memberDb s).length + ((s.fab.clusters.filter (·.1 ≠ c)).map (·.2.count)).sum
    let s := (s.set pgFAB F.FAB_FCID_CID cid).setReg pgFAB 0x098 1
    let s := (s.setReg pgFAB 0x09C (BitVec.ofNat 32 (n % 2 ^ 19))).setReg pgFAB 0x0A0 0
    let s := ((s.setReg pgFAB 0x0A4 0).setReg pgFAB 0x0A8 0).setReg pgFAB 0x0AC 0
    let s := updFab s fun f => { f with table := [], mCluster := own, mWindow := window, mTarget := target }
    let body := beBytes 4 cid ++ beBytes 6 target ++ [BitVec.ofNat 8 (window.toNat + 2 * s.get pgTIME F.TIME_MODE_CURIDX), 0] ++
      beBytes 4 s.st.toNat ++ beBytes 4 n
    prepareIn body (sendFlood [0, 1] own 0x01 body s)

/-- FCCTL (R378): FIRE, else ABORT. -/
def fcctl (a : Nat) (v : Word) (s : State) : State :=
  let fire := bitsOf v 0 1 = 1
  let abort := bitsOf v 1 1 = 1
  if !fire ∧ !abort then s
  else if s.get pgFAB F.FAB_FCSTAT_STATE ≠ 1 ∨ (fire ∧ s.fab.mWindow) then s.fault pgFAB 0x42 0x090 a
  else
    let cid := s.get pgFAB F.FAB_FCID_CID
    let s := s.set pgFAB F.FAB_FCSTAT_STATE (if fire then 2 else 3)
    let s := sendFlood [0, 1] s.fab.mCluster (if fire then 0x03 else 0x04) (beBytes 4 cid) s
    if fire then fireIn cid s else abortIn cid s

/-! ### The FAB rings (R387) -/

/-- FAB's receive ring. -/
def fabRx : Ring := ⟨pgFAB, 0x0E0, 0x0E4, 0x0E8, 0x0EC, fabWho⟩
/-- FAB's transmit ring. -/
def fabTx : Ring := ⟨pgFAB, 0x0F0, 0x0F4, 0x0F8, 0x0FC, fabWho⟩

/-- A bundle into the receive ring (R387, R287), with flags for its last descriptor. -/
def fabRing (b : List Byte) (extra : Nat) (s : State) : State :=
  let h := fabRx.headOf s % fabRx.size s
  let (s, l, out) := fillRing fabRx 64 h b s
  if l.isEmpty then s.evt pgFAB 12
  else
    let s := fabRx.setHead (h + l.length) s
    let ts := stamp16 s
    if out then (closeDescs fabRx l 0 8 ts s).evt pgFAB 12 else (closeDescs fabRx l 0 extra ts s).evt pgFAB 10

/-- Firmware data into the receive ring. -/
def fabToRing (b : List Byte) (s : State) : State := fabRing b 0 s

/-- Whether a KIND suits a VL and a ROUTE (R364). -/
def kindOk (kind vl route : Nat) : Bool :=
  let flood := route = 3 || route = 4
  match kind with
  | 0x01 | 0x03 | 0x04 => vl = 1 && flood
  | 0x02 => vl = 1 && (route = 0 || route = 1)
  | 0x05 => vl = 1 && route = 1
  | 0x08 | 0x09 | 0x0A | 0x10 | 0x12 => vl = 1 && flood
  | 0x11 => vl = 1 && route = 0
  | 0x20 => vl = 2 && route = 2
  | 0x30 | 0x31 => vl = 3 && route = 1
  | _ => false

/-! ### A bundle arrives (R363, R364) -/

/-- A bundle delivered to this node: from a port, or none where it is its own (R364). -/
def deliverBundle (src h : Option Nat) (b : List Byte) (rec' : List Nat) (s : State) : State :=
  let kind := (b.getD 8 0).toNat
  let node := beVal (slice b 5 3) % 2 ^ 18
  let body := b.drop 16
  let cid := beVal (slice body 0 4)
  let s := s.bump pgFAB F.FAB_st_DELIVERED
  match kind with
  | 0x01 => prepareIn body s
  | 0x02 => readyIn (if (b.getD 0 0).toNat / 8 % 8 = 0 then src else none) body s
  | 0x03 => fireIn cid s
  | 0x04 => abortIn cid s
  | 0x05 => reportIn node body s
  | 0x08 =>
    if s.flag pgFAB F.FAB_CUECFG_OVRACCEPT ∧ (cueMaster s = some node ∨ s.flag pgFAB F.FAB_CUECFG_OVRANY) then
      ovrRelease (body.getD 1 0).toNat (ovrFire (body.getD 0 0).toNat s)
    else s
  | 0x09 | 0x0A => remoteRecord body s
  | 0x10 => lsrApply rec' s
  | 0x11 => subscribeIn (src.getD 0) rec' s
  | 0x12 => discEval (hear ⟨rec'.getD 0 0 % 3, rec'.getD 1 0, rec'.getD 2 0 % 2 ^ 18, rec'.getD 3 0, rec'.getD 4 0 ≠ 0, rec'.getD 5 0 ≠ 0, s.time.ft⟩ s)
  | 0x30 =>
    -- R507: a request that finds the responder's store full keeps its pool
    if !inRun s pgCANE then s
    else if s.net.cane.store.length < 8 then caneStore { path := 2, own := node, msg := body, frame := b, ts := stamp16 s } s
    else updFab (heldAdd h 1 s) fun f => { f with caneWait := f.caneWait ++ [(h, node, b)] }
  | 0x31 => fabToRing b s
  | _ => s

/-- Tunnelled requests that waited, put into the responder's store as it has room (R507). -/
def caneRefill (s : State) : State :=
  match s.fab.caneWait with
  | (h, node, b) :: t =>
    if s.net.cane.store.length < 8 then
      heldAdd h (-1) (caneStore { path := 2, own := node, msg := b.drop 16, frame := b, ts := stamp16 s } (updFab s fun f => { f with caneWait := t }))
    else s
  | [] => s

/-- A flood at this node, from a port or its own (R363, R377): the first copy on each tree goes on, the first of all is delivered. -/
def floodIn (src : Option Nat) (h : Option Nat) (b : List Byte) (rec' : List Nat) (s : State) : State :=
  let c := (b.getD 0 0).toNat
  let tree := c / 2 % 2
  let node := beVal (slice b 5 3) % 2 ^ 18
  let seq := beVal (slice b 12 4)
  let kind := (b.getD 8 0).toNat
  let live := s.fab.seen.filter fun e => e.1 = node && e.2.1 = seq && s.time.ft < e.2.2.2 + secUnits
  if (kind = 0x01 ∨ kind = 0x03 ∨ kind = 0x04) ∧ cueMaster s ≠ some node then s.bump pgFAB F.FAB_st_NOTMASTER
  else
    let s := if live.isEmpty then s else s.bump pgFAB F.FAB_st_DUPCUE
    if live.any (·.2.2.1 = tree) then s
    else
      let s := remember node seq tree s
      let out := (treePorts s tree).filter fun p => src ≠ some p
      let s := leave 1 h src.isSome out b s
      let here := c / 8 % 8 = 4 ∨ s.fab.cluster = some (beVal (slice b 2 3) % 2 ^ 18 / 256)
      if live.isEmpty ∧ here then deliverBundle src h b rec' s else s

/-- A bundle accepted from a port, or sent by this node's own ring (R363, R364, R389). -/
def bundleIn (src : Option Nat) (h : Option Nat) (b : List Byte) (rec' : List Nat) (s : State) : State :=
  let c := (b.getD 0 0).toNat
  let vl := c / 64
  let route := c / 8 % 8
  let kind := (b.getD 8 0).toNat
  let s := heldAdd h 1 s
  let s :=
    if !fabOn s ∨ (vl ≠ 1 ∧ effMode s pgFAB ≠ 2) ∨ b.length < 16 then s
    else if 5 ≤ route ∨ !kindOk kind vl route then s.bump pgFAB F.FAB_st_BADKIND
    else match route with
      | 0 => deliverBundle src h b rec' s
      | 1 => if nodeId s = some (beVal (slice b 2 3) % 2 ^ 18) then deliverBundle src h b rec' s else unicast h src.isSome b s
      | 2 =>
        let c := beVal (slice b 22 2)
        tileDeliver b (leave 2 h true (tilePorts s src (c % 2 ^ 11) (beVal (slice b 24 2) % 2 ^ 11)) b s)
      | _ => floodIn src h b rec' s
  fcFollow (heldAdd h (-1) s)

/-- A bundle as it stands on the line, its record read by the layout of the implementation. -/
def bundleBytes (src : Option Nat) (h : Option Nat) (b : List Byte) (s : State) : State :=
  bundleIn src h b (Config.recRead (b.getD 8 0).toNat (b.drop 16)) s

/-- A tunnelled Cane message of a CANESIGN chain signed (R307, R387), or none where the bundle holds no whole message with a valid slot (DEDUCED,
notes/assumptions/114.md). -/
def signBundle (s : State) (b : List Byte) : Option (List Byte) :=
  let d := b.drop 16
  let n := 48 + beVal (slice d 28 2)
  if (b.getD 8 0).toNat ≠ 0x30 ∨ d.length ≠ n ∨ slice d 0 3 ≠ [0x43, 0x4E, 1] ∨ 2 ≤ (d.getD 6 0).toNat then none
  else (caneKey s (d.getD 6 0).toNat).map fun key => b.take 16 ++ d.take (n - 16) ++ caneTag key (d.take (n - 16))

/-- The chain at the head of FAB's transmit ring (R387): its header's own fields written by the device, and the bundle on its way. -/
def fabSendOne (s : State) : State × Bool :=
  let r := fabTx
  let h := r.headOf s % r.size s
  if r.free s = 0 then (s, false)
  else
    let (s, l) := readChain r true (r.free s) h s
    match l with
    | [] => (s, false)
    | (_, _, _, fl0) :: _ =>
      let last := (l.getLast?.map fun e => e.2.2.2).getD 0
      let (s, bytes) := l.foldl (fun (s, acc) (_, a, len, _) =>
        let (s, b) := rd r.who a len s
        (s, match acc, b with | some p, some q => some (p ++ q) | _, _ => none)) ((s, some []) : State × Option (List Byte))
      let b := bytes.getD []
      let c := (b.getD 0 0).toNat
      let ok := bytes.isSome && fl0 / 2 % 2 = 1 && last / 4 % 2 = 1 && 16 ≤ b.length && b.length ≤ 4096 && beVal (slice b 10 2) = b.length &&
        1 ≤ c / 8 % 8 && c / 8 % 8 ≤ 4 && kindOk (b.getD 8 0).toNat (c / 64) (c / 8 % 8)
      let fin := fun (err : Bool) (s : State) =>
        let ts := stamp16 s
        let s := l.foldl (fun s (i, _, _, fl) =>
          let s := if fl / 8 % 2 = 1 ∧ !err then wr' r.who (r.desc s i + 8) (leBytes 4 (ts / 16) ++ leBytes 1 (ts % 16)) s else s
          wr' r.who (r.desc s i + 14) (leBytes 2 ((fl &&& 0xFFFE) ||| (if err then 64 else 32))) s) s
        r.setHead (h + l.length) s
      let signed := if fl0 / 16 % 2 = 1 then signBundle s b else some b
      if !ok ∨ signed.isNone then (fin true s, true)
      else
        let b := signed.getD b
        let q := s.fab.msgSeq % 2 ^ 32
        let b := [BitVec.ofNat 8 (c - c / 4 % 2 * 4), 0] ++ slice b 2 3 ++ beBytes 3 ((nodeId s).getD 0) ++ slice b 8 4 ++ beBytes 4 q ++ b.drop 16
        let s := updFab s fun f => { f with msgSeq := f.msgSeq + 1 }
        let s := match c / 8 % 8 with
          | 1 => if nodeId s = some (beVal (slice b 2 3) % 2 ^ 18) then bundleBytes none none b s else unicast none false b s
          | 2 => leave 2 none false (tilePorts s none (beVal (slice b 22 2) % 2 ^ 11) (beVal (slice b 24 2) % 2 ^ 11)) b s
          | _ => fcFollow (floodIn none none b (Config.recRead (b.getD 8 0).toNat (b.drop 16)) s)
        ((fin false s).evt pgFAB 11, true)

/-- Every chain that the ring holds, at most one for each descriptor. -/
def fabSend : Nat → State → State
  | 0, s => s
  | n + 1, s => let (s, more) := fabSendOne s; if more then fabSend n s else s

/-- FAB_TXTAIL_WRITE (R387). -/
def fabTxTail (v : Word) (s : State) : State :=
  let s := s.setReg pgFAB 0x0F8 (v &&& 0xFFF)
  if effMode s pgFAB = 2 then fabSend 4096 s else s

/-! ### Records of sound and Cane replies -/

/-- The records that the sound block has to publish leave on the CUE lane (R269, R386). -/
def flushPub (s : State) : State :=
  let l := s.snd.pub
  let s := { s with snd := { s.snd with pub := [] } }
  if !fabOn s then s
  else l.foldl (fun s (beat, r) => sendFlood [0] (s.flag pgFAB F.FAB_CUECFG_SHARESCOPE) (if beat then 0x09 else 0x0A) r s) s

/-! ### Meanings -/

/-- BLOCK_END (R258 to R260). -/
def execBlockEnd (bus : Fin 4) (s : State) := act (fun s => flushPub (blockEnd bus s)) s
/-- BEAT_ISSUE (R265). -/
def execBeatIssue (s : State) := act (fun s => flushPub (beatIssue s)) s
/-- ROLE_ANNOUNCE (R352). -/
def execRoleAnnounce (role : Fin 3) (s : State) := act (roleAnnounce role) s
/-- ROLE_RECEIVE (R352): a ROLE bundle from a port, and the numbers its body spells. -/
def execRoleReceive (port : Fin 4) (b : List Byte) (rec' : List Nat) (s : State) := act (bundleIn (some port.val) none b rec') s
/-- ROLE_TIMEOUT (R352). -/
def execRoleTimeout (role : Fin 3) (s : State) := act (roleTimeout role) s
/-- LSR_REFRESH (R357): because a record changed, or after 1 s without change. -/
def execLsrRefresh (changed : Bool) (s : State) := act (lsrRefresh changed) s
/-- LSR_RECEIVE (R357). -/
def execLsrReceive (port : Fin 4) (b : List Byte) (rec' : List Nat) (s : State) := act (bundleIn (some port.val) none b rec') s
/-- LSR_EXPIRY (R357). -/
def execLsrExpiry (cluster : Bool) (key : BitVec 10) (s : State) := act (lsrExpiry cluster key.toNat) s
/-- DISCOVERY_CONVERGED (R353). -/
def execDiscoveryConverged (s : State) := act converged s
/-- CLUSTER_SEED (R355). -/
def execClusterSeed (s : State) := act clusterSeed s
/-- MEMBER_GRANT (R356). -/
def execMemberGrant (serial : Dword) (member : Byte) (s : State) := act (memberGrant serial.toNat member.toNat) s
/-- SUBSCRIBE_SEND (R371). -/
def execSubscribeSend (s : State) := act subscribeSend s
/-- SUBSCRIBE_RECEIVE (R371). -/
def execSubscribeReceive (port : Fin 4) (b : List Byte) (rec' : List Nat) (s : State) := act (bundleIn (some port.val) none b rec') s
/-- TILE_QUARTER_RECEIVE (R371). -/
def execTileQuarterReceive (port : Fin 4) (b : List Byte) (s : State) := act (bundleIn (some port.val) none b []) s
/-- GATEWAY_LOSS (R376). -/
def execGatewayLoss (s : State) := act gatewayLoss s
/-- PREPARE_RECEIVE (R379). -/
def execPrepareReceive (port : Fin 4) (b : List Byte) (s : State) := act (bundleIn (some port.val) none b []) s
/-- READY_RECEIVE (R381). -/
def execReadyReceive (port : Fin 4) (b : List Byte) (s : State) := act (bundleIn (some port.val) none b []) s
/-- READY_SEND (R381). -/
def execReadySend (s : State) := act readySend s
/-- FIRE_RECEIVE (R382). -/
def execFireReceive (port : Fin 4) (b : List Byte) (s : State) := act (bundleIn (some port.val) none b []) s
/-- ABORT_RECEIVE (R382). -/
def execAbortReceive (port : Fin 4) (b : List Byte) (s : State) := act (bundleIn (some port.val) none b []) s
/-- REPORT_SEND (R383). -/
def execReportSend (s : State) := act reportSend s
/-- REPORT_RECEIVE (R383). -/
def execReportReceive (port : Fin 4) (b : List Byte) (s : State) := act (bundleIn (some port.val) none b []) s
/-- REPORT_ROUTE_EXPIRY (R383). -/
def execReportRouteExpiry (s : State) := act reportExpiry s
/-- OVERRIDE_BUNDLE_RECEIVE (R385). -/
def execOverrideBundleReceive (port : Fin 4) (b : List Byte) (s : State) := act (bundleIn (some port.val) none b []) s
/-- FIRMWARE_BUNDLE_RECEIVE (R387). -/
def execFirmwareBundleReceive (port : Fin 4) (b : List Byte) (s : State) := act (bundleIn (some port.val) none b []) s

end Sys2Proof.Machine
end

