-- ==== Sys2Proof/Machine/Course.lean ====
section
/-!
DEFINITION. The Brura links (R328 to R348): lane states, course slots, bundles on the line and what a course brings.
-/
namespace Sys2Proof.Machine
open Sys2Proof

/-- A lane of a port. -/
def laneOf (s : State) (b l : Nat) : Lane := (bruOf s b).lanes.getD l {}
/-- A lane changed. -/
def updLane (s : State) (b l : Nat) (f : Lane → Lane) : State := updBru s b fun p => { p with lanes := updAt p.lanes l f }
/-- The transmitters and receivers of a port run: FAB is on and REQ.MODE is not OFF (R330, R346). -/
def bruRuns (s : State) (b : Nat) : Bool := domainOn s 11 && s.get (pgBRU b) F.HDR_REQ_MODE ≠ 0
/-- The port is in TEST. -/
def bruTest (s : State) (b : Nat) : Bool := effMode s (pgBRU b) = 3

/-! ### A port enters or leaves UP (R331, R340) -/

/-- The bundles of a port that has left UP dropped, and its counts restarted (R340). -/
def portDown (b : Nat) (s : State) : State :=
  let p := bruOf s b
  let s := s.bump (pgBRU b) F.BRU_st_DROPPED p.sent.length
  let s := s.bump pgFAB F.FAB_st_NOROUTE (p.sent.length + p.ready.length)
  let s := p.ready.foldl (fun s x => heldAdd x.held (-1) s) s
  let s := [p.cue, p.other].foldl (fun s x => match x with | some (x, _) => heldAdd x.held (-1) s | none => s) s
  let s := updFab s fun f => { f with held := f.held.filter fun e => e.2.1 ≠ b, subs := f.subs.set b [] }
  let s := updBru s b fun p => { p with up := false, txSeq := 0, rxExp := 0, ackv := false, sent := [], cue := none, other := none }
  let s := updBru s b fun p => { p with part := [none, none, none, none], expiries := 0, replayDue := false, replay := [], replayPos := 0, ready := [] }
  let s := updBru s b fun p => { p with taken := [0, 0, 0, 0], freed := [0, 0, 0, 0], own := [0, 0, 0, 0], nbDist := 127, nbValid := false,
                                        lanes := p.lanes.map fun l => { l with told := [0, 0, 0, 0] } }
  refreshAll (topoChange (s.evt (pgBRU b) 1))

/-- Whether a port is UP brought up to date (R331, R333). -/
def portCheck (b : Nat) (s : State) : State :=
  let p := bruOf s b
  let both : Bool := p.lanes.all (·.state = 4)
  let up := both && p.skew ≤ 20 && !p.flbActive
  let wide := both && decide (20 < p.skew)
  let s := s.evtIf (wide && !p.deskew) (pgBRU b) 3
  let s := updBru s b fun p => { p with deskew := wide }
  if up = p.up then s
  else if up then discEval (refreshAll (topoChange ((updBru s b fun p => { p with up := true }).evt (pgBRU b) 0)))
  else discEval (portDown b s)

/-- The far-end loop for the partner ends (R333). -/
def flbEnd (b : Nat) (s : State) : State :=
  if (bruOf s b).flbActive then portCheck b (updBru s b fun p => { p with flbActive := false }) else s

/-- A lane enters a state (R330). -/
def laneTo (b l n : Nat) (s : State) : State :=
  let k := laneOf s b l
  if k.state = n then s
  else
    let s := updLane s b l fun k => { k with state := n }
    let s := if n = 2 then updLane s b l fun k => { k with valid := 0, rxok := 0, bad := 0, noComma := 0, alt := none } else s
    let s := if n = 3 then updLane s b l fun k => { k with halfAt := s.time.ft, stuck := false } else s
    let s := if l = 0 ∧ k.state = 0 then updBru s b fun p => { p with tcount := 0, ccount := 0 } else s
    let s := if l = 0 ∧ n = 2 then updBru s b fun p => { p with echo := none } else s
    -- a loop for the partner ends when lane 0 leaves UP
    let s := if l = 0 ∧ k.state = 4 then updBru s b fun p => { p with flbActive := false } else s
    portCheck b s

/-- A lane stopped: DARK (R330). -/
def laneDark (b l : Nat) (s : State) : State :=
  updLane (laneTo b l 0 s) b l fun k => { k with alt := none, prxok := false, form := (false, false) }

/-- A port whose receivers no longer run (R330). -/
def bruStop (b : Nat) (s : State) : State := if bruRuns s b then s else laneDark b 1 (laneDark b 0 s)

/-- Comma lock lost: SEEK (R330). -/
def laneSeek (b l : Nat) (s : State) : State :=
  if (laneOf s b l).state < 2 then s else laneTo b l 1 (s.bump (pgBRU b) F.BRU_st_LOCKLOSS)

/-- SIGNAL_DETECT. -/
def signalDetect (b l : Nat) (s : State) : State := if bruRuns s b ∧ (laneOf s b l).state = 0 then laneTo b l 1 s else s
/-- SIGNAL_LOSS. -/
def signalLoss (b l : Nat) (s : State) : State := laneDark b l s
/-- COMMA_LOCK: four commas at position of one form. -/
def commaLock (b l : Nat) (pre inv : Bool) (s : State) : State :=
  if (laneOf s b l).state = 1 then laneTo b l 2 (updLane s b l fun k => { k with form := (pre, inv) }) else s
/-- HALFSTUCK (R332). -/
def halfStuck (b l : Nat) (s : State) : State :=
  if (laneOf s b l).state = 3 ∧ !(laneOf s b l).stuck then (updLane s b l fun k => { k with stuck := true }).evt (pgBRU b) 2 else s

/-! ### Courses sent (R324, R328 to R341) -/

/-- FLAGS of a CTRL payload (R329). -/
def ctrlFlags (s : State) (b : Nat) : Nat :=
  (bruTest s b && s.get (pgBRU b) F.BRU_CFG_LOOP = 3).toNat + 2 * effMode s (pgBRU b)

/-- The DISCOVERY block, 128 bytes (R354). -/
def discoveryBlock (s : State) : List Byte :=
  let f := s.fab
  let id := f.cluster.getD 0 * 256 + f.member.getD 0
  let full : Bool := decide (256 ≤ (memberDb s).length)
  let flags := f.cluster.isSome.toNat + 2 * f.member.isSome.toNat + 4 * s.get pgFAB F.FAB_IDCFG_CFIX + 8 * s.get pgFAB F.FAB_IDCFG_MFIX +
    16 * s.get pgFAB F.FAB_IDCFG_INGRESS + 32 * full.toNat
  let r := ownRank s
  beBytes 3 id ++ [BitVec.ofNat 8 flags] ++ beBytes 2 (if f.cluster.isSome then r.getD 0 0 else 0) ++
    [BitVec.ofNat 8 (if f.member.isSome then r.getD 2 0 else 0), 0] ++ beBytes 8 ((f.holders.getD 1 none).map (·.1.serial) |>.getD 0) ++
    beBytes 8 f.hash.toNat ++ beBytes 4 f.gen ++ List.replicate 100 0

/-- A CTRL payload, 256 bytes (R329). -/
def ctrlPayload (s : State) (b : Nat) : List Byte :=
  beBytes 8 Config.serial.toNat ++ [BitVec.ofNat 8 (ctrlFlags s b), 1, 0, 0] ++ beBytes 4 (bruOf s b).ccount ++ discoveryBlock s ++ List.replicate 112 0

/-- The TIMEBLOCK (R373): the gateway this node follows, as its time parent reported it, or as it is itself. -/
def timeBlock (s : State) : List Byte :=
  let d := s.get pgFAB F.FAB_TIMEPATH_GWDIST
  let tp := s.get pgFAB F.FAB_TIMEPATH_PORT
  let servo := match s.time.servo with | .free => 0 | .acquire => 1 | .locked => 2 | .holdover => 3
  let head := if d = 0 ∧ holdsRole s 0 then
      beBytes 8 Config.serial.toNat ++ beBytes 3 ((nodeId s).getD 0) ++ [0] ++ [BitVec.ofNat 8 (servo + 4 * (timeValid s).toNat), 0] ++
        beBytes 2 (s.get pgTIME F.TIME_UTCOFF_OFFSET)
    else if tp < 4 then slice (bruOf s tp).timeRx 64 11 ++ [0] ++ slice (bruOf s tp).timeRx 76 1 ++ [0] ++ slice (bruOf s tp).timeRx 78 2
    else List.replicate 16 0
  slice head 0 11 ++ [BitVec.ofNat 8 d] ++ slice head 12 4 ++ beBytes 4 s.fab.gwGen ++ List.replicate 108 0

/-- A TIME payload (R341): TX is the departure corrected by TXLAT. -/
def timePayload (s : State) (b : Nat) : List Byte :=
  let p := bruOf s b
  let tx := (grid16 s.time.ft : Int) + signed 16 (s.get (pgBRU b) F.BRU_TXLAT_LAT) * 4096
  let echo := match p.echo with
    | some (n, t, r) => beBytes 4 n ++ ftBytes t ++ ftBytes r
    | none => beBytes 4 0xFFFFFFFF ++ List.replicate 24 0
  beBytes 4 p.tcount ++ ftBytes tx.toNat ++ echo ++ List.replicate 20 0 ++ timeBlock s ++ List.replicate 64 0

/-- The segment of a bundle from a position (R334), and the number of bundle bytes in it. -/
def segment (x : Bundle) (seq pos : Nat) : List Byte × Nat :=
  let all := x.bytes ++ beBytes 4 (crc32 x.bytes).toNat
  let n := min 252 (all.length - pos)
  let last : Bool := decide (all.length ≤ pos + n)
  ([BitVec.ofNat 8 (x.vl + (if pos = 0 then 4 else 0) + (if last then 8 else 0)), BitVec.ofNat 8 (if last then seq else 0)] ++ beBytes 2 n ++
    slice all pos n ++ List.replicate (252 - n) 0, n)

/-- The receive pool of a VL in credits (R366). -/
def poolOf (vl : Nat) : Nat := match vl with | 1 => 96 | 2 => 1024 | 3 => 256 | _ => 0

/-- A bundle may start (R336, R366, R367). -/
def mayStart (p : BruPort) (x : Bundle) : Bool :=
  let busy := p.sent.length + p.cue.isSome.toNat + p.other.isSome.toNat
  let used := (p.sent.map fun e => e.b.bytes.length + 4).sum + (([p.cue, p.other].filterMap id).map fun e => e.1.bytes.length + 4).sum
  let free := poolOf x.vl + p.freed.getD x.vl 0 - p.taken.getD x.vl 0
  let c := creditsOf x.bytes.length
  busy < 127 && used + x.bytes.length + 4 ≤ 65536 && c ≤ free && (x.vl ≠ 3 || (x.bytes.getD 8 0).toNat = 0x30 || 80 < free)

/-- A bundle taken from a port's queue to its line. -/
def startBundle (b : Nat) (x : Bundle) (s : State) : State :=
  let s := s.bump (pgBRU b) F.BRU_st_BUNDTX
  updBru s b fun p =>
    let p := { p with ready := p.ready.erase x, taken := updAt p.taken x.vl (· + creditsOf x.bytes.length) }
    if x.vl = 1 then { p with cue := some (x, 0) } else { p with other := some (x, 0), starts := (p.starts + 1) % 16 }

/-- The bundle that the fabric's arbitration chooses (R368, R507); CUE only where `cueOnly`, or with FAB in STANDBY, and none with FAB in OFF (R389). -/
def choose (s : State) (b : Nat) (cueOnly : Bool) : Option Bundle :=
  let p := bruOf s b
  let first := fun vl => p.ready.find? fun x => x.vl = vl && mayStart p x
  -- R507: Cane's bundles start ahead of other BULK, and take a start of every 16 whatever BULKW holds
  let cane := p.ready.find? fun x => x.vl = 3 && x.bytes.getD 8 0 = 0x30 && mayStart p x
  match (if fabOn s then first 1 else none) with
  | some x => some x
  | none =>
    if cueOnly ∨ !inRun s pgFAB then none
    else match first 2, cane.or (first 3) with
      | some m, some k =>
        if p.starts < s.get pgFAB F.FAB_VLARB_BULKW ∨ (cane.isSome ∧ p.starts = 0) then some k else some m
      | some m, none => some m
      | none, k => k

/-- A segment of the bundle on the line leaves; with its last the bundle is numbered and kept for replay (R336), and the pool it came through is freed (R366). -/
def sendSegment (b : Nat) (cue : Bool) (x : Bundle) (pos : Nat) (s : State) : State × List Byte :=
  let (pl, n) := segment x (bruOf s b).txSeq pos
  if pos + n < x.bytes.length + 4 then
    (updBru s b fun p => if cue then { p with cue := some (x, pos + n) } else { p with other := some (x, pos + n) }, pl)
  else
    let t := s.time.ft
    let s := updBru s b fun p =>
      let e : Sent := { seq := p.txSeq, b := { x with held := none }, at' := t }
      let p := { p with sent := p.sent ++ [e], txSeq := (p.txSeq + 1) % 256 }
      if cue then { p with cue := none } else { p with other := none }
    (heldAdd x.held (-1) s, pl)

/-- A replay that is due begins, in place of one under way at the end of a bundle of it, whose segments are contiguous (R338; DEDUCED,
notes/assumptions/112.md). -/
def replayStart (b : Nat) (s : State) : State :=
  let p := bruOf s b
  if p.replayDue ∧ p.cue.isNone ∧ p.other.isNone ∧ p.replayPos = 0 then
    let s := if p.sent.isEmpty then s else s.bump (pgBRU b) F.BRU_st_REPLAYS
    updBru s b fun p => { p with replayDue := false, replay := p.sent, replayPos := 0 }
  else s

/-- The DATA course of a position, if one is to be sent (R339). -/
def dataCourse (b : Nat) (s : State) : State × Option (List Byte) :=
  let s := replayStart b s
  let p := bruOf s b
  match p.replay with
  | e :: t =>
    let (pl, n) := segment e.b e.seq p.replayPos
    let s := if p.replayPos = 0 then s.bump (pgBRU b) F.BRU_st_REPLAYBUND else s
    if p.replayPos + n < e.b.bytes.length + 4 then (updBru s b fun p => { p with replayPos := p.replayPos + n }, some pl)
    else
      let now := s.time.ft
      (updBru s b fun p => { p with replay := t, replayPos := 0, sent := p.sent.map fun x => if x.seq = e.seq then { x with at' := now } else x }, some pl)
  | [] =>
    match p.cue with
    | some (x, pos) => let (s, pl) := sendSegment b true x pos s; (s, some pl)
    | none =>
      match (if p.replayDue then none else choose s b true) with
      | some x => let (s, pl) := sendSegment b true x 0 (startBundle b x s); (s, some pl)
      | none =>
        match p.other with
        | some (x, pos) => let (s, pl) := sendSegment b false x pos s; (s, some pl)
        | none =>
          if p.replayDue then (s, none)
          else
            -- a publisher supplies the next tile quarters when no MEDIA bundle waits
            let s := if p.ready.any (·.vl = 2) ∨ !inRun s pgFAB then s else (pubNext 1 (pubNext 0 s).1).1
            match choose s b false with
            | some x => let (s, pl) := sendSegment b false x 0 (startBundle b x s); (s, some pl)
            | none => (s, none)

/-- A course header for a lane (R324), and the credit count it tells. -/
def courseHeader (s : State) (b l type : Nat) : Word × Nat :=
  let p := bruOf s b
  let k := laneOf s b l
  let rxok : Bool := decide (3 ≤ k.state)
  let tell := min (p.own.getD k.crvl 0) (k.told.getD k.crvl 0 + 128)
  let credit := if k.crvl = 0 then s.get pgFAB F.FAB_TIMEPATH_GWDIST * 2 + (tvalid s).toNat else tell % 256
  (sealHdr (type * 2 ^ 28 + rxok.toNat * 2 ^ 27 + p.ackv.toNat * 2 ^ 26 + (if p.ackv then (p.rxExp + 255) % 256 else 0) * 2 ^ 18 +
    k.crvl * 2 ^ 16 + credit * 2 ^ 8), tell)

/-- One lane's course leaves (R322): its symbols. -/
def sendCourse (b l type : Nat) (payload : List Byte) (s : State) : State × List Nat :=
  let (h, tell) := courseHeader s b l type
  let s := updLane s b l fun k => { k with told := k.told.set k.crvl tell, crvl := (k.crvl + 1) % 4 }
  let inv := s.flag (pgBRU b) (if l = 0 then F.BRU_CFG_TXINV0 else F.BRU_CFG_TXINV1)
  let x := courseSyms (s.flag (pgBRU b) F.BRU_CFG_PRECODE) inv l h payload
  (s.emit (.course b l x), x)

/-- Bundles leave a port: it is UP and in RUN (R346). -/
def sendsData (s : State) (b : Nat) : Bool := flows s b

/-- Lane 0's course of a slot: TIME, CTRL, DATA or IDLE (R328). -/
def slotLane0 (b : Nat) (s : State) : State × List Nat :=
  let p := bruOf s b
  if p.timeDue then
    let s := updBru s b fun p => { p with timeDue := false, tcount := (p.tcount + 1) % 2 ^ 32 }
    sendCourse b 0 2 (timePayload s b) s
  else if p.ctrlDue then
    let fl := ctrlFlags s b
    let s := updBru s b fun p => { p with ctrlDue := false, flags := fl, ccount := (p.ccount + 1) % 2 ^ 32 }
    sendCourse b 0 3 (ctrlPayload s b) s
  else
    match (if sendsData s b then dataCourse b s else (s, none)) with
    | (s, some pl) => sendCourse b 0 1 pl s
    | (s, none) => sendCourse b 0 0 (List.replicate 256 0) s

/-- Lane 1's course of a slot: DATA or IDLE. -/
def slotLane1 (b : Nat) (s : State) : State × List Nat :=
  match (if sendsData s b then dataCourse b s else (s, none)) with
  | (s, some pl) => sendCourse b 1 1 pl s
  | (s, none) => sendCourse b 1 0 (List.replicate 256 0) s

/-! ### Courses received -/

/-- The form of a comma (R323): precoded, inverted; none where it is no comma of the lane. -/
def commaForm (l : Nat) (c : List Nat) : Option (Bool × Bool) :=
  let plain := comma l
  let pre := (precode 0 plain)
  if c = plain then some (false, false)
  else if c = plain.map (3 - ·) then some (false, true)
  else if c = pre then some (true, false)
  else if c = pre.map (3 - ·) then some (true, true)
  else none

/-- Symbols received, without precoding (R320). -/
def unprecode : Nat → List Nat → List Nat
  | _, [] => []
  | p, x :: t => (x + p) % 4 :: unprecode x t

/-- The bit pair of a symbol index (R319). -/
def symBits (x : Nat) : List Bool := match x with | 0 => [false, false] | 1 => [false, true] | 2 => [true, true] | _ => [true, false]

/-- The header and the 272 payload bytes that a course's symbols hold in a form (R321, R325, R326). -/
def courseBits (l : Nat) (form : Bool × Bool) (sym : List Nat) : Word × List Byte :=
  let x := if form.2 then sym.map (3 - ·) else sym
  let x := if form.1 then unprecode 0 x else x
  let bits := (x.drop 16).flatMap symBits
  let body := packBits 272 (bits.drop 32)
  (BitVec.ofNat 32 (valOfBits (bits.take 32)), packBits 272 (scramble l body))

/-- The median of the last delays (R343); between two middle ones the manual names none. -/
def delayMedian (l : List Int) : Int :=
  let m := l.insertionSort (· ≤ ·)
  let n := m.length
  if n % 2 = 1 then m.getD (n / 2) 0
  else if Config.roundUp 0x343 (m.getD (n / 2) 0) then m.getD (n / 2) 0 else m.getD (n / 2 - 1) 0

/-- The port hears its own courses (R333): a near-end loopback, or a partner that is seen to loop. -/
def looped (s : State) (b : Nat) : Bool :=
  let loop := s.get (pgBRU b) F.BRU_CFG_LOOP
  bruTest s b && (loop = 1 || loop = 2 || (loop = 3 && (bruOf s b).flbSeen))

/-- A TIME course received whole (R341, R343). -/
def timeCourse (b t : Nat) (pl : List Byte) (s : State) : State :=
  let rx := ((grid16 t : Int) - signed 16 (s.get (pgBRU b) F.BRU_RXLAT_LAT) * 4096).toNat
  let t3 := ftOfBytes (slice pl 4 12)
  let s := updBru s b fun p => { p with timeRx := pl, echo := some (beVal (slice pl 0 4), t3, rx) }
  if beVal (slice pl 16 4) = 0xFFFFFFFF ∨ !((bruOf s b).up ∨ bruTest s b) then s
  else
    let t1 : Int := ftOfBytes (slice pl 20 12)
    let t2 : Int := ftOfBytes (slice pl 32 12)
    -- a course that a loop returns carries its own TX, from which half the round trip follows (R333; DEDUCED, notes/assumptions/111.md)
    let d2 : Int := if looped s b then (rx : Int) - t3 else ((rx : Int) - t1) - ((t3 : Int) - t2)
    let o : Int := (2 * (t3 : Int) + d2 - 2 * rx) / 2
    let s := updBru s b fun p => { p with delays := (d2 :: p.delays).take 15, nbOff := o }
    let s := s.setReg (pgBRU b) 0x058 (BitVec.ofInt 32 (openRound 0x344 ((delayMedian (bruOf s b).delays : Rat) / 8192)))
    let s := s.setReg (pgBRU b) 0x05C (BitVec.ofInt 32 (clampInt (-(2 ^ 31)) (2 ^ 31 - 1) (openRound 0x345 ((o : Rat) / 4096))))
    let s := s.bump (pgBRU b) F.BRU_st_TIMEMEAS
    if s.get pgFAB F.FAB_TIMEPATH_PORT = b then withStep (measurement 2 o) s else s

/-- A CTRL course received whole (R329, R333). -/
def ctrlCourse (b : Nat) (pl : List Byte) (s : State) : State :=
  let req : Bool := (pl.getD 8 0).toNat % 2 = 1
  let grant := req && s.flag (pgBRU b) F.BRU_CFG_FLBOK && (effMode s (pgBRU b) = 1 || effMode s (pgBRU b) = 2)
  let s := s.evtIf req (pgBRU b) 5
  let s := updBru s b fun p => { p with ctrlRx := pl, flbActive := grant, flbSeen := slice pl 0 8 = beBytes 8 Config.serial.toNat }
  let s := (s.setReg (pgBRU b) 0x060 (BitVec.ofNat 32 (beVal (slice pl 4 4)))).setReg (pgBRU b) 0x064 (BitVec.ofNat 32 (beVal (slice pl 0 4)))
  discEval (portCheck b s)

/-- A bundle in progress discarded (R335). -/
def badBundle (b : Nat) (s : State) : State := s.bump (pgBRU b) F.BRU_st_BADDISC

/-- A whole bundle with its number (R337). -/
def bundleEnd (b seq : Nat) (bytes : List Byte) (s : State) : State :=
  let p := bruOf s b
  let d := (seq + 256 - p.rxExp) % 256
  if d = 0 then
    let vl := (bytes.getD 0 0).toNat / 64
    let i := s.fab.nextHeld
    let s := updBru (s.bump (pgBRU b) F.BRU_st_BUNDRX) b fun p => { p with rxExp := (p.rxExp + 1) % 256, ackv := true }
    let s := updFab s fun f => { f with nextHeld := i + 1, held := (i, b, vl, creditsOf bytes.length, 0) :: f.held }
    bundleBytes (some b) (some i) bytes s
  else if d < 128 then s.bump (pgBRU b) F.BRU_st_OOSDISC
  else s.bump (pgBRU b) F.BRU_st_DUPDISC

/-- One segment received (R334, R335). -/
def dataSegment (b : Nat) (pl : List Byte) (s : State) : State :=
  if !flows s b then s
  else
    let c := (pl.getD 0 0).toNat
    let vl := c % 4
    let first : Bool := c / 4 % 2 = 1
    let last : Bool := c / 8 % 2 = 1
    let data := slice pl 4 (min 252 (beVal (slice pl 2 2)))
    if vl = 0 then badBundle b s
    else
      let old := (bruOf s b).part.getD vl none
      let s := if first ∧ old.isSome then badBundle b s else s
      match (if first then some data else old.map (· ++ data)) with
      | none => s
      | some got =>
        if !last then updBru s b fun p => { p with part := p.part.set vl (some got) }
        else
          let s := updBru s b fun p => { p with part := p.part.set vl none }
          let n := got.length - 4
          let bytes := got.take n
          if got.length < 20 ∨ 4096 < n ∨ beVal (got.drop n) ≠ (crc32 bytes).toNat then badBundle b s
          else bundleEnd b (pl.getD 1 0).toNat bytes s

/-- A failed course: every bundle in progress on the port is discarded (R335). -/
def failedCourse (b : Nat) (s : State) : State :=
  let s := (s.bump (pgBRU b) F.BRU_st_RSFAIL).evt (pgBRU b) 6
  let s := s.bump (pgBRU b) F.BRU_st_BADDISC ((bruOf s b).part.filter Option.isSome).length
  updBru s b fun p => { p with part := [none, none, none, none] }

/-- An acknowledgement (R336). -/
def ackIn (b seq : Nat) (s : State) : State :=
  let p := bruOf s b
  if (p.txSeq + 255 - seq) % 256 < 127 ∧ p.up then
    let keep := p.sent.filter fun e => 128 ≤ (seq + 256 - e.seq) % 256
    let keepR := p.replay.filter fun e => 128 ≤ (seq + 256 - e.seq) % 256
    if keep.length = p.sent.length then s
    else
      let pos := if keepR.head?.map (·.seq) = p.replay.head?.map (·.seq) then p.replayPos else 0
      updBru s b fun p => { p with sent := keep, replay := keepR, replayPos := pos, expiries := 0 }
  else s

/-- The credits or the time state of a header (R367). -/
def creditIn (b vl v : Nat) (s : State) : State :=
  if vl = 0 then
    let p := bruOf s b
    let d := v / 2
    let ok : Bool := v % 2 = 1
    if p.nbDist = d ∧ p.nbValid = ok then s else fabSync (updBru s b fun p => { p with nbDist := d, nbValid := ok })
  else if (bruOf s b).up then updBru s b fun p => { p with freed := updAt p.freed vl fun c => c + (v + 256 - c % 256) % 256 }
  else s

/-- A valid header (R324, R330, R336, R367). -/
def headerIn (b l : Nat) (h : Word) (s : State) : State :=
  let rxok := h.getLsbD 27
  let s := updLane s b l fun k => { k with prxok := rxok, valid := k.valid + 1, rxok := if rxok then k.rxok + 1 else 0, bad := 0 }
  let k := laneOf s b l
  let s :=
    if k.state = 4 ∧ !rxok then laneTo b l 3 s
    else if (k.state = 2 ∨ k.state = 3) ∧ 4 ≤ k.rxok then laneTo b l 4 s
    else if k.state = 2 ∧ 4 ≤ k.valid ∧ !rxok then laneTo b l 3 s
    else s
  let s := if h.getLsbD 26 then ackIn b (bitsOf h 18 8) s else s
  creditIn b (bitsOf h 16 2) (bitsOf h 8 8) s

/-- A header not valid (R324, R330). -/
def headerBad (b l : Nat) (s : State) : State :=
  let s := updLane (s.bump (pgBRU b) F.BRU_st_HDRERR) b l fun k => { k with valid := 0, rxok := 0, bad := k.bad + 1 }
  if 64 ≤ (laneOf s b l).bad then laneSeek b l s else s

/-- A course decoded in a form (R324 to R328). -/
def decodeCourse (b l : Nat) (form : Bool × Bool) (sym : List Nat) (t skew : Nat) (s : State) : State :=
  if (laneOf s b l).state < 2 then s
  else
    let (h, code) := courseBits l form sym
    let s := s.bump (pgBRU b) F.BRU_st_COURSES
    let s := updBru s b fun p => { p with skew := min 255 skew }
    let ok := hdrValid h
    let s := if ok then headerIn b l h s else headerBad b l s
    -- a course of reserved TYPE is counted by its header, whatever its payload
    let s := if ok ∧ 4 ≤ bitsOf h 28 4 then s.bump (pgBRU b) F.BRU_st_BADTYPE else s
    let s := portCheck b s
    match rsDecode code with
    | none => failedCourse b s
    | some (pl, n) =>
      let s := s.bump (pgBRU b) F.BRU_st_RSCORR n
      if !ok then s
      else match bitsOf h 28 4 with
        | 0 => s
        | 1 => dataSegment b pl s
        | 2 => if l = 0 then timeCourse b t pl s else s
        | 3 => if l = 0 then ctrlCourse b pl s else s
        | _ => s

/-- A course that begins at a position of the lane, with its arrival and the lanes' skew in ns (R330): one whose comma has another form waits for
the next comma, which says whether decoding follows the new form from it. -/
def courseIn (b l : Nat) (sym : List Nat) (t skew : Nat) (s : State) : State :=
  let k := laneOf s b l
  if k.state < 2 then s
  else
    let f := commaForm l (sym.take 16)
    let s := updLane s b l fun k => { k with alt := none, noComma := if f.isSome then 0 else k.noComma + 1 }
    let s := match k.alt with
      | some (g, old, t0, skew0) =>
        if f = some g then decodeCourse b l g old t0 skew0 (updLane s b l fun k => { k with form := g }) else decodeCourse b l k.form old t0 skew0 s
      | none => s
    if 48 ≤ (laneOf s b l).noComma then laneSeek b l s
    else
      let form := (laneOf s b l).form
      match f with
      | some g => if g = form then decodeCourse b l form sym t skew s else updLane s b l fun k => { k with alt := some (g, sym, t, skew) }
      | none => decodeCourse b l form sym t skew s

/-- A course that arrives at the balls: ignored where the port loops its own (R333), and sent back where it loops for its partner. -/
def courseAtBalls (b l : Nat) (sym : List Nat) (t skew : Nat) (s : State) : State :=
  let own := bruTest s b ∧ (s.get (pgBRU b) F.BRU_CFG_LOOP = 1 ∨ s.get (pgBRU b) F.BRU_CFG_LOOP = 2)
  if !bruRuns s b ∨ own then s
  else courseIn b l sym t skew (if (bruOf s b).flbActive then s.emit (.course b l sym) else s)

/-- COURSE_SLOT (R328, R333): one course on each lane; looped courses come back at once. -/
def courseSlot (b : Nat) (s : State) : State :=
  if !bruRuns s b ∨ (bruOf s b).flbActive then s
  else
    let n := (bruOf s b).slots
    let time : Bool := n % 2 ^ s.get (pgBRU b) F.BRU_CFG_TIMELOG = 0
    let ctrl : Bool := n % 1024 = 0 || ctrlFlags s b ≠ (bruOf s b).flags
    let s := updBru s b fun p => { p with slots := n + 1, timeDue := p.timeDue || time, ctrlDue := p.ctrlDue || ctrl }
    let t := s.time.ft + Config.loopDelay
    let (s, x0) := slotLane0 b s
    let (s, x1) := slotLane1 b s
    let loop := s.get (pgBRU b) F.BRU_CFG_LOOP
    if bruTest s b ∧ (loop = 1 ∨ loop = 2) then courseIn b 1 x1 t 0 (courseIn b 0 x0 t 0 s) else s

/-- REPLAY_TIMER_EXPIRY (R338). -/
def replayExpiry (b : Nat) (s : State) : State :=
  let p := bruOf s b
  if !p.up ∨ p.sent.isEmpty then s
  else if 7 ≤ p.expiries then laneSeek b 1 (laneSeek b 0 (s.evt (pgBRU b) 4))
  else updBru s b fun p => { p with expiries := p.expiries + 1, replayDue := true }

/-! ### Meanings -/

/-- COURSE_SLOT (R328). -/
def execCourseSlot (port : Fin 4) (s : State) := act (courseSlot port) s
/-- DATA_COURSE_RECEIVE (R334): a course's 1,120 symbol indices arrive on a lane at an FT, with the lanes' skew in ns. -/
def execDataCourseReceive (port : Fin 4) (lane : Fin 2) (sym : List Nat) (t skew : Nat) (s : State) := act (courseAtBalls port lane sym t skew) s
/-- TIME_COURSE_RECEIVE (R343). -/
def execTimeCourseReceive (port : Fin 4) (lane : Fin 2) (sym : List Nat) (t skew : Nat) (s : State) := act (courseAtBalls port lane sym t skew) s
/-- CTRL_COURSE_RECEIVE (R329). -/
def execCtrlCourseReceive (port : Fin 4) (lane : Fin 2) (sym : List Nat) (t skew : Nat) (s : State) := act (courseAtBalls port lane sym t skew) s
/-- IDLE_COURSE_RECEIVE (R328). -/
def execIdleCourseReceive (port : Fin 4) (lane : Fin 2) (sym : List Nat) (t skew : Nat) (s : State) := act (courseAtBalls port lane sym t skew) s
/-- SIGNAL_DETECT (R330). -/
def execSignalDetect (port : Fin 4) (lane : Fin 2) (s : State) := act (signalDetect port lane) s
/-- SIGNAL_LOSS (R330). -/
def execSignalLoss (port : Fin 4) (lane : Fin 2) (s : State) := act (signalLoss port lane) s
/-- COMMA_LOSS (R330). -/
def execCommaLoss (port : Fin 4) (lane : Fin 2) (s : State) := act (laneSeek port lane) s
/-- COMMA_LOCK (R330). -/
def execCommaLock (port : Fin 4) (lane : Fin 2) (pre inv : Bool) (s : State) := act (commaLock port lane pre inv) s
/-- HALFSTUCK (R332). -/
def execHalfstuck (port : Fin 4) (lane : Fin 2) (s : State) := act (halfStuck port lane) s
/-- REPLAY_TIMER_EXPIRY (R338). -/
def execReplayTimerExpiry (port : Fin 4) (s : State) := act (replayExpiry port) s

end Sys2Proof.Machine
end

