-- ==== Sys2Proof/Machine/Queue.lean ====
section
/-!
DEFINITION. The 64 hardware queues (R459 to R467): pushes, pops, drops and the pool.
-/
namespace Sys2Proof.Machine
open Sys2Proof

/-- Queue `q`. -/
def queueOf (s : State) (q : Nat) : Queue := s.que.qs.getD q {}

/-- One queue changed. -/
def updQueue (s : State) (q : Nat) (f : Queue → Queue) : State := { s with que := { s.que with qs := updAt s.que.qs q f } }

/-- The CTL byte of an item (R459). -/
def itemCtl (b : List Byte) : Nat := (b.getD 15 0).toNat
/-- An item is a FIRST. -/
def itemFirst (b : List Byte) : Bool := itemCtl b / 8 % 2 = 1
/-- An item is a LAST. -/
def itemLast (b : List Byte) : Bool := itemCtl b / 16 % 2 = 1

/-- The item a pop would take (R462): of the packet in service its next, else the oldest of the lowest PRIO present. -/
def queueNext (k : Queue) : Option (Nat × List Byte) :=
  match k.serving with
  | some p => k.items.find? fun i => i.1 = p
  | none => k.items.foldl (fun b i => match b with
      | none => some i
      | some j => if i.1 < j.1 then some i else some j) none

/-- The first item of a PRIO removed. -/
def removeFirst (p : Nat) : List (Nat × List Byte) → List (Nat × List Byte)
  | [] => []
  | i :: t => if i.1 = p then t else i :: removeFirst p t

/-- The depth of a queue (R460). -/
def queueDepth (s : State) (q : Nat) : Nat := 2 ^ s.get pgQUE F.QUE_QCFG_LOGDEPTH q

/-- A queue is enabled. -/
def queueOn (s : State) (q : Nat) : Bool := s.flag pgQUE F.QUE_QCFG_EN q

/-- A change of a queue, with the arrival at its event source when an item becomes eligible (R466, R474). -/
def withEligible (q : Nat) (f : State → State) (s : State) : State :=
  let before := (queueNext (queueOf s q)).isSome
  let s := f s
  if !before && (queueNext (queueOf s q)).isSome && s.flag pgQUE F.QUE_QCFG_NEVT q then arrive (64 + q) s else s

/-- A push refused (R461). -/
def pushRefuse (a q code : Nat) (s : State) : State :=
  ((s.bump pgQUE F.QUE_st_REFUSED).fault pgQUE code (0x200 + 4 * q) a).evt pgQUE 1

/-- The channel completion that a completion item carries is posted (R447, R461); it raises the channel's own source (R474). -/
def postDone (ch : Nat) (s : State) : State :=
  let p := pgDMA (ch / 16)
  arrive (196 + ch) ((s.bump p F.DMA_st_DONES).evt p (ch % 16))

/-- What follows a push that ends, with the fault code it records: a completion item's completion, a core's stalled store, or another agent's write
(R461). -/
def pushEnds (w : PushWait) (waited : Bool) (code : Nat) (s : State) : State :=
  match w.cpl with
  | some (ch, true) => postDone ch s
  | some (_, false) => s
  | none =>
    if !waited then s
    else if 1 ≤ w.agent ∧ w.agent ≤ 4 then presentAll (s.updCore (w.agent - 1) fun k => { k with stalled := false })
    else writeEnds w.agent code s

/-- Whether a push can end now: all but a push that is withheld for want of room (R461). -/
def pushTry (w : PushWait) (q : Nat) (waited : Bool) (s : State) : State × Bool :=
  let k := queueOf s q
  let first := itemFirst w.item
  let last := itemLast w.item
  if !queueOn s q then
    match w.cpl with
    | some _ => (pushEnds w waited 0 (s.bump pgQUE F.QUE_st_CPLLOST), true)
    | none => (pushEnds w waited 0x42 (pushRefuse w.agent q 0x42 s), true)
  else if !first ∧ k.opened.isNone then (pushEnds w waited 0x43 (pushRefuse w.agent q 0x43 s), true)
  else if first ∧ k.opened.isSome then (pushEnds w waited 0x44 (pushRefuse w.agent q 0x44 s), true)
  else if k.discard then
    let s := s.bump pgQUE F.QUE_st_DISCARDED
    let s := if last then withEligible q (updQueue · q fun k => { k with discard := false, opened := none, serving := none }) s else s
    (pushEnds w waited 0 s, true)
  else if queueDepth s q ≤ k.items.length then
    if s.flag pgQUE F.QUE_QCFG_BLOCK q ∨ w.cpl.isSome then
      (if waited then s else (s.bump pgQUE F.QUE_st_FULLWAITS).evt pgQUE 0, false)
    else (pushEnds w waited 0x40 (pushRefuse w.agent q 0x40 (s.evt pgQUE 0)), true)
  else
    let prio := if first then itemCtl w.item % 8 else k.opened.getD 0
    let s := withEligible q (updQueue · q fun k =>
      { k with items := k.items ++ [(prio, w.item)], opened := if last then none else some prio }) s
    let s := (s.bump pgQUE F.QUE_st_PUSHES).statMax pgQUE F.QUE_st_PEAK (queueOf s q).items.length q
    (pushEnds w waited 0 s, true)

/-- Every withheld push of a queue tried again, in the order in which they were presented; those that still find no room stay. -/
def retryPushes (q : Nat) (s : State) : State :=
  let ws := (queueOf s q).waits
  ws.foldl (fun s w =>
    let (s, done) := pushTry w q true s
    if done then s else updQueue s q fun k => { k with waits := k.waits ++ [w] }) (updQueue s q fun k => { k with waits := [] })

/-- A push presented (R461): it ends, or its handshake is withheld, which stalls a writing core. -/
def queuePush (w : PushWait) (q : Nat) (s : State) : State :=
  let (s, done) := pushTry w q false s
  if done then s
  else
    let s := updQueue s q fun k => { k with waits := k.waits ++ [w] }
    if w.cpl.isNone ∧ 1 ≤ w.agent ∧ w.agent ≤ 4 then s.updCore (w.agent - 1) fun k => { k with stalled := true } else s

/-- A write of PUSHq (R461, R459): CTL bits 7 to 5 that are not 0 refuse the item as RESERVED. -/
def pushWrite (a q : Nat) (v : Word) (s : State) : State :=
  if bitsOf v 29 3 ≠ 0 then pushRefuse a q 0x01 s
  else
    let buf := s.que.pushBuf.getD a [0, 0, 0]
    queuePush ⟨a, (buf ++ [v]).flatMap fun w => leBytes 4 w.toNat, none⟩ q s

/-- A write of a word of the writer's push buffer (R461). -/
def pushBufWrite (a i : Nat) (v : Word) (s : State) : State :=
  { s with que := { s.que with pushBuf := updAt s.que.pushBuf a fun b => b.set i v } }

/-- A pop by an agent (R462): the state after it and the status word. -/
def queuePop (a q : Nat) (s : State) : State × Word :=
  let k := queueOf s q
  match queueNext k with
  | none =>
    let fill := k.items.length * 0x10000
    (s, BitVec.ofNat 32 (fill + (if k.serving.isSome then 0x40 else 0)))
  | some (p, b) =>
    let s := updQueue s q fun k =>
      { k with items := removeFirst p k.items, serving := if itemLast b then none else some p }
    let left := (queueOf s q).items.length
    let s := { s with que := { s.que with popBuf := updAt s.que.popBuf a fun _ => b.set 15 (BitVec.ofNat 8 (itemCtl b / 8 * 8 + p)) } }
    let s := s.bump pgQUE F.QUE_st_POPS
    let st := 1 + p * 2 + (itemFirst b).toNat * 0x10 + (itemLast b).toNat * 0x20 + left * 0x10000
    (retryPushes q s, BitVec.ofNat 32 st)

/-- The items of PRIO `p` up to and including a LAST, removed: what is left, how many went, and whether the LAST was among them. -/
def dropPacket (p : Nat) : List (Nat × List Byte) → List (Nat × List Byte) × Nat × Bool
  | [] => ([], 0, false)
  | i :: t =>
    if i.1 ≠ p then
      let (l, n, e) := dropPacket p t
      (i :: l, n, e)
    else if itemLast i.2 then (t, 1, true)
    else
      let (l, n, e) := dropPacket p t
      (l, n + 1, e)

/-- A write of DROP (R463). -/
def queueDrop (a q : Nat) (s : State) : State :=
  match (queueOf s q).serving with
  | none => s.fault pgQUE 0x45 0x060 a
  | some p =>
    let (items, n, ended) := dropPacket p (queueOf s q).items
    let s := s.bump pgQUE F.QUE_st_DISCARDED n
    let s := withEligible q (updQueue · q fun k =>
      if ended then { k with items := items, serving := none } else { k with items := items, discard := true }) s
    retryPushes q (s.evt pgQUE 2)

/-- The pool's use written to POOL (R460). -/
def poolSet (used : Nat) (s : State) : State := (s.set pgQUE F.QUE_POOL_USED used).set pgQUE F.QUE_POOL_FREE (16384 - used)

/-- A queue disabled (R460). -/
def queueOff (q : Nat) (s : State) : State :=
  if !queueOn s q then s
  else
    let s := s.bump pgQUE F.QUE_st_DISCARDED (queueOf s q).items.length
    let s := poolSet (s.get pgQUE F.QUE_POOL_USED - queueDepth s q) (s.set pgQUE F.QUE_QCFG_EN 0 q)
    retryPushes q (updQueue s q fun k => { k with items := [], opened := none, serving := none, discard := false })

/-- A write of CFGq (R460). LOGDEPTH outside 4 to 10, and any write of another one while EN is 1, is refused as RANGE; `EN` acts
on the depth then in force. -/
def queueCfg (a q : Nat) (v : Word) (s : State) : State :=
  let off := 0x100 + 4 * q
  let ld := bitsOf v 1 4
  let s := (s.set pgQUE F.QUE_QCFG_BLOCK (bitsOf v 8 1) q).set pgQUE F.QUE_QCFG_NEVT (bitsOf v 9 1) q
  let changes := ld ≠ s.get pgQUE F.QUE_QCFG_LOGDEPTH q
  let bad : Bool := ld < 4 || 10 < ld || (queueOn s q && changes)
  let s := if bad then s.fault pgQUE 0x07 off a else s.set pgQUE F.QUE_QCFG_LOGDEPTH ld q
  if bitsOf v 0 1 = 0 then retryPushes q (queueOff q s)
  else if queueOn s q then retryPushes q s
  else
    let used := s.get pgQUE F.QUE_POOL_USED + queueDepth s q
    if 16384 < used then (if bad then s else s.fault pgQUE 0x41 off a)
    else poolSet used (s.set pgQUE F.QUE_QCFG_EN 1 q)

/-- QSTATq (R466). -/
def queueStat (s : State) (q : Nat) : Word :=
  let k := queueOf s q
  BitVec.ofNat 32 (k.items.length + k.opened.isSome.toNat * 2 ^ 11 + k.serving.isSome.toNat * 2 ^ 12 + k.discard.toNat * 2 ^ 13 +
    (!k.waits.isEmpty).toNat * 2 ^ 14)

end Sys2Proof.Machine
end

