-- ==== Sys2Proof/Machine/Radio.lean ====
section
/-!
DEFINITION. The crowd radio (R392 to R413): the link to the transceiver, crowd frames, the schedule, the duty-cycle
accounting and its records, and the failures of the transceiver.
-/
namespace Sys2Proof.Machine
open Sys2Proof

/-! ### The link's failures (R409) -/

/-- The link runs: EFF is not OFF (R410, R411). -/
def linkOn (s : State) : Bool := effMode s pgAIR ≠ 0

/-- A failure of the transceiver (R409). -/
def linkFailed (s : State) : State :=
  let s := (updAir s fun a => { a with fails := a.fails + 1 }).fault pgAIR 0x40 0x040 0
  let s := (s.bump pgAIR F.AIR_st_LINKERR).evt pgAIR 4
  if 3 ≤ s.air.fails then refreshAir (updAir s fun a => { a with fault := true }) else s

/-- A TXDONE or RDATA: the transceiver has answered (R409). -/
def linkAnswered (s : State) : State := refreshAir (updAir s fun a => { a with fails := 0, fault := false })

/-! ### Times and airtime (R399 to R401) -/

/-- The values in force or of a LOCKED commit (R400). The schedule and the sub-band are those in force (R408). -/
def airValues (s : State) : State := if s.cmt.mode = .locked then merged s else s

/-- PRE, or LONGPRE in a REACQ frame. -/
def airPre (s : State) (reacq : Bool) : Nat :=
  if reacq then (airValues s).get pgAIR F.AIR_PRE_LONGPRE else (airValues s).get pgAIR F.AIR_PRE

/-- Bits before the frame: preamble, sync word and overhead. -/
def airHead (s : State) (reacq : Bool) : Nat :=
  airPre s reacq + (airValues s).get pgAIR F.AIR_FRAMING_SYNC + (airValues s).get pgAIR F.AIR_FRAMING_OVHD

/-- Some bits on the air, in µs. -/
def airUs (s : State) (bits : Nat) : Rat := (bits : Rat) * 1000000 / ((airValues s).get pgAIR F.AIR_PHY_BITRATE : Rat)

/-- The frame of FN `n` has an FS in sight (R408): in a gap the frames from M on have one, and with a mode change, a re-phase or a step
waiting for T_end only those up to the frame in progress. -/
def hasFs (s : State) (n : Nat) : Bool :=
  match s.time.gapM with
  | some m => m ≤ n
  | none => n ≤ s.time.fn || !(s.flag pgTIME F.TIME_MODE_PEND || s.time.rephase.isSome || s.time.heldStep.isSome)

/-- The index of the frame scheduled for an FN, or none (R399, R408). -/
def airIndex (s : State) (n : Nat) : Option Nat :=
  let c := s.get pgAIR F.AIR_SCHED_CADENCE
  if c ≠ 0 ∧ n % c = s.get pgAIR F.AIR_SCHED_PHASE ∧ hasFs s n then some (n / c) else none

/-- Whether the frame of an index is REACQ (R399). -/
def airReacq (s : State) (j : Nat) : Bool :=
  let r := (airValues s).get pgAIR F.AIR_FRAMING_REACQN
  r ≠ 0 && j % r = 0

/-- The stamp of the frame scheduled for FN `n`, in 2^-16 ns (R399). -/
def airStamp (s : State) (n : Nat) : Nat := fsOf s n + s.get pgAIR F.AIR_TXOFF * 65536000

/-- The stamp of a frame's present try (R405), from that of its first, which it keeps (R408). -/
def tryStamp (s : State) (f : AirFrame) : Nat := f.base + f.k * s.get pgAIR F.AIR_STEP f.sb * 65536000

/-- T_go of a stamp, in 2^-16 ns (R401). -/
def airTgo (s : State) (stamp : Nat) (reacq : Bool) : Int :=
  (stamp : Int) - (airUs s (airHead s reacq) * 65536000).floor - (s.get pgAIR F.AIR_LINK_TXLAT * 65536 : Nat)

/-- The zone programs of a frame (R400). -/
def airZones (s : State) : Nat :=
  if effMode s pgAIR = 3 ∨ s.get pgAIR F.HDR_REQ_MODE = 3 then 0 else min (s.get pgAIR F.AIR_ZONES_PERFRAME) (s.get pgAIR F.AIR_ZONES_NZONES)

/-- The zone programs read from the zone table (R400), with code 0 for a reserved EFFECT (R398); none: a read failed. -/
def readZones (v : State) (j : Nat) : Nat → List Byte → State → State × Option (List Byte)
  | 0, acc, s => (s, some acc)
  | m + 1, acc, s =>
    let i := airZones v - (m + 1)
    let at' := v.get pgAIR F.AIR_ZONEBASE_OFFSET + 8 * ((j * v.get pgAIR F.AIR_ZONES_PERFRAME + i) % v.get pgAIR F.AIR_ZONES_NZONES)
    match rd ⟨0, 15, 0, none⟩ (fsBase + at') 8 s with
    | (s, none) => (s, none)
    | (s, some b) =>
      let bad := decide (6 ≤ (b.getD 1 0).toNat) && decide ((b.getD 1 0).toNat ≤ 127)
      let s := if bad then s.bump pgAIR F.AIR_st_BADZONE else s
      readZones v j m (acc ++ (if bad then (b.set 1 0).take 6 else b.take 6)) s

/-- A crowd frame built (R397, R400) for a try; none: the zone table could not be read. -/
def buildFrame (f : AirFrame) (stamp : Nat) (s : State) : State × Option (List Byte) :=
  let v := airValues s
  let big := firstFn s (stamp + v.get pgAIR F.AIR_AHEAD * 65536000)
  match readZones v f.j (airZones v) [] s with
  | (s, none) => (s, none)
  | (s, some zones) =>
    let nz := airZones v
    let ns := stamp / 65536
    let fsoff := (((fsOf s big : Int) - stamp) * 2 + 65536) / 131072
    let (num, den) := periodFrac s
    let next : Int := ((f.cad * num * 2 : Nat) / ((den : Int) * 65536000) + 1) / 2 -
      (f.k * s.get pgAIR F.AIR_STEP f.sb : Nat)
    let b := [BitVec.ofNat 8 (16 + f.reacq.toNat), BitVec.ofNat 8 (38 + 6 * nz)] ++ beBytes 2 (v.get pgAIR F.AIR_VENUE) ++
      beBytes 3 ((nodeId s).getD 0) ++ [BitVec.ofNat 8 f.j] ++ beBytes 6 (ns / 1000000000) ++ beBytes 4 (ns % 1000000000) ++ beBytes 6 big ++
      [BitVec.ofNat 8 (s.get pgTIME F.TIME_MODE_CURIDX), BitVec.ofNat 8 nz] ++ beBytes 4 fsoff.toNat ++
      beBytes 2 (v.get pgAIR F.AIR_SHOWDLY) ++
      beBytes 4 (if s.flag pgTIME F.TIME_MODE_PEND then 0 else next.toNat) ++ zones
    (s, some (b ++ beBytes 2 (crc16 b)))

/-- TXLOAD of a frame (R395). -/
def txloadPkt (s : State) (f : AirFrame) (b : List Byte) : AirPkt :=
  { op := 0x03, payload := beBytes 2 (airPre s f.reacq) ++ [BitVec.ofNat 8 f.reacq.toNat, 0] ++ b }

/-- The instant by which what loads a frame must have ended (R401, R405): 5 µs before T_go, or under listen-before-talk the end of its CCA. -/
def loadLimit (s : State) (f : AirFrame) : Int :=
  f.tgo - (if f.go then 5 else 20 + s.get pgAIR F.AIR_CCA_LISTEN f.sb : Nat) * 65536000

/-- CCA (R395, R405): its last nibble ends 20 µs and the listen time before T_go. -/
def ccaPkt (s : State) (f : AirFrame) : AirPkt :=
  { op := 0x04, payload := beBytes 2 (s.get pgAIR F.AIR_CCA_LISTEN f.sb) ++ [BitVec.ofNat 8 (s.get pgAIR F.AIR_CCA_THR f.sb)], ends := some (loadLimit s f) }

/-- The instant at which packets end that are sent one after another from now, in 2^-16 ns of FT. -/
def packetsEnd (s : State) (l : List AirPkt) : Nat :=
  s.time.ft + ((l.map fun p => 8 + 2 * p.payload.length).sum) * s.get pgAIR F.AIR_LINK_CLKDIV * 65536

/-- Packets sent in order. -/
def sendAll (l : List AirPkt) (s : State) : State := l.foldl (fun s p => sendPacket p s) s

/-- The load instant of a frame's present try (R401). -/
def loadAt (s : State) (f : AirFrame) : Int :=
  f.tgo - (s.get pgAIR F.AIR_LOADLEAD_LEAD + (if s.flag pgAIR F.AIR_LBT_LBTOK f.sb then s.get pgAIR F.AIR_CCA_LISTEN f.sb + 20 else 0) : Nat) * 65536000

/-- An instant has come, to the nanosecond of the time base. -/
def airReached (s : State) (t : Int) : Bool := decide (t < s.time.ft + 65536)

/-! ### Accounting (R402 to R404) -/

/-- The airtime used in a sub-band's window (R403). -/
def airUsed (s : State) (sb : Nat) : Nat := (s.air.buckets.getD sb []).sum

/-- A sub-band's budget, or its LBT budget, in µs (R402). -/
def airBudget (s : State) (sb : Nat) (lbt : Bool) : Nat :=
  3600 * (if lbt then s.get pgAIR F.AIR_LBT_LBTDUTY sb else s.get pgAIR F.AIR_DUTY sb)

/-- Airtime added to a bucket of a sub-band. -/
def chargeBucket (sb i us : Nat) (s : State) : State :=
  updAir s fun a => { a with buckets := updAt a.buckets sb fun l => updAt l i (· + us) }

/-- The airtime of a frame in whole µs, as its bucket counts it; the manual names no rounding. -/
def wholeUs (a : Rat) : Nat := (openRound 403 a).toNat

/-- The bucket index advances, and the new bucket is cleared (R403). -/
def bucketAdvance (s : State) : State :=
  let i := (s.air.bucket + 1) % 36
  updAir s fun a => { a with bucket := i, buckets := a.buckets.map fun l => l.set i 0 }

/-- The bucket index is that of the RTC, every bucket it passes cleared (R403). -/
def bucketSync (s : State) : State :=
  let i := s.pwr.rtc / 100 % 36
  (List.range ((i + 36 - s.air.bucket) % 36)).foldl (fun s _ => bucketAdvance s) s

/-- A frame's airtime charged to the present bucket (R403). -/
def chargeFrame (f : AirFrame) (s : State) : State × AirFrame :=
  let s := bucketSync s
  ((chargeBucket f.sb s.air.bucket f.us s).bump pgAIR F.AIR_st_AIRTIME f.us, { f with bucket := some s.air.bucket })

/-- The state of R404 reported: 0 NORMAL, 1 LBT, 2 EXHAUSTED. -/
def accState (n : Nat) (s : State) : State :=
  let was := s.get pgAIR F.AIR_ACCSTAT_STATE
  (s.set pgAIR F.AIR_ACCSTAT_STATE n).evtIf (was = 0 ∧ n ≠ 0) pgAIR 1

/-- Whether AIR sends: RUN or TEST with no hold but BUDGET (R404, R408, R410). -/
def airMay (s : State) : Bool := 2 ≤ s.get pgAIR F.HDR_REQ_MODE && (holds s pgAIR).all (· = 10)

/-- Whether the node sends on the schedule: AIR sends, with the accounting restored (R407) and a bit rate. -/
def airSends (s : State) : Bool := airMay s && s.air.restored && (airValues s).get pgAIR F.AIR_PHY_BITRATE ≠ 0

/-- Every try of a frame has ended without a clear channel (R405). -/
def lbtGiveUp (s : State) : State :=
  ((updAir s fun a => { a with frame := none, waiting := a.waiting.filter (·.op < 3) }).bump pgAIR F.AIR_st_LBTBUSY).evt pgAIR 2

/-- The airtime of a frame with the zone programs now in force, in µs (R401). -/
def airTime (s : State) (reacq : Bool) : Rat := airUs s (airHead s reacq + 8 * (38 + 6 * airZones (airValues s)))

/-- Whether a try remains to make (R405): none beyond TRIES, and none whose frame would end after FS(F). -/
def lbtLeft (s : State) (f : AirFrame) : Bool :=
  let stamp := tryStamp s f
  let big := firstFn s (stamp + (airValues s).get pgAIR F.AIR_AHEAD * 65536000)
  let last := (stamp : Rat) + airUs s (8 * (38 + 6 * airZones (airValues s))) * 65536000
  f.k < s.get pgAIR F.AIR_CCA_TRIES f.sb && decide (last ≤ (fsOf s big : Rat))

/-- The present try has found the channel busy, or counts as busy (R405): the next try waits for its load instant. -/
def tryBusy (f : AirFrame) (s : State) : State :=
  if lbtLeft s { f with k := f.k + 1 } then
    updAir s fun a => { a with frame := some { f with busy := true }, waiting := a.waiting.filter (·.op < 3) }
  else lbtGiveUp s

/-- A frame whose TXLOAD, or whose CCA, does not end in time: it is cancelled (R401), or its try counts as busy (R405). -/
def notLoaded (f : AirFrame) (s : State) : State := if f.go then loadLate f s else tryBusy f s

/-- A frame's packets sent, or queued while the transceiver holds the bus: where they would end too late, the frame is not loaded. -/
def sendLoad (f : AirFrame) (l : List AirPkt) (s : State) : State :=
  let s := updAir s fun a => { a with frame := some f }
  if loadLimit s f < packetsEnd s (s.air.waiting ++ l) then notLoaded f s else sendAll l s

/-- The bus is the node's again (R393): the packets that waited go out, where a frame among them still ends in time. -/
def linkBack (s : State) : State :=
  let s := airDir true s
  let late := fun (f : AirFrame) => s.air.waiting.any (3 ≤ ·.op) && decide (loadLimit s f < packetsEnd s s.air.waiting)
  let s := match s.air.frame with
    | some f => if late f then notLoaded f s else s
    | none => s
  sendAll s.air.waiting (updAir s fun a => { a with waiting := [] })

/-- A try of a frame under listen-before-talk (R405): TXLOAD and CCA. -/
def lbtTry (f : AirFrame) (s : State) : State :=
  let f := { f with tgo := airTgo s (tryStamp s f) f.reacq, go := false, busy := false }
  if !lbtLeft s f then lbtGiveUp s
  else if f.tgo ≤ s.time.ft then loadLate f s
  else
    match buildFrame f (tryStamp s f) s with
    | (s, none) => loadLate f s
    | (s, some b) => sendLoad f [txloadPkt s f b, ccaPkt s f] s

/-- The frame of index `j` scheduled for FN `n`, as its load instant finds it (R399, R401). -/
def schedFrame (s : State) (n j : Nat) : AirFrame :=
  let reacq := airReacq s j
  let a := airTime s reacq
  { n := n, j := j, reacq := reacq, sb := s.get pgAIR F.AIR_CHAN_SB, us := wholeUs a, base := airStamp s n, tgo := airTgo s (airStamp s n) reacq,
    cad := s.get pgAIR F.AIR_SCHED_CADENCE, span := ((a + 1000) * 65536000).ceil.toNat }

/-- Whether a frame of airtime `a` is within its sub-band's budget (R402, R404); a DUTY of 1,000,000 sets no limit. -/
def withinBudget (s : State) (sb : Nat) (a : Rat) : Bool :=
  s.get pgAIR F.AIR_DUTY sb = 1000000 || decide ((airUsed s sb : Rat) + a ≤ airBudget s sb false)

/-- The load instant of the frame scheduled for FN `n` (R401, R404); before that instant nothing happens. -/
def loadInstant (n : Nat) (s : State) : State :=
  let s := bucketSync s
  match airIndex s n with
  | none => s
  | some j =>
    let f := schedFrame s n j
    let a := airTime s f.reacq
    if !airSends s ∨ !airReached s (loadAt s f) then s
    else if withinBudget s f.sb a then
      let s := accState 0 s
      if f.tgo ≤ s.time.ft then loadLate f s
      else
        match buildFrame f f.base s with
        | (s, none) => loadLate f s
        | (s, some b) =>
          let (s, f) := chargeFrame f s
          sendLoad { f with go := true } [txloadPkt s f b] s
    else if s.flag pgAIR F.AIR_LBT_LBTOK f.sb ∧ (airUsed s f.sb : Rat) + a ≤ airBudget s f.sb true then lbtTry f (accState 1 s)
    else
      let s := (accState 2 s).bump pgAIR F.AIR_st_DUTYSKIP
      refreshAir (updAir s fun a => { a with exhausted := true })

/-- The frame in hand dropped as AIR no longer sends (R408, R410); what was charged for it stands (R403). -/
def dropFrame (s : State) : State := updAir s fun a => { a with frame := none, waiting := a.waiting.filter (·.op < 3) }

/-- The next try of the frame in hand at its load instant (R405); where none remains, the frame is given up once T_go of the present one is past. -/
def nextTry (s : State) : State :=
  match s.air.frame with
  | none => s
  | some f =>
    let g := { f with k := f.k + 1 }
    let g := { g with tgo := airTgo s (tryStamp s g) g.reacq }
    if f.go then s
    else if !airMay s then dropFrame s
    else if !lbtLeft s g then (if airReached s f.tgo then lbtGiveUp s else s)
    else if airReached s (loadAt s g) then lbtTry g s
    else s

/-- A CCARES (R405): on a clear channel the node charges the frame and places AIR_TXGO, on a busy one the next try follows. -/
def ccaResult (busy : Bool) (s : State) : State :=
  let s := linkBack s
  match s.air.frame with
  | none => s
  | some f =>
    if f.go ∨ f.busy then s
    else if !airMay s then dropFrame s
    else if busy ∨ f.tgo ≤ s.time.ft then tryBusy f s
    else
      let (s, f) := chargeFrame f s
      updAir s fun a => { a with frame := some { f with go := true } }

/-- An instant of FT to the nearest 1/16 ns, as an edge placer takes it (R48). -/
def airEdge (t : Int) : Int := (t + 2048) / 4096

/-- The AIR_TXGO edge placed at T_go, low again 1 µs later (R396). Where AIR no longer sends, the frame does not go (R408, R410). -/
def txgo (s : State) : State :=
  match s.air.frame with
  | some f =>
    if !f.go then s
    else if !airMay s then dropFrame s
    else ((updAir s fun a => { a with frame := none, onAir := some f }).emit (.ballAt "AIR_TXGO" true (airEdge f.tgo))).emit
      (.ballAt "AIR_TXGO" false (airEdge f.tgo + 16000))
  | none => s

/-- A TXDONE (R395, R404, R409). -/
def txDone (status : Nat) (s : State) : State :=
  if !linkOn s ∧ !s.air.fault then s
  else
    let s := (linkAnswered (linkBack s)).evt pgAIR 0
    let s := match s.air.onAir with
      | some f =>
        if status = 0 then
          let s := (s.bump pgAIR F.AIR_st_SENT).bump pgAIR F.AIR_st_REACQSENT f.reacq.toNat
          refreshAir (updAir s fun a => { a with exhausted := false })
        else s
      | none => s
    updAir s fun a => { a with onAir := none }

/-- No TXDONE has come within the airtime and 1 ms of T_go, or no RDATA in time (R409). -/
def linkTimeout (rdata : Bool) (s : State) : State :=
  if rdata then (if linkOn s then linkFailed s else s)
  else match s.air.onAir with
    | some f => if linkOn s ∧ airReached s (f.tgo + f.span) then linkFailed (updAir s fun a => { a with onAir := none }) else s
    | none => s

/-- An RXFRAME (R395, R413). -/
def rxFrame (rssi : Byte) (b : List Byte) (s : State) : State :=
  if !linkOn s then s
  else
    let s := linkBack s
    let s := updAir s fun a => { a with heard := (leBytes 4 a.rxsof.toNat ++ [rssi] ++ b).take 256 }
    (s.bump pgAIR F.AIR_st_RXFRAMES).evt pgAIR 6

/-! ### Accounting records (R406, R407) -/

/-- The accounting record (R406). -/
def accRecord (s : State) : List Byte :=
  sealRecord (beBytes 4 0x435A4152 ++ leBytes 4 s.air.rseq ++ leBytes 6 s.pwr.rtc ++ [0, 0] ++
    (s.air.buckets.flatMap fun l => l.flatMap (leBytes 4 ·)))

/-- An accounting record written, the copies in turn (R406). -/
def writeAccounting (s : State) : State :=
  let b := accRecord s
  let s := internalProg (recordPlace 0 s.air.copyB) b s
  { updAir s (fun a => { a with rseq := (a.rseq + 1) % 2 ^ 32, copyB := !a.copyB, recTen := s.pwr.rtc / 10 }) with pwr := { s.pwr with rtcFresh := false } }

/-- The record of every 10 s of the RTC (R406), once the accounting is restored; one follows in each ten seconds. -/
def recordDue (s : State) : State := if s.air.restored ∧ s.pwr.rtc / 10 ≠ s.air.recTen then writeAccounting s else s

/-- Buckets with one second of full use of a sub-band charged at an RTC second, those passed since cleared. -/
def useSecond (sb : Nat) (s : State) (t : Nat) : State :=
  let i := t / 100 % 36
  let s := if s.air.bucket = i then s else bucketAdvance s
  chargeBucket sb i 1000000 s

/-- Buckets aged from one RTC value to another (R403). -/
def ageBuckets (t₀ t₁ : Nat) (s : State) : State :=
  (List.range (min 36 (t₁ / 100 - t₀ / 100))).foldl (fun s _ => bucketAdvance s) s

/-- A valid record's buckets loaded, aged and charged (R407). With an E of 0 no bucket ages, and the 10 s fall in the buckets that the record's RTC
names. The record does not name the sub-band in use when it was written; the one in force is charged (DEDUCED, notes/assumptions/49.md). -/
def loadAccounting (b : List Byte) (copyB : Bool) (s : State) : State :=
  let rtc := leVal (slice b 8 6)
  let now := s.pwr.rtc
  let sb := s.get pgAIR F.AIR_CHAN_SB
  let bk := (List.range 8).map fun k => (List.range 36).map fun i => leVal (slice b (16 + 144 * k + 4 * i) 4)
  let s := updAir s fun a => { a with buckets := bk, bucket := rtc / 100 % 36, rseq := (leVal (slice b 4 4) + 1) % 2 ^ 32, copyB := !copyB }
  let s :=
    if s.pwr.rtcFresh ∨ now ≤ rtc then (List.range 10).foldl (fun s k => chargeBucket sb ((rtc + k) / 100 % 36) 1000000 s) s
    else
      let c := min 10 (now - rtc)
      ageBuckets (rtc + c - 1) now ((List.range c).foldl (fun s k => useSecond sb s (rtc + k)) s)
  updAir s fun a => { a with bucket := now / 100 % 36 }

/-- The restore of R407. -/
def restoreAccounting (s : State) : State :=
  let (s, a, b) := readCopies 0 1172 (updAir s fun a => { a with restored := true, recTen := s.pwr.rtc / 10 })
  let magic : Option (List Byte) → Bool := fun x => match x with | some l => decide (beVal (slice l 0 4) = 0x435A4152) | none => true
  let s := match newerCopy 0x435A4152 1172 a b with
    | some (r, copyB) => (loadAccounting r copyB s).set pgAIR F.AIR_RECSTAT_SRC 1
    | none =>
      let i := s.pwr.rtc / 100 % 36
      let s := updAir s fun x => { x with buckets := List.replicate 8 (List.replicate 36 0), bucket := i }
      if magic a || magic b then
        ((List.range 8).foldl (fun s k => chargeBucket k i (airBudget s k false) s) s).set pgAIR F.AIR_RECSTAT_SRC 2
      else s.set pgAIR F.AIR_RECSTAT_SRC 0
  s.evt pgAIR 5

/-- The restore, once after each reset (R407). -/
def restoreOnce (s : State) : State := if s.air.restored then s else restoreAccounting s

/-- Of the FNs that the schedule names, the first whose stamp is not past (R399). -/
def nextFn (s : State) : Option Nat :=
  let c := max 1 (s.get pgAIR F.AIR_SCHED_CADENCE)
  let n₀ := fnOf s (s.time.ft - s.get pgAIR F.AIR_TXOFF * 65536000)
  ((List.range (c + 2)).find? fun i => (n₀ + i) % c = s.get pgAIR F.AIR_SCHED_PHASE && s.time.ft < airStamp s (n₀ + i)).map (n₀ + ·)

/-- The stamp of the next scheduled frame, as ST (R412); 0 while AIR sends nothing. -/
def nextStamp (s : State) : Word := if airSends s then ((nextFn s).map fun n => BitVec.ofNat 32 (airStamp s n / 65536)).getD 0 else 0

/-- A word of the AIR table window (R413). -/
def airWindow (s : State) (off : Nat) : Word :=
  if 0xE00 ≤ off ∧ off < 0xE90 then
    BitVec.ofNat 32 ((s.air.buckets.getD (s.get pgAIR F.AIR_BKSEL_SB) []).getD ((off - 0xE00) / 4) 0)
  else if 0xF00 ≤ off then BitVec.ofNat 32 (leVal (slice s.air.heard (off - 0xF00) 4))
  else s.reg pgAIR off

/-! ### Requests at the frame store's arbiters (R427, R431, R503) -/

/-- What follows a request whose own deadline is past before it is first offered (R503): the tile of a publisher is dropped, the frame of the
crowd radio is cancelled; the other ports' chapters treat the request as missed at the work that it was for. -/
def missedOffer (p : Nat) (s : State) : State :=
  if p = 9 then (s.bump pgFAB F.FAB_st_TILEDROP).evt pgFAB 9
  else if p = 15 then (match s.air.frame with | some f => loadLate f s | none => s)
  else s

/-- The load instant of the next scheduled frame, for which its zone table is read, as ST (R401, R427). -/
def airDue (s : State) : Option Word :=
  (nextFn s).bind fun n => (airIndex s n).map fun j => BitVec.ofInt 32 (loadAt s (schedFrame s n j) / 65536)

/-- The deadline of its own that a request has (R427): of those that feed preparation, of a tile publisher's reads the next FS, of the crowd radio's the
load instant. -/
def portDeadline (s : State) (p : Nat) (read : Bool) (tag : Nat) : Option Word :=
  if p = 9 ∧ read ∧ tag < 16 then some (BitVec.ofNat 32 (fsOf s (s.time.fn + 1) / 65536))
  else if p = 15 then airDue s
  else ownDeadline s p

/-- A port offers a request: with its own deadline past it presents none (R503). -/
def arbOffer (i p off len : Nat) (data : Option (List Byte)) (dl : Option Word) (tag : Nat) (s : State) : State :=
  if !portBusy s i p && dl.any fun d => stPast d s.st then missedOffer p s else arbRequest i p off len data dl tag s

/-! ### Meanings -/

/-- ARBITER_REQUEST (R431): a burst goes to the arbiter of its channel (R415), which in a well-formed command is the one that it names. -/
def execArbiterRequest (arb : Fin 2) (port : Fin 24) (off : BitVec 27) (len : Fin 65) (data : Option (List Byte))
    (deadline : Option Word) (tag : Nat) (s : State) :=
  act (fun s => let _ := arb
                arbOffer (chanOf off.toNat) port off.toNat len data (deadline.or (portDeadline s port data.isNone tag)) tag s) s

/-- AIR_IRQ (R393): the transceiver holds a packet; the node, with none of its own to send, lets go of the bus. -/
def execAirIrq (s : State) := act (fun s => if linkOn s ∧ s.air.waiting = [] then airDir false s else s) s
/-- TXDONE (R395). -/
def execTxdone (status : Byte) (s : State) := act (txDone status.toNat) s
/-- CCARES (R405): 0 clear, 1 busy. -/
def execCcares (busy : Bool) (rssi : Byte) (s : State) :=
  act (fun s => let _ := rssi; if linkOn s then ccaResult busy s else s) s
/-- RXFRAME (R395). -/
def execRxframe (rssi : Byte) (data : List Byte) (s : State) := act (rxFrame rssi data) s
/-- RDATA (R395, R409). -/
def execRdata (data : List Byte) (s : State) := act (fun s => let _ := data; if linkOn s ∨ s.air.fault then linkAnswered (linkBack s) else s) s
/-- AIR_RXSOF (R396): the edge's ST. -/
def execAirRxsof (s : State) := act (fun s => if linkOn s then updAir s fun a => { a with rxsof := s.st } else s) s
/-- LINK_PACKET_CRC_ERROR (R394). -/
def execLinkPacketCrcError (s : State) :=
  act (fun s => if !linkOn s then s else (((linkBack s).bump pgAIR F.AIR_st_LINKERR).fault pgAIR 0x41 0x040 0)) s
/-- CROWD_LOAD_INSTANT (R401) of the frame scheduled for FN `n`. -/
def execCrowdLoadInstant (n : BitVec 48) (s : State) := act (loadInstant n.toNat) s
/-- LOADLATE (R401, R405): what loads the frame in hand has not ended in time. -/
def execLoadlate (s : State) := act (fun s => match s.air.frame with | some f => notLoaded f s | none => s) s
/-- CROWD_TXGO (R396). -/
def execCrowdTxgo (s : State) := act txgo s
/-- LBT_TRY (R405). -/
def execLbtTry (s : State) := act nextTry s
/-- BUCKET_ADVANCE (R403). -/
def execBucketAdvance (s : State) := act bucketSync s
/-- ACCOUNTING_RECORD_WRITE (R406). -/
def execAccountingRecordWrite (s : State) := act recordDue s
/-- ACCOUNTING_RESTORE (R407). -/
def execAccountingRestore (s : State) := act restoreOnce s
/-- LINK_TIMEOUT (R409): no TXDONE, or no RDATA, in time. -/
def execLinkTimeout (rdata : Bool) (s : State) := act (linkTimeout rdata) s
/-- REGISTER_LIST_RESEND (R409): once every second while AIR holds FAULT. -/
def execRegisterListResend (s : State) := act (fun s => if s.air.fault then sendList s else s) s
/-- REGISTER_LIST_WRITE (R410): the list of a mode that AIR has entered, where it has not gone out with the entry. -/
def execRegisterListWrite (s : State) := act airEntered s

end Sys2Proof.Machine
end

