-- ==== Sys2Proof/Machine/Power.lean ====
section
/-!
DEFINITION. Power (R511 to R528): domains, the four device states, wake sources and rails, PMBus, thermal limits
and service life, with what a reset of SYS keeps.
-/
namespace Sys2Proof.Machine
open Sys2Proof

/-- The power state changed. -/
def updPwr (s : State) (f : PwrState → PwrState) : State := { s with pwr := f s.pwr }
/-- The start's state changed. -/
def updBoot (s : State) (f : BootState → BootState) : State := { s with boot := f s.boot }

/-! ### MRAM programs that end or break off (R425) -/

/-- Power lost during a program (R425): each of its codewords holds its old data, its new data or an uncorrectable pattern. -/
def progBroken (s : State) : State :=
  match s.mm.prog with
  | none => s
  | some p =>
    let s := p.words.foldl (fun s c =>
      let (s, r) := s.free
      let a := max p.off (c * 32)
      let n := min (p.off + p.data.length) (c * 32 + 32) - a
      if r.toNat % 3 = 1 then
        { s with mem := memPutAll s.mem (mramBase + a) (slice p.data (a - p.off) n), mm := { s.mm with mramErr := amDel s.mm.mramErr c } }
      else if r.toNat % 3 = 2 then { s with mm := { s.mm with mramErr := amSet s.mm.mramErr c 4 } }
      else s) s
    { s with mm := { s.mm with prog := none, progQ := [] } }.set pgNVM F.NVM_STAT_BUSY 0

/-! ### Domains (R511, R512) -/

/-- The domains that a domain needs, AON, SYS and VCORE apart (R511). -/
def domNeeds (d : Nat) : List Nat :=
  match d with
  | 6 | 12 | 13 => [8]
  | 7 => [6]
  | _ => []

/-- The domains that need a domain, the last of the table first (R512). -/
def domUsers (d : Nat) : List Nat := if d = 8 then [13, 12, 7, 6] else if d = 6 then [7] else []

/-- DIM keeps the pixel domains off (R515). -/
def dimHolds (s : State) : Bool :=
  match s.pwr.dim with
  | .entering _ | .dim => true
  | _ => false

/-- The device state permits a domain (R511). -/
def statePermits (s : State) (d : Nat) : Bool :=
  match devState s with
  | 0 | 1 => !((d = 6 || d = 7) && dimHolds s)
  | 2 => d = 10 && s.get pgPMU F.PMU_WAKEEN_EN / 4 % 2 = 1
  | _ => false

/-- A domain is wanted on (R511). -/
def domWant (s : State) (d : Nat) : Bool :=
  d ≤ 1 || (s.pwr.req / 2 ^ d % 2 = 1 && statePermits s d && !((d = 6 || d = 7) && s.flag pgPMU F.PMU_THERM_CRIT) &&
    (domNeeds d).all (domainOn s))

/-- Domains follow requests: after handover, outside SERVICE WAIT. -/
def domFree (s : State) : Bool := s.boot.handed && !s.boot.svcWait

/-- A change of a domain is in progress (R512). -/
def domChanging (s : State) : Bool := domFree s && (List.range 16).any fun d => domWant s d != domainOn s d

/-- The arbiter ports of a domain (R427). -/
def domPorts (d : Nat) : List Nat :=
  match d with
  | 2 | 3 | 4 | 5 => [16 + d]
  | 6 => [2, 4, 5, 6, 7]
  | 7 => [3]
  | 10 => [8, 11, 12, 13]
  | 11 => [9, 10]
  | 12 => [0]
  | 13 => [1]
  | 14 => [14]
  | 15 => [15]
  | _ => []

/-- A port's mask at both arbiters. -/
def maskBoth (p : Nat) (on : Bool) (s : State) : State := maskPort 1 p on (maskPort 0 p on s)

/-- The mask of a core's arbiter port (R435, R473): on while its domain is off or the core is in RESET or SLEEP. -/
def coreMask (c : Nat) (s : State) : State :=
  let m := (s.core c).mode
  maskBoth (18 + c) (!domainOn s (2 + c) || m = .reset || m = .sleep) s

/-- Port 22's mask: on while both output domains are off (R435). -/
def maskRecords (s : State) : State := maskBoth 22 (!domainOn s 12 && !domainOn s 13) s

/-- The ports of every domain that is off masked (R435). -/
def maskOff (s : State) : State :=
  maskRecords ((List.range 16).foldl (fun s d => if domainOn s d then s else (domPorts d).foldl (fun s p => maskBoth p true s) s) s)

/-- DOMEFF with a domain's bit changed. -/
def domSet (d : Nat) (on : Bool) (s : State) : State :=
  let v := s.get pgPMU F.PMU_DOMEFF_ON
  s.set pgPMU F.PMU_DOMEFF_ON (if on then v ||| 2 ^ d else v - (v &&& 2 ^ d))

/-- The strands in flight on colour lanes 2 and 3 when PIXB goes off during a preparation are spoiled; which of them were is open (R27). -/
def lanesLost (s : State) : State :=
  if !s.outs.preparing then s
  else
    (List.range 64).foldl (fun s p =>
      let k := strand s p
      if takesFrames s p ∧ !k.prep.contains s.time.seq ∧ k.pos < s.get pgMAP F.MAP_SEG_COUNT p then
        let (s, r) := s.free
        if r.toNat % 2 = 1 then updStrand s p fun k => { k with spoiled := true } else s
      else s) s

/-- The AIR balls as the domain turns (R411): driven at the levels of an idle link, or high-impedance. -/
def airBalls (on : Bool) (s : State) : State :=
  if on then airIdle s else ["AIR_CLK", "AIR_D0", "AIR_D1", "AIR_D2", "AIR_D3", "AIR_DIR", "AIR_TXGO"].foldl (fun s n => s.emit (.ballFloat n)) s

/-- What a domain's blocks lose as it goes off (R511, R73): everything but their registers. -/
def domLost (d : Nat) (s : State) : State :=
  match d with
  | 2 | 3 | 4 | 5 =>
    let s := coreReset (d - 2) s
    let s := if s.cmt.owner = d - 1 then setOwner 0 s else s
    s.updCore (d - 2) fun _ => {}
  | 6 =>
    -- R27: what is in preparation is lost; R149: the state applied last stands
    let s := updPwr s fun p => { p with prepCut := p.prepCut || s.outs.preparing }
    let spoil := fun (k : Strand) => if k.prep.contains s.time.seq then k else { k with spoiled := true }
    { s with outs := { s.outs with preparing := false, strands := s.outs.strands.map spoil },
             vens := s.vens.map fun v => { v with missed := false }, col := { s.col with swept := none, cache := [] } }
  | 7 => lanesLost (updPwr s fun p => { p with prepCut := p.prepCut || s.outs.preparing })
  | 8 =>
    if s.pwr.selfRef then s
    else
      let s := { s with vens := s.vens.map fun (v : Ven) => { window := v.window }, col := {} }
      let s := { s with mem := s.mem.filter fun c => c.1 < fsBase,
                        mm := { s.mm with ecc := s.mm.ecc.filter fun e => e.1 < fsBase / 8, scrub := 0, arb := [{}, {}], conf := [] } }
      (s.set pgFS F.FS_TRAIN_DONE 0).set pgFS F.FS_TRAIN_PASS 0
  | 9 => progBroken s
  | 10 =>
    let s := linkDown 1 (linkDown 0 s)
    let s := if s.cmt.owner = 5 then setOwner 0 s else s
    { s with net := { cane := { keys := s.net.cane.keys } },
             vens := s.vens.map fun v => { v with units := v.units.filter (·.src = 3), snap := [], lost := false, ends := [] } }
  | 11 =>
    let s := (List.range 4).foldl (fun s b => if (bruOf s b).up then portDown b s else s) s
    discEval { s with bru := List.replicate 4 {}, vens := s.vens.map fun v => { v with units := v.units.filter (·.src ≠ 3) },
                      fab := { lastMember := s.fab.lastMember, record := s.fab.record, table := s.fab.table } }
  | 12 | 13 =>
    let half := fun (p : Nat) => if d = 12 then p < 32 else 32 ≤ p
    let s := (List.range 144).foldl (fun s i =>
      if (if i < 128 then half (i / 2) else half ((i - 128) * 4)) then floatPin i (clearPin i s) else s) s
    let s := (List.range 64).foldl (fun s p => if half p then rdmDrop p true s else s) s
    let kept := fun (k : Strand) => { ({} : Strand) with rdmReq := k.rdmReq, rdmResp := k.rdmResp, back := k.back, backFt := k.backFt }
    { s with outs := { s.outs with strands := s.outs.strands.zipIdx.map fun (k, p) => if half p then kept k else k } }
  | 14 => firstUse { s with snd := {} }
  | 15 => airBalls false { s with air := { s.air with fails := 0, frame := none, onAir := none, dirOut := true, waiting := [], listFor := 0 } }
  | _ => s

/-- One domain goes off: its ports are masked, then its power goes (R512). -/
def domOff1 (d : Nat) (s : State) : State :=
  if !domainOn s d then s
  else
    let s := (domPorts d).foldl (fun s p => maskBoth p true s) s
    let s := domSet d false (domLost d s)
    -- the counts of a page that is off are lost with its blocks (R85)
    maskRecords { s with ctr := s.ctr.filter fun (k, _) => pageDomainOn s (k / 32 / 4096) }

/-- A domain goes off, those that need it first (R512). -/
def domOff (d : Nat) (s : State) : State :=
  let s := domOff1 d ((domUsers d).foldl (fun s u => domOff1 u s) s)
  enableEval (settleAll (pairOff (refreshAll s)))

/-- A domain has powered: its ports are unmasked and its blocks leave reset (R512). -/
def domOn (d : Nat) (s : State) : State :=
  if domainOn s d then s
  else
    let s := domSet d true s
    let s := maskRecords ((domPorts d).foldl (fun s p => maskBoth p false s) s)
    let s := if d = 8 then updPwr s fun p => { p with selfRef := false } else s
    let s := if 2 ≤ d ∧ d ≤ 5 then coreMask (d - 2) (coreMode (d - 2) s) else s
    let s := if 12 ≤ d ∧ d ≤ 13 then (List.range 64).foldl (fun s p => if outDomain p = d then takeUp p s else s) s else s
    let s := if d = 15 then airBalls true s else s
    let s := if (d = 6 ∨ d = 7) ∧ domainOn s 6 ∧ domainOn s 7 then updPwr s fun p => { p with pixOnAt := some s.time.ft } else s
    settleAll (refreshAll (discEval s))

/-- A write of DOMREQ that waited takes effect once no change is in progress (R512). -/
def domSettle (s : State) : State :=
  match s.pwr.reqLater with
  | some v => if domChanging s then s else updPwr s fun p => { p with req := v, reqLater := none }
  | none => s

/-- A write of DOMREQ (R512); bits 0 and 1 read 1. -/
def domReq (v : Word) (s : State) : State :=
  let v := bitsOf v 0 16 ||| 3
  let s := s.set pgPMU F.PMU_DOMREQ_REQ v
  if domChanging s then updPwr s fun p => { p with reqLater := some v } else updPwr s fun p => { p with req := v, reqLater := none }

/-- DOMAIN_ON_DONE. -/
def domOnDone (d : Nat) (s : State) : State := if domFree s ∧ domWant s d ∧ !domainOn s d then domSettle (domOn d s) else s

/-- DOMAIN_OFF_DONE. -/
def domOffDone (d : Nat) (s : State) : State := if domFree s ∧ !domWant s d ∧ domainOn s d then domSettle (domOff d s) else s

/-! ### Lifetime record (R525, R526) -/

/-- The present counts in the layout of the record's bytes 8 to 51. -/
def lifeBody (s : State) : List Byte :=
  (s.pwr.bins.flatMap (leBytes 4 ·)) ++ leBytes 4 s.pwr.colds ++ leBytes 4 s.pwr.warms ++ leBytes 2 s.pwr.maxTj ++ leBytes 2 s.pwr.trips

/-- A lifetime record written, the copies in turn (R526). -/
def writeLifetime (s : State) : State :=
  let b := sealRecord (beBytes 4 0x435A4C46 ++ leBytes 4 s.pwr.lifeSeq ++ lifeBody s ++ List.replicate 8 0)
  updPwr (internalProg (recordPlace 1 s.pwr.lifeB) b s) fun p => { p with lifeSeq := (p.lifeSeq + 1) % 2 ^ 32, lifeB := !p.lifeB }

/-- LIFEUSED from the bins (R525). -/
def lifeUsed (s : State) : State :=
  let w := [1, 1, 1, 1, 1, 2, 4, 16]
  let n := (s.pwr.bins.zip w).foldl (fun a (b, w) => a + b * w) 0
  s.set pgPMU F.PMU_LIFESTAT_LIFEUSED (min (2 ^ 20 - 1) (openRound 525 ((n : Rat) * 1000000 / (40 * 31557600))).toNat)

/-- The lifetime counters loaded at a start (R526). -/
def loadLifetime (s : State) : State :=
  let (s, a, b) := readCopies 1 64 s
  match newerCopy 0x435A4C46 64 a b with
  | some (r, copyB) =>
    lifeUsed (updPwr s fun p =>
      { p with bins := (List.range 8).map (fun i => leVal (slice r (8 + 4 * i) 4)), colds := leVal (slice r 40 4), warms := leVal (slice r 44 4),
               maxTj := leVal (slice r 48 2), trips := leVal (slice r 50 2), lifeSeq := (leVal (slice r 4 4) + 1) % 2 ^ 32, lifeB := !copyB })
  | none =>
    (updPwr s fun p => { p with bins := List.replicate 8 0, colds := 0, warms := 0, maxTj := 0, trips := 0, lifeSeq := 0, lifeB := false }).set
      pgPMU F.PMU_LIFESTAT_LOST 1

/-- The highest die temperature kept, for the record and for the latched statistic (R526, R528). -/
def trackTj (s : State) : State :=
  let t := s.get pgADC F.ADC_DIETEMP_TEMP
  let higher := fun (old : Nat) => Fl.lt (ofHalf old) (ofHalf t)
  let s := if higher s.pwr.maxTj then updPwr s fun p => { p with maxTj := t } else s
  if (amGet s.ctr (State.statKey pgPMU F.PMU_st_MAXTJ 0)).isNone || higher (s.stat pgPMU F.PMU_st_MAXTJ) then s.setStat pgPMU F.PMU_st_MAXTJ t else s

/-- The bin of a temperature (R525). -/
def lifeBin (t : Fl) : Nat := ([40, 60, 75, 85, 90, 95, 105].filter fun (b : Rat) => !Fl.lt t (.fin b)).length

/-- LIFE_COUNT (R525): one second more, while SYS is on. -/
def lifeCount (s : State) : State :=
  if !timeRuns s then s
  else lifeUsed (trackTj (updPwr s fun p => { p with bins := updAt p.bins (lifeBin (dieTemp s)) fun n => min 0xFFFFFFFF (n + 1) }))

/-! ### Resets and the start that follows (R529) -/

/-- A register that AON holds (R527, R556). -/
def aonReg (k : Nat) : Bool :=
  k / 4096 = pgPMU && (k % 4096 = 0x048 || k % 4096 = 0x04C || k % 4096 = 0x050 || k % 4096 = 0x054 || k % 4096 = 0x068) ||
  k = regKey pgBOOT 0x070

/-- Every driven pin and ball released (R184, R411, R554): PPS_OUT where it was driven (R58), and the AIR balls. -/
def pinsReleased (s : State) : State :=
  let s := (List.range 144).foldl (fun s i => floatPin i s) s
  let s := if s.boot.outEn && s.flag pgTIME F.TIME_PPSOUT_EN then s.emit (.ballFloat "PPS_OUT") else s
  if domainOn s 15 then airBalls false s else s

/-- SYS and every domain above it reset: what AON, the fuses, the MRAM, the test port and, where they are kept, the SRAM and the frame store
hold stays (R420, R511, R529). -/
def sysReset (keepSram keepFs : Bool) (s : State) : State :=
  let s := pinsReleased (progBroken s)
  let keep := fun (a : Nat) => a < sramBase || (mramBase ≤ a && a < fsBase) || (keepSram && a < mramBase) || (keepFs && fsBase ≤ a)
  { State.reset with
    regs := s.regs.filter fun r => aonReg r.1,
    mem := s.mem.filter fun c => keep c.1,
    mm := { ecc := s.mm.ecc.filter (fun e => keep (e.1 * 8)), mramErr := s.mm.mramErr },
    fab := { lastMember := s.fab.lastMember, record := s.fab.record },
    pwr := { aonHold := s.pwr.aonHold, aonFt := s.pwr.aonFt, aonRtc := s.pwr.aonRtc, rtc := s.pwr.rtc, rtcNs := s.pwr.rtcNs, rtcFresh := s.pwr.rtcFresh,
             en := s.pwr.en, raising := s.pwr.raising, retry := s.pwr.retry, riseCause := s.pwr.riseCause, tripped := s.pwr.tripped, lateWake := s.pwr.lateWake,
             selfRef := keepFs },
    boot := { due := none, resetLow := s.boot.resetLow, railOut := s.boot.railOut, revoked := s.boot.revoked },
    svc := { lineLow := s.svc.lineLow },
    tap := if s.tap.status = 2 then { s.tap with status := 1 } else s.tap, freeCtr := s.freeCtr, out := s.out, pending := s.pending }

/-- FT, the RTC and the holdover frequency kept by AON for a warm start (R44, R516). -/
def aonStore (s : State) : State := updPwr s fun p => { p with aonFt := s.time.ft, aonRtc := p.rtc }

/-- The frame store holds its contents with its training kept (R529). -/
def fsTrained (s : State) : Bool := s.pwr.selfRef || (domainOn s 8 && s.flag pgFS F.FS_TRAIN_DONE && s.flag pgFS F.FS_TRAIN_PASS)

/-- A start asked for (R529): everything but AON resets, and the start is due. Before a warm start the frame store goes into self-refresh. -/
def requestStart (cold : Bool) (cause : Nat) (s : State) : State :=
  let kept := !cold && fsTrained s
  let s := if cold ∨ devState s = 2 then s else aonStore s
  let s := sysReset (!cold) kept s
  updBoot s fun b => { b with due := some (cold, cause), fsKept := kept }

/-! ### DIM (R515) -/

/-- The end of a change of state (R514, R528). -/
def stateEnds (n : Nat) (s : State) : State :=
  refreshAll (((s.set pgPMU F.PMU_STATE n).set pgPMU F.PMU_STATE_TRANS 0).evt pgPMU 0)

/-- DIM asked for. -/
def dimAsk (s : State) : State := (updPwr s fun p => { p with dim := .asked }).set pgPMU F.PMU_STATE_TRANS 1

/-- DIM left by a request or a wake. -/
def dimLeave (s : State) : State :=
  (updPwr s fun p => { p with dim := .leaving, pixOnAt := if domainOn s 6 ∧ domainOn s 7 then some s.time.ft else none }).set pgPMU F.PMU_STATE_TRANS 1

/-- Both pixel domains stay off whatever DIM does: requests, the critical hold (R523). -/
def pixStayOff (s : State) : Bool := !(domWant s 6) || (domainOn s 6 && !domWant s 7)

/-- What DIM does at FS(n), before the frame is taken (R515): its entry, or the frame M at which it ends. -/
def dimAtFs (n : Nat) (s : State) : State :=
  match s.pwr.dim with
  | .asked =>
    let s := updPwr s fun p => { p with dim := .entering n, pagesAsleep := true }
    domOff 6 (domOff 7 (writeAccounting s))
  | .leaving =>
    let ready : Bool := match s.pwr.pixOnAt with
      | some t => decide (t + 6553600000 ≤ s.time.ft)
      | none => pixStayOff s
    if ready then refreshAll (updPwr s fun p => { p with dim := .resuming n, pagesAsleep := false }) else s
  | _ => s

/-! ### Wake, sleep and rails (R514 to R518) -/

/-- The wake sources that WAKEEN enables in the present state (R517). -/
def wakeMask (s : State) : Nat :=
  let en := s.get pgPMU F.PMU_WAKEEN_EN
  match devState s with
  | 1 | 2 => en
  | 3 => en &&& 3
  | _ => 0

/-- WAKECAUSE at a wake: the sources active; POWERON is over, and THERMTRIP stays after a trip. -/
def wakeCause (src : Nat) (s : State) : State :=
  let src := src ||| (if s.svc.lineLow then 8 else 0)
  (((s.set pgPMU F.PMU_WAKECAUSE_SOURCE src).set pgPMU F.PMU_WAKECAUSE_POWERON 0).set pgPMU F.PMU_WAKECAUSE_THERMTRIP s.pwr.tripped.toNat)

/-- An entry into DIM, RETENTION SLEEP or DORMANT is under way (R514). -/
def goingDown (s : State) : Bool :=
  (s.pwr.raising = some false && !s.pwr.retry) || s.pwr.down.isSome || match s.pwr.dim with
    | .asked | .entering _ => true
    | _ => false

/-- A wake source becomes active (R514, R517): it wakes the device, or, during an entry, once the entry completes. -/
def wake (src : Nat) (s : State) : State :=
  if goingDown s then updPwr s fun p => { p with lateWake := p.lateWake ||| src }
  else if s.flag pgPMU F.PMU_STATE_TRANS ∨ wakeMask s &&& src = 0 then s
  else
    let s := wakeCause src s
    match devState s with
    | 1 => dimLeave s
    | 2 => requestStart false 4 s
    | 3 => if s.pwr.raising.isSome then s else updPwr s fun p => { p with raising := some true, riseCause := 5, tripped := false }
    | _ => s

/-- Sources that arrived during an entry wake at its end (R514). -/
def wakeLate (s : State) : State :=
  if s.pwr.lateWake = 0 then s else wake s.pwr.lateWake (updPwr s fun p => { p with lateWake := 0 })

/-- What DIM does at latch(n) of a group, once the latch has been made (R515): ports take SLEEP at latch(N−1) and leave it at latch(M−1); the states
end with the last group. -/
def dimAtLatch (g n : Nat) (s : State) : State :=
  match s.pwr.dim with
  | .entering m =>
    if n + 1 < m then s
    else
      let s := updPwr s fun p => { p with groupsAsleep := p.groupsAsleep.set g true }
      if s.pwr.groupsAsleep.all id then wakeLate (stateEnds 1 (updPwr s fun p => { p with dim := .dim })) else s
  | .resuming m =>
    if n + 1 < m then s
    else
      let s := updPwr s fun p => { p with groupsAsleep := p.groupsAsleep.set g false }
      if m ≤ n then stateEnds 0 (updPwr s fun p => { p with dim := .awake, groupsAsleep := List.replicate 16 false }) else s
  | _ => s

/-- The records and values written before a sleep (R516, steps 2 and 3); before the accounting is restored there is none to record (R407). -/
def sleepRecords (s : State) : State := aonStore (progsEnd (writeLifetime (if s.air.restored then writeAccounting (progsEnd s) else progsEnd s)))

/-- RETENTION SLEEP entered (R516). -/
def retention (s : State) : State :=
  let s := sleepRecords s
  let s := updPwr s fun p => { p with selfRef := domainOn s 8 ∧ s.flag pgFS F.FS_TRAIN_DONE, dim := .awake, pagesAsleep := false,
                                      groupsAsleep := List.replicate 16 false, down := none, lanesStopped := false }
  let lan := domainOn s 10 && s.get pgPMU F.PMU_WAKEEN_EN / 4 % 2 = 1
  let s := [15, 14, 13, 12, 11, 9, 7, 6, 8, 5, 4, 3, 2].foldl (fun s d => domOff1 d s) s
  let s := if lan then linkDown 1 s else domOff1 10 s
  let s := stateEnds 2 s
  wakeLate (settleAll s)

/-- DORMANT entered by request (R518): records, then every domain but AON goes off and the rails drop in turn. -/
def dormant (s : State) : State :=
  let s := sleepRecords s
  let s := sysReset false false s
  updPwr (s.set pgPMU F.PMU_STATE 3) fun p => { p with raising := some false, retry := false }

/-- A port whose REQ.MODE is OFF has a dark-out to make before its pins are released (R185, R516). -/
def darkLeft (s : State) : Bool :=
  (List.range 64).any fun p =>
    let k := strand s p
    s.get (pgSTD p) F.HDR_REQ_MODE = 0 && portDriven s p && inRun s pgEDGE && k.kind ≠ 7 &&
      (k.dark ≠ .none || (2 ≤ k.mode && effMode s (pgSTD p) = k.mode))

/-- The steps of R516 that follow the first, once the lanes have stopped and no dark-out is left to make. -/
def sleepGo (s : State) : State :=
  if !s.pwr.lanesStopped ∨ darkLeft s then s
  else match s.pwr.down with
    | some 2 => retention s
    | some _ => dormant s
    | none => s

/-- RETENTION SLEEP or DORMANT asked for (R516, R518): its entry begins with the next FS, and at once before output enable, when no frame starts. -/
def sleepAsk (n : Nat) (s : State) : State :=
  let s := (updPwr s fun p => { p with down := some n }).set pgPMU F.PMU_STATE_TRANS 1
  if s.boot.outEn then s else sleepGo (updPwr s fun p => { p with lanesStopped := true })

/-- The colour lanes stop at the first FS after the request (R516): frame N is not begun. -/
def sleepAtFs (s : State) : State :=
  if s.pwr.down.isNone then s
  else { updPwr s fun p => { p with lanesStopped := true } with outs := { s.outs with preparing := false } }

/-- A write of STATECTL (R514). -/
def stateCtl (a : Nat) (v : Word) (s : State) : State :=
  let n := bitsOf v 0 2
  let en := s.get pgPMU F.PMU_WAKEEN_EN
  if s.flag pgPMU F.PMU_STATE_TRANS then s.fault pgPMU 0x40 0x040 a
  else if n = devState s then s
  else match n with
    | 0 => dimLeave s
    | 1 => if devState s = 0 then dimAsk s else s
    | 2 =>
      if en = 0 then s.fault pgPMU 0x41 0x040 a
      else if en / 4 % 2 = 1 ∧ (s.get (pgETH 0) F.ETH_CFG_SPEED ≠ 0 ∨ s.get (pgETH 0) F.HDR_REQ_MODE = 0) then s.fault pgPMU 0x42 0x040 a
      else sleepAsk 2 s
    | _ => if en &&& 3 = 0 then s.fault pgPMU 0x41 0x040 a else sleepAsk 3 s

/-- The rails are up and in range, and PGWAIT has ended (R518): the start that follows is due. -/
def railsUp (s : State) : State :=
  let s := (updPwr s fun p => { p with raising := none }).set pgPMU F.PMU_STATE 0
  updBoot s fun b => { b with due := if b.resetLow then none else some (true, s.pwr.riseCause) }

/-- The next output that is still up drops, PWR_EN3 first; `f` follows the last. -/
def pwrDrop (f : State → State) (s : State) : State :=
  match s.pwr.en.reverse.findIdx? id with
  | some j =>
    let i := 3 - j
    let s := (updPwr s fun p => { p with en := p.en.set i false }).emit (.ball ("PWR_EN" ++ toString i) false)
    if s.pwr.en.any id then s else f s
  | none => f s

/-- PWR_EN_SEQUENCE (R518, R565): the next output rises or drops; the last one ends the sequence. With a rail out of its range at the end of a rise
the start waits for it, and the next step of the sequence drops the outputs again, to raise them anew. -/
def pwrSeq (s : State) : State :=
  match s.pwr.raising with
  | none => s
  | some true =>
    match s.pwr.en.findIdx? (!·) with
    | some i =>
      let s := (updPwr s fun p => { p with en := p.en.set i true }).emit (.ball ("PWR_EN" ++ toString i) true)
      if s.pwr.en.all id ∧ !s.boot.railOut then railsUp s else s
    | none => if s.boot.railOut then pwrDrop id (updPwr s fun p => { p with raising := some false, retry := true }) else railsUp s
  | some false =>
    if s.pwr.retry then pwrDrop (fun s => updPwr s fun p => { p with raising := some true, retry := false }) s
    else pwrDrop (fun s => wakeLate (updPwr s fun p => { p with raising := none })) s

/-- VAON_APPLIED (R518): AON at its reset values, and the rails rise. -/
def vaonApplied (s : State) : State :=
  let s := sysReset false false s
  { s with regs := [], pwr := { en := [false, false, false, false], raising := some true, riseCause := 0 } }

/-- POWER_LOSS (R425): all volatile state is lost; a program in progress may have left its codewords old, new or uncorrectable. -/
def powerLoss (s : State) : State :=
  let s := sysReset false false s
  { s with regs := [], pwr := { en := [false, false, false, false] }, tap := {}, svc := {}, boot := { s.boot with resetLow := false, railOut := false } }

/-- RESET_N low, or a rail out of range (R529, R565): every domain but AON is held in reset. -/
def holdReset (rail : Bool) (s : State) : State :=
  let s := sysReset false false s
  updBoot s fun b => if rail then { b with railOut := true } else { b with resetLow := true }

/-- RESET_N released, or the rail back in range (R529, R565): a cold start from step 2, once neither holds; a rail that a rise waits for ends the rise. -/
def releaseReset (rail : Bool) (s : State) : State :=
  let was := s.boot.resetLow || s.boot.railOut
  let s := updBoot s fun b => if rail then { b with railOut := false } else { b with resetLow := false }
  if rail ∧ was ∧ s.pwr.raising = some true ∧ s.pwr.en.all id then railsUp s
  else if was ∧ !s.boot.resetLow ∧ !s.boot.railOut ∧ s.pwr.en.all id then updBoot s fun b => { b with due := some (true, 1) } else s

/-! ### Thermal limits (R522) -/

/-- THERMAL_EVALUATE (R522). -/
def thermalEval (s : State) : State :=
  if !timeRuns s then s else
  let t := dieTemp s
  let s := trackTj s
  let atLeast := fun (x : Rat) => !Fl.lt t (.fin x)
  if atLeast 120 then
    let s := sysReset false false s
    let s := (s.set pgPMU F.PMU_STATE 3).set pgPMU F.PMU_WAKECAUSE_THERMTRIP 1
    let s := updPwr s fun p => { p with raising := none, retry := false, tripped := true, en := [false, false, false, false] }
    [3, 2, 1, 0].foldl (fun s i => s.emit (.ball ("PWR_EN" ++ toString i) false)) s
  else
    let w := s.get pgPMU F.PMU_THERM_TWARN
    let s :=
      if !s.flag pgPMU F.PMU_THERM_WARN then
        (if atLeast w then (s.set pgPMU F.PMU_THERM_WARN 1).evt pgPMU 1 else s)
      else if Fl.lt t (.fin (w - 5)) then s.set pgPMU F.PMU_THERM_WARN 0 else s
    if !s.flag pgPMU F.PMU_THERM_CRIT then
      (if atLeast 110 then domOff 6 (domOff 7 ((s.set pgPMU F.PMU_THERM_CRIT 1).evt pgPMU 2)) else s)
    else if Fl.lt t (.fin 100) then s.set pgPMU F.PMU_THERM_CRIT 0 else s

/-! ### PMBus (R521) -/

/-- The PMBus command code of a transaction. -/
def pmCode (k : Nat) : Nat :=
  match k with | 0 => 0x20 | 1 => 0x01 | 2 => 0x21 | 3 => 0x8B | 4 => 0x8C | 5 => 0x8D | _ => 0x79

/-- The signed exponent of VOUT_MODE. -/
def pmExp (s : State) : Int := signed 5 (s.get pgPMU F.PMU_PMBUS_EXP)

/-- A target in LINEAR16, rounded to nearest (R521). -/
def linear16 (e : Int) (mv : Nat) : Nat := (roundHalfUp ((mv : Rat) / 1000 * pow2 (-e))).toNat % 65536

/-- The bytes that the device puts on the bus for a transaction; a read ends with its second address byte. -/
def pmBytes (s : State) (x : PmTxn) : List Byte :=
  let a := s.get pgPMU F.PMU_PMBUS_ADDR
  let b : List Byte := [BitVec.ofNat 8 (2 * a), BitVec.ofNat 8 (pmCode x.kind)] ++
    (if x.kind = 1 then [0x80] else if x.kind = 2 then leBytes 2 (linear16 (pmExp s) x.mv) else [BitVec.ofNat 8 (2 * a + 1)])
  if s.flag pgPMU F.PMU_PMBUS_PEC ∧ (x.kind = 1 ∨ x.kind = 2) then b ++ [BitVec.ofNat 8 (b.foldl crc8Byte 0)] else b

/-- The first transaction that waits goes onto a free bus. -/
def pmStart (s : State) : State :=
  match s.pwr.txn, s.pwr.txnQ with
  | none, x :: t => (updPwr s fun p => { p with txn := some x, txnQ := t }).emit (.pmbus (pmBytes s x))
  | _, _ => s

/-- Transactions asked for behind those that wait. -/
def pmAsk (l : List Nat) (s : State) : State :=
  pmStart (updPwr s fun p => { p with txnQ := p.txnQ ++ (l.filter (fun k => !p.txnQ.any (·.kind = k))).map fun k => { kind := k } })

/-- A new target: its VOUT_COMMAND goes before any poll that has not started (R521). -/
def retarget (mv : Nat) (s : State) : State :=
  if s.pwr.target = mv then s
  else updPwr s fun p => { p with target := mv, txnQ := { kind := 2, mv := mv } :: p.txnQ.filter (·.kind ≠ 2) }

/-- The target while the governor is off (R520): VSET, and 750 mV until output enable. -/
def govOff (s : State) : State :=
  if s.boot.outEn ∧ (!s.flag pgPMU F.PMU_GOV_EN) then retarget (s.get pgPMU F.PMU_VSET) s else s

/-- A LINEAR11 value, which the manual reports in other units: mantissa times a power of 2 (PRESUMED, PMBus). -/
def linear11 (v : Nat) : Rat := (signed 11 v : Rat) * pow2 (signed 5 (v / 2048))

/-- A transaction acknowledged (R521). -/
def pmAck (x : PmTxn) (data : List Byte) (s : State) : State :=
  let v := leVal (data.take 2)
  match x.kind with
  | 0 =>
    if v % 256 / 32 = 0 then s.set pgPMU F.PMU_PMBUS_EXP (v % 32)
    else ((updPwr s fun p => { p with govDead := true }).evt pgPMU 3).fault pgPMU 0x43 0x07C 0
  | 2 => s.set pgPMU F.PMU_VNOW x.mv
  | 3 => s.set pgPMU F.PMU_VMEAS_VALUE (toField 16 (openRound 521 ((v : Rat) * pow2 (pmExp s) * 1000)))
  | 4 => s.set pgPMU F.PMU_IMEAS_VALUE (toField 16 (openRound 521 (linear11 v * 100)))
  | 5 => s.set pgPMU F.PMU_RTEMP_VALUE (toField 16 (openRound 521 (linear11 v)))
  | 6 => s.set pgPMU F.PMU_PMBSTAT_STATUS v
  | _ => s

/-- The end of the transaction on the bus (R521): acknowledged, or repeated until its third failure. -/
def pmEnd (ok : Bool) (data : List Byte) (s : State) : State :=
  match s.pwr.txn with
  | none => s
  | some x =>
    if ok then pmStart (updPwr (pmAck x data s) fun p => { p with txn := none })
    else if x.fails < 2 then
      let x := { x with fails := x.fails + 1 }
      (updPwr s fun p => { p with txn := some x }).emit (.pmbus (pmBytes s x))
    else
      let s := (s.bump pgPMU F.PMU_st_PMBERR).evt pgPMU 3
      let s := updPwr s fun p => { p with txn := none, target := if x.kind = 2 then s.get pgPMU F.PMU_VNOW else p.target }
      pmStart s

/-! ### The governor (R520) -/

/-- The frame in progress ends at a T_end: a mode change, a re-phase or a step is due there (R59, R60). -/
def changeDue (s : State) : Bool :=
  s.time.gapM.isNone && (s.flag pgTIME F.TIME_MODE_PEND || s.time.rephase.isSome || s.time.heldStep.isSome)

/-- The governor's measurement at the commit cutoff C of the next frame; a cutoff with no FS after it makes none. -/
def governor (s : State) : State :=
  let c := s.time.ft
  let fs := s.time.fsFt
  let nothing := !preparesOn s || !(List.range 64).any fun p => takesFrames s p && s.get pgMAP F.MAP_SEG_COUNT p ≠ 0
  if !s.boot.outEn ∨ s.pwr.prepCut ∨ changeDue s ∨ c ≤ fs then s
  else
    let sl : Rat := if nothing then 1 else match s.outs.prepEnd with
      | some t => ((c : Rat) - t) / ((c : Rat) - fs)
      | none => 0
    let pm := (openRound 520 (sl * 1000)).toNat
    let s := s.set pgPMU F.PMU_GOV_SLACK pm
    let s := if (amGet s.ctr (State.statKey pgPMU F.PMU_st_MINSLACK 0)).isSome ∧ s.stat pgPMU F.PMU_st_MINSLACK ≤ pm then s
      else s.setStat pgPMU F.PMU_st_MINSLACK pm
    let count := if 35 / 100 < sl then min 31 (s.get pgPMU F.PMU_GOV_COUNT + 1) else 0
    let s := s.set pgPMU F.PMU_GOV_COUNT count
    if !s.flag pgPMU F.PMU_GOV_EN ∨ s.pwr.govDead then s
    else
      let lo := s.get pgPMU F.PMU_VLIM_VMIN
      let hi := s.get pgPMU F.PMU_VLIM_VMAX
      let t := s.pwr.target
      if sl < 15 / 100 then
        if hi ≤ t then (s.bump pgPMU F.PMU_st_ATMAX).evt pgPMU 5
        else (retarget (min hi (t + 10)) s).bump pgPMU F.PMU_st_RAISES
      else if 16 ≤ count then
        let s := s.set pgPMU F.PMU_GOV_COUNT 0
        if t ≤ lo then s else (retarget (max lo (t - 10)) s).bump pgPMU F.PMU_st_LOWERS
      else s

/-! ### Meanings -/

/-- WAKE_PIN (R517). -/
def execWakePin (s : State) := act (wake 1) s
/-- RTC_ALARM (R517). -/
def execRtcAlarm (s : State) := act (wake 2) s
/-- DOMAIN_ON_DONE (R512). -/
def execDomainOnDone (d : Fin 16) (s : State) := act (domOnDone d) s
/-- DOMAIN_OFF_DONE (R512). -/
def execDomainOffDone (d : Fin 16) (s : State) := act (domOffDone d) s
/-- DRAM_TRAINING_DONE (R512): after FSTO came on. -/
def execDramTrainingDone (pass : Bool) (s : State) :=
  act (fun s => if domainOn s 8 then (s.set pgFS F.FS_TRAIN_DONE 1).set pgFS F.FS_TRAIN_PASS pass.toNat else s) s
/-- VOUT_COMMAND (R521). -/
def execVoutCommand (s : State) := act (fun s => if s.pwr.txnQ.head?.any (·.kind = 2) then pmStart s else s) s
/-- PMBUS_POLL (R521). -/
def execPmbusPoll (s : State) := act (pmAsk [3, 4, 5]) s
/-- PMBUS_ALERT (R521). -/
def execPmbusAlert (s : State) := act (fun s => pmAsk [6] (s.evt pgPMU 4)) s
/-- PMBUS_TRANSACTION_END (R521): acknowledged with the bytes read, or failed. -/
def execPmbusTransactionEnd (ok : Bool) (data : List Byte) (s : State) := act (pmEnd ok data) s
/-- THERMAL_EVALUATE (R522). -/
def execThermalEvaluate (s : State) := act thermalEval s
/-- LIFE_COUNT (R525). -/
def execLifeCount (s : State) := act lifeCount s
/-- LIFETIME_RECORD_WRITE (R526). -/
def execLifetimeRecordWrite (s : State) := act (fun s => if timeRuns s then writeLifetime s else s) s
/-- VAON_APPLIED (R518). -/
def execVaonApplied (s : State) := act vaonApplied s
/-- PWR_EN_SEQUENCE (R518). -/
def execPwrEnSequence (s : State) := act pwrSeq s
/-- RAIL_OUT_OF_RANGE (R565). -/
def execRailOutOfRange (s : State) := act (holdReset true) s
/-- RAIL_RETURN (R565). -/
def execRailReturn (s : State) := act (releaseReset true) s
/-- RESET_N_ASSERT (R529). -/
def execResetNAssert (s : State) := act (holdReset false) s
/-- RESET_N_RELEASE (R529). -/
def execResetNRelease (s : State) := act (releaseReset false) s
/-- POWER_LOSS (R425): of the whole device. -/
def execPowerLoss (nvmOnly : Bool) (s : State) := act (fun s => if nvmOnly then refreshAll (domOff1 9 s) else powerLoss s) s

end Sys2Proof.Machine
end

