-- ==== Sys2Proof/Machine/RegRead.lean ====
section
/-!
DEFINITION. What a read of a register returns (R10, R11, R68, R76): the value in force or staged, with the status fields that report
the present state of a block.
-/
namespace Sys2Proof.Machine
open Sys2Proof

/-- A register with copy 0 of a field replaced. -/
def withFld (f : Fld) (x : Nat) (v : Word) : Word := setBits v f.lsb f.w x
/-- A register with a one-bit field replaced. -/
def withFlag (f : Fld) (b : Bool) (v : Word) : Word := withFld f b.toNat v

/-- Four bytes as a table window shows them, least significant byte first. -/
def windowWord (b : List Byte) (i : Nat) : Word := BitVec.ofNat 32 (leVal (slice b i 4))

/-- The code of CMT.STAT.STATE (R93). -/
def CmtMode.code : CmtMode → Nat
  | .idle => 0 | .checking => 1 | .armed => 2 | .locked => 3

/-- The code of SERVOSTAT.STATE (R36). -/
def Servo.code : Servo → Nat
  | .free => 0 | .acquire => 1 | .locked => 2 | .holdover => 3

/-- The code of PHASESTAT.STATE (R54). -/
def Tracker.code : Tracker → Nat
  | .epoch => 0 | .seek => 1 | .track => 2 | .hold => 3

/-- The code of CPU.STAT.STATE (R473). -/
def CoreMode.code : CoreMode → Nat
  | .reset => 0 | .run => 1 | .idle => 2 | .sleep => 3 | .halt => 4

/-- The code of TSK.TSTAT.STATE (R487). -/
def TaskMode.code : TaskMode → Nat
  | .idle => 0 | .ready => 1 | .drawn => 2 | .running => 3 | .delayed => 4

/-- The header's status fields (R66, R76). -/
def statusHdr (s : State) (p off : Nat) (v : Word) : Word :=
  if off = 0x020 then
    let held := s.staged.any fun (k, _) => k / 4096 = p
    withFlag F.HDR_STGSTAT_ARMED (held && (s.cmt.mode = .armed || s.cmt.mode = .locked)) (withFlag F.HDR_STGSTAT_PEND (pagePend s p) v)
  else v

/-- One word of a SYS bitmap (R92): a bit for each of 32 page indices. -/
def pageBits (w : Nat) (f : Nat → Bool) : Word :=
  BitVec.ofNat 32 (((List.range 32).map fun i => if assigned (32 * w + i) ∧ f (32 * w + i) then 2 ^ i else 0).sum)

/-- SYS (R90, R92). -/
def statusSYS (s : State) (a off : Nat) (v : Word) : Word :=
  if off = 0x040 then
    withFld F.SYS_STATHOLD_HELD s.cmt.held (withFlag F.SYS_STATHOLD_ACTIVE (s.cmt.holdLeft ≠ 0) (withFld F.SYS_STATHOLD_COUNT s.cmt.holdLeft v))
  else if off = 0x048 then Config.stepping.setWidth 32
  else if off = 0x04C then Config.serial.setWidth 32
  else if off = 0x050 then (Config.serial >>> 32).setWidth 32
  else if off = 0x054 then BitVec.ofNat 32 a
  else if 0xC00 ≤ off ∧ off < 0xC20 then pageBits ((off - 0xC00) / 4) fun p => s.flag p F.HDR_EFF_MISMATCH
  else if 0xC20 ≤ off ∧ off < 0xC40 then pageBits ((off - 0xC20) / 4) (pageEvent s)
  else if 0xC40 ≤ off ∧ off < 0xC60 then pageBits ((off - 0xC40) / 4) (pagePend s)
  else v

/-- CMT (R93). -/
def statusCMT (s : State) (off : Nat) (v : Word) : Word :=
  if off = 0x040 then withFld F.CMT_OWN_OWNER s.cmt.owner v
  else if off = 0x054 then withFlag F.CMT_STAT_LATE s.cmt.late (withFld F.CMT_STAT_STATE s.cmt.mode.code v)
  else if off = 0x058 then BitVec.ofNat 32 s.cmt.target
  else if off = 0x05C then BitVec.ofNat 32 (s.cmt.target / 2 ^ 32 % 65536)
  else v

/-- A word of the mode table (R65): NUM or DEN of a mode index, 0 for a reserved one. -/
def modeWord (i w : Nat) : Word :=
  if 22 ≤ i then 0 else BitVec.ofNat 32 (if w = 0 then (modeRate i).1 else (modeRate i).2)

/-- TIME (R62). -/
def statusTIME (s : State) (off : Nat) (v : Word) : Word :=
  if off = 0x04C then BitVec.ofNat 32 s.time.track.code
  else if off = 0x050 then BitVec.ofNat 32 (openRound 62 ((s.time.phi : Rat) / 65536)).toNat
  else if off = 0x0B8 then
    let v := withFld F.TIME_SERVOSTAT_SRCACT (activeSource s) (withFld F.TIME_SERVOSTAT_STATE s.time.servo.code v)
    let v := withFlag F.TIME_SERVOSTAT_VALID (timeValid s) v
    let v := withFlag F.TIME_SERVOSTAT_FREERUN (s.time.acqDone && !s.time.everLocked) v
    withFlag F.TIME_SERVOSTAT_LIVE (anyLive s) v
  else if off = 0x0BC then BitVec.ofInt 32 s.time.corr
  else if off = 0x0E4 then s.st
  else if off = 0x0E8 then s.time.fsAt
  else if 0xC00 ≤ off ∧ off < 0xC40 then windowWord s.time.tlv (off - 0xC00)
  else if 0xC40 ≤ off ∧ off < 0xD40 then modeWord ((off - 0xC40) / 8) ((off - 0xC40) / 4 % 2)
  else v

/-- A count of bytes of 8-byte report records (R391): node ID, outcome and FN. -/
def reportBytes (s : State) : List Byte :=
  s.fab.table.flatMap fun (id, o, fn) => leBytes 4 (id % 2 ^ 18 + o * 2 ^ 24) ++ leBytes 4 fn

/-- STDn (R222). -/
def statusSTD (s : State) (p off : Nat) (v : Word) : Word :=
  let k := strand s p
  if off = 0x078 then
    let v := withFlag F.STD_PINSTAT_BLVL (ballLevel s (2 * p + 1)) (withFlag F.STD_PINSTAT_ALVL (ballLevel s (2 * p)) v)
    withFld F.STD_PINSTAT_BFILL (pinOf s (2 * p + 1)).queue.length (withFld F.STD_PINSTAT_AFILL (pinOf s (2 * p)).queue.length v)
  else if off = 0x07C then BitVec.ofNat 32 (openRound 222 ((k.shiftD : Rat) / 16)).toNat
  else if off = 0x080 then
    if k.kind = 0 ∨ k.kind = 7 ∨ (gangLead s p).isSome then 0 else
    let g := portGroup s p
    let (n, q) := portNext s p
    let t := shiftStart s k g n q
    let t := if t < (now16 s : Nat) then shiftStart s k g (n + 1) (q + 1) else t
    BitVec.ofNat 32 (onGrid t / 16)
  else if 0xC00 ≤ off ∧ off < 0xD00 then windowWord ((List.range 256).map fun i => (amGet k.rdmReq i).getD 0) (off - 0xC00)
  else if 0xD00 ≤ off ∧ off < 0xE04 then windowWord k.rdmResp (off - 0xD00)
  else v

/-- A bitmap of the 144 pins (R221). -/
def pinBits (w : Nat) (f : Nat → Bool) : Word :=
  BitVec.ofNat 32 (((List.range 32).map fun i => if 32 * w + i < 144 ∧ f (32 * w + i) then 2 ^ i else 0).sum)

/-- EDGE (R221). -/
def statusEDGE (s : State) (off : Nat) (v : Word) : Word :=
  if 0xC00 ≤ off ∧ off < 0xC14 then pinBits ((off - 0xC00) / 4) (ballLevel s)
  else if 0xC20 ≤ off ∧ off < 0xC34 then pinBits ((off - 0xC20) / 4) fun i => (pinOf s i).level.isSome
  else v

/-- CAL (R248, R249): the age of a bank's tables and the tables of the pin selected. -/
def statusCAL (s : State) (off : Nat) (v : Word) : Word :=
  if 0x060 ≤ off ∧ off < 0x070 then
    match s.cal.madeAt.getD ((off - 0x060) / 4) none with
    | some t => withFld F.CAL_BANKSTAT_AGE (min 65535 ((s.time.ft - t) / secUnits)) v
    | none => v
  else
    let b := s.get pgCAL F.CAL_CTL_BANKSEL
    let i := s.get pgCAL F.CAL_TABSEL_PIN
    let t := tapTable s (if i < 32 then 32 * b + i else 128 + 4 * b + (i - 32) % 4)
    if 36 ≤ i then v
    else if 0xC00 ≤ off ∧ off < 0xC10 then windowWord (t.remap.map (BitVec.ofNat 8 ·)) (off - 0xC00)
    else if 0xC40 ≤ off ∧ off < 0xC80 then windowWord (t.width.flatMap (leBytes 2 ·)) (off - 0xC40)
    else v

/-- ADC (R251): the words of the converter's calibration in force. -/
def statusADC (s : State) (off : Nat) (v : Word) : Word :=
  if off = 0x058 then BitVec.ofNat 32 (toField 16 (adcWords s).1)
  else if off = 0x05C then BitVec.ofNat 32 (adcWords s).2
  else v

/-- The packet time of an AES67 stream in ns (R256). -/
def aesTime (s : State) (n : Nat) : Nat := match s.get pgSND F.SND_AESCFG_PTIME n with | 0 => 125000 | 1 => 250000 | _ => 1000000

/-- SND (R276): a stream is locked while a packet has come within 4 packet times. -/
def statusSND (s : State) (off : Nat) (v : Word) : Word :=
  if off = 0x048 then
    withFld F.SND_INSTAT_AESLOCK ((List.range 8).map fun n =>
      match s.snd.aesAt.getD n none with
      | some t => if s.time.ft ≤ t + 4 * aesTime s n * 65536 then 2 ^ n else 0
      | none => 0).sum v
  else v

/-- ETHx (R313). -/
def statusETH (s : State) (x off : Nat) (v : Word) : Word :=
  if off = 0x0B0 then
    withFld F.ETH_LINKSTAT_PAUSELEFT (match (ethOf s x).pauseEnd with
      | some t => (t - s.time.ft + quantum s x - 1) / quantum s x
      | none => 0) v
  else v

/-- CANE (R317). -/
def statusCANE (s : State) (off : Nat) (v : Word) : Word :=
  if off = 0x050 then
    withFlag F.CANE_KEYCTL_VALID1 (caneKey s 1).isSome (withFlag F.CANE_KEYCTL_VALID0 (caneKey s 0).isSome v)
  else if s.cmt.owner ≠ 5 then v
  else if off = 0x0A0 then BitVec.ofNat 32 (s.net.cane.owner.getD 0)
  else if off = 0x0A4 then BitVec.ofNat 32 (s.net.cane.owner.getD 0 / 2 ^ 32)
  else v

/-- One lane's register of BRUp (R347). -/
def laneWord (s : State) (b l : Nat) : Word :=
  let k := laneOf s b l
  let age := if k.state = 3 then min 65535 ((s.time.ft - k.halfAt) / 65536000000) else 0
  BitVec.ofNat 32 (k.state + k.form.1.toNat * 16 + k.form.2.toNat * 32 + k.prxok.toNat * 64 + age * 65536)

/-- BRUp (R347). -/
def statusBRU (s : State) (b off : Nat) (v : Word) : Word :=
  let k := bruOf s b
  if off = 0x04C then laneWord s b 0
  else if off = 0x050 then laneWord s b 1
  else if off = 0x054 then
    withFlag F.BRU_PORT_FLBSEEN k.flbSeen (withFlag F.BRU_PORT_FLBACTIVE k.flbActive
      (withFld F.BRU_PORT_SKEW k.skew (withFlag F.BRU_PORT_UP k.up v)))
  else if off = 0x068 then
    BitVec.ofNat 32 (k.sent.length + k.txSeq * 0x100 + k.rxExp * 0x10000 + (k.replayDue || !k.replay.isEmpty).toNat * 0x1000000)
  else if off = 0x06C then
    -- the replay buffer stores each bundle sent with its LCRC (R336)
    BitVec.ofNat 32 (k.sent.map fun x => x.b.bytes.length + 4).sum
  else if 0xC00 ≤ off ∧ off < 0xD00 then windowWord k.ctrlRx (off - 0xC00)
  else if 0xD00 ≤ off ∧ off < 0xE00 then windowWord k.timeRx (off - 0xD00)
  else v

/-- QUE (R462, R466). -/
def statusQUE (s : State) (a off : Nat) (v : Word) : Word :=
  if 0x050 ≤ off ∧ off < 0x060 then windowWord (s.que.popBuf.getD a []) (off - 0x050)
  else if 0x400 ≤ off ∧ off < 0x500 then queueStat s ((off - 0x400) / 4)
  else v

/-- The nearest release instant of the delay list; 0 while it is empty (R489, R496). -/
def nextRelease (s : State) : Word := match s.tsk.delayed with | e :: _ => e.2 | [] => 0

/-- A bitmap of 32 shared sources (R495). -/
def sourceBits (w : Nat) (f : Src → Bool) : Word :=
  BitVec.ofNat 32 (((List.range 32).map fun i => if f (.shared (32 * w + i)) then 2 ^ i else 0).sum)

/-- EVC (R495). -/
def statusEVC (s : State) (off : Nat) (v : Word) : Word :=
  if 0xC00 ≤ off ∧ off < 0xC20 then sourceBits ((off - 0xC00) / 4) (isPending s)
  else if 0xC20 ≤ off ∧ off < 0xC40 then sourceBits ((off - 0xC20) / 4) (inService s)
  else v

/-- TSK (R496): the descriptor and status of the task selected. -/
def statusTSK (s : State) (off : Nat) (v : Word) : Word :=
  let k := s.task (s.get pgTSK F.TSK_SEL_TASK)
  if off = 0x044 then BitVec.ofNat 32 (k.entry.toNat / 2 * 2)
  else if off = 0x048 then BitVec.ofNat 32 (k.entry.toNat / 2 ^ 32)
  else if off = 0x04C then k.arg.setWidth 32
  else if off = 0x050 then (k.arg >>> 32).setWidth 32
  else if off = 0x054 then BitVec.ofNat 32 (k.prio + k.affinity.toNat * 0x100 + k.en.toNat * 0x1000)
  else if off = 0x058 then BitVec.ofNat 32 (k.mode.code + k.repost.toNat * 8 + k.core * 16 + k.postcnt * 0x100)
  else if off = 0x06C then BitVec.ofNat 32 (s.tsk.posts.length + s.tsk.delayed.length * 0x10000)
  else if off = 0x070 then nextRelease s
  else v

/-- CPUn (R492). -/
def statusCPU (s : State) (c off : Nat) (v : Word) : Word :=
  let k := s.core c
  if off = 0x048 then BitVec.ofNat 32 (k.mode.code + k.cl * 0x100 + k.running.length * 0x10000)
  else if off = 0x058 then k.lastPc.setWidth 32
  else if off = 0x05C then BitVec.ofNat 32 (k.lastPc.toNat / 2 ^ 32 % 256)
  else if off = 0x060 then match k.running with | t :: _ => BitVec.ofNat 32 (t + 0x8000) | [] => 0
  else if off = 0x064 then match k.drawer with | some t => BitVec.ofNat 32 (t + 0x8000) | none => 0
  else v

/-- The node pulls SVC_ATTN low (R551). -/
def attnOut (s : State) : Bool :=
  s.flag pgSVC F.SVC_CFG_ATTNEN && (s.boot.svcWait || s.svc.fallback || s.flag pgSVC F.SVC_ATTN_FORCE)

/-- The keys that are present, as BOOT.KEYS reports them (R540). -/
def keysPresent : Nat := ((List.range 4).map fun k => if (Config.fuseKey k).isSome then 2 ^ k else 0).sum

/-- The revocation bits blown (R540). -/
def keysRevoked (s : State) : Nat := Config.fuseRevoked.toNat ||| s.boot.revoked

/-- A register of a page with its status fields filled in, for a reader (R68). -/
def statusReg (s : State) (a p off : Nat) (v : Word) : Word :=
  if off < 0x040 then statusHdr s p off v
  else if 0x800 ≤ off ∧ off < 0xC00 then v
  else match pageType p with
  | 0x000 => statusSYS s a off v
  | 0x001 =>
    if off = 0x058 then BitVec.ofNat 32 s.pwr.rtc
    else if off = 0x05C then BitVec.ofNat 32 (s.pwr.rtc / 2 ^ 32 % 65536)
    else if 0xC08 ≤ off ∧ off < 0xC34 then windowWord (lifeBody s) (off - 0xC08)
    else v
  | 0x002 => statusTIME s off v
  | 0x003 => statusCMT s off v
  | 0x004 => statusCAL s off v
  | 0x005 => statusADC s off v
  | 0x006 =>
    if off = 0x044 then BitVec.ofNat 32 (s.get pgBOOT F.BOOT_STRAPS % 32)
    else if off = 0x048 then withFlag F.SVC_ATTN_LINE (attnOut s || s.svc.lineLow) (withFlag F.SVC_ATTN_OUT (attnOut s) v)
    else v
  | 0x007 => if 0xC00 ≤ off ∧ off < 0xD00 then windowWord ((List.range 256).map fun k => (amGet s.mm.nvmBuf k).getD 0) (off - 0xC00) else v
  | 0x008 =>
    if off = 0x078 then withFld F.BOOT_KEYS_REVOKED (keysRevoked s) (withFld F.BOOT_KEYS_PRESENT keysPresent v) else v
  | 0x010 => if off = 0x05C then withFld F.VEN_RING_READY (venReady s (p - 0x10)) v else v
  | 0x020 =>
    if off = 0x04C then withFlag F.MAP_BUDGET_OVER (budgetCap s < budgetV s) (withFld F.MAP_BUDGET_V (budgetV s) v)
    else if off = 0x050 then withFld F.MAP_CAP (budgetCap s) v
    else v
  | 0x021 =>
    let cap := laneCap s (lanesOn s)
    if off = 0x04C then withFlag F.COL_LANECAP_OVER (cap < entriesE s) (withFld F.COL_LANECAP_CAP cap v)
    else if off = 0x050 then withFld F.COL_LOAD_E (min (2 ^ 21 - 1) (entriesE s)) v
    else if off = 0x054 then withFlag F.COL_CACHE_OVER (262144 < cacheBytes s) (withFld F.COL_CACHE_BYTES (cacheBytes s) v)
    else if off = 0x058 then withFld F.COL_LANES (lanesOn s) v
    else v
  | 0x023 => if off = 0x068 then s.outs.ovr.active.setWidth 32 else v
  | 0x030 => statusEDGE s off v
  | 0x031 => statusSND s off v
  | 0x040 => statusSTD s (p - 0x40) off v
  | 0x080 => statusETH s 0 off v
  | 0x081 => statusETH s 1 off v
  | 0x082 => if off = 0x054 then withFld F.PAIR_SACNSTAT_LISTENED (listened s) v else v
  | 0x083 => statusCANE s off v
  | 0x088 => statusBRU s (p - 0x88) off v
  | 0x08C => if 0xC00 ≤ off ∧ off < 0xD00 then windowWord (reportBytes s) (off - 0xC00) else v
  | 0x090 =>
    if off = 0x078 then nextStamp s
    else if 0x110 ≤ off ∧ off < 0x210 ∧ off % 32 = 16 then BitVec.ofNat 32 (airUsed s ((off - 0x110) / 32))
    else if 0x110 ≤ off ∧ off < 0x210 ∧ off % 32 = 20 then BitVec.ofNat 32 (airBudget s ((off - 0x110) / 32) false)
    else if 0xE00 ≤ off then airWindow s off
    else v
  | 0x0A1 =>
    let i := p - 0xA1
    if off = 0x054 then BitVec.ofNat 32 ((arbOf s i).queue.length + (64 - (arbOf s i).queue.length) * 0x100)
    else if 0x100 ≤ off ∧ off < 0x160 then withFld F.ARB_PORT_PEND (arbPend s i ((off - 0x100) / 4)) v
    else v
  | 0x0B0 => statusQUE s a off v
  | 0x0B8 => statusEVC s off v
  | 0x0B9 => statusTSK s off v
  | 0x0C0 => statusCPU s (p - 0xC0) off v
  | _ => v

/-- What a read of a register shows to an agent (R76): a staged field its staged value where the reader's VIEW bit is 1. -/
def regView (s : State) (a p off : Nat) : Word :=
  statusReg s a p off (if s.get pgCMT F.CMT_VIEW / 2 ^ a % 2 = 1 then stagedReg s (regKey p off) else s.reg p off)

/-- A read of the register at an aligned offset of an assigned page by an agent: the state after it and the value. The reads with an
effect are those of QUE.POPq (R462). -/
def regRead (a p off : Nat) (s : State) : State × Word :=
  if p = pgQUE ∧ 0x300 ≤ off ∧ off < 0x400 then queuePop a ((off - 0x300) / 4) s
  else (s, regView s a p off)

/-- Whether an access of `n` bytes at an address of the register page window is one that R6 and R10 allow. -/
def pageAccessOk (addr n : Nat) : Bool := n = 4 && addr % 4 = 0 && assigned (pageIndexAt addr)

end Sys2Proof.Machine
end

