-- ==== Sys2Proof/Machine/Dma.lean ====
section
/-!
DEFINITION. The DMA engine's channels (R442 to R458): requests, resume points, errors and completions, with the reads of descriptors.
-/
namespace Sys2Proof.Machine
open Sys2Proof

/-- The states of a channel (R446). -/
abbrev chIdle : Nat := 0
abbrev chRun : Nat := 1
abbrev chStopped : Nat := 2
abbrev chHalted : Nat := 3
abbrev chError : Nat := 4
abbrev chBad : Nat := 5

/-- The page of a channel. -/
def chPage (ch : Nat) : Nat := pgDMA (ch / 16)

/-- A field of a channel's registers. -/
def chGet (s : State) (ch : Nat) (f : Fld) : Nat := s.get (chPage ch) f (ch % 16)
/-- A field of a channel's registers set. -/
def chSet (s : State) (ch : Nat) (f : Fld) (v : Nat) : State := s.set (chPage ch) f v (ch % 16)

/-- What a channel holds beside its registers. -/
def dmaOf (s : State) (ch : Nat) : DmaCh := s.dma.getD ch {}
/-- One channel changed. -/
def updDma (s : State) (ch : Nat) (f : DmaCh → DmaCh) : State := { s with dma := updAt s.dma ch f }

/-- The state of a channel. -/
def chState (s : State) (ch : Nat) : Nat := chGet s ch F.DMA_STATUS_STATE

/-- An address kept in a pair of registers, 40 bits. -/
def chAddr (s : State) (ch : Nat) (lo hi : Fld) : Nat := chGet s ch lo + chGet s ch hi * 2 ^ 32
/-- An address put in a pair of registers. -/
def chSetAddr (s : State) (ch : Nat) (lo hi : Fld) (a : Nat) : State := chSet (chSet s ch lo (a % 2 ^ 32)) ch hi (a / 2 ^ 32 % 256)

/-- CUR of a channel. -/
def chCur (s : State) (ch : Nat) : Nat := chAddr s ch F.DMA_CURL_CUR F.DMA_CURH_CUR
/-- CUR of a channel set. -/
def setCur (ch a : Nat) (s : State) : State := chSetAddr s ch F.DMA_CURL_CUR F.DMA_CURH_CUR a

/-- A channel's resume point set (R453). -/
def setResume (ch a off : Nat) (s : State) : State :=
  chSet (chSetAddr s ch F.DMA_RESL_RES F.DMA_RESH_RES a) ch F.DMA_RESOFF_OFFSET off

/-- The engine is halted (R452). -/
def engineHalted (s : State) : Bool := s.flag (pgDMA 0) F.DMA_ENGINE_HALTED

/-- Channels of a page run (R456). -/
def pageRuns (s : State) (ch : Nat) : Bool := s.get (chPage ch) F.HDR_REQ_MODE = 2

/-- The requester that a channel is (R445). -/
def chWho (s : State) (ch : Nat) : Who := dmaWho ch (chGet s ch F.DMA_STATUS_AGENT)

/-! ### Reads (R445, R452) -/

/-- Some bytes of memory as a channel reads them: in the register page window by 32-bit accesses, elsewhere by whole 64-byte bursts of which
the bytes outside the range are discarded. The bytes read, and the address of the first beat that failed. -/
def dmaRead (w : Who) : Nat → Nat → Nat → State → State × List Byte × Option Nat
  | 0, _, _, s => (s, [], none)
  | fuel + 1, a, n, s =>
    if n = 0 then (s, [], none)
    else if region a = .page then
      if !pageAccessOk a 4 ∨ n < 4 then (s, [], some a)
      else
        let (s, v) := regRead w.agent (pageIndexAt a) (a % 0x1000) s
        let (s, b, e) := dmaRead w fuel (a + 4) (n - 4) s
        (s, leBytes 4 v.toNat ++ b, e)
    else
      let k := min n (64 - a % 64)
      match rd w (a / 64 * 64) 64 s with
      | (s, none) => (s, [], some (a / 64 * 64))
      | (s, some l) =>
        let (s, b, e) := dmaRead w fuel (a + k) (n - k) s
        (s, slice l (a % 64) k ++ b, e)

/-- A read of `n` bytes; accesses are never fewer bytes than 1, so `n` accesses suffice. -/
def dmaReadN (w : Who) (a n : Nat) (s : State) : State × List Byte × Option Nat := dmaRead w n a n s

/-! ### Completions and errors (R447, R452, R461) -/

/-- The completion item of a channel (R461): result 1 DONE, 2 MISMATCH, 3 ERROR. -/
def cplItem (s : State) (ch result : Nat) : List Byte :=
  leBytes 5 (chCur s ch) ++ [BitVec.ofNat 8 ch, BitVec.ofNat 8 result, 0] ++ leBytes 3 (chGet s ch F.DMA_RESOFF_OFFSET) ++
    [0, 0, 0, 0, BitVec.ofNat 8 (chGet s ch F.DMA_CFG_CPLPRIO + 0x18)]

/-- A completion item pushed where CPLQEN asks for one (R461), followed by a completion where `post` says so. -/
def pushItem (ch result : Nat) (post : Bool) (s : State) : State :=
  if chGet s ch F.DMA_CFG_CPLQEN = 1 then
    queuePush ⟨chGet s ch F.DMA_STATUS_AGENT, cplItem s ch result, some (ch, post)⟩ (chGet s ch F.DMA_CFG_CPLQ) s
  else if post then postDone ch s else s

/-- A chain's end (R447): IDLE, with the completion posted. -/
def chainEnds (ch : Nat) (s : State) : State :=
  let mis := (dmaOf s ch).mis
  let s := updDma (chSet (chSet s ch F.DMA_STATUS_STATE chIdle) ch F.DMA_STATUS_STOPREQ 0) ch fun k => { k with active := false, mis := false }
  pushItem ch (if mis then 2 else 1) true s

/-- A bus error on a channel's beat (R452, R455, R474): the channel enters ERROR, which raises its own source, and every other channel that
runs or is stopped enters HALTED. -/
def dmaError (ch addr : Nat) (s : State) : State :=
  let p := chPage ch
  let named := !engineHalted s
  let s := chSetAddr (chSet (chSet s ch F.DMA_STATUS_STATE chError) ch F.DMA_STATUS_STOPREQ 0) ch F.DMA_ERRL_ERR F.DMA_ERRH_ERR addr
  let s := (updDma s ch fun k => { k with active := false }).bump p F.DMA_st_ERRORS
  let s := pushItem ch 3 false (arrive (196 + ch) (s.evt p 16))
  let s := (List.range 32).foldl (fun s c =>
    if c ≠ ch ∧ (chState s c = chRun ∨ chState s c = chStopped) then
      updDma (chSet s c F.DMA_STATUS_STATE chHalted) c fun k => { k with active := false }
    else s) s
  let s := [0, 1].foldl (fun s i => s.set (pgDMA i) F.DMA_ENGINE_HALTED 1) s
  let s := if named then [0, 1].foldl (fun s i => s.set (pgDMA i) F.DMA_ENGINE_ERRCH ch) s else s
  (s.evt (pgDMA 0) 17).evt (pgDMA 1) 17

/-! ### Requests (R446, R449, R453, R454) -/

/-- A request that the channel's state does not take. -/
def chRefuse (a ch : Nat) (s : State) : State := s.fault (chPage ch) 0x40 (0x108 + 0x40 * (ch % 16)) a

/-- GO is taken (R446). -/
def goTaken (s : State) (ch : Nat) : Bool :=
  let st := chState s ch
  pageRuns s ch && !engineHalted s && (st = chIdle || st = chStopped || st = chBad)

/-- GO (R446). -/
def dmaGo (a ch : Nat) (s : State) : State :=
  if !goTaken s ch then chRefuse a ch s
  else
    let d := chGet s ch F.DMA_DESCL_DESC * 32 + chGet s ch F.DMA_DESCH_DESC * 2 ^ 32
    let s := setResume ch d 0 (setCur ch d s)
    let s := chSet (chSet (chSet s ch F.DMA_STATUS_STATE chRun) ch F.DMA_STATUS_AGENT a) ch F.DMA_STATUS_STOPREQ 0
    updDma (chSet s ch F.DMA_MISOFF_VALID 0) ch fun _ => {}

/-- STOP (R449). -/
def dmaStop (ch : Nat) (s : State) : State := chSet s ch F.DMA_STATUS_STOPREQ 1

/-- The second read of a descriptor's link done, with the first word that was read. -/
def rereadEnd (b : List Byte) (r : State × List Byte × Option Nat) : State × Option (Bool × Nat) × Nat :=
  match r with
  | (s, _, some x) => (s, none, x)
  | (s, c, none) => (s, some ((leVal b) / 256 % 2 = 1, leVal (c.take 5)), 0)

/-- The first read of a descriptor's link done: the NEXT words are read where it did not fail. -/
def rereadNext (ch cur : Nat) (r : State × List Byte × Option Nat) : State × Option (Bool × Nat) × Nat :=
  match r with
  | (s, _, some x) => (s, none, x)
  | (s, b, none) => rereadEnd b (dmaReadN (chWho s ch) (cur + 24) 8 s)

/-- The CTL and NEXT words of a descriptor re-read (R454): END and NEXT, or the address of the beat that failed. -/
def reread (ch : Nat) (s : State) : State × Option (Bool × Nat) × Nat :=
  let s := s.bump (chPage ch) F.DMA_st_REREADS
  rereadNext ch (chCur s ch) (dmaReadN (chWho s ch) (chCur s ch) 4 s)

/-- KNOCK (R454). -/
def dmaKnock (ch : Nat) (s : State) : State :=
  if chState s ch = chIdle ∧ chCur s ch ≠ 0 then
    match reread ch s with
    | (s, none, x) => dmaError ch x s
    | (s, some (true, _), _) => s.bump (chPage ch) F.DMA_st_KNOCKIDLE
    | (s, some (false, next), _) =>
      updDma (setResume ch next 0 (setCur ch next (chSet s ch F.DMA_STATUS_STATE chRun))) ch fun _ => {}
  else chSet s ch F.DMA_STATUS_KNOCKED 1

/-- RESUME (R446, R453); in RUN it is ignored. -/
def dmaResume (a ch : Nat) (s : State) : State :=
  let st := chState s ch
  if pageRuns s ch ∧ !engineHalted s ∧ st = chRun then s
  else if !pageRuns s ch ∨ engineHalted s ∨ !(st = chStopped ∨ st = chHalted ∨ st = chError) then chRefuse a ch s
  else
    let s := setCur ch (chAddr s ch F.DMA_RESL_RES F.DMA_RESH_RES) (chSet s ch F.DMA_STATUS_STATE chRun)
    updDma s ch fun k => { k with active := false }

/-- CLEAR (R446). -/
def dmaClear (ch : Nat) (s : State) : State :=
  let st := chState s ch
  if st = chStopped ∨ st = chHalted ∨ st = chError ∨ st = chBad then
    updDma (chSet (chSet (chSet s ch F.DMA_STATUS_STATE chIdle) ch F.DMA_STATUS_STOPREQ 0) ch F.DMA_REMAIN_BYTES 0) ch fun _ => {}
  else s

/-- A write of a channel's CTL: each bit written 1 acts, in the order of the bits; of GO and RESUME both refused one fault is recorded (R67). -/
def dmaCtl (a ch : Nat) (v : Word) (s : State) : State :=
  let refused := bitsOf v 0 1 = 1 ∧ !goTaken s ch
  let s := if bitsOf v 0 1 = 1 then dmaGo a ch s else s
  let s := if bitsOf v 1 1 = 1 then dmaStop ch s else s
  let s := if bitsOf v 2 1 = 1 then dmaKnock ch s else s
  let t := if bitsOf v 3 1 = 1 then dmaResume a ch s else s
  let s := if refused ∧ chState t ch = chState s ch then s else t
  if bitsOf v 4 1 = 1 then dmaClear ch s else s

/-- A write of ENGINE (R452). -/
def engineWrite (v : Word) (s : State) : State :=
  if bitsOf v 1 1 = 1 then [0, 1].foldl (fun s i => s.set (pgDMA i) F.DMA_ENGINE_HALTED 0) s else s

/-- A page that leaves RUN stops its channels as STOP does (R456). -/
def dmaPageMode (i : Nat) (s : State) : State :=
  if s.get (pgDMA i) F.HDR_REQ_MODE = 2 then s
  else (List.range 16).foldl (fun s c => if chState s (16 * i + c) = chRun then dmaStop (16 * i + c) s else s) s

end Sys2Proof.Machine
end

