-- ==== Sys2Proof/Machine/BootCtl.lean ====
section
/-!
DEFINITION. The controls of BOOT and SVC that run beside a start: confirm, watchdog, restarts, keys and the attention line (R529, R535, R536,
R540, R551, R556).
-/
namespace Sys2Proof.Machine
open Sys2Proof

/-- A start is due, or the device is held in reset: SYS does nothing more of what was under way. -/
def sysDown (s : State) : Bool := s.boot.due.isSome || s.boot.resetLow || s.boot.railOut

/-- Some bits of BOOT.STATUS set (R557). -/
def bootStatus (lsb w v : Nat) (s : State) : State := s.setReg pgBOOT 0x040 (setBits (s.reg pgBOOT 0x040) lsb w v)

/-- BOOT.CTL.CONFIRM (R535, R556): after handover the failed-start count returns to 0; a second confirm is a fault. -/
def confirm (a : Nat) (s : State) : State :=
  if s.boot.confirmed then s.fault pgBOOT 0x40 0x044 a
  else if !s.boot.handed then s
  else
    let s := (updBoot s fun b => { b with confirmed := true }).set pgBOOT F.BOOT_FAIL_COUNT 0
    (bootStatus 12 1 1 s).evt pgBOOT 3

/-- A restart by software (R529): it waits for any MRAM program to end. -/
def restart (cold : Bool) (cause : Nat) (s : State) : State := requestStart cold cause (progsEnd s)

/-- A write of BOOT.CTL (R535, R529): CONFIRM acts before RESTART. -/
def bootCtl (a : Nat) (v : Word) (s : State) : State :=
  let s := if bitsOf v 0 1 = 1 then confirm a s else s
  if bitsOf v 1 1 = 1 then restart (bitsOf v 2 1 = 1) 7 s else s

/-- A write of BOOT.READY (R533). -/
def bootReady (v : Word) (s : State) : State :=
  if bitsOf v 0 1 = 1 then enableEval (updBoot s fun b => { b with ready := true }) else s

/-- A write of BOOT.FAIL.CLEAR (R535, R556): agent 6 only. -/
def failClear (a : Nat) (v : Word) (s : State) : State :=
  if bitsOf v 8 1 = 0 then s
  else if a ≠ 6 then s.fault pgBOOT 0x40 0x070 a
  else s.set pgBOOT F.BOOT_FAIL_COUNT 0

/-- A write of BOOT.WDKICK (R536). -/
def wdKick (a : Nat) (v : Word) (s : State) : State :=
  if v = 0xC0DE then (updBoot s fun b => { b with warned := false }).bump pgBOOT F.BOOT_st_WDKICKS
  else s.fault pgBOOT 0x07 0x054 a

/-- A write of BOOT.WDOG.TIMEOUT that its range allows (R536): the count restarts. -/
def wdTimeout (v : Word) (s : State) : State :=
  (updBoot s fun b => { b with warned := false }).set pgBOOT F.BOOT_WDOG_TIMEOUT (bitsOf v 0 16)

/-- The watchdog runs (R536, R537). -/
def wdRuns (s : State) : Bool := s.get pgBOOT F.BOOT_WDOG_TIMEOUT ≠ 0 && !s.boot.svcWait && !sysDown s

/-- Half of TIMEOUT has passed since the last kick (R536). -/
def wdWarn (s : State) : State :=
  if wdRuns s ∧ !s.boot.warned then (updBoot s fun b => { b with warned := true }).evt pgBOOT 4 else s

/-- TIMEOUT has passed without a kick (R536). -/
def wdExpire (s : State) : State := if wdRuns s then requestStart false 2 s else s

/-- CONFIRMWIN ms have passed since handover (R535, R537). -/
def confirmExpire (s : State) : State :=
  if s.boot.handed ∧ !s.boot.confirmed ∧ !s.boot.svcWait ∧ !sysDown s then requestStart false 3 s else s

/-- A write of BOOT.KEYREVOKE (R540, R556): agent 6 only, and never the last key present; RANGE ranks before AGENT (R67). -/
def keyRevoke (a : Nat) (v : Word) (s : State) : State :=
  let r := keysRevoked s ||| bitsOf v 0 4
  if keysPresent ≠ 0 ∧ keysPresent &&& r = keysPresent then s.fault pgBOOT 0x07 0x07C a
  else if a ≠ 6 then s.fault pgBOOT 0x40 0x07C a
  else updBoot s fun b => { b with revoked := b.revoked ||| bitsOf v 0 4 }

/-- A change that may move the attention line (R551): an edge of SVC_ATTN as this node drives it leaves on its ball. -/
def withAttn (f : State → State) (s : State) : State :=
  let t := f s
  if attnOut t = attnOut s then t else t.emit (.ball "SVC_ATTN" (!attnOut t))

/-- A write of SVC.ATTN (R551, R559). -/
def attnWrite (v : Word) (s : State) : State :=
  withAttn (fun s =>
    let s := s.set pgSVC F.SVC_ATTN_FORCE (bitsOf v 0 1)
    if bitsOf v 1 1 = 1 then { s with svc := { s.svc with fallback := false } } else s) s

/-- SVC_ATTN held low for 100 µs by another node (R517, R551). -/
def attnIn (low : Bool) (s : State) : State :=
  let s := { s with svc := { s.svc with lineLow := low } }
  if low then wake 8 (if sysDown s then s else s.evt pgSVC 3) else s

/-! ### Meanings -/

/-- WATCHDOG_WARN (R536). -/
def execWatchdogWarn (s : State) := act wdWarn s
/-- WATCHDOG_EXPIRY (R536). -/
def execWatchdogExpiry (s : State) := act wdExpire s
/-- CONFIRM_WINDOW_EXPIRY (R535). -/
def execConfirmWindowExpiry (s : State) := act confirmExpire s
/-- ATTN_IN (R551): the line has been low for 100 µs while the node did not drive it, or returns high. -/
def execAttnIn (low : Bool) (s : State) := act (fun s => if attnOut s ∧ low then s else attnIn low s) s
/-- FABWAIT_EXPIRY (R533). -/
def execFabwaitExpiry (s : State) := act (fun s => if s.boot.handed then enableEval (updBoot s fun b => { b with fabDone := true }) else s) s

end Sys2Proof.Machine
end

