-- ==== Sys2Proof/Machine/Checks.lean ====
section
/-!
DEFINITION. The check of a commit (R80, R81): the configuration that would be in force, with the rules that every chapter adds to it. A failure is a
page, a reject code and the register that REJOFF names.
-/
namespace Sys2Proof.Machine
open Sys2Proof

abbrev rejRange : Nat := 1
abbrev rejReserved : Nat := 2
abbrev rejPin : Nat := 3
abbrev rejBudget : Nat := 4
abbrev rejTable : Nat := 5

/-- A failed check: page, code and register. -/
abbrev Fail := Nat × Nat × Nat

/-- One failure where a condition holds. -/
def failIf (b : Bool) (p code off : Nat) : List Fail := if b then [(p, code, off)] else []

/-- What is wrong with a field's value: 2 a reserved encoding, 1 out of range, 0 nothing (R12, R80). -/
def valueFault (f : Fld) (x : Nat) : Nat :=
  if f.resv.any fun r => r.1 ≤ x && x ≤ r.2 then 2
  else if !f.ok.isEmpty && !f.ok.any (fun r => r.1 ≤ x && x ≤ r.2) then 1
  else 0

/-- The values of the staged fields whose range or encodings hold under no condition. NINST above 16,384 is a TABLE failure (R164). -/
def stagedFails (s : State) : List Fail :=
  s.staged.flatMap fun (k, m, _) =>
    (fieldsAt (k / 4096) (k % 4096)).flatMap fun f =>
      let c := valueFault f (bitsOf (stagedReg s k) f.lsb f.w)
      failIf (f.eff = .commit && !f.lax && f.mask &&& m ≠ 0 && c ≠ 0 && f ≠ F.COL_NINST) (k / 4096) c (k % 4096)

/-- The fields checked under a condition of copy `k` of a page's registers. -/
def laxFails (m : State) (p k : Nat) (l : List Fld) : List Fail :=
  l.flatMap fun f => (List.range (if k = 0 ∧ f.stride = 0 then 1 else 0) ++ (if f.stride ≠ 0 then [k] else [])).flatMap fun i =>
    let c := valueFault f (m.get p f i)
    failIf (c ≠ 0) p c (f.off + f.stride * i)

/-- Pages whose REQ.MODE has no TEST (R12, R131 to R133, R219, R225, R247, R278, R317, R391, R457, R494), and a GPIO port's (R182). -/
def noTest (m : State) (p : Nat) : Bool :=
  [pgMAP, pgGEN, pgSQC, pgEDGE, pgOVR, pgCAL, pgTAP, pgCANE, pgFAB, pgDMA 0, pgDMA 1, pgEVC].contains p ||
  (pageType p = 0x40 && m.get p F.STD_CFG_KIND = 7)

/-- Unsupported modes (R80). -/
def modeFails (m : State) : List Fail :=
  allPages.flatMap fun p => failIf (m.get p F.HDR_REQ_MODE = 3 && noTest m p) p rejReserved 0x008

/-! ### Areas of the frame store -/

/-- Two areas of the frame store (offset, bytes) overlap. -/
def overlaps (a b : Nat × Nat) : Bool := 0 < a.2 && 0 < b.2 && a.1 < b.1 + b.2 && b.1 < a.1 + a.2
/-- An area leaves the frame store. -/
def leavesFs (a : Nat × Nat) : Bool := 2 ^ 27 < a.1 + a.2

/-- COUNT of a segment. -/
def segCount (m : State) (g : Nat) : Nat := m.get pgMAP F.MAP_SEG_COUNT g % 2 ^ 21
/-- FIRST of a segment. -/
def segFirst (m : State) (g : Nat) : Nat := m.get pgMAP F.MAP_SEG_FIRST g % 2 ^ 20

/-- The map (R118). -/
def mapAreas (m : State) : List (Nat × Nat) :=
  ((List.range 64).filter fun g => segCount m g ≠ 0).map fun g => (m.get pgMAP F.MAP_MAPBASE_OFFSET + 8 * segFirst m g, 8 * segCount m g)
/-- The instance table (R136). -/
def instArea (m : State) : Nat × Nat := (m.get pgCOL F.COL_INSTBASE_OFFSET, 64 * m.get pgCOL F.COL_NINST)
/-- The state area (R150). -/
def stateAreaOf (m : State) : Nat × Nat := (m.get pgCOL F.COL_STATEBASE_OFFSET, 32 * m.get pgCOL F.COL_NINST)
/-- A port's two strand buffer sets (R175). -/
def setAreas (m : State) (p : Nat) : List (Nat × Nat) :=
  let n := 2 * segCount m p * m.get pgCOL F.COL_PORT_PORTW p
  [(m.get (pgSTD p) F.STD_SBUF0_OFFSET, n), (m.get (pgSTD p) F.STD_SBUF1_OFFSET, n)]
/-- Map, instance table and state area. -/
def tableAreas (m : State) : List (Nat × Nat) := mapAreas m ++ [instArea m, stateAreaOf m]
/-- Every strand buffer set. -/
def allSets (m : State) : List (Nat × Nat) := (List.range 64).flatMap (setAreas m)

/-! ### Canvas -/

/-- The pixels of a canvas rectangle given as its size minus 1. -/
def venSize (m : State) (v : Nat) (f : Fld) : Nat := m.get (pgVEN v) f + 1

/-- Sizes that the scaling allows on one axis pair (R103). -/
def scaleOk (bilinear : Bool) (a b : Nat) : Bool :=
  if bilinear then b ≤ 16 * a && a ≤ 16 * b
  else max a b % min a b = 0 && max a b / min a b ≤ 16

/-- A veneer in RUN or TEST (R103 to R106, R112, R113, R128, R129). -/
def venFails (m : State) (v : Nat) : List Fail :=
  let p := pgVEN v
  let src := m.get p F.VEN_CFG_SRC
  if m.get p F.HDR_REQ_MODE < 2 then []
  else
    let lax := laxFails m p 0 (F.rowsVEN.filter (·.lax))
    if src = 4 then lax ++ failIf (!m.flag pgGEN F.GEN_CFG_EN (m.get p F.VEN_CFG_GEN)) p rejTable 0x040
    else if 4 < src then lax
    else
      let sw := venSize m v F.VEN_SRCWH_SW
      let sh := venSize m v F.VEN_SRCWH_SH
      let (a, b) := if m.get p F.VEN_CFG_ROT % 2 = 0 then (sw, sh) else (sh, sw)
      let bil := m.flag p F.VEN_CFG_SCALE
      let bw := venSize m v F.VEN_BUFWH_BW
      let bh := venSize m v F.VEN_BUFWH_BH
      let stride := m.get p F.VEN_STRIDE
      let count := m.get p F.VEN_RING_COUNT
      let px := m.get p F.VEN_SACNFMT_PXPERU
      lax ++
      failIf (!scaleOk bil (venSize m v F.VEN_PLCWH_PW) a || !scaleOk bil (venSize m v F.VEN_PLCWH_PH) b) p rejRange 0x04C ++
      failIf (count < [1, 2, 2, 3].getD src 1 || (src = 0 && count ≤ m.get p F.VEN_RING_SHOW)) p rejRange 0x05C ++
      failIf (stride % 64 ≠ 0) p rejTable 0x060 ++
      failIf (stride < bw * 8) p rejTable 0x058 ++
      ((List.range (min 4 count)).flatMap fun k =>
        let base := m.get p F.VEN_BUF_OFFSET k
        failIf (base % 64 ≠ 0) p rejTable (0x064 + 4 * k) ++
        failIf (leavesFs (base, stride * (bh - 1) + bw * 8)) p rejTable 0x058) ++
      failIf (bw < m.get p F.VEN_SRCXY_SX + sw || bh < m.get p F.VEN_SRCXY_SY + sh) p rejTable 0x048 ++
      (if src = 2 then
        failIf (bw * bh < m.get p F.VEN_SACN_NUMU * px) p rejTable 0x058 ++
        failIf (512 < px * slotsPer (m.get p F.VEN_SACNFMT_FORMAT)) p rejRange 0x07C
      else []) ++
      (if src = 3 then
        let c := m.get p F.VEN_TILESZ_TCOLS
        let r := m.get p F.VEN_TILESZ_TROWS
        failIf (bw ≠ 32 * c || bh ≠ 32 * r) p rejTable 0x058 ++ failIf (512 < c * r) p rejTable 0x084
      else [])

/-- An enabled generator (R132). -/
def genFails (m : State) (g : Nat) : List Fail :=
  if !m.flag pgGEN F.GEN_CFG_EN g then []
  else laxFails m pgGEN g (F.rowsGEN.filter (·.lax)) ++
    failIf (m.get pgGEN F.GEN_PERIOD g < m.get pgGEN F.GEN_TIMING_ON g) pgGEN rejRange (0x124 + 64 * g)

/-- A port carries no pixel data (R118, R173): NONE, GPIO or a gang member. -/
def noPixels (m : State) (p : Nat) : Bool :=
  m.get (pgSTD p) F.STD_CFG_KIND = 0 || m.get (pgSTD p) F.STD_CFG_KIND = 7 || (leaderOf m p).isSome

/-- One segment of the map (R118). -/
def segFails (m : State) (g : Nat) : List Fail :=
  let off := 0xC00 + 16 * g
  let n := segCount m g
  let first := segFirst m g
  failIf (2 ^ 20 ≤ m.get pgMAP F.MAP_SEG_FIRST g) pgMAP rejTable off ++
  failIf (2 ^ 21 ≤ m.get pgMAP F.MAP_SEG_COUNT g) pgMAP rejTable (off + 4) ++
  if n = 0 then []
  else
    failIf (2 ^ 20 < n || 2 ^ 20 < first + n) pgMAP rejTable off ++
    failIf ((List.range 64).any fun h => h ≠ g && overlaps (first, n) (segFirst m h, segCount m h)) pgMAP rejTable off ++
    failIf (m.get pgMAP F.MAP_SEG_X1 g < m.get pgMAP F.MAP_SEG_X0 g || m.get pgMAP F.MAP_SEG_Y1 g < m.get pgMAP F.MAP_SEG_Y0 g)
      pgMAP rejTable (off + 8) ++
    failIf (m.get pgMAP F.MAP_CANVAS_W < m.get pgMAP F.MAP_SEG_X1 g || m.get pgMAP F.MAP_CANVAS_H < m.get pgMAP F.MAP_SEG_Y1 g)
      pgMAP rejTable 0x040 ++
    failIf (leavesFs (m.get pgMAP F.MAP_MAPBASE_OFFSET + 8 * first, 8 * n)) pgMAP rejTable 0x044 ++
    failIf (noPixels m g) pgMAP rejTable (off + 4)

/-- The map and the veneer-pixel budget (R118, R120). -/
def mapFails (m : State) : List Fail :=
  (List.range 64).flatMap (segFails m) ++ failIf (m.get pgMAP F.MAP_MAPBASE_OFFSET % 8 ≠ 0) pgMAP rejTable 0x044 ++
  failIf (budgetCap m < budgetV m) pgMAP rejBudget 0x04C

/-- One rectangle of the square check (R125, R133). -/
def sqcFails (m : State) (n : Nat) : List Fail :=
  let f := m.get pgSQC F.SQC_CFG_FIRSTPORT n
  let l := m.get pgSQC F.SQC_CFG_LASTPORT n
  let last := m.get pgSQC F.SQC_LASTPIX n
  let off := 0x100 + 16 * n
  if !m.flag pgSQC F.SQC_CFG_EN n then []
  else
    failIf (l < f) pgSQC rejRange off ++
    failIf (last < m.get pgSQC F.SQC_FIRSTPIX n) pgSQC rejRange (off + 12) ++
    failIf ((List.range 64).any fun p =>
      let k := m.get (pgSTD p) F.STD_CFG_KIND
      f ≤ p && p ≤ l && ((k ≠ 1 && k ≠ 2 && k ≠ 5) || (leaderOf m p).isSome || (if k = 5 then 513 else segCount m p) ≤ last)) pgSQC rejRange off

/-! ### The colour engine -/

/-- A profile named by a valid directory entry passes the checks of R140. -/
def profileOk (m : State) (p : Nat) : Bool :=
  let at' := fun (o n : Nat) => memBytes m.mem (fsBase + blockOf m p + o) n
  let h := at' 0 256
  headerOk h (blockOf m p) && tableOk (at' (fieldAt h 16 4) 64) (fieldAt h 8 4) && tableOk (at' (fieldAt h 20 4) 64) (fieldAt h 8 4)

/-- COL (R135, R140, R161, R164). -/
def colFails (m : State) : List Fail :=
  let p := pgCOL
  let lanes := if domainOn m 6 then lanesOn m else if m.get pgPMU F.PMU_DOMREQ_REQ / 128 % 2 = 1 then 4 else 2
  let hitsMap := fun (a : Nat × Nat) => (mapAreas m).any (overlaps a)
  (List.range 256).flatMap (fun i =>
    let w := dirWord m i
    failIf (w / 2 % 32 ≠ 0 || 2 ^ 27 ≤ w || (w % 2 = 1 && !profileOk m i)) p rejTable (0xC00 + 4 * i)) ++
  failIf (leavesFs (instArea m) || overlaps (instArea m) (stateAreaOf m) || hitsMap (instArea m) || (instArea m).1 % 64 ≠ 0) p rejTable 0x040 ++
  failIf (leavesFs (stateAreaOf m) || hitsMap (stateAreaOf m) || 16384 < m.get p F.COL_NINST) p rejTable 0x044 ++
  failIf ((stateAreaOf m).1 % 64 ≠ 0) p rejTable 0x048 ++
  (List.range 64).flatMap (fun g => if segCount m g = 0 then [] else laxFails m p g (F.rowsCOL.filter (·.lax))) ++
  failIf (laneCap m lanes < entriesE m) p rejBudget 0x04C

/-! ### Edge placers and strand ports -/

/-- A change of BANKCFG.VSEL (R171), from the configuration in force to the merged one. -/
def edgeFails (s m : State) : List Fail :=
  let moved := fun b => (s.get pgEDGE F.EDGE_BANKCFG_VSEL / 2 ^ b + m.get pgEDGE F.EDGE_BANKCFG_VSEL / 2 ^ b) % 2 = 1
  failIf ((List.range 4).any fun b => moved b &&
    !(((List.range 16).all fun i =>
        let q := pgSTD (16 * b + i)
        s.get q F.HDR_REQ_MODE = 0 && m.get q F.HDR_REQ_MODE = 0 && effMode s q = 0) &&
      (List.range 4).all fun i => !s.flag pgEDGE F.EDGE_LATCFG_EN (4 * b + i) && !m.flag pgEDGE F.EDGE_LATCFG_EN (4 * b + i)))
    pgEDGE rejPin 0x040

/-- A gang size that R173 allows. -/
def gangSizeOk (kind g : Nat) (serial : Bool) : Bool :=
  match kind with
  | 3 => g = (if serial then 2 else 4)
  | 4 => 1 ≤ g && g ≤ 16
  | 6 => 4 ≤ g && g ≤ 16
  | _ => g = 1

/-- The port's configuration as it would be taken up. -/
def strandOf (m : State) (p : Nat) : Strand := { cfg := takeCfg m p }

/-- The gang of a leader (R174). -/
def gangFails (m : State) (p : Nat) : List Fail :=
  let k := strandOf m p
  let members := (List.range (k.gang - 1)).map (p + 1 + ·)
  failIf (!gangSizeOk k.kind k.gang (k.fld F.STD_MATRIX_P0_SERIAL = 1) || p / 16 ≠ (p + k.gang - 1) / 16 ||
    members.any fun q => m.get (pgSTD q) F.STD_CFG_KIND ≠ 0 || m.get (pgSTD q) F.STD_CFG_GANG ≠ 0 ||
      (List.range 16).any fun i => 1 ≤ i && i ≤ q && q - i ≠ p && i ≤ m.get (pgSTD (q - i)) F.STD_CFG_GANG && m.get (pgSTD (q - i)) F.STD_CFG_KIND ≠ 0)
    (pgSTD p) rejPin 0x040

/-- The strand buffer sets of a port whose segment is not empty (R175). -/
def setFails (m : State) (p : Nat) : List Fail :=
  if segCount m p = 0 then []
  else
    let others := (List.range 64).flatMap fun q => if q = p then [] else setAreas m q
    (setAreas m p).zipIdx.flatMap fun (a, i) =>
      failIf (a.1 % 64 ≠ 0 || leavesFs a || (others ++ tableAreas m).any (overlaps a) ||
        (i = 0 && overlaps a ((setAreas m p).getD 1 (0, 0)))) (pgSTD p) rejTable (0x044 + 4 * i)

/-- A value outside an interval fails with RANGE. -/
def rangeIf (x lo hi p off : Nat) : List Fail := failIf (x < lo || hi < x) p rejRange off

/-- CLOCKED (R181, R186 to R188). -/
def clockedFails (m : State) (p : Nat) (k : Strand) : List Fail :=
  let q := pgSTD p
  let g := k.fld F.STD_CFG_LGRP
  let r := k.fld F.STD_CFG_RETPORT
  rangeIf k.tbit 160 16000000 q 0x050 ++
  failIf (k.fld F.STD_CFG_LATPIN = 1 && (!m.flag pgEDGE F.EDGE_LATCFG_EN g || latchDomain g ≠ outDomain p)) q rejPin 0x040 ++
  if k.fld F.STD_CFG_RBEN = 1 then
    let base := k.fld F.STD_RBBASE_OFFSET
    failIf (m.get (pgSTD r) F.STD_CFG_KIND ≠ 0 || (leaderOf m r).isSome || outDomain r ≠ outDomain p || (List.range 64).any fun o =>
      o ≠ p && m.get (pgSTD o) F.STD_CFG_KIND = 1 && m.flag (pgSTD o) F.STD_CFG_RBEN && m.get (pgSTD o) F.STD_CFG_RETPORT = r) q rejPin 0x040 ++
    failIf (base % 64 ≠ 0 || leavesFs (base, 4096)) q rejTable 0x04C
  else []

/-- SINGLE (R189). -/
def singleFails (p : Nat) (k : Strand) : List Fail :=
  let q := pgSTD p
  rangeIf k.tbit 1600 160000 q 0x050 ++
  failIf (k.fld F.STD_T0H_HIGH < 160 || k.fld F.STD_T1H_HIGH ≤ k.fld F.STD_T0H_HIGH) q rejRange 0x054 ++
  failIf (k.tbit < k.fld F.STD_T1H_HIGH + 160) q rejRange 0x050 ++
  rangeIf (k.fld F.STD_ENDGAP) 100 1000000 q 0x05C

/-- MATRIX (R190, R223). -/
def matrixFails (p : Nat) (k : Strand) : List Fail :=
  let q := pgSTD p
  let serial := k.fld F.STD_MATRIX_P0_SERIAL = 1
  rangeIf (k.fld F.STD_MATRIX_P0_MDIV) 1 4095 q 0x060 ++
  rangeIf (k.fld F.STD_MATRIX_P0_LAMPS) 1 (if serial then 32 else 8) q 0x060 ++
  rangeIf (k.fld F.STD_MATRIX_P0_LITMAX) 1 32 q 0x060 ++
  failIf (k.fld F.STD_MATRIX_P1_LOADW < 10) q rejRange 0x064 ++
  failIf (k.fld F.STD_MATRIX_P0_LAMPS ≠ k.words) q rejTable 0x060

/-- PWM (R195, R196). -/
def pwmFails (m : State) (p : Nat) (k : Strand) : List Fail :=
  failIf (k.fld F.STD_PWM_P0_PDIV = 0 || periodRat m / (max 1 (k.fld F.STD_PWM_P0_PDIV) : Nat) < 32000) (pgSTD p) rejRange 0x060 ++
  failIf (2 * k.gang < k.words) (pgSTD p) rejTable 0x040

/-- DMX (R199, R200). -/
def dmxFails (p : Nat) (k : Strand) : List Fail :=
  let q := pgSTD p
  rangeIf (k.fld F.STD_DMX_P0_BRK) 92 1000 q 0x060 ++ rangeIf (k.fld F.STD_DMX_P0_MAB) 12 1000 q 0x060 ++
  rangeIf (k.fld F.STD_DMX_P1_NSLOT) 24 512 q 0x064 ++ rangeIf (k.fld F.STD_DMX_P1_MTBS) 0 1000 q 0x064 ++
  rangeIf (k.fld F.STD_DMX_P2_REFRESH) 1204 65535 q 0x068 ++
  failIf ((k.width ≠ 8 && k.width ≠ 16) || k.fld F.STD_DMX_P1_NSLOT < k.words * (k.width / 8)) q rejRange 0x064

/-- PANEL (R203, R204, R206). -/
def panelFails (m : State) (p : Nat) (k : Strand) : List Fail :=
  let q := pgSTD p
  let rows := k.fld F.STD_PANEL_P0_ROWS
  let rep := k.fld F.STD_PANEL_P1_SCANREP
  let blank := k.fld F.STD_PANEL_P2_BLANK
  let gclks := k.fld F.STD_PANEL_P1_GCLKS
  let tr := periodRat m / (max 1 (rows * rep) : Nat)
  rangeIf rows 1 32 q 0x060 ++ rangeIf (k.fld F.STD_PANEL_P0_NDATA) 1 29 q 0x060 ++ rangeIf (k.fld F.STD_PANEL_P0_CHAINLEN) 1 1023 q 0x060 ++
  rangeIf rep 1 255 q 0x064 ++ rangeIf gclks 1 65535 q 0x064 ++
  failIf ((tr - (16 * blank : Nat)) / (max 1 gclks : Nat) < 160) q rejRange 0x060 ++
  failIf (k.tbit < 160) q rejRange 0x050 ++
  failIf (k.fld F.STD_PANEL_P3_VSW ≤ k.fld F.STD_PANEL_P2_DLATW || blank ≤ k.fld F.STD_PANEL_P3_VSW) q rejRange 0x068 ++
  failIf (2 * k.gang < 3 + rowBits k + k.fld F.STD_PANEL_P0_NDATA) q rejPin 0x040 ++
  failIf (rows * k.fld F.STD_PANEL_P0_NDATA * k.fld F.STD_PANEL_P0_CHAINLEN ≠ k.words) q rejTable 0x060

/-- GPIO with pulses on pin A (R207, R223). -/
def gpioFails (m : State) (p : Nat) (k : Strand) : List Fail :=
  if k.fld F.STD_GPIO_P1_PULSEA = 0 then []
  else failIf (periodRat m ≤ (16 * k.fld F.STD_GPIO_P0_OFFSET : Nat)) (pgSTD p) rejRange 0x060 ++
    rangeIf (k.fld F.STD_GPIO_P1_WIDTH) 5 65535 (pgSTD p) 0x064

/-- One strand port: a leader, also one that lies in another gang, or a port that stands alone, for the mode in force after the commit (R174, R222). -/
def stdFails (m : State) (p : Nat) : List Fail :=
  if (leaderOf m p).isSome ∧ m.get (pgSTD p) F.STD_CFG_KIND = 0 then []
  else
    let k := strandOf m p
    let q := pgSTD p
    let bits := k.fld F.STD_CFG_BITS
    let shifts := k.kind = 1 || k.kind = 2 || k.kind = 6
    gangFails m p ++ setFails m p ++
    (if shifts then
      rangeIf bits 8 16 q 0x040 ++ rangeIf (k.fld F.STD_ENDGAP) 20 1000000 q 0x05C ++
      failIf (!shiftFits { m with time := { m.time with ended := none } } k (k.fld F.STD_CFG_LGRP) 1 (m.time.seq + 1)) q rejBudget 0x07C
    else []) ++
    failIf ((k.kind = 1 || k.kind = 2) && bits < k.width) q rejRange 0x040 ++
    match k.kind with
    | 1 => clockedFails m p k
    | 2 => singleFails p k
    | 3 => matrixFails p k
    | 4 => pwmFails m p k
    | 5 => dmxFails p k
    | 6 => panelFails m p k
    | 7 => gpioFails m p k
    | _ => []

/-- One override state (R214, R217). -/
def ovrFails (m : State) (t : Nat) : List Fail :=
  let takes := fun p => bitsOf (m.reg pgOVR (if p < 32 then 0x104 + 32 * t else 0x108 + 32 * t)) (p % 32) 1 = 1
  let latched := fun g => (List.range 64).filter fun p =>
    m.get (pgSTD p) F.STD_CFG_KIND = 1 && m.flag (pgSTD p) F.STD_CFG_LATPIN && m.get (pgSTD p) F.STD_CFG_LGRP = g && (leaderOf m p).isNone
  failIf (m.flag pgOVR F.OVR_ST_CFG_EN t && (List.range 16).any fun g => (latched g).any takes && !(latched g).all takes) pgOVR rejPin (0x100 + 32 * t) ++
  failIf (m.get pgOVR F.OVR_ST_STROBE_PERIOD t < m.get pgOVR F.OVR_ST_STROBE_ON t) pgOVR rejRange (0x11C + 32 * t)

/-! ### The other pages -/

/-- SND's rings (R276). -/
def sndFails (m : State) : List Fail :=
  let bad := fun (a : Nat × Nat) => leavesFs a || (tableAreas m ++ allSets m).any (overlaps a)
  failIf (m.get pgSND F.SND_FEATBASE_OFFSET % 64 ≠ 0) pgSND rejRange 0x0E4 ++
  failIf (m.get pgSND F.SND_BEATBASE_OFFSET % 64 ≠ 0) pgSND rejRange 0x0E8 ++
  failIf (bad (m.get pgSND F.SND_FEATBASE_OFFSET, 196608)) pgSND rejTable 0x0E4 ++
  failIf (bad (m.get pgSND F.SND_BEATBASE_OFFSET, 2048)) pgSND rejTable 0x0E8

/-- One tap's target (R274, R278). -/
def tapFails (m : State) (t : Nat) : List Fail :=
  let k := m.get pgTAP F.TAP_TARGET_TKIND t
  failIf ((2 ≤ k && k ≤ 7 && 8 ≤ m.get pgTAP F.TAP_TARGET_TIDX t) || ((k = 5 || k = 6) && 4 ≤ m.get pgTAP F.TAP_TARGET_TFIELD t))
    pgTAP rejRange (0x404 + 16 * t)

/-- A FEC code that the PHY does not offer (R280). -/
def ethFails (m : State) (x : Nat) : List Fail :=
  let f := m.get (pgETH x) F.ETH_CFG_FEC
  failIf (f ≠ 3 && m.get (pgETH x) F.ETH_CFG_SPEED < f) (pgETH x) rejRange 0x040

/-- Veneer pages seen in the mode that the configuration asks for. -/
def asAsked (m : State) : State := (List.range 16).foldl (fun m v => (m.set (pgVEN v) F.HDR_EFF_MODE (m.get (pgVEN v) F.HDR_REQ_MODE)).set (pgVEN v) F.HDR_EFF_HOLD 0) m

/-- Universes, tile groups and publishers (R293, R371, R372). -/
def netFails (m : State) : List Fail :=
  let a := asAsked m
  failIf (2048 < listened a) pgPAIR rejBudget 0x054 ++ failIf (512 < (ownSubs a).length) pgFAB rejBudget 0x0B8 ++
  (List.range 2).flatMap fun k =>
    let v := m.get pgFAB F.FAB_PUBCFG_VEN k
    failIf (m.flag pgFAB F.FAB_PUBCFG_EN k && (venSize m v F.VEN_BUFWH_BW < 32 * m.get pgFAB F.FAB_PUBSIZE_TCOLS k ||
      venSize m v F.VEN_BUFWH_BH < 32 * m.get pgFAB F.FAB_PUBSIZE_TROWS k)) pgFAB rejTable (0x0C0 + 16 * k)

/-- AIR (R401, R412); the airtime of a frame is defined once BITRATE is set. -/
def airFails (m : State) : List Fail :=
  let zones := (m.get pgAIR F.AIR_ZONEBASE_OFFSET, 8 * m.get pgAIR F.AIR_ZONES_NZONES)
  let n := min (m.get pgAIR F.AIR_ZONES_PERFRAME) (m.get pgAIR F.AIR_ZONES_NZONES)
  failIf (m.get pgAIR F.AIR_PHY_BITRATE ≠ 0 &&
    (m.get pgAIR F.AIR_SCHED_CADENCE : Rat) * periodRat m ≤ airUs m (airHead m true + 8 * (38 + 6 * n)) * 16000) pgAIR rejRange 0x044 ++
  failIf (m.get pgAIR F.AIR_PRE_LONGPRE < m.get pgAIR F.AIR_PRE) pgAIR rejRange 0x048 ++
  failIf (m.get pgAIR F.AIR_SCHED_CADENCE ≤ m.get pgAIR F.AIR_SCHED_PHASE) pgAIR rejRange 0x050 ++
  failIf (periodRat m ≤ (16000 * m.get pgAIR F.AIR_TXOFF : Nat)) pgAIR rejRange 0x054 ++
  failIf (zones.1 % 8 ≠ 0 || leavesFs zones) pgAIR rejRange 0x064 ++
  failIf ((tableAreas m ++ allSets m).any (overlaps zones)) pgAIR rejTable 0x064

/-! ### The whole check -/

/-- Every failure of a configuration: `s` with its staging set against `m`, the merged configuration. -/
def allFails (s m : State) : List Fail :=
  stagedFails s ++ modeFails m ++ (List.range 16).flatMap (venFails m) ++ (List.range 8).flatMap (genFails m) ++ mapFails m ++
  (List.range 16).flatMap (sqcFails m) ++ colFails m ++ edgeFails s m ++ (List.range 64).flatMap (stdFails m) ++
  (List.range 8).flatMap (ovrFails m) ++ sndFails m ++ (List.range 64).flatMap (tapFails m) ++ (List.range 2).flatMap (ethFails m) ++
  netFails m ++ airFails m

/-- The failure that a page reports (R81): the lowest code, and of those the register of lowest offset. -/
def worse (a b : Fail) : Fail := if b.2.1 < a.2.1 ∨ (b.2.1 = a.2.1 ∧ b.2.2 < a.2.2) then b else a

/-- The result of the check (R80, R81): one failure for each failing page, the lowest page first. -/
def checks (s : State) : List Fail :=
  let l := allFails s (merged s)
  allPages.filterMap fun p => match l.filter (·.1 = p) with
    | [] => none
    | x :: t => some (t.foldl worse x)

/-- COMMIT_CHECK_END (R83): the check of R80 ends; a fabric commit armed here follows the result. -/
def execCommitCheckEnd (s : State) := act (fun s => fcFollow (checkEnd (checks s) s)) s

end Sys2Proof.Machine
end

