-- ==== Sys2Proof/Machine/RegWrite.lean ====
section
/-!
DEFINITION. What a write of a register does (R10 to R12, R66 to R68, R75): the field classes, and the registers whose write commands something.
-/
namespace Sys2Proof.Machine
open Sys2Proof

/-! ### Field classes (R67, R68, R75) -/

/-- Limits on at-once fields that depend on more than the field's own value: a write outside them records RANGE. -/
def extraOk (s : State) (p off : Nat) (v : Word) (f : Fld) (x : Nat) : Bool :=
  match pageType p with
  | 0x001 =>
    if off = 0x070 then
      let pick := fun (f : Fld) => if 620 ≤ bitsOf v f.lsb f.w ∧ bitsOf v f.lsb f.w ≤ 880 then bitsOf v f.lsb f.w else s.get p f
      620 ≤ x && x ≤ 880 && pick F.PMU_VLIM_VMIN ≤ pick F.PMU_VLIM_VMAX
    else true
  | 0x010 => if off = 0x08C ∨ off = 0x090 then x % 64 = 0 else true
  | 0x031 => if f = F.SND_LTC_CH then x ≤ 95 else true
  | 0x080 => if off = 0x050 ∧ f ≠ F.ETH_PAUSECFG_PAUSEQ then bitsOf v 16 8 ≤ bitsOf v 24 8 else true
  | 0x081 => if off = 0x050 ∧ f ≠ F.ETH_PAUSECFG_PAUSEQ then bitsOf v 16 8 ≤ bitsOf v 24 8 else true
  | 0x090 =>
    let k := (off - 0x108) / 32
    if f = F.AIR_LOADLEAD_LEAD then (List.range 8).all fun k => s.get p F.AIR_CCA_LISTEN k + x + 20 ≤ s.get p F.AIR_STEP k
    else if f = F.AIR_CCA_LISTEN then x + s.get p F.AIR_LOADLEAD_LEAD + 20 ≤ s.get p F.AIR_STEP k
    else if f = F.AIR_STEP then s.get p F.AIR_CCA_LISTEN k + s.get p F.AIR_LOADLEAD_LEAD + 20 ≤ x
    else true
  | 0x0A1 =>
    let k := (off - 0x100) / 4
    if f = F.ARB_PORT_FORERUNNER then x = 0 || (16 ≤ k && k ≤ 21) else true
  | _ => true

/-- The fault code of a value written to an at-once field: RESERVED, RANGE, or 0 (R12, R67). -/
def fieldCode (s : State) (p off : Nat) (v : Word) (f : Fld) : Nat :=
  let x := bitsOf v f.lsb f.w
  match valueFault f x with
  | 2 => 0x01
  | 1 => 0x07
  | _ => if extraOk s p off v f x then 0 else 0x07

/-- The more urgent of two fault codes among RESERVED and RANGE. -/
def firstCode (a b : Nat) : Nat := if a = 0 then b else if b = 0 then a else min a b

/-- The at-once fields of a register written: those at fault keep their values (R67). The state, and the fault code or 0. -/
def putFields (p off : Nat) (v : Word) (fs : List Fld) (s : State) : State × Nat :=
  fs.foldl (fun (t, c) f =>
    match fieldCode s p off v f with
    | 0 => (t.setReg p off (setBits (t.reg p off) f.lsb f.w (bitsOf v f.lsb f.w)), c)
    | e => (t, firstCode c e)) (s, 0)

/-- The staged fields of a register written (R75): into the staging set, or refused as NOTOWNER or ARMED. -/
def stageFields (a p off : Nat) (v : Word) (fs : List Fld) (s : State) : State × Nat :=
  if fs.isEmpty then (s, 0)
  else if a = 0 ∨ s.cmt.owner ≠ a then (s.bump pgCMT F.CMT_st_NOTOWNER, 0x02)
  else if s.cmt.mode ≠ .idle then (s.bump pgCMT F.CMT_st_NOTOWNER, 0x03)
  else (stage (regKey p off) (fs.foldl (fun m f => m ||| f.mask) 0) v s, 0)

/-- A fault that an access records in place of one its command recorded (R67): one fault for each access, the more urgent cause. -/
def faultOver (before : State) (p code off a : Nat) (s : State) : State :=
  ((s.setReg p 0x018 (before.reg p 0x018)).setReg p 0x01C (before.reg p 0x01C)).fault p code off a

/-! ### The header (R66) -/

/-- A write of a header register. -/
def hdrWrite (a p off : Nat) (v : Word) (s : State) : State :=
  if off = 0x008 then
    if fixedRun p then s
    else if pageType p = 0xC0 then
      if bitsOf v 0 2 = 3 then s.fault p 0x01 off a
      else refresh p (coreMask (p - 0xC0) <| coreMode (p - 0xC0) (s.set p F.HDR_REQ_MODE (bitsOf v 0 2)))
    else
      let (s, c) := stageFields a p off v [F.HDR_REQ_MODE] s
      if c = 0 then s else s.fault p c off a
  else if off = 0x010 then s.setReg p 0x010 (s.reg p 0x010 &&& ~~~v)
  else if off = 0x014 then withEvents p (fun s => s.setReg p 0x014 v) s
  else if off = 0x018 then s.setReg p 0x018 0
  else s

/-! ### Registers that are commands -/

/-- SND.TDM0 and TDM1 (R254): refused whole. -/
def tdmWrite (a off : Nat) (v : Word) (s : State) : State :=
  if bitsOf v 6 2 = 3 then s.fault pgSND 0x01 off a
  else if 16 < (bitsOf v 4 2 + 1) * 2 ^ (bitsOf v 6 2 + 1) then s.fault pgSND 0x07 off a
  else s.setReg pgSND off (v &&& 0xFF7)

/-- A byte of a port's RDM request window (R201). -/
def rdmByte (l : List (Nat × Byte)) (i : Nat) (b : Byte) : List (Nat × Byte) := if b = 0 then amDel l i else amSet l i b

/-- A word of a port's RDM request window (R201). -/
def rdmWindow (p off : Nat) (v : Word) (s : State) : State :=
  updStrand s p fun k => { k with rdmReq := [0, 1, 2, 3].foldl (fun l i => rdmByte l (off - 0xC00 + i) (BitVec.ofNat 8 (v.toNat / 256 ^ i))) k.rdmReq }

/-- CANE.KEYCTL.CLEAR (R306): the slots whose bits are 1 are cleared. -/
def keyClear (v : Word) (s : State) : State :=
  let clear := fun (k : Nat) => bitsOf v (8 + k) 1 = 1
  { s with net := { s.net with cane := { s.net.cane with keys := s.net.cane.keys.zipIdx.map fun (w, i) => if clear (i / 8) then none else w } } }

/-- A key word (R306). -/
def keyWord (i : Nat) (v : Word) (s : State) : State :=
  { s with net := { s.net with cane := { s.net.cane with keys := s.net.cane.keys.set i (some v) } } }

/-- EVC.CLR (R476, R494): the pending state and a held post are cleared, and COUNT stays. -/
def srcClear (n : Nat) (s : State) : State := presentAll (setSrc (setSrc s (.shared n) 20 1 0) (.shared n) 22 1 0)

/-- CPUn.DOORBELL (R475): the bits in ascending order. -/
def doorbell (c : Nat) (v : Word) (s : State) : State :=
  ((List.range 8).filter fun k => v.getLsbD k).foldl (fun s k => arrivePriv c (2 + k) s) s

/-- CPUn.WAKE (R473): a wake asked of a core in SLEEP. -/
def askWake (c : Nat) (v : Word) (s : State) : State :=
  if v.getLsbD 0 ∧ (s.core c).mode = .sleep then s.updCore c fun k => { k with wakeAsked := true } else s

/-- A field of the task that TSK.SEL names; a task that is not IDLE keeps its fields, which is a fault (R487, R496). -/
def taskField (a off : Nat) (v : Word) (s : State) : State :=
  let t := s.get pgTSK F.TSK_SEL_TASK
  let k := s.task t
  let e := k.entry.toNat
  if k.mode ≠ .idle then s.fault pgTSK 0x41 off a
  else if off = 0x044 then s.setTask t { k with entry := BitVec.ofNat 40 (e / 2 ^ 32 * 2 ^ 32 + v.toNat / 2 * 2) }
  else if off = 0x048 then s.setTask t { k with entry := BitVec.ofNat 40 (e % 2 ^ 32 + bitsOf v 0 8 * 2 ^ 32) }
  else if off = 0x04C then s.setTask t { k with arg := BitVec.ofNat 64 (k.arg.toNat / 2 ^ 32 * 2 ^ 32 + v.toNat) }
  else if off = 0x050 then s.setTask t { k with arg := BitVec.ofNat 64 (k.arg.toNat % 2 ^ 32 + v.toNat * 2 ^ 32) }
  else s.setTask t { k with prio := bitsOf v 0 5, affinity := BitVec.ofNat 4 (bitsOf v 8 4), en := bitsOf v 12 1 = 1 }

/-- TRGCFG, TRGTIME and TRGPERIOD of trigger `n` (R57). -/
def trgWrite (a n off : Nat) (v : Word) (s : State) : State :=
  match off % 12 with
  | 8 => trgCfg a n v s
  | 0 => trgTime n v s
  | _ => trgPeriod a n v s

/-- The register at an offset as a command in place of a plain write: its effect, or none. `a` is the agent. -/
def command (a p off : Nat) (v : Word) : Option (State → State) :=
  let n := fun (base step : Nat) => (off - base) / step
  let inside := fun (lo hi : Nat) => decide (lo ≤ off) && decide (off < hi)
  match pageType p with
  | 0x000 => if off = 0x040 then some (statHold a v) else none
  | 0x001 => if off = 0x040 then some (stateCtl a v) else if off = 0x060 then some (domReq v) else none
  | 0x002 =>
    if off = 0x040 then some (modeRequest a v)
    else if off = 0x0A0 then some (servoSrcWrite a v)
    else if off = 0x0C4 then some (snapCapture v)
    else if off = 0x0F8 then some (withStep (setGo a v))
    else if inside 0x140 0x200 then some (trgWrite a ((off - 0x140) / 12) off v)
    else none
  | 0x003 =>
    if off = 0x040 then some (fun s => fcFollow (ownWrite a v s))
    else if off = 0x044 then some (fun s => fcFollow (ctlWrite a v s))
    else if off = 0x050 then some (arm a v)
    else none
  | 0x005 => if off = 0x050 then some (grpStart v) else none
  | 0x006 => if off = 0x048 then some (attnWrite v) else none
  | 0x007 => if off = 0x048 then some (nvmCmd a v) else if inside 0xC00 0xD00 then some (nvmBufWrite a off v) else none
  | 0x008 =>
    if off = 0x044 then some (bootCtl a v)
    else if off = 0x054 then some (wdKick a v)
    else if off = 0x058 then some (bootReady v)
    else if off = 0x070 then some (failClear a v)
    else if off = 0x07C then some (keyRevoke a v)
    else none
  | 0x023 =>
    if off = 0x060 then some (ovrFire (bitsOf v 0 8)) else if off = 0x064 then some (ovrRelease (bitsOf v 0 8)) else none
  | 0x031 =>
    if off = 0x040 ∨ off = 0x044 then some (tdmWrite a off v) else if off = 0x0D0 then some (barSync v) else none
  | 0x040 =>
    if off = 0x074 then some (gpioPush (p - 0x40) a v) else if inside 0xC00 0xD00 then some (rdmWindow (p - 0x40) off v) else none
  | 0x080 => if inside 0x060 0x0A0 ∧ off % 16 = 8 then some (rxTail 0 (n 0x060 16) v) else if off = 0x0A8 then some (txTail 0 v) else none
  | 0x081 => if inside 0x060 0x0A0 ∧ off % 16 = 8 then some (rxTail 1 (n 0x060 16) v) else if off = 0x0A8 then some (txTail 1 v) else none
  | 0x082 =>
    if off = 0x040 then some (pairCfg v) else if off = 0x04C then some (pairSwap a v) else if off = 0x068 then some (txTail 2 v) else none
  | 0x083 => if off = 0x050 then some (keyClear v) else if inside 0x060 0x0A0 then some (keyWord (n 0x060 4) v) else none
  | 0x08C =>
    if off = 0x040 then some (idcfgWrite v)
    else if off = 0x084 then some (fcmtGo a v)
    else if off = 0x090 then some (fcctl a v)
    else if off = 0x0F8 then some (fabTxTail v)
    else none
  | 0x0A0 => if off = 0x044 then some (fsInject v) else if off = 0x058 then some (errClr v) else none
  | 0x0A8 =>
    if off = 0x040 then some (engineWrite v)
    else if inside 0x100 0x500 ∧ off % 64 = 8 then some (dmaCtl a (16 * (p - 0xA8) + n 0x100 64) v)
    else none
  | 0x0B0 =>
    if inside 0x040 0x04C then some (pushBufWrite a (n 0x040 4) v)
    else if off = 0x060 then some (queueDrop a (bitsOf v 0 6))
    else if inside 0x100 0x200 then some (queueCfg a (n 0x100 4) v)
    else if inside 0x200 0x300 then some (pushWrite a (n 0x200 4) v)
    else none
  | 0x0B8 => if off = 0x040 then some (arrive (bitsOf v 0 8)) else if off = 0x044 then some (srcClear (bitsOf v 0 8)) else none
  | 0x0B9 =>
    if inside 0x044 0x058 then some (taskField a off v)
    else if off = 0x05C then some (postTask (bitsOf v 0 10) (if a = 0 then none else some (a - 1)))
    else if off = 0x064 then some (delayGo a v)
    else if off = 0x068 then some (cancelTask a v)
    else none
  | 0x0C0 =>
    if off = 0x050 then some (doorbell (p - 0xC0) v)
    else if off = 0x054 then some (askWake (p - 0xC0) v)
    else if off = 0x180 then some (arrivePriv (p - 0xC0) (bitsOf v 0 5))
    else if off = 0x184 then some (fun s => presentAll (setSrc s (.priv (p - 0xC0) (bitsOf v 0 5)) 20 1 0))
    else none
  | _ => none

/-! ### What follows a plain write -/

/-- A ring whose BASE or CFG a write changed reads HEAD and TAIL 0 (R313). -/
def ringMoved (old : State) (r : Ring) (s : State) : State :=
  if s.reg r.page r.base = old.reg r.page r.base ∧ s.reg r.page r.cfg = old.reg r.page r.cfg then s else ringReset r s

/-- A write of an Ethernet port's rings or PAUSECFG (R288, R313). -/
def ethAfter (x off : Nat) (old s : State) : State :=
  let s := if 0x060 ≤ off ∧ off < 0x0A0 then ringMoved old (rxRing x ((off - 0x060) / 16)) s
    else if 0x0A0 ≤ off ∧ off < 0x0A8 then ringMoved old (txRing x) s else s
  if 0x050 ≤ off ∧ off < 0x0A0 then pauseCheck x false s else s

/-- A level source whose EN became 1 while its condition is 1 becomes pending (R476). -/
def srcEnabled (x : Src) (cond : Bool) (old s : State) : State :=
  if srcBits old x 6 1 = 0 ∧ srcBits s x 6 1 = 1 ∧ cond then setSrc s x 20 1 1 else s

/-- What a write of a register does once its fields hold their new values: `old` is the state before. -/
def after (a p off : Nat) (v : Word) (old s : State) : State :=
  let n := fun (base step : Nat) => (off - base) / step
  let inside := fun (lo hi : Nat) => decide (lo ≤ off) && decide (off < hi)
  match pageType p with
  | 0x001 => if off = 0x06C ∨ off = 0x074 then govOff s else s
  | 0x002 =>
    if off = 0x044 then (if bitsOf v 0 2 ≤ 2 then phaseSrc (bitsOf v 0 2) s else s)
    else if off = 0x0A4 then
      let on := s.flag pgTIME F.TIME_SERVOCTL_FREEZE
      if on = old.flag pgTIME F.TIME_SERVOCTL_FREEZE then s else freezeSet on s
    else if off = 0x0B4 then (if timeValid s = timeValid old then s else timeChanged s)
    else if off = 0x114 then ppsIdle (old.flag pgTIME F.TIME_PPSOUT_EN) s
    else s
  | 0x004 => if off = 0x040 ∧ bitsOf v 8 1 = 1 then calRequest (s.get pgCAL F.CAL_CTL_BANKSEL) s else s
  | 0x005 => if off = 0x054 ∧ bitsOf v 1 1 = 1 then calNow s else s
  | 0x006 => if attnOut s = attnOut old then s else s.emit (.ball "SVC_ATTN" (!attnOut s))
  | 0x008 => if off = 0x048 then enableEval s else if off = 0x050 ∧ s.get p F.BOOT_WDOG_TIMEOUT = bitsOf v 0 16 then updBoot s fun b => { b with warned := false } else s
  | 0x031 =>
    if inside 0x0A0 0x0B0 then
      let b := n 0x0A0 4
      let on := s.flag pgSND F.SND_BUS_EN b
      if on = old.flag pgSND F.SND_BUS_EN b then s else busSwitched b on s
    else if off = 0x0C4 then firstUse s
    else if off = 0x0EC then ltcWritten s
    else if inside 0x060 0x0A0 ∧ off % 8 = 0 then
      let k := n 0x060 8
      if s.flag pgSND F.SND_AESCFG_EN k = old.flag pgSND F.SND_AESCFG_EN k then s else aesSwitched k s
    else s
  | 0x090 => if off = 0x040 ∧ linkOn s then s.emit (.airClock (s.get p F.AIR_LINK_CLKDIV)) else s
  | 0x023 => if inside 0x040 0x060 then trigWritten (n 0x040 4) old s else s
  | 0x040 => if off = 0x084 ∧ bitsOf v 8 1 = 1 then rdmGo (p - 0x40) a s else s
  | 0x080 => ethAfter 0 off old s
  | 0x088 =>
    if off = 0x040 ∧ s.flag p F.BRU_CFG_FLBOK ≠ old.flag p F.BRU_CFG_FLBOK then flbEnd (p - 0x88) s else s
  | 0x081 => ethAfter 1 off old s
  | 0x082 => if off = 0x060 ∨ off = 0x064 then ringMoved old (leadRing 0) s else s
  | 0x08C => if inside 0x0E0 0x0E8 then ringMoved old fabRx s else if inside 0x0F0 0x0F8 then ringMoved old fabTx s else s
  | 0x0B8 =>
    if inside 0x060 0x080 then
      let src := 228 + n 0x060 4
      if !levelCond old src && levelCond s src then arrive src s else s
    else if inside 0x100 0x500 then
      let k := n 0x100 4
      presentAll (srcEnabled (.shared k) (levelCond s k) old s)
    else s
  | 0x0C0 =>
    if off = 0x040 ∨ off = 0x044 then updBoot s fun b => { b with noEntry := b.noEntry.set (p - 0xC0) false }
    else if inside 0x100 0x180 then
      let k := n 0x100 4
      presentAll (srcEnabled (.priv (p - 0xC0) k) (k = 1 && drawerCond s (p - 0xC0)) old s)
    else s
  | _ => s

/-- A write of the register at an aligned offset of an assigned page (R68): reserved and read-only places ignore it, a command acts, and
the fields of any other register take their values under their classes. -/
def regWrite (a p off : Nat) (v : Word) (s : State) : State :=
  if off < 0x040 then hdrWrite a p off v s
  else if 0x800 ≤ off ∧ off < 0xC00 then s
  else match command a p off v with
    | some f => f s
    | none =>
      let fs := fieldsAt p off
      let (t, c) := stageFields a p off v (fs.filter fun f => f.eff = .commit && f.acc = .rw) s
      let (t, d) := putFields p off v (fs.filter fun f => f.eff = .atOnce && f.acc = .rw) t
      let u := after a p off v s t
      let code := if c = 0 then d else c
      if code = 0 then u else faultOver t p code off a u

/-! ### Bus accesses -/

/-- Writes whose handshake is withheld (R461, R490). -/
def withheld (s : State) : Nat := s.tsk.waiting.length + (s.que.qs.map (·.waits.length)).sum

/-- A write that led from one state to another is answered, unless its handshake is withheld. -/
def answered (s t : State) : State := if withheld s < withheld t then t else t.emit .writeDone

/-- A write on the bus to the register page window, at an offset of it, and the answer it gets (R6, R10). -/
def busWrite (a : BitVec 4) (off : Nat) (v : Word) (s : State) : State :=
  if !pageAccessOk (0x40000000 + off) 4 ∨ 2 ^ 24 ≤ off then s.emit .busError
  else answered s (regWrite a.toNat (off / 4096) (off % 4096) v s)

/-- A read on the bus of the register page window, at an offset of it, and the answer it gets (R6, R10). -/
def busRead (a : BitVec 4) (off : Nat) (s : State) : State :=
  if !pageAccessOk (0x40000000 + off) 4 ∨ 2 ^ 24 ≤ off then s.emit .busError
  else
    let (t, v) := regRead a.toNat (off / 4096) (off % 4096) s
    t.emit (.readData v)

end Sys2Proof.Machine
end

