-- ==== Sys2Proof/Machine/Frame.lean ====
section
/-!
DEFINITION. The instants of a frame (R18, R49 to R52, R59, R60, R84, R533): the frame start, the commit cutoff, the latch and T_end.
-/
namespace Sys2Proof.Machine
open Sys2Proof

/-! ### The frame start (R84) -/

/-- The FN whose FS comes next: M in a gap, E before output enable once it is fixed, otherwise the successor of the frame in progress. Before
a T_end no FS comes next (R59). -/
def nextFrame (s : State) : Option Nat :=
  if !s.boot.outEn then s.boot.enableAt
  else match s.time.gapM with
    | some m => some m
    | none => if changeDue s then none else some (s.time.fn + 1)

/-- Output enable at FS(E) (R533): the SERVICE hold ends, no latch(E−1) fires, so that every port takes its configuration up now and sends frame E under
it (R26), and pairing is judged from then on. -/
def outEnable (e : Nat) (s : State) : State :=
  let s := updBoot s fun b => { b with outEn := true, enableAt := none }
  let s := (stepEnded 14 (bootStatus 14 1 1 s)).evt pgBOOT 0
  let s := { s with outs := { s.outs with latch := List.replicate 16 { fn := e, seq := 1 },
                                          strands := s.outs.strands.map fun k => { k with latched := none } } }
  let s := (List.range 64).foldl (fun s p => takeUp p s) s
  let s := ppsIdle false (govOff (pairStart (refreshAll s)))
  -- R237: the first turn of a warm start
  if s.cal.turnDue then calRunStart none (updCal s fun c => { c with turnDue := false }) else s

/-- Instances that a commit makes configured or not (R137). -/
def confCommitted (old s : State) : State :=
  let sum := fun (x : State) => (x.get pgCOL F.COL_NINST, x.get pgCOL F.COL_INSTBASE_OFFSET, (List.range 256).map (dirWord x))
  if sum old = sum s then s else confNote (List.range (max (old.get pgCOL F.COL_NINST) (s.get pgCOL F.COL_NINST))) s

/-- Step 2 of R84 with what follows from new modes and configuration on the pages that it reaches. -/
def commitAtFs (n : Nat) (s : State) : State :=
  let old := s
  let s := fcFollow (applyCommit n s)
  let s := sqcAtFs n (ovrCommitted old (refreshAll (confCommitted old s)))
  let s := [0, 1].foldl (fun s i => dmaPageMode i s) s
  let s := [0, 1, 2, 3].foldl (fun s b => if old.get (pgBRU b) F.HDR_REQ_MODE = s.get (pgBRU b) F.HDR_REQ_MODE then s else flbEnd b s) s
  let s := [0, 1, 2, 3].foldl (fun s b => if (laneOf s b 0).state = 0 ∧ (laneOf s b 1).state = 0 then s else bruStop b s) s
  let s := ovrLeft old (sndLeft (tapsCommitted old (adcLeft (calLeft s))))
  -- FAB's own mode, and the groups that the veneers' rectangles name (R389, R390)
  if old.staged = s.staged then s else discEval s

/-- Step 3 of R84, the frame taken (R18): the state sweep's results and the veneers' buffers first, then preparation.
`left` counts the tiles that the frame before did not send. -/
def takeFrame (n left : Nat) (s : State) : State :=
  let s := thermalAtFs (colourTake s)
  let s := (List.range 16).foldl (fun s v => venTake v s) s
  let s := sleepAtFs (strandsAtFs (dimAtFs n s))
  let s := pubsAtFs n left (tapsAtFs s)
  trigAtFs (fcAtFs n s)

/-- The SLEEP holds of the ports of a group brought to what R515 gives. -/
def groupSleep (g : Nat) (s : State) : State :=
  (List.range 64).foldl (fun s p =>
    let want := s.pwr.groupsAsleep.getD g false && domainOn s (outDomain p)
    if portGroup s p = g ∧ (gangLead s p).isNone ∧ (strand s p).sleep ≠ want then
      settlePort p (refresh (pgSTD p) (updStrand s p fun k => { k with sleep := want }))
    else s) s

/-- The ports and groups whose latch before frame `n` fired in the gap of a change (R59): a port takes the configuration committed at FS(n) up at once
(R26), and a group's SLEEP begins or ends there (R515). A frame number that comes again after a step is another frame (R127). -/
def gapFs (n : Nat) (s : State) : State :=
  let s := (List.range 64).foldl (fun s p =>
    let s := if (strand s p).sqcFn = some n then updStrand s p fun k => { k with sqcFn := none } else s
    if (portNext s p).2 = s.time.seq ∧ (strand s p).dark = .none then darkStep p s else s) s
  (List.range 16).foldl (fun s g =>
    if (s.outs.latch.getD g {}).seq = s.time.seq then groupSleep g (dimAtLatch g (n - 1) s) else s) s

/-- FS(n): the sequence counter adds 1, and the three steps of R84 follow as one. -/
def frameStartAt (n : Nat) (s : State) : State :=
  let enabling := !s.boot.outEn
  let offs := (List.range 16).map fun g => s.get pgTIME F.TIME_LATOFF_OFFSET g
  let per := periodRat s
  let lats := (List.range 16).map fun g => s.reg pgEDGE (0x080 + 4 * g)
  let grid := fsOf s n
  let old := s
  let s := updTime s fun t => { t with fn := n, seq := if enabling then 1 else t.seq + 1, fsAt := s.st, fsFt := t.ft, gapM := none,
                                       offPrev := offs, latPrev := lats, fsGrid := grid, perNow := per, perPrev := t.perNow }
  let s := updPwr s fun p => { p with prepCut := false }
  let s := latchStats (lastResults (ovrFrames s))
  let s := commitAtFs n s
  let s := if enabling then outEnable n s else s
  let s := takeFrame n (tilesLeft old).length s
  let s := trigCommitted old (ovrUpdate ovrBound (settleAll (linksOff (pairOff (refreshAll (if enabling then s else gapFs n s))))))
  sleepGo (slewPhase s)

/-- FRAME_START: the next FS, where one comes next. -/
def frameStart (s : State) : State :=
  match nextFrame s with
  | some n => frameStartAt n s
  | none => s

/-! ### The commit cutoff (R52) -/

/-- The FN whose cutoff comes next: before output enable the one that FT gives. -/
def cutoffFn (s : State) : Nat :=
  if !s.boot.outEn then fnOf s (s.time.ft + leadUnits s) else s.time.gapM.getD (s.time.fn + 1)

/-- COMMIT_CUTOFF (R52, R83, R382, R520): a fabric commit that no FIRE has reached ends first; then the cutoff locks the commit that is
armed for it. -/
def commitCutoff (s : State) : State :=
  let n := cutoffFn s
  governor (fcFollow (lockAt n (fcCutoff n s)))

/-! ### The latch and T_end -/

/-- latch(n) of a group with what DIM does there. -/
def latchAt (g : Nat) (s : State) : State :=
  let n := (s.outs.latch.getD g {}).fn
  let fires := s.boot.outEn && (s.outs.latch.getD g {}).seq ≠ (nextLatch s).2
  let s := latchPulse g s
  if fires then sleepGo (groupSleep g (dimAtLatch g n s)) else s

/-- T_end of a mode change or a re-phase (R59), with any step held for it. -/
def modeChangeEnd (s : State) : State :=
  if s.boot.outEn ∧ changeDue s ∧ (s.flag pgTIME F.TIME_MODE_PEND ∨ s.time.rephase.isSome) then fcFollow (withStep (tEnd (frameEnd s)) s) else s

/-- T_end of a held step (R60). -/
def phaseStepEnd (s : State) : State :=
  if s.boot.outEn ∧ changeDue s ∧ s.time.heldStep.isSome then fcFollow (withStep (tEnd (frameEnd s)) s) else s

/-! ### Meanings -/

/-- FRAME_START (R84). -/
def execFrameStart (s : State) := act frameStart s
/-- COMMIT_CUTOFF (R52). -/
def execCommitCutoff (s : State) := act commitCutoff s
/-- LATCH_PULSE (R179). -/
def execLatchPulse (grp : Fin 16) (s : State) := act (latchAt grp) s
/-- MODE_CHANGE_T_END (R59). -/
def execModeChangeTEnd (s : State) := act modeChangeEnd s
/-- PHASE_STEP_T_END (R60). -/
def execPhaseStepTEnd (s : State) := act phaseStepEnd s

end Sys2Proof.Machine
end

