-- ==== Sys2Proof/Machine/Boot.lean ====
section
/-!
DEFINITION. A start (R529 to R548): the steps of the ROM and of the start sequencer, images, the copy journal, and the settings load.
-/
namespace Sys2Proof.Machine
open Sys2Proof

/-- The ROM's accesses (R74, R427). -/
abbrev romWho : Who := ⟨8, 18, 8, none⟩

/-! ### Images (R539, R540) -/

/-- Every byte of a range is 0. -/
def allZero (b : List Byte) (i n : Nat) : Bool := (slice b i n).all (· = 0)

/-- The used load sections of an image header (R539): offset, address and length. -/
def loadSections (h : List Byte) : List (Nat × Nat × Nat) :=
  (List.range 8).filterMap fun k =>
    let i := 64 + 16 * k
    let n := leVal (slice h (i + 12) 4)
    if n = 0 then none else some (leVal (slice h i 4), leVal (slice h (i + 4) 5), n)

/-- The entry address of a core (R539). -/
def imageEntry (h : List Byte) (c : Nat) : Nat := leVal (slice h (24 + 8 * c) 5)

/-- Whether a range of addresses may receive a load section (R540): in the SRAM or the frame store, clear of the ROM's work area. -/
def destOk (d n : Nat) : Bool :=
  (inRange .sram d n || inRange .fs d n) && (d + n ≤ 0x100F0000 || 0x10100000 ≤ d)

/-- No two destinations overlap. -/
def destsApart : List (Nat × Nat × Nat) → Bool
  | [] => true
  | (_, d, n) :: t => t.all (fun (_, e, m) => d + n ≤ e || e + m ≤ d) && destsApart t

/-- The failure of a header's own bytes (R540), 0 for none: HEADER, LENGTH or KEY. -/
def headerCode (s : State) (h : List Byte) : Nat :=
  let key := (h.getD 5 0).toNat
  let len := leVal (slice h 8 4)
  let zeros := allZero h 20 4 && allZero h 56 8 && ((List.range 4).all fun c => allZero h (29 + 8 * c) 3) &&
    ((List.range 8).all fun k => allZero h (73 + 16 * k) 3)
  if slice h 0 4 ≠ [0x43, 0x5A, 0x49, 0x4D] ∨ h.getD 4 0 ≠ 1 ∨ leVal (slice h 6 2) ≠ 0x9600 ∨ !zeros then 1
  else if len < 256 ∨ 0x600000 < len ∨ leVal (slice h 16 2) < leVal (slice h 18 2) then 2
  else if 4 ≤ key ∨ (Config.fuseKey key).isNone ∨ keysRevoked s / 2 ^ key % 2 = 1 then 3
  else 0

/-- The check of the image at an MRAM offset (R540): the first failure that applies, 0 for none, and its header. -/
def imageCheck (off : Nat) (s : State) : State × Nat × List Byte :=
  match mramRead off 256 s with
  | (s, none) => (s, 1, [])
  | (s, some h) =>
    let c := headerCode s h
    let len := leVal (slice h 8 4)
    if c ≠ 0 then (s, c, h)
    else match mramRead (off + 256) (len - 256) s with
      | (s, none) => (s, 4, h)
      | (s, some rest) =>
        let key := (Config.fuseKey (h.getD 5 0).toNat).getD []
        let l := loadSections h
        if !edVerify key (slice h 192 64) (h.take 192 ++ rest) then (s, 4, h)
        else if !(l.all fun (o, d, n) => decide (256 ≤ o ∧ o + n ≤ len) && destOk d n) || !destsApart l then (s, 5, h)
        else (s, 0, h)

/-! ### The copy journal (R542, R543) -/

/-- BOOT.JOURNAL brought up to date. -/
def showJournal (s : State) : State :=
  (s.set pgBOOT F.BOOT_JOURNAL_STATE s.boot.jState).set pgBOOT F.BOOT_JOURNAL_NEXT s.boot.jNext

/-- The journal in force read at a start. -/
def journalLoad (s : State) : State :=
  let (s, a, b) := readCopies 2 64 s
  showJournal (match newerCopy 0x435A434A 64 a b with
  | some (r, copyB) => updBoot s fun k =>
      { k with jState := if (r.getD 8 0).toNat ≤ 2 then (r.getD 8 0).toNat else 0, jVerified := r.getD 9 0 = 1, jLen := leVal (slice r 12 4),
               jNext := leVal (slice r 16 4), jSeq := (leVal (slice r 4 4) + 1) % 2 ^ 32, jB := !copyB }
  | none => updBoot s fun k => { k with jState := 0, jVerified := false, jLen := 0, jNext := 0, jSeq := 0, jB := false })

/-- The journal written, its copies in turn. -/
def journalWrite (st : Nat) (ver : Bool) (len next : Nat) (s : State) : State :=
  let b := sealRecord ([0x43, 0x5A, 0x43, 0x4A] ++ leBytes 4 s.boot.jSeq ++ [BitVec.ofNat 8 st, BitVec.ofNat 8 ver.toNat, 0, 0] ++ leBytes 4 len ++
    leBytes 4 next ++ List.replicate 40 0)
  let s := internalProg (recordPlace 2 s.boot.jB) b s
  showJournal (updBoot s fun k =>
    { k with jState := st, jVerified := ver, jLen := len, jNext := next, jSeq := (k.jSeq + 1) % 2 ^ 32, jB := !k.jB })

/-- The ROM's journal write: complete before the ROM goes on. -/
def romJournal (st : Nat) (len next : Nat) (s : State) : State := progsEnd (journalWrite st s.boot.jVerified len next s)

/-- Bytes the ROM has programmed into the MRAM. -/
def romProgram (off : Nat) (b : List Byte) (s : State) : State :=
  let cws := (List.range (b.length / 32 + 2)).map (off / 32 + ·) |>.filter fun c => c * 32 < off + b.length
  { s with mem := memPutAll s.mem (mramBase + off) b, mm := { s.mm with mramErr := cws.foldl amDel s.mm.mramErr } }

/-- The copy from NEXT on, in chunks of 64 KiB (R543); false: the bench could not be read. -/
def benchCopy : Nat → State → State × Bool
  | 0, s => (s, true)
  | n + 1, s =>
    let k := s.boot
    if k.jLen ≤ k.jNext then ((bootStatus 9 1 1 (romJournal 0 k.jLen k.jNext s)).evt pgBOOT 2, true)
    else match mramRead (0x600000 + k.jNext) 65536 s with
      | (s, none) => (s, false)
      | (s, some b) => benchCopy n (romJournal 2 k.jLen (k.jNext + 65536) (romProgram k.jNext b s))

/-- Step 4 (R543), once the journal has been read; false: a copy could not go on. -/
def stepCopy (s : State) : State × Bool :=
  match s.boot.jState with
  | 1 =>
    let (s, c, _) := imageCheck 0x600000 s
    if c ≠ 0 then (bootStatus 11 1 1 (romJournal 0 s.boot.jLen s.boot.jNext s), true)
    else benchCopy 98 (romJournal 2 s.boot.jLen 0 s)
  | 2 => benchCopy 98 (bootStatus 10 1 1 s)
  | _ => (s, true)

/-- Step 9 (R541): each used section copied in LOAD order; false: an uncorrectable read. -/
def loadImage : List (Nat × Nat × Nat) → State → State × Bool
  | [], s => (s, true)
  | (o, d, n) :: t, s =>
    match mramRead o n s with
    | (s, none) => (s, false)
    | (s, some b) => loadImage t (wr' romWho d b s)

/-! ### Settings (R545 to R548) -/

/-- A settings slot read: its header and body where it is valid (R546). -/
def settingsSlot (i : Nat) (s : State) : State × Option (List Byte × List Byte) :=
  let off := 0xC00000 + 0x80000 * i
  match mramRead off 64 s with
  | (s, none) => (s, none)
  | (s, some h) =>
    let n := leVal (slice h 12 4)
    if slice h 0 4 ≠ [0x43, 0x5A, 0x53, 0x54] ∨ leVal (slice h 56 4) ≠ (crc32 (h.take 56)).toNat ∨ n < 4 ∨ 524224 < n ∨ h.getD 63 0 ≠ 0 then (s, none)
    else match mramRead (off + 64) n s with
      | (s, none) => (s, none)
      | (s, some b) => (s, if leVal (slice h 16 4) = (crc32 b).toNat then some (h, b) else none)

/-- A register written by a settings record (R547): a staged field's value goes in force directly. -/
def settingsWrite (p off : Nat) (v : Word) (s : State) : State :=
  let t := regWrite 8 p off v { s with cmt := { s.cmt with owner := 8 } }
  { merged t with staged := [], cmt := { t.cmt with owner := 0 } }

/-- One register record: applied, or skipped and counted where it would fault (R547). -/
def settingsRecord (addr : Nat) (v : Word) (s : State) : State :=
  let p := addr / 4096
  if sysDown s then s
  else if 2 ^ 24 ≤ addr ∨ !pageAccessOk (0x40000000 + addr) 4 ∨ faultCode8 p (settingsWrite p (addr % 4096) v) s then
    s.set pgBOOT F.BOOT_SETINFO_SKIPPED (min 4095 (s.get pgBOOT F.BOOT_SETINFO_SKIPPED + 1))
  else settingsWrite p (addr % 4096) v s
where
  /-- The write records a fault on its page. -/
  faultCode8 (p : Nat) (f : State → State) (s : State) : Bool := (f (s.setReg p 0x018 0)).reg p 0x018 ≠ 0

/-- The pages whose records a foreign slot still applies (R548). -/
def keepsForeign (addr : Nat) : Bool := [0x080, 0x081, 0x082, 0x083, 0x08C].contains (addr / 4096)

/-- The records of a body, in order. -/
def settingsApply (keep : Nat → Bool) : Nat → List Byte → State → State
  | 0, _, s => s
  | n + 1, b, s =>
    let a := leVal (slice b 0 4)
    settingsApply keep n (b.drop 8) (if keep a then settingsRecord a (BitVec.ofNat 32 (leVal (slice b 4 4))) s else s)

/-- Step 10's settings load, for an image's oldest and newest schema. -/
def settingsLoad (lo hi : Nat) (s : State) : State :=
  let (s, a) := settingsSlot 0 s
  let (s, b) := settingsSlot 1 s
  let gen := fun (x : Option (List Byte × List Byte)) => match x with | some (h, _) => leVal (slice h 4 4) | none => 0
  let pick := match a, b with
    | none, none => none
    | some x, none => some (0, x)
    | none, some y => some (1, y)
    | some x, some y => if gen a < gen b then some (1, y) else some (0, x)
  match pick with
  | none => bootStatus 16 2 2 (bootStatus 8 1 1 s)
  | some (i, h, body) =>
    let schema := leVal (slice h 8 2)
    let n := min (leVal (slice body 0 4)) ((body.length - 4) / 8)
    let off := 0xC00000 + 0x80000 * i
    if schema < lo ∨ hi < schema then
      let s := settingsApply keepsForeign n (body.drop 4) s
      let s := romProgram (off + 63) [0x46] s
      withAttn (fun s => { s with svc := { s.svc with fallback := true } }) ((bootStatus 16 2 2 (bootStatus 7 1 1 s)).evt pgBOOT 1)
    else
      let s := settingsApply (fun _ => true) n (body.drop 4) s
      let s := ((s.set pgBOOT F.BOOT_SETINFO_SCHEMA schema).set pgBOOT F.BOOT_SETINFO_SLOT i).set pgBOOT F.BOOT_SETGEN_GEN (gen (some (h, body)))
      let s := (s.set pgBOOT F.BOOT_FWDATA_OFFSET (off + 68 + 8 * n)).set pgBOOT F.BOOT_FWDATALEN_LEN (body.length - 4 - 8 * n)
      bootStatus 16 2 i s

/-! ### Calibration at a start (R237) -/

/-- One bank's run of step 11: `hits` of its 63 windows per placer and physical tap, `applied` of its apply window. A rejected run keeps the
fuse tables. -/
def startBank (b : Nat) (hits applied : List (List Nat)) (s : State) : State :=
  let l := (List.range 36).map fun j => ((bankPins b).getD j 0, tapCompute (hits.getD j []))
  let s := s.bump pgCAL F.CAL_st_WINDOWS 63
  let reject := fun (pin : Nat) (s : State) => ((s.bump pgCAL F.CAL_st_REJECTS).evt pgCAL 1).fault pgCAL 0x40 pin 0
  match l.find? (·.2.isNone) with
  | some (pin, _) => reject pin s
  | none =>
    let s := s.bump pgCAL F.CAL_st_WINDOWS
    match (List.range 36).find? fun j => !widthsStand (applied.getD j []) with
    | some j => reject ((bankPins b).getD j 0) s
    | none =>
      let tabs := l.filterMap (·.2)
      let temp := dieByte s
      let s := tablesLoad b s.time.ft tabs s
      tablesMade b 2 temp (((calStore b temp tabs s).bump pgCAL F.CAL_st_RUNS).evt pgCAL 0)

/-! ### The steps (R530, R535, R537) -/

/-- What a start meets outside the model's own state: the straps, the results of the SRAM test, the DRAM training and the DRAM test, the µs at
which each step ends, and the hits of step 11 by bank. -/
structure StartIn where
  straps : Byte
  sramOk : Bool
  trainOk : Bool
  testOk : Bool
  ends : List Nat
  hits : List (List (List Nat))
  applied : List (List (List Nat))
  deriving DecidableEq, Repr

/-- The straps ask for SERVICE WAIT (R538). -/
def strapWait (x : StartIn) : Bool := x.straps.getLsbD 5 || x.straps.getLsbD 7

/-- F at a start (R535). -/
def failCount (s : State) : Nat := s.get pgBOOT F.BOOT_FAIL_COUNT

/-- Whether the failed-start count forces a cold start (R535). -/
def startForced (x : StartIn) (s : State) : Bool := 3 ≤ failCount s && failCount s ≤ 7 && !strapWait x

/-- Whether the start that is due runs cold (R529, R535). -/
def startCold (x : StartIn) (dueCold : Bool) (s : State) : Bool := dueCold || !s.boot.fsKept || startForced x s

/-- A step recorded as ended. -/
def romStep (x : StartIn) (n : Nat) (s : State) : State :=
  bootStatus 0 4 n (s.setReg pgBOOT (0xBFC + 4 * n) (BitVec.ofNat 32 (x.ends.getD (n - 1) 0)))

/-- SERVICE WAIT entered for a reason (R537): only AON, SYS and NVM are on. -/
def serviceWait (why : Nat) (s : State) : State :=
  withAttn (fun s => refreshAll (bootStatus 22 4 why (bootStatus 6 1 1 (maskOff ((updBoot s fun b => { b with svcWait := true }).set pgPMU F.PMU_DOMEFF_ON 0x203))))) s

/-- A step that fails, or that does not end in time (R529, R530): a cold start with cause ROMFAIL is due. -/
def romFail (s : State) : State := requestStart true 8 s

/-- Steps 2 and 3: the straps, the kind of start, and the time that it starts from (R44, R535, R538). The
HOLDOVER of a warm start sets no event (DESIGN CHOICE, notes/assumptions/81.md). -/
def startHead (x : StartIn) (cold forced : Bool) (cause : Nat) (s : State) : State :=
  let f := failCount s
  let s := updBoot s fun b => { b with due := none }
  let s := (maskOff (s.set pgPMU F.PMU_DOMEFF_ON 0x207)).set pgBOOT F.BOOT_STRAPS x.straps.toNat
  let s := s.set pgSVC F.SVC_CFG_RATE (if x.straps.getLsbD 6 then 3 else 0)
  let s :=
    if cold then s
    else
      let c := s.pwr.aonHold.getD 0
      updTime s fun t => { t with ft := s.pwr.aonFt + (s.pwr.rtc - s.pwr.aonRtc) * secUnits, servo := .holdover, corr := c, goal := c,
                                  holdFreq := s.pwr.aonHold }
  let s := bootStatus 4 1 cold.toNat (bootStatus 5 1 forced.toNat (bootStatus 26 4 cause s))
  let s := if cold ∧ (cause = 0 ∨ cause = 5) then romStep x 1 s else s
  let s := romStep x 3 (romStep x 2 s)
  let f := if strapWait x ∨ 8 ≤ f then f else min 15 (f + 1)
  bootStatus 18 4 f (s.set pgBOOT F.BOOT_FAIL_COUNT f)

/-- Steps 6 to 8 of a cold start: the SRAM and the frame store are tested and hold nothing after; a warm start finds the frame store as kept. -/
def startMemory (x : StartIn) (cold : Bool) (s : State) : State × Bool :=
  if cold then
    let s := { s with mem := s.mem.filter fun c => c.1 < sramBase ∨ (mramBase ≤ c.1 ∧ c.1 < fsBase), mm := { s.mm with ecc := [] } }
    let s := updPwr s fun p => { p with selfRef := false }
    if !x.sramOk then (s, false)
    else if !x.trainOk ∨ !x.testOk then (s, false)
    else
      let s := domOn 8 (romStep x 8 (romStep x 7 (romStep x 6 s)))
      (((s.set pgFS F.FS_TRAIN_DONE 1).set pgFS F.FS_TRAIN_PASS 1).set pgFS F.FS_TRAIN_TESTED 1, true)
  else (((domOn 8 s).set pgFS F.FS_TRAIN_DONE 1).set pgFS F.FS_TRAIN_PASS 1, true)

/-- Values that nothing constrains, for the registers the ROM leaves. -/
def freeRegs : Nat → State → State × List Dword
  | 0, s => (s, [])
  | n + 1, s =>
    let (s, v) := s.free
    let (s, l) := freeRegs n s
    (s, v :: l)

/-- The handover (R532): the other cores' entry points, the domains, and CPU0's jump. -/
def handOver (h : List Byte) (s : State) : State :=
  let s := [1, 2, 3].foldl (fun s c =>
    let e := imageEntry h c
    let s := (s.set (pgCPU c) F.CPU_RESETPCL_RESETPC (e % 2 ^ 32 / 2)).set (pgCPU c) F.CPU_RESETPCH_RESETPC (e / 2 ^ 32)
    updBoot s fun b => { b with noEntry := b.noEntry.set c (decide (e = 0)) }) s
  let s := updBoot s fun b => { b with handed := true }
  let s := updPwr s fun p => { p with req := s.get pgPMU F.PMU_DOMREQ_REQ ||| 3 }
  let (s, l) := freeRegs 31 s
  let s := (s.updCore 0 fun _ => { mode := .run, x := l, pc := BitVec.ofNat 64 (imageEntry h 0) }).evt (pgCPU 0) 0
  let s := [3, 4, 5, 6, 7, 8, 9, 10, 11, 12, 13, 14, 15].foldl (fun s d => if domWant s d then domOn d s else s) s
  presentAll (scheduling id (refreshAll (maskOff s)))

/-- The lifetime counters of a start (R525, R526): loaded, with this start counted, and the thermal trip that it follows. -/
def startLifetime (cold : Bool) (cause : Nat) (s : State) : State :=
  let s := loadLifetime s
  let trip := cause = 5 && s.flag pgPMU F.PMU_WAKECAUSE_THERMTRIP
  updPwr s fun p => if cold then { p with colds := p.colds + 1, trips := min 65535 (p.trips + trip.toNat) } else { p with warms := p.warms + 1 }

/-- The discovery record of the boot records (R534), as a warm start reads it. -/
def recordLoad (s : State) : State :=
  match mramRead (recordPlace 3 false) 24 s with
  | (s, some r) =>
    updFab s fun f => { f with record := if recordValid 0x435A4652 24 r then some (leVal (slice r 4 4), leVal (slice r 8 4), BitVec.ofNat 64 (beVal (slice r 12 8))) else none }
  | (s, none) => s

/-- What follows the end of step 10 (R530): time has run since the first step, step 11 of a cold start has run, and discovery may be skipped. -/
def startTail (x : StartIn) (cold : Bool) (s : State) : State :=
  let last := if cold then max (x.ends.getD 9 0) (x.ends.getD 10 0) else x.ends.getD 9 0
  let s := updBoot s fun b => { b with t0 := some s.time.ft, discWait := !cold && (recordLoad s).fab.record.isSome, calDone := true }
  let s := updTime s fun t => { t with ft := t.ft + last * 65536000, segStart := t.ft + last * 65536000 }
  let s := if cold then (List.range 4).foldl (fun s b => startBank b (x.hits.getD b []) (x.applied.getD b []) s) (romStep x 11 s)
    else (List.range 4).foldl (fun s b => calRunStart (some b) (storedBank b s)) (recordLoad s)
  -- the converter's calibration: in step 11, or at the first idle time after a warm start (R243); the instances of a kept frame store (R137)
  let s := updCal s fun c => { c with adcDue := true, turnDue := !cold }
  timeChanged (confNote (List.range (s.get pgCOL F.COL_NINST)) (adcIdle s))

/-- A start run (R530): the ROM's steps in order, each failure ending it as R530 and R537 give. The copy journal and the lifetime counters are read
first, so that a node in SERVICE WAIT goes on from them (R526, R542). -/
def startRun (x : StartIn) (cold forced : Bool) (cause : Nat) (s : State) : State :=
  let f := failCount s
  let s := startLifetime cold cause (journalLoad (startHead x cold forced cause s))
  if 8 ≤ f then serviceWait 2 s
  else if strapWait x then serviceWait 3 s
  else match stepCopy s with
    | (s, false) => romFail s
    | (s, true) =>
      let (s, c, h) := imageCheck 0 (romStep x 4 s)
      if c ≠ 0 then serviceWait 1 s
      else
        let s := (s.set pgBOOT F.BOOT_FWVER (leVal (slice h 12 4))).set pgBOOT F.BOOT_KEYS_USED (h.getD 5 0).toNat
        match startMemory x cold (romStep x 5 s) with
        | (s, false) => romFail s
        | (s, true) =>
          match loadImage (loadSections h) s with
          | (s, false) => romFail s
          | (s, true) =>
            let s := restoreOnce (settingsLoad (leVal (slice h 18 2)) (leVal (slice h 16 2)) (romStep x 9 s))
            if sysDown s then s else startTail x cold (handOver h (romStep x 10 s))

/-- The start that is due, where it is of a kind (R529): cold or warm. -/
def startOf (cold : Bool) (x : StartIn) (s : State) : State :=
  match s.boot.due with
  | none => s
  | some (dueCold, cause) =>
    if s.boot.resetLow ∨ s.boot.railOut ∨ startCold x dueCold s ≠ cold then s
    else startRun x cold (startForced x s) cause s

/-- ROM_TIMEOUT (R530): steps 2 to 10 of the start that is due do not end within 5 s; step 3 has counted it. -/
def romTimeout (s : State) : State :=
  if s.boot.due.isNone ∨ s.boot.resetLow ∨ s.boot.railOut then s
  else
    let f := failCount s
    romFail (s.set pgBOOT F.BOOT_FAIL_COUNT (if 8 ≤ f then f else f + 1))

/-- DISCOVERY_WAIT_EXPIRY (R534): 50 ms after step 13 of a warm start. -/
def discoveryWait (s : State) : State :=
  if !s.boot.discWait then s
  else
    let s := updBoot s fun b => { b with discWait := false }
    let ups := bruPorts.filter fun b => (bruOf s b).up
    match s.fab.record with
    | none => s
    | some (n, m, hash) =>
      if ups.isEmpty ∨ !fabOn s ∨ !(ups.all fun b => beVal (slice (bruOf s b).ctrlRx 32 8) = hash.toNat) then s
      else
        let s := updFab s fun f => { f with cluster := some (n / 256), member := some m, lastMember := m, disc := 4 }
        bootStatus 13 1 1 (fabSync (topoChange s))

/-! ### Meanings -/

/-- COLD_START (R530): with the straps, the results of the SRAM test, the DRAM training and the DRAM test, the µs at which each step ends, and the
hits of step 11 by bank, placer and tap, in its windows and in its apply window. -/
def execColdStart (straps : Byte) (sramOk trainOk testOk : Bool) (ends : List Nat) (hits applied : List (List (List Nat))) (s : State) :=
  act (startOf true ⟨straps, sramOk, trainOk, testOk, ends, hits, applied⟩) s
/-- WARM_START (R530). -/
def execWarmStart (straps : Byte) (ends : List Nat) (s : State) := act (startOf false ⟨straps, true, true, true, ends, [], []⟩) s
/-- ROM_TIMEOUT (R530). -/
def execRomTimeout (s : State) := act romTimeout s
/-- DISCOVERY_WAIT_EXPIRY (R534). -/
def execDiscoveryWaitExpiry (s : State) := act discoveryWait s

end Sys2Proof.Machine
end

