-- ==== Sys2Proof/Machine/Cane.lean ====
section
/-!
DEFINITION. The operations that the Cane responder and the service port execute on registers (R303, R304, R552), and the responder (R298 to
R307, R499).
-/
namespace Sys2Proof.Machine
open Sys2Proof

/-! ### Operations on registers (R303) -/

/-- The STATUS record of 80 bytes (R304), as an agent reads it. -/
def statusRecord (a : Nat) (s : State) : List Byte :=
  let r := fun p off => beBytes 4 (regView s a p off).toNat
  let servo := (regView s a pgTIME 0x0B8).toNat
  let pair := regView s a pgPAIR (F.PAIR_STAT_LEAD.off)
  let lead := bitsOf pair F.PAIR_STAT_LEAD.lsb 1
  let up := fun (x : Nat) => (ethOf s x).up.toNat
  let sick := fun (x : Nat) => (isSick s x).toNat
  let fn := if s.boot.outEn then s.time.fn else fnOf s s.time.ft
  r pgSYS 0x050 ++ r pgSYS 0x04C ++ beBytes 4 ((nodeId s).getD 0) ++ r pgSYS 0x044 ++
  [BitVec.ofNat 8 (regView s a pgSYS 0x048).toNat,
   BitVec.ofNat 8 (servo % 4 + servo / 256 % 2 * 4 + servo / 512 % 2 * 8),
   BitVec.ofNat 8 (s.cmt.mode.code + s.get pgCMT F.CMT_RESULT_CODE * 16), BitVec.ofNat 8 s.cmt.owner] ++
  beBytes 6 fn ++ [0, 0] ++ beBytes 4 s.time.seq.toNat ++ r pgSYS 0x024 ++ r pgBOOT 0x040 ++
  [BitVec.ofNat 8 (lead + up 0 * 2 + up 1 * 4 + sick 0 * 8 + sick 1 * 16), 0, 0, 0, 0, 0, 0, 0] ++
  (List.range 8).flatMap fun w => r pgSYS (0xC00 + 4 * w)

/-- What PAGESTATE says of a page, from `EFF` and never from `REQ` (R303). -/
def pageStateItem (s : State) (p : Nat) : List Byte :=
  if !assigned p then [0, 0, 0, 0]
  else
    [BitVec.ofNat 8 (effMode s p), BitVec.ofNat 8 (s.get p F.HDR_EFF_HOLD),
     BitVec.ofNat 8 ((s.flag p F.HDR_EFF_MISMATCH).toNat + 2 * (pagePend s p).toNat), 0]

/-- One register read for an item: the value, or none for a bus error. -/
def readItem (a addr : Nat) (s : State) : State × Option Word :=
  if 2 ^ 24 ≤ addr ∨ !pageAccessOk (0x40000000 + addr) 4 then (s, none)
  else
    let (s, v) := regRead a (addr / 4096) (addr % 4096) s
    (s, some v)

/-- The fault code that a write records on its page (R67), 0 for none: that of the same write on a page with no fault recorded. -/
def faultCode (p : Nat) (f : State → State) (s : State) : Nat :=
  bitsOf ((f ((s.setReg p 0x018 0).setReg p 0x01C 0)).reg p 0x018) 0 8

/-- One register written for an item by `w`: its item status and fault code (R303). -/
def writeItem (w : Nat → Nat → Word → State → State) (addr : Nat) (v : Word) (s : State) : State × Nat × Nat :=
  if 2 ^ 24 ≤ addr ∨ !pageAccessOk (0x40000000 + addr) 4 then (s, 1, 0)
  else
    let p := addr / 4096
    let f := w p (addr % 4096) v
    let c := if addr % 4096 = 0x018 then 0 else faultCode p f s
    (f s, if c = 0 then 0 else 2, c)

/-- READREG's items in body order, with whether one failed. -/
def readItems (a : Nat) : List Nat → State → State × List Byte × Bool
  | [], s => (s, [], false)
  | x :: t, s =>
    let (s, v) := readItem a x s
    let (s, b, e) := readItems a t s
    (s, (match v with | some v => [0, 0, 0, 0] ++ beBytes 4 v.toNat | none => [1, 0, 0, 0, 0, 0, 0, 0]) ++ b, e || v.isNone)

/-- The items after a write whose handshake is withheld, kept by the responder of agent code `a` (R301, R552). -/
def keepItems (a : Nat) (left : List (Nat × Nat)) (s : State) : State :=
  if a = 5 then { s with net := { s.net with cane := { s.net.cane with held := some { left := left } } } }
  else { s with svc := { s.svc with held := some { left := left } } }

/-- What the reply says of a written item: its status and fault code (R303). -/
def itemBytes (st c : Nat) : List Byte := [BitVec.ofNat 8 st, BitVec.ofNat 8 c, 0, 0]

/-- WRITEREG's items in body order, each once the last has completed; a write that begins a restart, or whose handshake is withheld, is the last
for now. -/
def writeItems (a : Nat) (w : Nat → Nat → Word → State → State) : List (Nat × Nat) → State → State × List Byte × Bool
  | [], s => (s, [], false)
  | (x, v) :: t, s =>
    if sysDown s then (s, [], false)
    else
      let n := withheld s
      let (s, st, c) := writeItem w x (BitVec.ofNat 32 v) s
      if n < withheld s then (keepItems a t s, [], false)
      else
        let (s, b, e) := writeItems a w t s
        (s, itemBytes st c ++ b, e || st ≠ 0)

/-- READBLOCK's words, up to the first that fails: the values, zeros from there on. -/
def readBlock (a : Nat) : Nat → Nat → State → State × List Byte × Bool
  | 0, _, s => (s, [], false)
  | n + 1, x, s =>
    match readItem a x s with
    | (s, none) => (s, List.replicate (4 * (n + 1)) 0, true)
    | (s, some v) =>
      let (s, b, e) := readBlock a n (x + 4) s
      (s, beBytes 4 v.toNat ++ b, e)

/-- A body cut into words, most significant byte first. -/
def bodyWords : Nat → List Byte → List Nat
  | 0, _ => []
  | n + 1, b => beVal (b.take 4) :: bodyWords n (b.drop 4)

/-- Pairs of neighbours in a list. -/
def pairUp : List Nat → List (Nat × Nat)
  | a :: b :: t => (a, b) :: pairUp t
  | _ => []

/-- The number of items of a body, where its length suits items of `k` bytes, 1 to 64 of them. -/
def itemsOk (k n : Nat) : Bool := n % k = 0 && 1 ≤ n / k && n / k ≤ 64

/-- Whether a body suits an operation 0x01 to 0x05 (R302, R303). -/
def bodyOk (op : Nat) (b : List Byte) : Bool :=
  match op with
  | 1 => b.isEmpty
  | 2 => itemsOk 2 b.length
  | 3 => itemsOk 4 b.length
  | 4 => itemsOk 8 b.length
  | 5 => b.length = 8 && 1 ≤ beVal (slice b 4 2) && beVal (slice b 4 2) ≤ 256
  | _ => false

/-- An operation 0x01 to 0x05 executed by an agent whose register writes are `w`: the STATUS, OK or ITEMERR, and the reply body. -/
def regOp (a : Nat) (w : Nat → Nat → Word → State → State) (op : Nat) (b : List Byte) (s : State) : State × Nat × List Byte :=
  let done := fun ((s, l, e) : State × List Byte × Bool) => (s, e.toNat, l)
  match op with
  | 1 => (s, 0, statusRecord a s)
  | 2 => (s, 0, (List.range (b.length / 2)).flatMap fun i => pageStateItem s (beVal (slice b (2 * i) 2)))
  | 3 => done (readItems a (bodyWords (b.length / 4) b) s)
  | 4 => done (writeItems a w (pairUp (bodyWords (b.length / 4) b)) s)
  | _ =>
    let g := fun (s : State) => beBytes 4 (s.reg pgSYS 0x024).toNat
    let before := g s
    let (s, l, e) := readBlock a (beVal (slice b 4 2)) (beVal (slice b 0 4)) s
    (s, e.toNat, before ++ g s ++ [BitVec.ofNat 8 e.toNat, 0, 0, 0] ++ l)

/-! ### The Cane responder -/

/-- The responder changed. -/
def updCane (s : State) (f : CaneState → CaneState) : State := { s with net := { s.net with cane := f s.net.cane } }

/-- A register write by the responder for a sender (R305). While another sender owns the staging set through the responder, a CLAIM, a RELEASE and
the write of a staged field are refused as another agent's would be; a claim or a seizure that succeeds makes the sender the owner. -/
def caneWrite (sender p off : Nat) (v : Word) (s : State) : State :=
  let foreign := s.cmt.owner = 5 && s.net.cane.owner ≠ some sender
  let seizes := p = pgCMT && off = 0x040 && bitsOf v 8 2 = 0 && bitsOf v 10 1 = 1
  let bars := foreign && (p ≠ pgCMT || (off = 0x040 && !seizes))
  let before := s.cmt.owner
  let s :=
    if bars then
      let t := regWrite 5 p off v { s with cmt := { s.cmt with owner := 6 } }
      if t.cmt.owner = 6 then { t with cmt := { t.cmt with owner := 5 } } else t
    else regWrite 5 p off v s
  if s.cmt.owner ≠ 5 then updCane s fun c => { c with owner := none }
  else if seizes ∨ before ≠ 5 then updCane s fun c => { c with owner := some sender }
  else s

/-- Whether TSEC and TNS lie within `WINDOW` ms of FT, seconds compared modulo 2^32 (R299). -/
def inWindow (s : State) (m : List Byte) : Bool :=
  let sec := s.time.ft / secUnits
  let ns : Int := s.time.ft / 65536 % 1000000000
  let d : Int := signed 32 (toField 32 ((sec : Int) - beVal (slice m 20 4))) * 1000000000 + (ns - beVal (slice m 24 4))
  d.natAbs ≤ s.get pgCANE F.CANE_WINDOW * 1000000

/-- A message on its way to the source of a request (R301, R387). -/
def caneSend (r : CaneReq) (m : List Byte) (s : State) : State :=
  let s := s.bump pgCANE F.CANE_st_REPLIES
  if r.path = 2 then sendUnicast 3 r.own 0x30 m s
  else
    let port := s.get pgCANE F.CANE_CFG_PORT
    let (t, fa) := udpFrame 0 r.mac r.ip port r.port m s
    let (_, fb) := udpFrame 1 r.mac r.ip port r.port m s
    queueLead 3 (fun y => if y = 0 then fa else fb) t

/-- The reply to a request (R298, R302): sent and kept, unless the sender wants none. -/
def caneReply (r : CaneReq) (key : List Byte) (status : Nat) (body : List Byte) (s : State) : State :=
  let m := r.msg
  if (m.getD 4 0).getLsbD 1 then s
  else
    let h := [0x43, 0x4E, 1, m.getD 3 0, 1, BitVec.ofNat 8 status, m.getD 6 0, 0] ++ beBytes 8 Config.serial.toNat ++ slice m 16 4 ++
      beBytes 4 (s.time.ft / secUnits) ++ beBytes 4 (s.time.ft / 65536 % 1000000000) ++ beBytes 2 body.length ++ [0, 0] ++ body
    let out := h ++ caneTag key h
    let tag := m.drop (m.length - 16)
    let s := updCane s fun c =>
      { c with tags := c.tags.map fun (t, f) => if t = tag then (t, some s.time.ft) else (t, f), replies := (tag, r, out) :: c.replies }
    caneSend r out s

/-- The tag of an authenticated request kept: those of the last 64, and the replies to the last 16 (R300). -/
def keepTag (tag : List Byte) (c : CaneState) : CaneState :=
  let tags := ((tag, none) :: c.tags).take 64
  { c with tags := tags, replies := c.replies.filter fun (t, _) => (tags.take 16).any (·.1 = t) }

/-- A repeat (R300): a twin is discarded, a kept reply sent again. -/
def caneRepeat (tag : List Byte) (first : Option Nat) (s : State) : State :=
  let twin : Bool := match first with
    | some t => decide (s.time.ft < t + s.get pgCANE F.CANE_DUPWIN * 65536000)
    | none => true
  if twin then s.bump pgCANE F.CANE_st_DUPS
  else match s.net.cane.replies.find? (·.1 = tag) with
    | some (_, r, out) => caneSend r out (s.bump pgCANE F.CANE_st_DUPS)
    | none => (s.bump pgCANE F.CANE_st_REPLAYS).evt pgCANE 2

/-- A request's items done: the reply, or, where a write's handshake is withheld, the request kept in progress (R301). -/
def caneDone (r : CaneReq) (key : List Byte) (status : Nat) (out : List Byte) (s : State) : State :=
  if sysDown s then s
  else match s.net.cane.held with
    | some h => updCane s fun c => { c with held := some { h with out := out, bad := status ≠ 0 }, heldReq := some (r, key) }
    | none => caneReply r key status out (s.bump pgCANE F.CANE_st_REQUESTS)

/-- The sender of a message (R298). -/
def senderOf (r : CaneReq) : Nat := beVal (slice r.msg 8 8)

/-- The request in progress goes on where its withheld write has ended (R301). -/
def caneResume (s : State) : State :=
  match s.net.cane.held, s.net.cane.heldReq with
  | some ⟨left, out, bad, some code⟩, some (r, key) =>
    let s := updCane s fun c => { c with held := none, heldReq := none }
    let (s, l, e) := writeItems 5 (caneWrite (senderOf r)) left s
    caneDone r key (bad || code ≠ 0 || e).toNat (out ++ itemBytes (if code = 0 then 0 else 2) code ++ l) s
  | _, _ => s

/-- An authenticated request executed (R302, R303, R307). -/
def caneExec (r : CaneReq) (key : List Byte) (s : State) : State :=
  let m := r.msg
  let op := (m.getD 3 0).toNat
  let body := slice m 32 (m.length - 48)
  if 0x80 ≤ op then
    let s := (s.bump pgCANE F.CANE_st_FWOPS).evt pgCANE 4
    if r.path = 2 then fabRing r.frame 32 s
    else toRing r.path (s.get (pgETH r.path) F.ETH_RINGSEL_CANE) r.frame 6 32 r.ts false s
  else if op = 0 ∨ 5 < op then caneReply r key 2 [] s
  else if !bodyOk op body then caneReply r key 3 [] (s.bump pgCANE F.CANE_st_BADLEN)
  else
    let (s, status, out) := regOp 5 (caneWrite (senderOf r)) op body s
    caneDone r key status out s

/-- One request checked (R298, R299) and executed. -/
def caneRequest (r : CaneReq) (s : State) : State :=
  let m := r.msg
  let n := m.length
  if n < 48 ∨ 1448 < n ∨ n ≠ 48 + beVal (slice m 28 2) then s.bump pgCANE F.CANE_st_BADLEN
  else
    let key := if 2 ≤ (m.getD 6 0).toNat then none else caneKey s (m.getD 6 0).toNat
    match key with
    | none => s.bump pgCANE F.CANE_st_AUTHFAIL
    | some key =>
      let tag := m.drop (n - 16)
      if slice m 0 3 ≠ [0x43, 0x4E, 1] ∨ (m.getD 4 0).getLsbD 0 then s.bump pgCANE F.CANE_st_AUTHFAIL
      else if caneTag key (m.take (n - 16)) ≠ tag then (s.bump pgCANE F.CANE_st_AUTHFAIL).evt pgCANE 0
      else match s.net.cane.tags.find? (·.1 = tag) with
        | some (_, first) => caneRepeat tag first s
        | none =>
          let s := updCane s (keepTag tag)
          if timeValid s ∧ !inWindow s m then caneReply r key 4 [] ((s.bump pgCANE F.CANE_st_TIMEWIN).evt pgCANE 1)
          else caneExec r key s

/-- The responder takes the request at the front of its store (R301); a tunnelled one that waited may then enter. -/
def caneTake (s : State) : State :=
  match s.net.cane.store with
  | [] => s
  | r :: t =>
    let s := updCane s fun c => { c with store := t }
    let s := if inRun s pgCANE then caneRequest r s else s
    if sysDown s then s else caneRefill s

/-- A request in progress goes on first, since the responder handles one at a time (R301). -/
def caneFree (f : State → State) (s : State) : State :=
  let s := caneResume s
  if s.net.cane.held.isSome ∨ sysDown s then s else f s

/-- The responder takes the request at the front of its store, where its OP is one of those given. -/
def caneOp (ok : Nat → Bool) : State → State :=
  caneFree fun s =>
    match s.net.cane.store with
    | [] => s
    | r :: _ => if ok (r.msg.getD 3 0).toNat then caneTake s else s

/-- LEASE ms have passed with no request from the owning sender (R305). -/
def leaseExpire (s : State) : State :=
  if s.cmt.owner ≠ 5 then s
  else setOwner 0 ((updCane s fun c => { c with owner := none }).evt pgCANE 3)

/-- A tunnelled request arrives (R387); one that finds the responder free is executed at once. -/
def tunnelled (port : Nat) (b : List Byte) (s : State) : State :=
  let free := s.net.cane.store.isEmpty
  let s := bundleIn (some port) none b [] s
  if free ∧ (b.getD 8 0).toNat = 0x30 then caneFree caneTake s else s

/-- A frame received from a port's line, with the wake that a filter's match asks for (R282, R284, R517). -/
def frameIn (x t : Nat) (f : List Byte) (full : Bool) (s : State) : State :=
  -- in TEST the port hears its own loopback alone (R312)
  let s := if effMode s (pgETH x) = 3 then s else ethReceive x t f full s
  if s.net.wake then wake 4 { s with net := { s.net with wake := false } } else s

/-! ### Meanings -/

/-- ETH_FRAME_RECEIVE (R282): a frame with its FCS, its FT of arrival, and whether its consumer's input store was full. -/
def execEthFrameReceive (port : Fin 2) (t : Nat) (frame : List Byte) (full : Bool) (s : State) := act (frameIn port t frame full) s
/-- CANE_STATUS (R304): the responder takes the STATUS request at the front of its store. -/
def execCaneStatus (s : State) := act (caneOp (· = 1)) s
/-- CANE_PAGESTATE (R303). -/
def execCanePagestate (s : State) := act (caneOp (· = 2)) s
/-- CANE_READREG (R303). -/
def execCaneReadreg (s : State) := act (caneOp (· = 3)) s
/-- CANE_WRITEREG (R303). -/
def execCaneWritereg (s : State) := act (caneOp (· = 4)) s
/-- CANE_READBLOCK (R303). -/
def execCaneReadblock (s : State) := act (caneOp (· = 5)) s
/-- CANE_FIRMWARE_OP (R307). -/
def execCaneFirmwareOp (s : State) := act (caneOp (0x80 ≤ ·)) s
/-- CANE_BAD_OP (R302). -/
def execCaneBadOp (s : State) := act (caneOp fun op => op = 0 || (6 ≤ op && op < 0x80)) s
/-- CANE_LEASE_EXPIRY (R305). -/
def execCaneLeaseExpiry (s : State) := act leaseExpire s
/-- TUNNELLED_CANE_RECEIVE (R387). -/
def execTunnelledCaneReceive (port : Fin 4) (b : List Byte) (s : State) := act (tunnelled port b) s

end Sys2Proof.Machine
end

