-- ==== Sys2Proof/Machine/Cpu.lean ====
section
/-!
DEFINITION. The control cores (R468 to R473): RV64IMAC with Zicsr and Zifencei in machine and user mode, physical memory
protection, exceptions, the Damten CSRs and DTRET, and the entry and exit sequences of events (R479 to R481).
-/
namespace Sys2Proof.Machine
open Sys2Proof

/-! ### Instruction fields -/

/-- The `n` bits of an instruction from bit `lo` up. -/
def ibits (w lo n : Nat) : Nat := w / 2 ^ lo % 2 ^ n

/-- A doubleword that sign-extends an `n`-bit number. -/
def sext64 (n v : Nat) : Dword := BitVec.ofInt 64 (signed n v)

/-- The low word of a doubleword, sign-extended. -/
def sextWord (v : Dword) : Dword := (v.setWidth 32).signExtend 64

/-- The I-type immediate. -/
def immI (w : Nat) : Dword := sext64 12 (ibits w 20 12)
/-- The S-type immediate. -/
def immS (w : Nat) : Dword := sext64 12 (ibits w 25 7 * 32 + ibits w 7 5)
/-- The B-type immediate. -/
def immB (w : Nat) : Dword := sext64 13 (ibits w 31 1 * 0x1000 + ibits w 7 1 * 0x800 + ibits w 25 6 * 32 + ibits w 8 4 * 2)
/-- The U-type immediate. -/
def immU (w : Nat) : Dword := sext64 32 (ibits w 12 20 * 0x1000)
/-- The J-type immediate. -/
def immJ (w : Nat) : Dword := sext64 21 (ibits w 31 1 * 0x100000 + ibits w 12 8 * 0x1000 + ibits w 20 1 * 0x800 + ibits w 21 10 * 2)

/-- An R-type word. -/
def encR (op rd f3 rs1 rs2 f7 : Nat) : Nat := op + rd * 2 ^ 7 + f3 * 2 ^ 12 + rs1 * 2 ^ 15 + rs2 * 2 ^ 20 + f7 * 2 ^ 25
/-- An I-type word; the immediate is taken modulo 2^12. -/
def encI (op rd f3 rs1 imm : Nat) : Nat := op + rd * 2 ^ 7 + f3 * 2 ^ 12 + rs1 * 2 ^ 15 + imm % 0x1000 * 2 ^ 20
/-- An S-type word. -/
def encS (op f3 rs1 rs2 imm : Nat) : Nat := encR op (imm % 32) f3 rs1 rs2 (imm / 32 % 128)
/-- A J-type word of JAL; the offset is taken modulo 2^21. -/
def encJ (rd off : Nat) : Nat :=
  0x6F + rd * 2 ^ 7 + ibits off 12 8 * 2 ^ 12 + ibits off 11 1 * 2 ^ 20 + ibits off 1 10 * 2 ^ 21 + ibits off 20 1 * 2 ^ 31
/-- A B-type word; the offset is taken modulo 2^13. -/
def encB (f3 rs1 rs2 off : Nat) : Nat :=
  encR 0x63 (ibits off 1 4 * 2 + ibits off 11 1) f3 rs1 rs2 (ibits off 12 1 * 64 + ibits off 5 6)
/-- A signed `n`-bit immediate as the same number modulo 2^32. -/
def wide (n v : Nat) : Nat := toField 32 (signed n v)

/-- The 32-bit instruction that a 16-bit one of extension C stands for (R468); none where it is reserved or of a floating-point
extension. -/
def expand (h : Nat) : Option Nat :=
  let rd := ibits h 7 5
  let rs2 := ibits h 2 5
  let rdP := 8 + ibits h 2 3
  let rsP := 8 + ibits h 7 3
  let imm6 := wide 6 (ibits h 12 1 * 32 + ibits h 2 5)
  let sh := ibits h 12 1 * 32 + ibits h 2 5
  let offW := ibits h 10 3 * 8 + ibits h 6 1 * 4 + ibits h 5 1 * 64
  let offD := ibits h 10 3 * 8 + ibits h 5 2 * 64
  match h % 4, h / 2 ^ 13 with
  | 0, 0 =>
    let i := ibits h 11 2 * 16 + ibits h 7 4 * 64 + ibits h 6 1 * 4 + ibits h 5 1 * 8
    if i = 0 then none else some (encI 0x13 rdP 0 2 i)
  | 0, 2 => some (encI 0x03 rdP 2 rsP offW)
  | 0, 3 => some (encI 0x03 rdP 3 rsP offD)
  | 0, 6 => some (encS 0x23 2 rsP rdP offW)
  | 0, 7 => some (encS 0x23 3 rsP rdP offD)
  | 1, 0 => some (encI 0x13 rd 0 rd imm6)
  | 1, 1 => if rd = 0 then none else some (encI 0x1B rd 0 rd imm6)
  | 1, 2 => some (encI 0x13 rd 0 0 imm6)
  | 1, 3 =>
    if rd = 2 then
      let i := ibits h 12 1 * 512 + ibits h 6 1 * 16 + ibits h 5 1 * 64 + ibits h 3 2 * 128 + ibits h 2 1 * 32
      if i = 0 then none else some (encI 0x13 2 0 2 (wide 10 i))
    else if sh = 0 then none
    else some (0x37 + rd * 2 ^ 7 + imm6 % 2 ^ 20 * 2 ^ 12)
  | 1, 4 =>
    match ibits h 10 2 with
    | 0 => some (encI 0x13 rsP 5 rsP sh)
    | 1 => some (encI 0x13 rsP 5 rsP (sh + 0x400))
    | 2 => some (encI 0x13 rsP 7 rsP imm6)
    | _ =>
      match ibits h 12 1, ibits h 5 2 with
      | 0, 0 => some (encR 0x33 rsP 0 rsP rdP 0x20)
      | 0, 1 => some (encR 0x33 rsP 4 rsP rdP 0)
      | 0, 2 => some (encR 0x33 rsP 6 rsP rdP 0)
      | 0, _ => some (encR 0x33 rsP 7 rsP rdP 0)
      | _, 0 => some (encR 0x3B rsP 0 rsP rdP 0x20)
      | _, 1 => some (encR 0x3B rsP 0 rsP rdP 0)
      | _, _ => none
  | 1, 5 =>
    some (encJ 0 (wide 12 (ibits h 12 1 * 0x800 + ibits h 11 1 * 16 + ibits h 9 2 * 256 + ibits h 8 1 * 1024 + ibits h 7 1 * 64 +
      ibits h 6 1 * 128 + ibits h 3 3 * 2 + ibits h 2 1 * 32)))
  | 1, f =>
    some (encB (f - 6) rsP 0 (wide 9 (ibits h 12 1 * 256 + ibits h 10 2 * 8 + ibits h 5 2 * 64 + ibits h 3 2 * 2 + ibits h 2 1 * 32)))
  | 2, 0 => some (encI 0x13 rd 1 rd sh)
  | 2, 2 => if rd = 0 then none else some (encI 0x03 rd 2 2 (ibits h 12 1 * 32 + ibits h 4 3 * 4 + ibits h 2 2 * 64))
  | 2, 3 => if rd = 0 then none else some (encI 0x03 rd 3 2 (ibits h 12 1 * 32 + ibits h 5 2 * 8 + ibits h 2 3 * 64))
  | 2, 4 =>
    if ibits h 12 1 = 0 then
      if rs2 ≠ 0 then some (encR 0x33 rd 0 0 rs2 0) else if rd = 0 then none else some (encI 0x67 0 0 rd 0)
    else if rs2 ≠ 0 then some (encR 0x33 rd 0 rd rs2 0)
    else if rd = 0 then some 0x00100073 else some (encI 0x67 1 0 rd 0)
  | 2, 6 => some (encS 0x23 2 2 rs2 (ibits h 9 4 * 4 + ibits h 7 2 * 64))
  | 2, 7 => some (encS 0x23 3 2 rs2 (ibits h 10 3 * 8 + ibits h 7 3 * 64))
  | _, _ => none

/-! ### Arithmetic (I and M) -/

/-- Signed quotient rounded towards zero, with the results of the architecture for a zero divisor and for overflow. -/
def rvDiv (n : Nat) (a b : Int) : Int := if b = 0 then -1 else if a = -(2 ^ (n - 1) : Nat) ∧ b = -1 then a else Int.tdiv a b
/-- Signed remainder, with the results of the architecture for a zero divisor and for overflow. -/
def rvRem (n : Nat) (a b : Int) : Int := if b = 0 then a else if a = -(2 ^ (n - 1) : Nat) ∧ b = -1 then 0 else Int.tmod a b

/-- The 64-bit operations of extension M, by funct3. -/
def mulDiv (f3 : Nat) (a b : Dword) : Dword :=
  match f3 with
  | 0 => a * b
  | 1 => BitVec.ofInt 64 (a.toInt * b.toInt / 2 ^ 64)
  | 2 => BitVec.ofInt 64 (a.toInt * (b.toNat : Int) / 2 ^ 64)
  | 3 => BitVec.ofNat 64 (a.toNat * b.toNat / 2 ^ 64)
  | 4 => BitVec.ofInt 64 (rvDiv 64 a.toInt b.toInt)
  | 5 => if b = 0 then BitVec.ofInt 64 (-1) else BitVec.ofNat 64 (a.toNat / b.toNat)
  | 6 => BitVec.ofInt 64 (rvRem 64 a.toInt b.toInt)
  | _ => if b = 0 then a else BitVec.ofNat 64 (a.toNat % b.toNat)

/-- The 32-bit operations of extension M, by funct3; none where the encoding is reserved. -/
def mulDivW (f3 : Nat) (a b : Word) : Option Word :=
  match f3 with
  | 0 => some (a * b)
  | 4 => some (BitVec.ofInt 32 (rvDiv 32 a.toInt b.toInt))
  | 5 => some (if b = 0 then BitVec.ofInt 32 (-1) else BitVec.ofNat 32 (a.toNat / b.toNat))
  | 6 => some (BitVec.ofInt 32 (rvRem 32 a.toInt b.toInt))
  | 7 => some (if b = 0 then a else BitVec.ofNat 32 (a.toNat % b.toNat))
  | _ => none

/-- The register and immediate operations without shifts, by funct3. -/
def aluOp (f3 : Nat) (a b : Dword) : Dword :=
  match f3 with
  | 0 => a + b
  | 2 => if a.toInt < b.toInt then 1 else 0
  | 3 => if a.toNat < b.toNat then 1 else 0
  | 4 => a ^^^ b
  | 6 => a ||| b
  | _ => a &&& b

/-- OP-IMM (R468). -/
def opImm (w : Nat) (a : Dword) : Option Dword :=
  let sh := ibits w 20 6
  match ibits w 12 3 with
  | 1 => if ibits w 26 6 = 0 then some (a <<< sh) else none
  | 5 => if ibits w 26 6 = 0 then some (a >>> sh) else if ibits w 26 6 = 0x10 then some (a.sshiftRight sh) else none
  | f => some (aluOp f a (immI w))

/-- OP-IMM-32. -/
def opImm32 (w : Nat) (a : Dword) : Option Dword :=
  let sh := ibits w 20 5
  let x : Word := a.setWidth 32
  match ibits w 12 3, ibits w 25 7 with
  | 0, _ => some (sextWord (a + immI w))
  | 1, 0 => some ((x <<< sh).signExtend 64)
  | 5, 0 => some ((x >>> sh).signExtend 64)
  | 5, 0x20 => some ((x.sshiftRight sh).signExtend 64)
  | _, _ => none

/-- OP: base and multiplication. -/
def opReg (w : Nat) (a b : Dword) : Option Dword :=
  let sh := b.toNat % 64
  match ibits w 25 7, ibits w 12 3 with
  | 1, f => some (mulDiv f a b)
  | 0, 1 => some (a <<< sh)
  | 0, 5 => some (a >>> sh)
  | 0, f => some (aluOp f a b)
  | 0x20, 0 => some (a - b)
  | 0x20, 5 => some (a.sshiftRight sh)
  | _, _ => none

/-- OP-32: base and multiplication. -/
def opReg32 (w : Nat) (a b : Dword) : Option Dword :=
  let x : Word := a.setWidth 32
  let y : Word := b.setWidth 32
  let sh := b.toNat % 32
  match ibits w 25 7, ibits w 12 3 with
  | 1, f => (mulDivW f x y).map (·.signExtend 64)
  | 0, 0 => some ((x + y).signExtend 64)
  | 0, 1 => some ((x <<< sh).signExtend 64)
  | 0, 5 => some ((x >>> sh).signExtend 64)
  | 0x20, 0 => some ((x - y).signExtend 64)
  | 0x20, 5 => some ((x.sshiftRight sh).signExtend 64)
  | _, _ => none

/-- A branch is taken, by funct3; none where the encoding is reserved. -/
def branchTaken (f3 : Nat) (a b : Dword) : Option Bool :=
  match f3 with
  | 0 => some (a = b)
  | 1 => some (a ≠ b)
  | 4 => some (a.toInt < b.toInt)
  | 5 => some (b.toInt ≤ a.toInt)
  | 6 => some (a.toNat < b.toNat)
  | 7 => some (b.toNat ≤ a.toNat)
  | _ => none

/-- The operation of an AMO, by funct5, on values of `n` bits held as integers. -/
def amoOp (f5 : Nat) (n : Nat) (old new : Nat) : Option Nat :=
  match f5 with
  | 0x00 => some ((old + new) % 2 ^ n)
  | 0x01 => some new
  | 0x04 => some (old ^^^ new)
  | 0x08 => some (old ||| new)
  | 0x0C => some (old &&& new)
  | 0x10 => some (if signed n new < signed n old then new else old)
  | 0x14 => some (if signed n old < signed n new then new else old)
  | 0x18 => some (min old new)
  | 0x1C => some (max old new)
  | _ => none

/-! ### Registers of a core -/

/-- Register `r` of core `c`; x0 reads 0. -/
def xr (s : State) (c r : Nat) : Dword := if r = 0 then 0 else (s.core c).x.getD (r - 1) 0

/-- Register `r` of core `c` written; a write of x0 is discarded. -/
def xw (c r : Nat) (v : Dword) (s : State) : State :=
  if r = 0 then s else s.updCore c fun k => { k with x := k.x.set (r - 1) v }

/-- The CSRs of core `c` changed. -/
def updCsr (c : Nat) (f : Csrs → Csrs) (s : State) : State := s.updCore c fun k => { k with csr := f k.csr }

/-! ### Physical memory protection (R468) -/

/-- The addresses that entry `i` matches, as a first address and one past the last; none where it is off. Its granule is 64 bytes,
which an NA4 entry matches whole. -/
def pmpRange (k : Csrs) (i : Nat) : Option (Nat × Nat) :=
  let g := fun j => (k.pmpaddr.getD j 0).toNat % 2 ^ 54 / 16 * 64
  let a := (k.pmpaddr.getD i 0).toNat % 2 ^ 54
  match bitsOf ((k.pmpcfg.getD i 0).setWidth 32) 3 2 with
  | 1 => some (if i = 0 then 0 else g (i - 1), g i)
  | 2 => some (g i, g i + 64)
  | 3 =>
    -- the trailing ones from bit 0 up, of which the low three always read 1
    let a := a ||| 7
    let ones := ((List.range 54).find? fun b => !a.testBit b).getD 54
    let size := 2 ^ (ones + 3)
    some (a * 4 / size * size, a * 4 / size * size + size)
  | _ => none

/-- Whether `n` bytes from an address may be accessed with a permission, 0 read, 1 write, 2 execute: the lowest entry that matches any
of them decides, and it must match all. -/
def pmpOk (k : Csrs) (m : Priv) (perm a n : Nat) : Bool :=
  match (List.range 8).find? fun i => match pmpRange k i with
      | some (lo, hi) => lo < a + n && a < hi
      | none => false with
  | none => m = .machine
  | some i =>
    let c := k.pmpcfg.getD i 0
    let (lo, hi) := (pmpRange k i).getD (0, 0)
    lo ≤ a && a + n ≤ hi && ((m = .machine && !c.getLsbD 7) || c.getLsbD perm)

/-- The privilege under which loads and stores are made: that of MPP where MPRV is 1. -/
def dataPriv (k : Core) : Priv :=
  if k.priv = .machine ∧ k.csr.mstatus.getLsbD 17 then (if k.csr.mstatus.getLsbD 11 then .machine else .user) else k.priv

/-! ### Memory accesses of a core (R469) -/

/-- What an instruction does to the pc: it goes on at an address, it goes on having written `minstret`, or it raises an exception with
a cause and the value of `mtval`. -/
inductive Rv where
  | next (pc : Dword)
  | nextCounted (pc : Dword)
  | trap (cause : Nat) (val : Dword)
  deriving DecidableEq, Repr

/-- The ranges whose misaligned accesses complete in hardware (R469). -/
def misalignedOk (a : Nat) : Bool := region a = .sram || region a = .fs

/-- A load of `n` bytes (R469, R470): its bytes as a number, or the cause of its exception. -/
def coreLoad (c a n : Nat) (s : State) : State × Except Nat Nat :=
  let k := s.core c
  if !pmpOk k.csr (dataPriv k) 0 a n then (s, .error 5)
  else if region a = .page then
    if pageAccessOk a n then
      let (s, v) := regRead (c + 1) (pageIndexAt a) (a % 4096) s
      (s, .ok v.toNat)
    else (s, .error 5)
  else if a % n ≠ 0 ∧ !misalignedOk a then (s, .error (if region a = .hole then 5 else 4))
  else
    let (s, b) := rd (agentWho (c + 1)) a n s
    (s, match b with | some b => .ok (leVal b) | none => .error 5)

/-- A store of `n` bytes (R469, R470): none, or the cause of its exception. -/
def coreStore (c a n v : Nat) (s : State) : State × Option Nat :=
  let k := s.core c
  if !pmpOk k.csr (dataPriv k) 1 a n then (s, some 7)
  else if region a = .page then
    if pageAccessOk a n then (regWrite (c + 1) (pageIndexAt a) (a % 4096) (BitVec.ofNat 32 v) s, none)
    else (s, some 7)
  else
    let (s, ok) := wr (agentWho (c + 1)) a (leBytes n v) s
    (s, if ok then none else some 7)

/-- The line of an instruction cache that holds an address. The cache keeps at most the 256 lines last filled, 16 KiB; whether a line it
has held is still held is open, so a free value says. ROM, MRAM and the frame store are fetched through it (R469). -/
def icacheFetch (c a n : Nat) (s : State) : State × Option (List Byte) :=
  let ln := a / 64
  let fill := fun (s : State) =>
    let (s, b) := rd (agentWho (c + 1)) (ln * 64) 64 s
    match b with
    | none => (s, none)
    | some b =>
      (s.updCore c fun k => { k with icache := ((ln, b) :: k.icache.filter fun e => e.1 ≠ ln).take 256 }, some (slice b (a % 64) n))
  match (s.core c).icache.find? fun e => e.1 = ln with
  | none => fill s
  | some (_, b) =>
    let (s, r) := s.free
    if r.toNat % 2 = 1 then (s, some (slice b (a % 64) n)) else fill s

/-- Two bytes of an instruction fetched (R469). -/
def fetchHalf (c a : Nat) (s : State) : State × Option Nat :=
  let k := s.core c
  if !pmpOk k.csr k.priv 2 a 2 then (s, none)
  else
    let (s, b) := if region a = .sram then rd (agentWho (c + 1)) a 2 s else icacheFetch c a 2 s
    (s, b.map leVal)

/-- The instruction at the pc: its word and length, or the address whose fetch failed. -/
def fetchInstr (c : Nat) (s : State) : State × Except Dword (Nat × Nat) :=
  let pc := (s.core c).pc
  let (s, lo) := fetchHalf c pc.toNat s
  match lo with
  | none => (s, .error pc)
  | some lo =>
    if lo % 4 ≠ 3 then (s, .ok (lo, 2))
    else
      let (s, hi) := fetchHalf c (pc + 2).toNat s
      (s, match hi with | none => .error (pc + 2) | some hi => .ok (lo + hi * 0x10000, 4))

/-! ### Control and status registers (R468, R471) -/

/-- The implemented bits of `mstatus`: MIE, MPIE, MPP, MPRV and TW; UXL reads 2. -/
def mstatusMask : Dword := 0x221888

/-- mstatus written: MPP keeps a mode that exists. -/
def mstatusLegal (old v : Dword) : Dword :=
  let m := v &&& mstatusMask
  if m &&& 0x1800 = 0x1800 ∨ m &&& 0x1800 = 0 then m else (m &&& ~~~(0x1800 : Dword)) ||| (old &&& 0x1800)

/-- The address of a PMP entry as it reads: bits below its granule read 0, or 1 where its mode is NAPOT. -/
def pmpAddrRead (k : Csrs) (i : Nat) : Dword :=
  let a := k.pmpaddr.getD i 0
  if (k.pmpcfg.getD i 0).getLsbD 4 then a ||| 7 else a &&& ~~~(15 : Dword)

/-- The doubleword of the time base as `time` shows it (R468). -/
def timeCsr (s : State) : Dword := BitVec.ofNat 64 (s.time.ft / 65536)

/-- The value of a CSR of core `c`; none where the core has no such register. Reading `dttake` takes a task besides (R486). -/
def csrView (s : State) (c n : Nat) : Option Dword :=
  let k := s.core c
  let r := k.csr
  if n = 0x300 then some (r.mstatus ||| 0x200000000)
  else if n = 0x301 then some 0x8000000000101105
  else if n = 0x304 ∨ n = 0x344 ∨ n = 0x30A ∨ n = 0x320 ∨ n = 0xF15 then some 0
  else if n = 0x305 then some r.mtvec
  else if n = 0x306 then some r.mcounteren
  else if n = 0x340 then some r.mscratch
  else if n = 0x341 then some r.mepc
  else if n = 0x342 then some r.mcause
  else if n = 0x343 then some r.mtval
  else if n = 0x3A0 then some (BitVec.ofNat 64 (leVal r.pmpcfg))
  else if 0x3B0 ≤ n ∧ n ≤ 0x3B7 then some (pmpAddrRead r (n - 0x3B0))
  else if n = 0xB00 ∨ n = 0xC00 then some r.mcycle
  else if n = 0xB02 ∨ n = 0xC02 then some r.minstret
  else if n = 0xC01 then some (timeCsr s)
  else if (0xB03 ≤ n ∧ n ≤ 0xB1F) ∨ (0xC03 ≤ n ∧ n ≤ 0xC1F) ∨ (0x323 ≤ n ∧ n ≤ 0x33F) then some 0
  else if n = 0xF11 ∨ n = 0xF12 then some 0
  else if n = 0xF13 then some 0x9600
  else if n = 0xF14 then some (BitVec.ofNat 64 c)
  else if n = 0x7C0 then some (if k.dtcfg then 1 else 0)
  else if n = 0x7C1 then some (BitVec.ofNat 64 k.dtthresh)
  else if n = 0x7C2 then some (BitVec.ofNat 64 k.dtvbase)
  else if n = 0x7C3 then some (k.dttcmp.setWidth 64)
  else if 0x7C4 ≤ n ∧ n ≤ 0x7C6 then some 0
  else if n = 0x7C7 then some (match k.running with | t :: _ => ((s.task t).entry).setWidth 64 | [] => 0)
  else if n = 0x7C8 then some (match k.running with | t :: _ => (s.task t).arg | [] => 0)
  else if n = 0xFC0 then some (match k.frames with | f :: _ => BitVec.ofNat 64 (f.vector + f.count * 0x10000) | [] => 0x1FF)
  else if n = 0xFC1 then some (BitVec.ofNat 64 (k.cl + k.running.length * 0x100))
  else none

/-- A read of a CSR with its effect. -/
def csrRead (c n : Nat) (s : State) : State × Dword :=
  if n = 0x7C4 then
    let (s, v) := takeTask c s
    (s, BitVec.ofNat 64 v)
  else (s, (csrView s c n).getD 0)

/-- A PMP entry's configuration as it is kept: R = 0 with W = 1 is reserved, and keeps W 0. -/
def pmpCfgLegal (b : Byte) : Byte := let b := b &&& 0x9F; if !b.getLsbD 0 && b.getLsbD 1 then b &&& 0xFD else b

/-- pmpcfg0 written: a locked entry keeps its configuration. -/
def pmpCfgWrite (cfg : List Byte) (v : Dword) : List Byte :=
  (List.range 8).map fun i =>
    if (cfg.getD i 0).getLsbD 7 then cfg.getD i 0 else pmpCfgLegal (BitVec.ofNat 8 (v.toNat / 256 ^ i))

/-- A write of a CSR, with the effects of the Damten ones. -/
def csrWrite (c n : Nat) (v : Dword) (s : State) : State :=
  if n = 0x300 then updCsr c (fun r => { r with mstatus := mstatusLegal r.mstatus v }) s
  else if n = 0x305 then updCsr c (fun r => { r with mtvec := v &&& ~~~(2 : Dword) }) s
  else if n = 0x306 then updCsr c (fun r => { r with mcounteren := v &&& 0xFFFFFFFF }) s
  else if n = 0x340 then updCsr c (fun r => { r with mscratch := v }) s
  else if n = 0x341 then updCsr c (fun r => { r with mepc := v &&& ~~~(1 : Dword) }) s
  else if n = 0x342 then updCsr c (fun r => { r with mcause := v }) s
  else if n = 0x343 then updCsr c (fun r => { r with mtval := v }) s
  else if n = 0x3A0 then
    updCsr c (fun r => { r with pmpcfg := pmpCfgWrite r.pmpcfg v }) s
  else if 0x3B0 ≤ n ∧ n ≤ 0x3B7 then
    updCsr c (fun r =>
      let i := n - 0x3B0
      let next := r.pmpcfg.getD (i + 1) 0
      let locked := (r.pmpcfg.getD i 0).getLsbD 7 || (next.getLsbD 7 && bitsOf (next.setWidth 32) 3 2 = 1)
      if locked then r else { r with pmpaddr := r.pmpaddr.set i (v &&& 0x3FFFFFFFFFFFFF) }) s
  else if n = 0xB00 then updCsr c (fun r => { r with mcycle := v }) s
  else if n = 0xB02 then updCsr c (fun r => { r with minstret := v }) s
  else if n = 0x7C0 then s.updCore c fun k => { k with dtcfg := v.getLsbD 0 }
  else if n = 0x7C1 then s.updCore c fun k => { k with dtthresh := min 16 (v.toNat % 32) }
  else if n = 0x7C2 then s.updCore c fun k => { k with dtvbase := v.toNat % 2 ^ 40 / 4096 * 4096 }
  else if n = 0x7C3 then
    let t : Word := v.setWidth 32
    let s := s.updCore c fun k => { k with dttcmp := t }
    if stPast t s.st then arrivePriv c 0 s else s
  else if n = 0x7C5 then endTask c s
  else if n = 0x7C6 then postTask (v.toNat % 1024) (some c) s
  else s

/-- A CSR may be accessed: it exists, the mode suffices, a write goes to no read-only one, and a counter is open to user mode. -/
def csrAllowed (s : State) (c n : Nat) (write : Bool) : Bool :=
  let k := s.core c
  (csrView s c n).isSome && !(write && n / 1024 = 3) &&
  (k.priv = .machine || (n / 256 % 4 = 0 && 0xC00 ≤ n && n ≤ 0xC1F && k.csr.mcounteren.getLsbD (n - 0xC00)))

/-! ### Traps, waits and returns -/

/-- An exception taken at `mtvec` (R470); the reservation is lost (R469). -/
def takeTrap (c cause : Nat) (val : Dword) (s : State) : State :=
  let s := s.updCore c fun k =>
    let m := k.csr.mstatus
    let mpie : Dword := if m.getLsbD 3 then 0x80 else 0
    let mpp : Dword := if k.priv = .machine then 0x1800 else 0
    { k with
      csr := { k.csr with mepc := k.pc, mcause := BitVec.ofNat 64 cause, mtval := val, mstatus := (m &&& 0x220000) ||| mpie ||| mpp }
      priv := .machine, reserved := none, pc := k.csr.mtvec &&& ~~~(3 : Dword) }
  present c (s.bump (pgCPU c) F.CPU_st_EXCEPTIONS)

/-- MRET: the mode and the interrupt enable that the trap saved are restored. -/
def mret (c : Nat) (s : State) : State × Rv :=
  let k := s.core c
  let m := k.csr.mstatus
  let toM := m.getLsbD 11
  let mie : Dword := if m.getLsbD 7 then 8 else 0
  let keep : Dword := if toM then 0x220000 else 0x200000
  (s.updCore c fun k => { k with priv := if toM then .machine else .user, csr := { k.csr with mstatus := (m &&& keep) ||| mie ||| 0x80 } },
   .next k.csr.mepc)

/-- A core waits after WFI (R473): in IDLE, or in SLEEP where `dtcfg.SLEEP` is 1; a source that is presentable already ends the wait. -/
def waitCore (c : Nat) (s : State) : State :=
  if (s.core c).dtcfg then presentAll (coreMask c (coreTo c .sleep s))
  else present c (s.updCore c fun k => { k with mode := .idle })

/-- DTRET (R472, R481): the service of the innermost frame's source ends; a source presentable against the level saved in the frame is
entered by chaining, else the frame's context is restored. -/
def dtret (c : Nat) (s : State) : State :=
  match (s.core c).frames with
  | [] => s
  | f :: rest =>
    let s := endService (srcOf c f.vector) s
    let s := s.updCore c fun k => { k with cl := f.cl }
    match (if coreMie (s.core c) then candidate s c f.cl else none) with
    | some x =>
      presentAll (s.updCore c fun k =>
        { k with frames := { f with vector := x.vector } :: rest, entry := some x.vector, chaining := true, reserved := none })
    | none => presentAll (s.updCore c fun k => { k with frames := rest, pc := f.pc, priv := f.priv })

/-- Step 4 of R479: the source leaves pending and enters service, its COUNT moves into the frame and restarts, and the level rises; then the
handler begins, or an instruction access fault is raised where the vector fetch met a bus error. -/
def vectorDone (c : Nat) (s : State) : State :=
  let k := s.core c
  match k.entry, k.frames with
  | some v, f :: rest =>
    if k.mode ≠ .run then s
    else
      let x := srcOf c v
      let a := k.dtvbase + 8 * v
      let (s, b) := rd (agentWho (c + 1)) a 8 (s.updCore c fun k => { k with stalled := true })
      let s := s.updCore c fun k => { k with stalled := false }
      let count := srcBits s x 24 8
      let s := setSrc (setSrc (setSrc s x 20 1 0) x 21 1 1) x 24 8 0
      let s := s.updCore c fun k =>
        { k with frames := { f with count := count } :: rest, entry := none, chaining := false, cl := srcBits s x 0 4 + 1, priv := .machine }
      let s := s.bump (pgCPU c) F.CPU_st_ENTRIES
      let s := if k.chaining then s.bump (pgCPU c) F.CPU_st_CHAINS else s
      match b with
      | some b => presentAll (s.updCore c fun k => { k with pc := BitVec.ofNat 64 (leVal b % 2 ^ 40 / 2 * 2) })
      | none =>
        let (s, r) := s.free
        takeTrap c 1 (BitVec.ofNat 64 a) (s.updCore c fun k => { k with pc := r &&& ~~~(1 : Dword) })
  | _, _ => s

/-! ### One instruction -/

/-- A load of the base architecture, by funct3: its width in bytes and the value of the bytes as a register. -/
def loadForm (f3 : Nat) : Option (Nat × (Nat → Dword)) :=
  match f3 with
  | 0 => some (1, sext64 8)
  | 1 => some (2, sext64 16)
  | 2 => some (4, sext64 32)
  | 3 => some (8, fun v => BitVec.ofNat 64 v)
  | 4 => some (1, fun v => BitVec.ofNat 64 v)
  | 5 => some (2, fun v => BitVec.ofNat 64 v)
  | 6 => some (4, fun v => BitVec.ofNat 64 v)
  | _ => none

/-- LR, SC and the AMOs (R469, R470): only SRAM; a misaligned one raises 4 or 6. The outcome is none where the encoding is reserved. -/
def atomic (c w : Nat) (s : State) : State × Option (Option (Nat × Dword)) :=
  let n := if ibits w 12 3 = 2 then 4 else 8
  let f5 := ibits w 27 5
  let a := (xr s c (ibits w 15 5)).toNat
  let v := (xr s c (ibits w 20 5)).toNat % 256 ^ n
  let k := s.core c
  let reg := fun (x : Nat) => if n = 4 then sext64 32 x else BitVec.ofNat 64 x
  let stop := fun (s : State) (cause : Nat) => (s, some (some (cause, BitVec.ofNat 64 a)))
  if ibits w 12 3 ≠ 2 ∧ ibits w 12 3 ≠ 3 then (s, none)
  else if f5 = 2 then
    if ibits w 20 5 ≠ 0 then (s, none)
    else if a % n ≠ 0 then stop s 4
    else if region a ≠ .sram ∨ !pmpOk k.csr (dataPriv k) 0 a n then stop s 5
    else
      match coreLoad c a n s with
      | (s, .error e) => stop s e
      | (s, .ok x) => (xw c (ibits w 7 5) (reg x) (s.updCore c fun k => { k with reserved := some (a / 64) }), some none)
  else if f5 ≠ 3 ∧ (amoOp f5 64 0 0).isNone then (s, none)
  else if a % n ≠ 0 then stop s 6
  else if region a ≠ .sram ∨ !pmpOk k.csr (dataPriv k) 1 a n ∨ (f5 ≠ 3 ∧ !pmpOk k.csr (dataPriv k) 0 a n) then stop s 7
  else if f5 = 3 then
    let held := k.reserved = some (a / 64)
    let s := s.updCore c fun k => { k with reserved := none }
    if !held then (xw c (ibits w 7 5) 1 s, some none)
    else
      match coreStore c a n v s with
      | (s, some e) => stop s e
      | (s, none) => (xw c (ibits w 7 5) 0 s, some none)
  else
    match coreLoad c a n s with
    | (s, .error _) => stop s 7
    | (s, .ok old) =>
      match coreStore c a n ((amoOp f5 (8 * n) old v).getD 0) s with
      | (s, some e) => stop s e
      | (s, none) => (xw c (ibits w 7 5) (reg old) s, some none)

/-- A Zicsr instruction; none where it is illegal. CSRRW with rd x0 does not read, and the set and clear forms with a zero source field
do not write. -/
def csrInstr (c w : Nat) (s : State) : Option State :=
  let n := ibits w 20 12
  let f3 := ibits w 12 3
  let rd := ibits w 7 5
  let z := ibits w 15 5
  let src := if f3 < 4 then xr s c z else BitVec.ofNat 64 z
  let reads := f3 % 4 ≠ 1 ∨ rd ≠ 0
  let writes := f3 % 4 = 1 ∨ z ≠ 0
  if !csrAllowed s c n writes then none
  else
    let (s, old) := if reads then csrRead c n s else (s, 0)
    let v := if f3 % 4 = 1 then src else if f3 % 4 = 2 then old ||| src else old &&& ~~~src
    let s := if writes then csrWrite c n v s else s
    some (xw c rd old s)

/-- One instruction of a core, as a 32-bit word `w` whose encoding in memory is `raw` and takes `len` bytes. -/
def rvExec (c w raw len : Nat) (s : State) : State × Rv :=
  let k := s.core c
  let pc := k.pc
  let nx := pc + BitVec.ofNat 64 len
  let rd := ibits w 7 5
  let a := xr s c (ibits w 15 5)
  let b := xr s c (ibits w 20 5)
  let bad := (s, Rv.trap 2 (Config.illegalTval (BitVec.ofNat 32 raw)))
  let put := fun (o : Option Dword) => match o with
    | some v => (xw c rd v s, Rv.next nx)
    | none => bad
  match w % 128 with
  | 0x37 => put (some (immU w))
  | 0x17 => put (some (pc + immU w))
  | 0x6F => (xw c rd nx s, .next (pc + immJ w))
  | 0x67 => if ibits w 12 3 = 0 then (xw c rd nx s, .next ((a + immI w) &&& ~~~(1 : Dword))) else bad
  | 0x63 =>
    match branchTaken (ibits w 12 3) a b with
    | some t => (s, .next (if t then pc + immB w else nx))
    | none => bad
  | 0x03 =>
    match loadForm (ibits w 12 3) with
    | none => bad
    | some (n, f) =>
      let ea := a + immI w
      match coreLoad c ea.toNat n s with
      | (s, .ok v) => (xw c rd (f v) s, .next nx)
      | (s, .error e) => (s, .trap e ea)
  | 0x23 =>
    if 3 < ibits w 12 3 then bad
    else
      let ea := a + immS w
      match coreStore c ea.toNat (2 ^ ibits w 12 3) (b.toNat % 256 ^ 2 ^ ibits w 12 3) s with
      | (s, none) => (s, .next nx)
      | (s, some e) => (s, .trap e ea)
  | 0x13 => put (opImm w a)
  | 0x1B => put (opImm32 w a)
  | 0x33 => put (opReg w a b)
  | 0x3B => put (opReg32 w a b)
  | 0x2F =>
    match atomic c w s with
    | (s, some none) => (s, .next nx)
    | (s, some (some (e, v))) => (s, .trap e v)
    | (_, none) => bad
  | 0x0F =>
    match ibits w 12 3 with
    | 0 => (s, .next nx)
    | 1 => (s.updCore c fun k => { k with icache := [] }, .next nx)
    | _ => bad
  | 0x0B =>
    if w = 0x0000000B ∧ k.priv = .machine ∧ k.frames ≠ [] then
      let s := dtret c s
      (s, .next (s.core c).pc)
    else bad
  | 0x73 =>
    if ibits w 12 3 ≠ 0 then
      if ibits w 12 3 = 4 then bad
      else match csrInstr c w s with
        | some t => (t, if ibits w 20 12 = 0xB02 ∧ (ibits w 12 3 % 4 = 1 ∨ ibits w 15 5 ≠ 0) then .nextCounted nx else .next nx)
        | none => bad
    else if w = 0x00000073 then (s, .trap (if k.priv = .machine then 11 else 8) 0)
    else if w = 0x00100073 then (s, .trap 3 pc)
    else if w = 0x30200073 ∧ k.priv = .machine then mret c s
    else if w = 0x10500073 ∧ (k.priv = .machine ∨ !k.csr.mstatus.getLsbD 21) then (s, .next nx)
    else bad
  | _ => bad

/-- A core can execute an instruction: it is in RUN, no entry is under way, it does not stall, and the device is up. -/
def canRun (s : State) (c : Nat) : Bool :=
  let k := s.core c
  k.mode = .run && k.entry.isNone && !k.stalled && !sysDown s

/-- An instruction retired: `PCSAMPLE`, the counts and the pc. -/
def retire (c : Nat) (pc next : Dword) (counted : Bool) (s : State) : State :=
  let s := s.bump (pgCPU c) F.CPU_st_INSTRET
  s.updCore c fun k =>
    { k with lastPc := pc, pc := next, csr := if counted then k.csr else { k.csr with minstret := k.csr.minstret + 1 } }

/-- No event is presented to a core within an instruction: entries begin at its boundaries (R479). -/
def holdCore (c : Nat) (s : State) : State := s.updCore c fun k => { k with stalled := true }

/-- The boundary of an instruction: the core stalls only where a post of its own waits for the queue (R490). -/
def freeCore (c : Nat) (s : State) : State :=
  s.updCore c fun k => { k with stalled := s.tsk.waiting.any fun e => decide (e.2 = some c) }

/-- One instruction executed, with its exception or its retirement, the wait of a WFI, and the events that its boundary lets in. -/
def runInstr (c raw len : Nat) (s : State) : State :=
  let pc := (s.core c).pc
  match (if len = 2 then expand raw else some raw) with
  | none => takeTrap c 2 (Config.illegalTval (BitVec.ofNat 32 raw)) (freeCore c s)
  | some w =>
    let (s, r) := rvExec c w raw len s
    if sysDown s ∨ (s.core c).mode = .reset then s
    else
      let s := freeCore c s
      match r with
      | .trap e v => takeTrap c e v s
      | .nextCounted p => present c (retire c pc p true s)
      | .next p =>
        let s := retire c pc p false s
        if w = 0x10500073 then waitCore c s else present c s

/-- The next instruction of a core fetched and executed (R468). -/
def stepCore (c : Nat) (s : State) : State :=
  if !canRun s c then s
  else
    match fetchInstr c (holdCore c s) with
    | (s, .error a) => takeTrap c 1 a (freeCore c s)
    | (s, .ok (w, len)) => runInstr c w len s

/-- A given 32-bit instruction executed as the core's next one. -/
def runWord (c w : Nat) (s : State) : State := if canRun s c then runInstr c w 4 (holdCore c s) else s

/-! ### Meanings -/

/-- EXECUTE_INSTRUCTION (R468): the core executes the instruction at its pc. -/
def execExecuteInstruction (core : Fin 4) (s : State) := act (stepCore core) s
/-- WFI (R473). -/
def execWfi (core : Fin 4) (s : State) := act (runWord core 0x10500073) s
/-- DTRET (R481). -/
def execDtret (core : Fin 4) (s : State) := act (runWord core 0x0000000B) s
/-- DTTAKE (R486): `dttake` read into register `rd`. -/
def execDttake (core : Fin 4) (rd : BitVec 5) (s : State) := act (runWord core (encI 0x73 rd.toNat 2 0 0x7C4)) s
/-- DTDONE (R486): register `rs` written to `dtdone`. -/
def execDtdone (core : Fin 4) (rs : BitVec 5) (s : State) := act (runWord core (encI 0x73 0 1 rs.toNat 0x7C5)) s
/-- DTPOST (R488): register `rs` written to `dtpost`. -/
def execDtpost (core : Fin 4) (rs : BitVec 5) (s : State) := act (runWord core (encI 0x73 0 1 rs.toNat 0x7C6)) s
/-- FENCE_I (R469). -/
def execFenceI (core : Fin 4) (s : State) := act (runWord core 0x0000100F) s
/-- VECTOR_FETCH_DONE (R479). -/
def execVectorFetchDone (core : Fin 4) (s : State) := act (vectorDone core) s

end Sys2Proof.Machine
end

