-- ==== Sys2Proof/Machine/DmaRun.lean ====
section
/-!
DEFINITION. The running of a DMA chain (R442 to R445, R447 to R455): the fetch and check of a descriptor, what it moves, and what
follows its completion or a bus error.
-/
namespace Sys2Proof.Machine
open Sys2Proof

/-! ### Descriptors (R442 to R444) -/

/-- The operations of a descriptor (R443). -/
abbrev opCopy : Nat := 0
abbrev opGather : Nat := 1
abbrev opScatter : Nat := 2
abbrev opFill : Nat := 3
abbrev opCompare : Nat := 4

/-- What a descriptor's 32 bytes say (R442), in what a channel holds. -/
def descOf (b : List Byte) (old : DmaCh) : DmaCh :=
  let ctl := leVal (slice b 0 4)
  let fw := ctl / 16 % 4
  { old with active := true, op := ctl % 8, fillw := fw, last := ctl / 256 % 2 = 1, fence := ctl / 512 % 2 = 1, stopMis := ctl / 1024 % 2 = 1,
             count := leVal (slice b 4 4) % 2 ^ 25, src := leVal (slice b 8 5), dst := leVal (slice b 16 5), next := leVal (slice b 24 5),
             fill := slice b 8 (2 ^ fw), segs := [] }

/-- Whether a byte range touches the register page window with an address or a length that is not a multiple of 4 (R444). -/
def windowBad (a n : Nat) : Bool := a < 0x41000000 && 0x40000000 < a + n && (a % 4 ≠ 0 || n % 4 ≠ 0)

/-- Whether a descriptor's own bytes make it bad (R444), its segments aside. -/
def descBad (b : List Byte) (k : DmaCh) : Bool :=
  let zero := fun i n => decide (leVal (slice b i n) = 0)
  let nseg := leVal (slice b 21 2)
  let gs := k.op = opGather || k.op = opScatter
  leVal (slice b 0 4) / 2 ^ 11 ≠ 0 || 4 < k.op || leVal (slice b 4 4) / 2 ^ 25 ≠ 0 || k.count = 0 || 2 ^ 24 < k.count ||
  (if k.op = opFill then !zero (8 + 2 ^ k.fillw) (8 - 2 ^ k.fillw) else !zero 13 3) ||
  (if gs then nseg = 0 || 4096 < nseg else nseg ≠ 0) || !zero 23 1 || !zero 29 3 ||
  (!k.last && k.next % 32 ≠ 0) ||
  (k.op = opFill && k.count % 2 ^ k.fillw ≠ 0) ||
  (k.op = opCopy && k.src < k.dst + k.count && k.dst < k.src + k.count) ||
  ((k.op = opCopy || k.op = opCompare || k.op = opScatter) && windowBad k.src k.count) ||
  (k.op ≠ opScatter && windowBad k.dst k.count) ||
  (gs && windowBad (if k.op = opGather then k.src else k.dst) (16 * nseg))

/-- The entries of a segment list; none where one is out of its range or has a byte that must be 0 (R442). -/
def segList : Nat → List Byte → Option (List (Nat × Nat))
  | 0, _ => some []
  | n + 1, b =>
    let a := leVal (slice b 0 5)
    let l := leVal (slice b 8 4)
    if leVal (slice b 5 3) ≠ 0 ∨ leVal (slice b 12 4) ≠ 0 ∨ l = 0 ∨ 2 ^ 24 < l ∨ windowBad a l then none
    else (segList n (b.drop 16)).map ((a, l) :: ·)

/-- A bad descriptor (R444): the channel enters BADDESC. -/
def badDesc (ch : Nat) (s : State) : State :=
  let s := (updDma s ch fun k => { k with active := false }).bump (chPage ch) F.DMA_st_BADDESC
  (chSet s ch F.DMA_STATUS_STATE chBad).evt (chPage ch) 18

/-- A checked descriptor taken up: what remains of it starts at `RESOFF` (R453). -/
def takeDesc (ch : Nat) (k : DmaCh) (s : State) : State :=
  let off := chGet s ch F.DMA_RESOFF_OFFSET
  chSet (updDma s ch fun _ => { k with descMis := k.descMis && off ≠ 0 }) ch F.DMA_REMAIN_BYTES (k.count - off)

/-- DESCRIPTOR_FETCH (R444): the descriptor at `CUR` read and checked, with its segment list. Every fetch clears KNOCKED (R454). -/
def descFetch (ch : Nat) (s : State) : State :=
  if chState s ch ≠ chRun ∨ (dmaOf s ch).active then s
  else
    let s := chSet s ch F.DMA_STATUS_KNOCKED 0
    let (s, b, e) := dmaReadN (chWho s ch) (chCur s ch) 32 s
    match e with
    | some x => dmaError ch x s
    | none =>
      let k := descOf b (dmaOf s ch)
      if descBad b k then badDesc ch s
      else if k.op ≠ opGather ∧ k.op ≠ opScatter then takeDesc ch k s
      else
        let n := leVal (slice b 21 2)
        let (s, l, e) := dmaReadN (chWho s ch) (if k.op = opGather then k.src else k.dst) (16 * n) s
        match e with
        | some x => dmaError ch x s
        | none =>
          match segList n l with
          | none => badDesc ch s
          | some g => if (g.map (·.2)).sum ≠ k.count then badDesc ch s else takeDesc ch { k with segs := g } s

/-! ### Movement (R443, R445) -/

/-- A DMA write in the register page window under a core's agent code holds up the channel, and never that core (R445, R490). -/
def dmaPageWrite (w : Who) (a : Nat) (v : Word) (s : State) : State :=
  let held := s.tsk.waiting.length
  let stalls := s.cores.map (·.stalled)
  let s := regWrite w.agent (pageIndexAt a) (a % 0x1000) v s
  if s.tsk.waiting.length ≤ held then s
  else
    { s with tsk := { s.tsk with waiting := s.tsk.waiting.take held ++ (s.tsk.waiting.drop held).map fun (t, _) => (t, none) },
             cores := (s.cores.zip stalls).map fun (k, b) => { k with stalled := b } }

/-- Bytes written from an address up: by 32-bit accesses in the register page window, elsewhere in runs that stay within 64 bytes. The bytes
written, and the address of the first beat that failed. -/
def dmaWrite (ch : Nat) : Nat → Nat → List Byte → State → State × Nat × Option Nat
  | 0, _, _, s => (s, 0, none)
  | fuel + 1, a, b, s =>
    if b.isEmpty ∨ chState s ch ≠ chRun then (s, 0, none)
    else if region a = .page then
      if !pageAccessOk a 4 ∨ b.length < 4 then (s, 0, some a)
      else
        let s := dmaPageWrite (chWho s ch) a (BitVec.ofNat 32 (leVal (b.take 4))) s
        let (s, n, e) := dmaWrite ch fuel (a + 4) (b.drop 4) s
        (s, n + 4, e)
    else
      let k := min b.length (64 - a % 64)
      let (s, ok) := wr (chWho s ch) a (b.take k) s
      if !ok then (s, 0, some a)
      else
        let (s, n, e) := dmaWrite ch fuel (a + k) (b.drop k) s
        (s, n + k, e)

/-- Ranges of source, destination and length moved in order. -/
def dmaMove (ch : Nat) : List (Nat × Nat × Nat) → State → State × Nat × Option Nat
  | [], s => (s, 0, none)
  | (a, d, n) :: t, s =>
    let (s, b, e) := dmaReadN (chWho s ch) a n s
    let (s, k, f) := dmaWrite ch b.length d b s
    match f.orElse fun _ => e with
    | some x => (s, k, some x)
    | none =>
      let (s, m, f) := dmaMove ch t s
      (s, k + m, f)

/-- The segments of a list with the offset within the descriptor at which each begins. -/
def segPlaces : Nat → List (Nat × Nat) → List (Nat × Nat × Nat)
  | _, [] => []
  | o, (a, n) :: t => (o, a, n) :: segPlaces (o + n) t

/-- The ranges that a descriptor moves from offset `off` up, at most `n` bytes. -/
def dmaRanges (k : DmaCh) (off n : Nat) : List (Nat × Nat × Nat) :=
  let all : List (Nat × Nat × Nat × Nat) := match k.op with
    | 1 => (segPlaces 0 k.segs).map fun (o, a, n) => (o, a, k.dst + o, n)
    | 2 => (segPlaces 0 k.segs).map fun (o, a, n) => (o, k.src + o, a, n)
    | _ => [(0, k.src, k.dst, k.count)]
  all.filterMap fun (o, a, d, m) =>
    let lo := max o off
    let hi := min (o + m) (off + n)
    if lo < hi then some (a + (lo - o), d + (lo - o), hi - lo) else none

/-- The offset of the first byte that differs. -/
def firstDiff : List Byte → List Byte → Option Nat
  | a :: s, b :: t => if a = b then (firstDiff s t).map (· + 1) else some 0
  | _, _ => none

/-- A mismatch of a COMPARE (R448). -/
def mismatch (ch off : Nat) (s : State) : State :=
  let s := updDma s ch fun k => { k with mis := true, descMis := true }
  let s := if chGet s ch F.DMA_MISOFF_VALID = 1 then s
    else chSetAddr (chSet (chSet s ch F.DMA_MISOFF_VALID 1) ch F.DMA_MISOFF_OFFSET off) ch F.DMA_MISL_MIS F.DMA_MISH_MIS (chCur s ch)
  s.evt (chPage ch) 19

/-- What a descriptor does with at most `n` bytes from an offset: the bytes written or compared, and the address of a beat that failed. -/
def dmaWork (ch off n : Nat) (s : State) : State × Nat × Option Nat :=
  let k := dmaOf s ch
  let n := min n (k.count - off)
  if k.op = opFill then
    dmaWrite ch n (k.dst + off) ((List.range n).map fun i => k.fill.getD ((k.dst + off + i) % 2 ^ k.fillw) 0) s
  else if k.op = opCompare then
    let (s, x, e) := dmaReadN (chWho s ch) (k.src + off) n s
    let (s, y, f) := dmaReadN (chWho s ch) (k.dst + off) n s
    let s := match firstDiff x y with
      | some i => if (dmaOf s ch).descMis then s else mismatch ch (off + i) s
      | none => s
    (s, min x.length y.length, if x.length ≤ y.length then e.orElse fun _ => f else f)
  else dmaMove ch (dmaRanges k off n) s

/-- `BYTES` counts whole units of 64 (R458). -/
def dmaCount (ch n : Nat) (s : State) : State :=
  let i := ch / 16
  let r := s.dmaRem.getD i 0 + n
  { s with dmaRem := s.dmaRem.set i (r % 64) }.bump (chPage ch) F.DMA_st_BYTES (r / 64)

/-- Movement from `RESOFF` up, at most `n` bytes (R453): the resume point follows the bytes done. -/
def dmaAdvance (ch n : Nat) (s : State) : State × Option Nat :=
  let off := chGet s ch F.DMA_RESOFF_OFFSET
  let (s, m, e) := dmaWork ch off n s
  if chState s ch ≠ chRun then (s, none)
  else
    let k := dmaOf s ch
    let here := off + m
    let res := if e.isNone ∧ here = k.count then here else if k.op = opGather ∨ k.op = opScatter then 0 else here
    let s := chSet (setResume ch (chCur s ch) res s) ch F.DMA_REMAIN_BYTES (k.count - here)
    (dmaCount ch m s, e)

/-! ### Completion (R447 to R449, R454) -/

/-- A boundary before the descriptor at `next` (R449): a stop acts here. -/
def descBoundary (ch next : Nat) (s : State) : State :=
  let s := updDma (setResume ch next 0 s) ch fun k => { k with active := false }
  if chGet s ch F.DMA_STATUS_STOPREQ = 1 ∨ !pageRuns s ch then
    chSet (chSet s ch F.DMA_STATUS_STATE chStopped) ch F.DMA_STATUS_STOPREQ 0
  else setCur ch next s

/-- A descriptor whose every byte is done completes. -/
def descDone (ch : Nat) (s : State) : State :=
  let k := dmaOf s ch
  let s := s.bump (chPage ch) F.DMA_st_DESCS
  if k.descMis && k.stopMis then chainEnds ch s
  else if !k.last then descBoundary ch k.next s
  else if chGet s ch F.DMA_STATUS_KNOCKED = 0 then chainEnds ch s
  else match reread ch s with
    | (s, none, x) => dmaError ch x s
    | (s, some (true, _), _) => chainEnds ch s
    | (s, some (false, next), _) => descBoundary ch next s

/-- DESCRIPTOR_COMPLETE: the descriptor in progress moved as a whole, and what follows it. -/
def descComplete (ch : Nat) (s : State) : State :=
  if chState s ch ≠ chRun ∨ !(dmaOf s ch).active then s
  else
    let (s, e) := dmaAdvance ch (dmaOf s ch).count s
    if chState s ch ≠ chRun then s
    else match e with
      | some x => dmaError ch x s
      | none => descDone ch s

/-- DMA_BEAT_ERROR (R452): a bus error on a beat of a channel, at an address, once `done` more bytes of the descriptor in progress are done. A
response that fails late reaches a channel that has stopped or halted. -/
def beatError (ch addr done : Nat) (s : State) : State :=
  let st := chState s ch
  if st = chRun ∧ (dmaOf s ch).active then
    let (s, e) := dmaAdvance ch done s
    if chState s ch ≠ chRun then s else
      let s := if (dmaOf s ch).op = opGather ∨ (dmaOf s ch).op = opScatter then setResume ch (chCur s ch) 0 s else s
      dmaError ch (e.getD addr) s
  else if st = chRun ∨ st = chStopped ∨ st = chHalted then dmaError ch addr s
  else s

/-! ### Meanings -/

/-- DESCRIPTOR_FETCH (R444). -/
def execDescriptorFetch (ch : Fin 32) (s : State) := act (descFetch ch) s
/-- DESCRIPTOR_COMPLETE (R447). -/
def execDescriptorComplete (ch : Fin 32) (s : State) := act (descComplete ch) s
/-- DMA_BEAT_ERROR (R452). -/
def execDmaBeatError (ch : Fin 32) (addr : BitVec 40) (done : Nat) (s : State) := act (beatError ch addr.toNat done) s

end Sys2Proof.Machine
end

