-- ==== Sys2Proof/Machine/Jtag.lean ====
section
/-!
DEFINITION. The test access port (R575 to R577): instructions, the boundary register, and debug access.
-/
namespace Sys2Proof.Machine
open Sys2Proof

/-- The test port changed. -/
def updTap (s : State) (f : TapState → TapState) : State := { s with tap := f s.tap }

/-! ### Scanned balls (R576) -/

/-- The names of the scanned balls that are neither strand nor LATCH balls, in the order of their cells, and whether each is an
input only. -/
def namedBalls : List (String × Bool) :=
  ["TRIG0", "TRIG1", "TRIG2", "TRIG3", "TRIG4", "TRIG5", "TRIG6", "TRIG7"].map (fun n => (n, true)) ++
  ["TDM0_BCLK", "TDM0_FSYNC", "TDM0_D0", "TDM0_D1", "TDM0_D2", "TDM0_D3",
   "TDM1_BCLK", "TDM1_FSYNC", "TDM1_D0", "TDM1_D1", "TDM1_D2", "TDM1_D3",
   "AIR_CLK", "AIR_D0", "AIR_D1", "AIR_D2", "AIR_D3", "AIR_DIR"].map (fun n => (n, false)) ++
  [("AIR_IRQ", true), ("AIR_TXGO", false), ("AIR_RXSOF", true), ("SVC_TX", false), ("SVC_RX", true), ("SVC_DE", false),
   ("SVC_ATTN", false), ("REF_SYNC", true), ("PPS_IN", true), ("PPS_OUT", false), ("PMB_CLK", false), ("PMB_DATA", false),
   ("PMB_ALERT", true), ("RESET_N", true)] ++
  ["STRAP0", "STRAP1", "STRAP2", "STRAP3", "STRAP4", "STRAP5", "STRAP6", "STRAP7"].map (fun n => (n, true))

/-- Ball `b` in the order of the cells is an input only: its output cell captures 0 and drives nothing. -/
def inputOnly (b : Nat) : Bool := if b < 144 then false else ((namedBalls.getD (b - 144) ("", true)).2)

/-- What the boundary register captures, from the levels at the balls and what the data path drives there (`sensed`, cell by cell). The
output and enable cells of the strand and LATCH balls are those of the state. -/
def captureCells (sensed : List Bool) (s : State) : List Bool :=
  (List.range 576).map fun i =>
    let b := i / 3
    let seen := sensed.getD i false
    if i % 3 = 0 then seen
    else if inputOnly b then false
    else if b < 144 then
      match (s.outs.pins.getD b {}).level with
      | some l => if i % 3 = 1 then l else true
      | none => if i % 3 = 1 then seen else false
    else seen

/-- One scanned ball driven, or released, as a boundary instruction gives: from its output and enable cells. -/
def driveBall (b : Nat) (out oe : Bool) (s : State) : State :=
  if inputOnly b then s
  else if b < 144 then s.emit (if oe then .pin b out s.st 0 0 else .pinFloat b)
  else
    let n := (namedBalls.getD (b - 144) ("", true)).1
    s.emit (if oe then .ball n out else .ballFloat n)

/-- The balls driven from the boundary register (EXTEST and CLAMP). -/
def driveBoundary (s : State) : State :=
  (List.range 192).foldl (fun t b => driveBall b (s.tap.boundary.getD (3 * b + 1) false) (s.tap.boundary.getD (3 * b + 2) false) t) s

/-- Every scanned output high-impedance (HIGHZ). -/
def floatBalls (s : State) : State := (List.range 192).foldl (fun t b => driveBall b false false t) s

/-! ### Instructions (R575) -/

/-- Bits that leave a register of `l` bits while as many as `shift` holds enter it, the bit nearest TDO first; what the register then holds. -/
def shiftOut (l shift : List Bool) (s : State) : State × List Bool :=
  let all := l ++ shift
  (s.emit (.tdo (all.take shift.length)), all.drop shift.length)

/-- The code of an instruction that takes the balls from the data path: EXTEST, CLAMP and HIGHZ. -/
def holdsBalls (code : Nat) : Bool := code = 0 || code = 4 || code = 5

/-- The balls of the outputs whose level the state holds, back at what the data path gives them. -/
def ballsBack (s : State) : State :=
  let s := (List.range 144).foldl (fun t b =>
    match (t.outs.pins.getD b {}).level with
    | some l => t.emit (.pin b l t.st 0 0)
    | none => t.emit (.pinFloat b)) s
  let s := s.emit (.ball "SVC_ATTN" (!attnOut s))
  let s := if domainOn s 15 then s.emit (.ball "AIR_DIR" s.air.dirOut) else s
  if s.boot.outEn ∧ s.flag pgTIME F.TIME_PPSOUT_EN then
    s.emit (.ball "PPS_OUT" (s.flag pgTIME F.TIME_PPSOUT_POL != s.time.ppsHigh))
  else s.emit (.ballFloat "PPS_OUT")

/-- The instruction register changes: the balls return to the data path where the new instruction holds them no longer. -/
def setIr (code : Nat) (s : State) : State :=
  let was := s.tap.ir
  let s := updTap s fun t => { t with ir := code }
  if holdsBalls was ∧ !holdsBalls code then ballsBack s else s

/-- The instruction register loaded: what it captured leaves, 0b01 in bits 1 and 0 and BSREFUSED in bit 2. -/
def loadIr (code : Nat) (s : State) : State := setIr code (s.emit (.tdo [true, false, s.tap.refused, false, false, false]))

/-- The bypass register passed through: it captures 0. -/
def bypassScan (shift : List Bool) (s : State) : State := (shiftOut [false] shift s).1

/-- A boundary instruction loaded (R576): refused while an output is live, BYPASS then taking its place. -/
def boundaryIr (code : Nat) (s : State) : State × Bool :=
  if anyLive s then (updTap (loadIr 0x3F s) fun t => { t with refused := true }, false)
  else (updTap (loadIr code s) fun t => { t with refused := false }, true)

/-- The boundary register captured, shifted and, where it is shifted, updated. -/
def boundaryScan (sensed shift : List Bool) (s : State) : State :=
  let (s, b) := shiftOut (captureCells sensed s) shift s
  updTap s fun t => { t with boundary := b }

/-- A TAP reset: IDCODE is selected. BSREFUSED stays: it tells of the last boundary instruction. -/
def tapReset (s : State) : State := setIr 2 s

/-- EXTEST: the balls show the boundary register, and show it again once a scan has updated it. -/
def extest (sensed : List Bool) (shift : Option (List Bool)) (s : State) : State :=
  match boundaryIr 0 s with
  | (s, false) => bypassScan (shift.getD []) s
  | (s, true) =>
    let s := driveBoundary s
    match shift with
    | none => s
    | some b => driveBoundary (boundaryScan sensed b s)

/-- CLAMP. -/
def clampBalls (shift : List Bool) (s : State) : State :=
  match boundaryIr 4 s with
  | (s, false) => bypassScan shift s
  | (s, true) => bypassScan shift (driveBoundary s)

/-- HIGHZ. -/
def highz (shift : List Bool) (s : State) : State :=
  match boundaryIr 5 s with
  | (s, false) => bypassScan shift s
  | (s, true) => bypassScan shift (floatBalls s)

/-- The bits of a number, least significant first. -/
def bitList (n v : Nat) : List Bool := (List.range n).map v.testBit

/-- The device identification (R575). -/
def idCode : Nat := Config.stepping.toNat % 16 * 2 ^ 28 + 0x9600 * 2 ^ 12 + 0x4D9 * 2 + 1

/-! ### Debug access (R577) -/

/-- The register of DBGACC after an access; data that the manual gives no value is free. -/
def dbgDone (status addr : Nat) (data : Option Word) (s : State) : State :=
  match data with
  | some v => updTap s fun t => { t with status := status, addr := addr, data := v }
  | none =>
    let (s, r) := s.free
    updTap s fun t => { t with status := status, addr := addr, data := r.setWidth 32 }

/-- An address of debug access lies in the register page window. -/
def dbgPage (a : Nat) : Bool := region a = .page

/-- A READ of debug access: one naturally aligned 32-bit access under R6 and R10; none while a write of the port is still in progress. -/
def dbgRead (a : Nat) (s : State) : State :=
  if !sysOn s then s
  else
    let s := if s.tap.ir = 0x20 then s else loadIr 0x20 s
    if s.tap.status = 2 then s
    else if a % 4 ≠ 0 then dbgDone 1 a none s
    else if dbgPage a then
      if pageAccessOk a 4 then
        let (s, v) := regRead 7 (pageIndexAt a) (a % 4096) s
        dbgDone 0 a (some v) s
      else dbgDone 1 a none s
    else
      match rdWord (agentWho 7) a s with
      | (s, some v) => dbgDone 0 a (some (BitVec.ofNat 32 v)) s
      | (s, none) => dbgDone 1 a none s

/-- A WRITE of debug access; one whose handshake is withheld stays in progress (BUSY). -/
def dbgWrite (a : Nat) (v : Word) (s : State) : State :=
  if !sysOn s then s
  else
    let s := if s.tap.ir = 0x20 then s else loadIr 0x20 s
    if s.tap.status = 2 then s
    else if a % 4 ≠ 0 then dbgDone 1 a none s
    else if dbgPage a then
      if pageAccessOk a 4 then
        let t := regWrite 7 (pageIndexAt a) (a % 4096) v s
        dbgDone (if withheld s < withheld t then 2 else 0) a none t
      else dbgDone 1 a none s
    else
      match wr (agentWho 7) a (leBytes 4 v.toNat) s with
      | (s, ok) => dbgDone (if ok then 0 else 1) a none s

/-- Capture-DR of DBGACC: the last access's status, address and read data leave, the least significant bit first. -/
def dbgCapture (s : State) : State :=
  s.emit (.tdo (bitList 32 s.tap.data.toNat ++ bitList 40 s.tap.addr ++ bitList 2 s.tap.status))

/-! ### Meanings -/

/-- JTAG_TAP_RESET (R575). -/
def execJtagTapReset (s : State) := act tapReset s
/-- EXTEST (R576): with the levels that the balls show, cell by cell, and the bits of a scan of the boundary register, if one follows. -/
def execExtest (sensed : List Bool) (shift : Option (List Bool)) (s : State) := act (extest sensed shift) s
/-- SAMPLE_PRELOAD (R575). -/
def execSamplePreload (sensed shift : List Bool) (s : State) := act (fun s => boundaryScan sensed shift (loadIr 1 s)) s
/-- IDCODE (R575). -/
def execIdcode (s : State) := act (fun s => (loadIr 2 s).emit (.tdo (bitList 32 idCode))) s
/-- CLAMP (R576). -/
def execClamp (shift : List Bool) (s : State) := act (clampBalls shift) s
/-- HIGHZ (R576). -/
def execHighz (shift : List Bool) (s : State) := act (highz shift) s
/-- BYPASS (R575): its code or one that the table does not list. -/
def execBypass (code : BitVec 6) (shift : List Bool) (s : State) :=
  act (fun s =>
    let n := code.toNat
    if n = 0 ∨ n = 1 ∨ n = 2 ∨ n = 4 ∨ n = 5 ∨ n = 32 then s else bypassScan shift (loadIr n s)) s
/-- DBGACC_READ (R577). -/
def execDbgaccRead (addr : BitVec 40) (s : State) := act (dbgRead addr.toNat) s
/-- DBGACC_WRITE (R577). -/
def execDbgaccWrite (addr : BitVec 40) (data : Word) (s : State) := act (dbgWrite addr.toNat data) s
/-- DBGACC_CAPTURE (R577). -/
def execDbgaccCapture (s : State) := act dbgCapture s

end Sys2Proof.Machine
end

