-- ==== Sys2Proof/Machine/Svc.lean ====
section
/-!
DEFINITION. The service port (R549 to R553): frames, the operations on registers and memory, and those of the bench.
-/
namespace Sys2Proof.Machine
open Sys2Proof

/-- The service responder is there to answer (R549): SYS is on, and no reset or start is about to take place. -/
def svcUp (s : State) : Bool := !sysDown s && devState s < 2 && s.pwr.en.all id

/-- The bus address of the straps (R538). -/
def svcAddr (s : State) : Nat := s.get pgBOOT F.BOOT_STRAPS % 32

/-- The operations allowed with BCAST (R552). -/
def svcBcastOk (op : Nat) : Bool := op = 4 || op = 0x10 || op = 0x11 || op = 0x13 || op = 0x14 || op = 0x15

/-- The reply to a request (R550, R551). -/
def svcReply (op : Nat) (seq : Byte) (status : Nat) (body : List Byte) (s : State) : State :=
  let h := [0xD5, 0x6E, BitVec.ofNat 8 (svcAddr s + 0x20), BitVec.ofNat 8 op, seq, BitVec.ofNat 8 status] ++ beBytes 2 body.length ++ body
  s.emit (.svcFrame (h ++ beBytes 4 (crc32 h).toNat))

/-- A request's end (R551): OP, SEQ and STATUS in LAST, and the reply, unless it was a broadcast; a WRITEREG whose write is withheld stays in
progress (R552). -/
def svcEnd (bcast : Bool) (op : Nat) (seq : Byte) (status : Nat) (body : List Byte) (s : State) : State :=
  if sysDown s then s
  else match s.svc.held with
    | some h => { s with svc := { s.svc with held := some { h with out := body, bad := status ≠ 0 }, heldReq := some (bcast, seq) } }
    | none =>
      let s := s.setReg pgSVC 0x04C (BitVec.ofNat 32 (op + seq.toNat * 0x100 + status * 0x10000))
      if bcast then s else svcReply op seq status body s

/-- The WRITEREG in progress goes on where its withheld write has ended. -/
def svcResume (s : State) : State :=
  match s.svc.held, s.svc.heldReq with
  | some ⟨left, out, bad, some code⟩, some (bcast, seq) =>
    let s := { s with svc := { s.svc with held := none, heldReq := none } }
    let (s, l, e) := writeItems 6 (fun p off v => regWrite 6 p off v) left s
    svcEnd bcast 4 seq (bad || code ≠ 0 || e).toNat (out ++ itemBytes (if code = 0 then 0 else 2) code ++ l) s
  | _, _ => s

/-- A request of the bus, by the address of its frame, BCAST, OP and SEQ: taken where it is addressed to this node or to all (R551), executed, and
replied to unless it is a broadcast or ended in a restart. `f` answers STATUS and the reply body. One that comes while a WRITEREG is still in progress
is not taken (DESIGN CHOICE, notes/assumptions/110.md). -/
def svcTake (addr : BitVec 5) (bcast : Bool) (op : Nat) (seq : Byte) (f : State → State × Nat × List Byte) (s : State) : State :=
  if !svcUp s ∨ !(bcast || addr.toNat = svcAddr s) ∨ (bcast && !svcBcastOk op) then s
  else
    let s := svcResume s
    if s.svc.held.isSome ∨ sysDown s then s
    else
      let s := s.bump pgSVC F.SVC_st_REQUESTS
      let s := if bcast then s.bump pgSVC F.SVC_st_BCAST else s
      let (s, status, body) := f (s.evt pgSVC 0)
      svcEnd bcast op seq status body s

/-- An operation 0x01 to 0x05 (R552): as the Cane responder's, by agent 6. -/
def svcReg (op : Nat) (b : List Byte) (s : State) : State × Nat × List Byte :=
  if !bodyOk op b then (s, 3, []) else regOp 6 (fun p off v => regWrite 6 p off v) op b s

/-- READMEM (R552). -/
def svcReadMem (b : List Byte) (s : State) : State × Nat × List Byte :=
  let a := beVal (slice b 0 5)
  let n := beVal (slice b 5 2)
  if b.length ≠ 7 then (s, 3, [])
  else if n = 0 ∨ 1016 < n ∨ (a ≤ 0x40FFFFFF ∧ 0x40000000 < a + n) then (s, 7, [])
  else
    match rd (agentWho 6) a n s with
    | (s, some d) => (s, 0, 0 :: d)
    | (s, none) => (s, 1, 1 :: List.replicate n 0)

/-- A bench operation with a body of a given length, refused while a copy is in progress (R544); in SERVICE WAIT step 4 is over, or has not begun. -/
def benchOp (lenOk : Bool) (f : State → State × Nat × List Byte) (s : State) : State × Nat × List Byte :=
  if !lenOk then (s, 3, []) else if s.boot.jState = 2 ∧ !s.boot.svcWait then (s, 4, []) else f s

/-- BENCHOPEN (R552): a request of a copy is withdrawn. -/
def benchOpen (s : State) : State × Nat × List Byte := (journalWrite 0 false s.boot.jLen s.boot.jNext s, 0, [])

/-- BENCHWRITE (R552): programmed under the device's own path (R424), counted in units of 256 bytes. -/
def benchWrite (b : List Byte) (s : State) : State × Nat × List Byte :=
  let off := beVal (b.take 4)
  let d := b.drop 4
  if 0x600000 < off + d.length then (s, 7, [])
  else if !domainOn s 9 then (s, 1, [])
  else
    let s := internalProg (0x600000 + off) d s
    let s := if s.boot.jVerified then journalWrite s.boot.jState false s.boot.jLen s.boot.jNext s else s
    let n := s.svc.benchRem + d.length
    let s := { s with svc := { s.svc with benchRem := n % 256 } }
    ((s.bump pgSVC F.SVC_st_BENCHPROG (n / 256)).evt pgSVC 2, 0, [])

/-- BENCHVERIFY (R540, R552): it checks what the programs in progress leave. -/
def benchVerify (s : State) : State × Nat × List Byte :=
  let (s, c, h) := imageCheck 0x600000 (progsEnd s)
  let body := BitVec.ofNat 8 c :: (beBytes 4 (leVal (slice h 12 4)) ++ beBytes 4 (leVal (slice h 8 4)))
  if c = 0 then (journalWrite s.boot.jState true (leVal (slice h 8 4)) s.boot.jNext s, 0, body) else (s, 6, body)

/-- BENCHCOMMIT (R552). -/
def benchCommit (s : State) : State × Nat × List Byte :=
  if s.boot.jVerified then (journalWrite 1 true s.boot.jLen 0 s, 0, []) else (s, 5, [])

/-- RESTART (R552, R529): the restart begins once the reply has ended. -/
def svcRestart (addr : BitVec 5) (bcast : Bool) (seq : Byte) (b : List Byte) (s : State) : State :=
  let free := (svcResume s).svc.held.isNone && !sysDown (svcResume s)
  let took := svcUp s && (bcast || addr.toNat = svcAddr s) && decide (b.length = 1) && free
  let s := svcTake addr bcast 0x14 seq (fun s => (s, if b.length = 1 then 0 else 3, [])) s
  if took then restart ((b.getD 0 0).getLsbD 0) 6 s else s

/-- A frame that the receiver discards (R550). -/
def svcDiscard (crc : Bool) (s : State) : State :=
  if svcUp s ∧ crc then (s.bump pgSVC F.SVC_st_CRCERR).evt pgSVC 1 else s

/-! ### Meanings -/

/-- SVC_STATUS (R552). -/
def execSvcStatus (addr : BitVec 5) (bcast : Bool) (seq : Byte) (body : List Byte) (s : State) := act (svcTake addr bcast 1 seq (svcReg 1 body)) s
/-- SVC_PAGESTATE (R552). -/
def execSvcPagestate (addr : BitVec 5) (bcast : Bool) (seq : Byte) (body : List Byte) (s : State) := act (svcTake addr bcast 2 seq (svcReg 2 body)) s
/-- SVC_READREG (R552). -/
def execSvcReadreg (addr : BitVec 5) (bcast : Bool) (seq : Byte) (body : List Byte) (s : State) := act (svcTake addr bcast 3 seq (svcReg 3 body)) s
/-- SVC_WRITEREG (R552). -/
def execSvcWritereg (addr : BitVec 5) (bcast : Bool) (seq : Byte) (body : List Byte) (s : State) := act (svcTake addr bcast 4 seq (svcReg 4 body)) s
/-- SVC_READBLOCK (R552). -/
def execSvcReadblock (addr : BitVec 5) (bcast : Bool) (seq : Byte) (body : List Byte) (s : State) := act (svcTake addr bcast 5 seq (svcReg 5 body)) s
/-- READMEM (R552). -/
def execReadmem (addr : BitVec 5) (bcast : Bool) (seq : Byte) (body : List Byte) (s : State) := act (svcTake addr bcast 6 seq (svcReadMem body)) s
/-- BENCHOPEN (R552). -/
def execBenchopen (addr : BitVec 5) (bcast : Bool) (seq : Byte) (body : List Byte) (s : State) :=
  act (svcTake addr bcast 0x10 seq (benchOp body.isEmpty benchOpen)) s
/-- BENCHWRITE (R552). -/
def execBenchwrite (addr : BitVec 5) (bcast : Bool) (seq : Byte) (body : List Byte) (s : State) :=
  act (svcTake addr bcast 0x11 seq (benchOp (decide (5 ≤ body.length ∧ body.length ≤ 1020)) (benchWrite body))) s
/-- BENCHVERIFY (R552). -/
def execBenchverify (addr : BitVec 5) (bcast : Bool) (seq : Byte) (body : List Byte) (s : State) :=
  act (svcTake addr bcast 0x12 seq (benchOp body.isEmpty benchVerify)) s
/-- BENCHCOMMIT (R552). -/
def execBenchcommit (addr : BitVec 5) (bcast : Bool) (seq : Byte) (body : List Byte) (s : State) :=
  act (svcTake addr bcast 0x13 seq (benchOp body.isEmpty benchCommit)) s
/-- SVC_RESTART (R552). -/
def execSvcRestart (addr : BitVec 5) (bcast : Bool) (seq : Byte) (body : List Byte) (s : State) := act (svcRestart addr bcast seq body) s
/-- CLEARFAIL (R552). -/
def execClearfail (addr : BitVec 5) (bcast : Bool) (seq : Byte) (body : List Byte) (s : State) :=
  act (svcTake addr bcast 0x15 seq fun s => if body.isEmpty then (s.set pgBOOT F.BOOT_FAIL_COUNT 0, 0, []) else (s, 3, [])) s
/-- SVC_FRAME_DISCARD (R550): for a wrong CRC, or for more than 32 bit times between two characters. -/
def execSvcFrameDiscard (crc : Bool) (s : State) := act (svcDiscard crc) s
/-- SVC_BAD_OP (R553): an OP that R552 does not list. -/
def execSvcBadOp (addr : BitVec 5) (bcast : Bool) (op : Byte) (seq : Byte) (s : State) :=
  act (fun s =>
    if (1 ≤ op.toNat ∧ op.toNat ≤ 6) ∨ (0x10 ≤ op.toNat ∧ op.toNat ≤ 0x15) then s
    else svcTake addr bcast op.toNat seq (fun s => (s, 2, [])) s) s

end Sys2Proof.Machine
end

