-- ==== Sys2Proof/Machine/Writes.lean ====
section
/-!
DEFINITION. The commands that are writes of registers, and the events that end what such a write began. A write command carries the agent that makes
the access (R74).
-/
namespace Sys2Proof.Machine
open Sys2Proof

/-- REGISTER_WRITE (R68): a write at an offset of the register page window. -/
def execRegisterWrite (a : BitVec 4) (off : BitVec 24) (v : Word) (s : State) := act (busWrite a off.toNat v) s
/-- STAGED_WRITE (R75): a write of staged fields, at an offset of the register page window. -/
def execStagedWrite (a : BitVec 4) (off : BitVec 24) (v : Word) (s : State) := act (busWrite a off.toNat v) s
/-- QUEUE_POP (R462): a read of POPq. -/
def execQueuePop (a : BitVec 4) (q : Fin 64) (s : State) := act (busRead a (regKey pgQUE (0x300 + 4 * q.val))) s
/-- SERVOSRC_WRITE (R37): a write of SERVOSRC.SRC. -/
def execServosrcWrite (a : BitVec 4) (src : BitVec 3) (s : State) := act (busWrite a (regKey pgTIME 0x0A0) (src.setWidth 32)) s
/-- FREEZE_WRITE (R37): a write of SERVOCTL with its FREEZE bit as given. -/
def execFreezeWrite (a : BitVec 4) (on : Bool) (s : State) := act (busWrite a (regKey pgTIME 0x0A4) (setBits (s.reg pgTIME 0x0A4) 1 1 on.toNat)) s
/-- SETGO (R42): a write of SETGO.GO. -/
def execSetgo (a : BitVec 4) (s : State) := act (busWrite a (regKey pgTIME 0x0F8) 1) s
/-- SNAP_CAPTURE (R62): a write of SNAP.CAP. -/
def execSnapCapture (a : BitVec 4) (s : State) := act (busWrite a (regKey pgTIME 0x0C4) 1) s
/-- MODE_REQUEST (R59): a write of MODE.REQIDX. -/
def execModeRequest (a : BitVec 4) (idx : BitVec 5) (s : State) := act (busWrite a (regKey pgTIME 0x040) (idx.setWidth 32)) s
/-- PHASE_SRC_WRITE (R54): a write of PHASE with its SRC as given. -/
def execPhaseSrcWrite (a : BitVec 4) (src : BitVec 2) (s : State) := act (busWrite a (regKey pgTIME 0x044) (setBits (s.reg pgTIME 0x044) 0 2 src.toNat)) s
/-- CLAIM (R77): a write of CMT.OWN.CLAIM. -/
def execClaim (a : BitVec 4) (s : State) := act (busWrite a (regKey pgCMT 0x040) 0x100) s
/-- RELEASE (R77): a write of CMT.OWN.RELEASE. -/
def execRelease (a : BitVec 4) (s : State) := act (busWrite a (regKey pgCMT 0x040) 0x200) s
/-- SEIZE (R77): a write of CMT.OWN.SEIZE. -/
def execSeize (a : BitVec 4) (s : State) := act (busWrite a (regKey pgCMT 0x040) 0x400) s
/-- DISCARD (R78): a write of CMT.CTL.DISCARD. -/
def execDiscard (a : BitVec 4) (s : State) := act (busWrite a (regKey pgCMT 0x044) 1) s
/-- DISARM (R83): a write of CMT.CTL.DISARM. -/
def execDisarm (a : BitVec 4) (s : State) := act (busWrite a (regKey pgCMT 0x044) 2) s
/-- ARM (R79): a write of CMT.ARM. -/
def execArm (a : BitVec 4) (v : Word) (s : State) := act (busWrite a (regKey pgCMT 0x050) v) s
/-- STATHOLD_WRITE (R87): a write of SYS.STATHOLD.COUNT. -/
def execStatholdWrite (a : BitVec 4) (n : BitVec 7) (s : State) := act (busWrite a (regKey pgSYS 0x040) (n.setWidth 32)) s
/-- NVM_PROG (R423): a write of NVM.CMD.PROG. -/
def execNvmProg (a : BitVec 4) (s : State) := act (busWrite a (regKey pgNVM 0x048) 1) s
/-- NVM_ZERO (R423): a write of NVM.CMD.ZERO. -/
def execNvmZero (a : BitVec 4) (s : State) := act (busWrite a (regKey pgNVM 0x048) 2) s
/-- NVM_BUFFER_WRITE (R424): a write of one word of the NVM buffer. -/
def execNvmBufferWrite (a : BitVec 4) (word : Fin 64) (v : Word) (s : State) := act (busWrite a (regKey pgNVM (0xC00 + 4 * word.val)) v) s
/-- FS_INJECT (R437): a write of FS.INJECT with GO. -/
def execFsInject (a : BitVec 4) (double sram : Bool) (s : State) := act (busWrite a (regKey pgFS 0x044) (BitVec.ofNat 32 (1 + 2 * double.toNat + 4 * sram.toNat))) s
/-- ERRCLR (R437): a write of FS.ERRCLR. -/
def execErrclr (a : BitVec 4) (s : State) := act (busWrite a (regKey pgFS 0x058) 1) s
/-- OVR_FIRE (R211): a write of OVR.FIRE. -/
def execOvrFire (a : BitVec 4) (mask : Byte) (s : State) := act (busWrite a (regKey pgOVR 0x060) (mask.setWidth 32)) s
/-- OVR_RELEASE (R211): a write of OVR.RELEASE. -/
def execOvrRelease (a : BitVec 4) (mask : Byte) (s : State) := act (busWrite a (regKey pgOVR 0x064) (mask.setWidth 32)) s
/-- GPIOPUSH (R208): a write of a port's GPIOPUSH. -/
def execGpiopush (a : BitVec 4) (port : Fin 64) (v : Word) (s : State) := act (busWrite a (regKey (pgSTD port) 0x074) v) s
/-- RDM_GO (R201): a write of a port's RDMCTL with GO and its other fields as they stand. -/
def execRdmGo (a : BitVec 4) (port : Fin 64) (s : State) := act (busWrite a (regKey (pgSTD port) 0x084) (s.reg (pgSTD port) 0x084 ||| 0x100)) s
/-- EVENT_CLEAR (R68): a write of a page's EVT. -/
def execEventClear (a : BitVec 4) (page : BitVec 12) (bits : Word) (s : State) := act (busWrite a (regKey page.toNat 0x010) bits) s
/-- FAULT_CLEAR (R66): a write of a page's FAULT. -/
def execFaultClear (a : BitVec 4) (page : BitVec 12) (s : State) := act (busWrite a (regKey page.toNat 0x018) 0) s
/-- DMA_GO (R446): a write of a channel's CTL.GO. -/
def execDmaGo (a : BitVec 4) (ch : Fin 32) (s : State) := act (busWrite a (regKey (chPage ch) (0x108 + 64 * (ch.val % 16))) 1) s
/-- DMA_STOP (R449): a write of a channel's CTL.STOP. -/
def execDmaStop (a : BitVec 4) (ch : Fin 32) (s : State) := act (busWrite a (regKey (chPage ch) (0x108 + 64 * (ch.val % 16))) 2) s
/-- DMA_KNOCK (R454): a write of a channel's CTL.KNOCK. -/
def execDmaKnock (a : BitVec 4) (ch : Fin 32) (s : State) := act (busWrite a (regKey (chPage ch) (0x108 + 64 * (ch.val % 16))) 4) s
/-- DMA_RESUME (R453): a write of a channel's CTL.RESUME. -/
def execDmaResume (a : BitVec 4) (ch : Fin 32) (s : State) := act (busWrite a (regKey (chPage ch) (0x108 + 64 * (ch.val % 16))) 8) s
/-- DMA_CLEAR (R446): a write of a channel's CTL.CLEAR. -/
def execDmaClear (a : BitVec 4) (ch : Fin 32) (s : State) := act (busWrite a (regKey (chPage ch) (0x108 + 64 * (ch.val % 16))) 16) s
/-- CLEARHALT (R452): a write of ENGINE.CLEARHALT. -/
def execClearhalt (a : BitVec 4) (s : State) := act (busWrite a (regKey (pgDMA 0) 0x040) 2) s
/-- QUEUE_CFG_WRITE (R460): a write of CFGq. -/
def execQueueCfgWrite (a : BitVec 4) (q : Fin 64) (v : Word) (s : State) := act (busWrite a (regKey pgQUE (0x100 + 4 * q.val)) v) s
/-- QUEUE_PUSH (R461): a write of PUSHq with bytes 12 to 15 of the item. -/
def execQueuePush (a : BitVec 4) (q : Fin 64) (v : Word) (s : State) := act (busWrite a (regKey pgQUE (0x200 + 4 * q.val)) v) s
/-- QUEUE_DROP (R463): a write of DROP. -/
def execQueueDrop (a : BitVec 4) (q : Fin 64) (s : State) := act (busWrite a (regKey pgQUE 0x060) (BitVec.ofNat 32 q.val)) s
/-- STATECTL_RUN (R514): a request of RUN. -/
def execStatectlRun (a : BitVec 4) (s : State) := act (busWrite a (regKey pgPMU 0x040) 0) s
/-- STATECTL_DIM (R514): a request of DIM. -/
def execStatectlDim (a : BitVec 4) (s : State) := act (busWrite a (regKey pgPMU 0x040) 1) s
/-- STATECTL_RETENTION_SLEEP (R516): a request of RETENTION SLEEP. -/
def execStatectlRetentionSleep (a : BitVec 4) (s : State) := act (busWrite a (regKey pgPMU 0x040) 2) s
/-- STATECTL_DORMANT (R518): a request of DORMANT. -/
def execStatectlDormant (a : BitVec 4) (s : State) := act (busWrite a (regKey pgPMU 0x040) 3) s
/-- DOMREQ_WRITE (R512): a write of PMU.DOMREQ. -/
def execDomreqWrite (a : BitVec 4) (v : Word) (s : State) := act (busWrite a (regKey pgPMU 0x060) v) s
/-- CONFIRM (R535): a write of BOOT.CTL.CONFIRM. -/
def execConfirm (a : BitVec 4) (s : State) := act (busWrite a (regKey pgBOOT 0x044) 1) s
/-- BOOT_RESTART (R529): a write of BOOT.CTL.RESTART. -/
def execBootRestart (a : BitVec 4) (cold : Bool) (s : State) := act (busWrite a (regKey pgBOOT 0x044) (if cold then 6 else 2)) s
/-- BOOT_READY (R533): a write of BOOT.READY. -/
def execBootReady (a : BitVec 4) (s : State) := act (busWrite a (regKey pgBOOT 0x058) 1) s
/-- FAIL_CLEAR (R556): a write of BOOT.FAIL.CLEAR. -/
def execFailClear (a : BitVec 4) (s : State) := act (busWrite a (regKey pgBOOT 0x070) 0x100) s
/-- WDKICK (R536): a write of BOOT.WDKICK. -/
def execWdkick (a : BitVec 4) (v : Word) (s : State) := act (busWrite a (regKey pgBOOT 0x054) v) s
/-- WDOG_TIMEOUT_WRITE (R536): a write of BOOT.WDOG.TIMEOUT. -/
def execWdogTimeoutWrite (a : BitVec 4) (ms : BitVec 16) (s : State) := act (busWrite a (regKey pgBOOT 0x050) (ms.setWidth 32)) s
/-- KEYREVOKE (R540): a write of BOOT.KEYREVOKE. -/
def execKeyrevoke (a : BitVec 4) (keys : BitVec 4) (s : State) := act (busWrite a (regKey pgBOOT 0x07C) (keys.setWidth 32)) s
/-- ATTN_ACK (R551): a write of SVC.ATTN with ACK and FORCE as it stands. -/
def execAttnAck (a : BitVec 4) (s : State) := act (busWrite a (regKey pgSVC 0x048) (setBits (s.reg pgSVC 0x048) 1 1 1)) s
/-- KEY_CLEAR (R306): a write of KEYCTL.CLEAR. -/
def execKeyClear (a : BitVec 4) (slot : Fin 2) (s : State) := act (busWrite a (regKey pgCANE 0x050) (BitVec.ofNat 32 (2 ^ (8 + slot.val)))) s
/-- IDCFG_WRITE (R390): a write of FAB.IDCFG. -/
def execIdcfgWrite (a : BitVec 4) (v : Word) (s : State) := act (busWrite a (regKey pgFAB 0x040) v) s
/-- FCMT_GO (R378): a write of FCMT.GO with its policy and scope. -/
def execFcmtGo (a : BitVec 4) (window own : Bool) (s : State) := act (busWrite a (regKey pgFAB 0x084) (BitVec.ofNat 32 (1 + 2 * window.toNat + 4 * own.toNat))) s
/-- FCCTL_FIRE (R378): a write of FCCTL.FIRE. -/
def execFcctlFire (a : BitVec 4) (s : State) := act (busWrite a (regKey pgFAB 0x090) 1) s
/-- FCCTL_ABORT (R378): a write of FCCTL.ABORT. -/
def execFcctlAbort (a : BitVec 4) (s : State) := act (busWrite a (regKey pgFAB 0x090) 2) s
/-- FAB_TXTAIL_WRITE (R387): a write of the fabric's TXTAIL. -/
def execFabTxtailWrite (a : BitVec 4) (idx : BitVec 12) (s : State) := act (busWrite a (regKey pgFAB 0x0F8) (idx.setWidth 32)) s
/-- CPU_MODE_WRITE (R473): a write of CPUn.REQ.MODE. -/
def execCpuModeWrite (a : BitVec 4) (core : Fin 4) (mode : BitVec 2) (s : State) := act (busWrite a (regKey (pgCPU core) 0x008) (mode.setWidth 32)) s
/-- SOURCE_TARGET_WRITE (R482): a write of SRCs with its TARGET as given. -/
def execSourceTargetWrite (a : BitVec 4) (src : Fin 256) (core : Fin 4) (s : State) := act (busWrite a (regKey pgEVC (0x100 + 4 * src.val)) (setBits (s.reg pgEVC (0x100 + 4 * src.val)) 4 2 core)) s
/-- EVC_SET (R494): a write of EVC.SET. -/
def execEvcSet (a : BitVec 4) (src : Byte) (s : State) := act (busWrite a (regKey pgEVC 0x040) (src.setWidth 32)) s
/-- EVC_CLR (R494): a write of EVC.CLR. -/
def execEvcClr (a : BitVec 4) (src : Byte) (s : State) := act (busWrite a (regKey pgEVC 0x044) (src.setWidth 32)) s
/-- PSET (R492): a write of CPUn.PSET. -/
def execPset (a : BitVec 4) (core : Fin 4) (src : Fin 32) (s : State) := act (busWrite a (regKey (pgCPU core) 0x180) (BitVec.ofNat 32 src.val)) s
/-- PCLR (R492): a write of CPUn.PCLR. -/
def execPclr (a : BitVec 4) (core : Fin 4) (src : Fin 32) (s : State) := act (busWrite a (regKey (pgCPU core) 0x184) (BitVec.ofNat 32 src.val)) s
/-- DOORBELL (R475): a write of CPUn.DOORBELL. -/
def execDoorbell (a : BitVec 4) (core : Fin 4) (bells : Byte) (s : State) := act (busWrite a (regKey (pgCPU core) 0x050) (bells.setWidth 32)) s
/-- TSK_POST (R490): a write of TSK.POST. -/
def execTskPost (a : BitVec 4) (task : BitVec 10) (s : State) := act (busWrite a (regKey pgTSK 0x05C) (task.setWidth 32)) s
/-- DELAYGO (R489): a write of TSK.DELAYGO. -/
def execDelaygo (a : BitVec 4) (task : BitVec 10) (abs : Bool) (s : State) := act (busWrite a (regKey pgTSK 0x064) (BitVec.ofNat 32 (task.toNat + 0x10000 * abs.toNat))) s
/-- CANCEL (R487): a write of TSK.CANCEL. -/
def execCancel (a : BitVec 4) (task : BitVec 10) (s : State) := act (busWrite a (regKey pgTSK 0x068) (task.setWidth 32)) s

/-- R484: an external input's filter accepts a change of level. The accepted change counts from the instant the input first
changed, FILTER ns before its acceptance; an arrival is accepted where the input's MODE makes one of the change. -/
def extAccept (k : Nat) (level : Bool) (s : State) : State :=
  let was := s.evc.extLevel.getD k false
  if was = level then s
  else
    let n := 228 + k
    let st := s.st - BitVec.ofNat 32 (s.get pgEVC F.EVC_EXT_FILTER k)
    let before := levelCond s n
    let s := { s with evc := { s.evc with extLevel := s.evc.extLevel.set k level } }
    let edge := match s.get pgEVC F.EVC_EXT_MODE k with
      | 1 => level
      | 2 => !level
      | 3 => true
      | 4 | 5 => !before && levelCond s n
      | _ => false
    if edge then arrive n (s.set pgEVC F.EVC_EXTST_ST st.toNat k) else s

/-! ### Events of the event controller, the scheduler and the cores -/

/-- SOURCE_ARRIVAL (R476): an arrival at a shared source. -/
def execSourceArrival (src : Fin 256) (s : State) := act (arrive src) s
/-- TIMER_SOURCE (R475): ST reaches a core's `dttcmp`. -/
def execTimerSource (core : Fin 4) (s : State) := act (arrivePriv core 0) s
/-- EXT_FILTER_ACCEPT (R484). -/
def execExtFilterAccept (input : Fin 8) (level : Bool) (s : State) := act (extAccept input level) s
/-- CORE_WAKE (R483): a core that was asked to wake is awake. -/
def execCoreWake (core : Fin 4) (s : State) := act (fun s => if (s.core core).wakeAsked then coreMask core (coreWake core s) else s) s
/-- POST_DRAIN (R490). -/
def execPostDrain (s : State) := act drainPost s
/-- DELAY_TICK (R489). -/
def execDelayTick (s : State) := act delayTick s

end Sys2Proof.Machine
end

