-- ==== Sys2Proof/Machine/Dispatch.lean ====
section
/-!
DEFINITION. The dispatch of a command to its meaning: one arm per row of the table of operations and events.
-/
namespace Sys2Proof.Machine
open Sys2Proof

def exec (i : Instr) (s : State) : Host.Outcome State Fault Refusal :=
  match i with
  | .frameStart => Sys2Proof.Machine.execFrameStart s
  | .commitCutoff => Sys2Proof.Machine.execCommitCutoff s
  | .stateSweep => Sys2Proof.Machine.execStateSweep s
  | .colourLanePass strand => Sys2Proof.Machine.execColourLanePass strand s
  | .strandPrepared strand => Sys2Proof.Machine.execStrandPrepared strand s
  | .fetchMiss ven => Sys2Proof.Machine.execFetchMiss ven s
  | .shiftStart strand => Sys2Proof.Machine.execShiftStart strand s
  | .shiftEnd strand ret seen => Sys2Proof.Machine.execShiftEnd strand ret seen s
  | .latchPulse grp => Sys2Proof.Machine.execLatchPulse grp s
  | .latchPulseEnd grp => Sys2Proof.Machine.execLatchPulseEnd grp s
  | .edgePlace place => Sys2Proof.Machine.execEdgePlace place s
  | .pinCheckSample pin seen => Sys2Proof.Machine.execPinCheckSample pin seen s
  | .wordReadMiss strand word => Sys2Proof.Machine.execWordReadMiss strand word s
  | .matrixSwitch strand => Sys2Proof.Machine.execMatrixSwitch strand s
  | .pwmPeriodStart strand => Sys2Proof.Machine.execPwmPeriodStart strand s
  | .dmxBreak strand => Sys2Proof.Machine.execDmxBreak strand s
  | .rdmGo a port => Sys2Proof.Machine.execRdmGo a port s
  | .rdmResponseTimeout strand => Sys2Proof.Machine.execRdmResponseTimeout strand s
  | .rdmReceptionEnd strand data framing => Sys2Proof.Machine.execRdmReceptionEnd strand data framing s
  | .rdmMarkEnd strand => Sys2Proof.Machine.execRdmMarkEnd strand s
  | .panelRowSlot strand => Sys2Proof.Machine.execPanelRowSlot strand s
  | .gpioPulse strand => Sys2Proof.Machine.execGpioPulse strand s
  | .gpiopush a port v => Sys2Proof.Machine.execGpiopush a port v s
  | .trigFilterAccept input level => Sys2Proof.Machine.execTrigFilterAccept input level s
  | .ovrFire a mask => Sys2Proof.Machine.execOvrFire a mask s
  | .ovrRelease a mask => Sys2Proof.Machine.execOvrRelease a mask s
  | .calRunStart trigger => Sys2Proof.Machine.execCalRunStart trigger s
  | .calRunnow bank => Sys2Proof.Machine.execCalRunnow bank s
  | .calWindowOpen => Sys2Proof.Machine.execCalWindowOpen s
  | .calWindowClose hits => Sys2Proof.Machine.execCalWindowClose hits s
  | .calTableComputeDone => Sys2Proof.Machine.execCalTableComputeDone s
  | .calStale bank => Sys2Proof.Machine.execCalStale bank s
  | .adcGroupStart g => Sys2Proof.Machine.execAdcGroupStart g s
  | .adcGrpstart v => Sys2Proof.Machine.execAdcGrpstart v s
  | .adcSample raw => Sys2Proof.Machine.execAdcSample raw s
  | .adcGroupEnd => Sys2Proof.Machine.execAdcGroupEnd s
  | .adcCalStart => Sys2Proof.Machine.execAdcCalStart s
  | .adcCalEnd zero full => Sys2Proof.Machine.execAdcCalEnd zero full s
  | .adcCalStarve => Sys2Proof.Machine.execAdcCalStarve s
  | .dieTempConversion temp => Sys2Proof.Machine.execDieTempConversion temp s
  | .servoMeasurement src off => Sys2Proof.Machine.execServoMeasurement src off s
  | .servoSourceTimeout => Sys2Proof.Machine.execServoSourceTimeout s
  | .freqSlewIncrement => Sys2Proof.Machine.execFreqSlewIncrement s
  | .servosrcWrite a src => Sys2Proof.Machine.execServosrcWrite a src s
  | .freezeWrite a on => Sys2Proof.Machine.execFreezeWrite a on s
  | .setgo a => Sys2Proof.Machine.execSetgo a s
  | .snapCapture a => Sys2Proof.Machine.execSnapCapture a s
  | .acqwaitExpiry => Sys2Proof.Machine.execAcqwaitExpiry s
  | .holdoverStore => Sys2Proof.Machine.execHoldoverStore s
  | .modeRequest a idx => Sys2Proof.Machine.execModeRequest a idx s
  | .modeChangeTEnd => Sys2Proof.Machine.execModeChangeTEnd s
  | .phaseStepTEnd => Sys2Proof.Machine.execPhaseStepTEnd s
  | .phaseSrcWrite a src => Sys2Proof.Machine.execPhaseSrcWrite a src s
  | .referenceInstant ltc t => Sys2Proof.Machine.execReferenceInstant ltc t s
  | .referenceMissed => Sys2Proof.Machine.execReferenceMissed s
  | .triggerFire n => Sys2Proof.Machine.execTriggerFire n s
  | .trgcfgWrite a n v => Sys2Proof.Machine.execTrgcfgWrite a n v s
  | .trgtimeWrite n v => Sys2Proof.Machine.execTrgtimeWrite n v s
  | .trgperiodWrite a n v => Sys2Proof.Machine.execTrgperiodWrite a n v s
  | .ppsPulse => Sys2Proof.Machine.execPpsPulse s
  | .ppsPulseEnd => Sys2Proof.Machine.execPpsPulseEnd s
  | .ptpMessageReceive port t msg => Sys2Proof.Machine.execPtpMessageReceive port t msg s
  | .ptpEventTransmit port delayReq => Sys2Proof.Machine.execPtpEventTransmit port delayReq s
  | .registerWrite a off v => Sys2Proof.Machine.execRegisterWrite a off v s
  | .stagedWrite a off v => Sys2Proof.Machine.execStagedWrite a off v s
  | .eventClear a page bits => Sys2Proof.Machine.execEventClear a page bits s
  | .faultClear a page => Sys2Proof.Machine.execFaultClear a page s
  | .claim a => Sys2Proof.Machine.execClaim a s
  | .release a => Sys2Proof.Machine.execRelease a s
  | .seize a => Sys2Proof.Machine.execSeize a s
  | .discard a => Sys2Proof.Machine.execDiscard a s
  | .disarm a => Sys2Proof.Machine.execDisarm a s
  | .arm a v => Sys2Proof.Machine.execArm a v s
  | .commitCheckEnd => Sys2Proof.Machine.execCommitCheckEnd s
  | .statholdWrite a n => Sys2Proof.Machine.execStatholdWrite a n s
  | .sacnRenderDone ven => Sys2Proof.Machine.execSacnRenderDone ven s
  | .sacnDataLoss universe' => Sys2Proof.Machine.execSacnDataLoss universe' s
  | .arbiterRound arb => Sys2Proof.Machine.execArbiterRound arb s
  | .arbiterRequest arb port off len data deadline tag => Sys2Proof.Machine.execArbiterRequest arb port off len data deadline tag s
  | .forerunnerRepresent arb port => Sys2Proof.Machine.execForerunnerRepresent arb port s
  | .scrubRead => Sys2Proof.Machine.execScrubRead s
  | .fsInject a double sram => Sys2Proof.Machine.execFsInject a double sram s
  | .errclr a => Sys2Proof.Machine.execErrclr a s
  | .nvmProg a => Sys2Proof.Machine.execNvmProg a s
  | .nvmZero a => Sys2Proof.Machine.execNvmZero a s
  | .nvmBufferWrite a word v => Sys2Proof.Machine.execNvmBufferWrite a word v s
  | .nvmProgramDone => Sys2Proof.Machine.execNvmProgramDone s
  | .mramReadError codeword bits => Sys2Proof.Machine.execMramReadError codeword bits s
  | .dmaGo a ch => Sys2Proof.Machine.execDmaGo a ch s
  | .dmaStop a ch => Sys2Proof.Machine.execDmaStop a ch s
  | .dmaKnock a ch => Sys2Proof.Machine.execDmaKnock a ch s
  | .dmaResume a ch => Sys2Proof.Machine.execDmaResume a ch s
  | .dmaClear a ch => Sys2Proof.Machine.execDmaClear a ch s
  | .clearhalt a => Sys2Proof.Machine.execClearhalt a s
  | .descriptorFetch ch => Sys2Proof.Machine.execDescriptorFetch ch s
  | .descriptorComplete ch => Sys2Proof.Machine.execDescriptorComplete ch s
  | .dmaBeatError ch addr done => Sys2Proof.Machine.execDmaBeatError ch addr done s
  | .queueCfgWrite a q v => Sys2Proof.Machine.execQueueCfgWrite a q v s
  | .queuePush a q v => Sys2Proof.Machine.execQueuePush a q v s
  | .queuePop a q => Sys2Proof.Machine.execQueuePop a q s
  | .queueDrop a q => Sys2Proof.Machine.execQueueDrop a q s
  | .executeInstruction core => Sys2Proof.Machine.execExecuteInstruction core s
  | .wfi core => Sys2Proof.Machine.execWfi core s
  | .dtret core => Sys2Proof.Machine.execDtret core s
  | .dttake core rd => Sys2Proof.Machine.execDttake core rd s
  | .dtdone core rs => Sys2Proof.Machine.execDtdone core rs s
  | .dtpost core rs => Sys2Proof.Machine.execDtpost core rs s
  | .fenceI core => Sys2Proof.Machine.execFenceI core s
  | .cpuModeWrite a core mode => Sys2Proof.Machine.execCpuModeWrite a core mode s
  | .sourceArrival src => Sys2Proof.Machine.execSourceArrival src s
  | .vectorFetchDone core => Sys2Proof.Machine.execVectorFetchDone core s
  | .timerSource core => Sys2Proof.Machine.execTimerSource core s
  | .doorbell a core bells => Sys2Proof.Machine.execDoorbell a core bells s
  | .pset a core src => Sys2Proof.Machine.execPset a core src s
  | .pclr a core src => Sys2Proof.Machine.execPclr a core src s
  | .evcSet a src => Sys2Proof.Machine.execEvcSet a src s
  | .evcClr a src => Sys2Proof.Machine.execEvcClr a src s
  | .sourceTargetWrite a src core => Sys2Proof.Machine.execSourceTargetWrite a src core s
  | .extFilterAccept input level => Sys2Proof.Machine.execExtFilterAccept input level s
  | .coreWake core => Sys2Proof.Machine.execCoreWake core s
  | .tskPost a task => Sys2Proof.Machine.execTskPost a task s
  | .postDrain => Sys2Proof.Machine.execPostDrain s
  | .delaygo a task abs => Sys2Proof.Machine.execDelaygo a task abs s
  | .cancel a task => Sys2Proof.Machine.execCancel a task s
  | .delayTick => Sys2Proof.Machine.execDelayTick s
  | .tdmFrame port edge lines => Sys2Proof.Machine.execTdmFrame port edge lines s
  | .tdmLockLoss port => Sys2Proof.Machine.execTdmLockLoss port s
  | .busSample bus => Sys2Proof.Machine.execBusSample bus s
  | .blockEnd bus => Sys2Proof.Machine.execBlockEnd bus s
  | .tempoEstimate => Sys2Proof.Machine.execTempoEstimate s
  | .coastTimeout => Sys2Proof.Machine.execCoastTimeout s
  | .trackerFirstUse => Sys2Proof.Machine.execTrackerFirstUse s
  | .beatIssue => Sys2Proof.Machine.execBeatIssue s
  | .barsync v => Sys2Proof.Machine.execBarsync v s
  | .ltcFrame valid tc rate t => Sys2Proof.Machine.execLtcFrame valid tc rate t s
  | .remoteRecordReceive rec' => Sys2Proof.Machine.execRemoteRecordReceive rec' s
  | .tapSample => Sys2Proof.Machine.execTapSample s
  | .linkDown port => Sys2Proof.Machine.execLinkDown port s
  | .linkUp port => Sys2Proof.Machine.execLinkUp port s
  | .ethFrameReceive port t frame full => Sys2Proof.Machine.execEthFrameReceive port t frame full s
  | .pauseReceive port quanta => Sys2Proof.Machine.execPauseReceive port quanta s
  | .pauseExpiry port => Sys2Proof.Machine.execPauseExpiry port s
  | .pauseGenerate port => Sys2Proof.Machine.execPauseGenerate port s
  | .rxtailWrite port ring v => Sys2Proof.Machine.execRxtailWrite port ring v s
  | .txtailWrite ring v => Sys2Proof.Machine.execTxtailWrite ring v s
  | .ethFrameTransmit port => Sys2Proof.Machine.execEthFrameTransmit port s
  | .caneStatus => Sys2Proof.Machine.execCaneStatus s
  | .canePagestate => Sys2Proof.Machine.execCanePagestate s
  | .caneReadreg => Sys2Proof.Machine.execCaneReadreg s
  | .caneWritereg => Sys2Proof.Machine.execCaneWritereg s
  | .caneReadblock => Sys2Proof.Machine.execCaneReadblock s
  | .caneFirmwareOp => Sys2Proof.Machine.execCaneFirmwareOp s
  | .caneBadOp => Sys2Proof.Machine.execCaneBadOp s
  | .caneLeaseExpiry => Sys2Proof.Machine.execCaneLeaseExpiry s
  | .keyClear a slot => Sys2Proof.Machine.execKeyClear a slot s
  | .healthWindowEnd => Sys2Proof.Machine.execHealthWindowEnd s
  | .pathRecover path => Sys2Proof.Machine.execPathRecover path s
  | .swap a v => Sys2Proof.Machine.execSwap a v s
  | .dualWindowEnd => Sys2Proof.Machine.execDualWindowEnd s
  | .pairingStart => Sys2Proof.Machine.execPairingStart s
  | .courseSlot port => Sys2Proof.Machine.execCourseSlot port s
  | .dataCourseReceive port lane sym t skew => Sys2Proof.Machine.execDataCourseReceive port lane sym t skew s
  | .timeCourseReceive port lane sym t skew => Sys2Proof.Machine.execTimeCourseReceive port lane sym t skew s
  | .ctrlCourseReceive port lane sym t skew => Sys2Proof.Machine.execCtrlCourseReceive port lane sym t skew s
  | .idleCourseReceive port lane sym t skew => Sys2Proof.Machine.execIdleCourseReceive port lane sym t skew s
  | .signalDetect port lane => Sys2Proof.Machine.execSignalDetect port lane s
  | .signalLoss port lane => Sys2Proof.Machine.execSignalLoss port lane s
  | .commaLoss port lane => Sys2Proof.Machine.execCommaLoss port lane s
  | .halfstuck port lane => Sys2Proof.Machine.execHalfstuck port lane s
  | .replayTimerExpiry port => Sys2Proof.Machine.execReplayTimerExpiry port s
  | .roleAnnounce role => Sys2Proof.Machine.execRoleAnnounce role s
  | .roleReceive port b rec' => Sys2Proof.Machine.execRoleReceive port b rec' s
  | .roleTimeout role => Sys2Proof.Machine.execRoleTimeout role s
  | .lsrRefresh changed => Sys2Proof.Machine.execLsrRefresh changed s
  | .lsrReceive port b rec' => Sys2Proof.Machine.execLsrReceive port b rec' s
  | .lsrExpiry cluster key => Sys2Proof.Machine.execLsrExpiry cluster key s
  | .discoveryConverged => Sys2Proof.Machine.execDiscoveryConverged s
  | .clusterSeed => Sys2Proof.Machine.execClusterSeed s
  | .memberGrant serial member => Sys2Proof.Machine.execMemberGrant serial member s
  | .idcfgWrite a v => Sys2Proof.Machine.execIdcfgWrite a v s
  | .subscribeSend => Sys2Proof.Machine.execSubscribeSend s
  | .subscribeReceive port b rec' => Sys2Proof.Machine.execSubscribeReceive port b rec' s
  | .tileQuarterReceive port b => Sys2Proof.Machine.execTileQuarterReceive port b s
  | .gatewayLoss => Sys2Proof.Machine.execGatewayLoss s
  | .fcmtGo a window own => Sys2Proof.Machine.execFcmtGo a window own s
  | .fcctlFire a => Sys2Proof.Machine.execFcctlFire a s
  | .fcctlAbort a => Sys2Proof.Machine.execFcctlAbort a s
  | .prepareReceive port b => Sys2Proof.Machine.execPrepareReceive port b s
  | .readyReceive port b => Sys2Proof.Machine.execReadyReceive port b s
  | .readySend => Sys2Proof.Machine.execReadySend s
  | .fireReceive port b => Sys2Proof.Machine.execFireReceive port b s
  | .abortReceive port b => Sys2Proof.Machine.execAbortReceive port b s
  | .reportSend => Sys2Proof.Machine.execReportSend s
  | .reportReceive port b => Sys2Proof.Machine.execReportReceive port b s
  | .reportRouteExpiry => Sys2Proof.Machine.execReportRouteExpiry s
  | .overrideBundleReceive port b => Sys2Proof.Machine.execOverrideBundleReceive port b s
  | .tunnelledCaneReceive port b => Sys2Proof.Machine.execTunnelledCaneReceive port b s
  | .firmwareBundleReceive port b => Sys2Proof.Machine.execFirmwareBundleReceive port b s
  | .fabTxtailWrite a idx => Sys2Proof.Machine.execFabTxtailWrite a idx s
  | .airIrq => Sys2Proof.Machine.execAirIrq s
  | .txdone status => Sys2Proof.Machine.execTxdone status s
  | .ccares busy rssi => Sys2Proof.Machine.execCcares busy rssi s
  | .rxframe rssi data => Sys2Proof.Machine.execRxframe rssi data s
  | .rdata data => Sys2Proof.Machine.execRdata data s
  | .airRxsof => Sys2Proof.Machine.execAirRxsof s
  | .linkPacketCrcError => Sys2Proof.Machine.execLinkPacketCrcError s
  | .crowdLoadInstant n => Sys2Proof.Machine.execCrowdLoadInstant n s
  | .loadlate => Sys2Proof.Machine.execLoadlate s
  | .crowdTxgo => Sys2Proof.Machine.execCrowdTxgo s
  | .lbtTry => Sys2Proof.Machine.execLbtTry s
  | .bucketAdvance => Sys2Proof.Machine.execBucketAdvance s
  | .accountingRecordWrite => Sys2Proof.Machine.execAccountingRecordWrite s
  | .accountingRestore => Sys2Proof.Machine.execAccountingRestore s
  | .linkTimeout rdata => Sys2Proof.Machine.execLinkTimeout rdata s
  | .registerListResend => Sys2Proof.Machine.execRegisterListResend s
  | .registerListWrite => Sys2Proof.Machine.execRegisterListWrite s
  | .statectlRun a => Sys2Proof.Machine.execStatectlRun a s
  | .statectlDim a => Sys2Proof.Machine.execStatectlDim a s
  | .statectlRetentionSleep a => Sys2Proof.Machine.execStatectlRetentionSleep a s
  | .statectlDormant a => Sys2Proof.Machine.execStatectlDormant a s
  | .wakePin => Sys2Proof.Machine.execWakePin s
  | .rtcAlarm => Sys2Proof.Machine.execRtcAlarm s
  | .domreqWrite a v => Sys2Proof.Machine.execDomreqWrite a v s
  | .domainOnDone d => Sys2Proof.Machine.execDomainOnDone d s
  | .domainOffDone d => Sys2Proof.Machine.execDomainOffDone d s
  | .dramTrainingDone pass => Sys2Proof.Machine.execDramTrainingDone pass s
  | .voutCommand => Sys2Proof.Machine.execVoutCommand s
  | .pmbusPoll => Sys2Proof.Machine.execPmbusPoll s
  | .pmbusAlert => Sys2Proof.Machine.execPmbusAlert s
  | .thermalEvaluate => Sys2Proof.Machine.execThermalEvaluate s
  | .lifeCount => Sys2Proof.Machine.execLifeCount s
  | .lifetimeRecordWrite => Sys2Proof.Machine.execLifetimeRecordWrite s
  | .vaonApplied => Sys2Proof.Machine.execVaonApplied s
  | .pwrEnSequence => Sys2Proof.Machine.execPwrEnSequence s
  | .railOutOfRange => Sys2Proof.Machine.execRailOutOfRange s
  | .resetNAssert => Sys2Proof.Machine.execResetNAssert s
  | .resetNRelease => Sys2Proof.Machine.execResetNRelease s
  | .coldStart straps sramOk trainOk testOk ends hits applied => Sys2Proof.Machine.execColdStart straps sramOk trainOk testOk ends hits applied s
  | .warmStart straps ends => Sys2Proof.Machine.execWarmStart straps ends s
  | .romTimeout => Sys2Proof.Machine.execRomTimeout s
  | .discoveryWaitExpiry => Sys2Proof.Machine.execDiscoveryWaitExpiry s
  | .fabwaitExpiry => Sys2Proof.Machine.execFabwaitExpiry s
  | .confirm a => Sys2Proof.Machine.execConfirm a s
  | .confirmWindowExpiry => Sys2Proof.Machine.execConfirmWindowExpiry s
  | .bootRestart a cold => Sys2Proof.Machine.execBootRestart a cold s
  | .bootReady a => Sys2Proof.Machine.execBootReady a s
  | .failClear a => Sys2Proof.Machine.execFailClear a s
  | .wdkick a v => Sys2Proof.Machine.execWdkick a v s
  | .wdogTimeoutWrite a ms => Sys2Proof.Machine.execWdogTimeoutWrite a ms s
  | .watchdogWarn => Sys2Proof.Machine.execWatchdogWarn s
  | .watchdogExpiry => Sys2Proof.Machine.execWatchdogExpiry s
  | .keyrevoke a keys => Sys2Proof.Machine.execKeyrevoke a keys s
  | .svcStatus addr bcast seq body => Sys2Proof.Machine.execSvcStatus addr bcast seq body s
  | .svcPagestate addr bcast seq body => Sys2Proof.Machine.execSvcPagestate addr bcast seq body s
  | .svcReadreg addr bcast seq body => Sys2Proof.Machine.execSvcReadreg addr bcast seq body s
  | .svcWritereg addr bcast seq body => Sys2Proof.Machine.execSvcWritereg addr bcast seq body s
  | .svcReadblock addr bcast seq body => Sys2Proof.Machine.execSvcReadblock addr bcast seq body s
  | .readmem addr bcast seq body => Sys2Proof.Machine.execReadmem addr bcast seq body s
  | .benchopen addr bcast seq body => Sys2Proof.Machine.execBenchopen addr bcast seq body s
  | .benchwrite addr bcast seq body => Sys2Proof.Machine.execBenchwrite addr bcast seq body s
  | .benchverify addr bcast seq body => Sys2Proof.Machine.execBenchverify addr bcast seq body s
  | .benchcommit addr bcast seq body => Sys2Proof.Machine.execBenchcommit addr bcast seq body s
  | .svcRestart addr bcast seq body => Sys2Proof.Machine.execSvcRestart addr bcast seq body s
  | .clearfail addr bcast seq body => Sys2Proof.Machine.execClearfail addr bcast seq body s
  | .svcFrameDiscard crc => Sys2Proof.Machine.execSvcFrameDiscard crc s
  | .attnIn low => Sys2Proof.Machine.execAttnIn low s
  | .attnAck a => Sys2Proof.Machine.execAttnAck a s
  | .jtagTapReset => Sys2Proof.Machine.execJtagTapReset s
  | .extest sensed shift => Sys2Proof.Machine.execExtest sensed shift s
  | .samplePreload sensed shift => Sys2Proof.Machine.execSamplePreload sensed shift s
  | .idcode => Sys2Proof.Machine.execIdcode s
  | .clamp shift => Sys2Proof.Machine.execClamp shift s
  | .highz shift => Sys2Proof.Machine.execHighz shift s
  | .bypass code shift => Sys2Proof.Machine.execBypass code shift s
  | .dbgaccRead addr => Sys2Proof.Machine.execDbgaccRead addr s
  | .dbgaccWrite addr data => Sys2Proof.Machine.execDbgaccWrite addr data s
  | .dbgaccCapture => Sys2Proof.Machine.execDbgaccCapture s
  | .commaLock port lane pre inv => Sys2Proof.Machine.execCommaLock port lane pre inv s
  | .ltcLost => Sys2Proof.Machine.execLtcLost s
  | .announceReceiptTimeout => Sys2Proof.Machine.execAnnounceReceiptTimeout s
  | .svcBadOp addr bcast op seq => Sys2Proof.Machine.execSvcBadOp addr bcast op seq s
  | .railReturn => Sys2Proof.Machine.execRailReturn s
  | .powerLoss nvmOnly => Sys2Proof.Machine.execPowerLoss nvmOnly s
  | .pmbusTransactionEnd ok data => Sys2Proof.Machine.execPmbusTransactionEnd ok data s

end Sys2Proof.Machine
end

