-- ==== Sys2Proof/Machine/Tick.lean ====
section
/-!
DEFINITION. What passes while no command waits (DESIGN CHOICE, notes/assumptions/1.md): one nanosecond of the time base (R30), of the RTC
(R527) and of the cores' counts (R468, R493).
-/
namespace Sys2Proof.Machine
open Sys2Proof

/-- The RTC one nanosecond on (R527). -/
def rtcTick (s : State) : State :=
  updPwr s fun p => if 999999999 ≤ p.rtcNs then { p with rtc := (p.rtc + 1) % 2 ^ 48, rtcNs := 0 } else { p with rtcNs := p.rtcNs + 1 }

/-- One nanosecond of a core's life: `mcycle` runs in RUN and IDLE, and the page counts the time in each state (R468, R493). -/
def coreTick (c : Nat) (s : State) : State :=
  let count := fun (s : State) => s.updCore c fun k => { k with csr := { k.csr with mcycle := k.csr.mcycle + 1 } }
  match (s.core c).mode with
  | .run => count (s.bump (pgCPU c) F.CPU_st_RUNNS)
  | .idle => count (s.bump (pgCPU c) F.CPU_st_IDLENS)
  | .sleep => s.bump (pgCPU c) F.CPU_st_SLEEPNS
  | _ => s

/-- What an RTC second brings to the radio's accounting (R403, R406). -/
def secondPassed (s : State) : State := if s.pwr.rtcNs = 0 then recordDue (bucketSync s) else s

/-- The time base one nanosecond on; a PTP master's Announce is queued at each of its instants (R45). -/
def timeTick (s : State) : State :=
  let due := announceDue s (tickTime s.time).ft
  let s := updTime s tickTime
  if due then announceSend s else s

/-- A nanosecond in which no command takes place. -/
def idleTick (s : State) : State :=
  let s := rtcTick { s with out := [] }
  if timeRuns s then [0, 1, 2, 3].foldl (fun s c => coreTick c s) (timeTick (secondPassed s)) else s

end Sys2Proof.Machine
end

