-- ==== Sys2Proof/Safety.lean ====
section
/-!
DEFINITION. What a safe state of the block is: the canonical forms of its stores; and what a step may do.
-/
namespace Sys2Proof.Machine
open Sys2Proof

/-- A register file in its canonical form: keys rise strictly, and no register is listed at its reset value, so that equal register files
are equal lists. -/
def RegFileOk (l : List (Nat × Word)) : Prop := amSorted l = true ∧ ∀ kv ∈ l, kv.2 ≠ resetAt kv.1

/-- The stores of the block are in their canonical forms: the register file, the staging set, the running statistics and memory. -/
structure StoresOk (s : State) : Prop where
  regs : RegFileOk s.regs
  staged : amSorted s.staged = true
  ctr : amSorted s.ctr = true
  mem : Memory.wf s.mem = true

/-- A state as a command begins with it: nothing has left the device. -/
def State.quiet (s : State) : State := { s with out := [] }

/-- An entry of pin `i`'s queue whose placement ends nothing: others wait behind it, or the port is neither DMX nor PANEL. -/
def PlainEntry (i : Nat) (rest : List Entry) (s : State) : Prop :=
  128 ≤ i ∨ rest ≠ [] ∨
    ((strand s ((gangLead s (i / 2)).getD (i / 2))).kind ≠ 5 ∧ (strand s ((gangLead s (i / 2)).getD (i / 2))).kind ≠ 6)

/-- A calibration window of this frame may still open (R232). -/
def WindowTurn (r : CalRun) (s : State) : Prop :=
  s.boot.outEn = true ∧ s.time.gapM = none ∧ r.frame ≠ some s.time.seq ∧ now16 s < windowAt s r.bank + 256000

/-- The responder is free and has at the front of its store a request that is whole, in its time and authentic under `key`, and whose tag it has not
had (R298 to R301); `w` waits behind it. -/
structure CaneFront (r : CaneReq) (w : List CaneReq) (key : List Byte) (s : State) : Prop where
  store : s.net.cane.store = r :: w
  free : s.net.cane.held = none
  runs : inRun s pgCANE = true
  up : sysDown s = false
  whole : 48 ≤ r.msg.length ∧ r.msg.length ≤ 1448 ∧ r.msg.length = 48 + beVal (slice r.msg 28 2)
  slot : (r.msg.getD 6 0).toNat < 2 ∧ caneKey s (r.msg.getD 6 0).toNat = some key
  head : slice r.msg 0 3 = [0x43, 0x4E, 1] ∧ (r.msg.getD 4 0).getLsbD 0 = false
  tag : caneTag key (r.msg.take (r.msg.length - 16)) = r.msg.drop (r.msg.length - 16)
  fresh : ∀ e ∈ s.net.cane.tags, e.1 ≠ r.msg.drop (r.msg.length - 16)
  time : timeValid s = false ∨ inWindow s r.msg = true

/-- The parts of the block's state that effects change separately. -/
inductive Part where
  /-- Main memories: the frame store, the MRAM bank and the boot ROM. -/
  | mem
  /-- The JTAG port. -/
  | tap
  /-- The memory system beside its contents: programs, injected errors, arbiters, reservations. -/
  | mm
  /-- The time base. -/
  | time
  /-- The commit. -/
  | cmt
  /-- The cores. -/
  | cores
  /-- The scheduler. -/
  | tsk
  /-- The event controller. -/
  | evc
  /-- The veneers. -/
  | vens
  /-- The outputs: strands, ports and their engines. -/
  | outs
  /-- The colour block. -/
  | col
  /-- Calibration, the converter and the temperatures. -/
  | cal
  /-- The sound block. -/
  | snd
  /-- The Ethernet ports, the lead ports and Cane. -/
  | net
  /-- The Brura ports. -/
  | bru
  /-- The fabric. -/
  | fab
  /-- The radio. -/
  | air
  /-- The DMA channels. -/
  | dma
  /-- The queues. -/
  | que
  /-- The starts. -/
  | boot
  /-- Power, the rails and the real-time clock. -/
  | pwr
  /-- The service port. -/
  | svc
  /-- The staging set. -/
  | staged
deriving DecidableEq, Repr

/-- A part is the same in two states. -/
def Part.same : Part → State → State → Prop
  | .mem, s, t => t.mem = s.mem
  | .tap, s, t => t.tap = s.tap
  | .mm, s, t => t.mm = s.mm
  | .time, s, t => t.time = s.time
  | .cmt, s, t => t.cmt = s.cmt
  | .cores, s, t => t.cores = s.cores
  | .tsk, s, t => t.tsk = s.tsk
  | .evc, s, t => t.evc = s.evc
  | .vens, s, t => t.vens = s.vens
  | .outs, s, t => t.outs = s.outs
  | .col, s, t => t.col = s.col
  | .cal, s, t => t.cal = s.cal
  | .snd, s, t => t.snd = s.snd
  | .net, s, t => t.net = s.net
  | .bru, s, t => t.bru = s.bru
  | .fab, s, t => t.fab = s.fab
  | .air, s, t => t.air = s.air
  | .dma, s, t => t.dma = s.dma ∧ t.dmaRem = s.dmaRem
  | .que, s, t => t.que = s.que
  | .boot, s, t => t.boot = s.boot
  | .pwr, s, t => t.pwr = s.pwr
  | .svc, s, t => t.svc = s.svc
  | .staged, s, t => t.staged = s.staged

/-- Every part. -/
def Part.all : List Part :=
  [.mem, .tap, .mm, .time, .cmt, .cores, .tsk, .evc, .vens, .outs, .col, .cal, .snd, .net, .bru, .fab, .air, .dma, .que, .boot, .pwr, .svc, .staged]

/-- The parts that a command may change, beside the register file and the statistics; a command leaves every other part as it was. -/
def footprint : Instr → List Part
  | .frameStart | .latchPulse _ | .rdmGo _ _ | .freezeWrite _ _ | .phaseSrcWrite _ _ | .registerWrite _ _ _ | .stagedWrite _ _ _
  | .eventClear _ _ _ | .faultClear _ _ | .descriptorComplete _ | .dmaBeatError _ _ _ | .executeInstruction _ | .wfi _ | .dtret _
  | .dttake _ _ | .dtdone _ _ | .dtpost _ _ | .fenceI _ | .cpuModeWrite _ _ _ | .sourceTargetWrite _ _ _ | .ethFrameReceive _ _ _ _
  | .caneStatus | .canePagestate | .caneReadreg | .caneWritereg | .caneReadblock | .caneFirmwareOp | .caneBadOp
  | .tunnelledCaneReceive _ _ | .statectlRun _ | .statectlDim _ | .statectlRetentionSleep _ | .statectlDormant _ | .wakePin | .rtcAlarm
  | .thermalEvaluate | .vaonApplied | .pwrEnSequence | .railOutOfRange | .resetNAssert | .coldStart _ _ _ _ _ _ _ | .warmStart _ _
  | .romTimeout | .confirm _ | .confirmWindowExpiry | .bootRestart _ _ | .wdogTimeoutWrite _ _ | .watchdogExpiry | .svcStatus _ _ _ _
  | .svcPagestate _ _ _ _ | .svcReadreg _ _ _ _ | .svcWritereg _ _ _ _ | .svcReadblock _ _ _ _ | .readmem _ _ _ _ | .benchopen _ _ _ _
  | .benchwrite _ _ _ _ | .benchverify _ _ _ _ | .benchcommit _ _ _ _ | .svcRestart _ _ _ _ | .clearfail _ _ _ _ | .attnIn _
  | .dbgaccWrite _ _ | .svcBadOp _ _ _ _ | .powerLoss _ =>
    Part.all
  | .commitCutoff =>
    [.cmt, .cores, .tsk, .fab, .pwr]
  | .stateSweep =>
    [.mem, .mm, .cores, .tsk, .col]
  | .colourLanePass _ =>
    [.mem, .mm, .cores, .tsk, .vens, .outs, .col]
  | .strandPrepared _ | .pwmPeriodStart _ | .gpioPulse _ =>
    [.outs]
  | .fetchMiss _ =>
    [.cores, .tsk, .vens]
  | .shiftStart _ | .shiftEnd _ _ _ | .dmxBreak _ =>
    [.mem, .mm, .cores, .tsk, .outs]
  | .latchPulseEnd _ | .edgePlace _ | .wordReadMiss _ _ | .matrixSwitch _ | .rdmResponseTimeout _ | .rdmReceptionEnd _ _ _
  | .rdmMarkEnd _ | .panelRowSlot _ | .gpiopush _ _ _ =>
    [.cores, .tsk, .outs]
  | .pinCheckSample _ _ | .calStale _ | .sourceArrival _ | .timerSource _ | .doorbell _ _ _ | .pset _ _ _ | .evcSet _ _ | .tskPost _ _
  | .delayTick | .pairingStart | .svcFrameDiscard _ =>
    [.cores, .tsk]
  | .trigFilterAccept _ _ | .ovrFire _ _ | .ovrRelease _ _ =>
    [.mem, .mm, .cores, .tsk, .outs, .cal]
  | .calRunStart _ | .calRunnow _ | .adcSample _ | .adcCalStart =>
    [.cal]
  | .calWindowOpen =>
    [.cores, .tsk, .outs, .cal]
  | .calWindowClose _ =>
    [.mm, .cores, .tsk, .outs, .cal]
  | .calTableComputeDone | .adcGroupStart _ | .adcGrpstart _ | .adcGroupEnd | .adcCalEnd _ _ | .adcCalStarve | .dieTempConversion _ =>
    [.cores, .tsk, .cal]
  | .servoMeasurement _ _ | .setgo _ | .modeChangeTEnd | .phaseStepTEnd | .ptpMessageReceive _ _ _ =>
    [.mm, .time, .cmt, .cores, .tsk, .outs, .col, .cal, .snd, .net, .bru, .fab, .air, .boot, .pwr]
  | .servoSourceTimeout | .servosrcWrite _ _ | .acqwaitExpiry =>
    [.time, .cmt, .cores, .tsk, .air, .boot]
  | .freqSlewIncrement | .ppsPulse | .ppsPulseEnd | .announceReceiptTimeout =>
    [.time]
  | .snapCapture _ | .errclr _ | .clearhalt _ | .txtailWrite _ _ | .dramTrainingDone _ | .failClear _ | .dbgaccCapture =>
    []
  | .holdoverStore =>
    [.time, .pwr]
  | .modeRequest _ _ | .referenceInstant _ _ =>
    [.time, .cmt, .cores, .tsk, .boot]
  | .referenceMissed =>
    [.time, .cores, .tsk]
  | .triggerFire _ | .trgcfgWrite _ _ _ | .trgtimeWrite _ _ | .trgperiodWrite _ _ _ =>
    [.time, .cores, .tsk, .cal]
  | .ptpEventTransmit _ _ | .ethFrameTransmit _ | .courseSlot _ | .dataCourseReceive _ _ _ _ _ | .timeCourseReceive _ _ _ _ _
  | .ctrlCourseReceive _ _ _ _ _ | .idleCourseReceive _ _ _ _ _ =>
    [.mem, .mm, .time, .cmt, .cores, .tsk, .vens, .outs, .col, .cal, .snd, .net, .bru, .fab, .air, .boot, .pwr]
  | .claim _ | .release _ | .seize _ =>
    [.cmt, .cores, .tsk, .fab]
  | .discard _ | .disarm _ =>
    [.cmt, .cores, .tsk, .fab, .staged]
  | .arm _ _ =>
    [.cmt]
  | .commitCheckEnd =>
    [.time, .cmt, .cores, .tsk, .fab]
  | .statholdWrite _ _ =>
    [.cmt, .cores, .tsk]
  | .sacnRenderDone _ =>
    [.mem, .mm, .cores, .tsk, .vens]
  | .sacnDataLoss _ | .pauseExpiry _ | .pauseGenerate _ | .rxtailWrite _ _ _ | .keyClear _ _ =>
    [.net]
  | .arbiterRound _ | .nvmProgramDone | .mramReadError _ _ | .vectorFetchDone _ =>
    [.mem, .mm, .cores, .tsk]
  | .arbiterRequest _ _ _ _ _ _ _ =>
    [.mm, .cores, .tsk, .air]
  | .forerunnerRepresent _ _ | .fsInject _ _ _ | .nvmProg _ | .nvmZero _ | .nvmBufferWrite _ _ _ =>
    [.mm]
  | .scrubRead | .coreWake _ =>
    [.mm, .cores, .tsk]
  | .dmaGo _ _ | .dmaStop _ _ | .dmaKnock _ _ | .dmaResume _ _ | .dmaClear _ _ | .descriptorFetch _ =>
    [.mem, .tap, .mm, .cores, .tsk, .net, .dma, .que, .svc]
  | .queueCfgWrite _ _ _ | .queuePush _ _ _ | .queuePop _ _ | .queueDrop _ _ =>
    [.tap, .cores, .tsk, .net, .que, .svc]
  | .pclr _ _ _ | .evcClr _ _ =>
    [.cores]
  | .extFilterAccept _ _ =>
    [.cores, .tsk, .evc]
  | .postDrain =>
    [.tap, .time, .cores, .tsk, .snd, .net, .svc]
  | .delaygo _ _ _ | .cancel _ _ =>
    [.tsk]
  | .tdmFrame _ _ _ | .tdmLockLoss _ | .trackerFirstUse | .barsync _ =>
    [.snd]
  | .busSample _ | .tempoEstimate | .coastTimeout | .tapSample | .ltcLost =>
    [.cores, .tsk, .snd]
  | .blockEnd _ | .beatIssue =>
    [.mem, .mm, .cores, .tsk, .snd, .bru, .fab]
  | .ltcFrame _ _ _ _ =>
    [.time, .cmt, .cores, .tsk, .snd, .boot]
  | .remoteRecordReceive _ =>
    [.mem, .mm, .cores, .tsk, .snd]
  | .linkDown _ | .healthWindowEnd | .pathRecover _ | .swap _ _ | .dualWindowEnd =>
    [.time, .cores, .tsk, .net]
  | .linkUp _ | .pauseReceive _ _ =>
    [.cores, .tsk, .net]
  | .caneLeaseExpiry =>
    [.cmt, .cores, .tsk, .net]
  | .signalDetect _ _ | .signalLoss _ _ | .commaLoss _ _ | .replayTimerExpiry _ | .commaLock _ _ _ _ =>
    [.time, .cores, .tsk, .bru, .fab, .air]
  | .halfstuck _ _ =>
    [.cores, .tsk, .bru]
  | .roleAnnounce _ | .lsrRefresh _ | .subscribeSend =>
    [.time, .cores, .tsk, .bru, .fab]
  | .roleReceive _ _ _ | .lsrReceive _ _ _ | .subscribeReceive _ _ _ | .tileQuarterReceive _ _ | .prepareReceive _ _ | .readyReceive _ _
  | .fireReceive _ _ | .abortReceive _ _ | .reportReceive _ _ | .overrideBundleReceive _ _ | .firmwareBundleReceive _ _
  | .fabTxtailWrite _ _ =>
    [.mem, .mm, .time, .cmt, .cores, .tsk, .vens, .outs, .cal, .snd, .net, .bru, .fab, .air]
  | .roleTimeout _ | .lsrExpiry _ _ | .clusterSeed | .memberGrant _ _ | .gatewayLoss =>
    [.time, .cores, .tsk, .fab]
  | .discoveryConverged =>
    [.mm, .time, .cmt, .cores, .tsk, .fab, .boot]
  | .idcfgWrite _ _ =>
    [.time, .cores, .tsk, .fab, .air]
  | .fcmtGo _ _ _ | .fcctlFire _ | .fcctlAbort _ =>
    [.cmt, .cores, .tsk, .bru, .fab]
  | .readySend | .reportSend =>
    [.cores, .tsk, .bru, .fab]
  | .reportRouteExpiry =>
    [.fab]
  | .airIrq | .airRxsof | .crowdTxgo | .bucketAdvance | .registerListResend | .registerListWrite =>
    [.air]
  | .txdone _ | .ccares _ _ | .rxframe _ _ | .rdata _ | .linkPacketCrcError | .loadlate | .linkTimeout _ =>
    [.cores, .tsk, .air]
  | .crowdLoadInstant _ | .lbtTry | .accountingRestore =>
    [.mem, .mm, .cores, .tsk, .air]
  | .accountingRecordWrite =>
    [.mm, .air, .pwr]
  | .domreqWrite _ _ | .voutCommand | .pmbusPoll | .lifeCount =>
    [.pwr]
  | .domainOnDone _ =>
    [.mm, .time, .cmt, .cores, .tsk, .outs, .fab, .air, .pwr]
  | .domainOffDone _ =>
    [.mem, .mm, .time, .cmt, .cores, .tsk, .vens, .outs, .col, .snd, .net, .bru, .fab, .air, .boot, .pwr]
  | .pmbusAlert | .pmbusTransactionEnd _ _ =>
    [.cores, .tsk, .pwr]
  | .lifetimeRecordWrite =>
    [.mm, .pwr]
  | .resetNRelease | .railReturn =>
    [.boot, .pwr]
  | .discoveryWaitExpiry =>
    [.time, .cores, .tsk, .fab, .boot]
  | .fabwaitExpiry | .bootReady _ =>
    [.cmt, .boot]
  | .wdkick _ _ | .keyrevoke _ _ =>
    [.boot]
  | .watchdogWarn =>
    [.cores, .tsk, .boot]
  | .attnAck _ =>
    [.svc]
  | .jtagTapReset | .extest _ _ | .samplePreload _ _ | .idcode | .clamp _ | .highz _ | .bypass _ _ =>
    [.tap]
  | .dbgaccRead _ =>
    [.mem, .tap, .mm, .cores, .tsk, .net, .que, .svc]

/-- A step from a state ends neither in a fault nor in a refusal. -/
def StepRuns (s : State) : Prop := ∃ t, step s = Host.Outcome.next t

end Sys2Proof.Machine
end

