-- ==== Sys2Proof/Certificates/Slice0/Obligations.lean ====
section
/-!
DEFINITION. The statements about the block that are to be proved.
-/
open Sys2Proof Sys2Proof.Machine

/-- For every command c and state s, a step of s with c in front of its queue is exec of c on s. Where no command waits, a step answers the
state one nanosecond on; that this is what happens on an empty queue is the model's choice (log entry 1). -/
def Obligations.StepRunsFront : Prop :=
  (∀ (c : Instr) (s : State), step { s with pending := c :: s.pending } = exec c s) ∧
    ∀ s : State, s.pending = [] → step s = Host.Outcome.next (idleTick s)

/-- For every command and every state, exec answers a next state: none of the table's rows ends in a fault or a refusal. -/
def Obligations.EveryCommandAnswers : Prop :=
  ∀ (c : Instr) (s : State), ∃ t : State, exec c s = Host.Outcome.next t

/-- For every state whose register file, staging set, running statistics and memory are in canonical form (keys strictly rising; no register
at its reset value and no byte at its unlisted value listed), the state after any step has them in canonical form too, whatever the
command, or where a nanosecond passes. -/
def Obligations.StepKeepsStores : Prop :=
  ∀ s t : State, StoresOk s → step s = Host.Outcome.next t → StoresOk t

/-- In the state right after reset the register file, the staging set, the statistics and memory are in canonical form, memory lists
nothing, and the queue of commands is empty. -/
def Obligations.ResetStores : Prop :=
  StoresOk State.reset ∧ State.reset.mem = [] ∧ State.reset.pending = []

/-- For every state with canonical stores, after a step the queue of commands is its tail (unchanged where it was empty), and the counter of
free values has not gone down. -/
def Obligations.StepTakesOneCommand : Prop :=
  ∀ s t : State, StoresOk s → step s = Host.Outcome.next t → t.pending = s.pending.tail ∧ s.freeCtr ≤ t.freeCtr

/-- The frame of every command of the table. For every command c and state s with canonical stores, if exec answers t, then each of the 23
parts of the state (memory contents, the TAP, the memory system, the time base, the commit, the cores, the scheduler, the event
controller, the veneers, the outputs, the colour block, calibration and converter, sound, Ethernet and Cane, Brura ports, fabric, radio,
DMA, queues, starts, power, service, staging set) that footprint c does not list is the same in t as in s. -/
def Obligations.CommandFootprints : Prop :=
  ∀ (c : Instr) (s t : State) (p : Part), StoresOk s → exec c s = Host.Outcome.next t → p ∉ footprint c → p.same s t

/-- For every command whose footprint does not list the memories, every state with canonical stores and every address, a byte read after the
command is the byte read before it. -/
def Obligations.CommandMemoryFrame : Prop :=
  ∀ (c : Instr) (s t : State) (a : Nat), StoresOk s → exec c s = Host.Outcome.next t → Part.mem ∉ footprint c →
    memGet t.mem a = memGet s.mem a

/-- Where no command waits, a step that completes no second of the RTC (at which the radio's accounting moves on), or that finds the time
base stopped, leaves the register file, the staging set, memory and every part but the time base, the cores and power as they were; the
Ethernet ports only where no Announce of the node's own as a PTP master falls due in that nanosecond. That time passes then is the
model's choice (log entry 1). -/
def Obligations.IdleFrame : Prop :=
  ∀ s t : State, s.pending = [] → s.pwr.rtcNs < 999999999 ∨ timeRuns s = false → step s = Host.Outcome.next t →
    t.regs = s.regs ∧ t.staged = s.staged ∧ t.mem = s.mem ∧ t.out = [] ∧ t.pending = [] ∧
    ∀ p : Part, p ≠ .time → p ≠ .cores → p ≠ .pwr → (p = .net → announceDue s (tickTime s.time).ft = false) → p.same s t

/-- For every state with a canonical register file, every page and field whose bits lie within a register: after the field is set, it reads
as the value modulo two to its width; a field of another register, or one in the same register that shares no bit with it, reads as
before. -/
def Obligations.FieldReadAfterWrite : Prop :=
  ∀ (s : State) (p : Nat) (f : Fld) (k v : Nat), StoresOk s → f.lsb + f.w ≤ 32 →
    (s.set p f v k).get p f k = v % 2 ^ f.w ∧
    ∀ (q : Nat) (g : Fld) (j : Nat),
      (regKey q (g.off + g.stride * j) ≠ regKey p (f.off + f.stride * k) ∨ g.lsb + g.w ≤ f.lsb ∨ f.lsb + f.w ≤ g.lsb) →
      (s.set p f v k).get q g j = s.get q g j

/-- For every memory in canonical form, bytes written from an address on read as written, every byte outside them reads as before, and the
memory stays in canonical form, so that memories that hold the same bytes are equal. -/
def Obligations.MemoryReadAfterWrite : Prop :=
  ∀ (m : List Host.Cell) (a : Nat) (l : List Byte), Memory.wf m = true →
    Memory.wf (memPutAll m a l) = true ∧
    (∀ i, i < l.length → memGet (memPutAll m a l) (a + i) = l.getD i 0) ∧
    ∀ j, (j < a ∨ a + l.length ≤ j) → memGet (memPutAll m a l) j = memGet m j

/-- For all ST values a, b, X and now: b is later than a exactly when (b - a) mod 2^32 lies from 1 to 2^31 - 1, equal when the difference is
0, and otherwise earlier, the difference then lying from 2^31 up; X is past at now exactly when (now - X) mod 2^32 is less than 2^31. A
time less than 2^31 ns ahead is not past, and one further ahead than 2^31 ns is past. -/
def Obligations.ShortTime : Prop :=
  (∀ a b : Word, stLater b a = true ↔ 1 ≤ (b.toNat + 2 ^ 32 - a.toNat) % 2 ^ 32 ∧ (b.toNat + 2 ^ 32 - a.toNat) % 2 ^ 32 ≤ 2 ^ 31 - 1) ∧
    (∀ a b : Word, (b.toNat + 2 ^ 32 - a.toNat) % 2 ^ 32 = 0 ↔ b = a) ∧
    (∀ a b : Word, (stLater b a = false ∧ b ≠ a) ↔ 2 ^ 31 ≤ (b.toNat + 2 ^ 32 - a.toNat) % 2 ^ 32) ∧
    (∀ x now : Word, stPast x now = true ↔ (now.toNat + 2 ^ 32 - x.toNat) % 2 ^ 32 < 2 ^ 31) ∧
    (∀ (now : Word) (d : Nat), 0 < d → d < 2 ^ 31 → stPast (now + BitVec.ofNat 32 d) now = false) ∧
    ∀ (now : Word) (d : Nat), 2 ^ 31 < d → d < 2 ^ 32 → stPast (now + BitVec.ofNat 32 d) now = true

/-- With no sleep on its way: at a frame start with outputs enabled and no gap the frame number and the sequence counter go up by one and ST
of the frame start is kept; in a gap the frame is the M fixed for it; while a change is due at T_end no frame starts. The cutoff locks a
commit that is armed for it. A group whose latch of the frame has fired makes none. T_end of a mode change puts the requested mode in
force and fixes the frame that follows; T_end of a held step applies it. With nothing due neither changes anything. -/
def Obligations.FrameInstants : Prop :=
  (∀ s : State, s.boot.outEn = true → s.pwr.down = none → s.time.gapM = none → changeDue s = false →
      ∃ t, exec .frameStart s = .next t ∧ t.time.fn = s.time.fn + 1 ∧ t.time.seq = s.time.seq + 1 ∧ t.time.fsAt = s.st) ∧
    (∀ (s : State) (m : Nat), s.boot.outEn = true → s.pwr.down = none → s.time.gapM = some m →
      ∃ t, exec .frameStart s = .next t ∧ t.time.fn = m ∧ t.time.seq = s.time.seq + 1 ∧ t.time.gapM = none) ∧
    (∀ s : State, s.boot.outEn = true → s.time.gapM = none → changeDue s = true → exec .frameStart s = .next s.quiet) ∧
    (∀ s : State, s.boot.outEn = false → s.boot.enableAt = none → exec .frameStart s = .next s.quiet) ∧
    (∀ s : State, s.boot.outEn = true → s.fab.fc.armed = false → s.cmt.mode = .armed → s.cmt.target ≤ cutoffFn s →
      ∃ t, exec .commitCutoff s = .next t ∧ t.cmt = { s.cmt with mode := .locked } ∧ t.staged = s.staged) ∧
    (∀ s : State, s.fab.fc.armed = false → s.cmt.mode ≠ .armed →
      ∃ t, exec .commitCutoff s = .next t ∧ t.cmt = s.cmt ∧ t.staged = s.staged) ∧
    (∀ (g : Fin 16) (s : State), s.boot.outEn = false ∨ (s.outs.latch.getD g.val {}).seq = (nextLatch s).2 →
      exec (.latchPulse g) s = .next s.quiet) ∧
    (∀ (g : Fin 16) (s : State), s.boot.outEn = true → s.pwr.down = none → s.outs.latch.length = 16 → (s.outs.latch.getD g.val {}).seq ≠ (nextLatch s).2 →
      ∃ t, exec (.latchPulse g) s = .next t ∧ (t.outs.latch.getD g.val {}).seq = (nextLatch s).2 ∧
        (t.outs.latch.getD g.val {}).fn = (nextLatch s).1) ∧
    (∀ s : State, StoresOk s → s.boot.outEn = true → s.time.gapM = none → s.flag pgTIME F.TIME_MODE_PEND = true →
      ∃ t, exec .modeChangeTEnd s = .next t ∧ t.get pgTIME F.TIME_MODE_CURIDX = s.get pgTIME F.TIME_MODE_REQIDX ∧
        t.flag pgTIME F.TIME_MODE_PEND = false ∧ t.time.gapM ≠ none) ∧
    (∀ (s : State) (o : Int), s.boot.outEn = true → s.time.gapM = none → s.time.heldStep = some o →
      ∃ t, exec .phaseStepTEnd s = .next t ∧ t.time.heldStep = none ∧ t.time.ft = ((s.time.ft : Int) + o).toNat ∧ t.time.gapM ≠ none) ∧
    ∀ s : State, changeDue s = false → exec .modeChangeTEnd s = .next s.quiet ∧ exec .phaseStepTEnd s = .next s.quiet

/-- A trigger that is not enabled, or a one-shot one with no instant left, does nothing; a one-shot trigger that reaches its instant is
delivered and has none left, a periodic one is delivered and goes on one PERIOD later. A reserved KIND or TARGET, or a period under
1,000 ns or over 2^31 - 1 ns for an enabled periodic trigger, is refused whole. Disabling a trigger leaves it no instant. A write of
TIME or PERIOD of a trigger that is not enabled stores the value. SNAP.CAP captures seconds, nanoseconds, fraction and sequence counter.
PPS_OUT goes active at a second boundary where it is enabled, time is valid and outputs are enabled, and inactive at the pulse's end. -/
def Obligations.TriggersSnapPps : Prop :=
  (∀ (n : Fin 16) (s : State), s.flag pgTIME F.TIME_TRGCFG_EN n.val = false → exec (.triggerFire n) s = .next s.quiet) ∧
    (∀ (n : Fin 16) (s : State), s.get pgTIME F.TIME_TRGCFG_KIND n.val = 0 → (trigOf s n.val).next = none → exec (.triggerFire n) s = .next s.quiet) ∧
    (∀ (n : Fin 16) (x : Word) (s : State), s.flag pgTIME F.TIME_TRGCFG_EN n.val = true → s.get pgTIME F.TIME_TRGCFG_KIND n.val = 0 →
      (trigOf s n.val).next = some x →
      exec (.triggerFire n) s = .next (deliver n.val (updTrig s.quiet n.val fun t => { t with last := t.next, next := none }))) ∧
    (∀ (n : Fin 16) (x : Word) (s : State), s.flag pgTIME F.TIME_TRGCFG_EN n.val = true → s.get pgTIME F.TIME_TRGCFG_KIND n.val = 1 →
      (trigOf s n.val).next = some x →
      exec (.triggerFire n) s = .next (deliver n.val (updTrig s.quiet n.val fun t =>
        { t with last := some x, next := some (x + BitVec.ofNat 32 (s.get pgTIME F.TIME_TRGPERIOD_PERIOD n.val)) }))) ∧
    (∀ (a : BitVec 4) (n : Fin 16) (v : Word) (s : State), bitsOf v 1 2 = 3 ∨ bitsOf v 4 2 = 3 →
      exec (.trgcfgWrite a n v) s = .next (s.quiet.fault pgTIME 0x01 (0x140 + 12 * n.val) a.toNat)) ∧
    (∀ (a : BitVec 4) (n : Fin 16) (v : Word) (s : State), StoresOk s → bitsOf v 0 1 = 0 → bitsOf v 1 2 ≠ 3 → bitsOf v 4 2 ≠ 3 →
      bitsOf v 16 10 < trigRange (bitsOf v 4 2) → s.time.trig.length = 16 →
      ∃ t, exec (.trgcfgWrite a n v) s = .next t ∧ t.reg pgTIME (0x140 + 12 * n.val) = v &&& 0x03FFFFF7 ∧ (trigOf t n.val).next = none) ∧
    (∀ (n : Fin 16) (v : Word) (s : State), s.flag pgTIME F.TIME_TRGCFG_EN n.val = false → StoresOk s →
      exec (.trgtimeWrite n v) s = .next (s.quiet.set pgTIME F.TIME_TRGTIME_TIME v.toNat n.val)) ∧
    (∀ (a : BitVec 4) (n : Fin 16) (v : Word) (s : State), s.flag pgTIME F.TIME_TRGCFG_EN n.val = true →
      s.get pgTIME F.TIME_TRGCFG_KIND n.val = 1 → v.toNat < 1000 ∨ 2 ^ 31 ≤ v.toNat →
      exec (.trgperiodWrite a n v) s = .next (s.quiet.fault pgTIME 0x07 (0x148 + 12 * n.val) a.toNat)) ∧
    (∀ (a : BitVec 4) (n : Fin 16) (v : Word) (s : State), s.flag pgTIME F.TIME_TRGCFG_EN n.val = false →
      exec (.trgperiodWrite a n v) s = .next (s.quiet.set pgTIME F.TIME_TRGPERIOD_PERIOD v.toNat n.val)) ∧
    (∀ (a : BitVec 4) (s : State), StoresOk s → ∃ t, exec (.snapCapture a) s = .next t ∧
      t.get pgTIME F.TIME_SNAPSECL_value = s.time.ft / secUnits % 2 ^ 32 ∧ t.get pgTIME F.TIME_SNAPNS_value = s.time.ft / 65536 % 1000000000 ∧
      t.get pgTIME F.TIME_SNAPFRAC_value = s.time.ft % 65536 ∧ t.get pgTIME F.TIME_SNAPSEQ_value = s.time.seq.toNat ∧ t.time = s.time) ∧
    (∀ s : State, s.flag pgTIME F.TIME_PPSOUT_EN = true → timeValid s = true → s.boot.outEn = true →
      exec .ppsPulse s = .next ({ s.quiet with time := { s.time with ppsHigh := true } }.emit (.ball "PPS_OUT" (!s.flag pgTIME F.TIME_PPSOUT_POL)))) ∧
    (∀ s : State, s.flag pgTIME F.TIME_PPSOUT_EN = false → exec .ppsPulse s = .next s.quiet) ∧
    (∀ s : State, s.flag pgTIME F.TIME_PPSOUT_EN = true → s.time.ppsHigh = true →
      exec .ppsPulseEnd s = .next ({ s.quiet with time := { s.time with ppsHigh := false } }.emit (.ball "PPS_OUT" (s.flag pgTIME F.TIME_PPSOUT_POL)))) ∧
    ∀ s : State, s.time.ppsHigh = false → exec .ppsPulseEnd s = .next s.quiet

/-- Where no first measurement of a new path waits to be discarded: a measurement from a source that is not selected, or one while frozen in
FREE or HOLDOVER, changes nothing; for PPS_IN the command gives the FT of the edge, from which the offset is formed; in ACQUIRE the
measurement that completes LOCKCNT within the threshold locks the servo and shows its offset in whole ns (rounded by the free rounding
of log entry 16). A source that falls silent leaves LOCKED for HOLDOVER, and ACQUIRE with no holdover frequency for FREE. While an
output is live the correction moves by at most SLEWLIM/1,000, and with none live what is left of a change is loaded at once. ACQWAIT
ends the wait for time; AON stores the holdover frequency in LOCKED. A reserved SRC is refused; another one is taken and the servo
leaves ACQUIRE and LOCKED; FREEZE reads as written. SETGO sets FT to the value held with no output live, and is refused while one is
live without STEPOK. -/
def Obligations.ServoMoves : Prop :=
  (∀ (src : BitVec 3) (off : Int) (s : State), src.toNat ≠ activeSource s → s.time.discardPtp = false → s.time.discardBru = false →
      exec (.servoMeasurement src off) s = .next s.quiet) ∧
    (∀ (src : BitVec 3) (off : Int) (s : State), s.flag pgTIME F.TIME_SERVOCTL_FREEZE = true → s.time.servo = .free ∨ s.time.servo = .holdover →
      s.time.discardPtp = false → s.time.discardBru = false → exec (.servoMeasurement src off) s = .next s.quiet) ∧
    (∀ (src : BitVec 3) (x off : Int) (s : State), StoresOk s → off = (if src = 3 then ppsOffset x.toNat else x) → src.toNat = activeSource s → src ≠ 0 → s.flag pgTIME F.TIME_SERVOCTL_FREEZE = false →
      s.time.discardPtp = false → s.time.discardBru = false → s.time.servo = .acquire → off.natAbs ≤ s.get pgTIME F.TIME_STEPTHR * 65536 →
      off.natAbs ≤ s.get pgTIME F.TIME_LOCKTHR * 65536 → s.get pgTIME F.TIME_SERVOCTL_LOCKCNT ≤ s.time.lockRun + 1 →
      ∃ t, exec (.servoMeasurement src x) s = .next t ∧ t.time.servo = .locked ∧
        t.get pgTIME F.TIME_OFFSET = toField 32 (clampInt (-(2 ^ 31 - 1)) (2 ^ 31 - 1) (openRound 37 ((off : Rat) / 65536)))) ∧
    (∀ s : State, s.time.servo = .locked → ∃ t, exec .servoSourceTimeout s = .next t ∧ t.time.servo = .holdover) ∧
    (∀ s : State, s.time.servo = .acquire → s.time.holdFreq = none → ∃ t, exec .servoSourceTimeout s = .next t ∧ t.time.servo = .free) ∧
    (∀ s : State, s.time.servo = .free ∨ s.time.servo = .holdover → exec .servoSourceTimeout s = .next s.quiet) ∧
    (∀ s : State, anyLive s = false → exec .freqSlewIncrement s = .next (setCorr s.time.goal s.quiet)) ∧
    (∀ s : State, anyLive s = true → ∃ t, exec .freqSlewIncrement s = .next t ∧
      t.time.corr = s.time.corr + clampInt (-((s.get pgTIME F.TIME_SLEWLIM : Int) * 256 / 1000)) ((s.get pgTIME F.TIME_SLEWLIM : Int) * 256 / 1000)
        (s.time.goal - s.time.corr) ∧ t.regs = s.regs) ∧
    (∀ s : State, s.get pgTIME F.TIME_TIMEOUTS_ACQWAIT ≠ 0 → s.time.servo = .free ∨ s.time.servo = .acquire →
      ∃ t, exec .acqwaitExpiry s = .next t ∧ t.time.acqDone = true ∧ timeValid t = true) ∧
    (∀ s : State, s.time.servo = .locked → exec .acqwaitExpiry s = .next s.quiet ∧
      ∃ t, exec .holdoverStore s = .next t ∧ t.pwr.aonHold = t.time.holdFreq) ∧
    (∀ s : State, s.time.servo ≠ .locked → exec .holdoverStore s = .next s.quiet) ∧
    (∀ (a : BitVec 4) (src : BitVec 3) (s : State), 5 ≤ src.toNat →
      exec (.servosrcWrite a src) s = .next ((s.quiet.fault pgTIME 0x01 0x0A0 a.toNat).emit .writeDone)) ∧
    (∀ (a : BitVec 4) (src : BitVec 3) (s : State), StoresOk s → src.toNat < 5 → src.toNat ≠ s.get pgTIME F.TIME_SERVOSRC_SRC →
      ∃ t, exec (.servosrcWrite a src) s = .next t ∧ t.get pgTIME F.TIME_SERVOSRC_SRC = src.toNat ∧ (t.time.servo = .holdover ∨ t.time.servo = .free)) ∧
    (∀ (a : BitVec 4) (on : Bool) (s : State), StoresOk s → ∃ t, exec (.freezeWrite a on) s = .next t ∧ t.flag pgTIME F.TIME_SERVOCTL_FREEZE = on) ∧
    (∀ (a : BitVec 4) (s : State), StoresOk s → anyLive s = false → ∃ t, exec (.setgo a) s = .next t ∧
      t.time.ft = ((s.get pgTIME F.TIME_SETSECL_value + s.get pgTIME F.TIME_SETSECH_value % 65536 * 2 ^ 32) * 1000000000 +
        s.get pgTIME F.TIME_SETNS_value) * 65536) ∧
    ∀ (a : BitVec 4) (s : State), anyLive s = true → s.flag pgTIME F.TIME_SERVOCTL_STEPOK = false →
      exec (.setgo a) s = .next ((s.quiet.fault pgTIME 0x40 0x0F8 a.toNat).emit .writeDone)

/-- A PTP message on a port that does not lead, of another version or another domain, or sent by this clock itself, changes nothing; a two-
step Sync of the master waits for its Follow_Up. Messages leave only on the lead path and in the clock's own role, at once where the
port runs, has a link and holds nothing back, as a whole frame (over UDP and IPv4, or padded to 64 bytes over IEEE 802.3). Without
Announce the master is forgotten. The phase tracker takes no instant under EPOCH nor from the source not selected; in SEEK a first
REF_SYNC instant is kept, on the 62.5 ps grid; a missed instant is counted, and the third in TRACK holds the phase. MODE.REQIDX of 22
and up is refused, the current one ends a pending request, another one is pending until T_end. PHASE.SRC 3 is refused and another one
puts the tracker in EPOCH or SEEK. -/
def Obligations.PtpAndPhase : Prop :=
  (∀ (port : Fin 2) (t : Nat) (m : List Byte) (s : State),
      port.val ≠ s.get pgPAIR F.PAIR_STAT_LEAD ∨ (m.getD 1 0).toNat % 16 ≠ 2 ∨ (m.getD 4 0).toNat ≠ s.get pgTIME F.TIME_PTPCFG_DOMAIN ∨
        beVal (slice m 20 10) / 65536 = Config.serial.toNat →
      exec (.ptpMessageReceive port t m) s = .next s.quiet) ∧
    (∀ (port : Fin 2) (ft : Nat) (m : List Byte) (k : PtpMaster) (s : State), port.val = s.get pgPAIR F.PAIR_STAT_LEAD →
      (m.getD 1 0).toNat % 16 = 2 → (m.getD 4 0).toNat = s.get pgTIME F.TIME_PTPCFG_DOMAIN → (m.getD 0 0).toNat % 16 = 0 →
      (m.getD 6 0).toNat / 2 % 2 = 1 → s.time.ptp.master = some k → s.time.ptp.isMaster = false → k.source = beVal (slice m 20 10) →
      beVal (slice m 20 10) / 65536 ≠ Config.serial.toNat →
      ∃ t, exec (.ptpMessageReceive port ft m) s = .next t ∧ t.time.ptp.await.isSome = true ∧ t.time.servo = s.time.servo ∧ t.regs = s.regs) ∧
    (∀ (port : Fin 2) (dreq : Bool) (s : State), port.val ≠ s.get pgPAIR F.PAIR_STAT_LEAD ∨ dreq = ptpMaster s →
      exec (.ptpEventTransmit port dreq) s = .next s.quiet) ∧
    (∀ (port : Fin 2) (dreq : Bool) (s : State), port.val = s.get pgPAIR F.PAIR_STAT_LEAD → port.val = leadOf s →
      dreq ≠ ptpMaster s → s.net.ports.length = 2 → effMode s (pgETH port.val) = 2 → (ethOf s port.val).up = true →
      (ethOf s port.val).pauseEnd = none → (ethOf s port.val).txq = [] →
      ∃ t b, exec (.ptpEventTransmit port dreq) s = .next t ∧ t.out = [.ethFrame port.val b] ∧
        b.length = (if s.flag pgTIME F.TIME_PTPCFG_TRANSPORT then 64 else 90) ∧
        t.time.ptp.reqSeq = (if dreq then (s.time.ptp.reqSeq + 1) % 65536 else s.time.ptp.reqSeq)) ∧
    (∀ s : State, exec .announceReceiptTimeout s = .next { s.quiet with time := { s.time with ptp :=
      { s.time.ptp with master := none, isMaster := s.flag pgTIME F.TIME_PTPCFG_MASTEROK, await := none, down := none, req := none,
                          delay := none } } }) ∧
    (∀ (ltc : Bool) (t : Nat) (s : State), s.get pgTIME F.TIME_PHASE_SRC = 0 ∨ (s.get pgTIME F.TIME_PHASE_SRC = 1 ∧ ltc = true) →
      exec (.referenceInstant ltc t) s = .next s.quiet) ∧
    (∀ (ft : Nat) (s : State), s.get pgTIME F.TIME_PHASE_SRC = 1 → s.time.lastRef = none → s.time.track = .seek →
      ∃ t, exec (.referenceInstant false ft) s = .next t ∧ t.time.lastRef = some (grid16 ft) ∧ t.time.refMatch = 0 ∧ t.time.track = .seek) ∧
    (∀ s : State, s.get pgTIME F.TIME_PHASE_SRC = 0 → exec .referenceMissed s = .next s.quiet) ∧
    (∀ s : State, s.get pgTIME F.TIME_PHASE_SRC ≠ 0 → s.time.track = .track → 2 ≤ s.time.refMiss →
      ∃ t, exec .referenceMissed s = .next t ∧ t.time.track = .hold ∧ t.time.lastRef = none) ∧
    (∀ (a : BitVec 4) (i : BitVec 5) (s : State), 22 ≤ i.toNat →
      exec (.modeRequest a i) s = .next ((s.quiet.fault pgTIME 0x01 0x040 a.toNat).emit .writeDone)) ∧
    (∀ (a : BitVec 4) (i : BitVec 5) (s : State), StoresOk s → i.toNat < 22 → s.boot.outEn = true →
      ∃ t, exec (.modeRequest a i) s = .next t ∧ t.get pgTIME F.TIME_MODE_REQIDX = i.toNat ∧
        t.get pgTIME F.TIME_MODE_CURIDX = s.get pgTIME F.TIME_MODE_CURIDX ∧
        t.flag pgTIME F.TIME_MODE_PEND = decide (i.toNat ≠ s.get pgTIME F.TIME_MODE_CURIDX)) ∧
    (∀ (a : BitVec 4) (src : BitVec 2) (s : State), StoresOk s → src.toNat ≤ 2 → ∃ t, exec (.phaseSrcWrite a src) s = .next t ∧
      t.get pgTIME F.TIME_PHASE_SRC = src.toNat ∧ t.time.track = if src = 0 then .epoch else .seek) ∧
    ∀ (a : BitVec 4) (s : State), StoresOk s → ∃ t, exec (.phaseSrcWrite a 3) s = .next t ∧
      t.get pgTIME F.TIME_PHASE_SRC = s.get pgTIME F.TIME_PHASE_SRC ∧ t.time = s.time

/-- A write at an offset that is not a multiple of four, or on a page index that is not assigned, gets a bus error and changes nothing. Any
other is the register write of its agent, answered. A write of EVT clears the bits written 1, a write of FAULT clears it. A staged
REQ.MODE goes to the staging set where the writer owns it and the commit is idle; otherwise it records NOTOWNER or ARMED, in that order,
and counts. -/
def Obligations.PlainRegisterAccess : Prop :=
  (∀ (a : BitVec 4) (off : BitVec 24) (v : Word) (s : State), off.toNat % 4 ≠ 0 ∨ assigned (off.toNat / 4096) = false →
      exec (.registerWrite a off v) s = .next (s.quiet.emit .busError) ∧ exec (.stagedWrite a off v) s = .next (s.quiet.emit .busError)) ∧
    (∀ (a : BitVec 4) (off : BitVec 24) (v : Word) (s : State), off.toNat % 4 = 0 → assigned (off.toNat / 4096) = true →
      exec (.registerWrite a off v) s = .next (answered s.quiet (regWrite a.toNat (off.toNat / 4096) (off.toNat % 4096) v s.quiet))) ∧
    (∀ (a : BitVec 4) (p : BitVec 12) (bits : Word) (s : State), assigned p.toNat = true →
      exec (.eventClear a p bits) s = .next ((s.quiet.setReg p.toNat 0x010 (s.reg p.toNat 0x010 &&& ~~~bits)).emit .writeDone)) ∧
    (∀ (a : BitVec 4) (p : BitVec 12) (s : State), assigned p.toNat = true →
      exec (.faultClear a p) s = .next ((s.quiet.setReg p.toNat 0x018 0).emit .writeDone)) ∧
    (∀ (a : BitVec 4) (off : BitVec 24) (v : Word) (p : Nat) (s : State), off.toNat = regKey p 0x008 → assigned p = true → fixedRun p = false →
      pageType p ≠ 0xC0 → a ≠ 0 → s.cmt.owner = a.toNat → s.cmt.mode = .idle →
      exec (.stagedWrite a off v) s = .next ((stage (regKey p 0x008) (0 ||| F.HDR_REQ_MODE.mask) v s.quiet).emit .writeDone)) ∧
    (∀ (a : BitVec 4) (off : BitVec 24) (v : Word) (p : Nat) (s : State), off.toNat = regKey p 0x008 → assigned p = true → fixedRun p = false →
      pageType p ≠ 0xC0 → a = 0 ∨ s.cmt.owner ≠ a.toNat →
      exec (.stagedWrite a off v) s = .next (((s.quiet.bump pgCMT F.CMT_st_NOTOWNER).fault p 0x02 0x008 a.toNat).emit .writeDone)) ∧
    ∀ (a : BitVec 4) (off : BitVec 24) (v : Word) (p : Nat) (s : State), off.toNat = regKey p 0x008 → assigned p = true → fixedRun p = false →
      pageType p ≠ 0xC0 → a ≠ 0 → s.cmt.owner = a.toNat → s.cmt.mode ≠ .idle →
      exec (.stagedWrite a off v) s = .next (((s.quiet.bump pgCMT F.CMT_st_NOTOWNER).fault p 0x03 0x008 a.toNat).emit .writeDone)

/-- A write of 1 to CMT.CTL.DISCARD by the owner in state IDLE leaves no staged value: every register holds its value in force (as before,
where no fabric commit is armed), no page has a pending value, and PEND, REJ and REJOFF are 0 on every page. From any other agent it is
ignored and records NOTOWNER; by the owner in any other state it is ignored and records ARMED. -/
def Obligations.DiscardRule : Prop :=
  (∀ (a : BitVec 4) (s : State), StoresOk s → a ≠ 0 → s.cmt.owner = a.toNat → s.cmt.mode = .idle →
      ∃ t, exec (.discard a) s = .next t ∧ t.staged = [] ∧ t.cmt = s.cmt ∧ (∀ p, pagePend t p = false) ∧
        (∀ k, stagedReg t k = (amGet t.regs k).getD (resetAt k)) ∧
        (s.fab.fc.armed = false → ∀ k, k % 4096 ≠ 0x020 → (amGet t.regs k).getD (resetAt k) = (amGet s.regs k).getD (resetAt k)) ∧
        ∀ p, assigned p = true → t.get p F.HDR_STGSTAT_REJ = 0 ∧ t.get p F.HDR_STGSTAT_REJOFF = 0 ∧ t.get p F.HDR_STGSTAT_PEND = 0) ∧
    (∀ (a : BitVec 4) (s : State), a = 0 ∨ s.cmt.owner ≠ a.toNat →
      exec (.discard a) s = .next (answered s.quiet (fcFollow (s.quiet.fault pgCMT 0x02 0x044 a.toNat)))) ∧
    ∀ (a : BitVec 4) (s : State), a ≠ 0 → s.cmt.owner = a.toNat → s.cmt.mode ≠ .idle →
      exec (.discard a) s = .next ((s.quiet.fault pgCMT 0x03 0x044 a.toNat).emit .writeDone)

/-- CLAIM takes an unowned set, or the agent's own, and is refused as CLAIMBUSY where another owns it; agent 0 never owns it. RELEASE by the
owner leaves the set unowned with its values and the commit as they were; by another it records NOTOWNER. SEIZE by the Cane responder or
the service port takes the set: a commit in CHECKING or ARMED ends with result SEIZED, a LOCKED one stays; by another agent it records
NOTOWNER. -/
def Obligations.OwnershipMoves : Prop :=
  (∀ s : State, exec (.claim 0) s = .next (answered s.quiet (fcFollow (s.quiet.fault pgCMT 0x02 0x040 0)))) ∧
    (∀ (a : BitVec 4) (s : State), a ≠ 0 → s.cmt.owner = 0 ∨ s.cmt.owner = a.toNat →
      ∃ t, exec (.claim a) s = .next t ∧ t.cmt = { s.cmt with owner := a.toNat } ∧ t.staged = s.staged) ∧
    (∀ (a : BitVec 4) (s : State), a ≠ 0 → s.cmt.owner ≠ 0 → s.cmt.owner ≠ a.toNat →
      exec (.claim a) s = .next (answered s.quiet (fcFollow (s.quiet.fault pgCMT 0x05 0x040 a.toNat)))) ∧
    (∀ (a : BitVec 4) (s : State), a ≠ 0 → s.cmt.owner = a.toNat →
      ∃ t, exec (.release a) s = .next t ∧ t.cmt = { s.cmt with owner := 0 } ∧ t.staged = s.staged) ∧
    (∀ (a : BitVec 4) (s : State), a = 0 ∨ s.cmt.owner ≠ a.toNat →
      exec (.release a) s = .next (answered s.quiet (fcFollow (s.quiet.fault pgCMT 0x02 0x040 a.toNat)))) ∧
    (∀ (a : BitVec 4) (s : State), StoresOk s → a = 5 ∨ a = 6 → s.fab.fc.armed = false → s.cmt.mode = .checking ∨ s.cmt.mode = .armed →
      ∃ t, exec (.seize a) s = .next t ∧ t.cmt.owner = a.toNat ∧ t.cmt.mode = .idle ∧ t.get pgCMT F.CMT_RESULT_CODE = 8 ∧ t.staged = s.staged) ∧
    (∀ (a : BitVec 4) (s : State), a = 5 ∨ a = 6 → s.cmt.mode = .locked →
      ∃ t, exec (.seize a) s = .next t ∧ t.cmt = { s.cmt with owner := a.toNat } ∧ t.staged = s.staged) ∧
    ∀ (a : BitVec 4) (s : State), a ≠ 5 → a ≠ 6 →
      exec (.seize a) s = .next (answered s.quiet (fcFollow (s.quiet.fault pgCMT 0x02 0x040 a.toNat)))

/-- ARM by the owner in IDLE with a WHEN that is not reserved puts the commit in CHECKING with its agent; otherwise it records NOTOWNER,
ARMED or RESERVED, in that order. DISARM cancels an armed commit with result DISARMED, waits for a check in progress, is refused for a
locked commit, and by another agent records NOTOWNER. A check that finds nothing arms the commit for its target, or re-targets it where
that lies too near; one that fails ends in IDLE with result REJECTED; outside CHECKING nothing ends. STATHOLD takes 1 to 64 latches
while none is held, and nothing for 0. -/
def Obligations.ArmAndCheck : Prop :=
  (∀ (a : BitVec 4) (v : Word) (s : State), a ≠ 0 → s.cmt.owner = a.toNat → s.cmt.mode = .idle → bitsOf v 16 2 < 2 →
      ∃ t, exec (.arm a v) s = .next t ∧ t.cmt.mode = .checking ∧ t.cmt.arming = a.toNat ∧ t.cmt.owner = a.toNat ∧ t.regs = s.regs ∧
        t.cmt.target = (if bitsOf v 16 2 = 0 then nearFn (fnOf s s.time.ft) (bitsOf v 0 16) else nextTarget s s.time.ft)) ∧
    (∀ (a : BitVec 4) (v : Word) (s : State), a = 0 ∨ s.cmt.owner ≠ a.toNat →
      exec (.arm a v) s = .next ((s.quiet.fault pgCMT 0x02 0x050 a.toNat).emit .writeDone)) ∧
    (∀ (a : BitVec 4) (v : Word) (s : State), a ≠ 0 → s.cmt.owner = a.toNat → s.cmt.mode ≠ .idle →
      exec (.arm a v) s = .next ((s.quiet.fault pgCMT 0x03 0x050 a.toNat).emit .writeDone)) ∧
    (∀ (a : BitVec 4) (v : Word) (s : State), a ≠ 0 → s.cmt.owner = a.toNat → s.cmt.mode = .idle → 2 ≤ bitsOf v 16 2 →
      exec (.arm a v) s = .next ((s.quiet.fault pgCMT 0x01 0x050 a.toNat).emit .writeDone)) ∧
    (∀ (a : BitVec 4) (s : State), StoresOk s → a ≠ 0 → s.cmt.owner = a.toNat → s.fab.fc.armed = false → s.cmt.mode = .armed →
      ∃ t, exec (.disarm a) s = .next t ∧ t.cmt.mode = .idle ∧ t.get pgCMT F.CMT_RESULT_CODE = 7 ∧ t.staged = s.staged) ∧
    (∀ (a : BitVec 4) (s : State), a ≠ 0 → s.cmt.owner = a.toNat → s.cmt.mode = .checking →
      exec (.disarm a) s = .next ({ s.quiet with cmt := { s.cmt with disarmPending := true } }.emit .writeDone)) ∧
    (∀ (a : BitVec 4) (s : State), a ≠ 0 → s.cmt.owner = a.toNat → s.cmt.mode = .locked →
      exec (.disarm a) s = .next ((s.quiet.fault pgCMT 0x04 0x044 a.toNat).emit .writeDone)) ∧
    (∀ s : State, s.cmt.mode = .checking → checks s = [] → s.cmt.disarmPending = false → nextTarget s s.time.ft ≤ s.cmt.target →
      ∃ t, exec .commitCheckEnd s = .next t ∧ t.cmt = { s.cmt with mode := .armed } ∧ t.staged = s.staged) ∧
    (∀ s : State, StoresOk s → s.cmt.mode = .checking → checks s ≠ [] → s.cmt.disarmPending = false → s.fab.fc.armed = false →
      ∃ t, exec .commitCheckEnd s = .next t ∧ t.cmt.mode = .idle ∧ t.get pgCMT F.CMT_RESULT_CODE = 3 ∧ t.staged = s.staged) ∧
    (∀ s : State, s.cmt.mode = .armed ∨ s.cmt.mode = .locked → exec .commitCheckEnd s = .next s.quiet) ∧
    (∀ (a : BitVec 4) (n : BitVec 7) (s : State), s.cmt.holdLeft = 0 → 1 ≤ n.toNat → n.toNat ≤ 64 →
      exec (.statholdWrite a n) s = .next ({ s.quiet with cmt := { s.cmt with holdLeft := n.toNat, held := 0 } }.emit .writeDone)) ∧
    (∀ (a : BitVec 4) (n : BitVec 7) (s : State), s.cmt.holdLeft = 0 → 65 ≤ n.toNat →
      exec (.statholdWrite a n) s = .next ((s.quiet.fault pgSYS 0x07 0x040 a.toNat).emit .writeDone)) ∧
    ∀ (a : BitVec 4) (n : BitVec 7) (s : State), s.cmt.holdLeft ≠ 0 → n ≠ 0 →
      exec (.statholdWrite a n) s = .next ((s.quiet.fault pgSYS 0x06 0x040 a.toNat).emit .writeDone)

/-- A fetch miss of a veneer that shows a buffer marks it missed for the frame and counts UNDERRUNS once; a generator, a veneer that shows
nothing, and a second miss change nothing. The end of a rendering completes the buffer that a snapshot of sACN data was filling. While a
frame is prepared, the next map entry of the strand that the lanes serve, the one with entries left whose shift starts first, passes and
is counted; otherwise nothing passes. A state sweep forms new records and leaves those in force; with PIXA off it does nothing. -/
def Obligations.CanvasAndColour : Prop :=
  (∀ (v : Fin 16) (s : State), s.get (pgVEN v.val) F.VEN_CFG_SRC ≠ 4 → inScan s v.val ≠ none → (venOf s v.val).missed = false →
      exec (.fetchMiss v) s = .next (((updVen s.quiet v.val fun k => { k with missed := true }).bump (pgVEN v.val) F.VEN_st_UNDERRUNS).evt
        (pgVEN v.val) 0)) ∧
    (∀ (v : Fin 16) (s : State), s.get (pgVEN v.val) F.VEN_CFG_SRC = 4 ∨ inScan s v.val = none ∨ (venOf s v.val).missed = true →
      exec (.fetchMiss v) s = .next s.quiet) ∧
    (∀ (v : Fin 16) (s : State), snapUnit s v.val = none → exec (.sacnRenderDone v) s = .next s.quiet) ∧
    (∀ (v : Fin 16) (f : Filling) (b : Nat) (s : State), s.vens.length = 16 → snapUnit s v.val = some f → f.buf = some b →
      (venOf s v.val).snap = [] →
      ∃ t, exec (.sacnRenderDone v) s = .next t ∧ unitOf t v.val f.src f.stamp = none ∧
        (venOf t v.val).complete = (b, f.stamp) :: (venOf s v.val).complete.filter (·.1 ≠ b) ∧ t.mem = s.mem) ∧
    (∀ (p : Fin 64) (s : State), preparesOn s = false ∨ s.outs.preparing = false ∨ laneHead s ≠ some p.val →
      exec (.colourLanePass p) s = .next s.quiet) ∧
    (∀ (p : Fin 64) (s : State), s.outs.strands.length = 64 → preparesOn s = true → s.outs.preparing = true → laneHead s = some p.val →
      ∃ t, exec (.colourLanePass p) s = .next t ∧ (strand t p.val).pos = (strand s p.val).pos + 1 ∧ t.outs.pins = s.outs.pins) ∧
    (∀ s : State, domainOn s 6 = true → ∃ t, exec .stateSweep s = .next t ∧ t.col.swept ≠ none ∧ t.col.applied = s.col.applied ∧ t.outs = s.outs) ∧
    ∀ s : State, domainOn s 6 = false → exec .stateSweep s = .next s.quiet

/-- A strand whose last entry has passed is prepared for the frame in preparation. A shift begins only in the modes that shift and where
there is content, a frame that is not prepared or does not fit is skipped; its end leaves the port not shifting. LATCHg's pulse ends
once. The entry at the head of a placer's queue is taken: a level the pin has already makes no edge; the other level moves the pin at
the entry's instant on the tap that its table names, where nothing delays it; pin B of a DMX port that turns low after a request makes
pin A an input; a bank in a calibration window places none. A pin that reads back wrong, where checked, is counted. A word whose read
missed is kept as missed for the next frame. -/
def Obligations.ShiftsAndPins : Prop :=
  (∀ (p : Fin 64) (s : State), preparesOn s = false ∨ s.outs.preparing = false ∨ (strand s p.val).spoiled = true →
      exec (.strandPrepared p) s = .next s.quiet) ∧
    (∀ (p : Fin 64) (s : State), s.outs.strands.length = 64 → preparesOn s = true → s.outs.preparing = true → takesFrames s p.val = true →
      (strand s p.val).spoiled = false → (strand s p.val).pos = s.get pgMAP F.MAP_SEG_COUNT p.val → (strand s p.val).prep.contains s.time.seq = false →
      ∃ t, exec (.strandPrepared p) s = .next t ∧ (strand t p.val).prep = s.time.seq :: (strand s p.val).prep ∧ t.outs.pins = s.outs.pins) ∧
    (∀ (p : Fin 64) (s : State), ((strand s p.val).kind ≠ 1 ∧ (strand s p.val).kind ≠ 2 ∧ (strand s p.val).kind ≠ 6) ∨
        contentOf s p.val (portNext s p.val).1 (portNext s p.val).2 = .none →
      exec (.shiftStart p) s = .next s.quiet) ∧
    (∀ (p : Fin 64) (c : List Nat) (s : State), s.outs.strands.length = 64 →
      (strand s p.val).kind = 1 ∨ (strand s p.val).kind = 2 ∨ (strand s p.val).kind = 6 →
      contentOf s p.val (portNext s p.val).1 (portNext s p.val).2 = .codes c →
      ∃ t, exec (.shiftStart p) s = .next t ∧ (strand t p.val).shifting = true ∧ (strand t p.val).codes = c ∧
        (strand t p.val).shiftFn = (portNext s p.val).1) ∧
    (∀ (p : Fin 64) (s : State), s.outs.strands.length = 64 →
      (strand s p.val).kind = 1 ∨ (strand s p.val).kind = 2 ∨ (strand s p.val).kind = 6 →
      contentOf s p.val (portNext s p.val).1 (portNext s p.val).2 = .prepared →
      ∃ t, exec (.shiftStart p) s = .next t ∧ (strand t p.val).shifting = true ∧ (strand t p.val).shiftFn = (portNext s p.val).1 ∧
        (strand t p.val).shownFn = (portNext s p.val).1) ∧
    (∀ (p : Fin 64) (nf : Bool) (s : State), StoresOk s → s.outs.strands.length = 64 →
      (strand s p.val).kind = 1 ∨ (strand s p.val).kind = 2 ∨ (strand s p.val).kind = 6 →
      contentOf s p.val (portNext s p.val).1 (portNext s p.val).2 = .skip nf →
      ∃ t, exec (.shiftStart p) s = .next t ∧ (strand t p.val).shifting = (strand s p.val).shifting ∧
        t.stat (pgSTD p.val) F.STD_st_SKIPS = min 0xFFFFFFFF (s.stat (pgSTD p.val) F.STD_st_SKIPS + 1)) ∧
    (∀ (p : Fin 64) (ret : List Bool) (seen : Option (List Nat)) (s : State), (strand s p.val).shifting = false →
      exec (.shiftEnd p ret seen) s = .next s.quiet) ∧
    (∀ (p : Fin 64) (ret : List Bool) (seen : Option (List Nat)) (s : State), s.outs.strands.length = 64 → (strand s p.val).shifting = true →
      ∃ t, exec (.shiftEnd p ret seen) s = .next t ∧ (strand t p.val).shifting = false ∧ t.outs.pins = s.outs.pins) ∧
    (∀ (g : Fin 16) (s : State), (s.outs.latch.getD g.val {}).high = false → exec (.latchPulseEnd g) s = .next s.quiet) ∧
    (∀ (g : Fin 16) (s : State), s.outs.latch.length = 16 → (s.outs.latch.getD g.val {}).high = true →
      ∃ t, exec (.latchPulseEnd g) s = .next t ∧ t.outs.latch.getD g.val {} = { s.outs.latch.getD g.val {} with high := false }) ∧
    (∀ (i : Fin 144) (slots : Option (List Byte)) (s : State), (pinOf s i.val).queue = [] ∨ bankHeld s (bankOf i.val) = true →
      exec (.edgePlace (i, slots)) s = .next s.quiet) ∧
    (∀ (i : Fin 144) (slots : Option (List Byte)) (e : Entry) (rest : List Entry) (s : State), (pinOf s i.val).queue = e :: rest →
      bankHeld s (bankOf i.val) = false → PlainEntry i.val rest s → (pinOf s i.val).level = some e.level → s.outs.pins.length = 144 →
      exec (.edgePlace (i, slots)) s = .next (updPin s.quiet i.val fun p => { p with queue := rest ++ p.feed.take 1, feed := p.feed.drop 1 })) ∧
    (∀ (i : Fin 144) (slots : Option (List Byte)) (e : Entry) (rest : List Entry) (s : State), (pinOf s i.val).queue = e :: rest →
      bankHeld s (bankOf i.val) = false → PlainEntry i.val rest s → (pinOf s i.val).level = some (!e.level) → s.outs.pins.length = 144 → inRun s pgEDGE = true → e.late = none →
      (pinOf s i.val).window = none → (pinOf s i.val).last = none →
      ∃ t, exec (.edgePlace (i, slots)) s = .next t ∧ (pinOf t i.val).level = some e.level ∧ (pinOf t i.val).last = some e.t ∧
        t.out = [.pin i.val e.level (BitVec.ofNat 32 (e.t / 16)) (e.t % 16) ((tapTable s i.val).remap.getD (e.t % 16) 0)]) ∧
    (∀ (i : Fin 144) (slots : Option (List Byte)) (e : Entry) (s : State), i.val < 128 → i.val % 2 = 1 → s.outs.strands.length = 64 → s.outs.pins.length = 144 →
      gangLead s (i.val / 2) = none → (strand s (i.val / 2)).kind = 5 → (strand s (i.val / 2)).rdm = .sending → (pinOf s i.val).queue = [e] →
      (pinOf s i.val).feed = [] → bankHeld s (bankOf i.val) = false → (pinOf s i.val).level = some (pinLevel (strand s (i.val / 2)) 1 false) →
      e.level = pinLevel (strand s (i.val / 2)) 1 false →
      ∃ t, exec (.edgePlace (i, slots)) s = .next t ∧ (strand t (i.val / 2)).rdm = .listening ∧ (pinOf t (i.val - 1)).level = none) ∧
    (∀ (i : Fin 144) (seen : Bool) (s : State), s.get pgEDGE F.EDGE_BANKCFG_PINCHK / 2 ^ bankOf i.val % 2 = 0 ∨ (pinOf s i.val).level = some seen →
      exec (.pinCheckSample i seen) s = .next s.quiet) ∧
    (∀ (i : Fin 144) (seen : Bool) (s : State), StoresOk s → s.get pgEDGE F.EDGE_BANKCFG_PINCHK / 2 ^ bankOf i.val % 2 = 1 →
      (pinOf s i.val).level = some (!seen) →
      ∃ t, exec (.pinCheckSample i seen) s = .next t ∧ t.stat pgEDGE F.EDGE_st_PINERR = min 0xFFFFFFFF (s.stat pgEDGE F.EDGE_st_PINERR + 1)) ∧
    (∀ (p : Fin 64) (w : Nat) (s : State), (strand s p.val).words ≤ w ∨ (strand s p.val).mode ≠ 2 → exec (.wordReadMiss p w) s = .next s.quiet) ∧
    ∀ (p : Fin 64) (w : Nat) (s : State), s.outs.strands.length = 64 → w < (strand s p.val).words → (strand s p.val).mode = 2 →
      (strand s p.val).shifting = false →
      ∃ t, exec (.wordReadMiss p w) s = .next t ∧ (strand t p.val).missWords = w :: (strand s p.val).missWords

/-- Each of the five does nothing on a port of another kind. On a driven port of its kind MATRIX_SWITCH, PWM_PERIOD_START, PANEL_ROW_SLOT
and GPIO_PULSE move the port on by one place of its grid. DMX_BREAK puts the next packet on the line, counts it and begins at the later
of now and the end of the packet before; a queued RDM request goes in its place, its status BUSY while it is sent. A GPIOPUSH to pin B
puts its entry behind those that wait. A GPIOPUSH on a port of another kind is not taken, one to a pin that pulses records RANGE, and
one to a full queue records that and sets its event. -/
def Obligations.PortModes : Prop :=
  (∀ (p : Fin 64) (s : State), (showing s p.val).kind ≠ 3 ∨ portDriven s p.val = false → exec (.matrixSwitch p) s = .next s.quiet) ∧
    (∀ (p : Fin 64) (x : Rat) (l : List Rat) (s : State), s.outs.strands.length = 64 → (showing s p.val).kind = 3 → (strand s p.val).shown ≠ [] →
      portDriven s p.val = true → l = switchPlaces (litSpans (duties (showing s p.val) (strand s p.val).shown).1) →
      l[(strand s p.val).idx % max 1 l.length]? = some x →
      beforeLatch s p.val ((strand s p.val).origin + (((strand s p.val).idx / l.length : Nat) + x) * matrixPeriod (showing s p.val)) = true →
      ∃ t, exec (.matrixSwitch p) s = .next t ∧ (strand t p.val).idx = (strand s p.val).idx + 1 ∧ (strand t p.val).shown = (strand s p.val).shown) ∧
    (∀ (p : Fin 64) (s : State), (showing s p.val).kind ≠ 4 ∨ portDriven s p.val = false → exec (.pwmPeriodStart p) s = .next s.quiet) ∧
    (∀ (p : Fin 64) (s : State), s.outs.strands.length = 64 → (showing s p.val).kind = 4 → (strand s p.val).shown ≠ [] → portDriven s p.val = true →
      beforeLatch s p.val ((strand s p.val).origin + (strand s p.val).idx * pwmPeriod (showing s p.val)) = true →
      ∃ t, exec (.pwmPeriodStart p) s = .next t ∧ (strand t p.val).idx = (strand s p.val).idx + 1) ∧
    (∀ (p : Fin 64) (s : State), (strand s p.val).kind ≠ 6 ∨ portDriven s p.val = false → exec (.panelRowSlot p) s = .next s.quiet) ∧
    (∀ (p : Fin 64) (s : State), s.outs.strands.length = 64 → (strand s p.val).kind = 6 → portDriven s p.val = true →
      ∃ t, exec (.panelRowSlot p) s = .next t ∧ (strand t p.val).idx = (strand s p.val).idx + 1) ∧
    (∀ (p : Fin 64) (s : State), (strand s p.val).kind ≠ 7 ∨ inRun s (pgSTD p.val) = false → exec (.gpioPulse p) s = .next s.quiet) ∧
    (∀ (p : Fin 64) (s : State), s.outs.strands.length = 64 → (strand s p.val).kind = 7 → inRun s (pgSTD p.val) = true →
      (strand s p.val).fld F.STD_GPIO_P1_PULSEA = 1 → (strand s p.val).idx ≤ (strand s p.val).fld F.STD_GPIO_P1_K → s.time.gapM = none →
      ∃ t, exec (.gpioPulse p) s = .next t ∧ (strand t p.val).idx = (strand s p.val).idx + 1) ∧
    (∀ (p : Fin 64) (s : State), (strand s p.val).kind ≠ 5 ∨ portDriven s p.val = false → exec (.dmxBreak p) s = .next s.quiet) ∧
    (∀ (p : Fin 64) (s : State), StoresOk s → s.outs.strands.length = 64 → (strand s p.val).kind = 5 → portDriven s p.val = true →
      (strand s p.val).dark = .none → (strand s p.val).rdm = .idle → inRun s pgEDGE = true → (dmxData p.val s.quiet).2 ≠ [] →
      ∃ t, exec (.dmxBreak p) s = .next t ∧ (strand t p.val).lastBreak = max (now16 s) (strand s p.val).packetEnd ∧
        t.stat (pgSTD p.val) F.STD_st_PACKETS = min 0xFFFFFFFF (s.stat (pgSTD p.val) F.STD_st_PACKETS + 1)) ∧
    (∀ (p : Fin 64) (s : State), StoresOk s → s.outs.strands.length = 64 → (strand s p.val).kind = 5 → portDriven s p.val = true →
      (strand s p.val).dark = .none → (strand s p.val).rdm = .queued → inRun s pgEDGE = true →
      ∃ t, exec (.dmxBreak p) s = .next t ∧ (strand t p.val).rdm = .sending ∧
        (strand t p.val).lastBreak = max (now16 s) (strand s p.val).packetEnd ∧
        t.get (pgSTD p.val) F.STD_RDMCTL_STATUS = s.get (pgSTD p.val) F.STD_RDMCTL_STATUS ∧ t.out = [.line p.val (rdmRequest s p.val)]) ∧
    (∀ (a : BitVec 4) (p : Fin 64) (v : Word) (s : State), (strand s p.val).kind ≠ 7 ∨ inRun s (pgSTD p.val) = false →
      exec (.gpiopush a p v) s = .next (s.quiet.emit .writeDone)) ∧
    (∀ (a : BitVec 4) (p : Fin 64) (v : Word) (s : State), (strand s p.val).kind = 7 → inRun s (pgSTD p.val) = true → bitsOf v 1 1 = 0 →
      (strand s p.val).fld F.STD_GPIO_P1_PULSEA = 1 →
      exec (.gpiopush a p v) s = .next ((s.quiet.fault (pgSTD p.val) 0x07 0x074 a.toNat).emit .writeDone)) ∧
    (∀ (a : BitVec 4) (p : Fin 64) (v : Word) (s : State), s.outs.pins.length = 144 → (strand s p.val).kind = 7 → inRun s (pgSTD p.val) = true →
      bitsOf v 1 1 = 1 → (pinOf s (2 * p.val + 1)).queue.length < 64 → (pinOf s (2 * p.val + 1)).feed = [] →
      ∃ t e, exec (.gpiopush a p v) s = .next t ∧ (pinOf t (2 * p.val + 1)).queue = (pinOf s (2 * p.val + 1)).queue ++ [e] ∧
        e.level = pinLevel (strand s p.val) 1 (bitsOf v 0 1 = 1) ∧ e.late.isSome = stPast (s.reg (pgSTD p.val) 0x070) s.st ∧
        t.out = [.writeDone]) ∧
    ∀ (a : BitVec 4) (p : Fin 64) (v : Word) (s : State), (strand s p.val).kind = 7 → inRun s (pgSTD p.val) = true → bitsOf v 1 1 = 1 →
      64 ≤ (pinOf s (2 * p.val + 1)).queue.length →
      exec (.gpiopush a p v) s = .next (((s.quiet.fault (pgSTD p.val) 0x40 0x074 a.toNat).evt (pgSTD p.val) 6).emit .writeDone)

/-- RDM_GO on a port with no transaction queues one with status BUSY, in the mark after one it queues the next (log entry 35), and it leaves
a port with one as it was. A response that does not begin ends the listening with TIMEOUT; one received ends it with FRAMING, OK or
CHECKSUM and keeps at most 257 bytes; the mark's end frees the port, or leaves it with the request queued meanwhile. A TRIG level
accepted is kept; on an enabled input it counts. OVR.FIRE of an enabled state makes it active with its instant, one that is not enabled
counts as refused; OVR.RELEASE of an active state that did not fire within 16 ns makes it inactive. -/
def Obligations.RdmAndOverrides : Prop :=
  (∀ (a : BitVec 4) (p : Fin 64) (s : State), StoresOk s → s.outs.strands.length = 64 → (strand s p.val).rdm = .idle →
      ∃ t, exec (.rdmGo a p) s = .next t ∧ (strand t p.val).rdm = .queued ∧ t.get (pgSTD p.val) F.STD_RDMCTL_STATUS = 1) ∧
    (∀ (a : BitVec 4) (p : Fin 64) (s : State), StoresOk s → s.outs.strands.length = 64 → (strand s p.val).rdm = .mark →
      ∃ t, exec (.rdmGo a p) s = .next t ∧ (strand t p.val).rdm = .markQueued ∧ t.get (pgSTD p.val) F.STD_RDMCTL_STATUS = 1) ∧
    (∀ (a : BitVec 4) (p : Fin 64) (s : State), (strand s p.val).rdm ≠ .idle → (strand s p.val).rdm ≠ .mark →
      ∃ t, exec (.rdmGo a p) s = .next t ∧ t.outs = s.outs) ∧
    (∀ (p : Fin 64) (s : State), awaits s p.val = false → exec (.rdmResponseTimeout p) s = .next s.quiet) ∧
    (∀ (p : Fin 64) (s : State), StoresOk s → s.outs.strands.length = 64 → awaits s p.val = true →
      ∃ t, exec (.rdmResponseTimeout p) s = .next t ∧ (strand t p.val).rdm = .mark ∧ t.get (pgSTD p.val) F.STD_RDMCTL_STATUS = 3 ∧
        t.get (pgSTD p.val) F.STD_RDMCTL_RLEN = 0) ∧
    (∀ (p : Fin 64) (b : List Byte) (s : State), StoresOk s → s.outs.strands.length = 64 → awaits s p.val = true →
      (∃ t, exec (.rdmReceptionEnd p b true) s = .next t ∧ (strand t p.val).rdm = .mark ∧ t.get (pgSTD p.val) F.STD_RDMCTL_STATUS = 5) ∧
      (b.length < (b.getD 2 0).toNat + 2 → s.flag (pgSTD p.val) F.STD_RDMCTL_DISC = false →
        ∃ t, exec (.rdmReceptionEnd p b false) s = .next t ∧ (strand t p.val).rdm = .mark ∧ t.get (pgSTD p.val) F.STD_RDMCTL_STATUS = 4 ∧
          (strand t p.val).rdmResp = b.take 257) ∧
      (s.flag (pgSTD p.val) F.STD_RDMCTL_DISC = true →
        ∃ t, exec (.rdmReceptionEnd p b false) s = .next t ∧ t.get (pgSTD p.val) F.STD_RDMCTL_STATUS = 2 ∧
          t.get (pgSTD p.val) F.STD_RDMCTL_RLEN = (b.take 257).length)) ∧
    (∀ (p : Fin 64) (s : State), (strand s p.val).rdm = .mark →
      exec (.rdmMarkEnd p) s = .next (updStrand s.quiet p.val fun k => { k with rdm := .idle })) ∧
    (∀ (p : Fin 64) (s : State), (strand s p.val).rdm = .markQueued →
      exec (.rdmMarkEnd p) s = .next (updStrand s.quiet p.val fun k => { k with rdm := .queued })) ∧
    (∀ (p : Fin 64) (s : State), (strand s p.val).rdm = .idle ∨ (strand s p.val).rdm = .queued ∨ (strand s p.val).rdm = .listening →
      exec (.rdmMarkEnd p) s = .next s.quiet) ∧
    (∀ (k : Fin 8) (level : Bool) (s : State), s.outs.ovr.trig.getD k.val false = level → exec (.trigFilterAccept k level) s = .next s.quiet) ∧
    (∀ (k : Fin 8) (level : Bool) (s : State), s.outs.ovr.trig.getD k.val false ≠ level →
      ∃ t, exec (.trigFilterAccept k level) s = .next t ∧ t.outs.ovr.trig = s.outs.ovr.trig.set k.val level ∧
        (s.flag pgOVR F.OVR_TRIG_EN k.val = false → t.outs.ovr.active = s.outs.ovr.active ∧ t.ctr = s.ctr) ∧
        (StoresOk s → s.flag pgOVR F.OVR_TRIG_EN k.val = true →
          t.stat pgOVR F.OVR_st_TRIGEDGES = min 0xFFFFFFFF (s.stat pgOVR F.OVR_st_TRIGEDGES + 1))) ∧
    (∀ (a : BitVec 4) (st : Fin 8) (s : State), s.flag pgOVR F.OVR_ST_CFG_EN st.val = false →
      exec (.ovrFire a (BitVec.ofNat 8 (2 ^ st.val))) s = .next ((ovrUpdate ovrBound (s.quiet.bump pgOVR F.OVR_st_REFUSED)).emit .writeDone)) ∧
    (∀ (a : BitVec 4) (st : Fin 8) (s : State), s.flag pgOVR F.OVR_ST_CFG_EN st.val = true → inRun s pgOVR = true → s.outs.ovr.fireAt.length = 8 →
      ∃ t, exec (.ovrFire a (BitVec.ofNat 8 (2 ^ st.val))) s = .next t ∧ t.outs.ovr.active = s.outs.ovr.active ||| BitVec.ofNat 8 (2 ^ st.val) ∧
        t.outs.ovr.fireAt.getD st.val none = some s.time.ft) ∧
    (∀ (a : BitVec 4) (st : Fin 8) (s : State), s.outs.ovr.active.getLsbD st.val = true → s.outs.ovr.fireAt.getD st.val none = none →
      ∃ t, exec (.ovrRelease a (BitVec.ofNat 8 (2 ^ st.val))) s = .next t ∧
        t.outs.ovr.active = s.outs.ovr.active &&& ~~~(BitVec.ofNat 8 (2 ^ st.val))) ∧
    ∀ (a : BitVec 4) (st : Fin 8) (s : State), s.outs.ovr.active.getLsbD st.val = false →
      exec (.ovrRelease a (BitVec.ofNat 8 (2 ^ st.val))) s = .next ((ovrUpdate ovrBound s.quiet).emit .writeDone)

/-- With CTL.AUTO 0, or CAL not in RUN, no run starts by itself, nor a temperature trigger with TEMPTRIG 0; the next bank in turn that takes
part starts. RUNNOW starts the bank it names, waits while a run is in progress, and is merged with a request of that bank that waits. A
window is opened, or deferred and counted, at most once in a frame; closed, its hits, no more than the 750 edges launched into a placer,
are added to the run's, tap by tap. After window 63 the tables of all 36 placers are computed; a placer that fails rejects the run.
CALIB is brought up to the condition of R236, and a change from 1 to 0 sets STALE. -/
def Obligations.CalibrationRuns : Prop :=
  (∀ (tr : Option (Fin 4)) (s : State), s.flag pgCAL F.CAL_CTL_AUTO = false ∨ inRun s pgCAL = false → exec (.calRunStart tr) s = .next s.quiet) ∧
    (∀ (b : Fin 4) (s : State), s.get pgCAL F.CAL_TEMPTRIG = 0 → exec (.calRunStart (some b)) s = .next s.quiet) ∧
    (∀ (b : Fin 4) (s : State), StoresOk s → s.flag pgCAL F.CAL_CTL_AUTO = true → inRun s pgCAL = true → s.cal.run = none →
      s.cal.turn = (b.val + 3) % 4 → calTakes s b.val = true →
      ∃ t, exec (.calRunStart none) s = .next t ∧ t.cal.run = some { bank := b.val } ∧ t.cal.turn = b.val ∧
        t.get pgCAL F.CAL_STAT_BUSY = 1 ∧ t.get pgCAL F.CAL_STAT_BANK = b.val) ∧
    (∀ (b : Fin 4) (s : State), inRun s pgCAL = false → exec (.calRunnow b) s = .next (s.quiet.set pgCAL F.CAL_CTL_BANKSEL b.val)) ∧
    (∀ (b : Fin 4) (s : State), inRun s pgCAL = true → s.cal.run = none →
      ∃ t, exec (.calRunnow b) s = .next t ∧ t.cal = { s.cal with run := some { bank := b.val } }) ∧
    (∀ (b : Fin 4) (s : State), inRun s pgCAL = true → s.cal.run.isSome = true →
      ∃ t, exec (.calRunnow b) s = .next t ∧ t.cal.run = s.cal.run ∧
        t.cal.waiting = if b.val ∈ s.cal.waiting then s.cal.waiting else s.cal.waiting ++ [b.val]) ∧
    (∀ s : State, s.cal.run = none → exec .calWindowOpen s = .next s.quiet ∧ (∀ hits, exec (.calWindowClose hits) s = .next s.quiet) ∧
      exec .calTableComputeDone s = .next s.quiet) ∧
    (∀ (r : CalRun) (s : State), s.cal.run = some r → s.cal.window = false → r.windows < 63 → r.tables = none → WindowTurn r s → windowDeferred s r.bank = false →
      ∃ t, exec .calWindowOpen s = .next t ∧
        t.cal = { s.cal with run := some { r with defers := 0, frame := some s.time.seq }, window := true, prev := s.cal.tabs }) ∧
    (∀ (r : CalRun) (s : State), s.cal.run = some r → s.cal.window = false → r.windows < 63 → WindowTurn r s → windowDeferred s r.bank = true → r.defers < 255 →
      exec .calWindowOpen s = .next (updCal (s.quiet.bump pgCAL F.CAL_st_DEFERRED) fun c =>
        { c with run := some { r with defers := r.defers + 1, frame := some s.time.seq } })) ∧
    (∀ (r : CalRun) (s : State), s.cal.run = some r → s.boot.outEn = false ∨ s.time.gapM.isSome = true ∨ r.frame = some s.time.seq →
      exec .calWindowOpen s = .next s.quiet) ∧
    (∀ (r : CalRun) (hits : List (List Nat)) (s : State), s.cal.run = some r → s.cal.window = true → r.tables = none →
      ∃ t u, exec (.calWindowClose hits) s = .next t ∧ t.cal.window = false ∧ t.cal.run = some u ∧ u.windows = r.windows + 1 ∧ u.tables = none ∧
        ∀ j k, j < 36 → k < 32 → (u.hits.getD j []).getD k 0 = (r.hits.getD j []).getD k 0 + (windowHits (hits.getD j [])).getD k 0) ∧
    (∀ (r : CalRun) (s : State), s.cal.run = some r → s.cal.window = false → r.windows = 63 → r.tables = none →
      (∀ j, j < 36 → (tapCompute (r.hits.getD j [])).isSome = true) →
      ∃ t, exec .calTableComputeDone s = .next t ∧
        t.cal.run = some { r with tables := some ((List.range 36).filterMap fun j => tapCompute (r.hits.getD j [])) }) ∧
    (∀ (r : CalRun) (j : Nat) (s : State), s.cal.run = some r → s.cal.window = false → r.windows = 63 → r.tables = none → s.cal.waiting = [] →
      j < 36 → tapCompute (r.hits.getD j []) = none →
      ∃ t, exec .calTableComputeDone s = .next t ∧ t.cal = { s.cal with run := none }) ∧
    (∀ (b : Fin 4) (s : State), s.flag pgCAL F.CAL_BANKSTAT_CALIB b.val = true → calibrated s b.val = false →
      exec (.calStale b) s = .next ((s.quiet.set pgCAL F.CAL_BANKSTAT_CALIB 0 b.val).evt pgCAL 3)) ∧
    ∀ (b : Fin 4) (s : State), s.flag pgCAL F.CAL_BANKSTAT_CALIB b.val = false ∨ calibrated s b.val = true →
      exec (.calStale b) s = .next (s.quiet.set pgCAL F.CAL_BANKSTAT_CALIB (calibrated s b.val).toNat b.val)

/-- A start with ADC not converting, of an empty group, of a group that converts, or while another start waits, is refused and counted;
otherwise it begins now with the words in force, or waits for the group that converts. GRPSTART starts the group of its bit. A sample
writes code, raw code (in TEST that of the zero reference, which is open), VALID and the instant of its position; the code is (16·raw −
offset)·gain/2^18 rounded and held from 0 to 4,095. The group ends after its last sample and the start that waits begins, or else a
calibration that is due. A calibration of the converter begins with AUTO, keeps the words of 31 pairs' medians within its limits and
else sets CALFAIL; starving is reported once. A die conversion is reported with VALID. -/
def Obligations.ConverterGroups : Prop :=
  (∀ (g : Fin 4) (s : State), adcOn s = false ∨ s.get pgADC F.ADC_GRP_MASK g.val = 0 →
      exec (.adcGroupStart g) s = .next ((s.quiet.bump pgADC F.ADC_st_OVERRUNS).evt pgADC 5)) ∧
    (∀ (g : Fin 4) (s : State), adcOn s = true → s.get pgADC F.ADC_GRP_MASK g.val ≠ 0 → s.cal.conv = none →
      ∃ t, exec (.adcGroupStart g) s = .next t ∧ exec (.adcGrpstart (BitVec.ofNat 32 (2 ^ g.val))) s = .next t ∧ t.regs = s.regs ∧
        t.cal.pend = none ∧ t.cal.conv = some (g.val, s.st, channelsOf (s.get pgADC F.ADC_GRP_MASK g.val), 0, (adcWords s).1, (adcWords s).2)) ∧
    (∀ (g : Fin 4) (c : Nat × Word × List Nat × Nat × Int × Nat) (s : State), adcOn s = true → s.get pgADC F.ADC_GRP_MASK g.val ≠ 0 → s.cal.conv = some c →
      (c.1 = g.val ∨ s.cal.pend.isSome = true → exec (.adcGroupStart g) s = .next ((s.quiet.bump pgADC F.ADC_st_OVERRUNS).evt pgADC 5)) ∧
      (c.1 ≠ g.val → s.cal.pend = none → exec (.adcGroupStart g) s = .next { s.quiet with cal := { s.cal with pend := some g.val } })) ∧
    (∀ (v : Word) (s : State), v.toNat % 16 = 0 → exec (.adcGrpstart v) s = .next s.quiet) ∧
    (∀ (raw : BitVec 12) (s : State), s.cal.conv = none → exec (.adcSample raw) s = .next s.quiet ∧ exec .adcGroupEnd s = .next s.quiet) ∧
    (∀ (raw : BitVec 12) (g i ch : Nat) (st : Word) (chs : List Nat) (off : Int) (gain : Nat) (s : State), StoresOk s →
      s.cal.conv = some (g, st, chs, i, off, gain) → chs[i]? = some ch → ch < 16 → s.cal.convAt.length = 16 →
      ∃ t, exec (.adcSample raw) s = .next t ∧
        (effMode s pgADC ≠ 3 → t.get pgADC F.ADC_RESULT_CODE ch = corrected off gain raw.toNat ∧ t.get pgADC F.ADC_RESULT_RAW ch = raw.toNat) ∧
        t.get pgADC F.ADC_RESULT_CODE ch = corrected off gain (t.get pgADC F.ADC_RESULT_RAW ch) ∧ t.get pgADC F.ADC_RESULT_VALID ch = 1 ∧
        t.reg pgADC (0x084 + 8 * ch) = st + BitVec.ofNat 32 (40 + i * 500) ∧ t.cal.conv = some (g, st, chs, i + 1, off, gain) ∧
        (t.cal.convAt.getD ch none).map (·.1) = some s.time.ft) ∧
    (∀ (off : Int) (gain raw : Nat), corrected off gain raw ≤ 4095 ∧
      (0 ≤ ((16 * (raw : Int) - off) * gain + 131072) / 262144 → ((16 * (raw : Int) - off) * gain + 131072) / 262144 ≤ 4095 →
        (corrected off gain raw : Int) = ((16 * (raw : Int) - off) * gain + 131072) / 262144)) ∧
    (∀ (g i : Nat) (st : Word) (chs : List Nat) (w : Int × Nat) (s : State), s.cal.conv = some (g, st, chs, i, w) →
      (i < chs.length → exec .adcGroupEnd s = .next s.quiet) ∧
      (chs.length ≤ i → s.cal.pend = none → s.cal.adcDue = false →
        exec .adcGroupEnd s = .next ((updCal s.quiet fun c => { c with conv := none }).evt pgADC g)) ∧
      (chs.length ≤ i → s.cal.pend = none → s.cal.adcDue = true → adcOn s = true →
        ∃ t, exec .adcGroupEnd s = .next t ∧ t.cal.conv = none ∧ t.cal.adcCal = true) ∧
      ∀ h, chs.length ≤ i → s.cal.pend = some h → ∃ t st' chs', exec .adcGroupEnd s = .next t ∧ t.cal.pend = none ∧
        t.cal.conv = some (h, st', chs', 0, adcWords s)) ∧
    (∀ s : State, s.flag pgADC F.ADC_CALCTL_AUTO = true → adcOn s = true → s.cal.adcCal = false →
      exec .adcCalStart s = .next { s.quiet with cal := { s.cal with adcCal := true, adcDue := false, starved := false } }) ∧
    (∀ s : State, s.flag pgADC F.ADC_CALCTL_AUTO = false ∨ adcOn s = false ∨ s.cal.adcCal = true → exec .adcCalStart s = .next s.quiet) ∧
    (∀ (zero full : List Int) (s : State), s.cal.adcCal = false ∨ s.cal.conv.isSome = true ∨ zero.length ≠ 31 ∨ full.length ≠ 31 →
      exec (.adcCalEnd zero full) s = .next s.quiet) ∧
    (∀ (zero full : List Int) (s : State), s.cal.adcCal = true → s.cal.conv = none → zero.length = 31 → full.length = 31 →
      ((median zero).natAbs ≤ 128 → 7000 ≤ median full - median zero → median full - median zero ≤ 7800 →
        ∃ t, exec (.adcCalEnd zero full) s = .next t ∧ t.cal.adcCal = false ∧
          t.cal.words = some (8 * median zero, (roundHalfUp (16384 * (36864 / 10 : Rat) * 2 / ((median full - median zero : Int) : Rat))).toNat)) ∧
      (128 < (median zero).natAbs ∨ median full - median zero < 7000 ∨ 7800 < median full - median zero →
        exec (.adcCalEnd zero full) s = .next ((updCal s.quiet fun c => { c with adcCal := false }).evt pgADC 6))) ∧
    (∀ s : State, s.cal.adcCal = false ∨ s.cal.starved = true → exec .adcCalStarve s = .next s.quiet) ∧
    (∀ s : State, s.cal.adcCal = true → s.cal.starved = false →
      exec .adcCalStarve s = .next ((updCal s.quiet fun c => { c with starved := true }).evt pgADC 7)) ∧
    ∀ (temp : Half) (s : State), StoresOk s → (∀ b, b < 4 → s.flag pgCAL F.CAL_BANKSTAT_CALIB b = false) →
      ∃ t, exec (.dieTempConversion temp) s = .next t ∧ t.get pgADC F.ADC_DIETEMP_TEMP = temp.toNat ∧ t.get pgADC F.ADC_DIETEMP_VALID = 1 ∧
        t.cal.dieAt = some s.time.ft

/-- The frame sync edge of an enabled TDM port, the one FSPOL names, counts regular frames, and 16 in a row set its TDMLOCK bit; a loss
clears the bit and no other. An enabled bus takes one sample at a later grid instant than its last. A block end takes the oldest block
off the bus, gives its 96-byte record the next SEQ, and nothing stays to publish. The oldest LTC frame decoded (log entry 91) is taken,
and no other: one that is not valid is counted; a second in a row loses LTC. A valid one counts up while the rate stays. A record of a
beat goes in its place, of a feature into its slot; one of another length, or whose source nothing takes, changes nothing. A record that
is late for taps that used an older one is no longer noted (log entry 40). Taps sample for the next frame, each target once, and count
in DRIVEN only as they are applied; with none enabled none is driven. -/
def Obligations.SoundInputs : Prop :=
  (∀ (p : Fin 2) (up' : Bool) (t : Nat) (l : List (List Bool × List Bool)) (s : State),
      bitsOf (tdmReg s p.val) 0 1 = 0 ∨ sndIn s = false ∨ up' ≠ decide (bitsOf (tdmReg s p.val) 8 1 = 0) →
      exec (.tdmFrame p (up', t) l) s = .next s.quiet) ∧
    (∀ (p : Fin 2) (t : Nat) (l : List (List Bool × List Bool)) (s : State), StoresOk s → bitsOf (tdmReg s p.val) 0 1 = 1 → sndIn s = true →
      ∃ u n, exec (.tdmFrame p (decide (bitsOf (tdmReg s p.val) 8 1 = 0), t) l) s = .next u ∧
        u.snd.tdm = s.snd.tdm.set p.val (some (tdmStamp (tdmReg s p.val) t), n) ∧
        n = (match (s.snd.tdm.getD p.val (none, 0)).1 with
          | some e => if Config.frameRegular (tdmStamp (tdmReg s p.val) t - e) (secUnits / (if bitsOf (tdmReg s p.val) 2 1 = 1 then 96000 else 48000)) then
              (s.snd.tdm.getD p.val (none, 0)).2 + 1 else 0
          | none => 0) ∧
        u.get pgSND F.SND_INSTAT_TDMLOCK = if 16 ≤ n then s.get pgSND F.SND_INSTAT_TDMLOCK ||| 2 ^ p.val else s.get pgSND F.SND_INSTAT_TDMLOCK) ∧
    (∀ (p : Fin 2) (s : State), StoresOk s → ∃ u, exec (.tdmLockLoss p) s = .next u ∧ u.snd = { s.snd with tdm := s.snd.tdm.set p.val (none, 0) } ∧
      (u.get pgSND F.SND_INSTAT_TDMLOCK).testBit p.val = false ∧
      ∀ q : Fin 2, q ≠ p → (u.get pgSND F.SND_INSTAT_TDMLOCK).testBit q.val = (s.get pgSND F.SND_INSTAT_TDMLOCK).testBit q.val) ∧
    (∀ (b : Fin 4) (s : State), sndOn s = false ∨ s.flag pgSND F.SND_BUS_EN b.val = false → exec (.busSample b) s = .next s.quiet) ∧
    (∀ (b : Fin 4) (s : State), sndOn s = true → s.flag pgSND F.SND_BUS_EN b.val = true → s.snd.buses.length = 4 →
      ∃ u n e, exec (.busSample b) s = .next u ∧ (busOf u b.val).idx = some n ∧ (busOf u b.val).block = (busOf s b.val).block ++ [(n, e)] ∧
        (∀ i, (busOf s b.val).idx = some i → i < n) ∧ ∀ c, c ≠ b.val → busOf u c = busOf s c) ∧
    (∀ (b : Fin 4) (s : State), (busOf s b.val).block = [] ∨ sndOn s = false → s.snd.pub = [] → exec (.blockEnd b) s = .next s.quiet) ∧
    (∀ (b : Fin 4) (n : Nat) (e : Nat × Bool × Bool) (r : List (Nat × Nat × Bool × Bool)) (s : State), (busOf s b.val).block = (n, e) :: r → sndOn s = true →
      s.snd.buses.length = 4 → s.snd.feats.length = 8 →
      ∃ u f, exec (.blockEnd b) s = .next u ∧ (busOf u b.val).block = (busOf s b.val).block.filter (fun x => x.1 / 48 ≠ n / 48) ∧
        (busOf u b.val).seq = ((busOf s b.val).seq + 1) % 65536 ∧ u.snd.pub = [] ∧ (u.snd.feats.getD b.val []).head? = some f ∧ f.length = 96) ∧
    (∀ (v : Bool) (tc : BitVec 31) (r : Fin 4) (t : Nat) (s : State),
      s.flag pgSND F.SND_LTC_EN = false ∨ sndIn s = false ∨ s.snd.ltc.frames.head? ≠ some (v, tc.toNat, r.val, t) →
      exec (.ltcFrame v tc r t) s = .next s.quiet) ∧
    (∀ (v : Bool) (tc : BitVec 31) (r : Fin 4) (t : Nat) (l : List (Bool × Nat × Nat × Nat)) (s : State), s.flag pgSND F.SND_LTC_EN = true → sndIn s = true →
      s.snd.ltc.frames = (v, tc.toNat, r.val, t) :: l →
      ∃ u, exec (.ltcFrame v tc r t) s = .next u ∧ u.snd = { s.snd with
        ltc := { s.snd.ltc with frames := l }
        ltcValid := if !v then 0 else if r.val = s.snd.ltcRate then s.snd.ltcValid + 1 else 1
        ltcBad := if v ∨ 1 ≤ s.snd.ltcBad then 0 else 1
        ltcRate := if v then r.val else s.snd.ltcRate }) ∧
    (∀ s : State, StoresOk s → s.flag pgSND F.SND_LTCSTAT_LOCK = false → ∃ u, exec .ltcLost s = .next u ∧
      u.snd = { s.snd with ltcValid := 0, ltcBad := 0 } ∧ u.flag pgTIME F.TIME_TCODE_VALID = false) ∧
    (∀ s : State, s.flag pgSND F.SND_LTCSTAT_LOCK = true → ∃ u, exec .ltcLost s = .next u ∧ u.snd = { s.snd with ltcValid := 0, ltcBad := 0 }) ∧
    (∀ (b : List Byte) (s : State), sndIn s = false ∨ (b.length ≠ 32 ∧ b.length ≠ 96) → exec (.remoteRecordReceive b) s = .next s.quiet) ∧
    (∀ (b : List Byte) (s : State), sndIn s = true → b.length = 32 →
      (s.flag pgSND F.SND_REMBEAT_EN = false ∨ s.get pgSND F.SND_REMBEAT_NODE ≠ leVal (slice b 8 4) % 2 ^ 18 →
        exec (.remoteRecordReceive b) s = .next s.quiet) ∧
      (s.flag pgSND F.SND_REMBEAT_EN = true → s.get pgSND F.SND_REMBEAT_NODE = leVal (slice b 8 4) % 2 ^ 18 →
        ∃ u, exec (.remoteRecordReceive b) s = .next u ∧ u.snd = { s.snd with
          remBeats := beatInsert s.quiet b s.snd.remBeats
          tapUsed := s.snd.tapUsed.filter fun x => !(decide (x.1 = 8) && decide (x.2.2 < issueTime s b) && decide (issueTime s b ≤ x.2.1)) })) ∧
    (∀ (b : List Byte) (s : State), sndIn s = true → b.length = 96 → (∀ r, r < 3 → s.flag pgSND F.SND_REMOTE_EN r = false) →
      (s.flag pgSND F.SND_REMOTE_EN 3 = false → exec (.remoteRecordReceive b) s = .next s.quiet) ∧
      (s.flag pgSND F.SND_REMOTE_EN 3 = true → s.get pgSND F.SND_REMOTE_NODE 3 = leVal (slice b 8 4) % 2 ^ 18 →
        s.get pgSND F.SND_REMOTE_BUS 3 = leVal (slice b 8 4) / 2 ^ 18 % 4 → s.snd.feats.length = 8 → s.snd.feats.getD 7 [] = [] →
        ∃ u, exec (.remoteRecordReceive b) s = .next u ∧ u.snd = { s.snd with
          feats := s.snd.feats.set 7 [b]
          tapUsed := s.snd.tapUsed.filter fun x => !(decide (x.1 = 7) && decide (x.2.2 < recTime s b) && decide (recTime s b ≤ x.2.1)) })) ∧
    (∀ s : State, inRun s pgTAP = false ∨ s.time.gapM.isSome = true → exec .tapSample s = .next s.quiet) ∧
    (∀ s : State, inRun s pgTAP = true → s.time.gapM = none →
      (∃ u, exec .tapSample s = .next u ∧ amSorted u.snd.nextDrive = true ∧ u.snd.drive = s.snd.drive ∧
        u.snd.feats = s.snd.feats ∧ (StoresOk s → u.stat pgTAP F.TAP_st_DRIVEN = s.stat pgTAP F.TAP_st_DRIVEN)) ∧
      ((∀ t, t < 64 → s.flag pgTAP F.TAP_CFG_EN t = false) → ∃ u, exec .tapSample s = .next u ∧ u.snd.nextDrive = [] ∧ u.regs = s.regs))

/-- An estimate outside RUN and TEST changes nothing; otherwise only the onsets of the last 8 s count, and with fewer than 8 of them there
is no estimate and CONF is 0: a LOCKED tracker without onsets goes to COAST, another keeps its state. The end of COAST leaves UNLOCKED
with no next beat; in another state it changes nothing. First use clears history, confidence and beat counter. A beat is issued with its
number, position and record of 32 bytes, the count goes up by one, and nothing stays to publish; without a next beat, or UNLOCKED, none
is issued. BARSYNC makes the next beat position 0. -/
def Obligations.TempoTracker : Prop :=
  (∀ s : State, sndOn s = false → exec .tempoEstimate s = .next s.quiet) ∧
    (∀ s : State, sndOn s = true → (heldOnsets s).length < 8 →
      (s.snd.trk.state ≠ 1 → ∃ u, exec .tempoEstimate s = .next u ∧ u.snd.trk = { s.snd.trk with conf := 0, est := none }) ∧
      (s.snd.trk.state = 1 → (∀ o ∈ s.snd.trk.onsets, o.1 + 8 * secUnits < s.time.ft) →
        ∃ u, exec .tempoEstimate s = .next u ∧ u.snd.trk = { s.snd.trk with conf := 0, est := none, state := 2 })) ∧
    (∀ s : State, s.snd.trk.state ≠ 2 → exec .coastTimeout s = .next s.quiet) ∧
    (∀ s : State, s.snd.trk.state = 2 → ∃ u, exec .coastTimeout s = .next u ∧ u.snd = { s.snd with trk := { s.snd.trk with state := 0, next := none } }) ∧
    (∀ s : State, StoresOk s → ∃ u, exec .trackerFirstUse s = .next u ∧ u.snd = { s.snd with trk := {} } ∧ u.get pgSND F.SND_BEATNO = 0 ∧
      u.get pgSND F.SND_TRACKSTAT_STATE = 0 ∧ u.get pgSND F.SND_TRACKSTAT_ONSETS = 0 ∧ u.get pgSND F.SND_TEMPO = 0) ∧
    (∀ s : State, s.snd.pub = [] → s.snd.trk.next = none ∨ sndOn s = false ∨ s.snd.trk.state = 0 → exec .beatIssue s = .next s.quiet) ∧
    (∀ (b : Rat) (s : State), s.snd.trk.next = some b → sndOn s = true → s.snd.trk.state ≠ 0 →
      ∃ u r, exec .beatIssue s = .next u ∧ u.snd.trk.beatNo = s.snd.trk.beatNo + 1 ∧ u.snd.trk.state = s.snd.trk.state ∧
        u.snd.trk.issued.head? = some (b, (s.snd.trk.beatNo + s.snd.trk.bar) % meterOf s) ∧ u.snd.trk.next.isSome = true ∧
        u.snd.beats = (r :: s.snd.beats).take 64 ∧ r.length = 32 ∧ u.snd.pub = []) ∧
    (∀ (v : Word) (s : State), bitsOf v 0 1 = 0 → exec (.barsync v) s = .next s.quiet) ∧
    ∀ (v : Word) (s : State), bitsOf v 0 1 = 1 → ∃ u, exec (.barsync v) s = .next u ∧ u.regs = s.regs ∧ u.snd.trk.beatNo = s.snd.trk.beatNo ∧
      (u.snd.trk.beatNo + u.snd.trk.bar) % meterOf s = 0

/-- A link that goes down leaves no pause, one that comes up is up; a change that is none changes nothing. A received PAUSE with RXPAUSE 1
pauses to its end, or ends a pause with 0 quanta; with RXPAUSE 0 it is counted only. A ring below LOWWATER sends PAUSE, rings at HIWATER
end it. TAIL writes store their index. Of the device's own frames that of highest precedence leaves, whole, with its FCS (a PTP event
message apart, R34); nothing below PAUSE leaves in a pause. A frame in OFF is ignored, a runt counted, a PAUSE acted on, one with
another address counted in ADDRDROP, one for no ring counted in RXFRAMES and RXBYTES, with a wrong FCS also in FCSERR. A universe's data
loss clears its freshness only. -/
def Obligations.EthernetPorts : Prop :=
  (∀ (p : Fin 2) (s : State), (ethOf s p.val).up = false → exec (.linkDown p) s = .next s.quiet) ∧
    (∀ (p : Fin 2) (s : State), (ethOf s p.val).up = true → s.net.ports.length = 2 →
      exec (.linkUp p) s = .next s.quiet ∧ ∃ u, exec (.linkDown p) s = .next u ∧ (ethOf u p.val).up = false ∧ (ethOf u p.val).pauseEnd = none) ∧
    (∀ (p : Fin 2) (s : State), s.get (pgETH p.val) F.HDR_REQ_MODE = 0 ∨ domainOn s 10 = false → exec (.linkUp p) s = .next s.quiet) ∧
    (∀ (p : Fin 2) (s : State), (ethOf s p.val).up = false → s.get (pgETH p.val) F.HDR_REQ_MODE ≠ 0 → domainOn s 10 = true → s.net.ports.length = 2 →
      ∃ u, exec (.linkUp p) s = .next u ∧ ethOf u p.val = { ethOf s p.val with up := true }) ∧
    (∀ (p : Fin 2) (q : BitVec 16) (s : State), s.flag (pgETH p.val) F.ETH_CFG_RXPAUSE = false →
      exec (.pauseReceive p q) s = .next ((s.quiet.bump (pgETH p.val) F.ETH_st_PAUSERX).evt (pgETH p.val) 4)) ∧
    (∀ (p : Fin 2) (q : BitVec 16) (s : State), StoresOk s → s.flag (pgETH p.val) F.ETH_CFG_RXPAUSE = true → s.net.ports.length = 2 →
      ∃ u, exec (.pauseReceive p q) s = .next u ∧ (ethOf u p.val).pauseEnd = (if q = 0 then none else some (s.time.ft + q.toNat * quantum s p.val)) ∧
        u.flag (pgETH p.val) F.ETH_LINKSTAT_PAUSED = decide (q ≠ 0)) ∧
    (∀ (p : Fin 2) (s : State), StoresOk s → s.net.ports.length = 2 →
      ∃ u, exec (.pauseExpiry p) s = .next u ∧ (ethOf u p.val).pauseEnd = none ∧ u.flag (pgETH p.val) F.ETH_LINKSTAT_PAUSED = false) ∧
    (∀ (p : Fin 2) (s : State), s.net.ports.length = 2 → (ethOf s p.val).pausing = false → s.get (pgETH p.val) F.ETH_PAUSECFG_LOWWATER = 0 →
      ∃ u, exec (.pauseGenerate p) s = .next u ∧ u.regs = s.regs ∧ ethOf u p.val = { ethOf s p.val with low := [] }) ∧
    (∀ (p : Fin 2) (s : State), s.net.ports.length = 2 → (pauseRings s p.val).any (fun r => decide (r.free s < s.get (pgETH p.val) F.ETH_PAUSECFG_LOWWATER)) = true →
      ∃ u, exec (.pauseGenerate p) s = .next u ∧ u.regs = s.regs ∧ ethOf u p.val = { ethOf s p.val with
        pausing := true
        low := ((pauseRings s p.val).filter fun r => decide (r.free s < s.get (pgETH p.val) F.ETH_PAUSECFG_LOWWATER)).map (·.head)
        txq := (ethOf s p.val).txq ++ [(1, padded (pauseFrame s p.val (s.get (pgETH p.val) F.ETH_PAUSECFG_PAUSEQ)))] }) ∧
    (∀ (p : Fin 2) (s : State), s.net.ports.length = 2 → (ethOf s p.val).pausing = true → s.get (pgETH p.val) F.ETH_PAUSECFG_LOWWATER = 0 →
      (pauseRings s p.val).all (fun r => decide (s.get (pgETH p.val) F.ETH_PAUSECFG_HIWATER ≤ r.free s)) = true →
      ∃ u, exec (.pauseGenerate p) s = .next u ∧ u.regs = s.regs ∧ ethOf u p.val = { ethOf s p.val with
        pausing := false, low := [], txq := (ethOf s p.val).txq ++ [(1, padded (pauseFrame s p.val 0))] }) ∧
    (∀ (p : Fin 2) (r : Fin 4) (v : Word) (s : State), StoresOk s →
      ∃ u, exec (.rxtailWrite p r v) s = .next u ∧ u.reg (pgETH p.val) (0x068 + 16 * r.val) = v &&& 0xFFF) ∧
    (∀ (v : Word) (s : State), exec (.txtailWrite 0 v) s = .next (s.quiet.setReg (pgETH 0) 0x0A8 (v &&& 0xFFF)) ∧
      exec (.txtailWrite 1 v) s = .next (s.quiet.setReg (pgETH 1) 0x0A8 (v &&& 0xFFF)) ∧
      exec (.txtailWrite 2 v) s = .next (s.quiet.setReg pgPAIR 0x068 (v &&& 0xFFF))) ∧
    (∀ (p : Fin 2) (s : State), runTest s (pgETH p.val) = false ∨ ((ethOf s p.val).up = false ∧ effMode s (pgETH p.val) ≠ 3) →
      exec (.ethFrameTransmit p) s = .next s.quiet) ∧
    (∀ (p : Fin 2) (s : State), (ethOf s p.val).pauseEnd.isSome = true → (∀ e ∈ (ethOf s p.val).txq, e.1 ≠ 1) → exec (.ethFrameTransmit p) s = .next s.quiet) ∧
    (∀ (p : Fin 2) (c : Nat) (f : List Byte) (r : List (Nat × List Byte)) (s : State), inRun s (pgETH p.val) = true → (ethOf s p.val).up = true →
      s.net.ports.length = 2 → (ethOf s p.val).txq = (c, f) :: r → c ∈ [1, 3, 4] → (∀ e ∈ r, c ≤ e.1) → ptpEventAt f = none → c = 1 ∨ (ethOf s p.val).pauseEnd = none →
      ∃ u, exec (.ethFrameTransmit p) s = .next u ∧ (ethOf u p.val).txq = r ∧ u.out = [.ethFrame p.val (withFcs f)] ∧ u.regs = s.regs) ∧
    (∀ (p : Fin 2) (t : Nat) (f : List Byte) (b : Bool) (s : State), s.net.wake = false →
      (effMode s (pgETH p.val) = 0 → exec (.ethFrameReceive p t f b) s = .next s.quiet) ∧
      (inRun s (pgETH p.val) = true → (ethOf s p.val).up = true → f.length < 64 →
        exec (.ethFrameReceive p t f b) s = .next (s.quiet.bump (pgETH p.val) F.ETH_st_RUNTS)) ∧
      (inRun s (pgETH p.val) = true → (ethOf s p.val).up = true → 64 ≤ f.length → fcsOk f = true → slice f 12 4 = [0x88, 0x08, 0x00, 0x01] →
        beVal (slice f 0 6) = 0x0180C2000001 ∨ beVal (slice f 0 6) = macOf s p.val →
        ∃ u, exec (.ethFrameReceive p t f b) s = .next u ∧ exec (.pauseReceive p (BitVec.ofNat 16 (beVal (slice f 16 2)))) s = .next u) ∧
      (inRun s (pgETH p.val) = true → (ethOf s p.val).up = true → 64 ≤ f.length → slice f 12 4 ≠ [0x88, 0x08, 0x00, 0x01] →
        addrOk s p.val (classOf s p.val (noFcs f)) f = false →
        exec (.ethFrameReceive p t f b) s = .next (s.quiet.bump (pgETH p.val) F.ETH_st_ADDRDROP)) ∧
      (inRun s (pgETH p.val) = true → (ethOf s p.val).up = true → 64 ≤ f.length → f.length ≤ frameLimit s p.val → slice f 12 4 ≠ [0x88, 0x08, 0x00, 0x01] →
        addrOk s p.val (classOf s p.val (noFcs f)) f = true → classOf s p.val (noFcs f) = 0 → 4 ≤ s.get (pgETH p.val) F.ETH_RINGSEL_OTHER →
        (∀ k, k < 8 → wakeMatch s p.val k (noFcs f) = false) →
        exec (.ethFrameReceive p t f b) s = .next (if fcsOk f then countBytes p.val false f.length (s.quiet.bump (pgETH p.val) F.ETH_st_RXFRAMES) else
          updPair ((countBytes p.val false f.length (s.quiet.bump (pgETH p.val) F.ETH_st_RXFRAMES)).bump (pgETH p.val) F.ETH_st_FCSERR)
            fun k => { k with fcs := k.fcs.set p.val (k.fcs.getD p.val 0 + 1) }))) ∧
    (∀ (u : BitVec 16) (s : State), amGet s.net.uni u.toNat = none → exec (.sacnDataLoss u) s = .next s.quiet) ∧
    ∀ (u : BitVec 16) (h : SacnUni) (s : State), amGet s.net.uni u.toNat = some h → ∃ t, exec (.sacnDataLoss u) s = .next t ∧ t.regs = s.regs ∧
      amGet t.net.uni u.toNat = some { h with fresh := false } ∧ ∀ k, k ≠ u.toNat → amGet t.net.uni k = amGet s.net.uni k

/-- The end of a health window begins the counts anew, and a path whose misses passed GAPTHR outside a dual window is sick. A sick path
whose link is up and whose port runs recovers and is healthy from now; another does not change. SWAP with the bit 0 does nothing,
unpaired or towards a sick path it is a fault, and otherwise it moves the lead, opens the dual window and discards the next PTP
measurement, the PTP exchange in progress forgotten (log entry 86). The window's end clears DUAL, leaves of the old lead's frames only
PAUSE, and nothing ends where none is open. At the start of pairing a port that does not run is sick, and with both running and healthy
the primary has the lead. -/
def Obligations.PairedPaths : Prop :=
  (∀ s : State, ∃ u, exec .healthWindowEnd s = .next u ∧ u.net.pair.miss = [0, 0] ∧ u.net.pair.fcs = [0, 0]) ∧
    (∀ (x : Fin 2) (s : State), StoresOk s → isPath s x.val = true → s.get pgPAIR F.PAIR_HEALTH_GAPTHR ≠ 0 →
      s.get pgPAIR F.PAIR_HEALTH_GAPTHR < s.net.pair.miss.getD x.val 0 → s.flag pgPAIR F.PAIR_STAT_DUAL = false →
      s.net.pair.miss.getD (1 - x.val) 0 ≤ s.get pgPAIR F.PAIR_HEALTH_GAPTHR → s.net.pair.fcs.getD (1 - x.val) 0 ≤ s.get pgPAIR F.PAIR_HEALTH_CRCTHR →
      ∃ u, exec .healthWindowEnd s = .next u ∧ isSick u x.val = true) ∧
    (∀ (x : Fin 2) (s : State), isSick s x.val = false ∨ (ethOf s x.val).up = false ∨ inRun s (pgETH x.val) = false →
      exec (.pathRecover x) s = .next s.quiet) ∧
    (∀ (x : Fin 2) (s : State), StoresOk s → isSick s x.val = true → (ethOf s x.val).up = true → inRun s (pgETH x.val) = true → s.net.pair.healthyAt.length = 2 →
      ∃ u, exec (.pathRecover x) s = .next u ∧ isSick u x.val = false ∧ u.net.pair.healthyAt.getD x.val 0 = s.time.ft) ∧
    (∀ (a : BitVec 4) (v : Word) (s : State), bitsOf v 0 1 = 0 → exec (.swap a v) s = .next s.quiet) ∧
    (∀ (a : BitVec 4) (v : Word) (s : State), bitsOf v 0 1 = 1 →
      s.flag pgPAIR F.PAIR_CFG_PAIRED = false ∨ isSick s (1 - s.get pgPAIR F.PAIR_STAT_LEAD) = true →
      exec (.swap a v) s = .next (s.quiet.fault pgPAIR 0x40 0x04C a.toNat)) ∧
    (∀ (a : BitVec 4) (v : Word) (s : State), StoresOk s → bitsOf v 0 1 = 1 → s.flag pgPAIR F.PAIR_CFG_PAIRED = true →
      isSick s (1 - s.get pgPAIR F.PAIR_STAT_LEAD) = false →
      ∃ u, exec (.swap a v) s = .next u ∧ u.get pgPAIR F.PAIR_STAT_LEAD = 1 - s.get pgPAIR F.PAIR_STAT_LEAD ∧ u.flag pgPAIR F.PAIR_STAT_DUAL = true ∧
        u.time = { s.time with discardPtp := true, ptp := ptpForget s.time.ptp }) ∧
    (∀ s : State, s.flag pgPAIR F.PAIR_STAT_DUAL = false → exec .dualWindowEnd s = .next s.quiet) ∧
    (∀ s : State, StoresOk s → s.flag pgPAIR F.PAIR_STAT_DUAL = true → s.net.pair.deferred = [] → isSick s (s.get pgPAIR F.PAIR_STAT_LEAD) = false →
      s.flag pgPAIR F.PAIR_CFG_REVERT = false → s.net.ports.length = 2 →
      ∃ u, exec .dualWindowEnd s = .next u ∧ u.flag pgPAIR F.PAIR_STAT_DUAL = false ∧ u.get pgPAIR F.PAIR_STAT_LEAD = s.get pgPAIR F.PAIR_STAT_LEAD ∧
        (ethOf u (1 - s.get pgPAIR F.PAIR_STAT_LEAD)).txq = (ethOf s (1 - s.get pgPAIR F.PAIR_STAT_LEAD)).txq.filter (fun e => decide (e.1 < 2)) ∧
        ethOf u (s.get pgPAIR F.PAIR_STAT_LEAD) = ethOf s (s.get pgPAIR F.PAIR_STAT_LEAD)) ∧
    (∀ (x : Fin 2) (s : State), StoresOk s → inRun s (pgETH x.val) = false → ∃ u, exec .pairingStart s = .next u ∧ isSick u x.val = true) ∧
    ∀ s : State, StoresOk s → (∀ x, x < 2 → inRun s (pgETH x) = true ∧ isSick s x = false) → ∃ u, exec .pairingStart s = .next u ∧
      u.get pgPAIR F.PAIR_STAT_LEAD = s.get pgPAIR F.PAIR_CFG_PRIMARY ∧ ∀ x, x < 2 → isSick u x = false

/-- Where no request is in progress: with no request stored, or one of another operation in front, the responder does nothing. A request in
front too short is counted in BADLEN and one whose tag is not its key's in AUTHFAIL, and neither changes a register. An authentic
request in its time is executed on the registers as agent 5 and replied to with OK or ITEMERR and its body, or, where the handshake of
one of its writes is withheld, stays in progress (R301); a body that does not suit gets BADLEN, an operation that is not assigned BADOP,
and firmware's goes to the ring of RINGSEL.CANE with AUTHOK. The reply of STATUS holds the record of 80 bytes and is kept. Without a
request of the owner for LEASE the staging set is free. KEYCTL.CLEAR clears the words of its slot. -/
def Obligations.CaneResponder : Prop :=
  (∀ s : State, s.net.cane.store = [] → s.net.cane.held = none → exec .caneStatus s = .next s.quiet ∧ exec .canePagestate s = .next s.quiet ∧
      exec .caneReadreg s = .next s.quiet ∧ exec .caneWritereg s = .next s.quiet ∧ exec .caneReadblock s = .next s.quiet ∧
      exec .caneFirmwareOp s = .next s.quiet ∧ exec .caneBadOp s = .next s.quiet) ∧
    (∀ (r : CaneReq) (w : List CaneReq) (s : State), s.net.cane.store = r :: w → s.net.cane.held = none →
      (∀ c op, (c, op) ∈ [(Instr.caneStatus, 1), (.canePagestate, 2), (.caneReadreg, 3), (.caneWritereg, 4), (.caneReadblock, 5)] → (r.msg.getD 3 0).toNat ≠ op → exec c s = .next s.quiet) ∧
      ((r.msg.getD 3 0).toNat < 0x80 → exec .caneFirmwareOp s = .next s.quiet) ∧
      (1 ≤ (r.msg.getD 3 0).toNat → (r.msg.getD 3 0).toNat ≤ 5 ∨ 0x80 ≤ (r.msg.getD 3 0).toNat → exec .caneBadOp s = .next s.quiet)) ∧
    (∀ (r : CaneReq) (w : List CaneReq) (s : State), s.net.cane.store = r :: w → s.net.cane.held = none → inRun s pgCANE = true →
      sysDown s = false → r.msg.length < 48 →
      ∀ c op, (c, op) ∈ [(Instr.caneStatus, 1), (.canePagestate, 2), (.caneReadreg, 3), (.caneWritereg, 4), (.caneReadblock, 5)] → (r.msg.getD 3 0).toNat = op →
        exec c s = .next (caneRefill ((updCane s.quiet fun c => { c with store := w }).bump pgCANE F.CANE_st_BADLEN))) ∧
    (∀ (r : CaneReq) (w : List CaneReq) (key : List Byte) (s : State), s.net.cane.store = r :: w → s.net.cane.held = none → inRun s pgCANE = true → sysDown s = false → 48 ≤ r.msg.length → r.msg.length ≤ 1448 →
      r.msg.length = 48 + beVal (slice r.msg 28 2) → (r.msg.getD 6 0).toNat < 2 → caneKey s (r.msg.getD 6 0).toNat = some key →
      slice r.msg 0 3 = [0x43, 0x4E, 1] → (r.msg.getD 4 0).getLsbD 0 = false →
      caneTag key (r.msg.take (r.msg.length - 16)) ≠ r.msg.drop (r.msg.length - 16) →
      ∀ c op, (c, op) ∈ [(Instr.caneStatus, 1), (.canePagestate, 2), (.caneReadreg, 3), (.caneWritereg, 4), (.caneReadblock, 5)] → (r.msg.getD 3 0).toNat = op →
        exec c s = .next (caneRefill (((updCane s.quiet fun c => { c with store := w }).bump pgCANE F.CANE_st_AUTHFAIL).evt pgCANE 0))) ∧
    (∀ (r : CaneReq) (w : List CaneReq) (key : List Byte) (s q : State), CaneFront r w key s →
      q = updCane s.quiet (fun c => keepTag (r.msg.drop (r.msg.length - 16)) { c with store := w }) →
      (∀ c op, (c, op) ∈ [(Instr.caneStatus, 1), (.canePagestate, 2), (.caneReadreg, 3), (.caneWritereg, 4), (.caneReadblock, 5)] → (r.msg.getD 3 0).toNat = op →
        (bodyOk op (slice r.msg 32 (r.msg.length - 48)) = false →
          exec c s = .next (caneRefill (caneReply r key 3 [] (q.bump pgCANE F.CANE_st_BADLEN)))) ∧
        ∀ x, x = regOp 5 (caneWrite (beVal (slice r.msg 8 8))) op (slice r.msg 32 (r.msg.length - 48)) q →
          bodyOk op (slice r.msg 32 (r.msg.length - 48)) = true → sysDown x.1 = false →
          (x.1.net.cane.held = none → exec c s = .next (caneRefill (caneReply r key x.2.1 x.2.2 (x.1.bump pgCANE F.CANE_st_REQUESTS)))) ∧
          ∀ h, x.1.net.cane.held = some h → exec c s = .next (caneRefill (updCane x.1 fun c =>
            { c with held := some { h with out := x.2.2, bad := decide (x.2.1 ≠ 0) }, heldReq := some (r, key) }))) ∧
      ((r.msg.getD 3 0).toNat = 1 → r.msg.length = 48 → (r.msg.getD 4 0).getLsbD 1 = false →
        ∃ t o, exec .caneStatus s = .next t ∧ t.net.cane.replies.head? = some (r.msg.drop 32, r, o) ∧ o.take 6 = [0x43, 0x4E, 1, 1, 1, 0] ∧
          slice o 32 80 = statusRecord 5 q) ∧
      ((r.msg.getD 3 0).toNat = 0 ∨ (6 ≤ (r.msg.getD 3 0).toNat ∧ (r.msg.getD 3 0).toNat < 0x80) →
        exec .caneBadOp s = .next (caneRefill (caneReply r key 2 [] q))) ∧
      (0x80 ≤ (r.msg.getD 3 0).toNat → r.path < 2 → exec .caneFirmwareOp s = .next (caneRefill (toRing r.path
        (((q.bump pgCANE F.CANE_st_FWOPS).evt pgCANE 4).get (pgETH r.path) F.ETH_RINGSEL_CANE) r.frame 6 32 r.ts false
        ((q.bump pgCANE F.CANE_st_FWOPS).evt pgCANE 4))))) ∧
    (∀ s : State, s.cmt.owner ≠ 5 → exec .caneLeaseExpiry s = .next s.quiet) ∧
    (∀ s : State, s.cmt.owner = 5 → ∃ t, exec .caneLeaseExpiry s = .next t ∧ t.cmt = { s.cmt with owner := 0 } ∧ t.net.cane.owner = none ∧ t.staged = s.staged) ∧
    ∀ (a : BitVec 4) (k : Fin 2) (s : State), s.net.cane.keys.length = 16 → ∃ t, exec (.keyClear a k) s = .next t ∧ t.regs = s.regs ∧
      ∀ i, i < 16 → t.net.cane.keys.getD i none = if i / 8 = k.val then none else s.net.cane.keys.getD i none

/-- At a course slot a port that runs sends one course on each lane, the count of slots goes up by one, and a course without precoding and
inversion begins with its lane's comma; a stopped port, or one that loops for its partner, sends none. A course at the balls of a port
that does not run, or that loops its own, or on a lane in DARK or SEEK, changes nothing. One with the lane's comma and a valid header
acknowledges and credits by its header; then a codeword that does not decode discards the bundles in progress, and else IDLE carries
nothing more, DATA brings its segment, TIME and CTRL on lane 0 their payloads, and a reserved TYPE is counted, whether its codeword
decodes or not. A header not valid is counted in HDRERR. -/
def Obligations.BruraCourses : Prop :=
  (∀ (p : Fin 4) (s : State), bruRuns s p.val = false ∨ (bruOf s p.val).flbActive = true → exec (.courseSlot p) s = .next s.quiet) ∧
    (∀ (p : Fin 4) (s : State), bruRuns s p.val = true → (bruOf s p.val).flbActive = false → bruTest s p.val = false → s.bru.length = 4 →
      (∃ u, exec (.courseSlot p) s = .next u ∧ (bruOf u p.val).slots = (bruOf s p.val).slots + 1) ∧
      (flows s p.val = false → ∃ u a b, exec (.courseSlot p) s = .next u ∧ u.out = [.course p.val 0 a, .course p.val 1 b] ∧
        (s.flag (pgBRU p.val) F.BRU_CFG_PRECODE = false → (s.flag (pgBRU p.val) F.BRU_CFG_TXINV0 = false → a.take 16 = comma 0) ∧
          (s.flag (pgBRU p.val) F.BRU_CFG_TXINV1 = false → b.take 16 = comma 1)))) ∧
    (∀ (p : Fin 4) (l : Fin 2) (sym : List Nat) (t k : Nat) (s : State), bruRuns s p.val = false ∨
        (bruTest s p.val = true ∧ (s.get (pgBRU p.val) F.BRU_CFG_LOOP = 1 ∨ s.get (pgBRU p.val) F.BRU_CFG_LOOP = 2)) ∨
        ((bruOf s p.val).flbActive = false ∧ (laneOf s p.val l.val).state < 2) →
      exec (.dataCourseReceive p l sym t k) s = .next s.quiet ∧ exec (.timeCourseReceive p l sym t k) s = .next s.quiet ∧
      exec (.ctrlCourseReceive p l sym t k) s = .next s.quiet ∧ exec (.idleCourseReceive p l sym t k) s = .next s.quiet) ∧
    (∀ (p : Fin 4) (l : Fin 2) (sym : List Nat) (t k : Nat) (x : Word × List Byte) (s h q r : State), bruRuns s p.val = true → bruTest s p.val = false → (bruOf s p.val).flbActive = false → 2 ≤ (laneOf s p.val l.val).state →
      (laneOf s p.val l.val).alt = none → commaForm l.val (sym.take 16) = some (laneOf s p.val l.val).form → s.bru.length = 4 →
      (bruOf s p.val).lanes.length = 2 → x = courseBits l.val (laneOf s p.val l.val).form sym →
      hdrValid x.1 = true →
      h = headerIn p.val l.val x.1 (updBru ((updLane s.quiet p.val l.val fun k => { k with alt := none, noComma := 0 }).bump
        (pgBRU p.val) F.BRU_st_COURSES) p.val fun b => { b with skew := min 255 k }) →
      q = portCheck p.val h → r = portCheck p.val (h.bump (pgBRU p.val) F.BRU_st_BADTYPE) →
      (bitsOf x.1 28 4 = 0 → exec (.idleCourseReceive p l sym t k) s = .next (match rsDecode x.2 with | none => failedCourse p.val q | some (pl, n) => q.bump (pgBRU p.val) F.BRU_st_RSCORR n)) ∧
      (4 ≤ bitsOf x.1 28 4 → exec (.idleCourseReceive p l sym t k) s =
        .next (match rsDecode x.2 with | none => failedCourse p.val r | some (_, n) => r.bump (pgBRU p.val) F.BRU_st_RSCORR n)) ∧
      (bitsOf x.1 28 4 = 1 → exec (.dataCourseReceive p l sym t k) s = .next (match rsDecode x.2 with | none => failedCourse p.val q | some (pl, n) => dataSegment p.val pl (q.bump (pgBRU p.val) F.BRU_st_RSCORR n))) ∧
      (bitsOf x.1 28 4 = 2 → l = 0 → exec (.timeCourseReceive p l sym t k) s =
        .next (match rsDecode x.2 with | none => failedCourse p.val q | some (pl, n) => timeCourse p.val t pl (q.bump (pgBRU p.val) F.BRU_st_RSCORR n))) ∧
      (bitsOf x.1 28 4 = 3 → l = 0 → exec (.ctrlCourseReceive p l sym t k) s =
        .next (match rsDecode x.2 with | none => failedCourse p.val q | some (pl, n) => ctrlCourse p.val pl (q.bump (pgBRU p.val) F.BRU_st_RSCORR n)))) ∧
    ∀ (p : Fin 4) (l : Fin 2) (sym : List Nat) (t k : Nat) (x : Word × List Byte) (s q : State), bruRuns s p.val = true → bruTest s p.val = false → (bruOf s p.val).flbActive = false → 2 ≤ (laneOf s p.val l.val).state →
      (laneOf s p.val l.val).alt = none → commaForm l.val (sym.take 16) = some (laneOf s p.val l.val).form → s.bru.length = 4 →
      (bruOf s p.val).lanes.length = 2 → x = courseBits l.val (laneOf s p.val l.val).form sym →
      hdrValid x.1 = false →
      q = portCheck p.val (headerBad p.val l.val (updBru ((updLane s.quiet p.val l.val fun k => { k with alt := none, noComma := 0 }).bump
        (pgBRU p.val) F.BRU_st_COURSES) p.val fun b => { b with skew := min 255 k })) →
      exec (.idleCourseReceive p l sym t k) s = .next (match rsDecode x.2 with | none => failedCourse p.val q | some (pl, n) => q.bump (pgBRU p.val) F.BRU_st_RSCORR n)

/-- A signal moves a lane of a running port from DARK to SEEK and no other; its loss leaves DARK from every state, with no form kept. Comma
lock moves SEEK to LOCK with the form seen and its counts at 0, and nothing else; a comma loss moves LOCK, HALF and UP to SEEK and
nothing else. HALFSTUCK is set once for a lane in HALF. A replay timer that expires with the port not UP or nothing outstanding does
nothing; up to the seventh in a row a replay falls due, and the eighth moves both lanes to SEEK. -/
def Obligations.BruraLanes : Prop :=
  (∀ (p : Fin 4) (l : Fin 2) (s : State), bruRuns s p.val = false ∨ (laneOf s p.val l.val).state ≠ 0 → exec (.signalDetect p l) s = .next s.quiet) ∧
    (∀ (p : Fin 4) (l : Fin 2) (s : State), s.bru.length = 4 → (bruOf s p.val).lanes.length = 2 →
      (bruRuns s p.val = true → (laneOf s p.val l.val).state = 0 → ∃ u, exec (.signalDetect p l) s = .next u ∧ (laneOf u p.val l.val).state = 1) ∧
      (∃ u, exec (.signalLoss p l) s = .next u ∧ (laneOf u p.val l.val).state = 0 ∧ (laneOf u p.val l.val).form = (false, false) ∧
        (laneOf u p.val l.val).alt = none) ∧
      (2 ≤ (laneOf s p.val l.val).state → ∃ u, exec (.commaLoss p l) s = .next u ∧ (laneOf u p.val l.val).state = 1) ∧
      ∀ a b, (laneOf s p.val l.val).state = 1 → ∃ u, exec (.commaLock p l a b) s = .next u ∧ (laneOf u p.val l.val).state = 2 ∧
        (laneOf u p.val l.val).form = (a, b) ∧ (laneOf u p.val l.val).valid = 0) ∧
    (∀ (p : Fin 4) (l : Fin 2) (s : State), (laneOf s p.val l.val).state < 2 → exec (.commaLoss p l) s = .next s.quiet) ∧
    (∀ (p : Fin 4) (l : Fin 2) (a b : Bool) (s : State), (laneOf s p.val l.val).state ≠ 1 → exec (.commaLock p l a b) s = .next s.quiet) ∧
    (∀ (p : Fin 4) (l : Fin 2) (s : State), (laneOf s p.val l.val).state ≠ 3 ∨ (laneOf s p.val l.val).stuck = true →
      exec (.halfstuck p l) s = .next s.quiet) ∧
    (∀ (p : Fin 4) (l : Fin 2) (s : State), (laneOf s p.val l.val).state = 3 → (laneOf s p.val l.val).stuck = false →
      exec (.halfstuck p l) s = .next ((updLane s.quiet p.val l.val fun k => { k with stuck := true }).evt (pgBRU p.val) 2)) ∧
    (∀ (p : Fin 4) (s : State), (bruOf s p.val).up = false ∨ (bruOf s p.val).sent = [] → exec (.replayTimerExpiry p) s = .next s.quiet) ∧
    (∀ (p : Fin 4) (s : State), (bruOf s p.val).up = true → (bruOf s p.val).sent ≠ [] → (bruOf s p.val).expiries < 7 →
      exec (.replayTimerExpiry p) s = .next (updBru s.quiet p.val fun x =>
        { x with expiries := x.expiries + 1, replayDue := true })) ∧
    ∀ (p : Fin 4) (s : State), (bruOf s p.val).up = true → (bruOf s p.val).sent ≠ [] → 7 ≤ (bruOf s p.val).expiries → s.bru.length = 4 →
      (bruOf s p.val).lanes.length = 2 → 2 ≤ (laneOf s p.val 0).state → 2 ≤ (laneOf s p.val 1).state →
      ∃ u, exec (.replayTimerExpiry p) s = .next u ∧ (laneOf u p.val 0).state = 1 ∧ (laneOf u p.val 1).state = 1

/-- With FAB not in RUN or STANDBY nothing is announced, refreshed, converged, seeded or granted. A candidate announces with the next
message number and the role has a holder. A ROLE and an LSR bundle that come first are heard and applied. A time gateway that is silent
keeps its role; the cue master that is silent, and a lost gateway, give way to the best candidate, the lost one aside. A refresh counts
a generation for a change; an expired record goes, a member's with its grant. At CONVERGED the topology hash is that of the records. A
seed takes the lowest free cluster of the pool; a head grants the lowest free member, and a member granted is taken. A write of IDCFG
leaves no member record, grant, head or fault. -/
def Obligations.FabricRoles : Prop :=
  (∀ s : State, fabOn s = false → (∀ r, exec (.roleAnnounce r) s = .next s.quiet) ∧ (∀ c, exec (.lsrRefresh c) s = .next s.quiet) ∧
      exec .discoveryConverged s = .next s.quiet ∧ exec .clusterSeed s = .next s.quiet ∧ ∀ n m, exec (.memberGrant n m) s = .next s.quiet) ∧
    (∀ (r : Fin 3) (s : State), rolePrio s r.val = 0 → exec (.roleAnnounce r) s = .next s.quiet) ∧
    (∀ (r : Fin 3) (s : State), fabOn s = true → rolePrio s r.val ≠ 0 → (nodeId s).isSome = true → s.fab.seeded = true →
      s.flag pgFAB F.FAB_IDCFG_CFIX = false → s.fab.holders.length = 3 → s.fab.gwLost = false →
      ∃ u, exec (.roleAnnounce r) s = .next u ∧ u.fab.msgSeq = s.fab.msgSeq + 1 ∧ (u.fab.holders.getD r.val none).isSome = true ∧ u.fab.cluster = s.fab.cluster) ∧
    (∀ (p : Fin 4) (b : List Byte) (l : List Nat) (s q : State), fabOn s = true → s.fab.fc.armed = false → nbPorts s = [] → joinPorts s = [] → 16 ≤ b.length → (b.getD 0 0).toNat / 64 = 1 → (b.getD 0 0).toNat / 8 % 8 = 4 →
      (b.getD 8 0).toNat = 0x12 → (∀ e ∈ s.fab.seen, e.1 ≠ beVal (slice b 5 3) % 2 ^ 18) →
      q = (remember (beVal (slice b 5 3) % 2 ^ 18) (beVal (slice b 12 4)) ((b.getD 0 0).toNat / 2 % 2) s.quiet).bump pgFAB F.FAB_st_DELIVERED →
      exec (.roleReceive p b l) s = .next (discEval (hear ⟨l.getD 0 0 % 3, l.getD 1 0, l.getD 2 0 % 2 ^ 18, l.getD 3 0, l.getD 4 0 ≠ 0, l.getD 5 0 ≠ 0, s.time.ft⟩ q))) ∧
    (∀ (p : Fin 4) (b : List Byte) (l : List Nat) (s q : State), fabOn s = true → s.fab.fc.armed = false → nbPorts s = [] → joinPorts s = [] → 16 ≤ b.length → (b.getD 0 0).toNat / 64 = 1 → (b.getD 0 0).toNat / 8 % 8 = 4 →
      (b.getD 8 0).toNat = 0x10 → (∀ e ∈ s.fab.seen, e.1 ≠ beVal (slice b 5 3) % 2 ^ 18) →
      q = (remember (beVal (slice b 5 3) % 2 ^ 18) (beVal (slice b 12 4)) ((b.getD 0 0).toNat / 2 % 2) s.quiet).bump pgFAB F.FAB_st_DELIVERED →
      exec (.lsrReceive p b l) s = .next (lsrApply l q)) ∧
    (∀ s : State, exec (.roleTimeout 0) s = .next s.quiet) ∧
    (∀ s : State, s.fab.holders.length = 3 → (∃ u, exec (.roleTimeout 2) s = .next u ∧ (u.fab.holders.getD 2 none).map (·.1) =
        bestCand s 2 fun c => (s.fab.holders.getD 2 none).all fun h => h.1.serial ≠ c.serial || c.serial = Config.serial.toNat) ∧
      ∃ u, exec .gatewayLoss s = .next u ∧ (u.fab.holders.getD 0 none).map (·.1) = bestCand s 0 fun c => c.ptp &&
        ((s.fab.holders.getD 0 none).map (·.1.serial) ≠ some c.serial || c.serial = Config.serial.toNat)) ∧
    (∀ s : State, rolePrio s 1 = 0 → s.fab.cands = [] → ∃ u, exec (.roleTimeout 1) s = .next u ∧ u.fab.holders.getD 1 none = none) ∧
    (∀ (c : Bool) (s : State), fabOn s = true → (nodeId s).isSome = true → ∃ u, exec (.lsrRefresh c) s = .next u ∧ u.fab.disc = max s.fab.disc 4 ∧
      u.fab.gen = (if c then (s.fab.gen + 1) % 2 ^ 32 else s.fab.gen) ∧ u.fab.members = s.fab.members) ∧
    (∀ (k : BitVec 10) (s : State), (∃ u, exec (.lsrExpiry true k) s = .next u ∧ u.fab.clusters = amDel s.fab.clusters k.toNat ∧
        u.fab.members = s.fab.members ∧ u.fab.disc = min s.fab.disc 4) ∧
      ∃ u, exec (.lsrExpiry false k) s = .next u ∧ u.fab.members = amDel s.fab.members k.toNat ∧ u.fab.clusters = s.fab.clusters ∧
        u.fab.grants = s.fab.grants.filter (·.1 ≠ k.toNat) ∧ u.fab.disc = min s.fab.disc 4) ∧
    (∀ s : State, s.fab.disc ≠ 4 → exec .discoveryConverged s = .next s.quiet) ∧
    (∀ s : State, fabOn s = true → s.fab.disc = 4 → ∃ u, exec .discoveryConverged s = .next u ∧ u.fab.disc = 5 ∧ u.fab.hash = topoHash s ∧
      u.fab.record = (nodeId s).map fun n => (n, n % 256, topoHash s)) ∧
    (∀ s : State, s.flag pgFAB F.FAB_IDCFG_INGRESS = false ∨ s.flag pgFAB F.FAB_IDCFG_CFIX = true ∨ s.fab.cluster.isSome = true →
      exec .clusterSeed s = .next s.quiet) ∧
    (∀ s : State, fabOn s = true → s.flag pgFAB F.FAB_IDCFG_INGRESS = true → s.flag pgFAB F.FAB_IDCFG_CFIX = false → s.fab.cluster = none →
      s.get pgFAB F.FAB_POOL_POOLLO ≤ s.get pgFAB F.FAB_POOL_POOLHI → amGet s.fab.clusters (s.get pgFAB F.FAB_POOL_POOLLO) = none →
      ∃ u, exec .clusterSeed s = .next u ∧ u.fab.cluster = some (s.get pgFAB F.FAB_POOL_POOLLO) ∧ u.fab.seeded = true) ∧
    (∀ (n : Dword) (w : Byte) (m : Nat) (s : State), fabOn s = true → holdsRole s 1 = true → n ≠ Config.serial → grantFor s n.toNat w.toNat = some m →
      exec (.memberGrant n w) s = .next (updFab s.quiet fun f => { f with grants := (m, n.toNat) :: f.grants.filter fun g => g.2 ≠ n.toNat })) ∧
    (∀ (w : Byte) (s : State), fabOn s = true → holdsRole s 1 = false → s.fab.cluster.isSome = true → s.flag pgFAB F.FAB_IDCFG_MFIX = false →
      (∀ n, n ≠ Config.serial → exec (.memberGrant n w) s = .next s.quiet) ∧
      ∃ u, exec (.memberGrant Config.serial w) s = .next u ∧ u.fab.member = some w.toNat ∧ u.fab.lastMember = w.toNat ∧ u.fab.cluster = s.fab.cluster) ∧
    ∀ (a : BitVec 4) (v : Word) (s : State), ∃ u, exec (.idcfgWrite a v) s = .next u ∧ u.fab.members = [] ∧ u.fab.grants = [] ∧
      u.fab.fault = false ∧ u.fab.seeded = false ∧ u.fab.holders.getD 1 none = none

/-- Where FAB runs nothing, or a bundle is shorter than its header, no received bundle changes anything; one of a KIND that does not suit is
counted. A node sends its parent its groups. A child's SUBSCRIBE sets that child's masks. A tile quarter that no veneer names is counted
in TILEFILT once the tile is whole, one that a veneer names goes to its converter. An OVERRIDE fires and releases only where accepted. A
tunnelled Cane request enters the responder's store, and one that finds it empty is executed at once. Firmware's bundle goes into the
receive ring. TXTAIL is stored, and with an empty ring or FAB not in RUN nothing else happens. -/
def Obligations.FabricBundles : Prop :=
  (∀ (p : Fin 4) (b : List Byte) (l : List Nat) (s : State), s.fab.fc.armed = false → s.net.cane.store = [] → s.net.cane.held = none → fabOn s = false ∨ b.length < 16 →
      exec (.roleReceive p b l) s = .next s.quiet ∧ exec (.lsrReceive p b l) s = .next s.quiet ∧ exec (.subscribeReceive p b l) s = .next s.quiet ∧
      exec (.tileQuarterReceive p b) s = .next s.quiet ∧ exec (.prepareReceive p b) s = .next s.quiet ∧ exec (.readyReceive p b) s = .next s.quiet ∧
      exec (.fireReceive p b) s = .next s.quiet ∧ exec (.abortReceive p b) s = .next s.quiet ∧ exec (.reportReceive p b) s = .next s.quiet ∧
      exec (.overrideBundleReceive p b) s = .next s.quiet ∧ exec (.tunnelledCaneReceive p b) s = .next s.quiet ∧
      exec (.firmwareBundleReceive p b) s = .next s.quiet) ∧
    (∀ (p : Fin 4) (b : List Byte) (s : State), s.fab.fc.armed = false → inRun s pgFAB = true → 16 ≤ b.length →
      kindOk (b.getD 8 0).toNat ((b.getD 0 0).toNat / 64) ((b.getD 0 0).toNat / 8 % 8) = false →
      exec (.firmwareBundleReceive p b) s = .next (s.quiet.bump pgFAB F.FAB_st_BADKIND)) ∧
    (∀ s : State, fabOn s = false → exec .subscribeSend s = .next s.quiet) ∧
    (∀ (p : Nat) (s : State), fabOn s = true → (nodeId s).isSome = true → parentPort s 0 = some p → childPorts s 0 = [] → flows s p = true → s.bru.length = 4 →
      p < 4 → ∃ u x, exec .subscribeSend s = .next u ∧ (bruOf u p).ready = (bruOf s p).ready ++ [x] ∧ x.vl = 1 ∧ u.fab.msgSeq = s.fab.msgSeq + 1) ∧
    (∀ (p : Fin 4) (b : List Byte) (l : List Nat) (s : State), fabOn s = true → s.fab.fc.armed = false → 16 ≤ b.length →
      (b.getD 0 0).toNat / 64 = 1 → (b.getD 0 0).toNat / 8 % 8 = 0 → (b.getD 8 0).toNat = 0x11 →
      (l.headD 0 = 0 → exec (.subscribeReceive p b l) s = .next (updFab (s.quiet.bump pgFAB F.FAB_st_DELIVERED) fun f =>
        { f with subs := f.subs.set p.val ((triples (l.drop 1)).foldl (fun a e => joinSubs a [e]) []) })) ∧
      (l.headD 0 ≠ 0 → parentPort s 0 ≠ some p.val → exec (.subscribeReceive p b l) s = .next (s.quiet.bump pgFAB F.FAB_st_DELIVERED)) ∧
      (l.headD 0 ≠ 0 → parentPort s 0 = some p.val → exec (.subscribeReceive p b l) s = .next (updFab (s.quiet.bump pgFAB F.FAB_st_DELIVERED) fun f =>
        { f with outside := (l.drop 1).map (· % 4096) }))) ∧
    (∀ (p : Fin 4) (b : List Byte) (s : State), inRun s pgFAB = true → s.fab.fc.armed = false → nbPorts s = [] → 16 ≤ b.length →
      (b.getD 0 0).toNat / 64 = 2 → (b.getD 0 0).toNat / 8 % 8 = 2 → (b.getD 8 0).toNat = 0x20 →
      ((∀ v, v < 16 → ingests s v = false) → exec (.tileQuarterReceive p b) s =
        .next ((fun t => if t.2 then t.1.bump pgFAB F.FAB_st_TILEFILT else t.1) (tileWhole (beVal (slice b 16 6)) (beVal (slice b 22 2) % 2 ^ 11)
          (beVal (slice b 24 2) % 2 ^ 11) (beVal (slice b 22 2) / 2 ^ 14) s.quiet))) ∧
      ∀ v, v < 16 → ingests s v = true → (∀ w, w < 16 → w ≠ v → ingests s w = false) → s.get (pgVEN v) F.VEN_CFG_SRC = 3 →
        s.get (pgVEN v) F.VEN_TILES_TCOL0 ≤ beVal (slice b 22 2) % 2 ^ 11 →
        beVal (slice b 22 2) % 2 ^ 11 < s.get (pgVEN v) F.VEN_TILES_TCOL0 + s.get (pgVEN v) F.VEN_TILESZ_TCOLS →
        s.get (pgVEN v) F.VEN_TILES_TROW0 ≤ beVal (slice b 24 2) % 2 ^ 11 →
        beVal (slice b 24 2) % 2 ^ 11 < s.get (pgVEN v) F.VEN_TILES_TROW0 + s.get (pgVEN v) F.VEN_TILESZ_TROWS →
        exec (.tileQuarterReceive p b) s = .next (tileQuarter v (beVal (slice b 16 6)) (beVal (slice b 22 2) % 2 ^ 11) (beVal (slice b 24 2) % 2 ^ 11)
          (beVal (slice b 22 2) / 2 ^ 14) (slice b 32 2048) ((fun t => if t.2 then (t.1.bump pgFAB F.FAB_st_DELIVERED).bump pgFAB F.FAB_st_TILESRX
            else t.1.bump pgFAB F.FAB_st_DELIVERED) (tileWhole (beVal (slice b 16 6)) (beVal (slice b 22 2) % 2 ^ 11) (beVal (slice b 24 2) % 2 ^ 11)
            (beVal (slice b 22 2) / 2 ^ 14) s.quiet)))) ∧
    (∀ (p : Fin 4) (b : List Byte) (s q : State), fabOn s = true → s.fab.fc.armed = false → nbPorts s = [] → joinPorts s = [] → 16 ≤ b.length → (b.getD 0 0).toNat / 64 = 1 → (b.getD 0 0).toNat / 8 % 8 = 4 →
      (b.getD 8 0).toNat = 0x08 → (∀ e ∈ s.fab.seen, e.1 ≠ beVal (slice b 5 3) % 2 ^ 18) →
      q = (remember (beVal (slice b 5 3) % 2 ^ 18) (beVal (slice b 12 4)) ((b.getD 0 0).toNat / 2 % 2) s.quiet).bump pgFAB F.FAB_st_DELIVERED →
      (s.flag pgFAB F.FAB_CUECFG_OVRACCEPT = false → exec (.overrideBundleReceive p b) s = .next q) ∧
      (s.flag pgFAB F.FAB_CUECFG_OVRACCEPT = true → s.flag pgFAB F.FAB_CUECFG_OVRANY = true ∨ cueMaster s = some (beVal (slice b 5 3) % 2 ^ 18) →
        exec (.overrideBundleReceive p b) s = .next (ovrRelease (b.getD 17 0).toNat (ovrFire (b.getD 16 0).toNat q)))) ∧
    (∀ (p : Fin 4) (b : List Byte) (s : State), s.net.cane.held = none → sysDown s = false → inRun s pgFAB = true → s.fab.fc.armed = false → 16 ≤ b.length → (b.getD 0 0).toNat / 64 = 3 → (b.getD 0 0).toNat / 8 % 8 = 1 → (b.getD 8 0).toNat = 0x30 →
      nodeId s = some (beVal (slice b 2 3) % 2 ^ 18) →
      (inRun s pgCANE = false → s.net.cane.store = [] → exec (.tunnelledCaneReceive p b) s = .next (s.quiet.bump pgFAB F.FAB_st_DELIVERED)) ∧
      (inRun s pgCANE = true → s.net.cane.store = [] → exec (.tunnelledCaneReceive p b) s = .next (caneTake (caneStore
        { path := 2, own := beVal (slice b 5 3) % 2 ^ 18, msg := b.drop 16, frame := b, ts := stamp16 s } (s.quiet.bump pgFAB F.FAB_st_DELIVERED)))) ∧
      (inRun s pgCANE = true → s.net.cane.store ≠ [] → s.net.cane.store.length < 8 → ∃ u x, exec (.tunnelledCaneReceive p b) s = .next u ∧
        u.net.cane.store = s.net.cane.store ++ [x] ∧ x.msg = b.drop 16 ∧ x.own = beVal (slice b 5 3) % 2 ^ 18)) ∧
    (∀ (p : Fin 4) (b : List Byte) (s : State), inRun s pgFAB = true → s.fab.fc.armed = false → 16 ≤ b.length → (b.getD 0 0).toNat / 64 = 3 → (b.getD 0 0).toNat / 8 % 8 = 1 → (b.getD 8 0).toNat = 0x31 →
      nodeId s = some (beVal (slice b 2 3) % 2 ^ 18) →
      exec (.firmwareBundleReceive p b) s = .next (fabRing b 0 (s.quiet.bump pgFAB F.FAB_st_DELIVERED))) ∧
    ∀ (a : BitVec 4) (i : BitVec 12) (s : State), inRun s pgFAB = false ∨ fabTx.free (s.setReg pgFAB 0x0F8 (i.setWidth 32)) = 0 →
      exec (.fabTxtailWrite a i) s = .next ((s.quiet.setReg pgFAB 0x0F8 (i.setWidth 32)).emit .writeDone)

/-- GO while a commit runs, or at a node that is not the cue master, is a fault; otherwise a new CID, target, policy and scope stand and
this node prepares. FIRE and ABORT with no commit in PREPARED are faults; else this node acts on them. A commit bundle not from the cue
master is counted. PREPARE refuses with 5, 6 or 7 while CMT is busy, unowned or JOIN is 0, and otherwise arms CMT for the target under
the owner. FIRE marks the commit fired, of an unknown CID is outcome 3. ABORT disarms an armed commit with outcome 10, and of a LOCKED
one is noted. READY of a commit known here is kept, of another goes on at once (log entry 117); once sent it is not sent again; REPORTs
are counted at the master, leave with a route, and are dropped at expiry. -/
def Obligations.FabricCommits : Prop :=
  (∀ (a : BitVec 4) (w o : Bool) (s : State),
      (s.get pgFAB F.FAB_FCSTAT_STATE = 1 ∨ s.get pgFAB F.FAB_FCSTAT_STATE = 2 →
        exec (.fcmtGo a w o) s = .next ((s.quiet.fault pgFAB 0x40 0x084 a.toNat).emit .writeDone)) ∧
      (s.get pgFAB F.FAB_FCSTAT_STATE ≠ 1 → s.get pgFAB F.FAB_FCSTAT_STATE ≠ 2 → isMaster s = false →
        exec (.fcmtGo a w o) s = .next ((s.quiet.fault pgFAB 0x41 0x084 a.toNat).emit .writeDone)) ∧
      (s.get pgFAB F.FAB_FCSTAT_STATE ≠ 1 → s.get pgFAB F.FAB_FCSTAT_STATE ≠ 2 → isMaster s = true →
        s.fab.fc.armed = false ∨ s.cmt.mode = .idle ∧ s.fab.fc.cid.isSome = true → ∃ u, exec (.fcmtGo a w o) s = .next u ∧ u.fab.mTarget = s.get pgFAB F.FAB_FCTGTL_TGT + s.get pgFAB F.FAB_FCTGTH_TGT * 2 ^ 32 ∧
          u.fab.mWindow = w ∧ u.fab.mCluster = o ∧ u.fab.table = [] ∧ u.fab.fc.cid = some ((s.get pgFAB F.FAB_FCID_CID + 1) % 2 ^ 32))) ∧
    (∀ (a : BitVec 4) (s : State), s.get pgFAB F.FAB_FCSTAT_STATE ≠ 1 →
      exec (.fcctlFire a) s = .next ((s.quiet.fault pgFAB 0x42 0x090 a.toNat).emit .writeDone) ∧
      exec (.fcctlAbort a) s = .next ((s.quiet.fault pgFAB 0x42 0x090 a.toNat).emit .writeDone)) ∧
    (∀ (a : BitVec 4) (s : State), s.get pgFAB F.FAB_FCSTAT_STATE = 1 → s.fab.mWindow = true →
      exec (.fcctlFire a) s = .next ((s.quiet.fault pgFAB 0x42 0x090 a.toNat).emit .writeDone)) ∧
    (∀ (a : BitVec 4) (s : State), StoresOk s → s.get pgFAB F.FAB_FCSTAT_STATE = 1 → s.fab.fc.cid = some (s.get pgFAB F.FAB_FCID_CID) →
      (s.fab.mWindow = false → ∃ u, exec (.fcctlFire a) s = .next u ∧ u.fab.fc = { s.fab.fc with fired := true } ∧ u.get pgFAB F.FAB_FCSTAT_STATE = 2) ∧
      (s.fab.fc.armed = false → s.fab.fc.outcome = none → ∃ u, exec (.fcctlAbort a) s = .next u ∧ u.fab.fc = s.fab.fc ∧ u.get pgFAB F.FAB_FCSTAT_STATE = 3) ∧
      (s.fab.fc.armed = true → s.cmt.mode = .armed → ∃ u, exec (.fcctlAbort a) s = .next u ∧ u.fab.fc.outcome = some 10 ∧
        u.fab.fc.armed = false ∧ u.cmt.mode = .idle)) ∧
    (∀ (p : Fin 4) (b : List Byte) (s : State), fabOn s = true → s.fab.fc.armed = false → 16 ≤ b.length → (b.getD 0 0).toNat / 64 = 1 →
      (b.getD 0 0).toNat / 8 % 8 = 4 → cueMaster s ≠ some (beVal (slice b 5 3) % 2 ^ 18) →
      ((b.getD 8 0).toNat = 1 → exec (.prepareReceive p b) s = .next (s.quiet.bump pgFAB F.FAB_st_NOTMASTER)) ∧
      ((b.getD 8 0).toNat = 3 → exec (.fireReceive p b) s = .next (s.quiet.bump pgFAB F.FAB_st_NOTMASTER)) ∧
      ((b.getD 8 0).toNat = 4 → exec (.abortReceive p b) s = .next (s.quiet.bump pgFAB F.FAB_st_NOTMASTER))) ∧
    (∀ (p : Fin 4) (b : List Byte) (s q : State), fabOn s = true → s.fab.fc.armed = false → nbPorts s = [] → joinPorts s = [] → 16 ≤ b.length → (b.getD 0 0).toNat / 64 = 1 → (b.getD 0 0).toNat / 8 % 8 = 4 →
      (b.getD 8 0).toNat = 1 → (∀ e ∈ s.fab.seen, e.1 ≠ beVal (slice b 5 3) % 2 ^ 18) → cueMaster s = some (beVal (slice b 5 3) % 2 ^ 18) →
      q = (remember (beVal (slice b 5 3) % 2 ^ 18) (beVal (slice b 12 4)) ((b.getD 0 0).toNat / 2 % 2) s.quiet).bump pgFAB F.FAB_st_DELIVERED →
      (s.cmt.mode ≠ .idle → ∃ u, exec (.prepareReceive p b) s = .next u ∧ u.fab.fc.refused = some 5 ∧ u.fab.fc.outcome = some 5 ∧ u.cmt = s.cmt) ∧
      (s.cmt.mode = .idle → s.cmt.owner = 0 → ∃ u, exec (.prepareReceive p b) s = .next u ∧ u.fab.fc.refused = some 6 ∧ u.fab.fc.outcome = some 6 ∧ u.cmt = s.cmt) ∧
      (s.cmt.mode = .idle → s.cmt.owner ≠ 0 → s.flag pgFAB F.FAB_CUECFG_JOIN = false →
        ∃ u, exec (.prepareReceive p b) s = .next u ∧ u.fab.fc.refused = some 7 ∧ u.fab.fc.outcome = some 7 ∧ u.cmt = s.cmt) ∧
      (s.cmt.mode = .idle → s.cmt.owner ≠ 0 → s.flag pgFAB F.FAB_CUECFG_JOIN = true →
        (b.getD 26 0).toNat / 2 % 32 = s.get pgTIME F.TIME_MODE_CURIDX → nearFn (fnOf s s.time.ft) (beVal (slice b 20 6) % 65536) = beVal (slice b 20 6) →
        ∃ u, exec (.prepareReceive p b) s = .next u ∧ u.fab.fc.armed = true ∧ u.fab.fc.cid = some (beVal (slice b 16 4)) ∧
          u.cmt = { s.cmt with
            mode := .checking, target := beVal (slice b 20 6), late := false, latePol := decide ((b.getD 26 0).toNat % 2 = 0), arming := s.cmt.owner, disarmPending := false,
            waitE := false })) ∧
    (∀ (p : Fin 4) (b : List Byte) (s q : State), fabOn s = true → s.fab.fc.armed = false → nbPorts s = [] → joinPorts s = [] → 16 ≤ b.length → (b.getD 0 0).toNat / 64 = 1 → (b.getD 0 0).toNat / 8 % 8 = 4 →
      (b.getD 8 0).toNat = 3 → (∀ e ∈ s.fab.seen, e.1 ≠ beVal (slice b 5 3) % 2 ^ 18) → cueMaster s = some (beVal (slice b 5 3) % 2 ^ 18) →
      q = (remember (beVal (slice b 5 3) % 2 ^ 18) (beVal (slice b 12 4)) ((b.getD 0 0).toNat / 2 % 2) s.quiet).bump pgFAB F.FAB_st_DELIVERED →
      ((fcOf s (beVal (slice (b.drop 16) 0 4))).isSome = true → exec (.fireReceive p b) s = .next (updFcOf (beVal (slice (b.drop 16) 0 4)) (fun f => { f with fired := true }) q)) ∧
      (fcOf s (beVal (slice (b.drop 16) 0 4)) = none → ∃ u, exec (.fireReceive p b) s = .next u ∧ u.fab.fc = { cid := some (beVal (slice (b.drop 16) 0 4)), outcome := some 3 })) ∧
    (∀ (p : Fin 4) (b : List Byte) (s q : State), fabOn s = true → s.fab.fc.armed = false → nbPorts s = [] → joinPorts s = [] → 16 ≤ b.length → (b.getD 0 0).toNat / 64 = 1 → (b.getD 0 0).toNat / 8 % 8 = 4 →
      (b.getD 8 0).toNat = 4 → (∀ e ∈ s.fab.seen, e.1 ≠ beVal (slice b 5 3) % 2 ^ 18) → cueMaster s = some (beVal (slice b 5 3) % 2 ^ 18) →
      q = (remember (beVal (slice b 5 3) % 2 ^ 18) (beVal (slice b 12 4)) ((b.getD 0 0).toNat / 2 % 2) s.quiet).bump pgFAB F.FAB_st_DELIVERED →
      s.fab.fc.cid = some (beVal (slice (b.drop 16) 0 4)) → s.fab.fc.outcome = none → exec (.abortReceive p b) s = .next q) ∧
    (∀ (p : Fin 4) (b : List Byte) (s q : State), fabOn s = true → s.fab.fc.armed = true → nbPorts s = [] → joinPorts s = [] → 16 ≤ b.length → (b.getD 0 0).toNat / 64 = 1 → (b.getD 0 0).toNat / 8 % 8 = 4 →
      (b.getD 8 0).toNat = 4 → (∀ e ∈ s.fab.seen, e.1 ≠ beVal (slice b 5 3) % 2 ^ 18) → cueMaster s = some (beVal (slice b 5 3) % 2 ^ 18) →
      q = (remember (beVal (slice b 5 3) % 2 ^ 18) (beVal (slice b 12 4)) ((b.getD 0 0).toNat / 2 % 2) s.quiet).bump pgFAB F.FAB_st_DELIVERED →
      s.fab.fc.cid = some (beVal (slice (b.drop 16) 0 4)) →
      (s.cmt.mode = .armed → ∃ u, exec (.abortReceive p b) s = .next u ∧ u.fab.fc.outcome = some 10 ∧ u.fab.fc.armed = false ∧ u.cmt.mode = .idle) ∧
      (s.cmt.mode = .locked → exec (.abortReceive p b) s = .next (updFc q fun f => { f with abortLate := true }))) ∧
    (∀ (p : Fin 4) (b : List Byte) (s : State), fabOn s = true → s.fab.fc.armed = false → 16 ≤ b.length → (b.getD 0 0).toNat / 64 = 1 →
      (b.getD 0 0).toNat / 8 % 8 = 0 → (b.getD 8 0).toNat = 2 →
      (∀ kids, fcOf s (beVal (slice (b.drop 16) 0 4)) = none → kids = (p.val, beVal (slice (b.drop 16) 4 4), beVal (slice (b.drop 16) 8 4)) ::
          ((amGet s.fab.relays (beVal (slice (b.drop 16) 0 4))).getD []).filter (·.1 ≠ p.val) →
        exec (.readyReceive p b) s = .next (readyUp (beVal (slice (b.drop 16) 0 4)) (kids.map (·.2.1)).sum (kids.map (·.2.2)).sum
          (updFab (s.quiet.bump pgFAB F.FAB_st_DELIVERED) fun f =>
            { f with relays := ((beVal (slice (b.drop 16) 0 4), kids) :: f.relays.filter (·.1 ≠ beVal (slice (b.drop 16) 0 4))).take 16 }))) ∧
      ((fcOf s (beVal (slice (b.drop 16) 0 4))).isSome = true → exec (.readyReceive p b) s = .next (updFcOf (beVal (slice (b.drop 16) 0 4))
        (fun f => { f with kids := (p.val, beVal (slice (b.drop 16) 4 4), beVal (slice (b.drop 16) 8 4)) :: f.kids.filter (·.1 ≠ p.val) })
        (s.quiet.bump pgFAB F.FAB_st_DELIVERED)))) ∧
    (∀ s : State, (∀ f ∈ s.fab.fc :: s.fab.olds, f.cid = none ∨ f.readySent = true) → exec .readySend s = .next s.quiet) ∧
    (∀ (c : Nat) (s : State), s.fab.fc.cid = some c → s.fab.fc.readySent = false → s.cmt.mode ≠ .checking → s.fab.fc.outcome ≠ some 3 →
      ((childPorts s 0).all fun b => s.fab.fc.kids.any (·.1 = b)) = true →
      ∃ u, exec .readySend s = .next u ∧ u.fab.fc = { s.fab.fc with readySent := true }) ∧
    (∀ s : State, s.fab.reports = [] ∨ cueMaster s = none → exec .reportSend s = .next s.quiet) ∧
    (∀ (r : Report) (l : List Report) (m : Nat) (s : State), s.fab.reports = r :: l → cueMaster s = some m →
      isMaster s = true ∨ (∃ b, routePort s m false = some b ∧ flows s b = true) → ∃ u, exec .reportSend s = .next u ∧ u.fab.reports = l) ∧
    (∀ s : State, exec .reportRouteExpiry s = .next (updFab s.quiet fun f => { f with reports := f.reports.drop 1 })) ∧
    ∀ (p : Fin 4) (b : List Byte) (s : State), fabOn s = true → s.fab.fc.armed = false → 16 ≤ b.length → (b.getD 0 0).toNat / 64 = 1 → (b.getD 0 0).toNat / 8 % 8 = 1 → (b.getD 8 0).toNat = 5 →
      nodeId s = some (beVal (slice b 2 3) % 2 ^ 18) →
      (isMaster s = false ∨ beVal (slice (b.drop 16) 0 4) ≠ s.get pgFAB F.FAB_FCID_CID →
        exec (.reportReceive p b) s = .next ((s.quiet.bump pgFAB F.FAB_st_DELIVERED).bump pgFAB F.FAB_st_REPORTS)) ∧
      (isMaster s = true → beVal (slice (b.drop 16) 0 4) = s.get pgFAB F.FAB_FCID_CID → ∃ u, exec (.reportReceive p b) s = .next u ∧
        u.fab.table = (s.fab.table ++ [(beVal (slice b 5 3) % 2 ^ 18, (b.getD 20 0).toNat, beVal (slice b 22 6))]).take 32)

/-- With AIR OFF, no packet or edge of the transceiver changes anything (a TXDONE or RDATA only while FAULT is not held). AIR_IRQ turns the
bus to the transceiver once no packet of the node waits. With none waiting, a TXDONE or RDATA ends the failures and the FAULT hold and
returns the bus; a TXDONE takes the frame off the air, and one of status 0 for a frame counts it in SENT and ends the BUDGET hold. A
RXFRAME is kept with its ST and RSSI. A packet with a wrong CHK counts in LINKERR, records LINKCRC, and the packets that waited go out
nibble by nibble. A time-out that is due counts a failure in LINKERR, the third in a row holds FAULT; one that is not due changes
nothing. The register list is sent once on each entry, with AIR_CLK where it began to run, and once a second under FAULT: one WREG for
each valid entry, at once or waiting for the bus; none where none is valid. -/
def Obligations.RadioLink : Prop :=
  (∀ s : State, linkOn s = false → exec .airIrq s = .next s.quiet ∧ exec .airRxsof s = .next s.quiet ∧ exec .linkPacketCrcError s = .next s.quiet ∧
      (s.air.listFor = 0 → exec .registerListWrite s = .next s.quiet) ∧ (∀ b r, exec (.ccares b r) s = .next s.quiet) ∧
      (∀ r b, exec (.rxframe r b) s = .next s.quiet) ∧ (∀ b, exec (.linkTimeout b) s = .next s.quiet) ∧
      (s.air.fault = false → (∀ b, exec (.rdata b) s = .next s.quiet) ∧ ∀ x, exec (.txdone x) s = .next s.quiet)) ∧
    (∀ s : State, s.air.fault = false → exec .registerListResend s = .next s.quiet) ∧
    (∀ s : State, s.air.listFor = effMode s pgAIR → exec .registerListWrite s = .next s.quiet) ∧
    (∀ s : State, linkOn s = true →
      (s.air.waiting ≠ [] → exec .airIrq s = .next s.quiet) ∧
      (s.air.waiting = [] → ∃ u, exec .airIrq s = .next u ∧ u.air = { s.air with dirOut := false } ∧
        u.out = if s.air.dirOut then [.ball "AIR_DIR" false] else []) ∧
      exec .airRxsof s = .next { s.quiet with air := { s.air with rxsof := s.st } } ∧
      (s.air.waiting = [] → exec .linkPacketCrcError s = .next (((airDir true s.quiet).bump pgAIR F.AIR_st_LINKERR).fault pgAIR 0x41 0x040 0)) ∧
      (s.air.frame = none → ∃ u, exec .linkPacketCrcError s = .next u ∧ u.air = { s.air with dirOut := true, waiting := [] } ∧
        ∀ p ∈ s.air.waiting, .airNibbles (s.get pgAIR F.AIR_LINK_CLKDIV) (linkNibbles (linkPacket p.op p.payload)) p.ends ∈ u.out)) ∧
    (∀ (x : Byte) (s : State), StoresOk s → s.air.waiting = [] → linkOn s = true ∨ s.air.fault = true →
      ∃ u, exec (.txdone x) s = .next u ∧ u.air.fails = 0 ∧ u.air.fault = false ∧ u.air.onAir = none ∧ u.air.dirOut = true ∧
        u.air.exhausted = (s.air.exhausted && (s.air.onAir.isNone || decide (x ≠ 0))) ∧
        (s.air.fault = false → s.get pgAIR F.HDR_REQ_MODE ≠ 0 → pageDomainOn s pgAIR = true → s.boot.outEn = true → s.boot.svcWait = false →
          u.air.frame = s.air.frame) ∧
        u.stat pgAIR F.AIR_st_SENT = (if s.air.onAir.isSome ∧ x = 0 then min 0xFFFFFFFF (s.stat pgAIR F.AIR_st_SENT + 1) else s.stat pgAIR F.AIR_st_SENT)) ∧
    (∀ (b : List Byte) (s : State), s.air.waiting = [] → linkOn s = true ∨ s.air.fault = true →
      ∃ u, exec (.rdata b) s = .next u ∧ u.air.fails = 0 ∧ u.air.fault = false ∧ u.air.dirOut = true ∧ u.air.buckets = s.air.buckets) ∧
    (∀ (r : Byte) (b : List Byte) (s : State), linkOn s = true → s.air.waiting = [] →
      ∃ u, exec (.rxframe r b) s = .next u ∧
        u.air = { s.air with dirOut := true, heard := (leBytes 4 s.air.rxsof.toNat ++ [r] ++ b).take 256 }) ∧
    (∀ s : State, (∀ f, s.air.onAir = some f → airReached s (f.tgo + f.span) = false) → exec (.linkTimeout false) s = .next s.quiet) ∧
    (∀ s : State, StoresOk s → linkOn s = true →
      (∃ u, exec (.linkTimeout true) s = .next u ∧ u.air.fails = s.air.fails + 1 ∧ u.air.fault = (s.air.fault || decide (3 ≤ s.air.fails + 1)) ∧
        u.stat pgAIR F.AIR_st_LINKERR = min 0xFFFFFFFF (s.stat pgAIR F.AIR_st_LINKERR + 1)) ∧
      ∀ f, s.air.onAir = some f → airReached s (f.tgo + f.span) = true → ∃ u, exec (.linkTimeout false) s = .next u ∧
        u.air.fails = s.air.fails + 1 ∧ u.air.fault = (s.air.fault || decide (3 ≤ s.air.fails + 1)) ∧ u.air.onAir = none ∧
        u.stat pgAIR F.AIR_st_LINKERR = min 0xFFFFFFFF (s.stat pgAIR F.AIR_st_LINKERR + 1)) ∧
    ∀ s : State, (linkOn s = true → s.air.listFor ≠ effMode s pgAIR → ∃ u, exec .registerListWrite s = .next u ∧ u.air.listFor = effMode s pgAIR ∧
        (∀ i, i < 128 → bitsOf (s.reg pgAIR (0xC00 + 4 * i)) 31 1 = 1 →
          if s.air.dirOut then .airNibbles (s.get pgAIR F.AIR_LINK_CLKDIV) (linkNibbles (linkPacket 0x01 (beBytes 2 (bitsOf (s.reg pgAIR (0xC00 + 4 * i)) 0 16) ++ [BitVec.ofNat 8 (bitsOf (s.reg pgAIR (0xC00 + 4 * i)) 16 8)]))) none ∈ u.out
          else { op := 0x01, payload := (beBytes 2 (bitsOf (s.reg pgAIR (0xC00 + 4 * i)) 0 16) ++ [BitVec.ofNat 8 (bitsOf (s.reg pgAIR (0xC00 + 4 * i)) 16 8)]) } ∈ u.air.waiting) ∧
        (s.air.listFor = 0 → .airClock (s.get pgAIR F.AIR_LINK_CLKDIV) ∈ u.out) ∧
        ((∀ i, i < 128 → bitsOf (s.reg pgAIR (0xC00 + 4 * i)) 31 1 = 0) → s.air.listFor ≠ 0 → u = updAir s.quiet fun a => { a with listFor := effMode s pgAIR })) ∧
      (s.air.fault = true → ∃ u, exec .registerListResend s = .next u ∧ u.air.fault = true ∧ u.air.listFor = effMode s pgAIR ∧
        (∀ i, i < 128 → bitsOf (s.reg pgAIR (0xC00 + 4 * i)) 31 1 = 1 →
          if s.air.dirOut then .airNibbles (s.get pgAIR F.AIR_LINK_CLKDIV) (linkNibbles (linkPacket 0x01 (beBytes 2 (bitsOf (s.reg pgAIR (0xC00 + 4 * i)) 0 16) ++ [BitVec.ofNat 8 (bitsOf (s.reg pgAIR (0xC00 + 4 * i)) 16 8)]))) none ∈ u.out
          else { op := 0x01, payload := (beBytes 2 (bitsOf (s.reg pgAIR (0xC00 + 4 * i)) 0 16) ++ [BitVec.ofNat 8 (bitsOf (s.reg pgAIR (0xC00 + 4 * i)) 16 8)]) } ∈ u.air.waiting) ∧
        ((∀ i, i < 128 → bitsOf (s.reg pgAIR (0xC00 + 4 * i)) 31 1 = 0) → u = updAir s.quiet fun a => { a with listFor := effMode s pgAIR }))

/-- An FN outside the schedule, or before its load instant, sends nothing. At the load instant, within the budget and in time, a frame whose
zone table can be read goes out with TXLOAD, or waits with it for the bus, and its airtime is charged to the bucket of the RTC (log
entry 49); one too late is cancelled. Above the budget the LBT budget allows tries; else nothing is sent, EXHAUSTED is reported and
BUDGET held. A try sends TXLOAD and CCA; a clear channel charges the frame and lets it go at T_go; a busy one leaves the next try, or
gives up. LOADLATE takes the charge back, or counts a try as busy. AIR_TXGO is placed at T_go, low 1 µs later; where AIR no longer
sends, the frame is dropped. Buckets passed are cleared, others stay. A record, one in each ten seconds, advances RSEQ and changes the
copy. The restore takes place once and says what it found. How airtime rounds to whole microseconds is left free (wholeUs). -/
def Obligations.RadioSchedule : Prop :=
  (∀ (n : BitVec 48) (s q : State), q = bucketSync s.quiet →
      (airIndex q n.toNat = none ∨ airSends q = false → exec (.crowdLoadInstant n) s = .next q) ∧
      ∀ j, airIndex q n.toNat = some j → airReached q (loadAt q (schedFrame q n.toNat j)) = false → exec (.crowdLoadInstant n) s = .next q) ∧
    (∀ (n : BitVec 48) (j : Nat) (f : AirFrame) (s q : State), q = bucketSync s.quiet → airIndex q n.toNat = some j → airSends q = true → f = schedFrame q n.toNat j → airReached q (loadAt q f) = true →
      withinBudget q f.sb (airTime q f.reacq) = true → s.time.ft < f.tgo → ∀ t b, buildFrame f f.base (accState 0 q) = (t, some b) →
      (packetsEnd q (s.air.waiting ++ [txloadPkt q f b]) ≤ loadLimit q { f with go := true } →
        ∃ u, exec (.crowdLoadInstant n) s = .next u ∧ u.air.frame = some { f with bucket := some q.air.bucket, go := true } ∧ u.air.onAir = s.air.onAir ∧
          u.air.buckets = updAt q.air.buckets f.sb (fun l => updAt l q.air.bucket (· + f.us)) ∧
          if s.air.dirOut then .airNibbles (s.get pgAIR F.AIR_LINK_CLKDIV) (linkNibbles (linkPacket (txloadPkt q f b).op (txloadPkt q f b).payload)) (txloadPkt q f b).ends ∈ u.out
          else u.air.waiting = s.air.waiting ++ [txloadPkt q f b]) ∧
      (loadLimit q { f with go := true } < packetsEnd q (s.air.waiting ++ [txloadPkt q f b]) →
        ∃ u, exec (.crowdLoadInstant n) s = .next u ∧ u.air.frame = none ∧ u.air.onAir = s.air.onAir)) ∧
    (∀ (n : BitVec 48) (j : Nat) (f : AirFrame) (s q : State), q = bucketSync s.quiet → airIndex q n.toNat = some j → airSends q = true → f = schedFrame q n.toNat j → airReached q (loadAt q f) = true →
      withinBudget q f.sb (airTime q f.reacq) = true → f.tgo ≤ s.time.ft →
      ∃ u, exec (.crowdLoadInstant n) s = .next u ∧ u.air = { q.air with frame := none, waiting := q.air.waiting.filter (·.op < 3) }) ∧
    (∀ (n : BitVec 48) (j : Nat) (f : AirFrame) (s q : State), StoresOk s → q = bucketSync s.quiet → airIndex q n.toNat = some j → airSends q = true → f = schedFrame q n.toNat j → airReached q (loadAt q f) = true →
      withinBudget q f.sb (airTime q f.reacq) = false →
      (q.flag pgAIR F.AIR_LBT_LBTOK f.sb = true → (airUsed q f.sb : Rat) + airTime q f.reacq ≤ airBudget q f.sb true →
        exec (.crowdLoadInstant n) s = .next (lbtTry f (accState 1 q))) ∧
      (q.flag pgAIR F.AIR_LBT_LBTOK f.sb = false ∨ ¬ (airUsed q f.sb : Rat) + airTime q f.reacq ≤ airBudget q f.sb true →
        ∃ u, exec (.crowdLoadInstant n) s = .next u ∧ u.air.exhausted = true ∧ u.air.frame = s.air.frame ∧ u.air.buckets = q.air.buckets ∧
          u.get pgAIR F.AIR_ACCSTAT_STATE = 2)) ∧
    (∀ s : State, s.air.frame = none → exec .loadlate s = .next s.quiet ∧ exec .crowdTxgo s = .next s.quiet ∧ exec .lbtTry s = .next s.quiet) ∧
    (∀ (f : AirFrame) (s : State), StoresOk s → s.air.frame = some f →
      (f.go = true → ∃ u, exec .loadlate s = .next u ∧ u.air.frame = none ∧
        u.stat pgAIR F.AIR_st_LOADLATE = min 0xFFFFFFFF (s.stat pgAIR F.AIR_st_LOADLATE + 1) ∧
        (f.bucket = none → u.air.buckets = s.air.buckets ∧ u.stat pgAIR F.AIR_st_AIRTIME = s.stat pgAIR F.AIR_st_AIRTIME) ∧
        ∀ i, f.bucket = some i → u.air.buckets = updAt s.air.buckets f.sb (fun l => updAt l i (· - f.us)) ∧
          u.stat pgAIR F.AIR_st_AIRTIME = s.stat pgAIR F.AIR_st_AIRTIME - f.us) ∧
      (f.go = false → lbtLeft s.quiet { f with k := f.k + 1 } = true → ∃ u, exec .loadlate s = .next u ∧ u.air.frame = some { f with busy := true } ∧
        u.air.buckets = s.air.buckets) ∧
      (f.go = false → lbtLeft s.quiet { f with k := f.k + 1 } = false → ∃ u, exec .loadlate s = .next u ∧ u.air.frame = none ∧
        u.stat pgAIR F.AIR_st_LBTBUSY = min 0xFFFFFFFF (s.stat pgAIR F.AIR_st_LBTBUSY + 1))) ∧
    (∀ (f : AirFrame) (s : State), s.air.frame = some f →
      (f.go = false → exec .crowdTxgo s = .next s.quiet) ∧ (f.go = true → exec .lbtTry s = .next s.quiet) ∧
      (f.go = true → airMay s = false → exec .crowdTxgo s = .next (dropFrame s.quiet)) ∧
      (f.go = true → airMay s = true → exec .crowdTxgo s = .next { s with
        air := { s.air with frame := none, onAir := some f }
        out := [.ballAt "AIR_TXGO" true (airEdge f.tgo), .ballAt "AIR_TXGO" false (airEdge f.tgo + 16000)] })) ∧
    (∀ (f g : AirFrame) (s q : State), q = s.quiet → s.air.frame = some f → f.go = false →
      g = { f with k := f.k + 1, tgo := airTgo q (tryStamp q { f with k := f.k + 1 }) f.reacq } →
      (airMay q = false → exec .lbtTry s = .next (dropFrame q)) ∧
      (airMay q = true → lbtLeft q g = false → airReached q f.tgo = true →
        ∃ u, exec .lbtTry s = .next u ∧ u.air = { s.air with frame := none, waiting := s.air.waiting.filter (·.op < 3) }) ∧
      (airMay q = true → (if lbtLeft q g then airReached q (loadAt q g) else airReached q f.tgo) = false → exec .lbtTry s = .next q) ∧
      (airMay q = true → lbtLeft q g = true → airReached q (loadAt q g) = true → s.time.ft < g.tgo →
        ∀ t b, buildFrame { g with busy := false } (tryStamp q g) q = (t, some b) →
        packetsEnd q (s.air.waiting ++ [txloadPkt q g b, ccaPkt q g]) ≤ loadLimit q g →
        ∃ u, exec .lbtTry s = .next u ∧ u.air.frame = some { g with busy := false } ∧ u.air.buckets = s.air.buckets ∧
          if s.air.dirOut then .airNibbles (s.get pgAIR F.AIR_LINK_CLKDIV) (linkNibbles (linkPacket (txloadPkt q g b).op (txloadPkt q g b).payload)) (txloadPkt q g b).ends ∈ u.out ∧
            .airNibbles (s.get pgAIR F.AIR_LINK_CLKDIV) (linkNibbles (linkPacket (ccaPkt q g).op (ccaPkt q g).payload)) (ccaPkt q g).ends ∈ u.out
          else u.air.waiting = s.air.waiting ++ [txloadPkt q g b, ccaPkt q g])) ∧
    (∀ (f : AirFrame) (x : Byte) (s : State), linkOn s = true → s.air.waiting = [] → s.air.frame = some f → f.go = false →
      (f.busy = true → ∀ y, ∃ u, exec (.ccares y x) s = .next u ∧ u.air = { s.air with dirOut := true }) ∧
      (f.busy = false → airMay s = false → ∀ y, ∃ u, exec (.ccares y x) s = .next u ∧ u.air = { s.air with dirOut := true, frame := none }) ∧
      (f.busy = false → airMay s = true → s.time.ft < f.tgo → ∃ u, exec (.ccares false x) s = .next u ∧
        u.air.frame = some { f with bucket := some u.air.bucket, go := true } ∧ u.air.bucket = (bucketSync s.quiet).air.bucket ∧ u.air.dirOut = true ∧
        u.air.buckets = updAt (bucketSync s.quiet).air.buckets f.sb (fun l => updAt l u.air.bucket (· + f.us))) ∧
      (f.busy = false → airMay s = true → lbtLeft (airDir true s.quiet) { f with k := f.k + 1 } = true →
        ∃ u, exec (.ccares true x) s = .next u ∧ u.air = { s.air with dirOut := true, frame := some { f with busy := true } }) ∧
      (f.busy = false → airMay s = true → lbtLeft (airDir true s.quiet) { f with k := f.k + 1 } = false →
        ∃ u, exec (.ccares true x) s = .next u ∧ u.air = { s.air with dirOut := true, frame := none })) ∧
    (∀ s : State, s.air.bucket < 36 → ∃ u, exec .bucketAdvance s = .next u ∧ u.air.bucket = s.pwr.rtc / 100 % 36 ∧ u.air.frame = s.air.frame ∧
      ∀ k i, i < 36 → (u.air.buckets.getD k []).getD i 0 =
        if 1 ≤ (i + 36 - s.air.bucket) % 36 ∧ (i + 36 - s.air.bucket) % 36 ≤ (u.air.bucket + 36 - s.air.bucket) % 36 then 0
        else (s.air.buckets.getD k []).getD i 0) ∧
    (∀ s : State, s.air.restored = false ∨ s.pwr.rtc / 10 = s.air.recTen → exec .accountingRecordWrite s = .next s.quiet) ∧
    (∀ s : State, s.air.restored = true → s.pwr.rtc / 10 ≠ s.air.recTen → ∃ u, exec .accountingRecordWrite s = .next u ∧
      u.air = { s.air with rseq := (s.air.rseq + 1) % 2 ^ 32, copyB := !s.air.copyB, recTen := s.pwr.rtc / 10 } ∧ u.pwr.rtcFresh = false) ∧
    (∀ s : State, s.air.restored = true → exec .accountingRestore s = .next s.quiet) ∧
    ∀ (s t : State) (a b : Option (List Byte)), StoresOk s → s.air.restored = false →
      readCopies 0 1172 (updAir s.quiet fun x => { x with restored := true, recTen := s.pwr.rtc / 10 }) = (t, a, b) →
      ∃ u, exec .accountingRestore s = .next u ∧ u.air.restored = true ∧
        (∀ r c, newerCopy 0x435A4152 1172 a b = some (r, c) → u.get pgAIR F.AIR_RECSTAT_SRC = 1 ∧ u.air.copyB = !c ∧
          u.air.rseq = (leVal (slice r 4 4) + 1) % 2 ^ 32) ∧
        ∀ x y, a = some x → b = some y → beVal (slice x 0 4) ≠ 0x435A4152 → beVal (slice y 0 4) ≠ 0x435A4152 →
          u.get pgAIR F.AIR_RECSTAT_SRC = 0 ∧ u.air.buckets = List.replicate 8 (List.replicate 36 0)

/-- Where NVM is on and no program is in progress: PROG of an allowed range by an agent that may program it, with the buffer its own, puts a
program of the buffer's bytes in progress; ZERO puts one of zeros in progress; either is refused where another agent wrote the buffer
last; a buffer word is taken and makes the writer BUFAGENT. While a program is in progress PROG is refused as busy. The end of a program
writes its bytes and, where the codewords it ends in can be corrected, nothing else (else only their other bytes are open, log entry
119), clears BUSY, sets EVT.DONE, and counts it; a queued program of the device's own begins. -/
def Obligations.MramProgramming : Prop :=
  (∀ (a : BitVec 4) (s : State) (off len : Nat), domainOn s 9 = true → s.mm.prog = none → s.get pgNVM F.NVM_ADDR_OFFSET = off →
      s.get pgNVM F.NVM_LEN = len → 0 < len → len ≤ 256 → off + len ≤ 0x1000000 → mramArea off = mramArea (off + len - 1) →
      mayProgram a.toNat (mramArea off) = true → s.get pgNVM F.NVM_STAT_BUFAGENT = 0 ∨ s.get pgNVM F.NVM_STAT_BUFAGENT = a.toNat →
      exec (.nvmProg a) s = .next ((startProg ⟨off, (List.range len).map fun k => (amGet s.mm.nvmBuf k).getD 0, a.toNat, false⟩
        (s.quiet.set pgNVM F.NVM_STAT_AGENT a.toNat)).emit .writeDone)) ∧
    (∀ (a : BitVec 4) (s : State) (off len : Nat), domainOn s 9 = true → s.mm.prog = none → s.get pgNVM F.NVM_ADDR_OFFSET = off →
      s.get pgNVM F.NVM_LEN = len → 0 < len → len ≤ 256 → off + len ≤ 0x1000000 → mramArea off = mramArea (off + len - 1) →
      mayProgram a.toNat (mramArea off) = true → s.get pgNVM F.NVM_STAT_BUFAGENT = 0 ∨ s.get pgNVM F.NVM_STAT_BUFAGENT = a.toNat →
      exec (.nvmZero a) s = .next ((startProg ⟨off, List.replicate len 0, a.toNat, false⟩
        (s.quiet.set pgNVM F.NVM_STAT_AGENT a.toNat)).emit .writeDone)) ∧
    (∀ (a : BitVec 4) (s : State) (off len : Nat), domainOn s 9 = true → s.mm.prog = none → s.get pgNVM F.NVM_ADDR_OFFSET = off →
      s.get pgNVM F.NVM_LEN = len → 0 < len → len ≤ 256 → off + len ≤ 0x1000000 → mramArea off = mramArea (off + len - 1) →
      mayProgram a.toNat (mramArea off) = true → s.get pgNVM F.NVM_STAT_BUFAGENT ≠ 0 → s.get pgNVM F.NVM_STAT_BUFAGENT ≠ a.toNat →
      exec (.nvmProg a) s = .next ((((s.quiet.bump pgNVM F.NVM_st_REFUSED).set pgNVM F.NVM_STAT_RESULT 4).fault pgNVM 0x42 0x048 a.toNat).emit .writeDone) ∧
      exec (.nvmZero a) s = .next ((((s.quiet.bump pgNVM F.NVM_st_REFUSED).set pgNVM F.NVM_STAT_RESULT 4).fault pgNVM 0x42 0x048 a.toNat).emit .writeDone)) ∧
    (∀ (a : BitVec 4) (s : State), s.mm.prog.isSome = true →
      exec (.nvmProg a) s = .next (((s.quiet.bump pgNVM F.NVM_st_REFUSED).fault pgNVM 0x43 0x048 a.toNat).emit .writeDone)) ∧
    (∀ (a : BitVec 4) (word : Fin 64) (v : Word) (s : State), StoresOk s → amSorted s.mm.nvmBuf = true → s.mm.prog = none →
      ∃ t, exec (.nvmBufferWrite a word v) s = .next t ∧ t.get pgNVM F.NVM_STAT_BUFAGENT = a.toNat ∧ t.mem = s.mem ∧ t.out = [.writeDone] ∧
        ∀ k, (amGet t.mm.nvmBuf k).getD 0 =
          if 4 * word.val ≤ k ∧ k < 4 * word.val + 4 then BitVec.ofNat 8 (v.toNat / 256 ^ (k - 4 * word.val))
          else (amGet s.mm.nvmBuf k).getD 0) ∧
    (∀ (s : State) (p : NvmProg), StoresOk s → s.mm.prog = some p →
      ∃ t, exec .nvmProgramDone s = .next t ∧
        ((∀ c ∈ p.words, (amGet s.mm.mramErr c).all (· ≤ 3) = true) → t.mem = memPutAll s.mem (mramBase + p.off) p.data) ∧
        (∀ k, k < p.data.length → memGet t.mem (mramBase + p.off + k) = p.data.getD k 0) ∧
        (∀ x, (∀ c ∈ p.words, x < mramBase + 32 * c ∨ mramBase + 32 * c + 32 ≤ x) → memGet t.mem x = memGet s.mem x) ∧
        t.mm.prog = s.mm.progQ.head? ∧ t.mm.progQ = s.mm.progQ.tail ∧ t.get pgNVM F.NVM_STAT_BUSY = s.mm.progQ.head?.isSome.toNat)

/-- A patrol read of a word without error counts at port 23 and moves to the next word, counting a pass at the end of the store; one of a
word with a single error corrects it. A codeword read with up to three bits in error returns its data and counts CORR; with more it ends
in a bus error, counts UNCORR and records its offset. INJECT arms one error at INJADDR; ERRCLR clears the recorded error. A read or a
write of memory beside the word in question is not touched. -/
def Obligations.MemoryEventsAndInjection : Prop :=
  (∀ s : State, s.flag pgFS F.FS_SCRUB_EN = true → fsUp s = true →
      amGet s.mm.ecc (fsBase / 8 + s.mm.scrub) = none →
      s.mm.scrub + 1 < 2 ^ 24 → StoresOk s →
      ∃ t, exec .scrubRead s = .next t ∧ t.mm = { s.mm with scrub := s.mm.scrub + 1 } ∧ t.mem = s.mem ∧
        t.stat (pgARB (chanOf (8 * s.mm.scrub))) F.ARB_st_P_GRANTS 23 = min 0xFFFFFFFF (s.stat (pgARB (chanOf (8 * s.mm.scrub))) F.ARB_st_P_GRANTS 23 + 1)) ∧
    (∀ s : State, s.flag pgFS F.FS_SCRUB_EN = true → fsUp s = true → amSorted s.mm.ecc = true →
      amGet s.mm.ecc (fsBase / 8 + s.mm.scrub) = some 1 →
      ∃ t, exec .scrubRead s = .next t ∧ amGet t.mm.ecc (fsBase / 8 + s.mm.scrub) = none ∧ t.mem = s.mem) ∧
    (∀ (cw : BitVec 19) (bits : Nat) (s : State), domainOn s 9 = true → s.mm.prog = none → 0 < bits → bits ≤ 3 →
      ∃ t, exec (.mramReadError cw bits) s = .next t ∧ t.mem = s.mem ∧ t.stat pgNVM F.NVM_st_CORR = min 0xFFFFFFFF (s.stat pgNVM F.NVM_st_CORR + 1) ∧
        t.out = [.memData 0 ((List.range 32).map fun k => memGet s.mem (mramBase + (cw.toNat * 32 + k)))]) ∧
    (∀ (cw : BitVec 19) (bits : Nat) (s : State), StoresOk s → domainOn s 9 = true → s.mm.prog = none → 3 < bits →
      ∃ t, exec (.mramReadError cw bits) s = .next t ∧ t.mem = s.mem ∧ t.out.getLast? = some .busError ∧
        t.get pgNVM F.NVM_ERRADDR_OFFSET = cw.toNat * 32) ∧
    (∀ (a : BitVec 4) (double : Bool) (s : State),
      exec (.fsInject a double false) s = .next (({ s.quiet with mm := 
        { s.mm with inject := some ⟨double, false, fsBase / 8 + s.get pgFS F.FS_INJADDR_OFFSET⟩ } }).emit .writeDone)) ∧
    (∀ (a : BitVec 4) (double : Bool) (s : State),
      exec (.fsInject a double true) s = .next (({ s.quiet with mm := 
        { s.mm with inject := some ⟨double, true, sramBase / 8 + s.get pgFS F.FS_INJADDR_OFFSET % 2 ^ 20⟩ } }).emit .writeDone)) ∧
    ∀ (a : BitVec 4) (s : State),
      exec (.errclr a) s = .next ((((s.quiet.setReg pgFS 0x04C 0).setReg pgFS 0x050 0).setReg pgFS 0x054 0).emit .writeDone)

/-- A port that may present a request presents it at the arbiter of its channel, with its own deadline, or with now plus its class's budget,
and a waiting request of its own to the same burst takes the nearer deadline; without an entry to take the handshake is withheld and
counted; a port that may not, or a deadline already past, presents none. Where one write alone is presented, a round grants it: it
leaves the arbiter, GRANTS counts, its RETRY count returns to 1. Where none is presented, a round changes nothing. A parked request
whose rounds have passed is presented again. -/
def Obligations.DeadlineArbiter : Prop :=
  (∀ (arb : Fin 2) (port : Fin 24) (off : BitVec 27) (len : Fin 65) (data : Option (List Byte)) (dl d : Option Word) (tag i : Nat) (s : State),
      i = chanOf off.toNat → d = dl.or (portDeadline s.quiet port.val data.isNone tag) →
      (portBusy s.quiet i port.val = true → exec (.arbiterRequest arb port off len data dl tag) s = .next s.quiet) ∧
      (portBusy s.quiet i port.val = false → ∀ r : ArbReq, (∀ x, d = some x → stPast x s.st = false) →
        r = { port := port.val, off := off.toNat, len := len.val, data := data, own := d.isSome, arrival := s.st, tag := tag
              fore := s.flag (pgARB i) F.ARB_PORT_FORERUNNER port.val
              deadline := d.getD (s.st + BitVec.ofNat 32 (arbBudget s i (s.get (pgARB i) F.ARB_PORT_CLASS port.val))) } →
        (r.fore = true ∨ mayPend s.quiet i port.val = true → exec (.arbiterRequest arb port off len data dl tag) s =
          .next (updArb s.quiet i fun a => { a with queue := a.queue.map r.near, fresh := a.fresh.map r.near ++ [r] })) ∧
        (r.fore = false → mayPend s.quiet i port.val = false → exec (.arbiterRequest arb port off len data dl tag) s =
          .next (((updArbPort s.quiet i port.val fun k => { k with held := some r }).bump (pgARB i) F.ARB_st_PENDFULL).evt (pgARB i) 1))) ∧
      (portBusy s.quiet i port.val = false → ∀ x, d = some x → stPast x s.st = true →
        (port.val ≠ 15 → exec (.arbiterRequest arb port off len data dl tag) s =
          .next (if port.val = 9 then (s.quiet.bump pgFAB F.FAB_st_TILEDROP).evt pgFAB 9 else s.quiet)) ∧
        (port.val = 15 → s.air.frame = none → exec (.arbiterRequest arb port off len data dl tag) s = .next s.quiet) ∧
        ∀ f, port.val = 15 → s.air.frame = some f → exec (.arbiterRequest arb port off len data dl tag) s = .next (loadLate f s.quiet))) ∧
    (∀ (arb : Fin 2) (s : State), (arbOf s arb.val).queue = [] → (arbOf s arb.val).fresh = [] → exec (.arbiterRound arb) s = .next s.quiet) ∧
    (∀ (arb : Fin 2) (s : State) (r : ArbReq), StoresOk s → arb.val < s.mm.arb.length → r.port < 24 → (arbOf s arb.val).ports.length = 24 →
      (arbOf s arb.val).queue = [] → (arbOf s arb.val).fresh = [r] →
      (∀ q, (arbPort s arb.val q).held = none) →
      ∃ t, exec (.arbiterRound arb) s = .next t ∧ (arbOf t arb.val).queue = [] ∧ (arbOf t arb.val).fresh = [] ∧
        (arbPort t arb.val r.port).retry = 1 ∧
        t.stat (pgARB arb.val) F.ARB_st_GRANTS = min 0xFFFFFFFF (s.stat (pgARB arb.val) F.ARB_st_GRANTS + 1)) ∧
    ∀ (arb : Fin 2) (port : Fin 24) (s : State) (r : ArbReq), (arbPort s arb.val port.val).parked = some r →
      (arbPort s arb.val port.val).sitOut = 0 → s.flag (pgARB arb.val) F.ARB_PORT_MASKED port.val = false →
      exec (.forerunnerRepresent arb port) s = .next (updArb (updArbPort s.quiet arb.val port.val fun k => { k with parked := none }) arb.val
        fun a => { a with queue := a.queue.map r.near, fresh := a.fresh.map r.near ++ [r] })

/-- On a channel whose page runs while the engine is not halted: GO of an idle, stopped or bad channel starts it at DESC with the writer's
agent code and the resume point at its beginning; RESUME of a stopped, halted or failed one starts it at the resume point. RESUME of a
running one is ignored. GO and RESUME in any other state record CHSTATE and change nothing else. STOP sets STOPREQ; KNOCK of a running
channel sets KNOCKED; CLEAR of a stopped, halted, failed or bad channel returns it to IDLE with nothing remaining, and in IDLE or RUN
does nothing (log entry 63). CLEARHALT clears HALTED on both pages. -/
def Obligations.DmaRequests : Prop :=
  (∀ (a : BitVec 4) (ch : Fin 32) (s : State), pageRuns s ch.val = true → engineHalted s = false →
      (chState s ch.val = chIdle ∨ chState s ch.val = chStopped ∨ chState s ch.val = chBad) →
      exec (.dmaGo a ch) s = .next ((updDma (chSet (chSet (chSet (chSet
        (setResume ch.val (chGet s ch.val F.DMA_DESCL_DESC * 32 + chGet s ch.val F.DMA_DESCH_DESC * 2 ^ 32) 0
          (setCur ch.val (chGet s ch.val F.DMA_DESCL_DESC * 32 + chGet s ch.val F.DMA_DESCH_DESC * 2 ^ 32) s.quiet))
        ch.val F.DMA_STATUS_STATE chRun) ch.val F.DMA_STATUS_AGENT a.toNat) ch.val F.DMA_STATUS_STOPREQ 0) ch.val F.DMA_MISOFF_VALID 0)
        ch.val fun _ => {}).emit .writeDone)) ∧
    (∀ (a : BitVec 4) (ch : Fin 32) (s : State), (pageRuns s ch.val = false ∨ engineHalted s = true ∨ chState s ch.val = chRun) →
      exec (.dmaGo a ch) s = .next ((chRefuse a.toNat ch.val s.quiet).emit .writeDone)) ∧
    (∀ (a : BitVec 4) (ch : Fin 32) (s : State),
      exec (.dmaStop a ch) s = .next ((chSet s.quiet ch.val F.DMA_STATUS_STOPREQ 1).emit .writeDone)) ∧
    (∀ (a : BitVec 4) (ch : Fin 32) (s : State), chState s ch.val ≠ chIdle →
      exec (.dmaKnock a ch) s = .next ((chSet s.quiet ch.val F.DMA_STATUS_KNOCKED 1).emit .writeDone)) ∧
    (∀ (a : BitVec 4) (ch : Fin 32) (s : State), pageRuns s ch.val = true → engineHalted s = false →
      (chState s ch.val = chStopped ∨ chState s ch.val = chHalted ∨ chState s ch.val = chError) → StoresOk s →
      exec (.dmaResume a ch) s = .next ((updDma (setCur ch.val (chAddr s ch.val F.DMA_RESL_RES F.DMA_RESH_RES)
        (chSet s.quiet ch.val F.DMA_STATUS_STATE chRun)) ch.val fun k => { k with active := false }).emit .writeDone)) ∧
    (∀ (a : BitVec 4) (ch : Fin 32) (s : State),
      (chState s ch.val = chIdle ∨ (chState s ch.val = chRun ∧ (pageRuns s ch.val = false ∨ engineHalted s = true)) →
        exec (.dmaResume a ch) s = .next ((chRefuse a.toNat ch.val s.quiet).emit .writeDone)) ∧
      (chState s ch.val = chRun → pageRuns s ch.val = true → engineHalted s = false →
        exec (.dmaResume a ch) s = .next (s.quiet.emit .writeDone))) ∧
    (∀ (a : BitVec 4) (ch : Fin 32) (s : State),
      (chState s ch.val = chStopped ∨ chState s ch.val = chHalted ∨ chState s ch.val = chError ∨ chState s ch.val = chBad) →
      exec (.dmaClear a ch) s = .next ((updDma (chSet (chSet (chSet s.quiet ch.val F.DMA_STATUS_STATE chIdle) ch.val F.DMA_STATUS_STOPREQ 0)
        ch.val F.DMA_REMAIN_BYTES 0) ch.val fun _ => {}).emit .writeDone)) ∧
    (∀ (a : BitVec 4) (ch : Fin 32) (s : State), (chState s ch.val = chIdle ∨ chState s ch.val = chRun) →
      exec (.dmaClear a ch) s = .next (s.quiet.emit .writeDone)) ∧
    ∀ (a : BitVec 4) (s : State), exec (.clearhalt a) s =
      .next (((s.quiet.set (pgDMA 0) F.DMA_ENGINE_HALTED 0).set (pgDMA 1) F.DMA_ENGINE_HALTED 0).emit .writeDone)

/-- A running channel with no descriptor in progress reads the 32 bytes at CUR; a bad one leaves the channel in BADDESC, and a good copy,
fill or compare becomes the descriptor in progress. A read that fails puts the channel in ERROR. DESCRIPTOR_COMPLETE of a channel that
does not run, or has no descriptor in progress, changes nothing; where every byte is moved without error the descriptor is done. A beat
error of a stopped or halted channel puts it in ERROR and halts the engine. -/
def Obligations.DmaDescriptors : Prop :=
  (∀ (ch : Fin 32) (s s1 : State) (b : List Byte), chState s ch.val = chRun → (dmaOf s ch.val).active = false →
      dmaReadN (chWho (chSet s.quiet ch.val F.DMA_STATUS_KNOCKED 0) ch.val) (chCur (chSet s.quiet ch.val F.DMA_STATUS_KNOCKED 0) ch.val) 32
        (chSet s.quiet ch.val F.DMA_STATUS_KNOCKED 0) = (s1, b, none) →
      descBad b (descOf b (dmaOf s1 ch.val)) = true → exec (.descriptorFetch ch) s = .next (badDesc ch.val s1)) ∧
    (∀ (ch : Fin 32) (s s1 : State) (b : List Byte), chState s ch.val = chRun → (dmaOf s ch.val).active = false →
      dmaReadN (chWho (chSet s.quiet ch.val F.DMA_STATUS_KNOCKED 0) ch.val) (chCur (chSet s.quiet ch.val F.DMA_STATUS_KNOCKED 0) ch.val) 32
        (chSet s.quiet ch.val F.DMA_STATUS_KNOCKED 0) = (s1, b, none) →
      descBad b (descOf b (dmaOf s1 ch.val)) = false → (descOf b (dmaOf s1 ch.val)).op ≠ opGather →
      (descOf b (dmaOf s1 ch.val)).op ≠ opScatter →
      exec (.descriptorFetch ch) s = .next (takeDesc ch.val (descOf b (dmaOf s1 ch.val)) s1)) ∧
    (∀ (ch : Fin 32) (s s1 : State) (b : List Byte) (x : Nat), chState s ch.val = chRun → (dmaOf s ch.val).active = false →
      dmaReadN (chWho (chSet s.quiet ch.val F.DMA_STATUS_KNOCKED 0) ch.val) (chCur (chSet s.quiet ch.val F.DMA_STATUS_KNOCKED 0) ch.val) 32
        (chSet s.quiet ch.val F.DMA_STATUS_KNOCKED 0) = (s1, b, some x) →
      exec (.descriptorFetch ch) s = .next (dmaError ch.val x s1)) ∧
    (∀ (ch : Fin 32) (s : State), (chState s ch.val ≠ chRun ∨ (dmaOf s ch.val).active = false) →
      exec (.descriptorComplete ch) s = .next s.quiet) ∧
    (∀ (ch : Fin 32) (s s1 : State), chState s ch.val = chRun → (dmaOf s ch.val).active = true →
      dmaAdvance ch.val (dmaOf s ch.val).count s.quiet = (s1, none) → chState s1 ch.val = chRun →
      exec (.descriptorComplete ch) s = .next (descDone ch.val s1)) ∧
    (∀ (ch : Fin 32) (addr : BitVec 40) (done : Nat) (s : State), (chState s ch.val = chStopped ∨ chState s ch.val = chHalted) →
      exec (.dmaBeatError ch addr done) s = .next (dmaError ch.val addr.toNat s.quiet)) ∧
    ∀ (ch : Fin 32) (addr : BitVec 40) (done : Nat) (s : State), StoresOk s → chState s ch.val = chHalted →
      ∃ t, exec (.dmaBeatError ch addr done) s = .next t ∧ engineHalted t = true ∧ t.mem = s.mem

/-- A push whose CTL has a reserved bit is refused. A push that finds room in an enabled queue with no packet open, as a FIRST and LAST, is
appended under its PRIO, and PUSHES counts. A push to a disabled queue is refused. A pop of an empty queue answers its fill and changes
nothing; one of a queue that holds an item takes the item that is due, and POPS counts. A drop with no packet in service records NOPKT.
A write of CFGq with LOGDEPTH out of range keeps the depth. -/
def Obligations.QueueOperations : Prop :=
  (∀ (a : BitVec 4) (q : Fin 64) (v : Word) (s : State), bitsOf v 29 3 ≠ 0 →
      exec (.queuePush a q v) s = .next ((pushRefuse a.toNat q.val 0x01 s.quiet).emit .writeDone)) ∧
    (∀ (a : BitVec 4) (q : Fin 64) (v : Word) (s : State), bitsOf v 29 3 = 0 → queueOn s q.val = false →
      exec (.queuePush a q v) s = .next ((pushRefuse a.toNat q.val 0x42 s.quiet).emit .writeDone)) ∧
    (∀ (a : BitVec 4) (q : Fin 64) (v : Word) (s : State) (item : List Byte), StoresOk s → q.val < s.que.qs.length →
      bitsOf v 29 3 = 0 → queueOn s q.val = true → (queueOf s q.val).opened = none → (queueOf s q.val).discard = false →
      item = (s.que.pushBuf.getD a.toNat [0, 0, 0] ++ [v]).flatMap (fun w => leBytes 4 w.toNat) →
      itemFirst item = true → itemLast item = true → (queueOf s q.val).items.length < queueDepth s q.val →
      ∃ t, exec (.queuePush a q v) s = .next t ∧ (queueOf t q.val).items = (queueOf s q.val).items ++ [(itemCtl item % 8, item)] ∧
        (queueOf t q.val).opened = none ∧ t.mem = s.mem) ∧
    (∀ (a : BitVec 4) (q : Fin 64) (s : State), queueNext (queueOf s q.val) = none → (queueOf s q.val).serving = none →
      exec (.queuePop a q) s = .next (s.quiet.emit (.readData (BitVec.ofNat 32 ((queueOf s q.val).items.length * 0x10000))))) ∧
    (∀ (a : BitVec 4) (q : Fin 64) (s : State) (p : Nat) (b : List Byte), StoresOk s → queueNext (queueOf s q.val) = some (p, b) →
      (queueOf s q.val).waits = [] → a.toNat < s.que.popBuf.length →
      ∃ t, exec (.queuePop a q) s = .next t ∧ (queueOf t q.val).items = removeFirst p (queueOf s q.val).items ∧
        (queueOf t q.val).serving = (if itemLast b then none else some p) ∧ t.mem = s.mem) ∧
    (∀ (a : BitVec 4) (q : Fin 64) (s : State), (queueOf s q.val).serving = none →
      exec (.queueDrop a q) s = .next ((s.quiet.fault pgQUE 0x45 0x060 a.toNat).emit .writeDone)) ∧
    (∀ (a : BitVec 4) (q : Fin 64) (s : State) (p : Nat), StoresOk s → q.val < s.que.qs.length → (queueOf s q.val).serving = some p →
      (queueOf s q.val).waits = [] → (dropPacket p (queueOf s q.val).items).2.2 = true →
      ∃ t, exec (.queueDrop a q) s = .next t ∧ (queueOf t q.val).items = (dropPacket p (queueOf s q.val).items).1 ∧
        (queueOf t q.val).serving = none ∧ t.mem = s.mem) ∧
    ∀ (a : BitVec 4) (q : Fin 64) (v : Word) (s : State), StoresOk s → bitsOf v 1 4 < 4 → bitsOf v 0 1 = 1 → queueOn s q.val = true →
      (queueOf s q.val).waits = [] →
      ∃ t, exec (.queueCfgWrite a q v) s = .next t ∧ queueDepth t q.val = queueDepth s q.val ∧ queueOn t q.val = true ∧
        t.flag pgQUE F.QUE_QCFG_BLOCK q.val = (bitsOf v 8 1 = 1) ∧ t.reg pgQUE 0x018 ≠ 0

/-- Where a source is idle and its ACTION is 0, an arrival (SOURCE_ARRIVAL, a write of EVC.SET, PSET, a due timer) sets its pending bit, and
presentation is evaluated again; where it is pending, COUNT goes up by one; those of the eight external sources also count in EXTARR.
EVC.CLR and PCLR clear the pending state and leave COUNT. DOORBELL makes the private source of every bit written pending. -/
def Obligations.ArrivalsBecomePending : Prop :=
  (∀ (src : Fin 256) (s : State), StoresOk s → srcBits s (.shared src.val) 20 1 = 0 → srcBits s (.shared src.val) 8 2 = 0 →
      exec (.sourceArrival src) s = .next (presentAll (setSrc ((if 228 ≤ src.val ∧ src.val ≤ 235 then s.quiet.bump pgEVC F.EVC_st_EXTARR
        else s.quiet).bump pgEVC F.EVC_st_ARRIVALS) (.shared src.val) 20 1 1))) ∧
    (∀ (src : Fin 256) (s : State), StoresOk s → srcBits s (.shared src.val) 20 1 = 1 → srcBits s (.shared src.val) 8 2 = 0 →
      srcBits s (.shared src.val) 24 8 < 254 →
      exec (.sourceArrival src) s = .next (presentAll (setSrc (((if 228 ≤ src.val ∧ src.val ≤ 235 then s.quiet.bump pgEVC F.EVC_st_EXTARR
        else s.quiet).bump pgEVC F.EVC_st_ARRIVALS).bump pgEVC F.EVC_st_MERGED) (.shared src.val) 24 8 (srcBits s (.shared src.val) 24 8 + 1)))) ∧
    (∀ (a : BitVec 4) (src : Byte) (s : State), StoresOk s → srcBits s (.shared src.toNat) 20 1 = 0 → srcBits s (.shared src.toNat) 8 2 = 0 →
      exec (.evcSet a src) s = .next ((presentAll (setSrc ((if 228 ≤ src.toNat ∧ src.toNat ≤ 235 then s.quiet.bump pgEVC F.EVC_st_EXTARR
        else s.quiet).bump pgEVC F.EVC_st_ARRIVALS) (.shared src.toNat) 20 1 1)).emit .writeDone)) ∧
    (∀ (a : BitVec 4) (src : Byte) (s : State),
      exec (.evcClr a src) s = .next ((presentAll (setSrc (setSrc s.quiet (.shared src.toNat) 20 1 0) (.shared src.toNat) 22 1 0)).emit
        .writeDone)) ∧
    (∀ (a : BitVec 4) (core : Fin 4) (src : Fin 32) (s : State), StoresOk s → srcBits s (.priv core.val src.val) 20 1 = 0 →
      exec (.pset a core src) s = .next ((presentAll (setSrc s.quiet (.priv core.val src.val) 20 1 1)).emit .writeDone)) ∧
    (∀ (a : BitVec 4) (core : Fin 4) (src : Fin 32) (s : State),
      exec (.pclr a core src) s = .next ((presentAll (setSrc s.quiet (.priv core.val src.val) 20 1 0)).emit .writeDone)) ∧
    (∀ (core : Fin 4) (s : State), StoresOk s → srcBits s (.priv core.val 0) 20 1 = 0 →
      exec (.timerSource core) s = .next (presentAll (setSrc s.quiet (.priv core.val 0) 20 1 1))) ∧
    ∀ (a : BitVec 4) (core : Fin 4) (bells : Byte) (s : State), StoresOk s →
      ∃ t, exec (.doorbell a core bells) s = .next t ∧ ∀ k, k < 8 → bells.getLsbD k = true → isPending t (.priv core.val (2 + k)) = true

/-- An external input whose filter accepts the level it already has changes nothing; one that accepts the other level keeps it. A write of a
source's TARGET leaves the source with that target and its enable, priority and pending bits as they were. -/
def Obligations.ExternalInputsAndTargets : Prop :=
  (∀ (input : Fin 8) (level : Bool) (s : State), s.evc.extLevel.getD input.val false = level →
      exec (.extFilterAccept input level) s = .next s.quiet) ∧
    (∀ (input : Fin 8) (level : Bool) (s : State), StoresOk s → s.evc.extLevel.getD input.val false ≠ level →
      ∃ t, exec (.extFilterAccept input level) s = .next t ∧ t.evc.extLevel = s.evc.extLevel.set input.val level ∧ t.mem = s.mem ∧
        t.staged = s.staged) ∧
    ∀ (a : BitVec 4) (src : Fin 256) (core : Fin 4) (s : State), StoresOk s →
      ∃ t, exec (.sourceTargetWrite a src core) s = .next t ∧ srcBits t (.shared src.val) 4 2 = core.val ∧
        srcBits t (.shared src.val) 20 1 = srcBits s (.shared src.val) 20 1 ∧ t.mem = s.mem

/-- A post with room goes to the tail of the post queue; with 64 posts waiting the write's handshake is withheld, the core stalls, and
FULLWAITS counts. Draining with nothing queued changes nothing; draining a post of a READY task counts at the task. DELAYGO of an idle
task puts it in the delay list at its release instant, CANCEL takes a delayed task out again, leaves an idle one as it is (log entry 62)
and is a fault for any other. A scheduler tick with nothing due changes nothing, and one with a task due takes it out of the list, makes
it READY and counts a release. -/
def Obligations.PostsAndDelays : Prop :=
  (∀ (a : BitVec 4) (task : BitVec 10) (s : State), s.tsk.posts.length < 64 →
      exec (.tskPost a task) s = .next ((({ s.quiet with tsk := { s.tsk with posts := s.tsk.posts ++ [task.toNat] } }).statMax pgTSK
        F.TSK_st_QPEAK (s.tsk.posts.length + 1)).emit .writeDone)) ∧
    (∀ (a : BitVec 4) (task : BitVec 10) (s : State), StoresOk s → 64 ≤ s.tsk.posts.length →
      ∃ t, exec (.tskPost a task) s = .next t ∧ t.tsk.posts = s.tsk.posts ∧ t.out = [] ∧
        t.tsk.waiting = s.tsk.waiting ++ [(task.toNat, if a.toNat = 0 then none else some (a.toNat - 1))]) ∧
    (∀ s : State, s.tsk.posts = [] → exec .postDrain s = .next s.quiet) ∧
    (∀ (s : State) (p : Nat) (rest : List Nat), s.tsk.posts = p :: rest →
      refill ({ s.quiet with tsk := { s.tsk with posts := rest } }.bump pgTSK F.TSK_st_POSTS) =
        { s.quiet with tsk := { s.tsk with posts := rest } }.bump pgTSK F.TSK_st_POSTS →
      (s.task p).en = true → (s.task p).mode = .ready →
      exec .postDrain s = .next (({ s.quiet with tsk := { s.tsk with posts := rest } }.bump pgTSK F.TSK_st_POSTS).setTask p
        { s.task p with postcnt := min 255 ((s.task p).postcnt + 1) })) ∧
    (∀ (a : BitVec 4) (task : BitVec 10) (s : State), (s.task task.toNat).mode = .idle →
      exec (.delaygo a task true) s = .next
        ({ s.quiet.setTask task.toNat { s.task task.toNat with mode := .delayed } with
            tsk := { (s.setTask task.toNat { s.task task.toNat with mode := .delayed }).tsk with
              delayed := delayInsert s.st (task.toNat, BitVec.ofNat 32 (s.get pgTSK F.TSK_DELAYTIME_TIME)) s.tsk.delayed } }.emit .writeDone)) ∧
    (∀ (a : BitVec 4) (task : BitVec 10) (s : State), (s.task task.toNat).mode = .delayed →
      exec (.cancel a task) s = .next
        ({ s.quiet.setTask task.toNat { s.task task.toNat with mode := .idle } with
            tsk := { (s.setTask task.toNat { s.task task.toNat with mode := .idle }).tsk with
              delayed := s.tsk.delayed.filter (·.1 ≠ task.toNat) } }.emit .writeDone)) ∧
    (∀ (a : BitVec 4) (task : BitVec 10) (s : State),
      ((s.task task.toNat).mode = .idle → exec (.cancel a task) s = .next (s.quiet.emit .writeDone)) ∧
      ((s.task task.toNat).mode ≠ .idle → (s.task task.toNat).mode ≠ .delayed →
        exec (.cancel a task) s = .next ((s.quiet.fault pgTSK 0x41 0x068 a.toNat).emit .writeDone))) ∧
    (∀ s : State, (∀ e ∈ s.tsk.delayed, stPast e.2 s.st = false) → exec .delayTick s = .next s.quiet) ∧
    ∀ (e : Nat × Word) (rest : List (Nat × Word)) (s : State), s.tsk.delayed = e :: rest → stPast e.2 s.st = true →
      (∀ x ∈ rest, stPast x.2 s.st = false) → exec .delayTick s = .next (scheduling (fun t => makeReady t e.1)
        ({ s.quiet with tsk := { s.tsk with delayed := rest } }.bump pgTSK F.TSK_st_RELEASES))

/-- CORE_WAKE of a core in SLEEP that was asked to wake brings it to RUN (it halts at once where STANDBY was written meanwhile) and unmasks
its arbiter port; of a core that was not asked it changes nothing. MODE 3 is reserved: the write keeps the mode and records RESERVED. -/
def Obligations.CoreModes : Prop :=
  (∀ (core : Fin 4) (s : State), (s.core core.val).wakeAsked = true →
      exec (.coreWake core) s = .next (coreMask core.val (coreWake core.val s.quiet))) ∧
    (∀ (core : Fin 4) (s : State), (s.core core.val).wakeAsked = true → (s.core core.val).mode = .sleep →
      (s.core core.val).haltOnWake = false →
      ∃ t, exec (.coreWake core) s = .next t ∧ (t.core core.val).mode = .run ∧ (t.core core.val).wakeAsked = false) ∧
    (∀ (core : Fin 4) (s : State), (s.core core.val).wakeAsked = false → exec (.coreWake core) s = .next s.quiet) ∧
    (∀ (a : BitVec 4) (core : Fin 4) (s : State),
      exec (.cpuModeWrite a core 3) s = .next ((s.quiet.fault (pgCPU core.val) 0x01 0x008 a.toNat).emit .writeDone)) ∧
    ∀ (a : BitVec 4) (core : Fin 4) (mode : BitVec 2) (s : State), mode ≠ 3 →
      exec (.cpuModeWrite a core mode) s = .next (answered s.quiet (refresh (pgCPU core.val) (coreMask core.val (coreMode core.val
        (s.quiet.set (pgCPU core.val) F.HDR_REQ_MODE mode.toNat)))))

/-- Where a core can run: an instruction fetched at the pc is executed, and a failed fetch takes an instruction access fault; FENCE.I
empties the instruction cache, advances the pc by four and retires; WFI retires and leaves the core waiting in IDLE (SLEEP where dtcfg
asks for it); DTRET in machine mode with an event frame ends the service and goes on at the restored pc; DTTAKE puts the task taken in
its register; DTDONE ends the innermost task; DTPOST posts the task its register names. At the end of a vector fetch with no bus error
the handler's address is the pc. A core that cannot run executes nothing. -/
def Obligations.CoreInstructions : Prop :=
  (∀ (c : Fin 4) (s s1 : State) (w len : Nat), canRun s c.val = true →
      fetchInstr c.val (holdCore c.val s.quiet) = (s1, .ok (w, len)) →
      exec (.executeInstruction c) s = .next (runInstr c.val w len s1)) ∧
    (∀ (c : Fin 4) (s s1 : State) (a : Dword), canRun s c.val = true → fetchInstr c.val (holdCore c.val s.quiet) = (s1, .error a) →
      exec (.executeInstruction c) s = .next (takeTrap c.val 1 a (freeCore c.val s1))) ∧
    (∀ (c : Fin 4) (s : State), canRun s c.val = false → exec (.executeInstruction c) s = .next s.quiet) ∧
    (∀ (c : Fin 4) (s : State), canRun s c.val = true →
      exec (.fenceI c) s = .next (present c.val (retire c.val (s.core c.val).pc ((s.core c.val).pc + 4) false (freeCore c.val
        ((holdCore c.val s.quiet).updCore c.val fun k => { k with icache := [] }))))) ∧
    (∀ (c : Fin 4) (s : State), canRun s c.val = true → (s.core c.val).priv = .machine → (s.core c.val).dtcfg = false →
      exec (.wfi c) s = .next (present c.val ((retire c.val (s.core c.val).pc ((s.core c.val).pc + 4) false (freeCore c.val
        (holdCore c.val s.quiet))).updCore c.val fun k => { k with mode := .idle }))) ∧
    (∀ (c : Fin 4) (s : State), canRun s c.val = true → (s.core c.val).priv = .machine → (s.core c.val).frames ≠ [] →
      sysDown (dtret c.val (holdCore c.val s.quiet)) = false → ((dtret c.val (holdCore c.val s.quiet)).core c.val).mode ≠ .reset →
      exec (.dtret c) s = .next (present c.val (retire c.val (s.core c.val).pc ((dtret c.val (holdCore c.val s.quiet)).core c.val).pc false
        (freeCore c.val (dtret c.val (holdCore c.val s.quiet)))))) ∧
    (∀ (c : Fin 4) (rd : BitVec 5) (s : State), canRun s c.val = true → (s.core c.val).priv = .machine → (s.core c.val).drawer = none →
      exec (.dttake c rd) s = .next (present c.val (retire c.val (s.core c.val).pc ((s.core c.val).pc + 4) false (freeCore c.val
        (xw c.val rd.toNat 0 (holdCore c.val s.quiet)))))) ∧
    (∀ (c : Fin 4) (rd : BitVec 5) (s s1 : State) (d v : Nat), canRun s c.val = true → (s.core c.val).priv = .machine →
      (s.core c.val).drawer = some d → takeTask c.val (holdCore c.val s.quiet) = (s1, v) → sysDown s1 = false →
      (s1.core c.val).mode ≠ .reset →
      exec (.dttake c rd) s = .next (present c.val (retire c.val (s.core c.val).pc ((s.core c.val).pc + 4) false (freeCore c.val
        (xw c.val rd.toNat (BitVec.ofNat 64 v) s1))))) ∧
    (∀ (c : Fin 4) (rs : BitVec 5) (s : State), canRun s c.val = true → (s.core c.val).priv = .machine → (s.core c.val).running ≠ [] →
      sysDown (endTask c.val (holdCore c.val s.quiet)) = false → ((endTask c.val (holdCore c.val s.quiet)).core c.val).mode ≠ .reset →
      exec (.dtdone c rs) s = .next (present c.val (retire c.val (s.core c.val).pc ((s.core c.val).pc + 4) false (freeCore c.val
        (endTask c.val (holdCore c.val s.quiet)))))) ∧
    (∀ (c : Fin 4) (rs : BitVec 5) (s : State), canRun s c.val = true → (s.core c.val).priv = .machine →
      (s.core c.val).running = [] →
      exec (.dtdone c rs) s = .next (present c.val (retire c.val (s.core c.val).pc ((s.core c.val).pc + 4) false (freeCore c.val
        ((holdCore c.val s.quiet).fault (pgCPU c.val) 0x40 0 (c.val + 1)))))) ∧
    (∀ (c : Fin 4) (rs : BitVec 5) (s : State), canRun s c.val = true → (s.core c.val).priv = .machine → s.tsk.posts.length < 64 →
      ∃ t, exec (.dtpost c rs) s = .next t ∧ t.tsk.posts = s.tsk.posts ++ [(xr s c.val rs.toNat).toNat % 1024]) ∧
    ∀ (c : Fin 4) (s s1 : State) (v : Nat) (f : EvFrame) (rest : List EvFrame) (b : List Byte), (s.core c.val).mode = .run →
      (s.core c.val).entry = some v → (s.core c.val).frames = f :: rest → (s.core c.val).chaining = false →
      rd (agentWho (c.val + 1)) ((s.core c.val).dtvbase + 8 * v) 8 (s.quiet.updCore c.val fun k => { k with stalled := true }) = (s1, some b) →
      ∃ t, exec (.vectorFetchDone c) s = .next t ∧ (t.core c.val).pc = BitVec.ofNat 64 (leVal b % 2 ^ 40 / 2 * 2)

/-- Any request of a state while STATE.TRANS is 1 records STATEREQ; a request of the present state changes nothing. DIM asked for in RUN
sets TRANS, and RUN asked for in DIM sets it. RETENTION SLEEP with no wake source records NOWAKE; DORMANT with neither WAKE_PIN nor RTC
enabled records NOWAKE; otherwise the entry is under way with TRANS 1 until the lanes have stopped and no dark-out is left, before
output enable at once. Then RETENTION SLEEP (no LAN wake, no late wake) ends in state 2 with TRANS 0, and in DORMANT the device is in
state 3, its rails drop, and the SRAM reads as at reset. DOMREQ reads as written with bits 0 and 1 set; it waits where a change is in
progress. -/
def Obligations.DeviceStates : Prop :=
  (∀ (a : BitVec 4) (s : State), s.flag pgPMU F.PMU_STATE_TRANS = true →
      exec (.statectlRun a) s = .next ((s.quiet.fault pgPMU 0x40 0x040 a.toNat).emit .writeDone) ∧
      exec (.statectlDim a) s = .next ((s.quiet.fault pgPMU 0x40 0x040 a.toNat).emit .writeDone) ∧
      exec (.statectlRetentionSleep a) s = .next ((s.quiet.fault pgPMU 0x40 0x040 a.toNat).emit .writeDone) ∧
      exec (.statectlDormant a) s = .next ((s.quiet.fault pgPMU 0x40 0x040 a.toNat).emit .writeDone)) ∧
    (∀ (a : BitVec 4) (s : State), s.flag pgPMU F.PMU_STATE_TRANS = false → devState s = 0 →
      exec (.statectlRun a) s = .next (s.quiet.emit .writeDone) ∧
      exec (.statectlDim a) s = .next (({ s.quiet with pwr := { s.pwr with dim := .asked } }.set pgPMU F.PMU_STATE_TRANS 1).emit .writeDone)) ∧
    (∀ (a : BitVec 4) (s : State), StoresOk s → s.flag pgPMU F.PMU_STATE_TRANS = false → devState s = 1 →
      exec (.statectlDim a) s = .next (s.quiet.emit .writeDone) ∧
      ∃ t, exec (.statectlRun a) s = .next t ∧ t.pwr.dim = .leaving ∧ t.flag pgPMU F.PMU_STATE_TRANS = true) ∧
    (∀ (a : BitVec 4) (s : State), s.flag pgPMU F.PMU_STATE_TRANS = false → devState s ≤ 1 → s.get pgPMU F.PMU_WAKEEN_EN = 0 →
      exec (.statectlRetentionSleep a) s = .next ((s.quiet.fault pgPMU 0x41 0x040 a.toNat).emit .writeDone) ∧
      exec (.statectlDormant a) s = .next ((s.quiet.fault pgPMU 0x41 0x040 a.toNat).emit .writeDone)) ∧
    (∀ (a : BitVec 4) (s : State), StoresOk s → s.flag pgPMU F.PMU_STATE_TRANS = false → devState s ≤ 1 →
      s.get pgPMU F.PMU_WAKEEN_EN ≠ 0 → s.get pgPMU F.PMU_WAKEEN_EN / 4 % 2 = 0 →
      (s.boot.outEn = true ∨ darkLeft s = true → ∃ t, exec (.statectlRetentionSleep a) s = .next t ∧ t.pwr.down = some 2 ∧
        t.flag pgPMU F.PMU_STATE_TRANS = true ∧ t.get pgPMU F.PMU_STATE = s.get pgPMU F.PMU_STATE ∧ t.mem = s.mem ∧ t.outs = s.outs) ∧
      (s.boot.outEn = false → darkLeft s = false → s.pwr.lateWake = 0 →
        ∃ t, exec (.statectlRetentionSleep a) s = .next t ∧ t.get pgPMU F.PMU_STATE = 2 ∧ t.flag pgPMU F.PMU_STATE_TRANS = false)) ∧
    (∀ (a : BitVec 4) (s : State), StoresOk s → s.flag pgPMU F.PMU_STATE_TRANS = false → devState s ≤ 1 →
      s.get pgPMU F.PMU_WAKEEN_EN &&& 3 ≠ 0 →
      (s.boot.outEn = true ∨ darkLeft s = true → ∃ t, exec (.statectlDormant a) s = .next t ∧ t.pwr.down = some 3 ∧
        t.flag pgPMU F.PMU_STATE_TRANS = true ∧ t.get pgPMU F.PMU_STATE = s.get pgPMU F.PMU_STATE ∧ t.mem = s.mem ∧ t.outs = s.outs) ∧
      (s.boot.outEn = false → darkLeft s = false →
        ∃ t, exec (.statectlDormant a) s = .next t ∧ t.get pgPMU F.PMU_STATE = 3 ∧ t.pwr.raising = some false ∧ t.staged = [] ∧
          ∀ x, sramBase ≤ x → x < mramBase → memGet t.mem x = memGet State.reset.mem x)) ∧
    ∀ (a : BitVec 4) (v : Word) (s : State), StoresOk s →
      ∃ t, exec (.domreqWrite a v) s = .next t ∧ t.get pgPMU F.PMU_DOMREQ_REQ = v.toNat % 65536 ||| 3 ∧
        (domChanging s = false → t.pwr.req = v.toNat % 65536 ||| 3 ∧ t.pwr.reqLater = none) ∧
        (domChanging s = true → t.pwr.req = s.pwr.req ∧ t.pwr.reqLater = some (v.toNat % 65536 ||| 3))

/-- WAKE_PIN and RTC_ALARM during an entry into DIM, RETENTION SLEEP or DORMANT are kept for its end; during another change of state they
change nothing; a source that is not enabled wakes nothing. In RETENTION SLEEP an enabled source makes a warm start due with cause 4; in
DORMANT it raises the rails; in DIM it leaves DIM. A domain that is wanted and off goes on and one that is not wanted and is on goes
off, after handover; otherwise the two events change nothing. The frame store's training reports its result while the domain is on. -/
def Obligations.WakesAndDomains : Prop :=
  (∀ s : State, goingDown s = true →
      exec .wakePin s = .next { s.quiet with pwr := { s.pwr with lateWake := s.pwr.lateWake ||| 1 } } ∧
      exec .rtcAlarm s = .next { s.quiet with pwr := { s.pwr with lateWake := s.pwr.lateWake ||| 2 } }) ∧
    (∀ s : State, goingDown s = false → s.flag pgPMU F.PMU_STATE_TRANS = true ∨ devState s = 0 →
      exec .wakePin s = .next s.quiet ∧ exec .rtcAlarm s = .next s.quiet) ∧
    (∀ s : State, StoresOk s → goingDown s = false → s.flag pgPMU F.PMU_STATE_TRANS = false → s.pwr.raising = none → devState s = 2 →
      (s.get pgPMU F.PMU_WAKEEN_EN &&& 1 ≠ 0 → ∃ t, exec .wakePin s = .next t ∧ t.boot.due = some (false, 4) ∧
        t.get pgPMU F.PMU_WAKECAUSE_SOURCE = (1 ||| if s.svc.lineLow then 8 else 0)) ∧
      (s.get pgPMU F.PMU_WAKEEN_EN &&& 2 ≠ 0 → ∃ t, exec .rtcAlarm s = .next t ∧ t.boot.due = some (false, 4) ∧
        t.get pgPMU F.PMU_WAKECAUSE_SOURCE = (2 ||| if s.svc.lineLow then 8 else 0)) ∧
      (s.get pgPMU F.PMU_WAKEEN_EN &&& 2 = 0 → exec .rtcAlarm s = .next s.quiet)) ∧
    (∀ s : State, goingDown s = false → s.flag pgPMU F.PMU_STATE_TRANS = false → s.pwr.raising = none → devState s = 3 →
      s.get pgPMU F.PMU_WAKEEN_EN &&& 1 ≠ 0 → ∃ t, exec .wakePin s = .next t ∧ t.pwr.raising = some true ∧ t.pwr.riseCause = 5) ∧
    (∀ s : State, goingDown s = false → s.flag pgPMU F.PMU_STATE_TRANS = false → s.pwr.raising = none → devState s = 1 →
      s.get pgPMU F.PMU_WAKEEN_EN &&& 2 ≠ 0 → ∃ t, exec .rtcAlarm s = .next t ∧ t.pwr.dim = .leaving) ∧
    (∀ (d : Fin 16) (s : State), StoresOk s → domFree s = true → domWant s d.val = true → domainOn s d.val = false →
      ∃ t, exec (.domainOnDone d) s = .next t ∧ domainOn t d.val = true) ∧
    (∀ (d : Fin 16) (s : State), StoresOk s → domFree s = true → domWant s d.val = false → domainOn s d.val = true →
      ∃ t, exec (.domainOffDone d) s = .next t ∧ domainOn t d.val = false) ∧
    (∀ (d : Fin 16) (s : State), domWant s d.val = domainOn s d.val ∨ domFree s = false →
      exec (.domainOnDone d) s = .next s.quiet ∧ exec (.domainOffDone d) s = .next s.quiet) ∧
    (∀ (pass : Bool) (s : State), domainOn s 8 = true →
      exec (.dramTrainingDone pass) s = .next ((s.quiet.set pgFS F.FS_TRAIN_DONE 1).set pgFS F.FS_TRAIN_PASS pass.toNat)) ∧
    ∀ (pass : Bool) (s : State), domainOn s 8 = false → exec (.dramTrainingDone pass) s = .next s.quiet

/-- While RESET_N is low, or a rail out of range, everything above AON is at reset and no start is due; when the last of the two ends with
every rail up a cold start is due with cause RESET. VAON brings every register to its reset value and begins the rise of the rails; each
step of the sequence moves one PWR_EN output, PWR_EN0 first upwards and PWR_EN3 first downwards, and the end of the rise makes a cold
start due, where every rail is in range; else it waits for the rail, and the next step drops the outputs to raise them anew. A loss of
power leaves no register and no byte of the SRAM or frame store above its reset value. -/
def Obligations.RailsAndResets : Prop :=
  (∀ s : State, ∃ t, exec .railOutOfRange s = .next t ∧ t.boot.railOut = true ∧ t.boot.resetLow = s.boot.resetLow ∧ t.boot.due = none ∧
      t.outs = State.reset.outs ∧ t.staged = []) ∧
    (∀ s : State, ∃ t, exec .resetNAssert s = .next t ∧ t.boot.resetLow = true ∧ t.boot.railOut = s.boot.railOut ∧ t.boot.due = none ∧
      t.outs = State.reset.outs ∧ t.staged = []) ∧
    (∀ s : State, StoresOk s → s.boot.railOut = true → s.pwr.en.all id = true → s.pwr.raising = some true → ∃ t, exec .railReturn s = .next t ∧
      t.boot = { s.boot with railOut := false, due := if s.boot.resetLow then none else some (true, s.pwr.riseCause) } ∧
      t.pwr = { s.pwr with raising := none } ∧ t.get pgPMU F.PMU_STATE = 0) ∧
    (∀ s : State, s.boot.railOut = true → s.boot.resetLow = false → s.pwr.en.all id = true → s.pwr.raising ≠ some true →
      exec .railReturn s = .next { s.quiet with boot := { s.boot with railOut := false, due := some (true, 1) } }) ∧
    (∀ s : State, s.boot.resetLow = true → s.boot.railOut = false → s.pwr.en.all id = true →
      exec .resetNRelease s = .next { s.quiet with boot := { s.boot with resetLow := false, due := some (true, 1) } }) ∧
    (∀ s : State, s.boot.resetLow = true → s.boot.railOut = true →
      (s.pwr.raising ≠ some true → exec .railReturn s = .next { s.quiet with boot := { s.boot with railOut := false } }) ∧
      exec .resetNRelease s = .next { s.quiet with boot := { s.boot with resetLow := false } }) ∧
    (∀ s : State, ∃ t, exec .vaonApplied s = .next t ∧ t.regs = [] ∧ t.pwr.en = [false, false, false, false] ∧ t.pwr.raising = some true ∧
      t.pwr.req = State.reset.pwr.req ∧ t.boot.due = none) ∧
    (∀ s : State, s.pwr.raising = none → exec .pwrEnSequence s = .next s.quiet) ∧
    (∀ s : State, s.pwr.raising = some true → s.pwr.en = [false, false, false, false] →
      exec .pwrEnSequence s = .next ({ s.quiet with pwr := { s.pwr with en := [true, false, false, false] } }.emit (.ball "PWR_EN0" true))) ∧
    (∀ s : State, s.pwr.raising = some true → s.pwr.en = [true, true, true, false] → s.boot.resetLow = false → s.boot.railOut = false →
      ∃ t, exec .pwrEnSequence s = .next t ∧ t.pwr.en = [true, true, true, true] ∧ t.pwr.raising = none ∧
        t.boot.due = some (true, s.pwr.riseCause) ∧ t.out = [.ball "PWR_EN3" true]) ∧
    (∀ s : State, s.pwr.raising = some true → s.boot.railOut = true →
      (s.pwr.en = [true, true, true, false] → exec .pwrEnSequence s =
        .next ({ s.quiet with pwr := { s.pwr with en := [true, true, true, true] } }.emit (.ball "PWR_EN3" true))) ∧
      (s.pwr.en = [true, true, true, true] → exec .pwrEnSequence s =
        .next ({ s.quiet with pwr := { s.pwr with en := [true, true, true, false], raising := some false, retry := true } }.emit (.ball "PWR_EN3" false)))) ∧
    (∀ s : State, s.pwr.raising = some false → s.pwr.retry = true → s.pwr.en = [true, false, false, false] →
      exec .pwrEnSequence s = .next ({ s.quiet with pwr := { s.pwr with en := [false, false, false, false], raising := some true, retry := false } }.emit
        (.ball "PWR_EN0" false))) ∧
    (∀ s : State, s.pwr.raising = some false → s.pwr.en = [true, true, true, true] →
      exec .pwrEnSequence s = .next ({ s.quiet with pwr := { s.pwr with en := [true, true, true, false] } }.emit (.ball "PWR_EN3" false))) ∧
    (∀ s : State, StoresOk s → ∃ t, exec (.powerLoss false) s = .next t ∧ t.regs = [] ∧ t.boot.due = none ∧
      t.pwr.en = [false, false, false, false] ∧ ∀ x, (sramBase ≤ x ∧ x < mramBase) ∨ fsBase ≤ x → memGet t.mem x = memGet State.reset.mem x) ∧
    ∀ s : State, exec (.powerLoss true) s = .next (refreshAll (domOff1 9 s.quiet))

/-- On a free bus with nothing waiting, a poll puts READ_VOUT on the bus and leaves READ_IOUT and READ_TEMPERATURE_1 waiting, and an alert
sets ALERT and reads STATUS_WORD. A waiting VOUT_COMMAND goes onto a free bus. A transaction that fails for the first or second time is
repeated, one that is acknowledged leaves the bus with VNOW at the voltage commanded. A die below every limit changes only the tracked
maximum; at TWARN the warning and its event are set; at 120 degrees the device trips to DORMANT with every rail off. Without SYS nothing
is measured or counted. A second of life goes to the bin of the die temperature, and the lifetime record's copies alternate. -/
def Obligations.PmbusThermalLife : Prop :=
  (∀ s : State, s.pwr.txn = none → s.pwr.txnQ = [] → ∃ t, exec .pmbusPoll s = .next t ∧ t.pwr.txn = some { kind := 3 } ∧
      t.pwr.txnQ = [{ kind := 4 }, { kind := 5 }] ∧ t.out = [.pmbus (pmBytes s { kind := 3 })]) ∧
    (∀ s : State, s.pwr.txn ≠ none → s.pwr.txnQ = [] →
      exec .pmbusPoll s = .next { s.quiet with pwr := { s.pwr with txnQ := [{ kind := 3 }, { kind := 4 }, { kind := 5 }] } }) ∧
    (∀ s : State, StoresOk s → s.pwr.txn = none → s.pwr.txnQ = [] →
      ∃ t, exec .pmbusAlert s = .next t ∧ t.pwr.txn = some { kind := 6 } ∧ bitsOf (t.reg pgPMU 0x010) 4 1 = 1) ∧
    (∀ (s : State) (x : PmTxn) (q : List PmTxn), s.pwr.txn = none → s.pwr.txnQ = x :: q → x.kind = 2 →
      exec .voutCommand s = .next ({ s.quiet with pwr := { s.pwr with txn := some x, txnQ := q } }.emit (.pmbus (pmBytes s x)))) ∧
    (∀ s : State, s.pwr.txnQ = [] → exec .voutCommand s = .next s.quiet) ∧
    (∀ (ok : Bool) (data : List Byte) (s : State), s.pwr.txn = none → exec (.pmbusTransactionEnd ok data) s = .next s.quiet) ∧
    (∀ (data : List Byte) (x : PmTxn) (s : State), s.pwr.txn = some x → x.fails < 2 →
      exec (.pmbusTransactionEnd false data) s = .next ({ s.quiet with pwr := { s.pwr with txn := some { x with fails := x.fails + 1 } } }.emit
        (.pmbus (pmBytes s x)))) ∧
    (∀ (data : List Byte) (x : PmTxn) (s : State), StoresOk s → s.pwr.txn = some x → x.kind = 2 → s.pwr.txnQ = [] →
      ∃ t, exec (.pmbusTransactionEnd true data) s = .next t ∧ t.pwr.txn = none ∧ t.get pgPMU F.PMU_VNOW = x.mv % 1024) ∧
    (∀ s : State, timeRuns s = false → exec .thermalEvaluate s = .next s.quiet ∧ exec .lifeCount s = .next s.quiet ∧
      exec .lifetimeRecordWrite s = .next s.quiet) ∧
    (∀ s : State, timeRuns s = true → Fl.lt (dieTemp s) (.fin (s.get pgPMU F.PMU_THERM_TWARN : Nat)) = true → Fl.lt (dieTemp s) (.fin 110) = true →
      Fl.lt (dieTemp s) (.fin 120) = true → s.flag pgPMU F.PMU_THERM_WARN = false → s.flag pgPMU F.PMU_THERM_CRIT = false →
      exec .thermalEvaluate s = .next (trackTj s.quiet)) ∧
    (∀ s : State, timeRuns s = true → Fl.lt (dieTemp s) (.fin (s.get pgPMU F.PMU_THERM_TWARN : Nat)) = false → Fl.lt (dieTemp s) (.fin 110) = true →
      Fl.lt (dieTemp s) (.fin 120) = true → s.flag pgPMU F.PMU_THERM_WARN = false → s.flag pgPMU F.PMU_THERM_CRIT = false → StoresOk s →
      exec .thermalEvaluate s = .next (((trackTj s.quiet).set pgPMU F.PMU_THERM_WARN 1).evt pgPMU 1)) ∧
    (∀ s : State, timeRuns s = true → StoresOk s → Fl.lt (dieTemp s) (.fin 120) = false →
      ∃ t, exec .thermalEvaluate s = .next t ∧ t.get pgPMU F.PMU_STATE = 3 ∧ t.get pgPMU F.PMU_WAKECAUSE_THERMTRIP = 1 ∧
        t.pwr.en = [false, false, false, false] ∧ t.outs = State.reset.outs) ∧
    (∀ s : State, timeRuns s = true → ∃ t, exec .lifeCount s = .next t ∧
      t.pwr.bins = updAt s.pwr.bins (lifeBin (dieTemp s)) fun n => min 0xFFFFFFFF (n + 1)) ∧
    ∀ s : State, timeRuns s = true → ∃ t, exec .lifetimeRecordWrite s = .next t ∧ t.pwr.lifeSeq = (s.pwr.lifeSeq + 1) % 2 ^ 32 ∧ t.pwr.lifeB = !s.pwr.lifeB

/-- After handover a first CONFIRM clears the failed-start count and reports CONFIRMED; a second one records AGENT and changes nothing else.
FAIL.CLEAR by agent 6 returns the count to 0, by another agent it records AGENT. A write of 0xC0DE to WDKICK is a kick, any other value
records RANGE. A TIMEOUT of 0 or of 10 to 60,000 ms is taken and restarts the count; another value records RANGE and keeps the old one.
KEYREVOKE of the last keys present records RANGE; otherwise by an agent other than 6 it records AGENT, and by agent 6 it blows the bits
named. READY is kept for output enable. ACK clears the fallback attention. -/
def Obligations.StartControls : Prop :=
  (∀ (a : BitVec 4) (s : State), StoresOk s → s.boot.handed = true → s.boot.confirmed = false →
      ∃ t, exec (.confirm a) s = .next t ∧ t.boot.confirmed = true ∧ t.get pgBOOT F.BOOT_FAIL_COUNT = 0 ∧
        bitsOf (t.reg pgBOOT 0x040) 12 1 = 1) ∧
    (∀ (a : BitVec 4) (s : State), s.boot.confirmed = true →
      exec (.confirm a) s = .next ((s.quiet.fault pgBOOT 0x40 0x044 a.toNat).emit .writeDone)) ∧
    (∀ s : State, exec (.failClear 6) s = .next ((s.quiet.set pgBOOT F.BOOT_FAIL_COUNT 0).emit .writeDone)) ∧
    (∀ (a : BitVec 4) (s : State), a ≠ 6 → exec (.failClear a) s = .next ((s.quiet.fault pgBOOT 0x40 0x070 a.toNat).emit .writeDone)) ∧
    (∀ (a : BitVec 4) (s : State), exec (.wdkick a 0xC0DE) s =
      .next (({ s.quiet with boot := { s.boot with warned := false } }.bump pgBOOT F.BOOT_st_WDKICKS).emit .writeDone)) ∧
    (∀ (a : BitVec 4) (v : Word) (s : State), v ≠ 0xC0DE →
      exec (.wdkick a v) s = .next ((s.quiet.fault pgBOOT 0x07 0x054 a.toNat).emit .writeDone)) ∧
    (∀ (a : BitVec 4) (ms : BitVec 16) (s : State), StoresOk s → ms = 0 ∨ (10 ≤ ms.toNat ∧ ms.toNat ≤ 60000) →
      ∃ t, exec (.wdogTimeoutWrite a ms) s = .next t ∧ t.get pgBOOT F.BOOT_WDOG_TIMEOUT = ms.toNat ∧ t.boot.warned = false) ∧
    (∀ (a : BitVec 4) (ms : BitVec 16) (s : State), StoresOk s → (1 ≤ ms.toNat ∧ ms.toNat ≤ 9) ∨ 60001 ≤ ms.toNat →
      ∃ t, exec (.wdogTimeoutWrite a ms) s = .next t ∧ t.get pgBOOT F.BOOT_WDOG_TIMEOUT = s.get pgBOOT F.BOOT_WDOG_TIMEOUT ∧
        bitsOf (t.reg pgBOOT 0x018) 0 8 = 0x07) ∧
    (∀ (a keys : BitVec 4) (s : State),
      (keysPresent ≠ 0 ∧ keysPresent &&& (keysRevoked s ||| keys.toNat) = keysPresent →
        exec (.keyrevoke a keys) s = .next ((s.quiet.fault pgBOOT 0x07 0x07C a.toNat).emit .writeDone)) ∧
      (¬(keysPresent ≠ 0 ∧ keysPresent &&& (keysRevoked s ||| keys.toNat) = keysPresent) → a ≠ 6 →
        exec (.keyrevoke a keys) s = .next ((s.quiet.fault pgBOOT 0x40 0x07C a.toNat).emit .writeDone))) ∧
    (∀ (keys : BitVec 4) (s : State), ¬(keysPresent ≠ 0 ∧ keysPresent &&& (keysRevoked s ||| keys.toNat) = keysPresent) →
      exec (.keyrevoke 6 keys) s = .next ({ s.quiet with boot := { s.boot with revoked := s.boot.revoked ||| keys.toNat } }.emit .writeDone)) ∧
    (∀ (a : BitVec 4) (s : State), ∃ t, exec (.bootReady a) s = .next t ∧ t.boot.ready = true ∧ t.regs = s.regs ∧ t.mem = s.mem) ∧
    ∀ (a : BitVec 4) (s : State), StoresOk s → ∃ t, exec (.attnAck a) s = .next t ∧ t.svc.fallback = false ∧
      t.get pgSVC F.SVC_ATTN_FORCE = s.get pgSVC F.SVC_ATTN_FORCE

/-- BOOT_RESTART makes a start of the kind asked for due, with cause SOFT, and everything above AON resets; where no MRAM program is in
progress a warm one keeps every byte of the SRAM. The watchdog's expiry and the confirm window's end make a warm start due, causes 2 and
3; half the watchdog's time sets its warning once. A ROM that runs out of time counts the failed start and makes a cold start due with
cause ROMFAIL. Where none of these runs, nothing changes. -/
def Obligations.StartsThatComeDue : Prop :=
  (∀ (a : BitVec 4) (cold : Bool) (s : State),
      ∃ t, exec (.bootRestart a cold) s = .next t ∧ t.boot.due = some (cold, 7) ∧ t.boot.handed = false ∧ t.staged = []) ∧
    (∀ (a : BitVec 4) (x : Nat) (s t : State), StoresOk s → s.mm.prog = none → sramBase ≤ x → x < mramBase →
      exec (.bootRestart a false) s = .next t → memGet t.mem x = memGet s.mem x) ∧
    (∀ s : State, wdRuns s = true → exec .watchdogExpiry s = .next (requestStart false 2 s.quiet) ∧
      (requestStart false 2 s.quiet).boot.due = some (false, 2)) ∧
    (∀ s : State, wdRuns s = false → exec .watchdogExpiry s = .next s.quiet) ∧
    (∀ s : State, wdRuns s = true → s.boot.warned = false →
      exec .watchdogWarn s = .next ({ s.quiet with boot := { s.boot with warned := true } }.evt pgBOOT 4)) ∧
    (∀ s : State, s.boot.warned = true → exec .watchdogWarn s = .next s.quiet) ∧
    (∀ s : State, s.boot.handed = true → s.boot.confirmed = false → s.boot.svcWait = false → sysDown s = false →
      ∃ t, exec .confirmWindowExpiry s = .next t ∧ t.boot.due = some (false, 3) ∧ t.outs = State.reset.outs) ∧
    (∀ s : State, s.boot.confirmed = true → exec .confirmWindowExpiry s = .next s.quiet) ∧
    (∀ s : State, StoresOk s → s.boot.due ≠ none → s.boot.resetLow = false → s.boot.railOut = false → failCount s < 8 →
      ∃ t, exec .romTimeout s = .next t ∧ t.boot.due = some (true, 8) ∧ t.get pgBOOT F.BOOT_FAIL_COUNT = failCount s + 1) ∧
    ∀ s : State, s.boot.due = none → exec .romTimeout s = .next s.quiet

/-- COLD_START and WARM_START do nothing where no start is due, or one of the other kind. Where a start of their kind is due they run it.
With the failed-start count at 8 or more the start ends in SERVICE WAIT with reason FAILLIMIT, the count as it was, and no start due.
The expiry of the fabric wait after handover is kept for output enable; before handover it changes nothing. A discovery wait that is not
in progress ends with no effect; one whose UP ports all report the recorded topology takes the recorded cluster and member. -/
def Obligations.StartsRun : Prop :=
  (∀ (straps : Byte) (r1 r2 r3 : Bool) (ends : List Nat) (hits applied : List (List (List Nat))) (s : State), s.boot.due = none →
      exec (.coldStart straps r1 r2 r3 ends hits applied) s = .next s.quiet ∧ exec (.warmStart straps ends) s = .next s.quiet) ∧
    (∀ (straps : Byte) (r1 r2 r3 : Bool) (ends : List Nat) (hits applied : List (List (List Nat))) (cause : Nat) (s : State),
      s.boot.due = some (true, cause) → s.boot.resetLow = false → s.boot.railOut = false →
      exec (.coldStart straps r1 r2 r3 ends hits applied) s =
        .next (startRun ⟨straps, r1, r2, r3, ends, hits, applied⟩ true (startForced ⟨straps, r1, r2, r3, ends, hits, applied⟩ s) cause s.quiet)) ∧
    (∀ (straps : Byte) (r1 r2 r3 : Bool) (ends : List Nat) (hits applied : List (List (List Nat))) (cause : Nat) (s : State), StoresOk s →
      s.boot.due = some (true, cause) → s.boot.resetLow = false → s.boot.railOut = false → 8 ≤ failCount s →
      ∃ t, exec (.coldStart straps r1 r2 r3 ends hits applied) s = .next t ∧ t.boot.due = none ∧ t.boot.svcWait = true ∧
        t.get pgBOOT F.BOOT_FAIL_COUNT = failCount s ∧ bitsOf (t.reg pgBOOT 0x040) 22 4 = 2) ∧
    (∀ (straps : Byte) (ends : List Nat) (cause : Nat) (s : State), s.boot.due = some (false, cause) → s.boot.fsKept = true →
      s.boot.resetLow = false → s.boot.railOut = false → failCount s < 3 →
      exec (.warmStart straps ends) s = .next (startRun ⟨straps, true, true, true, ends, [], []⟩ false false cause s.quiet)) ∧
    (∀ s : State, s.boot.handed = true → ∃ t, exec .fabwaitExpiry s = .next t ∧ t.boot.fabDone = true ∧ t.regs = s.regs) ∧
    (∀ s : State, s.boot.handed = false → exec .fabwaitExpiry s = .next s.quiet) ∧
    (∀ s : State, s.boot.discWait = false → exec .discoveryWaitExpiry s = .next s.quiet) ∧
    (∀ (s : State) (r : Nat × Nat × Dword), s.boot.discWait = true → s.fab.record = some r → fabOn s = false →
      exec .discoveryWaitExpiry s = .next { s.quiet with boot := { s.boot with discWait := false } }) ∧
    ∀ (s : State) (r : Nat × Nat × Dword), s.boot.discWait = true → s.fab.record = some r → fabOn s = true →
      (bruPorts.filter fun b => (bruOf s b).up) ≠ [] →
      (∀ b ∈ bruPorts, (bruOf s b).up = true → beVal (slice (bruOf s b).ctrlRx 32 8) = r.2.2.toNat) →
      ∃ u, exec .discoveryWaitExpiry s = .next u ∧ u.boot.discWait = false ∧ u.fab.cluster = some (r.1 / 256) ∧ u.fab.member = some r.2.1 ∧
        u.fab.disc = 4

/-- A request that carries this node's strap address with BCAST 0 while the responder is up is counted, sets REQUEST, is executed by agent
6, and leaves OP, SEQ and STATUS in LAST and a reply on the line: the register operations as regOp gives them, with status BADLEN for a
body of the wrong length, and READMEM with the bytes read. A WRITEREG whose write is withheld stays in progress without a reply, and no
request is taken meanwhile (log entry 110). A request to another address, or one not allowed with BCAST, is not taken. -/
def Obligations.ServiceReads : Prop :=
  (∀ (addr : BitVec 5) (seq : Byte) (body : List Byte) (s s1 : State) (st : Nat) (out : List Byte),
      svcUp s = true → s.svc.held = none → addr.toNat = svcAddr s → s1.svc.held = none →
      (svcReg 1 body ((s.quiet.bump pgSVC F.SVC_st_REQUESTS).evt pgSVC 0) = (s1, st, out) → sysDown s1 = false →
        exec (.svcStatus addr false seq body) s = .next (svcReply 1 seq st out (s1.setReg pgSVC 0x04C (BitVec.ofNat 32 (1 + seq.toNat * 0x100 + st * 0x10000))))) ∧
      (svcReg 2 body ((s.quiet.bump pgSVC F.SVC_st_REQUESTS).evt pgSVC 0) = (s1, st, out) → sysDown s1 = false →
        exec (.svcPagestate addr false seq body) s = .next (svcReply 2 seq st out (s1.setReg pgSVC 0x04C (BitVec.ofNat 32 (2 + seq.toNat * 0x100 + st * 0x10000))))) ∧
      (svcReg 3 body ((s.quiet.bump pgSVC F.SVC_st_REQUESTS).evt pgSVC 0) = (s1, st, out) → sysDown s1 = false →
        exec (.svcReadreg addr false seq body) s = .next (svcReply 3 seq st out (s1.setReg pgSVC 0x04C (BitVec.ofNat 32 (3 + seq.toNat * 0x100 + st * 0x10000))))) ∧
      (svcReg 4 body ((s.quiet.bump pgSVC F.SVC_st_REQUESTS).evt pgSVC 0) = (s1, st, out) → sysDown s1 = false →
        exec (.svcWritereg addr false seq body) s = .next (svcReply 4 seq st out (s1.setReg pgSVC 0x04C (BitVec.ofNat 32 (4 + seq.toNat * 0x100 + st * 0x10000))))) ∧
      (svcReg 5 body ((s.quiet.bump pgSVC F.SVC_st_REQUESTS).evt pgSVC 0) = (s1, st, out) → sysDown s1 = false →
        exec (.svcReadblock addr false seq body) s = .next (svcReply 5 seq st out (s1.setReg pgSVC 0x04C (BitVec.ofNat 32 (5 + seq.toNat * 0x100 + st * 0x10000))))) ∧
      (svcReadMem body ((s.quiet.bump pgSVC F.SVC_st_REQUESTS).evt pgSVC 0) = (s1, st, out) → sysDown s1 = false →
        exec (.readmem addr false seq body) s = .next (svcReply 6 seq st out (s1.setReg pgSVC 0x04C (BitVec.ofNat 32 (6 + seq.toNat * 0x100 + st * 0x10000)))))) ∧
    (∀ (addr : BitVec 5) (seq : Byte) (body : List Byte) (s s1 : State) (st : Nat) (out : List Byte) (h : HeldItems), svcUp s = true →
      s.svc.held = none → addr.toNat = svcAddr s → svcReg 4 body ((s.quiet.bump pgSVC F.SVC_st_REQUESTS).evt pgSVC 0) = (s1, st, out) →
      sysDown s1 = false → s1.svc.held = some h → exec (.svcWritereg addr false seq body) s = .next { s1 with
        svc := { s1.svc with held := some { h with out := out, bad := decide (st ≠ 0) }, heldReq := some (false, seq) } }) ∧
    (∀ (addr : BitVec 5) (seq : Byte) (body : List Byte) (s : State) (h : HeldItems), s.svc.held = some h → h.code = none →
      exec (.svcStatus addr false seq body) s = .next s.quiet ∧ exec (.readmem addr false seq body) s = .next s.quiet) ∧
    (∀ (op : Nat) (body : List Byte) (s : State), bodyOk op body = false → svcReg op body s = (s, 3, [])) ∧
    (∀ (body : List Byte) (s : State), body.length = 7 →
      (beVal (slice body 5 2) = 0 ∨ 1016 < beVal (slice body 5 2) ∨
        (beVal (slice body 0 5) ≤ 0x40FFFFFF ∧ 0x40000000 < beVal (slice body 0 5) + beVal (slice body 5 2))) →
      svcReadMem body s = (s, 7, [])) ∧
    (∀ (addr : BitVec 5) (seq : Byte) (body : List Byte) (s : State), addr.toNat ≠ svcAddr s →
      exec (.svcStatus addr false seq body) s = .next s.quiet ∧ exec (.svcWritereg addr false seq body) s = .next s.quiet) ∧
    ∀ (addr : BitVec 5) (seq : Byte) (body : List Byte) (s : State),
      exec (.svcReadreg addr true seq body) s = .next s.quiet ∧ exec (.readmem addr true seq body) s = .next s.quiet

/-- For a request addressed to this node while the responder is up and no copy is in progress, or in SERVICE WAIT: BENCHOPEN withdraws a
request of a copy; BENCHWRITE past the bench's end answers RANGE and programs nothing, and within it puts its bytes in programming and
leaves the bench unverified; BENCHCOMMIT answers NOTVERIFIED unless the bench is verified; BENCHVERIFY marks the bench verified where
the check of the image finds nothing, and else answers BADIMAGE; CLEARFAIL returns the failed-start count to 0; RESTART with one byte
makes a start due with cause 6; an OP that the table does not list answers BADOP. While a copy is in progress outside SERVICE WAIT
BENCHOPEN answers BUSY. A frame with a wrong CRC is counted and dropped. -/
def Obligations.ServiceBench : Prop :=
  (∀ (addr : BitVec 5) (seq : Byte) (s : State), StoresOk s → svcUp s = true → s.svc.held = none → addr.toNat = svcAddr s →
      s.boot.jState ≠ 2 ∨ s.boot.svcWait = true →
      (∃ t, exec (.benchopen addr false seq []) s = .next t ∧ t.boot.jState = 0 ∧ t.boot.jVerified = false) ∧
      (s.boot.jVerified = false → ∃ t, exec (.benchcommit addr false seq []) s = .next t ∧ t.boot.jState = s.boot.jState ∧ t.mm = s.mm ∧
        t.reg pgSVC 0x04C = BitVec.ofNat 32 (0x13 + seq.toNat * 0x100 + 5 * 0x10000)) ∧
      (s.boot.jVerified = true → ∃ t, exec (.benchcommit addr false seq []) s = .next t ∧ t.boot.jState = 1 ∧ t.boot.jNext = 0) ∧
      ∀ (s1 : State) (c : Nat) (h : List Byte),
        imageCheck 0x600000 (progsEnd ((s.quiet.bump pgSVC F.SVC_st_REQUESTS).evt pgSVC 0)) = (s1, c, h) → sysDown s1 = false →
        (c = 0 → ∃ t, exec (.benchverify addr false seq []) s = .next t ∧ t.boot.jVerified = true ∧ t.boot.jLen = leVal (slice h 8 4)) ∧
        (c ≠ 0 → ∃ t, exec (.benchverify addr false seq []) s = .next t ∧ t.boot = s1.boot ∧
          t.reg pgSVC 0x04C = BitVec.ofNat 32 (0x12 + seq.toNat * 0x100 + 6 * 0x10000))) ∧
    (∀ (addr : BitVec 5) (seq : Byte) (body : List Byte) (s : State), svcUp s = true → s.svc.held = none → addr.toNat = svcAddr s →
      s.boot.jState ≠ 2 ∨ s.boot.svcWait = true →
      5 ≤ body.length → body.length ≤ 1020 → 0x600000 < beVal (body.take 4) + (body.length - 4) →
      ∃ t, exec (.benchwrite addr false seq body) s = .next t ∧ t.mem = s.mem ∧ t.mm = s.mm) ∧
    (∀ (addr : BitVec 5) (seq : Byte) (body : List Byte) (s : State), svcUp s = true → s.svc.held = none → addr.toNat = svcAddr s →
      s.boot.jState ≠ 2 ∨ s.boot.svcWait = true →
      5 ≤ body.length → body.length ≤ 1020 → beVal (body.take 4) + (body.length - 4) ≤ 0x600000 → domainOn s 9 = true → s.mm.prog = none →
      ∃ t, exec (.benchwrite addr false seq body) s = .next t ∧ t.boot.jVerified = false ∧
        t.mm.prog = some ⟨0x600000 + beVal (body.take 4), body.drop 4, 0, true⟩) ∧
    (∀ (addr : BitVec 5) (seq : Byte) (s : State), StoresOk s → svcUp s = true → s.svc.held = none → addr.toNat = svcAddr s →
      (∃ t, exec (.clearfail addr false seq []) s = .next t ∧ t.get pgBOOT F.BOOT_FAIL_COUNT = 0) ∧
      (∀ b : Byte, ∃ t, exec (.svcRestart addr false seq [b]) s = .next t ∧ t.boot.due = some (b.getLsbD 0, 6)) ∧
      ∀ op : Byte, (op.toNat = 0 ∨ (7 ≤ op.toNat ∧ op.toNat < 0x10) ∨ 0x16 ≤ op.toNat) →
        ∃ t, exec (.svcBadOp addr false op seq) s = .next t ∧ t.mem = s.mem ∧
          t.reg pgSVC 0x04C = BitVec.ofNat 32 (op.toNat + seq.toNat * 0x100 + 2 * 0x10000)) ∧
    (∀ (addr : BitVec 5) (seq : Byte) (s : State), StoresOk s → svcUp s = true → s.svc.held = none → addr.toNat = svcAddr s →
      s.boot.jState = 2 → s.boot.svcWait = false →
      ∃ t, exec (.benchopen addr false seq []) s = .next t ∧ t.boot = s.boot ∧
        t.reg pgSVC 0x04C = BitVec.ofNat 32 (0x10 + seq.toNat * 0x100 + 4 * 0x10000)) ∧
    (∀ s : State, svcUp s = true →
      exec (.svcFrameDiscard true) s = .next ((s.quiet.bump pgSVC F.SVC_st_CRCERR).evt pgSVC 1)) ∧
    ∀ s : State, exec (.svcFrameDiscard false) s = .next s.quiet

/-- SVC_ATTN seen low for 100 us while this node does not drive it sets ATTNIN and is a wake; a low line that this node drives is not seen;
its return is kept. A TAP reset selects IDCODE and lets the balls go that a boundary instruction held. IDCODE sends the device
identification, BYPASS delays the bits by one and captures 0, SAMPLE/PRELOAD captures the balls and keeps what was shifted in. -/
def Obligations.AttentionAndTap : Prop :=
  (∀ s : State, attnOut s = true → exec (.attnIn true) s = .next s.quiet) ∧
    (∀ s : State, attnOut s = false → sysDown s = false →
      exec (.attnIn true) s = .next (wake 8 ({ s.quiet with svc := { s.svc with lineLow := true } }.evt pgSVC 3))) ∧
    (∀ s : State, exec (.attnIn false) s = .next { s.quiet with svc := { s.svc with lineLow := false } }) ∧
    (∀ s : State, exec .jtagTapReset s = .next (if holdsBalls s.tap.ir = true then ballsBack { s.quiet with tap := { s.tap with ir := 2 } }
      else { s.quiet with tap := { s.tap with ir := 2 } })) ∧
    (∀ s : State, ∃ t, exec .idcode s = .next t ∧ t.tap = { s.tap with ir := 2 } ∧
      (holdsBalls s.tap.ir = false → t.out = [.tdo [true, false, s.tap.refused, false, false, false], .tdo (bitList 32 idCode)])) ∧
    (∀ (code : BitVec 6) (shift : List Bool) (s : State), code.toNat = 3 ∨ (6 ≤ code.toNat ∧ code.toNat ≠ 32) →
      ∃ t, exec (.bypass code shift) s = .next t ∧ t.tap = { s.tap with ir := code.toNat } ∧
        (holdsBalls s.tap.ir = false →
          t.out = [.tdo [true, false, s.tap.refused, false, false, false], .tdo ((false :: shift).take shift.length)])) ∧
    ∀ (sensed shift : List Bool) (s : State), ∃ t, exec (.samplePreload sensed shift) s = .next t ∧ t.tap.ir = 1 ∧
      t.tap.boundary = (captureCells sensed s ++ shift).drop shift.length ∧ t.regs = s.regs

/-- While an output is live EXTEST, CLAMP and HIGHZ are refused: BYPASS takes their place, the refusal is kept, and no ball is driven. With
no output live they are loaded. A debug read of a register returns what agent 7 reads there with status 0; a misaligned one has status
1. A debug write reaches the register as a write of agent 7, and is BUSY while its handshake is withheld. Where SYS is off neither does
anything. A capture sends the data, the address and the status, least significant bit first. -/
def Obligations.BoundaryAndDebug : Prop :=
  (∀ (sensed shift : List Bool) (s : State), anyLive s = true →
      (∃ t, exec (.extest sensed (some shift)) s = .next t ∧ t.tap.ir = 0x3F ∧ t.tap.refused = true ∧ t.tap.boundary = s.tap.boundary ∧
        (holdsBalls s.tap.ir = false →
          t.out = [.tdo [true, false, s.tap.refused, false, false, false], .tdo ((false :: shift).take shift.length)])) ∧
      (∃ t, exec (.clamp shift) s = .next t ∧ t.tap.ir = 0x3F ∧ t.tap.refused = true ∧ t.outs = s.outs) ∧
      ∃ t, exec (.highz shift) s = .next t ∧ t.tap.ir = 0x3F ∧ t.tap.refused = true ∧ t.outs = s.outs) ∧
    (∀ (sensed shift : List Bool) (s : State), anyLive s = false →
      (∃ t, exec (.extest sensed (some shift)) s = .next t ∧ t.tap.ir = 0 ∧ t.tap.refused = false ∧
        t.tap.boundary = (captureCells sensed s ++ shift).drop shift.length) ∧
      (∃ t, exec (.clamp shift) s = .next t ∧ t.tap.ir = 4 ∧ t.tap.boundary = s.tap.boundary) ∧
      ∃ t, exec (.highz shift) s = .next t ∧ t.tap.ir = 5 ∧ t.tap.boundary = s.tap.boundary) ∧
    (∀ (addr : BitVec 40) (s : State), sysOn s = true → s.tap.status ≠ 2 → addr.toNat % 4 = 0 → region addr.toNat = .page → pageAccessOk addr.toNat 4 = true →
      ∃ t, exec (.dbgaccRead addr) s = .next t ∧ t.tap.status = 0 ∧ t.tap.addr = addr.toNat ∧
        t.tap.data = (regRead 7 (pageIndexAt addr.toNat) (addr.toNat % 4096) (if s.tap.ir = 0x20 then s.quiet else loadIr 0x20 s.quiet)).2) ∧
    (∀ (addr : BitVec 40) (v : Word) (s : State), sysOn s = true → s.tap.status ≠ 2 → addr.toNat % 4 ≠ 0 →
      (∃ t, exec (.dbgaccRead addr) s = .next t ∧ t.tap.status = 1 ∧ t.regs = s.regs) ∧
      ∃ t, exec (.dbgaccWrite addr v) s = .next t ∧ t.tap.status = 1 ∧ t.regs = s.regs ∧ t.mem = s.mem) ∧
    (∀ (addr : BitVec 40) (v : Word) (s : State), sysOn s = true → s.tap.status ≠ 2 → addr.toNat % 4 = 0 → region addr.toNat = .page →
      pageAccessOk addr.toNat 4 = true →
      ∃ t, exec (.dbgaccWrite addr v) s = .next t ∧ t.tap.status = (if withheld s < withheld (regWrite 7 (pageIndexAt addr.toNat)
          (addr.toNat % 4096) v (if s.tap.ir = 0x20 then s.quiet else loadIr 0x20 s.quiet)) then 2 else 0) ∧
        t.regs = (regWrite 7 (pageIndexAt addr.toNat) (addr.toNat % 4096) v (if s.tap.ir = 0x20 then s.quiet else loadIr 0x20 s.quiet)).regs) ∧
    (∀ (addr : BitVec 40) (v : Word) (s : State), sysOn s = false →
      exec (.dbgaccRead addr) s = .next s.quiet ∧ exec (.dbgaccWrite addr v) s = .next s.quiet) ∧
    ∀ s : State, exec .dbgaccCapture s =
      .next (s.quiet.emit (.tdo (bitList 32 s.tap.data.toNat ++ bitList 40 s.tap.addr ++ bitList 2 s.tap.status)))

/-- STRAND_PREPARED marks the frame in preparation prepared on its port and ends the preparation where it is the last. SHIFT_START of a TEST
frame begins its shift and counts it sent; SHIFT_END ends a shift: a panel's leaves only that, and a strand's leaves the port idle and
what a port without read-back has in memory. LATCH_PULSE_END ends the pulse of its group alone. EDGE_PLACE takes the entry at the head
of the queue and moves the pin at its instant. PIN_CHECK_SAMPLE of another level than the driven one counts and sets the events of EDGE
and the port. WORD_READ_MISS of a word of a mapped strand that does not shift marks the word, counts it and sets the event. Each Cane
operation of an authentic request in front is executed on the registers and replied to, READREG and READBLOCK without effect where they
name no register of QUE; firmware's goes to the ring of its port, one not assigned gets BADOP. The end of the lease frees the staging
set, and KEYCTL.CLEAR clears its slot. -/
def Obligations.PinsAndCaneComplete : Prop :=
  (∀ (p : Fin 64) (s : State), s.outs.strands.length = 64 → preparesOn s = true → s.outs.preparing = true → takesFrames s p.val = true →
      (strand s p.val).spoiled = false → (strand s p.val).pos = s.get pgMAP F.MAP_SEG_COUNT p.val → (strand s p.val).prep.contains s.time.seq = false →
      ∃ t, exec (.strandPrepared p) s = .next t ∧ (strand t p.val).prep = s.time.seq :: (strand s p.val).prep ∧
        (∀ q : Nat, q ≠ p.val → strand t q = strand s q) ∧ t.outs.pins = s.outs.pins ∧ t.regs = s.regs ∧ t.mem = s.mem ∧
        ((∀ q : Fin 64, q ≠ p → takesFrames s q.val = false) → t.outs.prepEnd = some s.time.ft)) ∧
    (∀ (p : Fin 64) (c : List Nat) (s : State), s.outs.strands.length = 64 → (strand s p.val).kind = 1 ∨ (strand s p.val).kind = 2 →
      testShown (strand s p.val) = true → contentOf s p.val (portNext s p.val).1 (portNext s p.val).2 = .codes c →
      ∃ t, exec (.shiftStart p) s = .next t ∧ (strand t p.val).shifting = true ∧ (strand t p.val).codes = c ∧
        (strand t p.val).shiftFn = (portNext s p.val).1 ∧ (strand t p.val).shownFn = (portNext s p.val).1 ∧
        (∀ q : Nat, q ≠ p.val → strand t q = strand s q) ∧ t.mem = s.mem) ∧
    (∀ (p : Fin 64) (ret : List Bool) (seen : Option (List Nat)) (s : State), (strand s p.val).shifting = true → (strand s p.val).kind = 6 →
      exec (.shiftEnd p ret seen) s = .next (updStrand s.quiet p.val fun k => { k with shifting := false })) ∧
    (∀ (p : Fin 64) (ret : List Bool) (seen : Option (List Nat)) (s : State), s.outs.strands.length = 64 → (strand s p.val).shifting = true →
      (strand s p.val).kind = 2 → (strand s p.val).fld F.STD_CFG_RBEN = 0 →
      ∃ t, exec (.shiftEnd p ret seen) s = .next t ∧ (strand t p.val).shifting = false ∧ t.outs.pins = s.outs.pins ∧ t.mem = s.mem) ∧
    (∀ (g : Fin 16) (s : State), s.outs.latch.length = 16 → (s.outs.latch.getD g.val {}).high = true →
      ∃ t, exec (.latchPulseEnd g) s = .next t ∧ t.outs.latch.getD g.val {} = { s.outs.latch.getD g.val {} with high := false } ∧
        (∀ h, h ≠ g.val → t.outs.latch.getD h {} = s.outs.latch.getD h {}) ∧ t.outs.strands = s.outs.strands ∧ t.mem = s.mem) ∧
    (∀ (i : Fin 144) (slots : Option (List Byte)) (e : Entry) (rest : List Entry) (s : State), (pinOf s i.val).queue = e :: rest →
      bankHeld s (bankOf i.val) = false → PlainEntry i.val rest s → (pinOf s i.val).level = some (!e.level) → s.outs.pins.length = 144 →
      inRun s pgEDGE = true → e.late = none → (pinOf s i.val).window = none → (pinOf s i.val).last = none →
      ∃ t, exec (.edgePlace (i, slots)) s = .next t ∧ (pinOf t i.val).level = some e.level ∧ (pinOf t i.val).last = some e.t ∧
        (pinOf t i.val).queue = rest ++ (pinOf s i.val).feed.take 1 ∧ (∀ j, j ≠ i.val → pinOf t j = pinOf s j) ∧
        t.outs.strands = s.outs.strands ∧ t.regs = s.regs ∧ t.mem = s.mem) ∧
    (∀ (i : Fin 144) (p : Nat) (seen : Bool) (s : State), s.get pgEDGE F.EDGE_BANKCFG_PINCHK / 2 ^ bankOf i.val % 2 = 1 →
      (pinOf s i.val).level = some (!seen) → pinPort s i.val = some p →
      exec (.pinCheckSample i seen) s = .next (((((s.quiet.bump pgEDGE F.EDGE_st_PINERR).evt pgEDGE 0).bump (pgSTD p) F.STD_st_PINERR).evt (pgSTD p) 4))) ∧
    (∀ (i : Fin 144) (seen : Bool) (s : State), s.get pgEDGE F.EDGE_BANKCFG_PINCHK / 2 ^ bankOf i.val % 2 = 1 →
      (pinOf s i.val).level = some (!seen) → pinPort s i.val = none →
      exec (.pinCheckSample i seen) s = .next ((s.quiet.bump pgEDGE F.EDGE_st_PINERR).evt pgEDGE 0)) ∧
    (∀ (p : Fin 64) (w : Nat) (s : State), w < (strand s p.val).words → (strand s p.val).mode = 2 → (strand s p.val).shifting = false →
      exec (.wordReadMiss p w) s = .next (updStrand ((s.quiet.bump (pgSTD p.val) F.STD_st_WORDERR).evt (pgSTD p.val) 2) p.val
        fun k => { k with missWords := w :: k.missWords })) ∧
    (∀ (r : CaneReq) (w : List CaneReq) (key : List Byte) (s q : State), CaneFront r w key s →
      q = updCane s.quiet (fun c => keepTag (r.msg.drop (r.msg.length - 16)) { c with store := w }) →
      ((r.msg.getD 3 0).toNat = 1 → r.msg.length = 48 →
        exec .caneStatus s = .next (caneRefill (caneReply r key 0 (statusRecord 5 q) (q.bump pgCANE F.CANE_st_REQUESTS)))) ∧
      ((r.msg.getD 3 0).toNat = 2 → itemsOk 2 (r.msg.length - 48) = true →
        exec .canePagestate s = .next (caneRefill (caneReply r key 0 ((List.range ((r.msg.length - 48) / 2)).flatMap fun i =>
          pageStateItem q (beVal (slice r.msg (32 + 2 * i) 2))) (q.bump pgCANE F.CANE_st_REQUESTS)))) ∧
      ((r.msg.getD 3 0).toNat = 3 → itemsOk 4 (r.msg.length - 48) = true →
        (∀ i, i < (r.msg.length - 48) / 4 → beVal (slice r.msg (32 + 4 * i) 4) / 4096 ≠ pgQUE) →
        ∃ st o, exec .caneReadreg s = .next (caneRefill (caneReply r key st o (q.bump pgCANE F.CANE_st_REQUESTS)))) ∧
      ((r.msg.getD 3 0).toNat = 5 → r.msg.length = 56 → 1 ≤ beVal (slice r.msg 36 2) → beVal (slice r.msg 36 2) ≤ 256 →
        (∀ i, i < beVal (slice r.msg 36 2) → (beVal (slice r.msg 32 4) + 4 * i) / 4096 ≠ pgQUE) →
        ∃ st o, exec .caneReadblock s = .next (caneRefill (caneReply r key st o (q.bump pgCANE F.CANE_st_REQUESTS)))) ∧
      (∀ c op, (c, op) ∈ [(Instr.caneReadreg, 3), (.caneReadblock, 5), (.caneWritereg, 4)] → (r.msg.getD 3 0).toNat = op → bodyOk op (slice r.msg 32 (r.msg.length - 48)) = true →
        ∀ x, x = regOp 5 (caneWrite (senderOf r)) op (slice r.msg 32 (r.msg.length - 48)) q → sysDown x.1 = false → x.1.net.cane.held = none →
          exec c s = .next (caneRefill (caneReply r key x.2.1 x.2.2 (x.1.bump pgCANE F.CANE_st_REQUESTS)))) ∧
      ((r.msg.getD 3 0).toNat = 0 ∨ (6 ≤ (r.msg.getD 3 0).toNat ∧ (r.msg.getD 3 0).toNat < 0x80) →
        exec .caneBadOp s = .next (caneRefill (caneReply r key 2 [] q))) ∧
      (0x80 ≤ (r.msg.getD 3 0).toNat → r.path < 2 → exec .caneFirmwareOp s = .next (caneRefill (toRing r.path
        (((q.bump pgCANE F.CANE_st_FWOPS).evt pgCANE 4).get (pgETH r.path) F.ETH_RINGSEL_CANE) r.frame 6 32 r.ts false
        ((q.bump pgCANE F.CANE_st_FWOPS).evt pgCANE 4))))) ∧
    (∀ s : State, s.cmt.owner = 5 → ∃ t, exec .caneLeaseExpiry s = .next t ∧ t.cmt = { s.cmt with owner := 0 } ∧ t.net.cane.owner = none ∧
      t.staged = s.staged ∧ t.mem = s.mem) ∧
    ∀ (a : BitVec 4) (k : Fin 2) (s : State), s.net.cane.keys.length = 16 → ∃ t, exec (.keyClear a k) s = .next t ∧ t.regs = s.regs ∧ t.mem = s.mem ∧
      t.out = [.writeDone] ∧ ∀ i, i < 16 → t.net.cane.keys.getD i none = if i / 8 = k.val then none else s.net.cane.keys.getD i none
end

