-- ==== Sys2Proof/Laws/AssocList.lean ====
section
/-!
SUPPORT. The laws of sorted association lists, and of the register file and the memory that are built on them.
-/
namespace Sys2Proof.Machine
open Sys2Proof

/-! ### Reading after writing -/

/-- A key set reads as the value set. -/
@[simp] theorem amGet_amSet_same {α : Type} (l : List (Nat × α)) (k : Nat) (v : α) : amGet (amSet l k v) k = some v := by
  induction l with
  | nil => simp [amSet, amGet]
  | cons x t ih =>
    obtain ⟨a, y⟩ := x
    by_cases h1 : k < a
    · simp [amSet, amGet, h1]
    · by_cases h2 : k = a
      · simp [amSet, amGet, h2]
      · simp [amSet, amGet, h1, h2, Ne.symm h2, ih]

/-- Another key reads as before. -/
theorem amGet_amSet_ne {α : Type} (l : List (Nat × α)) (k j : Nat) (v : α) (hj : j ≠ k) : amGet (amSet l k v) j = amGet l j := by
  induction l with
  | nil => simp [amSet, amGet, Ne.symm hj]
  | cons x t ih =>
    obtain ⟨a, y⟩ := x
    by_cases h1 : k < a
    · simp [amSet, amGet, h1, Ne.symm hj]
    · by_cases h2 : k = a
      · subst h2; simp [amSet, amGet, Ne.symm hj]
      · simp only [amSet, h1, h2, if_false, amGet, ih]

/-- Removing a key leaves what another reads. -/
theorem amGet_amDel_ne {α : Type} (l : List (Nat × α)) (k j : Nat) (hj : j ≠ k) : amGet (amDel l k) j = amGet l j := by
  induction l with
  | nil => rfl
  | cons x t ih =>
    obtain ⟨a, y⟩ := x
    by_cases h1 : a = k
    · subst h1; simp [amDel, amGet, Ne.symm hj]
    · simp only [amDel, h1, if_false, amGet, ih]

/-! ### The order of keys -/

/-- The tail of a sorted list is sorted. -/
theorem amSorted_tail {α : Type} {x : Nat × α} {t : List (Nat × α)} (h : amSorted (x :: t) = true) : amSorted t = true := by
  cases t with
  | nil => rfl
  | cons y t => simp [amSorted] at h; exact h.2

/-- A sorted list is one whose keys rise pairwise. -/
theorem amSorted_iff {α : Type} (l : List (Nat × α)) : amSorted l = true ↔ l.Pairwise (fun x y => x.1 < y.1) := by
  induction l with
  | nil => simp [amSorted]
  | cons x t ih =>
    cases t with
    | nil => simp [amSorted]
    | cons y t =>
      simp only [amSorted, Bool.and_eq_true, decide_eq_true_eq, ih, List.pairwise_cons, List.mem_cons, forall_eq_or_imp]
      constructor
      · rintro ⟨h1, h2, h3⟩
        exact ⟨⟨h1, fun z hz => Nat.lt_trans h1 (h2 z hz)⟩, h2, h3⟩
      · rintro ⟨⟨h1, _⟩, h2, h3⟩
        exact ⟨h1, h2, h3⟩

/-- What a list with a key set holds: the new entry and entries of the old list. -/
theorem mem_amSet {α : Type} {l : List (Nat × α)} {k : Nat} {v : α} {x : Nat × α} (h : x ∈ amSet l k v) : x = (k, v) ∨ x ∈ l := by
  induction l with
  | nil => simpa [amSet] using h
  | cons y t ih =>
    obtain ⟨a, w⟩ := y
    by_cases h1 : k < a
    · simpa [amSet, h1] using h
    · by_cases h2 : k = a
      · simp [amSet, h2] at h
        rcases h with h | h
        · simp [h, h2]
        · simp [h]
      · simp [amSet, h1, h2] at h
        rcases h with h | h
        · simp [h]
        · rcases ih h with h | h <;> simp [h]

/-- What a list with a key removed holds, the old list held. -/
theorem mem_amDel {α : Type} {l : List (Nat × α)} {k : Nat} {x : Nat × α} (h : x ∈ amDel l k) : x ∈ l := by
  induction l with
  | nil => simp [amDel] at h
  | cons y t ih =>
    obtain ⟨a, w⟩ := y
    by_cases h1 : a = k
    · simp [amDel, h1] at h; simp [h]
    · simp [amDel, h1] at h
      rcases h with h | h
      · simp [h]
      · simp [ih h]

/-- Setting a key keeps the order. -/
theorem amSorted_amSet {α : Type} {l : List (Nat × α)} (k : Nat) (v : α) (h : amSorted l = true) : amSorted (amSet l k v) = true := by
  rw [amSorted_iff] at h ⊢
  induction l with
  | nil => simp [amSet]
  | cons y t ih =>
    obtain ⟨a, w⟩ := y
    rw [List.pairwise_cons] at h
    by_cases h1 : k < a
    · rw [amSet, if_pos h1]
      simp only [List.pairwise_cons, List.mem_cons, forall_eq_or_imp]
      exact ⟨⟨h1, fun z hz => Nat.lt_trans h1 (h.1 z hz)⟩, h.1, h.2⟩
    · by_cases h2 : k = a
      · simp only [amSet, h2, lt_irrefl, if_false, if_true, List.pairwise_cons]
        exact ⟨h.1, h.2⟩
      · simp only [amSet, h1, h2, if_false, List.pairwise_cons]
        refine ⟨fun z hz => ?_, ih h.2⟩
        rcases mem_amSet hz with rfl | hz
        · exact Nat.lt_of_le_of_ne (Nat.le_of_not_lt h1) (Ne.symm h2)
        · exact h.1 z hz

/-- A list with a key removed is part of the list. -/
theorem amDel_sublist {α : Type} (l : List (Nat × α)) (k : Nat) : (amDel l k).Sublist l := by
  induction l with
  | nil => simp [amDel]
  | cons y t ih =>
    obtain ⟨a, w⟩ := y
    by_cases h1 : a = k
    · simp [amDel, h1]
    · simp [amDel, h1, ih]

/-- A part of a sorted list is sorted. -/
theorem amSorted_sublist {α : Type} {l m : List (Nat × α)} (hs : m.Sublist l) (h : amSorted l = true) : amSorted m = true := by
  rw [amSorted_iff] at h ⊢
  exact h.sublist hs

/-- Removing a key keeps the order. -/
theorem amSorted_amDel {α : Type} {l : List (Nat × α)} (k : Nat) (h : amSorted l = true) : amSorted (amDel l k) = true :=
  amSorted_sublist (amDel_sublist l k) h

/-- Keeping some entries keeps the order. -/
theorem amSorted_filter {α : Type} {l : List (Nat × α)} (p : Nat × α → Bool) (h : amSorted l = true) : amSorted (l.filter p) = true :=
  amSorted_sublist List.filter_sublist h

/-- A key removed from a sorted list reads as absent. -/
theorem amGet_amDel_same {α : Type} {l : List (Nat × α)} (k : Nat) (h : amSorted l = true) : amGet (amDel l k) k = none := by
  rw [amSorted_iff] at h
  induction l with
  | nil => rfl
  | cons y t ih =>
    obtain ⟨a, w⟩ := y
    rw [List.pairwise_cons] at h
    by_cases h1 : a = k
    · subst h1
      simp only [amDel, if_true]
      have hk : ∀ z ∈ t, z.1 ≠ a := fun z hz => Nat.ne_of_gt (h.1 z hz)
      clear ih h
      induction t with
      | nil => rfl
      | cons z t ih =>
        obtain ⟨b, x⟩ := z
        have := hk (b, x) (by simp)
        simp only [amGet, this, if_false]
        exact ih fun z hz => hk z (by simp [hz])
    · simp [amDel, amGet, h1, ih h.2]

/-! ### The register file (R8) -/

/-- Setting a register keeps the canonical form. -/
theorem regFileOk_regPut {l : List (Nat × Word)} (k : Nat) (v : Word) (h : RegFileOk l) : RegFileOk (regPut l k v) := by
  unfold regPut
  split
  · exact ⟨amSorted_amDel k h.1, fun kv hkv => h.2 kv (mem_amDel hkv)⟩
  · rename_i hv
    refine ⟨amSorted_amSet k v h.1, fun kv hkv => ?_⟩
    rcases mem_amSet hkv with rfl | hkv
    · exact hv
    · exact h.2 kv hkv

/-- Keeping some registers, the others at reset, keeps the canonical form. -/
theorem regFileOk_filter {l : List (Nat × Word)} (p : Nat × Word → Bool) (h : RegFileOk l) : RegFileOk (l.filter p) :=
  ⟨amSorted_filter p h.1, fun kv hkv => h.2 kv (List.mem_filter.1 hkv).1⟩

/-- Setting registers one after another keeps the canonical form. -/
theorem regFileOk_foldl {α : Type} (f : α → Nat) (g : α → Word) (xs : List α) {l : List (Nat × Word)} (h : RegFileOk l) :
    RegFileOk (xs.foldl (fun r x => regPut r (f x) (g x)) l) := by
  induction xs generalizing l with
  | nil => exact h
  | cons x t ih => exact ih (regFileOk_regPut _ _ h)

/-- A register file with every register at reset is in its canonical form. -/
theorem regFileOk_nil : RegFileOk [] := ⟨rfl, fun _ h => by simp at h⟩

/-- A register set reads as the value set. -/
theorem amGet_regPut_same {l : List (Nat × Word)} (k : Nat) (v : Word) (h : amSorted l = true) :
    (amGet (regPut l k v) k).getD (resetAt k) = v := by
  unfold regPut
  split
  · rename_i hv
    simp [amGet_amDel_same k h, hv]
  · simp

/-- Another register reads as before. -/
theorem amGet_regPut_ne (l : List (Nat × Word)) (k j : Nat) (v : Word) (hj : j ≠ k) : amGet (regPut l k v) j = amGet l j := by
  unfold regPut
  split
  · exact amGet_amDel_ne l k j hj
  · exact amGet_amSet_ne l k j v hj

/-! ### Memory (R5) -/

/-- The canonical form of memory, in parts. -/
theorem memory_wf_iff (m : List Host.Cell) : Memory.wf m = true ↔ amSorted m = true ∧ ∀ c ∈ m, c.2 ≠ unlisted := by
  simp [Memory.wf]

/-- Writing a byte keeps the canonical form. -/
theorem memory_wf_memPut {m : List Host.Cell} (a : Nat) (b : Byte) (h : Memory.wf m = true) : Memory.wf (memPut m a b) = true := by
  rw [memory_wf_iff] at h ⊢
  unfold memPut
  split
  · exact ⟨amSorted_amDel a h.1, fun c hc => h.2 c (mem_amDel hc)⟩
  · rename_i hb
    refine ⟨amSorted_amSet a b h.1, fun c hc => ?_⟩
    rcases mem_amSet hc with rfl | hc
    · exact hb
    · exact h.2 c hc

/-- Writing bytes keeps the canonical form. -/
theorem memory_wf_memPutAll {m : List Host.Cell} (a : Nat) (l : List Byte) (h : Memory.wf m = true) : Memory.wf (memPutAll m a l) = true := by
  induction l generalizing m a with
  | nil => exact h
  | cons b t ih => exact ih (a + 1) (memory_wf_memPut a b h)

/-- Losing bytes keeps the canonical form. -/
theorem memory_wf_filter {m : List Host.Cell} (p : Host.Cell → Bool) (h : Memory.wf m = true) : Memory.wf (m.filter p) = true := by
  rw [memory_wf_iff] at h ⊢
  exact ⟨amSorted_filter p h.1, fun c hc => h.2 c (List.mem_filter.1 hc).1⟩

/-- A byte written reads back, in a memory of canonical form. -/
theorem memGet_memPut_same {m : List Host.Cell} (a : Nat) (b : Byte) (h : Memory.wf m = true) : memGet (memPut m a b) a = b := by
  unfold memGet memPut
  split
  · rename_i hb
    simp [amGet_amDel_same a ((memory_wf_iff m).1 h).1, hb]
  · simp

/-- Every other byte reads as before. -/
theorem memGet_memPut_ne (m : List Host.Cell) (a j : Nat) (b : Byte) (hj : j ≠ a) : memGet (memPut m a b) j = memGet m j := by
  unfold memGet memPut
  split
  · rw [amGet_amDel_ne m a j hj]
  · rw [amGet_amSet_ne m a j b hj]

/-- Bytes outside those written read as before. -/
theorem memGet_memPutAll_out (m : List Host.Cell) (a : Nat) (l : List Byte) (j : Nat) (hj : j < a ∨ a + l.length ≤ j) :
    memGet (memPutAll m a l) j = memGet m j := by
  induction l generalizing m a with
  | nil => rfl
  | cons b t ih =>
    simp only [List.length_cons] at hj
    rw [memPutAll, ih (memPut m a b) (a + 1) (by omega), memGet_memPut_ne m a j b (by omega)]

/-- Bytes written read back, in a memory of canonical form. -/
theorem memBytes_memPutAll {m : List Host.Cell} (a : Nat) (l : List Byte) (h : Memory.wf m = true) : memBytes (memPutAll m a l) a l.length = l := by
  induction l generalizing m a with
  | nil => rfl
  | cons b t ih =>
    have ih := ih (a + 1) (memory_wf_memPut a b h)
    unfold memBytes at ih ⊢
    rw [List.length_cons, List.range_succ_eq_map, List.map_cons, List.map_map, memPutAll]
    congr 1
    · exact (memGet_memPutAll_out _ _ _ a (.inl (by omega))).trans (memGet_memPut_same a b h)
    · refine Eq.trans (List.map_congr_left fun k _ => ?_) ih
      simp only [Function.comp_apply, Nat.succ_eq_add_one]
      congr 1
      omega

/-- Bytes outside those written read as before. -/
theorem memBytes_memPutAll_out (m : List Host.Cell) (a : Nat) (l : List Byte) (j n : Nat) (hj : j + n ≤ a ∨ a + l.length ≤ j) :
    memBytes (memPutAll m a l) j n = memBytes m j n :=
  List.map_congr_left fun k hk => memGet_memPutAll_out _ _ _ _ (by have := List.mem_range.1 hk; omega)

end Sys2Proof.Machine
end

