-- ==== Sys2Proof/Laws/State.lean ====
section
/-!
SUPPORT. What each named update of the state leaves as it was, field by field, and what it sets.
-/
namespace Sys2Proof.Machine
open Sys2Proof

variable (s : State)

@[simp] theorem setReg_staged (p off : Nat) (v : Word) : (s.setReg p off v).staged = s.staged := rfl
@[simp] theorem setReg_ctr (p off : Nat) (v : Word) : (s.setReg p off v).ctr = s.ctr := rfl
@[simp] theorem setReg_mem (p off : Nat) (v : Word) : (s.setReg p off v).mem = s.mem := rfl
@[simp] theorem setReg_mm (p off : Nat) (v : Word) : (s.setReg p off v).mm = s.mm := rfl
@[simp] theorem setReg_time (p off : Nat) (v : Word) : (s.setReg p off v).time = s.time := rfl
@[simp] theorem setReg_cmt (p off : Nat) (v : Word) : (s.setReg p off v).cmt = s.cmt := rfl
@[simp] theorem setReg_cores (p off : Nat) (v : Word) : (s.setReg p off v).cores = s.cores := rfl
@[simp] theorem setReg_tsk (p off : Nat) (v : Word) : (s.setReg p off v).tsk = s.tsk := rfl
@[simp] theorem setReg_evc (p off : Nat) (v : Word) : (s.setReg p off v).evc = s.evc := rfl
@[simp] theorem setReg_vens (p off : Nat) (v : Word) : (s.setReg p off v).vens = s.vens := rfl
@[simp] theorem setReg_outs (p off : Nat) (v : Word) : (s.setReg p off v).outs = s.outs := rfl
@[simp] theorem setReg_col (p off : Nat) (v : Word) : (s.setReg p off v).col = s.col := rfl
@[simp] theorem setReg_cal (p off : Nat) (v : Word) : (s.setReg p off v).cal = s.cal := rfl
@[simp] theorem setReg_snd (p off : Nat) (v : Word) : (s.setReg p off v).snd = s.snd := rfl
@[simp] theorem setReg_net (p off : Nat) (v : Word) : (s.setReg p off v).net = s.net := rfl
@[simp] theorem setReg_bru (p off : Nat) (v : Word) : (s.setReg p off v).bru = s.bru := rfl
@[simp] theorem setReg_fab (p off : Nat) (v : Word) : (s.setReg p off v).fab = s.fab := rfl
@[simp] theorem setReg_air (p off : Nat) (v : Word) : (s.setReg p off v).air = s.air := rfl
@[simp] theorem setReg_dma (p off : Nat) (v : Word) : (s.setReg p off v).dma = s.dma := rfl
@[simp] theorem setReg_dmaRem (p off : Nat) (v : Word) : (s.setReg p off v).dmaRem = s.dmaRem := rfl
@[simp] theorem setReg_que (p off : Nat) (v : Word) : (s.setReg p off v).que = s.que := rfl
@[simp] theorem setReg_boot (p off : Nat) (v : Word) : (s.setReg p off v).boot = s.boot := rfl
@[simp] theorem setReg_pwr (p off : Nat) (v : Word) : (s.setReg p off v).pwr = s.pwr := rfl
@[simp] theorem setReg_svc (p off : Nat) (v : Word) : (s.setReg p off v).svc = s.svc := rfl
@[simp] theorem setReg_tap (p off : Nat) (v : Word) : (s.setReg p off v).tap = s.tap := rfl
@[simp] theorem setReg_freeCtr (p off : Nat) (v : Word) : (s.setReg p off v).freeCtr = s.freeCtr := rfl
@[simp] theorem setReg_out (p off : Nat) (v : Word) : (s.setReg p off v).out = s.out := rfl
@[simp] theorem setReg_pending (p off : Nat) (v : Word) : (s.setReg p off v).pending = s.pending := rfl

@[simp] theorem set_staged (p : Nat) (f : Fld) (v k : Nat) : (s.set p f v k).staged = s.staged := by simp only [State.set, setReg_staged]
@[simp] theorem set_ctr (p : Nat) (f : Fld) (v k : Nat) : (s.set p f v k).ctr = s.ctr := by simp only [State.set, setReg_ctr]
@[simp] theorem set_mem (p : Nat) (f : Fld) (v k : Nat) : (s.set p f v k).mem = s.mem := by simp only [State.set, setReg_mem]
@[simp] theorem set_mm (p : Nat) (f : Fld) (v k : Nat) : (s.set p f v k).mm = s.mm := by simp only [State.set, setReg_mm]
@[simp] theorem set_time (p : Nat) (f : Fld) (v k : Nat) : (s.set p f v k).time = s.time := by simp only [State.set, setReg_time]
@[simp] theorem set_cmt (p : Nat) (f : Fld) (v k : Nat) : (s.set p f v k).cmt = s.cmt := by simp only [State.set, setReg_cmt]
@[simp] theorem set_cores (p : Nat) (f : Fld) (v k : Nat) : (s.set p f v k).cores = s.cores := by simp only [State.set, setReg_cores]
@[simp] theorem set_tsk (p : Nat) (f : Fld) (v k : Nat) : (s.set p f v k).tsk = s.tsk := by simp only [State.set, setReg_tsk]
@[simp] theorem set_evc (p : Nat) (f : Fld) (v k : Nat) : (s.set p f v k).evc = s.evc := by simp only [State.set, setReg_evc]
@[simp] theorem set_vens (p : Nat) (f : Fld) (v k : Nat) : (s.set p f v k).vens = s.vens := by simp only [State.set, setReg_vens]
@[simp] theorem set_outs (p : Nat) (f : Fld) (v k : Nat) : (s.set p f v k).outs = s.outs := by simp only [State.set, setReg_outs]
@[simp] theorem set_col (p : Nat) (f : Fld) (v k : Nat) : (s.set p f v k).col = s.col := by simp only [State.set, setReg_col]
@[simp] theorem set_cal (p : Nat) (f : Fld) (v k : Nat) : (s.set p f v k).cal = s.cal := by simp only [State.set, setReg_cal]
@[simp] theorem set_snd (p : Nat) (f : Fld) (v k : Nat) : (s.set p f v k).snd = s.snd := by simp only [State.set, setReg_snd]
@[simp] theorem set_net (p : Nat) (f : Fld) (v k : Nat) : (s.set p f v k).net = s.net := by simp only [State.set, setReg_net]
@[simp] theorem set_bru (p : Nat) (f : Fld) (v k : Nat) : (s.set p f v k).bru = s.bru := by simp only [State.set, setReg_bru]
@[simp] theorem set_fab (p : Nat) (f : Fld) (v k : Nat) : (s.set p f v k).fab = s.fab := by simp only [State.set, setReg_fab]
@[simp] theorem set_air (p : Nat) (f : Fld) (v k : Nat) : (s.set p f v k).air = s.air := by simp only [State.set, setReg_air]
@[simp] theorem set_dma (p : Nat) (f : Fld) (v k : Nat) : (s.set p f v k).dma = s.dma := by simp only [State.set, setReg_dma]
@[simp] theorem set_dmaRem (p : Nat) (f : Fld) (v k : Nat) : (s.set p f v k).dmaRem = s.dmaRem := by simp only [State.set, setReg_dmaRem]
@[simp] theorem set_que (p : Nat) (f : Fld) (v k : Nat) : (s.set p f v k).que = s.que := by simp only [State.set, setReg_que]
@[simp] theorem set_boot (p : Nat) (f : Fld) (v k : Nat) : (s.set p f v k).boot = s.boot := by simp only [State.set, setReg_boot]
@[simp] theorem set_pwr (p : Nat) (f : Fld) (v k : Nat) : (s.set p f v k).pwr = s.pwr := by simp only [State.set, setReg_pwr]
@[simp] theorem set_svc (p : Nat) (f : Fld) (v k : Nat) : (s.set p f v k).svc = s.svc := by simp only [State.set, setReg_svc]
@[simp] theorem set_tap (p : Nat) (f : Fld) (v k : Nat) : (s.set p f v k).tap = s.tap := by simp only [State.set, setReg_tap]
@[simp] theorem set_freeCtr (p : Nat) (f : Fld) (v k : Nat) : (s.set p f v k).freeCtr = s.freeCtr := by simp only [State.set, setReg_freeCtr]
@[simp] theorem set_out (p : Nat) (f : Fld) (v k : Nat) : (s.set p f v k).out = s.out := by simp only [State.set, setReg_out]
@[simp] theorem set_pending (p : Nat) (f : Fld) (v k : Nat) : (s.set p f v k).pending = s.pending := by simp only [State.set, setReg_pending]

@[simp] theorem fault_staged (p c off a : Nat) : (s.fault p c off a).staged = s.staged := by unfold State.fault; exact (setReg_staged ..).trans (setReg_staged ..)
@[simp] theorem fault_ctr (p c off a : Nat) : (s.fault p c off a).ctr = s.ctr := by unfold State.fault; exact (setReg_ctr ..).trans (setReg_ctr ..)
@[simp] theorem fault_mem (p c off a : Nat) : (s.fault p c off a).mem = s.mem := by unfold State.fault; exact (setReg_mem ..).trans (setReg_mem ..)
@[simp] theorem fault_mm (p c off a : Nat) : (s.fault p c off a).mm = s.mm := by unfold State.fault; exact (setReg_mm ..).trans (setReg_mm ..)
@[simp] theorem fault_time (p c off a : Nat) : (s.fault p c off a).time = s.time := by unfold State.fault; exact (setReg_time ..).trans (setReg_time ..)
@[simp] theorem fault_cmt (p c off a : Nat) : (s.fault p c off a).cmt = s.cmt := by unfold State.fault; exact (setReg_cmt ..).trans (setReg_cmt ..)
@[simp] theorem fault_cores (p c off a : Nat) : (s.fault p c off a).cores = s.cores := by unfold State.fault; exact (setReg_cores ..).trans (setReg_cores ..)
@[simp] theorem fault_tsk (p c off a : Nat) : (s.fault p c off a).tsk = s.tsk := by unfold State.fault; exact (setReg_tsk ..).trans (setReg_tsk ..)
@[simp] theorem fault_evc (p c off a : Nat) : (s.fault p c off a).evc = s.evc := by unfold State.fault; exact (setReg_evc ..).trans (setReg_evc ..)
@[simp] theorem fault_vens (p c off a : Nat) : (s.fault p c off a).vens = s.vens := by unfold State.fault; exact (setReg_vens ..).trans (setReg_vens ..)
@[simp] theorem fault_outs (p c off a : Nat) : (s.fault p c off a).outs = s.outs := by unfold State.fault; exact (setReg_outs ..).trans (setReg_outs ..)
@[simp] theorem fault_col (p c off a : Nat) : (s.fault p c off a).col = s.col := by unfold State.fault; exact (setReg_col ..).trans (setReg_col ..)
@[simp] theorem fault_cal (p c off a : Nat) : (s.fault p c off a).cal = s.cal := by unfold State.fault; exact (setReg_cal ..).trans (setReg_cal ..)
@[simp] theorem fault_snd (p c off a : Nat) : (s.fault p c off a).snd = s.snd := by unfold State.fault; exact (setReg_snd ..).trans (setReg_snd ..)
@[simp] theorem fault_net (p c off a : Nat) : (s.fault p c off a).net = s.net := by unfold State.fault; exact (setReg_net ..).trans (setReg_net ..)
@[simp] theorem fault_bru (p c off a : Nat) : (s.fault p c off a).bru = s.bru := by unfold State.fault; exact (setReg_bru ..).trans (setReg_bru ..)
@[simp] theorem fault_fab (p c off a : Nat) : (s.fault p c off a).fab = s.fab := by unfold State.fault; exact (setReg_fab ..).trans (setReg_fab ..)
@[simp] theorem fault_air (p c off a : Nat) : (s.fault p c off a).air = s.air := by unfold State.fault; exact (setReg_air ..).trans (setReg_air ..)
@[simp] theorem fault_dma (p c off a : Nat) : (s.fault p c off a).dma = s.dma := by unfold State.fault; exact (setReg_dma ..).trans (setReg_dma ..)
@[simp] theorem fault_dmaRem (p c off a : Nat) : (s.fault p c off a).dmaRem = s.dmaRem := by unfold State.fault; exact (setReg_dmaRem ..).trans (setReg_dmaRem ..)
@[simp] theorem fault_que (p c off a : Nat) : (s.fault p c off a).que = s.que := by unfold State.fault; exact (setReg_que ..).trans (setReg_que ..)
@[simp] theorem fault_boot (p c off a : Nat) : (s.fault p c off a).boot = s.boot := by unfold State.fault; exact (setReg_boot ..).trans (setReg_boot ..)
@[simp] theorem fault_pwr (p c off a : Nat) : (s.fault p c off a).pwr = s.pwr := by unfold State.fault; exact (setReg_pwr ..).trans (setReg_pwr ..)
@[simp] theorem fault_svc (p c off a : Nat) : (s.fault p c off a).svc = s.svc := by unfold State.fault; exact (setReg_svc ..).trans (setReg_svc ..)
@[simp] theorem fault_tap (p c off a : Nat) : (s.fault p c off a).tap = s.tap := by unfold State.fault; exact (setReg_tap ..).trans (setReg_tap ..)
@[simp] theorem fault_freeCtr (p c off a : Nat) : (s.fault p c off a).freeCtr = s.freeCtr := by unfold State.fault; exact (setReg_freeCtr ..).trans (setReg_freeCtr ..)
@[simp] theorem fault_out (p c off a : Nat) : (s.fault p c off a).out = s.out := by unfold State.fault; exact (setReg_out ..).trans (setReg_out ..)
@[simp] theorem fault_pending (p c off a : Nat) : (s.fault p c off a).pending = s.pending := by unfold State.fault; exact (setReg_pending ..).trans (setReg_pending ..)

@[simp] theorem setStat_regs (p : Nat) (f : Fld) (v k : Nat) : (s.setStat p f v k).regs = s.regs := rfl
@[simp] theorem setStat_staged (p : Nat) (f : Fld) (v k : Nat) : (s.setStat p f v k).staged = s.staged := rfl
@[simp] theorem setStat_mem (p : Nat) (f : Fld) (v k : Nat) : (s.setStat p f v k).mem = s.mem := rfl
@[simp] theorem setStat_mm (p : Nat) (f : Fld) (v k : Nat) : (s.setStat p f v k).mm = s.mm := rfl
@[simp] theorem setStat_time (p : Nat) (f : Fld) (v k : Nat) : (s.setStat p f v k).time = s.time := rfl
@[simp] theorem setStat_cmt (p : Nat) (f : Fld) (v k : Nat) : (s.setStat p f v k).cmt = s.cmt := rfl
@[simp] theorem setStat_cores (p : Nat) (f : Fld) (v k : Nat) : (s.setStat p f v k).cores = s.cores := rfl
@[simp] theorem setStat_tsk (p : Nat) (f : Fld) (v k : Nat) : (s.setStat p f v k).tsk = s.tsk := rfl
@[simp] theorem setStat_evc (p : Nat) (f : Fld) (v k : Nat) : (s.setStat p f v k).evc = s.evc := rfl
@[simp] theorem setStat_vens (p : Nat) (f : Fld) (v k : Nat) : (s.setStat p f v k).vens = s.vens := rfl
@[simp] theorem setStat_outs (p : Nat) (f : Fld) (v k : Nat) : (s.setStat p f v k).outs = s.outs := rfl
@[simp] theorem setStat_col (p : Nat) (f : Fld) (v k : Nat) : (s.setStat p f v k).col = s.col := rfl
@[simp] theorem setStat_cal (p : Nat) (f : Fld) (v k : Nat) : (s.setStat p f v k).cal = s.cal := rfl
@[simp] theorem setStat_snd (p : Nat) (f : Fld) (v k : Nat) : (s.setStat p f v k).snd = s.snd := rfl
@[simp] theorem setStat_net (p : Nat) (f : Fld) (v k : Nat) : (s.setStat p f v k).net = s.net := rfl
@[simp] theorem setStat_bru (p : Nat) (f : Fld) (v k : Nat) : (s.setStat p f v k).bru = s.bru := rfl
@[simp] theorem setStat_fab (p : Nat) (f : Fld) (v k : Nat) : (s.setStat p f v k).fab = s.fab := rfl
@[simp] theorem setStat_air (p : Nat) (f : Fld) (v k : Nat) : (s.setStat p f v k).air = s.air := rfl
@[simp] theorem setStat_dma (p : Nat) (f : Fld) (v k : Nat) : (s.setStat p f v k).dma = s.dma := rfl
@[simp] theorem setStat_dmaRem (p : Nat) (f : Fld) (v k : Nat) : (s.setStat p f v k).dmaRem = s.dmaRem := rfl
@[simp] theorem setStat_que (p : Nat) (f : Fld) (v k : Nat) : (s.setStat p f v k).que = s.que := rfl
@[simp] theorem setStat_boot (p : Nat) (f : Fld) (v k : Nat) : (s.setStat p f v k).boot = s.boot := rfl
@[simp] theorem setStat_pwr (p : Nat) (f : Fld) (v k : Nat) : (s.setStat p f v k).pwr = s.pwr := rfl
@[simp] theorem setStat_svc (p : Nat) (f : Fld) (v k : Nat) : (s.setStat p f v k).svc = s.svc := rfl
@[simp] theorem setStat_tap (p : Nat) (f : Fld) (v k : Nat) : (s.setStat p f v k).tap = s.tap := rfl
@[simp] theorem setStat_freeCtr (p : Nat) (f : Fld) (v k : Nat) : (s.setStat p f v k).freeCtr = s.freeCtr := rfl
@[simp] theorem setStat_out (p : Nat) (f : Fld) (v k : Nat) : (s.setStat p f v k).out = s.out := rfl
@[simp] theorem setStat_pending (p : Nat) (f : Fld) (v k : Nat) : (s.setStat p f v k).pending = s.pending := rfl

@[simp] theorem bump_regs (p : Nat) (f : Fld) (n k : Nat) : (s.bump p f n k).regs = s.regs := by unfold State.bump; split <;> [rfl; exact setStat_regs ..]
@[simp] theorem bump_staged (p : Nat) (f : Fld) (n k : Nat) : (s.bump p f n k).staged = s.staged := by unfold State.bump; split <;> [rfl; exact setStat_staged ..]
@[simp] theorem bump_mem (p : Nat) (f : Fld) (n k : Nat) : (s.bump p f n k).mem = s.mem := by unfold State.bump; split <;> [rfl; exact setStat_mem ..]
@[simp] theorem bump_mm (p : Nat) (f : Fld) (n k : Nat) : (s.bump p f n k).mm = s.mm := by unfold State.bump; split <;> [rfl; exact setStat_mm ..]
@[simp] theorem bump_time (p : Nat) (f : Fld) (n k : Nat) : (s.bump p f n k).time = s.time := by unfold State.bump; split <;> [rfl; exact setStat_time ..]
@[simp] theorem bump_cmt (p : Nat) (f : Fld) (n k : Nat) : (s.bump p f n k).cmt = s.cmt := by unfold State.bump; split <;> [rfl; exact setStat_cmt ..]
@[simp] theorem bump_cores (p : Nat) (f : Fld) (n k : Nat) : (s.bump p f n k).cores = s.cores := by unfold State.bump; split <;> [rfl; exact setStat_cores ..]
@[simp] theorem bump_tsk (p : Nat) (f : Fld) (n k : Nat) : (s.bump p f n k).tsk = s.tsk := by unfold State.bump; split <;> [rfl; exact setStat_tsk ..]
@[simp] theorem bump_evc (p : Nat) (f : Fld) (n k : Nat) : (s.bump p f n k).evc = s.evc := by unfold State.bump; split <;> [rfl; exact setStat_evc ..]
@[simp] theorem bump_vens (p : Nat) (f : Fld) (n k : Nat) : (s.bump p f n k).vens = s.vens := by unfold State.bump; split <;> [rfl; exact setStat_vens ..]
@[simp] theorem bump_outs (p : Nat) (f : Fld) (n k : Nat) : (s.bump p f n k).outs = s.outs := by unfold State.bump; split <;> [rfl; exact setStat_outs ..]
@[simp] theorem bump_col (p : Nat) (f : Fld) (n k : Nat) : (s.bump p f n k).col = s.col := by unfold State.bump; split <;> [rfl; exact setStat_col ..]
@[simp] theorem bump_cal (p : Nat) (f : Fld) (n k : Nat) : (s.bump p f n k).cal = s.cal := by unfold State.bump; split <;> [rfl; exact setStat_cal ..]
@[simp] theorem bump_snd (p : Nat) (f : Fld) (n k : Nat) : (s.bump p f n k).snd = s.snd := by unfold State.bump; split <;> [rfl; exact setStat_snd ..]
@[simp] theorem bump_net (p : Nat) (f : Fld) (n k : Nat) : (s.bump p f n k).net = s.net := by unfold State.bump; split <;> [rfl; exact setStat_net ..]
@[simp] theorem bump_bru (p : Nat) (f : Fld) (n k : Nat) : (s.bump p f n k).bru = s.bru := by unfold State.bump; split <;> [rfl; exact setStat_bru ..]
@[simp] theorem bump_fab (p : Nat) (f : Fld) (n k : Nat) : (s.bump p f n k).fab = s.fab := by unfold State.bump; split <;> [rfl; exact setStat_fab ..]
@[simp] theorem bump_air (p : Nat) (f : Fld) (n k : Nat) : (s.bump p f n k).air = s.air := by unfold State.bump; split <;> [rfl; exact setStat_air ..]
@[simp] theorem bump_dma (p : Nat) (f : Fld) (n k : Nat) : (s.bump p f n k).dma = s.dma := by unfold State.bump; split <;> [rfl; exact setStat_dma ..]
@[simp] theorem bump_dmaRem (p : Nat) (f : Fld) (n k : Nat) : (s.bump p f n k).dmaRem = s.dmaRem := by unfold State.bump; split <;> [rfl; exact setStat_dmaRem ..]
@[simp] theorem bump_que (p : Nat) (f : Fld) (n k : Nat) : (s.bump p f n k).que = s.que := by unfold State.bump; split <;> [rfl; exact setStat_que ..]
@[simp] theorem bump_boot (p : Nat) (f : Fld) (n k : Nat) : (s.bump p f n k).boot = s.boot := by unfold State.bump; split <;> [rfl; exact setStat_boot ..]
@[simp] theorem bump_pwr (p : Nat) (f : Fld) (n k : Nat) : (s.bump p f n k).pwr = s.pwr := by unfold State.bump; split <;> [rfl; exact setStat_pwr ..]
@[simp] theorem bump_svc (p : Nat) (f : Fld) (n k : Nat) : (s.bump p f n k).svc = s.svc := by unfold State.bump; split <;> [rfl; exact setStat_svc ..]
@[simp] theorem bump_tap (p : Nat) (f : Fld) (n k : Nat) : (s.bump p f n k).tap = s.tap := by unfold State.bump; split <;> [rfl; exact setStat_tap ..]
@[simp] theorem bump_freeCtr (p : Nat) (f : Fld) (n k : Nat) : (s.bump p f n k).freeCtr = s.freeCtr := by unfold State.bump; split <;> [rfl; exact setStat_freeCtr ..]
@[simp] theorem bump_out (p : Nat) (f : Fld) (n k : Nat) : (s.bump p f n k).out = s.out := by unfold State.bump; split <;> [rfl; exact setStat_out ..]
@[simp] theorem bump_pending (p : Nat) (f : Fld) (n k : Nat) : (s.bump p f n k).pending = s.pending := by unfold State.bump; split <;> [rfl; exact setStat_pending ..]

@[simp] theorem emit_regs (o : Out) : (s.emit o).regs = s.regs := rfl
@[simp] theorem emit_staged (o : Out) : (s.emit o).staged = s.staged := rfl
@[simp] theorem emit_ctr (o : Out) : (s.emit o).ctr = s.ctr := rfl
@[simp] theorem emit_mem (o : Out) : (s.emit o).mem = s.mem := rfl
@[simp] theorem emit_mm (o : Out) : (s.emit o).mm = s.mm := rfl
@[simp] theorem emit_time (o : Out) : (s.emit o).time = s.time := rfl
@[simp] theorem emit_cmt (o : Out) : (s.emit o).cmt = s.cmt := rfl
@[simp] theorem emit_cores (o : Out) : (s.emit o).cores = s.cores := rfl
@[simp] theorem emit_tsk (o : Out) : (s.emit o).tsk = s.tsk := rfl
@[simp] theorem emit_evc (o : Out) : (s.emit o).evc = s.evc := rfl
@[simp] theorem emit_vens (o : Out) : (s.emit o).vens = s.vens := rfl
@[simp] theorem emit_outs (o : Out) : (s.emit o).outs = s.outs := rfl
@[simp] theorem emit_col (o : Out) : (s.emit o).col = s.col := rfl
@[simp] theorem emit_cal (o : Out) : (s.emit o).cal = s.cal := rfl
@[simp] theorem emit_snd (o : Out) : (s.emit o).snd = s.snd := rfl
@[simp] theorem emit_net (o : Out) : (s.emit o).net = s.net := rfl
@[simp] theorem emit_bru (o : Out) : (s.emit o).bru = s.bru := rfl
@[simp] theorem emit_fab (o : Out) : (s.emit o).fab = s.fab := rfl
@[simp] theorem emit_air (o : Out) : (s.emit o).air = s.air := rfl
@[simp] theorem emit_dma (o : Out) : (s.emit o).dma = s.dma := rfl
@[simp] theorem emit_dmaRem (o : Out) : (s.emit o).dmaRem = s.dmaRem := rfl
@[simp] theorem emit_que (o : Out) : (s.emit o).que = s.que := rfl
@[simp] theorem emit_boot (o : Out) : (s.emit o).boot = s.boot := rfl
@[simp] theorem emit_pwr (o : Out) : (s.emit o).pwr = s.pwr := rfl
@[simp] theorem emit_svc (o : Out) : (s.emit o).svc = s.svc := rfl
@[simp] theorem emit_tap (o : Out) : (s.emit o).tap = s.tap := rfl
@[simp] theorem emit_freeCtr (o : Out) : (s.emit o).freeCtr = s.freeCtr := rfl
@[simp] theorem emit_pending (o : Out) : (s.emit o).pending = s.pending := rfl

@[simp] theorem free_regs : (s.free.1).regs = s.regs := rfl
@[simp] theorem free_staged : (s.free.1).staged = s.staged := rfl
@[simp] theorem free_ctr : (s.free.1).ctr = s.ctr := rfl
@[simp] theorem free_mem : (s.free.1).mem = s.mem := rfl
@[simp] theorem free_mm : (s.free.1).mm = s.mm := rfl
@[simp] theorem free_time : (s.free.1).time = s.time := rfl
@[simp] theorem free_cmt : (s.free.1).cmt = s.cmt := rfl
@[simp] theorem free_cores : (s.free.1).cores = s.cores := rfl
@[simp] theorem free_tsk : (s.free.1).tsk = s.tsk := rfl
@[simp] theorem free_evc : (s.free.1).evc = s.evc := rfl
@[simp] theorem free_vens : (s.free.1).vens = s.vens := rfl
@[simp] theorem free_outs : (s.free.1).outs = s.outs := rfl
@[simp] theorem free_col : (s.free.1).col = s.col := rfl
@[simp] theorem free_cal : (s.free.1).cal = s.cal := rfl
@[simp] theorem free_snd : (s.free.1).snd = s.snd := rfl
@[simp] theorem free_net : (s.free.1).net = s.net := rfl
@[simp] theorem free_bru : (s.free.1).bru = s.bru := rfl
@[simp] theorem free_fab : (s.free.1).fab = s.fab := rfl
@[simp] theorem free_air : (s.free.1).air = s.air := rfl
@[simp] theorem free_dma : (s.free.1).dma = s.dma := rfl
@[simp] theorem free_dmaRem : (s.free.1).dmaRem = s.dmaRem := rfl
@[simp] theorem free_que : (s.free.1).que = s.que := rfl
@[simp] theorem free_boot : (s.free.1).boot = s.boot := rfl
@[simp] theorem free_pwr : (s.free.1).pwr = s.pwr := rfl
@[simp] theorem free_svc : (s.free.1).svc = s.svc := rfl
@[simp] theorem free_tap : (s.free.1).tap = s.tap := rfl
@[simp] theorem free_out : (s.free.1).out = s.out := rfl
@[simp] theorem free_pending : (s.free.1).pending = s.pending := rfl

@[simp] theorem updCore_regs (c : Nat) (f : Core → Core) : (s.updCore c f).regs = s.regs := rfl
@[simp] theorem updCore_staged (c : Nat) (f : Core → Core) : (s.updCore c f).staged = s.staged := rfl
@[simp] theorem updCore_ctr (c : Nat) (f : Core → Core) : (s.updCore c f).ctr = s.ctr := rfl
@[simp] theorem updCore_mem (c : Nat) (f : Core → Core) : (s.updCore c f).mem = s.mem := rfl
@[simp] theorem updCore_mm (c : Nat) (f : Core → Core) : (s.updCore c f).mm = s.mm := rfl
@[simp] theorem updCore_time (c : Nat) (f : Core → Core) : (s.updCore c f).time = s.time := rfl
@[simp] theorem updCore_cmt (c : Nat) (f : Core → Core) : (s.updCore c f).cmt = s.cmt := rfl
@[simp] theorem updCore_tsk (c : Nat) (f : Core → Core) : (s.updCore c f).tsk = s.tsk := rfl
@[simp] theorem updCore_evc (c : Nat) (f : Core → Core) : (s.updCore c f).evc = s.evc := rfl
@[simp] theorem updCore_vens (c : Nat) (f : Core → Core) : (s.updCore c f).vens = s.vens := rfl
@[simp] theorem updCore_outs (c : Nat) (f : Core → Core) : (s.updCore c f).outs = s.outs := rfl
@[simp] theorem updCore_col (c : Nat) (f : Core → Core) : (s.updCore c f).col = s.col := rfl
@[simp] theorem updCore_cal (c : Nat) (f : Core → Core) : (s.updCore c f).cal = s.cal := rfl
@[simp] theorem updCore_snd (c : Nat) (f : Core → Core) : (s.updCore c f).snd = s.snd := rfl
@[simp] theorem updCore_net (c : Nat) (f : Core → Core) : (s.updCore c f).net = s.net := rfl
@[simp] theorem updCore_bru (c : Nat) (f : Core → Core) : (s.updCore c f).bru = s.bru := rfl
@[simp] theorem updCore_fab (c : Nat) (f : Core → Core) : (s.updCore c f).fab = s.fab := rfl
@[simp] theorem updCore_air (c : Nat) (f : Core → Core) : (s.updCore c f).air = s.air := rfl
@[simp] theorem updCore_dma (c : Nat) (f : Core → Core) : (s.updCore c f).dma = s.dma := rfl
@[simp] theorem updCore_dmaRem (c : Nat) (f : Core → Core) : (s.updCore c f).dmaRem = s.dmaRem := rfl
@[simp] theorem updCore_que (c : Nat) (f : Core → Core) : (s.updCore c f).que = s.que := rfl
@[simp] theorem updCore_boot (c : Nat) (f : Core → Core) : (s.updCore c f).boot = s.boot := rfl
@[simp] theorem updCore_pwr (c : Nat) (f : Core → Core) : (s.updCore c f).pwr = s.pwr := rfl
@[simp] theorem updCore_svc (c : Nat) (f : Core → Core) : (s.updCore c f).svc = s.svc := rfl
@[simp] theorem updCore_tap (c : Nat) (f : Core → Core) : (s.updCore c f).tap = s.tap := rfl
@[simp] theorem updCore_freeCtr (c : Nat) (f : Core → Core) : (s.updCore c f).freeCtr = s.freeCtr := rfl
@[simp] theorem updCore_out (c : Nat) (f : Core → Core) : (s.updCore c f).out = s.out := rfl
@[simp] theorem updCore_pending (c : Nat) (f : Core → Core) : (s.updCore c f).pending = s.pending := rfl

@[simp] theorem updTime_regs (f : TimeState → TimeState) : (updTime s f).regs = s.regs := rfl
@[simp] theorem updTime_staged (f : TimeState → TimeState) : (updTime s f).staged = s.staged := rfl
@[simp] theorem updTime_ctr (f : TimeState → TimeState) : (updTime s f).ctr = s.ctr := rfl
@[simp] theorem updTime_mem (f : TimeState → TimeState) : (updTime s f).mem = s.mem := rfl
@[simp] theorem updTime_mm (f : TimeState → TimeState) : (updTime s f).mm = s.mm := rfl
@[simp] theorem updTime_cmt (f : TimeState → TimeState) : (updTime s f).cmt = s.cmt := rfl
@[simp] theorem updTime_cores (f : TimeState → TimeState) : (updTime s f).cores = s.cores := rfl
@[simp] theorem updTime_tsk (f : TimeState → TimeState) : (updTime s f).tsk = s.tsk := rfl
@[simp] theorem updTime_evc (f : TimeState → TimeState) : (updTime s f).evc = s.evc := rfl
@[simp] theorem updTime_vens (f : TimeState → TimeState) : (updTime s f).vens = s.vens := rfl
@[simp] theorem updTime_outs (f : TimeState → TimeState) : (updTime s f).outs = s.outs := rfl
@[simp] theorem updTime_col (f : TimeState → TimeState) : (updTime s f).col = s.col := rfl
@[simp] theorem updTime_cal (f : TimeState → TimeState) : (updTime s f).cal = s.cal := rfl
@[simp] theorem updTime_snd (f : TimeState → TimeState) : (updTime s f).snd = s.snd := rfl
@[simp] theorem updTime_net (f : TimeState → TimeState) : (updTime s f).net = s.net := rfl
@[simp] theorem updTime_bru (f : TimeState → TimeState) : (updTime s f).bru = s.bru := rfl
@[simp] theorem updTime_fab (f : TimeState → TimeState) : (updTime s f).fab = s.fab := rfl
@[simp] theorem updTime_air (f : TimeState → TimeState) : (updTime s f).air = s.air := rfl
@[simp] theorem updTime_dma (f : TimeState → TimeState) : (updTime s f).dma = s.dma := rfl
@[simp] theorem updTime_dmaRem (f : TimeState → TimeState) : (updTime s f).dmaRem = s.dmaRem := rfl
@[simp] theorem updTime_que (f : TimeState → TimeState) : (updTime s f).que = s.que := rfl
@[simp] theorem updTime_boot (f : TimeState → TimeState) : (updTime s f).boot = s.boot := rfl
@[simp] theorem updTime_pwr (f : TimeState → TimeState) : (updTime s f).pwr = s.pwr := rfl
@[simp] theorem updTime_svc (f : TimeState → TimeState) : (updTime s f).svc = s.svc := rfl
@[simp] theorem updTime_tap (f : TimeState → TimeState) : (updTime s f).tap = s.tap := rfl
@[simp] theorem updTime_freeCtr (f : TimeState → TimeState) : (updTime s f).freeCtr = s.freeCtr := rfl
@[simp] theorem updTime_out (f : TimeState → TimeState) : (updTime s f).out = s.out := rfl
@[simp] theorem updTime_pending (f : TimeState → TimeState) : (updTime s f).pending = s.pending := rfl

@[simp] theorem updCal_regs (f : CalState → CalState) : (updCal s f).regs = s.regs := rfl
@[simp] theorem updCal_staged (f : CalState → CalState) : (updCal s f).staged = s.staged := rfl
@[simp] theorem updCal_ctr (f : CalState → CalState) : (updCal s f).ctr = s.ctr := rfl
@[simp] theorem updCal_mem (f : CalState → CalState) : (updCal s f).mem = s.mem := rfl
@[simp] theorem updCal_mm (f : CalState → CalState) : (updCal s f).mm = s.mm := rfl
@[simp] theorem updCal_time (f : CalState → CalState) : (updCal s f).time = s.time := rfl
@[simp] theorem updCal_cmt (f : CalState → CalState) : (updCal s f).cmt = s.cmt := rfl
@[simp] theorem updCal_cores (f : CalState → CalState) : (updCal s f).cores = s.cores := rfl
@[simp] theorem updCal_tsk (f : CalState → CalState) : (updCal s f).tsk = s.tsk := rfl
@[simp] theorem updCal_evc (f : CalState → CalState) : (updCal s f).evc = s.evc := rfl
@[simp] theorem updCal_vens (f : CalState → CalState) : (updCal s f).vens = s.vens := rfl
@[simp] theorem updCal_outs (f : CalState → CalState) : (updCal s f).outs = s.outs := rfl
@[simp] theorem updCal_col (f : CalState → CalState) : (updCal s f).col = s.col := rfl
@[simp] theorem updCal_snd (f : CalState → CalState) : (updCal s f).snd = s.snd := rfl
@[simp] theorem updCal_net (f : CalState → CalState) : (updCal s f).net = s.net := rfl
@[simp] theorem updCal_bru (f : CalState → CalState) : (updCal s f).bru = s.bru := rfl
@[simp] theorem updCal_fab (f : CalState → CalState) : (updCal s f).fab = s.fab := rfl
@[simp] theorem updCal_air (f : CalState → CalState) : (updCal s f).air = s.air := rfl
@[simp] theorem updCal_dma (f : CalState → CalState) : (updCal s f).dma = s.dma := rfl
@[simp] theorem updCal_dmaRem (f : CalState → CalState) : (updCal s f).dmaRem = s.dmaRem := rfl
@[simp] theorem updCal_que (f : CalState → CalState) : (updCal s f).que = s.que := rfl
@[simp] theorem updCal_boot (f : CalState → CalState) : (updCal s f).boot = s.boot := rfl
@[simp] theorem updCal_pwr (f : CalState → CalState) : (updCal s f).pwr = s.pwr := rfl
@[simp] theorem updCal_svc (f : CalState → CalState) : (updCal s f).svc = s.svc := rfl
@[simp] theorem updCal_tap (f : CalState → CalState) : (updCal s f).tap = s.tap := rfl
@[simp] theorem updCal_freeCtr (f : CalState → CalState) : (updCal s f).freeCtr = s.freeCtr := rfl
@[simp] theorem updCal_out (f : CalState → CalState) : (updCal s f).out = s.out := rfl
@[simp] theorem updCal_pending (f : CalState → CalState) : (updCal s f).pending = s.pending := rfl

@[simp] theorem updDma_regs (c : Nat) (f : DmaCh → DmaCh) : (updDma s c f).regs = s.regs := rfl
@[simp] theorem updDma_staged (c : Nat) (f : DmaCh → DmaCh) : (updDma s c f).staged = s.staged := rfl
@[simp] theorem updDma_ctr (c : Nat) (f : DmaCh → DmaCh) : (updDma s c f).ctr = s.ctr := rfl
@[simp] theorem updDma_mem (c : Nat) (f : DmaCh → DmaCh) : (updDma s c f).mem = s.mem := rfl
@[simp] theorem updDma_mm (c : Nat) (f : DmaCh → DmaCh) : (updDma s c f).mm = s.mm := rfl
@[simp] theorem updDma_time (c : Nat) (f : DmaCh → DmaCh) : (updDma s c f).time = s.time := rfl
@[simp] theorem updDma_cmt (c : Nat) (f : DmaCh → DmaCh) : (updDma s c f).cmt = s.cmt := rfl
@[simp] theorem updDma_cores (c : Nat) (f : DmaCh → DmaCh) : (updDma s c f).cores = s.cores := rfl
@[simp] theorem updDma_tsk (c : Nat) (f : DmaCh → DmaCh) : (updDma s c f).tsk = s.tsk := rfl
@[simp] theorem updDma_evc (c : Nat) (f : DmaCh → DmaCh) : (updDma s c f).evc = s.evc := rfl
@[simp] theorem updDma_vens (c : Nat) (f : DmaCh → DmaCh) : (updDma s c f).vens = s.vens := rfl
@[simp] theorem updDma_outs (c : Nat) (f : DmaCh → DmaCh) : (updDma s c f).outs = s.outs := rfl
@[simp] theorem updDma_col (c : Nat) (f : DmaCh → DmaCh) : (updDma s c f).col = s.col := rfl
@[simp] theorem updDma_cal (c : Nat) (f : DmaCh → DmaCh) : (updDma s c f).cal = s.cal := rfl
@[simp] theorem updDma_snd (c : Nat) (f : DmaCh → DmaCh) : (updDma s c f).snd = s.snd := rfl
@[simp] theorem updDma_net (c : Nat) (f : DmaCh → DmaCh) : (updDma s c f).net = s.net := rfl
@[simp] theorem updDma_bru (c : Nat) (f : DmaCh → DmaCh) : (updDma s c f).bru = s.bru := rfl
@[simp] theorem updDma_fab (c : Nat) (f : DmaCh → DmaCh) : (updDma s c f).fab = s.fab := rfl
@[simp] theorem updDma_air (c : Nat) (f : DmaCh → DmaCh) : (updDma s c f).air = s.air := rfl
@[simp] theorem updDma_dmaRem (c : Nat) (f : DmaCh → DmaCh) : (updDma s c f).dmaRem = s.dmaRem := rfl
@[simp] theorem updDma_que (c : Nat) (f : DmaCh → DmaCh) : (updDma s c f).que = s.que := rfl
@[simp] theorem updDma_boot (c : Nat) (f : DmaCh → DmaCh) : (updDma s c f).boot = s.boot := rfl
@[simp] theorem updDma_pwr (c : Nat) (f : DmaCh → DmaCh) : (updDma s c f).pwr = s.pwr := rfl
@[simp] theorem updDma_svc (c : Nat) (f : DmaCh → DmaCh) : (updDma s c f).svc = s.svc := rfl
@[simp] theorem updDma_tap (c : Nat) (f : DmaCh → DmaCh) : (updDma s c f).tap = s.tap := rfl
@[simp] theorem updDma_freeCtr (c : Nat) (f : DmaCh → DmaCh) : (updDma s c f).freeCtr = s.freeCtr := rfl
@[simp] theorem updDma_out (c : Nat) (f : DmaCh → DmaCh) : (updDma s c f).out = s.out := rfl
@[simp] theorem updDma_pending (c : Nat) (f : DmaCh → DmaCh) : (updDma s c f).pending = s.pending := rfl

@[simp] theorem updVen_regs (n : Nat) (f : Ven → Ven) : (updVen s n f).regs = s.regs := rfl
@[simp] theorem updVen_staged (n : Nat) (f : Ven → Ven) : (updVen s n f).staged = s.staged := rfl
@[simp] theorem updVen_ctr (n : Nat) (f : Ven → Ven) : (updVen s n f).ctr = s.ctr := rfl
@[simp] theorem updVen_mem (n : Nat) (f : Ven → Ven) : (updVen s n f).mem = s.mem := rfl
@[simp] theorem updVen_mm (n : Nat) (f : Ven → Ven) : (updVen s n f).mm = s.mm := rfl
@[simp] theorem updVen_time (n : Nat) (f : Ven → Ven) : (updVen s n f).time = s.time := rfl
@[simp] theorem updVen_cmt (n : Nat) (f : Ven → Ven) : (updVen s n f).cmt = s.cmt := rfl
@[simp] theorem updVen_cores (n : Nat) (f : Ven → Ven) : (updVen s n f).cores = s.cores := rfl
@[simp] theorem updVen_tsk (n : Nat) (f : Ven → Ven) : (updVen s n f).tsk = s.tsk := rfl
@[simp] theorem updVen_evc (n : Nat) (f : Ven → Ven) : (updVen s n f).evc = s.evc := rfl
@[simp] theorem updVen_outs (n : Nat) (f : Ven → Ven) : (updVen s n f).outs = s.outs := rfl
@[simp] theorem updVen_col (n : Nat) (f : Ven → Ven) : (updVen s n f).col = s.col := rfl
@[simp] theorem updVen_cal (n : Nat) (f : Ven → Ven) : (updVen s n f).cal = s.cal := rfl
@[simp] theorem updVen_snd (n : Nat) (f : Ven → Ven) : (updVen s n f).snd = s.snd := rfl
@[simp] theorem updVen_net (n : Nat) (f : Ven → Ven) : (updVen s n f).net = s.net := rfl
@[simp] theorem updVen_bru (n : Nat) (f : Ven → Ven) : (updVen s n f).bru = s.bru := rfl
@[simp] theorem updVen_fab (n : Nat) (f : Ven → Ven) : (updVen s n f).fab = s.fab := rfl
@[simp] theorem updVen_air (n : Nat) (f : Ven → Ven) : (updVen s n f).air = s.air := rfl
@[simp] theorem updVen_dma (n : Nat) (f : Ven → Ven) : (updVen s n f).dma = s.dma := rfl
@[simp] theorem updVen_dmaRem (n : Nat) (f : Ven → Ven) : (updVen s n f).dmaRem = s.dmaRem := rfl
@[simp] theorem updVen_que (n : Nat) (f : Ven → Ven) : (updVen s n f).que = s.que := rfl
@[simp] theorem updVen_boot (n : Nat) (f : Ven → Ven) : (updVen s n f).boot = s.boot := rfl
@[simp] theorem updVen_pwr (n : Nat) (f : Ven → Ven) : (updVen s n f).pwr = s.pwr := rfl
@[simp] theorem updVen_svc (n : Nat) (f : Ven → Ven) : (updVen s n f).svc = s.svc := rfl
@[simp] theorem updVen_tap (n : Nat) (f : Ven → Ven) : (updVen s n f).tap = s.tap := rfl
@[simp] theorem updVen_freeCtr (n : Nat) (f : Ven → Ven) : (updVen s n f).freeCtr = s.freeCtr := rfl
@[simp] theorem updVen_out (n : Nat) (f : Ven → Ven) : (updVen s n f).out = s.out := rfl
@[simp] theorem updVen_pending (n : Nat) (f : Ven → Ven) : (updVen s n f).pending = s.pending := rfl

@[simp] theorem updNet_regs (f : NetState → NetState) : (updNet s f).regs = s.regs := rfl
@[simp] theorem updNet_staged (f : NetState → NetState) : (updNet s f).staged = s.staged := rfl
@[simp] theorem updNet_ctr (f : NetState → NetState) : (updNet s f).ctr = s.ctr := rfl
@[simp] theorem updNet_mem (f : NetState → NetState) : (updNet s f).mem = s.mem := rfl
@[simp] theorem updNet_mm (f : NetState → NetState) : (updNet s f).mm = s.mm := rfl
@[simp] theorem updNet_time (f : NetState → NetState) : (updNet s f).time = s.time := rfl
@[simp] theorem updNet_cmt (f : NetState → NetState) : (updNet s f).cmt = s.cmt := rfl
@[simp] theorem updNet_cores (f : NetState → NetState) : (updNet s f).cores = s.cores := rfl
@[simp] theorem updNet_tsk (f : NetState → NetState) : (updNet s f).tsk = s.tsk := rfl
@[simp] theorem updNet_evc (f : NetState → NetState) : (updNet s f).evc = s.evc := rfl
@[simp] theorem updNet_vens (f : NetState → NetState) : (updNet s f).vens = s.vens := rfl
@[simp] theorem updNet_outs (f : NetState → NetState) : (updNet s f).outs = s.outs := rfl
@[simp] theorem updNet_col (f : NetState → NetState) : (updNet s f).col = s.col := rfl
@[simp] theorem updNet_cal (f : NetState → NetState) : (updNet s f).cal = s.cal := rfl
@[simp] theorem updNet_snd (f : NetState → NetState) : (updNet s f).snd = s.snd := rfl
@[simp] theorem updNet_bru (f : NetState → NetState) : (updNet s f).bru = s.bru := rfl
@[simp] theorem updNet_fab (f : NetState → NetState) : (updNet s f).fab = s.fab := rfl
@[simp] theorem updNet_air (f : NetState → NetState) : (updNet s f).air = s.air := rfl
@[simp] theorem updNet_dma (f : NetState → NetState) : (updNet s f).dma = s.dma := rfl
@[simp] theorem updNet_dmaRem (f : NetState → NetState) : (updNet s f).dmaRem = s.dmaRem := rfl
@[simp] theorem updNet_que (f : NetState → NetState) : (updNet s f).que = s.que := rfl
@[simp] theorem updNet_boot (f : NetState → NetState) : (updNet s f).boot = s.boot := rfl
@[simp] theorem updNet_pwr (f : NetState → NetState) : (updNet s f).pwr = s.pwr := rfl
@[simp] theorem updNet_svc (f : NetState → NetState) : (updNet s f).svc = s.svc := rfl
@[simp] theorem updNet_tap (f : NetState → NetState) : (updNet s f).tap = s.tap := rfl
@[simp] theorem updNet_freeCtr (f : NetState → NetState) : (updNet s f).freeCtr = s.freeCtr := rfl
@[simp] theorem updNet_out (f : NetState → NetState) : (updNet s f).out = s.out := rfl
@[simp] theorem updNet_pending (f : NetState → NetState) : (updNet s f).pending = s.pending := rfl

@[simp] theorem updFab_regs (f : FabState → FabState) : (updFab s f).regs = s.regs := rfl
@[simp] theorem updFab_staged (f : FabState → FabState) : (updFab s f).staged = s.staged := rfl
@[simp] theorem updFab_ctr (f : FabState → FabState) : (updFab s f).ctr = s.ctr := rfl
@[simp] theorem updFab_mem (f : FabState → FabState) : (updFab s f).mem = s.mem := rfl
@[simp] theorem updFab_mm (f : FabState → FabState) : (updFab s f).mm = s.mm := rfl
@[simp] theorem updFab_time (f : FabState → FabState) : (updFab s f).time = s.time := rfl
@[simp] theorem updFab_cmt (f : FabState → FabState) : (updFab s f).cmt = s.cmt := rfl
@[simp] theorem updFab_cores (f : FabState → FabState) : (updFab s f).cores = s.cores := rfl
@[simp] theorem updFab_tsk (f : FabState → FabState) : (updFab s f).tsk = s.tsk := rfl
@[simp] theorem updFab_evc (f : FabState → FabState) : (updFab s f).evc = s.evc := rfl
@[simp] theorem updFab_vens (f : FabState → FabState) : (updFab s f).vens = s.vens := rfl
@[simp] theorem updFab_outs (f : FabState → FabState) : (updFab s f).outs = s.outs := rfl
@[simp] theorem updFab_col (f : FabState → FabState) : (updFab s f).col = s.col := rfl
@[simp] theorem updFab_cal (f : FabState → FabState) : (updFab s f).cal = s.cal := rfl
@[simp] theorem updFab_snd (f : FabState → FabState) : (updFab s f).snd = s.snd := rfl
@[simp] theorem updFab_net (f : FabState → FabState) : (updFab s f).net = s.net := rfl
@[simp] theorem updFab_bru (f : FabState → FabState) : (updFab s f).bru = s.bru := rfl
@[simp] theorem updFab_air (f : FabState → FabState) : (updFab s f).air = s.air := rfl
@[simp] theorem updFab_dma (f : FabState → FabState) : (updFab s f).dma = s.dma := rfl
@[simp] theorem updFab_dmaRem (f : FabState → FabState) : (updFab s f).dmaRem = s.dmaRem := rfl
@[simp] theorem updFab_que (f : FabState → FabState) : (updFab s f).que = s.que := rfl
@[simp] theorem updFab_boot (f : FabState → FabState) : (updFab s f).boot = s.boot := rfl
@[simp] theorem updFab_pwr (f : FabState → FabState) : (updFab s f).pwr = s.pwr := rfl
@[simp] theorem updFab_svc (f : FabState → FabState) : (updFab s f).svc = s.svc := rfl
@[simp] theorem updFab_tap (f : FabState → FabState) : (updFab s f).tap = s.tap := rfl
@[simp] theorem updFab_freeCtr (f : FabState → FabState) : (updFab s f).freeCtr = s.freeCtr := rfl
@[simp] theorem updFab_out (f : FabState → FabState) : (updFab s f).out = s.out := rfl
@[simp] theorem updFab_pending (f : FabState → FabState) : (updFab s f).pending = s.pending := rfl

@[simp] theorem updBru_regs (b : Nat) (f : BruPort → BruPort) : (updBru s b f).regs = s.regs := rfl
@[simp] theorem updBru_staged (b : Nat) (f : BruPort → BruPort) : (updBru s b f).staged = s.staged := rfl
@[simp] theorem updBru_ctr (b : Nat) (f : BruPort → BruPort) : (updBru s b f).ctr = s.ctr := rfl
@[simp] theorem updBru_mem (b : Nat) (f : BruPort → BruPort) : (updBru s b f).mem = s.mem := rfl
@[simp] theorem updBru_mm (b : Nat) (f : BruPort → BruPort) : (updBru s b f).mm = s.mm := rfl
@[simp] theorem updBru_time (b : Nat) (f : BruPort → BruPort) : (updBru s b f).time = s.time := rfl
@[simp] theorem updBru_cmt (b : Nat) (f : BruPort → BruPort) : (updBru s b f).cmt = s.cmt := rfl
@[simp] theorem updBru_cores (b : Nat) (f : BruPort → BruPort) : (updBru s b f).cores = s.cores := rfl
@[simp] theorem updBru_tsk (b : Nat) (f : BruPort → BruPort) : (updBru s b f).tsk = s.tsk := rfl
@[simp] theorem updBru_evc (b : Nat) (f : BruPort → BruPort) : (updBru s b f).evc = s.evc := rfl
@[simp] theorem updBru_vens (b : Nat) (f : BruPort → BruPort) : (updBru s b f).vens = s.vens := rfl
@[simp] theorem updBru_outs (b : Nat) (f : BruPort → BruPort) : (updBru s b f).outs = s.outs := rfl
@[simp] theorem updBru_col (b : Nat) (f : BruPort → BruPort) : (updBru s b f).col = s.col := rfl
@[simp] theorem updBru_cal (b : Nat) (f : BruPort → BruPort) : (updBru s b f).cal = s.cal := rfl
@[simp] theorem updBru_snd (b : Nat) (f : BruPort → BruPort) : (updBru s b f).snd = s.snd := rfl
@[simp] theorem updBru_net (b : Nat) (f : BruPort → BruPort) : (updBru s b f).net = s.net := rfl
@[simp] theorem updBru_fab (b : Nat) (f : BruPort → BruPort) : (updBru s b f).fab = s.fab := rfl
@[simp] theorem updBru_air (b : Nat) (f : BruPort → BruPort) : (updBru s b f).air = s.air := rfl
@[simp] theorem updBru_dma (b : Nat) (f : BruPort → BruPort) : (updBru s b f).dma = s.dma := rfl
@[simp] theorem updBru_dmaRem (b : Nat) (f : BruPort → BruPort) : (updBru s b f).dmaRem = s.dmaRem := rfl
@[simp] theorem updBru_que (b : Nat) (f : BruPort → BruPort) : (updBru s b f).que = s.que := rfl
@[simp] theorem updBru_boot (b : Nat) (f : BruPort → BruPort) : (updBru s b f).boot = s.boot := rfl
@[simp] theorem updBru_pwr (b : Nat) (f : BruPort → BruPort) : (updBru s b f).pwr = s.pwr := rfl
@[simp] theorem updBru_svc (b : Nat) (f : BruPort → BruPort) : (updBru s b f).svc = s.svc := rfl
@[simp] theorem updBru_tap (b : Nat) (f : BruPort → BruPort) : (updBru s b f).tap = s.tap := rfl
@[simp] theorem updBru_freeCtr (b : Nat) (f : BruPort → BruPort) : (updBru s b f).freeCtr = s.freeCtr := rfl
@[simp] theorem updBru_out (b : Nat) (f : BruPort → BruPort) : (updBru s b f).out = s.out := rfl
@[simp] theorem updBru_pending (b : Nat) (f : BruPort → BruPort) : (updBru s b f).pending = s.pending := rfl

@[simp] theorem updTap_regs (f : TapState → TapState) : (updTap s f).regs = s.regs := rfl
@[simp] theorem updTap_staged (f : TapState → TapState) : (updTap s f).staged = s.staged := rfl
@[simp] theorem updTap_ctr (f : TapState → TapState) : (updTap s f).ctr = s.ctr := rfl
@[simp] theorem updTap_mem (f : TapState → TapState) : (updTap s f).mem = s.mem := rfl
@[simp] theorem updTap_mm (f : TapState → TapState) : (updTap s f).mm = s.mm := rfl
@[simp] theorem updTap_time (f : TapState → TapState) : (updTap s f).time = s.time := rfl
@[simp] theorem updTap_cmt (f : TapState → TapState) : (updTap s f).cmt = s.cmt := rfl
@[simp] theorem updTap_cores (f : TapState → TapState) : (updTap s f).cores = s.cores := rfl
@[simp] theorem updTap_tsk (f : TapState → TapState) : (updTap s f).tsk = s.tsk := rfl
@[simp] theorem updTap_evc (f : TapState → TapState) : (updTap s f).evc = s.evc := rfl
@[simp] theorem updTap_vens (f : TapState → TapState) : (updTap s f).vens = s.vens := rfl
@[simp] theorem updTap_outs (f : TapState → TapState) : (updTap s f).outs = s.outs := rfl
@[simp] theorem updTap_col (f : TapState → TapState) : (updTap s f).col = s.col := rfl
@[simp] theorem updTap_cal (f : TapState → TapState) : (updTap s f).cal = s.cal := rfl
@[simp] theorem updTap_snd (f : TapState → TapState) : (updTap s f).snd = s.snd := rfl
@[simp] theorem updTap_net (f : TapState → TapState) : (updTap s f).net = s.net := rfl
@[simp] theorem updTap_bru (f : TapState → TapState) : (updTap s f).bru = s.bru := rfl
@[simp] theorem updTap_fab (f : TapState → TapState) : (updTap s f).fab = s.fab := rfl
@[simp] theorem updTap_air (f : TapState → TapState) : (updTap s f).air = s.air := rfl
@[simp] theorem updTap_dma (f : TapState → TapState) : (updTap s f).dma = s.dma := rfl
@[simp] theorem updTap_dmaRem (f : TapState → TapState) : (updTap s f).dmaRem = s.dmaRem := rfl
@[simp] theorem updTap_que (f : TapState → TapState) : (updTap s f).que = s.que := rfl
@[simp] theorem updTap_boot (f : TapState → TapState) : (updTap s f).boot = s.boot := rfl
@[simp] theorem updTap_pwr (f : TapState → TapState) : (updTap s f).pwr = s.pwr := rfl
@[simp] theorem updTap_svc (f : TapState → TapState) : (updTap s f).svc = s.svc := rfl
@[simp] theorem updTap_freeCtr (f : TapState → TapState) : (updTap s f).freeCtr = s.freeCtr := rfl
@[simp] theorem updTap_out (f : TapState → TapState) : (updTap s f).out = s.out := rfl
@[simp] theorem updTap_pending (f : TapState → TapState) : (updTap s f).pending = s.pending := rfl

@[simp] theorem updPwr_regs (f : PwrState → PwrState) : (updPwr s f).regs = s.regs := rfl
@[simp] theorem updPwr_staged (f : PwrState → PwrState) : (updPwr s f).staged = s.staged := rfl
@[simp] theorem updPwr_ctr (f : PwrState → PwrState) : (updPwr s f).ctr = s.ctr := rfl
@[simp] theorem updPwr_mem (f : PwrState → PwrState) : (updPwr s f).mem = s.mem := rfl
@[simp] theorem updPwr_mm (f : PwrState → PwrState) : (updPwr s f).mm = s.mm := rfl
@[simp] theorem updPwr_time (f : PwrState → PwrState) : (updPwr s f).time = s.time := rfl
@[simp] theorem updPwr_cmt (f : PwrState → PwrState) : (updPwr s f).cmt = s.cmt := rfl
@[simp] theorem updPwr_cores (f : PwrState → PwrState) : (updPwr s f).cores = s.cores := rfl
@[simp] theorem updPwr_tsk (f : PwrState → PwrState) : (updPwr s f).tsk = s.tsk := rfl
@[simp] theorem updPwr_evc (f : PwrState → PwrState) : (updPwr s f).evc = s.evc := rfl
@[simp] theorem updPwr_vens (f : PwrState → PwrState) : (updPwr s f).vens = s.vens := rfl
@[simp] theorem updPwr_outs (f : PwrState → PwrState) : (updPwr s f).outs = s.outs := rfl
@[simp] theorem updPwr_col (f : PwrState → PwrState) : (updPwr s f).col = s.col := rfl
@[simp] theorem updPwr_cal (f : PwrState → PwrState) : (updPwr s f).cal = s.cal := rfl
@[simp] theorem updPwr_snd (f : PwrState → PwrState) : (updPwr s f).snd = s.snd := rfl
@[simp] theorem updPwr_net (f : PwrState → PwrState) : (updPwr s f).net = s.net := rfl
@[simp] theorem updPwr_bru (f : PwrState → PwrState) : (updPwr s f).bru = s.bru := rfl
@[simp] theorem updPwr_fab (f : PwrState → PwrState) : (updPwr s f).fab = s.fab := rfl
@[simp] theorem updPwr_air (f : PwrState → PwrState) : (updPwr s f).air = s.air := rfl
@[simp] theorem updPwr_dma (f : PwrState → PwrState) : (updPwr s f).dma = s.dma := rfl
@[simp] theorem updPwr_dmaRem (f : PwrState → PwrState) : (updPwr s f).dmaRem = s.dmaRem := rfl
@[simp] theorem updPwr_que (f : PwrState → PwrState) : (updPwr s f).que = s.que := rfl
@[simp] theorem updPwr_boot (f : PwrState → PwrState) : (updPwr s f).boot = s.boot := rfl
@[simp] theorem updPwr_svc (f : PwrState → PwrState) : (updPwr s f).svc = s.svc := rfl
@[simp] theorem updPwr_tap (f : PwrState → PwrState) : (updPwr s f).tap = s.tap := rfl
@[simp] theorem updPwr_freeCtr (f : PwrState → PwrState) : (updPwr s f).freeCtr = s.freeCtr := rfl
@[simp] theorem updPwr_out (f : PwrState → PwrState) : (updPwr s f).out = s.out := rfl
@[simp] theorem updPwr_pending (f : PwrState → PwrState) : (updPwr s f).pending = s.pending := rfl

@[simp] theorem updBoot_regs (f : BootState → BootState) : (updBoot s f).regs = s.regs := rfl
@[simp] theorem updBoot_staged (f : BootState → BootState) : (updBoot s f).staged = s.staged := rfl
@[simp] theorem updBoot_ctr (f : BootState → BootState) : (updBoot s f).ctr = s.ctr := rfl
@[simp] theorem updBoot_mem (f : BootState → BootState) : (updBoot s f).mem = s.mem := rfl
@[simp] theorem updBoot_mm (f : BootState → BootState) : (updBoot s f).mm = s.mm := rfl
@[simp] theorem updBoot_time (f : BootState → BootState) : (updBoot s f).time = s.time := rfl
@[simp] theorem updBoot_cmt (f : BootState → BootState) : (updBoot s f).cmt = s.cmt := rfl
@[simp] theorem updBoot_cores (f : BootState → BootState) : (updBoot s f).cores = s.cores := rfl
@[simp] theorem updBoot_tsk (f : BootState → BootState) : (updBoot s f).tsk = s.tsk := rfl
@[simp] theorem updBoot_evc (f : BootState → BootState) : (updBoot s f).evc = s.evc := rfl
@[simp] theorem updBoot_vens (f : BootState → BootState) : (updBoot s f).vens = s.vens := rfl
@[simp] theorem updBoot_outs (f : BootState → BootState) : (updBoot s f).outs = s.outs := rfl
@[simp] theorem updBoot_col (f : BootState → BootState) : (updBoot s f).col = s.col := rfl
@[simp] theorem updBoot_cal (f : BootState → BootState) : (updBoot s f).cal = s.cal := rfl
@[simp] theorem updBoot_snd (f : BootState → BootState) : (updBoot s f).snd = s.snd := rfl
@[simp] theorem updBoot_net (f : BootState → BootState) : (updBoot s f).net = s.net := rfl
@[simp] theorem updBoot_bru (f : BootState → BootState) : (updBoot s f).bru = s.bru := rfl
@[simp] theorem updBoot_fab (f : BootState → BootState) : (updBoot s f).fab = s.fab := rfl
@[simp] theorem updBoot_air (f : BootState → BootState) : (updBoot s f).air = s.air := rfl
@[simp] theorem updBoot_dma (f : BootState → BootState) : (updBoot s f).dma = s.dma := rfl
@[simp] theorem updBoot_dmaRem (f : BootState → BootState) : (updBoot s f).dmaRem = s.dmaRem := rfl
@[simp] theorem updBoot_que (f : BootState → BootState) : (updBoot s f).que = s.que := rfl
@[simp] theorem updBoot_pwr (f : BootState → BootState) : (updBoot s f).pwr = s.pwr := rfl
@[simp] theorem updBoot_svc (f : BootState → BootState) : (updBoot s f).svc = s.svc := rfl
@[simp] theorem updBoot_tap (f : BootState → BootState) : (updBoot s f).tap = s.tap := rfl
@[simp] theorem updBoot_freeCtr (f : BootState → BootState) : (updBoot s f).freeCtr = s.freeCtr := rfl
@[simp] theorem updBoot_out (f : BootState → BootState) : (updBoot s f).out = s.out := rfl
@[simp] theorem updBoot_pending (f : BootState → BootState) : (updBoot s f).pending = s.pending := rfl

@[simp] theorem updAir_regs (f : AirState → AirState) : (updAir s f).regs = s.regs := rfl
@[simp] theorem updAir_staged (f : AirState → AirState) : (updAir s f).staged = s.staged := rfl
@[simp] theorem updAir_ctr (f : AirState → AirState) : (updAir s f).ctr = s.ctr := rfl
@[simp] theorem updAir_mem (f : AirState → AirState) : (updAir s f).mem = s.mem := rfl
@[simp] theorem updAir_mm (f : AirState → AirState) : (updAir s f).mm = s.mm := rfl
@[simp] theorem updAir_time (f : AirState → AirState) : (updAir s f).time = s.time := rfl
@[simp] theorem updAir_cmt (f : AirState → AirState) : (updAir s f).cmt = s.cmt := rfl
@[simp] theorem updAir_cores (f : AirState → AirState) : (updAir s f).cores = s.cores := rfl
@[simp] theorem updAir_tsk (f : AirState → AirState) : (updAir s f).tsk = s.tsk := rfl
@[simp] theorem updAir_evc (f : AirState → AirState) : (updAir s f).evc = s.evc := rfl
@[simp] theorem updAir_vens (f : AirState → AirState) : (updAir s f).vens = s.vens := rfl
@[simp] theorem updAir_outs (f : AirState → AirState) : (updAir s f).outs = s.outs := rfl
@[simp] theorem updAir_col (f : AirState → AirState) : (updAir s f).col = s.col := rfl
@[simp] theorem updAir_cal (f : AirState → AirState) : (updAir s f).cal = s.cal := rfl
@[simp] theorem updAir_snd (f : AirState → AirState) : (updAir s f).snd = s.snd := rfl
@[simp] theorem updAir_net (f : AirState → AirState) : (updAir s f).net = s.net := rfl
@[simp] theorem updAir_bru (f : AirState → AirState) : (updAir s f).bru = s.bru := rfl
@[simp] theorem updAir_fab (f : AirState → AirState) : (updAir s f).fab = s.fab := rfl
@[simp] theorem updAir_dma (f : AirState → AirState) : (updAir s f).dma = s.dma := rfl
@[simp] theorem updAir_dmaRem (f : AirState → AirState) : (updAir s f).dmaRem = s.dmaRem := rfl
@[simp] theorem updAir_que (f : AirState → AirState) : (updAir s f).que = s.que := rfl
@[simp] theorem updAir_boot (f : AirState → AirState) : (updAir s f).boot = s.boot := rfl
@[simp] theorem updAir_pwr (f : AirState → AirState) : (updAir s f).pwr = s.pwr := rfl
@[simp] theorem updAir_svc (f : AirState → AirState) : (updAir s f).svc = s.svc := rfl
@[simp] theorem updAir_tap (f : AirState → AirState) : (updAir s f).tap = s.tap := rfl
@[simp] theorem updAir_freeCtr (f : AirState → AirState) : (updAir s f).freeCtr = s.freeCtr := rfl
@[simp] theorem updAir_out (f : AirState → AirState) : (updAir s f).out = s.out := rfl
@[simp] theorem updAir_pending (f : AirState → AirState) : (updAir s f).pending = s.pending := rfl

@[simp] theorem updSnd_regs (f : SndState → SndState) : (updSnd s f).regs = s.regs := rfl
@[simp] theorem updSnd_staged (f : SndState → SndState) : (updSnd s f).staged = s.staged := rfl
@[simp] theorem updSnd_ctr (f : SndState → SndState) : (updSnd s f).ctr = s.ctr := rfl
@[simp] theorem updSnd_mem (f : SndState → SndState) : (updSnd s f).mem = s.mem := rfl
@[simp] theorem updSnd_mm (f : SndState → SndState) : (updSnd s f).mm = s.mm := rfl
@[simp] theorem updSnd_time (f : SndState → SndState) : (updSnd s f).time = s.time := rfl
@[simp] theorem updSnd_cmt (f : SndState → SndState) : (updSnd s f).cmt = s.cmt := rfl
@[simp] theorem updSnd_cores (f : SndState → SndState) : (updSnd s f).cores = s.cores := rfl
@[simp] theorem updSnd_tsk (f : SndState → SndState) : (updSnd s f).tsk = s.tsk := rfl
@[simp] theorem updSnd_evc (f : SndState → SndState) : (updSnd s f).evc = s.evc := rfl
@[simp] theorem updSnd_vens (f : SndState → SndState) : (updSnd s f).vens = s.vens := rfl
@[simp] theorem updSnd_outs (f : SndState → SndState) : (updSnd s f).outs = s.outs := rfl
@[simp] theorem updSnd_col (f : SndState → SndState) : (updSnd s f).col = s.col := rfl
@[simp] theorem updSnd_cal (f : SndState → SndState) : (updSnd s f).cal = s.cal := rfl
@[simp] theorem updSnd_net (f : SndState → SndState) : (updSnd s f).net = s.net := rfl
@[simp] theorem updSnd_bru (f : SndState → SndState) : (updSnd s f).bru = s.bru := rfl
@[simp] theorem updSnd_fab (f : SndState → SndState) : (updSnd s f).fab = s.fab := rfl
@[simp] theorem updSnd_air (f : SndState → SndState) : (updSnd s f).air = s.air := rfl
@[simp] theorem updSnd_dma (f : SndState → SndState) : (updSnd s f).dma = s.dma := rfl
@[simp] theorem updSnd_dmaRem (f : SndState → SndState) : (updSnd s f).dmaRem = s.dmaRem := rfl
@[simp] theorem updSnd_que (f : SndState → SndState) : (updSnd s f).que = s.que := rfl
@[simp] theorem updSnd_boot (f : SndState → SndState) : (updSnd s f).boot = s.boot := rfl
@[simp] theorem updSnd_pwr (f : SndState → SndState) : (updSnd s f).pwr = s.pwr := rfl
@[simp] theorem updSnd_svc (f : SndState → SndState) : (updSnd s f).svc = s.svc := rfl
@[simp] theorem updSnd_tap (f : SndState → SndState) : (updSnd s f).tap = s.tap := rfl
@[simp] theorem updSnd_freeCtr (f : SndState → SndState) : (updSnd s f).freeCtr = s.freeCtr := rfl
@[simp] theorem updSnd_out (f : SndState → SndState) : (updSnd s f).out = s.out := rfl
@[simp] theorem updSnd_pending (f : SndState → SndState) : (updSnd s f).pending = s.pending := rfl

@[simp] theorem updCore_cores (c : Nat) (f : Core → Core) : (s.updCore c f).cores = updAt s.cores c f := rfl
@[simp] theorem updTime_time (f : TimeState → TimeState) : (updTime s f).time = f s.time := rfl
@[simp] theorem updCal_cal (f : CalState → CalState) : (updCal s f).cal = f s.cal := rfl
@[simp] theorem updDma_dma (c : Nat) (f : DmaCh → DmaCh) : (updDma s c f).dma = updAt s.dma c f := rfl
@[simp] theorem updVen_vens (n : Nat) (f : Ven → Ven) : (updVen s n f).vens = updAt s.vens n f := rfl
@[simp] theorem updNet_net (f : NetState → NetState) : (updNet s f).net = f s.net := rfl
@[simp] theorem updFab_fab (f : FabState → FabState) : (updFab s f).fab = f s.fab := rfl
@[simp] theorem updBru_bru (b : Nat) (f : BruPort → BruPort) : (updBru s b f).bru = updAt s.bru b f := rfl
@[simp] theorem updTap_tap (f : TapState → TapState) : (updTap s f).tap = f s.tap := rfl
@[simp] theorem updPwr_pwr (f : PwrState → PwrState) : (updPwr s f).pwr = f s.pwr := rfl
@[simp] theorem updBoot_boot (f : BootState → BootState) : (updBoot s f).boot = f s.boot := rfl
@[simp] theorem updAir_air (f : AirState → AirState) : (updAir s f).air = f s.air := rfl
@[simp] theorem updSnd_snd (f : SndState → SndState) : (updSnd s f).snd = f s.snd := rfl
@[simp] theorem emit_out (o : Out) : (s.emit o).out = s.out ++ [o] := rfl
@[simp] theorem free_freeCtr : s.free.1.freeCtr = s.freeCtr + 1 := rfl
@[simp] theorem free_value : s.free.2 = Config.free s.freeCtr := rfl

/-! ### Registers and their fields -/

theorem regKey_inj {p p' off off' : Nat} (h : off < 4096) (h' : off' < 4096) : regKey p off = regKey p' off' ↔ p = p' ∧ off = off' := by
  unfold regKey
  omega

/-- A register set reads as the value set. -/
theorem reg_setReg_same {s : State} (h : StoresOk s) (p off : Nat) (v : Word) : (s.setReg p off v).reg p off = v :=
  amGet_regPut_same _ _ h.regs.1

/-- A register set leaves every other register. -/
theorem reg_setReg_ne (p off p' off' : Nat) (v : Word) (h : regKey p' off' ≠ regKey p off) :
    (s.setReg p off v).reg p' off' = s.reg p' off' := by
  unfold State.reg State.setReg
  rw [amGet_regPut_ne _ _ _ _ h]

theorem bitsOf_lt (v : Word) (lsb w : Nat) : bitsOf v lsb w < 2 ^ w := Nat.mod_lt _ (Nat.two_pow_pos w)

theorem setBits_toNat (v : Word) (lsb w x : Nat) (h : lsb + w ≤ 32) :
    (setBits v lsb w x).toNat = v.toNat - bitsOf v lsb w * 2 ^ lsb + (x % 2 ^ w) * 2 ^ lsb := by
  unfold setBits
  rw [BitVec.toNat_ofNat]
  apply Nat.mod_eq_of_lt
  have hv := v.isLt
  have hl : 0 < 2 ^ lsb := Nat.two_pow_pos _
  have hw : 0 < 2 ^ w := Nat.two_pow_pos _
  have hx : x % 2 ^ w < 2 ^ w := Nat.mod_lt _ hw
  have e : v.toNat = v.toNat % 2 ^ lsb + 2 ^ lsb * (bitsOf v lsb w + 2 ^ w * (v.toNat / 2 ^ lsb / 2 ^ w)) := by
    unfold bitsOf
    rw [Nat.mod_add_div, Nat.mod_add_div]
  have hq : v.toNat / 2 ^ lsb / 2 ^ w < 2 ^ (32 - lsb - w) := by
    rw [Nat.div_div_eq_div_mul, ← pow_add]
    apply Nat.div_lt_of_lt_mul
    rw [← pow_add]
    have : lsb + w + (32 - lsb - w) = 32 := by omega
    rw [this]; exact hv
  have hm : v.toNat % 2 ^ lsb < 2 ^ lsb := Nat.mod_lt _ hl
  have hp : 2 ^ lsb * (2 ^ w * 2 ^ (32 - lsb - w)) = 2 ^ 32 := by
    rw [← pow_add, ← pow_add]; congr 1; omega
  generalize v.toNat % 2 ^ lsb = m at *
  generalize v.toNat / 2 ^ lsb / 2 ^ w = q at *
  generalize bitsOf v lsb w = b at *
  generalize x % 2 ^ w = y at *
  generalize 2 ^ lsb = L at *
  generalize 2 ^ w = W at *
  generalize 2 ^ (32 - lsb - w) = R at *
  rw [e]
  have : m + L * (b + W * q) - b * L + y * L = m + L * (y + W * q) := by
    have : L * (b + W * q) = b * L + L * (W * q) := by ring
    rw [this, show m + (b * L + L * (W * q)) - b * L = m + L * (W * q) by omega]; ring
  rw [this]
  have h3 : y + W * q + 1 ≤ W * R := by
    calc y + W * q + 1 ≤ W + W * q := by omega
      _ = W * (q + 1) := by ring
      _ ≤ W * R := Nat.mul_le_mul_left _ hq
  calc m + L * (y + W * q) < L + L * (y + W * q) := by omega
    _ = L * (y + W * q + 1) := by ring
    _ ≤ L * (W * R) := Nat.mul_le_mul_left _ h3
    _ = 2 ^ 32 := hp

/-- A register as the bits below a field, the field, and the bits above. -/
theorem toNat_parts (v : Word) (lsb w : Nat) :
    v.toNat = v.toNat % 2 ^ lsb + 2 ^ lsb * (bitsOf v lsb w + 2 ^ w * (v.toNat / 2 ^ lsb / 2 ^ w)) := by
  unfold bitsOf
  rw [Nat.mod_add_div, Nat.mod_add_div]

/-- A register with a field set, in the same parts. -/
theorem setBits_parts (v : Word) (lsb w x : Nat) (h : lsb + w ≤ 32) : (setBits v lsb w x).toNat =
    v.toNat % 2 ^ lsb + 2 ^ lsb * (x % 2 ^ w + 2 ^ w * (v.toNat / 2 ^ lsb / 2 ^ w)) := by
  rw [setBits_toNat v lsb w x h]
  have e := toNat_parts v lsb w
  generalize v.toNat % 2 ^ lsb = m at *
  generalize v.toNat / 2 ^ lsb / 2 ^ w = q at *
  generalize bitsOf v lsb w = b at *
  rw [e]
  have k : 2 ^ lsb * (b + 2 ^ w * q) = b * 2 ^ lsb + 2 ^ lsb * (2 ^ w * q) := by ring
  rw [k, show m + (b * 2 ^ lsb + 2 ^ lsb * (2 ^ w * q)) - b * 2 ^ lsb = m + 2 ^ lsb * (2 ^ w * q) by omega]
  ring

/-- A field set reads as the value set, cut to its width. -/
theorem bitsOf_setBits_same (v : Word) (lsb w x : Nat) (h : lsb + w ≤ 32) : bitsOf (setBits v lsb w x) lsb w = x % 2 ^ w := by
  have hl : v.toNat % 2 ^ lsb < 2 ^ lsb := Nat.mod_lt _ (Nat.two_pow_pos _)
  have hw : x % 2 ^ w < 2 ^ w := Nat.mod_lt _ (Nat.two_pow_pos _)
  unfold bitsOf
  rw [setBits_parts v lsb w x h, Nat.add_mul_div_left _ _ (Nat.two_pow_pos _), Nat.div_eq_of_lt hl, Nat.zero_add,
    Nat.add_mul_mod_self_left, Nat.mod_eq_of_lt hw]

/-- A field set leaves every field that shares no bit with it. -/
theorem bitsOf_setBits_disjoint (v : Word) (lsb w x l u : Nat) (h : lsb + w ≤ 32) (d : l + u ≤ lsb ∨ lsb + w ≤ l) :
    bitsOf (setBits v lsb w x) l u = bitsOf v l u := by
  have hl : v.toNat % 2 ^ lsb < 2 ^ lsb := Nat.mod_lt _ (Nat.two_pow_pos _)
  have hw : x % 2 ^ w < 2 ^ w := Nat.mod_lt _ (Nat.two_pow_pos _)
  rcases d with d | d
  · have low : ∀ n : Nat, n / 2 ^ l % 2 ^ u = n % 2 ^ lsb / 2 ^ l % 2 ^ u := by
      intro n
      obtain ⟨k, hk⟩ : ∃ k, lsb = l + u + k := ⟨lsb - (l + u), by omega⟩
      rw [hk, pow_add, pow_add, Nat.mul_assoc, Nat.mod_mul_right_div_self, Nat.mod_mod_of_dvd _ (Dvd.intro _ rfl)]
    unfold bitsOf
    rw [low, low v.toNat, setBits_parts v lsb w x h, Nat.add_mul_mod_self_left, Nat.mod_mod]
  · have high : ∀ n : Nat, n / 2 ^ l % 2 ^ u = n / 2 ^ lsb / 2 ^ w / 2 ^ (l - (lsb + w)) % 2 ^ u := by
      intro n
      rw [Nat.div_div_eq_div_mul, Nat.div_div_eq_div_mul, ← pow_add, ← pow_add, show lsb + (w + (l - (lsb + w))) = l by omega]
    unfold bitsOf
    rw [high, high v.toNat, setBits_parts v lsb w x h, Nat.add_mul_div_left _ _ (Nat.two_pow_pos _), Nat.div_eq_of_lt hl, Nat.zero_add,
      Nat.add_mul_div_left _ _ (Nat.two_pow_pos _), Nat.div_eq_of_lt hw, Nat.zero_add]

end Sys2Proof.Machine
end

