-- ==== Sys2Proof/Laws/EventRegs.lean ====
section
/-!
SUPPORT. What an event writes of the register file: the event bits of its page, of EVC and of TSK, and sources of EVC; every other register
reads as before.
-/
namespace Sys2Proof.Machine
open Sys2Proof
set_option linter.all false

/-- The registers that an event of page `p` may write. -/
def EventReg (p q off : Nat) : Prop := (off = 0x010 ∧ (q = p ∨ q = pgEVC ∨ q = pgTSK)) ∨ (q = pgEVC ∧ 0x100 ≤ off)

theorem statMax_regs (s : State) (p : Nat) (f : Fld) (v k : Nat) : (s.statMax p f v k).regs = s.regs := by
  unfold State.statMax State.setStat; split <;> rfl

theorem reg_of_regs {s t : State} (h : t.regs = s.regs) (q off : Nat) : t.reg q off = s.reg q off := by
  unfold State.reg; rw [h]

theorem present_regs (c : Nat) (s : State) : (present c s).regs = s.regs := by
  unfold present
  dsimp only
  have e : (if (s.core c).mode = .idle ∧ (candidate s c (s.core c).cl).isSome then s.updCore c fun k => { k with mode := .run } else s).regs = s.regs := by
    split <;> rfl
  generalize (if (s.core c).mode = .idle ∧ (candidate s c (s.core c).cl).isSome then s.updCore c fun k => { k with mode := .run } else s) = t at *
  repeat' split
  all_goals first
    | exact e
    | (rw [bump_regs, updCore_regs]; exact e)
    | (rw [updCore_regs]; exact e)

theorem presentRound_regs (s : State) : (presentRound s).regs = s.regs := by
  have step : ∀ (l : List Nat) (t : State), (l.foldl (fun s c =>
    let k := s.core c
    if k.mode = .sleep ∧ !k.wakeAsked then
      let wakes := ((listedSources s pgEVC 256).map Src.shared).any fun x =>
          srcBits s x 7 1 = 1 && srcBits s x 6 1 = 1 && srcBits s x 4 2 = c
      let wakesP := ((listedSources s (pgCPU c) 32).map (Src.priv c)).any fun x => srcBits s x 7 1 = 1 && srcBits s x 6 1 = 1
      if wakes || wakesP then (s.updCore c fun k => { k with wakeAsked := true }).bump pgEVC F.EVC_st_WAKES else s
    else present c s) t).regs = t.regs := by
    intro l
    induction l with
    | nil => intro t; rfl
    | cons c l ih =>
      intro t
      rw [List.foldl_cons, ih]
      dsimp only
      repeat' split
      all_goals first
        | rfl
        | (rw [bump_regs, updCore_regs])
        | exact present_regs _ _
  exact step _ _

theorem presentAll_regs (s : State) : (presentAll s).regs = s.regs := by
  have step : ∀ (l : List Nat) (t : State), (l.foldl (fun s _ => presentRound s) t).regs = t.regs := by
    intro l
    induction l with
    | nil => intro t; rfl
    | cons c l ih => intro t; rw [List.foldl_cons, ih, presentRound_regs]
  exact step _ _

section
variable {p q off : Nat}

theorem rawEvt_reg (s : State) (a bit : Nat) (ho : off < 4096) (h : ¬ (off = 0x010 ∧ q = a)) :
    (rawEvt s a bit).reg q off = s.reg q off := by
  unfold rawEvt
  apply reg_setReg_ne
  rw [Ne, regKey_inj ho (by decide)]
  exact fun e => h ⟨e.2, e.1⟩

theorem setSrc_reg (s : State) (n lsb w v : Nat) (hn : n < 256) (ho : off < 4096) (h : ¬ (q = pgEVC ∧ 0x100 ≤ off)) :
    (setSrc s (.shared n) lsb w v).reg q off = s.reg q off := by
  unfold setSrc Src.reg
  apply reg_setReg_ne
  rw [Ne, regKey_inj ho (by show 0x100 + 4 * n < 4096; omega)]
  exact fun e => h ⟨e.1, by have := e.2; simp only at this; omega⟩

theorem pend_reg (s : State) (n : Nat) (hn : n < 256) (ho : off < 4096) (h : ¬ EventReg p q off) :
    (pend s (.shared n)).1.reg q off = s.reg q off := by
  have h' : ¬ (q = pgEVC ∧ 0x100 ≤ off) := fun e => h (.inr e)
  unfold pend
  dsimp only
  repeat' split
  · exact reg_of_regs (bump_regs _ _ _ _ _) _ _
  · rw [setSrc_reg _ _ _ _ _ hn ho h']; exact reg_of_regs (bump_regs _ _ _ _ _) _ _
  · exact setSrc_reg _ _ _ _ _ hn ho h'

theorem enqueue_regs {s t : State} {k : Nat} (h : enqueue s k = some t) : t.regs = s.regs := by
  unfold enqueue at h
  split at h
  · cases h; rw [statMax_regs]
  · cases h

theorem sourcePost_reg (s : State) (n : Nat) (hn : n < 256) (ho : off < 4096) (h : ¬ EventReg p q off) :
    (sourcePost s n).reg q off = s.reg q off := by
  have h' : ¬ (q = pgEVC ∧ 0x100 ≤ off) := fun e => h (.inr e)
  unfold sourcePost
  dsimp only
  split
  · split
    · rfl
    · split
      · next e => rw [reg_of_regs (bump_regs _ _ _ _ _)]; exact reg_of_regs (enqueue_regs e) _ _
      · rw [rawEvt_reg _ _ _ ho (fun e => h (.inl ⟨e.1, .inr (.inr e.2)⟩)), setSrc_reg _ _ _ _ _ hn ho h']
  · rfl

theorem arriveOnce_reg (s : State) (n : Nat) (hn : n < 256) (ho : off < 4096) (h : ¬ EventReg p q off) :
    (arriveOnce n s).reg q off = s.reg q off := by
  have b (u : State) (f : Fld) : (u.bump pgEVC f).reg q off = u.reg q off := reg_of_regs (bump_regs _ _ _ _ _) _ _
  have c : (if 228 ≤ n ∧ n ≤ 235 then s.bump pgEVC F.EVC_st_EXTARR else s).reg q off = s.reg q off := by
    split
    · exact b ..
    · rfl
  unfold arriveOnce
  dsimp only
  generalize (if 228 ≤ n ∧ n ≤ 235 then s.bump pgEVC F.EVC_st_EXTARR else s) = u at c ⊢
  split
  · rw [rawEvt_reg _ _ _ ho (fun e => h (.inl ⟨e.1, .inr (.inl e.2)⟩)), sourcePost_reg _ _ hn ho h, pend_reg _ _ hn ho h, b, c]
  · rw [sourcePost_reg _ _ hn ho h, pend_reg _ _ hn ho h, b, c]

theorem rising_reg (s : State) (n : Nat) (f : State → State) (hn : n < 256) (ho : off < 4096) (h : ¬ EventReg p q off)
    (hf : (f s).reg q off = s.reg q off) : (rising n f s).reg q off = s.reg q off := by
  unfold rising
  dsimp only
  split
  · rw [arriveOnce_reg _ _ hn ho h, hf]
  · exact hf

theorem arrive_reg (s : State) (n : Nat) (hn : n < 256) (ho : off < 4096) (h : ¬ EventReg p q off) :
    (arrive n s).reg q off = s.reg q off := by
  unfold arrive
  rw [reg_of_regs (presentAll_regs _)]
  exact rising_reg _ _ _ (by decide) ho h (rising_reg _ _ _ (by decide) ho h
    (rising_reg _ _ _ (by decide) ho h (arriveOnce_reg _ _ hn ho h)))

/-- An event leaves every register but event bits and sources of EVC. -/
theorem evt_reg (s : State) (bit : Nat) (hp : p < 256) (ho : off < 4096) (h : ¬ EventReg p q off) :
    (s.evt p bit).reg q off = s.reg q off := by
  have e : (rawEvt s p bit).reg q off = s.reg q off := rawEvt_reg _ _ _ ho (fun e => h (.inl ⟨e.1, .inl e.2⟩))
  unfold State.evt withEvents
  dsimp only
  split
  · rw [arrive_reg (p := p) _ _ (by unfold pageSource; split <;> omega) ho h, e]
  · exact e

theorem evtIf_reg (s : State) (b : Bool) (bit : Nat) (hp : p < 256) (ho : off < 4096) (h : ¬ EventReg p q off) :
    (s.evtIf b p bit).reg q off = s.reg q off := by
  unfold State.evtIf
  split
  · exact evt_reg _ _ hp ho h
  · rfl

/-- An event leaves every field of a register that no event writes. -/
theorem evt_get (s : State) (bit : Nat) (f : Fld) (k : Nat) (hp : p < 256) (ho : f.off + f.stride * k < 4096)
    (h : ¬ EventReg p q (f.off + f.stride * k)) : (s.evt p bit).get q f k = s.get q f k := by
  unfold State.get
  rw [evt_reg _ _ hp ho h]
end

end Sys2Proof.Machine
end

