-- ==== Sys2Proof/Laws/Keeps.lean ====
section
/-!
SUPPORT. What every effect of the block keeps: the canonical forms of its stores, the commands that wait, the free values already drawn, and
every part of the state outside the effect's footprint. One lemma per operation says so; the files Laws/Keeps*.lean go through the machine's
files in their order.
-/
namespace Sys2Proof.Machine
open Sys2Proof

/-- What operations keep: the commands that wait, the count of free values drawn, and the parts of a state, but for those that bits of a
number name. -/
structure Keeping where
  queue : List Instr
  free : Nat
  base : State
  may : Nat

/-- A part may change. -/
abbrev Keeping.May (K : Keeping) (i : Nat) : Prop := K.may.testBit i = true

/-- Every part that one set of bits names, another names. -/
structure Sub (a b : Nat) : Prop where
  all : ∀ i, a.testBit i = true → b.testBit i = true

theorem sub_mono {a b c : Nat} (h : Sub b c) (e : a ||| b = b) : Sub a c :=
  ⟨fun i hi => h.all i (by rw [← e, Nat.testBit_or, hi, Bool.true_or])⟩

theorem may_of {a b i : Nat} (h : Sub a b) (e : a.testBit i = true) : b.testBit i = true := h.all i e

variable {K : Keeping}

/-- What the operations keep, over the parts of a state. -/
structure KeepsOf (K : Keeping) (regs : List (Nat × Word)) (staged : List (Nat × Word × Word)) (ctr : List (Nat × Nat)) (mem : List Host.Cell) (mm : MemState) (time : TimeState) (cmt : CmtState) (cores : List Core) (tsk : TskState) (evc : EvcState) (vens : List Ven) (outs : OutState) (col : ColState) (cal : CalState) (snd : SndState) (net : NetState) (bru : List BruPort) (fab : FabState) (air : AirState) (dma : List DmaCh) (dmaRem : List Nat) (que : QueState) (boot : BootState) (pwr : PwrState) (svc : SvcState) (tap : TapState) (freeCtr : Nat) (pending : List Instr) : Prop where
  regsOk : RegFileOk regs
  stagedOk : amSorted staged = true
  ctrOk : amSorted ctr = true
  memOk : Memory.wf mem = true
  queueOk : pending = K.queue
  freeOk : K.free ≤ freeCtr
  stagedOk' : K.May 22 ∨ staged = K.base.staged
  memOk' : K.May 0 ∨ mem = K.base.mem
  mmOk' : K.May 2 ∨ mm = K.base.mm
  timeOk' : K.May 3 ∨ time = K.base.time
  cmtOk' : K.May 4 ∨ cmt = K.base.cmt
  coresOk' : K.May 5 ∨ cores = K.base.cores
  tskOk' : K.May 6 ∨ tsk = K.base.tsk
  evcOk' : K.May 7 ∨ evc = K.base.evc
  vensOk' : K.May 8 ∨ vens = K.base.vens
  outsOk' : K.May 9 ∨ outs = K.base.outs
  colOk' : K.May 10 ∨ col = K.base.col
  calOk' : K.May 11 ∨ cal = K.base.cal
  sndOk' : K.May 12 ∨ snd = K.base.snd
  netOk' : K.May 13 ∨ net = K.base.net
  bruOk' : K.May 14 ∨ bru = K.base.bru
  fabOk' : K.May 15 ∨ fab = K.base.fab
  airOk' : K.May 16 ∨ air = K.base.air
  dmaOk' : K.May 17 ∨ dma = K.base.dma
  dmaRemOk' : K.May 17 ∨ dmaRem = K.base.dmaRem
  queOk' : K.May 18 ∨ que = K.base.que
  bootOk' : K.May 19 ∨ boot = K.base.boot
  pwrOk' : K.May 20 ∨ pwr = K.base.pwr
  svcOk' : K.May 21 ∨ svc = K.base.svc
  tapOk' : K.May 1 ∨ tap = K.base.tap

/-- A state in which everything is kept. -/
structure Keeps (K : Keeping) (s : State) : Prop where
  parts : KeepsOf K s.regs s.staged s.ctr s.mem s.mm s.time s.cmt s.cores s.tsk s.evc s.vens s.outs s.col s.cal s.snd s.net s.bru s.fab s.air s.dma s.dmaRem s.que s.boot s.pwr s.svc s.tap s.freeCtr s.pending

section
variable {regs : List (Nat × Word)} {staged : List (Nat × Word × Word)} {ctr : List (Nat × Nat)} {mem : List Host.Cell} {mm : MemState} {time : TimeState} {cmt : CmtState} {cores : List Core} {tsk : TskState} {evc : EvcState} {vens : List Ven} {outs : OutState} {col : ColState} {cal : CalState} {snd : SndState} {net : NetState} {bru : List BruPort} {fab : FabState} {air : AirState} {dma : List DmaCh} {dmaRem : List Nat} {que : QueState} {boot : BootState} {pwr : PwrState} {svc : SvcState} {tap : TapState} {freeCtr : Nat} {pending : List Instr}

theorem keeps_mk {out} : Keeps K ⟨regs, staged, ctr, mem, mm, time, cmt, cores, tsk, evc, vens, outs, col, cal, snd, net, bru, fab, air, dma, dmaRem, que, boot, pwr, svc, tap, freeCtr, out, pending⟩ ↔ KeepsOf K regs staged ctr mem mm time cmt cores tsk evc vens outs col cal snd net bru fab air dma dmaRem que boot pwr svc tap freeCtr pending :=
  ⟨fun h => h.parts, fun h => ⟨h⟩⟩

/-- A state some of whose parts have changed. -/
theorem keepsOf_upd {s : State} (h : Keeps K s) (e1 : regs = s.regs) (e2 : staged = s.staged) (e3 : ctr = s.ctr) (e4 : mem = s.mem)
    (e5 : freeCtr = s.freeCtr) (e6 : pending = s.pending)
    (p_mm : K.May 2 ∨ mm = s.mm)
    (p_time : K.May 3 ∨ time = s.time)
    (p_cmt : K.May 4 ∨ cmt = s.cmt)
    (p_cores : K.May 5 ∨ cores = s.cores)
    (p_tsk : K.May 6 ∨ tsk = s.tsk)
    (p_evc : K.May 7 ∨ evc = s.evc)
    (p_vens : K.May 8 ∨ vens = s.vens)
    (p_outs : K.May 9 ∨ outs = s.outs)
    (p_col : K.May 10 ∨ col = s.col)
    (p_cal : K.May 11 ∨ cal = s.cal)
    (p_snd : K.May 12 ∨ snd = s.snd)
    (p_net : K.May 13 ∨ net = s.net)
    (p_bru : K.May 14 ∨ bru = s.bru)
    (p_fab : K.May 15 ∨ fab = s.fab)
    (p_air : K.May 16 ∨ air = s.air)
    (p_dma : K.May 17 ∨ dma = s.dma)
    (p_dmaRem : K.May 17 ∨ dmaRem = s.dmaRem)
    (p_que : K.May 18 ∨ que = s.que)
    (p_boot : K.May 19 ∨ boot = s.boot)
    (p_pwr : K.May 20 ∨ pwr = s.pwr)
    (p_svc : K.May 21 ∨ svc = s.svc)
    (p_tap : K.May 1 ∨ tap = s.tap)
    : KeepsOf K regs staged ctr mem mm time cmt cores tsk evc vens outs col cal snd net bru fab air dma dmaRem que boot pwr svc tap freeCtr pending := by
  subst e1 e2 e3 e4 e5 e6
  have k := h.parts
  exact ⟨k.regsOk, k.stagedOk, k.ctrOk, k.memOk, k.queueOk, k.freeOk,
    k.stagedOk', k.memOk', p_mm.elim .inl fun e => e ▸ k.mmOk', p_time.elim .inl fun e => e ▸ k.timeOk', p_cmt.elim .inl fun e => e ▸ k.cmtOk', p_cores.elim .inl fun e => e ▸ k.coresOk', p_tsk.elim .inl fun e => e ▸ k.tskOk', p_evc.elim .inl fun e => e ▸ k.evcOk', p_vens.elim .inl fun e => e ▸ k.vensOk', p_outs.elim .inl fun e => e ▸ k.outsOk', p_col.elim .inl fun e => e ▸ k.colOk', p_cal.elim .inl fun e => e ▸ k.calOk', p_snd.elim .inl fun e => e ▸ k.sndOk', p_net.elim .inl fun e => e ▸ k.netOk', p_bru.elim .inl fun e => e ▸ k.bruOk', p_fab.elim .inl fun e => e ▸ k.fabOk', p_air.elim .inl fun e => e ▸ k.airOk', p_dma.elim .inl fun e => e ▸ k.dmaOk', p_dmaRem.elim .inl fun e => e ▸ k.dmaRemOk', p_que.elim .inl fun e => e ▸ k.queOk', p_boot.elim .inl fun e => e ▸ k.bootOk', p_pwr.elim .inl fun e => e ▸ k.pwrOk', p_svc.elim .inl fun e => e ▸ k.svcOk', p_tap.elim .inl fun e => e ▸ k.tapOk'⟩

theorem keepsOf_regs {r' : List (Nat × Word)} (hr : RegFileOk r') (h : KeepsOf K regs staged ctr mem mm time cmt cores tsk evc vens outs col cal snd net bru fab air dma dmaRem que boot pwr svc tap freeCtr pending) :
    KeepsOf K (r') staged ctr mem mm time cmt cores tsk evc vens outs col cal snd net bru fab air dma dmaRem que boot pwr svc tap freeCtr pending :=
  ⟨hr, h.stagedOk, h.ctrOk, h.memOk, h.queueOk, h.freeOk, h.stagedOk', h.memOk', h.mmOk', h.timeOk', h.cmtOk', h.coresOk', h.tskOk', h.evcOk', h.vensOk', h.outsOk', h.colOk', h.calOk', h.sndOk', h.netOk', h.bruOk', h.fabOk', h.airOk', h.dmaOk', h.dmaRemOk', h.queOk', h.bootOk', h.pwrOk', h.svcOk', h.tapOk'⟩

theorem keepsOf_regsFilter {f : Nat × Word → Bool} (h : KeepsOf K regs staged ctr mem mm time cmt cores tsk evc vens outs col cal snd net bru fab air dma dmaRem que boot pwr svc tap freeCtr pending) :
    KeepsOf K (regs.filter f) staged ctr mem mm time cmt cores tsk evc vens outs col cal snd net bru fab air dma dmaRem que boot pwr svc tap freeCtr pending :=
  ⟨regFileOk_filter f h.regsOk, h.stagedOk, h.ctrOk, h.memOk, h.queueOk, h.freeOk, h.stagedOk', h.memOk', h.mmOk', h.timeOk', h.cmtOk', h.coresOk', h.tskOk', h.evcOk', h.vensOk', h.outsOk', h.colOk', h.calOk', h.sndOk', h.netOk', h.bruOk', h.fabOk', h.airOk', h.dmaOk', h.dmaRemOk', h.queOk', h.bootOk', h.pwrOk', h.svcOk', h.tapOk'⟩

theorem keepsOf_regsNil  (h : KeepsOf K regs staged ctr mem mm time cmt cores tsk evc vens outs col cal snd net bru fab air dma dmaRem que boot pwr svc tap freeCtr pending) :
    KeepsOf K ([]) staged ctr mem mm time cmt cores tsk evc vens outs col cal snd net bru fab air dma dmaRem que boot pwr svc tap freeCtr pending :=
  ⟨regFileOk_nil, h.stagedOk, h.ctrOk, h.memOk, h.queueOk, h.freeOk, h.stagedOk', h.memOk', h.mmOk', h.timeOk', h.cmtOk', h.coresOk', h.tskOk', h.evcOk', h.vensOk', h.outsOk', h.colOk', h.calOk', h.sndOk', h.netOk', h.bruOk', h.fabOk', h.airOk', h.dmaOk', h.dmaRemOk', h.queOk', h.bootOk', h.pwrOk', h.svcOk', h.tapOk'⟩

theorem keepsOf_stagedNil (m : K.May 22) (h : KeepsOf K regs staged ctr mem mm time cmt cores tsk evc vens outs col cal snd net bru fab air dma dmaRem que boot pwr svc tap freeCtr pending) :
    KeepsOf K regs ([]) ctr mem mm time cmt cores tsk evc vens outs col cal snd net bru fab air dma dmaRem que boot pwr svc tap freeCtr pending :=
  ⟨h.regsOk, rfl, h.ctrOk, h.memOk, h.queueOk, h.freeOk, .inl m, h.memOk', h.mmOk', h.timeOk', h.cmtOk', h.coresOk', h.tskOk', h.evcOk', h.vensOk', h.outsOk', h.colOk', h.calOk', h.sndOk', h.netOk', h.bruOk', h.fabOk', h.airOk', h.dmaOk', h.dmaRemOk', h.queOk', h.bootOk', h.pwrOk', h.svcOk', h.tapOk'⟩

theorem keepsOf_stagedSet {a : Nat} {v : Word × Word} (m : K.May 22) (h : KeepsOf K regs staged ctr mem mm time cmt cores tsk evc vens outs col cal snd net bru fab air dma dmaRem que boot pwr svc tap freeCtr pending) :
    KeepsOf K regs (amSet staged a v) ctr mem mm time cmt cores tsk evc vens outs col cal snd net bru fab air dma dmaRem que boot pwr svc tap freeCtr pending :=
  ⟨h.regsOk, amSorted_amSet a v h.stagedOk, h.ctrOk, h.memOk, h.queueOk, h.freeOk, .inl m, h.memOk', h.mmOk', h.timeOk', h.cmtOk', h.coresOk', h.tskOk', h.evcOk', h.vensOk', h.outsOk', h.colOk', h.calOk', h.sndOk', h.netOk', h.bruOk', h.fabOk', h.airOk', h.dmaOk', h.dmaRemOk', h.queOk', h.bootOk', h.pwrOk', h.svcOk', h.tapOk'⟩

theorem keepsOf_ctr {c' : List (Nat × Nat)} (hc : amSorted c' = true) (h : KeepsOf K regs staged ctr mem mm time cmt cores tsk evc vens outs col cal snd net bru fab air dma dmaRem que boot pwr svc tap freeCtr pending) :
    KeepsOf K regs staged (c') mem mm time cmt cores tsk evc vens outs col cal snd net bru fab air dma dmaRem que boot pwr svc tap freeCtr pending :=
  ⟨h.regsOk, h.stagedOk, hc, h.memOk, h.queueOk, h.freeOk, h.stagedOk', h.memOk', h.mmOk', h.timeOk', h.cmtOk', h.coresOk', h.tskOk', h.evcOk', h.vensOk', h.outsOk', h.colOk', h.calOk', h.sndOk', h.netOk', h.bruOk', h.fabOk', h.airOk', h.dmaOk', h.dmaRemOk', h.queOk', h.bootOk', h.pwrOk', h.svcOk', h.tapOk'⟩

theorem keepsOf_ctrFilter {f : Nat × Nat → Bool} (h : KeepsOf K regs staged ctr mem mm time cmt cores tsk evc vens outs col cal snd net bru fab air dma dmaRem que boot pwr svc tap freeCtr pending) :
    KeepsOf K regs staged (ctr.filter f) mem mm time cmt cores tsk evc vens outs col cal snd net bru fab air dma dmaRem que boot pwr svc tap freeCtr pending :=
  ⟨h.regsOk, h.stagedOk, amSorted_filter f h.ctrOk, h.memOk, h.queueOk, h.freeOk, h.stagedOk', h.memOk', h.mmOk', h.timeOk', h.cmtOk', h.coresOk', h.tskOk', h.evcOk', h.vensOk', h.outsOk', h.colOk', h.calOk', h.sndOk', h.netOk', h.bruOk', h.fabOk', h.airOk', h.dmaOk', h.dmaRemOk', h.queOk', h.bootOk', h.pwrOk', h.svcOk', h.tapOk'⟩

theorem keepsOf_memPutAll {a : Nat} {l : List Byte} (m : K.May 0) (h : KeepsOf K regs staged ctr mem mm time cmt cores tsk evc vens outs col cal snd net bru fab air dma dmaRem que boot pwr svc tap freeCtr pending) :
    KeepsOf K regs staged ctr (memPutAll mem a l) mm time cmt cores tsk evc vens outs col cal snd net bru fab air dma dmaRem que boot pwr svc tap freeCtr pending :=
  ⟨h.regsOk, h.stagedOk, h.ctrOk, memory_wf_memPutAll a l h.memOk, h.queueOk, h.freeOk, h.stagedOk', .inl m, h.mmOk', h.timeOk', h.cmtOk', h.coresOk', h.tskOk', h.evcOk', h.vensOk', h.outsOk', h.colOk', h.calOk', h.sndOk', h.netOk', h.bruOk', h.fabOk', h.airOk', h.dmaOk', h.dmaRemOk', h.queOk', h.bootOk', h.pwrOk', h.svcOk', h.tapOk'⟩

theorem keepsOf_memFilter {f : Host.Cell → Bool} (m : K.May 0) (h : KeepsOf K regs staged ctr mem mm time cmt cores tsk evc vens outs col cal snd net bru fab air dma dmaRem que boot pwr svc tap freeCtr pending) :
    KeepsOf K regs staged ctr (mem.filter f) mm time cmt cores tsk evc vens outs col cal snd net bru fab air dma dmaRem que boot pwr svc tap freeCtr pending :=
  ⟨h.regsOk, h.stagedOk, h.ctrOk, memory_wf_filter f h.memOk, h.queueOk, h.freeOk, h.stagedOk', .inl m, h.mmOk', h.timeOk', h.cmtOk', h.coresOk', h.tskOk', h.evcOk', h.vensOk', h.outsOk', h.colOk', h.calOk', h.sndOk', h.netOk', h.bruOk', h.fabOk', h.airOk', h.dmaOk', h.dmaRemOk', h.queOk', h.bootOk', h.pwrOk', h.svcOk', h.tapOk'⟩

theorem keepsOf_free  (h : KeepsOf K regs staged ctr mem mm time cmt cores tsk evc vens outs col cal snd net bru fab air dma dmaRem que boot pwr svc tap freeCtr pending) :
    KeepsOf K regs staged ctr mem mm time cmt cores tsk evc vens outs col cal snd net bru fab air dma dmaRem que boot pwr svc tap (freeCtr + 1) pending :=
  ⟨h.regsOk, h.stagedOk, h.ctrOk, h.memOk, h.queueOk, Nat.le_succ_of_le h.freeOk, h.stagedOk', h.memOk', h.mmOk', h.timeOk', h.cmtOk', h.coresOk', h.tskOk', h.evcOk', h.vensOk', h.outsOk', h.colOk', h.calOk', h.sndOk', h.netOk', h.bruOk', h.fabOk', h.airOk', h.dmaOk', h.dmaRemOk', h.queOk', h.bootOk', h.pwrOk', h.svcOk', h.tapOk'⟩

end

theorem keeps_ite {c : Prop} [Decidable c] {s t : State} (hs : Keeps K s) (ht : Keeps K t) : Keeps K (if c then s else t) := by
  split
  · exact hs
  · exact ht

theorem keeps_foldl {α : Type} {f : State → α → State} {l : List α} {s : State} (hf : ∀ s x, Keeps K s → Keeps K (f s x))
    (h : Keeps K s) : Keeps K (l.foldl f s) := by
  induction l generalizing s with
  | nil => exact h
  | cons x t ih => exact ih (hf s x h)

theorem keeps_foldl_fst {α β : Type} {f : State × β → α → State × β} {l : List α} {p : State × β}
    (hf : ∀ p x, Keeps K p.1 → Keeps K (f p x).1) (h : Keeps K p.1) : Keeps K (l.foldl f p).1 := by
  induction l generalizing p with
  | nil => exact h
  | cons x t ih => exact ih (hf p x h)

theorem keeps_of_fst {β : Type} {p : State × β} {t : State} {v : β} (e : p = (t, v)) (h : Keeps K p.1) : Keeps K t := by
  subst e; exact h

/-- A state that an operation may answer keeps them. -/
structure KeepsO (K : Keeping) (o : Option State) : Prop where
  all : ∀ t, o = some t → Keeps K t

theorem keepsO_some {s : State} (h : Keeps K s) : KeepsO K (some s) := ⟨fun _ e => Option.some.inj e ▸ h⟩

theorem keepsO_none : KeepsO K none := ⟨fun _ e => by simp at e⟩

theorem keepsO_map {α : Type} {o : Option α} {f : α → State} (h : ∀ x, Keeps K (f x)) : KeepsO K (o.map f) :=
  ⟨fun t e => by
    obtain ⟨x, -, rfl⟩ := Option.map_eq_some_iff.1 e
    exact h x⟩

theorem keeps_getD {o : Option State} {s : State} (ho : KeepsO K o) (h : Keeps K s) : Keeps K (o.getD s) := by
  cases o with
  | none => exact h
  | some t => exact ho.all t rfl

theorem keeps_of_some {o : Option State} {t : State} (e : o = some t) (h : KeepsO K o) : Keeps K t := h.all t e

/-- The state of a pair keeps them. -/
structure KeepsP {β : Type} (K : Keeping) (p : State × β) : Prop where
  fst : Keeps K p.1

/-- An effect that a register write may have keeps them. -/
structure KeepsF (K : Keeping) (o : Option (State → State)) : Prop where
  all : ∀ f, o = some f → ∀ s, Keeps K s → Keeps K (f s)

theorem keepsF_some {f : State → State} (h : ∀ s, Keeps K s → Keeps K (f s)) : KeepsF K (some f) :=
  ⟨fun _ e => Option.some.inj e ▸ h⟩

theorem keepsF_none : KeepsF K none := ⟨fun _ e => by simp at e⟩

theorem keeps_of_effect {o : Option (State → State)} {f : State → State} {s : State} (e : o = some f) (ho : KeepsF K o) (h : Keeps K s) :
    Keeps K (f s) := ho.all f e s h

/-! ### Work that reads the frame store -/

/-- Work that reads the frame store keeps them, ended early or not. -/
structure KeepsM {α : Type} (K : Keeping) (m : RdM α) : Prop where
  run : ∀ s, Keeps K s → Keeps K (OptionT.run m s).2

theorem keeps_runM {α : Type} {m : RdM α} {s : State} (hm : KeepsM K m) (h : Keeps K s) : Keeps K (OptionT.run m s).2 := hm.run s h

theorem keeps_of_snd {β : Type} {p : β × State} {t : State} {v : β} (e : p = (v, t)) (h : Keeps K p.2) : Keeps K t := by
  subst e; exact h

theorem keepsM_pure {α : Type} (a : α) : KeepsM K (pure a : RdM α) := ⟨fun _ h => h⟩

theorem keepsM_get : KeepsM K (get : RdM State) := ⟨fun _ h => h⟩

theorem keepsM_modify {f : State → State} (hf : ∀ s, Keeps K s → Keeps K (f s)) : KeepsM K (modify f : RdM PUnit) :=
  ⟨fun s h => hf s h⟩

theorem keepsM_bind {α β : Type} {m : RdM α} {f : α → RdM β} (hm : KeepsM K m) (hf : ∀ a, KeepsM K (f a)) : KeepsM K (m >>= f) := by
  constructor
  intro s h
  have h1 := hm.run s h
  change Keeps K (OptionT.run (OptionT.bind m f) s).2
  simp only [OptionT.bind, OptionT.run, OptionT.mk] at h1 ⊢
  change Keeps K ((fun p : Option α × State => (match p.1 with | some a => f a | none => pure none : StateM State (Option β)) p.2) (m s)).2
  generalize m s = p at h1
  obtain ⟨o, t⟩ := p
  cases o with
  | none => exact h1
  | some a => exact (hf a).run t h1

theorem keepsM_mapM {α β : Type} {f : α → RdM β} (l : List α) (hf : ∀ a, KeepsM K (f a)) : KeepsM K (l.mapM f) := by
  induction l with
  | nil => exact keepsM_pure []
  | cons x t ih =>
    rw [List.mapM_cons]
    exact keepsM_bind (hf x) fun _ => keepsM_bind ih fun _ => keepsM_pure _

end Sys2Proof.Machine
end

