-- ==== Sys2Proof/Laws/KeepsOps.lean ====
section
/-!
SUPPORT. What the operations of Machine/Ops.lean keep.
-/
namespace Sys2Proof.Machine
open Sys2Proof

variable {K : Keeping}

theorem keeps_setReg (s b c d) (h0 : Keeps K s) : Keeps K (State.setReg s b c d) := by
  exact ⟨keepsOf_regs (regFileOk_regPut _ _ h0.parts.regsOk) h0.parts⟩


theorem keeps_set (s b c d e) (h0 : Keeps K s) : Keeps K (State.set s b c d e) := by
  unfold State.set
  repeat' first
    | with_reducible assumption
    | with_reducible apply keeps_setReg
    | dsimp -zeta -zetaHave only


theorem keeps_setStat (s b c d e) (h0 : Keeps K s) : Keeps K (State.setStat s b c d e) := by
  exact ⟨keepsOf_ctr (amSorted_amSet _ _ h0.parts.ctrOk) h0.parts⟩


theorem keeps_bump (s b c d e) (h0 : Keeps K s) : Keeps K (State.bump s b c d e) := by
  unfold State.bump
  repeat' first
    | with_reducible assumption
    | with_reducible apply keeps_setStat
    | with_reducible refine keeps_of_fst (by with_reducible assumption) ?_
    | dsimp -zeta -zetaHave only
    | split


theorem keeps_statMax (s b c d e) (h0 : Keeps K s) : Keeps K (State.statMax s b c d e) := by
  unfold State.statMax
  repeat' first
    | with_reducible assumption
    | with_reducible apply keeps_setStat
    | with_reducible refine keeps_of_fst (by with_reducible assumption) ?_
    | dsimp -zeta -zetaHave only
    | split


theorem keeps_free (s) (h0 : Keeps K s) : Keeps K (State.free s).1 := by
  exact ⟨keepsOf_free h0.parts⟩


theorem keeps_emit (s b) (h0 : Keeps K s) : Keeps K (State.emit s b) := by
  unfold State.emit
  repeat' first
    | with_reducible assumption
    | exact Or.inr rfl
    | simp only [↓keeps_mk]
    | refine keepsOf_upd ?_ rfl rfl rfl rfl rfl rfl ?_ ?_ ?_ ?_ ?_ ?_ ?_ ?_ ?_ ?_ ?_ ?_ ?_ ?_ ?_ ?_ ?_ ?_ ?_ ?_ ?_ ?_
    | dsimp -zeta -zetaHave only


theorem keeps_fault (s b c d e) (h0 : Keeps K s) : Keeps K (State.fault s b c d e) := by
  unfold State.fault
  repeat' first
    | with_reducible assumption
    | (extract_lets +onlyGivenNames x; clear_value x)
    | extract_lets +onlyGivenNames x
    | with_reducible apply keeps_setReg
    | dsimp -zeta -zetaHave only


end Sys2Proof.Machine
end

