-- ==== Sys2Proof/Laws/KeepsEvc.lean ====
section
/-!
SUPPORT. What the operations of Machine/Evc.lean keep.
-/
namespace Sys2Proof.Machine
open Sys2Proof

variable {K : Keeping}

theorem keeps_setTask (s b c) (h0 : Keeps K s) (hp : Sub 0x40 K.may) : Keeps K (State.setTask s b c) := by
  unfold State.setTask
  repeat' first
    | with_reducible assumption
    | exact sub_mono hp (by decide)
    | (extract_lets +onlyGivenNames x; clear_value x)
    | extract_lets +onlyGivenNames x
    | exact Or.inr rfl
    | exact Or.inl (may_of hp (by decide))
    | simp only [↓keeps_mk]
    | refine keepsOf_upd ?_ rfl rfl rfl rfl rfl rfl ?_ ?_ ?_ ?_ ?_ ?_ ?_ ?_ ?_ ?_ ?_ ?_ ?_ ?_ ?_ ?_ ?_ ?_ ?_ ?_ ?_ ?_
    | with_reducible refine keeps_of_fst (by with_reducible assumption) ?_
    | dsimp -zeta -zetaHave only
    | split


theorem keeps_updCore (s b c) (h0 : Keeps K s) (hp : Sub 0x20 K.may) : Keeps K (State.updCore s b c) := by
  unfold State.updCore
  repeat' first
    | with_reducible assumption
    | exact sub_mono hp (by decide)
    | exact Or.inr rfl
    | exact Or.inl (may_of hp (by decide))
    | simp only [↓keeps_mk]
    | refine keepsOf_upd ?_ rfl rfl rfl rfl rfl rfl ?_ ?_ ?_ ?_ ?_ ?_ ?_ ?_ ?_ ?_ ?_ ?_ ?_ ?_ ?_ ?_ ?_ ?_ ?_ ?_ ?_ ?_
    | dsimp -zeta -zetaHave only


theorem keeps_setSrc (s b c d e) (h0 : Keeps K s) : Keeps K (setSrc s b c d e) := by
  unfold setSrc
  repeat' first
    | with_reducible assumption
    | with_reducible apply keeps_setReg
    | dsimp -zeta -zetaHave only


theorem keeps_pend (s b) (h0 : Keeps K s) : Keeps K (pend s b).1 := by
  unfold pend
  repeat' first
    | with_reducible assumption
    | (extract_lets +onlyGivenNames x; have hx : Keeps K x; (on_goal 2 => clear_value x); (on_goal 1 => unfold x; clear x))
    | (extract_lets +onlyGivenNames x; have hx : Keeps K x; (on_goal 1 => unfold x; clear x))
    | (extract_lets +onlyGivenNames x; clear_value x)
    | extract_lets +onlyGivenNames x
    | with_reducible apply keeps_bump
    | with_reducible apply keeps_setSrc
    | with_reducible refine keeps_of_fst (by with_reducible assumption) ?_
    | dsimp -zeta -zetaHave only
    | split


theorem keeps_present (a s) (h1 : Keeps K s) (hp : Sub 0x20 K.may) : Keeps K (present a s) := by
  unfold present
  repeat' first
    | with_reducible assumption
    | exact sub_mono hp (by decide)
    | (extract_lets +onlyGivenNames x; have hx : Keeps K x; (on_goal 2 => clear_value x); (on_goal 1 => unfold x; clear x))
    | (extract_lets +onlyGivenNames x; have hx : Keeps K x; (on_goal 1 => unfold x; clear x))
    | (extract_lets +onlyGivenNames x; clear_value x)
    | extract_lets +onlyGivenNames x
    | with_reducible apply keeps_updCore
    | with_reducible apply keeps_bump
    | with_reducible refine keeps_of_fst (by with_reducible assumption) ?_
    | dsimp -zeta -zetaHave only
    | split


theorem keeps_presentRound (s) (h0 : Keeps K s) (hp : Sub 0x20 K.may) : Keeps K (presentRound s) := by
  unfold presentRound
  repeat' first
    | with_reducible assumption
    | exact sub_mono hp (by decide)
    | intro _
    | (extract_lets +onlyGivenNames x; clear_value x)
    | extract_lets +onlyGivenNames x
    | with_reducible apply keeps_bump
    | with_reducible apply keeps_updCore
    | with_reducible apply keeps_present
    | with_reducible apply keeps_foldl
    | with_reducible apply keeps_foldl_fst
    | with_reducible refine keeps_of_fst (by with_reducible assumption) ?_
    | dsimp -zeta -zetaHave only
    | split


theorem keeps_presentAll (s) (h0 : Keeps K s) (hp : Sub 0x20 K.may) : Keeps K (presentAll s) := by
  unfold presentAll
  repeat' first
    | with_reducible assumption
    | exact sub_mono hp (by decide)
    | intro _
    | with_reducible apply keeps_presentRound
    | with_reducible apply keeps_foldl
    | with_reducible apply keeps_foldl_fst
    | dsimp -zeta -zetaHave only


theorem keeps_rawEvt (s b c) (h0 : Keeps K s) : Keeps K (rawEvt s b c) := by
  unfold rawEvt
  repeat' first
    | with_reducible assumption
    | with_reducible apply keeps_setReg
    | dsimp -zeta -zetaHave only


theorem keeps_enqueue (s b) (h0 : Keeps K s) (hp : Sub 0x40 K.may) : KeepsO K (enqueue s b) := by
  unfold enqueue
  repeat' first
    | with_reducible assumption
    | exact sub_mono hp (by decide)
    | intro _
    | (extract_lets +onlyGivenNames x; clear_value x)
    | extract_lets +onlyGivenNames x
    | exact Or.inr rfl
    | exact Or.inl (may_of hp (by decide))
    | simp only [↓keeps_mk]
    | refine keepsOf_upd ?_ rfl rfl rfl rfl rfl rfl ?_ ?_ ?_ ?_ ?_ ?_ ?_ ?_ ?_ ?_ ?_ ?_ ?_ ?_ ?_ ?_ ?_ ?_ ?_ ?_ ?_ ?_
    | with_reducible apply keeps_statMax
    | with_reducible refine keeps_of_fst (by with_reducible assumption) ?_
    | with_reducible refine keepsO_some ?_
    | with_reducible exact keepsO_none
    | with_reducible apply keepsO_map
    | dsimp -zeta -zetaHave only
    | split


theorem keeps_sourcePost (s b) (h0 : Keeps K s) (hp : Sub 0x40 K.may) : Keeps K (sourcePost s b) := by
  unfold sourcePost
  repeat' first
    | with_reducible assumption
    | exact sub_mono hp (by decide)
    | (extract_lets +onlyGivenNames x; clear_value x)
    | extract_lets +onlyGivenNames x
    | with_reducible apply keeps_enqueue
    | with_reducible apply keeps_bump
    | with_reducible apply keeps_rawEvt
    | with_reducible apply keeps_setSrc
    | with_reducible refine keeps_of_fst (by with_reducible assumption) ?_
    | with_reducible refine keeps_of_some (by with_reducible assumption) ?_
    | with_reducible apply keeps_getD
    | dsimp -zeta -zetaHave only
    | split


theorem keeps_arriveOnce (a s) (h1 : Keeps K s) (hp : Sub 0x40 K.may) : Keeps K (arriveOnce a s) := by
  unfold arriveOnce
  repeat' first
    | with_reducible assumption
    | exact sub_mono hp (by decide)
    | (extract_lets +onlyGivenNames x; have hx : Keeps K x; (on_goal 2 => clear_value x); (on_goal 1 => unfold x; clear x))
    | (extract_lets +onlyGivenNames x; have hx : Keeps K x; (on_goal 1 => unfold x; clear x))
    | with_reducible apply keeps_bump
    | with_reducible apply keeps_pend
    | with_reducible apply keeps_sourcePost
    | with_reducible apply keeps_rawEvt
    | with_reducible refine keeps_of_fst (by with_reducible assumption) ?_
    | dsimp -zeta -zetaHave only
    | split


theorem keeps_rising (a b s) (h1 : ∀ x0, Keeps K x0 → Keeps K (b x0)) (h2 : Keeps K s) (hp : Sub 0x40 K.may) : Keeps K (rising a b s) := by
  unfold rising
  repeat' first
    | with_reducible assumption
    | exact sub_mono hp (by decide)
    | intro _
    | (extract_lets +onlyGivenNames x; have hx : Keeps K x; (on_goal 2 => clear_value x); (on_goal 1 => unfold x; clear x))
    | (extract_lets +onlyGivenNames x; have hx : Keeps K x; (on_goal 1 => unfold x; clear x))
    | (extract_lets +onlyGivenNames x; clear_value x)
    | extract_lets +onlyGivenNames x
    | with_reducible apply keeps_arriveOnce
    | with_reducible apply h1
    | with_reducible refine keeps_of_fst (by with_reducible assumption) ?_
    | dsimp -zeta -zetaHave only
    | split


theorem keeps_arrive (a s) (h1 : Keeps K s) (hp : Sub 0x60 K.may) : Keeps K (arrive a s) := by
  unfold arrive
  repeat' first
    | with_reducible assumption
    | exact sub_mono hp (by decide)
    | intro _
    | with_reducible apply keeps_presentAll
    | with_reducible apply keeps_rising
    | with_reducible apply keeps_arriveOnce
    | dsimp -zeta -zetaHave only


theorem keeps_arrivePriv (a b s) (h2 : Keeps K s) (hp : Sub 0x60 K.may) : Keeps K (arrivePriv a b s) := by
  unfold arrivePriv
  repeat' first
    | with_reducible assumption
    | exact sub_mono hp (by decide)
    | intro _
    | (extract_lets +onlyGivenNames x; have hx : ∀ y0, Keeps K y0 → Keeps K (x y0); (on_goal 2 => clear_value x); (on_goal 1 => unfold x; clear x))
    | (extract_lets +onlyGivenNames x; clear_value x)
    | extract_lets +onlyGivenNames x
    | with_reducible apply keeps_pend
    | with_reducible apply keeps_rawEvt
    | with_reducible apply keeps_presentAll
    | with_reducible apply keeps_rising
    | with_reducible apply_assumption -exfalso -symm
    | with_reducible refine keeps_of_fst (by with_reducible assumption) ?_
    | dsimp -zeta -zetaHave only
    | split


theorem keeps_arriveSrc (a s) (h1 : Keeps K s) (hp : Sub 0x60 K.may) : Keeps K (arriveSrc a s) := by
  unfold arriveSrc
  repeat' first
    | with_reducible assumption
    | exact sub_mono hp (by decide)
    | with_reducible apply keeps_arrive
    | with_reducible apply keeps_arrivePriv
    | with_reducible refine keeps_of_fst (by with_reducible assumption) ?_
    | dsimp -zeta -zetaHave only
    | split


theorem keeps_withEvents (a b s) (h1 : ∀ x0, Keeps K x0 → Keeps K (b x0)) (h2 : Keeps K s) (hp : Sub 0x60 K.may) : Keeps K (withEvents a b s) := by
  unfold withEvents
  repeat' first
    | with_reducible assumption
    | exact sub_mono hp (by decide)
    | intro _
    | (extract_lets +onlyGivenNames x; have hx : Keeps K x; (on_goal 2 => clear_value x); (on_goal 1 => unfold x; clear x))
    | (extract_lets +onlyGivenNames x; have hx : Keeps K x; (on_goal 1 => unfold x; clear x))
    | (extract_lets +onlyGivenNames x; clear_value x)
    | extract_lets +onlyGivenNames x
    | with_reducible apply keeps_arrive
    | with_reducible apply h1
    | with_reducible refine keeps_of_fst (by with_reducible assumption) ?_
    | dsimp -zeta -zetaHave only
    | split


theorem keeps_evt (s b c) (h0 : Keeps K s) (hp : Sub 0x60 K.may) : Keeps K (State.evt s b c) := by
  unfold State.evt
  repeat' first
    | with_reducible assumption
    | exact sub_mono hp (by decide)
    | intro _
    | with_reducible apply keeps_withEvents
    | with_reducible apply keeps_rawEvt
    | dsimp -zeta -zetaHave only


theorem keeps_evtIf (s b c d) (h0 : Keeps K s) (hp : Sub 0x60 K.may) : Keeps K (State.evtIf s b c d) := by
  unfold State.evtIf
  repeat' first
    | with_reducible assumption
    | exact sub_mono hp (by decide)
    | with_reducible apply keeps_evt
    | with_reducible refine keeps_of_fst (by with_reducible assumption) ?_
    | dsimp -zeta -zetaHave only
    | split


theorem keeps_withDrawers (a s) (h0 : ∀ x0, Keeps K x0 → Keeps K (a x0)) (h1 : Keeps K s) (hp : Sub 0x60 K.may) : Keeps K (withDrawers a s) := by
  unfold withDrawers
  repeat' first
    | with_reducible assumption
    | exact sub_mono hp (by decide)
    | intro _
    | (extract_lets +onlyGivenNames x; have hx : Keeps K x; (on_goal 2 => clear_value x); (on_goal 1 => unfold x; clear x))
    | (extract_lets +onlyGivenNames x; have hx : Keeps K x; (on_goal 1 => unfold x; clear x))
    | (extract_lets +onlyGivenNames x; clear_value x)
    | extract_lets +onlyGivenNames x
    | with_reducible apply keeps_arrivePriv
    | with_reducible apply h0
    | with_reducible apply keeps_foldl
    | with_reducible apply keeps_foldl_fst
    | with_reducible refine keeps_of_fst (by with_reducible assumption) ?_
    | dsimp -zeta -zetaHave only
    | split


theorem keeps_undraw (s b) (h0 : Keeps K s) (hp : Sub 0x60 K.may) : Keeps K (undraw s b) := by
  unfold undraw
  repeat' first
    | with_reducible assumption
    | exact sub_mono hp (by decide)
    | (extract_lets +onlyGivenNames x; have hx : Keeps K x; (on_goal 2 => clear_value x); (on_goal 1 => unfold x; clear x))
    | (extract_lets +onlyGivenNames x; have hx : Keeps K x; (on_goal 1 => unfold x; clear x))
    | (extract_lets +onlyGivenNames x; clear_value x)
    | extract_lets +onlyGivenNames x
    | exact Or.inr rfl
    | exact Or.inl (may_of hp (by decide))
    | simp only [↓keeps_mk]
    | refine keepsOf_upd ?_ rfl rfl rfl rfl rfl rfl ?_ ?_ ?_ ?_ ?_ ?_ ?_ ?_ ?_ ?_ ?_ ?_ ?_ ?_ ?_ ?_ ?_ ?_ ?_ ?_ ?_ ?_
    | with_reducible apply keeps_updCore
    | with_reducible apply keeps_setTask
    | with_reducible refine keeps_of_fst (by with_reducible assumption) ?_
    | dsimp -zeta -zetaHave only
    | split


theorem keeps_placeOnce (s) (h0 : Keeps K s) (hp : Sub 0x60 K.may) : KeepsO K (placeOnce s) := by
  unfold placeOnce
  repeat' first
    | with_reducible assumption
    | exact sub_mono hp (by decide)
    | intro _
    | (extract_lets +onlyGivenNames x; have hx : Keeps K x; (on_goal 2 => clear_value x); (on_goal 1 => unfold x; clear x))
    | (extract_lets +onlyGivenNames x; have hx : Keeps K x; (on_goal 1 => unfold x; clear x))
    | (extract_lets +onlyGivenNames x; clear_value x)
    | extract_lets +onlyGivenNames x
    | exact Or.inr rfl
    | exact Or.inl (may_of hp (by decide))
    | simp only [↓keeps_mk]
    | refine keepsOf_upd ?_ rfl rfl rfl rfl rfl rfl ?_ ?_ ?_ ?_ ?_ ?_ ?_ ?_ ?_ ?_ ?_ ?_ ?_ ?_ ?_ ?_ ?_ ?_ ?_ ?_ ?_ ?_
    | with_reducible apply keeps_undraw
    | with_reducible apply keeps_updCore
    | with_reducible apply keeps_setTask
    | with_reducible refine keeps_of_fst (by with_reducible assumption) ?_
    | with_reducible refine keepsO_some ?_
    | with_reducible exact keepsO_none
    | with_reducible apply keepsO_map
    | dsimp -zeta -zetaHave only
    | split


theorem keeps_placeN (a s) (h1 : Keeps K s) (hp : Sub 0x60 K.may) : Keeps K (placeN a s) := by
  induction a generalizing s <;> unfold placeN
  repeat' first
    | with_reducible assumption
    | exact sub_mono hp (by decide)
    | with_reducible apply keeps_placeOnce
    | with_reducible refine keeps_of_fst (by with_reducible assumption) ?_
    | with_reducible refine keeps_of_some (by with_reducible assumption) ?_
    | with_reducible apply keeps_getD
    | with_reducible apply_assumption -exfalso -symm
    | dsimp -zeta -zetaHave only
    | split


theorem keeps_scheduling (a s) (h0 : ∀ x0, Keeps K x0 → Keeps K (a x0)) (h1 : Keeps K s) (hp : Sub 0x60 K.may) : Keeps K (scheduling a s) := by
  unfold scheduling
  repeat' first
    | with_reducible assumption
    | exact sub_mono hp (by decide)
    | intro _
    | with_reducible apply keeps_withDrawers
    | with_reducible apply keeps_placeN
    | with_reducible apply h0
    | dsimp -zeta -zetaHave only


theorem keeps_makeReady (s b) (h0 : Keeps K s) (hp : Sub 0x40 K.may) : Keeps K (makeReady s b) := by
  unfold makeReady
  repeat' first
    | with_reducible assumption
    | exact sub_mono hp (by decide)
    | (extract_lets +onlyGivenNames x; have hx : Keeps K x; (on_goal 2 => clear_value x); (on_goal 1 => unfold x; clear x))
    | (extract_lets +onlyGivenNames x; have hx : Keeps K x; (on_goal 1 => unfold x; clear x))
    | (extract_lets +onlyGivenNames x; clear_value x)
    | extract_lets +onlyGivenNames x
    | exact Or.inr rfl
    | exact Or.inl (may_of hp (by decide))
    | simp only [↓keeps_mk]
    | refine keepsOf_upd ?_ rfl rfl rfl rfl rfl rfl ?_ ?_ ?_ ?_ ?_ ?_ ?_ ?_ ?_ ?_ ?_ ?_ ?_ ?_ ?_ ?_ ?_ ?_ ?_ ?_ ?_ ?_
    | with_reducible apply keeps_setTask
    | dsimp -zeta -zetaHave only


theorem keeps_applyPost (a s) (h1 : Keeps K s) (hp : Sub 0x60 K.may) : Keeps K (applyPost a s) := by
  unfold applyPost
  repeat' first
    | with_reducible assumption
    | exact sub_mono hp (by decide)
    | intro _
    | (extract_lets +onlyGivenNames x; clear_value x)
    | extract_lets +onlyGivenNames x
    | exact Or.inr rfl
    | exact Or.inl (may_of hp (by decide))
    | simp only [↓keeps_mk]
    | refine keepsOf_upd ?_ rfl rfl rfl rfl rfl rfl ?_ ?_ ?_ ?_ ?_ ?_ ?_ ?_ ?_ ?_ ?_ ?_ ?_ ?_ ?_ ?_ ?_ ?_ ?_ ?_ ?_ ?_
    | with_reducible apply keeps_evt
    | with_reducible apply keeps_bump
    | with_reducible apply keeps_scheduling
    | with_reducible apply keeps_makeReady
    | with_reducible apply keeps_setTask
    | with_reducible refine keeps_of_fst (by with_reducible assumption) ?_
    | dsimp -zeta -zetaHave only
    | split


theorem keeps_writeEnds (a b s) (h2 : Keeps K s) (hp : Sub 0x202002 K.may) : Keeps K (writeEnds a b s) := by
  unfold writeEnds
  repeat' first
    | with_reducible assumption
    | exact sub_mono hp (by decide)
    | (extract_lets +onlyGivenNames x; clear_value x)
    | extract_lets +onlyGivenNames x
    | exact Or.inr rfl
    | exact Or.inl (may_of hp (by decide))
    | simp only [↓keeps_mk]
    | refine keepsOf_upd ?_ rfl rfl rfl rfl rfl rfl ?_ ?_ ?_ ?_ ?_ ?_ ?_ ?_ ?_ ?_ ?_ ?_ ?_ ?_ ?_ ?_ ?_ ?_ ?_ ?_ ?_ ?_
    | with_reducible apply keeps_emit
    | with_reducible refine keeps_of_fst (by with_reducible assumption) ?_
    | dsimp -zeta -zetaHave only
    | split


theorem keeps_refill (s) (h0 : Keeps K s) (hp : Sub 0x20306A K.may) : Keeps K (refill s) := by
  unfold refill
  repeat' first
    | with_reducible assumption
    | exact sub_mono hp (by decide)
    | (extract_lets +onlyGivenNames x; clear_value x)
    | extract_lets +onlyGivenNames x
    | exact Or.inr rfl
    | exact Or.inl (may_of hp (by decide))
    | simp only [↓keeps_mk]
    | refine keepsOf_upd ?_ rfl rfl rfl rfl rfl rfl ?_ ?_ ?_ ?_ ?_ ?_ ?_ ?_ ?_ ?_ ?_ ?_ ?_ ?_ ?_ ?_ ?_ ?_ ?_ ?_ ?_ ?_
    | with_reducible apply keeps_enqueue
    | with_reducible apply keeps_presentAll
    | with_reducible apply keeps_updCore
    | with_reducible apply keeps_writeEnds
    | with_reducible apply keeps_setSrc
    | with_reducible apply keeps_bump
    | with_reducible refine keeps_of_fst (by with_reducible assumption) ?_
    | with_reducible refine keeps_of_some (by with_reducible assumption) ?_
    | with_reducible apply keeps_getD
    | dsimp -zeta -zetaHave only
    | split


theorem keeps_postTask (a b s) (h2 : Keeps K s) (hp : Sub 0x60 K.may) : Keeps K (postTask a b s) := by
  unfold postTask
  repeat' first
    | with_reducible assumption
    | exact sub_mono hp (by decide)
    | (extract_lets +onlyGivenNames x; have hx : Keeps K x; (on_goal 2 => clear_value x); (on_goal 1 => unfold x; clear x))
    | (extract_lets +onlyGivenNames x; have hx : Keeps K x; (on_goal 1 => unfold x; clear x))
    | (extract_lets +onlyGivenNames x; clear_value x)
    | extract_lets +onlyGivenNames x
    | exact Or.inr rfl
    | exact Or.inl (may_of hp (by decide))
    | simp only [↓keeps_mk]
    | refine keepsOf_upd ?_ rfl rfl rfl rfl rfl rfl ?_ ?_ ?_ ?_ ?_ ?_ ?_ ?_ ?_ ?_ ?_ ?_ ?_ ?_ ?_ ?_ ?_ ?_ ?_ ?_ ?_ ?_
    | with_reducible apply keeps_enqueue
    | with_reducible apply keeps_updCore
    | with_reducible apply keeps_evt
    | with_reducible apply keeps_bump
    | with_reducible refine keeps_of_fst (by with_reducible assumption) ?_
    | with_reducible refine keeps_of_some (by with_reducible assumption) ?_
    | with_reducible apply keeps_getD
    | dsimp -zeta -zetaHave only
    | split


theorem keeps_drainPost (s) (h0 : Keeps K s) (hp : Sub 0x20306A K.may) : Keeps K (drainPost s) := by
  unfold drainPost
  repeat' first
    | with_reducible assumption
    | exact sub_mono hp (by decide)
    | (extract_lets +onlyGivenNames x; clear_value x)
    | extract_lets +onlyGivenNames x
    | exact Or.inr rfl
    | exact Or.inl (may_of hp (by decide))
    | simp only [↓keeps_mk]
    | refine keepsOf_upd ?_ rfl rfl rfl rfl rfl rfl ?_ ?_ ?_ ?_ ?_ ?_ ?_ ?_ ?_ ?_ ?_ ?_ ?_ ?_ ?_ ?_ ?_ ?_ ?_ ?_ ?_ ?_
    | with_reducible apply keeps_applyPost
    | with_reducible apply keeps_refill
    | with_reducible apply keeps_bump
    | with_reducible refine keeps_of_fst (by with_reducible assumption) ?_
    | dsimp -zeta -zetaHave only
    | split


theorem keeps_endTask (a s) (h1 : Keeps K s) (hp : Sub 0x60 K.may) : Keeps K (endTask a s) := by
  unfold endTask
  repeat' first
    | with_reducible assumption
    | exact sub_mono hp (by decide)
    | intro _
    | (extract_lets +onlyGivenNames x; have hx : Keeps K x; (on_goal 2 => clear_value x); (on_goal 1 => unfold x; clear x))
    | (extract_lets +onlyGivenNames x; have hx : Keeps K x; (on_goal 1 => unfold x; clear x))
    | (extract_lets +onlyGivenNames x; clear_value x)
    | extract_lets +onlyGivenNames x
    | with_reducible apply keeps_fault
    | with_reducible apply keeps_bump
    | with_reducible apply keeps_scheduling
    | with_reducible apply keeps_updCore
    | with_reducible apply keeps_setTask
    | with_reducible apply keeps_makeReady
    | with_reducible refine keeps_of_fst (by with_reducible assumption) ?_
    | dsimp -zeta -zetaHave only
    | split


theorem keeps_takeTask (a s) (h1 : Keeps K s) (hp : Sub 0x60 K.may) : Keeps K (takeTask a s).1 := by
  unfold takeTask
  repeat' first
    | with_reducible assumption
    | exact sub_mono hp (by decide)
    | intro _
    | (extract_lets +onlyGivenNames x; clear_value x)
    | extract_lets +onlyGivenNames x
    | with_reducible apply keeps_scheduling
    | with_reducible apply keeps_updCore
    | with_reducible apply keeps_setTask
    | with_reducible apply keeps_bump
    | with_reducible refine keeps_of_fst (by with_reducible assumption) ?_
    | dsimp -zeta -zetaHave only
    | split


theorem keeps_delayTick (s) (h0 : Keeps K s) (hp : Sub 0x60 K.may) : Keeps K (delayTick s) := by
  unfold delayTick
  repeat' first
    | with_reducible assumption
    | exact sub_mono hp (by decide)
    | intro _
    | (extract_lets +onlyGivenNames x; clear_value x)
    | extract_lets +onlyGivenNames x
    | exact Or.inr rfl
    | exact Or.inl (may_of hp (by decide))
    | simp only [↓keeps_mk]
    | refine keepsOf_upd ?_ rfl rfl rfl rfl rfl rfl ?_ ?_ ?_ ?_ ?_ ?_ ?_ ?_ ?_ ?_ ?_ ?_ ?_ ?_ ?_ ?_ ?_ ?_ ?_ ?_ ?_ ?_
    | with_reducible apply keeps_scheduling
    | with_reducible apply keeps_makeReady
    | with_reducible apply keeps_bump
    | with_reducible apply keeps_foldl
    | with_reducible apply keeps_foldl_fst
    | dsimp -zeta -zetaHave only


theorem keeps_delayGo (a b s) (h2 : Keeps K s) (hp : Sub 0x40 K.may) : Keeps K (delayGo a b s) := by
  unfold delayGo
  repeat' first
    | with_reducible assumption
    | exact sub_mono hp (by decide)
    | (extract_lets +onlyGivenNames x; have hx : Keeps K x; (on_goal 2 => clear_value x); (on_goal 1 => unfold x; clear x))
    | (extract_lets +onlyGivenNames x; have hx : Keeps K x; (on_goal 1 => unfold x; clear x))
    | (extract_lets +onlyGivenNames x; clear_value x)
    | extract_lets +onlyGivenNames x
    | exact Or.inr rfl
    | exact Or.inl (may_of hp (by decide))
    | simp only [↓keeps_mk]
    | refine keepsOf_upd ?_ rfl rfl rfl rfl rfl rfl ?_ ?_ ?_ ?_ ?_ ?_ ?_ ?_ ?_ ?_ ?_ ?_ ?_ ?_ ?_ ?_ ?_ ?_ ?_ ?_ ?_ ?_
    | with_reducible apply keeps_fault
    | with_reducible apply keeps_setTask
    | with_reducible refine keeps_of_fst (by with_reducible assumption) ?_
    | dsimp -zeta -zetaHave only
    | split


theorem keeps_cancelTask (a b s) (h2 : Keeps K s) (hp : Sub 0x40 K.may) : Keeps K (cancelTask a b s) := by
  unfold cancelTask
  repeat' first
    | with_reducible assumption
    | exact sub_mono hp (by decide)
    | (extract_lets +onlyGivenNames x; have hx : Keeps K x; (on_goal 2 => clear_value x); (on_goal 1 => unfold x; clear x))
    | (extract_lets +onlyGivenNames x; have hx : Keeps K x; (on_goal 1 => unfold x; clear x))
    | (extract_lets +onlyGivenNames x; clear_value x)
    | extract_lets +onlyGivenNames x
    | exact Or.inr rfl
    | exact Or.inl (may_of hp (by decide))
    | simp only [↓keeps_mk]
    | refine keepsOf_upd ?_ rfl rfl rfl rfl rfl rfl ?_ ?_ ?_ ?_ ?_ ?_ ?_ ?_ ?_ ?_ ?_ ?_ ?_ ?_ ?_ ?_ ?_ ?_ ?_ ?_ ?_ ?_
    | with_reducible apply keeps_fault
    | with_reducible apply keeps_setTask
    | with_reducible refine keeps_of_fst (by with_reducible assumption) ?_
    | dsimp -zeta -zetaHave only
    | split


theorem keeps_coreTo (a b s) (h2 : Keeps K s) (hp : Sub 0x60 K.may) : Keeps K (coreTo a b s) := by
  unfold coreTo
  repeat' first
    | with_reducible assumption
    | exact sub_mono hp (by decide)
    | intro _
    | with_reducible apply keeps_scheduling
    | with_reducible apply keeps_undraw
    | with_reducible apply keeps_updCore
    | dsimp -zeta -zetaHave only


theorem keeps_endService (a s) (h1 : Keeps K s) : Keeps K (endService a s) := by
  unfold endService
  repeat' first
    | with_reducible assumption
    | (extract_lets +onlyGivenNames x; have hx : Keeps K x; (on_goal 2 => clear_value x); (on_goal 1 => unfold x; clear x))
    | (extract_lets +onlyGivenNames x; have hx : Keeps K x; (on_goal 1 => unfold x; clear x))
    | with_reducible apply keeps_setSrc
    | with_reducible refine keeps_of_fst (by with_reducible assumption) ?_
    | dsimp -zeta -zetaHave only
    | split


theorem keeps_coreReset (a s) (h1 : Keeps K s) (hp : Sub 0x70 K.may) : Keeps K (coreReset a s) := by
  unfold coreReset
  repeat' first
    | with_reducible assumption
    | exact sub_mono hp (by decide)
    | intro _
    | (extract_lets +onlyGivenNames x; have hx : Keeps K x; (on_goal 2 => clear_value x); (on_goal 1 => unfold x; clear x))
    | (extract_lets +onlyGivenNames x; have hx : Keeps K x; (on_goal 1 => unfold x; clear x))
    | (extract_lets +onlyGivenNames x; clear_value x)
    | extract_lets +onlyGivenNames x
    | exact Or.inr rfl
    | exact Or.inl (may_of hp (by decide))
    | simp only [↓keeps_mk]
    | refine keepsOf_upd ?_ rfl rfl rfl rfl rfl rfl ?_ ?_ ?_ ?_ ?_ ?_ ?_ ?_ ?_ ?_ ?_ ?_ ?_ ?_ ?_ ?_ ?_ ?_ ?_ ?_ ?_ ?_
    | with_reducible apply keeps_setSrc
    | with_reducible apply keeps_evt
    | with_reducible apply keeps_set
    | with_reducible apply keeps_setTask
    | with_reducible apply keeps_updCore
    | with_reducible apply keeps_coreTo
    | with_reducible apply keeps_foldl
    | with_reducible apply keeps_foldl_fst
    | with_reducible refine keeps_of_fst (by with_reducible assumption) ?_
    | dsimp -zeta -zetaHave only
    | split


theorem keeps_coreStart (a s) (h1 : Keeps K s) (hp : Sub 0x60 K.may) : Keeps K (coreStart a s) := by
  unfold coreStart
  repeat' first
    | with_reducible assumption
    | exact sub_mono hp (by decide)
    | intro _
    | (extract_lets +onlyGivenNames x; have hx : Keeps K x; (on_goal 2 => clear_value x); (on_goal 1 => unfold x; clear x))
    | (extract_lets +onlyGivenNames x; have hx : Keeps K x; (on_goal 1 => unfold x; clear x))
    | (extract_lets +onlyGivenNames x; clear_value x)
    | extract_lets +onlyGivenNames x
    | with_reducible apply keeps_updCore
    | with_reducible apply keeps_presentAll
    | with_reducible apply keeps_scheduling
    | with_reducible apply keeps_evt
    | dsimp -zeta -zetaHave only [id]


theorem keeps_coreHalt (a s) (h1 : Keeps K s) (hp : Sub 0x60 K.may) : Keeps K (coreHalt a s) := by
  unfold coreHalt
  repeat' first
    | with_reducible assumption
    | exact sub_mono hp (by decide)
    | with_reducible apply keeps_evt
    | with_reducible apply keeps_coreTo
    | dsimp -zeta -zetaHave only


theorem keeps_coreWake (a s) (h1 : Keeps K s) (hp : Sub 0x60 K.may) : Keeps K (coreWake a s) := by
  unfold coreWake
  repeat' first
    | with_reducible assumption
    | exact sub_mono hp (by decide)
    | intro _
    | (extract_lets +onlyGivenNames x; have hx : Keeps K x; (on_goal 2 => clear_value x); (on_goal 1 => unfold x; clear x))
    | (extract_lets +onlyGivenNames x; have hx : Keeps K x; (on_goal 1 => unfold x; clear x))
    | (extract_lets +onlyGivenNames x; clear_value x)
    | extract_lets +onlyGivenNames x
    | with_reducible apply keeps_updCore
    | with_reducible apply keeps_evt
    | with_reducible apply keeps_coreHalt
    | with_reducible apply keeps_presentAll
    | with_reducible apply keeps_scheduling
    | with_reducible refine keeps_of_fst (by with_reducible assumption) ?_
    | dsimp -zeta -zetaHave only [id]
    | split


theorem keeps_coreMode (a s) (h1 : Keeps K s) (hp : Sub 0x70 K.may) : Keeps K (coreMode a s) := by
  unfold coreMode
  repeat' first
    | with_reducible assumption
    | exact sub_mono hp (by decide)
    | intro _
    | (extract_lets +onlyGivenNames x; clear_value x)
    | extract_lets +onlyGivenNames x
    | with_reducible apply keeps_coreReset
    | with_reducible apply keeps_coreHalt
    | with_reducible apply keeps_updCore
    | with_reducible apply keeps_coreStart
    | with_reducible apply keeps_presentAll
    | with_reducible apply keeps_scheduling
    | with_reducible refine keeps_of_fst (by with_reducible assumption) ?_
    | dsimp -zeta -zetaHave only [id]
    | split


end Sys2Proof.Machine
end

