-- ==== Sys2Proof/Laws/KeepsMem.lean ====
section
/-!
SUPPORT. What the operations of Machine/Mem.lean keep.
-/
namespace Sys2Proof.Machine
open Sys2Proof

variable {K : Keeping}

theorem keeps_recordErr (a b c d s) (h4 : Keeps K s) (hp : Sub 0x60 K.may) : Keeps K (recordErr a b c d s) := by
  unfold recordErr
  repeat' first
    | with_reducible assumption
    | exact sub_mono hp (by decide)
    | (extract_lets +onlyGivenNames x; have hx : Keeps K x; (on_goal 2 => clear_value x); (on_goal 1 => unfold x; clear x))
    | (extract_lets +onlyGivenNames x; have hx : Keeps K x; (on_goal 1 => unfold x; clear x))
    | (extract_lets +onlyGivenNames x; clear_value x)
    | extract_lets +onlyGivenNames x
    | with_reducible apply keeps_set
    | with_reducible apply keeps_fault
    | with_reducible apply keeps_evt
    | with_reducible refine keeps_of_fst (by with_reducible assumption) ?_
    | dsimp -zeta -zetaHave only
    | split


theorem keeps_countUnc (a s) (h1 : Keeps K s) : Keeps K (countUnc a s) := by
  unfold countUnc
  repeat' first
    | with_reducible assumption
    | with_reducible apply keeps_bump
    | with_reducible refine keeps_of_fst (by with_reducible assumption) ?_
    | dsimp -zeta -zetaHave only
    | split


theorem keeps_checkWord (a b c s) (h3 : Keeps K s) (hp : Sub 0x64 K.may) : Keeps K (checkWord a b c s).1 := by
  unfold checkWord
  repeat' first
    | with_reducible assumption
    | exact sub_mono hp (by decide)
    | (extract_lets +onlyGivenNames x; have hx : Keeps K x; (on_goal 2 => clear_value x); (on_goal 1 => unfold x; clear x))
    | (extract_lets +onlyGivenNames x; have hx : Keeps K x; (on_goal 1 => unfold x; clear x))
    | (extract_lets +onlyGivenNames x; clear_value x)
    | extract_lets +onlyGivenNames x
    | exact Or.inr rfl
    | exact Or.inl (may_of hp (by decide))
    | simp only [↓keeps_mk]
    | refine keepsOf_upd ?_ rfl rfl rfl rfl rfl rfl ?_ ?_ ?_ ?_ ?_ ?_ ?_ ?_ ?_ ?_ ?_ ?_ ?_ ?_ ?_ ?_ ?_ ?_ ?_ ?_ ?_ ?_
    | with_reducible apply keeps_recordErr
    | with_reducible apply keeps_bump
    | with_reducible refine keeps_of_fst (by with_reducible assumption) ?_
    | dsimp -zeta -zetaHave only
    | split


theorem keeps_checkRead (a b c s) (h3 : Keeps K s) (hp : Sub 0x64 K.may) : Keeps K (checkRead a b c s).1 := by
  unfold checkRead
  repeat' first
    | with_reducible assumption
    | exact sub_mono hp (by decide)
    | intro _
    | with_reducible apply keeps_checkWord
    | with_reducible apply keeps_countUnc
    | with_reducible apply keeps_foldl
    | with_reducible apply keeps_foldl_fst
    | with_reducible refine keeps_of_fst (by with_reducible assumption) ?_
    | dsimp -zeta -zetaHave only
    | split


theorem keeps_checkWords (a b c d s) (h4 : Keeps K s) (hp : Sub 0x64 K.may) : Keeps K (checkWords a b c d s).1 := by
  unfold checkWords
  repeat' first
    | with_reducible assumption
    | exact sub_mono hp (by decide)
    | intro _
    | with_reducible apply keeps_checkRead
    | with_reducible apply keeps_foldl
    | with_reducible apply keeps_foldl_fst
    | with_reducible refine keeps_of_fst (by with_reducible assumption) ?_
    | dsimp -zeta -zetaHave only
    | split


theorem keeps_checkCodeword (a s) (h1 : Keeps K s) (hp : Sub 0x60 K.may) : Keeps K (checkCodeword a s).1 := by
  unfold checkCodeword
  repeat' first
    | with_reducible assumption
    | exact sub_mono hp (by decide)
    | (extract_lets +onlyGivenNames x; have hx : Keeps K x; (on_goal 2 => clear_value x); (on_goal 1 => unfold x; clear x))
    | (extract_lets +onlyGivenNames x; have hx : Keeps K x; (on_goal 1 => unfold x; clear x))
    | with_reducible apply keeps_bump
    | with_reducible apply keeps_set
    | with_reducible apply keeps_evt
    | with_reducible apply keeps_fault
    | with_reducible refine keeps_of_fst (by with_reducible assumption) ?_
    | dsimp -zeta -zetaHave only
    | split


theorem keeps_startProg (a s) (h1 : Keeps K s) (hp : Sub 0x4 K.may) : Keeps K (startProg a s) := by
  unfold startProg
  repeat' first
    | with_reducible assumption
    | exact sub_mono hp (by decide)
    | (extract_lets +onlyGivenNames x; clear_value x)
    | extract_lets +onlyGivenNames x
    | exact Or.inr rfl
    | exact Or.inl (may_of hp (by decide))
    | simp only [↓keeps_mk]
    | refine keepsOf_upd ?_ rfl rfl rfl rfl rfl rfl ?_ ?_ ?_ ?_ ?_ ?_ ?_ ?_ ?_ ?_ ?_ ?_ ?_ ?_ ?_ ?_ ?_ ?_ ?_ ?_ ?_ ?_
    | with_reducible apply keeps_set
    | dsimp -zeta -zetaHave only


theorem keeps_internalProg (a b s) (h2 : Keeps K s) (hp : Sub 0x4 K.may) : Keeps K (internalProg a b s) := by
  unfold internalProg
  repeat' first
    | with_reducible assumption
    | exact sub_mono hp (by decide)
    | (extract_lets +onlyGivenNames x; clear_value x)
    | extract_lets +onlyGivenNames x
    | exact Or.inr rfl
    | exact Or.inl (may_of hp (by decide))
    | simp only [↓keeps_mk]
    | refine keepsOf_upd ?_ rfl rfl rfl rfl rfl rfl ?_ ?_ ?_ ?_ ?_ ?_ ?_ ?_ ?_ ?_ ?_ ?_ ?_ ?_ ?_ ?_ ?_ ?_ ?_ ?_ ?_ ?_
    | with_reducible apply keeps_startProg
    | with_reducible refine keeps_of_fst (by with_reducible assumption) ?_
    | dsimp -zeta -zetaHave only
    | split


theorem keeps_mergeCodeword (a s c) (h1 : Keeps K s) (hp : Sub 0x61 K.may) : Keeps K (mergeCodeword a s c) := by
  unfold mergeCodeword
  repeat' first
    | with_reducible assumption
    | exact sub_mono hp (by decide)
    | intro _
    | exact Or.inr rfl
    | exact Or.inl (may_of hp (by decide))
    | simp only [↓keeps_mk]
    | with_reducible apply keepsOf_memPutAll
    | refine keepsOf_upd ?_ rfl rfl rfl rfl rfl rfl ?_ ?_ ?_ ?_ ?_ ?_ ?_ ?_ ?_ ?_ ?_ ?_ ?_ ?_ ?_ ?_ ?_ ?_ ?_ ?_ ?_ ?_
    | exact may_of hp (by decide)
    | with_reducible apply keeps_checkCodeword
    | with_reducible apply keeps_free
    | with_reducible apply keeps_foldl
    | with_reducible apply keeps_foldl_fst
    | with_reducible refine keeps_of_fst (by with_reducible assumption) ?_
    | dsimp -zeta -zetaHave only
    | split


theorem keeps_nvmDone (s) (h0 : Keeps K s) (hp : Sub 0x65 K.may) : Keeps K (nvmDone s) := by
  unfold nvmDone
  repeat' first
    | with_reducible assumption
    | exact sub_mono hp (by decide)
    | intro _
    | (extract_lets +onlyGivenNames x; have hx : Keeps K x; (on_goal 2 => clear_value x); (on_goal 1 => unfold x; clear x))
    | (extract_lets +onlyGivenNames x; have hx : Keeps K x; (on_goal 1 => unfold x; clear x))
    | (extract_lets +onlyGivenNames x; clear_value x)
    | extract_lets +onlyGivenNames x
    | exact Or.inr rfl
    | exact Or.inl (may_of hp (by decide))
    | simp only [↓keeps_mk]
    | with_reducible apply keepsOf_memPutAll
    | refine keepsOf_upd ?_ rfl rfl rfl rfl rfl rfl ?_ ?_ ?_ ?_ ?_ ?_ ?_ ?_ ?_ ?_ ?_ ?_ ?_ ?_ ?_ ?_ ?_ ?_ ?_ ?_ ?_ ?_
    | exact may_of hp (by decide)
    | with_reducible apply keeps_mergeCodeword
    | with_reducible apply keeps_set
    | with_reducible apply keeps_bump
    | with_reducible apply keeps_evt
    | with_reducible apply keeps_startProg
    | with_reducible apply keeps_foldl
    | with_reducible apply keeps_foldl_fst
    | with_reducible refine keeps_of_fst (by with_reducible assumption) ?_
    | dsimp -zeta -zetaHave only
    | split


theorem keeps_finishProgs (a s) (h1 : Keeps K s) (hp : Sub 0x65 K.may) : Keeps K (finishProgs a s) := by
  induction a generalizing s <;> unfold finishProgs
  repeat' first
    | with_reducible assumption
    | exact sub_mono hp (by decide)
    | with_reducible apply keeps_nvmDone
    | with_reducible refine keeps_of_fst (by with_reducible assumption) ?_
    | with_reducible apply_assumption -exfalso -symm
    | dsimp -zeta -zetaHave only
    | split


theorem keeps_progsEnd (s) (h0 : Keeps K s) (hp : Sub 0x65 K.may) : Keeps K (progsEnd s) := by
  unfold progsEnd
  repeat' first
    | with_reducible assumption
    | exact sub_mono hp (by decide)
    | with_reducible apply keeps_finishProgs
    | dsimp -zeta -zetaHave only


theorem keeps_mramHold (a b c s) (h3 : Keeps K s) (hp : Sub 0x65 K.may) : Keeps K (mramHold a b c s) := by
  induction c generalizing s <;> unfold mramHold
  repeat' first
    | with_reducible assumption
    | exact sub_mono hp (by decide)
    | with_reducible apply keeps_nvmDone
    | with_reducible refine keeps_of_fst (by with_reducible assumption) ?_
    | with_reducible apply_assumption -exfalso -symm
    | dsimp -zeta -zetaHave only
    | split


theorem keeps_mramRead (a b s) (h2 : Keeps K s) (hp : Sub 0x65 K.may) : Keeps K (mramRead a b s).1 := by
  unfold mramRead
  repeat' first
    | with_reducible assumption
    | exact sub_mono hp (by decide)
    | intro _
    | (extract_lets +onlyGivenNames x; have hx : Keeps K x; (on_goal 2 => clear_value x); (on_goal 1 => unfold x; clear x))
    | (extract_lets +onlyGivenNames x; have hx : Keeps K x; (on_goal 1 => unfold x; clear x))
    | (extract_lets +onlyGivenNames x; clear_value x)
    | extract_lets +onlyGivenNames x
    | with_reducible apply keeps_mramHold
    | with_reducible apply keeps_checkCodeword
    | with_reducible apply keeps_foldl
    | with_reducible apply keeps_foldl_fst
    | with_reducible refine keeps_of_fst (by with_reducible assumption) ?_
    | dsimp -zeta -zetaHave only
    | split


theorem keeps_nvmRefuse (a b c s) (h3 : Keeps K s) : Keeps K (nvmRefuse a b c s) := by
  unfold nvmRefuse
  repeat' first
    | with_reducible assumption
    | (extract_lets +onlyGivenNames x; have hx : Keeps K x; (on_goal 2 => clear_value x); (on_goal 1 => unfold x; clear x))
    | (extract_lets +onlyGivenNames x; have hx : Keeps K x; (on_goal 1 => unfold x; clear x))
    | with_reducible apply keeps_bump
    | with_reducible apply keeps_set
    | with_reducible apply keeps_fault
    | with_reducible refine keeps_of_fst (by with_reducible assumption) ?_
    | dsimp -zeta -zetaHave only
    | split


theorem keeps_nvmCmd (a b s) (h2 : Keeps K s) (hp : Sub 0x4 K.may) : Keeps K (nvmCmd a b s) := by
  unfold nvmCmd
  repeat' first
    | with_reducible assumption
    | exact sub_mono hp (by decide)
    | (extract_lets +onlyGivenNames x; clear_value x)
    | extract_lets +onlyGivenNames x
    | with_reducible apply keeps_fault
    | with_reducible apply keeps_nvmRefuse
    | with_reducible apply keeps_startProg
    | with_reducible apply keeps_set
    | with_reducible refine keeps_of_fst (by with_reducible assumption) ?_
    | dsimp -zeta -zetaHave only
    | split


theorem keeps_nvmBufWrite (a b c s) (h3 : Keeps K s) (hp : Sub 0x4 K.may) : Keeps K (nvmBufWrite a b c s) := by
  unfold nvmBufWrite
  repeat' first
    | with_reducible assumption
    | exact sub_mono hp (by decide)
    | intro _
    | (extract_lets +onlyGivenNames x; clear_value x)
    | extract_lets +onlyGivenNames x
    | exact Or.inr rfl
    | exact Or.inl (may_of hp (by decide))
    | simp only [↓keeps_mk]
    | refine keepsOf_upd ?_ rfl rfl rfl rfl rfl rfl ?_ ?_ ?_ ?_ ?_ ?_ ?_ ?_ ?_ ?_ ?_ ?_ ?_ ?_ ?_ ?_ ?_ ?_ ?_ ?_ ?_ ?_
    | with_reducible apply keeps_fault
    | with_reducible apply keeps_set
    | with_reducible apply keeps_foldl
    | with_reducible apply keeps_foldl_fst
    | with_reducible refine keeps_of_fst (by with_reducible assumption) ?_
    | dsimp -zeta -zetaHave only
    | split


theorem keeps_guarded (a b c s) (h3 : Keeps K s) (hp : Sub 0x60 K.may) : Keeps K (guarded a b c s).1 := by
  unfold guarded
  repeat' first
    | with_reducible assumption
    | exact sub_mono hp (by decide)
    | intro _
    | (extract_lets +onlyGivenNames x; have hx : Keeps K x; (on_goal 2 => clear_value x); (on_goal 1 => unfold x; clear x))
    | (extract_lets +onlyGivenNames x; have hx : Keeps K x; (on_goal 1 => unfold x; clear x))
    | (extract_lets +onlyGivenNames x; clear_value x)
    | extract_lets +onlyGivenNames x
    | with_reducible apply keeps_set
    | with_reducible apply keeps_bump
    | with_reducible apply keeps_evt
    | with_reducible apply keeps_foldl
    | with_reducible apply keeps_foldl_fst
    | dsimp -zeta -zetaHave only


theorem keeps_ownGrants (a b c s) (h3 : Keeps K s) : Keeps K (ownGrants a b c s) := by
  unfold ownGrants
  repeat' first
    | with_reducible assumption
    | intro _
    | (extract_lets +onlyGivenNames x; clear_value x)
    | extract_lets +onlyGivenNames x
    | with_reducible apply keeps_bump
    | with_reducible apply keeps_foldl
    | with_reducible apply keeps_foldl_fst
    | with_reducible refine keeps_of_fst (by with_reducible assumption) ?_
    | dsimp -zeta -zetaHave only
    | split


theorem keeps_rdMem (a b c s) (h3 : Keeps K s) (hp : Sub 0x65 K.may) : Keeps K (rdMem a b c s).1 := by
  unfold rdMem
  repeat' first
    | with_reducible assumption
    | exact sub_mono hp (by decide)
    | with_reducible apply keeps_checkWords
    | with_reducible apply keeps_mramRead
    | with_reducible refine keeps_of_fst (by with_reducible assumption) ?_
    | dsimp -zeta -zetaHave only
    | split


theorem keeps_rd (a b c s) (h3 : Keeps K s) (hp : Sub 0x65 K.may) : Keeps K (rd a b c s).1 := by
  unfold rd
  repeat' first
    | with_reducible assumption
    | exact sub_mono hp (by decide)
    | with_reducible apply keeps_rdMem
    | with_reducible apply keeps_ownGrants
    | dsimp -zeta -zetaHave only


theorem keeps_injectOn (a b s) (h2 : Keeps K s) (hp : Sub 0x4 K.may) : Keeps K (injectOn a b s) := by
  unfold injectOn
  repeat' first
    | with_reducible assumption
    | exact sub_mono hp (by decide)
    | (extract_lets +onlyGivenNames x; clear_value x)
    | extract_lets +onlyGivenNames x
    | exact Or.inr rfl
    | exact Or.inl (may_of hp (by decide))
    | simp only [↓keeps_mk]
    | refine keepsOf_upd ?_ rfl rfl rfl rfl rfl rfl ?_ ?_ ?_ ?_ ?_ ?_ ?_ ?_ ?_ ?_ ?_ ?_ ?_ ?_ ?_ ?_ ?_ ?_ ?_ ?_ ?_ ?_
    | with_reducible refine keeps_of_fst (by with_reducible assumption) ?_
    | dsimp -zeta -zetaHave only
    | split


theorem keeps_mergeWords (a b c d s) (h4 : Keeps K s) (hp : Sub 0x64 K.may) : Keeps K (mergeWords a b c d s).1 := by
  unfold mergeWords
  repeat' first
    | with_reducible assumption
    | exact sub_mono hp (by decide)
    | intro _
    | (extract_lets +onlyGivenNames x; have hx : Keeps K x; (on_goal 2 => clear_value x); (on_goal 1 => unfold x; clear x))
    | (extract_lets +onlyGivenNames x; have hx : Keeps K x; (on_goal 1 => unfold x; clear x))
    | with_reducible apply keeps_bump
    | with_reducible apply keeps_checkRead
    | with_reducible apply keeps_foldl
    | with_reducible apply keeps_foldl_fst
    | with_reducible refine keeps_of_fst (by with_reducible assumption) ?_
    | dsimp -zeta -zetaHave only
    | split


theorem keeps_confNote (a s) (h1 : Keeps K s) (hp : Sub 0x4 K.may) : Keeps K (confNote a s) := by
  unfold confNote
  repeat' first
    | with_reducible assumption
    | exact sub_mono hp (by decide)
    | intro _
    | (extract_lets +onlyGivenNames x; clear_value x)
    | extract_lets +onlyGivenNames x
    | exact Or.inr rfl
    | exact Or.inl (may_of hp (by decide))
    | simp only [↓keeps_mk]
    | refine keepsOf_upd ?_ rfl rfl rfl rfl rfl rfl ?_ ?_ ?_ ?_ ?_ ?_ ?_ ?_ ?_ ?_ ?_ ?_ ?_ ?_ ?_ ?_ ?_ ?_ ?_ ?_ ?_ ?_
    | with_reducible apply keeps_foldl
    | with_reducible apply keeps_foldl_fst
    | with_reducible refine keeps_of_fst (by with_reducible assumption) ?_
    | dsimp -zeta -zetaHave only
    | split


theorem keeps_breakReservations (a b s) (h2 : Keeps K s) (hp : Sub 0x20 K.may) : Keeps K (breakReservations a b s) := by
  unfold breakReservations
  repeat' first
    | with_reducible assumption
    | exact sub_mono hp (by decide)
    | exact Or.inr rfl
    | exact Or.inl (may_of hp (by decide))
    | simp only [↓keeps_mk]
    | refine keepsOf_upd ?_ rfl rfl rfl rfl rfl rfl ?_ ?_ ?_ ?_ ?_ ?_ ?_ ?_ ?_ ?_ ?_ ?_ ?_ ?_ ?_ ?_ ?_ ?_ ?_ ?_ ?_ ?_
    | with_reducible refine keeps_of_fst (by with_reducible assumption) ?_
    | dsimp -zeta -zetaHave only
    | split


theorem keeps_wrBurst (a b c s) (h3 : Keeps K s) (hp : Sub 0x65 K.may) : Keeps K (wrBurst a b c s).1 := by
  unfold wrBurst
  repeat' first
    | with_reducible assumption
    | exact sub_mono hp (by decide)
    | intro _
    | (extract_lets +onlyGivenNames x; have hx : Keeps K x; (on_goal 2 => clear_value x); (on_goal 1 => unfold x; clear x))
    | (extract_lets +onlyGivenNames x; have hx : Keeps K x; (on_goal 1 => unfold x; clear x))
    | (extract_lets +onlyGivenNames x; clear_value x)
    | extract_lets +onlyGivenNames x
    | exact Or.inr rfl
    | exact Or.inl (may_of hp (by decide))
    | simp only [↓keeps_mk]
    | with_reducible apply keepsOf_memPutAll
    | refine keepsOf_upd ?_ rfl rfl rfl rfl rfl rfl ?_ ?_ ?_ ?_ ?_ ?_ ?_ ?_ ?_ ?_ ?_ ?_ ?_ ?_ ?_ ?_ ?_ ?_ ?_ ?_ ?_ ?_
    | exact may_of hp (by decide)
    | with_reducible apply keeps_guarded
    | with_reducible apply keeps_mergeWords
    | with_reducible apply keeps_breakReservations
    | with_reducible apply keeps_injectOn
    | with_reducible apply keeps_confNote
    | with_reducible apply keeps_foldl
    | with_reducible apply keeps_foldl_fst
    | with_reducible refine keeps_of_fst (by with_reducible assumption) ?_
    | dsimp -zeta -zetaHave only
    | split


theorem keeps_wrMem (a b c s) (h3 : Keeps K s) (hp : Sub 0x65 K.may) : Keeps K (wrMem a b c s).1 := by
  unfold wrMem
  repeat' first
    | with_reducible assumption
    | exact sub_mono hp (by decide)
    | intro _
    | (extract_lets +onlyGivenNames x; clear_value x)
    | extract_lets +onlyGivenNames x
    | with_reducible apply keeps_wrBurst
    | with_reducible apply keeps_foldl
    | with_reducible apply keeps_foldl_fst
    | with_reducible refine keeps_of_fst (by with_reducible assumption) ?_
    | dsimp -zeta -zetaHave only
    | split


theorem keeps_wr (a b c s) (h3 : Keeps K s) (hp : Sub 0x65 K.may) : Keeps K (wr a b c s).1 := by
  unfold wr
  repeat' first
    | with_reducible assumption
    | exact sub_mono hp (by decide)
    | with_reducible apply keeps_wrMem
    | with_reducible apply keeps_ownGrants
    | dsimp -zeta -zetaHave only


theorem keeps_wr' (a b c s) (h3 : Keeps K s) (hp : Sub 0x65 K.may) : Keeps K (wr' a b c s) := by
  unfold wr'
  repeat' first
    | with_reducible assumption
    | exact sub_mono hp (by decide)
    | with_reducible apply keeps_wr
    | dsimp -zeta -zetaHave only


theorem keeps_rdWord (a b s) (h2 : Keeps K s) (hp : Sub 0x65 K.may) : Keeps K (rdWord a b s).1 := by
  unfold rdWord
  repeat' first
    | with_reducible assumption
    | exact sub_mono hp (by decide)
    | with_reducible apply keeps_rd
    | with_reducible refine keeps_of_fst (by with_reducible assumption) ?_
    | dsimp -zeta -zetaHave only
    | split


theorem keeps_fsInject (a s) (h1 : Keeps K s) (hp : Sub 0x4 K.may) : Keeps K (fsInject a s) := by
  unfold fsInject
  repeat' first
    | with_reducible assumption
    | exact sub_mono hp (by decide)
    | (extract_lets +onlyGivenNames x; clear_value x)
    | extract_lets +onlyGivenNames x
    | exact Or.inr rfl
    | exact Or.inl (may_of hp (by decide))
    | simp only [↓keeps_mk]
    | refine keepsOf_upd ?_ rfl rfl rfl rfl rfl rfl ?_ ?_ ?_ ?_ ?_ ?_ ?_ ?_ ?_ ?_ ?_ ?_ ?_ ?_ ?_ ?_ ?_ ?_ ?_ ?_ ?_ ?_
    | with_reducible refine keeps_of_fst (by with_reducible assumption) ?_
    | dsimp -zeta -zetaHave only
    | split


theorem keeps_errClr (a s) (h1 : Keeps K s) : Keeps K (errClr a s) := by
  unfold errClr
  repeat' first
    | with_reducible assumption
    | with_reducible apply keeps_setReg
    | with_reducible refine keeps_of_fst (by with_reducible assumption) ?_
    | dsimp -zeta -zetaHave only
    | split


theorem keeps_scrubRead (s) (h0 : Keeps K s) (hp : Sub 0x64 K.may) : Keeps K (scrubRead s) := by
  unfold scrubRead
  repeat' first
    | with_reducible assumption
    | exact sub_mono hp (by decide)
    | (extract_lets +onlyGivenNames x; have hx : Keeps K x; (on_goal 2 => clear_value x); (on_goal 1 => unfold x; clear x))
    | (extract_lets +onlyGivenNames x; have hx : Keeps K x; (on_goal 1 => unfold x; clear x))
    | (extract_lets +onlyGivenNames x; clear_value x)
    | extract_lets +onlyGivenNames x
    | exact Or.inr rfl
    | exact Or.inl (may_of hp (by decide))
    | simp only [↓keeps_mk]
    | refine keepsOf_upd ?_ rfl rfl rfl rfl rfl rfl ?_ ?_ ?_ ?_ ?_ ?_ ?_ ?_ ?_ ?_ ?_ ?_ ?_ ?_ ?_ ?_ ?_ ?_ ?_ ?_ ?_ ?_
    | with_reducible apply keeps_checkRead
    | with_reducible apply keeps_ownGrants
    | with_reducible apply keeps_bump
    | with_reducible refine keeps_of_fst (by with_reducible assumption) ?_
    | dsimp -zeta -zetaHave only
    | split


theorem keeps_updArb (s b c) (h0 : Keeps K s) (hp : Sub 0x4 K.may) : Keeps K (updArb s b c) := by
  unfold updArb
  repeat' first
    | with_reducible assumption
    | exact sub_mono hp (by decide)
    | (extract_lets +onlyGivenNames x; clear_value x)
    | extract_lets +onlyGivenNames x
    | exact Or.inr rfl
    | exact Or.inl (may_of hp (by decide))
    | simp only [↓keeps_mk]
    | refine keepsOf_upd ?_ rfl rfl rfl rfl rfl rfl ?_ ?_ ?_ ?_ ?_ ?_ ?_ ?_ ?_ ?_ ?_ ?_ ?_ ?_ ?_ ?_ ?_ ?_ ?_ ?_ ?_ ?_
    | dsimp -zeta -zetaHave only


theorem keeps_updArbPort (s b c d) (h0 : Keeps K s) (hp : Sub 0x4 K.may) : Keeps K (updArbPort s b c d) := by
  unfold updArbPort
  repeat' first
    | with_reducible assumption
    | exact sub_mono hp (by decide)
    | with_reducible apply keeps_updArb
    | dsimp -zeta -zetaHave only


theorem keeps_arbPresent (a b s) (h2 : Keeps K s) (hp : Sub 0x4 K.may) : Keeps K (arbPresent a b s) := by
  unfold arbPresent
  repeat' first
    | with_reducible assumption
    | exact sub_mono hp (by decide)
    | with_reducible apply keeps_updArb
    | dsimp -zeta -zetaHave only


theorem keeps_arbEnqueue (a b s) (h2 : Keeps K s) (hp : Sub 0x4 K.may) : Keeps K (arbEnqueue a b s) := by
  unfold arbEnqueue
  repeat' first
    | with_reducible assumption
    | exact sub_mono hp (by decide)
    | (extract_lets +onlyGivenNames x; have hx : Keeps K x; (on_goal 2 => clear_value x); (on_goal 1 => unfold x; clear x))
    | (extract_lets +onlyGivenNames x; have hx : Keeps K x; (on_goal 1 => unfold x; clear x))
    | with_reducible apply keeps_updArb
    | with_reducible apply keeps_statMax
    | dsimp -zeta -zetaHave only


theorem keeps_arbWithhold (a b s) (h2 : Keeps K s) (hp : Sub 0x64 K.may) : Keeps K (arbWithhold a b s) := by
  unfold arbWithhold
  repeat' first
    | with_reducible assumption
    | exact sub_mono hp (by decide)
    | with_reducible apply keeps_evt
    | with_reducible apply keeps_bump
    | with_reducible apply keeps_updArbPort
    | dsimp -zeta -zetaHave only


theorem keeps_arbRequest (a b c d e f g s) (h7 : Keeps K s) (hp : Sub 0x64 K.may) : Keeps K (arbRequest a b c d e f g s) := by
  unfold arbRequest
  repeat' first
    | with_reducible assumption
    | exact sub_mono hp (by decide)
    | (extract_lets +onlyGivenNames x; clear_value x)
    | extract_lets +onlyGivenNames x
    | with_reducible apply keeps_arbPresent
    | with_reducible apply keeps_arbWithhold
    | with_reducible refine keeps_of_fst (by with_reducible assumption) ?_
    | dsimp -zeta -zetaHave only
    | split


theorem keeps_arbLeft (a s c) (h1 : Keeps K s) (hp : Sub 0x4 K.may) : Keeps K (arbLeft a s c) := by
  unfold arbLeft
  repeat' first
    | with_reducible assumption
    | exact sub_mono hp (by decide)
    | (extract_lets +onlyGivenNames x; clear_value x)
    | extract_lets +onlyGivenNames x
    | with_reducible apply keeps_emit
    | with_reducible apply keeps_bump
    | with_reducible apply keeps_updArbPort
    | with_reducible apply keeps_arbEnqueue
    | with_reducible refine keeps_of_fst (by with_reducible assumption) ?_
    | dsimp -zeta -zetaHave only
    | split


theorem keeps_arbMove (a s) (h1 : Keeps K s) (hp : Sub 0x65 K.may) : Keeps K (arbMove a s) := by
  unfold arbMove
  repeat' first
    | with_reducible assumption
    | exact sub_mono hp (by decide)
    | (extract_lets +onlyGivenNames x; clear_value x)
    | extract_lets +onlyGivenNames x
    | with_reducible apply keeps_wrMem
    | with_reducible apply keeps_emit
    | with_reducible apply keeps_rdMem
    | with_reducible refine keeps_of_fst (by with_reducible assumption) ?_
    | dsimp -zeta -zetaHave only
    | split


theorem keeps_arbAdmit (a b s) (h2 : Keeps K s) (hp : Sub 0x4 K.may) : Keeps K (arbAdmit a b s) := by
  induction b generalizing s <;> unfold arbAdmit
  repeat' first
    | with_reducible assumption
    | exact sub_mono hp (by decide)
    | with_reducible apply keeps_arbEnqueue
    | with_reducible apply keeps_updArbPort
    | with_reducible refine keeps_of_fst (by with_reducible assumption) ?_
    | with_reducible apply_assumption -exfalso -symm
    | dsimp -zeta -zetaHave only
    | split


theorem keeps_arbRound (a s) (h1 : Keeps K s) (hp : Sub 0x65 K.may) : Keeps K (arbRound a s) := by
  unfold arbRound
  repeat' first
    | with_reducible assumption
    | exact sub_mono hp (by decide)
    | intro _
    | (extract_lets +onlyGivenNames x; have hx : Keeps K x; (on_goal 2 => clear_value x); (on_goal 1 => unfold x; clear x))
    | (extract_lets +onlyGivenNames x; have hx : Keeps K x; (on_goal 1 => unfold x; clear x))
    | (extract_lets +onlyGivenNames x; clear_value x)
    | extract_lets +onlyGivenNames x
    | with_reducible apply keeps_updArb
    | with_reducible apply keeps_updArbPort
    | with_reducible apply keeps_statMax
    | with_reducible apply keeps_bump
    | with_reducible apply keeps_evt
    | with_reducible apply keeps_arbMove
    | with_reducible apply keeps_arbLeft
    | with_reducible apply keeps_arbAdmit
    | with_reducible apply keeps_foldl
    | with_reducible apply keeps_foldl_fst
    | with_reducible refine keeps_of_fst (by with_reducible assumption) ?_
    | dsimp -zeta -zetaHave only
    | split


theorem keeps_arbRepresent (a b s) (h2 : Keeps K s) (hp : Sub 0x4 K.may) : Keeps K (arbRepresent a b s) := by
  unfold arbRepresent
  repeat' first
    | with_reducible assumption
    | exact sub_mono hp (by decide)
    | (extract_lets +onlyGivenNames x; clear_value x)
    | extract_lets +onlyGivenNames x
    | with_reducible apply keeps_arbPresent
    | with_reducible apply keeps_updArbPort
    | with_reducible refine keeps_of_fst (by with_reducible assumption) ?_
    | dsimp -zeta -zetaHave only
    | split


theorem keeps_maskPort (a b c s) (h3 : Keeps K s) (hp : Sub 0x64 K.may) : Keeps K (maskPort a b c s) := by
  unfold maskPort
  repeat' first
    | with_reducible assumption
    | exact sub_mono hp (by decide)
    | (extract_lets +onlyGivenNames x; have hx : Keeps K x; (on_goal 2 => clear_value x); (on_goal 1 => unfold x; clear x))
    | (extract_lets +onlyGivenNames x; have hx : Keeps K x; (on_goal 1 => unfold x; clear x))
    | (extract_lets +onlyGivenNames x; clear_value x)
    | extract_lets +onlyGivenNames x
    | with_reducible apply keeps_set
    | with_reducible apply keeps_updArb
    | with_reducible apply keeps_updArbPort
    | with_reducible apply keeps_arbAdmit
    | with_reducible apply keeps_evt
    | with_reducible apply keeps_bump
    | with_reducible refine keeps_of_fst (by with_reducible assumption) ?_
    | dsimp -zeta -zetaHave only [id]
    | split


theorem keeps_execArbiterRound (a s) (h1 : Keeps K s) (hp : Sub 0x65 K.may) : ∃ t, execArbiterRound a s = .next t ∧ Keeps K t := by
  refine ⟨_, rfl, ?_⟩
  repeat' first
    | with_reducible assumption
    | exact sub_mono hp (by decide)
    | exact Or.inr rfl
    | exact Or.inl (may_of hp (by decide))
    | simp only [↓keeps_mk]
    | refine keepsOf_upd ?_ rfl rfl rfl rfl rfl rfl ?_ ?_ ?_ ?_ ?_ ?_ ?_ ?_ ?_ ?_ ?_ ?_ ?_ ?_ ?_ ?_ ?_ ?_ ?_ ?_ ?_ ?_
    | with_reducible apply keeps_arbRound
    | dsimp -zeta -zetaHave only


theorem keeps_execForerunnerRepresent (a b s) (h2 : Keeps K s) (hp : Sub 0x4 K.may) : ∃ t, execForerunnerRepresent a b s = .next t ∧ Keeps K t := by
  refine ⟨_, rfl, ?_⟩
  repeat' first
    | with_reducible assumption
    | exact sub_mono hp (by decide)
    | exact Or.inr rfl
    | exact Or.inl (may_of hp (by decide))
    | simp only [↓keeps_mk]
    | refine keepsOf_upd ?_ rfl rfl rfl rfl rfl rfl ?_ ?_ ?_ ?_ ?_ ?_ ?_ ?_ ?_ ?_ ?_ ?_ ?_ ?_ ?_ ?_ ?_ ?_ ?_ ?_ ?_ ?_
    | with_reducible apply keeps_arbRepresent
    | dsimp -zeta -zetaHave only


theorem keeps_execScrubRead (s) (h0 : Keeps K s) (hp : Sub 0x64 K.may) : ∃ t, execScrubRead s = .next t ∧ Keeps K t := by
  refine ⟨_, rfl, ?_⟩
  repeat' first
    | with_reducible assumption
    | exact sub_mono hp (by decide)
    | exact Or.inr rfl
    | exact Or.inl (may_of hp (by decide))
    | simp only [↓keeps_mk]
    | refine keepsOf_upd ?_ rfl rfl rfl rfl rfl rfl ?_ ?_ ?_ ?_ ?_ ?_ ?_ ?_ ?_ ?_ ?_ ?_ ?_ ?_ ?_ ?_ ?_ ?_ ?_ ?_ ?_ ?_
    | with_reducible apply keeps_scrubRead
    | dsimp -zeta -zetaHave only


theorem keeps_execNvmProgramDone (s) (h0 : Keeps K s) (hp : Sub 0x65 K.may) : ∃ t, execNvmProgramDone s = .next t ∧ Keeps K t := by
  refine ⟨_, rfl, ?_⟩
  repeat' first
    | with_reducible assumption
    | exact sub_mono hp (by decide)
    | exact Or.inr rfl
    | exact Or.inl (may_of hp (by decide))
    | simp only [↓keeps_mk]
    | refine keepsOf_upd ?_ rfl rfl rfl rfl rfl rfl ?_ ?_ ?_ ?_ ?_ ?_ ?_ ?_ ?_ ?_ ?_ ?_ ?_ ?_ ?_ ?_ ?_ ?_ ?_ ?_ ?_ ?_
    | with_reducible apply keeps_nvmDone
    | dsimp -zeta -zetaHave only


theorem keeps_execMramReadError (a b s) (h2 : Keeps K s) (hp : Sub 0x65 K.may) : ∃ t, execMramReadError a b s = .next t ∧ Keeps K t := by
  refine ⟨_, rfl, ?_⟩
  repeat' first
    | with_reducible assumption
    | exact sub_mono hp (by decide)
    | (extract_lets +onlyGivenNames x; have hx : Keeps K x; (on_goal 2 => clear_value x); (on_goal 1 => unfold x; clear x))
    | (extract_lets +onlyGivenNames x; have hx : Keeps K x; (on_goal 1 => unfold x; clear x))
    | (extract_lets +onlyGivenNames x; clear_value x)
    | extract_lets +onlyGivenNames x
    | exact Or.inr rfl
    | exact Or.inl (may_of hp (by decide))
    | simp only [↓keeps_mk]
    | refine keepsOf_upd ?_ rfl rfl rfl rfl rfl rfl ?_ ?_ ?_ ?_ ?_ ?_ ?_ ?_ ?_ ?_ ?_ ?_ ?_ ?_ ?_ ?_ ?_ ?_ ?_ ?_ ?_ ?_
    | with_reducible apply keeps_mramRead
    | with_reducible apply keeps_emit
    | with_reducible refine keeps_of_fst (by with_reducible assumption) ?_
    | dsimp -zeta -zetaHave only
    | split


end Sys2Proof.Machine
end

