-- ==== Sys2Proof/Laws/KeepsAirLink.lean ====
section
/-!
SUPPORT. What the operations of Machine/AirLink.lean keep.
-/
namespace Sys2Proof.Machine
open Sys2Proof

variable {K : Keeping}

theorem keeps_updAir (s b) (h0 : Keeps K s) (hp : Sub 0x10000 K.may) : Keeps K (updAir s b) := by
  unfold updAir
  repeat' first
    | with_reducible assumption
    | exact sub_mono hp (by decide)
    | exact Or.inr rfl
    | exact Or.inl (may_of hp (by decide))
    | simp only [↓keeps_mk]
    | refine keepsOf_upd ?_ rfl rfl rfl rfl rfl rfl ?_ ?_ ?_ ?_ ?_ ?_ ?_ ?_ ?_ ?_ ?_ ?_ ?_ ?_ ?_ ?_ ?_ ?_ ?_ ?_ ?_ ?_
    | dsimp -zeta -zetaHave only


theorem keeps_airDir (a s) (h1 : Keeps K s) (hp : Sub 0x10000 K.may) : Keeps K (airDir a s) := by
  unfold airDir
  repeat' first
    | with_reducible assumption
    | exact sub_mono hp (by decide)
    | with_reducible apply keeps_emit
    | with_reducible apply keeps_updAir
    | with_reducible refine keeps_of_fst (by with_reducible assumption) ?_
    | dsimp -zeta -zetaHave only
    | split


theorem keeps_packetOut (a s) (h1 : Keeps K s) : Keeps K (packetOut a s) := by
  unfold packetOut
  repeat' first
    | with_reducible assumption
    | with_reducible apply keeps_emit
    | dsimp -zeta -zetaHave only


theorem keeps_sendPacket (a s) (h1 : Keeps K s) (hp : Sub 0x10000 K.may) : Keeps K (sendPacket a s) := by
  unfold sendPacket
  repeat' first
    | with_reducible assumption
    | exact sub_mono hp (by decide)
    | with_reducible apply keeps_packetOut
    | with_reducible apply keeps_updAir
    | with_reducible refine keeps_of_fst (by with_reducible assumption) ?_
    | dsimp -zeta -zetaHave only
    | split


theorem keeps_sendList (s) (h0 : Keeps K s) (hp : Sub 0x10000 K.may) : Keeps K (sendList s) := by
  unfold sendList
  repeat' first
    | with_reducible assumption
    | exact sub_mono hp (by decide)
    | intro _
    | (extract_lets +onlyGivenNames x; clear_value x)
    | extract_lets +onlyGivenNames x
    | with_reducible apply keeps_updAir
    | with_reducible apply keeps_sendPacket
    | with_reducible apply keeps_foldl
    | with_reducible apply keeps_foldl_fst
    | with_reducible refine keeps_of_fst (by with_reducible assumption) ?_
    | dsimp -zeta -zetaHave only
    | split


theorem keeps_airIdle (s) (h0 : Keeps K s) : Keeps K (airIdle s) := by
  unfold airIdle
  repeat' first
    | with_reducible assumption
    | intro _
    | (extract_lets +onlyGivenNames x; have hx : Keeps K x; (on_goal 2 => clear_value x); (on_goal 1 => unfold x; clear x))
    | (extract_lets +onlyGivenNames x; have hx : Keeps K x; (on_goal 1 => unfold x; clear x))
    | with_reducible apply keeps_emit
    | with_reducible apply keeps_foldl
    | with_reducible apply keeps_foldl_fst
    | dsimp -zeta -zetaHave only


theorem keeps_airEntered (s) (h0 : Keeps K s) (hp : Sub 0x10000 K.may) : Keeps K (airEntered s) := by
  unfold airEntered
  repeat' first
    | with_reducible assumption
    | exact sub_mono hp (by decide)
    | (extract_lets +onlyGivenNames x; have hx : Keeps K x; (on_goal 2 => clear_value x); (on_goal 1 => unfold x; clear x))
    | (extract_lets +onlyGivenNames x; have hx : Keeps K x; (on_goal 1 => unfold x; clear x))
    | (extract_lets +onlyGivenNames x; clear_value x)
    | extract_lets +onlyGivenNames x
    | with_reducible apply keeps_updAir
    | with_reducible apply keeps_airIdle
    | with_reducible apply keeps_sendList
    | with_reducible apply keeps_emit
    | with_reducible refine keeps_of_fst (by with_reducible assumption) ?_
    | dsimp -zeta -zetaHave only
    | split


end Sys2Proof.Machine
end

