-- ==== Sys2Proof/Laws/KeepsEff.lean ====
section
/-!
SUPPORT. What the operations of Machine/Eff.lean keep.
-/
namespace Sys2Proof.Machine
open Sys2Proof

variable {K : Keeping}

theorem keeps_updStrand (s b c) (h0 : Keeps K s) (hp : Sub 0x200 K.may) : Keeps K (updStrand s b c) := by
  unfold updStrand
  repeat' first
    | with_reducible assumption
    | exact sub_mono hp (by decide)
    | (extract_lets +onlyGivenNames x; clear_value x)
    | extract_lets +onlyGivenNames x
    | exact Or.inr rfl
    | exact Or.inl (may_of hp (by decide))
    | simp only [↓keeps_mk]
    | refine keepsOf_upd ?_ rfl rfl rfl rfl rfl rfl ?_ ?_ ?_ ?_ ?_ ?_ ?_ ?_ ?_ ?_ ?_ ?_ ?_ ?_ ?_ ?_ ?_ ?_ ?_ ?_ ?_ ?_
    | dsimp -zeta -zetaHave only


theorem keeps_updVen (s b c) (h0 : Keeps K s) (hp : Sub 0x100 K.may) : Keeps K (updVen s b c) := by
  unfold updVen
  repeat' first
    | with_reducible assumption
    | exact sub_mono hp (by decide)
    | exact Or.inr rfl
    | exact Or.inl (may_of hp (by decide))
    | simp only [↓keeps_mk]
    | refine keepsOf_upd ?_ rfl rfl rfl rfl rfl rfl ?_ ?_ ?_ ?_ ?_ ?_ ?_ ?_ ?_ ?_ ?_ ?_ ?_ ?_ ?_ ?_ ?_ ?_ ?_ ?_ ?_ ?_
    | dsimp -zeta -zetaHave only


theorem keeps_putEff (a b s) (h2 : Keeps K s) (hp : Sub 0x60 K.may) : Keeps K (putEff a b s) := by
  unfold putEff
  repeat' first
    | with_reducible assumption
    | exact sub_mono hp (by decide)
    | (extract_lets +onlyGivenNames x; have hx : Keeps K x; (on_goal 2 => clear_value x); (on_goal 1 => unfold x; clear x))
    | (extract_lets +onlyGivenNames x; have hx : Keeps K x; (on_goal 1 => unfold x; clear x))
    | (extract_lets +onlyGivenNames x; clear_value x)
    | extract_lets +onlyGivenNames x
    | with_reducible apply keeps_setReg
    | with_reducible apply keeps_evt
    | with_reducible apply keeps_bump
    | with_reducible refine keeps_of_fst (by with_reducible assumption) ?_
    | dsimp -zeta -zetaHave only
    | split


theorem keeps_refresh (a s) (h1 : Keeps K s) (hp : Sub 0x60 K.may) : Keeps K (refresh a s) := by
  unfold refresh
  repeat' first
    | with_reducible assumption
    | exact sub_mono hp (by decide)
    | intro _
    | with_reducible apply keeps_putEff
    | with_reducible apply keeps_foldl
    | with_reducible apply keeps_foldl_fst
    | with_reducible refine keeps_of_fst (by with_reducible assumption) ?_
    | dsimp -zeta -zetaHave only
    | split


theorem keeps_refreshStrands (s) (h0 : Keeps K s) (hp : Sub 0x60 K.may) : Keeps K (refreshStrands s) := by
  unfold refreshStrands
  repeat' first
    | with_reducible assumption
    | exact sub_mono hp (by decide)
    | intro _
    | with_reducible apply keeps_refresh
    | with_reducible apply keeps_foldl
    | with_reducible apply keeps_foldl_fst
    | dsimp -zeta -zetaHave only


theorem keeps_refreshAll (s) (h0 : Keeps K s) (hp : Sub 0x10060 K.may) : Keeps K (refreshAll s) := by
  unfold refreshAll
  repeat' first
    | with_reducible assumption
    | exact sub_mono hp (by decide)
    | intro _
    | with_reducible apply keeps_airEntered
    | with_reducible apply keeps_refreshStrands
    | with_reducible apply keeps_refresh
    | with_reducible apply keeps_foldl
    | with_reducible apply keeps_foldl_fst
    | dsimp -zeta -zetaHave only


theorem keeps_refreshAir (s) (h0 : Keeps K s) (hp : Sub 0x10060 K.may) : Keeps K (refreshAir s) := by
  unfold refreshAir
  repeat' first
    | with_reducible assumption
    | exact sub_mono hp (by decide)
    | with_reducible apply keeps_airEntered
    | with_reducible apply keeps_refresh
    | dsimp -zeta -zetaHave only


end Sys2Proof.Machine
end

