-- ==== Sys2Proof/Laws/KeepsCommit.lean ====
section
/-!
SUPPORT. What the operations of Machine/Commit.lean keep.
-/
namespace Sys2Proof.Machine
open Sys2Proof

variable {K : Keeping}

theorem keeps_merged (s) (h0 : Keeps K s) : Keeps K (merged s) := by
  exact ⟨keepsOf_regs (regFileOk_foldl _ _ _ h0.parts.regsOk) h0.parts⟩


theorem keeps_stage (a b c s) (h3 : Keeps K s) (hp : Sub 0x400000 K.may) : Keeps K (stage a b c s) := by
  unfold stage
  repeat' first
    | with_reducible assumption
    | exact sub_mono hp (by decide)
    | exact Or.inr rfl
    | exact Or.inl (may_of hp (by decide))
    | simp only [↓keeps_mk]
    | with_reducible apply keepsOf_stagedSet
    | refine keepsOf_upd ?_ rfl rfl rfl rfl rfl rfl ?_ ?_ ?_ ?_ ?_ ?_ ?_ ?_ ?_ ?_ ?_ ?_ ?_ ?_ ?_ ?_ ?_ ?_ ?_ ?_ ?_ ?_
    | exact may_of hp (by decide)
    | with_reducible refine keeps_of_fst (by with_reducible assumption) ?_
    | dsimp -zeta -zetaHave only
    | split


theorem keeps_clearRejects (s) (h0 : Keeps K s) : Keeps K (clearRejects s) := by
  unfold clearRejects
  repeat' first
    | with_reducible assumption
    | intro _
    | with_reducible apply keeps_setReg
    | with_reducible apply keeps_foldl
    | with_reducible apply keeps_foldl_fst
    | with_reducible refine keeps_of_fst (by with_reducible assumption) ?_
    | dsimp -zeta -zetaHave only
    | split


theorem keeps_setOwner (a s) (h1 : Keeps K s) (hp : Sub 0x70 K.may) : Keeps K (setOwner a s) := by
  unfold setOwner
  repeat' first
    | with_reducible assumption
    | exact sub_mono hp (by decide)
    | (extract_lets +onlyGivenNames x; clear_value x)
    | extract_lets +onlyGivenNames x
    | exact Or.inr rfl
    | exact Or.inl (may_of hp (by decide))
    | simp only [↓keeps_mk]
    | refine keepsOf_upd ?_ rfl rfl rfl rfl rfl rfl ?_ ?_ ?_ ?_ ?_ ?_ ?_ ?_ ?_ ?_ ?_ ?_ ?_ ?_ ?_ ?_ ?_ ?_ ?_ ?_ ?_ ?_
    | with_reducible apply keeps_evt
    | with_reducible refine keeps_of_fst (by with_reducible assumption) ?_
    | dsimp -zeta -zetaHave only
    | split


theorem keeps_endCommit (a b s) (h2 : Keeps K s) (hp : Sub 0x70 K.may) : Keeps K (endCommit a b s) := by
  unfold endCommit
  repeat' first
    | with_reducible assumption
    | exact sub_mono hp (by decide)
    | (extract_lets +onlyGivenNames x; have hx : Keeps K x; (on_goal 2 => clear_value x); (on_goal 1 => unfold x; clear x))
    | (extract_lets +onlyGivenNames x; have hx : Keeps K x; (on_goal 1 => unfold x; clear x))
    | (extract_lets +onlyGivenNames x; clear_value x)
    | extract_lets +onlyGivenNames x
    | exact Or.inr rfl
    | exact Or.inl (may_of hp (by decide))
    | simp only [↓keeps_mk]
    | refine keepsOf_upd ?_ rfl rfl rfl rfl rfl rfl ?_ ?_ ?_ ?_ ?_ ?_ ?_ ?_ ?_ ?_ ?_ ?_ ?_ ?_ ?_ ?_ ?_ ?_ ?_ ?_ ?_ ?_
    | with_reducible apply keeps_evt
    | with_reducible apply keeps_set
    | dsimp -zeta -zetaHave only


theorem keeps_cancelCommit (a s) (h1 : Keeps K s) (hp : Sub 0x70 K.may) : Keeps K (cancelCommit a s) := by
  unfold cancelCommit
  repeat' first
    | with_reducible assumption
    | exact sub_mono hp (by decide)
    | with_reducible apply keeps_endCommit
    | with_reducible apply keeps_bump
    | dsimp -zeta -zetaHave only


theorem keeps_claim (a s) (h1 : Keeps K s) (hp : Sub 0x70 K.may) : Keeps K (claim a s) := by
  unfold claim
  repeat' first
    | with_reducible assumption
    | exact sub_mono hp (by decide)
    | with_reducible apply keeps_fault
    | with_reducible apply keeps_setOwner
    | with_reducible refine keeps_of_fst (by with_reducible assumption) ?_
    | dsimp -zeta -zetaHave only
    | split


theorem keeps_release (a s) (h1 : Keeps K s) (hp : Sub 0x70 K.may) : Keeps K (release a s) := by
  unfold release
  repeat' first
    | with_reducible assumption
    | exact sub_mono hp (by decide)
    | with_reducible apply keeps_setOwner
    | with_reducible apply keeps_fault
    | with_reducible refine keeps_of_fst (by with_reducible assumption) ?_
    | dsimp -zeta -zetaHave only
    | split


theorem keeps_seize (a s) (h1 : Keeps K s) (hp : Sub 0x70 K.may) : Keeps K (seize a s) := by
  unfold seize
  repeat' first
    | with_reducible assumption
    | exact sub_mono hp (by decide)
    | (extract_lets +onlyGivenNames x; have hx : Keeps K x; (on_goal 2 => clear_value x); (on_goal 1 => unfold x; clear x))
    | (extract_lets +onlyGivenNames x; have hx : Keeps K x; (on_goal 1 => unfold x; clear x))
    | with_reducible apply keeps_setOwner
    | with_reducible apply keeps_cancelCommit
    | with_reducible apply keeps_fault
    | with_reducible refine keeps_of_fst (by with_reducible assumption) ?_
    | dsimp -zeta -zetaHave only
    | split


theorem keeps_ownWrite (a b s) (h2 : Keeps K s) (hp : Sub 0x70 K.may) : Keeps K (ownWrite a b s) := by
  unfold ownWrite
  repeat' first
    | with_reducible assumption
    | exact sub_mono hp (by decide)
    | (extract_lets +onlyGivenNames x; have hx : Keeps K x; (on_goal 2 => clear_value x); (on_goal 1 => unfold x; clear x))
    | (extract_lets +onlyGivenNames x; have hx : Keeps K x; (on_goal 1 => unfold x; clear x))
    | (extract_lets +onlyGivenNames x; clear_value x)
    | extract_lets +onlyGivenNames x
    | with_reducible apply keeps_fault
    | with_reducible apply keeps_claim
    | with_reducible apply keeps_release
    | with_reducible apply keeps_seize
    | with_reducible refine keeps_of_fst (by with_reducible assumption) ?_
    | dsimp -zeta -zetaHave only
    | split


theorem keeps_discard (a s) (h1 : Keeps K s) (hp : Sub 0x400000 K.may) : Keeps K (discard a s) := by
  unfold discard
  split
  · exact keeps_fault _ _ _ _ _ h1
  · split
    · exact keeps_fault _ _ _ _ _ h1
    · exact keeps_clearRejects _ ⟨keepsOf_stagedNil (may_of hp (by decide)) h1.parts⟩


theorem keeps_disarm (a s) (h1 : Keeps K s) (hp : Sub 0x70 K.may) : Keeps K (disarm a s) := by
  unfold disarm
  repeat' first
    | with_reducible assumption
    | exact sub_mono hp (by decide)
    | (extract_lets +onlyGivenNames x; clear_value x)
    | extract_lets +onlyGivenNames x
    | exact Or.inr rfl
    | exact Or.inl (may_of hp (by decide))
    | simp only [↓keeps_mk]
    | refine keepsOf_upd ?_ rfl rfl rfl rfl rfl rfl ?_ ?_ ?_ ?_ ?_ ?_ ?_ ?_ ?_ ?_ ?_ ?_ ?_ ?_ ?_ ?_ ?_ ?_ ?_ ?_ ?_ ?_
    | with_reducible apply keeps_fault
    | with_reducible apply keeps_cancelCommit
    | with_reducible refine keeps_of_fst (by with_reducible assumption) ?_
    | dsimp -zeta -zetaHave only
    | split


theorem keeps_ctlWrite (a b s) (h2 : Keeps K s) (hp : Sub 0x400070 K.may) : Keeps K (ctlWrite a b s) := by
  unfold ctlWrite
  repeat' first
    | with_reducible assumption
    | exact sub_mono hp (by decide)
    | with_reducible apply keeps_discard
    | with_reducible apply keeps_disarm
    | with_reducible refine keeps_of_fst (by with_reducible assumption) ?_
    | dsimp -zeta -zetaHave only
    | split


theorem keeps_armFor (a b c s) (h3 : Keeps K s) (hp : Sub 0x10 K.may) : Keeps K (armFor a b c s) := by
  unfold armFor
  repeat' first
    | with_reducible assumption
    | exact sub_mono hp (by decide)
    | (extract_lets +onlyGivenNames x; clear_value x)
    | extract_lets +onlyGivenNames x
    | exact Or.inr rfl
    | exact Or.inl (may_of hp (by decide))
    | simp only [↓keeps_mk]
    | refine keepsOf_upd ?_ rfl rfl rfl rfl rfl rfl ?_ ?_ ?_ ?_ ?_ ?_ ?_ ?_ ?_ ?_ ?_ ?_ ?_ ?_ ?_ ?_ ?_ ?_ ?_ ?_ ?_ ?_
    | dsimp -zeta -zetaHave only


theorem keeps_arm (a b s) (h2 : Keeps K s) (hp : Sub 0x10 K.may) : Keeps K (arm a b s) := by
  unfold arm
  repeat' first
    | with_reducible assumption
    | exact sub_mono hp (by decide)
    | (extract_lets +onlyGivenNames x; clear_value x)
    | extract_lets +onlyGivenNames x
    | with_reducible apply keeps_fault
    | with_reducible apply keeps_armFor
    | with_reducible refine keeps_of_fst (by with_reducible assumption) ?_
    | dsimp -zeta -zetaHave only
    | split


theorem keeps_lockAt (a s) (h1 : Keeps K s) (hp : Sub 0x70 K.may) : Keeps K (lockAt a s) := by
  unfold lockAt
  repeat' first
    | with_reducible assumption
    | exact sub_mono hp (by decide)
    | (extract_lets +onlyGivenNames x; clear_value x)
    | extract_lets +onlyGivenNames x
    | exact Or.inr rfl
    | exact Or.inl (may_of hp (by decide))
    | simp only [↓keeps_mk]
    | refine keepsOf_upd ?_ rfl rfl rfl rfl rfl rfl ?_ ?_ ?_ ?_ ?_ ?_ ?_ ?_ ?_ ?_ ?_ ?_ ?_ ?_ ?_ ?_ ?_ ?_ ?_ ?_ ?_ ?_
    | with_reducible apply keeps_cancelCommit
    | with_reducible refine keeps_of_fst (by with_reducible assumption) ?_
    | dsimp -zeta -zetaHave only
    | split


theorem keeps_checkPassed (s) (h0 : Keeps K s) (hp : Sub 0x70 K.may) : Keeps K (checkPassed s) := by
  unfold checkPassed
  repeat' first
    | with_reducible assumption
    | exact sub_mono hp (by decide)
    | (extract_lets +onlyGivenNames x; clear_value x)
    | extract_lets +onlyGivenNames x
    | exact Or.inr rfl
    | exact Or.inl (may_of hp (by decide))
    | simp only [↓keeps_mk]
    | refine keepsOf_upd ?_ rfl rfl rfl rfl rfl rfl ?_ ?_ ?_ ?_ ?_ ?_ ?_ ?_ ?_ ?_ ?_ ?_ ?_ ?_ ?_ ?_ ?_ ?_ ?_ ?_ ?_ ?_
    | with_reducible apply keeps_cancelCommit
    | with_reducible refine keeps_of_fst (by with_reducible assumption) ?_
    | dsimp -zeta -zetaHave only
    | split


theorem keeps_recordRejects (a s) (h1 : Keeps K s) : Keeps K (recordRejects a s) := by
  unfold recordRejects
  repeat' first
    | with_reducible assumption
    | intro _
    | (extract_lets +onlyGivenNames x; have hx : Keeps K x; (on_goal 2 => clear_value x); (on_goal 1 => unfold x; clear x))
    | (extract_lets +onlyGivenNames x; have hx : Keeps K x; (on_goal 1 => unfold x; clear x))
    | with_reducible apply keeps_set
    | with_reducible apply keeps_clearRejects
    | with_reducible apply keeps_foldl
    | with_reducible apply keeps_foldl_fst
    | with_reducible refine keeps_of_fst (by with_reducible assumption) ?_
    | dsimp -zeta -zetaHave only
    | split


theorem keeps_checkEnd (a s) (h1 : Keeps K s) (hp : Sub 0x70 K.may) : Keeps K (checkEnd a s) := by
  unfold checkEnd
  repeat' first
    | with_reducible assumption
    | exact sub_mono hp (by decide)
    | (extract_lets +onlyGivenNames x; have hx : Keeps K x; (on_goal 2 => clear_value x); (on_goal 1 => unfold x; clear x))
    | (extract_lets +onlyGivenNames x; have hx : Keeps K x; (on_goal 1 => unfold x; clear x))
    | with_reducible apply keeps_recordRejects
    | with_reducible apply keeps_checkPassed
    | with_reducible apply keeps_cancelCommit
    | with_reducible apply keeps_endCommit
    | with_reducible apply keeps_bump
    | with_reducible refine keeps_of_fst (by with_reducible assumption) ?_
    | dsimp -zeta -zetaHave only
    | split


theorem keeps_applyCommit (a s) (h1 : Keeps K s) (hp : Sub 0x400070 K.may) : Keeps K (applyCommit a s) := by
  unfold applyCommit
  split
  · extract_lets -underBinder m s1 s2 s3 late
    have km : Keeps K m := keeps_merged _ h1
    have k1 : Keeps K s1 := ⟨keepsOf_stagedNil (may_of hp (by decide)) km.parts⟩
    have k3 : Keeps K s3 := keeps_setReg _ _ _ _ (keeps_setReg _ _ _ _ (keeps_setReg _ _ _ _ k1))
    exact keeps_endCommit _ _ _ (keeps_bump _ _ _ _ _ k3) (sub_mono hp (by decide))
  · exact h1


theorem keeps_peaksKept (s) (h0 : Keeps K s) : Keeps K (peaksKept s) := by
  unfold peaksKept
  repeat' first
    | with_reducible assumption
    | intro _
    | (extract_lets +onlyGivenNames x; have hx : Keeps K x; (on_goal 2 => clear_value x); (on_goal 1 => unfold x; clear x))
    | (extract_lets +onlyGivenNames x; have hx : Keeps K x; (on_goal 1 => unfold x; clear x))
    | (extract_lets +onlyGivenNames x; have hx : ∀ y0 y1 y2 y3 y4, Keeps K y4 → Keeps K (x y0 y1 y2 y3 y4); (on_goal 2 => clear_value x); (on_goal 1 => unfold x; clear x))
    | (extract_lets +onlyGivenNames x; clear_value x)
    | extract_lets +onlyGivenNames x
    | with_reducible apply keeps_statMax
    | with_reducible apply_assumption -exfalso -symm
    | with_reducible apply keeps_foldl
    | with_reducible apply keeps_foldl_fst
    | with_reducible refine keeps_of_fst (by with_reducible assumption) ?_
    | dsimp -zeta -zetaHave only
    | split


theorem keeps_latchNow (a s) (h1 : Keeps K s) : Keeps K (latchNow a s) := by
  unfold latchNow
  extract_lets -underBinder live noSlack keep s1 s2 s3 s4 s5
  have k1 : Keeps K s1 := ⟨keepsOf_regsFilter h1.parts⟩
  have k2 : Keeps K s2 := keeps_foldl (fun s x h => by
    dsimp only
    split
    · exact keeps_setReg _ _ _ _ h
    · exact h) k1
  have k3 : Keeps K s3 := ⟨keepsOf_ctr rfl k2.parts⟩
  have k4 : Keeps K s4 := keeps_peaksKept _ k3
  have k5 : Keeps K s5 := by
    unfold s5
    split
    · exact keeps_set _ _ _ _ _ k4
    · exact k4
  exact keeps_foldl (fun s x h => by
    split
    · exact keeps_setReg _ _ _ _ (keeps_setReg _ _ _ _ h)
    · exact h) k5


theorem keeps_holdEnd (s) (h0 : Keeps K s) (hp : Sub 0x70 K.may) : Keeps K (holdEnd s) := by
  unfold holdEnd
  repeat' first
    | with_reducible assumption
    | exact sub_mono hp (by decide)
    | (extract_lets +onlyGivenNames x; clear_value x)
    | extract_lets +onlyGivenNames x
    | exact Or.inr rfl
    | exact Or.inl (may_of hp (by decide))
    | simp only [↓keeps_mk]
    | refine keepsOf_upd ?_ rfl rfl rfl rfl rfl rfl ?_ ?_ ?_ ?_ ?_ ?_ ?_ ?_ ?_ ?_ ?_ ?_ ?_ ?_ ?_ ?_ ?_ ?_ ?_ ?_ ?_ ?_
    | with_reducible apply keeps_evt
    | with_reducible apply keeps_bump
    | dsimp -zeta -zetaHave only


theorem keeps_latchStats (s) (h0 : Keeps K s) (hp : Sub 0x70 K.may) : Keeps K (latchStats s) := by
  unfold latchStats
  repeat' first
    | with_reducible assumption
    | exact sub_mono hp (by decide)
    | (extract_lets +onlyGivenNames x; have hx : Keeps K x; (on_goal 2 => clear_value x); (on_goal 1 => unfold x; clear x))
    | (extract_lets +onlyGivenNames x; have hx : Keeps K x; (on_goal 1 => unfold x; clear x))
    | (extract_lets +onlyGivenNames x; clear_value x)
    | extract_lets +onlyGivenNames x
    | exact Or.inr rfl
    | exact Or.inl (may_of hp (by decide))
    | simp only [↓keeps_mk]
    | refine keepsOf_upd ?_ rfl rfl rfl rfl rfl rfl ?_ ?_ ?_ ?_ ?_ ?_ ?_ ?_ ?_ ?_ ?_ ?_ ?_ ?_ ?_ ?_ ?_ ?_ ?_ ?_ ?_ ?_
    | with_reducible apply keeps_holdEnd
    | with_reducible apply keeps_latchNow
    | with_reducible refine keeps_of_fst (by with_reducible assumption) ?_
    | dsimp -zeta -zetaHave only
    | split


theorem keeps_holdBroken (s) (h0 : Keeps K s) (hp : Sub 0x70 K.may) : Keeps K (holdBroken s) := by
  unfold holdBroken
  repeat' first
    | with_reducible assumption
    | exact sub_mono hp (by decide)
    | (extract_lets +onlyGivenNames x; have hx : Keeps K x; (on_goal 2 => clear_value x); (on_goal 1 => unfold x; clear x))
    | (extract_lets +onlyGivenNames x; have hx : Keeps K x; (on_goal 1 => unfold x; clear x))
    | (extract_lets +onlyGivenNames x; clear_value x)
    | extract_lets +onlyGivenNames x
    | exact Or.inr rfl
    | exact Or.inl (may_of hp (by decide))
    | simp only [↓keeps_mk]
    | refine keepsOf_upd ?_ rfl rfl rfl rfl rfl rfl ?_ ?_ ?_ ?_ ?_ ?_ ?_ ?_ ?_ ?_ ?_ ?_ ?_ ?_ ?_ ?_ ?_ ?_ ?_ ?_ ?_ ?_
    | with_reducible apply keeps_evt
    | with_reducible apply keeps_bump
    | with_reducible apply keeps_latchNow
    | with_reducible refine keeps_of_fst (by with_reducible assumption) ?_
    | dsimp -zeta -zetaHave only
    | split


theorem keeps_statHold (a b s) (h2 : Keeps K s) (hp : Sub 0x70 K.may) : Keeps K (statHold a b s) := by
  unfold statHold
  repeat' first
    | with_reducible assumption
    | exact sub_mono hp (by decide)
    | (extract_lets +onlyGivenNames x; clear_value x)
    | extract_lets +onlyGivenNames x
    | exact Or.inr rfl
    | exact Or.inl (may_of hp (by decide))
    | simp only [↓keeps_mk]
    | refine keepsOf_upd ?_ rfl rfl rfl rfl rfl rfl ?_ ?_ ?_ ?_ ?_ ?_ ?_ ?_ ?_ ?_ ?_ ?_ ?_ ?_ ?_ ?_ ?_ ?_ ?_ ?_ ?_ ?_
    | with_reducible apply keeps_holdEnd
    | with_reducible apply keeps_fault
    | with_reducible refine keeps_of_fst (by with_reducible assumption) ?_
    | dsimp -zeta -zetaHave only
    | split


end Sys2Proof.Machine
end

