-- ==== Sys2Proof/Laws/KeepsTime.lean ====
section
/-!
SUPPORT. What the operations of Machine/Time.lean keep.
-/
namespace Sys2Proof.Machine
open Sys2Proof

variable {K : Keeping}

theorem keeps_updTime (s b) (h0 : Keeps K s) (hp : Sub 0x8 K.may) : Keeps K (updTime s b) := by
  unfold updTime
  repeat' first
    | with_reducible assumption
    | exact sub_mono hp (by decide)
    | exact Or.inr rfl
    | exact Or.inl (may_of hp (by decide))
    | simp only [↓keeps_mk]
    | refine keepsOf_upd ?_ rfl rfl rfl rfl rfl rfl ?_ ?_ ?_ ?_ ?_ ?_ ?_ ?_ ?_ ?_ ?_ ?_ ?_ ?_ ?_ ?_ ?_ ?_ ?_ ?_ ?_ ?_
    | dsimp -zeta -zetaHave only


theorem keeps_enableEval (s) (h0 : Keeps K s) (hp : Sub 0x80010 K.may) : Keeps K (enableEval s) := by
  unfold enableEval
  repeat' first
    | with_reducible assumption
    | exact sub_mono hp (by decide)
    | (extract_lets +onlyGivenNames x; have hx : Keeps K x; (on_goal 2 => clear_value x); (on_goal 1 => unfold x; clear x))
    | (extract_lets +onlyGivenNames x; have hx : Keeps K x; (on_goal 1 => unfold x; clear x))
    | (extract_lets +onlyGivenNames x; clear_value x)
    | extract_lets +onlyGivenNames x
    | exact Or.inr rfl
    | exact Or.inl (may_of hp (by decide))
    | simp only [↓keeps_mk]
    | refine keepsOf_upd ?_ rfl rfl rfl rfl rfl rfl ?_ ?_ ?_ ?_ ?_ ?_ ?_ ?_ ?_ ?_ ?_ ?_ ?_ ?_ ?_ ?_ ?_ ?_ ?_ ?_ ?_ ?_
    | with_reducible refine keeps_of_fst (by with_reducible assumption) ?_
    | dsimp -zeta -zetaHave only
    | split


theorem keeps_stepEnded (a s) (h1 : Keeps K s) : Keeps K (stepEnded a s) := by
  unfold stepEnded
  repeat' first
    | with_reducible assumption
    | (extract_lets +onlyGivenNames x; have hx : Keeps K x; (on_goal 2 => clear_value x); (on_goal 1 => unfold x; clear x))
    | (extract_lets +onlyGivenNames x; have hx : Keeps K x; (on_goal 1 => unfold x; clear x))
    | (extract_lets +onlyGivenNames x; clear_value x)
    | extract_lets +onlyGivenNames x
    | with_reducible apply keeps_setReg
    | with_reducible refine keeps_of_fst (by with_reducible assumption) ?_
    | dsimp -zeta -zetaHave only
    | split


theorem keeps_enableAgain (s) (h0 : Keeps K s) (hp : Sub 0x80000 K.may) : Keeps K (enableAgain s) := by
  unfold enableAgain
  repeat' first
    | with_reducible assumption
    | exact sub_mono hp (by decide)
    | (extract_lets +onlyGivenNames x; clear_value x)
    | extract_lets +onlyGivenNames x
    | exact Or.inr rfl
    | exact Or.inl (may_of hp (by decide))
    | simp only [↓keeps_mk]
    | refine keepsOf_upd ?_ rfl rfl rfl rfl rfl rfl ?_ ?_ ?_ ?_ ?_ ?_ ?_ ?_ ?_ ?_ ?_ ?_ ?_ ?_ ?_ ?_ ?_ ?_ ?_ ?_ ?_ ?_
    | with_reducible refine keeps_of_fst (by with_reducible assumption) ?_
    | dsimp -zeta -zetaHave only
    | split


theorem keeps_timeChanged (s) (h0 : Keeps K s) (hp : Sub 0x90070 K.may) : Keeps K (timeChanged s) := by
  unfold timeChanged
  repeat' first
    | with_reducible assumption
    | exact sub_mono hp (by decide)
    | with_reducible apply keeps_enableEval
    | with_reducible apply keeps_refreshAll
    | with_reducible apply keeps_stepEnded
    | with_reducible refine keeps_of_fst (by with_reducible assumption) ?_
    | dsimp -zeta -zetaHave only
    | split


theorem keeps_setCorr (a s) (h1 : Keeps K s) (hp : Sub 0x8 K.may) : Keeps K (setCorr a s) := by
  unfold setCorr
  repeat' first
    | with_reducible assumption
    | exact sub_mono hp (by decide)
    | (extract_lets +onlyGivenNames x; clear_value x)
    | extract_lets +onlyGivenNames x
    | with_reducible apply keeps_updTime
    | dsimp -zeta -zetaHave only


theorem keeps_clampCorr (a s) (h1 : Keeps K s) (hp : Sub 0x60 K.may) : Keeps K (clampCorr a s).1 := by
  unfold clampCorr
  repeat' first
    | with_reducible assumption
    | exact sub_mono hp (by decide)
    | (extract_lets +onlyGivenNames x; clear_value x)
    | extract_lets +onlyGivenNames x
    | with_reducible apply keeps_evtIf
    | dsimp -zeta -zetaHave only


theorem keeps_autoSource (s) (h0 : Keeps K s) (hp : Sub 0x68 K.may) : Keeps K (autoSource s) := by
  unfold autoSource
  repeat' first
    | with_reducible assumption
    | exact sub_mono hp (by decide)
    | (extract_lets +onlyGivenNames x; clear_value x)
    | extract_lets +onlyGivenNames x
    | with_reducible apply keeps_evt
    | with_reducible apply keeps_updTime
    | with_reducible refine keeps_of_fst (by with_reducible assumption) ?_
    | dsimp -zeta -zetaHave only
    | split


theorem keeps_timePathSync (s) (h0 : Keeps K s) (hp : Sub 0x68 K.may) : Keeps K (timePathSync s) := by
  unfold timePathSync
  repeat' first
    | with_reducible assumption
    | exact sub_mono hp (by decide)
    | (extract_lets +onlyGivenNames x; have hx : Keeps K x; (on_goal 2 => clear_value x); (on_goal 1 => unfold x; clear x))
    | (extract_lets +onlyGivenNames x; have hx : Keeps K x; (on_goal 1 => unfold x; clear x))
    | (extract_lets +onlyGivenNames x; clear_value x)
    | extract_lets +onlyGivenNames x
    | with_reducible apply keeps_set
    | with_reducible apply keeps_autoSource
    | with_reducible apply keeps_updTime
    | with_reducible refine keeps_of_fst (by with_reducible assumption) ?_
    | dsimp -zeta -zetaHave only
    | split


theorem keeps_servoTo (a s) (h1 : Keeps K s) (hp : Sub 0x90078 K.may) : Keeps K (servoTo a s) := by
  unfold servoTo
  repeat' first
    | with_reducible assumption
    | exact sub_mono hp (by decide)
    | (extract_lets +onlyGivenNames x; have hx : Keeps K x; (on_goal 2 => clear_value x); (on_goal 1 => unfold x; clear x))
    | (extract_lets +onlyGivenNames x; have hx : Keeps K x; (on_goal 1 => unfold x; clear x))
    | (extract_lets +onlyGivenNames x; clear_value x)
    | extract_lets +onlyGivenNames x
    | with_reducible apply keeps_updTime
    | with_reducible apply keeps_evtIf
    | with_reducible apply keeps_timeChanged
    | with_reducible apply keeps_timePathSync
    | with_reducible refine keeps_of_fst (by with_reducible assumption) ?_
    | dsimp -zeta -zetaHave only
    | split


theorem keeps_servoLost (s) (h0 : Keeps K s) (hp : Sub 0x90078 K.may) : Keeps K (servoLost s) := by
  unfold servoLost
  repeat' first
    | with_reducible assumption
    | exact sub_mono hp (by decide)
    | (extract_lets +onlyGivenNames x; have hx : Keeps K x; (on_goal 2 => clear_value x); (on_goal 1 => unfold x; clear x))
    | (extract_lets +onlyGivenNames x; have hx : Keeps K x; (on_goal 1 => unfold x; clear x))
    | with_reducible apply keeps_updTime
    | with_reducible apply keeps_servoTo
    | with_reducible refine keeps_of_fst (by with_reducible assumption) ?_
    | dsimp -zeta -zetaHave only
    | split


theorem keeps_servoTimeout (s) (h0 : Keeps K s) (hp : Sub 0x90078 K.may) : Keeps K (servoTimeout s) := by
  unfold servoTimeout
  repeat' first
    | with_reducible assumption
    | exact sub_mono hp (by decide)
    | with_reducible apply keeps_servoLost
    | with_reducible apply keeps_servoTo
    | with_reducible apply keeps_updTime
    | with_reducible refine keeps_of_fst (by with_reducible assumption) ?_
    | dsimp -zeta -zetaHave only
    | split


theorem keeps_servoSrcWrite (a b s) (h2 : Keeps K s) (hp : Sub 0x90078 K.may) : Keeps K (servoSrcWrite a b s) := by
  unfold servoSrcWrite
  repeat' first
    | with_reducible assumption
    | exact sub_mono hp (by decide)
    | (extract_lets +onlyGivenNames x; have hx : Keeps K x; (on_goal 2 => clear_value x); (on_goal 1 => unfold x; clear x))
    | (extract_lets +onlyGivenNames x; have hx : Keeps K x; (on_goal 1 => unfold x; clear x))
    | (extract_lets +onlyGivenNames x; clear_value x)
    | extract_lets +onlyGivenNames x
    | with_reducible apply keeps_fault
    | with_reducible apply keeps_set
    | with_reducible apply keeps_timePathSync
    | with_reducible apply keeps_updTime
    | with_reducible apply keeps_servoLost
    | with_reducible refine keeps_of_fst (by with_reducible assumption) ?_
    | dsimp -zeta -zetaHave only
    | split


theorem keeps_freezeSet (a s) (h1 : Keeps K s) (hp : Sub 0x90078 K.may) : Keeps K (freezeSet a s) := by
  unfold freezeSet
  repeat' first
    | with_reducible assumption
    | exact sub_mono hp (by decide)
    | (extract_lets +onlyGivenNames x; have hx : Keeps K x; (on_goal 2 => clear_value x); (on_goal 1 => unfold x; clear x))
    | (extract_lets +onlyGivenNames x; have hx : Keeps K x; (on_goal 1 => unfold x; clear x))
    | with_reducible apply keeps_set
    | with_reducible apply keeps_servoLost
    | with_reducible apply keeps_updTime
    | with_reducible refine keeps_of_fst (by with_reducible assumption) ?_
    | dsimp -zeta -zetaHave only
    | split


theorem keeps_cancelBelow (a b c s) (h3 : Keeps K s) (hp : Sub 0x70 K.may) : Keeps K (cancelBelow a b c s) := by
  unfold cancelBelow
  repeat' first
    | with_reducible assumption
    | exact sub_mono hp (by decide)
    | with_reducible apply keeps_cancelCommit
    | with_reducible refine keeps_of_fst (by with_reducible assumption) ?_
    | dsimp -zeta -zetaHave only
    | split


theorem keeps_refund (a s) (h1 : Keeps K s) (hp : Sub 0x10000 K.may) : Keeps K (refund a s) := by
  unfold refund
  repeat' first
    | with_reducible assumption
    | exact sub_mono hp (by decide)
    | (extract_lets +onlyGivenNames x; have hx : Keeps K x; (on_goal 2 => clear_value x); (on_goal 1 => unfold x; clear x))
    | (extract_lets +onlyGivenNames x; have hx : Keeps K x; (on_goal 1 => unfold x; clear x))
    | with_reducible apply keeps_updAir
    | with_reducible apply keeps_setStat
    | with_reducible refine keeps_of_fst (by with_reducible assumption) ?_
    | dsimp -zeta -zetaHave only
    | split


theorem keeps_loadLate (a s) (h1 : Keeps K s) (hp : Sub 0x10060 K.may) : Keeps K (loadLate a s) := by
  unfold loadLate
  repeat' first
    | with_reducible assumption
    | exact sub_mono hp (by decide)
    | with_reducible apply keeps_evt
    | with_reducible apply keeps_bump
    | with_reducible apply keeps_updAir
    | with_reducible apply keeps_refund
    | dsimp -zeta -zetaHave only


theorem keeps_airStepped (a s) (h1 : Keeps K s) (hp : Sub 0x10060 K.may) : Keeps K (airStepped a s) := by
  unfold airStepped
  repeat' first
    | with_reducible assumption
    | exact sub_mono hp (by decide)
    | (extract_lets +onlyGivenNames x; have hx : Keeps K x; (on_goal 2 => clear_value x); (on_goal 1 => unfold x; clear x))
    | (extract_lets +onlyGivenNames x; have hx : Keeps K x; (on_goal 1 => unfold x; clear x))
    | with_reducible apply keeps_updAir
    | with_reducible apply keeps_loadLate
    | with_reducible refine keeps_of_fst (by with_reducible assumption) ?_
    | dsimp -zeta -zetaHave only
    | split


theorem keeps_moveTimes (a s) (h1 : Keeps K s) (hp : Sub 0x10FE04 K.may) : Keeps K (moveTimes a s) := by
  unfold moveTimes
  repeat' first
    | with_reducible assumption
    | exact sub_mono hp (by decide)
    | (extract_lets +onlyGivenNames x; have hx : Keeps K x; (on_goal 2 => clear_value x); (on_goal 1 => unfold x; clear x))
    | (extract_lets +onlyGivenNames x; have hx : Keeps K x; (on_goal 1 => unfold x; clear x))
    | (extract_lets +onlyGivenNames x; clear_value x)
    | extract_lets +onlyGivenNames x
    | exact Or.inr rfl
    | exact Or.inl (may_of hp (by decide))
    | simp only [↓keeps_mk]
    | refine keepsOf_upd ?_ rfl rfl rfl rfl rfl rfl ?_ ?_ ?_ ?_ ?_ ?_ ?_ ?_ ?_ ?_ ?_ ?_ ?_ ?_ ?_ ?_ ?_ ?_ ?_ ?_ ?_ ?_
    | with_reducible refine keeps_of_fst (by with_reducible assumption) ?_
    | dsimp -zeta -zetaHave only
    | split


theorem keeps_stepFt (a s) (h1 : Keeps K s) (hp : Sub 0x19FE6C K.may) : Keeps K (stepFt a s) := by
  unfold stepFt
  repeat' first
    | with_reducible assumption
    | exact sub_mono hp (by decide)
    | (extract_lets +onlyGivenNames x; have hx : Keeps K x; (on_goal 2 => clear_value x); (on_goal 1 => unfold x; clear x))
    | (extract_lets +onlyGivenNames x; have hx : Keeps K x; (on_goal 1 => unfold x; clear x))
    | (extract_lets +onlyGivenNames x; clear_value x)
    | extract_lets +onlyGivenNames x
    | exact Or.inr rfl
    | exact Or.inl (may_of hp (by decide))
    | simp only [↓keeps_mk]
    | refine keepsOf_upd ?_ rfl rfl rfl rfl rfl rfl ?_ ?_ ?_ ?_ ?_ ?_ ?_ ?_ ?_ ?_ ?_ ?_ ?_ ?_ ?_ ?_ ?_ ?_ ?_ ?_ ?_ ?_
    | with_reducible apply keeps_moveTimes
    | with_reducible apply keeps_updTime
    | with_reducible apply keeps_evt
    | with_reducible apply keeps_bump
    | with_reducible apply keeps_airStepped
    | dsimp -zeta -zetaHave only


theorem keeps_takeMode (a s) (h1 : Keeps K s) (hp : Sub 0x8 K.may) : Keeps K (takeMode a s) := by
  unfold takeMode
  repeat' first
    | with_reducible assumption
    | exact sub_mono hp (by decide)
    | (extract_lets +onlyGivenNames x; have hx : Keeps K x; (on_goal 2 => clear_value x); (on_goal 1 => unfold x; clear x))
    | (extract_lets +onlyGivenNames x; have hx : Keeps K x; (on_goal 1 => unfold x; clear x))
    | with_reducible apply keeps_set
    | with_reducible apply keeps_updTime
    | dsimp -zeta -zetaHave only


theorem keeps_takePhase (a s) (h1 : Keeps K s) (hp : Sub 0x8 K.may) : Keeps K (takePhase a s) := by
  unfold takePhase
  repeat' first
    | with_reducible assumption
    | exact sub_mono hp (by decide)
    | with_reducible apply keeps_updTime
    | dsimp -zeta -zetaHave only


theorem keeps_modeDone (s) (h0 : Keeps K s) (hp : Sub 0x60 K.may) : Keeps K (modeDone s) := by
  unfold modeDone
  repeat' first
    | with_reducible assumption
    | exact sub_mono hp (by decide)
    | with_reducible apply keeps_evt
    | with_reducible apply keeps_bump
    | dsimp -zeta -zetaHave only


theorem keeps_tEnd (a s) (h1 : Keeps K s) (hp : Sub 0x19FE7C K.may) : Keeps K (tEnd a s) := by
  unfold tEnd
  repeat' first
    | with_reducible assumption
    | exact sub_mono hp (by decide)
    | (extract_lets +onlyGivenNames x; have hx : Keeps K x; (on_goal 2 => clear_value x); (on_goal 1 => unfold x; clear x))
    | (extract_lets +onlyGivenNames x; have hx : Keeps K x; (on_goal 1 => unfold x; clear x))
    | (extract_lets +onlyGivenNames x; clear_value x)
    | extract_lets +onlyGivenNames x
    | exact Or.inr rfl
    | exact Or.inl (may_of hp (by decide))
    | simp only [↓keeps_mk]
    | refine keepsOf_upd ?_ rfl rfl rfl rfl rfl rfl ?_ ?_ ?_ ?_ ?_ ?_ ?_ ?_ ?_ ?_ ?_ ?_ ?_ ?_ ?_ ?_ ?_ ?_ ?_ ?_ ?_ ?_
    | with_reducible apply keeps_stepFt
    | with_reducible apply keeps_modeDone
    | with_reducible apply keeps_set
    | with_reducible apply keeps_takeMode
    | with_reducible apply keeps_takePhase
    | with_reducible apply keeps_updTime
    | with_reducible apply keeps_cancelBelow
    | with_reducible apply keeps_holdBroken
    | with_reducible refine keeps_of_fst (by with_reducible assumption) ?_
    | dsimp -zeta -zetaHave only
    | split


theorem keeps_stepNow (a s) (h1 : Keeps K s) (hp : Sub 0x19FE7C K.may) : Keeps K (stepNow a s) := by
  unfold stepNow
  repeat' first
    | with_reducible assumption
    | exact sub_mono hp (by decide)
    | (extract_lets +onlyGivenNames x; have hx : Keeps K x; (on_goal 2 => clear_value x); (on_goal 1 => unfold x; clear x))
    | (extract_lets +onlyGivenNames x; have hx : Keeps K x; (on_goal 1 => unfold x; clear x))
    | (extract_lets +onlyGivenNames x; clear_value x)
    | extract_lets +onlyGivenNames x
    | exact Or.inr rfl
    | exact Or.inl (may_of hp (by decide))
    | simp only [↓keeps_mk]
    | refine keepsOf_upd ?_ rfl rfl rfl rfl rfl rfl ?_ ?_ ?_ ?_ ?_ ?_ ?_ ?_ ?_ ?_ ?_ ?_ ?_ ?_ ?_ ?_ ?_ ?_ ?_ ?_ ?_ ?_
    | with_reducible apply keeps_tEnd
    | with_reducible apply keeps_updTime
    | with_reducible apply keeps_stepFt
    | with_reducible apply keeps_cancelBelow
    | with_reducible apply keeps_enableAgain
    | with_reducible refine keeps_of_fst (by with_reducible assumption) ?_
    | dsimp -zeta -zetaHave only
    | split


theorem keeps_modeRequest (a b s) (h2 : Keeps K s) (hp : Sub 0x80078 K.may) : Keeps K (modeRequest a b s) := by
  unfold modeRequest
  repeat' first
    | with_reducible assumption
    | exact sub_mono hp (by decide)
    | (extract_lets +onlyGivenNames x; have hx : Keeps K x; (on_goal 2 => clear_value x); (on_goal 1 => unfold x; clear x))
    | (extract_lets +onlyGivenNames x; have hx : Keeps K x; (on_goal 1 => unfold x; clear x))
    | (extract_lets +onlyGivenNames x; clear_value x)
    | extract_lets +onlyGivenNames x
    | with_reducible apply keeps_fault
    | with_reducible apply keeps_set
    | with_reducible apply keeps_cancelBelow
    | with_reducible apply keeps_enableAgain
    | with_reducible apply keeps_modeDone
    | with_reducible apply keeps_takeMode
    | with_reducible refine keeps_of_fst (by with_reducible assumption) ?_
    | dsimp -zeta -zetaHave only
    | split


theorem keeps_servoLoop (a b s) (h2 : Keeps K s) (hp : Sub 0x8 K.may) : Keeps K (servoLoop a b s).1 := by
  unfold servoLoop
  repeat' first
    | with_reducible assumption
    | exact sub_mono hp (by decide)
    | (extract_lets +onlyGivenNames x; clear_value x)
    | extract_lets +onlyGivenNames x
    | with_reducible apply keeps_updTime
    | with_reducible refine keeps_of_fst (by with_reducible assumption) ?_
    | dsimp -zeta -zetaHave only
    | split


theorem keeps_measure (a s) (h1 : Keeps K s) (hp : Sub 0x19FE7C K.may) : Keeps K (measure a s) := by
  unfold measure
  repeat' first
    | with_reducible assumption
    | exact sub_mono hp (by decide)
    | (extract_lets +onlyGivenNames x; have hx : Keeps K x; (on_goal 1 => unfold x; clear x))
    | extract_lets +onlyGivenNames x
    | with_reducible apply keeps_set
    | with_reducible apply keeps_setStat
    | with_reducible apply keeps_bump
    | with_reducible apply keeps_updTime
    | with_reducible apply keeps_servoTo
    | with_reducible apply keeps_stepNow
    | with_reducible apply keeps_evt
    | with_reducible apply keeps_servoLoop
    | with_reducible apply keeps_clampCorr
    | with_reducible apply keeps_setCorr
    | with_reducible refine keeps_of_fst (by with_reducible assumption) ?_
    | dsimp -zeta -zetaHave only
    | split


theorem keeps_measurement (a b s) (h2 : Keeps K s) (hp : Sub 0x19FE7C K.may) : Keeps K (measurement a b s) := by
  unfold measurement
  repeat' first
    | with_reducible assumption
    | exact sub_mono hp (by decide)
    | with_reducible apply keeps_updTime
    | with_reducible apply keeps_measure
    | with_reducible refine keeps_of_fst (by with_reducible assumption) ?_
    | dsimp -zeta -zetaHave only
    | split


theorem keeps_slewIncrement (s) (h0 : Keeps K s) (hp : Sub 0x8 K.may) : Keeps K (slewIncrement s) := by
  unfold slewIncrement
  repeat' first
    | with_reducible assumption
    | exact sub_mono hp (by decide)
    | (extract_lets +onlyGivenNames x; clear_value x)
    | extract_lets +onlyGivenNames x
    | with_reducible apply keeps_setCorr
    | with_reducible refine keeps_of_fst (by with_reducible assumption) ?_
    | dsimp -zeta -zetaHave only
    | split


theorem keeps_setGo (a b s) (h2 : Keeps K s) (hp : Sub 0x19FE7C K.may) : Keeps K (setGo a b s) := by
  unfold setGo
  repeat' first
    | with_reducible assumption
    | exact sub_mono hp (by decide)
    | (extract_lets +onlyGivenNames x; have hx : Keeps K x; (on_goal 2 => clear_value x); (on_goal 1 => unfold x; clear x))
    | (extract_lets +onlyGivenNames x; have hx : Keeps K x; (on_goal 1 => unfold x; clear x))
    | (extract_lets +onlyGivenNames x; clear_value x)
    | extract_lets +onlyGivenNames x
    | with_reducible apply keeps_fault
    | with_reducible apply keeps_updTime
    | with_reducible apply keeps_stepNow
    | with_reducible apply keeps_servoTo
    | with_reducible refine keeps_of_fst (by with_reducible assumption) ?_
    | dsimp -zeta -zetaHave only
    | split


theorem keeps_snapCapture (a s) (h1 : Keeps K s) : Keeps K (snapCapture a s) := by
  unfold snapCapture
  split
  · assumption
  · dsimp only
    repeat' first
    | with_reducible assumption
    | with_reducible apply keeps_set


theorem keeps_acqWait (s) (h0 : Keeps K s) (hp : Sub 0x90078 K.may) : Keeps K (acqWait s) := by
  unfold acqWait
  repeat' first
    | with_reducible assumption
    | exact sub_mono hp (by decide)
    | with_reducible apply keeps_timeChanged
    | with_reducible apply keeps_updTime
    | with_reducible refine keeps_of_fst (by with_reducible assumption) ?_
    | dsimp -zeta -zetaHave only
    | split


theorem keeps_storeHoldover (s) (h0 : Keeps K s) (hp : Sub 0x100008 K.may) : Keeps K (storeHoldover s) := by
  unfold storeHoldover
  repeat' first
    | with_reducible assumption
    | exact sub_mono hp (by decide)
    | (extract_lets +onlyGivenNames x; have hx : Keeps K x; (on_goal 2 => clear_value x); (on_goal 1 => unfold x; clear x))
    | (extract_lets +onlyGivenNames x; have hx : Keeps K x; (on_goal 1 => unfold x; clear x))
    | (extract_lets +onlyGivenNames x; clear_value x)
    | extract_lets +onlyGivenNames x
    | exact Or.inr rfl
    | exact Or.inl (may_of hp (by decide))
    | simp only [↓keeps_mk]
    | refine keepsOf_upd ?_ rfl rfl rfl rfl rfl rfl ?_ ?_ ?_ ?_ ?_ ?_ ?_ ?_ ?_ ?_ ?_ ?_ ?_ ?_ ?_ ?_ ?_ ?_ ?_ ?_ ?_ ?_
    | with_reducible apply keeps_updTime
    | with_reducible refine keeps_of_fst (by with_reducible assumption) ?_
    | dsimp -zeta -zetaHave only
    | split


theorem keeps_rephaseTo (a s) (h1 : Keeps K s) (hp : Sub 0x80078 K.may) : Keeps K (rephaseTo a s) := by
  unfold rephaseTo
  repeat' first
    | with_reducible assumption
    | exact sub_mono hp (by decide)
    | (extract_lets +onlyGivenNames x; have hx : Keeps K x; (on_goal 2 => clear_value x); (on_goal 1 => unfold x; clear x))
    | (extract_lets +onlyGivenNames x; have hx : Keeps K x; (on_goal 1 => unfold x; clear x))
    | with_reducible apply keeps_evt
    | with_reducible apply keeps_updTime
    | with_reducible apply keeps_cancelBelow
    | with_reducible apply keeps_enableAgain
    | with_reducible apply keeps_modeDone
    | with_reducible apply keeps_takePhase
    | with_reducible refine keeps_of_fst (by with_reducible assumption) ?_
    | dsimp -zeta -zetaHave only
    | split


theorem keeps_phaseSrc (a s) (h1 : Keeps K s) (hp : Sub 0x80078 K.may) : Keeps K (phaseSrc a s) := by
  unfold phaseSrc
  repeat' first
    | with_reducible assumption
    | exact sub_mono hp (by decide)
    | (extract_lets +onlyGivenNames x; have hx : Keeps K x; (on_goal 2 => clear_value x); (on_goal 1 => unfold x; clear x))
    | (extract_lets +onlyGivenNames x; have hx : Keeps K x; (on_goal 1 => unfold x; clear x))
    | with_reducible apply keeps_set
    | with_reducible apply keeps_updTime
    | with_reducible apply keeps_rephaseTo
    | with_reducible refine keeps_of_fst (by with_reducible assumption) ?_
    | dsimp -zeta -zetaHave only
    | split


theorem keeps_refLost (s) (h0 : Keeps K s) (hp : Sub 0x68 K.may) : Keeps K (refLost s) := by
  unfold refLost
  repeat' first
    | with_reducible assumption
    | exact sub_mono hp (by decide)
    | (extract_lets +onlyGivenNames x; have hx : Keeps K x; (on_goal 2 => clear_value x); (on_goal 1 => unfold x; clear x))
    | (extract_lets +onlyGivenNames x; have hx : Keeps K x; (on_goal 1 => unfold x; clear x))
    | with_reducible apply keeps_updTime
    | with_reducible apply keeps_evt
    | with_reducible refine keeps_of_fst (by with_reducible assumption) ?_
    | dsimp -zeta -zetaHave only
    | split


theorem keeps_referenceInstant (a b s) (h2 : Keeps K s) (hp : Sub 0x80078 K.may) : Keeps K (referenceInstant a b s) := by
  unfold referenceInstant
  repeat' first
    | with_reducible assumption
    | exact sub_mono hp (by decide)
    | (extract_lets +onlyGivenNames x; have hx : Keeps K x; (on_goal 2 => clear_value x); (on_goal 1 => unfold x; clear x))
    | (extract_lets +onlyGivenNames x; have hx : Keeps K x; (on_goal 1 => unfold x; clear x))
    | (extract_lets +onlyGivenNames x; clear_value x)
    | extract_lets +onlyGivenNames x
    | with_reducible apply keeps_updTime
    | with_reducible apply keeps_rephaseTo
    | with_reducible apply keeps_refLost
    | with_reducible refine keeps_of_fst (by with_reducible assumption) ?_
    | dsimp -zeta -zetaHave only
    | split


theorem keeps_referenceMissed (s) (h0 : Keeps K s) (hp : Sub 0x68 K.may) : Keeps K (referenceMissed s) := by
  unfold referenceMissed
  repeat' first
    | with_reducible assumption
    | exact sub_mono hp (by decide)
    | (extract_lets +onlyGivenNames x; have hx : Keeps K x; (on_goal 2 => clear_value x); (on_goal 1 => unfold x; clear x))
    | (extract_lets +onlyGivenNames x; have hx : Keeps K x; (on_goal 1 => unfold x; clear x))
    | (extract_lets +onlyGivenNames x; clear_value x)
    | extract_lets +onlyGivenNames x
    | with_reducible apply keeps_bump
    | with_reducible apply keeps_updTime
    | with_reducible apply keeps_refLost
    | with_reducible refine keeps_of_fst (by with_reducible assumption) ?_
    | dsimp -zeta -zetaHave only
    | split


theorem keeps_slewPhase (s) (h0 : Keeps K s) (hp : Sub 0x8 K.may) : Keeps K (slewPhase s) := by
  unfold slewPhase
  repeat' first
    | with_reducible assumption
    | exact sub_mono hp (by decide)
    | (extract_lets +onlyGivenNames x; clear_value x)
    | extract_lets +onlyGivenNames x
    | with_reducible apply keeps_updTime
    | with_reducible refine keeps_of_fst (by with_reducible assumption) ?_
    | dsimp -zeta -zetaHave only
    | split


theorem keeps_ppsPulse (s) (h0 : Keeps K s) (hp : Sub 0x8 K.may) : Keeps K (ppsPulse s) := by
  unfold ppsPulse
  repeat' first
    | with_reducible assumption
    | exact sub_mono hp (by decide)
    | with_reducible apply keeps_emit
    | with_reducible apply keeps_updTime
    | with_reducible refine keeps_of_fst (by with_reducible assumption) ?_
    | dsimp -zeta -zetaHave only
    | split


theorem keeps_ppsEnd (s) (h0 : Keeps K s) (hp : Sub 0x8 K.may) : Keeps K (ppsEnd s) := by
  unfold ppsEnd
  repeat' first
    | with_reducible assumption
    | exact sub_mono hp (by decide)
    | (extract_lets +onlyGivenNames x; have hx : Keeps K x; (on_goal 2 => clear_value x); (on_goal 1 => unfold x; clear x))
    | (extract_lets +onlyGivenNames x; have hx : Keeps K x; (on_goal 1 => unfold x; clear x))
    | with_reducible apply keeps_updTime
    | with_reducible apply keeps_emit
    | with_reducible refine keeps_of_fst (by with_reducible assumption) ?_
    | dsimp -zeta -zetaHave only
    | split


theorem keeps_ppsIdle (a s) (h1 : Keeps K s) (hp : Sub 0x8 K.may) : Keeps K (ppsIdle a s) := by
  unfold ppsIdle
  repeat' first
    | with_reducible assumption
    | exact sub_mono hp (by decide)
    | with_reducible apply keeps_emit
    | with_reducible apply keeps_updTime
    | with_reducible refine keeps_of_fst (by with_reducible assumption) ?_
    | dsimp -zeta -zetaHave only
    | split


theorem keeps_execServoSourceTimeout (s) (h0 : Keeps K s) (hp : Sub 0x90078 K.may) : ∃ t, execServoSourceTimeout s = .next t ∧ Keeps K t := by
  refine ⟨_, rfl, ?_⟩
  repeat' first
    | with_reducible assumption
    | exact sub_mono hp (by decide)
    | exact Or.inr rfl
    | exact Or.inl (may_of hp (by decide))
    | simp only [↓keeps_mk]
    | refine keepsOf_upd ?_ rfl rfl rfl rfl rfl rfl ?_ ?_ ?_ ?_ ?_ ?_ ?_ ?_ ?_ ?_ ?_ ?_ ?_ ?_ ?_ ?_ ?_ ?_ ?_ ?_ ?_ ?_
    | with_reducible apply keeps_servoTimeout
    | dsimp -zeta -zetaHave only


theorem keeps_execFreqSlewIncrement (s) (h0 : Keeps K s) (hp : Sub 0x8 K.may) : ∃ t, execFreqSlewIncrement s = .next t ∧ Keeps K t := by
  refine ⟨_, rfl, ?_⟩
  repeat' first
    | with_reducible assumption
    | exact sub_mono hp (by decide)
    | exact Or.inr rfl
    | exact Or.inl (may_of hp (by decide))
    | simp only [↓keeps_mk]
    | refine keepsOf_upd ?_ rfl rfl rfl rfl rfl rfl ?_ ?_ ?_ ?_ ?_ ?_ ?_ ?_ ?_ ?_ ?_ ?_ ?_ ?_ ?_ ?_ ?_ ?_ ?_ ?_ ?_ ?_
    | with_reducible apply keeps_slewIncrement
    | dsimp -zeta -zetaHave only


theorem keeps_execAcqwaitExpiry (s) (h0 : Keeps K s) (hp : Sub 0x90078 K.may) : ∃ t, execAcqwaitExpiry s = .next t ∧ Keeps K t := by
  refine ⟨_, rfl, ?_⟩
  repeat' first
    | with_reducible assumption
    | exact sub_mono hp (by decide)
    | exact Or.inr rfl
    | exact Or.inl (may_of hp (by decide))
    | simp only [↓keeps_mk]
    | refine keepsOf_upd ?_ rfl rfl rfl rfl rfl rfl ?_ ?_ ?_ ?_ ?_ ?_ ?_ ?_ ?_ ?_ ?_ ?_ ?_ ?_ ?_ ?_ ?_ ?_ ?_ ?_ ?_ ?_
    | with_reducible apply keeps_acqWait
    | dsimp -zeta -zetaHave only


theorem keeps_execHoldoverStore (s) (h0 : Keeps K s) (hp : Sub 0x100008 K.may) : ∃ t, execHoldoverStore s = .next t ∧ Keeps K t := by
  refine ⟨_, rfl, ?_⟩
  repeat' first
    | with_reducible assumption
    | exact sub_mono hp (by decide)
    | exact Or.inr rfl
    | exact Or.inl (may_of hp (by decide))
    | simp only [↓keeps_mk]
    | refine keepsOf_upd ?_ rfl rfl rfl rfl rfl rfl ?_ ?_ ?_ ?_ ?_ ?_ ?_ ?_ ?_ ?_ ?_ ?_ ?_ ?_ ?_ ?_ ?_ ?_ ?_ ?_ ?_ ?_
    | with_reducible apply keeps_storeHoldover
    | dsimp -zeta -zetaHave only


theorem keeps_execReferenceInstant (a b s) (h2 : Keeps K s) (hp : Sub 0x80078 K.may) : ∃ t, execReferenceInstant a b s = .next t ∧ Keeps K t := by
  refine ⟨_, rfl, ?_⟩
  repeat' first
    | with_reducible assumption
    | exact sub_mono hp (by decide)
    | exact Or.inr rfl
    | exact Or.inl (may_of hp (by decide))
    | simp only [↓keeps_mk]
    | refine keepsOf_upd ?_ rfl rfl rfl rfl rfl rfl ?_ ?_ ?_ ?_ ?_ ?_ ?_ ?_ ?_ ?_ ?_ ?_ ?_ ?_ ?_ ?_ ?_ ?_ ?_ ?_ ?_ ?_
    | with_reducible apply keeps_referenceInstant
    | dsimp -zeta -zetaHave only


theorem keeps_execReferenceMissed (s) (h0 : Keeps K s) (hp : Sub 0x68 K.may) : ∃ t, execReferenceMissed s = .next t ∧ Keeps K t := by
  refine ⟨_, rfl, ?_⟩
  repeat' first
    | with_reducible assumption
    | exact sub_mono hp (by decide)
    | exact Or.inr rfl
    | exact Or.inl (may_of hp (by decide))
    | simp only [↓keeps_mk]
    | refine keepsOf_upd ?_ rfl rfl rfl rfl rfl rfl ?_ ?_ ?_ ?_ ?_ ?_ ?_ ?_ ?_ ?_ ?_ ?_ ?_ ?_ ?_ ?_ ?_ ?_ ?_ ?_ ?_ ?_
    | with_reducible apply keeps_referenceMissed
    | dsimp -zeta -zetaHave only


theorem keeps_execPpsPulse (s) (h0 : Keeps K s) (hp : Sub 0x8 K.may) : ∃ t, execPpsPulse s = .next t ∧ Keeps K t := by
  refine ⟨_, rfl, ?_⟩
  repeat' first
    | with_reducible assumption
    | exact sub_mono hp (by decide)
    | exact Or.inr rfl
    | exact Or.inl (may_of hp (by decide))
    | simp only [↓keeps_mk]
    | refine keepsOf_upd ?_ rfl rfl rfl rfl rfl rfl ?_ ?_ ?_ ?_ ?_ ?_ ?_ ?_ ?_ ?_ ?_ ?_ ?_ ?_ ?_ ?_ ?_ ?_ ?_ ?_ ?_ ?_
    | with_reducible apply keeps_ppsPulse
    | dsimp -zeta -zetaHave only


theorem keeps_execPpsPulseEnd (s) (h0 : Keeps K s) (hp : Sub 0x8 K.may) : ∃ t, execPpsPulseEnd s = .next t ∧ Keeps K t := by
  refine ⟨_, rfl, ?_⟩
  repeat' first
    | with_reducible assumption
    | exact sub_mono hp (by decide)
    | exact Or.inr rfl
    | exact Or.inl (may_of hp (by decide))
    | simp only [↓keeps_mk]
    | refine keepsOf_upd ?_ rfl rfl rfl rfl rfl rfl ?_ ?_ ?_ ?_ ?_ ?_ ?_ ?_ ?_ ?_ ?_ ?_ ?_ ?_ ?_ ?_ ?_ ?_ ?_ ?_ ?_ ?_
    | with_reducible apply keeps_ppsEnd
    | dsimp -zeta -zetaHave only


end Sys2Proof.Machine
end

