-- ==== Sys2Proof/Laws/KeepsCanvas.lean ====
section
/-!
SUPPORT. What the operations of Machine/Canvas.lean keep.
-/
namespace Sys2Proof.Machine
open Sys2Proof

variable {K : Keeping}

theorem keeps_missFetch (a s) (h1 : Keeps K s) (hp : Sub 0x160 K.may) : Keeps K (missFetch a s) := by
  unfold missFetch
  repeat' first
    | with_reducible assumption
    | exact sub_mono hp (by decide)
    | with_reducible apply keeps_evt
    | with_reducible apply keeps_bump
    | with_reducible apply keeps_updVen
    | with_reducible refine keeps_of_fst (by with_reducible assumption) ?_
    | dsimp -zeta -zetaHave only
    | split


theorem keeps_fetchPx (a b c d s) (h4 : Keeps K s) (hp : Sub 0x165 K.may) : Keeps K (fetchPx a b c d s).1 := by
  unfold fetchPx
  repeat' first
    | with_reducible assumption
    | exact sub_mono hp (by decide)
    | (extract_lets +onlyGivenNames x; clear_value x)
    | extract_lets +onlyGivenNames x
    | with_reducible apply keeps_rd
    | with_reducible apply keeps_missFetch
    | with_reducible apply keeps_fault
    | with_reducible refine keeps_of_fst (by with_reducible assumption) ?_
    | dsimp -zeta -zetaHave only
    | split


theorem keeps_fetch (a b c d s) (h4 : Keeps K s) (hp : Sub 0x165 K.may) : Keeps K (fetch a b c d s).1 := by
  unfold fetch
  repeat' first
    | with_reducible assumption
    | exact sub_mono hp (by decide)
    | intro _
    | (extract_lets +onlyGivenNames x; have hx : ∀ y0 y1 y2, Keeps K y2 → Keeps K (x y0 y1 y2).1; (on_goal 2 => clear_value x); (on_goal 1 => unfold x; clear x))
    | (extract_lets +onlyGivenNames x; clear_value x)
    | extract_lets +onlyGivenNames x
    | with_reducible apply keeps_fetchPx
    | with_reducible apply_assumption -exfalso -symm
    | with_reducible refine keeps_of_fst (by with_reducible assumption) ?_
    | dsimp -zeta -zetaHave only
    | split


theorem keeps_source (a b c s) (h3 : Keeps K s) (hp : Sub 0x165 K.may) : Keeps K (source a b c s).1 := by
  unfold source
  repeat' first
    | with_reducible assumption
    | exact sub_mono hp (by decide)
    | (extract_lets +onlyGivenNames x; clear_value x)
    | extract_lets +onlyGivenNames x
    | with_reducible apply keeps_bump
    | with_reducible apply keeps_fetch
    | with_reducible refine keeps_of_fst (by with_reducible assumption) ?_
    | dsimp -zeta -zetaHave only
    | split


theorem keeps_blendVeneer (a b c d) (h2 : Keeps K c.1) (hp : Sub 0x165 K.may) : Keeps K (blendVeneer a b c d).1 := by
  unfold blendVeneer
  repeat' first
    | with_reducible assumption
    | exact sub_mono hp (by decide)
    | (extract_lets +onlyGivenNames x; have hx : Keeps K x; (on_goal 2 => clear_value x); (on_goal 1 => unfold x; clear x))
    | (extract_lets +onlyGivenNames x; have hx : Keeps K x; (on_goal 1 => unfold x; clear x))
    | (extract_lets +onlyGivenNames x; clear_value x)
    | extract_lets +onlyGivenNames x
    | with_reducible apply keeps_source
    | with_reducible apply keeps_bump
    | with_reducible refine keeps_of_fst (by with_reducible assumption) ?_
    | dsimp -zeta -zetaHave only
    | split


theorem keeps_composite (a b s) (h2 : Keeps K s) (hp : Sub 0x165 K.may) : Keeps K (composite a b s).1 := by
  unfold composite
  repeat' first
    | with_reducible assumption
    | exact sub_mono hp (by decide)
    | intro _
    | (extract_lets +onlyGivenNames x; clear_value x)
    | extract_lets +onlyGivenNames x
    | with_reducible apply keeps_blendVeneer
    | with_reducible apply keeps_foldl
    | with_reducible apply keeps_foldl_fst
    | with_reducible refine keeps_of_fst (by with_reducible assumption) ?_
    | dsimp -zeta -zetaHave only
    | split


theorem keeps_inDrop (a s) (h1 : Keeps K s) (hp : Sub 0x60 K.may) : Keeps K (inDrop a s) := by
  unfold inDrop
  repeat' first
    | with_reducible assumption
    | exact sub_mono hp (by decide)
    | with_reducible apply keeps_evt
    | with_reducible apply keeps_bump
    | dsimp -zeta -zetaHave only


theorem keeps_endUnit (a b s) (h2 : Keeps K s) (hp : Sub 0x100 K.may) : Keeps K (endUnit a b s) := by
  unfold endUnit
  repeat' first
    | with_reducible assumption
    | exact sub_mono hp (by decide)
    | with_reducible apply keeps_updVen
    | dsimp -zeta -zetaHave only


theorem keeps_setUnit (a b s) (h2 : Keeps K s) (hp : Sub 0x100 K.may) : Keeps K (setUnit a b s) := by
  unfold setUnit
  repeat' first
    | with_reducible assumption
    | exact sub_mono hp (by decide)
    | with_reducible apply keeps_updVen
    | with_reducible apply keeps_endUnit
    | dsimp -zeta -zetaHave only


theorem keeps_dropUnit (a b s) (h2 : Keeps K s) (hp : Sub 0x160 K.may) : Keeps K (dropUnit a b s) := by
  unfold dropUnit
  repeat' first
    | with_reducible assumption
    | exact sub_mono hp (by decide)
    | with_reducible apply keeps_inDrop
    | with_reducible apply keeps_setUnit
    | with_reducible refine keeps_of_fst (by with_reducible assumption) ?_
    | dsimp -zeta -zetaHave only
    | split


theorem keeps_claimBuffer (a b c s) (h3 : Keeps K s) (hp : Sub 0x160 K.may) : Keeps K (claimBuffer a b c s).1 := by
  unfold claimBuffer
  repeat' first
    | with_reducible assumption
    | exact sub_mono hp (by decide)
    | intro _
    | (extract_lets +onlyGivenNames x; clear_value x)
    | extract_lets +onlyGivenNames x
    | with_reducible apply keeps_dropUnit
    | with_reducible apply keeps_free
    | with_reducible apply keeps_foldl
    | with_reducible apply keeps_foldl_fst
    | with_reducible refine keeps_of_fst (by with_reducible assumption) ?_
    | dsimp -zeta -zetaHave only
    | split


theorem keeps_beginUnit (a b c s) (h3 : Keeps K s) (hp : Sub 0x160 K.may) : Keeps K (beginUnit a b c s) := by
  unfold beginUnit
  repeat' first
    | with_reducible assumption
    | exact sub_mono hp (by decide)
    | with_reducible apply keeps_claimBuffer
    | with_reducible apply keeps_setUnit
    | with_reducible apply keeps_updVen
    | with_reducible apply keeps_inDrop
    | with_reducible refine keeps_of_fst (by with_reducible assumption) ?_
    | dsimp -zeta -zetaHave only
    | split


theorem keeps_makeComplete (a b s) (h2 : Keeps K s) (hp : Sub 0x100 K.may) : Keeps K (makeComplete a b s) := by
  unfold makeComplete
  repeat' first
    | with_reducible assumption
    | exact sub_mono hp (by decide)
    | with_reducible apply keeps_endUnit
    | with_reducible apply keeps_updVen
    | with_reducible refine keeps_of_fst (by with_reducible assumption) ?_
    | dsimp -zeta -zetaHave only
    | split


theorem keeps_unitWrite (a b c d e s) (h5 : Keeps K s) (hp : Sub 0x165 K.may) : Keeps K (unitWrite a b c d e s) := by
  unfold unitWrite
  repeat' first
    | with_reducible assumption
    | exact sub_mono hp (by decide)
    | with_reducible apply keeps_wr
    | with_reducible apply keeps_dropUnit
    | with_reducible refine keeps_of_fst (by with_reducible assumption) ?_
    | dsimp -zeta -zetaHave only
    | split


theorem keeps_sizeFault (a b s) (h2 : Keeps K s) (hp : Sub 0x160 K.may) : Keeps K (sizeFault a b s) := by
  unfold sizeFault
  repeat' first
    | with_reducible assumption
    | exact sub_mono hp (by decide)
    | with_reducible apply keeps_dropUnit
    | with_reducible apply keeps_fault
    | with_reducible refine keeps_of_fst (by with_reducible assumption) ?_
    | dsimp -zeta -zetaHave only
    | split


theorem keeps_videoRun (a b c d e f s) (h6 : Keeps K s) (hp : Sub 0x165 K.may) : Keeps K (videoRun a b c d e f s) := by
  unfold videoRun
  repeat' first
    | with_reducible assumption
    | exact sub_mono hp (by decide)
    | (extract_lets +onlyGivenNames x; clear_value x)
    | extract_lets +onlyGivenNames x
    | with_reducible apply keeps_dropUnit
    | with_reducible apply keeps_sizeFault
    | with_reducible apply keeps_unitWrite
    | with_reducible apply keeps_setUnit
    | with_reducible refine keeps_of_fst (by with_reducible assumption) ?_
    | dsimp -zeta -zetaHave only
    | split


theorem keeps_videoRuns (a b c d e s) (h5 : Keeps K s) (hp : Sub 0x165 K.may) : Keeps K (videoRuns a b c d e s) := by
  induction c generalizing d e s <;> unfold videoRuns
  repeat' first
    | with_reducible assumption
    | exact sub_mono hp (by decide)
    | (extract_lets +onlyGivenNames x; have hx : Keeps K x; (on_goal 2 => clear_value x); (on_goal 1 => unfold x; clear x))
    | (extract_lets +onlyGivenNames x; have hx : Keeps K x; (on_goal 1 => unfold x; clear x))
    | (extract_lets +onlyGivenNames x; clear_value x)
    | extract_lets +onlyGivenNames x
    | with_reducible apply keeps_videoRun
    | with_reducible refine keeps_of_fst (by with_reducible assumption) ?_
    | with_reducible apply_assumption -exfalso -symm
    | dsimp -zeta -zetaHave only
    | split


theorem keeps_videoEnd (a b s) (h2 : Keeps K s) (hp : Sub 0x160 K.may) : Keeps K (videoEnd a b s) := by
  unfold videoEnd
  repeat' first
    | with_reducible assumption
    | exact sub_mono hp (by decide)
    | with_reducible apply keeps_makeComplete
    | with_reducible apply keeps_endUnit
    | with_reducible apply keeps_sizeFault
    | with_reducible refine keeps_of_fst (by with_reducible assumption) ?_
    | dsimp -zeta -zetaHave only
    | split


theorem keeps_videoAge (a b s) (h2 : Keeps K s) (hp : Sub 0x160 K.may) : Keeps K (videoAge a b s) := by
  unfold videoAge
  repeat' first
    | with_reducible assumption
    | exact sub_mono hp (by decide)
    | intro _
    | with_reducible apply keeps_endUnit
    | with_reducible apply keeps_dropUnit
    | with_reducible apply keeps_foldl
    | with_reducible apply keeps_foldl_fst
    | dsimp -zeta -zetaHave only


theorem keeps_videoUnit (a b s) (h2 : Keeps K s) (hp : Sub 0x160 K.may) : Keeps K (videoUnit a b s) := by
  unfold videoUnit
  repeat' first
    | with_reducible assumption
    | exact sub_mono hp (by decide)
    | with_reducible apply keeps_inDrop
    | with_reducible apply keeps_setUnit
    | with_reducible apply keeps_beginUnit
    | with_reducible refine keeps_of_fst (by with_reducible assumption) ?_
    | dsimp -zeta -zetaHave only
    | split


theorem keeps_videoPacket (a b c s) (h3 : Keeps K s) (hp : Sub 0x165 K.may) : Keeps K (videoPacket a b c s) := by
  unfold videoPacket
  repeat' first
    | with_reducible assumption
    | exact sub_mono hp (by decide)
    | (extract_lets +onlyGivenNames x; have hx : Keeps K x; (on_goal 2 => clear_value x); (on_goal 1 => unfold x; clear x))
    | (extract_lets +onlyGivenNames x; have hx : Keeps K x; (on_goal 1 => unfold x; clear x))
    | (extract_lets +onlyGivenNames x; clear_value x)
    | extract_lets +onlyGivenNames x
    | with_reducible apply keeps_videoUnit
    | with_reducible apply keeps_videoAge
    | with_reducible apply keeps_setUnit
    | with_reducible apply keeps_updVen
    | with_reducible apply keeps_videoEnd
    | with_reducible apply keeps_videoRuns
    | with_reducible refine keeps_of_fst (by with_reducible assumption) ?_
    | dsimp -zeta -zetaHave only
    | split


theorem keeps_videoLost (a b c s) (h3 : Keeps K s) (hp : Sub 0x160 K.may) : Keeps K (videoLost a b c s) := by
  unfold videoLost
  repeat' first
    | with_reducible assumption
    | exact sub_mono hp (by decide)
    | (extract_lets +onlyGivenNames x; clear_value x)
    | extract_lets +onlyGivenNames x
    | with_reducible apply keeps_dropUnit
    | with_reducible apply keeps_inDrop
    | with_reducible apply keeps_setUnit
    | with_reducible refine keeps_of_fst (by with_reducible assumption) ?_
    | dsimp -zeta -zetaHave only
    | split


theorem keeps_sacnSnapshot (a s) (h1 : Keeps K s) (hp : Sub 0x160 K.may) : Keeps K (sacnSnapshot a s) := by
  unfold sacnSnapshot
  repeat' first
    | with_reducible assumption
    | exact sub_mono hp (by decide)
    | (extract_lets +onlyGivenNames x; have hx : Keeps K x; (on_goal 2 => clear_value x); (on_goal 1 => unfold x; clear x))
    | (extract_lets +onlyGivenNames x; have hx : Keeps K x; (on_goal 1 => unfold x; clear x))
    | (extract_lets +onlyGivenNames x; clear_value x)
    | extract_lets +onlyGivenNames x
    | with_reducible apply keeps_updVen
    | with_reducible apply keeps_beginUnit
    | with_reducible refine keeps_of_fst (by with_reducible assumption) ?_
    | dsimp -zeta -zetaHave only
    | split


theorem keeps_sacnDone (a s) (h1 : Keeps K s) (hp : Sub 0x165 K.may) : Keeps K (sacnDone a s) := by
  unfold sacnDone
  repeat' first
    | with_reducible assumption
    | exact sub_mono hp (by decide)
    | intro _
    | (extract_lets +onlyGivenNames x; have hx : Keeps K x; (on_goal 2 => clear_value x); (on_goal 1 => unfold x; clear x))
    | (extract_lets +onlyGivenNames x; have hx : Keeps K x; (on_goal 1 => unfold x; clear x))
    | (extract_lets +onlyGivenNames x; have hx : ∀ y0 y1, Keeps K y0 → Keeps K (x y0 y1); (on_goal 2 => clear_value x); (on_goal 1 => unfold x; clear x))
    | (extract_lets +onlyGivenNames x; clear_value x)
    | extract_lets +onlyGivenNames x
    | with_reducible apply keeps_unitWrite
    | with_reducible apply keeps_updVen
    | with_reducible apply keeps_makeComplete
    | with_reducible apply_assumption -exfalso -symm
    | with_reducible apply keeps_foldl
    | with_reducible apply keeps_foldl_fst
    | with_reducible refine keeps_of_fst (by with_reducible assumption) ?_
    | dsimp -zeta -zetaHave only
    | split


theorem keeps_tileAge (a b s) (h2 : Keeps K s) (hp : Sub 0x100 K.may) : Keeps K (tileAge a b s) := by
  unfold tileAge
  repeat' first
    | with_reducible assumption
    | exact sub_mono hp (by decide)
    | with_reducible apply keeps_updVen
    | dsimp -zeta -zetaHave only


theorem keeps_tileQuarter (a b c d e f s) (h6 : Keeps K s) (hp : Sub 0x165 K.may) : Keeps K (tileQuarter a b c d e f s) := by
  unfold tileQuarter
  repeat' first
    | with_reducible assumption
    | exact sub_mono hp (by decide)
    | intro _
    | (extract_lets +onlyGivenNames x; have hx : Keeps K x; (on_goal 2 => clear_value x); (on_goal 1 => unfold x; clear x))
    | (extract_lets +onlyGivenNames x; have hx : Keeps K x; (on_goal 1 => unfold x; clear x))
    | (extract_lets +onlyGivenNames x; have hx : ∀ y0 y1, Keeps K y0 → Keeps K (x y0 y1); (on_goal 2 => clear_value x); (on_goal 1 => unfold x; clear x))
    | (extract_lets +onlyGivenNames x; clear_value x)
    | extract_lets +onlyGivenNames x
    | with_reducible apply keeps_beginUnit
    | with_reducible apply keeps_tileAge
    | with_reducible apply keeps_unitWrite
    | with_reducible apply keeps_setUnit
    | with_reducible apply keeps_makeComplete
    | with_reducible apply_assumption -exfalso -symm
    | with_reducible apply keeps_foldl
    | with_reducible apply keeps_foldl_fst
    | with_reducible refine keeps_of_fst (by with_reducible assumption) ?_
    | dsimp -zeta -zetaHave only
    | split


theorem keeps_venTake (a s) (h1 : Keeps K s) (hp : Sub 0x160 K.may) : Keeps K (venTake a s) := by
  unfold venTake
  repeat' first
    | with_reducible assumption
    | exact sub_mono hp (by decide)
    | (extract_lets +onlyGivenNames x; have hx : Keeps K x; (on_goal 2 => clear_value x); (on_goal 1 => unfold x; clear x))
    | (extract_lets +onlyGivenNames x; have hx : Keeps K x; (on_goal 1 => unfold x; clear x))
    | (extract_lets +onlyGivenNames x; clear_value x)
    | extract_lets +onlyGivenNames x
    | with_reducible apply keeps_updVen
    | with_reducible apply keeps_set
    | with_reducible apply keeps_setStat
    | with_reducible apply keeps_evt
    | with_reducible apply keeps_bump
    | with_reducible apply keeps_sacnSnapshot
    | with_reducible apply keeps_refresh
    | with_reducible refine keeps_of_fst (by with_reducible assumption) ?_
    | dsimp -zeta -zetaHave only
    | split


theorem keeps_execFetchMiss (a s) (h1 : Keeps K s) (hp : Sub 0x160 K.may) : ∃ t, execFetchMiss a s = .next t ∧ Keeps K t := by
  refine ⟨_, rfl, ?_⟩
  repeat' first
    | with_reducible assumption
    | exact sub_mono hp (by decide)
    | exact Or.inr rfl
    | exact Or.inl (may_of hp (by decide))
    | simp only [↓keeps_mk]
    | refine keepsOf_upd ?_ rfl rfl rfl rfl rfl rfl ?_ ?_ ?_ ?_ ?_ ?_ ?_ ?_ ?_ ?_ ?_ ?_ ?_ ?_ ?_ ?_ ?_ ?_ ?_ ?_ ?_ ?_
    | with_reducible apply keeps_missFetch
    | with_reducible refine keeps_of_fst (by with_reducible assumption) ?_
    | dsimp -zeta -zetaHave only
    | split


theorem keeps_execSacnRenderDone (a s) (h1 : Keeps K s) (hp : Sub 0x165 K.may) : ∃ t, execSacnRenderDone a s = .next t ∧ Keeps K t := by
  refine ⟨_, rfl, ?_⟩
  repeat' first
    | with_reducible assumption
    | exact sub_mono hp (by decide)
    | exact Or.inr rfl
    | exact Or.inl (may_of hp (by decide))
    | simp only [↓keeps_mk]
    | refine keepsOf_upd ?_ rfl rfl rfl rfl rfl rfl ?_ ?_ ?_ ?_ ?_ ?_ ?_ ?_ ?_ ?_ ?_ ?_ ?_ ?_ ?_ ?_ ?_ ?_ ?_ ?_ ?_ ?_
    | with_reducible apply keeps_sacnDone
    | dsimp -zeta -zetaHave only


end Sys2Proof.Machine
end

