-- ==== Sys2Proof/Laws/KeepsColour.lean ====
section
/-!
SUPPORT. What the operations of Machine/Colour.lean keep.
-/
namespace Sys2Proof.Machine
open Sys2Proof

variable {K : Keeping}

theorem keeps_rdFs (a b c) (hp : Sub 0x65 K.may) : KeepsM K (rdFs a b c) := by
  exact ⟨fun s h => keeps_rd _ _ _ _ h (sub_mono hp (by decide))⟩


theorem keeps_tableErr (s) (h0 : Keeps K s) (hp : Sub 0x60 K.may) : Keeps K (tableErr s) := by
  unfold tableErr
  repeat' first
    | with_reducible assumption
    | exact sub_mono hp (by decide)
    | with_reducible apply keeps_evt
    | with_reducible apply keeps_bump
    | dsimp -zeta -zetaHave only


theorem keeps_readProfile (a b) (hp : Sub 0x65 K.may) : KeepsM K (readProfile a b) := by
  unfold readProfile
  repeat' first
    | with_reducible assumption
    | exact sub_mono hp (by decide)
    | intro _
    | with_reducible apply keeps_rdFs
    | with_reducible refine keeps_of_fst (by with_reducible assumption) ?_
    | with_reducible exact keepsM_pure _
    | with_reducible exact keepsM_get
    | with_reducible apply keepsM_modify
    | with_reducible apply keepsM_mapM
    | with_reducible apply keepsM_bind
    | with_reducible refine keeps_of_snd (by with_reducible assumption) ?_
    | with_reducible apply keeps_runM
    | dsimp only
    | split


theorem keeps_tryCell (a b c d e) (hp : Sub 0x65 K.may) : KeepsM K (tryCell a b c d e) := by
  unfold tryCell
  repeat' first
    | with_reducible assumption
    | exact sub_mono hp (by decide)
    | intro _
    | with_reducible apply keeps_tableErr
    | with_reducible apply keeps_rdFs
    | with_reducible refine keeps_of_fst (by with_reducible assumption) ?_
    | with_reducible exact keepsM_pure _
    | with_reducible exact keepsM_get
    | with_reducible apply keepsM_modify
    | with_reducible apply keepsM_mapM
    | with_reducible apply keepsM_bind
    | with_reducible refine keeps_of_snd (by with_reducible assumption) ?_
    | with_reducible apply keeps_runM
    | dsimp only
    | split


theorem keeps_tryCells (a b c d e) (hp : Sub 0x65 K.may) : KeepsM K (tryCells a b c d e) := by
  induction e <;> unfold tryCells
  repeat' first
    | with_reducible assumption
    | exact sub_mono hp (by decide)
    | intro _
    | with_reducible apply keeps_tableErr
    | with_reducible apply keeps_rdFs
    | with_reducible apply keeps_tryCell
    | with_reducible refine keeps_of_fst (by with_reducible assumption) ?_
    | with_reducible exact keepsM_pure _
    | with_reducible exact keepsM_get
    | with_reducible apply keepsM_modify
    | with_reducible apply keepsM_mapM
    | with_reducible apply keepsM_bind
    | with_reducible refine keeps_of_snd (by with_reducible assumption) ?_
    | with_reducible apply keeps_runM
    | with_reducible apply_assumption -exfalso -symm
    | dsimp only
    | split


theorem keeps_inside (a b c d) (hp : Sub 0x65 K.may) : KeepsM K (inside a b c d) := by
  unfold inside
  repeat' first
    | with_reducible assumption
    | exact sub_mono hp (by decide)
    | intro _
    | with_reducible apply keeps_rdFs
    | with_reducible apply keeps_tryCells
    | with_reducible refine keeps_of_fst (by with_reducible assumption) ?_
    | with_reducible exact keepsM_pure _
    | with_reducible exact keepsM_get
    | with_reducible apply keepsM_modify
    | with_reducible apply keepsM_mapM
    | with_reducible apply keepsM_bind
    | with_reducible refine keeps_of_snd (by with_reducible assumption) ?_
    | with_reducible apply keeps_runM
    | dsimp only
    | split


theorem keeps_bisect (a b c d e f) (hp : Sub 0x65 K.may) : KeepsM K (bisect a b c d e f) := by
  induction e generalizing f <;> unfold bisect
  repeat' first
    | with_reducible assumption
    | exact sub_mono hp (by decide)
    | intro _
    | with_reducible apply keeps_inside
    | with_reducible refine keeps_of_fst (by with_reducible assumption) ?_
    | with_reducible exact keepsM_pure _
    | with_reducible exact keepsM_get
    | with_reducible apply keepsM_modify
    | with_reducible apply keepsM_mapM
    | with_reducible apply keepsM_bind
    | with_reducible refine keeps_of_snd (by with_reducible assumption) ?_
    | with_reducible apply keeps_runM
    | with_reducible apply_assumption -exfalso -symm
    | dsimp only
    | split


theorem keeps_mixOne (a b c d e) (hp : Sub 0x65 K.may) : KeepsM K (mixOne a b c d e) := by
  unfold mixOne
  repeat' first
    | with_reducible assumption
    | exact sub_mono hp (by decide)
    | intro _
    | with_reducible apply keeps_rdFs
    | with_reducible apply keeps_inside
    | with_reducible apply keeps_bisect
    | with_reducible refine keeps_of_fst (by with_reducible assumption) ?_
    | with_reducible exact keepsM_pure _
    | with_reducible exact keepsM_get
    | with_reducible apply keepsM_modify
    | with_reducible apply keepsM_mapM
    | with_reducible apply keepsM_bind
    | with_reducible refine keeps_of_snd (by with_reducible assumption) ?_
    | with_reducible apply keeps_runM
    | dsimp only
    | split


theorem keeps_stageMix (a b c d e) (hp : Sub 0x65 K.may) : KeepsM K (stageMix a b c d e) := by
  unfold stageMix
  repeat' first
    | with_reducible assumption
    | exact sub_mono hp (by decide)
    | intro _
    | with_reducible apply keeps_mixOne
    | with_reducible apply keeps_evt
    | with_reducible apply keeps_bump
    | with_reducible apply keeps_tableErr
    | with_reducible refine keeps_of_fst (by with_reducible assumption) ?_
    | with_reducible exact keepsM_pure _
    | with_reducible exact keepsM_get
    | with_reducible apply keepsM_modify
    | with_reducible apply keepsM_mapM
    | with_reducible apply keepsM_bind
    | with_reducible refine keeps_of_snd (by with_reducible assumption) ?_
    | with_reducible apply keeps_runM
    | dsimp only
    | split


theorem keeps_stageDrive (a b c d e) (hp : Sub 0x60 K.may) : KeepsM K (stageDrive a b c d e) := by
  unfold stageDrive
  repeat' first
    | with_reducible assumption
    | exact sub_mono hp (by decide)
    | intro _
    | with_reducible apply keeps_evt
    | with_reducible apply keeps_bump
    | with_reducible refine keeps_of_fst (by with_reducible assumption) ?_
    | with_reducible exact keepsM_pure _
    | with_reducible exact keepsM_get
    | with_reducible apply keepsM_modify
    | with_reducible apply keepsM_mapM
    | with_reducible apply keepsM_bind
    | with_reducible refine keeps_of_snd (by with_reducible assumption) ?_
    | with_reducible apply keeps_runM
    | dsimp only
    | split


theorem keeps_stageTransfer (a b c d e) (hp : Sub 0x65 K.may) : KeepsM K (stageTransfer a b c d e) := by
  unfold stageTransfer
  repeat' first
    | with_reducible assumption
    | exact sub_mono hp (by decide)
    | intro _
    | with_reducible apply keeps_rdFs
    | with_reducible refine keeps_of_fst (by with_reducible assumption) ?_
    | with_reducible exact keepsM_pure _
    | with_reducible exact keepsM_get
    | with_reducible apply keepsM_modify
    | with_reducible apply keepsM_mapM
    | with_reducible apply keepsM_bind
    | with_reducible refine keeps_of_snd (by with_reducible assumption) ?_
    | with_reducible apply keeps_runM
    | dsimp only
    | split


theorem keeps_readInstance (s b c) (h0 : Keeps K s) (hp : Sub 0x65 K.may) : KeepsM K (readInstance s b c) := by
  unfold readInstance
  repeat' first
    | with_reducible assumption
    | exact sub_mono hp (by decide)
    | intro _
    | with_reducible apply keeps_rdFs
    | with_reducible refine keeps_of_fst (by with_reducible assumption) ?_
    | with_reducible exact keepsM_pure _
    | with_reducible exact keepsM_get
    | with_reducible apply keepsM_modify
    | with_reducible apply keepsM_mapM
    | with_reducible apply keepsM_bind
    | with_reducible refine keeps_of_snd (by with_reducible assumption) ?_
    | with_reducible apply keeps_runM
    | dsimp only
    | split


theorem keeps_touchProfile (a b s) (h2 : Keeps K s) (hp : Sub 0x400 K.may) : Keeps K (touchProfile a b s) := by
  unfold touchProfile
  repeat' first
    | with_reducible assumption
    | exact sub_mono hp (by decide)
    | (extract_lets +onlyGivenNames x; have hx : Keeps K x; (on_goal 2 => clear_value x); (on_goal 1 => unfold x; clear x))
    | (extract_lets +onlyGivenNames x; have hx : Keeps K x; (on_goal 1 => unfold x; clear x))
    | (extract_lets +onlyGivenNames x; clear_value x)
    | extract_lets +onlyGivenNames x
    | exact Or.inr rfl
    | exact Or.inl (may_of hp (by decide))
    | simp only [↓keeps_mk]
    | refine keepsOf_upd ?_ rfl rfl rfl rfl rfl rfl ?_ ?_ ?_ ?_ ?_ ?_ ?_ ?_ ?_ ?_ ?_ ?_ ?_ ?_ ?_ ?_ ?_ ?_ ?_ ?_ ?_ ?_
    | with_reducible apply keeps_bump
    | with_reducible refine keeps_of_fst (by with_reducible assumption) ?_
    | dsimp -zeta -zetaHave only
    | split


theorem keeps_writeWords (a b c d s) (h4 : Keeps K s) (hp : Sub 0x265 K.may) : Keeps K (writeWords a b c d s) := by
  unfold writeWords
  repeat' first
    | with_reducible assumption
    | exact sub_mono hp (by decide)
    | (extract_lets +onlyGivenNames x; clear_value x)
    | extract_lets +onlyGivenNames x
    | with_reducible apply keeps_wr
    | with_reducible apply keeps_updStrand
    | with_reducible refine keeps_of_fst (by with_reducible assumption) ?_
    | dsimp -zeta -zetaHave only
    | split


theorem keeps_entryCodes (a b c d e f g) (hp : Sub 0x465 K.may) : KeepsM K (entryCodes a b c d e f g) := by
  unfold entryCodes
  repeat' first
    | with_reducible assumption
    | exact sub_mono hp (by decide)
    | intro _
    | with_reducible apply keeps_readProfile
    | with_reducible apply keeps_tableErr
    | with_reducible apply keeps_touchProfile
    | with_reducible apply keeps_stageDrive
    | with_reducible apply keeps_stageTransfer
    | with_reducible apply keeps_rdFs
    | with_reducible apply keeps_stageMix
    | with_reducible refine keeps_of_fst (by with_reducible assumption) ?_
    | with_reducible exact keepsM_pure _
    | with_reducible exact keepsM_get
    | with_reducible apply keepsM_modify
    | with_reducible apply keepsM_mapM
    | with_reducible apply keepsM_bind
    | with_reducible refine keeps_of_snd (by with_reducible assumption) ?_
    | with_reducible apply keeps_runM
    | dsimp only
    | split


theorem keeps_lanePort (s) (h0 : Keeps K s) : Keeps K (lanePort s).1 := by
  unfold lanePort
  repeat' first
    | with_reducible assumption
    | with_reducible apply keeps_free
    | with_reducible refine keeps_of_fst (by with_reducible assumption) ?_
    | dsimp -zeta -zetaHave only
    | split


theorem keeps_lanePass (a s) (h1 : Keeps K s) (hp : Sub 0x765 K.may) : Keeps K (lanePass a s) := by
  unfold lanePass
  repeat' first
    | with_reducible assumption
    | exact sub_mono hp (by decide)
    | intro _
    | (extract_lets +onlyGivenNames x; have hx : Keeps K x; (on_goal 2 => clear_value x); (on_goal 1 => unfold x; clear x))
    | (extract_lets +onlyGivenNames x; have hx : Keeps K x; (on_goal 1 => unfold x; clear x))
    | (extract_lets +onlyGivenNames x; have hx : ∀ y0 y1, Keeps K y1 → Keeps K (x y0 y1); (on_goal 2 => clear_value x); (on_goal 1 => unfold x; clear x))
    | (extract_lets +onlyGivenNames x; clear_value x)
    | extract_lets +onlyGivenNames x
    | with_reducible apply keeps_updStrand
    | with_reducible apply keeps_bump
    | with_reducible apply keeps_rd
    | with_reducible apply keeps_tableErr
    | with_reducible apply keeps_fault
    | with_reducible apply keeps_lanePort
    | with_reducible apply keeps_readInstance
    | with_reducible apply keeps_evt
    | with_reducible apply keeps_composite
    | with_reducible apply keeps_entryCodes
    | with_reducible apply keeps_writeWords
    | with_reducible apply_assumption -exfalso -symm
    | with_reducible refine keeps_of_fst (by with_reducible assumption) ?_
    | with_reducible exact keepsM_pure _
    | with_reducible exact keepsM_get
    | with_reducible apply keepsM_modify
    | with_reducible apply keepsM_mapM
    | with_reducible apply keepsM_bind
    | with_reducible refine keeps_of_snd (by with_reducible assumption) ?_
    | with_reducible apply keeps_runM
    | dsimp -zeta -zetaHave only
    | split


theorem keeps_sweepOne (s b c) (h0 : Keeps K s) (h2 : Keeps K c) (hp : Sub 0x465 K.may) : Keeps K (sweepOne s b c) := by
  unfold sweepOne
  repeat' first
    | with_reducible assumption
    | exact sub_mono hp (by decide)
    | intro _
    | (extract_lets +onlyGivenNames x; have hx : Keeps K x; (on_goal 2 => clear_value x); (on_goal 1 => unfold x; clear x))
    | (extract_lets +onlyGivenNames x; have hx : Keeps K x; (on_goal 1 => unfold x; clear x))
    | (extract_lets +onlyGivenNames x; have hx : ∀ y0 y1, Keeps K y1 → Keeps K (x y0 y1); (on_goal 2 => clear_value x); (on_goal 1 => unfold x; clear x))
    | (extract_lets +onlyGivenNames x; clear_value x)
    | extract_lets +onlyGivenNames x
    | exact Or.inr rfl
    | exact Or.inl (may_of hp (by decide))
    | simp only [↓keeps_mk]
    | refine keepsOf_upd ?_ rfl rfl rfl rfl rfl rfl ?_ ?_ ?_ ?_ ?_ ?_ ?_ ?_ ?_ ?_ ?_ ?_ ?_ ?_ ?_ ?_ ?_ ?_ ?_ ?_ ?_ ?_
    | with_reducible apply keeps_tableErr
    | with_reducible apply keeps_fault
    | with_reducible apply keeps_readInstance
    | with_reducible apply keeps_rdFs
    | with_reducible apply keeps_wr'
    | with_reducible apply keeps_evtIf
    | with_reducible apply_assumption -exfalso -symm
    | with_reducible refine keeps_of_fst (by with_reducible assumption) ?_
    | with_reducible exact keepsM_pure _
    | with_reducible exact keepsM_get
    | with_reducible apply keepsM_modify
    | with_reducible apply keepsM_mapM
    | with_reducible apply keepsM_bind
    | with_reducible refine keeps_of_snd (by with_reducible assumption) ?_
    | with_reducible apply keeps_runM
    | dsimp -zeta -zetaHave only
    | split


theorem keeps_stateSweep (s) (h0 : Keeps K s) (hp : Sub 0x465 K.may) : Keeps K (stateSweep s) := by
  unfold stateSweep
  repeat' first
    | with_reducible assumption
    | exact sub_mono hp (by decide)
    | intro _
    | (extract_lets +onlyGivenNames x; have hx : Keeps K x; (on_goal 2 => clear_value x); (on_goal 1 => unfold x; clear x))
    | (extract_lets +onlyGivenNames x; have hx : Keeps K x; (on_goal 1 => unfold x; clear x))
    | (extract_lets +onlyGivenNames x; clear_value x)
    | extract_lets +onlyGivenNames x
    | exact Or.inr rfl
    | exact Or.inl (may_of hp (by decide))
    | simp only [↓keeps_mk]
    | refine keepsOf_upd ?_ rfl rfl rfl rfl rfl rfl ?_ ?_ ?_ ?_ ?_ ?_ ?_ ?_ ?_ ?_ ?_ ?_ ?_ ?_ ?_ ?_ ?_ ?_ ?_ ?_ ?_ ?_
    | with_reducible apply keeps_merged
    | with_reducible apply keeps_sweepOne
    | with_reducible apply keeps_foldl
    | with_reducible apply keeps_foldl_fst
    | with_reducible refine keeps_of_fst (by with_reducible assumption) ?_
    | dsimp -zeta -zetaHave only
    | split


theorem keeps_colourTake (s) (h0 : Keeps K s) (hp : Sub 0x400 K.may) : Keeps K (colourTake s) := by
  unfold colourTake
  repeat' first
    | with_reducible assumption
    | exact sub_mono hp (by decide)
    | intro _
    | (extract_lets +onlyGivenNames x; have hx : Keeps K x; (on_goal 2 => clear_value x); (on_goal 1 => unfold x; clear x))
    | (extract_lets +onlyGivenNames x; have hx : Keeps K x; (on_goal 1 => unfold x; clear x))
    | (extract_lets +onlyGivenNames x; clear_value x)
    | extract_lets +onlyGivenNames x
    | exact Or.inr rfl
    | exact Or.inl (may_of hp (by decide))
    | simp only [↓keeps_mk]
    | refine keepsOf_upd ?_ rfl rfl rfl rfl rfl rfl ?_ ?_ ?_ ?_ ?_ ?_ ?_ ?_ ?_ ?_ ?_ ?_ ?_ ?_ ?_ ?_ ?_ ?_ ?_ ?_ ?_ ?_
    | with_reducible apply keeps_setStat
    | with_reducible apply keeps_foldl
    | with_reducible apply keeps_foldl_fst
    | with_reducible refine keeps_of_fst (by with_reducible assumption) ?_
    | dsimp -zeta -zetaHave only
    | split


theorem keeps_execColourLanePass (a s) (h1 : Keeps K s) (hp : Sub 0x765 K.may) : ∃ t, execColourLanePass a s = .next t ∧ Keeps K t := by
  refine ⟨_, rfl, ?_⟩
  repeat' first
    | with_reducible assumption
    | exact sub_mono hp (by decide)
    | exact Or.inr rfl
    | exact Or.inl (may_of hp (by decide))
    | simp only [↓keeps_mk]
    | refine keepsOf_upd ?_ rfl rfl rfl rfl rfl rfl ?_ ?_ ?_ ?_ ?_ ?_ ?_ ?_ ?_ ?_ ?_ ?_ ?_ ?_ ?_ ?_ ?_ ?_ ?_ ?_ ?_ ?_
    | with_reducible apply keeps_lanePass
    | dsimp -zeta -zetaHave only


theorem keeps_execStateSweep (s) (h0 : Keeps K s) (hp : Sub 0x465 K.may) : ∃ t, execStateSweep s = .next t ∧ Keeps K t := by
  refine ⟨_, rfl, ?_⟩
  repeat' first
    | with_reducible assumption
    | exact sub_mono hp (by decide)
    | exact Or.inr rfl
    | exact Or.inl (may_of hp (by decide))
    | simp only [↓keeps_mk]
    | refine keepsOf_upd ?_ rfl rfl rfl rfl rfl rfl ?_ ?_ ?_ ?_ ?_ ?_ ?_ ?_ ?_ ?_ ?_ ?_ ?_ ?_ ?_ ?_ ?_ ?_ ?_ ?_ ?_ ?_
    | with_reducible apply keeps_stateSweep
    | dsimp -zeta -zetaHave only


end Sys2Proof.Machine
end

