-- ==== Sys2Proof/Laws/KeepsStrand.lean ====
section
/-!
SUPPORT. What the operations of Machine/Strand.lean keep.
-/
namespace Sys2Proof.Machine
open Sys2Proof

variable {K : Keeping}

theorem keeps_updPin (s b c) (h0 : Keeps K s) (hp : Sub 0x200 K.may) : Keeps K (updPin s b c) := by
  unfold updPin
  repeat' first
    | with_reducible assumption
    | exact sub_mono hp (by decide)
    | (extract_lets +onlyGivenNames x; clear_value x)
    | extract_lets +onlyGivenNames x
    | exact Or.inr rfl
    | exact Or.inl (may_of hp (by decide))
    | simp only [↓keeps_mk]
    | refine keepsOf_upd ?_ rfl rfl rfl rfl rfl rfl ?_ ?_ ?_ ?_ ?_ ?_ ?_ ?_ ?_ ?_ ?_ ?_ ?_ ?_ ?_ ?_ ?_ ?_ ?_ ?_ ?_ ?_
    | dsimp -zeta -zetaHave only


theorem keeps_drivePin (a b c s) (h3 : Keeps K s) (hp : Sub 0x200 K.may) : Keeps K (drivePin a b c s) := by
  unfold drivePin
  repeat' first
    | with_reducible assumption
    | exact sub_mono hp (by decide)
    | (extract_lets +onlyGivenNames x; have hx : Keeps K x; (on_goal 2 => clear_value x); (on_goal 1 => unfold x; clear x))
    | (extract_lets +onlyGivenNames x; have hx : Keeps K x; (on_goal 1 => unfold x; clear x))
    | with_reducible apply keeps_bump
    | with_reducible apply keeps_emit
    | with_reducible apply keeps_updPin
    | with_reducible refine keeps_of_fst (by with_reducible assumption) ?_
    | dsimp -zeta -zetaHave only
    | split


theorem keeps_floatPin (a s) (h1 : Keeps K s) (hp : Sub 0x200 K.may) : Keeps K (floatPin a s) := by
  unfold floatPin
  repeat' first
    | with_reducible assumption
    | exact sub_mono hp (by decide)
    | (extract_lets +onlyGivenNames x; have hx : Keeps K x; (on_goal 2 => clear_value x); (on_goal 1 => unfold x; clear x))
    | (extract_lets +onlyGivenNames x; have hx : Keeps K x; (on_goal 1 => unfold x; clear x))
    | with_reducible apply keeps_emit
    | with_reducible apply keeps_updPin
    | with_reducible refine keeps_of_fst (by with_reducible assumption) ?_
    | dsimp -zeta -zetaHave only
    | split


theorem keeps_clearPin (a s) (h1 : Keeps K s) (hp : Sub 0x200 K.may) : Keeps K (clearPin a s) := by
  unfold clearPin
  repeat' first
    | with_reducible assumption
    | exact sub_mono hp (by decide)
    | with_reducible apply keeps_updPin
    | dsimp -zeta -zetaHave only


theorem keeps_supply (a b s) (h2 : Keeps K s) (hp : Sub 0x200 K.may) : Keeps K (supply a b s) := by
  unfold supply
  repeat' first
    | with_reducible assumption
    | exact sub_mono hp (by decide)
    | (extract_lets +onlyGivenNames x; clear_value x)
    | extract_lets +onlyGivenNames x
    | with_reducible apply keeps_updPin
    | dsimp -zeta -zetaHave only


theorem keeps_sequence (a b s) (h2 : Keeps K s) (hp : Sub 0x200 K.may) : Keeps K (sequence a b s) := by
  unfold sequence
  repeat' first
    | with_reducible assumption
    | exact sub_mono hp (by decide)
    | intro _
    | (extract_lets +onlyGivenNames x; clear_value x)
    | extract_lets +onlyGivenNames x
    | with_reducible apply keeps_supply
    | with_reducible apply keeps_foldl
    | with_reducible apply keeps_foldl_fst
    | with_reducible refine keeps_of_fst (by with_reducible assumption) ?_
    | dsimp -zeta -zetaHave only
    | split


theorem keeps_edgeLate (a b s) (h2 : Keeps K s) (hp : Sub 0x60 K.may) : Keeps K (edgeLate a b s) := by
  unfold edgeLate
  repeat' first
    | with_reducible assumption
    | exact sub_mono hp (by decide)
    | (extract_lets +onlyGivenNames x; have hx : Keeps K x; (on_goal 2 => clear_value x); (on_goal 1 => unfold x; clear x))
    | (extract_lets +onlyGivenNames x; have hx : Keeps K x; (on_goal 1 => unfold x; clear x))
    | with_reducible apply keeps_evt
    | with_reducible apply keeps_bump
    | with_reducible refine keeps_of_fst (by with_reducible assumption) ?_
    | dsimp -zeta -zetaHave only
    | split


theorem keeps_placeEntry (a b s) (h2 : Keeps K s) (hp : Sub 0x260 K.may) : Keeps K (placeEntry a b s) := by
  unfold placeEntry
  repeat' first
    | with_reducible assumption
    | exact sub_mono hp (by decide)
    | (extract_lets +onlyGivenNames x; have hx : Keeps K x; (on_goal 2 => clear_value x); (on_goal 1 => unfold x; clear x))
    | (extract_lets +onlyGivenNames x; have hx : Keeps K x; (on_goal 1 => unfold x; clear x))
    | (extract_lets +onlyGivenNames x; clear_value x)
    | extract_lets +onlyGivenNames x
    | with_reducible apply keeps_free
    | with_reducible apply keeps_bump
    | with_reducible apply keeps_edgeLate
    | with_reducible apply keeps_drivePin
    | with_reducible refine keeps_of_fst (by with_reducible assumption) ?_
    | dsimp -zeta -zetaHave only
    | split


theorem keeps_placeHead (a s) (h1 : Keeps K s) (hp : Sub 0x260 K.may) : Keeps K (placeHead a s) := by
  unfold placeHead
  repeat' first
    | with_reducible assumption
    | exact sub_mono hp (by decide)
    | (extract_lets +onlyGivenNames x; have hx : Keeps K x; (on_goal 2 => clear_value x); (on_goal 1 => unfold x; clear x))
    | (extract_lets +onlyGivenNames x; have hx : Keeps K x; (on_goal 1 => unfold x; clear x))
    | (extract_lets +onlyGivenNames x; clear_value x)
    | extract_lets +onlyGivenNames x
    | with_reducible apply keeps_updPin
    | with_reducible apply keeps_placeEntry
    | with_reducible refine keeps_of_fst (by with_reducible assumption) ?_
    | dsimp -zeta -zetaHave only
    | split


theorem keeps_placeNow (a b s) (h2 : Keeps K s) (hp : Sub 0x260 K.may) : Keeps K (placeNow a b s) := by
  unfold placeNow
  repeat' first
    | with_reducible assumption
    | exact sub_mono hp (by decide)
    | (extract_lets +onlyGivenNames x; clear_value x)
    | extract_lets +onlyGivenNames x
    | with_reducible apply keeps_sequence
    | with_reducible apply keeps_placeEntry
    | with_reducible refine keeps_of_fst (by with_reducible assumption) ?_
    | dsimp -zeta -zetaHave only
    | split


theorem keeps_pinCheck (a b s) (h2 : Keeps K s) (hp : Sub 0x60 K.may) : Keeps K (pinCheck a b s) := by
  unfold pinCheck
  repeat' first
    | with_reducible assumption
    | exact sub_mono hp (by decide)
    | (extract_lets +onlyGivenNames x; have hx : Keeps K x; (on_goal 2 => clear_value x); (on_goal 1 => unfold x; clear x))
    | (extract_lets +onlyGivenNames x; have hx : Keeps K x; (on_goal 1 => unfold x; clear x))
    | (extract_lets +onlyGivenNames x; clear_value x)
    | extract_lets +onlyGivenNames x
    | with_reducible apply keeps_evt
    | with_reducible apply keeps_bump
    | with_reducible refine keeps_of_fst (by with_reducible assumption) ?_
    | dsimp -zeta -zetaHave only
    | split


theorem keeps_settlePort (a s) (h1 : Keeps K s) (hp : Sub 0x200 K.may) : Keeps K (settlePort a s) := by
  unfold settlePort
  repeat' first
    | with_reducible assumption
    | exact sub_mono hp (by decide)
    | intro _
    | (extract_lets +onlyGivenNames x; clear_value x)
    | extract_lets +onlyGivenNames x
    | with_reducible apply keeps_floatPin
    | with_reducible apply keeps_clearPin
    | with_reducible apply keeps_drivePin
    | with_reducible apply keeps_foldl
    | with_reducible apply keeps_foldl_fst
    | with_reducible refine keeps_of_fst (by with_reducible assumption) ?_
    | dsimp -zeta -zetaHave only
    | split


theorem keeps_settleLatch (a s) (h1 : Keeps K s) (hp : Sub 0x200 K.may) : Keeps K (settleLatch a s) := by
  unfold settleLatch
  repeat' first
    | with_reducible assumption
    | exact sub_mono hp (by decide)
    | (extract_lets +onlyGivenNames x; clear_value x)
    | extract_lets +onlyGivenNames x
    | with_reducible apply keeps_floatPin
    | with_reducible apply keeps_drivePin
    | with_reducible refine keeps_of_fst (by with_reducible assumption) ?_
    | dsimp -zeta -zetaHave only
    | split


theorem keeps_settleAll (s) (h0 : Keeps K s) (hp : Sub 0x200 K.may) : Keeps K (settleAll s) := by
  unfold settleAll
  repeat' first
    | with_reducible assumption
    | exact sub_mono hp (by decide)
    | intro _
    | (extract_lets +onlyGivenNames x; have hx : Keeps K x; (on_goal 2 => clear_value x); (on_goal 1 => unfold x; clear x))
    | (extract_lets +onlyGivenNames x; have hx : Keeps K x; (on_goal 1 => unfold x; clear x))
    | with_reducible apply keeps_settlePort
    | with_reducible apply keeps_settleLatch
    | with_reducible apply keeps_foldl
    | with_reducible apply keeps_foldl_fst
    | dsimp -zeta -zetaHave only


theorem keeps_rdmDone (a b c s) (h3 : Keeps K s) (hp : Sub 0x60 K.may) : Keeps K (rdmDone a b c s) := by
  unfold rdmDone
  repeat' first
    | with_reducible assumption
    | exact sub_mono hp (by decide)
    | (extract_lets +onlyGivenNames x; have hx : Keeps K x; (on_goal 2 => clear_value x); (on_goal 1 => unfold x; clear x))
    | (extract_lets +onlyGivenNames x; have hx : Keeps K x; (on_goal 1 => unfold x; clear x))
    | with_reducible apply keeps_set
    | with_reducible apply keeps_bump
    | with_reducible apply keeps_evt
    | with_reducible refine keeps_of_fst (by with_reducible assumption) ?_
    | dsimp -zeta -zetaHave only
    | split


theorem keeps_rdmDrop (a b s) (h2 : Keeps K s) (hp : Sub 0x260 K.may) : Keeps K (rdmDrop a b s) := by
  unfold rdmDrop
  repeat' first
    | with_reducible assumption
    | exact sub_mono hp (by decide)
    | (extract_lets +onlyGivenNames x; clear_value x)
    | extract_lets +onlyGivenNames x
    | with_reducible apply keeps_updStrand
    | with_reducible apply keeps_rdmDone
    | with_reducible refine keeps_of_fst (by with_reducible assumption) ?_
    | dsimp -zeta -zetaHave only
    | split


theorem keeps_takeUp (a s) (h1 : Keeps K s) (hp : Sub 0x260 K.may) : Keeps K (takeUp a s) := by
  unfold takeUp
  repeat' first
    | with_reducible assumption
    | exact sub_mono hp (by decide)
    | intro _
    | (extract_lets +onlyGivenNames x; have hx : Keeps K x; (on_goal 2 => clear_value x); (on_goal 1 => unfold x; clear x))
    | (extract_lets +onlyGivenNames x; have hx : Keeps K x; (on_goal 1 => unfold x; clear x))
    | (extract_lets +onlyGivenNames x; clear_value x)
    | extract_lets +onlyGivenNames x
    | with_reducible apply keeps_updStrand
    | with_reducible apply keeps_rdmDrop
    | with_reducible apply keeps_settlePort
    | with_reducible apply keeps_refresh
    | with_reducible apply keeps_foldl
    | with_reducible apply keeps_foldl_fst
    | with_reducible refine keeps_of_fst (by with_reducible assumption) ?_
    | dsimp -zeta -zetaHave only
    | split


theorem keeps_readWords (a b c s) (h3 : Keeps K s) (hp : Sub 0x265 K.may) : Keeps K (readWords a b c s).1 := by
  unfold readWords
  repeat' first
    | with_reducible assumption
    | exact sub_mono hp (by decide)
    | intro _
    | (extract_lets +onlyGivenNames x; have hx : ∀ y0, Keeps K y0 → Keeps K (x y0); (on_goal 2 => clear_value x); (on_goal 1 => unfold x; clear x))
    | (extract_lets +onlyGivenNames x; have hx : ∀ y0 y1, Keeps K y0.1 → Keeps K (x y0 y1).1; (on_goal 2 => clear_value x); (on_goal 1 => unfold x; clear x))
    | (extract_lets +onlyGivenNames x; clear_value x)
    | extract_lets +onlyGivenNames x
    | with_reducible apply keeps_evt
    | with_reducible apply keeps_bump
    | with_reducible apply keeps_rd
    | with_reducible apply keeps_updStrand
    | with_reducible apply_assumption -exfalso -symm
    | with_reducible apply keeps_foldl
    | with_reducible apply keeps_foldl_fst
    | with_reducible refine keeps_of_fst (by with_reducible assumption) ?_
    | dsimp -zeta -zetaHave only
    | split


theorem keeps_skipFrame (a b c s) (h3 : Keeps K s) (hp : Sub 0x260 K.may) : Keeps K (skipFrame a b c s) := by
  unfold skipFrame
  repeat' first
    | with_reducible assumption
    | exact sub_mono hp (by decide)
    | (extract_lets +onlyGivenNames x; have hx : Keeps K x; (on_goal 2 => clear_value x); (on_goal 1 => unfold x; clear x))
    | (extract_lets +onlyGivenNames x; have hx : Keeps K x; (on_goal 1 => unfold x; clear x))
    | with_reducible apply keeps_evt
    | with_reducible apply keeps_bump
    | with_reducible apply keeps_updStrand
    | with_reducible refine keeps_of_fst (by with_reducible assumption) ?_
    | dsimp -zeta -zetaHave only
    | split


theorem keeps_pipelineBack (a s) (h1 : Keeps K s) (hp : Sub 0x260 K.may) : Keeps K (pipelineBack a s) := by
  unfold pipelineBack
  repeat' first
    | with_reducible assumption
    | exact sub_mono hp (by decide)
    | with_reducible apply keeps_refresh
    | with_reducible apply keeps_updStrand
    | with_reducible refine keeps_of_fst (by with_reducible assumption) ?_
    | dsimp -zeta -zetaHave only
    | split


theorem keeps_beginShift (a b c d e s) (h5 : Keeps K s) (hp : Sub 0x200 K.may) : Keeps K (beginShift a b c d e s) := by
  unfold beginShift
  repeat' first
    | with_reducible assumption
    | exact sub_mono hp (by decide)
    | intro _
    | (extract_lets +onlyGivenNames x; have hx : Keeps K x; (on_goal 2 => clear_value x); (on_goal 1 => unfold x; clear x))
    | (extract_lets +onlyGivenNames x; have hx : Keeps K x; (on_goal 1 => unfold x; clear x))
    | (extract_lets +onlyGivenNames x; clear_value x)
    | extract_lets +onlyGivenNames x
    | with_reducible apply keeps_sequence
    | with_reducible apply keeps_updStrand
    | with_reducible apply keeps_foldl
    | with_reducible apply keeps_foldl_fst
    | with_reducible refine keeps_of_fst (by with_reducible assumption) ?_
    | dsimp -zeta -zetaHave only
    | split


theorem keeps_sent (a b s) (h2 : Keeps K s) (hp : Sub 0x200 K.may) : Keeps K (sent a b s) := by
  unfold sent
  repeat' first
    | with_reducible assumption
    | exact sub_mono hp (by decide)
    | with_reducible apply keeps_updStrand
    | with_reducible apply keeps_bump
    | dsimp -zeta -zetaHave only


theorem keeps_updRect (s b c) (h0 : Keeps K s) (hp : Sub 0x200 K.may) : Keeps K (updRect s b c) := by
  unfold updRect
  repeat' first
    | with_reducible assumption
    | exact sub_mono hp (by decide)
    | (extract_lets +onlyGivenNames x; clear_value x)
    | extract_lets +onlyGivenNames x
    | exact Or.inr rfl
    | exact Or.inl (may_of hp (by decide))
    | simp only [↓keeps_mk]
    | refine keepsOf_upd ?_ rfl rfl rfl rfl rfl rfl ?_ ?_ ?_ ?_ ?_ ?_ ?_ ?_ ?_ ?_ ?_ ?_ ?_ ?_ ?_ ?_ ?_ ?_ ?_ ?_ ?_ ?_
    | dsimp -zeta -zetaHave only


theorem keeps_sqcResult (a b s) (h2 : Keeps K s) (hp : Sub 0x260 K.may) : Keeps K (sqcResult a b s) := by
  unfold sqcResult
  repeat' first
    | with_reducible assumption
    | exact sub_mono hp (by decide)
    | (extract_lets +onlyGivenNames x; have hx : Keeps K x; (on_goal 2 => clear_value x); (on_goal 1 => unfold x; clear x))
    | (extract_lets +onlyGivenNames x; have hx : Keeps K x; (on_goal 1 => unfold x; clear x))
    | (extract_lets +onlyGivenNames x; clear_value x)
    | extract_lets +onlyGivenNames x
    | with_reducible apply keeps_updRect
    | with_reducible apply keeps_bump
    | with_reducible apply keeps_evt
    | with_reducible refine keeps_of_fst (by with_reducible assumption) ?_
    | dsimp -zeta -zetaHave only
    | split


theorem keeps_sqcPort (a b c d s) (h4 : Keeps K s) (hp : Sub 0x260 K.may) : Keeps K (sqcPort a b c d s) := by
  unfold sqcPort
  repeat' first
    | with_reducible assumption
    | exact sub_mono hp (by decide)
    | intro _
    | (extract_lets +onlyGivenNames x; clear_value x)
    | extract_lets +onlyGivenNames x
    | with_reducible apply keeps_sqcResult
    | with_reducible apply keeps_updRect
    | with_reducible apply keeps_updStrand
    | with_reducible apply keeps_foldl
    | with_reducible apply keeps_foldl_fst
    | with_reducible refine keeps_of_fst (by with_reducible assumption) ?_
    | dsimp -zeta -zetaHave only
    | split


theorem keeps_lastResults (s) (h0 : Keeps K s) : Keeps K (lastResults s) := by
  unfold lastResults
  repeat' first
    | with_reducible assumption
    | intro _
    | (extract_lets +onlyGivenNames x; have hx : Keeps K x; (on_goal 2 => clear_value x); (on_goal 1 => unfold x; clear x))
    | (extract_lets +onlyGivenNames x; have hx : Keeps K x; (on_goal 1 => unfold x; clear x))
    | (extract_lets +onlyGivenNames x; clear_value x)
    | extract_lets +onlyGivenNames x
    | with_reducible apply keeps_setStat
    | with_reducible apply keeps_foldl
    | with_reducible apply keeps_foldl_fst
    | with_reducible refine keeps_of_fst (by with_reducible assumption) ?_
    | dsimp -zeta -zetaHave only
    | split


theorem keeps_sqcAtFs (a s) (h1 : Keeps K s) (hp : Sub 0x200 K.may) : Keeps K (sqcAtFs a s) := by
  unfold sqcAtFs
  repeat' first
    | with_reducible assumption
    | exact sub_mono hp (by decide)
    | intro _
    | (extract_lets +onlyGivenNames x; clear_value x)
    | extract_lets +onlyGivenNames x
    | with_reducible apply keeps_updRect
    | with_reducible apply keeps_foldl
    | with_reducible apply keeps_foldl_fst
    | with_reducible refine keeps_of_fst (by with_reducible assumption) ?_
    | dsimp -zeta -zetaHave only
    | split


theorem keeps_shiftBegin (a s) (h1 : Keeps K s) (hp : Sub 0x265 K.may) : Keeps K (shiftBegin a s) := by
  unfold shiftBegin
  repeat' first
    | with_reducible assumption
    | exact sub_mono hp (by decide)
    | (extract_lets +onlyGivenNames x; have hx : Keeps K x; (on_goal 2 => clear_value x); (on_goal 1 => unfold x; clear x))
    | (extract_lets +onlyGivenNames x; have hx : Keeps K x; (on_goal 1 => unfold x; clear x))
    | (extract_lets +onlyGivenNames x; clear_value x)
    | extract_lets +onlyGivenNames x
    | with_reducible apply keeps_sqcPort
    | with_reducible apply keeps_skipFrame
    | with_reducible apply keeps_beginShift
    | with_reducible apply keeps_sent
    | with_reducible apply keeps_pipelineBack
    | with_reducible apply keeps_readWords
    | with_reducible refine keeps_of_fst (by with_reducible assumption) ?_
    | dsimp -zeta -zetaHave only
    | split


theorem keeps_readBack (a b s) (h2 : Keeps K s) (hp : Sub 0x265 K.may) : Keeps K (readBack a b s) := by
  unfold readBack
  repeat' first
    | with_reducible assumption
    | exact sub_mono hp (by decide)
    | intro _
    | (extract_lets +onlyGivenNames x; have hx : Keeps K x; (on_goal 2 => clear_value x); (on_goal 1 => unfold x; clear x))
    | (extract_lets +onlyGivenNames x; have hx : Keeps K x; (on_goal 1 => unfold x; clear x))
    | (extract_lets +onlyGivenNames x; clear_value x)
    | extract_lets +onlyGivenNames x
    | with_reducible apply keeps_wr'
    | with_reducible apply keeps_updStrand
    | with_reducible apply keeps_foldl
    | with_reducible apply keeps_foldl_fst
    | with_reducible refine keeps_of_fst (by with_reducible assumption) ?_
    | dsimp -zeta -zetaHave only
    | split


theorem keeps_shiftEnd (a b c s) (h3 : Keeps K s) (hp : Sub 0x265 K.may) : Keeps K (shiftEnd a b c s) := by
  unfold shiftEnd
  repeat' first
    | with_reducible assumption
    | exact sub_mono hp (by decide)
    | (extract_lets +onlyGivenNames x; have hx : Keeps K x; (on_goal 2 => clear_value x); (on_goal 1 => unfold x; clear x))
    | (extract_lets +onlyGivenNames x; have hx : Keeps K x; (on_goal 1 => unfold x; clear x))
    | (extract_lets +onlyGivenNames x; clear_value x)
    | extract_lets +onlyGivenNames x
    | with_reducible apply keeps_updStrand
    | with_reducible apply keeps_readBack
    | with_reducible apply keeps_sqcPort
    | with_reducible refine keeps_of_fst (by with_reducible assumption) ?_
    | dsimp -zeta -zetaHave only
    | split


theorem keeps_wordMiss (a b s) (h2 : Keeps K s) (hp : Sub 0x260 K.may) : Keeps K (wordMiss a b s) := by
  unfold wordMiss
  repeat' first
    | with_reducible assumption
    | exact sub_mono hp (by decide)
    | intro _
    | (extract_lets +onlyGivenNames x; have hx : Keeps K x; (on_goal 2 => clear_value x); (on_goal 1 => unfold x; clear x))
    | (extract_lets +onlyGivenNames x; have hx : Keeps K x; (on_goal 1 => unfold x; clear x))
    | (extract_lets +onlyGivenNames x; clear_value x)
    | extract_lets +onlyGivenNames x
    | with_reducible apply keeps_evt
    | with_reducible apply keeps_bump
    | with_reducible apply keeps_updStrand
    | with_reducible apply keeps_updPin
    | with_reducible apply keeps_foldl
    | with_reducible apply keeps_foldl_fst
    | with_reducible refine keeps_of_fst (by with_reducible assumption) ?_
    | dsimp -zeta -zetaHave only
    | split


theorem keeps_showLamps (a b c s) (h3 : Keeps K s) (hp : Sub 0x260 K.may) : Keeps K (showLamps a b c s) := by
  unfold showLamps
  repeat' first
    | with_reducible assumption
    | exact sub_mono hp (by decide)
    | intro _
    | (extract_lets +onlyGivenNames x; have hx : Keeps K x; (on_goal 2 => clear_value x); (on_goal 1 => unfold x; clear x))
    | (extract_lets +onlyGivenNames x; have hx : Keeps K x; (on_goal 1 => unfold x; clear x))
    | (extract_lets +onlyGivenNames x; clear_value x)
    | extract_lets +onlyGivenNames x
    | with_reducible apply keeps_placeNow
    | with_reducible apply keeps_bump
    | with_reducible apply keeps_sequence
    | with_reducible apply keeps_updStrand
    | with_reducible apply keeps_foldl
    | with_reducible apply keeps_foldl_fst
    | with_reducible refine keeps_of_fst (by with_reducible assumption) ?_
    | dsimp -zeta -zetaHave only
    | split


theorem keeps_matrixTake (a b c d s) (h4 : Keeps K s) (hp : Sub 0x260 K.may) : Keeps K (matrixTake a b c d s) := by
  unfold matrixTake
  repeat' first
    | with_reducible assumption
    | exact sub_mono hp (by decide)
    | (extract_lets +onlyGivenNames x; have hx : Keeps K x; (on_goal 2 => clear_value x); (on_goal 1 => unfold x; clear x))
    | (extract_lets +onlyGivenNames x; have hx : Keeps K x; (on_goal 1 => unfold x; clear x))
    | (extract_lets +onlyGivenNames x; clear_value x)
    | extract_lets +onlyGivenNames x
    | with_reducible apply keeps_evt
    | with_reducible apply keeps_bump
    | with_reducible apply keeps_updStrand
    | with_reducible apply keeps_showLamps
    | with_reducible refine keeps_of_fst (by with_reducible assumption) ?_
    | dsimp -zeta -zetaHave only
    | split


theorem keeps_matrixSwitch (a s) (h1 : Keeps K s) (hp : Sub 0x260 K.may) : Keeps K (matrixSwitch a s) := by
  unfold matrixSwitch
  repeat' first
    | with_reducible assumption
    | exact sub_mono hp (by decide)
    | (extract_lets +onlyGivenNames x; have hx : Keeps K x; (on_goal 2 => clear_value x); (on_goal 1 => unfold x; clear x))
    | (extract_lets +onlyGivenNames x; have hx : Keeps K x; (on_goal 1 => unfold x; clear x))
    | (extract_lets +onlyGivenNames x; clear_value x)
    | extract_lets +onlyGivenNames x
    | with_reducible apply keeps_updStrand
    | with_reducible apply keeps_showLamps
    | with_reducible refine keeps_of_fst (by with_reducible assumption) ?_
    | dsimp -zeta -zetaHave only
    | split


theorem keeps_pwmPulse (a b c d s f) (h4 : Keeps K s) (hp : Sub 0x200 K.may) : Keeps K (pwmPulse a b c d s f) := by
  unfold pwmPulse
  repeat' first
    | with_reducible assumption
    | exact sub_mono hp (by decide)
    | (extract_lets +onlyGivenNames x; have hx : Keeps K x; (on_goal 2 => clear_value x); (on_goal 1 => unfold x; clear x))
    | (extract_lets +onlyGivenNames x; have hx : Keeps K x; (on_goal 1 => unfold x; clear x))
    | (extract_lets +onlyGivenNames x; clear_value x)
    | extract_lets +onlyGivenNames x
    | with_reducible apply keeps_updPin
    | with_reducible apply keeps_sequence
    | with_reducible refine keeps_of_fst (by with_reducible assumption) ?_
    | dsimp -zeta -zetaHave only
    | split


theorem keeps_pwmNext (a s) (h1 : Keeps K s) (hp : Sub 0x200 K.may) : Keeps K (pwmNext a s) := by
  unfold pwmNext
  repeat' first
    | with_reducible assumption
    | exact sub_mono hp (by decide)
    | intro _
    | (extract_lets +onlyGivenNames x; have hx : Keeps K x; (on_goal 2 => clear_value x); (on_goal 1 => unfold x; clear x))
    | (extract_lets +onlyGivenNames x; have hx : Keeps K x; (on_goal 1 => unfold x; clear x))
    | (extract_lets +onlyGivenNames x; clear_value x)
    | extract_lets +onlyGivenNames x
    | with_reducible apply keeps_pwmPulse
    | with_reducible apply keeps_updStrand
    | with_reducible apply keeps_foldl
    | with_reducible apply keeps_foldl_fst
    | with_reducible refine keeps_of_fst (by with_reducible assumption) ?_
    | dsimp -zeta -zetaHave only
    | split


theorem keeps_pwmPeriodStart (a s) (h1 : Keeps K s) (hp : Sub 0x200 K.may) : Keeps K (pwmPeriodStart a s) := by
  unfold pwmPeriodStart
  repeat' first
    | with_reducible assumption
    | exact sub_mono hp (by decide)
    | (extract_lets +onlyGivenNames x; clear_value x)
    | extract_lets +onlyGivenNames x
    | with_reducible apply keeps_pwmNext
    | with_reducible refine keeps_of_fst (by with_reducible assumption) ?_
    | dsimp -zeta -zetaHave only
    | split


theorem keeps_pwmTake (a b c d s) (h4 : Keeps K s) (hp : Sub 0x200 K.may) : Keeps K (pwmTake a b c d s) := by
  unfold pwmTake
  repeat' first
    | with_reducible assumption
    | exact sub_mono hp (by decide)
    | with_reducible apply keeps_pwmNext
    | with_reducible apply keeps_updStrand
    | dsimp -zeta -zetaHave only


theorem keeps_dmxData (a s) (h1 : Keeps K s) (hp : Sub 0x265 K.may) : Keeps K (dmxData a s).1 := by
  unfold dmxData
  repeat' first
    | with_reducible assumption
    | exact sub_mono hp (by decide)
    | (extract_lets +onlyGivenNames x; clear_value x)
    | extract_lets +onlyGivenNames x
    | with_reducible apply keeps_readWords
    | with_reducible apply keeps_updStrand
    | with_reducible refine keeps_of_fst (by with_reducible assumption) ?_
    | dsimp -zeta -zetaHave only
    | split


theorem keeps_dmxBreak (a s) (h1 : Keeps K s) (hp : Sub 0x265 K.may) : Keeps K (dmxBreak a s) := by
  unfold dmxBreak
  repeat' first
    | with_reducible assumption
    | exact sub_mono hp (by decide)
    | (extract_lets +onlyGivenNames x; have hx : Keeps K x; (on_goal 2 => clear_value x); (on_goal 1 => unfold x; clear x))
    | (extract_lets +onlyGivenNames x; have hx : Keeps K x; (on_goal 1 => unfold x; clear x))
    | (extract_lets +onlyGivenNames x; clear_value x)
    | extract_lets +onlyGivenNames x
    | with_reducible apply keeps_takeUp
    | with_reducible apply keeps_emit
    | with_reducible apply keeps_sequence
    | with_reducible apply keeps_updStrand
    | with_reducible apply keeps_free
    | with_reducible apply keeps_dmxData
    | with_reducible apply keeps_bump
    | with_reducible refine keeps_of_fst (by with_reducible assumption) ?_
    | dsimp -zeta -zetaHave only
    | split


theorem keeps_packetDone (a b s) (h2 : Keeps K s) (hp : Sub 0x260 K.may) : Keeps K (packetDone a b s) := by
  unfold packetDone
  repeat' first
    | with_reducible assumption
    | exact sub_mono hp (by decide)
    | (extract_lets +onlyGivenNames x; clear_value x)
    | extract_lets +onlyGivenNames x
    | with_reducible apply keeps_updStrand
    | with_reducible apply keeps_rdmDone
    | with_reducible apply keeps_sqcPort
    | with_reducible refine keeps_of_fst (by with_reducible assumption) ?_
    | dsimp -zeta -zetaHave only
    | split


theorem keeps_rdmGo (a b s) (h2 : Keeps K s) (hp : Sub 0x200 K.may) : Keeps K (rdmGo a b s) := by
  unfold rdmGo
  repeat' first
    | with_reducible assumption
    | exact sub_mono hp (by decide)
    | intro _
    | (extract_lets +onlyGivenNames x; have hx : ∀ y0, Keeps K (x y0); (on_goal 2 => clear_value x); (on_goal 1 => unfold x; clear x))
    | (extract_lets +onlyGivenNames x; clear_value x)
    | extract_lets +onlyGivenNames x
    | with_reducible apply keeps_updStrand
    | with_reducible apply keeps_set
    | with_reducible apply keeps_fault
    | with_reducible apply_assumption -exfalso -symm
    | with_reducible refine keeps_of_fst (by with_reducible assumption) ?_
    | dsimp -zeta -zetaHave only
    | split


theorem keeps_rdmListen (a s) (h1 : Keeps K s) (hp : Sub 0x200 K.may) : Keeps K (rdmListen a s) := by
  unfold rdmListen
  repeat' first
    | with_reducible assumption
    | exact sub_mono hp (by decide)
    | with_reducible apply keeps_floatPin
    | with_reducible apply keeps_updStrand
    | with_reducible refine keeps_of_fst (by with_reducible assumption) ?_
    | dsimp -zeta -zetaHave only
    | split


theorem keeps_rdmMark (a s) (h1 : Keeps K s) (hp : Sub 0x260 K.may) : Keeps K (rdmMark a s) := by
  unfold rdmMark
  repeat' first
    | with_reducible assumption
    | exact sub_mono hp (by decide)
    | (extract_lets +onlyGivenNames x; have hx : Keeps K x; (on_goal 2 => clear_value x); (on_goal 1 => unfold x; clear x))
    | (extract_lets +onlyGivenNames x; have hx : Keeps K x; (on_goal 1 => unfold x; clear x))
    | (extract_lets +onlyGivenNames x; clear_value x)
    | extract_lets +onlyGivenNames x
    | with_reducible apply keeps_updStrand
    | with_reducible apply keeps_clearPin
    | with_reducible apply keeps_placeNow
    | with_reducible apply keeps_drivePin
    | with_reducible refine keeps_of_fst (by with_reducible assumption) ?_
    | dsimp -zeta -zetaHave only
    | split


theorem keeps_rdmCut (a s) (h1 : Keeps K s) (hp : Sub 0x260 K.may) : Keeps K (rdmCut a s) := by
  unfold rdmCut
  repeat' first
    | with_reducible assumption
    | exact sub_mono hp (by decide)
    | with_reducible apply keeps_updStrand
    | with_reducible apply keeps_rdmMark
    | with_reducible apply keeps_rdmDone
    | with_reducible refine keeps_of_fst (by with_reducible assumption) ?_
    | dsimp -zeta -zetaHave only
    | split


theorem keeps_rdmTimeout (a s) (h1 : Keeps K s) (hp : Sub 0x260 K.may) : Keeps K (rdmTimeout a s) := by
  unfold rdmTimeout
  repeat' first
    | with_reducible assumption
    | exact sub_mono hp (by decide)
    | with_reducible apply keeps_rdmMark
    | with_reducible apply keeps_rdmDone
    | with_reducible refine keeps_of_fst (by with_reducible assumption) ?_
    | dsimp -zeta -zetaHave only
    | split


theorem keeps_rdmEnd (a b c s) (h3 : Keeps K s) (hp : Sub 0x260 K.may) : Keeps K (rdmEnd a b c s) := by
  unfold rdmEnd
  repeat' first
    | with_reducible assumption
    | exact sub_mono hp (by decide)
    | (extract_lets +onlyGivenNames x; clear_value x)
    | extract_lets +onlyGivenNames x
    | with_reducible apply keeps_rdmMark
    | with_reducible apply keeps_rdmDone
    | with_reducible apply keeps_updStrand
    | with_reducible refine keeps_of_fst (by with_reducible assumption) ?_
    | dsimp -zeta -zetaHave only
    | split


theorem keeps_rdmMarkEnd (a s) (h1 : Keeps K s) (hp : Sub 0x260 K.may) : Keeps K (rdmMarkEnd a s) := by
  unfold rdmMarkEnd
  repeat' first
    | with_reducible assumption
    | exact sub_mono hp (by decide)
    | with_reducible apply keeps_updStrand
    | with_reducible apply keeps_rdmDone
    | with_reducible refine keeps_of_fst (by with_reducible assumption) ?_
    | dsimp -zeta -zetaHave only
    | split


theorem keeps_panelSlot (a s) (h1 : Keeps K s) (hp : Sub 0x260 K.may) : Keeps K (panelSlot a s) := by
  unfold panelSlot
  repeat' first
    | with_reducible assumption
    | exact sub_mono hp (by decide)
    | intro _
    | (extract_lets +onlyGivenNames x; have hx : Keeps K x; (on_goal 2 => clear_value x); (on_goal 1 => unfold x; clear x))
    | (extract_lets +onlyGivenNames x; have hx : Keeps K x; (on_goal 1 => unfold x; clear x))
    | (extract_lets +onlyGivenNames x; clear_value x)
    | extract_lets +onlyGivenNames x
    | with_reducible apply keeps_placeNow
    | with_reducible apply keeps_updStrand
    | with_reducible apply keeps_sequence
    | with_reducible apply keeps_foldl
    | with_reducible apply keeps_foldl_fst
    | with_reducible refine keeps_of_fst (by with_reducible assumption) ?_
    | dsimp -zeta -zetaHave only
    | split


theorem keeps_panelLatch (a b c d s) (h4 : Keeps K s) (hp : Sub 0x200 K.may) : Keeps K (panelLatch a b c d s) := by
  unfold panelLatch
  repeat' first
    | with_reducible assumption
    | exact sub_mono hp (by decide)
    | (extract_lets +onlyGivenNames x; have hx : Keeps K x; (on_goal 2 => clear_value x); (on_goal 1 => unfold x; clear x))
    | (extract_lets +onlyGivenNames x; have hx : Keeps K x; (on_goal 1 => unfold x; clear x))
    | (extract_lets +onlyGivenNames x; clear_value x)
    | extract_lets +onlyGivenNames x
    | with_reducible apply keeps_updStrand
    | with_reducible apply keeps_sequence
    | with_reducible refine keeps_of_fst (by with_reducible assumption) ?_
    | dsimp -zeta -zetaHave only
    | split


theorem keeps_endPulse (a b c s) (h3 : Keeps K s) (hp : Sub 0x200 K.may) : Keeps K (endPulse a b c s) := by
  unfold endPulse
  repeat' first
    | with_reducible assumption
    | exact sub_mono hp (by decide)
    | with_reducible apply keeps_updPin
    | with_reducible refine keeps_of_fst (by with_reducible assumption) ?_
    | dsimp -zeta -zetaHave only
    | split


theorem keeps_gpioPulse (a s) (h1 : Keeps K s) (hp : Sub 0x200 K.may) : Keeps K (gpioPulse a s) := by
  unfold gpioPulse
  repeat' first
    | with_reducible assumption
    | exact sub_mono hp (by decide)
    | (extract_lets +onlyGivenNames x; have hx : Keeps K x; (on_goal 2 => clear_value x); (on_goal 1 => unfold x; clear x))
    | (extract_lets +onlyGivenNames x; have hx : Keeps K x; (on_goal 1 => unfold x; clear x))
    | (extract_lets +onlyGivenNames x; clear_value x)
    | extract_lets +onlyGivenNames x
    | with_reducible apply keeps_updStrand
    | with_reducible apply keeps_sequence
    | with_reducible apply keeps_updPin
    | with_reducible refine keeps_of_fst (by with_reducible assumption) ?_
    | dsimp -zeta -zetaHave only
    | split


theorem keeps_gpioPush (a b c s) (h3 : Keeps K s) (hp : Sub 0x260 K.may) : Keeps K (gpioPush a b c s) := by
  unfold gpioPush
  repeat' first
    | with_reducible assumption
    | exact sub_mono hp (by decide)
    | (extract_lets +onlyGivenNames x; clear_value x)
    | extract_lets +onlyGivenNames x
    | with_reducible apply keeps_fault
    | with_reducible apply keeps_evt
    | with_reducible apply keeps_supply
    | with_reducible refine keeps_of_fst (by with_reducible assumption) ?_
    | dsimp -zeta -zetaHave only
    | split


theorem keeps_edgePlace (a b s) (h2 : Keeps K s) (hp : Sub 0x260 K.may) : Keeps K (edgePlace a b s) := by
  unfold edgePlace
  repeat' first
    | with_reducible assumption
    | exact sub_mono hp (by decide)
    | (extract_lets +onlyGivenNames x; have hx : Keeps K x; (on_goal 2 => clear_value x); (on_goal 1 => unfold x; clear x))
    | (extract_lets +onlyGivenNames x; have hx : Keeps K x; (on_goal 1 => unfold x; clear x))
    | (extract_lets +onlyGivenNames x; clear_value x)
    | extract_lets +onlyGivenNames x
    | with_reducible apply keeps_placeHead
    | with_reducible apply keeps_packetDone
    | with_reducible apply keeps_rdmListen
    | with_reducible apply keeps_takeUp
    | with_reducible refine keeps_of_fst (by with_reducible assumption) ?_
    | dsimp -zeta -zetaHave only
    | split


theorem keeps_placeDue (a s) (h1 : Keeps K s) (hp : Sub 0x260 K.may) : Keeps K (placeDue a s) := by
  unfold placeDue
  repeat' first
    | with_reducible assumption
    | exact sub_mono hp (by decide)
    | intro _
    | (extract_lets +onlyGivenNames x; clear_value x)
    | extract_lets +onlyGivenNames x
    | with_reducible apply keeps_edgePlace
    | with_reducible apply keeps_foldl
    | with_reducible apply keeps_foldl_fst
    | with_reducible refine keeps_of_fst (by with_reducible assumption) ?_
    | dsimp -zeta -zetaHave only
    | split


theorem keeps_windowShut (a s) (h1 : Keeps K s) (hp : Sub 0xA60 K.may) : Keeps K (windowShut a s) := by
  unfold windowShut
  repeat' first
    | with_reducible assumption
    | exact sub_mono hp (by decide)
    | intro _
    | (extract_lets +onlyGivenNames x; have hx : Keeps K x; (on_goal 2 => clear_value x); (on_goal 1 => unfold x; clear x))
    | (extract_lets +onlyGivenNames x; have hx : Keeps K x; (on_goal 1 => unfold x; clear x))
    | (extract_lets +onlyGivenNames x; clear_value x)
    | extract_lets +onlyGivenNames x
    | exact Or.inr rfl
    | exact Or.inl (may_of hp (by decide))
    | simp only [↓keeps_mk]
    | refine keepsOf_upd ?_ rfl rfl rfl rfl rfl rfl ?_ ?_ ?_ ?_ ?_ ?_ ?_ ?_ ?_ ?_ ?_ ?_ ?_ ?_ ?_ ?_ ?_ ?_ ?_ ?_ ?_ ?_
    | with_reducible apply keeps_updStrand
    | with_reducible apply keeps_updPin
    | with_reducible apply keeps_placeDue
    | with_reducible apply keeps_refreshStrands
    | with_reducible apply keeps_foldl
    | with_reducible apply keeps_foldl_fst
    | with_reducible refine keeps_of_fst (by with_reducible assumption) ?_
    | dsimp -zeta -zetaHave only
    | split


theorem keeps_calBreak (s) (h0 : Keeps K s) (hp : Sub 0xA60 K.may) : Keeps K (calBreak s) := by
  unfold calBreak
  repeat' first
    | with_reducible assumption
    | exact sub_mono hp (by decide)
    | (extract_lets +onlyGivenNames x; have hx : Keeps K x; (on_goal 2 => clear_value x); (on_goal 1 => unfold x; clear x))
    | (extract_lets +onlyGivenNames x; have hx : Keeps K x; (on_goal 1 => unfold x; clear x))
    | (extract_lets +onlyGivenNames x; clear_value x)
    | extract_lets +onlyGivenNames x
    | exact Or.inr rfl
    | exact Or.inl (may_of hp (by decide))
    | simp only [↓keeps_mk]
    | refine keepsOf_upd ?_ rfl rfl rfl rfl rfl rfl ?_ ?_ ?_ ?_ ?_ ?_ ?_ ?_ ?_ ?_ ?_ ?_ ?_ ?_ ?_ ?_ ?_ ?_ ?_ ?_ ?_ ?_
    | with_reducible apply keeps_bump
    | with_reducible apply keeps_windowShut
    | with_reducible refine keeps_of_fst (by with_reducible assumption) ?_
    | dsimp -zeta -zetaHave only
    | split


theorem keeps_gpioShow (a b c d s) (h4 : Keeps K s) (hp : Sub 0x260 K.may) : Keeps K (gpioShow a b c d s) := by
  unfold gpioShow
  repeat' first
    | with_reducible assumption
    | exact sub_mono hp (by decide)
    | intro _
    | (extract_lets +onlyGivenNames x; clear_value x)
    | extract_lets +onlyGivenNames x
    | with_reducible apply keeps_placeNow
    | with_reducible apply keeps_clearPin
    | with_reducible apply keeps_foldl
    | with_reducible apply keeps_foldl_fst
    | dsimp -zeta -zetaHave only


theorem keeps_ovrPulse (a b s) (h2 : Keeps K s) (hp : Sub 0x200 K.may) : Keeps K (ovrPulse a b s) := by
  unfold ovrPulse
  repeat' first
    | with_reducible assumption
    | exact sub_mono hp (by decide)
    | (extract_lets +onlyGivenNames x; clear_value x)
    | extract_lets +onlyGivenNames x
    | with_reducible apply keeps_sequence
    | with_reducible apply keeps_clearPin
    | dsimp -zeta -zetaHave only


theorem keeps_ovrApply (a b c s) (h3 : Keeps K s) (hp : Sub 0x265 K.may) : Keeps K (ovrApply a b c s) := by
  unfold ovrApply
  repeat' first
    | with_reducible assumption
    | exact sub_mono hp (by decide)
    | intro _
    | (extract_lets +onlyGivenNames x; have hx : Keeps K x; (on_goal 2 => clear_value x); (on_goal 1 => unfold x; clear x))
    | (extract_lets +onlyGivenNames x; have hx : Keeps K x; (on_goal 1 => unfold x; clear x))
    | (extract_lets +onlyGivenNames x; have hx : ∀ y0, Keeps K y0 → Keeps K (x y0); (on_goal 2 => clear_value x); (on_goal 1 => unfold x; clear x))
    | (extract_lets +onlyGivenNames x; have hx : ∀ y0 y1, Keeps K y1 → Keeps K (x y0 y1); (on_goal 2 => clear_value x); (on_goal 1 => unfold x; clear x))
    | (extract_lets +onlyGivenNames x; clear_value x)
    | extract_lets +onlyGivenNames x
    | with_reducible apply keeps_free
    | with_reducible apply keeps_clearPin
    | with_reducible apply keeps_updStrand
    | with_reducible apply keeps_sequence
    | with_reducible apply keeps_beginShift
    | with_reducible apply keeps_ovrPulse
    | with_reducible apply keeps_endPulse
    | with_reducible apply keeps_matrixTake
    | with_reducible apply keeps_pwmTake
    | with_reducible apply keeps_rdmCut
    | with_reducible apply keeps_dmxBreak
    | with_reducible apply keeps_gpioShow
    | with_reducible apply_assumption -exfalso -symm
    | with_reducible apply keeps_foldl
    | with_reducible apply keeps_foldl_fst
    | with_reducible refine keeps_of_fst (by with_reducible assumption) ?_
    | dsimp -zeta -zetaHave only
    | split


theorem keeps_ovrPort (a b s d) (h2 : Keeps K s) (hp : Sub 0xA65 K.may) : Keeps K (ovrPort a b s d) := by
  unfold ovrPort
  repeat' first
    | with_reducible assumption
    | exact sub_mono hp (by decide)
    | (extract_lets +onlyGivenNames x; have hx : Keeps K x; (on_goal 2 => clear_value x); (on_goal 1 => unfold x; clear x))
    | (extract_lets +onlyGivenNames x; have hx : Keeps K x; (on_goal 1 => unfold x; clear x))
    | (extract_lets +onlyGivenNames x; clear_value x)
    | extract_lets +onlyGivenNames x
    | with_reducible apply keeps_calBreak
    | with_reducible apply keeps_refresh
    | with_reducible apply keeps_updStrand
    | with_reducible apply keeps_ovrApply
    | with_reducible refine keeps_of_fst (by with_reducible assumption) ?_
    | dsimp -zeta -zetaHave only
    | split


theorem keeps_ovrUpdate (a s) (h1 : Keeps K s) (hp : Sub 0xA65 K.may) : Keeps K (ovrUpdate a s) := by
  unfold ovrUpdate
  repeat' first
    | with_reducible assumption
    | exact sub_mono hp (by decide)
    | intro _
    | with_reducible apply keeps_ovrPort
    | with_reducible apply keeps_foldl
    | with_reducible apply keeps_foldl_fst
    | dsimp -zeta -zetaHave only


theorem keeps_ovrFire1 (a b s) (h2 : Keeps K s) (hp : Sub 0x260 K.may) : Keeps K (ovrFire1 a b s) := by
  unfold ovrFire1
  repeat' first
    | with_reducible assumption
    | exact sub_mono hp (by decide)
    | (extract_lets +onlyGivenNames x; have hx : Keeps K x; (on_goal 2 => clear_value x); (on_goal 1 => unfold x; clear x))
    | (extract_lets +onlyGivenNames x; have hx : Keeps K x; (on_goal 1 => unfold x; clear x))
    | (extract_lets +onlyGivenNames x; clear_value x)
    | extract_lets +onlyGivenNames x
    | exact Or.inr rfl
    | exact Or.inl (may_of hp (by decide))
    | simp only [↓keeps_mk]
    | refine keepsOf_upd ?_ rfl rfl rfl rfl rfl rfl ?_ ?_ ?_ ?_ ?_ ?_ ?_ ?_ ?_ ?_ ?_ ?_ ?_ ?_ ?_ ?_ ?_ ?_ ?_ ?_ ?_ ?_
    | with_reducible apply keeps_bump
    | with_reducible apply keeps_evt
    | with_reducible refine keeps_of_fst (by with_reducible assumption) ?_
    | dsimp -zeta -zetaHave only
    | split


theorem keeps_ovrRelease1 (a b s) (h2 : Keeps K s) (hp : Sub 0x260 K.may) : Keeps K (ovrRelease1 a b s) := by
  unfold ovrRelease1
  repeat' first
    | with_reducible assumption
    | exact sub_mono hp (by decide)
    | (extract_lets +onlyGivenNames x; have hx : Keeps K x; (on_goal 2 => clear_value x); (on_goal 1 => unfold x; clear x))
    | (extract_lets +onlyGivenNames x; have hx : Keeps K x; (on_goal 1 => unfold x; clear x))
    | (extract_lets +onlyGivenNames x; clear_value x)
    | extract_lets +onlyGivenNames x
    | exact Or.inr rfl
    | exact Or.inl (may_of hp (by decide))
    | simp only [↓keeps_mk]
    | refine keepsOf_upd ?_ rfl rfl rfl rfl rfl rfl ?_ ?_ ?_ ?_ ?_ ?_ ?_ ?_ ?_ ?_ ?_ ?_ ?_ ?_ ?_ ?_ ?_ ?_ ?_ ?_ ?_ ?_
    | with_reducible apply keeps_evt
    | with_reducible apply keeps_bump
    | with_reducible refine keeps_of_fst (by with_reducible assumption) ?_
    | dsimp -zeta -zetaHave only
    | split


theorem keeps_ovrFire (a s) (h1 : Keeps K s) (hp : Sub 0xA65 K.may) : Keeps K (ovrFire a s) := by
  unfold ovrFire
  repeat' first
    | with_reducible assumption
    | exact sub_mono hp (by decide)
    | intro _
    | with_reducible apply keeps_ovrUpdate
    | with_reducible apply keeps_ovrFire1
    | with_reducible apply keeps_foldl
    | with_reducible apply keeps_foldl_fst
    | dsimp -zeta -zetaHave only


theorem keeps_ovrRelease (a s) (h1 : Keeps K s) (hp : Sub 0xA65 K.may) : Keeps K (ovrRelease a s) := by
  unfold ovrRelease
  repeat' first
    | with_reducible assumption
    | exact sub_mono hp (by decide)
    | intro _
    | with_reducible apply keeps_ovrUpdate
    | with_reducible apply keeps_ovrRelease1
    | with_reducible apply keeps_foldl
    | with_reducible apply keeps_foldl_fst
    | dsimp -zeta -zetaHave only


theorem keeps_trigAccept (a b s) (h2 : Keeps K s) (hp : Sub 0xA65 K.may) : Keeps K (trigAccept a b s) := by
  unfold trigAccept
  repeat' first
    | with_reducible assumption
    | exact sub_mono hp (by decide)
    | (extract_lets +onlyGivenNames x; have hx : Keeps K x; (on_goal 2 => clear_value x); (on_goal 1 => unfold x; clear x))
    | (extract_lets +onlyGivenNames x; have hx : Keeps K x; (on_goal 1 => unfold x; clear x))
    | (extract_lets +onlyGivenNames x; clear_value x)
    | extract_lets +onlyGivenNames x
    | exact Or.inr rfl
    | exact Or.inl (may_of hp (by decide))
    | simp only [↓keeps_mk]
    | refine keepsOf_upd ?_ rfl rfl rfl rfl rfl rfl ?_ ?_ ?_ ?_ ?_ ?_ ?_ ?_ ?_ ?_ ?_ ?_ ?_ ?_ ?_ ?_ ?_ ?_ ?_ ?_ ?_ ?_
    | with_reducible apply keeps_evt
    | with_reducible apply keeps_bump
    | with_reducible apply keeps_ovrUpdate
    | with_reducible apply keeps_ovrFire1
    | with_reducible apply keeps_ovrRelease1
    | with_reducible refine keeps_of_fst (by with_reducible assumption) ?_
    | dsimp -zeta -zetaHave only
    | split


theorem keeps_trigWritten (a s c) (h1 : Keeps K s) (h2 : Keeps K c) (hp : Sub 0xA65 K.may) : Keeps K (trigWritten a s c) := by
  unfold trigWritten
  repeat' first
    | with_reducible assumption
    | exact sub_mono hp (by decide)
    | (extract_lets +onlyGivenNames x; clear_value x)
    | extract_lets +onlyGivenNames x
    | with_reducible apply keeps_ovrFire
    | with_reducible refine keeps_of_fst (by with_reducible assumption) ?_
    | dsimp -zeta -zetaHave only
    | split


theorem keeps_trigCommitted (s b) (h0 : Keeps K s) (h1 : Keeps K b) (hp : Sub 0xA65 K.may) : Keeps K (trigCommitted s b) := by
  unfold trigCommitted
  repeat' first
    | with_reducible assumption
    | exact sub_mono hp (by decide)
    | intro _
    | (extract_lets +onlyGivenNames x; clear_value x)
    | extract_lets +onlyGivenNames x
    | with_reducible apply keeps_ovrFire
    | with_reducible apply keeps_foldl
    | with_reducible apply keeps_foldl_fst
    | with_reducible refine keeps_of_fst (by with_reducible assumption) ?_
    | dsimp -zeta -zetaHave only
    | split


theorem keeps_ovrCommitted (s b) (h0 : Keeps K s) (h1 : Keeps K b) (hp : Sub 0xA65 K.may) : Keeps K (ovrCommitted s b) := by
  unfold ovrCommitted
  repeat' first
    | with_reducible assumption
    | exact sub_mono hp (by decide)
    | intro _
    | (extract_lets +onlyGivenNames x; clear_value x)
    | extract_lets +onlyGivenNames x
    | with_reducible apply keeps_ovrPort
    | with_reducible apply keeps_foldl
    | with_reducible apply keeps_foldl_fst
    | with_reducible refine keeps_of_fst (by with_reducible assumption) ?_
    | dsimp -zeta -zetaHave only
    | split


theorem keeps_ovrLeft (s b) (h0 : Keeps K s) (h1 : Keeps K b) (hp : Sub 0xA65 K.may) : Keeps K (ovrLeft s b) := by
  unfold ovrLeft
  repeat' first
    | with_reducible assumption
    | exact sub_mono hp (by decide)
    | intro _
    | (extract_lets +onlyGivenNames x; clear_value x)
    | extract_lets +onlyGivenNames x
    | exact Or.inr rfl
    | exact Or.inl (may_of hp (by decide))
    | simp only [↓keeps_mk]
    | refine keepsOf_upd ?_ rfl rfl rfl rfl rfl rfl ?_ ?_ ?_ ?_ ?_ ?_ ?_ ?_ ?_ ?_ ?_ ?_ ?_ ?_ ?_ ?_ ?_ ?_ ?_ ?_ ?_ ?_
    | with_reducible apply keeps_ovrUpdate
    | with_reducible apply keeps_ovrRelease1
    | with_reducible apply keeps_foldl
    | with_reducible apply keeps_foldl_fst
    | with_reducible refine keeps_of_fst (by with_reducible assumption) ?_
    | dsimp -zeta -zetaHave only
    | split


theorem keeps_showFrame (a b c d s) (h4 : Keeps K s) (hp : Sub 0x265 K.may) : Keeps K (showFrame a b c d s) := by
  unfold showFrame
  repeat' first
    | with_reducible assumption
    | exact sub_mono hp (by decide)
    | intro _
    | (extract_lets +onlyGivenNames x; have hx : Keeps K x; (on_goal 2 => clear_value x); (on_goal 1 => unfold x; clear x))
    | (extract_lets +onlyGivenNames x; have hx : Keeps K x; (on_goal 1 => unfold x; clear x))
    | (extract_lets +onlyGivenNames x; have hx : ∀ y0 y1, Keeps K y1 → Keeps K (x y0 y1); (on_goal 2 => clear_value x); (on_goal 1 => unfold x; clear x))
    | (extract_lets +onlyGivenNames x; clear_value x)
    | extract_lets +onlyGivenNames x
    | with_reducible apply keeps_matrixTake
    | with_reducible apply keeps_pwmTake
    | with_reducible apply keeps_updStrand
    | with_reducible apply keeps_panelLatch
    | with_reducible apply keeps_gpioShow
    | with_reducible apply keeps_sqcPort
    | with_reducible apply keeps_skipFrame
    | with_reducible apply keeps_sent
    | with_reducible apply keeps_pipelineBack
    | with_reducible apply keeps_readWords
    | with_reducible apply_assumption -exfalso -symm
    | with_reducible refine keeps_of_fst (by with_reducible assumption) ?_
    | dsimp -zeta -zetaHave only
    | split


theorem keeps_darkStep (a s) (h1 : Keeps K s) (hp : Sub 0x260 K.may) : Keeps K (darkStep a s) := by
  unfold darkStep
  repeat' first
    | with_reducible assumption
    | exact sub_mono hp (by decide)
    | (extract_lets +onlyGivenNames x; clear_value x)
    | extract_lets +onlyGivenNames x
    | with_reducible apply keeps_updStrand
    | with_reducible apply keeps_endPulse
    | with_reducible apply keeps_takeUp
    | with_reducible refine keeps_of_fst (by with_reducible assumption) ?_
    | dsimp -zeta -zetaHave only
    | split


theorem keeps_latchPulse (a s) (h1 : Keeps K s) (hp : Sub 0xA65 K.may) : Keeps K (latchPulse a s) := by
  unfold latchPulse
  repeat' first
    | with_reducible assumption
    | exact sub_mono hp (by decide)
    | intro _
    | (extract_lets +onlyGivenNames x; have hx : Keeps K x; (on_goal 2 => clear_value x); (on_goal 1 => unfold x; clear x))
    | (extract_lets +onlyGivenNames x; have hx : Keeps K x; (on_goal 1 => unfold x; clear x))
    | (extract_lets +onlyGivenNames x; clear_value x)
    | extract_lets +onlyGivenNames x
    | exact Or.inr rfl
    | exact Or.inl (may_of hp (by decide))
    | simp only [↓keeps_mk]
    | refine keepsOf_upd ?_ rfl rfl rfl rfl rfl rfl ?_ ?_ ?_ ?_ ?_ ?_ ?_ ?_ ?_ ?_ ?_ ?_ ?_ ?_ ?_ ?_ ?_ ?_ ?_ ?_ ?_ ?_
    | with_reducible apply keeps_placeNow
    | with_reducible apply keeps_updStrand
    | with_reducible apply keeps_darkStep
    | with_reducible apply keeps_showFrame
    | with_reducible apply keeps_ovrUpdate
    | with_reducible apply keeps_settleLatch
    | with_reducible apply keeps_foldl
    | with_reducible apply keeps_foldl_fst
    | with_reducible refine keeps_of_fst (by with_reducible assumption) ?_
    | dsimp -zeta -zetaHave only
    | split


theorem keeps_latchPulseEnd (a s) (h1 : Keeps K s) (hp : Sub 0x260 K.may) : Keeps K (latchPulseEnd a s) := by
  unfold latchPulseEnd
  repeat' first
    | with_reducible assumption
    | exact sub_mono hp (by decide)
    | (extract_lets +onlyGivenNames x; have hx : Keeps K x; (on_goal 2 => clear_value x); (on_goal 1 => unfold x; clear x))
    | (extract_lets +onlyGivenNames x; have hx : Keeps K x; (on_goal 1 => unfold x; clear x))
    | (extract_lets +onlyGivenNames x; clear_value x)
    | extract_lets +onlyGivenNames x
    | exact Or.inr rfl
    | exact Or.inl (may_of hp (by decide))
    | simp only [↓keeps_mk]
    | refine keepsOf_upd ?_ rfl rfl rfl rfl rfl rfl ?_ ?_ ?_ ?_ ?_ ?_ ?_ ?_ ?_ ?_ ?_ ?_ ?_ ?_ ?_ ?_ ?_ ?_ ?_ ?_ ?_ ?_
    | with_reducible apply keeps_placeNow
    | with_reducible apply keeps_settleLatch
    | with_reducible refine keeps_of_fst (by with_reducible assumption) ?_
    | dsimp -zeta -zetaHave only
    | split


theorem keeps_strandPrepared (a s) (h1 : Keeps K s) (hp : Sub 0x200 K.may) : Keeps K (strandPrepared a s) := by
  unfold strandPrepared
  repeat' first
    | with_reducible assumption
    | exact sub_mono hp (by decide)
    | (extract_lets +onlyGivenNames x; have hx : Keeps K x; (on_goal 2 => clear_value x); (on_goal 1 => unfold x; clear x))
    | (extract_lets +onlyGivenNames x; have hx : Keeps K x; (on_goal 1 => unfold x; clear x))
    | (extract_lets +onlyGivenNames x; clear_value x)
    | extract_lets +onlyGivenNames x
    | exact Or.inr rfl
    | exact Or.inl (may_of hp (by decide))
    | simp only [↓keeps_mk]
    | refine keepsOf_upd ?_ rfl rfl rfl rfl rfl rfl ?_ ?_ ?_ ?_ ?_ ?_ ?_ ?_ ?_ ?_ ?_ ?_ ?_ ?_ ?_ ?_ ?_ ?_ ?_ ?_ ?_ ?_
    | with_reducible apply keeps_updStrand
    | with_reducible refine keeps_of_fst (by with_reducible assumption) ?_
    | dsimp -zeta -zetaHave only
    | split


theorem keeps_strandsAtFs (s) (h0 : Keeps K s) (hp : Sub 0x200 K.may) : Keeps K (strandsAtFs s) := by
  unfold strandsAtFs
  repeat' first
    | with_reducible assumption
    | exact sub_mono hp (by decide)
    | (extract_lets +onlyGivenNames x; clear_value x)
    | extract_lets +onlyGivenNames x
    | exact Or.inr rfl
    | exact Or.inl (may_of hp (by decide))
    | simp only [↓keeps_mk]
    | refine keepsOf_upd ?_ rfl rfl rfl rfl rfl rfl ?_ ?_ ?_ ?_ ?_ ?_ ?_ ?_ ?_ ?_ ?_ ?_ ?_ ?_ ?_ ?_ ?_ ?_ ?_ ?_ ?_ ?_
    | with_reducible refine keeps_of_fst (by with_reducible assumption) ?_
    | dsimp -zeta -zetaHave only
    | split


theorem keeps_ovrFrames (s) (h0 : Keeps K s) (hp : Sub 0x200 K.may) : Keeps K (ovrFrames s) := by
  unfold ovrFrames
  repeat' first
    | with_reducible assumption
    | exact sub_mono hp (by decide)
    | intro _
    | (extract_lets +onlyGivenNames x; have hx : Keeps K x; (on_goal 2 => clear_value x); (on_goal 1 => unfold x; clear x))
    | (extract_lets +onlyGivenNames x; have hx : Keeps K x; (on_goal 1 => unfold x; clear x))
    | (extract_lets +onlyGivenNames x; clear_value x)
    | extract_lets +onlyGivenNames x
    | with_reducible apply keeps_bump
    | with_reducible apply keeps_updStrand
    | with_reducible apply keeps_foldl
    | with_reducible apply keeps_foldl_fst
    | with_reducible refine keeps_of_fst (by with_reducible assumption) ?_
    | dsimp -zeta -zetaHave only
    | split


theorem keeps_thermalAtFs (s) (h0 : Keeps K s) (hp : Sub 0x260 K.may) : Keeps K (thermalAtFs s) := by
  unfold thermalAtFs
  repeat' first
    | with_reducible assumption
    | exact sub_mono hp (by decide)
    | intro _
    | (extract_lets +onlyGivenNames x; clear_value x)
    | extract_lets +onlyGivenNames x
    | with_reducible apply keeps_refresh
    | with_reducible apply keeps_updStrand
    | with_reducible apply keeps_foldl
    | with_reducible apply keeps_foldl_fst
    | with_reducible refine keeps_of_fst (by with_reducible assumption) ?_
    | dsimp -zeta -zetaHave only
    | split


theorem keeps_execStrandPrepared (a s) (h1 : Keeps K s) (hp : Sub 0x200 K.may) : ∃ t, execStrandPrepared a s = .next t ∧ Keeps K t := by
  refine ⟨_, rfl, ?_⟩
  repeat' first
    | with_reducible assumption
    | exact sub_mono hp (by decide)
    | exact Or.inr rfl
    | exact Or.inl (may_of hp (by decide))
    | simp only [↓keeps_mk]
    | refine keepsOf_upd ?_ rfl rfl rfl rfl rfl rfl ?_ ?_ ?_ ?_ ?_ ?_ ?_ ?_ ?_ ?_ ?_ ?_ ?_ ?_ ?_ ?_ ?_ ?_ ?_ ?_ ?_ ?_
    | with_reducible apply keeps_strandPrepared
    | dsimp -zeta -zetaHave only


theorem keeps_execShiftStart (a s) (h1 : Keeps K s) (hp : Sub 0x265 K.may) : ∃ t, execShiftStart a s = .next t ∧ Keeps K t := by
  refine ⟨_, rfl, ?_⟩
  repeat' first
    | with_reducible assumption
    | exact sub_mono hp (by decide)
    | exact Or.inr rfl
    | exact Or.inl (may_of hp (by decide))
    | simp only [↓keeps_mk]
    | refine keepsOf_upd ?_ rfl rfl rfl rfl rfl rfl ?_ ?_ ?_ ?_ ?_ ?_ ?_ ?_ ?_ ?_ ?_ ?_ ?_ ?_ ?_ ?_ ?_ ?_ ?_ ?_ ?_ ?_
    | with_reducible apply keeps_shiftBegin
    | dsimp -zeta -zetaHave only


theorem keeps_execShiftEnd (a b c s) (h3 : Keeps K s) (hp : Sub 0x265 K.may) : ∃ t, execShiftEnd a b c s = .next t ∧ Keeps K t := by
  refine ⟨_, rfl, ?_⟩
  repeat' first
    | with_reducible assumption
    | exact sub_mono hp (by decide)
    | exact Or.inr rfl
    | exact Or.inl (may_of hp (by decide))
    | simp only [↓keeps_mk]
    | refine keepsOf_upd ?_ rfl rfl rfl rfl rfl rfl ?_ ?_ ?_ ?_ ?_ ?_ ?_ ?_ ?_ ?_ ?_ ?_ ?_ ?_ ?_ ?_ ?_ ?_ ?_ ?_ ?_ ?_
    | with_reducible apply keeps_shiftEnd
    | dsimp -zeta -zetaHave only


theorem keeps_execLatchPulseEnd (a s) (h1 : Keeps K s) (hp : Sub 0x260 K.may) : ∃ t, execLatchPulseEnd a s = .next t ∧ Keeps K t := by
  refine ⟨_, rfl, ?_⟩
  repeat' first
    | with_reducible assumption
    | exact sub_mono hp (by decide)
    | exact Or.inr rfl
    | exact Or.inl (may_of hp (by decide))
    | simp only [↓keeps_mk]
    | refine keepsOf_upd ?_ rfl rfl rfl rfl rfl rfl ?_ ?_ ?_ ?_ ?_ ?_ ?_ ?_ ?_ ?_ ?_ ?_ ?_ ?_ ?_ ?_ ?_ ?_ ?_ ?_ ?_ ?_
    | with_reducible apply keeps_latchPulseEnd
    | dsimp -zeta -zetaHave only


theorem keeps_execEdgePlace (a s) (h1 : Keeps K s) (hp : Sub 0x260 K.may) : ∃ t, execEdgePlace a s = .next t ∧ Keeps K t := by
  refine ⟨_, rfl, ?_⟩
  repeat' first
    | with_reducible assumption
    | exact sub_mono hp (by decide)
    | exact Or.inr rfl
    | exact Or.inl (may_of hp (by decide))
    | simp only [↓keeps_mk]
    | refine keepsOf_upd ?_ rfl rfl rfl rfl rfl rfl ?_ ?_ ?_ ?_ ?_ ?_ ?_ ?_ ?_ ?_ ?_ ?_ ?_ ?_ ?_ ?_ ?_ ?_ ?_ ?_ ?_ ?_
    | with_reducible apply keeps_edgePlace
    | dsimp -zeta -zetaHave only


theorem keeps_execPinCheckSample (a b s) (h2 : Keeps K s) (hp : Sub 0x60 K.may) : ∃ t, execPinCheckSample a b s = .next t ∧ Keeps K t := by
  refine ⟨_, rfl, ?_⟩
  repeat' first
    | with_reducible assumption
    | exact sub_mono hp (by decide)
    | exact Or.inr rfl
    | exact Or.inl (may_of hp (by decide))
    | simp only [↓keeps_mk]
    | refine keepsOf_upd ?_ rfl rfl rfl rfl rfl rfl ?_ ?_ ?_ ?_ ?_ ?_ ?_ ?_ ?_ ?_ ?_ ?_ ?_ ?_ ?_ ?_ ?_ ?_ ?_ ?_ ?_ ?_
    | with_reducible apply keeps_pinCheck
    | dsimp -zeta -zetaHave only


theorem keeps_execWordReadMiss (a b s) (h2 : Keeps K s) (hp : Sub 0x260 K.may) : ∃ t, execWordReadMiss a b s = .next t ∧ Keeps K t := by
  refine ⟨_, rfl, ?_⟩
  repeat' first
    | with_reducible assumption
    | exact sub_mono hp (by decide)
    | exact Or.inr rfl
    | exact Or.inl (may_of hp (by decide))
    | simp only [↓keeps_mk]
    | refine keepsOf_upd ?_ rfl rfl rfl rfl rfl rfl ?_ ?_ ?_ ?_ ?_ ?_ ?_ ?_ ?_ ?_ ?_ ?_ ?_ ?_ ?_ ?_ ?_ ?_ ?_ ?_ ?_ ?_
    | with_reducible apply keeps_wordMiss
    | dsimp -zeta -zetaHave only


theorem keeps_execMatrixSwitch (a s) (h1 : Keeps K s) (hp : Sub 0x260 K.may) : ∃ t, execMatrixSwitch a s = .next t ∧ Keeps K t := by
  refine ⟨_, rfl, ?_⟩
  repeat' first
    | with_reducible assumption
    | exact sub_mono hp (by decide)
    | exact Or.inr rfl
    | exact Or.inl (may_of hp (by decide))
    | simp only [↓keeps_mk]
    | refine keepsOf_upd ?_ rfl rfl rfl rfl rfl rfl ?_ ?_ ?_ ?_ ?_ ?_ ?_ ?_ ?_ ?_ ?_ ?_ ?_ ?_ ?_ ?_ ?_ ?_ ?_ ?_ ?_ ?_
    | with_reducible apply keeps_matrixSwitch
    | dsimp -zeta -zetaHave only


theorem keeps_execPwmPeriodStart (a s) (h1 : Keeps K s) (hp : Sub 0x200 K.may) : ∃ t, execPwmPeriodStart a s = .next t ∧ Keeps K t := by
  refine ⟨_, rfl, ?_⟩
  repeat' first
    | with_reducible assumption
    | exact sub_mono hp (by decide)
    | exact Or.inr rfl
    | exact Or.inl (may_of hp (by decide))
    | simp only [↓keeps_mk]
    | refine keepsOf_upd ?_ rfl rfl rfl rfl rfl rfl ?_ ?_ ?_ ?_ ?_ ?_ ?_ ?_ ?_ ?_ ?_ ?_ ?_ ?_ ?_ ?_ ?_ ?_ ?_ ?_ ?_ ?_
    | with_reducible apply keeps_pwmPeriodStart
    | dsimp -zeta -zetaHave only


theorem keeps_execDmxBreak (a s) (h1 : Keeps K s) (hp : Sub 0x265 K.may) : ∃ t, execDmxBreak a s = .next t ∧ Keeps K t := by
  refine ⟨_, rfl, ?_⟩
  repeat' first
    | with_reducible assumption
    | exact sub_mono hp (by decide)
    | exact Or.inr rfl
    | exact Or.inl (may_of hp (by decide))
    | simp only [↓keeps_mk]
    | refine keepsOf_upd ?_ rfl rfl rfl rfl rfl rfl ?_ ?_ ?_ ?_ ?_ ?_ ?_ ?_ ?_ ?_ ?_ ?_ ?_ ?_ ?_ ?_ ?_ ?_ ?_ ?_ ?_ ?_
    | with_reducible apply keeps_dmxBreak
    | dsimp -zeta -zetaHave only


theorem keeps_execRdmResponseTimeout (a s) (h1 : Keeps K s) (hp : Sub 0x260 K.may) : ∃ t, execRdmResponseTimeout a s = .next t ∧ Keeps K t := by
  refine ⟨_, rfl, ?_⟩
  repeat' first
    | with_reducible assumption
    | exact sub_mono hp (by decide)
    | exact Or.inr rfl
    | exact Or.inl (may_of hp (by decide))
    | simp only [↓keeps_mk]
    | refine keepsOf_upd ?_ rfl rfl rfl rfl rfl rfl ?_ ?_ ?_ ?_ ?_ ?_ ?_ ?_ ?_ ?_ ?_ ?_ ?_ ?_ ?_ ?_ ?_ ?_ ?_ ?_ ?_ ?_
    | with_reducible apply keeps_rdmTimeout
    | dsimp -zeta -zetaHave only


theorem keeps_execRdmReceptionEnd (a b c s) (h3 : Keeps K s) (hp : Sub 0x260 K.may) : ∃ t, execRdmReceptionEnd a b c s = .next t ∧ Keeps K t := by
  refine ⟨_, rfl, ?_⟩
  repeat' first
    | with_reducible assumption
    | exact sub_mono hp (by decide)
    | exact Or.inr rfl
    | exact Or.inl (may_of hp (by decide))
    | simp only [↓keeps_mk]
    | refine keepsOf_upd ?_ rfl rfl rfl rfl rfl rfl ?_ ?_ ?_ ?_ ?_ ?_ ?_ ?_ ?_ ?_ ?_ ?_ ?_ ?_ ?_ ?_ ?_ ?_ ?_ ?_ ?_ ?_
    | with_reducible apply keeps_rdmEnd
    | dsimp -zeta -zetaHave only


theorem keeps_execRdmMarkEnd (a s) (h1 : Keeps K s) (hp : Sub 0x260 K.may) : ∃ t, execRdmMarkEnd a s = .next t ∧ Keeps K t := by
  refine ⟨_, rfl, ?_⟩
  repeat' first
    | with_reducible assumption
    | exact sub_mono hp (by decide)
    | exact Or.inr rfl
    | exact Or.inl (may_of hp (by decide))
    | simp only [↓keeps_mk]
    | refine keepsOf_upd ?_ rfl rfl rfl rfl rfl rfl ?_ ?_ ?_ ?_ ?_ ?_ ?_ ?_ ?_ ?_ ?_ ?_ ?_ ?_ ?_ ?_ ?_ ?_ ?_ ?_ ?_ ?_
    | with_reducible apply keeps_rdmMarkEnd
    | dsimp -zeta -zetaHave only


theorem keeps_execPanelRowSlot (a s) (h1 : Keeps K s) (hp : Sub 0x260 K.may) : ∃ t, execPanelRowSlot a s = .next t ∧ Keeps K t := by
  refine ⟨_, rfl, ?_⟩
  repeat' first
    | with_reducible assumption
    | exact sub_mono hp (by decide)
    | exact Or.inr rfl
    | exact Or.inl (may_of hp (by decide))
    | simp only [↓keeps_mk]
    | refine keepsOf_upd ?_ rfl rfl rfl rfl rfl rfl ?_ ?_ ?_ ?_ ?_ ?_ ?_ ?_ ?_ ?_ ?_ ?_ ?_ ?_ ?_ ?_ ?_ ?_ ?_ ?_ ?_ ?_
    | with_reducible apply keeps_panelSlot
    | dsimp -zeta -zetaHave only


theorem keeps_execGpioPulse (a s) (h1 : Keeps K s) (hp : Sub 0x200 K.may) : ∃ t, execGpioPulse a s = .next t ∧ Keeps K t := by
  refine ⟨_, rfl, ?_⟩
  repeat' first
    | with_reducible assumption
    | exact sub_mono hp (by decide)
    | exact Or.inr rfl
    | exact Or.inl (may_of hp (by decide))
    | simp only [↓keeps_mk]
    | refine keepsOf_upd ?_ rfl rfl rfl rfl rfl rfl ?_ ?_ ?_ ?_ ?_ ?_ ?_ ?_ ?_ ?_ ?_ ?_ ?_ ?_ ?_ ?_ ?_ ?_ ?_ ?_ ?_ ?_
    | with_reducible apply keeps_gpioPulse
    | dsimp -zeta -zetaHave only


theorem keeps_execTrigFilterAccept (a b s) (h2 : Keeps K s) (hp : Sub 0xA65 K.may) : ∃ t, execTrigFilterAccept a b s = .next t ∧ Keeps K t := by
  refine ⟨_, rfl, ?_⟩
  repeat' first
    | with_reducible assumption
    | exact sub_mono hp (by decide)
    | exact Or.inr rfl
    | exact Or.inl (may_of hp (by decide))
    | simp only [↓keeps_mk]
    | refine keepsOf_upd ?_ rfl rfl rfl rfl rfl rfl ?_ ?_ ?_ ?_ ?_ ?_ ?_ ?_ ?_ ?_ ?_ ?_ ?_ ?_ ?_ ?_ ?_ ?_ ?_ ?_ ?_ ?_
    | with_reducible apply keeps_trigAccept
    | dsimp -zeta -zetaHave only


end Sys2Proof.Machine
end

