-- ==== Sys2Proof/Laws/KeepsCalib.lean ====
section
/-!
SUPPORT. What the operations of Machine/Calib.lean keep.
-/
namespace Sys2Proof.Machine
open Sys2Proof

variable {K : Keeping}

theorem keeps_readCopies (a b s) (h2 : Keeps K s) (hp : Sub 0x65 K.may) : Keeps K (readCopies a b s).1 := by
  unfold readCopies
  repeat' first
    | with_reducible assumption
    | exact sub_mono hp (by decide)
    | with_reducible apply keeps_mramRead
    | with_reducible refine keeps_of_fst (by with_reducible assumption) ?_
    | dsimp -zeta -zetaHave only
    | split


theorem keeps_updCal (s b) (h0 : Keeps K s) (hp : Sub 0x800 K.may) : Keeps K (updCal s b) := by
  unfold updCal
  repeat' first
    | with_reducible assumption
    | exact sub_mono hp (by decide)
    | exact Or.inr rfl
    | exact Or.inl (may_of hp (by decide))
    | simp only [↓keeps_mk]
    | refine keepsOf_upd ?_ rfl rfl rfl rfl rfl rfl ?_ ?_ ?_ ?_ ?_ ?_ ?_ ?_ ?_ ?_ ?_ ?_ ?_ ?_ ?_ ?_ ?_ ?_ ?_ ?_ ?_ ?_
    | dsimp -zeta -zetaHave only


theorem keeps_calRefresh (s b) (h0 : Keeps K s) (hp : Sub 0x60 K.may) : Keeps K (calRefresh s b) := by
  unfold calRefresh
  repeat' first
    | with_reducible assumption
    | exact sub_mono hp (by decide)
    | (extract_lets +onlyGivenNames x; have hx : Keeps K x; (on_goal 2 => clear_value x); (on_goal 1 => unfold x; clear x))
    | (extract_lets +onlyGivenNames x; have hx : Keeps K x; (on_goal 1 => unfold x; clear x))
    | (extract_lets +onlyGivenNames x; clear_value x)
    | extract_lets +onlyGivenNames x
    | with_reducible apply keeps_set
    | with_reducible apply keeps_evtIf
    | dsimp -zeta -zetaHave only


theorem keeps_tablesMade (a b c s) (h3 : Keeps K s) (hp : Sub 0x860 K.may) : Keeps K (tablesMade a b c s) := by
  unfold tablesMade
  repeat' first
    | with_reducible assumption
    | exact sub_mono hp (by decide)
    | (extract_lets +onlyGivenNames x; have hx : Keeps K x; (on_goal 2 => clear_value x); (on_goal 1 => unfold x; clear x))
    | (extract_lets +onlyGivenNames x; have hx : Keeps K x; (on_goal 1 => unfold x; clear x))
    | with_reducible apply keeps_set
    | with_reducible apply keeps_calRefresh
    | with_reducible apply keeps_updCal
    | dsimp -zeta -zetaHave only


theorem keeps_tablesLoad (a b c s) (h3 : Keeps K s) (hp : Sub 0x800 K.may) : Keeps K (tablesLoad a b c s) := by
  unfold tablesLoad
  repeat' first
    | with_reducible assumption
    | exact sub_mono hp (by decide)
    | intro _
    | with_reducible apply keeps_updCal
    | with_reducible apply keeps_foldl
    | with_reducible apply keeps_foldl_fst
    | with_reducible refine keeps_of_fst (by with_reducible assumption) ?_
    | dsimp -zeta -zetaHave only
    | split


theorem keeps_calStore (a b c s) (h3 : Keeps K s) (hp : Sub 0x4 K.may) : Keeps K (calStore a b c s) := by
  unfold calStore
  repeat' first
    | with_reducible assumption
    | exact sub_mono hp (by decide)
    | with_reducible apply keeps_internalProg
    | dsimp -zeta -zetaHave only


theorem keeps_storedBank (a s) (h1 : Keeps K s) (hp : Sub 0x865 K.may) : Keeps K (storedBank a s) := by
  unfold storedBank
  repeat' first
    | with_reducible assumption
    | exact sub_mono hp (by decide)
    | with_reducible apply keeps_mramRead
    | with_reducible apply keeps_calRefresh
    | with_reducible apply keeps_tablesLoad
    | with_reducible apply keeps_set
    | with_reducible refine keeps_of_fst (by with_reducible assumption) ?_
    | dsimp -zeta -zetaHave only
    | split


theorem keeps_calStat (s) (h0 : Keeps K s) : Keeps K (calStat s) := by
  unfold calStat
  repeat' first
    | with_reducible assumption
    | with_reducible apply keeps_setReg
    | with_reducible refine keeps_of_fst (by with_reducible assumption) ?_
    | dsimp -zeta -zetaHave only
    | split


theorem keeps_calBegin (a s) (h1 : Keeps K s) (hp : Sub 0x800 K.may) : Keeps K (calBegin a s) := by
  unfold calBegin
  repeat' first
    | with_reducible assumption
    | exact sub_mono hp (by decide)
    | with_reducible apply keeps_calStat
    | with_reducible apply keeps_updCal
    | dsimp -zeta -zetaHave only


theorem keeps_calOver (s) (h0 : Keeps K s) (hp : Sub 0x800 K.may) : Keeps K (calOver s) := by
  unfold calOver
  repeat' first
    | with_reducible assumption
    | exact sub_mono hp (by decide)
    | (extract_lets +onlyGivenNames x; have hx : Keeps K x; (on_goal 2 => clear_value x); (on_goal 1 => unfold x; clear x))
    | (extract_lets +onlyGivenNames x; have hx : Keeps K x; (on_goal 1 => unfold x; clear x))
    | with_reducible apply keeps_updCal
    | with_reducible apply keeps_calBegin
    | with_reducible apply keeps_calStat
    | with_reducible refine keeps_of_fst (by with_reducible assumption) ?_
    | dsimp -zeta -zetaHave only
    | split


theorem keeps_calRequest (a s) (h1 : Keeps K s) (hp : Sub 0x800 K.may) : Keeps K (calRequest a s) := by
  unfold calRequest
  repeat' first
    | with_reducible assumption
    | exact sub_mono hp (by decide)
    | with_reducible apply keeps_updCal
    | with_reducible apply keeps_calBegin
    | with_reducible refine keeps_of_fst (by with_reducible assumption) ?_
    | dsimp -zeta -zetaHave only
    | split


theorem keeps_calRunStart (a s) (h1 : Keeps K s) (hp : Sub 0x800 K.may) : Keeps K (calRunStart a s) := by
  unfold calRunStart
  repeat' first
    | with_reducible assumption
    | exact sub_mono hp (by decide)
    | (extract_lets +onlyGivenNames x; clear_value x)
    | extract_lets +onlyGivenNames x
    | with_reducible apply keeps_calRequest
    | with_reducible apply keeps_updCal
    | with_reducible refine keeps_of_fst (by with_reducible assumption) ?_
    | dsimp -zeta -zetaHave only
    | split


theorem keeps_calAbandon (s) (h0 : Keeps K s) (hp : Sub 0xA60 K.may) : Keeps K (calAbandon s) := by
  unfold calAbandon
  repeat' first
    | with_reducible assumption
    | exact sub_mono hp (by decide)
    | (extract_lets +onlyGivenNames x; have hx : Keeps K x; (on_goal 2 => clear_value x); (on_goal 1 => unfold x; clear x))
    | (extract_lets +onlyGivenNames x; have hx : Keeps K x; (on_goal 1 => unfold x; clear x))
    | with_reducible apply keeps_calBreak
    | with_reducible apply keeps_calOver
    | with_reducible apply keeps_evt
    | with_reducible refine keeps_of_fst (by with_reducible assumption) ?_
    | dsimp -zeta -zetaHave only
    | split


theorem keeps_calLeft (s) (h0 : Keeps K s) (hp : Sub 0xA60 K.may) : Keeps K (calLeft s) := by
  unfold calLeft
  repeat' first
    | with_reducible assumption
    | exact sub_mono hp (by decide)
    | with_reducible apply keeps_calAbandon
    | with_reducible apply keeps_updCal
    | with_reducible refine keeps_of_fst (by with_reducible assumption) ?_
    | dsimp -zeta -zetaHave only
    | split


theorem keeps_calReject (a s) (h1 : Keeps K s) (hp : Sub 0x860 K.may) : Keeps K (calReject a s) := by
  unfold calReject
  repeat' first
    | with_reducible assumption
    | exact sub_mono hp (by decide)
    | with_reducible apply keeps_calOver
    | with_reducible apply keeps_fault
    | with_reducible apply keeps_evt
    | with_reducible apply keeps_bump
    | dsimp -zeta -zetaHave only


theorem keeps_windowOpen (s) (h0 : Keeps K s) (hp : Sub 0xA60 K.may) : Keeps K (windowOpen s) := by
  unfold windowOpen
  repeat' first
    | with_reducible assumption
    | exact sub_mono hp (by decide)
    | intro _
    | (extract_lets +onlyGivenNames x; have hx : Keeps K x; (on_goal 2 => clear_value x); (on_goal 1 => unfold x; clear x))
    | (extract_lets +onlyGivenNames x; have hx : Keeps K x; (on_goal 1 => unfold x; clear x))
    | (extract_lets +onlyGivenNames x; clear_value x)
    | extract_lets +onlyGivenNames x
    | with_reducible apply keeps_bump
    | with_reducible apply keeps_calAbandon
    | with_reducible apply keeps_updCal
    | with_reducible apply keeps_updStrand
    | with_reducible apply keeps_refreshStrands
    | with_reducible apply keeps_updPin
    | with_reducible apply keeps_foldl
    | with_reducible apply keeps_foldl_fst
    | with_reducible refine keeps_of_fst (by with_reducible assumption) ?_
    | dsimp -zeta -zetaHave only
    | split


theorem keeps_windowClose (a s) (h1 : Keeps K s) (hp : Sub 0xA64 K.may) : Keeps K (windowClose a s) := by
  unfold windowClose
  repeat' first
    | with_reducible assumption
    | exact sub_mono hp (by decide)
    | (extract_lets +onlyGivenNames x; have hx : Keeps K x; (on_goal 2 => clear_value x); (on_goal 1 => unfold x; clear x))
    | (extract_lets +onlyGivenNames x; have hx : Keeps K x; (on_goal 1 => unfold x; clear x))
    | (extract_lets +onlyGivenNames x; clear_value x)
    | extract_lets +onlyGivenNames x
    | with_reducible apply keeps_updCal
    | with_reducible apply keeps_bump
    | with_reducible apply keeps_windowShut
    | with_reducible apply keeps_calStat
    | with_reducible apply keeps_calReject
    | with_reducible apply keeps_tablesMade
    | with_reducible apply keeps_evt
    | with_reducible apply keeps_calStore
    | with_reducible apply keeps_calOver
    | with_reducible refine keeps_of_fst (by with_reducible assumption) ?_
    | dsimp -zeta -zetaHave only
    | split


theorem keeps_calCompute (s) (h0 : Keeps K s) (hp : Sub 0x860 K.may) : Keeps K (calCompute s) := by
  unfold calCompute
  repeat' first
    | with_reducible assumption
    | exact sub_mono hp (by decide)
    | (extract_lets +onlyGivenNames x; clear_value x)
    | extract_lets +onlyGivenNames x
    | with_reducible apply keeps_calReject
    | with_reducible apply keeps_updCal
    | with_reducible refine keeps_of_fst (by with_reducible assumption) ?_
    | dsimp -zeta -zetaHave only
    | split


theorem keeps_adcRefuse (s) (h0 : Keeps K s) (hp : Sub 0x60 K.may) : Keeps K (adcRefuse s) := by
  unfold adcRefuse
  repeat' first
    | with_reducible assumption
    | exact sub_mono hp (by decide)
    | with_reducible apply keeps_evt
    | with_reducible apply keeps_bump
    | dsimp -zeta -zetaHave only


theorem keeps_adcCalBegin (s) (h0 : Keeps K s) (hp : Sub 0x800 K.may) : Keeps K (adcCalBegin s) := by
  unfold adcCalBegin
  repeat' first
    | with_reducible assumption
    | exact sub_mono hp (by decide)
    | with_reducible apply keeps_updCal
    | with_reducible refine keeps_of_fst (by with_reducible assumption) ?_
    | dsimp -zeta -zetaHave only
    | split


theorem keeps_adcIdle (s) (h0 : Keeps K s) (hp : Sub 0x800 K.may) : Keeps K (adcIdle s) := by
  unfold adcIdle
  repeat' first
    | with_reducible assumption
    | exact sub_mono hp (by decide)
    | with_reducible apply keeps_adcCalBegin
    | with_reducible refine keeps_of_fst (by with_reducible assumption) ?_
    | dsimp -zeta -zetaHave only
    | split


theorem keeps_groupBegin (a s) (h1 : Keeps K s) (hp : Sub 0x800 K.may) : Keeps K (groupBegin a s) := by
  unfold groupBegin
  repeat' first
    | with_reducible assumption
    | exact sub_mono hp (by decide)
    | (extract_lets +onlyGivenNames x; clear_value x)
    | extract_lets +onlyGivenNames x
    | with_reducible apply keeps_updCal
    | dsimp -zeta -zetaHave only


theorem keeps_groupStart (a s) (h1 : Keeps K s) (hp : Sub 0x860 K.may) : Keeps K (groupStart a s).1 := by
  unfold groupStart
  repeat' first
    | with_reducible assumption
    | exact sub_mono hp (by decide)
    | with_reducible apply keeps_adcRefuse
    | with_reducible apply keeps_groupBegin
    | with_reducible apply keeps_updCal
    | with_reducible refine keeps_of_fst (by with_reducible assumption) ?_
    | dsimp -zeta -zetaHave only
    | split


theorem keeps_grpStart (a s) (h1 : Keeps K s) (hp : Sub 0x860 K.may) : Keeps K (grpStart a s) := by
  unfold grpStart
  repeat' first
    | with_reducible assumption
    | exact sub_mono hp (by decide)
    | intro _
    | with_reducible apply keeps_groupStart
    | with_reducible apply keeps_foldl
    | with_reducible apply keeps_foldl_fst
    | dsimp -zeta -zetaHave only


theorem keeps_adcSample (a s) (h1 : Keeps K s) (hp : Sub 0x800 K.may) : Keeps K (adcSample a s) := by
  unfold adcSample
  repeat' first
    | with_reducible assumption
    | exact sub_mono hp (by decide)
    | (extract_lets +onlyGivenNames x; have hx : Keeps K x; (on_goal 2 => clear_value x); (on_goal 1 => unfold x; clear x))
    | (extract_lets +onlyGivenNames x; have hx : Keeps K x; (on_goal 1 => unfold x; clear x))
    | (extract_lets +onlyGivenNames x; clear_value x)
    | extract_lets +onlyGivenNames x
    | with_reducible apply keeps_free
    | with_reducible apply keeps_setReg
    | with_reducible apply keeps_bump
    | with_reducible apply keeps_updCal
    | with_reducible refine keeps_of_fst (by with_reducible assumption) ?_
    | dsimp -zeta -zetaHave only
    | split


theorem keeps_groupEnd (s) (h0 : Keeps K s) (hp : Sub 0x860 K.may) : Keeps K (groupEnd s) := by
  unfold groupEnd
  repeat' first
    | with_reducible assumption
    | exact sub_mono hp (by decide)
    | (extract_lets +onlyGivenNames x; have hx : Keeps K x; (on_goal 2 => clear_value x); (on_goal 1 => unfold x; clear x))
    | (extract_lets +onlyGivenNames x; have hx : Keeps K x; (on_goal 1 => unfold x; clear x))
    | with_reducible apply keeps_evt
    | with_reducible apply keeps_updCal
    | with_reducible apply keeps_groupBegin
    | with_reducible apply keeps_adcIdle
    | with_reducible refine keeps_of_fst (by with_reducible assumption) ?_
    | dsimp -zeta -zetaHave only
    | split


theorem keeps_adcCalEnd (a b s) (h2 : Keeps K s) (hp : Sub 0x860 K.may) : Keeps K (adcCalEnd a b s) := by
  unfold adcCalEnd
  repeat' first
    | with_reducible assumption
    | exact sub_mono hp (by decide)
    | (extract_lets +onlyGivenNames x; have hx : Keeps K x; (on_goal 2 => clear_value x); (on_goal 1 => unfold x; clear x))
    | (extract_lets +onlyGivenNames x; have hx : Keeps K x; (on_goal 1 => unfold x; clear x))
    | (extract_lets +onlyGivenNames x; clear_value x)
    | extract_lets +onlyGivenNames x
    | with_reducible apply keeps_updCal
    | with_reducible apply keeps_evt
    | with_reducible apply keeps_bump
    | with_reducible refine keeps_of_fst (by with_reducible assumption) ?_
    | dsimp -zeta -zetaHave only
    | split


theorem keeps_adcCalStarve (s) (h0 : Keeps K s) (hp : Sub 0x860 K.may) : Keeps K (adcCalStarve s) := by
  unfold adcCalStarve
  repeat' first
    | with_reducible assumption
    | exact sub_mono hp (by decide)
    | with_reducible apply keeps_evt
    | with_reducible apply keeps_updCal
    | with_reducible refine keeps_of_fst (by with_reducible assumption) ?_
    | dsimp -zeta -zetaHave only
    | split


theorem keeps_adcLeft (s) (h0 : Keeps K s) (hp : Sub 0x800 K.may) : Keeps K (adcLeft s) := by
  unfold adcLeft
  repeat' first
    | with_reducible assumption
    | exact sub_mono hp (by decide)
    | with_reducible apply keeps_adcIdle
    | with_reducible apply keeps_updCal
    | with_reducible refine keeps_of_fst (by with_reducible assumption) ?_
    | dsimp -zeta -zetaHave only
    | split


theorem keeps_calNow (s) (h0 : Keeps K s) (hp : Sub 0x800 K.may) : Keeps K (calNow s) := by
  unfold calNow
  repeat' first
    | with_reducible assumption
    | exact sub_mono hp (by decide)
    | with_reducible apply keeps_adcCalBegin
    | dsimp -zeta -zetaHave only


theorem keeps_dieConversion (a s) (h1 : Keeps K s) (hp : Sub 0x860 K.may) : Keeps K (dieConversion a s) := by
  unfold dieConversion
  repeat' first
    | with_reducible assumption
    | exact sub_mono hp (by decide)
    | intro _
    | (extract_lets +onlyGivenNames x; have hx : Keeps K x; (on_goal 2 => clear_value x); (on_goal 1 => unfold x; clear x))
    | (extract_lets +onlyGivenNames x; have hx : Keeps K x; (on_goal 1 => unfold x; clear x))
    | with_reducible apply keeps_set
    | with_reducible apply keeps_calRefresh
    | with_reducible apply keeps_updCal
    | with_reducible apply keeps_foldl
    | with_reducible apply keeps_foldl_fst
    | dsimp -zeta -zetaHave only


theorem keeps_execCalRunStart (a s) (h1 : Keeps K s) (hp : Sub 0x800 K.may) : ∃ t, execCalRunStart a s = .next t ∧ Keeps K t := by
  refine ⟨_, rfl, ?_⟩
  repeat' first
    | with_reducible assumption
    | exact sub_mono hp (by decide)
    | exact Or.inr rfl
    | exact Or.inl (may_of hp (by decide))
    | simp only [↓keeps_mk]
    | refine keepsOf_upd ?_ rfl rfl rfl rfl rfl rfl ?_ ?_ ?_ ?_ ?_ ?_ ?_ ?_ ?_ ?_ ?_ ?_ ?_ ?_ ?_ ?_ ?_ ?_ ?_ ?_ ?_ ?_
    | with_reducible apply keeps_calRunStart
    | dsimp -zeta -zetaHave only


theorem keeps_execCalRunnow (a s) (h1 : Keeps K s) (hp : Sub 0x800 K.may) : ∃ t, execCalRunnow a s = .next t ∧ Keeps K t := by
  refine ⟨_, rfl, ?_⟩
  repeat' first
    | with_reducible assumption
    | exact sub_mono hp (by decide)
    | exact Or.inr rfl
    | exact Or.inl (may_of hp (by decide))
    | simp only [↓keeps_mk]
    | refine keepsOf_upd ?_ rfl rfl rfl rfl rfl rfl ?_ ?_ ?_ ?_ ?_ ?_ ?_ ?_ ?_ ?_ ?_ ?_ ?_ ?_ ?_ ?_ ?_ ?_ ?_ ?_ ?_ ?_
    | with_reducible apply keeps_calRequest
    | with_reducible apply keeps_set
    | dsimp -zeta -zetaHave only


theorem keeps_execCalWindowOpen (s) (h0 : Keeps K s) (hp : Sub 0xA60 K.may) : ∃ t, execCalWindowOpen s = .next t ∧ Keeps K t := by
  refine ⟨_, rfl, ?_⟩
  repeat' first
    | with_reducible assumption
    | exact sub_mono hp (by decide)
    | exact Or.inr rfl
    | exact Or.inl (may_of hp (by decide))
    | simp only [↓keeps_mk]
    | refine keepsOf_upd ?_ rfl rfl rfl rfl rfl rfl ?_ ?_ ?_ ?_ ?_ ?_ ?_ ?_ ?_ ?_ ?_ ?_ ?_ ?_ ?_ ?_ ?_ ?_ ?_ ?_ ?_ ?_
    | with_reducible apply keeps_windowOpen
    | dsimp -zeta -zetaHave only


theorem keeps_execCalWindowClose (a s) (h1 : Keeps K s) (hp : Sub 0xA64 K.may) : ∃ t, execCalWindowClose a s = .next t ∧ Keeps K t := by
  refine ⟨_, rfl, ?_⟩
  repeat' first
    | with_reducible assumption
    | exact sub_mono hp (by decide)
    | exact Or.inr rfl
    | exact Or.inl (may_of hp (by decide))
    | simp only [↓keeps_mk]
    | refine keepsOf_upd ?_ rfl rfl rfl rfl rfl rfl ?_ ?_ ?_ ?_ ?_ ?_ ?_ ?_ ?_ ?_ ?_ ?_ ?_ ?_ ?_ ?_ ?_ ?_ ?_ ?_ ?_ ?_
    | with_reducible apply keeps_windowClose
    | dsimp -zeta -zetaHave only


theorem keeps_execCalTableComputeDone (s) (h0 : Keeps K s) (hp : Sub 0x860 K.may) : ∃ t, execCalTableComputeDone s = .next t ∧ Keeps K t := by
  refine ⟨_, rfl, ?_⟩
  repeat' first
    | with_reducible assumption
    | exact sub_mono hp (by decide)
    | exact Or.inr rfl
    | exact Or.inl (may_of hp (by decide))
    | simp only [↓keeps_mk]
    | refine keepsOf_upd ?_ rfl rfl rfl rfl rfl rfl ?_ ?_ ?_ ?_ ?_ ?_ ?_ ?_ ?_ ?_ ?_ ?_ ?_ ?_ ?_ ?_ ?_ ?_ ?_ ?_ ?_ ?_
    | with_reducible apply keeps_calCompute
    | dsimp -zeta -zetaHave only


theorem keeps_execCalStale (a s) (h1 : Keeps K s) (hp : Sub 0x60 K.may) : ∃ t, execCalStale a s = .next t ∧ Keeps K t := by
  refine ⟨_, rfl, ?_⟩
  repeat' first
    | with_reducible assumption
    | exact sub_mono hp (by decide)
    | exact Or.inr rfl
    | exact Or.inl (may_of hp (by decide))
    | simp only [↓keeps_mk]
    | refine keepsOf_upd ?_ rfl rfl rfl rfl rfl rfl ?_ ?_ ?_ ?_ ?_ ?_ ?_ ?_ ?_ ?_ ?_ ?_ ?_ ?_ ?_ ?_ ?_ ?_ ?_ ?_ ?_ ?_
    | with_reducible apply keeps_calRefresh
    | dsimp -zeta -zetaHave only


theorem keeps_execAdcGroupStart (a s) (h1 : Keeps K s) (hp : Sub 0x860 K.may) : ∃ t, execAdcGroupStart a s = .next t ∧ Keeps K t := by
  refine ⟨_, rfl, ?_⟩
  repeat' first
    | with_reducible assumption
    | exact sub_mono hp (by decide)
    | exact Or.inr rfl
    | exact Or.inl (may_of hp (by decide))
    | simp only [↓keeps_mk]
    | refine keepsOf_upd ?_ rfl rfl rfl rfl rfl rfl ?_ ?_ ?_ ?_ ?_ ?_ ?_ ?_ ?_ ?_ ?_ ?_ ?_ ?_ ?_ ?_ ?_ ?_ ?_ ?_ ?_ ?_
    | with_reducible apply keeps_groupStart
    | dsimp -zeta -zetaHave only


theorem keeps_execAdcGrpstart (a s) (h1 : Keeps K s) (hp : Sub 0x860 K.may) : ∃ t, execAdcGrpstart a s = .next t ∧ Keeps K t := by
  refine ⟨_, rfl, ?_⟩
  repeat' first
    | with_reducible assumption
    | exact sub_mono hp (by decide)
    | exact Or.inr rfl
    | exact Or.inl (may_of hp (by decide))
    | simp only [↓keeps_mk]
    | refine keepsOf_upd ?_ rfl rfl rfl rfl rfl rfl ?_ ?_ ?_ ?_ ?_ ?_ ?_ ?_ ?_ ?_ ?_ ?_ ?_ ?_ ?_ ?_ ?_ ?_ ?_ ?_ ?_ ?_
    | with_reducible apply keeps_grpStart
    | dsimp -zeta -zetaHave only


theorem keeps_execAdcSample (a s) (h1 : Keeps K s) (hp : Sub 0x800 K.may) : ∃ t, execAdcSample a s = .next t ∧ Keeps K t := by
  refine ⟨_, rfl, ?_⟩
  repeat' first
    | with_reducible assumption
    | exact sub_mono hp (by decide)
    | exact Or.inr rfl
    | exact Or.inl (may_of hp (by decide))
    | simp only [↓keeps_mk]
    | refine keepsOf_upd ?_ rfl rfl rfl rfl rfl rfl ?_ ?_ ?_ ?_ ?_ ?_ ?_ ?_ ?_ ?_ ?_ ?_ ?_ ?_ ?_ ?_ ?_ ?_ ?_ ?_ ?_ ?_
    | with_reducible apply keeps_adcSample
    | dsimp -zeta -zetaHave only


theorem keeps_execAdcGroupEnd (s) (h0 : Keeps K s) (hp : Sub 0x860 K.may) : ∃ t, execAdcGroupEnd s = .next t ∧ Keeps K t := by
  refine ⟨_, rfl, ?_⟩
  repeat' first
    | with_reducible assumption
    | exact sub_mono hp (by decide)
    | exact Or.inr rfl
    | exact Or.inl (may_of hp (by decide))
    | simp only [↓keeps_mk]
    | refine keepsOf_upd ?_ rfl rfl rfl rfl rfl rfl ?_ ?_ ?_ ?_ ?_ ?_ ?_ ?_ ?_ ?_ ?_ ?_ ?_ ?_ ?_ ?_ ?_ ?_ ?_ ?_ ?_ ?_
    | with_reducible apply keeps_groupEnd
    | dsimp -zeta -zetaHave only


theorem keeps_execAdcCalStart (s) (h0 : Keeps K s) (hp : Sub 0x800 K.may) : ∃ t, execAdcCalStart s = .next t ∧ Keeps K t := by
  refine ⟨_, rfl, ?_⟩
  repeat' first
    | with_reducible assumption
    | exact sub_mono hp (by decide)
    | exact Or.inr rfl
    | exact Or.inl (may_of hp (by decide))
    | simp only [↓keeps_mk]
    | refine keepsOf_upd ?_ rfl rfl rfl rfl rfl rfl ?_ ?_ ?_ ?_ ?_ ?_ ?_ ?_ ?_ ?_ ?_ ?_ ?_ ?_ ?_ ?_ ?_ ?_ ?_ ?_ ?_ ?_
    | with_reducible apply keeps_adcCalBegin
    | with_reducible refine keeps_of_fst (by with_reducible assumption) ?_
    | dsimp -zeta -zetaHave only
    | split


theorem keeps_execAdcCalEnd (a b s) (h2 : Keeps K s) (hp : Sub 0x860 K.may) : ∃ t, execAdcCalEnd a b s = .next t ∧ Keeps K t := by
  refine ⟨_, rfl, ?_⟩
  repeat' first
    | with_reducible assumption
    | exact sub_mono hp (by decide)
    | exact Or.inr rfl
    | exact Or.inl (may_of hp (by decide))
    | simp only [↓keeps_mk]
    | refine keepsOf_upd ?_ rfl rfl rfl rfl rfl rfl ?_ ?_ ?_ ?_ ?_ ?_ ?_ ?_ ?_ ?_ ?_ ?_ ?_ ?_ ?_ ?_ ?_ ?_ ?_ ?_ ?_ ?_
    | with_reducible apply keeps_adcCalEnd
    | dsimp -zeta -zetaHave only


theorem keeps_execAdcCalStarve (s) (h0 : Keeps K s) (hp : Sub 0x860 K.may) : ∃ t, execAdcCalStarve s = .next t ∧ Keeps K t := by
  refine ⟨_, rfl, ?_⟩
  repeat' first
    | with_reducible assumption
    | exact sub_mono hp (by decide)
    | exact Or.inr rfl
    | exact Or.inl (may_of hp (by decide))
    | simp only [↓keeps_mk]
    | refine keepsOf_upd ?_ rfl rfl rfl rfl rfl rfl ?_ ?_ ?_ ?_ ?_ ?_ ?_ ?_ ?_ ?_ ?_ ?_ ?_ ?_ ?_ ?_ ?_ ?_ ?_ ?_ ?_ ?_
    | with_reducible apply keeps_adcCalStarve
    | dsimp -zeta -zetaHave only


theorem keeps_execDieTempConversion (a s) (h1 : Keeps K s) (hp : Sub 0x860 K.may) : ∃ t, execDieTempConversion a s = .next t ∧ Keeps K t := by
  refine ⟨_, rfl, ?_⟩
  repeat' first
    | with_reducible assumption
    | exact sub_mono hp (by decide)
    | exact Or.inr rfl
    | exact Or.inl (may_of hp (by decide))
    | simp only [↓keeps_mk]
    | refine keepsOf_upd ?_ rfl rfl rfl rfl rfl rfl ?_ ?_ ?_ ?_ ?_ ?_ ?_ ?_ ?_ ?_ ?_ ?_ ?_ ?_ ?_ ?_ ?_ ?_ ?_ ?_ ?_ ?_
    | with_reducible apply keeps_dieConversion
    | dsimp -zeta -zetaHave only


end Sys2Proof.Machine
end

