-- ==== Sys2Proof/Laws/KeepsTrig.lean ====
section
/-!
SUPPORT. What the operations of Machine/Trig.lean keep.
-/
namespace Sys2Proof.Machine
open Sys2Proof

variable {K : Keeping}

theorem keeps_updTrig (s b c) (h0 : Keeps K s) (hp : Sub 0x8 K.may) : Keeps K (updTrig s b c) := by
  unfold updTrig
  repeat' first
    | with_reducible assumption
    | exact sub_mono hp (by decide)
    | with_reducible apply keeps_updTime
    | dsimp -zeta -zetaHave only


theorem keeps_deliver (a s) (h1 : Keeps K s) (hp : Sub 0x868 K.may) : Keeps K (deliver a s) := by
  unfold deliver
  repeat' first
    | with_reducible assumption
    | exact sub_mono hp (by decide)
    | (extract_lets +onlyGivenNames x; clear_value x)
    | extract_lets +onlyGivenNames x
    | with_reducible apply keeps_arrive
    | with_reducible apply keeps_groupStart
    | with_reducible apply keeps_bump
    | with_reducible apply keeps_enqueue
    | with_reducible apply keeps_evt
    | with_reducible apply keeps_updTrig
    | with_reducible refine keeps_of_fst (by with_reducible assumption) ?_
    | with_reducible refine keeps_of_some (by with_reducible assumption) ?_
    | with_reducible apply keeps_getD
    | dsimp -zeta -zetaHave only
    | split


theorem keeps_fireLate (a s) (h1 : Keeps K s) (hp : Sub 0x868 K.may) : Keeps K (fireLate a s) := by
  unfold fireLate
  repeat' first
    | with_reducible assumption
    | exact sub_mono hp (by decide)
    | (extract_lets +onlyGivenNames x; have hx : Keeps K x; (on_goal 2 => clear_value x); (on_goal 1 => unfold x; clear x))
    | (extract_lets +onlyGivenNames x; have hx : Keeps K x; (on_goal 1 => unfold x; clear x))
    | (extract_lets +onlyGivenNames x; clear_value x)
    | extract_lets +onlyGivenNames x
    | with_reducible apply keeps_updTrig
    | with_reducible apply keeps_deliver
    | with_reducible apply keeps_evt
    | with_reducible refine keeps_of_fst (by with_reducible assumption) ?_
    | dsimp -zeta -zetaHave only
    | split


theorem keeps_armTrig (a s) (h1 : Keeps K s) (hp : Sub 0x868 K.may) : Keeps K (armTrig a s) := by
  unfold armTrig
  repeat' first
    | with_reducible assumption
    | exact sub_mono hp (by decide)
    | with_reducible apply keeps_fireLate
    | with_reducible apply keeps_updTrig
    | dsimp -zeta -zetaHave only


theorem keeps_trigFire (a s) (h1 : Keeps K s) (hp : Sub 0x868 K.may) : Keeps K (trigFire a s) := by
  unfold trigFire
  repeat' first
    | with_reducible assumption
    | exact sub_mono hp (by decide)
    | (extract_lets +onlyGivenNames x; clear_value x)
    | extract_lets +onlyGivenNames x
    | with_reducible apply keeps_deliver
    | with_reducible apply keeps_updTrig
    | with_reducible refine keeps_of_fst (by with_reducible assumption) ?_
    | dsimp -zeta -zetaHave only
    | split


theorem keeps_trigAtFs (s) (h0 : Keeps K s) (hp : Sub 0x8 K.may) : Keeps K (trigAtFs s) := by
  unfold trigAtFs
  repeat' first
    | with_reducible assumption
    | exact sub_mono hp (by decide)
    | intro _
    | with_reducible apply keeps_updTrig
    | with_reducible apply keeps_foldl
    | with_reducible apply keeps_foldl_fst
    | dsimp -zeta -zetaHave only


theorem keeps_trgCfg (a b c s) (h3 : Keeps K s) (hp : Sub 0x868 K.may) : Keeps K (trgCfg a b c s) := by
  unfold trgCfg
  repeat' first
    | with_reducible assumption
    | exact sub_mono hp (by decide)
    | (extract_lets +onlyGivenNames x; have hx : Keeps K x; (on_goal 2 => clear_value x); (on_goal 1 => unfold x; clear x))
    | (extract_lets +onlyGivenNames x; have hx : Keeps K x; (on_goal 1 => unfold x; clear x))
    | (extract_lets +onlyGivenNames x; clear_value x)
    | extract_lets +onlyGivenNames x
    | with_reducible apply keeps_fault
    | with_reducible apply keeps_setReg
    | with_reducible apply keeps_updTrig
    | with_reducible apply keeps_armTrig
    | with_reducible refine keeps_of_fst (by with_reducible assumption) ?_
    | dsimp -zeta -zetaHave only
    | split


theorem keeps_trgTime (a b s) (h2 : Keeps K s) (hp : Sub 0x868 K.may) : Keeps K (trgTime a b s) := by
  unfold trgTime
  repeat' first
    | with_reducible assumption
    | exact sub_mono hp (by decide)
    | (extract_lets +onlyGivenNames x; have hx : Keeps K x; (on_goal 2 => clear_value x); (on_goal 1 => unfold x; clear x))
    | (extract_lets +onlyGivenNames x; have hx : Keeps K x; (on_goal 1 => unfold x; clear x))
    | (extract_lets +onlyGivenNames x; clear_value x)
    | extract_lets +onlyGivenNames x
    | with_reducible apply keeps_set
    | with_reducible apply keeps_updTrig
    | with_reducible apply keeps_armTrig
    | with_reducible refine keeps_of_fst (by with_reducible assumption) ?_
    | dsimp -zeta -zetaHave only
    | split


theorem keeps_trgPeriod (a b c s) (h3 : Keeps K s) (hp : Sub 0x868 K.may) : Keeps K (trgPeriod a b c s) := by
  unfold trgPeriod
  repeat' first
    | with_reducible assumption
    | exact sub_mono hp (by decide)
    | (extract_lets +onlyGivenNames x; have hx : Keeps K x; (on_goal 2 => clear_value x); (on_goal 1 => unfold x; clear x))
    | (extract_lets +onlyGivenNames x; have hx : Keeps K x; (on_goal 1 => unfold x; clear x))
    | (extract_lets +onlyGivenNames x; clear_value x)
    | extract_lets +onlyGivenNames x
    | with_reducible apply keeps_fault
    | with_reducible apply keeps_set
    | with_reducible apply keeps_fireLate
    | with_reducible apply keeps_updTrig
    | with_reducible refine keeps_of_fst (by with_reducible assumption) ?_
    | dsimp -zeta -zetaHave only
    | split


theorem keeps_withStep (a s) (h0 : ∀ x0, Keeps K x0 → Keeps K (a x0)) (h1 : Keeps K s) (hp : Sub 0x868 K.may) : Keeps K (withStep a s) := by
  unfold withStep
  repeat' first
    | with_reducible assumption
    | exact sub_mono hp (by decide)
    | intro _
    | (extract_lets +onlyGivenNames x; clear_value x)
    | extract_lets +onlyGivenNames x
    | with_reducible apply keeps_fireLate
    | with_reducible apply h0
    | with_reducible apply keeps_foldl
    | with_reducible apply keeps_foldl_fst
    | with_reducible refine keeps_of_fst (by with_reducible assumption) ?_
    | dsimp -zeta -zetaHave only
    | split


theorem keeps_execTriggerFire (a s) (h1 : Keeps K s) (hp : Sub 0x868 K.may) : ∃ t, execTriggerFire a s = .next t ∧ Keeps K t := by
  refine ⟨_, rfl, ?_⟩
  repeat' first
    | with_reducible assumption
    | exact sub_mono hp (by decide)
    | exact Or.inr rfl
    | exact Or.inl (may_of hp (by decide))
    | simp only [↓keeps_mk]
    | refine keepsOf_upd ?_ rfl rfl rfl rfl rfl rfl ?_ ?_ ?_ ?_ ?_ ?_ ?_ ?_ ?_ ?_ ?_ ?_ ?_ ?_ ?_ ?_ ?_ ?_ ?_ ?_ ?_ ?_
    | with_reducible apply keeps_trigFire
    | dsimp -zeta -zetaHave only


theorem keeps_execTrgcfgWrite (a b c s) (h3 : Keeps K s) (hp : Sub 0x868 K.may) : ∃ t, execTrgcfgWrite a b c s = .next t ∧ Keeps K t := by
  refine ⟨_, rfl, ?_⟩
  repeat' first
    | with_reducible assumption
    | exact sub_mono hp (by decide)
    | exact Or.inr rfl
    | exact Or.inl (may_of hp (by decide))
    | simp only [↓keeps_mk]
    | refine keepsOf_upd ?_ rfl rfl rfl rfl rfl rfl ?_ ?_ ?_ ?_ ?_ ?_ ?_ ?_ ?_ ?_ ?_ ?_ ?_ ?_ ?_ ?_ ?_ ?_ ?_ ?_ ?_ ?_
    | with_reducible apply keeps_trgCfg
    | dsimp -zeta -zetaHave only


theorem keeps_execTrgtimeWrite (a b s) (h2 : Keeps K s) (hp : Sub 0x868 K.may) : ∃ t, execTrgtimeWrite a b s = .next t ∧ Keeps K t := by
  refine ⟨_, rfl, ?_⟩
  repeat' first
    | with_reducible assumption
    | exact sub_mono hp (by decide)
    | exact Or.inr rfl
    | exact Or.inl (may_of hp (by decide))
    | simp only [↓keeps_mk]
    | refine keepsOf_upd ?_ rfl rfl rfl rfl rfl rfl ?_ ?_ ?_ ?_ ?_ ?_ ?_ ?_ ?_ ?_ ?_ ?_ ?_ ?_ ?_ ?_ ?_ ?_ ?_ ?_ ?_ ?_
    | with_reducible apply keeps_trgTime
    | dsimp -zeta -zetaHave only


theorem keeps_execTrgperiodWrite (a b c s) (h3 : Keeps K s) (hp : Sub 0x868 K.may) : ∃ t, execTrgperiodWrite a b c s = .next t ∧ Keeps K t := by
  refine ⟨_, rfl, ?_⟩
  repeat' first
    | with_reducible assumption
    | exact sub_mono hp (by decide)
    | exact Or.inr rfl
    | exact Or.inl (may_of hp (by decide))
    | simp only [↓keeps_mk]
    | refine keepsOf_upd ?_ rfl rfl rfl rfl rfl rfl ?_ ?_ ?_ ?_ ?_ ?_ ?_ ?_ ?_ ?_ ?_ ?_ ?_ ?_ ?_ ?_ ?_ ?_ ?_ ?_ ?_ ?_
    | with_reducible apply keeps_trgPeriod
    | dsimp -zeta -zetaHave only


theorem keeps_execServoMeasurement (a b s) (h2 : Keeps K s) (hp : Sub 0x19FE7C K.may) : ∃ t, execServoMeasurement a b s = .next t ∧ Keeps K t := by
  refine ⟨_, rfl, ?_⟩
  repeat' first
    | with_reducible assumption
    | exact sub_mono hp (by decide)
    | intro _
    | exact Or.inr rfl
    | exact Or.inl (may_of hp (by decide))
    | simp only [↓keeps_mk]
    | refine keepsOf_upd ?_ rfl rfl rfl rfl rfl rfl ?_ ?_ ?_ ?_ ?_ ?_ ?_ ?_ ?_ ?_ ?_ ?_ ?_ ?_ ?_ ?_ ?_ ?_ ?_ ?_ ?_ ?_
    | with_reducible apply keeps_withStep
    | with_reducible apply keeps_measurement
    | with_reducible refine keeps_of_fst (by with_reducible assumption) ?_
    | dsimp -zeta -zetaHave only
    | split


end Sys2Proof.Machine
end

