-- ==== Sys2Proof/Laws/KeepsEthFrame.lean ====
section
/-!
SUPPORT. What the operations of Machine/EthFrame.lean keep.
-/
namespace Sys2Proof.Machine
open Sys2Proof

variable {K : Keeping}

theorem keeps_updNet (s b) (h0 : Keeps K s) (hp : Sub 0x2000 K.may) : Keeps K (updNet s b) := by
  unfold updNet
  repeat' first
    | with_reducible assumption
    | exact sub_mono hp (by decide)
    | exact Or.inr rfl
    | exact Or.inl (may_of hp (by decide))
    | simp only [↓keeps_mk]
    | refine keepsOf_upd ?_ rfl rfl rfl rfl rfl rfl ?_ ?_ ?_ ?_ ?_ ?_ ?_ ?_ ?_ ?_ ?_ ?_ ?_ ?_ ?_ ?_ ?_ ?_ ?_ ?_ ?_ ?_
    | dsimp -zeta -zetaHave only


theorem keeps_updEth (s b c) (h0 : Keeps K s) (hp : Sub 0x2000 K.may) : Keeps K (updEth s b c) := by
  unfold updEth
  repeat' first
    | with_reducible assumption
    | exact sub_mono hp (by decide)
    | with_reducible apply keeps_updNet
    | dsimp -zeta -zetaHave only


theorem keeps_updPair (s b) (h0 : Keeps K s) (hp : Sub 0x2000 K.may) : Keeps K (updPair s b) := by
  unfold updPair
  repeat' first
    | with_reducible assumption
    | exact sub_mono hp (by decide)
    | with_reducible apply keeps_updNet
    | dsimp -zeta -zetaHave only


theorem keeps_udpFrame (a b c d e f s) (h6 : Keeps K s) : Keeps K (udpFrame a b c d e f s).1 := by
  unfold udpFrame
  repeat' first
    | with_reducible assumption
    | (extract_lets +onlyGivenNames x; clear_value x)
    | extract_lets +onlyGivenNames x
    | with_reducible apply keeps_free
    | with_reducible refine keeps_of_fst (by with_reducible assumption) ?_
    | dsimp -zeta -zetaHave only
    | split


theorem keeps_queueTx (a b c s) (h3 : Keeps K s) (hp : Sub 0x2000 K.may) : Keeps K (queueTx a b c s) := by
  unfold queueTx
  repeat' first
    | with_reducible assumption
    | exact sub_mono hp (by decide)
    | with_reducible apply keeps_updEth
    | dsimp -zeta -zetaHave only


theorem keeps_queueLead (a b s) (h2 : Keeps K s) (hp : Sub 0x2000 K.may) : Keeps K (queueLead a b s) := by
  unfold queueLead
  repeat' first
    | with_reducible assumption
    | exact sub_mono hp (by decide)
    | (extract_lets +onlyGivenNames x; have hx : Keeps K x; (on_goal 2 => clear_value x); (on_goal 1 => unfold x; clear x))
    | (extract_lets +onlyGivenNames x; have hx : Keeps K x; (on_goal 1 => unfold x; clear x))
    | (extract_lets +onlyGivenNames x; clear_value x)
    | extract_lets +onlyGivenNames x
    | with_reducible apply keeps_queueTx
    | with_reducible refine keeps_of_fst (by with_reducible assumption) ?_
    | dsimp -zeta -zetaHave only
    | split


end Sys2Proof.Machine
end

