-- ==== Sys2Proof/Laws/KeepsPtp.lean ====
section
/-!
SUPPORT. What the operations of Machine/Ptp.lean keep.
-/
namespace Sys2Proof.Machine
open Sys2Proof

variable {K : Keeping}

theorem keeps_updPtp (s b) (h0 : Keeps K s) (hp : Sub 0x8 K.may) : Keeps K (updPtp s b) := by
  unfold updPtp
  repeat' first
    | with_reducible assumption
    | exact sub_mono hp (by decide)
    | with_reducible apply keeps_updTime
    | dsimp -zeta -zetaHave only


theorem keeps_ptpFrame (a b c s) (h3 : Keeps K s) : Keeps K (ptpFrame a b c s).1 := by
  unfold ptpFrame
  repeat' first
    | with_reducible assumption
    | (extract_lets +onlyGivenNames x; clear_value x)
    | extract_lets +onlyGivenNames x
    | with_reducible apply keeps_udpFrame
    | with_reducible refine keeps_of_fst (by with_reducible assumption) ?_
    | dsimp -zeta -zetaHave only
    | split


theorem keeps_ptpQueue (a b s) (h2 : Keeps K s) (hp : Sub 0x2000 K.may) : Keeps K (ptpQueue a b s) := by
  unfold ptpQueue
  repeat' first
    | with_reducible assumption
    | exact sub_mono hp (by decide)
    | (extract_lets +onlyGivenNames x; clear_value x)
    | extract_lets +onlyGivenNames x
    | with_reducible apply keeps_ptpFrame
    | with_reducible apply keeps_queueLead
    | with_reducible refine keeps_of_fst (by with_reducible assumption) ?_
    | dsimp -zeta -zetaHave only
    | split


theorem keeps_ptpDepart (a b s) (h2 : Keeps K s) (hp : Sub 0x8 K.may) : Keeps K (ptpDepart a b s).1 := by
  unfold ptpDepart
  repeat' first
    | with_reducible assumption
    | exact sub_mono hp (by decide)
    | (extract_lets +onlyGivenNames x; clear_value x)
    | extract_lets +onlyGivenNames x
    | with_reducible apply keeps_updPtp
    | with_reducible refine keeps_of_fst (by with_reducible assumption) ?_
    | dsimp -zeta -zetaHave only
    | split


theorem keeps_ptpOffset (a b s) (h2 : Keeps K s) (hp : Sub 0x19FE7C K.may) : Keeps K (ptpOffset a b s) := by
  unfold ptpOffset
  repeat' first
    | with_reducible assumption
    | exact sub_mono hp (by decide)
    | with_reducible apply keeps_measurement
    | dsimp -zeta -zetaHave only


theorem keeps_ptpDown (a s) (h1 : Keeps K s) (hp : Sub 0x19FE7C K.may) : Keeps K (ptpDown a s) := by
  unfold ptpDown
  repeat' first
    | with_reducible assumption
    | exact sub_mono hp (by decide)
    | (extract_lets +onlyGivenNames x; have hx : Keeps K x; (on_goal 2 => clear_value x); (on_goal 1 => unfold x; clear x))
    | (extract_lets +onlyGivenNames x; have hx : Keeps K x; (on_goal 1 => unfold x; clear x))
    | with_reducible apply keeps_updPtp
    | with_reducible apply keeps_ptpOffset
    | with_reducible refine keeps_of_fst (by with_reducible assumption) ?_
    | dsimp -zeta -zetaHave only
    | split


theorem keeps_ptpDelay (a b s) (h2 : Keeps K s) (hp : Sub 0x19FE7C K.may) : Keeps K (ptpDelay a b s) := by
  unfold ptpDelay
  repeat' first
    | with_reducible assumption
    | exact sub_mono hp (by decide)
    | (extract_lets +onlyGivenNames x; have hx : Keeps K x; (on_goal 2 => clear_value x); (on_goal 1 => unfold x; clear x))
    | (extract_lets +onlyGivenNames x; have hx : Keeps K x; (on_goal 1 => unfold x; clear x))
    | (extract_lets +onlyGivenNames x; clear_value x)
    | extract_lets +onlyGivenNames x
    | with_reducible apply keeps_updPtp
    | with_reducible apply keeps_ptpOffset
    | with_reducible refine keeps_of_fst (by with_reducible assumption) ?_
    | dsimp -zeta -zetaHave only
    | split


theorem keeps_ptpAnnounced (a s) (h1 : Keeps K s) (hp : Sub 0x8 K.may) : Keeps K (ptpAnnounced a s) := by
  unfold ptpAnnounced
  repeat' first
    | with_reducible assumption
    | exact sub_mono hp (by decide)
    | (extract_lets +onlyGivenNames x; have hx : Keeps K x; (on_goal 2 => clear_value x); (on_goal 1 => unfold x; clear x))
    | (extract_lets +onlyGivenNames x; have hx : Keeps K x; (on_goal 1 => unfold x; clear x))
    | (extract_lets +onlyGivenNames x; clear_value x)
    | extract_lets +onlyGivenNames x
    | with_reducible apply keeps_updPtp
    | with_reducible apply keeps_set
    | with_reducible refine keeps_of_fst (by with_reducible assumption) ?_
    | dsimp -zeta -zetaHave only
    | split


theorem keeps_ptpReceive (a b c s) (h3 : Keeps K s) (hp : Sub 0x19FE7C K.may) : Keeps K (ptpReceive a b c s) := by
  unfold ptpReceive
  repeat' first
    | with_reducible assumption
    | exact sub_mono hp (by decide)
    | (extract_lets +onlyGivenNames x; clear_value x)
    | extract_lets +onlyGivenNames x
    | with_reducible apply keeps_updPtp
    | with_reducible apply keeps_ptpDown
    | with_reducible apply keeps_ptpDelay
    | with_reducible apply keeps_ptpAnnounced
    | with_reducible apply keeps_updTime
    | with_reducible apply keeps_ptpQueue
    | with_reducible refine keeps_of_fst (by with_reducible assumption) ?_
    | dsimp -zeta -zetaHave only
    | split


theorem keeps_ptpOriginate (a s) (h1 : Keeps K s) (hp : Sub 0x2008 K.may) : Keeps K (ptpOriginate a s) := by
  unfold ptpOriginate
  repeat' first
    | with_reducible assumption
    | exact sub_mono hp (by decide)
    | (extract_lets +onlyGivenNames x; have hx : Keeps K x; (on_goal 2 => clear_value x); (on_goal 1 => unfold x; clear x))
    | (extract_lets +onlyGivenNames x; have hx : Keeps K x; (on_goal 1 => unfold x; clear x))
    | (extract_lets +onlyGivenNames x; clear_value x)
    | extract_lets +onlyGivenNames x
    | with_reducible apply keeps_updPtp
    | with_reducible apply keeps_ptpQueue
    | with_reducible refine keeps_of_fst (by with_reducible assumption) ?_
    | dsimp -zeta -zetaHave only
    | split


theorem keeps_announceSend (s) (h0 : Keeps K s) (hp : Sub 0x2008 K.may) : Keeps K (announceSend s) := by
  unfold announceSend
  repeat' first
    | with_reducible assumption
    | exact sub_mono hp (by decide)
    | (extract_lets +onlyGivenNames x; have hx : Keeps K x; (on_goal 2 => clear_value x); (on_goal 1 => unfold x; clear x))
    | (extract_lets +onlyGivenNames x; have hx : Keeps K x; (on_goal 1 => unfold x; clear x))
    | (extract_lets +onlyGivenNames x; clear_value x)
    | extract_lets +onlyGivenNames x
    | with_reducible apply keeps_updPtp
    | with_reducible apply keeps_ptpQueue
    | dsimp -zeta -zetaHave only


theorem keeps_announceTimeout (s) (h0 : Keeps K s) (hp : Sub 0x8 K.may) : Keeps K (announceTimeout s) := by
  unfold announceTimeout
  repeat' first
    | with_reducible assumption
    | exact sub_mono hp (by decide)
    | (extract_lets +onlyGivenNames x; clear_value x)
    | extract_lets +onlyGivenNames x
    | with_reducible apply keeps_updPtp
    | dsimp -zeta -zetaHave only


theorem keeps_execPtpMessageReceive (a b c s) (h3 : Keeps K s) (hp : Sub 0x19FE7C K.may) : ∃ t, execPtpMessageReceive a b c s = .next t ∧ Keeps K t := by
  refine ⟨_, rfl, ?_⟩
  repeat' first
    | with_reducible assumption
    | exact sub_mono hp (by decide)
    | intro _
    | exact Or.inr rfl
    | exact Or.inl (may_of hp (by decide))
    | simp only [↓keeps_mk]
    | refine keepsOf_upd ?_ rfl rfl rfl rfl rfl rfl ?_ ?_ ?_ ?_ ?_ ?_ ?_ ?_ ?_ ?_ ?_ ?_ ?_ ?_ ?_ ?_ ?_ ?_ ?_ ?_ ?_ ?_
    | with_reducible apply keeps_withStep
    | with_reducible apply keeps_ptpReceive
    | dsimp -zeta -zetaHave only


theorem keeps_execAnnounceReceiptTimeout (s) (h0 : Keeps K s) (hp : Sub 0x8 K.may) : ∃ t, execAnnounceReceiptTimeout s = .next t ∧ Keeps K t := by
  refine ⟨_, rfl, ?_⟩
  repeat' first
    | with_reducible assumption
    | exact sub_mono hp (by decide)
    | exact Or.inr rfl
    | exact Or.inl (may_of hp (by decide))
    | simp only [↓keeps_mk]
    | refine keepsOf_upd ?_ rfl rfl rfl rfl rfl rfl ?_ ?_ ?_ ?_ ?_ ?_ ?_ ?_ ?_ ?_ ?_ ?_ ?_ ?_ ?_ ?_ ?_ ?_ ?_ ?_ ?_ ?_
    | with_reducible apply keeps_announceTimeout
    | dsimp -zeta -zetaHave only


end Sys2Proof.Machine
end

