-- ==== Sys2Proof/Laws/KeepsSound.lean ====
section
/-!
SUPPORT. What the operations of Machine/Sound.lean keep.
-/
namespace Sys2Proof.Machine
open Sys2Proof

variable {K : Keeping}

theorem keeps_updSnd (s b) (h0 : Keeps K s) (hp : Sub 0x1000 K.may) : Keeps K (updSnd s b) := by
  unfold updSnd
  repeat' first
    | with_reducible assumption
    | exact sub_mono hp (by decide)
    | exact Or.inr rfl
    | exact Or.inl (may_of hp (by decide))
    | simp only [↓keeps_mk]
    | refine keepsOf_upd ?_ rfl rfl rfl rfl rfl rfl ?_ ?_ ?_ ?_ ?_ ?_ ?_ ?_ ?_ ?_ ?_ ?_ ?_ ?_ ?_ ?_ ?_ ?_ ?_ ?_ ?_ ?_
    | dsimp -zeta -zetaHave only


theorem keeps_chanSample (a b c d s) (h4 : Keeps K s) (hp : Sub 0x1000 K.may) : Keeps K (chanSample a b c d s) := by
  unfold chanSample
  repeat' first
    | with_reducible assumption
    | exact sub_mono hp (by decide)
    | (extract_lets +onlyGivenNames x; have hx : Keeps K x; (on_goal 2 => clear_value x); (on_goal 1 => unfold x; clear x))
    | (extract_lets +onlyGivenNames x; have hx : Keeps K x; (on_goal 1 => unfold x; clear x))
    | (extract_lets +onlyGivenNames x; clear_value x)
    | extract_lets +onlyGivenNames x
    | with_reducible apply keeps_updSnd
    | with_reducible refine keeps_of_fst (by with_reducible assumption) ?_
    | dsimp -zeta -zetaHave only
    | split


theorem keeps_tdmFrame (a b c d s) (h4 : Keeps K s) (hp : Sub 0x1000 K.may) : Keeps K (tdmFrame a b c d s) := by
  unfold tdmFrame
  repeat' first
    | with_reducible assumption
    | exact sub_mono hp (by decide)
    | intro _
    | (extract_lets +onlyGivenNames x; have hx : Keeps K x; (on_goal 2 => clear_value x); (on_goal 1 => unfold x; clear x))
    | (extract_lets +onlyGivenNames x; have hx : Keeps K x; (on_goal 1 => unfold x; clear x))
    | (extract_lets +onlyGivenNames x; clear_value x)
    | extract_lets +onlyGivenNames x
    | with_reducible apply keeps_emit
    | with_reducible apply keeps_updSnd
    | with_reducible apply keeps_set
    | with_reducible apply keeps_chanSample
    | with_reducible apply keeps_foldl
    | with_reducible apply keeps_foldl_fst
    | with_reducible refine keeps_of_fst (by with_reducible assumption) ?_
    | dsimp -zeta -zetaHave only
    | split


theorem keeps_tdmLoss (a s) (h1 : Keeps K s) (hp : Sub 0x1000 K.may) : Keeps K (tdmLoss a s) := by
  unfold tdmLoss
  repeat' first
    | with_reducible assumption
    | exact sub_mono hp (by decide)
    | (extract_lets +onlyGivenNames x; clear_value x)
    | extract_lets +onlyGivenNames x
    | with_reducible apply keeps_set
    | with_reducible apply keeps_updSnd
    | dsimp -zeta -zetaHave only


theorem keeps_aesPacket (a b c s) (h3 : Keeps K s) (hp : Sub 0x1000 K.may) : Keeps K (aesPacket a b c s) := by
  unfold aesPacket
  repeat' first
    | with_reducible assumption
    | exact sub_mono hp (by decide)
    | intro _
    | (extract_lets +onlyGivenNames x; have hx : Keeps K x; (on_goal 2 => clear_value x); (on_goal 1 => unfold x; clear x))
    | (extract_lets +onlyGivenNames x; have hx : Keeps K x; (on_goal 1 => unfold x; clear x))
    | (extract_lets +onlyGivenNames x; clear_value x)
    | extract_lets +onlyGivenNames x
    | with_reducible apply keeps_updSnd
    | with_reducible apply keeps_chanSample
    | with_reducible apply keeps_foldl
    | with_reducible apply keeps_foldl_fst
    | with_reducible refine keeps_of_fst (by with_reducible assumption) ?_
    | dsimp -zeta -zetaHave only
    | split


theorem keeps_aesSwitched (a s) (h1 : Keeps K s) (hp : Sub 0x1000 K.may) : Keeps K (aesSwitched a s) := by
  unfold aesSwitched
  repeat' first
    | with_reducible assumption
    | exact sub_mono hp (by decide)
    | with_reducible apply keeps_updSnd
    | dsimp -zeta -zetaHave only


theorem keeps_updBus (s b c) (h0 : Keeps K s) (hp : Sub 0x1000 K.may) : Keeps K (updBus s b c) := by
  unfold updBus
  repeat' first
    | with_reducible assumption
    | exact sub_mono hp (by decide)
    | with_reducible apply keeps_updSnd
    | dsimp -zeta -zetaHave only


theorem keeps_aesMissing (a b s) (h2 : Keeps K s) (hp : Sub 0x1060 K.may) : Keeps K (aesMissing a b s) := by
  unfold aesMissing
  repeat' first
    | with_reducible assumption
    | exact sub_mono hp (by decide)
    | intro _
    | (extract_lets +onlyGivenNames x; have hx : Keeps K x; (on_goal 2 => clear_value x); (on_goal 1 => unfold x; clear x))
    | (extract_lets +onlyGivenNames x; have hx : Keeps K x; (on_goal 1 => unfold x; clear x))
    | with_reducible apply keeps_updBus
    | with_reducible apply keeps_evt
    | with_reducible apply keeps_bump
    | with_reducible apply keeps_foldl
    | with_reducible apply keeps_foldl_fst
    | with_reducible refine keeps_of_fst (by with_reducible assumption) ?_
    | dsimp -zeta -zetaHave only
    | split


theorem keeps_busSample (a s) (h1 : Keeps K s) (hp : Sub 0x1060 K.may) : Keeps K (busSample a s) := by
  unfold busSample
  repeat' first
    | with_reducible assumption
    | exact sub_mono hp (by decide)
    | intro _
    | (extract_lets +onlyGivenNames x; have hx : Keeps K x; (on_goal 2 => clear_value x); (on_goal 1 => unfold x; clear x))
    | (extract_lets +onlyGivenNames x; have hx : Keeps K x; (on_goal 1 => unfold x; clear x))
    | (extract_lets +onlyGivenNames x; clear_value x)
    | extract_lets +onlyGivenNames x
    | with_reducible apply keeps_updBus
    | with_reducible apply keeps_evtIf
    | with_reducible apply keeps_bump
    | with_reducible apply keeps_foldl
    | with_reducible apply keeps_foldl_fst
    | with_reducible refine keeps_of_fst (by with_reducible assumption) ?_
    | dsimp -zeta -zetaHave only
    | split


theorem keeps_recordCame (a b s) (h2 : Keeps K s) (hp : Sub 0x1060 K.may) : Keeps K (recordCame a b s) := by
  unfold recordCame
  repeat' first
    | with_reducible assumption
    | exact sub_mono hp (by decide)
    | (extract_lets +onlyGivenNames x; have hx : Keeps K x; (on_goal 2 => clear_value x); (on_goal 1 => unfold x; clear x))
    | (extract_lets +onlyGivenNames x; have hx : Keeps K x; (on_goal 1 => unfold x; clear x))
    | (extract_lets +onlyGivenNames x; clear_value x)
    | extract_lets +onlyGivenNames x
    | with_reducible apply keeps_updSnd
    | with_reducible apply keeps_evtIf
    | with_reducible apply keeps_bump
    | dsimp -zeta -zetaHave only


theorem keeps_putFeature (a b c s) (h3 : Keeps K s) (hp : Sub 0x1065 K.may) : Keeps K (putFeature a b c s) := by
  unfold putFeature
  repeat' first
    | with_reducible assumption
    | exact sub_mono hp (by decide)
    | (extract_lets +onlyGivenNames x; have hx : Keeps K x; (on_goal 2 => clear_value x); (on_goal 1 => unfold x; clear x))
    | (extract_lets +onlyGivenNames x; have hx : Keeps K x; (on_goal 1 => unfold x; clear x))
    | with_reducible apply keeps_recordCame
    | with_reducible apply keeps_updSnd
    | with_reducible apply keeps_wr'
    | with_reducible apply keeps_bump
    | dsimp -zeta -zetaHave only


theorem keeps_blockEnd (a s) (h1 : Keeps K s) (hp : Sub 0x1065 K.may) : Keeps K (blockEnd a s) := by
  unfold blockEnd
  repeat' first
    | with_reducible assumption
    | exact sub_mono hp (by decide)
    | (extract_lets +onlyGivenNames x; have hx : Keeps K x; (on_goal 2 => clear_value x); (on_goal 1 => unfold x; clear x))
    | (extract_lets +onlyGivenNames x; have hx : Keeps K x; (on_goal 1 => unfold x; clear x))
    | (extract_lets +onlyGivenNames x; clear_value x)
    | extract_lets +onlyGivenNames x
    | with_reducible apply keeps_free
    | with_reducible apply keeps_putFeature
    | with_reducible apply keeps_updBus
    | with_reducible apply keeps_bump
    | with_reducible apply keeps_updSnd
    | with_reducible apply keeps_set
    | with_reducible refine keeps_of_fst (by with_reducible assumption) ?_
    | dsimp -zeta -zetaHave only
    | split


theorem keeps_updTrk (s b) (h0 : Keeps K s) (hp : Sub 0x1000 K.may) : Keeps K (updTrk s b) := by
  unfold updTrk
  repeat' first
    | with_reducible assumption
    | exact sub_mono hp (by decide)
    | with_reducible apply keeps_updSnd
    | dsimp -zeta -zetaHave only


theorem keeps_trkStat (s) (h0 : Keeps K s) : Keeps K (trkStat s) := by
  unfold trkStat
  repeat' first
    | with_reducible assumption
    | (extract_lets +onlyGivenNames x; have hx : Keeps K x; (on_goal 2 => clear_value x); (on_goal 1 => unfold x; clear x))
    | (extract_lets +onlyGivenNames x; have hx : Keeps K x; (on_goal 1 => unfold x; clear x))
    | (extract_lets +onlyGivenNames x; clear_value x)
    | extract_lets +onlyGivenNames x
    | with_reducible apply keeps_set
    | with_reducible refine keeps_of_fst (by with_reducible assumption) ?_
    | dsimp -zeta -zetaHave only
    | split


theorem keeps_firstUse (s) (h0 : Keeps K s) (hp : Sub 0x1000 K.may) : Keeps K (firstUse s) := by
  unfold firstUse
  repeat' first
    | with_reducible assumption
    | exact sub_mono hp (by decide)
    | with_reducible apply keeps_trkStat
    | with_reducible apply keeps_set
    | with_reducible apply keeps_updTrk
    | dsimp -zeta -zetaHave only


theorem keeps_trkTo (a s) (h1 : Keeps K s) (hp : Sub 0x1060 K.may) : Keeps K (trkTo a s) := by
  unfold trkTo
  repeat' first
    | with_reducible assumption
    | exact sub_mono hp (by decide)
    | (extract_lets +onlyGivenNames x; have hx : Keeps K x; (on_goal 2 => clear_value x); (on_goal 1 => unfold x; clear x))
    | (extract_lets +onlyGivenNames x; have hx : Keeps K x; (on_goal 1 => unfold x; clear x))
    | (extract_lets +onlyGivenNames x; clear_value x)
    | extract_lets +onlyGivenNames x
    | with_reducible apply keeps_updTrk
    | with_reducible apply keeps_evt
    | with_reducible refine keeps_of_fst (by with_reducible assumption) ?_
    | dsimp -zeta -zetaHave only
    | split


theorem keeps_tempoEstimate (s) (h0 : Keeps K s) (hp : Sub 0x1060 K.may) : Keeps K (tempoEstimate s) := by
  unfold tempoEstimate
  repeat' first
    | with_reducible assumption
    | exact sub_mono hp (by decide)
    | (extract_lets +onlyGivenNames x; have hx : Keeps K x; (on_goal 2 => clear_value x); (on_goal 1 => unfold x; clear x))
    | (extract_lets +onlyGivenNames x; have hx : Keeps K x; (on_goal 1 => unfold x; clear x))
    | (extract_lets +onlyGivenNames x; clear_value x)
    | extract_lets +onlyGivenNames x
    | with_reducible apply keeps_updTrk
    | with_reducible apply keeps_trkTo
    | with_reducible apply keeps_free
    | with_reducible apply keeps_evt
    | with_reducible apply keeps_trkStat
    | with_reducible refine keeps_of_fst (by with_reducible assumption) ?_
    | dsimp -zeta -zetaHave only
    | split


theorem keeps_coastTimeout (s) (h0 : Keeps K s) (hp : Sub 0x1060 K.may) : Keeps K (coastTimeout s) := by
  unfold coastTimeout
  repeat' first
    | with_reducible assumption
    | exact sub_mono hp (by decide)
    | with_reducible apply keeps_trkStat
    | with_reducible apply keeps_updTrk
    | with_reducible apply keeps_trkTo
    | with_reducible refine keeps_of_fst (by with_reducible assumption) ?_
    | dsimp -zeta -zetaHave only
    | split


theorem keeps_gridMove (a s) (h1 : Keeps K s) : Keeps K (gridMove a s).1 := by
  unfold gridMove
  repeat' first
    | with_reducible assumption
    | (extract_lets +onlyGivenNames x; clear_value x)
    | extract_lets +onlyGivenNames x
    | with_reducible apply keeps_free
    | with_reducible refine keeps_of_fst (by with_reducible assumption) ?_
    | dsimp -zeta -zetaHave only
    | split


theorem keeps_beatPost (a s) (h1 : Keeps K s) (hp : Sub 0x1060 K.may) : Keeps K (beatPost a s) := by
  unfold beatPost
  repeat' first
    | with_reducible assumption
    | exact sub_mono hp (by decide)
    | (extract_lets +onlyGivenNames x; have hx : Keeps K x; (on_goal 2 => clear_value x); (on_goal 1 => unfold x; clear x))
    | (extract_lets +onlyGivenNames x; have hx : Keeps K x; (on_goal 1 => unfold x; clear x))
    | with_reducible apply keeps_enqueue
    | with_reducible apply keeps_evt
    | with_reducible apply keeps_updSnd
    | with_reducible apply keeps_bump
    | with_reducible refine keeps_of_fst (by with_reducible assumption) ?_
    | with_reducible refine keeps_of_some (by with_reducible assumption) ?_
    | with_reducible apply keeps_getD
    | dsimp -zeta -zetaHave only
    | split


theorem keeps_beatIssue (s) (h0 : Keeps K s) (hp : Sub 0x1065 K.may) : Keeps K (beatIssue s) := by
  unfold beatIssue
  repeat' first
    | with_reducible assumption
    | exact sub_mono hp (by decide)
    | (extract_lets +onlyGivenNames x; have hx : Keeps K x; (on_goal 2 => clear_value x); (on_goal 1 => unfold x; clear x))
    | (extract_lets +onlyGivenNames x; have hx : Keeps K x; (on_goal 1 => unfold x; clear x))
    | (extract_lets +onlyGivenNames x; clear_value x)
    | extract_lets +onlyGivenNames x
    | with_reducible apply keeps_wr'
    | with_reducible apply keeps_updSnd
    | with_reducible apply keeps_evt
    | with_reducible apply keeps_bump
    | with_reducible apply keeps_beatPost
    | with_reducible apply keeps_set
    | with_reducible apply keeps_gridMove
    | with_reducible apply keeps_updTrk
    | with_reducible apply keeps_trkStat
    | with_reducible refine keeps_of_fst (by with_reducible assumption) ?_
    | dsimp -zeta -zetaHave only
    | split


theorem keeps_barSync (a s) (h1 : Keeps K s) (hp : Sub 0x1000 K.may) : Keeps K (barSync a s) := by
  unfold barSync
  repeat' first
    | with_reducible assumption
    | exact sub_mono hp (by decide)
    | (extract_lets +onlyGivenNames x; clear_value x)
    | extract_lets +onlyGivenNames x
    | with_reducible apply keeps_updTrk
    | with_reducible refine keeps_of_fst (by with_reducible assumption) ?_
    | dsimp -zeta -zetaHave only
    | split


theorem keeps_busSwitched (a b s) (h2 : Keeps K s) (hp : Sub 0x1000 K.may) : Keeps K (busSwitched a b s) := by
  unfold busSwitched
  repeat' first
    | with_reducible assumption
    | exact sub_mono hp (by decide)
    | with_reducible apply keeps_updBus
    | with_reducible apply keeps_firstUse
    | with_reducible refine keeps_of_fst (by with_reducible assumption) ?_
    | dsimp -zeta -zetaHave only
    | split


theorem keeps_sndLeft (s) (h0 : Keeps K s) (hp : Sub 0x1000 K.may) : Keeps K (sndLeft s) := by
  unfold sndLeft
  repeat' first
    | with_reducible assumption
    | exact sub_mono hp (by decide)
    | (extract_lets +onlyGivenNames x; have hx : Keeps K x; (on_goal 2 => clear_value x); (on_goal 1 => unfold x; clear x))
    | (extract_lets +onlyGivenNames x; have hx : Keeps K x; (on_goal 1 => unfold x; clear x))
    | (extract_lets +onlyGivenNames x; clear_value x)
    | extract_lets +onlyGivenNames x
    | with_reducible apply keeps_firstUse
    | with_reducible apply keeps_updSnd
    | with_reducible refine keeps_of_fst (by with_reducible assumption) ?_
    | dsimp -zeta -zetaHave only
    | split


theorem keeps_ltcLost (s) (h0 : Keeps K s) (hp : Sub 0x1060 K.may) : Keeps K (ltcLost s) := by
  unfold ltcLost
  repeat' first
    | with_reducible assumption
    | exact sub_mono hp (by decide)
    | (extract_lets +onlyGivenNames x; have hx : Keeps K x; (on_goal 2 => clear_value x); (on_goal 1 => unfold x; clear x))
    | (extract_lets +onlyGivenNames x; have hx : Keeps K x; (on_goal 1 => unfold x; clear x))
    | with_reducible apply keeps_updSnd
    | with_reducible apply keeps_set
    | with_reducible apply keeps_evt
    | with_reducible refine keeps_of_fst (by with_reducible assumption) ?_
    | dsimp -zeta -zetaHave only
    | split


theorem keeps_ltcWritten (s) (h0 : Keeps K s) (hp : Sub 0x1000 K.may) : Keeps K (ltcWritten s) := by
  unfold ltcWritten
  repeat' first
    | with_reducible assumption
    | exact sub_mono hp (by decide)
    | with_reducible apply keeps_updSnd
    | dsimp -zeta -zetaHave only


theorem keeps_ltcTake (a b c d s) (h4 : Keeps K s) (hp : Sub 0x81078 K.may) : Keeps K (ltcTake a b c d s) := by
  unfold ltcTake
  repeat' first
    | with_reducible assumption
    | exact sub_mono hp (by decide)
    | (extract_lets +onlyGivenNames x; have hx : Keeps K x; (on_goal 2 => clear_value x); (on_goal 1 => unfold x; clear x))
    | (extract_lets +onlyGivenNames x; have hx : Keeps K x; (on_goal 1 => unfold x; clear x))
    | (extract_lets +onlyGivenNames x; clear_value x)
    | extract_lets +onlyGivenNames x
    | with_reducible apply keeps_bump
    | with_reducible apply keeps_updSnd
    | with_reducible apply keeps_ltcLost
    | with_reducible apply keeps_setReg
    | with_reducible apply keeps_set
    | with_reducible apply keeps_evt
    | with_reducible apply keeps_referenceInstant
    | with_reducible refine keeps_of_fst (by with_reducible assumption) ?_
    | dsimp -zeta -zetaHave only
    | split


theorem keeps_ltcFrame (a b c d s) (h4 : Keeps K s) (hp : Sub 0x81078 K.may) : Keeps K (ltcFrame a b c d s) := by
  unfold ltcFrame
  repeat' first
    | with_reducible assumption
    | exact sub_mono hp (by decide)
    | (extract_lets +onlyGivenNames x; clear_value x)
    | extract_lets +onlyGivenNames x
    | with_reducible apply keeps_ltcTake
    | with_reducible apply keeps_updSnd
    | with_reducible refine keeps_of_fst (by with_reducible assumption) ?_
    | dsimp -zeta -zetaHave only
    | split


theorem keeps_remoteFeature (a b s) (h2 : Keeps K s) (hp : Sub 0x1065 K.may) : Keeps K (remoteFeature a b s) := by
  unfold remoteFeature
  repeat' first
    | with_reducible assumption
    | exact sub_mono hp (by decide)
    | (extract_lets +onlyGivenNames x; have hx : Keeps K x; (on_goal 2 => clear_value x); (on_goal 1 => unfold x; clear x))
    | (extract_lets +onlyGivenNames x; have hx : Keeps K x; (on_goal 1 => unfold x; clear x))
    | (extract_lets +onlyGivenNames x; clear_value x)
    | extract_lets +onlyGivenNames x
    | with_reducible apply keeps_putFeature
    | with_reducible apply keeps_evt
    | with_reducible apply keeps_bump
    | with_reducible refine keeps_of_fst (by with_reducible assumption) ?_
    | dsimp -zeta -zetaHave only
    | split


theorem keeps_remoteRecord (a s) (h1 : Keeps K s) (hp : Sub 0x1065 K.may) : Keeps K (remoteRecord a s) := by
  unfold remoteRecord
  repeat' first
    | with_reducible assumption
    | exact sub_mono hp (by decide)
    | intro _
    | (extract_lets +onlyGivenNames x; clear_value x)
    | extract_lets +onlyGivenNames x
    | with_reducible apply keeps_recordCame
    | with_reducible apply keeps_updSnd
    | with_reducible apply keeps_remoteFeature
    | with_reducible apply keeps_foldl
    | with_reducible apply keeps_foldl_fst
    | with_reducible refine keeps_of_fst (by with_reducible assumption) ?_
    | dsimp -zeta -zetaHave only
    | split


theorem keeps_noteUsed (a b c s) (h3 : Keeps K s) (hp : Sub 0x1000 K.may) : Keeps K (noteUsed a b c s) := by
  unfold noteUsed
  repeat' first
    | with_reducible assumption
    | exact sub_mono hp (by decide)
    | (extract_lets +onlyGivenNames x; clear_value x)
    | extract_lets +onlyGivenNames x
    | with_reducible apply keeps_updSnd
    | with_reducible refine keeps_of_fst (by with_reducible assumption) ?_
    | dsimp -zeta -zetaHave only
    | split


theorem keeps_tapInput (s b c d) (h0 : Keeps K s) : Keeps K (tapInput s b c d).1 := by
  unfold tapInput
  repeat' first
    | with_reducible assumption
    | (extract_lets +onlyGivenNames x; clear_value x)
    | extract_lets +onlyGivenNames x
    | with_reducible apply keeps_free
    | with_reducible refine keeps_of_fst (by with_reducible assumption) ?_
    | dsimp -zeta -zetaHave only
    | split


theorem keeps_tapOne (a b s) (h2 : Keeps K s) (hp : Sub 0x1000 K.may) : Keeps K (tapOne a b s) := by
  unfold tapOne
  repeat' first
    | with_reducible assumption
    | exact sub_mono hp (by decide)
    | (extract_lets +onlyGivenNames x; have hx : Keeps K x; (on_goal 2 => clear_value x); (on_goal 1 => unfold x; clear x))
    | (extract_lets +onlyGivenNames x; have hx : Keeps K x; (on_goal 1 => unfold x; clear x))
    | (extract_lets +onlyGivenNames x; clear_value x)
    | extract_lets +onlyGivenNames x
    | with_reducible apply keeps_tapInput
    | with_reducible apply keeps_bump
    | with_reducible apply keeps_noteUsed
    | with_reducible apply keeps_updSnd
    | with_reducible refine keeps_of_fst (by with_reducible assumption) ?_
    | dsimp -zeta -zetaHave only
    | split


theorem keeps_tapSample (s) (h0 : Keeps K s) (hp : Sub 0x1060 K.may) : Keeps K (tapSample s) := by
  unfold tapSample
  repeat' first
    | with_reducible assumption
    | exact sub_mono hp (by decide)
    | intro _
    | (extract_lets +onlyGivenNames x; have hx : Keeps K x; (on_goal 2 => clear_value x); (on_goal 1 => unfold x; clear x))
    | (extract_lets +onlyGivenNames x; have hx : Keeps K x; (on_goal 1 => unfold x; clear x))
    | (extract_lets +onlyGivenNames x; clear_value x)
    | extract_lets +onlyGivenNames x
    | with_reducible apply keeps_updSnd
    | with_reducible apply keeps_tapOne
    | with_reducible apply keeps_evt
    | with_reducible apply keeps_bump
    | with_reducible apply keeps_foldl
    | with_reducible apply keeps_foldl_fst
    | with_reducible refine keeps_of_fst (by with_reducible assumption) ?_
    | dsimp -zeta -zetaHave only
    | split


theorem keeps_tapsAtFs (s) (h0 : Keeps K s) (hp : Sub 0x1000 K.may) : Keeps K (tapsAtFs s) := by
  unfold tapsAtFs
  repeat' first
    | with_reducible assumption
    | exact sub_mono hp (by decide)
    | (extract_lets +onlyGivenNames x; clear_value x)
    | extract_lets +onlyGivenNames x
    | with_reducible apply keeps_updSnd
    | with_reducible apply keeps_bump
    | with_reducible refine keeps_of_fst (by with_reducible assumption) ?_
    | dsimp -zeta -zetaHave only
    | split


theorem keeps_tapsCommitted (s b) (h0 : Keeps K s) (h1 : Keeps K b) (hp : Sub 0x1000 K.may) : Keeps K (tapsCommitted s b) := by
  unfold tapsCommitted
  repeat' first
    | with_reducible assumption
    | exact sub_mono hp (by decide)
    | (extract_lets +onlyGivenNames x; clear_value x)
    | extract_lets +onlyGivenNames x
    | with_reducible apply keeps_updSnd
    | with_reducible refine keeps_of_fst (by with_reducible assumption) ?_
    | dsimp -zeta -zetaHave only
    | split


theorem keeps_execTdmFrame (a b c s) (h3 : Keeps K s) (hp : Sub 0x1000 K.may) : ∃ t, execTdmFrame a b c s = .next t ∧ Keeps K t := by
  refine ⟨_, rfl, ?_⟩
  repeat' first
    | with_reducible assumption
    | exact sub_mono hp (by decide)
    | exact Or.inr rfl
    | exact Or.inl (may_of hp (by decide))
    | simp only [↓keeps_mk]
    | refine keepsOf_upd ?_ rfl rfl rfl rfl rfl rfl ?_ ?_ ?_ ?_ ?_ ?_ ?_ ?_ ?_ ?_ ?_ ?_ ?_ ?_ ?_ ?_ ?_ ?_ ?_ ?_ ?_ ?_
    | with_reducible apply keeps_tdmFrame
    | dsimp -zeta -zetaHave only


theorem keeps_execTdmLockLoss (a s) (h1 : Keeps K s) (hp : Sub 0x1000 K.may) : ∃ t, execTdmLockLoss a s = .next t ∧ Keeps K t := by
  refine ⟨_, rfl, ?_⟩
  repeat' first
    | with_reducible assumption
    | exact sub_mono hp (by decide)
    | exact Or.inr rfl
    | exact Or.inl (may_of hp (by decide))
    | simp only [↓keeps_mk]
    | refine keepsOf_upd ?_ rfl rfl rfl rfl rfl rfl ?_ ?_ ?_ ?_ ?_ ?_ ?_ ?_ ?_ ?_ ?_ ?_ ?_ ?_ ?_ ?_ ?_ ?_ ?_ ?_ ?_ ?_
    | with_reducible apply keeps_tdmLoss
    | dsimp -zeta -zetaHave only


theorem keeps_execBusSample (a s) (h1 : Keeps K s) (hp : Sub 0x1060 K.may) : ∃ t, execBusSample a s = .next t ∧ Keeps K t := by
  refine ⟨_, rfl, ?_⟩
  repeat' first
    | with_reducible assumption
    | exact sub_mono hp (by decide)
    | exact Or.inr rfl
    | exact Or.inl (may_of hp (by decide))
    | simp only [↓keeps_mk]
    | refine keepsOf_upd ?_ rfl rfl rfl rfl rfl rfl ?_ ?_ ?_ ?_ ?_ ?_ ?_ ?_ ?_ ?_ ?_ ?_ ?_ ?_ ?_ ?_ ?_ ?_ ?_ ?_ ?_ ?_
    | with_reducible apply keeps_busSample
    | dsimp -zeta -zetaHave only


theorem keeps_execTempoEstimate (s) (h0 : Keeps K s) (hp : Sub 0x1060 K.may) : ∃ t, execTempoEstimate s = .next t ∧ Keeps K t := by
  refine ⟨_, rfl, ?_⟩
  repeat' first
    | with_reducible assumption
    | exact sub_mono hp (by decide)
    | exact Or.inr rfl
    | exact Or.inl (may_of hp (by decide))
    | simp only [↓keeps_mk]
    | refine keepsOf_upd ?_ rfl rfl rfl rfl rfl rfl ?_ ?_ ?_ ?_ ?_ ?_ ?_ ?_ ?_ ?_ ?_ ?_ ?_ ?_ ?_ ?_ ?_ ?_ ?_ ?_ ?_ ?_
    | with_reducible apply keeps_tempoEstimate
    | dsimp -zeta -zetaHave only


theorem keeps_execCoastTimeout (s) (h0 : Keeps K s) (hp : Sub 0x1060 K.may) : ∃ t, execCoastTimeout s = .next t ∧ Keeps K t := by
  refine ⟨_, rfl, ?_⟩
  repeat' first
    | with_reducible assumption
    | exact sub_mono hp (by decide)
    | exact Or.inr rfl
    | exact Or.inl (may_of hp (by decide))
    | simp only [↓keeps_mk]
    | refine keepsOf_upd ?_ rfl rfl rfl rfl rfl rfl ?_ ?_ ?_ ?_ ?_ ?_ ?_ ?_ ?_ ?_ ?_ ?_ ?_ ?_ ?_ ?_ ?_ ?_ ?_ ?_ ?_ ?_
    | with_reducible apply keeps_coastTimeout
    | dsimp -zeta -zetaHave only


theorem keeps_execTrackerFirstUse (s) (h0 : Keeps K s) (hp : Sub 0x1000 K.may) : ∃ t, execTrackerFirstUse s = .next t ∧ Keeps K t := by
  refine ⟨_, rfl, ?_⟩
  repeat' first
    | with_reducible assumption
    | exact sub_mono hp (by decide)
    | exact Or.inr rfl
    | exact Or.inl (may_of hp (by decide))
    | simp only [↓keeps_mk]
    | refine keepsOf_upd ?_ rfl rfl rfl rfl rfl rfl ?_ ?_ ?_ ?_ ?_ ?_ ?_ ?_ ?_ ?_ ?_ ?_ ?_ ?_ ?_ ?_ ?_ ?_ ?_ ?_ ?_ ?_
    | with_reducible apply keeps_firstUse
    | dsimp -zeta -zetaHave only


theorem keeps_execBarsync (a s) (h1 : Keeps K s) (hp : Sub 0x1000 K.may) : ∃ t, execBarsync a s = .next t ∧ Keeps K t := by
  refine ⟨_, rfl, ?_⟩
  repeat' first
    | with_reducible assumption
    | exact sub_mono hp (by decide)
    | exact Or.inr rfl
    | exact Or.inl (may_of hp (by decide))
    | simp only [↓keeps_mk]
    | refine keepsOf_upd ?_ rfl rfl rfl rfl rfl rfl ?_ ?_ ?_ ?_ ?_ ?_ ?_ ?_ ?_ ?_ ?_ ?_ ?_ ?_ ?_ ?_ ?_ ?_ ?_ ?_ ?_ ?_
    | with_reducible apply keeps_barSync
    | dsimp -zeta -zetaHave only


theorem keeps_execLtcFrame (a b c d s) (h4 : Keeps K s) (hp : Sub 0x81078 K.may) : ∃ t, execLtcFrame a b c d s = .next t ∧ Keeps K t := by
  refine ⟨_, rfl, ?_⟩
  repeat' first
    | with_reducible assumption
    | exact sub_mono hp (by decide)
    | exact Or.inr rfl
    | exact Or.inl (may_of hp (by decide))
    | simp only [↓keeps_mk]
    | refine keepsOf_upd ?_ rfl rfl rfl rfl rfl rfl ?_ ?_ ?_ ?_ ?_ ?_ ?_ ?_ ?_ ?_ ?_ ?_ ?_ ?_ ?_ ?_ ?_ ?_ ?_ ?_ ?_ ?_
    | with_reducible apply keeps_ltcFrame
    | dsimp -zeta -zetaHave only


theorem keeps_execLtcLost (s) (h0 : Keeps K s) (hp : Sub 0x1060 K.may) : ∃ t, execLtcLost s = .next t ∧ Keeps K t := by
  refine ⟨_, rfl, ?_⟩
  repeat' first
    | with_reducible assumption
    | exact sub_mono hp (by decide)
    | exact Or.inr rfl
    | exact Or.inl (may_of hp (by decide))
    | simp only [↓keeps_mk]
    | refine keepsOf_upd ?_ rfl rfl rfl rfl rfl rfl ?_ ?_ ?_ ?_ ?_ ?_ ?_ ?_ ?_ ?_ ?_ ?_ ?_ ?_ ?_ ?_ ?_ ?_ ?_ ?_ ?_ ?_
    | with_reducible apply keeps_ltcLost
    | dsimp -zeta -zetaHave only


theorem keeps_execRemoteRecordReceive (a s) (h1 : Keeps K s) (hp : Sub 0x1065 K.may) : ∃ t, execRemoteRecordReceive a s = .next t ∧ Keeps K t := by
  refine ⟨_, rfl, ?_⟩
  repeat' first
    | with_reducible assumption
    | exact sub_mono hp (by decide)
    | exact Or.inr rfl
    | exact Or.inl (may_of hp (by decide))
    | simp only [↓keeps_mk]
    | refine keepsOf_upd ?_ rfl rfl rfl rfl rfl rfl ?_ ?_ ?_ ?_ ?_ ?_ ?_ ?_ ?_ ?_ ?_ ?_ ?_ ?_ ?_ ?_ ?_ ?_ ?_ ?_ ?_ ?_
    | with_reducible apply keeps_remoteRecord
    | dsimp -zeta -zetaHave only


theorem keeps_execTapSample (s) (h0 : Keeps K s) (hp : Sub 0x1060 K.may) : ∃ t, execTapSample s = .next t ∧ Keeps K t := by
  refine ⟨_, rfl, ?_⟩
  repeat' first
    | with_reducible assumption
    | exact sub_mono hp (by decide)
    | exact Or.inr rfl
    | exact Or.inl (may_of hp (by decide))
    | simp only [↓keeps_mk]
    | refine keepsOf_upd ?_ rfl rfl rfl rfl rfl rfl ?_ ?_ ?_ ?_ ?_ ?_ ?_ ?_ ?_ ?_ ?_ ?_ ?_ ?_ ?_ ?_ ?_ ?_ ?_ ?_ ?_ ?_
    | with_reducible apply keeps_tapSample
    | dsimp -zeta -zetaHave only


end Sys2Proof.Machine
end

