-- ==== Sys2Proof/Laws/KeepsEth.lean ====
section
/-!
SUPPORT. What the operations of Machine/Eth.lean keep.
-/
namespace Sys2Proof.Machine
open Sys2Proof

variable {K : Keeping}

theorem keeps_Ring_setHead (a b s) (h2 : Keeps K s) : Keeps K (Ring.setHead a b s) := by
  unfold Ring.setHead
  repeat' first
    | with_reducible assumption
    | with_reducible apply keeps_setReg
    | dsimp -zeta -zetaHave only


theorem keeps_readDesc (a b s) (h2 : Keeps K s) (hp : Sub 0x65 K.may) : Keeps K (readDesc a b s).1 := by
  unfold readDesc
  repeat' first
    | with_reducible assumption
    | exact sub_mono hp (by decide)
    | with_reducible apply keeps_rd
    | with_reducible refine keeps_of_fst (by with_reducible assumption) ?_
    | dsimp -zeta -zetaHave only
    | split


theorem keeps_ringReset (a s) (h1 : Keeps K s) : Keeps K (ringReset a s) := by
  unfold ringReset
  repeat' first
    | with_reducible assumption
    | with_reducible apply keeps_setReg
    | dsimp -zeta -zetaHave only


theorem keeps_fillRing (a b c d s) (h4 : Keeps K s) (hp : Sub 0x65 K.may) : Keeps K (fillRing a b c d s).1 := by
  induction b generalizing c d s <;> unfold fillRing
  repeat' first
    | with_reducible assumption
    | exact sub_mono hp (by decide)
    | (extract_lets +onlyGivenNames x; clear_value x)
    | extract_lets +onlyGivenNames x
    | with_reducible apply keeps_readDesc
    | with_reducible apply keeps_wr
    | with_reducible refine keeps_of_fst (by with_reducible assumption) ?_
    | with_reducible apply_assumption -exfalso -symm
    | dsimp -zeta -zetaHave only
    | split


theorem keeps_closeDescs (a b c d e s) (h5 : Keeps K s) (hp : Sub 0x65 K.may) : Keeps K (closeDescs a b c d e s) := by
  unfold closeDescs
  repeat' first
    | with_reducible assumption
    | exact sub_mono hp (by decide)
    | intro _
    | (extract_lets +onlyGivenNames x; have hx : Keeps K x; (on_goal 2 => clear_value x); (on_goal 1 => unfold x; clear x))
    | (extract_lets +onlyGivenNames x; have hx : Keeps K x; (on_goal 1 => unfold x; clear x))
    | (extract_lets +onlyGivenNames x; clear_value x)
    | extract_lets +onlyGivenNames x
    | with_reducible apply keeps_wr'
    | with_reducible apply keeps_foldl
    | with_reducible apply keeps_foldl_fst
    | with_reducible refine keeps_of_fst (by with_reducible assumption) ?_
    | dsimp -zeta -zetaHave only
    | split


theorem keeps_pauseCheck (a b s) (h2 : Keeps K s) (hp : Sub 0x2000 K.may) : Keeps K (pauseCheck a b s) := by
  unfold pauseCheck
  repeat' first
    | with_reducible assumption
    | exact sub_mono hp (by decide)
    | (extract_lets +onlyGivenNames x; have hx : Keeps K x; (on_goal 2 => clear_value x); (on_goal 1 => unfold x; clear x))
    | (extract_lets +onlyGivenNames x; have hx : Keeps K x; (on_goal 1 => unfold x; clear x))
    | (extract_lets +onlyGivenNames x; clear_value x)
    | extract_lets +onlyGivenNames x
    | with_reducible apply keeps_updEth
    | with_reducible apply keeps_queueTx
    | with_reducible refine keeps_of_fst (by with_reducible assumption) ?_
    | dsimp -zeta -zetaHave only
    | split


theorem keeps_toRing (a b c d e f g s) (h7 : Keeps K s) (hp : Sub 0x2065 K.may) : Keeps K (toRing a b c d e f g s) := by
  unfold toRing
  repeat' first
    | with_reducible assumption
    | exact sub_mono hp (by decide)
    | (extract_lets +onlyGivenNames x; have hx : Keeps K x; (on_goal 2 => clear_value x); (on_goal 1 => unfold x; clear x))
    | (extract_lets +onlyGivenNames x; have hx : Keeps K x; (on_goal 1 => unfold x; clear x))
    | (extract_lets +onlyGivenNames x; clear_value x)
    | extract_lets +onlyGivenNames x
    | with_reducible apply keeps_fillRing
    | with_reducible apply keeps_bump
    | with_reducible apply keeps_Ring_setHead
    | with_reducible apply keeps_closeDescs
    | with_reducible apply keeps_pauseCheck
    | with_reducible apply keeps_evt
    | with_reducible refine keeps_of_fst (by with_reducible assumption) ?_
    | dsimp -zeta -zetaHave only
    | split


theorem keeps_wakeFilters (a b s) (h2 : Keeps K s) (hp : Sub 0x2060 K.may) : Keeps K (wakeFilters a b s) := by
  unfold wakeFilters
  repeat' first
    | with_reducible assumption
    | exact sub_mono hp (by decide)
    | with_reducible apply keeps_evt
    | with_reducible apply keeps_bump
    | with_reducible apply keeps_updNet
    | with_reducible refine keeps_of_fst (by with_reducible assumption) ?_
    | dsimp -zeta -zetaHave only
    | split


theorem keeps_setSick (a b s) (h2 : Keeps K s) : Keeps K (setSick a b s) := by
  unfold setSick
  repeat' first
    | with_reducible assumption
    | with_reducible apply keeps_set
    | with_reducible refine keeps_of_fst (by with_reducible assumption) ?_
    | dsimp -zeta -zetaHave only
    | split


theorem keeps_handover (s) (h0 : Keeps K s) (hp : Sub 0x2068 K.may) : Keeps K (handover s) := by
  unfold handover
  repeat' first
    | with_reducible assumption
    | exact sub_mono hp (by decide)
    | (extract_lets +onlyGivenNames x; have hx : Keeps K x; (on_goal 2 => clear_value x); (on_goal 1 => unfold x; clear x))
    | (extract_lets +onlyGivenNames x; have hx : Keeps K x; (on_goal 1 => unfold x; clear x))
    | (extract_lets +onlyGivenNames x; clear_value x)
    | extract_lets +onlyGivenNames x
    | with_reducible apply keeps_set
    | with_reducible apply keeps_updEth
    | with_reducible apply keeps_updPtp
    | with_reducible apply keeps_updTime
    | with_reducible apply keeps_evt
    | with_reducible apply keeps_bump
    | with_reducible refine keeps_of_fst (by with_reducible assumption) ?_
    | dsimp -zeta -zetaHave only
    | split


theorem keeps_leadCheck (s) (h0 : Keeps K s) (hp : Sub 0x2068 K.may) : Keeps K (leadCheck s) := by
  unfold leadCheck
  repeat' first
    | with_reducible assumption
    | exact sub_mono hp (by decide)
    | (extract_lets +onlyGivenNames x; clear_value x)
    | extract_lets +onlyGivenNames x
    | with_reducible apply keeps_handover
    | with_reducible refine keeps_of_fst (by with_reducible assumption) ?_
    | dsimp -zeta -zetaHave only
    | split


theorem keeps_judge (a b s) (h2 : Keeps K s) (hp : Sub 0x2060 K.may) : Keeps K (judge a b s) := by
  unfold judge
  repeat' first
    | with_reducible assumption
    | exact sub_mono hp (by decide)
    | (extract_lets +onlyGivenNames x; have hx : Keeps K x; (on_goal 2 => clear_value x); (on_goal 1 => unfold x; clear x))
    | (extract_lets +onlyGivenNames x; have hx : Keeps K x; (on_goal 1 => unfold x; clear x))
    | with_reducible apply keeps_updPair
    | with_reducible apply keeps_evt
    | with_reducible apply keeps_setSick
    | with_reducible apply keeps_evtIf
    | with_reducible refine keeps_of_fst (by with_reducible assumption) ?_
    | dsimp -zeta -zetaHave only
    | split


theorem keeps_pairOff (s) (h0 : Keeps K s) (hp : Sub 0x2068 K.may) : Keeps K (pairOff s) := by
  unfold pairOff
  repeat' first
    | with_reducible assumption
    | exact sub_mono hp (by decide)
    | intro _
    | with_reducible apply keeps_leadCheck
    | with_reducible apply keeps_judge
    | with_reducible apply keeps_foldl
    | with_reducible apply keeps_foldl_fst
    | with_reducible refine keeps_of_fst (by with_reducible assumption) ?_
    | dsimp -zeta -zetaHave only
    | split


theorem keeps_pathRecover (a s) (h1 : Keeps K s) (hp : Sub 0x2068 K.may) : Keeps K (pathRecover a s) := by
  unfold pathRecover
  repeat' first
    | with_reducible assumption
    | exact sub_mono hp (by decide)
    | (extract_lets +onlyGivenNames x; have hx : Keeps K x; (on_goal 2 => clear_value x); (on_goal 1 => unfold x; clear x))
    | (extract_lets +onlyGivenNames x; have hx : Keeps K x; (on_goal 1 => unfold x; clear x))
    | with_reducible apply keeps_updPair
    | with_reducible apply keeps_leadCheck
    | with_reducible apply keeps_evt
    | with_reducible apply keeps_setSick
    | with_reducible refine keeps_of_fst (by with_reducible assumption) ?_
    | dsimp -zeta -zetaHave only
    | split


theorem keeps_healthWindow (s) (h0 : Keeps K s) (hp : Sub 0x2068 K.may) : Keeps K (healthWindow s) := by
  unfold healthWindow
  repeat' first
    | with_reducible assumption
    | exact sub_mono hp (by decide)
    | intro _
    | (extract_lets +onlyGivenNames x; have hx : ∀ y0 y1, Keeps K y0 → Keeps K (x y0 y1); (on_goal 2 => clear_value x); (on_goal 1 => unfold x; clear x))
    | (extract_lets +onlyGivenNames x; clear_value x)
    | extract_lets +onlyGivenNames x
    | with_reducible apply keeps_judge
    | with_reducible apply keeps_leadCheck
    | with_reducible apply keeps_updPair
    | with_reducible apply_assumption -exfalso -symm
    | with_reducible refine keeps_of_fst (by with_reducible assumption) ?_
    | dsimp -zeta -zetaHave only
    | split


theorem keeps_dualEnd (s) (h0 : Keeps K s) (hp : Sub 0x2068 K.may) : Keeps K (dualEnd s) := by
  unfold dualEnd
  repeat' first
    | with_reducible assumption
    | exact sub_mono hp (by decide)
    | intro _
    | (extract_lets +onlyGivenNames x; have hx : Keeps K x; (on_goal 2 => clear_value x); (on_goal 1 => unfold x; clear x))
    | (extract_lets +onlyGivenNames x; have hx : Keeps K x; (on_goal 1 => unfold x; clear x))
    | (extract_lets +onlyGivenNames x; clear_value x)
    | extract_lets +onlyGivenNames x
    | with_reducible apply keeps_set
    | with_reducible apply keeps_emit
    | with_reducible apply keeps_updEth
    | with_reducible apply keeps_leadCheck
    | with_reducible apply keeps_judge
    | with_reducible apply keeps_updPair
    | with_reducible apply keeps_foldl
    | with_reducible apply keeps_foldl_fst
    | with_reducible refine keeps_of_fst (by with_reducible assumption) ?_
    | dsimp -zeta -zetaHave only
    | split


theorem keeps_pairStart (s) (h0 : Keeps K s) (hp : Sub 0x60 K.may) : Keeps K (pairStart s) := by
  unfold pairStart
  repeat' first
    | with_reducible assumption
    | exact sub_mono hp (by decide)
    | intro _
    | (extract_lets +onlyGivenNames x; have hx : Keeps K x; (on_goal 2 => clear_value x); (on_goal 1 => unfold x; clear x))
    | (extract_lets +onlyGivenNames x; have hx : Keeps K x; (on_goal 1 => unfold x; clear x))
    | (extract_lets +onlyGivenNames x; clear_value x)
    | extract_lets +onlyGivenNames x
    | with_reducible apply keeps_evt
    | with_reducible apply keeps_setSick
    | with_reducible apply keeps_evtIf
    | with_reducible apply keeps_set
    | with_reducible apply keeps_foldl
    | with_reducible apply keeps_foldl_fst
    | with_reducible refine keeps_of_fst (by with_reducible assumption) ?_
    | dsimp -zeta -zetaHave only
    | split


theorem keeps_pairSwap (a b s) (h2 : Keeps K s) (hp : Sub 0x2068 K.may) : Keeps K (pairSwap a b s) := by
  unfold pairSwap
  repeat' first
    | with_reducible assumption
    | exact sub_mono hp (by decide)
    | with_reducible apply keeps_fault
    | with_reducible apply keeps_handover
    | with_reducible refine keeps_of_fst (by with_reducible assumption) ?_
    | dsimp -zeta -zetaHave only
    | split


theorem keeps_pairCfg (a s) (h1 : Keeps K s) (hp : Sub 0x2068 K.may) : Keeps K (pairCfg a s) := by
  unfold pairCfg
  repeat' first
    | with_reducible assumption
    | exact sub_mono hp (by decide)
    | (extract_lets +onlyGivenNames x; have hx : Keeps K x; (on_goal 2 => clear_value x); (on_goal 1 => unfold x; clear x))
    | (extract_lets +onlyGivenNames x; have hx : Keeps K x; (on_goal 1 => unfold x; clear x))
    | (extract_lets +onlyGivenNames x; clear_value x)
    | extract_lets +onlyGivenNames x
    | with_reducible apply keeps_setReg
    | with_reducible apply keeps_set
    | with_reducible apply keeps_pairStart
    | with_reducible apply keeps_leadCheck
    | with_reducible refine keeps_of_fst (by with_reducible assumption) ?_
    | dsimp -zeta -zetaHave only
    | split


theorem keeps_linkDown (a s) (h1 : Keeps K s) (hp : Sub 0x2068 K.may) : Keeps K (linkDown a s) := by
  unfold linkDown
  repeat' first
    | with_reducible assumption
    | exact sub_mono hp (by decide)
    | (extract_lets +onlyGivenNames x; have hx : Keeps K x; (on_goal 2 => clear_value x); (on_goal 1 => unfold x; clear x))
    | (extract_lets +onlyGivenNames x; have hx : Keeps K x; (on_goal 1 => unfold x; clear x))
    | with_reducible apply keeps_evt
    | with_reducible apply keeps_updEth
    | with_reducible apply keeps_set
    | with_reducible apply keeps_pairOff
    | with_reducible apply keeps_refresh
    | with_reducible apply keeps_judge
    | with_reducible refine keeps_of_fst (by with_reducible assumption) ?_
    | dsimp -zeta -zetaHave only
    | split


theorem keeps_linksOff (s) (h0 : Keeps K s) (hp : Sub 0x2068 K.may) : Keeps K (linksOff s) := by
  unfold linksOff
  repeat' first
    | with_reducible assumption
    | exact sub_mono hp (by decide)
    | intro _
    | with_reducible apply keeps_linkDown
    | with_reducible apply keeps_foldl
    | with_reducible apply keeps_foldl_fst
    | with_reducible refine keeps_of_fst (by with_reducible assumption) ?_
    | dsimp -zeta -zetaHave only
    | split


theorem keeps_linkUp (a s) (h1 : Keeps K s) (hp : Sub 0x2060 K.may) : Keeps K (linkUp a s) := by
  unfold linkUp
  repeat' first
    | with_reducible assumption
    | exact sub_mono hp (by decide)
    | (extract_lets +onlyGivenNames x; have hx : Keeps K x; (on_goal 2 => clear_value x); (on_goal 1 => unfold x; clear x))
    | (extract_lets +onlyGivenNames x; have hx : Keeps K x; (on_goal 1 => unfold x; clear x))
    | with_reducible apply keeps_emit
    | with_reducible apply keeps_refresh
    | with_reducible apply keeps_evt
    | with_reducible apply keeps_set
    | with_reducible apply keeps_updEth
    | with_reducible refine keeps_of_fst (by with_reducible assumption) ?_
    | dsimp -zeta -zetaHave only
    | split


theorem keeps_countMiss (a b s) (h2 : Keeps K s) (hp : Sub 0x2000 K.may) : Keeps K (countMiss a b s) := by
  unfold countMiss
  repeat' first
    | with_reducible assumption
    | exact sub_mono hp (by decide)
    | (extract_lets +onlyGivenNames x; have hx : Keeps K x; (on_goal 2 => clear_value x); (on_goal 1 => unfold x; clear x))
    | (extract_lets +onlyGivenNames x; have hx : Keeps K x; (on_goal 1 => unfold x; clear x))
    | with_reducible apply keeps_bump
    | with_reducible apply keeps_updPair
    | with_reducible refine keeps_of_fst (by with_reducible assumption) ?_
    | dsimp -zeta -zetaHave only
    | split


theorem keeps_rtpPacket (a b c s) (h3 : Keeps K s) (hp : Sub 0x3165 K.may) : Keeps K (rtpPacket a b c s) := by
  unfold rtpPacket
  repeat' first
    | with_reducible assumption
    | exact sub_mono hp (by decide)
    | intro _
    | (extract_lets +onlyGivenNames x; have hx : Keeps K x; (on_goal 2 => clear_value x); (on_goal 1 => unfold x; clear x))
    | (extract_lets +onlyGivenNames x; have hx : Keeps K x; (on_goal 1 => unfold x; clear x))
    | (extract_lets +onlyGivenNames x; clear_value x)
    | extract_lets +onlyGivenNames x
    | with_reducible apply keeps_updNet
    | with_reducible apply keeps_countMiss
    | with_reducible apply keeps_aesMissing
    | with_reducible apply keeps_bump
    | with_reducible apply keeps_videoPacket
    | with_reducible apply keeps_aesPacket
    | with_reducible apply keeps_foldl
    | with_reducible apply keeps_foldl_fst
    | with_reducible refine keeps_of_fst (by with_reducible assumption) ?_
    | dsimp -zeta -zetaHave only
    | split


theorem keeps_sacnPacket (a s) (h1 : Keeps K s) (hp : Sub 0x2060 K.may) : Keeps K (sacnPacket a s) := by
  unfold sacnPacket
  repeat' first
    | with_reducible assumption
    | exact sub_mono hp (by decide)
    | intro _
    | (extract_lets +onlyGivenNames x; have hx : ∀ y0, Keeps K y0 → Keeps K (x y0); (on_goal 2 => clear_value x); (on_goal 1 => unfold x; clear x))
    | (extract_lets +onlyGivenNames x; clear_value x)
    | extract_lets +onlyGivenNames x
    | with_reducible apply keeps_updNet
    | with_reducible apply keeps_bump
    | with_reducible apply keeps_evt
    | with_reducible apply_assumption -exfalso -symm
    | with_reducible refine keeps_of_fst (by with_reducible assumption) ?_
    | dsimp -zeta -zetaHave only
    | split


theorem keeps_sacnLoss (a s) (h1 : Keeps K s) (hp : Sub 0x2000 K.may) : Keeps K (sacnLoss a s) := by
  unfold sacnLoss
  repeat' first
    | with_reducible assumption
    | exact sub_mono hp (by decide)
    | with_reducible apply keeps_updNet
    | with_reducible refine keeps_of_fst (by with_reducible assumption) ?_
    | dsimp -zeta -zetaHave only
    | split


theorem keeps_pauseReceive (a b s) (h2 : Keeps K s) (hp : Sub 0x2060 K.may) : Keeps K (pauseReceive a b s) := by
  unfold pauseReceive
  repeat' first
    | with_reducible assumption
    | exact sub_mono hp (by decide)
    | (extract_lets +onlyGivenNames x; have hx : Keeps K x; (on_goal 2 => clear_value x); (on_goal 1 => unfold x; clear x))
    | (extract_lets +onlyGivenNames x; have hx : Keeps K x; (on_goal 1 => unfold x; clear x))
    | (extract_lets +onlyGivenNames x; clear_value x)
    | extract_lets +onlyGivenNames x
    | with_reducible apply keeps_evt
    | with_reducible apply keeps_bump
    | with_reducible apply keeps_set
    | with_reducible apply keeps_updEth
    | with_reducible refine keeps_of_fst (by with_reducible assumption) ?_
    | dsimp -zeta -zetaHave only
    | split


theorem keeps_pauseExpiry (a s) (h1 : Keeps K s) (hp : Sub 0x2000 K.may) : Keeps K (pauseExpiry a s) := by
  unfold pauseExpiry
  repeat' first
    | with_reducible assumption
    | exact sub_mono hp (by decide)
    | with_reducible apply keeps_set
    | with_reducible apply keeps_updEth
    | dsimp -zeta -zetaHave only


theorem keeps_residual (a b s) (h2 : Keeps K s) (hp : Sub 0x2068 K.may) : Keeps K (residual a b s) := by
  unfold residual
  repeat' first
    | with_reducible assumption
    | exact sub_mono hp (by decide)
    | (extract_lets +onlyGivenNames x; have hx : Keeps K x; (on_goal 2 => clear_value x); (on_goal 1 => unfold x; clear x))
    | (extract_lets +onlyGivenNames x; have hx : Keeps K x; (on_goal 1 => unfold x; clear x))
    | (extract_lets +onlyGivenNames x; clear_value x)
    | extract_lets +onlyGivenNames x
    | with_reducible apply keeps_updPair
    | with_reducible apply keeps_leadCheck
    | with_reducible apply keeps_judge
    | with_reducible refine keeps_of_fst (by with_reducible assumption) ?_
    | dsimp -zeta -zetaHave only
    | split


theorem keeps_ptpMessage (a b c s) (h3 : Keeps K s) (hp : Sub 0x19FE7C K.may) : Keeps K (ptpMessage a b c s) := by
  unfold ptpMessage
  repeat' first
    | with_reducible assumption
    | exact sub_mono hp (by decide)
    | intro _
    | (extract_lets +onlyGivenNames x; have hx : Keeps K x; (on_goal 2 => clear_value x); (on_goal 1 => unfold x; clear x))
    | (extract_lets +onlyGivenNames x; have hx : Keeps K x; (on_goal 1 => unfold x; clear x))
    | (extract_lets +onlyGivenNames x; clear_value x)
    | extract_lets +onlyGivenNames x
    | with_reducible apply keeps_updPair
    | with_reducible apply keeps_residual
    | with_reducible apply keeps_withStep
    | with_reducible apply keeps_ptpReceive
    | with_reducible refine keeps_of_fst (by with_reducible assumption) ?_
    | dsimp -zeta -zetaHave only
    | split


theorem keeps_arpReceive (a b s) (h2 : Keeps K s) (hp : Sub 0x2000 K.may) : Keeps K (arpReceive a b s) := by
  unfold arpReceive
  repeat' first
    | with_reducible assumption
    | exact sub_mono hp (by decide)
    | (extract_lets +onlyGivenNames x; clear_value x)
    | extract_lets +onlyGivenNames x
    | with_reducible apply keeps_bump
    | with_reducible apply keeps_queueLead
    | with_reducible refine keeps_of_fst (by with_reducible assumption) ?_
    | dsimp -zeta -zetaHave only
    | split


theorem keeps_caneStore (a s) (h1 : Keeps K s) (hp : Sub 0x2060 K.may) : Keeps K (caneStore a s) := by
  unfold caneStore
  repeat' first
    | with_reducible assumption
    | exact sub_mono hp (by decide)
    | (extract_lets +onlyGivenNames x; clear_value x)
    | extract_lets +onlyGivenNames x
    | with_reducible apply keeps_updNet
    | with_reducible apply keeps_evt
    | with_reducible apply keeps_bump
    | with_reducible refine keeps_of_fst (by with_reducible assumption) ?_
    | dsimp -zeta -zetaHave only
    | split


theorem keeps_consume (a b c d e f s) (h6 : Keeps K s) (hp : Sub 0x19FF7D K.may) : Keeps K (consume a b c d e f s) := by
  unfold consume
  repeat' first
    | with_reducible assumption
    | exact sub_mono hp (by decide)
    | intro _
    | (extract_lets +onlyGivenNames x; clear_value x)
    | extract_lets +onlyGivenNames x
    | with_reducible apply keeps_ptpMessage
    | with_reducible apply keeps_rtpPacket
    | with_reducible apply keeps_videoLost
    | with_reducible apply keeps_aesMissing
    | with_reducible apply keeps_sacnPacket
    | with_reducible apply keeps_inDrop
    | with_reducible apply keeps_updVen
    | with_reducible apply keeps_caneStore
    | with_reducible apply keeps_arpReceive
    | with_reducible apply keeps_foldl
    | with_reducible apply keeps_foldl_fst
    | with_reducible refine keeps_of_fst (by with_reducible assumption) ?_
    | dsimp -zeta -zetaHave only
    | split


theorem keeps_countBytes (a b c s) (h3 : Keeps K s) (hp : Sub 0x2000 K.may) : Keeps K (countBytes a b c s) := by
  unfold countBytes
  repeat' first
    | with_reducible assumption
    | exact sub_mono hp (by decide)
    | (extract_lets +onlyGivenNames x; have hx : Keeps K x; (on_goal 2 => clear_value x); (on_goal 1 => unfold x; clear x))
    | (extract_lets +onlyGivenNames x; have hx : Keeps K x; (on_goal 1 => unfold x; clear x))
    | (extract_lets +onlyGivenNames x; clear_value x)
    | extract_lets +onlyGivenNames x
    | with_reducible apply keeps_updEth
    | with_reducible apply keeps_bump
    | with_reducible refine keeps_of_fst (by with_reducible assumption) ?_
    | dsimp -zeta -zetaHave only
    | split


theorem keeps_ethReceive (a b c d s) (h4 : Keeps K s) (hp : Sub 0x19FF7D K.may) : Keeps K (ethReceive a b c d s) := by
  unfold ethReceive
  repeat' first
    | with_reducible assumption
    | exact sub_mono hp (by decide)
    | (extract_lets +onlyGivenNames x; have hx : Keeps K x; (on_goal 2 => clear_value x); (on_goal 1 => unfold x; clear x))
    | (extract_lets +onlyGivenNames x; have hx : Keeps K x; (on_goal 1 => unfold x; clear x))
    | (extract_lets +onlyGivenNames x; clear_value x)
    | extract_lets +onlyGivenNames x
    | with_reducible apply keeps_bump
    | with_reducible apply keeps_pauseReceive
    | with_reducible apply keeps_wakeFilters
    | with_reducible apply keeps_countBytes
    | with_reducible apply keeps_toRing
    | with_reducible apply keeps_updPair
    | with_reducible apply keeps_consume
    | with_reducible refine keeps_of_fst (by with_reducible assumption) ?_
    | dsimp -zeta -zetaHave only
    | split


theorem keeps_readChain (a b c d s) (h4 : Keeps K s) (hp : Sub 0x65 K.may) : Keeps K (readChain a b c d s).1 := by
  induction c generalizing b d s <;> unfold readChain
  repeat' first
    | with_reducible assumption
    | exact sub_mono hp (by decide)
    | with_reducible apply keeps_readDesc
    | with_reducible refine keeps_of_fst (by with_reducible assumption) ?_
    | with_reducible apply_assumption -exfalso -symm
    | dsimp -zeta -zetaHave only
    | split


theorem keeps_sendFrame (a b s) (h2 : Keeps K s) (hp : Sub 0x19FF7D K.may) : Keeps K (sendFrame a b s) := by
  unfold sendFrame
  repeat' first
    | with_reducible assumption
    | exact sub_mono hp (by decide)
    | (extract_lets +onlyGivenNames x; have hx : Keeps K x; (on_goal 2 => clear_value x); (on_goal 1 => unfold x; clear x))
    | (extract_lets +onlyGivenNames x; have hx : Keeps K x; (on_goal 1 => unfold x; clear x))
    | with_reducible apply keeps_ptpDepart
    | with_reducible apply keeps_countBytes
    | with_reducible apply keeps_bump
    | with_reducible apply keeps_ethReceive
    | with_reducible apply keeps_emit
    | with_reducible refine keeps_of_fst (by with_reducible assumption) ?_
    | dsimp -zeta -zetaHave only
    | split


theorem keeps_sendRing (a b s) (h2 : Keeps K s) (hp : Sub 0x19FF7D K.may) : Keeps K (sendRing a b s).1 := by
  unfold sendRing
  repeat' first
    | with_reducible assumption
    | exact sub_mono hp (by decide)
    | intro _
    | (extract_lets +onlyGivenNames x; have hx : Keeps K x; (on_goal 2 => clear_value x); (on_goal 1 => unfold x; clear x))
    | (extract_lets +onlyGivenNames x; have hx : Keeps K x; (on_goal 1 => unfold x; clear x))
    | (extract_lets +onlyGivenNames x; have hx : ∀ y0 y1, Keeps K y1 → Keeps K (x y0 y1); (on_goal 2 => clear_value x); (on_goal 1 => unfold x; clear x))
    | (extract_lets +onlyGivenNames x; clear_value x)
    | extract_lets +onlyGivenNames x
    | with_reducible apply keeps_readChain
    | with_reducible apply keeps_rd
    | with_reducible apply keeps_wr'
    | with_reducible apply keeps_Ring_setHead
    | with_reducible apply keeps_sendFrame
    | with_reducible apply keeps_queueTx
    | with_reducible apply keeps_evt
    | with_reducible apply_assumption -exfalso -symm
    | with_reducible apply keeps_foldl
    | with_reducible apply keeps_foldl_fst
    | with_reducible refine keeps_of_fst (by with_reducible assumption) ?_
    | dsimp -zeta -zetaHave only
    | split


theorem keeps_takeTx (a b s) (h2 : Keeps K s) (hp : Sub 0x2000 K.may) : Keeps K (takeTx a b s).1 := by
  unfold takeTx
  repeat' first
    | with_reducible assumption
    | exact sub_mono hp (by decide)
    | with_reducible apply keeps_updEth
    | with_reducible refine keeps_of_fst (by with_reducible assumption) ?_
    | dsimp -zeta -zetaHave only
    | split


theorem keeps_ptpTransmit (a b s) (h2 : Keeps K s) (hp : Sub 0x19FF7D K.may) : Keeps K (ptpTransmit a b s) := by
  unfold ptpTransmit
  repeat' first
    | with_reducible assumption
    | exact sub_mono hp (by decide)
    | (extract_lets +onlyGivenNames x; have hx : Keeps K x; (on_goal 2 => clear_value x); (on_goal 1 => unfold x; clear x))
    | (extract_lets +onlyGivenNames x; have hx : Keeps K x; (on_goal 1 => unfold x; clear x))
    | with_reducible apply keeps_ptpOriginate
    | with_reducible apply keeps_takeTx
    | with_reducible apply keeps_sendFrame
    | with_reducible refine keeps_of_fst (by with_reducible assumption) ?_
    | dsimp -zeta -zetaHave only
    | split


theorem keeps_ethTransmit (a s) (h1 : Keeps K s) (hp : Sub 0x19FF7D K.may) : Keeps K (ethTransmit a s) := by
  unfold ethTransmit
  repeat' first
    | with_reducible assumption
    | exact sub_mono hp (by decide)
    | (extract_lets +onlyGivenNames x; clear_value x)
    | extract_lets +onlyGivenNames x
    | with_reducible apply keeps_takeTx
    | with_reducible apply keeps_sendFrame
    | with_reducible apply keeps_bump
    | with_reducible apply keeps_sendRing
    | with_reducible refine keeps_of_fst (by with_reducible assumption) ?_
    | dsimp -zeta -zetaHave only
    | split


theorem keeps_rxTail (a b c s) (h3 : Keeps K s) (hp : Sub 0x2000 K.may) : Keeps K (rxTail a b c s) := by
  unfold rxTail
  repeat' first
    | with_reducible assumption
    | exact sub_mono hp (by decide)
    | with_reducible apply keeps_pauseCheck
    | with_reducible apply keeps_setReg
    | dsimp -zeta -zetaHave only


theorem keeps_txTail (a b s) (h2 : Keeps K s) : Keeps K (txTail a b s) := by
  unfold txTail
  repeat' first
    | with_reducible assumption
    | with_reducible apply keeps_setReg
    | with_reducible refine keeps_of_fst (by with_reducible assumption) ?_
    | dsimp -zeta -zetaHave only
    | split


theorem keeps_execSacnDataLoss (a s) (h1 : Keeps K s) (hp : Sub 0x2000 K.may) : ∃ t, execSacnDataLoss a s = .next t ∧ Keeps K t := by
  refine ⟨_, rfl, ?_⟩
  repeat' first
    | with_reducible assumption
    | exact sub_mono hp (by decide)
    | exact Or.inr rfl
    | exact Or.inl (may_of hp (by decide))
    | simp only [↓keeps_mk]
    | refine keepsOf_upd ?_ rfl rfl rfl rfl rfl rfl ?_ ?_ ?_ ?_ ?_ ?_ ?_ ?_ ?_ ?_ ?_ ?_ ?_ ?_ ?_ ?_ ?_ ?_ ?_ ?_ ?_ ?_
    | with_reducible apply keeps_sacnLoss
    | dsimp -zeta -zetaHave only


theorem keeps_execLinkDown (a s) (h1 : Keeps K s) (hp : Sub 0x2068 K.may) : ∃ t, execLinkDown a s = .next t ∧ Keeps K t := by
  refine ⟨_, rfl, ?_⟩
  repeat' first
    | with_reducible assumption
    | exact sub_mono hp (by decide)
    | exact Or.inr rfl
    | exact Or.inl (may_of hp (by decide))
    | simp only [↓keeps_mk]
    | refine keepsOf_upd ?_ rfl rfl rfl rfl rfl rfl ?_ ?_ ?_ ?_ ?_ ?_ ?_ ?_ ?_ ?_ ?_ ?_ ?_ ?_ ?_ ?_ ?_ ?_ ?_ ?_ ?_ ?_
    | with_reducible apply keeps_linkDown
    | dsimp -zeta -zetaHave only


theorem keeps_execLinkUp (a s) (h1 : Keeps K s) (hp : Sub 0x2060 K.may) : ∃ t, execLinkUp a s = .next t ∧ Keeps K t := by
  refine ⟨_, rfl, ?_⟩
  repeat' first
    | with_reducible assumption
    | exact sub_mono hp (by decide)
    | exact Or.inr rfl
    | exact Or.inl (may_of hp (by decide))
    | simp only [↓keeps_mk]
    | refine keepsOf_upd ?_ rfl rfl rfl rfl rfl rfl ?_ ?_ ?_ ?_ ?_ ?_ ?_ ?_ ?_ ?_ ?_ ?_ ?_ ?_ ?_ ?_ ?_ ?_ ?_ ?_ ?_ ?_
    | with_reducible apply keeps_linkUp
    | dsimp -zeta -zetaHave only


theorem keeps_execPauseReceive (a b s) (h2 : Keeps K s) (hp : Sub 0x2060 K.may) : ∃ t, execPauseReceive a b s = .next t ∧ Keeps K t := by
  refine ⟨_, rfl, ?_⟩
  repeat' first
    | with_reducible assumption
    | exact sub_mono hp (by decide)
    | exact Or.inr rfl
    | exact Or.inl (may_of hp (by decide))
    | simp only [↓keeps_mk]
    | refine keepsOf_upd ?_ rfl rfl rfl rfl rfl rfl ?_ ?_ ?_ ?_ ?_ ?_ ?_ ?_ ?_ ?_ ?_ ?_ ?_ ?_ ?_ ?_ ?_ ?_ ?_ ?_ ?_ ?_
    | with_reducible apply keeps_pauseReceive
    | dsimp -zeta -zetaHave only


theorem keeps_execPauseExpiry (a s) (h1 : Keeps K s) (hp : Sub 0x2000 K.may) : ∃ t, execPauseExpiry a s = .next t ∧ Keeps K t := by
  refine ⟨_, rfl, ?_⟩
  repeat' first
    | with_reducible assumption
    | exact sub_mono hp (by decide)
    | exact Or.inr rfl
    | exact Or.inl (may_of hp (by decide))
    | simp only [↓keeps_mk]
    | refine keepsOf_upd ?_ rfl rfl rfl rfl rfl rfl ?_ ?_ ?_ ?_ ?_ ?_ ?_ ?_ ?_ ?_ ?_ ?_ ?_ ?_ ?_ ?_ ?_ ?_ ?_ ?_ ?_ ?_
    | with_reducible apply keeps_pauseExpiry
    | dsimp -zeta -zetaHave only


theorem keeps_execPauseGenerate (a s) (h1 : Keeps K s) (hp : Sub 0x2000 K.may) : ∃ t, execPauseGenerate a s = .next t ∧ Keeps K t := by
  refine ⟨_, rfl, ?_⟩
  repeat' first
    | with_reducible assumption
    | exact sub_mono hp (by decide)
    | exact Or.inr rfl
    | exact Or.inl (may_of hp (by decide))
    | simp only [↓keeps_mk]
    | refine keepsOf_upd ?_ rfl rfl rfl rfl rfl rfl ?_ ?_ ?_ ?_ ?_ ?_ ?_ ?_ ?_ ?_ ?_ ?_ ?_ ?_ ?_ ?_ ?_ ?_ ?_ ?_ ?_ ?_
    | with_reducible apply keeps_pauseCheck
    | dsimp -zeta -zetaHave only


theorem keeps_execRxtailWrite (a b c s) (h3 : Keeps K s) (hp : Sub 0x2000 K.may) : ∃ t, execRxtailWrite a b c s = .next t ∧ Keeps K t := by
  refine ⟨_, rfl, ?_⟩
  repeat' first
    | with_reducible assumption
    | exact sub_mono hp (by decide)
    | exact Or.inr rfl
    | exact Or.inl (may_of hp (by decide))
    | simp only [↓keeps_mk]
    | refine keepsOf_upd ?_ rfl rfl rfl rfl rfl rfl ?_ ?_ ?_ ?_ ?_ ?_ ?_ ?_ ?_ ?_ ?_ ?_ ?_ ?_ ?_ ?_ ?_ ?_ ?_ ?_ ?_ ?_
    | with_reducible apply keeps_rxTail
    | dsimp -zeta -zetaHave only


theorem keeps_execTxtailWrite (a b s) (h2 : Keeps K s) : ∃ t, execTxtailWrite a b s = .next t ∧ Keeps K t := by
  refine ⟨_, rfl, ?_⟩
  repeat' first
    | with_reducible assumption
    | exact Or.inr rfl
    | simp only [↓keeps_mk]
    | refine keepsOf_upd ?_ rfl rfl rfl rfl rfl rfl ?_ ?_ ?_ ?_ ?_ ?_ ?_ ?_ ?_ ?_ ?_ ?_ ?_ ?_ ?_ ?_ ?_ ?_ ?_ ?_ ?_ ?_
    | with_reducible apply keeps_txTail
    | dsimp -zeta -zetaHave only


theorem keeps_execEthFrameTransmit (a s) (h1 : Keeps K s) (hp : Sub 0x19FF7D K.may) : ∃ t, execEthFrameTransmit a s = .next t ∧ Keeps K t := by
  refine ⟨_, rfl, ?_⟩
  repeat' first
    | with_reducible assumption
    | exact sub_mono hp (by decide)
    | exact Or.inr rfl
    | exact Or.inl (may_of hp (by decide))
    | simp only [↓keeps_mk]
    | refine keepsOf_upd ?_ rfl rfl rfl rfl rfl rfl ?_ ?_ ?_ ?_ ?_ ?_ ?_ ?_ ?_ ?_ ?_ ?_ ?_ ?_ ?_ ?_ ?_ ?_ ?_ ?_ ?_ ?_
    | with_reducible apply keeps_ethTransmit
    | dsimp -zeta -zetaHave only


theorem keeps_execPtpEventTransmit (a b s) (h2 : Keeps K s) (hp : Sub 0x19FF7D K.may) : ∃ t, execPtpEventTransmit a b s = .next t ∧ Keeps K t := by
  refine ⟨_, rfl, ?_⟩
  repeat' first
    | with_reducible assumption
    | exact sub_mono hp (by decide)
    | exact Or.inr rfl
    | exact Or.inl (may_of hp (by decide))
    | simp only [↓keeps_mk]
    | refine keepsOf_upd ?_ rfl rfl rfl rfl rfl rfl ?_ ?_ ?_ ?_ ?_ ?_ ?_ ?_ ?_ ?_ ?_ ?_ ?_ ?_ ?_ ?_ ?_ ?_ ?_ ?_ ?_ ?_
    | with_reducible apply keeps_ptpTransmit
    | dsimp -zeta -zetaHave only


theorem keeps_execHealthWindowEnd (s) (h0 : Keeps K s) (hp : Sub 0x2068 K.may) : ∃ t, execHealthWindowEnd s = .next t ∧ Keeps K t := by
  refine ⟨_, rfl, ?_⟩
  repeat' first
    | with_reducible assumption
    | exact sub_mono hp (by decide)
    | exact Or.inr rfl
    | exact Or.inl (may_of hp (by decide))
    | simp only [↓keeps_mk]
    | refine keepsOf_upd ?_ rfl rfl rfl rfl rfl rfl ?_ ?_ ?_ ?_ ?_ ?_ ?_ ?_ ?_ ?_ ?_ ?_ ?_ ?_ ?_ ?_ ?_ ?_ ?_ ?_ ?_ ?_
    | with_reducible apply keeps_healthWindow
    | dsimp -zeta -zetaHave only


theorem keeps_execPathRecover (a s) (h1 : Keeps K s) (hp : Sub 0x2068 K.may) : ∃ t, execPathRecover a s = .next t ∧ Keeps K t := by
  refine ⟨_, rfl, ?_⟩
  repeat' first
    | with_reducible assumption
    | exact sub_mono hp (by decide)
    | exact Or.inr rfl
    | exact Or.inl (may_of hp (by decide))
    | simp only [↓keeps_mk]
    | refine keepsOf_upd ?_ rfl rfl rfl rfl rfl rfl ?_ ?_ ?_ ?_ ?_ ?_ ?_ ?_ ?_ ?_ ?_ ?_ ?_ ?_ ?_ ?_ ?_ ?_ ?_ ?_ ?_ ?_
    | with_reducible apply keeps_pathRecover
    | dsimp -zeta -zetaHave only


theorem keeps_execSwap (a b s) (h2 : Keeps K s) (hp : Sub 0x2068 K.may) : ∃ t, execSwap a b s = .next t ∧ Keeps K t := by
  refine ⟨_, rfl, ?_⟩
  repeat' first
    | with_reducible assumption
    | exact sub_mono hp (by decide)
    | exact Or.inr rfl
    | exact Or.inl (may_of hp (by decide))
    | simp only [↓keeps_mk]
    | refine keepsOf_upd ?_ rfl rfl rfl rfl rfl rfl ?_ ?_ ?_ ?_ ?_ ?_ ?_ ?_ ?_ ?_ ?_ ?_ ?_ ?_ ?_ ?_ ?_ ?_ ?_ ?_ ?_ ?_
    | with_reducible apply keeps_pairSwap
    | dsimp -zeta -zetaHave only


theorem keeps_execDualWindowEnd (s) (h0 : Keeps K s) (hp : Sub 0x2068 K.may) : ∃ t, execDualWindowEnd s = .next t ∧ Keeps K t := by
  refine ⟨_, rfl, ?_⟩
  repeat' first
    | with_reducible assumption
    | exact sub_mono hp (by decide)
    | exact Or.inr rfl
    | exact Or.inl (may_of hp (by decide))
    | simp only [↓keeps_mk]
    | refine keepsOf_upd ?_ rfl rfl rfl rfl rfl rfl ?_ ?_ ?_ ?_ ?_ ?_ ?_ ?_ ?_ ?_ ?_ ?_ ?_ ?_ ?_ ?_ ?_ ?_ ?_ ?_ ?_ ?_
    | with_reducible apply keeps_dualEnd
    | dsimp -zeta -zetaHave only


theorem keeps_execPairingStart (s) (h0 : Keeps K s) (hp : Sub 0x60 K.may) : ∃ t, execPairingStart s = .next t ∧ Keeps K t := by
  refine ⟨_, rfl, ?_⟩
  repeat' first
    | with_reducible assumption
    | exact sub_mono hp (by decide)
    | exact Or.inr rfl
    | exact Or.inl (may_of hp (by decide))
    | simp only [↓keeps_mk]
    | refine keepsOf_upd ?_ rfl rfl rfl rfl rfl rfl ?_ ?_ ?_ ?_ ?_ ?_ ?_ ?_ ?_ ?_ ?_ ?_ ?_ ?_ ?_ ?_ ?_ ?_ ?_ ?_ ?_ ?_
    | with_reducible apply keeps_pairStart
    | dsimp -zeta -zetaHave only


end Sys2Proof.Machine
end

