-- ==== Sys2Proof/Laws/KeepsFabric.lean ====
section
/-!
SUPPORT. What the operations of Machine/Fabric.lean keep.
-/
namespace Sys2Proof.Machine
open Sys2Proof

variable {K : Keeping}

theorem keeps_updFab (s b) (h0 : Keeps K s) (hp : Sub 0x8000 K.may) : Keeps K (updFab s b) := by
  unfold updFab
  repeat' first
    | with_reducible assumption
    | exact sub_mono hp (by decide)
    | exact Or.inr rfl
    | exact Or.inl (may_of hp (by decide))
    | simp only [↓keeps_mk]
    | refine keepsOf_upd ?_ rfl rfl rfl rfl rfl rfl ?_ ?_ ?_ ?_ ?_ ?_ ?_ ?_ ?_ ?_ ?_ ?_ ?_ ?_ ?_ ?_ ?_ ?_ ?_ ?_ ?_ ?_
    | dsimp -zeta -zetaHave only


theorem keeps_updBru (s b c) (h0 : Keeps K s) (hp : Sub 0x4000 K.may) : Keeps K (updBru s b c) := by
  unfold updBru
  repeat' first
    | with_reducible assumption
    | exact sub_mono hp (by decide)
    | exact Or.inr rfl
    | exact Or.inl (may_of hp (by decide))
    | simp only [↓keeps_mk]
    | refine keepsOf_upd ?_ rfl rfl rfl rfl rfl rfl ?_ ?_ ?_ ?_ ?_ ?_ ?_ ?_ ?_ ?_ ?_ ?_ ?_ ?_ ?_ ?_ ?_ ?_ ?_ ?_ ?_ ?_
    | dsimp -zeta -zetaHave only


theorem keeps_fabSync (s) (h0 : Keeps K s) (hp : Sub 0x68 K.may) : Keeps K (fabSync s) := by
  unfold fabSync
  repeat' first
    | with_reducible assumption
    | exact sub_mono hp (by decide)
    | (extract_lets +onlyGivenNames x; have hx : Keeps K x; (on_goal 2 => clear_value x); (on_goal 1 => unfold x; clear x))
    | (extract_lets +onlyGivenNames x; have hx : Keeps K x; (on_goal 1 => unfold x; clear x))
    | (extract_lets +onlyGivenNames x; clear_value x)
    | extract_lets +onlyGivenNames x
    | with_reducible apply keeps_timePathSync
    | with_reducible apply keeps_setReg
    | with_reducible apply keeps_set
    | with_reducible refine keeps_of_fst (by with_reducible assumption) ?_
    | dsimp -zeta -zetaHave only
    | split


theorem keeps_topoChange (s) (h0 : Keeps K s) (hp : Sub 0x8060 K.may) : Keeps K (topoChange s) := by
  unfold topoChange
  repeat' first
    | with_reducible assumption
    | exact sub_mono hp (by decide)
    | with_reducible apply keeps_evt
    | with_reducible apply keeps_updFab
    | dsimp -zeta -zetaHave only


theorem keeps_recordChange (s) (h0 : Keeps K s) (hp : Sub 0x8000 K.may) : Keeps K (recordChange s) := by
  unfold recordChange
  repeat' first
    | with_reducible assumption
    | exact sub_mono hp (by decide)
    | with_reducible apply keeps_updFab
    | dsimp -zeta -zetaHave only


theorem keeps_heldAdd (a b s) (h2 : Keeps K s) (hp : Sub 0xC000 K.may) : Keeps K (heldAdd a b s) := by
  unfold heldAdd
  repeat' first
    | with_reducible assumption
    | exact sub_mono hp (by decide)
    | (extract_lets +onlyGivenNames x; clear_value x)
    | extract_lets +onlyGivenNames x
    | with_reducible apply keeps_updBru
    | with_reducible apply keeps_updFab
    | with_reducible refine keeps_of_fst (by with_reducible assumption) ?_
    | dsimp -zeta -zetaHave only
    | split


theorem keeps_toPort (a b c d s) (h4 : Keeps K s) (hp : Sub 0xC000 K.may) : Keeps K (toPort a b c d s) := by
  unfold toPort
  repeat' first
    | with_reducible assumption
    | exact sub_mono hp (by decide)
    | with_reducible apply keeps_heldAdd
    | with_reducible apply keeps_updBru
    | with_reducible apply keeps_bump
    | with_reducible refine keeps_of_fst (by with_reducible assumption) ?_
    | dsimp -zeta -zetaHave only
    | split


theorem keeps_leave (a b c d e s) (h5 : Keeps K s) (hp : Sub 0xC000 K.may) : Keeps K (leave a b c d e s) := by
  unfold leave
  repeat' first
    | with_reducible assumption
    | exact sub_mono hp (by decide)
    | intro _
    | (extract_lets +onlyGivenNames x; have hx : Keeps K x; (on_goal 2 => clear_value x); (on_goal 1 => unfold x; clear x))
    | (extract_lets +onlyGivenNames x; have hx : Keeps K x; (on_goal 1 => unfold x; clear x))
    | (extract_lets +onlyGivenNames x; clear_value x)
    | extract_lets +onlyGivenNames x
    | with_reducible apply keeps_bump
    | with_reducible apply keeps_toPort
    | with_reducible apply keeps_foldl
    | with_reducible apply keeps_foldl_fst
    | with_reducible refine keeps_of_fst (by with_reducible assumption) ?_
    | dsimp -zeta -zetaHave only
    | split


theorem keeps_unicast (a b c s) (h3 : Keeps K s) (hp : Sub 0xC060 K.may) : Keeps K (unicast a b c s) := by
  unfold unicast
  repeat' first
    | with_reducible assumption
    | exact sub_mono hp (by decide)
    | (extract_lets +onlyGivenNames x; clear_value x)
    | extract_lets +onlyGivenNames x
    | with_reducible apply keeps_leave
    | with_reducible apply keeps_evt
    | with_reducible apply keeps_bump
    | with_reducible refine keeps_of_fst (by with_reducible assumption) ?_
    | dsimp -zeta -zetaHave only
    | split


theorem keeps_remember (a b c s) (h3 : Keeps K s) (hp : Sub 0x8000 K.may) : Keeps K (remember a b c s) := by
  unfold remember
  repeat' first
    | with_reducible assumption
    | exact sub_mono hp (by decide)
    | (extract_lets +onlyGivenNames x; clear_value x)
    | extract_lets +onlyGivenNames x
    | with_reducible apply keeps_updFab
    | with_reducible refine keeps_of_fst (by with_reducible assumption) ?_
    | dsimp -zeta -zetaHave only
    | split


theorem keeps_sendLink (a b c s) (h3 : Keeps K s) (hp : Sub 0xC000 K.may) : Keeps K (sendLink a b c s) := by
  unfold sendLink
  repeat' first
    | with_reducible assumption
    | exact sub_mono hp (by decide)
    | (extract_lets +onlyGivenNames x; have hx : Keeps K x; (on_goal 2 => clear_value x); (on_goal 1 => unfold x; clear x))
    | (extract_lets +onlyGivenNames x; have hx : Keeps K x; (on_goal 1 => unfold x; clear x))
    | (extract_lets +onlyGivenNames x; clear_value x)
    | extract_lets +onlyGivenNames x
    | with_reducible apply keeps_updFab
    | with_reducible apply keeps_toPort
    | with_reducible refine keeps_of_fst (by with_reducible assumption) ?_
    | dsimp -zeta -zetaHave only
    | split


theorem keeps_sendFlood (a b c d s) (h4 : Keeps K s) (hp : Sub 0xC000 K.may) : Keeps K (sendFlood a b c d s) := by
  unfold sendFlood
  repeat' first
    | with_reducible assumption
    | exact sub_mono hp (by decide)
    | intro _
    | (extract_lets +onlyGivenNames x; have hx : Keeps K x; (on_goal 2 => clear_value x); (on_goal 1 => unfold x; clear x))
    | (extract_lets +onlyGivenNames x; have hx : Keeps K x; (on_goal 1 => unfold x; clear x))
    | (extract_lets +onlyGivenNames x; clear_value x)
    | extract_lets +onlyGivenNames x
    | with_reducible apply keeps_updFab
    | with_reducible apply keeps_leave
    | with_reducible apply keeps_remember
    | with_reducible apply keeps_foldl
    | with_reducible apply keeps_foldl_fst
    | with_reducible refine keeps_of_fst (by with_reducible assumption) ?_
    | dsimp -zeta -zetaHave only
    | split


theorem keeps_sendUnicast (a b c d s) (h4 : Keeps K s) (hp : Sub 0xC060 K.may) : Keeps K (sendUnicast a b c d s) := by
  unfold sendUnicast
  repeat' first
    | with_reducible assumption
    | exact sub_mono hp (by decide)
    | (extract_lets +onlyGivenNames x; have hx : Keeps K x; (on_goal 2 => clear_value x); (on_goal 1 => unfold x; clear x))
    | (extract_lets +onlyGivenNames x; have hx : Keeps K x; (on_goal 1 => unfold x; clear x))
    | (extract_lets +onlyGivenNames x; clear_value x)
    | extract_lets +onlyGivenNames x
    | with_reducible apply keeps_updFab
    | with_reducible apply keeps_unicast
    | with_reducible refine keeps_of_fst (by with_reducible assumption) ?_
    | dsimp -zeta -zetaHave only
    | split


theorem keeps_setHolder (a b s) (h2 : Keeps K s) (hp : Sub 0x8060 K.may) : Keeps K (setHolder a b s) := by
  unfold setHolder
  repeat' first
    | with_reducible assumption
    | exact sub_mono hp (by decide)
    | (extract_lets +onlyGivenNames x; have hx : Keeps K x; (on_goal 2 => clear_value x); (on_goal 1 => unfold x; clear x))
    | (extract_lets +onlyGivenNames x; have hx : Keeps K x; (on_goal 1 => unfold x; clear x))
    | (extract_lets +onlyGivenNames x; clear_value x)
    | extract_lets +onlyGivenNames x
    | with_reducible apply keeps_updFab
    | with_reducible apply keeps_topoChange
    | with_reducible apply keeps_evt
    | with_reducible refine keeps_of_fst (by with_reducible assumption) ?_
    | dsimp -zeta -zetaHave only
    | split


theorem keeps_hear (a s) (h1 : Keeps K s) (hp : Sub 0x8060 K.may) : Keeps K (hear a s) := by
  unfold hear
  repeat' first
    | with_reducible assumption
    | exact sub_mono hp (by decide)
    | (extract_lets +onlyGivenNames x; have hx : Keeps K x; (on_goal 2 => clear_value x); (on_goal 1 => unfold x; clear x))
    | (extract_lets +onlyGivenNames x; have hx : Keeps K x; (on_goal 1 => unfold x; clear x))
    | with_reducible apply keeps_updFab
    | with_reducible apply keeps_setHolder
    | with_reducible refine keeps_of_fst (by with_reducible assumption) ?_
    | dsimp -zeta -zetaHave only
    | split


theorem keeps_discEval (s) (h0 : Keeps K s) (hp : Sub 0x8068 K.may) : Keeps K (discEval s) := by
  unfold discEval
  repeat' first
    | with_reducible assumption
    | exact sub_mono hp (by decide)
    | intro _
    | (extract_lets +onlyGivenNames x; have hx : Keeps K x; (on_goal 2 => clear_value x); (on_goal 1 => unfold x; clear x))
    | (extract_lets +onlyGivenNames x; have hx : Keeps K x; (on_goal 1 => unfold x; clear x))
    | (extract_lets +onlyGivenNames x; clear_value x)
    | extract_lets +onlyGivenNames x
    | with_reducible apply keeps_updFab
    | with_reducible apply keeps_setHolder
    | with_reducible apply keeps_fabSync
    | with_reducible apply keeps_topoChange
    | with_reducible apply keeps_foldl
    | with_reducible apply keeps_foldl_fst
    | with_reducible refine keeps_of_fst (by with_reducible assumption) ?_
    | dsimp -zeta -zetaHave only
    | split


theorem keeps_roleAnnounce (a s) (h1 : Keeps K s) (hp : Sub 0xC068 K.may) : Keeps K (roleAnnounce a s) := by
  unfold roleAnnounce
  repeat' first
    | with_reducible assumption
    | exact sub_mono hp (by decide)
    | (extract_lets +onlyGivenNames x; have hx : Keeps K x; (on_goal 2 => clear_value x); (on_goal 1 => unfold x; clear x))
    | (extract_lets +onlyGivenNames x; have hx : Keeps K x; (on_goal 1 => unfold x; clear x))
    | (extract_lets +onlyGivenNames x; clear_value x)
    | extract_lets +onlyGivenNames x
    | with_reducible apply keeps_hear
    | with_reducible apply keeps_discEval
    | with_reducible apply keeps_sendFlood
    | with_reducible refine keeps_of_fst (by with_reducible assumption) ?_
    | dsimp -zeta -zetaHave only
    | split


theorem keeps_roleTimeout (a s) (h1 : Keeps K s) (hp : Sub 0x8068 K.may) : Keeps K (roleTimeout a s) := by
  unfold roleTimeout
  repeat' first
    | with_reducible assumption
    | exact sub_mono hp (by decide)
    | with_reducible apply keeps_discEval
    | with_reducible apply keeps_setHolder
    | with_reducible refine keeps_of_fst (by with_reducible assumption) ?_
    | dsimp -zeta -zetaHave only
    | split


theorem keeps_gatewayLoss (s) (h0 : Keeps K s) (hp : Sub 0x8068 K.may) : Keeps K (gatewayLoss s) := by
  unfold gatewayLoss
  repeat' first
    | with_reducible assumption
    | exact sub_mono hp (by decide)
    | (extract_lets +onlyGivenNames x; clear_value x)
    | extract_lets +onlyGivenNames x
    | with_reducible apply keeps_fabSync
    | with_reducible apply keeps_updFab
    | with_reducible apply keeps_setHolder
    | dsimp -zeta -zetaHave only


theorem keeps_lsrRefresh (a s) (h1 : Keeps K s) (hp : Sub 0xC068 K.may) : Keeps K (lsrRefresh a s) := by
  unfold lsrRefresh
  repeat' first
    | with_reducible assumption
    | exact sub_mono hp (by decide)
    | (extract_lets +onlyGivenNames x; have hx : Keeps K x; (on_goal 2 => clear_value x); (on_goal 1 => unfold x; clear x))
    | (extract_lets +onlyGivenNames x; have hx : Keeps K x; (on_goal 1 => unfold x; clear x))
    | (extract_lets +onlyGivenNames x; clear_value x)
    | extract_lets +onlyGivenNames x
    | with_reducible apply keeps_updFab
    | with_reducible apply keeps_sendFlood
    | with_reducible apply keeps_fabSync
    | with_reducible refine keeps_of_fst (by with_reducible assumption) ?_
    | dsimp -zeta -zetaHave only
    | split


theorem keeps_dupCheck (a s) (h1 : Keeps K s) (hp : Sub 0x18068 K.may) : Keeps K (dupCheck a s) := by
  unfold dupCheck
  repeat' first
    | with_reducible assumption
    | exact sub_mono hp (by decide)
    | with_reducible apply keeps_discEval
    | with_reducible apply keeps_refreshAll
    | with_reducible apply keeps_evt
    | with_reducible apply keeps_updFab
    | with_reducible refine keeps_of_fst (by with_reducible assumption) ?_
    | dsimp -zeta -zetaHave only
    | split


theorem keeps_lsrApply (a s) (h1 : Keeps K s) (hp : Sub 0x18068 K.may) : Keeps K (lsrApply a s) := by
  unfold lsrApply
  repeat' first
    | with_reducible assumption
    | exact sub_mono hp (by decide)
    | intro _
    | (extract_lets +onlyGivenNames x; have hx : ∀ y0, Keeps K y0 → Keeps K (x y0); (on_goal 2 => clear_value x); (on_goal 1 => unfold x; clear x))
    | (extract_lets +onlyGivenNames x; clear_value x)
    | extract_lets +onlyGivenNames x
    | with_reducible apply keeps_updFab
    | with_reducible apply keeps_fabSync
    | with_reducible apply keeps_recordChange
    | with_reducible apply keeps_dupCheck
    | with_reducible apply keeps_bump
    | with_reducible apply_assumption -exfalso -symm
    | with_reducible refine keeps_of_fst (by with_reducible assumption) ?_
    | dsimp -zeta -zetaHave only
    | split


theorem keeps_lsrExpiry (a b s) (h2 : Keeps K s) (hp : Sub 0x8068 K.may) : Keeps K (lsrExpiry a b s) := by
  unfold lsrExpiry
  repeat' first
    | with_reducible assumption
    | exact sub_mono hp (by decide)
    | with_reducible apply keeps_fabSync
    | with_reducible apply keeps_recordChange
    | with_reducible apply keeps_updFab
    | with_reducible refine keeps_of_fst (by with_reducible assumption) ?_
    | dsimp -zeta -zetaHave only
    | split


theorem keeps_converged (s) (h0 : Keeps K s) (hp : Sub 0x8807C K.may) : Keeps K (converged s) := by
  unfold converged
  repeat' first
    | with_reducible assumption
    | exact sub_mono hp (by decide)
    | (extract_lets +onlyGivenNames x; have hx : Keeps K x; (on_goal 2 => clear_value x); (on_goal 1 => unfold x; clear x))
    | (extract_lets +onlyGivenNames x; have hx : Keeps K x; (on_goal 1 => unfold x; clear x))
    | (extract_lets +onlyGivenNames x; clear_value x)
    | extract_lets +onlyGivenNames x
    | with_reducible apply keeps_updFab
    | with_reducible apply keeps_internalProg
    | with_reducible apply keeps_enableEval
    | with_reducible apply keeps_stepEnded
    | with_reducible apply keeps_fabSync
    | with_reducible apply keeps_evtIf
    | with_reducible apply keeps_evt
    | with_reducible refine keeps_of_fst (by with_reducible assumption) ?_
    | dsimp -zeta -zetaHave only
    | split


theorem keeps_clusterSeed (s) (h0 : Keeps K s) (hp : Sub 0x8068 K.may) : Keeps K (clusterSeed s) := by
  unfold clusterSeed
  repeat' first
    | with_reducible assumption
    | exact sub_mono hp (by decide)
    | (extract_lets +onlyGivenNames x; clear_value x)
    | extract_lets +onlyGivenNames x
    | with_reducible apply keeps_discEval
    | with_reducible apply keeps_updFab
    | with_reducible refine keeps_of_fst (by with_reducible assumption) ?_
    | dsimp -zeta -zetaHave only
    | split


theorem keeps_takeMember (a s) (h1 : Keeps K s) (hp : Sub 0x8068 K.may) : Keeps K (takeMember a s) := by
  unfold takeMember
  repeat' first
    | with_reducible assumption
    | exact sub_mono hp (by decide)
    | (extract_lets +onlyGivenNames x; have hx : Keeps K x; (on_goal 2 => clear_value x); (on_goal 1 => unfold x; clear x))
    | (extract_lets +onlyGivenNames x; have hx : Keeps K x; (on_goal 1 => unfold x; clear x))
    | (extract_lets +onlyGivenNames x; clear_value x)
    | extract_lets +onlyGivenNames x
    | with_reducible apply keeps_updFab
    | with_reducible apply keeps_fabSync
    | with_reducible apply keeps_topoChange
    | with_reducible refine keeps_of_fst (by with_reducible assumption) ?_
    | dsimp -zeta -zetaHave only
    | split


theorem keeps_memberGrant (a b s) (h2 : Keeps K s) (hp : Sub 0x8068 K.may) : Keeps K (memberGrant a b s) := by
  unfold memberGrant
  repeat' first
    | with_reducible assumption
    | exact sub_mono hp (by decide)
    | (extract_lets +onlyGivenNames x; have hx : Keeps K x; (on_goal 2 => clear_value x); (on_goal 1 => unfold x; clear x))
    | (extract_lets +onlyGivenNames x; have hx : Keeps K x; (on_goal 1 => unfold x; clear x))
    | with_reducible apply keeps_updFab
    | with_reducible apply keeps_discEval
    | with_reducible apply keeps_takeMember
    | with_reducible refine keeps_of_fst (by with_reducible assumption) ?_
    | dsimp -zeta -zetaHave only
    | split


theorem keeps_idcfgWrite (a s) (h1 : Keeps K s) (hp : Sub 0x18068 K.may) : Keeps K (idcfgWrite a s) := by
  unfold idcfgWrite
  repeat' first
    | with_reducible assumption
    | exact sub_mono hp (by decide)
    | (extract_lets +onlyGivenNames x; have hx : Keeps K x; (on_goal 2 => clear_value x); (on_goal 1 => unfold x; clear x))
    | (extract_lets +onlyGivenNames x; have hx : Keeps K x; (on_goal 1 => unfold x; clear x))
    | (extract_lets +onlyGivenNames x; clear_value x)
    | extract_lets +onlyGivenNames x
    | with_reducible apply keeps_setReg
    | with_reducible apply keeps_updFab
    | with_reducible apply keeps_setHolder
    | with_reducible apply keeps_refreshAll
    | with_reducible apply keeps_topoChange
    | with_reducible apply keeps_discEval
    | with_reducible refine keeps_of_fst (by with_reducible assumption) ?_
    | dsimp -zeta -zetaHave only
    | split


theorem keeps_subscribeSend (s) (h0 : Keeps K s) (hp : Sub 0xC068 K.may) : Keeps K (subscribeSend s) := by
  unfold subscribeSend
  repeat' first
    | with_reducible assumption
    | exact sub_mono hp (by decide)
    | intro _
    | (extract_lets +onlyGivenNames x; have hx : Keeps K x; (on_goal 2 => clear_value x); (on_goal 1 => unfold x; clear x))
    | (extract_lets +onlyGivenNames x; have hx : Keeps K x; (on_goal 1 => unfold x; clear x))
    | (extract_lets +onlyGivenNames x; clear_value x)
    | extract_lets +onlyGivenNames x
    | with_reducible apply keeps_sendLink
    | with_reducible apply keeps_fabSync
    | with_reducible apply keeps_foldl
    | with_reducible apply keeps_foldl_fst
    | with_reducible refine keeps_of_fst (by with_reducible assumption) ?_
    | dsimp -zeta -zetaHave only
    | split


theorem keeps_subscribeIn (a b s) (h2 : Keeps K s) (hp : Sub 0x8000 K.may) : Keeps K (subscribeIn a b s) := by
  unfold subscribeIn
  repeat' first
    | with_reducible assumption
    | exact sub_mono hp (by decide)
    | intro _
    | (extract_lets +onlyGivenNames x; clear_value x)
    | extract_lets +onlyGivenNames x
    | with_reducible apply keeps_updFab
    | with_reducible apply keeps_foldl
    | with_reducible apply keeps_foldl_fst
    | with_reducible refine keeps_of_fst (by with_reducible assumption) ?_
    | dsimp -zeta -zetaHave only
    | split


theorem keeps_tileWhole (a b c d s) (h4 : Keeps K s) (hp : Sub 0x8000 K.may) : Keeps K (tileWhole a b c d s).1 := by
  unfold tileWhole
  repeat' first
    | with_reducible assumption
    | exact sub_mono hp (by decide)
    | (extract_lets +onlyGivenNames x; clear_value x)
    | extract_lets +onlyGivenNames x
    | with_reducible apply keeps_updFab
    | with_reducible refine keeps_of_fst (by with_reducible assumption) ?_
    | dsimp -zeta -zetaHave only
    | split


theorem keeps_tileDeliver (a s) (h1 : Keeps K s) (hp : Sub 0x8165 K.may) : Keeps K (tileDeliver a s) := by
  unfold tileDeliver
  repeat' first
    | with_reducible assumption
    | exact sub_mono hp (by decide)
    | intro _
    | (extract_lets +onlyGivenNames x; have hx : ∀ y0 y1, Keeps K y1 → Keeps K (x y0 y1); (on_goal 2 => clear_value x); (on_goal 1 => unfold x; clear x))
    | (extract_lets +onlyGivenNames x; clear_value x)
    | extract_lets +onlyGivenNames x
    | with_reducible apply keeps_tileWhole
    | with_reducible apply keeps_bump
    | with_reducible apply keeps_tileQuarter
    | with_reducible apply_assumption -exfalso -symm
    | with_reducible apply keeps_foldl
    | with_reducible apply keeps_foldl_fst
    | with_reducible refine keeps_of_fst (by with_reducible assumption) ?_
    | dsimp -zeta -zetaHave only
    | split


theorem keeps_pubNext (a s) (h1 : Keeps K s) (hp : Sub 0xC065 K.may) : Keeps K (pubNext a s).1 := by
  unfold pubNext
  repeat' first
    | with_reducible assumption
    | exact sub_mono hp (by decide)
    | intro _
    | (extract_lets +onlyGivenNames x; have hx : Keeps K x; (on_goal 2 => clear_value x); (on_goal 1 => unfold x; clear x))
    | (extract_lets +onlyGivenNames x; have hx : Keeps K x; (on_goal 1 => unfold x; clear x))
    | (extract_lets +onlyGivenNames x; have hx : ∀ y0 y1, Keeps K y0.1 → Keeps K (x y0 y1).1; (on_goal 2 => clear_value x); (on_goal 1 => unfold x; clear x))
    | (extract_lets +onlyGivenNames x; have hx : ∀ y0 y1, Keeps K y1 → Keeps K (x y0 y1); (on_goal 2 => clear_value x); (on_goal 1 => unfold x; clear x))
    | (extract_lets +onlyGivenNames x; have hx : ∀ y0, Keeps K y0 → Keeps K (x y0); (on_goal 2 => clear_value x); (on_goal 1 => unfold x; clear x))
    | (extract_lets +onlyGivenNames x; clear_value x)
    | extract_lets +onlyGivenNames x
    | with_reducible apply keeps_rd
    | with_reducible apply keeps_updFab
    | with_reducible apply keeps_evt
    | with_reducible apply keeps_bump
    | with_reducible apply keeps_leave
    | with_reducible apply_assumption -exfalso -symm
    | with_reducible apply keeps_foldl
    | with_reducible apply keeps_foldl_fst
    | with_reducible refine keeps_of_fst (by with_reducible assumption) ?_
    | dsimp -zeta -zetaHave only
    | split


theorem keeps_pubsAtFs (a b s) (h2 : Keeps K s) (hp : Sub 0xC060 K.may) : Keeps K (pubsAtFs a b s) := by
  unfold pubsAtFs
  repeat' first
    | with_reducible assumption
    | exact sub_mono hp (by decide)
    | intro _
    | (extract_lets +onlyGivenNames x; have hx : Keeps K x; (on_goal 2 => clear_value x); (on_goal 1 => unfold x; clear x))
    | (extract_lets +onlyGivenNames x; have hx : Keeps K x; (on_goal 1 => unfold x; clear x))
    | (extract_lets +onlyGivenNames x; clear_value x)
    | extract_lets +onlyGivenNames x
    | exact Or.inr rfl
    | exact Or.inl (may_of hp (by decide))
    | simp only [↓keeps_mk]
    | refine keepsOf_upd ?_ rfl rfl rfl rfl rfl rfl ?_ ?_ ?_ ?_ ?_ ?_ ?_ ?_ ?_ ?_ ?_ ?_ ?_ ?_ ?_ ?_ ?_ ?_ ?_ ?_ ?_ ?_
    | with_reducible apply keeps_evt
    | with_reducible apply keeps_bump
    | with_reducible apply keeps_updFab
    | with_reducible apply keeps_foldl
    | with_reducible apply keeps_foldl_fst
    | with_reducible refine keeps_of_fst (by with_reducible assumption) ?_
    | dsimp -zeta -zetaHave only
    | split


theorem keeps_updFc (s b) (h0 : Keeps K s) (hp : Sub 0x8000 K.may) : Keeps K (updFc s b) := by
  unfold updFc
  repeat' first
    | with_reducible assumption
    | exact sub_mono hp (by decide)
    | with_reducible apply keeps_updFab
    | dsimp -zeta -zetaHave only


theorem keeps_updFcOf (a b s) (h2 : Keeps K s) (hp : Sub 0x8000 K.may) : Keeps K (updFcOf a b s) := by
  unfold updFcOf
  repeat' first
    | with_reducible assumption
    | exact sub_mono hp (by decide)
    | with_reducible apply keeps_updFc
    | with_reducible apply keeps_updFab
    | with_reducible refine keeps_of_fst (by with_reducible assumption) ?_
    | dsimp -zeta -zetaHave only
    | split


theorem keeps_newFc (a s) (h1 : Keeps K s) (hp : Sub 0x8000 K.may) : Keeps K (newFc a s) := by
  unfold newFc
  repeat' first
    | with_reducible assumption
    | exact sub_mono hp (by decide)
    | with_reducible apply keeps_updFab
    | with_reducible refine keeps_of_fst (by with_reducible assumption) ?_
    | dsimp -zeta -zetaHave only
    | split


theorem keeps_fcOutcome (a b c s) (h3 : Keeps K s) (hp : Sub 0x8060 K.may) : Keeps K (fcOutcome a b c s) := by
  unfold fcOutcome
  repeat' first
    | with_reducible assumption
    | exact sub_mono hp (by decide)
    | (extract_lets +onlyGivenNames x; have hx : Keeps K x; (on_goal 2 => clear_value x); (on_goal 1 => unfold x; clear x))
    | (extract_lets +onlyGivenNames x; have hx : Keeps K x; (on_goal 1 => unfold x; clear x))
    | with_reducible apply keeps_updFcOf
    | with_reducible apply keeps_evt
    | with_reducible apply keeps_setReg
    | with_reducible apply keeps_updFab
    | with_reducible refine keeps_of_fst (by with_reducible assumption) ?_
    | dsimp -zeta -zetaHave only
    | split


theorem keeps_fcRefuse (a b s) (h2 : Keeps K s) (hp : Sub 0x8060 K.may) : Keeps K (fcRefuse a b s) := by
  unfold fcRefuse
  repeat' first
    | with_reducible assumption
    | exact sub_mono hp (by decide)
    | with_reducible apply keeps_fcOutcome
    | with_reducible apply keeps_updFcOf
    | dsimp -zeta -zetaHave only


theorem keeps_fcFollow (s) (h0 : Keeps K s) (hp : Sub 0x8060 K.may) : Keeps K (fcFollow s) := by
  unfold fcFollow
  repeat' first
    | with_reducible assumption
    | exact sub_mono hp (by decide)
    | (extract_lets +onlyGivenNames x; clear_value x)
    | extract_lets +onlyGivenNames x
    | with_reducible apply keeps_fcOutcome
    | with_reducible apply keeps_fcRefuse
    | with_reducible refine keeps_of_fst (by with_reducible assumption) ?_
    | dsimp -zeta -zetaHave only
    | split


theorem keeps_prepareIn (a s) (h1 : Keeps K s) (hp : Sub 0x8070 K.may) : Keeps K (prepareIn a s) := by
  unfold prepareIn
  repeat' first
    | with_reducible assumption
    | exact sub_mono hp (by decide)
    | (extract_lets +onlyGivenNames x; have hx : Keeps K x; (on_goal 2 => clear_value x); (on_goal 1 => unfold x; clear x))
    | (extract_lets +onlyGivenNames x; have hx : Keeps K x; (on_goal 1 => unfold x; clear x))
    | (extract_lets +onlyGivenNames x; clear_value x)
    | extract_lets +onlyGivenNames x
    | with_reducible apply keeps_newFc
    | with_reducible apply keeps_fcFollow
    | with_reducible apply keeps_fcRefuse
    | with_reducible apply keeps_updFc
    | with_reducible apply keeps_setReg
    | with_reducible apply keeps_armFor
    | with_reducible refine keeps_of_fst (by with_reducible assumption) ?_
    | dsimp -zeta -zetaHave only
    | split


theorem keeps_fireIn (a s) (h1 : Keeps K s) (hp : Sub 0x8060 K.may) : Keeps K (fireIn a s) := by
  unfold fireIn
  repeat' first
    | with_reducible assumption
    | exact sub_mono hp (by decide)
    | with_reducible apply keeps_fcOutcome
    | with_reducible apply keeps_newFc
    | with_reducible apply keeps_updFcOf
    | with_reducible refine keeps_of_fst (by with_reducible assumption) ?_
    | dsimp -zeta -zetaHave only
    | split


theorem keeps_abortIn (a s) (h1 : Keeps K s) (hp : Sub 0x8070 K.may) : Keeps K (abortIn a s) := by
  unfold abortIn
  repeat' first
    | with_reducible assumption
    | exact sub_mono hp (by decide)
    | with_reducible apply keeps_fcOutcome
    | with_reducible apply keeps_newFc
    | with_reducible apply keeps_cancelCommit
    | with_reducible apply keeps_updFcOf
    | with_reducible refine keeps_of_fst (by with_reducible assumption) ?_
    | dsimp -zeta -zetaHave only
    | split


theorem keeps_fcCutoff (a s) (h1 : Keeps K s) (hp : Sub 0x8070 K.may) : Keeps K (fcCutoff a s) := by
  unfold fcCutoff
  repeat' first
    | with_reducible assumption
    | exact sub_mono hp (by decide)
    | (extract_lets +onlyGivenNames x; clear_value x)
    | extract_lets +onlyGivenNames x
    | with_reducible apply keeps_fcFollow
    | with_reducible apply keeps_cancelCommit
    | with_reducible refine keeps_of_fst (by with_reducible assumption) ?_
    | dsimp -zeta -zetaHave only
    | split


theorem keeps_fcAtFs (a s) (h1 : Keeps K s) (hp : Sub 0x60 K.may) : Keeps K (fcAtFs a s) := by
  unfold fcAtFs
  repeat' first
    | with_reducible assumption
    | exact sub_mono hp (by decide)
    | (extract_lets +onlyGivenNames x; clear_value x)
    | extract_lets +onlyGivenNames x
    | with_reducible apply keeps_evt
    | with_reducible apply keeps_set
    | with_reducible refine keeps_of_fst (by with_reducible assumption) ?_
    | dsimp -zeta -zetaHave only
    | split


theorem keeps_masterReady (a b c s) (h3 : Keeps K s) (hp : Sub 0x60 K.may) : Keeps K (masterReady a b c s) := by
  unfold masterReady
  repeat' first
    | with_reducible assumption
    | exact sub_mono hp (by decide)
    | with_reducible apply keeps_evt
    | with_reducible apply keeps_set
    | with_reducible refine keeps_of_fst (by with_reducible assumption) ?_
    | dsimp -zeta -zetaHave only
    | split


theorem keeps_readyUp (a b c s) (h3 : Keeps K s) (hp : Sub 0xC060 K.may) : Keeps K (readyUp a b c s) := by
  unfold readyUp
  repeat' first
    | with_reducible assumption
    | exact sub_mono hp (by decide)
    | (extract_lets +onlyGivenNames x; clear_value x)
    | extract_lets +onlyGivenNames x
    | with_reducible apply keeps_sendLink
    | with_reducible apply keeps_masterReady
    | with_reducible apply keeps_sendUnicast
    | with_reducible refine keeps_of_fst (by with_reducible assumption) ?_
    | dsimp -zeta -zetaHave only
    | split


theorem keeps_relayReady (a b c d s) (h4 : Keeps K s) (hp : Sub 0xC060 K.may) : Keeps K (relayReady a b c d s) := by
  unfold relayReady
  repeat' first
    | with_reducible assumption
    | exact sub_mono hp (by decide)
    | (extract_lets +onlyGivenNames x; clear_value x)
    | extract_lets +onlyGivenNames x
    | with_reducible apply keeps_readyUp
    | with_reducible apply keeps_updFab
    | dsimp -zeta -zetaHave only


theorem keeps_readyIn (a b s) (h2 : Keeps K s) (hp : Sub 0xC060 K.may) : Keeps K (readyIn a b s) := by
  unfold readyIn
  repeat' first
    | with_reducible assumption
    | exact sub_mono hp (by decide)
    | with_reducible apply keeps_updFcOf
    | with_reducible apply keeps_relayReady
    | with_reducible apply keeps_masterReady
    | with_reducible refine keeps_of_fst (by with_reducible assumption) ?_
    | dsimp -zeta -zetaHave only
    | split


theorem keeps_readySend (s) (h0 : Keeps K s) (hp : Sub 0xC060 K.may) : Keeps K (readySend s) := by
  unfold readySend
  repeat' first
    | with_reducible assumption
    | exact sub_mono hp (by decide)
    | (extract_lets +onlyGivenNames x; clear_value x)
    | extract_lets +onlyGivenNames x
    | with_reducible apply keeps_readyUp
    | with_reducible apply keeps_updFcOf
    | with_reducible refine keeps_of_fst (by with_reducible assumption) ?_
    | dsimp -zeta -zetaHave only
    | split


theorem keeps_reportIn (a b s) (h2 : Keeps K s) (hp : Sub 0x8000 K.may) : Keeps K (reportIn a b s) := by
  unfold reportIn
  repeat' first
    | with_reducible assumption
    | exact sub_mono hp (by decide)
    | (extract_lets +onlyGivenNames x; have hx : Keeps K x; (on_goal 2 => clear_value x); (on_goal 1 => unfold x; clear x))
    | (extract_lets +onlyGivenNames x; have hx : Keeps K x; (on_goal 1 => unfold x; clear x))
    | with_reducible apply keeps_bump
    | with_reducible apply keeps_updFab
    | with_reducible apply keeps_set
    | with_reducible refine keeps_of_fst (by with_reducible assumption) ?_
    | dsimp -zeta -zetaHave only
    | split


theorem keeps_reportSend (s) (h0 : Keeps K s) (hp : Sub 0xC060 K.may) : Keeps K (reportSend s) := by
  unfold reportSend
  repeat' first
    | with_reducible assumption
    | exact sub_mono hp (by decide)
    | intro _
    | (extract_lets +onlyGivenNames x; have hx : ∀ y0, Keeps K y0 → Keeps K (x y0); (on_goal 2 => clear_value x); (on_goal 1 => unfold x; clear x))
    | (extract_lets +onlyGivenNames x; clear_value x)
    | extract_lets +onlyGivenNames x
    | with_reducible apply keeps_updFab
    | with_reducible apply keeps_reportIn
    | with_reducible apply keeps_sendUnicast
    | with_reducible apply_assumption -exfalso -symm
    | with_reducible refine keeps_of_fst (by with_reducible assumption) ?_
    | dsimp -zeta -zetaHave only
    | split


theorem keeps_reportExpiry (s) (h0 : Keeps K s) (hp : Sub 0x8000 K.may) : Keeps K (reportExpiry s) := by
  unfold reportExpiry
  repeat' first
    | with_reducible assumption
    | exact sub_mono hp (by decide)
    | with_reducible apply keeps_updFab
    | dsimp -zeta -zetaHave only


theorem keeps_fcmtGo (a b s) (h2 : Keeps K s) (hp : Sub 0xC070 K.may) : Keeps K (fcmtGo a b s) := by
  unfold fcmtGo
  repeat' first
    | with_reducible assumption
    | exact sub_mono hp (by decide)
    | (extract_lets +onlyGivenNames x; have hx : Keeps K x; (on_goal 2 => clear_value x); (on_goal 1 => unfold x; clear x))
    | (extract_lets +onlyGivenNames x; have hx : Keeps K x; (on_goal 1 => unfold x; clear x))
    | (extract_lets +onlyGivenNames x; clear_value x)
    | extract_lets +onlyGivenNames x
    | with_reducible apply keeps_fault
    | with_reducible apply keeps_setReg
    | with_reducible apply keeps_set
    | with_reducible apply keeps_updFab
    | with_reducible apply keeps_prepareIn
    | with_reducible apply keeps_sendFlood
    | with_reducible refine keeps_of_fst (by with_reducible assumption) ?_
    | dsimp -zeta -zetaHave only
    | split


theorem keeps_fcctl (a b s) (h2 : Keeps K s) (hp : Sub 0xC070 K.may) : Keeps K (fcctl a b s) := by
  unfold fcctl
  repeat' first
    | with_reducible assumption
    | exact sub_mono hp (by decide)
    | (extract_lets +onlyGivenNames x; have hx : Keeps K x; (on_goal 2 => clear_value x); (on_goal 1 => unfold x; clear x))
    | (extract_lets +onlyGivenNames x; have hx : Keeps K x; (on_goal 1 => unfold x; clear x))
    | (extract_lets +onlyGivenNames x; clear_value x)
    | extract_lets +onlyGivenNames x
    | with_reducible apply keeps_fault
    | with_reducible apply keeps_set
    | with_reducible apply keeps_sendFlood
    | with_reducible apply keeps_fireIn
    | with_reducible apply keeps_abortIn
    | with_reducible refine keeps_of_fst (by with_reducible assumption) ?_
    | dsimp -zeta -zetaHave only
    | split


theorem keeps_fabRing (a b s) (h2 : Keeps K s) (hp : Sub 0x65 K.may) : Keeps K (fabRing a b s) := by
  unfold fabRing
  repeat' first
    | with_reducible assumption
    | exact sub_mono hp (by decide)
    | (extract_lets +onlyGivenNames x; have hx : Keeps K x; (on_goal 2 => clear_value x); (on_goal 1 => unfold x; clear x))
    | (extract_lets +onlyGivenNames x; have hx : Keeps K x; (on_goal 1 => unfold x; clear x))
    | (extract_lets +onlyGivenNames x; clear_value x)
    | extract_lets +onlyGivenNames x
    | with_reducible apply keeps_fillRing
    | with_reducible apply keeps_evt
    | with_reducible apply keeps_Ring_setHead
    | with_reducible apply keeps_closeDescs
    | with_reducible refine keeps_of_fst (by with_reducible assumption) ?_
    | dsimp -zeta -zetaHave only
    | split


theorem keeps_fabToRing (a s) (h1 : Keeps K s) (hp : Sub 0x65 K.may) : Keeps K (fabToRing a s) := by
  unfold fabToRing
  repeat' first
    | with_reducible assumption
    | exact sub_mono hp (by decide)
    | with_reducible apply keeps_fabRing
    | dsimp -zeta -zetaHave only


theorem keeps_deliverBundle (a b c d s) (h4 : Keeps K s) (hp : Sub 0x1FA7D K.may) : Keeps K (deliverBundle a b c d s) := by
  unfold deliverBundle
  repeat' first
    | with_reducible assumption
    | exact sub_mono hp (by decide)
    | (extract_lets +onlyGivenNames x; have hx : Keeps K x; (on_goal 2 => clear_value x); (on_goal 1 => unfold x; clear x))
    | (extract_lets +onlyGivenNames x; have hx : Keeps K x; (on_goal 1 => unfold x; clear x))
    | (extract_lets +onlyGivenNames x; clear_value x)
    | extract_lets +onlyGivenNames x
    | with_reducible apply keeps_bump
    | with_reducible apply keeps_prepareIn
    | with_reducible apply keeps_readyIn
    | with_reducible apply keeps_fireIn
    | with_reducible apply keeps_abortIn
    | with_reducible apply keeps_reportIn
    | with_reducible apply keeps_ovrRelease
    | with_reducible apply keeps_ovrFire
    | with_reducible apply keeps_remoteRecord
    | with_reducible apply keeps_lsrApply
    | with_reducible apply keeps_subscribeIn
    | with_reducible apply keeps_discEval
    | with_reducible apply keeps_hear
    | with_reducible apply keeps_caneStore
    | with_reducible apply keeps_updFab
    | with_reducible apply keeps_heldAdd
    | with_reducible apply keeps_fabToRing
    | with_reducible refine keeps_of_fst (by with_reducible assumption) ?_
    | dsimp -zeta -zetaHave only
    | split


theorem keeps_caneRefill (s) (h0 : Keeps K s) (hp : Sub 0xE060 K.may) : Keeps K (caneRefill s) := by
  unfold caneRefill
  repeat' first
    | with_reducible assumption
    | exact sub_mono hp (by decide)
    | with_reducible apply keeps_heldAdd
    | with_reducible apply keeps_caneStore
    | with_reducible apply keeps_updFab
    | with_reducible refine keeps_of_fst (by with_reducible assumption) ?_
    | dsimp -zeta -zetaHave only
    | split


theorem keeps_floodIn (a b c d s) (h4 : Keeps K s) (hp : Sub 0x1FA7D K.may) : Keeps K (floodIn a b c d s) := by
  unfold floodIn
  repeat' first
    | with_reducible assumption
    | exact sub_mono hp (by decide)
    | (extract_lets +onlyGivenNames x; have hx : Keeps K x; (on_goal 2 => clear_value x); (on_goal 1 => unfold x; clear x))
    | (extract_lets +onlyGivenNames x; have hx : Keeps K x; (on_goal 1 => unfold x; clear x))
    | (extract_lets +onlyGivenNames x; clear_value x)
    | extract_lets +onlyGivenNames x
    | with_reducible apply keeps_bump
    | with_reducible apply keeps_remember
    | with_reducible apply keeps_leave
    | with_reducible apply keeps_deliverBundle
    | with_reducible refine keeps_of_fst (by with_reducible assumption) ?_
    | dsimp -zeta -zetaHave only
    | split


theorem keeps_bundleIn (a b c d s) (h4 : Keeps K s) (hp : Sub 0x1FB7D K.may) : Keeps K (bundleIn a b c d s) := by
  unfold bundleIn
  repeat' first
    | with_reducible assumption
    | exact sub_mono hp (by decide)
    | (extract_lets +onlyGivenNames x; have hx : Keeps K x; (on_goal 2 => clear_value x); (on_goal 1 => unfold x; clear x))
    | (extract_lets +onlyGivenNames x; have hx : Keeps K x; (on_goal 1 => unfold x; clear x))
    | (extract_lets +onlyGivenNames x; clear_value x)
    | extract_lets +onlyGivenNames x
    | with_reducible apply keeps_heldAdd
    | with_reducible apply keeps_bump
    | with_reducible apply keeps_deliverBundle
    | with_reducible apply keeps_unicast
    | with_reducible apply keeps_tileDeliver
    | with_reducible apply keeps_leave
    | with_reducible apply keeps_floodIn
    | with_reducible apply keeps_fcFollow
    | with_reducible refine keeps_of_fst (by with_reducible assumption) ?_
    | dsimp -zeta -zetaHave only
    | split


theorem keeps_bundleBytes (a b c s) (h3 : Keeps K s) (hp : Sub 0x1FB7D K.may) : Keeps K (bundleBytes a b c s) := by
  unfold bundleBytes
  repeat' first
    | with_reducible assumption
    | exact sub_mono hp (by decide)
    | with_reducible apply keeps_bundleIn
    | dsimp -zeta -zetaHave only


theorem keeps_fabSendOne (s) (h0 : Keeps K s) (hp : Sub 0x1FB7D K.may) : Keeps K (fabSendOne s).1 := by
  unfold fabSendOne
  repeat' first
    | with_reducible assumption
    | exact sub_mono hp (by decide)
    | intro _
    | (extract_lets +onlyGivenNames x; have hx : Keeps K x; (on_goal 2 => clear_value x); (on_goal 1 => unfold x; clear x))
    | (extract_lets +onlyGivenNames x; have hx : Keeps K x; (on_goal 1 => unfold x; clear x))
    | (extract_lets +onlyGivenNames x; have hx : ∀ y0 y1, Keeps K y1 → Keeps K (x y0 y1); (on_goal 2 => clear_value x); (on_goal 1 => unfold x; clear x))
    | (extract_lets +onlyGivenNames x; clear_value x)
    | extract_lets +onlyGivenNames x
    | with_reducible apply keeps_readChain
    | with_reducible apply keeps_rd
    | with_reducible apply keeps_wr'
    | with_reducible apply keeps_Ring_setHead
    | with_reducible apply keeps_updFab
    | with_reducible apply keeps_bundleBytes
    | with_reducible apply keeps_unicast
    | with_reducible apply keeps_leave
    | with_reducible apply keeps_fcFollow
    | with_reducible apply keeps_floodIn
    | with_reducible apply keeps_evt
    | with_reducible apply_assumption -exfalso -symm
    | with_reducible apply keeps_foldl
    | with_reducible apply keeps_foldl_fst
    | with_reducible refine keeps_of_fst (by with_reducible assumption) ?_
    | dsimp -zeta -zetaHave only
    | split


theorem keeps_fabSend (a s) (h1 : Keeps K s) (hp : Sub 0x1FB7D K.may) : Keeps K (fabSend a s) := by
  induction a generalizing s <;> unfold fabSend
  repeat' first
    | with_reducible assumption
    | exact sub_mono hp (by decide)
    | with_reducible apply keeps_fabSendOne
    | with_reducible refine keeps_of_fst (by with_reducible assumption) ?_
    | with_reducible apply_assumption -exfalso -symm
    | dsimp -zeta -zetaHave only
    | split


theorem keeps_fabTxTail (a s) (h1 : Keeps K s) (hp : Sub 0x1FB7D K.may) : Keeps K (fabTxTail a s) := by
  unfold fabTxTail
  repeat' first
    | with_reducible assumption
    | exact sub_mono hp (by decide)
    | (extract_lets +onlyGivenNames x; have hx : Keeps K x; (on_goal 2 => clear_value x); (on_goal 1 => unfold x; clear x))
    | (extract_lets +onlyGivenNames x; have hx : Keeps K x; (on_goal 1 => unfold x; clear x))
    | with_reducible apply keeps_setReg
    | with_reducible apply keeps_fabSend
    | with_reducible refine keeps_of_fst (by with_reducible assumption) ?_
    | dsimp -zeta -zetaHave only
    | split


theorem keeps_flushPub (s) (h0 : Keeps K s) (hp : Sub 0xD000 K.may) : Keeps K (flushPub s) := by
  unfold flushPub
  repeat' first
    | with_reducible assumption
    | exact sub_mono hp (by decide)
    | intro _
    | (extract_lets +onlyGivenNames x; have hx : Keeps K x; (on_goal 2 => clear_value x); (on_goal 1 => unfold x; clear x))
    | (extract_lets +onlyGivenNames x; have hx : Keeps K x; (on_goal 1 => unfold x; clear x))
    | (extract_lets +onlyGivenNames x; clear_value x)
    | extract_lets +onlyGivenNames x
    | exact Or.inr rfl
    | exact Or.inl (may_of hp (by decide))
    | simp only [↓keeps_mk]
    | refine keepsOf_upd ?_ rfl rfl rfl rfl rfl rfl ?_ ?_ ?_ ?_ ?_ ?_ ?_ ?_ ?_ ?_ ?_ ?_ ?_ ?_ ?_ ?_ ?_ ?_ ?_ ?_ ?_ ?_
    | with_reducible apply keeps_sendFlood
    | with_reducible apply keeps_foldl
    | with_reducible apply keeps_foldl_fst
    | with_reducible refine keeps_of_fst (by with_reducible assumption) ?_
    | dsimp -zeta -zetaHave only
    | split


theorem keeps_execBlockEnd (a s) (h1 : Keeps K s) (hp : Sub 0xD065 K.may) : ∃ t, execBlockEnd a s = .next t ∧ Keeps K t := by
  refine ⟨_, rfl, ?_⟩
  repeat' first
    | with_reducible assumption
    | exact sub_mono hp (by decide)
    | exact Or.inr rfl
    | exact Or.inl (may_of hp (by decide))
    | simp only [↓keeps_mk]
    | refine keepsOf_upd ?_ rfl rfl rfl rfl rfl rfl ?_ ?_ ?_ ?_ ?_ ?_ ?_ ?_ ?_ ?_ ?_ ?_ ?_ ?_ ?_ ?_ ?_ ?_ ?_ ?_ ?_ ?_
    | with_reducible apply keeps_flushPub
    | with_reducible apply keeps_blockEnd
    | dsimp -zeta -zetaHave only


theorem keeps_execBeatIssue (s) (h0 : Keeps K s) (hp : Sub 0xD065 K.may) : ∃ t, execBeatIssue s = .next t ∧ Keeps K t := by
  refine ⟨_, rfl, ?_⟩
  repeat' first
    | with_reducible assumption
    | exact sub_mono hp (by decide)
    | exact Or.inr rfl
    | exact Or.inl (may_of hp (by decide))
    | simp only [↓keeps_mk]
    | refine keepsOf_upd ?_ rfl rfl rfl rfl rfl rfl ?_ ?_ ?_ ?_ ?_ ?_ ?_ ?_ ?_ ?_ ?_ ?_ ?_ ?_ ?_ ?_ ?_ ?_ ?_ ?_ ?_ ?_
    | with_reducible apply keeps_flushPub
    | with_reducible apply keeps_beatIssue
    | dsimp -zeta -zetaHave only


theorem keeps_execRoleAnnounce (a s) (h1 : Keeps K s) (hp : Sub 0xC068 K.may) : ∃ t, execRoleAnnounce a s = .next t ∧ Keeps K t := by
  refine ⟨_, rfl, ?_⟩
  repeat' first
    | with_reducible assumption
    | exact sub_mono hp (by decide)
    | exact Or.inr rfl
    | exact Or.inl (may_of hp (by decide))
    | simp only [↓keeps_mk]
    | refine keepsOf_upd ?_ rfl rfl rfl rfl rfl rfl ?_ ?_ ?_ ?_ ?_ ?_ ?_ ?_ ?_ ?_ ?_ ?_ ?_ ?_ ?_ ?_ ?_ ?_ ?_ ?_ ?_ ?_
    | with_reducible apply keeps_roleAnnounce
    | dsimp -zeta -zetaHave only


theorem keeps_execRoleReceive (a b c s) (h3 : Keeps K s) (hp : Sub 0x1FB7D K.may) : ∃ t, execRoleReceive a b c s = .next t ∧ Keeps K t := by
  refine ⟨_, rfl, ?_⟩
  repeat' first
    | with_reducible assumption
    | exact sub_mono hp (by decide)
    | exact Or.inr rfl
    | exact Or.inl (may_of hp (by decide))
    | simp only [↓keeps_mk]
    | refine keepsOf_upd ?_ rfl rfl rfl rfl rfl rfl ?_ ?_ ?_ ?_ ?_ ?_ ?_ ?_ ?_ ?_ ?_ ?_ ?_ ?_ ?_ ?_ ?_ ?_ ?_ ?_ ?_ ?_
    | with_reducible apply keeps_bundleIn
    | dsimp -zeta -zetaHave only


theorem keeps_execRoleTimeout (a s) (h1 : Keeps K s) (hp : Sub 0x8068 K.may) : ∃ t, execRoleTimeout a s = .next t ∧ Keeps K t := by
  refine ⟨_, rfl, ?_⟩
  repeat' first
    | with_reducible assumption
    | exact sub_mono hp (by decide)
    | exact Or.inr rfl
    | exact Or.inl (may_of hp (by decide))
    | simp only [↓keeps_mk]
    | refine keepsOf_upd ?_ rfl rfl rfl rfl rfl rfl ?_ ?_ ?_ ?_ ?_ ?_ ?_ ?_ ?_ ?_ ?_ ?_ ?_ ?_ ?_ ?_ ?_ ?_ ?_ ?_ ?_ ?_
    | with_reducible apply keeps_roleTimeout
    | dsimp -zeta -zetaHave only


theorem keeps_execLsrRefresh (a s) (h1 : Keeps K s) (hp : Sub 0xC068 K.may) : ∃ t, execLsrRefresh a s = .next t ∧ Keeps K t := by
  refine ⟨_, rfl, ?_⟩
  repeat' first
    | with_reducible assumption
    | exact sub_mono hp (by decide)
    | exact Or.inr rfl
    | exact Or.inl (may_of hp (by decide))
    | simp only [↓keeps_mk]
    | refine keepsOf_upd ?_ rfl rfl rfl rfl rfl rfl ?_ ?_ ?_ ?_ ?_ ?_ ?_ ?_ ?_ ?_ ?_ ?_ ?_ ?_ ?_ ?_ ?_ ?_ ?_ ?_ ?_ ?_
    | with_reducible apply keeps_lsrRefresh
    | dsimp -zeta -zetaHave only


theorem keeps_execLsrReceive (a b c s) (h3 : Keeps K s) (hp : Sub 0x1FB7D K.may) : ∃ t, execLsrReceive a b c s = .next t ∧ Keeps K t := by
  refine ⟨_, rfl, ?_⟩
  repeat' first
    | with_reducible assumption
    | exact sub_mono hp (by decide)
    | exact Or.inr rfl
    | exact Or.inl (may_of hp (by decide))
    | simp only [↓keeps_mk]
    | refine keepsOf_upd ?_ rfl rfl rfl rfl rfl rfl ?_ ?_ ?_ ?_ ?_ ?_ ?_ ?_ ?_ ?_ ?_ ?_ ?_ ?_ ?_ ?_ ?_ ?_ ?_ ?_ ?_ ?_
    | with_reducible apply keeps_bundleIn
    | dsimp -zeta -zetaHave only


theorem keeps_execLsrExpiry (a b s) (h2 : Keeps K s) (hp : Sub 0x8068 K.may) : ∃ t, execLsrExpiry a b s = .next t ∧ Keeps K t := by
  refine ⟨_, rfl, ?_⟩
  repeat' first
    | with_reducible assumption
    | exact sub_mono hp (by decide)
    | exact Or.inr rfl
    | exact Or.inl (may_of hp (by decide))
    | simp only [↓keeps_mk]
    | refine keepsOf_upd ?_ rfl rfl rfl rfl rfl rfl ?_ ?_ ?_ ?_ ?_ ?_ ?_ ?_ ?_ ?_ ?_ ?_ ?_ ?_ ?_ ?_ ?_ ?_ ?_ ?_ ?_ ?_
    | with_reducible apply keeps_lsrExpiry
    | dsimp -zeta -zetaHave only


theorem keeps_execDiscoveryConverged (s) (h0 : Keeps K s) (hp : Sub 0x8807C K.may) : ∃ t, execDiscoveryConverged s = .next t ∧ Keeps K t := by
  refine ⟨_, rfl, ?_⟩
  repeat' first
    | with_reducible assumption
    | exact sub_mono hp (by decide)
    | exact Or.inr rfl
    | exact Or.inl (may_of hp (by decide))
    | simp only [↓keeps_mk]
    | refine keepsOf_upd ?_ rfl rfl rfl rfl rfl rfl ?_ ?_ ?_ ?_ ?_ ?_ ?_ ?_ ?_ ?_ ?_ ?_ ?_ ?_ ?_ ?_ ?_ ?_ ?_ ?_ ?_ ?_
    | with_reducible apply keeps_converged
    | dsimp -zeta -zetaHave only


theorem keeps_execClusterSeed (s) (h0 : Keeps K s) (hp : Sub 0x8068 K.may) : ∃ t, execClusterSeed s = .next t ∧ Keeps K t := by
  refine ⟨_, rfl, ?_⟩
  repeat' first
    | with_reducible assumption
    | exact sub_mono hp (by decide)
    | exact Or.inr rfl
    | exact Or.inl (may_of hp (by decide))
    | simp only [↓keeps_mk]
    | refine keepsOf_upd ?_ rfl rfl rfl rfl rfl rfl ?_ ?_ ?_ ?_ ?_ ?_ ?_ ?_ ?_ ?_ ?_ ?_ ?_ ?_ ?_ ?_ ?_ ?_ ?_ ?_ ?_ ?_
    | with_reducible apply keeps_clusterSeed
    | dsimp -zeta -zetaHave only


theorem keeps_execMemberGrant (a b s) (h2 : Keeps K s) (hp : Sub 0x8068 K.may) : ∃ t, execMemberGrant a b s = .next t ∧ Keeps K t := by
  refine ⟨_, rfl, ?_⟩
  repeat' first
    | with_reducible assumption
    | exact sub_mono hp (by decide)
    | exact Or.inr rfl
    | exact Or.inl (may_of hp (by decide))
    | simp only [↓keeps_mk]
    | refine keepsOf_upd ?_ rfl rfl rfl rfl rfl rfl ?_ ?_ ?_ ?_ ?_ ?_ ?_ ?_ ?_ ?_ ?_ ?_ ?_ ?_ ?_ ?_ ?_ ?_ ?_ ?_ ?_ ?_
    | with_reducible apply keeps_memberGrant
    | dsimp -zeta -zetaHave only


theorem keeps_execSubscribeSend (s) (h0 : Keeps K s) (hp : Sub 0xC068 K.may) : ∃ t, execSubscribeSend s = .next t ∧ Keeps K t := by
  refine ⟨_, rfl, ?_⟩
  repeat' first
    | with_reducible assumption
    | exact sub_mono hp (by decide)
    | exact Or.inr rfl
    | exact Or.inl (may_of hp (by decide))
    | simp only [↓keeps_mk]
    | refine keepsOf_upd ?_ rfl rfl rfl rfl rfl rfl ?_ ?_ ?_ ?_ ?_ ?_ ?_ ?_ ?_ ?_ ?_ ?_ ?_ ?_ ?_ ?_ ?_ ?_ ?_ ?_ ?_ ?_
    | with_reducible apply keeps_subscribeSend
    | dsimp -zeta -zetaHave only


theorem keeps_execSubscribeReceive (a b c s) (h3 : Keeps K s) (hp : Sub 0x1FB7D K.may) : ∃ t, execSubscribeReceive a b c s = .next t ∧ Keeps K t := by
  refine ⟨_, rfl, ?_⟩
  repeat' first
    | with_reducible assumption
    | exact sub_mono hp (by decide)
    | exact Or.inr rfl
    | exact Or.inl (may_of hp (by decide))
    | simp only [↓keeps_mk]
    | refine keepsOf_upd ?_ rfl rfl rfl rfl rfl rfl ?_ ?_ ?_ ?_ ?_ ?_ ?_ ?_ ?_ ?_ ?_ ?_ ?_ ?_ ?_ ?_ ?_ ?_ ?_ ?_ ?_ ?_
    | with_reducible apply keeps_bundleIn
    | dsimp -zeta -zetaHave only


theorem keeps_execTileQuarterReceive (a b s) (h2 : Keeps K s) (hp : Sub 0x1FB7D K.may) : ∃ t, execTileQuarterReceive a b s = .next t ∧ Keeps K t := by
  refine ⟨_, rfl, ?_⟩
  repeat' first
    | with_reducible assumption
    | exact sub_mono hp (by decide)
    | exact Or.inr rfl
    | exact Or.inl (may_of hp (by decide))
    | simp only [↓keeps_mk]
    | refine keepsOf_upd ?_ rfl rfl rfl rfl rfl rfl ?_ ?_ ?_ ?_ ?_ ?_ ?_ ?_ ?_ ?_ ?_ ?_ ?_ ?_ ?_ ?_ ?_ ?_ ?_ ?_ ?_ ?_
    | with_reducible apply keeps_bundleIn
    | dsimp -zeta -zetaHave only


theorem keeps_execGatewayLoss (s) (h0 : Keeps K s) (hp : Sub 0x8068 K.may) : ∃ t, execGatewayLoss s = .next t ∧ Keeps K t := by
  refine ⟨_, rfl, ?_⟩
  repeat' first
    | with_reducible assumption
    | exact sub_mono hp (by decide)
    | exact Or.inr rfl
    | exact Or.inl (may_of hp (by decide))
    | simp only [↓keeps_mk]
    | refine keepsOf_upd ?_ rfl rfl rfl rfl rfl rfl ?_ ?_ ?_ ?_ ?_ ?_ ?_ ?_ ?_ ?_ ?_ ?_ ?_ ?_ ?_ ?_ ?_ ?_ ?_ ?_ ?_ ?_
    | with_reducible apply keeps_gatewayLoss
    | dsimp -zeta -zetaHave only


theorem keeps_execPrepareReceive (a b s) (h2 : Keeps K s) (hp : Sub 0x1FB7D K.may) : ∃ t, execPrepareReceive a b s = .next t ∧ Keeps K t := by
  refine ⟨_, rfl, ?_⟩
  repeat' first
    | with_reducible assumption
    | exact sub_mono hp (by decide)
    | exact Or.inr rfl
    | exact Or.inl (may_of hp (by decide))
    | simp only [↓keeps_mk]
    | refine keepsOf_upd ?_ rfl rfl rfl rfl rfl rfl ?_ ?_ ?_ ?_ ?_ ?_ ?_ ?_ ?_ ?_ ?_ ?_ ?_ ?_ ?_ ?_ ?_ ?_ ?_ ?_ ?_ ?_
    | with_reducible apply keeps_bundleIn
    | dsimp -zeta -zetaHave only


theorem keeps_execReadyReceive (a b s) (h2 : Keeps K s) (hp : Sub 0x1FB7D K.may) : ∃ t, execReadyReceive a b s = .next t ∧ Keeps K t := by
  refine ⟨_, rfl, ?_⟩
  repeat' first
    | with_reducible assumption
    | exact sub_mono hp (by decide)
    | exact Or.inr rfl
    | exact Or.inl (may_of hp (by decide))
    | simp only [↓keeps_mk]
    | refine keepsOf_upd ?_ rfl rfl rfl rfl rfl rfl ?_ ?_ ?_ ?_ ?_ ?_ ?_ ?_ ?_ ?_ ?_ ?_ ?_ ?_ ?_ ?_ ?_ ?_ ?_ ?_ ?_ ?_
    | with_reducible apply keeps_bundleIn
    | dsimp -zeta -zetaHave only


theorem keeps_execReadySend (s) (h0 : Keeps K s) (hp : Sub 0xC060 K.may) : ∃ t, execReadySend s = .next t ∧ Keeps K t := by
  refine ⟨_, rfl, ?_⟩
  repeat' first
    | with_reducible assumption
    | exact sub_mono hp (by decide)
    | exact Or.inr rfl
    | exact Or.inl (may_of hp (by decide))
    | simp only [↓keeps_mk]
    | refine keepsOf_upd ?_ rfl rfl rfl rfl rfl rfl ?_ ?_ ?_ ?_ ?_ ?_ ?_ ?_ ?_ ?_ ?_ ?_ ?_ ?_ ?_ ?_ ?_ ?_ ?_ ?_ ?_ ?_
    | with_reducible apply keeps_readySend
    | dsimp -zeta -zetaHave only


theorem keeps_execFireReceive (a b s) (h2 : Keeps K s) (hp : Sub 0x1FB7D K.may) : ∃ t, execFireReceive a b s = .next t ∧ Keeps K t := by
  refine ⟨_, rfl, ?_⟩
  repeat' first
    | with_reducible assumption
    | exact sub_mono hp (by decide)
    | exact Or.inr rfl
    | exact Or.inl (may_of hp (by decide))
    | simp only [↓keeps_mk]
    | refine keepsOf_upd ?_ rfl rfl rfl rfl rfl rfl ?_ ?_ ?_ ?_ ?_ ?_ ?_ ?_ ?_ ?_ ?_ ?_ ?_ ?_ ?_ ?_ ?_ ?_ ?_ ?_ ?_ ?_
    | with_reducible apply keeps_bundleIn
    | dsimp -zeta -zetaHave only


theorem keeps_execAbortReceive (a b s) (h2 : Keeps K s) (hp : Sub 0x1FB7D K.may) : ∃ t, execAbortReceive a b s = .next t ∧ Keeps K t := by
  refine ⟨_, rfl, ?_⟩
  repeat' first
    | with_reducible assumption
    | exact sub_mono hp (by decide)
    | exact Or.inr rfl
    | exact Or.inl (may_of hp (by decide))
    | simp only [↓keeps_mk]
    | refine keepsOf_upd ?_ rfl rfl rfl rfl rfl rfl ?_ ?_ ?_ ?_ ?_ ?_ ?_ ?_ ?_ ?_ ?_ ?_ ?_ ?_ ?_ ?_ ?_ ?_ ?_ ?_ ?_ ?_
    | with_reducible apply keeps_bundleIn
    | dsimp -zeta -zetaHave only


theorem keeps_execReportSend (s) (h0 : Keeps K s) (hp : Sub 0xC060 K.may) : ∃ t, execReportSend s = .next t ∧ Keeps K t := by
  refine ⟨_, rfl, ?_⟩
  repeat' first
    | with_reducible assumption
    | exact sub_mono hp (by decide)
    | exact Or.inr rfl
    | exact Or.inl (may_of hp (by decide))
    | simp only [↓keeps_mk]
    | refine keepsOf_upd ?_ rfl rfl rfl rfl rfl rfl ?_ ?_ ?_ ?_ ?_ ?_ ?_ ?_ ?_ ?_ ?_ ?_ ?_ ?_ ?_ ?_ ?_ ?_ ?_ ?_ ?_ ?_
    | with_reducible apply keeps_reportSend
    | dsimp -zeta -zetaHave only


theorem keeps_execReportReceive (a b s) (h2 : Keeps K s) (hp : Sub 0x1FB7D K.may) : ∃ t, execReportReceive a b s = .next t ∧ Keeps K t := by
  refine ⟨_, rfl, ?_⟩
  repeat' first
    | with_reducible assumption
    | exact sub_mono hp (by decide)
    | exact Or.inr rfl
    | exact Or.inl (may_of hp (by decide))
    | simp only [↓keeps_mk]
    | refine keepsOf_upd ?_ rfl rfl rfl rfl rfl rfl ?_ ?_ ?_ ?_ ?_ ?_ ?_ ?_ ?_ ?_ ?_ ?_ ?_ ?_ ?_ ?_ ?_ ?_ ?_ ?_ ?_ ?_
    | with_reducible apply keeps_bundleIn
    | dsimp -zeta -zetaHave only


theorem keeps_execReportRouteExpiry (s) (h0 : Keeps K s) (hp : Sub 0x8000 K.may) : ∃ t, execReportRouteExpiry s = .next t ∧ Keeps K t := by
  refine ⟨_, rfl, ?_⟩
  repeat' first
    | with_reducible assumption
    | exact sub_mono hp (by decide)
    | exact Or.inr rfl
    | exact Or.inl (may_of hp (by decide))
    | simp only [↓keeps_mk]
    | refine keepsOf_upd ?_ rfl rfl rfl rfl rfl rfl ?_ ?_ ?_ ?_ ?_ ?_ ?_ ?_ ?_ ?_ ?_ ?_ ?_ ?_ ?_ ?_ ?_ ?_ ?_ ?_ ?_ ?_
    | with_reducible apply keeps_reportExpiry
    | dsimp -zeta -zetaHave only


theorem keeps_execOverrideBundleReceive (a b s) (h2 : Keeps K s) (hp : Sub 0x1FB7D K.may) : ∃ t, execOverrideBundleReceive a b s = .next t ∧ Keeps K t := by
  refine ⟨_, rfl, ?_⟩
  repeat' first
    | with_reducible assumption
    | exact sub_mono hp (by decide)
    | exact Or.inr rfl
    | exact Or.inl (may_of hp (by decide))
    | simp only [↓keeps_mk]
    | refine keepsOf_upd ?_ rfl rfl rfl rfl rfl rfl ?_ ?_ ?_ ?_ ?_ ?_ ?_ ?_ ?_ ?_ ?_ ?_ ?_ ?_ ?_ ?_ ?_ ?_ ?_ ?_ ?_ ?_
    | with_reducible apply keeps_bundleIn
    | dsimp -zeta -zetaHave only


theorem keeps_execFirmwareBundleReceive (a b s) (h2 : Keeps K s) (hp : Sub 0x1FB7D K.may) : ∃ t, execFirmwareBundleReceive a b s = .next t ∧ Keeps K t := by
  refine ⟨_, rfl, ?_⟩
  repeat' first
    | with_reducible assumption
    | exact sub_mono hp (by decide)
    | exact Or.inr rfl
    | exact Or.inl (may_of hp (by decide))
    | simp only [↓keeps_mk]
    | refine keepsOf_upd ?_ rfl rfl rfl rfl rfl rfl ?_ ?_ ?_ ?_ ?_ ?_ ?_ ?_ ?_ ?_ ?_ ?_ ?_ ?_ ?_ ?_ ?_ ?_ ?_ ?_ ?_ ?_
    | with_reducible apply keeps_bundleIn
    | dsimp -zeta -zetaHave only


end Sys2Proof.Machine
end

