-- ==== Sys2Proof/Laws/KeepsRadio.lean ====
section
/-!
SUPPORT. What the operations of Machine/Radio.lean keep.
-/
namespace Sys2Proof.Machine
open Sys2Proof

variable {K : Keeping}

theorem keeps_linkFailed (s) (h0 : Keeps K s) (hp : Sub 0x10060 K.may) : Keeps K (linkFailed s) := by
  unfold linkFailed
  repeat' first
    | with_reducible assumption
    | exact sub_mono hp (by decide)
    | (extract_lets +onlyGivenNames x; have hx : Keeps K x; (on_goal 2 => clear_value x); (on_goal 1 => unfold x; clear x))
    | (extract_lets +onlyGivenNames x; have hx : Keeps K x; (on_goal 1 => unfold x; clear x))
    | with_reducible apply keeps_fault
    | with_reducible apply keeps_updAir
    | with_reducible apply keeps_evt
    | with_reducible apply keeps_bump
    | with_reducible apply keeps_refreshAir
    | with_reducible refine keeps_of_fst (by with_reducible assumption) ?_
    | dsimp -zeta -zetaHave only
    | split


theorem keeps_linkAnswered (s) (h0 : Keeps K s) (hp : Sub 0x10060 K.may) : Keeps K (linkAnswered s) := by
  unfold linkAnswered
  repeat' first
    | with_reducible assumption
    | exact sub_mono hp (by decide)
    | with_reducible apply keeps_refreshAir
    | with_reducible apply keeps_updAir
    | dsimp -zeta -zetaHave only


theorem keeps_airValues (s) (h0 : Keeps K s) : Keeps K (airValues s) := by
  unfold airValues
  repeat' first
    | with_reducible assumption
    | with_reducible apply keeps_merged
    | with_reducible refine keeps_of_fst (by with_reducible assumption) ?_
    | dsimp -zeta -zetaHave only
    | split


theorem keeps_readZones (s b c d e) (h0 : Keeps K s) (h4 : Keeps K e) (hp : Sub 0x65 K.may) : Keeps K (readZones s b c d e).1 := by
  induction c generalizing d e <;> unfold readZones
  repeat' first
    | with_reducible assumption
    | exact sub_mono hp (by decide)
    | (extract_lets +onlyGivenNames x; have hx : Keeps K x; (on_goal 2 => clear_value x); (on_goal 1 => unfold x; clear x))
    | (extract_lets +onlyGivenNames x; have hx : Keeps K x; (on_goal 1 => unfold x; clear x))
    | (extract_lets +onlyGivenNames x; clear_value x)
    | extract_lets +onlyGivenNames x
    | with_reducible apply keeps_rd
    | with_reducible apply keeps_bump
    | with_reducible refine keeps_of_fst (by with_reducible assumption) ?_
    | with_reducible apply_assumption -exfalso -symm
    | dsimp -zeta -zetaHave only
    | split


theorem keeps_buildFrame (a b s) (h2 : Keeps K s) (hp : Sub 0x65 K.may) : Keeps K (buildFrame a b s).1 := by
  unfold buildFrame
  repeat' first
    | with_reducible assumption
    | exact sub_mono hp (by decide)
    | (extract_lets +onlyGivenNames x; have hx : Keeps K x; (on_goal 2 => clear_value x); (on_goal 1 => unfold x; clear x))
    | (extract_lets +onlyGivenNames x; have hx : Keeps K x; (on_goal 1 => unfold x; clear x))
    | (extract_lets +onlyGivenNames x; clear_value x)
    | extract_lets +onlyGivenNames x
    | with_reducible apply keeps_airValues
    | with_reducible apply keeps_readZones
    | with_reducible refine keeps_of_fst (by with_reducible assumption) ?_
    | dsimp -zeta -zetaHave only
    | split


theorem keeps_sendAll (a s) (h1 : Keeps K s) (hp : Sub 0x10000 K.may) : Keeps K (sendAll a s) := by
  unfold sendAll
  repeat' first
    | with_reducible assumption
    | exact sub_mono hp (by decide)
    | intro _
    | with_reducible apply keeps_sendPacket
    | with_reducible apply keeps_foldl
    | with_reducible apply keeps_foldl_fst
    | dsimp -zeta -zetaHave only


theorem keeps_chargeBucket (a b c s) (h3 : Keeps K s) (hp : Sub 0x10000 K.may) : Keeps K (chargeBucket a b c s) := by
  unfold chargeBucket
  repeat' first
    | with_reducible assumption
    | exact sub_mono hp (by decide)
    | with_reducible apply keeps_updAir
    | dsimp -zeta -zetaHave only


theorem keeps_bucketAdvance (s) (h0 : Keeps K s) (hp : Sub 0x10000 K.may) : Keeps K (bucketAdvance s) := by
  unfold bucketAdvance
  repeat' first
    | with_reducible assumption
    | exact sub_mono hp (by decide)
    | (extract_lets +onlyGivenNames x; clear_value x)
    | extract_lets +onlyGivenNames x
    | with_reducible apply keeps_updAir
    | dsimp -zeta -zetaHave only


theorem keeps_bucketSync (s) (h0 : Keeps K s) (hp : Sub 0x10000 K.may) : Keeps K (bucketSync s) := by
  unfold bucketSync
  repeat' first
    | with_reducible assumption
    | exact sub_mono hp (by decide)
    | intro _
    | (extract_lets +onlyGivenNames x; clear_value x)
    | extract_lets +onlyGivenNames x
    | with_reducible apply keeps_bucketAdvance
    | with_reducible apply keeps_foldl
    | with_reducible apply keeps_foldl_fst
    | dsimp -zeta -zetaHave only


theorem keeps_chargeFrame (a s) (h1 : Keeps K s) (hp : Sub 0x10000 K.may) : Keeps K (chargeFrame a s).1 := by
  unfold chargeFrame
  repeat' first
    | with_reducible assumption
    | exact sub_mono hp (by decide)
    | (extract_lets +onlyGivenNames x; have hx : Keeps K x; (on_goal 2 => clear_value x); (on_goal 1 => unfold x; clear x))
    | (extract_lets +onlyGivenNames x; have hx : Keeps K x; (on_goal 1 => unfold x; clear x))
    | with_reducible apply keeps_bucketSync
    | with_reducible apply keeps_bump
    | with_reducible apply keeps_chargeBucket
    | dsimp -zeta -zetaHave only


theorem keeps_accState (a s) (h1 : Keeps K s) (hp : Sub 0x60 K.may) : Keeps K (accState a s) := by
  unfold accState
  repeat' first
    | with_reducible assumption
    | exact sub_mono hp (by decide)
    | (extract_lets +onlyGivenNames x; clear_value x)
    | extract_lets +onlyGivenNames x
    | with_reducible apply keeps_evtIf
    | with_reducible apply keeps_set
    | dsimp -zeta -zetaHave only


theorem keeps_lbtGiveUp (s) (h0 : Keeps K s) (hp : Sub 0x10060 K.may) : Keeps K (lbtGiveUp s) := by
  unfold lbtGiveUp
  repeat' first
    | with_reducible assumption
    | exact sub_mono hp (by decide)
    | with_reducible apply keeps_evt
    | with_reducible apply keeps_bump
    | with_reducible apply keeps_updAir
    | dsimp -zeta -zetaHave only


theorem keeps_tryBusy (a s) (h1 : Keeps K s) (hp : Sub 0x10060 K.may) : Keeps K (tryBusy a s) := by
  unfold tryBusy
  repeat' first
    | with_reducible assumption
    | exact sub_mono hp (by decide)
    | with_reducible apply keeps_updAir
    | with_reducible apply keeps_lbtGiveUp
    | with_reducible refine keeps_of_fst (by with_reducible assumption) ?_
    | dsimp -zeta -zetaHave only
    | split


theorem keeps_notLoaded (a s) (h1 : Keeps K s) (hp : Sub 0x10060 K.may) : Keeps K (notLoaded a s) := by
  unfold notLoaded
  repeat' first
    | with_reducible assumption
    | exact sub_mono hp (by decide)
    | with_reducible apply keeps_loadLate
    | with_reducible apply keeps_tryBusy
    | with_reducible refine keeps_of_fst (by with_reducible assumption) ?_
    | dsimp -zeta -zetaHave only
    | split


theorem keeps_sendLoad (a b s) (h2 : Keeps K s) (hp : Sub 0x10060 K.may) : Keeps K (sendLoad a b s) := by
  unfold sendLoad
  repeat' first
    | with_reducible assumption
    | exact sub_mono hp (by decide)
    | (extract_lets +onlyGivenNames x; have hx : Keeps K x; (on_goal 2 => clear_value x); (on_goal 1 => unfold x; clear x))
    | (extract_lets +onlyGivenNames x; have hx : Keeps K x; (on_goal 1 => unfold x; clear x))
    | with_reducible apply keeps_updAir
    | with_reducible apply keeps_notLoaded
    | with_reducible apply keeps_sendAll
    | with_reducible refine keeps_of_fst (by with_reducible assumption) ?_
    | dsimp -zeta -zetaHave only
    | split


theorem keeps_linkBack (s) (h0 : Keeps K s) (hp : Sub 0x10060 K.may) : Keeps K (linkBack s) := by
  unfold linkBack
  repeat' first
    | with_reducible assumption
    | exact sub_mono hp (by decide)
    | (extract_lets +onlyGivenNames x; have hx : Keeps K x; (on_goal 2 => clear_value x); (on_goal 1 => unfold x; clear x))
    | (extract_lets +onlyGivenNames x; have hx : Keeps K x; (on_goal 1 => unfold x; clear x))
    | (extract_lets +onlyGivenNames x; clear_value x)
    | extract_lets +onlyGivenNames x
    | with_reducible apply keeps_airDir
    | with_reducible apply keeps_notLoaded
    | with_reducible apply keeps_sendAll
    | with_reducible apply keeps_updAir
    | with_reducible refine keeps_of_fst (by with_reducible assumption) ?_
    | dsimp -zeta -zetaHave only
    | split


theorem keeps_lbtTry (a s) (h1 : Keeps K s) (hp : Sub 0x10065 K.may) : Keeps K (lbtTry a s) := by
  unfold lbtTry
  repeat' first
    | with_reducible assumption
    | exact sub_mono hp (by decide)
    | (extract_lets +onlyGivenNames x; clear_value x)
    | extract_lets +onlyGivenNames x
    | with_reducible apply keeps_lbtGiveUp
    | with_reducible apply keeps_loadLate
    | with_reducible apply keeps_buildFrame
    | with_reducible apply keeps_sendLoad
    | with_reducible refine keeps_of_fst (by with_reducible assumption) ?_
    | dsimp -zeta -zetaHave only
    | split


theorem keeps_loadInstant (a s) (h1 : Keeps K s) (hp : Sub 0x10065 K.may) : Keeps K (loadInstant a s) := by
  unfold loadInstant
  repeat' first
    | with_reducible assumption
    | exact sub_mono hp (by decide)
    | (extract_lets +onlyGivenNames x; have hx : Keeps K x; (on_goal 2 => clear_value x); (on_goal 1 => unfold x; clear x))
    | (extract_lets +onlyGivenNames x; have hx : Keeps K x; (on_goal 1 => unfold x; clear x))
    | (extract_lets +onlyGivenNames x; clear_value x)
    | extract_lets +onlyGivenNames x
    | with_reducible apply keeps_bucketSync
    | with_reducible apply keeps_accState
    | with_reducible apply keeps_loadLate
    | with_reducible apply keeps_buildFrame
    | with_reducible apply keeps_chargeFrame
    | with_reducible apply keeps_sendLoad
    | with_reducible apply keeps_lbtTry
    | with_reducible apply keeps_bump
    | with_reducible apply keeps_refreshAir
    | with_reducible apply keeps_updAir
    | with_reducible refine keeps_of_fst (by with_reducible assumption) ?_
    | dsimp -zeta -zetaHave only
    | split


theorem keeps_dropFrame (s) (h0 : Keeps K s) (hp : Sub 0x10000 K.may) : Keeps K (dropFrame s) := by
  unfold dropFrame
  repeat' first
    | with_reducible assumption
    | exact sub_mono hp (by decide)
    | with_reducible apply keeps_updAir
    | dsimp -zeta -zetaHave only


theorem keeps_nextTry (s) (h0 : Keeps K s) (hp : Sub 0x10065 K.may) : Keeps K (nextTry s) := by
  unfold nextTry
  repeat' first
    | with_reducible assumption
    | exact sub_mono hp (by decide)
    | (extract_lets +onlyGivenNames x; clear_value x)
    | extract_lets +onlyGivenNames x
    | with_reducible apply keeps_dropFrame
    | with_reducible apply keeps_lbtGiveUp
    | with_reducible apply keeps_lbtTry
    | with_reducible refine keeps_of_fst (by with_reducible assumption) ?_
    | dsimp -zeta -zetaHave only
    | split


theorem keeps_ccaResult (a s) (h1 : Keeps K s) (hp : Sub 0x10060 K.may) : Keeps K (ccaResult a s) := by
  unfold ccaResult
  repeat' first
    | with_reducible assumption
    | exact sub_mono hp (by decide)
    | (extract_lets +onlyGivenNames x; have hx : Keeps K x; (on_goal 2 => clear_value x); (on_goal 1 => unfold x; clear x))
    | (extract_lets +onlyGivenNames x; have hx : Keeps K x; (on_goal 1 => unfold x; clear x))
    | with_reducible apply keeps_linkBack
    | with_reducible apply keeps_dropFrame
    | with_reducible apply keeps_tryBusy
    | with_reducible apply keeps_chargeFrame
    | with_reducible apply keeps_updAir
    | with_reducible refine keeps_of_fst (by with_reducible assumption) ?_
    | dsimp -zeta -zetaHave only
    | split


theorem keeps_txgo (s) (h0 : Keeps K s) (hp : Sub 0x10000 K.may) : Keeps K (txgo s) := by
  unfold txgo
  repeat' first
    | with_reducible assumption
    | exact sub_mono hp (by decide)
    | with_reducible apply keeps_dropFrame
    | with_reducible apply keeps_emit
    | with_reducible apply keeps_updAir
    | with_reducible refine keeps_of_fst (by with_reducible assumption) ?_
    | dsimp -zeta -zetaHave only
    | split


theorem keeps_txDone (a s) (h1 : Keeps K s) (hp : Sub 0x10060 K.may) : Keeps K (txDone a s) := by
  unfold txDone
  repeat' first
    | with_reducible assumption
    | exact sub_mono hp (by decide)
    | (extract_lets +onlyGivenNames x; have hx : Keeps K x; (on_goal 2 => clear_value x); (on_goal 1 => unfold x; clear x))
    | (extract_lets +onlyGivenNames x; have hx : Keeps K x; (on_goal 1 => unfold x; clear x))
    | with_reducible apply keeps_evt
    | with_reducible apply keeps_linkAnswered
    | with_reducible apply keeps_linkBack
    | with_reducible apply keeps_bump
    | with_reducible apply keeps_refreshAir
    | with_reducible apply keeps_updAir
    | with_reducible refine keeps_of_fst (by with_reducible assumption) ?_
    | dsimp -zeta -zetaHave only
    | split


theorem keeps_linkTimeout (a s) (h1 : Keeps K s) (hp : Sub 0x10060 K.may) : Keeps K (linkTimeout a s) := by
  unfold linkTimeout
  repeat' first
    | with_reducible assumption
    | exact sub_mono hp (by decide)
    | with_reducible apply keeps_linkFailed
    | with_reducible apply keeps_updAir
    | with_reducible refine keeps_of_fst (by with_reducible assumption) ?_
    | dsimp -zeta -zetaHave only
    | split


theorem keeps_rxFrame (a b s) (h2 : Keeps K s) (hp : Sub 0x10060 K.may) : Keeps K (rxFrame a b s) := by
  unfold rxFrame
  repeat' first
    | with_reducible assumption
    | exact sub_mono hp (by decide)
    | (extract_lets +onlyGivenNames x; have hx : Keeps K x; (on_goal 2 => clear_value x); (on_goal 1 => unfold x; clear x))
    | (extract_lets +onlyGivenNames x; have hx : Keeps K x; (on_goal 1 => unfold x; clear x))
    | with_reducible apply keeps_linkBack
    | with_reducible apply keeps_updAir
    | with_reducible apply keeps_evt
    | with_reducible apply keeps_bump
    | with_reducible refine keeps_of_fst (by with_reducible assumption) ?_
    | dsimp -zeta -zetaHave only
    | split


theorem keeps_writeAccounting (s) (h0 : Keeps K s) (hp : Sub 0x110004 K.may) : Keeps K (writeAccounting s) := by
  unfold writeAccounting
  repeat' first
    | with_reducible assumption
    | exact sub_mono hp (by decide)
    | (extract_lets +onlyGivenNames x; have hx : Keeps K x; (on_goal 2 => clear_value x); (on_goal 1 => unfold x; clear x))
    | (extract_lets +onlyGivenNames x; have hx : Keeps K x; (on_goal 1 => unfold x; clear x))
    | (extract_lets +onlyGivenNames x; clear_value x)
    | extract_lets +onlyGivenNames x
    | exact Or.inr rfl
    | exact Or.inl (may_of hp (by decide))
    | simp only [↓keeps_mk]
    | refine keepsOf_upd ?_ rfl rfl rfl rfl rfl rfl ?_ ?_ ?_ ?_ ?_ ?_ ?_ ?_ ?_ ?_ ?_ ?_ ?_ ?_ ?_ ?_ ?_ ?_ ?_ ?_ ?_ ?_
    | with_reducible apply keeps_internalProg
    | with_reducible apply keeps_updAir
    | dsimp -zeta -zetaHave only


theorem keeps_recordDue (s) (h0 : Keeps K s) (hp : Sub 0x110004 K.may) : Keeps K (recordDue s) := by
  unfold recordDue
  repeat' first
    | with_reducible assumption
    | exact sub_mono hp (by decide)
    | with_reducible apply keeps_writeAccounting
    | with_reducible refine keeps_of_fst (by with_reducible assumption) ?_
    | dsimp -zeta -zetaHave only
    | split


theorem keeps_useSecond (a s c) (h1 : Keeps K s) (hp : Sub 0x10000 K.may) : Keeps K (useSecond a s c) := by
  unfold useSecond
  repeat' first
    | with_reducible assumption
    | exact sub_mono hp (by decide)
    | (extract_lets +onlyGivenNames x; have hx : Keeps K x; (on_goal 2 => clear_value x); (on_goal 1 => unfold x; clear x))
    | (extract_lets +onlyGivenNames x; have hx : Keeps K x; (on_goal 1 => unfold x; clear x))
    | (extract_lets +onlyGivenNames x; clear_value x)
    | extract_lets +onlyGivenNames x
    | with_reducible apply keeps_bucketAdvance
    | with_reducible apply keeps_chargeBucket
    | with_reducible refine keeps_of_fst (by with_reducible assumption) ?_
    | dsimp -zeta -zetaHave only
    | split


theorem keeps_ageBuckets (a b s) (h2 : Keeps K s) (hp : Sub 0x10000 K.may) : Keeps K (ageBuckets a b s) := by
  unfold ageBuckets
  repeat' first
    | with_reducible assumption
    | exact sub_mono hp (by decide)
    | intro _
    | with_reducible apply keeps_bucketAdvance
    | with_reducible apply keeps_foldl
    | with_reducible apply keeps_foldl_fst
    | dsimp -zeta -zetaHave only


theorem keeps_loadAccounting (a b s) (h2 : Keeps K s) (hp : Sub 0x10000 K.may) : Keeps K (loadAccounting a b s) := by
  unfold loadAccounting
  repeat' first
    | with_reducible assumption
    | exact sub_mono hp (by decide)
    | intro _
    | (extract_lets +onlyGivenNames x; have hx : Keeps K x; (on_goal 2 => clear_value x); (on_goal 1 => unfold x; clear x))
    | (extract_lets +onlyGivenNames x; have hx : Keeps K x; (on_goal 1 => unfold x; clear x))
    | (extract_lets +onlyGivenNames x; clear_value x)
    | extract_lets +onlyGivenNames x
    | with_reducible apply keeps_updAir
    | with_reducible apply keeps_chargeBucket
    | with_reducible apply keeps_ageBuckets
    | with_reducible apply keeps_useSecond
    | with_reducible apply keeps_foldl
    | with_reducible apply keeps_foldl_fst
    | with_reducible refine keeps_of_fst (by with_reducible assumption) ?_
    | dsimp -zeta -zetaHave only
    | split


theorem keeps_restoreAccounting (s) (h0 : Keeps K s) (hp : Sub 0x10065 K.may) : Keeps K (restoreAccounting s) := by
  unfold restoreAccounting
  repeat' first
    | with_reducible assumption
    | exact sub_mono hp (by decide)
    | intro _
    | (extract_lets +onlyGivenNames x; have hx : Keeps K x; (on_goal 2 => clear_value x); (on_goal 1 => unfold x; clear x))
    | (extract_lets +onlyGivenNames x; have hx : Keeps K x; (on_goal 1 => unfold x; clear x))
    | (extract_lets +onlyGivenNames x; clear_value x)
    | extract_lets +onlyGivenNames x
    | with_reducible apply keeps_readCopies
    | with_reducible apply keeps_updAir
    | with_reducible apply keeps_set
    | with_reducible apply keeps_loadAccounting
    | with_reducible apply keeps_chargeBucket
    | with_reducible apply keeps_evt
    | with_reducible apply keeps_foldl
    | with_reducible apply keeps_foldl_fst
    | with_reducible refine keeps_of_fst (by with_reducible assumption) ?_
    | dsimp -zeta -zetaHave only
    | split


theorem keeps_restoreOnce (s) (h0 : Keeps K s) (hp : Sub 0x10065 K.may) : Keeps K (restoreOnce s) := by
  unfold restoreOnce
  repeat' first
    | with_reducible assumption
    | exact sub_mono hp (by decide)
    | with_reducible apply keeps_restoreAccounting
    | with_reducible refine keeps_of_fst (by with_reducible assumption) ?_
    | dsimp -zeta -zetaHave only
    | split


theorem keeps_missedOffer (a s) (h1 : Keeps K s) (hp : Sub 0x10060 K.may) : Keeps K (missedOffer a s) := by
  unfold missedOffer
  repeat' first
    | with_reducible assumption
    | exact sub_mono hp (by decide)
    | with_reducible apply keeps_evt
    | with_reducible apply keeps_bump
    | with_reducible apply keeps_loadLate
    | with_reducible refine keeps_of_fst (by with_reducible assumption) ?_
    | dsimp -zeta -zetaHave only
    | split


theorem keeps_arbOffer (a b c d e f g s) (h7 : Keeps K s) (hp : Sub 0x10064 K.may) : Keeps K (arbOffer a b c d e f g s) := by
  unfold arbOffer
  repeat' first
    | with_reducible assumption
    | exact sub_mono hp (by decide)
    | with_reducible apply keeps_missedOffer
    | with_reducible apply keeps_arbRequest
    | with_reducible refine keeps_of_fst (by with_reducible assumption) ?_
    | dsimp -zeta -zetaHave only
    | split


theorem keeps_execArbiterRequest (a b c d e f g s) (h7 : Keeps K s) (hp : Sub 0x10064 K.may) : ∃ t, execArbiterRequest a b c d e f g s = .next t ∧ Keeps K t := by
  refine ⟨_, rfl, ?_⟩
  repeat' first
    | with_reducible assumption
    | exact sub_mono hp (by decide)
    | (extract_lets +onlyGivenNames x; clear_value x)
    | extract_lets +onlyGivenNames x
    | exact Or.inr rfl
    | exact Or.inl (may_of hp (by decide))
    | simp only [↓keeps_mk]
    | refine keepsOf_upd ?_ rfl rfl rfl rfl rfl rfl ?_ ?_ ?_ ?_ ?_ ?_ ?_ ?_ ?_ ?_ ?_ ?_ ?_ ?_ ?_ ?_ ?_ ?_ ?_ ?_ ?_ ?_
    | with_reducible apply keeps_arbOffer
    | dsimp -zeta -zetaHave only


theorem keeps_execAirIrq (s) (h0 : Keeps K s) (hp : Sub 0x10000 K.may) : ∃ t, execAirIrq s = .next t ∧ Keeps K t := by
  refine ⟨_, rfl, ?_⟩
  repeat' first
    | with_reducible assumption
    | exact sub_mono hp (by decide)
    | exact Or.inr rfl
    | exact Or.inl (may_of hp (by decide))
    | simp only [↓keeps_mk]
    | refine keepsOf_upd ?_ rfl rfl rfl rfl rfl rfl ?_ ?_ ?_ ?_ ?_ ?_ ?_ ?_ ?_ ?_ ?_ ?_ ?_ ?_ ?_ ?_ ?_ ?_ ?_ ?_ ?_ ?_
    | with_reducible apply keeps_airDir
    | with_reducible refine keeps_of_fst (by with_reducible assumption) ?_
    | dsimp -zeta -zetaHave only
    | split


theorem keeps_execTxdone (a s) (h1 : Keeps K s) (hp : Sub 0x10060 K.may) : ∃ t, execTxdone a s = .next t ∧ Keeps K t := by
  refine ⟨_, rfl, ?_⟩
  repeat' first
    | with_reducible assumption
    | exact sub_mono hp (by decide)
    | exact Or.inr rfl
    | exact Or.inl (may_of hp (by decide))
    | simp only [↓keeps_mk]
    | refine keepsOf_upd ?_ rfl rfl rfl rfl rfl rfl ?_ ?_ ?_ ?_ ?_ ?_ ?_ ?_ ?_ ?_ ?_ ?_ ?_ ?_ ?_ ?_ ?_ ?_ ?_ ?_ ?_ ?_
    | with_reducible apply keeps_txDone
    | dsimp -zeta -zetaHave only


theorem keeps_execCcares (a b s) (h2 : Keeps K s) (hp : Sub 0x10060 K.may) : ∃ t, execCcares a b s = .next t ∧ Keeps K t := by
  refine ⟨_, rfl, ?_⟩
  repeat' first
    | with_reducible assumption
    | exact sub_mono hp (by decide)
    | (extract_lets +onlyGivenNames x; clear_value x)
    | extract_lets +onlyGivenNames x
    | exact Or.inr rfl
    | exact Or.inl (may_of hp (by decide))
    | simp only [↓keeps_mk]
    | refine keepsOf_upd ?_ rfl rfl rfl rfl rfl rfl ?_ ?_ ?_ ?_ ?_ ?_ ?_ ?_ ?_ ?_ ?_ ?_ ?_ ?_ ?_ ?_ ?_ ?_ ?_ ?_ ?_ ?_
    | with_reducible apply keeps_ccaResult
    | with_reducible refine keeps_of_fst (by with_reducible assumption) ?_
    | dsimp -zeta -zetaHave only
    | split


theorem keeps_execRxframe (a b s) (h2 : Keeps K s) (hp : Sub 0x10060 K.may) : ∃ t, execRxframe a b s = .next t ∧ Keeps K t := by
  refine ⟨_, rfl, ?_⟩
  repeat' first
    | with_reducible assumption
    | exact sub_mono hp (by decide)
    | exact Or.inr rfl
    | exact Or.inl (may_of hp (by decide))
    | simp only [↓keeps_mk]
    | refine keepsOf_upd ?_ rfl rfl rfl rfl rfl rfl ?_ ?_ ?_ ?_ ?_ ?_ ?_ ?_ ?_ ?_ ?_ ?_ ?_ ?_ ?_ ?_ ?_ ?_ ?_ ?_ ?_ ?_
    | with_reducible apply keeps_rxFrame
    | dsimp -zeta -zetaHave only


theorem keeps_execRdata (a s) (h1 : Keeps K s) (hp : Sub 0x10060 K.may) : ∃ t, execRdata a s = .next t ∧ Keeps K t := by
  refine ⟨_, rfl, ?_⟩
  repeat' first
    | with_reducible assumption
    | exact sub_mono hp (by decide)
    | (extract_lets +onlyGivenNames x; clear_value x)
    | extract_lets +onlyGivenNames x
    | exact Or.inr rfl
    | exact Or.inl (may_of hp (by decide))
    | simp only [↓keeps_mk]
    | refine keepsOf_upd ?_ rfl rfl rfl rfl rfl rfl ?_ ?_ ?_ ?_ ?_ ?_ ?_ ?_ ?_ ?_ ?_ ?_ ?_ ?_ ?_ ?_ ?_ ?_ ?_ ?_ ?_ ?_
    | with_reducible apply keeps_linkAnswered
    | with_reducible apply keeps_linkBack
    | with_reducible refine keeps_of_fst (by with_reducible assumption) ?_
    | dsimp -zeta -zetaHave only
    | split


theorem keeps_execAirRxsof (s) (h0 : Keeps K s) (hp : Sub 0x10000 K.may) : ∃ t, execAirRxsof s = .next t ∧ Keeps K t := by
  refine ⟨_, rfl, ?_⟩
  repeat' first
    | with_reducible assumption
    | exact sub_mono hp (by decide)
    | exact Or.inr rfl
    | exact Or.inl (may_of hp (by decide))
    | simp only [↓keeps_mk]
    | refine keepsOf_upd ?_ rfl rfl rfl rfl rfl rfl ?_ ?_ ?_ ?_ ?_ ?_ ?_ ?_ ?_ ?_ ?_ ?_ ?_ ?_ ?_ ?_ ?_ ?_ ?_ ?_ ?_ ?_
    | with_reducible apply keeps_updAir
    | with_reducible refine keeps_of_fst (by with_reducible assumption) ?_
    | dsimp -zeta -zetaHave only
    | split


theorem keeps_execLinkPacketCrcError (s) (h0 : Keeps K s) (hp : Sub 0x10060 K.may) : ∃ t, execLinkPacketCrcError s = .next t ∧ Keeps K t := by
  refine ⟨_, rfl, ?_⟩
  repeat' first
    | with_reducible assumption
    | exact sub_mono hp (by decide)
    | exact Or.inr rfl
    | exact Or.inl (may_of hp (by decide))
    | simp only [↓keeps_mk]
    | refine keepsOf_upd ?_ rfl rfl rfl rfl rfl rfl ?_ ?_ ?_ ?_ ?_ ?_ ?_ ?_ ?_ ?_ ?_ ?_ ?_ ?_ ?_ ?_ ?_ ?_ ?_ ?_ ?_ ?_
    | with_reducible apply keeps_fault
    | with_reducible apply keeps_bump
    | with_reducible apply keeps_linkBack
    | with_reducible refine keeps_of_fst (by with_reducible assumption) ?_
    | dsimp -zeta -zetaHave only
    | split


theorem keeps_execCrowdLoadInstant (a s) (h1 : Keeps K s) (hp : Sub 0x10065 K.may) : ∃ t, execCrowdLoadInstant a s = .next t ∧ Keeps K t := by
  refine ⟨_, rfl, ?_⟩
  repeat' first
    | with_reducible assumption
    | exact sub_mono hp (by decide)
    | exact Or.inr rfl
    | exact Or.inl (may_of hp (by decide))
    | simp only [↓keeps_mk]
    | refine keepsOf_upd ?_ rfl rfl rfl rfl rfl rfl ?_ ?_ ?_ ?_ ?_ ?_ ?_ ?_ ?_ ?_ ?_ ?_ ?_ ?_ ?_ ?_ ?_ ?_ ?_ ?_ ?_ ?_
    | with_reducible apply keeps_loadInstant
    | dsimp -zeta -zetaHave only


theorem keeps_execLoadlate (s) (h0 : Keeps K s) (hp : Sub 0x10060 K.may) : ∃ t, execLoadlate s = .next t ∧ Keeps K t := by
  refine ⟨_, rfl, ?_⟩
  repeat' first
    | with_reducible assumption
    | exact sub_mono hp (by decide)
    | exact Or.inr rfl
    | exact Or.inl (may_of hp (by decide))
    | simp only [↓keeps_mk]
    | refine keepsOf_upd ?_ rfl rfl rfl rfl rfl rfl ?_ ?_ ?_ ?_ ?_ ?_ ?_ ?_ ?_ ?_ ?_ ?_ ?_ ?_ ?_ ?_ ?_ ?_ ?_ ?_ ?_ ?_
    | with_reducible apply keeps_notLoaded
    | with_reducible refine keeps_of_fst (by with_reducible assumption) ?_
    | dsimp -zeta -zetaHave only
    | split


theorem keeps_execCrowdTxgo (s) (h0 : Keeps K s) (hp : Sub 0x10000 K.may) : ∃ t, execCrowdTxgo s = .next t ∧ Keeps K t := by
  refine ⟨_, rfl, ?_⟩
  repeat' first
    | with_reducible assumption
    | exact sub_mono hp (by decide)
    | exact Or.inr rfl
    | exact Or.inl (may_of hp (by decide))
    | simp only [↓keeps_mk]
    | refine keepsOf_upd ?_ rfl rfl rfl rfl rfl rfl ?_ ?_ ?_ ?_ ?_ ?_ ?_ ?_ ?_ ?_ ?_ ?_ ?_ ?_ ?_ ?_ ?_ ?_ ?_ ?_ ?_ ?_
    | with_reducible apply keeps_txgo
    | dsimp -zeta -zetaHave only


theorem keeps_execLbtTry (s) (h0 : Keeps K s) (hp : Sub 0x10065 K.may) : ∃ t, execLbtTry s = .next t ∧ Keeps K t := by
  refine ⟨_, rfl, ?_⟩
  repeat' first
    | with_reducible assumption
    | exact sub_mono hp (by decide)
    | exact Or.inr rfl
    | exact Or.inl (may_of hp (by decide))
    | simp only [↓keeps_mk]
    | refine keepsOf_upd ?_ rfl rfl rfl rfl rfl rfl ?_ ?_ ?_ ?_ ?_ ?_ ?_ ?_ ?_ ?_ ?_ ?_ ?_ ?_ ?_ ?_ ?_ ?_ ?_ ?_ ?_ ?_
    | with_reducible apply keeps_nextTry
    | dsimp -zeta -zetaHave only


theorem keeps_execBucketAdvance (s) (h0 : Keeps K s) (hp : Sub 0x10000 K.may) : ∃ t, execBucketAdvance s = .next t ∧ Keeps K t := by
  refine ⟨_, rfl, ?_⟩
  repeat' first
    | with_reducible assumption
    | exact sub_mono hp (by decide)
    | exact Or.inr rfl
    | exact Or.inl (may_of hp (by decide))
    | simp only [↓keeps_mk]
    | refine keepsOf_upd ?_ rfl rfl rfl rfl rfl rfl ?_ ?_ ?_ ?_ ?_ ?_ ?_ ?_ ?_ ?_ ?_ ?_ ?_ ?_ ?_ ?_ ?_ ?_ ?_ ?_ ?_ ?_
    | with_reducible apply keeps_bucketSync
    | dsimp -zeta -zetaHave only


theorem keeps_execAccountingRecordWrite (s) (h0 : Keeps K s) (hp : Sub 0x110004 K.may) : ∃ t, execAccountingRecordWrite s = .next t ∧ Keeps K t := by
  refine ⟨_, rfl, ?_⟩
  repeat' first
    | with_reducible assumption
    | exact sub_mono hp (by decide)
    | exact Or.inr rfl
    | exact Or.inl (may_of hp (by decide))
    | simp only [↓keeps_mk]
    | refine keepsOf_upd ?_ rfl rfl rfl rfl rfl rfl ?_ ?_ ?_ ?_ ?_ ?_ ?_ ?_ ?_ ?_ ?_ ?_ ?_ ?_ ?_ ?_ ?_ ?_ ?_ ?_ ?_ ?_
    | with_reducible apply keeps_recordDue
    | dsimp -zeta -zetaHave only


theorem keeps_execAccountingRestore (s) (h0 : Keeps K s) (hp : Sub 0x10065 K.may) : ∃ t, execAccountingRestore s = .next t ∧ Keeps K t := by
  refine ⟨_, rfl, ?_⟩
  repeat' first
    | with_reducible assumption
    | exact sub_mono hp (by decide)
    | exact Or.inr rfl
    | exact Or.inl (may_of hp (by decide))
    | simp only [↓keeps_mk]
    | refine keepsOf_upd ?_ rfl rfl rfl rfl rfl rfl ?_ ?_ ?_ ?_ ?_ ?_ ?_ ?_ ?_ ?_ ?_ ?_ ?_ ?_ ?_ ?_ ?_ ?_ ?_ ?_ ?_ ?_
    | with_reducible apply keeps_restoreOnce
    | dsimp -zeta -zetaHave only


theorem keeps_execLinkTimeout (a s) (h1 : Keeps K s) (hp : Sub 0x10060 K.may) : ∃ t, execLinkTimeout a s = .next t ∧ Keeps K t := by
  refine ⟨_, rfl, ?_⟩
  repeat' first
    | with_reducible assumption
    | exact sub_mono hp (by decide)
    | exact Or.inr rfl
    | exact Or.inl (may_of hp (by decide))
    | simp only [↓keeps_mk]
    | refine keepsOf_upd ?_ rfl rfl rfl rfl rfl rfl ?_ ?_ ?_ ?_ ?_ ?_ ?_ ?_ ?_ ?_ ?_ ?_ ?_ ?_ ?_ ?_ ?_ ?_ ?_ ?_ ?_ ?_
    | with_reducible apply keeps_linkTimeout
    | dsimp -zeta -zetaHave only


theorem keeps_execRegisterListResend (s) (h0 : Keeps K s) (hp : Sub 0x10000 K.may) : ∃ t, execRegisterListResend s = .next t ∧ Keeps K t := by
  refine ⟨_, rfl, ?_⟩
  repeat' first
    | with_reducible assumption
    | exact sub_mono hp (by decide)
    | exact Or.inr rfl
    | exact Or.inl (may_of hp (by decide))
    | simp only [↓keeps_mk]
    | refine keepsOf_upd ?_ rfl rfl rfl rfl rfl rfl ?_ ?_ ?_ ?_ ?_ ?_ ?_ ?_ ?_ ?_ ?_ ?_ ?_ ?_ ?_ ?_ ?_ ?_ ?_ ?_ ?_ ?_
    | with_reducible apply keeps_sendList
    | with_reducible refine keeps_of_fst (by with_reducible assumption) ?_
    | dsimp -zeta -zetaHave only
    | split


theorem keeps_execRegisterListWrite (s) (h0 : Keeps K s) (hp : Sub 0x10000 K.may) : ∃ t, execRegisterListWrite s = .next t ∧ Keeps K t := by
  refine ⟨_, rfl, ?_⟩
  repeat' first
    | with_reducible assumption
    | exact sub_mono hp (by decide)
    | exact Or.inr rfl
    | exact Or.inl (may_of hp (by decide))
    | simp only [↓keeps_mk]
    | refine keepsOf_upd ?_ rfl rfl rfl rfl rfl rfl ?_ ?_ ?_ ?_ ?_ ?_ ?_ ?_ ?_ ?_ ?_ ?_ ?_ ?_ ?_ ?_ ?_ ?_ ?_ ?_ ?_ ?_
    | with_reducible apply keeps_airEntered
    | dsimp -zeta -zetaHave only


end Sys2Proof.Machine
end

