-- ==== Sys2Proof/Laws/KeepsCourse.lean ====
section
/-!
SUPPORT. What the operations of Machine/Course.lean keep.
-/
namespace Sys2Proof.Machine
open Sys2Proof

variable {K : Keeping}

theorem keeps_updLane (s b c d) (h0 : Keeps K s) (hp : Sub 0x4000 K.may) : Keeps K (updLane s b c d) := by
  unfold updLane
  repeat' first
    | with_reducible assumption
    | exact sub_mono hp (by decide)
    | with_reducible apply keeps_updBru
    | dsimp -zeta -zetaHave only


theorem keeps_portDown (a s) (h1 : Keeps K s) (hp : Sub 0x1C060 K.may) : Keeps K (portDown a s) := by
  unfold portDown
  repeat' first
    | with_reducible assumption
    | exact sub_mono hp (by decide)
    | intro _
    | (extract_lets +onlyGivenNames x; have hx : Keeps K x; (on_goal 2 => clear_value x); (on_goal 1 => unfold x; clear x))
    | (extract_lets +onlyGivenNames x; have hx : Keeps K x; (on_goal 1 => unfold x; clear x))
    | (extract_lets +onlyGivenNames x; clear_value x)
    | extract_lets +onlyGivenNames x
    | with_reducible apply keeps_bump
    | with_reducible apply keeps_heldAdd
    | with_reducible apply keeps_updFab
    | with_reducible apply keeps_updBru
    | with_reducible apply keeps_refreshAll
    | with_reducible apply keeps_topoChange
    | with_reducible apply keeps_evt
    | with_reducible apply keeps_foldl
    | with_reducible apply keeps_foldl_fst
    | with_reducible refine keeps_of_fst (by with_reducible assumption) ?_
    | dsimp -zeta -zetaHave only
    | split


theorem keeps_portCheck (a s) (h1 : Keeps K s) (hp : Sub 0x1C068 K.may) : Keeps K (portCheck a s) := by
  unfold portCheck
  repeat' first
    | with_reducible assumption
    | exact sub_mono hp (by decide)
    | (extract_lets +onlyGivenNames x; have hx : Keeps K x; (on_goal 2 => clear_value x); (on_goal 1 => unfold x; clear x))
    | (extract_lets +onlyGivenNames x; have hx : Keeps K x; (on_goal 1 => unfold x; clear x))
    | (extract_lets +onlyGivenNames x; clear_value x)
    | extract_lets +onlyGivenNames x
    | with_reducible apply keeps_evtIf
    | with_reducible apply keeps_updBru
    | with_reducible apply keeps_discEval
    | with_reducible apply keeps_refreshAll
    | with_reducible apply keeps_topoChange
    | with_reducible apply keeps_evt
    | with_reducible apply keeps_portDown
    | with_reducible refine keeps_of_fst (by with_reducible assumption) ?_
    | dsimp -zeta -zetaHave only
    | split


theorem keeps_flbEnd (a s) (h1 : Keeps K s) (hp : Sub 0x1C068 K.may) : Keeps K (flbEnd a s) := by
  unfold flbEnd
  repeat' first
    | with_reducible assumption
    | exact sub_mono hp (by decide)
    | with_reducible apply keeps_portCheck
    | with_reducible apply keeps_updBru
    | with_reducible refine keeps_of_fst (by with_reducible assumption) ?_
    | dsimp -zeta -zetaHave only
    | split


theorem keeps_laneTo (a b c s) (h3 : Keeps K s) (hp : Sub 0x1C068 K.may) : Keeps K (laneTo a b c s) := by
  unfold laneTo
  repeat' first
    | with_reducible assumption
    | exact sub_mono hp (by decide)
    | (extract_lets +onlyGivenNames x; have hx : Keeps K x; (on_goal 2 => clear_value x); (on_goal 1 => unfold x; clear x))
    | (extract_lets +onlyGivenNames x; have hx : Keeps K x; (on_goal 1 => unfold x; clear x))
    | (extract_lets +onlyGivenNames x; clear_value x)
    | extract_lets +onlyGivenNames x
    | with_reducible apply keeps_updLane
    | with_reducible apply keeps_updBru
    | with_reducible apply keeps_portCheck
    | with_reducible refine keeps_of_fst (by with_reducible assumption) ?_
    | dsimp -zeta -zetaHave only
    | split


theorem keeps_laneDark (a b s) (h2 : Keeps K s) (hp : Sub 0x1C068 K.may) : Keeps K (laneDark a b s) := by
  unfold laneDark
  repeat' first
    | with_reducible assumption
    | exact sub_mono hp (by decide)
    | with_reducible apply keeps_updLane
    | with_reducible apply keeps_laneTo
    | dsimp -zeta -zetaHave only


theorem keeps_bruStop (a s) (h1 : Keeps K s) (hp : Sub 0x1C068 K.may) : Keeps K (bruStop a s) := by
  unfold bruStop
  repeat' first
    | with_reducible assumption
    | exact sub_mono hp (by decide)
    | with_reducible apply keeps_laneDark
    | with_reducible refine keeps_of_fst (by with_reducible assumption) ?_
    | dsimp -zeta -zetaHave only
    | split


theorem keeps_laneSeek (a b s) (h2 : Keeps K s) (hp : Sub 0x1C068 K.may) : Keeps K (laneSeek a b s) := by
  unfold laneSeek
  repeat' first
    | with_reducible assumption
    | exact sub_mono hp (by decide)
    | with_reducible apply keeps_laneTo
    | with_reducible apply keeps_bump
    | with_reducible refine keeps_of_fst (by with_reducible assumption) ?_
    | dsimp -zeta -zetaHave only
    | split


theorem keeps_signalDetect (a b s) (h2 : Keeps K s) (hp : Sub 0x1C068 K.may) : Keeps K (signalDetect a b s) := by
  unfold signalDetect
  repeat' first
    | with_reducible assumption
    | exact sub_mono hp (by decide)
    | with_reducible apply keeps_laneTo
    | with_reducible refine keeps_of_fst (by with_reducible assumption) ?_
    | dsimp -zeta -zetaHave only
    | split


theorem keeps_signalLoss (a b s) (h2 : Keeps K s) (hp : Sub 0x1C068 K.may) : Keeps K (signalLoss a b s) := by
  unfold signalLoss
  repeat' first
    | with_reducible assumption
    | exact sub_mono hp (by decide)
    | with_reducible apply keeps_laneDark
    | dsimp -zeta -zetaHave only


theorem keeps_commaLock (a b c d s) (h4 : Keeps K s) (hp : Sub 0x1C068 K.may) : Keeps K (commaLock a b c d s) := by
  unfold commaLock
  repeat' first
    | with_reducible assumption
    | exact sub_mono hp (by decide)
    | with_reducible apply keeps_laneTo
    | with_reducible apply keeps_updLane
    | with_reducible refine keeps_of_fst (by with_reducible assumption) ?_
    | dsimp -zeta -zetaHave only
    | split


theorem keeps_halfStuck (a b s) (h2 : Keeps K s) (hp : Sub 0x4060 K.may) : Keeps K (halfStuck a b s) := by
  unfold halfStuck
  repeat' first
    | with_reducible assumption
    | exact sub_mono hp (by decide)
    | with_reducible apply keeps_evt
    | with_reducible apply keeps_updLane
    | with_reducible refine keeps_of_fst (by with_reducible assumption) ?_
    | dsimp -zeta -zetaHave only
    | split


theorem keeps_startBundle (a b s) (h2 : Keeps K s) (hp : Sub 0x4000 K.may) : Keeps K (startBundle a b s) := by
  unfold startBundle
  repeat' first
    | with_reducible assumption
    | exact sub_mono hp (by decide)
    | (extract_lets +onlyGivenNames x; have hx : Keeps K x; (on_goal 2 => clear_value x); (on_goal 1 => unfold x; clear x))
    | (extract_lets +onlyGivenNames x; have hx : Keeps K x; (on_goal 1 => unfold x; clear x))
    | (extract_lets +onlyGivenNames x; clear_value x)
    | extract_lets +onlyGivenNames x
    | with_reducible apply keeps_bump
    | with_reducible apply keeps_updBru
    | with_reducible refine keeps_of_fst (by with_reducible assumption) ?_
    | dsimp -zeta -zetaHave only
    | split


theorem keeps_sendSegment (a b c d s) (h4 : Keeps K s) (hp : Sub 0xC000 K.may) : Keeps K (sendSegment a b c d s).1 := by
  unfold sendSegment
  repeat' first
    | with_reducible assumption
    | exact sub_mono hp (by decide)
    | (extract_lets +onlyGivenNames x; have hx : Keeps K x; (on_goal 2 => clear_value x); (on_goal 1 => unfold x; clear x))
    | (extract_lets +onlyGivenNames x; have hx : Keeps K x; (on_goal 1 => unfold x; clear x))
    | (extract_lets +onlyGivenNames x; clear_value x)
    | extract_lets +onlyGivenNames x
    | with_reducible apply keeps_updBru
    | with_reducible apply keeps_heldAdd
    | with_reducible refine keeps_of_fst (by with_reducible assumption) ?_
    | dsimp -zeta -zetaHave only
    | split


theorem keeps_replayStart (a s) (h1 : Keeps K s) (hp : Sub 0x4000 K.may) : Keeps K (replayStart a s) := by
  unfold replayStart
  repeat' first
    | with_reducible assumption
    | exact sub_mono hp (by decide)
    | (extract_lets +onlyGivenNames x; have hx : Keeps K x; (on_goal 2 => clear_value x); (on_goal 1 => unfold x; clear x))
    | (extract_lets +onlyGivenNames x; have hx : Keeps K x; (on_goal 1 => unfold x; clear x))
    | (extract_lets +onlyGivenNames x; clear_value x)
    | extract_lets +onlyGivenNames x
    | with_reducible apply keeps_bump
    | with_reducible apply keeps_updBru
    | with_reducible refine keeps_of_fst (by with_reducible assumption) ?_
    | dsimp -zeta -zetaHave only
    | split


theorem keeps_dataCourse (a s) (h1 : Keeps K s) (hp : Sub 0xC065 K.may) : Keeps K (dataCourse a s).1 := by
  unfold dataCourse
  repeat' first
    | with_reducible assumption
    | exact sub_mono hp (by decide)
    | (extract_lets +onlyGivenNames x; have hx : Keeps K x; (on_goal 2 => clear_value x); (on_goal 1 => unfold x; clear x))
    | (extract_lets +onlyGivenNames x; have hx : Keeps K x; (on_goal 1 => unfold x; clear x))
    | (extract_lets +onlyGivenNames x; clear_value x)
    | extract_lets +onlyGivenNames x
    | with_reducible apply keeps_replayStart
    | with_reducible apply keeps_bump
    | with_reducible apply keeps_updBru
    | with_reducible apply keeps_sendSegment
    | with_reducible apply keeps_startBundle
    | with_reducible apply keeps_pubNext
    | with_reducible refine keeps_of_fst (by with_reducible assumption) ?_
    | dsimp -zeta -zetaHave only
    | split


theorem keeps_sendCourse (a b c d s) (h4 : Keeps K s) (hp : Sub 0x4000 K.may) : Keeps K (sendCourse a b c d s).1 := by
  unfold sendCourse
  repeat' first
    | with_reducible assumption
    | exact sub_mono hp (by decide)
    | (extract_lets +onlyGivenNames x; have hx : Keeps K x; (on_goal 2 => clear_value x); (on_goal 1 => unfold x; clear x))
    | (extract_lets +onlyGivenNames x; have hx : Keeps K x; (on_goal 1 => unfold x; clear x))
    | (extract_lets +onlyGivenNames x; clear_value x)
    | extract_lets +onlyGivenNames x
    | with_reducible apply keeps_updLane
    | with_reducible apply keeps_emit
    | with_reducible refine keeps_of_fst (by with_reducible assumption) ?_
    | dsimp -zeta -zetaHave only
    | split


theorem keeps_slotLane0 (a s) (h1 : Keeps K s) (hp : Sub 0xC065 K.may) : Keeps K (slotLane0 a s).1 := by
  unfold slotLane0
  repeat' first
    | with_reducible assumption
    | exact sub_mono hp (by decide)
    | (extract_lets +onlyGivenNames x; have hx : Keeps K x; (on_goal 2 => clear_value x); (on_goal 1 => unfold x; clear x))
    | (extract_lets +onlyGivenNames x; have hx : Keeps K x; (on_goal 1 => unfold x; clear x))
    | (extract_lets +onlyGivenNames x; clear_value x)
    | extract_lets +onlyGivenNames x
    | with_reducible apply keeps_updBru
    | with_reducible apply keeps_sendCourse
    | with_reducible apply keeps_dataCourse
    | with_reducible refine keeps_of_fst (by with_reducible assumption) ?_
    | dsimp -zeta -zetaHave only
    | split


theorem keeps_slotLane1 (a s) (h1 : Keeps K s) (hp : Sub 0xC065 K.may) : Keeps K (slotLane1 a s).1 := by
  unfold slotLane1
  repeat' first
    | with_reducible assumption
    | exact sub_mono hp (by decide)
    | with_reducible apply keeps_dataCourse
    | with_reducible apply keeps_sendCourse
    | with_reducible refine keeps_of_fst (by with_reducible assumption) ?_
    | dsimp -zeta -zetaHave only
    | split


theorem keeps_timeCourse (a b c s) (h3 : Keeps K s) (hp : Sub 0x19FE7C K.may) : Keeps K (timeCourse a b c s) := by
  unfold timeCourse
  repeat' first
    | with_reducible assumption
    | exact sub_mono hp (by decide)
    | intro _
    | (extract_lets +onlyGivenNames x; have hx : Keeps K x; (on_goal 2 => clear_value x); (on_goal 1 => unfold x; clear x))
    | (extract_lets +onlyGivenNames x; have hx : Keeps K x; (on_goal 1 => unfold x; clear x))
    | (extract_lets +onlyGivenNames x; clear_value x)
    | extract_lets +onlyGivenNames x
    | with_reducible apply keeps_updBru
    | with_reducible apply keeps_setReg
    | with_reducible apply keeps_bump
    | with_reducible apply keeps_withStep
    | with_reducible apply keeps_measurement
    | with_reducible refine keeps_of_fst (by with_reducible assumption) ?_
    | dsimp -zeta -zetaHave only
    | split


theorem keeps_ctrlCourse (a b s) (h2 : Keeps K s) (hp : Sub 0x1C068 K.may) : Keeps K (ctrlCourse a b s) := by
  unfold ctrlCourse
  repeat' first
    | with_reducible assumption
    | exact sub_mono hp (by decide)
    | (extract_lets +onlyGivenNames x; have hx : Keeps K x; (on_goal 2 => clear_value x); (on_goal 1 => unfold x; clear x))
    | (extract_lets +onlyGivenNames x; have hx : Keeps K x; (on_goal 1 => unfold x; clear x))
    | (extract_lets +onlyGivenNames x; clear_value x)
    | extract_lets +onlyGivenNames x
    | with_reducible apply keeps_evtIf
    | with_reducible apply keeps_updBru
    | with_reducible apply keeps_setReg
    | with_reducible apply keeps_discEval
    | with_reducible apply keeps_portCheck
    | dsimp -zeta -zetaHave only


theorem keeps_badBundle (a s) (h1 : Keeps K s) : Keeps K (badBundle a s) := by
  unfold badBundle
  repeat' first
    | with_reducible assumption
    | with_reducible apply keeps_bump
    | dsimp -zeta -zetaHave only


theorem keeps_bundleEnd (a b c s) (h3 : Keeps K s) (hp : Sub 0x1FB7D K.may) : Keeps K (bundleEnd a b c s) := by
  unfold bundleEnd
  repeat' first
    | with_reducible assumption
    | exact sub_mono hp (by decide)
    | (extract_lets +onlyGivenNames x; have hx : Keeps K x; (on_goal 2 => clear_value x); (on_goal 1 => unfold x; clear x))
    | (extract_lets +onlyGivenNames x; have hx : Keeps K x; (on_goal 1 => unfold x; clear x))
    | (extract_lets +onlyGivenNames x; clear_value x)
    | extract_lets +onlyGivenNames x
    | with_reducible apply keeps_updBru
    | with_reducible apply keeps_bump
    | with_reducible apply keeps_updFab
    | with_reducible apply keeps_bundleBytes
    | with_reducible refine keeps_of_fst (by with_reducible assumption) ?_
    | dsimp -zeta -zetaHave only
    | split


theorem keeps_dataSegment (a b s) (h2 : Keeps K s) (hp : Sub 0x1FB7D K.may) : Keeps K (dataSegment a b s) := by
  unfold dataSegment
  repeat' first
    | with_reducible assumption
    | exact sub_mono hp (by decide)
    | (extract_lets +onlyGivenNames x; have hx : Keeps K x; (on_goal 2 => clear_value x); (on_goal 1 => unfold x; clear x))
    | (extract_lets +onlyGivenNames x; have hx : Keeps K x; (on_goal 1 => unfold x; clear x))
    | (extract_lets +onlyGivenNames x; clear_value x)
    | extract_lets +onlyGivenNames x
    | with_reducible apply keeps_badBundle
    | with_reducible apply keeps_updBru
    | with_reducible apply keeps_bundleEnd
    | with_reducible refine keeps_of_fst (by with_reducible assumption) ?_
    | dsimp -zeta -zetaHave only
    | split


theorem keeps_failedCourse (a s) (h1 : Keeps K s) (hp : Sub 0x4060 K.may) : Keeps K (failedCourse a s) := by
  unfold failedCourse
  repeat' first
    | with_reducible assumption
    | exact sub_mono hp (by decide)
    | (extract_lets +onlyGivenNames x; have hx : Keeps K x; (on_goal 2 => clear_value x); (on_goal 1 => unfold x; clear x))
    | (extract_lets +onlyGivenNames x; have hx : Keeps K x; (on_goal 1 => unfold x; clear x))
    | with_reducible apply keeps_evt
    | with_reducible apply keeps_bump
    | with_reducible apply keeps_updBru
    | dsimp -zeta -zetaHave only


theorem keeps_ackIn (a b s) (h2 : Keeps K s) (hp : Sub 0x4000 K.may) : Keeps K (ackIn a b s) := by
  unfold ackIn
  repeat' first
    | with_reducible assumption
    | exact sub_mono hp (by decide)
    | (extract_lets +onlyGivenNames x; clear_value x)
    | extract_lets +onlyGivenNames x
    | with_reducible apply keeps_updBru
    | with_reducible refine keeps_of_fst (by with_reducible assumption) ?_
    | dsimp -zeta -zetaHave only
    | split


theorem keeps_creditIn (a b c s) (h3 : Keeps K s) (hp : Sub 0x4068 K.may) : Keeps K (creditIn a b c s) := by
  unfold creditIn
  repeat' first
    | with_reducible assumption
    | exact sub_mono hp (by decide)
    | (extract_lets +onlyGivenNames x; clear_value x)
    | extract_lets +onlyGivenNames x
    | with_reducible apply keeps_fabSync
    | with_reducible apply keeps_updBru
    | with_reducible refine keeps_of_fst (by with_reducible assumption) ?_
    | dsimp -zeta -zetaHave only
    | split


theorem keeps_headerIn (a b c s) (h3 : Keeps K s) (hp : Sub 0x1C068 K.may) : Keeps K (headerIn a b c s) := by
  unfold headerIn
  repeat' first
    | with_reducible assumption
    | exact sub_mono hp (by decide)
    | (extract_lets +onlyGivenNames x; have hx : Keeps K x; (on_goal 2 => clear_value x); (on_goal 1 => unfold x; clear x))
    | (extract_lets +onlyGivenNames x; have hx : Keeps K x; (on_goal 1 => unfold x; clear x))
    | (extract_lets +onlyGivenNames x; clear_value x)
    | extract_lets +onlyGivenNames x
    | with_reducible apply keeps_updLane
    | with_reducible apply keeps_laneTo
    | with_reducible apply keeps_ackIn
    | with_reducible apply keeps_creditIn
    | with_reducible refine keeps_of_fst (by with_reducible assumption) ?_
    | dsimp -zeta -zetaHave only
    | split


theorem keeps_headerBad (a b s) (h2 : Keeps K s) (hp : Sub 0x1C068 K.may) : Keeps K (headerBad a b s) := by
  unfold headerBad
  repeat' first
    | with_reducible assumption
    | exact sub_mono hp (by decide)
    | (extract_lets +onlyGivenNames x; have hx : Keeps K x; (on_goal 2 => clear_value x); (on_goal 1 => unfold x; clear x))
    | (extract_lets +onlyGivenNames x; have hx : Keeps K x; (on_goal 1 => unfold x; clear x))
    | with_reducible apply keeps_updLane
    | with_reducible apply keeps_bump
    | with_reducible apply keeps_laneSeek
    | with_reducible refine keeps_of_fst (by with_reducible assumption) ?_
    | dsimp -zeta -zetaHave only
    | split


theorem keeps_decodeCourse (a b c d e f s) (h6 : Keeps K s) (hp : Sub 0x19FF7D K.may) : Keeps K (decodeCourse a b c d e f s) := by
  unfold decodeCourse
  repeat' first
    | with_reducible assumption
    | exact sub_mono hp (by decide)
    | (extract_lets +onlyGivenNames x; have hx : Keeps K x; (on_goal 2 => clear_value x); (on_goal 1 => unfold x; clear x))
    | (extract_lets +onlyGivenNames x; have hx : Keeps K x; (on_goal 1 => unfold x; clear x))
    | (extract_lets +onlyGivenNames x; clear_value x)
    | extract_lets +onlyGivenNames x
    | with_reducible apply keeps_bump
    | with_reducible apply keeps_updBru
    | with_reducible apply keeps_headerIn
    | with_reducible apply keeps_headerBad
    | with_reducible apply keeps_portCheck
    | with_reducible apply keeps_failedCourse
    | with_reducible apply keeps_dataSegment
    | with_reducible apply keeps_timeCourse
    | with_reducible apply keeps_ctrlCourse
    | with_reducible refine keeps_of_fst (by with_reducible assumption) ?_
    | dsimp -zeta -zetaHave only
    | split


theorem keeps_courseIn (a b c d e s) (h5 : Keeps K s) (hp : Sub 0x19FF7D K.may) : Keeps K (courseIn a b c d e s) := by
  unfold courseIn
  repeat' first
    | with_reducible assumption
    | exact sub_mono hp (by decide)
    | (extract_lets +onlyGivenNames x; have hx : Keeps K x; (on_goal 2 => clear_value x); (on_goal 1 => unfold x; clear x))
    | (extract_lets +onlyGivenNames x; have hx : Keeps K x; (on_goal 1 => unfold x; clear x))
    | (extract_lets +onlyGivenNames x; clear_value x)
    | extract_lets +onlyGivenNames x
    | with_reducible apply keeps_updLane
    | with_reducible apply keeps_decodeCourse
    | with_reducible apply keeps_laneSeek
    | with_reducible refine keeps_of_fst (by with_reducible assumption) ?_
    | dsimp -zeta -zetaHave only
    | split


theorem keeps_courseAtBalls (a b c d e s) (h5 : Keeps K s) (hp : Sub 0x19FF7D K.may) : Keeps K (courseAtBalls a b c d e s) := by
  unfold courseAtBalls
  repeat' first
    | with_reducible assumption
    | exact sub_mono hp (by decide)
    | (extract_lets +onlyGivenNames x; clear_value x)
    | extract_lets +onlyGivenNames x
    | with_reducible apply keeps_courseIn
    | with_reducible apply keeps_emit
    | with_reducible refine keeps_of_fst (by with_reducible assumption) ?_
    | dsimp -zeta -zetaHave only
    | split


theorem keeps_courseSlot (a s) (h1 : Keeps K s) (hp : Sub 0x19FF7D K.may) : Keeps K (courseSlot a s) := by
  unfold courseSlot
  repeat' first
    | with_reducible assumption
    | exact sub_mono hp (by decide)
    | (extract_lets +onlyGivenNames x; have hx : Keeps K x; (on_goal 2 => clear_value x); (on_goal 1 => unfold x; clear x))
    | (extract_lets +onlyGivenNames x; have hx : Keeps K x; (on_goal 1 => unfold x; clear x))
    | (extract_lets +onlyGivenNames x; clear_value x)
    | extract_lets +onlyGivenNames x
    | with_reducible apply keeps_updBru
    | with_reducible apply keeps_slotLane0
    | with_reducible apply keeps_slotLane1
    | with_reducible apply keeps_courseIn
    | with_reducible refine keeps_of_fst (by with_reducible assumption) ?_
    | dsimp -zeta -zetaHave only
    | split


theorem keeps_replayExpiry (a s) (h1 : Keeps K s) (hp : Sub 0x1C068 K.may) : Keeps K (replayExpiry a s) := by
  unfold replayExpiry
  repeat' first
    | with_reducible assumption
    | exact sub_mono hp (by decide)
    | (extract_lets +onlyGivenNames x; clear_value x)
    | extract_lets +onlyGivenNames x
    | with_reducible apply keeps_laneSeek
    | with_reducible apply keeps_evt
    | with_reducible apply keeps_updBru
    | with_reducible refine keeps_of_fst (by with_reducible assumption) ?_
    | dsimp -zeta -zetaHave only
    | split


theorem keeps_execCourseSlot (a s) (h1 : Keeps K s) (hp : Sub 0x19FF7D K.may) : ∃ t, execCourseSlot a s = .next t ∧ Keeps K t := by
  refine ⟨_, rfl, ?_⟩
  repeat' first
    | with_reducible assumption
    | exact sub_mono hp (by decide)
    | exact Or.inr rfl
    | exact Or.inl (may_of hp (by decide))
    | simp only [↓keeps_mk]
    | refine keepsOf_upd ?_ rfl rfl rfl rfl rfl rfl ?_ ?_ ?_ ?_ ?_ ?_ ?_ ?_ ?_ ?_ ?_ ?_ ?_ ?_ ?_ ?_ ?_ ?_ ?_ ?_ ?_ ?_
    | with_reducible apply keeps_courseSlot
    | dsimp -zeta -zetaHave only


theorem keeps_execDataCourseReceive (a b c d e s) (h5 : Keeps K s) (hp : Sub 0x19FF7D K.may) : ∃ t, execDataCourseReceive a b c d e s = .next t ∧ Keeps K t := by
  refine ⟨_, rfl, ?_⟩
  repeat' first
    | with_reducible assumption
    | exact sub_mono hp (by decide)
    | exact Or.inr rfl
    | exact Or.inl (may_of hp (by decide))
    | simp only [↓keeps_mk]
    | refine keepsOf_upd ?_ rfl rfl rfl rfl rfl rfl ?_ ?_ ?_ ?_ ?_ ?_ ?_ ?_ ?_ ?_ ?_ ?_ ?_ ?_ ?_ ?_ ?_ ?_ ?_ ?_ ?_ ?_
    | with_reducible apply keeps_courseAtBalls
    | dsimp -zeta -zetaHave only


theorem keeps_execTimeCourseReceive (a b c d e s) (h5 : Keeps K s) (hp : Sub 0x19FF7D K.may) : ∃ t, execTimeCourseReceive a b c d e s = .next t ∧ Keeps K t := by
  refine ⟨_, rfl, ?_⟩
  repeat' first
    | with_reducible assumption
    | exact sub_mono hp (by decide)
    | exact Or.inr rfl
    | exact Or.inl (may_of hp (by decide))
    | simp only [↓keeps_mk]
    | refine keepsOf_upd ?_ rfl rfl rfl rfl rfl rfl ?_ ?_ ?_ ?_ ?_ ?_ ?_ ?_ ?_ ?_ ?_ ?_ ?_ ?_ ?_ ?_ ?_ ?_ ?_ ?_ ?_ ?_
    | with_reducible apply keeps_courseAtBalls
    | dsimp -zeta -zetaHave only


theorem keeps_execCtrlCourseReceive (a b c d e s) (h5 : Keeps K s) (hp : Sub 0x19FF7D K.may) : ∃ t, execCtrlCourseReceive a b c d e s = .next t ∧ Keeps K t := by
  refine ⟨_, rfl, ?_⟩
  repeat' first
    | with_reducible assumption
    | exact sub_mono hp (by decide)
    | exact Or.inr rfl
    | exact Or.inl (may_of hp (by decide))
    | simp only [↓keeps_mk]
    | refine keepsOf_upd ?_ rfl rfl rfl rfl rfl rfl ?_ ?_ ?_ ?_ ?_ ?_ ?_ ?_ ?_ ?_ ?_ ?_ ?_ ?_ ?_ ?_ ?_ ?_ ?_ ?_ ?_ ?_
    | with_reducible apply keeps_courseAtBalls
    | dsimp -zeta -zetaHave only


theorem keeps_execIdleCourseReceive (a b c d e s) (h5 : Keeps K s) (hp : Sub 0x19FF7D K.may) : ∃ t, execIdleCourseReceive a b c d e s = .next t ∧ Keeps K t := by
  refine ⟨_, rfl, ?_⟩
  repeat' first
    | with_reducible assumption
    | exact sub_mono hp (by decide)
    | exact Or.inr rfl
    | exact Or.inl (may_of hp (by decide))
    | simp only [↓keeps_mk]
    | refine keepsOf_upd ?_ rfl rfl rfl rfl rfl rfl ?_ ?_ ?_ ?_ ?_ ?_ ?_ ?_ ?_ ?_ ?_ ?_ ?_ ?_ ?_ ?_ ?_ ?_ ?_ ?_ ?_ ?_
    | with_reducible apply keeps_courseAtBalls
    | dsimp -zeta -zetaHave only


theorem keeps_execSignalDetect (a b s) (h2 : Keeps K s) (hp : Sub 0x1C068 K.may) : ∃ t, execSignalDetect a b s = .next t ∧ Keeps K t := by
  refine ⟨_, rfl, ?_⟩
  repeat' first
    | with_reducible assumption
    | exact sub_mono hp (by decide)
    | exact Or.inr rfl
    | exact Or.inl (may_of hp (by decide))
    | simp only [↓keeps_mk]
    | refine keepsOf_upd ?_ rfl rfl rfl rfl rfl rfl ?_ ?_ ?_ ?_ ?_ ?_ ?_ ?_ ?_ ?_ ?_ ?_ ?_ ?_ ?_ ?_ ?_ ?_ ?_ ?_ ?_ ?_
    | with_reducible apply keeps_signalDetect
    | dsimp -zeta -zetaHave only


theorem keeps_execSignalLoss (a b s) (h2 : Keeps K s) (hp : Sub 0x1C068 K.may) : ∃ t, execSignalLoss a b s = .next t ∧ Keeps K t := by
  refine ⟨_, rfl, ?_⟩
  repeat' first
    | with_reducible assumption
    | exact sub_mono hp (by decide)
    | exact Or.inr rfl
    | exact Or.inl (may_of hp (by decide))
    | simp only [↓keeps_mk]
    | refine keepsOf_upd ?_ rfl rfl rfl rfl rfl rfl ?_ ?_ ?_ ?_ ?_ ?_ ?_ ?_ ?_ ?_ ?_ ?_ ?_ ?_ ?_ ?_ ?_ ?_ ?_ ?_ ?_ ?_
    | with_reducible apply keeps_signalLoss
    | dsimp -zeta -zetaHave only


theorem keeps_execCommaLoss (a b s) (h2 : Keeps K s) (hp : Sub 0x1C068 K.may) : ∃ t, execCommaLoss a b s = .next t ∧ Keeps K t := by
  refine ⟨_, rfl, ?_⟩
  repeat' first
    | with_reducible assumption
    | exact sub_mono hp (by decide)
    | exact Or.inr rfl
    | exact Or.inl (may_of hp (by decide))
    | simp only [↓keeps_mk]
    | refine keepsOf_upd ?_ rfl rfl rfl rfl rfl rfl ?_ ?_ ?_ ?_ ?_ ?_ ?_ ?_ ?_ ?_ ?_ ?_ ?_ ?_ ?_ ?_ ?_ ?_ ?_ ?_ ?_ ?_
    | with_reducible apply keeps_laneSeek
    | dsimp -zeta -zetaHave only


theorem keeps_execCommaLock (a b c d s) (h4 : Keeps K s) (hp : Sub 0x1C068 K.may) : ∃ t, execCommaLock a b c d s = .next t ∧ Keeps K t := by
  refine ⟨_, rfl, ?_⟩
  repeat' first
    | with_reducible assumption
    | exact sub_mono hp (by decide)
    | exact Or.inr rfl
    | exact Or.inl (may_of hp (by decide))
    | simp only [↓keeps_mk]
    | refine keepsOf_upd ?_ rfl rfl rfl rfl rfl rfl ?_ ?_ ?_ ?_ ?_ ?_ ?_ ?_ ?_ ?_ ?_ ?_ ?_ ?_ ?_ ?_ ?_ ?_ ?_ ?_ ?_ ?_
    | with_reducible apply keeps_commaLock
    | dsimp -zeta -zetaHave only


theorem keeps_execHalfstuck (a b s) (h2 : Keeps K s) (hp : Sub 0x4060 K.may) : ∃ t, execHalfstuck a b s = .next t ∧ Keeps K t := by
  refine ⟨_, rfl, ?_⟩
  repeat' first
    | with_reducible assumption
    | exact sub_mono hp (by decide)
    | exact Or.inr rfl
    | exact Or.inl (may_of hp (by decide))
    | simp only [↓keeps_mk]
    | refine keepsOf_upd ?_ rfl rfl rfl rfl rfl rfl ?_ ?_ ?_ ?_ ?_ ?_ ?_ ?_ ?_ ?_ ?_ ?_ ?_ ?_ ?_ ?_ ?_ ?_ ?_ ?_ ?_ ?_
    | with_reducible apply keeps_halfStuck
    | dsimp -zeta -zetaHave only


theorem keeps_execReplayTimerExpiry (a s) (h1 : Keeps K s) (hp : Sub 0x1C068 K.may) : ∃ t, execReplayTimerExpiry a s = .next t ∧ Keeps K t := by
  refine ⟨_, rfl, ?_⟩
  repeat' first
    | with_reducible assumption
    | exact sub_mono hp (by decide)
    | exact Or.inr rfl
    | exact Or.inl (may_of hp (by decide))
    | simp only [↓keeps_mk]
    | refine keepsOf_upd ?_ rfl rfl rfl rfl rfl rfl ?_ ?_ ?_ ?_ ?_ ?_ ?_ ?_ ?_ ?_ ?_ ?_ ?_ ?_ ?_ ?_ ?_ ?_ ?_ ?_ ?_ ?_
    | with_reducible apply keeps_replayExpiry
    | dsimp -zeta -zetaHave only


end Sys2Proof.Machine
end

