-- ==== Sys2Proof/Laws/KeepsQueue.lean ====
section
/-!
SUPPORT. What the operations of Machine/Queue.lean keep.
-/
namespace Sys2Proof.Machine
open Sys2Proof

variable {K : Keeping}

theorem keeps_updQueue (s b c) (h0 : Keeps K s) (hp : Sub 0x40000 K.may) : Keeps K (updQueue s b c) := by
  unfold updQueue
  repeat' first
    | with_reducible assumption
    | exact sub_mono hp (by decide)
    | (extract_lets +onlyGivenNames x; clear_value x)
    | extract_lets +onlyGivenNames x
    | exact Or.inr rfl
    | exact Or.inl (may_of hp (by decide))
    | simp only [↓keeps_mk]
    | refine keepsOf_upd ?_ rfl rfl rfl rfl rfl rfl ?_ ?_ ?_ ?_ ?_ ?_ ?_ ?_ ?_ ?_ ?_ ?_ ?_ ?_ ?_ ?_ ?_ ?_ ?_ ?_ ?_ ?_
    | dsimp -zeta -zetaHave only


theorem keeps_withEligible (a b s) (h1 : ∀ x0, Keeps K x0 → Keeps K (b x0)) (h2 : Keeps K s) (hp : Sub 0x60 K.may) : Keeps K (withEligible a b s) := by
  unfold withEligible
  repeat' first
    | with_reducible assumption
    | exact sub_mono hp (by decide)
    | intro _
    | (extract_lets +onlyGivenNames x; have hx : Keeps K x; (on_goal 2 => clear_value x); (on_goal 1 => unfold x; clear x))
    | (extract_lets +onlyGivenNames x; have hx : Keeps K x; (on_goal 1 => unfold x; clear x))
    | (extract_lets +onlyGivenNames x; clear_value x)
    | extract_lets +onlyGivenNames x
    | with_reducible apply keeps_arrive
    | with_reducible apply h1
    | with_reducible refine keeps_of_fst (by with_reducible assumption) ?_
    | dsimp -zeta -zetaHave only
    | split


theorem keeps_pushRefuse (a b c s) (h3 : Keeps K s) (hp : Sub 0x60 K.may) : Keeps K (pushRefuse a b c s) := by
  unfold pushRefuse
  repeat' first
    | with_reducible assumption
    | exact sub_mono hp (by decide)
    | with_reducible apply keeps_evt
    | with_reducible apply keeps_fault
    | with_reducible apply keeps_bump
    | dsimp -zeta -zetaHave only


theorem keeps_postDone (a s) (h1 : Keeps K s) (hp : Sub 0x60 K.may) : Keeps K (postDone a s) := by
  unfold postDone
  repeat' first
    | with_reducible assumption
    | exact sub_mono hp (by decide)
    | (extract_lets +onlyGivenNames x; clear_value x)
    | extract_lets +onlyGivenNames x
    | with_reducible apply keeps_arrive
    | with_reducible apply keeps_evt
    | with_reducible apply keeps_bump
    | dsimp -zeta -zetaHave only


theorem keeps_pushEnds (a b c s) (h3 : Keeps K s) (hp : Sub 0x202062 K.may) : Keeps K (pushEnds a b c s) := by
  unfold pushEnds
  repeat' first
    | with_reducible assumption
    | exact sub_mono hp (by decide)
    | with_reducible apply keeps_postDone
    | with_reducible apply keeps_presentAll
    | with_reducible apply keeps_updCore
    | with_reducible apply keeps_writeEnds
    | with_reducible refine keeps_of_fst (by with_reducible assumption) ?_
    | dsimp -zeta -zetaHave only
    | split


theorem keeps_pushTry (a b c s) (h3 : Keeps K s) (hp : Sub 0x242062 K.may) : Keeps K (pushTry a b c s).1 := by
  unfold pushTry
  repeat' first
    | with_reducible assumption
    | exact sub_mono hp (by decide)
    | intro _
    | (extract_lets +onlyGivenNames x; have hx : Keeps K x; (on_goal 2 => clear_value x); (on_goal 1 => unfold x; clear x))
    | (extract_lets +onlyGivenNames x; have hx : Keeps K x; (on_goal 1 => unfold x; clear x))
    | (extract_lets +onlyGivenNames x; clear_value x)
    | extract_lets +onlyGivenNames x
    | with_reducible apply keeps_pushEnds
    | with_reducible apply keeps_bump
    | with_reducible apply keeps_pushRefuse
    | with_reducible apply keeps_withEligible
    | with_reducible apply keeps_updQueue
    | with_reducible apply keeps_evt
    | with_reducible apply keeps_statMax
    | with_reducible refine keeps_of_fst (by with_reducible assumption) ?_
    | dsimp -zeta -zetaHave only
    | split


theorem keeps_retryPushes (a s) (h1 : Keeps K s) (hp : Sub 0x242062 K.may) : Keeps K (retryPushes a s) := by
  unfold retryPushes
  repeat' first
    | with_reducible assumption
    | exact sub_mono hp (by decide)
    | intro _
    | (extract_lets +onlyGivenNames x; clear_value x)
    | extract_lets +onlyGivenNames x
    | with_reducible apply keeps_pushTry
    | with_reducible apply keeps_updQueue
    | with_reducible apply keeps_foldl
    | with_reducible apply keeps_foldl_fst
    | with_reducible refine keeps_of_fst (by with_reducible assumption) ?_
    | dsimp -zeta -zetaHave only
    | split


theorem keeps_queuePush (a b s) (h2 : Keeps K s) (hp : Sub 0x242062 K.may) : Keeps K (queuePush a b s) := by
  unfold queuePush
  repeat' first
    | with_reducible assumption
    | exact sub_mono hp (by decide)
    | (extract_lets +onlyGivenNames x; have hx : Keeps K x; (on_goal 2 => clear_value x); (on_goal 1 => unfold x; clear x))
    | (extract_lets +onlyGivenNames x; have hx : Keeps K x; (on_goal 1 => unfold x; clear x))
    | with_reducible apply keeps_pushTry
    | with_reducible apply keeps_updQueue
    | with_reducible apply keeps_updCore
    | with_reducible refine keeps_of_fst (by with_reducible assumption) ?_
    | dsimp -zeta -zetaHave only
    | split


theorem keeps_pushWrite (a b c s) (h3 : Keeps K s) (hp : Sub 0x242062 K.may) : Keeps K (pushWrite a b c s) := by
  unfold pushWrite
  repeat' first
    | with_reducible assumption
    | exact sub_mono hp (by decide)
    | (extract_lets +onlyGivenNames x; clear_value x)
    | extract_lets +onlyGivenNames x
    | with_reducible apply keeps_pushRefuse
    | with_reducible apply keeps_queuePush
    | with_reducible refine keeps_of_fst (by with_reducible assumption) ?_
    | dsimp -zeta -zetaHave only
    | split


theorem keeps_pushBufWrite (a b c s) (h3 : Keeps K s) (hp : Sub 0x40000 K.may) : Keeps K (pushBufWrite a b c s) := by
  unfold pushBufWrite
  repeat' first
    | with_reducible assumption
    | exact sub_mono hp (by decide)
    | (extract_lets +onlyGivenNames x; clear_value x)
    | extract_lets +onlyGivenNames x
    | exact Or.inr rfl
    | exact Or.inl (may_of hp (by decide))
    | simp only [↓keeps_mk]
    | refine keepsOf_upd ?_ rfl rfl rfl rfl rfl rfl ?_ ?_ ?_ ?_ ?_ ?_ ?_ ?_ ?_ ?_ ?_ ?_ ?_ ?_ ?_ ?_ ?_ ?_ ?_ ?_ ?_ ?_
    | dsimp -zeta -zetaHave only


theorem keeps_queuePop (a b s) (h2 : Keeps K s) (hp : Sub 0x242062 K.may) : Keeps K (queuePop a b s).1 := by
  unfold queuePop
  repeat' first
    | with_reducible assumption
    | exact sub_mono hp (by decide)
    | (extract_lets +onlyGivenNames x; have hx : Keeps K x; (on_goal 2 => clear_value x); (on_goal 1 => unfold x; clear x))
    | (extract_lets +onlyGivenNames x; have hx : Keeps K x; (on_goal 1 => unfold x; clear x))
    | (extract_lets +onlyGivenNames x; clear_value x)
    | extract_lets +onlyGivenNames x
    | exact Or.inr rfl
    | exact Or.inl (may_of hp (by decide))
    | simp only [↓keeps_mk]
    | refine keepsOf_upd ?_ rfl rfl rfl rfl rfl rfl ?_ ?_ ?_ ?_ ?_ ?_ ?_ ?_ ?_ ?_ ?_ ?_ ?_ ?_ ?_ ?_ ?_ ?_ ?_ ?_ ?_ ?_
    | with_reducible apply keeps_updQueue
    | with_reducible apply keeps_bump
    | with_reducible apply keeps_retryPushes
    | with_reducible refine keeps_of_fst (by with_reducible assumption) ?_
    | dsimp -zeta -zetaHave only
    | split


theorem keeps_queueDrop (a b s) (h2 : Keeps K s) (hp : Sub 0x242062 K.may) : Keeps K (queueDrop a b s) := by
  unfold queueDrop
  repeat' first
    | with_reducible assumption
    | exact sub_mono hp (by decide)
    | intro _
    | (extract_lets +onlyGivenNames x; have hx : Keeps K x; (on_goal 2 => clear_value x); (on_goal 1 => unfold x; clear x))
    | (extract_lets +onlyGivenNames x; have hx : Keeps K x; (on_goal 1 => unfold x; clear x))
    | with_reducible apply keeps_fault
    | with_reducible apply keeps_bump
    | with_reducible apply keeps_withEligible
    | with_reducible apply keeps_updQueue
    | with_reducible apply keeps_retryPushes
    | with_reducible apply keeps_evt
    | with_reducible refine keeps_of_fst (by with_reducible assumption) ?_
    | dsimp -zeta -zetaHave only
    | split


theorem keeps_poolSet (a s) (h1 : Keeps K s) : Keeps K (poolSet a s) := by
  unfold poolSet
  repeat' first
    | with_reducible assumption
    | with_reducible apply keeps_set
    | dsimp -zeta -zetaHave only


theorem keeps_queueOff (a s) (h1 : Keeps K s) (hp : Sub 0x242062 K.may) : Keeps K (queueOff a s) := by
  unfold queueOff
  repeat' first
    | with_reducible assumption
    | exact sub_mono hp (by decide)
    | (extract_lets +onlyGivenNames x; have hx : Keeps K x; (on_goal 2 => clear_value x); (on_goal 1 => unfold x; clear x))
    | (extract_lets +onlyGivenNames x; have hx : Keeps K x; (on_goal 1 => unfold x; clear x))
    | with_reducible apply keeps_bump
    | with_reducible apply keeps_poolSet
    | with_reducible apply keeps_set
    | with_reducible apply keeps_retryPushes
    | with_reducible apply keeps_updQueue
    | with_reducible refine keeps_of_fst (by with_reducible assumption) ?_
    | dsimp -zeta -zetaHave only
    | split


theorem keeps_queueCfg (a b c s) (h3 : Keeps K s) (hp : Sub 0x242062 K.may) : Keeps K (queueCfg a b c s) := by
  unfold queueCfg
  repeat' first
    | with_reducible assumption
    | exact sub_mono hp (by decide)
    | (extract_lets +onlyGivenNames x; have hx : Keeps K x; (on_goal 2 => clear_value x); (on_goal 1 => unfold x; clear x))
    | (extract_lets +onlyGivenNames x; have hx : Keeps K x; (on_goal 1 => unfold x; clear x))
    | (extract_lets +onlyGivenNames x; clear_value x)
    | extract_lets +onlyGivenNames x
    | with_reducible apply keeps_set
    | with_reducible apply keeps_fault
    | with_reducible apply keeps_retryPushes
    | with_reducible apply keeps_queueOff
    | with_reducible apply keeps_poolSet
    | with_reducible refine keeps_of_fst (by with_reducible assumption) ?_
    | dsimp -zeta -zetaHave only
    | split


end Sys2Proof.Machine
end

