-- ==== Sys2Proof/Laws/KeepsPower.lean ====
section
/-!
SUPPORT. What the operations of Machine/Power.lean keep.
-/
namespace Sys2Proof.Machine
open Sys2Proof

variable {K : Keeping}

theorem keeps_updPwr (s b) (h0 : Keeps K s) (hp : Sub 0x100000 K.may) : Keeps K (updPwr s b) := by
  unfold updPwr
  repeat' first
    | with_reducible assumption
    | exact sub_mono hp (by decide)
    | exact Or.inr rfl
    | exact Or.inl (may_of hp (by decide))
    | simp only [↓keeps_mk]
    | refine keepsOf_upd ?_ rfl rfl rfl rfl rfl rfl ?_ ?_ ?_ ?_ ?_ ?_ ?_ ?_ ?_ ?_ ?_ ?_ ?_ ?_ ?_ ?_ ?_ ?_ ?_ ?_ ?_ ?_
    | dsimp -zeta -zetaHave only


theorem keeps_updBoot (s b) (h0 : Keeps K s) (hp : Sub 0x80000 K.may) : Keeps K (updBoot s b) := by
  unfold updBoot
  repeat' first
    | with_reducible assumption
    | exact sub_mono hp (by decide)
    | exact Or.inr rfl
    | exact Or.inl (may_of hp (by decide))
    | simp only [↓keeps_mk]
    | refine keepsOf_upd ?_ rfl rfl rfl rfl rfl rfl ?_ ?_ ?_ ?_ ?_ ?_ ?_ ?_ ?_ ?_ ?_ ?_ ?_ ?_ ?_ ?_ ?_ ?_ ?_ ?_ ?_ ?_
    | dsimp -zeta -zetaHave only


theorem keeps_progBroken (s) (h0 : Keeps K s) (hp : Sub 0x5 K.may) : Keeps K (progBroken s) := by
  unfold progBroken
  repeat' first
    | with_reducible assumption
    | exact sub_mono hp (by decide)
    | intro _
    | (extract_lets +onlyGivenNames x; have hx : Keeps K x; (on_goal 2 => clear_value x); (on_goal 1 => unfold x; clear x))
    | (extract_lets +onlyGivenNames x; have hx : Keeps K x; (on_goal 1 => unfold x; clear x))
    | (extract_lets +onlyGivenNames x; clear_value x)
    | extract_lets +onlyGivenNames x
    | exact Or.inr rfl
    | exact Or.inl (may_of hp (by decide))
    | simp only [↓keeps_mk]
    | with_reducible apply keepsOf_memPutAll
    | refine keepsOf_upd ?_ rfl rfl rfl rfl rfl rfl ?_ ?_ ?_ ?_ ?_ ?_ ?_ ?_ ?_ ?_ ?_ ?_ ?_ ?_ ?_ ?_ ?_ ?_ ?_ ?_ ?_ ?_
    | exact may_of hp (by decide)
    | with_reducible apply keeps_free
    | with_reducible apply keeps_set
    | with_reducible apply keeps_foldl
    | with_reducible apply keeps_foldl_fst
    | with_reducible refine keeps_of_fst (by with_reducible assumption) ?_
    | dsimp -zeta -zetaHave only
    | split


theorem keeps_maskBoth (a b s) (h2 : Keeps K s) (hp : Sub 0x64 K.may) : Keeps K (maskBoth a b s) := by
  unfold maskBoth
  repeat' first
    | with_reducible assumption
    | exact sub_mono hp (by decide)
    | with_reducible apply keeps_maskPort
    | dsimp -zeta -zetaHave only


theorem keeps_coreMask (a s) (h1 : Keeps K s) (hp : Sub 0x64 K.may) : Keeps K (coreMask a s) := by
  unfold coreMask
  repeat' first
    | with_reducible assumption
    | exact sub_mono hp (by decide)
    | (extract_lets +onlyGivenNames x; clear_value x)
    | extract_lets +onlyGivenNames x
    | with_reducible apply keeps_maskBoth
    | dsimp -zeta -zetaHave only


theorem keeps_maskRecords (s) (h0 : Keeps K s) (hp : Sub 0x64 K.may) : Keeps K (maskRecords s) := by
  unfold maskRecords
  repeat' first
    | with_reducible assumption
    | exact sub_mono hp (by decide)
    | with_reducible apply keeps_maskBoth
    | dsimp -zeta -zetaHave only


theorem keeps_maskOff (s) (h0 : Keeps K s) (hp : Sub 0x64 K.may) : Keeps K (maskOff s) := by
  unfold maskOff
  repeat' first
    | with_reducible assumption
    | exact sub_mono hp (by decide)
    | intro _
    | with_reducible apply keeps_maskRecords
    | with_reducible apply keeps_maskBoth
    | with_reducible apply keeps_foldl
    | with_reducible apply keeps_foldl_fst
    | with_reducible refine keeps_of_fst (by with_reducible assumption) ?_
    | dsimp -zeta -zetaHave only
    | split


theorem keeps_domSet (a b s) (h2 : Keeps K s) : Keeps K (domSet a b s) := by
  unfold domSet
  repeat' first
    | with_reducible assumption
    | (extract_lets +onlyGivenNames x; clear_value x)
    | extract_lets +onlyGivenNames x
    | with_reducible apply keeps_set
    | with_reducible refine keeps_of_fst (by with_reducible assumption) ?_
    | dsimp -zeta -zetaHave only
    | split


theorem keeps_lanesLost (s) (h0 : Keeps K s) (hp : Sub 0x200 K.may) : Keeps K (lanesLost s) := by
  unfold lanesLost
  repeat' first
    | with_reducible assumption
    | exact sub_mono hp (by decide)
    | intro _
    | (extract_lets +onlyGivenNames x; clear_value x)
    | extract_lets +onlyGivenNames x
    | with_reducible apply keeps_free
    | with_reducible apply keeps_updStrand
    | with_reducible apply keeps_foldl
    | with_reducible apply keeps_foldl_fst
    | with_reducible refine keeps_of_fst (by with_reducible assumption) ?_
    | dsimp -zeta -zetaHave only
    | split


theorem keeps_airBalls (a s) (h1 : Keeps K s) : Keeps K (airBalls a s) := by
  unfold airBalls
  repeat' first
    | with_reducible assumption
    | intro _
    | with_reducible apply keeps_airIdle
    | with_reducible apply keeps_emit
    | with_reducible apply keeps_foldl
    | with_reducible apply keeps_foldl_fst
    | with_reducible refine keeps_of_fst (by with_reducible assumption) ?_
    | dsimp -zeta -zetaHave only
    | split


theorem keeps_domLost (a s) (h1 : Keeps K s) (hp : Sub 0x11F77D K.may) : Keeps K (domLost a s) := by
  unfold domLost
  repeat' first
    | with_reducible assumption
    | exact sub_mono hp (by decide)
    | intro _
    | (extract_lets +onlyGivenNames x; have hx : Keeps K x; (on_goal 2 => clear_value x); (on_goal 1 => unfold x; clear x))
    | (extract_lets +onlyGivenNames x; have hx : Keeps K x; (on_goal 1 => unfold x; clear x))
    | (extract_lets +onlyGivenNames x; clear_value x)
    | extract_lets +onlyGivenNames x
    | exact Or.inr rfl
    | exact Or.inl (may_of hp (by decide))
    | simp only [↓keeps_mk]
    | with_reducible apply keepsOf_memFilter
    | refine keepsOf_upd ?_ rfl rfl rfl rfl rfl rfl ?_ ?_ ?_ ?_ ?_ ?_ ?_ ?_ ?_ ?_ ?_ ?_ ?_ ?_ ?_ ?_ ?_ ?_ ?_ ?_ ?_ ?_
    | exact may_of hp (by decide)
    | with_reducible apply keeps_coreReset
    | with_reducible apply keeps_setOwner
    | with_reducible apply keeps_updCore
    | with_reducible apply keeps_updPwr
    | with_reducible apply keeps_lanesLost
    | with_reducible apply keeps_set
    | with_reducible apply keeps_progBroken
    | with_reducible apply keeps_linkDown
    | with_reducible apply keeps_portDown
    | with_reducible apply keeps_discEval
    | with_reducible apply keeps_floatPin
    | with_reducible apply keeps_clearPin
    | with_reducible apply keeps_rdmDrop
    | with_reducible apply keeps_firstUse
    | with_reducible apply keeps_airBalls
    | with_reducible apply keeps_foldl
    | with_reducible apply keeps_foldl_fst
    | with_reducible refine keeps_of_fst (by with_reducible assumption) ?_
    | dsimp -zeta -zetaHave only
    | split


theorem keeps_domOff1 (a s) (h1 : Keeps K s) (hp : Sub 0x11F77D K.may) : Keeps K (domOff1 a s) := by
  unfold domOff1
  repeat' first
    | with_reducible assumption
    | exact sub_mono hp (by decide)
    | intro _
    | (extract_lets +onlyGivenNames x; have hx : Keeps K x; (on_goal 2 => clear_value x); (on_goal 1 => unfold x; clear x))
    | (extract_lets +onlyGivenNames x; have hx : Keeps K x; (on_goal 1 => unfold x; clear x))
    | exact Or.inr rfl
    | exact Or.inl (may_of hp (by decide))
    | simp only [↓keeps_mk]
    | with_reducible apply keepsOf_ctrFilter
    | refine keepsOf_upd ?_ rfl rfl rfl rfl rfl rfl ?_ ?_ ?_ ?_ ?_ ?_ ?_ ?_ ?_ ?_ ?_ ?_ ?_ ?_ ?_ ?_ ?_ ?_ ?_ ?_ ?_ ?_
    | exact may_of hp (by decide)
    | with_reducible apply keeps_maskBoth
    | with_reducible apply keeps_domSet
    | with_reducible apply keeps_domLost
    | with_reducible apply keeps_maskRecords
    | with_reducible apply keeps_foldl
    | with_reducible apply keeps_foldl_fst
    | with_reducible refine keeps_of_fst (by with_reducible assumption) ?_
    | dsimp -zeta -zetaHave only
    | split


theorem keeps_domOff (a s) (h1 : Keeps K s) (hp : Sub 0x19F77D K.may) : Keeps K (domOff a s) := by
  unfold domOff
  repeat' first
    | with_reducible assumption
    | exact sub_mono hp (by decide)
    | intro _
    | (extract_lets +onlyGivenNames x; have hx : Keeps K x; (on_goal 2 => clear_value x); (on_goal 1 => unfold x; clear x))
    | (extract_lets +onlyGivenNames x; have hx : Keeps K x; (on_goal 1 => unfold x; clear x))
    | with_reducible apply keeps_domOff1
    | with_reducible apply keeps_enableEval
    | with_reducible apply keeps_settleAll
    | with_reducible apply keeps_pairOff
    | with_reducible apply keeps_refreshAll
    | with_reducible apply keeps_foldl
    | with_reducible apply keeps_foldl_fst
    | dsimp -zeta -zetaHave only


theorem keeps_domOn (a s) (h1 : Keeps K s) (hp : Sub 0x11827C K.may) : Keeps K (domOn a s) := by
  unfold domOn
  repeat' first
    | with_reducible assumption
    | exact sub_mono hp (by decide)
    | intro _
    | (extract_lets +onlyGivenNames x; have hx : Keeps K x; (on_goal 2 => clear_value x); (on_goal 1 => unfold x; clear x))
    | (extract_lets +onlyGivenNames x; have hx : Keeps K x; (on_goal 1 => unfold x; clear x))
    | with_reducible apply keeps_domSet
    | with_reducible apply keeps_maskRecords
    | with_reducible apply keeps_maskBoth
    | with_reducible apply keeps_updPwr
    | with_reducible apply keeps_coreMask
    | with_reducible apply keeps_coreMode
    | with_reducible apply keeps_takeUp
    | with_reducible apply keeps_airBalls
    | with_reducible apply keeps_settleAll
    | with_reducible apply keeps_refreshAll
    | with_reducible apply keeps_discEval
    | with_reducible apply keeps_foldl
    | with_reducible apply keeps_foldl_fst
    | with_reducible refine keeps_of_fst (by with_reducible assumption) ?_
    | dsimp -zeta -zetaHave only
    | split


theorem keeps_domSettle (s) (h0 : Keeps K s) (hp : Sub 0x100000 K.may) : Keeps K (domSettle s) := by
  unfold domSettle
  repeat' first
    | with_reducible assumption
    | exact sub_mono hp (by decide)
    | with_reducible apply keeps_updPwr
    | with_reducible refine keeps_of_fst (by with_reducible assumption) ?_
    | dsimp -zeta -zetaHave only
    | split


theorem keeps_domReq (a s) (h1 : Keeps K s) (hp : Sub 0x100000 K.may) : Keeps K (domReq a s) := by
  unfold domReq
  repeat' first
    | with_reducible assumption
    | exact sub_mono hp (by decide)
    | (extract_lets +onlyGivenNames x; have hx : Keeps K x; (on_goal 2 => clear_value x); (on_goal 1 => unfold x; clear x))
    | (extract_lets +onlyGivenNames x; have hx : Keeps K x; (on_goal 1 => unfold x; clear x))
    | (extract_lets +onlyGivenNames x; clear_value x)
    | extract_lets +onlyGivenNames x
    | with_reducible apply keeps_set
    | with_reducible apply keeps_updPwr
    | with_reducible refine keeps_of_fst (by with_reducible assumption) ?_
    | dsimp -zeta -zetaHave only
    | split


theorem keeps_domOnDone (a s) (h1 : Keeps K s) (hp : Sub 0x11827C K.may) : Keeps K (domOnDone a s) := by
  unfold domOnDone
  repeat' first
    | with_reducible assumption
    | exact sub_mono hp (by decide)
    | with_reducible apply keeps_domSettle
    | with_reducible apply keeps_domOn
    | with_reducible refine keeps_of_fst (by with_reducible assumption) ?_
    | dsimp -zeta -zetaHave only
    | split


theorem keeps_domOffDone (a s) (h1 : Keeps K s) (hp : Sub 0x19F77D K.may) : Keeps K (domOffDone a s) := by
  unfold domOffDone
  repeat' first
    | with_reducible assumption
    | exact sub_mono hp (by decide)
    | with_reducible apply keeps_domSettle
    | with_reducible apply keeps_domOff
    | with_reducible refine keeps_of_fst (by with_reducible assumption) ?_
    | dsimp -zeta -zetaHave only
    | split


theorem keeps_writeLifetime (s) (h0 : Keeps K s) (hp : Sub 0x100004 K.may) : Keeps K (writeLifetime s) := by
  unfold writeLifetime
  repeat' first
    | with_reducible assumption
    | exact sub_mono hp (by decide)
    | (extract_lets +onlyGivenNames x; clear_value x)
    | extract_lets +onlyGivenNames x
    | with_reducible apply keeps_updPwr
    | with_reducible apply keeps_internalProg
    | dsimp -zeta -zetaHave only


theorem keeps_lifeUsed (s) (h0 : Keeps K s) : Keeps K (lifeUsed s) := by
  unfold lifeUsed
  repeat' first
    | with_reducible assumption
    | intro _
    | (extract_lets +onlyGivenNames x; clear_value x)
    | extract_lets +onlyGivenNames x
    | with_reducible apply keeps_set
    | with_reducible apply keeps_foldl
    | with_reducible apply keeps_foldl_fst
    | with_reducible refine keeps_of_fst (by with_reducible assumption) ?_
    | dsimp -zeta -zetaHave only
    | split


theorem keeps_loadLifetime (s) (h0 : Keeps K s) (hp : Sub 0x100065 K.may) : Keeps K (loadLifetime s) := by
  unfold loadLifetime
  repeat' first
    | with_reducible assumption
    | exact sub_mono hp (by decide)
    | with_reducible apply keeps_readCopies
    | with_reducible apply keeps_lifeUsed
    | with_reducible apply keeps_updPwr
    | with_reducible apply keeps_set
    | with_reducible refine keeps_of_fst (by with_reducible assumption) ?_
    | dsimp -zeta -zetaHave only
    | split


theorem keeps_trackTj (s) (h0 : Keeps K s) (hp : Sub 0x100000 K.may) : Keeps K (trackTj s) := by
  unfold trackTj
  repeat' first
    | with_reducible assumption
    | exact sub_mono hp (by decide)
    | (extract_lets +onlyGivenNames x; have hx : Keeps K x; (on_goal 2 => clear_value x); (on_goal 1 => unfold x; clear x))
    | (extract_lets +onlyGivenNames x; have hx : Keeps K x; (on_goal 1 => unfold x; clear x))
    | (extract_lets +onlyGivenNames x; clear_value x)
    | extract_lets +onlyGivenNames x
    | with_reducible apply keeps_updPwr
    | with_reducible apply keeps_setStat
    | with_reducible refine keeps_of_fst (by with_reducible assumption) ?_
    | dsimp -zeta -zetaHave only
    | split


theorem keeps_lifeCount (s) (h0 : Keeps K s) (hp : Sub 0x100000 K.may) : Keeps K (lifeCount s) := by
  unfold lifeCount
  repeat' first
    | with_reducible assumption
    | exact sub_mono hp (by decide)
    | with_reducible apply keeps_lifeUsed
    | with_reducible apply keeps_trackTj
    | with_reducible apply keeps_updPwr
    | with_reducible refine keeps_of_fst (by with_reducible assumption) ?_
    | dsimp -zeta -zetaHave only
    | split


theorem keeps_pinsReleased (s) (h0 : Keeps K s) (hp : Sub 0x200 K.may) : Keeps K (pinsReleased s) := by
  unfold pinsReleased
  repeat' first
    | with_reducible assumption
    | exact sub_mono hp (by decide)
    | intro _
    | (extract_lets +onlyGivenNames x; have hx : Keeps K x; (on_goal 2 => clear_value x); (on_goal 1 => unfold x; clear x))
    | (extract_lets +onlyGivenNames x; have hx : Keeps K x; (on_goal 1 => unfold x; clear x))
    | with_reducible apply keeps_floatPin
    | with_reducible apply keeps_emit
    | with_reducible apply keeps_airBalls
    | with_reducible apply keeps_foldl
    | with_reducible apply keeps_foldl_fst
    | with_reducible refine keeps_of_fst (by with_reducible assumption) ?_
    | dsimp -zeta -zetaHave only
    | split


theorem keeps_sysReset (a b s) (h2 : Keeps K s) (hp : Sub 0x7FFFFF K.may) : Keeps K (sysReset a b s) := by
  have h := (keeps_pinsReleased _ (keeps_progBroken _ h2 (sub_mono hp (by decide))) (sub_mono hp (by decide))).parts
  unfold sysReset
  refine ⟨?_⟩
  dsimp only
  exact ⟨regFileOk_filter _ h.regsOk, rfl, rfl, memory_wf_filter _ h.memOk, h.queueOk, h.freeOk, .inl (may_of hp (by decide)), .inl (may_of hp (by decide)), .inl (may_of hp (by decide)), .inl (may_of hp (by decide)), .inl (may_of hp (by decide)), .inl (may_of hp (by decide)), .inl (may_of hp (by decide)), .inl (may_of hp (by decide)), .inl (may_of hp (by decide)), .inl (may_of hp (by decide)), .inl (may_of hp (by decide)), .inl (may_of hp (by decide)), .inl (may_of hp (by decide)), .inl (may_of hp (by decide)), .inl (may_of hp (by decide)), .inl (may_of hp (by decide)), .inl (may_of hp (by decide)), .inl (may_of hp (by decide)), .inl (may_of hp (by decide)), .inl (may_of hp (by decide)), .inl (may_of hp (by decide)), .inl (may_of hp (by decide)), .inl (may_of hp (by decide)), .inl (may_of hp (by decide))⟩


theorem keeps_aonStore (s) (h0 : Keeps K s) (hp : Sub 0x100000 K.may) : Keeps K (aonStore s) := by
  unfold aonStore
  repeat' first
    | with_reducible assumption
    | exact sub_mono hp (by decide)
    | with_reducible apply keeps_updPwr
    | dsimp -zeta -zetaHave only


theorem keeps_requestStart (a b s) (h2 : Keeps K s) (hp : Sub 0x7FFFFF K.may) : Keeps K (requestStart a b s) := by
  unfold requestStart
  repeat' first
    | with_reducible assumption
    | exact sub_mono hp (by decide)
    | (extract_lets +onlyGivenNames x; have hx : Keeps K x; (on_goal 2 => clear_value x); (on_goal 1 => unfold x; clear x))
    | (extract_lets +onlyGivenNames x; have hx : Keeps K x; (on_goal 1 => unfold x; clear x))
    | (extract_lets +onlyGivenNames x; clear_value x)
    | extract_lets +onlyGivenNames x
    | with_reducible apply keeps_aonStore
    | with_reducible apply keeps_sysReset
    | with_reducible apply keeps_updBoot
    | with_reducible refine keeps_of_fst (by with_reducible assumption) ?_
    | dsimp -zeta -zetaHave only
    | split


theorem keeps_stateEnds (a s) (h1 : Keeps K s) (hp : Sub 0x10060 K.may) : Keeps K (stateEnds a s) := by
  unfold stateEnds
  repeat' first
    | with_reducible assumption
    | exact sub_mono hp (by decide)
    | with_reducible apply keeps_refreshAll
    | with_reducible apply keeps_evt
    | with_reducible apply keeps_set
    | dsimp -zeta -zetaHave only


theorem keeps_dimAsk (s) (h0 : Keeps K s) (hp : Sub 0x100000 K.may) : Keeps K (dimAsk s) := by
  unfold dimAsk
  repeat' first
    | with_reducible assumption
    | exact sub_mono hp (by decide)
    | with_reducible apply keeps_set
    | with_reducible apply keeps_updPwr
    | dsimp -zeta -zetaHave only


theorem keeps_dimLeave (s) (h0 : Keeps K s) (hp : Sub 0x100000 K.may) : Keeps K (dimLeave s) := by
  unfold dimLeave
  repeat' first
    | with_reducible assumption
    | exact sub_mono hp (by decide)
    | with_reducible apply keeps_set
    | with_reducible apply keeps_updPwr
    | with_reducible refine keeps_of_fst (by with_reducible assumption) ?_
    | dsimp -zeta -zetaHave only
    | split


theorem keeps_dimAtFs (a s) (h1 : Keeps K s) (hp : Sub 0x19F77D K.may) : Keeps K (dimAtFs a s) := by
  unfold dimAtFs
  repeat' first
    | with_reducible assumption
    | exact sub_mono hp (by decide)
    | (extract_lets +onlyGivenNames x; have hx : Keeps K x; (on_goal 2 => clear_value x); (on_goal 1 => unfold x; clear x))
    | (extract_lets +onlyGivenNames x; have hx : Keeps K x; (on_goal 1 => unfold x; clear x))
    | (extract_lets +onlyGivenNames x; clear_value x)
    | extract_lets +onlyGivenNames x
    | with_reducible apply keeps_updPwr
    | with_reducible apply keeps_domOff
    | with_reducible apply keeps_writeAccounting
    | with_reducible apply keeps_refreshAll
    | with_reducible refine keeps_of_fst (by with_reducible assumption) ?_
    | dsimp -zeta -zetaHave only
    | split


theorem keeps_wakeCause (a s) (h1 : Keeps K s) : Keeps K (wakeCause a s) := by
  unfold wakeCause
  repeat' first
    | with_reducible assumption
    | (extract_lets +onlyGivenNames x; clear_value x)
    | extract_lets +onlyGivenNames x
    | with_reducible apply keeps_set
    | with_reducible refine keeps_of_fst (by with_reducible assumption) ?_
    | dsimp -zeta -zetaHave only
    | split


theorem keeps_wake (a s) (h1 : Keeps K s) (hp : Sub 0x7FFFFF K.may) : Keeps K (wake a s) := by
  unfold wake
  repeat' first
    | with_reducible assumption
    | exact sub_mono hp (by decide)
    | (extract_lets +onlyGivenNames x; have hx : Keeps K x; (on_goal 2 => clear_value x); (on_goal 1 => unfold x; clear x))
    | (extract_lets +onlyGivenNames x; have hx : Keeps K x; (on_goal 1 => unfold x; clear x))
    | with_reducible apply keeps_updPwr
    | with_reducible apply keeps_wakeCause
    | with_reducible apply keeps_dimLeave
    | with_reducible apply keeps_requestStart
    | with_reducible refine keeps_of_fst (by with_reducible assumption) ?_
    | dsimp -zeta -zetaHave only
    | split


theorem keeps_wakeLate (s) (h0 : Keeps K s) (hp : Sub 0x7FFFFF K.may) : Keeps K (wakeLate s) := by
  unfold wakeLate
  repeat' first
    | with_reducible assumption
    | exact sub_mono hp (by decide)
    | with_reducible apply keeps_wake
    | with_reducible apply keeps_updPwr
    | with_reducible refine keeps_of_fst (by with_reducible assumption) ?_
    | dsimp -zeta -zetaHave only
    | split


theorem keeps_dimAtLatch (a b s) (h2 : Keeps K s) (hp : Sub 0x7FFFFF K.may) : Keeps K (dimAtLatch a b s) := by
  unfold dimAtLatch
  repeat' first
    | with_reducible assumption
    | exact sub_mono hp (by decide)
    | (extract_lets +onlyGivenNames x; have hx : Keeps K x; (on_goal 2 => clear_value x); (on_goal 1 => unfold x; clear x))
    | (extract_lets +onlyGivenNames x; have hx : Keeps K x; (on_goal 1 => unfold x; clear x))
    | with_reducible apply keeps_updPwr
    | with_reducible apply keeps_wakeLate
    | with_reducible apply keeps_stateEnds
    | with_reducible refine keeps_of_fst (by with_reducible assumption) ?_
    | dsimp -zeta -zetaHave only [id]
    | split


theorem keeps_sleepRecords (s) (h0 : Keeps K s) (hp : Sub 0x110065 K.may) : Keeps K (sleepRecords s) := by
  unfold sleepRecords
  repeat' first
    | with_reducible assumption
    | exact sub_mono hp (by decide)
    | with_reducible apply keeps_aonStore
    | with_reducible apply keeps_progsEnd
    | with_reducible apply keeps_writeLifetime
    | with_reducible apply keeps_writeAccounting
    | with_reducible refine keeps_of_fst (by with_reducible assumption) ?_
    | dsimp -zeta -zetaHave only
    | split


theorem keeps_retention (s) (h0 : Keeps K s) (hp : Sub 0x7FFFFF K.may) : Keeps K (retention s) := by
  unfold retention
  repeat' first
    | with_reducible assumption
    | exact sub_mono hp (by decide)
    | intro _
    | (extract_lets +onlyGivenNames x; have hx : Keeps K x; (on_goal 2 => clear_value x); (on_goal 1 => unfold x; clear x))
    | (extract_lets +onlyGivenNames x; have hx : Keeps K x; (on_goal 1 => unfold x; clear x))
    | (extract_lets +onlyGivenNames x; clear_value x)
    | extract_lets +onlyGivenNames x
    | with_reducible apply keeps_sleepRecords
    | with_reducible apply keeps_updPwr
    | with_reducible apply keeps_domOff1
    | with_reducible apply keeps_linkDown
    | with_reducible apply keeps_stateEnds
    | with_reducible apply keeps_wakeLate
    | with_reducible apply keeps_settleAll
    | with_reducible apply keeps_foldl
    | with_reducible apply keeps_foldl_fst
    | with_reducible refine keeps_of_fst (by with_reducible assumption) ?_
    | dsimp -zeta -zetaHave only
    | split


theorem keeps_dormant (s) (h0 : Keeps K s) (hp : Sub 0x7FFFFF K.may) : Keeps K (dormant s) := by
  unfold dormant
  repeat' first
    | with_reducible assumption
    | exact sub_mono hp (by decide)
    | (extract_lets +onlyGivenNames x; have hx : Keeps K x; (on_goal 2 => clear_value x); (on_goal 1 => unfold x; clear x))
    | (extract_lets +onlyGivenNames x; have hx : Keeps K x; (on_goal 1 => unfold x; clear x))
    | with_reducible apply keeps_sleepRecords
    | with_reducible apply keeps_sysReset
    | with_reducible apply keeps_updPwr
    | with_reducible apply keeps_set
    | dsimp -zeta -zetaHave only


theorem keeps_sleepGo (s) (h0 : Keeps K s) (hp : Sub 0x7FFFFF K.may) : Keeps K (sleepGo s) := by
  unfold sleepGo
  repeat' first
    | with_reducible assumption
    | exact sub_mono hp (by decide)
    | with_reducible apply keeps_retention
    | with_reducible apply keeps_dormant
    | with_reducible refine keeps_of_fst (by with_reducible assumption) ?_
    | dsimp -zeta -zetaHave only
    | split


theorem keeps_sleepAsk (a s) (h1 : Keeps K s) (hp : Sub 0x7FFFFF K.may) : Keeps K (sleepAsk a s) := by
  unfold sleepAsk
  repeat' first
    | with_reducible assumption
    | exact sub_mono hp (by decide)
    | (extract_lets +onlyGivenNames x; have hx : Keeps K x; (on_goal 2 => clear_value x); (on_goal 1 => unfold x; clear x))
    | (extract_lets +onlyGivenNames x; have hx : Keeps K x; (on_goal 1 => unfold x; clear x))
    | with_reducible apply keeps_set
    | with_reducible apply keeps_updPwr
    | with_reducible apply keeps_sleepGo
    | with_reducible refine keeps_of_fst (by with_reducible assumption) ?_
    | dsimp -zeta -zetaHave only
    | split


theorem keeps_sleepAtFs (s) (h0 : Keeps K s) (hp : Sub 0x100200 K.may) : Keeps K (sleepAtFs s) := by
  unfold sleepAtFs
  repeat' first
    | with_reducible assumption
    | exact sub_mono hp (by decide)
    | (extract_lets +onlyGivenNames x; have hx : Keeps K x; (on_goal 2 => clear_value x); (on_goal 1 => unfold x; clear x))
    | (extract_lets +onlyGivenNames x; have hx : Keeps K x; (on_goal 1 => unfold x; clear x))
    | (extract_lets +onlyGivenNames x; clear_value x)
    | extract_lets +onlyGivenNames x
    | exact Or.inr rfl
    | exact Or.inl (may_of hp (by decide))
    | simp only [↓keeps_mk]
    | refine keepsOf_upd ?_ rfl rfl rfl rfl rfl rfl ?_ ?_ ?_ ?_ ?_ ?_ ?_ ?_ ?_ ?_ ?_ ?_ ?_ ?_ ?_ ?_ ?_ ?_ ?_ ?_ ?_ ?_
    | with_reducible apply keeps_updPwr
    | with_reducible refine keeps_of_fst (by with_reducible assumption) ?_
    | dsimp -zeta -zetaHave only
    | split


theorem keeps_stateCtl (a b s) (h2 : Keeps K s) (hp : Sub 0x7FFFFF K.may) : Keeps K (stateCtl a b s) := by
  unfold stateCtl
  repeat' first
    | with_reducible assumption
    | exact sub_mono hp (by decide)
    | (extract_lets +onlyGivenNames x; clear_value x)
    | extract_lets +onlyGivenNames x
    | with_reducible apply keeps_fault
    | with_reducible apply keeps_dimLeave
    | with_reducible apply keeps_dimAsk
    | with_reducible apply keeps_sleepAsk
    | with_reducible refine keeps_of_fst (by with_reducible assumption) ?_
    | dsimp -zeta -zetaHave only
    | split


theorem keeps_railsUp (s) (h0 : Keeps K s) (hp : Sub 0x180000 K.may) : Keeps K (railsUp s) := by
  unfold railsUp
  repeat' first
    | with_reducible assumption
    | exact sub_mono hp (by decide)
    | (extract_lets +onlyGivenNames x; have hx : Keeps K x; (on_goal 2 => clear_value x); (on_goal 1 => unfold x; clear x))
    | (extract_lets +onlyGivenNames x; have hx : Keeps K x; (on_goal 1 => unfold x; clear x))
    | with_reducible apply keeps_set
    | with_reducible apply keeps_updPwr
    | with_reducible apply keeps_updBoot
    | with_reducible refine keeps_of_fst (by with_reducible assumption) ?_
    | dsimp -zeta -zetaHave only
    | split


theorem keeps_pwrDrop (a s) (h0 : ∀ x0, Keeps K x0 → Keeps K (a x0)) (h1 : Keeps K s) (hp : Sub 0x100000 K.may) : Keeps K (pwrDrop a s) := by
  unfold pwrDrop
  repeat' first
    | with_reducible assumption
    | exact sub_mono hp (by decide)
    | intro _
    | (extract_lets +onlyGivenNames x; have hx : Keeps K x; (on_goal 2 => clear_value x); (on_goal 1 => unfold x; clear x))
    | (extract_lets +onlyGivenNames x; have hx : Keeps K x; (on_goal 1 => unfold x; clear x))
    | (extract_lets +onlyGivenNames x; clear_value x)
    | extract_lets +onlyGivenNames x
    | with_reducible apply keeps_emit
    | with_reducible apply keeps_updPwr
    | with_reducible apply h0
    | with_reducible refine keeps_of_fst (by with_reducible assumption) ?_
    | dsimp -zeta -zetaHave only [id]
    | split


theorem keeps_pwrSeq (s) (h0 : Keeps K s) (hp : Sub 0x7FFFFF K.may) : Keeps K (pwrSeq s) := by
  unfold pwrSeq
  repeat' first
    | with_reducible assumption
    | exact sub_mono hp (by decide)
    | intro _
    | (extract_lets +onlyGivenNames x; have hx : Keeps K x; (on_goal 2 => clear_value x); (on_goal 1 => unfold x; clear x))
    | (extract_lets +onlyGivenNames x; have hx : Keeps K x; (on_goal 1 => unfold x; clear x))
    | with_reducible apply keeps_emit
    | with_reducible apply keeps_updPwr
    | with_reducible apply keeps_railsUp
    | with_reducible apply keeps_pwrDrop
    | with_reducible apply keeps_wakeLate
    | with_reducible refine keeps_of_fst (by with_reducible assumption) ?_
    | dsimp -zeta -zetaHave only [id]
    | split


theorem keeps_vaonApplied (s) (h0 : Keeps K s) (hp : Sub 0x7FFFFF K.may) : Keeps K (vaonApplied s) := by
  unfold vaonApplied
  extract_lets t
  have k : Keeps K t := keeps_sysReset false false s h0 (sub_mono hp (by decide))
  clear_value t
  have k1 : Keeps K { t with regs := [] } := ⟨keepsOf_regsNil k.parts⟩
  exact ⟨keepsOf_upd k1 rfl rfl rfl rfl rfl rfl (.inr rfl) (.inr rfl) (.inr rfl) (.inr rfl) (.inr rfl) (.inr rfl) (.inr rfl) (.inr rfl) (.inr rfl) (.inr rfl) (.inr rfl) (.inr rfl) (.inr rfl) (.inr rfl) (.inr rfl) (.inr rfl) (.inr rfl) (.inr rfl) (.inr rfl) (.inl (may_of hp (by decide))) (.inr rfl) (.inr rfl)⟩


theorem keeps_powerLoss (s) (h0 : Keeps K s) (hp : Sub 0x7FFFFF K.may) : Keeps K (powerLoss s) := by
  unfold powerLoss
  extract_lets t
  have k : Keeps K t := keeps_sysReset false false s h0 (sub_mono hp (by decide))
  clear_value t
  have k1 : Keeps K { t with regs := [] } := ⟨keepsOf_regsNil k.parts⟩
  exact ⟨keepsOf_upd k1 rfl rfl rfl rfl rfl rfl (.inr rfl) (.inr rfl) (.inr rfl) (.inr rfl) (.inr rfl) (.inr rfl) (.inr rfl) (.inr rfl) (.inr rfl) (.inr rfl) (.inr rfl) (.inr rfl) (.inr rfl) (.inr rfl) (.inr rfl) (.inr rfl) (.inr rfl) (.inr rfl) (.inl (may_of hp (by decide))) (.inl (may_of hp (by decide))) (.inl (may_of hp (by decide))) (.inl (may_of hp (by decide)))⟩


theorem keeps_holdReset (a s) (h1 : Keeps K s) (hp : Sub 0x7FFFFF K.may) : Keeps K (holdReset a s) := by
  unfold holdReset
  repeat' first
    | with_reducible assumption
    | exact sub_mono hp (by decide)
    | (extract_lets +onlyGivenNames x; have hx : Keeps K x; (on_goal 2 => clear_value x); (on_goal 1 => unfold x; clear x))
    | (extract_lets +onlyGivenNames x; have hx : Keeps K x; (on_goal 1 => unfold x; clear x))
    | with_reducible apply keeps_sysReset
    | with_reducible apply keeps_updBoot
    | with_reducible refine keeps_of_fst (by with_reducible assumption) ?_
    | dsimp -zeta -zetaHave only
    | split


theorem keeps_releaseReset (a s) (h1 : Keeps K s) (hp : Sub 0x180000 K.may) : Keeps K (releaseReset a s) := by
  unfold releaseReset
  repeat' first
    | with_reducible assumption
    | exact sub_mono hp (by decide)
    | (extract_lets +onlyGivenNames x; have hx : Keeps K x; (on_goal 2 => clear_value x); (on_goal 1 => unfold x; clear x))
    | (extract_lets +onlyGivenNames x; have hx : Keeps K x; (on_goal 1 => unfold x; clear x))
    | (extract_lets +onlyGivenNames x; clear_value x)
    | extract_lets +onlyGivenNames x
    | with_reducible apply keeps_updBoot
    | with_reducible apply keeps_railsUp
    | with_reducible refine keeps_of_fst (by with_reducible assumption) ?_
    | dsimp -zeta -zetaHave only [id]
    | split


theorem keeps_thermalEval (s) (h0 : Keeps K s) (hp : Sub 0x7FFFFF K.may) : Keeps K (thermalEval s) := by
  unfold thermalEval
  repeat' first
    | with_reducible assumption
    | exact sub_mono hp (by decide)
    | intro _
    | (extract_lets +onlyGivenNames x; have hx : Keeps K x; (on_goal 2 => clear_value x); (on_goal 1 => unfold x; clear x))
    | (extract_lets +onlyGivenNames x; have hx : Keeps K x; (on_goal 1 => unfold x; clear x))
    | (extract_lets +onlyGivenNames x; clear_value x)
    | extract_lets +onlyGivenNames x
    | with_reducible apply keeps_trackTj
    | with_reducible apply keeps_sysReset
    | with_reducible apply keeps_set
    | with_reducible apply keeps_updPwr
    | with_reducible apply keeps_emit
    | with_reducible apply keeps_evt
    | with_reducible apply keeps_domOff
    | with_reducible apply keeps_foldl
    | with_reducible apply keeps_foldl_fst
    | with_reducible refine keeps_of_fst (by with_reducible assumption) ?_
    | dsimp -zeta -zetaHave only
    | split


theorem keeps_pmStart (s) (h0 : Keeps K s) (hp : Sub 0x100000 K.may) : Keeps K (pmStart s) := by
  unfold pmStart
  repeat' first
    | with_reducible assumption
    | exact sub_mono hp (by decide)
    | with_reducible apply keeps_emit
    | with_reducible apply keeps_updPwr
    | with_reducible refine keeps_of_fst (by with_reducible assumption) ?_
    | dsimp -zeta -zetaHave only
    | split


theorem keeps_pmAsk (a s) (h1 : Keeps K s) (hp : Sub 0x100000 K.may) : Keeps K (pmAsk a s) := by
  unfold pmAsk
  repeat' first
    | with_reducible assumption
    | exact sub_mono hp (by decide)
    | with_reducible apply keeps_pmStart
    | with_reducible apply keeps_updPwr
    | dsimp -zeta -zetaHave only


theorem keeps_retarget (a s) (h1 : Keeps K s) (hp : Sub 0x100000 K.may) : Keeps K (retarget a s) := by
  unfold retarget
  repeat' first
    | with_reducible assumption
    | exact sub_mono hp (by decide)
    | with_reducible apply keeps_updPwr
    | with_reducible refine keeps_of_fst (by with_reducible assumption) ?_
    | dsimp -zeta -zetaHave only
    | split


theorem keeps_govOff (s) (h0 : Keeps K s) (hp : Sub 0x100000 K.may) : Keeps K (govOff s) := by
  unfold govOff
  repeat' first
    | with_reducible assumption
    | exact sub_mono hp (by decide)
    | with_reducible apply keeps_retarget
    | with_reducible refine keeps_of_fst (by with_reducible assumption) ?_
    | dsimp -zeta -zetaHave only
    | split


theorem keeps_pmAck (a b s) (h2 : Keeps K s) (hp : Sub 0x100060 K.may) : Keeps K (pmAck a b s) := by
  unfold pmAck
  repeat' first
    | with_reducible assumption
    | exact sub_mono hp (by decide)
    | (extract_lets +onlyGivenNames x; clear_value x)
    | extract_lets +onlyGivenNames x
    | with_reducible apply keeps_set
    | with_reducible apply keeps_fault
    | with_reducible apply keeps_evt
    | with_reducible apply keeps_updPwr
    | with_reducible refine keeps_of_fst (by with_reducible assumption) ?_
    | dsimp -zeta -zetaHave only
    | split


theorem keeps_pmEnd (a b s) (h2 : Keeps K s) (hp : Sub 0x100060 K.may) : Keeps K (pmEnd a b s) := by
  unfold pmEnd
  repeat' first
    | with_reducible assumption
    | exact sub_mono hp (by decide)
    | (extract_lets +onlyGivenNames x; have hx : Keeps K x; (on_goal 2 => clear_value x); (on_goal 1 => unfold x; clear x))
    | (extract_lets +onlyGivenNames x; have hx : Keeps K x; (on_goal 1 => unfold x; clear x))
    | (extract_lets +onlyGivenNames x; clear_value x)
    | extract_lets +onlyGivenNames x
    | with_reducible apply keeps_pmStart
    | with_reducible apply keeps_updPwr
    | with_reducible apply keeps_pmAck
    | with_reducible apply keeps_emit
    | with_reducible apply keeps_evt
    | with_reducible apply keeps_bump
    | with_reducible refine keeps_of_fst (by with_reducible assumption) ?_
    | dsimp -zeta -zetaHave only
    | split


theorem keeps_governor (s) (h0 : Keeps K s) (hp : Sub 0x100060 K.may) : Keeps K (governor s) := by
  unfold governor
  repeat' first
    | with_reducible assumption
    | exact sub_mono hp (by decide)
    | (extract_lets +onlyGivenNames x; have hx : Keeps K x; (on_goal 2 => clear_value x); (on_goal 1 => unfold x; clear x))
    | (extract_lets +onlyGivenNames x; have hx : Keeps K x; (on_goal 1 => unfold x; clear x))
    | (extract_lets +onlyGivenNames x; clear_value x)
    | extract_lets +onlyGivenNames x
    | with_reducible apply keeps_set
    | with_reducible apply keeps_setStat
    | with_reducible apply keeps_evt
    | with_reducible apply keeps_bump
    | with_reducible apply keeps_retarget
    | with_reducible refine keeps_of_fst (by with_reducible assumption) ?_
    | dsimp -zeta -zetaHave only
    | split


theorem keeps_execWakePin (s) (h0 : Keeps K s) (hp : Sub 0x7FFFFF K.may) : ∃ t, execWakePin s = .next t ∧ Keeps K t := by
  refine ⟨_, rfl, ?_⟩
  repeat' first
    | with_reducible assumption
    | exact sub_mono hp (by decide)
    | exact Or.inr rfl
    | exact Or.inl (may_of hp (by decide))
    | simp only [↓keeps_mk]
    | refine keepsOf_upd ?_ rfl rfl rfl rfl rfl rfl ?_ ?_ ?_ ?_ ?_ ?_ ?_ ?_ ?_ ?_ ?_ ?_ ?_ ?_ ?_ ?_ ?_ ?_ ?_ ?_ ?_ ?_
    | with_reducible apply keeps_wake
    | dsimp -zeta -zetaHave only


theorem keeps_execRtcAlarm (s) (h0 : Keeps K s) (hp : Sub 0x7FFFFF K.may) : ∃ t, execRtcAlarm s = .next t ∧ Keeps K t := by
  refine ⟨_, rfl, ?_⟩
  repeat' first
    | with_reducible assumption
    | exact sub_mono hp (by decide)
    | exact Or.inr rfl
    | exact Or.inl (may_of hp (by decide))
    | simp only [↓keeps_mk]
    | refine keepsOf_upd ?_ rfl rfl rfl rfl rfl rfl ?_ ?_ ?_ ?_ ?_ ?_ ?_ ?_ ?_ ?_ ?_ ?_ ?_ ?_ ?_ ?_ ?_ ?_ ?_ ?_ ?_ ?_
    | with_reducible apply keeps_wake
    | dsimp -zeta -zetaHave only


theorem keeps_execDomainOnDone (a s) (h1 : Keeps K s) (hp : Sub 0x11827C K.may) : ∃ t, execDomainOnDone a s = .next t ∧ Keeps K t := by
  refine ⟨_, rfl, ?_⟩
  repeat' first
    | with_reducible assumption
    | exact sub_mono hp (by decide)
    | exact Or.inr rfl
    | exact Or.inl (may_of hp (by decide))
    | simp only [↓keeps_mk]
    | refine keepsOf_upd ?_ rfl rfl rfl rfl rfl rfl ?_ ?_ ?_ ?_ ?_ ?_ ?_ ?_ ?_ ?_ ?_ ?_ ?_ ?_ ?_ ?_ ?_ ?_ ?_ ?_ ?_ ?_
    | with_reducible apply keeps_domOnDone
    | dsimp -zeta -zetaHave only


theorem keeps_execDomainOffDone (a s) (h1 : Keeps K s) (hp : Sub 0x19F77D K.may) : ∃ t, execDomainOffDone a s = .next t ∧ Keeps K t := by
  refine ⟨_, rfl, ?_⟩
  repeat' first
    | with_reducible assumption
    | exact sub_mono hp (by decide)
    | exact Or.inr rfl
    | exact Or.inl (may_of hp (by decide))
    | simp only [↓keeps_mk]
    | refine keepsOf_upd ?_ rfl rfl rfl rfl rfl rfl ?_ ?_ ?_ ?_ ?_ ?_ ?_ ?_ ?_ ?_ ?_ ?_ ?_ ?_ ?_ ?_ ?_ ?_ ?_ ?_ ?_ ?_
    | with_reducible apply keeps_domOffDone
    | dsimp -zeta -zetaHave only


theorem keeps_execDramTrainingDone (a s) (h1 : Keeps K s) : ∃ t, execDramTrainingDone a s = .next t ∧ Keeps K t := by
  refine ⟨_, rfl, ?_⟩
  repeat' first
    | with_reducible assumption
    | exact Or.inr rfl
    | simp only [↓keeps_mk]
    | refine keepsOf_upd ?_ rfl rfl rfl rfl rfl rfl ?_ ?_ ?_ ?_ ?_ ?_ ?_ ?_ ?_ ?_ ?_ ?_ ?_ ?_ ?_ ?_ ?_ ?_ ?_ ?_ ?_ ?_
    | with_reducible apply keeps_set
    | with_reducible refine keeps_of_fst (by with_reducible assumption) ?_
    | dsimp -zeta -zetaHave only
    | split


theorem keeps_execVoutCommand (s) (h0 : Keeps K s) (hp : Sub 0x100000 K.may) : ∃ t, execVoutCommand s = .next t ∧ Keeps K t := by
  refine ⟨_, rfl, ?_⟩
  repeat' first
    | with_reducible assumption
    | exact sub_mono hp (by decide)
    | exact Or.inr rfl
    | exact Or.inl (may_of hp (by decide))
    | simp only [↓keeps_mk]
    | refine keepsOf_upd ?_ rfl rfl rfl rfl rfl rfl ?_ ?_ ?_ ?_ ?_ ?_ ?_ ?_ ?_ ?_ ?_ ?_ ?_ ?_ ?_ ?_ ?_ ?_ ?_ ?_ ?_ ?_
    | with_reducible apply keeps_pmStart
    | with_reducible refine keeps_of_fst (by with_reducible assumption) ?_
    | dsimp -zeta -zetaHave only
    | split


theorem keeps_execPmbusPoll (s) (h0 : Keeps K s) (hp : Sub 0x100000 K.may) : ∃ t, execPmbusPoll s = .next t ∧ Keeps K t := by
  refine ⟨_, rfl, ?_⟩
  repeat' first
    | with_reducible assumption
    | exact sub_mono hp (by decide)
    | exact Or.inr rfl
    | exact Or.inl (may_of hp (by decide))
    | simp only [↓keeps_mk]
    | refine keepsOf_upd ?_ rfl rfl rfl rfl rfl rfl ?_ ?_ ?_ ?_ ?_ ?_ ?_ ?_ ?_ ?_ ?_ ?_ ?_ ?_ ?_ ?_ ?_ ?_ ?_ ?_ ?_ ?_
    | with_reducible apply keeps_pmAsk
    | dsimp -zeta -zetaHave only


theorem keeps_execPmbusAlert (s) (h0 : Keeps K s) (hp : Sub 0x100060 K.may) : ∃ t, execPmbusAlert s = .next t ∧ Keeps K t := by
  refine ⟨_, rfl, ?_⟩
  repeat' first
    | with_reducible assumption
    | exact sub_mono hp (by decide)
    | exact Or.inr rfl
    | exact Or.inl (may_of hp (by decide))
    | simp only [↓keeps_mk]
    | refine keepsOf_upd ?_ rfl rfl rfl rfl rfl rfl ?_ ?_ ?_ ?_ ?_ ?_ ?_ ?_ ?_ ?_ ?_ ?_ ?_ ?_ ?_ ?_ ?_ ?_ ?_ ?_ ?_ ?_
    | with_reducible apply keeps_pmAsk
    | with_reducible apply keeps_evt
    | dsimp -zeta -zetaHave only


theorem keeps_execPmbusTransactionEnd (a b s) (h2 : Keeps K s) (hp : Sub 0x100060 K.may) : ∃ t, execPmbusTransactionEnd a b s = .next t ∧ Keeps K t := by
  refine ⟨_, rfl, ?_⟩
  repeat' first
    | with_reducible assumption
    | exact sub_mono hp (by decide)
    | exact Or.inr rfl
    | exact Or.inl (may_of hp (by decide))
    | simp only [↓keeps_mk]
    | refine keepsOf_upd ?_ rfl rfl rfl rfl rfl rfl ?_ ?_ ?_ ?_ ?_ ?_ ?_ ?_ ?_ ?_ ?_ ?_ ?_ ?_ ?_ ?_ ?_ ?_ ?_ ?_ ?_ ?_
    | with_reducible apply keeps_pmEnd
    | dsimp -zeta -zetaHave only


theorem keeps_execThermalEvaluate (s) (h0 : Keeps K s) (hp : Sub 0x7FFFFF K.may) : ∃ t, execThermalEvaluate s = .next t ∧ Keeps K t := by
  refine ⟨_, rfl, ?_⟩
  repeat' first
    | with_reducible assumption
    | exact sub_mono hp (by decide)
    | exact Or.inr rfl
    | exact Or.inl (may_of hp (by decide))
    | simp only [↓keeps_mk]
    | refine keepsOf_upd ?_ rfl rfl rfl rfl rfl rfl ?_ ?_ ?_ ?_ ?_ ?_ ?_ ?_ ?_ ?_ ?_ ?_ ?_ ?_ ?_ ?_ ?_ ?_ ?_ ?_ ?_ ?_
    | with_reducible apply keeps_thermalEval
    | dsimp -zeta -zetaHave only


theorem keeps_execLifeCount (s) (h0 : Keeps K s) (hp : Sub 0x100000 K.may) : ∃ t, execLifeCount s = .next t ∧ Keeps K t := by
  refine ⟨_, rfl, ?_⟩
  repeat' first
    | with_reducible assumption
    | exact sub_mono hp (by decide)
    | exact Or.inr rfl
    | exact Or.inl (may_of hp (by decide))
    | simp only [↓keeps_mk]
    | refine keepsOf_upd ?_ rfl rfl rfl rfl rfl rfl ?_ ?_ ?_ ?_ ?_ ?_ ?_ ?_ ?_ ?_ ?_ ?_ ?_ ?_ ?_ ?_ ?_ ?_ ?_ ?_ ?_ ?_
    | with_reducible apply keeps_lifeCount
    | dsimp -zeta -zetaHave only


theorem keeps_execLifetimeRecordWrite (s) (h0 : Keeps K s) (hp : Sub 0x100004 K.may) : ∃ t, execLifetimeRecordWrite s = .next t ∧ Keeps K t := by
  refine ⟨_, rfl, ?_⟩
  repeat' first
    | with_reducible assumption
    | exact sub_mono hp (by decide)
    | exact Or.inr rfl
    | exact Or.inl (may_of hp (by decide))
    | simp only [↓keeps_mk]
    | refine keepsOf_upd ?_ rfl rfl rfl rfl rfl rfl ?_ ?_ ?_ ?_ ?_ ?_ ?_ ?_ ?_ ?_ ?_ ?_ ?_ ?_ ?_ ?_ ?_ ?_ ?_ ?_ ?_ ?_
    | with_reducible apply keeps_writeLifetime
    | with_reducible refine keeps_of_fst (by with_reducible assumption) ?_
    | dsimp -zeta -zetaHave only
    | split


theorem keeps_execVaonApplied (s) (h0 : Keeps K s) (hp : Sub 0x7FFFFF K.may) : ∃ t, execVaonApplied s = .next t ∧ Keeps K t := by
  refine ⟨_, rfl, ?_⟩
  repeat' first
    | with_reducible assumption
    | exact sub_mono hp (by decide)
    | exact Or.inr rfl
    | exact Or.inl (may_of hp (by decide))
    | simp only [↓keeps_mk]
    | refine keepsOf_upd ?_ rfl rfl rfl rfl rfl rfl ?_ ?_ ?_ ?_ ?_ ?_ ?_ ?_ ?_ ?_ ?_ ?_ ?_ ?_ ?_ ?_ ?_ ?_ ?_ ?_ ?_ ?_
    | with_reducible apply keeps_vaonApplied
    | dsimp -zeta -zetaHave only


theorem keeps_execPwrEnSequence (s) (h0 : Keeps K s) (hp : Sub 0x7FFFFF K.may) : ∃ t, execPwrEnSequence s = .next t ∧ Keeps K t := by
  refine ⟨_, rfl, ?_⟩
  repeat' first
    | with_reducible assumption
    | exact sub_mono hp (by decide)
    | exact Or.inr rfl
    | exact Or.inl (may_of hp (by decide))
    | simp only [↓keeps_mk]
    | refine keepsOf_upd ?_ rfl rfl rfl rfl rfl rfl ?_ ?_ ?_ ?_ ?_ ?_ ?_ ?_ ?_ ?_ ?_ ?_ ?_ ?_ ?_ ?_ ?_ ?_ ?_ ?_ ?_ ?_
    | with_reducible apply keeps_pwrSeq
    | dsimp -zeta -zetaHave only


theorem keeps_execRailOutOfRange (s) (h0 : Keeps K s) (hp : Sub 0x7FFFFF K.may) : ∃ t, execRailOutOfRange s = .next t ∧ Keeps K t := by
  refine ⟨_, rfl, ?_⟩
  repeat' first
    | with_reducible assumption
    | exact sub_mono hp (by decide)
    | exact Or.inr rfl
    | exact Or.inl (may_of hp (by decide))
    | simp only [↓keeps_mk]
    | refine keepsOf_upd ?_ rfl rfl rfl rfl rfl rfl ?_ ?_ ?_ ?_ ?_ ?_ ?_ ?_ ?_ ?_ ?_ ?_ ?_ ?_ ?_ ?_ ?_ ?_ ?_ ?_ ?_ ?_
    | with_reducible apply keeps_holdReset
    | dsimp -zeta -zetaHave only


theorem keeps_execRailReturn (s) (h0 : Keeps K s) (hp : Sub 0x180000 K.may) : ∃ t, execRailReturn s = .next t ∧ Keeps K t := by
  refine ⟨_, rfl, ?_⟩
  repeat' first
    | with_reducible assumption
    | exact sub_mono hp (by decide)
    | exact Or.inr rfl
    | exact Or.inl (may_of hp (by decide))
    | simp only [↓keeps_mk]
    | refine keepsOf_upd ?_ rfl rfl rfl rfl rfl rfl ?_ ?_ ?_ ?_ ?_ ?_ ?_ ?_ ?_ ?_ ?_ ?_ ?_ ?_ ?_ ?_ ?_ ?_ ?_ ?_ ?_ ?_
    | with_reducible apply keeps_releaseReset
    | dsimp -zeta -zetaHave only


theorem keeps_execResetNAssert (s) (h0 : Keeps K s) (hp : Sub 0x7FFFFF K.may) : ∃ t, execResetNAssert s = .next t ∧ Keeps K t := by
  refine ⟨_, rfl, ?_⟩
  repeat' first
    | with_reducible assumption
    | exact sub_mono hp (by decide)
    | exact Or.inr rfl
    | exact Or.inl (may_of hp (by decide))
    | simp only [↓keeps_mk]
    | refine keepsOf_upd ?_ rfl rfl rfl rfl rfl rfl ?_ ?_ ?_ ?_ ?_ ?_ ?_ ?_ ?_ ?_ ?_ ?_ ?_ ?_ ?_ ?_ ?_ ?_ ?_ ?_ ?_ ?_
    | with_reducible apply keeps_holdReset
    | dsimp -zeta -zetaHave only


theorem keeps_execResetNRelease (s) (h0 : Keeps K s) (hp : Sub 0x180000 K.may) : ∃ t, execResetNRelease s = .next t ∧ Keeps K t := by
  refine ⟨_, rfl, ?_⟩
  repeat' first
    | with_reducible assumption
    | exact sub_mono hp (by decide)
    | exact Or.inr rfl
    | exact Or.inl (may_of hp (by decide))
    | simp only [↓keeps_mk]
    | refine keepsOf_upd ?_ rfl rfl rfl rfl rfl rfl ?_ ?_ ?_ ?_ ?_ ?_ ?_ ?_ ?_ ?_ ?_ ?_ ?_ ?_ ?_ ?_ ?_ ?_ ?_ ?_ ?_ ?_
    | with_reducible apply keeps_releaseReset
    | dsimp -zeta -zetaHave only


theorem keeps_execPowerLoss (a s) (h1 : Keeps K s) (hp : Sub 0x7FFFFF K.may) : ∃ t, execPowerLoss a s = .next t ∧ Keeps K t := by
  refine ⟨_, rfl, ?_⟩
  repeat' first
    | with_reducible assumption
    | exact sub_mono hp (by decide)
    | exact Or.inr rfl
    | exact Or.inl (may_of hp (by decide))
    | simp only [↓keeps_mk]
    | refine keepsOf_upd ?_ rfl rfl rfl rfl rfl rfl ?_ ?_ ?_ ?_ ?_ ?_ ?_ ?_ ?_ ?_ ?_ ?_ ?_ ?_ ?_ ?_ ?_ ?_ ?_ ?_ ?_ ?_
    | with_reducible apply keeps_refreshAll
    | with_reducible apply keeps_domOff1
    | with_reducible apply keeps_powerLoss
    | with_reducible refine keeps_of_fst (by with_reducible assumption) ?_
    | dsimp -zeta -zetaHave only
    | split


end Sys2Proof.Machine
end

