-- ==== Sys2Proof/Laws/KeepsRegRead.lean ====
section
/-!
SUPPORT. What the operations of Machine/RegRead.lean keep.
-/
namespace Sys2Proof.Machine
open Sys2Proof

variable {K : Keeping}

theorem keeps_regRead (a b c s) (h3 : Keeps K s) (hp : Sub 0x242062 K.may) : Keeps K (regRead a b c s).1 := by
  unfold regRead
  repeat' first
    | with_reducible assumption
    | exact sub_mono hp (by decide)
    | with_reducible apply keeps_queuePop
    | with_reducible refine keeps_of_fst (by with_reducible assumption) ?_
    | dsimp -zeta -zetaHave only
    | split


end Sys2Proof.Machine
end

