-- ==== Sys2Proof/Laws/KeepsDma.lean ====
section
/-!
SUPPORT. What the operations of Machine/Dma.lean keep.
-/
namespace Sys2Proof.Machine
open Sys2Proof

variable {K : Keeping}

theorem keeps_chSet (s b c d) (h0 : Keeps K s) : Keeps K (chSet s b c d) := by
  unfold chSet
  repeat' first
    | with_reducible assumption
    | with_reducible apply keeps_set
    | dsimp -zeta -zetaHave only


theorem keeps_updDma (s b c) (h0 : Keeps K s) (hp : Sub 0x20000 K.may) : Keeps K (updDma s b c) := by
  unfold updDma
  repeat' first
    | with_reducible assumption
    | exact sub_mono hp (by decide)
    | exact Or.inr rfl
    | exact Or.inl (may_of hp (by decide))
    | simp only [↓keeps_mk]
    | refine keepsOf_upd ?_ rfl rfl rfl rfl rfl rfl ?_ ?_ ?_ ?_ ?_ ?_ ?_ ?_ ?_ ?_ ?_ ?_ ?_ ?_ ?_ ?_ ?_ ?_ ?_ ?_ ?_ ?_
    | dsimp -zeta -zetaHave only


theorem keeps_chSetAddr (s b c d e) (h0 : Keeps K s) : Keeps K (chSetAddr s b c d e) := by
  unfold chSetAddr
  repeat' first
    | with_reducible assumption
    | with_reducible apply keeps_chSet
    | dsimp -zeta -zetaHave only


theorem keeps_setCur (a b s) (h2 : Keeps K s) : Keeps K (setCur a b s) := by
  unfold setCur
  repeat' first
    | with_reducible assumption
    | with_reducible apply keeps_chSetAddr
    | dsimp -zeta -zetaHave only


theorem keeps_setResume (a b c s) (h3 : Keeps K s) : Keeps K (setResume a b c s) := by
  unfold setResume
  repeat' first
    | with_reducible assumption
    | with_reducible apply keeps_chSet
    | with_reducible apply keeps_chSetAddr
    | dsimp -zeta -zetaHave only


theorem keeps_dmaRead (a b c d s) (h4 : Keeps K s) (hp : Sub 0x242067 K.may) : Keeps K (dmaRead a b c d s).1 := by
  induction b generalizing c d s <;> unfold dmaRead
  repeat' first
    | with_reducible assumption
    | exact sub_mono hp (by decide)
    | (extract_lets +onlyGivenNames x; clear_value x)
    | extract_lets +onlyGivenNames x
    | with_reducible apply keeps_regRead
    | with_reducible apply keeps_rd
    | with_reducible refine keeps_of_fst (by with_reducible assumption) ?_
    | with_reducible apply_assumption -exfalso -symm
    | dsimp -zeta -zetaHave only
    | split


theorem keeps_dmaReadN (a b c s) (h3 : Keeps K s) (hp : Sub 0x242067 K.may) : Keeps K (dmaReadN a b c s).1 := by
  unfold dmaReadN
  repeat' first
    | with_reducible assumption
    | exact sub_mono hp (by decide)
    | with_reducible apply keeps_dmaRead
    | dsimp -zeta -zetaHave only


theorem keeps_pushItem (a b c s) (h3 : Keeps K s) (hp : Sub 0x242062 K.may) : Keeps K (pushItem a b c s) := by
  unfold pushItem
  repeat' first
    | with_reducible assumption
    | exact sub_mono hp (by decide)
    | with_reducible apply keeps_queuePush
    | with_reducible apply keeps_postDone
    | with_reducible refine keeps_of_fst (by with_reducible assumption) ?_
    | dsimp -zeta -zetaHave only
    | split


theorem keeps_chainEnds (a s) (h1 : Keeps K s) (hp : Sub 0x262062 K.may) : Keeps K (chainEnds a s) := by
  unfold chainEnds
  repeat' first
    | with_reducible assumption
    | exact sub_mono hp (by decide)
    | (extract_lets +onlyGivenNames x; have hx : Keeps K x; (on_goal 2 => clear_value x); (on_goal 1 => unfold x; clear x))
    | (extract_lets +onlyGivenNames x; have hx : Keeps K x; (on_goal 1 => unfold x; clear x))
    | (extract_lets +onlyGivenNames x; clear_value x)
    | extract_lets +onlyGivenNames x
    | with_reducible apply keeps_updDma
    | with_reducible apply keeps_chSet
    | with_reducible apply keeps_pushItem
    | with_reducible refine keeps_of_fst (by with_reducible assumption) ?_
    | dsimp -zeta -zetaHave only
    | split


theorem keeps_dmaError (a b s) (h2 : Keeps K s) (hp : Sub 0x262062 K.may) : Keeps K (dmaError a b s) := by
  unfold dmaError
  repeat' first
    | with_reducible assumption
    | exact sub_mono hp (by decide)
    | intro _
    | (extract_lets +onlyGivenNames x; have hx : Keeps K x; (on_goal 2 => clear_value x); (on_goal 1 => unfold x; clear x))
    | (extract_lets +onlyGivenNames x; have hx : Keeps K x; (on_goal 1 => unfold x; clear x))
    | (extract_lets +onlyGivenNames x; clear_value x)
    | extract_lets +onlyGivenNames x
    | with_reducible apply keeps_chSetAddr
    | with_reducible apply keeps_chSet
    | with_reducible apply keeps_bump
    | with_reducible apply keeps_updDma
    | with_reducible apply keeps_pushItem
    | with_reducible apply keeps_arrive
    | with_reducible apply keeps_evt
    | with_reducible apply keeps_set
    | with_reducible apply keeps_foldl
    | with_reducible apply keeps_foldl_fst
    | with_reducible refine keeps_of_fst (by with_reducible assumption) ?_
    | dsimp -zeta -zetaHave only
    | split


theorem keeps_chRefuse (a b s) (h2 : Keeps K s) : Keeps K (chRefuse a b s) := by
  unfold chRefuse
  repeat' first
    | with_reducible assumption
    | with_reducible apply keeps_fault
    | dsimp -zeta -zetaHave only


theorem keeps_dmaGo (a b s) (h2 : Keeps K s) (hp : Sub 0x20000 K.may) : Keeps K (dmaGo a b s) := by
  unfold dmaGo
  repeat' first
    | with_reducible assumption
    | exact sub_mono hp (by decide)
    | (extract_lets +onlyGivenNames x; have hx : Keeps K x; (on_goal 2 => clear_value x); (on_goal 1 => unfold x; clear x))
    | (extract_lets +onlyGivenNames x; have hx : Keeps K x; (on_goal 1 => unfold x; clear x))
    | (extract_lets +onlyGivenNames x; clear_value x)
    | extract_lets +onlyGivenNames x
    | with_reducible apply keeps_chRefuse
    | with_reducible apply keeps_setResume
    | with_reducible apply keeps_setCur
    | with_reducible apply keeps_chSet
    | with_reducible apply keeps_updDma
    | with_reducible refine keeps_of_fst (by with_reducible assumption) ?_
    | dsimp -zeta -zetaHave only
    | split


theorem keeps_dmaStop (a s) (h1 : Keeps K s) : Keeps K (dmaStop a s) := by
  unfold dmaStop
  repeat' first
    | with_reducible assumption
    | with_reducible apply keeps_chSet
    | dsimp -zeta -zetaHave only


theorem keeps_rereadEnd (a b) (h1 : Keeps K b.1) : Keeps K (rereadEnd a b).1 := by
  obtain ⟨s, c, e⟩ := b
  cases e <;> exact h1


theorem keeps_rereadNext (a b c) (h2 : Keeps K c.1) (hp : Sub 0x242067 K.may) : Keeps K (rereadNext a b c).1 := by
  obtain ⟨s, c, e⟩ := c
  cases e with
  | some x => exact h2
  | none => exact keeps_rereadEnd _ _ (keeps_dmaReadN _ _ _ _ h2 (sub_mono hp (by decide)))


theorem keeps_reread (a s) (h1 : Keeps K s) (hp : Sub 0x242067 K.may) : Keeps K (reread a s).1 := by
  suffices h : KeepsP K (reread a s) from h.fst
  unfold reread
  extract_lets +onlyGivenNames s1
  have k1 : Keeps K s1 := keeps_bump _ _ _ _ _ h1
  clear_value s1
  exact ⟨keeps_rereadNext _ _ _ (keeps_dmaReadN _ _ _ _ k1 (sub_mono hp (by decide))) (sub_mono hp (by decide))⟩


theorem keeps_dmaKnock (a s) (h1 : Keeps K s) (hp : Sub 0x262067 K.may) : Keeps K (dmaKnock a s) := by
  unfold dmaKnock
  repeat' first
    | with_reducible assumption
    | exact sub_mono hp (by decide)
    | with_reducible apply keeps_reread
    | with_reducible apply keeps_dmaError
    | with_reducible apply keeps_bump
    | with_reducible apply keeps_updDma
    | with_reducible apply keeps_setResume
    | with_reducible apply keeps_setCur
    | with_reducible apply keeps_chSet
    | with_reducible refine keeps_of_fst (by with_reducible assumption) ?_
    | dsimp -zeta -zetaHave only
    | split


theorem keeps_dmaResume (a b s) (h2 : Keeps K s) (hp : Sub 0x20000 K.may) : Keeps K (dmaResume a b s) := by
  unfold dmaResume
  repeat' first
    | with_reducible assumption
    | exact sub_mono hp (by decide)
    | (extract_lets +onlyGivenNames x; have hx : Keeps K x; (on_goal 2 => clear_value x); (on_goal 1 => unfold x; clear x))
    | (extract_lets +onlyGivenNames x; have hx : Keeps K x; (on_goal 1 => unfold x; clear x))
    | (extract_lets +onlyGivenNames x; clear_value x)
    | extract_lets +onlyGivenNames x
    | with_reducible apply keeps_chRefuse
    | with_reducible apply keeps_setCur
    | with_reducible apply keeps_chSet
    | with_reducible apply keeps_updDma
    | with_reducible refine keeps_of_fst (by with_reducible assumption) ?_
    | dsimp -zeta -zetaHave only
    | split


theorem keeps_dmaClear (a s) (h1 : Keeps K s) (hp : Sub 0x20000 K.may) : Keeps K (dmaClear a s) := by
  unfold dmaClear
  repeat' first
    | with_reducible assumption
    | exact sub_mono hp (by decide)
    | (extract_lets +onlyGivenNames x; clear_value x)
    | extract_lets +onlyGivenNames x
    | with_reducible apply keeps_updDma
    | with_reducible apply keeps_chSet
    | with_reducible refine keeps_of_fst (by with_reducible assumption) ?_
    | dsimp -zeta -zetaHave only
    | split


theorem keeps_dmaCtl (a b c s) (h3 : Keeps K s) (hp : Sub 0x262067 K.may) : Keeps K (dmaCtl a b c s) := by
  unfold dmaCtl
  repeat' first
    | with_reducible assumption
    | exact sub_mono hp (by decide)
    | (extract_lets +onlyGivenNames x; have hx : Keeps K x; (on_goal 2 => clear_value x); (on_goal 1 => unfold x; clear x))
    | (extract_lets +onlyGivenNames x; have hx : Keeps K x; (on_goal 1 => unfold x; clear x))
    | (extract_lets +onlyGivenNames x; clear_value x)
    | extract_lets +onlyGivenNames x
    | with_reducible apply keeps_dmaGo
    | with_reducible apply keeps_dmaStop
    | with_reducible apply keeps_dmaKnock
    | with_reducible apply keeps_dmaResume
    | with_reducible apply keeps_dmaClear
    | with_reducible refine keeps_of_fst (by with_reducible assumption) ?_
    | dsimp -zeta -zetaHave only
    | split


theorem keeps_engineWrite (a s) (h1 : Keeps K s) : Keeps K (engineWrite a s) := by
  unfold engineWrite
  repeat' first
    | with_reducible assumption
    | intro _
    | with_reducible apply keeps_set
    | with_reducible apply keeps_foldl
    | with_reducible apply keeps_foldl_fst
    | with_reducible refine keeps_of_fst (by with_reducible assumption) ?_
    | dsimp -zeta -zetaHave only
    | split


theorem keeps_dmaPageMode (a s) (h1 : Keeps K s) : Keeps K (dmaPageMode a s) := by
  unfold dmaPageMode
  repeat' first
    | with_reducible assumption
    | intro _
    | with_reducible apply keeps_dmaStop
    | with_reducible apply keeps_foldl
    | with_reducible apply keeps_foldl_fst
    | with_reducible refine keeps_of_fst (by with_reducible assumption) ?_
    | dsimp -zeta -zetaHave only
    | split


end Sys2Proof.Machine
end

