-- ==== Sys2Proof/Laws/KeepsBootCtl.lean ====
section
/-!
SUPPORT. What the operations of Machine/BootCtl.lean keep.
-/
namespace Sys2Proof.Machine
open Sys2Proof

variable {K : Keeping}

theorem keeps_bootStatus (a b c s) (h3 : Keeps K s) : Keeps K (bootStatus a b c s) := by
  unfold bootStatus
  repeat' first
    | with_reducible assumption
    | with_reducible apply keeps_setReg
    | dsimp -zeta -zetaHave only


theorem keeps_confirm (a s) (h1 : Keeps K s) (hp : Sub 0x80060 K.may) : Keeps K (confirm a s) := by
  unfold confirm
  repeat' first
    | with_reducible assumption
    | exact sub_mono hp (by decide)
    | (extract_lets +onlyGivenNames x; have hx : Keeps K x; (on_goal 2 => clear_value x); (on_goal 1 => unfold x; clear x))
    | (extract_lets +onlyGivenNames x; have hx : Keeps K x; (on_goal 1 => unfold x; clear x))
    | with_reducible apply keeps_fault
    | with_reducible apply keeps_set
    | with_reducible apply keeps_updBoot
    | with_reducible apply keeps_evt
    | with_reducible apply keeps_bootStatus
    | with_reducible refine keeps_of_fst (by with_reducible assumption) ?_
    | dsimp -zeta -zetaHave only
    | split


theorem keeps_restart (a b s) (h2 : Keeps K s) (hp : Sub 0x7FFFFF K.may) : Keeps K (restart a b s) := by
  unfold restart
  repeat' first
    | with_reducible assumption
    | exact sub_mono hp (by decide)
    | with_reducible apply keeps_requestStart
    | with_reducible apply keeps_progsEnd
    | dsimp -zeta -zetaHave only


theorem keeps_bootCtl (a b s) (h2 : Keeps K s) (hp : Sub 0x7FFFFF K.may) : Keeps K (bootCtl a b s) := by
  unfold bootCtl
  repeat' first
    | with_reducible assumption
    | exact sub_mono hp (by decide)
    | (extract_lets +onlyGivenNames x; have hx : Keeps K x; (on_goal 2 => clear_value x); (on_goal 1 => unfold x; clear x))
    | (extract_lets +onlyGivenNames x; have hx : Keeps K x; (on_goal 1 => unfold x; clear x))
    | with_reducible apply keeps_confirm
    | with_reducible apply keeps_restart
    | with_reducible refine keeps_of_fst (by with_reducible assumption) ?_
    | dsimp -zeta -zetaHave only
    | split


theorem keeps_bootReady (a s) (h1 : Keeps K s) (hp : Sub 0x80010 K.may) : Keeps K (bootReady a s) := by
  unfold bootReady
  repeat' first
    | with_reducible assumption
    | exact sub_mono hp (by decide)
    | with_reducible apply keeps_enableEval
    | with_reducible apply keeps_updBoot
    | with_reducible refine keeps_of_fst (by with_reducible assumption) ?_
    | dsimp -zeta -zetaHave only
    | split


theorem keeps_failClear (a b s) (h2 : Keeps K s) : Keeps K (failClear a b s) := by
  unfold failClear
  repeat' first
    | with_reducible assumption
    | with_reducible apply keeps_fault
    | with_reducible apply keeps_set
    | with_reducible refine keeps_of_fst (by with_reducible assumption) ?_
    | dsimp -zeta -zetaHave only
    | split


theorem keeps_wdKick (a b s) (h2 : Keeps K s) (hp : Sub 0x80000 K.may) : Keeps K (wdKick a b s) := by
  unfold wdKick
  repeat' first
    | with_reducible assumption
    | exact sub_mono hp (by decide)
    | with_reducible apply keeps_bump
    | with_reducible apply keeps_updBoot
    | with_reducible apply keeps_fault
    | with_reducible refine keeps_of_fst (by with_reducible assumption) ?_
    | dsimp -zeta -zetaHave only
    | split


theorem keeps_wdTimeout (a s) (h1 : Keeps K s) (hp : Sub 0x80000 K.may) : Keeps K (wdTimeout a s) := by
  unfold wdTimeout
  repeat' first
    | with_reducible assumption
    | exact sub_mono hp (by decide)
    | with_reducible apply keeps_set
    | with_reducible apply keeps_updBoot
    | dsimp -zeta -zetaHave only


theorem keeps_wdWarn (s) (h0 : Keeps K s) (hp : Sub 0x80060 K.may) : Keeps K (wdWarn s) := by
  unfold wdWarn
  repeat' first
    | with_reducible assumption
    | exact sub_mono hp (by decide)
    | with_reducible apply keeps_evt
    | with_reducible apply keeps_updBoot
    | with_reducible refine keeps_of_fst (by with_reducible assumption) ?_
    | dsimp -zeta -zetaHave only
    | split


theorem keeps_wdExpire (s) (h0 : Keeps K s) (hp : Sub 0x7FFFFF K.may) : Keeps K (wdExpire s) := by
  unfold wdExpire
  repeat' first
    | with_reducible assumption
    | exact sub_mono hp (by decide)
    | with_reducible apply keeps_requestStart
    | with_reducible refine keeps_of_fst (by with_reducible assumption) ?_
    | dsimp -zeta -zetaHave only
    | split


theorem keeps_confirmExpire (s) (h0 : Keeps K s) (hp : Sub 0x7FFFFF K.may) : Keeps K (confirmExpire s) := by
  unfold confirmExpire
  repeat' first
    | with_reducible assumption
    | exact sub_mono hp (by decide)
    | with_reducible apply keeps_requestStart
    | with_reducible refine keeps_of_fst (by with_reducible assumption) ?_
    | dsimp -zeta -zetaHave only
    | split


theorem keeps_keyRevoke (a b s) (h2 : Keeps K s) (hp : Sub 0x80000 K.may) : Keeps K (keyRevoke a b s) := by
  unfold keyRevoke
  repeat' first
    | with_reducible assumption
    | exact sub_mono hp (by decide)
    | (extract_lets +onlyGivenNames x; clear_value x)
    | extract_lets +onlyGivenNames x
    | with_reducible apply keeps_fault
    | with_reducible apply keeps_updBoot
    | with_reducible refine keeps_of_fst (by with_reducible assumption) ?_
    | dsimp -zeta -zetaHave only
    | split


theorem keeps_withAttn (a s) (h0 : ∀ x0, Keeps K x0 → Keeps K (a x0)) (h1 : Keeps K s) : Keeps K (withAttn a s) := by
  unfold withAttn
  repeat' first
    | with_reducible assumption
    | intro _
    | (extract_lets +onlyGivenNames x; have hx : Keeps K x; (on_goal 2 => clear_value x); (on_goal 1 => unfold x; clear x))
    | (extract_lets +onlyGivenNames x; have hx : Keeps K x; (on_goal 1 => unfold x; clear x))
    | with_reducible apply keeps_emit
    | with_reducible apply h0
    | with_reducible refine keeps_of_fst (by with_reducible assumption) ?_
    | dsimp -zeta -zetaHave only
    | split


theorem keeps_attnWrite (a s) (h1 : Keeps K s) (hp : Sub 0x200000 K.may) : Keeps K (attnWrite a s) := by
  unfold attnWrite
  repeat' first
    | with_reducible assumption
    | exact sub_mono hp (by decide)
    | intro _
    | (extract_lets +onlyGivenNames x; have hx : Keeps K x; (on_goal 2 => clear_value x); (on_goal 1 => unfold x; clear x))
    | (extract_lets +onlyGivenNames x; have hx : Keeps K x; (on_goal 1 => unfold x; clear x))
    | (extract_lets +onlyGivenNames x; clear_value x)
    | extract_lets +onlyGivenNames x
    | exact Or.inr rfl
    | exact Or.inl (may_of hp (by decide))
    | simp only [↓keeps_mk]
    | refine keepsOf_upd ?_ rfl rfl rfl rfl rfl rfl ?_ ?_ ?_ ?_ ?_ ?_ ?_ ?_ ?_ ?_ ?_ ?_ ?_ ?_ ?_ ?_ ?_ ?_ ?_ ?_ ?_ ?_
    | with_reducible apply keeps_withAttn
    | with_reducible apply keeps_set
    | with_reducible refine keeps_of_fst (by with_reducible assumption) ?_
    | dsimp -zeta -zetaHave only
    | split


theorem keeps_attnIn (a s) (h1 : Keeps K s) (hp : Sub 0x7FFFFF K.may) : Keeps K (attnIn a s) := by
  unfold attnIn
  repeat' first
    | with_reducible assumption
    | exact sub_mono hp (by decide)
    | (extract_lets +onlyGivenNames x; have hx : Keeps K x; (on_goal 2 => clear_value x); (on_goal 1 => unfold x; clear x))
    | (extract_lets +onlyGivenNames x; have hx : Keeps K x; (on_goal 1 => unfold x; clear x))
    | (extract_lets +onlyGivenNames x; clear_value x)
    | extract_lets +onlyGivenNames x
    | exact Or.inr rfl
    | exact Or.inl (may_of hp (by decide))
    | simp only [↓keeps_mk]
    | refine keepsOf_upd ?_ rfl rfl rfl rfl rfl rfl ?_ ?_ ?_ ?_ ?_ ?_ ?_ ?_ ?_ ?_ ?_ ?_ ?_ ?_ ?_ ?_ ?_ ?_ ?_ ?_ ?_ ?_
    | with_reducible apply keeps_wake
    | with_reducible apply keeps_evt
    | with_reducible refine keeps_of_fst (by with_reducible assumption) ?_
    | dsimp -zeta -zetaHave only
    | split


theorem keeps_execWatchdogWarn (s) (h0 : Keeps K s) (hp : Sub 0x80060 K.may) : ∃ t, execWatchdogWarn s = .next t ∧ Keeps K t := by
  refine ⟨_, rfl, ?_⟩
  repeat' first
    | with_reducible assumption
    | exact sub_mono hp (by decide)
    | exact Or.inr rfl
    | exact Or.inl (may_of hp (by decide))
    | simp only [↓keeps_mk]
    | refine keepsOf_upd ?_ rfl rfl rfl rfl rfl rfl ?_ ?_ ?_ ?_ ?_ ?_ ?_ ?_ ?_ ?_ ?_ ?_ ?_ ?_ ?_ ?_ ?_ ?_ ?_ ?_ ?_ ?_
    | with_reducible apply keeps_wdWarn
    | dsimp -zeta -zetaHave only


theorem keeps_execWatchdogExpiry (s) (h0 : Keeps K s) (hp : Sub 0x7FFFFF K.may) : ∃ t, execWatchdogExpiry s = .next t ∧ Keeps K t := by
  refine ⟨_, rfl, ?_⟩
  repeat' first
    | with_reducible assumption
    | exact sub_mono hp (by decide)
    | exact Or.inr rfl
    | exact Or.inl (may_of hp (by decide))
    | simp only [↓keeps_mk]
    | refine keepsOf_upd ?_ rfl rfl rfl rfl rfl rfl ?_ ?_ ?_ ?_ ?_ ?_ ?_ ?_ ?_ ?_ ?_ ?_ ?_ ?_ ?_ ?_ ?_ ?_ ?_ ?_ ?_ ?_
    | with_reducible apply keeps_wdExpire
    | dsimp -zeta -zetaHave only


theorem keeps_execConfirmWindowExpiry (s) (h0 : Keeps K s) (hp : Sub 0x7FFFFF K.may) : ∃ t, execConfirmWindowExpiry s = .next t ∧ Keeps K t := by
  refine ⟨_, rfl, ?_⟩
  repeat' first
    | with_reducible assumption
    | exact sub_mono hp (by decide)
    | exact Or.inr rfl
    | exact Or.inl (may_of hp (by decide))
    | simp only [↓keeps_mk]
    | refine keepsOf_upd ?_ rfl rfl rfl rfl rfl rfl ?_ ?_ ?_ ?_ ?_ ?_ ?_ ?_ ?_ ?_ ?_ ?_ ?_ ?_ ?_ ?_ ?_ ?_ ?_ ?_ ?_ ?_
    | with_reducible apply keeps_confirmExpire
    | dsimp -zeta -zetaHave only


theorem keeps_execAttnIn (a s) (h1 : Keeps K s) (hp : Sub 0x7FFFFF K.may) : ∃ t, execAttnIn a s = .next t ∧ Keeps K t := by
  refine ⟨_, rfl, ?_⟩
  repeat' first
    | with_reducible assumption
    | exact sub_mono hp (by decide)
    | exact Or.inr rfl
    | exact Or.inl (may_of hp (by decide))
    | simp only [↓keeps_mk]
    | refine keepsOf_upd ?_ rfl rfl rfl rfl rfl rfl ?_ ?_ ?_ ?_ ?_ ?_ ?_ ?_ ?_ ?_ ?_ ?_ ?_ ?_ ?_ ?_ ?_ ?_ ?_ ?_ ?_ ?_
    | with_reducible apply keeps_attnIn
    | with_reducible refine keeps_of_fst (by with_reducible assumption) ?_
    | dsimp -zeta -zetaHave only
    | split


theorem keeps_execFabwaitExpiry (s) (h0 : Keeps K s) (hp : Sub 0x80010 K.may) : ∃ t, execFabwaitExpiry s = .next t ∧ Keeps K t := by
  refine ⟨_, rfl, ?_⟩
  repeat' first
    | with_reducible assumption
    | exact sub_mono hp (by decide)
    | exact Or.inr rfl
    | exact Or.inl (may_of hp (by decide))
    | simp only [↓keeps_mk]
    | refine keepsOf_upd ?_ rfl rfl rfl rfl rfl rfl ?_ ?_ ?_ ?_ ?_ ?_ ?_ ?_ ?_ ?_ ?_ ?_ ?_ ?_ ?_ ?_ ?_ ?_ ?_ ?_ ?_ ?_
    | with_reducible apply keeps_enableEval
    | with_reducible apply keeps_updBoot
    | with_reducible refine keeps_of_fst (by with_reducible assumption) ?_
    | dsimp -zeta -zetaHave only
    | split


end Sys2Proof.Machine
end

