-- ==== Sys2Proof/Laws/KeepsChecks.lean ====
section
/-!
SUPPORT. What the operations of Machine/Checks.lean keep.
-/
namespace Sys2Proof.Machine
open Sys2Proof

variable {K : Keeping}

theorem keeps_asAsked (s) (h0 : Keeps K s) : Keeps K (asAsked s) := by
  unfold asAsked
  repeat' first
    | with_reducible assumption
    | intro _
    | with_reducible apply keeps_set
    | with_reducible apply keeps_foldl
    | with_reducible apply keeps_foldl_fst
    | dsimp -zeta -zetaHave only


theorem keeps_execCommitCheckEnd (s) (h0 : Keeps K s) (hp : Sub 0x8078 K.may) : ∃ t, execCommitCheckEnd s = .next t ∧ Keeps K t := by
  refine ⟨_, rfl, ?_⟩
  repeat' first
    | with_reducible assumption
    | exact sub_mono hp (by decide)
    | exact Or.inr rfl
    | exact Or.inl (may_of hp (by decide))
    | simp only [↓keeps_mk]
    | refine keepsOf_upd ?_ rfl rfl rfl rfl rfl rfl ?_ ?_ ?_ ?_ ?_ ?_ ?_ ?_ ?_ ?_ ?_ ?_ ?_ ?_ ?_ ?_ ?_ ?_ ?_ ?_ ?_ ?_
    | with_reducible apply keeps_fcFollow
    | with_reducible apply keeps_checkEnd
    | dsimp -zeta -zetaHave only


end Sys2Proof.Machine
end

