-- ==== Sys2Proof/Laws/KeepsRegWrite.lean ====
section
/-!
SUPPORT. What the operations of Machine/RegWrite.lean keep.
-/
namespace Sys2Proof.Machine
open Sys2Proof

variable {K : Keeping}

theorem keeps_putFields (a b c d s) (h4 : Keeps K s) : Keeps K (putFields a b c d s).1 := by
  unfold putFields
  repeat' first
    | with_reducible assumption
    | intro _
    | with_reducible apply keeps_setReg
    | with_reducible apply keeps_foldl
    | with_reducible apply keeps_foldl_fst
    | with_reducible refine keeps_of_fst (by with_reducible assumption) ?_
    | dsimp -zeta -zetaHave only
    | split


theorem keeps_stageFields (a b c d e s) (h5 : Keeps K s) (hp : Sub 0x400000 K.may) : Keeps K (stageFields a b c d e s).1 := by
  unfold stageFields
  repeat' first
    | with_reducible assumption
    | exact sub_mono hp (by decide)
    | intro _
    | with_reducible apply keeps_bump
    | with_reducible apply keeps_stage
    | with_reducible apply keeps_foldl
    | with_reducible apply keeps_foldl_fst
    | with_reducible refine keeps_of_fst (by with_reducible assumption) ?_
    | dsimp -zeta -zetaHave only
    | split


theorem keeps_faultOver (s b c d e f) (h0 : Keeps K s) (h5 : Keeps K f) : Keeps K (faultOver s b c d e f) := by
  unfold faultOver
  repeat' first
    | with_reducible assumption
    | with_reducible apply keeps_fault
    | with_reducible apply keeps_setReg
    | dsimp -zeta -zetaHave only


theorem keeps_hdrWrite (a b c d s) (h4 : Keeps K s) (hp : Sub 0x400074 K.may) : Keeps K (hdrWrite a b c d s) := by
  unfold hdrWrite
  repeat' first
    | with_reducible assumption
    | exact sub_mono hp (by decide)
    | intro _
    | with_reducible apply keeps_fault
    | with_reducible apply keeps_refresh
    | with_reducible apply keeps_coreMask
    | with_reducible apply keeps_coreMode
    | with_reducible apply keeps_set
    | with_reducible apply keeps_stageFields
    | with_reducible apply keeps_setReg
    | with_reducible apply keeps_withEvents
    | with_reducible refine keeps_of_fst (by with_reducible assumption) ?_
    | dsimp -zeta -zetaHave only
    | split


theorem keeps_tdmWrite (a b c s) (h3 : Keeps K s) : Keeps K (tdmWrite a b c s) := by
  unfold tdmWrite
  repeat' first
    | with_reducible assumption
    | with_reducible apply keeps_fault
    | with_reducible apply keeps_setReg
    | with_reducible refine keeps_of_fst (by with_reducible assumption) ?_
    | dsimp -zeta -zetaHave only
    | split


theorem keeps_rdmWindow (a b c s) (h3 : Keeps K s) (hp : Sub 0x200 K.may) : Keeps K (rdmWindow a b c s) := by
  unfold rdmWindow
  repeat' first
    | with_reducible assumption
    | exact sub_mono hp (by decide)
    | intro _
    | with_reducible apply keeps_updStrand
    | with_reducible apply keeps_foldl
    | with_reducible apply keeps_foldl_fst
    | dsimp -zeta -zetaHave only


theorem keeps_keyClear (a s) (h1 : Keeps K s) (hp : Sub 0x2000 K.may) : Keeps K (keyClear a s) := by
  unfold keyClear
  repeat' first
    | with_reducible assumption
    | exact sub_mono hp (by decide)
    | (extract_lets +onlyGivenNames x; clear_value x)
    | extract_lets +onlyGivenNames x
    | exact Or.inr rfl
    | exact Or.inl (may_of hp (by decide))
    | simp only [↓keeps_mk]
    | refine keepsOf_upd ?_ rfl rfl rfl rfl rfl rfl ?_ ?_ ?_ ?_ ?_ ?_ ?_ ?_ ?_ ?_ ?_ ?_ ?_ ?_ ?_ ?_ ?_ ?_ ?_ ?_ ?_ ?_
    | with_reducible refine keeps_of_fst (by with_reducible assumption) ?_
    | dsimp -zeta -zetaHave only
    | split


theorem keeps_keyWord (a b s) (h2 : Keeps K s) (hp : Sub 0x2000 K.may) : Keeps K (keyWord a b s) := by
  unfold keyWord
  repeat' first
    | with_reducible assumption
    | exact sub_mono hp (by decide)
    | (extract_lets +onlyGivenNames x; clear_value x)
    | extract_lets +onlyGivenNames x
    | exact Or.inr rfl
    | exact Or.inl (may_of hp (by decide))
    | simp only [↓keeps_mk]
    | refine keepsOf_upd ?_ rfl rfl rfl rfl rfl rfl ?_ ?_ ?_ ?_ ?_ ?_ ?_ ?_ ?_ ?_ ?_ ?_ ?_ ?_ ?_ ?_ ?_ ?_ ?_ ?_ ?_ ?_
    | dsimp -zeta -zetaHave only


theorem keeps_srcClear (a s) (h1 : Keeps K s) (hp : Sub 0x20 K.may) : Keeps K (srcClear a s) := by
  unfold srcClear
  repeat' first
    | with_reducible assumption
    | exact sub_mono hp (by decide)
    | with_reducible apply keeps_presentAll
    | with_reducible apply keeps_setSrc
    | dsimp -zeta -zetaHave only


theorem keeps_doorbell (a b s) (h2 : Keeps K s) (hp : Sub 0x60 K.may) : Keeps K (doorbell a b s) := by
  unfold doorbell
  repeat' first
    | with_reducible assumption
    | exact sub_mono hp (by decide)
    | intro _
    | with_reducible apply keeps_arrivePriv
    | with_reducible apply keeps_foldl
    | with_reducible apply keeps_foldl_fst
    | dsimp -zeta -zetaHave only


theorem keeps_askWake (a b s) (h2 : Keeps K s) (hp : Sub 0x20 K.may) : Keeps K (askWake a b s) := by
  unfold askWake
  repeat' first
    | with_reducible assumption
    | exact sub_mono hp (by decide)
    | with_reducible apply keeps_updCore
    | with_reducible refine keeps_of_fst (by with_reducible assumption) ?_
    | dsimp -zeta -zetaHave only
    | split


theorem keeps_taskField (a b c s) (h3 : Keeps K s) (hp : Sub 0x40 K.may) : Keeps K (taskField a b c s) := by
  unfold taskField
  repeat' first
    | with_reducible assumption
    | exact sub_mono hp (by decide)
    | (extract_lets +onlyGivenNames x; clear_value x)
    | extract_lets +onlyGivenNames x
    | with_reducible apply keeps_fault
    | with_reducible apply keeps_setTask
    | with_reducible refine keeps_of_fst (by with_reducible assumption) ?_
    | dsimp -zeta -zetaHave only
    | split


theorem keeps_trgWrite (a b c d s) (h4 : Keeps K s) (hp : Sub 0x868 K.may) : Keeps K (trgWrite a b c d s) := by
  unfold trgWrite
  repeat' first
    | with_reducible assumption
    | exact sub_mono hp (by decide)
    | with_reducible apply keeps_trgCfg
    | with_reducible apply keeps_trgTime
    | with_reducible apply keeps_trgPeriod
    | with_reducible refine keeps_of_fst (by with_reducible assumption) ?_
    | dsimp -zeta -zetaHave only
    | split


theorem keeps_command (a b c d) (hp : Sub 0x7FFFFF K.may) : KeepsF K (command a b c d) := by
  unfold command
  dsimp only
  repeat' first
    | with_reducible exact keepsF_none
    | with_reducible refine keepsF_some ?_
    | with_reducible assumption
    | exact (sub_mono hp (by decide))
    | intro _
    | with_reducible apply keeps_statHold
    | with_reducible apply keeps_stateCtl
    | with_reducible apply keeps_domReq
    | with_reducible apply keeps_modeRequest
    | with_reducible apply keeps_servoSrcWrite
    | with_reducible apply keeps_snapCapture
    | with_reducible apply keeps_withStep
    | with_reducible apply keeps_setGo
    | with_reducible apply keeps_trgWrite
    | with_reducible apply keeps_fcFollow
    | with_reducible apply keeps_ownWrite
    | with_reducible apply keeps_ctlWrite
    | with_reducible apply keeps_arm
    | with_reducible apply keeps_grpStart
    | with_reducible apply keeps_attnWrite
    | with_reducible apply keeps_nvmCmd
    | with_reducible apply keeps_nvmBufWrite
    | with_reducible apply keeps_bootCtl
    | with_reducible apply keeps_wdKick
    | with_reducible apply keeps_bootReady
    | with_reducible apply keeps_failClear
    | with_reducible apply keeps_keyRevoke
    | with_reducible apply keeps_ovrFire
    | with_reducible apply keeps_ovrRelease
    | with_reducible apply keeps_tdmWrite
    | with_reducible apply keeps_barSync
    | with_reducible apply keeps_gpioPush
    | with_reducible apply keeps_rdmWindow
    | with_reducible apply keeps_rxTail
    | with_reducible apply keeps_txTail
    | with_reducible apply keeps_pairCfg
    | with_reducible apply keeps_pairSwap
    | with_reducible apply keeps_keyClear
    | with_reducible apply keeps_keyWord
    | with_reducible apply keeps_idcfgWrite
    | with_reducible apply keeps_fcmtGo
    | with_reducible apply keeps_fcctl
    | with_reducible apply keeps_fabTxTail
    | with_reducible apply keeps_fsInject
    | with_reducible apply keeps_errClr
    | with_reducible apply keeps_engineWrite
    | with_reducible apply keeps_dmaCtl
    | with_reducible apply keeps_pushBufWrite
    | with_reducible apply keeps_queueDrop
    | with_reducible apply keeps_queueCfg
    | with_reducible apply keeps_pushWrite
    | with_reducible apply keeps_arrive
    | with_reducible apply keeps_srcClear
    | with_reducible apply keeps_taskField
    | with_reducible apply keeps_postTask
    | with_reducible apply keeps_delayGo
    | with_reducible apply keeps_cancelTask
    | with_reducible apply keeps_doorbell
    | with_reducible apply keeps_askWake
    | with_reducible apply keeps_arrivePriv
    | with_reducible apply keeps_presentAll
    | with_reducible apply keeps_setSrc
    | dsimp only
    | split


theorem keeps_ringMoved (s b c) (h0 : Keeps K s) (h2 : Keeps K c) : Keeps K (ringMoved s b c) := by
  unfold ringMoved
  repeat' first
    | with_reducible assumption
    | with_reducible apply keeps_ringReset
    | with_reducible refine keeps_of_fst (by with_reducible assumption) ?_
    | dsimp -zeta -zetaHave only
    | split


theorem keeps_ethAfter (a b s d) (h2 : Keeps K s) (h3 : Keeps K d) (hp : Sub 0x2000 K.may) : Keeps K (ethAfter a b s d) := by
  unfold ethAfter
  repeat' first
    | with_reducible assumption
    | exact sub_mono hp (by decide)
    | (extract_lets +onlyGivenNames x; have hx : Keeps K x; (on_goal 2 => clear_value x); (on_goal 1 => unfold x; clear x))
    | (extract_lets +onlyGivenNames x; have hx : Keeps K x; (on_goal 1 => unfold x; clear x))
    | with_reducible apply keeps_ringMoved
    | with_reducible apply keeps_pauseCheck
    | with_reducible refine keeps_of_fst (by with_reducible assumption) ?_
    | dsimp -zeta -zetaHave only
    | split


theorem keeps_srcEnabled (a b s d) (h2 : Keeps K s) (h3 : Keeps K d) : Keeps K (srcEnabled a b s d) := by
  unfold srcEnabled
  repeat' first
    | with_reducible assumption
    | with_reducible apply keeps_setSrc
    | with_reducible refine keeps_of_fst (by with_reducible assumption) ?_
    | dsimp -zeta -zetaHave only
    | split


theorem keeps_after (a b c d s f) (h4 : Keeps K s) (h5 : Keeps K f) (hp : Sub 0x19FA7D K.may) : Keeps K (after a b c d s f) := by
  unfold after
  repeat' first
    | with_reducible assumption
    | exact sub_mono hp (by decide)
    | (extract_lets +onlyGivenNames x; clear_value x)
    | extract_lets +onlyGivenNames x
    | with_reducible apply keeps_govOff
    | with_reducible apply keeps_phaseSrc
    | with_reducible apply keeps_freezeSet
    | with_reducible apply keeps_timeChanged
    | with_reducible apply keeps_ppsIdle
    | with_reducible apply keeps_calRequest
    | with_reducible apply keeps_calNow
    | with_reducible apply keeps_emit
    | with_reducible apply keeps_enableEval
    | with_reducible apply keeps_updBoot
    | with_reducible apply keeps_busSwitched
    | with_reducible apply keeps_firstUse
    | with_reducible apply keeps_ltcWritten
    | with_reducible apply keeps_aesSwitched
    | with_reducible apply keeps_trigWritten
    | with_reducible apply keeps_rdmGo
    | with_reducible apply keeps_ethAfter
    | with_reducible apply keeps_flbEnd
    | with_reducible apply keeps_ringMoved
    | with_reducible apply keeps_arrive
    | with_reducible apply keeps_presentAll
    | with_reducible apply keeps_srcEnabled
    | with_reducible refine keeps_of_fst (by with_reducible assumption) ?_
    | dsimp -zeta -zetaHave only
    | split


theorem keeps_regWrite (a b c d s) (h4 : Keeps K s) (hp : Sub 0x7FFFFF K.may) : Keeps K (regWrite a b c d s) := by
  unfold regWrite
  repeat' first
    | with_reducible assumption
    | with_reducible refine keeps_of_effect (by with_reducible assumption) ?_ ?_
    | with_reducible apply keeps_command
    | exact sub_mono hp (by decide)
    | (extract_lets +onlyGivenNames x; have hx : Keeps K x; (on_goal 2 => clear_value x); (on_goal 1 => unfold x; clear x))
    | (extract_lets +onlyGivenNames x; have hx : Keeps K x; (on_goal 1 => unfold x; clear x))
    | (extract_lets +onlyGivenNames x; clear_value x)
    | extract_lets +onlyGivenNames x
    | with_reducible apply keeps_hdrWrite
    | with_reducible apply keeps_command
    | with_reducible apply keeps_stageFields
    | with_reducible apply keeps_putFields
    | with_reducible apply keeps_after
    | with_reducible apply keeps_faultOver
    | with_reducible refine keeps_of_fst (by with_reducible assumption) ?_
    | dsimp -zeta -zetaHave only
    | split


theorem keeps_answered (s b) (h0 : Keeps K s) (h1 : Keeps K b) : Keeps K (answered s b) := by
  unfold answered
  repeat' first
    | with_reducible assumption
    | with_reducible apply keeps_emit
    | with_reducible refine keeps_of_fst (by with_reducible assumption) ?_
    | dsimp -zeta -zetaHave only
    | split


theorem keeps_busWrite (a b c s) (h3 : Keeps K s) (hp : Sub 0x7FFFFF K.may) : Keeps K (busWrite a b c s) := by
  unfold busWrite
  repeat' first
    | with_reducible assumption
    | exact sub_mono hp (by decide)
    | with_reducible apply keeps_emit
    | with_reducible apply keeps_answered
    | with_reducible apply keeps_regWrite
    | with_reducible refine keeps_of_fst (by with_reducible assumption) ?_
    | dsimp -zeta -zetaHave only
    | split


theorem keeps_busRead (a b s) (h2 : Keeps K s) (hp : Sub 0x242062 K.may) : Keeps K (busRead a b s) := by
  unfold busRead
  repeat' first
    | with_reducible assumption
    | exact sub_mono hp (by decide)
    | with_reducible apply keeps_emit
    | with_reducible apply keeps_regRead
    | with_reducible refine keeps_of_fst (by with_reducible assumption) ?_
    | dsimp -zeta -zetaHave only
    | split


end Sys2Proof.Machine
end

