-- ==== Sys2Proof/Laws/KeepsFrame.lean ====
section
/-!
SUPPORT. What the operations of Machine/Frame.lean keep.
-/
namespace Sys2Proof.Machine
open Sys2Proof

variable {K : Keeping}

theorem keeps_outEnable (a s) (h1 : Keeps K s) (hp : Sub 0x190A68 K.may) : Keeps K (outEnable a s) := by
  unfold outEnable
  repeat' first
    | with_reducible assumption
    | exact sub_mono hp (by decide)
    | intro _
    | (extract_lets +onlyGivenNames x; have hx : Keeps K x; (on_goal 2 => clear_value x); (on_goal 1 => unfold x; clear x))
    | (extract_lets +onlyGivenNames x; have hx : Keeps K x; (on_goal 1 => unfold x; clear x))
    | (extract_lets +onlyGivenNames x; clear_value x)
    | extract_lets +onlyGivenNames x
    | exact Or.inr rfl
    | exact Or.inl (may_of hp (by decide))
    | simp only [↓keeps_mk]
    | refine keepsOf_upd ?_ rfl rfl rfl rfl rfl rfl ?_ ?_ ?_ ?_ ?_ ?_ ?_ ?_ ?_ ?_ ?_ ?_ ?_ ?_ ?_ ?_ ?_ ?_ ?_ ?_ ?_ ?_
    | with_reducible apply keeps_updBoot
    | with_reducible apply keeps_evt
    | with_reducible apply keeps_stepEnded
    | with_reducible apply keeps_bootStatus
    | with_reducible apply keeps_takeUp
    | with_reducible apply keeps_ppsIdle
    | with_reducible apply keeps_govOff
    | with_reducible apply keeps_pairStart
    | with_reducible apply keeps_refreshAll
    | with_reducible apply keeps_calRunStart
    | with_reducible apply keeps_updCal
    | with_reducible apply keeps_foldl
    | with_reducible apply keeps_foldl_fst
    | with_reducible refine keeps_of_fst (by with_reducible assumption) ?_
    | dsimp -zeta -zetaHave only
    | split


theorem keeps_confCommitted (s b) (h0 : Keeps K s) (h1 : Keeps K b) (hp : Sub 0x4 K.may) : Keeps K (confCommitted s b) := by
  unfold confCommitted
  repeat' first
    | with_reducible assumption
    | exact sub_mono hp (by decide)
    | (extract_lets +onlyGivenNames x; clear_value x)
    | extract_lets +onlyGivenNames x
    | with_reducible apply keeps_confNote
    | with_reducible refine keeps_of_fst (by with_reducible assumption) ?_
    | dsimp -zeta -zetaHave only
    | split


theorem keeps_commitAtFs (a s) (h1 : Keeps K s) (hp : Sub 0x41DA7D K.may) : Keeps K (commitAtFs a s) := by
  unfold commitAtFs
  repeat' first
    | with_reducible assumption
    | exact sub_mono hp (by decide)
    | intro _
    | (extract_lets +onlyGivenNames x; have hx : Keeps K x; (on_goal 2 => clear_value x); (on_goal 1 => unfold x; clear x))
    | (extract_lets +onlyGivenNames x; have hx : Keeps K x; (on_goal 1 => unfold x; clear x))
    | with_reducible apply keeps_fcFollow
    | with_reducible apply keeps_applyCommit
    | with_reducible apply keeps_sqcAtFs
    | with_reducible apply keeps_ovrCommitted
    | with_reducible apply keeps_refreshAll
    | with_reducible apply keeps_confCommitted
    | with_reducible apply keeps_dmaPageMode
    | with_reducible apply keeps_flbEnd
    | with_reducible apply keeps_bruStop
    | with_reducible apply keeps_ovrLeft
    | with_reducible apply keeps_sndLeft
    | with_reducible apply keeps_tapsCommitted
    | with_reducible apply keeps_adcLeft
    | with_reducible apply keeps_calLeft
    | with_reducible apply keeps_discEval
    | with_reducible apply keeps_foldl
    | with_reducible apply keeps_foldl_fst
    | with_reducible refine keeps_of_fst (by with_reducible assumption) ?_
    | dsimp -zeta -zetaHave only
    | split


theorem keeps_takeFrame (a b s) (h2 : Keeps K s) (hp : Sub 0x19F77D K.may) : Keeps K (takeFrame a b s) := by
  unfold takeFrame
  repeat' first
    | with_reducible assumption
    | exact sub_mono hp (by decide)
    | intro _
    | (extract_lets +onlyGivenNames x; have hx : Keeps K x; (on_goal 2 => clear_value x); (on_goal 1 => unfold x; clear x))
    | (extract_lets +onlyGivenNames x; have hx : Keeps K x; (on_goal 1 => unfold x; clear x))
    | with_reducible apply keeps_thermalAtFs
    | with_reducible apply keeps_colourTake
    | with_reducible apply keeps_venTake
    | with_reducible apply keeps_sleepAtFs
    | with_reducible apply keeps_strandsAtFs
    | with_reducible apply keeps_dimAtFs
    | with_reducible apply keeps_pubsAtFs
    | with_reducible apply keeps_tapsAtFs
    | with_reducible apply keeps_trigAtFs
    | with_reducible apply keeps_fcAtFs
    | with_reducible apply keeps_foldl
    | with_reducible apply keeps_foldl_fst
    | dsimp -zeta -zetaHave only


theorem keeps_groupSleep (a s) (h1 : Keeps K s) (hp : Sub 0x260 K.may) : Keeps K (groupSleep a s) := by
  unfold groupSleep
  repeat' first
    | with_reducible assumption
    | exact sub_mono hp (by decide)
    | intro _
    | (extract_lets +onlyGivenNames x; clear_value x)
    | extract_lets +onlyGivenNames x
    | with_reducible apply keeps_settlePort
    | with_reducible apply keeps_refresh
    | with_reducible apply keeps_updStrand
    | with_reducible apply keeps_foldl
    | with_reducible apply keeps_foldl_fst
    | with_reducible refine keeps_of_fst (by with_reducible assumption) ?_
    | dsimp -zeta -zetaHave only
    | split


theorem keeps_gapFs (a s) (h1 : Keeps K s) (hp : Sub 0x7FFFFF K.may) : Keeps K (gapFs a s) := by
  unfold gapFs
  repeat' first
    | with_reducible assumption
    | exact sub_mono hp (by decide)
    | intro _
    | (extract_lets +onlyGivenNames x; have hx : Keeps K x; (on_goal 2 => clear_value x); (on_goal 1 => unfold x; clear x))
    | (extract_lets +onlyGivenNames x; have hx : Keeps K x; (on_goal 1 => unfold x; clear x))
    | with_reducible apply keeps_updStrand
    | with_reducible apply keeps_darkStep
    | with_reducible apply keeps_groupSleep
    | with_reducible apply keeps_dimAtLatch
    | with_reducible apply keeps_foldl
    | with_reducible apply keeps_foldl_fst
    | with_reducible refine keeps_of_fst (by with_reducible assumption) ?_
    | dsimp -zeta -zetaHave only
    | split


theorem keeps_frameStartAt (a s) (h1 : Keeps K s) (hp : Sub 0x7FFFFF K.may) : Keeps K (frameStartAt a s) := by
  unfold frameStartAt
  repeat' first
    | with_reducible assumption
    | exact sub_mono hp (by decide)
    | (extract_lets +onlyGivenNames x; have hx : Keeps K x; (on_goal 2 => clear_value x); (on_goal 1 => unfold x; clear x))
    | (extract_lets +onlyGivenNames x; have hx : Keeps K x; (on_goal 1 => unfold x; clear x))
    | (extract_lets +onlyGivenNames x; clear_value x)
    | extract_lets +onlyGivenNames x
    | with_reducible apply keeps_updTime
    | with_reducible apply keeps_updPwr
    | with_reducible apply keeps_latchStats
    | with_reducible apply keeps_lastResults
    | with_reducible apply keeps_ovrFrames
    | with_reducible apply keeps_commitAtFs
    | with_reducible apply keeps_outEnable
    | with_reducible apply keeps_takeFrame
    | with_reducible apply keeps_trigCommitted
    | with_reducible apply keeps_ovrUpdate
    | with_reducible apply keeps_settleAll
    | with_reducible apply keeps_linksOff
    | with_reducible apply keeps_pairOff
    | with_reducible apply keeps_refreshAll
    | with_reducible apply keeps_gapFs
    | with_reducible apply keeps_sleepGo
    | with_reducible apply keeps_slewPhase
    | with_reducible refine keeps_of_fst (by with_reducible assumption) ?_
    | dsimp -zeta -zetaHave only
    | split


theorem keeps_frameStart (s) (h0 : Keeps K s) (hp : Sub 0x7FFFFF K.may) : Keeps K (frameStart s) := by
  unfold frameStart
  repeat' first
    | with_reducible assumption
    | exact sub_mono hp (by decide)
    | with_reducible apply keeps_frameStartAt
    | with_reducible refine keeps_of_fst (by with_reducible assumption) ?_
    | dsimp -zeta -zetaHave only
    | split


theorem keeps_commitCutoff (s) (h0 : Keeps K s) (hp : Sub 0x108070 K.may) : Keeps K (commitCutoff s) := by
  unfold commitCutoff
  repeat' first
    | with_reducible assumption
    | exact sub_mono hp (by decide)
    | (extract_lets +onlyGivenNames x; clear_value x)
    | extract_lets +onlyGivenNames x
    | with_reducible apply keeps_governor
    | with_reducible apply keeps_fcFollow
    | with_reducible apply keeps_lockAt
    | with_reducible apply keeps_fcCutoff
    | dsimp -zeta -zetaHave only


theorem keeps_latchAt (a s) (h1 : Keeps K s) (hp : Sub 0x7FFFFF K.may) : Keeps K (latchAt a s) := by
  unfold latchAt
  repeat' first
    | with_reducible assumption
    | exact sub_mono hp (by decide)
    | (extract_lets +onlyGivenNames x; have hx : Keeps K x; (on_goal 2 => clear_value x); (on_goal 1 => unfold x; clear x))
    | (extract_lets +onlyGivenNames x; have hx : Keeps K x; (on_goal 1 => unfold x; clear x))
    | (extract_lets +onlyGivenNames x; clear_value x)
    | extract_lets +onlyGivenNames x
    | with_reducible apply keeps_latchPulse
    | with_reducible apply keeps_sleepGo
    | with_reducible apply keeps_groupSleep
    | with_reducible apply keeps_dimAtLatch
    | with_reducible refine keeps_of_fst (by with_reducible assumption) ?_
    | dsimp -zeta -zetaHave only
    | split


theorem keeps_modeChangeEnd (s) (h0 : Keeps K s) (hp : Sub 0x19FE7C K.may) : Keeps K (modeChangeEnd s) := by
  unfold modeChangeEnd
  repeat' first
    | with_reducible assumption
    | exact sub_mono hp (by decide)
    | intro _
    | with_reducible apply keeps_fcFollow
    | with_reducible apply keeps_withStep
    | with_reducible apply keeps_tEnd
    | with_reducible refine keeps_of_fst (by with_reducible assumption) ?_
    | dsimp -zeta -zetaHave only
    | split


theorem keeps_phaseStepEnd (s) (h0 : Keeps K s) (hp : Sub 0x19FE7C K.may) : Keeps K (phaseStepEnd s) := by
  unfold phaseStepEnd
  repeat' first
    | with_reducible assumption
    | exact sub_mono hp (by decide)
    | intro _
    | with_reducible apply keeps_fcFollow
    | with_reducible apply keeps_withStep
    | with_reducible apply keeps_tEnd
    | with_reducible refine keeps_of_fst (by with_reducible assumption) ?_
    | dsimp -zeta -zetaHave only
    | split


theorem keeps_execFrameStart (s) (h0 : Keeps K s) (hp : Sub 0x7FFFFF K.may) : ∃ t, execFrameStart s = .next t ∧ Keeps K t := by
  refine ⟨_, rfl, ?_⟩
  repeat' first
    | with_reducible assumption
    | exact sub_mono hp (by decide)
    | exact Or.inr rfl
    | exact Or.inl (may_of hp (by decide))
    | simp only [↓keeps_mk]
    | refine keepsOf_upd ?_ rfl rfl rfl rfl rfl rfl ?_ ?_ ?_ ?_ ?_ ?_ ?_ ?_ ?_ ?_ ?_ ?_ ?_ ?_ ?_ ?_ ?_ ?_ ?_ ?_ ?_ ?_
    | with_reducible apply keeps_frameStart
    | dsimp -zeta -zetaHave only


theorem keeps_execCommitCutoff (s) (h0 : Keeps K s) (hp : Sub 0x108070 K.may) : ∃ t, execCommitCutoff s = .next t ∧ Keeps K t := by
  refine ⟨_, rfl, ?_⟩
  repeat' first
    | with_reducible assumption
    | exact sub_mono hp (by decide)
    | exact Or.inr rfl
    | exact Or.inl (may_of hp (by decide))
    | simp only [↓keeps_mk]
    | refine keepsOf_upd ?_ rfl rfl rfl rfl rfl rfl ?_ ?_ ?_ ?_ ?_ ?_ ?_ ?_ ?_ ?_ ?_ ?_ ?_ ?_ ?_ ?_ ?_ ?_ ?_ ?_ ?_ ?_
    | with_reducible apply keeps_commitCutoff
    | dsimp -zeta -zetaHave only


theorem keeps_execLatchPulse (a s) (h1 : Keeps K s) (hp : Sub 0x7FFFFF K.may) : ∃ t, execLatchPulse a s = .next t ∧ Keeps K t := by
  refine ⟨_, rfl, ?_⟩
  repeat' first
    | with_reducible assumption
    | exact sub_mono hp (by decide)
    | exact Or.inr rfl
    | exact Or.inl (may_of hp (by decide))
    | simp only [↓keeps_mk]
    | refine keepsOf_upd ?_ rfl rfl rfl rfl rfl rfl ?_ ?_ ?_ ?_ ?_ ?_ ?_ ?_ ?_ ?_ ?_ ?_ ?_ ?_ ?_ ?_ ?_ ?_ ?_ ?_ ?_ ?_
    | with_reducible apply keeps_latchAt
    | dsimp -zeta -zetaHave only


theorem keeps_execModeChangeTEnd (s) (h0 : Keeps K s) (hp : Sub 0x19FE7C K.may) : ∃ t, execModeChangeTEnd s = .next t ∧ Keeps K t := by
  refine ⟨_, rfl, ?_⟩
  repeat' first
    | with_reducible assumption
    | exact sub_mono hp (by decide)
    | exact Or.inr rfl
    | exact Or.inl (may_of hp (by decide))
    | simp only [↓keeps_mk]
    | refine keepsOf_upd ?_ rfl rfl rfl rfl rfl rfl ?_ ?_ ?_ ?_ ?_ ?_ ?_ ?_ ?_ ?_ ?_ ?_ ?_ ?_ ?_ ?_ ?_ ?_ ?_ ?_ ?_ ?_
    | with_reducible apply keeps_modeChangeEnd
    | dsimp -zeta -zetaHave only


theorem keeps_execPhaseStepTEnd (s) (h0 : Keeps K s) (hp : Sub 0x19FE7C K.may) : ∃ t, execPhaseStepTEnd s = .next t ∧ Keeps K t := by
  refine ⟨_, rfl, ?_⟩
  repeat' first
    | with_reducible assumption
    | exact sub_mono hp (by decide)
    | exact Or.inr rfl
    | exact Or.inl (may_of hp (by decide))
    | simp only [↓keeps_mk]
    | refine keepsOf_upd ?_ rfl rfl rfl rfl rfl rfl ?_ ?_ ?_ ?_ ?_ ?_ ?_ ?_ ?_ ?_ ?_ ?_ ?_ ?_ ?_ ?_ ?_ ?_ ?_ ?_ ?_ ?_
    | with_reducible apply keeps_phaseStepEnd
    | dsimp -zeta -zetaHave only


end Sys2Proof.Machine
end

