-- ==== Sys2Proof/Laws/KeepsBoot.lean ====
section
/-!
SUPPORT. What the operations of Machine/Boot.lean keep.
-/
namespace Sys2Proof.Machine
open Sys2Proof

variable {K : Keeping}

theorem keeps_imageCheck (a s) (h1 : Keeps K s) (hp : Sub 0x65 K.may) : Keeps K (imageCheck a s).1 := by
  unfold imageCheck
  repeat' first
    | with_reducible assumption
    | exact sub_mono hp (by decide)
    | (extract_lets +onlyGivenNames x; clear_value x)
    | extract_lets +onlyGivenNames x
    | with_reducible apply keeps_mramRead
    | with_reducible refine keeps_of_fst (by with_reducible assumption) ?_
    | dsimp -zeta -zetaHave only
    | split


theorem keeps_showJournal (s) (h0 : Keeps K s) : Keeps K (showJournal s) := by
  unfold showJournal
  repeat' first
    | with_reducible assumption
    | with_reducible apply keeps_set
    | dsimp -zeta -zetaHave only


theorem keeps_journalLoad (s) (h0 : Keeps K s) (hp : Sub 0x80065 K.may) : Keeps K (journalLoad s) := by
  unfold journalLoad
  repeat' first
    | with_reducible assumption
    | exact sub_mono hp (by decide)
    | with_reducible apply keeps_readCopies
    | with_reducible apply keeps_showJournal
    | with_reducible apply keeps_updBoot
    | with_reducible refine keeps_of_fst (by with_reducible assumption) ?_
    | dsimp -zeta -zetaHave only
    | split


theorem keeps_journalWrite (a b c d s) (h4 : Keeps K s) (hp : Sub 0x80004 K.may) : Keeps K (journalWrite a b c d s) := by
  unfold journalWrite
  repeat' first
    | with_reducible assumption
    | exact sub_mono hp (by decide)
    | (extract_lets +onlyGivenNames x; have hx : Keeps K x; (on_goal 2 => clear_value x); (on_goal 1 => unfold x; clear x))
    | (extract_lets +onlyGivenNames x; have hx : Keeps K x; (on_goal 1 => unfold x; clear x))
    | (extract_lets +onlyGivenNames x; clear_value x)
    | extract_lets +onlyGivenNames x
    | with_reducible apply keeps_internalProg
    | with_reducible apply keeps_showJournal
    | with_reducible apply keeps_updBoot
    | dsimp -zeta -zetaHave only


theorem keeps_romJournal (a b c s) (h3 : Keeps K s) (hp : Sub 0x80065 K.may) : Keeps K (romJournal a b c s) := by
  unfold romJournal
  repeat' first
    | with_reducible assumption
    | exact sub_mono hp (by decide)
    | with_reducible apply keeps_progsEnd
    | with_reducible apply keeps_journalWrite
    | dsimp -zeta -zetaHave only


theorem keeps_romProgram (a b s) (h2 : Keeps K s) (hp : Sub 0x5 K.may) : Keeps K (romProgram a b s) := by
  unfold romProgram
  repeat' first
    | with_reducible assumption
    | exact sub_mono hp (by decide)
    | intro _
    | (extract_lets +onlyGivenNames x; clear_value x)
    | extract_lets +onlyGivenNames x
    | exact Or.inr rfl
    | exact Or.inl (may_of hp (by decide))
    | simp only [↓keeps_mk]
    | with_reducible apply keepsOf_memPutAll
    | refine keepsOf_upd ?_ rfl rfl rfl rfl rfl rfl ?_ ?_ ?_ ?_ ?_ ?_ ?_ ?_ ?_ ?_ ?_ ?_ ?_ ?_ ?_ ?_ ?_ ?_ ?_ ?_ ?_ ?_
    | exact may_of hp (by decide)
    | with_reducible apply keeps_foldl
    | with_reducible apply keeps_foldl_fst
    | dsimp -zeta -zetaHave only


theorem keeps_benchCopy (a s) (h1 : Keeps K s) (hp : Sub 0x80065 K.may) : Keeps K (benchCopy a s).1 := by
  induction a generalizing s <;> unfold benchCopy
  repeat' first
    | with_reducible assumption
    | exact sub_mono hp (by decide)
    | (extract_lets +onlyGivenNames x; clear_value x)
    | extract_lets +onlyGivenNames x
    | with_reducible apply keeps_evt
    | with_reducible apply keeps_bootStatus
    | with_reducible apply keeps_romJournal
    | with_reducible apply keeps_mramRead
    | with_reducible apply keeps_romProgram
    | with_reducible refine keeps_of_fst (by with_reducible assumption) ?_
    | with_reducible apply_assumption -exfalso -symm
    | dsimp -zeta -zetaHave only
    | split


theorem keeps_stepCopy (s) (h0 : Keeps K s) (hp : Sub 0x80065 K.may) : Keeps K (stepCopy s).1 := by
  unfold stepCopy
  repeat' first
    | with_reducible assumption
    | exact sub_mono hp (by decide)
    | with_reducible apply keeps_imageCheck
    | with_reducible apply keeps_bootStatus
    | with_reducible apply keeps_romJournal
    | with_reducible apply keeps_benchCopy
    | with_reducible refine keeps_of_fst (by with_reducible assumption) ?_
    | dsimp -zeta -zetaHave only
    | split


theorem keeps_loadImage (a s) (h1 : Keeps K s) (hp : Sub 0x65 K.may) : Keeps K (loadImage a s).1 := by
  induction a generalizing s <;> unfold loadImage
  repeat' first
    | with_reducible assumption
    | exact sub_mono hp (by decide)
    | with_reducible apply keeps_mramRead
    | with_reducible apply keeps_wr'
    | with_reducible refine keeps_of_fst (by with_reducible assumption) ?_
    | with_reducible apply_assumption -exfalso -symm
    | dsimp -zeta -zetaHave only
    | split


theorem keeps_settingsSlot (a s) (h1 : Keeps K s) (hp : Sub 0x65 K.may) : Keeps K (settingsSlot a s).1 := by
  unfold settingsSlot
  repeat' first
    | with_reducible assumption
    | exact sub_mono hp (by decide)
    | (extract_lets +onlyGivenNames x; clear_value x)
    | extract_lets +onlyGivenNames x
    | with_reducible apply keeps_mramRead
    | with_reducible refine keeps_of_fst (by with_reducible assumption) ?_
    | dsimp -zeta -zetaHave only
    | split


theorem keeps_settingsWrite (a b c s) (h3 : Keeps K s) (hp : Sub 0x7FFFFF K.may) : Keeps K (settingsWrite a b c s) := by
  unfold settingsWrite
  extract_lets c t m c2
  have k0 : Keeps K { s with cmt := { s.cmt with owner := 8 } } :=
    ⟨keepsOf_upd h3 rfl rfl rfl rfl rfl rfl (.inr rfl) (.inr rfl) (.inl (may_of hp (by decide))) (.inr rfl) (.inr rfl) (.inr rfl) (.inr rfl) (.inr rfl) (.inr rfl) (.inr rfl) (.inr rfl) (.inr rfl) (.inr rfl) (.inr rfl) (.inr rfl) (.inr rfl) (.inr rfl) (.inr rfl) (.inr rfl) (.inr rfl) (.inr rfl) (.inr rfl)⟩
  have k1 : Keeps K t := keeps_regWrite _ _ _ _ _ k0 (sub_mono hp (by decide))
  clear_value t
  have k2 : Keeps K m := keeps_merged _ k1
  clear_value m
  have k3 : Keeps K { m with staged := [] } := ⟨keepsOf_stagedNil (may_of hp (by decide)) k2.parts⟩
  exact ⟨keepsOf_upd k3 rfl rfl rfl rfl rfl rfl (.inr rfl) (.inr rfl) (.inl (may_of hp (by decide))) (.inr rfl) (.inr rfl) (.inr rfl) (.inr rfl) (.inr rfl) (.inr rfl) (.inr rfl) (.inr rfl) (.inr rfl) (.inr rfl) (.inr rfl) (.inr rfl) (.inr rfl) (.inr rfl) (.inr rfl) (.inr rfl) (.inr rfl) (.inr rfl) (.inr rfl)⟩


theorem keeps_settingsRecord (a b s) (h2 : Keeps K s) (hp : Sub 0x7FFFFF K.may) : Keeps K (settingsRecord a b s) := by
  unfold settingsRecord
  repeat' first
    | with_reducible assumption
    | exact sub_mono hp (by decide)
    | (extract_lets +onlyGivenNames x; clear_value x)
    | extract_lets +onlyGivenNames x
    | with_reducible apply keeps_settingsWrite
    | with_reducible apply keeps_set
    | with_reducible refine keeps_of_fst (by with_reducible assumption) ?_
    | dsimp -zeta -zetaHave only
    | split


theorem keeps_settingsApply (a b c s) (h3 : Keeps K s) (hp : Sub 0x7FFFFF K.may) : Keeps K (settingsApply a b c s) := by
  induction b generalizing c s <;> unfold settingsApply
  repeat' first
    | with_reducible assumption
    | exact sub_mono hp (by decide)
    | (extract_lets +onlyGivenNames x; clear_value x)
    | extract_lets +onlyGivenNames x
    | with_reducible apply keeps_settingsRecord
    | with_reducible refine keeps_of_fst (by with_reducible assumption) ?_
    | with_reducible apply_assumption -exfalso -symm
    | dsimp -zeta -zetaHave only
    | split


theorem keeps_settingsLoad (a b s) (h2 : Keeps K s) (hp : Sub 0x7FFFFF K.may) : Keeps K (settingsLoad a b s) := by
  unfold settingsLoad
  repeat' first
    | with_reducible assumption
    | exact sub_mono hp (by decide)
    | intro _
    | (extract_lets +onlyGivenNames x; have hx : Keeps K x; (on_goal 2 => clear_value x); (on_goal 1 => unfold x; clear x))
    | (extract_lets +onlyGivenNames x; have hx : Keeps K x; (on_goal 1 => unfold x; clear x))
    | (extract_lets +onlyGivenNames x; clear_value x)
    | extract_lets +onlyGivenNames x
    | exact Or.inr rfl
    | exact Or.inl (may_of hp (by decide))
    | simp only [↓keeps_mk]
    | refine keepsOf_upd ?_ rfl rfl rfl rfl rfl rfl ?_ ?_ ?_ ?_ ?_ ?_ ?_ ?_ ?_ ?_ ?_ ?_ ?_ ?_ ?_ ?_ ?_ ?_ ?_ ?_ ?_ ?_
    | with_reducible apply keeps_settingsSlot
    | with_reducible apply keeps_bootStatus
    | with_reducible apply keeps_settingsApply
    | with_reducible apply keeps_romProgram
    | with_reducible apply keeps_withAttn
    | with_reducible apply keeps_evt
    | with_reducible apply keeps_set
    | with_reducible refine keeps_of_fst (by with_reducible assumption) ?_
    | dsimp -zeta -zetaHave only
    | split


theorem keeps_startBank (a b c s) (h3 : Keeps K s) (hp : Sub 0x864 K.may) : Keeps K (startBank a b c s) := by
  have kr : ∀ (pin : Nat) (s : State), Keeps K s →
      Keeps K (((s.bump pgCAL F.CAL_st_REJECTS).evt pgCAL 1).fault pgCAL 0x40 pin 0) := fun pin s h =>
    keeps_fault _ _ _ _ _ (keeps_evt _ _ _ (keeps_bump _ _ _ _ _ h) (sub_mono hp (by decide)))
  have k1 : Keeps K (s.bump pgCAL F.CAL_st_WINDOWS 63) := keeps_bump _ _ _ _ _ h3
  unfold startBank
  extract_lets l s1
  clear_value l
  change Keeps K s1 at k1
  clear_value s1
  split
  · exact kr _ _ k1
  · have k2 := keeps_bump _ pgCAL F.CAL_st_WINDOWS 1 0 k1
    split
    · exact kr _ _ k2
    · exact keeps_tablesMade _ _ _ _ (keeps_evt _ _ _ (keeps_bump _ _ _ _ _ (keeps_internalProg _ _ _ (keeps_updCal _ _ k2 (sub_mono hp (by decide))) (sub_mono hp (by decide)))) (sub_mono hp (by decide))) (sub_mono hp (by decide))


theorem keeps_romStep (a b s) (h2 : Keeps K s) : Keeps K (romStep a b s) := by
  unfold romStep
  repeat' first
    | with_reducible assumption
    | with_reducible apply keeps_bootStatus
    | with_reducible apply keeps_setReg
    | dsimp -zeta -zetaHave only


theorem keeps_serviceWait (a s) (h1 : Keeps K s) (hp : Sub 0x90064 K.may) : Keeps K (serviceWait a s) := by
  unfold serviceWait
  repeat' first
    | with_reducible assumption
    | exact sub_mono hp (by decide)
    | intro _
    | with_reducible apply keeps_withAttn
    | with_reducible apply keeps_refreshAll
    | with_reducible apply keeps_bootStatus
    | with_reducible apply keeps_maskOff
    | with_reducible apply keeps_set
    | with_reducible apply keeps_updBoot
    | dsimp -zeta -zetaHave only


theorem keeps_romFail (s) (h0 : Keeps K s) (hp : Sub 0x7FFFFF K.may) : Keeps K (romFail s) := by
  unfold romFail
  repeat' first
    | with_reducible assumption
    | exact sub_mono hp (by decide)
    | with_reducible apply keeps_requestStart
    | dsimp -zeta -zetaHave only


theorem keeps_startHead (a b c d s) (h4 : Keeps K s) (hp : Sub 0x8006C K.may) : Keeps K (startHead a b c d s) := by
  unfold startHead
  repeat' first
    | with_reducible assumption
    | exact sub_mono hp (by decide)
    | (extract_lets +onlyGivenNames x; have hx : Keeps K x; (on_goal 2 => clear_value x); (on_goal 1 => unfold x; clear x))
    | (extract_lets +onlyGivenNames x; have hx : Keeps K x; (on_goal 1 => unfold x; clear x))
    | (extract_lets +onlyGivenNames x; clear_value x)
    | extract_lets +onlyGivenNames x
    | with_reducible apply keeps_updBoot
    | with_reducible apply keeps_set
    | with_reducible apply keeps_maskOff
    | with_reducible apply keeps_updTime
    | with_reducible apply keeps_bootStatus
    | with_reducible apply keeps_romStep
    | with_reducible refine keeps_of_fst (by with_reducible assumption) ?_
    | dsimp -zeta -zetaHave only
    | split


theorem keeps_startMemory (a b s) (h2 : Keeps K s) (hp : Sub 0x11827D K.may) : Keeps K (startMemory a b s).1 := by
  unfold startMemory
  repeat' first
    | with_reducible assumption
    | exact sub_mono hp (by decide)
    | (extract_lets +onlyGivenNames x; have hx : Keeps K x; (on_goal 2 => clear_value x); (on_goal 1 => unfold x; clear x))
    | (extract_lets +onlyGivenNames x; have hx : Keeps K x; (on_goal 1 => unfold x; clear x))
    | (extract_lets +onlyGivenNames x; clear_value x)
    | extract_lets +onlyGivenNames x
    | exact Or.inr rfl
    | exact Or.inl (may_of hp (by decide))
    | simp only [↓keeps_mk]
    | with_reducible apply keepsOf_memFilter
    | refine keepsOf_upd ?_ rfl rfl rfl rfl rfl rfl ?_ ?_ ?_ ?_ ?_ ?_ ?_ ?_ ?_ ?_ ?_ ?_ ?_ ?_ ?_ ?_ ?_ ?_ ?_ ?_ ?_ ?_
    | exact may_of hp (by decide)
    | with_reducible apply keeps_updPwr
    | with_reducible apply keeps_domOn
    | with_reducible apply keeps_romStep
    | with_reducible apply keeps_set
    | with_reducible refine keeps_of_fst (by with_reducible assumption) ?_
    | dsimp -zeta -zetaHave only
    | split


theorem keeps_freeRegs (a s) (h1 : Keeps K s) : Keeps K (freeRegs a s).1 := by
  induction a generalizing s <;> unfold freeRegs
  repeat' first
    | with_reducible assumption
    | with_reducible apply keeps_free
    | with_reducible refine keeps_of_fst (by with_reducible assumption) ?_
    | with_reducible apply_assumption -exfalso -symm
    | dsimp -zeta -zetaHave only
    | split


theorem keeps_handOver (a s) (h1 : Keeps K s) (hp : Sub 0x19827C K.may) : Keeps K (handOver a s) := by
  unfold handOver
  repeat' first
    | with_reducible assumption
    | exact sub_mono hp (by decide)
    | intro _
    | (extract_lets +onlyGivenNames x; have hx : Keeps K x; (on_goal 2 => clear_value x); (on_goal 1 => unfold x; clear x))
    | (extract_lets +onlyGivenNames x; have hx : Keeps K x; (on_goal 1 => unfold x; clear x))
    | (extract_lets +onlyGivenNames x; clear_value x)
    | extract_lets +onlyGivenNames x
    | with_reducible apply keeps_set
    | with_reducible apply keeps_updBoot
    | with_reducible apply keeps_updPwr
    | with_reducible apply keeps_freeRegs
    | with_reducible apply keeps_evt
    | with_reducible apply keeps_updCore
    | with_reducible apply keeps_domOn
    | with_reducible apply keeps_presentAll
    | with_reducible apply keeps_scheduling
    | with_reducible apply keeps_refreshAll
    | with_reducible apply keeps_maskOff
    | with_reducible apply keeps_foldl
    | with_reducible apply keeps_foldl_fst
    | with_reducible refine keeps_of_fst (by with_reducible assumption) ?_
    | dsimp -zeta -zetaHave only [id]
    | split


theorem keeps_startLifetime (a b s) (h2 : Keeps K s) (hp : Sub 0x100065 K.may) : Keeps K (startLifetime a b s) := by
  unfold startLifetime
  repeat' first
    | with_reducible assumption
    | exact sub_mono hp (by decide)
    | (extract_lets +onlyGivenNames x; have hx : Keeps K x; (on_goal 2 => clear_value x); (on_goal 1 => unfold x; clear x))
    | (extract_lets +onlyGivenNames x; have hx : Keeps K x; (on_goal 1 => unfold x; clear x))
    | (extract_lets +onlyGivenNames x; clear_value x)
    | extract_lets +onlyGivenNames x
    | with_reducible apply keeps_loadLifetime
    | with_reducible apply keeps_updPwr
    | with_reducible refine keeps_of_fst (by with_reducible assumption) ?_
    | dsimp -zeta -zetaHave only
    | split


theorem keeps_recordLoad (s) (h0 : Keeps K s) (hp : Sub 0x8065 K.may) : Keeps K (recordLoad s) := by
  unfold recordLoad
  repeat' first
    | with_reducible assumption
    | exact sub_mono hp (by decide)
    | with_reducible apply keeps_mramRead
    | with_reducible apply keeps_updFab
    | with_reducible refine keeps_of_fst (by with_reducible assumption) ?_
    | dsimp -zeta -zetaHave only
    | split


theorem keeps_startTail (a b s) (h2 : Keeps K s) (hp : Sub 0x9887D K.may) : Keeps K (startTail a b s) := by
  unfold startTail
  repeat' first
    | with_reducible assumption
    | exact sub_mono hp (by decide)
    | intro _
    | (extract_lets +onlyGivenNames x; have hx : Keeps K x; (on_goal 2 => clear_value x); (on_goal 1 => unfold x; clear x))
    | (extract_lets +onlyGivenNames x; have hx : Keeps K x; (on_goal 1 => unfold x; clear x))
    | (extract_lets +onlyGivenNames x; clear_value x)
    | extract_lets +onlyGivenNames x
    | with_reducible apply keeps_updBoot
    | with_reducible apply keeps_recordLoad
    | with_reducible apply keeps_updTime
    | with_reducible apply keeps_startBank
    | with_reducible apply keeps_romStep
    | with_reducible apply keeps_calRunStart
    | with_reducible apply keeps_storedBank
    | with_reducible apply keeps_updCal
    | with_reducible apply keeps_timeChanged
    | with_reducible apply keeps_confNote
    | with_reducible apply keeps_adcIdle
    | with_reducible apply keeps_foldl
    | with_reducible apply keeps_foldl_fst
    | with_reducible refine keeps_of_fst (by with_reducible assumption) ?_
    | dsimp -zeta -zetaHave only
    | split


theorem keeps_startRun (a b c d s) (h4 : Keeps K s) (hp : Sub 0x7FFFFF K.may) : Keeps K (startRun a b c d s) := by
  unfold startRun
  repeat' first
    | with_reducible assumption
    | exact sub_mono hp (by decide)
    | (extract_lets +onlyGivenNames x; have hx : Keeps K x; (on_goal 2 => clear_value x); (on_goal 1 => unfold x; clear x))
    | (extract_lets +onlyGivenNames x; have hx : Keeps K x; (on_goal 1 => unfold x; clear x))
    | (extract_lets +onlyGivenNames x; clear_value x)
    | extract_lets +onlyGivenNames x
    | with_reducible apply keeps_startLifetime
    | with_reducible apply keeps_journalLoad
    | with_reducible apply keeps_startHead
    | with_reducible apply keeps_serviceWait
    | with_reducible apply keeps_stepCopy
    | with_reducible apply keeps_romFail
    | with_reducible apply keeps_imageCheck
    | with_reducible apply keeps_romStep
    | with_reducible apply keeps_set
    | with_reducible apply keeps_startMemory
    | with_reducible apply keeps_loadImage
    | with_reducible apply keeps_restoreOnce
    | with_reducible apply keeps_settingsLoad
    | with_reducible apply keeps_startTail
    | with_reducible apply keeps_handOver
    | with_reducible refine keeps_of_fst (by with_reducible assumption) ?_
    | dsimp -zeta -zetaHave only
    | split


theorem keeps_startOf (a b s) (h2 : Keeps K s) (hp : Sub 0x7FFFFF K.may) : Keeps K (startOf a b s) := by
  unfold startOf
  repeat' first
    | with_reducible assumption
    | exact sub_mono hp (by decide)
    | with_reducible apply keeps_startRun
    | with_reducible refine keeps_of_fst (by with_reducible assumption) ?_
    | dsimp -zeta -zetaHave only
    | split


theorem keeps_romTimeout (s) (h0 : Keeps K s) (hp : Sub 0x7FFFFF K.may) : Keeps K (romTimeout s) := by
  unfold romTimeout
  repeat' first
    | with_reducible assumption
    | exact sub_mono hp (by decide)
    | (extract_lets +onlyGivenNames x; clear_value x)
    | extract_lets +onlyGivenNames x
    | with_reducible apply keeps_romFail
    | with_reducible apply keeps_set
    | with_reducible refine keeps_of_fst (by with_reducible assumption) ?_
    | dsimp -zeta -zetaHave only
    | split


theorem keeps_discoveryWait (s) (h0 : Keeps K s) (hp : Sub 0x88068 K.may) : Keeps K (discoveryWait s) := by
  unfold discoveryWait
  repeat' first
    | with_reducible assumption
    | exact sub_mono hp (by decide)
    | (extract_lets +onlyGivenNames x; have hx : Keeps K x; (on_goal 2 => clear_value x); (on_goal 1 => unfold x; clear x))
    | (extract_lets +onlyGivenNames x; have hx : Keeps K x; (on_goal 1 => unfold x; clear x))
    | (extract_lets +onlyGivenNames x; clear_value x)
    | extract_lets +onlyGivenNames x
    | with_reducible apply keeps_updBoot
    | with_reducible apply keeps_updFab
    | with_reducible apply keeps_bootStatus
    | with_reducible apply keeps_fabSync
    | with_reducible apply keeps_topoChange
    | with_reducible refine keeps_of_fst (by with_reducible assumption) ?_
    | dsimp -zeta -zetaHave only
    | split


theorem keeps_execColdStart (a b c d e f g s) (h7 : Keeps K s) (hp : Sub 0x7FFFFF K.may) : ∃ t, execColdStart a b c d e f g s = .next t ∧ Keeps K t := by
  refine ⟨_, rfl, ?_⟩
  repeat' first
    | with_reducible assumption
    | exact sub_mono hp (by decide)
    | exact Or.inr rfl
    | exact Or.inl (may_of hp (by decide))
    | simp only [↓keeps_mk]
    | refine keepsOf_upd ?_ rfl rfl rfl rfl rfl rfl ?_ ?_ ?_ ?_ ?_ ?_ ?_ ?_ ?_ ?_ ?_ ?_ ?_ ?_ ?_ ?_ ?_ ?_ ?_ ?_ ?_ ?_
    | with_reducible apply keeps_startOf
    | dsimp -zeta -zetaHave only


theorem keeps_execWarmStart (a b s) (h2 : Keeps K s) (hp : Sub 0x7FFFFF K.may) : ∃ t, execWarmStart a b s = .next t ∧ Keeps K t := by
  refine ⟨_, rfl, ?_⟩
  repeat' first
    | with_reducible assumption
    | exact sub_mono hp (by decide)
    | exact Or.inr rfl
    | exact Or.inl (may_of hp (by decide))
    | simp only [↓keeps_mk]
    | refine keepsOf_upd ?_ rfl rfl rfl rfl rfl rfl ?_ ?_ ?_ ?_ ?_ ?_ ?_ ?_ ?_ ?_ ?_ ?_ ?_ ?_ ?_ ?_ ?_ ?_ ?_ ?_ ?_ ?_
    | with_reducible apply keeps_startOf
    | dsimp -zeta -zetaHave only


theorem keeps_execRomTimeout (s) (h0 : Keeps K s) (hp : Sub 0x7FFFFF K.may) : ∃ t, execRomTimeout s = .next t ∧ Keeps K t := by
  refine ⟨_, rfl, ?_⟩
  repeat' first
    | with_reducible assumption
    | exact sub_mono hp (by decide)
    | exact Or.inr rfl
    | exact Or.inl (may_of hp (by decide))
    | simp only [↓keeps_mk]
    | refine keepsOf_upd ?_ rfl rfl rfl rfl rfl rfl ?_ ?_ ?_ ?_ ?_ ?_ ?_ ?_ ?_ ?_ ?_ ?_ ?_ ?_ ?_ ?_ ?_ ?_ ?_ ?_ ?_ ?_
    | with_reducible apply keeps_romTimeout
    | dsimp -zeta -zetaHave only


theorem keeps_execDiscoveryWaitExpiry (s) (h0 : Keeps K s) (hp : Sub 0x88068 K.may) : ∃ t, execDiscoveryWaitExpiry s = .next t ∧ Keeps K t := by
  refine ⟨_, rfl, ?_⟩
  repeat' first
    | with_reducible assumption
    | exact sub_mono hp (by decide)
    | exact Or.inr rfl
    | exact Or.inl (may_of hp (by decide))
    | simp only [↓keeps_mk]
    | refine keepsOf_upd ?_ rfl rfl rfl rfl rfl rfl ?_ ?_ ?_ ?_ ?_ ?_ ?_ ?_ ?_ ?_ ?_ ?_ ?_ ?_ ?_ ?_ ?_ ?_ ?_ ?_ ?_ ?_
    | with_reducible apply keeps_discoveryWait
    | dsimp -zeta -zetaHave only


end Sys2Proof.Machine
end

