-- ==== Sys2Proof/Laws/KeepsCane.lean ====
section
/-!
SUPPORT. What the operations of Machine/Cane.lean keep.
-/
namespace Sys2Proof.Machine
open Sys2Proof

variable {K : Keeping}

theorem keeps_readItem (a b s) (h2 : Keeps K s) (hp : Sub 0x242062 K.may) : Keeps K (readItem a b s).1 := by
  unfold readItem
  repeat' first
    | with_reducible assumption
    | exact sub_mono hp (by decide)
    | with_reducible apply keeps_regRead
    | with_reducible refine keeps_of_fst (by with_reducible assumption) ?_
    | dsimp -zeta -zetaHave only
    | split


theorem keeps_writeItem (a b c s) (h0 : ∀ x0 x1 x2 x3, Keeps K x3 → Keeps K (a x0 x1 x2 x3)) (h3 : Keeps K s) : Keeps K (writeItem a b c s).1 := by
  unfold writeItem
  repeat' first
    | with_reducible assumption
    | intro _
    | (extract_lets +onlyGivenNames x; have hx : ∀ y0, Keeps K y0 → Keeps K (x y0); (on_goal 2 => clear_value x); (on_goal 1 => unfold x; clear x))
    | (extract_lets +onlyGivenNames x; clear_value x)
    | extract_lets +onlyGivenNames x
    | with_reducible apply h0
    | with_reducible apply_assumption -exfalso -symm
    | with_reducible refine keeps_of_fst (by with_reducible assumption) ?_
    | dsimp -zeta -zetaHave only
    | split


theorem keeps_readItems (a b s) (h2 : Keeps K s) (hp : Sub 0x242062 K.may) : Keeps K (readItems a b s).1 := by
  induction b generalizing s <;> unfold readItems
  repeat' first
    | with_reducible assumption
    | exact sub_mono hp (by decide)
    | with_reducible apply keeps_readItem
    | with_reducible refine keeps_of_fst (by with_reducible assumption) ?_
    | with_reducible apply_assumption -exfalso -symm
    | dsimp -zeta -zetaHave only
    | split


theorem keeps_keepItems (a b s) (h2 : Keeps K s) (hp : Sub 0x202000 K.may) : Keeps K (keepItems a b s) := by
  unfold keepItems
  repeat' first
    | with_reducible assumption
    | exact sub_mono hp (by decide)
    | (extract_lets +onlyGivenNames x; clear_value x)
    | extract_lets +onlyGivenNames x
    | exact Or.inr rfl
    | exact Or.inl (may_of hp (by decide))
    | simp only [↓keeps_mk]
    | refine keepsOf_upd ?_ rfl rfl rfl rfl rfl rfl ?_ ?_ ?_ ?_ ?_ ?_ ?_ ?_ ?_ ?_ ?_ ?_ ?_ ?_ ?_ ?_ ?_ ?_ ?_ ?_ ?_ ?_
    | with_reducible refine keeps_of_fst (by with_reducible assumption) ?_
    | dsimp -zeta -zetaHave only
    | split


theorem keeps_writeItems (a b c s) (h1 : ∀ x0 x1 x2 x3, Keeps K x3 → Keeps K (b x0 x1 x2 x3)) (h3 : Keeps K s) (hp : Sub 0x202000 K.may) : Keeps K (writeItems a b c s).1 := by
  induction c generalizing s <;> unfold writeItems
  repeat' first
    | with_reducible assumption
    | exact sub_mono hp (by decide)
    | intro _
    | (extract_lets +onlyGivenNames x; clear_value x)
    | extract_lets +onlyGivenNames x
    | with_reducible apply keeps_writeItem
    | with_reducible apply keeps_keepItems
    | with_reducible apply h1
    | with_reducible refine keeps_of_fst (by with_reducible assumption) ?_
    | with_reducible apply_assumption -exfalso -symm
    | dsimp -zeta -zetaHave only
    | split


theorem keeps_readBlock (a b c s) (h3 : Keeps K s) (hp : Sub 0x242062 K.may) : Keeps K (readBlock a b c s).1 := by
  induction b generalizing c s <;> unfold readBlock
  repeat' first
    | with_reducible assumption
    | exact sub_mono hp (by decide)
    | with_reducible apply keeps_readItem
    | with_reducible refine keeps_of_fst (by with_reducible assumption) ?_
    | with_reducible apply_assumption -exfalso -symm
    | dsimp -zeta -zetaHave only
    | split


theorem keeps_regOp (a b c d s) (h1 : ∀ x0 x1 x2 x3, Keeps K x3 → Keeps K (b x0 x1 x2 x3)) (h4 : Keeps K s) (hp : Sub 0x242062 K.may) : Keeps K (regOp a b c d s).1 := by
  unfold regOp
  repeat' first
    | with_reducible assumption
    | exact sub_mono hp (by decide)
    | intro _
    | (extract_lets +onlyGivenNames x; have hx : ∀ y0, Keeps K y0.1 → Keeps K (x y0).1; (on_goal 2 => clear_value x); (on_goal 1 => unfold x; clear x))
    | (extract_lets +onlyGivenNames x; clear_value x)
    | extract_lets +onlyGivenNames x
    | with_reducible apply keeps_readItems
    | with_reducible apply keeps_writeItems
    | with_reducible apply keeps_readBlock
    | with_reducible apply h1
    | with_reducible apply_assumption -exfalso -symm
    | with_reducible refine keeps_of_fst (by with_reducible assumption) ?_
    | dsimp -zeta -zetaHave only
    | split


theorem keeps_updCane (s b) (h0 : Keeps K s) (hp : Sub 0x2000 K.may) : Keeps K (updCane s b) := by
  unfold updCane
  repeat' first
    | with_reducible assumption
    | exact sub_mono hp (by decide)
    | (extract_lets +onlyGivenNames x; clear_value x)
    | extract_lets +onlyGivenNames x
    | exact Or.inr rfl
    | exact Or.inl (may_of hp (by decide))
    | simp only [↓keeps_mk]
    | refine keepsOf_upd ?_ rfl rfl rfl rfl rfl rfl ?_ ?_ ?_ ?_ ?_ ?_ ?_ ?_ ?_ ?_ ?_ ?_ ?_ ?_ ?_ ?_ ?_ ?_ ?_ ?_ ?_ ?_
    | dsimp -zeta -zetaHave only


theorem keeps_caneWrite (a b c d s) (h4 : Keeps K s) (hp : Sub 0x7FFFFF K.may) : Keeps K (caneWrite a b c d s) := by
  unfold caneWrite
  repeat' first
    | with_reducible assumption
    | exact sub_mono hp (by decide)
    | (extract_lets +onlyGivenNames x; have hx : Keeps K x; (on_goal 2 => clear_value x); (on_goal 1 => unfold x; clear x))
    | (extract_lets +onlyGivenNames x; have hx : Keeps K x; (on_goal 1 => unfold x; clear x))
    | (extract_lets +onlyGivenNames x; clear_value x)
    | extract_lets +onlyGivenNames x
    | exact Or.inr rfl
    | exact Or.inl (may_of hp (by decide))
    | simp only [↓keeps_mk]
    | refine keepsOf_upd ?_ rfl rfl rfl rfl rfl rfl ?_ ?_ ?_ ?_ ?_ ?_ ?_ ?_ ?_ ?_ ?_ ?_ ?_ ?_ ?_ ?_ ?_ ?_ ?_ ?_ ?_ ?_
    | with_reducible apply keeps_regWrite
    | with_reducible apply keeps_updCane
    | with_reducible refine keeps_of_fst (by with_reducible assumption) ?_
    | dsimp -zeta -zetaHave only
    | split


theorem keeps_caneSend (a b s) (h2 : Keeps K s) (hp : Sub 0xE060 K.may) : Keeps K (caneSend a b s) := by
  unfold caneSend
  repeat' first
    | with_reducible assumption
    | exact sub_mono hp (by decide)
    | (extract_lets +onlyGivenNames x; have hx : Keeps K x; (on_goal 2 => clear_value x); (on_goal 1 => unfold x; clear x))
    | (extract_lets +onlyGivenNames x; have hx : Keeps K x; (on_goal 1 => unfold x; clear x))
    | (extract_lets +onlyGivenNames x; clear_value x)
    | extract_lets +onlyGivenNames x
    | with_reducible apply keeps_bump
    | with_reducible apply keeps_sendUnicast
    | with_reducible apply keeps_udpFrame
    | with_reducible apply keeps_queueLead
    | with_reducible refine keeps_of_fst (by with_reducible assumption) ?_
    | dsimp -zeta -zetaHave only
    | split


theorem keeps_caneReply (a b c d s) (h4 : Keeps K s) (hp : Sub 0xE060 K.may) : Keeps K (caneReply a b c d s) := by
  unfold caneReply
  repeat' first
    | with_reducible assumption
    | exact sub_mono hp (by decide)
    | (extract_lets +onlyGivenNames x; have hx : Keeps K x; (on_goal 2 => clear_value x); (on_goal 1 => unfold x; clear x))
    | (extract_lets +onlyGivenNames x; have hx : Keeps K x; (on_goal 1 => unfold x; clear x))
    | (extract_lets +onlyGivenNames x; clear_value x)
    | extract_lets +onlyGivenNames x
    | with_reducible apply keeps_updCane
    | with_reducible apply keeps_caneSend
    | with_reducible refine keeps_of_fst (by with_reducible assumption) ?_
    | dsimp -zeta -zetaHave only
    | split


theorem keeps_caneRepeat (a b s) (h2 : Keeps K s) (hp : Sub 0xE060 K.may) : Keeps K (caneRepeat a b s) := by
  unfold caneRepeat
  repeat' first
    | with_reducible assumption
    | exact sub_mono hp (by decide)
    | (extract_lets +onlyGivenNames x; clear_value x)
    | extract_lets +onlyGivenNames x
    | with_reducible apply keeps_bump
    | with_reducible apply keeps_caneSend
    | with_reducible apply keeps_evt
    | with_reducible refine keeps_of_fst (by with_reducible assumption) ?_
    | dsimp -zeta -zetaHave only
    | split


theorem keeps_caneDone (a b c d s) (h4 : Keeps K s) (hp : Sub 0xE060 K.may) : Keeps K (caneDone a b c d s) := by
  unfold caneDone
  repeat' first
    | with_reducible assumption
    | exact sub_mono hp (by decide)
    | with_reducible apply keeps_updCane
    | with_reducible apply keeps_caneReply
    | with_reducible apply keeps_bump
    | with_reducible refine keeps_of_fst (by with_reducible assumption) ?_
    | dsimp -zeta -zetaHave only
    | split


theorem keeps_caneResume (s) (h0 : Keeps K s) (hp : Sub 0x7FFFFF K.may) : Keeps K (caneResume s) := by
  unfold caneResume
  repeat' first
    | with_reducible assumption
    | exact sub_mono hp (by decide)
    | intro _
    | (extract_lets +onlyGivenNames x; have hx : Keeps K x; (on_goal 2 => clear_value x); (on_goal 1 => unfold x; clear x))
    | (extract_lets +onlyGivenNames x; have hx : Keeps K x; (on_goal 1 => unfold x; clear x))
    | with_reducible apply keeps_updCane
    | with_reducible apply keeps_writeItems
    | with_reducible apply keeps_caneWrite
    | with_reducible apply keeps_caneDone
    | with_reducible refine keeps_of_fst (by with_reducible assumption) ?_
    | dsimp -zeta -zetaHave only
    | split


theorem keeps_caneExec (a b s) (h2 : Keeps K s) (hp : Sub 0x7FFFFF K.may) : Keeps K (caneExec a b s) := by
  unfold caneExec
  repeat' first
    | with_reducible assumption
    | exact sub_mono hp (by decide)
    | intro _
    | (extract_lets +onlyGivenNames x; have hx : Keeps K x; (on_goal 2 => clear_value x); (on_goal 1 => unfold x; clear x))
    | (extract_lets +onlyGivenNames x; have hx : Keeps K x; (on_goal 1 => unfold x; clear x))
    | (extract_lets +onlyGivenNames x; clear_value x)
    | extract_lets +onlyGivenNames x
    | with_reducible apply keeps_evt
    | with_reducible apply keeps_bump
    | with_reducible apply keeps_fabRing
    | with_reducible apply keeps_toRing
    | with_reducible apply keeps_caneReply
    | with_reducible apply keeps_regOp
    | with_reducible apply keeps_caneWrite
    | with_reducible apply keeps_caneDone
    | with_reducible refine keeps_of_fst (by with_reducible assumption) ?_
    | dsimp -zeta -zetaHave only
    | split


theorem keeps_caneRequest (a s) (h1 : Keeps K s) (hp : Sub 0x7FFFFF K.may) : Keeps K (caneRequest a s) := by
  unfold caneRequest
  repeat' first
    | with_reducible assumption
    | exact sub_mono hp (by decide)
    | (extract_lets +onlyGivenNames x; have hx : Keeps K x; (on_goal 2 => clear_value x); (on_goal 1 => unfold x; clear x))
    | (extract_lets +onlyGivenNames x; have hx : Keeps K x; (on_goal 1 => unfold x; clear x))
    | (extract_lets +onlyGivenNames x; clear_value x)
    | extract_lets +onlyGivenNames x
    | with_reducible apply keeps_bump
    | with_reducible apply keeps_evt
    | with_reducible apply keeps_caneRepeat
    | with_reducible apply keeps_updCane
    | with_reducible apply keeps_caneReply
    | with_reducible apply keeps_caneExec
    | with_reducible refine keeps_of_fst (by with_reducible assumption) ?_
    | dsimp -zeta -zetaHave only
    | split


theorem keeps_caneTake (s) (h0 : Keeps K s) (hp : Sub 0x7FFFFF K.may) : Keeps K (caneTake s) := by
  unfold caneTake
  repeat' first
    | with_reducible assumption
    | exact sub_mono hp (by decide)
    | (extract_lets +onlyGivenNames x; have hx : Keeps K x; (on_goal 2 => clear_value x); (on_goal 1 => unfold x; clear x))
    | (extract_lets +onlyGivenNames x; have hx : Keeps K x; (on_goal 1 => unfold x; clear x))
    | with_reducible apply keeps_updCane
    | with_reducible apply keeps_caneRequest
    | with_reducible apply keeps_caneRefill
    | with_reducible refine keeps_of_fst (by with_reducible assumption) ?_
    | dsimp -zeta -zetaHave only
    | split


theorem keeps_caneFree (a s) (h0 : ∀ x0, Keeps K x0 → Keeps K (a x0)) (h1 : Keeps K s) (hp : Sub 0x7FFFFF K.may) : Keeps K (caneFree a s) := by
  unfold caneFree
  repeat' first
    | with_reducible assumption
    | exact sub_mono hp (by decide)
    | intro _
    | (extract_lets +onlyGivenNames x; have hx : Keeps K x; (on_goal 2 => clear_value x); (on_goal 1 => unfold x; clear x))
    | (extract_lets +onlyGivenNames x; have hx : Keeps K x; (on_goal 1 => unfold x; clear x))
    | with_reducible apply keeps_caneResume
    | with_reducible apply h0
    | with_reducible refine keeps_of_fst (by with_reducible assumption) ?_
    | dsimp -zeta -zetaHave only
    | split


theorem keeps_caneOp (a s) (h1 : Keeps K s) (hp : Sub 0x7FFFFF K.may) : Keeps K (caneOp a s) := by
  unfold caneOp
  repeat' first
    | with_reducible assumption
    | exact sub_mono hp (by decide)
    | intro _
    | with_reducible apply keeps_caneFree
    | with_reducible apply keeps_caneTake
    | with_reducible refine keeps_of_fst (by with_reducible assumption) ?_
    | dsimp -zeta -zetaHave only
    | split


theorem keeps_leaseExpire (s) (h0 : Keeps K s) (hp : Sub 0x2070 K.may) : Keeps K (leaseExpire s) := by
  unfold leaseExpire
  repeat' first
    | with_reducible assumption
    | exact sub_mono hp (by decide)
    | with_reducible apply keeps_setOwner
    | with_reducible apply keeps_evt
    | with_reducible apply keeps_updCane
    | with_reducible refine keeps_of_fst (by with_reducible assumption) ?_
    | dsimp -zeta -zetaHave only
    | split


theorem keeps_tunnelled (a b s) (h2 : Keeps K s) (hp : Sub 0x7FFFFF K.may) : Keeps K (tunnelled a b s) := by
  unfold tunnelled
  repeat' first
    | with_reducible assumption
    | exact sub_mono hp (by decide)
    | intro _
    | (extract_lets +onlyGivenNames x; have hx : Keeps K x; (on_goal 2 => clear_value x); (on_goal 1 => unfold x; clear x))
    | (extract_lets +onlyGivenNames x; have hx : Keeps K x; (on_goal 1 => unfold x; clear x))
    | (extract_lets +onlyGivenNames x; clear_value x)
    | extract_lets +onlyGivenNames x
    | with_reducible apply keeps_bundleIn
    | with_reducible apply keeps_caneFree
    | with_reducible apply keeps_caneTake
    | with_reducible refine keeps_of_fst (by with_reducible assumption) ?_
    | dsimp -zeta -zetaHave only
    | split


theorem keeps_frameIn (a b c d s) (h4 : Keeps K s) (hp : Sub 0x7FFFFF K.may) : Keeps K (frameIn a b c d s) := by
  unfold frameIn
  repeat' first
    | with_reducible assumption
    | exact sub_mono hp (by decide)
    | (extract_lets +onlyGivenNames x; have hx : Keeps K x; (on_goal 2 => clear_value x); (on_goal 1 => unfold x; clear x))
    | (extract_lets +onlyGivenNames x; have hx : Keeps K x; (on_goal 1 => unfold x; clear x))
    | (extract_lets +onlyGivenNames x; clear_value x)
    | extract_lets +onlyGivenNames x
    | exact Or.inr rfl
    | exact Or.inl (may_of hp (by decide))
    | simp only [↓keeps_mk]
    | refine keepsOf_upd ?_ rfl rfl rfl rfl rfl rfl ?_ ?_ ?_ ?_ ?_ ?_ ?_ ?_ ?_ ?_ ?_ ?_ ?_ ?_ ?_ ?_ ?_ ?_ ?_ ?_ ?_ ?_
    | with_reducible apply keeps_ethReceive
    | with_reducible apply keeps_wake
    | with_reducible refine keeps_of_fst (by with_reducible assumption) ?_
    | dsimp -zeta -zetaHave only
    | split


theorem keeps_execEthFrameReceive (a b c d s) (h4 : Keeps K s) (hp : Sub 0x7FFFFF K.may) : ∃ t, execEthFrameReceive a b c d s = .next t ∧ Keeps K t := by
  refine ⟨_, rfl, ?_⟩
  repeat' first
    | with_reducible assumption
    | exact sub_mono hp (by decide)
    | exact Or.inr rfl
    | exact Or.inl (may_of hp (by decide))
    | simp only [↓keeps_mk]
    | refine keepsOf_upd ?_ rfl rfl rfl rfl rfl rfl ?_ ?_ ?_ ?_ ?_ ?_ ?_ ?_ ?_ ?_ ?_ ?_ ?_ ?_ ?_ ?_ ?_ ?_ ?_ ?_ ?_ ?_
    | with_reducible apply keeps_frameIn
    | dsimp -zeta -zetaHave only


theorem keeps_execCaneStatus (s) (h0 : Keeps K s) (hp : Sub 0x7FFFFF K.may) : ∃ t, execCaneStatus s = .next t ∧ Keeps K t := by
  refine ⟨_, rfl, ?_⟩
  repeat' first
    | with_reducible assumption
    | exact sub_mono hp (by decide)
    | exact Or.inr rfl
    | exact Or.inl (may_of hp (by decide))
    | simp only [↓keeps_mk]
    | refine keepsOf_upd ?_ rfl rfl rfl rfl rfl rfl ?_ ?_ ?_ ?_ ?_ ?_ ?_ ?_ ?_ ?_ ?_ ?_ ?_ ?_ ?_ ?_ ?_ ?_ ?_ ?_ ?_ ?_
    | with_reducible apply keeps_caneOp
    | dsimp -zeta -zetaHave only


theorem keeps_execCanePagestate (s) (h0 : Keeps K s) (hp : Sub 0x7FFFFF K.may) : ∃ t, execCanePagestate s = .next t ∧ Keeps K t := by
  refine ⟨_, rfl, ?_⟩
  repeat' first
    | with_reducible assumption
    | exact sub_mono hp (by decide)
    | exact Or.inr rfl
    | exact Or.inl (may_of hp (by decide))
    | simp only [↓keeps_mk]
    | refine keepsOf_upd ?_ rfl rfl rfl rfl rfl rfl ?_ ?_ ?_ ?_ ?_ ?_ ?_ ?_ ?_ ?_ ?_ ?_ ?_ ?_ ?_ ?_ ?_ ?_ ?_ ?_ ?_ ?_
    | with_reducible apply keeps_caneOp
    | dsimp -zeta -zetaHave only


theorem keeps_execCaneReadreg (s) (h0 : Keeps K s) (hp : Sub 0x7FFFFF K.may) : ∃ t, execCaneReadreg s = .next t ∧ Keeps K t := by
  refine ⟨_, rfl, ?_⟩
  repeat' first
    | with_reducible assumption
    | exact sub_mono hp (by decide)
    | exact Or.inr rfl
    | exact Or.inl (may_of hp (by decide))
    | simp only [↓keeps_mk]
    | refine keepsOf_upd ?_ rfl rfl rfl rfl rfl rfl ?_ ?_ ?_ ?_ ?_ ?_ ?_ ?_ ?_ ?_ ?_ ?_ ?_ ?_ ?_ ?_ ?_ ?_ ?_ ?_ ?_ ?_
    | with_reducible apply keeps_caneOp
    | dsimp -zeta -zetaHave only


theorem keeps_execCaneWritereg (s) (h0 : Keeps K s) (hp : Sub 0x7FFFFF K.may) : ∃ t, execCaneWritereg s = .next t ∧ Keeps K t := by
  refine ⟨_, rfl, ?_⟩
  repeat' first
    | with_reducible assumption
    | exact sub_mono hp (by decide)
    | exact Or.inr rfl
    | exact Or.inl (may_of hp (by decide))
    | simp only [↓keeps_mk]
    | refine keepsOf_upd ?_ rfl rfl rfl rfl rfl rfl ?_ ?_ ?_ ?_ ?_ ?_ ?_ ?_ ?_ ?_ ?_ ?_ ?_ ?_ ?_ ?_ ?_ ?_ ?_ ?_ ?_ ?_
    | with_reducible apply keeps_caneOp
    | dsimp -zeta -zetaHave only


theorem keeps_execCaneReadblock (s) (h0 : Keeps K s) (hp : Sub 0x7FFFFF K.may) : ∃ t, execCaneReadblock s = .next t ∧ Keeps K t := by
  refine ⟨_, rfl, ?_⟩
  repeat' first
    | with_reducible assumption
    | exact sub_mono hp (by decide)
    | exact Or.inr rfl
    | exact Or.inl (may_of hp (by decide))
    | simp only [↓keeps_mk]
    | refine keepsOf_upd ?_ rfl rfl rfl rfl rfl rfl ?_ ?_ ?_ ?_ ?_ ?_ ?_ ?_ ?_ ?_ ?_ ?_ ?_ ?_ ?_ ?_ ?_ ?_ ?_ ?_ ?_ ?_
    | with_reducible apply keeps_caneOp
    | dsimp -zeta -zetaHave only


theorem keeps_execCaneFirmwareOp (s) (h0 : Keeps K s) (hp : Sub 0x7FFFFF K.may) : ∃ t, execCaneFirmwareOp s = .next t ∧ Keeps K t := by
  refine ⟨_, rfl, ?_⟩
  repeat' first
    | with_reducible assumption
    | exact sub_mono hp (by decide)
    | exact Or.inr rfl
    | exact Or.inl (may_of hp (by decide))
    | simp only [↓keeps_mk]
    | refine keepsOf_upd ?_ rfl rfl rfl rfl rfl rfl ?_ ?_ ?_ ?_ ?_ ?_ ?_ ?_ ?_ ?_ ?_ ?_ ?_ ?_ ?_ ?_ ?_ ?_ ?_ ?_ ?_ ?_
    | with_reducible apply keeps_caneOp
    | dsimp -zeta -zetaHave only


theorem keeps_execCaneBadOp (s) (h0 : Keeps K s) (hp : Sub 0x7FFFFF K.may) : ∃ t, execCaneBadOp s = .next t ∧ Keeps K t := by
  refine ⟨_, rfl, ?_⟩
  repeat' first
    | with_reducible assumption
    | exact sub_mono hp (by decide)
    | exact Or.inr rfl
    | exact Or.inl (may_of hp (by decide))
    | simp only [↓keeps_mk]
    | refine keepsOf_upd ?_ rfl rfl rfl rfl rfl rfl ?_ ?_ ?_ ?_ ?_ ?_ ?_ ?_ ?_ ?_ ?_ ?_ ?_ ?_ ?_ ?_ ?_ ?_ ?_ ?_ ?_ ?_
    | with_reducible apply keeps_caneOp
    | dsimp -zeta -zetaHave only


theorem keeps_execCaneLeaseExpiry (s) (h0 : Keeps K s) (hp : Sub 0x2070 K.may) : ∃ t, execCaneLeaseExpiry s = .next t ∧ Keeps K t := by
  refine ⟨_, rfl, ?_⟩
  repeat' first
    | with_reducible assumption
    | exact sub_mono hp (by decide)
    | exact Or.inr rfl
    | exact Or.inl (may_of hp (by decide))
    | simp only [↓keeps_mk]
    | refine keepsOf_upd ?_ rfl rfl rfl rfl rfl rfl ?_ ?_ ?_ ?_ ?_ ?_ ?_ ?_ ?_ ?_ ?_ ?_ ?_ ?_ ?_ ?_ ?_ ?_ ?_ ?_ ?_ ?_
    | with_reducible apply keeps_leaseExpire
    | dsimp -zeta -zetaHave only


theorem keeps_execTunnelledCaneReceive (a b s) (h2 : Keeps K s) (hp : Sub 0x7FFFFF K.may) : ∃ t, execTunnelledCaneReceive a b s = .next t ∧ Keeps K t := by
  refine ⟨_, rfl, ?_⟩
  repeat' first
    | with_reducible assumption
    | exact sub_mono hp (by decide)
    | exact Or.inr rfl
    | exact Or.inl (may_of hp (by decide))
    | simp only [↓keeps_mk]
    | refine keepsOf_upd ?_ rfl rfl rfl rfl rfl rfl ?_ ?_ ?_ ?_ ?_ ?_ ?_ ?_ ?_ ?_ ?_ ?_ ?_ ?_ ?_ ?_ ?_ ?_ ?_ ?_ ?_ ?_
    | with_reducible apply keeps_tunnelled
    | dsimp -zeta -zetaHave only


end Sys2Proof.Machine
end

