-- ==== Sys2Proof/Laws/KeepsCpu.lean ====
section
/-!
SUPPORT. What the operations of Machine/Cpu.lean keep.
-/
namespace Sys2Proof.Machine
open Sys2Proof

variable {K : Keeping}

theorem keeps_xw (a b c s) (h3 : Keeps K s) (hp : Sub 0x20 K.may) : Keeps K (xw a b c s) := by
  unfold xw
  repeat' first
    | with_reducible assumption
    | exact sub_mono hp (by decide)
    | with_reducible apply keeps_updCore
    | with_reducible refine keeps_of_fst (by with_reducible assumption) ?_
    | dsimp -zeta -zetaHave only
    | split


theorem keeps_updCsr (a b s) (h2 : Keeps K s) (hp : Sub 0x20 K.may) : Keeps K (updCsr a b s) := by
  unfold updCsr
  repeat' first
    | with_reducible assumption
    | exact sub_mono hp (by decide)
    | with_reducible apply keeps_updCore
    | dsimp -zeta -zetaHave only


theorem keeps_coreLoad (a b c s) (h3 : Keeps K s) (hp : Sub 0x242067 K.may) : Keeps K (coreLoad a b c s).1 := by
  unfold coreLoad
  repeat' first
    | with_reducible assumption
    | exact sub_mono hp (by decide)
    | (extract_lets +onlyGivenNames x; clear_value x)
    | extract_lets +onlyGivenNames x
    | with_reducible apply keeps_regRead
    | with_reducible apply keeps_rd
    | with_reducible refine keeps_of_fst (by with_reducible assumption) ?_
    | dsimp -zeta -zetaHave only
    | split


theorem keeps_coreStore (a b c d s) (h4 : Keeps K s) (hp : Sub 0x7FFFFF K.may) : Keeps K (coreStore a b c d s).1 := by
  unfold coreStore
  repeat' first
    | with_reducible assumption
    | exact sub_mono hp (by decide)
    | (extract_lets +onlyGivenNames x; clear_value x)
    | extract_lets +onlyGivenNames x
    | with_reducible apply keeps_regWrite
    | with_reducible apply keeps_wr
    | with_reducible refine keeps_of_fst (by with_reducible assumption) ?_
    | dsimp -zeta -zetaHave only
    | split


theorem keeps_icacheFetch (a b c s) (h3 : Keeps K s) (hp : Sub 0x65 K.may) : Keeps K (icacheFetch a b c s).1 := by
  unfold icacheFetch
  repeat' first
    | with_reducible assumption
    | exact sub_mono hp (by decide)
    | intro _
    | (extract_lets +onlyGivenNames x; have hx : ∀ y0, Keeps K y0 → Keeps K (x y0).1; (on_goal 2 => clear_value x); (on_goal 1 => unfold x; clear x))
    | (extract_lets +onlyGivenNames x; clear_value x)
    | extract_lets +onlyGivenNames x
    | with_reducible apply keeps_rd
    | with_reducible apply keeps_updCore
    | with_reducible apply keeps_free
    | with_reducible apply_assumption -exfalso -symm
    | with_reducible refine keeps_of_fst (by with_reducible assumption) ?_
    | dsimp -zeta -zetaHave only
    | split


theorem keeps_fetchHalf (a b s) (h2 : Keeps K s) (hp : Sub 0x65 K.may) : Keeps K (fetchHalf a b s).1 := by
  unfold fetchHalf
  repeat' first
    | with_reducible assumption
    | exact sub_mono hp (by decide)
    | (extract_lets +onlyGivenNames x; clear_value x)
    | extract_lets +onlyGivenNames x
    | with_reducible apply keeps_rd
    | with_reducible apply keeps_icacheFetch
    | with_reducible refine keeps_of_fst (by with_reducible assumption) ?_
    | dsimp -zeta -zetaHave only
    | split


theorem keeps_fetchInstr (a s) (h1 : Keeps K s) (hp : Sub 0x65 K.may) : Keeps K (fetchInstr a s).1 := by
  unfold fetchInstr
  repeat' first
    | with_reducible assumption
    | exact sub_mono hp (by decide)
    | (extract_lets +onlyGivenNames x; clear_value x)
    | extract_lets +onlyGivenNames x
    | with_reducible apply keeps_fetchHalf
    | with_reducible refine keeps_of_fst (by with_reducible assumption) ?_
    | dsimp -zeta -zetaHave only
    | split


theorem keeps_csrRead (a b s) (h2 : Keeps K s) (hp : Sub 0x60 K.may) : Keeps K (csrRead a b s).1 := by
  unfold csrRead
  repeat' first
    | with_reducible assumption
    | exact sub_mono hp (by decide)
    | with_reducible apply keeps_takeTask
    | with_reducible refine keeps_of_fst (by with_reducible assumption) ?_
    | dsimp -zeta -zetaHave only
    | split


theorem keeps_csrWrite (a b c s) (h3 : Keeps K s) (hp : Sub 0x60 K.may) : Keeps K (csrWrite a b c s) := by
  unfold csrWrite
  repeat' first
    | with_reducible assumption
    | exact (sub_mono hp (by decide))
    | with_reducible apply keeps_ite
    | with_reducible apply keeps_updCsr
    | with_reducible apply keeps_updCore
    | with_reducible apply keeps_arrivePriv
    | with_reducible apply keeps_endTask
    | with_reducible apply keeps_postTask
    | dsimp only


theorem keeps_takeTrap (a b c s) (h3 : Keeps K s) (hp : Sub 0x20 K.may) : Keeps K (takeTrap a b c s) := by
  unfold takeTrap
  repeat' first
    | with_reducible assumption
    | exact sub_mono hp (by decide)
    | (extract_lets +onlyGivenNames x; have hx : Keeps K x; (on_goal 2 => clear_value x); (on_goal 1 => unfold x; clear x))
    | (extract_lets +onlyGivenNames x; have hx : Keeps K x; (on_goal 1 => unfold x; clear x))
    | (extract_lets +onlyGivenNames x; clear_value x)
    | extract_lets +onlyGivenNames x
    | with_reducible apply keeps_updCore
    | with_reducible apply keeps_present
    | with_reducible apply keeps_bump
    | with_reducible refine keeps_of_fst (by with_reducible assumption) ?_
    | dsimp -zeta -zetaHave only
    | split


theorem keeps_mret (a s) (h1 : Keeps K s) (hp : Sub 0x20 K.may) : Keeps K (mret a s).1 := by
  unfold mret
  repeat' first
    | with_reducible assumption
    | exact sub_mono hp (by decide)
    | (extract_lets +onlyGivenNames x; clear_value x)
    | extract_lets +onlyGivenNames x
    | with_reducible apply keeps_updCore
    | with_reducible refine keeps_of_fst (by with_reducible assumption) ?_
    | dsimp -zeta -zetaHave only
    | split


theorem keeps_waitCore (a s) (h1 : Keeps K s) (hp : Sub 0x64 K.may) : Keeps K (waitCore a s) := by
  unfold waitCore
  repeat' first
    | with_reducible assumption
    | exact sub_mono hp (by decide)
    | with_reducible apply keeps_presentAll
    | with_reducible apply keeps_coreMask
    | with_reducible apply keeps_coreTo
    | with_reducible apply keeps_present
    | with_reducible apply keeps_updCore
    | with_reducible refine keeps_of_fst (by with_reducible assumption) ?_
    | dsimp -zeta -zetaHave only
    | split


theorem keeps_dtret (a s) (h1 : Keeps K s) (hp : Sub 0x20 K.may) : Keeps K (dtret a s) := by
  unfold dtret
  repeat' first
    | with_reducible assumption
    | exact sub_mono hp (by decide)
    | (extract_lets +onlyGivenNames x; have hx : Keeps K x; (on_goal 2 => clear_value x); (on_goal 1 => unfold x; clear x))
    | (extract_lets +onlyGivenNames x; have hx : Keeps K x; (on_goal 1 => unfold x; clear x))
    | with_reducible apply keeps_endService
    | with_reducible apply keeps_updCore
    | with_reducible apply keeps_presentAll
    | with_reducible refine keeps_of_fst (by with_reducible assumption) ?_
    | dsimp -zeta -zetaHave only
    | split


theorem keeps_vectorDone (a s) (h1 : Keeps K s) (hp : Sub 0x65 K.may) : Keeps K (vectorDone a s) := by
  unfold vectorDone
  repeat' first
    | with_reducible assumption
    | exact sub_mono hp (by decide)
    | (extract_lets +onlyGivenNames x; have hx : Keeps K x; (on_goal 2 => clear_value x); (on_goal 1 => unfold x; clear x))
    | (extract_lets +onlyGivenNames x; have hx : Keeps K x; (on_goal 1 => unfold x; clear x))
    | (extract_lets +onlyGivenNames x; clear_value x)
    | extract_lets +onlyGivenNames x
    | with_reducible apply keeps_rd
    | with_reducible apply keeps_updCore
    | with_reducible apply keeps_setSrc
    | with_reducible apply keeps_bump
    | with_reducible apply keeps_presentAll
    | with_reducible apply keeps_free
    | with_reducible apply keeps_takeTrap
    | with_reducible refine keeps_of_fst (by with_reducible assumption) ?_
    | dsimp -zeta -zetaHave only
    | split


theorem keeps_atomic (a b s) (h2 : Keeps K s) (hp : Sub 0x7FFFFF K.may) : Keeps K (atomic a b s).1 := by
  unfold atomic
  repeat' first
    | with_reducible assumption
    | exact sub_mono hp (by decide)
    | intro _
    | (extract_lets +onlyGivenNames x; have hx : Keeps K x; (on_goal 2 => clear_value x); (on_goal 1 => unfold x; clear x))
    | (extract_lets +onlyGivenNames x; have hx : Keeps K x; (on_goal 1 => unfold x; clear x))
    | (extract_lets +onlyGivenNames x; have hx : ∀ y0 y1, Keeps K y0 → Keeps K (x y0 y1).1; (on_goal 2 => clear_value x); (on_goal 1 => unfold x; clear x))
    | (extract_lets +onlyGivenNames x; clear_value x)
    | extract_lets +onlyGivenNames x
    | with_reducible apply keeps_coreLoad
    | with_reducible apply keeps_xw
    | with_reducible apply keeps_updCore
    | with_reducible apply keeps_coreStore
    | with_reducible apply_assumption -exfalso -symm
    | with_reducible refine keeps_of_fst (by with_reducible assumption) ?_
    | dsimp -zeta -zetaHave only
    | split


theorem keeps_csrInstr (a b s) (h2 : Keeps K s) (hp : Sub 0x60 K.may) : KeepsO K (csrInstr a b s) := by
  unfold csrInstr
  repeat' first
    | with_reducible assumption
    | exact sub_mono hp (by decide)
    | intro _
    | (extract_lets +onlyGivenNames x; have hx : Keeps K x; (on_goal 2 => clear_value x); (on_goal 1 => unfold x; clear x))
    | (extract_lets +onlyGivenNames x; have hx : Keeps K x; (on_goal 1 => unfold x; clear x))
    | (extract_lets +onlyGivenNames x; clear_value x)
    | extract_lets +onlyGivenNames x
    | with_reducible apply keeps_csrRead
    | with_reducible apply keeps_csrWrite
    | with_reducible apply keeps_xw
    | with_reducible refine keeps_of_fst (by with_reducible assumption) ?_
    | with_reducible refine keepsO_some ?_
    | with_reducible exact keepsO_none
    | with_reducible apply keepsO_map
    | dsimp -zeta -zetaHave only
    | split


theorem keeps_rvExec (a b c d s) (h4 : Keeps K s) (hp : Sub 0x7FFFFF K.may) : Keeps K (rvExec a b c d s).1 := by
  unfold rvExec
  repeat' first
    | with_reducible assumption
    | exact sub_mono hp (by decide)
    | intro _
    | (extract_lets +onlyGivenNames x; have hx : Keeps K x; (on_goal 2 => clear_value x); (on_goal 1 => unfold x; clear x))
    | (extract_lets +onlyGivenNames x; have hx : Keeps K x; (on_goal 1 => unfold x; clear x))
    | (extract_lets +onlyGivenNames x; have hx : Keeps K x.1; (on_goal 2 => clear_value x); (on_goal 1 => unfold x; clear x))
    | (extract_lets +onlyGivenNames x; have hx : ∀ y0, Keeps K (x y0).1; (on_goal 2 => clear_value x); (on_goal 1 => unfold x; clear x))
    | (extract_lets +onlyGivenNames x; clear_value x)
    | extract_lets +onlyGivenNames x
    | with_reducible apply keeps_xw
    | with_reducible apply keeps_coreLoad
    | with_reducible apply keeps_coreStore
    | with_reducible apply keeps_atomic
    | with_reducible apply keeps_updCore
    | with_reducible apply keeps_dtret
    | with_reducible apply keeps_csrInstr
    | with_reducible apply keeps_mret
    | with_reducible apply_assumption -exfalso -symm
    | with_reducible refine keeps_of_fst (by with_reducible assumption) ?_
    | with_reducible refine keeps_of_some (by with_reducible assumption) ?_
    | with_reducible apply keeps_getD
    | dsimp -zeta -zetaHave only
    | split


theorem keeps_retire (a b c d s) (h4 : Keeps K s) (hp : Sub 0x20 K.may) : Keeps K (retire a b c d s) := by
  unfold retire
  repeat' first
    | with_reducible assumption
    | exact sub_mono hp (by decide)
    | (extract_lets +onlyGivenNames x; have hx : Keeps K x; (on_goal 2 => clear_value x); (on_goal 1 => unfold x; clear x))
    | (extract_lets +onlyGivenNames x; have hx : Keeps K x; (on_goal 1 => unfold x; clear x))
    | (extract_lets +onlyGivenNames x; clear_value x)
    | extract_lets +onlyGivenNames x
    | with_reducible apply keeps_bump
    | with_reducible apply keeps_updCore
    | with_reducible refine keeps_of_fst (by with_reducible assumption) ?_
    | dsimp -zeta -zetaHave only
    | split


theorem keeps_holdCore (a s) (h1 : Keeps K s) (hp : Sub 0x20 K.may) : Keeps K (holdCore a s) := by
  unfold holdCore
  repeat' first
    | with_reducible assumption
    | exact sub_mono hp (by decide)
    | with_reducible apply keeps_updCore
    | dsimp -zeta -zetaHave only


theorem keeps_freeCore (a s) (h1 : Keeps K s) (hp : Sub 0x20 K.may) : Keeps K (freeCore a s) := by
  unfold freeCore
  repeat' first
    | with_reducible assumption
    | exact sub_mono hp (by decide)
    | with_reducible apply keeps_updCore
    | dsimp -zeta -zetaHave only


theorem keeps_runInstr (a b c s) (h3 : Keeps K s) (hp : Sub 0x7FFFFF K.may) : Keeps K (runInstr a b c s) := by
  unfold runInstr
  repeat' first
    | with_reducible assumption
    | exact sub_mono hp (by decide)
    | (extract_lets +onlyGivenNames x; have hx : Keeps K x; (on_goal 2 => clear_value x); (on_goal 1 => unfold x; clear x))
    | (extract_lets +onlyGivenNames x; have hx : Keeps K x; (on_goal 1 => unfold x; clear x))
    | (extract_lets +onlyGivenNames x; clear_value x)
    | extract_lets +onlyGivenNames x
    | with_reducible apply keeps_takeTrap
    | with_reducible apply keeps_freeCore
    | with_reducible apply keeps_rvExec
    | with_reducible apply keeps_present
    | with_reducible apply keeps_retire
    | with_reducible apply keeps_waitCore
    | with_reducible refine keeps_of_fst (by with_reducible assumption) ?_
    | dsimp -zeta -zetaHave only
    | split


theorem keeps_stepCore (a s) (h1 : Keeps K s) (hp : Sub 0x7FFFFF K.may) : Keeps K (stepCore a s) := by
  unfold stepCore
  repeat' first
    | with_reducible assumption
    | exact sub_mono hp (by decide)
    | with_reducible apply keeps_fetchInstr
    | with_reducible apply keeps_holdCore
    | with_reducible apply keeps_takeTrap
    | with_reducible apply keeps_freeCore
    | with_reducible apply keeps_runInstr
    | with_reducible refine keeps_of_fst (by with_reducible assumption) ?_
    | dsimp -zeta -zetaHave only
    | split


theorem keeps_runWord (a b s) (h2 : Keeps K s) (hp : Sub 0x7FFFFF K.may) : Keeps K (runWord a b s) := by
  unfold runWord
  repeat' first
    | with_reducible assumption
    | exact sub_mono hp (by decide)
    | with_reducible apply keeps_runInstr
    | with_reducible apply keeps_holdCore
    | with_reducible refine keeps_of_fst (by with_reducible assumption) ?_
    | dsimp -zeta -zetaHave only
    | split


theorem keeps_execExecuteInstruction (a s) (h1 : Keeps K s) (hp : Sub 0x7FFFFF K.may) : ∃ t, execExecuteInstruction a s = .next t ∧ Keeps K t := by
  refine ⟨_, rfl, ?_⟩
  repeat' first
    | with_reducible assumption
    | exact sub_mono hp (by decide)
    | exact Or.inr rfl
    | exact Or.inl (may_of hp (by decide))
    | simp only [↓keeps_mk]
    | refine keepsOf_upd ?_ rfl rfl rfl rfl rfl rfl ?_ ?_ ?_ ?_ ?_ ?_ ?_ ?_ ?_ ?_ ?_ ?_ ?_ ?_ ?_ ?_ ?_ ?_ ?_ ?_ ?_ ?_
    | with_reducible apply keeps_stepCore
    | dsimp -zeta -zetaHave only


theorem keeps_execWfi (a s) (h1 : Keeps K s) (hp : Sub 0x7FFFFF K.may) : ∃ t, execWfi a s = .next t ∧ Keeps K t := by
  refine ⟨_, rfl, ?_⟩
  repeat' first
    | with_reducible assumption
    | exact sub_mono hp (by decide)
    | exact Or.inr rfl
    | exact Or.inl (may_of hp (by decide))
    | simp only [↓keeps_mk]
    | refine keepsOf_upd ?_ rfl rfl rfl rfl rfl rfl ?_ ?_ ?_ ?_ ?_ ?_ ?_ ?_ ?_ ?_ ?_ ?_ ?_ ?_ ?_ ?_ ?_ ?_ ?_ ?_ ?_ ?_
    | with_reducible apply keeps_runWord
    | dsimp -zeta -zetaHave only


theorem keeps_execDtret (a s) (h1 : Keeps K s) (hp : Sub 0x7FFFFF K.may) : ∃ t, execDtret a s = .next t ∧ Keeps K t := by
  refine ⟨_, rfl, ?_⟩
  repeat' first
    | with_reducible assumption
    | exact sub_mono hp (by decide)
    | exact Or.inr rfl
    | exact Or.inl (may_of hp (by decide))
    | simp only [↓keeps_mk]
    | refine keepsOf_upd ?_ rfl rfl rfl rfl rfl rfl ?_ ?_ ?_ ?_ ?_ ?_ ?_ ?_ ?_ ?_ ?_ ?_ ?_ ?_ ?_ ?_ ?_ ?_ ?_ ?_ ?_ ?_
    | with_reducible apply keeps_runWord
    | dsimp -zeta -zetaHave only


theorem keeps_execDttake (a b s) (h2 : Keeps K s) (hp : Sub 0x7FFFFF K.may) : ∃ t, execDttake a b s = .next t ∧ Keeps K t := by
  refine ⟨_, rfl, ?_⟩
  repeat' first
    | with_reducible assumption
    | exact sub_mono hp (by decide)
    | exact Or.inr rfl
    | exact Or.inl (may_of hp (by decide))
    | simp only [↓keeps_mk]
    | refine keepsOf_upd ?_ rfl rfl rfl rfl rfl rfl ?_ ?_ ?_ ?_ ?_ ?_ ?_ ?_ ?_ ?_ ?_ ?_ ?_ ?_ ?_ ?_ ?_ ?_ ?_ ?_ ?_ ?_
    | with_reducible apply keeps_runWord
    | dsimp -zeta -zetaHave only


theorem keeps_execDtdone (a b s) (h2 : Keeps K s) (hp : Sub 0x7FFFFF K.may) : ∃ t, execDtdone a b s = .next t ∧ Keeps K t := by
  refine ⟨_, rfl, ?_⟩
  repeat' first
    | with_reducible assumption
    | exact sub_mono hp (by decide)
    | exact Or.inr rfl
    | exact Or.inl (may_of hp (by decide))
    | simp only [↓keeps_mk]
    | refine keepsOf_upd ?_ rfl rfl rfl rfl rfl rfl ?_ ?_ ?_ ?_ ?_ ?_ ?_ ?_ ?_ ?_ ?_ ?_ ?_ ?_ ?_ ?_ ?_ ?_ ?_ ?_ ?_ ?_
    | with_reducible apply keeps_runWord
    | dsimp -zeta -zetaHave only


theorem keeps_execDtpost (a b s) (h2 : Keeps K s) (hp : Sub 0x7FFFFF K.may) : ∃ t, execDtpost a b s = .next t ∧ Keeps K t := by
  refine ⟨_, rfl, ?_⟩
  repeat' first
    | with_reducible assumption
    | exact sub_mono hp (by decide)
    | exact Or.inr rfl
    | exact Or.inl (may_of hp (by decide))
    | simp only [↓keeps_mk]
    | refine keepsOf_upd ?_ rfl rfl rfl rfl rfl rfl ?_ ?_ ?_ ?_ ?_ ?_ ?_ ?_ ?_ ?_ ?_ ?_ ?_ ?_ ?_ ?_ ?_ ?_ ?_ ?_ ?_ ?_
    | with_reducible apply keeps_runWord
    | dsimp -zeta -zetaHave only


theorem keeps_execFenceI (a s) (h1 : Keeps K s) (hp : Sub 0x7FFFFF K.may) : ∃ t, execFenceI a s = .next t ∧ Keeps K t := by
  refine ⟨_, rfl, ?_⟩
  repeat' first
    | with_reducible assumption
    | exact sub_mono hp (by decide)
    | exact Or.inr rfl
    | exact Or.inl (may_of hp (by decide))
    | simp only [↓keeps_mk]
    | refine keepsOf_upd ?_ rfl rfl rfl rfl rfl rfl ?_ ?_ ?_ ?_ ?_ ?_ ?_ ?_ ?_ ?_ ?_ ?_ ?_ ?_ ?_ ?_ ?_ ?_ ?_ ?_ ?_ ?_
    | with_reducible apply keeps_runWord
    | dsimp -zeta -zetaHave only


theorem keeps_execVectorFetchDone (a s) (h1 : Keeps K s) (hp : Sub 0x65 K.may) : ∃ t, execVectorFetchDone a s = .next t ∧ Keeps K t := by
  refine ⟨_, rfl, ?_⟩
  repeat' first
    | with_reducible assumption
    | exact sub_mono hp (by decide)
    | exact Or.inr rfl
    | exact Or.inl (may_of hp (by decide))
    | simp only [↓keeps_mk]
    | refine keepsOf_upd ?_ rfl rfl rfl rfl rfl rfl ?_ ?_ ?_ ?_ ?_ ?_ ?_ ?_ ?_ ?_ ?_ ?_ ?_ ?_ ?_ ?_ ?_ ?_ ?_ ?_ ?_ ?_
    | with_reducible apply keeps_vectorDone
    | dsimp -zeta -zetaHave only


end Sys2Proof.Machine
end

