-- ==== Sys2Proof/Laws/KeepsDmaRun.lean ====
section
/-!
SUPPORT. What the operations of Machine/DmaRun.lean keep.
-/
namespace Sys2Proof.Machine
open Sys2Proof

variable {K : Keeping}

theorem keeps_badDesc (a s) (h1 : Keeps K s) (hp : Sub 0x20060 K.may) : Keeps K (badDesc a s) := by
  unfold badDesc
  repeat' first
    | with_reducible assumption
    | exact sub_mono hp (by decide)
    | (extract_lets +onlyGivenNames x; have hx : Keeps K x; (on_goal 2 => clear_value x); (on_goal 1 => unfold x; clear x))
    | (extract_lets +onlyGivenNames x; have hx : Keeps K x; (on_goal 1 => unfold x; clear x))
    | with_reducible apply keeps_bump
    | with_reducible apply keeps_updDma
    | with_reducible apply keeps_evt
    | with_reducible apply keeps_chSet
    | dsimp -zeta -zetaHave only


theorem keeps_takeDesc (a b s) (h2 : Keeps K s) (hp : Sub 0x20000 K.may) : Keeps K (takeDesc a b s) := by
  unfold takeDesc
  repeat' first
    | with_reducible assumption
    | exact sub_mono hp (by decide)
    | (extract_lets +onlyGivenNames x; clear_value x)
    | extract_lets +onlyGivenNames x
    | with_reducible apply keeps_chSet
    | with_reducible apply keeps_updDma
    | dsimp -zeta -zetaHave only


theorem keeps_descFetch (a s) (h1 : Keeps K s) (hp : Sub 0x262067 K.may) : Keeps K (descFetch a s) := by
  unfold descFetch
  split
  · exact h1
  · extract_lets +onlyGivenNames s1
    have k1 : Keeps K s1 := keeps_chSet _ _ _ _ h1
    clear_value s1
    have k2 := keeps_dmaReadN (chWho s1 a) (chCur s1 a) 32 s1 k1 (sub_mono hp (by decide))
    generalize dmaReadN (chWho s1 a) (chCur s1 a) 32 s1 = p at k2 ⊢
    obtain ⟨t, b, e⟩ := p
    cases e with
    | some x => exact keeps_dmaError _ _ _ k2 (sub_mono hp (by decide))
    | none =>
      simp only
      split
      · exact keeps_badDesc _ _ k2 (sub_mono hp (by decide))
      · split
        · exact keeps_takeDesc _ _ _ k2 (sub_mono hp (by decide))
        · generalize (if (descOf b (dmaOf t a)).op = opGather then (descOf b (dmaOf t a)).src else (descOf b (dmaOf t a)).dst) = x
          generalize 16 * leVal (slice b 21 2) = y
          have k3 := keeps_dmaReadN (chWho t a) x y t k2 (sub_mono hp (by decide))
          generalize dmaReadN (chWho t a) x y t = p at k3 ⊢
          obtain ⟨u, l, e⟩ := p
          cases e with
          | some x => exact keeps_dmaError _ _ _ k3 (sub_mono hp (by decide))
          | none =>
            simp only
            split
            · exact keeps_badDesc _ _ k3 (sub_mono hp (by decide))
            · split
              · exact keeps_badDesc _ _ k3 (sub_mono hp (by decide))
              · exact keeps_takeDesc _ _ _ k3 (sub_mono hp (by decide))


theorem keeps_dmaPageWrite (a b c s) (h3 : Keeps K s) (hp : Sub 0x7FFFFF K.may) : Keeps K (dmaPageWrite a b c s) := by
  unfold dmaPageWrite
  repeat' first
    | with_reducible assumption
    | exact sub_mono hp (by decide)
    | (extract_lets +onlyGivenNames x; have hx : Keeps K x; (on_goal 2 => clear_value x); (on_goal 1 => unfold x; clear x))
    | (extract_lets +onlyGivenNames x; have hx : Keeps K x; (on_goal 1 => unfold x; clear x))
    | (extract_lets +onlyGivenNames x; clear_value x)
    | extract_lets +onlyGivenNames x
    | exact Or.inr rfl
    | exact Or.inl (may_of hp (by decide))
    | simp only [↓keeps_mk]
    | refine keepsOf_upd ?_ rfl rfl rfl rfl rfl rfl ?_ ?_ ?_ ?_ ?_ ?_ ?_ ?_ ?_ ?_ ?_ ?_ ?_ ?_ ?_ ?_ ?_ ?_ ?_ ?_ ?_ ?_
    | with_reducible apply keeps_regWrite
    | with_reducible refine keeps_of_fst (by with_reducible assumption) ?_
    | dsimp -zeta -zetaHave only
    | split


theorem keeps_dmaWrite (a b c d s) (h4 : Keeps K s) (hp : Sub 0x7FFFFF K.may) : Keeps K (dmaWrite a b c d s).1 := by
  induction b generalizing c d s <;> unfold dmaWrite
  repeat' first
    | with_reducible assumption
    | exact sub_mono hp (by decide)
    | (extract_lets +onlyGivenNames x; have hx : Keeps K x; (on_goal 2 => clear_value x); (on_goal 1 => unfold x; clear x))
    | (extract_lets +onlyGivenNames x; have hx : Keeps K x; (on_goal 1 => unfold x; clear x))
    | (extract_lets +onlyGivenNames x; clear_value x)
    | extract_lets +onlyGivenNames x
    | with_reducible apply keeps_dmaPageWrite
    | with_reducible apply keeps_wr
    | with_reducible refine keeps_of_fst (by with_reducible assumption) ?_
    | with_reducible apply_assumption -exfalso -symm
    | dsimp -zeta -zetaHave only
    | split


theorem keeps_dmaMove (a b s) (h2 : Keeps K s) (hp : Sub 0x7FFFFF K.may) : Keeps K (dmaMove a b s).1 := by
  induction b generalizing s <;> unfold dmaMove
  repeat' first
    | with_reducible assumption
    | exact sub_mono hp (by decide)
    | with_reducible apply keeps_dmaReadN
    | with_reducible apply keeps_dmaWrite
    | with_reducible refine keeps_of_fst (by with_reducible assumption) ?_
    | with_reducible apply_assumption -exfalso -symm
    | dsimp -zeta -zetaHave only
    | split


theorem keeps_mismatch (a b s) (h2 : Keeps K s) (hp : Sub 0x20060 K.may) : Keeps K (mismatch a b s) := by
  unfold mismatch
  repeat' first
    | with_reducible assumption
    | exact sub_mono hp (by decide)
    | (extract_lets +onlyGivenNames x; have hx : Keeps K x; (on_goal 2 => clear_value x); (on_goal 1 => unfold x; clear x))
    | (extract_lets +onlyGivenNames x; have hx : Keeps K x; (on_goal 1 => unfold x; clear x))
    | with_reducible apply keeps_updDma
    | with_reducible apply keeps_chSetAddr
    | with_reducible apply keeps_chSet
    | with_reducible apply keeps_evt
    | with_reducible refine keeps_of_fst (by with_reducible assumption) ?_
    | dsimp -zeta -zetaHave only
    | split


theorem keeps_dmaWork (a b c s) (h3 : Keeps K s) (hp : Sub 0x7FFFFF K.may) : Keeps K (dmaWork a b c s).1 := by
  unfold dmaWork
  repeat' first
    | with_reducible assumption
    | exact sub_mono hp (by decide)
    | (extract_lets +onlyGivenNames x; have hx : Keeps K x; (on_goal 2 => clear_value x); (on_goal 1 => unfold x; clear x))
    | (extract_lets +onlyGivenNames x; have hx : Keeps K x; (on_goal 1 => unfold x; clear x))
    | (extract_lets +onlyGivenNames x; clear_value x)
    | extract_lets +onlyGivenNames x
    | with_reducible apply keeps_dmaWrite
    | with_reducible apply keeps_dmaReadN
    | with_reducible apply keeps_mismatch
    | with_reducible apply keeps_dmaMove
    | with_reducible refine keeps_of_fst (by with_reducible assumption) ?_
    | dsimp -zeta -zetaHave only
    | split


theorem keeps_dmaCount (a b s) (h2 : Keeps K s) (hp : Sub 0x20000 K.may) : Keeps K (dmaCount a b s) := by
  unfold dmaCount
  repeat' first
    | with_reducible assumption
    | exact sub_mono hp (by decide)
    | (extract_lets +onlyGivenNames x; clear_value x)
    | extract_lets +onlyGivenNames x
    | exact Or.inr rfl
    | exact Or.inl (may_of hp (by decide))
    | simp only [↓keeps_mk]
    | refine keepsOf_upd ?_ rfl rfl rfl rfl rfl rfl ?_ ?_ ?_ ?_ ?_ ?_ ?_ ?_ ?_ ?_ ?_ ?_ ?_ ?_ ?_ ?_ ?_ ?_ ?_ ?_ ?_ ?_
    | with_reducible apply keeps_bump
    | dsimp -zeta -zetaHave only


theorem keeps_dmaAdvance (a b s) (h2 : Keeps K s) (hp : Sub 0x7FFFFF K.may) : Keeps K (dmaAdvance a b s).1 := by
  unfold dmaAdvance
  repeat' first
    | with_reducible assumption
    | exact sub_mono hp (by decide)
    | (extract_lets +onlyGivenNames x; have hx : Keeps K x; (on_goal 2 => clear_value x); (on_goal 1 => unfold x; clear x))
    | (extract_lets +onlyGivenNames x; have hx : Keeps K x; (on_goal 1 => unfold x; clear x))
    | (extract_lets +onlyGivenNames x; clear_value x)
    | extract_lets +onlyGivenNames x
    | with_reducible apply keeps_dmaWork
    | with_reducible apply keeps_chSet
    | with_reducible apply keeps_setResume
    | with_reducible apply keeps_dmaCount
    | with_reducible refine keeps_of_fst (by with_reducible assumption) ?_
    | dsimp -zeta -zetaHave only
    | split


theorem keeps_descBoundary (a b s) (h2 : Keeps K s) (hp : Sub 0x20000 K.may) : Keeps K (descBoundary a b s) := by
  unfold descBoundary
  repeat' first
    | with_reducible assumption
    | exact sub_mono hp (by decide)
    | (extract_lets +onlyGivenNames x; have hx : Keeps K x; (on_goal 2 => clear_value x); (on_goal 1 => unfold x; clear x))
    | (extract_lets +onlyGivenNames x; have hx : Keeps K x; (on_goal 1 => unfold x; clear x))
    | with_reducible apply keeps_updDma
    | with_reducible apply keeps_setResume
    | with_reducible apply keeps_chSet
    | with_reducible apply keeps_setCur
    | with_reducible refine keeps_of_fst (by with_reducible assumption) ?_
    | dsimp -zeta -zetaHave only
    | split


theorem keeps_descDone (a s) (h1 : Keeps K s) (hp : Sub 0x262067 K.may) : Keeps K (descDone a s) := by
  unfold descDone
  repeat' first
    | with_reducible assumption
    | exact sub_mono hp (by decide)
    | (extract_lets +onlyGivenNames x; have hx : Keeps K x; (on_goal 2 => clear_value x); (on_goal 1 => unfold x; clear x))
    | (extract_lets +onlyGivenNames x; have hx : Keeps K x; (on_goal 1 => unfold x; clear x))
    | (extract_lets +onlyGivenNames x; clear_value x)
    | extract_lets +onlyGivenNames x
    | with_reducible apply keeps_bump
    | with_reducible apply keeps_chainEnds
    | with_reducible apply keeps_descBoundary
    | with_reducible apply keeps_reread
    | with_reducible apply keeps_dmaError
    | with_reducible refine keeps_of_fst (by with_reducible assumption) ?_
    | dsimp -zeta -zetaHave only
    | split


theorem keeps_descComplete (a s) (h1 : Keeps K s) (hp : Sub 0x7FFFFF K.may) : Keeps K (descComplete a s) := by
  unfold descComplete
  repeat' first
    | with_reducible assumption
    | exact sub_mono hp (by decide)
    | with_reducible apply keeps_dmaAdvance
    | with_reducible apply keeps_dmaError
    | with_reducible apply keeps_descDone
    | with_reducible refine keeps_of_fst (by with_reducible assumption) ?_
    | dsimp -zeta -zetaHave only
    | split


theorem keeps_beatError (a b c s) (h3 : Keeps K s) (hp : Sub 0x7FFFFF K.may) : Keeps K (beatError a b c s) := by
  unfold beatError
  repeat' first
    | with_reducible assumption
    | exact sub_mono hp (by decide)
    | (extract_lets +onlyGivenNames x; have hx : Keeps K x; (on_goal 2 => clear_value x); (on_goal 1 => unfold x; clear x))
    | (extract_lets +onlyGivenNames x; have hx : Keeps K x; (on_goal 1 => unfold x; clear x))
    | (extract_lets +onlyGivenNames x; clear_value x)
    | extract_lets +onlyGivenNames x
    | with_reducible apply keeps_dmaAdvance
    | with_reducible apply keeps_setResume
    | with_reducible apply keeps_dmaError
    | with_reducible refine keeps_of_fst (by with_reducible assumption) ?_
    | dsimp -zeta -zetaHave only
    | split


theorem keeps_execDescriptorFetch (a s) (h1 : Keeps K s) (hp : Sub 0x262067 K.may) : ∃ t, execDescriptorFetch a s = .next t ∧ Keeps K t := by
  refine ⟨_, rfl, ?_⟩
  repeat' first
    | with_reducible assumption
    | exact sub_mono hp (by decide)
    | exact Or.inr rfl
    | exact Or.inl (may_of hp (by decide))
    | simp only [↓keeps_mk]
    | refine keepsOf_upd ?_ rfl rfl rfl rfl rfl rfl ?_ ?_ ?_ ?_ ?_ ?_ ?_ ?_ ?_ ?_ ?_ ?_ ?_ ?_ ?_ ?_ ?_ ?_ ?_ ?_ ?_ ?_
    | with_reducible apply keeps_descFetch
    | dsimp -zeta -zetaHave only


theorem keeps_execDescriptorComplete (a s) (h1 : Keeps K s) (hp : Sub 0x7FFFFF K.may) : ∃ t, execDescriptorComplete a s = .next t ∧ Keeps K t := by
  refine ⟨_, rfl, ?_⟩
  repeat' first
    | with_reducible assumption
    | exact sub_mono hp (by decide)
    | exact Or.inr rfl
    | exact Or.inl (may_of hp (by decide))
    | simp only [↓keeps_mk]
    | refine keepsOf_upd ?_ rfl rfl rfl rfl rfl rfl ?_ ?_ ?_ ?_ ?_ ?_ ?_ ?_ ?_ ?_ ?_ ?_ ?_ ?_ ?_ ?_ ?_ ?_ ?_ ?_ ?_ ?_
    | with_reducible apply keeps_descComplete
    | dsimp -zeta -zetaHave only


theorem keeps_execDmaBeatError (a b c s) (h3 : Keeps K s) (hp : Sub 0x7FFFFF K.may) : ∃ t, execDmaBeatError a b c s = .next t ∧ Keeps K t := by
  refine ⟨_, rfl, ?_⟩
  repeat' first
    | with_reducible assumption
    | exact sub_mono hp (by decide)
    | exact Or.inr rfl
    | exact Or.inl (may_of hp (by decide))
    | simp only [↓keeps_mk]
    | refine keepsOf_upd ?_ rfl rfl rfl rfl rfl rfl ?_ ?_ ?_ ?_ ?_ ?_ ?_ ?_ ?_ ?_ ?_ ?_ ?_ ?_ ?_ ?_ ?_ ?_ ?_ ?_ ?_ ?_
    | with_reducible apply keeps_beatError
    | dsimp -zeta -zetaHave only


end Sys2Proof.Machine
end

