-- ==== Sys2Proof/Laws/KeepsJtag.lean ====
section
/-!
SUPPORT. What the operations of Machine/Jtag.lean keep.
-/
namespace Sys2Proof.Machine
open Sys2Proof

variable {K : Keeping}

theorem keeps_updTap (s b) (h0 : Keeps K s) (hp : Sub 0x2 K.may) : Keeps K (updTap s b) := by
  unfold updTap
  repeat' first
    | with_reducible assumption
    | exact sub_mono hp (by decide)
    | exact Or.inr rfl
    | exact Or.inl (may_of hp (by decide))
    | simp only [↓keeps_mk]
    | refine keepsOf_upd ?_ rfl rfl rfl rfl rfl rfl ?_ ?_ ?_ ?_ ?_ ?_ ?_ ?_ ?_ ?_ ?_ ?_ ?_ ?_ ?_ ?_ ?_ ?_ ?_ ?_ ?_ ?_
    | dsimp -zeta -zetaHave only


theorem keeps_driveBall (a b c s) (h3 : Keeps K s) : Keeps K (driveBall a b c s) := by
  unfold driveBall
  repeat' first
    | with_reducible assumption
    | (extract_lets +onlyGivenNames x; clear_value x)
    | extract_lets +onlyGivenNames x
    | with_reducible apply keeps_emit
    | with_reducible refine keeps_of_fst (by with_reducible assumption) ?_
    | dsimp -zeta -zetaHave only
    | split


theorem keeps_driveBoundary (s) (h0 : Keeps K s) : Keeps K (driveBoundary s) := by
  unfold driveBoundary
  repeat' first
    | with_reducible assumption
    | intro _
    | with_reducible apply keeps_driveBall
    | with_reducible apply keeps_foldl
    | with_reducible apply keeps_foldl_fst
    | dsimp -zeta -zetaHave only


theorem keeps_floatBalls (s) (h0 : Keeps K s) : Keeps K (floatBalls s) := by
  unfold floatBalls
  repeat' first
    | with_reducible assumption
    | intro _
    | with_reducible apply keeps_driveBall
    | with_reducible apply keeps_foldl
    | with_reducible apply keeps_foldl_fst
    | dsimp -zeta -zetaHave only


theorem keeps_shiftOut (a b s) (h2 : Keeps K s) : Keeps K (shiftOut a b s).1 := by
  unfold shiftOut
  repeat' first
    | with_reducible assumption
    | (extract_lets +onlyGivenNames x; clear_value x)
    | extract_lets +onlyGivenNames x
    | with_reducible apply keeps_emit
    | dsimp -zeta -zetaHave only


theorem keeps_ballsBack (s) (h0 : Keeps K s) : Keeps K (ballsBack s) := by
  unfold ballsBack
  repeat' first
    | with_reducible assumption
    | intro _
    | (extract_lets +onlyGivenNames x; have hx : Keeps K x; (on_goal 2 => clear_value x); (on_goal 1 => unfold x; clear x))
    | (extract_lets +onlyGivenNames x; have hx : Keeps K x; (on_goal 1 => unfold x; clear x))
    | with_reducible apply keeps_emit
    | with_reducible apply keeps_foldl
    | with_reducible apply keeps_foldl_fst
    | with_reducible refine keeps_of_fst (by with_reducible assumption) ?_
    | dsimp -zeta -zetaHave only
    | split


theorem keeps_setIr (a s) (h1 : Keeps K s) (hp : Sub 0x2 K.may) : Keeps K (setIr a s) := by
  unfold setIr
  repeat' first
    | with_reducible assumption
    | exact sub_mono hp (by decide)
    | (extract_lets +onlyGivenNames x; have hx : Keeps K x; (on_goal 2 => clear_value x); (on_goal 1 => unfold x; clear x))
    | (extract_lets +onlyGivenNames x; have hx : Keeps K x; (on_goal 1 => unfold x; clear x))
    | (extract_lets +onlyGivenNames x; clear_value x)
    | extract_lets +onlyGivenNames x
    | with_reducible apply keeps_updTap
    | with_reducible apply keeps_ballsBack
    | with_reducible refine keeps_of_fst (by with_reducible assumption) ?_
    | dsimp -zeta -zetaHave only
    | split


theorem keeps_loadIr (a s) (h1 : Keeps K s) (hp : Sub 0x2 K.may) : Keeps K (loadIr a s) := by
  unfold loadIr
  repeat' first
    | with_reducible assumption
    | exact sub_mono hp (by decide)
    | with_reducible apply keeps_setIr
    | with_reducible apply keeps_emit
    | dsimp -zeta -zetaHave only


theorem keeps_bypassScan (a s) (h1 : Keeps K s) : Keeps K (bypassScan a s) := by
  unfold bypassScan
  repeat' first
    | with_reducible assumption
    | with_reducible apply keeps_shiftOut
    | dsimp -zeta -zetaHave only


theorem keeps_boundaryIr (a s) (h1 : Keeps K s) (hp : Sub 0x2 K.may) : Keeps K (boundaryIr a s).1 := by
  unfold boundaryIr
  repeat' first
    | with_reducible assumption
    | exact sub_mono hp (by decide)
    | with_reducible apply keeps_updTap
    | with_reducible apply keeps_loadIr
    | with_reducible refine keeps_of_fst (by with_reducible assumption) ?_
    | dsimp -zeta -zetaHave only
    | split


theorem keeps_boundaryScan (a b s) (h2 : Keeps K s) (hp : Sub 0x2 K.may) : Keeps K (boundaryScan a b s) := by
  unfold boundaryScan
  repeat' first
    | with_reducible assumption
    | exact sub_mono hp (by decide)
    | with_reducible apply keeps_shiftOut
    | with_reducible apply keeps_updTap
    | with_reducible refine keeps_of_fst (by with_reducible assumption) ?_
    | dsimp -zeta -zetaHave only
    | split


theorem keeps_tapReset (s) (h0 : Keeps K s) (hp : Sub 0x2 K.may) : Keeps K (tapReset s) := by
  unfold tapReset
  repeat' first
    | with_reducible assumption
    | exact sub_mono hp (by decide)
    | with_reducible apply keeps_setIr
    | dsimp -zeta -zetaHave only


theorem keeps_extest (a b s) (h2 : Keeps K s) (hp : Sub 0x2 K.may) : Keeps K (extest a b s) := by
  unfold extest
  repeat' first
    | with_reducible assumption
    | exact sub_mono hp (by decide)
    | (extract_lets +onlyGivenNames x; have hx : Keeps K x; (on_goal 2 => clear_value x); (on_goal 1 => unfold x; clear x))
    | (extract_lets +onlyGivenNames x; have hx : Keeps K x; (on_goal 1 => unfold x; clear x))
    | with_reducible apply keeps_boundaryIr
    | with_reducible apply keeps_bypassScan
    | with_reducible apply keeps_driveBoundary
    | with_reducible apply keeps_boundaryScan
    | with_reducible refine keeps_of_fst (by with_reducible assumption) ?_
    | dsimp -zeta -zetaHave only
    | split


theorem keeps_clampBalls (a s) (h1 : Keeps K s) (hp : Sub 0x2 K.may) : Keeps K (clampBalls a s) := by
  unfold clampBalls
  repeat' first
    | with_reducible assumption
    | exact sub_mono hp (by decide)
    | with_reducible apply keeps_boundaryIr
    | with_reducible apply keeps_bypassScan
    | with_reducible apply keeps_driveBoundary
    | with_reducible refine keeps_of_fst (by with_reducible assumption) ?_
    | dsimp -zeta -zetaHave only
    | split


theorem keeps_highz (a s) (h1 : Keeps K s) (hp : Sub 0x2 K.may) : Keeps K (highz a s) := by
  unfold highz
  repeat' first
    | with_reducible assumption
    | exact sub_mono hp (by decide)
    | with_reducible apply keeps_boundaryIr
    | with_reducible apply keeps_bypassScan
    | with_reducible apply keeps_floatBalls
    | with_reducible refine keeps_of_fst (by with_reducible assumption) ?_
    | dsimp -zeta -zetaHave only
    | split


theorem keeps_dbgDone (a b c s) (h3 : Keeps K s) (hp : Sub 0x2 K.may) : Keeps K (dbgDone a b c s) := by
  unfold dbgDone
  repeat' first
    | with_reducible assumption
    | exact sub_mono hp (by decide)
    | with_reducible apply keeps_updTap
    | with_reducible apply keeps_free
    | with_reducible refine keeps_of_fst (by with_reducible assumption) ?_
    | dsimp -zeta -zetaHave only
    | split


theorem keeps_dbgRead (a s) (h1 : Keeps K s) (hp : Sub 0x242067 K.may) : Keeps K (dbgRead a s) := by
  unfold dbgRead
  repeat' first
    | with_reducible assumption
    | exact sub_mono hp (by decide)
    | (extract_lets +onlyGivenNames x; have hx : Keeps K x; (on_goal 2 => clear_value x); (on_goal 1 => unfold x; clear x))
    | (extract_lets +onlyGivenNames x; have hx : Keeps K x; (on_goal 1 => unfold x; clear x))
    | with_reducible apply keeps_loadIr
    | with_reducible apply keeps_dbgDone
    | with_reducible apply keeps_regRead
    | with_reducible apply keeps_rdWord
    | with_reducible refine keeps_of_fst (by with_reducible assumption) ?_
    | dsimp -zeta -zetaHave only
    | split


theorem keeps_dbgWrite (a b s) (h2 : Keeps K s) (hp : Sub 0x7FFFFF K.may) : Keeps K (dbgWrite a b s) := by
  unfold dbgWrite
  repeat' first
    | with_reducible assumption
    | exact sub_mono hp (by decide)
    | (extract_lets +onlyGivenNames x; have hx : Keeps K x; (on_goal 2 => clear_value x); (on_goal 1 => unfold x; clear x))
    | (extract_lets +onlyGivenNames x; have hx : Keeps K x; (on_goal 1 => unfold x; clear x))
    | with_reducible apply keeps_loadIr
    | with_reducible apply keeps_dbgDone
    | with_reducible apply keeps_regWrite
    | with_reducible apply keeps_wr
    | with_reducible refine keeps_of_fst (by with_reducible assumption) ?_
    | dsimp -zeta -zetaHave only
    | split


theorem keeps_dbgCapture (s) (h0 : Keeps K s) : Keeps K (dbgCapture s) := by
  unfold dbgCapture
  repeat' first
    | with_reducible assumption
    | with_reducible apply keeps_emit
    | dsimp -zeta -zetaHave only


theorem keeps_execJtagTapReset (s) (h0 : Keeps K s) (hp : Sub 0x2 K.may) : ∃ t, execJtagTapReset s = .next t ∧ Keeps K t := by
  refine ⟨_, rfl, ?_⟩
  repeat' first
    | with_reducible assumption
    | exact sub_mono hp (by decide)
    | exact Or.inr rfl
    | exact Or.inl (may_of hp (by decide))
    | simp only [↓keeps_mk]
    | refine keepsOf_upd ?_ rfl rfl rfl rfl rfl rfl ?_ ?_ ?_ ?_ ?_ ?_ ?_ ?_ ?_ ?_ ?_ ?_ ?_ ?_ ?_ ?_ ?_ ?_ ?_ ?_ ?_ ?_
    | with_reducible apply keeps_tapReset
    | dsimp -zeta -zetaHave only


theorem keeps_execExtest (a b s) (h2 : Keeps K s) (hp : Sub 0x2 K.may) : ∃ t, execExtest a b s = .next t ∧ Keeps K t := by
  refine ⟨_, rfl, ?_⟩
  repeat' first
    | with_reducible assumption
    | exact sub_mono hp (by decide)
    | exact Or.inr rfl
    | exact Or.inl (may_of hp (by decide))
    | simp only [↓keeps_mk]
    | refine keepsOf_upd ?_ rfl rfl rfl rfl rfl rfl ?_ ?_ ?_ ?_ ?_ ?_ ?_ ?_ ?_ ?_ ?_ ?_ ?_ ?_ ?_ ?_ ?_ ?_ ?_ ?_ ?_ ?_
    | with_reducible apply keeps_extest
    | dsimp -zeta -zetaHave only


theorem keeps_execSamplePreload (a b s) (h2 : Keeps K s) (hp : Sub 0x2 K.may) : ∃ t, execSamplePreload a b s = .next t ∧ Keeps K t := by
  refine ⟨_, rfl, ?_⟩
  repeat' first
    | with_reducible assumption
    | exact sub_mono hp (by decide)
    | exact Or.inr rfl
    | exact Or.inl (may_of hp (by decide))
    | simp only [↓keeps_mk]
    | refine keepsOf_upd ?_ rfl rfl rfl rfl rfl rfl ?_ ?_ ?_ ?_ ?_ ?_ ?_ ?_ ?_ ?_ ?_ ?_ ?_ ?_ ?_ ?_ ?_ ?_ ?_ ?_ ?_ ?_
    | with_reducible apply keeps_boundaryScan
    | with_reducible apply keeps_loadIr
    | dsimp -zeta -zetaHave only


theorem keeps_execIdcode (s) (h0 : Keeps K s) (hp : Sub 0x2 K.may) : ∃ t, execIdcode s = .next t ∧ Keeps K t := by
  refine ⟨_, rfl, ?_⟩
  repeat' first
    | with_reducible assumption
    | exact sub_mono hp (by decide)
    | exact Or.inr rfl
    | exact Or.inl (may_of hp (by decide))
    | simp only [↓keeps_mk]
    | refine keepsOf_upd ?_ rfl rfl rfl rfl rfl rfl ?_ ?_ ?_ ?_ ?_ ?_ ?_ ?_ ?_ ?_ ?_ ?_ ?_ ?_ ?_ ?_ ?_ ?_ ?_ ?_ ?_ ?_
    | with_reducible apply keeps_emit
    | with_reducible apply keeps_loadIr
    | dsimp -zeta -zetaHave only


theorem keeps_execClamp (a s) (h1 : Keeps K s) (hp : Sub 0x2 K.may) : ∃ t, execClamp a s = .next t ∧ Keeps K t := by
  refine ⟨_, rfl, ?_⟩
  repeat' first
    | with_reducible assumption
    | exact sub_mono hp (by decide)
    | exact Or.inr rfl
    | exact Or.inl (may_of hp (by decide))
    | simp only [↓keeps_mk]
    | refine keepsOf_upd ?_ rfl rfl rfl rfl rfl rfl ?_ ?_ ?_ ?_ ?_ ?_ ?_ ?_ ?_ ?_ ?_ ?_ ?_ ?_ ?_ ?_ ?_ ?_ ?_ ?_ ?_ ?_
    | with_reducible apply keeps_clampBalls
    | dsimp -zeta -zetaHave only


theorem keeps_execHighz (a s) (h1 : Keeps K s) (hp : Sub 0x2 K.may) : ∃ t, execHighz a s = .next t ∧ Keeps K t := by
  refine ⟨_, rfl, ?_⟩
  repeat' first
    | with_reducible assumption
    | exact sub_mono hp (by decide)
    | exact Or.inr rfl
    | exact Or.inl (may_of hp (by decide))
    | simp only [↓keeps_mk]
    | refine keepsOf_upd ?_ rfl rfl rfl rfl rfl rfl ?_ ?_ ?_ ?_ ?_ ?_ ?_ ?_ ?_ ?_ ?_ ?_ ?_ ?_ ?_ ?_ ?_ ?_ ?_ ?_ ?_ ?_
    | with_reducible apply keeps_highz
    | dsimp -zeta -zetaHave only


theorem keeps_execBypass (a b s) (h2 : Keeps K s) (hp : Sub 0x2 K.may) : ∃ t, execBypass a b s = .next t ∧ Keeps K t := by
  refine ⟨_, rfl, ?_⟩
  repeat' first
    | with_reducible assumption
    | exact sub_mono hp (by decide)
    | (extract_lets +onlyGivenNames x; clear_value x)
    | extract_lets +onlyGivenNames x
    | exact Or.inr rfl
    | exact Or.inl (may_of hp (by decide))
    | simp only [↓keeps_mk]
    | refine keepsOf_upd ?_ rfl rfl rfl rfl rfl rfl ?_ ?_ ?_ ?_ ?_ ?_ ?_ ?_ ?_ ?_ ?_ ?_ ?_ ?_ ?_ ?_ ?_ ?_ ?_ ?_ ?_ ?_
    | with_reducible apply keeps_bypassScan
    | with_reducible apply keeps_loadIr
    | with_reducible refine keeps_of_fst (by with_reducible assumption) ?_
    | dsimp -zeta -zetaHave only
    | split


theorem keeps_execDbgaccRead (a s) (h1 : Keeps K s) (hp : Sub 0x242067 K.may) : ∃ t, execDbgaccRead a s = .next t ∧ Keeps K t := by
  refine ⟨_, rfl, ?_⟩
  repeat' first
    | with_reducible assumption
    | exact sub_mono hp (by decide)
    | exact Or.inr rfl
    | exact Or.inl (may_of hp (by decide))
    | simp only [↓keeps_mk]
    | refine keepsOf_upd ?_ rfl rfl rfl rfl rfl rfl ?_ ?_ ?_ ?_ ?_ ?_ ?_ ?_ ?_ ?_ ?_ ?_ ?_ ?_ ?_ ?_ ?_ ?_ ?_ ?_ ?_ ?_
    | with_reducible apply keeps_dbgRead
    | dsimp -zeta -zetaHave only


theorem keeps_execDbgaccWrite (a b s) (h2 : Keeps K s) (hp : Sub 0x7FFFFF K.may) : ∃ t, execDbgaccWrite a b s = .next t ∧ Keeps K t := by
  refine ⟨_, rfl, ?_⟩
  repeat' first
    | with_reducible assumption
    | exact sub_mono hp (by decide)
    | exact Or.inr rfl
    | exact Or.inl (may_of hp (by decide))
    | simp only [↓keeps_mk]
    | refine keepsOf_upd ?_ rfl rfl rfl rfl rfl rfl ?_ ?_ ?_ ?_ ?_ ?_ ?_ ?_ ?_ ?_ ?_ ?_ ?_ ?_ ?_ ?_ ?_ ?_ ?_ ?_ ?_ ?_
    | with_reducible apply keeps_dbgWrite
    | dsimp -zeta -zetaHave only


theorem keeps_execDbgaccCapture (s) (h0 : Keeps K s) : ∃ t, execDbgaccCapture s = .next t ∧ Keeps K t := by
  refine ⟨_, rfl, ?_⟩
  repeat' first
    | with_reducible assumption
    | exact Or.inr rfl
    | simp only [↓keeps_mk]
    | refine keepsOf_upd ?_ rfl rfl rfl rfl rfl rfl ?_ ?_ ?_ ?_ ?_ ?_ ?_ ?_ ?_ ?_ ?_ ?_ ?_ ?_ ?_ ?_ ?_ ?_ ?_ ?_ ?_ ?_
    | with_reducible apply keeps_dbgCapture
    | dsimp -zeta -zetaHave only


end Sys2Proof.Machine
end

