-- ==== Sys2Proof/Laws/RegisterWrites.lean ====
section
/-!
SUPPORT. What a write of a register that commands something comes to: the command's effect, and the answer on the bus.
-/
namespace Sys2Proof.Machine
open Sys2Proof

/-- The accesses that the register page window takes: aligned words of assigned pages. -/
theorem pageAccessOk_regKey {p off : Nat} (hp : assigned p = true) (h1 : p < 4096) (h2 : off < 4096) (h4 : off % 4 = 0) :
    pageAccessOk (0x40000000 + regKey p off) 4 = true := by
  have e : pageIndexAt (0x40000000 + regKey p off) = p := by simp only [pageIndexAt, regKey]; omega
  have a : (0x40000000 + regKey p off) % 4 = 0 := by simp only [regKey]; omega
  simp [pageAccessOk, e, a, hp]

theorem busWrite_regKey {a : BitVec 4} {p off : Nat} {v : Word} (hp : assigned p = true) (h1 : p < 4096) (h2 : off < 4096)
    (h4 : off % 4 = 0) (s : State) : busWrite a (regKey p off) v s = answered s (regWrite a.toNat p off v s) := by
  have hk : ¬ 2 ^ 24 ≤ regKey p off := by simp only [regKey]; omega
  have d : regKey p off / 4096 = p := by simp only [regKey]; omega
  have m : regKey p off % 4096 = off := by simp only [regKey]; omega
  unfold busWrite
  rw [if_neg, d, m]
  simp [pageAccessOk_regKey hp h1 h2 h4]
  omega

/-- A write of a register that commands something. -/
theorem busWrite_command {a : BitVec 4} {p off : Nat} {v : Word} {f : State → State} (hc : command a.toNat p off v = some f)
    (hp : assigned p = true) (h1 : p < 4096) (h2 : off < 4096) (h4 : off % 4 = 0) (h5 : ¬ off < 0x040)
    (h6 : ¬ (0x800 ≤ off ∧ off < 0xC00)) (s : State) : busWrite a (regKey p off) v s = answered s (f s) := by
  rw [busWrite_regKey hp h1 h2 h4]
  unfold regWrite
  rw [if_neg h5, if_neg h6, hc]

theorem assigned_std : ∀ port : Fin 64, assigned (pgSTD port.val) = true := by decide

theorem pageType_std : ∀ port : Fin 64, pageType (pgSTD port.val) = 0x40 := by decide

theorem assigned_cpu : ∀ core : Fin 4, assigned (pgCPU core.val) = true := by decide

theorem pageType_cpu : ∀ core : Fin 4, pageType (pgCPU core.val) = 0xC0 := by decide

theorem assigned_dma : ∀ ch : Fin 32, assigned (chPage ch.val) = true := by decide

theorem pageType_dma : ∀ ch : Fin 32, pageType (chPage ch.val) = 0xA8 := by decide

theorem command_dmaCtl (a : Nat) (v : Word) (ch : Fin 32) :
    command a (chPage ch.val) (0x108 + 64 * (ch.val % 16)) v = some (dmaCtl a ch.val v) := by
  fin_cases ch <;> rfl

theorem execSetgo_eq (a : BitVec 4) (s : State) :
    execSetgo a s = act (fun s => answered s ((withStep (setGo a.toNat 1)) s)) s := by
  unfold execSetgo act
  rw [busWrite_command rfl] <;> decide

theorem execServosrcWrite_eq (a : BitVec 4) (src : BitVec 3) (s : State) :
    execServosrcWrite a src s = act (fun s => answered s ((servoSrcWrite a.toNat (src.setWidth 32)) s)) s := by
  unfold execServosrcWrite act
  rw [busWrite_command rfl] <;> decide

theorem execSnapCapture_eq (a : BitVec 4) (s : State) :
    execSnapCapture a s = act (fun s => answered s ((snapCapture 1) s)) s := by
  unfold execSnapCapture act
  rw [busWrite_command rfl] <;> decide

theorem execModeRequest_eq (a : BitVec 4) (idx : BitVec 5) (s : State) :
    execModeRequest a idx s = act (fun s => answered s ((modeRequest a.toNat (idx.setWidth 32)) s)) s := by
  unfold execModeRequest act
  rw [busWrite_command rfl] <;> decide

theorem execClaim_eq (a : BitVec 4) (s : State) :
    execClaim a s = act (fun s => answered s ((fun s => fcFollow (ownWrite a.toNat 0x100 s)) s)) s := by
  unfold execClaim act
  rw [busWrite_command rfl] <;> decide

theorem execRelease_eq (a : BitVec 4) (s : State) :
    execRelease a s = act (fun s => answered s ((fun s => fcFollow (ownWrite a.toNat 0x200 s)) s)) s := by
  unfold execRelease act
  rw [busWrite_command rfl] <;> decide

theorem execSeize_eq (a : BitVec 4) (s : State) :
    execSeize a s = act (fun s => answered s ((fun s => fcFollow (ownWrite a.toNat 0x400 s)) s)) s := by
  unfold execSeize act
  rw [busWrite_command rfl] <;> decide

theorem execDiscard_eq (a : BitVec 4) (s : State) :
    execDiscard a s = act (fun s => answered s ((fun s => fcFollow (ctlWrite a.toNat 1 s)) s)) s := by
  unfold execDiscard act
  rw [busWrite_command rfl] <;> decide

theorem execDisarm_eq (a : BitVec 4) (s : State) :
    execDisarm a s = act (fun s => answered s ((fun s => fcFollow (ctlWrite a.toNat 2 s)) s)) s := by
  unfold execDisarm act
  rw [busWrite_command rfl] <;> decide

theorem execArm_eq (a : BitVec 4) (v : Word) (s : State) :
    execArm a v s = act (fun s => answered s ((Sys2Proof.Machine.arm a.toNat v) s)) s := by
  unfold execArm act
  rw [busWrite_command rfl] <;> decide

theorem execStatholdWrite_eq (a : BitVec 4) (n : BitVec 7) (s : State) :
    execStatholdWrite a n s = act (fun s => answered s ((statHold a.toNat (n.setWidth 32)) s)) s := by
  unfold execStatholdWrite act
  rw [busWrite_command rfl] <;> decide

theorem execNvmProg_eq (a : BitVec 4) (s : State) :
    execNvmProg a s = act (fun s => answered s ((nvmCmd a.toNat 1) s)) s := by
  unfold execNvmProg act
  rw [busWrite_command rfl] <;> decide

theorem execNvmZero_eq (a : BitVec 4) (s : State) :
    execNvmZero a s = act (fun s => answered s ((nvmCmd a.toNat 2) s)) s := by
  unfold execNvmZero act
  rw [busWrite_command rfl] <;> decide

theorem execNvmBufferWrite_eq (a : BitVec 4) (word : Fin 64) (v : Word) (s : State) :
    execNvmBufferWrite a word v s = act (fun s => answered s ((nvmBufWrite a.toNat (0xC00 + 4 * word.val) v) s)) s := by
  have h := word.isLt
  have hc : command a.toNat pgNVM (0xC00 + 4 * word.val) v = some (nvmBufWrite a.toNat (0xC00 + 4 * word.val) v) := by
    fin_cases word <;> rfl
  unfold execNvmBufferWrite act
  rw [busWrite_command hc] <;> first | decide | omega

theorem execFsInject_eq (a : BitVec 4) (double sram : Bool) (s : State) :
    execFsInject a double sram s = act (fun s => answered s ((fsInject (BitVec.ofNat 32 (1 + 2 * double.toNat + 4 * sram.toNat))) s)) s := by
  unfold execFsInject act
  rw [busWrite_command rfl] <;> decide

theorem execErrclr_eq (a : BitVec 4) (s : State) :
    execErrclr a s = act (fun s => answered s ((errClr 1) s)) s := by
  unfold execErrclr act
  rw [busWrite_command rfl] <;> decide

theorem execOvrFire_eq (a : BitVec 4) (mask : Byte) (s : State) :
    execOvrFire a mask s = act (fun s => answered s ((Sys2Proof.Machine.ovrFire (bitsOf (mask.setWidth 32) 0 8)) s)) s := by
  unfold execOvrFire act
  rw [busWrite_command rfl] <;> decide

theorem execOvrRelease_eq (a : BitVec 4) (mask : Byte) (s : State) :
    execOvrRelease a mask s = act (fun s => answered s ((Sys2Proof.Machine.ovrRelease (bitsOf (mask.setWidth 32) 0 8)) s)) s := by
  unfold execOvrRelease act
  rw [busWrite_command rfl] <;> decide

theorem execGpiopush_eq (a : BitVec 4) (port : Fin 64) (v : Word) (s : State) :
    execGpiopush a port v s = act (fun s => answered s ((gpioPush port.val a.toNat v) s)) s := by
  have h := port.isLt
  have hc : command a.toNat (pgSTD port.val) 0x074 v = some (gpioPush port.val a.toNat v) := by
    have e : pageType (pgSTD port.val) = 0x40 := pageType_std port
    unfold command
    rw [e]
    simp [pgSTD]
  unfold execGpiopush act
  rw [busWrite_command hc (assigned_std port)] <;> first | decide | (simp only [pgSTD]; omega)

theorem execDmaGo_eq (a : BitVec 4) (ch : Fin 32) (s : State) :
    execDmaGo a ch s = act (fun s => answered s ((dmaCtl a.toNat ch.val 1) s)) s := by
  unfold execDmaGo act
  rw [busWrite_command (command_dmaCtl a.toNat 1 ch) (assigned_dma ch)] <;> first | decide | (try simp only [chPage, pgDMA]); omega

theorem execDmaStop_eq (a : BitVec 4) (ch : Fin 32) (s : State) :
    execDmaStop a ch s = act (fun s => answered s ((dmaCtl a.toNat ch.val 2) s)) s := by
  unfold execDmaStop act
  rw [busWrite_command (command_dmaCtl a.toNat 2 ch) (assigned_dma ch)] <;> first | decide | (try simp only [chPage, pgDMA]); omega

theorem execDmaKnock_eq (a : BitVec 4) (ch : Fin 32) (s : State) :
    execDmaKnock a ch s = act (fun s => answered s ((dmaCtl a.toNat ch.val 4) s)) s := by
  unfold execDmaKnock act
  rw [busWrite_command (command_dmaCtl a.toNat 4 ch) (assigned_dma ch)] <;> first | decide | (try simp only [chPage, pgDMA]); omega

theorem execDmaResume_eq (a : BitVec 4) (ch : Fin 32) (s : State) :
    execDmaResume a ch s = act (fun s => answered s ((dmaCtl a.toNat ch.val 8) s)) s := by
  unfold execDmaResume act
  rw [busWrite_command (command_dmaCtl a.toNat 8 ch) (assigned_dma ch)] <;> first | decide | (try simp only [chPage, pgDMA]); omega

theorem execDmaClear_eq (a : BitVec 4) (ch : Fin 32) (s : State) :
    execDmaClear a ch s = act (fun s => answered s ((dmaCtl a.toNat ch.val 16) s)) s := by
  unfold execDmaClear act
  rw [busWrite_command (command_dmaCtl a.toNat 16 ch) (assigned_dma ch)] <;> first | decide | (try simp only [chPage, pgDMA]); omega

theorem execClearhalt_eq (a : BitVec 4) (s : State) :
    execClearhalt a s = act (fun s => answered s ((engineWrite 2) s)) s := by
  unfold execClearhalt act
  rw [busWrite_command rfl] <;> decide

theorem execQueueCfgWrite_eq (a : BitVec 4) (q : Fin 64) (v : Word) (s : State) :
    execQueueCfgWrite a q v s = act (fun s => answered s ((queueCfg a.toNat q.val v) s)) s := by
  have h := q.isLt
  have hc : command a.toNat pgQUE (0x100 + 4 * q.val) v = some (queueCfg a.toNat q.val v) := by
    fin_cases q <;> rfl
  unfold execQueueCfgWrite act
  rw [busWrite_command hc] <;> first | decide | omega

theorem execQueuePush_eq (a : BitVec 4) (q : Fin 64) (v : Word) (s : State) :
    execQueuePush a q v s = act (fun s => answered s ((pushWrite a.toNat q.val v) s)) s := by
  have h := q.isLt
  have hc : command a.toNat pgQUE (0x200 + 4 * q.val) v = some (pushWrite a.toNat q.val v) := by
    fin_cases q <;> rfl
  unfold execQueuePush act
  rw [busWrite_command hc] <;> first | decide | omega

theorem execQueueDrop_eq (a : BitVec 4) (q : Fin 64) (s : State) :
    execQueueDrop a q s = act (fun s => answered s ((queueDrop a.toNat (bitsOf (BitVec.ofNat 32 q.val) 0 6)) s)) s := by
  unfold execQueueDrop act
  rw [busWrite_command rfl] <;> decide

theorem execStatectlRun_eq (a : BitVec 4) (s : State) :
    execStatectlRun a s = act (fun s => answered s ((stateCtl a.toNat 0) s)) s := by
  unfold execStatectlRun act
  rw [busWrite_command rfl] <;> decide

theorem execStatectlDim_eq (a : BitVec 4) (s : State) :
    execStatectlDim a s = act (fun s => answered s ((stateCtl a.toNat 1) s)) s := by
  unfold execStatectlDim act
  rw [busWrite_command rfl] <;> decide

theorem execStatectlRetentionSleep_eq (a : BitVec 4) (s : State) :
    execStatectlRetentionSleep a s = act (fun s => answered s ((stateCtl a.toNat 2) s)) s := by
  unfold execStatectlRetentionSleep act
  rw [busWrite_command rfl] <;> decide

theorem execStatectlDormant_eq (a : BitVec 4) (s : State) :
    execStatectlDormant a s = act (fun s => answered s ((stateCtl a.toNat 3) s)) s := by
  unfold execStatectlDormant act
  rw [busWrite_command rfl] <;> decide

theorem execDomreqWrite_eq (a : BitVec 4) (v : Word) (s : State) :
    execDomreqWrite a v s = act (fun s => answered s ((domReq v) s)) s := by
  unfold execDomreqWrite act
  rw [busWrite_command rfl] <;> decide

theorem execConfirm_eq (a : BitVec 4) (s : State) :
    execConfirm a s = act (fun s => answered s ((bootCtl a.toNat 1) s)) s := by
  unfold execConfirm act
  rw [busWrite_command rfl] <;> decide

theorem execBootRestart_eq (a : BitVec 4) (cold : Bool) (s : State) :
    execBootRestart a cold s = act (fun s => answered s ((bootCtl a.toNat (if cold then 6 else 2)) s)) s := by
  unfold execBootRestart act
  rw [busWrite_command rfl] <;> decide

theorem execBootReady_eq (a : BitVec 4) (s : State) :
    execBootReady a s = act (fun s => answered s ((Sys2Proof.Machine.bootReady 1) s)) s := by
  unfold execBootReady act
  rw [busWrite_command rfl] <;> decide

theorem execFailClear_eq (a : BitVec 4) (s : State) :
    execFailClear a s = act (fun s => answered s ((Sys2Proof.Machine.failClear a.toNat 0x100) s)) s := by
  unfold execFailClear act
  rw [busWrite_command rfl] <;> decide

theorem execWdkick_eq (a : BitVec 4) (v : Word) (s : State) :
    execWdkick a v s = act (fun s => answered s ((wdKick a.toNat v) s)) s := by
  unfold execWdkick act
  rw [busWrite_command rfl] <;> decide

theorem execKeyrevoke_eq (a : BitVec 4) (keys : BitVec 4) (s : State) :
    execKeyrevoke a keys s = act (fun s => answered s ((keyRevoke a.toNat (keys.setWidth 32)) s)) s := by
  unfold execKeyrevoke act
  rw [busWrite_command rfl] <;> decide

theorem execAttnAck_eq (a : BitVec 4) (s : State) :
    execAttnAck a s = act (fun s => answered s ((fun s => attnWrite (setBits (s.reg pgSVC 0x048) 1 1 1) s) s)) s := by
  unfold execAttnAck act
  rw [busWrite_command rfl] <;> first | rfl | decide

theorem execKeyClear_eq (a : BitVec 4) (slot : Fin 2) (s : State) :
    execKeyClear a slot s = act (fun s => answered s ((Sys2Proof.Machine.keyClear (BitVec.ofNat 32 (2 ^ (8 + slot.val)))) s)) s := by
  unfold execKeyClear act
  rw [busWrite_command rfl] <;> decide

theorem execIdcfgWrite_eq (a : BitVec 4) (v : Word) (s : State) :
    execIdcfgWrite a v s = act (fun s => answered s ((Sys2Proof.Machine.idcfgWrite v) s)) s := by
  unfold execIdcfgWrite act
  rw [busWrite_command rfl] <;> decide

theorem execFcmtGo_eq (a : BitVec 4) (window own : Bool) (s : State) :
    execFcmtGo a window own s = act (fun s => answered s ((Sys2Proof.Machine.fcmtGo a.toNat (BitVec.ofNat 32 (1 + 2 * window.toNat + 4 * own.toNat))) s)) s := by
  unfold execFcmtGo act
  rw [busWrite_command rfl] <;> decide

theorem execFcctlFire_eq (a : BitVec 4) (s : State) :
    execFcctlFire a s = act (fun s => answered s ((fcctl a.toNat 1) s)) s := by
  unfold execFcctlFire act
  rw [busWrite_command rfl] <;> decide

theorem execFcctlAbort_eq (a : BitVec 4) (s : State) :
    execFcctlAbort a s = act (fun s => answered s ((fcctl a.toNat 2) s)) s := by
  unfold execFcctlAbort act
  rw [busWrite_command rfl] <;> decide

theorem execFabTxtailWrite_eq (a : BitVec 4) (idx : BitVec 12) (s : State) :
    execFabTxtailWrite a idx s = act (fun s => answered s ((fabTxTail (idx.setWidth 32)) s)) s := by
  unfold execFabTxtailWrite act
  rw [busWrite_command rfl] <;> decide

theorem execEvcSet_eq (a : BitVec 4) (src : Byte) (s : State) :
    execEvcSet a src s = act (fun s => answered s ((arrive (bitsOf (src.setWidth 32) 0 8)) s)) s := by
  unfold execEvcSet act
  rw [busWrite_command rfl] <;> decide

theorem execEvcClr_eq (a : BitVec 4) (src : Byte) (s : State) :
    execEvcClr a src s = act (fun s => answered s ((srcClear (bitsOf (src.setWidth 32) 0 8)) s)) s := by
  unfold execEvcClr act
  rw [busWrite_command rfl] <;> decide

theorem execPset_eq (a : BitVec 4) (core : Fin 4) (src : Fin 32) (s : State) :
    execPset a core src s = act (fun s => answered s ((arrivePriv core.val (bitsOf (BitVec.ofNat 32 src.val) 0 5)) s)) s := by
  have h := core.isLt
  have hc : command a.toNat (pgCPU core.val) 0x180 (BitVec.ofNat 32 src.val) = some (arrivePriv core.val (bitsOf (BitVec.ofNat 32 src.val) 0 5)) := by
    have e : pageType (pgCPU core.val) = 0xC0 := pageType_cpu core
    unfold command
    rw [e]
    simp [pgCPU]
  unfold execPset act
  rw [busWrite_command hc (assigned_cpu core)] <;> first | decide | (simp only [pgCPU]; omega)

theorem execPclr_eq (a : BitVec 4) (core : Fin 4) (src : Fin 32) (s : State) :
    execPclr a core src s = act (fun s => answered s ((fun s => presentAll (setSrc s (.priv core.val (bitsOf (BitVec.ofNat 32 src.val) 0 5)) 20 1 0)) s)) s := by
  have h := core.isLt
  have hc : command a.toNat (pgCPU core.val) 0x184 (BitVec.ofNat 32 src.val) = some (fun s => presentAll (setSrc s (.priv core.val (bitsOf (BitVec.ofNat 32 src.val) 0 5)) 20 1 0)) := by
    have e : pageType (pgCPU core.val) = 0xC0 := pageType_cpu core
    unfold command
    rw [e]
    simp [pgCPU]
  unfold execPclr act
  rw [busWrite_command hc (assigned_cpu core)] <;> first | decide | (simp only [pgCPU]; omega)

theorem execDoorbell_eq (a : BitVec 4) (core : Fin 4) (bells : Byte) (s : State) :
    execDoorbell a core bells s = act (fun s => answered s ((Sys2Proof.Machine.doorbell core.val (bells.setWidth 32)) s)) s := by
  have h := core.isLt
  have hc : command a.toNat (pgCPU core.val) 0x050 (bells.setWidth 32) = some (Sys2Proof.Machine.doorbell core.val (bells.setWidth 32)) := by
    have e : pageType (pgCPU core.val) = 0xC0 := pageType_cpu core
    unfold command
    rw [e]
    simp [pgCPU]
  unfold execDoorbell act
  rw [busWrite_command hc (assigned_cpu core)] <;> first | decide | (simp only [pgCPU]; omega)

theorem execTskPost_eq (a : BitVec 4) (task : BitVec 10) (s : State) :
    execTskPost a task s = act (fun s => answered s ((postTask (bitsOf (task.setWidth 32) 0 10) (if a.toNat = 0 then none else some (a.toNat - 1))) s)) s := by
  unfold execTskPost act
  rw [busWrite_command rfl] <;> decide

theorem execDelaygo_eq (a : BitVec 4) (task : BitVec 10) (abs : Bool) (s : State) :
    execDelaygo a task abs s = act (fun s => answered s ((delayGo a.toNat (BitVec.ofNat 32 (task.toNat + 0x10000 * abs.toNat))) s)) s := by
  unfold execDelaygo act
  rw [busWrite_command rfl] <;> decide

theorem execCancel_eq (a : BitVec 4) (task : BitVec 10) (s : State) :
    execCancel a task s = act (fun s => answered s ((cancelTask a.toNat (task.setWidth 32)) s)) s := by
  unfold execCancel act
  rw [busWrite_command rfl] <;> decide

end Sys2Proof.Machine
end

