-- ==== Sys2Proof/Laws/KeepsWrites.lean ====
section
/-!
SUPPORT. What the operations of Machine/Writes.lean keep.
-/
namespace Sys2Proof.Machine
open Sys2Proof

variable {K : Keeping}

theorem keeps_execRegisterWrite (a b c s) (h3 : Keeps K s) (hp : Sub 0x7FFFFF K.may) : ∃ t, execRegisterWrite a b c s = .next t ∧ Keeps K t := by
  refine ⟨_, rfl, ?_⟩
  repeat' first
    | with_reducible assumption
    | exact sub_mono hp (by decide)
    | exact Or.inr rfl
    | exact Or.inl (may_of hp (by decide))
    | simp only [↓keeps_mk]
    | refine keepsOf_upd ?_ rfl rfl rfl rfl rfl rfl ?_ ?_ ?_ ?_ ?_ ?_ ?_ ?_ ?_ ?_ ?_ ?_ ?_ ?_ ?_ ?_ ?_ ?_ ?_ ?_ ?_ ?_
    | with_reducible apply keeps_busWrite
    | dsimp -zeta -zetaHave only


theorem keeps_execStagedWrite (a b c s) (h3 : Keeps K s) (hp : Sub 0x7FFFFF K.may) : ∃ t, execStagedWrite a b c s = .next t ∧ Keeps K t := by
  refine ⟨_, rfl, ?_⟩
  repeat' first
    | with_reducible assumption
    | exact sub_mono hp (by decide)
    | exact Or.inr rfl
    | exact Or.inl (may_of hp (by decide))
    | simp only [↓keeps_mk]
    | refine keepsOf_upd ?_ rfl rfl rfl rfl rfl rfl ?_ ?_ ?_ ?_ ?_ ?_ ?_ ?_ ?_ ?_ ?_ ?_ ?_ ?_ ?_ ?_ ?_ ?_ ?_ ?_ ?_ ?_
    | with_reducible apply keeps_busWrite
    | dsimp -zeta -zetaHave only


theorem keeps_execQueuePop (a b s) (h2 : Keeps K s) (hp : Sub 0x242062 K.may) : ∃ t, execQueuePop a b s = .next t ∧ Keeps K t := by
  refine ⟨_, rfl, ?_⟩
  repeat' first
    | with_reducible assumption
    | exact sub_mono hp (by decide)
    | exact Or.inr rfl
    | exact Or.inl (may_of hp (by decide))
    | simp only [↓keeps_mk]
    | refine keepsOf_upd ?_ rfl rfl rfl rfl rfl rfl ?_ ?_ ?_ ?_ ?_ ?_ ?_ ?_ ?_ ?_ ?_ ?_ ?_ ?_ ?_ ?_ ?_ ?_ ?_ ?_ ?_ ?_
    | with_reducible apply keeps_busRead
    | dsimp -zeta -zetaHave only


theorem keeps_execServosrcWrite (a b s) (h2 : Keeps K s) (hp : Sub 0x90078 K.may) : ∃ t, execServosrcWrite a b s = .next t ∧ Keeps K t := by
  rw [execServosrcWrite_eq]
  refine ⟨_, rfl, ?_⟩
  repeat' first
    | with_reducible assumption
    | exact sub_mono hp (by decide)
    | exact Or.inr rfl
    | exact Or.inl (may_of hp (by decide))
    | simp only [↓keeps_mk]
    | refine keepsOf_upd ?_ rfl rfl rfl rfl rfl rfl ?_ ?_ ?_ ?_ ?_ ?_ ?_ ?_ ?_ ?_ ?_ ?_ ?_ ?_ ?_ ?_ ?_ ?_ ?_ ?_ ?_ ?_
    | with_reducible apply keeps_answered
    | with_reducible apply keeps_servoSrcWrite
    | dsimp -zeta -zetaHave only


theorem keeps_execFreezeWrite (a b s) (h2 : Keeps K s) (hp : Sub 0x7FFFFF K.may) : ∃ t, execFreezeWrite a b s = .next t ∧ Keeps K t := by
  refine ⟨_, rfl, ?_⟩
  repeat' first
    | with_reducible assumption
    | exact sub_mono hp (by decide)
    | exact Or.inr rfl
    | exact Or.inl (may_of hp (by decide))
    | simp only [↓keeps_mk]
    | refine keepsOf_upd ?_ rfl rfl rfl rfl rfl rfl ?_ ?_ ?_ ?_ ?_ ?_ ?_ ?_ ?_ ?_ ?_ ?_ ?_ ?_ ?_ ?_ ?_ ?_ ?_ ?_ ?_ ?_
    | with_reducible apply keeps_busWrite
    | dsimp -zeta -zetaHave only


theorem keeps_execSetgo (a s) (h1 : Keeps K s) (hp : Sub 0x19FE7C K.may) : ∃ t, execSetgo a s = .next t ∧ Keeps K t := by
  rw [execSetgo_eq]
  refine ⟨_, rfl, ?_⟩
  repeat' first
    | with_reducible assumption
    | exact sub_mono hp (by decide)
    | intro _
    | exact Or.inr rfl
    | exact Or.inl (may_of hp (by decide))
    | simp only [↓keeps_mk]
    | refine keepsOf_upd ?_ rfl rfl rfl rfl rfl rfl ?_ ?_ ?_ ?_ ?_ ?_ ?_ ?_ ?_ ?_ ?_ ?_ ?_ ?_ ?_ ?_ ?_ ?_ ?_ ?_ ?_ ?_
    | with_reducible apply keeps_answered
    | with_reducible apply keeps_withStep
    | with_reducible apply keeps_setGo
    | dsimp -zeta -zetaHave only


theorem keeps_execSnapCapture (a s) (h1 : Keeps K s) : ∃ t, execSnapCapture a s = .next t ∧ Keeps K t := by
  rw [execSnapCapture_eq]
  refine ⟨_, rfl, ?_⟩
  repeat' first
    | with_reducible assumption
    | exact Or.inr rfl
    | simp only [↓keeps_mk]
    | refine keepsOf_upd ?_ rfl rfl rfl rfl rfl rfl ?_ ?_ ?_ ?_ ?_ ?_ ?_ ?_ ?_ ?_ ?_ ?_ ?_ ?_ ?_ ?_ ?_ ?_ ?_ ?_ ?_ ?_
    | with_reducible apply keeps_answered
    | with_reducible apply keeps_snapCapture
    | dsimp -zeta -zetaHave only


theorem keeps_execModeRequest (a b s) (h2 : Keeps K s) (hp : Sub 0x80078 K.may) : ∃ t, execModeRequest a b s = .next t ∧ Keeps K t := by
  rw [execModeRequest_eq]
  refine ⟨_, rfl, ?_⟩
  repeat' first
    | with_reducible assumption
    | exact sub_mono hp (by decide)
    | exact Or.inr rfl
    | exact Or.inl (may_of hp (by decide))
    | simp only [↓keeps_mk]
    | refine keepsOf_upd ?_ rfl rfl rfl rfl rfl rfl ?_ ?_ ?_ ?_ ?_ ?_ ?_ ?_ ?_ ?_ ?_ ?_ ?_ ?_ ?_ ?_ ?_ ?_ ?_ ?_ ?_ ?_
    | with_reducible apply keeps_answered
    | with_reducible apply keeps_modeRequest
    | dsimp -zeta -zetaHave only


theorem keeps_execPhaseSrcWrite (a b s) (h2 : Keeps K s) (hp : Sub 0x7FFFFF K.may) : ∃ t, execPhaseSrcWrite a b s = .next t ∧ Keeps K t := by
  refine ⟨_, rfl, ?_⟩
  repeat' first
    | with_reducible assumption
    | exact sub_mono hp (by decide)
    | exact Or.inr rfl
    | exact Or.inl (may_of hp (by decide))
    | simp only [↓keeps_mk]
    | refine keepsOf_upd ?_ rfl rfl rfl rfl rfl rfl ?_ ?_ ?_ ?_ ?_ ?_ ?_ ?_ ?_ ?_ ?_ ?_ ?_ ?_ ?_ ?_ ?_ ?_ ?_ ?_ ?_ ?_
    | with_reducible apply keeps_busWrite
    | dsimp -zeta -zetaHave only


theorem keeps_execClaim (a s) (h1 : Keeps K s) (hp : Sub 0x8070 K.may) : ∃ t, execClaim a s = .next t ∧ Keeps K t := by
  rw [execClaim_eq]
  refine ⟨_, rfl, ?_⟩
  repeat' first
    | with_reducible assumption
    | exact sub_mono hp (by decide)
    | exact Or.inr rfl
    | exact Or.inl (may_of hp (by decide))
    | simp only [↓keeps_mk]
    | refine keepsOf_upd ?_ rfl rfl rfl rfl rfl rfl ?_ ?_ ?_ ?_ ?_ ?_ ?_ ?_ ?_ ?_ ?_ ?_ ?_ ?_ ?_ ?_ ?_ ?_ ?_ ?_ ?_ ?_
    | with_reducible apply keeps_answered
    | with_reducible apply keeps_fcFollow
    | with_reducible apply keeps_ownWrite
    | dsimp -zeta -zetaHave only


theorem keeps_execRelease (a s) (h1 : Keeps K s) (hp : Sub 0x8070 K.may) : ∃ t, execRelease a s = .next t ∧ Keeps K t := by
  rw [execRelease_eq]
  refine ⟨_, rfl, ?_⟩
  repeat' first
    | with_reducible assumption
    | exact sub_mono hp (by decide)
    | exact Or.inr rfl
    | exact Or.inl (may_of hp (by decide))
    | simp only [↓keeps_mk]
    | refine keepsOf_upd ?_ rfl rfl rfl rfl rfl rfl ?_ ?_ ?_ ?_ ?_ ?_ ?_ ?_ ?_ ?_ ?_ ?_ ?_ ?_ ?_ ?_ ?_ ?_ ?_ ?_ ?_ ?_
    | with_reducible apply keeps_answered
    | with_reducible apply keeps_fcFollow
    | with_reducible apply keeps_ownWrite
    | dsimp -zeta -zetaHave only


theorem keeps_execSeize (a s) (h1 : Keeps K s) (hp : Sub 0x8070 K.may) : ∃ t, execSeize a s = .next t ∧ Keeps K t := by
  rw [execSeize_eq]
  refine ⟨_, rfl, ?_⟩
  repeat' first
    | with_reducible assumption
    | exact sub_mono hp (by decide)
    | exact Or.inr rfl
    | exact Or.inl (may_of hp (by decide))
    | simp only [↓keeps_mk]
    | refine keepsOf_upd ?_ rfl rfl rfl rfl rfl rfl ?_ ?_ ?_ ?_ ?_ ?_ ?_ ?_ ?_ ?_ ?_ ?_ ?_ ?_ ?_ ?_ ?_ ?_ ?_ ?_ ?_ ?_
    | with_reducible apply keeps_answered
    | with_reducible apply keeps_fcFollow
    | with_reducible apply keeps_ownWrite
    | dsimp -zeta -zetaHave only


theorem keeps_execDiscard (a s) (h1 : Keeps K s) (hp : Sub 0x408070 K.may) : ∃ t, execDiscard a s = .next t ∧ Keeps K t := by
  rw [execDiscard_eq]
  refine ⟨_, rfl, ?_⟩
  repeat' first
    | with_reducible assumption
    | exact sub_mono hp (by decide)
    | exact Or.inr rfl
    | exact Or.inl (may_of hp (by decide))
    | simp only [↓keeps_mk]
    | refine keepsOf_upd ?_ rfl rfl rfl rfl rfl rfl ?_ ?_ ?_ ?_ ?_ ?_ ?_ ?_ ?_ ?_ ?_ ?_ ?_ ?_ ?_ ?_ ?_ ?_ ?_ ?_ ?_ ?_
    | with_reducible apply keeps_answered
    | with_reducible apply keeps_fcFollow
    | with_reducible apply keeps_ctlWrite
    | dsimp -zeta -zetaHave only


theorem keeps_execDisarm (a s) (h1 : Keeps K s) (hp : Sub 0x408070 K.may) : ∃ t, execDisarm a s = .next t ∧ Keeps K t := by
  rw [execDisarm_eq]
  refine ⟨_, rfl, ?_⟩
  repeat' first
    | with_reducible assumption
    | exact sub_mono hp (by decide)
    | exact Or.inr rfl
    | exact Or.inl (may_of hp (by decide))
    | simp only [↓keeps_mk]
    | refine keepsOf_upd ?_ rfl rfl rfl rfl rfl rfl ?_ ?_ ?_ ?_ ?_ ?_ ?_ ?_ ?_ ?_ ?_ ?_ ?_ ?_ ?_ ?_ ?_ ?_ ?_ ?_ ?_ ?_
    | with_reducible apply keeps_answered
    | with_reducible apply keeps_fcFollow
    | with_reducible apply keeps_ctlWrite
    | dsimp -zeta -zetaHave only


theorem keeps_execArm (a b s) (h2 : Keeps K s) (hp : Sub 0x10 K.may) : ∃ t, execArm a b s = .next t ∧ Keeps K t := by
  rw [execArm_eq]
  refine ⟨_, rfl, ?_⟩
  repeat' first
    | with_reducible assumption
    | exact sub_mono hp (by decide)
    | exact Or.inr rfl
    | exact Or.inl (may_of hp (by decide))
    | simp only [↓keeps_mk]
    | refine keepsOf_upd ?_ rfl rfl rfl rfl rfl rfl ?_ ?_ ?_ ?_ ?_ ?_ ?_ ?_ ?_ ?_ ?_ ?_ ?_ ?_ ?_ ?_ ?_ ?_ ?_ ?_ ?_ ?_
    | with_reducible apply keeps_answered
    | with_reducible apply keeps_arm
    | dsimp -zeta -zetaHave only


theorem keeps_execStatholdWrite (a b s) (h2 : Keeps K s) (hp : Sub 0x70 K.may) : ∃ t, execStatholdWrite a b s = .next t ∧ Keeps K t := by
  rw [execStatholdWrite_eq]
  refine ⟨_, rfl, ?_⟩
  repeat' first
    | with_reducible assumption
    | exact sub_mono hp (by decide)
    | exact Or.inr rfl
    | exact Or.inl (may_of hp (by decide))
    | simp only [↓keeps_mk]
    | refine keepsOf_upd ?_ rfl rfl rfl rfl rfl rfl ?_ ?_ ?_ ?_ ?_ ?_ ?_ ?_ ?_ ?_ ?_ ?_ ?_ ?_ ?_ ?_ ?_ ?_ ?_ ?_ ?_ ?_
    | with_reducible apply keeps_answered
    | with_reducible apply keeps_statHold
    | dsimp -zeta -zetaHave only


theorem keeps_execNvmProg (a s) (h1 : Keeps K s) (hp : Sub 0x4 K.may) : ∃ t, execNvmProg a s = .next t ∧ Keeps K t := by
  rw [execNvmProg_eq]
  refine ⟨_, rfl, ?_⟩
  repeat' first
    | with_reducible assumption
    | exact sub_mono hp (by decide)
    | exact Or.inr rfl
    | exact Or.inl (may_of hp (by decide))
    | simp only [↓keeps_mk]
    | refine keepsOf_upd ?_ rfl rfl rfl rfl rfl rfl ?_ ?_ ?_ ?_ ?_ ?_ ?_ ?_ ?_ ?_ ?_ ?_ ?_ ?_ ?_ ?_ ?_ ?_ ?_ ?_ ?_ ?_
    | with_reducible apply keeps_answered
    | with_reducible apply keeps_nvmCmd
    | dsimp -zeta -zetaHave only


theorem keeps_execNvmZero (a s) (h1 : Keeps K s) (hp : Sub 0x4 K.may) : ∃ t, execNvmZero a s = .next t ∧ Keeps K t := by
  rw [execNvmZero_eq]
  refine ⟨_, rfl, ?_⟩
  repeat' first
    | with_reducible assumption
    | exact sub_mono hp (by decide)
    | exact Or.inr rfl
    | exact Or.inl (may_of hp (by decide))
    | simp only [↓keeps_mk]
    | refine keepsOf_upd ?_ rfl rfl rfl rfl rfl rfl ?_ ?_ ?_ ?_ ?_ ?_ ?_ ?_ ?_ ?_ ?_ ?_ ?_ ?_ ?_ ?_ ?_ ?_ ?_ ?_ ?_ ?_
    | with_reducible apply keeps_answered
    | with_reducible apply keeps_nvmCmd
    | dsimp -zeta -zetaHave only


theorem keeps_execNvmBufferWrite (a b c s) (h3 : Keeps K s) (hp : Sub 0x4 K.may) : ∃ t, execNvmBufferWrite a b c s = .next t ∧ Keeps K t := by
  rw [execNvmBufferWrite_eq]
  refine ⟨_, rfl, ?_⟩
  repeat' first
    | with_reducible assumption
    | exact sub_mono hp (by decide)
    | exact Or.inr rfl
    | exact Or.inl (may_of hp (by decide))
    | simp only [↓keeps_mk]
    | refine keepsOf_upd ?_ rfl rfl rfl rfl rfl rfl ?_ ?_ ?_ ?_ ?_ ?_ ?_ ?_ ?_ ?_ ?_ ?_ ?_ ?_ ?_ ?_ ?_ ?_ ?_ ?_ ?_ ?_
    | with_reducible apply keeps_answered
    | with_reducible apply keeps_nvmBufWrite
    | dsimp -zeta -zetaHave only


theorem keeps_execFsInject (a b c s) (h3 : Keeps K s) (hp : Sub 0x4 K.may) : ∃ t, execFsInject a b c s = .next t ∧ Keeps K t := by
  rw [execFsInject_eq]
  refine ⟨_, rfl, ?_⟩
  repeat' first
    | with_reducible assumption
    | exact sub_mono hp (by decide)
    | exact Or.inr rfl
    | exact Or.inl (may_of hp (by decide))
    | simp only [↓keeps_mk]
    | refine keepsOf_upd ?_ rfl rfl rfl rfl rfl rfl ?_ ?_ ?_ ?_ ?_ ?_ ?_ ?_ ?_ ?_ ?_ ?_ ?_ ?_ ?_ ?_ ?_ ?_ ?_ ?_ ?_ ?_
    | with_reducible apply keeps_answered
    | with_reducible apply keeps_fsInject
    | dsimp -zeta -zetaHave only


theorem keeps_execErrclr (a s) (h1 : Keeps K s) : ∃ t, execErrclr a s = .next t ∧ Keeps K t := by
  rw [execErrclr_eq]
  refine ⟨_, rfl, ?_⟩
  repeat' first
    | with_reducible assumption
    | exact Or.inr rfl
    | simp only [↓keeps_mk]
    | refine keepsOf_upd ?_ rfl rfl rfl rfl rfl rfl ?_ ?_ ?_ ?_ ?_ ?_ ?_ ?_ ?_ ?_ ?_ ?_ ?_ ?_ ?_ ?_ ?_ ?_ ?_ ?_ ?_ ?_
    | with_reducible apply keeps_answered
    | with_reducible apply keeps_errClr
    | dsimp -zeta -zetaHave only


theorem keeps_execOvrFire (a b s) (h2 : Keeps K s) (hp : Sub 0xA65 K.may) : ∃ t, execOvrFire a b s = .next t ∧ Keeps K t := by
  rw [execOvrFire_eq]
  refine ⟨_, rfl, ?_⟩
  repeat' first
    | with_reducible assumption
    | exact sub_mono hp (by decide)
    | exact Or.inr rfl
    | exact Or.inl (may_of hp (by decide))
    | simp only [↓keeps_mk]
    | refine keepsOf_upd ?_ rfl rfl rfl rfl rfl rfl ?_ ?_ ?_ ?_ ?_ ?_ ?_ ?_ ?_ ?_ ?_ ?_ ?_ ?_ ?_ ?_ ?_ ?_ ?_ ?_ ?_ ?_
    | with_reducible apply keeps_answered
    | with_reducible apply keeps_ovrFire
    | dsimp -zeta -zetaHave only


theorem keeps_execOvrRelease (a b s) (h2 : Keeps K s) (hp : Sub 0xA65 K.may) : ∃ t, execOvrRelease a b s = .next t ∧ Keeps K t := by
  rw [execOvrRelease_eq]
  refine ⟨_, rfl, ?_⟩
  repeat' first
    | with_reducible assumption
    | exact sub_mono hp (by decide)
    | exact Or.inr rfl
    | exact Or.inl (may_of hp (by decide))
    | simp only [↓keeps_mk]
    | refine keepsOf_upd ?_ rfl rfl rfl rfl rfl rfl ?_ ?_ ?_ ?_ ?_ ?_ ?_ ?_ ?_ ?_ ?_ ?_ ?_ ?_ ?_ ?_ ?_ ?_ ?_ ?_ ?_ ?_
    | with_reducible apply keeps_answered
    | with_reducible apply keeps_ovrRelease
    | dsimp -zeta -zetaHave only


theorem keeps_execGpiopush (a b c s) (h3 : Keeps K s) (hp : Sub 0x260 K.may) : ∃ t, execGpiopush a b c s = .next t ∧ Keeps K t := by
  rw [execGpiopush_eq]
  refine ⟨_, rfl, ?_⟩
  repeat' first
    | with_reducible assumption
    | exact sub_mono hp (by decide)
    | exact Or.inr rfl
    | exact Or.inl (may_of hp (by decide))
    | simp only [↓keeps_mk]
    | refine keepsOf_upd ?_ rfl rfl rfl rfl rfl rfl ?_ ?_ ?_ ?_ ?_ ?_ ?_ ?_ ?_ ?_ ?_ ?_ ?_ ?_ ?_ ?_ ?_ ?_ ?_ ?_ ?_ ?_
    | with_reducible apply keeps_answered
    | with_reducible apply keeps_gpioPush
    | dsimp -zeta -zetaHave only


theorem keeps_execRdmGo (a b s) (h2 : Keeps K s) (hp : Sub 0x7FFFFF K.may) : ∃ t, execRdmGo a b s = .next t ∧ Keeps K t := by
  refine ⟨_, rfl, ?_⟩
  repeat' first
    | with_reducible assumption
    | exact sub_mono hp (by decide)
    | exact Or.inr rfl
    | exact Or.inl (may_of hp (by decide))
    | simp only [↓keeps_mk]
    | refine keepsOf_upd ?_ rfl rfl rfl rfl rfl rfl ?_ ?_ ?_ ?_ ?_ ?_ ?_ ?_ ?_ ?_ ?_ ?_ ?_ ?_ ?_ ?_ ?_ ?_ ?_ ?_ ?_ ?_
    | with_reducible apply keeps_busWrite
    | dsimp -zeta -zetaHave only


theorem keeps_execEventClear (a b c s) (h3 : Keeps K s) (hp : Sub 0x7FFFFF K.may) : ∃ t, execEventClear a b c s = .next t ∧ Keeps K t := by
  refine ⟨_, rfl, ?_⟩
  repeat' first
    | with_reducible assumption
    | exact sub_mono hp (by decide)
    | exact Or.inr rfl
    | exact Or.inl (may_of hp (by decide))
    | simp only [↓keeps_mk]
    | refine keepsOf_upd ?_ rfl rfl rfl rfl rfl rfl ?_ ?_ ?_ ?_ ?_ ?_ ?_ ?_ ?_ ?_ ?_ ?_ ?_ ?_ ?_ ?_ ?_ ?_ ?_ ?_ ?_ ?_
    | with_reducible apply keeps_busWrite
    | dsimp -zeta -zetaHave only


theorem keeps_execFaultClear (a b s) (h2 : Keeps K s) (hp : Sub 0x7FFFFF K.may) : ∃ t, execFaultClear a b s = .next t ∧ Keeps K t := by
  refine ⟨_, rfl, ?_⟩
  repeat' first
    | with_reducible assumption
    | exact sub_mono hp (by decide)
    | exact Or.inr rfl
    | exact Or.inl (may_of hp (by decide))
    | simp only [↓keeps_mk]
    | refine keepsOf_upd ?_ rfl rfl rfl rfl rfl rfl ?_ ?_ ?_ ?_ ?_ ?_ ?_ ?_ ?_ ?_ ?_ ?_ ?_ ?_ ?_ ?_ ?_ ?_ ?_ ?_ ?_ ?_
    | with_reducible apply keeps_busWrite
    | dsimp -zeta -zetaHave only


theorem keeps_execDmaGo (a b s) (h2 : Keeps K s) (hp : Sub 0x262067 K.may) : ∃ t, execDmaGo a b s = .next t ∧ Keeps K t := by
  rw [execDmaGo_eq]
  refine ⟨_, rfl, ?_⟩
  repeat' first
    | with_reducible assumption
    | exact sub_mono hp (by decide)
    | exact Or.inr rfl
    | exact Or.inl (may_of hp (by decide))
    | simp only [↓keeps_mk]
    | refine keepsOf_upd ?_ rfl rfl rfl rfl rfl rfl ?_ ?_ ?_ ?_ ?_ ?_ ?_ ?_ ?_ ?_ ?_ ?_ ?_ ?_ ?_ ?_ ?_ ?_ ?_ ?_ ?_ ?_
    | with_reducible apply keeps_answered
    | with_reducible apply keeps_dmaCtl
    | dsimp -zeta -zetaHave only


theorem keeps_execDmaStop (a b s) (h2 : Keeps K s) (hp : Sub 0x262067 K.may) : ∃ t, execDmaStop a b s = .next t ∧ Keeps K t := by
  rw [execDmaStop_eq]
  refine ⟨_, rfl, ?_⟩
  repeat' first
    | with_reducible assumption
    | exact sub_mono hp (by decide)
    | exact Or.inr rfl
    | exact Or.inl (may_of hp (by decide))
    | simp only [↓keeps_mk]
    | refine keepsOf_upd ?_ rfl rfl rfl rfl rfl rfl ?_ ?_ ?_ ?_ ?_ ?_ ?_ ?_ ?_ ?_ ?_ ?_ ?_ ?_ ?_ ?_ ?_ ?_ ?_ ?_ ?_ ?_
    | with_reducible apply keeps_answered
    | with_reducible apply keeps_dmaCtl
    | dsimp -zeta -zetaHave only


theorem keeps_execDmaKnock (a b s) (h2 : Keeps K s) (hp : Sub 0x262067 K.may) : ∃ t, execDmaKnock a b s = .next t ∧ Keeps K t := by
  rw [execDmaKnock_eq]
  refine ⟨_, rfl, ?_⟩
  repeat' first
    | with_reducible assumption
    | exact sub_mono hp (by decide)
    | exact Or.inr rfl
    | exact Or.inl (may_of hp (by decide))
    | simp only [↓keeps_mk]
    | refine keepsOf_upd ?_ rfl rfl rfl rfl rfl rfl ?_ ?_ ?_ ?_ ?_ ?_ ?_ ?_ ?_ ?_ ?_ ?_ ?_ ?_ ?_ ?_ ?_ ?_ ?_ ?_ ?_ ?_
    | with_reducible apply keeps_answered
    | with_reducible apply keeps_dmaCtl
    | dsimp -zeta -zetaHave only


theorem keeps_execDmaResume (a b s) (h2 : Keeps K s) (hp : Sub 0x262067 K.may) : ∃ t, execDmaResume a b s = .next t ∧ Keeps K t := by
  rw [execDmaResume_eq]
  refine ⟨_, rfl, ?_⟩
  repeat' first
    | with_reducible assumption
    | exact sub_mono hp (by decide)
    | exact Or.inr rfl
    | exact Or.inl (may_of hp (by decide))
    | simp only [↓keeps_mk]
    | refine keepsOf_upd ?_ rfl rfl rfl rfl rfl rfl ?_ ?_ ?_ ?_ ?_ ?_ ?_ ?_ ?_ ?_ ?_ ?_ ?_ ?_ ?_ ?_ ?_ ?_ ?_ ?_ ?_ ?_
    | with_reducible apply keeps_answered
    | with_reducible apply keeps_dmaCtl
    | dsimp -zeta -zetaHave only


theorem keeps_execDmaClear (a b s) (h2 : Keeps K s) (hp : Sub 0x262067 K.may) : ∃ t, execDmaClear a b s = .next t ∧ Keeps K t := by
  rw [execDmaClear_eq]
  refine ⟨_, rfl, ?_⟩
  repeat' first
    | with_reducible assumption
    | exact sub_mono hp (by decide)
    | exact Or.inr rfl
    | exact Or.inl (may_of hp (by decide))
    | simp only [↓keeps_mk]
    | refine keepsOf_upd ?_ rfl rfl rfl rfl rfl rfl ?_ ?_ ?_ ?_ ?_ ?_ ?_ ?_ ?_ ?_ ?_ ?_ ?_ ?_ ?_ ?_ ?_ ?_ ?_ ?_ ?_ ?_
    | with_reducible apply keeps_answered
    | with_reducible apply keeps_dmaCtl
    | dsimp -zeta -zetaHave only


theorem keeps_execClearhalt (a s) (h1 : Keeps K s) : ∃ t, execClearhalt a s = .next t ∧ Keeps K t := by
  rw [execClearhalt_eq]
  refine ⟨_, rfl, ?_⟩
  repeat' first
    | with_reducible assumption
    | exact Or.inr rfl
    | simp only [↓keeps_mk]
    | refine keepsOf_upd ?_ rfl rfl rfl rfl rfl rfl ?_ ?_ ?_ ?_ ?_ ?_ ?_ ?_ ?_ ?_ ?_ ?_ ?_ ?_ ?_ ?_ ?_ ?_ ?_ ?_ ?_ ?_
    | with_reducible apply keeps_answered
    | with_reducible apply keeps_engineWrite
    | dsimp -zeta -zetaHave only


theorem keeps_execQueueCfgWrite (a b c s) (h3 : Keeps K s) (hp : Sub 0x242062 K.may) : ∃ t, execQueueCfgWrite a b c s = .next t ∧ Keeps K t := by
  rw [execQueueCfgWrite_eq]
  refine ⟨_, rfl, ?_⟩
  repeat' first
    | with_reducible assumption
    | exact sub_mono hp (by decide)
    | exact Or.inr rfl
    | exact Or.inl (may_of hp (by decide))
    | simp only [↓keeps_mk]
    | refine keepsOf_upd ?_ rfl rfl rfl rfl rfl rfl ?_ ?_ ?_ ?_ ?_ ?_ ?_ ?_ ?_ ?_ ?_ ?_ ?_ ?_ ?_ ?_ ?_ ?_ ?_ ?_ ?_ ?_
    | with_reducible apply keeps_answered
    | with_reducible apply keeps_queueCfg
    | dsimp -zeta -zetaHave only


theorem keeps_execQueuePush (a b c s) (h3 : Keeps K s) (hp : Sub 0x242062 K.may) : ∃ t, execQueuePush a b c s = .next t ∧ Keeps K t := by
  rw [execQueuePush_eq]
  refine ⟨_, rfl, ?_⟩
  repeat' first
    | with_reducible assumption
    | exact sub_mono hp (by decide)
    | exact Or.inr rfl
    | exact Or.inl (may_of hp (by decide))
    | simp only [↓keeps_mk]
    | refine keepsOf_upd ?_ rfl rfl rfl rfl rfl rfl ?_ ?_ ?_ ?_ ?_ ?_ ?_ ?_ ?_ ?_ ?_ ?_ ?_ ?_ ?_ ?_ ?_ ?_ ?_ ?_ ?_ ?_
    | with_reducible apply keeps_answered
    | with_reducible apply keeps_pushWrite
    | dsimp -zeta -zetaHave only


theorem keeps_execQueueDrop (a b s) (h2 : Keeps K s) (hp : Sub 0x242062 K.may) : ∃ t, execQueueDrop a b s = .next t ∧ Keeps K t := by
  rw [execQueueDrop_eq]
  refine ⟨_, rfl, ?_⟩
  repeat' first
    | with_reducible assumption
    | exact sub_mono hp (by decide)
    | exact Or.inr rfl
    | exact Or.inl (may_of hp (by decide))
    | simp only [↓keeps_mk]
    | refine keepsOf_upd ?_ rfl rfl rfl rfl rfl rfl ?_ ?_ ?_ ?_ ?_ ?_ ?_ ?_ ?_ ?_ ?_ ?_ ?_ ?_ ?_ ?_ ?_ ?_ ?_ ?_ ?_ ?_
    | with_reducible apply keeps_answered
    | with_reducible apply keeps_queueDrop
    | dsimp -zeta -zetaHave only


theorem keeps_execStatectlRun (a s) (h1 : Keeps K s) (hp : Sub 0x7FFFFF K.may) : ∃ t, execStatectlRun a s = .next t ∧ Keeps K t := by
  rw [execStatectlRun_eq]
  refine ⟨_, rfl, ?_⟩
  repeat' first
    | with_reducible assumption
    | exact sub_mono hp (by decide)
    | exact Or.inr rfl
    | exact Or.inl (may_of hp (by decide))
    | simp only [↓keeps_mk]
    | refine keepsOf_upd ?_ rfl rfl rfl rfl rfl rfl ?_ ?_ ?_ ?_ ?_ ?_ ?_ ?_ ?_ ?_ ?_ ?_ ?_ ?_ ?_ ?_ ?_ ?_ ?_ ?_ ?_ ?_
    | with_reducible apply keeps_answered
    | with_reducible apply keeps_stateCtl
    | dsimp -zeta -zetaHave only


theorem keeps_execStatectlDim (a s) (h1 : Keeps K s) (hp : Sub 0x7FFFFF K.may) : ∃ t, execStatectlDim a s = .next t ∧ Keeps K t := by
  rw [execStatectlDim_eq]
  refine ⟨_, rfl, ?_⟩
  repeat' first
    | with_reducible assumption
    | exact sub_mono hp (by decide)
    | exact Or.inr rfl
    | exact Or.inl (may_of hp (by decide))
    | simp only [↓keeps_mk]
    | refine keepsOf_upd ?_ rfl rfl rfl rfl rfl rfl ?_ ?_ ?_ ?_ ?_ ?_ ?_ ?_ ?_ ?_ ?_ ?_ ?_ ?_ ?_ ?_ ?_ ?_ ?_ ?_ ?_ ?_
    | with_reducible apply keeps_answered
    | with_reducible apply keeps_stateCtl
    | dsimp -zeta -zetaHave only


theorem keeps_execStatectlRetentionSleep (a s) (h1 : Keeps K s) (hp : Sub 0x7FFFFF K.may) : ∃ t, execStatectlRetentionSleep a s = .next t ∧ Keeps K t := by
  rw [execStatectlRetentionSleep_eq]
  refine ⟨_, rfl, ?_⟩
  repeat' first
    | with_reducible assumption
    | exact sub_mono hp (by decide)
    | exact Or.inr rfl
    | exact Or.inl (may_of hp (by decide))
    | simp only [↓keeps_mk]
    | refine keepsOf_upd ?_ rfl rfl rfl rfl rfl rfl ?_ ?_ ?_ ?_ ?_ ?_ ?_ ?_ ?_ ?_ ?_ ?_ ?_ ?_ ?_ ?_ ?_ ?_ ?_ ?_ ?_ ?_
    | with_reducible apply keeps_answered
    | with_reducible apply keeps_stateCtl
    | dsimp -zeta -zetaHave only


theorem keeps_execStatectlDormant (a s) (h1 : Keeps K s) (hp : Sub 0x7FFFFF K.may) : ∃ t, execStatectlDormant a s = .next t ∧ Keeps K t := by
  rw [execStatectlDormant_eq]
  refine ⟨_, rfl, ?_⟩
  repeat' first
    | with_reducible assumption
    | exact sub_mono hp (by decide)
    | exact Or.inr rfl
    | exact Or.inl (may_of hp (by decide))
    | simp only [↓keeps_mk]
    | refine keepsOf_upd ?_ rfl rfl rfl rfl rfl rfl ?_ ?_ ?_ ?_ ?_ ?_ ?_ ?_ ?_ ?_ ?_ ?_ ?_ ?_ ?_ ?_ ?_ ?_ ?_ ?_ ?_ ?_
    | with_reducible apply keeps_answered
    | with_reducible apply keeps_stateCtl
    | dsimp -zeta -zetaHave only


theorem keeps_execDomreqWrite (a b s) (h2 : Keeps K s) (hp : Sub 0x100000 K.may) : ∃ t, execDomreqWrite a b s = .next t ∧ Keeps K t := by
  rw [execDomreqWrite_eq]
  refine ⟨_, rfl, ?_⟩
  repeat' first
    | with_reducible assumption
    | exact sub_mono hp (by decide)
    | exact Or.inr rfl
    | exact Or.inl (may_of hp (by decide))
    | simp only [↓keeps_mk]
    | refine keepsOf_upd ?_ rfl rfl rfl rfl rfl rfl ?_ ?_ ?_ ?_ ?_ ?_ ?_ ?_ ?_ ?_ ?_ ?_ ?_ ?_ ?_ ?_ ?_ ?_ ?_ ?_ ?_ ?_
    | with_reducible apply keeps_answered
    | with_reducible apply keeps_domReq
    | dsimp -zeta -zetaHave only


theorem keeps_execConfirm (a s) (h1 : Keeps K s) (hp : Sub 0x7FFFFF K.may) : ∃ t, execConfirm a s = .next t ∧ Keeps K t := by
  rw [execConfirm_eq]
  refine ⟨_, rfl, ?_⟩
  repeat' first
    | with_reducible assumption
    | exact sub_mono hp (by decide)
    | exact Or.inr rfl
    | exact Or.inl (may_of hp (by decide))
    | simp only [↓keeps_mk]
    | refine keepsOf_upd ?_ rfl rfl rfl rfl rfl rfl ?_ ?_ ?_ ?_ ?_ ?_ ?_ ?_ ?_ ?_ ?_ ?_ ?_ ?_ ?_ ?_ ?_ ?_ ?_ ?_ ?_ ?_
    | with_reducible apply keeps_answered
    | with_reducible apply keeps_bootCtl
    | dsimp -zeta -zetaHave only


theorem keeps_execBootRestart (a b s) (h2 : Keeps K s) (hp : Sub 0x7FFFFF K.may) : ∃ t, execBootRestart a b s = .next t ∧ Keeps K t := by
  rw [execBootRestart_eq]
  refine ⟨_, rfl, ?_⟩
  repeat' first
    | with_reducible assumption
    | exact sub_mono hp (by decide)
    | exact Or.inr rfl
    | exact Or.inl (may_of hp (by decide))
    | simp only [↓keeps_mk]
    | refine keepsOf_upd ?_ rfl rfl rfl rfl rfl rfl ?_ ?_ ?_ ?_ ?_ ?_ ?_ ?_ ?_ ?_ ?_ ?_ ?_ ?_ ?_ ?_ ?_ ?_ ?_ ?_ ?_ ?_
    | with_reducible apply keeps_answered
    | with_reducible apply keeps_bootCtl
    | with_reducible refine keeps_of_fst (by with_reducible assumption) ?_
    | dsimp -zeta -zetaHave only
    | split


theorem keeps_execBootReady (a s) (h1 : Keeps K s) (hp : Sub 0x80010 K.may) : ∃ t, execBootReady a s = .next t ∧ Keeps K t := by
  rw [execBootReady_eq]
  refine ⟨_, rfl, ?_⟩
  repeat' first
    | with_reducible assumption
    | exact sub_mono hp (by decide)
    | exact Or.inr rfl
    | exact Or.inl (may_of hp (by decide))
    | simp only [↓keeps_mk]
    | refine keepsOf_upd ?_ rfl rfl rfl rfl rfl rfl ?_ ?_ ?_ ?_ ?_ ?_ ?_ ?_ ?_ ?_ ?_ ?_ ?_ ?_ ?_ ?_ ?_ ?_ ?_ ?_ ?_ ?_
    | with_reducible apply keeps_answered
    | with_reducible apply keeps_bootReady
    | dsimp -zeta -zetaHave only


theorem keeps_execFailClear (a s) (h1 : Keeps K s) : ∃ t, execFailClear a s = .next t ∧ Keeps K t := by
  rw [execFailClear_eq]
  refine ⟨_, rfl, ?_⟩
  repeat' first
    | with_reducible assumption
    | exact Or.inr rfl
    | simp only [↓keeps_mk]
    | refine keepsOf_upd ?_ rfl rfl rfl rfl rfl rfl ?_ ?_ ?_ ?_ ?_ ?_ ?_ ?_ ?_ ?_ ?_ ?_ ?_ ?_ ?_ ?_ ?_ ?_ ?_ ?_ ?_ ?_
    | with_reducible apply keeps_answered
    | with_reducible apply keeps_failClear
    | dsimp -zeta -zetaHave only


theorem keeps_execWdkick (a b s) (h2 : Keeps K s) (hp : Sub 0x80000 K.may) : ∃ t, execWdkick a b s = .next t ∧ Keeps K t := by
  rw [execWdkick_eq]
  refine ⟨_, rfl, ?_⟩
  repeat' first
    | with_reducible assumption
    | exact sub_mono hp (by decide)
    | exact Or.inr rfl
    | exact Or.inl (may_of hp (by decide))
    | simp only [↓keeps_mk]
    | refine keepsOf_upd ?_ rfl rfl rfl rfl rfl rfl ?_ ?_ ?_ ?_ ?_ ?_ ?_ ?_ ?_ ?_ ?_ ?_ ?_ ?_ ?_ ?_ ?_ ?_ ?_ ?_ ?_ ?_
    | with_reducible apply keeps_answered
    | with_reducible apply keeps_wdKick
    | dsimp -zeta -zetaHave only


theorem keeps_execWdogTimeoutWrite (a b s) (h2 : Keeps K s) (hp : Sub 0x7FFFFF K.may) : ∃ t, execWdogTimeoutWrite a b s = .next t ∧ Keeps K t := by
  refine ⟨_, rfl, ?_⟩
  repeat' first
    | with_reducible assumption
    | exact sub_mono hp (by decide)
    | exact Or.inr rfl
    | exact Or.inl (may_of hp (by decide))
    | simp only [↓keeps_mk]
    | refine keepsOf_upd ?_ rfl rfl rfl rfl rfl rfl ?_ ?_ ?_ ?_ ?_ ?_ ?_ ?_ ?_ ?_ ?_ ?_ ?_ ?_ ?_ ?_ ?_ ?_ ?_ ?_ ?_ ?_
    | with_reducible apply keeps_busWrite
    | dsimp -zeta -zetaHave only


theorem keeps_execKeyrevoke (a b s) (h2 : Keeps K s) (hp : Sub 0x80000 K.may) : ∃ t, execKeyrevoke a b s = .next t ∧ Keeps K t := by
  rw [execKeyrevoke_eq]
  refine ⟨_, rfl, ?_⟩
  repeat' first
    | with_reducible assumption
    | exact sub_mono hp (by decide)
    | exact Or.inr rfl
    | exact Or.inl (may_of hp (by decide))
    | simp only [↓keeps_mk]
    | refine keepsOf_upd ?_ rfl rfl rfl rfl rfl rfl ?_ ?_ ?_ ?_ ?_ ?_ ?_ ?_ ?_ ?_ ?_ ?_ ?_ ?_ ?_ ?_ ?_ ?_ ?_ ?_ ?_ ?_
    | with_reducible apply keeps_answered
    | with_reducible apply keeps_keyRevoke
    | dsimp -zeta -zetaHave only


theorem keeps_execAttnAck (a s) (h1 : Keeps K s) (hp : Sub 0x200000 K.may) : ∃ t, execAttnAck a s = .next t ∧ Keeps K t := by
  rw [execAttnAck_eq]
  refine ⟨_, rfl, ?_⟩
  repeat' first
    | with_reducible assumption
    | exact sub_mono hp (by decide)
    | exact Or.inr rfl
    | exact Or.inl (may_of hp (by decide))
    | simp only [↓keeps_mk]
    | refine keepsOf_upd ?_ rfl rfl rfl rfl rfl rfl ?_ ?_ ?_ ?_ ?_ ?_ ?_ ?_ ?_ ?_ ?_ ?_ ?_ ?_ ?_ ?_ ?_ ?_ ?_ ?_ ?_ ?_
    | with_reducible apply keeps_answered
    | with_reducible apply keeps_attnWrite
    | dsimp -zeta -zetaHave only


theorem keeps_execKeyClear (a b s) (h2 : Keeps K s) (hp : Sub 0x2000 K.may) : ∃ t, execKeyClear a b s = .next t ∧ Keeps K t := by
  rw [execKeyClear_eq]
  refine ⟨_, rfl, ?_⟩
  repeat' first
    | with_reducible assumption
    | exact sub_mono hp (by decide)
    | exact Or.inr rfl
    | exact Or.inl (may_of hp (by decide))
    | simp only [↓keeps_mk]
    | refine keepsOf_upd ?_ rfl rfl rfl rfl rfl rfl ?_ ?_ ?_ ?_ ?_ ?_ ?_ ?_ ?_ ?_ ?_ ?_ ?_ ?_ ?_ ?_ ?_ ?_ ?_ ?_ ?_ ?_
    | with_reducible apply keeps_answered
    | with_reducible apply keeps_keyClear
    | dsimp -zeta -zetaHave only


theorem keeps_execIdcfgWrite (a b s) (h2 : Keeps K s) (hp : Sub 0x18068 K.may) : ∃ t, execIdcfgWrite a b s = .next t ∧ Keeps K t := by
  rw [execIdcfgWrite_eq]
  refine ⟨_, rfl, ?_⟩
  repeat' first
    | with_reducible assumption
    | exact sub_mono hp (by decide)
    | exact Or.inr rfl
    | exact Or.inl (may_of hp (by decide))
    | simp only [↓keeps_mk]
    | refine keepsOf_upd ?_ rfl rfl rfl rfl rfl rfl ?_ ?_ ?_ ?_ ?_ ?_ ?_ ?_ ?_ ?_ ?_ ?_ ?_ ?_ ?_ ?_ ?_ ?_ ?_ ?_ ?_ ?_
    | with_reducible apply keeps_answered
    | with_reducible apply keeps_idcfgWrite
    | dsimp -zeta -zetaHave only


theorem keeps_execFcmtGo (a b c s) (h3 : Keeps K s) (hp : Sub 0xC070 K.may) : ∃ t, execFcmtGo a b c s = .next t ∧ Keeps K t := by
  rw [execFcmtGo_eq]
  refine ⟨_, rfl, ?_⟩
  repeat' first
    | with_reducible assumption
    | exact sub_mono hp (by decide)
    | exact Or.inr rfl
    | exact Or.inl (may_of hp (by decide))
    | simp only [↓keeps_mk]
    | refine keepsOf_upd ?_ rfl rfl rfl rfl rfl rfl ?_ ?_ ?_ ?_ ?_ ?_ ?_ ?_ ?_ ?_ ?_ ?_ ?_ ?_ ?_ ?_ ?_ ?_ ?_ ?_ ?_ ?_
    | with_reducible apply keeps_answered
    | with_reducible apply keeps_fcmtGo
    | dsimp -zeta -zetaHave only


theorem keeps_execFcctlFire (a s) (h1 : Keeps K s) (hp : Sub 0xC070 K.may) : ∃ t, execFcctlFire a s = .next t ∧ Keeps K t := by
  rw [execFcctlFire_eq]
  refine ⟨_, rfl, ?_⟩
  repeat' first
    | with_reducible assumption
    | exact sub_mono hp (by decide)
    | exact Or.inr rfl
    | exact Or.inl (may_of hp (by decide))
    | simp only [↓keeps_mk]
    | refine keepsOf_upd ?_ rfl rfl rfl rfl rfl rfl ?_ ?_ ?_ ?_ ?_ ?_ ?_ ?_ ?_ ?_ ?_ ?_ ?_ ?_ ?_ ?_ ?_ ?_ ?_ ?_ ?_ ?_
    | with_reducible apply keeps_answered
    | with_reducible apply keeps_fcctl
    | dsimp -zeta -zetaHave only


theorem keeps_execFcctlAbort (a s) (h1 : Keeps K s) (hp : Sub 0xC070 K.may) : ∃ t, execFcctlAbort a s = .next t ∧ Keeps K t := by
  rw [execFcctlAbort_eq]
  refine ⟨_, rfl, ?_⟩
  repeat' first
    | with_reducible assumption
    | exact sub_mono hp (by decide)
    | exact Or.inr rfl
    | exact Or.inl (may_of hp (by decide))
    | simp only [↓keeps_mk]
    | refine keepsOf_upd ?_ rfl rfl rfl rfl rfl rfl ?_ ?_ ?_ ?_ ?_ ?_ ?_ ?_ ?_ ?_ ?_ ?_ ?_ ?_ ?_ ?_ ?_ ?_ ?_ ?_ ?_ ?_
    | with_reducible apply keeps_answered
    | with_reducible apply keeps_fcctl
    | dsimp -zeta -zetaHave only


theorem keeps_execFabTxtailWrite (a b s) (h2 : Keeps K s) (hp : Sub 0x1FB7D K.may) : ∃ t, execFabTxtailWrite a b s = .next t ∧ Keeps K t := by
  rw [execFabTxtailWrite_eq]
  refine ⟨_, rfl, ?_⟩
  repeat' first
    | with_reducible assumption
    | exact sub_mono hp (by decide)
    | exact Or.inr rfl
    | exact Or.inl (may_of hp (by decide))
    | simp only [↓keeps_mk]
    | refine keepsOf_upd ?_ rfl rfl rfl rfl rfl rfl ?_ ?_ ?_ ?_ ?_ ?_ ?_ ?_ ?_ ?_ ?_ ?_ ?_ ?_ ?_ ?_ ?_ ?_ ?_ ?_ ?_ ?_
    | with_reducible apply keeps_answered
    | with_reducible apply keeps_fabTxTail
    | dsimp -zeta -zetaHave only


theorem keeps_execCpuModeWrite (a b c s) (h3 : Keeps K s) (hp : Sub 0x7FFFFF K.may) : ∃ t, execCpuModeWrite a b c s = .next t ∧ Keeps K t := by
  refine ⟨_, rfl, ?_⟩
  repeat' first
    | with_reducible assumption
    | exact sub_mono hp (by decide)
    | exact Or.inr rfl
    | exact Or.inl (may_of hp (by decide))
    | simp only [↓keeps_mk]
    | refine keepsOf_upd ?_ rfl rfl rfl rfl rfl rfl ?_ ?_ ?_ ?_ ?_ ?_ ?_ ?_ ?_ ?_ ?_ ?_ ?_ ?_ ?_ ?_ ?_ ?_ ?_ ?_ ?_ ?_
    | with_reducible apply keeps_busWrite
    | dsimp -zeta -zetaHave only


theorem keeps_execSourceTargetWrite (a b c s) (h3 : Keeps K s) (hp : Sub 0x7FFFFF K.may) : ∃ t, execSourceTargetWrite a b c s = .next t ∧ Keeps K t := by
  refine ⟨_, rfl, ?_⟩
  repeat' first
    | with_reducible assumption
    | exact sub_mono hp (by decide)
    | exact Or.inr rfl
    | exact Or.inl (may_of hp (by decide))
    | simp only [↓keeps_mk]
    | refine keepsOf_upd ?_ rfl rfl rfl rfl rfl rfl ?_ ?_ ?_ ?_ ?_ ?_ ?_ ?_ ?_ ?_ ?_ ?_ ?_ ?_ ?_ ?_ ?_ ?_ ?_ ?_ ?_ ?_
    | with_reducible apply keeps_busWrite
    | dsimp -zeta -zetaHave only


theorem keeps_execEvcSet (a b s) (h2 : Keeps K s) (hp : Sub 0x60 K.may) : ∃ t, execEvcSet a b s = .next t ∧ Keeps K t := by
  rw [execEvcSet_eq]
  refine ⟨_, rfl, ?_⟩
  repeat' first
    | with_reducible assumption
    | exact sub_mono hp (by decide)
    | exact Or.inr rfl
    | exact Or.inl (may_of hp (by decide))
    | simp only [↓keeps_mk]
    | refine keepsOf_upd ?_ rfl rfl rfl rfl rfl rfl ?_ ?_ ?_ ?_ ?_ ?_ ?_ ?_ ?_ ?_ ?_ ?_ ?_ ?_ ?_ ?_ ?_ ?_ ?_ ?_ ?_ ?_
    | with_reducible apply keeps_answered
    | with_reducible apply keeps_arrive
    | dsimp -zeta -zetaHave only


theorem keeps_execEvcClr (a b s) (h2 : Keeps K s) (hp : Sub 0x20 K.may) : ∃ t, execEvcClr a b s = .next t ∧ Keeps K t := by
  rw [execEvcClr_eq]
  refine ⟨_, rfl, ?_⟩
  repeat' first
    | with_reducible assumption
    | exact sub_mono hp (by decide)
    | exact Or.inr rfl
    | exact Or.inl (may_of hp (by decide))
    | simp only [↓keeps_mk]
    | refine keepsOf_upd ?_ rfl rfl rfl rfl rfl rfl ?_ ?_ ?_ ?_ ?_ ?_ ?_ ?_ ?_ ?_ ?_ ?_ ?_ ?_ ?_ ?_ ?_ ?_ ?_ ?_ ?_ ?_
    | with_reducible apply keeps_answered
    | with_reducible apply keeps_srcClear
    | dsimp -zeta -zetaHave only


theorem keeps_execPset (a b c s) (h3 : Keeps K s) (hp : Sub 0x60 K.may) : ∃ t, execPset a b c s = .next t ∧ Keeps K t := by
  rw [execPset_eq]
  refine ⟨_, rfl, ?_⟩
  repeat' first
    | with_reducible assumption
    | exact sub_mono hp (by decide)
    | exact Or.inr rfl
    | exact Or.inl (may_of hp (by decide))
    | simp only [↓keeps_mk]
    | refine keepsOf_upd ?_ rfl rfl rfl rfl rfl rfl ?_ ?_ ?_ ?_ ?_ ?_ ?_ ?_ ?_ ?_ ?_ ?_ ?_ ?_ ?_ ?_ ?_ ?_ ?_ ?_ ?_ ?_
    | with_reducible apply keeps_answered
    | with_reducible apply keeps_arrivePriv
    | dsimp -zeta -zetaHave only


theorem keeps_execPclr (a b c s) (h3 : Keeps K s) (hp : Sub 0x20 K.may) : ∃ t, execPclr a b c s = .next t ∧ Keeps K t := by
  rw [execPclr_eq]
  refine ⟨_, rfl, ?_⟩
  repeat' first
    | with_reducible assumption
    | exact sub_mono hp (by decide)
    | exact Or.inr rfl
    | exact Or.inl (may_of hp (by decide))
    | simp only [↓keeps_mk]
    | refine keepsOf_upd ?_ rfl rfl rfl rfl rfl rfl ?_ ?_ ?_ ?_ ?_ ?_ ?_ ?_ ?_ ?_ ?_ ?_ ?_ ?_ ?_ ?_ ?_ ?_ ?_ ?_ ?_ ?_
    | with_reducible apply keeps_answered
    | with_reducible apply keeps_presentAll
    | with_reducible apply keeps_setSrc
    | dsimp -zeta -zetaHave only


theorem keeps_execDoorbell (a b c s) (h3 : Keeps K s) (hp : Sub 0x60 K.may) : ∃ t, execDoorbell a b c s = .next t ∧ Keeps K t := by
  rw [execDoorbell_eq]
  refine ⟨_, rfl, ?_⟩
  repeat' first
    | with_reducible assumption
    | exact sub_mono hp (by decide)
    | exact Or.inr rfl
    | exact Or.inl (may_of hp (by decide))
    | simp only [↓keeps_mk]
    | refine keepsOf_upd ?_ rfl rfl rfl rfl rfl rfl ?_ ?_ ?_ ?_ ?_ ?_ ?_ ?_ ?_ ?_ ?_ ?_ ?_ ?_ ?_ ?_ ?_ ?_ ?_ ?_ ?_ ?_
    | with_reducible apply keeps_answered
    | with_reducible apply keeps_doorbell
    | dsimp -zeta -zetaHave only


theorem keeps_execTskPost (a b s) (h2 : Keeps K s) (hp : Sub 0x60 K.may) : ∃ t, execTskPost a b s = .next t ∧ Keeps K t := by
  rw [execTskPost_eq]
  refine ⟨_, rfl, ?_⟩
  repeat' first
    | with_reducible assumption
    | exact sub_mono hp (by decide)
    | exact Or.inr rfl
    | exact Or.inl (may_of hp (by decide))
    | simp only [↓keeps_mk]
    | refine keepsOf_upd ?_ rfl rfl rfl rfl rfl rfl ?_ ?_ ?_ ?_ ?_ ?_ ?_ ?_ ?_ ?_ ?_ ?_ ?_ ?_ ?_ ?_ ?_ ?_ ?_ ?_ ?_ ?_
    | with_reducible apply keeps_answered
    | with_reducible apply keeps_postTask
    | dsimp -zeta -zetaHave only


theorem keeps_execDelaygo (a b c s) (h3 : Keeps K s) (hp : Sub 0x40 K.may) : ∃ t, execDelaygo a b c s = .next t ∧ Keeps K t := by
  rw [execDelaygo_eq]
  refine ⟨_, rfl, ?_⟩
  repeat' first
    | with_reducible assumption
    | exact sub_mono hp (by decide)
    | exact Or.inr rfl
    | exact Or.inl (may_of hp (by decide))
    | simp only [↓keeps_mk]
    | refine keepsOf_upd ?_ rfl rfl rfl rfl rfl rfl ?_ ?_ ?_ ?_ ?_ ?_ ?_ ?_ ?_ ?_ ?_ ?_ ?_ ?_ ?_ ?_ ?_ ?_ ?_ ?_ ?_ ?_
    | with_reducible apply keeps_answered
    | with_reducible apply keeps_delayGo
    | dsimp -zeta -zetaHave only


theorem keeps_execCancel (a b s) (h2 : Keeps K s) (hp : Sub 0x40 K.may) : ∃ t, execCancel a b s = .next t ∧ Keeps K t := by
  rw [execCancel_eq]
  refine ⟨_, rfl, ?_⟩
  repeat' first
    | with_reducible assumption
    | exact sub_mono hp (by decide)
    | exact Or.inr rfl
    | exact Or.inl (may_of hp (by decide))
    | simp only [↓keeps_mk]
    | refine keepsOf_upd ?_ rfl rfl rfl rfl rfl rfl ?_ ?_ ?_ ?_ ?_ ?_ ?_ ?_ ?_ ?_ ?_ ?_ ?_ ?_ ?_ ?_ ?_ ?_ ?_ ?_ ?_ ?_
    | with_reducible apply keeps_answered
    | with_reducible apply keeps_cancelTask
    | dsimp -zeta -zetaHave only


theorem keeps_extAccept (a b s) (h2 : Keeps K s) (hp : Sub 0xE0 K.may) : Keeps K (extAccept a b s) := by
  unfold extAccept
  repeat' first
    | with_reducible assumption
    | exact sub_mono hp (by decide)
    | (extract_lets +onlyGivenNames x; have hx : Keeps K x; (on_goal 2 => clear_value x); (on_goal 1 => unfold x; clear x))
    | (extract_lets +onlyGivenNames x; have hx : Keeps K x; (on_goal 1 => unfold x; clear x))
    | (extract_lets +onlyGivenNames x; clear_value x)
    | extract_lets +onlyGivenNames x
    | exact Or.inr rfl
    | exact Or.inl (may_of hp (by decide))
    | simp only [↓keeps_mk]
    | refine keepsOf_upd ?_ rfl rfl rfl rfl rfl rfl ?_ ?_ ?_ ?_ ?_ ?_ ?_ ?_ ?_ ?_ ?_ ?_ ?_ ?_ ?_ ?_ ?_ ?_ ?_ ?_ ?_ ?_
    | with_reducible apply keeps_arrive
    | with_reducible apply keeps_set
    | with_reducible refine keeps_of_fst (by with_reducible assumption) ?_
    | dsimp -zeta -zetaHave only
    | split


theorem keeps_execSourceArrival (a s) (h1 : Keeps K s) (hp : Sub 0x60 K.may) : ∃ t, execSourceArrival a s = .next t ∧ Keeps K t := by
  refine ⟨_, rfl, ?_⟩
  repeat' first
    | with_reducible assumption
    | exact sub_mono hp (by decide)
    | exact Or.inr rfl
    | exact Or.inl (may_of hp (by decide))
    | simp only [↓keeps_mk]
    | refine keepsOf_upd ?_ rfl rfl rfl rfl rfl rfl ?_ ?_ ?_ ?_ ?_ ?_ ?_ ?_ ?_ ?_ ?_ ?_ ?_ ?_ ?_ ?_ ?_ ?_ ?_ ?_ ?_ ?_
    | with_reducible apply keeps_arrive
    | dsimp -zeta -zetaHave only


theorem keeps_execTimerSource (a s) (h1 : Keeps K s) (hp : Sub 0x60 K.may) : ∃ t, execTimerSource a s = .next t ∧ Keeps K t := by
  refine ⟨_, rfl, ?_⟩
  repeat' first
    | with_reducible assumption
    | exact sub_mono hp (by decide)
    | exact Or.inr rfl
    | exact Or.inl (may_of hp (by decide))
    | simp only [↓keeps_mk]
    | refine keepsOf_upd ?_ rfl rfl rfl rfl rfl rfl ?_ ?_ ?_ ?_ ?_ ?_ ?_ ?_ ?_ ?_ ?_ ?_ ?_ ?_ ?_ ?_ ?_ ?_ ?_ ?_ ?_ ?_
    | with_reducible apply keeps_arrivePriv
    | dsimp -zeta -zetaHave only


theorem keeps_execExtFilterAccept (a b s) (h2 : Keeps K s) (hp : Sub 0xE0 K.may) : ∃ t, execExtFilterAccept a b s = .next t ∧ Keeps K t := by
  refine ⟨_, rfl, ?_⟩
  repeat' first
    | with_reducible assumption
    | exact sub_mono hp (by decide)
    | exact Or.inr rfl
    | exact Or.inl (may_of hp (by decide))
    | simp only [↓keeps_mk]
    | refine keepsOf_upd ?_ rfl rfl rfl rfl rfl rfl ?_ ?_ ?_ ?_ ?_ ?_ ?_ ?_ ?_ ?_ ?_ ?_ ?_ ?_ ?_ ?_ ?_ ?_ ?_ ?_ ?_ ?_
    | with_reducible apply keeps_extAccept
    | dsimp -zeta -zetaHave only


theorem keeps_execCoreWake (a s) (h1 : Keeps K s) (hp : Sub 0x64 K.may) : ∃ t, execCoreWake a s = .next t ∧ Keeps K t := by
  refine ⟨_, rfl, ?_⟩
  repeat' first
    | with_reducible assumption
    | exact sub_mono hp (by decide)
    | exact Or.inr rfl
    | exact Or.inl (may_of hp (by decide))
    | simp only [↓keeps_mk]
    | refine keepsOf_upd ?_ rfl rfl rfl rfl rfl rfl ?_ ?_ ?_ ?_ ?_ ?_ ?_ ?_ ?_ ?_ ?_ ?_ ?_ ?_ ?_ ?_ ?_ ?_ ?_ ?_ ?_ ?_
    | with_reducible apply keeps_coreMask
    | with_reducible apply keeps_coreWake
    | with_reducible refine keeps_of_fst (by with_reducible assumption) ?_
    | dsimp -zeta -zetaHave only
    | split


theorem keeps_execPostDrain (s) (h0 : Keeps K s) (hp : Sub 0x20306A K.may) : ∃ t, execPostDrain s = .next t ∧ Keeps K t := by
  refine ⟨_, rfl, ?_⟩
  repeat' first
    | with_reducible assumption
    | exact sub_mono hp (by decide)
    | exact Or.inr rfl
    | exact Or.inl (may_of hp (by decide))
    | simp only [↓keeps_mk]
    | refine keepsOf_upd ?_ rfl rfl rfl rfl rfl rfl ?_ ?_ ?_ ?_ ?_ ?_ ?_ ?_ ?_ ?_ ?_ ?_ ?_ ?_ ?_ ?_ ?_ ?_ ?_ ?_ ?_ ?_
    | with_reducible apply keeps_drainPost
    | dsimp -zeta -zetaHave only


theorem keeps_execDelayTick (s) (h0 : Keeps K s) (hp : Sub 0x60 K.may) : ∃ t, execDelayTick s = .next t ∧ Keeps K t := by
  refine ⟨_, rfl, ?_⟩
  repeat' first
    | with_reducible assumption
    | exact sub_mono hp (by decide)
    | exact Or.inr rfl
    | exact Or.inl (may_of hp (by decide))
    | simp only [↓keeps_mk]
    | refine keepsOf_upd ?_ rfl rfl rfl rfl rfl rfl ?_ ?_ ?_ ?_ ?_ ?_ ?_ ?_ ?_ ?_ ?_ ?_ ?_ ?_ ?_ ?_ ?_ ?_ ?_ ?_ ?_ ?_
    | with_reducible apply keeps_delayTick
    | dsimp -zeta -zetaHave only


end Sys2Proof.Machine
end

