-- ==== Sys2Proof/Laws/KeepsExec.lean ====
section
/-!
SUPPORT. What every command of the table keeps: each answers a next state, and leaves the parts outside its footprint as they were.
-/
namespace Sys2Proof.Machine
open Sys2Proof

variable {K : Keeping}

/-- The bit that stands for a part. -/
def Part.bit : Part → Nat
  | .mem => 0
  | .tap => 1
  | .mm => 2
  | .time => 3
  | .cmt => 4
  | .cores => 5
  | .tsk => 6
  | .evc => 7
  | .vens => 8
  | .outs => 9
  | .col => 10
  | .cal => 11
  | .snd => 12
  | .net => 13
  | .bru => 14
  | .fab => 15
  | .air => 16
  | .dma => 17
  | .que => 18
  | .boot => 19
  | .pwr => 20
  | .svc => 21
  | .staged => 22

/-- The bits of some parts. -/
def partBits : List Part → Nat
  | [] => 0
  | p :: l => 2 ^ p.bit ||| partBits l

theorem partBits_mem (l : List Part) (p : Part) : (partBits l).testBit p.bit = true ↔ p ∈ l := by
  induction l with
  | nil => simp [partBits]
  | cons x t ih =>
    simp only [partBits, Nat.testBit_or, Bool.or_eq_true, ih, List.mem_cons, Nat.testBit_two_pow, decide_eq_true_eq]
    constructor
    · rintro (h | h)
      · left; revert h; cases x <;> cases p <;> simp [Part.bit]
      · exact .inr h
    · rintro (rfl | h)
      · exact .inl rfl
      · exact .inr h

/-- A part that a state keeps is that of the state before. -/
theorem Keeps.same {s t : State} {p : Part} (h : Keeps K t) (e : K.base = s) (hp : K.may.testBit p.bit = false) : p.same s t := by
  subst e
  have k := h.parts
  cases p
  case mem => exact k.memOk'.resolve_left (by simp [Keeping.May, Part.bit] at hp ⊢; exact hp)
  case tap => exact k.tapOk'.resolve_left (by simp [Keeping.May, Part.bit] at hp ⊢; exact hp)
  case mm => exact k.mmOk'.resolve_left (by simp [Keeping.May, Part.bit] at hp ⊢; exact hp)
  case time => exact k.timeOk'.resolve_left (by simp [Keeping.May, Part.bit] at hp ⊢; exact hp)
  case cmt => exact k.cmtOk'.resolve_left (by simp [Keeping.May, Part.bit] at hp ⊢; exact hp)
  case cores => exact k.coresOk'.resolve_left (by simp [Keeping.May, Part.bit] at hp ⊢; exact hp)
  case tsk => exact k.tskOk'.resolve_left (by simp [Keeping.May, Part.bit] at hp ⊢; exact hp)
  case evc => exact k.evcOk'.resolve_left (by simp [Keeping.May, Part.bit] at hp ⊢; exact hp)
  case vens => exact k.vensOk'.resolve_left (by simp [Keeping.May, Part.bit] at hp ⊢; exact hp)
  case outs => exact k.outsOk'.resolve_left (by simp [Keeping.May, Part.bit] at hp ⊢; exact hp)
  case col => exact k.colOk'.resolve_left (by simp [Keeping.May, Part.bit] at hp ⊢; exact hp)
  case cal => exact k.calOk'.resolve_left (by simp [Keeping.May, Part.bit] at hp ⊢; exact hp)
  case snd => exact k.sndOk'.resolve_left (by simp [Keeping.May, Part.bit] at hp ⊢; exact hp)
  case net => exact k.netOk'.resolve_left (by simp [Keeping.May, Part.bit] at hp ⊢; exact hp)
  case bru => exact k.bruOk'.resolve_left (by simp [Keeping.May, Part.bit] at hp ⊢; exact hp)
  case fab => exact k.fabOk'.resolve_left (by simp [Keeping.May, Part.bit] at hp ⊢; exact hp)
  case air => exact k.airOk'.resolve_left (by simp [Keeping.May, Part.bit] at hp ⊢; exact hp)
  case dma => exact ⟨k.dmaOk'.resolve_left (by simp [Keeping.May, Part.bit] at hp ⊢; exact hp), k.dmaRemOk'.resolve_left (by simp [Keeping.May, Part.bit] at hp ⊢; exact hp)⟩
  case que => exact k.queOk'.resolve_left (by simp [Keeping.May, Part.bit] at hp ⊢; exact hp)
  case boot => exact k.bootOk'.resolve_left (by simp [Keeping.May, Part.bit] at hp ⊢; exact hp)
  case pwr => exact k.pwrOk'.resolve_left (by simp [Keeping.May, Part.bit] at hp ⊢; exact hp)
  case svc => exact k.svcOk'.resolve_left (by simp [Keeping.May, Part.bit] at hp ⊢; exact hp)
  case staged => exact k.stagedOk'.resolve_left (by simp [Keeping.May, Part.bit] at hp ⊢; exact hp)

theorem sub_footprint {i : Instr} (l : List Part) {m : Nat} (e : footprint i = l) (h : Sub (partBits (footprint i)) m) :
    Sub (partBits l) m := e ▸ h

/-- Every command answers a next state, which keeps the canonical forms of the stores, the commands that wait, the free values drawn and
the parts outside the command's footprint. -/
theorem keeps_exec (i : Instr) {s : State} (h : Keeps K s) (hp : Sub (partBits (footprint i)) K.may) :
    ∃ t, exec i s = .next t ∧ Keeps K t := by
  cases i with
  | frameStart => exact keeps_execFrameStart s h (sub_mono (sub_footprint Part.all rfl hp) (by decide))
  | commitCutoff => exact keeps_execCommitCutoff s h (sub_mono (sub_footprint [.cmt, .cores, .tsk, .fab, .pwr] rfl hp) (by decide))
  | stateSweep => exact keeps_execStateSweep s h (sub_mono (sub_footprint [.mem, .mm, .cores, .tsk, .col] rfl hp) (by decide))
  | colourLanePass strand => exact keeps_execColourLanePass strand s h (sub_mono (sub_footprint [.mem, .mm, .cores, .tsk, .vens, .outs, .col] rfl hp) (by decide))
  | strandPrepared strand => exact keeps_execStrandPrepared strand s h (sub_mono (sub_footprint [.outs] rfl hp) (by decide))
  | fetchMiss ven => exact keeps_execFetchMiss ven s h (sub_mono (sub_footprint [.cores, .tsk, .vens] rfl hp) (by decide))
  | shiftStart strand => exact keeps_execShiftStart strand s h (sub_mono (sub_footprint [.mem, .mm, .cores, .tsk, .outs] rfl hp) (by decide))
  | shiftEnd strand ret seen => exact keeps_execShiftEnd strand ret seen s h (sub_mono (sub_footprint [.mem, .mm, .cores, .tsk, .outs] rfl hp) (by decide))
  | latchPulse grp => exact keeps_execLatchPulse grp s h (sub_mono (sub_footprint Part.all rfl hp) (by decide))
  | latchPulseEnd grp => exact keeps_execLatchPulseEnd grp s h (sub_mono (sub_footprint [.cores, .tsk, .outs] rfl hp) (by decide))
  | edgePlace place => exact keeps_execEdgePlace place s h (sub_mono (sub_footprint [.cores, .tsk, .outs] rfl hp) (by decide))
  | pinCheckSample pin seen => exact keeps_execPinCheckSample pin seen s h (sub_mono (sub_footprint [.cores, .tsk] rfl hp) (by decide))
  | wordReadMiss strand word => exact keeps_execWordReadMiss strand word s h (sub_mono (sub_footprint [.cores, .tsk, .outs] rfl hp) (by decide))
  | matrixSwitch strand => exact keeps_execMatrixSwitch strand s h (sub_mono (sub_footprint [.cores, .tsk, .outs] rfl hp) (by decide))
  | pwmPeriodStart strand => exact keeps_execPwmPeriodStart strand s h (sub_mono (sub_footprint [.outs] rfl hp) (by decide))
  | dmxBreak strand => exact keeps_execDmxBreak strand s h (sub_mono (sub_footprint [.mem, .mm, .cores, .tsk, .outs] rfl hp) (by decide))
  | rdmGo a port => exact keeps_execRdmGo a port s h (sub_mono (sub_footprint Part.all rfl hp) (by decide))
  | rdmResponseTimeout strand => exact keeps_execRdmResponseTimeout strand s h (sub_mono (sub_footprint [.cores, .tsk, .outs] rfl hp) (by decide))
  | rdmReceptionEnd strand data framing => exact keeps_execRdmReceptionEnd strand data framing s h (sub_mono (sub_footprint [.cores, .tsk, .outs] rfl hp) (by decide))
  | rdmMarkEnd strand => exact keeps_execRdmMarkEnd strand s h (sub_mono (sub_footprint [.cores, .tsk, .outs] rfl hp) (by decide))
  | panelRowSlot strand => exact keeps_execPanelRowSlot strand s h (sub_mono (sub_footprint [.cores, .tsk, .outs] rfl hp) (by decide))
  | gpioPulse strand => exact keeps_execGpioPulse strand s h (sub_mono (sub_footprint [.outs] rfl hp) (by decide))
  | gpiopush a port v => exact keeps_execGpiopush a port v s h (sub_mono (sub_footprint [.cores, .tsk, .outs] rfl hp) (by decide))
  | trigFilterAccept input level => exact keeps_execTrigFilterAccept input level s h (sub_mono (sub_footprint [.mem, .mm, .cores, .tsk, .outs, .cal] rfl hp) (by decide))
  | ovrFire a mask => exact keeps_execOvrFire a mask s h (sub_mono (sub_footprint [.mem, .mm, .cores, .tsk, .outs, .cal] rfl hp) (by decide))
  | ovrRelease a mask => exact keeps_execOvrRelease a mask s h (sub_mono (sub_footprint [.mem, .mm, .cores, .tsk, .outs, .cal] rfl hp) (by decide))
  | calRunStart trigger => exact keeps_execCalRunStart trigger s h (sub_mono (sub_footprint [.cal] rfl hp) (by decide))
  | calRunnow bank => exact keeps_execCalRunnow bank s h (sub_mono (sub_footprint [.cal] rfl hp) (by decide))
  | calWindowOpen => exact keeps_execCalWindowOpen s h (sub_mono (sub_footprint [.cores, .tsk, .outs, .cal] rfl hp) (by decide))
  | calWindowClose hits => exact keeps_execCalWindowClose hits s h (sub_mono (sub_footprint [.mm, .cores, .tsk, .outs, .cal] rfl hp) (by decide))
  | calTableComputeDone => exact keeps_execCalTableComputeDone s h (sub_mono (sub_footprint [.cores, .tsk, .cal] rfl hp) (by decide))
  | calStale bank => exact keeps_execCalStale bank s h (sub_mono (sub_footprint [.cores, .tsk] rfl hp) (by decide))
  | adcGroupStart g => exact keeps_execAdcGroupStart g s h (sub_mono (sub_footprint [.cores, .tsk, .cal] rfl hp) (by decide))
  | adcGrpstart v => exact keeps_execAdcGrpstart v s h (sub_mono (sub_footprint [.cores, .tsk, .cal] rfl hp) (by decide))
  | adcSample raw => exact keeps_execAdcSample raw s h (sub_mono (sub_footprint [.cal] rfl hp) (by decide))
  | adcGroupEnd => exact keeps_execAdcGroupEnd s h (sub_mono (sub_footprint [.cores, .tsk, .cal] rfl hp) (by decide))
  | adcCalStart => exact keeps_execAdcCalStart s h (sub_mono (sub_footprint [.cal] rfl hp) (by decide))
  | adcCalEnd zero full => exact keeps_execAdcCalEnd zero full s h (sub_mono (sub_footprint [.cores, .tsk, .cal] rfl hp) (by decide))
  | adcCalStarve => exact keeps_execAdcCalStarve s h (sub_mono (sub_footprint [.cores, .tsk, .cal] rfl hp) (by decide))
  | dieTempConversion temp => exact keeps_execDieTempConversion temp s h (sub_mono (sub_footprint [.cores, .tsk, .cal] rfl hp) (by decide))
  | servoMeasurement src off => exact keeps_execServoMeasurement src off s h (sub_mono (sub_footprint [.mm, .time, .cmt, .cores, .tsk, .outs, .col, .cal, .snd, .net, .bru, .fab, .air, .boot, .pwr] rfl hp) (by decide))
  | servoSourceTimeout => exact keeps_execServoSourceTimeout s h (sub_mono (sub_footprint [.time, .cmt, .cores, .tsk, .air, .boot] rfl hp) (by decide))
  | freqSlewIncrement => exact keeps_execFreqSlewIncrement s h (sub_mono (sub_footprint [.time] rfl hp) (by decide))
  | servosrcWrite a src => exact keeps_execServosrcWrite a src s h (sub_mono (sub_footprint [.time, .cmt, .cores, .tsk, .air, .boot] rfl hp) (by decide))
  | freezeWrite a on => exact keeps_execFreezeWrite a on s h (sub_mono (sub_footprint Part.all rfl hp) (by decide))
  | setgo a => exact keeps_execSetgo a s h (sub_mono (sub_footprint [.mm, .time, .cmt, .cores, .tsk, .outs, .col, .cal, .snd, .net, .bru, .fab, .air, .boot, .pwr] rfl hp) (by decide))
  | snapCapture a => exact keeps_execSnapCapture a s h
  | acqwaitExpiry => exact keeps_execAcqwaitExpiry s h (sub_mono (sub_footprint [.time, .cmt, .cores, .tsk, .air, .boot] rfl hp) (by decide))
  | holdoverStore => exact keeps_execHoldoverStore s h (sub_mono (sub_footprint [.time, .pwr] rfl hp) (by decide))
  | modeRequest a idx => exact keeps_execModeRequest a idx s h (sub_mono (sub_footprint [.time, .cmt, .cores, .tsk, .boot] rfl hp) (by decide))
  | modeChangeTEnd => exact keeps_execModeChangeTEnd s h (sub_mono (sub_footprint [.mm, .time, .cmt, .cores, .tsk, .outs, .col, .cal, .snd, .net, .bru, .fab, .air, .boot, .pwr] rfl hp) (by decide))
  | phaseStepTEnd => exact keeps_execPhaseStepTEnd s h (sub_mono (sub_footprint [.mm, .time, .cmt, .cores, .tsk, .outs, .col, .cal, .snd, .net, .bru, .fab, .air, .boot, .pwr] rfl hp) (by decide))
  | phaseSrcWrite a src => exact keeps_execPhaseSrcWrite a src s h (sub_mono (sub_footprint Part.all rfl hp) (by decide))
  | referenceInstant ltc t => exact keeps_execReferenceInstant ltc t s h (sub_mono (sub_footprint [.time, .cmt, .cores, .tsk, .boot] rfl hp) (by decide))
  | referenceMissed => exact keeps_execReferenceMissed s h (sub_mono (sub_footprint [.time, .cores, .tsk] rfl hp) (by decide))
  | triggerFire n => exact keeps_execTriggerFire n s h (sub_mono (sub_footprint [.time, .cores, .tsk, .cal] rfl hp) (by decide))
  | trgcfgWrite a n v => exact keeps_execTrgcfgWrite a n v s h (sub_mono (sub_footprint [.time, .cores, .tsk, .cal] rfl hp) (by decide))
  | trgtimeWrite n v => exact keeps_execTrgtimeWrite n v s h (sub_mono (sub_footprint [.time, .cores, .tsk, .cal] rfl hp) (by decide))
  | trgperiodWrite a n v => exact keeps_execTrgperiodWrite a n v s h (sub_mono (sub_footprint [.time, .cores, .tsk, .cal] rfl hp) (by decide))
  | ppsPulse => exact keeps_execPpsPulse s h (sub_mono (sub_footprint [.time] rfl hp) (by decide))
  | ppsPulseEnd => exact keeps_execPpsPulseEnd s h (sub_mono (sub_footprint [.time] rfl hp) (by decide))
  | ptpMessageReceive port t msg => exact keeps_execPtpMessageReceive port t msg s h (sub_mono (sub_footprint [.mm, .time, .cmt, .cores, .tsk, .outs, .col, .cal, .snd, .net, .bru, .fab, .air, .boot, .pwr] rfl hp) (by decide))
  | ptpEventTransmit port delayReq => exact keeps_execPtpEventTransmit port delayReq s h (sub_mono (sub_footprint [.mem, .mm, .time, .cmt, .cores, .tsk, .vens, .outs, .col, .cal, .snd, .net, .bru, .fab, .air, .boot, .pwr] rfl hp) (by decide))
  | registerWrite a off v => exact keeps_execRegisterWrite a off v s h (sub_mono (sub_footprint Part.all rfl hp) (by decide))
  | stagedWrite a off v => exact keeps_execStagedWrite a off v s h (sub_mono (sub_footprint Part.all rfl hp) (by decide))
  | eventClear a page bits => exact keeps_execEventClear a page bits s h (sub_mono (sub_footprint Part.all rfl hp) (by decide))
  | faultClear a page => exact keeps_execFaultClear a page s h (sub_mono (sub_footprint Part.all rfl hp) (by decide))
  | claim a => exact keeps_execClaim a s h (sub_mono (sub_footprint [.cmt, .cores, .tsk, .fab] rfl hp) (by decide))
  | release a => exact keeps_execRelease a s h (sub_mono (sub_footprint [.cmt, .cores, .tsk, .fab] rfl hp) (by decide))
  | seize a => exact keeps_execSeize a s h (sub_mono (sub_footprint [.cmt, .cores, .tsk, .fab] rfl hp) (by decide))
  | discard a => exact keeps_execDiscard a s h (sub_mono (sub_footprint [.cmt, .cores, .tsk, .fab, .staged] rfl hp) (by decide))
  | disarm a => exact keeps_execDisarm a s h (sub_mono (sub_footprint [.cmt, .cores, .tsk, .fab, .staged] rfl hp) (by decide))
  | arm a v => exact keeps_execArm a v s h (sub_mono (sub_footprint [.cmt] rfl hp) (by decide))
  | commitCheckEnd => exact keeps_execCommitCheckEnd s h (sub_mono (sub_footprint [.time, .cmt, .cores, .tsk, .fab] rfl hp) (by decide))
  | statholdWrite a n => exact keeps_execStatholdWrite a n s h (sub_mono (sub_footprint [.cmt, .cores, .tsk] rfl hp) (by decide))
  | sacnRenderDone ven => exact keeps_execSacnRenderDone ven s h (sub_mono (sub_footprint [.mem, .mm, .cores, .tsk, .vens] rfl hp) (by decide))
  | sacnDataLoss universe' => exact keeps_execSacnDataLoss universe' s h (sub_mono (sub_footprint [.net] rfl hp) (by decide))
  | arbiterRound arb => exact keeps_execArbiterRound arb s h (sub_mono (sub_footprint [.mem, .mm, .cores, .tsk] rfl hp) (by decide))
  | arbiterRequest arb port off len data deadline tag => exact keeps_execArbiterRequest arb port off len data deadline tag s h (sub_mono (sub_footprint [.mm, .cores, .tsk, .air] rfl hp) (by decide))
  | forerunnerRepresent arb port => exact keeps_execForerunnerRepresent arb port s h (sub_mono (sub_footprint [.mm] rfl hp) (by decide))
  | scrubRead => exact keeps_execScrubRead s h (sub_mono (sub_footprint [.mm, .cores, .tsk] rfl hp) (by decide))
  | fsInject a double sram => exact keeps_execFsInject a double sram s h (sub_mono (sub_footprint [.mm] rfl hp) (by decide))
  | errclr a => exact keeps_execErrclr a s h
  | nvmProg a => exact keeps_execNvmProg a s h (sub_mono (sub_footprint [.mm] rfl hp) (by decide))
  | nvmZero a => exact keeps_execNvmZero a s h (sub_mono (sub_footprint [.mm] rfl hp) (by decide))
  | nvmBufferWrite a word v => exact keeps_execNvmBufferWrite a word v s h (sub_mono (sub_footprint [.mm] rfl hp) (by decide))
  | nvmProgramDone => exact keeps_execNvmProgramDone s h (sub_mono (sub_footprint [.mem, .mm, .cores, .tsk] rfl hp) (by decide))
  | mramReadError codeword bits => exact keeps_execMramReadError codeword bits s h (sub_mono (sub_footprint [.mem, .mm, .cores, .tsk] rfl hp) (by decide))
  | dmaGo a ch => exact keeps_execDmaGo a ch s h (sub_mono (sub_footprint [.mem, .tap, .mm, .cores, .tsk, .net, .dma, .que, .svc] rfl hp) (by decide))
  | dmaStop a ch => exact keeps_execDmaStop a ch s h (sub_mono (sub_footprint [.mem, .tap, .mm, .cores, .tsk, .net, .dma, .que, .svc] rfl hp) (by decide))
  | dmaKnock a ch => exact keeps_execDmaKnock a ch s h (sub_mono (sub_footprint [.mem, .tap, .mm, .cores, .tsk, .net, .dma, .que, .svc] rfl hp) (by decide))
  | dmaResume a ch => exact keeps_execDmaResume a ch s h (sub_mono (sub_footprint [.mem, .tap, .mm, .cores, .tsk, .net, .dma, .que, .svc] rfl hp) (by decide))
  | dmaClear a ch => exact keeps_execDmaClear a ch s h (sub_mono (sub_footprint [.mem, .tap, .mm, .cores, .tsk, .net, .dma, .que, .svc] rfl hp) (by decide))
  | clearhalt a => exact keeps_execClearhalt a s h
  | descriptorFetch ch => exact keeps_execDescriptorFetch ch s h (sub_mono (sub_footprint [.mem, .tap, .mm, .cores, .tsk, .net, .dma, .que, .svc] rfl hp) (by decide))
  | descriptorComplete ch => exact keeps_execDescriptorComplete ch s h (sub_mono (sub_footprint Part.all rfl hp) (by decide))
  | dmaBeatError ch addr done => exact keeps_execDmaBeatError ch addr done s h (sub_mono (sub_footprint Part.all rfl hp) (by decide))
  | queueCfgWrite a q v => exact keeps_execQueueCfgWrite a q v s h (sub_mono (sub_footprint [.tap, .cores, .tsk, .net, .que, .svc] rfl hp) (by decide))
  | queuePush a q v => exact keeps_execQueuePush a q v s h (sub_mono (sub_footprint [.tap, .cores, .tsk, .net, .que, .svc] rfl hp) (by decide))
  | queuePop a q => exact keeps_execQueuePop a q s h (sub_mono (sub_footprint [.tap, .cores, .tsk, .net, .que, .svc] rfl hp) (by decide))
  | queueDrop a q => exact keeps_execQueueDrop a q s h (sub_mono (sub_footprint [.tap, .cores, .tsk, .net, .que, .svc] rfl hp) (by decide))
  | executeInstruction core => exact keeps_execExecuteInstruction core s h (sub_mono (sub_footprint Part.all rfl hp) (by decide))
  | wfi core => exact keeps_execWfi core s h (sub_mono (sub_footprint Part.all rfl hp) (by decide))
  | dtret core => exact keeps_execDtret core s h (sub_mono (sub_footprint Part.all rfl hp) (by decide))
  | dttake core rd => exact keeps_execDttake core rd s h (sub_mono (sub_footprint Part.all rfl hp) (by decide))
  | dtdone core rs => exact keeps_execDtdone core rs s h (sub_mono (sub_footprint Part.all rfl hp) (by decide))
  | dtpost core rs => exact keeps_execDtpost core rs s h (sub_mono (sub_footprint Part.all rfl hp) (by decide))
  | fenceI core => exact keeps_execFenceI core s h (sub_mono (sub_footprint Part.all rfl hp) (by decide))
  | cpuModeWrite a core mode => exact keeps_execCpuModeWrite a core mode s h (sub_mono (sub_footprint Part.all rfl hp) (by decide))
  | sourceArrival src => exact keeps_execSourceArrival src s h (sub_mono (sub_footprint [.cores, .tsk] rfl hp) (by decide))
  | vectorFetchDone core => exact keeps_execVectorFetchDone core s h (sub_mono (sub_footprint [.mem, .mm, .cores, .tsk] rfl hp) (by decide))
  | timerSource core => exact keeps_execTimerSource core s h (sub_mono (sub_footprint [.cores, .tsk] rfl hp) (by decide))
  | doorbell a core bells => exact keeps_execDoorbell a core bells s h (sub_mono (sub_footprint [.cores, .tsk] rfl hp) (by decide))
  | pset a core src => exact keeps_execPset a core src s h (sub_mono (sub_footprint [.cores, .tsk] rfl hp) (by decide))
  | pclr a core src => exact keeps_execPclr a core src s h (sub_mono (sub_footprint [.cores] rfl hp) (by decide))
  | evcSet a src => exact keeps_execEvcSet a src s h (sub_mono (sub_footprint [.cores, .tsk] rfl hp) (by decide))
  | evcClr a src => exact keeps_execEvcClr a src s h (sub_mono (sub_footprint [.cores] rfl hp) (by decide))
  | sourceTargetWrite a src core => exact keeps_execSourceTargetWrite a src core s h (sub_mono (sub_footprint Part.all rfl hp) (by decide))
  | extFilterAccept input level => exact keeps_execExtFilterAccept input level s h (sub_mono (sub_footprint [.cores, .tsk, .evc] rfl hp) (by decide))
  | coreWake core => exact keeps_execCoreWake core s h (sub_mono (sub_footprint [.mm, .cores, .tsk] rfl hp) (by decide))
  | tskPost a task => exact keeps_execTskPost a task s h (sub_mono (sub_footprint [.cores, .tsk] rfl hp) (by decide))
  | postDrain => exact keeps_execPostDrain s h (sub_mono (sub_footprint [.tap, .time, .cores, .tsk, .snd, .net, .svc] rfl hp) (by decide))
  | delaygo a task abs => exact keeps_execDelaygo a task abs s h (sub_mono (sub_footprint [.tsk] rfl hp) (by decide))
  | cancel a task => exact keeps_execCancel a task s h (sub_mono (sub_footprint [.tsk] rfl hp) (by decide))
  | delayTick => exact keeps_execDelayTick s h (sub_mono (sub_footprint [.cores, .tsk] rfl hp) (by decide))
  | tdmFrame port edge lines => exact keeps_execTdmFrame port edge lines s h (sub_mono (sub_footprint [.snd] rfl hp) (by decide))
  | tdmLockLoss port => exact keeps_execTdmLockLoss port s h (sub_mono (sub_footprint [.snd] rfl hp) (by decide))
  | busSample bus => exact keeps_execBusSample bus s h (sub_mono (sub_footprint [.cores, .tsk, .snd] rfl hp) (by decide))
  | blockEnd bus => exact keeps_execBlockEnd bus s h (sub_mono (sub_footprint [.mem, .mm, .cores, .tsk, .snd, .bru, .fab] rfl hp) (by decide))
  | tempoEstimate => exact keeps_execTempoEstimate s h (sub_mono (sub_footprint [.cores, .tsk, .snd] rfl hp) (by decide))
  | coastTimeout => exact keeps_execCoastTimeout s h (sub_mono (sub_footprint [.cores, .tsk, .snd] rfl hp) (by decide))
  | trackerFirstUse => exact keeps_execTrackerFirstUse s h (sub_mono (sub_footprint [.snd] rfl hp) (by decide))
  | beatIssue => exact keeps_execBeatIssue s h (sub_mono (sub_footprint [.mem, .mm, .cores, .tsk, .snd, .bru, .fab] rfl hp) (by decide))
  | barsync v => exact keeps_execBarsync v s h (sub_mono (sub_footprint [.snd] rfl hp) (by decide))
  | ltcFrame valid tc rate t => exact keeps_execLtcFrame valid tc rate t s h (sub_mono (sub_footprint [.time, .cmt, .cores, .tsk, .snd, .boot] rfl hp) (by decide))
  | remoteRecordReceive rec' => exact keeps_execRemoteRecordReceive rec' s h (sub_mono (sub_footprint [.mem, .mm, .cores, .tsk, .snd] rfl hp) (by decide))
  | tapSample => exact keeps_execTapSample s h (sub_mono (sub_footprint [.cores, .tsk, .snd] rfl hp) (by decide))
  | linkDown port => exact keeps_execLinkDown port s h (sub_mono (sub_footprint [.time, .cores, .tsk, .net] rfl hp) (by decide))
  | linkUp port => exact keeps_execLinkUp port s h (sub_mono (sub_footprint [.cores, .tsk, .net] rfl hp) (by decide))
  | ethFrameReceive port t frame full => exact keeps_execEthFrameReceive port t frame full s h (sub_mono (sub_footprint Part.all rfl hp) (by decide))
  | pauseReceive port quanta => exact keeps_execPauseReceive port quanta s h (sub_mono (sub_footprint [.cores, .tsk, .net] rfl hp) (by decide))
  | pauseExpiry port => exact keeps_execPauseExpiry port s h (sub_mono (sub_footprint [.net] rfl hp) (by decide))
  | pauseGenerate port => exact keeps_execPauseGenerate port s h (sub_mono (sub_footprint [.net] rfl hp) (by decide))
  | rxtailWrite port ring v => exact keeps_execRxtailWrite port ring v s h (sub_mono (sub_footprint [.net] rfl hp) (by decide))
  | txtailWrite ring v => exact keeps_execTxtailWrite ring v s h
  | ethFrameTransmit port => exact keeps_execEthFrameTransmit port s h (sub_mono (sub_footprint [.mem, .mm, .time, .cmt, .cores, .tsk, .vens, .outs, .col, .cal, .snd, .net, .bru, .fab, .air, .boot, .pwr] rfl hp) (by decide))
  | caneStatus => exact keeps_execCaneStatus s h (sub_mono (sub_footprint Part.all rfl hp) (by decide))
  | canePagestate => exact keeps_execCanePagestate s h (sub_mono (sub_footprint Part.all rfl hp) (by decide))
  | caneReadreg => exact keeps_execCaneReadreg s h (sub_mono (sub_footprint Part.all rfl hp) (by decide))
  | caneWritereg => exact keeps_execCaneWritereg s h (sub_mono (sub_footprint Part.all rfl hp) (by decide))
  | caneReadblock => exact keeps_execCaneReadblock s h (sub_mono (sub_footprint Part.all rfl hp) (by decide))
  | caneFirmwareOp => exact keeps_execCaneFirmwareOp s h (sub_mono (sub_footprint Part.all rfl hp) (by decide))
  | caneBadOp => exact keeps_execCaneBadOp s h (sub_mono (sub_footprint Part.all rfl hp) (by decide))
  | caneLeaseExpiry => exact keeps_execCaneLeaseExpiry s h (sub_mono (sub_footprint [.cmt, .cores, .tsk, .net] rfl hp) (by decide))
  | keyClear a slot => exact keeps_execKeyClear a slot s h (sub_mono (sub_footprint [.net] rfl hp) (by decide))
  | healthWindowEnd => exact keeps_execHealthWindowEnd s h (sub_mono (sub_footprint [.time, .cores, .tsk, .net] rfl hp) (by decide))
  | pathRecover path => exact keeps_execPathRecover path s h (sub_mono (sub_footprint [.time, .cores, .tsk, .net] rfl hp) (by decide))
  | swap a v => exact keeps_execSwap a v s h (sub_mono (sub_footprint [.time, .cores, .tsk, .net] rfl hp) (by decide))
  | dualWindowEnd => exact keeps_execDualWindowEnd s h (sub_mono (sub_footprint [.time, .cores, .tsk, .net] rfl hp) (by decide))
  | pairingStart => exact keeps_execPairingStart s h (sub_mono (sub_footprint [.cores, .tsk] rfl hp) (by decide))
  | courseSlot port => exact keeps_execCourseSlot port s h (sub_mono (sub_footprint [.mem, .mm, .time, .cmt, .cores, .tsk, .vens, .outs, .col, .cal, .snd, .net, .bru, .fab, .air, .boot, .pwr] rfl hp) (by decide))
  | dataCourseReceive port lane sym t skew => exact keeps_execDataCourseReceive port lane sym t skew s h (sub_mono (sub_footprint [.mem, .mm, .time, .cmt, .cores, .tsk, .vens, .outs, .col, .cal, .snd, .net, .bru, .fab, .air, .boot, .pwr] rfl hp) (by decide))
  | timeCourseReceive port lane sym t skew => exact keeps_execTimeCourseReceive port lane sym t skew s h (sub_mono (sub_footprint [.mem, .mm, .time, .cmt, .cores, .tsk, .vens, .outs, .col, .cal, .snd, .net, .bru, .fab, .air, .boot, .pwr] rfl hp) (by decide))
  | ctrlCourseReceive port lane sym t skew => exact keeps_execCtrlCourseReceive port lane sym t skew s h (sub_mono (sub_footprint [.mem, .mm, .time, .cmt, .cores, .tsk, .vens, .outs, .col, .cal, .snd, .net, .bru, .fab, .air, .boot, .pwr] rfl hp) (by decide))
  | idleCourseReceive port lane sym t skew => exact keeps_execIdleCourseReceive port lane sym t skew s h (sub_mono (sub_footprint [.mem, .mm, .time, .cmt, .cores, .tsk, .vens, .outs, .col, .cal, .snd, .net, .bru, .fab, .air, .boot, .pwr] rfl hp) (by decide))
  | signalDetect port lane => exact keeps_execSignalDetect port lane s h (sub_mono (sub_footprint [.time, .cores, .tsk, .bru, .fab, .air] rfl hp) (by decide))
  | signalLoss port lane => exact keeps_execSignalLoss port lane s h (sub_mono (sub_footprint [.time, .cores, .tsk, .bru, .fab, .air] rfl hp) (by decide))
  | commaLoss port lane => exact keeps_execCommaLoss port lane s h (sub_mono (sub_footprint [.time, .cores, .tsk, .bru, .fab, .air] rfl hp) (by decide))
  | halfstuck port lane => exact keeps_execHalfstuck port lane s h (sub_mono (sub_footprint [.cores, .tsk, .bru] rfl hp) (by decide))
  | replayTimerExpiry port => exact keeps_execReplayTimerExpiry port s h (sub_mono (sub_footprint [.time, .cores, .tsk, .bru, .fab, .air] rfl hp) (by decide))
  | roleAnnounce role => exact keeps_execRoleAnnounce role s h (sub_mono (sub_footprint [.time, .cores, .tsk, .bru, .fab] rfl hp) (by decide))
  | roleReceive port b rec' => exact keeps_execRoleReceive port b rec' s h (sub_mono (sub_footprint [.mem, .mm, .time, .cmt, .cores, .tsk, .vens, .outs, .cal, .snd, .net, .bru, .fab, .air] rfl hp) (by decide))
  | roleTimeout role => exact keeps_execRoleTimeout role s h (sub_mono (sub_footprint [.time, .cores, .tsk, .fab] rfl hp) (by decide))
  | lsrRefresh changed => exact keeps_execLsrRefresh changed s h (sub_mono (sub_footprint [.time, .cores, .tsk, .bru, .fab] rfl hp) (by decide))
  | lsrReceive port b rec' => exact keeps_execLsrReceive port b rec' s h (sub_mono (sub_footprint [.mem, .mm, .time, .cmt, .cores, .tsk, .vens, .outs, .cal, .snd, .net, .bru, .fab, .air] rfl hp) (by decide))
  | lsrExpiry cluster key => exact keeps_execLsrExpiry cluster key s h (sub_mono (sub_footprint [.time, .cores, .tsk, .fab] rfl hp) (by decide))
  | discoveryConverged => exact keeps_execDiscoveryConverged s h (sub_mono (sub_footprint [.mm, .time, .cmt, .cores, .tsk, .fab, .boot] rfl hp) (by decide))
  | clusterSeed => exact keeps_execClusterSeed s h (sub_mono (sub_footprint [.time, .cores, .tsk, .fab] rfl hp) (by decide))
  | memberGrant serial member => exact keeps_execMemberGrant serial member s h (sub_mono (sub_footprint [.time, .cores, .tsk, .fab] rfl hp) (by decide))
  | idcfgWrite a v => exact keeps_execIdcfgWrite a v s h (sub_mono (sub_footprint [.time, .cores, .tsk, .fab, .air] rfl hp) (by decide))
  | subscribeSend => exact keeps_execSubscribeSend s h (sub_mono (sub_footprint [.time, .cores, .tsk, .bru, .fab] rfl hp) (by decide))
  | subscribeReceive port b rec' => exact keeps_execSubscribeReceive port b rec' s h (sub_mono (sub_footprint [.mem, .mm, .time, .cmt, .cores, .tsk, .vens, .outs, .cal, .snd, .net, .bru, .fab, .air] rfl hp) (by decide))
  | tileQuarterReceive port b => exact keeps_execTileQuarterReceive port b s h (sub_mono (sub_footprint [.mem, .mm, .time, .cmt, .cores, .tsk, .vens, .outs, .cal, .snd, .net, .bru, .fab, .air] rfl hp) (by decide))
  | gatewayLoss => exact keeps_execGatewayLoss s h (sub_mono (sub_footprint [.time, .cores, .tsk, .fab] rfl hp) (by decide))
  | fcmtGo a window own => exact keeps_execFcmtGo a window own s h (sub_mono (sub_footprint [.cmt, .cores, .tsk, .bru, .fab] rfl hp) (by decide))
  | fcctlFire a => exact keeps_execFcctlFire a s h (sub_mono (sub_footprint [.cmt, .cores, .tsk, .bru, .fab] rfl hp) (by decide))
  | fcctlAbort a => exact keeps_execFcctlAbort a s h (sub_mono (sub_footprint [.cmt, .cores, .tsk, .bru, .fab] rfl hp) (by decide))
  | prepareReceive port b => exact keeps_execPrepareReceive port b s h (sub_mono (sub_footprint [.mem, .mm, .time, .cmt, .cores, .tsk, .vens, .outs, .cal, .snd, .net, .bru, .fab, .air] rfl hp) (by decide))
  | readyReceive port b => exact keeps_execReadyReceive port b s h (sub_mono (sub_footprint [.mem, .mm, .time, .cmt, .cores, .tsk, .vens, .outs, .cal, .snd, .net, .bru, .fab, .air] rfl hp) (by decide))
  | readySend => exact keeps_execReadySend s h (sub_mono (sub_footprint [.cores, .tsk, .bru, .fab] rfl hp) (by decide))
  | fireReceive port b => exact keeps_execFireReceive port b s h (sub_mono (sub_footprint [.mem, .mm, .time, .cmt, .cores, .tsk, .vens, .outs, .cal, .snd, .net, .bru, .fab, .air] rfl hp) (by decide))
  | abortReceive port b => exact keeps_execAbortReceive port b s h (sub_mono (sub_footprint [.mem, .mm, .time, .cmt, .cores, .tsk, .vens, .outs, .cal, .snd, .net, .bru, .fab, .air] rfl hp) (by decide))
  | reportSend => exact keeps_execReportSend s h (sub_mono (sub_footprint [.cores, .tsk, .bru, .fab] rfl hp) (by decide))
  | reportReceive port b => exact keeps_execReportReceive port b s h (sub_mono (sub_footprint [.mem, .mm, .time, .cmt, .cores, .tsk, .vens, .outs, .cal, .snd, .net, .bru, .fab, .air] rfl hp) (by decide))
  | reportRouteExpiry => exact keeps_execReportRouteExpiry s h (sub_mono (sub_footprint [.fab] rfl hp) (by decide))
  | overrideBundleReceive port b => exact keeps_execOverrideBundleReceive port b s h (sub_mono (sub_footprint [.mem, .mm, .time, .cmt, .cores, .tsk, .vens, .outs, .cal, .snd, .net, .bru, .fab, .air] rfl hp) (by decide))
  | tunnelledCaneReceive port b => exact keeps_execTunnelledCaneReceive port b s h (sub_mono (sub_footprint Part.all rfl hp) (by decide))
  | firmwareBundleReceive port b => exact keeps_execFirmwareBundleReceive port b s h (sub_mono (sub_footprint [.mem, .mm, .time, .cmt, .cores, .tsk, .vens, .outs, .cal, .snd, .net, .bru, .fab, .air] rfl hp) (by decide))
  | fabTxtailWrite a idx => exact keeps_execFabTxtailWrite a idx s h (sub_mono (sub_footprint [.mem, .mm, .time, .cmt, .cores, .tsk, .vens, .outs, .cal, .snd, .net, .bru, .fab, .air] rfl hp) (by decide))
  | airIrq => exact keeps_execAirIrq s h (sub_mono (sub_footprint [.air] rfl hp) (by decide))
  | txdone status => exact keeps_execTxdone status s h (sub_mono (sub_footprint [.cores, .tsk, .air] rfl hp) (by decide))
  | ccares busy rssi => exact keeps_execCcares busy rssi s h (sub_mono (sub_footprint [.cores, .tsk, .air] rfl hp) (by decide))
  | rxframe rssi data => exact keeps_execRxframe rssi data s h (sub_mono (sub_footprint [.cores, .tsk, .air] rfl hp) (by decide))
  | rdata data => exact keeps_execRdata data s h (sub_mono (sub_footprint [.cores, .tsk, .air] rfl hp) (by decide))
  | airRxsof => exact keeps_execAirRxsof s h (sub_mono (sub_footprint [.air] rfl hp) (by decide))
  | linkPacketCrcError => exact keeps_execLinkPacketCrcError s h (sub_mono (sub_footprint [.cores, .tsk, .air] rfl hp) (by decide))
  | crowdLoadInstant n => exact keeps_execCrowdLoadInstant n s h (sub_mono (sub_footprint [.mem, .mm, .cores, .tsk, .air] rfl hp) (by decide))
  | loadlate => exact keeps_execLoadlate s h (sub_mono (sub_footprint [.cores, .tsk, .air] rfl hp) (by decide))
  | crowdTxgo => exact keeps_execCrowdTxgo s h (sub_mono (sub_footprint [.air] rfl hp) (by decide))
  | lbtTry => exact keeps_execLbtTry s h (sub_mono (sub_footprint [.mem, .mm, .cores, .tsk, .air] rfl hp) (by decide))
  | bucketAdvance => exact keeps_execBucketAdvance s h (sub_mono (sub_footprint [.air] rfl hp) (by decide))
  | accountingRecordWrite => exact keeps_execAccountingRecordWrite s h (sub_mono (sub_footprint [.mm, .air, .pwr] rfl hp) (by decide))
  | accountingRestore => exact keeps_execAccountingRestore s h (sub_mono (sub_footprint [.mem, .mm, .cores, .tsk, .air] rfl hp) (by decide))
  | linkTimeout rdata => exact keeps_execLinkTimeout rdata s h (sub_mono (sub_footprint [.cores, .tsk, .air] rfl hp) (by decide))
  | registerListResend => exact keeps_execRegisterListResend s h (sub_mono (sub_footprint [.air] rfl hp) (by decide))
  | registerListWrite => exact keeps_execRegisterListWrite s h (sub_mono (sub_footprint [.air] rfl hp) (by decide))
  | statectlRun a => exact keeps_execStatectlRun a s h (sub_mono (sub_footprint Part.all rfl hp) (by decide))
  | statectlDim a => exact keeps_execStatectlDim a s h (sub_mono (sub_footprint Part.all rfl hp) (by decide))
  | statectlRetentionSleep a => exact keeps_execStatectlRetentionSleep a s h (sub_mono (sub_footprint Part.all rfl hp) (by decide))
  | statectlDormant a => exact keeps_execStatectlDormant a s h (sub_mono (sub_footprint Part.all rfl hp) (by decide))
  | wakePin => exact keeps_execWakePin s h (sub_mono (sub_footprint Part.all rfl hp) (by decide))
  | rtcAlarm => exact keeps_execRtcAlarm s h (sub_mono (sub_footprint Part.all rfl hp) (by decide))
  | domreqWrite a v => exact keeps_execDomreqWrite a v s h (sub_mono (sub_footprint [.pwr] rfl hp) (by decide))
  | domainOnDone d => exact keeps_execDomainOnDone d s h (sub_mono (sub_footprint [.mm, .time, .cmt, .cores, .tsk, .outs, .fab, .air, .pwr] rfl hp) (by decide))
  | domainOffDone d => exact keeps_execDomainOffDone d s h (sub_mono (sub_footprint [.mem, .mm, .time, .cmt, .cores, .tsk, .vens, .outs, .col, .snd, .net, .bru, .fab, .air, .boot, .pwr] rfl hp) (by decide))
  | dramTrainingDone pass => exact keeps_execDramTrainingDone pass s h
  | voutCommand => exact keeps_execVoutCommand s h (sub_mono (sub_footprint [.pwr] rfl hp) (by decide))
  | pmbusPoll => exact keeps_execPmbusPoll s h (sub_mono (sub_footprint [.pwr] rfl hp) (by decide))
  | pmbusAlert => exact keeps_execPmbusAlert s h (sub_mono (sub_footprint [.cores, .tsk, .pwr] rfl hp) (by decide))
  | thermalEvaluate => exact keeps_execThermalEvaluate s h (sub_mono (sub_footprint Part.all rfl hp) (by decide))
  | lifeCount => exact keeps_execLifeCount s h (sub_mono (sub_footprint [.pwr] rfl hp) (by decide))
  | lifetimeRecordWrite => exact keeps_execLifetimeRecordWrite s h (sub_mono (sub_footprint [.mm, .pwr] rfl hp) (by decide))
  | vaonApplied => exact keeps_execVaonApplied s h (sub_mono (sub_footprint Part.all rfl hp) (by decide))
  | pwrEnSequence => exact keeps_execPwrEnSequence s h (sub_mono (sub_footprint Part.all rfl hp) (by decide))
  | railOutOfRange => exact keeps_execRailOutOfRange s h (sub_mono (sub_footprint Part.all rfl hp) (by decide))
  | resetNAssert => exact keeps_execResetNAssert s h (sub_mono (sub_footprint Part.all rfl hp) (by decide))
  | resetNRelease => exact keeps_execResetNRelease s h (sub_mono (sub_footprint [.boot, .pwr] rfl hp) (by decide))
  | coldStart straps sramOk trainOk testOk ends hits applied => exact keeps_execColdStart straps sramOk trainOk testOk ends hits applied s h (sub_mono (sub_footprint Part.all rfl hp) (by decide))
  | warmStart straps ends => exact keeps_execWarmStart straps ends s h (sub_mono (sub_footprint Part.all rfl hp) (by decide))
  | romTimeout => exact keeps_execRomTimeout s h (sub_mono (sub_footprint Part.all rfl hp) (by decide))
  | discoveryWaitExpiry => exact keeps_execDiscoveryWaitExpiry s h (sub_mono (sub_footprint [.time, .cores, .tsk, .fab, .boot] rfl hp) (by decide))
  | fabwaitExpiry => exact keeps_execFabwaitExpiry s h (sub_mono (sub_footprint [.cmt, .boot] rfl hp) (by decide))
  | confirm a => exact keeps_execConfirm a s h (sub_mono (sub_footprint Part.all rfl hp) (by decide))
  | confirmWindowExpiry => exact keeps_execConfirmWindowExpiry s h (sub_mono (sub_footprint Part.all rfl hp) (by decide))
  | bootRestart a cold => exact keeps_execBootRestart a cold s h (sub_mono (sub_footprint Part.all rfl hp) (by decide))
  | bootReady a => exact keeps_execBootReady a s h (sub_mono (sub_footprint [.cmt, .boot] rfl hp) (by decide))
  | failClear a => exact keeps_execFailClear a s h
  | wdkick a v => exact keeps_execWdkick a v s h (sub_mono (sub_footprint [.boot] rfl hp) (by decide))
  | wdogTimeoutWrite a ms => exact keeps_execWdogTimeoutWrite a ms s h (sub_mono (sub_footprint Part.all rfl hp) (by decide))
  | watchdogWarn => exact keeps_execWatchdogWarn s h (sub_mono (sub_footprint [.cores, .tsk, .boot] rfl hp) (by decide))
  | watchdogExpiry => exact keeps_execWatchdogExpiry s h (sub_mono (sub_footprint Part.all rfl hp) (by decide))
  | keyrevoke a keys => exact keeps_execKeyrevoke a keys s h (sub_mono (sub_footprint [.boot] rfl hp) (by decide))
  | svcStatus addr bcast seq body => exact keeps_execSvcStatus addr bcast seq body s h (sub_mono (sub_footprint Part.all rfl hp) (by decide))
  | svcPagestate addr bcast seq body => exact keeps_execSvcPagestate addr bcast seq body s h (sub_mono (sub_footprint Part.all rfl hp) (by decide))
  | svcReadreg addr bcast seq body => exact keeps_execSvcReadreg addr bcast seq body s h (sub_mono (sub_footprint Part.all rfl hp) (by decide))
  | svcWritereg addr bcast seq body => exact keeps_execSvcWritereg addr bcast seq body s h (sub_mono (sub_footprint Part.all rfl hp) (by decide))
  | svcReadblock addr bcast seq body => exact keeps_execSvcReadblock addr bcast seq body s h (sub_mono (sub_footprint Part.all rfl hp) (by decide))
  | readmem addr bcast seq body => exact keeps_execReadmem addr bcast seq body s h (sub_mono (sub_footprint Part.all rfl hp) (by decide))
  | benchopen addr bcast seq body => exact keeps_execBenchopen addr bcast seq body s h (sub_mono (sub_footprint Part.all rfl hp) (by decide))
  | benchwrite addr bcast seq body => exact keeps_execBenchwrite addr bcast seq body s h (sub_mono (sub_footprint Part.all rfl hp) (by decide))
  | benchverify addr bcast seq body => exact keeps_execBenchverify addr bcast seq body s h (sub_mono (sub_footprint Part.all rfl hp) (by decide))
  | benchcommit addr bcast seq body => exact keeps_execBenchcommit addr bcast seq body s h (sub_mono (sub_footprint Part.all rfl hp) (by decide))
  | svcRestart addr bcast seq body => exact keeps_execSvcRestart addr bcast seq body s h (sub_mono (sub_footprint Part.all rfl hp) (by decide))
  | clearfail addr bcast seq body => exact keeps_execClearfail addr bcast seq body s h (sub_mono (sub_footprint Part.all rfl hp) (by decide))
  | svcFrameDiscard crc => exact keeps_execSvcFrameDiscard crc s h (sub_mono (sub_footprint [.cores, .tsk] rfl hp) (by decide))
  | attnIn low => exact keeps_execAttnIn low s h (sub_mono (sub_footprint Part.all rfl hp) (by decide))
  | attnAck a => exact keeps_execAttnAck a s h (sub_mono (sub_footprint [.svc] rfl hp) (by decide))
  | jtagTapReset => exact keeps_execJtagTapReset s h (sub_mono (sub_footprint [.tap] rfl hp) (by decide))
  | extest sensed shift => exact keeps_execExtest sensed shift s h (sub_mono (sub_footprint [.tap] rfl hp) (by decide))
  | samplePreload sensed shift => exact keeps_execSamplePreload sensed shift s h (sub_mono (sub_footprint [.tap] rfl hp) (by decide))
  | idcode => exact keeps_execIdcode s h (sub_mono (sub_footprint [.tap] rfl hp) (by decide))
  | clamp shift => exact keeps_execClamp shift s h (sub_mono (sub_footprint [.tap] rfl hp) (by decide))
  | highz shift => exact keeps_execHighz shift s h (sub_mono (sub_footprint [.tap] rfl hp) (by decide))
  | bypass code shift => exact keeps_execBypass code shift s h (sub_mono (sub_footprint [.tap] rfl hp) (by decide))
  | dbgaccRead addr => exact keeps_execDbgaccRead addr s h (sub_mono (sub_footprint [.mem, .tap, .mm, .cores, .tsk, .net, .que, .svc] rfl hp) (by decide))
  | dbgaccWrite addr data => exact keeps_execDbgaccWrite addr data s h (sub_mono (sub_footprint Part.all rfl hp) (by decide))
  | dbgaccCapture => exact keeps_execDbgaccCapture s h
  | commaLock port lane pre inv => exact keeps_execCommaLock port lane pre inv s h (sub_mono (sub_footprint [.time, .cores, .tsk, .bru, .fab, .air] rfl hp) (by decide))
  | ltcLost => exact keeps_execLtcLost s h (sub_mono (sub_footprint [.cores, .tsk, .snd] rfl hp) (by decide))
  | announceReceiptTimeout => exact keeps_execAnnounceReceiptTimeout s h (sub_mono (sub_footprint [.time] rfl hp) (by decide))
  | svcBadOp addr bcast op seq => exact keeps_execSvcBadOp addr bcast op seq s h (sub_mono (sub_footprint Part.all rfl hp) (by decide))
  | railReturn => exact keeps_execRailReturn s h (sub_mono (sub_footprint [.boot, .pwr] rfl hp) (by decide))
  | powerLoss nvmOnly => exact keeps_execPowerLoss nvmOnly s h (sub_mono (sub_footprint Part.all rfl hp) (by decide))
  | pmbusTransactionEnd ok data => exact keeps_execPmbusTransactionEnd ok data s h (sub_mono (sub_footprint [.cores, .tsk, .pwr] rfl hp) (by decide))

end Sys2Proof.Machine
end

