-- ==== Sys2Proof/WellFormed.lean ====
section
/-!
DEFINITION. Commands whose operands the lines and ports of the device can carry.
-/
namespace Sys2Proof

/-- The symbols of a course (R322): 1,120 of them, each an index below 4. -/
def courseOk (sym : List Nat) : Bool := sym.length = 1120 && sym.all (· < 4)

/-- The body of a service frame (R550). -/
def svcBodyOk (body : List Byte) : Bool := body.length ≤ 1024

/-- A command is well formed: its operands have the lengths and ranges of the frame, course, burst or register that carries them. A
meaning is given for every command, well formed or not. -/
def Instr.wellFormed : Instr → Bool
  | .arbiterRequest arb _ off len data _ _ => off.toNat / 4096 % 2 = arb.val && off.toNat % 64 + len.val ≤ 64 && (match data with | some b => b.length = len.val | none => true)
  | .dataCourseReceive _ _ sym _ _ | .timeCourseReceive _ _ sym _ _ | .ctrlCourseReceive _ _ sym _ _ | .idleCourseReceive _ _ sym _ _ =>
    courseOk sym
  | .ethFrameReceive _ _ frame _ => 64 ≤ frame.length
  | .svcStatus _ _ _ b | .svcPagestate _ _ _ b | .svcReadreg _ _ _ b | .svcWritereg _ _ _ b | .svcReadblock _ _ _ b | .readmem _ _ _ b
  | .benchopen _ _ _ b | .benchwrite _ _ _ b | .benchverify _ _ _ b | .benchcommit _ _ _ b | .svcRestart _ _ _ b | .clearfail _ _ _ b =>
    svcBodyOk b
  | .extest sensed shift => sensed.length = 576 && (match shift with | some b => b.length = 576 | none => true)
  | .samplePreload sensed shift => sensed.length = 576 && shift.length = 576
  | _ => true

end Sys2Proof
end

