-- ==== Sys2Proof/Tests/Slice0.lean ====
section
/-!
SUPPORT. Tests of the model on small states, and for each statement's hypotheses a state that meets them.
-/
set_option Elab.async false

namespace Sys2Proof.Machine
open Sys2Proof

/-- A small state that runs: the start is over, every domain is on, outputs are enabled. -/
def up : State :=
  State.set { State.reset with boot := { State.reset.boot with due := none, handed := true, outEn := true } } pgPMU F.PMU_DOMEFF_ON 0xFFFF

theorem test_idleFrame_meets : up.pending = [] ∧ up.pwr.rtcNs < 999999999 ∧ announceDue up (tickTime up.time).ft = false := by decide +kernel

/-! ### Ill-formed commands are refused -/

theorem test_wellFormed_burst : Instr.wellFormed (.arbiterRequest 0 3 60 8 none none 0) = false := by decide +kernel
theorem test_wellFormed_burst_data : Instr.wellFormed (.arbiterRequest 0 3 0 8 (some [1]) none 0) = false := by decide +kernel
theorem test_wellFormed_course_length : Instr.wellFormed (.dataCourseReceive 0 0 [0, 1, 2] 0 0) = false := by decide +kernel
theorem test_wellFormed_course_symbol : Instr.wellFormed (.timeCourseReceive 0 0 (List.replicate 1120 4) 0 0) = false := by decide +kernel
theorem test_wellFormed_eth_short : Instr.wellFormed (.ethFrameReceive 0 0 [1] false) = false := by decide +kernel
theorem test_wellFormed_svc_body : Instr.wellFormed (.svcStatus 0 false 0 (List.replicate 1025 0)) = false := by decide +kernel
theorem test_wellFormed_extest_sensed : Instr.wellFormed (.extest [] none) = false := by decide +kernel
theorem test_wellFormed_extest_shift : Instr.wellFormed (.extest (List.replicate 576 false) (some [])) = false := by decide +kernel
theorem test_wellFormed_sample : Instr.wellFormed (.samplePreload (List.replicate 576 false) []) = false := by decide +kernel
theorem test_wellFormed_accepts : Instr.wellFormed (.arbiterRequest 0 3 56 8 none none 0) = true := by decide +kernel

/-- The worked example of the manual: a trigger at 0xFFFFFF00 is past at 0x00000100, by 512 ns. -/
theorem test_shortTime_meets : stPast 0xFFFFFF00 0x00000100 = true ∧ ((0x00000100 : Word) - 0xFFFFFF00).toNat = 512 ∧
    (0 < 1 ∧ 1 < 2 ^ 31) ∧ (2 ^ 31 < 2 ^ 32 - 1 ∧ 2 ^ 32 - 1 < 2 ^ 32) := by decide +kernel

/-- A state with a mode change pending, a step held, a gap, or a commit armed for the next frame. -/
def upMode : State := up.set pgTIME F.TIME_MODE_PEND 1
def upStep : State := { up with time := { up.time with heldStep := some 65536 } }
def upGap : State := { up with time := { up.time with gapM := some 9 } }
def upArmed : State := { up with cmt := { up.cmt with mode := .armed, target := 1 } }

theorem test_frameInstants_meets :
    (up.boot.outEn = true ∧ up.pwr.down = none ∧ up.time.gapM = none ∧ changeDue up = false) ∧
    (upGap.boot.outEn = true ∧ upGap.pwr.down = none ∧ upGap.time.gapM = some 9) ∧
    (upMode.boot.outEn = true ∧ upMode.time.gapM = none ∧ changeDue upMode = true ∧ upMode.flag pgTIME F.TIME_MODE_PEND = true) ∧
    (State.reset.boot.outEn = false ∧ State.reset.boot.enableAt = none) ∧
    (upArmed.fab.fc.armed = false ∧ upArmed.cmt.mode = .armed ∧ upArmed.cmt.target ≤ cutoffFn upArmed ∧ upArmed.boot.outEn = true) ∧
    (up.fab.fc.armed = false ∧ up.cmt.mode ≠ .armed) ∧ (up.outs.latch.getD 15 {}).seq = (nextLatch up).2 ∧
    (upGap.outs.latch.length = 16 ∧ (upGap.outs.latch.getD 15 {}).seq ≠ (nextLatch upGap).2) ∧
    (upStep.boot.outEn = true ∧ upStep.time.gapM = none ∧ upStep.time.heldStep = some 65536) := by decide +kernel

/-- A state whose trigger 15 is enabled with a KIND and an instant, and one in which PPS_OUT is enabled. -/
def upTrigger (kind : Nat) : State :=
  updTrig ((up.set pgTIME F.TIME_TRGCFG_EN 1 15).set pgTIME F.TIME_TRGCFG_KIND kind 15) 15 fun t => { t with next := some 100 }
def upPps (high : Bool) : State :=
  { up.set pgTIME F.TIME_PPSOUT_EN 1 with time := { up.time with servo := .locked, ppsHigh := high } }

theorem test_triggersSnapPps_meets :
    (up.flag pgTIME F.TIME_TRGCFG_EN 15 = false ∧ up.get pgTIME F.TIME_TRGCFG_KIND 15 = 0 ∧ (trigOf up 15).next = none) ∧
    ((upTrigger 0).flag pgTIME F.TIME_TRGCFG_EN 15 = true ∧ (upTrigger 0).get pgTIME F.TIME_TRGCFG_KIND 15 = 0 ∧ (trigOf (upTrigger 0) 15).next = some 100) ∧
    ((upTrigger 1).flag pgTIME F.TIME_TRGCFG_EN 15 = true ∧ (upTrigger 1).get pgTIME F.TIME_TRGCFG_KIND 15 = 1 ∧ (trigOf (upTrigger 1) 15).next = some 100) ∧
    (bitsOf 6 1 2 = 3 ∧ bitsOf 0x30 4 2 = 3) ∧
    (bitsOf 0 0 1 = 0 ∧ bitsOf 0 1 2 ≠ 3 ∧ bitsOf 0 4 2 ≠ 3 ∧ bitsOf 0 16 10 < trigRange (bitsOf 0 4 2) ∧ up.time.trig.length = 16) ∧
    (999 : Word).toNat < 1000 ∧ 2 ^ 31 ≤ (0x80000000 : Word).toNat ∧
    ((upPps true).flag pgTIME F.TIME_PPSOUT_EN = true ∧ timeValid (upPps true) = true ∧ (upPps true).boot.outEn = true ∧ (upPps true).time.ppsHigh = true) ∧
    up.flag pgTIME F.TIME_PPSOUT_EN = false ∧ up.time.ppsHigh = false := by decide +kernel

/-- A state whose servo is in a state, and one in which an output is live. -/
def upServo (v : Servo) (run : Nat) : State := { up with time := { up.time with servo := v, lockRun := run } }
def upLive : State := up.setReg pgAIR 0x00C 2

theorem test_servoMoves_meets :
    ((7 : BitVec 3).toNat ≠ activeSource up ∧ up.time.discardPtp = false ∧ up.time.discardBru = false) ∧
    ((up.set pgTIME F.TIME_SERVOCTL_FREEZE 1).flag pgTIME F.TIME_SERVOCTL_FREEZE = true ∧ (up.set pgTIME F.TIME_SERVOCTL_FREEZE 1).time.servo = .free ∧
      (up.set pgTIME F.TIME_SERVOCTL_FREEZE 1).time.discardPtp = false ∧ (up.set pgTIME F.TIME_SERVOCTL_FREEZE 1).time.discardBru = false) ∧
    ((BitVec.ofNat 3 (activeSource (upServo .acquire 255))).toNat = activeSource (upServo .acquire 255) ∧
      BitVec.ofNat 3 (activeSource (upServo .acquire 255)) ≠ 0 ∧
      (upServo .acquire 255).flag pgTIME F.TIME_SERVOCTL_FREEZE = false ∧ (upServo .acquire 255).time.discardPtp = false ∧ (upServo .acquire 255).time.discardBru = false ∧
      (0 : Int) = (if BitVec.ofNat 3 (activeSource (upServo .acquire 255)) = 3 then ppsOffset (0 : Int).toNat else 0) ∧
      (0 : Int).natAbs ≤ (upServo .acquire 255).get pgTIME F.TIME_LOCKTHR * 65536 ∧
      (upServo .acquire 255).get pgTIME F.TIME_SERVOCTL_LOCKCNT ≤ (upServo .acquire 255).time.lockRun + 1) ∧
    ((upServo .locked 0).time.servo = .locked ∧ (upServo .acquire 0).time.servo = .acquire ∧ (upServo .acquire 0).time.holdFreq = none) ∧
    (anyLive up = false ∧ anyLive upLive = true ∧ upLive.flag pgTIME F.TIME_SERVOCTL_STEPOK = false) ∧
    up.get pgTIME F.TIME_TIMEOUTS_ACQWAIT ≠ 0 ∧ (5 ≤ (5 : BitVec 3).toNat ∧ (3 : BitVec 3).toNat < 5 ∧ (3 : BitVec 3).toNat ≠ up.get pgTIME F.TIME_SERVOSRC_SRC) := by
  decide +kernel

/-- A master's data set, a two-step Sync of it, and states of the phase tracker. -/
def someMaster (c : Nat) : PtpMaster := ⟨1, 6, 0x21, 0x4E5D, 1, 0, 0, c * 65536 + 1⟩
def upSlave (c : Nat) : State := { up with time := { up.time with ptp := { up.time.ptp with master := some (someMaster c), isMaster := false } } }
def syncMsg (d c : Nat) : List Byte := [0, 2, 0, 44, BitVec.ofNat 8 d, 0, 2] ++ List.replicate 13 0 ++ beBytes 10 (c * 65536 + 1)
def upSend : State :=
  updEth ((upSlave 0).setReg (pgETH 0) 0x00C 2) 0 fun p => { p with up := true }
/-- One of two masters is not this clock. -/
theorem test_otherMaster : ∃ c, beVal (slice (syncMsg 0 c) 20 10) / 65536 ≠ Config.serial.toNat ∧
    (someMaster c).source = beVal (slice (syncMsg 0 c) 20 10) ∧ (upSlave c).time.ptp.master = some (someMaster c) := by
  have h0 : beVal (slice (syncMsg 0 0) 20 10) / 65536 = 0 ∧ (someMaster 0).source = beVal (slice (syncMsg 0 0) 20 10) := by decide +kernel
  have h1 : beVal (slice (syncMsg 0 1) 20 10) / 65536 = 1 ∧ (someMaster 1).source = beVal (slice (syncMsg 0 1) 20 10) := by decide +kernel
  by_cases e : Config.serial.toNat = 0
  · exact ⟨1, by omega, h1.2, rfl⟩
  · exact ⟨0, by omega, h0.2, rfl⟩

def upTrack (k : Tracker) (n : Nat) : State := { up.set pgTIME F.TIME_PHASE_SRC 1 with time := { up.time with track := k, refMiss := n } }

theorem test_ptpAndPhase_meets :
    ((syncMsg 0 1).getD 1 0).toNat % 16 = 2 ∧ (0 : Fin 2).val = (upSlave 1).get pgPAIR F.PAIR_STAT_LEAD ∧
    (1 : Fin 2).val ≠ (upSlave 1).get pgPAIR F.PAIR_STAT_LEAD ∧
    (((syncMsg ((upSlave 1).get pgTIME F.TIME_PTPCFG_DOMAIN) 1).getD 4 0).toNat = (upSlave 1).get pgTIME F.TIME_PTPCFG_DOMAIN) ∧
    (((syncMsg 0 1).getD 0 0).toNat % 16 = 0 ∧ ((syncMsg 0 1).getD 6 0).toNat / 2 % 2 = 1) ∧ (upSlave 1).time.ptp.isMaster = false ∧
    ((0 : Fin 2).val = upSend.get pgPAIR F.PAIR_STAT_LEAD ∧ (0 : Fin 2).val = leadOf upSend ∧ true ≠ ptpMaster upSend ∧
      upSend.net.ports.length = 2 ∧ effMode upSend (pgETH 0) = 2 ∧ (ethOf upSend 0).up = true ∧ (ethOf upSend 0).pauseEnd = none ∧
      (ethOf upSend 0).txq = []) ∧
    up.get pgTIME F.TIME_PHASE_SRC = 0 ∧
    ((upTrack .seek 0).get pgTIME F.TIME_PHASE_SRC = 1 ∧ (upTrack .seek 0).time.lastRef = none ∧ (upTrack .seek 0).time.track = .seek) ∧
    ((upTrack .track 2).get pgTIME F.TIME_PHASE_SRC ≠ 0 ∧ (upTrack .track 2).time.track = .track ∧ 2 ≤ (upTrack .track 2).time.refMiss) ∧
    (22 ≤ (22 : BitVec 5).toNat ∧ (21 : BitVec 5).toNat < 22 ∧ (2 : BitVec 2).toNat ≤ 2) := by decide +kernel

/-- A state whose staging set agent 1 owns, with the commit in a state. -/
def upOwned (m : CmtMode) : State := { up with cmt := { up.cmt with owner := 1, mode := m } }

theorem test_plainRegisterAccess_meets :
    ((2 : BitVec 24).toNat % 4 ≠ 0 ∧ assigned ((0x009000 : BitVec 24).toNat / 4096) = false) ∧
    ((0x0C3FFC : BitVec 24).toNat % 4 = 0 ∧ assigned ((0x0C3FFC : BitVec 24).toNat / 4096) = true ∧ assigned (0x0C3 : BitVec 12).toNat = true) ∧
    ((0x040008 : BitVec 24).toNat = regKey 0x40 0x008 ∧ assigned 0x40 = true ∧ fixedRun 0x40 = false ∧ pageType 0x40 ≠ 0xC0) ∧
    ((1 : BitVec 4) ≠ 0 ∧ (upOwned .idle).cmt.owner = (1 : BitVec 4).toNat ∧ (upOwned .idle).cmt.mode = .idle ∧ up.cmt.owner ≠ (1 : BitVec 4).toNat ∧
      (upOwned .armed).cmt.mode ≠ .idle) := by decide +kernel

theorem test_discardRule_meets :
    (1 : BitVec 4) ≠ 0 ∧ (upOwned .idle).cmt.owner = (1 : BitVec 4).toNat ∧ (upOwned .idle).cmt.mode = .idle ∧
    (upOwned .idle).cmt.owner ≠ (2 : BitVec 4).toNat ∧ (upOwned .checking).cmt.mode ≠ .idle ∧ assigned 0xC3 = true ∧
    (upOwned .idle).fab.fc.armed = false ∧ regKey pgCMT 0x040 % 4096 ≠ 0x020 := by decide +kernel

theorem test_ownershipMoves_meets :
    (2 : BitVec 4) ≠ 0 ∧ up.cmt.owner = 0 ∧ ((upOwned .idle).cmt.owner ≠ 0 ∧ (upOwned .idle).cmt.owner ≠ (2 : BitVec 4).toNat) ∧
    (upOwned .idle).cmt.owner = (1 : BitVec 4).toNat ∧ (upOwned .armed).fab.fc.armed = false ∧ (upOwned .armed).cmt.mode = .armed ∧
    (upOwned .checking).cmt.mode = .checking ∧ (upOwned .locked).cmt.mode = .locked ∧ ((1 : BitVec 4) ≠ 5 ∧ (1 : BitVec 4) ≠ 6) := by decide +kernel

/-- A state in CHECKING with nothing staged. -/
def upChecking : State := { upOwned .checking with cmt := { (upOwned .checking).cmt with target := 2 ^ 40 } }

theorem test_armAndCheck_meets :
    (1 : BitVec 4) ≠ 0 ∧ (upOwned .idle).cmt.owner = (1 : BitVec 4).toNat ∧ (bitsOf 0x00010000 16 2 < 2 ∧ bitsOf 0 16 2 = 0 ∧ 2 ≤ bitsOf 0x00020000 16 2) ∧
    up.cmt.owner ≠ (1 : BitVec 4).toNat ∧ (upOwned .locked).cmt.mode = .locked ∧
    (upChecking.cmt.mode = .checking ∧ upChecking.cmt.disarmPending = false ∧ nextTarget upChecking upChecking.time.ft ≤ upChecking.cmt.target) ∧
    (up.cmt.holdLeft = 0 ∧ 1 ≤ (64 : BitVec 7).toNat ∧ (64 : BitVec 7).toNat ≤ 64 ∧ 65 ≤ (65 : BitVec 7).toNat) ∧
    ({ up with cmt := { up.cmt with holdLeft := 3 } }.cmt.holdLeft ≠ 0 ∧ (1 : BitVec 7) ≠ 0) := by decide +kernel

theorem test_checkPasses_meets : checks upChecking = [] := by decide +kernel

theorem test_checkFails_meets : checks (stage (regKey pgTIME 0x08C) 0xFFFFFFFF 0xFFFFFFFF upChecking) ≠ [] ∧
    (stage (regKey pgTIME 0x08C) 0xFFFFFFFF 0xFFFFFFFF upChecking).cmt.mode = .checking := by decide +kernel

/-- A state whose MAP, COL and EDGE pages, veneer 15 and strand port 0 are in RUN, with a frame in preparation. -/
def upRun : State :=
  let s := ((((up.setReg pgMAP 0x00C 2).setReg pgCOL 0x00C 2).setReg pgEDGE 0x00C 2).setReg (pgVEN 15) 0x00C 2).setReg (pgSTD 0) 0x00C 2
  let s := ((s.set (pgSTD 0) F.STD_CFG_KIND 1).set (pgSTD 0) F.HDR_REQ_MODE 2).set pgMAP F.MAP_SEG_COUNT 8
  { s with outs := { s.outs with preparing := true } }

/-- A veneer of sACN source that fills a buffer. -/
def upFilling : State :=
  updVen (up.set (pgVEN 15) F.VEN_CFG_SRC 2) 15 fun k => { k with units := [{ src := 2, stamp := 7, buf := some 1 }] }

theorem test_canvasAndColour_meets :
    (upRun.get (pgVEN 15) F.VEN_CFG_SRC ≠ 4 ∧ inScan upRun 15 ≠ none ∧ (venOf upRun 15).missed = false) ∧ inScan up 15 = none ∧
    snapUnit up 0 = none ∧
    (upFilling.vens.length = 16 ∧ snapUnit upFilling 15 = some { src := 2, stamp := 7, buf := some 1 } ∧ (venOf upFilling 15).snap = []) ∧
    preparesOn up = false ∧
    (upRun.outs.strands.length = 64 ∧ preparesOn upRun = true ∧ upRun.outs.preparing = true ∧ laneHead upRun = some 0) ∧ domainOn up 6 = true ∧ domainOn State.reset 6 = false := by decide +kernel

/-- A state whose strand port 0 has taken up a configuration of a mode, shows codes, and is driven. -/
def upPort (kind mode : Nat) (f : Strand → Strand) : State :=
  let c : List Word := [BitVec.ofNat 32 kind, 0, 0, 0, 0, 0, 0, 0, 1 + 0x10000 * 8 + 0x1000000, 0x01000000 + 0x20000, 0, 0, 3, 0, 8]
  updStrand upRun 0 fun k => f { k with mode := mode, cfg := c, shownCfg := c, shown := [1, 2], frameP := 160000000 }

/-- A state whose pin 0 is high with an entry that waits. -/
def upPinEntry (level : Bool) : State := updPin upRun 0 fun p => { p with level := some true, queue := [⟨100, level, none⟩] }

/-- A DMX port whose request has ended and whose pin B turns low. -/
def upTurn : State := updPin (upPort 5 2 fun k => { k with rdm := .sending }) 1 fun p => { p with level := some false, queue := [⟨100, false, none⟩] }

theorem test_edgePlaceTurn_meets :
    upTurn.outs.strands.length = 64 ∧ upTurn.outs.pins.length = 144 ∧ gangLead upTurn 0 = none ∧ (strand upTurn 0).kind = 5 ∧
    (strand upTurn 0).rdm = .sending ∧ (pinOf upTurn 1).queue = [⟨100, false, none⟩] ∧ (pinOf upTurn 1).feed = [] ∧
    bankHeld upTurn (bankOf 1) = false ∧ (pinOf upTurn 1).level = some (pinLevel (strand upTurn 0) 1 false) ∧
    pinLevel (strand upTurn 0) 1 false = false := by decide +kernel

theorem test_plainEntry_meets : [true, false].all (fun b =>
    let k := strand (upPinEntry b) ((gangLead (upPinEntry b) 0).getD 0)
    k.kind ≠ 5 && k.kind ≠ 6) = true := by decide +kernel

theorem test_shiftsAndPins_meets :
    preparesOn up = false ∧
    (upPort 1 2 (fun k => { k with pos := 8 })).outs.strands.length = 64 ∧
    (preparesOn (upPort 1 2 fun k => { k with pos := 8 }) = true ∧ takesFrames (upPort 1 2 fun k => { k with pos := 8 }) 0 = true ∧
      (strand (upPort 1 2 fun k => { k with pos := 8 }) 0).pos = (upPort 1 2 fun k => { k with pos := 8 }).get pgMAP F.MAP_SEG_COUNT 0 ∧
      (upPort 1 2 fun k => { k with pos := 8 }).outs.preparing = true ∧ (strand (upPort 1 2 fun k => { k with pos := 8 }) 0).spoiled = false ∧
      (strand (upPort 1 2 fun k => { k with pos := 8 }) 0).prep.contains (upPort 1 2 fun k => { k with pos := 8 }).time.seq = false) ∧
    ((strand (upPort 1 2 id) 0).kind = 1 ∧ contentOf (upPort 1 2 id) 0 (portNext (upPort 1 2 id) 0).1 (portNext (upPort 1 2 id) 0).2 = .skip false ∧
      contentOf (upPort 1 2 fun k => { k with prep := [0] }) 0 (portNext (upPort 1 2 fun k => { k with prep := [0] }) 0).1
        (portNext (upPort 1 2 fun k => { k with prep := [0] }) 0).2 = .prepared) ∧
    (strand up 0).kind = 0 ∧
    ((strand (upPort 1 3 id) 0).kind = 1 ∧ contentOf (upPort 1 3 id) 0 (portNext (upPort 1 3 id) 0).1
      (portNext (upPort 1 3 id) 0).2 = .codes (testCodes (strand (upPort 1 3 id) 0) 0)) ∧
    (strand up 0).shifting = false ∧ (strand (upPort 1 2 fun k => { k with shifting := true }) 0).shifting = true ∧
    (up.outs.latch.getD 15 {}).high = false ∧
    ({ up with outs := { up.outs with latch := up.outs.latch.set 15 ⟨0, 0, true, 0, 0⟩ } }.outs.latch.getD 15 {}).high = true ∧
    (pinOf up 143).queue = [] ∧
    ([true, false].all fun b => (pinOf (upPinEntry b) 0).queue = [⟨100, b, none⟩] && bankHeld (upPinEntry b) (bankOf 0) = false && (pinOf (upPinEntry b) 0).level = some true &&
      (upPinEntry b).outs.pins.length = 144 && inRun (upPinEntry b) pgEDGE && (pinOf (upPinEntry b) 0).window = none && (pinOf (upPinEntry b) 0).last = none) ∧
    up.get pgEDGE F.EDGE_BANKCFG_PINCHK / 2 ^ bankOf 143 % 2 = 0 ∧
    ((upPinEntry true).set pgEDGE F.EDGE_BANKCFG_PINCHK 1).get pgEDGE F.EDGE_BANKCFG_PINCHK / 2 ^ bankOf 0 % 2 = 1 ∧
    (23 < (strand (upPort 1 2 id) 0).words ∧ (strand (upPort 1 2 id) 0).words ≤ 24 ∧ (strand (upPort 1 2 id) 0).mode = 2 ∧ (strand (upPort 1 2 id) 0).shifting = false) := by
  decide +kernel

theorem test_portModes_meets :
    ((showing up 0).kind ≠ 3 ∧ (strand up 63).kind ≠ 5) ∧
    ((showing (upPort 3 2 id) 0).kind = 3 ∧ (strand (upPort 3 2 id) 0).shown ≠ [] ∧ portDriven (upPort 3 2 id) 0 = true) ∧
    ((showing (upPort 4 2 id) 0).kind = 4 ∧ (strand (upPort 4 2 id) 0).shown ≠ [] ∧ portDriven (upPort 4 2 id) 0 = true ∧
      beforeLatch (upPort 4 2 id) 0 ((strand (upPort 4 2 id) 0).origin + (strand (upPort 4 2 id) 0).idx * pwmPeriod (showing (upPort 4 2 id) 0)) = true) ∧
    ((strand (upPort 6 2 id) 0).kind = 6 ∧ portDriven (upPort 6 2 id) 0 = true) ∧
    ((strand (upPort 7 2 id) 0).kind = 7 ∧ inRun (upPort 7 2 id) (pgSTD 0) = true ∧ (strand (upPort 7 2 id) 0).fld F.STD_GPIO_P1_PULSEA = 1 ∧
      (strand (upPort 7 2 id) 0).idx ≤ (strand (upPort 7 2 id) 0).fld F.STD_GPIO_P1_K ∧ (upPort 7 2 id).time.gapM = none ∧
      (pinOf (upPort 7 2 id) 1).queue.length < 64 ∧ (pinOf (upPort 7 2 id) 1).feed = []) ∧
    ((strand (upPort 5 2 id) 0).kind = 5 ∧ portDriven (upPort 5 2 id) 0 = true ∧ (strand (upPort 5 2 id) 0).dark = .none ∧
      (strand (upPort 5 2 id) 0).rdm = .idle ∧ inRun (upPort 5 2 id) pgEDGE = true ∧
      (dmxData 0 (upPort 5 2 fun k => { k with packet := [7] }).quiet).2 ≠ [] ∧ (strand (upPort 5 2 fun k => { k with rdm := .queued }) 0).rdm = .queued) ∧
    (bitsOf 0 1 1 = 0 ∧ bitsOf 2 1 1 = 1) ∧
    64 ≤ (pinOf (updPin (upPort 7 2 id) 1 fun p => { p with queue := List.replicate 64 ⟨0, true, none⟩ }) 1).queue.length := by decide +kernel

theorem test_matrixSwitch_meets :
    (switchPlaces (litSpans (duties (showing (upPort 3 2 id) 0) (strand (upPort 3 2 id) 0).shown).1))[0]?.any (fun x =>
      beforeLatch (upPort 3 2 id) 0 ((strand (upPort 3 2 id) 0).origin + x * matrixPeriod (showing (upPort 3 2 id) 0))) = true := by decide +kernel

/-- A state whose override state 7 is enabled, or active. -/
def upOvr : State := (up.set pgOVR F.OVR_ST_CFG_EN 1 7).setReg pgOVR 0x00C 2
def upActive : State := { up with outs := { up.outs with ovr := { up.outs.ovr with active := 0x80 } } }

theorem test_rdmAndOverrides_meets :
    (up.outs.strands.length = 64 ∧ (strand up 63).rdm = .idle ∧ awaits up 63 = false) ∧
    (strand (upPort 5 2 fun k => { k with rdm := .markQueued }) 0).rdm = .markQueued ∧
    (awaits (upPort 5 2 fun k => { k with rdm := .listening }) 0 = true ∧ (strand (upPort 5 2 fun k => { k with rdm := .listening }) 0).rdm ≠ .idle) ∧
    (strand (upPort 5 2 fun k => { k with rdm := .mark }) 0).rdm = .mark ∧
    (([0xCC, 1, 24] : List Byte).length < (([0xCC, 1, 24] : List Byte).getD 2 0).toNat + 2) ∧
    (up.flag (pgSTD 0) F.STD_RDMCTL_DISC = false ∧ (up.set (pgSTD 0) F.STD_RDMCTL_DISC 1).flag (pgSTD 0) F.STD_RDMCTL_DISC = true) ∧
    (up.set pgOVR F.OVR_TRIG_EN 1 7).flag pgOVR F.OVR_TRIG_EN 7 = true ∧
    (up.outs.ovr.trig.getD 7 false = false ∧ up.outs.ovr.trig.getD 7 false ≠ true ∧ up.flag pgOVR F.OVR_TRIG_EN 7 = false) ∧
    (up.flag pgOVR F.OVR_ST_CFG_EN 7 = false ∧ upOvr.flag pgOVR F.OVR_ST_CFG_EN 7 = true ∧ inRun upOvr pgOVR = true ∧ upOvr.outs.ovr.fireAt.length = 8) ∧
    (upActive.outs.ovr.active.getLsbD 7 = true ∧ upActive.outs.ovr.fireAt.getD 7 none = none ∧ up.outs.ovr.active.getLsbD 7 = false) := by decide +kernel

/-- A state in which CAL runs, and one with a run of bank 3 in progress. -/
def upCal : State := up.set pgCAL F.HDR_EFF_MODE 2
def upCalRun (r : CalRun) (w : Bool) : State := { upCal with cal := { upCal.cal with run := some r, window := w } }
/-- A run after 63 windows whose taps are 31.25 ps wide each, and one that measured nothing. -/
def evenRun : CalRun := { bank := 3, windows := 63, hits := List.replicate 36 (List.replicate 32 1250) }
def emptyRun : CalRun := { bank := 3, windows := 63 }

theorem test_calibrationRuns_meets :
    (inRun up pgCAL = false ∧ (upCal.set pgCAL F.CAL_TEMPTRIG 0).get pgCAL F.CAL_TEMPTRIG = 0) ∧
    (upCal.flag pgCAL F.CAL_CTL_AUTO = true ∧ inRun upCal pgCAL = true ∧ upCal.cal.run = none ∧ upCal.cal.turn = ((0 : Fin 4).val + 3) % 4 ∧ calTakes upCal 0 = true) ∧
    (inRun (upCalRun { bank := 3 } false) pgCAL = true ∧ (upCalRun { bank := 3 } false).cal.run.isSome = true) ∧
    ((upCalRun { bank := 3 } false).cal.window = false ∧ ({ bank := 3 } : CalRun).windows < 63 ∧ ({ bank := 3 } : CalRun).defers < 255) ∧
    (windowDeferred (upCalRun { bank := 3 } false) 3 = false ∧
      windowDeferred ((upCalRun { bank := 3 } false).set pgPMU F.PMU_DOMEFF_ON 0xDFFF) 3 = true) ∧
    ((upCalRun { bank := 3 } false).boot.outEn = true ∧ (upCalRun { bank := 3 } false).time.gapM = none ∧
      now16 (upCalRun { bank := 3 } false) < windowAt (upCalRun { bank := 3 } false) 3 + 256000 ∧
      ((upCalRun { bank := 3 } false).set pgPMU F.PMU_DOMEFF_ON 0xDFFF).boot.outEn = true ∧ State.reset.boot.outEn = false) ∧
    ((upCalRun { bank := 3 } true).cal.window = true ∧ ({ bank := 3 } : CalRun).tables = none) ∧
    ((upCal.set pgCAL F.CAL_BANKSTAT_CALIB 1 3).flag pgCAL F.CAL_BANKSTAT_CALIB 3 = true ∧ calibrated (upCal.set pgCAL F.CAL_BANKSTAT_CALIB 1 3) 3 = false ∧
      upCal.flag pgCAL F.CAL_BANKSTAT_CALIB 3 = false) := by decide +kernel
theorem tapCompute_even : (tapCompute (List.replicate 32 1250)).isSome = true := by decide +kernel
theorem test_calibrationTables_meets :
    (evenRun.windows = 63 ∧ evenRun.tables = none ∧ (upCalRun evenRun false).cal.window = false ∧
      ∀ j, j < 36 → (tapCompute (evenRun.hits.getD j [])).isSome = true) ∧
    ((upCalRun emptyRun false).cal.waiting = [] ∧ tapCompute (emptyRun.hits.getD 35 []) = none) := by
  have e : ∀ j, j < 36 → evenRun.hits.getD j [] = List.replicate 32 1250 := by decide +kernel
  refine ⟨⟨rfl, rfl, rfl, fun j h => ?_⟩, rfl, by decide +kernel⟩
  rw [e j h]
  exact tapCompute_even

/-- A state whose converter runs, with a group's channels set, a group that converts and a start that waits, or a calibration in progress. -/
def upAdc : State := (up.set pgADC F.HDR_EFF_MODE 2).set pgADC F.ADC_GRP_MASK 0x8001 3
def upConv (i : Nat) (p : Option Nat) : State := { upAdc with cal := { upAdc.cal with conv := some (0, 0, [0, 15], i, 184, 16330), pend := p } }
def upAdcCal (st : Bool) : State := { upAdc with cal := { upAdc.cal with adcCal := true, starved := st } }

/-- The worked example of R243: z = 11.5 and f = 3,710 give 184 and 16,330, and the raw result 2,048 becomes 2,030. -/
theorem test_converterGroups_meets :
    (adcOn up = false ∧ upAdc.get pgADC F.ADC_GRP_MASK 0 = 0 ∧ adcOn upAdc = true ∧ upAdc.get pgADC F.ADC_GRP_MASK 3 ≠ 0 ∧ upAdc.cal.conv = none) ∧
    (adcOn (upConv 1 (some 3)) = true ∧ (upConv 1 (some 3)).cal.pend.isSome = true ∧ (upConv 1 none).cal.pend = none ∧ (0 : Nat) ≠ 3) ∧
    (0xFFFFFFF0 : Word).toNat % 16 = 0 ∧ (([0, 15] : List Nat)[1]? = some 15 ∧ upAdc.cal.convAt.length = 16) ∧
    (corrected 184 16330 2048 = 2030 ∧ (0 : Int) ≤ ((16 * (2048 : Int) - 184) * 16330 + 131072) / 262144) ∧
    (1 < [0, 15].length ∧ [0, 15].length ≤ 2 ∧ (upConv 2 (some 3)).cal.pend = some 3 ∧ (upConv 2 none).cal.pend = none) ∧
    (upAdc.flag pgADC F.ADC_CALCTL_AUTO = true ∧ upAdc.cal.adcCal = false ∧ effMode upAdc pgADC ≠ 3 ∧ upAdc.cal.adcDue = false ∧
      { (upConv 2 none).cal with adcDue := true }.adcDue = true ∧ adcOn (upConv 2 none) = true) ∧
    ((upAdcCal false).cal.adcCal = true ∧ (upAdcCal false).cal.conv = none ∧ (median (List.replicate 31 23)).natAbs ≤ 128 ∧ 7000 ≤ median (List.replicate 31 7420) - median (List.replicate 31 23) ∧
      median (List.replicate 31 7420) - median (List.replicate 31 23) ≤ 7800 ∧ 8 * median (List.replicate 31 23) = 184 ∧ (roundHalfUp (16384 * (36864 / 10 : Rat) * 2 / (7397 : Rat))).toNat = 16330) ∧
    (median (List.replicate 31 7420) - median (List.replicate 31 500) < 7000 ∧ (upAdcCal true).cal.starved = true ∧ (upAdcCal false).cal.starved = false) ∧
    ∀ b, b < 4 → up.flag pgCAL F.CAL_BANKSTAT_CALIB b = false := by decide +kernel

/-- A state whose sound block and taps run, with BUS3, TDM1 and LTC enabled; one with a block waiting, one that has lost a frame of LTC. -/
def upSnd : State := (((up.set pgSND F.HDR_EFF_MODE 2).set pgSND F.SND_BUS_EN 1 3).set pgSND F.SND_TDM1_EN 1).set pgSND F.SND_LTC_EN 1
def upBlock : State := updBus upSnd 3 fun k => { k with block := [(95, 0, false, false), (96, 0, false, false)], idx := some 96 }
def upLtc (bad : Nat) : State := updSnd upSnd fun d => { d with ltcBad := bad, ltc := { d.ltc with frames := [(true, 5, 1, 0)] } }
def upRem : State := ((upSnd.set pgSND F.SND_REMBEAT_EN 1).set pgSND F.SND_REMOTE_EN 1 3).set pgSND F.SND_REMOTE_BUS 3 3
def recOf (n : Nat) (src : List Byte) : List Byte := List.replicate 8 0 ++ src ++ List.replicate (n - 12) 0
def upTap : State := up.set pgTAP F.HDR_EFF_MODE 2

theorem test_soundInputs_meets :
    (bitsOf (tdmReg upSnd 0) 0 1 = 0 ∧ sndIn State.reset = false ∧ bitsOf (tdmReg upSnd 1) 0 1 = 1 ∧ sndIn upSnd = true) ∧
    (sndOn upSnd = true ∧ upSnd.flag pgSND F.SND_BUS_EN 3 = true ∧ upSnd.flag pgSND F.SND_BUS_EN 0 = false ∧ upSnd.snd.buses.length = 4) ∧
    ((busOf upSnd 0).block = [] ∧ upSnd.snd.pub = [] ∧ sndOn upBlock = true ∧ sndOn State.reset = false ∧ (busOf upBlock 3).block = (95, 0, false, false) :: [(96, 0, false, false)] ∧
      upBlock.snd.buses.length = 4 ∧ upBlock.snd.feats.length = 8) ∧
    (upSnd.flag pgSND F.SND_LTC_EN = true ∧ (upLtc 0).snd.ltcBad = 0 ∧ 1 ≤ (upLtc 1).snd.ltcBad ∧ (upLtc 1).flag pgSND F.SND_LTC_EN = true ∧
      sndIn (upLtc 1) = true ∧ upSnd.snd.ltc.frames = [] ∧ (upLtc 1).snd.ltc.frames = [(true, 5, 1, 0)]) ∧
    (up.flag pgSND F.SND_LTC_EN = false ∧ up.flag pgSND F.SND_LTCSTAT_LOCK = false ∧ (up.set pgSND F.SND_LTCSTAT_LOCK 1).flag pgSND F.SND_LTCSTAT_LOCK = true) := by
  decide +kernel
theorem test_soundRecords_meets :
    ((recOf 31 [0, 0, 0, 0]).length ≠ 32 ∧ (recOf 31 [0, 0, 0, 0]).length ≠ 96) ∧
    (sndIn upRem = true ∧ (recOf 32 [0, 0, 0, 0]).length = 32 ∧ upSnd.flag pgSND F.SND_REMBEAT_EN = false ∧ upRem.flag pgSND F.SND_REMBEAT_EN = true ∧
      upRem.get pgSND F.SND_REMBEAT_NODE = leVal (slice (recOf 32 [0, 0, 0, 0]) 8 4) % 2 ^ 18) ∧
    ((recOf 96 [0, 0, 12, 0]).length = 96 ∧ (∀ r, r < 3 → upRem.flag pgSND F.SND_REMOTE_EN r = false) ∧ upSnd.flag pgSND F.SND_REMOTE_EN 3 = false ∧
      upRem.flag pgSND F.SND_REMOTE_EN 3 = true ∧ upRem.get pgSND F.SND_REMOTE_NODE 3 = leVal (slice (recOf 96 [0, 0, 12, 0]) 8 4) % 2 ^ 18 ∧
      upRem.get pgSND F.SND_REMOTE_BUS 3 = leVal (slice (recOf 96 [0, 0, 12, 0]) 8 4) / 2 ^ 18 % 4 ∧ upRem.snd.feats.length = 8 ∧
      upRem.snd.feats.getD 7 [] = []) ∧
    (inRun up pgTAP = false ∧ inRun upTap pgTAP = true ∧ upTap.time.gapM = none ∧ ∀ t, t < 64 → upTap.flag pgTAP F.TAP_CFG_EN t = false) := by
  decide +kernel

/-- A state whose tracker is in a state, with one onset of FT 0, a next beat at 1 s, and FT at 9 s. -/
def upTrk (n : Nat) (b : Option Rat) : State :=
  { updTrk upSnd fun k => { k with state := n, next := b, onsets := [(0, 1, false)] } with time := { up.time with ft := 9 * secUnits } }

theorem test_tempoTracker_meets :
    sndOn State.reset = false ∧
    (sndOn (upTrk 1 none) = true ∧ (heldOnsets (upTrk 1 none)).length < 8 ∧
      (upTrk 1 none).snd.trk.state = 1 ∧ ∀ o ∈ (upTrk 1 none).snd.trk.onsets, o.1 + 8 * secUnits < (upTrk 1 none).time.ft) ∧
    ((upTrk 0 none).snd.trk.state ≠ 1 ∧ (upTrk 2 none).snd.trk.state = 2 ∧ (upTrk 1 none).snd.trk.state ≠ 2) ∧
    ((upTrk 1 none).snd.pub = [] ∧ (upTrk 1 none).snd.trk.next = none) ∧
    ((upTrk 1 (some 1)).snd.trk.next = some 1 ∧ sndOn (upTrk 1 (some 1)) = true ∧ (upTrk 1 (some 1)).snd.trk.state ≠ 0) ∧
    (bitsOf 0xFFFFFFFE 0 1 = 0 ∧ bitsOf 1 0 1 = 1) := by decide +kernel

/-- A state whose port B runs and is up, with frames that wait and a pause; two frames to the broadcast address and one to nobody here. -/
def upEth (l : List (Nat × List Byte)) (e : Option Nat) (w : Bool) : State :=
  updEth ((up.set (pgETH 1) F.HDR_EFF_MODE 2).set (pgETH 1) F.HDR_REQ_MODE 2) 1 fun p => { p with up := true, txq := l, pauseEnd := e, pausing := w }
def upLow : State := ((upEth [] none false).set (pgETH 1) F.ETH_PAUSECFG_LOWWATER 200).set (pgETH 1) F.ETH_RXCFG_PAUSEEN 1 0
def upNone : State := (upEth [] none false).set (pgETH 1) F.ETH_RINGSEL_OTHER 4
def bcast (t : List Byte) : List Byte := List.replicate 6 0xFF ++ List.replicate 6 2 ++ t ++ List.replicate 44 0
def pauseLine : List Byte := withFcs ([1, 0x80, 0xC2, 0, 0, 1] ++ List.replicate 6 2 ++ [0x88, 0x08, 0x00, 0x01, 0, 7] ++ List.replicate 42 0)
def stranger : List Byte := List.replicate 12 2 ++ List.replicate 52 0
/-- The same port with a station address. -/
def upMac : State := { upNone with regs := amSet (amSet upNone.regs (regKey (pgETH 1) 0x044) 0x01020304) (regKey (pgETH 1) 0x048) 0x0002 }
def upUni : State := updNet up fun n => { n with uni := [(7, { fresh := true })] }

theorem test_ethernetPorts_meets :
    ((ethOf up 1).up = false ∧ (ethOf (upEth [] none false) 1).up = true ∧ (upEth [] none false).net.ports.length = 2) ∧
    (State.reset.get (pgETH 1) F.HDR_REQ_MODE = 0 ∧ domainOn State.reset 10 = false) ∧
    ((up.set (pgETH 1) F.HDR_REQ_MODE 2).get (pgETH 1) F.HDR_REQ_MODE ≠ 0 ∧ domainOn (up.set (pgETH 1) F.HDR_REQ_MODE 2) 10 = true ∧
      (ethOf (up.set (pgETH 1) F.HDR_REQ_MODE 2) 1).up = false) ∧
    ((up.set (pgETH 1) F.ETH_CFG_RXPAUSE 0).flag (pgETH 1) F.ETH_CFG_RXPAUSE = false ∧ up.flag (pgETH 1) F.ETH_CFG_RXPAUSE = true ∧ up.net.ports.length = 2) ∧
    ((ethOf up 1).pausing = false ∧ 1 ∈ [1, 3, 4] ∧ 4 ∈ [1, 3, 4] ∧ up.get (pgETH 1) F.ETH_PAUSECFG_LOWWATER = 0 ∧ (ethOf (upEth [] none true) 1).pausing = true ∧
      (upEth [] none true).get (pgETH 1) F.ETH_PAUSECFG_LOWWATER = 0 ∧
      (pauseRings (upEth [] none true) 1).all (fun r => decide ((upEth [] none true).get (pgETH 1) F.ETH_PAUSECFG_HIWATER ≤ r.free (upEth [] none true))) = true) ∧
    ((pauseRings upLow 1).any (fun r => decide (r.free upLow < upLow.get (pgETH 1) F.ETH_PAUSECFG_LOWWATER)) = true ∧ upLow.net.ports.length = 2) ∧
    (runTest up (pgETH 1) = false ∧ effMode up (pgETH 1) ≠ 3 ∧ (ethOf (upEth [] (some 1) false) 1).pauseEnd.isSome = true ∧
      (∀ e ∈ (ethOf (upEth [(2, [])] (some 1) false) 1).txq, e.1 ≠ 1)) ∧
    (inRun (upEth [(1, []), (4, [])] (some 1) false) (pgETH 1) = true ∧ (ethOf (upEth [(1, []), (4, [])] (some 1) false) 1).txq = (1, []) :: [(4, [])] ∧
      (∀ e ∈ ([(4, [])] : List (Nat × List Byte)), 1 ≤ e.1) ∧ ptpEventAt [] = none ∧ (ethOf (upEth [(4, [])] none false) 1).pauseEnd = none) := by decide +kernel
theorem test_pauseLine_meets : fcsOk pauseLine = true := by
  have h : ∀ b : List Byte, fcsOk (withFcs b) = true := by
    intro b
    have l : ∀ n v, (leBytes n v).length = n := by
      intro n
      induction n with
      | zero => intro v; rfl
      | succ n ih => intro v; simp [leBytes, ih]
    have v : ∀ n v, leVal (leBytes n v) = v % 256 ^ n := by
      intro n
      induction n with
      | zero => intro v; simp [leBytes, leVal, Nat.mod_one]
      | succ n ih =>
        intro v
        have e : v % 256 ^ (n + 1) = v % 256 + 256 * (v / 256 % 256 ^ n) := by rw [Nat.pow_succ', Nat.mod_mul]
        simp only [leBytes, leVal, ih, BitVec.toNat_ofNat, e]
    unfold fcsOk noFcs withFcs
    rw [List.length_append, l, Nat.add_sub_cancel, List.take_left, List.drop_left, v]
    simpa using Nat.mod_eq_of_lt (crc32 b).isLt
  exact h _
theorem test_ethernetFrames_meets :
    (up.net.wake = false ∧ effMode up (pgETH 1) = 0 ∧ inRun upMac (pgETH 1) = true ∧ (ethOf upMac 1).up = true ∧ ([] : List Byte).length < 64) ∧
    (64 ≤ pauseLine.length ∧ slice pauseLine 12 4 = [0x88, 0x08, 0x00, 0x01] ∧ beVal (slice pauseLine 0 6) = 0x0180C2000001) ∧
    (64 ≤ stranger.length ∧ slice stranger 12 4 ≠ [0x88, 0x08, 0x00, 0x01] ∧ inRun upMac (pgETH 1) = true ∧ (ethOf upMac 1).up = true ∧
      addrOk upMac 1 (classOf upMac 1 (noFcs stranger)) stranger = false) ∧
    (64 ≤ (bcast [0, 0, 0, 0, 0, 0, 0, 0]).length ∧ (bcast [0, 0, 0, 0, 0, 0, 0, 0]).length ≤ frameLimit upMac 1 ∧
      slice (bcast [0, 0, 0, 0, 0, 0, 0, 0]) 12 4 ≠ [0x88, 0x08, 0x00, 0x01] ∧
      classOf upMac 1 (noFcs (bcast [0, 0, 0, 0, 0, 0, 0, 0])) = 0 ∧ addrOk upMac 1 0 (bcast [0, 0, 0, 0, 0, 0, 0, 0]) = true ∧
      4 ≤ upMac.get (pgETH 1) F.ETH_RINGSEL_OTHER ∧ ∀ k, k < 8 → wakeMatch upMac 1 k (noFcs (bcast [0, 0, 0, 0, 0, 0, 0, 0])) = false) ∧
    (amGet up.net.uni 7 = none ∧ amGet upUni.net.uni 7 = some { fresh := true }) := by decide +kernel

/-- Paired paths: A in the lead, B with misses or sick, or a dual window open. -/
def upPair : State := (((up.set pgPAIR F.PAIR_CFG_PAIRED 1).set (pgETH 1) F.HDR_EFF_MODE 2).set (pgETH 0) F.HDR_EFF_MODE 2)
def upMiss : State := { upPair with net := { upPair.net with pair := { upPair.net.pair with miss := [0, 17] } } }
def upSickB : State := updEth (setSick 1 3 upPair) 1 fun p => { p with up := true }
def upDual : State := upPair.set pgPAIR F.PAIR_STAT_DUAL 1

theorem test_pairedPaths_meets :
    (isPath upMiss 1 = true ∧ upMiss.get pgPAIR F.PAIR_HEALTH_GAPTHR ≠ 0 ∧ upMiss.get pgPAIR F.PAIR_HEALTH_GAPTHR < upMiss.net.pair.miss.getD 1 0 ∧
      upMiss.flag pgPAIR F.PAIR_STAT_DUAL = false ∧ upMiss.net.pair.miss.getD 0 0 ≤ upMiss.get pgPAIR F.PAIR_HEALTH_GAPTHR ∧
      upMiss.net.pair.fcs.getD 0 0 ≤ upMiss.get pgPAIR F.PAIR_HEALTH_CRCTHR) ∧
    (isSick up 1 = false ∧ isSick upSickB 1 = true ∧ (ethOf upSickB 1).up = true ∧ inRun upSickB (pgETH 1) = true ∧ upSickB.net.pair.healthyAt.length = 2) ∧
    (bitsOf 0xFFFFFFFE 0 1 = 0 ∧ bitsOf 1 0 1 = 1 ∧ up.flag pgPAIR F.PAIR_CFG_PAIRED = false ∧ isSick upSickB (1 - upSickB.get pgPAIR F.PAIR_STAT_LEAD) = true) ∧
    (upPair.flag pgPAIR F.PAIR_CFG_PAIRED = true ∧ isSick upPair (1 - upPair.get pgPAIR F.PAIR_STAT_LEAD) = false ∧ upPair.flag pgPAIR F.PAIR_STAT_DUAL = false) ∧
    (upDual.flag pgPAIR F.PAIR_STAT_DUAL = true ∧ upDual.net.pair.deferred = [] ∧ isSick upDual (upDual.get pgPAIR F.PAIR_STAT_LEAD) = false ∧
      upDual.flag pgPAIR F.PAIR_CFG_REVERT = false ∧ upDual.net.ports.length = 2) ∧
    (inRun up (pgETH 1) = false ∧ ∀ x, x < 2 → inRun upPair (pgETH x) = true ∧ isSick upPair x = false) := by decide +kernel

/-- A state whose responder runs, with a key and a request in front; a request of STATUS with the tag of that key. -/
def upCane (m : List Byte) : State := updCane (up.set pgCANE F.HDR_EFF_MODE 2) fun c =>
  { c with keys := List.replicate 16 (some 0), store := [{ path := 1, msg := m }] }
def caneHead (op : Byte) (b : List Byte) : List Byte := [0x43, 0x4E, 1, op, 0, 0, 0, 0] ++ List.replicate 20 0 ++ beBytes 2 b.length ++ [0, 0] ++ b
def caneMsg (op : Byte) (b : List Byte) : List Byte := caneHead op b ++ caneTag (List.replicate 32 0) (caneHead op b)
def caneReqOf (op : Byte) (b : List Byte) : CaneReq := { path := 1, msg := caneMsg op b }

theorem caneTag_length (key m : List Byte) (h : (hmac256 key m).length = 32) : (caneTag key m).length = 16 := by
  unfold caneTag; rw [List.length_take, h]; rfl
theorem test_caneResponder_meets :
    (up.net.cane.store = [] ∧ up.net.cane.held = none) ∧
    ((upCane (caneHead 1 [])).net.cane.store = { path := 1, msg := caneHead 1 [] } :: [] ∧ (upCane (caneHead 1 [])).net.cane.held = none ∧
      inRun (upCane (caneHead 1 [])) pgCANE = true ∧ sysDown (upCane (caneHead 1 [])) = false ∧ (caneHead 1 []).length < 48 ∧
      ((caneHead 1 []).getD 3 0).toNat = 1 ∧ ((caneHead 1 []).getD 3 0).toNat ≠ 5) ∧
    (bodyOk 1 [] = true ∧ bodyOk 2 [] = false) ∧
    (up.cmt.owner ≠ 5 ∧ ({ up with cmt := { up.cmt with owner := 5 } } : State).cmt.owner = 5 ∧ up.net.cane.keys.length = 16) := by decide +kernel

theorem beBytes_length (n v : Nat) : (beBytes n v).length = n := by
  have l : ∀ n v, (leBytes n v).length = n := by
    intro n
    induction n with
    | zero => intro v; rfl
    | succ n ih => intro v; simp [leBytes, ih]
  unfold beBytes; rw [List.length_reverse, l]
theorem shaFold_length (l : List (Word × Word)) (h : List Word) (e : h.length = 8) : (l.foldl shaRound h).length = 8 := by
  induction l generalizing h with
  | nil => exact e
  | cons x l ih => exact ih _ rfl
theorem sha256_length (m : List Byte) : (sha256 m).length = 32 := by
  have f : ∀ (l : List Nat) (h : List Word), h.length = 8 → (l.foldl (fun h i => shaBlock h (slice (shaPad m) (64 * i) 64)) h).length = 8 := by
    intro l
    induction l with
    | nil => intro h e; exact e
    | cons x l ih =>
      intro h e
      refine ih _ ?_
      unfold shaBlock
      rw [List.length_zipWith, shaFold_length _ _ e, e]; rfl
  have g : ∀ l : List Word, (l.flatMap fun x => beBytes 4 x.toNat).length = 4 * l.length := by
    intro l
    induction l with
    | nil => rfl
    | cons x l ih => rw [List.flatMap_cons, List.length_append, ih, beBytes_length, List.length_cons]; omega
  unfold sha256
  rw [g, f _ _ (by decide)]
/-- A message with a body for each operation and the tag of its key is authentic at a free responder. -/
theorem test_caneFront_meets : ∀ m ∈ [((1 : Byte), ([] : List Byte)), (2, [0, 0]), (3, [0, 0, 0, 0]), (4, [0, 0, 0, 0, 0, 0, 0, 0]), (5, [0, 0, 0, 0, 0, 1, 0, 0]), (6, []), (0x80, [])],
    CaneFront (caneReqOf m.1 m.2) [] (List.replicate 32 0) (upCane (caneMsg m.1 m.2)) ∧ ((caneReqOf m.1 m.2).msg.getD 3 0) = m.1 ∧
    slice (caneReqOf m.1 m.2).msg 32 ((caneReqOf m.1 m.2).msg.length - 48) = m.2 ∧ (1 ≤ m.1 ∧ m.1 ≤ 5 → bodyOk m.1.toNat m.2 = true) ∧
    ((caneReqOf m.1 m.2).msg.getD 4 0).getLsbD 1 = false ∧ (caneReqOf m.1 m.2).path < 2 := by
  intro m hm
  have hl : (caneTag (List.replicate 32 0) (caneHead m.1 m.2)).length = 16 := caneTag_length _ _ (sha256_length _)
  have hh : (caneHead m.1 m.2).length = 32 + m.2.length := by
    unfold caneHead; simp only [List.length_append, List.length_replicate, beBytes_length, List.length_cons, List.length_nil]
  have hn : (caneReqOf m.1 m.2).msg.length = 48 + m.2.length := by
    show (caneHead m.1 m.2 ++ _).length = _; rw [List.length_append, hl, hh]; omega
  have hb : m.2.length ≤ 8 ∧ beVal (slice (caneHead m.1 m.2) 28 2) = m.2.length ∧ ((caneHead m.1 m.2).getD 6 0).toNat = 0 ∧
      slice (caneHead m.1 m.2) 0 3 = [0x43, 0x4E, 1] ∧ ((caneHead m.1 m.2).getD 4 0) = 0 ∧ ((caneHead m.1 m.2).getD 3 0) = m.1 ∧
      slice (caneHead m.1 m.2) 32 m.2.length = m.2 ∧ (1 ≤ m.1 ∧ m.1 ≤ 5 → bodyOk m.1.toNat m.2 = true) := by
    fin_cases hm <;> decide +kernel
  have sl : ∀ i n, i + n ≤ (caneHead m.1 m.2).length → slice (caneReqOf m.1 m.2).msg i n = slice (caneHead m.1 m.2) i n := by
    intro i n h
    show slice (caneHead m.1 m.2 ++ _) i n = _
    unfold slice
    exact List.map_congr_left fun k hk => List.getD_append _ _ _ _ (by have := List.mem_range.1 hk; omega)
  have gd : ∀ i, i < (caneHead m.1 m.2).length → (caneReqOf m.1 m.2).msg.getD i 0 = (caneHead m.1 m.2).getD i 0 := by
    intro i h
    show (caneHead m.1 m.2 ++ _).getD i 0 = _
    exact List.getD_append _ _ _ _ h
  have tk : (caneReqOf m.1 m.2).msg.length - 16 = (caneHead m.1 m.2).length := by omega
  refine ⟨⟨rfl, rfl, ?_, ?_, ⟨by omega, by omega, ?_⟩, ⟨?_, ?_⟩, ⟨?_, ?_⟩, ?_, ?_, .inl ?_⟩, ?_, ?_, hb.2.2.2.2.2.2.2, ?_, (by decide : (1 : Nat) < 2)⟩
  · have e : inRun (upCane (caneMsg m.1 m.2)) pgCANE = inRun (up.set pgCANE F.HDR_EFF_MODE 2) pgCANE := rfl
    rw [e]; decide +kernel
  · have e : sysDown (upCane (caneMsg m.1 m.2)) = sysDown up := rfl
    rw [e]; decide +kernel
  · rw [sl _ _ (by omega), hb.2.1]; exact hn
  · rw [gd _ (by omega), hb.2.2.1]; decide
  · rw [gd _ (by omega), hb.2.2.1]
    have e : caneKey (upCane (caneMsg m.1 m.2)) 0 = caneKey (upCane []) 0 := rfl
    rw [e]; decide +kernel
  · rw [sl _ _ (by omega)]; exact hb.2.2.2.1
  · rw [gd _ (by omega), hb.2.2.2.2.1]; decide
  · rw [tk]
    show caneTag _ ((caneHead m.1 m.2 ++ _).take _) = (caneHead m.1 m.2 ++ _).drop _
    rw [List.take_left' rfl, List.drop_left' rfl]
  · intro e h; exact absurd h (List.not_mem_nil)
  · have e : timeValid (upCane (caneMsg m.1 m.2)) = timeValid up := rfl
    rw [e]; decide +kernel
  · rw [gd _ (by omega)]; exact hb.2.2.2.2.2.1
  · rw [show (caneReqOf m.1 m.2).msg.length - 48 = m.2.length from by omega, sl _ _ (by omega)]; exact hb.2.2.2.2.2.2.1
  · rw [gd _ (by omega), hb.2.2.2.2.1]; decide

/-- A Brura port that runs, with lanes in a state; a course of a lane whose header alone is given. -/
def upBru (n : Nat) (f : BruPort → BruPort) : State :=
  updBru ((up.set (pgBRU 3) F.HDR_REQ_MODE 2).set (pgBRU 3) F.HDR_EFF_MODE 2) 3 fun p => f { p with lanes := [{ state := n }, { state := n }] }
def courseOf (l type : Nat) : List Nat := comma l ++ graySyms ((List.range 32).map fun i => (sealHdr (type * 2 ^ 28)).getLsbD (31 - i))
def upLoop : State := (up.set (pgBRU 3) F.HDR_EFF_MODE 3).set (pgBRU 3) F.BRU_CFG_LOOP 1

theorem test_bruraCourses_meets :
    (bruRuns up 3 = false ∧ (bruOf (upBru 4 fun p => { p with flbActive := true }) 3).flbActive = true ∧ bruTest upLoop 3 = true ∧
      upLoop.get (pgBRU 3) F.BRU_CFG_LOOP = 1 ∧ (laneOf (upBru 1 id) 3 1).state < 2) ∧
    (bruRuns (upBru 4 id) 3 = true ∧ (bruOf (upBru 4 id) 3).flbActive = false ∧ bruTest (upBru 4 id) 3 = false ∧ (upBru 4 id).bru.length = 4 ∧
      flows (upBru 4 id) 3 = false ∧ (upBru 4 id).flag (pgBRU 3) F.BRU_CFG_PRECODE = false ∧ (upBru 4 id).flag (pgBRU 3) F.BRU_CFG_TXINV0 = false ∧
      (upBru 4 id).flag (pgBRU 3) F.BRU_CFG_TXINV1 = false) ∧
    (2 ≤ (laneOf (upBru 4 id) 3 1).state ∧ (laneOf (upBru 4 id) 3 1).alt = none ∧ (bruOf (upBru 4 id) 3).lanes.length = 2 ∧
      (laneOf (upBru 4 id) 3 1).form = (false, false) ∧ commaForm 1 ((courseOf 1 1).take 16) = some (false, false) ∧
      commaForm 0 ((courseOf 0 3).take 16) = some (false, false)) ∧
    (hdrValid (courseBits 1 (false, false) (courseOf 1 0)).1 = true ∧ bitsOf (courseBits 1 (false, false) (courseOf 1 0)).1 28 4 = 0 ∧
      hdrValid (courseBits 1 (false, false) (courseOf 1 4)).1 = true ∧ 4 ≤ bitsOf (courseBits 1 (false, false) (courseOf 1 4)).1 28 4 ∧
      hdrValid (courseBits 1 (false, false) (courseOf 1 1)).1 = true ∧ bitsOf (courseBits 1 (false, false) (courseOf 1 1)).1 28 4 = 1) ∧
    (hdrValid (courseBits 0 (false, false) (courseOf 0 2)).1 = true ∧ bitsOf (courseBits 0 (false, false) (courseOf 0 2)).1 28 4 = 2 ∧
      hdrValid (courseBits 0 (false, false) (courseOf 0 3)).1 = true ∧ bitsOf (courseBits 0 (false, false) (courseOf 0 3)).1 28 4 = 3) ∧
    hdrValid (courseBits 1 (false, false) (comma 1 ++ List.replicate 16 1)).1 = false := by decide +kernel

/-- A bundle outstanding. -/
def upSent (n : Nat) : State := upBru 4 fun p => { p with up := true, sent := [⟨0, ⟨1, [], none⟩, 0⟩], expiries := n }

theorem test_bruraLanes_meets :
    (bruRuns up 3 = false ∧ (upBru 0 id).bru.length = 4 ∧ (bruOf (upBru 0 id) 3).lanes.length = 2 ∧ bruRuns (upBru 0 id) 3 = true ∧
      (laneOf (upBru 0 id) 3 1).state = 0 ∧ 2 ≤ (laneOf (upBru 2 id) 3 1).state ∧ (laneOf (upBru 1 id) 3 1).state = 1) ∧
    ((laneOf (upBru 1 id) 3 1).state < 2 ∧ (laneOf (upBru 2 id) 3 1).state ≠ 1 ∧ (laneOf (upBru 3 id) 3 1).state = 3 ∧
      (laneOf (upBru 3 id) 3 1).stuck = false ∧ (laneOf (upBru 4 id) 3 1).state ≠ 3) ∧
    ((bruOf up 3).up = false ∧ (bruOf (upSent 6) 3).up = true ∧ (bruOf (upSent 6) 3).sent ≠ [] ∧ (bruOf (upSent 6) 3).expiries < 7 ∧
      7 ≤ (bruOf (upSent 7) 3).expiries ∧ (upSent 7).bru.length = 4 ∧ 2 ≤ (laneOf (upSent 7) 3 0).state ∧ 2 ≤ (laneOf (upSent 7) 3 1).state) := by decide +kernel

/-- A node of the fabric: cluster 5, member 9; with a role of its own, CONVERGED next, or an ingress without a cluster. -/
def upFab (c m : Option Nat) (d : Nat) : State :=
  updFab (((((up.set pgFAB F.HDR_EFF_MODE 2).set pgFAB F.FAB_ROLEPRIO_CUEPRIO 7).set pgFAB F.FAB_IDCFG_INGRESS 1).set pgFAB F.FAB_POOL_POOLLO 5).set
    pgFAB F.FAB_POOL_POOLHI 6) fun f => { f with cluster := c, seeded := c.isSome, member := m, disc := d }
/-- A flood of a kind from node 7, and one to this node on a lane. -/
def flood (k : Byte) (t : List Byte) : List Byte := [0x60, 0, 0, 0, 0, 0, 0, 7, k, 0, 0, 0, 0, 0, 0, 1] ++ t
def upHead : State := updFab (upFab (some 5) (some 9) 3) fun f =>
  { f with holders := [none, some (⟨1, Config.serial.toNat, 0x509, 7, true, false, 0⟩, 0), none] }

theorem test_fabricRoles_meets :
    (fabOn up = false ∧ rolePrio up 0 = 0 ∧ up.fab.cands = [] ∧ up.fab.disc ≠ 4) ∧
    (fabOn (upFab (some 5) (some 9) 4) = true ∧ rolePrio (upFab (some 5) (some 9) 4) 2 ≠ 0 ∧ (nodeId (upFab (some 5) (some 9) 4)).isSome = true ∧
      (upFab (some 5) (some 9) 4).fab.seeded = true ∧ (upFab (some 5) (some 9) 4).flag pgFAB F.FAB_IDCFG_CFIX = false ∧
      (upFab (some 5) (some 9) 4).fab.holders.length = 3 ∧ (upFab (some 5) (some 9) 4).fab.disc = 4) ∧
    ((upFab (some 5) (some 9) 4).fab.fc.armed = false ∧ nbPorts (upFab (some 5) (some 9) 4) = [] ∧ 16 ≤ (flood 0x12 []).length ∧
      ((flood 0x12 []).getD 0 0).toNat / 64 = 1 ∧ ((flood 0x12 []).getD 0 0).toNat / 8 % 8 = 4 ∧ ((flood 0x12 []).getD 8 0).toNat = 0x12 ∧
      ((flood 0x10 []).getD 8 0).toNat = 0x10 ∧ (upFab (some 5) (some 9) 4).fab.seen = [] ∧ joinPorts (upFab (some 5) (some 9) 4) = [] ∧ (upFab (some 5) (some 9) 4).fab.gwLost = false) ∧
    (up.flag pgFAB F.FAB_IDCFG_INGRESS = false ∧ fabOn (upFab none none 1) = true ∧ (upFab none none 1).flag pgFAB F.FAB_IDCFG_INGRESS = true ∧
      (upFab none none 1).flag pgFAB F.FAB_IDCFG_CFIX = false ∧ (upFab none none 1).fab.cluster = none ∧
      (upFab none none 1).get pgFAB F.FAB_POOL_POOLLO ≤ (upFab none none 1).get pgFAB F.FAB_POOL_POOLHI ∧
      amGet (upFab none none 1).fab.clusters ((upFab none none 1).get pgFAB F.FAB_POOL_POOLLO) = none) ∧
    (holdsRole (upFab (some 5) none 2) 1 = false ∧ (upFab (some 5) none 2).fab.cluster.isSome = true ∧
      (upFab (some 5) none 2).flag pgFAB F.FAB_IDCFG_MFIX = false) ∧ fabOn upHead = true ∧
    grantFor upHead (Config.serial + 1).toNat 3 = some 3 := by decide +kernel
theorem test_fabricGrant_meets : holdsRole upHead 1 = true ∧ Config.serial + 1 ≠ Config.serial := by
  refine ⟨?_, ?_⟩
  · have h : upHead.fab.holders.getD 1 none = some (⟨1, Config.serial.toNat, 0x509, 7, true, false, 0⟩, 0) := rfl
    unfold holdsRole
    rw [h]
    simp
  · intro h
    have := congrArg (· - Config.serial) h
    simp at this

/-- A node that FAB runs on, with a parent behind port D, a tile veneer, or a responder; bundles to it. -/
def upNode : State := upFab (some 5) (some 9) 4
def upChild : State := (updBru upNode 3 fun p => { p with up := true, ctrlRx := List.replicate 17 0 ++ [5, 1, 3] ++ List.replicate 12 0 }).set (pgBRU 3) F.HDR_EFF_MODE 2
def upTile : State := ((upNode.set (pgVEN 15) F.HDR_EFF_MODE 2).set (pgVEN 15) F.VEN_CFG_SRC 3).set (pgVEN 15) F.VEN_TILES_TCOL0 7
def upTunnel (l : List CaneReq) : State := updCane (upNode.set pgCANE F.HDR_EFF_MODE 2) fun c => { c with store := l }
def lane (v : Byte) (k : Byte) (t : List Byte) : List Byte := [v, 0, 0, 5, 9, 0, 0, 7, k, 0, 0, 0, 0, 0, 0, 1] ++ t
def tileOf (col : Byte) : List Byte := lane 0x90 0x20 ([0, 0, 0, 0, 0, 0, 0xC0, col, 0, 0] ++ List.replicate 6 0)

theorem test_fabricBundles_meets :
    (up.fab.fc.armed = false ∧ up.net.cane.store = [] ∧ up.net.cane.held = none ∧ sysDown up = false ∧ fabOn up = false ∧ inRun upNode pgFAB = true ∧ kindOk 0x31 1 0 = false) ∧
    (fabOn upChild = true ∧ (nodeId upChild).isSome = true ∧ parentPort upChild 0 = some 3 ∧ childPorts upChild 0 = [] ∧ flows upChild 3 = true ∧ upChild.bru.length = 4) ∧
    ((lane 0x40 0x11 []).length = 16 ∧ ((lane 0x40 0x11 []).getD 0 0).toNat / 64 = 1 ∧ ((lane 0x40 0x11 []).getD 0 0).toNat / 8 % 8 = 0 ∧
      ([0] : List Nat).headD 0 = 0 ∧ ([1] : List Nat).headD 0 ≠ 0 ∧ parentPort upNode 0 ≠ some 3 ∧ parentPort upChild 0 = some (3 : Fin 4).val) ∧
    (nbPorts upTile = [] ∧ ((tileOf 7).getD 0 0).toNat / 64 = 2 ∧ ((tileOf 7).getD 0 0).toNat / 8 % 8 = 2 ∧ (∀ v, v < 16 → ingests upNode v = false) ∧
      ingests upTile 15 = true ∧ (∀ w, w < 16 → w ≠ 15 → ingests upTile w = false) ∧ upTile.get (pgVEN 15) F.VEN_CFG_SRC = 3 ∧
      upTile.get (pgVEN 15) F.VEN_TILES_TCOL0 ≤ beVal (slice (tileOf 7) 22 2) % 2 ^ 11 ∧
      beVal (slice (tileOf 7) 22 2) % 2 ^ 11 < upTile.get (pgVEN 15) F.VEN_TILES_TCOL0 + upTile.get (pgVEN 15) F.VEN_TILESZ_TCOLS ∧
      upTile.get (pgVEN 15) F.VEN_TILES_TROW0 ≤ beVal (slice (tileOf 7) 24 2) % 2 ^ 11 ∧
      beVal (slice (tileOf 7) 24 2) % 2 ^ 11 < upTile.get (pgVEN 15) F.VEN_TILES_TROW0 + upTile.get (pgVEN 15) F.VEN_TILESZ_TROWS) ∧
    (upNode.flag pgFAB F.FAB_CUECFG_OVRACCEPT = false ∧
      ((upNode.set pgFAB F.FAB_CUECFG_OVRACCEPT 1).set pgFAB F.FAB_CUECFG_OVRANY 1).flag pgFAB F.FAB_CUECFG_OVRACCEPT = true ∧
      ((upNode.set pgFAB F.FAB_CUECFG_OVRACCEPT 1).set pgFAB F.FAB_CUECFG_OVRANY 1).flag pgFAB F.FAB_CUECFG_OVRANY = true) ∧
    (((lane 0xC8 0x30 []).getD 0 0).toNat / 64 = 3 ∧ ((lane 0xC8 0x30 []).getD 0 0).toNat / 8 % 8 = 1 ∧
      nodeId upNode = some (beVal (slice (lane 0xC8 0x30 []) 2 3) % 2 ^ 18) ∧ inRun upNode pgCANE = false ∧ inRun (upTunnel []) pgCANE = true ∧
      (upTunnel [{ path := 0, msg := [] }]).net.cane.store.length < 8 ∧
      (upTunnel [{ path := 0, msg := [] }]).net.cane.held = none ∧ sysDown (upTunnel []) = false) ∧
    (inRun up pgFAB = false ∧ fabTx.free (upNode.setReg pgFAB 0x0F8 ((0 : BitVec 12).setWidth 32)) = 0) := by decide +kernel

/-- A node whose cue master is node 7, with a commit of its own and of the fabric. -/
def upCue (f : Fc) (m : CmtMode) (o : Nat) : State :=
  let t := updFab upNode fun g => { g with fc := f, holders := [none, none, some (⟨2, 3, 7, 9, true, false, 0⟩, 0)] }
  { t with cmt := { t.cmt with mode := m, owner := o } }
def upMaster : State := updFab upNode fun g => { g with holders := [none, none, some (⟨2, Config.serial.toNat, 0x509, 9, true, false, 0⟩, 0)], reports := [⟨0, 0, 0, 0⟩] }
def upPrepared (w : Bool) (f : Fc) : State := updFab (upNode.set pgFAB F.FAB_FCSTAT_STATE 1) fun g => { g with mWindow := w, fc := f }
def upRoute : State := updFab ((updBru upNode 3 fun p => { p with up := true, ctrlRx := List.replicate 17 0 ++ [3, 1, 3] ++ List.replicate 12 0 }).set (pgBRU 3) F.HDR_EFF_MODE 2)
  fun g => { g with holders := [none, none, some (⟨2, 3, 0x301, 9, true, false, 0⟩, 0)], reports := [⟨0, 0, 0, 0⟩] }
def prepareBody : List Byte := [0, 0, 0, 6] ++ List.replicate 6 0 ++ [18, 0, 0, 0, 0, 0, 0, 0, 0, 0]

theorem test_fabricCommits_meets :
    (upNode.get pgFAB F.FAB_FCSTAT_STATE ≠ 1 ∧ upNode.get pgFAB F.FAB_FCSTAT_STATE ≠ 2 ∧ isMaster upNode = false ∧
      (upPrepared true {}).get pgFAB F.FAB_FCSTAT_STATE = 1 ∧ (upPrepared true {}).fab.mWindow = true) ∧
    ((upPrepared false { cid := some 0 }).fab.fc.cid = some ((upPrepared false { cid := some 0 }).get pgFAB F.FAB_FCID_CID) ∧
      (upPrepared false { cid := some 0 }).fab.fc.outcome = none ∧
      ({ upPrepared false { cid := some 0, armed := true } with cmt := { up.cmt with mode := .armed } } : State).fab.fc.armed = true) ∧
    (fabOn upNode = true ∧ cueMaster upNode ≠ some 7 ∧ cueMaster (upCue {} .idle 0) = some (beVal (slice (flood 1 prepareBody) 5 3) % 2 ^ 18) ∧
      nbPorts (upCue {} .idle 0) = [] ∧ joinPorts (upCue {} .idle 0) = [] ∧ (upCue {} .idle 0).fab.seen = [] ∧ fabOn (upCue {} .idle 0) = true ∧ (upCue {} .idle 0).fab.fc.armed = false) ∧
    ((upCue {} .armed 1).cmt.mode ≠ .idle ∧ (upCue {} .idle 0).cmt.owner = 0 ∧ (upCue {} .idle 1).flag pgFAB F.FAB_CUECFG_JOIN = false ∧
      ((upCue {} .idle 1).set pgFAB F.FAB_CUECFG_JOIN 1).flag pgFAB F.FAB_CUECFG_JOIN = true ∧
      ((flood 1 prepareBody).getD 26 0).toNat / 2 % 32 = (upCue {} .idle 1).get pgTIME F.TIME_MODE_CURIDX ∧
      nearFn (fnOf (upCue {} .idle 1) (upCue {} .idle 1).time.ft) (beVal (slice (flood 1 prepareBody) 20 6) % 65536) = beVal (slice (flood 1 prepareBody) 20 6)) ∧
    (beVal (slice ((flood 3 prepareBody).drop 16) 0 4) = 6 ∧ (upCue { cid := some 6 } .idle 0).fab.fc.cid = some 6 ∧
      (fcOf (upCue { cid := some 6 } .idle 0) 6).isSome = true ∧ fcOf (upCue {} .idle 0) 6 = none ∧
      (upCue { cid := some 6, armed := true } .armed 1).fab.fc.armed = true ∧ (upCue { cid := some 6, armed := true } .locked 1).cmt.mode = .locked) ∧
    (((lane 0x40 2 prepareBody).getD 0 0).toNat / 8 % 8 = 0 ∧ ((lane 0x40 2 prepareBody).getD 8 0).toNat = 2) ∧
    (upNode.fab.fc.cid = none ∧ upNode.fab.olds = [] ∧ (upCue { cid := some 6 } .idle 0).fab.fc.readySent = false ∧ (upCue { cid := some 6 } .idle 0).cmt.mode ≠ .checking ∧
      ((childPorts (upCue { cid := some 6 } .idle 0) 0).all fun b => (upCue { cid := some 6 } .idle 0).fab.fc.kids.any (·.1 = b)) = true) ∧
    (upNode.fab.reports = [] ∧ upRoute.fab.reports = ⟨0, 0, 0, 0⟩ :: [] ∧ cueMaster upRoute = some 0x301 ∧ routePort upRoute 0x301 false = some 3 ∧
      flows upRoute 3 = true) ∧
    (((lane 0x48 5 []).getD 0 0).toNat / 64 = 1 ∧ ((lane 0x48 5 []).getD 0 0).toNat / 8 % 8 = 1 ∧ nodeId upMaster = some (beVal (slice (lane 0x48 5 []) 2 3) % 2 ^ 18) ∧
      beVal (slice ((lane 0x48 5 (List.replicate 12 0)).drop 16) 0 4) = upMaster.get pgFAB F.FAB_FCID_CID ∧ cueMaster upMaster = some 0x509) := by decide +kernel
theorem test_fabricMaster_meets : isMaster upMaster = true := by
  have h : upMaster.fab.holders.getD 2 none = some (⟨2, Config.serial.toNat, 0x509, 9, true, false, 0⟩, 0) := rfl
  unfold isMaster holdsRole
  rw [h]
  simp

/-- A radio with its link on, and with its FAULT held. -/
def upAir : State := (up.set pgAIR F.HDR_EFF_MODE 2).set pgAIR F.HDR_REQ_MODE 2
def upAirFault : State := updAir up fun a => { a with fault := true, fails := 3 }
def upAirList (v : Word) : State := upAir.setReg pgAIR 0xDFC v
/-- One with a frame on the air since long. -/
def upOnAir (t : Int) : State := updAir upAir fun a => { a with onAir := some { n := 0, j := 0, tgo := t }, listFor := 2 }

theorem test_radioLink_meets :
    (linkOn up = false ∧ up.air.fault = false) ∧ (linkOn upAir = true ∧ upAirFault.air.fault = true) ∧
    (linkOn (upAirList 0x80010203) = true ∧ bitsOf ((upAirList 0x80010203).reg pgAIR (0xC00 + 4 * 127)) 31 1 = 1) ∧
    (∀ i, i < 128 → bitsOf (upAir.reg pgAIR (0xC00 + 4 * i)) 31 1 = 0) ∧
    (up.air.listFor = 0 ∧ upAir.air.listFor ≠ effMode upAir pgAIR ∧ upAir.air.waiting = [] ∧ upAir.air.frame = none ∧ upAirFault.air.waiting = [] ∧
      (updAir upAir fun a => { a with waiting := [{ op := 1, payload := [] }] }).air.waiting ≠ []) ∧
    (upAir.air.fault = false ∧ upAir.get pgAIR F.HDR_REQ_MODE ≠ 0 ∧ pageDomainOn upAir pgAIR = true ∧ upAir.boot.outEn = true ∧ upAir.boot.svcWait = false) ∧
    (airReached (upOnAir 0) 0 = true ∧ linkOn (upOnAir 0) = true ∧ airReached (upOnAir 65536) 65536 = false ∧ (upOnAir 0).air.listFor = effMode (upOnAir 0) pgAIR ∧
      (updAir (upOnAir 0) fun a => { a with listFor := 1 }).air.listFor ≠ effMode (upOnAir 0) pgAIR) := by decide +kernel
theorem test_radioLinkStores : State.reset.air.dirOut = true := by decide +kernel

/-- A radio in RUN with a bit rate, a valid time and the accounting restored, sub-band 0 with a budget, at an instant of FT; with a frame in hand. -/
def upSched (duty ft : Nat) : State :=
  let s := ((upAir.set pgAIR F.AIR_PHY_BITRATE 250000).set pgAIR F.AIR_DUTY duty 0).set pgAIR F.AIR_CCA_TRIES 15 0
  updAir { s with time := { s.time with acqDone := true, ft := ft } } fun a => { a with restored := true }
/-- The load instant of FN 600, 1 ns before its T_go, and its T_go. -/
def at600 (k : Nat) : Nat := if k = 0 then 655471017984000 else if k = 1 then 655474294784000 - 65536 else 655474294784000
def q600 (duty k : Nat) : State := bucketSync (upSched duty (at600 k)).quiet
/-- The frame of FN 600 in sub-band 0, as its load instant makes it. -/
def frame600 (duty k : Nat) : AirFrame := schedFrame (q600 duty k) 600 100
def upFrame (f : AirFrame) (k : Nat) : State := updAir (upSched 1000 (at600 k)) fun a => { a with frame := some f }
/-- A frame under listen-before-talk after its `k`-th try. -/
def lbt600 (k : Nat) : AirFrame := { n := 600, j := 100, k := k, base := 655491072000000, cad := 6, tgo := 655474294784000 }
/-- Its next try. -/
def try600 (f : AirFrame) (k : Nat) : AirFrame :=
  { f with k := f.k + 1, tgo := airTgo (upFrame f k).quiet (tryStamp (upFrame f k).quiet { f with k := f.k + 1 }) f.reacq }
theorem pair_some (x : State × Option (List Byte)) (h : x.2.isSome = true) : x = (x.1, some (x.2.getD [])) := by
  obtain ⟨a, b⟩ := x
  cases b with
  | none => cases h
  | some b => rfl

set_option maxRecDepth 4000 in
theorem test_radioSchedule_meets :
    (airIndex (bucketSync up.quiet) 1 = none ∧ airSends (bucketSync up.quiet) = false) ∧
    (∀ d ∈ [1000, 0, 1000000], ∀ k ∈ [0, 1, 2], airIndex (q600 d k) 600 = some 100 ∧ airSends (q600 d k) = true ∧
      airReached (q600 d k) (loadAt (q600 d k) (frame600 d k)) = true ∧
      withinBudget (q600 d k) (frame600 d k).sb (airTime (q600 d k) (frame600 d k).reacq) = decide (d ≠ 0)) ∧
    airReached (bucketSync (upSched 1000 0).quiet) (loadAt (bucketSync (upSched 1000 0).quiet) (schedFrame (bucketSync (upSched 1000 0).quiet) 600 100)) = false ∧
    (∀ k ∈ [0, 1], ((upSched 1000 (at600 k)).time.ft : Int) < (frame600 1000 k).tgo) ∧ (frame600 1000 2).tgo ≤ (upSched 1000 (at600 2)).time.ft ∧
    ((q600 0 0).flag pgAIR F.AIR_LBT_LBTOK 0 = false ∧
      ¬ (airUsed (q600 0 0) 0 : Rat) + airTime (q600 0 0) false ≤ airBudget (q600 0 0) 0 true) ∧
    up.air.frame = none ∧ up.air.restored = false ∧ (upSched 0 0).air.restored = true := by
  refine ⟨?_, ?_, ?_, ?_, ?_, ?_, rfl, rfl, rfl⟩ <;> decide +kernel
theorem test_radioLoad_meets (k : Nat) (hk : k = 0 ∨ k = 1) :
    ∃ t b, buildFrame (frame600 1000 k) (frame600 1000 k).base (accState 0 (q600 1000 k)) = (t, some b) ∧
      (packetsEnd (q600 1000 k) ((upSched 1000 (at600 k)).air.waiting ++ [txloadPkt (q600 1000 k) (frame600 1000 k) b]) ≤
        loadLimit (q600 1000 k) { frame600 1000 k with go := true } ↔ k = 0) := by
  obtain rfl | rfl := hk <;>
  refine ⟨_, _, pair_some _ ?_, ?_⟩ <;> decide +kernel
def upLbtOk : State := ((upSched 0 (at600 0)).set pgAIR F.AIR_LBT_LBTOK 1 0).set pgAIR F.AIR_LBT_LBTDUTY 1000 0
theorem test_radioLbtBudget_meets : airIndex (bucketSync upLbtOk.quiet) 600 = some 100 ∧ airSends (bucketSync upLbtOk.quiet) = true ∧
    airReached (bucketSync upLbtOk.quiet) (loadAt (bucketSync upLbtOk.quiet) (schedFrame (bucketSync upLbtOk.quiet) 600 100)) = true ∧
    withinBudget (bucketSync upLbtOk.quiet) 0 (airTime (bucketSync upLbtOk.quiet) false) = false ∧
    (bucketSync upLbtOk.quiet).flag pgAIR F.AIR_LBT_LBTOK 0 = true ∧
    (airUsed (bucketSync upLbtOk.quiet) 0 : Rat) + airTime (bucketSync upLbtOk.quiet) false ≤ airBudget (bucketSync upLbtOk.quiet) 0 true := by decide +kernel
theorem test_radioFrame_meets :
    (linkOn (upFrame { n := 600, j := 100, go := true } 0) = true ∧ airMay (upFrame { n := 600, j := 100, go := true } 0) = true ∧
      airMay (updAir up fun a => { a with frame := some { n := 600, j := 100, go := true } }) = false ∧ (upFrame (lbt600 0) 0).air.waiting = [] ∧
      (lbt600 0).go = false ∧ (lbt600 0).busy = false ∧ (lbt600 0).bucket = none ∧ linkOn (updAir upAir fun a => { a with frame := some (lbt600 0) }) = true ∧
      airMay (updAir upAir fun a => { a with frame := some (lbt600 0) }) = false) ∧
    (lbtLeft (upFrame (lbt600 0) 0).quiet { lbt600 0 with k := 1 } = true ∧ lbtLeft (upFrame (lbt600 14) 0).quiet { lbt600 14 with k := 15 } = false ∧
      lbtLeft (airDir true (upFrame (lbt600 0) 0).quiet) { lbt600 0 with k := 1 } = true ∧
      lbtLeft (airDir true (upFrame (lbt600 14) 0).quiet) { lbt600 14 with k := 15 } = false) ∧
    (lbtLeft (upFrame (lbt600 0) 2).quiet (try600 (lbt600 0) 2) = true ∧
      airReached (upFrame (lbt600 0) 0).quiet (loadAt (upFrame (lbt600 0) 0).quiet (try600 (lbt600 0) 0)) = false ∧
      airReached (upFrame (lbt600 14) 2).quiet (lbt600 14).tgo = true ∧ lbtLeft (upFrame (lbt600 14) 2).quiet (try600 (lbt600 14) 2) = false) ∧
    ((upFrame (lbt600 0) 0).time.ft : Int) < (lbt600 0).tgo := by
  refine ⟨?_, ?_, ?_, ?_⟩ <;> decide +kernel
/-- A frame whose second try's load instant has come. -/
def upTry : State := updAir ((upSched 1000 (655474294784000 + 6100 * 65536000 - 5070 * 65536000)).set pgAIR F.AIR_LBT_LBTOK 1 0) fun a => { a with frame := some (lbt600 0) }
def tryTwo : AirFrame := { lbt600 0 with k := 1, tgo := airTgo upTry.quiet (tryStamp upTry.quiet { lbt600 0 with k := 1 }) false }
theorem test_radioTry_meets : (airMay upTry.quiet = true ∧ lbtLeft upTry.quiet tryTwo = true ∧ airReached upTry.quiet (loadAt upTry.quiet tryTwo) = true ∧
      (upTry.time.ft : Int) < tryTwo.tgo) ∧
    ∃ t b, buildFrame { tryTwo with busy := false } (tryStamp upTry.quiet tryTwo) upTry.quiet = (t, some b) ∧
      packetsEnd upTry.quiet (upTry.air.waiting ++ [txloadPkt upTry.quiet tryTwo b, ccaPkt upTry.quiet tryTwo]) ≤ loadLimit upTry.quiet tryTwo := by
  refine ⟨by decide +kernel, _, _, pair_some _ ?_, ?_⟩ <;> decide +kernel
theorem test_radioBuckets_meets : up.air.bucket < 36 ∧ up.pwr.rtc / 10 = up.air.recTen ∧
    (∃ s : State, s.air.restored = true ∧ s.pwr.rtc / 10 ≠ s.air.recTen) :=
  ⟨by decide +kernel, by decide +kernel, updAir up fun a => { a with restored := true, recTen := 1 }, rfl, by decide +kernel⟩
theorem mramHold_idle (off n k : Nat) (s : State) (hp : s.mm.prog = none) : mramHold off n k s = s := by
  cases k with
  | zero => rfl
  | succ k => simp [mramHold, hp]
theorem mramRead_clean (off n : Nat) (s : State) (hd : domainOn s 9 = true) (he : s.mm.mramErr = []) (hp : s.mm.prog = none) :
    mramRead off n s = (s, some (memBytes s.mem (mramBase + off) n)) := by
  have hc : ∀ c, checkCodeword c s = (s, true) := fun c => by simp [checkCodeword, he, amGet]
  have hf : ∀ l : List Nat, List.foldl (fun (x : State × Bool) c => ((checkCodeword c x.1).1, x.2 && (checkCodeword c x.1).2)) (s, true) l = (s, true) := by
    intro l
    induction l with
    | nil => rfl
    | cons c t ih => simpa [hc] using ih
  unfold mramRead
  rw [hd, mramHold_idle _ _ _ _ hp]
  simp only [Bool.not_true, Bool.false_eq_true, if_false]
  rw [hf]
  rfl
theorem map_range_replicate (n : Nat) (f : Nat → Byte) (h : ∀ k, k < n → f k = 0) : (List.range n).map f = List.replicate n 0 := by
  apply List.ext_getElem <;> simp
  exact h
/-- A state whose restore has begun. -/
def restoring (s : State) : State := updAir s.quiet fun x => { x with restored := true, recTen := s.pwr.rtc / 10 }
theorem test_radioRestore_meets :
    (∃ x y, readCopies 0 1172 (restoring up) = (restoring up, some x, some y) ∧ beVal (slice x 0 4) ≠ 0x435A4152 ∧ beVal (slice y 0 4) ≠ 0x435A4152) := by
  have h : ∀ c, mramRead (recordPlace 0 c) 1172 (restoring up) = (restoring up, some (List.replicate 1172 0)) := fun c => by
    rw [mramRead_clean _ _ _ (by decide +kernel) rfl rfl, memBytes, map_range_replicate]
    intro k _
    rfl
  refine ⟨List.replicate 1172 0, List.replicate 1172 0, ?_, ?_, ?_⟩
  · unfold readCopies
    rw [h]
    simp only
    rw [h]
  all_goals decide +kernel
/-- A record of `n` bytes after its MAGIC, and a state that holds an accounting record as copy A. -/
def someRecord (n : Nat) : List Byte := sealRecord ([0x43, 0x5A, 0x41, 0x52] ++ List.replicate n 0)
def upRecord (l : List Byte) : State := restoring { up.quiet with mem := memPutAll up.mem (mramBase + recordPlace 0 false) l }
theorem someRecord_length (n : Nat) : (someRecord n).length = n + 8 := by
  simp [someRecord, sealRecord, leBytes]
theorem sealRecord_tail (l : List Byte) (n : Nat) (h : l.length = n) :
    (sealRecord l).take n = l ∧ slice (sealRecord l) n 4 = leBytes 4 (crc32 l).toNat := by
  subst h
  refine ⟨by simp [sealRecord], ?_⟩
  unfold slice sealRecord
  simp [List.range_succ, leBytes]
theorem someRecord_valid (n : Nat) : recordValid 0x435A4152 (n + 8) (someRecord n) = true := by
  have h := sealRecord_tail ([0x43, 0x5A, 0x41, 0x52] ++ List.replicate n 0) (n + 4) (by simp)
  have h3 : slice (someRecord n) 0 4 = [0x43, 0x5A, 0x41, 0x52] := by
    simp [slice, someRecord, sealRecord, List.range_succ]
  unfold recordValid
  rw [h3, show n + 8 - 4 = n + 4 by omega]
  unfold someRecord
  rw [h.1, h.2]
  have := (crc32 ([0x43, 0x5A, 0x41, 0x52] ++ List.replicate n 0)).isLt
  generalize (crc32 ([0x43, 0x5A, 0x41, 0x52] ++ List.replicate n 0)).toNat = c at *
  simp [beVal, leVal, leBytes]
  omega
theorem readCopies_record (n : Nat) (l : List Byte) (hl : l.length = n) (hn : n ≤ 4096) :
    readCopies 0 n (upRecord l) = (upRecord l, some l, some (List.replicate n 0)) := by
  have hd : domainOn (upRecord l) 9 = true := show domainOn up 9 = true by decide +kernel
  have hw : Memory.wf up.mem = true := rfl
  have h : mramRead (recordPlace 0 false) n (upRecord l) = (upRecord l, some l) := by
    rw [mramRead_clean _ _ _ hd rfl rfl]
    subst hl
    exact congrArg (fun x => (upRecord l, some x)) (memBytes_memPutAll _ l hw)
  have h' : mramRead (recordPlace 0 true) n (upRecord l) = (upRecord l, some (List.replicate n 0)) := by
    rw [mramRead_clean _ _ _ hd rfl rfl]
    refine congrArg (fun x => (upRecord l, some x)) ((memBytes_memPutAll_out _ _ _ _ _ (.inr ?_)).trans ?_)
    · simp only [recordPlace, Bool.toNat_true, Bool.toNat_false]
      omega
    · exact map_range_replicate _ _ fun k _ => rfl
  unfold readCopies
  rw [h]
  simp only
  rw [h']
theorem newerCopy_first (m n : Nat) (a b : List Byte) (ha : recordValid m n a = true) (hb : recordValid m n b = false) :
    newerCopy m n (some a) (some b) = some (a, false) := by
  simp [newerCopy, ha, hb]
theorem blank_invalid (n : Nat) : recordValid 0x435A4152 n (List.replicate n 0) = false := by
  have h : slice (List.replicate n 0) 0 4 = [0, 0, 0, 0] := by
    have hg : ∀ k, (List.replicate n (0 : Byte)).getD k 0 = 0 := fun k => by
      rw [List.getD_eq_getElem?_getD, List.getElem?_replicate]
      split <;> rfl
    simp only [slice, hg]
    rfl
  unfold recordValid
  rw [h]
  simp [beVal, leVal]
theorem test_radioRecord_meets : readCopies 0 1172 (upRecord (someRecord 1164)) =
      (upRecord (someRecord 1164), some (someRecord 1164), some (List.replicate 1172 0)) ∧
    newerCopy 0x435A4152 1172 (some (someRecord 1164)) (some (List.replicate 1172 0)) = some (someRecord 1164, false) :=
  ⟨readCopies_record _ _ (someRecord_length 1164) (by omega), newerCopy_first _ _ _ _ (someRecord_valid 1164) (blank_invalid 1172)⟩

/-- A state that runs with NVM on and a program of 16 bytes asked for by CPU0. -/
def upNvm : State := (((up.set pgNVM F.NVM_ADDR_OFFSET 0xC00000).set pgNVM F.NVM_LEN 16).set pgNVM F.NVM_STAT_BUFAGENT 1)

theorem test_mramProgramming_meets :
    (domainOn upNvm 9 = true ∧ upNvm.mm.prog = none ∧ upNvm.get pgNVM F.NVM_ADDR_OFFSET = 0xC00000 ∧ upNvm.get pgNVM F.NVM_LEN = 16 ∧
      mramArea 0xC00000 = mramArea (0xC00000 + 16 - 1) ∧ mayProgram 1 (mramArea 0xC00000) = true ∧ upNvm.get pgNVM F.NVM_STAT_BUFAGENT = 1 ∧
      mayProgram 2 (mramArea 0xC00000) = true) ∧ (NvmProg.words ⟨8, [1], 1, false⟩).all (fun c => ((amGet upNvm.mm.mramErr c).all (· ≤ 3))) = true ∧
    (startProg ⟨0, [1], 1, false⟩ upNvm).mm.prog.isSome = true ∧ amSorted upNvm.mm.nvmBuf = true := by decide +kernel

/-- A state in which the scrubber runs. -/
def upScrub : State := up.set pgFS F.FS_SCRUB_EN 1

theorem test_memoryEvents_meets :
    upScrub.flag pgFS F.FS_SCRUB_EN = true ∧ fsUp upScrub = true ∧ amGet upScrub.mm.ecc (fsBase / 8 + upScrub.mm.scrub) = none ∧
    upScrub.mm.scrub + 1 < 2 ^ 24 ∧ amGet { upScrub.mm with ecc := [(fsBase / 8, 1)] }.ecc (fsBase / 8 + upScrub.mm.scrub) = some 1 ∧
    domainOn up 9 = true ∧ up.mm.prog = none := by decide +kernel

/-- A request of port 3. -/
def askWord : ArbReq := { port := 3, off := 64, len := 4, data := some [1, 2, 3, 4], deadline := 0, own := false, arrival := 0, tag := 7 }
/-- A state whose port 3 of arbiter 0 may hold no entry. -/
def upFull : State := up.set (pgARB 0) F.ARB_PORT_MAXPEND 0 3

theorem test_deadlineArbiter_meets :
    (portBusy up.quiet 0 3 = false ∧ portBusy up.quiet 0 9 = false ∧ portBusy up.quiet 0 15 = false ∧ chanOf 64 = 0 ∧
      portDeadline up.quiet 3 false 7 = none ∧ up.air.frame = none ∧ portBusy (up.set (pgARB 0) F.ARB_PORT_MASKED 1 3).quiet 0 3 = true ∧
      (arbOf up 0).queue = [] ∧ (arbOf up 0).fresh = [] ∧ stPast (0xFFFFFFFF : Word) up.st = true ∧ stPast (1 : Word) up.st = false) ∧
    (mayPend up.quiet 0 3 = true ∧ mayPend upFull.quiet 0 3 = false ∧ upFull.flag (pgARB 0) F.ARB_PORT_FORERUNNER 3 = false ∧
      portBusy upFull.quiet 0 3 = false) ∧
    (arbOf (updArb up 0 fun a => { a with fresh := [askWord] }) 0).fresh = [askWord] ∧ 0 < up.mm.arb.length ∧
    askWord.port < 24 ∧ (arbOf up 0).ports.length = 24 ∧ (arbOf up 0).ports.all (fun k => k.held.isNone) = true ∧
    ((arbPort (updArbPort up 0 20 fun k => { k with parked := some askWord }) 0 20).parked = some askWord ∧
      (arbPort (updArbPort up 0 20 fun k => { k with parked := some askWord }) 0 20).sitOut = 0) := by decide +kernel

/-- A state in which channel 3's page runs and the channel is in a given state. -/
def upDma (st : Nat) : State := chSet (up.set (pgDMA 0) F.HDR_REQ_MODE 2) 3 F.DMA_STATUS_STATE st

theorem test_dmaRequests_meets :
    (pageRuns (upDma chIdle) 3 = true ∧ engineHalted (upDma chIdle) = false ∧ chState (upDma chIdle) 3 = chIdle) ∧
    (chState (upDma chStopped) 3 = chStopped ∧ chState (upDma chBad) 3 = chBad ∧ chState (upDma chRun) 3 = chRun ∧
      chState (upDma chHalted) 3 = chHalted ∧ chState (upDma chError) 3 = chError) ∧
    (pageRuns (upDma chHalted) 3 = true ∧ engineHalted (upDma chError) = false ∧ pageRuns up 3 = false) ∧
    chState (upDma chRun) 3 ≠ chIdle := by decide +kernel

/-- A state in which channel 3 runs at a CUR in SRAM where a fill of one byte stands, and one with that descriptor in progress. -/
def upDesc : State :=
  { setCur 3 0x10000000 (upDma chRun) with mem := [(0x10000000, 3), (0x1000000D, 16), (0x10000010, 1)] }

def upWork : State := updDma upDesc 3 fun _ => { active := true, op := opFill, dst := 0x10000100, count := 1, last := true }

theorem test_dmaDescriptors_meets :
    (chState upDesc 3 = chRun ∧ (dmaOf upDesc 3).active = false) ∧
    (dmaReadN (chWho upDesc 3) 0x10000000 32 (chSet upDesc 3 F.DMA_STATUS_KNOCKED 0)).2.2 = none ∧
    (dmaReadN (chWho upDesc 3) 0x70000000 32 (chSet upDesc 3 F.DMA_STATUS_KNOCKED 0)).2.2 = some 0x70000000 ∧
    descBad (List.replicate 32 255) (descOf (List.replicate 32 255) {}) = true ∧
    ((dmaOf upWork 3).active = true ∧ chState upWork 3 = chRun ∧ (dmaAdvance 3 1 upWork).2 = none ∧
      chState (dmaAdvance 3 1 upWork).1 3 = chRun) := by decide +kernel

/-- A state whose queue 3 is enabled with 16 entries, and holds some items, one packet of which may be in service. -/
def upQueue (items : List (Nat × List Byte)) (serving : Option Nat) : State :=
  updQueue ((up.set pgQUE F.QUE_QCFG_EN 1 3).set pgQUE F.QUE_QCFG_LOGDEPTH 4 3) 3 fun k => { k with items := items, serving := serving }

theorem test_queueOperations_meets :
    (bitsOf (0x20000000 : Word) 29 3 ≠ 0 ∧ bitsOf (0x18000000 : Word) 29 3 = 0 ∧ queueOn up 3 = false) ∧
    (queueOn (upQueue [] none) 3 = true ∧ (queueOf (upQueue [] none) 3).opened = none ∧ (queueOf (upQueue [] none) 3).discard = false ∧
      itemFirst (([0, 0, 0, 0x18000000] : List Word).flatMap fun w => leBytes 4 w.toNat) = true ∧
      itemLast (([0, 0, 0, 0x18000000] : List Word).flatMap fun w => leBytes 4 w.toNat) = true ∧
      (queueOf (upQueue [] none) 3).items.length < queueDepth (upQueue [] none) 3) ∧
    (queueNext (queueOf up 3) = none ∧ (queueOf up 3).serving = none ∧ (queueOf up 3).waits = [] ∧ 1 < up.que.popBuf.length ∧
      3 < up.que.qs.length) ∧
    queueNext (queueOf (upQueue [(2, List.replicate 16 24)] none) 3) = some (2, List.replicate 16 24) ∧
    ((queueOf (upQueue [(2, List.replicate 16 24)] (some 2)) 3).serving = some 2 ∧
      (dropPacket 2 [(2, List.replicate 16 24)]).2.2 = true) ∧ bitsOf (1 : Word) 1 4 < 4 := by decide +kernel

/-- A state in which shared source 240 is pending. -/
def upPending : State := setSrc up (.shared 240) 20 1 1

theorem test_arrivals_meets :
    (srcBits up (.shared 240) 20 1 = 0 ∧ srcBits up (.shared 240) 8 2 = 0 ∧ srcBits up (.priv 1 5) 20 1 = 0 ∧ srcBits up (.priv 3 0) 20 1 = 0) ∧
    srcBits upPending (.shared 240) 20 1 = 1 ∧ srcBits upPending (.shared 240) 8 2 = 0 ∧ srcBits upPending (.shared 240) 24 8 < 254 := by
  decide +kernel

theorem test_externalInputs_meets : up.evc.extLevel.getD 3 false = false ∧ up.evc.extLevel.getD 3 false ≠ true := by decide +kernel

/-- A state whose task 5 waits for its instant, with 64 posts queued, and one whose task 5 is ready with a post. -/
def upTask (m : TaskMode) : State :=
  { up with tsk := { up.tsk with tasks := [(5, { en := true, mode := m })], delayed := [(5, 100)], posts := [5] } }

theorem test_postsAndDelays_meets :
    up.tsk.posts.length < 64 ∧ 64 ≤ { up.tsk with posts := List.replicate 64 5 }.posts.length ∧ up.tsk.posts = [] ∧
    (upTask .ready).tsk.posts = 5 :: [] ∧ ((upTask .ready).task 5).en = true ∧ ((upTask .ready).task 5).mode = .ready ∧
    refill ({ (upTask .ready).quiet with tsk := { (upTask .ready).tsk with posts := [] } }.bump pgTSK F.TSK_st_POSTS) =
      { (upTask .ready).quiet with tsk := { (upTask .ready).tsk with posts := [] } }.bump pgTSK F.TSK_st_POSTS ∧
    (up.task 5).mode = .idle ∧ ((upTask .running).task 5).mode ≠ .idle ∧ ((upTask .running).task 5).mode ≠ .delayed ∧
    (upTask .delayed).tsk.delayed = (5, 100) :: [] ∧
    stPast 100 ({ upTask .delayed with time := { up.time with ft := 200 * 65536 } } : State).st = true ∧ ((upTask .delayed).task 5).mode = .delayed ∧
    (upTask .delayed).tsk.delayed.all (fun e => !stPast e.2 (upTask .delayed).st) = true := by decide +kernel

/-- A state in which core 1 sleeps and was asked to wake. -/
def upSleep : State := up.updCore 1 fun k => { k with mode := .sleep, wakeAsked := true }

theorem test_coreModes_meets :
    (upSleep.core 1).wakeAsked = true ∧ (upSleep.core 1).mode = .sleep ∧ (upSleep.core 1).haltOnWake = false ∧
    (up.core 1).wakeAsked = false ∧ (2 : BitVec 2) ≠ 3 := by decide +kernel

/-- A state in which core 0 runs in machine mode at 0x1000_0000, with an event frame. -/
def upCore : State :=
  up.updCore 0 fun k => { k with mode := .run, pc := 0x10000000, frames := [⟨0x10000010, .machine, 0, 240, 0⟩] }

/-- The same with an event whose vector is fetched from SRAM. -/
def upEntry : State := upCore.updCore 0 fun k => { k with entry := some 3, dtvbase := 0x10000000 }

theorem test_coreInstructions_meets :
    canRun upCore 0 = true ∧ canRun up 0 = false ∧ (upCore.core 0).priv = .machine ∧ (upCore.core 0).dtcfg = false ∧
    (upCore.core 0).frames ≠ [] ∧ sysDown (dtret 0 (holdCore 0 upCore.quiet)) = false ∧
    ((dtret 0 (holdCore 0 upCore.quiet)).core 0).mode ≠ .reset ∧ (upCore.core 0).drawer = none ∧ (upCore.core 0).running = [] ∧
    upCore.tsk.posts.length < 64 ∧ (upEntry.core 0).mode = .run ∧ (upEntry.core 0).entry = some 3 ∧ (upEntry.core 0).chaining = false ∧
    (rd (agentWho 1) ((upEntry.core 0).dtvbase + 8 * 3) 8 (upEntry.quiet.updCore 0 fun k => { k with stalled := true })).2 =
      some (List.replicate 8 0) := by decide +kernel

theorem test_coreInstructions_fetch :
    (fetchInstr 0 (holdCore 0 upCore.quiet)).2.toOption = some (0, 2) := by decide +kernel

theorem test_coreInstructions_fetchFails :
    (fetchInstr 0 (holdCore 0 (upCore.updCore 0 fun k => { k with pc := 0x70000000 }).quiet)).2.toOption = none := by decide +kernel

/-- The same with task 5 drawn and task 6 running. -/
def upDrawn : State :=
  { upCore.updCore 0 fun k => { k with drawer := some 5, running := [6] } with
    tsk := { upCore.tsk with tasks := [(5, { en := true, mode := .drawn }), (6, { en := true, mode := .running })] } }

theorem test_coreInstructions_tasks :
    canRun upDrawn 0 = true ∧ (upDrawn.core 0).drawer = some 5 ∧ (upDrawn.core 0).running ≠ [] ∧
    sysDown (takeTask 0 (holdCore 0 upDrawn.quiet)).1 = false ∧ ((takeTask 0 (holdCore 0 upDrawn.quiet)).1.core 0).mode ≠ .reset ∧
    sysDown (endTask 0 (holdCore 0 upDrawn.quiet)) = false ∧ ((endTask 0 (holdCore 0 upDrawn.quiet)).core 0).mode ≠ .reset := by
  decide +kernel

/-- A state in DIM, and one with a change of state in progress. -/
def upDim : State := (up.set pgPMU F.PMU_STATE 1)
def upTrans : State := (up.set pgPMU F.PMU_STATE_TRANS 1)
/-- Before output enable. -/
def upDark (on : Bool) : State := { up with boot := { up.boot with outEn := on } }

theorem test_deviceStates_meets :
    upTrans.flag pgPMU F.PMU_STATE_TRANS = true ∧ (up.flag pgPMU F.PMU_STATE_TRANS = false ∧ devState up = 0) ∧
    (upDim.flag pgPMU F.PMU_STATE_TRANS = false ∧ devState upDim = 1) ∧
    (up.set pgPMU F.PMU_WAKEEN_EN 0).get pgPMU F.PMU_WAKEEN_EN = 0 ∧
    (up.get pgPMU F.PMU_WAKEEN_EN ≠ 0 ∧ up.get pgPMU F.PMU_WAKEEN_EN / 4 % 2 = 0 ∧ up.pwr.lateWake = 0 ∧ up.get pgPMU F.PMU_WAKEEN_EN &&& 3 ≠ 0) ∧
    (up.boot.outEn = true ∧ (upDark false).boot.outEn = false ∧ darkLeft (upDark false) = false ∧ (upDark false).pwr.lateWake = 0 ∧
      devState (upDark false) = 0 ∧ (upDark false).flag pgPMU F.PMU_STATE_TRANS = false ∧ (upDark false).get pgPMU F.PMU_WAKEEN_EN = up.get pgPMU F.PMU_WAKEEN_EN) ∧
    (domChanging up = false ∧ domChanging (up.set pgPMU F.PMU_DOMEFF_ON 0xFFF7) = true) := by decide +kernel

/-- A state asleep (RETENTION SLEEP or DORMANT) with two wake sources enabled, and one whose domain 15 is off or not wanted. -/
def upAsleep (n : Nat) : State := (up.set pgPMU F.PMU_STATE n).set pgPMU F.PMU_WAKEEN_EN 3
def upDomOff : State := up.set pgPMU F.PMU_DOMEFF_ON 0x7FFF
def upUnwanted : State := { up with pwr := { up.pwr with req := 0x7FFF } }

theorem test_wakesAndDomains_meets :
    (goingDown { up with pwr := { up.pwr with dim := .asked } } = true ∧ goingDown upTrans = false ∧ upTrans.flag pgPMU F.PMU_STATE_TRANS = true ∧
      goingDown up = false ∧ devState up = 0) ∧
    ([1, 2, 3].all fun n => (upAsleep n).flag pgPMU F.PMU_STATE_TRANS = false && (upAsleep n).pwr.raising = none && !goingDown (upAsleep n) && devState (upAsleep n) = n &&
      (upAsleep n).get pgPMU F.PMU_WAKEEN_EN &&& 1 ≠ 0 && (upAsleep n).get pgPMU F.PMU_WAKEEN_EN &&& 2 ≠ 0) ∧
    ((upAsleep 2).set pgPMU F.PMU_WAKEEN_EN 1).get pgPMU F.PMU_WAKEEN_EN &&& 2 = 0 ∧
    (domFree upDomOff = true ∧ domWant upDomOff 15 = true ∧ domainOn upDomOff 15 = false) ∧
    (domFree upUnwanted = true ∧ domWant upUnwanted 15 = false ∧ domainOn upUnwanted 15 = true) ∧
    (domWant up 0 = domainOn up 0 ∧ domFree State.reset = false) ∧ domainOn up 8 = true ∧ domainOn State.reset 8 = false := by decide +kernel

/-- A state held in reset by RESET_N, by a rail, or by both, and one whose rails move. -/
def upHeld (low rail : Bool) : State := { up with boot := { up.boot with resetLow := low, railOut := rail } }
def upRails (up? : Bool) (en : List Bool) : State := { up with pwr := { up.pwr with raising := some up?, en := en } }
/-- Rails that move while one of them is out of range. -/
def upRetry (up? : Bool) (en : List Bool) : State :=
  { upHeld false true with pwr := { up.pwr with raising := some up?, en := en, retry := !up? } }

theorem test_railsAndResets_meets :
    ((upHeld false true).boot.railOut = true ∧ (upHeld false true).boot.resetLow = false ∧ (upHeld false true).pwr.en.all id = true) ∧
    ((upHeld true false).boot.resetLow = true ∧ (upHeld true false).boot.railOut = false ∧ (upHeld true false).pwr.en.all id = true) ∧
    ((upHeld true true).boot.resetLow = true ∧ (upHeld true true).boot.railOut = true) ∧ up.pwr.raising = none ∧
    ((upRails true [false, false, false, false]).pwr.raising = some true) ∧
    ((upRails true [true, true, true, false]).pwr.en = [true, true, true, false] ∧ (upRails true [true, true, true, false]).boot.resetLow = false ∧
      (upRails true [true, true, true, false]).boot.railOut = false) ∧
    ((upRetry true [true, true, true, true]).boot.railOut = true ∧ (upRetry true [true, true, true, true]).pwr.en.all id = true ∧
      (upRetry true [true, true, true, true]).pwr.raising = some true ∧ (upHeld false true).pwr.raising ≠ some true ∧
      (upRetry false [true, false, false, false]).pwr.retry = true) ∧
    (upRails false [true, true, true, true]).pwr.raising = some false ∧ (sramBase < mramBase ∧ fsBase ≤ fsBase) := by decide +kernel

/-- A state with a transaction on the bus or one that waits, and one with a die temperature (a half-precision number). -/
def upBus (on : Option PmTxn) (q : List PmTxn) : State := { up with pwr := { up.pwr with txn := on, txnQ := q } }
def upDie (t : Nat) : State := up.set pgADC F.ADC_DIETEMP_TEMP t

theorem test_pmbusThermalLife_meets :
    up.pwr.txn = none ∧ up.pwr.txnQ = [] ∧ (upBus (some ⟨2, 800, 1⟩) []).pwr.txn ≠ none ∧ (upBus (some ⟨2, 800, 1⟩) []).pwr.txnQ = [] ∧
    (upBus none [⟨2, 800, 0⟩]).pwr.txnQ = ⟨2, 800, 0⟩ :: [] ∧
    (Fl.lt (dieTemp up) (.fin (up.get pgPMU F.PMU_THERM_TWARN : Nat)) = true ∧ Fl.lt (dieTemp up) (.fin 110) = true ∧
      Fl.lt (dieTemp up) (.fin 120) = true ∧ up.flag pgPMU F.PMU_THERM_WARN = false ∧ up.flag pgPMU F.PMU_THERM_CRIT = false) ∧
    (Fl.lt (dieTemp (upDie 0x5680)) (.fin ((upDie 0x5680).get pgPMU F.PMU_THERM_TWARN : Nat)) = false ∧
      Fl.lt (dieTemp (upDie 0x5680)) (.fin 110) = true ∧ Fl.lt (dieTemp (upDie 0x5680)) (.fin 120) = true) ∧
    Fl.lt (dieTemp (upDie 0x5780)) (.fin 120) = false ∧
    timeRuns up = true ∧ timeRuns (upDie 0x5680) = true ∧ timeRuns (upDie 0x5780) = true ∧ timeRuns State.reset = false := by decide +kernel

theorem test_startControls_meets :
    (up.boot.handed = true ∧ up.boot.confirmed = false) ∧ { up with boot := { up.boot with confirmed := true } }.boot.confirmed = true ∧
    (3 : BitVec 4) ≠ 6 ∧ (0xC0DF : Word) ≠ 0xC0DE ∧ (10 ≤ (60000 : BitVec 16).toNat ∧ (60000 : BitVec 16).toNat ≤ 60000) ∧
    (10 ≤ (10 : BitVec 16).toNat ∧ (1 ≤ (9 : BitVec 16).toNat ∧ (9 : BitVec 16).toNat ≤ 9) ∧ 60001 ≤ (60001 : BitVec 16).toNat) := by
  decide +kernel

/-- Every key revoked. -/
def upRevoked : State := { up with boot := { up.boot with revoked := keysPresent } }
theorem test_keyrevoke_meets (h : keysPresent ≠ 0) :
    (keysPresent ≠ 0 ∧ keysPresent &&& (keysRevoked upRevoked ||| (0 : BitVec 4).toNat) = keysPresent) := by
  refine ⟨h, ?_⟩
  show keysPresent &&& ((Config.fuseRevoked.toNat ||| keysPresent) ||| 0) = keysPresent
  apply Nat.eq_of_testBit_eq
  intro i
  simp only [Nat.testBit_or, Nat.testBit_and, Nat.or_zero]
  cases keysPresent.testBit i <;> cases Config.fuseRevoked.toNat.testBit i <;> rfl
theorem test_keyrevokeLeft_meets (h : Config.fuseRevoked = 0) :
    ¬(keysPresent ≠ 0 ∧ keysPresent &&& (keysRevoked up ||| (0 : BitVec 4).toNat) = keysPresent) := by
  rintro ⟨h₁, h₂⟩
  refine h₁ (h₂.symm.trans ?_)
  have : keysRevoked up ||| (0 : BitVec 4).toNat = 0 := by
    simp only [keysRevoked, h]
    rfl
  rw [this, Nat.and_zero]

/-- A state whose watchdog runs. -/
def upDog : State := up.set pgBOOT F.BOOT_WDOG_TIMEOUT 100

theorem test_startsThatComeDue_meets :
    (wdRuns upDog = true ∧ wdRuns up = false ∧ upDog.boot.warned = false) ∧ up.mm.prog = none ∧
    (sramBase ≤ sramBase ∧ sramBase < mramBase ∧ sramBase ≤ mramBase - 1) ∧
    (up.boot.handed = true ∧ up.boot.confirmed = false ∧ up.boot.svcWait = false ∧ sysDown up = false) ∧
    (State.reset.boot.due ≠ none ∧ State.reset.boot.resetLow = false ∧ State.reset.boot.railOut = false ∧ failCount State.reset < 8) ∧
    up.boot.due = none := by decide +kernel

/-- A state with a warm start due whose frame store was kept, one with an eighth failed start, and one that waits to skip discovery. -/
def warmDue : State := { State.reset with boot := { State.reset.boot with due := some (false, 7), fsKept := true } }
def eighthDue : State := State.reset.set pgBOOT F.BOOT_FAIL_COUNT 8
/-- The same with FAB running and port D up. -/
def discSame : State := { upBru 4 fun p => { p with up := true } with
  regs := (up.set pgFAB F.HDR_EFF_MODE 2).regs, boot := { up.boot with discWait := true }, fab := { up.fab with record := some (0x509, 9, 0) } }
def discWaits : State := { State.reset with boot := { State.reset.boot with discWait := true }, fab := { State.reset.fab with record := some (1, 2, 3) } }

theorem test_startsRun_meets :
    up.boot.due = none ∧ State.reset.boot.due = some (true, 0) ∧ State.reset.boot.resetLow = false ∧ State.reset.boot.railOut = false ∧
    (eighthDue.boot.due = some (true, 0) ∧ 8 ≤ failCount eighthDue) ∧
    (warmDue.boot.due = some (false, 7) ∧ warmDue.boot.fsKept = true ∧ failCount warmDue < 3) ∧ up.boot.handed = true ∧
    State.reset.boot.handed = false ∧ up.boot.discWait = false ∧ discWaits.boot.discWait = true ∧
    discWaits.fab.record = some (1, 2, 3) ∧ fabOn discWaits = false ∧
    (discSame.boot.discWait = true ∧ discSame.fab.record = some (0x509, 9, 0) ∧ fabOn discSame = true ∧
      (bruPorts.filter fun b => (bruOf discSame b).up) ≠ [] ∧
      ∀ b ∈ bruPorts, (bruOf discSame b).up = true → beVal (slice (bruOf discSame b).ctrlRx 32 8) = (0 : Dword).toNat) := by decide +kernel

theorem test_serviceReads_meets :
    svcUp up = true ∧ up.svc.held = none ∧ (0 : BitVec 5).toNat = svcAddr up ∧ (1 : BitVec 5).toNat ≠ svcAddr up ∧ bodyOk 3 [1] = false ∧
    ([0, 0, 0, 0, 0, 0, 0] : List Byte).length = 7 ∧ beVal (slice ([0, 0, 0, 0, 0, 0, 0] : List Byte) 5 2) = 0 ∧
    svcReg 3 [1] ((up.quiet.bump pgSVC F.SVC_st_REQUESTS).evt pgSVC 0) = ((up.quiet.bump pgSVC F.SVC_st_REQUESTS).evt pgSVC 0, 3, []) ∧
    sysDown ((up.quiet.bump pgSVC F.SVC_st_REQUESTS).evt pgSVC 0) = false := by decide +kernel

/-- A state with a copy in progress, and one with the bench verified. -/
def upCopy : State := { up with boot := { up.boot with jState := 2 } }
def upVerified : State := { up with boot := { up.boot with jVerified := true } }

theorem test_serviceBench_meets :
    (svcUp up = true ∧ up.svc.held = none ∧ (0 : BitVec 5).toNat = svcAddr up ∧ up.boot.jState ≠ 2 ∧ up.boot.jVerified = false) ∧
    (svcUp upVerified = true ∧ (0 : BitVec 5).toNat = svcAddr upVerified ∧ upVerified.boot.jState ≠ 2 ∧ upVerified.boot.jVerified = true) ∧
    (svcUp upCopy = true ∧ (0 : BitVec 5).toNat = svcAddr upCopy ∧ upCopy.boot.jState = 2 ∧ upCopy.boot.svcWait = false ∧ upCopy.svc.held = none ∧ upVerified.svc.held = none) ∧
    (5 ≤ ([0, 0x60, 0, 0, 1] : List Byte).length ∧ ([0, 0x60, 0, 0, 1] : List Byte).length ≤ 1020 ∧
      0x600000 < beVal (([0, 0x60, 0, 0, 1] : List Byte).take 4) + (([0, 0x60, 0, 0, 1] : List Byte).length - 4) ∧
      beVal (([0, 0x5F, 0xFF, 0xFF, 1] : List Byte).take 4) + (([0, 0x5F, 0xFF, 0xFF, 1] : List Byte).length - 4) ≤ 0x600000 ∧
      domainOn up 9 = true ∧ up.mm.prog = none ∧
      (imageCheck 0x600000 (progsEnd ((up.quiet.bump pgSVC F.SVC_st_REQUESTS).evt pgSVC 0))).2.1 ≠ 0 ∧
      sysDown (imageCheck 0x600000 (progsEnd ((up.quiet.bump pgSVC F.SVC_st_REQUESTS).evt pgSVC 0))).1 = false) ∧
    ((0 : Byte).toNat = 0 ∧ (7 ≤ (7 : Byte).toNat ∧ (15 : Byte).toNat < 0x10) ∧ 0x16 ≤ (0x16 : Byte).toNat) := by decide +kernel

theorem test_attentionAndTap_meets :
    attnOut (up.set pgSVC F.SVC_ATTN_FORCE 1) = true ∧ attnOut up = false ∧ sysDown up = false ∧ holdsBalls up.tap.ir = false ∧ holdsBalls 4 = true ∧ (3 : BitVec 6).toNat = 3 ∧
    (6 ≤ (63 : BitVec 6).toNat ∧ (63 : BitVec 6).toNat ≠ 32) := by decide +kernel

theorem test_boundaryAndDebug_meets :
    anyLive (up.setReg pgAIR 0x00C 2) = true ∧ anyLive up = false ∧ sysOn up = true ∧ up.tap.status ≠ 2 ∧ (0x40000000 : BitVec 40).toNat % 4 = 0 ∧
    region (0x40000000 : BitVec 40).toNat = .page ∧ pageAccessOk (0x40000000 : BitVec 40).toNat 4 = true ∧
    (0x40000001 : BitVec 40).toNat % 4 ≠ 0 ∧ sysOn { up with boot := { up.boot with resetLow := true } } = false := by decide +kernel

/-- A TEST frame's port of kind `k`, one that shifts, and the pulse of LATCH15. -/
def upTest : State := upPort 1 3 id
def upShifts (k : Nat) : State := upPort k 2 fun p => { p with shifting := true }
def upPulse : State := { up with outs := { up.outs with latch := up.outs.latch.set 15 ⟨0, 0, true, 0, 0⟩ } }
def upChecked (b : Bool) : State := (upPinEntry b).set pgEDGE F.EDGE_BANKCFG_PINCHK 1
def upLatchChecked : State := (updPin up 143 fun p => { p with level := some true }).set pgEDGE F.EDGE_BANKCFG_PINCHK 8
/-- The state in which an operation of a request of the responder is executed. -/
def caneStart (m : Byte × List Byte) : State :=
  updCane (upCane (caneMsg m.1 m.2)).quiet fun c =>
    keepTag ((caneReqOf m.1 m.2).msg.drop ((caneReqOf m.1 m.2).msg.length - 16)) { c with store := [] }

theorem test_pinsComplete_meets :
    (let s := upPort 1 2 fun k => { k with pos := 8 }
     s.outs.strands.length = 64 ∧ preparesOn s = true ∧ s.outs.preparing = true ∧ takesFrames s 0 = true ∧ (strand s 0).spoiled = false ∧
      (strand s 0).pos = s.get pgMAP F.MAP_SEG_COUNT 0 ∧ (strand s 0).prep.contains s.time.seq = false ∧
      ∀ q : Fin 64, q ≠ 0 → takesFrames s q.val = false) ∧
    (upTest.outs.strands.length = 64 ∧ (strand upTest 0).kind = 1 ∧ testShown (strand upTest 0) = true ∧
      contentOf upTest 0 (portNext upTest 0).1 (portNext upTest 0).2 = .codes (testCodes (strand upTest 0) 0)) ∧
    ((strand (upShifts 6) 0).shifting = true ∧ (strand (upShifts 6) 0).kind = 6) ∧
    ((upShifts 2).outs.strands.length = 64 ∧ (strand (upShifts 2) 0).shifting = true ∧ (strand (upShifts 2) 0).kind = 2 ∧
      (strand (upShifts 2) 0).fld F.STD_CFG_RBEN = 0) ∧
    (upPulse.outs.latch.length = 16 ∧ (upPulse.outs.latch.getD 15 {}).high = true) ∧
    ((pinOf (upPinEntry false) 0).queue = [⟨100, false, none⟩] ∧ bankHeld (upPinEntry false) (bankOf 0) = false ∧
      (pinOf (upPinEntry false) 0).level = some (!false) ∧ (upPinEntry false).outs.pins.length = 144 ∧ inRun (upPinEntry false) pgEDGE = true ∧
      (pinOf (upPinEntry false) 0).window = none ∧ (pinOf (upPinEntry false) 0).last = none ∧
      (strand (upPinEntry false) ((gangLead (upPinEntry false) (0 / 2)).getD (0 / 2))).kind ≠ 5 ∧
      (strand (upPinEntry false) ((gangLead (upPinEntry false) (0 / 2)).getD (0 / 2))).kind ≠ 6) ∧
    ((upChecked true).get pgEDGE F.EDGE_BANKCFG_PINCHK / 2 ^ bankOf 0 % 2 = 1 ∧ (pinOf (upChecked true) 0).level = some (!false) ∧
      pinPort (upChecked true) 0 = some 0) ∧
    (upLatchChecked.get pgEDGE F.EDGE_BANKCFG_PINCHK / 2 ^ bankOf 143 % 2 = 1 ∧ (pinOf upLatchChecked 143).level = some (!false) ∧
      pinPort upLatchChecked 143 = none) ∧
    (23 < (strand (upPort 1 2 id) 0).words ∧ (strand (upPort 1 2 id) 0).mode = 2 ∧ (strand (upPort 1 2 id) 0).shifting = false) ∧
    ({ up with cmt := { up.cmt with owner := 5 } } : State).cmt.owner = 5 ∧ up.net.cane.keys.length = 16 := by decide +kernel

/-- The requests of `test_caneFront_meets`, authentic at a free responder, are executed, and leave it free and the device up. -/
theorem test_caneCompletes_meets :
    ((caneMsg 1 []).length - (caneTag (List.replicate 32 0) (caneHead 1 [])).length = 32) ∧
    itemsOk 2 2 = true ∧ itemsOk 4 4 = true ∧ beVal [0, 0, 0, 0] / 4096 ≠ pgQUE ∧ (1 ≤ beVal [0, 1] ∧ beVal [0, 1] ≤ 256) ∧
    (∀ i, i < 1 → (beVal [0, 0, 0, 0] + 4 * i) / 4096 ≠ pgQUE) ∧
    (∀ m ∈ [((3 : Byte), ([0, 0, 0, 0] : List Byte)), (4, [0, 0, 0, 0, 0, 0, 0, 0]), (5, [0, 0, 0, 0, 0, 1, 0, 0])], bodyOk m.1.toNat m.2 = true ∧
      sysDown (regOp 5 (caneWrite (senderOf (caneReqOf m.1 m.2))) m.1.toNat m.2 (caneStart m)).1 = false ∧
      (regOp 5 (caneWrite (senderOf (caneReqOf m.1 m.2))) m.1.toNat m.2 (caneStart m)).1.net.cane.held.isNone = true) := by
  refine ⟨?_, by decide, by decide, by decide, by decide, by decide, by decide +kernel⟩
  unfold caneMsg; rw [List.length_append, Nat.add_sub_cancel]; rfl

/-- A check that the stores of a state are in their canonical forms. -/
def storesCheck (s : State) : Bool :=
  amSorted s.regs && s.regs.all (fun kv => kv.2 != resetAt kv.1) && amSorted s.staged && amSorted s.ctr && Memory.wf s.mem
theorem storesOk_of_check (s : State) (h : storesCheck s = true) : StoresOk s := by
  simp only [storesCheck, Bool.and_eq_true, List.all_eq_true, bne_iff_ne] at h
  exact ⟨⟨h.1.1.1.1, h.1.1.1.2⟩, h.1.1.2, h.1.2, h.2⟩
/-- The states that meet the premises of statements about stores have their stores in canonical form. -/
theorem test_storesA_meets : [State.reset, up, upMode, upStep, upGap, upArmed, upServo .locked 3, upLive, upSend, upOwned .checking, upChecking].all storesCheck = true := by decide +kernel
theorem test_storesB_meets : [upRun, upFilling, upPort 5 2 id, upPort 5 2 fun k => { k with rdm := .queued }, upPort 1 2 fun k => { k with prep := [0] },
    upChecked true, upOvr, upActive, upCal, upAdc, upSnd, upTap].all storesCheck = true := by decide +kernel
theorem test_storesC_meets : [upEth [] none false, upLow, upPair, upMiss, upSickB, upDual, upLoop, upHead, upMaster, upAir, upAirFault, upLbtOk, upNvm,
    upScrub, upFull].all storesCheck = true := by decide +kernel
theorem test_storesD_meets : [upDma 4, upDesc, upWork, upPending, upSleep, upCore, upEntry, upDrawn, upDim, upTrans, upDark true, upAsleep 2, upDomOff,
    upUnwanted, upDie 100, upRevoked, upDog, upCopy, upVerified].all storesCheck = true := by decide +kernel

end Sys2Proof.Machine
end

section
/-!
SUPPORT. What a write on the bus comes to where it is refused and where it is answered, and what the header and the staging set make of it.
-/
namespace Sys2Proof.Machine
open Sys2Proof

@[simp] theorem quiet_que (s : State) : s.quiet.que = s.que := rfl
@[simp] theorem quiet_tsk (s : State) : s.quiet.tsk = s.tsk := rfl

/-! ### The answer on the bus -/

/-- The accesses that the register page window refuses (R6, R10). -/
theorem pageAccessOk_eq_false {off : Nat} (ho : off < 2 ^ 24) (h : off % 4 ≠ 0 ∨ assigned (off / 4096) = false) :
    pageAccessOk (0x40000000 + off) 4 = false := by
  have page : pageIndexAt (0x40000000 + off) = off / 4096 := by simp only [pageIndexAt]; omega
  have word : (0x40000000 + off) % 4 = off % 4 := by omega
  rcases h with h | h <;> simp [pageAccessOk, page, word, h]

theorem busWrite_busError (a : BitVec 4) {off : Nat} (ho : off < 2 ^ 24) (h : off % 4 ≠ 0 ∨ assigned (off / 4096) = false)
    (v : Word) (s : State) : busWrite a off v s = s.emit .busError := by
  simp [busWrite, pageAccessOk_eq_false ho h]

theorem regKey_div_mod (off : Nat) : regKey (off / 4096) (off % 4096) = off := Nat.div_add_mod' off 4096

/-- A write at a place of the window, by its page index and its offset in the page. -/
theorem busWrite_eq_answered (a : BitVec 4) {off : Nat} (ho : off < 2 ^ 24) (h4 : off % 4 = 0) (hp : assigned (off / 4096) = true)
    (v : Word) (s : State) : busWrite a off v s = answered s (regWrite a.toNat (off / 4096) (off % 4096) v s) := by
  have h := busWrite_regKey (a := a) (off := off % 4096) (v := v) hp (by omega) (by omega) (by omega) s
  rwa [regKey_div_mod] at h

/-- A write that leaves the waiting posts and the queues is answered at once. -/
theorem answered_of_que_tsk {s t : State} (hq : t.que = s.que) (ht : t.tsk = s.tsk) : answered s t = t.emit .writeDone := by
  have h : withheld t = withheld s := by rw [withheld, withheld, hq, ht]
  simp [answered, h]

/-! ### The staging set (R75) -/

@[simp] theorem stage_que (k : Nat) (m v : Word) (s : State) : (stage k m v s).que = s.que := rfl
@[simp] theorem stage_tsk (k : Nat) (m v : Word) (s : State) : (stage k m v s).tsk = s.tsk := rfl

section
variable {a : Nat} {fs : List Fld} {s : State} (p off : Nat) (v : Word)

theorem stageFields_owner (hf : fs ≠ []) (ha : a ≠ 0) (ho : s.cmt.owner = a) (hm : s.cmt.mode = .idle) :
    stageFields a p off v fs s = (stage (regKey p off) (fs.foldl (fun m f => m ||| f.mask) 0) v s, 0) := by
  simp [stageFields, hf, ha, ho, hm]

theorem stageFields_notOwner (hf : fs ≠ []) (h : a = 0 ∨ s.cmt.owner ≠ a) :
    stageFields a p off v fs s = (s.bump pgCMT F.CMT_st_NOTOWNER, 0x02) := by
  simp [stageFields, hf, h]

theorem stageFields_armed (hf : fs ≠ []) (ha : a ≠ 0) (ho : s.cmt.owner = a) (hm : s.cmt.mode ≠ .idle) :
    stageFields a p off v fs s = (s.bump pgCMT F.CMT_st_NOTOWNER, 0x03) := by
  simp [stageFields, hf, ha, ho, hm]

end

/-! ### The header's registers (R66) -/

theorem regWrite_header (a p : Nat) {off : Nat} (h : off < 0x040) (v : Word) (s : State) :
    regWrite a p off v s = hdrWrite a p off v s := if_pos h

theorem hdrWrite_evt (a p : Nat) (v : Word) (s : State) :
    hdrWrite a p 0x010 v s = s.setReg p 0x010 (s.reg p 0x010 &&& ~~~v) := by
  simp [hdrWrite]

theorem hdrWrite_fault (a p : Nat) (v : Word) (s : State) : hdrWrite a p 0x018 v s = s.setReg p 0x018 0 := by
  simp [hdrWrite]

section
variable {a p : Nat} {s : State} (hf : fixedRun p = false) (hc : pageType p ≠ 0xC0)
include hf hc

/-- REQ.MODE of a page that is neither fixed in RUN nor a core's is a staged field: what staging it comes to is what the write does. -/
theorem hdrWrite_reqMode (v : Word) {t : State} {c : Nat} (h : stageFields a p 0x008 v [F.HDR_REQ_MODE] s = (t, c)) :
    hdrWrite a p 0x008 v s = if c = 0 then t else t.fault p c 0x008 a := by
  simp [hdrWrite, hf, hc, h]

theorem hdrWrite_reqMode_owner (v : Word) (ha : a ≠ 0) (ho : s.cmt.owner = a) (hm : s.cmt.mode = .idle) :
    hdrWrite a p 0x008 v s = stage (regKey p 0x008) (0 ||| F.HDR_REQ_MODE.mask) v s :=
  hdrWrite_reqMode hf hc v (stageFields_owner p 0x008 v (List.cons_ne_nil _ _) ha ho hm)

theorem hdrWrite_reqMode_notOwner (v : Word) (h : a = 0 ∨ s.cmt.owner ≠ a) :
    hdrWrite a p 0x008 v s = (s.bump pgCMT F.CMT_st_NOTOWNER).fault p 0x02 0x008 a :=
  hdrWrite_reqMode hf hc v (stageFields_notOwner p 0x008 v (List.cons_ne_nil _ _) h)

theorem hdrWrite_reqMode_armed (v : Word) (ha : a ≠ 0) (ho : s.cmt.owner = a) (hm : s.cmt.mode ≠ .idle) :
    hdrWrite a p 0x008 v s = (s.bump pgCMT F.CMT_st_NOTOWNER).fault p 0x03 0x008 a :=
  hdrWrite_reqMode hf hc v (stageFields_armed p 0x008 v (List.cons_ne_nil _ _) ha ho hm)

end

/-- A write on the bus of a header register whose effect leaves the waiting posts and the queues. -/
theorem busWrite_header (a : BitVec 4) {p off : Nat} (hp : assigned p = true) (h1 : p < 4096) (h2 : off < 0x040) (h4 : off % 4 = 0)
    {v : Word} {s t : State} (h : hdrWrite a.toNat p off v s = t) (hq : t.que = s.que) (ht : t.tsk = s.tsk) :
    busWrite a (regKey p off) v s = t.emit .writeDone := by
  rw [busWrite_regKey hp h1 (by omega) h4, regWrite_header _ _ h2, h, answered_of_que_tsk hq ht]

/-! ### The commands -/

theorem exec_registerWrite (a : BitVec 4) (off : BitVec 24) (v : Word) (s : State) :
    exec (.registerWrite a off v) s = .next (busWrite a off.toNat v s.quiet) := rfl

theorem exec_stagedWrite (a : BitVec 4) (off : BitVec 24) (v : Word) (s : State) :
    exec (.stagedWrite a off v) s = .next (busWrite a off.toNat v s.quiet) := rfl

theorem exec_eventClear (a : BitVec 4) (p : BitVec 12) (bits : Word) (s : State) :
    exec (.eventClear a p bits) s = .next (busWrite a (regKey p.toNat 0x010) bits s.quiet) := rfl

theorem exec_faultClear (a : BitVec 4) (p : BitVec 12) (s : State) :
    exec (.faultClear a p) s = .next (busWrite a (regKey p.toNat 0x018) 0 s.quiet) := rfl

/-- A staged write of a page's REQ, answered at once where its effect leaves the waiting posts and the queues. -/
theorem exec_stagedWrite_req (a : BitVec 4) {off : BitVec 24} {p : Nat} (hoff : off.toNat = regKey p 0x008) (hp : assigned p = true)
    {v : Word} {s t : State} (h : hdrWrite a.toNat p 0x008 v s.quiet = t) (hq : t.que = s.que) (ht : t.tsk = s.tsk) :
    exec (.stagedWrite a off v) s = .next (t.emit .writeDone) := by
  have hlt : p < 4096 := by have := off.isLt; simp only [regKey] at hoff; omega
  rw [exec_stagedWrite, hoff, busWrite_header a hp hlt (by decide) (by decide) h hq ht]

theorem agent_toNat_ne_zero {a : BitVec 4} (h : a ≠ 0) : a.toNat ≠ 0 := fun e => h (BitVec.eq_of_toNat_eq e)

/-- Settles O16: the window's check decides between a bus error and the register write, and each header register's write leaves what could
withhold the answer. -/
theorem plainRegisterAccess : Obligations.PlainRegisterAccess := by
  refine ⟨?busError, ?answer, ?evt, ?fault, ?owner, ?notOwner, ?armed⟩
  case busError =>
    intro a off v s h
    rw [exec_registerWrite, exec_stagedWrite, busWrite_busError a off.isLt h]
    exact ⟨rfl, rfl⟩
  case answer =>
    intro a off v s h4 hp
    rw [exec_registerWrite, busWrite_eq_answered a off.isLt h4 hp]
  case evt =>
    intro a p bits s hp
    rw [exec_eventClear, busWrite_header a hp p.isLt (by decide) (by decide) (hdrWrite_evt ..) rfl rfl]
    rfl
  case fault =>
    intro a p s hp
    rw [exec_faultClear, busWrite_header a hp p.isLt (by decide) (by decide) (hdrWrite_fault ..) rfl rfl]
  case owner =>
    intro a off v p s hoff hp hf hc ha ho hm
    exact exec_stagedWrite_req a hoff hp (hdrWrite_reqMode_owner hf hc v (agent_toNat_ne_zero ha) ho hm) rfl rfl
  case notOwner =>
    intro a off v p s hoff hp hf hc h
    have h' : a.toNat = 0 ∨ s.quiet.cmt.owner ≠ a.toNat := h.imp_left (congrArg BitVec.toNat)
    exact exec_stagedWrite_req a hoff hp (hdrWrite_reqMode_notOwner hf hc v h') (by simp) (by simp)
  case armed =>
    intro a off v p s hoff hp hf hc ha ho hm
    exact exec_stagedWrite_req a hoff hp (hdrWrite_reqMode_armed hf hc v (agent_toNat_ne_zero ha) ho hm) (by simp) (by simp)

end Sys2Proof.Machine
end

section
/-!
SUPPORT. What an event leaves as it was: the outputs, and every statistic of a page below those of the event controller, the scheduler and
the cores.
-/
namespace Sys2Proof.Machine
open Sys2Proof

/-- The effect of an event beside its registers: the outputs are the same, and so are the statistics of the pages below `pgEVC`. -/
structure EventFrame (s t : State) : Prop where
  outs : t.outs = s.outs
  ctr : ∀ k < regKey pgEVC 0 * 32, amGet t.ctr k = amGet s.ctr k

namespace EventFrame
variable {s t u : State}

theorem refl (s : State) : EventFrame s s := ⟨rfl, fun _ _ => rfl⟩

theorem of_eq (ho : t.outs = s.outs) (hc : t.ctr = s.ctr) : EventFrame s t := ⟨ho, fun _ _ => by rw [hc]⟩

theorem trans (h : EventFrame s t) (h' : EventFrame t u) : EventFrame s u :=
  ⟨h'.outs.trans h.outs, fun k hk => (h'.ctr k hk).trans (h.ctr k hk)⟩

theorem ite {c : Prop} [Decidable c] (ht : EventFrame s t) (hu : EventFrame s u) : EventFrame s (if c then t else u) := by
  split
  · exact ht
  · exact hu

theorem foldl {α : Type} {f : State → α → State} (hf : ∀ s x, EventFrame s (f s x)) (l : List α) (s : State) :
    EventFrame s (l.foldl f s) :=
  List.foldlRecOn l f (refl s) fun t h x _ => h.trans (hf t x)

/-- A statistic of the event controller, the scheduler or a core set. -/
theorem setStat (s : State) {p : Nat} (hp : pgEVC ≤ p) (f : Fld) (v k : Nat) : EventFrame s (s.setStat p f v k) := by
  refine ⟨rfl, fun j hj => amGet_amSet_ne _ _ _ _ ?_⟩
  have : p * 4096 ≤ regKey p (f.off + f.stride * k) := Nat.le_add_right _ _
  simp only [State.statKey, regKey] at hj ⊢
  omega

theorem bump (s : State) {p : Nat} (hp : pgEVC ≤ p) (f : Fld) (n k : Nat) : EventFrame s (s.bump p f n k) :=
  ite (refl s) (setStat s hp ..)

theorem statMax (s : State) {p : Nat} (hp : pgEVC ≤ p) (f : Fld) (v k : Nat) : EventFrame s (s.statMax p f v k) :=
  ite (setStat s hp ..) (refl s)

theorem rawEvt (s : State) (p bit : Nat) : EventFrame s (rawEvt s p bit) := of_eq rfl rfl

theorem setSrc (s : State) (x : Src) (lsb w v : Nat) : EventFrame s (setSrc s x lsb w v) := of_eq rfl rfl

theorem updCore (s : State) (c : Nat) (f : Core → Core) : EventFrame s (s.updCore c f) := of_eq rfl rfl

theorem pend (s : State) (n : Nat) : EventFrame s (pend s (.shared n)).1 := by
  have merged : EventFrame s (s.bump pgEVC F.EVC_st_MERGED) := bump s le_rfl ..
  unfold Machine.pend
  dsimp only
  split
  · split
    · exact merged
    · exact merged.trans (setSrc ..)
  · exact setSrc ..

theorem enqueue {k : Nat} (h : enqueue s k = some t) : EventFrame s t := by
  unfold Machine.enqueue at h
  split at h
  · cases h
    exact (of_eq rfl rfl : EventFrame s { s with tsk := { s.tsk with posts := s.tsk.posts ++ [k] } }).trans (statMax _ (by decide) ..)
  · cases h

theorem sourcePost (s : State) (n : Nat) : EventFrame s (sourcePost s n) := by
  unfold Machine.sourcePost
  dsimp only
  split
  · split
    · exact refl s
    · split
      · next e => exact (enqueue e).trans (bump _ le_rfl ..)
      · exact (setSrc ..).trans (rawEvt ..)
  · exact refl s

theorem arriveOnce (n : Nat) (s : State) : EventFrame s (arriveOnce n s) := by
  unfold Machine.arriveOnce
  dsimp only
  have ext : EventFrame s (if 228 ≤ n ∧ n ≤ 235 then s.bump pgEVC F.EVC_st_EXTARR else s) := ite (bump s le_rfl ..) (refl s)
  have posted := ((ext.trans (bump _ le_rfl F.EVC_st_ARRIVALS 1 0)).trans (pend _ n)).trans (sourcePost _ n)
  exact ite (posted.trans (rawEvt ..)) posted

theorem rising (n : Nat) {f : State → State} (hf : ∀ s, EventFrame s (f s)) (s : State) : EventFrame s (rising n f s) :=
  ite ((hf s).trans (arriveOnce ..)) (hf s)

theorem present (c : Nat) (s : State) : EventFrame s (present c s) := by
  unfold Machine.present
  extract_lets k t k'
  have resumed : EventFrame s t := ite (updCore ..) (refl s)
  clear_value t
  refine resumed.trans ?_
  split
  · exact refl t
  · split
    · split
      · exact refl t
      · exact updCore ..
    · split
      · exact refl t
      · exact ite ((updCore ..).trans (bump _ (by simp only [pgEVC, pgCPU]; omega) ..)) (refl t)

theorem presentRound (s : State) : EventFrame s (presentRound s) := by
  refine foldl (fun s c => ?_) _ s
  dsimp only
  split
  · exact ite ((updCore ..).trans (bump _ le_rfl ..)) (refl s)
  · exact present c s

theorem presentAll (s : State) : EventFrame s (presentAll s) := foldl (fun s _ => presentRound s) _ s

theorem arrive (n : Nat) (s : State) : EventFrame s (arrive n s) :=
  (rising _ (rising _ (rising _ (arriveOnce n))) s).trans (presentAll _)

/-- An event leaves the outputs, and the statistics of every page below the event controller's. -/
theorem evt (s : State) (p bit : Nat) : EventFrame s (s.evt p bit) :=
  ite ((rawEvt s p bit).trans (arrive ..)) (rawEvt s p bit)

end EventFrame

@[simp] theorem evt_outs (s : State) (p bit : Nat) : (s.evt p bit).outs = s.outs := (EventFrame.evt s p bit).outs

end Sys2Proof.Machine
end

section
/-!
SUPPORT. An access to memory leaves the outputs as they were, whatever errors and guard hits it records.
-/
namespace Sys2Proof.Machine
open Sys2Proof

/-- What every step of a fold leaves as it was, the fold does. -/
theorem foldl_outs {α : Type} {f : State → α → State} (hf : ∀ s x, (f s x).outs = s.outs) (l : List α) (s : State) :
    (l.foldl f s).outs = s.outs :=
  List.foldlRecOn (motive := fun t => t.outs = s.outs) l f rfl fun t h x _ => (hf t x).trans h

theorem foldl_fst_outs {α β : Type} {f : State × β → α → State × β} (hf : ∀ p x, (f p x).1.outs = p.1.outs) (l : List α)
    (p : State × β) : (l.foldl f p).1.outs = p.1.outs :=
  List.foldlRecOn (motive := fun q => q.1.outs = p.1.outs) l f rfl fun t h x _ => (hf t x).trans h

@[simp] theorem recordErr_outs (unc sram : Bool) (source word : Nat) (s : State) : (recordErr unc sram source word s).outs = s.outs := by
  simp [recordErr, apply_ite State.outs]

@[simp] theorem checkWord_outs (w : Who) (sram : Bool) (word : Nat) (s : State) : (checkWord w sram word s).1.outs = s.outs := by
  unfold checkWord
  split
  · rfl
  · dsimp only
    split <;> simp

@[simp] theorem checkRead_outs (w : Who) (sram : Bool) (words : List Nat) (s : State) : (checkRead w sram words s).1.outs = s.outs := by
  unfold checkRead countUnc
  dsimp only
  split <;> simp [foldl_fst_outs]

@[simp] theorem checkWords_outs (w : Who) (sram : Bool) (a n : Nat) (s : State) : (checkWords w sram a n s).1.outs = s.outs := by
  unfold checkWords
  split <;> simp [foldl_fst_outs]

@[simp] theorem checkCodeword_outs (cw : Nat) (s : State) : (checkCodeword cw s).1.outs = s.outs := by
  unfold checkCodeword
  split
  · rfl
  · split <;> simp

@[simp] theorem mergeCodeword_outs (p : NvmProg) (s : State) (c : Nat) : (mergeCodeword p s c).outs = s.outs := by
  unfold mergeCodeword
  have checked := checkCodeword_outs c s
  split
  · rfl
  · split
    · next e => rwa [e] at checked
    · next e =>
      rw [e] at checked
      rw [foldl_outs (fun s x => by simp), checked]

@[simp] theorem startProg_outs (p : NvmProg) (s : State) : (startProg p s).outs = s.outs := by simp [startProg]

@[simp] theorem nvmDone_outs (s : State) : (nvmDone s).outs = s.outs := by
  unfold nvmDone
  split
  · rfl
  · next p _ =>
    extract_lets merged mm stored free counted done
    have hm : merged.outs = s.outs := foldl_outs (mergeCodeword_outs p) _ s
    have hd : done.outs = s.outs := by simp [done, counted, free, stored, hm, apply_ite State.outs]
    clear_value done
    split
    · exact hd
    · simp [hd]

@[simp] theorem mramHold_outs (off n k : Nat) (s : State) : (mramHold off n k s).outs = s.outs := by
  induction k generalizing s with
  | zero => rfl
  | succ k ih =>
    unfold mramHold
    split
    · split
      · rw [ih, nvmDone_outs]
      · rfl
    · rfl

@[simp] theorem mramRead_outs (off n : Nat) (s : State) : (mramRead off n s).1.outs = s.outs := by
  unfold mramRead
  split
  · rfl
  · simp [foldl_fst_outs]

@[simp] theorem ownGrants_outs (w : Who) (a n : Nat) (s : State) : (ownGrants w a n s).outs = s.outs := by
  unfold ownGrants
  split
  · exact foldl_outs (fun s b => by simp) _ s
  · rfl

@[simp] theorem rd_outs (w : Who) (a n : Nat) (s : State) : (rd w a n s).1.outs = s.outs := by
  unfold rd rdMem
  split
  · simp
  · split
    · simp
    · split
      · simp
      · split
        · split <;> simp
        · simp

@[simp] theorem guarded_outs (w : Who) (off n : Nat) (s : State) : (guarded w off n s).1.outs = s.outs := by
  unfold guarded
  exact foldl_outs (fun s v => by simp) _ s

@[simp] theorem mergeWords_outs (w : Who) (sram : Bool) (a n : Nat) (s : State) : (mergeWords w sram a n s).1.outs = s.outs := by
  unfold mergeWords
  refine foldl_fst_outs (fun p x => ?_) _ _
  dsimp only
  split <;> simp

@[simp] theorem injectOn_outs (a n : Nat) (s : State) : (injectOn a n s).outs = s.outs := by
  unfold injectOn
  split
  · rfl
  · split <;> rfl

@[simp] theorem confNote_outs (l : List Nat) (s : State) : (confNote l s).outs = s.outs := rfl

@[simp] theorem breakReservations_outs (a n : Nat) (s : State) : (breakReservations a n s).outs = s.outs := rfl

@[simp] theorem wrBurst_outs (w : Who) (a : Nat) (b : List Byte) (s : State) : (wrBurst w a b s).1.outs = s.outs := by
  unfold wrBurst
  simp [apply_ite Prod.fst, apply_ite State.outs]

@[simp] theorem wr'_outs (w : Who) (a : Nat) (b : List Byte) (s : State) : (wr' w a b s).outs = s.outs := by
  unfold wr' wr wrMem
  split
  · simp [foldl_fst_outs]
  · simp

end Sys2Proof.Machine
end

section
/-!
SUPPORT. Strand ports and pins: what an operation on one of them sets, and what it leaves of the others, of the latch groups and of the
statistics.
-/
namespace Sys2Proof.Machine
open Sys2Proof

/-! ### Positions of a list -/

theorem getD_updAt_same {α : Type} {l : List α} {i : Nat} (h : i < l.length) (f : α → α) (d : α) :
    (updAt l i f).getD i d = f (l.getD i d) := by
  simp [updAt, List.getD, h]

theorem getD_updAt_ne {α : Type} (l : List α) {i j : Nat} (h : i ≠ j) (f : α → α) (d : α) : (updAt l i f).getD j d = l.getD j d := by
  simp [updAt, List.getD, h]

/-- What a change leaves of a value, it leaves at every position. -/
theorem getD_updAt_proj {α β : Type} (g : α → β) {f : α → α} (hf : ∀ x, g (f x) = g x) (l : List α) (i j : Nat) (d : α) :
    g ((updAt l i f).getD j d) = g (l.getD j d) := by
  by_cases hij : i = j
  · subst hij
    by_cases hi : i < l.length
    · rw [getD_updAt_same hi, hf]
    · simp [updAt, List.getD, hi]
  · rw [getD_updAt_ne l hij]

@[simp] theorem updAt_length {α : Type} (l : List α) (i : Nat) (f : α → α) : (updAt l i f).length = l.length := by simp [updAt]

/-! ### Statistics -/

theorem stat_bump_same (s : State) (p : Nat) (f : Fld) (k : Nat) : (s.bump p f 1 k).stat p f k = min 0xFFFFFFFF (s.stat p f k + 1) := by
  simp [State.bump, State.stat, State.setStat]

theorem stat_bump_ne (s : State) {p q : Nat} {f g : Fld} {j k : Nat} (h : State.statKey q g j ≠ State.statKey p f k) (n : Nat) :
    (s.bump p f n k).stat q g j = s.stat q g j := by
  unfold State.bump
  split
  · rfl
  · exact congrArg (·.getD 0) (amGet_amSet_ne _ _ _ _ h)

/-- An event leaves the statistics of the pages below the event controller's. -/
theorem stat_evt (s : State) (p bit : Nat) {q : Nat} {g : Fld} {j : Nat} (h : State.statKey q g j < regKey pgEVC 0 * 32) :
    (s.evt p bit).stat q g j = s.stat q g j :=
  congrArg (·.getD 0) ((EventFrame.evt s p bit).ctr _ h)

/-! ### A strand port changed -/

section
variable (s : State) (p : Nat) (f : Strand → Strand)

@[simp] theorem updStrand_pins : (updStrand s p f).outs.pins = s.outs.pins := rfl
@[simp] theorem updStrand_strands : (updStrand s p f).outs.strands = updAt s.outs.strands p f := rfl
@[simp] theorem updStrand_stat (q : Nat) (g : Fld) (k : Nat) : (updStrand s p f).stat q g k = s.stat q g k := rfl

end

theorem strand_updStrand_same {s : State} {p : Nat} (h : p < s.outs.strands.length) (f : Strand → Strand) :
    strand (updStrand s p f) p = f (strand s p) := getD_updAt_same h f _

theorem strand_updStrand_proj {β : Type} (g : Strand → β) {f : Strand → Strand} (hf : ∀ k, g (f k) = g k) (s : State) (p q : Nat) :
    g (strand (updStrand s p f) q) = g (strand s q) := getD_updAt_proj g hf ..

theorem strand_of_strands {s t : State} (h : t.outs.strands = s.outs.strands) (p : Nat) : strand t p = strand s p := by
  rw [strand, strand, h]

theorem strand_of_outs {s t : State} (h : t.outs = s.outs) (p : Nat) : strand t p = strand s p := strand_of_strands (by rw [h]) p

/-- The gang of a port is told by the strand ports and the registers. -/
theorem gangLead_congr {s t : State} (hr : t.regs = s.regs) (ho : t.outs.strands = s.outs.strands) (p : Nat) : gangLead t p = gangLead s p := by
  have get : ∀ q f, t.get q f = s.get q f := fun q f => by rw [State.get, State.get, reg_of_regs hr]
  have size : ∀ q, gangSize t q = gangSize s q := fun q => by simp only [gangSize, get, strand_of_strands ho]
  simp only [gangLead, size]

/-! ### A pin changed -/

theorem pinOf_updPin_same {s : State} {i : Nat} (h : i < s.outs.pins.length) (f : Pin → Pin) : pinOf (updPin s i f) i = f (pinOf s i) :=
  getD_updAt_same h f _

/-- A pin made high-impedance is driven to no level. -/
theorem pinOf_floatPin {s : State} {i : Nat} (h : i < s.outs.pins.length) : (pinOf (floatPin i s) i).level = none := by
  unfold floatPin
  dsimp only
  rw [pinOf_updPin_same (by simpa [apply_ite State.outs] using h)]

@[simp] theorem edgeLate_outs (i : Nat) (byPlacer : Bool) (s : State) : (edgeLate i byPlacer s).outs = s.outs := by
  unfold edgeLate
  dsimp only
  split <;> simp [apply_ite State.outs]

@[simp] theorem updPin_pins_length (s : State) (i : Nat) (f : Pin → Pin) : (updPin s i f).outs.pins.length = s.outs.pins.length := updAt_length ..

/-- The pins of the second state beside, the outputs are those of the first. -/
def PinsOnly (s t : State) : Prop := t.outs = { s.outs with pins := t.outs.pins }

namespace PinsOnly
variable {s t u : State}

theorem of_outs (h : t.outs = s.outs) : PinsOnly s t := by rw [PinsOnly, h]

theorem trans (h : PinsOnly s t) (h' : PinsOnly t u) : PinsOnly s u := by
  unfold PinsOnly at h h' ⊢
  rw [h', h]

theorem ite {c : Prop} [Decidable c] (ht : PinsOnly s t) (hu : PinsOnly s u) : PinsOnly s (if c then t else u) := by
  split
  · exact ht
  · exact hu

theorem foldl {α : Type} {f : State → α → State} (hf : ∀ s x, PinsOnly s (f s x)) (l : List α) (s : State) : PinsOnly s (l.foldl f s) :=
  List.foldlRecOn l f (of_outs rfl) fun t h x _ => h.trans (hf t x)

theorem strands (h : PinsOnly s t) : t.outs.strands = s.outs.strands := by rw [h]

theorem latch (h : PinsOnly s t) : t.outs.latch = s.outs.latch := by rw [h]

theorem updPin (s : State) (i : Nat) (f : Pin → Pin) : PinsOnly s (updPin s i f) := rfl

theorem sequence (i : Nat) (l : List Entry) (s : State) : PinsOnly s (sequence i l s) := rfl

theorem drivePin (i : Nat) (level : Bool) (t : Nat) (s : State) : PinsOnly s (drivePin i level t s) :=
  ite (of_outs rfl) ((of_outs (by simp [apply_ite State.outs])).trans (updPin _ i _))

theorem floatPin (i : Nat) (s : State) : PinsOnly s (floatPin i s) :=
  (of_outs (by simp [apply_ite State.outs])).trans (updPin _ i _)

theorem placeEntry (i : Nat) (e : Entry) (s : State) : PinsOnly s (placeEntry i e s) := by
  obtain ⟨t, level, late⟩ := e
  unfold Machine.placeEntry
  refine ite (of_outs rfl) ?_
  cases late <;> exact (of_outs (by simp [apply_ite State.outs])).trans (drivePin ..)

theorem placeNow (i : Nat) (e : Entry) (s : State) : PinsOnly s (placeNow i e s) := ite (sequence ..) (placeEntry ..)

theorem settleLatch (g : Nat) (s : State) : PinsOnly s (settleLatch g s) :=
  ite (floatPin ..) (ite (of_outs rfl) (drivePin ..))

end PinsOnly

end Sys2Proof.Machine
end

section
/-!
SUPPORT. What the parts of a shift do to the strand ports, the pins and the statistics: the frame skipped or sent, the words read, the square
check, the shift begun and its end.
-/
namespace Sys2Proof.Machine
open Sys2Proof

@[simp] theorem putEff_outs (p : Nat) (e : Nat × Nat) (s : State) : (putEff p e s).outs = s.outs := by
  simp [putEff, apply_ite State.outs]

@[simp] theorem refresh_outs (p : Nat) (s : State) : (refresh p s).outs = s.outs := by
  unfold refresh
  split
  · split
    · simp
    · exact foldl_outs (fun t i => by simp [apply_ite State.outs]) _ s
  · simp

/-! ### The square check (R125 to R127) -/

@[simp] theorem sqcResult_strands (n fn : Nat) (s : State) : (sqcResult n fn s).outs.strands = s.outs.strands := by
  simp [sqcResult, updRect, apply_ite State.outs, apply_ite OutState.strands]

@[simp] theorem sqcResult_pins (n fn : Nat) (s : State) : (sqcResult n fn s).outs.pins = s.outs.pins := by
  simp [sqcResult, updRect, apply_ite State.outs, apply_ite OutState.pins]

/-- What noting the frame last checked and each rectangle's result keep, the square check keeps. -/
theorem sqcPort_induct {P : State → Prop} {p fn : Nat} {s : State} (hs : P s) (noted : P (updStrand s p fun k => { k with sqcFn := some fn }))
    (result : ∀ (t : State) (n : Nat) (f : Rect → Rect), n < 16 → P t → P (sqcResult n fn (updRect t n f))) (mark : Nat)
    (pixel : Nat → List Bool) : P (sqcPort p fn mark pixel s) := by
  unfold sqcPort
  split
  · exact hs
  · refine List.foldlRecOn _ _ noted fun t h n hn => ?_
    dsimp only
    split
    · exact h
    · exact result t n _ (List.mem_range.1 hn) h

/-- The square check leaves the pins. -/
@[simp] theorem sqcPort_pins (p fn mark : Nat) (pixel : Nat → List Bool) (s : State) : (sqcPort p fn mark pixel s).outs.pins = s.outs.pins :=
  sqcPort_induct (P := fun t => t.outs.pins = s.outs.pins) rfl rfl (fun _ _ _ _ h => (sqcResult_pins ..).trans h) mark pixel

/-- The square check leaves whether a port shifts. -/
theorem sqcPort_shifting (p fn mark : Nat) (pixel : Nat → List Bool) (s : State) (q : Nat) :
    (strand (sqcPort p fn mark pixel s) q).shifting = (strand s q).shifting := by
  refine sqcPort_induct (P := fun t => (strand t q).shifting = (strand s q).shifting) rfl
    (strand_updStrand_proj Strand.shifting (by simp) s p q) (fun t n f _ h => ?_) mark pixel
  rw [strand_of_strands (sqcResult_strands ..)]
  exact h

/-- The skips of a port are counted below the pages that an event counts on. -/
theorem skips_below_events {q : Nat} (hq : q < 64) : State.statKey (pgSTD q) F.STD_st_SKIPS 0 < regKey pgEVC 0 * 32 := by
  simp only [State.statKey, regKey, F.STD_st_SKIPS, pgSTD, pgEVC]; omega

/-- A rectangle's result leaves how often a strand port skipped. -/
theorem sqcResult_skips {n : Nat} (hn : n < 16) (fn : Nat) (s : State) {q : Nat} (hq : q < 64) :
    (sqcResult n fn s).stat (pgSTD q) F.STD_st_SKIPS = s.stat (pgSTD q) F.STD_st_SKIPS := by
  have matched : State.statKey (pgSTD q) F.STD_st_SKIPS 0 ≠ State.statKey pgSQC F.SQC_st_ST_MATCHES n := by
    simp only [State.statKey, regKey, F.STD_st_SKIPS, F.SQC_st_ST_MATCHES, pgSTD, pgSQC]; omega
  have mismatched : State.statKey (pgSTD q) F.STD_st_SKIPS 0 ≠ State.statKey pgSQC F.SQC_st_ST_MISMATCHES n := by
    simp only [State.statKey, regKey, F.STD_st_SKIPS, F.SQC_st_ST_MISMATCHES, pgSTD, pgSQC]; omega
  unfold sqcResult
  extract_lets get r first ports parts bytes c expect code crc result counted
  split
  · rfl
  · have hc : counted.stat (pgSTD q) F.STD_st_SKIPS = s.stat (pgSTD q) F.STD_st_SKIPS := by
      unfold counted
      split
      · rw [stat_bump_ne _ matched]; rfl
      · rfl
    split
    · rw [stat_evt _ _ _ (skips_below_events hq), stat_bump_ne _ mismatched, hc]
    · exact hc

/-- The square check leaves how often a strand port skipped. -/
theorem sqcPort_skips (p fn mark : Nat) (pixel : Nat → List Bool) (s : State) {q : Nat} (hq : q < 64) :
    (sqcPort p fn mark pixel s).stat (pgSTD q) F.STD_st_SKIPS = s.stat (pgSTD q) F.STD_st_SKIPS :=
  sqcPort_induct (P := fun t => t.stat (pgSTD q) F.STD_st_SKIPS = s.stat (pgSTD q) F.STD_st_SKIPS) rfl rfl
    (fun _ _ _ hn h => (sqcResult_skips hn _ _ hq).trans h) mark pixel

/-! ### A frame skipped, sent or read -/

/-- A skipped frame leaves whether the port shifts. -/
theorem skipFrame_shifting (p n : Nat) (nofit : Bool) (s : State) (q : Nat) :
    (strand (skipFrame p n nofit s) q).shifting = (strand s q).shifting := by
  refine (strand_updStrand_proj Strand.shifting (by simp) _ p q).trans (congrArg Strand.shifting (strand_of_outs ?_ q))
  simp [apply_ite State.outs]

/-- A skipped frame counts once. -/
theorem skipFrame_skips {p : Nat} (hp : p < 64) (n : Nat) (nofit : Bool) (s : State) :
    (skipFrame p n nofit s).stat (pgSTD p) F.STD_st_SKIPS = min 0xFFFFFFFF (s.stat (pgSTD p) F.STD_st_SKIPS + 1) := by
  have nofits : State.statKey (pgSTD p) F.STD_st_SKIPS 0 ≠ State.statKey (pgSTD p) F.STD_st_NOFIT 0 := by
    simp only [State.statKey, regKey, F.STD_st_SKIPS, F.STD_st_NOFIT]; omega
  unfold skipFrame
  rw [updStrand_stat]
  split
  · rw [stat_evt _ _ _ (skips_below_events hp), stat_bump_ne _ nofits, stat_evt _ _ _ (skips_below_events hp), stat_bump_same]
  · rw [stat_evt _ _ _ (skips_below_events hp), stat_bump_same]

@[simp] theorem pipelineBack_strands_length (p : Nat) (s : State) : (pipelineBack p s).outs.strands.length = s.outs.strands.length := by
  unfold pipelineBack
  split <;> simp

@[simp] theorem sent_strands_length (p n : Nat) (s : State) : (sent p n s).outs.strands.length = s.outs.strands.length := by
  simp [sent]

theorem strand_sent {p : Nat} {s : State} (h : p < s.outs.strands.length) (n : Nat) : (strand (sent p n s) p).shownFn = n := by
  rw [sent, strand_updStrand_same (by simpa using h)]

@[simp] theorem readWords_strands_length (p : Nat) (k : Strand) (q : Word) (s : State) :
    (readWords p k q s).1.outs.strands.length = s.outs.strands.length := by
  unfold readWords
  extract_lets base err one
  have read : ∀ (l : List Nat) (x : State × List Nat), (l.foldl one x).1.outs = x.1.outs := fun l x =>
    foldl_fst_outs (fun x w => by
      unfold one err
      dsimp only
      split
      · rfl
      · split <;> simp) l x
  simp [read]

/-! ### A shift begun and ended -/

/-- A shift begun on a port: its frame and its codes, and what the port shows as before. -/
theorem beginShift_strand {p : Nat} {s : State} (h : p < s.outs.strands.length) (n : Nat) (t0 : Rat) (ovr : Bool) (codes : List Nat) :
    (strand (beginShift p n t0 ovr codes s) p).shifting = true ∧ (strand (beginShift p n t0 ovr codes s) p).codes = codes ∧
      (strand (beginShift p n t0 ovr codes s) p).shiftFn = n ∧
      (strand (beginShift p n t0 ovr codes s) p).shownFn = (strand s p).shownFn := by
  unfold beginShift
  extract_lets k t
  have supplied : t.outs.strands = s.outs.strands := (PinsOnly.foldl (fun s ⟨j, l⟩ => PinsOnly.sequence _ l s) _ s).strands
  rw [strand_updStrand_same (by rwa [supplied])]
  exact ⟨rfl, rfl, rfl, by rw [← strand_of_strands supplied p]⟩

/-- The words read back leave the pins, and whether a port shifts. -/
theorem readBack_frame (p : Nat) (ret : List Bool) (s : State) :
    (readBack p ret s).outs.pins = s.outs.pins ∧ ∀ q, (strand (readBack p ret s) q).shifting = (strand s q).shifting := by
  unfold readBack
  extract_lets k ws base t good
  have written : t.outs = s.outs := foldl_outs (fun s ⟨⟨_, _⟩, _⟩ => wr'_outs ..) _ s
  split
  · exact ⟨rfl, fun _ => rfl⟩
  · refine ⟨(updStrand_pins ..).trans (congrArg OutState.pins written), fun q => ?_⟩
    rw [strand_updStrand_proj Strand.shifting (by simp), strand_of_outs written]

/-- A port in one of the modes that shift (R178). -/
def ShiftMode (k : Strand) : Prop := k.kind = 1 ∨ k.kind = 2 ∨ k.kind = 6

theorem shiftBegin_of_not_shiftMode {p : Nat} {s : State} (h : ¬ ShiftMode (strand s p)) : shiftBegin p s = s := by
  rw [ShiftMode] at h
  exact if_pos (by omega)

section
variable {p n : Nat} {q : Word} {s : State}

theorem shiftBegin_of_none (hn : portNext s p = (n, q)) (hc : contentOf s p n q = .none) : shiftBegin p s = s := by
  unfold shiftBegin
  simp only [hn, hc, ite_self]

variable (hk : ShiftMode (strand s p)) (hn : portNext s p = (n, q))
include hk hn

theorem shiftBegin_of_skip {nf : Bool} (hc : contentOf s p n q = .skip nf) :
    shiftBegin p s = sqcPort p n 1 (fun _ => []) (skipFrame p n nf s) := by
  rw [ShiftMode] at hk
  rw [shiftBegin, if_neg (by omega)]
  simp only [hn, hc]

/-- A skipped frame leaves whether the port shifts, and counts. -/
theorem shiftBegin_skip {nf : Bool} (hc : contentOf s p n q = .skip nf) (hp : p < 64) :
    (strand (shiftBegin p s) p).shifting = (strand s p).shifting ∧
      (shiftBegin p s).stat (pgSTD p) F.STD_st_SKIPS = min 0xFFFFFFFF (s.stat (pgSTD p) F.STD_st_SKIPS + 1) := by
  rw [shiftBegin_of_skip hk hn hc]
  exact ⟨(sqcPort_shifting ..).trans (skipFrame_shifting ..), (sqcPort_skips _ _ _ _ _ hp).trans (skipFrame_skips hp ..)⟩

variable (hp : p < s.outs.strands.length)
include hp

/-- Codes of the port's own are shifted. -/
theorem shiftBegin_codes {c : List Nat} (hc : contentOf s p n q = .codes c) :
    (strand (shiftBegin p s) p).shifting = true ∧ (strand (shiftBegin p s) p).codes = c ∧ (strand (shiftBegin p s) p).shiftFn = n := by
  have begun : ∀ t0 ovr (t : State), p < t.outs.strands.length → (strand (beginShift p n t0 ovr c t) p).shifting = true ∧
      (strand (beginShift p n t0 ovr c t) p).codes = c ∧ (strand (beginShift p n t0 ovr c t) p).shiftFn = n := fun t0 ovr t ht =>
    have ⟨shifting, codes, fn, _⟩ := beginShift_strand ht n t0 ovr c
    ⟨shifting, codes, fn⟩
  rw [ShiftMode] at hk
  rw [shiftBegin, if_neg (by omega)]
  simp only [hn, hc]
  split
  · exact begun _ _ _ (by simpa using hp)
  · exact begun _ _ _ hp

/-- The prepared frame is shifted, and counts as taken up. -/
theorem shiftBegin_prepared (hc : contentOf s p n q = .prepared) :
    (strand (shiftBegin p s) p).shifting = true ∧ (strand (shiftBegin p s) p).shiftFn = n ∧ (strand (shiftBegin p s) p).shownFn = n := by
  rw [ShiftMode] at hk
  rw [shiftBegin, if_neg (by omega)]
  simp only [hn, hc]
  obtain ⟨shifting, -, fn, shown⟩ := beginShift_strand
    (s := sent p n (readWords p (strand s p) q (pipelineBack p s)).1) (by simpa using hp) n (shiftStart s (strand s p) (portGroup s p) n q) false
    (readWords p (strand s p) q (pipelineBack p s)).2
  exact ⟨shifting, fn, shown.trans (strand_sent (by simpa using hp) n)⟩

end

theorem shiftEnd_of_idle {p : Nat} {s : State} (h : (strand s p).shifting = false) (ret : List Bool) (seen : Option (List Nat)) :
    shiftEnd p ret seen s = s := by
  simp [shiftEnd, h]

/-- The end of a shift leaves the port not shifting, and the pins as they were. -/
theorem shiftEnd_of_shifting {p : Nat} {s : State} (hp : p < s.outs.strands.length) (h : (strand s p).shifting = true) (ret : List Bool)
    (seen : Option (List Nat)) :
    (strand (shiftEnd p ret seen s) p).shifting = false ∧ (shiftEnd p ret seen s).outs.pins = s.outs.pins := by
  unfold shiftEnd
  extract_lets k ended back bits
  have stopped : (strand back p).shifting = false ∧ back.outs.pins = s.outs.pins := by
    obtain ⟨pins, shifting⟩ := readBack_frame p ret ended
    exact ⟨by rw [shifting, strand_updStrand_same hp], pins⟩
  rw [if_neg (by simp [k, h])]
  split
  · exact stopped
  · rwa [sqcPort_shifting, sqcPort_pins]

end Sys2Proof.Machine
end

section
/-!
SUPPORT. What EDGE_PLACE does with the entry at the head of a placer's queue (R167, R169, R198), the end of a latch pulse (R179), the check of
a pin (R172), a strand prepared (R22) and a word whose read missed (R176).
-/
namespace Sys2Proof.Machine
open Sys2Proof

/-! ### The head of a placer's queue (R167) -/

/-- A pin whose head entry has been taken: the sequencer supplies the next. -/
def popHead (i : Nat) (rest : List Entry) (s : State) : State :=
  updPin s i fun p => { p with queue := rest ++ p.feed.take 1, feed := p.feed.drop 1 }

section
variable {i : Nat} {e : Entry} {rest : List Entry} {s : State}

theorem pinOf_popHead (h : i < s.outs.pins.length) :
    pinOf (popHead i rest s) i = { pinOf s i with queue := rest ++ (pinOf s i).feed.take 1, feed := (pinOf s i).feed.drop 1 } :=
  pinOf_updPin_same h _

theorem placeHead_of_idle (h : (pinOf s i).queue = [] ∨ bankHeld s (bankOf i) = true) : placeHead i s = s := by
  unfold placeHead
  dsimp only
  split
  · rfl
  · next hq => exact if_pos (h.resolve_left (by simp [hq]))

theorem placeHead_cons (hq : (pinOf s i).queue = e :: rest) (hb : bankHeld s (bankOf i) = false) :
    placeHead i s = placeEntry i e (popHead i rest s) := by
  unfold placeHead
  simp only [hq, hb]
  rfl

/-- A level that the pin has already makes no edge. -/
theorem placeEntry_same (h : (pinOf s i).level = some e.level) : placeEntry i e s = s := if_pos (.inr (.inl h))

/-- The other level is an edge at the entry's instant, where nothing delays it. -/
theorem placeEntry_edge (h : (pinOf s i).level = some (!e.level)) (hr : inRun s pgEDGE = true) (hl : e.late = none)
    (hw : (pinOf s i).window = none) (ht : (pinOf s i).last = none) : placeEntry i e s = drivePin i e.level e.t s := by
  simp [placeEntry, h, hr, hl, hw, ht]

/-- An edge of a driven pin, on the tap that its table names. -/
theorem drivePin_edge {level : Bool} (h : (pinOf s i).level = some (!level)) (t : Nat) :
    drivePin i level t s = (updPin (s.bump pgEDGE F.EDGE_st_EDGES) i fun p => { p with level := some level, last := some t }).emit
      (.pin i level (BitVec.ofNat 32 (t / 16)) (t % 16) ((tapTable s i).remap.getD (t % 16) 0)) := by
  simp [drivePin, h, tapTable]

/-! ### EDGE_PLACE -/

theorem edgePlace_of_idle (h : (pinOf s i).queue = [] ∨ bankHeld s (bankOf i) = true) (seen : Option (List Byte)) : edgePlace i seen s = s := by
  unfold edgePlace
  rw [placeHead_of_idle h]
  exact if_pos (by rcases h with h | h <;> simp [h])

/-- The placement of an entry that ends nothing is all that happens. -/
theorem edgePlace_of_plain (hp : PlainEntry i rest s) {t : State} (ht : placeHead i s = t)
    (tq : (pinOf t i).queue = rest ++ (pinOf s i).feed.take 1) (tr : t.regs = s.regs) (ts : t.outs.strands = s.outs.strands)
    (seen : Option (List Byte)) : edgePlace i seen s = t := by
  unfold edgePlace
  rw [ht]
  dsimp only
  split
  · rfl
  · next h =>
    simp only [not_or, tq] at h
    obtain ⟨strandPin, -, last, -⟩ := h
    obtain ⟨notDmx, notPanel⟩ := (hp.resolve_left strandPin).resolve_left fun waits => last (by simp [waits])
    simp only [gangLead_congr tr ts, strand_of_strands ts, notDmx, notPanel, false_and, if_false]

variable (hq : (pinOf s i).queue = e :: rest) (hb : bankHeld s (bankOf i) = false)
include hq hb

/-- A level that the pin has already: the entry is taken, and nothing else happens. -/
theorem edgePlace_same (hp : PlainEntry i rest s) (hl : (pinOf s i).level = some e.level) (hi : i < s.outs.pins.length)
    (seen : Option (List Byte)) : edgePlace i seen s = popHead i rest s := by
  refine edgePlace_of_plain hp ?_ (congrArg Pin.queue (pinOf_popHead hi)) rfl rfl seen
  rw [placeHead_cons hq hb, placeEntry_same (by rw [pinOf_popHead hi]; exact hl)]

section Edge
variable (hp : PlainEntry i rest s) (hl : (pinOf s i).level = some (!e.level)) (hi : i < s.outs.pins.length) (hr : inRun s pgEDGE = true)
  (he : e.late = none) (hw : (pinOf s i).window = none) (ht : (pinOf s i).last = none) (seen : Option (List Byte))
include hp hl hi hr he hw ht

/-- The other level: an edge at the entry's instant, where nothing delays it. -/
theorem edgePlace_edge : edgePlace i seen s = (updPin ((popHead i rest s).bump pgEDGE F.EDGE_st_EDGES) i fun p =>
    { p with level := some e.level, last := some e.t }).emit
      (.pin i e.level (BitVec.ofNat 32 (e.t / 16)) (e.t % 16) ((tapTable s i).remap.getD (e.t % 16) 0)) := by
  have popped := pinOf_popHead (rest := rest) hi
  have level : (pinOf (popHead i rest s) i).level = some (!e.level) := by rw [popped]; exact hl
  refine edgePlace_of_plain hp ?placed ?queue ?regs ?strands seen
  case placed =>
    rw [placeHead_cons hq hb, placeEntry_edge level hr he (by rw [popped]; exact hw) (by rw [popped]; exact ht)]
    exact drivePin_edge level e.t
  case queue =>
    refine Eq.trans ?_ (congrArg Pin.queue popped)
    exact (congrArg Pin.queue (pinOf_updPin_same (by simpa [popHead] using hi) _)).trans (by rw [pinOf, bump_outs, pinOf])
  case regs => exact bump_regs ..
  case strands => exact ((PinsOnly.of_outs (bump_outs (popHead i rest s) ..)).trans (PinsOnly.updPin ..)).strands

/-- What that edge leaves of the pin, and what goes out. -/
theorem edgePlace_edge_pin :
    (pinOf (edgePlace i seen s) i).level = some e.level ∧ (pinOf (edgePlace i seen s) i).last = some e.t ∧
      (edgePlace i seen s).out =
        s.out ++ [.pin i e.level (BitVec.ofNat 32 (e.t / 16)) (e.t % 16) ((tapTable s i).remap.getD (e.t % 16) 0)] := by
  have moved := pinOf_updPin_same (s := (popHead i rest s).bump pgEDGE F.EDGE_st_EDGES) (by simpa [popHead] using hi)
    fun p => { p with level := some e.level, last := some e.t }
  rw [edgePlace_edge hq hb hp hl hi hr he hw ht seen]
  exact ⟨congrArg Pin.level moved, congrArg Pin.last moved, congrArg (· ++ _) (bump_out (popHead i rest s) ..)⟩

end Edge

section Turn
variable {p : Nat} (hpin : i = 2 * p + 1) (h64 : p < 64) (hi : i < s.outs.pins.length) (lead : gangLead s p = none)
  (kind : (strand s p).kind = 5) (sending : (strand s p).rdm = .sending) (only : rest = []) (feed : (pinOf s i).feed = [])
  (hl : (pinOf s i).level = some e.level) (low : e.level = pinLevel (strand s p) 1 false) (seen : Option (List Byte))
include hpin h64 hi lead kind sending only feed hl low

/-- Pin B of a DMX port that turns low after a request makes pin A an input (R198). -/
theorem edgePlace_turn :
    edgePlace i seen s = floatPin (2 * p) (updStrand (popHead i [] s) p fun k => { k with rdm := .listening }) := by
  subst only
  have popped := pinOf_popHead (rest := []) hi
  have placed : placeHead i s = popHead i [] s := by rw [placeHead_cons hq hb, placeEntry_same (by rw [popped]; exact hl)]
  have half : i / 2 = p := by omega
  have odd : i % 2 = 1 := by omega
  have lead' : gangLead (popHead i [] s) p = none := (gangLead_congr rfl rfl p).trans lead
  have strand' : strand (popHead i [] s) p = strand s p := rfl
  unfold edgePlace
  rw [placed]
  dsimp only
  rw [if_neg (by simp [popped, feed, hq, hb]; omega)]
  simp [half, odd, lead', strand', kind, popped, hl, low, rdmListen, sending]

/-- What that turn leaves of the port and of its pin A. -/
theorem edgePlace_turn_port (hp : p < s.outs.strands.length) :
    (strand (edgePlace i seen s) p).rdm = .listening ∧ (pinOf (edgePlace i seen s) (2 * p)).level = none := by
  rw [edgePlace_turn hq hb hpin h64 hi lead kind sending only feed hl low seen]
  constructor
  · rw [strand_of_strands (PinsOnly.floatPin ..).strands]
    exact congrArg Strand.rdm (strand_updStrand_same (s := popHead i [] s) hp _)
  · refine pinOf_floatPin ?_
    simp [popHead]
    omega

end Turn

end

/-! ### The other instants of a pin, a strand and a latch group -/

/-- A pin that reads back as it is driven, or that is not checked. -/
theorem pinCheck_of_right {i : Nat} {seen : Bool} {s : State}
    (h : s.get pgEDGE F.EDGE_BANKCFG_PINCHK / 2 ^ bankOf i % 2 = 0 ∨ (pinOf s i).level = some seen) : pinCheck i seen s = s :=
  if_pos (by rcases h with h | h <;> simp [h])

/-- A checked pin that reads back wrong is counted on EDGE. -/
theorem pinCheck_wrong {i : Nat} {seen : Bool} {s : State} (on : s.get pgEDGE F.EDGE_BANKCFG_PINCHK / 2 ^ bankOf i % 2 = 1)
    (h : (pinOf s i).level = some (!seen)) :
    (pinCheck i seen s).stat pgEDGE F.EDGE_st_PINERR = min 0xFFFFFFFF (s.stat pgEDGE F.EDGE_st_PINERR + 1) := by
  have low : State.statKey pgEDGE F.EDGE_st_PINERR 0 < regKey pgEVC 0 * 32 := by decide
  have port (p : Nat) : State.statKey pgEDGE F.EDGE_st_PINERR 0 ≠ State.statKey (pgSTD p) F.STD_st_PINERR 0 := by
    simp only [State.statKey, regKey, F.EDGE_st_PINERR, F.STD_st_PINERR, pgEDGE, pgSTD]; omega
  unfold pinCheck
  dsimp only
  rw [if_neg (by simp [on, h])]
  split
  · rw [stat_evt _ _ _ low, stat_bump_ne _ (port _), stat_evt _ _ _ low, stat_bump_same]
  · rw [stat_evt _ _ _ low, stat_bump_same]

theorem latchPulseEnd_of_low {g : Nat} {s : State} (h : (s.outs.latch.getD g {}).high = false) : latchPulseEnd g s = s :=
  if_pos (by rw [h]; rfl)

/-- A latch group's pulse ends. -/
theorem latchPulseEnd_latch {g : Nat} {s : State} (hg : g < s.outs.latch.length) (h : (s.outs.latch.getD g {}).high = true) :
    (latchPulseEnd g s).outs.latch.getD g {} = { s.outs.latch.getD g {} with high := false } := by
  unfold latchPulseEnd
  dsimp only
  rw [if_neg (by rw [h]; decide), (PinsOnly.settleLatch ..).latch]
  simp [(PinsOnly.placeNow ..).latch, hg]

theorem strandPrepared_of_idle {p : Nat} {s : State} (h : preparesOn s = false ∨ s.outs.preparing = false ∨ (strand s p).spoiled = true) :
    strandPrepared p s = s :=
  if_pos (by rcases h with h | h | h <;> simp [h])

/-- A strand whose last entry has passed is prepared for the frame in progress, and no pin moves. -/
theorem strandPrepared_strand {p : Nat} {s : State} (hp : p < s.outs.strands.length) (on : preparesOn s = true) (hf : s.outs.preparing = true)
    (takes : takesFrames s p = true) (whole : (strand s p).spoiled = false) (last : (strand s p).pos = s.get pgMAP F.MAP_SEG_COUNT p)
    (new : (strand s p).prep.contains s.time.seq = false) :
    (strand (strandPrepared p s) p).prep = s.time.seq :: (strand s p).prep ∧ (strandPrepared p s).outs.pins = s.outs.pins := by
  have prepared := strand_updStrand_same hp fun k => { k with prep := s.time.seq :: k.prep }
  unfold strandPrepared
  dsimp only
  rw [if_neg (by simp [on, hf, takes, whole, last]; simpa using new)]
  split <;> exact ⟨congrArg Strand.prep prepared, rfl⟩

theorem wordMiss_of_idle {p w : Nat} {s : State} (h : (strand s p).words ≤ w ∨ (strand s p).mode ≠ 2) : wordMiss p w s = s := if_pos h

/-- A word whose read missed is kept for the next frame. -/
theorem wordMiss_strand {p w : Nat} {s : State} (hp : p < s.outs.strands.length) (hw : w < (strand s p).words) (hm : (strand s p).mode = 2)
    (idle : (strand s p).shifting = false) : (strand (wordMiss p w s) p).missWords = w :: (strand s p).missWords := by
  unfold wordMiss
  dsimp only
  rw [if_neg (by simp [hm]; omega), if_pos (by simp [idle]), strand_updStrand_same (by simpa using hp),
    strand_of_outs (by simp : _ = s.outs)]

end Sys2Proof.Machine
end

section
/-!
SUPPORT. The commands of strands and pins (chapters 1 and 6): what one makes of a state is what its operation makes of the state with nothing
sent out yet.
-/
namespace Sys2Proof.Machine
open Sys2Proof

theorem exec_strandPrepared (p : Fin 64) (s : State) : exec (.strandPrepared p) s = .next (strandPrepared p s.quiet) := rfl

theorem exec_shiftStart (p : Fin 64) (s : State) : exec (.shiftStart p) s = .next (shiftBegin p s.quiet) := rfl

theorem exec_shiftEnd (p : Fin 64) (ret : List Bool) (seen : Option (List Nat)) (s : State) :
    exec (.shiftEnd p ret seen) s = .next (shiftEnd p ret seen s.quiet) := rfl

theorem exec_latchPulseEnd (g : Fin 16) (s : State) : exec (.latchPulseEnd g) s = .next (latchPulseEnd g s.quiet) := rfl

theorem exec_edgePlace (i : Fin 144) (seen : Option (List Byte)) (s : State) :
    exec (.edgePlace (i, seen)) s = .next (edgePlace i seen s.quiet) := rfl

theorem exec_pinCheckSample (i : Fin 144) (seen : Bool) (s : State) : exec (.pinCheckSample i seen) s = .next (pinCheck i seen s.quiet) := rfl

theorem exec_wordReadMiss (p : Fin 64) (w : Nat) (s : State) : exec (.wordReadMiss p w) s = .next (wordMiss p w s.quiet) := rfl

/-- The next frame of a port and its content do not depend on what has been sent out. -/
theorem contentOf_next_quiet (s : State) (p : Nat) : contentOf s.quiet p (portNext s.quiet p).1 (portNext s.quiet p).2 =
    contentOf s p (portNext s p).1 (portNext s p).2 := rfl

/-- Settles O21, command by command from what each one's operation does to the strand ports, the pins and the latch groups. -/
theorem shiftsAndPins : Obligations.ShiftsAndPins := by
  refine ⟨?notPrepared, ?prepared, ?noShift, ?codes, ?shift, ?skip, ?noShiftEnd, ?shiftEnd, ?noPulse, ?pulseEnd, ?noPlace, ?sameLevel,
    ?edge, ?turn, ?pinRight, ?pinWrong, ?noMiss, ?miss⟩
  case notPrepared =>
    intro p s h
    rw [exec_strandPrepared, strandPrepared_of_idle (s := s.quiet) h]
  case prepared =>
    intro p s hs on hf takes whole last new
    exact ⟨_, exec_strandPrepared p s, strandPrepared_strand (s := s.quiet) (hs.symm ▸ p.isLt) on hf takes whole last new⟩
  case noShift =>
    rintro p s (⟨h1, h2, h6⟩ | hc)
    · rw [exec_shiftStart, shiftBegin_of_not_shiftMode (s := s.quiet) (not_or.2 ⟨h1, not_or.2 ⟨h2, h6⟩⟩)]
    · rw [exec_shiftStart, shiftBegin_of_none (s := s.quiet) rfl ((contentOf_next_quiet s p).trans hc)]
  case codes =>
    intro p c s hs hk hc
    exact ⟨_, exec_shiftStart p s, shiftBegin_codes (s := s.quiet) hk rfl (hs.symm ▸ p.isLt) ((contentOf_next_quiet s p).trans hc)⟩
  case shift =>
    intro p s hs hk hc
    exact ⟨_, exec_shiftStart p s, shiftBegin_prepared (s := s.quiet) hk rfl (hs.symm ▸ p.isLt) ((contentOf_next_quiet s p).trans hc)⟩
  case skip =>
    intro p nf s _ _ hk hc
    exact ⟨_, exec_shiftStart p s, shiftBegin_skip (s := s.quiet) hk rfl ((contentOf_next_quiet s p).trans hc) p.isLt⟩
  case noShiftEnd =>
    intro p ret seen s h
    rw [exec_shiftEnd, shiftEnd_of_idle (s := s.quiet) h]
  case shiftEnd =>
    intro p ret seen s hs h
    exact ⟨_, exec_shiftEnd p ret seen s, shiftEnd_of_shifting (s := s.quiet) (hs.symm ▸ p.isLt) h ret seen⟩
  case noPulse =>
    intro g s h
    rw [exec_latchPulseEnd, latchPulseEnd_of_low (s := s.quiet) h]
  case pulseEnd =>
    intro g s hl h
    exact ⟨_, exec_latchPulseEnd g s, latchPulseEnd_latch (s := s.quiet) (hl.symm ▸ g.isLt) h⟩
  case noPlace =>
    intro i seen s h
    rw [exec_edgePlace, edgePlace_of_idle (s := s.quiet) h]
  case sameLevel =>
    intro i seen e rest s hq hb hp hl hn
    rw [exec_edgePlace, edgePlace_same (s := s.quiet) hq hb hp hl (hn.symm ▸ i.isLt)]
    rfl
  case edge =>
    intro i seen e rest s hq hb hp hl hn hr he hw ht
    exact ⟨_, exec_edgePlace i seen s, edgePlace_edge_pin (s := s.quiet) hq hb hp hl (hn.symm ▸ i.isLt) hr he hw ht seen⟩
  case turn =>
    intro i seen e s h128 odd hs hn lead kind sending hq feed hb hl low
    have hpin : i.val = 2 * (i.val / 2) + 1 := by omega
    have pinA : i.val - 1 = 2 * (i.val / 2) := by omega
    have h64 : i.val / 2 < 64 := by omega
    rw [pinA]
    exact ⟨_, exec_edgePlace i seen s, edgePlace_turn_port (s := s.quiet) hq hb hpin h64 (hn.symm ▸ i.isLt) lead kind sending rfl feed
      (hl.trans (congrArg some low.symm)) low seen (hs.symm ▸ h64)⟩
  case pinRight =>
    intro i seen s h
    rw [exec_pinCheckSample, pinCheck_of_right (s := s.quiet) h]
  case pinWrong =>
    intro i seen s _ on h
    exact ⟨_, exec_pinCheckSample i seen s, pinCheck_wrong (s := s.quiet) on h⟩
  case noMiss =>
    intro p w s h
    rw [exec_wordReadMiss, wordMiss_of_idle (s := s.quiet) h]
  case miss =>
    intro p w s hs hw hm idle
    exact ⟨_, exec_wordReadMiss p w s, wordMiss_strand (s := s.quiet) (hs.symm ▸ p.isLt) hw hm idle⟩

end Sys2Proof.Machine
end

section
/-!
SUPPORT. ST values on their circle of 2^32 (R31).
-/
namespace Sys2Proof.Machine
open Sys2Proof

/-- The distance from one ST value to another, onwards round the circle. -/
theorem st_sub_toNat (b a : Word) : (b - a).toNat = (b.toNat + 2 ^ 32 - a.toNat) % 2 ^ 32 := by
  rw [BitVec.toNat_sub]
  congr 1
  have := a.isLt
  omega

theorem stLater_iff (b a : Word) : stLater b a = true ↔ 1 ≤ (b - a).toNat ∧ (b - a).toNat < 2 ^ 31 := by
  simp [stLater]

theorem stPast_iff (x now : Word) : stPast x now = true ↔ (now - x).toNat < 2 ^ 31 := by
  simp [stPast]

theorem st_sub_eq_zero_iff (b a : Word) : (b - a).toNat = 0 ↔ b = a := by
  rw [← BitVec.toNat_inj, st_sub_toNat]
  have := a.isLt
  have := b.isLt
  omega

/-- From a time some way ahead of now it is the rest of the circle to now. -/
theorem st_sub_ahead (now : Word) {d : Nat} (h0 : 0 < d) (h : d < 2 ^ 32) : (now - (now + BitVec.ofNat 32 d)).toNat = 2 ^ 32 - d := by
  rw [st_sub_toNat, BitVec.toNat_add, BitVec.toNat_ofNat]
  have := now.isLt
  omega

/-- Settles O11: all four comparisons are read off the distance round the circle. -/
theorem shortTime : Obligations.ShortTime := by
  unfold Obligations.ShortTime
  simp only [← st_sub_toNat]
  refine ⟨fun a b => ?later, fun a b => st_sub_eq_zero_iff b a, fun a b => ?earlier, fun x now => stPast_iff x now, fun now d h0 h => ?near,
    fun now d h0 h => ?far⟩
  case later =>
    rw [stLater_iff]
    omega
  case earlier =>
    rw [← Bool.not_eq_true, stLater_iff, Ne, ← st_sub_eq_zero_iff b a]
    omega
  case near =>
    rw [← Bool.not_eq_true, stPast_iff, st_sub_ahead now h0 (by omega)]
    omega
  case far =>
    rw [stPast_iff, st_sub_ahead now (by omega) h]
    omega

end Sys2Proof.Machine
end

section
/-!
SUPPORT. A hold of statistics that a T_end ends (R88) latches whatever the running statistics list, and where one is listed at the place of
MODE the latch overwrites the mode that T_end has put in force.
-/
namespace Sys2Proof.Machine
open Sys2Proof

theorem exec_modeChangeTEnd (s : State) : exec .modeChangeTEnd s = .next (modeChangeEnd s.quiet) := rfl

/-- Outputs are enabled, mode 10 is requested, a hold of statistics has one latch left, and the running statistics list a 0 at the place of
TIME's MODE. The stores are in canonical form, which for the statistics asks only that their places rise: no command puts one there. -/
def heldModeChange : State :=
  { State.reset with
    boot := { State.reset.boot with outEn := true }
    cmt := { State.reset.cmt with holdLeft := 1 }
    regs := [(regKey pgTIME 0x040, 0x1090A#32)]
    ctr := [(State.statKey pgTIME F.TIME_MODE_REQIDX 0, 0)] }

theorem heldModeChange_storesOk : StoresOk heldModeChange := ⟨by unfold RegFileOk; decide +kernel, rfl, rfl, rfl⟩

theorem heldModeChange_request :
    heldModeChange.get pgTIME F.TIME_MODE_REQIDX = 10 ∧ heldModeChange.flag pgTIME F.TIME_MODE_PEND = true := by decide +kernel

/-- T_end puts mode 10 in force, and the latch that ends the hold then leaves 0 in all of MODE. -/
theorem heldModeChange_mode : (modeChangeEnd heldModeChange.quiet).get pgTIME F.TIME_MODE_CURIDX = 0 := by decide +kernel

/-- Refutes O12 in its clause on the T_end of a mode change: in `heldModeChange`, which meets that clause's hypotheses, CURIDX is 0 after T_end
and not the mode requested. -/
theorem not_frameInstants : ¬ Obligations.FrameInstants := by
  unfold Obligations.FrameInstants
  rintro ⟨-, -, -, -, -, -, -, -, modeChange, -, -⟩
  obtain ⟨requested, pending⟩ := heldModeChange_request
  obtain ⟨t, next, cur, -, -⟩ := modeChange heldModeChange heldModeChange_storesOk rfl rfl pending
  have ended : modeChangeEnd heldModeChange.quiet = t := Host.Outcome.next.inj ((exec_modeChangeTEnd _).symm.trans next)
  rw [← ended, heldModeChange_mode, requested] at cur
  exact absurd cur (by decide)

end Sys2Proof.Machine
end

section
/-!
SUPPORT. Fields read after a field is set, and what leaves every register or the canonical stores.
-/
namespace Sys2Proof.Machine
open Sys2Proof

theorem StoresOk.quiet {s : State} (h : StoresOk s) : StoresOk s.quiet := ⟨h.regs, h.staged, h.ctr, h.mem⟩

theorem StoresOk.set {s : State} (h : StoresOk s) (p : Nat) (f : Fld) (v k : Nat) : StoresOk (s.set p f v k) :=
  ⟨regFileOk_regPut _ _ h.regs, h.staged, h.ctr, h.mem⟩

@[simp] theorem quiet_time (s : State) : s.quiet.time = s.time := rfl
@[simp] theorem quiet_boot (s : State) : s.quiet.boot = s.boot := rfl
@[simp] theorem quiet_reg (s : State) (p off : Nat) : s.quiet.reg p off = s.reg p off := rfl
@[simp] theorem quiet_get (s : State) (p : Nat) (f : Fld) (k : Nat) : s.quiet.get p f k = s.get p f k := rfl
@[simp] theorem quiet_flag (s : State) (p : Nat) (f : Fld) (k : Nat) : s.quiet.flag p f k = s.flag p f k := rfl

@[simp] theorem emit_reg (s : State) (o : Out) (p off : Nat) : (s.emit o).reg p off = s.reg p off := rfl
@[simp] theorem emit_get (s : State) (o : Out) (p : Nat) (f : Fld) (k : Nat) : (s.emit o).get p f k = s.get p f k := rfl
@[simp] theorem emit_flag (s : State) (o : Out) (p : Nat) (f : Fld) (k : Nat) : (s.emit o).flag p f k = s.flag p f k := rfl

/-- A field set in a canonical register file reads as the value set, cut to its width. -/
theorem get_set_same {s : State} (h : StoresOk s) (p : Nat) {f : Fld} (hf : f.lsb + f.w ≤ 32) (v k : Nat) :
    (s.set p f v k).get p f k = v % 2 ^ f.w := by
  rw [State.get, State.set, reg_setReg_same h, bitsOf_setBits_same _ _ _ _ hf]

/-- A field set leaves the fields of every other register. -/
theorem get_set_ne (s : State) {p q : Nat} {f g : Fld} {j k : Nat} (h : regKey q (g.off + g.stride * j) ≠ regKey p (f.off + f.stride * k))
    (v : Nat) : (s.set p f v k).get q g j = s.get q g j := by
  rw [State.get, State.set, reg_setReg_ne _ _ _ _ _ _ h, State.get]

/-- A field of the page set in another register leaves the register. -/
theorem reg_set_ne (s : State) {p q off : Nat} {f : Fld} {k : Nat} (h : regKey q off ≠ regKey p (f.off + f.stride * k)) (v : Nat) :
    (s.set p f v k).reg q off = s.reg q off := reg_setReg_ne _ _ _ _ _ _ h

end Sys2Proof.Machine
end

section
/-!
SUPPORT. The time triggers, SNAP and PPS_OUT (R56 to R58, R62): what each operation comes to in each of its cases.
-/
namespace Sys2Proof.Machine
open Sys2Proof

variable {n : Nat} {s : State}

/-! ### A trigger's instant (R56) -/

theorem trigFire_of_disabled (h : s.flag pgTIME F.TIME_TRGCFG_EN n = false) : trigFire n s = s := by
  simp [trigFire, h]

theorem trigFire_of_spent (hk : s.get pgTIME F.TIME_TRGCFG_KIND n = 0) (hn : (trigOf s n).next = none) : trigFire n s = s := by
  simp [trigFire, hk, hn]

theorem trigFire_oneShot {x : Word} (he : s.flag pgTIME F.TIME_TRGCFG_EN n = true) (hk : s.get pgTIME F.TIME_TRGCFG_KIND n = 0)
    (hn : (trigOf s n).next = some x) : trigFire n s = deliver n (updTrig s n fun t => { t with last := t.next, next := none }) := by
  simp [trigFire, he, hk, hn]

theorem trigFire_periodic {x : Word} (he : s.flag pgTIME F.TIME_TRGCFG_EN n = true) (hk : s.get pgTIME F.TIME_TRGCFG_KIND n = 1)
    (hn : (trigOf s n).next = some x) : trigFire n s = deliver n (updTrig s n fun t =>
      { t with last := some x, next := some (x + BitVec.ofNat 32 (s.get pgTIME F.TIME_TRGPERIOD_PERIOD n)) }) := by
  simp [trigFire, he, hk, hn]

/-! ### A trigger's registers (R57, R62) -/

theorem trgCfg_reserved {v : Word} (a : Nat) (h : bitsOf v 1 2 = 3 ∨ bitsOf v 4 2 = 3) :
    trgCfg a n v s = s.fault pgTIME 0x01 (0x140 + 12 * n) a := if_pos h

/-- A trigger disabled by a write that nothing refuses. -/
theorem trgCfg_disable {v : Word} (a : Nat) (off : bitsOf v 0 1 = 0) (kind : bitsOf v 1 2 ≠ 3) (target : bitsOf v 4 2 ≠ 3)
    (index : bitsOf v 16 10 < trigRange (bitsOf v 4 2)) : trgCfg a n v s =
      updTrig (s.setReg pgTIME (0x140 + 12 * n) (v &&& 0x03FFFFF7)) n fun t => { t with next := none, last := none, idx := t.k + 1 } := by
  simp [trgCfg, off, kind, target, index]

theorem trigOf_updTrig (h : n < s.time.trig.length) (f : Trig → Trig) : trigOf (updTrig s n f) n = f (trigOf s n) :=
  getD_updAt_same h f _

/-- A trigger's TIME is another register than its configuration. -/
theorem trgCfg_key_ne : regKey pgTIME (F.TIME_TRGCFG_EN.off + F.TIME_TRGCFG_EN.stride * n) ≠ regKey pgTIME (0x144 + 12 * n) := by
  simp only [regKey, F.TIME_TRGCFG_EN]
  omega

theorem trgTime_of_disabled (v : Word) (h : s.flag pgTIME F.TIME_TRGCFG_EN n = false) :
    trgTime n v s = s.set pgTIME F.TIME_TRGTIME_TIME v.toNat n := by
  have still : (s.set pgTIME F.TIME_TRGTIME_TIME v.toNat n).flag pgTIME F.TIME_TRGCFG_EN n = false := by
    rw [State.flag, get_set_ne s trgCfg_key_ne]
    exact h
  simp [trgTime, still]

theorem trgPeriod_refused {v : Word} (a : Nat) (he : s.flag pgTIME F.TIME_TRGCFG_EN n = true) (hk : s.get pgTIME F.TIME_TRGCFG_KIND n = 1)
    (h : v.toNat < 1000 ∨ 2 ^ 31 ≤ v.toNat) : trgPeriod a n v s = s.fault pgTIME 0x07 (0x148 + 12 * n) a :=
  if_pos ⟨by simp [he, hk], by simpa [badPeriod] using h⟩

theorem trgPeriod_of_disabled (a : Nat) (v : Word) (h : s.flag pgTIME F.TIME_TRGCFG_EN n = false) :
    trgPeriod a n v s = s.set pgTIME F.TIME_TRGPERIOD_PERIOD v.toNat n := by
  simp [trgPeriod, h]

/-! ### SNAP (R62) -/

@[simp] theorem snapCapture_time (v : Word) (s : State) : (snapCapture v s).time = s.time := by
  unfold snapCapture
  split <;> simp

@[simp] theorem snapCapture_que (v : Word) (s : State) : (snapCapture v s).que = s.que := by
  unfold snapCapture
  split <;> simp

@[simp] theorem snapCapture_tsk (v : Word) (s : State) : (snapCapture v s).tsk = s.tsk := by
  unfold snapCapture
  split <;> simp

/-- The seconds, the nanoseconds, the fraction and the sequence counter that SNAP.CAP puts in its registers. -/
theorem snapCapture_fields (h : StoresOk s) :
    (snapCapture 1 s).get pgTIME F.TIME_SNAPSECL_value = s.time.ft / secUnits % 2 ^ 32 ∧
      (snapCapture 1 s).get pgTIME F.TIME_SNAPNS_value = s.time.ft / 65536 % 1000000000 ∧
      (snapCapture 1 s).get pgTIME F.TIME_SNAPFRAC_value = s.time.ft % 65536 ∧
      (snapCapture 1 s).get pgTIME F.TIME_SNAPSEQ_value = s.time.seq.toNat := by
  have cap : ¬ bitsOf (1 : Word) 0 1 = 0 := by decide
  have width (f : Fld) (hw : f.w = 32) {x : Nat} (hx : x < 2 ^ 32) : x % 2 ^ f.w = x := by rw [hw, Nat.mod_eq_of_lt hx]
  unfold snapCapture
  rw [if_neg cap]
  dsimp only
  refine ⟨?secl, ?ns, ?frac, ?seq⟩
  case secl => simp (disch := decide) only [get_set_ne, get_set_same h]; rfl
  case ns =>
    simp (disch := decide) only [get_set_ne]
    rw [get_set_same ((h.set ..).set ..) _ (by decide), width _ rfl (by omega)]
  case frac =>
    simp (disch := decide) only [get_set_ne]
    rw [get_set_same (((h.set ..).set ..).set ..) _ (by decide), width _ rfl (by omega)]
  case seq =>
    rw [get_set_same ((((((h.set ..).set ..).set ..).set ..).set ..).set ..) _ (by decide), width _ rfl (by simpa using s.time.seq.isLt)]
    simp

/-! ### PPS_OUT (R58) -/

theorem ppsPulse_valid (he : s.flag pgTIME F.TIME_PPSOUT_EN = true) (hv : timeValid s = true) (ho : s.boot.outEn = true) :
    ppsPulse s = { s with time := { s.time with ppsHigh := true } }.emit (.ball "PPS_OUT" (!s.flag pgTIME F.TIME_PPSOUT_POL)) :=
  if_pos ⟨he, hv, ho⟩

theorem ppsPulse_of_disabled (h : s.flag pgTIME F.TIME_PPSOUT_EN = false) : ppsPulse s = s := by simp [ppsPulse, h]

theorem ppsEnd_enabled (he : s.flag pgTIME F.TIME_PPSOUT_EN = true) (hh : s.time.ppsHigh = true) :
    ppsEnd s = { s with time := { s.time with ppsHigh := false } }.emit (.ball "PPS_OUT" (s.flag pgTIME F.TIME_PPSOUT_POL)) :=
  (if_pos hh).trans (if_pos he)

theorem ppsEnd_of_low (h : s.time.ppsHigh = false) : ppsEnd s = s := by simp [ppsEnd, h]

/-! ### The commands -/

theorem exec_triggerFire (n : Fin 16) (s : State) : exec (.triggerFire n) s = .next (trigFire n s.quiet) := rfl

theorem exec_trgcfgWrite (a : BitVec 4) (n : Fin 16) (v : Word) (s : State) :
    exec (.trgcfgWrite a n v) s = .next (trgCfg a.toNat n v s.quiet) := rfl

theorem exec_trgtimeWrite (n : Fin 16) (v : Word) (s : State) : exec (.trgtimeWrite n v) s = .next (trgTime n v s.quiet) := rfl

theorem exec_trgperiodWrite (a : BitVec 4) (n : Fin 16) (v : Word) (s : State) :
    exec (.trgperiodWrite a n v) s = .next (trgPeriod a.toNat n v s.quiet) := rfl

theorem exec_snapCapture (a : BitVec 4) (s : State) : exec (.snapCapture a) s = .next ((snapCapture 1 s.quiet).emit .writeDone) := by
  rw [← answered_of_que_tsk (s := s.quiet) (snapCapture_que 1 s.quiet) (snapCapture_tsk 1 s.quiet)]
  exact execSnapCapture_eq a s

theorem exec_ppsPulse (s : State) : exec .ppsPulse s = .next (ppsPulse s.quiet) := rfl

theorem exec_ppsPulseEnd (s : State) : exec .ppsPulseEnd s = .next (ppsEnd s.quiet) := rfl

/-- Settles O13, command by command from what each one's operation comes to. -/
theorem triggersSnapPps : Obligations.TriggersSnapPps := by
  unfold Obligations.TriggersSnapPps
  refine ⟨?disabled, ?spent, ?oneShot, ?periodic, ?reserved, ?disable, ?time, ?badPeriod, ?period, ?snap, ?pulse, ?noPulse, ?pulseEnd, ?low⟩
  case disabled =>
    intro n s h
    rw [exec_triggerFire, trigFire_of_disabled (s := s.quiet) h]
  case spent =>
    intro n s hk hn
    rw [exec_triggerFire, trigFire_of_spent (s := s.quiet) hk hn]
  case oneShot =>
    intro n x s he hk hn
    rw [exec_triggerFire, trigFire_oneShot (s := s.quiet) he hk hn]
  case periodic =>
    intro n x s he hk hn
    rw [exec_triggerFire, trigFire_periodic (s := s.quiet) he hk hn, quiet_get]
  case reserved =>
    intro a n v s h
    rw [exec_trgcfgWrite, trgCfg_reserved _ h]
  case disable =>
    intro a n v s hs off kind target index len
    refine ⟨_, exec_trgcfgWrite a n v s, ?_⟩
    rw [trgCfg_disable a.toNat off kind target index]
    refine ⟨reg_setReg_same hs.quiet .., ?_⟩
    rw [trigOf_updTrig (by simp [len])]
  case time =>
    intro n v s h _
    rw [exec_trgtimeWrite, trgTime_of_disabled (s := s.quiet) v h]
  case badPeriod =>
    intro a n v s he hk h
    rw [exec_trgperiodWrite, trgPeriod_refused (s := s.quiet) _ he hk h]
  case period =>
    intro a n v s h
    rw [exec_trgperiodWrite, trgPeriod_of_disabled (s := s.quiet) _ v h]
  case snap =>
    intro a s hs
    obtain ⟨secl, ns, frac, seq⟩ := snapCapture_fields hs.quiet
    refine ⟨_, exec_snapCapture a s, ?_⟩
    simp only [emit_get, emit_time, snapCapture_time]
    exact ⟨secl, ns, frac, seq, rfl⟩
  case pulse =>
    intro s he hv ho
    rw [exec_ppsPulse, ppsPulse_valid (s := s.quiet) he hv ho, quiet_flag, quiet_time]
  case noPulse =>
    intro s h
    rw [exec_ppsPulse, ppsPulse_of_disabled (s := s.quiet) h]
  case pulseEnd =>
    intro s he hh
    rw [exec_ppsPulseEnd, ppsEnd_enabled (s := s.quiet) he hh, quiet_flag, quiet_time]
  case low =>
    intro s h
    rw [exec_ppsPulseEnd, ppsEnd_of_low (s := s.quiet) h]

end Sys2Proof.Machine
end

section
/-!
SUPPORT. What leaves fabric time and the configuration of TIME: events, holds, the radio's link, the end of a commit and the start of a
converter's group. A fact that reads nothing but the time state and TIME's own registers is stable under all of them.
-/
namespace Sys2Proof.Machine
open Sys2Proof

/-- A fact about a state that rests on its time state and on the registers of TIME after its header: it stays where both are as they were,
and where a register of a header or of a later page is set. -/
structure TimeStable (P : State → Prop) : Prop where
  same : ∀ {s t : State}, P s → t.time = s.time → t.regs = s.regs → P t
  setReg : ∀ {s : State} {p off : Nat} (v : Word), (off < 0x040 ∨ pgTIME < p) → P s → P (s.setReg p off v)

/-- Any fact of the time state. -/
theorem timeStable_time (Q : TimeState → Prop) : TimeStable fun t => Q t.time :=
  ⟨fun h ht _ => ht ▸ h, fun _ _ h => h⟩

/-- What a register of TIME after the header holds. -/
theorem timeStable_reg {off : Nat} (h : 0x040 ≤ off) (h' : off < 4096) (v : Word) : TimeStable fun t => t.reg pgTIME off = v := by
  refine ⟨fun h _ hr => (reg_of_regs hr ..).trans h, fun w hp h => (reg_setReg_ne _ _ _ _ _ _ ?_).trans h⟩
  simp only [regKey]
  omega

theorem ite_induct {P : State → Prop} {c : Prop} [Decidable c] {s t : State} (hs : P s) (ht : P t) : P (if c then s else t) := by
  split
  · exact hs
  · exact ht

theorem foldl_induct {P : State → Prop} {α : Type} {f : State → α → State} (hf : ∀ s x, P s → P (f s x)) (l : List α) {s : State}
    (h : P s) : P (l.foldl f s) :=
  List.foldlRecOn l f h fun t ht x _ => hf t x ht

namespace TimeStable
variable {P : State → Prop} (hP : TimeStable P) {s : State}
include hP

theorem set {p k : Nat} {f : Fld} (hp : f.off + f.stride * k < 0x040 ∨ pgTIME < p) (v : Nat) (h : P s) : P (s.set p f v k) := hP.setReg _ hp h

theorem bump (p : Nat) (f : Fld) (n k : Nat) (h : P s) : P (s.bump p f n k) := hP.same h (bump_time ..) (bump_regs ..)

theorem statMax (p : Nat) (f : Fld) (v k : Nat) (h : P s) : P (s.statMax p f v k) := by
  refine hP.same h ?_ (statMax_regs ..)
  unfold State.statMax
  split <;> rfl

theorem updCore (c : Nat) (f : Core → Core) (h : P s) : P (s.updCore c f) := hP.same h rfl rfl

/-! ### Events (R66, R476 to R485) -/

theorem rawEvt (p bit : Nat) (h : P s) : P (rawEvt s p bit) := hP.setReg _ (.inl (by decide)) h

theorem setSrc (n lsb w v : Nat) (h : P s) : P (setSrc s (.shared n) lsb w v) := hP.setReg _ (.inr (by simp [Src.reg, pgEVC, pgTIME])) h

theorem pend (n : Nat) (h : P s) : P (pend s (.shared n)).1 := by
  have merged := hP.bump pgEVC F.EVC_st_MERGED 1 0 h
  unfold Machine.pend
  dsimp only
  split
  · split
    · exact merged
    · exact hP.setSrc _ _ _ _ merged
  · exact hP.setSrc _ _ _ _ h

theorem enqueue {k : Nat} {t : State} (e : enqueue s k = some t) (h : P s) : P t := by
  unfold Machine.enqueue at e
  split at e
  · cases e
    exact hP.statMax _ _ _ _ (hP.same h rfl rfl)
  · cases e

theorem sourcePost (n : Nat) (h : P s) : P (sourcePost s n) := by
  unfold Machine.sourcePost
  dsimp only
  split
  · split
    · exact h
    · split
      · next e => exact hP.bump _ _ _ _ (hP.enqueue e h)
      · exact hP.rawEvt _ _ (hP.setSrc _ _ _ _ h)
  · exact h

theorem arriveOnce (n : Nat) (h : P s) : P (arriveOnce n s) := by
  unfold Machine.arriveOnce
  have counted : P (if 228 ≤ n ∧ n ≤ 235 then s.bump pgEVC F.EVC_st_EXTARR else s) := ite_induct (hP.bump _ _ _ _ h) h
  have posted := hP.sourcePost n (hP.pend n (hP.bump pgEVC F.EVC_st_ARRIVALS 1 0 counted))
  exact ite_induct (hP.rawEvt _ _ posted) posted

theorem rising (n : Nat) {f : State → State} (hf : ∀ s, P s → P (f s)) (h : P s) : P (rising n f s) :=
  ite_induct (hP.arriveOnce _ (hf s h)) (hf s h)

theorem present (c : Nat) (h : P s) : P (present c s) := by
  unfold Machine.present
  extract_lets k t k'
  have resumed : P t := ite_induct (hP.updCore _ _ h) h
  clear_value t
  split
  · exact resumed
  · split
    · split
      · exact resumed
      · exact hP.updCore _ _ resumed
    · split
      · exact resumed
      · exact ite_induct (hP.bump _ _ _ _ (hP.updCore _ _ resumed)) resumed

theorem presentRound (h : P s) : P (presentRound s) := by
  refine foldl_induct (P := P) (fun s c h => ?_) _ h
  dsimp only
  split
  · exact ite_induct (hP.bump _ _ _ _ (hP.updCore _ _ h)) h
  · exact hP.present c h

theorem presentAll (h : P s) : P (presentAll s) := by
  unfold Machine.presentAll
  exact foldl_induct (P := P) (fun _ _ => hP.presentRound) _ h

theorem arrive (n : Nat) (h : P s) : P (arrive n s) := by
  unfold Machine.arrive
  exact hP.presentAll (hP.rising _ (fun _ => hP.rising _ fun _ => hP.rising _ fun _ => hP.arriveOnce n) h)

theorem evt (p bit : Nat) (h : P s) : P (s.evt p bit) :=
  ite_induct (hP.arrive _ (hP.rawEvt _ _ h)) (hP.rawEvt _ _ h)

theorem evtIf (b : Bool) (p bit : Nat) (h : P s) : P (s.evtIf b p bit) := ite_induct (hP.evt _ _ h) h

/-! ### Holds, with the radio's link (R70, R71, R410) -/

theorem emit (o : Out) (h : P s) : P (s.emit o) := hP.same h rfl rfl

theorem updAir (f : AirState → AirState) (h : P s) : P (updAir s f) := hP.same h rfl rfl

theorem sendPacket (p : AirPkt) (h : P s) : P (sendPacket p s) := ite_induct (hP.emit _ h) (hP.updAir _ h)

theorem sendList (h : P s) : P (sendList s) :=
  hP.updAir _ (foldl_induct (P := P) (fun _ _ h => ite_induct (hP.sendPacket _ h) h) _ h)

theorem airIdle (h : P s) : P (airIdle s) :=
  hP.emit _ (foldl_induct (P := P) (fun _ _ => hP.emit _) _ (hP.emit _ (hP.emit _ h)))

theorem airEntered (h : P s) : P (airEntered s) :=
  ite_induct h (ite_induct (ite_induct (hP.airIdle (hP.updAir _ h)) (hP.updAir _ h)) (hP.sendList (ite_induct (hP.emit _ h) h)))

theorem putEff (p : Nat) (e : Nat × Nat) (h : P s) : P (putEff p e s) :=
  have held := hP.setReg (p := p) (off := 0x00C) _ (.inl (by decide)) h
  ite_induct h (ite_induct (hP.evt _ _ (hP.bump _ _ _ _ held)) held)

theorem refresh (p : Nat) (h : P s) : P (refresh p s) := by
  unfold Machine.refresh
  split
  · split
    · exact hP.putEff _ _ h
    · exact foldl_induct (P := P) (fun _ _ h => ite_induct (hP.putEff _ _ h) h) _ h
  · exact hP.putEff _ _ h

theorem refreshAll (h : P s) : P (refreshAll s) := by
  unfold Machine.refreshAll Machine.refreshStrands
  refine hP.airEntered (foldl_induct (P := P) (fun _ _ => hP.refresh _) _ ?_)
  exact foldl_induct (P := P) (fun _ _ => hP.refresh _) _ h

/-! ### The start's steps, output enable and validity (R43, R530, R533) -/

theorem stepEnded (n : Nat) (h : P s) : P (stepEnded n s) := by
  unfold Machine.stepEnded
  split
  · exact h
  · exact ite_induct h (hP.setReg _ (.inr (by decide)) (hP.setReg _ (.inr (by decide)) h))

theorem enableEval (h : P s) : P (enableEval s) := by
  refine hP.same h ?_ ?_
  · simp [Machine.enableEval, apply_ite State.time]
  · simp [Machine.enableEval, apply_ite State.regs]

theorem timeChanged (h : P s) : P (timeChanged s) :=
  hP.enableEval (hP.refreshAll (ite_induct (hP.stepEnded _ h) h))

/-! ### A commit's end, and a mode change's (R59, R83) -/

theorem cancelCommit (code : Nat) (h : P s) : P (cancelCommit code s) :=
  hP.evt _ _ (hP.set (.inr (by decide)) _ (hP.set (.inr (by decide)) _ (hP.same (hP.bump _ _ _ _ h) rfl rfl)))

theorem cancelBelow (code : Nat) (all : Bool) (m : Nat) (h : P s) : P (cancelBelow code all m s) := ite_induct (hP.cancelCommit _ h) h

theorem modeDone (h : P s) : P (modeDone s) := hP.evt _ _ (hP.bump _ _ _ _ h)

/-! ### A group's start (R238, R239) -/

theorem groupStart (g : Nat) (h : P s) : P (groupStart g s).1 := by
  have refused : P (adcRefuse s) := hP.evt _ _ (hP.bump _ _ _ _ h)
  unfold Machine.groupStart
  split
  · exact refused
  · split
    · exact hP.same h rfl rfl
    · split
      · exact refused
      · exact hP.same h rfl rfl

end TimeStable

end Sys2Proof.Machine
end

section
/-!
SUPPORT. The servo (R35 to R44): what each of its moves sets in the time state, and what it leaves of TIME's registers.
-/
namespace Sys2Proof.Machine
open Sys2Proof

@[simp] theorem updTime_reg (s : State) (f : TimeState → TimeState) (p off : Nat) : (updTime s f).reg p off = s.reg p off := rfl
@[simp] theorem updTime_get (s : State) (f : TimeState → TimeState) (p : Nat) (g : Fld) (k : Nat) : (updTime s f).get p g k = s.get p g k := rfl

@[simp] theorem logSegment_ft (t : TimeState) : (logSegment t).ft = t.ft := by unfold logSegment; split <;> rfl
@[simp] theorem logSegment_servo (t : TimeState) : (logSegment t).servo = t.servo := by unfold logSegment; split <;> rfl
@[simp] theorem logSegment_trig (t : TimeState) : (logSegment t).trig = t.trig := by unfold logSegment; split <;> rfl

/-- Outside LOCKED no time is logged, and the holdover frequency stays. -/
theorem logSegment_holdFreq {t : TimeState} (h : t.servo ≠ .locked) : (logSegment t).holdFreq = t.holdFreq := by
  unfold logSegment
  rw [if_neg h]

/-! ### The source and the time path (R35, R374) -/

section
variable {P : State → Prop} (hP : TimeStable P)
include hP

theorem TimeStable.autoSource (hauto : ∀ s a, P s → P (updTime s fun t => { t with autoSrc := a })) {s : State} (h : P s) :
    P (autoSource s) :=
  ite_induct h (hP.evt _ _ (hauto s _ h))

theorem TimeStable.timePathSync (hauto : ∀ s a, P s → P (updTime s fun t => { t with autoSrc := a }))
    (hbru : ∀ s, P s → P (updTime s fun t => { t with discardBru := true })) {s : State} (h : P s) : P (timePathSync s) := by
  unfold Machine.timePathSync
  have put (v w : Nat) : P ((s.set pgFAB F.FAB_TIMEPATH_PORT v).set pgFAB F.FAB_TIMEPATH_GWDIST w) :=
    hP.set (.inr (by decide)) _ (hP.set (.inr (by decide)) _ h)
  exact hP.autoSource hauto (ite_induct (hbru _ (put ..)) (put ..))

end

/-! ### A move of the servo (R37) -/

/-- The servo's state, FT and the triggers. -/
structure ServoAt (n : Servo) (ft : Nat) (trig : List Trig) (t : State) : Prop where
  servo : t.time.servo = n
  ft : t.time.ft = ft
  trig : t.time.trig = trig

theorem servoAt_stable (n : Servo) (ft : Nat) (trig : List Trig) : TimeStable (ServoAt n ft trig) := by
  have h := timeStable_time fun t => t.servo = n ∧ t.ft = ft ∧ t.trig = trig
  refine ⟨fun a ht hr => ?_, fun v hp a => ?_⟩
  · obtain ⟨h1, h2, h3⟩ := h.same ⟨a.servo, a.ft, a.trig⟩ ht hr
    exact ⟨h1, h2, h3⟩
  · exact ⟨a.servo, a.ft, a.trig⟩

/-- A move to another state: the state moved to, with FT and the triggers as they were. -/
theorem servoTo_servoAt (n : Servo) (s : State) : ServoAt n s.time.ft s.time.trig (servoTo n s) := by
  have hP := servoAt_stable n s.time.ft s.time.trig
  unfold servoTo
  extract_lets o moved locked lost held live goal
  split
  · next same => exact ⟨same, rfl, rfl⟩
  · have hm : ServoAt n s.time.ft s.time.trig moved := ⟨rfl, by simp [moved], by simp [moved]⟩
    have hh : ServoAt n s.time.ft s.time.trig held := hP.evtIf _ _ _ (hP.evtIf _ _ _ (hP.evtIf _ _ _ hm))
    clear_value held
    have hg : ServoAt n s.time.ft s.time.trig goal := by
      unfold goal
      cases n with
      | free | holdover => exact ⟨hh.servo, hh.ft, hh.trig⟩
      | acquire => exact ite_induct hh ⟨hh.servo, hh.ft, hh.trig⟩
      | locked => exact hh
    exact hP.timeChanged (hP.timePathSync (fun t _ h => ⟨h.servo, h.ft, h.trig⟩) (fun t h => ⟨h.servo, h.ft, h.trig⟩) hg)

@[simp] theorem servoTo_servo (n : Servo) (s : State) : (servoTo n s).time.servo = n := (servoTo_servoAt n s).servo
@[simp] theorem servoTo_ft (n : Servo) (s : State) : (servoTo n s).time.ft = s.time.ft := (servoTo_servoAt n s).ft
@[simp] theorem servoTo_trig (n : Servo) (s : State) : (servoTo n s).time.trig = s.time.trig := (servoTo_servoAt n s).trig

/-! ### TIME's registers after its header -/

section
variable {off : Nat} (h : 0x040 ≤ off) (h' : off < 4096)
include h h'

theorem timePathSync_timeReg (s : State) : (timePathSync s).reg pgTIME off = s.reg pgTIME off :=
  (timeStable_reg h h' _).timePathSync (fun _ _ h => h) (fun _ h => h) rfl

theorem servoTo_timeReg (n : Servo) (s : State) : (servoTo n s).reg pgTIME off = s.reg pgTIME off := by
  have hP := timeStable_reg h h' (s.reg pgTIME off)
  unfold servoTo
  extract_lets o moved locked lost held live goal
  split
  · rfl
  · have hh : held.reg pgTIME off = s.reg pgTIME off := hP.evtIf _ _ _ (hP.evtIf _ _ _ (hP.evtIf _ _ _ rfl))
    clear_value held
    have hg : goal.reg pgTIME off = s.reg pgTIME off := by
      unfold goal
      cases n with
      | free | holdover => exact hh
      | acquire => exact ite_induct (P := fun t => t.reg pgTIME off = s.reg pgTIME off) hh hh
      | locked => exact hh
    exact hP.timeChanged (hP.timePathSync (fun _ _ h => h) (fun _ h => h) hg)

theorem servoLost_timeReg (s : State) : (servoLost s).reg pgTIME off = s.reg pgTIME off := servoTo_timeReg h h' _ _

end

/-- A loss of measurements leaves the servo in HOLDOVER or FREE. -/
theorem servoLost_servo (s : State) : (servoLost s).time.servo = .holdover ∨ (servoLost s).time.servo = .free := by
  unfold servoLost
  rw [servoTo_servo]
  split <;> simp

/-! ### Timeouts (R37, R43, R44) -/

theorem servoTimeout_locked {s : State} (h : s.time.servo = .locked) : (servoTimeout s).time.servo = .holdover := by
  simp [servoTimeout, h]

theorem servoTimeout_acquire {s : State} (h : s.time.servo = .acquire) (hf : s.time.holdFreq = none) : (servoTimeout s).time.servo = .free := by
  have none' : (logSegment s.time).holdFreq = none := by rw [logSegment_holdFreq (by simp [h]), hf]
  simp [servoTimeout, h, servoLost, none']

theorem servoTimeout_of_idle {s : State} (h : s.time.servo = .free ∨ s.time.servo = .holdover) : servoTimeout s = s := by
  rcases h with h | h <;> simp [servoTimeout, h]

/-- The end of ACQWAIT makes time valid. -/
theorem acqWait_acqDone {s : State} (hw : s.get pgTIME F.TIME_TIMEOUTS_ACQWAIT ≠ 0) (h : s.time.servo = .free ∨ s.time.servo = .acquire) :
    (acqWait s).time.acqDone = true ∧ timeValid (acqWait s) = true := by
  have open' : ¬ (s.get pgTIME F.TIME_TIMEOUTS_ACQWAIT = 0 ∨ s.time.servo = .locked ∨ s.time.servo = .holdover) := by
    rcases h with h | h <;> simp [hw, h]
  have e : acqWait s = timeChanged (updTime s fun t => { t with acqDone := true }) := if_neg open'
  have waited := timeStable_time fun t => t.acqDone = true
  have timeouts := timeStable_reg (off := 0x0B4) (by decide) (by decide) (s.reg pgTIME 0x0B4)
  have hd : (acqWait s).time.acqDone = true := e ▸ waited.timeChanged (s := updTime s fun t => { t with acqDone := true }) rfl
  have hr : (acqWait s).reg pgTIME 0x0B4 = s.reg pgTIME 0x0B4 :=
    e ▸ timeouts.timeChanged (s := updTime s fun t => { t with acqDone := true }) rfl
  have wait : (acqWait s).get pgTIME F.TIME_TIMEOUTS_ACQWAIT = s.get pgTIME F.TIME_TIMEOUTS_ACQWAIT := congrArg (bitsOf · _ _) hr
  exact ⟨hd, by simp [timeValid, hd, wait, hw]⟩

theorem acqWait_of_locked {s : State} (h : s.time.servo = .locked) : acqWait s = s := if_pos (.inr (.inl h))

theorem storeHoldover_locked {s : State} (h : s.time.servo = .locked) : (storeHoldover s).pwr.aonHold = (storeHoldover s).time.holdFreq := by
  unfold storeHoldover
  rw [if_pos h]

theorem storeHoldover_of_not_locked {s : State} (h : s.time.servo ≠ .locked) : storeHoldover s = s := if_neg h

/-! ### The correction in force (R40) -/

theorem slewIncrement_idle {s : State} (h : anyLive s = false) : slewIncrement s = setCorr s.time.goal s := if_pos (by simp [h])

theorem slewIncrement_live {s : State} (h : anyLive s = true) : slewIncrement s =
    setCorr (s.time.corr + clampInt (-((s.get pgTIME F.TIME_SLEWLIM : Int) * 256 / 1000)) ((s.get pgTIME F.TIME_SLEWLIM : Int) * 256 / 1000)
      (s.time.goal - s.time.corr)) s := if_neg (by simp [h])

/-! ### A write of SERVOSRC (R37) -/

theorem servoSrcWrite_reserved {v : Word} (a : Nat) (s : State) (h : 5 ≤ bitsOf v 0 3) : servoSrcWrite a v s = s.fault pgTIME 0x01 0x0A0 a :=
  if_pos h

/-- Another source is taken, and the servo leaves the states that measurements keep. -/
theorem servoSrcWrite_other {v : Word} (a : Nat) {s : State} (hs : StoresOk s) (h : bitsOf v 0 3 < 5)
    (other : bitsOf v 0 3 ≠ s.get pgTIME F.TIME_SERVOSRC_SRC) : (servoSrcWrite a v s).get pgTIME F.TIME_SERVOSRC_SRC = bitsOf v 0 3 ∧
      ((servoSrcWrite a v s).time.servo = .holdover ∨ (servoSrcWrite a v s).time.servo = .free) := by
  unfold servoSrcWrite
  dsimp only
  rw [if_neg (by omega), if_neg other]
  refine ⟨?_, servoLost_servo _⟩
  rw [State.get, servoLost_timeReg (by decide) (by decide), updTime_reg, timePathSync_timeReg (by decide) (by decide), updTime_reg]
  exact (get_set_same hs _ (by decide) _ 0).trans (Nat.mod_eq_of_lt (bitsOf_lt ..))

end Sys2Proof.Machine
end

section
/-!
SUPPORT. Steps of FT (R41, R60): what of a step, of a T_end and of the triggers that a step makes past changes FT.
-/
namespace Sys2Proof.Machine
open Sys2Proof

/-! ### The triggers that a step makes past (R57, R60) -/

/-- A trigger whose next instant lies ahead, or that has none, does not fire late. -/
theorem fireLate_of_ahead {n : Nat} {s : State} (h : ∀ x, (trigOf s n).next = some x → stPast x s.st = false) : fireLate n s = s := by
  unfold fireLate
  split
  · rfl
  · next x e => simp [h x e]

/-- An effect that steps nothing makes no trigger past. -/
theorem withStep_of_same {f : State → State} {s : State} (hft : (f s).time.ft = s.time.ft) (ht : (f s).time.trig = s.time.trig) :
    withStep f s = f s := by
  unfold withStep
  refine List.foldlRecOn (motive := fun t => t = f s) _ _ rfl fun t e n hn => ?_
  obtain ⟨-, ahead⟩ := List.mem_filter.1 hn
  have trig : trigOf (f s) n = trigOf s n := by rw [trigOf, ht, trigOf]
  have st : (f s).st = s.st := by rw [State.st, hft, State.st]
  rw [e]
  refine fireLate_of_ahead fun x hx => ?_
  rw [trig] at hx
  simpa [st, hx] using ahead

theorem deliver_ft (n : Nat) (s : State) : (deliver n s).time.ft = s.time.ft := by
  have hP := timeStable_time fun t => t.ft = s.time.ft
  unfold deliver
  dsimp only
  split
  · exact hP.arrive _ rfl
  · have started := hP.groupStart (s := s) (s.get pgTIME F.TIME_TRGCFG_INDEX n) rfl
    exact ite_induct (P := fun t => t.time.ft = s.time.ft) started (hP.bump _ _ _ _ started)
  · split
    · exact hP.bump _ _ _ _ rfl
    · split
      · next e => exact hP.enqueue e rfl
      · exact hP.evt _ _ rfl

theorem fireLate_ft (n : Nat) (s : State) : (fireLate n s).time.ft = s.time.ft := by
  unfold fireLate
  split
  · rfl
  · split
    · rfl
    · dsimp only
      rw [deliver_ft]
      exact (timeStable_time fun t => t.ft = s.time.ft).evt _ _ rfl

/-- Triggers that fire late leave FT where the step put it. -/
theorem withStep_ft (f : State → State) (s : State) : (withStep f s).time.ft = (f s).time.ft :=
  foldl_induct (P := fun t => t.time.ft = (f s).time.ft) (fun t n h => (fireLate_ft n t).trans h) _ rfl

/-! ### What a step moves (R60) -/

@[simp] theorem moveTimes_time (off : Int) (s : State) : (moveTimes off s).time = s.time := rfl

theorem refund_time (f : AirFrame) (s : State) : (refund f s).time = s.time := by
  unfold refund
  split <;> rfl

theorem airStepped_time (off : Int) (s : State) : (airStepped off s).time = s.time := by
  have hP := timeStable_time (· = s.time)
  unfold airStepped
  dsimp only
  split
  · next f _ =>
    exact ite_induct (P := fun t => t.time = s.time) (hP.evt _ _ (hP.bump _ _ _ _ (hP.updAir _ (refund_time f _)))) rfl
  · rfl

/-- A step moves FT by its offset, and none is held after it. -/
theorem stepFt_step (off : Int) (s : State) :
    (stepFt off s).time.ft = ((s.time.ft : Int) + off).toNat ∧ (stepFt off s).time.heldStep = none := by
  have hP := timeStable_time fun t => t.ft = ((s.time.ft : Int) + off).toNat ∧ t.heldStep = none
  unfold stepFt
  dsimp only
  refine hP.evt _ _ (hP.bump _ _ _ _ ?_)
  rw [airStepped_time]
  exact ⟨rfl, rfl⟩

/-! ### T_end (R59, R60, R88) -/

theorem peaksKept_time (s : State) : (peaksKept s).time = s.time := by
  have hP := timeStable_time (· = s.time)
  have atLeast {t : State} (p : Nat) (f : Fld) (v k : Nat) (h : t.time = s.time) :
      (if v = 0 then t else t.statMax p f v k).time = s.time :=
    ite_induct (P := fun t => t.time = s.time) h (hP.statMax _ _ _ _ h)
  unfold peaksKept
  dsimp only
  refine atLeast _ _ _ _ (foldl_induct (P := fun t => t.time = s.time) (fun t x h => atLeast _ _ _ _ h) _ ?_)
  exact foldl_induct (P := fun t => t.time = s.time) (fun t x h => atLeast _ _ _ _ h) _ rfl

theorem latchNow_time (frames : Nat) (s : State) : (latchNow frames s).time = s.time := by
  unfold latchNow
  extract_lets live noSlack keep cleared latched restarted peaks slack
  have either {c : Prop} [Decidable c] {t u : State} (ht : t.time = s.time) (hu : u.time = s.time) : (if c then t else u).time = s.time :=
    ite_induct (P := fun t => t.time = s.time) ht hu
  have hl : latched.time = s.time := by
    unfold latched
    exact foldl_induct (P := fun t => t.time = s.time) (fun t x h => either (t := t.setReg _ _ _) h h) _ rfl
  clear_value latched
  have hp : peaks.time = s.time := by
    unfold peaks
    rw [peaksKept_time]
    exact hl
  clear_value peaks
  have hs : slack.time = s.time := by
    unfold slack
    split
    · rw [set_time, hp]
    · exact hp
  clear_value slack
  exact foldl_induct (P := fun t => t.time = s.time) (fun t x h => either (t := (t.setReg _ _ _).setReg _ _ _) h h) _ hs

theorem holdBroken_time (s : State) : (holdBroken s).time = s.time := by
  have hP := timeStable_time (· = s.time)
  unfold holdBroken
  dsimp only
  exact ite_induct (P := fun t => t.time = s.time) rfl (hP.evt _ _ (hP.bump _ _ _ _ (latchNow_time ..)))

/-- FT moves at a T_end by the step held for it, and by nothing where none is. -/
theorem tEnd_ft (te : Nat) (s : State) : (tEnd te s).time.ft = ((s.time.ft : Int) + s.time.heldStep.getD 0).toNat := by
  have hP := timeStable_time fun t => t.ft = ((s.time.ft : Int) + s.time.heldStep.getD 0).toNat
  unfold tEnd
  extract_lets step te' stepped pend rephase moded phased mode m gap sound dropped cancelled
  have h1 : stepped.time.ft = ((s.time.ft : Int) + s.time.heldStep.getD 0).toNat := by
    unfold stepped step
    split
    · next o e => rw [(stepFt_step o s).1, e, Option.getD_some]
    · next e => simp [e]
  clear_value stepped
  have h2 : moded.time.ft = ((s.time.ft : Int) + s.time.heldStep.getD 0).toNat := by
    unfold moded
    split
    · exact hP.modeDone h1
    · exact h1
  clear_value moded
  have h3 : phased.time.ft = ((s.time.ft : Int) + s.time.heldStep.getD 0).toNat := by
    unfold phased rephase
    split
    · exact hP.modeDone h2
    · exact h2
  clear_value phased
  have h4 : cancelled.time.ft = ((s.time.ft : Int) + s.time.heldStep.getD 0).toNat := by
    unfold cancelled
    split
    · exact hP.cancelBelow _ _ _ h3
    · split
      · exact hP.cancelBelow _ _ _ h3
      · exact h3
  rw [holdBroken_time, h4]

/-- A step permitted with no output live moves FT by its offset at once. -/
theorem stepNow_ft (off : Int) (s : State) : (stepNow off s).time.ft = ((s.time.ft : Int) + off).toNat := by
  unfold stepNow
  split
  · exact tEnd_ft ..
  · have hP := timeStable_time fun t => t.ft = ((s.time.ft : Int) + off).toNat
    refine hP.cancelBelow _ _ _ ?_
    unfold enableAgain
    exact ite_induct (P := fun t => t.time.ft = ((s.time.ft : Int) + off).toNat) (stepFt_step off s).1 (stepFt_step off s).1

/-! ### SETGO (R42) -/

/-- The FT that the SET registers hold. -/
def setFt (s : State) : Nat :=
  ((s.get pgTIME F.TIME_SETSECL_value + s.get pgTIME F.TIME_SETSECH_value % 65536 * 2 ^ 32) * 1000000000 + s.get pgTIME F.TIME_SETNS_value) *
    65536

theorem setGo_refused (a : Nat) {s : State} (live : anyLive s = true) (h : s.flag pgTIME F.TIME_SERVOCTL_STEPOK = false) :
    setGo a 1 s = s.fault pgTIME 0x40 0x0F8 a := by
  have go : ¬ bitsOf (1 : Word) 0 1 = 0 := by decide
  unfold setGo
  rw [if_neg go]
  dsimp only
  exact if_pos (by simp [live, h])

/-- With no output live FT takes the value held. -/
theorem setGo_ft (a : Nat) {s : State} (idle : anyLive s = false) : (setGo a 1 s).time.ft = setFt s := by
  have go : ¬ bitsOf (1 : Word) 0 1 = 0 := by decide
  have set : (stepNow ((setFt s : Int) - s.time.ft) s).time.ft = setFt s := by rw [stepNow_ft]; omega
  unfold setGo
  rw [if_neg go]
  extract_lets sec ft off live stepped timeout delivering
  have off' : ¬ live = true := by simp [live, idle]
  have hs : stepped.time.ft = setFt s := by
    unfold stepped
    rw [if_neg off']
    exact set
  rw [if_neg fun h => off' h.1]
  clear_value stepped
  exact ite_induct (P := fun t => t.time.ft = setFt s) hs ((servoTo_ft ..).trans hs)

end Sys2Proof.Machine
end

section
/-!
SUPPORT. A write of SERVOCTL (R37, R67): FREEZE takes its value, whatever becomes of the register's other fields.
-/
namespace Sys2Proof.Machine
open Sys2Proof

theorem StoresOk.setReg {s : State} (h : StoresOk s) (p off : Nat) (v : Word) : StoresOk (s.setReg p off v) :=
  ⟨regFileOk_regPut _ _ h.regs, h.staged, h.ctr, h.mem⟩

/-! ### The at-once fields of a register written (R67) -/

/-- One at-once field of a register written, where `old` is the state before the write: a field at fault keeps its value. -/
def putField (old : State) (p off : Nat) (v : Word) (q : State × Nat) (f : Fld) : State × Nat :=
  match fieldCode old p off v f with
  | 0 => (q.1.setReg p off (setBits (q.1.reg p off) f.lsb f.w (bitsOf v f.lsb f.w)), q.2)
  | e => (q.1, firstCode q.2 e)

theorem putFields_eq_foldl (p off : Nat) (v : Word) (fs : List Fld) (s : State) :
    putFields p off v fs s = fs.foldl (putField s p off v) (s, 0) := rfl

section
variable {old : State} {p off : Nat} {v : Word} {q : State × Nat} {f : Fld}

theorem putField_storesOk (h : StoresOk q.1) (f : Fld) : StoresOk (putField old p off v q f).1 := by
  unfold putField
  split
  · exact h.setReg ..
  · exact h

/-- A field that nothing refuses takes its value. -/
theorem putField_same (h : StoresOk q.1) (fits : f.lsb + f.w ≤ 32) (valid : fieldCode old p off v f = 0) :
    bitsOf ((putField old p off v q f).1.reg p off) f.lsb f.w = bitsOf v f.lsb f.w := by
  have taken : putField old p off v q f = (q.1.setReg p off (setBits (q.1.reg p off) f.lsb f.w (bitsOf v f.lsb f.w)), q.2) := by
    simp only [putField, valid]
  rw [taken, reg_setReg_same h, bitsOf_setBits_same _ _ _ _ fits, Nat.mod_eq_of_lt (bitsOf_lt ..)]

/-- A field written leaves the bits beside it. -/
theorem putField_apart (h : StoresOk q.1) (fits : f.lsb + f.w ≤ 32) {l w : Nat} (apart : l + w ≤ f.lsb ∨ f.lsb + f.w ≤ l) :
    bitsOf ((putField old p off v q f).1.reg p off) l w = bitsOf (q.1.reg p off) l w := by
  unfold putField
  split
  · dsimp only
    rw [reg_setReg_same h, bitsOf_setBits_disjoint _ _ _ _ _ _ fits apart]
  · rfl

end

/-! ### FREEZE (R37) -/

theorem fieldsAt_servoctl : (fieldsAt pgTIME 0x0A4).filter (fun f => f.eff = .commit && f.acc = .rw) = [] ∧
    (fieldsAt pgTIME 0x0A4).filter (fun f => f.eff = .atOnce && f.acc = .rw) =
      [F.TIME_SERVOCTL_STEPOK, F.TIME_SERVOCTL_FREEZE, F.TIME_SERVOCTL_BW, F.TIME_SERVOCTL_ACQBW, F.TIME_SERVOCTL_LOCKCNT] := by decide

/-- The register with the fields of SERVOCTL that are taken, in a state that keeps its canonical form. -/
theorem putFields_freeze {s : State} (hs : StoresOk s) (v : Word) {t : State} {d : Nat}
    (h : putFields pgTIME 0x0A4 v ((fieldsAt pgTIME 0x0A4).filter fun f => f.eff = .atOnce && f.acc = .rw) s = (t, d)) :
    StoresOk t ∧ t.get pgTIME F.TIME_SERVOCTL_FREEZE = bitsOf v 1 1 := by
  rw [fieldsAt_servoctl.2, putFields_eq_foldl] at h
  have valid : fieldCode s pgTIME 0x0A4 v F.TIME_SERVOCTL_FREEZE = 0 := by
    simp [fieldCode, valueFault, extraOk, F.TIME_SERVOCTL_FREEZE, show pageType pgTIME = 0x002 from rfl]
  have s1 := putField_storesOk (old := s) (p := pgTIME) (off := 0x0A4) (v := v) (q := (s, 0)) hs F.TIME_SERVOCTL_STEPOK
  have s2 := putField_storesOk (old := s) (p := pgTIME) (off := 0x0A4) (v := v) s1 F.TIME_SERVOCTL_FREEZE
  have s3 := putField_storesOk (old := s) (p := pgTIME) (off := 0x0A4) (v := v) s2 F.TIME_SERVOCTL_BW
  have s4 := putField_storesOk (old := s) (p := pgTIME) (off := 0x0A4) (v := v) s3 F.TIME_SERVOCTL_ACQBW
  have s5 := putField_storesOk (old := s) (p := pgTIME) (off := 0x0A4) (v := v) s4 F.TIME_SERVOCTL_LOCKCNT
  have freeze := putField_same s1 (by decide) valid
  rw [← putField_apart s2 (f := F.TIME_SERVOCTL_BW) (by decide) (by decide),
    ← putField_apart s3 (f := F.TIME_SERVOCTL_ACQBW) (by decide) (by decide),
    ← putField_apart s4 (f := F.TIME_SERVOCTL_LOCKCNT) (by decide) (by decide)] at freeze
  simp only [List.foldl_cons, List.foldl_nil] at h
  rw [h] at s5 freeze
  exact ⟨s5, freeze⟩

/-- A change of FREEZE leaves the field as it was set. -/
theorem freezeSet_freeze (on : Bool) {s : State} (hs : StoresOk s) :
    (freezeSet on s).get pgTIME F.TIME_SERVOCTL_FREEZE = on.toNat := by
  have put : (s.set pgTIME F.TIME_SERVOCTL_FREEZE on.toNat).get pgTIME F.TIME_SERVOCTL_FREEZE = on.toNat := by
    rw [get_set_same hs _ (by decide)]
    cases on <;> rfl
  unfold freezeSet
  dsimp only
  split
  · rw [State.get, servoLost_timeReg (by decide) (by decide)]
    split <;> exact put
  · exact put

theorem after_servoctl (a : Nat) (v : Word) (old s : State) : after a pgTIME 0x0A4 v old s =
    if s.flag pgTIME F.TIME_SERVOCTL_FREEZE = old.flag pgTIME F.TIME_SERVOCTL_FREEZE then s
    else freezeSet (s.flag pgTIME F.TIME_SERVOCTL_FREEZE) s := rfl

theorem flag_toNat (s : State) (p : Nat) {f : Fld} (h : f.w = 1) (k : Nat) : (s.flag p f k).toNat = s.get p f k := by
  have lt : s.get p f k < 2 ^ f.w := bitsOf_lt ..
  rw [h, pow_one] at lt
  unfold State.flag
  rcases Nat.lt_succ_iff_lt_or_eq.1 lt with h0 | h1
  · simp [Nat.lt_one_iff.1 h0]
  · simp [h1]

theorem after_servoctl_freeze (a : Nat) (v : Word) (old : State) {s : State} (hs : StoresOk s) :
    (after a pgTIME 0x0A4 v old s).get pgTIME F.TIME_SERVOCTL_FREEZE = s.get pgTIME F.TIME_SERVOCTL_FREEZE := by
  rw [after_servoctl]
  split
  · rfl
  · rw [freezeSet_freeze _ hs, flag_toNat _ _ rfl]

theorem faultOver_timeReg (before : State) (p code a' : Nat) (s : State) {off : Nat} (h : 0x040 ≤ off) (h' : off < 4096) (o : Nat) :
    (faultOver before p code o a' s).reg pgTIME off = s.reg pgTIME off := by
  have hP := timeStable_reg h h' (s.reg pgTIME off)
  unfold faultOver State.fault
  exact hP.setReg _ (.inl (by decide)) (hP.setReg _ (.inl (by decide)) (hP.setReg _ (.inl (by decide)) (hP.setReg _ (.inl (by decide)) rfl)))

/-- FREEZE reads as written after a write of SERVOCTL, with or without a fault of another field. -/
theorem regWrite_servoctl_freeze (a : Nat) (v : Word) {s : State} (hs : StoresOk s) :
    (regWrite a pgTIME 0x0A4 v s).get pgTIME F.TIME_SERVOCTL_FREEZE = bitsOf v 1 1 := by
  unfold regWrite
  rw [if_neg (by decide), if_neg (by decide), show command a pgTIME 0x0A4 v = none from rfl]
  dsimp only
  rw [fieldsAt_servoctl.1]
  cases hp : putFields pgTIME 0x0A4 v ((fieldsAt pgTIME 0x0A4).filter fun f => f.eff = .atOnce && f.acc = .rw) s with
  | mk t d =>
    obtain ⟨ht, freeze⟩ := putFields_freeze hs v hp
    have done' : (after a pgTIME 0x0A4 v s t).get pgTIME F.TIME_SERVOCTL_FREEZE = bitsOf v 1 1 := by
      rw [after_servoctl_freeze a v s ht, freeze]
    simp only [stageFields, List.isEmpty_nil, if_true, hp]
    split
    · exact done'
    · rw [State.get, faultOver_timeReg _ _ _ _ _ (by decide) (by decide)]
      exact done'

end Sys2Proof.Machine
end

section
/-!
SUPPORT. A measurement of the servo (R36 to R41).
-/
namespace Sys2Proof.Machine
open Sys2Proof

theorem measurement_of_other {src : Nat} {s : State} (off : Int) (h : src ≠ activeSource s) (hp : s.time.discardPtp = false)
    (hb : s.time.discardBru = false) : measurement src off s = s := by
  simp [measurement, h, hp, hb]

theorem measurement_of_active {src : Nat} {s : State} (off : Int) (h : src = activeSource s) (h0 : src ≠ 0)
    (hp : s.time.discardPtp = false) (hb : s.time.discardBru = false) : measurement src off s = measure off s := by
  simp [measurement, h0, hp, hb, ← h]

theorem measure_of_frozen {s : State} (off : Int) (hf : s.flag pgTIME F.TIME_SERVOCTL_FREEZE = true)
    (h : s.time.servo = .free ∨ s.time.servo = .holdover) : measure off s = s := if_pos ⟨hf, h⟩

/-- A measurement while frozen in FREE or HOLDOVER changes nothing, whatever its source. -/
theorem measurement_of_frozen {s : State} (src : Nat) (off : Int) (hf : s.flag pgTIME F.TIME_SERVOCTL_FREEZE = true)
    (h : s.time.servo = .free ∨ s.time.servo = .holdover) (hp : s.time.discardPtp = false) (hb : s.time.discardBru = false) :
    measurement src off s = s := by
  simp [measurement, hp, hb, measure_of_frozen off hf h]

/-- The offset that OFFSET shows, in whole ns. -/
def shownOffset (off : Int) : Nat := toField 32 (clampInt (-(2 ^ 31 - 1)) (2 ^ 31 - 1) (openRound 37 ((off : Rat) / 65536)))

theorem shownOffset_lt (off : Int) : shownOffset off < 2 ^ 32 := by
  unfold shownOffset toField
  omega

/-- The servo's state, FT, the triggers and what OFFSET holds. -/
def ServoShows (n : Servo) (ft : Nat) (trig : List Trig) (shown : Word) (t : State) : Prop :=
  ServoAt n ft trig t ∧ t.reg pgTIME 0x0C0 = shown

theorem servoShows_stable (n : Servo) (ft : Nat) (trig : List Trig) (shown : Word) : TimeStable (ServoShows n ft trig shown) :=
  have hP := servoAt_stable n ft trig
  have hR := timeStable_reg (off := 0x0C0) (by decide) (by decide) shown
  ⟨fun h ht hr => ⟨hP.same h.1 ht hr, hR.same h.2 ht hr⟩, fun v hp h => ⟨hP.setReg v hp h.1, hR.setReg v hp h.2⟩⟩

theorem servoShows_updTime {n : Servo} {ft : Nat} {trig : List Trig} {shown : Word} {s : State} {f : TimeState → TimeState}
    (hs : (f s.time).servo = s.time.servo) (hf : (f s.time).ft = s.time.ft) (ht : (f s.time).trig = s.time.trig)
    (h : ServoShows n ft trig shown s) : ServoShows n ft trig shown (updTime s f) :=
  ⟨⟨hs.trans h.1.servo, hf.trans h.1.ft, ht.trans h.1.trig⟩, h.2⟩

/-- What the loop computes from an offset changes the correction and nothing else of the servo. -/
theorem servoLoop_shows {n : Servo} {ft : Nat} {trig : List Trig} {shown : Word} (off : Int) (interval : Nat) {s : State}
    (h : ServoShows n ft trig shown s) : ServoShows n ft trig shown (servoLoop off interval s).1 := by
  unfold servoLoop
  exact servoShows_updTime (f := fun k => { k with integ := _ }) rfl rfl rfl h

theorem clampCorr_shows {n : Servo} {ft : Nat} {trig : List Trig} {shown : Word} (c : Int) {s : State}
    (h : ServoShows n ft trig shown s) : ServoShows n ft trig shown (clampCorr c s).1 :=
  (servoShows_stable n ft trig shown).evtIf _ _ _ h

theorem setCorr_shows {n : Servo} {ft : Nat} {trig : List Trig} {shown : Word} (c : Int) {s : State}
    (h : ServoShows n ft trig shown s) : ServoShows n ft trig shown (setCorr c s) :=
  servoShows_updTime (logSegment_servo _) (logSegment_ft _) (logSegment_trig _) h

/-- In ACQUIRE the measurement that completes LOCKCNT within the threshold locks the servo, shows its offset, and moves neither FT nor a
trigger. -/
theorem measure_locks {s : State} (off : Int) (hf : s.flag pgTIME F.TIME_SERVOCTL_FREEZE = false)
    (acquiring : s.time.servo = .acquire) (small : off.natAbs ≤ s.get pgTIME F.TIME_STEPTHR * 65536)
    (near : off.natAbs ≤ s.get pgTIME F.TIME_LOCKTHR * 65536) (last : s.get pgTIME F.TIME_SERVOCTL_LOCKCNT ≤ s.time.lockRun + 1) :
    ServoShows .locked s.time.ft s.time.trig ((s.set pgTIME F.TIME_OFFSET (shownOffset off)).reg pgTIME 0x0C0) (measure off s) := by
  unfold measure
  extract_lets frozen ns rep first lo hi shown least greatest counted live interval noted mag big stepOk entered stepped within beyond run locked
  -- the measurement noted: OFFSET and the statistics
  have notedTime : noted.time = { s.time with lastMeas := some s.time.ft } := by
    simp [noted, counted, greatest, least, shown, apply_ite State.time]
  have notedRegs : noted.regs = (s.set pgTIME F.TIME_OFFSET (shownOffset off)).regs := by
    simp only [noted, counted, greatest, least, updTime_regs, bump_regs, apply_ite State.regs, setStat_regs, ite_self]
    rfl
  clear_value noted live interval
  have notedGet (f : Fld) (h : regKey pgTIME (f.off + f.stride * 0) ≠ regKey pgTIME (F.TIME_OFFSET.off + F.TIME_OFFSET.stride * 0)) :
      noted.get pgTIME f = s.get pgTIME f :=
    (congrArg (bitsOf · _ _) (reg_of_regs notedRegs ..)).trans (get_set_ne s h _)
  -- an offset within STEPTHR steps nothing
  have noStep : ¬ big := by
    simp only [big, mag, notedGet F.TIME_STEPTHR (by decide)]
    omega
  have same : entered = noted := if_neg (by simp [notedTime, acquiring])
  have cleared : stepped = updTime (noted.set pgTIME F.TIME_SERVOSTAT_STEPBLK 0) fun t => { t with heldStep := none } := by
    simp only [stepped, noStep, same, false_and, if_false]
  clear_value stepped stepOk
  have steppedGet (f : Fld) (h : regKey pgTIME (f.off + f.stride * 0) ≠ regKey pgTIME (F.TIME_OFFSET.off + F.TIME_OFFSET.stride * 0))
      (h' : regKey pgTIME (f.off + f.stride * 0) ≠ regKey pgTIME (F.TIME_SERVOSTAT_STEPBLK.off + F.TIME_SERVOSTAT_STEPBLK.stride * 0)) :
      stepped.get pgTIME f = s.get pgTIME f := by
    rw [cleared, updTime_get, get_set_ne _ h', notedGet f h]
  -- the measurement counted towards LOCKCNT, which it completes
  have counts : within := by
    simp only [within, mag, steppedGet F.TIME_LOCKTHR (by decide) (by decide)]
    exact near
  have completed : run.get pgTIME F.TIME_SERVOCTL_LOCKCNT ≤ run.time.lockRun := by
    simp only [run, updTime_get, updTime_time, steppedGet F.TIME_SERVOCTL_LOCKCNT (by decide) (by decide), counts, if_true]
    simpa [cleared, notedTime] using last
  have lock : locked = servoTo .locked run := by
    have still : run.time.servo = .acquire := by simp [run, cleared, notedTime, acquiring]
    simp only [locked, still, completed, if_true]
  have shows : ServoShows .locked s.time.ft s.time.trig ((s.set pgTIME F.TIME_OFFSET (shownOffset off)).reg pgTIME 0x0C0) locked := by
    refine ⟨lock ▸ ⟨servoTo_servo .., ?_, ?_⟩, ?_⟩
    · simp [run, cleared, notedTime]
    · simp [run, cleared, notedTime]
    · rw [lock, servoTo_timeReg (by decide) (by decide), updTime_reg, cleared, updTime_reg, reg_set_ne _ (by decide), reg_of_regs notedRegs]
  clear_value locked
  rw [if_neg (by simp [frozen, hf])]
  -- the loop and what it puts in force
  have looped := servoLoop_shows (if big ∧ (!live ∨ stepOk) then 0 else off) interval shows
  generalize servoLoop _ interval locked = loop at looped ⊢
  obtain ⟨loop, c⟩ := loop
  have computed := clampCorr_shows c looped
  dsimp only
  generalize clampCorr c loop = clamped at computed ⊢
  obtain ⟨clamped, goal⟩ := clamped
  have aimed := servoShows_updTime (f := fun t => { t with goal := goal }) rfl rfl rfl computed
  exact ite_induct aimed (setCorr_shows goal aimed)

end Sys2Proof.Machine
end

section
/-!
PROOF. The servo's commands and O14.
-/
namespace Sys2Proof.Machine
open Sys2Proof

@[simp] theorem answered_time (s t : State) : (answered s t).time = t.time := by unfold answered; split <;> rfl
@[simp] theorem answered_get (s t : State) (p : Nat) (f : Fld) (k : Nat) : (answered s t).get p f k = t.get p f k := by
  unfold answered
  split <;> rfl

theorem answered_fault (s : State) (p c off a : Nat) : answered s (s.fault p c off a) = (s.fault p c off a).emit .writeDone :=
  answered_of_que_tsk (fault_que ..) (fault_tsk ..)

/-! ### The commands -/

theorem exec_servoMeasurement (src : BitVec 3) (off : Int) (s : State) : exec (.servoMeasurement src off) s =
    .next (withStep (measurement src.toNat (if src = 3 then ppsOffset off.toNat else off)) s.quiet) := rfl

theorem exec_servoSourceTimeout (s : State) : exec .servoSourceTimeout s = .next (servoTimeout s.quiet) := rfl

theorem exec_freqSlewIncrement (s : State) : exec .freqSlewIncrement s = .next (slewIncrement s.quiet) := rfl

theorem exec_acqwaitExpiry (s : State) : exec .acqwaitExpiry s = .next (acqWait s.quiet) := rfl

theorem exec_holdoverStore (s : State) : exec .holdoverStore s = .next (storeHoldover s.quiet) := rfl

theorem exec_servosrcWrite (a : BitVec 4) (src : BitVec 3) (s : State) :
    exec (.servosrcWrite a src) s = .next (answered s.quiet (servoSrcWrite a.toNat (src.setWidth 32) s.quiet)) :=
  execServosrcWrite_eq a src s

theorem exec_setgo (a : BitVec 4) (s : State) : exec (.setgo a) s = .next (answered s.quiet (withStep (setGo a.toNat 1) s.quiet)) :=
  execSetgo_eq a s

theorem exec_freezeWrite (a : BitVec 4) (on : Bool) (s : State) : exec (.freezeWrite a on) s =
    .next (answered s.quiet (regWrite a.toNat pgTIME 0x0A4 (setBits (s.reg pgTIME 0x0A4) 1 1 on.toNat) s.quiet)) :=
  congrArg Host.Outcome.next (busWrite_regKey (by decide) (by decide) (by decide) (by decide) s.quiet)

/-- A measurement that does not count leaves the node as it was. -/
theorem exec_servoMeasurement_of_same {src : BitVec 3} {off : Int} {s : State} (h : ∀ x, measurement src.toNat x s.quiet = s.quiet) :
    exec (.servoMeasurement src off) s = .next s.quiet := by
  rw [exec_servoMeasurement, withStep_of_same (by rw [h]) (by rw [h]), h]

/-- The source that a write of SERVOSRC carries. -/
theorem bitsOf_source (src : BitVec 3) : bitsOf (src.setWidth 32) 0 3 = src.toNat := by
  have := src.isLt
  simp only [bitsOf, BitVec.toNat_setWidth]
  omega

theorem get_offset {s t : State} (hs : StoresOk s) (off : Int)
    (h : t.reg pgTIME 0x0C0 = (s.set pgTIME F.TIME_OFFSET (shownOffset off)).reg pgTIME 0x0C0) : t.get pgTIME F.TIME_OFFSET = shownOffset off :=
  calc t.get pgTIME F.TIME_OFFSET
    _ = (s.set pgTIME F.TIME_OFFSET (shownOffset off)).get pgTIME F.TIME_OFFSET := congrArg (bitsOf · _ _) h
    _ = shownOffset off % 2 ^ 32 := get_set_same hs _ (by decide) _ 0
    _ = shownOffset off := Nat.mod_eq_of_lt (shownOffset_lt off)

/-- Settles O14, command by command from what each of the servo's moves comes to. -/
theorem servoMoves : Obligations.ServoMoves := by
  unfold Obligations.ServoMoves
  refine ⟨?notSelected, ?frozen, ?lock, ?lost, ?noHoldover, ?silent, ?slewIdle, ?slewLive, ?wait, ?store, ?noStore, ?reserved, ?other, ?freeze,
    ?setIdle, ?setRefused⟩
  case notSelected =>
    intro src off s h hp hb
    exact exec_servoMeasurement_of_same fun x => measurement_of_other (s := s.quiet) x h hp hb
  case frozen =>
    intro src off s hf h hp hb
    exact exec_servoMeasurement_of_same fun x => measurement_of_frozen (s := s.quiet) _ x hf h hp hb
  case lock =>
    intro src x off s hs formed active h0 hf hp hb acquiring small near last
    obtain ⟨moved, shown⟩ := measure_locks (s := s.quiet) off hf acquiring small near last
    have e : measurement src.toNat off s.quiet = measure off s.quiet :=
      measurement_of_active off active (fun z => h0 (BitVec.eq_of_toNat_eq z)) hp hb
    refine ⟨_, exec_servoMeasurement src x s, ?_⟩
    rw [← formed, withStep_of_same (by rw [e, moved.ft]) (by rw [e, moved.trig]), e]
    exact ⟨moved.servo, get_offset hs.quiet off shown⟩
  case lost =>
    intro s h
    exact ⟨_, exec_servoSourceTimeout s, servoTimeout_locked (s := s.quiet) h⟩
  case noHoldover =>
    intro s h hf
    exact ⟨_, exec_servoSourceTimeout s, servoTimeout_acquire (s := s.quiet) h hf⟩
  case silent =>
    intro s h
    rw [exec_servoSourceTimeout, servoTimeout_of_idle (s := s.quiet) h]
  case slewIdle =>
    intro s h
    rw [exec_freqSlewIncrement, slewIncrement_idle (s := s.quiet) h, quiet_time]
  case slewLive =>
    intro s h
    refine ⟨_, exec_freqSlewIncrement s, ?_⟩
    rw [slewIncrement_live (s := s.quiet) h]
    exact ⟨rfl, rfl⟩
  case wait =>
    intro s hw h
    exact ⟨_, exec_acqwaitExpiry s, acqWait_acqDone (s := s.quiet) hw h⟩
  case store =>
    intro s h
    rw [exec_acqwaitExpiry, acqWait_of_locked (s := s.quiet) h]
    exact ⟨rfl, _, exec_holdoverStore s, storeHoldover_locked (s := s.quiet) h⟩
  case noStore =>
    intro s h
    rw [exec_holdoverStore, storeHoldover_of_not_locked (s := s.quiet) h]
  case reserved =>
    intro a src s h
    rw [exec_servosrcWrite, servoSrcWrite_reserved _ _ (by rwa [bitsOf_source]), answered_fault]
  case other =>
    intro a src s hs h other
    have taken := servoSrcWrite_other (v := src.setWidth 32) a.toNat hs.quiet (by rwa [bitsOf_source]) (by rwa [bitsOf_source])
    rw [bitsOf_source] at taken
    exact ⟨_, exec_servosrcWrite a src s, by rwa [answered_get, answered_time]⟩
  case freeze =>
    intro a on s hs
    refine ⟨_, exec_freezeWrite a on s, ?_⟩
    rw [State.flag, answered_get, regWrite_servoctl_freeze _ _ hs.quiet, bitsOf_setBits_same _ _ _ _ (by decide)]
    cases on <;> rfl
  case setIdle =>
    intro a s _ idle
    refine ⟨_, exec_setgo a s, ?_⟩
    rw [answered_time, withStep_ft, setGo_ft (s := s.quiet) _ idle]
    rfl
  case setRefused =>
    intro a s live h
    have refused := setGo_refused (s := s.quiet) a.toNat live h
    rw [exec_setgo, withStep_of_same (by rw [refused, fault_time]) (by rw [refused, fault_time]), refused, answered_fault]

end Sys2Proof.Machine
end

section
/-!
SUPPORT. What an event may write of the state: the register file, the statistics, the cores and the scheduler.
-/
namespace Sys2Proof.Machine
open Sys2Proof

/-- The second state is the first but for its register file, statistics, cores and scheduler, the parts that an event records itself in. -/
def EventPartsOnly (s t : State) : Prop :=
  ∃ regs ctr cores tsk, t = { s with regs := regs, ctr := ctr, cores := cores, tsk := tsk }

namespace EventPartsOnly
variable {s t u : State}

theorem refl (s : State) : EventPartsOnly s s := ⟨_, _, _, _, rfl⟩

theorem trans (h : EventPartsOnly s t) (h' : EventPartsOnly t u) : EventPartsOnly s u := by
  obtain ⟨_, _, _, _, rfl⟩ := h
  obtain ⟨_, _, _, _, rfl⟩ := h'
  exact ⟨_, _, _, _, rfl⟩

theorem ite {c : Prop} [Decidable c] (ht : EventPartsOnly s t) (hu : EventPartsOnly s u) : EventPartsOnly s (if c then t else u) := by
  split
  · exact ht
  · exact hu

theorem foldl {α : Type} {f : State → α → State} (hf : ∀ s x, EventPartsOnly s (f s x)) (l : List α) (s : State) :
    EventPartsOnly s (l.foldl f s) :=
  foldl_induct (P := EventPartsOnly s) (fun t x h => h.trans (hf t x)) l (refl s)

theorem staged (h : EventPartsOnly s t) : t.staged = s.staged := by obtain ⟨_, _, _, _, rfl⟩ := h; rfl

theorem cmt (h : EventPartsOnly s t) : t.cmt = s.cmt := by obtain ⟨_, _, _, _, rfl⟩ := h; rfl

theorem fab (h : EventPartsOnly s t) : t.fab = s.fab := by obtain ⟨_, _, _, _, rfl⟩ := h; rfl

theorem setReg (s : State) (p off : Nat) (v : Word) : EventPartsOnly s (s.setReg p off v) := ⟨_, _, _, _, rfl⟩

theorem bump (s : State) (p : Nat) (f : Fld) (n k : Nat) : EventPartsOnly s (s.bump p f n k) := ite (refl s) ⟨_, _, _, _, rfl⟩

theorem updCore (s : State) (c : Nat) (f : Core → Core) : EventPartsOnly s (s.updCore c f) := ⟨_, _, _, _, rfl⟩

/-! ### Arrivals and posts (R476, R485) -/

theorem rawEvt (s : State) (p bit : Nat) : EventPartsOnly s (rawEvt s p bit) := setReg ..

theorem setSrc (s : State) (x : Src) (lsb w v : Nat) : EventPartsOnly s (setSrc s x lsb w v) := setReg ..

theorem pend (s : State) (n : Nat) : EventPartsOnly s (pend s (.shared n)).1 := by
  have merged : EventPartsOnly s (s.bump pgEVC F.EVC_st_MERGED) := bump ..
  unfold Machine.pend
  dsimp only
  split
  · split
    · exact merged
    · exact merged.trans (setSrc ..)
  · exact setSrc ..

theorem enqueue {k : Nat} (h : enqueue s k = some t) : EventPartsOnly s t := by
  unfold Machine.enqueue State.statMax at h
  split at h
  · cases h
    exact ite ⟨_, _, _, _, rfl⟩ ⟨_, _, _, _, rfl⟩
  · cases h

theorem sourcePost (s : State) (n : Nat) : EventPartsOnly s (sourcePost s n) := by
  unfold Machine.sourcePost
  dsimp only
  split
  · split
    · exact refl s
    · split
      · next e => exact (enqueue e).trans (bump ..)
      · exact (setSrc ..).trans (rawEvt ..)
  · exact refl s

theorem arriveOnce (n : Nat) (s : State) : EventPartsOnly s (arriveOnce n s) := by
  unfold Machine.arriveOnce
  dsimp only
  have ext : EventPartsOnly s (if 228 ≤ n ∧ n ≤ 235 then s.bump pgEVC F.EVC_st_EXTARR else s) := ite (bump ..) (refl s)
  have posted := ((ext.trans (bump _ pgEVC F.EVC_st_ARRIVALS 1 0)).trans (pend _ n)).trans (sourcePost _ n)
  exact ite (posted.trans (rawEvt ..)) posted

theorem rising (n : Nat) {f : State → State} (hf : ∀ s, EventPartsOnly s (f s)) (s : State) : EventPartsOnly s (rising n f s) :=
  ite ((hf s).trans (arriveOnce ..)) (hf s)

/-! ### Presentation (R478 to R483) -/

theorem present (c : Nat) (s : State) : EventPartsOnly s (present c s) := by
  unfold Machine.present
  extract_lets k t k'
  have resumed : EventPartsOnly s t := ite (updCore ..) (refl s)
  clear_value t
  refine resumed.trans ?_
  split
  · exact refl t
  · split
    · split
      · exact refl t
      · exact updCore ..
    · split
      · exact refl t
      · exact ite ((updCore ..).trans (bump ..)) (refl t)

theorem presentAll (s : State) : EventPartsOnly s (presentAll s) := by
  refine foldl (fun s _ => foldl (fun s c => ?_) _ s) _ s
  dsimp only
  split
  · exact ite ((updCore ..).trans (bump ..)) (refl s)
  · exact present c s

theorem arrive (n : Nat) (s : State) : EventPartsOnly s (arrive n s) :=
  (rising _ (rising _ (rising _ (arriveOnce n))) s).trans (presentAll _)

theorem evt (s : State) (p bit : Nat) : EventPartsOnly s (s.evt p bit) :=
  ite ((rawEvt s p bit).trans (arrive ..)) (rawEvt s p bit)

end EventPartsOnly

@[simp] theorem evt_staged (s : State) (p bit : Nat) : (s.evt p bit).staged = s.staged := (EventPartsOnly.evt s p bit).staged
@[simp] theorem evt_cmt (s : State) (p bit : Nat) : (s.evt p bit).cmt = s.cmt := (EventPartsOnly.evt s p bit).cmt
@[simp] theorem evt_fab (s : State) (p bit : Nat) : (s.evt p bit).fab = s.fab := (EventPartsOnly.evt s p bit).fab

end Sys2Proof.Machine
end

section
/-!
SUPPORT. The staging set's owner and the commit's end (R77, R78, R83), what the reject fields hold after they are cleared, and what the
outcome of a fabric commit (R380) leaves of all that.
-/
namespace Sys2Proof.Machine
open Sys2Proof

@[simp] theorem quiet_regs (s : State) : s.quiet.regs = s.regs := rfl
@[simp] theorem quiet_staged (s : State) : s.quiet.staged = s.staged := rfl
@[simp] theorem quiet_cmt (s : State) : s.quiet.cmt = s.cmt := rfl
@[simp] theorem quiet_fab (s : State) : s.quiet.fab = s.fab := rfl

@[simp] theorem answered_regs (s t : State) : (answered s t).regs = t.regs := by unfold answered; split <;> rfl
@[simp] theorem answered_reg (s t : State) (p off : Nat) : (answered s t).reg p off = t.reg p off := reg_of_regs (answered_regs s t) ..
@[simp] theorem answered_staged (s t : State) : (answered s t).staged = t.staged := by unfold answered; split <;> rfl
@[simp] theorem answered_cmt (s t : State) : (answered s t).cmt = t.cmt := by unfold answered; split <;> rfl

/-- A field set leaves the fields of its register that share no bit with it. -/
theorem get_set_apart {s : State} (h : StoresOk s) (p : Nat) {f g : Fld} {j k : Nat} (reg : g.off + g.stride * j = f.off + f.stride * k)
    (fits : f.lsb + f.w ≤ 32) (apart : g.lsb + g.w ≤ f.lsb ∨ f.lsb + f.w ≤ g.lsb) (v : Nat) :
    (s.set p f v k).get p g j = s.get p g j := by
  rw [State.get, State.set, reg, reg_setReg_same h, bitsOf_setBits_disjoint _ _ _ _ _ _ fits apart, State.get, reg]

/-! ### The outcome of a fabric commit (R380) -/

section
variable (cid code fn : Nat) (s : State)

@[simp] theorem fcOutcome_staged : (fcOutcome cid code fn s).staged = s.staged := by
  simp [fcOutcome, updFcOf, updFc, apply_ite State.staged]

@[simp] theorem fcOutcome_cmt : (fcOutcome cid code fn s).cmt = s.cmt := by
  simp [fcOutcome, updFcOf, updFc, apply_ite State.cmt]

/-- An outcome leaves the registers of every header but the event bits. -/
theorem fcOutcome_hdr (p : Nat) {off : Nat} (h : off < 0x040) (h' : off ≠ 0x010) :
    (fcOutcome cid code fn s).reg p off = s.reg p off := by
  unfold fcOutcome
  extract_lets noted recorded
  have kept : recorded.reg p off = s.reg p off := by
    have e (a : Nat) (ha : 0x040 ≤ a ∧ a < 4096) : regKey p off ≠ regKey pgFAB a := by
      rw [Ne, regKey_inj (by omega) ha.2]
      omega
    rw [evt_reg _ _ (by decide) (by omega) (by simp only [EventReg]; omega), reg_setReg_ne _ _ _ _ _ _ (e 0x0B4 (by decide)),
      reg_setReg_ne _ _ _ _ _ _ (e 0x0B0 (by decide))]
    exact reg_of_regs (by simp [noted, updFcOf, updFc, apply_ite State.regs]) ..
  clear_value recorded
  split
  · exact kept
  · exact kept

end

section
variable (s : State)

theorem fcFollow_of_not_armed (h : s.fab.fc.armed = false) : fcFollow s = s := by simp [fcFollow, h]

theorem fcFollow_of_not_idle (h : s.cmt.mode ≠ .idle) : fcFollow s = s := by simp [fcFollow, h]

/-- `fcFollow` leaves what every outcome leaves and no change of the fabric's state touches. -/
theorem fcFollow_leaves {α : Type} {g : State → α} (hf : ∀ s f, g (updFab s f) = g s) (ho : ∀ cid code fn s, g (fcOutcome cid code fn s) = g s) :
    g (fcFollow s) = g s := by
  have refused (cid code : Nat) : g (fcRefuse cid code s) = g s := by
    unfold fcRefuse updFcOf updFc
    rw [ho]
    split
    · exact hf ..
    · exact hf ..
  unfold fcFollow
  split
  · rfl
  · dsimp only
    split
    · exact ho ..
    · exact ho ..
    · exact refused ..
    · exact ho ..
    · exact ho ..

@[simp] theorem fcFollow_staged : (fcFollow s).staged = s.staged := fcFollow_leaves s (g := State.staged) updFab_staged fcOutcome_staged

@[simp] theorem fcFollow_cmt : (fcFollow s).cmt = s.cmt := fcFollow_leaves s (g := State.cmt) updFab_cmt fcOutcome_cmt

theorem fcFollow_hdr (p : Nat) {off : Nat} (h : off < 0x040) (h' : off ≠ 0x010) : (fcFollow s).reg p off = s.reg p off :=
  fcFollow_leaves s (g := (State.reg · p off)) (fun _ _ => rfl) fun _ _ _ s => fcOutcome_hdr _ _ _ s p h h'

end

/-! ### The reject fields cleared (R78) -/

theorem mem_allPages {p : Nat} (h : assigned p = true) : p ∈ allPages := by
  have small : p < 0xC4 := by
    simp only [assigned, Bool.or_eq_true, Bool.and_eq_true, decide_eq_true_eq] at h
    omega
  exact (by decide +kernel : ∀ q < 0xC4, assigned q = true → q ∈ allPages) p small h

theorem clearRejects_parts (s : State) : EventPartsOnly s (clearRejects s) :=
  EventPartsOnly.foldl (fun s _ => .ite (.refl s) (.setReg ..)) _ s

/-- Clearing the reject fields leaves every register but the pages' STGSTAT. -/
theorem clearRejects_amGet (s : State) {k : Nat} (h : k % 4096 ≠ 0x020) : amGet (clearRejects s).regs k = amGet s.regs k := by
  refine foldl_induct (P := fun t => amGet t.regs k = amGet s.regs k) (fun t p ht => ?_) _ rfl
  split
  · exact ht
  · refine (amGet_regPut_ne _ _ _ _ fun e => h ?_).trans ht
    rw [e, regKey, Nat.mul_add_mod_self_right]

/-- STGSTAT is 0 on a page of a list once it is cleared on each of them. -/
theorem foldl_clear_stgstat {p : Nat} (l : List Nat) {s : State} (hs : StoresOk s) (h : p ∈ l ∨ s.reg p 0x020 = 0) :
    (l.foldl (fun s p => if s.reg p 0x020 = 0 then s else s.setReg p 0x020 0) s).reg p 0x020 = 0 := by
  induction l generalizing s with
  | nil => simpa using h
  | cons q l ih =>
    refine ih (ite_induct hs (hs.setReg ..)) ?_
    rw [List.mem_cons] at h
    by_cases e : p = q
    · subst e
      right
      dsimp only
      split
      · assumption
      · exact reg_setReg_same hs ..
    · refine (h.imp_left fun h => h.resolve_left e).imp_right fun h => ?_
      have other : regKey p 0x020 ≠ regKey q 0x020 := by simpa [regKey] using e
      dsimp only
      split
      · exact h
      · rwa [reg_setReg_ne _ _ _ _ _ _ other]

theorem clearRejects_stgstat {s : State} (hs : StoresOk s) {p : Nat} (h : assigned p = true) : (clearRejects s).reg p 0x020 = 0 :=
  foldl_clear_stgstat _ hs (.inl (mem_allPages h))

/-! ### DISCARD (R78) -/

section
variable {a : Nat} {s : State}

theorem ctlWrite_discard (a : Nat) (s : State) : ctlWrite a 1 s = discard a s := if_pos (by decide)

theorem discard_notOwner (h : a = 0 ∨ s.cmt.owner ≠ a) : discard a s = s.fault pgCMT 0x02 0x044 a := if_pos h

theorem discard_armed (ha : a ≠ 0) (ho : s.cmt.owner = a) (hm : s.cmt.mode ≠ .idle) : discard a s = s.fault pgCMT 0x03 0x044 a := by
  simp [discard, ha, ho, hm]

section
variable (ha : a ≠ 0) (ho : s.cmt.owner = a) (hm : s.cmt.mode = .idle)
include ha ho hm

theorem discard_owner : discard a s = clearRejects { s with staged := [] } := by simp [discard, ha, ho, hm]

/-- Beside the staging set, which it empties, the owner's DISCARD changes what clearing the reject fields does. -/
theorem discard_parts : EventPartsOnly { s with staged := [] } (discard a s) := by
  rw [discard_owner ha ho hm]
  exact clearRejects_parts _

theorem discard_amGet {k : Nat} (h : k % 4096 ≠ 0x020) : amGet (discard a s).regs k = amGet s.regs k := by
  rw [discard_owner ha ho hm]
  exact clearRejects_amGet _ h

theorem discard_stgstat (hs : StoresOk s) {p : Nat} (h : assigned p = true) : (discard a s).reg p 0x020 = 0 := by
  rw [discard_owner ha ho hm]
  have hs' : StoresOk { s with staged := [] } := ⟨hs.regs, rfl, hs.ctr, hs.mem⟩
  exact clearRejects_stgstat hs' h

end

/-! ### Ownership (R77) -/

@[simp] theorem setOwner_staged (a : Nat) (s : State) : (setOwner a s).staged = s.staged := by simp [setOwner, apply_ite State.staged]
@[simp] theorem setOwner_fab (a : Nat) (s : State) : (setOwner a s).fab = s.fab := by simp [setOwner, apply_ite State.fab]
@[simp] theorem setOwner_cmt (a : Nat) (s : State) : (setOwner a s).cmt = { s.cmt with owner := a } := by
  unfold setOwner
  split
  · next h => rw [← h]
  · simp

theorem claim_free (ha : a ≠ 0) (h : s.cmt.owner = 0 ∨ s.cmt.owner = a) : claim a s = setOwner a s := by simp [claim, ha, h]

theorem claim_busy (ha : a ≠ 0) (h : s.cmt.owner ≠ 0) (h' : s.cmt.owner ≠ a) : claim a s = s.fault pgCMT 0x05 0x040 a := by
  simp [claim, ha, h, h']

theorem release_owner (ha : a ≠ 0) (h : s.cmt.owner = a) : release a s = setOwner 0 s := if_pos ⟨ha, h⟩

theorem release_notOwner (h : a = 0 ∨ s.cmt.owner ≠ a) : release a s = s.fault pgCMT 0x02 0x040 a :=
  if_neg fun e => h.elim e.1 (· e.2)

theorem seize_refused (h : a ≠ 5) (h' : a ≠ 6) : seize a s = s.fault pgCMT 0x02 0x040 a := if_neg (by simp [h, h'])

theorem seize_locked (h : a = 5 ∨ a = 6) (hm : s.cmt.mode = .locked) : seize a s = setOwner a s := by simp [seize, h, hm]

theorem seize_unlocked (h : a = 5 ∨ a = 6) (hm : s.cmt.mode = .checking ∨ s.cmt.mode = .armed) :
    seize a s = cancelCommit 8 (setOwner a s) := by
  simp [seize, h, hm]

/-! ### A write of OWN with one bit (R77) -/

section
variable {v : Word}

/-- A write of CLAIM alone comes to the claim: what the register's own checks refuse, the claim refuses. -/
theorem ownWrite_claim (h8 : bitsOf v 8 1 = 1) (h9 : bitsOf v 9 1 = 0) (h10 : bitsOf v 10 1 = 0) (a : Nat) (s : State) :
    ownWrite a v s = claim a s := by
  by_cases ha : a = 0
  · simp [ownWrite, claim, h8, ha]
  · by_cases hb : s.cmt.owner ≠ 0 ∧ s.cmt.owner ≠ a
    · simp [ownWrite, claim_busy ha hb.1 hb.2, h8, h9, h10, ha, hb]
    · simp [ownWrite, h8, h9, h10, ha, hb]

theorem ownWrite_release (h8 : bitsOf v 8 1 = 0) (h9 : bitsOf v 9 1 = 1) (h10 : bitsOf v 10 1 = 0) (a : Nat) (s : State) :
    ownWrite a v s = release a s := by
  by_cases h : a = 0 ∨ s.cmt.owner ≠ a
  · simp [ownWrite, release_notOwner h, h8, h9, h]
  · simp [ownWrite, h8, h9, h10, h]

theorem ownWrite_seize (h8 : bitsOf v 8 1 = 0) (h9 : bitsOf v 9 1 = 0) (h10 : bitsOf v 10 1 = 1) (a : Nat) (s : State) :
    ownWrite a v s = seize a s := by
  by_cases h : a ≠ 5 ∧ a ≠ 6
  · simp [ownWrite, seize_refused h.1 h.2, h8, h9, h10, h]
  · simp [ownWrite, h8, h9, h10, h]

end

end

/-! ### A commit's end (R83) -/

section
variable (code bit : Nat) (s : State)

@[simp] theorem endCommit_staged : (endCommit code bit s).staged = s.staged := by simp [endCommit]
@[simp] theorem endCommit_fab : (endCommit code bit s).fab = s.fab := by simp [endCommit]
@[simp] theorem endCommit_cmt :
    (endCommit code bit s).cmt = { s.cmt with mode := .idle, disarmPending := false, late := false, waitE := false } := by simp [endCommit]

/-- A commit's end shows its result, which the agent and the event beside it leave. -/
theorem endCommit_result {s : State} (h : StoresOk s) : (endCommit code bit s).get pgCMT F.CMT_RESULT_CODE = code % 16 := by
  unfold endCommit
  extract_lets cmt ended
  have he : StoresOk ended := ⟨h.regs, h.staged, h.ctr, h.mem⟩
  rw [evt_get _ _ _ _ (by decide) (by decide) (by simp [EventReg, F.CMT_RESULT_CODE, pgCMT, pgEVC]),
    get_set_apart (he.set ..) _ (f := F.CMT_RESULT_AGENT) (g := F.CMT_RESULT_CODE) rfl (by decide) (by decide), get_set_same he _ (by decide)]
  rfl

end

/-- A state with canonical stores keeps itself, whatever parts may change. -/
theorem StoresOk.keeps {s : State} (h : StoresOk s) (may : Nat) : Keeps ⟨s.pending, s.freeCtr, s, may⟩ s :=
  ⟨⟨h.regs, h.staged, h.ctr, h.mem, rfl, le_rfl, .inr rfl, .inr rfl, .inr rfl, .inr rfl, .inr rfl, .inr rfl, .inr rfl, .inr rfl, .inr rfl,
    .inr rfl, .inr rfl, .inr rfl, .inr rfl, .inr rfl, .inr rfl, .inr rfl, .inr rfl, .inr rfl, .inr rfl, .inr rfl, .inr rfl, .inr rfl, .inr rfl,
    .inr rfl⟩⟩

theorem Keeps.storesOk {K : Keeping} {s : State} (h : Keeps K s) : StoresOk s :=
  ⟨h.parts.regsOk, h.parts.stagedOk, h.parts.ctrOk, h.parts.memOk⟩

theorem StoresOk.setOwner {s : State} (h : StoresOk s) (a : Nat) : StoresOk (setOwner a s) :=
  (keeps_setOwner a s (h.keeps 0x70) ⟨fun _ h => h⟩).storesOk

theorem StoresOk.bump {s : State} (h : StoresOk s) (p : Nat) (f : Fld) (n k : Nat) : StoresOk (s.bump p f n k) :=
  (keeps_bump _ _ _ _ _ (h.keeps 0)).storesOk

end Sys2Proof.Machine
end

section
/-!
PROOF. The commands of the staging set's owner, O17 and O18.
-/
namespace Sys2Proof.Machine
open Sys2Proof

theorem exec_discard (a : BitVec 4) (s : State) : exec (.discard a) s = .next (answered s.quiet (fcFollow (discard a.toNat s.quiet))) := by
  rw [← ctlWrite_discard]
  exact execDiscard_eq a s

theorem exec_claim (a : BitVec 4) (s : State) : exec (.claim a) s = .next (answered s.quiet (fcFollow (claim a.toNat s.quiet))) := by
  rw [← ownWrite_claim (v := 0x100) rfl rfl rfl]
  exact execClaim_eq a s

theorem exec_release (a : BitVec 4) (s : State) : exec (.release a) s = .next (answered s.quiet (fcFollow (release a.toNat s.quiet))) := by
  rw [← ownWrite_release (v := 0x200) rfl rfl rfl]
  exact execRelease_eq a s

theorem exec_seize (a : BitVec 4) (s : State) : exec (.seize a) s = .next (answered s.quiet (fcFollow (seize a.toNat s.quiet))) := by
  rw [← ownWrite_seize (v := 0x400) rfl rfl rfl]
  exact execSeize_eq a s

theorem agent_toNat_eq_zero_or {a : BitVec 4} {p : Prop} (h : a = 0 ∨ p) : a.toNat = 0 ∨ p := h.imp_left (congrArg BitVec.toNat)

theorem agent_toNat_seizer {a : BitVec 4} (h : a = 5 ∨ a = 6) : a.toNat = 5 ∨ a.toNat = 6 :=
  h.imp (congrArg BitVec.toNat) (congrArg BitVec.toNat)

theorem pagePend_of_staged_nil {s : State} (h : s.staged = []) (p : Nat) : pagePend s p = false := by simp [pagePend, h]

theorem stagedReg_of_staged_nil {s : State} (h : s.staged = []) (k : Nat) : stagedReg s k = (amGet s.regs k).getD (resetAt k) := by
  simp [stagedReg, h, amGet]

/-- Settles O17: DISCARD empties the staging set and clears STGSTAT, and the outcome of a fabric commit that may follow touches neither. -/
theorem discardRule : Obligations.DiscardRule := by
  unfold Obligations.DiscardRule
  refine ⟨?owner, ?notOwner, ?armed⟩
  case owner =>
    intro a s hs ha ho hm
    have ha' := agent_toNat_ne_zero ha
    have parts := discard_parts (s := s.quiet) ha' ho hm
    have empty : (answered s.quiet (fcFollow (discard a.toNat s.quiet))).staged = [] := by
      rw [answered_staged, fcFollow_staged, parts.staged]
    refine ⟨_, exec_discard a s, empty, ?_, pagePend_of_staged_nil empty, stagedReg_of_staged_nil empty, fun noFabric k hk => ?_,
      fun p hp => ?_⟩
    · rw [answered_cmt, fcFollow_cmt, parts.cmt, quiet_cmt]
    · rw [answered_regs, fcFollow_of_not_armed _ (by rwa [parts.fab]), discard_amGet (s := s.quiet) ha' ho hm hk, quiet_regs]
    · have zero : (fcFollow (discard a.toNat s.quiet)).reg p 0x020 = 0 := by
        rw [fcFollow_hdr _ _ (by decide) (by decide), discard_stgstat (s := s.quiet) ha' ho hm hs.quiet hp]
      simp [State.get, zero, F.HDR_STGSTAT_REJ, F.HDR_STGSTAT_REJOFF, F.HDR_STGSTAT_PEND, bitsOf]
  case notOwner =>
    intro a s h
    rw [exec_discard, discard_notOwner (s := s.quiet) (agent_toNat_eq_zero_or h)]
  case armed =>
    intro a s ha ho hm
    rw [exec_discard, discard_armed (s := s.quiet) (agent_toNat_ne_zero ha) ho hm, fcFollow_of_not_idle _ (by rwa [fault_cmt]), answered_fault]

/-- Settles O18, command by command from what each one's operation makes of the owner and of the commit. -/
theorem ownershipMoves : Obligations.OwnershipMoves := by
  unfold Obligations.OwnershipMoves
  refine ⟨?claimNobody, ?claimFree, ?claimBusy, ?release, ?releaseOther, ?seizeUnlocked, ?seizeLocked, ?seizeRefused⟩
  case claimNobody =>
    intro s
    exact exec_claim 0 s
  case claimFree =>
    intro a s ha h
    refine ⟨_, exec_claim a s, ?_⟩
    rw [claim_free (s := s.quiet) (agent_toNat_ne_zero ha) h]
    simp
  case claimBusy =>
    intro a s ha h h'
    rw [exec_claim, claim_busy (s := s.quiet) (agent_toNat_ne_zero ha) h h']
  case release =>
    intro a s ha h
    refine ⟨_, exec_release a s, ?_⟩
    rw [release_owner (s := s.quiet) (agent_toNat_ne_zero ha) h]
    simp
  case releaseOther =>
    intro a s h
    rw [exec_release, release_notOwner (s := s.quiet) (agent_toNat_eq_zero_or h)]
  case seizeUnlocked =>
    intro a s hs h noFabric hm
    have hd : StoresOk ((setOwner a.toNat s.quiet).bump pgCMT F.CMT_st_CANCELLED) := (hs.quiet.setOwner _).bump ..
    refine ⟨_, exec_seize a s, ?_⟩
    rw [seize_unlocked (s := s.quiet) (agent_toNat_seizer h) hm, cancelCommit, fcFollow_of_not_armed _ (by simpa using noFabric),
      answered_get, endCommit_result _ _ hd]
    simp
  case seizeLocked =>
    intro a s h hm
    refine ⟨_, exec_seize a s, ?_⟩
    rw [seize_locked (s := s.quiet) (agent_toNat_seizer h) hm]
    simp
  case seizeRefused =>
    intro a s h h'
    rw [exec_seize, seize_refused (fun e => h (BitVec.eq_of_toNat_eq e)) (fun e => h' (BitVec.eq_of_toNat_eq e))]

end Sys2Proof.Machine
end

section
/-!
SUPPORT. What an access to memory may write of the state: what an event may, the bytes and their check bits, and the count of free values.
-/
namespace Sys2Proof.Machine
open Sys2Proof

/-- The second state is the first but for the parts that an event records itself in, the memories and the count of free values: all that an
access to memory writes. -/
structure AccessPartsOnly (s t : State) : Prop where
  eq : ∃ regs ctr cores tsk mem mm freeCtr,
      t = { s with regs := regs, ctr := ctr, cores := cores, tsk := tsk, mem := mem, mm := mm, freeCtr := freeCtr }

namespace AccessPartsOnly
variable {s t u : State}

theorem refl (s : State) : AccessPartsOnly s s := ⟨_, _, _, _, _, _, _, rfl⟩

theorem trans (h : AccessPartsOnly s t) (h' : AccessPartsOnly t u) : AccessPartsOnly s u := by
  obtain ⟨_, _, _, _, _, _, _, rfl⟩ := h
  obtain ⟨_, _, _, _, _, _, _, rfl⟩ := h'
  exact ⟨_, _, _, _, _, _, _, rfl⟩

theorem of_event (h : EventPartsOnly s t) : AccessPartsOnly s t := by
  obtain ⟨_, _, _, _, rfl⟩ := h
  exact ⟨_, _, _, _, _, _, _, rfl⟩

theorem ite {c : Prop} [Decidable c] (ht : AccessPartsOnly s t) (hu : AccessPartsOnly s u) : AccessPartsOnly s (if c then t else u) := by
  split
  · exact ht
  · exact hu

theorem foldl {α : Type} {f : State → α → State} (hf : ∀ s x, AccessPartsOnly s (f s x)) (l : List α) (s : State) :
    AccessPartsOnly s (l.foldl f s) :=
  foldl_induct (P := AccessPartsOnly s) (fun t x h => h.trans (hf t x)) l (refl s)

theorem foldl_fst {α β : Type} {f : State × β → α → State × β} (hf : ∀ p x, AccessPartsOnly p.1 (f p x).1) (l : List α)
    (p : State × β) :
    AccessPartsOnly p.1 (l.foldl f p).1 :=
  List.foldlRecOn (motive := fun q => AccessPartsOnly p.1 q.1) l f (refl _) fun q h x _ => h.trans (hf q x)

theorem outs (h : AccessPartsOnly s t) : t.outs = s.outs := by obtain ⟨_, _, _, _, _, _, _, rfl⟩ := h; rfl

theorem col (h : AccessPartsOnly s t) : t.col = s.col := by obtain ⟨_, _, _, _, _, _, _, rfl⟩ := h; rfl

theorem setReg (s : State) (p off : Nat) (v : Word) : AccessPartsOnly s (s.setReg p off v) := of_event (EventPartsOnly.setReg ..)

theorem set (s : State) (p : Nat) (f : Fld) (v k : Nat) : AccessPartsOnly s (s.set p f v k) := setReg ..

theorem fault (s : State) (p c off a : Nat) : AccessPartsOnly s (s.fault p c off a) := (setReg ..).trans (setReg ..)

theorem bump (s : State) (p : Nat) (f : Fld) (n k : Nat) : AccessPartsOnly s (s.bump p f n k) := of_event (EventPartsOnly.bump ..)

theorem memory (s : State) (mem : List Host.Cell) (mm : MemState) : AccessPartsOnly s { s with mem := mem, mm := mm } :=
  ⟨_, _, _, _, _, _, _, rfl⟩

theorem evt (s : State) (p bit : Nat) : AccessPartsOnly s (s.evt p bit) := of_event (EventPartsOnly.evt ..)

/-! ### Checks of ECC words and MRAM codewords (R417, R420, R422, R438) -/

theorem recordErr (unc sram : Bool) (source word : Nat) (s : State) : AccessPartsOnly s (recordErr unc sram source word s) := by
  unfold Machine.recordErr
  extract_lets had kind source placed faulted
  have placed' : AccessPartsOnly s placed := by
    unfold placed
    split
    · exact refl s
    · exact (((((set ..).trans (set ..)).trans (set ..)).trans (set ..)).trans (set ..)).trans (set ..)
  have faulted' : AccessPartsOnly s faulted := placed'.trans (ite (fault ..) (refl _))
  exact faulted'.trans (evt ..)

theorem checkWord (w : Who) (sram : Bool) (word : Nat) (s : State) : AccessPartsOnly s (checkWord w sram word s).1 := by
  unfold Machine.checkWord
  split
  · exact refl s
  · dsimp only
    split
    · exact ((memory ..).trans (bump ..)).trans (recordErr ..)
    · exact recordErr ..

theorem checkRead (w : Who) (sram : Bool) (words : List Nat) (s : State) : AccessPartsOnly s (checkRead w sram words s).1 := by
  unfold Machine.checkRead countUnc
  refine AccessPartsOnly.trans (foldl_fst (fun p x => ?_) words (s, true)) (ite (refl _) (bump ..))
  exact checkWord ..

theorem checkWords (w : Who) (sram : Bool) (a n : Nat) (s : State) : AccessPartsOnly s (checkWords w sram a n s).1 := by
  unfold Machine.checkWords
  split
  · exact checkRead ..
  · exact foldl_fst (fun p b => by exact checkRead ..) _ (s, true)

theorem checkCodeword (cw : Nat) (s : State) : AccessPartsOnly s (checkCodeword cw s).1 := by
  unfold Machine.checkCodeword
  split
  · exact refl s
  · split
    · exact bump s pgNVM F.NVM_st_CORR 1 0
    · exact ((((bump s ..).trans (set ..)).trans (set ..)).trans (fault ..)).trans (evt ..)

/-! ### Programs of the MRAM that a read waits for (R423, R425) -/

theorem startProg (p : NvmProg) (s : State) : AccessPartsOnly s (startProg p s) :=
  (memory s s.mem { s.mm with prog := some p }).trans (set ..)

theorem mergeCodeword (p : NvmProg) (s : State) (c : Nat) : AccessPartsOnly s (mergeCodeword p s c) := by
  have checked := checkCodeword c s
  unfold Machine.mergeCodeword
  split
  · exact refl s
  · split
    · next e => rwa [e] at checked
    · next e =>
      rw [e] at checked
      exact checked.trans (foldl (fun s k => ⟨_, _, _, _, _, _, _, rfl⟩) _ _)

theorem nvmDone (s : State) : AccessPartsOnly s (nvmDone s) := by
  unfold Machine.nvmDone
  split
  · exact refl s
  · next p _ =>
    extract_lets merged mm stored free counted done
    have stored' : AccessPartsOnly s stored := (foldl (mergeCodeword p) _ s).trans (memory ..)
    have counted' : AccessPartsOnly s counted := (stored'.trans (set ..)).trans (ite (bump ..) ((bump ..).trans (set ..)))
    have done' : AccessPartsOnly s done := counted'.trans (evt ..)
    clear_value done
    split
    · exact done'
    · exact (done'.trans (memory ..)).trans (startProg ..)

theorem mramHold (off n k : Nat) (s : State) : AccessPartsOnly s (mramHold off n k s) := by
  induction k generalizing s with
  | zero => exact refl s
  | succ k ih =>
    unfold Machine.mramHold
    split
    · exact ite ((nvmDone s).trans (ih _)) (refl s)
    · exact refl s

theorem mramRead (off n : Nat) (s : State) : AccessPartsOnly s (mramRead off n s).1 := by
  unfold Machine.mramRead
  split
  · exact refl s
  · extract_lets held codewords
    have held' : AccessPartsOnly s held := mramHold ..
    exact held'.trans (foldl_fst (fun p c => by exact checkCodeword ..) codewords (held, true))

/-! ### Reads (R415 to R422) -/

theorem ownGrants (w : Who) (a n : Nat) (s : State) : AccessPartsOnly s (ownGrants w a n s) :=
  ite (foldl (fun s _ => (bump s ..).trans (bump ..)) _ s) (refl s)

theorem rd (w : Who) (a n : Nat) (s : State) : AccessPartsOnly s (rd w a n s).1 := by
  refine (ownGrants w a n s).trans ?_
  unfold Machine.rd rdMem
  split
  · exact refl _
  · split
    · exact checkWords ..
    · split
      · exact mramRead ..
      · split
        · split
          · exact refl _
          · exact checkWords ..
        · exact refl _

/-! ### Writes (R123, R124, R418, R469) -/

theorem guarded (w : Who) (off n : Nat) (s : State) : AccessPartsOnly s (guarded w off n s).1 :=
  foldl (fun s _ => (((((bump s ..).trans (set ..)).trans (set ..)).trans (set ..)).trans (set ..)).trans (evt ..)) _ s

theorem mergeWords (w : Who) (sram : Bool) (a n : Nat) (s : State) : AccessPartsOnly s (mergeWords w sram a n s).1 := by
  refine foldl_fst (fun p x => ?_) _ (s, true)
  dsimp only
  split
  · exact refl _
  · exact (bump p.1 ..).trans (checkRead w sram [x] _)

theorem injectOn (a n : Nat) (s : State) : AccessPartsOnly s (injectOn a n s) := by
  unfold Machine.injectOn
  split
  · exact refl s
  · exact ite (memory ..) (refl s)

theorem breakReservations (a n : Nat) (s : State) : AccessPartsOnly s (breakReservations a n s) := ⟨_, _, _, _, _, _, _, rfl⟩

theorem confNote (l : List Nat) (s : State) : AccessPartsOnly s (confNote l s) := memory ..

theorem wrBurst (w : Who) (a : Nat) (b : List Byte) (s : State) : AccessPartsOnly s (wrBurst w a b s).1 := by
  unfold Machine.wrBurst
  extract_lets n sram
  split
  · have tested : AccessPartsOnly s (if sram then (s, false) else Machine.guarded w (fsOffset a) n s).1 := by
      split
      · exact refl s
      · exact guarded ..
    generalize (if sram then (s, false) else Machine.guarded w (fsOffset a) n s) = test at tested ⊢
    dsimp only
    split
    · exact tested
    · have merged := tested.trans (mergeWords w sram a n test.1)
      split
      · exact merged
      · exact (((merged.trans (memory ..)).trans (injectOn ..)).trans (breakReservations ..)).trans (ite (refl _) (confNote ..))
  · exact refl s

theorem wr (w : Who) (a : Nat) (b : List Byte) (s : State) : AccessPartsOnly s (wr w a b s).1 := by
  refine (ownGrants w a b.length s).trans ?_
  unfold Machine.wr wrMem
  split
  · exact foldl_fst (fun p k => by exact wrBurst ..) _ (_, true)
  · exact wrBurst ..

end AccessPartsOnly

end Sys2Proof.Machine
end

section
/-!
SUPPORT. What the work of a lane leaves of the outputs: the reads of the colour engine's tables (R135 to R160), the compositor's fetches (R98 to
R128) and the words written (R159).
-/
namespace Sys2Proof.Machine
open Sys2Proof

/-- Work on the frame store that leaves a part of the state as it was, ended early or not. -/
structure Leaves {α β : Type} (part : State → β) (m : RdM α) : Prop where
  run : ∀ s, part (OptionT.run m s).2 = part s

namespace Leaves
variable {α β γ : Type} {part : State → γ}

protected theorem pure (a : α) : Leaves part (pure a : RdM α) := ⟨fun _ => rfl⟩

protected theorem get : Leaves part (get : RdM State) := ⟨fun _ => rfl⟩

protected theorem modify {f : State → State} (hf : ∀ s, part (f s) = part s) : Leaves part (modify f : RdM PUnit) := ⟨hf⟩

protected theorem bind {m : RdM α} {f : α → RdM β} (hm : Leaves part m) (hf : ∀ a, Leaves part (f a)) : Leaves part (m >>= f) := by
  refine ⟨fun s => ?_⟩
  have first := hm.run s
  rw [OptionT.run_bind]
  change part (Option.elim (OptionT.run m s).1 (pure none) (fun a => OptionT.run (f a)) (OptionT.run m s).2).2 = part s
  cases (OptionT.run m s).1 with
  | none => exact first
  | some a => exact ((hf a).run _).trans first

protected theorem ite {c : Prop} [Decidable c] {m n : RdM α} (hm : Leaves part m) (hn : Leaves part n) :
    Leaves part (if c then m else n) := by
  split
  · exact hm
  · exact hn

/-- Work that is done where a condition holds, before what follows either way. -/
theorem when {c : Prop} [Decidable c] {m : RdM PUnit} {f : PUnit → RdM α} (hm : Leaves part m) (hf : ∀ u, Leaves part (f u)) :
    Leaves part (if c then m >>= f else f ()) := (hm.bind hf).ite (hf ())

/-- One of two works, before what follows either. -/
theorem choose {c : Prop} [Decidable c] {m n : RdM α} {f : α → RdM β} (hm : Leaves part m) (hn : Leaves part n)
    (hf : ∀ a, Leaves part (f a)) : Leaves part (if c then m >>= f else n >>= f) := (hm.bind hf).ite (hn.bind hf)

protected theorem mapM {f : α → RdM β} (hf : ∀ a, Leaves part (f a)) : ∀ l : List α, Leaves part (l.mapM f)
  | [] => .pure []
  | x :: l => by
    rw [List.mapM_cons]
    exact (hf x).bind fun _ => (Leaves.mapM hf l).bind fun _ => .pure _

/-- The record of a fixture costs one read. -/
theorem readInstance (hr : ∀ port off n, Leaves part (rdFs port off n)) (s : State) (port i : Nat) :
    Leaves part (readInstance s port i) :=
  .ite (.pure _) ((hr ..).bind fun _ => .pure _)

end Leaves

/-- Work that leaves the outputs. -/
abbrev LeavesOuts {α : Type} (m : RdM α) : Prop := Leaves State.outs m

@[simp] theorem tableErr_outs (s : State) : (tableErr s).outs = s.outs := by simp [tableErr]

@[simp] theorem touchProfile_outs (p size : Nat) (s : State) : (touchProfile p size s).outs = s.outs := by
  simp [touchProfile, apply_ite State.outs]

theorem leavesOuts_rdFs (port off n : Nat) : LeavesOuts (rdFs port off n) := ⟨fun _ => rd_outs ..⟩

theorem leavesOuts_tableErr : LeavesOuts (modify tableErr) := .modify tableErr_outs

/-! ### The stages of a lane (R137 to R158) -/

section
variable (port : Nat)

theorem leavesOuts_readProfile (off : Nat) : LeavesOuts (readProfile port off) :=
  (leavesOuts_rdFs ..).bind fun _ =>
    .ite (.pure _) ((leavesOuts_rdFs ..).bind fun _ => (leavesOuts_rdFs ..).bind fun _ => .pure _)

theorem leavesOuts_tryCell (t : Mix) (block : Nat) (q : Pt) (cell : Nat) : LeavesOuts (tryCell port t block q cell) :=
  .ite (leavesOuts_tableErr.bind fun _ => .pure _) <| (leavesOuts_rdFs ..).bind fun _ =>
    .ite (leavesOuts_tableErr.bind fun _ => .pure _) <| (Leaves.mapM (fun _ => leavesOuts_rdFs ..) _).bind fun _ => .pure _

theorem leavesOuts_tryCells (t : Mix) (block : Nat) (q : Pt) (l : List Nat) : LeavesOuts (tryCells port t block q l) := by
  induction l with
  | nil => exact .pure none
  | cons i rest ih =>
    refine .ite (leavesOuts_tableErr.bind fun _ => ih) <| (leavesOuts_rdFs ..).bind fun _ => (leavesOuts_tryCell ..).bind fun r => ?_
    cases r with
    | none => exact ih
    | some r => exact .pure _

theorem leavesOuts_inside (t : Mix) (block : Nat) (q : Pt) : LeavesOuts (inside port t block q) := by
  unfold inside
  split
  · exact (leavesOuts_rdFs ..).bind fun _ => .ite (.pure _) (leavesOuts_tryCells ..)
  · exact .pure _

theorem leavesOuts_bisect (t : Mix) (block : Nat) (at' : Fl → Pt) (n : Nat) (k : Fl) : LeavesOuts (bisect port t block at' n k) := by
  induction n generalizing k with
  | zero => exact .pure k
  | succ n ih => exact (leavesOuts_inside ..).bind fun _ => ih _

theorem leavesOuts_mixOne (n block toff : Nat) (xyz : Pt) : LeavesOuts (mixOne port n block toff xyz) := by
  refine (leavesOuts_rdFs ..).bind fun _ => (leavesOuts_inside ..).bind fun r => ?_
  cases r with
  | some r => exact .pure _
  | none =>
    refine (leavesOuts_inside ..).bind fun _ => (leavesOuts_bisect ..).bind fun _ => (leavesOuts_inside ..).bind fun r => ?_
    cases r with
    | some r => exact .pure _
    | none => exact .pure _

theorem leavesOuts_stageMix (block : Nat) (h st : List Byte) (xyz : Pt) : LeavesOuts (stageMix port block h st xyz) :=
  (leavesOuts_mixOne ..).bind fun ⟨_, _, _⟩ => .choose (.pure _) (leavesOuts_mixOne ..) fun ⟨_, _, _⟩ =>
    .when leavesOuts_tableErr fun _ => .when (.modify fun s => by simp) fun _ => .pure _

theorem leavesOuts_stageDrive (test : Bool) (st rec : List Byte) (e : Nat) (w : Fl) : LeavesOuts (stageDrive test st rec e w) :=
  .when (.modify fun s => by simp) fun _ => .pure _

theorem leavesOuts_stageTransfer (block : Nat) (h : List Byte) (e : Nat) (d : Fl) : LeavesOuts (stageTransfer port block h e d) :=
  .ite (.pure _) <| (leavesOuts_rdFs ..).bind fun _ => .ite (.pure _) <| (leavesOuts_rdFs ..).bind fun _ => .pure _

theorem leavesOuts_entryCodes (p e slot : Nat) (rec : List Byte) (st : Option (List Byte)) (rgb : Nat × Nat × Nat) :
    LeavesOuts (entryCodes port p e slot rec st rgb) := by
  refine Leaves.get.bind fun s => (leavesOuts_readProfile ..).bind fun h => ?_
  cases h with
  | none => exact leavesOuts_tableErr.bind fun _ => .pure _
  | some h =>
    refine (Leaves.modify fun s => touchProfile_outs _ _ s).bind fun _ => ?_
    refine .ite ((Leaves.pure _).bind ?coded) (.choose (.pure _) (leavesOuts_stageMix ..) ?coded)
    case coded =>
      exact fun _ => (Leaves.mapM (fun ⟨_, _⟩ => (leavesOuts_stageDrive ..).bind fun _ => leavesOuts_stageTransfer ..) _).bind fun _ =>
        .mapM (fun _ => .ite (leavesOuts_tableErr.bind fun _ => .pure _) (.ite (.pure _) ((leavesOuts_rdFs ..).bind fun _ => .pure _))) _

end

/-! ### The compositor (R98 to R122) -/

@[simp] theorem missFetch_outs (v : Nat) (s : State) : (missFetch v s).outs = s.outs := by
  simp [missFetch, apply_ite State.outs]

@[simp] theorem fetchPx_outs (v b i j : Nat) (s : State) : (fetchPx v b i j s).1.outs = s.outs := by
  unfold fetchPx
  dsimp only
  split <;> simp

@[simp] theorem fetch_outs (v b x y : Nat) (s : State) : (fetch v b x y s).1.outs = s.outs := by
  unfold fetch
  dsimp only
  split
  · simp
  · split <;> simp

@[simp] theorem source_outs (v x y : Nat) (s : State) : (source v x y s).1.outs = s.outs := by
  unfold source
  dsimp only
  split
  · rfl
  · split
    · rfl
    · split
      · simp
      · split
        · rfl
        · split <;> simp

theorem blendVeneer_outs (x y : Nat) (st : State × Px × Fl) (v : Nat) : (blendVeneer x y st v).1.outs = st.1.outs := by
  unfold blendVeneer
  dsimp only
  split
  · rfl
  · split <;> simp

@[simp] theorem composite_outs (x y : Nat) (s : State) : (composite x y s).1.outs = s.outs := by
  unfold composite
  exact foldl_fst_outs (blendVeneer_outs x y) _ _

@[simp] theorem lanePort_outs (s : State) : (lanePort s).1.outs = s.outs := by
  unfold lanePort
  split <;> simp

/-! ### What a lane leaves of the outputs -/

/-- The pins are as they were, and every strand's entries have got as far. -/
structure LaneFrame (s t : State) : Prop where
  pins : t.outs.pins = s.outs.pins
  pos : ∀ q, (strand t q).pos = (strand s q).pos

theorem LaneFrame.of_outs {s t : State} (h : t.outs = s.outs) : LaneFrame s t :=
  ⟨by rw [h], fun q => by rw [strand_of_outs h]⟩

theorem LaneFrame.trans {s t u : State} (h : LaneFrame s t) (h' : LaneFrame t u) : LaneFrame s u :=
  ⟨h'.pins.trans h.pins, fun q => (h'.pos q).trans (h.pos q)⟩

/-- The words of an entry, or a blocked write that spoils the strand's frame (R20, R124). -/
theorem LaneFrame.writeWords (port p e : Nat) (codes : List Nat) (s : State) : LaneFrame s (writeWords port p e codes s) := by
  unfold Machine.writeWords
  extract_lets +onlyGivenNames set off
  split
  next t ok written =>
  have kept : LaneFrame s t := .of_outs ((congrArg (·.1.outs) written).symm.trans (wr'_outs ..))
  split
  · exact kept
  · exact kept.trans ⟨updStrand_pins .., fun q => strand_updStrand_proj Strand.pos (by simp) t p q⟩

/-- The state in which an entry of a strand has passed and is counted (R119, R134). -/
def entryTaken (p : Nat) (s : State) : State :=
  ((updStrand s p fun k => { k with pos := k.pos + 1 }).bump pgMAP F.MAP_st_ENTRIES).bump pgCOL F.COL_st_PIXELS

@[simp] theorem entryTaken_pins (p : Nat) (s : State) : (entryTaken p s).outs.pins = s.outs.pins := by simp [entryTaken]

theorem strand_entryTaken {p : Nat} {s : State} (hp : p < s.outs.strands.length) :
    (strand (entryTaken p s) p).pos = (strand s p).pos + 1 := by
  have counted : (entryTaken p s).outs = (updStrand s p fun k => { k with pos := k.pos + 1 }).outs := by simp [entryTaken]
  rw [strand_of_outs counted, strand_updStrand_same hp]

/-- An entry that passes is counted; what the lane then makes of it moves no strand on and no pin. -/
theorem lanePass_frame {p : Nat} {s : State} (hp : preparesOn s = true) (ho : s.outs.preparing = true) (hl : laneHead s = some p) :
    LaneFrame (entryTaken p s) (lanePass p s) := by
  unfold lanePass
  rw [if_neg (by simp [hp, ho, hl])]
  extract_lets +onlyGivenNames e moved taken
  change LaneFrame taken _
  clear_value taken e
  split
  next s1 entry e1 =>
  have h1 : s1.outs = taken.outs := (congrArg (·.1.outs) e1).symm.trans (rd_outs ..)
  split
  · exact .of_outs (by simp [h1])
  · extract_lets +onlyGivenNames v x y fix slot eccErr
    have failed : ∀ o u, u.outs = taken.outs → LaneFrame taken (eccErr o u) := fun o u h => .of_outs (by simp [eccErr, h])
    split
    · exact .of_outs (by simp [h1])
    · split
      next s2 port e2 =>
      have h2 : s2.outs = taken.outs := ((congrArg (·.1.outs) e2).symm.trans (lanePort_outs ..)).trans h1
      split
      next r3 s3 e3 =>
      have h3 : s3.outs = taken.outs := ((congrArg (·.2.outs) e3).symm.trans ((Leaves.readInstance leavesOuts_rdFs ..).run _)).trans h2
      split
      · exact failed _ _ h3
      · exact .of_outs (by simp [h3])
      · extract_lets +onlyGivenNames get cx cy s4
        have h4 : s4.outs = taken.outs := by simp [s4, apply_ite State.outs, h3]
        clear_value s4
        split
        next s5 rgb e5 =>
        have h5 : s5.outs = taken.outs := ((congrArg (·.1.outs) e5).symm.trans (composite_outs ..)).trans h4
        split
        next s6 state e6 =>
        have h6 : s6.outs = taken.outs := ((congrArg (·.1.outs) e6).symm.trans (rd_outs ..)).trans h5
        split
        · exact failed _ _ h6
        · split
          next r7 s7 e7 =>
          have h7 : s7.outs = taken.outs := ((congrArg (·.2.outs) e7).symm.trans ((leavesOuts_entryCodes ..).run _)).trans h6
          split
          · exact failed _ _ h7
          · exact (LaneFrame.of_outs h7).trans (.writeWords ..)

end Sys2Proof.Machine
end

section
/-!
SUPPORT. What a snapshot's end makes of its veneer (R107, R112), and what the state sweep makes of the colour engine's records (R149 to R153).
-/
namespace Sys2Proof.Machine
open Sys2Proof

/-! ### A buffer completed (R107) -/

theorem venOf_updVen_same {s : State} {v : Nat} (hv : v < s.vens.length) (g : Ven → Ven) : venOf (updVen s v g) v = g (venOf s v) :=
  getD_updAt_same hv g _

theorem venOf_updVen_proj {β : Type} (part : Ven → β) {g : Ven → Ven} (hg : ∀ k, part (g k) = part k) (s : State) (v w : Nat) :
    part (venOf (updVen s v g) w) = part (venOf s w) := getD_updAt_proj part hg ..

/-- A unit taken off the list is on it no more. -/
theorem unitOf_endUnit {s : State} {v : Nat} (hv : v < s.vens.length) (f : Filling) : unitOf (endUnit v f s) v f.src f.stamp = none := by
  rw [unitOf, endUnit, venOf_updVen_same hv, List.find?_eq_none]
  intro g hg
  simpa [imp_iff_not_or] using (List.mem_filter.1 hg).2

/-- A whole unit's buffer is the newest complete one, and the unit is filled no more. -/
theorem makeComplete_of_buf {s : State} {v b : Nat} {f : Filling} (hv : v < s.vens.length) (hb : f.buf = some b) :
    unitOf (makeComplete v f s) v f.src f.stamp = none ∧
      (venOf (makeComplete v f s) v).complete = (b, f.stamp) :: (venOf s v).complete.filter (·.1 ≠ b) ∧
      (makeComplete v f s).mem = s.mem := by
  simp only [makeComplete, hb]
  refine ⟨unitOf_endUnit (by simpa using hv) f, ?_, rfl⟩
  rw [endUnit, venOf_updVen_proj Ven.complete (by simp), venOf_updVen_same hv]

/-- The end of a rendering that has nothing left to write completes the snapshot's buffer. -/
theorem sacnDone_of_rendered {s : State} {v : Nat} {f : Filling} (hf : snapUnit s v = some f) (rendered : (venOf s v).snap = []) :
    sacnDone v s = makeComplete v f (updVen s v fun k => { k with snap := [] }) := by
  have still : snapUnit (updVen s v fun k => { k with snap := [] }) v = some f := by
    rw [snapUnit, venOf_updVen_proj Ven.units (by simp)]
    exact hf
  simp only [sacnDone, hf, rendered, List.foldl_nil, still]

/-! ### The state sweep (R149) -/

/-- The outputs and the colour engine's state. -/
def outsCol (s : State) : OutState × ColState := (s.outs, s.col)

theorem AccessPartsOnly.outsCol {s t : State} (h : AccessPartsOnly s t) : outsCol t = outsCol s := Prod.ext h.outs h.col

theorem leaves_rdFs_outsCol (port off n : Nat) : Leaves outsCol (rdFs port off n) := ⟨fun s => (AccessPartsOnly.rd _ _ n s).outsCol⟩

/-- The state records formed stay so, the records in force and the outputs are as they were. -/
structure SweepFrame (s t : State) : Prop where
  swept : s.col.swept ≠ none → t.col.swept ≠ none
  applied : t.col.applied = s.col.applied
  outs : t.outs = s.outs

namespace SweepFrame
variable {s t u : State}

theorem of_outsCol (h : outsCol t = outsCol s) : SweepFrame s t := by
  have ⟨ho, hc⟩ := Prod.ext_iff.1 h
  exact ⟨fun h => by rwa [show t.col = s.col from hc], congrArg ColState.applied hc, ho⟩

theorem trans (h : SweepFrame s t) (h' : SweepFrame t u) : SweepFrame s u :=
  ⟨fun x => h'.swept (h.swept x), h'.applied.trans h.applied, h'.outs.trans h.outs⟩

/-- A record formed joins those of the sweep. -/
theorem formed (s : State) (l : List (Nat × List Byte)) : SweepFrame s { s with col := { s.col with swept := some l } } :=
  ⟨fun _ => Option.some_ne_none l, rfl, rfl⟩

theorem tableErr (s : State) : SweepFrame s (tableErr s) :=
  .of_outsCol ((AccessPartsOnly.bump ..).trans (.evt ..)).outsCol

theorem wr' (w : Who) (a : Nat) (b : List Byte) (s : State) : SweepFrame s (wr' w a b s) :=
  .of_outsCol (AccessPartsOnly.wr ..).outsCol

theorem evtIf (s : State) (b : Bool) (p bit : Nat) : SweepFrame s (s.evtIf b p bit) :=
  .of_outsCol (AccessPartsOnly.ite (.evt ..) (.refl s)).outsCol

theorem sweepOne (m : State) (i : Nat) (s : State) : SweepFrame s (sweepOne m i s) := by
  unfold Machine.sweepOne
  extract_lets +onlyGivenNames bad
  have failed : ∀ o u, outsCol u = outsCol s → SweepFrame s (bad o u) := fun o u h =>
    ((of_outsCol h).trans (of_outsCol (AccessPartsOnly.fault ..).outsCol)).trans (tableErr _)
  split
  next r1 s1 e1 =>
  have h1 : outsCol s1 = outsCol s := (congrArg (outsCol ·.2) e1).symm.trans ((Leaves.readInstance leaves_rdFs_outsCol ..).run _)
  split
  · exact failed _ _ h1
  · exact of_outsCol h1
  · extract_lets +onlyGivenNames off
    split
    next r2 s2 e2 =>
    have h2 : outsCol s2 = outsCol s := ((congrArg (outsCol ·.2) e2).symm.trans ((leaves_rdFs_outsCol ..).run _)).trans h1
    split
    · exact failed _ _ h2
    · split
      next r3 s3 e3 =>
      have h3 : outsCol s3 = outsCol s := ((congrArg (outsCol ·.2) e3).symm.trans ((leaves_rdFs_outsCol ..).run _)).trans h2
      split
      · exact failed _ _ h3
      · extract_lets +onlyGivenNames s4 hadCut
        have h4 : SweepFrame s s4 := by
          unfold s4
          split
          · exact (of_outsCol h3).trans (tableErr _)
          · exact of_outsCol h3
        clear_value s4
        split
        next out cut stale _ =>
        exact (((h4.trans (wr' ..)).trans (formed ..)).trans (evtIf ..)).trans (evtIf ..)

end SweepFrame

/-- A sweep leaves records formed, perhaps none, and those in force and the outputs as they were. -/
theorem stateSweep_frame {s : State} (on : domainOn s 6 = true) :
    (stateSweep s).col.swept ≠ none ∧ (stateSweep s).col.applied = s.col.applied ∧ (stateSweep s).outs = s.outs := by
  rw [stateSweep, if_neg (by simp [on])]
  extract_lets +onlyGivenNames m
  clear_value m
  have swept : SweepFrame { s with col := { s.col with swept := some [], sweptAt := s.time.ft } } _ :=
    foldl_induct (P := SweepFrame _) (fun t i h => h.trans (.sweepOne m i t)) (List.range (m.get pgCOL F.COL_NINST)) (.of_outsCol rfl)
  exact ⟨swept.swept (by simp), swept.applied, swept.outs⟩

end Sys2Proof.Machine
end

section
/-!
PROOF. The canvas and the colour engine, O20.
-/
namespace Sys2Proof.Machine
open Sys2Proof

/-! ### The commands -/

theorem exec_fetchMiss (v : Fin 16) (s : State) :
    exec (.fetchMiss v) s =
      .next (if s.get (pgVEN v.val) F.VEN_CFG_SRC = 4 ∨ (inScan s v.val).isNone then s.quiet else missFetch v.val s.quiet) := rfl

theorem exec_sacnRenderDone (v : Fin 16) (s : State) : exec (.sacnRenderDone v) s = .next (sacnDone v.val s.quiet) := rfl

theorem exec_colourLanePass (p : Fin 64) (s : State) : exec (.colourLanePass p) s = .next (lanePass p.val s.quiet) := rfl

theorem exec_stateSweep (s : State) : exec .stateSweep s = .next (stateSweep s.quiet) := rfl

/-- Nothing passes a lane where no frame is prepared, or where the lanes serve another strand. -/
theorem lanePass_of_not_served {p : Nat} {s : State} (h : preparesOn s = false ∨ s.outs.preparing = false ∨ laneHead s ≠ some p) :
    lanePass p s = s := by
  rw [lanePass, if_pos (by simpa using h)]

/-- Settles O20, command by command: what a fetch miss and a finished rendering set in their veneer, and what the lane pass and the sweep
leave of the outputs and of the records in force. -/
theorem canvasAndColour : Obligations.CanvasAndColour := by
  unfold Obligations.CanvasAndColour
  refine ⟨?miss, ?noMiss, ?noSnapshot, ?rendered, ?noPass, ?pass, ?sweep, ?noSweep⟩
  case miss =>
    intro v s hsrc hscan hmissed
    rw [exec_fetchMiss, if_neg (by simp [hsrc, hscan]), missFetch, if_neg]
    · exact ne_true_of_eq_false hmissed
  case noMiss =>
    intro v s h
    rw [exec_fetchMiss]
    split
    · rfl
    · next shown =>
      have missed : (venOf s.quiet v.val).missed = true := by
        rcases h with h | h | h
        · exact absurd (.inl h) shown
        · exact absurd (.inr (by simp [h])) shown
        · exact h
      rw [missFetch, if_pos missed]
  case noSnapshot =>
    intro v s h
    have none' : snapUnit s.quiet v.val = none := h
    rw [exec_sacnRenderDone, sacnDone]
    simp only [none']
  case rendered =>
    intro v f b s hlen hf hb hsnap
    refine ⟨_, exec_sacnRenderDone v s, ?_⟩
    rw [sacnDone_of_rendered (s := s.quiet) hf hsnap]
    have hv : v.val < s.quiet.vens.length := v.isLt.trans_eq hlen.symm
    obtain ⟨ended, complete, mem⟩ := makeComplete_of_buf (s := updVen s.quiet v.val fun k => { k with snap := [] }) (by simpa using hv) hb
    exact ⟨ended, complete.trans (by rw [venOf_updVen_proj Ven.complete (by simp)]; rfl), mem⟩
  case noPass =>
    intro p s h
    rw [exec_colourLanePass, lanePass_of_not_served (s := s.quiet) h]
  case pass =>
    intro p s hlen hp ho hl
    have hp64 : p.val < s.quiet.outs.strands.length := p.isLt.trans_eq hlen.symm
    have frame := lanePass_frame (s := s.quiet) hp ho hl
    exact ⟨_, exec_colourLanePass p s, (frame.pos _).trans (strand_entryTaken (s := s.quiet) hp64),
      frame.pins.trans (entryTaken_pins ..)⟩
  case sweep =>
    intro s on
    exact ⟨_, exec_stateSweep s, stateSweep_frame (s := s.quiet) on⟩
  case noSweep =>
    intro s off
    have off' : domainOn s.quiet 6 = false := off
    rw [exec_stateSweep, stateSweep, if_pos (by simp [off'])]

end Sys2Proof.Machine
end

section
/-!
SUPPORT. What events, the placers, the strand ports and the square check leave of the calibration state: the end of a window (R169, R234), which
places what waited for it, changes nothing of that state but that no window is open.
-/
namespace Sys2Proof.Machine
open Sys2Proof

theorem EventPartsOnly.cal {s t : State} (h : EventPartsOnly s t) : t.cal = s.cal := by obtain ⟨_, _, _, _, rfl⟩ := h; rfl

@[simp] theorem quiet_cal (s : State) : s.quiet.cal = s.cal := rfl
@[simp] theorem evt_cal (s : State) (p bit : Nat) : (s.evt p bit).cal = s.cal := (EventPartsOnly.evt s p bit).cal
@[simp] theorem evtIf_cal (s : State) (b : Bool) (p bit : Nat) : (s.evtIf b p bit).cal = s.cal := by
  simp [State.evtIf, apply_ite State.cal]

/-- What every step of a fold leaves of the calibration state, the fold does. -/
theorem foldl_cal {α : Type} {f : State → α → State} (hf : ∀ s x, (f s x).cal = s.cal) (l : List α) (s : State) :
    (l.foldl f s).cal = s.cal :=
  foldl_induct (P := fun t => t.cal = s.cal) (fun t x h => (hf t x).trans h) l rfl

/-! ### Pins and placers (R166 to R184) -/

@[simp] theorem updStrand_cal (s : State) (p : Nat) (f : Strand → Strand) : (updStrand s p f).cal = s.cal := rfl
@[simp] theorem updPin_cal (s : State) (i : Nat) (f : Pin → Pin) : (updPin s i f).cal = s.cal := rfl
@[simp] theorem clearPin_cal (i : Nat) (s : State) : (clearPin i s).cal = s.cal := rfl

@[simp] theorem drivePin_cal (i : Nat) (level : Bool) (t : Nat) (s : State) : (drivePin i level t s).cal = s.cal := by
  simp [drivePin, apply_ite State.cal]

@[simp] theorem floatPin_cal (i : Nat) (s : State) : (floatPin i s).cal = s.cal := by
  simp [floatPin, apply_ite State.cal]

@[simp] theorem edgeLate_cal (i : Nat) (byPlacer : Bool) (s : State) : (edgeLate i byPlacer s).cal = s.cal := by
  unfold edgeLate
  dsimp only
  split <;> simp [apply_ite State.cal]

@[simp] theorem placeEntry_cal (i : Nat) (e : Entry) (s : State) : (placeEntry i e s).cal = s.cal := by
  obtain ⟨t, level, late⟩ := e
  have moved {c d : Prop} [Decidable c] [Decidable d] (late : Bool) {u : State} (hu : u.cal = s.cal) :
      (if d then edgeLate i late (if c then u.bump pgEDGE F.EDGE_st_CALDELAY else u)
        else if c then u.bump pgEDGE F.EDGE_st_CALDELAY else u).cal = s.cal := by
    split <;> split <;> simp [hu]
  refine ite_induct (P := fun u => u.cal = s.cal) rfl ?_
  cases late <;> exact (drivePin_cal ..).trans (moved _ rfl)

@[simp] theorem placeHead_cal (i : Nat) (s : State) : (placeHead i s).cal = s.cal := by
  unfold placeHead
  dsimp only
  split
  · rfl
  · simp [apply_ite State.cal]

@[simp] theorem settlePort_cal (p : Nat) (s : State) : (settlePort p s).cal = s.cal :=
  foldl_cal (fun s j => by simp [apply_ite State.cal]) _ s

/-! ### Modes in force (R70, R174) -/

@[simp] theorem putEff_cal (p : Nat) (e : Nat × Nat) (s : State) : (putEff p e s).cal = s.cal := by
  simp [putEff, apply_ite State.cal]

@[simp] theorem refresh_cal (p : Nat) (s : State) : (refresh p s).cal = s.cal := by
  unfold refresh
  split
  · split
    · simp
    · exact foldl_cal (fun t i => by simp [apply_ite State.cal]) _ s
  · simp

@[simp] theorem refreshStrands_cal (s : State) : (refreshStrands s).cal = s.cal := foldl_cal (fun s _ => refresh_cal _ s) _ s

/-! ### What the last entry of a queue ends (R126, R185, R198) -/

@[simp] theorem sqcResult_cal (n fn : Nat) (s : State) : (sqcResult n fn s).cal = s.cal := by
  simp [sqcResult, updRect, apply_ite State.cal]

@[simp] theorem sqcPort_cal (p fn mark : Nat) (pixel : Nat → List Bool) (s : State) : (sqcPort p fn mark pixel s).cal = s.cal :=
  sqcPort_induct (P := fun t => t.cal = s.cal) rfl rfl (fun _ _ _ _ h => (sqcResult_cal ..).trans h) mark pixel

@[simp] theorem rdmDone_cal (p status rlen : Nat) (s : State) : (rdmDone p status rlen s).cal = s.cal := by
  simp [rdmDone, apply_ite State.cal]

@[simp] theorem rdmDrop_cal (p : Nat) (leaves : Bool) (s : State) : (rdmDrop p leaves s).cal = s.cal := by
  simp [rdmDrop, apply_ite State.cal]

@[simp] theorem rdmListen_cal (p : Nat) (s : State) : (rdmListen p s).cal = s.cal := by
  simp [rdmListen, apply_ite State.cal]

@[simp] theorem packetDone_cal (p : Nat) (seen : Option (List Byte)) (s : State) : (packetDone p seen s).cal = s.cal := by
  simp [packetDone, apply_ite State.cal]

@[simp] theorem takeUp_cal (p : Nat) (s : State) : (takeUp p s).cal = s.cal := by
  unfold takeUp
  extract_lets old gang taken leaves dropped cleared slept reach
  have hs : slept.cal = s.cal := by simp [slept, cleared, dropped, taken, apply_ite State.cal]
  exact (foldl_cal (fun t q => by simp [apply_ite State.cal]) reach slept).trans hs

@[simp] theorem edgePlace_cal (i : Nat) (seen : Option (List Byte)) (s : State) : (edgePlace i seen s).cal = s.cal := by
  simp [edgePlace, apply_ite State.cal]

/-! ### The end of a window (R169) -/

@[simp] theorem placeDue_cal (i : Nat) (s : State) : (placeDue i s).cal = s.cal := foldl_cal (fun s _ => edgePlace_cal i none s) _ s

theorem windowShut_cal {r : CalRun} {s : State} (hr : s.cal.run = some r) (cut : Bool) :
    (windowShut cut s).cal = { s.cal with window := false } := by
  unfold windowShut
  simp only [hr]
  rw [foldl_cal fun s i => placeDue_cal i s, refreshStrands_cal, foldl_cal fun s i => updPin_cal s i _,
    foldl_cal fun s k => updStrand_cal s _ _]

end Sys2Proof.Machine
end

section
/-!
SUPPORT. The runs of the calibration (R229 to R236): what each of their moves makes of the calibration state.
-/
namespace Sys2Proof.Machine
open Sys2Proof

/-! ### The run in progress and those that wait (R235) -/

@[simp] theorem calStat_cal (s : State) : (calStat s).cal = s.cal := by
  unfold calStat
  split <;> rfl

@[simp] theorem calBegin_cal (b : Nat) (s : State) : (calBegin b s).cal = { s.cal with run := some { bank := b } } := by simp [calBegin]

/-- `CAL.STAT` shows the run that has begun. -/
theorem calBegin_stat {s : State} (h : StoresOk s) {b : Nat} (hb : b < 4) :
    (calBegin b s).get pgCAL F.CAL_STAT_BUSY = 1 ∧ (calBegin b s).get pgCAL F.CAL_STAT_BANK = b := by
  have written : (calBegin b s).reg pgCAL 0x050 = BitVec.ofNat 32 (1 + b * 16 + 0 * 256) :=
    reg_setReg_same (s := updCal s fun c => { c with run := some { bank := b } }) ⟨h.regs, h.staged, h.ctr, h.mem⟩ ..
  have shown (lsb w : Nat) : bitsOf ((calBegin b s).reg pgCAL 0x050) lsb w = (1 + b * 16) / 2 ^ lsb % 2 ^ w := by
    rw [written, bitsOf, BitVec.toNat_ofNat, Nat.mod_eq_of_lt (by omega : 1 + b * 16 + 0 * 256 < 2 ^ 32), Nat.zero_mul, Nat.add_zero]
  exact ⟨(shown 0 1).trans (by omega), (shown 4 2).trans (by omega)⟩

/-- The run in progress ended, and none waits. -/
theorem calOver_cal {s : State} (h : s.cal.waiting = []) : (calOver s).cal = { s.cal with run := none } := by simp [calOver, h]

section
variable {b : Nat} {s : State}

theorem calRequest_of_not_run (h : inRun s pgCAL = false) : calRequest b s = s := by simp [calRequest, h]

variable (h : inRun s pgCAL = true)
include h

theorem calRequest_free (hr : s.cal.run = none) : calRequest b s = calBegin b s := by simp [calRequest, h, hr]

/-- A request while a run is in progress waits, merged with one of its bank that waits already. -/
theorem calRequest_cal_busy (hr : s.cal.run.isSome = true) :
    (calRequest b s).cal = { s.cal with waiting := if b ∈ s.cal.waiting then s.cal.waiting else s.cal.waiting ++ [b] } := by
  by_cases hb : b ∈ s.cal.waiting <;> simp [calRequest, h, hr, hb]

end

/-! ### CAL_RUN_START (R235) -/

theorem calRunStart_of_off {s : State} (h : s.flag pgCAL F.CAL_CTL_AUTO = false ∨ inRun s pgCAL = false) (trigger : Option Nat) :
    calRunStart trigger s = s := if_pos (by simpa using h)

theorem calRunStart_of_no_trigger {s : State} (h : s.get pgCAL F.CAL_TEMPTRIG = 0) (b : Nat) : calRunStart (some b) s = s := by
  simp [calRunStart, h]

/-- The bank that follows the last one takes its turn. -/
theorem calRunStart_turn {s : State} {b : Nat} (hb : b < 4) (ha : s.flag pgCAL F.CAL_CTL_AUTO = true) (hr : inRun s pgCAL = true)
    (ht : s.cal.turn = (b + 3) % 4) (takes : calTakes s b = true) :
    calRunStart none s = calRequest b (updCal s fun c => { c with turn := b }) := by
  have next : (s.cal.turn + 1) % 4 = b := by omega
  simp [calRunStart, ha, hr, next, takes]

/-! ### CAL_WINDOW_OPEN (R231 to R233) -/

theorem windowOpen_of_no_run {s : State} (h : s.cal.run = none) : windowOpen s = s := by simp [windowOpen, h]

section
variable {r : CalRun} {s : State}

/-- The guard of CAL_WINDOW_OPEN fails in a frame that may still have a window, before the run has all of them. -/
theorem windowOpen_guard (closed : s.cal.window = false) (more : r.windows < 63) (turn : WindowTurn r s) :
    ¬ (s.cal.window ∨ (r.windows = 63 ∧ r.tables.isNone) ∨ !s.boot.outEn ∨ s.time.gapM.isSome ∨ r.frame = some s.time.seq ∨
      windowAt s r.bank + 256000 ≤ now16 s) := by
  obtain ⟨enabled, noGap, fresh, inTime⟩ := turn
  rintro (opened | ⟨last, -⟩ | off | gap | taken | late)
  · simp [closed] at opened
  · omega
  · simp [enabled] at off
  · simp [noGap] at gap
  · exact fresh taken
  · omega

variable (hr : s.cal.run = some r)
include hr

theorem windowOpen_of_no_frame (h : s.boot.outEn = false ∨ s.time.gapM.isSome = true ∨ r.frame = some s.time.seq) : windowOpen s = s := by
  unfold windowOpen
  simp only [hr]
  exact if_pos (by rcases h with h | h | h <;> simp [h])

variable (closed : s.cal.window = false) (more : r.windows < 63) (turn : WindowTurn r s)
include closed more turn

theorem windowOpen_deferred (deferred : windowDeferred s r.bank = true) (few : r.defers < 255) :
    windowOpen s = updCal (s.bump pgCAL F.CAL_st_DEFERRED) fun c =>
      { c with run := some { r with defers := r.defers + 1, frame := some s.time.seq } } := by
  unfold windowOpen
  simp only [hr]
  rw [if_neg (windowOpen_guard closed more turn), if_pos deferred, if_neg (by omega)]

theorem windowOpen_cal (opens : windowDeferred s r.bank = false) (measures : r.tables = none) :
    (windowOpen s).cal =
      { s.cal with run := some { r with defers := 0, frame := some s.time.seq }, window := true, prev := s.cal.tabs } := by
  unfold windowOpen
  simp only [hr]
  rw [if_neg (windowOpen_guard closed more turn), if_neg (by simp [opens])]
  simp only [measures, refreshStrands_cal]
  rw [foldl_cal fun s i => updPin_cal s i _, foldl_cal fun s k => updStrand_cal s _ _, updCal_cal]

end

/-! ### CAL_WINDOW_CLOSE (R229) -/

theorem windowClose_of_no_run {s : State} (h : s.cal.run = none) (hits : List (List Nat)) : windowClose hits s = s := by simp [windowClose, h]

/-- The hits of 36 placers with those of one window added, tap by tap. -/
def hitsAdded (old new : List (List Nat)) : List (List Nat) :=
  (List.range 36).map fun j => (List.range 32).map fun k => (old.getD j []).getD k 0 + (new.getD j []).getD k 0

theorem hitsAdded_getD (old new : List (List Nat)) {j k : Nat} (hj : j < 36) (hk : k < 32) :
    ((hitsAdded old new).getD j []).getD k 0 = (old.getD j []).getD k 0 + (new.getD j []).getD k 0 := by
  simp [hitsAdded, List.getD, hj, hk]

theorem map_windowHits_getD (hits : List (List Nat)) (j : Nat) : (hits.map windowHits).getD j [] = windowHits (hits.getD j []) := by
  rw [show ([] : List Nat) = windowHits [] from rfl, List.getD_map]
  rfl

theorem windowClose_cal {r : CalRun} {s : State} (hr : s.cal.run = some r) (hw : s.cal.window = true) (measures : r.tables = none)
    (hits : List (List Nat)) : (windowClose hits s).cal = { s.cal with
      window := false
      run := some { r with windows := r.windows + 1, hits := hitsAdded r.hits (hits.map windowHits), defers := 0 } } := by
  unfold windowClose
  simp [hr, hw, measures, windowShut_cal hr, hitsAdded]

/-! ### CAL_TABLE_COMPUTE_DONE (R230) -/

theorem calCompute_of_no_run {s : State} (h : s.cal.run = none) : calCompute s = s := by simp [calCompute, h]

/-- A rejected run is over. -/
theorem calReject_cal {s : State} (h : s.cal.waiting = []) (pin : Nat) : (calReject pin s).cal = { s.cal with run := none } := by
  rw [calReject, calOver_cal (by simp [h])]
  simp

section
variable {r : CalRun} {s : State} (hr : s.cal.run = some r) (closed : s.cal.window = false) (all : r.windows = 63) (first : r.tables = none)
include hr closed all first

theorem calCompute_accepts (good : ∀ j, j < 36 → (tapCompute (r.hits.getD j [])).isSome = true) :
    calCompute s = updCal s fun c =>
      { c with run := some { r with tables := some ((List.range 36).filterMap fun j => tapCompute (r.hits.getD j [])) } } := by
  have noneFails : ((List.range 36).map fun j => ((bankPins r.bank).getD j 0, tapCompute (r.hits.getD j []))).find? (·.2.isNone) = none := by
    rw [List.find?_eq_none]
    intro x hx
    obtain ⟨j, hj, rfl⟩ := List.mem_map.1 hx
    simpa [Option.isSome_iff_ne_none] using good j (List.mem_range.1 hj)
  unfold calCompute
  simp only [hr, closed, all, first, noneFails]
  simp [List.filterMap_map]

theorem calCompute_rejects {j : Nat} (hj : j < 36) (bad : tapCompute (r.hits.getD j []) = none) : ∃ pin, calCompute s = calReject pin s := by
  have fails : ((List.range 36).map fun j => ((bankPins r.bank).getD j 0, tapCompute (r.hits.getD j []))).find? (·.2.isNone) ≠ none := by
    rw [Ne, List.find?_eq_none]
    intro good
    exact good _ (List.mem_map_of_mem (List.mem_range.2 hj)) (Option.isNone_iff_eq_none.2 bad)
  obtain ⟨x, hx⟩ := Option.ne_none_iff_exists'.1 fails
  refine ⟨x.1, ?_⟩
  unfold calCompute
  simp only [hr, closed, all, first, hx]
  simp

end

/-! ### CALIB (R236) -/

theorem calRefresh_stale {s : State} {b : Nat} (was : s.flag pgCAL F.CAL_BANKSTAT_CALIB b = true) (now : calibrated s b = false) :
    calRefresh s b = (s.set pgCAL F.CAL_BANKSTAT_CALIB 0 b).evt pgCAL 3 := by
  simp [calRefresh, was, now, State.evtIf]

theorem calRefresh_of_not_stale {s : State} {b : Nat} (h : s.flag pgCAL F.CAL_BANKSTAT_CALIB b = false ∨ calibrated s b = true) :
    calRefresh s b = s.set pgCAL F.CAL_BANKSTAT_CALIB (calibrated s b).toNat b := by
  rcases h with h | h <;> simp [calRefresh, h, State.evtIf]

end Sys2Proof.Machine
end

section
/-!
SUPPORT. The commands of the calibration (chapter 7): what one makes of a state is what its operation makes of the state with nothing sent out
yet.
-/
namespace Sys2Proof.Machine
open Sys2Proof

theorem exec_calRunStart (trigger : Option (Fin 4)) (s : State) :
    exec (.calRunStart trigger) s = .next (calRunStart (trigger.map (·.val)) s.quiet) := rfl

theorem exec_calRunnow (b : Fin 4) (s : State) :
    exec (.calRunnow b) s = .next (calRequest b (s.quiet.set pgCAL F.CAL_CTL_BANKSEL b)) := rfl

theorem exec_calWindowOpen (s : State) : exec .calWindowOpen s = .next (windowOpen s.quiet) := rfl

theorem exec_calWindowClose (hits : List (List Nat)) (s : State) : exec (.calWindowClose hits) s = .next (windowClose hits s.quiet) := rfl

theorem exec_calTableComputeDone (s : State) : exec .calTableComputeDone s = .next (calCompute s.quiet) := rfl

theorem exec_calStale (b : Fin 4) (s : State) : exec (.calStale b) s = .next (calRefresh s.quiet b) := rfl

/-- The write of BANKSEL leaves the mode of CAL. -/
theorem inRun_bankSel (b : Nat) (s : State) : inRun (s.quiet.set pgCAL F.CAL_CTL_BANKSEL b) pgCAL = inRun s pgCAL := by
  rw [inRun, effMode, get_set_ne _ (by decide)]
  rfl

/-- Settles O24, command by command from what each one's operation makes of the calibration state. -/
theorem calibrationRuns : Obligations.CalibrationRuns := by
  refine ⟨?off, ?noTrigger, ?turn, ?runnowOff, ?runnowFree, ?runnowBusy, ?noRun, ?opens, ?deferred, ?noFrame, ?closes, ?accepts, ?rejects,
    ?stale, ?kept⟩
  case off =>
    intro tr s h
    rw [exec_calRunStart, calRunStart_of_off (s := s.quiet) h]
  case noTrigger =>
    intro b s h
    rw [exec_calRunStart, Option.map_some, calRunStart_of_no_trigger (s := s.quiet) h]
  case turn =>
    intro b s hs ha hr free ht takes
    have begun : calRunStart none s.quiet = calBegin b.val (updCal s.quiet fun c => { c with turn := b.val }) :=
      (calRunStart_turn (s := s.quiet) b.isLt ha hr ht takes).trans (calRequest_free hr free)
    have stores : StoresOk (updCal s.quiet fun c => { c with turn := b.val }) := ⟨hs.regs, hs.staged, hs.ctr, hs.mem⟩
    refine ⟨_, (exec_calRunStart none s).trans (congrArg _ begun), ?_, ?_, calBegin_stat stores b.isLt⟩
    · rw [calBegin_cal]
    · rw [calBegin_cal]
      rfl
  case runnowOff =>
    intro b s h
    rw [exec_calRunnow, calRequest_of_not_run ((inRun_bankSel b s).trans h)]
  case runnowFree =>
    intro b s h free
    refine ⟨_, exec_calRunnow b s, ?_⟩
    rw [calRequest_free ((inRun_bankSel b s).trans h) (by simpa using free)]
    simp
  case runnowBusy =>
    intro b s h busy
    have cal := calRequest_cal_busy (b := b.val) ((inRun_bankSel b s).trans h) (by simpa using busy)
    refine ⟨_, exec_calRunnow b s, ?_, ?_⟩ <;> rw [cal] <;> simp
  case noRun =>
    intro s h
    refine ⟨?_, fun hits => ?_, ?_⟩
    · rw [exec_calWindowOpen, windowOpen_of_no_run (s := s.quiet) h]
    · rw [exec_calWindowClose, windowClose_of_no_run (s := s.quiet) h]
    · rw [exec_calTableComputeDone, calCompute_of_no_run (s := s.quiet) h]
  case opens =>
    intro r s hr closed more measures turn opens
    exact ⟨_, exec_calWindowOpen s, windowOpen_cal (s := s.quiet) hr closed more turn opens measures⟩
  case deferred =>
    intro r s hr closed more turn deferred few
    rw [exec_calWindowOpen, windowOpen_deferred (s := s.quiet) hr closed more turn deferred few]
    rfl
  case noFrame =>
    intro r s hr h
    rw [exec_calWindowOpen, windowOpen_of_no_frame (s := s.quiet) hr h]
  case closes =>
    intro r hits s hr hw measures
    have cal := windowClose_cal (s := s.quiet) hr hw measures hits
    refine ⟨_, _, exec_calWindowClose hits s, congrArg CalState.window cal, congrArg CalState.run cal, rfl, measures, fun j k hj hk => ?_⟩
    rw [hitsAdded_getD _ _ hj hk, map_windowHits_getD]
  case accepts =>
    intro r s hr closed all first good
    exact ⟨_, exec_calTableComputeDone s, congrArg (CalState.run ∘ State.cal) (calCompute_accepts (s := s.quiet) hr closed all first good)⟩
  case rejects =>
    intro r j s hr closed all first alone hj bad
    obtain ⟨pin, rejected⟩ := calCompute_rejects (s := s.quiet) hr closed all first hj bad
    exact ⟨_, exec_calTableComputeDone s, (congrArg State.cal rejected).trans (calReject_cal (s := s.quiet) alone pin)⟩
  case stale =>
    intro b s was now
    rw [exec_calStale, calRefresh_stale (s := s.quiet) was now]
  case kept =>
    intro b s h
    rw [exec_calStale, calRefresh_of_not_stale (s := s.quiet) h]
    rfl

end Sys2Proof.Machine
end

section
/-!
SUPPORT. The converter (R238 to R244): its groups' starts and ends, a sample's result, its calibration and the die's temperature.
-/
namespace Sys2Proof.Machine
open Sys2Proof

theorem updCal_reg (s : State) (f : CalState → CalState) (p off : Nat) : (updCal s f).reg p off = s.reg p off :=
  reg_of_regs (updCal_regs s f) ..

theorem updCal_get (s : State) (f : CalState → CalState) (p : Nat) (g : Fld) (k : Nat) : (updCal s f).get p g k = s.get p g k :=
  congrArg (bitsOf · g.lsb g.w) (updCal_reg ..)

/-! ### Starts (R238, R239, R251) -/

section
variable {g : Nat} {s : State}

theorem groupStart_refused (h : adcOn s = false ∨ s.get pgADC F.ADC_GRP_MASK g = 0) : groupStart g s = (adcRefuse s, false) :=
  if_pos (by simpa using h)

variable (on : adcOn s = true) (mask : s.get pgADC F.ADC_GRP_MASK g ≠ 0)
include on mask

theorem groupStart_begins (idle : s.cal.conv = none) : groupStart g s = (groupBegin g s, true) := by
  simp [groupStart, on, mask, idle]

theorem groupStart_busy {c : Nat × Word × List Nat × Nat × Int × Nat} (converts : s.cal.conv = some c)
    (h : c.1 = g ∨ s.cal.pend.isSome = true) : groupStart g s = (adcRefuse s, false) := by
  simp only [groupStart, on, mask, converts]
  simp [h]

theorem groupStart_waits {c : Nat × Word × List Nat × Nat × Int × Nat} (converts : s.cal.conv = some c) (other : c.1 ≠ g)
    (free : s.cal.pend = none) : groupStart g s = (updCal s fun c => { c with pend := some g }, true) := by
  simp only [groupStart, on, mask, converts]
  simp [other, free]

end

theorem grpStart_bit (g : Fin 4) : ((List.range 4).filter fun i => (BitVec.ofNat 32 (2 ^ g.val)).getLsbD i) = [g.val] := by
  revert g
  decide

theorem grpStart_single (g : Fin 4) (s : State) : grpStart (BitVec.ofNat 32 (2 ^ g.val)) s = (groupStart g.val s).1 := by
  rw [grpStart, grpStart_bit]
  rfl

theorem grpStart_none {v : Word} (h : v.toNat % 16 = 0) (s : State) : grpStart v s = s := by
  have noBit : ((List.range 4).filter fun i => v.getLsbD i) = [] := by
    rw [List.filter_eq_nil_iff]
    intro i hi
    have low : v.toNat.testBit i = (v.toNat % 2 ^ 4).testBit i := by
      rw [Nat.testBit_mod_two_pow, decide_eq_true (List.mem_range.1 hi), Bool.true_and]
    simp [BitVec.getLsbD, low, h]
  rw [grpStart, noBit]
  rfl

/-! ### A sample (R238, R241, R250) -/

theorem clampInt_eq_self {lo hi i : Int} (h : lo ≤ i) (h' : i ≤ hi) : clampInt lo hi i = i := by
  rw [clampInt, if_neg (by omega), if_neg (by omega)]

theorem corrected_le (offset : Int) (gain raw : Nat) : corrected offset gain raw ≤ 4095 := by
  unfold corrected clampInt
  split
  · decide
  · split <;> omega

/-- The raw code of a sample: in TEST that of the zero reference, a value that is open. -/
def rawCode (raw : Nat) (s : State) : State × Nat :=
  if effMode s pgADC = 3 then (s.free.1, s.free.2.toNat % 4096) else (s, raw)

theorem rawCode_of_not_test {raw : Nat} {s : State} (h : effMode s pgADC ≠ 3) : rawCode raw s = (s, raw) := if_neg h

theorem rawCode_lt {raw : Nat} (h : raw < 4096) (s : State) : (rawCode raw s).2 < 4096 := by
  unfold rawCode
  split
  · exact Nat.mod_lt _ (by decide)
  · exact h

@[simp] theorem rawCode_cal (raw : Nat) (s : State) : (rawCode raw s).1.cal = s.cal := by unfold rawCode; split <;> rfl
@[simp] theorem rawCode_time (raw : Nat) (s : State) : (rawCode raw s).1.time = s.time := by unfold rawCode; split <;> rfl

theorem StoresOk.rawCode {s : State} (h : StoresOk s) (raw : Nat) : StoresOk (rawCode raw s).1 := by
  unfold Machine.rawCode
  split
  · exact ⟨h.regs, h.staged, h.ctr, h.mem⟩
  · exact h

/-- A result register: the corrected code, the raw code and VALID. -/
def resultWord (code raw : Nat) : Word := BitVec.ofNat 32 (code + raw % 4096 * 0x10000 + 0x80000000)

theorem resultWord_parts {code raw : Nat} (hc : code ≤ 4095) (hr : raw < 4096) :
    bitsOf (resultWord code raw) 0 12 = code ∧ bitsOf (resultWord code raw) 16 12 = raw ∧ bitsOf (resultWord code raw) 31 1 = 1 := by
  have whole : (resultWord code raw).toNat = code + raw * 0x10000 + 0x80000000 := by
    rw [resultWord, BitVec.toNat_ofNat, Nat.mod_eq_of_lt hr, Nat.mod_eq_of_lt (by omega)]
  simp only [bitsOf, whole]
  omega

/-- A channel's sample written and counted: its result register, and the instant at which it was taken. -/
def sampleWritten (ch : Nat) (at' v : Word) (s : State) : State :=
  ((s.setReg pgADC (0x080 + 8 * ch) v).setReg pgADC (0x084 + 8 * ch) at').bump pgADC F.ADC_st_CONVS

section
variable (ch : Nat) (at' v : Word) (s : State)

@[simp] theorem sampleWritten_cal : (sampleWritten ch at' v s).cal = s.cal := bump_cal ..
@[simp] theorem sampleWritten_time : (sampleWritten ch at' v s).time = s.time := bump_time ..

theorem sampleWritten_instant {s : State} (h : StoresOk s) : (sampleWritten ch at' v s).reg pgADC (0x084 + 8 * ch) = at' := by
  have written : StoresOk (s.setReg pgADC (0x080 + 8 * ch) v) := ⟨regFileOk_regPut _ _ h.regs, h.staged, h.ctr, h.mem⟩
  rw [sampleWritten, reg_of_regs (bump_regs ..), reg_setReg_same written]

theorem sampleWritten_result {s : State} (h : StoresOk s) : (sampleWritten ch at' v s).reg pgADC (0x080 + 8 * ch) = v := by
  have apart : regKey pgADC (0x080 + 8 * ch) ≠ regKey pgADC (0x084 + 8 * ch) := by
    simp only [regKey]
    omega
  rw [sampleWritten, reg_of_regs (bump_regs ..), reg_setReg_ne _ _ _ _ _ _ apart, reg_setReg_same h]

/-- The fields of a channel's result are those of the word written. -/
theorem sampleWritten_get {s : State} (h : StoresOk s) {f : Fld} (off : f.off = 0x080) (stride : f.stride = 8) :
    (sampleWritten ch at' v s).get pgADC f ch = bitsOf v f.lsb f.w := by
  rw [State.get, off, stride, sampleWritten_result ch at' v h]

end

/-- What ADC_SAMPLE writes for channel `ch` in position `i`, of the raw code `raw`. -/
def sampleOf (ch i gain raw : Nat) (st : Word) (off : Int) (s : State) : State :=
  sampleWritten ch (st + BitVec.ofNat 32 (40 + i * 500)) (resultWord (corrected off gain raw) raw) s

@[simp] theorem sampleOf_cal (ch i gain raw : Nat) (st : Word) (off : Int) (s : State) : (sampleOf ch i gain raw st off s).cal = s.cal := by
  rw [sampleOf, sampleWritten_cal]

@[simp] theorem sampleOf_time (ch i gain raw : Nat) (st : Word) (off : Int) (s : State) : (sampleOf ch i gain raw st off s).time = s.time := by
  rw [sampleOf, sampleWritten_time]

/-- The result of a sample: its corrected code, its raw code, VALID, and its instant. -/
theorem sampleOf_fields (ch i gain : Nat) (st : Word) (off : Int) {raw : Nat} {s : State} (h : StoresOk s) (hr : raw < 4096) :
    (sampleOf ch i gain raw st off s).get pgADC F.ADC_RESULT_CODE ch = corrected off gain raw ∧
      (sampleOf ch i gain raw st off s).get pgADC F.ADC_RESULT_RAW ch = raw ∧
      (sampleOf ch i gain raw st off s).get pgADC F.ADC_RESULT_VALID ch = 1 ∧
      (sampleOf ch i gain raw st off s).reg pgADC (0x084 + 8 * ch) = st + BitVec.ofNat 32 (40 + i * 500) := by
  obtain ⟨code, rawPart, valid⟩ := resultWord_parts (corrected_le off gain raw) hr
  refine ⟨?_, ?_, ?_, sampleWritten_instant _ _ _ h⟩ <;> rw [sampleOf, sampleWritten_get _ _ _ h rfl rfl]
  · exact code
  · exact rawPart
  · exact valid

theorem adcSample_of_idle {s : State} (h : s.cal.conv = none) (raw : Nat) : adcSample raw s = s := by simp [adcSample, h]

/-- ADC_SAMPLE writes the sample of the channel in the next position. -/
theorem adcSample_eq {g i ch gain : Nat} {st : Word} {chs : List Nat} {off : Int} {s : State}
    (converts : s.cal.conv = some (g, st, chs, i, off, gain)) (next : chs[i]? = some ch) (raw : Nat) :
    ∃ x, adcSample raw s = updCal (sampleOf ch i gain (rawCode raw s).2 st off (rawCode raw s).1) fun c =>
      { c with conv := some (g, st, chs, i + 1, off, gain)
               convAt := c.convAt.set ch (some ((sampleOf ch i gain (rawCode raw s).2 st off (rawCode raw s).1).time.ft, x)) } := by
  refine ⟨s.time.ft - (s.st - (st + BitVec.ofNat 32 (40 + i * 500))).toNat % 2 ^ 31 * 65536, ?_⟩
  unfold adcSample
  rw [converts]
  dsimp only
  rw [next]
  rfl

/-! ### A group's end (R239, R243) -/

theorem groupEnd_of_idle {s : State} (h : s.cal.conv = none) : groupEnd s = s := by simp [groupEnd, h]

theorem adcWords_congr {s t : State} (h : t.cal.words = s.cal.words) : adcWords t = adcWords s := by rw [adcWords, h, adcWords]

theorem evt_adcOn (s : State) {p : Nat} (hp : p < 256) (bit : Nat) : adcOn (s.evt p bit) = adcOn s := by
  rw [adcOn, adcOn, runTest, runTest, effMode, effMode, evt_get _ _ _ _ hp (by decide) (by simp [EventReg, F.HDR_EFF_MODE, pgADC, pgEVC])]

section
variable {g i : Nat} {st : Word} {chs : List Nat} {w : Int × Nat} {s : State} (converts : s.cal.conv = some (g, st, chs, i, w))
include converts

theorem groupEnd_of_more (h : i < chs.length) : groupEnd s = s := by simp [groupEnd, converts, h]

variable (last : chs.length ≤ i)
include last

/-- After its last sample the group's event is set, and the start that waits begins. -/
theorem groupEnd_begins {h : Nat} (waits : s.cal.pend = some h) :
    groupEnd s = groupBegin h ((updCal s fun c => { c with conv := none }).evt pgADC g) := by
  simp [groupEnd, converts, Nat.not_lt.2 last, waits]

/-- With no start that waits, what a warm start owes begins. -/
theorem groupEnd_idles (alone : s.cal.pend = none) : groupEnd s = adcIdle ((updCal s fun c => { c with conv := none }).evt pgADC g) := by
  simp [groupEnd, converts, Nat.not_lt.2 last, alone]

end

/-! ### Calibration of the converter (R240) -/

theorem adcCalBegin_begins {s : State} (on : adcOn s = true) (idle : s.cal.adcCal = false) :
    adcCalBegin s = updCal s fun c => { c with adcCal := true, adcDue := false, starved := false } := if_neg (by simp [on, idle])

theorem adcCalBegin_of_off {s : State} (h : adcOn s = false ∨ s.cal.adcCal = true) : adcCalBegin s = s := if_pos (by simpa using h)

/-- A calibration is in progress after one is begun, one begun before going on. -/
theorem adcCalBegin_adcCal {s : State} (on : adcOn s = true) : (adcCalBegin s).cal.adcCal = true := by
  cases h : s.cal.adcCal with
  | true => rw [adcCalBegin_of_off (.inr h), h]
  | false => rw [adcCalBegin_begins on h]; rfl

@[simp] theorem adcCalBegin_conv (s : State) : (adcCalBegin s).cal.conv = s.cal.conv := by
  simp [adcCalBegin, apply_ite State.cal, apply_ite CalState.conv]

theorem adcIdle_of_not_due {s : State} (h : s.cal.adcDue = false) : adcIdle s = s := by simp [adcIdle, h]

theorem adcIdle_of_due {s : State} (h : s.cal.adcDue = true) (idle : s.cal.conv = none) : adcIdle s = adcCalBegin s := by
  simp [adcIdle, h, idle]

theorem adcCalEnd_of_idle {zero full : List Int} {s : State}
    (h : s.cal.adcCal = false ∨ s.cal.conv.isSome = true ∨ zero.length ≠ 31 ∨ full.length ≠ 31) : adcCalEnd zero full s = s :=
  if_pos (by simpa using h)

section
variable {zero full : List Int} {s : State} (runs : s.cal.adcCal = true) (idle : s.cal.conv = none) (hz : zero.length = 31)
  (hf : full.length = 31)
include runs idle hz hf

theorem adcCalEnd_accepts (offset : (median zero).natAbs ≤ 128) (low : 7000 ≤ median full - median zero)
    (high : median full - median zero ≤ 7800) : (adcCalEnd zero full s).cal = { s.cal with
      adcCal := false
      words := some (8 * median zero, (roundHalfUp (16384 * (36864 / 10 : Rat) * 2 / ((median full - median zero : Int) : Rat))).toNat) } := by
  unfold adcCalEnd
  rw [if_neg (by simp [runs, idle, hz, hf])]
  simp only [if_pos (And.intro offset (And.intro low high)), evt_cal, bump_cal, updCal_cal]

theorem adcCalEnd_rejects (h : 128 < (median zero).natAbs ∨ median full - median zero < 7000 ∨ 7800 < median full - median zero) :
    adcCalEnd zero full s = (updCal s fun c => { c with adcCal := false }).evt pgADC 6 := by
  unfold adcCalEnd
  rw [if_neg (by simp [runs, idle, hz, hf])]
  exact if_neg (by omega)

end

theorem adcCalStarve_of_idle {s : State} (h : s.cal.adcCal = false ∨ s.cal.starved = true) : adcCalStarve s = s := if_pos (by simpa using h)

theorem adcCalStarve_reports {s : State} (runs : s.cal.adcCal = true) (first : s.cal.starved = false) :
    adcCalStarve s = (updCal s fun c => { c with starved := true }).evt pgADC 7 := if_neg (by simp [runs, first])

/-! ### The die's temperature (R244) -/

@[simp] theorem calRefresh_cal (s : State) (b : Nat) : (calRefresh s b).cal = s.cal := by simp [calRefresh]

/-- A bank's CALIB brought up to date leaves the registers of the converter after its header. -/
theorem calRefresh_adcReg (s : State) {b off : Nat} (hb : b < 4) (h : 0x040 ≤ off) (h' : off < 4096) :
    (calRefresh s b).reg pgADC off = s.reg pgADC off := by
  have other : ¬ EventReg pgCAL pgADC off := by
    simp only [EventReg, pgADC, pgEVC]
    omega
  have apart : regKey pgADC off ≠ regKey pgCAL (F.CAL_BANKSTAT_CALIB.off + F.CAL_BANKSTAT_CALIB.stride * b) := by
    simp only [regKey, pgADC, pgCAL, F.CAL_BANKSTAT_CALIB]
    omega
  unfold calRefresh
  dsimp only
  rw [evtIf_reg _ _ _ (by decide) h' other, reg_set_ne _ apart]

theorem foldl_calRefresh_adcReg {l : List Nat} (hl : ∀ b ∈ l, b < 4) {off : Nat} (h : 0x040 ≤ off) (h' : off < 4096) (s : State) :
    (l.foldl calRefresh s).reg pgADC off = s.reg pgADC off :=
  List.foldlRecOn (motive := fun t => t.reg pgADC off = s.reg pgADC off) l calRefresh rfl fun t ht b hb =>
    (calRefresh_adcReg t (hl b hb) h h').trans ht

/-- DIETEMP with a reading and VALID. -/
def dieRead (temp : Nat) (s : State) : State := (s.set pgADC F.ADC_DIETEMP_TEMP temp).set pgADC F.ADC_DIETEMP_VALID 1

@[simp] theorem dieRead_cal (temp : Nat) (s : State) : (dieRead temp s).cal = s.cal := by rw [dieRead, set_cal, set_cal]
@[simp] theorem dieRead_time (temp : Nat) (s : State) : (dieRead temp s).time = s.time := by rw [dieRead, set_time, set_time]

theorem dieRead_fields {s : State} (h : StoresOk s) (temp : Nat) :
    bitsOf ((dieRead temp s).reg pgADC 0x060) 0 16 = temp % 2 ^ 16 ∧ bitsOf ((dieRead temp s).reg pgADC 0x060) 16 1 = 1 := by
  have reading : StoresOk (s.set pgADC F.ADC_DIETEMP_TEMP temp) := h.set ..
  constructor
  · exact (get_set_apart (f := F.ADC_DIETEMP_VALID) (g := F.ADC_DIETEMP_TEMP) reading pgADC rfl (by decide) (.inl (by decide)) 1).trans
      (get_set_same h pgADC (by decide) temp 0)
  · exact get_set_same reading pgADC (f := F.ADC_DIETEMP_VALID) (by decide) 1 0

theorem dieConversion_eq (temp : Nat) (s : State) : dieConversion temp s =
    [0, 1, 2, 3].foldl calRefresh (updCal (dieRead temp s) fun c => { c with dieAt := some (dieRead temp s).time.ft }) := rfl

theorem dieConversion_cal (temp : Nat) (s : State) : (dieConversion temp s).cal = { s.cal with dieAt := some s.time.ft } := by
  rw [dieConversion_eq, dieRead_time, foldl_cal fun s b => calRefresh_cal s b, updCal_cal, dieRead_cal]

/-- The banks' CALIB, brought up to date after it, leave the reading. -/
theorem dieConversion_reg (temp : Nat) (s : State) : (dieConversion temp s).reg pgADC 0x060 = (dieRead temp s).reg pgADC 0x060 := by
  rw [dieConversion_eq, foldl_calRefresh_adcReg (by decide) (by decide) (by decide), updCal_reg]

theorem dieConversion_fields {s : State} (h : StoresOk s) (temp : Nat) :
    (dieConversion temp s).get pgADC F.ADC_DIETEMP_TEMP = temp % 2 ^ 16 ∧ (dieConversion temp s).get pgADC F.ADC_DIETEMP_VALID = 1 := by
  obtain ⟨reading, valid⟩ := dieRead_fields h temp
  exact ⟨(congrArg (bitsOf · 0 16) (dieConversion_reg temp s)).trans reading, (congrArg (bitsOf · 16 1) (dieConversion_reg temp s)).trans valid⟩

end Sys2Proof.Machine
end

section
/-!
SUPPORT. The commands of the converter (chapter 7): what one makes of a state is what its operation makes of the state with nothing sent out
yet.
-/
namespace Sys2Proof.Machine
open Sys2Proof

theorem exec_adcGroupStart (g : Fin 4) (s : State) : exec (.adcGroupStart g) s = .next (groupStart g s.quiet).1 := rfl

theorem exec_adcGrpstart (v : Word) (s : State) : exec (.adcGrpstart v) s = .next (grpStart v s.quiet) := rfl

theorem exec_adcSample (raw : BitVec 12) (s : State) : exec (.adcSample raw) s = .next (adcSample raw.toNat s.quiet) := rfl

theorem exec_adcGroupEnd (s : State) : exec .adcGroupEnd s = .next (groupEnd s.quiet) := rfl

theorem exec_adcCalStart (s : State) :
    exec .adcCalStart s = .next (if s.quiet.flag pgADC F.ADC_CALCTL_AUTO then adcCalBegin s.quiet else s.quiet) := rfl

theorem exec_adcCalEnd (zero full : List Int) (s : State) : exec (.adcCalEnd zero full) s = .next (adcCalEnd zero full s.quiet) := rfl

theorem exec_adcCalStarve (s : State) : exec .adcCalStarve s = .next (adcCalStarve s.quiet) := rfl

theorem exec_dieTempConversion (temp : Half) (s : State) :
    exec (.dieTempConversion temp) s = .next (dieConversion temp.toNat s.quiet) := rfl

/-- Settles O25, command by command from what each one's operation makes of the converter. -/
theorem converterGroups : Obligations.ConverterGroups := by
  refine ⟨?refused, ?begins, ?busy, ?noBit, ?idle, ?sample, ?code, ?groupEnd, ?calStart, ?noCalStart, ?noCalEnd, ?calEnd, ?noStarve, ?starve,
    ?die⟩
  case refused =>
    intro g s h
    rw [exec_adcGroupStart, groupStart_refused (s := s.quiet) h]
    rfl
  case begins =>
    intro g s on mask idle
    have begun := groupStart_begins (s := s.quiet) on mask idle
    refine ⟨groupBegin g s.quiet, ?_, ?_, rfl, rfl, rfl⟩
    · rw [exec_adcGroupStart, begun]
    · rw [exec_adcGrpstart, grpStart_single, begun]
  case busy =>
    intro g c s on mask converts
    constructor
    · intro h
      rw [exec_adcGroupStart, groupStart_busy (s := s.quiet) on mask converts h]
      rfl
    · intro other free
      rw [exec_adcGroupStart, groupStart_waits (s := s.quiet) on mask converts other free]
      rfl
  case noBit =>
    intro v s h
    rw [exec_adcGrpstart, grpStart_none h]
  case idle =>
    intro raw s h
    rw [exec_adcSample, adcSample_of_idle (s := s.quiet) h, exec_adcGroupEnd, groupEnd_of_idle (s := s.quiet) h]
    exact ⟨rfl, rfl⟩
  case sample =>
    intro raw g i ch st chs off gain s hs converts next hch hlen
    obtain ⟨x, sampled⟩ := adcSample_eq (s := s.quiet) converts next raw.toNat
    have stores := hs.quiet.rawCode raw.toNat
    obtain ⟨code, rawPart, valid, instant⟩ := sampleOf_fields ch i gain st off stores (rawCode_lt raw.isLt s.quiet)
    refine ⟨_, (exec_adcSample raw s).trans (congrArg _ sampled), fun run => ?_, ?_⟩
    · rw [updCal_get, updCal_get, code, rawPart, rawCode_of_not_test (s := s.quiet) run]
      exact ⟨rfl, rfl⟩
    · rw [updCal_get, updCal_get, updCal_get, updCal_reg, code, rawPart, valid, instant, updCal_cal]
      refine ⟨rfl, rfl, rfl, rfl, ?_⟩
      simp [hlen, hch]
  case code =>
    intro off gain raw
    refine ⟨corrected_le off gain raw, fun low high => ?_⟩
    rw [corrected, clampInt_eq_self low high, Int.toNat_of_nonneg low]
  case groupEnd =>
    intro g i st chs w s converts
    refine ⟨fun more => ?_, fun last alone notDue => ?_, fun last alone due on => ?_, fun h last waits => ?_⟩
    · rw [exec_adcGroupEnd, groupEnd_of_more (s := s.quiet) converts more]
    · rw [exec_adcGroupEnd, groupEnd_idles (s := s.quiet) converts last alone, adcIdle_of_not_due (by simpa using notDue)]
    · have ended := (groupEnd_idles (s := s.quiet) converts last alone).trans (adcIdle_of_due (by simpa using due) (by simp))
      refine ⟨_, (exec_adcGroupEnd s).trans (congrArg _ ended), ?_, adcCalBegin_adcCal ((evt_adcOn _ (by decide) _).trans on)⟩
      rw [adcCalBegin_conv, evt_cal, updCal_cal]
    · have begun := groupEnd_begins (s := s.quiet) converts last waits
      have words : adcWords ((updCal s.quiet fun c => { c with conv := none }).evt pgADC g) = adcWords s := adcWords_congr (by simp)
      exact ⟨_, _, _, (exec_adcGroupEnd s).trans (congrArg _ begun), rfl, congrArg (fun w => some (h, _, _, 0, w)) words⟩
  case calStart =>
    intro s auto on idle
    rw [exec_adcCalStart, quiet_flag, if_pos auto, adcCalBegin_begins (s := s.quiet) on idle]
    rfl
  case noCalStart =>
    intro s h
    rw [exec_adcCalStart]
    split
    · next auto => rw [adcCalBegin_of_off (s := s.quiet) (h.resolve_left (by simpa using auto))]
    · rfl
  case noCalEnd =>
    intro zero full s h
    rw [exec_adcCalEnd, adcCalEnd_of_idle (s := s.quiet) h]
  case calEnd =>
    intro zero full s runs idle hz hf
    refine ⟨fun offset low high => ?_, fun h => ?_⟩
    · have cal := adcCalEnd_accepts (s := s.quiet) runs idle hz hf offset low high
      exact ⟨_, exec_adcCalEnd zero full s, congrArg CalState.adcCal cal, congrArg CalState.words cal⟩
    · rw [exec_adcCalEnd, adcCalEnd_rejects (s := s.quiet) runs idle hz hf h]
  case noStarve =>
    intro s h
    rw [exec_adcCalStarve, adcCalStarve_of_idle (s := s.quiet) h]
  case starve =>
    intro s runs first
    rw [exec_adcCalStarve, adcCalStarve_reports (s := s.quiet) runs first]
  case die =>
    intro temp s hs _
    obtain ⟨reading, valid⟩ := dieConversion_fields hs.quiet temp.toNat
    exact ⟨_, exec_dieTempConversion temp s, reading.trans (Nat.mod_eq_of_lt temp.isLt), valid,
      congrArg CalState.dieAt (dieConversion_cal temp.toNat s.quiet)⟩

end Sys2Proof.Machine
end

section
/-!
SUPPORT. What events, accesses to memory, posts, the fabric's floods and a reference instant leave of the sound state, and what the shared
operations of the sound block make of it.
-/
namespace Sys2Proof.Machine
open Sys2Proof

theorem EventPartsOnly.snd {s t : State} (h : EventPartsOnly s t) : t.snd = s.snd := by obtain ⟨_, _, _, _, rfl⟩ := h; rfl
theorem AccessPartsOnly.snd {s t : State} (h : AccessPartsOnly s t) : t.snd = s.snd := by obtain ⟨_, _, _, _, _, _, _, rfl⟩ := h; rfl

@[simp] theorem quiet_snd (s : State) : s.quiet.snd = s.snd := rfl
@[simp] theorem evt_snd (s : State) (p bit : Nat) : (s.evt p bit).snd = s.snd := (EventPartsOnly.evt s p bit).snd
@[simp] theorem evtIf_snd (s : State) (b : Bool) (p bit : Nat) : (s.evtIf b p bit).snd = s.snd := by
  simp [State.evtIf, apply_ite State.snd]
@[simp] theorem wr'_snd (w : Who) (a : Nat) (b : List Byte) (s : State) : (wr' w a b s).snd = s.snd := (AccessPartsOnly.wr w a b s).snd

theorem StoresOk.updSnd {s : State} (h : StoresOk s) (f : SndState → SndState) : StoresOk (updSnd s f) := ⟨h.regs, h.staged, h.ctr, h.mem⟩

/-- What every step of a fold leaves of the sound state, the fold does. -/
theorem foldl_snd {α : Type} {f : State → α → State} (hf : ∀ s x, (f s x).snd = s.snd) (l : List α) (s : State) :
    (l.foldl f s).snd = s.snd :=
  foldl_induct (P := fun t => t.snd = s.snd) (fun t x h => (hf t x).trans h) l rfl

/-- What both branches leave of the sound state, the choice between them does. -/
theorem ite_snd {c : Prop} [Decidable c] {s t u : State} (ht : t.snd = s.snd) (hu : u.snd = s.snd) : (if c then t else u).snd = s.snd :=
  ite_induct (P := fun v => v.snd = s.snd) ht hu

/-! ### The fabric's floods (R362 to R366) -/

@[simp] theorem heldAdd_snd (h : Option Nat) (d : Int) (s : State) : (heldAdd h d s).snd = s.snd := by
  unfold heldAdd
  split
  · rfl
  · split
    · rfl
    · simp [apply_ite State.snd]

@[simp] theorem toPort_snd (vl b : Nat) (h : Option Nat) (bytes : List Byte) (s : State) : (toPort vl b h bytes s).snd = s.snd := by
  simp [toPort, apply_ite State.snd]

@[simp] theorem leave_snd (vl : Nat) (h : Option Nat) (forwarded : Bool) (ports : List Nat) (bytes : List Byte) (s : State) :
    (leave vl h forwarded ports bytes s).snd = s.snd := by
  simp [leave, apply_ite State.snd, foldl_snd]

@[simp] theorem sendFlood_snd (trees : List Nat) (clusterOnly : Bool) (kind : Nat) (body : List Byte) (s : State) :
    (sendFlood trees clusterOnly kind body s).snd = s.snd := by
  unfold sendFlood
  split
  · rfl
  · simp [foldl_snd, remember]

/-- The records to publish leave, and nothing else of the sound state changes (R269). -/
@[simp] theorem flushPub_snd (s : State) : (flushPub s).snd = { s.snd with pub := [] } := by
  simp [flushPub, apply_ite State.snd, foldl_snd]

theorem flushPub_of_none {s : State} (h : s.snd.pub = []) : flushPub s = s := by
  have same : { s with snd := { s.snd with pub := [] } } = s := by rw [← h]
  simp [flushPub, h, same]

/-! ### A reference instant (R53 to R55) -/

@[simp] theorem cancelBelow_snd (code : Nat) (all : Bool) (m : Nat) (s : State) : (cancelBelow code all m s).snd = s.snd := by
  simp [cancelBelow, cancelCommit, endCommit, apply_ite State.snd]

@[simp] theorem enableAgain_snd (s : State) : (enableAgain s).snd = s.snd := by simp [enableAgain, apply_ite State.snd]

@[simp] theorem rephaseTo_snd (p : Nat) (s : State) : (rephaseTo p s).snd = s.snd := by
  simp [rephaseTo, modeDone, takePhase, apply_ite State.snd]

@[simp] theorem refLost_snd (s : State) : (refLost s).snd = s.snd := by simp [refLost, apply_ite State.snd]

@[simp] theorem referenceInstant_snd (ltc : Bool) (t : Nat) (s : State) : (referenceInstant ltc t s).snd = s.snd := by
  unfold referenceInstant
  extract_lets src at' want tol gap fits trim sample lost last noted
  have noted' : noted.snd = s.snd := rfl
  clear_value noted
  split
  · rfl
  · split
    · exact noted'
    · exact ite_snd (ite_snd ((rephaseTo_snd ..).trans noted') noted') noted'
    · exact ite_snd (ite_snd ((rephaseTo_snd ..).trans noted') noted') noted'
    · exact ite_snd noted' ((refLost_snd _).trans noted')

end Sys2Proof.Machine
end

section
/-!
SUPPORT. The tempo tracker (R262 to R267): what each of its operations makes of the sound state and of its registers.
-/
namespace Sys2Proof.Machine
open Sys2Proof

@[simp] theorem updTrk_snd (s : State) (f : Tempo → Tempo) : (updTrk s f).snd = { s.snd with trk := f s.snd.trk } := rfl
theorem StoresOk.updTrk {s : State} (h : StoresOk s) (f : Tempo → Tempo) : StoresOk (updTrk s f) := h.updSnd _

@[simp] theorem trkStat_snd (s : State) : (trkStat s).snd = s.snd := by simp [trkStat]

@[simp] theorem trkTo_snd (n : Nat) (s : State) : (trkTo n s).snd = { s.snd with trk := { s.snd.trk with state := n } } := by
  simp [trkTo, apply_ite State.snd]

/-! ### The estimate (R262, R263) -/

theorem tempoEstimate_of_off {s : State} (h : sndOn s = false) : tempoEstimate s = s := by simp [tempoEstimate, h]

theorem heldOnsets_eq_nil {s : State} (h : ∀ o ∈ s.snd.trk.onsets, o.1 + 8 * secUnits < s.time.ft) : heldOnsets s = [] :=
  List.filter_eq_nil_iff.2 fun o ho => by simpa using h o ho

/-- Fewer than 8 onsets give no estimate, and a tracker that is not LOCKED keeps its state. -/
theorem tempoEstimate_few {s : State} (on : sndOn s = true) (few : (heldOnsets s).length < 8) (unlocked : s.snd.trk.state ≠ 1) :
    (tempoEstimate s).snd.trk = { s.snd.trk with conf := 0, est := none } := by
  simp [tempoEstimate, on, few, unlocked]

/-- Without an onset held, LOCKED goes to COAST. -/
theorem tempoEstimate_silent {s : State} (on : sndOn s = true) (silent : heldOnsets s = []) (locked : s.snd.trk.state = 1) :
    (tempoEstimate s).snd.trk = { s.snd.trk with conf := 0, est := none, state := 2 } := by
  simp [tempoEstimate, on, locked, silent]

/-! ### COAST's end and first use (R263) -/

theorem coastTimeout_of_not_coast {s : State} (h : s.snd.trk.state ≠ 2) : coastTimeout s = s := if_pos h

theorem coastTimeout_snd {s : State} (h : s.snd.trk.state = 2) :
    (coastTimeout s).snd = { s.snd with trk := { s.snd.trk with state := 0, next := none } } := by
  simp [coastTimeout, h]

@[simp] theorem firstUse_snd (s : State) : (firstUse s).snd = { s.snd with trk := {} } := by simp [firstUse]

/-- The status fields as the tracker brings them up to date; BEATNO is not among them. -/
theorem trkStat_fields {s : State} (h : StoresOk s) :
    (trkStat s).get pgSND F.SND_BEATNO = s.get pgSND F.SND_BEATNO ∧
      (trkStat s).get pgSND F.SND_TRACKSTAT_STATE = s.snd.trk.state % 4 ∧
      (trkStat s).get pgSND F.SND_TRACKSTAT_ONSETS = min 255 (heldOnsets s).length % 256 ∧
      (trkStat s).get pgSND F.SND_TEMPO =
        (if s.snd.trk.state = 0 then 0 else (openRound 805 (60 / s.snd.trk.period * 256)).toNat) % 65536 := by
  unfold trkStat
  extract_lets k stated onsets tempo
  have stated' : StoresOk stated := (h.set ..).set ..
  have held : heldOnsets stated = heldOnsets s := by simp [heldOnsets, stated]
  refine ⟨?_, ?_, ?_, ?_⟩
  · rw [get_set_ne _ (by decide), get_set_ne _ (by decide), get_set_ne _ (by decide), get_set_ne _ (by decide), get_set_ne _ (by decide)]
  · rw [get_set_ne _ (by decide), get_set_ne _ (by decide)]
    refine (get_set_apart stated' (f := F.SND_TRACKSTAT_ONSETS) (g := F.SND_TRACKSTAT_STATE) _ rfl (by decide) (by decide) _).trans ?_
    refine (get_set_apart (h.set ..) (f := F.SND_TRACKSTAT_CONF) (g := F.SND_TRACKSTAT_STATE) _ rfl (by decide) (by decide) _).trans ?_
    exact get_set_same h _ (by decide) ..
  · rw [get_set_ne _ (by decide), get_set_ne _ (by decide), ← held]
    exact get_set_same stated' _ (by decide) ..
  · rw [get_set_ne _ (by decide)]
    exact get_set_same (stated'.set ..) _ (by decide) ..

theorem firstUse_fields {s : State} (h : StoresOk s) :
    (firstUse s).get pgSND F.SND_BEATNO = 0 ∧ (firstUse s).get pgSND F.SND_TRACKSTAT_STATE = 0 ∧
      (firstUse s).get pgSND F.SND_TRACKSTAT_ONSETS = 0 ∧ (firstUse s).get pgSND F.SND_TEMPO = 0 := by
  have fresh := trkStat_fields ((h.updTrk fun _ => {}).set pgSND F.SND_BEATNO 0 0)
  rw [get_set_same (h.updTrk _) _ (by decide)] at fresh
  simpa [firstUse, heldOnsets] using fresh

/-! ### A beat (R264 to R267) -/

theorem leBytes_length (n v : Nat) : (leBytes n v).length = n := by
  induction n generalizing v with
  | zero => rfl
  | succ n ih => simp [leBytes, ih]

theorem secNs_length (q : Rat) : (secNs q).length = 8 := by simp [secNs, leBytes_length]

/-- A post that waits, waits in the sound block's slot: the tracker and the beats stay. -/
theorem beatPost_frame (t : Nat) (s : State) : (beatPost t s).snd.trk = s.snd.trk ∧ (beatPost t s).snd.beats = s.snd.beats := by
  unfold beatPost
  split
  · next posted => rw [(EventPartsOnly.enqueue posted).snd]; exact ⟨rfl, rfl⟩
  · dsimp only
    split <;> simp

theorem gridMove_snd (b : Rat) (s : State) : (gridMove b s).1.snd = s.snd := by
  unfold gridMove
  dsimp only
  split <;> rfl

theorem beatIssue_of_idle {s : State} (h : s.snd.trk.next = none ∨ sndOn s = false ∨ s.snd.trk.state = 0) : beatIssue s = s := by
  unfold beatIssue
  dsimp only
  split
  · rfl
  · next b due =>
    refine if_pos ?_
    simpa [due] using h

/-- What the tracker and the beats hold once a beat is issued: its record `r`, the count moved on, the running grid with a next beat, and where
a bar begins. How far the grid moves (R264) and what B becomes are left open. -/
structure BeatIssued (b : Rat) (r : List Byte) (s t : State) : Prop where
  trk : ∃ period next bar, t.snd.trk = { s.snd.trk with
    beatNo := s.snd.trk.beatNo + 1
    resync := false
    period := period
    next := some next
    bar := bar
    issued := ((b, (s.snd.trk.beatNo + s.snd.trk.bar) % meterOf s) :: s.snd.trk.issued).take 64 }
  beats : t.snd.beats = (r :: s.snd.beats).take 64

theorem beatIssue_issued {b : Rat} {s : State} (due : s.snd.trk.next = some b) (on : sndOn s = true) (runs : s.snd.trk.state ≠ 0) :
    ∃ r : List Byte, r.length = 32 ∧ BeatIssued b r s (beatIssue s) := by
  unfold beatIssue
  extract_lets k
  split
  · next none' => exact absurd (due.symm.trans none') (by simp)
  next b' due' =>
  obtain rfl : b' = b := Option.some.inj (due'.symm.trans due)
  rw [if_neg (by simp [on, runs, k])]
  extract_lets r written kept counted posted published shown
  refine ⟨r, by simp [r, secNs_length, leBytes_length], ?_⟩
  have counted' : counted.snd.trk = k ∧ counted.snd.beats = (r :: s.snd.beats).take 64 := by simp [counted, kept, written, k]
  have posted' : posted.snd.trk = k ∧ posted.snd.beats = (r :: s.snd.beats).take 64 := by
    unfold posted
    split <;> simpa [beatPost_frame] using counted'
  have shown' : shown.snd.trk = k ∧ shown.snd.beats = (r :: s.snd.beats).take 64 := by
    unfold shown published
    split <;> simpa using posted'
  clear_value shown
  have moved' := gridMove_snd b' shown
  generalize gridMove b' shown = g at moved' ⊢
  obtain ⟨moved, p, phi⟩ := g
  dsimp -zeta only at moved' ⊢
  extract_lets issued ahead barred
  rw [← moved'] at shown'
  have ahead' : ahead.snd.beats = (r :: s.snd.beats).take 64 ∧ ahead.snd.trk = { k with
      beatNo := k.beatNo + 1
      resync := false
      period := p
      next := some (firstAhead issued phi p (b' + p / 2))
      issued := ((b', (k.beatNo + k.bar) % meterOf s) :: k.issued).take 64 } := by
    simp [ahead, issued, shown']
    rfl
  clear_value ahead
  unfold barred
  split
  · exact ⟨⟨p, firstAhead issued phi p (b' + p / 2), barAuto ahead, by simp [ahead', k]⟩, by simp [ahead']⟩
  · exact ⟨⟨p, firstAhead issued phi p (b' + p / 2), k.bar, by simp [ahead', k]⟩, by simp [ahead']⟩

/-! ### The bar (R265) -/

theorem barSync_of_clear {v : Word} (h : bitsOf v 0 1 = 0) (s : State) : barSync v s = s := if_pos h

/-- The next beat opens a bar. -/
theorem barSync_set {v : Word} (h : bitsOf v 0 1 = 1) (s : State) :
    barSync v s = updTrk s fun k => { k with bar := (meterOf s - k.beatNo % meterOf s) % meterOf s } := if_neg (by simp [h])

theorem add_mod_complement (n : Nat) {m : Nat} (h : 0 < m) : (n + (m - n % m) % m) % m = 0 := by
  have rest : n % m < m := Nat.mod_lt n h
  have whole : n + (m - n % m) = m * (n / m + 1) := by
    have parts := Nat.div_add_mod n m
    rw [Nat.mul_add]
    omega
  rw [Nat.add_mod_mod, whole, Nat.mul_mod_right]

end Sys2Proof.Machine
end

section
/-!
SUPPORT. The commands of the tempo tracker (chapter 8): what one makes of a state is what its operation makes of the state with nothing sent
out yet.
-/
namespace Sys2Proof.Machine
open Sys2Proof

theorem exec_tempoEstimate (s : State) : exec .tempoEstimate s = .next (tempoEstimate s.quiet) := rfl

theorem exec_coastTimeout (s : State) : exec .coastTimeout s = .next (coastTimeout s.quiet) := rfl

theorem exec_trackerFirstUse (s : State) : exec .trackerFirstUse s = .next (firstUse s.quiet) := rfl

theorem exec_beatIssue (s : State) : exec .beatIssue s = .next (flushPub (beatIssue s.quiet)) := rfl

theorem exec_barsync (v : Word) (s : State) : exec (.barsync v) s = .next (barSync v s.quiet) := rfl

/-- Settles O27, command by command from what each one's operation makes of the tracker. -/
theorem tempoTracker : Obligations.TempoTracker := by
  unfold Obligations.TempoTracker
  refine ⟨?noEstimate, ?estimate, ?noCoast, ?coast, ?firstUse, ?noBeat, ?beat, ?noBar, ?bar⟩
  case noEstimate =>
    intro s off
    rw [exec_tempoEstimate, tempoEstimate_of_off (s := s.quiet) off]
  case estimate =>
    intro s on few
    refine ⟨fun unlocked => ?_, fun locked old => ?_⟩
    · exact ⟨_, exec_tempoEstimate s, tempoEstimate_few (s := s.quiet) on few unlocked⟩
    · exact ⟨_, exec_tempoEstimate s, tempoEstimate_silent (s := s.quiet) on (heldOnsets_eq_nil old) locked⟩
  case noCoast =>
    intro s h
    rw [exec_coastTimeout, coastTimeout_of_not_coast (s := s.quiet) h]
  case coast =>
    intro s h
    exact ⟨_, exec_coastTimeout s, coastTimeout_snd (s := s.quiet) h⟩
  case firstUse =>
    intro s hs
    exact ⟨_, exec_trackerFirstUse s, firstUse_snd s.quiet, firstUse_fields hs.quiet⟩
  case noBeat =>
    intro s hp h
    rw [exec_beatIssue, beatIssue_of_idle (s := s.quiet) h, flushPub_of_none (s := s.quiet) hp]
  case beat =>
    intro b s due on runs
    obtain ⟨r, length, ⟨period, next, bar, trk⟩, beats⟩ := beatIssue_issued (s := s.quiet) due on runs
    refine ⟨_, r, exec_beatIssue s, ?_⟩
    rw [flushPub_snd]
    dsimp only
    rw [trk, beats]
    exact ⟨rfl, rfl, rfl, rfl, rfl, length, rfl⟩
  case noBar =>
    intro v s h
    rw [exec_barsync, barSync_of_clear h]
  case bar =>
    intro v s h
    rw [exec_barsync, barSync_set h]
    exact ⟨_, rfl, rfl, rfl, add_mod_complement _ (Nat.succ_pos _)⟩

end Sys2Proof.Machine
end

section
/-!
SUPPORT. The sound inputs (R254 to R260, R268 to R270): what TDM frames, bus samples, block ends, LTC frames and shared records make of the
sound state.
-/
namespace Sys2Proof.Machine
open Sys2Proof

/-! ### TDM (R254, R255) -/

@[simp] theorem chanSample_tdm (ch stamp : Nat) (raw : Int) (fast : Bool) (s : State) : (chanSample ch stamp raw fast s).snd.tdm = s.snd.tdm := by
  simp only [chanSample, updSnd_snd]
  split <;> rfl

@[simp] theorem chanSample_regs (ch stamp : Nat) (raw : Int) (fast : Bool) (s : State) : (chanSample ch stamp raw fast s).regs = s.regs := by
  simp only [chanSample, updSnd_regs]
  split <;> rfl

theorem tdmFrame_of_off {p : Nat} {rising : Bool} {s : State}
    (h : bitsOf (tdmReg s p) 0 1 = 0 ∨ sndIn s = false ∨ rising ≠ decide (bitsOf (tdmReg s p) 8 1 = 0)) (t : Nat)
    (lines : List (List Bool × List Bool)) : tdmFrame p rising t lines s = s := by
  unfold tdmFrame
  exact if_pos (by simpa using h)

/-- The regular frames in a row of a port, with the frame that an edge at `t` opens (R255). -/
def regularFrames (s : State) (p t : Nat) : Nat :=
  match (s.snd.tdm.getD p (none, 0)).1 with
  | some e =>
    if Config.frameRegular (tdmStamp (tdmReg s p) t - e) (secUnits / (if bitsOf (tdmReg s p) 2 1 = 1 then 96000 else 48000)) then
      (s.snd.tdm.getD p (none, 0)).2 + 1 else 0
  | none => 0

theorem lock_or_lt {lock p : Nat} (hl : lock < 4) (hp : p < 2) : lock ||| 2 ^ p < 4 :=
  Nat.or_lt_two_pow (n := 2) hl (Nat.pow_lt_pow_right (by decide) hp)

/-- The samples of a frame go to their channels: neither a port's frames nor a register changes. -/
theorem foldl_chanSample (base stamp : Nat) (fast : Bool) (l : List (Int × Nat)) (s : State) :
    (l.foldl (fun s x => chanSample (base + x.2) stamp x.1 fast s) s).snd.tdm = s.snd.tdm ∧
      (l.foldl (fun s x => chanSample (base + x.2) stamp x.1 fast s) s).regs = s.regs :=
  foldl_induct (P := fun t => t.snd.tdm = s.snd.tdm ∧ t.regs = s.regs)
    (fun _ _ h => ⟨(chanSample_tdm ..).trans h.1, (chanSample_regs ..).trans h.2⟩) l ⟨rfl, rfl⟩

theorem get_of_regs {s t : State} (h : t.regs = s.regs) (p : Nat) (f : Fld) (k : Nat) : t.get p f k = s.get p f k :=
  congrArg (bitsOf · f.lsb f.w) (reg_of_regs h ..)

theorem tdmFrame_opens {p : Nat} {s : State} (hs : StoresOk s) (hp : p < 2) (en : bitsOf (tdmReg s p) 0 1 = 1) (on : sndIn s = true) (t : Nat)
    (lines : List (List Bool × List Bool)) :
    (tdmFrame p (decide (bitsOf (tdmReg s p) 8 1 = 0)) t lines s).snd.tdm =
        s.snd.tdm.set p (some (tdmStamp (tdmReg s p) t), regularFrames s p t) ∧
      (tdmFrame p (decide (bitsOf (tdmReg s p) 8 1 = 0)) t lines s).get pgSND F.SND_INSTAT_TDMLOCK =
        if 16 ≤ regularFrames s p t then s.get pgSND F.SND_INSTAT_TDMLOCK ||| 2 ^ p else s.get pgSND F.SND_INSTAT_TDMLOCK := by
  unfold tdmFrame
  extract_lets r high fast stamp driven per
  rw [if_neg (by simp [r, high, en, on])]
  have driven' : driven.snd = s.snd ∧ driven.regs = s.regs ∧ StoresOk driven := by
    unfold driven
    split
    · exact ⟨rfl, rfl, hs.regs, hs.staged, hs.ctr, hs.mem⟩
    · exact ⟨rfl, rfl, hs⟩
  clear_value driven
  obtain ⟨snd, regs, stores⟩ := driven'
  have frames : regularFrames s p t = match s.snd.tdm.getD p (none, 0) with
      | (last, n) => match last with | some l => if Config.frameRegular (stamp - l) per then n + 1 else 0 | none => 0 := rfl
  rw [snd]
  generalize s.snd.tdm.getD p (none, 0) = d at frames ⊢
  obtain ⟨last, n⟩ := d
  dsimp -zeta only at frames ⊢
  extract_lets n' noted lock locked
  have count : n' = regularFrames s p t := frames.symm
  clear_value n'
  subst count
  have lock' : lock = s.get pgSND F.SND_INSTAT_TDMLOCK := get_of_regs regs ..
  obtain ⟨tdm, kept⟩ := foldl_chanSample (16 * p) stamp (decide fast) (tdmSamples r lines).zipIdx locked
  rw [tdm, get_of_regs kept]
  unfold locked
  split
  · refine ⟨by simp [noted, snd, stamp, r], (get_set_same (stores.updSnd _) _ (by decide) ..).trans ?_⟩
    rw [lock']
    exact Nat.mod_eq_of_lt (lock_or_lt (bitsOf_lt ..) hp)
  · exact ⟨by simp [noted, snd, stamp, r], lock'⟩

/-- A loss clears the port's bit of `lock` and no other. -/
theorem lock_cleared {lock p : Nat} (hl : lock < 4) (hp : p < 2) : (lock - (lock &&& 2 ^ p)).testBit p = false ∧
    ∀ q, q < 2 → q ≠ p → (lock - (lock &&& 2 ^ p)).testBit q = lock.testBit q := by
  have small : ∀ lock < 4, ∀ p < 2, (lock - (lock &&& 2 ^ p)).testBit p = false ∧
      ∀ q < 2, q ≠ p → (lock - (lock &&& 2 ^ p)).testBit q = lock.testBit q := by decide
  exact small lock hl p hp

theorem tdmLoss_snd (p : Nat) (s : State) : (tdmLoss p s).snd = { s.snd with tdm := s.snd.tdm.set p (none, 0) } := by simp [tdmLoss]

theorem tdmLoss_lock {s : State} (hs : StoresOk s) (p : Nat) : (tdmLoss p s).get pgSND F.SND_INSTAT_TDMLOCK =
    s.get pgSND F.SND_INSTAT_TDMLOCK - (s.get pgSND F.SND_INSTAT_TDMLOCK &&& 2 ^ p) :=
  (get_set_same (hs.updSnd _) _ (by decide) ..).trans (Nat.mod_eq_of_lt (Nat.lt_of_le_of_lt (Nat.sub_le ..) (bitsOf_lt ..)))

/-! ### Bus samples (R257) -/

theorem busOf_updBus_same {s : State} {b : Nat} (h : b < s.snd.buses.length) (f : Bus → Bus) : busOf (updBus s b f) b = f (busOf s b) :=
  getD_updAt_same h ..

theorem busOf_updBus_ne (s : State) {b c : Nat} (h : c ≠ b) (f : Bus → Bus) : busOf (updBus s b f) c = busOf s c := getD_updAt_ne _ h.symm ..

theorem busOf_of_buses {s t : State} (h : t.snd.buses = s.snd.buses) (b : Nat) : busOf t b = busOf s b := by rw [busOf, h, busOf]

theorem busSample_of_off {b : Nat} {s : State} (h : sndOn s = false ∨ s.flag pgSND F.SND_BUS_EN b = false) : busSample b s = s :=
  if_pos (by simpa using h)

/-- The sample goes behind those of the block, at a later grid instant than the last; the other buses stay. -/
theorem busSample_takes {b : Nat} {s : State} (on : sndOn s = true) (en : s.flag pgSND F.SND_BUS_EN b = true) (h : b < s.snd.buses.length) :
    ∃ n e, (busOf (busSample b s) b).idx = some n ∧ (busOf (busSample b s) b).block = (busOf s b).block ++ [(n, e)] ∧
      (∀ i, (busOf s b).idx = some i → i < n) ∧ ∀ c, c ≠ b → busOf (busSample b s) c = busOf s c := by
  unfold busSample
  rw [if_neg (by simp [on, en])]
  extract_lets k now n lim test chs
  generalize List.foldl _ ((Fl.fin 0, [], 0, 0) : Fl × List (Nat × Nat) × Nat × Nat) chs = mix
  obtain ⟨y, taken, slips, clips⟩ := mix
  dsimp -zeta only
  extract_lets y' gap sampled slipped
  have buses (c : Nat) : busOf ((slipped.bump pgSND F.SND_st_CLIPS clips).evtIf (decide (clips ≠ 0)) pgSND 7) c = busOf sampled c :=
    busOf_of_buses (by simp [slipped]) c
  simp only [buses]
  refine ⟨n, (toSingle y', decide (clips ≠ 0), gap), ?_, ?_, fun i last => ?_, fun c other => busOf_updBus_ne s other _⟩
  · exact congrArg Bus.idx (busOf_updBus_same h _)
  · exact congrArg Bus.block (busOf_updBus_same h _)
  · have next : n = max now.toNat (i + 1) := by simp [n, k, last]
    omega

/-! ### Blocks and feature records (R258 to R260, R271) -/

/-- What a record of instant `t` under a key leaves of the taps' choices: those it is not late for (log entry 40). -/
def choicesKept (key : Nat) (t : Rat) (l : List (Nat × Rat × Rat)) : List (Nat × Rat × Rat) :=
  l.filter fun x => !(decide (x.1 = key) && decide (x.2.2 < t) && decide (t ≤ x.2.1))

@[simp] theorem recordCame_snd (key : Nat) (t : Rat) (s : State) :
    (recordCame key t s).snd = { s.snd with tapUsed := choicesKept key t s.snd.tapUsed } := by
  simp [recordCame, choicesKept]

@[simp] theorem putFeature_snd (slot seq : Nat) (r : List Byte) (s : State) : (putFeature slot seq r s).snd =
    { s.snd with
      feats := updAt s.snd.feats slot fun l => (r :: l).take 256
      tapUsed := choicesKept slot (recTime s r) s.snd.tapUsed } := by
  simp [putFeature]

theorem blockEnd_of_idle {b : Nat} {s : State} (h : (busOf s b).block = [] ∨ sndOn s = false) : blockEnd b s = s := by
  unfold blockEnd
  extract_lets k
  split
  · rfl
  · next filled =>
    have off : sndOn s = false := h.resolve_left fun none' => by simp [k, none'] at filled
    exact if_pos (by simp [off])

/-- What the block `n / 48` leaves once it has ended: the samples of the others, the next SEQ, and its record `f` in the bus's slot. -/
structure BlockEnded (b n : Nat) (f : List Byte) (s t : State) : Prop where
  block : (busOf t b).block = (busOf s b).block.filter fun x => x.1 / 48 ≠ n / 48
  seq : (busOf t b).seq = ((busOf s b).seq + 1) % 65536
  feats : (t.snd.feats.getD b []).head? = some f

theorem BlockEnded.of_eq {b n : Nat} {f : List Byte} {s t u : State} (h : BlockEnded b n f s t) (buses : u.snd.buses = t.snd.buses)
    (feats : u.snd.feats = t.snd.feats) : BlockEnded b n f s u :=
  ⟨by rw [busOf_of_buses buses, h.block], by rw [busOf_of_buses buses, h.seq], by rw [feats, h.feats]⟩

theorem halfBytes_length (key : Nat) (q : Rat) : (halfBytes key q).length = 2 := leBytes_length ..

theorem flatMap_halfBytes_length (key : Nat) (l : List Rat) : (l.flatMap (halfBytes key)).length = 2 * l.length := by
  induction l with
  | nil => rfl
  | cons q l ih => simp only [List.flatMap_cons, List.length_append, List.length_cons, halfBytes_length, ih]; omega

theorem blockEnd_ended {b n : Nat} {e : Nat × Bool × Bool} {rest : List (Nat × Nat × Bool × Bool)} {s : State}
    (held : (busOf s b).block = (n, e) :: rest) (on : sndOn s = true) (hb : b < s.snd.buses.length) (hf : b < s.snd.feats.length) :
    ∃ f : List Byte, f.length = 96 ∧ BlockEnded b n f s (blockEnd b s) := by
  unfold blockEnd
  extract_lets k
  split
  · next none' => exact absurd (held.symm.trans none') (by simp)
  next n' e' rest' filled =>
  obtain ⟨rfl, -⟩ := Prod.mk.inj (List.cons.inj (filled.symm.trans held)).1
  rw [if_neg (by simp [on])]
  extract_lets blk mine ys ends runs filt energy level rise flux far onset
  generalize hd : (if _ = (0 : Rat) then s.free else (s, 0)) = draw
  have draw' : draw.1.snd = s.snd := by rw [← hd]; split <;> rfl
  obtain ⟨drawn, v⟩ := draw
  dsimp -zeta only at draw' ⊢
  clear hd
  extract_lets strength warm flags r put ended counted noted tracked
  have length : r.length = 96 := by
    simp only [r, List.length_append, secNs_length, leBytes_length, halfBytes_length, flatMap_halfBytes_length, energy]
    simp
  refine ⟨r, length, ?_⟩
  have buses : put.snd.buses = s.snd.buses := by simp [put, draw']
  have feats : put.snd.feats = updAt s.snd.feats b fun l => (r :: l).take 256 := by simp [put, draw']
  have ended' : BlockEnded b n' r s ended := by
    have bus := busOf_updBus_same (s := put) (b := b) (by rw [buses]; exact hb)
    refine ⟨?_, ?_, ?_⟩
    · rw [bus, busOf_of_buses buses]
    · rw [bus, busOf_of_buses buses]
    · exact (congrArg (fun l => (l.getD b []).head?) feats).trans (by rw [getD_updAt_same hf])
  have counted' : BlockEnded b n' r s counted := ended'.of_eq (by simp [counted, apply_ite State.snd]) (by simp [counted, apply_ite State.snd])
  have tracked' : BlockEnded b n' r s tracked := by
    unfold tracked
    split
    · exact counted'.of_eq (by simp [noted]) (by simp [noted])
    · exact counted'
  split
  · exact tracked'.of_eq rfl rfl
  · exact tracked'

end Sys2Proof.Machine
end

section
/-!
SUPPORT. LTC frames, records shared over the fabric and the modulation taps (R268, R270 to R273): what each makes of the sound state.
-/
namespace Sys2Proof.Machine
open Sys2Proof

/-! ### LTC (R268) -/

theorem ltcLost_snd (s : State) : (ltcLost s).snd = { s.snd with ltcValid := 0, ltcBad := 0 } := by simp [ltcLost, apply_ite State.snd]

theorem ltcLost_invalid {s : State} (hs : StoresOk s) (free : s.flag pgSND F.SND_LTCSTAT_LOCK = false) :
    (ltcLost s).flag pgTIME F.TIME_TCODE_VALID = false := by
  unfold ltcLost
  extract_lets cleared stopped
  have lock : stopped.flag pgSND F.SND_LTCSTAT_LOCK = false := by
    rw [State.flag, get_set_ne _ (by decide)]
    exact free
  rw [if_neg (by simp [lock]), State.flag, get_set_same (hs.updSnd _) _ (by decide)]
  rfl

theorem ltcTake_snd (valid : Bool) (tc rate t : Nat) (s : State) : (ltcTake valid tc rate t s).snd = { s.snd with
    ltcValid := if !valid then 0 else if rate = s.snd.ltcRate then s.snd.ltcValid + 1 else 1
    ltcBad := if valid ∨ 1 ≤ s.snd.ltcBad then 0 else 1
    ltcRate := if valid then rate else s.snd.ltcRate } := by
  unfold ltcTake
  cases valid with
  | false =>
    by_cases second : 1 ≤ s.snd.ltcBad
    · simp [ltcLost_snd, second]
    · simp [Nat.lt_one_iff.1 (Nat.lt_of_not_le second)]
  | true => simp [apply_ite State.snd]

theorem ltcFrame_of_other {valid : Bool} {tc rate t : Nat} {s : State}
    (h : s.flag pgSND F.SND_LTC_EN = false ∨ sndIn s = false ∨ s.snd.ltc.frames.head? ≠ some (valid, tc, rate, t)) :
    ltcFrame valid tc rate t s = s := if_pos (by simpa using h)

theorem ltcFrame_snd {valid : Bool} {tc rate t : Nat} {l : List (Bool × Nat × Nat × Nat)} {s : State}
    (en : s.flag pgSND F.SND_LTC_EN = true) (on : sndIn s = true) (oldest : s.snd.ltc.frames = (valid, tc, rate, t) :: l) :
    (ltcFrame valid tc rate t s).snd = { s.snd with
      ltc := { s.snd.ltc with frames := l }
      ltcValid := if !valid then 0 else if rate = s.snd.ltcRate then s.snd.ltcValid + 1 else 1
      ltcBad := if valid ∨ 1 ≤ s.snd.ltcBad then 0 else 1
      ltcRate := if valid then rate else s.snd.ltcRate } := by
  unfold ltcFrame
  rw [if_neg (by simp [en, on, oldest]), ltcTake_snd, updSnd_snd, oldest]
  rfl

/-! ### Records from the fabric (R270) -/

theorem remoteRecord_of_other {b : List Byte} {s : State} (h : sndIn s = false ∨ (b.length ≠ 32 ∧ b.length ≠ 96)) : remoteRecord b s = s := by
  unfold remoteRecord
  rcases h with off | ⟨beat, feature⟩
  · simp [off]
  · simp [beat, feature]

theorem remoteRecord_beat {b : List Byte} {s : State} (on : sndIn s = true) (length : b.length = 32) : remoteRecord b s =
    if s.flag pgSND F.SND_REMBEAT_EN ∧ s.get pgSND F.SND_REMBEAT_NODE = leVal (slice b 8 4) % 2 ^ 18 then
      recordCame 8 (issueTime s b) (updSnd s fun d => { d with remBeats := beatInsert s b d.remBeats })
    else s := by
  simp [remoteRecord, on, length]

theorem remoteRecord_slot3 {b : List Byte} {s : State} (on : sndIn s = true) (length : b.length = 96)
    (others : ∀ r, r < 3 → s.flag pgSND F.SND_REMOTE_EN r = false) : remoteRecord b s =
    if s.flag pgSND F.SND_REMOTE_EN 3 ∧ s.get pgSND F.SND_REMOTE_NODE 3 = leVal (slice b 8 4) % 2 ^ 18 ∧
        s.get pgSND F.SND_REMOTE_BUS 3 = leVal (slice b 8 4) / 2 ^ 18 % 4 then remoteFeature 3 b s else s := by
  simp [remoteRecord, on, length, others 0, others 1, others 2]

theorem remoteFeature_first {r : Nat} {b : List Byte} {s : State} (empty : s.snd.feats.getD (4 + r) [] = []) :
    remoteFeature r b s = putFeature (4 + r) (leVal (slice b 14 2)) b s := by
  unfold remoteFeature
  dsimp only
  rw [empty]

/-- The first record of a remote bus into its empty slot. -/
theorem remoteFeature_first_snd {b : List Byte} {s : State} (slots : s.snd.feats.length = 8) (empty : s.snd.feats.getD 7 [] = []) :
    (remoteFeature 3 b s).snd = { s.snd with feats := s.snd.feats.set 7 [b], tapUsed := choicesKept 7 (recTime s b) s.snd.tapUsed } := by
  have held : s.snd.feats.get ⟨7, by omega⟩ = [] := by simpa [List.getD, slots] using empty
  have slot : (updAt s.snd.feats 7 fun l => (b :: l).take 256) = s.snd.feats.set 7 [b] := by
    rw [updAt, List.modify_eq_set_get _ (by omega), held]
    rfl
  rw [remoteFeature_first empty, putFeature_snd, slot]

/-! ### Taps (R271 to R273) -/

theorem tapSample_of_off {s : State} (h : inRun s pgTAP = false ∨ s.time.gapM.isSome = true) : tapSample s = s := if_pos (by simpa using h)

/-- Taps leave the values in force, the feature slots and the count of values applied. -/
structure TapFrame (s t : State) : Prop where
  drive : t.snd.drive = s.snd.drive
  feats : t.snd.feats = s.snd.feats
  driven : t.stat pgTAP F.TAP_st_DRIVEN = s.stat pgTAP F.TAP_st_DRIVEN

namespace TapFrame
variable {s t u : State}

theorem refl (s : State) : TapFrame s s := ⟨rfl, rfl, rfl⟩

theorem trans (h : TapFrame s t) (h' : TapFrame t u) : TapFrame s u :=
  ⟨h'.drive.trans h.drive, h'.feats.trans h.feats, h'.driven.trans h.driven⟩

theorem ite {c : Prop} [Decidable c] (ht : TapFrame s t) (hu : TapFrame s u) : TapFrame s (if c then t else u) := by
  split
  · exact ht
  · exact hu

theorem updSnd (s : State) {f : SndState → SndState} (drive : (f s.snd).drive = s.snd.drive) (feats : (f s.snd).feats = s.snd.feats) :
    TapFrame s (updSnd s f) := ⟨drive, feats, rfl⟩

theorem bump (s : State) {f : Fld} (h : State.statKey pgTAP F.TAP_st_DRIVEN 0 ≠ State.statKey pgTAP f 0) : TapFrame s (s.bump pgTAP f 1 0) :=
  ⟨by simp, by simp, stat_bump_ne s h 1⟩

theorem evt (s : State) (bit : Nat) : TapFrame s (s.evt pgTAP bit) := ⟨by simp, by simp, stat_evt s pgTAP bit (by decide)⟩

theorem tapInput (s : State) (t n : Nat) (r : Option (List Byte)) : TapFrame s (tapInput s t n r).1 := by
  unfold Machine.tapInput
  split
  · exact refl s
  dsimp only
  split
  · split
    · exact refl s
    · split <;> exact refl s
  · split
    · exact refl s
    · next b _ _ =>
      have drawn : TapFrame s (if leVal (slice b 14 2) = 0 then s.free else (s, 0)).1 := by
        split
        · exact ⟨rfl, rfl, rfl⟩
        · exact refl s
      generalize (if leVal (slice b 14 2) = 0 then s.free else (s, 0)) = draw at drawn ⊢
      split <;> exact drawn

theorem noteUsed (n t : Nat) (r : Option (List Byte)) (s : State) : TapFrame s (noteUsed n t r s) := by
  unfold Machine.noteUsed
  split
  · exact refl s
  · exact updSnd s rfl rfl

theorem tapOne (n t : Nat) (s : State) : TapFrame s (tapOne n t s) := by
  unfold Machine.tapOne
  split
  · exact refl s
  extract_lets r
  have input := tapInput s t n r
  split
  · next s' e => 
    rw [e] at input
    exact input.trans (bump s' (by decide))
  · next s' x e =>
    rw [e] at input
    extract_lets used y0 k y kept kind fld key
    have used' : TapFrame s used := input.trans (noteUsed ..)
    have kept' : TapFrame s kept := used'.trans (updSnd _ rfl rfl)
    exact ite kept' (kept'.trans (updSnd _ rfl rfl))

end TapFrame

theorem amSorted_foldl_amSet {α : Type} (l : List (Nat × α)) {m : List (Nat × α)} (h : amSorted m = true) :
    amSorted (l.foldl (fun m (k, v) => amSet m k v) m) = true := by
  induction l generalizing m with
  | nil => exact h
  | cons e l ih => exact ih (amSorted_amSet _ _ h)

section
variable {s : State} (runs : inRun s pgTAP = true) (frame : s.time.gapM = none)
include runs frame

theorem tapSample_sampled : TapFrame s (tapSample s) ∧ amSorted (tapSample s).snd.nextDrive = true := by
  unfold tapSample
  rw [if_neg (by simp [runs, frame])]
  extract_lets n cleared sampled all keep kept
  have sampled' : TapFrame s sampled :=
    foldl_induct (P := TapFrame s) (fun t x h => h.trans (TapFrame.tapOne n x t)) _ ((TapFrame.refl s).trans (TapFrame.updSnd s rfl rfl))
  have kept' : TapFrame s kept := sampled'.trans (TapFrame.updSnd _ rfl rfl)
  have sorted : amSorted kept.snd.nextDrive = true := amSorted_foldl_amSet _ rfl
  split
  · exact ⟨(kept'.trans (TapFrame.bump _ (by decide))).trans (TapFrame.evt ..), by simpa using sorted⟩
  · exact ⟨kept', sorted⟩

theorem tapSample_of_none_enabled (none' : ∀ t, t < 64 → s.flag pgTAP F.TAP_CFG_EN t = false) :
    (tapSample s).snd.nextDrive = [] ∧ (tapSample s).regs = s.regs := by
  unfold tapSample
  rw [if_neg (by simp [runs, frame])]
  extract_lets n cleared sampled all keep kept
  have idle : sampled = cleared := by
    refine List.foldlRecOn (motive := fun t => t = cleared) _ _ rfl fun t same x hx => ?_
    rw [same]
    have off : cleared.flag pgTAP F.TAP_CFG_EN x = false := none' x (List.mem_range.1 hx)
    exact if_pos (by simp [off])
  have all' : all = [] := by unfold all; rw [idle]; rfl
  have keep' : keep = [] := by unfold keep; rw [all']; rfl
  rw [if_neg (by simp [all', keep'])]
  have regs : sampled.regs = cleared.regs := congrArg State.regs idle
  exact ⟨keep', regs⟩

end

end Sys2Proof.Machine
end

section
/-!
SUPPORT. The commands of the sound inputs and of the taps (chapter 8): what one makes of a state is what its operation makes of the state with
nothing sent out yet.
-/
namespace Sys2Proof.Machine
open Sys2Proof

theorem exec_tdmFrame (p : Fin 2) (edge : Bool × Nat) (lines : List (List Bool × List Bool)) (s : State) :
    exec (.tdmFrame p edge lines) s = .next (tdmFrame p.val edge.1 edge.2 lines s.quiet) := rfl

theorem exec_tdmLockLoss (p : Fin 2) (s : State) : exec (.tdmLockLoss p) s = .next (tdmLoss p.val s.quiet) := rfl

theorem exec_busSample (b : Fin 4) (s : State) : exec (.busSample b) s = .next (busSample b.val s.quiet) := rfl

theorem exec_blockEnd (b : Fin 4) (s : State) : exec (.blockEnd b) s = .next (flushPub (blockEnd b.val s.quiet)) := rfl

theorem exec_ltcFrame (valid : Bool) (tc : BitVec 31) (rate : Fin 4) (t : Nat) (s : State) :
    exec (.ltcFrame valid tc rate t) s = .next (ltcFrame valid tc.toNat rate.val t s.quiet) := rfl

theorem exec_ltcLost (s : State) : exec .ltcLost s = .next (ltcLost s.quiet) := rfl

theorem exec_remoteRecordReceive (b : List Byte) (s : State) : exec (.remoteRecordReceive b) s = .next (remoteRecord b s.quiet) := rfl

theorem exec_tapSample (s : State) : exec .tapSample s = .next (tapSample s.quiet) := rfl

/-- Settles O26, command by command from what each one's operation makes of the sound state. -/
theorem soundInputs : Obligations.SoundInputs := by
  unfold Obligations.SoundInputs
  refine ⟨?noFrame, ?frame, ?loss, ?noSample, ?sample, ?noBlock, ?block, ?noLtc, ?ltc, ?lost, ?lostLocked,
    ?noRecord, ?beat, ?feature, ?noTaps, ?taps⟩
  case noFrame =>
    intro p up t l s h
    rw [exec_tdmFrame, tdmFrame_of_off (s := s.quiet) h]
  case frame =>
    intro p t l s hs en on
    obtain ⟨tdm, lock⟩ := tdmFrame_opens hs.quiet p.isLt en on t l
    exact ⟨_, regularFrames s p.val t, exec_tdmFrame p _ l s, tdm, rfl, lock⟩
  case loss =>
    intro p s hs
    obtain ⟨cleared, others⟩ := lock_cleared (bitsOf_lt (s.reg pgSND 0x048) 0 2) p.isLt
    refine ⟨_, exec_tdmLockLoss p s, tdmLoss_snd p.val s.quiet, ?_⟩
    rw [tdmLoss_lock hs.quiet]
    exact ⟨cleared, fun q other => others q.val q.isLt fun e => other (Fin.ext e)⟩
  case noSample =>
    intro b s h
    rw [exec_busSample, busSample_of_off (s := s.quiet) h]
  case sample =>
    intro b s on en len
    obtain ⟨n, e, taken⟩ := busSample_takes (s := s.quiet) on en (by simp [len])
    exact ⟨_, n, e, exec_busSample b s, taken⟩
  case noBlock =>
    intro b s h hp
    rw [exec_blockEnd, blockEnd_of_idle (s := s.quiet) h, flushPub_of_none (s := s.quiet) hp]
  case block =>
    intro b n e r s held on buses feats
    obtain ⟨f, length, ended⟩ := blockEnd_ended (s := s.quiet) held on (by simp [buses]) (by simp only [quiet_snd, feats]; omega)
    obtain ⟨block, seq, slot⟩ := ended.of_eq (u := flushPub (blockEnd b.val s.quiet)) (by rw [flushPub_snd]) (by rw [flushPub_snd])
    exact ⟨_, f, exec_blockEnd b s, block, seq, by rw [flushPub_snd], slot, length⟩
  case noLtc =>
    intro v tc r t s h
    rw [exec_ltcFrame, ltcFrame_of_other (s := s.quiet) h]
  case ltc =>
    intro v tc r t l s en on oldest
    exact ⟨_, exec_ltcFrame v tc r t s, ltcFrame_snd (s := s.quiet) en on oldest⟩
  case lost =>
    intro s hs free
    exact ⟨_, exec_ltcLost s, ltcLost_snd s.quiet, ltcLost_invalid hs.quiet free⟩
  case lostLocked =>
    intro s _
    exact ⟨_, exec_ltcLost s, ltcLost_snd s.quiet⟩
  case noRecord =>
    intro b s h
    rw [exec_remoteRecordReceive, remoteRecord_of_other (s := s.quiet) h]
  case beat =>
    intro b s on length
    have record := (exec_remoteRecordReceive b s).trans (congrArg _ (remoteRecord_beat (s := s.quiet) on length))
    refine ⟨fun other => ?_, fun en node => ?_⟩
    · rw [record, if_neg (by simpa [or_iff_not_imp_left] using other)]
    · rw [if_pos ⟨en, node⟩] at record
      exact ⟨_, record, recordCame_snd ..⟩
  case feature =>
    intro b s on length others
    have record := (exec_remoteRecordReceive b s).trans (congrArg _ (remoteRecord_slot3 (s := s.quiet) on length others))
    refine ⟨fun off => ?_, fun en node bus slots empty => ?_⟩
    · rw [record, if_neg (by simp [off])]
    · rw [if_pos ⟨en, node, bus⟩] at record
      exact ⟨_, record, remoteFeature_first_snd (s := s.quiet) slots empty⟩
  case noTaps =>
    intro s h
    rw [exec_tapSample, tapSample_of_off (s := s.quiet) h]
  case taps =>
    intro s runs gap
    obtain ⟨⟨drive, feats, driven⟩, sorted⟩ := tapSample_sampled (s := s.quiet) runs gap
    refine ⟨⟨_, exec_tapSample s, sorted, drive, feats, fun _ => driven⟩, fun none' => ?_⟩
    exact ⟨_, exec_tapSample s, tapSample_of_none_enabled (s := s.quiet) runs gap none'⟩

end Sys2Proof.Machine
end

section
/-!
SUPPORT. Requests of the service bus (R549 to R553): which of them the responder takes, and what the end of one that it takes comes to.
-/
namespace Sys2Proof.Machine
open Sys2Proof

theorem sysDown_of_svcUp {s : State} (h : svcUp s = true) : sysDown s = false := by
  simp only [svcUp, Bool.and_eq_true, Bool.not_eq_true'] at h
  exact h.1.1

theorem svcResume_of_free {s : State} (h : s.svc.held = none) : svcResume s = s := by simp [svcResume, h]

/-- A withheld write that has not ended keeps its request in progress. -/
theorem svcResume_of_withheld {s : State} {h : HeldItems} (hs : s.svc.held = some h) (hc : h.code = none) : svcResume s = s := by
  obtain ⟨left, out, bad, code⟩ := h
  subst hc
  simp [svcResume, hs]

section
variable {addr : BitVec 5} {bcast : Bool} {op : Nat} {seq : Byte} {f : State → State × Nat × List Byte} {s : State}

theorem svcTake_of_other (h : addr.toNat ≠ svcAddr s) : svcTake addr false op seq f s = s := if_pos (by simp [h])

theorem svcTake_of_bcast (h : svcBcastOk op = false) : svcTake addr true op seq f s = s := if_pos (by simp [h])

theorem svcTake_of_withheld {h : HeldItems} (hs : s.svc.held = some h) (hc : h.code = none) : svcTake addr bcast op seq f s = s := by
  unfold svcTake
  rw [svcResume_of_withheld hs hc]
  simp [hs]

/-- A request taken: counted, executed, and ended with what its operation answers. -/
theorem svcTake_taken {t : State} {st : Nat} {out : List Byte} (up : svcUp s = true) (free : s.svc.held = none) (here : addr.toNat = svcAddr s)
    (done : f ((s.bump pgSVC F.SVC_st_REQUESTS).evt pgSVC 0) = (t, st, out)) :
    svcTake addr false op seq f s = svcEnd false op seq st out t := by
  unfold svcTake
  rw [if_neg (by simp [up, here])]
  dsimp only
  rw [svcResume_of_free free, if_neg (by simp [free, sysDown_of_svcUp up])]
  simp [done]

end

/-- The last request and its reply (R551). -/
theorem svcEnd_replied {op : Nat} {seq : Byte} {st : Nat} {out : List Byte} {s : State} (up : sysDown s = false) (free : s.svc.held = none) :
    svcEnd false op seq st out s =
      svcReply op seq st out (s.setReg pgSVC 0x04C (BitVec.ofNat 32 (op + seq.toNat * 0x100 + st * 0x10000))) := by
  simp [svcEnd, up, free]

theorem svcEnd_withheld {bcast : Bool} {op : Nat} {seq : Byte} {st : Nat} {out : List Byte} {s : State} {h : HeldItems} (up : sysDown s = false)
    (held : s.svc.held = some h) : svcEnd bcast op seq st out s =
      { s with svc := { s.svc with held := some { h with out := out, bad := decide (st ≠ 0) }, heldReq := some (bcast, seq) } } := by
  simp [svcEnd, up, held]

theorem svcReg_of_bad_body {op : Nat} {body : List Byte} (h : bodyOk op body = false) (s : State) : svcReg op body s = (s, 3, []) := by
  simp [svcReg, h]

theorem svcReadMem_of_range {body : List Byte} (length : body.length = 7) (h : beVal (slice body 5 2) = 0 ∨ 1016 < beVal (slice body 5 2) ∨
    (beVal (slice body 0 5) ≤ 0x40FFFFFF ∧ 0x40000000 < beVal (slice body 0 5) + beVal (slice body 5 2))) (s : State) :
    svcReadMem body s = (s, 7, []) := by
  simp [svcReadMem, length, if_pos h]

/-! ### The commands -/

section
variable (addr : BitVec 5) (bcast : Bool) (seq : Byte) (body : List Byte) (s : State)

theorem exec_svcStatus : exec (.svcStatus addr bcast seq body) s = .next (svcTake addr bcast 1 seq (svcReg 1 body) s.quiet) := rfl

theorem exec_svcPagestate : exec (.svcPagestate addr bcast seq body) s = .next (svcTake addr bcast 2 seq (svcReg 2 body) s.quiet) := rfl

theorem exec_svcReadreg : exec (.svcReadreg addr bcast seq body) s = .next (svcTake addr bcast 3 seq (svcReg 3 body) s.quiet) := rfl

theorem exec_svcWritereg : exec (.svcWritereg addr bcast seq body) s = .next (svcTake addr bcast 4 seq (svcReg 4 body) s.quiet) := rfl

theorem exec_svcReadblock : exec (.svcReadblock addr bcast seq body) s = .next (svcTake addr bcast 5 seq (svcReg 5 body) s.quiet) := rfl

theorem exec_readmem : exec (.readmem addr bcast seq body) s = .next (svcTake addr bcast 6 seq (svcReadMem body) s.quiet) := rfl

end

/-- Settles O56, request by request: which of them the responder takes, and for one that it takes the end that its operation's answer leads to. -/
theorem serviceReads : Obligations.ServiceReads := by
  unfold Obligations.ServiceReads
  refine ⟨?replied, ?withheld, ?busy, ?badBody, ?range, ?other, ?bcast⟩
  case replied =>
    intro addr seq body s t st out up free here free'
    have reply : ∀ {op f}, f ((s.quiet.bump pgSVC F.SVC_st_REQUESTS).evt pgSVC 0) = (t, st, out) → sysDown t = false →
        svcTake addr false op seq f s.quiet =
          svcReply op seq st out (t.setReg pgSVC 0x04C (BitVec.ofNat 32 (op + seq.toNat * 0x100 + st * 0x10000))) :=
      fun done up' => (svcTake_taken (s := s.quiet) up free here done).trans (svcEnd_replied up' free')
    refine ⟨?_, ?_, ?_, ?_, ?_, ?_⟩ <;> intro done up'
    · rw [exec_svcStatus, reply done up']
    · rw [exec_svcPagestate, reply done up']
    · rw [exec_svcReadreg, reply done up']
    · rw [exec_svcWritereg, reply done up']
    · rw [exec_svcReadblock, reply done up']
    · rw [exec_readmem, reply done up']
  case withheld =>
    intro addr seq body s t st out h up free here done up' held
    rw [exec_svcWritereg, svcTake_taken (s := s.quiet) up free here done, svcEnd_withheld up' held]
  case busy =>
    intro addr seq body s h held open'
    rw [exec_svcStatus, exec_readmem, svcTake_of_withheld (s := s.quiet) held open', svcTake_of_withheld (s := s.quiet) held open']
    exact ⟨rfl, rfl⟩
  case badBody => exact fun _ _ s h => svcReg_of_bad_body h s
  case range => exact fun _ s length h => svcReadMem_of_range length h s
  case other =>
    intro addr seq body s h
    rw [exec_svcStatus, exec_svcWritereg, svcTake_of_other (s := s.quiet) h, svcTake_of_other (s := s.quiet) h]
    exact ⟨rfl, rfl⟩
  case bcast =>
    intro addr seq body s
    rw [exec_svcReadreg, exec_readmem, svcTake_of_bcast rfl, svcTake_of_bcast rfl]
    exact ⟨rfl, rfl⟩

end Sys2Proof.Machine
end

section
/-!
SUPPORT. What events, accesses to memory and the fabric's sends leave of the starts and of the network state, and what the updates of a port,
of the pair and of the Cane responder leave of the rest.
-/
namespace Sys2Proof.Machine
open Sys2Proof

theorem EventPartsOnly.net {s t : State} (h : EventPartsOnly s t) : t.net = s.net := by obtain ⟨_, _, _, _, rfl⟩ := h; rfl
theorem EventPartsOnly.boot {s t : State} (h : EventPartsOnly s t) : t.boot = s.boot := by obtain ⟨_, _, _, _, rfl⟩ := h; rfl
theorem EventPartsOnly.time {s t : State} (h : EventPartsOnly s t) : t.time = s.time := by obtain ⟨_, _, _, _, rfl⟩ := h; rfl
theorem AccessPartsOnly.boot {s t : State} (h : AccessPartsOnly s t) : t.boot = s.boot := by obtain ⟨_, _, _, _, _, _, _, rfl⟩ := h; rfl

@[simp] theorem quiet_net (s : State) : s.quiet.net = s.net := rfl

section
variable (s : State) (p bit : Nat)

@[simp] theorem evt_net : (s.evt p bit).net = s.net := (EventPartsOnly.evt s p bit).net
@[simp] theorem evt_boot : (s.evt p bit).boot = s.boot := (EventPartsOnly.evt s p bit).boot
@[simp] theorem evt_time : (s.evt p bit).time = s.time := (EventPartsOnly.evt s p bit).time

end

@[simp] theorem answered_net (s t : State) : (answered s t).net = t.net := by unfold answered; split <;> rfl

theorem sysDown_of_boot {s t : State} (h : t.boot = s.boot) : sysDown t = sysDown s := by rw [sysDown, h, sysDown]

/-! ### Updates of the network state -/

section
variable (s : State) (x : Nat) (f : EthPort → EthPort) (g : PairState → PairState) (h : CaneState → CaneState)

@[simp] theorem updEth_boot : (updEth s x f).boot = s.boot := rfl
@[simp] theorem updEth_time : (updEth s x f).time = s.time := rfl
@[simp] theorem updEth_regs : (updEth s x f).regs = s.regs := rfl
@[simp] theorem updEth_out : (updEth s x f).out = s.out := rfl
@[simp] theorem updEth_pair : (updEth s x f).net.pair = s.net.pair := rfl
@[simp] theorem updEth_wake : (updEth s x f).net.wake = s.net.wake := rfl
@[simp] theorem updEth_ports : (updEth s x f).net.ports = updAt s.net.ports x f := rfl

@[simp] theorem updPair_pair : (updPair s g).net.pair = g s.net.pair := rfl
@[simp] theorem updPair_ports : (updPair s g).net.ports = s.net.ports := rfl
@[simp] theorem updPair_wake : (updPair s g).net.wake = s.net.wake := rfl

@[simp] theorem updCane_boot : (updCane s h).boot = s.boot := rfl
@[simp] theorem updCane_cmt : (updCane s h).cmt = s.cmt := rfl
@[simp] theorem updCane_staged : (updCane s h).staged = s.staged := rfl
@[simp] theorem updCane_cane : (updCane s h).net.cane = h s.net.cane := rfl

end

theorem ethOf_of_ports {s t : State} (h : t.net.ports = s.net.ports) (x : Nat) : ethOf t x = ethOf s x := by rw [ethOf, h, ethOf]

theorem ethOf_updEth_same {s : State} {x : Nat} (h : x < s.net.ports.length) (f : EthPort → EthPort) :
    ethOf (updEth s x f) x = f (ethOf s x) := getD_updAt_same h f _

theorem ethOf_updEth_ne (s : State) {x y : Nat} (h : x ≠ y) (f : EthPort → EthPort) : ethOf (updEth s x f) y = ethOf s y :=
  getD_updAt_ne _ h f _

/-- What a change of a port leaves of it, it leaves of every port. -/
theorem ethOf_updEth_proj {β : Type} (g : EthPort → β) {f : EthPort → EthPort} (hf : ∀ k, g (f k) = g k) (s : State) (x y : Nat) :
    g (ethOf (updEth s x f) y) = g (ethOf s y) := getD_updAt_proj g hf ..

/-! ### The fabric's sends (R362 to R366) -/

@[simp] theorem heldAdd_leaves (h : Option Nat) (d : Int) (s : State) : (heldAdd h d s).boot = s.boot ∧ (heldAdd h d s).net = s.net := by
  unfold heldAdd
  split
  · exact ⟨rfl, rfl⟩
  · split
    · exact ⟨rfl, rfl⟩
    · simp [apply_ite State.boot, apply_ite State.net]

@[simp] theorem toPort_leaves (vl b : Nat) (h : Option Nat) (bytes : List Byte) (s : State) :
    (toPort vl b h bytes s).boot = s.boot ∧ (toPort vl b h bytes s).net = s.net := by
  simp [toPort, apply_ite State.boot, apply_ite State.net]

@[simp] theorem unicast_leaves (h : Option Nat) (forwarded : Bool) (bytes : List Byte) (s : State) :
    (unicast h forwarded bytes s).boot = s.boot ∧ (unicast h forwarded bytes s).net = s.net := by
  unfold unicast leave
  dsimp only
  split <;> simp [apply_ite State.boot, apply_ite State.net]

@[simp] theorem sendUnicast_leaves (vl dest kind : Nat) (body : List Byte) (s : State) :
    (sendUnicast vl dest kind body s).boot = s.boot ∧ (sendUnicast vl dest kind body s).net = s.net := by
  unfold sendUnicast
  split <;> simp

/-! ### Frames of the device's own (R290, R308, R311) -/

@[simp] theorem queueTx_leaves (x prio : Nat) (f : List Byte) (s : State) :
    (queueTx x prio f s).boot = s.boot ∧ (queueTx x prio f s).net.cane = s.net.cane ∧ (queueTx x prio f s).regs = s.regs := ⟨rfl, rfl, rfl⟩

@[simp] theorem queueLead_leaves (prio : Nat) (f : Nat → List Byte) (s : State) :
    (queueLead prio f s).boot = s.boot ∧ (queueLead prio f s).net.cane = s.net.cane := by
  simp [queueLead, apply_ite State.boot, apply_ite State.net, apply_ite NetState.cane]

@[simp] theorem udpFrame_leaves (x mac dst sport dport : Nat) (data : List Byte) (s : State) :
    (udpFrame x mac dst sport dport data s).1.boot = s.boot ∧ (udpFrame x mac dst sport dport data s).1.net = s.net := ⟨rfl, rfl⟩

end Sys2Proof.Machine
end

section
/-!
SUPPORT. The Cane responder (R298 to R307): which request it takes, what each check of one comes to, and what a reply leaves and keeps.
-/
namespace Sys2Proof.Machine
open Sys2Proof

/-! ### What a request's effects leave -/

@[simp] theorem caneSend_leaves (r : CaneReq) (m : List Byte) (s : State) :
    (caneSend r m s).boot = s.boot ∧ (caneSend r m s).net.cane = s.net.cane := by
  unfold caneSend
  dsimp only
  split <;> simp

@[simp] theorem caneReply_boot (r : CaneReq) (key : List Byte) (status : Nat) (body : List Byte) (s : State) :
    (caneReply r key status body s).boot = s.boot := by
  simp [caneReply, apply_ite State.boot]

@[simp] theorem caneStore_leaves (r : CaneReq) (s : State) :
    (caneStore r s).boot = s.boot ∧ (caneStore r s).net.cane.replies = s.net.cane.replies := by
  unfold caneStore
  split
  · exact ⟨rfl, rfl⟩
  · simp [apply_ite State.boot, apply_ite State.net]

@[simp] theorem caneRefill_replies (s : State) : (caneRefill s).net.cane.replies = s.net.cane.replies := by
  unfold caneRefill
  split
  · simp [apply_ite State.net, apply_ite NetState.cane, apply_ite CaneState.replies]
  · rfl

theorem AccessPartsOnly.readDesc (r : Ring) (i : Nat) (s : State) : AccessPartsOnly s (readDesc r i s).1 := rd ..

theorem AccessPartsOnly.fillRing (r : Ring) (n i : Nat) (b : List Byte) (s : State) : AccessPartsOnly s (fillRing r n i b s).1 := by
  induction n generalizing i b s with
  | zero => exact refl s
  | succ n ih =>
    unfold Machine.fillRing
    split
    · exact refl s
    · split
      · exact refl s
      · have read := readDesc r i s
        split
        · next e =>
          rw [e] at read
          split
          · exact read
          · dsimp only
            split
            · exact read.trans (wr ..)
            · exact (read.trans (wr ..)).trans (ih ..)
        · next e => rwa [e] at read

theorem AccessPartsOnly.closeDescs (r : Ring) (l : List (Nat × Nat)) (cls extra ts : Nat) (s : State) :
    AccessPartsOnly s (closeDescs r l cls extra ts s) := by
  refine foldl (fun s e => ?_) _ s
  dsimp only
  exact ((wr ..).trans (ite (wr ..) (refl _))).trans (wr ..)

@[simp] theorem pauseCheck_boot (x : Nat) (again : Bool) (s : State) : (pauseCheck x again s).boot = s.boot := by
  simp [pauseCheck, apply_ite State.boot]

@[simp] theorem toRing_boot (x r : Nat) (f : List Byte) (cls extra ts : Nat) (cut : Bool) (s : State) :
    (toRing x r f cls extra ts cut s).boot = s.boot := by
  have filled := (AccessPartsOnly.fillRing (rxRing x r) 64 ((rxRing x r).headOf s % (rxRing x r).size s) f s).boot
  simp [toRing, Ring.setHead, apply_ite State.boot, filled, (AccessPartsOnly.closeDescs ..).boot]

/-! ### Which request the responder takes (R301) -/

theorem caneResume_of_free {s : State} (h : s.net.cane.held = none) : caneResume s = s := by simp [caneResume, h]

section
variable {ok : Nat → Bool} {r : CaneReq} {w : List CaneReq} {s : State}

theorem caneFree_of_free {f : State → State} (free : s.net.cane.held = none) : caneFree f s = if sysDown s then s else f s := by
  simp [caneFree, caneResume_of_free free, free]

theorem caneOp_of_empty (store : s.net.cane.store = []) (free : s.net.cane.held = none) : caneOp ok s = s := by
  rw [caneOp, caneFree_of_free free, store]
  exact ite_self s

theorem caneOp_of_other (store : s.net.cane.store = r :: w) (free : s.net.cane.held = none) (other : ok (r.msg.getD 3 0).toNat = false) :
    caneOp ok s = s := by
  rw [caneOp, caneFree_of_free free, store]
  dsimp only
  rw [other]
  exact ite_self s

/-- The request in front, of an operation of the command's, is checked and leaves the store. -/
theorem caneOp_takes {t : State} (store : s.net.cane.store = r :: w) (free : s.net.cane.held = none) (runs : inRun s pgCANE = true)
    (up : sysDown s = false) (own : ok (r.msg.getD 3 0).toNat = true)
    (done : caneRequest r (updCane s fun c => { c with store := w }) = t) (up' : sysDown t = false) : caneOp ok s = caneRefill t := by
  have runs' : inRun (updCane s fun c => { c with store := w }) pgCANE = true := runs
  have taken : caneTake s = caneRefill t := by simp [caneTake, store, runs', done, up']
  rw [caneOp, caneFree_of_free free, if_neg (by simp [up]), store]
  dsimp only
  rw [if_pos own, taken]

end

/-! ### The checks of a request (R298 to R300) -/

theorem caneRequest_short {r : CaneReq} (h : r.msg.length < 48) (s : State) : caneRequest r s = s.bump pgCANE F.CANE_st_BADLEN :=
  if_pos (.inl h)

theorem caneRequest_forged {r : CaneReq} {key : List Byte} {s : State}
    (whole : 48 ≤ r.msg.length ∧ r.msg.length ≤ 1448 ∧ r.msg.length = 48 + beVal (slice r.msg 28 2))
    (slot : (r.msg.getD 6 0).toNat < 2 ∧ caneKey s (r.msg.getD 6 0).toNat = some key)
    (head : slice r.msg 0 3 = [0x43, 0x4E, 1] ∧ (r.msg.getD 4 0).getLsbD 0 = false)
    (forged : caneTag key (r.msg.take (r.msg.length - 16)) ≠ r.msg.drop (r.msg.length - 16)) :
    caneRequest r s = (s.bump pgCANE F.CANE_st_AUTHFAIL).evt pgCANE 0 := by
  unfold caneRequest
  dsimp only
  rw [if_neg (by omega), if_neg (by omega), slot.2]
  dsimp only
  rw [if_neg (by simp only [head]; decide), if_pos forged]

theorem CaneFront.quiet {r : CaneReq} {w : List CaneReq} {key : List Byte} {s : State} (h : CaneFront r w key s) : CaneFront r w key s.quiet :=
  ⟨h.store, h.free, h.runs, h.up, h.whole, h.slot, h.head, h.tag, h.fresh, h.time⟩

/-- The state in which a request taken from the store is executed: the store without it, and its tag kept (R300). -/
def caneBegun (r : CaneReq) (w : List CaneReq) (s : State) : State :=
  updCane s fun c => keepTag (r.msg.drop (r.msg.length - 16)) { c with store := w }

section
variable {r : CaneReq} {w : List CaneReq} {key : List Byte} {s : State}

theorem sysDown_caneBegun (s : State) : sysDown (caneBegun r w s) = sysDown s := sysDown_of_boot rfl

theorem caneRequest_front (h : CaneFront r w key s) :
    caneRequest r (updCane s fun c => { c with store := w }) = caneExec r key (caneBegun r w s) := by
  have slot : caneKey (updCane s fun c => { c with store := w }) (r.msg.getD 6 0).toNat = some key := h.slot.2
  have new : (updCane s fun c => { c with store := w }).net.cane.tags.find? (·.1 = r.msg.drop (r.msg.length - 16)) = none := by
    simpa [List.find?_eq_none] using fun a b hab => h.fresh (a, b) hab
  have time : ¬ (timeValid (caneBegun r w s) = true ∧ (!inWindow (caneBegun r w s) r.msg) = true) := by
    have same : timeValid (caneBegun r w s) = timeValid s ∧ inWindow (caneBegun r w s) r.msg = inWindow s r.msg := ⟨rfl, rfl⟩
    rw [same.1, same.2]
    rcases h.time with e | e <;> simp [e]
  unfold caneRequest
  dsimp only
  rw [if_neg (by have := h.whole; omega), if_neg (by have := h.slot; omega), slot]
  dsimp only
  rw [if_neg (by simp only [h.head]; decide), if_neg (not_not_intro h.tag), new]
  exact if_neg time

/-- What executing the request in front comes to, the responder's command comes to. -/
theorem caneOp_front {ok : Nat → Bool} {t : State} (h : CaneFront r w key s) (own : ok (r.msg.getD 3 0).toNat = true)
    (done : caneExec r key (caneBegun r w s) = t) (up : sysDown t = false) : caneOp ok s = caneRefill t :=
  caneOp_takes h.store h.free h.runs h.up own ((caneRequest_front h).trans done) up

end

/-! ### Its execution (R302, R303, R307) -/

section
variable {r : CaneReq} {key : List Byte} {op : Nat} (s : State)

theorem caneExec_firmware (h : 0x80 ≤ (r.msg.getD 3 0).toNat) (path : r.path < 2) : caneExec r key s =
    toRing r.path (((s.bump pgCANE F.CANE_st_FWOPS).evt pgCANE 4).get (pgETH r.path) F.ETH_RINGSEL_CANE) r.frame 6 32 r.ts false
      ((s.bump pgCANE F.CANE_st_FWOPS).evt pgCANE 4) := by
  unfold caneExec
  dsimp only
  rw [if_pos h, if_neg (by omega)]

theorem caneExec_badOp (h : (r.msg.getD 3 0).toNat = 0 ∨ (6 ≤ (r.msg.getD 3 0).toNat ∧ (r.msg.getD 3 0).toNat < 0x80)) :
    caneExec r key s = caneReply r key 2 [] s := by
  unfold caneExec
  dsimp only
  rw [if_neg (by omega), if_pos (by omega)]

theorem caneExec_badBody (hop : 1 ≤ op ∧ op ≤ 5) (h : (r.msg.getD 3 0).toNat = op) (bad : bodyOk op (slice r.msg 32 (r.msg.length - 48)) = false) :
    caneExec r key s = caneReply r key 3 [] (s.bump pgCANE F.CANE_st_BADLEN) := by
  unfold caneExec
  dsimp only
  rw [h, if_neg (by omega), if_neg (by omega), if_pos (by simp [bad])]

theorem caneExec_regOp (hop : 1 ≤ op ∧ op ≤ 5) (h : (r.msg.getD 3 0).toNat = op) (good : bodyOk op (slice r.msg 32 (r.msg.length - 48)) = true)
    {x : State × Nat × List Byte} (hx : x = regOp 5 (caneWrite (senderOf r)) op (slice r.msg 32 (r.msg.length - 48)) s) :
    caneExec r key s = caneDone r key x.2.1 x.2.2 x.1 := by
  unfold caneExec
  dsimp only
  rw [h, if_neg (by omega), if_neg (by omega), if_neg (by simp [good]), hx]

end

section
variable {r : CaneReq} {key : List Byte} {status : Nat} {out : List Byte} {s : State}

theorem caneDone_replied (up : sysDown s = false) (free : s.net.cane.held = none) :
    caneDone r key status out s = caneReply r key status out (s.bump pgCANE F.CANE_st_REQUESTS) := by
  simp [caneDone, up, free]

theorem caneDone_withheld {h : HeldItems} (up : sysDown s = false) (held : s.net.cane.held = some h) : caneDone r key status out s =
    updCane s fun c => { c with held := some { h with out := out, bad := decide (status ≠ 0) }, heldReq := some (r, key) } := by
  simp [caneDone, up, held]

end

theorem caneExec_status {r : CaneReq} (key : List Byte) {s : State} (op : (r.msg.getD 3 0).toNat = 1) (length : r.msg.length = 48)
    (up : sysDown s = false) (free : s.net.cane.held = none) :
    caneExec r key s = caneReply r key 0 (statusRecord 5 s) (s.bump pgCANE F.CANE_st_REQUESTS) :=
  (caneExec_regOp s (by decide) op (by rw [length]; rfl) rfl).trans (caneDone_replied up free)

/-! ### The reply (R298, R300, R304) -/

theorem slice_length (l : List Byte) (i n : Nat) : (slice l i n).length = n := by simp [slice]

theorem length_beBytes (n v : Nat) : (beBytes n v).length = n := by rw [beBytes, List.length_reverse, leBytes_length]

theorem slice_middle (a b c : List Byte) : slice (a ++ b ++ c) a.length b.length = b := by
  refine List.ext_getElem (slice_length ..) fun i _ h => ?_
  simp only [slice, List.getElem_map, List.getElem_range, List.append_assoc]
  rw [List.getD_append_right _ _ _ _ (Nat.le_add_right ..), Nat.add_sub_cancel_left, List.getD_append _ _ _ _ h, List.getD_eq_getElem _ _ h]

theorem statusRecord_length (a : Nat) (s : State) : (statusRecord a s).length = 80 := by
  simp [statusRecord, length_beBytes, List.length_flatMap]

/-- The header of a reply (R298), 32 bytes. -/
def replyHead (m : List Byte) (status ft n : Nat) : List Byte :=
  [0x43, 0x4E, 1, m.getD 3 0, 1, BitVec.ofNat 8 status, m.getD 6 0, 0] ++ beBytes 8 Config.serial.toNat ++ slice m 16 4 ++
    beBytes 4 (ft / secUnits) ++ beBytes 4 (ft / 65536 % 1000000000) ++ beBytes 2 n ++ [0, 0]

theorem replyHead_length (m : List Byte) (status ft n : Nat) : (replyHead m status ft n).length = 32 := by
  simp [replyHead, length_beBytes, slice_length]

theorem replyHead_take (m : List Byte) (status ft n : Nat) (l : List Byte) :
    (replyHead m status ft n ++ l).take 6 = [0x43, 0x4E, 1, m.getD 3 0, 1, BitVec.ofNat 8 status] := by
  simp [replyHead]

theorem slice_replyHead (m : List Byte) (status ft n a : Nat) (s : State) (tag : List Byte) :
    slice (replyHead m status ft n ++ statusRecord a s ++ tag) 32 80 = statusRecord a s := by
  have middle := slice_middle (replyHead m status ft n) (statusRecord a s) tag
  rwa [replyHead_length, statusRecord_length] at middle

/-- A reply that the sender wants is kept, with the tag of its request. -/
theorem caneReply_kept {r : CaneReq} (wants : (r.msg.getD 4 0).getLsbD 1 = false) (key : List Byte) (status : Nat) (body : List Byte) (s : State) :
    ∃ tag, (caneReply r key status body s).net.cane.replies.head? =
      some (r.msg.drop (r.msg.length - 16), r, replyHead r.msg status s.time.ft body.length ++ body ++ tag) := by
  unfold caneReply
  rw [if_neg (by rw [wants]; decide)]
  simp [replyHead]

/-! ### The owner and the keys (R305, R306) -/

theorem leaseExpire_of_other {s : State} (h : s.cmt.owner ≠ 5) : leaseExpire s = s := if_pos h

@[simp] theorem setOwner_net (a : Nat) (s : State) : (setOwner a s).net = s.net := by simp [setOwner, apply_ite State.net]

theorem leaseExpire_owned {s : State} (h : s.cmt.owner = 5) : (leaseExpire s).cmt = { s.cmt with owner := 0 } ∧
    (leaseExpire s).net.cane.owner = none ∧ (leaseExpire s).staged = s.staged := by
  simp [leaseExpire, h]

theorem clears_slot (k j : Fin 2) : bitsOf (BitVec.ofNat 32 (2 ^ (8 + k.val))) (8 + j.val) 1 = 1 ↔ j = k := by
  revert k j
  decide

theorem keyClear_keys (v : Word) {s : State} {i : Nat} (hi : i < s.net.cane.keys.length) :
    (keyClear v s).net.cane.keys.getD i none = if bitsOf v (8 + i / 8) 1 = 1 then none else s.net.cane.keys.getD i none := by
  simp [keyClear, hi]

theorem keyClear_slot {s : State} (slots : s.net.cane.keys.length = 16) (k : Fin 2) {i : Nat} (hi : i < 16) :
    (keyClear (BitVec.ofNat 32 (2 ^ (8 + k.val))) s).net.cane.keys.getD i none = if i / 8 = k.val then none else s.net.cane.keys.getD i none := by
  have bit := clears_slot k ⟨i / 8, by omega⟩
  simp only [Fin.ext_iff] at bit
  rw [keyClear_keys _ (slots ▸ hi)]
  exact if_congr bit rfl rfl

/-! ### The commands -/

/-- The commands of the responder's own operations (R303), each with its OP. -/
theorem exec_caneRegOp {c : Instr} {op : Nat} (h : (c, op) ∈ [(Instr.caneStatus, 1), (.canePagestate, 2), (.caneReadreg, 3), (.caneWritereg, 4),
    (.caneReadblock, 5)]) (s : State) : exec c s = .next (caneOp (fun n => decide (n = op)) s.quiet) ∧ 1 ≤ op ∧ op ≤ 5 := by
  simp only [List.mem_cons, Prod.mk.injEq, List.not_mem_nil, or_false] at h
  rcases h with ⟨rfl, rfl⟩ | ⟨rfl, rfl⟩ | ⟨rfl, rfl⟩ | ⟨rfl, rfl⟩ | ⟨rfl, rfl⟩ <;> exact ⟨rfl, by decide⟩

theorem exec_caneFirmwareOp (s : State) : exec .caneFirmwareOp s = .next (caneOp (fun n => decide (0x80 ≤ n)) s.quiet) := rfl

theorem exec_caneBadOp (s : State) :
    exec .caneBadOp s = .next (caneOp (fun n => decide (n = 0) || (decide (6 ≤ n) && decide (n < 0x80))) s.quiet) := rfl

theorem exec_caneLeaseExpiry (s : State) : exec .caneLeaseExpiry s = .next (leaseExpire s.quiet) := rfl

theorem exec_keyClear (a : BitVec 4) (k : Fin 2) (s : State) :
    exec (.keyClear a k) s = .next (answered s.quiet (keyClear (BitVec.ofNat 32 (2 ^ (8 + k.val))) s.quiet)) :=
  execKeyClear_eq a k s

/-- Settles O30, check by check of the request in front and, for one that passes them all, operation by operation. -/
theorem caneResponder : Obligations.CaneResponder := by
  unfold Obligations.CaneResponder
  refine ⟨?empty, ?other, ?short, ?forged, ?front, ?noLease, ?lease, ?keys⟩
  case empty =>
    intro s store free
    have idle : ∀ ok, caneOp ok s.quiet = s.quiet := fun _ => caneOp_of_empty (s := s.quiet) store free
    have own : ∀ {c op}, (c, op) ∈ [(Instr.caneStatus, 1), (.canePagestate, 2), (.caneReadreg, 3), (.caneWritereg, 4), (.caneReadblock, 5)] →
        exec c s = .next s.quiet := fun h => by rw [(exec_caneRegOp h s).1, idle]
    refine ⟨own (op := 1) (by simp), own (op := 2) (by simp), own (op := 3) (by simp), own (op := 4) (by simp), own (op := 5) (by simp), ?_, ?_⟩
    · rw [exec_caneFirmwareOp, idle]
    · rw [exec_caneBadOp, idle]
  case other =>
    intro r w s store free
    have idle : ∀ {ok : Nat → Bool}, ok (r.msg.getD 3 0).toNat = false → caneOp ok s.quiet = s.quiet :=
      caneOp_of_other (s := s.quiet) store free
    refine ⟨fun c op h other => ?_, fun low => ?_, fun pos h => ?_⟩
    · rw [(exec_caneRegOp h s).1, idle (decide_eq_false other)]
    · rw [exec_caneFirmwareOp, idle (decide_eq_false (by omega))]
    · rw [exec_caneBadOp, idle (by simp only [Bool.or_eq_false_iff, Bool.and_eq_false_iff, decide_eq_false_iff_not]; omega)]
  case short =>
    intro r w s store free runs up short c op h hop
    rw [(exec_caneRegOp h s).1, caneOp_takes (s := s.quiet) store free runs up (decide_eq_true hop) (caneRequest_short short _)]
    exact (sysDown_of_boot (s := s) (by simp)).trans up
  case forged =>
    intro r w key s store free runs up long short whole slot2 slot head head' forged c op h hop
    rw [(exec_caneRegOp h s).1, caneOp_takes (s := s.quiet) store free runs up (decide_eq_true hop)
      (caneRequest_forged ⟨long, short, whole⟩ ⟨slot2, slot⟩ ⟨head, head'⟩ forged)]
    exact (sysDown_of_boot (s := s) (by simp)).trans up
  case front =>
    rintro r w key s q hf rfl
    have hf' := hf.quiet
    have up : sysDown (caneBegun r w s.quiet) = false := (sysDown_caneBegun s.quiet).trans hf.up
    have taken : ∀ {ok : Nat → Bool} {t : State}, ok (r.msg.getD 3 0).toNat = true → caneExec r key (caneBegun r w s.quiet) = t →
        t.boot = s.boot → caneOp ok s.quiet = caneRefill t :=
      fun own done same => caneOp_front hf' own done ((sysDown_of_boot same).trans hf.up)
    refine ⟨fun c op h hop => ⟨fun bad => ?_, fun x hx good up' => ⟨fun free => ?_, fun held hheld => ?_⟩⟩, fun hop length wants => ?_,
      fun hop => ?_, fun hop path => ?_⟩
    · obtain ⟨hexec, range⟩ := exec_caneRegOp h s
      rw [hexec, taken (decide_eq_true hop) (caneExec_badBody _ range hop bad) (by simp [caneBegun])]
      rfl
    · obtain ⟨hexec, range⟩ := exec_caneRegOp h s
      rw [hexec, caneOp_front hf' (decide_eq_true hop) ((caneExec_regOp _ range hop good hx).trans (caneDone_replied up' free))]
      exact (sysDown_of_boot (by simp)).trans up'
    · obtain ⟨hexec, range⟩ := exec_caneRegOp h s
      rw [hexec, caneOp_front hf' (decide_eq_true hop) ((caneExec_regOp _ range hop good hx).trans (caneDone_withheld up' hheld))]
      exact (sysDown_of_boot (by simp)).trans up'
    · have replied := taken (ok := fun n => decide (n = 1)) (decide_eq_true hop) (caneExec_status key hop length up hf.free) (by simp [caneBegun])
      obtain ⟨tag, kept⟩ := caneReply_kept (r := r) wants key 0 (statusRecord 5 (caneBegun r w s.quiet))
        ((caneBegun r w s.quiet).bump pgCANE F.CANE_st_REQUESTS)
      rw [length] at kept
      refine ⟨_, _, (exec_caneRegOp (op := 1) (by simp) s).1.trans (congrArg _ replied), (congrArg _ (caneRefill_replies _)).trans kept, ?_, ?_⟩
      · have one : r.msg.getD 3 0 = 1 := BitVec.eq_of_toNat_eq hop
        rw [List.append_assoc, replyHead_take, one]
        rfl
      · exact slice_replyHead ..
    · rw [exec_caneBadOp, taken (by simp only [Bool.or_eq_true, Bool.and_eq_true, decide_eq_true_eq]; exact hop) (caneExec_badOp _ hop)
        (by simp [caneBegun])]
      rfl
    · rw [exec_caneFirmwareOp, taken (decide_eq_true hop) (caneExec_firmware _ hop path) (by simp [caneBegun])]
      rfl
  case noLease =>
    intro s h
    rw [exec_caneLeaseExpiry, leaseExpire_of_other (s := s.quiet) h]
  case lease =>
    intro s h
    obtain ⟨cmt, owner, staged⟩ := leaseExpire_owned (s := s.quiet) h
    exact ⟨_, exec_caneLeaseExpiry s, cmt, owner, staged⟩
  case keys =>
    intro a k s slots
    refine ⟨_, exec_keyClear a k s, answered_regs .., fun i hi => ?_⟩
    rw [answered_net]
    exact keyClear_slot (s := s.quiet) slots k hi

end Sys2Proof.Machine
end

section
/-!
SUPPORT. Pairing (R308 to R311): what a judgement, a handover, a recovery and the start of pairing make of the pair's registers, of its state
and of the ports.
-/
namespace Sys2Proof.Machine
open Sys2Proof

theorem StoresOk.evt {s : State} (h : StoresOk s) (p bit : Nat) : StoresOk (s.evt p bit) :=
  (keeps_evt s p bit (h.keeps 0x60) ⟨fun _ h => h⟩).storesOk

theorem StoresOk.updPair {s : State} (h : StoresOk s) (f : PairState → PairState) : StoresOk (updPair s f) := ⟨h.regs, h.staged, h.ctr, h.mem⟩

theorem StoresOk.setSick {s : State} (h : StoresOk s) (x reason : Nat) : StoresOk (setSick x reason s) :=
  (keeps_setSick x reason s (h.keeps 0)).storesOk

theorem StoresOk.judge {s : State} (h : StoresOk s) (x reason : Nat) : StoresOk (judge x reason s) :=
  (keeps_judge x reason s (h.keeps 0x2060) ⟨fun _ h => h⟩).storesOk

/-! ### Registers that an event leaves -/

/-- An event leaves the registers of every page but EVC, their event bits apart. -/
theorem reg_evt (s : State) {p q off : Nat} (bit : Nat) (hp : p < 256) (hq : q ≠ pgEVC) (ho : off < 4096) (he : off ≠ 0x010) :
    (s.evt p bit).reg q off = s.reg q off := evt_reg s bit hp ho (by simp [EventReg, hq, he])

theorem get_evt (s : State) {p q : Nat} (bit : Nat) {f : Fld} {k : Nat} (hp : p < 256) (hq : q ≠ pgEVC) (ho : f.off + f.stride * k < 4096)
    (he : f.off + f.stride * k ≠ 0x010) : (s.evt p bit).get q f k = s.get q f k := by
  rw [State.get, State.get, reg_evt s bit hp hq ho he]

theorem reg_bump (s : State) (p : Nat) (f : Fld) (n k q off : Nat) : (s.bump p f n k).reg q off = s.reg q off := reg_of_regs (bump_regs ..) ..

theorem get_of_reg {s t : State} {p off : Nat} (h : t.reg p off = s.reg p off) (f : Fld) (at' : f.off + f.stride * 0 = off) :
    t.get p f = s.get p f := by rw [State.get, State.get, at', h]

theorem inRun_of_get {s t : State} {p : Nat} (h : t.get p F.HDR_EFF_MODE = s.get p F.HDR_EFF_MODE) : inRun t p = inRun s p := by
  rw [inRun, inRun, effMode, effMode, h]

/-! ### STAT (R315) -/

theorem isSick_of_reg {s t : State} (h : t.reg pgPAIR 0x050 = s.reg pgPAIR 0x050) (x : Nat) : isSick t x = isSick s x := by
  simp only [isSick, State.flag, get_of_reg h F.PAIR_STAT_ASICK rfl, get_of_reg h F.PAIR_STAT_BSICK rfl]

@[simp] theorem isSick_evt (s : State) (bit x : Nat) : isSick (s.evt pgPAIR bit) x = isSick s x :=
  isSick_of_reg (reg_evt s bit (by decide) (by decide) (by decide) (by decide)) x

@[simp] theorem isSick_updPair (s : State) (f : PairState → PairState) (x : Nat) : isSick (updPair s f) x = isSick s x := rfl

theorem isSick_evtIf (s : State) (b : Bool) (bit x : Nat) : isSick (s.evtIf b pgPAIR bit) x = isSick s x := by
  simp [State.evtIf, apply_ite (isSick · x)]

section
variable {s : State} (h : StoresOk s)
include h

/-- A field of STAT set leaves the fields that share no bit with it. -/
theorem get_stat_apart (f g : Fld) (v : Nat) (reg : g.off + g.stride * 0 = f.off + f.stride * 0 := by decide)
    (apart : f.lsb + f.w ≤ 32 ∧ (g.lsb + g.w ≤ f.lsb ∨ f.lsb + f.w ≤ g.lsb) := by decide) :
    (s.set pgPAIR f v).get pgPAIR g = s.get pgPAIR g := get_set_apart h pgPAIR reg apart.1 apart.2 v

theorem isSick_set_lead (v x : Nat) : isSick (s.set pgPAIR F.PAIR_STAT_LEAD v) x = isSick s x := by
  simp only [isSick, State.flag, get_stat_apart h F.PAIR_STAT_LEAD F.PAIR_STAT_ASICK, get_stat_apart h F.PAIR_STAT_LEAD F.PAIR_STAT_BSICK]

theorem isSick_set_dual (v x : Nat) : isSick (s.set pgPAIR F.PAIR_STAT_DUAL v) x = isSick s x := by
  simp only [isSick, State.flag, get_stat_apart h F.PAIR_STAT_DUAL F.PAIR_STAT_ASICK, get_stat_apart h F.PAIR_STAT_DUAL F.PAIR_STAT_BSICK]

theorem isSick_setSick_same (x reason : Nat) : isSick (setSick x reason s) x = decide (reason ≠ 0) := by
  have bit : decide (min 1 reason % 2 ^ 1 = 1) = decide (reason ≠ 0) := decide_eq_decide.2 (by omega)
  unfold isSick setSick
  split
  · rw [State.flag, get_stat_apart (h.set ..) F.PAIR_STAT_AREASON F.PAIR_STAT_ASICK, get_set_same h pgPAIR (by decide)]
    exact bit
  · rw [State.flag, get_stat_apart (h.set ..) F.PAIR_STAT_BREASON F.PAIR_STAT_BSICK, get_set_same h pgPAIR (by decide)]
    exact bit

theorem isSick_setSick_other {x y : Nat} (other : x = 0 ↔ y ≠ 0) (reason : Nat) : isSick (setSick x reason s) y = isSick s y := by
  unfold isSick setSick
  by_cases hy : y = 0
  · have hx : x ≠ 0 := fun e => other.1 e hy
    rw [if_neg hx, if_pos hy, if_pos hy, State.flag, get_stat_apart (h.set ..) F.PAIR_STAT_BREASON F.PAIR_STAT_ASICK,
      get_stat_apart h F.PAIR_STAT_BSICK F.PAIR_STAT_ASICK, State.flag]
  · rw [if_pos (other.2 hy), if_neg hy, if_neg hy, State.flag, get_stat_apart (h.set ..) F.PAIR_STAT_AREASON F.PAIR_STAT_BSICK,
      get_stat_apart h F.PAIR_STAT_ASICK F.PAIR_STAT_BSICK, State.flag]

end

/-- A path's sickness and reason lie in STAT alone. -/
theorem reg_setSick (s : State) (x reason : Nat) {q off : Nat} (h : regKey q off ≠ regKey pgPAIR 0x050) :
    (setSick x reason s).reg q off = s.reg q off := by
  unfold setSick
  split <;> exact (reg_set_ne _ h _).trans (reg_set_ne _ h _)

@[simp] theorem setSick_net (x reason : Nat) (s : State) : (setSick x reason s).net = s.net := by
  simp [setSick, apply_ite State.net]

/-! ### The lead (R310) -/

@[simp] theorem handover_pair (s : State) : (handover s).net.pair = s.net.pair := by
  simp [handover, updPtp]

theorem handover_time (s : State) : (handover s).time = { s.time with discardPtp := true, ptp := ptpForget s.time.ptp } := by
  simp [handover, updPtp]

/-- STAT after a handover. -/
theorem handover_stat (s : State) : (handover s).reg pgPAIR 0x050 =
    ((s.set pgPAIR F.PAIR_STAT_LEAD (1 - s.get pgPAIR F.PAIR_STAT_LEAD)).set pgPAIR F.PAIR_STAT_DUAL 1).reg pgPAIR 0x050 := by
  unfold handover
  rw [reg_evt _ _ (by decide) (by decide) (by decide) (by decide), reg_bump]
  rfl

theorem lead_lt (s : State) : s.get pgPAIR F.PAIR_STAT_LEAD < 2 := bitsOf_lt ..

theorem handover_fields {s : State} (h : StoresOk s) : (handover s).get pgPAIR F.PAIR_STAT_LEAD = 1 - s.get pgPAIR F.PAIR_STAT_LEAD ∧
    (handover s).flag pgPAIR F.PAIR_STAT_DUAL = true ∧ ∀ x, isSick (handover s) x = isSick s x := by
  have moved := h.set pgPAIR F.PAIR_STAT_LEAD (1 - s.get pgPAIR F.PAIR_STAT_LEAD) 0
  refine ⟨?_, ?_, fun x => ?_⟩
  · rw [get_of_reg (handover_stat s) F.PAIR_STAT_LEAD rfl, get_stat_apart moved F.PAIR_STAT_DUAL F.PAIR_STAT_LEAD, get_set_same h pgPAIR (by decide)]
    exact Nat.mod_eq_of_lt (by have := lead_lt s; show _ < 2; omega)
  · rw [State.flag, get_of_reg (handover_stat s) F.PAIR_STAT_DUAL rfl, get_set_same moved pgPAIR (by decide)]
    rfl
  · rw [isSick_of_reg (handover_stat s), isSick_set_dual moved, isSick_set_lead h]

/-- The frames that wait on the old lead join those of the new one. -/
theorem handover_ports (s : State) : ∃ q, (handover s).net.ports = (updEth s (1 - s.get pgPAIR F.PAIR_STAT_LEAD) fun p =>
    { p with txq := p.txq ++ q }).net.ports :=
  ⟨_, by simp only [handover, updPtp, evt_net, bump_net, updTime_net, updEth_ports, set_net]; rfl⟩

/-- A handover touches no more of a port than what waits to be sent. -/
theorem ethOf_handover {β : Type} (g : EthPort → β) (hg : ∀ p q, g { p with txq := q } = g p) (s : State) (x : Nat) :
    g (ethOf (handover s) x) = g (ethOf s x) := by
  obtain ⟨q, ports⟩ := handover_ports s
  rw [ethOf_of_ports ports]
  exact ethOf_updEth_proj g (fun k => hg k _) ..

/-- The lead re-evaluated stays where it is or moves. -/
theorem leadCheck_induct {P : State → Prop} {s : State} (stays : P s) (moves : P (handover s)) : P (leadCheck s) := by
  unfold leadCheck
  dsimp only
  exact ite_induct stays (ite_induct moves (ite_induct moves stays))

@[simp] theorem leadCheck_pair (s : State) : (leadCheck s).net.pair = s.net.pair :=
  leadCheck_induct (P := fun t => t.net.pair = s.net.pair) rfl (handover_pair s)

theorem isSick_leadCheck {s : State} (h : StoresOk s) (x : Nat) : isSick (leadCheck s) x = isSick s x :=
  leadCheck_induct (P := fun t => isSick t x = isSick s x) rfl ((handover_fields h).2.2 x)

theorem leadCheck_of_settled {s : State} (well : isSick s (s.get pgPAIR F.PAIR_STAT_LEAD) = false) (keeps : s.flag pgPAIR F.PAIR_CFG_REVERT = false) :
    leadCheck s = s := by
  simp [leadCheck, well, keeps]

/-! ### Judgements (R309) -/

theorem judge_of_sick {x : Nat} {s : State} (sick : isSick s x = true) (reason : Nat) : judge x reason s = s := if_pos sick

theorem judge_sick {x reason : Nat} {s : State} (h : StoresOk s) (single : s.flag pgPAIR F.PAIR_STAT_DUAL = false) (real : reason ≠ 0) :
    isSick (judge x reason s) x = true := by
  by_cases sick : isSick s x = true
  · rwa [judge_of_sick sick]
  · unfold judge
    rw [if_neg sick, if_neg (by simp [single])]
    dsimp only
    rw [isSick_evtIf, isSick_evt, isSick_setSick_same h]
    exact decide_eq_true real

/-- A judgement changes nothing, waits for the end of a dual window, or turns the path sick with its events. -/
theorem judge_induct {P : State → Prop} {x reason : Nat} {s : State} (same : P s)
    (waits : P (updPair s fun p => { p with deferred := p.deferred ++ [(x, reason)] }))
    (judged : P ((setSick x reason s).evt pgPAIR 1)) (evt : ∀ t, P t → P (t.evt pgPAIR 2)) : P (judge x reason s) :=
  ite_induct same (ite_induct waits (ite_induct (evt _ judged) judged))

/-- The health counts of the pair that a window's end reads. -/
def healthCounts (s : State) : Nat × Nat × List Nat × List Nat :=
  (s.get pgPAIR F.PAIR_HEALTH_GAPTHR, s.get pgPAIR F.PAIR_HEALTH_CRCTHR, s.net.pair.miss, s.net.pair.fcs)

theorem healthCounts_of {s t : State} (reg : t.reg pgPAIR 0x044 = s.reg pgPAIR 0x044) (miss : t.net.pair.miss = s.net.pair.miss)
    (fcs : t.net.pair.fcs = s.net.pair.fcs) : healthCounts t = healthCounts s := by
  rw [healthCounts, get_of_reg reg F.PAIR_HEALTH_GAPTHR rfl, get_of_reg reg F.PAIR_HEALTH_CRCTHR rfl, miss, fcs, healthCounts]

theorem healthCounts_evt (s : State) (bit : Nat) : healthCounts (s.evt pgPAIR bit) = healthCounts s :=
  healthCounts_of (reg_evt s bit (by decide) (by decide) (by decide) (by decide)) (by rw [evt_net]) (by rw [evt_net])

theorem healthCounts_judge (x reason : Nat) (s : State) : healthCounts (judge x reason s) = healthCounts s :=
  judge_induct (P := fun t => healthCounts t = healthCounts s) rfl rfl
    ((healthCounts_evt ..).trans (healthCounts_of (reg_setSick _ _ _ (by decide)) (by rw [setSick_net]) (by rw [setSick_net])))
    fun t h => (healthCounts_evt t 2).trans h

/-- One path at the end of a health window. -/
def healthJudged (s : State) (x : Nat) : State :=
  if !isPath s x then s
  else if s.get pgPAIR F.PAIR_HEALTH_GAPTHR ≠ 0 ∧ s.get pgPAIR F.PAIR_HEALTH_GAPTHR < s.net.pair.miss.getD x 0 then judge x 3 s
  else if s.get pgPAIR F.PAIR_HEALTH_CRCTHR ≠ 0 ∧ s.get pgPAIR F.PAIR_HEALTH_CRCTHR < s.net.pair.fcs.getD x 0 then judge x 4 s
  else s

theorem healthWindow_eq (s : State) :
    healthWindow s = leadCheck (updPair (healthJudged (healthJudged s 0) 1) fun p => { p with miss := [0, 0], fcs := [0, 0] }) := rfl

theorem healthJudged_of_good {s t : State} {x : Nat} (same : healthCounts t = healthCounts s)
    (miss : s.net.pair.miss.getD x 0 ≤ s.get pgPAIR F.PAIR_HEALTH_GAPTHR) (fcs : s.net.pair.fcs.getD x 0 ≤ s.get pgPAIR F.PAIR_HEALTH_CRCTHR) :
    healthJudged t x = t := by
  simp only [healthCounts, Prod.mk.injEq] at same
  obtain ⟨gap, crc, misses, errors⟩ := same
  rw [healthJudged, gap, crc, misses, errors, if_neg (by omega : ¬ (_ ∧ _)), if_neg (by omega : ¬ (_ ∧ _))]
  exact ite_self t

theorem healthJudged_of_missed {s : State} {x : Nat} (path : isPath s x = true) (on : s.get pgPAIR F.PAIR_HEALTH_GAPTHR ≠ 0)
    (missed : s.get pgPAIR F.PAIR_HEALTH_GAPTHR < s.net.pair.miss.getD x 0) : healthJudged s x = judge x 3 s := by
  rw [healthJudged, if_neg (by simp [path]), if_pos ⟨on, missed⟩]

/-- A path that alone missed more than GAPTHR in a single window is sick at the window's end. -/
theorem healthWindow_sick {s : State} {x : Nat} (hx : x < 2) (h : StoresOk s) (path : isPath s x = true)
    (on : s.get pgPAIR F.PAIR_HEALTH_GAPTHR ≠ 0) (missed : s.get pgPAIR F.PAIR_HEALTH_GAPTHR < s.net.pair.miss.getD x 0)
    (single : s.flag pgPAIR F.PAIR_STAT_DUAL = false) (miss : s.net.pair.miss.getD (1 - x) 0 ≤ s.get pgPAIR F.PAIR_HEALTH_GAPTHR)
    (fcs : s.net.pair.fcs.getD (1 - x) 0 ≤ s.get pgPAIR F.PAIR_HEALTH_CRCTHR) : isSick (healthWindow s) x = true := by
  have both : healthJudged (healthJudged s 0) 1 = judge x 3 s := by
    obtain rfl | rfl : x = 0 ∨ x = 1 := by omega
    · rw [healthJudged_of_missed path on missed, healthJudged_of_good (healthCounts_judge ..) miss fcs]
    · rw [healthJudged_of_good (x := 0) rfl miss fcs, healthJudged_of_missed path on missed]
  rw [healthWindow_eq, both, isSick_leadCheck ((h.judge x 3).updPair _), isSick_updPair]
  exact judge_sick h single (by decide)

theorem healthWindow_counts (s : State) : (healthWindow s).net.pair.miss = [0, 0] ∧ (healthWindow s).net.pair.fcs = [0, 0] := by
  rw [healthWindow_eq, leadCheck_pair]
  exact ⟨rfl, rfl⟩

/-! ### Recovery, SWAP and the end of a dual window (R309 to R311) -/

theorem pathRecover_of_other {x : Nat} {s : State} (h : isSick s x = false ∨ (ethOf s x).up = false ∨ inRun s (pgETH x) = false) :
    pathRecover x s = s := if_pos (by simpa using h)

theorem pathRecover_healthy {x : Nat} {s : State} (hx : x < s.net.pair.healthyAt.length) (h : StoresOk s) (sick : isSick s x = true)
    (up : (ethOf s x).up = true) (runs : inRun s (pgETH x) = true) :
    isSick (pathRecover x s) x = false ∧ (pathRecover x s).net.pair.healthyAt.getD x 0 = s.time.ft := by
  have ok : StoresOk (Machine.updPair s fun p => { p with healthyAt := p.healthyAt.set x s.time.ft }) := h.updPair _
  unfold pathRecover
  rw [if_neg (by simp [sick, up, runs])]
  dsimp only
  refine ⟨?_, ?_⟩
  · rw [isSick_leadCheck ((ok.setSick x 0).evt ..), isSick_evt, isSick_setSick_same ok]
    rfl
  · rw [leadCheck_pair, evt_net, setSick_net, updPair_pair]
    simp [hx]

theorem pairSwap_of_clear {v : Word} (h : bitsOf v 0 1 = 0) (a : Nat) (s : State) : pairSwap a v s = s := if_pos h

section
variable {v : Word} (set : bitsOf v 0 1 = 1) (a : Nat) {s : State}
include set

theorem pairSwap_refused (h : s.flag pgPAIR F.PAIR_CFG_PAIRED = false ∨ isSick s (1 - s.get pgPAIR F.PAIR_STAT_LEAD) = true) :
    pairSwap a v s = s.fault pgPAIR 0x40 0x04C a := by
  rw [pairSwap, if_neg (by omega), if_pos (by simpa using h)]

theorem pairSwap_moves (paired : s.flag pgPAIR F.PAIR_CFG_PAIRED = true) (well : isSick s (1 - s.get pgPAIR F.PAIR_STAT_LEAD) = false) :
    pairSwap a v s = handover s := by
  rw [pairSwap, if_neg (by omega), if_neg (by simp [paired, well])]

end

theorem dualEnd_of_single {s : State} (h : s.flag pgPAIR F.PAIR_STAT_DUAL = false) : dualEnd s = s := if_pos (by simp [h])

/-- The frame of the old lead's that a dual window's end cuts off on the line, if one is there. -/
def lineCut (old : Nat) (s : State) : State :=
  match (ethOf s old).txq.find? fun e => decide (2 ≤ e.1) with
  | some e => if runTest s (pgETH old) ∧ (ethOf s old).up ∧ (ethOf s old).pauseEnd.isNone then s.emit (.ethCut old e.2) else s
  | none => s

theorem lineCut_leaves (old : Nat) (s : State) : (lineCut old s).regs = s.regs ∧ (lineCut old s).net = s.net := by
  unfold lineCut
  split
  · simp [apply_ite State.regs, apply_ite State.net]
  · exact ⟨rfl, rfl⟩

/-- The end of a dual window, what is judged then apart: the bit, the line and the frames of the old lead. -/
def dualClosed (s : State) : State :=
  updPair (updEth (lineCut (1 - s.get pgPAIR F.PAIR_STAT_LEAD) (s.set pgPAIR F.PAIR_STAT_DUAL 0)) (1 - s.get pgPAIR F.PAIR_STAT_LEAD)
    fun p => { p with txq := p.txq.filter fun e => decide (e.1 < 2) }) fun p => { p with deferred := [] }

theorem dualClosed_regs (s : State) : (dualClosed s).regs = (s.set pgPAIR F.PAIR_STAT_DUAL 0).regs := (lineCut_leaves ..).1

theorem dualClosed_fields {s : State} (h : StoresOk s) : (dualClosed s).get pgPAIR F.PAIR_STAT_LEAD = s.get pgPAIR F.PAIR_STAT_LEAD ∧
    (dualClosed s).flag pgPAIR F.PAIR_STAT_DUAL = false ∧ (dualClosed s).flag pgPAIR F.PAIR_CFG_REVERT = s.flag pgPAIR F.PAIR_CFG_REVERT ∧
    ∀ x, isSick (dualClosed s) x = isSick s x := by
  have same := fun q off => reg_of_regs (dualClosed_regs s) q off
  refine ⟨?_, ?_, ?_, fun x => ?_⟩
  · rw [get_of_reg (same _ _) F.PAIR_STAT_LEAD rfl, get_stat_apart h F.PAIR_STAT_DUAL F.PAIR_STAT_LEAD]
  · rw [State.flag, get_of_reg (same _ _) F.PAIR_STAT_DUAL rfl, get_set_same h pgPAIR (by decide)]
    rfl
  · rw [State.flag, get_of_reg (same _ _) F.PAIR_CFG_REVERT rfl, get_set_ne (f := F.PAIR_STAT_DUAL) _ (by decide), State.flag]
  · rw [isSick_of_reg (same _ _), isSick_set_dual h]

/-- A dual window in which no judgement waits ends with the lead where it is, well and not to revert. -/
theorem dualEnd_settled {s : State} (h : StoresOk s) (dual : s.flag pgPAIR F.PAIR_STAT_DUAL = true) (none' : s.net.pair.deferred = [])
    (well : isSick s (s.get pgPAIR F.PAIR_STAT_LEAD) = false) (keeps : s.flag pgPAIR F.PAIR_CFG_REVERT = false) : dualEnd s = dualClosed s := by
  obtain ⟨lead, -, revert, sick⟩ := dualClosed_fields h
  have settled : leadCheck (dualClosed s) = dualClosed s := leadCheck_of_settled (by rw [lead, sick, well]) (revert.trans keeps)
  have none'' : (lineCut (1 - s.get pgPAIR F.PAIR_STAT_LEAD) (s.set pgPAIR F.PAIR_STAT_DUAL 0)).net.pair.deferred = [] := by
    rw [(lineCut_leaves ..).2, set_net, none']
  unfold dualEnd
  rw [if_neg (by simp [dual])]
  dsimp only
  rw [get_stat_apart h F.PAIR_STAT_DUAL F.PAIR_STAT_LEAD]
  change leadCheck (List.foldl _ (dualClosed s) (updEth (lineCut _ _) _ _).net.pair.deferred) = _
  rw [updEth_pair, none'']
  exact settled

theorem ethOf_dualClosed {s : State} (ports : s.net.ports.length = 2) :
    (ethOf (dualClosed s) (1 - s.get pgPAIR F.PAIR_STAT_LEAD)).txq =
      (ethOf s (1 - s.get pgPAIR F.PAIR_STAT_LEAD)).txq.filter (fun e => decide (e.1 < 2)) ∧
    ethOf (dualClosed s) (s.get pgPAIR F.PAIR_STAT_LEAD) = ethOf s (s.get pgPAIR F.PAIR_STAT_LEAD) := by
  have lead := lead_lt s
  have same : (lineCut (1 - s.get pgPAIR F.PAIR_STAT_LEAD) (s.set pgPAIR F.PAIR_STAT_DUAL 0)).net = s.net := (lineCut_leaves ..).2
  refine ⟨?_, ?_⟩
  · rw [dualClosed, ethOf_of_ports (updPair_ports ..), ethOf_updEth_same (by rw [same]; omega), ethOf_of_ports (congrArg _ same)]
  · rw [dualClosed, ethOf_of_ports (updPair_ports ..), ethOf_updEth_ne _ (by omega), ethOf_of_ports (congrArg _ same)]

/-! ### The start of pairing (R310) -/

/-- One path at the start of pairing. -/
def pathStarted (s : State) (x : Nat) : State :=
  if inRun s (pgETH x) then s else if isSick s x then s else (setSick x (if (ethOf s x).up then 1 else 2) s).evt pgPAIR 1

/-- Both paths at the start of pairing. -/
def pathsStarted (s : State) : State := pathStarted (pathStarted s 0) 1

theorem pairStart_eq (s : State) : pairStart s =
    ((pathsStarted s).evtIf (isSick (pathsStarted s) 0 && isSick (pathsStarted s) 1) pgPAIR 2).set pgPAIR F.PAIR_STAT_LEAD
      (let t := (pathsStarted s).evtIf (isSick (pathsStarted s) 0 && isSick (pathsStarted s) 1) pgPAIR 2
       let p := (pathsStarted s).get pgPAIR F.PAIR_CFG_PRIMARY
       if !t.flag pgPAIR F.PAIR_CFG_PAIRED ∨ !isSick t p ∨ isSick t (1 - p) then p else 1 - p) := rfl

theorem pathStarted_of_runs {s : State} {x : Nat} (runs : inRun s (pgETH x) = true) : pathStarted s x = s := if_pos runs

theorem pathStarted_induct {P : State → Prop} {s : State} {x : Nat} (same : P s) (turns : ∀ reason, P ((setSick x reason s).evt pgPAIR 1)) :
    P (pathStarted s x) :=
  ite_induct same (ite_induct same (turns _))

theorem StoresOk.pathStarted {s : State} (h : StoresOk s) (x : Nat) : StoresOk (pathStarted s x) :=
  pathStarted_induct h fun _ => (h.setSick ..).evt ..

theorem StoresOk.evtIf {s : State} (h : StoresOk s) (b : Bool) (p bit : Nat) : StoresOk (s.evtIf b p bit) := ite_induct (h.evt ..) h

theorem isSick_pathStarted_same {s : State} (h : StoresOk s) {x : Nat} (stopped : inRun s (pgETH x) = false) :
    isSick (pathStarted s x) x = true := by
  unfold pathStarted
  rw [if_neg (by simp [stopped])]
  split
  · assumption
  · rw [isSick_evt, isSick_setSick_same h]
    split <;> rfl

theorem isSick_pathStarted_other {s : State} (h : StoresOk s) {x y : Nat} (other : x = 0 ↔ y ≠ 0) : isSick (pathStarted s x) y = isSick s y :=
  pathStarted_induct (P := fun t => isSick t y = isSick s y) rfl fun _ => (isSick_evt ..).trans (isSick_setSick_other h other _)

theorem inRun_pathStarted (s : State) (x : Nat) {y : Nat} (hy : y < 2) : inRun (pathStarted s x) (pgETH y) = inRun s (pgETH y) := by
  refine pathStarted_induct (P := fun t => inRun t (pgETH y) = inRun s (pgETH y)) rfl fun reason => inRun_of_get ?_
  have apart : (setSick x reason s).reg (pgETH y) 0x00C = s.reg (pgETH y) 0x00C :=
    reg_setSick _ _ _ (by simp only [regKey, pgETH, pgPAIR]; omega)
  rw [get_evt _ _ (by decide) (by simp only [pgETH, pgEVC]; omega) (by decide) (by decide)]
  exact get_of_reg apart F.HDR_EFF_MODE rfl

/-- A port that does not run is sick once pairing has started. -/
theorem pairStart_sick {s : State} (h : StoresOk s) {x : Nat} (hx : x < 2) (stopped : inRun s (pgETH x) = false) : isSick (pairStart s) x = true := by
  have ok : StoresOk (pathsStarted s) := (h.pathStarted 0).pathStarted 1
  have both : isSick (pathsStarted s) x = true := by
    unfold pathsStarted
    obtain rfl | rfl : x = 0 ∨ x = 1 := by omega
    · rw [isSick_pathStarted_other (h.pathStarted 0) (by decide), isSick_pathStarted_same h stopped]
    · exact isSick_pathStarted_same (h.pathStarted 0) ((inRun_pathStarted s 0 hx).trans stopped)
  rw [pairStart_eq, isSick_set_lead (ok.evtIf ..), isSick_evtIf, both]

/-- With both paths well the primary takes the lead. -/
theorem pairStart_well {s : State} (runs : ∀ x, x < 2 → inRun s (pgETH x) = true) (well : ∀ x, x < 2 → isSick s x = false) :
    pairStart s = s.set pgPAIR F.PAIR_STAT_LEAD (s.get pgPAIR F.PAIR_CFG_PRIMARY) := by
  have first : pathsStarted s = s := by
    rw [pathsStarted, pathStarted_of_runs (runs 0 (by decide)), pathStarted_of_runs (runs 1 (by decide))]
  have primary := well (s.get pgPAIR F.PAIR_CFG_PRIMARY) (bitsOf_lt ..)
  simp [pairStart_eq, first, well 0, well 1, State.evtIf, primary]

theorem pairStart_lead {s : State} (h : StoresOk s) :
    (s.set pgPAIR F.PAIR_STAT_LEAD (s.get pgPAIR F.PAIR_CFG_PRIMARY)).get pgPAIR F.PAIR_STAT_LEAD = s.get pgPAIR F.PAIR_CFG_PRIMARY := by
  rw [get_set_same h pgPAIR (by decide)]
  exact Nat.mod_eq_of_lt (bitsOf_lt ..)

/-! ### The commands -/

theorem exec_healthWindowEnd (s : State) : exec .healthWindowEnd s = .next (healthWindow s.quiet) := rfl

theorem exec_pathRecover (x : Fin 2) (s : State) : exec (.pathRecover x) s = .next (pathRecover x.val s.quiet) := rfl

theorem exec_swap (a : BitVec 4) (v : Word) (s : State) : exec (.swap a v) s = .next (pairSwap a.toNat v s.quiet) := rfl

theorem exec_dualWindowEnd (s : State) : exec .dualWindowEnd s = .next (dualEnd s.quiet) := rfl

theorem exec_pairingStart (s : State) : exec .pairingStart s = .next (pairStart s.quiet) := rfl

/-- Settles O29, command by command from what each one's operation makes of the pair. -/
theorem pairedPaths : Obligations.PairedPaths := by
  unfold Obligations.PairedPaths
  refine ⟨?window, ?missed, ?stays, ?recovers, ?clear, ?refused, ?moves, ?single, ?ends, ?stopped, ?well⟩
  case window => exact fun s => ⟨_, exec_healthWindowEnd s, healthWindow_counts s.quiet⟩
  case missed =>
    intro x s h path on missed single miss fcs
    exact ⟨_, exec_healthWindowEnd s, healthWindow_sick (s := s.quiet) x.isLt h.quiet path on missed single miss fcs⟩
  case stays =>
    intro x s h
    rw [exec_pathRecover, pathRecover_of_other (s := s.quiet) h]
  case recovers =>
    intro x s h sick up runs paths
    exact ⟨_, exec_pathRecover x s, pathRecover_healthy (s := s.quiet) (by rw [quiet_net, paths]; exact x.isLt) h.quiet sick up runs⟩
  case clear =>
    intro a v s h
    rw [exec_swap, pairSwap_of_clear h]
  case refused =>
    intro a v s set h
    rw [exec_swap, pairSwap_refused set _ (s := s.quiet) h]
  case moves =>
    intro a v s h set paired well
    obtain ⟨lead, dual, -⟩ := handover_fields h.quiet
    refine ⟨_, (exec_swap a v s).trans (congrArg _ (pairSwap_moves set _ (s := s.quiet) paired well)), lead, dual, handover_time s.quiet⟩
  case single =>
    intro s h
    rw [exec_dualWindowEnd, dualEnd_of_single (s := s.quiet) h]
  case ends =>
    intro s h dual none' well keeps ports
    obtain ⟨lead, closed, -, -⟩ := dualClosed_fields h.quiet
    exact ⟨_, (exec_dualWindowEnd s).trans (congrArg _ (dualEnd_settled h.quiet dual none' well keeps)), closed, lead,
      ethOf_dualClosed (s := s.quiet) ports⟩
  case stopped => exact fun x s h stopped => ⟨_, exec_pairingStart s, pairStart_sick h.quiet x.isLt stopped⟩
  case well =>
    intro s h both
    have started := pairStart_well (s := s.quiet) (fun x hx => (both x hx).1) fun x hx => (both x hx).2
    refine ⟨_, (exec_pairingStart s).trans (congrArg _ started), pairStart_lead h.quiet, fun x hx => ?_⟩
    rw [isSick_set_lead h.quiet]
    exact (both x hx).2

end Sys2Proof.Machine
end

section
/-!
SUPPORT. The Ethernet ports (R281 to R294): what a link's change, a pause, a ring's mark and a universe's loss make of a port, which of the
device's own frames leaves it, and what each check of a received frame comes to.
-/
namespace Sys2Proof.Machine
open Sys2Proof

/-! ### What an operation leaves of the ports -/

@[simp] theorem putEff_net (p : Nat) (e : Nat × Nat) (s : State) : (putEff p e s).net = s.net := by
  simp [putEff, apply_ite State.net]

theorem foldl_net {α : Type} {f : State → α → State} (hf : ∀ s x, (f s x).net = s.net) (l : List α) (s : State) : (l.foldl f s).net = s.net :=
  foldl_induct (P := fun t => t.net = s.net) (fun t x h => (hf t x).trans h) l rfl

@[simp] theorem refresh_net (p : Nat) (s : State) : (refresh p s).net = s.net := by
  unfold refresh
  split
  · split
    · exact putEff_net ..
    · exact foldl_net (fun t i => by simp [apply_ite State.net]) _ s
  · exact putEff_net ..

theorem judge_ports (x reason : Nat) (s : State) : (judge x reason s).net.ports = s.net.ports :=
  judge_induct (P := fun t => t.net.ports = s.net.ports) rfl rfl (by simp) fun t h => by rw [evt_net, h]

/-- The judgement of criterion OFF leaves of a port all but what waits to be sent. -/
theorem ethOf_pairOff {β : Type} (g : EthPort → β) (hg : ∀ p q, g { p with txq := q } = g p) (s : State) (x : Nat) :
    g (ethOf (pairOff s) x) = g (ethOf s x) := by
  have judged : ([0, 1].foldl (fun s x => if inRun s (pgETH x) then s else judge x 1 s) s).net.ports = s.net.ports :=
    foldl_induct (P := fun t => t.net.ports = s.net.ports)
      (fun t y h => ite_induct (P := fun t => t.net.ports = s.net.ports) h ((judge_ports ..).trans h)) _ rfl
  have same := congrArg g (ethOf_of_ports judged x)
  exact leadCheck_induct (P := fun t => g (ethOf t x) = g (ethOf s x)) same ((ethOf_handover g hg _ x).trans same)

/-- A port after a change of it alone. -/
theorem ethOf_changed {s t : State} {x : Nat} (hx : x < s.net.ports.length) (f : EthPort → EthPort) (h : t.net.ports = (updEth s x f).net.ports) :
    ethOf t x = f (ethOf s x) := (ethOf_of_ports h x).trans (ethOf_updEth_same hx f)

/-! ### Links (R281) -/

theorem linkDown_of_down {x : Nat} {s : State} (h : (ethOf s x).up = false) : linkDown x s = s := if_pos (by simp [h])

theorem linkUp_of_other {x : Nat} {s : State} (h : (ethOf s x).up = true ∨ s.get (pgETH x) F.HDR_REQ_MODE = 0 ∨ domainOn s 10 = false) :
    linkUp x s = s := if_pos (by simpa using h)

section
variable {x : Nat} {s : State} (hx : x < s.net.ports.length)
include hx

theorem ethOf_linkDown {β : Type} (g : EthPort → β) (hg : ∀ p q, g { p with txq := q } = g p) (up : (ethOf s x).up = true) :
    g (ethOf (linkDown x s) x) = g { ethOf s x with up := false, pauseEnd := none } := by
  unfold linkDown
  rw [if_neg (by simp [up])]
  dsimp only
  rw [ethOf_pairOff g hg, ethOf_changed hx (fun p => { p with up := false, pauseEnd := none })
    (by rw [refresh_net, judge_ports, set_net, set_net, evt_net])]

theorem ethOf_linkUp (down : (ethOf s x).up = false) (mode : s.get (pgETH x) F.HDR_REQ_MODE ≠ 0) (on : domainOn s 10 = true) :
    ethOf (linkUp x s) x = { ethOf s x with up := true } := by
  unfold linkUp
  rw [if_neg (by simp [down, mode, on])]
  dsimp only
  refine ethOf_changed hx (fun p => { p with up := true }) ?_
  rw [refresh_net, evt_net, set_net, updEth_ports, updEth_ports]
  split <;> rfl

end

/-! ### Pauses (R283) -/

/-- A port's end of pause and its flag in LINKSTAT. -/
def pauseUntil (x : Nat) (e : Option Nat) (s : State) : State :=
  (updEth s x fun p => { p with pauseEnd := e }).set (pgETH x) F.ETH_LINKSTAT_PAUSED e.isSome.toNat

/-- A PAUSE received, counted. -/
def pauseCounted (x : Nat) (s : State) : State := (s.bump (pgETH x) F.ETH_st_PAUSERX).evt (pgETH x) 4

theorem get_pauseCounted {x : Nat} (hx : x < 2) (s : State) (f : Fld) (hf : f.off + f.stride * 0 < 4096) (he : f.off + f.stride * 0 ≠ 0x010) :
    (pauseCounted x s).get (pgETH x) f = s.get (pgETH x) f := by
  have page : pgETH x < 256 ∧ pgETH x ≠ pgEVC := by simp only [pgETH, pgEVC]; omega
  rw [pauseCounted, get_evt _ _ page.1 page.2 hf he, get_of_regs (bump_regs ..)]

theorem quantum_pauseCounted {x : Nat} (hx : x < 2) (s : State) : quantum (pauseCounted x s) x = quantum s x := by
  rw [quantum, get_pauseCounted hx s F.ETH_CFG_SPEED (by decide) (by decide), quantum]

section
variable {x : Nat} {s : State} (hx : x < 2) (q : Nat)
include hx

theorem pauseReceive_ignored (off : s.flag (pgETH x) F.ETH_CFG_RXPAUSE = false) : pauseReceive x q s = pauseCounted x s := by
  have off' : (pauseCounted x s).flag (pgETH x) F.ETH_CFG_RXPAUSE = false := by
    rw [State.flag, get_pauseCounted hx s _ (by decide) (by decide), ← State.flag, off]
  exact if_pos (by rw [pauseCounted] at off'; rw [off']; rfl)

theorem pauseReceive_acted (on : s.flag (pgETH x) F.ETH_CFG_RXPAUSE = true) :
    pauseReceive x q s = pauseUntil x (if q = 0 then none else some (s.time.ft + q * quantum s x)) (pauseCounted x s) := by
  have on' : (pauseCounted x s).flag (pgETH x) F.ETH_CFG_RXPAUSE = true := by
    rw [State.flag, get_pauseCounted hx s _ (by decide) (by decide), ← State.flag, on]
  have time : (pauseCounted x s).time = s.time := by simp [pauseCounted]
  rw [← quantum_pauseCounted hx s, ← time]
  unfold pauseReceive
  rw [if_neg (by rw [pauseCounted] at on'; simp [on'])]
  split <;> rfl

end

theorem pauseUntil_fields {x : Nat} {s : State} (h : StoresOk s) (hx : x < s.net.ports.length) (e : Option Nat) :
    (ethOf (pauseUntil x e s) x).pauseEnd = e ∧ (pauseUntil x e s).flag (pgETH x) F.ETH_LINKSTAT_PAUSED = e.isSome := by
  have ok : StoresOk (updEth s x fun p => { p with pauseEnd := e }) := ⟨h.regs, h.staged, h.ctr, h.mem⟩
  refine ⟨?_, ?_⟩
  · rw [pauseUntil, ethOf_changed hx (fun p => { p with pauseEnd := e }) (by rw [set_net])]
  · rw [State.flag, pauseUntil, get_set_same ok (pgETH x) (by decide)]
    cases e <;> rfl

/-! ### PAUSE generation (R288) -/

/-- The receive rings below LOWWATER, by their HEAD. -/
def ringsLow (s : State) (x : Nat) : List Nat :=
  if s.get (pgETH x) F.ETH_PAUSECFG_LOWWATER = 0 then []
  else ((pauseRings s x).filter fun r => r.free s < s.get (pgETH x) F.ETH_PAUSECFG_LOWWATER).map (·.head)

/-- A PAUSE frame queued with a ring's state of generation. -/
def pauseQueued (x : Nat) (low : List Nat) (pausing : Bool) (q : Nat) (s : State) : State :=
  queueTx x 1 (pauseFrame s x q) (updEth (updEth s x fun p => { p with low := low }) x fun p => { p with pausing := pausing })

theorem pauseCheck_eq (x : Nat) (again : Bool) (s : State) : pauseCheck x again s =
    if (ringsLow s x).any fun h => again || !(ethOf s x).low.contains h then
      pauseQueued x (ringsLow s x) true (s.get (pgETH x) F.ETH_PAUSECFG_PAUSEQ) s
    else if (ringsLow s x).isEmpty ∧ (ethOf s x).pausing ∧ (pauseRings s x).all fun r => s.get (pgETH x) F.ETH_PAUSECFG_HIWATER ≤ r.free s then
      pauseQueued x (ringsLow s x) false 0 s
    else updEth s x fun p => { p with low := ringsLow s x } := rfl

@[simp] theorem pauseQueued_regs (x : Nat) (low : List Nat) (pausing : Bool) (q : Nat) (s : State) :
    (pauseQueued x low pausing q s).regs = s.regs := rfl

@[simp] theorem pauseCheck_regs (x : Nat) (again : Bool) (s : State) : (pauseCheck x again s).regs = s.regs := by
  simp [pauseCheck_eq, apply_ite State.regs]

theorem ethOf_pauseQueued {x : Nat} {s : State} (hx : x < s.net.ports.length) (low : List Nat) (pausing : Bool) (q : Nat) :
    ethOf (pauseQueued x low pausing q s) x =
      { ethOf s x with low := low, pausing := pausing, txq := (ethOf s x).txq ++ [(1, padded (pauseFrame s x q))] } := by
  rw [pauseQueued, queueTx, ethOf_updEth_same (by simpa using hx), ethOf_updEth_same (by simpa using hx), ethOf_updEth_same hx]

theorem ringsLow_off {x : Nat} {s : State} (off : s.get (pgETH x) F.ETH_PAUSECFG_LOWWATER = 0) : ringsLow s x = [] := if_pos off

/-- A ring has fallen below the mark. -/
def someLow (s : State) (x : Nat) : Bool := (pauseRings s x).any fun r => decide (r.free s < s.get (pgETH x) F.ETH_PAUSECFG_LOWWATER)

theorem ringsLow_of_someLow {x : Nat} {s : State} (h : someLow s x = true) : ringsLow s x =
    ((pauseRings s x).filter fun r => decide (r.free s < s.get (pgETH x) F.ETH_PAUSECFG_LOWWATER)).map (·.head) ∧ ringsLow s x ≠ [] := by
  obtain ⟨r, mem, low⟩ := List.any_eq_true.1 h
  have low' := of_decide_eq_true low
  have marked : s.get (pgETH x) F.ETH_PAUSECFG_LOWWATER ≠ 0 := by omega
  refine ⟨if_neg marked, ?_⟩
  rw [ringsLow, if_neg marked]
  exact List.ne_nil_of_mem (List.mem_map_of_mem (List.mem_filter.2 ⟨mem, low⟩))

theorem pauseCheck_idle {x : Nat} {s : State} (off : s.get (pgETH x) F.ETH_PAUSECFG_LOWWATER = 0) (still : (ethOf s x).pausing = false) :
    pauseCheck x true s = updEth s x fun p => { p with low := [] } := by
  rw [pauseCheck_eq, ringsLow_off off, if_neg (by simp), if_neg (by simp [still])]

theorem pauseCheck_low {x : Nat} {s : State} (low : someLow s x = true) :
    pauseCheck x true s = pauseQueued x (ringsLow s x) true (s.get (pgETH x) F.ETH_PAUSECFG_PAUSEQ) s := by
  rw [pauseCheck_eq, if_pos]
  obtain ⟨r, w, e⟩ := List.exists_cons_of_ne_nil (ringsLow_of_someLow low).2
  simp [e]

theorem pauseCheck_over {x : Nat} {s : State} (off : s.get (pgETH x) F.ETH_PAUSECFG_LOWWATER = 0) (pausing : (ethOf s x).pausing = true)
    (high : ((pauseRings s x).all fun r => s.get (pgETH x) F.ETH_PAUSECFG_HIWATER ≤ r.free s) = true) :
    pauseCheck x true s = pauseQueued x [] false 0 s := by
  rw [pauseCheck_eq, ringsLow_off off, if_neg (by simp), if_pos ⟨rfl, pausing, high⟩]

/-! ### Rings' tails and a universe's loss (R286, R289, R294) -/

theorem rxTail_reg {s : State} (h : StoresOk s) (x r : Nat) (v : Word) : (rxTail x r v s).reg (pgETH x) (0x068 + 16 * r) = v &&& 0xFFF := by
  rw [rxTail, reg_of_regs (pauseCheck_regs ..), reg_setReg_same h]

theorem sacnLoss_of_free {u : Nat} {s : State} (h : amGet s.net.uni u = none) : sacnLoss u s = s := by rw [sacnLoss, h]

theorem sacnLoss_of_held {u : Nat} {k : SacnUni} {s : State} (h : amGet s.net.uni u = some k) :
    sacnLoss u s = updNet s fun n => { n with uni := amSet n.uni u { k with fresh := false } } := by rw [sacnLoss, h]

/-! ### Frames of the device's own that leave (R290) -/

section
variable {x prio : Nat} {f : List Byte} {r : List (Nat × List Byte)} {s : State}

theorem takeTx_of_absent (h : ∀ e ∈ (ethOf s x).txq, e.1 ≠ prio) : takeTx x prio s = (s, none) := by
  have none' : (ethOf s x).txq.find? (·.1 = prio) = none := by simpa [List.find?_eq_none] using fun a b hab => h (a, b) hab
  rw [takeTx, none']

theorem takeTx_of_front (h : (ethOf s x).txq = (prio, f) :: r) :
    takeTx x prio s = (updEth s x fun p => { p with txq := p.txq.erase (prio, f) }, some f) := by
  have front : (ethOf s x).txq.find? (·.1 = prio) = some (prio, f) := by rw [h, List.find?_cons_of_pos (by simp)]
  rw [takeTx, front]

theorem ethOf_countBytes {β : Type} (g : EthPort → β) (rx : ∀ p n, g { p with rxRem := n } = g p) (tx : ∀ p n, g { p with txRem := n } = g p)
    (d : Bool) (n y : Nat) : g (ethOf (countBytes x d n s) y) = g (ethOf s y) := by
  rw [countBytes, ethOf_of_ports (congrArg _ (bump_net ..))]
  exact ethOf_updEth_proj g (fun k => by cases d <;> [exact rx ..; exact tx ..]) ..

@[simp] theorem countBytes_regs (d : Bool) (n : Nat) : (countBytes x d n s).regs = s.regs := by simp [countBytes]
@[simp] theorem countBytes_out (d : Bool) (n : Nat) : (countBytes x d n s).out = s.out := by simp [countBytes]
@[simp] theorem countBytes_wake (d : Bool) (n : Nat) : (countBytes x d n s).net.wake = s.net.wake := by simp [countBytes]

/-- A frame that is no PTP event message leaves whole, with its FCS. -/
theorem sendFrame_whole (line : effMode s (pgETH x) ≠ 3) (plain : ptpEventAt f = none) :
    sendFrame x f s = (countBytes x true (f.length + 4) (s.bump (pgETH x) F.ETH_st_TXFRAMES)).emit (.ethFrame x (withFcs f)) := by
  have depart : ptpDepart x f s = (s, f) := by rw [ptpDepart, plain]
  have line' : effMode (countBytes x true (f.length + 4) (s.bump (pgETH x) F.ETH_st_TXFRAMES)) (pgETH x) ≠ 3 := by
    rwa [effMode, get_of_regs ((countBytes_regs ..).trans (bump_regs ..)), ← effMode]
  rw [sendFrame, depart]
  exact if_neg line'

theorem ethTransmit_of_stopped (h : runTest s (pgETH x) = false ∨ ((ethOf s x).up = false ∧ effMode s (pgETH x) ≠ 3)) :
    ethTransmit x s = s := if_pos (by simpa using h)

theorem ethTransmit_of_paused (paused : (ethOf s x).pauseEnd.isSome = true) (none' : ∀ e ∈ (ethOf s x).txq, e.1 ≠ 1) : ethTransmit x s = s := by
  unfold ethTransmit
  dsimp only
  rw [takeTx_of_absent none']
  dsimp only
  rw [if_pos paused]
  exact ite_self s

/-- The frame in front of a port's queue, of the highest precedence there, is the one that leaves. -/
theorem ethTransmit_of_front (runs : inRun s (pgETH x) = true) (up : (ethOf s x).up = true) (front : (ethOf s x).txq = (prio, f) :: r)
    (kind : prio ∈ [1, 3, 4]) (first : ∀ e ∈ r, prio ≤ e.1) (free : prio = 1 ∨ (ethOf s x).pauseEnd = none) :
    ∃ t, ethTransmit x s = sendFrame x f t ∧ t.regs = s.regs ∧ t.out = s.out ∧
      t.net = (updEth s x fun p => { p with txq := p.txq.erase (prio, f) }).net := by
  have line : ¬ ((!runTest s (pgETH x)) = true ∨ (!(ethOf s x).up) = true ∧ effMode s (pgETH x) ≠ 3) := by
    simp only [inRun, decide_eq_true_eq] at runs
    simp [runTest, runs, up]
  have absent : ∀ c, c < prio → takeTx x c s = (s, none) := fun c hc => takeTx_of_absent (by
    rw [front, List.forall_mem_cons]
    exact ⟨by show prio ≠ c; omega, fun e he => by have := first e he; omega⟩)
  have took := takeTx_of_front front
  have open' : prio ≠ 1 → ¬ (ethOf s x).pauseEnd.isSome = true := fun h => by simp [free.resolve_left h]
  unfold ethTransmit
  dsimp only
  rw [if_neg line]
  simp only [List.mem_cons, List.not_mem_nil, or_false] at kind
  obtain rfl | rfl | rfl := kind
  · rw [took]
    exact ⟨_, rfl, bump_regs .., bump_out .., bump_net ..⟩
  · simp only [absent 1 (by decide), absent 2 (by decide), took, open' (by decide)]
    exact ⟨_, rfl, rfl, rfl, rfl⟩
  · simp only [absent 1 (by decide), absent 2 (by decide), absent 3 (by decide), took, open' (by decide)]
    exact ⟨_, rfl, rfl, rfl, rfl⟩

/-- What the frame in front of a port's queue leaves behind as it goes. -/
theorem ethTransmit_sends (hx : x < s.net.ports.length) (runs : inRun s (pgETH x) = true) (up : (ethOf s x).up = true)
    (front : (ethOf s x).txq = (prio, f) :: r) (kind : prio ∈ [1, 3, 4]) (first : ∀ e ∈ r, prio ≤ e.1)
    (free : prio = 1 ∨ (ethOf s x).pauseEnd = none) (plain : ptpEventAt f = none) :
    (ethOf (ethTransmit x s) x).txq = r ∧ (ethTransmit x s).out = s.out ++ [.ethFrame x (withFcs f)] ∧ (ethTransmit x s).regs = s.regs := by
  obtain ⟨t, sent, regs, out, net⟩ := ethTransmit_of_front runs up front kind first free
  have line : effMode t (pgETH x) ≠ 3 := by
    rw [effMode, get_of_regs regs, ← effMode, of_decide_eq_true runs]
    decide
  rw [sent, sendFrame_whole line plain]
  refine ⟨?_, by simp [out], by simp [regs]⟩
  rw [ethOf_of_ports (congrArg _ (emit_net ..)), ethOf_countBytes (·.txq) (fun _ _ => rfl) (fun _ _ => rfl),
    ethOf_of_ports (congrArg _ (bump_net ..)), ethOf_changed hx _ (congrArg _ net)]
  simp [front]

end

/-! ### Received frames (R282) -/

theorem leVal_lt (b : List Byte) : leVal b < 256 ^ b.length := by
  induction b with
  | nil => decide
  | cons x b ih =>
    have := x.isLt
    rw [leVal, List.length_cons, pow_succ]
    omega

section
variable {x t : Nat} {f : List Byte} {full : Bool} {s : State}

/-- A frame counted, as every one that the address filter lets pass. -/
def frameCounted (x n : Nat) (s : State) : State := countBytes x false n (s.bump (pgETH x) F.ETH_st_RXFRAMES)

theorem frameCounted_regs (x n : Nat) (s : State) : (frameCounted x n s).regs = s.regs := by simp [frameCounted]

theorem wakeFilters_of_none (none' : ∀ k, k < 8 → wakeMatch s x k f = false) : wakeFilters x f s = s := by
  have silent : (List.range 8).any (fun k => wakeMatch s x k f) = false := by simpa using none'
  rw [wakeFilters, silent]
  rfl

theorem toRing_of_none {r cls extra ts : Nat} {cut : Bool} (h : 4 ≤ r) : toRing x r f cls extra ts cut s = s := if_pos h

/-- A frame from the line of a port that is not in TEST is received; where no wake is asked for, that is all. -/
theorem frameIn_of_line (line : effMode s (pgETH x) ≠ 3) (asleep : (ethReceive x t f full s).net.wake = false) :
    frameIn x t f full s = ethReceive x t f full s := by
  rw [frameIn, if_neg line, if_neg (by simp [asleep])]

theorem ethReceive_off (off : effMode s (pgETH x) = 0) : ethReceive x t f full s = s := if_pos (.inl off)

theorem not_and_of_kind {l : List Byte} (kind : slice f 12 4 ≠ l) (b c : Bool) : ¬ (decide (slice f 12 4 = l) && b && c) = true := by
  rw [decide_eq_false kind]
  exact Bool.false_ne_true

section
variable (runs : inRun s (pgETH x) = true) (up : (ethOf s x).up = true)
include runs up

theorem line_open : ¬ (effMode s (pgETH x) = 0 ∨ (!(ethOf s x).up && effMode s (pgETH x) ≠ 3) = true) := by
  simp only [inRun, decide_eq_true_eq] at runs
  simp [runs, up]

theorem ethReceive_runt (short : f.length < 64) : ethReceive x t f full s = s.bump (pgETH x) F.ETH_st_RUNTS := by
  unfold ethReceive
  dsimp only
  rw [if_neg (line_open runs up), if_pos short]

theorem ethReceive_pause (long : 64 ≤ f.length) (good : fcsOk f = true) (kind : slice f 12 4 = [0x88, 0x08, 0x00, 0x01])
    (dst : beVal (slice f 0 6) = 0x0180C2000001 ∨ beVal (slice f 0 6) = macOf s x) :
    ethReceive x t f full s = pauseReceive x (beVal (slice f 16 2)) s := by
  unfold ethReceive
  dsimp only
  rw [if_neg (line_open runs up), if_neg (by omega), if_pos]
  simpa [good, kind] using dst

section
variable (long : 64 ≤ f.length) (kind : slice f 12 4 ≠ [0x88, 0x08, 0x00, 0x01])
include long kind

theorem ethReceive_stray (other : addrOk s x (classOf s x (noFcs f)) f = false) :
    ethReceive x t f full s = s.bump (pgETH x) F.ETH_st_ADDRDROP := by
  unfold ethReceive
  dsimp only
  rw [if_neg (line_open runs up), if_neg (by omega), if_neg (not_and_of_kind kind _ _), if_pos (by simp [other]),
    if_neg (by rw [of_decide_eq_true runs]; decide)]

/-- A frame of no consumer and for no ring is counted only. -/
theorem ethReceive_other (limit : f.length ≤ frameLimit s x) (own : addrOk s x (classOf s x (noFcs f)) f = true)
    (cls : classOf s x (noFcs f) = 0) (ring : 4 ≤ s.get (pgETH x) F.ETH_RINGSEL_OTHER) (none' : ∀ k, k < 8 → wakeMatch s x k (noFcs f) = false) :
    ethReceive x t f full s = if fcsOk f then frameCounted x f.length s else
      updPair ((frameCounted x f.length s).bump (pgETH x) F.ETH_st_FCSERR) fun k => { k with fcs := k.fcs.set x (k.fcs.getD x 0 + 1) } := by
  have silent : (if fcsOk f = true ∧ f.length ≤ frameLimit s x then wakeFilters x (noFcs f) s else s) = s := by
    rw [wakeFilters_of_none none', ite_self]
  have noRing : ∀ u : State, u.regs = s.regs → 4 ≤ ringOf u x 0 := fun u h => by rwa [ringOf, get_of_regs h]
  unfold ethReceive
  dsimp only
  rw [if_neg (line_open runs up), if_neg (by omega), if_neg (not_and_of_kind kind _ _), if_neg (by simp [own]), silent,
    if_neg (by rw [of_decide_eq_true runs]; decide), if_neg (by omega), cls]
  by_cases good : fcsOk f = true
  · rw [if_neg (by simp [good]), if_pos good]
    exact toRing_of_none (noRing _ (frameCounted_regs ..))
  · rw [if_pos (by simpa using good), if_neg good]
    exact toRing_of_none (noRing _ ((bump_regs ..).trans (frameCounted_regs ..)))

end
end
end

/-! ### The commands -/

theorem exec_linkDown (p : Fin 2) (s : State) : exec (.linkDown p) s = .next (linkDown p.val s.quiet) := rfl
theorem exec_linkUp (p : Fin 2) (s : State) : exec (.linkUp p) s = .next (linkUp p.val s.quiet) := rfl
theorem exec_pauseReceive (p : Fin 2) (q : BitVec 16) (s : State) : exec (.pauseReceive p q) s = .next (pauseReceive p.val q.toNat s.quiet) := rfl
theorem exec_pauseExpiry (p : Fin 2) (s : State) : exec (.pauseExpiry p) s = .next (pauseExpiry p.val s.quiet) := rfl
theorem exec_pauseGenerate (p : Fin 2) (s : State) : exec (.pauseGenerate p) s = .next (pauseCheck p.val true s.quiet) := rfl
theorem exec_rxtailWrite (p : Fin 2) (r : Fin 4) (v : Word) (s : State) : exec (.rxtailWrite p r v) s = .next (rxTail p.val r.val v s.quiet) := rfl
theorem exec_ethFrameTransmit (p : Fin 2) (s : State) : exec (.ethFrameTransmit p) s = .next (ethTransmit p.val s.quiet) := rfl
theorem exec_sacnDataLoss (u : BitVec 16) (s : State) : exec (.sacnDataLoss u) s = .next (sacnLoss u.toNat s.quiet) := rfl
theorem exec_ethFrameReceive (p : Fin 2) (t : Nat) (f : List Byte) (b : Bool) (s : State) :
    exec (.ethFrameReceive p t f b) s = .next (frameIn p.val t f b s.quiet) := rfl

/-- A frame received where no wake is asked for, before or after it. -/
theorem exec_ethFrameReceive_of {p : Fin 2} {t : Nat} {f : List Byte} {b : Bool} {s u : State} (line : effMode s (pgETH p.val) ≠ 3)
    (received : ethReceive p.val t f b s.quiet = u) (asleep : u.net.wake = false) : exec (.ethFrameReceive p t f b) s = .next u := by
  rw [exec_ethFrameReceive, frameIn_of_line (s := s.quiet) line (by rwa [received]), received]

theorem pauseReceive_wake (x q : Nat) (s : State) : (pauseReceive x q s).net.wake = s.net.wake := by
  simp [pauseReceive, apply_ite State.net, apply_ite NetState.wake]

/-- Settles O28, command by command from what each one's operation makes of the port. -/
theorem ethernetPorts : Obligations.EthernetPorts := by
  unfold Obligations.EthernetPorts
  refine ⟨?down, ?downUp, ?upOff, ?upOn, ?ignored, ?acted, ?expiry, ?idle, ?low, ?high, ?rxtail, ?txtail, ?stopped, ?paused, ?sends, ?received,
    ?free, ?held⟩
  case down =>
    intro p s h
    rw [exec_linkDown, linkDown_of_down (s := s.quiet) h]
  case downUp =>
    intro p s up ports
    have hx : p.val < s.quiet.net.ports.length := by rw [quiet_net, ports]; exact p.isLt
    rw [exec_linkUp, linkUp_of_other (s := s.quiet) (.inl up)]
    exact ⟨rfl, _, exec_linkDown p s, ethOf_linkDown hx (·.up) (fun _ _ => rfl) up, ethOf_linkDown hx (·.pauseEnd) (fun _ _ => rfl) up⟩
  case upOff =>
    intro p s h
    rw [exec_linkUp, linkUp_of_other (s := s.quiet) (.inr h)]
  case upOn =>
    intro p s down mode on ports
    exact ⟨_, exec_linkUp p s, ethOf_linkUp (s := s.quiet) (by rw [quiet_net, ports]; exact p.isLt) down mode on⟩
  case ignored =>
    intro p q s off
    rw [exec_pauseReceive, pauseReceive_ignored (s := s.quiet) p.isLt _ off, pauseCounted]
  case acted =>
    intro p q s h on ports
    have counted : StoresOk (pauseCounted p.val s.quiet) := (h.quiet.bump ..).evt ..
    have hx : p.val < (pauseCounted p.val s.quiet).net.ports.length := by rw [pauseCounted, evt_net, bump_net, quiet_net, ports]; exact p.isLt
    have zero : q.toNat = 0 ↔ q = 0 := by rw [← BitVec.toNat_inj]; rfl
    obtain ⟨ends, flag⟩ := pauseUntil_fields counted hx (if q.toNat = 0 then none else some (s.quiet.time.ft + q.toNat * quantum s.quiet p.val))
    refine ⟨_, (exec_pauseReceive p q s).trans (congrArg _ (pauseReceive_acted (s := s.quiet) p.isLt _ on)), ends.trans ?_, flag.trans ?_⟩
    · exact if_congr zero rfl rfl
    · by_cases none' : q = 0
      · rw [if_pos (zero.2 none'), decide_eq_false (not_not_intro none')]
        rfl
      · rw [if_neg (mt zero.1 none'), decide_eq_true none']
        rfl
  case expiry =>
    intro p s h ports
    exact ⟨_, exec_pauseExpiry p s, pauseUntil_fields h.quiet (by rw [quiet_net, ports]; exact p.isLt) none⟩
  case idle =>
    intro p s ports still off
    refine ⟨_, (exec_pauseGenerate p s).trans (congrArg _ (pauseCheck_idle (s := s.quiet) off still)), rfl, ?_⟩
    exact ethOf_updEth_same (by rw [quiet_net, ports]; exact p.isLt) _
  case low =>
    intro p s ports low
    refine ⟨_, (exec_pauseGenerate p s).trans (congrArg _ (pauseCheck_low (s := s.quiet) low)), rfl, ?_⟩
    rw [ethOf_pauseQueued (by rw [quiet_net, ports]; exact p.isLt), (ringsLow_of_someLow (s := s.quiet) low).1]
    rfl
  case high =>
    intro p s ports pausing off high
    refine ⟨_, (exec_pauseGenerate p s).trans (congrArg _ (pauseCheck_over (s := s.quiet) off pausing high)), rfl, ?_⟩
    exact ethOf_pauseQueued (by rw [quiet_net, ports]; exact p.isLt) ..
  case rxtail => exact fun p r v s h => ⟨_, exec_rxtailWrite p r v s, rxTail_reg h.quiet ..⟩
  case txtail => exact fun v s => ⟨rfl, rfl, rfl⟩
  case stopped =>
    intro p s h
    rw [exec_ethFrameTransmit, ethTransmit_of_stopped (s := s.quiet) h]
  case paused =>
    intro p s paused none'
    rw [exec_ethFrameTransmit, ethTransmit_of_paused (s := s.quiet) paused none']
  case sends =>
    intro p c f r s runs up ports front kind first plain free
    exact ⟨_, exec_ethFrameTransmit p s,
      ethTransmit_sends (s := s.quiet) (by rw [quiet_net, ports]; exact p.isLt) runs up front kind first free plain⟩
  case received =>
    intro p t f b s asleep
    refine ⟨fun off => ?off, fun runs up short => ?runt, fun runs up long good kind dst => ?pause, fun runs up long kind other => ?stray,
      fun runs up long limit kind own cls ring none' => ?counted⟩
    case off => exact exec_ethFrameReceive_of (by rw [off]; decide) (ethReceive_off (s := s.quiet) off) asleep
    all_goals have line : effMode s (pgETH p.val) ≠ 3 := by rw [of_decide_eq_true runs]; decide
    case runt => exact exec_ethFrameReceive_of line (ethReceive_runt (s := s.quiet) runs up short) (by rw [bump_net]; exact asleep)
    case pause =>
      have small : beVal (slice f 16 2) < 2 ^ 16 := (leVal_lt _).trans_eq (by rw [List.length_reverse, slice_length]; rfl)
      refine ⟨_, exec_ethFrameReceive_of line (ethReceive_pause (s := s.quiet) runs up long good kind dst)
        ((pauseReceive_wake ..).trans asleep), ?_⟩
      rw [exec_pauseReceive, BitVec.toNat_ofNat, Nat.mod_eq_of_lt small]
    case stray =>
      exact exec_ethFrameReceive_of line (ethReceive_stray (s := s.quiet) runs up long kind other) (by rw [bump_net]; exact asleep)
    case counted =>
      refine exec_ethFrameReceive_of line (ethReceive_other (s := s.quiet) runs up long kind limit own cls ring none') ?_
      split <;> simpa [frameCounted] using asleep
  case free =>
    intro u s h
    rw [exec_sacnDataLoss, sacnLoss_of_free (s := s.quiet) h]
  case held =>
    intro u k s h
    refine ⟨_, (exec_sacnDataLoss u s).trans (congrArg _ (sacnLoss_of_held (s := s.quiet) h)), rfl, amGet_amSet_same .., fun j hj => ?_⟩
    exact amGet_amSet_ne _ _ _ _ hj

end Sys2Proof.Machine
end

section
/-!
SUPPORT. What events, modes in force and discovery leave of the Brura ports: a port's entry into UP and its exit (R331, R340) change the port
alone.
-/
namespace Sys2Proof.Machine
open Sys2Proof

theorem EventPartsOnly.bru {s t : State} (h : EventPartsOnly s t) : t.bru = s.bru := by obtain ⟨_, _, _, _, rfl⟩ := h; rfl

@[simp] theorem quiet_bru (s : State) : s.quiet.bru = s.bru := rfl
@[simp] theorem evt_bru (s : State) (p bit : Nat) : (s.evt p bit).bru = s.bru := (EventPartsOnly.evt s p bit).bru
@[simp] theorem evtIf_bru (s : State) (b : Bool) (p bit : Nat) : (s.evtIf b p bit).bru = s.bru := by
  simp [State.evtIf, apply_ite State.bru]

/-- What every step of a fold leaves of the Brura ports, the fold does. -/
theorem foldl_bru {α : Type} {f : State → α → State} (hf : ∀ s x, (f s x).bru = s.bru) (l : List α) (s : State) :
    (l.foldl f s).bru = s.bru :=
  foldl_induct (P := fun t => t.bru = s.bru) (fun t x h => (hf t x).trans h) l rfl

/-! ### Modes in force, with the radio's link (R70, R410) -/

@[simp] theorem sendPacket_bru (p : AirPkt) (s : State) : (sendPacket p s).bru = s.bru := by
  simp [sendPacket, packetOut, apply_ite State.bru]

@[simp] theorem sendList_bru (s : State) : (sendList s).bru = s.bru := by
  rw [sendList, updAir_bru]
  exact foldl_bru (fun s i => by simp [apply_ite State.bru]) _ s

@[simp] theorem airIdle_bru (s : State) : (airIdle s).bru = s.bru := by simp [airIdle]

@[simp] theorem airEntered_bru (s : State) : (airEntered s).bru = s.bru := by
  simp [airEntered, apply_ite State.bru]

@[simp] theorem putEff_bru (p : Nat) (e : Nat × Nat) (s : State) : (putEff p e s).bru = s.bru := by
  simp [putEff, apply_ite State.bru]

@[simp] theorem refresh_bru (p : Nat) (s : State) : (refresh p s).bru = s.bru := by
  unfold refresh
  split
  · split
    · exact putEff_bru ..
    · exact foldl_bru (fun t i => by simp [apply_ite State.bru]) _ s
  · exact putEff_bru ..

@[simp] theorem refreshAll_bru (s : State) : (refreshAll s).bru = s.bru :=
  (airEntered_bru _).trans ((foldl_bru (fun s _ => refresh_bru _ s) _ _).trans (foldl_bru (fun s p => refresh_bru p s) _ s))

/-! ### Discovery and roles (R350 to R353, R374, R390) -/

@[simp] theorem timePathSync_bru (s : State) : (timePathSync s).bru = s.bru := by
  simp [timePathSync, autoSource, apply_ite State.bru]

@[simp] theorem fabSync_bru (s : State) : (fabSync s).bru = s.bru := by simp [fabSync]

@[simp] theorem topoChange_bru (s : State) : (topoChange s).bru = s.bru := by simp [topoChange]

@[simp] theorem setHolder_bru (r : Nat) (c : Option Cand) (s : State) : (setHolder r c s).bru = s.bru := by
  simp [setHolder, apply_ite State.bru]

@[simp] theorem discEval_bru (s : State) : (discEval s).bru = s.bru := by
  simp [discEval, apply_ite State.bru]

end Sys2Proof.Machine
end

section
/-!
SUPPORT. What a Brura port keeps when bundles and courses leave it and when it enters or leaves UP: the count of its course slots, and of each
lane all but what its own headers report.
-/
namespace Sys2Proof.Machine
open Sys2Proof

/-- A lane without what the headers sent on it report (R324): the CRVL of the next and the credit counts last told. -/
def receiver (k : Lane) : Lane := { k with crvl := 0, told := [] }

/-- The course slots of a port and the receivers of its lanes. -/
def portKept (p : BruPort) : Nat × List Lane := (p.slots, p.lanes.map receiver)

/-- What the Brura ports keep. -/
def portsKept (s : State) : List (Nat × List Lane) := s.bru.map portKept

theorem portsKept_of_bru {s t : State} (h : t.bru = s.bru) : portsKept t = portsKept s := congrArg (List.map portKept) h

theorem map_updAt {α β : Type} {g : α → β} {f : α → α} (hf : ∀ x, g (f x) = g x) (l : List α) (i : Nat) : (updAt l i f).map g = l.map g := by
  refine List.ext_getElem? fun j => ?_
  simp only [updAt, List.getElem?_map, List.getElem?_modify]
  split <;> simp [Function.comp_def, hf]

theorem portsKept_updBru {f : BruPort → BruPort} (hf : ∀ p, portKept (f p) = portKept p) (s : State) (b : Nat) :
    portsKept (updBru s b f) = portsKept s := map_updAt hf ..

theorem portsKept_updLane {f : Lane → Lane} (hf : ∀ k, receiver (f k) = receiver k) (s : State) (b l : Nat) :
    portsKept (updLane s b l f) = portsKept s :=
  portsKept_updBru (fun p => by exact Prod.ext rfl (map_updAt hf p.lanes l)) s b

/-! ### A lane among the ports -/

section
variable {s t : State} (h : portsKept t = portsKept s)
include h

theorem portKept_bruOf (b : Nat) : portKept (bruOf t b) = portKept (bruOf s b) := by
  have part (u : State) : portKept (bruOf u b) = (portsKept u).getD b (portKept {}) := by simp [bruOf, portsKept]
  rw [part, part, h]

theorem slots_of_kept (b : Nat) : (bruOf t b).slots = (bruOf s b).slots := congrArg Prod.fst (portKept_bruOf h b)

theorem receiver_of_kept (b l : Nat) : receiver (laneOf t b l) = receiver (laneOf s b l) := by
  have part (u : State) : receiver (laneOf u b l) = (portKept (bruOf u b)).2.getD l (receiver {}) := by simp [laneOf, portKept]
  rw [part, part, portKept_bruOf h]

theorem ports_of_kept : t.bru.length = s.bru.length := by simpa [portsKept] using congrArg List.length h

theorem lanes_of_kept (b : Nat) : (bruOf t b).lanes.length = (bruOf s b).lanes.length := by
  simpa [portKept] using congrArg (fun p => p.2.length) (portKept_bruOf h b)

end

section
variable {s : State} {b : Nat} (hb : b < s.bru.length)
include hb

theorem bruOf_updBru_same (f : BruPort → BruPort) : bruOf (updBru s b f) b = f (bruOf s b) := getD_updAt_same hb f _

theorem laneOf_updLane_same {l : Nat} (hl : l < (bruOf s b).lanes.length) (f : Lane → Lane) : laneOf (updLane s b l f) b l = f (laneOf s b l) := by
  rw [laneOf, updLane, bruOf_updBru_same hb, getD_updAt_same hl, laneOf]

end

theorem port_lt_quiet {s : State} (p : Fin 4) (ports : s.bru.length = 4) : p.val < s.quiet.bru.length := by
  rw [quiet_bru, ports]
  exact p.isLt

theorem lane_lt_quiet {s : State} {p : Fin 4} (l : Fin 2) (lanes : (bruOf s p.val).lanes.length = 2) :
    l.val < (bruOf s.quiet p.val).lanes.length := l.isLt.trans_eq lanes.symm

theorem laneOf_updLane_ne (s : State) (b : Nat) {l m : Nat} (h : l ≠ m) (f : Lane → Lane) : laneOf (updLane s b l f) b m = laneOf s b m :=
  getD_updAt_proj (fun p : BruPort => p.lanes.getD m {}) (fun _ => getD_updAt_ne _ h f _) ..

theorem updLane_updLane (s : State) (b l : Nat) (f g : Lane → Lane) : updLane (updLane s b l f) b l g = updLane s b l (g ∘ f) := by
  simp only [updLane, updBru, updAt, List.modify_modify_eq, Function.comp_def]

/-! ### A port enters or leaves UP (R331, R340) -/

theorem portsKept_ite {c : Prop} [Decidable c] {s t u : State} (ht : portsKept t = portsKept s) (hu : portsKept u = portsKept s) :
    portsKept (if c then t else u) = portsKept s := ite_induct (P := fun v => portsKept v = portsKept s) ht hu

theorem portsKept_foldl {α : Type} {f : State → α → State} (hf : ∀ s x, portsKept (f s x) = portsKept s) (l : List α) (s : State) :
    portsKept (l.foldl f s) = portsKept s :=
  foldl_induct (P := fun t => portsKept t = portsKept s) (fun t x h => (hf t x).trans h) l rfl

theorem portsKept_heldAdd (h : Option Nat) (d : Int) (s : State) : portsKept (heldAdd h d s) = portsKept s := by
  unfold heldAdd
  split
  · rfl
  · split
    · rfl
    · exact portsKept_ite (portsKept_updBru (fun _ => by rfl) _ _) rfl

theorem portsKept_portDown (b : Nat) (s : State) : portsKept (portDown b s) = portsKept s := by
  unfold portDown
  extract_lets p dropped noRoute queued line fab counts replay credits
  have told (k : List Lane) : (k.map fun l => { l with told := [0, 0, 0, 0] }).map receiver = k.map receiver := by
    rw [List.map_map]; rfl
  calc portsKept (refreshAll (topoChange (credits.evt (pgBRU b) 1)))
      = portsKept credits := portsKept_of_bru (by simp)
    _ = portsKept replay := portsKept_updBru (fun p => by exact Prod.ext rfl (told p.lanes)) ..
    _ = portsKept counts := portsKept_updBru (fun _ => by rfl) ..
    _ = portsKept fab := portsKept_updBru (fun _ => by rfl) ..
    _ = portsKept queued := portsKept_foldl (fun s x => by
        cases x with
        | none => rfl
        | some x => exact portsKept_heldAdd ..) _ _
    _ = portsKept noRoute := portsKept_foldl (fun s x => portsKept_heldAdd ..) _ _
    _ = portsKept s := portsKept_of_bru (by simp [noRoute, dropped])

theorem portsKept_portCheck (b : Nat) (s : State) : portsKept (portCheck b s) = portsKept s := by
  unfold portCheck
  extract_lets p both up wide skewed checked
  have kept : portsKept checked = portsKept s := (portsKept_updBru (fun _ => by rfl) ..).trans (portsKept_of_bru (evtIf_bru ..))
  clear_value checked
  refine portsKept_ite kept (portsKept_ite ?_ ?_) <;> refine Eq.trans ?_ kept
  · exact (portsKept_of_bru ((discEval_bru _).trans ((refreshAll_bru _).trans ((topoChange_bru _).trans (evt_bru ..))))).trans
      (portsKept_updBru (fun _ => by rfl) checked b)
  · exact (portsKept_of_bru (discEval_bru _)).trans (portsKept_portDown b checked)

end Sys2Proof.Machine
end

section
/-!
SUPPORT. The moves of a lane (R330, R332, R338): what a lane that enters a state holds, and what the other lane keeps of it.
-/
namespace Sys2Proof.Machine
open Sys2Proof

/-- A lane that has entered a state at an FT. -/
def laneEntered (n t : Nat) (k : Lane) : Lane :=
  if n = 2 then { k with state := 2, valid := 0, rxok := 0, bad := 0, noComma := 0, alt := none }
  else if n = 3 then { k with state := 3, halfAt := t, stuck := false }
  else { k with state := n }

theorem laneEntered_state (n t : Nat) (k : Lane) : (laneEntered n t k).state = n := by
  unfold laneEntered
  split
  · next e => exact e.symm
  · split
    · next e => exact e.symm
    · rfl

theorem laneTo_of_state {b l n : Nat} {s : State} (h : (laneOf s b l).state = n) : laneTo b l n s = s := if_pos h

/-- A lane's entry into a state is that alone to the lanes' receivers, whatever the port does with it. -/
theorem portsKept_laneTo {b l n : Nat} {s : State} (h : (laneOf s b l).state ≠ n) :
    portsKept (laneTo b l n s) = portsKept (updLane s b l (laneEntered n s.time.ft)) := by
  unfold laneTo
  extract_lets k moved locked half counts echo loop
  have entered : half = updLane s b l (laneEntered n s.time.ft) := by
    unfold half locked moved
    by_cases two : n = 2
    · subst two
      rw [if_pos rfl, if_neg (by decide), updLane_updLane]
      rfl
    · rw [if_neg two]
      by_cases three : n = 3
      · subst three
        rw [if_pos rfl, updLane_updLane]
        rfl
      · rw [if_neg three]
        exact congrArg (updLane s b l) (funext fun k => by rw [laneEntered, if_neg two, if_neg three])
  rw [if_neg h, portsKept_portCheck, ← entered]
  have kept {c : Prop} [Decidable c] {f : BruPort → BruPort} (hf : ∀ p, portKept (f p) = portKept p) (t : State) :
      portsKept (if c then updBru t b f else t) = portsKept t := portsKept_ite (portsKept_updBru hf t b) rfl
  exact (kept (fun _ => by rfl) echo).trans ((kept (fun _ => by rfl) counts).trans (kept (fun _ => by rfl) half))

section
variable {b l : Nat} {s : State}

@[simp] theorem updLane_ports (f : Lane → Lane) : (updLane s b l f).bru.length = s.bru.length := updAt_length ..

@[simp] theorem updLane_lanes (f : Lane → Lane) : (bruOf (updLane s b l f) b).lanes.length = (bruOf s b).lanes.length :=
  getD_updAt_proj (fun p : BruPort => p.lanes.length) (fun _ => updAt_length ..) ..

@[simp] theorem laneTo_ports (n : Nat) : (laneTo b l n s).bru.length = s.bru.length := by
  by_cases h : (laneOf s b l).state = n
  · rw [laneTo_of_state h]
  · exact (ports_of_kept (portsKept_laneTo h)).trans (updLane_ports _)

@[simp] theorem laneTo_lanes (n : Nat) : (bruOf (laneTo b l n s) b).lanes.length = (bruOf s b).lanes.length := by
  by_cases h : (laneOf s b l).state = n
  · rw [laneTo_of_state h]
  · exact (lanes_of_kept (portsKept_laneTo h) b).trans (updLane_lanes _)

/-- A lane's entry into a state leaves the other lane's receiver. -/
theorem receiver_laneTo_ne {m : Nat} (h : l ≠ m) (n : Nat) : receiver (laneOf (laneTo b l n s) b m) = receiver (laneOf s b m) := by
  by_cases at' : (laneOf s b l).state = n
  · rw [laneTo_of_state at']
  · rw [receiver_of_kept (portsKept_laneTo at'), laneOf_updLane_ne _ _ h]

section
variable (hb : b < s.bru.length) (hl : l < (bruOf s b).lanes.length)
include hb hl

theorem receiver_laneTo {n : Nat} (h : (laneOf s b l).state ≠ n) :
    receiver (laneOf (laneTo b l n s) b l) = receiver (laneEntered n s.time.ft (laneOf s b l)) := by
  rw [receiver_of_kept (portsKept_laneTo h), laneOf_updLane_same hb hl]

theorem laneTo_state (n : Nat) : (laneOf (laneTo b l n s) b l).state = n := by
  by_cases h : (laneOf s b l).state = n
  · rw [laneTo_of_state h, h]
  · exact (congrArg Lane.state (receiver_laneTo hb hl h)).trans (laneEntered_state ..)

theorem laneOf_laneDark : laneOf (laneDark b l s) b l = { laneOf (laneTo b l 0 s) b l with alt := none, prxok := false, form := (false, false) } :=
  laneOf_updLane_same (by rwa [laneTo_ports]) (by rwa [laneTo_lanes]) _

end

/-! ### Lock lost and found (R330) -/

theorem laneSeek_of_unlocked (h : (laneOf s b l).state < 2) : laneSeek b l s = s := if_pos h

theorem laneSeek_of_locked (h : 2 ≤ (laneOf s b l).state) : laneSeek b l s = laneTo b l 1 (s.bump (pgBRU b) F.BRU_st_LOCKLOSS) :=
  if_neg (Nat.not_lt.2 h)

theorem laneOf_of_bru {t : State} (h : t.bru = s.bru) (c m : Nat) : laneOf t c m = laneOf s c m := by rw [laneOf, laneOf, bruOf, bruOf, h]

theorem laneSeek_ports : (laneSeek b l s).bru.length = s.bru.length := by
  rw [laneSeek, apply_ite State.bru, apply_ite List.length, laneTo_ports, bump_bru, ite_self]

theorem laneSeek_lanes : (bruOf (laneSeek b l s) b).lanes.length = (bruOf s b).lanes.length := by
  unfold laneSeek
  split
  · rfl
  · rw [laneTo_lanes, bruOf, bump_bru, bruOf]

theorem laneSeek_state_ne {m : Nat} (h : l ≠ m) : (laneOf (laneSeek b l s) b m).state = (laneOf s b m).state := by
  unfold laneSeek
  split
  · rfl
  · have other := receiver_laneTo_ne (b := b) (s := s.bump (pgBRU b) F.BRU_st_LOCKLOSS) h 1
    rw [laneOf_of_bru (bump_bru ..)] at other
    exact (congrArg Lane.state other :)

theorem laneSeek_state (hb : b < s.bru.length) (hl : l < (bruOf s b).lanes.length) (h : 2 ≤ (laneOf s b l).state) :
    (laneOf (laneSeek b l s) b l).state = 1 := by
  rw [laneSeek_of_locked h]
  exact laneTo_state (by rwa [bump_bru]) (by rwa [bruOf, bump_bru]) 1

theorem signalDetect_idle (h : bruRuns s b = false ∨ (laneOf s b l).state ≠ 0) : signalDetect b l s = s :=
  if_neg fun e => h.elim (fun off => by simp [off] at e) fun lit => lit e.2

theorem signalDetect_of_dark (runs : bruRuns s b = true) (dark : (laneOf s b l).state = 0) : signalDetect b l s = laneTo b l 1 s :=
  if_pos ⟨runs, dark⟩

theorem commaLock_idle (pre inv : Bool) (h : (laneOf s b l).state ≠ 1) : commaLock b l pre inv s = s := if_neg h

theorem commaLock_of_seek (pre inv : Bool) (h : (laneOf s b l).state = 1) :
    commaLock b l pre inv s = laneTo b l 2 (updLane s b l fun k => { k with form := (pre, inv) }) := if_pos h

/-- A lane that locks holds the form seen, and counts from 0. -/
theorem receiver_commaLock (hb : b < s.bru.length) (hl : l < (bruOf s b).lanes.length) (pre inv : Bool) (h : (laneOf s b l).state = 1) :
    receiver (laneOf (commaLock b l pre inv s) b l) = receiver (laneEntered 2 s.time.ft { laneOf s b l with form := (pre, inv) }) := by
  have formed := laneOf_updLane_same hb hl fun k => { k with form := (pre, inv) }
  rw [commaLock_of_seek pre inv h, receiver_laneTo (by rwa [updLane_ports]) (by rwa [updLane_lanes]) (by rw [formed, h]; decide), formed]
  rfl

/-! ### HALF and the replay timer (R332, R338) -/

theorem halfStuck_idle (h : (laneOf s b l).state ≠ 3 ∨ (laneOf s b l).stuck = true) : halfStuck b l s = s :=
  if_neg fun e => h.elim (fun no => no e.1) fun set => by simp [set] at e

theorem halfStuck_of_half (half : (laneOf s b l).state = 3) (first : (laneOf s b l).stuck = false) :
    halfStuck b l s = (updLane s b l fun k => { k with stuck := true }).evt (pgBRU b) 2 := if_pos ⟨half, by simp [first]⟩

theorem replayExpiry_idle (h : (bruOf s b).up = false ∨ (bruOf s b).sent = []) : replayExpiry b s = s :=
  if_pos (h.imp (fun e => by simp [e]) fun e => by simp [e])

section
variable (up : (bruOf s b).up = true) (sent : (bruOf s b).sent ≠ [])
include up sent

theorem replay_outstanding : ¬ ((!(bruOf s b).up) = true ∨ (bruOf s b).sent.isEmpty = true) := by simp [up, sent]

theorem replayExpiry_of_few (h : (bruOf s b).expiries < 7) :
    replayExpiry b s = updBru s b fun p => { p with expiries := p.expiries + 1, replayDue := true } :=
  (if_neg (replay_outstanding up sent)).trans (if_neg (Nat.not_le.2 h))

theorem replayExpiry_of_many (h : 7 ≤ (bruOf s b).expiries) : replayExpiry b s = laneSeek b 1 (laneSeek b 0 (s.evt (pgBRU b) 4)) :=
  (if_neg (replay_outstanding up sent)).trans (if_pos h)

end

/-- A port given up has both its lanes in SEEK. -/
theorem laneSeek_both {b : Nat} {s : State} (hb : b < s.bru.length) (lanes : (bruOf s b).lanes.length = 2) (h0 : 2 ≤ (laneOf s b 0).state)
    (h1 : 2 ≤ (laneOf s b 1).state) : (laneOf (laneSeek b 1 (laneSeek b 0 s)) b 0).state = 1 ∧ (laneOf (laneSeek b 1 (laneSeek b 0 s)) b 1).state = 1 := by
  have kept : (laneOf (laneSeek b 0 s) b 1).state = (laneOf s b 1).state := laneSeek_state_ne (by decide)
  refine ⟨(laneSeek_state_ne (by decide)).trans (laneSeek_state hb (by omega) h0), laneSeek_state ?_ ?_ (by rwa [kept])⟩
  · rwa [laneSeek_ports]
  · rw [laneSeek_lanes]; omega

end

/-! ### The commands -/

theorem exec_signalDetect (p : Fin 4) (l : Fin 2) (s : State) : exec (.signalDetect p l) s = .next (signalDetect p.val l.val s.quiet) := rfl
theorem exec_signalLoss (p : Fin 4) (l : Fin 2) (s : State) : exec (.signalLoss p l) s = .next (laneDark p.val l.val s.quiet) := rfl
theorem exec_commaLoss (p : Fin 4) (l : Fin 2) (s : State) : exec (.commaLoss p l) s = .next (laneSeek p.val l.val s.quiet) := rfl
theorem exec_commaLock (p : Fin 4) (l : Fin 2) (a b : Bool) (s : State) :
    exec (.commaLock p l a b) s = .next (commaLock p.val l.val a b s.quiet) := rfl
theorem exec_halfstuck (p : Fin 4) (l : Fin 2) (s : State) : exec (.halfstuck p l) s = .next (halfStuck p.val l.val s.quiet) := rfl
theorem exec_replayTimerExpiry (p : Fin 4) (s : State) : exec (.replayTimerExpiry p) s = .next (replayExpiry p.val s.quiet) := rfl

/-- Settles O32, command by command from what a lane's entry into a state makes of it. -/
theorem bruraLanes : Obligations.BruraLanes := by
  refine ⟨?noDetect, ?moves, ?noLoss, ?noLock, ?noStuck, ?stuck, ?noReplay, ?replay, ?givenUp⟩
  case noDetect =>
    intro p l s h
    rw [exec_signalDetect, signalDetect_idle (s := s.quiet) h]
  case moves =>
    intro p l s ports lanes
    have hb := port_lt_quiet p ports
    have hl := lane_lt_quiet l lanes
    refine ⟨fun runs dark => ⟨_, exec_signalDetect p l s, ?_⟩, ⟨_, exec_signalLoss p l s, ?_⟩, fun locked => ⟨_, exec_commaLoss p l s, ?_⟩,
      fun a b seek => ⟨_, exec_commaLock p l a b s, ?_⟩⟩
    · rw [signalDetect_of_dark (s := s.quiet) runs dark]
      exact laneTo_state hb hl 1
    · rw [laneOf_laneDark hb hl]
      exact ⟨laneTo_state hb hl 0, rfl, rfl⟩
    · exact laneSeek_state hb hl locked
    · have entered := receiver_commaLock hb hl a b seek
      exact ⟨congrArg Lane.state entered, congrArg Lane.form entered, congrArg Lane.valid entered⟩
  case noLoss =>
    intro p l s h
    rw [exec_commaLoss, laneSeek_of_unlocked (s := s.quiet) h]
  case noLock =>
    intro p l a b s h
    rw [exec_commaLock, commaLock_idle (s := s.quiet) a b h]
  case noStuck =>
    intro p l s h
    rw [exec_halfstuck, halfStuck_idle (s := s.quiet) h]
  case stuck =>
    intro p l s half first
    rw [exec_halfstuck, halfStuck_of_half (s := s.quiet) half first]
  case noReplay =>
    intro p s h
    rw [exec_replayTimerExpiry, replayExpiry_idle (s := s.quiet) h]
  case replay =>
    intro p s up sent few
    rw [exec_replayTimerExpiry, replayExpiry_of_few (s := s.quiet) up sent few]
  case givenUp =>
    intro p s up sent many ports lanes h0 h1
    have bru : (s.quiet.evt (pgBRU p.val) 4).bru = s.bru := evt_bru ..
    refine ⟨_, (exec_replayTimerExpiry p s).trans (congrArg _ (replayExpiry_of_many (s := s.quiet) up sent many)), laneSeek_both ?_ ?_ ?_ ?_⟩
    · rw [bru, ports]; exact p.isLt
    · rwa [bruOf, bru]
    · rwa [laneOf_of_bru bru]
    · rwa [laneOf_of_bru bru]

end Sys2Proof.Machine
end

section
/-!
SUPPORT. What the course of a DATA position keeps (R334 to R339): what the ports keep, and every page's mode in force. A tile quarter that a
publisher supplies is read from the frame store, whose errors are recorded on FS.
-/
namespace Sys2Proof.Machine
open Sys2Proof

/-- The second state has the course slots and the lanes' receivers of the first, and every page's EFF. -/
structure DataFrame (s t : State) : Prop where
  ports : portsKept t = portsKept s
  modes : ∀ q, t.reg q 0x00C = s.reg q 0x00C

namespace DataFrame
variable {s t u : State}

theorem refl (s : State) : DataFrame s s := ⟨rfl, fun _ => rfl⟩

theorem trans (h : DataFrame s t) (h' : DataFrame t u) : DataFrame s u :=
  ⟨h'.ports.trans h.ports, fun q => (h'.modes q).trans (h.modes q)⟩

theorem ite {c : Prop} [Decidable c] (ht : DataFrame s t) (hu : DataFrame s u) : DataFrame s (if c then t else u) :=
  ite_induct (P := DataFrame s) ht hu

theorem foldl {α : Type} {f : State → α → State} (hf : ∀ s x, DataFrame s (f s x)) (l : List α) (s : State) : DataFrame s (l.foldl f s) :=
  foldl_induct (P := DataFrame s) (fun t x h => h.trans (hf t x)) l (refl s)

theorem foldl_fst {α β : Type} {f : State × β → α → State × β} (hf : ∀ p x, DataFrame p.1 (f p x).1) (l : List α) (p : State × β) :
    DataFrame p.1 (l.foldl f p).1 :=
  List.foldlRecOn (motive := fun q => DataFrame p.1 q.1) l f (refl _) fun q h x _ => h.trans (hf q x)

theorem of_eq (hb : t.bru = s.bru) (hr : t.regs = s.regs) : DataFrame s t := ⟨portsKept_of_bru hb, fun q => reg_of_regs hr q _⟩

theorem memory (s : State) (mm : MemState) : DataFrame s { s with mm := mm } := of_eq rfl rfl

theorem updBru {f : BruPort → BruPort} (hf : ∀ p, portKept (f p) = portKept p) (s : State) (b : Nat) : DataFrame s (updBru s b f) :=
  ⟨portsKept_updBru hf s b, fun _ => rfl⟩

theorem bump (s : State) (p : Nat) (f : Fld) (n k : Nat) : DataFrame s (s.bump p f n k) := of_eq (bump_bru ..) (bump_regs ..)

theorem setReg (s : State) (p : Nat) {off : Nat} (v : Word) (ho : off < 4096) (h : off ≠ 0x00C) : DataFrame s (s.setReg p off v) :=
  ⟨rfl, fun q => reg_setReg_ne _ _ _ _ _ _ fun e => h ((regKey_inj (by decide) ho).1 e).2.symm⟩

theorem set (s : State) (p : Nat) {f : Fld} (v : Nat) (ho : f.off + f.stride * 0 < 4096) (h : f.off + f.stride * 0 ≠ 0x00C) :
    DataFrame s (s.set p f v) := setReg s p _ ho h

theorem fault (s : State) (p c off a : Nat) : DataFrame s (s.fault p c off a) :=
  (setReg s p _ (by decide) (by decide)).trans (setReg _ p _ (by decide) (by decide))

theorem evt (s : State) {p : Nat} (hp : p < 256) (bit : Nat) : DataFrame s (s.evt p bit) :=
  ⟨portsKept_of_bru (evt_bru ..), fun _ => evt_reg _ _ hp (by decide) (by simp [EventReg])⟩

/-! ### The frame store read (R415 to R417, R438) -/

theorem recordErr (unc sram : Bool) (source word : Nat) (s : State) : DataFrame s (recordErr unc sram source word s) := by
  unfold Machine.recordErr
  extract_lets had fields four recorded faulted
  have held : DataFrame s recorded := by
    unfold recorded four fields
    split
    · exact refl s
    · refine DataFrame.trans (DataFrame.trans (DataFrame.trans (DataFrame.trans (DataFrame.trans (set s pgFS _ ?_ ?_) (set _ pgFS _ ?_ ?_))
        (set _ pgFS _ ?_ ?_)) (set _ pgFS _ ?_ ?_)) (set _ pgFS _ ?_ ?_)) (set _ pgFS _ ?_ ?_) <;> decide
  exact (held.trans (ite (fault ..) (refl _))).trans (evt _ (by decide) _)

theorem checkWord (w : Who) (sram : Bool) (word : Nat) (s : State) : DataFrame s (checkWord w sram word s).1 := by
  unfold Machine.checkWord
  split
  · exact refl s
  · dsimp only
    split
    · exact ((memory ..).trans (bump ..)).trans (recordErr ..)
    · exact recordErr ..

theorem checkRead (w : Who) (sram : Bool) (words : List Nat) (s : State) : DataFrame s (checkRead w sram words s).1 := by
  unfold Machine.checkRead countUnc
  refine DataFrame.trans (foldl_fst (fun p x => ?_) words (s, true)) (ite (refl _) (bump ..))
  exact checkWord ..

theorem checkWords (w : Who) (a n : Nat) (s : State) : DataFrame s (checkWords w false a n s).1 :=
  foldl_fst (fun p b => by exact checkRead ..) (burstsOf a n) (s, true)

theorem ownGrants (w : Who) (a n : Nat) (s : State) : DataFrame s (ownGrants w a n s) :=
  ite (foldl (fun _ _ => (bump ..).trans (bump ..)) _ s) (refl s)

theorem region_above {a : Nat} (h : fsBase ≤ a) : region a = .fs ∨ region a = .hole := by
  have above : 0x100000000 ≤ a := h
  unfold region
  rw [if_neg (by omega), if_neg (by omega), if_neg (by omega), if_neg (by omega)]
  split
  · exact .inl rfl
  · exact .inr rfl

/-- A read at an address of the frame store or beyond. -/
theorem rd {a : Nat} (h : fsBase ≤ a) (w : Who) (n : Nat) (s : State) : DataFrame s (rd w a n s).1 := by
  refine (ownGrants w a n s).trans ?_
  have other {r : Region} (hf : r ≠ .fs) (hh : r ≠ .hole) : ¬ inRange r a n = true := by
    rcases region_above h with e | e <;> simp [inRange, e, hf.symm, hh.symm]
  unfold Machine.rd rdMem
  rw [if_neg (other (by decide) (by decide)), if_neg (other (by decide) (by decide)), if_neg (other (by decide) (by decide))]
  split
  · split
    · exact refl _
    · exact checkWords ..
  · exact refl _

/-! ### Bundles on their way out (R336, R362 to R372) -/

theorem updFab (s : State) (f : FabState → FabState) : DataFrame s (updFab s f) := of_eq rfl rfl

theorem heldAdd (h : Option Nat) (d : Int) (s : State) : DataFrame s (heldAdd h d s) := by
  refine ⟨portsKept_heldAdd h d s, fun q => reg_of_regs ?_ q _⟩
  unfold Machine.heldAdd
  split
  · rfl
  · split
    · rfl
    · simp [apply_ite State.regs]

theorem toPort (vl b : Nat) (h : Option Nat) (bytes : List Byte) (s : State) : DataFrame s (toPort vl b h bytes s) :=
  ite ((updBru (fun _ => by rfl) s b).trans (heldAdd ..)) (bump ..)

theorem leave (vl : Nat) (h : Option Nat) (forwarded : Bool) (ports : List Nat) (bytes : List Byte) (s : State) :
    DataFrame s (leave vl h forwarded ports bytes s) :=
  ite (refl s) (ite (bump ..) ((ite (bump ..) (refl s)).trans (foldl (fun _ _ => toPort ..) ports _)))

theorem pubNext (p : Nat) (s : State) : DataFrame s (pubNext p s).1 := by
  unfold Machine.pubNext
  extract_lets k get v q tile wide high base adv lost
  by_cases none' : k.total ≤ k.next
  · rw [if_pos none']
    exact refl s
  · rw [if_neg none']
    dsimp -zeta -zetaHave only
    extract_lets line m counted
    have read : DataFrame s ((List.range 8).foldl line (s, some [])).1 :=
      foldl_fst (f := line) (fun x y => rd (Nat.le_trans (Nat.le_add_right fsBase base) (by omega)) ..) _ (s, some [])
    have numbered : DataFrame s counted := read.trans (updFab ..)
    have tileLost (t : State) : DataFrame t (lost t) := (bump ..).trans (evt _ (by decide) _)
    have advanced (bad : Bool) (t : State) : DataFrame t (adv bad t) := updFab ..
    clear_value adv lost counted
    split
    · exact numbered.trans (DataFrame.trans (leave ..) (DataFrame.trans (ite (bump ..) (refl _)) (advanced false _)))
    · exact read.trans (DataFrame.trans (ite (tileLost _) (refl _)) (advanced true _))

/-! ### A DATA course (R338, R339) -/

theorem startBundle (b : Nat) (x : Bundle) (s : State) : DataFrame s (startBundle b x s) :=
  (bump ..).trans (updBru (fun p => by dsimp only; split <;> rfl) _ b)

theorem sendSegment (b : Nat) (cue : Bool) (x : Bundle) (pos : Nat) (s : State) : DataFrame s (sendSegment b cue x pos s).1 := by
  unfold Machine.sendSegment
  obtain ⟨pl, n⟩ := segment x (bruOf s b).txSeq pos
  dsimp only
  split
  · exact updBru (fun p => by split <;> rfl) s b
  · exact (updBru (fun p => by split <;> rfl) s b).trans (heldAdd ..)

theorem replayStart (b : Nat) (s : State) : DataFrame s (replayStart b s) :=
  ite ((ite (refl s) (bump ..)).trans (updBru (fun _ => by rfl) _ b)) (refl s)

theorem dataCourse (b : Nat) (s : State) : DataFrame s (dataCourse b s).1 := by
  unfold Machine.dataCourse
  extract_lets t p
  refine (replayStart b s).trans ?_
  change DataFrame t _
  clear_value t
  split
  case h_1 e rest _ =>
    obtain ⟨pl, n⟩ := segment e.b e.seq p.replayPos
    have counted : DataFrame t (if p.replayPos = 0 then t.bump (pgBRU b) F.BRU_st_REPLAYBUND else t) := ite (bump ..) (refl t)
    dsimp only
    split
    · exact counted.trans (updBru (fun _ => by rfl) _ b)
    · exact counted.trans (updBru (fun _ => by rfl) _ b)
  case h_2 =>
    split
    · exact sendSegment ..
    · split
      · exact (startBundle ..).trans (sendSegment ..)
      · split
        · exact sendSegment ..
        · split
          · exact refl t
          · have supplied : DataFrame t (if (p.ready.any fun x => decide (x.vl = 2)) = true ∨ (!inRun t pgFAB) = true then t else
                (Machine.pubNext 1 (Machine.pubNext 0 t).1).1) := ite (refl t) ((pubNext 0 t).trans (pubNext 1 _))
            dsimp only
            split
            · exact supplied.trans ((startBundle ..).trans (sendSegment ..))
            · exact supplied

end DataFrame

end Sys2Proof.Machine
end

section
/-!
SUPPORT. A course slot (R322, R323, R328): the courses that leave with it, and what they and the port keep.
-/
namespace Sys2Proof.Machine
open Sys2Proof

/-! ### The symbols of a course -/

theorem comma_length (l : Nat) : (comma l).length = 16 := by
  unfold comma
  split <;> rfl

/-- A course without precoding and inversion begins with its lane's comma. -/
theorem courseSyms_comma (l : Nat) (h : Word) (pl : List Byte) : (courseSyms false false l h pl).take 16 = comma l := by
  simp only [courseSyms, Bool.false_eq_true, if_false, List.append_assoc]
  exact List.take_left' (comma_length l)

/-! ### One lane's course -/

theorem bruOf_updBru_up {f : BruPort → BruPort} (hf : ∀ p, (f p).up = p.up) (s : State) (b : Nat) :
    (bruOf (updBru s b f) b).up = (bruOf s b).up := getD_updAt_proj (fun p : BruPort => p.up) hf ..

section
variable (b l type : Nat) (pl : List Byte) (s : State)

theorem sendCourse_out : (sendCourse b l type pl s).1.out = s.out ++ [.course b l (sendCourse b l type pl s).2] := rfl

theorem sendCourse_regs : (sendCourse b l type pl s).1.regs = s.regs := rfl

theorem sendCourse_up : (bruOf (sendCourse b l type pl s).1 b).up = (bruOf s b).up := bruOf_updBru_up (fun _ => by rfl) s b

theorem sendCourse_frame : DataFrame s (sendCourse b l type pl s).1 :=
  ⟨portsKept_updLane (fun _ => by rfl) s b l, fun _ => rfl⟩

theorem sendCourse_comma (plain : s.flag (pgBRU b) F.BRU_CFG_PRECODE = false)
    (upright : s.flag (pgBRU b) (if l = 0 then F.BRU_CFG_TXINV0 else F.BRU_CFG_TXINV1) = false) :
    (sendCourse b l type pl s).2.take 16 = comma l := by
  change (courseSyms (s.flag _ _) (s.flag _ _) l _ pl).take 16 = comma l
  rw [plain, upright, courseSyms_comma]

end

/-! ### The lanes of a slot (R328) -/

theorem dataOrNone_frame (b : Nat) (s : State) : DataFrame s (if sendsData s b = true then dataCourse b s else (s, none)).1 := by
  split
  · exact DataFrame.dataCourse b s
  · exact DataFrame.refl s

theorem slotLane1_frame (b : Nat) (s : State) : DataFrame s (slotLane1 b s).1 := by
  unfold slotLane1
  have sent := dataOrNone_frame b s
  split
  case h_1 e | h_2 e =>
    rw [e] at sent
    exact sent.trans (sendCourse_frame ..)

theorem slotLane0_frame (b : Nat) (s : State) : DataFrame s (slotLane0 b s).1 := by
  unfold slotLane0
  extract_lets p timed flags ctrled
  split
  · exact (DataFrame.updBru (fun _ => by rfl) s b).trans (sendCourse_frame ..)
  · split
    · exact (DataFrame.updBru (fun _ => by rfl) s b).trans (sendCourse_frame ..)
    · have sent := dataOrNone_frame b s
      split
      case h_1 e | h_2 e =>
        rw [e] at sent
        exact sent.trans (sendCourse_frame ..)

section
variable {b : Nat} {s : State} (still : flows s b = false)
include still

theorem slotLane1_of_still : slotLane1 b s = sendCourse b 1 0 (List.replicate 256 0) s := by
  rw [slotLane1, sendsData, still]
  rfl

/-- Lane 0 of a port on which no bundles flow sends TIME, CTRL or IDLE. -/
theorem slotLane0_of_still :
    ∃ type pl f, (∀ p : BruPort, (f p).up = p.up) ∧ slotLane0 b s = sendCourse b 0 type pl (updBru s b f) := by
  unfold slotLane0
  extract_lets p timed flags ctrled
  split
  · exact ⟨_, _, _, fun _ => by rfl, rfl⟩
  · split
    · exact ⟨_, _, _, fun _ => by rfl, rfl⟩
    · refine ⟨0, List.replicate 256 0, id, fun _ => rfl, ?_⟩
      rw [sendsData, still, updBru, updAt, List.modify_id]
      rfl

end

theorem flows_of {s t : State} {b : Nat} (up : (bruOf t b).up = (bruOf s b).up) (regs : t.regs = s.regs) : flows t b = flows s b := by
  rw [flows, flows, up, effMode, effMode, get_of_regs regs]

/-! ### The slot -/

/-- A course slot counted, with the TIME and CTRL courses that fall due in it. -/
def slotCounted (b : Nat) (s : State) : State :=
  let n := (bruOf s b).slots
  updBru s b fun p => { p with
    slots := n + 1
    timeDue := p.timeDue || decide (n % 2 ^ s.get (pgBRU b) F.BRU_CFG_TIMELOG = 0)
    ctrlDue := p.ctrlDue || (decide (n % 1024 = 0) || decide (ctrlFlags s b ≠ (bruOf s b).flags)) }

theorem courseSlot_idle {b : Nat} {s : State} (h : bruRuns s b = false ∨ (bruOf s b).flbActive = true) : courseSlot b s = s :=
  if_pos (h.imp_left fun e => by simp [e])

theorem bruTest_of_frame {s t : State} (h : DataFrame s t) (b : Nat) : bruTest t b = bruTest s b := by
  have mode : effMode t (pgBRU b) = effMode s (pgBRU b) := congrArg (bitsOf · 0 2) (h.modes (pgBRU b))
  rw [bruTest, bruTest, mode]

section
variable {b : Nat} {s : State} (runs : bruRuns s b = true) (own : (bruOf s b).flbActive = false) (line : bruTest s b = false)
include runs own line

theorem courseSlot_of_line : courseSlot b s = (slotLane1 b (slotLane0 b (slotCounted b s)).1).1 := by
  have frame : DataFrame (slotCounted b s) (slotLane1 b (slotLane0 b (slotCounted b s)).1).1 := (slotLane0_frame ..).trans (slotLane1_frame ..)
  have after : bruTest (slotLane1 b (slotLane0 b (slotCounted b s)).1).1 b = false := (bruTest_of_frame frame b).trans line
  unfold courseSlot
  rw [if_neg (by simp [runs, own])]
  exact if_neg fun e => Bool.noConfusion (after.symm.trans e.1)

theorem courseSlot_slots (hb : b < s.bru.length) : (bruOf (courseSlot b s) b).slots = (bruOf s b).slots + 1 := by
  rw [courseSlot_of_line runs own line, slots_of_kept ((slotLane0_frame ..).trans (slotLane1_frame ..)).ports, slotCounted, bruOf_updBru_same hb]

/-- Where no bundles flow the slot sends one course on each lane. -/
theorem courseSlot_of_still (still : flows s b = false) :
    ∃ x y, (courseSlot b s).out = s.out ++ [.course b 0 x, .course b 1 y] ∧ (s.flag (pgBRU b) F.BRU_CFG_PRECODE = false →
      (s.flag (pgBRU b) F.BRU_CFG_TXINV0 = false → x.take 16 = comma 0) ∧ (s.flag (pgBRU b) F.BRU_CFG_TXINV1 = false → y.take 16 = comma 1)) := by
  have counted : flows (slotCounted b s) b = false := (flows_of (bruOf_updBru_up (fun _ => by rfl) s b) rfl).trans still
  obtain ⟨type, pl, f, up, lane0⟩ := slotLane0_of_still counted
  have second : flows (slotLane0 b (slotCounted b s)).1 b = false := by
    rw [lane0, flows_of ((sendCourse_up ..).trans (bruOf_updBru_up up _ b)) rfl, counted]
  refine ⟨(slotLane0 b (slotCounted b s)).2, (slotLane1 b (slotLane0 b (slotCounted b s)).1).2, ?_, fun plain => ⟨fun inv0 => ?_, fun inv1 => ?_⟩⟩
  · rw [courseSlot_of_line runs own line, slotLane1_of_still second, sendCourse_out, lane0, sendCourse_out, List.append_assoc]
    rfl
  · rw [lane0]
    exact sendCourse_comma _ _ _ _ _ plain inv0
  · rw [slotLane1_of_still second, lane0]
    exact sendCourse_comma _ _ _ _ _ plain inv1

end

end Sys2Proof.Machine
end

section
/-!
SUPPORT. A course received (R323, R324, R327, R328, R330, R333): which courses are ignored, and what the others' header and codeword bring.
-/
namespace Sys2Proof.Machine
open Sys2Proof

section
variable {b l : Nat} {s : State}

theorem courseAtBalls_ignored (sym : List Nat) (t skew : Nat) (h : bruRuns s b = false ∨
    (bruTest s b = true ∧ (s.get (pgBRU b) F.BRU_CFG_LOOP = 1 ∨ s.get (pgBRU b) F.BRU_CFG_LOOP = 2)) ∨
    ((bruOf s b).flbActive = false ∧ (laneOf s b l).state < 2)) : courseAtBalls b l sym t skew s = s := by
  unfold courseAtBalls
  dsimp only
  split
  · rfl
  · next reached =>
    rcases h with stopped | own | ⟨loop, dark⟩
    · exact absurd (.inl (by simp [stopped])) reached
    · exact absurd (.inr own) reached
    · rw [loop]
      exact if_pos dark

/-- A lane on which a course has come with a comma. -/
def commaSeen (b l : Nat) (s : State) : State := updLane s b l fun k => { k with alt := none, noComma := 0 }

section
variable (runs : bruRuns s b = true) (line : bruTest s b = false) (own : (bruOf s b).flbActive = false)
  (locked : 2 ≤ (laneOf s b l).state) (ready : (laneOf s b l).alt = none) {sym : List Nat}
  (form : commaForm l (sym.take 16) = some (laneOf s b l).form) (hb : b < s.bru.length) (hl : l < (bruOf s b).lanes.length)
include runs line own locked ready form hb hl

/-- A course with the lane's comma is decoded in the lane's form. -/
theorem courseAtBalls_of_comma (t skew : Nat) :
    courseAtBalls b l sym t skew s = decodeCourse b l (laneOf s b l).form sym t skew (commaSeen b l s) := by
  have lane : laneOf (commaSeen b l s) b l = { laneOf s b l with alt := none, noComma := 0 } := laneOf_updLane_same hb hl _
  unfold courseAtBalls
  dsimp only
  rw [if_neg (by simp [runs, line]), own, if_neg Bool.false_ne_true]
  unfold courseIn
  dsimp only
  rw [if_neg (Nat.not_lt.2 locked), form, ready]
  dsimp only
  change (if 48 ≤ (laneOf (commaSeen b l s) b l).noComma then _ else if _ = (laneOf (commaSeen b l s) b l).form then
    decodeCourse b l (laneOf (commaSeen b l s) b l).form sym t skew (commaSeen b l s) else _) = _
  rw [lane]
  exact (if_neg (by decide : ¬ 48 ≤ 0)).trans (if_pos rfl)

end

/-! ### What a decoded course brings -/

/-- A course counted, with the skew measured on it. -/
def courseCounted (b skew : Nat) (s : State) : State :=
  updBru (s.bump (pgBRU b) F.BRU_st_COURSES) b fun p => { p with skew := min 255 skew }

/-- A course's header taken: a reserved TYPE is counted by it. -/
def headerTaken (b l : Nat) (h : Word) (s : State) : State :=
  let t := if hdrValid h then headerIn b l h s else headerBad b l s
  portCheck b (if hdrValid h ∧ 4 ≤ bitsOf h 28 4 then t.bump (pgBRU b) F.BRU_st_BADTYPE else t)

/-- What the payload of a course brings by its header's TYPE. -/
def contentTaken (b l t : Nat) (h : Word) (pl : List Byte) (s : State) : State :=
  if !hdrValid h then s
  else match bitsOf h 28 4 with
    | 0 => s
    | 1 => dataSegment b pl s
    | 2 => if l = 0 then timeCourse b t pl s else s
    | 3 => if l = 0 then ctrlCourse b pl s else s
    | _ => s

/-- A codeword received: decoded, it brings what `f` makes of its payload; else the course is failed (R327). -/
def codewordTaken (b : Nat) (code : List Byte) (f : List Byte → State → State) (s : State) : State :=
  match rsDecode code with
  | none => failedCourse b s
  | some (pl, n) => f pl (s.bump (pgBRU b) F.BRU_st_RSCORR n)

theorem decodeCourse_of_locked (locked : 2 ≤ (laneOf s b l).state) (form : Bool × Bool) (sym : List Nat) (t skew : Nat) :
    decodeCourse b l form sym t skew s =
      codewordTaken b (courseBits l form sym).2 (contentTaken b l t (courseBits l form sym).1)
        (headerTaken b l (courseBits l form sym).1 (courseCounted b skew s)) := by
  unfold decodeCourse
  rw [if_neg (Nat.not_lt.2 locked)]
  rfl

end

section
variable {b l : Nat} {h : Word} {s : State}

theorem headerTaken_invalid (bad : hdrValid h = false) : headerTaken b l h s = portCheck b (headerBad b l s) := by simp [headerTaken, bad]

theorem contentTaken_invalid (bad : hdrValid h = false) (t : Nat) : contentTaken b l t h = fun _ s => s := by
  funext pl s
  simp [contentTaken, bad]

section
variable (valid : hdrValid h = true)
include valid

theorem headerTaken_known (known : bitsOf h 28 4 < 4) : headerTaken b l h s = portCheck b (headerIn b l h s) := by
  simp [headerTaken, valid, Nat.not_le.2 known]

theorem headerTaken_reserved (reserved : 4 ≤ bitsOf h 28 4) :
    headerTaken b l h s = portCheck b ((headerIn b l h s).bump (pgBRU b) F.BRU_st_BADTYPE) := by
  simp [headerTaken, valid, reserved]

theorem contentTaken_idle (t : Nat) (type : bitsOf h 28 4 = 0) : contentTaken b l t h = fun _ s => s := by
  funext pl s
  simp [contentTaken, valid, type]

theorem contentTaken_data (t : Nat) (type : bitsOf h 28 4 = 1) : contentTaken b l t h = dataSegment b := by
  funext pl s
  simp [contentTaken, valid, type]

theorem contentTaken_time (t : Nat) (type : bitsOf h 28 4 = 2) (lane : l = 0) : contentTaken b l t h = timeCourse b t := by
  funext pl s
  simp [contentTaken, valid, type, lane]

theorem contentTaken_ctrl (t : Nat) (type : bitsOf h 28 4 = 3) (lane : l = 0) : contentTaken b l t h = ctrlCourse b := by
  funext pl s
  simp [contentTaken, valid, type, lane]

theorem contentTaken_reserved (t : Nat) (reserved : 4 ≤ bitsOf h 28 4) : contentTaken b l t h = fun _ s => s := by
  funext pl s
  obtain ⟨n, type⟩ := Nat.exists_eq_add_of_le' reserved
  simp [contentTaken, valid, type]

end
end

section
variable {b l : Nat} {s : State} (runs : bruRuns s b = true) (line : bruTest s b = false) (own : (bruOf s b).flbActive = false)
  (locked : 2 ≤ (laneOf s b l).state) (ready : (laneOf s b l).alt = none) {sym : List Nat}
  (form : commaForm l (sym.take 16) = some (laneOf s b l).form) (hb : b < s.bru.length) (hl : l < (bruOf s b).lanes.length)
include runs line own locked ready form hb hl

/-- A course with the lane's comma brings what its header does, and then what its codeword does. -/
theorem courseAtBalls_of_form {x : Word × List Byte} (hx : x = courseBits l (laneOf s b l).form sym) (t skew : Nat) :
    courseAtBalls b l sym t skew s =
      codewordTaken b x.2 (contentTaken b l t x.1) (headerTaken b l x.1 (courseCounted b skew (commaSeen b l s))) := by
  have lane := laneOf_updLane_same hb hl fun k => { k with alt := none, noComma := 0 }
  have state : (laneOf (commaSeen b l s) b l).state = (laneOf s b l).state := (congrArg Lane.state lane :)
  rw [courseAtBalls_of_comma runs line own locked ready form hb hl, decodeCourse_of_locked (by rwa [state]), hx]

end

/-! ### The commands -/

theorem exec_courseSlot (p : Fin 4) (s : State) : exec (.courseSlot p) s = .next (courseSlot p.val s.quiet) := rfl

section
variable (p : Fin 4) (l : Fin 2) (sym : List Nat) (t k : Nat) (s : State)

theorem exec_dataCourseReceive : exec (.dataCourseReceive p l sym t k) s = .next (courseAtBalls p.val l.val sym t k s.quiet) := rfl
theorem exec_timeCourseReceive : exec (.timeCourseReceive p l sym t k) s = .next (courseAtBalls p.val l.val sym t k s.quiet) := rfl
theorem exec_ctrlCourseReceive : exec (.ctrlCourseReceive p l sym t k) s = .next (courseAtBalls p.val l.val sym t k s.quiet) := rfl
theorem exec_idleCourseReceive : exec (.idleCourseReceive p l sym t k) s = .next (courseAtBalls p.val l.val sym t k s.quiet) := rfl

end

/-- Settles O31, from what a slot sends, and for a course received from what its header and then its codeword bring. -/
theorem bruraCourses : Obligations.BruraCourses := by
  refine ⟨?stopped, ?slot, ?ignored, ?valid, ?invalid⟩
  case stopped =>
    intro p s h
    rw [exec_courseSlot, courseSlot_idle (s := s.quiet) h]
  case slot =>
    intro p s runs own line ports
    refine ⟨⟨_, exec_courseSlot p s, courseSlot_slots (s := s.quiet) runs own line (port_lt_quiet p ports)⟩, fun still => ?_⟩
    obtain ⟨x, y, sent, commas⟩ := courseSlot_of_still (s := s.quiet) runs own line still
    exact ⟨_, x, y, exec_courseSlot p s, sent, commas⟩
  case ignored =>
    intro p l sym t k s h
    rw [exec_dataCourseReceive, exec_timeCourseReceive, exec_ctrlCourseReceive, exec_idleCourseReceive,
      courseAtBalls_ignored (s := s.quiet) sym t k h]
    exact ⟨rfl, rfl, rfl, rfl⟩
  case valid =>
    intro p l sym t k x s h q r runs line own locked ready form ports lanes hx valid hh hq hr
    have hb := port_lt_quiet p ports
    have hl := lane_lt_quiet l lanes
    rw [exec_dataCourseReceive, exec_timeCourseReceive, exec_ctrlCourseReceive, exec_idleCourseReceive,
      courseAtBalls_of_form (s := s.quiet) runs line own locked ready form hb hl hx]
    have known (type : bitsOf x.1 28 4 < 4) :
        headerTaken p.val l.val x.1 (courseCounted p.val k (commaSeen p.val l.val s.quiet)) = q :=
      (headerTaken_known valid type).trans (by rw [hq, hh]; rfl)
    have reserved (type : 4 ≤ bitsOf x.1 28 4) :
        headerTaken p.val l.val x.1 (courseCounted p.val k (commaSeen p.val l.val s.quiet)) = r :=
      (headerTaken_reserved valid type).trans (by rw [hr, hh]; rfl)
    refine ⟨fun type => ?_, fun type => ?_, fun type => ?_, fun type lane0 => ?_, fun type lane0 => ?_⟩
    · rw [known (by omega), contentTaken_idle valid t type]
      rfl
    · rw [reserved type, contentTaken_reserved valid t type]
      rfl
    · rw [known (by omega), contentTaken_data valid t type]
      rfl
    · rw [known (by omega), contentTaken_time valid t type (congrArg Fin.val lane0)]
      rfl
    · rw [known (by omega), contentTaken_ctrl valid t type (congrArg Fin.val lane0)]
      rfl
  case invalid =>
    intro p l sym t k x s q runs line own locked ready form ports lanes hx bad hq
    have hb := port_lt_quiet p ports
    have hl := lane_lt_quiet l lanes
    rw [exec_idleCourseReceive, courseAtBalls_of_form (s := s.quiet) runs line own locked ready form hb hl hx, headerTaken_invalid bad,
      contentTaken_invalid bad, hq]
    rfl

end Sys2Proof.Machine
end


section
/-!
SUPPORT. What events, accesses to memory, overrides (R209 to R218) and tile quarters (R113) leave of the fabric's state: all of it.
-/
namespace Sys2Proof.Machine
open Sys2Proof

theorem AccessPartsOnly.fab {s t : State} (h : AccessPartsOnly s t) : t.fab = s.fab := by obtain ⟨_, _, _, _, _, _, _, rfl⟩ := h; rfl

@[simp] theorem rd_fab (w : Who) (a n : Nat) (s : State) : (rd w a n s).1.fab = s.fab := (AccessPartsOnly.rd w a n s).fab
@[simp] theorem wr_fab (w : Who) (a : Nat) (b : List Byte) (s : State) : (wr w a b s).1.fab = s.fab := (AccessPartsOnly.wr w a b s).fab

/-- What every step of a fold leaves of the fabric's state, the fold does. -/
theorem foldl_fab {α : Type} {f : State → α → State} (hf : ∀ s x, (f s x).fab = s.fab) (l : List α) (s : State) :
    (l.foldl f s).fab = s.fab :=
  foldl_induct (P := fun t => t.fab = s.fab) (fun t x h => (hf t x).trans h) l rfl

theorem foldl_fst_fab {α β : Type} {f : State × β → α → State × β} (hf : ∀ p x, (f p x).1.fab = p.1.fab) (l : List α) (p : State × β) :
    (l.foldl f p).1.fab = p.1.fab := by
  induction l generalizing p with
  | nil => rfl
  | cons x l ih => exact (ih _).trans (hf p x)

/-! ### Modes in force (R70, R174) -/

@[simp] theorem putEff_fab (p : Nat) (e : Nat × Nat) (s : State) : (putEff p e s).fab = s.fab := by
  simp [putEff, apply_ite State.fab]

@[simp] theorem refresh_fab (p : Nat) (s : State) : (refresh p s).fab = s.fab := by
  unfold refresh
  split
  · split
    · simp
    · exact foldl_fab (fun t i => by simp [apply_ite State.fab]) _ s
  · simp

@[simp] theorem refreshStrands_fab (s : State) : (refreshStrands s).fab = s.fab := foldl_fab (fun s _ => refresh_fab _ s) _ s

/-! ### Pins and placers (R166 to R184) -/

@[simp] theorem updStrand_fab (s : State) (p : Nat) (f : Strand → Strand) : (updStrand s p f).fab = s.fab := rfl
@[simp] theorem updPin_fab (s : State) (i : Nat) (f : Pin → Pin) : (updPin s i f).fab = s.fab := rfl
@[simp] theorem clearPin_fab (i : Nat) (s : State) : (clearPin i s).fab = s.fab := rfl
@[simp] theorem sequence_fab (i : Nat) (l : List Entry) (s : State) : (sequence i l s).fab = s.fab := rfl
@[simp] theorem endPulse_fab (k : Strand) (i j : Nat) (s : State) : (endPulse k i j s).fab = s.fab := rfl

@[simp] theorem drivePin_fab (i : Nat) (level : Bool) (t : Nat) (s : State) : (drivePin i level t s).fab = s.fab := by
  simp [drivePin, apply_ite State.fab]

@[simp] theorem floatPin_fab (i : Nat) (s : State) : (floatPin i s).fab = s.fab := by
  simp [floatPin, apply_ite State.fab]

@[simp] theorem edgeLate_fab (i : Nat) (byPlacer : Bool) (s : State) : (edgeLate i byPlacer s).fab = s.fab := by
  unfold edgeLate
  dsimp only
  split <;> simp [apply_ite State.fab]

@[simp] theorem placeEntry_fab (i : Nat) (e : Entry) (s : State) : (placeEntry i e s).fab = s.fab := by
  obtain ⟨t, level, late⟩ := e
  refine ite_induct (P := fun u => u.fab = s.fab) rfl ?_
  cases late <;> refine (drivePin_fab ..).trans ?_ <;> simp only [apply_ite State.fab, edgeLate_fab, bump_fab, free_fab, ite_self]

@[simp] theorem placeHead_fab (i : Nat) (s : State) : (placeHead i s).fab = s.fab := by
  unfold placeHead
  dsimp only
  split
  · rfl
  · simp [apply_ite State.fab]

@[simp] theorem placeNow_fab (i : Nat) (e : Entry) (s : State) : (placeNow i e s).fab = s.fab := by
  simp [placeNow, apply_ite State.fab]

@[simp] theorem settlePort_fab (p : Nat) (s : State) : (settlePort p s).fab = s.fab :=
  foldl_fab (fun s j => by simp [apply_ite State.fab]) _ s

/-! ### Transactions, the square check and a configuration taken up (R26, R126, R201, R202) -/

@[simp] theorem sqcPort_fab (p fn mark : Nat) (pixel : Nat → List Bool) (s : State) : (sqcPort p fn mark pixel s).fab = s.fab :=
  sqcPort_induct (P := fun t => t.fab = s.fab) rfl rfl (fun _ _ _ _ h => by simpa [sqcResult, updRect, apply_ite State.fab] using h) mark pixel

@[simp] theorem rdmDone_fab (p status rlen : Nat) (s : State) : (rdmDone p status rlen s).fab = s.fab := by
  simp [rdmDone, apply_ite State.fab]

@[simp] theorem rdmDrop_fab (p : Nat) (leaves : Bool) (s : State) : (rdmDrop p leaves s).fab = s.fab := by
  simp [rdmDrop, apply_ite State.fab]

@[simp] theorem rdmListen_fab (p : Nat) (s : State) : (rdmListen p s).fab = s.fab := by
  simp [rdmListen, apply_ite State.fab]

@[simp] theorem rdmMark_fab (p : Nat) (s : State) : (rdmMark p s).fab = s.fab := by
  simp [rdmMark, apply_ite State.fab]

@[simp] theorem rdmCut_fab (p : Nat) (s : State) : (rdmCut p s).fab = s.fab := by
  unfold rdmCut
  split <;> simp

@[simp] theorem packetDone_fab (p : Nat) (seen : Option (List Byte)) (s : State) : (packetDone p seen s).fab = s.fab := by
  simp [packetDone, apply_ite State.fab]

@[simp] theorem takeUp_fab (p : Nat) (s : State) : (takeUp p s).fab = s.fab := by
  unfold takeUp
  extract_lets old gang taken leaves dropped cleared slept reach
  have hs : slept.fab = s.fab := by simp [slept, cleared, dropped, taken, apply_ite State.fab]
  exact (foldl_fab (fun t q => by simp [apply_ite State.fab]) reach slept).trans hs

@[simp] theorem edgePlace_fab (i : Nat) (seen : Option (List Byte)) (s : State) : (edgePlace i seen s).fab = s.fab := by
  simp [edgePlace, apply_ite State.fab]

/-! ### A calibration window that an override ends (R169, R234) -/

@[simp] theorem placeDue_fab (i : Nat) (s : State) : (placeDue i s).fab = s.fab := foldl_fab (fun s _ => edgePlace_fab i none s) _ s

@[simp] theorem windowShut_fab (cut : Bool) (s : State) : (windowShut cut s).fab = s.fab := by
  unfold windowShut
  split
  · rfl
  · dsimp only
    rw [foldl_fab fun s i => placeDue_fab i s, refreshStrands_fab, foldl_fab fun s i => updPin_fab s i _,
      foldl_fab fun s k => updStrand_fab s _ _]

@[simp] theorem calBreak_fab (s : State) : (calBreak s).fab = s.fab := by
  unfold calBreak
  split <;> simp [apply_ite State.fab]

/-! ### What a port shows (R186 to R200) -/

@[simp] theorem beginShift_fab (p n : Nat) (t0 : Rat) (ovr : Bool) (codes : List Nat) (s : State) :
    (beginShift p n t0 ovr codes s).fab = s.fab := foldl_fab (fun s _ => sequence_fab _ _ s) _ s

@[simp] theorem showLamps_fab (p : Nat) (t x : Rat) (s : State) : (showLamps p t x s).fab = s.fab := by
  unfold showLamps
  dsimp only
  split
  · exact foldl_fab (fun s j => placeNow_fab ..) _ s
  · simp [apply_ite State.fab]

@[simp] theorem matrixTake_fab (p : Nat) (per t : Rat) (codes : List Nat) (s : State) : (matrixTake p per t codes s).fab = s.fab := by
  simp [matrixTake, apply_ite State.fab]

@[simp] theorem pwmPulse_fab (p : Nat) (first : Bool) (t0 tp : Rat) (s : State) (c : Nat) : (pwmPulse p first t0 tp s c).fab = s.fab := by
  unfold pwmPulse
  dsimp only
  split
  · simp [apply_ite State.fab]
  · split <;> simp [apply_ite State.fab]

@[simp] theorem pwmTake_fab (p : Nat) (per t : Rat) (codes : List Nat) (s : State) : (pwmTake p per t codes s).fab = s.fab := by
  simp [pwmTake, pwmNext, apply_ite State.fab, foldl_fab]

@[simp] theorem readWords_fab (p : Nat) (k : Strand) (seq : Word) (s : State) : (readWords p k seq s).1.fab = s.fab := by
  refine foldl_fst_fab (fun x w => ?_) _ (s, [])
  dsimp only
  split
  · rfl
  · split <;> simp

@[simp] theorem dmxData_fab (p : Nat) (s : State) : (dmxData p s).1.fab = s.fab := by
  unfold dmxData
  dsimp only
  split
  · rfl
  · split
    · rfl
    · split
      · simp
      · split
        · rfl
        · split <;> rfl

@[simp] theorem dmxBreak_fab (p : Nat) (s : State) : (dmxBreak p s).fab = s.fab := by
  simp [dmxBreak, apply_ite State.fab]

/-! ### Overrides (R209 to R218) -/

@[simp] theorem gpioShow_fab (p st n : Nat) (t : Rat) (s : State) : (gpioShow p st n t s).fab = s.fab :=
  foldl_fab (fun s j => by simp) _ s

@[simp] theorem ovrPulse_fab (g : Nat) (e : Rat) (s : State) : (ovrPulse g e s).fab = s.fab := rfl

@[simp] theorem ovrApply_fab (lim p st : Nat) (s : State) : (ovrApply lim p st s).fab = s.fab := by
  have drawn := free_fab s
  unfold ovrApply
  generalize s.free = x at drawn ⊢
  obtain ⟨u, v⟩ := x
  dsimp only at drawn ⊢
  have cleared (l : List Nat) : (l.foldl (fun s j => clearPin (2 * p + j) s) u).fab = s.fab :=
    (foldl_fab (fun s j => clearPin_fab ..) l u).trans drawn
  split <;> simp [apply_ite State.fab, foldl_fab, drawn, cleared]

@[simp] theorem ovrPort_fab (lim : Nat) (quiet : Bool) (s : State) (p : Nat) : (ovrPort lim quiet s p).fab = s.fab := by
  unfold ovrPort
  dsimp only
  split
  · rfl
  · split <;> simp [apply_ite State.fab]

/-- A state fired or released changes the override engine, and the pins of the ports that it selects. -/
@[simp] theorem ovrFire_fab (mask : Nat) (s : State) : (ovrFire mask s).fab = s.fab :=
  (foldl_fab (fun s p => ovrPort_fab _ _ s p) _ _).trans (foldl_fab (fun s st => by simp [ovrFire1, apply_ite State.fab]) _ s)

@[simp] theorem ovrRelease_fab (mask : Nat) (s : State) : (ovrRelease mask s).fab = s.fab :=
  (foldl_fab (fun s p => ovrPort_fab _ _ s p) _ _).trans (foldl_fab (fun s st => by simp [ovrRelease1, apply_ite State.fab]) _ s)

/-! ### Tile quarters (R107, R113) -/

@[simp] theorem setUnit_fab (v : Nat) (f : Filling) (s : State) : (setUnit v f s).fab = s.fab := rfl
@[simp] theorem endUnit_fab (v : Nat) (f : Filling) (s : State) : (endUnit v f s).fab = s.fab := rfl
@[simp] theorem inDrop_fab (v : Nat) (s : State) : (inDrop v s).fab = s.fab := by simp [inDrop]

@[simp] theorem dropUnit_fab (v : Nat) (f : Filling) (s : State) : (dropUnit v f s).fab = s.fab := by
  simp [dropUnit, apply_ite State.fab]

@[simp] theorem claimBuffer_fab (v src stamp : Nat) (s : State) : (claimBuffer v src stamp s).1.fab = s.fab := by
  unfold claimBuffer
  dsimp only
  split
  · split <;> simp
  · rfl
  · rfl

@[simp] theorem beginUnit_fab (v src stamp : Nat) (s : State) : (beginUnit v src stamp s).fab = s.fab := by
  have claimed := claimBuffer_fab v src stamp s
  unfold beginUnit
  split
  · next e =>
    rw [e] at claimed
    exact claimed
  · next e =>
    rw [e] at claimed
    exact (inDrop_fab ..).trans claimed

@[simp] theorem makeComplete_fab (v : Nat) (f : Filling) (s : State) : (makeComplete v f s).fab = s.fab := by
  unfold makeComplete
  split <;> rfl

@[simp] theorem unitWrite_fab (v src stamp off : Nat) (b : List Byte) (s : State) : (unitWrite v src stamp off b s).fab = s.fab := by
  unfold unitWrite
  split
  · split
    · simp [apply_ite State.fab]
    · rfl
  · rfl

@[simp] theorem tileQuarter_fab (v fn col row q : Nat) (data : List Byte) (s : State) : (tileQuarter v fn col row q data s).fab = s.fab := by
  unfold tileQuarter
  extract_lets get cols rows c0 r0 begun key line written
  have hw : written.fab = s.fab :=
    (foldl_fab (fun s j => unitWrite_fab ..) _ begun).trans (by simp [begun, tileAge, apply_ite State.fab])
  clear_value written
  refine ite_induct (P := fun t => t.fab = s.fab) rfl ?_
  split
  · exact hw
  · simp [apply_ite State.fab, hw]

/-! ### FAB's receive ring (R387) -/

@[simp] theorem fabRing_fab (b : List Byte) (extra : Nat) (s : State) : (fabRing b extra s).fab = s.fab := by
  have filled := (AccessPartsOnly.fillRing fabRx 64 (fabRx.headOf s % fabRx.size s) b s).fab
  unfold fabRing
  simp only [apply_ite State.fab, evt_fab, (AccessPartsOnly.closeDescs ..).fab, Ring.setHead, setReg_fab, filled, ite_self]

end Sys2Proof.Machine
end


section
/-!
SUPPORT. What the fabric's sends (R362 to R366) change: the port that a bundle leaves on, the count of messages, the floods remembered and the
statistics, and with a route missing the event of R365.
-/
namespace Sys2Proof.Machine
open Sys2Proof

/-- The second state is the first but for what a bundle of this node's own changes on its way out. -/
def SendPartsOnly (s t : State) : Prop :=
  ∃ regs ctr cores tsk bru q l,
    t = { s with regs := regs, ctr := ctr, cores := cores, tsk := tsk, bru := bru, fab := { s.fab with msgSeq := q, seen := l } }

namespace SendPartsOnly
variable {s t u : State}

theorem refl (s : State) : SendPartsOnly s s := ⟨_, _, _, _, _, _, _, rfl⟩

theorem trans (h : SendPartsOnly s t) (h' : SendPartsOnly t u) : SendPartsOnly s u := by
  obtain ⟨_, _, _, _, _, _, _, rfl⟩ := h
  obtain ⟨_, _, _, _, _, _, _, rfl⟩ := h'
  exact ⟨_, _, _, _, _, _, _, rfl⟩

theorem of_event (h : EventPartsOnly s t) : SendPartsOnly s t := by
  obtain ⟨_, _, _, _, rfl⟩ := h
  exact ⟨_, _, _, _, _, _, _, rfl⟩

theorem foldl {α : Type} {f : State → α → State} (hf : ∀ s x, SendPartsOnly s (f s x)) (l : List α) (s : State) :
    SendPartsOnly s (l.foldl f s) :=
  foldl_induct (P := SendPartsOnly s) (fun t x h => h.trans (hf t x)) l (refl s)

theorem fc (h : SendPartsOnly s t) : t.fab.fc = s.fab.fc := by obtain ⟨_, _, _, _, _, _, _, rfl⟩ := h; rfl

theorem olds (h : SendPartsOnly s t) : t.fab.olds = s.fab.olds := by obtain ⟨_, _, _, _, _, _, _, rfl⟩ := h; rfl

theorem cmt (h : SendPartsOnly s t) : t.cmt = s.cmt := by obtain ⟨_, _, _, _, _, _, _, rfl⟩ := h; rfl

theorem bump (s : State) (p : Nat) (f : Fld) (n k : Nat) : SendPartsOnly s (s.bump p f n k) := of_event (.bump ..)

theorem evt (s : State) (p bit : Nat) : SendPartsOnly s (s.evt p bit) := of_event (.evt ..)

theorem set (s : State) (p : Nat) (f : Fld) (v k : Nat) : SendPartsOnly s (s.set p f v k) := of_event (.setReg ..)

theorem numbered (s : State) : SendPartsOnly s (updFab s fun f => { f with msgSeq := f.msgSeq + 1 }) := ⟨_, _, _, _, _, _, _, rfl⟩

theorem remember (src seq tree : Nat) (s : State) : SendPartsOnly s (remember src seq tree s) := ⟨_, _, _, _, _, _, _, rfl⟩

theorem toPort (vl b : Nat) (bytes : List Byte) (s : State) : SendPartsOnly s (toPort vl b none bytes s) := by
  unfold Machine.toPort
  split
  · exact ⟨_, _, _, _, _, _, _, rfl⟩
  · exact bump ..

theorem leave (vl : Nat) (forwarded : Bool) (ports : List Nat) (bytes : List Byte) (s : State) :
    SendPartsOnly s (leave vl none forwarded ports bytes s) := by
  unfold Machine.leave
  extract_lets hops counted
  have forwards : SendPartsOnly s counted := ite_induct (P := SendPartsOnly s) (bump ..) (refl s)
  exact ite_induct (P := SendPartsOnly s) (refl s) (ite_induct (bump ..) (forwards.trans (foldl (fun s b => toPort ..) _ _)))

theorem unicast (forwarded : Bool) (bytes : List Byte) (s : State) : SendPartsOnly s (unicast none forwarded bytes s) := by
  unfold Machine.unicast
  dsimp only
  split
  · exact leave ..
  · exact (bump ..).trans (evt ..)

theorem sendLink (b kind : Nat) (body : List Byte) (s : State) : SendPartsOnly s (sendLink b kind body s) := by
  unfold Machine.sendLink
  split
  · exact refl s
  · exact (numbered s).trans (toPort ..)

theorem sendUnicast (vl dest kind : Nat) (body : List Byte) (s : State) : SendPartsOnly s (sendUnicast vl dest kind body s) := by
  unfold Machine.sendUnicast
  split
  · exact refl s
  · exact (numbered s).trans (unicast ..)

theorem sendFlood (trees : List Nat) (clusterOnly : Bool) (kind : Nat) (body : List Byte) (s : State) :
    SendPartsOnly s (sendFlood trees clusterOnly kind body s) := by
  unfold Machine.sendFlood
  split
  · exact refl s
  · exact (numbered s).trans (foldl (fun s t => (remember ..).trans (leave ..)) _ _)

theorem masterReady (cid n r : Nat) (s : State) : SendPartsOnly s (masterReady cid n r s) :=
  ite_induct (P := SendPartsOnly s) (refl s) ((((set ..).trans (set ..)).trans (set ..)).trans (evt ..))

theorem readyUp (cid n r : Nat) (s : State) : SendPartsOnly s (readyUp cid n r s) := by
  unfold Machine.readyUp
  dsimp only
  split
  · exact sendLink ..
  · refine ite_induct (P := SendPartsOnly s) (masterReady ..) ?_
    split
    · exact sendUnicast ..
    · exact refl s

end SendPartsOnly

/-! ### The registers that a flood leaves -/

@[simp] theorem toPort_regs (vl b : Nat) (bytes : List Byte) (s : State) : (toPort vl b none bytes s).regs = s.regs := by
  simp [toPort, heldAdd, apply_ite State.regs]

@[simp] theorem leave_regs (vl : Nat) (forwarded : Bool) (ports : List Nat) (bytes : List Byte) (s : State) :
    (leave vl none forwarded ports bytes s).regs = s.regs := by
  unfold leave
  extract_lets hops counted
  have forwards : counted.regs = s.regs := by simp [counted, apply_ite State.regs]
  refine ite_induct (P := fun t => t.regs = s.regs) rfl (ite_induct (P := fun t => t.regs = s.regs) (bump_regs ..) ?_)
  exact foldl_induct (P := fun t => t.regs = s.regs) (fun t b h => (toPort_regs ..).trans h) _ forwards

@[simp] theorem sendFlood_regs (trees : List Nat) (clusterOnly : Bool) (kind : Nat) (body : List Byte) (s : State) :
    (sendFlood trees clusterOnly kind body s).regs = s.regs := by
  unfold sendFlood
  dsimp only
  split
  · rfl
  · refine foldl_induct (P := fun t => t.regs = s.regs) (fun t b h => ?_) _ rfl
    rw [leave_regs]
    exact h

/-! ### One bundle to a neighbour (R371) -/

theorem toPort_of_flows {vl b : Nat} {s : State} (up : flows s b = true) (bytes : List Byte) :
    toPort vl b none bytes s = updBru s b fun p => { p with ready := p.ready ++ [⟨vl, bytes, none⟩] } := if_pos up

/-- A LINK bundle enters the queue of a port on which bundles flow, as VL 1, under the next message number. -/
theorem sendLink_of_flows {b n : Nat} {s : State} (node : nodeId s = some n) (up : flows s b = true) (kind : Nat) (body : List Byte) :
    ∃ bytes, sendLink b kind body s =
      updBru (updFab s fun f => { f with msgSeq := f.msgSeq + 1 }) b fun p => { p with ready := p.ready ++ [⟨1, bytes, none⟩] } := by
  simp only [sendLink, node]
  exact ⟨_, toPort_of_flows (s := updFab s fun f => { f with msgSeq := f.msgSeq + 1 }) up _⟩

end Sys2Proof.Machine
end

section
/-!
SUPPORT. What becomes of a bundle that a port receives (R363, R364, R389): the checks of its header, the first copy of a flood, and what delivery
of each KIND comes to.
-/
namespace Sys2Proof.Machine
open Sys2Proof

/-- The header of a bundle names its VL, ROUTE and KIND (R362). -/
structure BundleHead (b : List Byte) (vl route kind : Nat) : Prop where
  whole : 16 ≤ b.length
  vl : (b.getD 0 0).toNat / 64 = vl
  route : (b.getD 0 0).toNat / 8 % 8 = route
  kind : (b.getD 8 0).toNat = kind

/-- The DEST of a unicast bundle. -/
def bundleDest (b : List Byte) : Nat := beVal (slice b 2 3) % 2 ^ 18
/-- The SOURCE of a bundle. -/
def bundleSource (b : List Byte) : Nat := beVal (slice b 5 3) % 2 ^ 18

theorem heldAdd_none (d : Int) (s : State) : heldAdd none d s = s := by unfold heldAdd; rfl

theorem fabOn_of_inRun {s : State} (h : inRun s pgFAB = true) : fabOn s = true := by
  simp only [inRun, decide_eq_true_eq] at h
  simp [fabOn, h]

section
variable {p : Nat} {b : List Byte} {l : List Nat} {s : State}

theorem bundleIn_ignored (h : fabOn s = false ∨ b.length < 16) (still : s.fab.fc.armed = false) : bundleIn (some p) none b l s = s := by
  have dropped : !fabOn s ∨ ((b.getD 0 0).toNat / 64 ≠ 1 ∧ effMode s pgFAB ≠ 2) ∨ b.length < 16 := by
    rcases h with h | h <;> simp [h]
  simp only [bundleIn, heldAdd_none]
  rw [if_pos dropped]
  exact fcFollow_of_not_armed s still

section
variable {vl route kind : Nat} (on : fabOn s = true) (lane : vl = 1 ∨ inRun s pgFAB = true)
include on lane

theorem bundle_heard (head : BundleHead b vl route kind) :
    ¬ (!fabOn s ∨ ((b.getD 0 0).toNat / 64 ≠ 1 ∧ effMode s pgFAB ≠ 2) ∨ b.length < 16) := by
  have run : inRun s pgFAB = true → effMode s pgFAB = 2 := of_decide_eq_true
  have whole := head.whole
  rw [head.vl, on]
  simp
  refine ⟨fun other => run (lane.resolve_left other), whole⟩

theorem bundleIn_badKind (whole : 16 ≤ b.length) (hvl : (b.getD 0 0).toNat / 64 = vl)
    (bad : kindOk (b.getD 8 0).toNat ((b.getD 0 0).toNat / 64) ((b.getD 0 0).toNat / 8 % 8) = false) (still : s.fab.fc.armed = false) :
    bundleIn (some p) none b l s = s.bump pgFAB F.FAB_st_BADKIND := by
  simp only [bundleIn, heldAdd_none]
  rw [if_neg (bundle_heard on lane ⟨whole, hvl, rfl, rfl⟩), if_pos (.inr (by simpa using bad))]
  exact fcFollow_of_not_armed _ (by simpa using still)

theorem bundleIn_link (head : BundleHead b vl 0 kind) (suits : kindOk kind vl 0 = true) :
    bundleIn (some p) none b l s = fcFollow (deliverBundle (some p) none b l s) := by
  simp only [bundleIn, heldAdd_none]
  rw [if_neg (bundle_heard on lane head), head.route, head.kind, head.vl, suits]
  rfl

theorem bundleIn_unicast (head : BundleHead b vl 1 kind) (suits : kindOk kind vl 1 = true) (here : nodeId s = some (bundleDest b)) :
    bundleIn (some p) none b l s = fcFollow (deliverBundle (some p) none b l s) := by
  simp only [bundleIn, heldAdd_none]
  rw [if_neg (bundle_heard on lane head), head.route, head.kind, head.vl, suits]
  exact congrArg fcFollow (if_pos here)

theorem bundleIn_tile (head : BundleHead b vl 2 kind) (suits : kindOk kind vl 2 = true)
    (alone : ∀ c r, tilePorts s (some p) c r = []) : bundleIn (some p) none b l s = fcFollow (tileDeliver b s) := by
  simp only [bundleIn, heldAdd_none]
  rw [if_neg (bundle_heard on lane head), head.route, head.kind, head.vl, suits]
  simp [alone, leave]

theorem bundleIn_flood (head : BundleHead b vl 4 kind) (suits : kindOk kind vl 4 = true) :
    bundleIn (some p) none b l s = fcFollow (floodIn (some p) none b l s) := by
  simp only [bundleIn, heldAdd_none]
  rw [if_neg (bundle_heard on lane head), head.route, head.kind, head.vl, suits]
  rfl

end

/-! ### Floods (R363, R377) -/

theorem upPorts_of_none (none' : nbPorts s = []) : upPorts s = [] := by simp [upPorts, none']

theorem parentPort_of_none (none' : nbPorts s = []) (tree : Nat) : parentPort s tree = none := by simp [parentPort, upPorts_of_none none']

theorem childPorts_of_none (none' : nbPorts s = []) (tree : Nat) : childPorts s tree = [] := by simp [childPorts, none']

theorem tilePorts_of_none (none' : nbPorts s = []) (src : Option Nat) (c r : Nat) : tilePorts s src c r = [] := by
  simp [tilePorts, parentPort_of_none none', childPorts_of_none none']

theorem treePorts_of_none (none' : nbPorts s = []) (joins : joinPorts s = []) (tree : Nat) : treePorts s tree = [] := by
  simp [treePorts, parentPort_of_none none', childPorts_of_none none', joins]

/-- The first copy of a flood is remembered and delivered; with no neighbour on its tree it goes no further. -/
def floodHeard (b : List Byte) (s : State) : State := remember (bundleSource b) (beVal (slice b 12 4)) ((b.getD 0 0).toNat / 2 % 2) s

theorem floodIn_notMaster (commit : (b.getD 8 0).toNat = 1 ∨ (b.getD 8 0).toNat = 3 ∨ (b.getD 8 0).toNat = 4)
    (other : cueMaster s ≠ some (bundleSource b)) : floodIn (some p) none b l s = s.bump pgFAB F.FAB_st_NOTMASTER := if_pos ⟨commit, other⟩

theorem floodIn_first {vl kind : Nat} (head : BundleHead b vl 4 kind) (none' : nbPorts s = []) (joins : joinPorts s = [])
    (first : ∀ e ∈ s.fab.seen, e.1 ≠ bundleSource b) (allowed : kind ∉ [1, 3, 4] ∨ cueMaster s = some (bundleSource b)) :
    floodIn (some p) none b l s = deliverBundle (some p) none b l (floodHeard b s) := by
  have unseen : (s.fab.seen.filter fun e => e.1 = bundleSource b && e.2.1 = beVal (slice b 12 4) && s.time.ft < e.2.2.2 + secUnits) = [] :=
    List.filter_eq_nil_iff.mpr fun e he => by rw [decide_eq_false (first e he)]; simp
  have master : ¬ ((kind = 1 ∨ kind = 3 ∨ kind = 4) ∧ cueMaster s ≠ some (bundleSource b)) := by
    rcases allowed with h | h
    · simp only [List.mem_cons, List.not_mem_nil, or_false] at h
      exact fun k => h k.1
    · exact fun k => k.2 h
  have alone (tree : Nat) : treePorts (floodHeard b s) tree = [] := treePorts_of_none (s := floodHeard b s) none' joins tree
  rw [floodHeard, bundleSource] at alone
  rw [bundleSource] at unseen master
  unfold floodIn
  dsimp only
  rw [unseen, head.kind, head.route, if_neg master]
  simp only [List.isEmpty_nil, List.any_nil, if_true, alone]
  exact (if_neg Bool.false_ne_true).trans (if_pos ⟨trivial, .inl trivial⟩)

theorem fc_floodHeard (b : List Byte) (s : State) : (floodHeard b s).fab.fc = s.fab.fc := rfl

end

/-! ### Delivery (R364) -/

section
variable {b : List Byte} {kind : Nat} (src : Option Nat) (l : List Nat) (s : State)

theorem deliverBundle_prepare (h : (b.getD 8 0).toNat = 1) :
    deliverBundle src none b l s = prepareIn (b.drop 16) (s.bump pgFAB F.FAB_st_DELIVERED) := by simp only [deliverBundle, h]

theorem deliverBundle_ready {vl : Nat} {p : Nat} (head : BundleHead b vl 0 2) :
    deliverBundle (some p) none b l s = readyIn (some p) (b.drop 16) (s.bump pgFAB F.FAB_st_DELIVERED) := by
  simp only [deliverBundle, head.kind, head.route, if_true]

theorem deliverBundle_fire (h : (b.getD 8 0).toNat = 3) :
    deliverBundle src none b l s = fireIn (beVal (slice (b.drop 16) 0 4)) (s.bump pgFAB F.FAB_st_DELIVERED) := by simp only [deliverBundle, h]

theorem deliverBundle_abort (h : (b.getD 8 0).toNat = 4) :
    deliverBundle src none b l s = abortIn (beVal (slice (b.drop 16) 0 4)) (s.bump pgFAB F.FAB_st_DELIVERED) := by simp only [deliverBundle, h]

theorem deliverBundle_report (h : (b.getD 8 0).toNat = 5) :
    deliverBundle src none b l s = reportIn (bundleSource b) (b.drop 16) (s.bump pgFAB F.FAB_st_DELIVERED) := by
  simp only [deliverBundle, h, bundleSource]

theorem deliverBundle_override (h : (b.getD 8 0).toNat = 8) : deliverBundle src none b l s =
    if s.flag pgFAB F.FAB_CUECFG_OVRACCEPT ∧ (cueMaster s = some (bundleSource b) ∨ s.flag pgFAB F.FAB_CUECFG_OVRANY) then
      ovrRelease (b.getD 17 0).toNat (ovrFire (b.getD 16 0).toNat (s.bump pgFAB F.FAB_st_DELIVERED))
    else s.bump pgFAB F.FAB_st_DELIVERED := by
  have byte (i : Nat) : (b.drop 16).getD i 0 = b.getD (16 + i) 0 := by simp [List.getD_eq_getElem?_getD]
  simp only [deliverBundle, h, byte, bundleSource]
  rfl

theorem deliverBundle_subscribe {p : Nat} (h : (b.getD 8 0).toNat = 0x11) :
    deliverBundle (some p) none b l s = subscribeIn p l (s.bump pgFAB F.FAB_st_DELIVERED) := by simp only [deliverBundle, h, Option.getD_some]

/-- The Cane request that a tunnelled bundle carries (R387). -/
def tunnelledReq (b : List Byte) (s : State) : CaneReq :=
  { path := 2, own := bundleSource b, msg := b.drop 16, frame := b, ts := stamp16 s }

theorem deliverBundle_cane (h : (b.getD 8 0).toNat = 0x30) (room : s.net.cane.store.length < 8) : deliverBundle src none b l s =
    if inRun s pgCANE then caneStore (tunnelledReq b s) (s.bump pgFAB F.FAB_st_DELIVERED) else s.bump pgFAB F.FAB_st_DELIVERED := by
  have room' : (s.bump pgFAB F.FAB_st_DELIVERED).net.cane.store.length < 8 := room
  simp only [deliverBundle, h, if_pos room']
  have run : inRun (s.bump pgFAB F.FAB_st_DELIVERED) pgCANE = inRun s pgCANE := rfl
  rw [run]
  cases inRun s pgCANE <;> rfl

theorem deliverBundle_firmware (h : (b.getD 8 0).toNat = 0x31) :
    deliverBundle src none b l s = fabRing b 0 (s.bump pgFAB F.FAB_st_DELIVERED) := by simp only [deliverBundle, h, fabToRing]

end

end Sys2Proof.Machine
end


section
/-!
PROOF. Bundles of the kinds that carry no fabric commit (R371, R385, R387), and O34.
-/
namespace Sys2Proof.Machine
open Sys2Proof

/-! ### Subscriptions (R371) -/

@[simp] theorem fabSync_fab (s : State) : (fabSync s).fab = s.fab := by
  simp [fabSync, timePathSync, autoSource, apply_ite State.fab]

/-- A node with a parent and no child sends its parent its groups. -/
theorem subscribeSend_parent {p n : Nat} {s : State} (on : fabOn s = true) (node : nodeId s = some n) (parent : parentPort s 0 = some p)
    (leaf : childPorts s 0 = []) (up : flows s p = true) : ∃ bytes, subscribeSend s =
      fabSync (updBru (updFab s fun f => { f with msgSeq := f.msgSeq + 1 }) p fun q => { q with ready := q.ready ++ [⟨1, bytes, none⟩] }) := by
  obtain ⟨bytes, sent⟩ := sendLink_of_flows node up 0x11 (Config.recBody 0x11 (0 :: (ownSubs s).flatMap fun e => [e.1, e.2.1, e.2.2]))
  refine ⟨bytes, ?_⟩
  simp [subscribeSend, on, leaf, parent, sent]

section
variable {b : Nat} {l : List Nat} {s : State}

theorem subscribeIn_child (h : l.headD 0 = 0) : subscribeIn b l s =
    updFab s fun f => { f with subs := f.subs.set b ((triples (l.drop 1)).foldl (fun a e => joinSubs a [e]) []) } := if_pos h

theorem subscribeIn_other (h : l.headD 0 ≠ 0) (other : parentPort s 0 ≠ some b) : subscribeIn b l s = s :=
  (if_neg h).trans (if_neg other)

theorem subscribeIn_parent (h : l.headD 0 ≠ 0) (parent : parentPort s 0 = some b) :
    subscribeIn b l s = updFab s fun f => { f with outside := (l.drop 1).map (· % 4096) } := (if_neg h).trans (if_pos parent)

end

/-! ### Tiles (R369, R371) -/

/-- A tile quarter's FN, its column and row and its place in the tile (R370). -/
def quarterFn (b : List Byte) : Nat := beVal (slice b 16 6)
def quarterCol (b : List Byte) : Nat := beVal (slice b 22 2) % 2 ^ 11
def quarterRow (b : List Byte) : Nat := beVal (slice b 24 2) % 2 ^ 11
def quarterPlace (b : List Byte) : Nat := beVal (slice b 22 2) / 2 ^ 14

/-- A veneer whose converter takes a tile: it ingests, and its rectangle of tiles names the column and the row. -/
def namesTile (s : State) (col row : Nat) : Nat → Bool := fun v =>
  ingests s v && s.get (pgVEN v) F.VEN_CFG_SRC = 3 && s.get (pgVEN v) F.VEN_TILES_TCOL0 ≤ col &&
    col < s.get (pgVEN v) F.VEN_TILES_TCOL0 + s.get (pgVEN v) F.VEN_TILESZ_TCOLS && s.get (pgVEN v) F.VEN_TILES_TROW0 ≤ row &&
    row < s.get (pgVEN v) F.VEN_TILES_TROW0 + s.get (pgVEN v) F.VEN_TILESZ_TROWS

theorem namesTile_iff {s : State} {col row v : Nat} : namesTile s col row v = true ↔ ingests s v = true ∧ s.get (pgVEN v) F.VEN_CFG_SRC = 3 ∧
    (s.get (pgVEN v) F.VEN_TILES_TCOL0 ≤ col ∧ col < s.get (pgVEN v) F.VEN_TILES_TCOL0 + s.get (pgVEN v) F.VEN_TILESZ_TCOLS) ∧
    s.get (pgVEN v) F.VEN_TILES_TROW0 ≤ row ∧ row < s.get (pgVEN v) F.VEN_TILES_TROW0 + s.get (pgVEN v) F.VEN_TILESZ_TROWS := by
  simp [namesTile, and_assoc]

theorem tileWhole_fc (fn col row q : Nat) (s : State) : (tileWhole fn col row q s).1.fab.fc = s.fab.fc := by
  unfold tileWhole
  dsimp only
  split <;> rfl

theorem filter_eq_singleton {f : Nat → Bool} {n v : Nat} (hv : v < n) (yes : f v = true) (no : ∀ w, w < n → w ≠ v → f w = false) :
    (List.range n).filter f = [v] := by
  have same : ∀ w ∈ List.range n, f w = (w == v) := fun w hw => by
    by_cases h : w = v
    · rw [h, yes, beq_self_eq_true]
    · rw [no w (List.mem_range.mp hw) h, beq_false_of_ne h]
  rw [List.filter_congr same, List.filter_beq, List.count_eq_one_of_mem List.nodup_range (List.mem_range.mpr hv)]
  rfl

section
variable {b : List Byte} {s : State}

/-- A quarter that no veneer names is noted, and counted as filtered. -/
theorem tileDeliver_filtered (none' : ∀ v, v < 16 → ingests s v = false) : tileDeliver b s =
    (fun t => if t.2 then t.1.bump pgFAB F.FAB_st_TILEFILT else t.1) (tileWhole (quarterFn b) (quarterCol b) (quarterRow b) (quarterPlace b) s) := by
  have mine : (List.range 16).filter (namesTile s (quarterCol b) (quarterRow b)) = [] :=
    List.filter_eq_nil_iff.mpr fun v hv => by simp [namesTile, none' v (List.mem_range.mp hv)]
  unfold namesTile quarterCol quarterRow at mine
  unfold tileDeliver
  dsimp only
  rw [mine]
  rfl

/-- A quarter that one veneer names is delivered to its converter. -/
theorem tileDeliver_named {v : Nat} (hv : v < 16) (named : namesTile s (quarterCol b) (quarterRow b) v = true)
    (only : ∀ w, w < 16 → w ≠ v → ingests s w = false) : tileDeliver b s =
    tileQuarter v (quarterFn b) (quarterCol b) (quarterRow b) (quarterPlace b) (slice b 32 2048)
      ((fun t => if t.2 then (t.1.bump pgFAB F.FAB_st_DELIVERED).bump pgFAB F.FAB_st_TILESRX else t.1.bump pgFAB F.FAB_st_DELIVERED)
        (tileWhole (quarterFn b) (quarterCol b) (quarterRow b) (quarterPlace b) s)) := by
  have mine : (List.range 16).filter (namesTile s (quarterCol b) (quarterRow b)) = [v] :=
    filter_eq_singleton hv named fun w hw hne => by simp [namesTile, only w hw hne]
  unfold namesTile quarterCol quarterRow at mine
  unfold tileDeliver
  dsimp only
  rw [mine]
  simp only [List.isEmpty_cons, Bool.false_eq_true, if_false, List.foldl_cons, List.foldl_nil]
  rfl

end

/-! ### Tunnelled Cane requests (R387, R501, R507) -/

@[simp] theorem caneStore_fab (r : CaneReq) (s : State) : (caneStore r s).fab = s.fab := by
  simp [caneStore, apply_ite State.fab]

theorem caneStore_of_room {r : CaneReq} {s : State} (room : s.net.cane.store.length < 8) :
    caneStore r s = updNet s fun n => { n with cane := { n.cane with store := n.cane.store ++ [r] } } := if_pos room

section
variable {p : Nat} {b : List Byte} {s t : State}

theorem caneTake_of_empty (empty : s.net.cane.store = []) : caneTake s = s := by simp [caneTake, empty]

/-- Only a request that arrives while the store is empty is executed at once. -/
theorem tunnelled_of_waiting (waits : s.net.cane.store ≠ []) : tunnelled p b s = bundleIn (some p) none b [] s := by
  simp [tunnelled, waits]

theorem tunnelled_of_empty (empty : s.net.cane.store = []) (taken : bundleIn (some p) none b [] s = t) (free : t.net.cane.held = none)
    (up : sysDown t = false) (kind : (b.getD 8 0).toNat = 0x30) : tunnelled p b s = caneTake t := by
  simp only [tunnelled, empty, taken, kind]
  rw [caneFree_of_free free, up]
  rfl

theorem tunnelled_ignored (empty : s.net.cane.store = []) (free : s.net.cane.held = none) (dropped : bundleIn (some p) none b [] s = s) :
    tunnelled p b s = s := by
  have idle : caneFree caneTake s = s := by simp [caneFree_of_free free, caneTake_of_empty empty]
  simp [tunnelled, dropped, idle]

end

/-! ### FAB's transmit ring (R387) -/

theorem fabSend_of_empty {s : State} (empty : fabTx.free s = 0) (n : Nat) : fabSend n s = s := by
  have still : fabSendOne s = (s, false) := if_pos empty
  cases n <;> simp [fabSend, still]

theorem and_ring_mask (i : BitVec 12) : i.setWidth 32 &&& 0xFFF = i.setWidth 32 := by
  refine BitVec.eq_of_toNat_eq ?_
  rw [BitVec.toNat_and, BitVec.toNat_setWidth_of_le (by decide)]
  exact (Nat.and_two_pow_sub_one_eq_mod i.toNat 12).trans (Nat.mod_eq_of_lt i.isLt)

theorem fabTxTail_idle {i : BitVec 12} {s : State} (h : inRun s pgFAB = false ∨ fabTx.free (s.setReg pgFAB 0x0F8 (i.setWidth 32)) = 0) :
    fabTxTail (i.setWidth 32) s = s.setReg pgFAB 0x0F8 (i.setWidth 32) := by
  unfold fabTxTail
  rw [and_ring_mask]
  rcases h with h | h
  · have stopped : effMode (s.setReg pgFAB 0x0F8 (i.setWidth 32)) pgFAB ≠ 2 := by
      rw [effMode, State.get, reg_setReg_ne _ _ _ _ _ _ (by decide)]
      exact of_decide_eq_false h
    exact if_neg stopped
  · exact ite_induct (P := fun t => t = _) (fabSend_of_empty h _) rfl

/-! ### The commands -/

section
variable (p : Fin 4) (b : List Byte) (l : List Nat) (s : State)

theorem exec_roleReceive : exec (.roleReceive p b l) s = .next (bundleIn (some p.val) none b l s.quiet) := rfl
theorem exec_lsrReceive : exec (.lsrReceive p b l) s = .next (bundleIn (some p.val) none b l s.quiet) := rfl
theorem exec_subscribeReceive : exec (.subscribeReceive p b l) s = .next (bundleIn (some p.val) none b l s.quiet) := rfl
theorem exec_tileQuarterReceive : exec (.tileQuarterReceive p b) s = .next (bundleIn (some p.val) none b [] s.quiet) := rfl
theorem exec_prepareReceive : exec (.prepareReceive p b) s = .next (bundleIn (some p.val) none b [] s.quiet) := rfl
theorem exec_readyReceive : exec (.readyReceive p b) s = .next (bundleIn (some p.val) none b [] s.quiet) := rfl
theorem exec_fireReceive : exec (.fireReceive p b) s = .next (bundleIn (some p.val) none b [] s.quiet) := rfl
theorem exec_abortReceive : exec (.abortReceive p b) s = .next (bundleIn (some p.val) none b [] s.quiet) := rfl
theorem exec_reportReceive : exec (.reportReceive p b) s = .next (bundleIn (some p.val) none b [] s.quiet) := rfl
theorem exec_overrideBundleReceive : exec (.overrideBundleReceive p b) s = .next (bundleIn (some p.val) none b [] s.quiet) := rfl
theorem exec_tunnelledCaneReceive : exec (.tunnelledCaneReceive p b) s = .next (tunnelled p.val b s.quiet) := rfl
theorem exec_firmwareBundleReceive : exec (.firmwareBundleReceive p b) s = .next (bundleIn (some p.val) none b [] s.quiet) := rfl
theorem exec_subscribeSend : exec .subscribeSend s = .next (subscribeSend s.quiet) := rfl

theorem exec_fabTxtailWrite (a : BitVec 4) (i : BitVec 12) :
    exec (.fabTxtailWrite a i) s = .next (answered s.quiet (fabTxTail (i.setWidth 32) s.quiet)) := execFabTxtailWrite_eq a i s

end

/-- Settles O34, kind by kind from what the delivery of a bundle comes to, each time with no commit of the fabric armed here that could end. -/
theorem fabricBundles : Obligations.FabricBundles := by
  refine ⟨?ignored, ?badKind, ?stopped, ?sends, ?subscribe, ?tile, ?override, ?cane, ?firmware, ?txTail⟩
  case ignored =>
    intro p b l s still empty free h
    have dropped (r : List Nat) : bundleIn (some p.val) none b r s.quiet = s.quiet := bundleIn_ignored (s := s.quiet) h still
    rw [exec_roleReceive, exec_lsrReceive, exec_subscribeReceive, exec_tileQuarterReceive, exec_prepareReceive, exec_readyReceive,
      exec_fireReceive, exec_abortReceive, exec_reportReceive, exec_overrideBundleReceive, exec_tunnelledCaneReceive,
      exec_firmwareBundleReceive, dropped l, dropped [], tunnelled_ignored (s := s.quiet) empty free (dropped [])]
    exact ⟨rfl, rfl, rfl, rfl, rfl, rfl, rfl, rfl, rfl, rfl, rfl, rfl⟩
  case badKind =>
    intro p b s still run whole bad
    rw [exec_firmwareBundleReceive, bundleIn_badKind (s := s.quiet) (fabOn_of_inRun run) (.inr run) whole rfl bad still]
  case stopped =>
    intro s off
    rw [exec_subscribeSend]
    exact congrArg _ (if_pos (by simp [show fabOn s.quiet = false from off]))
  case sends =>
    intro p s on node parent leaf up ports hp
    obtain ⟨n, node⟩ := Option.isSome_iff_exists.mp node
    obtain ⟨bytes, sent⟩ := subscribeSend_parent (s := s.quiet) on node parent leaf up
    refine ⟨_, ⟨1, bytes, none⟩, exec_subscribeSend s, ?_, rfl, ?_⟩
    · rw [sent, bruOf, fabSync_bru]
      exact congrArg BruPort.ready (bruOf_updBru_same (s := updFab s.quiet fun f => { f with msgSeq := f.msgSeq + 1 }) (ports ▸ hp) _)
    · rw [sent, fabSync_fab]
      rfl
  case subscribe =>
    intro p b l s on still whole hvl hroute hkind
    have head : BundleHead b 1 0 0x11 := ⟨whole, hvl, hroute, hkind⟩
    rw [exec_subscribeReceive, bundleIn_link (s := s.quiet) on (.inl rfl) head rfl, deliverBundle_subscribe _ _ hkind]
    refine ⟨fun child => ?_, fun notChild other => ?_, fun notChild parent => ?_⟩
    · rw [subscribeIn_child child]
      exact congrArg _ (fcFollow_of_not_armed _ (by simpa using still))
    · rw [subscribeIn_other (s := s.quiet.bump pgFAB F.FAB_st_DELIVERED) notChild other]
      exact congrArg _ (fcFollow_of_not_armed _ (by simpa using still))
    · rw [subscribeIn_parent (s := s.quiet.bump pgFAB F.FAB_st_DELIVERED) notChild parent]
      exact congrArg _ (fcFollow_of_not_armed _ (by simpa using still))
  case tile =>
    intro p b s run still alone whole hvl hroute hkind
    have head : BundleHead b 2 2 0x20 := ⟨whole, hvl, hroute, hkind⟩
    rw [exec_tileQuarterReceive, bundleIn_tile (s := s.quiet) (fabOn_of_inRun run) (.inr run) head rfl
      (tilePorts_of_none (s := s.quiet) alone _)]
    have noted := tileWhole_fc (quarterFn b) (quarterCol b) (quarterRow b) (quarterPlace b) s.quiet
    refine ⟨fun none' => ?_, fun v hv takes only source col0 col1 row0 row1 => ?_⟩
    · rw [tileDeliver_filtered (s := s.quiet) none']
      refine congrArg _ (fcFollow_of_not_armed _ ?_)
      dsimp only
      rw [apply_ite State.fab, bump_fab, ite_self, noted]
      exact still
    · have named : namesTile s (quarterCol b) (quarterRow b) v = true := namesTile_iff.mpr ⟨takes, source, ⟨col0, col1⟩, row0, row1⟩
      rw [tileDeliver_named (s := s.quiet) hv named only]
      refine congrArg _ (fcFollow_of_not_armed _ ?_)
      rw [tileQuarter_fab]
      dsimp only
      rw [apply_ite State.fab, bump_fab, bump_fab, ite_self, noted]
      exact still
  case override =>
    intro p b s q on still alone joins whole hvl hroute hkind first hq
    have head : BundleHead b 1 4 8 := ⟨whole, hvl, hroute, hkind⟩
    have heard : (floodHeard b s.quiet).bump pgFAB F.FAB_st_DELIVERED = q := hq.symm
    have stillq : q.fab.fc.armed = false := by rw [hq, bump_fab]; exact still
    rw [exec_overrideBundleReceive, bundleIn_flood (s := s.quiet) on (.inl rfl) head rfl,
      floodIn_first (s := s.quiet) head alone joins first (.inl (by decide)), deliverBundle_override _ _ _ hkind, heard]
    refine ⟨fun deaf => ?_, fun hears from' => ?_⟩
    · have shut : (floodHeard b s.quiet).flag pgFAB F.FAB_CUECFG_OVRACCEPT = false := deaf
      rw [shut, if_neg (by simp), fcFollow_of_not_armed q stillq]
    · have accepted : (floodHeard b s.quiet).flag pgFAB F.FAB_CUECFG_OVRACCEPT = true ∧
          (cueMaster (floodHeard b s.quiet) = some (bundleSource b) ∨ (floodHeard b s.quiet).flag pgFAB F.FAB_CUECFG_OVRANY = true) :=
        ⟨hears, from'.symm⟩
      rw [if_pos accepted, fcFollow_of_not_armed _ (by rw [ovrRelease_fab, ovrFire_fab]; exact stillq)]
  case cane =>
    intro p b s free up run still whole hvl hroute hkind here
    have head : BundleHead b 3 1 0x30 := ⟨whole, hvl, hroute, hkind⟩
    have taken := bundleIn_unicast (p := p.val) (l := []) (s := s.quiet) (fabOn_of_inRun run) (.inr run) head rfl here
    have heldq : (s.quiet.bump pgFAB F.FAB_st_DELIVERED).fab.fc.armed = false := by rw [bump_fab]; exact still
    rw [exec_tunnelledCaneReceive]
    refine ⟨fun stopped empty => ?_, fun runs empty => ?_, fun runs waits room => ?_⟩
    · have off : inRun s.quiet pgCANE = false := stopped
      rw [deliverBundle_cane (s := s.quiet) _ _ hkind (by simp [empty]), off, if_neg Bool.false_ne_true, fcFollow_of_not_armed _ heldq] at taken
      rw [tunnelled_of_empty (s := s.quiet) empty taken free up hkind]
      exact congrArg _ (caneTake_of_empty (s := s.quiet.bump pgFAB F.FAB_st_DELIVERED) empty)
    · have on : inRun s.quiet pgCANE = true := runs
      have room : s.quiet.net.cane.store.length < 8 := by simp [empty]
      rw [deliverBundle_cane (s := s.quiet) _ _ hkind room, on, if_pos rfl,
        fcFollow_of_not_armed _ (by rw [caneStore_fab]; exact heldq)] at taken
      have stored := caneStore_of_room (r := tunnelledReq b s.quiet) (s := s.quiet.bump pgFAB F.FAB_st_DELIVERED) room
      rw [tunnelled_of_empty (s := s.quiet) empty taken (by rw [stored]; exact free) (by rw [stored]; exact up) hkind]
      rfl
    · have on : inRun s.quiet pgCANE = true := runs
      rw [deliverBundle_cane (s := s.quiet) _ _ hkind room, on, if_pos rfl,
        fcFollow_of_not_armed _ (by rw [caneStore_fab]; exact heldq)] at taken
      refine ⟨_, tunnelledReq b s.quiet, rfl, ?_, rfl, rfl⟩
      rw [tunnelled_of_waiting (s := s.quiet) waits, taken, caneStore_of_room (s := s.quiet.bump pgFAB F.FAB_st_DELIVERED) room]
      rfl
  case firmware =>
    intro p b s run still whole hvl hroute hkind here
    have head : BundleHead b 3 1 0x31 := ⟨whole, hvl, hroute, hkind⟩
    rw [exec_firmwareBundleReceive, bundleIn_unicast (s := s.quiet) (fabOn_of_inRun run) (.inr run) head rfl here,
      deliverBundle_firmware _ _ _ hkind, fcFollow_of_not_armed _ (by rw [fabRing_fab, bump_fab]; exact still)]
  case txTail =>
    intro a i s h
    rw [exec_fabTxtailWrite, fabTxTail_idle (s := s.quiet) h]
    exact congrArg _ (answered_of_que_tsk (s := s.quiet) (t := s.quiet.setReg pgFAB 0x0F8 (i.setWidth 32)) rfl rfl)

end Sys2Proof.Machine
end

section
/-!
SUPPORT. Fabric commits (R378 to R383): the records of the commits that a node knows, what PREPARE, FIRE and ABORT make of them, and READY and
REPORT.
-/
namespace Sys2Proof.Machine
open Sys2Proof

/-! ### Numbers in a bundle's body -/

theorem leVal_leBytes (n v : Nat) : leVal (leBytes n v) = v % 256 ^ n := by
  induction n generalizing v with
  | zero => simp [leBytes, leVal, Nat.mod_one]
  | succ n ih =>
    rw [leBytes, leVal, ih, BitVec.toNat_ofNat, pow_succ' 256 n]
    exact Nat.mod_mul.symm

theorem beVal_beBytes (n v : Nat) : beVal (beBytes n v) = v % 256 ^ n := by rw [beVal, beBytes, List.reverse_reverse, leVal_leBytes]

/-- A body that begins with a number of four bytes names it. -/
theorem beVal_slice_front (v : Nat) (rest : List Byte) : beVal (slice (beBytes 4 v ++ rest) 0 4) = v % 2 ^ 32 := by
  have front := slice_middle [] (beBytes 4 v) rest
  rw [List.length_nil, List.nil_append, length_beBytes] at front
  exact (congrArg beVal front).trans (beVal_beBytes 4 v)

theorem getD_drop (l : List Byte) (k i : Nat) : (l.drop k).getD i 0 = l.getD (k + i) 0 := by simp [List.getD_eq_getElem?_getD]

theorem slice_drop (l : List Byte) (k i n : Nat) : slice (l.drop k) i n = slice l (k + i) n := by simp only [slice, getD_drop, Nat.add_assoc]

/-! ### The records of the commits known here (R380) -/

section
variable {cid code fn : Nat} {s : State}

theorem updFcOf_of_last (last : s.fab.fc.cid = some cid) (f : Fc → Fc) : updFcOf cid f s = updFc s f := if_pos last

theorem fcOf_of_last (last : s.fab.fc.cid = some cid) : fcOf s cid = some s.fab.fc := List.find?_cons_of_pos (by simpa using last)

@[simp] theorem updFc_fc (f : Fc → Fc) : (updFc s f).fab.fc = f s.fab.fc := rfl

/-- A change of a commit's record that leaves ARMED arms nothing. -/
theorem updFcOf_not_armed {f : Fc → Fc} (free : s.fab.fc.armed = false) (keeps : ∀ r, (f r).armed = r.armed) :
    (updFcOf cid f s).fab.fc.armed = false := by
  unfold updFcOf
  split
  · exact (keeps _).trans free
  · exact free

theorem newFc_fc (free : s.fab.fc.armed = false) (r : Fc) : (newFc r s).fab.fc = r := by simp [newFc, free]

/-- An outcome is noted in the record of its commit, which it disarms. -/
theorem fcOutcome_fc (last : s.fab.fc.cid = some cid) :
    (fcOutcome cid code fn s).fab.fc = { s.fab.fc with outcome := some code, used := fn, armed := false } := by
  simp [fcOutcome, updFcOf_of_last last, apply_ite State.fab, apply_ite FabState.fc]

/-- A refusal is noted in the record of its commit, and is its outcome. -/
theorem fcRefuse_fc (last : s.fab.fc.cid = some cid) :
    (fcRefuse cid code s).fab.fc = { s.fab.fc with refused := some code, outcome := some code, used := 0, armed := false } := by
  rw [fcRefuse, updFcOf_of_last last, fcOutcome_fc (by exact last)]
  rfl

theorem fcRefuse_cmt : (fcRefuse cid code s).cmt = s.cmt := by simp [fcRefuse, updFcOf, updFc, apply_ite State.cmt]

/-- The commit that this node followed last is no longer armed once CMT is idle again. -/
theorem fcFollow_free (h : s.fab.fc.armed = false ∨ s.cmt.mode = .idle ∧ s.fab.fc.cid.isSome = true) : (fcFollow s).fab.fc.armed = false := by
  by_cases armed : s.fab.fc.armed = false
  · rwa [fcFollow_of_not_armed s armed]
  · obtain ⟨idle, known⟩ := h.resolve_left armed
    obtain ⟨cid, last⟩ := Option.isSome_iff_exists.mp known
    unfold fcFollow
    rw [if_neg (by simpa using ⟨eq_true_of_ne_false armed, idle⟩)]
    dsimp only
    rw [last, Option.getD_some]
    have ends (code fn : Nat) : (fcOutcome cid code fn s).fab.fc.armed = false := by rw [fcOutcome_fc last]
    have refused : (fcRefuse cid 4 s).fab.fc.armed = false := by rw [fcRefuse_fc last]
    split <;> [exact ends ..; exact ends ..; exact refused; exact ends ..; exact ends ..]

end

/-! ### The cue master's own record of its commit (R379) -/

/-- The target, policy and scope of the master's commit, and its table of reports. -/
def masterPart (s : State) : Nat × Bool × Bool × List (Nat × Nat × Nat) := (s.fab.mTarget, s.fab.mWindow, s.fab.mCluster, s.fab.table)

theorem masterPart_of_fab {s t : State} (h : t.fab = s.fab) : masterPart t = masterPart s := by rw [masterPart, h, masterPart]

theorem SendPartsOnly.masterPart {s t : State} (h : SendPartsOnly s t) : masterPart t = masterPart s := by
  obtain ⟨_, _, _, _, _, _, _, rfl⟩ := h
  rfl

section
variable (cid code fn : Nat) (s : State)

@[simp] theorem updFc_masterPart (f : Fc → Fc) : masterPart (updFc s f) = masterPart s := rfl

@[simp] theorem updFcOf_masterPart (f : Fc → Fc) : masterPart (updFcOf cid f s) = masterPart s := by
  unfold updFcOf
  split <;> rfl

@[simp] theorem newFc_masterPart (r : Fc) : masterPart (newFc r s) = masterPart s := by
  by_cases h : s.fab.fc.armed = true <;> simp [newFc, masterPart, h]

@[simp] theorem fcOutcome_masterPart : masterPart (fcOutcome cid code fn s) = masterPart s := by
  unfold fcOutcome
  extract_lets noted shown
  have kept : masterPart shown = masterPart s := (masterPart_of_fab (evt_fab ..)).trans (updFcOf_masterPart cid s _)
  exact ite_induct (P := fun t => masterPart t = masterPart s) kept kept

@[simp] theorem fcRefuse_masterPart : masterPart (fcRefuse cid code s) = masterPart s :=
  (fcOutcome_masterPart ..).trans (updFcOf_masterPart ..)

@[simp] theorem fcFollow_masterPart : masterPart (fcFollow s) = masterPart s := by
  unfold fcFollow
  refine ite_induct (P := fun t => masterPart t = masterPart s) rfl ?_
  dsimp only
  split <;> simp

end

/-! ### PREPARE (R379, R380) -/

/-- What a node notes of a commit that it is to prepare. -/
def preparedFc (body : List Byte) : Fc :=
  { cid := some (beVal (slice body 0 4)), target := beVal (slice body 4 6), abortWindow := decide ((body.getD 10 0).toNat % 2 = 1),
    sendSt := BitVec.ofNat 32 (beVal (slice body 12 4)) }

/-- CMT armed for the fabric's commit by its owner. -/
def prepareArm (body : List Byte) (s : State) : State :=
  let t := updFc s fun f => { f with armed := true }
  armFor t.cmt.owner (beVal (slice body 4 6)) (!decide ((body.getD 10 0).toNat % 2 = 1))
    ((t.setReg pgFAB 0x0B0 (t.reg pgFAB 0x0B0 ||| 16)).setReg pgFAB 0x0B4 (BitVec.ofNat 32 (beVal (slice body 0 4))))

section
variable {body : List Byte} {s : State}

theorem prepareArm_fc : (prepareArm body s).fab.fc = { s.fab.fc with armed := true } := rfl

theorem prepareArm_cmt : (prepareArm body s).cmt =
    { s.cmt with mode := .checking, target := beVal (slice body 4 6), late := false, latePol := decide ((body.getD 10 0).toNat % 2 = 0),
                 arming := s.cmt.owner, disarmPending := false, waitE := false } := by
  have policy : (!decide ((body.getD 10 0).toNat % 2 = 1)) = decide ((body.getD 10 0).toNat % 2 = 0) := by
    rw [← decide_not]
    exact decide_eq_decide.mpr Nat.mod_two_ne_one
  rw [← policy]
  rfl

/-- The commit prepared is the last one known here, refused or armed. -/
theorem prepareIn_cid (free : s.fab.fc.armed = false ∨ s.cmt.mode = .idle ∧ s.fab.fc.cid.isSome = true) :
    (prepareIn body s).fab.fc.cid = some (beVal (slice body 0 4)) := by
  have noted := newFc_fc (fcFollow_free free) (preparedFc body)
  have refused (code : Nat) : (fcRefuse (beVal (slice body 0 4)) code (newFc (preparedFc body) (fcFollow s))).fab.fc.cid =
      some (beVal (slice body 0 4)) := by
    rw [fcRefuse_fc (by rw [noted]; rfl), noted]
    rfl
  exact ite_induct (P := fun t => t.fab.fc.cid = _) (refused 5) (ite_induct (P := fun t => t.fab.fc.cid = _) (refused 6)
    (ite_induct (P := fun t => t.fab.fc.cid = _) (refused 7) (ite_induct (P := fun t => t.fab.fc.cid = _) (refused 8)
    (congrArg Fc.cid noted :))))

theorem prepareIn_masterPart : masterPart (prepareIn body s) = masterPart s := by
  have noted : masterPart (newFc (preparedFc body) (fcFollow s)) = masterPart s := by simp
  have refused (code : Nat) : masterPart (fcRefuse (beVal (slice body 0 4)) code (newFc (preparedFc body) (fcFollow s))) = masterPart s :=
    (fcRefuse_masterPart ..).trans noted
  exact ite_induct (P := fun t => masterPart t = _) (refused 5) (ite_induct (P := fun t => masterPart t = _) (refused 6)
    (ite_induct (P := fun t => masterPart t = _) (refused 7) (ite_induct (P := fun t => masterPart t = _) (refused 8) noted)))

section
variable (free : s.fab.fc.armed = false)
include free

theorem prepareIn_busy (busy : s.cmt.mode ≠ .idle) : prepareIn body s = fcRefuse (beVal (slice body 0 4)) 5 (newFc (preparedFc body) s) := by
  unfold prepareIn
  rw [fcFollow_of_not_armed s free]
  exact if_pos busy

theorem prepareIn_unowned (idle : s.cmt.mode = .idle) (unowned : s.cmt.owner = 0) :
    prepareIn body s = fcRefuse (beVal (slice body 0 4)) 6 (newFc (preparedFc body) s) := by
  unfold prepareIn
  rw [fcFollow_of_not_armed s free]
  exact (if_neg (not_not_intro idle)).trans (if_pos unowned)

theorem prepareIn_stayingOut (idle : s.cmt.mode = .idle) (owned : s.cmt.owner ≠ 0) (out : s.flag pgFAB F.FAB_CUECFG_JOIN = false) :
    prepareIn body s = fcRefuse (beVal (slice body 0 4)) 7 (newFc (preparedFc body) s) := by
  have shut : (!(newFc (preparedFc body) s).flag pgFAB F.FAB_CUECFG_JOIN) = true := congrArg (!·) out
  unfold prepareIn
  rw [fcFollow_of_not_armed s free]
  exact (if_neg (not_not_intro idle)).trans ((if_neg owned).trans (if_pos shut))

theorem prepareIn_joins (idle : s.cmt.mode = .idle) (owned : s.cmt.owner ≠ 0) (joins : s.flag pgFAB F.FAB_CUECFG_JOIN = true)
    (rate : (body.getD 10 0).toNat / 2 % 32 = s.get pgTIME F.TIME_MODE_CURIDX)
    (near : nearFn (fnOf s s.time.ft) (beVal (slice body 4 6) % 65536) = beVal (slice body 4 6)) :
    prepareIn body s = prepareArm body (newFc (preparedFc body) s) := by
  have open' : (!(newFc (preparedFc body) s).flag pgFAB F.FAB_CUECFG_JOIN) ≠ true := by
    rw [show (newFc (preparedFc body) s).flag pgFAB F.FAB_CUECFG_JOIN = true from joins]
    simp
  unfold prepareIn
  rw [fcFollow_of_not_armed s free]
  exact (if_neg (not_not_intro idle)).trans ((if_neg owned).trans ((if_neg open').trans (if_neg (not_or_intro (not_not_intro rate) (not_not_intro near)))))

/-- A refused PREPARE notes the refusal as the outcome and leaves CMT. -/
theorem fcRefuse_prepared (code : Nat) :
    (fcRefuse (beVal (slice body 0 4)) code (newFc (preparedFc body) s)).fab.fc =
      { preparedFc body with refused := some code, outcome := some code, used := 0, armed := false } ∧
    (fcRefuse (beVal (slice body 0 4)) code (newFc (preparedFc body) s)).cmt = s.cmt := by
  have noted := newFc_fc free (preparedFc body)
  refine ⟨?_, fcRefuse_cmt⟩
  rw [fcRefuse_fc (by rw [noted]; rfl), noted]

end

/-! ### FIRE and ABORT (R379, R382) -/

variable {cid : Nat}

theorem fireIn_known (known : (fcOf s cid).isSome = true) : fireIn cid s = updFcOf cid (fun f => { f with fired := true }) s := by
  obtain ⟨f, hf⟩ := Option.isSome_iff_exists.mp known
  simp only [fireIn, hf]

/-- A FIRE of a commit not known here is outcome 3. -/
theorem fireIn_unknown (unknown : fcOf s cid = none) (free : s.fab.fc.armed = false) :
    (fireIn cid s).fab.fc = { cid := some cid, outcome := some 3 } := by
  have noted := newFc_fc free { cid := some cid }
  simp only [fireIn, unknown]
  rw [fcOutcome_fc (by rw [noted]), noted]

theorem fireIn_last (last : s.fab.fc.cid = some cid) : (fireIn cid s).fab.fc = { s.fab.fc with fired := true } := by
  rw [fireIn_known (by rw [fcOf_of_last last]; rfl), updFcOf_of_last last]
  rfl

theorem fireIn_last_regs (last : s.fab.fc.cid = some cid) : (fireIn cid s).regs = s.regs := by
  rw [fireIn_known (by rw [fcOf_of_last last]; rfl), updFcOf_of_last last]
  rfl

section
variable (last : s.fab.fc.cid = some cid)
include last

/-- An ABORT of the last commit changes nothing where that is not armed and has no outcome. -/
theorem abortIn_pending (free : s.fab.fc.armed = false) (open' : s.fab.fc.outcome = none) : abortIn cid s = s := by
  simp [abortIn, fcOf_of_last last, free, open']

theorem abortIn_armed (armed : s.fab.fc.armed = true) (mode : s.cmt.mode = .armed) : abortIn cid s = fcOutcome cid 10 0 (cancelCommit 7 s) := by
  simp [abortIn, fcOf_of_last last, armed, mode]

theorem abortIn_locked (armed : s.fab.fc.armed = true) (mode : s.cmt.mode = .locked) :
    abortIn cid s = updFc s fun f => { f with abortLate := true } := by
  simp [abortIn, fcOf_of_last last, armed, mode, updFcOf_of_last last]

/-- An ABORT of the last commit, armed and not yet LOCKED, is outcome 10, and disarms CMT. -/
theorem abortIn_disarms (armed : s.fab.fc.armed = true) (mode : s.cmt.mode = .armed) : (abortIn cid s).fab.fc.outcome = some 10 ∧
    (abortIn cid s).fab.fc.armed = false ∧ (abortIn cid s).cmt.mode = .idle := by
  have kept : (cancelCommit 7 s).fab = s.fab := by simp [cancelCommit]
  rw [abortIn_armed last armed mode, fcOutcome_fc (by rwa [kept]), fcOutcome_cmt, cancelCommit, endCommit_cmt]
  exact ⟨rfl, rfl, rfl⟩

end
end

/-! ### The commands of the cue master (R379, R382) -/

section
variable {a : Nat} {v : Word} {s : State}

section
variable (go : bitsOf v 0 1 = 1)
include go

theorem fcmtGo_running (run : s.get pgFAB F.FAB_FCSTAT_STATE = 1 ∨ s.get pgFAB F.FAB_FCSTAT_STATE = 2) :
    fcmtGo a v s = s.fault pgFAB 0x40 0x084 a := by
  unfold fcmtGo
  exact (if_neg (by simp [go])).trans (if_pos run)

variable (rest : ¬ (s.get pgFAB F.FAB_FCSTAT_STATE = 1 ∨ s.get pgFAB F.FAB_FCSTAT_STATE = 2))
include rest

theorem fcmtGo_notMaster (other : isMaster s = false) : fcmtGo a v s = s.fault pgFAB 0x41 0x084 a := by
  unfold fcmtGo
  exact (if_neg (by simp [go])).trans ((if_neg rest).trans (if_pos (by simp [other])))

/-- GO at the cue master begins a commit of the next CID: this node prepares the body that it floods. -/
theorem fcmtGo_prepares (master : isMaster s = true) : ∃ body t, fcmtGo a v s = prepareIn body (sendFlood [0, 1] (decide (bitsOf v 2 1 = 1)) 0x01 body t) ∧
    beVal (slice body 0 4) = (s.get pgFAB F.FAB_FCID_CID + 1) % 2 ^ 32 ∧ t.cmt = s.cmt ∧
    t.fab = { s.fab with table := [], mCluster := decide (bitsOf v 2 1 = 1), mWindow := decide (bitsOf v 1 1 = 1),
                         mTarget := s.get pgFAB F.FAB_FCTGTL_TGT + s.get pgFAB F.FAB_FCTGTH_TGT * 2 ^ 32 } := by
  unfold fcmtGo
  refine ⟨_, _, (if_neg (by simp [go])).trans ((if_neg rest).trans (if_neg (by simp [master]))), ?_, ?_, ?_⟩
  · simp only [List.append_assoc]
    rw [beVal_slice_front, Nat.mod_mod]
  · simp
  · simp

end

/-- FIRE and ABORT are refused with no commit in PREPARED, and FIRE also where the commit's policy lets it go alone. -/
theorem fcctl_refused (asks : bitsOf v 0 1 = 1 ∨ bitsOf v 1 1 = 1)
    (no : s.get pgFAB F.FAB_FCSTAT_STATE ≠ 1 ∨ bitsOf v 0 1 = 1 ∧ s.fab.mWindow = true) : fcctl a v s = s.fault pgFAB 0x42 0x090 a := by
  unfold fcctl
  refine (if_neg ?_).trans (if_pos no)
  rintro ⟨hf, ha⟩
  exact asks.elim (of_decide_eq_false (by simpa using hf)) (of_decide_eq_false (by simpa using ha))

/-- FCSTAT shows what the master does, and the bundle that says so has left on the trees. -/
def fcctlFlooded (state kind : Nat) (s : State) : State :=
  sendFlood [0, 1] s.fab.mCluster kind (beBytes 4 (s.get pgFAB F.FAB_FCID_CID)) (s.set pgFAB F.FAB_FCSTAT_STATE state)

section
variable (state kind : Nat)

@[simp] theorem fcctlFlooded_fc : (fcctlFlooded state kind s).fab.fc = s.fab.fc := by
  rw [fcctlFlooded, (SendPartsOnly.sendFlood ..).fc, set_fab]

@[simp] theorem fcctlFlooded_cmt : (fcctlFlooded state kind s).cmt = s.cmt := by
  rw [fcctlFlooded, (SendPartsOnly.sendFlood ..).cmt, set_cmt]

theorem fcctlFlooded_state (ok : StoresOk s) : (fcctlFlooded state kind s).get pgFAB F.FAB_FCSTAT_STATE = state % 2 ^ 3 := by
  rw [fcctlFlooded, get_of_regs (sendFlood_regs ..), get_set_same ok _ (by decide)]
  rfl

end

section
variable (prepared : s.get pgFAB F.FAB_FCSTAT_STATE = 1)
include prepared

theorem fcctl_fires (waits : s.fab.mWindow = false) : fcctl a 1 s = fireIn (s.get pgFAB F.FAB_FCID_CID) (fcctlFlooded 2 0x03 s) := by
  unfold fcctl
  exact (if_neg (by decide)).trans ((if_neg (by simp [prepared, waits])).trans (if_pos rfl))

theorem fcctl_aborts : fcctl a 2 s = abortIn (s.get pgFAB F.FAB_FCID_CID) (fcctlFlooded 3 0x04 s) := by
  unfold fcctl
  have still : bitsOf (2 : Word) 0 1 ≠ 1 := by decide
  exact (if_neg (by decide)).trans ((if_neg fun h => h.elim (· prepared) (still ·.1)).trans (if_neg still))

variable (last : s.fab.fc.cid = some (s.get pgFAB F.FAB_FCID_CID))
include last

/-- FIRE marks the master's own record of the commit, and FCSTAT shows it. -/
theorem fcctl_fires_last (ok : StoresOk s) (waits : s.fab.mWindow = false) :
    (fcctl a 1 s).fab.fc = { s.fab.fc with fired := true } ∧ (fcctl a 1 s).get pgFAB F.FAB_FCSTAT_STATE = 2 := by
  have last' : (fcctlFlooded 2 0x03 s).fab.fc.cid = some (s.get pgFAB F.FAB_FCID_CID) := by rwa [fcctlFlooded_fc]
  rw [fcctl_fires prepared waits, fireIn_last last', fcctlFlooded_fc, get_of_regs (fireIn_last_regs last'), fcctlFlooded_state _ _ ok]
  exact ⟨rfl, rfl⟩

/-- ABORT of a commit that the master itself has not armed shows in FCSTAT alone. -/
theorem fcctl_aborts_pending (ok : StoresOk s) (free : s.fab.fc.armed = false) (open' : s.fab.fc.outcome = none) :
    (fcctl a 2 s).fab.fc = s.fab.fc ∧ (fcctl a 2 s).get pgFAB F.FAB_FCSTAT_STATE = 3 := by
  rw [fcctl_aborts prepared, abortIn_pending (by rwa [fcctlFlooded_fc]) (by rwa [fcctlFlooded_fc]) (by rwa [fcctlFlooded_fc]), fcctlFlooded_fc,
    fcctlFlooded_state _ _ ok]
  exact ⟨rfl, rfl⟩

theorem fcctl_aborts_armed (armed : s.fab.fc.armed = true) (mode : s.cmt.mode = .armed) :
    (fcctl a 2 s).fab.fc.outcome = some 10 ∧ (fcctl a 2 s).fab.fc.armed = false ∧ (fcctl a 2 s).cmt.mode = .idle := by
  rw [fcctl_aborts prepared]
  exact abortIn_disarms (by rwa [fcctlFlooded_fc]) (by rwa [fcctlFlooded_fc]) (by rwa [fcctlFlooded_cmt])

end

end

/-! ### READY (R381) -/

section
variable {p : Nat} {body : List Byte} {s : State}

theorem readyIn_known (known : (fcOf s (beVal (slice body 0 4))).isSome = true) : readyIn (some p) body s = updFcOf (beVal (slice body 0 4))
    (fun f => { f with kids := (p, beVal (slice body 4 4), beVal (slice body 8 4)) :: f.kids.filter (·.1 ≠ p) }) s := if_pos known

theorem readyIn_unknown (unknown : fcOf s (beVal (slice body 0 4)) = none) : readyIn (some p) body s =
    relayReady p (beVal (slice body 0 4)) (beVal (slice body 4 4)) (beVal (slice body 8 4)) s := if_neg (by simp [unknown])

/-- Nothing is due where every commit known here has sent its READY. -/
theorem readySend_none (sent : ∀ f ∈ s.fab.fc :: s.fab.olds, f.cid = none ∨ f.readySent = true) : readySend s = s := by
  have none' : (s.fab.fc :: s.fab.olds).find? (readyDue s) = none := List.find?_eq_none.mpr fun f hf => by
    rcases sent f hf with h | h <;> simp [readyDue, h]
  simp only [readySend, none']

/-- The last commit's READY that is due is sent, and noted as sent. -/
theorem readySend_last {c : Nat} (last : s.fab.fc.cid = some c) (due : readyDue s s.fab.fc = true) :
    (readySend s).fab.fc = { s.fab.fc with readySent := true } := by
  have first : (s.fab.fc :: s.fab.olds).find? (readyDue s) = some s.fab.fc := List.find?_cons_of_pos due
  simp only [readySend, first, last, Option.getD_some]
  rw [(SendPartsOnly.readyUp ..).fc, updFcOf_of_last last]
  rw [updFc_fc, last]

theorem readyDue_of_kids {f : Fc} (known : f.cid.isSome = true) (unsent : f.readySent = false) (checked : s.cmt.mode ≠ .checking)
    (out : f.outcome ≠ some 3) (kids : ((childPorts s 0).all fun b => f.kids.any (·.1 = b)) = true) : readyDue s f = true := by
  simp [readyDue, known, unsent, checked, out, kids]

/-! ### REPORT (R383) -/

theorem reportSend_none (h : s.fab.reports = [] ∨ cueMaster s = none) : reportSend s = s := by
  unfold reportSend
  rcases h with h | h
  · simp only [h]
  · rw [h]
    cases s.fab.reports <;> rfl

/-- The first report that waits leaves: the master takes it itself, another node sends it on its route. -/
theorem reportSend_sends {r : Report} {l : List Report} {m : Nat} (waits : s.fab.reports = r :: l) (master : cueMaster s = some m)
    (way : isMaster s = true ∨ ∃ b, routePort s m false = some b ∧ flows s b = true) : (reportSend s).fab.reports = l := by
  simp only [reportSend, waits, master]
  by_cases here : isMaster s = true
  · rw [if_pos here]
    rfl
  · obtain ⟨b, route, up⟩ := way.resolve_left here
    rw [if_neg here]
    simp only [route]
    rw [if_pos up]
    rfl

variable {src : Nat}

theorem reportIn_other (h : isMaster s = false ∨ beVal (slice body 0 4) ≠ s.get pgFAB F.FAB_FCID_CID) :
    reportIn src body s = s.bump pgFAB F.FAB_st_REPORTS := by
  refine if_pos ?_
  rcases h with h | h
  · exact .inr (by rw [show isMaster (s.bump pgFAB F.FAB_st_REPORTS) = false from h]; rfl)
  · exact .inl (by rwa [get_of_regs (bump_regs ..)])

@[simp] theorem reportIn_fc : (reportIn src body s).fab.fc = s.fab.fc := by
  simp [reportIn, apply_ite State.fab, apply_ite FabState.fc]

/-- The master enters a report of its commit in the table, which keeps 32. -/
theorem reportIn_table (master : isMaster s = true) (cid : beVal (slice body 0 4) = s.get pgFAB F.FAB_FCID_CID) :
    (reportIn src body s).fab.table = (s.fab.table ++ [(src, (body.getD 4 0).toNat, beVal (slice body 6 6))]).take 32 := by
  unfold reportIn
  dsimp only
  rw [if_neg (by
    rw [get_of_regs (bump_regs ..), show isMaster (s.bump pgFAB F.FAB_st_REPORTS) = true from master]
    simp [cid])]
  simp [apply_ite State.fab]

end

end Sys2Proof.Machine
end

section
/-!
PROOF. O35: fabric commits at the cue master and at its members.
-/
namespace Sys2Proof.Machine
open Sys2Proof

@[simp] theorem answered_fab (s t : State) : (answered s t).fab = t.fab := by unfold answered; split <;> rfl

/-! ### The commands -/

section
variable (a : BitVec 4) (w o : Bool) (p : Fin 4) (b : List Byte) (s : State)

theorem exec_fcmtGo : exec (.fcmtGo a w o) s =
    .next (answered s.quiet (fcmtGo a.toNat (BitVec.ofNat 32 (1 + 2 * w.toNat + 4 * o.toNat)) s.quiet)) := execFcmtGo_eq a w o s

theorem exec_fcctlFire : exec (.fcctlFire a) s = .next (answered s.quiet (fcctl a.toNat 1 s.quiet)) := execFcctlFire_eq a s
theorem exec_fcctlAbort : exec (.fcctlAbort a) s = .next (answered s.quiet (fcctl a.toNat 2 s.quiet)) := execFcctlAbort_eq a s
theorem exec_readySend : exec .readySend s = .next (readySend s.quiet) := rfl
theorem exec_reportSend : exec .reportSend s = .next (reportSend s.quiet) := rfl
theorem exec_reportRouteExpiry : exec .reportRouteExpiry s = .next (reportExpiry s.quiet) := rfl

/-- The word of GO: its bits are GO, the policy and the scope. -/
theorem fcmtWord_bits : bitsOf (BitVec.ofNat 32 (1 + 2 * w.toNat + 4 * o.toNat)) 0 1 = 1 ∧
    decide (bitsOf (BitVec.ofNat 32 (1 + 2 * w.toNat + 4 * o.toNat)) 1 1 = 1) = w ∧
    decide (bitsOf (BitVec.ofNat 32 (1 + 2 * w.toNat + 4 * o.toNat)) 2 1 = 1) = o := by
  cases w <;> cases o <;> decide

end

/-! ### A commit's bundles that are delivered -/

section
variable {p : Nat} {b : List Byte} {s : State}

/-- The state in which the first copy of a flood is delivered. -/
def floodDelivered (b : List Byte) (s : State) : State := (floodHeard b s).bump pgFAB F.FAB_st_DELIVERED

theorem floodDelivered_fc : (floodDelivered b s).fab.fc = s.fab.fc := by rw [floodDelivered, bump_fab, fc_floodHeard]

theorem bundleIn_notMaster {kind : Nat} (on : fabOn s = true) (still : s.fab.fc.armed = false) (head : BundleHead b 1 4 kind)
    (commit : kind = 1 ∨ kind = 3 ∨ kind = 4) (other : cueMaster s ≠ some (bundleSource b)) :
    bundleIn (some p) none b [] s = s.bump pgFAB F.FAB_st_NOTMASTER := by
  have suits : kindOk kind 1 4 = true := by rcases commit with rfl | rfl | rfl <;> rfl
  rw [bundleIn_flood on (.inl rfl) head suits, floodIn_notMaster (by rwa [head.kind]) other, fcFollow_of_not_armed _ (by rwa [bump_fab])]

section
variable (on : fabOn s = true) (alone : nbPorts s = []) (joins : joinPorts s = []) (first : ∀ e ∈ s.fab.seen, e.1 ≠ bundleSource b)
  (master : cueMaster s = some (bundleSource b))
include on alone joins first master

theorem bundleIn_prepare (head : BundleHead b 1 4 1) : bundleIn (some p) none b [] s = fcFollow (prepareIn (b.drop 16) (floodDelivered b s)) := by
  rw [bundleIn_flood on (.inl rfl) head rfl, floodIn_first head alone joins first (.inr master), deliverBundle_prepare _ _ _ head.kind]
  rfl

theorem bundleIn_fire (head : BundleHead b 1 4 3) :
    bundleIn (some p) none b [] s = fcFollow (fireIn (beVal (slice (b.drop 16) 0 4)) (floodDelivered b s)) := by
  rw [bundleIn_flood on (.inl rfl) head rfl, floodIn_first head alone joins first (.inr master), deliverBundle_fire _ _ _ head.kind]
  rfl

theorem bundleIn_abort (head : BundleHead b 1 4 4) :
    bundleIn (some p) none b [] s = fcFollow (abortIn (beVal (slice (b.drop 16) 0 4)) (floodDelivered b s)) := by
  rw [bundleIn_flood on (.inl rfl) head rfl, floodIn_first head alone joins first (.inr master), deliverBundle_abort _ _ _ head.kind]
  rfl

end

/-- A refused PREPARE, as it is received. -/
theorem fcFollow_refused {body : List Byte} (free : s.fab.fc.armed = false) (code : Nat) {t : State}
    (refused : prepareIn body s = fcRefuse (beVal (slice body 0 4)) code (newFc (preparedFc body) s)) (ht : t = fcFollow (prepareIn body s)) :
    t.fab.fc.refused = some code ∧ t.fab.fc.outcome = some code ∧ t.cmt = s.cmt := by
  obtain ⟨noted, kept⟩ := fcRefuse_prepared (body := body) free code
  rw [ht, refused, fcFollow_of_not_armed _ (by rw [noted]), noted]
  exact ⟨rfl, rfl, kept⟩

end

/-- Settles O35, command by command from what GO, FIRE, ABORT, READY and REPORT make of the records of the commits known here. -/
theorem fabricCommits : Obligations.FabricCommits := by
  refine ⟨?go, ?notPrepared, ?goesAlone, ?master, ?notMaster, ?prepare, ?fire, ?abortPending, ?abortArmed, ?ready, ?readySent, ?readyLast,
    ?noReport, ?report, ?expiry, ?reports⟩
  case go =>
    intro a w o s
    obtain ⟨go, window, own⟩ := fcmtWord_bits w o
    rw [exec_fcmtGo]
    refine ⟨fun run => ?_, fun h1 h2 other => ?_, fun h1 h2 master free => ?_⟩
    · rw [fcmtGo_running (s := s.quiet) go run, answered_fault]
    · rw [fcmtGo_notMaster (s := s.quiet) go (not_or_intro h1 h2) other, answered_fault]
    · obtain ⟨body, t, began, cid, cmt, fab⟩ := fcmtGo_prepares (a := a.toNat) (s := s.quiet) go (not_or_intro h1 h2) master
      have sent := SendPartsOnly.sendFlood [0, 1] (decide (bitsOf (BitVec.ofNat 32 (1 + 2 * w.toNat + 4 * o.toNat)) 2 1 = 1)) 0x01 body t
      have known := prepareIn_cid (body := body) (by rw [sent.fc, sent.cmt, cmt, fab]; exact free)
      have own' := (prepareIn_masterPart (body := body)).trans sent.masterPart
      rw [← began] at known own'
      rw [masterPart, masterPart, fab, window, own] at own'
      simp only [Prod.mk.injEq] at own'
      obtain ⟨target, window', scope, table⟩ := own'
      refine ⟨_, rfl, ?_⟩
      rw [answered_fab]
      exact ⟨target, window', scope, table, known.trans (congrArg some cid)⟩
  case notPrepared =>
    intro a s other
    rw [exec_fcctlFire, exec_fcctlAbort, fcctl_refused (s := s.quiet) (.inl rfl) (.inl other), fcctl_refused (s := s.quiet) (.inr rfl) (.inl other),
      answered_fault]
    exact ⟨rfl, rfl⟩
  case goesAlone =>
    intro a s prepared alone
    rw [exec_fcctlFire, fcctl_refused (s := s.quiet) (.inl rfl) (.inr ⟨rfl, alone⟩), answered_fault]
  case master =>
    intro a s ok prepared last
    refine ⟨fun waits => ?_, fun free open' => ?_, fun armed mode => ?_⟩
    · refine ⟨_, exec_fcctlFire a s, ?_⟩
      rw [answered_fab, answered_get]
      exact fcctl_fires_last (s := s.quiet) prepared last ok.quiet waits
    · refine ⟨_, exec_fcctlAbort a s, ?_⟩
      rw [answered_fab, answered_get]
      exact fcctl_aborts_pending (s := s.quiet) prepared last ok.quiet free open'
    · refine ⟨_, exec_fcctlAbort a s, ?_⟩
      rw [answered_fab, answered_cmt]
      exact fcctl_aborts_armed (s := s.quiet) prepared last armed mode
  case notMaster =>
    intro p b s on still whole hvl hroute other
    rw [exec_prepareReceive, exec_fireReceive, exec_abortReceive]
    exact ⟨fun kind => congrArg _ (bundleIn_notMaster (s := s.quiet) on still ⟨whole, hvl, hroute, kind⟩ (by decide) other),
      fun kind => congrArg _ (bundleIn_notMaster (s := s.quiet) on still ⟨whole, hvl, hroute, kind⟩ (by decide) other),
      fun kind => congrArg _ (bundleIn_notMaster (s := s.quiet) on still ⟨whole, hvl, hroute, kind⟩ (by decide) other)⟩
  case prepare =>
    intro p b s q on still alone joins whole hvl hroute kind first master _
    have free : (floodDelivered b s.quiet).fab.fc.armed = false := by rw [floodDelivered_fc]; exact still
    rw [exec_prepareReceive, bundleIn_prepare (s := s.quiet) on alone joins first master ⟨whole, hvl, hroute, kind⟩]
    refine ⟨fun busy => ?_, fun idle unowned => ?_, fun idle owned out => ?_, fun idle owned joining rate near => ?_⟩
    · exact ⟨_, rfl, fcFollow_refused free 5 (prepareIn_busy free busy) rfl⟩
    · exact ⟨_, rfl, fcFollow_refused free 6 (prepareIn_unowned free idle unowned) rfl⟩
    · exact ⟨_, rfl, fcFollow_refused free 7 (prepareIn_stayingOut free idle owned out) rfl⟩
    · rw [prepareIn_joins free idle owned joining (by rw [getD_drop]; exact rate) (by rw [slice_drop]; exact near),
        fcFollow_of_not_idle _ (by simp [prepareArm_cmt])]
      refine ⟨_, rfl, rfl, ?_, ?_⟩
      · rw [prepareArm_fc, newFc_fc free, preparedFc, slice_drop]
      · rw [prepareArm_cmt, slice_drop, getD_drop]
        rfl
  case fire =>
    intro p b s q on still alone joins whole hvl hroute kind first master hq
    have hq' : floodDelivered b s.quiet = q := hq.symm
    rw [exec_fireReceive, bundleIn_fire (s := s.quiet) on alone joins first master ⟨whole, hvl, hroute, kind⟩, hq']
    have free : q.fab.fc.armed = false := by rw [← hq', floodDelivered_fc]; exact still
    have same : fcOf q (beVal (slice (b.drop 16) 0 4)) = fcOf s (beVal (slice (b.drop 16) 0 4)) := by rw [hq]; rfl
    refine ⟨fun known => ?_, fun unknown => ?_⟩
    · rw [fireIn_known (by rwa [same])]
      exact congrArg _ (fcFollow_of_not_armed _ (updFcOf_not_armed free fun _ => rfl))
    · have noted := fireIn_unknown (same.trans unknown) free
      rw [fcFollow_of_not_armed _ (by rw [noted])]
      exact ⟨_, rfl, noted⟩
  case abortPending =>
    intro p b s q on still alone joins whole hvl hroute kind first master hq last open'
    have hq' : floodDelivered b s.quiet = q := hq.symm
    have fc : q.fab.fc = s.fab.fc := by rw [← hq', floodDelivered_fc]; rfl
    rw [exec_abortReceive, bundleIn_abort (s := s.quiet) on alone joins first master ⟨whole, hvl, hroute, kind⟩, hq',
      abortIn_pending (by rwa [fc]) (by rwa [fc]) (by rwa [fc]), fcFollow_of_not_armed _ (by rwa [fc])]
  case abortArmed =>
    intro p b s q on armed alone joins whole hvl hroute kind first master hq last
    have hq' : floodDelivered b s.quiet = q := hq.symm
    have fc : q.fab.fc = s.fab.fc := by rw [← hq', floodDelivered_fc]; rfl
    have cmt : q.cmt = s.cmt := by rw [hq, bump_cmt]; rfl
    rw [exec_abortReceive, bundleIn_abort (s := s.quiet) on alone joins first master ⟨whole, hvl, hroute, kind⟩, hq']
    refine ⟨fun mode => ?_, fun mode => ?_⟩
    · have disarmed := abortIn_disarms (s := q) (by rwa [fc]) (by rwa [fc]) (by rwa [cmt])
      rw [fcFollow_of_not_armed _ disarmed.2.1]
      exact ⟨_, rfl, disarmed⟩
    · rw [abortIn_locked (by rwa [fc]) (by rwa [fc]) (by rwa [cmt])]
      refine congrArg _ (fcFollow_of_not_idle _ ?_)
      rw [updFc, updFab_cmt, cmt, mode]
      decide
  case ready =>
    intro p b s on still whole hvl hroute kind
    have head : BundleHead b 1 0 2 := ⟨whole, hvl, hroute, kind⟩
    have free : (s.quiet.bump pgFAB F.FAB_st_DELIVERED).fab.fc.armed = false := by rw [bump_fab]; exact still
    rw [exec_readyReceive, bundleIn_link (s := s.quiet) on (.inl rfl) head rfl, deliverBundle_ready _ _ head]
    refine ⟨fun kids unknown hkids => ?_, fun known => ?_⟩
    · rw [readyIn_unknown (s := s.quiet.bump pgFAB F.FAB_st_DELIVERED) unknown, hkids]
      refine congrArg _ (fcFollow_of_not_armed _ ?_)
      exact (congrArg Fc.armed (SendPartsOnly.readyUp ..).fc).trans free
    · rw [readyIn_known (s := s.quiet.bump pgFAB F.FAB_st_DELIVERED) known]
      exact congrArg _ (fcFollow_of_not_armed _ (updFcOf_not_armed free fun _ => rfl))
  case readySent =>
    intro s sent
    rw [exec_readySend, readySend_none (s := s.quiet) sent]
  case readyLast =>
    intro c s last unsent checked out kids
    have known : s.quiet.fab.fc.cid.isSome = true := Option.isSome_iff_exists.mpr ⟨c, last⟩
    exact ⟨_, exec_readySend s, readySend_last (s := s.quiet) last (readyDue_of_kids (s := s.quiet) known unsent checked out kids)⟩
  case noReport =>
    intro s h
    rw [exec_reportSend, reportSend_none (s := s.quiet) h]
  case report =>
    intro r l m s waits master way
    exact ⟨_, exec_reportSend s, reportSend_sends (s := s.quiet) waits master way⟩
  case expiry => exact fun s => exec_reportRouteExpiry s
  case reports =>
    intro p b s on still whole hvl hroute kind here
    have head : BundleHead b 1 1 5 := ⟨whole, hvl, hroute, kind⟩
    have free : (s.quiet.bump pgFAB F.FAB_st_DELIVERED).fab.fc.armed = false := by rw [bump_fab]; exact still
    rw [exec_reportReceive, bundleIn_unicast (s := s.quiet) on (.inl rfl) head rfl here, deliverBundle_report _ _ _ kind,
      fcFollow_of_not_armed _ (by rwa [reportIn_fc])]
    refine ⟨fun other => ?_, fun master cid => ⟨_, rfl, ?_⟩⟩
    · rw [reportIn_other (s := s.quiet.bump pgFAB F.FAB_st_DELIVERED) other]
    · rw [reportIn_table (s := s.quiet.bump pgFAB F.FAB_st_DELIVERED) master cid, getD_drop, slice_drop, bump_fab]
      rfl

end Sys2Proof.Machine
end

section
/-!
PROOF. O36: the link to the radio transceiver (R392 to R413). Its clause on TXDONE fails: an answer brings EFF up to date before the frame on the
air is looked at, and where EFF comes to OFF by that, the frame is dropped and not counted.
-/
namespace Sys2Proof.Machine
open Sys2Proof

theorem exec_txdone (x : Byte) (s : State) : exec (.txdone x) s = .next (txDone x.toNat s.quiet) := rfl

/-- AIR's EFF reports RUN, for which the register list has gone out, and REQ asks for OFF; a crowd frame is on the air and no packet waits. -/
def onAirAtOff : State :=
  { State.reset with
    regs := [(regKey pgAIR 0x00C, 2)]
    air := { State.reset.air with onAir := some { n := 0, j := 0 }, listFor := 2 } }

theorem onAirAtOff_storesOk : StoresOk onAirAtOff := ⟨by unfold RegFileOk; decide +kernel, rfl, rfl, rfl⟩

theorem onAirAtOff_linkOn : linkOn onAirAtOff = true := by decide +kernel

/-- A TXDONE of status 0 for the frame on the air leaves SENT as it was. -/
theorem onAirAtOff_sent : (txDone 0 onAirAtOff.quiet).stat pgAIR F.AIR_st_SENT = 0 := by decide +kernel

/-- Refutes O36 in its clause on TXDONE: in `onAirAtOff`, which meets that clause's hypotheses, SENT does not count the frame. -/
theorem not_radioLink : ¬ Obligations.RadioLink := by
  unfold Obligations.RadioLink
  rintro ⟨-, -, -, -, txdone, -, -, -, -, -⟩
  obtain ⟨u, next, -, -, -, -, -, -, sent⟩ := txdone 0 onAirAtOff onAirAtOff_storesOk rfl (.inl onAirAtOff_linkOn)
  have answered : txDone 0 onAirAtOff.quiet = u := Host.Outcome.next.inj ((exec_txdone 0 _).symm.trans next)
  rw [← answered, onAirAtOff_sent, if_pos ⟨rfl, rfl⟩] at sent
  exact absurd sent (by decide)

end Sys2Proof.Machine
end

section
/-!
SUPPORT. The registers that a radio frame's packets and their times are made of (R392, R395, R401, R405), as an event, a read of the frame store and
the building of a frame leave them. Under a LOCKED commit the values are those of the staging set merged with the register file, and a register
file in any form is merged, so that all the entries at a place count.
-/
namespace Sys2Proof.Machine
open Sys2Proof

/-! ### The entries at a place of a register file -/

/-- The entries of a register file at a place. -/
def entriesAt (k : Nat) (l : List (Nat × Word)) : List (Nat × Word) := l.filter (·.1 = k)

section
variable {k j : Nat} (v : Word) (l : List (Nat × Word))

theorem amGet_eq_head : amGet l k = (entriesAt k l).head?.map (·.2) := by
  induction l with
  | nil => rfl
  | cons x l ih =>
    by_cases h : x.1 = k
    · simp [amGet, entriesAt, h]
    · simpa [amGet, entriesAt, h] using ih

theorem entriesAt_amSet_ne (h : j ≠ k) : entriesAt k (amSet l j v) = entriesAt k l := by
  induction l with
  | nil => simp [amSet, entriesAt, h]
  | cons x l ih =>
    simp only [amSet]
    split
    · simp [entriesAt, h]
    · split
      · next e => simp [entriesAt, h, ← e]
      · simpa [entriesAt, List.filter_cons] using congrArg (fun m => if x.1 = k then x :: m else m) ih

theorem entriesAt_amDel_ne (h : j ≠ k) : entriesAt k (amDel l j) = entriesAt k l := by
  induction l with
  | nil => rfl
  | cons x l ih =>
    simp only [amDel]
    split
    · next e => simp [entriesAt, e, h]
    · simpa [entriesAt, List.filter_cons] using congrArg (fun m => if x.1 = k then x :: m else m) ih

theorem entriesAt_amDel_same : entriesAt k (amDel l k) = (entriesAt k l).tail := by
  induction l with
  | nil => rfl
  | cons x l ih =>
    simp only [amDel]
    split
    · next e => simp [entriesAt, e]
    · next e => simpa [entriesAt, e] using ih

theorem entriesAt_regPut_ne (h : j ≠ k) : entriesAt k (regPut l j v) = entriesAt k l := by
  unfold regPut
  split
  · exact entriesAt_amDel_ne l h
  · exact entriesAt_amSet_ne v l h

end

/-- What a place holds after staged values are merged rests on its entries and on its own merged value. A value at reset takes one entry out at each
turn, another value is there whatever was. -/
theorem amGet_merge {α : Type} {k : Nat} {f g : Nat → Word} (same : f k = g k) (l : List (Nat × α)) {r r' : List (Nat × Word)}
    (h : entriesAt k r = entriesAt k r') :
    amGet (l.foldl (fun r x => regPut r x.1 (f x.1)) r) k = amGet (l.foldl (fun r x => regPut r x.1 (g x.1)) r') k := by
  by_cases reset : g k = resetAt k
  · suffices e : entriesAt k (l.foldl (fun r x => regPut r x.1 (f x.1)) r) = entriesAt k (l.foldl (fun r x => regPut r x.1 (g x.1)) r') by
      rw [amGet_eq_head, amGet_eq_head, e]
    induction l generalizing r r' with
    | nil => exact h
    | cons x l ih =>
      refine ih ?_
      dsimp only
      by_cases hx : x.1 = k
      · rw [hx, same, regPut, regPut, if_pos reset, if_pos reset, entriesAt_amDel_same, entriesAt_amDel_same, h]
      · rw [entriesAt_regPut_ne _ _ hx, entriesAt_regPut_ne _ _ hx, h]
  · have h' : amGet r k = amGet r' k := by rw [amGet_eq_head, amGet_eq_head, h]
    clear h
    induction l generalizing r r' with
    | nil => exact h'
    | cons x l ih =>
      refine ih ?_
      dsimp only
      by_cases hx : x.1 = k
      · rw [hx, same, regPut, regPut, if_neg reset, if_neg reset, amGet_amSet_same, amGet_amSet_same]
      · rw [amGet_regPut_ne _ _ _ _ (Ne.symm hx), amGet_regPut_ne _ _ _ _ (Ne.symm hx), h']

/-! ### Places kept -/

/-- The places of AIR's LINK, PRE and CCA registers, CCA's at every index, among others. -/
abbrev SendPlace (k : Nat) : Prop := k = regKey pgAIR 0x040 ∨ k % 32 = 8

/-- The second state has the entries of the first at those places. -/
structure PlacesKept (s t : State) : Prop where
  entries : ∀ k, SendPlace k → entriesAt k t.regs = entriesAt k s.regs

namespace PlacesKept
variable {s t u : State}

theorem refl (s : State) : PlacesKept s s := ⟨fun _ _ => rfl⟩

theorem trans (h : PlacesKept s t) (h' : PlacesKept t u) : PlacesKept s u := ⟨fun k hk => (h'.entries k hk).trans (h.entries k hk)⟩

theorem ite {c : Prop} [Decidable c] (ht : PlacesKept s t) (hu : PlacesKept s u) : PlacesKept s (if c then t else u) :=
  ite_induct (P := PlacesKept s) ht hu

theorem foldl {α : Type} {f : State → α → State} (hf : ∀ s x, PlacesKept s (f s x)) (l : List α) (s : State) : PlacesKept s (l.foldl f s) :=
  foldl_induct (P := PlacesKept s) (fun t x h => h.trans (hf t x)) l (refl s)

theorem foldl_fst {α β : Type} {f : State × β → α → State × β} (hf : ∀ p x, PlacesKept p.1 (f p x).1) (l : List α) (p : State × β) :
    PlacesKept p.1 (l.foldl f p).1 :=
  List.foldlRecOn (motive := fun q => PlacesKept p.1 q.1) l f (refl _) fun q h x _ => h.trans (hf q x)

theorem of_regs (h : t.regs = s.regs) : PlacesKept s t := ⟨fun _ _ => by rw [h]⟩

theorem memory (s : State) (mm : MemState) : PlacesKept s { s with mm := mm } := of_regs rfl

theorem bump (s : State) (p : Nat) (f : Fld) (n k : Nat) : PlacesKept s (s.bump p f n k) := of_regs (bump_regs ..)

theorem setReg (s : State) {p off : Nat} (v : Word) (h : ¬ SendPlace (regKey p off)) : PlacesKept s (s.setReg p off v) :=
  ⟨fun _ hk => entriesAt_regPut_ne _ _ fun e => h (e ▸ hk)⟩

theorem set (s : State) {p : Nat} {f : Fld} (v : Nat) (h : ¬ SendPlace (regKey p (f.off + f.stride * 0))) : PlacesKept s (s.set p f v) :=
  setReg s _ h

/-! ### Events (R66, R476 to R485) -/

theorem rawEvt (s : State) (p bit : Nat) : PlacesKept s (rawEvt s p bit) := setReg s _ (by simp only [SendPlace, regKey]; omega)

section
variable {n : Nat} (hn : n < 256) (h8 : n % 8 ≠ 2)
include hn h8

theorem setSrc (s : State) (lsb w v : Nat) : PlacesKept s (setSrc s (.shared n) lsb w v) :=
  setReg s _ (by simp only [SendPlace, regKey, Src.reg, pgEVC, pgAIR]; omega)

theorem pend (s : State) : PlacesKept s (pend s (.shared n)).1 := by
  have merged : PlacesKept s (s.bump pgEVC F.EVC_st_MERGED) := bump ..
  unfold Machine.pend
  dsimp only
  split
  · split
    · exact merged
    · exact merged.trans (setSrc hn h8 ..)
  · exact setSrc hn h8 ..

theorem sourcePost (s : State) : PlacesKept s (sourcePost s n) := by
  unfold Machine.sourcePost
  dsimp only
  split
  · split
    · exact refl s
    · split
      · next e => exact (of_regs (enqueue_regs e)).trans (bump ..)
      · exact (setSrc hn h8 ..).trans (rawEvt ..)
  · exact refl s

theorem arriveOnce (s : State) : PlacesKept s (arriveOnce n s) := by
  have external : PlacesKept s (if 228 ≤ n ∧ n ≤ 235 then s.bump pgEVC F.EVC_st_EXTARR else s) := ite (bump ..) (refl s)
  have posted := ((external.trans (bump _ pgEVC F.EVC_st_ARRIVALS 1 0)).trans (pend hn h8 _)).trans (sourcePost hn h8 _)
  exact ite (posted.trans (rawEvt ..)) posted

theorem rising {f : State → State} (hf : ∀ s, PlacesKept s (f s)) (s : State) : PlacesKept s (rising n f s) :=
  ite ((hf s).trans (arriveOnce hn h8 _)) (hf s)

theorem arrive (s : State) : PlacesKept s (arrive n s) := by
  refine PlacesKept.trans ?_ (of_regs (presentAll_regs _))
  refine rising (by decide) (by decide) (rising (by decide) (by decide) (rising (by decide) (by decide) ?_)) s
  exact arriveOnce hn h8

end

theorem evt (s : State) {p : Nat} (bit : Nat) (hn : pageSource p < 256 := by decide) (h8 : pageSource p % 8 ≠ 2 := by decide) :
    PlacesKept s (s.evt p bit) :=
  ite ((rawEvt s p bit).trans (arrive hn h8 _)) (rawEvt s p bit)

/-! ### The frame store read (R415 to R417, R438) -/

theorem recordErr (unc sram : Bool) (source word : Nat) (s : State) : PlacesKept s (recordErr unc sram source word s) := by
  unfold Machine.recordErr
  extract_lets had fields four recorded faulted
  have held : PlacesKept s recorded := by
    unfold recorded four fields
    split
    · exact refl s
    · exact (((((set s _ (by decide)).trans (set _ _ (by decide))).trans (set _ _ (by decide))).trans (set _ _ (by decide))).trans
        (set _ _ (by decide))).trans (set _ _ (by decide))
  have noted : PlacesKept recorded faulted :=
    ite ((setReg _ _ (by decide)).trans (setReg _ _ (by decide))) (refl _)
  exact (held.trans noted).trans (evt _ _)

theorem checkWord (w : Who) (sram : Bool) (word : Nat) (s : State) : PlacesKept s (checkWord w sram word s).1 := by
  unfold Machine.checkWord
  split
  · exact refl s
  · dsimp only
    split
    · exact ((memory ..).trans (bump ..)).trans (recordErr ..)
    · exact recordErr ..

theorem checkRead (w : Who) (sram : Bool) (words : List Nat) (s : State) : PlacesKept s (checkRead w sram words s).1 := by
  unfold Machine.checkRead countUnc
  refine PlacesKept.trans (foldl_fst (fun p x => ?_) words (s, true)) (ite (refl _) (bump ..))
  exact checkWord ..

theorem rd {a : Nat} (h : fsBase ≤ a) (w : Who) (n : Nat) (s : State) : PlacesKept s (rd w a n s).1 := by
  have granted : PlacesKept s (ownGrants w a n s) := ite (foldl (fun _ _ => (bump ..).trans (bump ..)) _ s) (refl s)
  have other {r : Region} (hf : r ≠ .fs) (hh : r ≠ .hole) : ¬ inRange r a n = true := by
    rcases DataFrame.region_above h with e | e <;> simp [inRange, e, hf.symm, hh.symm]
  refine granted.trans ?_
  unfold Machine.rd rdMem
  rw [if_neg (other (by decide) (by decide)), if_neg (other (by decide) (by decide)), if_neg (other (by decide) (by decide))]
  split
  · split
    · exact refl _
    · exact foldl_fst (fun p b => by exact checkRead ..) (burstsOf a n) (_, true)
  · exact refl _

/-! ### A crowd frame built (R397, R400) -/

theorem readZones (v : State) (j m : Nat) (acc : List Byte) (s : State) : PlacesKept s (readZones v j m acc s).1 := by
  induction m generalizing acc s with
  | zero => exact refl s
  | succ m ih =>
    unfold Machine.readZones
    extract_lets i at'
    have entry : PlacesKept s (Machine.rd ⟨0, 15, 0, none⟩ (fsBase + at') 8 s).1 := rd (Nat.le_add_right ..) ..
    split
    · next e => rwa [e] at entry
    · next e =>
      rw [e] at entry
      exact (entry.trans (ite (bump ..) (refl _))).trans (ih _ _)

theorem buildFrame (f : AirFrame) (stamp : Nat) (s : State) : PlacesKept s (buildFrame f stamp s).1 := by
  unfold Machine.buildFrame
  extract_lets v big
  have read := readZones v f.j (airZones v) [] s
  split
  · next e => rwa [e] at read
  · next e => rwa [e] at read

theorem accState (n : Nat) (s : State) : PlacesKept s (accState n s) :=
  (set s n (by decide)).trans (ite (evt _ _) (refl _))

end PlacesKept

theorem AccessPartsOnly.readZones (v : State) (j m : Nat) (acc : List Byte) (s : State) : AccessPartsOnly s (readZones v j m acc s).1 := by
  induction m generalizing acc s with
  | zero => exact refl s
  | succ m ih =>
    unfold Machine.readZones
    extract_lets i at'
    have entry := rd ⟨0, 15, 0, none⟩ (fsBase + at') 8 s
    split
    · next e => rwa [e] at entry
    · next e =>
      rw [e] at entry
      exact (entry.trans (ite (bump ..) (refl _))).trans (ih _ _)

theorem AccessPartsOnly.buildFrame (f : AirFrame) (stamp : Nat) (s : State) : AccessPartsOnly s (buildFrame f stamp s).1 := by
  unfold Machine.buildFrame
  extract_lets v big
  have read := readZones v f.j (airZones v) [] s
  split
  · next e => rwa [e] at read
  · next e => rwa [e] at read

/-! ### The packets of a frame and their times (R395, R401, R405) -/

/-- The second state has of the first what a frame's packets and their times are made of. -/
structure SendKept (s t : State) : Prop where
  places : PlacesKept s t
  staged : t.staged = s.staged
  cmt : t.cmt = s.cmt
  time : t.time = s.time

theorem AccessPartsOnly.sendKept {s t : State} (h : AccessPartsOnly s t) (places : PlacesKept s t) : SendKept s t := by
  obtain ⟨_, _, _, _, _, _, _, rfl⟩ := h
  exact ⟨places, rfl, rfl, rfl⟩

namespace SendKept
variable {s t u : State}

theorem trans (h : SendKept s t) (h' : SendKept t u) : SendKept s u :=
  ⟨h.places.trans h'.places, h'.staged.trans h.staged, h'.cmt.trans h.cmt, h'.time.trans h.time⟩

variable (h : SendKept s t) {off : Nat}
include h

theorem amGet_regs {k : Nat} (hk : SendPlace k) : amGet t.regs k = amGet s.regs k := by
  rw [amGet_eq_head, amGet_eq_head, h.places.entries k hk]

theorem reg (hk : SendPlace (regKey pgAIR off)) : t.reg pgAIR off = s.reg pgAIR off := by
  rw [State.reg, State.reg, h.amGet_regs hk]

theorem merged_reg (hk : SendPlace (regKey pgAIR off)) : (merged t).reg pgAIR off = (merged s).reg pgAIR off := by
  have value : stagedReg t (regKey pgAIR off) = stagedReg s (regKey pgAIR off) := by rw [stagedReg, stagedReg, h.amGet_regs hk, h.staged]
  have placed : amGet (merged t).regs (regKey pgAIR off) = amGet (merged s).regs (regKey pgAIR off) := by
    rw [merged, merged, h.staged]
    exact amGet_merge value s.staged (h.places.entries _ hk)
  rw [State.reg, State.reg, placed]

theorem airValues_reg (hk : SendPlace (regKey pgAIR off)) : (airValues t).reg pgAIR off = (airValues s).reg pgAIR off := by
  unfold airValues
  rw [h.cmt]
  split
  · exact h.merged_reg hk
  · exact h.reg hk

theorem airPre (reacq : Bool) : airPre t reacq = airPre s reacq := by
  have pre := h.airValues_reg (off := 0x048) (.inr (by decide))
  cases reacq <;> exact congrArg (bitsOf · _ _) pre

theorem cca (f : Fld) (hf : f.off = 0x108) (hf' : f.stride = 32) (k : Nat) : t.get pgAIR f k = s.get pgAIR f k := by
  have place : SendPlace (regKey pgAIR (f.off + f.stride * k)) := .inr (by simp only [regKey, pgAIR, hf, hf']; omega)
  rw [State.get, State.get, h.reg place]

theorem clkdiv : t.get pgAIR F.AIR_LINK_CLKDIV = s.get pgAIR F.AIR_LINK_CLKDIV :=
  congrArg (bitsOf · _ _) (h.reg (off := 0x040) (.inl rfl))

theorem txloadPkt {f g : AirFrame} (same : g.reacq = f.reacq) (b : List Byte) : txloadPkt t g b = txloadPkt s f b := by
  rw [Machine.txloadPkt, Machine.txloadPkt, same, h.airPre]

theorem loadLimit {f g : AirFrame} (tgo : g.tgo = f.tgo) (go : g.go = f.go) (sb : g.sb = f.sb) : loadLimit t g = loadLimit s f := by
  rw [Machine.loadLimit, Machine.loadLimit, tgo, go, sb, h.cca F.AIR_CCA_LISTEN rfl rfl]

theorem ccaPkt {f g : AirFrame} (tgo : g.tgo = f.tgo) (go : g.go = f.go) (sb : g.sb = f.sb) : ccaPkt t g = ccaPkt s f := by
  rw [Machine.ccaPkt, Machine.ccaPkt, h.loadLimit tgo go sb, sb, h.cca F.AIR_CCA_LISTEN rfl rfl, h.cca F.AIR_CCA_THR rfl rfl]

theorem packetsEnd (l : List AirPkt) : packetsEnd t l = packetsEnd s l := by
  rw [Machine.packetsEnd, Machine.packetsEnd, h.time, h.clkdiv]

end SendKept

end Sys2Proof.Machine
end

section
/-!
SUPPORT. The radio's accounting (R402, R403), the packets that it sends (R393) and the frames that it cancels or gives up (R401, R405): what each
operation makes of the radio's state.
-/
namespace Sys2Proof.Machine
open Sys2Proof

/-! ### The radio's state beside events and accesses to memory -/

theorem EventPartsOnly.air {s t : State} (h : EventPartsOnly s t) : t.air = s.air := by obtain ⟨_, _, _, _, rfl⟩ := h; rfl
theorem EventPartsOnly.pwr {s t : State} (h : EventPartsOnly s t) : t.pwr = s.pwr := by obtain ⟨_, _, _, _, rfl⟩ := h; rfl
theorem AccessPartsOnly.air {s t : State} (h : AccessPartsOnly s t) : t.air = s.air := by obtain ⟨_, _, _, _, _, _, _, rfl⟩ := h; rfl
theorem AccessPartsOnly.pwr {s t : State} (h : AccessPartsOnly s t) : t.pwr = s.pwr := by obtain ⟨_, _, _, _, _, _, _, rfl⟩ := h; rfl

@[simp] theorem quiet_air (s : State) : s.quiet.air = s.air := rfl
@[simp] theorem evt_air (s : State) (p bit : Nat) : (s.evt p bit).air = s.air := (EventPartsOnly.evt s p bit).air

theorem EventPartsOnly.accState (n : Nat) (s : State) : EventPartsOnly s (accState n s) := (setReg ..).trans (ite (evt ..) (refl _))

theorem EventPartsOnly.putEff (p : Nat) (e : Nat × Nat) (s : State) : EventPartsOnly s (putEff p e s) :=
  ite (refl s) (ite (((setReg ..).trans (bump ..)).trans (evt ..)) (setReg ..))

theorem AccessPartsOnly.readCopies (kind n : Nat) (s : State) : AccessPartsOnly s (readCopies kind n s).1 := (mramRead ..).trans (mramRead ..)

theorem AccessPartsOnly.internalProg (off : Nat) (b : List Byte) (s : State) : AccessPartsOnly s (internalProg off b s) := by
  unfold Machine.internalProg
  split
  · exact startProg ..
  · exact memory s s.mem _

theorem StoresOk.updAir {s : State} (h : StoresOk s) (f : AirState → AirState) : StoresOk (updAir s f) := ⟨h.regs, h.staged, h.ctr, h.mem⟩

/-! ### Buckets (R403) -/

/-- The present bucket and the buckets of every sub-band. -/
def accounts (s : State) : Nat × List (List Nat) := (s.air.bucket, s.air.buckets)

/-- The accounts with the index moved on by one, and the bucket there cleared. -/
def advanced (x : Nat × List (List Nat)) : Nat × List (List Nat) := ((x.1 + 1) % 36, x.2.map (·.set ((x.1 + 1) % 36) 0))

/-- How far the bucket of the RTC lies from the present one. -/
def bucketSteps (s : State) : Nat := (s.pwr.rtc / 100 % 36 + 36 - s.air.bucket) % 36

/-- The second state is the first but for the accounts. -/
structure AccountsOnly (s t : State) : Prop where
  eq : ∃ i l, t = updAir s fun a => { a with bucket := i, buckets := l }

namespace AccountsOnly
variable {s t u : State}

theorem refl (s : State) : AccountsOnly s s := ⟨_, _, rfl⟩

theorem trans (h : AccountsOnly s t) (h' : AccountsOnly t u) : AccountsOnly s u := by
  obtain ⟨_, _, rfl⟩ := h
  obtain ⟨_, _, rfl⟩ := h'
  exact ⟨_, _, rfl⟩

theorem ite {c : Prop} [Decidable c] (ht : AccountsOnly s t) (hu : AccountsOnly s u) : AccountsOnly s (if c then t else u) :=
  ite_induct (P := AccountsOnly s) ht hu

theorem foldl {α : Type} {f : State → α → State} (hf : ∀ s x, AccountsOnly s (f s x)) (l : List α) (s : State) :
    AccountsOnly s (l.foldl f s) :=
  foldl_induct (P := AccountsOnly s) (fun t x h => h.trans (hf t x)) l (refl s)

theorem regs (h : AccountsOnly s t) : t.regs = s.regs := by obtain ⟨_, _, rfl⟩ := h; rfl
theorem time (h : AccountsOnly s t) : t.time = s.time := by obtain ⟨_, _, rfl⟩ := h; rfl
theorem pwr (h : AccountsOnly s t) : t.pwr = s.pwr := by obtain ⟨_, _, rfl⟩ := h; rfl

theorem storesOk (h : AccountsOnly s t) (ok : StoresOk s) : StoresOk t := by
  obtain ⟨_, _, rfl⟩ := h
  exact ok.updAir _

theorem frame (h : AccountsOnly s t) : t.air.frame = s.air.frame := by obtain ⟨_, _, rfl⟩ := h; rfl
theorem onAir (h : AccountsOnly s t) : t.air.onAir = s.air.onAir := by obtain ⟨_, _, rfl⟩ := h; rfl
theorem dirOut (h : AccountsOnly s t) : t.air.dirOut = s.air.dirOut := by obtain ⟨_, _, rfl⟩ := h; rfl
theorem waiting (h : AccountsOnly s t) : t.air.waiting = s.air.waiting := by obtain ⟨_, _, rfl⟩ := h; rfl
theorem restored (h : AccountsOnly s t) : t.air.restored = s.air.restored := by obtain ⟨_, _, rfl⟩ := h; rfl
theorem rseq (h : AccountsOnly s t) : t.air.rseq = s.air.rseq := by obtain ⟨_, _, rfl⟩ := h; rfl
theorem copyB (h : AccountsOnly s t) : t.air.copyB = s.air.copyB := by obtain ⟨_, _, rfl⟩ := h; rfl

theorem chargeBucket (sb i us : Nat) (s : State) : AccountsOnly s (chargeBucket sb i us s) := ⟨_, _, rfl⟩

theorem bucketAdvance (s : State) : AccountsOnly s (bucketAdvance s) := ⟨_, _, rfl⟩

theorem bucketSync (s : State) : AccountsOnly s (bucketSync s) := foldl (fun s _ => bucketAdvance s) _ s

theorem useSecond (sb : Nat) (s : State) (t : Nat) : AccountsOnly s (useSecond sb s t) :=
  (ite (refl s) (bucketAdvance s)).trans (chargeBucket ..)

theorem ageBuckets (t₀ t₁ : Nat) (s : State) : AccountsOnly s (ageBuckets t₀ t₁ s) := foldl (fun s _ => bucketAdvance s) _ s

end AccountsOnly

theorem bucketSync_iterate (s : State) : bucketSync s = bucketAdvance^[bucketSteps s] s := by
  unfold bucketSync
  rw [List.foldl_const, List.length_range]
  rfl

theorem accounts_bucketSync (s : State) : accounts (bucketSync s) = advanced^[bucketSteps s] (accounts s) := by
  have step : Function.Semiconj accounts bucketAdvance advanced := fun _ => rfl
  rw [bucketSync_iterate]
  exact step.iterate_right _ s

theorem advanced_bucket {n : Nat} {x : Nat × List (List Nat)} (h : x.1 < 36 ∨ n ≠ 0) : (advanced^[n] x).1 = (x.1 + n) % 36 := by
  induction n with
  | zero => exact (Nat.mod_eq_of_lt (h.resolve_right (· rfl))).symm
  | succ n ih =>
    rw [Function.iterate_succ_apply', advanced]
    dsimp only
    cases n with
    | zero => rfl
    | succ n => rw [ih (.inr n.succ_ne_zero)]; omega

theorem bucketSync_index {s : State} (h : s.air.bucket < 36 ∨ bucketSteps s ≠ 0) :
    (bucketSync s).air.bucket = (s.air.bucket + bucketSteps s) % 36 :=
  (congrArg Prod.fst (accounts_bucketSync s)).trans (advanced_bucket h)

theorem bucketSync_bucket {s : State} (h : s.air.bucket < 36) : (bucketSync s).air.bucket = s.pwr.rtc / 100 % 36 := by
  rw [bucketSync_index (.inl h), bucketSteps]
  omega

/-- What the accounts become rests on them and on the RTC alone. -/
theorem accounts_bucketSync_congr {s t : State} (same : accounts t = accounts s) (pwr : t.pwr = s.pwr) :
    accounts (bucketSync t) = accounts (bucketSync s) := by
  have steps : bucketSteps t = bucketSteps s := by
    unfold bucketSteps
    rw [pwr, show t.air.bucket = s.air.bucket from congrArg Prod.fst same]
  rw [accounts_bucketSync, accounts_bucketSync, same, steps]

/-- Accounts brought up to the RTC are so already. -/
theorem bucketSync_again {s t : State} (same : accounts t = accounts (bucketSync s)) (pwr : t.pwr = s.pwr) : bucketSync t = t := by
  have bucket : t.air.bucket = (bucketSync s).air.bucket := congrArg Prod.fst same
  have none : bucketSteps t = 0 := by
    by_cases still : bucketSteps s = 0
    · have kept : accounts (bucketSync s) = accounts s := by rw [accounts_bucketSync, still]; rfl
      rw [bucketSteps, pwr, bucket, show (bucketSync s).air.bucket = s.air.bucket from congrArg Prod.fst kept]
      exact still
    · rw [bucketSteps, pwr, bucket, bucketSync_index (.inr still)]
      unfold bucketSteps at still ⊢
      omega
  rw [bucketSync_iterate, none]
  rfl

theorem getD_set_zero (l : List Nat) (i j : Nat) : (l.set j 0).getD i 0 = if i = j then 0 else l.getD i 0 := by
  by_cases h : i = j
  · subst h
    by_cases hl : i < l.length <;> simp [List.getD, hl]
  · rw [if_neg h]
    simp [List.getD, Ne.symm h]

/-- The buckets whose turn has come since are cleared, the others stay. -/
theorem advanced_buckets {x : Nat × List (List Nat)} (hx : x.1 < 36) {i : Nat} (hi : i < 36) (k : Nat) {n : Nat} (hn : n < 36) :
    ((advanced^[n] x).2.getD k []).getD i 0 =
      if 1 ≤ (i + 36 - x.1) % 36 ∧ (i + 36 - x.1) % 36 ≤ n then 0 else (x.2.getD k []).getD i 0 := by
  induction n with
  | zero => rw [if_neg (by omega)]; rfl
  | succ n ih =>
    have index : (advanced^[n] x).1 = (x.1 + n) % 36 := advanced_bucket (.inl hx)
    have cleared : ((advanced^[n + 1] x).2.getD k []) = ((advanced^[n] x).2.getD k []).set ((x.1 + n + 1) % 36) 0 := by
      rw [Function.iterate_succ_apply', advanced, index]
      simp only [List.getD, List.getElem?_map]
      cases (advanced^[n] x).2[k]? <;> simp
    rw [cleared, getD_set_zero, ih (by omega)]
    have turn : i = (x.1 + n + 1) % 36 ↔ (i + 36 - x.1) % 36 = n + 1 := by omega
    by_cases now : i = (x.1 + n + 1) % 36
    · rw [if_pos now, if_pos (by omega)]
    · rw [if_neg now]
      have : (i + 36 - x.1) % 36 ≠ n + 1 := fun e => now (turn.mpr e)
      simp only [show (i + 36 - x.1) % 36 ≤ n ↔ (i + 36 - x.1) % 36 ≤ n + 1 by omega]

/-! ### Packets (R393) -/

/-- A packet's nibbles at the line's present clock. -/
def nibblesOut (s : State) (p : AirPkt) : Out :=
  .airNibbles (s.get pgAIR F.AIR_LINK_CLKDIV) (linkNibbles (linkPacket p.op p.payload)) p.ends

section
variable (l : List AirPkt) {s : State}

theorem sendAll_atOnce (out : s.air.dirOut = true) : sendAll l s = { s with out := s.out ++ l.map (nibblesOut s) } := by
  induction l generalizing s with
  | nil => rw [List.map_nil, List.append_nil]; rfl
  | cons p l ih =>
    have first : sendPacket p s = s.emit (nibblesOut s p) := if_pos out
    have rest := ih (s := s.emit (nibblesOut s p)) out
    rw [sendAll, List.foldl_cons, first, ← sendAll, rest, List.map_cons, emit_out, List.append_assoc]
    rfl

theorem sendAll_later (held : s.air.dirOut = false) : sendAll l s = updAir s fun a => { a with waiting := a.waiting ++ l } := by
  induction l generalizing s with
  | nil => simp [sendAll, updAir]
  | cons p l ih =>
    have first : sendPacket p s = updAir s fun a => { a with waiting := a.waiting ++ [p] } := if_neg (by simp [held])
    have rest := ih (s := updAir s fun a => { a with waiting := a.waiting ++ [p] }) held
    rw [sendAll, List.foldl_cons, first, ← sendAll, rest]
    simp [updAir]

/-- Packets sent change nothing of the radio's state but what waits. -/
theorem sendAll_air : ∃ w, (sendAll l s).air = { s.air with waiting := w } := by
  cases h : s.air.dirOut
  · exact ⟨s.air.waiting ++ l, by rw [sendAll_later l h, updAir_air]⟩
  · exact ⟨s.air.waiting, by rw [sendAll_atOnce l h]⟩

/-- Packets go out at once, or wait for the bus in their order. -/
theorem sendAll_sends :
    if s.air.dirOut then ∀ p ∈ l, nibblesOut s p ∈ (sendAll l s).out else (sendAll l s).air.waiting = s.air.waiting ++ l := by
  split
  · next h =>
    rw [sendAll_atOnce l h]
    exact fun p hp => List.mem_append_right _ (List.mem_map_of_mem hp)
  · next h => rw [sendAll_later l (by simpa using h), updAir_air]

end

theorem airDir_air (b : Bool) (s : State) : (airDir b s).air = { s.air with dirOut := b } := by
  unfold airDir
  split
  · next h => rw [← h]
  · rfl

theorem airDir_pwr (b : Bool) (s : State) : (airDir b s).pwr = s.pwr := by unfold airDir; split <;> rfl
theorem airDir_time (b : Bool) (s : State) : (airDir b s).time = s.time := by unfold airDir; split <;> rfl
theorem airMay_airDir (b : Bool) (s : State) : airMay (airDir b s) = airMay s := by unfold airDir; split <;> rfl

/-- With no packet waiting, the bus alone comes back to the node. -/
theorem linkBack_of_none {s : State} (none : s.air.waiting = []) : linkBack s = airDir true s := by
  have still : (airDir true s).air.waiting = [] := by rw [airDir_air]; exact none
  have kept : updAir (airDir true s) (fun a => { a with waiting := [] }) = airDir true s := by rw [updAir, ← still]
  unfold linkBack
  simp only [still, List.any_nil, Bool.false_and, Bool.false_eq_true, if_false]
  cases (airDir true s).air.frame <;> simpa only [still, sendAll, List.foldl_nil] using kept

/-! ### A frame cancelled, given up or dropped (R401, R405, R408) -/

section
variable (f : AirFrame) {s : State}

/-- A frame cancelled leaves of the radio's state what the refund leaves, without the frame and its packets. -/
theorem loadLate_air : (loadLate f s).air = { (refund f s).air with frame := none, waiting := (refund f s).air.waiting.filter (·.op < 3) } := by
  simp [loadLate]

theorem refund_of_none (h : f.bucket = none) : refund f s = s := by simp only [refund, h]

theorem refund_of_some {i : Nat} (h : f.bucket = some i) : refund f s =
    (updAir s fun a => { a with buckets := updAt a.buckets f.sb fun l => updAt l i (· - f.us) }).setStat pgAIR F.AIR_st_AIRTIME
      (s.stat pgAIR F.AIR_st_AIRTIME - f.us) := by simp only [refund, h]; rfl

theorem refund_onAir : (refund f s).air.onAir = s.air.onAir := by
  unfold refund
  split <;> rfl

theorem refund_stat_ne {g : Fld} (h : State.statKey pgAIR g 0 ≠ State.statKey pgAIR F.AIR_st_AIRTIME 0) :
    (refund f s).stat pgAIR g = s.stat pgAIR g := by
  unfold refund
  split
  · rfl
  · exact congrArg (·.getD 0) (amGet_amSet_ne _ _ _ _ h)

theorem loadLate_counted : (loadLate f s).stat pgAIR F.AIR_st_LOADLATE = min 0xFFFFFFFF (s.stat pgAIR F.AIR_st_LOADLATE + 1) := by
  unfold loadLate
  rw [stat_evt _ _ _ (by decide), stat_bump_same]
  exact congrArg (fun n => min 0xFFFFFFFF (n + 1)) (refund_stat_ne f (by decide))

theorem loadLate_airtime : (loadLate f s).stat pgAIR F.AIR_st_AIRTIME = (refund f s).stat pgAIR F.AIR_st_AIRTIME := by
  unfold loadLate
  rw [stat_evt _ _ _ (by decide), stat_bump_ne _ (by decide)]
  rfl

theorem lbtGiveUp_air : (lbtGiveUp s).air = { s.air with frame := none, waiting := s.air.waiting.filter (·.op < 3) } := by simp [lbtGiveUp]

theorem lbtGiveUp_counted : (lbtGiveUp s).stat pgAIR F.AIR_st_LBTBUSY = min 0xFFFFFFFF (s.stat pgAIR F.AIR_st_LBTBUSY + 1) := by
  unfold lbtGiveUp
  rw [stat_evt _ _ _ (by decide), stat_bump_same]
  rfl

theorem tryBusy_left (left : lbtLeft s { f with k := f.k + 1 } = true) :
    tryBusy f s = updAir s fun a => { a with frame := some { f with busy := true }, waiting := a.waiting.filter (·.op < 3) } := if_pos left

theorem tryBusy_last (last : lbtLeft s { f with k := f.k + 1 } = false) : tryBusy f s = lbtGiveUp s := if_neg (by simp [last])

end

/-! ### A frame's packets sent (R401, R405) -/

section
variable {f g : AirFrame} {l : List AirPkt} {s t : State} (kept : SendKept s t) (waiting : t.air.waiting = s.air.waiting)
  (tgo : g.tgo = f.tgo) (go : g.go = f.go) (sb : g.sb = f.sb)
include kept waiting tgo go sb

/-- Packets that would end too late are not sent, by the times that held before the frame was built. -/
theorem sendLoad_late (late : loadLimit s f < packetsEnd s (s.air.waiting ++ l)) :
    sendLoad g l t = notLoaded g (updAir t fun a => { a with frame := some g }) := by
  rw [← kept.loadLimit tgo go sb, ← kept.packetsEnd, ← waiting] at late
  exact if_pos late

/-- Packets that end in time go out at once or wait for the bus, and the frame is in hand. -/
theorem sendLoad_inTime (dirOut : t.air.dirOut = s.air.dirOut) (inTime : (packetsEnd s (s.air.waiting ++ l) : Int) ≤ loadLimit s f) :
    (sendLoad g l t).air.frame = some g ∧ (sendLoad g l t).air.onAir = t.air.onAir ∧ (sendLoad g l t).air.buckets = t.air.buckets ∧
      if s.air.dirOut then ∀ p ∈ l, nibblesOut s p ∈ (sendLoad g l t).out else (sendLoad g l t).air.waiting = s.air.waiting ++ l := by
  rw [← kept.loadLimit tgo go sb, ← kept.packetsEnd, ← waiting] at inTime
  have sent : sendLoad g l t = sendAll l (updAir t fun a => { a with frame := some g }) := if_neg (not_lt.mpr inTime)
  obtain ⟨w, air⟩ := sendAll_air l (s := updAir t fun a => { a with frame := some g })
  have sends := sendAll_sends l (s := updAir t fun a => { a with frame := some g })
  have same (p : AirPkt) : nibblesOut (updAir t fun a => { a with frame := some g }) p = nibblesOut s p :=
    congrArg (Out.airNibbles · _ _) kept.clkdiv
  simp only [updAir_air, dirOut, waiting, same] at sends
  rw [sent, air]
  exact ⟨rfl, rfl, rfl, air ▸ sends⟩

end

end Sys2Proof.Machine
end

section
/-!
SUPPORT. The report of the accounting's state (R404), what AIR sends by, and what the BUDGET hold leaves of the radio (R70, R404, R410).
-/
namespace Sys2Proof.Machine
open Sys2Proof

/-! ### The report of the accounting's state (R404) -/

section
variable (n : Nat) (s : State)

@[simp] theorem accState_air : (accState n s).air = s.air := (EventPartsOnly.accState n s).air
@[simp] theorem accState_time : (accState n s).time = s.time := (EventPartsOnly.accState n s).time
@[simp] theorem accState_pwr : (accState n s).pwr = s.pwr := (EventPartsOnly.accState n s).pwr
@[simp] theorem accState_boot : (accState n s).boot = s.boot := (EventPartsOnly.accState n s).boot

/-- ACCSTAT and the registers of an event aside, a report leaves every register. -/
theorem accState_reg {q off : Nat} (ho : off < 4096) (h : ¬ EventReg pgAIR q off) (h' : ¬ (q = pgAIR ∧ off = 0x074)) :
    (accState n s).reg q off = s.reg q off := by
  rw [accState, evtIf_reg _ _ _ (by decide) ho h, State.set]
  exact reg_setReg_ne _ _ _ _ _ _ fun e => h' ((regKey_inj ho (by decide)).mp e)

variable {s}

theorem accState_state (ok : StoresOk s) : (accState n s).get pgAIR F.AIR_ACCSTAT_STATE = n % 4 := by
  have placed := get_set_same ok pgAIR (f := F.AIR_ACCSTAT_STATE) (by decide) n 0
  rw [← show 2 ^ F.AIR_ACCSTAT_STATE.w = 4 from rfl, ← placed]
  exact congrArg (bitsOf · _ _) (evtIf_reg _ _ _ (by decide) (by decide) (by simp [EventReg, F.AIR_ACCSTAT_STATE, pgAIR, pgEVC]))

end

/-! ### The BUDGET hold (R70, R404) -/

/-- AIR sends where RUN or TEST is asked for and nothing but BUDGET holds it. -/
theorem airMay_iff (s : State) : airMay s = true ↔ 2 ≤ s.get pgAIR F.HDR_REQ_MODE ∧ pageDomainOn s pgAIR = true ∧ s.boot.outEn = true ∧
    s.boot.svcWait = false ∧ s.air.fault = false ∧ s.pwr.pagesAsleep = false ∧ devState s ≠ 2 ∧ timeValid s = true := by
  have page : pageType pgAIR = 0x090 := by decide
  have none (c : Nat) (b : Bool) (hc : c ≠ 10) : ((if b then [c] else []).all (· = 10) = true) ↔ b = false := by cases b <;> simp [hc]
  have budget (b : Bool) : (if b then [10] else []).all (· = 10) = true := by cases b <;> rfl
  simp only [airMay, holds, page, List.all_append, Bool.and_eq_true, budget, none _ _ (by decide : 1 ≠ 10), none _ _ (by decide : 2 ≠ 10),
    none _ _ (by decide : 3 ≠ 10), none _ _ (by decide : 5 ≠ 10), none _ _ (by decide : 6 ≠ 10)]
  simp [and_assoc]

/-- What AIR sends by: the mode asked for, the holds of the domain, the service, the failures and the sleep, and valid time. -/
theorem airMay_congr {s t : State} (boot : t.boot = s.boot) (pwr : t.pwr = s.pwr) (time : t.time = s.time) (fault : t.air.fault = s.air.fault)
    (mode : t.get pgAIR F.HDR_REQ_MODE = s.get pgAIR F.HDR_REQ_MODE) (domains : t.get pgPMU F.PMU_DOMEFF_ON = s.get pgPMU F.PMU_DOMEFF_ON)
    (device : t.get pgPMU F.PMU_STATE = s.get pgPMU F.PMU_STATE)
    (wait : t.get pgTIME F.TIME_TIMEOUTS_ACQWAIT = s.get pgTIME F.TIME_TIMEOUTS_ACQWAIT) : airMay t = airMay s := by
  rw [Bool.eq_iff_iff, airMay_iff, airMay_iff]
  have domain : pageDomainOn t pgAIR = pageDomainOn s pgAIR := by
    simp only [pageDomainOn, show pageDomains pgAIR = [15] by decide, domainOn, domains, List.any_cons, List.any_nil]
  have valid : timeValid t = timeValid s := by simp only [timeValid, time, wait]
  rw [mode, domain, boot, fault, pwr, devState, devState, device, valid]

/-- With the budget exhausted, STANDBY is in force of a radio that sends else. -/
theorem effOf_budget {s : State} (may : airMay s = true) (exhausted : s.air.exhausted = true) : effOf s pgAIR = (1, 10) := by
  obtain ⟨mode, domain, out, svc, fault, asleep, awake, valid⟩ := (airMay_iff s).mp may
  have page : pageType pgAIR = 0x090 := by decide
  have held : holds s pgAIR = [10] := by simp [holds, page, domain, out, svc, fault, asleep, awake, valid, exhausted]
  have asked : wantMode s pgAIR = s.get pgAIR F.HDR_REQ_MODE := if_neg (by simp [pgAIR])
  have active : holdMode 10 < activity (s.get pgAIR F.HDR_REQ_MODE) := by rw [activity, Nat.min_eq_right mode]; decide
  have first : [10].filter (fun h => decide (holdMode h < activity (s.get pgAIR F.HDR_REQ_MODE))) = [10] := by simp [active]
  unfold effOf
  rw [held, asked]
  simp only [first]
  rfl

theorem putEff_effMode {s : State} (ok : StoresOk s) : effMode (putEff pgAIR (1, 10) s) pgAIR = 1 := by
  have mode : bitsOf (417 : Word) 0 2 = 1 := by decide
  suffices h : (putEff pgAIR (1, 10) s).reg pgAIR 0x00C = 417 from (congrArg (bitsOf · 0 2) h).trans mode
  unfold putEff
  extract_lets old v placed
  have set : placed.reg pgAIR 0x00C = 417 := reg_setReg_same ok ..
  split
  · next h => exact h
  · split
    · rw [evt_reg _ _ (by decide) (by decide) (by simp [EventReg, pgAIR, pgEVC]), reg_of_regs (bump_regs ..), set]
    · exact set

theorem putEff_reg (p : Nat) (e : Nat × Nat) (s : State) {q off : Nat} (hp : p < 256) (ho : off < 4096) (h : ¬ EventReg p q off)
    (h' : off ≠ 0x00C) : (putEff p e s).reg q off = s.reg q off := by
  have placed (v : Word) : (s.setReg p 0x00C v).reg q off = s.reg q off :=
    reg_setReg_ne _ _ _ _ _ _ fun e => h' ((regKey_inj ho (by decide)).mp e).2
  refine ite_induct (P := fun t => t.reg q off = s.reg q off) rfl (ite_induct (P := fun t => t.reg q off = s.reg q off) ?_ (placed _))
  rw [evt_reg _ _ hp ho h, reg_of_regs (bump_regs ..), placed]

/-- The second state has the registers of the first and its radio, but for packets that wait. -/
def PacketsOnly (s t : State) : Prop := t.regs = s.regs ∧ ∃ w, t.air = { s.air with waiting := w }

theorem PacketsOnly.sendPacket {s t : State} (h : PacketsOnly s t) (p : AirPkt) : PacketsOnly s (sendPacket p t) := by
  obtain ⟨regs, w, air⟩ := h
  unfold Machine.sendPacket
  split
  · exact ⟨regs, w, air⟩
  · exact ⟨regs, t.air.waiting ++ [p], by rw [updAir_air, air]⟩

/-- The register list sent changes no register, and nothing of the radio's state but what waits and the mode that it was sent for. -/
theorem sendList_parts (s : State) : (sendList s).regs = s.regs ∧ ∃ w m, (sendList s).air = { s.air with waiting := w, listFor := m } := by
  unfold sendList
  generalize sent : (List.range 128).foldl _ s = t
  have only : PacketsOnly s t :=
    sent ▸ foldl_induct (P := PacketsOnly s) (fun _ _ h => ite_induct (h.sendPacket _) h) _ ⟨rfl, _, rfl⟩
  obtain ⟨regs, w, air⟩ := only
  exact ⟨regs, w, _, by rw [updAir_air, air]⟩

/-- On an entry into a mode other than OFF the radio keeps its state, but for packets and the mode that its list was sent for. -/
theorem airEntered_on {s : State} (on : effMode s pgAIR ≠ 0) :
    (airEntered s).regs = s.regs ∧ ∃ w m, (airEntered s).air = { s.air with waiting := w, listFor := m } := by
  have entered : airEntered s = if s.air.listFor = effMode s pgAIR then s
      else sendList (if s.air.listFor = 0 then s.emit (.airClock (s.get pgAIR F.AIR_LINK_CLKDIV)) else s) := by
    unfold airEntered
    exact ite_congr rfl (fun _ => rfl) fun _ => if_neg on
  rw [entered]
  split
  · exact ⟨rfl, _, _, rfl⟩
  · obtain ⟨regs, w, m, air⟩ := sendList_parts (if s.air.listFor = 0 then s.emit (.airClock (s.get pgAIR F.AIR_LINK_CLKDIV)) else s)
    refine ⟨regs.trans (by split <;> rfl), w, m, air.trans ?_⟩
    split <;> rfl

/-- A radio whose budget is found exhausted comes to STANDBY, with its frame in hand and its accounts. -/
theorem refreshAir_budget {s : State} (ok : StoresOk s) (may : airMay s = true) (exhausted : s.air.exhausted = true) :
    (refreshAir s).get pgAIR F.AIR_ACCSTAT_STATE = s.get pgAIR F.AIR_ACCSTAT_STATE ∧
      ∃ w m, (refreshAir s).air = { s.air with waiting := w, listFor := m } := by
  have held : refresh pgAIR s = putEff pgAIR (1, 10) s := by
    rw [← effOf_budget may exhausted]
    exact if_neg (by simp [pgAIR])
  obtain ⟨regs, w, m, air⟩ := airEntered_on (s := putEff pgAIR (1, 10) s) (by rw [putEff_effMode ok]; decide)
  rw [refreshAir, held, get_of_regs regs]
  refine ⟨?_, w, m, by rw [air, (EventPartsOnly.putEff ..).air]⟩
  exact congrArg (bitsOf · _ _) (putEff_reg _ _ _ (by decide) (by decide) (by simp [EventReg, F.AIR_ACCSTAT_STATE, pgAIR, pgEVC]) (by decide))

end Sys2Proof.Machine
end

section
/-!
SUPPORT. The load instant of a scheduled frame (R401, R404), the tries of a frame under listen-before-talk (R405), and the restore of the
accounting (R407): what each comes to in each of its cases.
-/
namespace Sys2Proof.Machine
open Sys2Proof

/-! ### The load instant (R399, R401, R404) -/

/-- A frame above every budget: EXHAUSTED reported, the frame skipped and BUDGET due. -/
def budgetSpent (s : State) : State := updAir ((accState 2 s).bump pgAIR F.AIR_st_DUTYSKIP) fun a => { a with exhausted := true }

section
variable {n : Nat} {s : State}

theorem loadInstant_idle (h : airIndex (bucketSync s) n = none ∨ airSends (bucketSync s) = false) : loadInstant n s = bucketSync s := by
  unfold loadInstant
  extract_lets q
  rcases h with unscheduled | off
  · simp only [q, unscheduled]
  · cases index : airIndex q n with
    | none => rfl
    | some j => exact if_pos (.inl (by rw [off]; rfl))

variable {j : Nat} (index : airIndex (bucketSync s) n = some j)
include index

theorem loadInstant_early (early : airReached (bucketSync s) (loadAt (bucketSync s) (schedFrame (bucketSync s) n j)) = false) :
    loadInstant n s = bucketSync s := by
  simp only [loadInstant, index]
  exact if_pos (.inr (by simp [early]))

variable (sends : airSends (bucketSync s) = true) {f : AirFrame} (sched : f = schedFrame (bucketSync s) n j)
  (due : airReached (bucketSync s) (loadAt (bucketSync s) f) = true)
include sends sched due

section
variable (within : withinBudget (bucketSync s) f.sb (airTime (bucketSync s) f.reacq) = true)
include within

theorem loadInstant_late (late : f.tgo ≤ s.time.ft) : loadInstant n s = loadLate f (accState 0 (bucketSync s)) := by
  subst sched
  simp only [loadInstant, index]
  refine (if_neg (by simp [sends, due])).trans ((if_pos within).trans (if_pos ?_))
  rwa [accState_time, (AccountsOnly.bucketSync s).time]

/-- A frame loaded is charged to the bucket of the RTC, and its TXLOAD goes out. -/
theorem loadInstant_charges (ahead : s.time.ft < f.tgo) {t : State} {b : List Byte}
    (built : buildFrame f f.base (accState 0 (bucketSync s)) = (t, some b)) :
    ∃ u, SendKept (bucketSync s) u ∧
      u.air = { (bucketSync s).air with buckets := updAt (bucketSync s).air.buckets f.sb fun l => updAt l (bucketSync s).air.bucket (· + f.us) } ∧
      loadInstant n s = sendLoad { f with bucket := some (bucketSync s).air.bucket, go := true } [txloadPkt (bucketSync s) f b] u := by
  have parts := AccessPartsOnly.buildFrame f f.base (accState 0 (bucketSync s))
  have places := PlacesKept.buildFrame f f.base (accState 0 (bucketSync s))
  rw [built] at parts places
  have parts' := (AccessPartsOnly.of_event (EventPartsOnly.accState 0 (bucketSync s))).trans parts
  have kept := parts'.sendKept ((PlacesKept.accState 0 _).trans places)
  have air : t.air = (bucketSync s).air := parts'.air
  have again : bucketSync t = t := bucketSync_again (by rw [accounts, air]; rfl) (parts'.pwr.trans (AccountsOnly.bucketSync s).pwr)
  have charged : SendKept t ((chargeBucket f.sb t.air.bucket f.us t).bump pgAIR F.AIR_st_AIRTIME f.us) :=
    ⟨.of_regs (bump_regs ..), bump_staged .., bump_cmt .., bump_time ..⟩
  refine ⟨_, kept.trans charged, ?_, ?_⟩
  · rw [bump_air, chargeBucket, updAir_air, air]
  · rw [← (kept.trans charged).txloadPkt (f := f) (g := { f with bucket := some t.air.bucket }) rfl, ← air]
    subst sched
    simp only [loadInstant, index]
    refine (if_neg (by simp [sends, due])).trans ((if_pos within).trans ((if_neg ?_).trans ?_))
    · rw [accState_time, (AccountsOnly.bucketSync s).time]
      exact not_le.mpr ahead
    · simp only [built, chargeFrame, again]

end

section
variable (above : withinBudget (bucketSync s) f.sb (airTime (bucketSync s) f.reacq) = false)
include above

theorem loadInstant_tries (allowed : (bucketSync s).flag pgAIR F.AIR_LBT_LBTOK f.sb = true ∧
    (airUsed (bucketSync s) f.sb : Rat) + airTime (bucketSync s) f.reacq ≤ airBudget (bucketSync s) f.sb true) :
    loadInstant n s = lbtTry f (accState 1 (bucketSync s)) := by
  subst sched
  simp only [loadInstant, index]
  exact (if_neg (by simp [sends, due])).trans ((if_neg (by simpa using above)).trans (if_pos allowed))

theorem loadInstant_exhausts (refused : ¬ ((bucketSync s).flag pgAIR F.AIR_LBT_LBTOK f.sb = true ∧
    (airUsed (bucketSync s) f.sb : Rat) + airTime (bucketSync s) f.reacq ≤ airBudget (bucketSync s) f.sb true)) :
    loadInstant n s = refreshAir (budgetSpent (bucketSync s)) := by
  subst sched
  simp only [loadInstant, index]
  exact (if_neg (by simp [sends, due])).trans ((if_neg (by simpa using above)).trans (if_neg refused))

end
end

theorem budgetSpent_get {q : State} {p : Nat} {f : Fld} (ho : f.off + f.stride * 0 < 4096) (h : ¬ EventReg pgAIR p (f.off + f.stride * 0))
    (h' : ¬ (p = pgAIR ∧ f.off + f.stride * 0 = 0x074)) : (budgetSpent q).get p f = q.get p f :=
  (get_of_regs (bump_regs ..) p f 0).trans (congrArg (bitsOf · _ _) (accState_reg 2 q ho h h'))

theorem airMay_of_airSends {q : State} (h : airSends q = true) : airMay q = true := by
  simp only [airSends, Bool.and_eq_true] at h
  obtain ⟨⟨may, -⟩, -⟩ := h
  exact may

/-- Of what AIR sends by, nothing else has changed. -/
theorem airMay_budgetSpent (q : State) : airMay (budgetSpent q) = airMay q := by
  refine airMay_congr (by simp [budgetSpent]) (by simp [budgetSpent]) (by simp [budgetSpent]) (by simp [budgetSpent]) ?_ ?_ ?_ ?_
  · exact budgetSpent_get (by decide) (by unfold EventReg; decide) (by decide)
  · exact budgetSpent_get (by decide) (by unfold EventReg; decide) (by decide)
  · exact budgetSpent_get (by decide) (by unfold EventReg; decide) (by decide)
  · exact budgetSpent_get (by decide) (by unfold EventReg; decide) (by decide)

/-- BUDGET held: EXHAUSTED is reported, and the frame in hand and the accounts stay. -/
theorem refreshAir_budgetSpent {q : State} (ok : StoresOk q) (may : airMay q = true) :
    (refreshAir (budgetSpent q)).air.exhausted = true ∧ (refreshAir (budgetSpent q)).air.frame = q.air.frame ∧
      (refreshAir (budgetSpent q)).air.buckets = q.air.buckets ∧ (refreshAir (budgetSpent q)).get pgAIR F.AIR_ACCSTAT_STATE = 2 := by
  have spent : StoresOk (budgetSpent q) := (((ok.set ..).evtIf ..).bump ..).updAir _
  obtain ⟨state, w, m, air⟩ := refreshAir_budget spent ((airMay_budgetSpent q).trans may) rfl
  have same : (budgetSpent q).regs = (accState 2 q).regs := bump_regs ..
  rw [state, get_of_regs same, accState_state 2 ok, air]
  exact ⟨rfl, by simp [budgetSpent], by simp [budgetSpent], rfl⟩

/-! ### Tries under listen-before-talk (R405) -/

section
variable {f g : AirFrame} {s : State}

/-- A try of a frame in hand: its TXLOAD and its CCA. -/
theorem lbtTry_sends (tgo : g.tgo = airTgo s (tryStamp s g) g.reacq) (go : g.go = false) (left : lbtLeft s g = true) (ahead : s.time.ft < g.tgo)
    {t : State} {b : List Byte} (built : buildFrame { g with busy := false } (tryStamp s g) s = (t, some b)) :
    SendKept s t ∧ t.air = s.air ∧ lbtTry g s = sendLoad { g with busy := false } [txloadPkt s g b, ccaPkt s g] t := by
  have parts := AccessPartsOnly.buildFrame { g with busy := false } (tryStamp s g) s
  have places := PlacesKept.buildFrame { g with busy := false } (tryStamp s g) s
  rw [built] at parts places
  have kept := parts.sendKept places
  refine ⟨kept, parts.air, ?_⟩
  rw [← kept.txloadPkt (f := g) (g := { g with busy := false }) rfl, ← kept.ccaPkt (f := g) (g := { g with busy := false }) rfl rfl rfl]
  unfold lbtTry
  extract_lets f
  have same : f = { g with busy := false } := by
    unfold f
    rw [← tgo, ← go]
  clear_value f
  subst same
  refine (if_neg ?_).trans ((if_neg (not_le.mpr ahead)).trans ?_)
  · rw [show lbtLeft s { g with busy := false } = true from left]
    decide
  · rw [show tryStamp s { g with busy := false } = tryStamp s g from rfl, built]

theorem nextTry_idle (h : s.air.frame = none) : nextTry s = s := by simp only [nextTry, h]

variable (hand : s.air.frame = some f)
include hand

theorem nextTry_of_go (go : f.go = true) : nextTry s = s := by
  simp only [nextTry, hand]
  exact if_pos go

variable (waits : f.go = false)
include waits

theorem nextTry_drops (mayNot : airMay s = false) : nextTry s = dropFrame s := by
  simp only [nextTry, hand]
  exact (if_neg (by simp [waits])).trans (if_pos (by simp [mayNot]))

variable (may : airMay s = true) (next : g = { f with k := f.k + 1, tgo := airTgo s (tryStamp s { f with k := f.k + 1 }) f.reacq })
include may next

theorem nextTry_last (last : lbtLeft s g = false) : nextTry s = if airReached s f.tgo then lbtGiveUp s else s := by
  subst next
  simp only [nextTry, hand]
  exact (if_neg (by simp [waits])).trans ((if_neg (by simp [may])).trans (if_pos (by simpa using last)))

theorem nextTry_left (left : lbtLeft s g = true) : nextTry s = if airReached s (loadAt s g) then lbtTry g s else s := by
  subst next
  simp only [nextTry, hand]
  exact (if_neg (by simp [waits])).trans ((if_neg (by simp [may])).trans (if_neg (by simpa using left)))

end

/-! ### The answer to a CCA (R405) -/

section
variable {f : AirFrame} {busy : Bool} {s : State} (alone : s.air.waiting = []) (hand : s.air.frame = some f)
include alone hand

theorem ccaResult_ignored (h : f.go = true ∨ f.busy = true) : ccaResult busy s = airDir true s := by
  have hand' : (airDir true s).air.frame = some f := by rw [airDir_air]; exact hand
  simp only [ccaResult, linkBack_of_none alone, hand']
  exact if_pos h

variable (open' : ¬ (f.go = true ∨ f.busy = true))
include open'

theorem ccaResult_drops (mayNot : airMay s = false) : ccaResult busy s = dropFrame (airDir true s) := by
  have hand' : (airDir true s).air.frame = some f := by rw [airDir_air]; exact hand
  simp only [ccaResult, linkBack_of_none alone, hand']
  exact (if_neg open').trans (if_pos (by rw [airMay_airDir, mayNot]; rfl))

variable (may : airMay s = true)
include may

theorem ccaResult_busy : ccaResult true s = tryBusy f (airDir true s) := by
  have hand' : (airDir true s).air.frame = some f := by rw [airDir_air]; exact hand
  simp only [ccaResult, linkBack_of_none alone, hand']
  exact (if_neg open').trans ((if_neg (by rw [airMay_airDir, may]; decide)).trans (if_pos (.inl trivial)))

/-- A clear channel charges the frame to the bucket of the RTC and lets it go. -/
theorem ccaResult_clear (ahead : s.time.ft < f.tgo) : ∃ u, ccaResult false s = u ∧ u.air.dirOut = true ∧
    u.air.frame = some { f with bucket := some u.air.bucket, go := true } ∧ u.air.bucket = (bucketSync s).air.bucket ∧
    u.air.buckets = updAt (bucketSync s).air.buckets f.sb fun l => updAt l u.air.bucket (· + f.us) := by
  have hand' : (airDir true s).air.frame = some f := by rw [airDir_air]; exact hand
  have synced : accounts (bucketSync (airDir true s)) = accounts (bucketSync s) :=
    accounts_bucketSync_congr (by rw [accounts, airDir_air]; rfl) (airDir_pwr ..)
  have index : (bucketSync (airDir true s)).air.bucket = (bucketSync s).air.bucket := congrArg Prod.fst synced
  have buckets : (bucketSync (airDir true s)).air.buckets = (bucketSync s).air.buckets := congrArg Prod.snd synced
  have clear : ccaResult false s = updAir (chargeFrame f (airDir true s)).1
      fun a => { a with frame := some { (chargeFrame f (airDir true s)).2 with go := true } } := by
    simp only [ccaResult, linkBack_of_none alone, hand']
    refine (if_neg open').trans ((if_neg (by rw [airMay_airDir, may]; decide)).trans (if_neg ?_))
    rw [airDir_time]
    simpa using ahead
  refine ⟨_, rfl, ?_⟩
  rw [clear, updAir_air, chargeFrame]
  simp only [bump_air, chargeBucket, updAir_air]
  rw [← index, ← buckets]
  exact ⟨(AccountsOnly.bucketSync (airDir true s)).dirOut.trans (by rw [airDir_air]), trivial, rfl, rfl⟩

end

/-! ### AIR_TXGO (R396) -/

section
variable {f : AirFrame} {s : State}

theorem txgo_idle (h : s.air.frame = none) : txgo s = s := by simp only [txgo, h]

variable (hand : s.air.frame = some f)
include hand

theorem txgo_waits (waits : f.go = false) : txgo s = s := by
  simp only [txgo, hand]
  exact if_pos (by simp [waits])

variable (go : f.go = true)
include go

theorem txgo_drops (mayNot : airMay s = false) : txgo s = dropFrame s := by
  simp only [txgo, hand]
  exact (if_neg (by simp [go])).trans (if_pos (by simp [mayNot]))

theorem txgo_goes (may : airMay s = true) : txgo s = ((updAir s fun a => { a with frame := none, onAir := some f }).emit
    (.ballAt "AIR_TXGO" true (airEdge f.tgo))).emit (.ballAt "AIR_TXGO" false (airEdge f.tgo + 16000)) := by
  simp only [txgo, hand]
  exact (if_neg (by simp [go])).trans (if_neg (by simp [may]))

end

/-! ### Records and the restore (R406, R407) -/

theorem writeAccounting_parts (s : State) : (writeAccounting s).air =
    { s.air with rseq := (s.air.rseq + 1) % 2 ^ 32, copyB := !s.air.copyB, recTen := s.pwr.rtc / 10 } ∧
      (writeAccounting s).pwr.rtcFresh = false := by
  have kept := AccessPartsOnly.internalProg (recordPlace 0 s.air.copyB) (accRecord s) s
  refine ⟨?_, rfl⟩
  unfold writeAccounting
  dsimp only [updAir]
  rw [kept.air, kept.pwr]

/-- A record loaded names the next record's number and copy; all else that it changes is the accounts. -/
theorem loadAccounting_parts (b : List Byte) (copyB : Bool) (s : State) :
    AccountsOnly (updAir s fun a => { a with rseq := (leVal (slice b 4 4) + 1) % 2 ^ 32, copyB := !copyB }) (loadAccounting b copyB s) := by
  unfold loadAccounting
  extract_lets rtc now sb bk loaded c aged
  have loaded' : AccountsOnly (updAir s fun a => { a with rseq := (leVal (slice b 4 4) + 1) % 2 ^ 32, copyB := !copyB }) loaded := ⟨_, _, rfl⟩
  have aged' : AccountsOnly loaded aged :=
    .ite (.foldl (fun _ _ => .chargeBucket ..) _ _) ((AccountsOnly.foldl (fun _ _ => .useSecond ..) _ _).trans (.ageBuckets ..))
  exact (loaded'.trans aged').trans ⟨_, _, rfl⟩

section
variable {s t : State} {a b : Option (List Byte)}
  (read : readCopies 0 1172 (updAir s fun x => { x with restored := true, recTen := s.pwr.rtc / 10 }) = (t, a, b))
include read

/-- The newer of two valid copies is loaded. -/
theorem restoreAccounting_loads {r : List Byte} {c : Bool} (newer : newerCopy 0x435A4152 1172 a b = some (r, c)) :
    restoreAccounting s = ((loadAccounting r c t).set pgAIR F.AIR_RECSTAT_SRC 1).evt pgAIR 5 := by
  simp only [restoreAccounting, read, newer]

/-- Whatever the copies are, the accounting counts as restored. -/
theorem restoreAccounting_restored : (restoreAccounting s).air.restored = t.air.restored := by
  simp only [restoreAccounting, read, evt_air]
  cases newerCopy 0x435A4152 1172 a b with
  | some x => exact (loadAccounting_parts x.1 x.2 t).restored
  | none => exact ite_induct (P := fun u => u.air.restored = t.air.restored) (AccountsOnly.foldl (fun _ _ => .chargeBucket ..) _ _).restored rfl

/-- Without a copy that carries the record's MAGIC, every bucket is empty. -/
theorem restoreAccounting_empties {x y : List Byte} (ha : a = some x) (hb : b = some y) (hx : beVal (slice x 0 4) ≠ 0x435A4152)
    (hy : beVal (slice y 0 4) ≠ 0x435A4152) : ∃ i, restoreAccounting s =
      ((updAir t fun z => { z with buckets := List.replicate 8 (List.replicate 36 0), bucket := i }).set pgAIR F.AIR_RECSTAT_SRC 0).evt pgAIR 5 := by
  subst ha hb
  have invalid {z : List Byte} (hz : beVal (slice z 0 4) ≠ 0x435A4152) : recordValid 0x435A4152 1172 z = false := by simp [recordValid, hz]
  have newer : newerCopy 0x435A4152 1172 (some x) (some y) = none := by simp [newerCopy, invalid hx, invalid hy]
  refine ⟨t.pwr.rtc / 100 % 36, ?_⟩
  simp only [restoreAccounting, read, newer]
  simp [hx, hy]

end

theorem evt_recstat {s : State} (ok : StoresOk s) {n : Nat} (hn : n < 4) :
    ((s.set pgAIR F.AIR_RECSTAT_SRC n).evt pgAIR 5).get pgAIR F.AIR_RECSTAT_SRC = n := by
  rw [evt_get _ _ _ _ (by decide) (by decide) (by unfold EventReg; decide), get_set_same ok _ (by decide)]
  exact Nat.mod_eq_of_lt hn

end Sys2Proof.Machine
end

section
/-!
PROOF. O37: the crowd radio's schedule, its tries, and the accounting of its airtime (R396 to R408).
-/
namespace Sys2Proof.Machine
open Sys2Proof

/-! ### The commands -/

section
variable (s : State)

theorem exec_crowdLoadInstant (n : BitVec 48) : exec (.crowdLoadInstant n) s = .next (loadInstant n.toNat s.quiet) := rfl
theorem exec_crowdTxgo : exec .crowdTxgo s = .next (txgo s.quiet) := rfl
theorem exec_lbtTry : exec .lbtTry s = .next (nextTry s.quiet) := rfl
theorem exec_bucketAdvance : exec .bucketAdvance s = .next (bucketSync s.quiet) := rfl
theorem exec_accountingRecordWrite : exec .accountingRecordWrite s = .next (recordDue s.quiet) := rfl
theorem exec_accountingRestore : exec .accountingRestore s = .next (restoreOnce s.quiet) := rfl

variable {s}

theorem exec_loadlate_idle (h : s.air.frame = none) : exec .loadlate s = .next s.quiet := by
  change Host.Outcome.next (match s.air.frame with | some f => notLoaded f s.quiet | none => s.quiet) = _
  rw [h]

theorem exec_loadlate {f : AirFrame} (h : s.air.frame = some f) : exec .loadlate s = .next (notLoaded f s.quiet) := by
  change Host.Outcome.next (match s.air.frame with | some f => notLoaded f s.quiet | none => s.quiet) = _
  rw [h]

theorem exec_ccares (on : linkOn s = true) (busy : Bool) (x : Byte) : exec (.ccares busy x) s = .next (ccaResult busy s.quiet) :=
  congrArg Host.Outcome.next (if_pos on)

end

/-- Settles O37, clause by clause from what the load instant, a try, its answer, AIR_TXGO and the accounting come to in each of their cases. -/
theorem radioSchedule : Obligations.RadioSchedule := by
  refine ⟨?early, ?within, ?late, ?above, ?idle, ?loadlate, ?txgo, ?tries, ?cca, ?buckets, ?noRecord, ?record, ?restored, ?restore⟩
  case early =>
    rintro n s q rfl
    refine ⟨fun h => ?_, fun j index early => ?_⟩
    · rw [exec_crowdLoadInstant, loadInstant_idle h]
    · rw [exec_crowdLoadInstant, loadInstant_early index early]
  case within =>
    rintro n j f s q rfl index sends sched due within ahead t b built
    obtain ⟨v, kept, air, loads⟩ := loadInstant_charges index sends sched due within (s := s.quiet) ahead built
    have synced := AccountsOnly.bucketSync s.quiet
    have waiting : v.air.waiting = (bucketSync s.quiet).air.waiting := by rw [air]
    have dirOut : v.air.dirOut = (bucketSync s.quiet).air.dirOut := by rw [air]
    have onAir : v.air.onAir = s.air.onAir := (congrArg AirState.onAir air).trans synced.onAir
    have waited : (bucketSync s.quiet).air.waiting = s.air.waiting := synced.waiting
    have bus : (bucketSync s.quiet).air.dirOut = s.air.dirOut := synced.dirOut
    have clock : (bucketSync s.quiet).get pgAIR F.AIR_LINK_CLKDIV = s.get pgAIR F.AIR_LINK_CLKDIV := get_of_regs synced.regs ..
    rw [exec_crowdLoadInstant, loads, ← waited, ← bus, ← clock]
    refine ⟨fun inTime => ⟨_, rfl, ?_⟩, fun late => ⟨_, rfl, ?_⟩⟩
    · obtain ⟨frame, kind, buckets, sends⟩ := sendLoad_inTime (f := { f with go := true })
        (g := { f with bucket := some (bucketSync s.quiet).air.bucket, go := true }) kept waiting rfl rfl rfl dirOut inTime
      simp only [List.mem_singleton, forall_eq] at sends
      exact ⟨frame, kind.trans onAir, buckets.trans (by rw [air]), sends⟩
    · rw [sendLoad_late (f := { f with go := true }) (g := { f with bucket := some (bucketSync s.quiet).air.bucket, go := true }) kept
        waiting rfl rfl rfl late, notLoaded, if_pos rfl, loadLate_air]
      exact ⟨rfl, (refund_onAir _).trans onAir⟩
  case late =>
    rintro n j f s q rfl index sends sched due within late
    refine ⟨_, exec_crowdLoadInstant s n, ?_⟩
    rw [loadInstant_late index sends sched due within late, loadLate_air, refund_of_none _ (by rw [sched]; rfl), accState_air]
  case above =>
    rintro n j f s q ok rfl index sends sched due above
    have ok' := (AccountsOnly.bucketSync s.quiet).storesOk ok.quiet
    refine ⟨fun allowed within => ?_, fun refused => ⟨_, exec_crowdLoadInstant s n, ?_⟩⟩
    · rw [exec_crowdLoadInstant, loadInstant_tries index sends sched due above ⟨allowed, within⟩]
    · rw [loadInstant_exhausts index sends sched due above fun h => refused.elim (by simp [h.1]) (· h.2)]
      obtain ⟨exhausted, frame, buckets, state⟩ := refreshAir_budgetSpent ok' (airMay_of_airSends sends)
      exact ⟨exhausted, frame.trans (AccountsOnly.bucketSync s.quiet).frame, buckets, state⟩
  case idle =>
    intro s h
    rw [exec_loadlate_idle h, exec_crowdTxgo, exec_lbtTry, txgo_idle (s := s.quiet) h, nextTry_idle (s := s.quiet) h]
    exact ⟨rfl, rfl, rfl⟩
  case loadlate =>
    intro f s _ hand
    rw [exec_loadlate hand]
    refine ⟨fun go => ⟨_, rfl, ?_⟩, fun waits left => ⟨_, rfl, ?_⟩, fun waits last => ⟨_, rfl, ?_⟩⟩
    · rw [notLoaded, if_pos go, loadLate_counted, loadLate_airtime, loadLate_air]
      refine ⟨rfl, rfl, fun uncharged => ?_, fun i charged => ?_⟩
      · rw [refund_of_none f uncharged]
        exact ⟨rfl, rfl⟩
      · rw [refund_of_some f charged]
        exact ⟨rfl, congrArg (·.getD 0) (amGet_amSet_same ..)⟩
    · rw [notLoaded, if_neg (by simp [waits]), tryBusy_left f left]
      exact ⟨rfl, rfl⟩
    · rw [notLoaded, if_neg (by simp [waits]), tryBusy_last f last, lbtGiveUp_counted, lbtGiveUp_air]
      exact ⟨rfl, rfl⟩
  case txgo =>
    intro f s hand
    rw [exec_crowdTxgo, exec_lbtTry]
    refine ⟨fun waits => ?_, fun go => ?_, fun go mayNot => ?_, fun go may => ?_⟩
    · rw [txgo_waits (s := s.quiet) hand waits]
    · rw [nextTry_of_go (s := s.quiet) hand go]
    · rw [txgo_drops (s := s.quiet) hand go mayNot]
    · rw [txgo_goes (s := s.quiet) hand go may]
      rfl
  case tries =>
    rintro f g s q rfl hand waits next
    rw [exec_lbtTry]
    refine ⟨fun mayNot => ?_, fun may last past => ⟨_, rfl, ?_⟩, fun may early => ?_,
      fun may left due ahead t b built inTime => ⟨_, rfl, ?_⟩⟩
    · rw [nextTry_drops (s := s.quiet) hand waits mayNot]
    · rw [nextTry_last (s := s.quiet) hand waits may next last, if_pos past, lbtGiveUp_air]
      rfl
    · cases left : lbtLeft s.quiet g with
      | false => rw [nextTry_last (s := s.quiet) hand waits may next left, if_neg (by simpa [left] using early)]
      | true => rw [nextTry_left (s := s.quiet) hand waits may next left, if_neg (by simpa [left] using early)]
    · have tgo : g.tgo = airTgo s.quiet (tryStamp s.quiet g) g.reacq := by simp only [next, tryStamp]
      obtain ⟨kept, air, tries⟩ := lbtTry_sends tgo (by rw [next]; exact waits) left ahead built
      obtain ⟨frame, -, buckets, sends⟩ := sendLoad_inTime (f := g) (g := { g with busy := false }) kept (congrArg AirState.waiting air) rfl
        rfl rfl (congrArg AirState.dirOut air) inTime
      simp only [List.forall_mem_cons, List.not_mem_nil, false_implies, implies_true, and_true] at sends
      rw [nextTry_left (s := s.quiet) hand waits may next left, if_pos due, tries]
      exact ⟨frame, buckets.trans (congrArg AirState.buckets air), sends⟩
  case cca =>
    intro f x s on alone hand waits
    have unanswered (idle : f.busy = false) : ¬ (f.go = true ∨ f.busy = true) := by simp [waits, idle]
    refine ⟨fun busy y => ⟨_, exec_ccares on y x, ?_⟩, fun idle mayNot y => ⟨_, exec_ccares on y x, ?_⟩,
      fun idle may ahead => ⟨_, exec_ccares on false x, ?_⟩, fun idle may left => ⟨_, exec_ccares on true x, ?_⟩,
      fun idle may last => ⟨_, exec_ccares on true x, ?_⟩⟩
    · rw [ccaResult_ignored (s := s.quiet) alone hand (.inr busy), airDir_air]
      rfl
    · rw [ccaResult_drops (s := s.quiet) alone hand (unanswered idle) mayNot, dropFrame, updAir_air, airDir_air]
      simp [alone]
    · obtain ⟨u, clear, back, frame, bucket, buckets⟩ := ccaResult_clear (s := s.quiet) alone hand (unanswered idle) may ahead
      rw [clear]
      exact ⟨frame, bucket, back, buckets⟩
    · rw [ccaResult_busy (s := s.quiet) alone hand (unanswered idle) may, tryBusy_left f left, updAir_air, airDir_air]
      simp [alone]
    · rw [ccaResult_busy (s := s.quiet) alone hand (unanswered idle) may, tryBusy_last f last, lbtGiveUp_air, airDir_air]
      simp [alone]
  case buckets =>
    intro s h
    have index := bucketSync_bucket (s := s.quiet) h
    have steps : ((bucketSync s.quiet).air.bucket + 36 - s.air.bucket) % 36 = bucketSteps s.quiet := by rw [index]; rfl
    have buckets : (bucketSync s.quiet).air.buckets = (advanced^[bucketSteps s.quiet] (accounts s.quiet)).2 :=
      congrArg Prod.snd (accounts_bucketSync s.quiet)
    refine ⟨_, exec_bucketAdvance s, index, (AccountsOnly.bucketSync s.quiet).frame, fun k i hi => ?_⟩
    rw [steps, buckets]
    exact advanced_buckets (x := accounts s.quiet) h hi k (Nat.mod_lt _ (by decide))
  case noRecord =>
    intro s h
    rw [exec_accountingRecordWrite, recordDue, if_neg]
    rintro ⟨restored, due⟩
    exact h.elim (by simp [show s.air.restored = true from restored]) due
  case record =>
    intro s restored due
    refine ⟨_, exec_accountingRecordWrite s, ?_⟩
    rw [recordDue, if_pos ⟨restored, due⟩]
    exact writeAccounting_parts s.quiet
  case restored =>
    intro s restored
    exact (exec_accountingRestore s).trans (congrArg _ (if_pos restored))
  case restore =>
    intro s t a b ok unrestored read
    have parts := AccessPartsOnly.readCopies 0 1172 (updAir s.quiet fun x => { x with restored := true, recTen := s.pwr.rtc / 10 })
    have ok' := (keeps_readCopies 0 1172 (updAir s.quiet fun x => { x with restored := true, recTen := s.pwr.rtc / 10 })
      ((ok.quiet.updAir _).keeps 0x65) ⟨fun _ h => h⟩).storesOk
    rw [read] at parts ok'
    dsimp only at parts ok'
    have restored : t.air.restored = true := congrArg AirState.restored parts.air
    refine ⟨_, exec_accountingRestore s, ?_⟩
    rw [restoreOnce, if_neg (by simp [unrestored])]
    refine ⟨?_, fun r c newer => ?_, fun x y ha hb hx hy => ?_⟩
    · rw [restoreAccounting_restored (s := s.quiet) read, restored]
    · rw [restoreAccounting_loads (s := s.quiet) read newer]
      have loaded := loadAccounting_parts r c t
      rw [evt_recstat (loaded.storesOk (ok'.updAir _)) (by decide), evt_air, set_air]
      exact ⟨rfl, loaded.copyB, loaded.rseq⟩
    · obtain ⟨i, empties⟩ := restoreAccounting_empties (s := s.quiet) read ha hb hx hy
      rw [empties, evt_recstat (ok'.updAir _) (by decide), evt_air, set_air]
      exact ⟨rfl, rfl⟩

end Sys2Proof.Machine
end

section
/-!
SUPPORT. What a step takes off the queue and what every step keeps: each command's footprint, the canonical forms of the stores, and what a
nanosecond in which no command takes place leaves as it was.
-/
namespace Sys2Proof.Machine
open Sys2Proof

/-! ### The step (log entry 1) -/

theorem step_of_cons {s : State} {c : Instr} {rest : List Instr} (h : s.pending = c :: rest) :
    step s = exec c { s with pending := rest } := by
  simp only [step, h]

theorem step_of_nil {s : State} (h : s.pending = []) : step s = .next (idleTick s) := by
  simp only [step, h]

/-- Settles O1. -/
theorem stepRunsFront : Obligations.StepRunsFront :=
  ⟨fun _ _ => step_of_cons rfl, fun _ => step_of_nil⟩

/-- Settles O2: every arm of `exec` is the effect of its row on the state, as a next state. -/
theorem everyCommandAnswers : Obligations.EveryCommandAnswers := by
  intro c s
  cases c <;> exact ⟨_, rfl⟩

/-! ### What a step keeps -/

/-- The state after a step keeps the canonical forms of the stores, the commands behind the first and the free values drawn, whichever
command it runs. -/
theorem keeps_step {s t : State} (h : StoresOk s) (e : step s = .next t) :
    ∃ K : Keeping, K.queue = s.pending.tail ∧ K.free = s.freeCtr ∧ Keeps K t := by
  cases waits : s.pending with
  | nil =>
    rw [step_of_nil waits] at e
    cases e
    exact ⟨_, waits, rfl, keeps_idleTick s (h.keeps 0x11202C) ⟨fun _ hi => hi⟩⟩
  | cons c rest =>
    rw [step_of_cons waits] at e
    have ok : StoresOk { s with pending := rest } := ⟨h.regs, h.staged, h.ctr, h.mem⟩
    obtain ⟨t', answers, kept⟩ := keeps_exec c (ok.keeps (partBits (footprint c))) ⟨fun _ hi => hi⟩
    cases answers.symm.trans e
    exact ⟨_, rfl, rfl, kept⟩

/-- Settles O3: the canonical forms are among what every step keeps. -/
theorem stepKeepsStores : Obligations.StepKeepsStores := by
  intro s t h e
  obtain ⟨K, -, -, kept⟩ := keeps_step h e
  exact kept.storesOk

/-- Settles O4: at reset every store lists nothing. -/
theorem resetStores : Obligations.ResetStores :=
  ⟨⟨regFileOk_nil, rfl, rfl, rfl⟩, rfl, rfl⟩

/-- Settles O5: so are the commands behind the first and the free values drawn. -/
theorem stepTakesOneCommand : Obligations.StepTakesOneCommand := by
  intro s t h e
  obtain ⟨K, queue, free, kept⟩ := keeps_step h e
  exact ⟨kept.parts.queueOk.trans queue, free ▸ kept.parts.freeOk⟩

/-- Settles O6: the bit of a part outside the footprint is clear in what the command may change. -/
theorem commandFootprints : Obligations.CommandFootprints := by
  intro c s t p h e outside
  obtain ⟨t', answers, kept⟩ := keeps_exec c (h.keeps (partBits (footprint c))) ⟨fun _ hi => hi⟩
  cases answers.symm.trans e
  exact kept.same rfl (Bool.eq_false_iff.2 (mt (partBits_mem _ _).1 outside))

/-- Settles O7: memory is one of the parts. -/
theorem commandMemoryFrame : Obligations.CommandMemoryFrame := by
  intro c s t a h e outside
  have same : t.mem = s.mem := commandFootprints c s t .mem h e outside
  rw [same]

/-! ### A nanosecond in which no command takes place -/

/-- Between two states nothing has changed but the time base, the cores, power, the Ethernet ports, the statistics and the free values drawn. -/
def TickPartsOnly (s t : State) : Prop :=
  ∃ time cores pwr net ctr n, t = { s with time := time, cores := cores, pwr := pwr, net := net, ctr := ctr, freeCtr := n }

namespace TickPartsOnly
variable {s t u : State}

theorem refl (s : State) : TickPartsOnly s s := ⟨_, _, _, _, _, _, rfl⟩

theorem trans (h : TickPartsOnly s t) (h' : TickPartsOnly t u) : TickPartsOnly s u := by
  obtain ⟨_, _, _, _, _, _, rfl⟩ := h
  obtain ⟨_, _, _, _, _, _, rfl⟩ := h'
  exact ⟨_, _, _, _, _, _, rfl⟩

theorem foldl {α : Type} {f : State → α → State} (hf : ∀ s x, TickPartsOnly s (f s x)) (l : List α) (s : State) :
    TickPartsOnly s (l.foldl f s) :=
  foldl_induct (fun _ x h => h.trans (hf _ x)) l (refl s)

theorem bump (s : State) (p : Nat) (f : Fld) (n k : Nat) : TickPartsOnly s (s.bump p f n k) := by
  unfold State.bump
  split
  · exact refl s
  · exact ⟨_, _, _, _, _, _, rfl⟩

theorem updCore (s : State) (c : Nat) (f : Core → Core) : TickPartsOnly s (s.updCore c f) := ⟨_, _, _, _, _, _, rfl⟩

theorem rtcTick (s : State) : TickPartsOnly s (rtcTick s) := ⟨_, _, _, _, _, _, rfl⟩

theorem coreTick (c : Nat) (s : State) : TickPartsOnly s (coreTick c s) := by
  unfold Machine.coreTick
  dsimp only
  split
  · exact (bump ..).trans (updCore ..)
  · exact (bump ..).trans (updCore ..)
  · exact bump ..
  · exact refl s

theorem ptpFrame (x : Nat) (event : Bool) (m : List Byte) (s : State) : TickPartsOnly s (ptpFrame x event m s).1 := by
  unfold Machine.ptpFrame
  split
  · exact refl s
  · exact ⟨_, _, _, _, _, _, rfl⟩

theorem queueLead (prio : Nat) (f : Nat → List Byte) (s : State) : TickPartsOnly s (queueLead prio f s) := by
  unfold Machine.queueLead
  dsimp only
  split <;> exact ⟨_, _, _, _, _, _, rfl⟩

theorem ptpQueue (event : Bool) (m : List Byte) (s : State) : TickPartsOnly s (ptpQueue event m s) := by
  unfold Machine.ptpQueue
  exact (ptpFrame (leadOf s) event m s).trans ((ptpFrame (1 - leadOf s) event m _).trans (queueLead ..))

theorem announceSend (s : State) : TickPartsOnly s (announceSend s) :=
  trans (t := updPtp s fun p => { p with annSeq := (p.annSeq + 1) % 65536 }) ⟨_, _, _, _, _, _, rfl⟩ (ptpQueue ..)

theorem timeTick (s : State) : TickPartsOnly s (timeTick s) := by
  have ticks : TickPartsOnly s (updTime s tickTime) := ⟨_, _, _, _, _, _, rfl⟩
  unfold Machine.timeTick
  dsimp only
  split
  · exact ticks.trans (announceSend _)
  · exact ticks

end TickPartsOnly

theorem coreTick_net (c : Nat) (s : State) : (coreTick c s).net = s.net := by
  unfold coreTick
  dsimp only
  split <;> simp

/-- The Ethernet ports stand where no Announce falls due in the nanosecond (R45). -/
theorem timeTick_net {s : State} (h : announceDue s (tickTime s.time).ft = false) : (timeTick s).net = s.net := by
  simp [timeTick, h]

/-- The RTC is inside a second after the nanosecond, which then brings nothing to the radio's accounting (R403, R406). -/
theorem secondPassed_rtcTick {s : State} (h : s.pwr.rtcNs < 999999999) : secondPassed (rtcTick s) = rtcTick s := by
  have within : ¬ 999999999 ≤ s.pwr.rtcNs := by omega
  simp [secondPassed, rtcTick, within]

/-- The RTC and the present FT enter neither into whether the time base runs nor into whether an Announce is due. -/
theorem timeRuns_rtcTick (s : State) : timeRuns (rtcTick s.quiet) = timeRuns s := by
  have en : (rtcTick s.quiet).pwr.en = s.pwr.en := by
    simp only [rtcTick, updPwr_pwr]
    split <;> rfl
  unfold timeRuns sysOn
  rw [en]
  rfl

/-- What a nanosecond without a command comes to. -/
theorem idleTick_of_within {s : State} (h : s.pwr.rtcNs < 999999999 ∨ timeRuns s = false) :
    idleTick s = if timeRuns s then [0, 1, 2, 3].foldl (fun s c => coreTick c s) (timeTick (rtcTick s.quiet)) else rtcTick s.quiet := by
  have unfolds : idleTick s =
      if timeRuns (rtcTick s.quiet) then [0, 1, 2, 3].foldl (fun s c => coreTick c s) (timeTick (secondPassed (rtcTick s.quiet)))
      else rtcTick s.quiet := rfl
  rw [unfolds, timeRuns_rtcTick]
  rcases h with within | stopped
  · rw [secondPassed_rtcTick (s := s.quiet) within]
  · simp [stopped]

theorem idleTick_partsOnly {s : State} (h : s.pwr.rtcNs < 999999999 ∨ timeRuns s = false) : TickPartsOnly s.quiet (idleTick s) := by
  rw [idleTick_of_within h]
  split
  · exact ((TickPartsOnly.rtcTick _).trans (.timeTick _)).trans (.foldl (fun s c => .coreTick c s) _ _)
  · exact .rtcTick _

theorem idleTick_net {s : State} (h : s.pwr.rtcNs < 999999999 ∨ timeRuns s = false)
    (none' : announceDue s (tickTime s.time).ft = false) : (idleTick s).net = s.net := by
  have due : announceDue (rtcTick s.quiet) (tickTime (rtcTick s.quiet).time).ft = false := none'
  rw [idleTick_of_within h]
  split
  · simp only [List.foldl_cons, List.foldl_nil, coreTick_net]
    exact timeTick_net due
  · rfl

/-- Settles O8. -/
theorem idleFrame : Obligations.IdleFrame := by
  intro s t waits within e
  rw [step_of_nil waits] at e
  cases e
  have net := idleTick_net (s := s) within
  have parts := idleTick_partsOnly within
  generalize idleTick s = t at net parts
  obtain ⟨_, _, _, _, _, _, rfl⟩ := parts
  refine ⟨rfl, rfl, rfl, rfl, waits, fun p time cores pwr due => ?_⟩
  cases p
  case time => exact absurd rfl time
  case cores => exact absurd rfl cores
  case pwr => exact absurd rfl pwr
  case net => exact net (due rfl)
  case dma => exact ⟨rfl, rfl⟩
  all_goals rfl

/-! ### Register fields and memory (R5, R8) -/

/-- Settles O9: a field lies in another register, or in the same one beside the field set. -/
theorem fieldReadAfterWrite : Obligations.FieldReadAfterWrite := by
  intro s p f k v h fits
  refine ⟨get_set_same h p fits v k, fun q g j apart => ?_⟩
  by_cases same : regKey q (g.off + g.stride * j) = regKey p (f.off + f.stride * k)
  · have reads (t : State) : t.get q g j = bitsOf (t.reg p (f.off + f.stride * k)) g.lsb g.w := by
      rw [State.get, State.reg, same, State.reg]
    rw [reads, reads, State.set, reg_setReg_same h]
    exact bitsOf_setBits_disjoint _ _ _ _ _ _ fits (apart.resolve_left (not_not_intro same))
  · exact get_set_ne s same v

theorem memGet_memPutAll_at {m : List Host.Cell} (a : Nat) (l : List Byte) (h : Memory.wf m = true) {i : Nat} (hi : i < l.length) :
    memGet (memPutAll m a l) (a + i) = l.getD i 0 := by
  have reads : (memBytes (memPutAll m a l) a l.length).getD i 0 = memGet (memPutAll m a l) (a + i) := by
    simp [memBytes, hi]
  rw [← reads, memBytes_memPutAll a l h]

/-- Settles O10. -/
theorem memoryReadAfterWrite : Obligations.MemoryReadAfterWrite :=
  fun m a l h => ⟨memory_wf_memPutAll a l h, fun _ hi => memGet_memPutAll_at a l h hi, fun j hj => memGet_memPutAll_out m a l j hj⟩

end Sys2Proof.Machine
end

section
/-!
SUPPORT. A core that runs and was asked no wake stays so through the events, the presentation, the placements of the scheduler and the masks
that follow its wake (R435, R473 to R488).
-/
namespace Sys2Proof.Machine
open Sys2Proof

/-! ### What leaves the cores as they are -/

theorem ite_cores {c : Prop} [Decidable c] {s t u : State} (ht : t.cores = s.cores) (hu : u.cores = s.cores) :
    (if c then t else u).cores = s.cores :=
  ite_induct (P := fun t => t.cores = s.cores) ht hu

@[simp] theorem statMax_cores (s : State) (p : Nat) (f : Fld) (v k : Nat) : (s.statMax p f v k).cores = s.cores := by
  unfold State.statMax
  exact ite_cores rfl rfl

@[simp] theorem setSrc_cores (s : State) (x : Src) (lsb w v : Nat) : (setSrc s x lsb w v).cores = s.cores := by
  unfold setSrc
  exact setReg_cores ..

@[simp] theorem rawEvt_cores (s : State) (p bit : Nat) : (rawEvt s p bit).cores = s.cores := by
  unfold rawEvt
  exact setReg_cores ..

@[simp] theorem pend_cores (s : State) (x : Src) : (pend s x).1.cores = s.cores := by
  have merged : (match x with | .shared _ => s.bump pgEVC F.EVC_st_MERGED | .priv _ _ => s).cores = s.cores := by
    cases x
    · exact bump_cores ..
    · rfl
  unfold Machine.pend
  dsimp only
  split
  · split
    · exact merged
    · exact (setSrc_cores ..).trans merged
  · exact setSrc_cores ..

theorem enqueue_cores {s t : State} {k : Nat} (h : enqueue s k = some t) : t.cores = s.cores := by
  unfold enqueue at h
  split at h
  · cases h
    exact statMax_cores ..
  · cases h

@[simp] theorem sourcePost_cores (s : State) (n : Nat) : (sourcePost s n).cores = s.cores := by
  unfold sourcePost
  dsimp only
  split
  · split
    · rfl
    · split
      · next posted => exact (bump_cores ..).trans (enqueue_cores posted)
      · exact (rawEvt_cores ..).trans (setSrc_cores ..)
  · rfl

@[simp] theorem arriveOnce_cores (n : Nat) (s : State) : (arriveOnce n s).cores = s.cores := by
  unfold arriveOnce
  dsimp only
  have ext : (if 228 ≤ n ∧ n ≤ 235 then s.bump pgEVC F.EVC_st_EXTARR else s).cores = s.cores := ite_cores (bump_cores ..) rfl
  have posted := (sourcePost_cores _ n).trans ((pend_cores _ (.shared n)).trans ((bump_cores _ pgEVC F.EVC_st_ARRIVALS 1 0).trans ext))
  exact ite_cores ((rawEvt_cores ..).trans posted) posted

theorem rising_cores {f : State → State} (hf : ∀ s, (f s).cores = s.cores) (n : Nat) (s : State) : (rising n f s).cores = s.cores :=
  ite_cores ((arriveOnce_cores ..).trans (hf s)) (hf s)

@[simp] theorem setTask_cores (s : State) (t : Nat) (v : Task) : (s.setTask t v).cores = s.cores := rfl

@[simp] theorem updArb_cores (s : State) (i : Nat) (f : Arb → Arb) : (updArb s i f).cores = s.cores := rfl

@[simp] theorem updArbPort_cores (s : State) (i p : Nat) (f : ArbPort → ArbPort) : (updArbPort s i p f).cores = s.cores := rfl

@[simp] theorem arbAdmit_cores (i n : Nat) (s : State) : (arbAdmit i n s).cores = s.cores := by
  induction n generalizing s with
  | zero => rfl
  | succ n ih =>
    unfold arbAdmit
    split
    · rfl
    · simp [ih, arbEnqueue]

/-! ### A core that runs -/

/-- Core `c` runs, and no wake was asked of it. -/
structure CoreRuns (c : Nat) (s : State) : Prop where
  mode : (s.core c).mode = .run
  asked : (s.core c).wakeAsked = false

namespace CoreRuns
variable {c : Nat} {s t : State}

theorem of_cores (h : CoreRuns c s) (e : t.cores = s.cores) : CoreRuns c t := by
  have same : t.core c = s.core c := by rw [State.core, e, State.core]
  exact ⟨by rw [same, h.mode], by rw [same, h.asked]⟩

theorem updCore_ne (h : CoreRuns c s) {d : Nat} (hd : d ≠ c) (f : Core → Core) : CoreRuns c (s.updCore d f) := by
  have same : (s.updCore d f).core c = s.core c := getD_updAt_ne _ hd f _
  exact ⟨by rw [same, h.mode], by rw [same, h.asked]⟩

/-- A change of a core that leaves it running, if it runs. -/
theorem updCore (h : CoreRuns c s) (d : Nat) {f : Core → Core} (mode : ∀ k, k.mode = .run → (f k).mode = .run)
    (asked : ∀ k, (f k).wakeAsked = k.wakeAsked) : CoreRuns c (s.updCore d f) := by
  by_cases hd : d = c
  · subst hd
    by_cases inside : d < s.cores.length
    · have changed : (s.updCore d f).core d = f (s.core d) := getD_updAt_same inside f _
      exact ⟨by rw [changed, mode _ h.mode], by rw [changed, asked, h.asked]⟩
    · exact h.of_cores (List.modify_eq_self (Nat.le_of_not_lt inside))
  · exact h.updCore_ne hd f

theorem bump (h : CoreRuns c s) (p : Nat) (f : Fld) (n k : Nat) : CoreRuns c (s.bump p f n k) := h.of_cores (bump_cores ..)

/-! ### Presentation and events (R476 to R483) -/

theorem present (h : CoreRuns c s) (d : Nat) : CoreRuns c (present d s) := by
  unfold Machine.present
  extract_lets k u k'
  have resumed : CoreRuns c u := ite_induct (h.updCore d (fun _ _ => rfl) fun _ => rfl) h
  clear_value u
  split
  · exact resumed
  · split
    · split
      · exact resumed
      · exact resumed.updCore d (fun _ hk => hk) fun _ => rfl
    · split
      · exact resumed
      · refine ite_induct (bump ?_ ..) resumed
        exact resumed.updCore d (fun _ hk => hk) fun _ => rfl

/-- Only of a core in SLEEP is a wake asked. -/
theorem presentRound (h : CoreRuns c s) : CoreRuns c (presentRound s) := by
  refine foldl_induct (fun t d ht => ?_) _ h
  dsimp only
  split
  · next sleeps =>
    have other : d ≠ c := fun e => by
      rw [e, ht.mode] at sleeps
      exact absurd sleeps.1 (by decide)
    exact ite_induct ((ht.updCore_ne other _).bump ..) ht
  · exact ht.present d

theorem presentAll (h : CoreRuns c s) : CoreRuns c (presentAll s) := foldl_induct (fun _ _ ht => ht.presentRound) _ h

theorem arrive (h : CoreRuns c s) (n : Nat) : CoreRuns c (arrive n s) :=
  presentAll (h.of_cores (rising_cores (rising_cores (rising_cores (arriveOnce_cores n) _) _) _ s))

theorem arrivePriv (h : CoreRuns c s) (d k : Nat) : CoreRuns c (arrivePriv d k s) :=
  presentAll (h.of_cores (rising_cores (fun u => ite_cores ((rawEvt_cores ..).trans (pend_cores u _)) (pend_cores u _)) _ s))

theorem evt (h : CoreRuns c s) (p bit : Nat) : CoreRuns c (s.evt p bit) := by
  have raised : CoreRuns c (rawEvt s p bit) := h.of_cores (rawEvt_cores ..)
  unfold State.evt withEvents
  dsimp only
  exact ite_induct (raised.arrive _) raised

/-! ### Placements (R486 to R488) -/

theorem undraw (h : CoreRuns c s) (d : Nat) : CoreRuns c (undraw s d) := by
  have emptied : CoreRuns c (s.updCore d fun k => { k with drawer := none }) := h.updCore d (fun _ hk => hk) fun _ => rfl
  unfold Machine.undraw
  dsimp only
  split
  · exact h
  · exact emptied.of_cores rfl

theorem placeOnce (h : CoreRuns c s) (e : placeOnce s = some t) : CoreRuns c t := by
  unfold Machine.placeOnce at e
  obtain ⟨⟨k, d⟩, -, rfl⟩ := Option.map_eq_some_iff.1 e
  dsimp only
  refine updCore ?_ d (fun _ hk => hk) fun _ => rfl
  exact (h.undraw d).of_cores rfl

theorem placeN (h : CoreRuns c s) (n : Nat) : CoreRuns c (placeN n s) := by
  induction n generalizing s with
  | zero => exact h
  | succ n ih =>
    unfold Machine.placeN
    split
    · exact h
    · next placed => exact ih (h.placeOnce placed)

theorem scheduling (h : CoreRuns c s) : CoreRuns c (scheduling id s) :=
  foldl_induct (fun _ d ht => ite_induct (ht.arrivePriv d 1) ht) _ (h.placeN 136)

/-! ### Masks (R435) -/

theorem maskPort (h : CoreRuns c s) (i p : Nat) (on : Bool) : CoreRuns c (maskPort i p on s) := by
  unfold Machine.maskPort
  extract_lets was u drop keep v w
  have masked : CoreRuns c w := h.of_cores (by simp [w, v, u])
  clear_value w
  split
  · exact h.of_cores (by simp [u])
  · have dropped : CoreRuns c (if drop.isEmpty then w else (w.bump (pgARB i) F.ARB_st_MASKDROP drop.length).evt (pgARB i) 2) :=
      ite_induct masked ((masked.bump ..).evt ..)
    split
    · exact dropped.of_cores (arbAdmit_cores ..)
    · exact dropped

theorem coreMask (h : CoreRuns c s) (d : Nat) : CoreRuns c (coreMask d s) := (h.maskPort ..).maskPort ..

end CoreRuns

/-! ### The wake (R473, R483) -/

/-- A core asked to wake is one of those that the device has. -/
theorem core_lt_of_wakeAsked {c : Nat} {s : State} (h : (s.core c).wakeAsked = true) : c < s.cores.length := by
  by_contra outside
  rw [State.core, List.getD_eq_default _ _ (Nat.le_of_not_lt outside)] at h
  exact absurd h (by decide)

theorem coreWake_runs {c : Nat} {s : State} (asked : (s.core c).wakeAsked = true) (sleeps : (s.core c).mode = .sleep)
    (stays : (s.core c).haltOnWake = false) : CoreRuns c (coreWake c s) := by
  have woken : CoreRuns c (s.updCore c fun k => { k with mode := .run, wakeAsked := false, haltOnWake := false }) := by
    have changed := getD_updAt_same (core_lt_of_wakeAsked asked)
      (fun k : Core => { k with mode := .run, wakeAsked := false, haltOnWake := false }) {}
    exact ⟨congrArg Core.mode changed, congrArg Core.wakeAsked changed⟩
  simp only [coreWake, sleeps, stays, ne_eq, not_true_eq_false, if_false, Bool.false_eq_true]
  exact (woken.evt ..).scheduling.presentAll

/-! ### The commands -/

theorem exec_coreWake (core : Fin 4) (s : State) : exec (.coreWake core) s =
    .next (if (s.core core.val).wakeAsked then coreMask core.val (coreWake core.val s.quiet) else s.quiet) := rfl

theorem hdrWrite_coreMode (a : Nat) (core : Fin 4) (v : Word) (s : State) : hdrWrite a (pgCPU core.val) 0x008 v s =
    if bitsOf v 0 2 = 3 then s.fault (pgCPU core.val) 0x01 0x008 a
    else refresh (pgCPU core.val) (coreMask core.val (coreMode core.val (s.set (pgCPU core.val) F.HDR_REQ_MODE (bitsOf v 0 2)))) := by
  have writable : ∀ core : Fin 4, fixedRun (pgCPU core.val) = false := by decide
  simp [hdrWrite, writable, pageType_cpu]

theorem exec_cpuModeWrite (a : BitVec 4) (core : Fin 4) (mode : BitVec 2) (s : State) : exec (.cpuModeWrite a core mode) s =
    .next (answered s.quiet (hdrWrite a.toNat (pgCPU core.val) 0x008 (mode.setWidth 32) s.quiet)) := by
  have page : pgCPU core.val < 4096 := by have := core.isLt; simp only [pgCPU]; omega
  rw [← regWrite_header _ _ (by decide), ← busWrite_regKey (assigned_cpu core) page (by decide) (by decide)]
  rfl

theorem bitsOf_mode (mode : BitVec 2) : bitsOf (mode.setWidth 32) 0 2 = mode.toNat := by
  have := mode.isLt
  simp only [bitsOf, BitVec.toNat_setWidth]
  omega

/-- Settles O47: what follows the wake of a core leaves it running. -/
theorem coreModes : Obligations.CoreModes := by
  refine ⟨?wakes, ?runs, ?notAsked, ?reserved, ?mode⟩
  case wakes =>
    intro core s asked
    rw [exec_coreWake, if_pos asked]
  case runs =>
    intro core s asked sleeps stays
    have runs := (coreWake_runs (s := s.quiet) asked sleeps stays).coreMask core.val
    exact ⟨_, by rw [exec_coreWake, if_pos asked], runs.mode, runs.asked⟩
  case notAsked =>
    intro core s asked
    rw [exec_coreWake, if_neg (by simp [asked])]
  case reserved =>
    intro a core s
    rw [exec_cpuModeWrite, hdrWrite_coreMode, if_pos (by decide), answered_fault]
  case mode =>
    intro a core mode s other
    have defined : bitsOf (mode.setWidth 32) 0 2 ≠ 3 := by
      rw [bitsOf_mode]
      exact fun e => other (BitVec.eq_of_toNat_eq e)
    rw [exec_cpuModeWrite, hdrWrite_coreMode, if_neg defined, bitsOf_mode]

end Sys2Proof.Machine
end

section
/-!
SUPPORT. The test port: what its instructions do to the port, and that balls driven or let go change nothing but what has gone out (R575 to
R577).
-/
namespace Sys2Proof.Machine
open Sys2Proof

/-! ### Balls driven and let go -/

/-- Between two states nothing has changed but what has gone out. -/
def OutOnly (s t : State) : Prop := ∃ o, t = { s with out := o }

namespace OutOnly
variable {s t u : State}

theorem refl (s : State) : OutOnly s s := ⟨_, rfl⟩

theorem trans (h : OutOnly s t) (h' : OutOnly t u) : OutOnly s u := by
  obtain ⟨_, rfl⟩ := h
  obtain ⟨_, rfl⟩ := h'
  exact ⟨_, rfl⟩

theorem emit (s : State) (o : Out) : OutOnly s (s.emit o) := ⟨_, rfl⟩

theorem ite {c : Prop} [Decidable c] (ht : OutOnly s t) (hu : OutOnly s u) : OutOnly s (if c then t else u) := ite_induct ht hu

theorem foldl {α : Type} {f : State → α → State} (hf : ∀ s x, OutOnly s (f s x)) (l : List α) (s : State) : OutOnly s (l.foldl f s) :=
  foldl_induct (fun _ x h => h.trans (hf _ x)) l (refl s)

theorem driveBall (b : Nat) (out oe : Bool) (s : State) : OutOnly s (driveBall b out oe s) :=
  ite (refl s) (ite (emit ..) (emit ..))

theorem driveBoundary (s : State) : OutOnly s (driveBoundary s) := foldl (fun _ _ => driveBall ..) _ s

theorem floatBalls (s : State) : OutOnly s (floatBalls s) := foldl (fun _ _ => driveBall ..) _ s

theorem ballsBack (s : State) : OutOnly s (ballsBack s) := by
  unfold Machine.ballsBack
  extract_lets pins attn dir
  have pinsBack : OutOnly s pins := by
    refine foldl (fun t b => ?_) _ s
    split <;> exact emit ..
  have dirBack : OutOnly s dir := (pinsBack.trans (emit ..)).trans (ite (emit ..) (refl _))
  exact dirBack.trans (ite (emit ..) (emit ..))

end OutOnly

/-! ### Instructions loaded and registers shifted (R575) -/

theorem setIr_outOnly (code : Nat) (s : State) : OutOnly { s with tap := { s.tap with ir := code } } (setIr code s) := by
  unfold setIr
  exact .ite (.ballsBack _) (.refl _)

theorem loadIr_outOnly (code : Nat) (s : State) : OutOnly { s with tap := { s.tap with ir := code } } (loadIr code s) := by
  obtain ⟨_, e⟩ := setIr_outOnly code (s.emit (.tdo [true, false, s.tap.refused, false, false, false]))
  exact ⟨_, e⟩

@[simp] theorem loadIr_tap (code : Nat) (s : State) : (loadIr code s).tap = { s.tap with ir := code } := by
  obtain ⟨_, e⟩ := loadIr_outOnly code s
  rw [e]

@[simp] theorem loadIr_regs (code : Nat) (s : State) : (loadIr code s).regs = s.regs := by
  obtain ⟨_, e⟩ := loadIr_outOnly code s
  rw [e]

@[simp] theorem loadIr_mem (code : Nat) (s : State) : (loadIr code s).mem = s.mem := by
  obtain ⟨_, e⟩ := loadIr_outOnly code s
  rw [e]

@[simp] theorem loadIr_outs (code : Nat) (s : State) : (loadIr code s).outs = s.outs := by
  obtain ⟨_, e⟩ := loadIr_outOnly code s
  rw [e]

/-- Where no boundary instruction held the balls, only what the instruction register captured goes out. -/
theorem loadIr_out {s : State} (code : Nat) (h : holdsBalls s.tap.ir = false) :
    (loadIr code s).out = s.out ++ [.tdo [true, false, s.tap.refused, false, false, false]] := by
  have lets : holdsBalls (s.emit (.tdo [true, false, s.tap.refused, false, false, false])).tap.ir = false := h
  simp only [loadIr, setIr, lets, Bool.false_eq_true, false_and, if_false]
  rfl

@[simp] theorem bypassScan_tap (shift : List Bool) (s : State) : (bypassScan shift s).tap = s.tap := rfl

@[simp] theorem bypassScan_outs (shift : List Bool) (s : State) : (bypassScan shift s).outs = s.outs := rfl

theorem bypassScan_out (shift : List Bool) (s : State) :
    (bypassScan shift s).out = s.out ++ [.tdo ((false :: shift).take shift.length)] := rfl

theorem captureCells_of_outs (sensed : List Bool) {s t : State} (h : t.outs = s.outs) : captureCells sensed t = captureCells sensed s := by
  simp only [captureCells, h]

theorem boundaryScan_tap (sensed shift : List Bool) (s : State) :
    (boundaryScan sensed shift s).tap = { s.tap with boundary := (captureCells sensed s ++ shift).drop shift.length } := rfl

/-! ### Boundary instructions (R576) -/

theorem boundaryIr_of_live {s : State} (code : Nat) (h : anyLive s = true) :
    boundaryIr code s = (updTap (loadIr 0x3F s) fun t => { t with refused := true }, false) := if_pos h

theorem boundaryIr_of_not_live {s : State} (code : Nat) (h : anyLive s = false) :
    boundaryIr code s = (updTap (loadIr code s) fun t => { t with refused := false }, true) := if_neg (by simp [h])

/-- The state in which BYPASS has taken the place of a boundary instruction. -/
def refusedIr (s : State) : State := updTap (loadIr 0x3F s) fun t => { t with refused := true }

theorem refusedIr_tap (s : State) : (refusedIr s).tap = { s.tap with ir := 0x3F, refused := true } := by
  simp only [refusedIr, updTap, loadIr_tap]

theorem refusedIr_outs (s : State) : (refusedIr s).outs = s.outs := loadIr_outs ..

theorem refusedIr_out {s : State} (h : holdsBalls s.tap.ir = false) :
    (refusedIr s).out = s.out ++ [.tdo [true, false, s.tap.refused, false, false, false]] := loadIr_out _ h

/-- The state in which a boundary instruction is loaded. -/
def takenIr (code : Nat) (s : State) : State := updTap (loadIr code s) fun t => { t with refused := false }

theorem takenIr_tap (code : Nat) (s : State) : (takenIr code s).tap = { s.tap with ir := code, refused := false } := by
  simp only [takenIr, updTap, loadIr_tap]

theorem takenIr_outs (code : Nat) (s : State) : (takenIr code s).outs = s.outs := loadIr_outs ..

section Live
variable {s : State}

theorem extest_of_live (sensed shift : List Bool) (h : anyLive s = true) :
    extest sensed (some shift) s = bypassScan shift (refusedIr s) := by
  rw [extest, boundaryIr_of_live _ h]
  rfl

theorem clampBalls_of_live (shift : List Bool) (h : anyLive s = true) : clampBalls shift s = bypassScan shift (refusedIr s) := by
  rw [clampBalls, boundaryIr_of_live _ h]
  rfl

theorem highz_of_live (shift : List Bool) (h : anyLive s = true) : highz shift s = bypassScan shift (refusedIr s) := by
  rw [highz, boundaryIr_of_live _ h]
  rfl

theorem extest_of_not_live (sensed shift : List Bool) (h : anyLive s = false) :
    extest sensed (some shift) s = driveBoundary (boundaryScan sensed shift (driveBoundary (takenIr 0 s))) := by
  rw [extest, boundaryIr_of_not_live _ h]
  rfl

theorem clampBalls_of_not_live (shift : List Bool) (h : anyLive s = false) :
    clampBalls shift s = bypassScan shift (driveBoundary (takenIr 4 s)) := by
  rw [clampBalls, boundaryIr_of_not_live _ h]
  rfl

theorem highz_of_not_live (shift : List Bool) (h : anyLive s = false) :
    highz shift s = bypassScan shift (floatBalls (takenIr 5 s)) := by
  rw [highz, boundaryIr_of_not_live _ h]
  rfl

end Live

@[simp] theorem driveBoundary_tap (s : State) : (driveBoundary s).tap = s.tap := by
  obtain ⟨_, e⟩ := OutOnly.driveBoundary s
  rw [e]

@[simp] theorem driveBoundary_outs (s : State) : (driveBoundary s).outs = s.outs := by
  obtain ⟨_, e⟩ := OutOnly.driveBoundary s
  rw [e]

@[simp] theorem floatBalls_tap (s : State) : (floatBalls s).tap = s.tap := by
  obtain ⟨_, e⟩ := OutOnly.floatBalls s
  rw [e]

theorem extest_tap {s : State} (sensed shift : List Bool) (h : anyLive s = false) : (extest sensed (some shift) s).tap =
    { s.tap with ir := 0, refused := false, boundary := (captureCells sensed s ++ shift).drop shift.length } := by
  have outs : (driveBoundary (takenIr 0 s)).outs = s.outs := (driveBoundary_outs _).trans (takenIr_outs ..)
  rw [extest_of_not_live _ _ h, driveBoundary_tap, boundaryScan_tap, driveBoundary_tap, takenIr_tap, captureCells_of_outs _ outs]

/-! ### Debug access (R577) -/

@[simp] theorem dbgDone_status (n a : Nat) (v : Option Word) (s : State) : (dbgDone n a v s).tap.status = n := by
  cases v <;> rfl

@[simp] theorem dbgDone_addr (n a : Nat) (v : Option Word) (s : State) : (dbgDone n a v s).tap.addr = a := by
  cases v <;> rfl

@[simp] theorem dbgDone_data (n a : Nat) (v : Word) (s : State) : (dbgDone n a (some v) s).tap.data = v := rfl

@[simp] theorem dbgDone_regs (n a : Nat) (v : Option Word) (s : State) : (dbgDone n a v s).regs = s.regs := by
  cases v <;> rfl

@[simp] theorem dbgDone_mem (n a : Nat) (v : Option Word) (s : State) : (dbgDone n a v s).mem = s.mem := by
  cases v <;> rfl

/-- The state with DBGACC selected. -/
def dbgSelected (s : State) : State := if s.tap.ir = 0x20 then s else loadIr 0x20 s

theorem dbgSelected_status (s : State) : (dbgSelected s).tap.status = s.tap.status := by
  unfold dbgSelected
  split
  · rfl
  · rw [loadIr_tap]

theorem dbgSelected_regs (s : State) : (dbgSelected s).regs = s.regs := ite_induct (P := fun t => t.regs = s.regs) rfl (loadIr_regs ..)

theorem dbgSelected_mem (s : State) : (dbgSelected s).mem = s.mem := ite_induct (P := fun t => t.mem = s.mem) rfl (loadIr_mem ..)

theorem dbgSelected_withheld (s : State) : withheld (dbgSelected s) = withheld s := by
  unfold dbgSelected
  split
  · rfl
  · obtain ⟨_, e⟩ := loadIr_outOnly 0x20 s
    rw [e]
    rfl

section Access
variable {a : Nat} {s : State}

theorem dbgRead_misaligned (on : sysOn s = true) (free : s.tap.status ≠ 2) (h : a % 4 ≠ 0) : dbgRead a s = dbgDone 1 a none (dbgSelected s) := by
  have idle : (dbgSelected s).tap.status ≠ 2 := dbgSelected_status s ▸ free
  simp only [dbgSelected] at idle
  simp [dbgRead, dbgSelected, on, idle, h]

theorem dbgWrite_misaligned (v : Word) (on : sysOn s = true) (free : s.tap.status ≠ 2) (h : a % 4 ≠ 0) :
    dbgWrite a v s = dbgDone 1 a none (dbgSelected s) := by
  have idle : (dbgSelected s).tap.status ≠ 2 := dbgSelected_status s ▸ free
  simp only [dbgSelected] at idle
  simp [dbgWrite, dbgSelected, on, idle, h]

variable (on : sysOn s = true) (free : s.tap.status ≠ 2) (aligned : a % 4 = 0) (page : region a = .page) (ok : pageAccessOk a 4 = true)
include on free aligned page ok

theorem dbgRead_page : dbgRead a s = dbgDone 0 a (some (regRead 7 (pageIndexAt a) (a % 4096) (dbgSelected s)).2)
    (regRead 7 (pageIndexAt a) (a % 4096) (dbgSelected s)).1 := by
  have idle : (dbgSelected s).tap.status ≠ 2 := dbgSelected_status s ▸ free
  simp only [dbgSelected] at idle
  simp [dbgRead, dbgSelected, on, idle, aligned, dbgPage, page, ok]

theorem dbgWrite_page (v : Word) : dbgWrite a v s =
    dbgDone (if withheld s < withheld (regWrite 7 (pageIndexAt a) (a % 4096) v (dbgSelected s)) then 2 else 0) a none
      (regWrite 7 (pageIndexAt a) (a % 4096) v (dbgSelected s)) := by
  have idle : (dbgSelected s).tap.status ≠ 2 := dbgSelected_status s ▸ free
  rw [← dbgSelected_withheld s]
  simp only [dbgSelected] at idle
  simp [dbgWrite, dbgSelected, on, idle, aligned, dbgPage, page, ok]
  rfl

end Access

/-! ### The attention line (R551) -/

theorem exec_attnIn (low : Bool) (s : State) : exec (.attnIn low) s =
    .next (if attnOut s ∧ low = true then s.quiet else attnIn low s.quiet) := rfl

theorem attnIn_low {s : State} (h : sysDown s = false) :
    attnIn true s = wake 8 ({ s with svc := { s.svc with lineLow := true } }.evt pgSVC 3) := by
  have up : sysDown { s with svc := { s.svc with lineLow := true } } ≠ true := Bool.eq_false_iff.1 h
  simp only [attnIn, if_true]
  rw [if_neg up]

theorem tapReset_eq (s : State) : tapReset s = if holdsBalls s.tap.ir = true then ballsBack { s with tap := { s.tap with ir := 2 } }
    else { s with tap := { s.tap with ir := 2 } } := by
  simp only [tapReset, setIr, show holdsBalls 2 = false from rfl, Bool.not_false, and_true]
  rfl

section Commands
variable (s : State)

theorem exec_bypass (code : BitVec 6) (shift : List Bool) (h : code.toNat = 3 ∨ (6 ≤ code.toNat ∧ code.toNat ≠ 32)) :
    exec (.bypass code shift) s = .next (bypassScan shift (loadIr code.toNat s.quiet)) := by
  have plain : ¬ (code.toNat = 0 ∨ code.toNat = 1 ∨ code.toNat = 2 ∨ code.toNat = 4 ∨ code.toNat = 5 ∨ code.toNat = 32) := by omega
  exact congrArg Host.Outcome.next (if_neg plain)

theorem exec_idcode : exec .idcode s = .next ((loadIr 2 s.quiet).emit (.tdo (bitList 32 idCode))) := rfl

theorem exec_samplePreload (sensed shift : List Bool) :
    exec (.samplePreload sensed shift) s = .next (boundaryScan sensed shift (loadIr 1 s.quiet)) := rfl

theorem exec_extest (sensed : List Bool) (shift : Option (List Bool)) :
    exec (.extest sensed shift) s = .next (extest sensed shift s.quiet) := rfl

theorem exec_clamp (shift : List Bool) : exec (.clamp shift) s = .next (clampBalls shift s.quiet) := rfl

theorem exec_highz (shift : List Bool) : exec (.highz shift) s = .next (highz shift s.quiet) := rfl

theorem exec_dbgaccRead (a : BitVec 40) : exec (.dbgaccRead a) s = .next (dbgRead a.toNat s.quiet) := rfl

theorem exec_dbgaccWrite (a : BitVec 40) (v : Word) : exec (.dbgaccWrite a v) s = .next (dbgWrite a.toNat v s.quiet) := rfl

end Commands

/-- Settles O58. -/
theorem attentionAndTap : Obligations.AttentionAndTap := by
  refine ⟨?ours, ?seen, ?released, ?reset, ?idcode, ?bypass, ?sample⟩
  case ours =>
    intro s drives
    rw [exec_attnIn, if_pos ⟨drives, rfl⟩]
  case seen =>
    intro s drives up
    have drives' : ¬ (attnOut s = true ∧ true = true) := by simp [drives]
    rw [exec_attnIn, if_neg drives', attnIn_low (s := s.quiet) up]
    rfl
  case released =>
    intro s
    rw [exec_attnIn, if_neg (by simp)]
    rfl
  case reset => exact fun s => congrArg Host.Outcome.next (tapReset_eq s.quiet)
  case idcode =>
    intro s
    refine ⟨_, exec_idcode s, loadIr_tap 2 s.quiet, fun h => ?_⟩
    exact congrArg (· ++ [.tdo (bitList 32 idCode)]) (loadIr_out (s := s.quiet) 2 h)
  case bypass =>
    intro code shift s listed
    refine ⟨_, exec_bypass s code shift listed, loadIr_tap code.toNat s.quiet, fun h => ?_⟩
    rw [bypassScan_out, loadIr_out (s := s.quiet) _ h]
    rfl
  case sample =>
    intro sensed shift s
    refine ⟨_, exec_samplePreload s sensed shift, ?_, ?_, loadIr_regs 1 s.quiet⟩
    · rw [boundaryScan_tap, loadIr_tap]
    · rw [boundaryScan_tap, captureCells_of_outs sensed (loadIr_outs 1 s.quiet)]
      rfl

/-- Settles O59. -/
theorem boundaryAndDebug : Obligations.BoundaryAndDebug := by
  refine ⟨?live, ?loaded, ?read, ?misaligned, ?write, ?off, fun _ => rfl⟩
  case live =>
    intro sensed shift s live
    rw [exec_extest, exec_clamp, exec_highz, extest_of_live (s := s.quiet) sensed shift live,
      clampBalls_of_live (s := s.quiet) shift live, highz_of_live (s := s.quiet) shift live]
    have ir : (bypassScan shift (refusedIr s.quiet)).tap.ir = 0x3F := by rw [bypassScan_tap, refusedIr_tap]
    have refused : (bypassScan shift (refusedIr s.quiet)).tap.refused = true := by rw [bypassScan_tap, refusedIr_tap]
    have outs : (bypassScan shift (refusedIr s.quiet)).outs = s.outs := refusedIr_outs s.quiet
    refine ⟨⟨_, rfl, ir, refused, ?_, fun h => ?_⟩, ⟨_, rfl, ir, refused, outs⟩, _, rfl, ir, refused, outs⟩
    · rw [bypassScan_tap, refusedIr_tap]
      rfl
    · rw [bypassScan_out, refusedIr_out (s := s.quiet) h]
      rfl
  case loaded =>
    intro sensed shift s idle
    refine ⟨⟨_, exec_extest s sensed _, ?_⟩, ⟨_, exec_clamp s shift, ?_⟩, _, exec_highz s shift, ?_⟩
    · rw [extest_tap (s := s.quiet) sensed shift idle]
      exact ⟨rfl, rfl, rfl⟩
    · rw [clampBalls_of_not_live (s := s.quiet) shift idle, bypassScan_tap, driveBoundary_tap, takenIr_tap]
      exact ⟨rfl, rfl⟩
    · rw [highz_of_not_live (s := s.quiet) shift idle, bypassScan_tap, floatBalls_tap, takenIr_tap]
      exact ⟨rfl, rfl⟩
  case read =>
    intro a s on free aligned page ok
    refine ⟨_, exec_dbgaccRead s a, ?_⟩
    rw [dbgRead_page (s := s.quiet) on free aligned page ok]
    exact ⟨rfl, rfl, rfl⟩
  case misaligned =>
    intro a v s on free odd
    refine ⟨⟨_, exec_dbgaccRead s a, ?_⟩, _, exec_dbgaccWrite s a v, ?_⟩
    · rw [dbgRead_misaligned (s := s.quiet) on free odd]
      exact ⟨dbgDone_status .., dbgSelected_regs s.quiet⟩
    · rw [dbgWrite_misaligned (s := s.quiet) v on free odd]
      exact ⟨dbgDone_status .., dbgSelected_regs s.quiet, dbgSelected_mem s.quiet⟩
  case write =>
    intro a v s on free aligned page ok
    refine ⟨_, exec_dbgaccWrite s a v, ?_⟩
    rw [dbgWrite_page (s := s.quiet) on free aligned page ok]
    exact ⟨dbgDone_status .., dbgDone_regs ..⟩
  case off =>
    intro a v s off
    have off' : (!sysOn s.quiet) = true := (congrArg (!·) off : _ = !false)
    exact ⟨congrArg Host.Outcome.next (if_pos off'), congrArg Host.Outcome.next (if_pos off')⟩

end Sys2Proof.Machine
end

section
/-!
SUPPORT. The controls of BOOT and SVC that run beside a start (R533 to R536, R540, R551, R556).
-/
namespace Sys2Proof.Machine
open Sys2Proof

/-! ### The state after a control -/

@[simp] theorem answered_boot (s t : State) : (answered s t).boot = t.boot := by unfold answered; split <;> rfl

@[simp] theorem answered_svc (s t : State) : (answered s t).svc = t.svc := by unfold answered; split <;> rfl

@[simp] theorem answered_mem (s t : State) : (answered s t).mem = t.mem := by unfold answered; split <;> rfl

theorem bootStatus_reg_ne (lsb w v : Nat) (s : State) {p off : Nat} (h : regKey p off ≠ regKey pgBOOT 0x040) :
    (bootStatus lsb w v s).reg p off = s.reg p off := reg_setReg_ne _ _ _ _ _ _ h

theorem bootStatus_bits {s : State} (h : StoresOk s) {lsb w : Nat} (fits : lsb + w ≤ 32) (v : Nat) :
    bitsOf ((bootStatus lsb w v s).reg pgBOOT 0x040) lsb w = v % 2 ^ w := by
  rw [bootStatus, reg_setReg_same h, bitsOf_setBits_same _ _ _ _ fits]

/-- What a fault leaves: every register of the page but FAULT and FAULTST. -/
theorem fault_reg_ne (s : State) {p q off : Nat} (code o a : Nat) (h8 : regKey q off ≠ regKey p 0x018) (hC : regKey q off ≠ regKey p 0x01C) :
    (s.fault p code o a).reg q off = s.reg q off := by
  unfold State.fault
  dsimp only
  rw [reg_setReg_ne _ _ _ _ _ _ hC, reg_setReg_ne _ _ _ _ _ _ h8]

/-- What a fault records. -/
theorem fault_code {s : State} (h : StoresOk s) (p : Nat) {code : Nat} (hc : code < 256) (o a : Nat) :
    bitsOf ((s.fault p code o a).reg p 0x018) 0 8 = code := by
  have apart : regKey p 0x018 ≠ regKey p 0x01C := by simp [regKey]
  unfold State.fault
  dsimp only
  rw [reg_setReg_ne _ _ _ _ _ _ apart, reg_setReg_same h]
  simp only [bitsOf, BitVec.toNat_ofNat]
  omega

theorem not_eventReg {p q off : Nat} (evt : off ≠ 0x010) (source : q ≠ pgEVC ∨ off < 0x100) : ¬ EventReg p q off := by
  unfold EventReg
  omega

/-! ### CONFIRM and READY (R533, R535) -/

theorem bootCtl_confirm (a : Nat) (s : State) : bootCtl a 1 s = confirm a s := rfl

theorem confirm_again {s : State} (h : s.boot.confirmed = true) (a : Nat) : confirm a s = s.fault pgBOOT 0x40 0x044 a := if_pos h

/-- A first confirm after handover. -/
theorem confirm_first {s : State} (handed : s.boot.handed = true) (first : s.boot.confirmed = false) (a : Nat) : confirm a s =
    (bootStatus 12 1 1 ((updBoot s fun b => { b with confirmed := true }).set pgBOOT F.BOOT_FAIL_COUNT 0)).evt pgBOOT 3 := by
  simp only [confirm, handed, first, Bool.false_eq_true, if_false, Bool.not_true]

theorem confirm_fields {s : State} (h : StoresOk s) (handed : s.boot.handed = true) (first : s.boot.confirmed = false) (a : Nat) :
    (confirm a s).boot.confirmed = true ∧ (confirm a s).get pgBOOT F.BOOT_FAIL_COUNT = 0 ∧
      bitsOf ((confirm a s).reg pgBOOT 0x040) 12 1 = 1 := by
  have asked : StoresOk (updBoot s fun b => { b with confirmed := true }) := ⟨h.regs, h.staged, h.ctr, h.mem⟩
  have count := get_set_same asked pgBOOT (f := F.BOOT_FAIL_COUNT) (by decide) 0 0
  have reports := bootStatus_bits (asked.set pgBOOT F.BOOT_FAIL_COUNT 0 0) (lsb := 12) (w := 1) (by decide) 1
  rw [confirm_first handed first]
  refine ⟨?_, ?_, ?_⟩
  · rw [evt_boot]
    rfl
  · rw [evt_get _ _ _ _ (by decide) (by decide) (not_eventReg (by decide) (by decide)), State.get, bootStatus_reg_ne _ _ _ _ (by decide)]
    exact count
  · rw [evt_reg _ _ (by decide) (by decide) (not_eventReg (by decide) (by decide))]
    exact reports

theorem enableEval_regs (s : State) : (enableEval s).regs = s.regs := by
  unfold enableEval
  split
  · rfl
  · dsimp only
    split <;> rfl

theorem enableEval_mem (s : State) : (enableEval s).mem = s.mem := by
  unfold enableEval
  split
  · rfl
  · dsimp only
    split <;> rfl

/-- E fixed is all that output enable's conditions change of the start. -/
theorem enableEval_ready (s : State) : (enableEval s).boot.ready = s.boot.ready := by
  unfold enableEval
  split
  · rfl
  · dsimp only
    split <;> rfl

/-! ### WDOG.TIMEOUT (R536) -/

theorem fieldsAt_wdog : (fieldsAt pgBOOT 0x050).filter (fun f => f.eff = .commit && f.acc = .rw) = [] ∧
    (fieldsAt pgBOOT 0x050).filter (fun f => f.eff = .atOnce && f.acc = .rw) = [F.BOOT_WDOG_TIMEOUT] := by decide

theorem after_wdog (a : Nat) (v : Word) (old s : State) : after a pgBOOT 0x050 v old s =
    if s.get pgBOOT F.BOOT_WDOG_TIMEOUT = bitsOf v 0 16 then updBoot s fun b => { b with warned := false } else s := by
  simp [after, show pageType pgBOOT = 0x008 from rfl]

theorem wdog_code (s : State) (v : Word) : fieldCode s pgBOOT 0x050 v F.BOOT_WDOG_TIMEOUT =
    if bitsOf v 0 16 = 0 ∨ (10 ≤ bitsOf v 0 16 ∧ bitsOf v 0 16 ≤ 60000) then 0 else 0x07 := by
  have unfolds : fieldCode s pgBOOT 0x050 v F.BOOT_WDOG_TIMEOUT =
      match valueFault F.BOOT_WDOG_TIMEOUT (bitsOf v 0 16) with | 2 => 0x01 | 1 => 0x07 | _ => 0 := rfl
  rw [unfolds]
  by_cases inside : bitsOf v 0 16 = 0 ∨ (10 ≤ bitsOf v 0 16 ∧ bitsOf v 0 16 ≤ 60000)
  · have range : valueFault F.BOOT_WDOG_TIMEOUT (bitsOf v 0 16) = 0 := by
      simp [valueFault, F.BOOT_WDOG_TIMEOUT]
      omega
    rw [range, if_pos inside]
    rfl
  · have range : valueFault F.BOOT_WDOG_TIMEOUT (bitsOf v 0 16) = 1 := by
      simp [valueFault, F.BOOT_WDOG_TIMEOUT]
      omega
    rw [range, if_neg inside]
    rfl

/-- A timeout that its range allows is taken and restarts the count. -/
theorem regWrite_wdog_of_range {s : State} (hs : StoresOk s) {v : Word} (h : bitsOf v 0 16 = 0 ∨ (10 ≤ bitsOf v 0 16 ∧ bitsOf v 0 16 ≤ 60000))
    (a : Nat) : regWrite a pgBOOT 0x050 v s =
      updBoot (s.set pgBOOT F.BOOT_WDOG_TIMEOUT (bitsOf v 0 16)) fun b => { b with warned := false } := by
  have taken : (s.set pgBOOT F.BOOT_WDOG_TIMEOUT (bitsOf v 0 16)).get pgBOOT F.BOOT_WDOG_TIMEOUT = bitsOf v 0 16 := by
    rw [get_set_same hs _ (by decide)]
    exact Nat.mod_eq_of_lt (bitsOf_lt ..)
  have put : putFields pgBOOT 0x050 v [F.BOOT_WDOG_TIMEOUT] s = (s.set pgBOOT F.BOOT_WDOG_TIMEOUT (bitsOf v 0 16), 0) := by
    simp only [putFields_eq_foldl, List.foldl_cons, List.foldl_nil, putField, wdog_code, if_pos h]
    rfl
  unfold regWrite
  rw [if_neg (by decide), if_neg (by decide), show command a pgBOOT 0x050 v = none from rfl]
  dsimp only
  rw [fieldsAt_wdog.1, fieldsAt_wdog.2]
  simp only [stageFields, List.isEmpty_nil, if_true, put, after_wdog, taken]

/-- Another value records RANGE and leaves the register file but for that fault. -/
theorem regWrite_wdog_out_of_range (s : State) {v : Word} (h : (1 ≤ bitsOf v 0 16 ∧ bitsOf v 0 16 ≤ 9) ∨ 60001 ≤ bitsOf v 0 16)
    (a : Nat) : ∃ u, u.regs = s.regs ∧ (StoresOk s → StoresOk u) ∧ regWrite a pgBOOT 0x050 v s = faultOver s pgBOOT 0x07 0x050 a u := by
  have outside : ¬ (bitsOf v 0 16 = 0 ∨ (10 ≤ bitsOf v 0 16 ∧ bitsOf v 0 16 ≤ 60000)) := by omega
  have put : putFields pgBOOT 0x050 v [F.BOOT_WDOG_TIMEOUT] s = (s, 7) := by
    simp only [putFields_eq_foldl, List.foldl_cons, List.foldl_nil, putField, wdog_code, if_neg outside]
    rfl
  refine ⟨after a pgBOOT 0x050 v s s, ?_, fun hs => ?_, ?_⟩
  · rw [after_wdog]
    exact ite_induct (P := fun t => t.regs = s.regs) rfl rfl
  · rw [after_wdog]
    exact ite_induct ⟨hs.regs, hs.staged, hs.ctr, hs.mem⟩ hs
  · unfold regWrite
    rw [if_neg (by decide), if_neg (by decide), show command a pgBOOT 0x050 v = none from rfl]
    dsimp only
    rw [fieldsAt_wdog.1, fieldsAt_wdog.2]
    simp only [stageFields, List.isEmpty_nil, if_true, put]
    rfl

theorem faultOver_fields (before : State) {s : State} (h : StoresOk s) (p : Nat) {code : Nat} (hc : code < 256) (o a : Nat) {off : Nat}
    (h8 : off ≠ 0x018) (hC : off ≠ 0x01C) : (faultOver before p code o a s).reg p off = s.reg p off ∧
      bitsOf ((faultOver before p code o a s).reg p 0x018) 0 8 = code := by
  have k8 : regKey p off ≠ regKey p 0x018 := by simp [regKey, h8]
  have kC : regKey p off ≠ regKey p 0x01C := by simp [regKey, hC]
  refine ⟨?_, fault_code ((h.setReg ..).setReg ..) p hc o a⟩
  rw [faultOver, fault_reg_ne _ _ _ _ k8 kC, reg_setReg_ne _ _ _ _ _ _ kC, reg_setReg_ne _ _ _ _ _ _ k8]

/-! ### The attention line (R551) -/

/-- An edge of the attention line leaves on its ball: nothing else follows of a change. -/
theorem withAttn_outOnly (f : State → State) (s : State) : OutOnly (f s) (withAttn f s) := .ite (.refl _) (.emit ..)

theorem bits_ack (v : Word) : bitsOf (setBits v 1 1 1) 1 1 = 1 ∧ bitsOf (setBits v 1 1 1) 0 1 = bitsOf v 0 1 :=
  ⟨bitsOf_setBits_same _ _ _ _ (by decide), bitsOf_setBits_disjoint _ _ _ _ _ _ (by decide) (by decide)⟩

/-- FORCE takes its value; ACK clears the fallback attention. -/
def attnPut (v : Word) (s : State) : State :=
  if bitsOf v 1 1 = 1 then { s.set pgSVC F.SVC_ATTN_FORCE (bitsOf v 0 1) with svc := { s.svc with fallback := false } }
  else s.set pgSVC F.SVC_ATTN_FORCE (bitsOf v 0 1)

theorem attnWrite_outOnly (v : Word) (s : State) : OutOnly (attnPut v s) (attnWrite v s) := withAttn_outOnly _ s

theorem attnWrite_ack {s : State} (h : StoresOk s) : (attnWrite (setBits (s.reg pgSVC 0x048) 1 1 1) s).svc.fallback = false ∧
    (attnWrite (setBits (s.reg pgSVC 0x048) 1 1 1) s).get pgSVC F.SVC_ATTN_FORCE = s.get pgSVC F.SVC_ATTN_FORCE := by
  obtain ⟨ack, force⟩ := bits_ack (s.reg pgSVC 0x048)
  obtain ⟨_, e⟩ := attnWrite_outOnly (setBits (s.reg pgSVC 0x048) 1 1 1) s
  rw [e, attnPut, if_pos ack, force]
  exact ⟨rfl, (get_set_same h pgSVC (by decide) _ 0).trans (Nat.mod_eq_of_lt (bitsOf_lt ..))⟩

/-! ### The commands -/

section Commands
variable (a : BitVec 4) (s : State)

theorem exec_confirm : exec (.confirm a) s = .next (answered s.quiet (confirm a.toNat s.quiet)) := execConfirm_eq a s

theorem exec_bootReady : exec (.bootReady a) s = .next (answered s.quiet (bootReady 1 s.quiet)) := execBootReady_eq a s

theorem exec_failClear : exec (.failClear a) s = .next (answered s.quiet (failClear a.toNat 0x100 s.quiet)) := execFailClear_eq a s

theorem exec_wdkick (v : Word) : exec (.wdkick a v) s = .next (answered s.quiet (wdKick a.toNat v s.quiet)) := execWdkick_eq a v s

theorem exec_wdogTimeoutWrite (ms : BitVec 16) : exec (.wdogTimeoutWrite a ms) s =
    .next (answered s.quiet (regWrite a.toNat pgBOOT 0x050 (ms.setWidth 32) s.quiet)) := by
  rw [← busWrite_regKey (by decide) (by decide) (by decide) (by decide)]
  rfl

theorem exec_keyrevoke (keys : BitVec 4) : exec (.keyrevoke a keys) s =
    .next (answered s.quiet (keyRevoke a.toNat (keys.setWidth 32) s.quiet)) := execKeyrevoke_eq a keys s

theorem exec_attnAck : exec (.attnAck a) s =
    .next (answered s.quiet (attnWrite (setBits (s.quiet.reg pgSVC 0x048) 1 1 1) s.quiet)) := execAttnAck_eq a s

end Commands

theorem bitsOf_setWidth_all {n : Nat} (hn : n ≤ 32) (x : BitVec n) : bitsOf (x.setWidth 32) 0 n = x.toNat := by
  have := x.isLt
  have : 2 ^ n ≤ 2 ^ 32 := Nat.pow_le_pow_right (by decide) hn
  simp only [bitsOf, BitVec.toNat_setWidth]
  rw [Nat.mod_eq_of_lt (by omega : x.toNat < 2 ^ 32), pow_zero, Nat.div_one, Nat.mod_eq_of_lt x.isLt]

/-- What is called the last key does not hang on what has gone out. -/
theorem lastKey_quiet (s : State) (n : Nat) : keysPresent ≠ 0 ∧ keysPresent &&& (keysRevoked s.quiet ||| n) = keysPresent ↔
    keysPresent ≠ 0 ∧ keysPresent &&& (keysRevoked s ||| n) = keysPresent := Iff.rfl

/-- Settles O53. -/
theorem startControls : Obligations.StartControls := by
  refine ⟨?confirm, ?again, ?clear, ?clearOther, ?kick, ?kickOther, ?timeout, ?timeoutOther, ?revokeRefused, ?revoke, ?ready, ?ack⟩
  case confirm =>
    intro a s h handed first
    refine ⟨_, exec_confirm a s, ?_⟩
    rw [answered_boot, answered_get, answered_reg]
    exact confirm_fields h.quiet handed first _
  case again =>
    intro a s confirmed
    rw [exec_confirm, confirm_again (s := s.quiet) confirmed, answered_fault]
  case clear =>
    intro s
    have cleared : failClear (6 : BitVec 4).toNat 0x100 s.quiet = s.quiet.set pgBOOT F.BOOT_FAIL_COUNT 0 := rfl
    rw [exec_failClear, cleared, answered_of_que_tsk (by simp) (by simp)]
  case clearOther =>
    intro a s other
    have other' : a.toNat ≠ 6 := fun e => other (BitVec.eq_of_toNat_eq e)
    have refused : failClear a.toNat 0x100 s.quiet = s.quiet.fault pgBOOT 0x40 0x070 a.toNat := if_pos other'
    rw [exec_failClear, refused, answered_fault]
  case kick =>
    intro a s
    rw [exec_wdkick, wdKick, if_pos rfl, answered_of_que_tsk (by simp) (by simp)]
    rfl
  case kickOther =>
    intro a v s other
    rw [exec_wdkick, wdKick, if_neg other, answered_fault]
  case timeout =>
    intro a ms s h allowed
    have value : bitsOf (ms.setWidth 32) 0 16 = ms.toNat := bitsOf_setWidth_all (by decide) ms
    have range : bitsOf (ms.setWidth 32) 0 16 = 0 ∨ (10 ≤ bitsOf (ms.setWidth 32) 0 16 ∧ bitsOf (ms.setWidth 32) 0 16 ≤ 60000) := by
      rw [value]
      exact allowed.imp_left fun e => by rw [e]; rfl
    refine ⟨_, exec_wdogTimeoutWrite a s ms, ?_⟩
    rw [answered_get, answered_boot, regWrite_wdog_of_range h.quiet range]
    refine ⟨?_, rfl⟩
    rw [← value]
    exact (get_set_same h.quiet pgBOOT (by decide) _ 0).trans (Nat.mod_eq_of_lt (bitsOf_lt ..))
  case timeoutOther =>
    intro a ms s h refused
    have value : bitsOf (ms.setWidth 32) 0 16 = ms.toNat := bitsOf_setWidth_all (by decide) ms
    obtain ⟨u, regs, ok, e⟩ := regWrite_wdog_out_of_range s.quiet (v := ms.setWidth 32) (by rwa [value]) a.toNat
    obtain ⟨kept, code⟩ := faultOver_fields s.quiet (ok h.quiet) pgBOOT (code := 0x07) (by decide) 0x050 a.toNat (off := 0x050)
      (by decide) (by decide)
    refine ⟨_, exec_wdogTimeoutWrite a s ms, ?_⟩
    rw [answered_get, answered_reg, e]
    exact ⟨get_of_reg (kept.trans (reg_of_regs regs ..)) _ rfl, code⟩
  case revokeRefused =>
    intro a keys s
    rw [exec_keyrevoke, keyRevoke, bitsOf_setWidth_all (by decide) keys]
    refine ⟨fun last => ?_, fun more other => ?_⟩
    · rw [if_pos ((lastKey_quiet ..).2 last), answered_fault]
    · have other' : a.toNat ≠ 6 := fun e => other (BitVec.eq_of_toNat_eq e)
      rw [if_neg (mt (lastKey_quiet ..).1 more), if_pos other', answered_fault]
  case revoke =>
    intro keys s more
    rw [exec_keyrevoke, keyRevoke, bitsOf_setWidth_all (by decide) keys, if_neg (mt (lastKey_quiet ..).1 more), if_neg (by decide),
      answered_of_que_tsk (by simp) (by simp)]
    rfl
  case ready =>
    intro a s
    refine ⟨_, exec_bootReady a s, ?_⟩
    have ready : bootReady 1 s.quiet = enableEval (updBoot s.quiet fun b => { b with ready := true }) := rfl
    rw [answered_boot, answered_regs, answered_mem, ready, enableEval_ready, enableEval_regs, enableEval_mem]
    exact ⟨rfl, rfl, rfl⟩
  case ack =>
    intro a s h
    refine ⟨_, exec_attnAck a s, ?_⟩
    rw [answered_svc, answered_get]
    exact attnWrite_ack h.quiet

end Sys2Proof.Machine
end

section
/-!
SUPPORT. What leaves the registers of BOOT as they were: events, modes in force, masks, and reads of the MRAM with the programs that they wait
for.
-/
namespace Sys2Proof.Machine
open Sys2Proof

theorem airIdle_regs (s : State) : (airIdle s).regs = s.regs := by simp [airIdle]

/-- The radio's link changes no register. -/
theorem airEntered_regs (s : State) : (airEntered s).regs = s.regs := by
  have listed (s : State) : (sendList s).regs = s.regs := (sendList_parts s).1
  simp [airEntered, apply_ite State.regs, airIdle_regs, listed]

/-- The registers of BOOT after its header hold in the second state what they hold in the first. -/
structure BootRegs (s t : State) : Prop where
  same : ∀ off, 0x040 ≤ off → off < 4096 → t.reg pgBOOT off = s.reg pgBOOT off

namespace BootRegs
variable {s t u : State}

theorem of_regs (h : t.regs = s.regs) : BootRegs s t := ⟨fun _ _ _ => reg_of_regs h ..⟩

theorem refl (s : State) : BootRegs s s := of_regs rfl

theorem trans (h : BootRegs s t) (h' : BootRegs t u) : BootRegs s u := ⟨fun off lo hi => (h'.same off lo hi).trans (h.same off lo hi)⟩

theorem ite {c : Prop} [Decidable c] (ht : BootRegs s t) (hu : BootRegs s u) : BootRegs s (if c then t else u) := ite_induct ht hu

theorem foldl {α : Type} {f : State → α → State} (l : List α) (hf : ∀ s, ∀ x ∈ l, BootRegs s (f s x)) (s : State) : BootRegs s (l.foldl f s) :=
  List.foldlRecOn l f (refl s) fun _ h x hx => h.trans (hf _ x hx)

theorem foldl_fst {α β : Type} {f : State × β → α → State × β} (hf : ∀ p x, BootRegs p.1 (f p x).1) (l : List α) (p : State × β) :
    BootRegs p.1 (l.foldl f p).1 :=
  List.foldlRecOn (motive := fun q => BootRegs p.1 q.1) l f (refl _) fun q h x _ => h.trans (hf q x)

theorem setReg (s : State) {p off : Nat} (h : regKey p off < regKey pgBOOT 0x040 ∨ regKey pgBOOT 4096 ≤ regKey p off) (v : Word) :
    BootRegs s (s.setReg p off v) := by
  refine ⟨fun o lo hi => reg_setReg_ne _ _ _ _ _ _ ?_⟩
  simp only [regKey] at h ⊢
  omega

theorem set (s : State) {p k : Nat} {f : Fld}
    (h : regKey p (f.off + f.stride * k) < regKey pgBOOT 0x040 ∨ regKey pgBOOT 4096 ≤ regKey p (f.off + f.stride * k)) (v : Nat) :
    BootRegs s (s.set p f v k) := setReg s h _

theorem bump (s : State) (p : Nat) (f : Fld) (n k : Nat) : BootRegs s (s.bump p f n k) := of_regs (bump_regs ..)

theorem fault (s : State) (p c o a : Nat) : BootRegs s (s.fault p c o a) :=
  ⟨fun _ lo hi => fault_reg_ne _ _ _ _ (by simp only [regKey]; omega) (by simp only [regKey]; omega)⟩

theorem evt (s : State) {p : Nat} (h : p < 256) (bit : Nat) : BootRegs s (s.evt p bit) :=
  ⟨fun _ lo hi => evt_reg _ _ h hi (not_eventReg (by omega) (.inl (by decide)))⟩

/-! ### Modes in force (R70, R410) -/

theorem putEff (s : State) {p : Nat} (h : p < 256) (e : Nat × Nat) : BootRegs s (putEff p e s) :=
  ⟨fun _ lo hi => putEff_reg _ _ _ h hi (not_eventReg (by omega) (.inl (by decide))) (by omega)⟩

theorem refresh (s : State) {p : Nat} (h : p < 256) : BootRegs s (refresh p s) := by
  unfold Machine.refresh
  split
  · split
    · exact putEff s h _
    · refine foldl _ (fun t i _ => ?_) s
      split
      · exact putEff t (by omega) _
      · exact refl t
  · exact putEff s h _

theorem airEntered (s : State) : BootRegs s (airEntered s) := of_regs (airEntered_regs s)

theorem refreshAll (s : State) : BootRegs s (refreshAll s) := by
  have pages : ∀ p ∈ allPages, p < 256 := by decide
  unfold Machine.refreshAll refreshStrands
  refine (trans (foldl _ (fun t p hp => ?_) s) (foldl _ (fun t p hp => ?_) _)).trans (airEntered _)
  · exact refresh t (pages p (List.mem_filter.1 hp).1)
  · exact refresh t (by have := List.mem_range.1 hp; simp only [pgSTD]; omega)

/-! ### Masks (R435) -/

theorem arbAdmit (i n : Nat) (s : State) : BootRegs s (arbAdmit i n s) := by
  induction n generalizing s with
  | zero => exact refl s
  | succ n ih =>
    unfold Machine.arbAdmit
    split
    · exact refl s
    · refine trans ?_ (ih _)
      exact of_regs (statMax_regs ..)

theorem maskPort {i : Nat} (h : i < 24) (p : Nat) (on : Bool) (s : State) : BootRegs s (maskPort i p on s) := by
  unfold Machine.maskPort
  extract_lets was u drop keep v w
  have masked : BootRegs s u := set s (.inr (by simp only [regKey, pgBOOT, pgARB]; omega)) _
  clear_value u
  have cleared : BootRegs s w := masked.trans (of_regs rfl)
  clear_value w
  split
  · exact masked
  · have dropped : BootRegs s (if drop.isEmpty then w else (w.bump (pgARB i) F.ARB_st_MASKDROP drop.length).evt (pgARB i) 2) :=
      ite cleared ((cleared.trans (bump ..)).trans (evt _ (by simp only [pgARB]; omega) _))
    split
    · exact dropped.trans (arbAdmit ..)
    · exact dropped

theorem maskOff (s : State) : BootRegs s (maskOff s) := by
  have both (p : Nat) (on : Bool) (s : State) : BootRegs s (maskBoth p on s) := (maskPort (by decide) p on s).trans (maskPort (by decide) p on _)
  refine trans (foldl _ (fun t d _ => ?_) s) (both ..)
  exact ite (refl t) (foldl _ (fun u p _ => both p true u) t)

/-! ### Reads of the MRAM (R422 to R425) -/

theorem checkCodeword (cw : Nat) (s : State) : BootRegs s (checkCodeword cw s).1 := by
  unfold Machine.checkCodeword
  split
  · exact refl s
  · split
    · exact bump s pgNVM F.NVM_st_CORR 1 0
    · exact ((((bump s ..).trans (set _ (by decide) _)).trans (set _ (by decide) _)).trans (fault ..)).trans (evt _ (by decide) _)

theorem startProg (p : NvmProg) (s : State) : BootRegs s (startProg p s) :=
  trans (t := { s with mm := { s.mm with prog := some p } }) (of_regs rfl) (set _ (by decide) _)

theorem mergeCodeword (p : NvmProg) (s : State) (c : Nat) : BootRegs s (mergeCodeword p s c) := by
  have checked := checkCodeword c s
  unfold Machine.mergeCodeword
  split
  · exact refl s
  · split
    · next e => rwa [e] at checked
    · next e =>
      rw [e] at checked
      refine checked.trans (foldl _ (fun s k _ => ?_) _)
      exact of_regs rfl

theorem nvmDone (s : State) : BootRegs s (nvmDone s) := by
  unfold Machine.nvmDone
  split
  · exact refl s
  · next p _ =>
    extract_lets merged mm stored free counted done
    have stored' : BootRegs s stored := (foldl _ (fun t c _ => mergeCodeword p t c) s).trans (of_regs rfl)
    have counted' : BootRegs s counted :=
      (stored'.trans (set _ (by decide) _)).trans (ite (bump ..) ((bump ..).trans (set _ (by decide) _)))
    have done' : BootRegs s done := counted'.trans (evt _ (by decide) _)
    clear_value done
    split
    · exact done'
    · refine (done'.trans ?_).trans (startProg ..)
      exact of_regs rfl

theorem mramHold (off n k : Nat) (s : State) : BootRegs s (mramHold off n k s) := by
  induction k generalizing s with
  | zero => exact refl s
  | succ k ih =>
    unfold Machine.mramHold
    split
    · exact ite ((nvmDone s).trans (ih _)) (refl s)
    · exact refl s

theorem mramRead (off n : Nat) (s : State) : BootRegs s (mramRead off n s).1 := by
  unfold Machine.mramRead
  split
  · exact refl s
  · extract_lets held codewords
    have held' : BootRegs s held := mramHold ..
    exact held'.trans (foldl_fst (fun p c => by exact checkCodeword ..) codewords (held, true))

theorem readCopies (kind n : Nat) (s : State) : BootRegs s (readCopies kind n s).1 := (mramRead ..).trans (mramRead ..)

theorem lifeUsed (s : State) : BootRegs s (lifeUsed s) := set s (by decide) _

theorem loadLifetime (s : State) : BootRegs s (loadLifetime s) := by
  have read := readCopies 1 64 s
  unfold Machine.loadLifetime
  rcases copies : Machine.readCopies 1 64 s with ⟨t, a, b⟩
  rw [copies] at read
  dsimp only
  split
  · refine (read.trans ?_).trans (lifeUsed _)
    exact of_regs rfl
  · refine (read.trans ?_).trans (set _ (by decide) _)
    exact of_regs rfl

theorem startLifetime (cold : Bool) (cause : Nat) (s : State) : BootRegs s (startLifetime cold cause s) :=
  (loadLifetime s).trans (of_regs rfl)

end BootRegs

theorem boot_of_keeps {s t : State} {may : Nat} (h : Keeps ⟨s.pending, s.freeCtr, s, may⟩ t) (outside : may.testBit 19 = false) :
    t.boot = s.boot := h.parts.bootOk'.resolve_left (by simp [Keeping.May, outside])

end Sys2Proof.Machine
end

section
/-!
SUPPORT. A start (R529 to R537): what its head leaves, and SERVICE WAIT.
-/
namespace Sys2Proof.Machine
open Sys2Proof

theorem OutOnly.regs {s t : State} (h : OutOnly s t) : t.regs = s.regs := by obtain ⟨_, rfl⟩ := h; rfl

theorem OutOnly.boot {s t : State} (h : OutOnly s t) : t.boot = s.boot := by obtain ⟨_, rfl⟩ := h; rfl

/-! ### Steps 2 and 3, the records, and SERVICE WAIT (R526, R535, R537, R542) -/

theorem maskOff_boot {s : State} (h : StoresOk s) : (maskOff s).boot = s.boot :=
  boot_of_keeps (keeps_maskOff s (h.keeps 0x64) ⟨fun _ hi => hi⟩) (by decide)

theorem StoresOk.maskOff {s : State} (h : StoresOk s) : StoresOk (maskOff s) := (keeps_maskOff s (h.keeps 0x64) ⟨fun _ hi => hi⟩).storesOk

theorem refreshAll_boot {s : State} (h : StoresOk s) : (refreshAll s).boot = s.boot :=
  boot_of_keeps (keeps_refreshAll s (h.keeps 0x10060) ⟨fun _ hi => hi⟩) (by decide)

theorem startLifetime_boot {s : State} (h : StoresOk s) (cold : Bool) (cause : Nat) : (startLifetime cold cause s).boot = s.boot :=
  boot_of_keeps (keeps_startLifetime cold cause s (h.keeps 0x100065) ⟨fun _ hi => hi⟩) (by decide)

theorem StoresOk.romStep {s : State} (h : StoresOk s) (x : StartIn) (n : Nat) : StoresOk (romStep x n s) := (h.setReg ..).setReg ..

theorem StoresOk.bootStatus {s : State} (h : StoresOk s) (lsb w v : Nat) : StoresOk (bootStatus lsb w v s) := h.setReg ..

@[simp] theorem bootStatus_boot (lsb w v : Nat) (s : State) : (bootStatus lsb w v s).boot = s.boot := by
  unfold bootStatus
  exact setReg_boot ..

@[simp] theorem romStep_boot (x : StartIn) (n : Nat) (s : State) : (romStep x n s).boot = s.boot := by
  unfold romStep
  exact (bootStatus_boot ..).trans (setReg_boot ..)

@[simp] theorem showJournal_boot (s : State) : (showJournal s).boot = s.boot := by
  unfold showJournal
  exact (set_boot ..).trans (set_boot ..)

@[simp] theorem bootStatus_failCount (lsb w v : Nat) (s : State) : failCount (bootStatus lsb w v s) = failCount s :=
  get_of_reg (bootStatus_reg_ne _ _ _ _ (by decide)) F.BOOT_FAIL_COUNT rfl

theorem failCount_lt (s : State) : failCount s < 16 := bitsOf_lt ..

/-- The head of a cold start at eight failed starts or more: the start is no longer due, and the count stays (R535). -/
theorem startHead_limit {s : State} (h : StoresOk s) (x : StartIn) (forced : Bool) (cause : Nat) (limit : 8 ≤ failCount s) :
    (startHead x true forced cause s).boot.due = none ∧ failCount (startHead x true forced cause s) = failCount s := by
  have ok : StoresOk (updBoot s fun b => { b with due := none }) := ⟨h.regs, h.staged, h.ctr, h.mem⟩
  unfold startHead
  extract_lets f cleared masked rated corr timed told first stepped f'
  have maskedOk : StoresOk masked := (ok.set ..).maskOff.set ..
  have maskedDue : masked.boot.due = none := congrArg BootState.due ((set_boot ..).trans (maskOff_boot (ok.set ..)))
  clear_value masked
  have cold : timed = rated := if_pos rfl
  have timedOk : StoresOk timed := by rw [cold]; exact maskedOk.set ..
  have timedDue : timed.boot.due = none := by rw [cold]; exact (congrArg BootState.due (set_boot ..)).trans maskedDue
  clear_value timed
  have toldOk : StoresOk told := ((timedOk.bootStatus ..).bootStatus ..).bootStatus ..
  have firstOk : StoresOk first := ite_induct (toldOk.romStep ..) toldOk
  have toldDue : told.boot.due = none := by simp [told, timedDue]
  have firstDue : first.boot.due = none := ite_induct (P := fun t => t.boot.due = none) (by rw [romStep_boot, toldDue]) toldDue
  have steppedOk : StoresOk stepped := (firstOk.romStep ..).romStep ..
  have steppedDue : stepped.boot.due = none := by rw [romStep_boot, romStep_boot, firstDue]
  clear_value stepped
  have kept : f' = failCount s := if_pos (.inr limit)
  refine ⟨by simp [steppedDue], ?_⟩
  rw [failCount, State.get, bootStatus_reg_ne _ _ _ _ (by decide), kept]
  exact (get_set_same steppedOk pgBOOT (by decide) _ 0).trans (Nat.mod_eq_of_lt (failCount_lt s))

theorem journalLoad_due (s : State) : (journalLoad s).boot.due = s.boot.due := by
  have read := (AccessPartsOnly.readCopies 2 64 s).boot
  unfold journalLoad
  rcases copies : readCopies 2 64 s with ⟨t, a, b⟩
  rw [copies] at read
  dsimp only
  have due : t.boot.due = s.boot.due := congrArg BootState.due read
  split
  · rw [showJournal_boot]
    exact due
  · rw [showJournal_boot]
    exact due

theorem showJournal_failCount (s : State) : failCount (showJournal s) = failCount s :=
  (get_set_ne _ (by decide) _).trans (get_set_ne _ (by decide) _)

theorem journalLoad_failCount (s : State) : failCount (journalLoad s) = failCount s := by
  have read := (BootRegs.readCopies 2 64 s).same 0x070 (by decide) (by decide)
  unfold journalLoad
  rcases copies : readCopies 2 64 s with ⟨t, a, b⟩
  rw [copies] at read
  dsimp only
  split
  · rw [showJournal_failCount]
    exact congrArg (bitsOf · 0 4) read
  · rw [showJournal_failCount]
    exact congrArg (bitsOf · 0 4) read

theorem failCount_of_bootRegs {s t : State} (h : BootRegs s t) : failCount t = failCount s :=
  get_of_reg (h.same 0x070 (by decide) (by decide)) _ rfl

/-- The domains off but AON, SYS and NVM, and the masks that follow. -/
def waitMasked (s : State) : State := maskOff ((updBoot s fun b => { b with svcWait := true }).set pgPMU F.PMU_DOMEFF_ON 0x203)

/-- SERVICE WAIT and its reason as STATUS reports them. -/
def waitReported (why : Nat) (s : State) : State := bootStatus 22 4 why (bootStatus 6 1 1 (waitMasked s))

/-- SERVICE WAIT entered, but for the attention line. -/
def waitEntered (why : Nat) (s : State) : State := refreshAll (waitReported why s)

theorem serviceWait_eq (why : Nat) (s : State) : serviceWait why s = withAttn (waitEntered why) s := by
  unfold serviceWait waitEntered waitReported waitMasked
  rfl

theorem waitMasked_fields {s : State} (h : StoresOk s) : (waitMasked s).boot = { s.boot with svcWait := true } ∧
    failCount (waitMasked s) = failCount s ∧ StoresOk (waitMasked s) := by
  have waits : StoresOk (updBoot s fun b => { b with svcWait := true }) := ⟨h.regs, h.staged, h.ctr, h.mem⟩
  have regs : BootRegs s (updBoot s fun b => { b with svcWait := true }) := .of_regs rfl
  refine ⟨(maskOff_boot (waits.set ..)).trans (set_boot ..), ?_, (waits.set ..).maskOff⟩
  exact failCount_of_bootRegs ((regs.trans (.set _ (by decide) _)).trans (.maskOff _))

theorem waitReported_fields {s : State} (h : StoresOk s) (why : Nat) : (waitReported why s).boot = { s.boot with svcWait := true } ∧
    failCount (waitReported why s) = failCount s ∧ bitsOf ((waitReported why s).reg pgBOOT 0x040) 22 4 = why % 16 ∧
    StoresOk (waitReported why s) := by
  obtain ⟨boot, count, ok⟩ := waitMasked_fields h
  unfold waitReported
  refine ⟨?_, ?_, bootStatus_bits (ok.bootStatus ..) (by decide) why, (ok.bootStatus ..).bootStatus ..⟩
  · rw [bootStatus_boot, bootStatus_boot, boot]
  · rw [bootStatus_failCount, bootStatus_failCount, count]

/-- What SERVICE WAIT leaves of the start, and what it reports. -/
theorem serviceWait_fields {s : State} (h : StoresOk s) (why : Nat) : (serviceWait why s).boot = { s.boot with svcWait := true } ∧
    failCount (serviceWait why s) = failCount s ∧ bitsOf ((serviceWait why s).reg pgBOOT 0x040) 22 4 = why % 16 := by
  obtain ⟨boot, count, reason, ok⟩ := waitReported_fields h why
  have modes := BootRegs.refreshAll (waitReported why s)
  have boot' := refreshAll_boot ok
  have only := withAttn_outOnly (waitEntered why) s
  rw [← serviceWait_eq] at only
  have last : BootRegs (waitReported why s) (serviceWait why s) := modes.trans (.of_regs only.regs)
  refine ⟨only.boot.trans (boot'.trans boot), (failCount_of_bootRegs last).trans count, ?_⟩
  rw [last.same 0x040 (by decide) (by decide), reason]

/-! ### The start that is due (R529, R535) -/

theorem startOf_of_none {s : State} (h : s.boot.due = none) (cold : Bool) (x : StartIn) : startOf cold x s = s := by
  simp only [startOf, h]

/-- A start runs where one of its kind is due and nothing holds the device in reset. -/
theorem startOf_of_due {s : State} {dueCold : Bool} {cause : Nat} (due : s.boot.due = some (dueCold, cause)) (low : s.boot.resetLow = false)
    (rail : s.boot.railOut = false) {cold : Bool} {x : StartIn} (kind : startCold x dueCold s = cold) :
    startOf cold x s = startRun x cold (startForced x s) cause s := by
  simp [startOf, due, low, rail, kind]

/-- At eight failed starts or more a start ends in SERVICE WAIT once the records are read. -/
theorem startRun_of_limit {s : State} (limit : 8 ≤ failCount s) (x : StartIn) (cold forced : Bool) (cause : Nat) :
    startRun x cold forced cause s = serviceWait 2 (startLifetime cold cause (journalLoad (startHead x cold forced cause s))) := by
  unfold startRun
  exact if_pos limit

/-- Of the start itself the journal's and the lifetime record's reads leave whether one is due, and its failed starts. -/
theorem recordsRead_fields {s : State} (h : StoresOk s) (cold : Bool) (cause : Nat) :
    (startLifetime cold cause (journalLoad s)).boot.due = s.boot.due ∧ failCount (startLifetime cold cause (journalLoad s)) = failCount s ∧
      StoresOk (startLifetime cold cause (journalLoad s)) := by
  have ok : StoresOk (journalLoad s) := (keeps_journalLoad _ (h.keeps 0x80065) ⟨fun _ hi => hi⟩).storesOk
  refine ⟨?_, ?_, (keeps_startLifetime _ _ _ (ok.keeps 0x100065) ⟨fun _ hi => hi⟩).storesOk⟩
  · rw [startLifetime_boot ok, journalLoad_due]
  · rw [failCount_of_bootRegs (BootRegs.startLifetime ..), journalLoad_failCount]

theorem serviceWait_due {s : State} (h : StoresOk s) (why : Nat) : (serviceWait why s).boot.due = s.boot.due := by
  rw [(serviceWait_fields h why).1]

theorem serviceWait_waits {s : State} (h : StoresOk s) (why : Nat) : (serviceWait why s).boot.svcWait = true := by
  rw [(serviceWait_fields h why).1]

theorem startRun_limit_fields {s : State} (h : StoresOk s) (x : StartIn) (forced : Bool) (cause : Nat) (limit : 8 ≤ failCount s) :
    (startRun x true forced cause s).boot.due = none ∧ (startRun x true forced cause s).boot.svcWait = true ∧
      failCount (startRun x true forced cause s) = failCount s ∧ bitsOf ((startRun x true forced cause s).reg pgBOOT 0x040) 22 4 = 2 := by
  obtain ⟨headDue, headCount⟩ := startHead_limit h x forced cause limit
  have headOk : StoresOk (startHead x true forced cause s) := (keeps_startHead _ _ _ _ s (h.keeps 0x8006C) ⟨fun _ hi => hi⟩).storesOk
  obtain ⟨due, count, ok⟩ := recordsRead_fields headOk true cause
  obtain ⟨-, waitCount, reason⟩ := serviceWait_fields ok 2
  rw [startRun_of_limit limit]
  exact ⟨(serviceWait_due ok 2).trans (due.trans headDue), serviceWait_waits ok 2, waitCount.trans (count.trans headCount), reason⟩

/-! ### After the start (R533, R534) -/

theorem enableEval_fabDone (s : State) : (enableEval s).boot.fabDone = s.boot.fabDone := by
  unfold enableEval
  split
  · rfl
  · dsimp only
    split <;> rfl

@[simp] theorem timePathSync_boot (s : State) : (timePathSync s).boot = s.boot := by
  simp [timePathSync, autoSource, apply_ite State.boot]

@[simp] theorem fabSync_boot (s : State) : (fabSync s).boot = s.boot := by simp [fabSync]

@[simp] theorem bootStatus_fab (lsb w v : Nat) (s : State) : (bootStatus lsb w v s).fab = s.fab := by
  unfold bootStatus
  exact setReg_fab ..

@[simp] theorem topoChange_fab (s : State) : (topoChange s).fab = { s.fab with disc := min s.fab.disc 4 } := by
  unfold topoChange
  rw [evt_fab]
  rfl

@[simp] theorem topoChange_boot (s : State) : (topoChange s).boot = s.boot := by simp [topoChange]

/-- What a discovery wait finds, once it is over. -/
theorem discoveryWait_of_record {s : State} (waits : s.boot.discWait = true) {n m : Nat} {hash : Dword} (record : s.fab.record = some (n, m, hash)) :
    discoveryWait s =
      if (bruPorts.filter fun b => (bruOf s b).up).isEmpty ∨ !fabOn s ∨
          !((bruPorts.filter fun b => (bruOf s b).up).all fun b => beVal (slice (bruOf s b).ctrlRx 32 8) = hash.toNat) then
        updBoot s fun b => { b with discWait := false }
      else
        bootStatus 13 1 1 (fabSync (topoChange (updFab (updBoot s fun b => { b with discWait := false }) fun f =>
          { f with cluster := some (n / 256), member := some m, lastMember := m, disc := 4 }))) := by
  have waits' : ¬ (!s.boot.discWait) = true := by simp [waits]
  unfold discoveryWait
  rw [if_neg waits']
  dsimp only [updBoot_fab]
  rw [record]
  rfl

theorem exec_coldStart (straps : Byte) (r1 r2 r3 : Bool) (ends : List Nat) (hits applied : List (List (List Nat))) (s : State) :
    exec (.coldStart straps r1 r2 r3 ends hits applied) s = .next (startOf true ⟨straps, r1, r2, r3, ends, hits, applied⟩ s.quiet) := rfl

theorem exec_warmStart (straps : Byte) (ends : List Nat) (s : State) :
    exec (.warmStart straps ends) s = .next (startOf false ⟨straps, true, true, true, ends, [], []⟩ s.quiet) := rfl

theorem exec_fabwaitExpiry (s : State) : exec .fabwaitExpiry s =
    .next (if s.boot.handed then enableEval (updBoot s.quiet fun b => { b with fabDone := true }) else s.quiet) := rfl

theorem exec_discoveryWaitExpiry (s : State) : exec .discoveryWaitExpiry s = .next (discoveryWait s.quiet) := rfl

/-- Settles O55. -/
theorem startsRun : Obligations.StartsRun := by
  refine ⟨?notDue, ?cold, ?limit, ?warm, ?fabwait, ?early, ?notWaiting, ?fabOff, ?found⟩
  case notDue =>
    intro straps r1 r2 r3 ends hits applied s none'
    rw [exec_coldStart, exec_warmStart, startOf_of_none (s := s.quiet) none', startOf_of_none (s := s.quiet) none']
    exact ⟨rfl, rfl⟩
  case cold =>
    intro straps r1 r2 r3 ends hits applied cause s due low rail
    rw [exec_coldStart, startOf_of_due (s := s.quiet) (cold := true) due low rail rfl]
    rfl
  case limit =>
    intro straps r1 r2 r3 ends hits applied cause s h due low rail limit
    refine ⟨_, exec_coldStart .., ?_⟩
    rw [startOf_of_due (s := s.quiet) (cold := true) due low rail rfl]
    exact startRun_limit_fields h.quiet _ _ cause limit
  case warm =>
    intro straps ends cause s due kept low rail few
    have forced (x : StartIn) : startForced x s.quiet = false := by
      have few' : ¬ 3 ≤ failCount s.quiet := Nat.not_le_of_lt few
      simp [startForced, few']
    rw [exec_warmStart, startOf_of_due (s := s.quiet) (cold := false) due low rail (by simp [startCold, kept, forced]), forced]
  case fabwait =>
    intro s handed
    refine ⟨_, (exec_fabwaitExpiry s).trans (congrArg Host.Outcome.next (if_pos handed)), ?_, ?_⟩
    · rw [enableEval_fabDone]
      rfl
    · exact enableEval_regs _
  case early =>
    intro s handed
    rw [exec_fabwaitExpiry, if_neg (by simp [handed])]
  case notWaiting =>
    intro s idle
    have idle' : (!s.quiet.boot.discWait) = true := congrArg (!·) idle
    rw [exec_discoveryWaitExpiry, discoveryWait, if_pos idle']
  case fabOff =>
    intro s ⟨n, m, hash⟩ waits record off
    have off' : (!fabOn s.quiet) = true := congrArg (!·) off
    rw [exec_discoveryWaitExpiry, discoveryWait_of_record (s := s.quiet) waits record, if_pos (.inr (.inl off'))]
    rfl
  case found =>
    intro s ⟨n, m, hash⟩ waits record on some' agree
    have ups : ¬ ((bruPorts.filter fun b => (bruOf s b).up).isEmpty = true ∨ (!fabOn s) = true ∨
        (!(bruPorts.filter fun b => (bruOf s b).up).all fun b => beVal (slice (bruOf s b).ctrlRx 32 8) = hash.toNat) = true) := by
      simp only [List.isEmpty_iff, some', on, Bool.not_true, Bool.false_eq_true, false_or, Bool.not_eq_true', Bool.not_eq_false,
        List.all_eq_true, List.mem_filter, decide_eq_true_eq]
      exact fun b hb => agree b hb.1 hb.2
    refine ⟨_, (exec_discoveryWaitExpiry s).trans (congrArg _ ((discoveryWait_of_record (s := s.quiet) waits record).trans (if_neg ups))), ?_⟩
    rw [bootStatus_boot, fabSync_boot, topoChange_boot]
    have fab : (bootStatus 13 1 1 (fabSync (topoChange (updFab (updBoot s.quiet fun b => { b with discWait := false }) fun f =>
        { f with cluster := some (n / 256), member := some m, lastMember := m, disc := 4 })))).fab =
        { s.fab with cluster := some (n / 256), member := some m, lastMember := m, disc := 4 } := by
      rw [bootStatus_fab, fabSync_fab, topoChange_fab]
      rfl
    rw [fab]
    exact ⟨rfl, rfl, rfl, rfl⟩

end Sys2Proof.Machine
end

section
/-!
SUPPORT. PMBus transactions, thermal limits and service life (R521, R522, R525, R526, R528).
-/
namespace Sys2Proof.Machine
open Sys2Proof

/-! ### PMBus transactions (R521) -/

/-- The first transaction that waits goes onto a free bus. -/
theorem pmStart_of_free {s : State} {x : PmTxn} {q : List PmTxn} (free : s.pwr.txn = none) (waits : s.pwr.txnQ = x :: q) :
    pmStart s = (updPwr s fun p => { p with txn := some x, txnQ := q }).emit (.pmbus (pmBytes s x)) := by
  simp only [pmStart, free, waits]

theorem pmStart_of_busy {s : State} (busy : s.pwr.txn ≠ none) : pmStart s = s := by
  unfold pmStart
  split
  · next none' _ => exact absurd none' busy
  · rfl

theorem pmStart_of_none {s : State} (none' : s.pwr.txnQ = []) : pmStart s = s := by
  unfold pmStart
  split
  · next some' => exact absurd (none'.symm.trans some') (by simp)
  · rfl

/-- Nothing waits yet: every transaction asked for does. -/
theorem pmAsk_of_none {s : State} (none' : s.pwr.txnQ = []) (l : List Nat) :
    pmAsk l s = pmStart (updPwr s fun p => { p with txnQ := l.map fun k => { kind := k } }) := by
  simp [pmAsk, none', updPwr]

/-- The first of the transactions asked for goes onto the free bus, and the others wait. -/
theorem pmAsk_of_free {s : State} (free : s.pwr.txn = none) (none' : s.pwr.txnQ = []) (k : Nat) (l : List Nat) :
    (pmAsk (k :: l) s).pwr.txn = some { kind := k } ∧ (pmAsk (k :: l) s).pwr.txnQ = l.map (fun k => { kind := k }) ∧
      (pmAsk (k :: l) s).out = s.out ++ [.pmbus (pmBytes s { kind := k })] ∧ (pmAsk (k :: l) s).regs = s.regs := by
  have waits : (updPwr s fun p => { p with txnQ := (k :: l).map fun k => { kind := k } }).pwr.txnQ =
      { kind := k } :: l.map fun k => { kind := k } := rfl
  rw [pmAsk_of_none none', pmStart_of_free (by exact free) waits]
  exact ⟨rfl, rfl, rfl, rfl⟩

/-- A VOUT_COMMAND acknowledged with nothing waiting behind it: the bus is free, and VNOW at the voltage commanded. -/
theorem pmEnd_of_vout {s : State} {x : PmTxn} {data : List Byte} (busy : s.pwr.txn = some x) (kind : x.kind = 2) (none' : s.pwr.txnQ = []) :
    pmEnd true data s = updPwr (s.set pgPMU F.PMU_VNOW x.mv) fun p => { p with txn := none } := by
  have waits : (updPwr (s.set pgPMU F.PMU_VNOW x.mv) fun p => { p with txn := none }).pwr.txnQ = [] := none'
  simp only [pmEnd, busy, if_true, pmAck, kind]
  exact pmStart_of_none waits

theorem bitsOf_or_pow (v : Word) {bit : Nat} (h : bit < 32) : bitsOf (v ||| BitVec.ofNat 32 (2 ^ bit)) bit 1 = 1 := by
  have small : 2 ^ bit < 2 ^ 32 := Nat.pow_lt_pow_right (by decide) h
  have set : (v.toNat ||| 2 ^ bit).testBit bit = true := by simp
  rw [Nat.testBit_eq_decide_div_mod_eq, decide_eq_true_eq] at set
  rw [bitsOf, BitVec.toNat_or, BitVec.toNat_ofNat, Nat.mod_eq_of_lt small]
  exact set

/-- An event of a page other than the controller's and the scheduler's leaves its bit set. -/
theorem evt_bit {s : State} (h : StoresOk s) {p bit : Nat} (hp : p < 256) (hc : p ≠ pgEVC) (ht : p ≠ pgTSK) (hb : bit < 32) :
    bitsOf ((s.evt p bit).reg p 0x010) bit 1 = 1 := by
  have raised : bitsOf ((rawEvt s p bit).reg p 0x010) bit 1 = 1 := by
    rw [rawEvt, reg_setReg_same h, bitsOf_or_pow _ hb]
  have other : ¬ EventReg pgEVC p 0x010 := by
    unfold EventReg
    omega
  unfold State.evt withEvents
  dsimp only
  split
  · rw [arrive_reg (p := pgEVC) _ _ (by unfold pageSource; split <;> omega) (by decide) other, raised]
  · exact raised

/-! ### Thermal limits (R522) and service life (R525, R526) -/

theorem trackTj_regs (s : State) : (trackTj s).regs = s.regs := by
  unfold trackTj
  extract_lets t higher kept
  have same : kept.regs = s.regs := ite_induct (P := fun t => t.regs = s.regs) rfl rfl
  exact ite_induct (P := fun t => t.regs = s.regs) same same

theorem trackTj_bins (s : State) : (trackTj s).pwr.bins = s.pwr.bins := by
  unfold trackTj
  extract_lets t higher kept
  have same : kept.pwr.bins = s.pwr.bins := ite_induct (P := fun t => t.pwr.bins = s.pwr.bins) rfl rfl
  exact ite_induct (P := fun t => t.pwr.bins = s.pwr.bins) same same

theorem StoresOk.trackTj {s : State} (h : StoresOk s) : StoresOk (trackTj s) :=
  (keeps_trackTj s (h.keeps 0x100000) ⟨fun _ hi => hi⟩).storesOk

section Limits
variable {s : State} (runs : timeRuns s = true)

/-- Without SYS nothing is measured. -/
theorem thermalEval_of_stopped (stopped : timeRuns s = false) : thermalEval s = s := by
  simp [thermalEval, stopped]

variable (warn : s.flag pgPMU F.PMU_THERM_WARN = false) (crit : s.flag pgPMU F.PMU_THERM_CRIT = false)
  (below110 : Fl.lt (dieTemp s) (.fin 110) = true) (below120 : Fl.lt (dieTemp s) (.fin 120) = true)
include runs warn crit below110 below120

theorem thermalEval_of_below (below : Fl.lt (dieTemp s) (.fin (s.get pgPMU F.PMU_THERM_TWARN : Nat)) = true) : thermalEval s = trackTj s := by
  have same (f : Fld) : (trackTj s).get pgPMU f = s.get pgPMU f := get_of_regs (trackTj_regs s) ..
  simp only [State.flag, decide_eq_false_iff_not] at warn crit
  simp [thermalEval, runs, below110, below120, below, State.flag, same, warn, crit]

/-- At TWARN the warning and its event are set. -/
theorem thermalEval_of_warn (h : StoresOk s) (above : Fl.lt (dieTemp s) (.fin (s.get pgPMU F.PMU_THERM_TWARN : Nat)) = false) :
    thermalEval s = ((trackTj s).set pgPMU F.PMU_THERM_WARN 1).evt pgPMU 1 := by
  have same (f : Fld) : (trackTj s).get pgPMU f = s.get pgPMU f := get_of_regs (trackTj_regs s) ..
  have crit' : (((trackTj s).set pgPMU F.PMU_THERM_WARN 1).evt pgPMU 1).get pgPMU F.PMU_THERM_CRIT = s.get pgPMU F.PMU_THERM_CRIT := by
    rw [evt_get _ _ _ _ (by decide) (by decide) (not_eventReg (by decide) (by decide)),
      get_set_apart h.trackTj pgPMU (f := F.PMU_THERM_WARN) (g := F.PMU_THERM_CRIT) (j := 0) (k := 0) rfl (by decide) (by decide), same]
  simp only [State.flag, decide_eq_false_iff_not] at warn crit
  simp [thermalEval, runs, below110, below120, above, State.flag, same, warn, crit, crit']

end Limits

theorem OutOnly.pwr {s t : State} (h : OutOnly s t) : t.pwr = s.pwr := by obtain ⟨_, rfl⟩ := h; rfl

theorem OutOnly.outs {s t : State} (h : OutOnly s t) : t.outs = s.outs := by obtain ⟨_, rfl⟩ := h; rfl

/-- The state after a thermal trip, but for what goes out (R522). -/
def tripped (s : State) : State :=
  updPwr (((sysReset false false (trackTj s)).set pgPMU F.PMU_STATE 3).set pgPMU F.PMU_WAKECAUSE_THERMTRIP 1) fun p =>
    { p with raising := none, retry := false, tripped := true, en := [false, false, false, false] }

theorem thermalEval_of_trip {s : State} (runs : timeRuns s = true) (above : Fl.lt (dieTemp s) (.fin 120) = false) :
    OutOnly (tripped s) (thermalEval s) := by
  have trips : thermalEval s = [3, 2, 1, 0].foldl (fun s i => s.emit (.ball ("PWR_EN" ++ toString i) false)) (tripped s) := by
    unfold thermalEval
    rw [if_neg (by simp [runs])]
    exact if_pos (by simp [above])
  rw [trips]
  exact .foldl (fun _ _ => .emit ..) _ _

theorem tripped_fields {s : State} (h : StoresOk s) : (tripped s).get pgPMU F.PMU_STATE = 3 ∧ (tripped s).get pgPMU F.PMU_WAKECAUSE_THERMTRIP = 1 ∧
    (tripped s).pwr.en = [false, false, false, false] ∧ (tripped s).outs = State.reset.outs := by
  have ok : StoresOk (sysReset false false (trackTj s)) :=
    (keeps_sysReset _ _ _ (h.trackTj.keeps 0x7FFFFF) ⟨fun _ hi => hi⟩).storesOk
  have outs : (sysReset false false (trackTj s)).outs = State.reset.outs := by
    unfold sysReset
    rfl
  unfold tripped
  generalize sysReset false false (trackTj s) = t at ok outs
  refine ⟨?_, ?_, by rw [updPwr_pwr], by rw [updPwr_outs, set_outs, set_outs, outs]⟩
  · rw [get_of_regs (updPwr_regs ..), get_set_ne _ (by decide)]
    exact get_set_same ok pgPMU (by decide) 3 0
  · rw [get_of_regs (updPwr_regs ..)]
    exact get_set_same (ok.set ..) pgPMU (by decide) 1 0

theorem lifeCount_of_stopped {s : State} (stopped : timeRuns s = false) : lifeCount s = s := by
  simp [lifeCount, stopped]

theorem lifeCount_bins {s : State} (runs : timeRuns s = true) :
    (lifeCount s).pwr.bins = updAt s.pwr.bins (lifeBin (dieTemp s)) fun n => min 0xFFFFFFFF (n + 1) := by
  simp only [lifeCount, runs, Bool.not_true, Bool.false_eq_true, if_false, lifeUsed, set_pwr, trackTj_bins]
  rfl

theorem writeLifetime_pwr (s : State) : (writeLifetime s).pwr = { s.pwr with lifeSeq := (s.pwr.lifeSeq + 1) % 2 ^ 32, lifeB := !s.pwr.lifeB } := by
  unfold writeLifetime
  dsimp only
  rw [updPwr_pwr, (AccessPartsOnly.internalProg ..).pwr]

section Commands
variable (s : State)

theorem exec_pmbusPoll : exec .pmbusPoll s = .next (pmAsk [3, 4, 5] s.quiet) := rfl

theorem exec_pmbusAlert : exec .pmbusAlert s = .next (pmAsk [6] (s.quiet.evt pgPMU 4)) := rfl

theorem exec_voutCommand : exec .voutCommand s = .next (if s.pwr.txnQ.head?.any (·.kind = 2) then pmStart s.quiet else s.quiet) := rfl

theorem exec_pmbusTransactionEnd (ok : Bool) (data : List Byte) : exec (.pmbusTransactionEnd ok data) s = .next (pmEnd ok data s.quiet) := rfl

theorem exec_thermalEvaluate : exec .thermalEvaluate s = .next (thermalEval s.quiet) := rfl

theorem exec_lifeCount : exec .lifeCount s = .next (lifeCount s.quiet) := rfl

theorem exec_lifetimeRecordWrite : exec .lifetimeRecordWrite s = .next (if timeRuns s then writeLifetime s.quiet else s.quiet) := rfl

end Commands

/-- Settles O52. -/
theorem pmbusThermalLife : Obligations.PmbusThermalLife := by
  refine ⟨?poll, ?pollBusy, ?alert, ?vout, ?voutNone, ?idle, ?repeated, ?done, ?stopped, ?below, ?warn, ?trip, ?life, ?record⟩
  case poll =>
    intro s free none'
    obtain ⟨txn, waits, out, -⟩ := pmAsk_of_free (s := s.quiet) free none' 3 [4, 5]
    exact ⟨_, exec_pmbusPoll s, txn, waits, out⟩
  case pollBusy =>
    intro s busy none'
    rw [exec_pmbusPoll, pmAsk_of_none (s := s.quiet) none', pmStart_of_busy (by exact busy)]
    rfl
  case alert =>
    intro s h free none'
    have pwr : (s.quiet.evt pgPMU 4).pwr = s.pwr := (EventPartsOnly.evt s.quiet pgPMU 4).pwr
    obtain ⟨txn, -, -, regs⟩ := pmAsk_of_free (s := s.quiet.evt pgPMU 4) (by rw [pwr, free]) (by rw [pwr, none']) 6 []
    refine ⟨_, exec_pmbusAlert s, txn, ?_⟩
    rw [reg_of_regs regs]
    exact evt_bit h.quiet (by decide) (by decide) (by decide) (by decide)
  case vout =>
    intro s x q free waits kind
    have asked : (s.pwr.txnQ.head?.any (·.kind = 2)) = true := by simp [waits, kind]
    rw [exec_voutCommand, if_pos asked, pmStart_of_free (s := s.quiet) free waits]
    rfl
  case voutNone =>
    intro s none'
    rw [exec_voutCommand, if_neg (by simp [none'])]
  case idle =>
    intro ok data s idle
    have idle' : s.quiet.pwr.txn = none := idle
    simp only [exec_pmbusTransactionEnd, pmEnd, idle']
  case repeated =>
    intro data x s busy few
    have busy' : s.quiet.pwr.txn = some x := busy
    simp only [exec_pmbusTransactionEnd, pmEnd, busy', Bool.false_eq_true, if_false, few, if_true]
    rfl
  case done =>
    intro data x s h busy kind none'
    refine ⟨_, exec_pmbusTransactionEnd s true data, ?_⟩
    rw [pmEnd_of_vout (s := s.quiet) busy kind none']
    exact ⟨rfl, get_set_same h.quiet pgPMU (by decide) _ 0⟩
  case stopped =>
    intro s stopped
    refine ⟨?_, ?_, ?_⟩
    · rw [exec_thermalEvaluate, thermalEval_of_stopped (s := s.quiet) stopped]
    · rw [exec_lifeCount, lifeCount_of_stopped (s := s.quiet) stopped]
    · rw [exec_lifetimeRecordWrite, if_neg (by simp [stopped])]
  case below =>
    intro s runs below below110 below120 warn crit
    rw [exec_thermalEvaluate, thermalEval_of_below (s := s.quiet) runs warn crit below110 below120 below]
  case warn =>
    intro s runs above below110 below120 warn crit h
    rw [exec_thermalEvaluate, thermalEval_of_warn (s := s.quiet) runs warn crit below110 below120 h.quiet above]
  case trip =>
    intro s runs h above
    have only := thermalEval_of_trip (s := s.quiet) runs above
    obtain ⟨state, cause, en, outs⟩ := tripped_fields h.quiet
    exact ⟨_, exec_thermalEvaluate s, (get_of_regs only.regs ..).trans state, (get_of_regs only.regs ..).trans cause,
      (congrArg PwrState.en only.pwr).trans en, only.outs.trans outs⟩
  case life => exact fun s runs => ⟨_, exec_lifeCount s, lifeCount_bins (s := s.quiet) runs⟩
  case record =>
    intro s runs
    refine ⟨_, (exec_lifetimeRecordWrite s).trans (congrArg _ (if_pos runs)), ?_⟩
    rw [writeLifetime_pwr]
    exact ⟨rfl, rfl⟩

end Sys2Proof.Machine
end

section
/-!
SUPPORT. Descriptors of the DMA engine (R444, R447) and bus errors on its beats (R452).
-/
namespace Sys2Proof.Machine
open Sys2Proof

/-! ### The fetch and the completion of a descriptor -/

section Fetch
variable {ch : Nat} {s t : State} {b : List Byte}

/-- A channel that runs with no descriptor in progress reads the one at CUR. -/
theorem descFetch_of_bytes (runs : chState s ch = chRun) (idle : (dmaOf s ch).active = false)
    (read : dmaReadN (chWho (chSet s ch F.DMA_STATUS_KNOCKED 0) ch) (chCur (chSet s ch F.DMA_STATUS_KNOCKED 0) ch) 32
      (chSet s ch F.DMA_STATUS_KNOCKED 0) = (t, b, none)) :
    (descBad b (descOf b (dmaOf t ch)) = true → descFetch ch s = badDesc ch t) ∧
      (descBad b (descOf b (dmaOf t ch)) = false → (descOf b (dmaOf t ch)).op ≠ opGather → (descOf b (dmaOf t ch)).op ≠ opScatter →
        descFetch ch s = takeDesc ch (descOf b (dmaOf t ch)) t) := by
  have takes : ¬ (chState s ch ≠ chRun ∨ (dmaOf s ch).active = true) := by simp [runs, idle]
  unfold descFetch
  rw [if_neg takes]
  extract_lets u
  have read' : dmaReadN (chWho u ch) (chCur u ch) 32 u = (t, b, none) := read
  clear_value u
  rw [read']
  refine ⟨fun bad => ?_, fun good gather scatter => ?_⟩
  · show ite (descBad b (descOf b (dmaOf t ch)) = true) (badDesc ch t) _ = _
    rw [if_pos bad]
  · show ite (descBad b (descOf b (dmaOf t ch)) = true) _
      (ite ((descOf b (dmaOf t ch)).op ≠ opGather ∧ (descOf b (dmaOf t ch)).op ≠ opScatter) _ _) = _
    rw [if_neg (Bool.eq_false_iff.1 good), if_pos ⟨gather, scatter⟩]

/-- A read of the descriptor that fails is a bus error of the channel. -/
theorem descFetch_of_error {x : Nat} (runs : chState s ch = chRun) (idle : (dmaOf s ch).active = false)
    (read : dmaReadN (chWho (chSet s ch F.DMA_STATUS_KNOCKED 0) ch) (chCur (chSet s ch F.DMA_STATUS_KNOCKED 0) ch) 32
      (chSet s ch F.DMA_STATUS_KNOCKED 0) = (t, b, some x)) : descFetch ch s = dmaError ch x t := by
  have takes : ¬ (chState s ch ≠ chRun ∨ (dmaOf s ch).active = true) := by simp [runs, idle]
  unfold descFetch
  rw [if_neg takes]
  extract_lets u
  have read' : dmaReadN (chWho u ch) (chCur u ch) 32 u = (t, b, some x) := read
  clear_value u
  rw [read']

theorem descComplete_of_idle (h : chState s ch ≠ chRun ∨ (dmaOf s ch).active = false) : descComplete ch s = s := by
  unfold descComplete
  rw [if_pos (h.imp_right fun idle => by simp [idle])]

/-- A descriptor whose every byte is moved without an error is done. -/
theorem descComplete_of_moved (runs : chState s ch = chRun) (active : (dmaOf s ch).active = true)
    (moved : dmaAdvance ch (dmaOf s ch).count s = (t, none)) (runs' : chState t ch = chRun) : descComplete ch s = descDone ch t := by
  unfold descComplete
  rw [if_neg (by simp [runs, active]), moved]
  show ite (chState t ch ≠ chRun) t (descDone ch t) = _
  rw [if_neg (not_not_intro runs')]

/-- An error that fails late reaches a channel that has stopped or halted. -/
theorem beatError_late (addr done : Nat) (h : chState s ch = chStopped ∨ chState s ch = chHalted) : beatError ch addr done s = dmaError ch addr s := by
  have idle : chState s ch ≠ chRun := by
    rcases h with h | h
    · rw [h]; decide
    · rw [h]; decide
  unfold beatError
  dsimp only
  rw [if_neg fun e => idle e.1, if_pos (.inr h)]

end Fetch

/-! ### A bus error (R452) -/

theorem StoresOk.arrive {s : State} (h : StoresOk s) (n : Nat) : StoresOk (arrive n s) :=
  (keeps_arrive n s (h.keeps 0x60) ⟨fun _ hi => hi⟩).storesOk

theorem StoresOk.pushItem {s : State} (h : StoresOk s) (ch result : Nat) (post : Bool) : StoresOk (pushItem ch result post s) :=
  (keeps_pushItem ch result post s (h.keeps 0x242062) ⟨fun _ hi => hi⟩).storesOk

theorem StoresOk.updDma {s : State} (h : StoresOk s) (ch : Nat) (f : DmaCh → DmaCh) : StoresOk (updDma s ch f) :=
  ⟨h.regs, h.staged, h.ctr, h.mem⟩

theorem engineHalted_of_get {s : State} {n : Nat} (h : s.get (pgDMA 0) F.DMA_ENGINE_HALTED = n) : engineHalted s = decide (n = 1) :=
  congrArg (fun n => decide (n = 1)) h

/-- HALTED of both pages. -/
theorem engineHalted_both {s : State} (h : StoresOk s) : engineHalted ([0, 1].foldl (fun s i => s.set (pgDMA i) F.DMA_ENGINE_HALTED 1) s) = true := by
  have other : ((s.set (pgDMA 0) F.DMA_ENGINE_HALTED 1).set (pgDMA 1) F.DMA_ENGINE_HALTED 1).get (pgDMA 0) F.DMA_ENGINE_HALTED =
      (s.set (pgDMA 0) F.DMA_ENGINE_HALTED 1).get (pgDMA 0) F.DMA_ENGINE_HALTED := get_set_ne _ (by decide) 1
  exact engineHalted_of_get (other.trans (get_set_same h (pgDMA 0) (by decide) 1 0))

/-- ERRCH stands beside HALTED in its register. -/
theorem engineHalted_named {s : State} (h : StoresOk s) (ch : Nat) :
    engineHalted ([0, 1].foldl (fun s i => s.set (pgDMA i) F.DMA_ENGINE_ERRCH ch) s) = engineHalted s := by
  have other : ((s.set (pgDMA 0) F.DMA_ENGINE_ERRCH ch).set (pgDMA 1) F.DMA_ENGINE_ERRCH ch).get (pgDMA 0) F.DMA_ENGINE_HALTED =
      (s.set (pgDMA 0) F.DMA_ENGINE_ERRCH ch).get (pgDMA 0) F.DMA_ENGINE_HALTED := get_set_ne _ (by decide) ch
  have beside : (s.set (pgDMA 0) F.DMA_ENGINE_ERRCH ch).get (pgDMA 0) F.DMA_ENGINE_HALTED = s.get (pgDMA 0) F.DMA_ENGINE_HALTED :=
    get_set_apart h (pgDMA 0) (f := F.DMA_ENGINE_ERRCH) (g := F.DMA_ENGINE_HALTED) (j := 0) (k := 0) rfl (by decide) (by decide) ch
  exact engineHalted_of_get (other.trans beside)

theorem engineHalted_evt (s : State) {p : Nat} (hp : p < 256) (bit : Nat) : engineHalted (s.evt p bit) = engineHalted s :=
  engineHalted_of_get (evt_get _ _ _ _ hp (by decide) (not_eventReg (by decide) (by decide)))

/-- A bus error halts the engine. -/
theorem dmaError_halts {s : State} (h : StoresOk s) (ch addr : Nat) : engineHalted (dmaError ch addr s) = true := by
  unfold dmaError
  extract_lets p named failed counted pushed others halted errch
  have pushedOk : StoresOk pushed :=
    StoresOk.pushItem (((StoresOk.updDma (((((h.set ..).set ..).set ..).set ..)) ..).bump ..).evt .. |>.arrive _) ..
  clear_value pushed
  have othersOk : StoresOk others := foldl_induct (fun t c ht => ite_induct ((ht.set ..).updDma ..) ht) _ pushedOk
  clear_value others
  have haltedOk : StoresOk halted := (othersOk.set ..).set ..
  have halts : engineHalted halted = true := engineHalted_both othersOk
  clear_value halted
  have named' : engineHalted errch = true := ite_induct (P := fun t => engineHalted t = true) ((engineHalted_named haltedOk ch).trans halts) halts
  rw [engineHalted_evt _ (by decide), engineHalted_evt _ (by decide), named']

theorem dmaError_mem {s : State} (h : StoresOk s) (ch addr : Nat) : (dmaError ch addr s).mem = s.mem :=
  (keeps_dmaError ch addr s (h.keeps 0x262062) ⟨fun _ hi => hi⟩).parts.memOk'.resolve_left (by simp [Keeping.May])

/-! ### The commands -/

section Commands
variable (ch : Fin 32) (s : State)

theorem exec_descriptorFetch : exec (.descriptorFetch ch) s = .next (descFetch ch.val s.quiet) := rfl

theorem exec_descriptorComplete : exec (.descriptorComplete ch) s = .next (descComplete ch.val s.quiet) := rfl

theorem exec_dmaBeatError (addr : BitVec 40) (done : Nat) :
    exec (.dmaBeatError ch addr done) s = .next (beatError ch.val addr.toNat done s.quiet) := rfl

end Commands

/-- Settles O42. -/
theorem dmaDescriptors : Obligations.DmaDescriptors := by
  refine ⟨?bad, ?good, ?failed, ?idle, ?moved, ?late, ?halts⟩
  case bad =>
    intro ch s t b runs idle read bad
    rw [exec_descriptorFetch, (descFetch_of_bytes (s := s.quiet) runs idle read).1 bad]
  case good =>
    intro ch s t b runs idle read good gather scatter
    rw [exec_descriptorFetch, (descFetch_of_bytes (s := s.quiet) runs idle read).2 good gather scatter]
  case failed =>
    intro ch s t b x runs idle read
    rw [exec_descriptorFetch, descFetch_of_error (s := s.quiet) runs idle read]
  case idle =>
    intro ch s idle
    rw [exec_descriptorComplete, descComplete_of_idle (s := s.quiet) idle]
  case moved =>
    intro ch s t runs active moved runs'
    rw [exec_descriptorComplete, descComplete_of_moved (s := s.quiet) runs active moved runs']
  case late =>
    intro ch addr done s late
    rw [exec_dmaBeatError, beatError_late (s := s.quiet) _ _ late]
  case halts =>
    intro ch addr done s h halted
    refine ⟨_, exec_dmaBeatError ch s addr done, ?_⟩
    rw [beatError_late (s := s.quiet) _ _ (.inr halted)]
    exact ⟨dmaError_halts h.quiet .., dmaError_mem h.quiet ..⟩

end Sys2Proof.Machine
end

section
/-!
SUPPORT. What an access to the frame store leaves of the arbiters (R415, R427): what they hold, and the grants of an arbiter.
-/
namespace Sys2Proof.Machine
open Sys2Proof

theorem EventPartsOnly.mm {s t : State} (h : EventPartsOnly s t) : t.mm = s.mm := by obtain ⟨_, _, _, _, rfl⟩ := h; rfl

/-- The second state has the arbiters of the first, and the grants of arbiter `i`. -/
structure ArbFrame (i : Nat) (s t : State) : Prop where
  arb : t.mm.arb = s.mm.arb
  grants : t.stat (pgARB i) F.ARB_st_GRANTS = s.stat (pgARB i) F.ARB_st_GRANTS

namespace ArbFrame
variable {i : Nat} {s t u : State}

theorem of_ctr (mm : t.mm.arb = s.mm.arb) (ctr : t.ctr = s.ctr) : ArbFrame i s t := ⟨mm, by rw [State.stat, ctr, State.stat]⟩

theorem refl (s : State) : ArbFrame i s s := ⟨rfl, rfl⟩

theorem trans (h : ArbFrame i s t) (h' : ArbFrame i t u) : ArbFrame i s u := ⟨h'.arb.trans h.arb, h'.grants.trans h.grants⟩

theorem ite {c : Prop} [Decidable c] (ht : ArbFrame i s t) (hu : ArbFrame i s u) : ArbFrame i s (if c then t else u) := ite_induct ht hu

theorem foldl {α : Type} {f : State → α → State} (l : List α) (hf : ∀ s, ∀ x ∈ l, ArbFrame i s (f s x)) (s : State) :
    ArbFrame i s (l.foldl f s) :=
  List.foldlRecOn l f (refl s) fun _ h x hx => h.trans (hf _ x hx)

theorem foldl_fst {α β : Type} {f : State × β → α → State × β} (hf : ∀ p x, ArbFrame i p.1 (f p x).1) (l : List α) (p : State × β) :
    ArbFrame i p.1 (l.foldl f p).1 :=
  List.foldlRecOn (motive := fun q => ArbFrame i p.1 q.1) l f (refl _) fun q h x _ => h.trans (hf q x)

theorem setReg (s : State) (p off : Nat) (v : Word) : ArbFrame i s (s.setReg p off v) := of_ctr rfl rfl

theorem set (s : State) (p : Nat) (f : Fld) (v k : Nat) : ArbFrame i s (s.set p f v k) := setReg ..

theorem fault (s : State) (p c off a : Nat) : ArbFrame i s (s.fault p c off a) := (setReg ..).trans (setReg ..)

theorem emit (s : State) (o : Out) : ArbFrame i s (s.emit o) := of_ctr rfl rfl

/-- A statistic of a page below the arbiters'. -/
theorem bump (s : State) {p k : Nat} {f : Fld} (h : State.statKey p f k < regKey (pgARB 0) 0 * 32) (n : Nat) : ArbFrame i s (s.bump p f n k) := by
  refine ⟨congrArg MemState.arb (bump_mm ..), stat_bump_ne _ ?_ n⟩
  simp only [State.statKey, regKey, pgARB] at h ⊢
  omega

variable (hi : i < 2)
include hi

theorem evt (s : State) (p bit : Nat) : ArbFrame i s (s.evt p bit) := by
  refine ⟨congrArg MemState.arb (EventPartsOnly.evt s p bit).mm, stat_evt s p bit ?_⟩
  simp only [State.statKey, regKey, pgARB, pgEVC, F.ARB_st_GRANTS]
  omega

/-! ### Errors of ECC words, and guard windows (R124, R417, R438) -/

theorem recordErr (unc sram : Bool) (source word : Nat) (s : State) : ArbFrame i s (recordErr unc sram source word s) := by
  unfold Machine.recordErr
  extract_lets had kind source placed faulted
  have placed' : ArbFrame i s placed := by
    unfold placed
    split
    · exact refl s
    · exact (((((set ..).trans (set ..)).trans (set ..)).trans (set ..)).trans (set ..)).trans (set ..)
  have faulted' : ArbFrame i s faulted := placed'.trans (ite (fault ..) (refl _))
  exact faulted'.trans (evt hi ..)

theorem checkWord (w : Who) (sram : Bool) (word : Nat) (s : State) : ArbFrame i s (checkWord w sram word s).1 := by
  unfold Machine.checkWord
  split
  · exact refl s
  · dsimp only
    split
    · refine trans (trans (t := { s with mm := { s.mm with ecc := amDel s.mm.ecc word } }) (of_ctr rfl rfl) ?_) (recordErr hi ..)
      cases sram
      · exact bump _ (by decide) 1
      · exact bump _ (by decide) 1
    · exact recordErr hi ..

theorem checkRead (w : Who) (sram : Bool) (words : List Nat) (s : State) : ArbFrame i s (checkRead w sram words s).1 := by
  have counted (t : State) : ArbFrame i t (countUnc sram t) := by
    unfold countUnc
    cases sram
    · exact bump t (by decide) 1
    · exact bump t (by decide) 1
  unfold Machine.checkRead
  refine trans (foldl_fst (fun p x => ?_) words (s, true)) (ite (refl _) (counted _))
  exact checkWord hi ..

theorem checkWords (w : Who) (sram : Bool) (a n : Nat) (s : State) : ArbFrame i s (checkWords w sram a n s).1 := by
  unfold Machine.checkWords
  split
  · exact checkRead hi ..
  · exact foldl_fst (fun p b => by exact checkRead hi ..) _ (s, true)

theorem guarded (w : Who) (off n : Nat) (s : State) : ArbFrame i s (guarded w off n s).1 := by
  refine foldl _ (fun t v hv => ?_) s
  have window : v < 16 := List.mem_range.1 (List.mem_filter.1 hv).1
  have hit : ArbFrame i t (t.bump (pgVEN v) F.VEN_st_GHITS) :=
    bump t (by simp only [State.statKey, regKey, pgVEN, pgARB, F.VEN_st_GHITS]; omega) 1
  exact ((((hit.trans (set ..)).trans (set ..)).trans (set ..)).trans (set ..)).trans (evt hi ..)

/-! ### A granted burst moves (R418, R428) -/

theorem mergeWords (w : Who) (sram : Bool) (a n : Nat) (s : State) : ArbFrame i s (mergeWords w sram a n s).1 := by
  refine foldl_fst (fun p x => ?_) _ (s, true)
  dsimp only
  split
  · exact refl _
  · exact (bump p.1 (by decide) 1).trans (checkRead hi w sram [x] _)

omit hi in
theorem injectOn (a n : Nat) (s : State) : ArbFrame i s (injectOn a n s) := by
  unfold Machine.injectOn
  split
  · exact refl s
  · exact ite (of_ctr rfl rfl) (refl s)

omit hi in
theorem breakReservations (a n : Nat) (s : State) : ArbFrame i s (Machine.breakReservations a n s) := of_ctr rfl rfl

omit hi in
theorem confNote (l : List Nat) (s : State) : ArbFrame i s (confNote l s) := of_ctr rfl rfl

theorem wrBurst (w : Who) (a : Nat) (b : List Byte) (s : State) : ArbFrame i s (wrBurst w a b s).1 := by
  unfold Machine.wrBurst
  extract_lets n sram
  split
  · have tested : ArbFrame i s (if sram then (s, false) else Machine.guarded w (fsOffset a) n s).1 := by
      split
      · exact refl s
      · exact guarded hi ..
    generalize (if sram then (s, false) else Machine.guarded w (fsOffset a) n s) = test at tested ⊢
    dsimp only
    split
    · exact tested
    · have merged := tested.trans (mergeWords hi w sram a n test.1)
      split
      · exact merged
      · have put (t : State) (mem : List Host.Cell) (ecc : List (Nat × Nat)) :
            ArbFrame i t (Machine.breakReservations a n (Machine.injectOn a n { t with mem := mem, mm := { t.mm with ecc := ecc } })) :=
          trans (trans (t := { t with mem := mem, mm := { t.mm with ecc := ecc } }) (of_ctr rfl rfl) (injectOn ..)) (breakReservations ..)
        exact (merged.trans (put ..)).trans (ite (refl _) (confNote ..))
  · exact refl s

theorem wrMem (w : Who) (a : Nat) (b : List Byte) (s : State) : ArbFrame i s (wrMem w a b s).1 := by
  unfold Machine.wrMem
  split
  · exact foldl_fst (fun p k => by exact wrBurst hi ..) _ (s, true)
  · exact wrBurst hi ..

theorem rdMem (w : Who) (off n : Nat) (s : State) : ArbFrame i s (rdMem w (fsBase + off) n s).1 := by
  have above : inRange .mram (fsBase + off) n = false := by
    simp only [inRange, Bool.and_eq_false_iff, decide_eq_false_iff_not]
    refine .inl fun h => ?_
    unfold region fsBase at h
    split at h
    · cases h
    · split at h
      · cases h
      · rw [if_neg (by omega)] at h
        split at h
        · cases h
        · split at h <;> cases h
  unfold Machine.rdMem
  rw [above]
  split
  · exact refl s
  · split
    · exact checkWords hi ..
    · split
      · next e => cases e
      · split
        · split
          · exact refl s
          · exact checkWords hi ..
        · exact refl s

theorem arbMove (r : ArbReq) (s : State) : ArbFrame i s (arbMove r s) := by
  unfold Machine.arbMove
  dsimp only
  split
  · exact (wrMem hi ..).trans (emit ..)
  · exact (rdMem hi ..).trans (emit ..)

end ArbFrame
end Sys2Proof.Machine
end

section
/-!
SETTLE. The deadline arbiters (R427 to R436, R503): a port's request, a round, and a parked request presented again.
-/
namespace Sys2Proof.Machine
open Sys2Proof

/-! ### A port offers a request -/

theorem exec_arbiterRequest (arb : Fin 2) (port : Fin 24) (off : BitVec 27) (len : Fin 65) (data : Option (List Byte)) (dl : Option Word)
    (tag : Nat) (s : State) : exec (.arbiterRequest arb port off len data dl tag) s =
      .next (arbOffer (chanOf off.toNat) port off.toNat len data (dl.or (portDeadline s.quiet port data.isNone tag)) tag s.quiet) := rfl

theorem exec_arbiterRound (arb : Fin 2) (s : State) : exec (.arbiterRound arb) s = .next (arbRound arb s.quiet) := rfl

theorem exec_forerunnerRepresent (arb : Fin 2) (port : Fin 24) (s : State) :
    exec (.forerunnerRepresent arb port) s = .next (arbRepresent arb port s.quiet) := rfl

section
variable {i p : Nat} {d : Option Word} {s : State} (off len : Nat) (data : Option (List Byte)) (tag : Nat)

theorem arbOffer_of_busy (h : portBusy s i p = true) : arbOffer i p off len data d tag s = s := by
  simp [arbOffer, arbRequest, h]

theorem arbOffer_of_past {x : Word} (h : portBusy s i p = false) (hx : stPast x s.st = true) :
    arbOffer i p off len data (some x) tag s = missedOffer p s := by
  simp [arbOffer, h, hx]

theorem arbOffer_of_due (hd : ∀ x, d = some x → stPast x s.st = false) :
    arbOffer i p off len data d tag s = arbRequest i p off len data d tag s := by
  unfold arbOffer
  refine if_neg ?_
  cases d with
  | none => simp
  | some x => simp [hd x rfl]

theorem arbRequest_of_free (h : portBusy s i p = false) : arbRequest i p off len data d tag s =
    if (arbMade i p off len data d tag s).fore ∨ mayPend s i p then arbPresent i (arbMade i p off len data d tag s) s
    else arbWithhold i (arbMade i p off len data d tag s) s := by
  simp [arbRequest, h]

end

theorem missedOffer_air {s : State} : missedOffer 15 s = match s.air.frame with | some f => loadLate f s | none => s := rfl

theorem missedOffer_other {p : Nat} (h : p ≠ 15) (s : State) :
    missedOffer p s = if p = 9 then (s.bump pgFAB F.FAB_st_TILEDROP).evt pgFAB 9 else s := by
  rw [missedOffer, if_neg h]

/-! ### A parked request comes back -/

theorem arbRepresent_of_due {i p : Nat} {s : State} {r : ArbReq} (h : (arbPort s i p).parked = some r) (due : (arbPort s i p).sitOut = 0)
    (unmasked : s.flag (pgARB i) F.ARB_PORT_MASKED p = false) :
    arbRepresent i p s = arbPresent i r (updArbPort s i p fun k => { k with parked := none }) := by
  simp [arbRepresent, h, due, unmasked]

/-! ### A round -/

theorem arbWinner_nil (s : State) (i : Nat) : arbWinner s i [] = none := by
  unfold arbWinner
  dsimp only
  split <;> rfl

theorem arbWinner_one (s : State) (i : Nat) (r : ArbReq) : arbWinner s i [r] = some r := by
  unfold arbWinner
  dsimp only
  split
  · next p found =>
    have named := List.find?_some found
    simp only [List.any_cons, List.any_nil, Bool.or_false, Bool.and_eq_true, decide_eq_true_eq] at named
    simp [named.2]
  · rfl

theorem arbRound_of_empty {i : Nat} {s : State} (hq : (arbOf s i).queue = []) (hf : (arbOf s i).fresh = []) : arbRound i s = s := by
  unfold arbRound
  simp only [hq, hf, List.append_nil, arbRanked, arbWinner_nil]

/-- Arbiter `i` has every port, and none of its requests waits: none presented, none pending, no handshake withheld. -/
structure ArbClear (i : Nat) (s : State) : Prop where
  arbs : i < s.mm.arb.length
  ports : (arbOf s i).ports.length = 24
  queue : (arbOf s i).queue = []
  fresh : (arbOf s i).fresh = []
  held : ∀ q, (arbPort s i q).held = none

theorem arbOf_updArb_same {i : Nat} {s : State} (h : i < s.mm.arb.length) (f : Arb → Arb) : arbOf (updArb s i f) i = f (arbOf s i) :=
  getD_updAt_same h f _

theorem updArb_stat (s : State) (i : Nat) (f : Arb → Arb) (q : Nat) (g : Fld) : (updArb s i f).stat q g = s.stat q g := rfl

theorem arbPort_updArbPort_same {i p : Nat} {s : State} (h : i < s.mm.arb.length) (hp : p < (arbOf s i).ports.length) (f : ArbPort → ArbPort) :
    arbPort (updArbPort s i p f) i p = f (arbPort s i p) := by
  rw [arbPort, updArbPort, arbOf_updArb_same h, getD_updAt_same hp, arbPort]

namespace ArbClear
variable {i : Nat} {s t : State}

theorem of_arb (h : ArbClear i s) (e : t.mm.arb = s.mm.arb) : ArbClear i t := by
  have same : arbOf t i = arbOf s i := by rw [arbOf, e, arbOf]
  refine ⟨e ▸ h.arbs, same ▸ h.ports, same ▸ h.queue, same ▸ h.fresh, fun q => ?_⟩
  rw [arbPort, same]
  exact h.held q

theorem updArbPort (h : ArbClear i s) (p : Nat) {f : ArbPort → ArbPort} (hf : ∀ k, (f k).held = k.held) : ArbClear i (updArbPort s i p f) := by
  have changed := arbOf_updArb_same h.arbs fun a => { a with ports := updAt a.ports p f }
  refine ⟨?_, ?_, ?_, ?_, fun q => ?_⟩
  · exact (updAt_length ..).symm ▸ h.arbs
  · rw [Machine.updArbPort, changed]
    exact (updAt_length ..).trans h.ports
  · rw [Machine.updArbPort, changed]
    exact h.queue
  · rw [Machine.updArbPort, changed]
    exact h.fresh
  · rw [arbPort, Machine.updArbPort, changed]
    exact (getD_updAt_proj ArbPort.held hf ..).trans (h.held q)

theorem arbWaiter (h : ArbClear i s) : arbWaiter s i = none := by
  have none_held : (List.range 24).filterMap (fun q => (arbPort s i q).held) = [] := List.filterMap_eq_nil_iff.2 fun q _ => h.held q
  rw [Machine.arbWaiter, none_held, List.foldl_nil]

theorem arbAdmit (h : ArbClear i s) (n : Nat) : arbAdmit i n s = s := by
  cases n with
  | zero => rfl
  | succ n => rw [Machine.arbAdmit, h.arbWaiter]

end ArbClear

namespace ArbFrame
variable {i : Nat} {s t : State}

theorem bump_ne (s : State) {p k : Nat} {f : Fld} (h : State.statKey (pgARB i) F.ARB_st_GRANTS 0 ≠ State.statKey p f k) (n : Nat) :
    ArbFrame i s (s.bump p f n k) :=
  ⟨congrArg MemState.arb (bump_mm ..), stat_bump_ne s h n⟩

theorem statMax_ne (s : State) {p k : Nat} {f : Fld} (h : State.statKey (pgARB i) F.ARB_st_GRANTS 0 ≠ State.statKey p f k) (v : Nat) :
    ArbFrame i s (s.statMax p f v k) := by
  refine ite_induct ⟨rfl, ?_⟩ (refl s)
  exact congrArg (·.getD 0) (amGet_amSet_ne _ _ _ _ h)

/-- The statistics of a port and the missed deadlines have places of their own beside the grants. -/
theorem grants_place (i k : Nat) : (State.statKey (pgARB i) F.ARB_st_GRANTS 0 ≠ State.statKey (pgARB i) F.ARB_st_P_GRANTS k) ∧
    (State.statKey (pgARB i) F.ARB_st_GRANTS 0 ≠ State.statKey (pgARB i) F.ARB_st_P_MAXWAIT k) ∧
    (State.statKey (pgARB i) F.ARB_st_GRANTS 0 ≠ State.statKey (pgARB i) F.ARB_st_P_DLMISS k) ∧
    State.statKey (pgARB i) F.ARB_st_GRANTS 0 ≠ State.statKey (pgARB i) F.ARB_st_DLMISS 0 := by
  simp only [State.statKey, regKey, F.ARB_st_GRANTS, F.ARB_st_P_GRANTS, F.ARB_st_P_MAXWAIT, F.ARB_st_P_DLMISS, F.ARB_st_DLMISS]
  omega

end ArbFrame

/-- Arbiter `i` is clear after a grant to port `p`: the port's RETRY is 1, and the grants are `n`. -/
structure ArbGranted (i p n : Nat) (s : State) : Prop where
  clear : ArbClear i s
  retry : (arbPort s i p).retry = 1
  grants : s.stat (pgARB i) F.ARB_st_GRANTS = n

theorem ArbGranted.frame {i p n : Nat} {s t : State} (h : ArbGranted i p n s) (f : ArbFrame i s t) : ArbGranted i p n t := by
  refine ⟨h.clear.of_arb f.arb, ?_, f.grants.trans h.grants⟩
  rw [arbPort, arbOf, f.arb]
  exact h.retry

section Round
variable {i : Nat} {s : State} {r : ArbReq}

theorem arbRound_of_one (hi : i < 2) (arbs : i < s.mm.arb.length) (ports : (arbOf s i).ports.length = 24) (port : r.port < 24)
    (queue : (arbOf s i).queue = []) (fresh : (arbOf s i).fresh = [r]) (held : ∀ q, (arbPort s i q).held = none) :
    ArbGranted i r.port (min 0xFFFFFFFF (s.stat (pgARB i) F.ARB_st_GRANTS + 1)) (arbRound i s) := by
  have ranked : arbRanked ((arbOf s i).queue ++ (arbOf s i).fresh) = [r] := by simp [queue, fresh, arbRanked]
  unfold arbRound
  extract_lets a rs
  have rs' : rs = [r] := ranked
  clear_value rs
  subst rs'
  split
  · next none => cases (arbWinner_one s i r).symm.trans none
  · next x win =>
    obtain rfl : r = x := Option.some.inj ((arbWinner_one s i r).symm.trans win)
    extract_lets p gone inQ left taken waiting waited again wait counted missed late moved rest
    have left' : left = [] := by simp [left, inQ, a, queue, fresh, gone]
    have taken' : ArbClear i taken := by
      have changed : arbOf taken i = { arbOf s i with queue := (arbOf s i).queue.eraseP fun q => decide (gone q), fresh := [] } :=
        arbOf_updArb_same arbs _
      refine ⟨(updAt_length ..).symm ▸ arbs, ?_, ?_, ?_, fun q => ?_⟩
      · rw [changed]; exact ports
      · rw [changed, queue]; rfl
      · rw [changed]
      · rw [arbPort, changed]; exact held q
    have waited' : ArbClear i waited ∧ waited.stat (pgARB i) F.ARB_st_GRANTS = s.stat (pgARB i) F.ARB_st_GRANTS := by
      refine foldl_induct (P := fun t => ArbClear i t ∧ t.stat (pgARB i) F.ARB_st_GRANTS = s.stat (pgARB i) F.ARB_st_GRANTS) ?_ _ ?_
      · rintro t q ⟨clear, grants⟩
        exact ⟨clear.updArbPort q fun _ => rfl, (updArb_stat ..).trans grants⟩
      · exact ⟨taken', updArb_stat ..⟩
    obtain ⟨clear, grants⟩ := waited'
    have again' : ArbGranted i p (s.stat (pgARB i) F.ARB_st_GRANTS) again :=
      ⟨clear.updArbPort p fun _ => rfl,
        congrArg ArbPort.retry (arbPort_updArbPort_same clear.arbs (clear.ports.symm ▸ port) fun k => { k with retry := 1 }),
        (updArb_stat ..).trans grants⟩
    obtain ⟨placeGrants, placeWait, placeMiss, placeLate⟩ := ArbFrame.grants_place i p
    have granted : ArbGranted i p (min 0xFFFFFFFF (s.stat (pgARB i) F.ARB_st_GRANTS + 1)) (again.bump (pgARB i) F.ARB_st_GRANTS) := by
      refine ⟨again'.clear.of_arb (congrArg MemState.arb (bump_mm ..)), ?_, ?_⟩
      · rw [arbPort, arbOf, bump_mm]
        exact again'.retry
      · rw [stat_bump_same, again'.grants]
    have counted' : ArbFrame i (again.bump (pgARB i) F.ARB_st_GRANTS) counted :=
      (ArbFrame.bump_ne _ placeGrants 1).trans (ArbFrame.statMax_ne _ placeWait _)
    have late' : ArbFrame i counted late :=
      .ite (((ArbFrame.bump_ne _ placeLate 1).trans (ArbFrame.bump_ne _ placeMiss 1)).trans (.evt hi ..)) (.refl _)
    have moved' : ArbGranted i p (min 0xFFFFFFFF (s.stat (pgARB i) F.ARB_st_GRANTS + 1)) moved :=
      granted.frame ((counted'.trans late').trans (.arbMove hi r late))
    have rest' : rest = moved := by unfold rest; rw [left', List.foldl_nil]
    rw [rest', moved'.clear.arbAdmit]
    exact moved'

end Round

/-! ### The obligation -/

/-- Settles O40. A port that presents nothing leaves the state (`arbOffer_of_busy`, `missedOffer`); a request presented is `arbMade`; a round grants
the one request there is (`arbRound_of_one`) and moves its burst, which leaves the arbiters alone (`ArbFrame.arbMove`). -/
theorem deadlineArbiter : Obligations.DeadlineArbiter := by
  unfold Obligations.DeadlineArbiter
  refine ⟨?_, ?_, ?_, ?_⟩
  · intro arb port off len data dl d tag i s hi hd
    subst hi
    rw [exec_arbiterRequest, ← hd]
    refine ⟨fun busy => ?_, fun idle r due made => ?_, fun idle x past late => ?_⟩
    · rw [arbOffer_of_busy _ _ _ _ busy]
    · have made' : r = arbMade (chanOf off.toNat) port off.toNat len data d tag s.quiet := made
      rw [arbOffer_of_due (s := s.quiet) _ _ _ _ due, arbRequest_of_free _ _ _ _ idle, ← made']
      refine ⟨fun room => ?_, fun plain full => ?_⟩
      · rw [if_pos room]
        rfl
      · rw [if_neg (by simp [plain, full])]
        subst made'
        rfl
    · subst past
      rw [arbOffer_of_past (s := s.quiet) _ _ _ _ idle late]
      refine ⟨fun other => ?_, fun air none => ?_, fun f air some => ?_⟩
      · rw [missedOffer_other other]
      · rw [air, missedOffer_air, State.quiet, none]
      · rw [air, missedOffer_air, State.quiet, some]
  · intro arb s queue fresh
    rw [exec_arbiterRound, arbRound_of_empty (s := s.quiet) queue fresh]
  · intro arb s r _ arbs port ports queue fresh held
    have granted := arbRound_of_one (s := s.quiet) arb.isLt arbs ports port queue fresh held
    exact ⟨_, exec_arbiterRound arb s, granted.clear.queue, granted.clear.fresh, granted.retry, granted.grants⟩
  · intro arb port s r parked due unmasked
    rw [exec_forerunnerRepresent, arbRepresent_of_due (s := s.quiet) parked due unmasked]
    rfl
end Sys2Proof.Machine
end
